-- ==== Sys2Proof/Word.lean ====
section
/-! DEFINITION. The word types of the TV8440 and their plainest arithmetic. -/

namespace Sys2Proof

/-- One byte. -/
abbrev Byte := BitVec 8

/-- A 64-byte line, the unit of sealing and rule checking (spec/00_scope.md, glossary). -/
abbrev Line := BitVec 512

/-- A 64-bit register value. -/
abbrev Word := BitVec 64

/-- A 256-bit glove key (R62). -/
abbrev Key := BitVec 256

/-- A SHA-384 digest (R83). -/
abbrev Digest := BitVec 384

end Sys2Proof
end

