-- ==== Sys2Proof/Syntax.lean ====
section
/-! DEFINITION. The commands of the TV8440: one constructor of `Instr` for each row of spec/opcode_table.json,
with the operands that the rule of the row gives the event. -/

namespace Sys2Proof

/-- A PCIe function: its link 0-15 (R284) and its number, 0 for PF0 and 1-255 for a VF (R46). -/
structure FnId where
  link : Nat
  fn : Nat
deriving DecidableEq, Repr

/-- A queue: its function and its queue number (R345). -/
structure QId where
  link : Nat
  fn : Nat
  q : Nat
deriving DecidableEq, Repr

/-- A Finger: its function and its index 0-15 (R397). -/
structure FgId where
  link : Nat
  fn : Nat
  f : Nat
deriving DecidableEq, Repr

/-- Where a queue command comes from: its queue and the free-running index of its entry (R350). -/
structure Origin where
  q : QId
  idx : Nat
deriving DecidableEq, Repr

/-- The opcodes of Weave packets (R241); `reserved` is every other code. -/
inductive POp where
  | memRd | memWr | memRdLock | memWrUnlock | unlock | zlRd | regRd | regWr
  | cplD | cpl | ack
  | mqRd | mqWr | mqMac | tierLookup | tierFill | mirrorWr
  | mrD | mrAck
  | event | msgReq | mgmt | fault | ruleFault
  | reserved (code : Nat)
deriving DecidableEq, Repr

/-- A Weave packet: the fields of the header flit (R239) and its data flits (R238). `addr`, `len` and the unit,
tag and knot fields are numbers; byte enables and lines are bit vectors. -/
structure Packet where
  op : POp
  /-- Virtual channel code of R240. -/
  vc : Nat := 2
  dest : Nat := 0
  /-- DEST_KNOT, as 12y + x. -/
  destKnot : Nat := 0
  initUnit : Nat := 0
  /-- INIT_KNOT, as 12y + x. -/
  initKnot : Nat := 0
  tag : Nat := 0
  ctx : Nat := 0
  addr : Nat := 0
  hostSpace : Bool := false
  link : Nat := 0
  fn : Nat := 0
  len : Nat := 0
  firstBE : BitVec 64 := BitVec.allOnes 64
  lastBE : BitVec 64 := BitVec.allOnes 64
  status : Nat := 0
  world : Nat := 0
  gloveValid : Bool := false
  glove : Nat := 0
  home : Nat := 0
  epoch : Bool := false
  ackReq : Bool := false
  ep : Bool := false
  prefetch : Bool := false
  metaw : BitVec 64 := 0
  data : List Line := []
deriving DecidableEq, Repr

/-- The IDE stream a TLP arrived under and whether its integrity check passed (R90). -/
structure IdeMark where
  stream : Nat
  ok : Bool
deriving DecidableEq, Repr

/-- A received memory read TLP (R306). -/
structure HostRead where
  link : Nat
  addr : Nat
  /-- Bytes, 0 for a zero-length read. -/
  len : Nat
  tag : Nat
  ide : Option IdeMark := none
deriving DecidableEq, Repr

/-- A received posted memory write TLP: `data` holds one element for each byte from `addr` on, `none` where the
byte is not enabled (R308). -/
structure HostWrite where
  link : Nat
  addr : Nat
  data : List (Option Byte)
  ep : Bool := false
  ide : Option IdeMark := none
deriving DecidableEq, Repr

/-- The AtomicOps the Cuff performs (R294). -/
inductive AtomicKind where
  | fetchAdd | swap | cas
deriving DecidableEq, Repr

/-- A received AtomicOp TLP (R319). -/
structure HostAtomic where
  link : Nat
  addr : Nat
  kind : AtomicKind
  /-- Operand bytes: 4, 8 or 16. -/
  size : Nat
  operand : BitVec 128
  compare : BitVec 128
  tag : Nat
  ide : Option IdeMark := none
deriving DecidableEq, Repr

/-- The requests that R304 names and that reach no function. -/
inductive BadReq where
  | ioRead | ioWrite | lockedRead | unmatchedRead | unmatchedWrite | vendorMessage
deriving DecidableEq, Repr

/-- PCI Express completion status. -/
inductive CplStatus where
  | sc | ur | ca | rrs
deriving DecidableEq, Repr

/-- A completion received from the host (R326). -/
structure HostCpl where
  link : Nat
  fn : Nat
  tag : Nat
  status : CplStatus
  data : List Byte
  ep : Bool := false
  ide : Option IdeMark := none
deriving DecidableEq, Repr

/-- The lanes that the link partner trains with, and the widths for which it advertises L0p (R286, R292). -/
structure PartnerWidth where
  lanes : Nat
  l0p : List Nat := []
deriving DecidableEq, Repr

/-- The configuration fields that BAR_WRITE writes (R180, R184, R94): `vfStride` stands for the SR-IOV stride fields
and `msixTable` for a write to the MSI-X table location. -/
inductive BarField where
  | bar0 | vfBar0 | vfBar2 | vfStride | msixTable (fn : Nat)
deriving DecidableEq, Repr

/-- AER errors a function logs (R342). -/
inductive Aer where
  | unsupportedRequest | completerAbort | completionTimeout | unexpectedCompletion | poisonedTlp
  | ideCheckFailed | uncorrectableInternal | malformedTlp
  | headerLogOverflow | correctedInternal
  | receiverError | badTlp | badDllp | replayTimeout | replayRollover
  | dataLinkProtocol | flowControlProtocol | receiverOverflow
deriving DecidableEq, Repr

/-- A recovery or a change of width that the host asks for: `l0p` is the width of an L0p request, `err` the data link or flow control
protocol error or the receiver overflow that the host recovers the link from (R291, R293, R342). -/
structure HostRecovery where
  link : Nat
  l0p : Option Nat := none
  err : Option Aer := none
deriving DecidableEq, Repr

/-- The configuration fields without a row of their own (R8, R87, R294, R341, R342). Of the IDE capability: the enable bit of the link
stream (no block) or of a selective stream block with its stream ID, and the RID and address association ranges of a block. -/
inductive CfgField where
  | mse | vfMse | msixEnable | pmeEn | pmeStatus | mps | mrrs | rcb | tags | ctv | reserved
  | aerStatus (e : Aer) | aerMask (e : Aer) | aerSeverity (e : Aer)
  | ideStream (block : Option Nat) (id : Nat)
  | ideRid (block lo hi : Nat)
  | ideAddr (block i base limit : Nat)
deriving DecidableEq, Repr

/-- What a register write without a row of its own addresses: a BAR0 byte offset, with one element for each byte from
that offset on (`none` not enabled), or a configuration field. -/
inductive RegTarget where
  | bar0 (off : Nat) (data : List (Option Byte))
  | cfg (field : CfgField) (value : Nat)
deriving DecidableEq, Repr

/-- What an MSIX_MASK_WRITE writes (R499). -/
inductive MaskTarget where
  | vector (v : Nat)
  | function
deriving DecidableEq, Repr

/-- The leaky buckets of R520. -/
inductive Bucket where
  | wire (knot port group : Nat)
  | hostLane (cuff lane : Nat)
  | borderLane (link lane : Nat)
  | borderDown (link : Nat)
  | ddrIntegrity (ch : Nat)
  | ddrUncorrectable (ch : Nat)
  | hbmPseudo (stack pc : Nat)
  | recovery (unit : Nat)
deriving DecidableEq, Repr

/-- What the ECC finds in one access of a channel (R106, R156). -/
inductive EccResult where
  | clean | corrected | uncorrectable
deriving DecidableEq, Repr

/-- The errors a strand receiver meets in one handshake (R268-R270): the groups, 0-3 of lane 0 and 4-7 of lane 1 (R233), with a
single-bit error and with an uncorrectable error, and whether the two control copies differ. -/
structure StrandError where
  single : List Nat := []
  bad : List Nat := []
  control : Bool := false
deriving DecidableEq, Repr

/-- A memory scheduler: a DDR channel or an HBM pseudo-channel (R153). -/
inductive Sched where
  | ddr (ch : Nat)
  | hbm (stack pc : Nat)
deriving DecidableEq, Repr

/-- A copy whose original is held correctly elsewhere (R518): a translation-cache entry of a checker, its rule copy of a glove, a clean
counter block, MAC line or ownership line of a DDR gate's counter cache, a clean line of an HBM gate's by its node key, or a line of a
Finger's instruction buffer. -/
inductive CopyOf where
  | translation (unit link glove index : Nat)
  | rules (glove : Nat)
  | counter (gate block : Nat)
  | macLine (gate addr : Nat)
  | ownership (gate line : Nat)
  | node (hgate key : Nat)
  | instruction (f : FgId) (addr : Nat)
deriving DecidableEq, Repr

/-- The row of R517 that a fault report belongs to. `badCopy` is what a unit finds in a copy, and `copyRetried` what it reports when the
second fetch succeeded (R518); the error of a host link names the AER error of R342. -/
inductive FaultError where
  | linkRetry (lane : Nat) (err : Aer)
  | badCopy (c : CopyOf)
  | copyRetried
  | correctedMemory
  | contained
  | tableUncorrectable
  | linkNoWidth (link : Nat)
  | strandSingle (knot port group : Nat)
  | headerCorrupt
  | integrity
  | gateMemory
  | treeFailure
  | rootMismatch
  | stackController
  | poisonedDdr
  | caRetrained
  | caPersistent
  | poisonedHbm (pc : Nat)
  | pseudoFailed (pc : Nat) (spare : Bool)
  | borderParity (lane : Nat)
  | unfenceable
  | mramRetried
  | mramFailed
  | selfTest
deriving DecidableEq, Repr

/-- A FAULT packet's content (R512-R517). -/
structure FaultReport where
  /-- Class code of R513. -/
  cls : Nat
  error : FaultError
  /-- Code of R517. -/
  code : Nat
  unit : Nat
  /-- Quadrant of R513. -/
  quad : Nat
  element : Nat
  glove : Option Nat := none
deriving DecidableEq, Repr

/-- A violation report (R211-R213). -/
structure Violation where
  glove : Nat
  addr : Nat
  code : Nat
  world : Nat
  write : Bool
  unit : Nat
deriving DecidableEq, Repr

/-- A DIMM as its SPD and training show it (R102, R104, R555). -/
structure Dimm where
  ch : Nat
  /-- 0 64 GiB, 1 128 GiB, 2 256 GiB. -/
  size : Nat
  mrdimm : Bool
  /-- Highest rate code it supports, coded as POL_POPULATION.RATE. -/
  rate : Nat
deriving DecidableEq, Repr

/-- What the board shows the device during start-up (R547, R548, R551, R555, R492). -/
structure Board where
  dimms : List Dimm := []
  /-- Flash answers for copy A and copy B within its time limit. -/
  flashA : Bool := true
  flashB : Bool := true
  /-- Channels whose training fails after three attempts. -/
  ddrFail : List Nat := []
  /-- Pseudo-channels that fail training, 32 for a whole stack: (stack, pseudo-channel). -/
  hbmFail : List (Nat × Nat) := []
  /-- Rows that hPPR can repair at this start-up: record indices (R176). -/
  hpprOk : List Nat := []
  /-- Levels of EVT_IN[7:0]. -/
  evtPins : BitVec 8 := 0
  /-- Links whose PERST# is asserted. -/
  perst : List Nat := []
  /-- Junction temperatures of the four quadrants. -/
  temps : List Nat := []
deriving DecidableEq, Repr

/-- Host link power states (R572, R568). -/
inductive LinkPower where
  | l0 | l1 | l11 | l12 | l2
deriving DecidableEq, Repr

/-- Carriers of SPDM messages: the DOE mailbox of a host link's PF0 with the secure session the message came in, if
any (R84), or a Border link in ADMITTING (R75). -/
inductive SpdmCh where
  | host (link : Nat) (session : Option Nat)
  | border (link : Nat)
deriving DecidableEq, Repr

/-- The capability flags of GET_CAPABILITIES (R75, R84); MEAS_CAP takes two bits. -/
structure SpdmCaps where
  cert : Bool
  chal : Bool
  meas : BitVec 2
  keyEx : Bool
  encrypt : Bool
  mac : Bool
  mutAuth : Bool
  encap : Bool
deriving DecidableEq, Repr

/-- What a NEGOTIATE_ALGORITHMS request offers (R84). -/
structure SpdmAlgs where
  ecdsaP384 : Bool
  sha384 : Bool
  dheP384 : Bool
  aes256gcm : Bool
  keySchedule : Bool
  dmtf : Bool
  reqBaseP384 : Bool
deriving DecidableEq, Repr

/-- A certificate chain as presented by a basket peer: whether it verifies to the Lamocon root, the measurement 5 of its
alias certificate and the basket position (R74, R75). -/
structure PeerChain where
  chain : List Byte
  measurement5 : Digest
  position : Nat
deriving DecidableEq, Repr

/-- The SPDM responses a requester Crown can receive (R75). -/
inductive PeerResponse where
  | version (only12 : Bool)
  | capabilities (caps : SpdmCaps)
  | algorithms (algs : SpdmAlgs)
  | digests
  | certificate (c : PeerChain)
  | keyExchangeRsp (sigOk : Bool) (mutAuth : Bool)
  | encapsulatedGetDigests
  | encapsulatedGetCertificate (slot : Nat)
  | encapsulatedAck
  | error
  | other
deriving DecidableEq, Repr

/-- An encapsulated response delivered to the responder Crown (R75). -/
inductive EncapResponse where
  | digests
  | certificate (c : PeerChain)
  | other
deriving DecidableEq, Repr

/-- Unsupported SPDM, vendor-defined or TDISP requests (R84, R92, R68). -/
inductive SpdmBad where
  | requestCode
  | vendorDefined
  | tdispVendor
  | ideKmNoSession
  | tdispNoSession
deriving DecidableEq, Repr

/-- An IDE sub-stream key slot: key set 0 or 1, direction and sub-stream (R88). -/
structure IdeSlot where
  keySet : Nat
  /-- 0 receive, 1 transmit. -/
  dir : Nat
  /-- 0 PR, 1 NPR, 2 CPL. -/
  sub : Nat
deriving DecidableEq, Repr

/-- What a KEY_PROG asks for (R89). -/
structure IdeMode where
  aes256gcm : Bool
  flit : Bool
  aggregation : Bool
  pcrc : Bool
deriving DecidableEq, Repr

/-- A PAYLOAD flit as received (R441, R447): `body` is the USED bytes. -/
structure PayloadFlit where
  /-- CRC and encoding check passed (R442). -/
  vc : Nat
  seq : Nat
  body : List Byte
  crcOk : Bool
  /-- Lanes on which parity errors were seen (R454). -/
  parity : List Nat := []
deriving DecidableEq, Repr

/-- An ACK flit as received (R445). -/
structure AckFlit where
  ackSeq : Nat
  nak : Bool
  /-- Reserved and shared credits returned for P0, P1, N0, N1, C0, C1, E. -/
  reserved : List Nat
  shared : List Nat
deriving DecidableEq, Repr

/-- A Border packet header (R443) with its lines. -/
structure BorderPkt where
  op : POp
  xid : Nat
  originLink : Nat
  world : Nat
  glove : Nat
  gloveValid : Bool
  home : Nat
  ep : Bool
  ackReq : Bool
  prefetch : Bool
  len : Nat
  status : Nat
  addr : Nat
  firstBE : BitVec 64
  lastBE : BitVec 64
  data : List Line
deriving DecidableEq, Repr

/-- An IDENT flit's fields (R446). -/
structure Ident where
  pos : Nat
  link : Nat
  lanes : BitVec 8
  serial : BitVec 64
  digest : Digest
deriving DecidableEq, Repr

/-- AVSBus transactions (R596). -/
inductive AvsResult where
  | writeOk
  | readOk (mv : Nat)
  | failed
deriving DecidableEq, Repr

/-- The commands: one constructor for each row of spec/opcode_table.json, in its order. -/
inductive Instr where
  | coldReset (b : Board)
  | devRstAssert
  | powerGoodDeassert
  | tamperInputAssert (i : Nat)
  | thermtrip (quad : Nat)
  | tWarnReached (quad temp : Nat)
  | thermalHoldEnd (temps : List Nat)
  | hostMemoryRead (r : HostRead)
  | hostMemoryWrite (w : HostWrite)
  | hostAtomicop (a : HostAtomic)
  | unsupportedRequest (link tag : Nat) (kind : BadReq)
  | hostCompletion (c : HostCpl)
  | hostCplTimeout (link unit tag : Nat)
  | cuffTxDequeue (link : Nat)
  | perstAssert (link : Nat)
  | perstDeassert (link : Nat)
  | linkTrainedL0 (link rate : Nat) (width : PartnerWidth) (flit : Bool)
  | dlDown (link : Nat)
  | linkHotReset (link : Nat)
  | hostRecoveryEntered (r : HostRecovery)
  | flrStart (f : FnId)
  | flrComplete (f : FnId)
  | vfEnableClear (link : Nat)
  | vfEnableSet (link : Nat)
  | numvfsWrite (link v : Nat)
  | barWrite (link : Nat) (field : BarField) (v : Nat)
  | vfBarSizeWrite (link v : Nat)
  | bmeClear (f : FnId)
  | bmeSet (f : FnId)
  | d3hotEntry (f : FnId)
  | d0Return (f : FnId)
  | msixMaskWrite (f : FnId) (t : MaskTarget) (v : Bool)
  | msixCommit (f : FnId) (vec : Nat)
  | pendingVectorSend (f : FnId) (vec : Nat)
  | lockExpiry (gate line : Nat)
  | memRd (p : Packet)
  | memWr (p : Packet)
  | memRdLock (p : Packet)
  | memWrUnlock (p : Packet)
  | unlock (p : Packet)
  | zlRd (p : Packet)
  | regRd (p : Packet)
  | regWr (p : Packet)
  | cplD (p : Packet)
  | cpl (p : Packet)
  | ack (p : Packet)
  | mqRd (p : Packet)
  | mqWr (p : Packet)
  | mqMac (p : Packet)
  | tierLookup (p : Packet)
  | tierFill (p : Packet)
  | mirrorWr (p : Packet)
  | mrD (p : Packet)
  | mrAck (p : Packet)
  | event (f : FnId) (vec : Nat)
  | msgReq (f : FnId) (vec : Nat)
  | fault (r : FaultReport)
  | ruleFault (v : Violation)
  | ownershipInvalidate (gate : Nat) (lines : List Nat)
  | ownershipInvalidateAck (gate : Nat)
  | knotOutputGrant (knot port : Nat) (err : StrandError)
  | holdStoreRoomFreed (knot vc : Nat)
  | creditReturn (knot port vc : Nat) (shared : Bool)
  | weaveTimeout (unit tag : Nat)
  | tagRelease (unit tag : Nat)
  | paceMonitorSample (quad : Nat) (readings : List Nat)
  | sampleWindowEnd
  | wvePaceAlarmClear (quad : Nat)
  | leakyBucketDrain (b : Bucket)
  | commandSlotGrant (s : Sched) (refreshDue : Bool) (ecc : EccResult)
  | wcbResidencyExpiry (gate line : Nat)
  | reencPhaseADone (gate block : Nat)
  | reencRaiseClass (gate block : Nat)
  | stagingBufferFreed (gate : Nat)
  | doorbell (q : QId) (v : BitVec 32)
  | queueEnable (f : FnId) (config : BitVec 32)
  | queueDisable (f : FnId)
  | entryFetch (q : QId)
  | entryDispatch (q : QId)
  | resultWrite (q : QId)
  | resultWriteAcked (q : QId)
  | headWriteAcked (q : QId)
  | openGlove (o : Origin) (glove : Nat) (tenantKey tdisp : Bool) (queueLimit fingerLimit : Nat)
  | closeGlove (o : Origin) (glove : Nat)
  | bandSlotZeroConfirmed (glove : Nat)
  | lastPageReleased (glove : Nat)
  | grantPages (o : Origin) (glove home : Nat) (readOnly : Bool) (group m start : Nat)
  | reclaimPages (o : Origin) (glove mode group m start : Nat)
  | setLimits (o : Origin) (glove mask share queueLimit fingerLimit rate : Nat)
  | setPeerWindow (o : Origin) (glove slot : Nat) (image : BitVec 256)
  | clearPeerWindow (o : Origin) (glove slot : Nat)
  | pinDomain (o : Origin) (d : Nat)
  | unpinDomain (o : Origin) (d : Nat)
  | drain (o : Origin)
  | getLog (o : Origin) (log first buf len : Nat)
  | getUsage (o : Origin) (glove first buf len : Nat)
  | createQueue (o : Origin) (num size : Nat) (ringGlove headGlove : Bool) (finger vector ring head : Nat)
  | destroyQueue (o : Origin) (num : Nat)
  | setRules (o : Origin) (n : Nat) (gloveSpace : Bool) (addr : Nat)
  | getRuleFault (o : Origin) (buf : Nat)
  | clearRuleFault (o : Origin)
  | startFinger (o : Origin) (f : Nat) (resume bulk : Bool) (share burst : Nat)
  | stopFinger (o : Origin) (f : Nat)
  | epochDrainDone (glove : Nat)
  | epochDrainTimeout (glove : Nat)
  | runProgram (f : FgId) (o : Origin) (target : Nat) (gloveSpace : Bool) (addr a0 a1 a2 a3 : Nat)
  | copy (f : FgId) (o : Origin) (target : Nat) (srcGlove dstGlove : Bool) (src dst len : Nat)
  | fill (f : FgId) (o : Origin) (target : Nat) (dstGlove : Bool) (dst len : Nat) (pattern : BitVec 64)
  | flush (f : FgId) (o : Origin)
  | fingerIssue (engine : Nat)
  | programLineFetch (f : FgId)
  | move (f : FgId) (w : BitVec 256)
  | loop (f : FgId) (w : BitVec 256)
  | wait (f : FgId) (w : BitVec 256)
  | waitPoll (f : FgId)
  | waitTimerExpiry (f : FgId)
  | waitTimeout (f : FgId)
  | signal (f : FgId) (w : BitVec 256)
  | seta (f : FgId) (w : BitVec 256)
  | adda (f : FgId) (w : BitVec 256)
  | endInstr (f : FgId) (w : BitVec 256)
  | tokenRefill (f : FgId)
  | fngEventsSet (f : FnId) (bits : BitVec 32)
  | fngEventClr (f : FnId) (bits : BitVec 32)
  | borderPayloadFlit (link : Nat) (fl : PayloadFlit)
  | borderAckFlit (link : Nat) (a : AckFlit)
  | borderPacket (link : Nat) (b : BorderPkt)
  | ident (link : Nat) (i : Ident)
  | rerouteReq (link dead last : Nat)
  | rerouteAck (link dead last : Nat)
  | rerouteDone (link dead : Nat)
  | widthReq (link : Nat) (mask : BitVec 8)
  | widthAck (link : Nat) (mask : BitVec 8)
  | ctrlRepeat (link : Nat)
  | borderAckTimer (link : Nat)
  | replayTimeout (link : Nat)
  | creditTimeout (link vc : Nat)
  | widthChangeTimeout (link : Nat)
  | borderSymbolLock (link : Nat)
  | trainingTimeout (link : Nat)
  | identTimeout (link : Nat)
  | lockLossTimeout (link : Nat)
  | downRetry (link : Nat)
  | rerouteLimitExpiry (peer : Nat)
  | homeLinkReturn (unit peer : Nat)
  | keyTransfer (peer glove : Nat) (key : Key)
  | keyConfirm (peer glove slot code : Nat)
  | pageAlloc (peer glove m : Nat)
  | pageList (peer glove code : Nat) (pages : List Nat)
  | pageRelease (peer glove : Nat) (pages : List Nat)
  | keyRevoke (peer glove : Nat)
  | revokeAck (peer glove pages : Nat)
  | quarantineNotice (peer cause : Nat)
  | mgmtRetryTimeout (peer glove : Nat)
  | getVersion (c : SpdmCh)
  | getCapabilities (c : SpdmCh) (caps : SpdmCaps)
  | negotiateAlgorithms (c : SpdmCh) (a : SpdmAlgs)
  | getDigests (c : SpdmCh)
  | getCertificate (c : SpdmCh) (slot off len : Nat)
  | challenge (c : SpdmCh) (slot sumType : Nat)
  | getMeasurements (c : SpdmCh) (index : Nat) (signed : Bool)
  | keyExchange (c : SpdmCh) (slot sumType : Nat) (p384 : Bool)
  | finish (c : SpdmCh) (session : Nat) (sigOk : Bool)
  | endSession (c : SpdmCh)
  | getEncapsulatedRequest (c : SpdmCh)
  | deliverEncapsulatedResponse (c : SpdmCh) (r : EncapResponse)
  | peerSpdmResponse (link : Nat) (r : PeerResponse)
  | finishRsp (link : Nat)
  | ideKmQuery (c : SpdmCh)
  | ideKmKeyProg (c : SpdmCh) (stream : Nat) (slot : IdeSlot) (mode : IdeMode) (key : Key)
  | ideKmKSetGo (c : SpdmCh) (stream keySet : Nat)
  | ideKmKSetStop (c : SpdmCh) (stream keySet : Nat)
  | getTdispVersion (c : SpdmCh) (vf : Nat)
  | getTdispCapabilities (c : SpdmCh) (vf : Nat)
  | lockInterfaceRequest (c : SpdmCh) (vf : Nat)
  | getDeviceInterfaceReport (c : SpdmCh) (vf : Nat)
  | getDeviceInterfaceState (c : SpdmCh) (vf : Nat)
  | startInterfaceRequest (c : SpdmCh) (vf : Nat) (nonce : BitVec 256)
  | stopInterfaceRequest (c : SpdmCh) (vf : Nat)
  | bindP2pStreamRequest (c : SpdmCh) (vf : Nat)
  | unbindP2pStreamRequest (c : SpdmCh) (vf : Nat)
  | setMmioAttributeRequest (c : SpdmCh) (vf : Nat)
  | gloveKeyShare (c : SpdmCh) (glove : Nat)
  | gloveKeyInstall (c : SpdmCh) (glove shareId : Nat) (point : BitVec 768) (wrapped : Key) (gcmTag : BitVec 128)
  | shareExpiry (glove : Nat)
  | drbgReseed
  | entropyHealthFail
  | entropyRetry
  | evtInChange (i : Nat) (level : Bool)
  | filterCountExpiry (i : Nat)
  | sourcePresent
  | endOfService
  | moderationTimerExpiry (f : FnId) (group : Nat)
  | selfTestTick (unit : Nat) (pass : Bool)
  | quietPeriodExpiry (unit : Nat)
  | mramRecordWrite (kind unit element detail : Nat) (ok : Bool)
  | retireClear (f : FnId) (all : Bool) (index : Nat)
  | retireClearCancel (f : FnId) (all : Bool) (index : Nat)
  | recoveryRead (f : FnId) (len : Nat)
  | recoveryErase (f : FnId)
  | recoveryProgram (f : FnId) (len : Nat)
  | recoveryVerify (f : FnId) (copyB : Bool) (b : Board)
  | fuseSigner (f : FnId)
  | recoveryOpDone (ok : Bool)
  | lingerExpiry (d : Nat) (refuser : Option Nat)
  | domainCommit (d : Nat)
  | domainEntryComplete (d : Nat)
  | padReleaseDue (d : Nat)
  | domainOn (d : Nat)
  | islandsLowReported
  | avsTransactionDone (r : AvsResult)
  | voltageGood
  | avsRetryTick (r : AvsResult)
  | minuteBoundary (mramOk : Bool)
  | mramSeqRetry (ok : Bool)
  | tierOccupancySample
  | usgAnchorWrite (f : FnId) (v : BitVec 64)
  | smbusReadByte (cmd : Nat)
  | smbusReadWord (cmd : Nat)
  | smbusBlockRead (cmd : Nat)
  | smbusWrite (cmd : Nat)
  | registerWrite (f : FnId) (t : RegTarget)
  | linkPowerStateChange (link : Nat) (p : LinkPower)
  | spdmUnsupportedRequest (c : SpdmCh) (kind : SpdmBad)
  | invalidInstruction (f : FgId) (w : BitVec 256)
  | pgAonAssert (smbAddr : Nat)
  | vddAonRemoved
deriving DecidableEq, Repr

end Sys2Proof
end

