-- ==== Sys2Proof/Config.lean ====
section
/-! DEFINITION. What the model leaves open: the cryptographic functions of standards outside spec/ (log entry 5), the
contents of the fuses (log entry 6), the values of random draws (log entry 7) and the other values that spec/ does not state.
Every constant is opaque, so no statement can rest on a value of it. -/

namespace Sys2Proof.Config

/-! ### Standards outside the spec -/

/-- Check bits of the SEC-DED code over a strand group (R233): the spec does not give the code. -/
opaque secded (group : BitVec 128) : BitVec 9

/-- AES-256 of one block (R119, R120, R127). -/
opaque aes256 (k : Key) (x : BitVec 128) : BitVec 128

/-- GHASH of SP 800-38D without a length block over 16-byte blocks (R120, R127). -/
opaque ghash (h : BitVec 128) (xs : List (BitVec 128)) : BitVec 128

/-- SHA-384 (R83, R542). -/
opaque sha384 (m : List Byte) : Digest

/-- HMAC-SHA-384 (R72). -/
opaque hmac384 (k : List Byte) (m : List Byte) : Digest

/-- HKDF-Extract-SHA-384 with a salt and input keying material (R64, R69). -/
opaque hkdfExtract (salt ikm : List Byte) : Digest

/-- The first 32 bytes of HKDF-Expand-SHA-384 with an info string (R64, R69, R82). -/
opaque hkdfExpand (prk : Digest) (info : List Byte) : BitVec 256

/-- AES-256-GCM decryption of 32 bytes: key, iv, aad, ciphertext and tag (R69). -/
opaque gcmOpen (k : Key) (iv : BitVec 96) (aad : List Byte) (c : BitVec 256) (tag : BitVec 128) : Option (BitVec 256)

/-- ECDSA P-384 over a message digest: signature by a private key, verification by an encoded public key (R82, R544, R614). -/
opaque ecdsaSign (priv : BitVec 384) (d : Digest) : BitVec 768
opaque ecdsaVerify (pub : List Byte) (d : Digest) (sig : List Byte) : Bool

/-- ECDH on P-384: the public point of a private key, whether a point is on the curve, and the x-coordinate shared (R69, R71). -/
opaque ecdhPublic (priv : BitVec 384) : BitVec 768
opaque ecdhValid (point : BitVec 768) : Bool
opaque ecdhShared (priv : BitVec 384) (point : BitVec 768) : BitVec 384

/-- The XTS permutation of one 64-byte line under a key pair with an HBM address as tweak (R116). -/
opaque xts (k : BitVec 512) (addr : Nat) : Equiv.Perm (BitVec 512)

/-- The private keys that start-up derives from the fused seed: the device identity key (R81), the alias key with the digests of
measurements 1-3 (R82), the usage key with those of measurements 1 and 2 (R616). -/
opaque identityPrivate (seed : BitVec 256) : BitVec 384
opaque aliasPrivate (seed : BitVec 256) (rom micro config : Digest) : BitVec 384
opaque usagePrivate (seed : BitVec 256) (rom micro : Digest) : BitVec 384

/-- The DER bytes of the slot-0 chain, whose alias certificate is signed by the device identity key and holds the values of
measurements 1-5 (R82), and of the usage certificate, which holds measurements 1, 2 and 4 (R616). -/
opaque certChain (identity aliasKey : BitVec 384) (serial : BitVec 64) (stepping security : BitVec 8) (measured : List (List Byte)) :
  List Byte
opaque usageCert (identity usage : BitVec 384) (serial : BitVec 64) (measured : List (List Byte)) : List Byte

/-- A certificate chain verifies to the Lamocon root (R74). -/
opaque chainVerifies (chain : List Byte) : Bool

/-- A measurement block of an index and value, raw or a digest, in the DMTF format (R83), and the TDISP encoding of MMIO ranges given
as address and size (R98). -/
opaque dmtfBlock (index : Nat) (raw : Bool) (value : List Byte) : List Byte
opaque mmioRanges (ranges : List (Nat × Nat)) : List Byte

/-! ### Fuses (R295, R301, R81, R544) -/

/-- Fused serial number, stepping, security level and device seed. -/
opaque serial : BitVec 64
opaque stepping : BitVec 8
opaque securityLevel : BitVec 8
opaque seed : BitVec 256

/-- Lamocon public keys whose hashes are fused: image signers (R544). -/
opaque lamoconSigner (hash : Digest) : Bool

/-- Digest of the Crown ROM (R83, measurement 1), and the stepping and fuse map of measurement 6 (R83): what the map holds is not listed,
so it may depend on the signer hash that FUSE_SIGNER writes (DESIGN CHOICE, log entry 112). -/
opaque romDigest : Digest
opaque fuseMap (signer : Option Digest) : List Byte

/-! ### Free values -/

/-- Random draws of the Crown's DRBG: keys, salts, nonces, private keys, share identifiers (R65, R68, R93, R117). The
argument is the counter State.trust.fresh. -/
opaque draw (n : Nat) : BitVec 768

/-- The pseudo-channel (0-31) that serves an HBM address of a stack (R128, R177): spec/ does not give the map. -/
opaque pseudoChannel (stack addr : Nat) : Fin 32

/-- Stack byte address of the n-th line of a pseudo-channel, in the order in which scrub reads it (R157), and the number of spare
pseudo-channels that a stack reports (R177): spec/ does not give them. -/
opaque pseudoLine (stack pc n : Nat) : Nat
opaque hbmSpares (stack : Nat) : Nat

/-- Bank and row of a byte address behind a memory scheduler (a DDR channel, or 16 + 32 * stack + pseudo-channel): spec/ does not give
the geometry of the DRAMs (R155). -/
opaque dramRow (sched addr : Nat) : Nat × Nat

/-- The Crown vector base that the ROM takes from a microcode section, by the section's digest (R482): spec/ gives no value. -/
opaque vectorBase (micro : Digest) : Nat

/-- The data that accompany a failed line, which R159 gives no value, by line number (log entry 8). -/
opaque failedLine (line : Nat) : Line

/-- The byte that a Block Read with a code below 0x80 takes after its first two, by its place in the response: spec/ does not state
it (log entry 50). -/
opaque smbusByte (place : Nat) : Byte

end Sys2Proof.Config
end

