-- ==== Sys2Proof/Machine/State.lean ====
section
/-! DEFINITION. The state of the TV8440 as plain data. Each field's docstring names its width, the rule of spec/ that
gives it and its value after reset; "model" marks a field the model itself needs. A table (`Tbl`) lists only the
instances that have been written; every other instance holds the default of its type, which is its reset value. -/

namespace Sys2Proof.Machine

/-- A sparse table: entries by number, ascending; an instance not listed holds its default. -/
abbrev Tbl (α : Type) := List (Nat × α)

/-- Bytes by address in canonical form: addresses strictly rising, no byte equal to the default byte of the memory. -/
abbrev Memory := List Host.Cell

/-- Operating modes (R2), numbered as FLT_MODE.MODE (R537). -/
inductive Mode where
  | blank | loading | service | degraded | drain | quarantine
deriving DecidableEq, Repr

/-- Glove states (R48). -/
inductive GState where
  | free | keyPending | opened | zeroizing | releasing
deriving DecidableEq, Repr

/-- TDI states (R51, R93). -/
inductive TdiState where
  | unlocked | locked | run | error
deriving DecidableEq, Repr

/-! ### The Pattern in force -/

/-- A rule region (R203). -/
structure Region where
  start : Nat := 0
  stop : Nat := 0
  tr : Bool := false
  tw : Bool := false
  or : Bool := false
  ow : Bool := false
  dr : Bool := false
  dw : Bool := false
deriving DecidableEq, Repr

/-- A link record of LINK_LAYOUT (R546). -/
structure LinkCfg where
  rate : Nat := 0
  width : Nat := 0
  clocking : Nat := 0
  template : List Region := []
deriving DecidableEq, Repr

/-- A domain record of POWER_POLICY (R598): slots are (kind, index), slot 0 first. -/
structure DomCfg where
  lowest : Nat := 0
  linger : Nat := 0
  slots : List (Nat × Nat) := []
deriving DecidableEq, Repr

/-- An EVT_IN_CFG image (R511). -/
structure EvtCfg where
  enable : Bool := false
  tamper : Bool := false
  filter : Bool := false
  sense : Nat := 0
  cycles : Nat := 0
deriving DecidableEq, Repr

/-- The configuration taken from the selected Pattern copy (R546, R598, R623) with the register values it sets. -/
structure Pattern where
  /-- 32 bits; R542 (12); reset 0: Pattern version in force. -/
  version : Nat := 0
  /-- 32 bits; R542 (12); reset 0: rollback floor of the copy. -/
  floor : Nat := 0
  /-- 32 bits; R542 (12); reset 0: microcode version. -/
  ucode : Nat := 0
  /-- 16 bits; R546 (12); reset 0: subsystem vendor ID. -/
  subVendor : Nat := 0
  /-- 16 bits; R546 (12); reset 0: subsystem ID. -/
  subId : Nat := 0
  /-- 8 entries of 0 disabled, 1 x16, 2 two x8; R285, R546; reset none. -/
  cuffModes : List Nat := []
  /-- 16 link records; R546; reset none. -/
  links : List LinkCfg := []
  /-- 16 pairs of base (10 bits) and count (8 bits); R45; reset none. -/
  ranges : List (Nat × Nat) := []
  /-- 16 pairs of resizable and log2 W_max 21-42; R186; reset none. -/
  bars : List (Bool × Nat) := []
  /-- 16 bits; R101, POL_POPULATION.CHANNELS; reset 0. -/
  channels : BitVec 16 := 0
  /-- 2 bits; POL_POPULATION.DIMM_SIZE (R178); reset 0. -/
  dimmSize : Nat := 0
  /-- 1 bit; POL_POPULATION.MRDIMM (R178); reset 0. -/
  mrdimm : Bool := false
  /-- 4 bits; POL_POPULATION.RATE (R178, R103); reset 0. -/
  rate : Nat := 0
  /-- 1 bit; POL_POPULATION.MIRROR (R178, R105); reset 0. -/
  mirror : Bool := false
  /-- 13 bits; R151; reset 0: default tier share. -/
  tierDefault : Nat := 0
  /-- 13 bits; R151; reset 0: maximum tier share. -/
  tierMax : Nat := 0
  /-- 13 bits; R151; reset 0: guest tier share. -/
  tierGuest : Nat := 0
  /-- Records (glove, start, length); R314; reset none: acknowledged-before-visible ranges. -/
  abv : List (Nat × Nat × Nat) := []
  /-- 2 bits each; R593, R598; reset 2 and 0 before a Pattern: PACE_MAX and PACE_MIN. -/
  paceMax : Nat := 2
  paceMin : Nat := 0
  /-- 4 bits; R596, R598; reset 0: AVSBus rail. -/
  rail : Nat := 0
  /-- 8 bits; R594, R598; reset 0: T_WARN. -/
  tWarn : Nat := 0
  /-- 8 bits each; R593, R598; reset 0: UP_UTIL and DOWN_UTIL. -/
  upUtil : Nat := 0
  downUtil : Nat := 0
  /-- 41 domain records; R598; reset none. -/
  doms : List DomCfg := []
  /-- 12 bits; FLT_THRESH.LEAK (R537); reset 0x258. -/
  leak : Nat := 600
  /-- 6 bits; FLT_THRESH.QUIET (R537); reset 0x0A. -/
  quiet : Nat := 10
  /-- 4 bits; FLT_THRESH.RETIRE_THRESH (R537); reset 0x3. -/
  retireThresh : Nat := 3
  /-- 8 bits; FLT_THRESH.WIRE_THRESH (R537); reset 0x40. -/
  wireThresh : Nat := 64
  /-- 8 bits; FLT_THRESH.HOST_LANE_THRESH (R537); reset 0x80. -/
  hostLaneThresh : Nat := 128
  /-- 10 bits; WVE_TIMEOUT.LIMIT (R276); reset 0x040. -/
  weaveLimit : Nat := 64
  /-- 12 bits; WVE_PACE.LOW_THRESH (R276); reset 0x5AA. -/
  lowThresh : Nat := 1450
  /-- 8 images; EVT_IN_CFG (R511); reset 0. -/
  evtIn : List EvtCfg := []
  /-- 2 bits; R438; reset 0: basket position. -/
  pos : Nat := 0
  /-- 8 entries: peer position and peer link of each used link; R438; reset unused. -/
  peers : List (Option (Nat × Nat)) := []
  /-- Bytes of the BASKET_TOPOLOGY value; R545, R446; reset none. -/
  topology : List Byte := []
  /-- 16 bits; BRD_TIMERS.CREDIT_TIME (R479); reset 0x0064. -/
  creditTime : Nat := 100
  /-- 8 bits; BRD_TIMERS.REROUTE_LIMIT (R479); reset 0x32. -/
  rerouteLimit : Nat := 50
  /-- 8 bits; BRD_TIMERS.LOCK_LOSS_TIME (R479); reset 0x0A. -/
  lockLossTime : Nat := 10
  /-- 12 bits; BRD_TIMERS.REPLAY_TIME (R479); reset 0x7D0. -/
  replayTime : Nat := 2000
  /-- 8 bits; BRD_TIMERS.LANE_THRESH (R479); reset 0x80. -/
  laneThresh : Nat := 128
  /-- 4 bits; BRD_TIMERS.DOWN_THRESH (R479); reset 0x8. -/
  downThresh : Nat := 8
  /-- 7 bits; R623; reset 1: BATCH_RECORDS. -/
  batchRecords : Nat := 1
  /-- 11 bits; R623; reset 0: ANCHOR_STALE. -/
  anchorStale : Nat := 0
  /-- 384 bits; R83 measurement 2; reset 0: digest of the microcode section. -/
  microDigest : Digest := 0
  /-- 384 bits; R83 measurement 3; reset 0: digest of the configuration section. -/
  configDigest : Digest := 0
deriving DecidableEq, Repr

/-! ### Gloves -/

/-- A peer-window slot (R215, R221): empty, in force, or the tombstone of a cleared window. -/
inductive Window where
  | empty
  | valid (start len host target : Nat) (read write closed : Bool)
  | tombstone (start len : Nat)
deriving DecidableEq, Repr

/-- What an epoch change writes at step 4 (R222, R224). -/
inductive Change where
  | rules (rs : List Region)
  | window (slot : Nat) (w : Window)
  | clearWindow (slot : Nat)
  | reclaim (pages : List Nat)
deriving DecidableEq, Repr

/-- A page-table entry (R196). -/
structure Pte where
  group : Nat := 0
  page : Nat := 0
  home : Nat := 0
  readOnly : Bool := false
  valid : Bool := false
deriving DecidableEq, Repr

/-- An epoch change in progress (R224): step 2 to 3 while `draining`, waiting for peers' answers in step 5 otherwise. -/
structure EpochChange where
  origin : Origin
  change : Change
  draining : Bool := true
  /-- The entries a RECLAIM_PAGES has cleared at step 4, by index, and peers whose PAGE_RELEASE answer is awaited (R472, R474). -/
  saved : List (Nat × Pte) := []
  waitPeers : List Nat := []
deriving DecidableEq, Repr

/-- The violation latch (R211-R213). -/
structure Latch where
  /-- 1 bit; WIN_FAULT_INFO.VALID (R213); reset 0. -/
  valid : Bool := false
  /-- 42 bits; WIN_FAULT_ADDR.ADDR (R213); reset 0. -/
  addr : Nat := 0
  /-- 16 bits; WIN_FAULT_INFO.CODE (R213); reset 0. -/
  code : Nat := 0
  /-- 16 bits; WIN_FAULT_INFO.COUNT (R213), saturating; reset 0. -/
  count : Nat := 0
  /-- 2 bits; WIN_FAULT_INFO.WORLD (R213); reset 0. -/
  world : Nat := 0
  /-- 1 bit; WIN_FAULT_INFO.DIRECTION (R213); reset 0. -/
  write : Bool := false
  /-- 10 bits; WIN_FAULT_INFO.UNIT (R213); reset 0. -/
  unit : Nat := 0
deriving DecidableEq, Repr

/-- A glove (R48-R52, R98, R203, R211, R215, R348). -/
structure Glove where
  /-- 3 bits; GLV_STATE.STATE (R51, R48); reset 0 FREE. -/
  state : GState := .free
  /-- 2 bits; GLV_STATE.KEY_SOURCE (R51); reset 0. -/
  keySource : Nat := 0
  /-- 1 bit; GLV_STATE.TDISP_REQUIRED (R51); reset 0. -/
  tdisp : Bool := false
  /-- 2 bits; GLV_STATE.TDI_STATE (R51, R93); reset 0 CONFIG_UNLOCKED. -/
  tdi : TdiState := .unlocked
  /-- 256 bits; R93: nonce returned by the last LOCK_INTERFACE_REQUEST; reset 0. -/
  nonce : BitVec 256 := 0
  /-- Stream ID of the TDI's stream, or the link stream; R659; reset none. -/
  stream : Option Nat := none
  /-- 32 bits; R98: pool pages held at lock time; reset 0. -/
  lockPages : Nat := 0
  /-- 7 bits; R375, R98: queue limit 0-64; reset 0. -/
  queueLimit : Nat := 0
  /-- 5 bits; R375, R98: Finger limit 0-16; reset 0. -/
  fingerLimit : Nat := 0
  /-- 7 bits; R376, R378: rate ceiling 1-64; reset 64. -/
  rate : Nat := 64
  /-- 13 bits; POL_TIER_SHARE.SHARE (R178, R150); reset 0. -/
  share : Nat := 0
  /-- Up to 64 regions of 128 bits; R203; reset none: the rule table. -/
  rules : List Region := []
  /-- 16 slots of 256 bits; R215; reset empty: the peer windows. -/
  windows : Tbl Window := []
  /-- WIN_ record; R213; reset 0: the violation latch. -/
  latch : Latch := {}
  /-- 31 bits; WIN_EPOCH.EPOCH (R213); reset 0. -/
  epoch : Nat := 0
  /-- 1 bit; WIN_EPOCH.UPDATING (R213); reset 0. -/
  updating : Bool := false
  /-- The epoch change in progress; R224, R227; reset none. -/
  change : Option EpochChange := none
  /-- The command of the last change that has ended: the next one waits for its result; R227; reset none. -/
  lastChange : Option Origin := none
  /-- Basket positions whose guest slot holds the glove's key; R51 GUEST_PRESENT, R78; reset none. -/
  guests : List Nat := []
  /-- Basket positions the glove is barred from; R477; reset none. -/
  barred : List Nat := []
  /-- The CLOSE_GLOVE entry to be answered at step 5, with the pages the glove held; R52; reset none. -/
  closing : Option (Origin × Nat) := none
  /-- 8 bytes; R72: key check value of the installed key; reset 0. -/
  kcv : BitVec 64 := 0
deriving DecidableEq, Repr

/-- A Band slot (R62): the key with its derived values computed by name, valid, and for a guest slot the home device and
glove. -/
structure BandSlot where
  /-- 256 bits; R62: glove key K; reset zero. -/
  key : Key := 0
  /-- 1 bit; R62; reset 0. -/
  valid : Bool := false
  /-- 2 bits; R62: home device's basket position; reset 0. -/
  home : Nat := 0
  /-- 10 bits; R62: home glove number; reset 0. -/
  glove : Nat := 0
deriving DecidableEq, Repr

/-- A key share (R68, R70). -/
structure Share where
  id : Nat
  link : Nat
  session : Nat
  priv : BitVec 384
  salt : BitVec 384
deriving DecidableEq, Repr

/-- What follows once the ownership entries of a change are written (R132). -/
inductive OwnThen where
  /-- GRANT_PAGES of local pages: the page-table entries are written and the command completes (R230, R377). -/
  | grant (o : Origin) (glove : Nat) (ptes : List (Nat × Nat × Nat × Bool))
  /-- Release at step 5 of a RECLAIM_PAGES (R224) or of a close (R52). -/
  | reclaim (glove : Nat)
  | close (glove : Nat)
  /-- A peer's PAGE_ALLOC, PAGE_RELEASE or KEY_REVOKE (R470, R79). -/
  | peerAlloc (peer glove : Nat)
  | peerRelease (peer glove : Nat)
  | peerRevoke (peer glove : Nat)
  /-- Release of a barred peer's or guest's pages without an answer (R475). -/
  | silent
deriving DecidableEq, Repr

/-- A change of page ownership entries (R132): the pages, the gates whose invalidation is still to be carried out and those
whose acknowledgement is on its way. -/
structure OwnChange where
  pages : List Nat
  waiting : List Nat
  acking : List Nat := []
  /-- Table lines already invalidated, as (gate, line): a packet names up to 64 of the change's lines. -/
  dropped : List (Nat × Nat) := []
  thn : OwnThen
  /-- Band slot that becomes the owner; none when the pages are released. -/
  owner : Option Nat := none
deriving DecidableEq, Repr

/-- A page-table line that a checker has read for a miss: its translation cache, the line number, and the line or the code the read
failed with (R201). -/
structure TableLine where
  key : Nat
  line : Nat
  code : Nat
  data : Line
deriving DecidableEq, Repr

/-- A page ownership entry (R199); STATE: 0 free, 1 owned, 2 releasing, 3 held out. -/
structure Own where
  gen : Nat := 0
  owner : Nat := 0
  state : Nat := 0
deriving DecidableEq, Repr

/-! ### Functions and links -/

/-- A moderation group (R494, EVT_HOLDOFF of R511). -/
structure ModGroup where
  /-- 1 bit; EVT_HOLDOFF.RUNNING (R511); reset 0. -/
  running : Bool := false
  /-- 8 bits; EVT_HOLDOFF.DUE (R511); reset 0. -/
  due : BitVec 8 := 0
  /-- 10 bits; EVT_HOLDOFF.HOLDOFF (R511); reset 0. -/
  holdoff : Nat := 0
deriving DecidableEq, Repr

/-- An MSI-X table entry (R340); PCI Express reset values: Mask set, address and data 0. -/
structure MsixEntry where
  addr : BitVec 64 := 0
  data : BitVec 32 := 0
  mask : Bool := true
deriving DecidableEq, Repr

/-- What a logged TLP header says of the TLP (R294, R342). -/
inductive TlpKind where
  | read | write | atomic | completion | message | other
deriving DecidableEq, Repr

/-- A TLP header in the header log; `flit` tells the Flit-mode TLP log. The address is absent where no operand of the command gives
it. -/
structure TlpHead where
  kind : TlpKind
  tag : Nat := 0
  addr : Option Nat := none
  len : Nat := 0
  flit : Bool := false
deriving DecidableEq, Repr

/-- A PCIe function. -/
structure Fn where
  /-- 1 bit; R304: Memory Space Enable; reset 0. -/
  mse : Bool := false
  /-- 1 bit; R328: Bus Master Enable; reset 0. -/
  bme : Bool := false
  /-- 1 bit; R331: PowerState, true in D3hot; reset D0. -/
  d3 : Bool := false
  /-- 1 bit; R506: PME_En; reset 0. -/
  pmeEn : Bool := false
  /-- 1 bit; R506, R509: PME_Status, sticky across a link reset; reset 0. -/
  pmeStatus : Bool := false
  /-- 1 bit; R508: a pending bit has been set since the function left D0; reset 0. -/
  pmePending : Bool := false
  /-- 1 bit; R341: MSI-X Enable; reset 0. -/
  msixEnable : Bool := false
  /-- 1 bit; R341: Function Mask; reset 0. -/
  fnMask : Bool := false
  /-- 3 bits; R294: Max_Payload_Size in bytes; reset 128 (PCI Express default). -/
  mps : Nat := 128
  /-- 3 bits; R294: Max_Read_Request_Size in bytes; reset 512 (PCI Express default). -/
  mrrs : Nat := 512
  /-- 1 bit; R294: Read Completion Boundary in bytes; reset 64 (PCI Express default). -/
  rcb : Nat := 64
  /-- Tag enables as 8, 10 or 14 bits; R313; reset 8. -/
  tags : Nat := 8
  /-- 4 bits; R324: Completion Timeout Value; reset 0. -/
  ctv : Nat := 0
  /-- 1 bit; R332: in FLR; reset 0. -/
  flr : Bool := false
  /-- 64 bits; R180: PF0's BAR0 base; reset 0. -/
  bar0 : Nat := 0
  /-- 16, 4 and 32 bits; FN_REJECT (R339): code, space, offset; reset 0. -/
  rejCode : Nat := 0
  rejSpace : Nat := 0
  rejOff : Nat := 0
  /-- 64 bits; FN_ERR_ADDR (R339); reset 0. -/
  errAddr : Nat := 0
  /-- 16, 16, 1, 3, 2, 8, 4 and 10 bits; FN_ERR_INFO (R339): CODE, COUNT, VALID, KIND, ADDR_SPACE, FUNCTION, LINK, GLOVE;
  reset 0. -/
  errCode : Nat := 0
  errCount : Nat := 0
  errValid : Bool := false
  errKind : Nat := 0
  errSpace : Nat := 0
  errFn : Nat := 0
  errLink : Nat := 0
  errGlove : Nat := 0
  /-- 7 bits; EVT_CAUSE (R511); reset 0. -/
  cause : BitVec 7 := 0
  /-- 32 bits; EVT_MSG_COUNT.SENT (R511), wrapping; reset 0. -/
  sent : Nat := 0
  /-- 32 bits; EVT_MSG_COUNT.COALESCED (R511), wrapping; reset 0. -/
  coalesced : Nat := 0
  /-- 256 groups on PF0, 8 on a VF; R494, R511; reset 0. -/
  groups : Tbl ModGroup := []
  /-- 2,048 vectors on PF0, 64 on a VF; R340; reset masked. -/
  msix : Tbl MsixEntry := []
  /-- Vectors whose pending bit is set; R340, R498; reset none. -/
  pba : List Nat := []
  /-- 32 bits; FNG_EVENTS (R436, R418); reset 0. -/
  events : BitVec 32 := 0
  /-- Fingers waiting on the event register, earliest first; R418; reset none. -/
  waiters : List Nat := []
  /-- AER errors logged, without repeats; R342; reset none. -/
  aer : List Aer := []
  /-- The AER header log: the error it belongs to and the TLP's header; R294, R342; reset none. -/
  aerHead : Option (Aer × TlpHead) := none
  /-- Masked AER errors; R342; reset the PCI Express defaults. -/
  aerMask : List Aer := [.uncorrectableInternal, .correctedInternal, .headerLogOverflow]
  /-- AER errors of fatal severity; R342; reset the PCI Express defaults. -/
  aerFatal : List Aer := [.uncorrectableInternal, .malformedTlp, .ideCheckFailed, .dataLinkProtocol, .flowControlProtocol,
    .receiverOverflow]
deriving DecidableEq, Repr

/-- An SPDM secure session of a host link (R84, R85). -/
structure Session where
  id : Nat
  established : Bool := false
  key : Key
deriving DecidableEq, Repr

/-- An IDE stream of a link (R87, R88). -/
structure IdeStream where
  /-- 8 bits; R87: stream ID. -/
  id : Nat
  /-- Its selective stream block 0-3; none for the link stream; R87. -/
  block : Option Nat := none
  /-- 1 bit; R90, R91: Secure. -/
  secure : Bool := false
  /-- Programmed key slots; R88. -/
  keys : List (IdeSlot × Key) := []
  /-- Key set in use; R88. -/
  active : Option Nat := none
deriving DecidableEq, Repr

/-- LTSSM states of CUF_LINK_STATUS (R343). -/
inductive Ltssm where
  | detect | polling | configuration | l0 | recovery | l1 | l2 | disabled | hotReset | loopback
deriving DecidableEq, Repr

/-- A TLP the Cuff has queued for transmission (R309, R310). -/
inductive Tlp where
  /-- A piece of a posted write of packet `pkt`; the last one acknowledges it. -/
  | memWr (fn addr : Nat) (data : List (Option Byte)) (pkt : Packet) (last : Bool)
  /-- A piece of a read of packet `pkt`; length 0 for a ZL_RD. -/
  | memRd (fn addr len : Nat) (pkt : Packet)
deriving DecidableEq, Repr

/-- A read TLP on the wire, awaiting its completions (R313, R326): what is left of it. -/
structure HostReq where
  fn : Nat
  tag : Nat
  addr : Nat
  len : Nat
  /-- The Weave request it serves. -/
  pkt : Packet
deriving DecidableEq, Repr

/-- A device-initiated non-posted request held at a Cuff: the Weave packet and the bytes received (R309, R311, R312). -/
structure DevReq where
  pkt : Packet
  got : List (Nat × List Byte) := []
  /-- TLPs whose last completion has not arrived. -/
  left : Nat := 0
  ep : Bool := false
deriving DecidableEq, Repr

/-- A received request that waits at the Cuff: for an epoch change, an acknowledged-before-visible range, or a slot
(R224, R315, R316, R306, R308). -/
inductive HeldKind where
  | read (r : HostRead)
  | write (w : HostWrite)
  | atomic (a : HostAtomic)
deriving DecidableEq, Repr

/-- A held request as its BAR decode left it. -/
structure HeldReq where
  fn : Nat
  bar2 : Bool
  off : Nat
  kind : HeldKind
  /-- WIN_UNIT_BASE when it reached the decode point (R183). -/
  unitBase : Nat := 0
  /-- Its completion is dropped (R334, R336). -/
  dropped : Bool := false
deriving DecidableEq, Repr

/-- A host link. -/
structure Link where
  /-- 1 bit; CUF_LINK_STATUS.UP (R343): DL_Up; reset 0. -/
  up : Bool := false
  /-- 4 bits; CUF_LINK_STATUS.LTSSM (R343); reset 0 Detect. -/
  ltssm : Ltssm := .detect
  /-- 1 bit; CUF_LINK_STATUS.FLIT (R343, R286); reset 0. -/
  flit : Bool := false
  /-- 3 bits; CUF_LINK_STATUS.RATE (R343); reset 0. -/
  rate : Nat := 0
  /-- 5 bits; CUF_LINK_STATUS.WIDTH (R343); reset 0. -/
  width : Nat := 0
  /-- 1 bit; R292: runs with lane reversal; reset 0. -/
  reversed : Bool := false
  /-- Width the Cuff wants after a lane retirement and has not reached; R292, R293; reset none. -/
  wantWidth : Option Nat := none
  /-- Widths for which the link partner advertises L0p support; R292; reset none. -/
  l0p : List Nat := []
  /-- 1 bit; R292: retired for want of a width; reset 0. -/
  dead : Bool := false
  /-- 16 bits; CUF_LINK_COUNT.LINK_DOWNS (R343), saturating; reset 0. -/
  downs : Nat := 0
  /-- 16 bits; CUF_LINK_COUNT.RECOVERIES (R343), saturating; reset 0. -/
  recoveries : Nat := 0
  /-- 32 bits; CUF_LINK_COUNT.DISCARDED_POSTED (R343), wrapping; reset 0. -/
  discarded : Nat := 0
  /-- 16 bits; CUF_CPL_TIMEOUTS.UNEXPECTED (R343), saturating; reset 0. -/
  unexpected : Nat := 0
  /-- 16 bits; CUF_CPL_TIMEOUTS.TIMEOUTS (R343), saturating; reset 0. -/
  timeouts : Nat := 0
  /-- 1 bit; R289: PERST# pin asserted; reset deasserted (a board input; COLD_RESET samples it). -/
  perst : Bool := false
  /-- 1 bit; R289, R554: functions ready (configuration not answered with RRS); reset 0. -/
  ready : Bool := false
  /-- Power state under the host's control; R572; reset L0. -/
  power : LinkPower := .l0
  /-- 1 bit; R290: WAKE# driven low; reset released. -/
  wake : Bool := false
  /-- 8 bits; R299: NumVFs; reset 0. -/
  numVfs : Nat := 0
  /-- 1 bit; R57: VF Enable; reset 0. -/
  vfEnable : Bool := false
  /-- 1 bit; R189: VF Memory Space Enable; reset 0. -/
  vfMse : Bool := false
  /-- 32 bits; R184: VF BAR0 base; reset 0. -/
  vfBar0 : Nat := 0
  /-- 64 bits; R184: VF BAR2 base; reset 0. -/
  vfBar2 : Nat := 0
  /-- log2 of the VF BAR2 size in force; R187, R188; reset 0 before a Pattern gives W_max. -/
  vfSize : Nat := 0
  /-- 6 bits; WIN_UNIT_BASE.BASE (R182); reset 0. -/
  unitBase : Nat := 0
  /-- At most four; R85; reset none: SPDM secure sessions. -/
  sessions : List Session := []
  /-- 32 bits; model: next session number; reset 0. -/
  nextSession : Nat := 0
  /-- One link stream and up to four selective; R87; reset none. -/
  ide : List IdeStream := []
  /-- One RID association range a selective block, as VF numbers, and two address association blocks; R87; reset none. -/
  ideRids : Tbl (Nat × Nat) := []
  ideAddrs : Tbl (Nat × Nat) := []
  /-- Transmit queue of device-initiated TLPs in dequeue order; R310; reset empty. -/
  txq : List Tlp := []
  /-- Device-initiated read TLPs and their tags; R313; reset none. -/
  reqs : List HostReq := []
  /-- Device-initiated non-posted requests held at the Cuff; R313, R325; reset none. -/
  devReqs : List DevReq := []
  /-- Withdrawn queue-manager requests awaiting BME and D0; R329, R331; reset none. -/
  withdrawn : List Packet := []
  /-- Received requests that wait, in arrival order; R224, R315, R316, R306; reset none. -/
  held : List HeldReq := []
deriving DecidableEq, Repr

/-- A line-lock table entry (R320, R321). -/
structure Lock where
  atomic : HostAtomic
  /-- Link, VF and glove of the request. -/
  vf : Nat
  glove : Nat
  /-- Device physical line number. -/
  line : Nat
  /-- Its MEM_RD_LOCK has been sent. -/
  sent : Bool := false
  /-- The original value read, once returned. -/
  orig : Option (BitVec 128) := none
  /-- The unlock sent writes the line. -/
  writes : Bool := false
  /-- The completion is dropped: the link or the function was reset (R334, R336). -/
  dropped : Bool := false
  /-- The AtomicOp ends with UR: its glove has begun to close (R54). -/
  closing : Bool := false
  ep : Bool := false
deriving DecidableEq, Repr

/-- A Cuff. -/
structure Cuff where
  /-- 64 entries; R320; reset empty: line-lock table, then the AtomicOps waiting for an entry. -/
  locks : List Lock := []
  /-- 7 bits; CUF_LOCK.PEAK (R343); reset 0. -/
  peak : Nat := 0
  /-- 16 bits; CUF_LOCK.EXPIRIES (R343), saturating; reset 0. -/
  expiries : Nat := 0
deriving DecidableEq, Repr

/-! ### Queues and Fingers -/

/-- A fetched entry of a queue (R353-R358). -/
structure Entry where
  idx : Nat
  bytes : BitVec 512
  started : Bool := false
  /-- Code and result [63:16] once executed (R360). -/
  done : Option (Nat × Nat) := none
  /-- Its result-field write: 0 not written, 1 written, 2 acknowledged (R358). -/
  wr : Nat := 0
deriving DecidableEq, Repr

/-- A queue (R350, R369). -/
structure Queue where
  /-- 1 bit; QUE_CONFIG.ENABLE (R369): the queue exists; reset 0. -/
  enable : Bool := false
  /-- 52 bits; QUE_RING.BASE (R369); reset 0: byte address of the ring. -/
  ring : Nat := 0
  /-- 62 bits; QUE_HEAD_ADDR.ADDR (R369); reset 0: byte address of the head location. -/
  headAddr : Nat := 0
  /-- 11 bits; QUE_CONFIG.VECTOR (R369); reset 0. -/
  vector : Nat := 0
  /-- 4 bits; QUE_CONFIG.FINGER (R369); reset 0. -/
  finger : Nat := 0
  /-- 1 bit each; QUE_CONFIG.HEAD_SPACE and RING_SPACE (R369); reset 0. -/
  headGlove : Bool := false
  ringGlove : Bool := false
  /-- 5 bits; QUE_CONFIG.SIZE_LOG2 (R369); reset 0. -/
  size : Nat := 0
  /-- 32 bits; QUE_TAIL (R350); reset 0. -/
  tail : BitVec 32 := 0
  /-- 32 bits; QUE_FETCH (R350); reset 0. -/
  fetch : BitVec 32 := 0
  /-- 32 bits; QUE_HEAD (R350); reset 0. -/
  head : BitVec 32 := 0
  /-- 16 bits; QUE_STATUS.ERR_CODE (R369); reset 0. -/
  errCode : Nat := 0
  /-- 8 bits; QUE_STATUS.REJECTS (R369), saturating; reset 0. -/
  rejects : Nat := 0
  /-- QUE_STATUS.STATE 3 (R362); reset 0. -/
  faulted : Bool := false
  /-- Entries fetched and not completed; R353; reset none. -/
  entries : List Entry := []
  /-- Fetches outstanding as (first index, count); R353; reset none. -/
  fetching : List (Nat × Nat) := []
  /-- Head-index write under way: the index written and whether it has been acknowledged; R358, R359; reset none. -/
  headWr : Option (BitVec 32 × Bool) := none
  /-- Completed entries with IOC covered by the outstanding head write; R358; reset 0. -/
  iocs : Nat := 0
  /-- Completed entries with IOC that the next head write will cover; R358, R359; reset 0. -/
  iocsNext : Nat := 0
  /-- Host links to which the queue's entries have written since its last FLUSH, as 256 * link + function; R390; reset none. -/
  wroteLinks : List Nat := []
deriving DecidableEq, Repr

/-- What a Finger is doing inside its entry (R410, R416, R420, R390). -/
structure Transfer where
  src : Nat
  dst : Nat
  len : Nat
  srcGlove : Bool
  dstGlove : Bool
  /-- A FILL has a pattern and no source. -/
  pattern : Option (BitVec 64)
  /-- Bytes whose source has been requested and bytes whose writes have been issued, in the transfer's own order. -/
  issued : Nat := 0
  sent : Nat := 0
  /-- Bytes of the piece being written whose writes have been issued. -/
  part : Nat := 0
  /-- Pieces read and waiting for their writes: (offset in order, length, data). -/
  ready : List (Nat × List Byte) := []
  /-- Writes outstanding: (offset in order, length). -/
  writing : List (Nat × Nat) := []
  /-- Bytes acknowledged out of order: (offset, length). -/
  acked : List (Nat × Nat) := []
  /-- BYTES_DONE (R428). -/
  done : Nat := 0
  /-- A program instruction, with the increments of R405; false for a built-in entry. -/
  program : Bool := false
  srcInc : Option Nat := none
  dstInc : Option Nat := none
deriving DecidableEq, Repr

/-- A WAIT in progress (R416-R419). -/
structure Waiting where
  kind : Nat
  addr : Nat
  gloveSpace : Bool
  mask : BitVec 64
  value : BitVec 64
  cmp : Nat
  poll : Nat
  timeout : Nat
  polling : Bool := false
deriving DecidableEq, Repr

/-- A SIGNAL or FLUSH in progress (R420, R421, R390): step 1 flag write outstanding, step 2 zero-length reads outstanding. -/
structure Signalling where
  word : BitVec 256
  step : Nat
  /-- Links whose ZL_RD has not returned. -/
  zl : List Nat := []
  flush : Bool := false
deriving DecidableEq, Repr

/-- A halt that has been decided (R398, R427, R666). -/
structure Halt where
  code : Nat
  cause : Nat
  addr : Nat
  space : Nat
  fetch : Bool
  write : Bool
deriving DecidableEq, Repr

/-- Finger states (R397). -/
inductive FState where
  | stopped | running | halted
deriving DecidableEq, Repr

/-- A Finger context (R397-R436). -/
structure Finger where
  /-- 2 bits; FNG_STATUS.STATE (R436); reset 0 STOPPED. -/
  state : FState := .stopped
  /-- 10 bits; FNG_STATUS.ENGINE (R436): place on an engine; reset none. -/
  engine : Option Nat := none
  /-- 1 bit; FNG_STATUS.BULK (R436); reset 0. -/
  bulk : Bool := false
  /-- 7 bits; FNG_STATUS.SHARE (R436); reset 0. -/
  share : Nat := 0
  /-- 21 bits; R424: burst b; reset 0. -/
  burst : Nat := 0
  /-- 21 bits; FNG_RATE.TOKENS (R436); reset 0. -/
  tokens : Nat := 0
  /-- 64 bits; FNG_PC (R436); reset 0. -/
  pc : Nat := 0
  /-- 1 bit; FNG_PC.SPACE (R436); reset 0. -/
  pcGlove : Bool := false
  /-- 64 bits each; FNG_A (R436): A0-A3; reset 0. -/
  a0 : BitVec 64 := 0
  a1 : BitVec 64 := 0
  a2 : BitVec 64 := 0
  a3 : BitVec 64 := 0
  /-- 32 bits each; FNG_LOOP (R436): L0, L1; reset 0. -/
  l0 : BitVec 32 := 0
  l1 : BitVec 32 := 0
  /-- 32 bits; FNG_ENTRY.ADV (R436); reset 0. -/
  adv : BitVec 32 := 0
  /-- Four lines by address; R400: instruction buffer; reset empty. -/
  ibuf : List (Nat × Line) := []
  /-- A program line fetch is outstanding; R400; reset no. -/
  fetching : Bool := false
  /-- The entry held: queue and index; FNG_STATUS.ENTRY, QUEUE, FNG_ENTRY.INDEX (R436); reset none. -/
  entry : Option Origin := none
  /-- Target glove of the entry's glove-space accesses; R391, R404; reset 0. -/
  target : Nat := 0
  /-- 8 bits; FNG_FAULT_INFO.OPCODE (R436): opcode of the current or halted instruction or built-in entry; reset 0. -/
  opcode : Nat := 0
  /-- The entry held is a RUN_PROGRAM; R399; reset 0. -/
  program : Bool := false
  /-- The instruction word being executed; R401; reset 0. -/
  word : BitVec 256 := 0
  transfer : Option Transfer := none
  waiting : Option Waiting := none
  signalling : Option Signalling := none
  /-- Host links written by posted writes since the entry began or its last durable SIGNAL, as 256 * link + function; R421; reset none. -/
  wrote : List Nat := []
  /-- Queue number served last among the queues bound to the Finger; R357; reset 0. -/
  lastQueue : Nat := 0
  /-- 32 bits; R430: bytes the entry has written so far, modulo 2^32; reset 0. -/
  bytes : Nat := 0
  /-- A halt pending or reached; R398; reset none. -/
  halt : Option Halt := none
  /-- A stop requested by STOP_FINGER, BME clear or TDI error, effective at the next boundary; R432; reset none. -/
  stop : Option (Option Origin) := none
  /-- The halt code a boundary halt latches (R330, R97); reset none. -/
  stopCode : Option Nat := none
  /-- 16, 64, 2, 1, 1, 16 and 32 bits; FNG_FAULT_ADDR, FNG_FAULT_INFO, FNG_RATE.HALT_CODE (R436); reset 0. -/
  haltCode : Nat := 0
  faultAddr : Nat := 0
  faultSpace : Nat := 0
  faultFetch : Bool := false
  faultWrite : Bool := false
  faultCause : Nat := 0
  bytesDone : Nat := 0
deriving DecidableEq, Repr

/-! ### Outstanding requests -/

/-- What an initiator does with the response of a request. -/
inductive ReqCtx where
  /-- A host read; the Cuff assembles the lines (R306, R307). -/
  | hostRead (link fn hostTag glove : Nat) (addr len : Nat)
  /-- A BAR0 read of a unit register through the window (R182). -/
  | unitRead (link fn hostTag : Nat) (off len : Nat)
  /-- A packet of a host posted write with its address as the host gave it; the packets of one write carry one number (R308, R315,
  R219). -/
  | hostWrite (link fn glove addr : Nat) (peer : Bool) (wr : Nat)
  /-- A checker's read of a page-table line, by the number of its translation cache (R201). -/
  | tableRead (key line : Nat)
  /-- The MEM_RD_LOCK and the unlock of an AtomicOp (R320). -/
  | atomicRead (cuff line : Nat)
  | atomicUnlock (cuff line : Nat)
  /-- Finger requests: source read of a piece, destination write, program line, poll, flag write, ZL_RD. -/
  | fgRead (f : FgId) (off len : Nat) (addr space : Nat)
  | fgWrite (f : FgId) (off len : Nat) (addr space : Nat)
  | fgFetch (f : FgId) (addr space : Nat)
  | fgPoll (f : FgId) (addr space : Nat)
  | fgFlag (f : FgId) (addr space : Nat)
  | fgZl (f : FgId) (link : Nat)
  /-- Queue-manager requests: entry fetch, result write, head write. -/
  | qFetch (q : QId) (first count : Nat)
  | qResult (q : QId) (idx : Nat)
  | qHead (q : QId) (v : BitVec 32)
  /-- The SET_RULES array read and a Crown data write with the code and result that complete its entry. -/
  | crownRules (o : Origin) (glove n : Nat)
  | crownWrite (o : Origin) (code result : Nat)
  /-- A request injected for a Border transaction (R462). -/
  | borderIn (link xid : Nat)
  /-- A metadata fetch of a DDR gate: level (0 counter block) and index (R133). -/
  | gateMeta (gate block level : Nat)
  /-- The tier lookup for the first waiting packet of a block (R148), and a tier fill: until its MR_ACK the sealed line is in the
  gate's write queue (R140 step 5, R149). -/
  | gateTier (gate block : Nat)
  | gateFill (gate line : Nat)
  /-- The fetch of an ownership-table line (R122). -/
  | gateOwn (gate line : Nat)
  /-- The write of an evicted counter block and the update of its parent's MAC, by a DDR gate or for a node or table line that an
  HBM gate evicts (R134). -/
  | gateEvict (gate block : Nat)
  | gateMac (gate block : Nat)
  | hbmMac (hgate key : Nat)
  /-- A write to the mirror partner (R169). -/
  | mirror (gate : Nat)
  | other
deriving DecidableEq, Repr

/-- An outstanding request of an initiator unit (R272, R223, R280). -/
structure Req where
  unit : Nat
  tag : Nat
  ctx : ReqCtx
  pkt : Packet
  /-- Responses still expected, and the lines received as (address, line, EP). -/
  left : Nat
  got : List (Nat × Line × Bool) := []
  code : Nat := 0
  /-- The glove whose in-flight count holds it (R223). -/
  counts : Option Nat := none
  /-- The peer-window slot of that glove it passed through (R217, R55). -/
  window : Option Nat := none
  /-- Device time of injection (R280). -/
  time : Nat := 0
deriving DecidableEq, Repr

/-! ### DDR sealing gates, HBM and the tree -/

/-- A line in a write-combining buffer (R136, R138, R140): plaintext with the Band slot and glove it was written under. -/
structure WcbLine where
  /-- Local pool line number. -/
  line : Nat
  data : Line
  slot : Nat
  glove : Nat
  /-- Marked as waiting for re-encryption (R140). -/
  waiting : Bool := false
  /-- Its data were poisoned on the way (R269). -/
  bad : Bool := false
deriving DecidableEq, Repr

/-- A counter block (R121) as a gate holds it. -/
structure Ctr where
  major : Nat := 0
  gen : Nat := 0
  minors : Tbl Nat := []
deriving DecidableEq, Repr

/-- A re-encryption under way (R140). -/
structure Reenc where
  block : Nat
  /-- The buffered line that overflowed. -/
  line : Nat
  /-- Phase A reads raised to the foreground class (R141). -/
  raised : Bool := false
  /-- Phase A reads that wait for a slot in the re-encryption class (R140, R153). -/
  left : Nat := 0
deriving DecidableEq, Repr

/-- A foreground access that waits for a command slot (R153, R155): the channel or stack byte address of its line, and the device
time since which requests that arrived after it have been granted before it. -/
structure SlotReq where
  addr : Nat
  passed : Option Nat := none
deriving DecidableEq, Repr

/-- The work a DDR gate has under way for one block (R133, R148): the packets of the block wait in arrival order while the
gate fetches the counter block and its path, or looks the lines of the first packet up in the tier. -/
structure Walk where
  block : Nat
  /-- Level of the node last fetched (0 the counter block). -/
  level : Nat := 0
  /-- The lines fetched and not yet verified, from the counter block up (R133). -/
  path : List Line := []
  /-- A fetch of the path, a fetch of the ownership line (R122), or a tier lookup for the first waiting packet, is outstanding. -/
  fetch : Bool := false
  ownFetch : Bool := false
  tier : Bool := false
  waiting : List Packet := []
  /-- Buffered lines of the block that leave the buffer once its counter block is there (R125, R658). -/
  leaving : List Nat := []
deriving DecidableEq, Repr

/-- A lock held at an owning gate (R260, R322). -/
structure GateLock where
  line : Nat
  unit : Nat
  tag : Nat
deriving DecidableEq, Repr

/-- A DDR sealing gate with its channel controller. -/
structure Gate where
  /-- 2 bits; SEA_CHAN_STATUS.STATE as retired; R178, R166; reset 0. -/
  retired : Bool := false
  /-- SEA_CHAN_STATUS.STATE 2 suspect; R165; reset 0. -/
  suspect : Bool := false
  /-- 4,096 plaintext lines, least recently written first; R136, R138; reset empty. -/
  wcb : List WcbLine := []
  /-- 2 MiB; R131; reset empty: the counter cache, which holds verified counter blocks by pool block number, MAC lines by channel byte
  address, both with dirty, and ownership-table lines by table-space line number. -/
  ccache : Tbl (Ctr × Bool) := []
  macs : Tbl (Line × Bool) := []
  olines : Tbl Line := []
  /-- 256 entries: poisoned blocks with the level of the failed node; R163; reset empty. -/
  poison : Tbl Nat := []
  /-- Pages poisoned whole when the list is full, with the level of the failed node; R163; reset none. -/
  poisonPages : Tbl Nat := []
  /-- Blocks whose major counter is exhausted; R145; reset none. -/
  exhausted : List Nat := []
  /-- 1,024 entries: spared chunk to spare chunk number; R173; reset empty. -/
  spares : Tbl Nat := []
  /-- Device times of the corrected errors of a chunk within 24 h; R173; reset none. -/
  soft : Tbl (List Nat) := []
  /-- Chunks that met the sparing criteria with the table full and have been counted; R175; reset none. -/
  unspared : List Nat := []
  /-- 5 bits; SEA_CHAN_STATUS.INTEG_BUCKET (R178, R164); reset 0. -/
  integ : Nat := 0
  /-- 5 bits; SEA_CHAN_STATUS.UE_BUCKET (R178, R166); reset 0. -/
  ue : Nat := 0
  /-- 16, 11 and 36 bits; SEA_FIRST_FAIL (R178): CODE, SLOT, LINE; reset 0. -/
  failCode : Nat := 0
  failSlot : Nat := 0
  failLine : Nat := 0
  /-- 1 and 16 bits; SEA_FAIL_COUNT (R178): VALID, COUNT; reset 0. -/
  failValid : Bool := false
  failCount : Nat := 0
  /-- 32 bits; SEA_REENC_COUNT (R178), wrapping; reset 0. -/
  reencCount : Nat := 0
  /-- Four staging buffers; R140, R143; reset free. -/
  reencs : List Reenc := []
  /-- Locked lines; R260; reset none. -/
  locks : List GateLock := []
  /-- Lock-wait store and accesses to a held block, in arrival order; R260, R140; reset empty. -/
  parked : List Packet := []
  /-- Metadata walks; R133, R135; reset none. -/
  walks : List Walk := []
  /-- Node requests that wait because 16 are outstanding to their gate, in order; R135; reset none. -/
  mqWait : List (ReqCtx × Packet) := []
  /-- Lines scrubbed in the current pass; R156; reset 0. -/
  scrub : Nat := 0
  /-- Device time at which the current 24-hour pass began; R157 (SEA_CHAN_STATUS.SCRUB_BEHIND follows from it); reset 0. -/
  passStart : Nat := 0
  /-- Slots since scrub was last granted; R153; reset 0. -/
  slots : Nat := 0
  /-- Foreground requests waiting at the scheduler in arrival order, and the open row of each bank; R153, R155; reset none. -/
  fg : List SlotReq := []
  rows : Tbl Nat := []
deriving DecidableEq, Repr

/-- The scheduler of an HBM pseudo-channel (R153, R157). -/
structure HbmSched where
  /-- Lines scrubbed in the current pass; R157; reset 0. -/
  scrub : Nat := 0
  /-- Device time at which the pass began; R157; reset 0. -/
  passStart : Nat := 0
  /-- Slots since scrub was last granted; R153; reset 0. -/
  slots : Nat := 0
  /-- Foreground requests waiting in arrival order, and the open row of each bank; R153, R155; reset none. -/
  fg : List SlotReq := []
  rows : Tbl Nat := []
deriving DecidableEq, Repr

/-- An HBM sealing gate (R128, R131, R136). -/
structure HGate where
  /-- 2 MiB; R131; reset empty: the counter cache, which holds verified tree nodes and table lines that the gate owns, by node key,
  with dirty. -/
  cache : Tbl (Line × Bool) := []
  /-- 256 KiB, 4,096 lines; R136; reset empty: plaintext lines awaiting XTS sealing, oldest first, by stack byte address. -/
  buf : List (Nat × Line) := []
deriving DecidableEq, Repr

/-- A tier way (R146, R147) with its data line. -/
structure TierLine where
  stack : Nat
  set : Nat
  way : Nat
  mac : BitVec 64
  slot : Nat
  dirty : Bool
  ref : Bool
  tag : Nat
  data : Line
deriving DecidableEq, Repr

/-! ### The Weave -/

/-- A flit pair in a knot buffer (R238, R248): its packet, whether it is the header or tail pair, where it goes and its
arrival number. -/
structure FlitPair where
  pkt : Nat
  head : Bool
  tail : Bool
  /-- LV, the flits of the two lanes, and NEXT, the output port to take at the knot (R233, R238, R247). -/
  lv : BitVec 2 := 3
  lane0 : Line := 0
  lane1 : Line := 0
  next : Nat
  /-- Destination knot and unit. -/
  dest : Nat
  unit : Nat
  seq : Nat
  /-- It has been counted as waiting for a credit or for room in a hold store (R265, R282). -/
  waited : Bool := false
deriving DecidableEq, Repr

/-- One input port and VC of a knot: flit pairs oldest first, and the reserved credits the upstream sender holds and the shared ones it
has in use (R248, R249). -/
structure KnotQ where
  pairs : List FlitPair := []
  reserved : Nat := 4
  sharedHeld : Nat := 0
deriving DecidableEq, Repr

/-- The control bundle of a strand direction (R233): VC 4 bits, LV, HEAD, TAIL, NEXT 3 bits. -/
structure Control where
  vc : Nat
  lv : BitVec 2
  head : Bool
  tail : Bool
  next : Nat
deriving DecidableEq, Repr

/-- The wires of a strand direction in a handshake (R233, R234): its eight groups with their check bits, and the two control copies. -/
structure StrandWires where
  groups : List (BitVec 128 × BitVec 9)
  control : Control
  copy : Control
deriving DecidableEq, Repr

/-- One output port of a knot (R252, R253): VC allocation and arbitration state. -/
structure KnotOut where
  /-- Packet that holds each VC, by VC code, and the arrival number of its header at this knot (R255). -/
  alloc : Tbl Nat := []
  headSeq : Tbl Nat := []
  /-- What the strand direction drives since its last handshake (R233, R234); reset nothing. -/
  wires : Option StrandWires := none
  /-- Local port: pairs in the buffer of the unit's interface by VC, against the 4 reserved credits it advertises (R251). -/
  unitUsed : Tbl Nat := []
  lastE : Bool := false
  /-- Grants since the last class-1 grant while a class-1 VC was ready. -/
  bulkWait : Nat := 0
  /-- Last class-1 and class-0 VC granted, and last input port per VC, for the round robins. -/
  last1 : Nat := 5
  last0 : Nat := 7
  lastIn : Tbl Nat := []
  /-- Direction stopped by a header error (R270). -/
  stopped : Bool := false
  /-- 32 bits each; WVE_STRAND WINDOW_HS and CREDIT_WAITS of the last window (R282); reset 0. -/
  winHs : Nat := 0
  winWaits : Nat := 0
  /-- Counts of the window in progress (R282); reset 0. -/
  hs : Nat := 0
  waits : Nat := 0
  /-- 32 bits; WVE_STRAND_HEALTH.CORRECTED (R282), wrapping; reset 0. -/
  corrected : Nat := 0
  /-- 8 bits; WVE_STRAND_HEALTH.SPARES_USED (R282); reset 0. -/
  spares : BitVec 8 := 0
deriving DecidableEq, Repr

/-- A hold store of a knot and VC (R261, R265). -/
structure HoldStore where
  /-- Held packets in arrival order. -/
  pkts : List Nat := []
  /-- Flit pairs they take, at most 8. -/
  used : Nat := 0
deriving DecidableEq, Repr

/-- WVE_USTAT or WVE_GSTAT (R280, R281); every counter 64 bits, wrapping; reset 0. -/
structure Stat where
  rdPool : Nat := 0
  wrPool : Nat := 0
  rdHost : Nat := 0
  wrHost : Nat := 0
  rdOther : Nat := 0
  wrOther : Nat := 0
  requests : Nat := 0
  errors : Nat := 0
  hist : Tbl Nat := []
  latSum : Nat := 0
deriving DecidableEq, Repr

/-- WVE_PACE and WVE_HOLD of a quadrant (R276). -/
structure Quad where
  /-- 12 bits each; WVE_PACE.CURRENT, AVG, MIN (R276); reset 0. -/
  cur : Nat := 0
  avg : Nat := 0
  min : Nat := 0
  /-- A reading has been taken since cold reset (R276 MIN); reset 0. -/
  seen : Bool := false
  /-- 1 bit; WVE_PACE.ALARM (R276); reset 0. -/
  alarm : Bool := false
  /-- Sum and number of samples of the window in progress (R276 AVG); reset 0. -/
  sum : Nat := 0
  samples : Nat := 0
  /-- An ALARM rose in this window (R593); reset 0. -/
  rose : Bool := false
  /-- 32, 16 and 7 bits; WVE_HOLD (R276): HELD, OVERFLOWS, PEAK; reset 0. -/
  held : Nat := 0
  overflows : Nat := 0
  peak : Nat := 0
  /-- 8 bits, signed; PWR_TEMP.JUNCTION (R599); reset 0. -/
  temp : Nat := 0
deriving DecidableEq, Repr

/-! ### Border links and peers -/

/-- Border link states (R457). -/
inductive BState where
  | absent | training | ident | admitting | up | retrain | down | retired
deriving DecidableEq, Repr

/-- CTRL flits a link repeats until answered (R446). -/
inductive Ctrl where
  | ident
  | rerouteReq (dead last : Nat)
  | widthReq (mask : BitVec 8)
deriving DecidableEq, Repr

/-- A PAYLOAD flit in the replay buffer (R449): sequence number, VC code and its bytes. -/
structure SentFlit where
  seq : Nat
  vc : Nat
  body : List Byte
deriving DecidableEq, Repr

/-- A Border packet in its VC's stream (R443): its bytes, how many of them flits have carried, and the sequence number of the last
such flit. -/
structure TxPkt where
  vc : Nat
  bytes : List Byte
  sent : Nat := 0
  last : Nat := 0
deriving DecidableEq, Repr

/-- An outbound Border transaction (R460, R461). -/
structure Xid where
  xid : Nat
  pkt : Packet
  /-- Lines still to arrive. -/
  left : Nat := 0
deriving DecidableEq, Repr

/-- An inbound Border transaction (R462). -/
structure InXid where
  origin : Nat
  xid : Nat
  pkt : Packet
  /-- The link its responses take: the one it arrived on, or the one that carries that link's rerouted traffic (R463). -/
  back : Nat
deriving DecidableEq, Repr

/-- A Border link. -/
structure BLink where
  /-- 3 bits; BRD_LINK_STATUS.STATE (R479, R457); reset 0 ABSENT. -/
  state : BState := .absent
  /-- 3 bits; BRD_LINK_STATUS.CAUSE (R479); reset 0. -/
  cause : Nat := 0
  /-- 3 bits; BRD_LINK_STATUS.ROUTED_TO (R479), none when it carries its own; reset none. -/
  routed : Option Nat := none
  /-- 8 bits; BRD_LINK_STATUS.RETIRED (R479); reset 0. -/
  retired : BitVec 8 := 0
  /-- 8 bits; BRD_LINK_STATUS.ACTIVE (R479); reset 0. -/
  active : BitVec 8 := 0
  /-- 16 bits each; BRD_LINK_COUNT (R479), saturating: DOWNS, REROUTES, REPLAYS, CRC_ERRORS; reset 0. -/
  downs : Nat := 0
  reroutes : Nat := 0
  replays : Nat := 0
  crcErrors : Nat := 0
  /-- 8 x 8 bits; BRD_LANE_BUCKET (R479); reset 0. -/
  lanes : Tbl Nat := []
  /-- R458: link-down bucket; reset 0. -/
  downBucket : Nat := 0
  /-- The link has been UP since it was last admitted (R473); reset 0. -/
  wasUp : Bool := false
  /-- 16 bits; R447: next expected sequence number; reset 0. -/
  rxNext : Nat := 0
  /-- R447: NAK to be set in the next ACK; discarding until the expected number; reset 0. -/
  nak : Bool := false
  /-- R448: PAYLOAD flits accepted since the last ACK; reset 0. -/
  unacked : Nat := 0
  /-- 16 bits; R449: next sequence number to send; reset 0. -/
  txNext : Nat := 0
  /-- 512 flits; R449: replay buffer; reset empty. -/
  replay : List SentFlit := []
  /-- R450: replays in a row without ACK_SEQ advancing; reset 0. -/
  replayRow : Nat := 0
  /-- R451: reserved credits by VC index (default 8), shared credits and shared held by VC; reset 8 and 200. -/
  credits : Tbl Nat := []
  sharedFree : Nat := 200
  sharedHeld : Tbl Nat := []
  /-- R452: credits to return in the next ACK, by VC index: reserved, shared; reset 0. -/
  retRes : Tbl Nat := []
  retShared : Tbl Nat := []
  /-- R452: receive occupancy by VC index; reset 0. -/
  occ : Tbl Nat := []
  /-- Packets to send or not yet acknowledged whole, in order; R443, R465; reset empty. -/
  tx : List TxPkt := []
  /-- Bodies of received flits by VC code, not yet handed to the Weave; R443, R452; reset empty. -/
  rx : Tbl (List (List Byte)) := []
  /-- At most 2,048; R460: outbound transactions; reset none. -/
  xids : List Xid := []
  /-- R462: inbound entries; reset none. -/
  inbound : List InXid := []
  /-- R446: CTRL flit awaiting its answer; reset none. -/
  ctrl : Option Ctrl := none
deriving DecidableEq, Repr

/-- Peer states (R479). -/
inductive PState where
  | absent | admitting | admitted | fenced
deriving DecidableEq, Repr

/-- A reroute toward a peer (R464). -/
structure Reroute where
  dead : Nat
  survivor : Nat
  /-- The peer's LAST_DELIVERED, once known. -/
  last : Option Nat := none
  /-- Our REROUTE_DONE sent, the peer's seen. -/
  sent : Bool := false
  seen : Bool := false
  /-- Further dead links to the peer whose traffic is rerouted next (R467). -/
  also : List Nat := []
deriving DecidableEq, Repr

/-- MGMT requests the home Crown waits on (R470). -/
inductive Mgmt where
  | keyTransfer | pageAlloc (m : Nat) | pageRelease (pages : List Nat) | keyRevoke
deriving DecidableEq, Repr

/-- A MGMT exchange outstanding toward a peer. -/
structure MgmtReq where
  glove : Nat
  msg : Mgmt
  attempts : Nat := 1
deriving DecidableEq, Repr

/-- A basket peer. -/
structure Peer where
  /-- 2 bits; BRD_PEER.STATE (R479); reset 0. -/
  state : PState := .absent
  /-- 3 bits; BRD_PEER.FENCE_CAUSE (R479); reset 0. -/
  cause : Nat := 0
  /-- 16 bits; BRD_PEER.FENCES (R479), saturating; reset 0. -/
  fences : Nat := 0
  /-- Stage of the session exchange of R75 (0 none, 11 established); reset 0. -/
  spdm : Nat := 0
  /-- The peer's chain has verified (R74); reset 0. -/
  chainOk : Bool := false
  /-- 256 bits; R75, R469: session key; reset none. -/
  session : Option Key := none
  /-- R464: reroute under way; reset none. -/
  reroute : Option Reroute := none
  /-- R470: MGMT requests outstanding; reset none. -/
  mgmt : List MgmtReq := []
  /-- R471: pages received for a GRANT_PAGES in progress; reset none. -/
  listed : List Nat := []
deriving DecidableEq, Repr

/-- A GRANT_PAGES for peer pages in progress (R471). -/
structure PeerGrant where
  origin : Origin
  glove : Nat
  home : Nat
  readOnly : Bool
  group : Nat
  m : Nat
  start : Nat
deriving DecidableEq, Repr

/-! ### The Crown, events and faults -/

/-- An event-gatherer source (R481-R487, EVT_SRC of R511). -/
structure Source where
  /-- 1 bit; EVT_SRC.ENABLED (R511); reset 0. -/
  enabled : Bool := false
  /-- 8 bits; EVT_SRC.COUNT (R484); reset 0. -/
  count : Nat := 0
  /-- 1 bit; EVT_SRC.OVERFLOW (R484); reset 0. -/
  overflow : Bool := false
  /-- Level line asserted (R486); reset 0. -/
  level : Bool := false
deriving DecidableEq, Repr

/-- An EVT_IN pin (R488, R489). -/
structure EvtPin where
  /-- 1 bit; EVT_IN_CFG.PIN (R511): synchronised level; reset 0. -/
  pin : Bool := false
  /-- R489: filtered level; reset 0. -/
  filtered : Bool := false
  /-- 8 bits; R489: count; reset 0. -/
  count : Nat := 0
deriving DecidableEq, Repr

/-- A detail record (R515, R537). -/
structure Detail where
  /-- FLT_DETAIL_INFO (R537): VALID, CODE 16 bits, SEVERITY 2, UNIT 10, ELEMENT 32; reset 0. -/
  valid : Bool := false
  code : Nat := 0
  severity : Nat := 0
  unit : Nat := 0
  element : Nat := 0
  /-- 64 bits; FLT_DETAIL_TIME (R537); reset 0. -/
  time : Nat := 0
  /-- FLT_DETAIL_COUNT (R537): FATAL 16 bits, CONTAINED 16, CORRECTED 32; reset 0. -/
  fatal : Nat := 0
  contained : Nat := 0
  corrected : Nat := 0
deriving DecidableEq, Repr

/-- FLT_UNIT (R537). -/
structure UnitFlt where
  /-- 2 bits; STATE: 0 normal, 1 transient fence, 2 fenced until cold reset, 3 retired; reset 0. -/
  state : Nat := 0
  /-- 16 bits; CODE; reset 0. -/
  code : Nat := 0
  /-- 16 bits; RECOVERIES, saturating; reset 0. -/
  recoveries : Nat := 0
  /-- 8 bits; QUIET_LEFT; reset 0. -/
  quiet : Nat := 0
  /-- 8 bits; RECOVERY_BUCKET; reset 0. -/
  bucket : Nat := 0
deriving DecidableEq, Repr

/-- A fault-log record (R535). -/
structure FltRec where
  code : Nat
  unit : Nat
  severity : Nat
  cls : Nat
  flags : Nat
  time : Nat
  element : Nat
  glove : Nat
  seq : Nat
deriving DecidableEq, Repr

/-- A retirement-log record in MRAM (R536), under its record index. -/
structure RetRec where
  kind : Nat
  /-- 0 in force, 1 clear-pending. -/
  state : Nat := 0
  unit : Nat
  element : Nat
  detail : Nat
  coldResets : Nat
  time : Nat
deriving DecidableEq, Repr

/-- A start-up log record (R565). -/
structure StartRec where
  code : Nat
  step : Nat
  copy : Nat
  time : Nat
  detail : Nat
deriving DecidableEq, Repr

/-- On-die MRAM (R528, R550, R553, R617): kept across cold resets. -/
structure Mram where
  /-- 32 bits; IMG_FLOOR.PATTERN_FLOOR (R564); reset 0 (DESIGN CHOICE, as manufactured). -/
  patternFloor : Nat := 0
  /-- 16 bits; IMG_FLOOR.MICROCODE_FLOOR (R564); reset 0 (DESIGN CHOICE). -/
  ucodeFloor : Nat := 0
  /-- 32 bits; IMG_COLD_RESETS.COUNT (R564); reset 0 (DESIGN CHOICE). -/
  coldResets : Nat := 0
  /-- 32,768 records of 32 bytes; R528; reset empty (DESIGN CHOICE). -/
  log : Tbl RetRec := []
  /-- Layout of the last start-up that reached step 7: Cuff modes and (rate, width, clocking) per link; R553; reset none. -/
  layout : Option (List Nat × List (Nat × Nat × Nat)) := none
  /-- 64 bits; R617: next minute sequence number; reset 0 (DESIGN CHOICE). -/
  nextSeq : Nat := 0
  /-- 64 bits for each link; R617: next LINK_SEQ; reset 0 (DESIGN CHOICE). -/
  linkSeq : Tbl Nat := []
deriving DecidableEq, Repr

/-! ### Power -/

/-- A power domain (R567, R599). -/
structure Dom where
  /-- 2 bits; PWR_DOMAIN_STATUS.STATE: 0 on, 1 retention, 2 off (R599); reset 0. -/
  state : Nat := 0
  /-- 3 bits; PWR_DOMAIN_STATUS.PHASE (R599): 0 steady (a reader sees 1 while lingering), 2 entering, 3 committed, 4 waking; reset 0. -/
  phase : Nat := 0
  /-- Target of the entry in progress (R575); reset 0. -/
  target : Nat := 0
  /-- 1 bit; PWR_DOMAIN_STATUS.PADS_HELD (R581); reset 0. -/
  pads : Bool := false
  /-- 1 bit; PWR_DOMAIN_STATUS.NO_WAKE (R579); reset 0. -/
  noWake : Bool := false
  /-- 16, 16 and 32 bits; PWR_DOMAIN_COUNT (R599): REFUSED, ABORTED, ENTRIES; reset 0. -/
  refused : Nat := 0
  aborted : Nat := 0
  entries : Nat := 0
  /-- 16, 16 and 32 bits; PWR_DOMAIN_LAST (R599): REFUSER, ABORTER, WAKES; reset 0. -/
  refuser : Nat := 0
  aborter : Nat := 0
  wakes : Nat := 0
  /-- Links whose operator pin is in force (R379); reset none. -/
  pins : List Nat := []
  /-- PIN_DOMAIN entries to answer once the domain is on (R379); reset none. -/
  pinWait : List Origin := []
  /-- Woken after the entry completes (R577); reset 0. -/
  wakeAfter : Bool := false
deriving DecidableEq, Repr

/-- The power sequencer and AVSBus (R585-R599). -/
structure Pace where
  /-- 16 bits each; PWR_PACE.VDD_MV, TARGET_MV (R599); reset 0. -/
  vdd : Nat := 0
  targetMv : Nat := 0
  /-- 16 bits; PWR_PACE.MOVES (R599), saturating; reset 0. -/
  moves : Nat := 0
  /-- 1 bit each; PWR_PACE.AVS_FAILED, THERMAL_HOLD, MOVING (R599); reset 0. -/
  avsFailed : Bool := false
  hold : Bool := false
  moving : Bool := false
  /-- 2 bits each; PWR_PACE.TARGET, POINT (R599); reset 1 nominal. -/
  target : Nat := 1
  point : Nat := 1
  /-- A target chosen during a move (R592); reset none. -/
  next : Option Nat := none
  /-- 18 bits; PWR_ISLAND.HIGH (R599); reset 0: every island low. -/
  high : BitVec 18 := 0
  /-- Attempts of the AVSBus transaction in progress (R597); reset 0. -/
  attempts : Nat := 0
  /-- A voltage within 10 mV of the target has been read (R590); reset 0. -/
  readOk : Bool := false
  /-- The Target Rail Voltage write of the move has completed (R590); reset 0. -/
  written : Bool := false
  /-- Windows in a row below DOWN_UTIL (R593); reset 0. -/
  lowWindows : Nat := 0
deriving DecidableEq, Repr

/-! ### The usage ledger -/

/-- A glove's usage slice and Crown counts (R608-R611). -/
structure Usage where
  /-- 64 bits each; R610: Finger bytes by space; reset 0. -/
  dmaHost : Nat := 0
  dmaPool : Nat := 0
  dmaPeer : Nat := 0
  /-- R607: bytes of POOL_RD discarded as a prefetch; reset 0. -/
  discarded : Nat := 0
  /-- R611: control commands, work entries and integrity failures of the record in progress; reset 0. -/
  controls : Nat := 0
  works : Nat := 0
  integ : Nat := 0
  /-- R611: page-nanoseconds accumulated up to `pageTime` and pages held; reset 0. -/
  pageNs : Nat := 0
  pageTime : Nat := 0
  pages : Nat := 0
  /-- R611: sum and number of tier samples; reset 0. -/
  tierSum : Nat := 0
  tierN : Nat := 0
  /-- R607 flags of the record in progress: OPENED, LINK_EVENT, ANCHOR_SET, MISSING; reset 0. -/
  opened : Bool := false
  linkEvent : Bool := false
  anchorSet : Bool := false
  missing : BitVec 4 := 0
  /-- R607: start of the record in progress; reset 0. -/
  tStart : Nat := 0
  /-- R606: the glove has been in a state other than FREE within the minute; reset 0. -/
  live : Bool := false
  /-- R608, R612: baselines of WVE_GSTAT by quadrant; reset 0. -/
  base : Tbl Stat := []
  /-- R614: LINK_SEQ of the tenancy's previous batch; reset none. -/
  prev : Option Nat := none
  /-- R621: number of the current or most recent tenancy; reset 0. -/
  tenancy : Nat := 0
deriving DecidableEq, Repr

/-- A ledger record (R607). -/
structure Record where
  glove : Nat
  flags : Nat
  missing : BitVec 4
  kcv : BitVec 64
  controls : Nat
  integ : Nat
  seq : Nat
  tStart : Nat
  tEnd : Nat
  poolRd : Nat
  poolWr : Nat
  dmaHost : Nat
  dmaPool : Nat
  dmaPeer : Nat
  pageMs : Nat
  tierAvg : Nat
  works : Nat
  p50 : Nat
  p99 : Nat
  anchor : Nat
  anchorTime : Nat
  discarded : Nat
deriving DecidableEq, Repr

/-- A batch (R613, R614): open, closed and waiting for its signature, or signed. -/
structure Batch where
  glove : Nat
  link : Nat
  tenancy : Nat
  records : List Record
  closing : Bool := false
  closed : Bool := false
  /-- LINK_SEQ once signed (R617, R618). -/
  linkSeq : Option Nat := none
  prev : Option Nat := none
  first : Bool := false
  signTime : Nat := 0
  sig : BitVec 768 := 0
  /-- Returned on the link's admin queue (R619). -/
  returned : Bool := false
deriving DecidableEq, Repr

/-! ### What the device drives -/

/-- SPDM, IDE_KM, TDISP and glove-key responses. -/
inductive Spdm where
  | version (list : List Nat)
  | capabilities (caps : SpdmCaps) (ctExponent dataTransferSize maxMsgSize : Nat)
  | algorithms (a : SpdmAlgs)
  | digests (d : Digest)
  | certificate (portion : List Byte) (remainder : Nat)
  | challengeAuth (sum : Option Digest) (sig : BitVec 768)
  | measurements (blocks : List (Nat × List Byte)) (sig : Option (BitVec 768))
  | keyExchangeRsp (session : Nat) (sum : Option Digest) (mutAuth : Bool)
  | finishRsp (session : Nat)
  | endSessionAck
  | encapsulatedRequest (cert : Bool)
  | encapsulatedAck
  | errorInvalidRequest | errorUnsupportedRequest | errorUnspecified | errorSessionRequired | errorSessionLimit
  /-- A refusal that carries a device error code (R67). -/
  | refused (code : Nat)
  | ideQueryResp (streams : List (Nat × Bool))
  | ideKpAck (ok : Bool)
  | ideGoStopAck
  | tdispVersion | tdispCapabilities
  | tdispLock (nonce : BitVec 256)
  | tdispReport (bytes : List Byte)
  | tdispState (st : TdiState)
  | tdispStart | tdispStop
  | tdispErrorState | tdispErrorUnsupported | tdispErrorInterface
  | keyShareRsp (glove code id : Nat) (salt : BitVec 384) (point : BitVec 768)
  | keyInstallRsp (glove code : Nat) (kcv : BitVec 64)
deriving DecidableEq, Repr

/-- Border flits the device sends (R441, R446). -/
inductive BFlit where
  | payload (seq vc : Nat) (body : List Byte)
  | ack (a : AckFlit)
  | ident (i : Ident)
  | rerouteReq (dead last : Nat) | rerouteAck (dead last : Nat) | rerouteDone (dead : Nat)
  | widthReq (mask : BitVec 8) | widthAck (mask : BitVec 8)
deriving DecidableEq, Repr

/-- MGMT messages the device sends (R470). -/
inductive MgmtMsg where
  | keyTransfer (glove : Nat) (key : Key)
  | keyConfirm (glove slot code : Nat)
  | pageAlloc (glove m : Nat)
  | pageList (glove code : Nat) (pages : List Nat)
  | pageRelease (glove : Nat) (pages : List Nat)
  | keyRevoke (glove : Nat)
  | revokeAck (glove pages : Nat)
  | quarantineNotice (cause : Nat)
  | spdm (request : Nat)
deriving DecidableEq, Repr

/-- Attributes of a transmitted TLP: Relaxed Ordering, ID-Based Ordering and No Snoop (R310), the TDISP T bit and the IDE stream that
carries it (R218). -/
structure TlpAttr where
  ro : Bool := false
  ido : Bool := false
  ns : Bool := false
  t : Bool := false
  stream : Option Nat := none
  /-- Poisoned data (R269). -/
  ep : Bool := false
deriving DecidableEq, Repr

/-- What leaves the device. -/
inductive Out where
  /-- A completion to a host request (R306, R307): data bytes, poisoned or not. -/
  | cpl (link tag : Nat) (status : CplStatus) (data : List Byte) (ep : Bool)
  /-- A transmitted posted write and read TLP (R310), with the TDISP T bit and the IDE stream (R218). -/
  | memWr (link fn addr : Nat) (data : List (Option Byte)) (attr : TlpAttr)
  | memRd (link fn addr len tag : Nat) (attr : TlpAttr)
  /-- An MSI-X message (R341) and a PME message (R506). -/
  | msix (link fn vec : Nat) (addr : BitVec 64) (data : BitVec 32)
  | pme (link fn : Nat)
  /-- Sideband pins: WAKE#, ALERT#, THERMTRIP# (true asserted). -/
  | wake (link : Nat) (v : Bool)
  | alert
  | thermtrip (low : Bool)
  /-- Transmitters to electrical idle (R557); links taken to Detect (R521, R553). -/
  | electricalIdle
  | linkDetect (link : Nat)
  /-- A Border flit, with the 65-bit groups that each lane sends (R444). -/
  | flit (link : Nat) (f : BFlit) (lanes : List (Nat × List (BitVec 65)))
  /-- An MGMT message; after admission its body is protected with AES-256-GCM under the session's key (R469). -/
  | mgmt (peer : Nat) (m : MgmtMsg) (session : Option Key)
  /-- SPDM responses. -/
  | spdm (c : SpdmCh) (r : Spdm)
  /-- SMBus bytes returned, and acknowledgement of a write (R651). -/
  | smbus (bytes : List Byte)
  | smbusAck (ok : Bool)
  /-- AVSBus transactions (R596): Target Rail Voltage write in mV, Read Voltage. -/
  | avsWrite (rail mv : Nat)
  | avsRead (rail : Nat)
deriving DecidableEq, Repr

/-! ### The device -/

/-- The device as a whole: power, reset, mode, pins and time. -/
structure Sys where
  /-- 1 bit; R559: VDD_AON present (a board input); reset 1. -/
  aon : Bool := true
  /-- 1 bit; R557: DEV_RST# asserted or a power-good input low (board inputs); reset asserted. -/
  devRst : Bool := true
  /-- 3 bits; FLT_MODE.MODE (R537, R532); reset Loading. -/
  mode : Mode := .loading
  /-- 16 bits; FLT_MODE.CAUSE (R537); reset 0. -/
  cause : Nat := 0
  /-- 64 bits; USG_TIME.NOW (R601); reset 0: device time in ns. -/
  now : Nat := 0
  /-- 1 bit; R560: ALERT# asserted; reset asserted (R559). -/
  alert : Bool := true
  /-- 1 bit; R654: THERMTRIP# driven low; reset released. -/
  thermtrip : Bool := false
  /-- 2 bits; R651: SMB_ADDR sampled as PG_AON asserts; reset 0. -/
  smbAddr : Nat := 0
deriving DecidableEq, Repr

/-- Start-up: the Pattern, MRAM, fuses, flash and the recovery window. -/
structure Boot where
  /-- 3 bits; IMG_STATUS.STEP (R564); reset 0. -/
  step : Nat := 0
  /-- 2 bits; IMG_STATUS.COPY (R564); reset 0. -/
  copy : Nat := 0
  /-- 16 bits each; IMG_COPY_RESULT A_CODE and B_CODE (R564); reset 0. -/
  resultA : Nat := 0
  resultB : Nat := 0
  /-- Up to 256 records; R565: start-up log; reset empty. -/
  startLog : List StartRec := []
  /-- The Pattern in force and the RWL registers it sets; R546; reset values of the registers. -/
  cfg : Pattern := {}
  /-- On-die MRAM; R528; kept across cold resets. -/
  mram : Mram := {}
  /-- 384 bits; R544, R562: fused operator configuration signer hash; reset none (DESIGN CHOICE, as manufactured). -/
  signer : Option Digest := none
  /-- QSPI flash, 16 MiB read by the device; R539; an unlisted byte reads 0xFF (DESIGN CHOICE, erased). -/
  flash : Memory := []
  /-- 1 bit each; IMG_RCV_STATUS BUSY and DONE (R564); reset 0. -/
  rcvBusy : Bool := false
  rcvDone : Bool := false
  /-- 16 bits; IMG_RCV_STATUS.CODE (R564); reset 0. -/
  rcvCode : Nat := 0
  /-- 32 bits; IMG_RCV_ADDR.OFFSET (R564); reset 0. -/
  rcvAddr : Nat := 0
  /-- 4 KiB; IMG_RCV_BUF (R564); an unlisted byte reads 0; reset 0. -/
  rcvBuf : Memory := []
  /-- The recovery operation under way as (OP, LENGTH, copy B); R562; reset none. -/
  rcvOp : Option (Nat × Nat × Bool) := none
  /-- Result of a VERIFY to be reported when it is done; R562; reset 0. -/
  rcvResult : Nat := 0
  /-- Model: the board as the last COLD_RESET showed it, which a VERIFY checks against; R562; reset nothing shown. -/
  board : Board := {}
deriving DecidableEq, Repr

/-- Gloves, the Band, the Crown's keys and its randomness. -/
structure Trust where
  /-- 1,024 gloves; R48; reset FREE. -/
  gloves : Tbl Glove := []
  /-- 2,048 Band slots; R62; reset zero. -/
  band : Tbl BandSlot := []
  /-- One-time key shares by glove; R68, R70; reset none. -/
  shares : Tbl Share := []
  /-- 1 bit; CRN_STATUS.DRBG_READY (R633); reset 0. -/
  drbgReady : Bool := false
  /-- 12 bits; R66: generate requests since the last reseed; reset 0. -/
  drbgCount : Nat := 0
  /-- 16 bits; CRN_STATUS.RESEEDS (R633), saturating; reset 0. -/
  reseeds : Nat := 0
  /-- 16 bits; CRN_STATUS.HEALTH_FAILS (R633), saturating; reset 0. -/
  healthFails : Nat := 0
  /-- 1 bit; CRN_STATUS.ENTROPY_FAILED (R633); reset 0. -/
  entropyFailed : Bool := false
  /-- Model: counter of free draws (R65, R68); DESIGN CHOICE reset 0. -/
  fresh : Nat := 0
  /-- 512, 256 and 128 bits; R117: XTS key pair, k_tree and h_tree; reset 0 (zeroized). -/
  xtsKey : BitVec 512 := 0
  kTree : Key := 0
  hTree : BitVec 128 := 0
  /-- 384 bits each; R81, R82, R616: device identity, alias and usage private keys; reset none. -/
  identityKey : Option (BitVec 384) := none
  aliasKey : Option (BitVec 384) := none
  usageKey : Option (BitVec 384) := none
deriving DecidableEq, Repr

/-- Functions, host links and Cuffs. -/
structure HostSide where
  /-- Functions by 256 * link + function number; R46, R295; reset values of R339, R511. -/
  fns : Tbl Fn := []
  /-- 16 links; R284; reset down. -/
  links : Tbl Link := []
  /-- 8 Cuffs; R284; reset empty. -/
  cuffs : Tbl Cuff := []
  /-- Messages queued at their Cuff before their commit point, as (function, vector); R498; reset none. -/
  msgs : List (FnId × Nat) := []
deriving DecidableEq, Repr

/-- Queues, Fingers and the Crown's work. -/
structure Work where
  /-- Queues by (256 * link + function) * 128 + queue number; R345; reset absent. -/
  queues : Tbl Queue := []
  /-- Fingers by (256 * link + function) * 16 + index; R397; reset STOPPED. -/
  fingers : Tbl Finger := []
  /-- Commands dispatched to the Crown and the Fingers and not yet executed; R355; reset none. -/
  crownWork : List Instr := []
  /-- Finger served last on each engine, by engine unit ID; R393; reset none. -/
  rr : Tbl Nat := []
deriving DecidableEq, Repr

/-- Pool memory, its tables, its sealing and the tier. -/
structure Pool where
  /-- Glove page tables by glove * 2^21 + entry index; R196; reset not valid. -/
  pts : Tbl Pte := []
  /-- Page ownership table by pool page; R199; reset (before start-up) 0. -/
  owns : Tbl Own := []
  /-- 21 bits; POL_GEN_EXHAUSTED.COUNT (R178); reset 0. -/
  genExhausted : Nat := 0
  /-- Changes of ownership entries in progress, oldest first; R132; reset none. -/
  owning : List OwnChange := []
  /-- Translation caches by checker unit: (glove * 2^21 + entry index, entry); R200; reset empty. -/
  tcaches : Tbl (List (Nat × Pte)) := []
  /-- Table lines that have come back for a miss, until a check uses them; R201; reset none. -/
  tlines : List TableLine := []
  /-- 16 DDR sealing gates; R136; reset empty. -/
  gates : Tbl Gate := []
  /-- DRAM of the channels by channel * 2^38 + channel byte address; R107; an unlisted byte reads 0 (DESIGN CHOICE). -/
  ddr : Memory := []
  /-- DRAM lines that carry an uncorrectable error or a poison codeword, by channel * 2^38 + byte address of the line;
  R158, R664; reset none. -/
  ddrBad : List Nat := []
  /-- HBM copies of counter blocks by pool block number; R115; reset (R552) zero. -/
  counters : Tbl Ctr := []
  /-- HBM copies of tree nodes and table-branch nodes, by node key; R126; an unlisted node holds the value R552 computes. -/
  nodes : Tbl Line := []
  /-- HBM copies of the table lines that differ from the tables in force, by table-space line number: those whose newest content is
  still in its owning gate; R131, R201; reset none. -/
  stale : Tbl Line := []
  /-- 32 HBM sealing gates by 8 * stack + local index; R128, R136; reset empty. -/
  hgates : Tbl HGate := []
  /-- HBM lines that carry an uncorrectable error, by stack * 2^36 + byte address; R158; reset none. -/
  hbmBad : List Nat := []
  /-- Root store slots with their root checks; R129, R130; an unlisted slot holds the value R552 computes. -/
  root : Tbl (Line × BitVec 64) := []
  /-- HBM pseudo-channel schedulers by stack * 32 + pseudo-channel; R153; reset 0. -/
  hbmSched : Tbl HbmSched := []
  /-- Tier lines; R146; reset empty. -/
  tier : List TierLine := []
deriving DecidableEq, Repr

/-- A request of a Finger or a queue manager that waits at its checker since an epoch change closed it (R224, R226). -/
structure HeldAcc where
  unit : Nat
  /-- The Finger (odd) or queue (even) it belongs to. -/
  who : Nat
  fn : FnId
  glove : Nat
  op : POp
  addr : Nat
deriving DecidableEq, Repr

/-- The Weave: packets, outstanding requests, knots and statistics. -/
structure Net where
  /-- Packets in the Weave or at their target's local port, by packet number; R238; reset none. -/
  pkts : Tbl Packet := []
  /-- Fault reports on their way to the fault collector; R241, R516; reset none. -/
  reports : List FaultReport := []
  /-- Violation reports on their way to the Crown; R212; reset none. -/
  violations : List Violation := []
  /-- EVENT packets on their way to the event gatherer and MSG_REQ packets on their way to a Cuff, as (function, vector);
  R241, R495; reset none. -/
  events : List (FnId × Nat) := []
  msgReqs : List (FnId × Nat) := []
  /-- Model: next packet number; reset 0. -/
  nextPkt : Nat := 0
  /-- Model: next tag; R273; reset 0. -/
  nextTag : Nat := 0
  /-- Outstanding requests of all initiators; R272, R223; reset none. -/
  outst : List Req := []
  /-- Requests held at the checkers of Fingers and queue managers, in order of arrival; R226; reset none. -/
  heldAcc : List HeldAcc := []
  /-- Tags ended under R272 and not yet reusable: (unit, tag); R273; reset none. -/
  dead : List (Nat × Nat) := []
  /-- Flit pairs in the local interfaces of units that wait for a credit of their knot's local input port, by knot * 16 + VC; R251;
  reset none. -/
  sendq : Tbl (List FlitPair) := []
  /-- Knot buffers by (knot * 5 + input port) * 16 + VC; R248; reset empty with full credits. -/
  knotIn : Tbl KnotQ := []
  /-- Credits on their way to the upstream sender: the input port and VC, or the unit's interface beyond a local port (from 10,000 on),
  and SHARED; R250, R251; reset none. -/
  credits : List (Nat × Bool) := []
  /-- Model: next arrival number at a knot; R255; reset 0. -/
  nextSeq : Nat := 0
  /-- Knot output ports by knot * 5 + port; R252, R253, R282; reset idle. -/
  knotOut : Tbl KnotOut := []
  /-- Hold stores by knot * 16 + VC; R261; reset empty. -/
  holds : Tbl HoldStore := []
  /-- 4 quadrants; R275, R276; reset 0. -/
  quads : Tbl Quad := []
  /-- 17 bits; WVE_SAMPLE.WINDOW (R276); reset 0x3E8. -/
  window : Nat := 1000
  /-- WVE_USTAT by unit ID; R278; reset 0. -/
  ustat : Tbl Stat := []
  /-- WVE_GSTAT by quadrant * 1024 + glove; R279; reset 0. -/
  gstat : Tbl Stat := []
deriving DecidableEq, Repr

/-- Border links and peers. -/
structure Basket where
  /-- 8 Border links; R438; reset ABSENT. -/
  blinks : Tbl BLink := []
  /-- 4 basket positions; R479; reset absent. -/
  peers : Tbl Peer := []
  /-- GRANT_PAGES for peer pages in progress; R471; reset none. -/
  grants : List PeerGrant := []
  /-- Initiator unit to Border link moved by a reroute, by unit * 4 + peer; R440, R468; reset home link. -/
  moved : Tbl Nat := []
deriving DecidableEq, Repr

/-- The event gatherer. -/
structure Evt where
  /-- Event-gatherer sources 0-79; R481; reset disabled. -/
  sources : Tbl Source := []
  /-- EVT_SRC.IN_SERVICE (R511): source the Crown is servicing; R482; reset none. -/
  inService : Option Nat := none
  /-- Count and OVERFLOW handed over at entry; R485; reset none. -/
  claimed : Option (Nat × Bool) := none
  /-- Vector address presented to the Crown: its vector base + 16 × source; R482; reset none. -/
  vector : Option Nat := none
  /-- 8 EVT_IN pins; R488; reset 0. -/
  evtPins : Tbl EvtPin := []
  /-- 1 bit; R492: the event-input section is in force; reset 0. -/
  evtLive : Bool := false
deriving DecidableEq, Repr

/-- The fault collector. -/
structure Flt where
  /-- 64 detail records; R513, R537; reset clear. -/
  details : Tbl Detail := []
  /-- FLT_UNIT by unit ID; R537; reset 0. -/
  units : Tbl UnitFlt := []
  /-- At most 4,096 records; R535: fault log; reset empty. -/
  fltLog : List FltRec := []
  /-- 32 bits; R535: next fault-log sequence number; reset 0. -/
  fltSeq : Nat := 0
  /-- Wire buckets by (knot * 4 + port) * 8 + group; R520; reset 0. -/
  wires : Tbl Nat := []
  /-- Host-lane buckets by Cuff * 16 + lane; R520; reset 0. -/
  hostLanes : Tbl Nat := []
  /-- 16 bits a Cuff; CUF_LINK_STATUS.RETIRED (R343): retired Cuff lanes; reset 0. -/
  lanesRetired : Tbl (BitVec 16) := []
  /-- HBM pseudo-channel buckets by stack * 32 + pseudo-channel; R520; reset 0. -/
  pseudo : Tbl Nat := []
  /-- HBM pseudo-channels retired or replaced: (stack * 32 + pc, spared); R177; reset none. -/
  pseudoLost : List (Nat × Bool) := []
  /-- 8 bits; FLT_RETIRE.UNRECORDED (R537), saturating; reset 0. -/
  unrecorded : Nat := 0
  /-- Removals whose MRAM record is still to be written: (kind, unit, element, detail); R528; reset none. -/
  mramQ : List (Nat × Nat × Nat × Nat) := []
  /-- Bad copies whose second fetch is under way, as they were found; R518; reset none. -/
  refetch : List FaultReport := []
deriving DecidableEq, Repr

/-- Power domains and pace. -/
structure Pwr where
  /-- 41 power domains; R567, R599; reset on. -/
  doms : Tbl Dom := []
  /-- Sequencer and AVSBus; R599; reset nominal, islands low. -/
  pace : Pace := {}
deriving DecidableEq, Repr

/-- The usage ledger. -/
structure Usg where
  /-- 64 bits each; USG_ANCHOR and USG_ANCHOR_TIME (R624); reset 0. -/
  anchor : BitVec 64 := 0
  anchorTime : Nat := 0
  /-- R602: the anchor has been set since cold reset; reset 0. -/
  anchorSet : Bool := false
  /-- 64 bits; USG_SEQ.S (R624): minute in progress; reset 0. -/
  seq : Nat := 0
  /-- R618: an MRAM write of the next minute number has failed and is repeated; reset 0. -/
  seqFailed : Bool := false
  /-- Usage slices and Crown counts by glove; R610, R611; reset 0. -/
  usage : Tbl Usage := []
  /-- Open, closed and signed batches, oldest first; R613, R619; reset none. -/
  batches : List Batch := []
  /-- 32 bits for each link; USG_LOST.COUNT (R624), wrapping; reset 0. -/
  lost : Tbl Nat := []
  /-- Links whose first batch since cold reset has been signed; R614; reset none. -/
  signedOnce : List Nat := []
deriving DecidableEq, Repr

/-- The whole state, in the groups above. -/
structure State where
  /-- Model: the commands that are waiting, first in first out; reset empty. -/
  pending : List Instr := []
  /-- Model: what the device has driven, oldest first; reset empty. -/
  out : List Out := []
  sys : Sys := {}
  boot : Boot := {}
  trust : Trust := {}
  host : HostSide := {}
  work : Work := {}
  pool : Pool := {}
  net : Net := {}
  basket : Basket := {}
  evt : Evt := {}
  flt : Flt := {}
  pwr : Pwr := {}
  usg : Usg := {}
deriving DecidableEq, Repr

/-- The block has no fault that stops it: every failure the spec describes is a recorded effect (log entry 2). Nothing
raises a value of this type. -/
inductive Fault
deriving DecidableEq, Repr

/-- Reasons to refuse a command. -/
inductive Refusal where
  /-- Raised by an arm of `exec` for a command that has no meaning yet; safe: the model stops. -/
  | notModelled (mnemonic : String)
deriving DecidableEq, Repr

/-- The device right after reset: powered, DEV_RST# asserted, every register at its reset value, nothing in flight. -/
def State.reset : State := {}

end Sys2Proof.Machine
end

