-- ==== Sys2Proof/Machine/Ops.lean ====
section
/-! DEFINITION. The named operations over the state: tables, memories, units and knots, the address map, packets and the
requests behind them, and the records that every family of commands shares. -/

namespace Sys2Proof

/-! ### Bytes and bits -/

/-- Little-endian value of bytes (R5). -/
def leNat : List Byte → Nat
  | [] => 0
  | b :: bs => b.toNat + 256 * leNat bs

/-- The `n` low bytes of a number, little-endian (R5). -/
def leBytes (n v : Nat) : List Byte :=
  match n with
  | 0 => []
  | k + 1 => BitVec.ofNat 8 v :: leBytes k (v / 256)

/-- Bits [hi:lo] of a number. -/
def bits (v hi lo : Nat) : Nat := v / 2 ^ lo % 2 ^ (hi - lo + 1)

/-- Bit `i` of a number. -/
def bitAt (v i : Nat) : Bool := v / 2 ^ i % 2 == 1

/-- A Boolean as a bit. -/
def bit (b : Bool) : Nat := if b then 1 else 0

/-- Byte `i` of a line. -/
def lineByte (l : Line) (i : Nat) : Byte := l.extractLsb' (8 * i) 8

/-- The 64 bytes of a line. -/
def lineBytes (l : Line) : List Byte := (List.range 64).map (lineByte l)

/-- A line of bytes. -/
def lineOf (bs : List Byte) : Line := BitVec.ofNat 512 (leNat bs)

/-- Count up to a saturation value. -/
def satAdd (max v n : Nat) : Nat := min max (v + n)

/-- The ASCII bytes of a label. -/
def ascii (s : String) : List Byte := s.toList.map (fun c => BitVec.ofNat 8 c.toNat)

/-- Number of set bits. -/
def popcount (v n : Nat) : Nat := ((List.range n).filter (bitAt v)).length

/-- The elements of a list without the first that meets `p`. -/
def eraseFirst {α : Type} (p : α → Bool) : List α → List α
  | [] => []
  | x :: xs => if p x then xs else x :: eraseFirst p xs

/-! ### Keys of the tables -/

/-- Table keys. -/
def FnId.key (f : FnId) : Nat := 256 * f.link + f.fn
def QId.key (q : QId) : Nat := (256 * q.link + q.fn) * 128 + q.q
def FgId.key (f : FgId) : Nat := (256 * f.link + f.fn) * 16 + f.f
def QId.fnId (q : QId) : FnId := ⟨q.link, q.fn⟩
def FgId.fnId (f : FgId) : FnId := ⟨f.link, f.fn⟩

/-! ### Packet forms -/

/-- The class of an opcode: 0 P, 1 N, 2 C, 3 Mq, 4 Mr, 5 E, 6 none (R241). -/
def POp.cls : POp → Nat
  | .memWr | .memWrUnlock | .unlock | .regWr => 0
  | .memRd | .memRdLock | .zlRd | .regRd => 1
  | .cplD | .cpl | .ack => 2
  | .mqRd | .mqWr | .mqMac | .tierLookup | .tierFill | .mirrorWr => 3
  | .mrD | .mrAck => 4
  | .event | .msgReq | .mgmt | .fault | .ruleFault => 5
  | .reserved _ => 6

/-- The opcode number (R241). -/
def POp.code : POp → Nat
  | .memRd => 0x01 | .memWr => 0x02 | .memRdLock => 0x03 | .memWrUnlock => 0x04 | .unlock => 0x05 | .zlRd => 0x06
  | .regRd => 0x07 | .regWr => 0x08 | .cplD => 0x10 | .cpl => 0x11 | .ack => 0x12
  | .mqRd => 0x20 | .mqWr => 0x21 | .mqMac => 0x22 | .tierLookup => 0x23 | .tierFill => 0x24 | .mirrorWr => 0x25
  | .mrD => 0x30 | .mrAck => 0x31
  | .event => 0x40 | .msgReq => 0x41 | .mgmt => 0x42 | .fault => 0x43 | .ruleFault => 0x44
  | .reserved c => c

/-- The class of a VC code (R240). -/
def vcCls (v : Nat) : Nat :=
  if v < 2 then 0 else if v < 4 then 1 else if v < 6 then 2 else if v == 6 then 3 else if v == 7 then 4
  else if v == 8 then 5 else 7

/-- The VC of an opcode in a service class (R240). -/
def POp.vc (o : POp) (service : Nat) : Nat :=
  match o.cls with
  | 0 => service
  | 1 => 2 + service
  | 2 => 4 + service
  | 3 => 6
  | 4 => 7
  | _ => 8

/-- Service class of a VC: 1 for P1, N1 and C1. -/
def vcService (v : Nat) : Nat := if v < 6 then v % 2 else 0

/-- Flit pairs of a packet (R238). -/
def Packet.pairs (p : Packet) : Nat := (p.data.length + 2) / 2

/-- A field of the header flit: its value, width and lowest bit. -/
def headerField (v w at' : Nat) : Nat := v % 2 ^ w * 2 ^ at'

/-- A knot as the header names it: x in the low four bits, y above (R239). -/
def knotField (k : Nat) : Nat := k % 12 + k / 12 * 16

/-- The header flit (R239). -/
def Packet.header (p : Packet) : Line :=
  let b (v : Bool) (at' : Nat) : Nat := headerField (bit v) 1 at'
  BitVec.ofNat 512
    (headerField p.metaw.toNat 64 400 + headerField p.ctx 16 384 + headerField p.lastBE.toNat 64 320 + headerField p.firstBE.toNat 64 256 +
     (if p.hostSpace then headerField p.fn 8 196 + headerField p.link 4 192 else 0) +
     headerField p.addr (if p.hostSpace then 64 else 52) 128 + b p.prefetch 112 + headerField p.status 16 96 + b p.hostSpace 95 +
     headerField p.len 13 82 + headerField (knotField p.initKnot) 8 74 + headerField p.initUnit 10 64 + headerField p.tag 16 48 +
     b p.ackReq 47 + b p.ep 46 + b p.epoch 45 + b p.gloveValid 44 + headerField p.home 2 42 + headerField p.glove 10 32 +
     headerField p.world 2 30 + headerField p.op.code 8 22 + headerField p.vc 4 18 + headerField p.dest 10 8 +
     headerField (knotField p.destKnot) 8 0)

/-- The flits of a packet: its header, then its data (R238). -/
def Packet.flits (p : Packet) : List Line := p.header :: p.data

/-- Whether byte `i` of the range [ADDRESS, ADDRESS + LENGTH) is enabled (R242). -/
def Packet.enabled (p : Packet) (i : Nat) : Bool :=
  let a := p.addr + i
  let first := p.addr / 64
  let last := (p.addr + p.len - 1) / 64
  (a / 64 != first || p.firstBE.getLsbD (a % 64)) && (a / 64 != last || p.lastBE.getLsbD (a % 64))

/-- The enabled bytes of a write: address and value (R242). -/
def Packet.writes (p : Packet) : List (Nat × Byte) :=
  ((List.range p.len).filter p.enabled).map
    (fun i => (p.addr + i, lineByte (p.data.getD ((p.addr + i) / 64 - p.addr / 64) 0) ((p.addr + i) % 64)))

/-- Number of enabled bytes within the lines [line, line + n) (R280). -/
def Packet.enabledIn (p : Packet) (line n : Nat) : Nat :=
  ((List.range p.len).filter
    (fun i => p.enabled i && decide (line ≤ (p.addr + i) / 64) && decide ((p.addr + i) / 64 < line + n))).length

/-- Number of enabled bytes of the whole range. -/
def Packet.enabledLen (p : Packet) : Nat := ((List.range p.len).filter p.enabled).length

/-- Lines of the range. -/
def Packet.lines (p : Packet) : List Nat :=
  if p.len == 0 then [] else (List.range ((p.addr + p.len - 1) / 64 - p.addr / 64 + 1)).map (· + p.addr / 64)

/-- Whether a packet's target is the pool, host memory or other (R280): 0, 1, 2. -/
def Packet.targetClass (p : Packet) : Nat :=
  if p.hostSpace then 1
  else if p.op.cls == 3 then 2
  else if p.addr < 0x040000000000 ∨ (0x100000000000 ≤ p.addr ∧ p.addr < 0x200000000000) then 0 else 2

/-- The opcodes whose injection counts written bytes (R280). -/
def POp.isWrite : POp → Bool
  | .memWr | .memWrUnlock | .regWr | .mqWr | .tierFill | .mirrorWr => true
  | _ => false

/-- A response to a request, with the fields R243 copies. -/
def Packet.response (r : Packet) (op : POp) (status addr : Nat) (data : List Line) (ep : Bool) : Packet :=
  { op := op, vc := op.vc (vcService r.vc), dest := r.initUnit, destKnot := r.initKnot, initUnit := r.dest,
    initKnot := r.destKnot, tag := r.tag, ctx := r.ctx, addr := addr, world := r.world, glove := r.glove,
    gloveValid := r.gloveValid, home := r.home, epoch := r.epoch, prefetch := r.prefetch, status := status,
    ep := ep, data := data, len := 64 * data.length }

end Sys2Proof

namespace Sys2Proof.Machine

/-- The outcome of a command that completes: every command does (log entry 2). -/
abbrev Result := Host.Outcome State Fault Refusal

/-! ### Tables -/

/-- The instance with number `k`, its default where none is listed. -/
def Tbl.get {α : Type} (d : α) : Tbl α → Nat → α
  | [], _ => d
  | (a, v) :: r, k => if a = k then v else Tbl.get d r k

/-- Whether an instance is listed. -/
def Tbl.has {α : Type} : Tbl α → Nat → Bool
  | [], _ => false
  | (a, _) :: r, k => a == k || Tbl.has r k

/-- The table with instance `k` holding `v`; the list stays ascending. -/
def Tbl.set {α : Type} : Tbl α → Nat → α → Tbl α
  | [], k, v => [(k, v)]
  | (a, w) :: r, k, v =>
    if k < a then (k, v) :: (a, w) :: r else if a = k then (k, v) :: r else (a, w) :: Tbl.set r k v

/-- The table without instance `k`. -/
def Tbl.del {α : Type} (t : Tbl α) (k : Nat) : Tbl α := t.filter (fun e => e.1 != k)

/-- The table with instance `k` changed by `f`. -/
def Tbl.mod {α : Type} (d : α) (t : Tbl α) (k : Nat) (f : α → α) : Tbl α := t.set k (f (t.get d k))

/-! ### Byte memories in canonical form -/

/-- The byte at an address: `d` where none is listed. -/
def Memory.read (d : Byte) : Memory → Nat → Byte
  | [], _ => d
  | (a, v) :: r, k => if a = k then v else Memory.read d r k

/-- Write a byte; writing `d` removes the entry, so that equal memories are equal lists. -/
def Memory.write (d : Byte) : Memory → Nat → Byte → Memory
  | [], k, v => if v = d then [] else [(k, v)]
  | (a, w) :: r, k, v =>
    if k < a then (if v = d then (a, w) :: r else (k, v) :: (a, w) :: r)
    else if a = k then (if v = d then r else (k, v) :: r)
    else (a, w) :: Memory.write d r k v

/-- The canonical form: no entry holds the byte an unlisted address reads as, and addresses rise strictly. -/
def Memory.wf (d : Byte) : Memory → Bool
  | [] => true
  | [(_, v)] => v != d
  | (a, v) :: (b, w) :: r => v != d && decide (a < b) && Memory.wf d ((b, w) :: r)

/-- Write consecutive bytes from an address on. -/
def Memory.writeAll (d : Byte) (m : Memory) (a : Nat) : List Byte → Memory
  | [] => m
  | b :: bs => Memory.writeAll d (Memory.write d m a b) (a + 1) bs

/-- Read `n` consecutive bytes. -/
def Memory.readAll (d : Byte) (m : Memory) (a : Nat) : Nat → List Byte
  | 0 => []
  | n + 1 => Memory.read d m a :: Memory.readAll d m (a + 1) n

/-! ### Units, knots and domains (R14-R20, R567) -/

/-- Quadrant, kind and local index of a unit ID (R18). -/
def unitQuad (u : Nat) : Nat := u / 256
def unitKind (u : Nat) : Nat := u / 16 % 16
def unitIdx (u : Nat) : Nat := u % 16

/-- The unit ID of quadrant `q`, kind `k`, local index `i` (R18). -/
def unitId (q k i : Nat) : Nat := 256 * q + 16 * k + i

/-- Unit IDs by device-wide number (R19). -/
def cuffUnit (c : Nat) : Nat := unitId (c / 2) 0 (c % 2)
def gateUnit (g : Nat) : Nat := unitId (g / 4) 1 (g % 4)
def stackUnit (q : Nat) : Nat := unitId q 2 8
def hbmGateUnit (q i : Nat) : Nat := unitId q 2 i
def engineUnit (e : Nat) : Nat := unitId (e / 16) 3 (e % 16)
def borderUnit (l : Nat) : Nat := unitId (l / 2) 4 (l % 2)
def queueUnit (q : Nat) : Nat := unitId q 5 0
def gathererUnit : Nat := 0x060
def collectorUnit : Nat := 0x170
def crownUnit : Nat := 0x080
def bandUnit : Nat := 0x090

/-- The 140 unit IDs that units carry (R631). -/
def unitCarried (u : Nat) : Bool :=
  decide (u < 1024) &&
  (match unitKind u with
   | 0 => decide (unitIdx u < 2)
   | 1 => decide (unitIdx u < 4)
   | 2 => decide (unitIdx u < 9)
   | 3 => true
   | 4 => decide (unitIdx u < 2)
   | 5 => unitIdx u == 0
   | _ => u == gathererUnit || u == crownUnit || u == bandUnit || u == collectorUnit)

/-- Knot number 12y + x of local coordinates in a quadrant (R15). -/
def localKnot (q u v : Nat) : Nat :=
  let x := if q % 2 == 0 then u else 11 - u
  let y := if q < 2 then v else 9 - v
  12 * y + x

/-- The knot of a unit (R16, R17); a Cuff answers with its knot a. -/
def unitKnot (u : Nat) : Nat :=
  let q := unitQuad u
  let i := unitIdx u
  match unitKind u with
  | 0 => localKnot q (2 * i + 1) 0
  | 1 => localKnot q 0 i
  | 2 => if i < 4 then localKnot q (i + 1) 3 else if i < 8 then localKnot q (i - 4) 4 else localKnot q 5 3
  | 3 => localKnot q (i / 4 % 2 + 1) (i / 8 + 1)
  | 4 => localKnot q 5 i
  | 5 => localKnot q 3 1
  | 6 => 12 * 4 + 5
  | 7 => 12 * 4 + 6
  | _ => 12 * 4 + 4

/-- The power domain of a unit (R19, R567). -/
def unitDomain (u : Nat) : Nat :=
  let q := unitQuad u
  let i := unitIdx u
  match unitKind u with
  | 0 => 1 + 2 * q + i
  | 1 => 13 + 4 * q + i
  | 2 => 29 + q
  | 3 => 9 + q
  | 4 => 33 + 2 * q + i
  | 5 => 9 + q
  | _ => 0

/-- The quadrant of a knot (R14). -/
def knotQuad (k : Nat) : Nat := (if k % 12 < 6 then 0 else 1) + (if k / 12 < 5 then 0 else 2)

/-- The neighbour of a knot through a port 0 N, 1 E, 2 S, 3 W (R232); none where the mesh ends. -/
def knotNext (k port : Nat) : Option Nat :=
  let x := k % 12
  let y := k / 12
  match port with
  | 0 => if y < 9 then some (k + 12) else none
  | 1 => if x < 11 then some (k + 1) else none
  | 2 => if 0 < y then some (k - 12) else none
  | 3 => if 0 < x then some (k - 1) else none
  | _ => none

/-- The output port at a knot for a destination knot (R246). -/
def routePort (k dest : Nat) : Nat :=
  let x := k % 12
  let y := k / 12
  let dx := dest % 12
  let dy := dest / 12
  if x < dx then 1 else if dx < x then 3 else if y < dy then 0 else if dy < y then 2 else 4

/-! ### Parts of the state -/

/-- Instances by number. -/
def State.fn (s : State) (f : FnId) : Fn := s.host.fns.get {} (FnId.key f)
def State.link (s : State) (l : Nat) : Link := s.host.links.get {} l
def State.cuff (s : State) (c : Nat) : Cuff := s.host.cuffs.get {} c
def State.glove (s : State) (g : Nat) : Glove := s.trust.gloves.get {} g
def State.slot (s : State) (b : Nat) : BandSlot := s.trust.band.get {} b
def State.queue (s : State) (q : QId) : Queue := s.work.queues.get {} (QId.key q)
def State.finger (s : State) (f : FgId) : Finger := s.work.fingers.get {} (FgId.key f)
def State.gate (s : State) (g : Nat) : Gate := s.pool.gates.get {} g
def State.quad (s : State) (q : Nat) : Quad := s.net.quads.get {} q
def State.blink (s : State) (l : Nat) : BLink := s.basket.blinks.get {} l
def State.peer (s : State) (n : Nat) : Peer := s.basket.peers.get {} n
def State.source (s : State) (i : Nat) : Source := s.evt.sources.get {} i
def State.dom (s : State) (d : Nat) : Dom := s.pwr.doms.get {} d
def State.usage (s : State) (g : Nat) : Usage := s.usg.usage.get {} g
def State.unitFlt (s : State) (u : Nat) : UnitFlt := s.flt.units.get {} u

/-- Changes of one instance. -/
def State.modFn (s : State) (f : FnId) (m : Fn → Fn) : State :=
  { s with host.fns := s.host.fns.mod {} (FnId.key f) m }
def State.modLink (s : State) (l : Nat) (m : Link → Link) : State := { s with host.links := s.host.links.mod {} l m }
def State.modCuff (s : State) (c : Nat) (m : Cuff → Cuff) : State := { s with host.cuffs := s.host.cuffs.mod {} c m }
def State.modGlove (s : State) (g : Nat) (m : Glove → Glove) : State :=
  { s with trust.gloves := s.trust.gloves.mod {} g m }
def State.modSlot (s : State) (b : Nat) (m : BandSlot → BandSlot) : State :=
  { s with trust.band := s.trust.band.mod {} b m }
def State.modQueue (s : State) (q : QId) (m : Queue → Queue) : State :=
  { s with work.queues := s.work.queues.mod {} (QId.key q) m }
def State.modFinger (s : State) (f : FgId) (m : Finger → Finger) : State :=
  { s with work.fingers := s.work.fingers.mod {} (FgId.key f) m }
def State.modGate (s : State) (g : Nat) (m : Gate → Gate) : State := { s with pool.gates := s.pool.gates.mod {} g m }
def State.modQuad (s : State) (q : Nat) (m : Quad → Quad) : State := { s with net.quads := s.net.quads.mod {} q m }
def State.modBlink (s : State) (l : Nat) (m : BLink → BLink) : State :=
  { s with basket.blinks := s.basket.blinks.mod {} l m }
def State.modPeer (s : State) (n : Nat) (m : Peer → Peer) : State :=
  { s with basket.peers := s.basket.peers.mod {} n m }
def State.modSource (s : State) (i : Nat) (m : Source → Source) : State :=
  { s with evt.sources := s.evt.sources.mod {} i m }
def State.modDom (s : State) (d : Nat) (m : Dom → Dom) : State := { s with pwr.doms := s.pwr.doms.mod {} d m }
def State.modPace (s : State) (m : Pace → Pace) : State := { s with pwr.pace := m s.pwr.pace }
def State.modUsage (s : State) (g : Nat) (m : Usage → Usage) : State := { s with usg.usage := s.usg.usage.mod {} g m }
def State.modUnit (s : State) (u : Nat) (m : UnitFlt → UnitFlt) : State := { s with flt.units := s.flt.units.mod {} u m }

/-- Something the device drives. -/
def State.emit (s : State) (o : Out) : State := { s with out := s.out ++ [o] }

/-- Send an MGMT message to a peer, under its session's key once there is one (R469). -/
def State.sendMgmt (s : State) (n : Nat) (m : MgmtMsg) : State := s.emit (.mgmt n m (s.peer n).session)

/-- Powered and out of DEV_RST#. -/
def State.awake (s : State) : Bool := s.sys.aon && !s.sys.devRst

/-- Host traffic and commands are served: Service, Degraded or Drain (R2). -/
def State.serves (s : State) : Bool :=
  s.awake && (s.sys.mode == .service || s.sys.mode == .degraded || s.sys.mode == .drain)

/-- One housekeeping cycle of 25 MHz (R21) passes: 40 ns of device time (R277), and one sample of every filtered event input
(R489); the count stops short of N, where FILTER_COUNT_EXPIRY follows. -/
def State.tick (s : State) : State :=
  if s.awake then
    { s with
      sys.now := s.sys.now + 40
      evt.evtPins := s.evt.evtPins.map (fun (i, p) =>
        (i, { p with count := if p.pin == p.filtered then 0
                              else min (((s.boot.cfg.evtIn.getD i {}).cycles) - 1) (p.count + 1) })) }
  else s

/-! ### Links, gloves and their numbering (R284, R285, R45, R46) -/

/-- A link exists in the Pattern's layout (R284, R285). -/
def State.linkExists (s : State) (l : Nat) : Bool :=
  let m := s.boot.cfg.cuffModes.getD (l / 2) 0
  decide (l < 16) && ((m == 1 && l % 2 == 0) || m == 2)

/-- The Cuff runs as two x8 links (R285). -/
def State.twoX8 (s : State) (c : Nat) : Bool := s.boot.cfg.cuffModes.getD c 0 == 2

/-- The knot a Cuff link uses toward a unit (R28). -/
def State.cuffKnot (s : State) (l dest : Nat) : Nat :=
  let a := unitKnot (cuffUnit (l / 2))
  let b := localKnot (unitQuad (cuffUnit (l / 2))) (2 * unitIdx (cuffUnit (l / 2)) + 2) 0
  if s.twoX8 (l / 2) then (if l % 2 == 0 then a else b) else (if dest % 2 == 0 then a else b)

/-- Glove base and count of a link (R45). -/
def State.range (s : State) (l : Nat) : Nat × Nat := s.boot.cfg.ranges.getD l (0, 0)

/-- The link's range holds the glove (R45, R47). -/
def State.linkHas (s : State) (l g : Nat) : Bool :=
  s.linkExists l && decide ((s.range l).1 ≤ g) && decide (g < (s.range l).1 + (s.range l).2)

/-- The glove of a VF (R46). -/
def State.gloveOf (s : State) (f : FnId) : Nat := (s.range f.link).1 + f.fn - 1

/-- The function is PF0, or one of the link's VFs. -/
def State.fnExists (s : State) (f : FnId) : Bool :=
  s.linkExists f.link && (f.fn == 0 || decide (f.fn ≤ (s.range f.link).2))

/-- The VF appears: VF Enable is set and NumVFs covers it (R57, R299). -/
def State.fnEnabled (s : State) (f : FnId) : Bool :=
  s.fnExists f && (f.fn == 0 || ((s.link f.link).vfEnable && decide (f.fn ≤ (s.link f.link).numVfs)))

/-- The functions of a link answer configuration requests with RRS: the link has not been ready since it came up (R289), or the
device is in Loading (R554). -/
def State.cfgRetry (s : State) (l : Nat) : Bool := !s.awake || s.sys.mode == .loading || !(s.link l).ready

/-- A configuration request to a function completes, in Blank and Quarantine too (R2, R554); a function in FLR answers with RRS
(R332), one that does not appear with UR. -/
def State.cfgOpen (s : State) (f : FnId) : Bool := !s.cfgRetry f.link && s.fnEnabled f && !(s.fn f).flr

/-- A function takes register accesses: it appears, in a mode that serves it (R2, R561). -/
def State.fnServed (s : State) (f : FnId) : Bool :=
  s.fnEnabled f && !(s.fn f).flr && (s.serves || (s.awake && s.sys.mode == .blank && f.fn == 0))

/-- The function takes memory requests (R304). -/
def State.memOn (s : State) (f : FnId) : Bool :=
  s.fnServed f && !(s.fn f).d3 && (if f.fn == 0 then (s.fn f).mse else (s.link f.link).vfMse)

/-- The link that carries a glove, if any (R45). -/
def State.linkOf (s : State) (g : Nat) : Option Nat := (List.range 16).find? (fun l => s.linkHas l g)

/-- The VF of a glove, if a link carries it (R46). -/
def State.vfOf (s : State) (g : Nat) : Option FnId :=
  (s.linkOf g).map (fun l => ⟨l, g - (s.range l).1 + 1⟩)

/-- Size of VF BAR2 in force and so the span of the link's gloves (R188, R190). -/
def State.span (s : State) (l : Nat) : Nat := 2 ^ (s.link l).vfSize

/-- The unit that holds a function's queues: the queue manager of its link's quadrant (R346). -/
def linkQuad (l : Nat) : Nat := l / 4

/-! ### The address map (R33, R109-R112) -/

/-- Effective channels and their logarithm (The interleave hash). -/
def State.channels (s : State) : Nat :=
  if s.boot.cfg.mirror then 8 else popcount s.boot.cfg.channels.toNat 16
def State.chanLog (s : State) : Nat := if s.channels == 16 then 4 else if s.channels == 8 then 3 else 2

/-- Stripes of a DIMM (R108). -/
def stripes (size : Nat) : Nat := if size == 0 then 3640 else if size == 1 then 7281 else 14563

/-- Usable pool pages (R113): 8 pages a stripe and effective channel. -/
def State.pages (s : State) : Nat :=
  if s.boot.cfg.channels == 0 then 0 else 8 * stripes s.boot.cfg.dimmSize * s.channels

/-- Exclusive-OR of the successive c-bit fields of x, over at most `n` fields (R109). -/
def fold (c : Nat) : Nat → Nat → Nat
  | 0, _ => 0
  | n + 1, x => (x % 2 ^ c) ^^^ fold c n (x / 2 ^ c)

/-- Where a block of 4 KiB lies (R109): effective channel and slot. `blk` is the pool address >> 12. -/
structure Place where
  k : Nat
  u : Nat
  slot : Nat
deriving DecidableEq, Repr

def State.place (s : State) (blk : Nat) : Place :=
  let c := s.chanLog
  let p := blk / 512
  let b := blk % 512
  let u := b / 2 ^ c
  let h := fold c 11 p ^^^ fold c 5 u
  ⟨(b % 2 ^ c) ^^^ (h % 2 ^ c), u, p * (512 / 2 ^ c) + u⟩

/-- The owning DDR gate of a block (R24, R110, R169). -/
def State.owner (s : State) (blk : Nat) : Nat :=
  let pl := s.place blk
  if s.boot.cfg.mirror then 2 * pl.k + (blk / 512 ^^^ pl.u) % 2
  else 16 / 2 ^ s.chanLog * pl.k

/-- Channel byte address of a line (R111): `line` is the pool address >> 6. -/
def State.lineAddr (s : State) (line : Nat) : Nat :=
  let sl := (s.place (line / 64)).slot
  sl / 4096 * 0x1200000 + sl % 4096 * 0x1000 + line % 64 * 64

/-- Channel byte address of the MAC line and the byte of the MAC in it (R112). -/
def State.macAddr (s : State) (line : Nat) : Nat × Nat :=
  let sl := (s.place (line / 64)).slot
  (sl / 4096 * 0x1200000 + 0x1000000 + sl % 4096 * 0x200 + line % 64 / 8 * 64, 8 * (line % 8))

/-- What a device physical address names (R33). -/
inductive Target where
  | pool (addr : Nat)
  | peer (n addr : Nat)
  | unit (u off : Nat)
  | crown
  | miss
  | lost
deriving DecidableEq, Repr

/-- Another basket position is in the topology (R438). -/
def State.peerKnown (s : State) (n : Nat) : Bool := s.boot.cfg.peers.any (fun p => p.map Prod.fst == some n)

/-- Decode of a device physical address (R33, R35). -/
def State.decode (s : State) (a : Nat) : Target :=
  let local_ (x : Nat) : Target := if x / 0x200000 < s.pages then .pool x else .miss
  if a < 0x040000000000 then local_ a
  else if a < 0x100000000000 then .miss
  else if a < 0x200000000000 then
    let n := (a - 0x100000000000) / 0x040000000000
    let x := (a - 0x100000000000) % 0x040000000000
    if n == s.boot.cfg.pos then local_ x
    else if !s.peerKnown n then .miss
    else if (s.peer n).state == .fenced then .lost
    else .peer n x
  else if 0x300000000000 ≤ a ∧ a < 0x300040000000 then
    .unit ((a - 0x300000000000) / 0x100000) ((a - 0x300000000000) % 0x100000)
  else if 0x310000000000 ≤ a ∧ a < 0x310010000000 then .crown
  else .miss

/-- Where table space stands in the addresses of checkers' table reads (DESIGN CHOICE, log entry 117). -/
def tableBase : Nat := 0x200000000000

/-- The TDI of a VF is in ERROR (R97). -/
def State.tdiShut (s : State) (f : FnId) : Bool := f.fn != 0 && (s.glove (s.gloveOf f)).tdi == .error

/-- A function's BAR0 registers take writes: it takes memory requests in a mode that serves it (R2, R304), and its TDI does not hide them
(R97). -/
def State.bar0On (s : State) (f : FnId) : Bool := s.serves && s.memOn f && !s.tdiShut f

/-- The links toward a peer, ascending (R440). -/
def State.peerLinks (s : State) (n : Nat) : List Nat :=
  (List.range 8).filter (fun l => (s.boot.cfg.peers.getD l none).map Prod.fst == some n)

/-- The Border link an initiator unit uses toward a peer: its home link unless a reroute moved it (R440, R468). -/
def State.borderLink (s : State) (unit n : Nat) : Nat :=
  let ls := s.peerLinks n
  let home := ls.getD (unit % max 1 ls.length) 0
  s.basket.moved.get home (unit * 4 + n)

/-! ### Packets -/

/-- The flit pairs of a packet with its number: the header in lane 0 of the first, data flit k in lane (k + 1) mod 2 of pair
⌊(k + 1) ÷ 2⌋, an unused lane not valid (R238); NEXT for the initiator's knot (R247). -/
def flitPairs (n knot : Nat) (p : Packet) : List FlitPair :=
  (List.range p.pairs).map (fun i =>
    { pkt := n, head := i == 0, tail := i + 1 == p.pairs, lv := if 2 * i + 1 < p.flits.length then 3 else 1,
      lane0 := p.flits.getD (2 * i) 0, lane1 := p.flits.getD (2 * i + 1) 0, next := routePort knot p.destKnot,
      dest := p.destKnot, unit := p.dest, seq := n })

/-- The input buffer of a knot, port and VC. -/
def inKey (knot port vc : Nat) : Nat := (knot * 5 + port) * 16 + vc

def State.knotQ (s : State) (knot port vc : Nat) : KnotQ := s.net.knotIn.get {} (inKey knot port vc)

/-- The sender of an input port holds a credit for a VC: a reserved one, or a shared one under R249. -/
def State.inCredit (s : State) (knot port vc : Nat) : Bool :=
  let x := s.knotQ knot port vc
  decide (0 < x.reserved) ||
    (vc != 8 && decide (x.sharedHeld < 8) && decide (((List.range 9).map (fun v => (s.knotQ knot port v).sharedHeld)).sum < 16))

/-- A pair enters an input buffer and uses a credit (R249). -/
def KnotQ.accept (q : KnotQ) (f : FlitPair) : KnotQ :=
  { q with pairs := q.pairs ++ [f], reserved := q.reserved - 1,
           sharedHeld := if q.reserved == 0 then q.sharedHeld + 1 else q.sharedHeld }

/-- At injection, an earlier P pair of the same service class for the same output still waits in the local interface (R255). -/
def State.injectBehind (s : State) (knot vc : Nat) (f : FlitPair) : Bool :=
  decide (2 ≤ vc) && decide (vc < 6) &&
    (s.net.sendq.get [] (knot * 16 + vc % 2)).any (fun g => decide (g.seq < f.seq) && g.next == f.next)

/-- The pairs of a VC that wait in the local interface enter the knot's local input port while there are credits (R248, R251). -/
def State.pumpLocal (s : State) (knot vc : Nat) : State :=
  (List.range (s.net.sendq.get [] (knot * 16 + vc)).length).foldl (fun s _ =>
    match s.net.sendq.get [] (knot * 16 + vc) with
    | [] => s
    | f :: rest =>
      if s.inCredit knot 4 vc && !s.injectBehind knot vc f then
        { s with net.sendq := s.net.sendq.set (knot * 16 + vc) rest
                 net.knotIn := s.net.knotIn.mod {} (inKey knot 4 vc) (fun q => q.accept f) }
      else s) s

/-- The flit pairs of a packet enter the local interface of its initiator, and its knot as far as credits allow. -/
def State.pushFlits (s : State) (n knot : Nat) (p : Packet) : State :=
  ({ s with net.sendq := s.net.sendq.mod [] (knot * 16 + p.vc) (fun q => q ++ flitPairs n knot p) }).pumpLocal knot p.vc

def Stat.addRd (cls n : Nat) (x : Stat) : Stat :=
  match cls with
  | 0 => { x with rdPool := (x.rdPool + n) % 2 ^ 64 }
  | 1 => { x with rdHost := (x.rdHost + n) % 2 ^ 64 }
  | _ => { x with rdOther := (x.rdOther + n) % 2 ^ 64 }

def Stat.addWr (cls n : Nat) (x : Stat) : Stat :=
  match cls with
  | 0 => { x with wrPool := (x.wrPool + n) % 2 ^ 64 }
  | 1 => { x with wrHost := (x.wrHost + n) % 2 ^ 64 }
  | _ => { x with wrOther := (x.wrOther + n) % 2 ^ 64 }

def Stat.addReq (x : Stat) : Stat := { x with requests := (x.requests + 1) % 2 ^ 64 }
def Stat.addErr (x : Stat) : Stat := { x with errors := (x.errors + 1) % 2 ^ 64 }

/-- The histogram bucket of a latency (R281). -/
def latBucket (t : Nat) : Nat := if t < 32 then 0 else min 15 (Nat.log2 t - 4)

def Stat.addLat (t : Nat) (x : Stat) : Stat :=
  { x with hist := x.hist.mod 0 (latBucket t) (fun v => (v + 1) % 2 ^ 64), latSum := (x.latSum + t) % 2 ^ 64 }

/-- Count in the unit's record and, for a Cuff, Finger engine or queue manager acting for a glove of this device, in the
glove's record of its quadrant (R278, R279). -/
def State.countStat (s : State) (p : Packet) (m : Stat → Stat) : State :=
  let s := { s with net.ustat := s.net.ustat.mod {} p.initUnit m }
  let k := unitKind p.initUnit
  if p.gloveValid && p.home == s.boot.cfg.pos && (k == 0 || k == 3 || k == 5) then
    { s with net.gstat := s.net.gstat.mod {} (unitQuad p.initUnit * 1024 + p.glove) m }
  else s

/-- Inject a packet at its initiator's local port (R245, R278, R280). -/
def State.inject (s : State) (p : Packet) : State :=
  let n := s.net.nextPkt
  let s := { s with net.pkts := s.net.pkts.set n p, net.nextPkt := n + 1 }
  let s := s.pushFlits n p.initKnot p
  let c := p.op.cls
  let s := if p.op.isWrite then s.countStat p (Stat.addWr p.targetClass p.enabledLen) else s
  if c == 0 || c == 1 || c == 3 then s.countStat p Stat.addReq else s

/-- Answer a request (R243). -/
def State.respond (s : State) (r : Packet) (op : POp) (status addr : Nat) (data : List Line) (ep : Bool) : State :=
  s.inject (r.response op status addr data ep)

/-- Answer a request without data: an ACK for a posted write that asks for one, a CPL or MR_ACK otherwise. -/
def State.answer (s : State) (r : Packet) (status : Nat) : State :=
  match r.op.cls with
  | 0 => if r.ackReq then s.respond r .ack status 0 [] false else s
  | 3 => s.respond r .mrAck status 0 [] false
  | _ => s.respond r .cpl status 0 [] false

/-- Pieces of at most `n` elements. -/
def chunks {α : Type} (n : Nat) (l : List α) : List (List α) :=
  (List.range ((l.length + n - 1) / n)).map (fun i => (l.drop (i * n)).take n)

/-- One packet of the answer to a read: it has EP set and carries the code of its first failed line (R159). -/
def State.answerPart (s : State) (r : Packet) (line : Nat) (c : List (Line × Nat)) : State :=
  if c.isEmpty then s
  else
    let code := ((c.map Prod.snd).find? (· != 0)).getD 0
    s.respond r .cplD code (64 * line) (c.map Prod.fst) (code != 0)

/-- Answer a read with its lines in packets of up to eight (R241, R242). Each line comes with its failure code, 0 for none; the first
failed line of eight starts a packet, so that the initiator can name it (R666; log entry 33). -/
def State.answerData (s : State) (r : Packet) (line : Nat) (ls : List (Line × Nat)) : State :=
  ((chunks 8 ls).zipIdx).foldl
    (fun s (c, i) =>
      let good := c.takeWhile (fun x => x.2 == 0)
      (s.answerPart r (line + 8 * i) good).answerPart r (line + 8 * i + good.length) (c.drop good.length)) s

/-- A tag that the unit neither uses nor holds back (R273): the first free one from `nextTag` on. -/
def freeTag (used : List Nat) : Nat → Nat → Nat
  | 0, t => t % 65536
  | n + 1, t => if used.contains (t % 65536) then freeTag used n (t + 1) else t % 65536

def State.newTag (s : State) (unit : Nat) : Nat :=
  let used := (s.net.outst.filter (fun r => r.unit == unit)).map Req.tag ++
    (s.net.dead.filter (fun d => d.1 == unit)).map Prod.snd
  freeTag used used.length s.net.nextTag

/-- Issue a request: record it with its context and inject it (R272, R273, R278). `left` is what remains to arrive: the
lines of a read, else 0. -/
def State.request (s : State) (ctx : ReqCtx) (p : Packet) (counts : Option Nat) (window : Option Nat := none) : State :=
  let tag := s.newTag p.initUnit
  let p := { p with tag := tag }
  let left := match p.op with
    | .memRd | .memRdLock | .mqRd => p.lines.length
    | .regRd => 1
    | _ => 0
  let s := { s with
    net.nextTag := (tag + 1) % 65536
    net.outst := s.net.outst ++
      ([{ unit := p.initUnit, tag := tag, ctx := ctx, pkt := p, left := left, counts := counts, window := window,
          time := s.sys.now }] : List Req) }
  s.inject p

/-- The initiator's own answer to a request that never enters the Weave (R34, R35, R245): a response that its initiator
takes up as any other. -/
def State.selfAnswer (s : State) (ctx : ReqCtx) (p : Packet) (counts : Option Nat) (status : Nat) : State :=
  let tag := s.newTag p.initUnit
  let p := { p with tag := tag, dest := p.initUnit, destKnot := p.initKnot }
  let s := { s with
    net.nextTag := (tag + 1) % 65536
    net.outst := s.net.outst ++
      ([{ unit := p.initUnit, tag := tag, ctx := ctx, pkt := p, left := 0, counts := counts,
          time := s.sys.now }] : List Req) }
  let op : POp := if p.op.cls == 0 then .ack else .cpl
  let n := s.net.nextPkt
  { s with net.pkts := s.net.pkts.set n (p.response op status 0 [] false), net.nextPkt := n + 1 }

/-- Take a packet off the Weave if it is there. -/
def State.take (s : State) (p : Packet) : State :=
  { s with net.pkts := eraseFirst (fun e => e.2 == p) s.net.pkts }

/-- The request that a response answers. -/
def State.reqOf (s : State) (unit tag : Nat) : Option Req :=
  s.net.outst.find? (fun r => r.unit == unit && r.tag == tag)

/-- End a request: it leaves the table and its tag becomes free. -/
def State.endReq (s : State) (unit tag : Nat) : State :=
  { s with net.outst := s.net.outst.filter (fun r => !(r.unit == unit && r.tag == tag)) }

/-- Requests of a glove still in flight behind its checkers (R223). -/
def State.inFlight (s : State) (g : Nat) : Nat :=
  (s.net.outst.filter (fun r => r.counts == some g)).length

/-! ### Reports on the E class -/

/-- The header of a packet of the E class; where it carries its content the spec does not say (log entry 118). -/
def ePacket (op : POp) (unit dest : Nat) : Packet :=
  { op := op, vc := 8, dest := dest, destKnot := unitKnot dest, initUnit := unit, initKnot := unitKnot unit }

/-- A report's packet also takes one flit pair on the E class of its unit's knot. -/
def State.pushE (s : State) (op : POp) (unit dest : Nat) : State :=
  let s := s.pushFlits s.net.nextPkt (unitKnot unit) (ePacket op unit dest)
  { s with net.nextPkt := s.net.nextPkt + 1 }

/-- Send a fault report to the fault collector (R513, R517). -/
def State.report (s : State) (r : FaultReport) : State :=
  { (s.pushE .fault r.unit collectorUnit) with
    net.reports := s.net.reports ++ [r] }

/-- A report of a class, error and code by a unit; its quadrant is the unit's (R513). -/
def mkFault (cls : Nat) (e : FaultError) (code unit element : Nat) (glove : Option Nat) : FaultReport :=
  { cls := cls, error := e, code := code, unit := unit, quad := unitQuad unit, element := element, glove := glove }

/-- Report a contained fault. -/
def State.contained (s : State) (cls code unit element : Nat) (glove : Option Nat) : State :=
  s.report (mkFault cls .contained code unit element glove)

/-- Report a corrected fault. -/
def State.corrected (s : State) (cls code unit element : Nat) : State :=
  s.report (mkFault cls .correctedMemory code unit element none)

/-- The second fetch of a bad copy ends with a code, 0 for a success: the fault is reported as corrected with its original code, or as
contained with the code of the second fetch (R518). -/
def State.retried (s : State) (r : FaultReport) (code : Nat) : State :=
  s.report (if code == 0 then { r with error := .copyRetried } else { r with error := .contained, code := code })

/-- The second fetch of the copies that `hit` picks ends. -/
def State.refetched (s : State) (hit : CopyOf → Bool) (code : Nat) : State :=
  let of (r : FaultReport) : Bool := match r.error with
    | .badCopy c => hit c
    | _ => false
  (s.flt.refetch.filter of).foldl (fun s r => s.retried r code) { s with flt.refetch := s.flt.refetch.filter (fun r => !of r) }

/-- Send a violation report to the Crown (R212). -/
def State.violate (s : State) (v : Violation) : State :=
  { (s.pushE .ruleFault v.unit crownUnit) with net.violations := s.net.violations ++ [v] }

/-- Ask the event gatherer for a host message (Host messages). -/
def State.requestVector (s : State) (unit : Nat) (f : FnId) (vec : Nat) : State :=
  { (s.pushE .event unit gathererUnit) with net.events := s.net.events ++ [(f, vec)] }

/-- EVT_CAUSE bits (R511). -/
def causeRule : Nat := 0
def causeErr : Nat := 1
def causeQueue : Nat := 2
def causeFinger : Nat := 3
def causeTdi : Nat := 4
def causeFault : Nat := 5
def causeMode : Nat := 6

/-- Set an EVT_CAUSE bit and request vector 0 (R503); a VF that is not enabled gets neither (R504). -/
def State.raiseCause (s : State) (f : FnId) (b : Nat) : State :=
  if s.fnEnabled f then
    (s.modFn f (fun x => { x with cause := x.cause ||| BitVec.ofNat 7 (2 ^ b) })).requestVector gathererUnit f 0
  else s

/-- The same for PF0 of every link. -/
def State.raiseAllPf (s : State) (b : Nat) : State :=
  ((List.range 16).filter s.linkExists).foldl (fun s l => s.raiseCause ⟨l, 0⟩ b) s

/-- An edge of an event-gatherer source (R484, R487). -/
def State.edge (s : State) (i : Nat) : State :=
  if (s.source i).enabled then
    s.modSource i (fun x => if x.count ≥ 255 then { x with overflow := true } else { x with count := x.count + 1 })
  else s

/-- The line of a level source (R486). -/
def State.setLevel (s : State) (i : Nat) (v : Bool) : State := s.modSource i (fun x => { x with level := v })

/-- Record a rejection under R12 in FN_REJECT: space 1 BAR0, 2 configuration, 3 command (R339). -/
def State.reject (s : State) (f : FnId) (code space off : Nat) : State :=
  s.modFn f (fun x => { x with rejCode := code, rejSpace := space, rejOff := off % 2 ^ 32 })

/-- A list with an element that it may already hold. -/
def withElem {α : Type} [BEq α] (x : α) (xs : List α) : List α := if xs.contains x then xs else xs ++ [x]

/-- Log an AER error (R342). An unmasked one with a TLP writes the header log; while the log holds an earlier header it overflows. -/
def Fn.logAer (x : Fn) (e : Aer) (head : Option TlpHead) : Fn :=
  let x := { x with aer := withElem e x.aer }
  match head with
  | none => x
  | some t =>
    if x.aerMask.contains e then x
    else if x.aerHead.isNone then { x with aerHead := some (e, t) }
    else { x with aer := withElem .headerLogOverflow x.aer }

/-- Add an AER error without a TLP to a function (R342). -/
def State.aer (s : State) (f : FnId) (e : Aer) : State := s.modFn f (fun x => x.logAer e none)

/-- Add an AER error of a received TLP to a function, with its header (R294, R342). -/
def State.aerTlp (s : State) (f : FnId) (e : Aer) (t : TlpHead) : State :=
  s.modFn f (fun x => x.logAer e (some { t with flit := (s.link f.link).flit }))

/-- The headers of received TLPs. -/
def readHead (r : HostRead) : TlpHead := { kind := .read, tag := r.tag, addr := some r.addr, len := r.len }
def writeHead (w : HostWrite) : TlpHead := { kind := .write, addr := some w.addr, len := w.data.length }
def atomicHead (a : HostAtomic) : TlpHead := { kind := .atomic, tag := a.tag, addr := some a.addr, len := a.size }
def cplHead (c : HostCpl) : TlpHead := { kind := .completion, tag := c.tag, len := c.data.length }

/-- Record an event in a function error log: the first in full, later ones as a count; VALID rising raises the error vector
(R337, R339, R160, R54). -/
def State.errLog (s : State) (f : FnId) (kind code space addr tfn tlink glove : Nat) : State :=
  let x := s.fn f
  if x.errValid then s.modFn f (fun x => { x with errCount := satAdd 65535 x.errCount 1 })
  else
    (s.modFn f (fun x => { x with errValid := true, errCode := code, errCount := 0, errKind := kind, errSpace := space,
                                  errFn := tfn, errLink := tlink, errGlove := glove, errAddr := addr })).raiseCause f causeErr

/-- A far-side posted-write failure of a function (R337): the error log, and the Cuff class of the fault collector. -/
def State.farSide (s : State) (f : FnId) (code space addr tfn tlink glove unit : Nat) : State :=
  (s.errLog f 1 code space addr tfn tlink glove).contained 0 code unit 0 (some glove)

/-- The default target discards a posted write and counts it (R34), or answers a non-posted request with DECODE_MISS. -/
def State.missPosted (s : State) (unit : Nat) : State := s.contained 1 0x0004 unit 0 none

/-! ### Random draws -/

/-- One draw from the DRBG: a free value (R65, R66). -/
def State.draw (s : State) : BitVec 768 × State :=
  (Config.draw s.trust.fresh,
   { s with trust.fresh := s.trust.fresh + 1, trust.drbgCount := s.trust.drbgCount + 1 })

/-! ### Waking a domain (R577, R579, R580) -/

/-- A unit is fenced or retired: its knot answers for it. -/
def State.fenced (s : State) (u : Nat) : Bool := (s.unitFlt u).state != 0

/-- The units of a power domain (R19, R567). -/
def domUnits (d : Nat) : List Nat :=
  if d == 0 then []
  else if d ≤ 8 then [cuffUnit (d - 1)]
  else if d ≤ 12 then queueUnit (d - 9) :: (List.range 16).map (unitId (d - 9) 3)
  else if d ≤ 28 then [gateUnit (d - 13)]
  else if d ≤ 32 then stackUnit (d - 29) :: (List.range 8).map (hbmGateUnit (d - 29))
  else [borderUnit (d - 33)]

/-- The domain is absent from the configuration: the CUF domain of a disabled Cuff, the QE domain of a quadrant with no link, the DDR
domain of an unpopulated channel, the BRD domain of a Border link that the topology does not use (R375). -/
def State.domAbsent (s : State) (d : Nat) : Bool :=
  if d == 0 then false
  else if d ≤ 8 then s.boot.cfg.cuffModes.getD (d - 1) 0 == 0
  else if d ≤ 12 then !(List.range 4).any (fun i => s.linkExists (4 * (d - 9) + i))
  else if d ≤ 28 then !s.boot.cfg.channels.getLsbD (d - 13)
  else if d ≤ 32 then false
  else (s.boot.cfg.peers.getD (d - 33) none).isNone

/-- The domain stays off from step 7 on (R104, R285, R438, R568). -/
def State.staysOff (s : State) (d : Nat) : Bool := s.domAbsent d && (decide (d ≤ 8) || decide (12 < d))

/-- A packet or a vote wants a domain; `wanter` is the code of R578 of who wants it. A domain before its commit point aborts the entry and
returns to on (R577); a domain in retention or off starts its wake sequence (R580); one past its commit point is woken after the
entry completes (R577). A domain whose units are all fenced or retired is not woken (R579). Phases are those of
PWR_DOMAIN_STATUS.PHASE. -/
def State.wake (s : State) (d wanter : Nat) : State :=
  let x := s.dom d
  if d == 0 || (decide (7 ≤ s.boot.step) && s.staysOff d) then s
  else if x.phase == 2 then
    (s.modDom d (fun x =>
      { x with phase := 0, target := 0, aborted := satAdd 65535 x.aborted 1, aborter := wanter })).edge 16
  else if x.phase == 3 then s.modDom d (fun x => { x with wakeAfter := true })
  else if x.state != 0 && x.phase == 0 then
    if (domUnits d).all s.fenced then s.modDom d (fun x => { x with noWake := true })
    else s.modDom d (fun x => { x with phase := 4, noWake := false })
  else s

/-- A unit's domain is on and takes packets (R261, R266). -/
def State.unitOn (s : State) (u : Nat) : Bool :=
  let x := s.dom (unitDomain u)
  x.state == 0 && x.phase == 0

/-- The code of R578 for the packet of a unit, and for a voter slot. -/
def unitWanter (u : Nat) : Nat := 0x8000 + u
def slotWanter (i : Nat) : Nat := 0x4000 + i

/-! ### Fences (R521) -/

/-- The code a knot gives for a fenced unit of a kind (R521). -/
def fenceCode (u : Nat) : Nat :=
  match unitKind u with
  | 0 => 0x0030
  | 1 => 0x0203
  | 2 => 0x0202
  | _ => 0x0702

/-! ### Order at the target (R254-R257, R264) -/

/-- The number under which a packet is in the Weave. -/
def State.numberOf (s : State) (p : Packet) : Option Nat := (s.net.pkts.find? (fun e => e.2 == p)).map Prod.fst

/-- Flit pairs of a packet have not reached its target's local port. -/
def State.travels (s : State) (n : Nat) : Bool :=
  s.net.knotIn.any (fun e => e.2.pairs.any (fun f => f.pkt == n)) || s.net.sendq.any (fun e => e.2.any (fun f => f.pkt == n))

/-- On one VC, or for an N or C packet behind a P packet of its service class, the later packet may not go first (R254-R256). -/
def vcFollows (later earlier : Nat) : Bool :=
  earlier == later || (decide (earlier < 2) && decide (2 ≤ later) && decide (later < 6) && earlier == later % 2)

/-- A packet that was sent before another on the same path, and that it may not pass. -/
def mustFollow (later earlier : Packet) : Bool :=
  earlier.initKnot == later.initKnot && earlier.dest == later.dest && vcFollows later.vc earlier.vc

/-- The held packets of a hold store, in arrival order. -/
def State.heldPkts (s : State) : List (List Nat) := s.net.holds.map (fun e => e.2.pkts.filter s.net.pkts.has)

/-- A packet waits behind held packets of its unit (R264): a held one behind those held before it on its VC; one that arrived later
behind every held one, at a Border link unit, which may have to wait for its link, only behind those it may not pass. -/
def State.behindHeld (s : State) (n : Nat) (p : Packet) : Bool :=
  let same (m : Nat) : Bool := match s.net.pkts.find? (fun e => e.1 == m) with
    | some e => e.2.dest == p.dest && (unitKind p.dest != 4 || vcFollows p.vc e.2.vc)
    | none => false
  match s.heldPkts.find? (fun h => h.contains n) with
  | some h => (h.takeWhile (· != n)).any same
  | none => s.heldPkts.any (fun h => h.any same)

/-- A packet's turn has not come: its flit pairs are on the way, an earlier packet that it may not pass is still to be delivered, or
held packets go first. A packet that the Weave does not hold comes from outside and has its turn. -/
def State.waitsTurn (s : State) (p : Packet) : Bool :=
  match s.numberOf p with
  | none => false
  | some n =>
    s.travels n || (s.net.pkts.takeWhile (fun e => e.1 != n)).any (fun e => mustFollow p e.2) || s.behindHeld n p

/-- A packet reaches its target unit: the checks of the knot and the unit that come before the unit's own work. A packet
whose turn has not come waits; one with a reserved opcode or the wrong VC is discarded and reported (R244); for a fenced unit the knot
answers (R521); for a unit whose domain is not on the packet stays and wakes it (R261, R262); otherwise `f` runs with the packet taken. -/
def State.atTarget (s : State) (p : Packet) (f : State → State) : State :=
  if s.waitsTurn p then s
  else if p.op.cls != vcCls p.vc then (s.take p).contained 1 0x0046 p.dest 0 none
  else if s.fenced p.dest then
    let s := s.take p
    if p.op.cls == 1 || (p.op.cls == 0 && p.ackReq) then s.answer p (fenceCode p.dest)
    else s.contained 1 0x0702 p.dest 0 none
  else if !s.unitOn p.dest then s.wake (unitDomain p.dest) (unitWanter p.initUnit)
  else f (s.take p)

end Sys2Proof.Machine
end

