-- ==== Sys2Proof/Machine/Votes.lean ====
section
/-! DEFINITION. The power votes: who wants a domain (R572-R578). -/

namespace Sys2Proof.Machine

/-- Lines of a channel: the whole DIMM of 64, 128 or 256 GiB, spare-line area included (R108, R156); lines of a pseudo-channel: a 32nd
of a stack (R37, R157; log entry 18). -/
def State.channelLines (s : State) : Nat := 2 ^ (30 + s.boot.cfg.dimmSize)
def pseudoLines : Nat := 36 * 2 ^ 30 / 32 / 64

/-- 24 hours in nanoseconds. -/
def passNs : Nat := 24 * 3600 * 1000000000

/-- Scrub is behind (R157). -/
def behind (done lines elapsed : Nat) : Bool := decide (done * passNs < elapsed * lines)

/-- Scrub is behind on the domain's channel (R572). -/
def State.scrubLate (s : State) (d : Nat) : Bool :=
  decide (13 ≤ d) && decide (d ≤ 28) && s.boot.cfg.channels.getLsbD (d - 13) &&
  behind (s.gate (d - 13)).scrub s.channelLines (s.sys.now - (s.gate (d - 13)).passStart)

/-- A queue is not idle (R364). -/
def Queue.busy (x : Queue) : Bool := x.enable && !x.faulted && x.head != x.tail

/-- A queue of a link's functions is not idle, or one of their Fingers holds an entry (R572 kind 2). -/
def State.linkBusy (s : State) (l : Nat) : Bool :=
  s.work.queues.any (fun e => e.1 / 32768 == l && e.2.busy) ||
  s.work.fingers.any (fun e => e.1 / 4096 == l && e.2.entry.isSome)

/-- A voter of a domain holds its vote (R572). -/
def State.votes (s : State) (d : Nat) (slot : Nat × Nat) : Bool :=
  match slot.1 with
  | 1 => (s.link slot.2).up && (s.link slot.2).power != .l12 && (s.link slot.2).power != .l2
  | 2 => s.linkBusy slot.2
  | 3 => (s.peer slot.2).state == .admitted
  | 4 => decide (s.boot.step < 7) || s.scrubLate d || !s.flt.mramQ.isEmpty || s.usg.seqFailed
  | 5 => (s.dom d).pins.contains slot.2
  | _ => false

def State.slots (s : State) (d : Nat) : List (Nat × Nat) := (s.boot.cfg.doms.getD d {}).slots

/-- Some slot of the domain holds a vote. -/
def State.voted (s : State) (d : Nat) : Bool := (s.slots d).any (s.votes d)

/-- Votes cast since `old` wake their domains or abort their entries (R577, R580). -/
def State.castVotes (s old : State) : State :=
  (List.range 41).foldl (fun s d =>
    match ((s.slots d).zipIdx).find? (fun e => s.votes d e.1 && !old.votes d e.1) with
    | some e => s.wake d (slotWanter e.2)
    | none => s) s

/-- A link outside L1.2, L2 and down keeps its Cuff's domain on, whatever its slots say (R568). -/
def State.wakeCuff (s : State) (l : Nat) : State := s.wake (unitDomain (cuffUnit (l / 2))) (unitWanter (cuffUnit (l / 2)))

/-- A unit of the domain has a request outstanding or work queued, or a packet is on its way to it (R574). -/
def State.unitsBusy (s : State) (d : Nat) : Bool :=
  let mine (u : Nat) : Bool := unitDomain u == d
  s.net.outst.any (fun r => mine r.unit) || s.net.pkts.any (fun e => mine e.2.dest) ||
  (if d ≤ 8 then
    [2 * (d - 1), 2 * (d - 1) + 1].any (fun l =>
      let x := s.link l
      !x.txq.isEmpty || !x.devReqs.isEmpty || !x.held.isEmpty) || !(s.cuff (d - 1)).locks.isEmpty
  else if d ≤ 12 then
    s.work.fingers.any (fun e => e.1 / 4096 / 4 == d - 9 && e.2.entry.isSome) ||
    s.work.queues.any (fun e => e.1 / 32768 / 4 == d - 9 && !e.2.entries.isEmpty)
  else if d ≤ 28 then
    let g := s.gate (d - 13)
    !g.walks.isEmpty || !g.parked.isEmpty || !g.reencs.isEmpty || !g.locks.isEmpty
  else if d ≤ 32 then false
  else
    let x := s.blink (d - 33)
    !x.tx.isEmpty || !x.xids.isEmpty || !x.inbound.isEmpty)

/-- A domain is wanted (R574). -/
def State.wanted (s : State) (d : Nat) : Bool := s.voted d || s.unitsBusy d

end Sys2Proof.Machine
end

