-- ==== Sys2Proof/Machine/Sealing.lean ====
section
/-! DEFINITION. Sealing of pool lines, counter blocks, the integrity tree, the tables in HBM and the tier. -/

namespace Sys2Proof.Machine

/-! ### Working keys and the line cipher (R64, R118-R120) -/

/-- The bytes of a key. -/
def keyBytes (k : Key) : List Byte := leBytes 32 k.toNat

/-- A derived value of a glove's key (R64). -/
def derive (k : Key) (g : Nat) (label : String) : BitVec 256 :=
  Config.hkdfExpand (Config.hkdfExtract (List.replicate 48 0) (keyBytes k)) (ascii label ++ leBytes 2 g)

def kEnc (k : Key) (g : Nat) : Key := derive k g "TV8440 seal enc"
def hMac (k : Key) (g : Nat) : BitVec 128 := (derive k g "TV8440 seal hash").setWidth 128
def kPad (k : Key) (g : Nat) : Key := derive k g "TV8440 seal pad"

/-- The key check value (R72). -/
def keyCheck (k : Key) (g : Nat) : BitVec 64 :=
  (Config.hmac384 (keyBytes k) (ascii "TV8440 check" ++ leBytes 2 g)).setWidth 64

/-- The nonce block N_j of a line (R118): `bline` is the basket line address. -/
def nonce (g j gen bline major minor : Nat) : BitVec 128 :=
  BitVec.ofNat 128 (g + 2 ^ 10 * j + 2 ^ 16 * gen + 2 ^ 40 * bline + 2 ^ 80 * major + 2 ^ 120 * minor)

/-- 16-byte block j of a line. -/
def lineBlock (l : Line) (j : Nat) : BitVec 128 := l.extractLsb' (128 * j) 128

/-- A line of four blocks. -/
def lineOfBlocks (b0 b1 b2 b3 : BitVec 128) : Line := (b3 ++ b2 ++ b1 ++ b0).setWidth 512

/-- The key stream of a line (R119). -/
def linePad (k : Key) (g gen bline major minor : Nat) : Line :=
  let f (j : Nat) : BitVec 128 := Config.aes256 (kEnc k g) (nonce g j gen bline major minor)
  lineOfBlocks (f 0) (f 1) (f 2) (f 3)

/-- Encrypt or decrypt a line (R119). -/
def cipher (k : Key) (g gen bline major minor : Nat) (l : Line) : Line := l ^^^ linePad k g gen bline major minor

/-- The MAC of a sealed line (R120). -/
def lineMac (k : Key) (g gen bline major minor : Nat) (c : Line) : BitVec 64 :=
  let n0 := nonce g 0 gen bline major minor
  (Config.ghash (hMac k g) [lineBlock c 0, lineBlock c 1, lineBlock c 2, lineBlock c 3, n0] ^^^
    Config.aes256 (kPad k g) n0).setWidth 64

/-- The basket line address of a local line (R118). -/
def State.basketLine (s : State) (line : Nat) : Nat :=
  (0x100000000000 + s.boot.cfg.pos * 0x040000000000) / 64 + line

/-- The glove number that a Band slot seals under (R118): the home glove's for a guest slot. -/
def State.slotGlove (s : State) (b : Nat) : Nat := if b < 1024 then b else (s.slot b).glove

/-- The Band slot of a request (R122): the glove's home slot, or the guest slot that holds its key. -/
def State.reqSlot (s : State) (p : Packet) : Option Nat :=
  if !p.gloveValid then none
  else if p.home == s.boot.cfg.pos then (if (s.slot p.glove).valid then some p.glove else none)
  else (s.trust.band.find? (fun e => decide (1024 ≤ e.1) && e.2.valid && e.2.home == p.home && e.2.glove == p.glove)).map Prod.fst

/-! ### Counter blocks (R121) -/

def packCtr (c : Ctr) : Line :=
  BitVec.ofNat 512 ((List.range 64).foldl (fun v i => v + c.minors.get 0 i % 128 * 2 ^ (7 * i)) 0 +
    c.gen % 2 ^ 24 * 2 ^ 448 + c.major % 2 ^ 40 * 2 ^ 472)

def unpackCtr (l : Line) : Ctr :=
  let v := l.toNat
  { major := bits v 511 472, gen := bits v 471 448,
    minors := ((List.range 64).map (fun i => (i, bits v (7 * i + 6) (7 * i)))).filter (fun e => e.2 != 0) }

/-! ### The tables in HBM (R192-R199, R203, R215) -/

/-- The ownership entry of a page: free at generation 1 after start-up for a populated page, STATE 3 otherwise (R199, R552). -/
def State.own (s : State) (p : Nat) : Own :=
  s.pool.owns.get (if p < s.pages then { gen := 1 } else { state := 3 }) p

def packOwn (o : Own) : Nat := o.state + 4 * o.owner + 2 ^ 24 * o.gen

def packPte (e : Pte) : Nat :=
  bit e.valid + 2 * bit e.readOnly + 4 * e.home + 256 * e.page + 2 ^ 40 * e.group

def packRegion (r : Region) : Nat :=
  r.start + 2 ^ 48 * (bit r.tr + 2 * bit r.tw + 4 * bit r.or + 8 * bit r.ow + 16 * bit r.dr + 32 * bit r.dw) +
    2 ^ 64 * r.stop

def packWindow : Window → Nat
  | .valid start len host target read write _ =>
    start + 2 ^ 64 * len + 2 ^ 128 * host + 2 ^ 192 * target + 2 ^ 202 * bit write + 2 ^ 203 * bit read + 2 ^ 204
  | .empty => 0
  | .tombstone _ _ => 0

def unpackOwn (v : Nat) : Own := { gen := bits v 47 24, owner := bits v 12 2, state := bits v 1 0 }

/-- Bytes of a glove's page table: W_max / 2 MiB entries of 8 bytes (R194). -/
def State.ptBytes (s : State) (g : Nat) : Nat :=
  match s.linkOf g with
  | some l => 2 ^ ((s.boot.cfg.bars.getD l (false, 21)).2 - 21) * 8
  | none => 0

/-- WIN_PT_BASE: the tables are packed in ascending glove number from 0x0200_0000 (R194). -/
def State.ptBase (s : State) (g : Nat) : Nat :=
  if s.ptBytes g == 0 then 0
  else ((List.range g).map s.ptBytes).foldl (· + ·) 0x2000000

def State.pte (s : State) (g i : Nat) : Pte := s.pool.pts.get {} (g * 2 ^ 21 + i)

/-- The eight 8-byte entries of a table line (R192). -/
def State.tableEntry (s : State) (off : Nat) : Nat :=
  if off < 0x1000000 then packOwn (s.own (off / 8))
  else if off < 0x1100000 then
    let g := (off - 0x1000000) / 0x400
    let v := packRegion ((s.glove g).rules.getD ((off - 0x1000000) % 0x400 / 16) {})
    v / 2 ^ (off % 16 * 8) % 2 ^ 64
  else if off < 0x1180000 then
    let g := (off - 0x1100000) / 0x200
    let v := packWindow ((s.glove g).windows.get .empty ((off - 0x1100000) % 0x200 / 32))
    v / 2 ^ (off % 32 * 8) % 2 ^ 64
  else if off < 0x2000000 then 0
  else
    match (List.range 1024).find?
        (fun g => s.ptBytes g != 0 && decide (s.ptBase g ≤ off) && decide (off < s.ptBase g + s.ptBytes g)) with
    | some g => packPte (s.pte g ((off - s.ptBase g) / 8))
    | none => 0

def State.tableLine (s : State) (l : Nat) : Line :=
  BitVec.ofNat 512 ((List.range 8).foldl (fun v i => v + s.tableEntry (64 * l + 8 * i) * 2 ^ (64 * i)) 0)

/-! ### The integrity tree (R113, R126-R130) -/

/-- Nodes of a level above `n` leaves: each level has an eighth of the one below, rounded up. -/
def levelNodes (n : Nat) : Nat → Nat
  | 0 => n
  | l + 1 => (levelNodes n l + 7) / 8

/-- Leaves of the pool tree and of the table branch (R126, R129). -/
def State.leaves (s : State) (branch : Bool) : Nat := if branch then 29360128 else s.pages * 512

/-- The top level: the first with at most 4,096 nodes for the pool tree, level 6 for the table branch (R113, R129). -/
def State.treeTop (s : State) (branch : Bool) : Nat :=
  if branch then 6
  else ((List.range 8).find? (fun l => decide (levelNodes (s.pages * 512) l ≤ 4096))).getD 8

/-- The leaf of a block (R126). -/
def State.leafOf (s : State) (blk : Nat) : Nat :=
  let pl := s.place blk
  blk / 512 * 512 + pl.k * (512 / 2 ^ s.chanLog) + pl.u

/-- Key of a node in the tables of nodes. -/
def nodeKey (branch : Bool) (level i : Nat) : Nat := (bit branch * 16 + level) * 2 ^ 40 + i

/-- The MAC of a tree child (R127). -/
def State.nodeMac (s : State) (level i : Nat) (d : Line) : BitVec 64 :=
  (Config.aes256 s.trust.kTree (Config.ghash s.trust.hTree
    [lineBlock d 0, lineBlock d 1, lineBlock d 2, lineBlock d 3, BitVec.ofNat 128 (level + 256 * i)])).setWidth 64

/-- A node of eight MACs (R126). -/
def packMacs (f : Nat → BitVec 64) : Line :=
  BitVec.ofNat 512 ((List.range 8).foldl (fun v c => v + (f c).toNat * 2 ^ (64 * c)) 0)

def macAt (l : Line) (c : Nat) : BitVec 64 := l.extractLsb' (64 * c) 64

/-- What start-up writes to a table line (R552): free entries at generation 1 for the populated pages, STATE 3 for every
other ownership entry, and zero elsewhere. -/
def State.initTable (s : State) (l : Nat) : Line :=
  if l < 0x40000 then
    BitVec.ofNat 512 ((List.range 8).foldl
      (fun v i => v + packOwn (if 8 * l + i < s.pages then { gen := 1 } else { state := 3 }) * 2 ^ (64 * i)) 0)
  else 0

/-- What start-up writes to a node (R552), level by level from the leaves just written; children that do not exist count as
zero. -/
def State.initNode (s : State) (branch : Bool) : Nat → Nat → Line
  | 0, i => if branch then s.initTable i else 0
  | l + 1, i => packMacs (fun c =>
      if 8 * i + c < levelNodes (s.leaves branch) l then s.nodeMac l (8 * i + c) (s.initNode branch l (8 * i + c)) else 0)

/-- A node below the top. -/
def State.node (s : State) (branch : Bool) (level i : Nat) : Line :=
  s.pool.nodes.get (s.initNode branch level i) (nodeKey branch level i)

/-- Root-store slot of a top node (R129). -/
def rootSlot (branch : Bool) (i : Nat) : Nat := if branch then 3984 + i else i

/-- A root-store slot with its root check (R129, R130). -/
def State.rootAt (s : State) (branch : Bool) (i : Nat) : Line × BitVec 64 :=
  let t := s.treeTop branch
  s.pool.root.get (s.initNode branch t i, s.nodeMac t i (s.initNode branch t i)) (rootSlot branch i)

/-- The root check of a slot agrees with its content (R130). -/
def State.rootOk (s : State) (branch : Bool) (i : Nat) : Bool :=
  s.nodeMac (s.treeTop branch) i (s.rootAt branch i).1 == (s.rootAt branch i).2

/-- A line's 8-byte field `i`. -/
def word64 (l : Line) (i : Nat) : Nat := (macAt l i).toNat

/-- A line with one child MAC replaced. -/
def putMac (l : Line) (c : Nat) (m : BitVec 64) : Line := packMacs (fun i => if i == c then m else macAt l i)

/-! ### The layout of a stack (R114, R115, R128, R193; log entry 10) -/

/-- Counter-store bytes, then tree-node bytes of a stack. -/
def State.ctrBytes (s : State) : Nat := s.pages * 128 * 64

/-- Nodes of a level homed on a stack: a quarter at levels 1 and 2, index mod 4 above (R128). -/
def State.homed (s : State) (q level : Nat) : Nat :=
  if level ≤ 2 then levelNodes (s.pages * 512) level / 4 else (levelNodes (s.pages * 512) level + 3 - q) / 4

def State.treeBytes (s : State) (q : Nat) : Nat :=
  (List.range (s.treeTop false - 1)).foldl (fun v l => v + 64 * s.homed q (l + 1)) 0

/-- Sets of the tier on a stack (R37, R113, R146). -/
def State.tierSets (s : State) (q : Nat) : Nat :=
  (36 * 2 ^ 30 - s.ctrBytes - s.treeBytes q - 512 * 2 ^ 20) / 1216

/-- What an HBM stack byte address holds. -/
inductive HbmPlace where
  | counter (blk : Nat)
  | node (branch : Bool) (level i : Nat)
  | table (l : Nat)
  | tier
deriving DecidableEq, Repr

/-- Stack and local position of a pool-tree node (R128). -/
def State.nodePlace (_ : State) (level i : Nat) : Nat × Nat :=
  if level == 1 then (i % 64 / 16, i / 64 * 16 + i % 16)
  else if level == 2 then (i % 8 / 2, i / 8 * 2 + i % 2)
  else (i % 4, i / 4)

/-- Stack and byte address of a counter block (R115). -/
def State.ctrAddr (s : State) (blk : Nat) : Nat × Nat :=
  let pl := s.place blk
  let m := s.channels / 4
  (pl.k / m, (pl.slot * m + pl.k % m) * 64)

/-- Stack and byte address of a pool-tree node below the top: level by level from level 1. -/
def State.nodeAddr (s : State) (level i : Nat) : Nat × Nat :=
  let (q, j) := s.nodePlace level i
  (q, s.ctrBytes + (List.range (level - 1)).foldl (fun v l => v + 64 * s.homed q (l + 1)) 0 + 64 * j)

/-- The block whose counter block lies at position `n` of a stack's counter store: the inverse of `ctrAddr`. -/
def State.blockAt (s : State) (q n : Nat) : Nat :=
  let m := s.channels / 4
  let k := q * m + n % m
  let slot := n / m
  let per := 512 / 2 ^ s.chanLog
  let p := slot / per
  let u := slot % per
  let h := fold s.chanLog 11 p ^^^ fold s.chanLog 5 u
  p * 512 + u * 2 ^ s.chanLog + (k ^^^ (h % 2 ^ s.chanLog))

/-- The pool-tree node at local position `j` of a level on a stack: the inverse of `nodePlace`. -/
def nodeIndex (q level j : Nat) : Nat :=
  if level == 1 then j / 16 * 64 + q * 16 + j % 16
  else if level == 2 then j / 2 * 8 + q * 2 + j % 2
  else 4 * j + q

/-- Find the level of a tree address, counting down its regions. -/
def State.treePlace (s : State) (q : Nat) : Nat → Nat → Nat → HbmPlace
  | 0, _, _ => .tier
  | n + 1, level, off =>
    if off < 64 * s.homed q level then .node false level (nodeIndex q level (off / 64))
    else s.treePlace q n (level + 1) (off - 64 * s.homed q level)

/-- The table-branch node at position `j` of a stack's branch area: levels 1 to 5, index mod 4 (R128, R129). -/
def branchPlace (q : Nat) : Nat → Nat → Nat → HbmPlace
  | 0, _, _ => .tier
  | n + 1, level, j =>
    if j < levelNodes 29360128 level / 4 then .node true level (4 * j + q)
    else branchPlace q n (level + 1) (j - levelNodes 29360128 level / 4)

/-- What lies at a stack byte address (R114). -/
def State.hbmPlace (s : State) (q a : Nat) : HbmPlace :=
  if a < s.ctrBytes then .counter (s.blockAt q (a / 64))
  else
    let a := a - s.ctrBytes
    if a < s.treeBytes q then s.treePlace q 8 1 a
    else
      let a := a - s.treeBytes q
      if a < 448 * 2 ^ 20 then .table (4 * (a / 64) + q)
      else if a < 512 * 2 ^ 20 then branchPlace q 5 1 ((a - 448 * 2 ^ 20) / 64)
      else .tier

/-- The HBM sealing gate that serves an address of a stack (R128). -/
def hbmOwner (q a : Nat) : Nat := hbmGateUnit q ((Config.pseudoChannel q a).val / 4)

/-- Stack and byte address of a table line (R193) and of a table-branch node below the top (R128, R129). -/
def State.tableAddr (s : State) (l : Nat) : Nat × Nat := (l % 4, s.ctrBytes + s.treeBytes (l % 4) + l / 4 * 64)

def State.branchAddr (s : State) (level i : Nat) : Nat × Nat :=
  (i % 4, s.ctrBytes + s.treeBytes (i % 4) + 448 * 2 ^ 20 +
    64 * ((List.range (level - 1)).foldl (fun v l => v + levelNodes 29360128 (l + 1) / 4) (i / 4)))

/-- Stack and byte address of a table line (level 0 of the branch) or of a tree node below the top. -/
def State.keyAddr (s : State) (branch : Bool) (level i : Nat) : Nat × Nat :=
  if branch then (if level == 0 then s.tableAddr i else s.branchAddr level i) else s.nodeAddr level i

/-- Number of the HBM sealing gate, 8 * stack + local index, that owns an address (R128), and its unit. -/
def hgateOf (q a : Nat) : Nat := 8 * q + (Config.pseudoChannel q a).val / 4
def hgateUnit (h : Nat) : Nat := hbmGateUnit (h / 8) (h % 8)

/-- Where the parent of a child at `level` is read and updated: the unit and the address that names it. A root-store slot lies in
its stack controller and is named by 64 times its number (R128, R129; log entry 12). -/
def State.parentAt (s : State) (branch : Bool) (level i : Nat) : Nat × Nat :=
  if level + 1 == s.treeTop branch then
    let slot := rootSlot branch (i / 8)
    (stackUnit (slot % 4), 64 * slot)
  else
    let (q, a) := s.keyAddr branch (level + 1) (i / 8)
    (hbmOwner q a, a)

/-! ### HBM contents (R116, R146, R147, R177) -/

def State.hgate (s : State) (h : Nat) : HGate := s.pool.hgates.get {} h
def State.modHgate (s : State) (h : Nat) (m : HGate → HGate) : State := { s with pool.hgates := s.pool.hgates.mod {} h m }

/-- Key of an HBM line. -/
def hbmKey (q a : Nat) : Nat := q * 2 ^ 36 + a

/-- A line cannot be read: its pseudo-channel is retired (R177) or its ECC is uncorrectable (R158). -/
def State.hbmLost (s : State) (q a : Nat) : Bool :=
  s.flt.pseudoLost.contains (q * 32 + (Config.pseudoChannel q a).val, false) || s.pool.hbmBad.contains (hbmKey q a)

/-- First byte of the tier on a stack (R114). -/
def State.tierBase (s : State) (q : Nat) : Nat := s.ctrBytes + s.treeBytes q + 512 * 2 ^ 20

/-- A tier tag entry (R147). -/
def packTag (t : TierLine) : Nat :=
  t.tag % 2 ^ 18 + 2 ^ 18 * bit t.ref + 2 ^ 19 * bit t.dirty + 2 ^ 20 + 2 ^ 21 * (t.slot % 2 ^ 11) + 2 ^ 32 * t.mac.toNat

def State.tierWay (s : State) (q set way : Nat) : Option TierLine :=
  s.pool.tier.find? (fun t => t.stack == q && t.set == set && t.way == way)

/-- The 192 bytes of a set's tag entries, entry w at byte 12w (R146). -/
def State.tagBytes (s : State) (q set : Nat) : List Byte :=
  (List.range 16).flatMap (fun w => leBytes 12 (((s.tierWay q set w).map packTag).getD 0))

/-- A tag entry as read: none where VALID is 0 (R147). -/
def unpackTag (q set way v : Nat) (data : Line) : Option TierLine :=
  if bitAt v 20 then
    some { stack := q, set := set, way := way, mac := BitVec.ofNat 64 (bits v 95 32), slot := bits v 31 21, dirty := bitAt v 19,
           ref := bitAt v 18, tag := bits v 17 0, data := data }
  else none

/-- The line of the tier region at a byte offset: 16 data ways, then three tag lines, in each set of 1,216 bytes (R146). -/
def State.tierLineAt (s : State) (q off : Nat) : Line :=
  let set := off / 1216
  let j := off % 1216 / 64
  if j < 16 then ((s.tierWay q set j).map TierLine.data).getD 0
  else lineOf (((s.tagBytes q set).drop (64 * (j - 16))).take 64)

/-- Write a line of the tier region: the data of a way, or a tag line of its set (R146, R147). -/
def State.tierPutAt (s : State) (q off : Nat) (d : Line) : State :=
  let set := off / 1216
  let j := off % 1216 / 64
  if j < 16 then
    { s with pool.tier := s.pool.tier.map (fun t => if t.stack == q && t.set == set && t.way == j then { t with data := d } else t) }
  else
    let old := s.tagBytes q set
    let bs := old.take (64 * (j - 16)) ++ lineBytes d ++ old.drop (64 * (j - 15))
    let ways := (List.range 16).filterMap (fun w =>
      unpackTag q set w (leNat ((bs.drop (12 * w)).take 12)) (((s.tierWay q set w).map TierLine.data).getD 0))
    { s with pool.tier := s.pool.tier.filter (fun t => !(t.stack == q && t.set == set)) ++ ways }

/-- The line that a stack address holds in HBM, before XTS (R114). -/
def State.hbmCopy (s : State) (q a : Nat) : Line :=
  match s.hbmPlace q a with
  | .counter blk => packCtr (s.pool.counters.get {} blk)
  | .node b l i => s.node b l i
  | .table l => s.pool.stale.get (s.tableLine l) l
  | .tier => s.tierLineAt q (a - s.tierBase q)

/-- What the stack itself holds: the line under XTS with its address as tweak; a tier data line unchanged (R116). -/
def State.hbmImage (s : State) (q a : Nat) : Line :=
  let plain := (s.hbmPlace q a) == .tier && decide ((a - s.tierBase q) % 1216 < 1024)
  if plain then s.hbmCopy q a else Config.xts s.trust.xtsKey a (s.hbmCopy q a)

/-- Write the HBM copy of a line; it carries a good codeword from then on. -/
def State.hbmPut (s : State) (q a : Nat) (d : Line) : State :=
  let s : State := { s with pool.hbmBad := s.pool.hbmBad.filter (· != hbmKey q a) }
  match s.hbmPlace q a with
  | .counter blk => { s with pool.counters := s.pool.counters.set blk (unpackCtr d) }
  | .node b l i => { s with pool.nodes := s.pool.nodes.set (nodeKey b l i) d }
  | .table l => { s with pool.stale := if d == s.tableLine l then s.pool.stale.del l else s.pool.stale.set l d }
  | .tier => s.tierPutAt q (a - s.tierBase q) d

/-- A foreground access joins the queue of a pseudo-channel's scheduler (R153). -/
def State.hbmWant (s : State) (q a : Nat) : State :=
  { s with pool.hbmSched := s.pool.hbmSched.mod {} (q * 32 + (Config.pseudoChannel q a).val) (fun x => { x with fg := x.fg ++ [⟨a, none⟩] }) }

/-! ### The HBM sealing gates (R128, R131, R134, R136) -/

/-- Lines a 256 KiB buffer and a 2 MiB counter cache hold. -/
def hbufLines : Nat := 4096
def ccLines : Nat := 32768

/-- A line joins its gate's buffer, to be sealed under XTS and written; the oldest line of a full buffer is written (R136). -/
def State.hbufPut (s : State) (q a : Nat) (d : Line) : State :=
  let h := hgateOf q a
  let old := (s.hgate h).buf.filter (fun e => e.1 != a)
  let s := match (if old.length < hbufLines then none else old.head?) with
    | some e => s.hbmPut q e.1 e.2
    | none => s
  (s.modHgate h (fun x => { x with buf := (old.drop (old.length + 1 - hbufLines)) ++ [(a, d)] })).hbmWant q a

/-- The line an HBM sealing gate answers for an address: from its buffer, or from HBM. -/
def State.hbmRead (s : State) (q a : Nat) : Line :=
  match (s.hgate (hgateOf q a)).buf.find? (fun e => e.1 == a) with
  | some e => e.2
  | none => s.hbmCopy q a

/-- The verified line that a node's or table line's owner holds in its counter cache (R131). -/
def State.hcHeld (s : State) (branch : Bool) (level i : Nat) : Option Line :=
  let (q, a) := s.keyAddr branch level i
  let c := (s.hgate (hgateOf q a)).cache
  if c.has (nodeKey branch level i) then some (c.get (0, false) (nodeKey branch level i)).1 else none

/-- A node's or table line's newest content: its owner's copy, or what is in HBM. -/
def State.nodeNow (s : State) (branch : Bool) (level i : Nat) : Line :=
  match s.hcHeld branch level i with
  | some d => d
  | none =>
    let (q, a) := s.keyAddr branch level i
    s.hbmRead q a

/-- Branch, level and index of a node key. -/
def keyNode (k : Nat) : Bool × Nat × Nat := (decide (16 ≤ k / 2 ^ 40), k / 2 ^ 40 % 16, k % 2 ^ 40)

/-- A line leaves an HBM gate's counter cache (R134): a dirty one goes to the buffer, and its MAC to the owner of its parent; it stays,
clean, until the parent has the new MAC. -/
def State.evictNode (s : State) (h key : Nat) : State :=
  let e := (s.hgate h).cache.get (0, false) key
  if e.2 then
    let (b, l, i) := keyNode key
    let (q, a) := s.keyAddr b l i
    let (u, pa) := s.parentAt b l i
    let s := (s.modHgate h (fun x => { x with cache := x.cache.set key (e.1, false) })).hbufPut q a e.1
    s.request (.hbmMac h key)
      { op := .mqMac, vc := 6, dest := u, destKnot := unitKnot u, initUnit := hgateUnit h, initKnot := unitKnot (hgateUnit h),
        addr := pa + 8 * (i % 8), len := 8, world := 2, data := [putMac 0 (i % 8) (s.nodeMac l i e.1)] } none
  else s.modHgate h (fun x => { x with cache := x.cache.del key })

/-- Put a verified line into its owner's counter cache. -/
def State.hcPut (s : State) (branch : Bool) (level i : Nat) (d : Line) (dirty : Bool) : State :=
  let (q, a) := s.keyAddr branch level i
  let key := nodeKey branch level i
  { s with pool.hgates := s.pool.hgates.mod {} (hgateOf q a) (fun x =>
      { x with cache := x.cache.set key (d, dirty || (x.cache.get (0, false) key).2) }) }

/-- Lines beyond what the counter cache holds leave it, lowest-numbered first (log entry 11). -/
def State.hcTrim (s : State) (h : Nat) : State :=
  match (if (s.hgate h).cache.length ≤ ccLines then none else (s.hgate h).cache.find? (fun e => e.2.2)) with
  | some v => s.evictNode h v.1
  | none => s.modHgate h (fun x => { x with cache := x.cache.drop (x.cache.length - ccLines) })

/-- A root-store slot is read: its content where the root check agrees, else a root mismatch is reported (R130). -/
def State.readRoot (s : State) (branch : Bool) (i : Nat) : Option Line × State :=
  if s.rootOk branch i then (some (s.rootAt branch i).1, s)
  else
    (none, s.report (mkFault 3 .rootMismatch 0x0704 (stackUnit (rootSlot branch i % 4)) (rootSlot branch i) none))

/-- The element of a TREE_FAILURE (R517). -/
def treeElement (branch : Bool) (level i : Nat) : Nat := i % 2 ^ 40 + 2 ^ 55 * bit branch + 2 ^ 56 * level

/-- The owner of a node or table line brings it into its counter cache, verified (R131, R133): it reads the HBM copy and checks it
against the parent, which its own owner brings in the same way, up to a cached node or the root store. The requests that the HBM
gates send each other for this are not separate steps (log entry 9). On a failure the level of the failed check comes back. -/
def State.bring (s : State) (branch : Bool) : Nat → Nat → Nat → (Line ⊕ Nat) × State
  | 0, level, _ => (.inr level, s)
  | n + 1, level, i =>
    if level == s.treeTop branch then
      match s.readRoot branch i with
      | (some d, s) => (.inl d, s)
      | (none, s) => (.inr level, s)
    else
      match s.hcHeld branch level i with
      | some d => (.inl d, s)
      | none =>
        let (q, a) := s.keyAddr branch level i
        if s.fenced (hbmOwner q a) || s.hbmLost q a then (.inr level, s)
        else
          let d := s.hbmRead q a
          match s.bring branch n (level + 1) (i / 8) with
          | (.inr l, s) => (.inr l, s)
          | (.inl p, s) =>
            if macAt p (i % 8) == s.nodeMac level i d then (.inl d, (s.hcPut branch level i d false).hbmWant q a) else (.inr level, s)

/-- The owner of a parent takes one child's MAC: the cached copy is updated and marked dirty (R134), a root-store slot is rewritten
with its root check (R130). On a failure the level of the failed check comes back. -/
def State.updateMac (s : State) (branch : Bool) (level i c : Nat) (m : BitVec 64) : Option Nat × State :=
  match s.bring branch 8 level i with
  | (.inr l, s) => (some l, s)
  | (.inl d, s) =>
    let d := putMac d c m
    if level == s.treeTop branch then
      (none, { s with pool.root := s.pool.root.set (rootSlot branch i) (d, s.nodeMac level i d) })
    else (none, s.hcPut branch level i d true)

/-- Lines of the tables in force have changed from what `old` held, through their owning HBM gates (R132, R201): each is dirty in its
owner's counter cache, and its HBM copy is what it was. -/
def State.tablesChanged (s old : State) (ls : List Nat) : State :=
  ls.foldl (fun s l =>
    let d := old.pool.stale.get (old.tableLine l) l
    ({ s with pool.stale := if d == s.tableLine l then s.pool.stale.del l else s.pool.stale.set l d }).hcPut true 0 l (s.tableLine l)
      true) s

/-- The tables in force change within line `l` by `f`. -/
def State.changeTable (s : State) (l : Nat) (f : State → State) : State := (f s).tablesChanged s [l]

/-- Write an ownership entry (R132, R199). -/
def State.setOwn (s : State) (p : Nat) (o : Own) : State :=
  s.changeTable (p / 8) (fun s => { s with pool.owns := s.pool.owns.set p o })

/-- Write a page-table entry (R197); a checker that has read the line for a miss and not used it yet reads it again (R201). -/
def State.setPte (s : State) (g i : Nat) (e : Pte) : State :=
  let l := (s.ptBase g + 8 * i) / 64
  s.changeTable l (fun s =>
    { s with pool.pts := s.pool.pts.set (g * 2 ^ 21 + i) e, pool.tlines := s.pool.tlines.filter (fun t => t.line != l) })

/-! ### DDR (R106-R112, R173) -/

/-- Channel byte address after sparing (R173): spare chunk n is the n-th 4 KiB of the spare-line area (R108). -/
def State.chanAddr (s : State) (ch a : Nat) : Nat :=
  if (s.gate ch).spares.has (a / 4096) then
    stripes s.boot.cfg.dimmSize * 0x1200000 + (s.gate ch).spares.get 0 (a / 4096) * 4096 + a % 4096
  else a

def ddrKey (ch a : Nat) : Nat := ch * 2 ^ 38 + a

def State.ddrLine (s : State) (ch a : Nat) : Line :=
  lineOf (Memory.readAll 0 s.pool.ddr (ddrKey ch (s.chanAddr ch a)) 64)

/-- A foreground access joins the queue of a channel's scheduler (R153). -/
def State.slotWant (s : State) (ch a : Nat) : State := s.modGate ch (fun x => { x with fg := x.fg ++ [⟨a, none⟩] })

/-- Write a line to DDR; it carries a good codeword from then on. -/
def State.ddrPut (s : State) (ch a : Nat) (l : Line) : State :=
  let k := ddrKey ch (s.chanAddr ch a)
  { (s.slotWant ch (s.chanAddr ch a)) with pool.ddr := Memory.writeAll 0 s.pool.ddr k (lineBytes l), pool.ddrBad := s.pool.ddrBad.filter (· != k) }

/-- Write a poison codeword (R664, R174). -/
def State.ddrPoison (s : State) (ch a : Nat) : State :=
  let k := ddrKey ch (s.chanAddr ch a)
  { s with pool.ddrBad := if s.pool.ddrBad.contains k then s.pool.ddrBad else s.pool.ddrBad ++ [k] }

def State.ddrBadAt (s : State) (ch a : Nat) : Bool := s.pool.ddrBad.contains (ddrKey ch (s.chanAddr ch a))

/-- The MAC line of a line, as its owning gate has it: from the counter cache (R131), else from a channel's DRAM. -/
def State.macLineOf (s : State) (ch line : Nat) : Line :=
  let (a, _) := s.macAddr line
  let g := s.owner (line / 64)
  if (s.gate g).macs.has a then ((s.gate g).macs.get (0, false) a).1 else s.ddrLine ch a

/-- The MAC of a line in its MAC line. -/
def State.macIn (s : State) (line : Nat) (ml : Line) : BitVec 64 := macAt ml ((s.macAddr line).2 / 8)

/-- The partner channel in the mirrored layout (R105). -/
def partner (ch : Nat) : Nat := ch / 2 * 2 + (1 - ch % 2)

/-- The channel whose copy of a line stands for both while its owner writes: its own, or the partner's when its own is retired
(R170, R171). -/
def State.mainCopy (s : State) (g : Nat) : Nat := if (s.gate g).retired && s.boot.cfg.mirror then partner g else g

/-- A MAC line leaves the owner's counter cache, a dirty one to DRAM (R131). -/
def State.macOut (s : State) (g a : Nat) : State :=
  let e := (s.gate g).macs.get (0, false) a
  let t := s.modGate g (fun x => { x with macs := x.macs.del a })
  if e.2 && !(s.gate g).retired then t.ddrPut g a e.1 else t

/-- A MAC line is held in the owner's counter cache; the lowest-numbered clean or dirty other MAC line leaves a full cache, a dirty one
to DRAM (R131; log entry 11). -/
def State.macPut (s : State) (g a : Nat) (l : Line) (dirty : Bool) : State :=
  let x := s.gate g
  let s := match (if x.ccache.length + x.macs.length + x.olines.length < ccLines || x.macs.has a then none else x.macs.head?) with
    | some (b, _) => s.macOut g b
    | none => s
  s.modGate g (fun x => { x with macs := x.macs.set a (l, dirty || (x.macs.get (0, false) a).2) })

/-- Write a sealed line and its MAC line to DRAM: the owner's channel, and in the mirrored layout the partner's by a MIRROR_WR at the same
channel address (R169, R171). The MAC line is held in the counter cache; `now` says that the owner's copy of it is written at
once (R140 step 4), else it is written back later. -/
def State.ddrStoreWith (s : State) (now : Bool) (line : Nat) (c : Line) (m : BitVec 64) : State :=
  let g := s.owner (line / 64)
  let a := (s.macAddr line).1
  let ml := putMac (s.macLineOf (s.mainCopy g) line) ((s.macAddr line).2 / 8) m
  let s :=
    if (s.gate g).retired then s
    else
      let s := s.ddrPut g (s.lineAddr line) c
      if now then s.ddrPut g a ml else s
  let s := s.macPut g a ml (!now && !(s.gate g).retired)
  if s.boot.cfg.mirror && !(s.gate (partner g)).retired then
    s.request (.mirror g)
      { op := .mirrorWr, vc := 6, dest := gateUnit (partner g), destKnot := unitKnot (gateUnit (partner g)),
        initUnit := gateUnit g, initKnot := unitKnot (gateUnit g), addr := s.lineAddr line, len := 128, world := 2,
        data := [c, ml] } none
  else s

def State.ddrStore (s : State) (line : Nat) (c : Line) (m : BitVec 64) : State := s.ddrStoreWith false line c m

/-! ### The tier (R146-R152) -/

/-- Where a line may sit in the tier: stack, set and tag (R146). -/
def State.tierPlace (s : State) (line : Nat) : Nat × Nat × Nat :=
  let q := s.owner (line / 64) / 4
  let n := s.tierSets q
  (q, line % max 1 n, line / max 1 n)

/-- The set's pseudo-channel is in use (R177). -/
def State.setUsable (s : State) (q set : Nat) : Bool :=
  s.flt.pseudoLost.isEmpty ||
  !s.flt.pseudoLost.contains
    (q * 32 + (Config.pseudoChannel q (s.tierBase q + 1216 * set)).val, false)

/-- The HBM sealing gate that owns a set is fenced (R521). -/
def State.tierFenced (s : State) (q set : Nat) : Bool :=
  s.fenced (hbmOwner q (s.tierBase q + 1216 * set))

/-- Byte address of a way's data line on its stack (R146). -/
def State.wayAddr (s : State) (t : TierLine) : Nat := s.tierBase t.stack + 1216 * t.set + 64 * t.way

def State.tierFind (s : State) (line : Nat) : Option TierLine :=
  let (q, set, tag) := s.tierPlace line
  s.pool.tier.find? (fun t => t.stack == q && t.set == set && t.tag == tag && s.setUsable q set)

/-- A Band slot's line limit on a stack (R150, R151). -/
def State.tierLimit (s : State) (q slot : Nat) : Nat :=
  (if slot < 1024 then (s.glove slot).share else s.boot.cfg.tierGuest) * (16 * s.tierSets q) / 4096

/-- Tier lines a slot holds on a stack. -/
def State.tierHeld (s : State) (q slot : Nat) : Nat :=
  (s.pool.tier.filter (fun t => t.stack == q && t.slot == slot)).length

/-- The line number a tier way holds (R146). -/
def State.tierLineNo (s : State) (t : TierLine) : Nat := t.tag * max 1 (s.tierSets t.stack) + t.set

/-- The entry with the lowest way number. -/
def firstWay (ways : List TierLine) : Option TierLine :=
  ways.foldl (fun acc t => match acc with
    | some a => if t.way < a.way then some t else some a
    | none => some t) none

/-- The way chosen in a set among `ways` (R149): the first with REF clear in way order, else the first once every REF bit is
cleared. -/
def pickWay (ways : List TierLine) : Option TierLine :=
  match firstWay (ways.filter (fun t => !t.ref)) with
  | some t => some t
  | none => firstWay ways

/-- The tier holds these lines. -/
def State.setTier (s : State) (t : List TierLine) : State := { s with pool.tier := t }

/-- A dirty line goes to its channel. -/
def State.storeIf (s : State) (dirty : Bool) (line : Nat) (c : Line) (m : BitVec 64) : State :=
  if dirty then s.ddrStore line c m else s

/-- A line enters a set as `new`: into a free way while its slot is under its limit, else in the place of the way that the second
chance picks, whose dirty line goes to its channel (R147, R149, R151). Of a glove at its limit the own ways are tried, and no REF bit is
cleared while another way of the set has it clear (DESIGN CHOICE, log entry 125). -/
def State.tierAlloc (s : State) (under : Bool) (ways : List TierLine) (new : Nat → TierLine) (dirty : Bool) (line : Nat) : State × Bool :=
  match under, (List.range 16).find? (fun w => !ways.any (fun t => t.way == w)) with
  | true, some w => (s.setTier (s.pool.tier ++ [new w]), true)
  | _, _ =>
    match pickWay (if under then ways else ways.filter (fun t => t.slot == (new 0).slot)) with
    | none => (s.storeIf dirty line (new 0).data (new 0).mac, false)
    | some v =>
      let s' := s.storeIf v.dirty (s.tierLineNo v) v.data v.mac
      let here (x : TierLine) : Bool := x.stack == v.stack && x.set == v.set
      let clear := ways.all (fun t => t.ref)
      let rest := (s'.pool.tier.filter (fun x => !(here x && x.way == v.way))).map
        (fun x => if clear && here x then { x with ref := false } else x)
      (s'.setTier (rest ++ [new v.way]), true)

/-- Place a sealed line in the tier under R149, or write it to DDR when it is not cached. `dirty` says that DDR's copy is
stale. Answers whether the line is now cached. -/
def State.tierFill (s : State) (line slot : Nat) (c : Line) (m : BitVec 64) (dirty : Bool) : State × Bool :=
  let (q, set, tag) := s.tierPlace line
  match s.tierFind line with
  | some t =>
    if s.tierFenced q set then (s.storeIf dirty line c m, false)
    else (s.setTier (s.pool.tier.map (fun x => if x == t then ⟨q, set, t.way, m, slot, t.dirty || dirty, true, tag, c⟩ else x)), true)
  | none =>
    if !s.setUsable q set || s.tierSets q == 0 || s.tierFenced q set then (s.storeIf dirty line c m, false)
    else
      s.tierAlloc (decide (s.tierHeld q slot < s.tierLimit q slot)) (s.pool.tier.filter (fun t => t.stack == q && t.set == set))
        (fun w => ⟨q, set, w, m, slot, dirty, true, tag, c⟩) dirty line

/-- Drop a line's tier copy (R664). -/
def State.tierDrop (s : State) (line : Nat) : State :=
  { s with pool.tier := s.pool.tier.filter (fun t => s.tierFind line != some t) }

/-- Set REF on the tier copy of a line. -/
def State.tierRef (s : State) (line : Nat) : State :=
  match s.tierFind line with
  | some t => { s with pool.tier := s.pool.tier.map (fun x => if x == t then { x with ref := true } else x) }
  | none => s

end Sys2Proof.Machine
end

