-- ==== Sys2Proof/Machine/Gate.lean ====
section
/-! DEFINITION. The DDR sealing gate: failures, the write-combining buffer, counter blocks and re-encryption, and the accesses
it serves. -/

namespace Sys2Proof

/-- Pool address of a packet: this device's own basket slot aliases the local pool (R33). -/
def poolAddr (a : Nat) : Nat := a % 0x040000000000

/-- The lines of a packet in local pool line numbers. -/
def Packet.poolLines (p : Packet) : List Nat := ({ p with addr := poolAddr p.addr } : Packet).lines

/-- Bytes of a line with a packet's enabled bytes merged in (R139, R242). -/
def Packet.merge (p : Packet) (line : Nat) (old : Line) : Line :=
  lineOf ((List.range 64).map (fun i =>
    match p.writes.find? (fun w => w.1 == 64 * line + i) with
    | some w => w.2
    | none => lineByte old i))

/-- The packet enables every byte of a line. -/
def Packet.covers (p : Packet) (line : Nat) : Bool := p.enabledIn line 1 == 64

end Sys2Proof

namespace Sys2Proof.Machine

/-! ### Failures (R158-R165, R658) -/

/-- The HBM line of a tier copy cannot be read (R158, R177): its stack and pseudo-channel. -/
def State.tierLost (s : State) (line : Nat) : Option (Nat × Nat) :=
  match s.tierFind line with
  | some t =>
    if s.hbmLost t.stack (s.wayAddr t) then some (t.stack, (Config.pseudoChannel t.stack (s.wayAddr t)).val) else none
  | none => none

/-- The element of a failed line: the level and index of R517 for a TREE_FAILURE, else the block. -/
def State.failElement (s : State) (g line code : Nat) : Nat :=
  let blk := line / 64
  let lv := (s.gate g).poison.get ((s.gate g).poisonPages.get 0 (blk / 512)) blk
  if code == 0x0202 then treeElement false lv (if lv == 0 then blk else s.leafOf blk / 8 ^ lv) else blk % 2 ^ 32

/-- The fault report of a failed line (R158, R517). -/
def State.failFault (s : State) (g line code : Nat) (v : Option Nat) : FaultReport :=
  let e := s.failElement g line code
  if code == 0x0200 then mkFault 2 .integrity code (gateUnit g) e v
  else if code == 0x0201 then
    match s.tierLost line with
    | some (q, pc) => mkFault 5 (.poisonedHbm pc) code (stackUnit q) pc v
    | none => mkFault 4 .poisonedDdr code (gateUnit g) e v
  else if code == 0x0202 then mkFault 3 .treeFailure code (gateUnit g) e v
  else mkFault 4 .contained code (gateUnit g) e v

/-- Record one failing line (R160): the error log of the glove's VF, SEA_FIRST_FAIL and SEA_FAIL_COUNT, and the report. -/
def State.recordFail (s : State) (g line slot code : Nat) : State :=
  let r := s.failFault g line code (if slot < 1024 then some slot else none)
  let s := s.modGate g (fun x =>
    if x.failValid then { x with failCount := satAdd 65535 x.failCount 1 }
    else { x with failValid := true, failCount := 0, failCode := code, failSlot := slot, failLine := line })
  let s := match (if slot < 1024 then s.vfOf slot else none) with
    | some f => (s.errLog f 2 code 1 (64 * line) f.fn f.link slot).modUsage slot (fun u => { u with integ := u.integ + 1 })
    | none => s
  s.report r

def State.recordFails (s : State) (g slot code : Nat) (ls : List Nat) : State :=
  ls.foldl (fun s l => s.recordFail g l slot code) s

/-! ### Opening a line from the tier or DDR (R119, R120, R158, R170) -/

/-- A sealed line and its MAC open under a counter block, or fail with INTEGRITY_FAILURE. -/
def State.openSealed (s : State) (line slot : Nat) (ctr : Ctr) (c : Line) (m : BitVec 64) : Line × Nat :=
  let k := (s.slot slot).key
  let g := s.slotGlove slot
  let mi := ctr.minors.get 0 (line % 64)
  let b := s.basketLine line
  if lineMac k g ctr.gen b ctr.major mi c == m then (cipher k g ctr.gen b ctr.major mi c, 0)
  else (Config.failedLine line, 0x0200)

/-- Read and open one channel's copy of a line: POISONED_LINE on an uncorrectable error of the line or of a MAC line read with it. -/
def State.openFrom (s : State) (ch line slot : Nat) (ctr : Ctr) : Line × Nat :=
  let ma := (s.macAddr line).1
  let held := (s.gate (s.owner (line / 64))).macs.has ma
  if s.ddrBadAt ch (s.lineAddr line) || (!held && s.ddrBadAt ch ma) then (Config.failedLine line, 0x0201)
  else s.openSealed line slot ctr (s.ddrLine ch (s.lineAddr line)) (s.macIn line (s.macLineOf ch line))

/-- The copies of a line in the order they are tried (R170). -/
def State.copies (s : State) (g : Nat) : List Nat :=
  if s.boot.cfg.mirror then
    let own := s.gate g
    let p := partner g
    let alive (c : Nat) : Bool := !(s.gate c).retired
    (if own.suspect || own.retired then [p, g] else [g, p]).filter alive
  else if (s.gate g).retired then [] else [g]

/-- The slots that reading a line and its MAC line takes (R153). -/
def State.readSlotsOf (s : State) (ch line : Nat) : State :=
  let ma := (s.macAddr line).1
  let held := (s.gate (s.owner (line / 64))).macs.has ma
  let s := s.slotWant ch (s.chanAddr ch (s.lineAddr line))
  if held then s else s.slotWant ch (s.chanAddr ch ma)

/-- A MAC line that has verified a line stays in the counter cache (R131). -/
def State.keepMac (s : State) (g ch line : Nat) : State :=
  if (s.gate g).macs.has (s.macAddr line).1 then s else s.macPut g (s.macAddr line).1 (s.macLineOf ch line) false

/-- Open a line from DDR (R170): the first good copy; a bad copy met before it is rewritten and a corrected fault reported. -/
def State.openDdr (s : State) (g line slot : Nat) (ctr : Ctr) : (Line × Nat) × State :=
  match s.copies g with
  | [] => ((Config.failedLine line, 0x0203), s)
  | [a] =>
    let r := s.openFrom a line slot ctr
    let s := s.readSlotsOf a line
    (r, if r.2 == 0 then s.keepMac g a line else s)
  | a :: b :: _ =>
    let r := s.openFrom a line slot ctr
    let s := s.readSlotsOf a line
    if r.2 == 0 then (r, s.keepMac g a line)
    else
      let r2 := s.openFrom b line slot ctr
      let s := s.readSlotsOf b line
      if r2.2 == 0 then
        let c := s.ddrLine b (s.lineAddr line)
        let ml := s.macLineOf b line
        (r2, (((s.ddrPut a (s.lineAddr line) c).ddrPut a (s.macAddr line).1 ml).keepMac g b line).corrected 4 0x0040 (gateUnit a) 0)
      else (r, s)

/-- The sealed line a gate still holds in its write queue (R140 step 5, R149). -/
def State.queuedSeal (s : State) (g line : Nat) : Option (Line × BitVec 64) :=
  (s.net.outst.reverse.find? (fun r => r.ctx == .gateFill g line && r.pkt.ackReq)).map
    (fun r => (r.pkt.data.headD 0, r.pkt.metaw))

/-- The line is in the write-combining buffer. -/
def State.wcbFind (s : State) (g line : Nat) : Option WcbLine := (s.gate g).wcb.find? (fun w => w.line == line)

/-- The current generation of a line's page. -/
def State.genOf (s : State) (line : Nat) : Nat := (s.own (line / 32768)).gen

/-- A line that was never written since its page was last released, or since its block was initialised, reads as zeros
(R27, R123). -/
def State.neverWritten (s : State) (line : Nat) (ctr : Ctr) : Bool :=
  ctr.gen != s.genOf line || (ctr.major == 0 && ctr.minors.get 0 (line % 64) == 0)

/-- Open a line below the write-combining buffer: zeros where nothing was written, then the gate's write queue, the tier and DDR
(R148). -/
def State.openLine (s : State) (g line slot : Nat) (ctr : Ctr) : (Line × Nat) × State :=
  if s.neverWritten line ctr then ((0, 0), s)
  else
    match s.queuedSeal g line with
    | some (c, m) => (s.openSealed line slot ctr c m, s)
    | none =>
      match s.tierFind line with
      | some t =>
        if s.tierFenced t.stack t.set then ((Config.failedLine line, 0x0202), s)
        else if (s.tierLost line).isSome then ((Config.failedLine line, 0x0201), s)
        else (s.openSealed line slot ctr t.data t.mac, s.tierRef line)
      | none => s.openDdr g line slot ctr

/-! ### Counter blocks (R131-R134) -/

/-- The counter block a gate holds verified. -/
def State.ctrHeld (s : State) (g blk : Nat) : Option Ctr :=
  if (s.gate g).ccache.has blk then some ((s.gate g).ccache.get ({}, false) blk).1 else none

/-- Node requests a gate may have outstanding to one other gate (R135). -/
def mqMax : Nat := 16

/-- A gate has room for one more node request to a unit (R135). -/
def State.mqRoom (s : State) (g u : Nat) : Bool :=
  decide ((s.net.outst.filter (fun r => r.unit == gateUnit g && r.pkt.dest == u && r.pkt.op.cls == 3)).length < mqMax)

/-- Send a node request of a DDR gate, or keep it until its gate answers an earlier one (R135). -/
def State.nodeRequest (s : State) (g : Nat) (c : ReqCtx) (p : Packet) : State :=
  if s.mqRoom g p.dest && !(s.gate g).mqWait.any (fun e => e.2.dest == p.dest) then s.request c p none
  else s.modGate g (fun x => { x with mqWait := x.mqWait ++ [(c, p)] })

/-- Send the first waiting node request whose gate has room (R135). -/
def State.pumpNodes (s : State) (g : Nat) : State :=
  match (s.gate g).mqWait.find? (fun e => s.mqRoom g e.2.dest) with
  | some e => (s.modGate g (fun x => { x with mqWait := eraseFirst (· == e) x.mqWait })).request e.1 e.2 none
  | none => s

/-- A metadata request of a DDR gate (R133, R134). -/
def mqPacket (op : POp) (g u addr : Nat) (data : List Line) : Packet :=
  { op := op, vc := 6, dest := u, destKnot := unitKnot u, initUnit := gateUnit g, initKnot := unitKnot (gateUnit g), addr := addr,
    len := if op == .mqMac then 8 else 64, world := 2, ackReq := op == .mqWr, data := data }

/-- Start the write-back of a dirty counter block (R134): the content to its HBM owner first. The block stays in the cache, clean,
until its parent has the new MAC. -/
def State.evictCtr (s : State) (g blk : Nat) : State :=
  let e := (s.gate g).ccache.get ({}, false) blk
  if e.2 then
    let (q, a) := s.ctrAddr blk
    (s.modGate g (fun x => { x with ccache := x.ccache.set blk (e.1, false) })).nodeRequest g (.gateEvict g blk)
      (mqPacket .mqWr g (hbmOwner q a) a [packCtr e.1])
  else s.modGate g (fun x => { x with ccache := x.ccache.del blk })

/-- A counter block is put into the cache. When the cache is full, the lowest-numbered other block leaves whose re-encryption is
not under way (R131, R140; log entry 11). -/
def State.ccPut (s : State) (g blk : Nat) (c : Ctr) (dirty : Bool) : State :=
  let x := s.gate g
  let s := match (if x.ccache.length + x.macs.length + x.olines.length < ccLines || x.ccache.has blk then none
      else x.ccache.find? (fun e => !x.reencs.any (fun r => r.block == e.1))) with
    | some v => s.evictCtr g v.1
    | none => s
  s.modGate g (fun x => { x with ccache := x.ccache.set blk (c, dirty || (x.ccache.get (({} : Ctr), false) blk).2) })

/-- The ownership entry of a page in the gate's counter cache (R122, R131). -/
def State.ownHeld (s : State) (g p : Nat) : Option Own :=
  if (s.gate g).olines.has (p / 8) then some (unpackOwn (word64 ((s.gate g).olines.get 0 (p / 8)) (p % 8))) else none

/-- Enter a block in the poison list with the level that failed, or its whole page when the list is full; every buffered line
of what is poisoned is lost (R163, R658). -/
def State.poison (s : State) (g blk level : Nat) : State :=
  let full := decide (256 ≤ (s.gate g).poison.length)
  let hit (l : Nat) : Bool := if full then l / 32768 == blk / 512 else l / 64 == blk
  let lost := if full then s.pool.gates.flatMap (fun e => (e.2.wcb.filter (fun w => hit w.line)).map (fun w => (e.1, w)))
    else ((s.gate g).wcb.filter (fun w => hit w.line)).map (fun w => (g, w))
  let drop (x : Gate) : Gate :=
    { x with
      wcb := x.wcb.filter (fun w => !hit w.line)
      walks := x.walks.map (fun w => { w with leaving := w.leaving.filter (fun l => !hit l) })
      reencs := x.reencs.filter (fun r => !hit (64 * r.block)) }
  let s := s.modGate g (fun x =>
    { drop x with
      poison := if full then x.poison else x.poison.set blk level
      poisonPages := if full then x.poisonPages.set (blk / 512) (max level (x.poisonPages.get 0 (blk / 512))) else x.poisonPages })
  let s : State := if full then { s with pool.gates := s.pool.gates.map (fun e => (e.1, drop e.2)) } else s
  let s := (lost.foldl (fun s e => s.recordFail e.1 e.2.line e.2.slot 0x0202) s).refetched (· == .counter g blk) 0x0202
  if full then s.contained 3 0x0202 (gateUnit g) (treeElement false 3 (blk / 512)) none else s

/-- A block answers TREE_FAILURE at once: it is in its gate's poison list, or its page was poisoned whole by any gate (R163). -/
def State.poisoned (s : State) (g blk : Nat) : Bool :=
  (s.gate g).poison.has blk || s.pool.gates.any (fun e => e.2.poisonPages.has (blk / 512))

/-- Change the walk of a block. -/
def State.modWalk (s : State) (g blk : Nat) (f : Walk → Walk) : State :=
  s.modGate g (fun x => { x with walks := x.walks.map (fun w => if w.block == blk then f w else w) })

def State.walkOf (s : State) (g blk : Nat) : Option Walk := (s.gate g).walks.find? (fun w => w.block == blk)

/-- The block has a walk. -/
def State.ensureWalk (s : State) (g blk : Nat) : State :=
  if (s.walkOf g blk).isSome then s else s.modGate g (fun x => { x with walks := x.walks ++ [{ block := blk }] })

/-- Ask the owner of a line of the path of a block for it (R133): `level` 0 is the counter block itself. A block whose owner is fenced is
poisoned (R521; log entry 104). -/
def State.fetchNode (s : State) (g blk level : Nat) : State :=
  let (u, a) := if level == 0 then (let (q, a) := s.ctrAddr blk; (hbmOwner q a, a))
    else s.parentAt false (level - 1) (s.leafOf blk / 8 ^ (level - 1))
  if s.fenced u then (s.poison g blk level).modWalk g blk (fun w => { w with fetch := false, path := [] })
  else
    (s.modWalk g blk (fun w => { w with fetch := true, level := level })).nodeRequest g (.gateMeta g blk level)
      (mqPacket .mqRd g u a [])

/-- A buffered line is to leave once its counter block is there: its fetch starts unless it is under way (R125). -/
def State.leaveLater (s : State) (g line : Nat) : State :=
  let blk := line / 64
  let s := (s.ensureWalk g blk).modWalk g blk (fun w => { w with leaving := w.leaving.filter (· != line) ++ [line] })
  if ((s.walkOf g blk).map Walk.fetch).getD true then s else s.fetchNode g blk 0

/-! ### Leaving the write-combining buffer (R124, R125, R138, R140, R145) -/

/-- Send a sealed line to the tier side, or straight to DDR for a glove whose limit is 0 and whose line is not in the tier (R149). -/
def State.sendSealed (s : State) (g line slot : Nat) (c : Line) (m : BitVec 64) (dirty : Bool) : State :=
  let q := g / 4
  if s.tierLimit q slot == 0 && (s.tierFind line).isNone && !s.net.outst.any (fun r => r.ctx == .gateFill g line) then (if dirty then s.ddrStore line c m else s)
  else
    s.request (.gateFill g line)
      { op := .tierFill, vc := 6, dest := stackUnit q, destKnot := unitKnot (stackUnit q), initUnit := gateUnit g,
        initKnot := unitKnot (gateUnit g), addr := 64 * line, len := 64, world := 2, ackReq := dirty, ctx := slot,
        metaw := m, data := [c] } none

/-- Seal a plaintext line under counter values and send it. -/
def State.sealLine (s : State) (g line slot gen major minor : Nat) (d : Line) : State :=
  let k := (s.slot slot).key
  let n := s.slotGlove slot
  let b := s.basketLine line
  let c := cipher k n gen b major minor d
  s.sendSealed g line slot c (lineMac k n gen b major minor c) true

/-- Take a line out of the buffer. -/
def State.wcbDrop (s : State) (g line : Nat) : State :=
  s.modGate g (fun x => { x with wcb := x.wcb.filter (fun w => w.line != line) })

/-- A line sealed in phase B: to DDR with its MAC line, as a foreground write; a line that the tier holds, or is about to hold, is
brought up to date there (R140 step 4, R148). -/
def State.sealStaged (s : State) (g line slot gen major : Nat) (d : Line) : State :=
  let k := (s.slot slot).key
  let n := s.slotGlove slot
  let b := s.basketLine line
  let c := cipher k n gen b major 0 d
  let m := lineMac k n gen b major 0 c
  if (s.tierFind line).isSome || s.net.outst.any (fun r => r.ctx == .gateFill g line) then s.sendSealed g line slot c m true
  else s.ddrStoreWith true line c m

/-- A line becomes a poison codeword in DDR, on both channels in the mirrored layout, and leaves the tier (R664). -/
def State.poisonLine (s : State) (g line : Nat) : State :=
  (s.copies g).foldl (fun s ch => s.ddrPoison ch (s.lineAddr line)) (s.tierDrop line)

/-- Re-encryption step 4 (R140, R664): the block moves to its next major value and its 64 lines are sealed again. -/
def State.reencrypt (s : State) (g blk slot : Nat) (ctr : Ctr) : State :=
  let s := s.ccPut g blk { major := ctr.major + 1, gen := ctr.gen, minors := [] } true
  let s := (List.range 64).foldl (fun s d =>
    let line := 64 * blk + d
    match s.wcbFind g line with
    | some w =>
      (if w.bad then s.poisonLine g line else s.sealStaged g line w.slot ctr.gen (ctr.major + 1) w.data).wcbDrop g line
    | none =>
      let (r, s) := s.openLine g line slot ctr
      if r.2 == 0 then s.sealStaged g line slot ctr.gen (ctr.major + 1) r.1
      else (s.recordFail g line slot r.2).poisonLine g line) s
  s.modGate g (fun x =>
    { x with reencs := x.reencs.filter (fun r => r.block != blk), reencCount := (x.reencCount + 1) % 2 ^ 32 })

/-- Re-encryption step 1 (R140, R142, R143): the line stays, marked as waiting; a free staging buffer starts phase A, which is
omitted when all 64 lines are in the buffer. -/
def State.startReenc (s : State) (g : Nat) (w : WcbLine) (ctr : Ctr) : State :=
  let blk := w.line / 64
  let s := s.modGate g (fun x =>
    { x with wcb := x.wcb.map (fun v => if v.line == w.line then { v with waiting := true } else v) })
  if (s.gate g).reencs.any (fun r => r.block == blk) then s
  else if 4 ≤ (s.gate g).reencs.length then s
  else
    let here := ((s.gate g).wcb.filter (fun v => v.line / 64 == blk)).length
    if here == 64 then s.reencrypt g blk w.slot ctr
    else s.modGate g (fun x => { x with reencs := x.reencs ++ [⟨blk, w.line, false, 64 - here⟩] })

/-- The largest major counter (R145). -/
def majorMax : Nat := 2 ^ 40 - 1

/-- A line leaves the buffer (R29, R125): its minor is raised and it is sealed; a minor of 127 starts a re-encryption; an exhausted
major or a retired channel loses the line. A line whose counter block is not held leaves once it has been fetched and verified. -/
def State.wcbLeave (s : State) (g : Nat) (w : WcbLine) : State :=
  let blk := w.line / 64
  if (s.gate g).retired && !s.boot.cfg.mirror then (s.wcbDrop g w.line).recordFail g w.line w.slot 0x0203
  else
    match s.ctrHeld g blk with
    | none => s.leaveLater g w.line
    | some c0 =>
      let gen := s.genOf w.line
      let c : Ctr := if c0.gen == gen then c0 else { gen := gen }
      let mi := c.minors.get 0 (w.line % 64)
      if mi < 127 then
        let c' := { c with minors := c.minors.set (w.line % 64) (mi + 1) }
        let s := s.ccPut g blk c' true
        (if w.bad then s.poisonLine g w.line else s.sealLine g w.line w.slot gen c.major (mi + 1) w.data).wcbDrop g w.line
      else if c.major == majorMax then
        let s := (s.wcbDrop g w.line).modGate g (fun x =>
          { x with exhausted := if x.exhausted.contains blk then x.exhausted else x.exhausted ++ [blk] })
        match (if w.slot < 1024 then s.vfOf w.slot else none) with
        | some f => s.farSide f 0x0205 1 (64 * w.line) f.fn f.link w.slot (gateUnit g)
        | none => s
      else s.startReenc g w c

/-- Lines the buffer holds (R136). -/
def wcbLines : Nat := 4096

/-- A buffered line is on its way out: it waits for its counter block. -/
def State.wcbLeaving (s : State) (g line : Nat) : Bool := (s.gate g).walks.any (fun w => w.leaving.contains line)

/-- Make ways free until the buffer can take `want` more lines: the least recently written line that is not waiting leaves (R138); the
lines in `keep` stay. The 4,096 lines are one set (DESIGN CHOICE, log entry 103). -/
def State.wcbRoom (s : State) (g want : Nat) (keep : List Nat) : Nat → State
  | 0 => s
  | n + 1 =>
    if (s.gate g).wcb.length + want ≤ wcbLines then s
    else
      match (s.gate g).wcb.find? (fun w => !w.waiting && !keep.contains w.line && !s.wcbLeaving g w.line) with
      | some w => (s.wcbLeave g w).wcbRoom g want keep n
      | none => s

/-- Put a plaintext line into the buffer; the most recently written line is last (R138). `bad` says that its data came poisoned
(R269). -/
def State.wcbPut (s : State) (g line slot glove : Nat) (d : Line) (bad : Bool) : State :=
  let wait := match s.wcbFind g line with
    | some w => w.waiting
    | none => false
  s.modGate g (fun x =>
    { x with wcb := x.wcb.filter (fun w => w.line != line) ++ [⟨line, d, slot, glove, wait, bad⟩] })

/-! ### Accesses (R122-R124, R137-R139, R260) -/

/-- The outcome of trying the first packet of a block: served, or it waits for the ownership line, for metadata, for a tier lookup, for
a way of the buffer, or behind a lock. -/
inductive Tried where
  | done (s : State)
  | needOwn (s : State)
  | needCtr (s : State)
  | needTier (s : State)
  | needRoom (s : State)
  | locked (s : State)

/-- Answer an access whose every line fails: data with EP for a read, an ACK with the code for a write; each line is recorded
(R159, R160). A failed MEM_RD_LOCK still locks its line: the Cuff unlocks it (R323). -/
def State.failAll (s : State) (g : Nat) (p : Packet) (slot code : Nat) : State :=
  let ls := p.poolLines
  let s := s.recordFails g slot code ls
  match p.op with
  | .memRd => s.answerData p (p.addr / 64) (ls.map (fun l => (Config.failedLine l, code)))
  | .memRdLock =>
    (s.modGate g (fun x => { x with locks := x.locks ++ ls.map (fun l => ⟨l, p.initUnit, p.tag⟩) })).answerData p (p.addr / 64)
      (ls.map (fun l => (Config.failedLine l, code)))
  | _ => s.answer p code

/-- The lines of a read, each from the buffer or opened below it, and the state after. -/
def State.readLines (s : State) (g slot : Nat) (ctr : Ctr) : List Nat → List (Line × Nat) × State
  | [] => ([], s)
  | l :: ls =>
    let (r, s) := match s.wcbFind g l with
      | some w => if w.bad then ((w.data, 0x0201), s.recordFail g l slot 0x0201) else ((w.data, 0), s)
      | none =>
        let (r, s) := s.openLine g l slot ctr
        (r, if r.2 == 0 then s else s.recordFail g l slot r.2)
    let (rs, s) := s.readLines g slot ctr ls
    (r :: rs, s)

/-- Lines opened from DDR on a tier miss fill the tier (R149). -/
def State.fillMissed (s : State) (g slot : Nat) (ctr : Ctr) (ls : List Nat) : State :=
  ls.foldl (fun s l =>
    if (s.wcbFind g l).isSome || s.neverWritten l ctr || (s.queuedSeal g l).isSome || (s.tierFind l).isSome then s
    else
      match s.copies g with
      | [] => s
      | ch :: _ =>
        if (s.openFrom ch l slot ctr).2 == 0 then
          s.sendSealed g l slot (s.ddrLine ch (s.lineAddr l)) (s.macIn l (s.macLineOf ch l)) false
        else s) s

/-- Write the lines of a packet (R29, R139): the first failing code, and the state after. `q` is the packet in pool addresses. A packet
whose data are poisoned leaves its lines poisoned until a full-line write (R162, R269; log entry 119). -/
def State.writeLines (s : State) (g slot : Nat) (ctr : Ctr) (q : Packet) : List Nat → Nat × State
  | [] => (0, s)
  | l :: ls =>
    let (r, s) := match s.wcbFind g l with
      | some w => if w.bad && !q.covers l then ((w.data, 0x0201), s.recordFail g l slot 0x0201) else ((w.data, 0), s)
      | none =>
        if q.covers l then ((0, 0), s)
        else
          let (r, s) := s.openLine g l slot ctr
          (r, if r.2 == 0 then s else s.recordFail g l slot r.2)
    let s := if r.2 == 0 then s.wcbPut g l slot q.glove (q.merge l r.1) q.ep else s
    let (c, s) := s.writeLines g slot ctr q ls
    (if r.2 == 0 then c else r.2, s)

/-- Lines of a packet that the gate must open from below its buffer: all missing lines of a read, the missing narrow lines of a
write. -/
def State.mustOpen (s : State) (g : Nat) (q : Packet) : List Nat :=
  q.lines.filter (fun l =>
    (s.wcbFind g l).isNone && (q.op == .memRd || q.op == .memRdLock || !q.covers l))

/-- Release a lock and answer its unlock. -/
def State.dropLock (s : State) (g line unit : Nat) : State :=
  s.modGate g (fun x => { x with locks := x.locks.filter (fun k => !(k.line == line && k.unit == unit)) })

/-- The lines of a write that the buffer does not hold. -/
def State.newLines (s : State) (g : Nat) (q : Packet) : List Nat := q.lines.filter (fun l => (s.wcbFind g l).isNone)

/-- Serve an access whose ownership entry is `own`, in pool addresses: `tiered` says that its tier lookup has answered. -/
def State.serveOwned (s : State) (g : Nat) (p : Packet) (own : Own) (tiered : Bool) : Tried :=
  let q : Packet := { p with addr := poolAddr p.addr }
  let blk := q.addr / 4096
  let line := q.addr / 64
  let x := s.gate g
  let s1 := if p.op == .memWrUnlock then s.dropLock g line p.initUnit else s
  match s.reqSlot p with
  | none => .done (s1.answer p 0x0206)
  | some slot =>
    if own.state == 3 && s.poisoned g blk then .done (s1.failAll g p slot 0x0202)
    else if own.state != 1 || own.owner != slot then .done (s1.answer p 0x0206)
    else if x.retired && !s.boot.cfg.mirror then .done (s1.failAll g p slot 0x0203)
    else if s.poisoned g blk then .done (s1.failAll g p slot 0x0202)
    else if p.op.cls == 0 && x.exhausted.contains blk then .done (s1.answer p 0x0205)
    else
      let fresh := if p.op.cls == 0 then (s.newLines g q).length else 0
      let s := s.wcbRoom g fresh q.lines wcbLines
      let need := s.mustOpen g q
      let ctr := (s.ctrHeld g blk).getD {}
      let below := need.filter (fun l => !s.neverWritten l ctr && (s.queuedSeal g l).isNone)
      if fresh != 0 && decide (wcbLines < (s.gate g).wcb.length + fresh) then .needRoom s
      else if !need.isEmpty && (s.ctrHeld g blk).isNone then .needCtr s
      else if !below.isEmpty && !tiered then .needTier s
      else
        match p.op with
        | .memRd =>
          let (rs, s') := s.readLines g slot ctr q.lines
          .done ((s'.fillMissed g slot ctr below).answerData p (p.addr / 64) rs)
        | .memRdLock =>
          let (rs, s') := s.readLines g slot ctr [line]
          .done (((s'.fillMissed g slot ctr below).modGate g
            (fun x => { x with locks := x.locks ++ [⟨line, p.initUnit, p.tag⟩] })).answerData p (p.addr / 64) rs)
        | _ =>
          let s := if p.op == .memWrUnlock then s.dropLock g line p.initUnit else s
          let (c, s') := s.writeLines g slot ctr q q.lines
          .done ((s'.fillMissed g slot ctr below).answer p c)

/-- Try one access at its owning gate (R122, R137, R260). -/
def State.tryAccess (s : State) (g : Nat) (p : Packet) (tiered : Bool) : Tried :=
  let line := poolAddr p.addr / 64
  let page := poolAddr p.addr / 4096 / 512
  let x := s.gate g
  let unlocks := p.op == .memWrUnlock || p.op == .unlock
  let held := x.locks.any (fun k => k.line == line && k.unit == p.initUnit)
  if unlocks && !held then .done (s.answer p 0x0032)
  else if p.op == .unlock then .done ((s.dropLock g line p.initUnit).answer p 0)
  else if !unlocks && x.locks.any (fun k => p.poolLines.contains k.line) then .locked s
  else
    match s.ownHeld g page with
    | none => .needOwn s
    | some own => s.serveOwned g p own tiered

/-- Ask the tier side for the lines of the first waiting packet (R148). -/
def State.lookupTier (s : State) (g blk : Nat) (p : Packet) : State :=
  let u := stackUnit (g / 4)
  (s.modWalk g blk (fun w => { w with tier := true })).request (.gateTier g blk)
    { op := .tierLookup, vc := 6, dest := u, destKnot := unitKnot u, initUnit := gateUnit g,
      initKnot := unitKnot (gateUnit g), addr := poolAddr p.addr, len := p.len, world := 2 } none

/-- Ask the owner of a page's ownership line for it (R122); one fetch serves every block that waits for the line. -/
def State.fetchOwn (s : State) (g blk : Nat) : State :=
  let l := blk / 512 / 8
  let (q, a) := s.tableAddr l
  let s' := s.modWalk g blk (fun w => { w with ownFetch := true })
  if s.net.outst.any (fun r => r.ctx == .gateOwn g l) || (s.gate g).mqWait.any (fun e => e.1 == .gateOwn g l) then s'
  else s'.nodeRequest g (.gateOwn g l) (mqPacket .mqRd g (hbmOwner q a) a [])

/-- The gate that owns a page's ownership line is fenced. -/
def State.ownFenced (s : State) (blk : Nat) : Bool :=
  let (q, a) := s.tableAddr (blk / 512 / 8)
  s.fenced (hbmOwner q a)

/-- An access whose ownership line cannot be had fails with TREE_FAILURE (R521). -/
def State.failOwn (s : State) (g : Nat) (p : Packet) : State :=
  let s := if p.op == .memWrUnlock then s.dropLock g (poolAddr p.addr / 64) p.initUnit else s
  match s.reqSlot p with
  | none => s.answer p 0x0206
  | some slot => s.failAll g p slot 0x0202

/-- Serve the packets of a block in order until one has to wait (R25). -/
def State.drainWalk (s : State) (g blk : Nat) (tiered : Bool) : Nat → State
  | 0 => s
  | n + 1 =>
    match s.walkOf g blk with
    | none => s
    | some w =>
      match w.waiting with
      | [] =>
        if w.leaving.isEmpty && !w.fetch then s.modGate g (fun x => { x with walks := x.walks.filter (fun v => v.block != blk) }) else s
      | p :: rest =>
        let next (s : State) : State := s.modWalk g blk (fun v => { v with waiting := rest })
        match s.tryAccess g p tiered with
        | .done s' => (next s').drainWalk g blk false n
        | .locked s' => ((next s').modGate g (fun x => { x with parked := x.parked ++ [p] })).drainWalk g blk false n
        | .needOwn s' => if s'.ownFenced blk then (next (s'.failOwn g p)).drainWalk g blk false n else s'.fetchOwn g blk
        | .needCtr s' =>
          if ((s'.walkOf g blk).map Walk.fetch).getD false then s'
          else
            let s' := s'.fetchNode g blk 0
            if s'.poisoned g blk then s'.drainWalk g blk false n else s'
        | .needTier s' => s'.lookupTier g blk p
        | .needRoom s' => s'

/-- An access reaches its owning gate: it parks behind a lock of a line of its own or behind an access that parks for one (R25, R260),
or joins the packets of its block. -/
def State.enterGate (s : State) (g : Nat) (p : Packet) : State :=
  let ls := p.poolLines
  let blk := poolAddr p.addr / 4096
  let x := s.gate g
  let unlocks := p.op == .memWrUnlock || p.op == .unlock
  let behind := x.locks.any (fun k => ls.contains k.line) || x.parked.any (fun o => o.poolLines.any ls.contains)
  if !unlocks && behind then s.modGate g (fun x => { x with parked := x.parked ++ [p] })
  else if unlocks then
    -- the holder's own unlock is what every waiting access of the line waits for (R260)
    match s.tryAccess g p false, s.walkOf g blk with
    | .done s', _ => s'
    | _, some w => s.modWalk g blk (fun v => { v with waiting := p :: w.waiting })
    | _, none => (s.modGate g (fun x => { x with walks := x.walks ++ [{ block := blk, waiting := [p] }] })).drainWalk g blk false 3
  else
    match s.walkOf g blk with
    | some w => s.modWalk g blk (fun v => { v with waiting := w.waiting ++ [p] })
    | none =>
      (s.modGate g (fun x => { x with walks := x.walks ++ [{ block := blk, waiting := [p] }] })).drainWalk g blk false 3

/-- Blocks whose packets wait for nothing outstanding are served: a way of the buffer may have become free (R143). -/
def State.retryWalks (s : State) (g : Nat) : State :=
  ((s.gate g).walks.filter (fun w => !w.waiting.isEmpty && !w.fetch && !w.ownFetch && !w.tier)).foldl
    (fun s w => s.drainWalk g w.block false (w.waiting.length + 2)) s

/-- What waits at a gate goes on: node requests, blocks, then parked accesses in arrival order (R135, R143, R260, R321). -/
def State.unpark (s : State) (g : Nat) : State :=
  let s := (s.pumpNodes g).retryWalks g
  (s.gate g).parked.foldl (fun s p => s.enterGate g p) (s.modGate g (fun x => { x with parked := [] }))

/-- Packets waiting on a block fail when its counter path fails. -/
def State.failWalk (s : State) (g blk level : Nat) : State :=
  let n := ((s.walkOf g blk).map (fun w => w.waiting.length)).getD 0
  ((s.poison g blk level).modWalk g blk (fun w => { w with fetch := false, tier := false, path := [] })).drainWalk g blk false (n + 1)

end Sys2Proof.Machine
end

