-- ==== Sys2Proof/Machine/Check.lean ====
section
/-! DEFINITION. The checkers (R207): rule regions, peer windows and translation, shared by the Cuffs, the Finger engines and the
queue managers. -/

namespace Sys2Proof.Machine

/-- A request at a checker: `len` is 0 for a zero-length read, which is checked as a read of its line (R209). -/
structure Check where
  glove : Nat
  world : Nat
  addr : Nat
  len : Nat
  rd : Bool
  wr : Bool
  atomic : Bool := false
deriving DecidableEq, Repr

/-- What the procedure of R209 decides: a fault with the line it names, host space behind the peer window of a slot, a device physical
address, a table line that cannot be read (R521), or a table line that must be read first (R201). -/
inductive Route where
  | fault (code line : Nat)
  | window (slot link fn glove host : Nat)
  | dev (addr : Nat)
  | failed (code : Nat)
  | miss (line : Nat)
deriving DecidableEq, Repr

/-- Lines of the request, as byte addresses. -/
def Check.lines (c : Check) : List Nat :=
  (List.range ((c.addr + max 1 c.len - 1) / 64 - c.addr / 64 + 1)).map (fun i => 64 * (c.addr / 64 + i))

/-- Read and write attributes of a region for a world (R203, R41). -/
def Region.reads (r : Region) (w : Nat) : Bool := if w == 0 then r.tr else if w == 1 then r.or else r.dr
def Region.writes (r : Region) (w : Nat) : Bool := if w == 0 then r.tw else if w == 1 then r.ow else r.dw

/-- The first line that the rule regions refuse (R209). -/
def ruleFault (rs : List Region) (c : Check) : Option Nat :=
  c.lines.find? (fun l =>
    match rs.find? (fun r => decide (r.start ≤ l) && decide (l < r.stop)) with
    | none => c.world != 2
    | some r => (c.rd && !r.reads c.world) || (c.wr && !r.writes c.world))

/-- The valid window that holds an address (R217), with its slot. -/
def Glove.windowAt (g : Glove) (a : Nat) : Option (Nat × Window) :=
  g.windows.find? (fun w => match w.2 with
    | .valid start len _ _ _ _ _ => decide (start ≤ a) && decide (a < start + len)
    | _ => false)

/-- A cleared window's tombstone holds an address (R221). -/
def Glove.tombstoneAt (g : Glove) (a : Nat) : Bool :=
  (g.windows.map Prod.snd).any (fun w => match w with
    | .tombstone start len => decide (start ≤ a) && decide (a < start + len)
    | _ => false)

/-! ### Translation caches (R200-R202) -/

/-- Number of a checker's translation cache: one for each Cuff link, Finger engine and queue manager. -/
def cacheKey (unit link : Nat) : Nat := if unitKind unit == 0 then 4096 + link else unit

/-- Entries a translation cache holds (R200). -/
def State.cacheSize (s : State) (unit link : Nat) : Nat :=
  if unitKind unit == 0 then (if s.twoX8 (link / 2) then 8192 else 16384) else 1024

/-- The glove and entry index at a table-space offset of the page tables. -/
def State.tableAt (s : State) (off : Nat) : Option (Nat × Nat) :=
  ((List.range 1024).find? (fun g => s.ptBytes g != 0 && decide (s.ptBase g ≤ off) && decide (off < s.ptBase g + s.ptBytes g))).map
    (fun g => (g, (off - s.ptBase g) / 8))

/-- The checker of a translation cache: its unit and its Cuff link. -/
def keyUnit (key : Nat) : Nat := if 4096 ≤ key then cuffUnit ((key - 4096) / 2) else key
def keyLink (key : Nat) : Nat := key - 4096

/-- A page-table entry's bits (R196). -/
def unpackPte (v : Nat) : Pte :=
  { group := bits v 47 40, page := bits v 28 8, home := bits v 3 2, readOnly := bitAt v 1, valid := bitAt v 0 }

/-- The table line that holds a page-table entry. -/
def State.pteLine (s : State) (g i : Nat) : Nat := (s.ptBase g + 8 * i) / 64

/-- What a checker finds for a page-table entry: the entry, the code with which its line failed, or a miss. -/
inductive Found where
  | entry (e : Pte)
  | failed (code : Nat)
  | miss (line : Nat)
deriving DecidableEq, Repr

/-- A page-table entry as a checker sees it (R200, R201): from its cache, from the line that came back for its miss, or a miss. -/
def State.translate (s : State) (unit link g i : Nat) : Found × State :=
  let key := cacheKey unit link
  match (s.pool.tcaches.get [] key).find? (fun e => e.1 == g * 2 ^ 21 + i) with
  | some e => (.entry e.2, s)
  | none =>
    let l := s.pteLine g i
    match s.pool.tlines.find? (fun t => t.key == key && t.line == l) with
    | none => (.miss l, s)
    | some t =>
      let s : State := { s with pool.tlines := s.pool.tlines.filter (fun x => !(x.key == key && x.line == l)) }
      if t.code != 0 then (.failed t.code, s) else (.entry (unpackPte (word64 t.data ((s.ptBase g + 8 * i) / 8 % 8))), s)

/-- A table line comes back for a miss: the valid entries of its eight fill the cache (R201). -/
def State.fillTranslations (s : State) (key l : Nat) (d : Line) : State :=
  let cache := s.pool.tcaches.get [] key
  let fill := (List.range 8).filterMap (fun j =>
    match s.tableAt (64 * l + 8 * j) with
    | some (h, k) => if (unpackPte (word64 d j)).valid then some (h * 2 ^ 21 + k, unpackPte (word64 d j)) else none
    | none => none)
  let all := cache.filter (fun e => !fill.any (fun f => f.1 == e.1)) ++ fill
  { s with pool.tcaches := s.pool.tcaches.set key (all.drop (all.length - s.cacheSize (keyUnit key) (keyLink key))) }

/-- The end of the read of a table line, for a miss of a checker (R201, R521). -/
def State.tableBack (s : State) (key l code : Nat) (d : Line) : State :=
  let s := if code == 0 then s.fillTranslations key l d else s
  let hit : CopyOf → Bool
    | .translation unit link g i => cacheKey unit link == key && s.pteLine g i == l
    | _ => false
  ({ s with pool.tlines := s.pool.tlines ++ [⟨key, l, code, d⟩] } : State).refetched hit code

/-- A line of a glove's page table. -/
def State.tableLineOf (s : State) (g l : Nat) : Bool :=
  decide (s.ptBase g < 64 * l + 64) && decide (64 * l < s.ptBase g + s.ptBytes g)

/-- Drop a glove's entries from every translation cache (R202); reads of its table lines that are under way fill nothing any more. -/
def State.dropTranslations (s : State) (g : Nat) : State :=
  { s with
    pool.tcaches := s.pool.tcaches.map (fun e => (e.1, e.2.filter (fun x => x.1 / 2 ^ 21 != g)))
    pool.tlines := s.pool.tlines.filter (fun t => !s.tableLineOf g t.line)
    net.outst := s.net.outst.map (fun r => match r.ctx with
      | .tableRead _ l => if s.tableLineOf g l then { r with ctx := .other } else r
      | _ => r) }

/-- Empty the translation caches that `hit` picks (R521, R525, R568). -/
def State.dropCaches (s : State) (hit : Nat → Bool) : State :=
  { s with pool.tcaches := s.pool.tcaches.filter (fun e => !hit e.1), pool.tlines := s.pool.tlines.filter (fun t => !hit t.key) }

/-- Device physical address of a glove address through an entry (R198). -/
def State.physical (s : State) (e : Pte) (a : Nat) : Nat :=
  let p := e.page * 0x200000 + a % 0x200000
  if e.home == s.boot.cfg.pos then p else 0x100000000000 + e.home * 0x040000000000 + p

/-- The checking procedure (R209, R217, R221). -/
def State.check (s : State) (unit link : Nat) (c : Check) : Route × State :=
  let g := s.glove c.glove
  let line := 64 * (c.addr / 64)
  let span := match s.linkOf c.glove with
    | some l => s.span l
    | none => 0
  if span < c.addr + max 1 c.len then (.fault 0x0306 line, s)
  else
    match ruleFault g.rules c with
    | some l => (.fault 0x0300 l, s)
    | none =>
      match g.windowAt line with
      | some (slot, .valid start _ host target rd wr _) =>
        if c.atomic || (c.rd && !rd) || (c.wr && !wr) then (.fault 0x0307 line, s)
        else
          match s.vfOf target with
          | some f => (.window slot f.link f.fn target (host + (c.addr - start)), s)
          | none => (.fault 0x0307 line, s)
      | _ =>
        match s.translate unit link c.glove (c.addr / 0x200000) with
        | (.failed code, s) => (.failed code, s)
        | (.miss l, s) => (.miss l, s)
        | (.entry e, s) =>
          if !e.valid then (.fault (if g.tombstoneAt line then 0x0303 else 0x0304) line, s)
          else if c.wr && e.readOnly then (.fault 0x0305 line, s)
          else (.dev (s.physical e c.addr), s)

/-- A peer-window slot of a glove is closed for good (R55). -/
def State.windowClosed (s : State) (g slot : Nat) : Bool :=
  match (s.glove g).windows.get .empty slot with
  | .valid _ _ _ _ _ _ closed => closed
  | _ => false

/-- Read the table line of a miss (R201): on N0, by the stack controller of the line's stack, which is named the line by its table-space
offset (DESIGN CHOICE, log entry 117). A read already under way serves this miss too. -/
def State.fetchTable (s : State) (unit link l : Nat) : State :=
  let key := cacheKey unit link
  if s.net.outst.any (fun r => r.ctx == .tableRead key l) then s
  else
    let u := stackUnit (l % 4)
    s.request (.tableRead key l)
      { op := .memRd, vc := POp.vc .memRd 0, dest := u, destKnot := unitKnot u, initUnit := unit,
        initKnot := if unitKind unit == 0 then s.cuffKnot link u else unitKnot unit, addr := tableBase + 64 * l, len := 64,
        home := s.boot.cfg.pos } none

/-- The refusal of a Finger or queue-manager checker for a glove that is not OPEN (R660). -/
def State.notOpen (s : State) (g : Nat) : Option Nat :=
  match (s.glove g).state with
  | .opened => none
  | .keyPending => some 0x0104
  | _ => some 0x0101

/-- Report a fault of the procedure to the Crown (R211, R212). -/
def State.reportFault (s : State) (c : Check) (unit code line : Nat) : State :=
  s.violate { glove := c.glove, addr := line, code := code, world := c.world, write := c.wr, unit := unit }

end Sys2Proof.Machine
end

