-- ==== Sys2Proof/Machine/GateRows.lean ====
section
/-! DEFINITION. Commands of the sealing gates: metadata and tier packets, locks, the write-combining buffer, re-encryption and
ownership invalidation. -/

namespace Sys2Proof

/-- A packet in the row of an opcode: a reserved opcode stays (R244), any other is that of the row. -/
def Packet.asOp (p : Packet) (o : POp) : Packet := if p.op.cls == 6 then p else { p with op := o }

end Sys2Proof

namespace Sys2Proof.Machine

/-- A packet of a row reaches its target. -/
def State.arrive (s : State) (o : POp) (p : Packet) (f : Packet → State → State) : State :=
  s.atTarget (p.asOp o) (f (p.asOp o))

/-- Count a response at its initiator (R280): the bytes received, an error, and at the last response the latency. -/
def State.countResponse (s : State) (r : Req) (p : Packet) (last : Bool) : State :=
  let n := if p.op == .cplD || p.op == .mrD then r.pkt.enabledIn (p.addr / 64) p.data.length else 0
  let n := if r.pkt.op == .tierLookup then 64 * p.data.length else n
  let s := if n == 0 then s else s.countStat r.pkt (Stat.addRd r.pkt.targetClass n)
  let s := if p.status != 0 || p.ep then s.countStat r.pkt Stat.addErr else s
  let timed := r.pkt.op.cls == 1 || (r.pkt.op.cls == 0 && r.pkt.ackReq)
  if last && timed then s.countStat r.pkt (Stat.addLat (s.sys.now - r.time)) else s

/-- A response reaches its initiator: one for a tag ended under R272 is discarded and counted (R273), one for no request is
discarded; otherwise `f` uses it. -/
def State.atInitiator (s : State) (p : Packet) (f : Req → State → State) : State :=
  if s.net.dead.contains (p.dest, p.tag) then s.contained 1 0x004D p.dest 0 none
  else
    match s.reqOf p.dest p.tag with
    | some r => f r s
    | none => s

/-! ### HBM sealing gates and the tier side -/


def unpackRegion (v : Nat) : Region :=
  { start := bits v 41 0, stop := bits v 106 64, tr := bitAt v 48, tw := bitAt v 49, or := bitAt v 50, ow := bitAt v 51,
    dr := bitAt v 52, dw := bitAt v 53 }

def unpackWindow (v : Nat) : Window :=
  if bitAt v 204 then
    .valid (bits v 41 0) (bits v 106 64) (bits v 191 128) (bits v 201 192) (bitAt v 203) (bitAt v 202) false
  else .empty

/-- A list with element `i` replaced, grown by defaults where it is shorter. -/
def putAt {α : Type} (d : α) : List α → Nat → α → List α
  | [], 0, v => [v]
  | [], n + 1, v => d :: putAt d [] n v
  | _ :: xs, 0, v => v :: xs
  | x :: xs, n + 1, v => x :: putAt d xs n v

/-- The tables in force with a whole line replaced (R192). -/
def State.putTable (s : State) (l : Nat) (d : Line) : State :=
  let off := 64 * l
  if off < 0x1000000 then
    (List.range 8).foldl (fun s i => { s with pool.owns := s.pool.owns.set (8 * l + i) (unpackOwn (word64 d i)) }) s
  else if off < 0x1100000 then
    (List.range 4).foldl (fun s i => s.modGlove ((off - 0x1000000) / 0x400) (fun g =>
      { g with rules := putAt {} g.rules ((off - 0x1000000) % 0x400 / 16 + i)
                          (unpackRegion (word64 d (2 * i) + 2 ^ 64 * word64 d (2 * i + 1))) })) s
  else if off < 0x1180000 then
    (List.range 2).foldl (fun s i => s.modGlove ((off - 0x1100000) / 0x200) (fun g =>
      { g with windows := g.windows.set ((off - 0x1100000) % 0x200 / 32 + i)
                            (unpackWindow ((d.extractLsb' (256 * i) 256).toNat)) })) s
  else
    (List.range 8).foldl (fun s i =>
      match s.tableAt (off + 8 * i) with
      | some (g, k) => { s with pool.pts := s.pool.pts.set (g * 2 ^ 21 + k) (unpackPte (word64 d i)) }
      | none => s) s

/-- The stack and the address named by a packet to an HBM sealing gate or a stack controller. -/
def isStackCtl (u : Nat) : Bool := unitIdx u == 8

/-- A table line cannot be verified: the owning HBM gate reports it (R133, R517). -/
def State.tableFailed (s : State) (l level : Nat) : State :=
  let (q, a) := s.tableAddr l
  s.report (mkFault 3 .treeFailure 0x0202 (hbmOwner q a) (treeElement true level (l / 8 ^ level)) none)

/-- A line that a request names cannot be read. -/
def State.mqFail (s : State) (p : Packet) (code : Nat) : State := s.respond p .mrAck code 0 [] false

/-- MQ_RD: the owning HBM sealing gate reads a line, or the stack controller a root-store slot, and answers on Mr. A table line is verified up
the table branch first and stays in the gate's counter cache (R131, R201); a node comes from the counter cache or from HBM as it
is, and the DDR gate checks it (R133). -/
def execMqRd (p : Packet) (s : State) : Result :=
  .next (s.arrive .mqRd p (fun p s =>
    let q := unitQuad p.dest
    if isStackCtl p.dest then
      let slot := p.addr / 64
      match s.readRoot (decide (3984 ≤ slot)) (slot % 3984) with
      | (some d, s) => s.respond p .mrD 0 p.addr [d] false
      | (none, s) => s.mqFail p 0x0202
    else
      match s.hbmPlace q p.addr with
      | .table l =>
        match s.bring true 8 0 l with
        | (.inl d, s) => (s.respond p .mrD 0 (64 * (p.addr / 64)) [d] false).hcTrim (hgateOf q p.addr)
        | (.inr lv, s) => (s.tableFailed l lv).mqFail p 0x0202
      | .node b l i =>
        match s.hcHeld b l i with
        | some d => s.respond p .mrD 0 (64 * (p.addr / 64)) [d] false
        | none =>
          let s := s.hbmWant q p.addr
          if s.hbmLost q p.addr then s.mqFail p 0x0202 else s.respond p .mrD 0 (64 * (p.addr / 64)) [s.hbmRead q p.addr] false
      | _ =>
        let s := s.hbmWant q p.addr
        if s.hbmLost q p.addr then s.mqFail p 0x0202
        else s.respond p .mrD 0 (64 * (p.addr / 64)) (p.lines.map (fun l => s.hbmRead q (64 * l))) false))

/-- MQ_WR: the owning HBM sealing gate takes a line (R134): a table line or a node into its counter cache, dirty, and every other line
into its buffer, to be sealed under XTS (R136). A poisoned line is discarded (R269). -/
def execMqWr (p : Packet) (s : State) : Result :=
  .next (s.arrive .mqWr p (fun p s =>
    let q := unitQuad p.dest
    let d := p.data.headD 0
    let s := if p.ep then s
      else match s.hbmPlace q p.addr with
        | .table l => s.changeTable l (fun s => s.putTable l d)
        | .node b l i => s.hcPut b l i d true
        | _ => s.hbufPut q (64 * (p.addr / 64)) d
    s.answer p 0))

/-- MQ_MAC: the owner of the parent node takes one child's MAC and acknowledges (R134). ADDRESS is that of the MAC within the
node; at a stack controller it is that of the root-store slot (log entry 12). A parent that cannot be verified takes nothing, and the
acknowledgement says so (R130, R133). -/
def execMqMac (p : Packet) (s : State) : Result :=
  .next (s.arrive .mqMac p (fun p s =>
    let q := unitQuad p.dest
    let c := p.addr / 8 % 8
    let m := macAt (p.data.headD 0) c
    let up (b : Bool) (l i : Nat) : State :=
      match s.updateMac b l i c m with
      | (none, s) => (s.hcTrim (hgateOf q p.addr)).answer p 0
      | (some _, s) => s.answer p 0x0202
    if p.ep then s.answer p 0x0202
    else if isStackCtl p.dest then
      let slot := p.addr / 64
      if 3984 ≤ slot then up true 6 (slot - 3984) else up false (s.treeTop false) slot
    else
      match s.hbmPlace q p.addr with
      | .node b l i => up b l i
      | _ => s.answer p 0))

/-- TIER_LOOKUP: one MR_D for each line that hits, then one MR_ACK with the hit mask (R148, R239). -/
def execTierLookup (p : Packet) (s : State) : Result :=
  .next (s.arrive .tierLookup p (fun p s =>
    let hits := (p.poolLines.zipIdx).filterMap (fun (l, i) => (s.tierFind l).map (fun t => (i, l, t)))
    let s := hits.foldl (fun s (_, l, t) =>
      (s.hbmWant t.stack (s.wayAddr t)).inject { (p.response .mrD 0 (64 * l) [t.data] false) with metaw := t.mac }) s
    let mask := hits.foldl (fun m (i, _, _) => m + 2 ^ i) 0
    s.inject { (p.response .mrAck 0 0 [] false) with metaw := BitVec.ofNat 64 mask }))

/-- TIER_FILL: a sealed line is placed in the tier under the glove's share, or goes to DDR (R149). CONTEXT holds the Band slot
and ACK_REQ says that DDR's copy is stale (log entry 13). A poisoned line is not placed, and its sealed copy is lost (R269). -/
def execTierFill (p : Packet) (s : State) : Result :=
  .next (s.arrive .tierFill p (fun p s =>
    let line := poolAddr p.addr / 64
    if p.ep then
      let s := s.tierDrop line
      (if p.ackReq then (s.copies (s.owner (line / 64))).foldl (fun s ch => s.ddrPoison ch (s.lineAddr line)) s else s).answer p 0
    else (s.tierFill line p.ctx (p.data.headD 0) p.metaw p.ackReq).1.answer p 0))

/-- Channel byte address of the MAC line of a channel data address (R112). -/
def macLineAddr (a : Nat) : Nat :=
  a / 0x1200000 * 0x1200000 + 0x1000000 + a % 0x1200000 / 0x1000 * 0x200 + a % 0x1000 / 512 * 64

/-- MIRROR_WR: the partner writes the ciphertext and the MAC line at the same channel address (R169). Poisoned data
become poison codewords (R269; log entry 105). -/
def execMirrorWr (p : Packet) (s : State) : Result :=
  .next (s.arrive .mirrorWr p (fun p s =>
    let ch := 4 * unitQuad p.dest + unitIdx p.dest
    if p.ep then ((s.ddrPoison ch p.addr).ddrPoison ch (macLineAddr p.addr)).answer p 0
    else
      let s := s.ddrPut ch p.addr (p.data.headD 0)
      let s := match p.data[1]? with
        | some m => s.ddrPut ch (macLineAddr p.addr) m
        | none => s
      s.answer p 0))

/-! ### Responses on Mr -/

/-- Serve what waits on a block and what parks behind it. -/
def State.drainBlock (s : State) (g blk : Nat) (tiered : Bool) : State :=
  let n := ((s.walkOf g blk).map (fun w => w.waiting.length)).getD 0
  (s.drainWalk g blk tiered (n + 2)).unpark g

/-- The counter block of a walk is verified (R133): it enters the gate's counter cache, the nodes fetched on the way enter their owners',
the lines that were to leave the buffer leave, and the packets are served. -/
def State.acceptPath (s : State) (g blk : Nat) (path : List Line) : State :=
  let leaf := s.leafOf blk
  let s := (path.zipIdx.drop 1).foldl (fun s (d, l) =>
    if (s.hcHeld false l (leaf / 8 ^ l)).isSome then s else s.hcPut false l (leaf / 8 ^ l) d false) s
  let out := ((s.walkOf g blk).map Walk.leaving).getD []
  let s := ((s.ccPut g blk (unpackCtr (path.headD 0)) false).modWalk g blk
    (fun w => { w with path := [], fetch := false, leaving := [] })).refetched (· == .counter g blk) 0
  let s := out.foldl (fun s l => match s.wcbFind g l with
    | some w => s.wcbLeave g w
    | none => s) s
  s.drainBlock g blk false

/-- A line of a path arrives (R133): one fetched as a parent must hold its child's MAC. The counter block is accepted at a node that its
owner's counter cache holds (log entry 140) or at the root store; else the next parent is fetched. A failed check poisons the block (R163). -/
def State.walkStep (s : State) (g blk level : Nat) (d : Line) : State :=
  match s.walkOf g blk with
  | none => s
  | some w =>
    let child := s.leafOf blk / 8 ^ (level - 1)
    let okChild := level == 0 || macAt d (child % 8) == s.nodeMac (level - 1) child (w.path.getLastD 0)
    if !okChild then (s.failWalk g blk (level - 1)).unpark g
    else if level == s.treeTop false || (level != 0 && s.hcHeld false level (s.leafOf blk / 8 ^ level) == some d) then
      s.acceptPath g blk w.path
    else
      let s := s.modWalk g blk (fun w => { w with path := w.path ++ [d], level := level, fetch := false })
      let s := s.fetchNode g blk (level + 1)
      if s.poisoned g blk then (s.failWalk g blk (level + 1)).unpark g else s

/-- An ownership line arrives: the blocks that wait for it are served (R122). -/
def State.takeOwn (s : State) (g l : Nat) (d : Line) : State :=
  let ws := (s.gate g).walks.filter (fun w => w.ownFetch && w.block / 512 / 8 == l)
  let s := (s.modGate g (fun x =>
    { x with
      olines := x.olines.set l d
      walks := x.walks.map (fun w => if w.block / 512 / 8 == l then { w with ownFetch := false } else w) })).refetched
    (· == .ownership g l) 0
  (ws.foldl (fun s w => s.drainWalk g w.block false (w.waiting.length + 2)) s).unpark g

/-- An ownership line cannot be had: what waits for it fails (R521). -/
def State.loseOwn (s : State) (g l : Nat) : State :=
  let ws := (s.gate g).walks.filter (fun w => w.ownFetch && w.block / 512 / 8 == l)
  let s := (s.modGate g (fun x =>
    { x with walks := x.walks.map (fun w =>
        if w.ownFetch && w.block / 512 / 8 == l then { w with ownFetch := false, waiting := [] } else w) })).refetched
    (· == .ownership g l) 0x0202
  (ws.foldl (fun s w => (w.waiting.foldl (fun s p => s.failOwn g p) s).drainWalk g w.block false 2) s).unpark g

/-- MR_D: a metadata line or a tier hit reaches its gate (R133, R148); EP is honoured (R269). -/
def execMrD (p : Packet) (s : State) : Result :=
  .next (s.arrive .mrD p (fun p s => s.atInitiator p (fun r s =>
    let bad := p.status != 0 || p.ep
    match r.ctx with
    | .gateMeta g blk level =>
      let s := ((s.countResponse r p true).endReq r.unit r.tag).pumpNodes g
      if bad then (s.failWalk g blk level).unpark g else s.walkStep g blk level (p.data.headD 0)
    | .gateOwn g l =>
      let s := ((s.countResponse r p true).endReq r.unit r.tag).pumpNodes g
      if bad then s.loseOwn g l else s.takeOwn g l (p.data.headD 0)
    | _ => s.countResponse r p false)))

/-- Once a counter block's content is written, its MAC goes to the owner of its parent (R134). -/
def State.sendMac (s : State) (g blk : Nat) : State :=
  let leaf := s.leafOf blk
  let c := (s.gate g).ccache.get ({}, false) blk
  let (u, a) := s.parentAt false 0 leaf
  s.nodeRequest g (.gateMac g blk)
    (mqPacket .mqMac g u (a + 8 * (leaf % 8)) [putMac 0 (leaf % 8) (s.nodeMac 0 leaf (packCtr c.1))])

/-- MR_ACK: a metadata acknowledgement or a tier-lookup hit mask reaches its gate (R241). A parent that could not take a counter
block's MAC leaves the path broken, and the block is poisoned (R163). -/
def execMrAck (p : Packet) (s : State) : Result :=
  .next (s.arrive .mrAck p (fun p s => s.atInitiator p (fun r s =>
    let s := (s.countResponse r p true).endReq r.unit r.tag
    match r.ctx with
    | .gateTier g blk => (s.modWalk g blk (fun w => { w with tier := false })).drainBlock g blk true
    | .gateEvict g blk => (s.pumpNodes g).sendMac g blk
    | .gateMac g blk =>
      let s := s.pumpNodes g
      if p.status != 0 then (s.modGate g (fun x => { x with ccache := x.ccache.del blk })).failWalk g blk 1
      else if ((s.gate g).ccache.get ({}, false) blk).2 then s
      else s.modGate g (fun x => { x with ccache := x.ccache.del blk })
    | .hbmMac h key =>
      if ((s.hgate h).cache.get (0, false) key).2 then s else s.modHgate h (fun x => { x with cache := x.cache.del key })
    | .gateMeta g blk level => ((s.pumpNodes g).failWalk g blk level).unpark g
    | .gateOwn g l => (s.pumpNodes g).loseOwn g l
    | _ => s)))

/-! ### Locks, the write-combining buffer and re-encryption -/

/-- LOCK_EXPIRY: a lock without its unlock is released, the line unchanged; what parked behind it is performed (R322, R260). -/
def execLockExpiry (gate line : Nat) (s : State) : Result :=
  .next (if (s.gate gate).locks.any (fun k => k.line == line) then
      (s.modGate gate (fun x => { x with locks := x.locks.filter (fun k => k.line != line) })).unpark gate
    else s)

/-- WCB_RESIDENCY_EXPIRY: a line resident for 1 ms leaves the buffer (R138). -/
def execWcbResidencyExpiry (gate line : Nat) (s : State) : Result :=
  .next (match s.wcbFind gate line with
    | some w => if w.waiting then s else (s.wcbLeave gate w).unpark gate
    | none => s)

/-- REENC_PHASE_A_DONE: the block is held, sealed again under its next major value and released (R140). A block whose counter block is
no longer held, or whose line is no longer buffered, has ended its re-encryption (R144). -/
def execReencPhaseADone (gate block : Nat) (s : State) : Result :=
  .next (match (s.gate gate).reencs.find? (fun r => r.block == block) with
    | none => s
    | some r =>
      match s.ctrHeld gate block, s.wcbFind gate r.line with
      | some c, some w => (s.reencrypt gate block w.slot c).unpark gate
      | _, _ => (s.modGate gate (fun x => { x with reencs := x.reencs.filter (fun v => v.block != block) })).unpark gate)

/-- REENC_RAISE_CLASS: the remaining staging reads of a block join the foreground class (R141). -/
def execReencRaiseClass (gate block : Nat) (s : State) : Result :=
  .next (match (s.gate gate).reencs.find? (fun r => r.block == block && !r.raised) with
    | some r =>
      s.modGate gate (fun x =>
        { x with
          reencs := x.reencs.map (fun r => if r.block == block then { r with raised := true, left := 0 } else r)
          fg := x.fg ++ (List.range r.left).map (fun d => ⟨s.lineAddr (64 * block + d), none⟩) })
    | none => s)

/-- STAGING_BUFFER_FREED: the oldest waiting line whose block has no staging buffer starts its re-encryption (R143). -/
def execStagingBufferFreed (gate : Nat) (s : State) : Result :=
  .next (if 4 ≤ (s.gate gate).reencs.length then s
    else
      match (s.gate gate).wcb.find? (fun w => w.waiting && !(s.gate gate).reencs.any (fun r => r.block == w.line / 64)) with
      | none => s
      | some w =>
        match s.ctrHeld gate (w.line / 64) with
        | some c => (s.startReenc gate w c).unpark gate
        | none => s.leaveLater gate w.line)

/-- OWNERSHIP_INVALIDATE: the gate drops its copies of the named lines, up to 64 in one packet, and acknowledges once no access admitted
against them is left (R132). The change has a gate's acknowledgement when every line of it has been named to the gate. -/
def execOwnershipInvalidate (gate : Nat) (lines : List Nat) (s : State) : Result :=
  .next (
    let named := lines.take 64
    if s.fenced (gateUnit gate) then s
    else
      let s := s.modGate gate (fun x => { x with olines := x.olines.filter (fun e => !named.contains e.1) })
      if (s.gate gate).walks.any (fun w => (w.fetch || w.tier) && named.contains (w.block / 512 / 8)) then s
      else
        match s.pool.owning.find? (fun c => c.waiting.contains gate && c.pages.any (fun p => named.contains (p / 8))) with
        | none => s
        | some c =>
          let dropped := c.dropped ++ named.map (fun l => (gate, l))
          let all := c.pages.all (fun p => dropped.contains (gate, p / 8))
          let c' : OwnChange := if all then
              { c with dropped := dropped, waiting := c.waiting.filter (· != gate), acking := c.acking ++ [gate] }
            else { c with dropped := dropped }
          ({ s with pool.owning := s.pool.owning.map (fun d => if d == c then c' else d) }).pushE .mgmt (gateUnit gate) crownUnit)

end Sys2Proof.Machine
end

