-- ==== Sys2Proof/Machine/Issue.lean ====
section
/-! DEFINITION. How an initiator issues an access: host space, the default target, pool and peer routes (R31-R36, R245), and
the accesses of Fingers and queue managers through their checkers (R207). -/

namespace Sys2Proof

/-- Bytes placed at their natural positions in lines (R242). -/
def packLines (addr : Nat) (bs : List Byte) : List Line :=
  (Machine.chunks 64 (List.replicate (addr % 64) 0 ++ bs)).map lineOf

/-- Byte enables of a line of a write that starts at `addr`, from its optional bytes. -/
def enablesOf (addr : Nat) (bs : List (Option Byte)) (line : Nat) : BitVec 64 :=
  BitVec.ofNat 64 ((List.range 64).foldl (fun v i =>
    let a := 64 * line + i
    if addr ≤ a && ((bs.getD (a - addr) none)).isSome then v + 2 ^ i else v) 0)

end Sys2Proof

namespace Sys2Proof.Machine

/-- The bytes a request has received, in ascending order from its address. -/
def Req.bytes (r : Req) : List Byte :=
  (List.range r.pkt.len).map (fun i =>
    let a := r.pkt.addr + i
    match r.got.find? (fun g => g.1 == a / 64) with
    | some g => lineByte g.2.1 (a % 64)
    | none => 0)

/-- Send a request to host space: the Cuff of the link, naming link, function and host address, and the peer-window slot that it
passed (R31, R217). -/
def State.sendHost (s : State) (ctx : ReqCtx) (p : Packet) (link fn addr : Nat) (counts : Option Nat) (window : Option Nat := none) :
    State :=
  let u := cuffUnit (link / 2)
  s.request ctx { p with dest := u, destKnot := unitKnot u, hostSpace := true, link := link, fn := fn, addr := addr } counts window

/-- Send a request to a device physical address (R33-R36, R245): the owning gate, the Border link toward a peer, or the default
target. `link` is the Cuff link for a Cuff's request (R28). A glove barred from a peer gets PEER_LOST (R477). -/
def State.sendDev (s : State) (link : Nat) (ctx : ReqCtx) (p : Packet) (counts : Option Nat) : State :=
  let go (u : Nat) : State :=
    s.request ctx
      { p with dest := u, destKnot := unitKnot u,
               initKnot := if unitKind p.initUnit == 0 then s.cuffKnot link u else unitKnot p.initUnit } counts
  let miss (s : State) : State :=
    (if p.op.cls == 0 then s.missPosted p.initUnit else s).selfAnswer ctx p counts 0x0004
  match s.decode p.addr with
  | .pool a => go (gateUnit (s.owner (a / 4096)))
  | .peer n _ =>
    if p.gloveValid && p.home == s.boot.cfg.pos && (s.glove p.glove).barred.contains n then s.selfAnswer ctx p counts 0x0600
    else go (borderUnit (s.borderLink p.initUnit n))
  | .lost => s.selfAnswer ctx p counts 0x0600
  | .crown => miss (s.contained 10 0x0004 p.initUnit 0 none)
  | _ => miss s

/-- An access of a Finger or a queue manager. -/
structure Access where
  unit : Nat
  /-- Its Finger (2 * number + 1) or queue (2 * number). -/
  who : Nat
  fn : FnId
  world : Nat
  service : Nat
  /-- The glove concerned, if any; the glove of a glove-space address. -/
  glove : Option Nat
  gloveSpace : Bool
  op : POp
  addr : Nat
  len : Nat
  data : List Line := []
  fbe : BitVec 64 := BitVec.allOnes 64
  lbe : BitVec 64 := BitVec.allOnes 64
deriving DecidableEq, Repr

/-- What issuing comes to: sent, with the space of R409 (0 host, 1 pool, 2 peer) and a host link written to; held at the checker, which
is closed for the glove or reads a table line (R224, R201); or refused with a code, the address and space of R666. -/
inductive Issued where
  | sent (s : State) (space : Nat) (hostLink : Option Nat)
  | wait (s : State)
  | refused (s : State) (code addr space : Nat)

/-- The held request of an access. -/
def Access.held (a : Access) : HeldAcc :=
  { unit := a.unit, who := a.who, fn := a.fn, glove := a.glove.getD 0, op := a.op, addr := a.addr }

/-- The held requests of a Finger or a queue are withdrawn. -/
def State.dropHeldAcc (s : State) (who : Nat) : State :=
  { s with net.heldAcc := s.net.heldAcc.filter (fun h => h.who != who) }

/-- A request of another Finger or queue stands before an access at its checker: held for the same glove since before it (R226), by a
function that may issue. -/
def State.heldBefore (s : State) (a : Access) : Bool :=
  (s.net.heldAcc.takeWhile (· != a.held)).any (fun h =>
    h.unit == a.unit && h.glove == a.glove.getD 0 && h.who != a.who && (s.fn h.fn).bme && !(s.fn h.fn).d3)

/-- The packet of an access, before its destination is known. -/
def State.packetOf (s : State) (a : Access) : Packet :=
  { op := a.op, vc := a.op.vc a.service, initUnit := a.unit, initKnot := unitKnot a.unit, addr := a.addr, len := a.len,
    firstBE := a.fbe, lastBE := a.lbe, world := a.world, gloveValid := a.glove.isSome, glove := a.glove.getD 0,
    home := s.boot.cfg.pos, epoch := a.gloveSpace && (s.glove (a.glove.getD 0)).epoch % 2 == 1,
    ackReq := a.op.cls == 0, data := a.data }

/-- Issue an access; `ctx` gives its context for the space it takes. -/
def State.issue (s : State) (a : Access) (ctx : Nat → ReqCtx) : Issued :=
  let p := s.packetOf a
  if !a.gloveSpace then .sent (s.sendHost (ctx 0) p a.fn.link a.fn.fn a.addr none) 0 (some a.fn.link)
  else
    let g := a.glove.getD 0
    let first (l : Nat) : Nat := max l a.addr
    match s.notOpen g with
    | some c => .refused s c a.addr 1
    | none =>
      if (s.glove g).updating || s.heldBefore a then
        .wait (if s.net.heldAcc.contains a.held then s else { s with net.heldAcc := s.net.heldAcc ++ [a.held] })
      else
        let s : State := { s with net.heldAcc := s.net.heldAcc.filter (· != a.held) }
        let c : Check :=
          { glove := g, world := a.world, addr := a.addr, len := a.len, rd := a.op.cls != 0, wr := a.op.cls == 0 }
        match s.check a.unit a.fn.link c with
        | (.fault code l, s) => .refused (s.reportFault c a.unit code l) code (first l) (if code == 0x0307 then 2 else 1)
        | (.failed code, s) => .refused s code a.addr 1
        | (.miss l, s) => .wait (s.fetchTable a.unit a.fn.link l)
        | (.window slot link fn _ host, s) => .sent (s.sendHost (ctx 2) p link fn host (some g) (some slot)) 2 (some link)
        | (.dev addr, s) => .sent (s.sendDev a.fn.link (ctx 1) { p with addr := addr } (some g)) 1 none

end Sys2Proof.Machine
end

