-- ==== Sys2Proof/Machine/Operands.lean ====
section
/-! DEFINITION. Operand forms: the 64-byte queue entries (R373, R374, R375, R383, R389) and the 32-byte Finger instructions
(R403-R407). -/

namespace Sys2Proof.Machine

/-! ### Queue entries -/

/-- Queue kinds (R345): 0 admin, 1 control, 2 work. -/
def queueKind (q : QId) : Nat := if q.fn == 0 then 0 else if q.q == 0 then 1 else 2

/-- Bytes [a, a + n) of an entry, as a mask. -/
def spanMask (a n : Nat) : Nat := (2 ^ (8 * n) - 1) * 2 ^ (8 * a)

/-- Low `n` bits of byte `a`, as a mask. -/
def lowMask (a n : Nat) : Nat := (2 ^ n - 1) * 2 ^ (8 * a)

/-- The operand bits of an opcode (R375, R383, R389); none for a reserved opcode. -/
def operandMask (op : Nat) : Option Nat :=
  match op with
  | 0x01 => some (spanMask 8 2 ||| lowMask 10 2 ||| spanMask 11 2)
  | 0x02 => some (spanMask 8 2)
  | 0x03 => some (spanMask 8 2 ||| lowMask 10 3 ||| spanMask 11 13)
  | 0x04 => some (spanMask 8 16)
  | 0x05 => some (spanMask 8 2 ||| lowMask 10 4 ||| spanMask 12 5)
  | 0x06 => some (spanMask 8 3 ||| spanMask 24 32)
  | 0x07 => some (spanMask 8 3)
  | 0x08 | 0x09 => some (spanMask 8 1)
  | 0x0A => some 0
  | 0x0B => some (spanMask 8 1 ||| spanMask 12 16)
  | 0x0C => some (spanMask 8 2 ||| spanMask 16 20)
  | 0x10 => some (spanMask 8 2 ||| lowMask 10 2 ||| spanMask 11 3 ||| spanMask 16 16)
  | 0x11 => some (spanMask 8 1)
  | 0x12 => some (spanMask 8 1 ||| lowMask 9 1 ||| spanMask 16 8)
  | 0x13 => some (spanMask 16 8)
  | 0x14 => some 0
  | 0x15 => some (spanMask 8 1 ||| lowMask 9 2 ||| spanMask 10 1 ||| spanMask 12 4)
  | 0x16 => some (spanMask 8 1)
  | 0x20 => some (spanMask 8 1 ||| spanMask 16 40)
  | 0x21 => some (spanMask 8 2 ||| spanMask 16 20)
  | 0x22 => some (spanMask 8 1 ||| spanMask 16 24)
  | 0x23 => some 0
  | _ => none

/-- A queue kind accepts an opcode (R374). -/
def accepts (kind op : Nat) : Bool :=
  match kind with
  | 0 => (decide (1 ≤ op) && decide (op ≤ 0x0C)) || op == 0x15 || op == 0x16 || (decide (0x20 ≤ op) && decide (op ≤ 0x23))
  | 1 => op == 0x0C || (decide (0x10 ≤ op) && decide (op ≤ 0x16))
  | _ => decide (0x20 ≤ op) && decide (op ≤ 0x23)

/-- The opcode is a work entry (R389). -/
def isWork (op : Nat) : Bool := decide (0x20 ≤ op) && decide (op ≤ 0x23)

/-- Field of `n` bytes at byte `a` of an entry. -/
def field (b : BitVec 512) (a n : Nat) : Nat := (b.toNat / 2 ^ (8 * a)) % 2 ^ (8 * n)

/-- The Finger of an entry: the queue's bound Finger, or the operator Finger an admin entry names (R391). -/
def entryFinger (q : QId) (bound : Nat) (b : BitVec 512) : FgId :=
  ⟨q.link, q.fn, if q.fn == 0 then bits (field b 2 2) 13 10 else bound⟩

/-- Decode an entry (R361, R373): the code it completes with at once, or the command it spells. `own` is the glove of the queue's
VF, `bound` the Finger bound to the queue. -/
def decodeEntry (o : Origin) (own bound : Nat) (b : BitVec 512) : Nat ⊕ Instr :=
  let op := field b 0 1
  let kind := queueKind o.q
  let common := spanMask 0 1 ||| lowMask 1 1 ||| spanMask 4 4 |||
    (if kind == 0 && isWork op then 0x3FFF * 2 ^ 16 else 0)
  match (if accepts kind op then operandMask op else none) with
  | none => .inl 0x0001
  | some m =>
    let v := b.toNat % 2 ^ 448
    if v &&& (m ||| common) != v then .inl 0x0402
    else
      let f := field b
      let fg := entryFinger o.q bound b
      let target := if kind == 0 then bits (f 2 2) 9 0 else own
      match op with
      | 0x01 => .inr (.openGlove o (f 8 2) (bitAt (f 10 1) 0) (bitAt (f 10 1) 1) (f 11 1) (f 12 1))
      | 0x02 => .inr (.closeGlove o (f 8 2))
      | 0x03 => .inr (.grantPages o (f 8 2) (bits (f 10 1) 1 0) (bitAt (f 10 1) 2) (f 11 1) (f 12 4) (f 16 8))
      | 0x04 => .inr (.reclaimPages o (f 8 2) (f 10 1) (f 11 1) (f 12 4) (f 16 8))
      | 0x05 => .inr (.setLimits o (f 8 2) (f 10 1) (f 12 2) (f 14 1) (f 15 1) (f 16 1))
      | 0x06 => .inr (.setPeerWindow o (f 8 2) (f 10 1) (BitVec.ofNat 256 (f 24 32)))
      | 0x07 => .inr (.clearPeerWindow o (f 8 2) (f 10 1))
      | 0x08 => .inr (.pinDomain o (f 8 1))
      | 0x09 => .inr (.unpinDomain o (f 8 1))
      | 0x0A => .inr (.drain o)
      | 0x0B => .inr (.getLog o (f 8 1) (f 12 4) (f 16 8) (f 24 4))
      | 0x0C => .inr (.getUsage o (f 8 2) (f 16 8) (f 24 8) (f 32 4))
      | 0x10 => .inr (.createQueue o (f 8 1) (f 9 1) (bitAt (f 10 1) 0) (bitAt (f 10 1) 1) (f 11 1) (f 12 2) (f 16 8) (f 24 8))
      | 0x11 => .inr (.destroyQueue o (f 8 1))
      | 0x12 => .inr (.setRules o (f 8 1) (bitAt (f 9 1) 0) (f 16 8))
      | 0x13 => .inr (.getRuleFault o (f 16 8))
      | 0x14 => .inr (.clearRuleFault o)
      | 0x15 => .inr (.startFinger o (f 8 1) (bitAt (f 9 1) 0) (bitAt (f 9 1) 1) (f 10 1) (f 12 4))
      | 0x16 => .inr (.stopFinger o (f 8 1))
      | 0x20 =>
        if 1 < f 8 1 then .inl 0x0002
        else .inr (.runProgram fg o target (f 8 1 == 1) (f 16 8) (f 24 8) (f 32 8) (f 40 8) (f 48 8))
      | 0x21 =>
        if 1 < f 8 1 || 1 < f 9 1 then .inl 0x0002
        else .inr (.copy fg o target (f 8 1 == 1) (f 9 1 == 1) (f 16 8) (f 24 8) (f 32 4))
      | 0x22 =>
        if 1 < f 8 1 then .inl 0x0002
        else .inr (.fill fg o target (f 8 1 == 1) (f 16 8) (f 24 8) (BitVec.ofNat 64 (f 32 8)))
      | _ => .inr (.flush fg o)

/-! ### Finger instructions -/

/-- A decoded instruction (R403). -/
inductive FgOp where
  | move (srcReg dstReg : Nat) (srcGlove dstGlove srcInc dstInc : Bool) (len : Nat) (srcOff dstOff : BitVec 64)
  | loop (ctr : Nat) (target : Int)
  | waitFlag (reg : Nat) (glove : Bool) (cmp poll timeout : Nat) (off : BitVec 32) (mask value : BitVec 64)
  | waitTimer (ns : Nat)
  | waitEvent (mask : BitVec 32) (timeout : Nat)
  | signal (flag advance event durable vector : Bool) (reg : Nat) (glove : Bool) (off events : BitVec 32)
      (vec : Nat) (value : BitVec 64)
  | seta (reg : Nat) (value : BitVec 64)
  | adda (reg : Nat) (value : BitVec 64)
  | fin (reg : Option Nat) (imm : Nat)
deriving DecidableEq, Repr

/-- Decode an instruction word; none where R402 halts. `pf` is true for an operator Finger (the range of VECTOR). -/
def decodeFg (pf : Bool) (w : BitVec 256) : Option FgOp :=
  let v := w.toNat
  let f (hi lo : Nat) : Nat := bits v hi lo
  match f 7 0 with
  | 0x01 =>
    if f 255 192 != 0 || f 31 18 != 0 || 1 < f 11 10 || 1 < f 9 8 || f 63 32 == 0 then none
    else some (.move (f 13 12) (f 15 14) (f 9 8 == 1) (f 11 10 == 1) (bitAt v 16) (bitAt v 17) (f 63 32)
      (BitVec.ofNat 64 (f 127 64)) (BitVec.ofNat 64 (f 191 128)))
  | 0x02 =>
    if f 255 64 != 0 || f 31 9 != 0 then none
    else some (.loop (f 8 8) (BitVec.ofNat 32 (f 63 32)).toInt)
  | 0x03 =>
    if f 63 48 != 0 || f 31 17 != 0 then none
    else
      match f 9 8 with
      | 0 =>
        if 1 < f 11 10 || 5 < f 16 14 || f 47 32 == 0 then none
        else some (.waitFlag (f 13 12) (f 11 10 == 1) (f 16 14) (f 47 32) (f 95 64) (BitVec.ofNat 32 (f 127 96))
          (BitVec.ofNat 64 (f 191 128)) (BitVec.ofNat 64 (f 255 192)))
      | 1 =>
        if f 127 32 != 0 || f 16 10 != 0 || f 191 128 != 0 || f 255 192 == 0 || 2 ^ 40 < f 255 192 then none
        else some (.waitTimer (f 255 192))
      | 2 =>
        if f 255 192 != 0 || f 191 160 != 0 || f 159 128 == 0 || f 127 96 != 0 || f 47 32 != 0 || f 16 10 != 0 then none
        else some (.waitEvent (BitVec.ofNat 32 (f 159 128)) (f 95 64))
      | _ => none
  | 0x04 =>
    let flag := bitAt v 12
    let adv := bitAt v 13
    let ev := bitAt v 14
    let dur := bitAt v 15
    let vec := bitAt v 16
    let top := if pf then 2047 else 63
    if f 191 128 != 0 || f 63 48 != 0 || f 31 17 != 0 || 1 < f 9 8 || (flag && adv) ||
        !(flag || adv || ev || dur || vec) || (!ev && f 95 64 != 0) ||
        (vec && (f 47 32 == 0 || top < f 47 32)) || (!flag && f 255 224 != 0) || (!flag && !adv && f 255 192 != 0) then none
    else some (.signal flag adv ev dur vec (f 11 10) (f 9 8 == 1) (BitVec.ofNat 32 (f 127 96)) (BitVec.ofNat 32 (f 95 64))
      (f 47 32) (BitVec.ofNat 64 (f 255 192)))
  | 0x05 =>
    if f 255 128 != 0 || f 63 11 != 0 || f 10 8 == 7 || (4 ≤ f 10 8 && f 127 96 != 0) then none
    else some (.seta (f 10 8) (BitVec.ofNat 64 (f 127 64)))
  | 0x06 =>
    if f 255 128 != 0 || f 63 11 != 0 || f 10 8 == 7 then none
    else some (.adda (f 10 8) (BitVec.ofNat 64 (f 127 64)))
  | 0x0F =>
    if f 255 112 != 0 || f 63 11 != 0 then none
    else if bitAt v 8 then (if f 111 64 != 0 then none else some (.fin (some (f 10 9)) 0))
    else some (.fin none (f 111 64))
  | _ => none

end Sys2Proof.Machine
end

