-- ==== Sys2Proof/Machine/Queue.lean ====
section
/-! DEFINITION. Queues: doorbells, enabling, fetching, dispatching and completing entries (R345-R374). -/

namespace Sys2Proof.Machine

/-! ### Shared operations -/

/-- The glove of a queue's VF. -/
def State.qGlove (s : State) (q : QId) : Option Nat := if q.fn == 0 then none else some (s.gloveOf q.fnId)

/-- A queue's fetching and completion are paused (R363). -/
def State.qPaused (s : State) (q : QId) : Bool :=
  let x := s.fn q.fnId
  !x.bme || x.d3 || (match s.qGlove q with
    | some g => (s.glove g).tdi == .error
    | none => false)

/-- A queue may fetch and complete entries: it exists, is not FAULTED or paused, its manager is not fenced, and the mode serves
queues (R362, R363, R372, R521). -/
def State.qRuns (s : State) (q : QId) : Bool :=
  s.serves && (s.queue q).enable && !(s.queue q).faulted && !s.qPaused q && !s.fenced (queueUnit (linkQuad q.link))

/-- A queue enters FAULTED (R362). -/
def State.qFault (s : State) (q : QId) (code : Nat) : State :=
  if (s.queue q).enable && !(s.queue q).faulted then
    ((s.dropHeldAcc (2 * QId.key q)).modQueue q (fun x => { x with faulted := true, errCode := code })).raiseCause q.fnId causeQueue
  else s

/-- The queue command an instruction comes from. -/
def originOf : Instr → Option Origin
  | .openGlove o _ _ _ _ _ | .closeGlove o _ | .grantPages o _ _ _ _ _ _ | .reclaimPages o _ _ _ _ _ | .setLimits o _ _ _ _ _ _
  | .setPeerWindow o _ _ _ | .clearPeerWindow o _ _ | .pinDomain o _ | .unpinDomain o _ | .drain o | .getLog o _ _ _ _
  | .getUsage o _ _ _ _ | .createQueue o _ _ _ _ _ _ _ _ | .destroyQueue o _ | .setRules o _ _ _ | .getRuleFault o _
  | .clearRuleFault o | .startFinger o _ _ _ _ _ | .stopFinger o _ | .runProgram _ o _ _ _ _ _ _ _ | .copy _ o _ _ _ _ _ _
  | .fill _ o _ _ _ _ _ | .flush _ o => some o
  | _ => none

/-- The queue a request serves. -/
def ReqCtx.queue : ReqCtx → Option QId
  | .qFetch q _ _ => some q
  | .qResult q _ => some q
  | .qHead q _ => some q
  | _ => none

/-- What one queue has on its way when it is destroyed or disabled while FAULTED (R365): nothing more is read or written for it, and the
commands it dispatched that have not begun do not begin (log entry 123). -/
def State.cutQueue (s : State) (q : QId) : State :=
  { s.dropHeldAcc (2 * QId.key q) with
    work.crownWork := s.work.crownWork.filter (fun i => ((originOf i).map Origin.q) != some q)
    net.outst := s.net.outst.map (fun r => if r.ctx.queue == some q then { r with ctx := .other } else r) }

/-- An entry has executed: its code and result wait for the result-field write (R358, R360). -/
def State.complete (s : State) (o : Origin) (code result : Nat) : State :=
  if (s.queue o.q).enable then
    s.modQueue o.q (fun x =>
      { x with entries := x.entries.map (fun e => if e.idx == o.idx && e.started && e.done.isNone then { e with done := some (code, result) } else e) })
  else s

/-- A command is refused: its code goes to FN_REJECT and to its result (R361, R12). -/
def State.refuse (s : State) (o : Origin) (code : Nat) : State :=
  (s.reject o.q.fnId code 3 (o.q.q * 65536 + o.idx % 65536)).complete o code 0

/-- A command leaves the list of dispatched commands. -/
def State.undispatch (s : State) (i : Instr) : State :=
  { s with work.crownWork := s.work.crownWork.filter (· != i) }

/-- BAR0 offset of instance `q` of the QUE_ block (R629). -/
def queBase (q : QId) : Nat := if q.fn == 0 then 0x3000 else 0x2000 + 0x40 * q.q

/-- Work queues of a quadrant (R347). -/
def State.workQueues (s : State) (quad : Nat) : Nat :=
  (s.work.queues.filter (fun e => e.2.enable && e.1 % 128 != 0 && e.1 / 128 / 256 / 4 == quad)).length

/-- A queue-manager access (R41: device world). -/
def State.qAccess (s : State) (q : QId) (gloveSpace : Bool) (op : POp) (addr len : Nat) (bs : List Byte) : Access :=
  { unit := queueUnit (linkQuad q.link), who := 2 * QId.key q, fn := q.fnId, world := 2, service := 0, glove := s.qGlove q,
    gloveSpace := gloveSpace, op := op, addr := addr, len := len, data := packLines addr bs }

/-- Start a head-index write of HEAD if none is outstanding (R358 step 2, R359). The entries whose result writes are acknowledged
have left the queue. -/
def State.headWrite (s : State) (q : QId) : State :=
  let x := s.queue q
  if x.headWr.isSome then s
  else
    match s.issue (s.qAccess q x.headGlove .memWr x.headAddr 4 (leBytes 4 x.head.toNat)) (fun _ => .qHead q x.head) with
    | .sent s _ _ => s.modQueue q (fun x => { x with headWr := some (x.head, false), iocs := x.iocsNext, iocsNext := 0 })
    | .wait s => s
    | .refused s c _ _ => s.qFault q c

/-! ### Doorbells and configuration -/

/-- DOORBELL: evaluate a doorbell against HEAD and TAIL (R351, R352). -/
def execDoorbell (q : QId) (v : BitVec 32) (s : State) : Result :=
  .next (if !s.bar0On q.fnId then s
    else
      let x := s.queue q
      let dNew := (v - x.head).toNat
      let dOld := (x.tail - x.head).toNat
      let bad (c : Nat) : State :=
        (s.modQueue q (fun x => { x with rejects := satAdd 255 x.rejects 1 })).reject q.fnId c 1 (queBase q + 0x18)
      if !x.enable then bad 0x0404
      else if x.faulted then bad 0x0408
      else if 2 ^ x.size < dNew then bad 0x0400
      else if dNew < dOld then bad 0x0409
      else (s.modQueue q (fun x => { x with tail := v })).castVotes s)

/-- The fields that a QUE_CONFIG value writes (R369). -/
def Queue.config (x : Queue) (v : BitVec 32) : Queue :=
  let n := v.toNat
  { x with enable := bitAt n 31, vector := bits n 26 16, finger := bits n 15 12, headGlove := bitAt n 9, ringGlove := bitAt n 8,
           size := bits n 4 0 }

/-- The code with which a write that sets ENABLE of queue 0 is rejected (R371). -/
def configCheck (f : FnId) (v : BitVec 32) : Option Nat :=
  let n := v.toNat
  if f.fn == 0 && (bitAt n 8 || bitAt n 9) then some 0x0002
  else if bits n 4 0 < 4 || 16 < bits n 4 0 || (f.fn != 0 && 63 < bits n 26 16) then some 0x0003
  else none

/-- The operator Fingers run from the moment the admin queue is enabled (R388). -/
def State.startOperator (s : State) (f : FnId) : State :=
  (List.range 16).foldl (fun s i => s.modFinger ⟨f.link, f.fn, i⟩ (fun x =>
    if x.state == .halted then x
    else { x with state := .running, share := 64, burst := 0x100000, tokens := 0x100000, bulk := false })) s

/-- A write of QUE_CONFIG of queue 0 (R365, R370, R371). -/
def State.writeQueConfig (s : State) (f : FnId) (v : BitVec 32) : State :=
  let q : QId := ⟨f.link, f.fn, 0⟩
  let x := s.queue q
  let off := queBase q + 0x10
  if x.enable then
    if bitAt v.toNat 31 then s.reject f 0x0002 1 off
    else if x.head == x.tail || x.faulted then
      (s.cutQueue q).modQueue q (fun x =>
        ({ ring := x.ring, headAddr := x.headAddr, rejects := x.rejects } : Queue).config v)
    else s.reject f 0x0401 1 off
  else if bitAt v.toNat 31 then
    match configCheck f v with
    | some c => s.reject f c 1 off
    | none =>
      let s := s.modQueue q (fun x => ({ ring := x.ring, headAddr := x.headAddr, rejects := x.rejects } : Queue).config v)
      if f.fn == 0 then s.startOperator f else s
  else s.modQueue q (fun x => x.config v)

/-- QUEUE_ENABLE: a QUE_CONFIG write that sets ENABLE of queue 0 (R371). -/
def execQueueEnable (f : FnId) (config : BitVec 32) (s : State) : Result :=
  .next (if s.bar0On f && bitAt config.toNat 31 then s.writeQueConfig f config else s)

/-- QUEUE_DISABLE: a QUE_CONFIG write that clears ENABLE of queue 0 (R365). -/
def execQueueDisable (f : FnId) (s : State) : Result :=
  .next (if s.bar0On f then s.writeQueConfig f 0 else s)

/-! ### Fetching and dispatching -/

/-- Entries a queue may hold fetched and not completed (R353). -/
def fetchLimit (q : QId) : Nat := if q.q == 0 then 8 else 32

/-- ENTRY_FETCH: up to 8 entries between FETCH and TAIL - 1, within one 4 KiB block (R353). -/
def execEntryFetch (q : QId) (s : State) : Result :=
  .next (if !s.qRuns q then s
    else
      let x := s.queue q
      let out := (x.fetching.map Prod.snd).sum
      let first := x.fetch + BitVec.ofNat 32 out
      let slot := first.toNat % 2 ^ x.size
      let room := fetchLimit q - ((first - x.head).toNat)
      let n := min (min 8 (x.tail - first).toNat) (min room (min (64 - slot % 64) (2 ^ x.size - slot)))
      if n == 0 then s
      else
        match s.issue (s.qAccess q x.ringGlove .memRd (x.ring + 64 * slot) (64 * n) []) (fun _ => .qFetch q first.toNat n) with
        | .sent s _ _ => s.modQueue q (fun x => { x with fetching := x.fetching ++ [(first.toNat, n)] })
        | .wait s => s
        | .refused s c _ _ => s.qFault q c)

/-- Fetched entries arrive (R350, R353). -/
def State.fetched (s : State) (q : QId) (first n : Nat) (bs : List Byte) : State :=
  if (s.queue q).fetching.contains (first, n) && !(s.queue q).faulted then
    s.modQueue q (fun x =>
      { x with
        fetching := x.fetching.filter (· != (first, n))
        fetch := x.fetch + BitVec.ofNat 32 n
        entries := x.entries ++ (List.range n).map (fun i =>
          { idx := (first + i) % 2 ^ 32, bytes := lineOf ((bs.drop (64 * i)).take 64) }) })
  else s

/-- The entry's opcode. -/
def Entry.op (e : Entry) : Nat := field e.bytes 0 1

/-- START_FINGER and STOP_FINGER (R356). -/
def isFingerCmd (op : Nat) : Bool := op == 0x15 || op == 0x16

/-- The function of a Finger is in D3hot or has BME clear: nothing new is issued (R330, R331). -/
def State.fgAsleep (s : State) (f : FgId) : Bool := (s.fn f.fnId).d3 || !(s.fn f.fnId).bme

/-- The Finger can take an entry now (R97, R330, R331, R355, R397). -/
def State.fgFree (s : State) (f : FgId) : Bool :=
  let x := s.finger f
  !s.tdiShut f.fnId && !s.fgAsleep f && x.state == .running && x.entry.isNone && x.halt.isNone && x.stop.isNone && x.engine.isSome &&
  !s.work.crownWork.any (fun i => match i with
    | .runProgram g _ _ _ _ _ _ _ _ => g == f
    | .copy g _ _ _ _ _ _ _ => g == f
    | .fill g _ _ _ _ _ _ => g == f
    | .flush g _ => g == f
    | _ => false)

/-- A work queue bound to a Finger is next in the round robin of its queue numbers (R357): no other bound queue with an entry
ready stands between the queue served last and it. -/
def State.fgTurn (s : State) (q : QId) (f : FgId) : Bool :=
  let last := (s.finger f).lastQueue
  let dist (n : Nat) : Nat := (n + 128 - last - 1) % 128
  !(List.range 65).any (fun n =>
    let y := s.queue ⟨q.link, q.fn, n⟩
    n != 0 && n != q.q && y.enable && y.finger == f.f && !y.faulted && decide (dist n < dist q.q) &&
      (match y.entries.head? with
       | some e => !e.started
       | none => false))

/-- An entry may start, given the earlier entries of its queue that have not completed (R355-R357). -/
def State.mayStart (s : State) (q : QId) (e : Entry) (earlier : List Entry) : Bool :=
  if e.started then false
  else
    let free := if isWork e.op then s.fgFree (entryFinger q (s.queue q).finger e.bytes) else true
    match queueKind q with
    | 0 =>
      if isFingerCmd e.op then true
      else if isWork e.op then earlier.all (fun p => isWork p.op || isFingerCmd p.op) && free
      else earlier.isEmpty
    | 1 => earlier.isEmpty
    | _ => earlier.isEmpty && free && s.fgTurn q ⟨q.link, q.fn, (s.queue q).finger⟩

/-- The first entry that may start. -/
def State.nextStart (s : State) (q : QId) : List Entry → List Entry → Option Entry
  | _, [] => none
  | earlier, e :: es => if s.mayStart q e earlier then some e else s.nextStart q (earlier ++ [e]) es

/-- ENTRY_DISPATCH: the next entry that may start goes to the Crown or its Finger; a malformed one completes at once
(R355-R357, R361). -/
def execEntryDispatch (q : QId) (s : State) : Result :=
  .next (if !s.qRuns q then s
    else
      match s.nextStart q [] (s.queue q).entries with
      | none => s
      | some e =>
        let o : Origin := ⟨q, e.idx⟩
        let s := s.modQueue q (fun x =>
          { x with entries := x.entries.map (fun d => if d.idx == e.idx then { d with started := true } else d) })
        match decodeEntry o ((s.qGlove q).getD 0) (s.queue q).finger e.bytes with
        | .inl c => s.refuse o c
        | .inr i => { s with work.crownWork := s.work.crownWork ++ [i] })

/-! ### Completing -/

/-- The four WVE_GSTAT records of a glove, as baselines (R608). -/
def State.baselines (s : State) (g : Nat) : Tbl Stat := (List.range 4).map (fun q => (q, s.net.gstat.get {} (1024 * q + g)))

/-- A tenancy starts at the result write of its OPEN_GLOVE, with its baselines (R606, R607, R622). -/
def State.startTenancy (s : State) (g : Nat) : State :=
  s.modUsage g (fun u =>
    { tenancy := u.tenancy + 1, live := true, opened := true, tStart := s.sys.now, pageTime := s.sys.now, base := s.baselines g })

/-- Count the entry in the ledger when its result field is written (R611): its kind, the tenancy opened and pages granted. -/
def State.countEntry (s : State) (q : QId) (e : Entry) (code result : Nat) : State :=
  let s := match queueKind q with
    | 0 => s
    | 1 => s.modUsage ((s.qGlove q).getD 0) (fun u => { u with controls := u.controls + 1 })
    | _ => s.modUsage ((s.qGlove q).getD 0) (fun u => { u with works := u.works + 1 })
  if queueKind q == 0 && e.op == 0x01 && code == 0 then s.startTenancy (field e.bytes 8 2)
  else if queueKind q == 0 && e.op == 0x03 && code == 0 then
    s.modUsage (field e.bytes 8 2) (fun u =>
      { u with pageNs := u.pageNs + u.pages * (s.sys.now - u.pageTime), pageTime := s.sys.now, pages := u.pages + result })
  else s

/-- RESULT_WRITE: the result field of the next entry in index order is written (R358 step 1, R360). -/
def execResultWrite (q : QId) (s : State) : Result :=
  .next (if !s.qRuns q then s
    else
      let x := s.queue q
      match x.entries.find? (fun e => e.wr == 0) with
      | some e =>
        match e.done with
        | none => s
        | some (code, result) =>
          let addr := x.ring + 64 * (e.idx % 2 ^ x.size) + 56
          match s.issue (s.qAccess q x.ringGlove .memWr addr 8 (leBytes 8 (code % 65536 + result * 65536)))
              (fun _ => .qResult q e.idx) with
          | .sent s _ _ =>
            (s.modQueue q (fun x =>
              { x with entries := x.entries.map (fun d => if d.idx == e.idx then { d with wr := 1 } else d) })).countEntry q e code result
          | .wait s => s
          | .refused s c _ _ => s.qFault q c
      | none => s)

/-- The leading entries whose result writes are acknowledged. -/
def ackedPrefix : List Entry → List Entry
  | [] => []
  | e :: es => if e.wr == 2 then e :: ackedPrefix es else []

/-- RESULT_WRITE_ACKED: HEAD advances over the acknowledged entries and is written to the head location (R358 step 2, R359). -/
def execResultWriteAcked (q : QId) (s : State) : Result :=
  .next (if !s.qRuns q then s
    else
      let done := ackedPrefix (s.queue q).entries
      if done.isEmpty then s
      else
        let ioc := (done.filter (fun e => bitAt (field e.bytes 1 1) 0)).length
        (s.modQueue q (fun x =>
          { x with entries := x.entries.drop done.length, head := x.head + BitVec.ofNat 32 done.length,
                   iocsNext := x.iocsNext + ioc })).headWrite q)

/-- HEAD_WRITE_ACKED: the completion messages of the entries covered are requested (R358 step 3); a HEAD that has moved on is
written at once (R359). -/
def execHeadWriteAcked (q : QId) (s : State) : Result :=
  .next (if !s.serves then s
    else
      match (s.queue q).headWr with
      | some (v, true) =>
        let x := s.queue q
        let s := if x.vector == 0 then s
          else (List.range x.iocs).foldl (fun s _ => s.requestVector (queueUnit (linkQuad q.link)) q.fnId x.vector) s
        let s := s.modQueue q (fun x => { x with headWr := none, iocs := 0 })
        if x.head != v && s.qRuns q then s.headWrite q else s
      | _ => s)

/-- The acknowledgement of a result-field write (R358). -/
def State.resultAcked (s : State) (q : QId) (idx code : Nat) : State :=
  if code != 0 then s.qFault q code
  else s.modQueue q (fun x =>
    { x with entries := x.entries.map (fun e => if e.idx == idx && e.wr == 1 then { e with wr := 2 } else e) })

/-- The acknowledgement of a head-index write (R358). -/
def State.headAcked (s : State) (q : QId) (v : BitVec 32) (code : Nat) : State :=
  if code != 0 then s.qFault q code
  else s.modQueue q (fun x => { x with headWr := if x.headWr == some (v, false) then some (v, true) else x.headWr })

/-! ### Work queues -/

/-- The glove of a VF is in a Blank-glove state (R47). -/
def State.blankGlove (s : State) (g : Nat) : Bool :=
  match (s.glove g).state with
  | .opened => false
  | .keyPending => false
  | _ => true

/-- A control command runs: the mode serves it and the VF is not in Blank-glove state (R372, R661); `f` does its work. -/
def State.controlCmd (s : State) (i : Instr) (o : Origin) (f : State → State) : State :=
  if !s.serves || !s.fnExists o.q.fnId then s
  else
    let s := s.undispatch i
    match s.qGlove o.q with
    | some g => if s.blankGlove g then s.refuse o 0x0101 else f s
    | none => f s

/-- CREATE_QUEUE (R383, R347, R369). -/
def execCreateQueue (o : Origin) (num size : Nat) (ringGlove headGlove : Bool) (finger vector ring head : Nat) (s : State) : Result :=
  .next (s.controlCmd (.createQueue o num size ringGlove headGlove finger vector ring head) o (fun s =>
    let g := (s.qGlove o.q).getD 0
    let q : QId := ⟨o.q.link, o.q.fn, num⟩
    if s.sys.mode == .drain then s.refuse o 0x0701
    else if ring % 4096 != 0 || head % 4 != 0 then s.refuse o 0x0002
    else if num == 0 || (s.glove g).queueLimit < num || 64 < num || size < 4 || 16 < size ||
        (s.glove g).fingerLimit ≤ finger || 63 < vector then s.refuse o 0x0003
    else if (s.queue q).enable then s.refuse o 0x0406
    else if 4096 ≤ s.workQueues (linkQuad q.link) then s.refuse o 0x0403
    else
      (s.modQueue q (fun x =>
        { enable := true, ring := ring, headAddr := head, vector := vector, finger := finger, headGlove := headGlove,
          ringGlove := ringGlove, size := size, rejects := x.rejects })).complete o 0 0))

/-- DESTROY_QUEUE (R365, R383). -/
def execDestroyQueue (o : Origin) (num : Nat) (s : State) : Result :=
  .next (s.controlCmd (.destroyQueue o num) o (fun s =>
    let q : QId := ⟨o.q.link, o.q.fn, num⟩
    let x := s.queue q
    if num == 0 || 64 < num then s.refuse o 0x0003
    else if !x.enable then s.refuse o 0x0404
    else if x.head != x.tail && !x.faulted then s.refuse o 0x0401
    else
      let s := s.cutQueue q
      ({ s with work.queues := s.work.queues.del (QId.key q) }).complete o 0 0))

end Sys2Proof.Machine
end

