-- ==== Sys2Proof/Machine/Finger.lean ====
section
/-! DEFINITION. Fingers: halts and boundaries, transfers, waits, signals and the instructions of programs (R393-R437). -/

namespace Sys2Proof

/-- The Finger a request belongs to. -/
def Machine.ReqCtx.finger : Machine.ReqCtx → Option FgId
  | .fgRead f _ _ _ _ => some f
  | .fgWrite f _ _ _ _ => some f
  | .fgFetch f _ _ => some f
  | .fgPoll f _ _ => some f
  | .fgFlag f _ _ => some f
  | .fgZl f _ => some f
  | _ => none

end Sys2Proof

namespace Sys2Proof.Machine

/-! ### Shared operations -/

/-- The Finger's outstanding requests. -/
def State.fgOut (s : State) (f : FgId) : List Req := s.net.outst.filter (fun r => r.ctx.finger == some f)

/-- Forget whom the Finger's outstanding requests serve: their responses change nothing, and they count no more (R223). Its held
requests are withdrawn. -/
def State.orphan (s : State) (f : FgId) : State :=
  { (s.dropHeldAcc (2 * FgId.key f + 1)) with
    net.outst := s.net.outst.map (fun r => if r.ctx.finger == some f then { r with ctx := .other, counts := none } else r) }

/-- The glove whose Fingers these are. -/
def State.fgGlove (s : State) (f : FgId) : Option Nat := if f.fn == 0 then none else some (s.gloveOf f.fnId)

/-- An access of a Finger (R41, R391, R395, R426). -/
def State.fgAccess (s : State) (f : FgId) (gloveSpace : Bool) (op : POp) (addr len : Nat) (data : List Line) : Access :=
  let x := s.finger f
  { unit := x.engine.getD 0, who := 2 * FgId.key f + 1, fn := f.fnId, world := if f.fn == 0 then 1 else 0, service := bit x.bulk,
    glove := if gloveSpace then some x.target else s.fgGlove f, gloveSpace := gloveSpace, op := op, addr := addr, len := len,
    data := data }


/-- What a Finger keeps when its entry ends. -/
def Finger.idle (x : Finger) : Finger :=
  { x with entry := none, opcode := 0, program := false, transfer := none, waiting := none, signalling := none, ibuf := [],
           fetching := false, wrote := [], bytes := 0, halt := none, stopCode := none,
           haltCode := 0, faultAddr := 0, faultSpace := 0, faultFetch := false, faultWrite := false, faultCause := 0, bytesDone := 0,
           lastQueue := match x.entry with
             | some o => o.q.q
             | none => x.lastQueue }

/-- Stop waiting on the event register. -/
def State.unwait (s : State) (f : FgId) : State :=
  s.modFn f.fnId (fun x => { x with waiters := x.waiters.filter (· != f.f) })

/-- The entry ends with a code and a result; the Finger holds none. -/
def State.fgFinish (s : State) (f : FgId) (code result : Nat) : State :=
  let s := match (s.finger f).entry with
    | some o => s.complete o code result
    | none => s
  ((s.unwait f).orphan f).modFinger f Finger.idle

/-- The result of an entry that ends with its latched halt code (R430). -/
def Finger.haltResult (x : Finger) : Nat := x.bytes % 2 ^ 32 + x.faultCause * 2 ^ 32

/-- STOP_FINGER's own entry completes and the Finger is STOPPED (R387). -/
def State.fgStopped (s : State) (f : FgId) (by' : Option Origin) : State :=
  let s := s.modFinger f (fun x => { x with state := .stopped, stop := none })
  match by' with
  | some o => s.complete o 0 0
  | none => s

/-- A pending halt takes effect once every request of the Finger has been answered (R398): the fault is latched and the error vector
requested (R503). A stop that waits then ends the entry with the latched code (R434). -/
def State.fgSettle (s : State) (f : FgId) : State :=
  let x := s.finger f
  match x.halt with
  | none => s
  | some h =>
    if !(s.fgOut f).isEmpty || x.state != .running then s
    else
      let s := (s.unwait f).modFinger f (fun x =>
        { x with state := .halted, halt := none, stopCode := none, fetching := false, haltCode := h.code, faultCause := h.cause,
                 faultAddr := h.addr, faultSpace := h.space, faultFetch := h.fetch, faultWrite := h.write,
                 bytesDone := match x.transfer with
                   | some t => t.done % 2 ^ 32
                   | none => 0 })
      let s := s.raiseCause f.fnId causeFinger
      match (s.finger f).stop with
      | some o => (s.fgFinish f h.code (s.finger f).haltResult).fgStopped f o
      | none => s

/-- Decide a halt (R427); the first one stands. -/
def State.fgHalt (s : State) (f : FgId) (h : Halt) : State :=
  if (s.finger f).state == .running && (s.finger f).halt.isNone then
    ((s.dropHeldAcc (2 * FgId.key f + 1)).modFinger f (fun x => { x with halt := some h })).fgSettle f
  else s.fgSettle f

/-- A halt that no access caused (R666). -/
def plainHalt (code : Nat) : Halt := ⟨code, 0, 0, 3, false, false⟩

/-- A halt on a failed access: LINK_DOWN keeps its own code (R335), any other is FINGER_BUS_ERROR with the code as its cause. -/
def accessHalt (code addr space : Nat) (fetch write : Bool) : Halt :=
  if code == 0x0030 then ⟨0x0030, 0, addr, space, fetch, write⟩ else ⟨0x0501, code, addr, space, fetch, write⟩

/-- The Finger is at an instruction boundary (R432). -/
def State.fgAtBoundary (s : State) (f : FgId) : Bool :=
  let x := s.finger f
  x.signalling.isNone && !x.fetching &&
  (match x.transfer with
   | some t => t.issued == t.sent && t.writing.isEmpty && t.ready.isEmpty
   | none => true)

/-- What waits for a boundary takes effect (R432, R433): a pending halt, STOP_FINGER, BME clear or a TDI in ERROR. -/
def State.fgBoundary (s : State) (f : FgId) : State :=
  let x := s.finger f
  if x.state != .running then s
  else if x.halt.isSome then s.fgSettle f
  else if !s.fgAtBoundary f then s
  else
    match x.stop with
    | some o => (if x.entry.isSome then s.fgFinish f 0x0405 (x.bytes % 2 ^ 32) else s).fgStopped f o
    | none =>
      match x.stopCode with
      | some c => if x.entry.isSome then s.fgHalt f (plainHalt c) else s.modFinger f (fun x => { x with stopCode := none })
      | none => s

/-- BME clear or a TDI in ERROR reaches a Finger that holds an entry (R97, R330). -/
def State.fgStopCode (s : State) (f : FgId) (code : Nat) : State :=
  let x := s.finger f
  if x.state == .running && x.entry.isSome then
    (s.modFinger f (fun x => { x with stopCode := some (x.stopCode.getD code) })).fgBoundary f
  else s

/-- Every Finger of a function. -/
def fingersOf (f : FnId) : List FgId := (List.range 16).map (fun i => ⟨f.link, f.fn, i⟩)

/-- Reset a Finger (R398): its entry is discarded without a result, its place kept. -/
def State.fgReset (s : State) (f : FgId) : State :=
  ((s.unwait f).orphan f).modFinger f (fun x =>
    { engine := x.engine, bulk := x.bulk, share := x.share, burst := x.burst, lastQueue := x.lastQueue })

/-- A program instruction completes: PC moves on, and the boundary is passed (R401). -/
def State.fgAdvance (s : State) (f : FgId) : State :=
  (s.modFinger f (fun x => { x with pc := (x.pc + 32) % 2 ^ 64, transfer := none, waiting := none, signalling := none })).fgBoundary f

/-- Charge the token bucket (R425). -/
def State.fgCharge (s : State) (f : FgId) (n : Nat) : State := s.modFinger f (fun x => { x with tokens := x.tokens - n })

/-- Count a Finger's bytes in its glove's usage slice by space (R610); the slice of a fenced queue manager counts nothing (R612). -/
def State.countDma (s : State) (f : FgId) (space n : Nat) : State :=
  match s.fgGlove f with
  | none => s
  | some g =>
    if s.fenced (queueUnit (linkQuad f.link)) then s
    else s.modUsage g (fun u => match space with
      | 0 => { u with dmaHost := (u.dmaHost + n) % 2 ^ 64 }
      | 1 => { u with dmaPool := (u.dmaPool + n) % 2 ^ 64 }
      | _ => { u with dmaPeer := (u.dmaPeer + n) % 2 ^ 64 })

/-- A host link written to (R390, R421): one function is kept for each link. -/
def addLink (ls : List Nat) (k : Nat) : List Nat := if ls.any (fun l => l / 256 == k / 256) then ls else ls ++ [k]

def State.fgWrote (s : State) (f : FgId) (link : Option Nat) (fn : Nat) : State :=
  match link with
  | none => s
  | some l =>
    let k := 256 * l + fn
    let s := s.modFinger f (fun x => { x with wrote := addLink x.wrote k })
    match (s.finger f).entry with
    | some o => s.modQueue o.q (fun q => { q with wroteLinks := addLink q.wroteLinks k })
    | none => s

/-- The function of the last request injected. -/
def State.lastFn (s : State) : Nat :=
  match s.net.outst.getLast? with
  | some r => r.pkt.fn
  | none => 0

/-- Acknowledged-before-visible ranges of a glove touched by [a, a + n) (R314). -/
def State.inAbv (s : State) (g a n : Nat) : Bool :=
  s.boot.cfg.abv.any (fun (h, start, len) => h == g && decide (start < a + max 1 n) && decide (a < start + len))

/-- One range of a glove is touched by both of [a, a + n) and [x, x + l) (R316). -/
def State.abvBoth (s : State) (g a n x l : Nat) : Bool :=
  s.boot.cfg.abv.any (fun (h, start, len) => h == g && decide (start < a + max 1 n) && decide (a < start + len) &&
    decide (start < x + max 1 l) && decide (x < start + len))

/-- R315 and R316 hold back an access of a Finger (R317): a write into a range waits for every earlier pool write, every write waits
for an earlier one into a range, and a read of a range for every earlier write to it. -/
def State.abvHolds (s : State) (f : FgId) (g a n : Nat) (write : Bool) : Bool :=
  let out := (s.fgOut f).filterMap (fun r => match r.ctx with
    | .fgWrite _ _ l x sp => if sp == 0 then none else some (x, l)
    | .fgFlag _ x sp => if sp == 0 then none else some (x, 8)
    | _ => none)
  let hot := s.inAbv g a n
  if write then (hot && !out.isEmpty) || out.any (fun (x, l) => s.inAbv g x l)
  else out.any (fun (x, l) => s.abvBoth g a n x l)

/-! ### Transfers (R408-R415) -/

/-- The order of a MOVE (R410). -/
def Transfer.descending (t : Transfer) : Bool :=
  t.pattern.isNone && t.srcGlove == t.dstGlove && decide (t.src < t.dst) && decide (t.dst < t.src + t.len)

/-- Distance from an address down to a 4 KiB boundary below its end, and up to the next. -/
def downTo4K (a : Nat) : Nat := if a % 4096 == 0 then 4096 else a % 4096
def upTo4K (a : Nat) : Nat := 4096 - a % 4096

/-- The next piece (R410): its offset from the start of the range and its length. -/
def Transfer.piece (t : Transfer) (burst : Nat) : Nat × Nat :=
  let left := t.len - t.issued
  if t.descending then
    let e := left
    let n := min (min left burst) (min (downTo4K (t.src + e)) (downTo4K (t.dst + e)))
    (e - n, n)
  else
    let b := t.issued
    let n := min (min left burst) (min (if t.pattern.isSome then 4096 else upTo4K (t.src + b)) (upTo4K (t.dst + b)))
    (b, n)

/-- The piece whose writes come next. -/
def Transfer.turn (t : Transfer) : Option (Nat × List Byte) :=
  t.ready.find? (fun (off, bs) => if t.descending then off + bs.length == t.len - t.sent else off == t.sent)

/-- Length of the next write within a piece: head, body of at most eight lines, or tail (R413). -/
def writeLen (a left : Nat) : Nat :=
  if a % 64 != 0 then min left (64 - a % 64) else if 64 ≤ left then 64 * min 8 (left / 64) else left

/-- The pattern bytes of a FILL (R415). -/
def fillBytes (p : BitVec 64) (a n : Nat) : List Byte :=
  (List.range n).map (fun j => p.extractLsb' (8 * ((a + j) % 8)) 8)

/-- Requests a Finger may still issue (R396). -/
def State.fgRoom (s : State) (f : FgId) : Bool := decide ((s.fgOut f).length < 32)

/-- Read data outstanding of a list of requests. -/
def readBytes (rs : List Req) : Nat := (rs.map (fun r => if r.pkt.op == .memRd then r.pkt.len else 0)).sum

/-- Room for read data in the context and in its engine (R396). -/
def State.fgReadRoom (s : State) (f : FgId) (n : Nat) : Bool :=
  let e := s.net.outst.filter (fun r => r.unit == (s.finger f).engine.getD 0 && r.ctx.finger.isSome)
  decide (readBytes (s.fgOut f) + n ≤ 65536) && decide (readBytes e + n ≤ 262144)

/-- Issue one destination write of the piece whose turn it is; false where it has to wait. -/
def State.fgWriteOne (s : State) (f : FgId) (t : Transfer) (off : Nat) (bs : List Byte) : State × Bool :=
  let a := t.dst + off + t.part
  let n := writeLen a (bs.length - t.part)
  if !s.fgRoom f || (t.dstGlove && s.abvHolds f (s.finger f).target a n true) then (s, false)
  else
    let data := packLines a ((bs.drop t.part).take n)
    match s.issue (s.fgAccess f t.dstGlove .memWr a n data) (fun sp => .fgWrite f (off + t.part) n a sp) with
    | .wait s => (s, false)
    | .refused s c addr sp => (s.fgHalt f (accessHalt c addr sp false true), true)
    | .sent s sp link =>
      let fin := t.part + n == bs.length
      let t' : Transfer :=
        { t with writing := t.writing ++ [(off + t.part, n)], part := if fin then 0 else t.part + n,
                 sent := if fin then t.sent + bs.length else t.sent,
                 ready := if fin then t.ready.filter (fun r => r.1 != off) else t.ready }
      (((s.modFinger f (fun x => { x with transfer := some t' })).countDma f sp n).fgWrote f link s.lastFn, true)

/-- Issue the writes of the pieces read, in order, until one has to wait (R413, R414). -/
def State.fgFlush (s : State) (f : FgId) : Nat → State
  | 0 => s
  | k + 1 =>
    let x := s.finger f
    match x.transfer, x.halt with
    | some t, none =>
      match t.turn with
      | none => s
      | some (off, bs) =>
        match s.fgWriteOne f t off bs with
        | (s, false) => s
        | (s, true) => s.fgFlush f k
    | _, _ => s

/-- Merge acknowledged ranges into the bytes done, in the transfer's order (R428). -/
def mergeDone : Nat → Nat → List (Nat × Nat) → Nat × List (Nat × Nat)
  | 0, d, l => (d, l)
  | k + 1, d, l =>
    match l.find? (fun e => e.1 == d) with
    | some e => mergeDone k (d + e.2) (l.filter (· != e))
    | none => (d, l)

/-- The transfer is complete: the entry of a built-in ends, a program's instruction applies its increments (R422, R429). -/
def State.fgDone (s : State) (f : FgId) : State :=
  let x := s.finger f
  match x.transfer with
  | none => s
  | some t =>
    if t.issued == t.len && t.sent == t.len && t.writing.isEmpty then
      if x.program then
        let inc (r : Option Nat) (x : Finger) : Finger := match r with
          | some 0 => { x with a0 := x.a0 + BitVec.ofNat 64 t.len }
          | some 1 => { x with a1 := x.a1 + BitVec.ofNat 64 t.len }
          | some 2 => { x with a2 := x.a2 + BitVec.ofNat 64 t.len }
          | some _ => { x with a3 := x.a3 + BitVec.ofNat 64 t.len }
          | none => x
        (s.modFinger f (fun x => inc t.dstInc (inc t.srcInc x))).fgAdvance f
      else (s.fgFinish f 0 (x.bytes % 2 ^ 32)).fgBoundary f
    else s.fgBoundary f

/-- A destination write is answered. -/
def State.fgWritten (s : State) (f : FgId) (off n addr space code : Nat) : State :=
  if code != 0 then s.fgHalt f (accessHalt code addr space false true)
  else
    let s := s.modFinger f (fun x =>
      match x.transfer with
      | none => x
      | some t =>
        let o := if t.descending then t.len - (off + n) else off
        let (d, l) := mergeDone (t.acked.length + 1) t.done (t.acked ++ [(o, n)])
        { x with bytes := (x.bytes + n) % 2 ^ 32,
                 transfer := some { t with writing := t.writing.filter (· != (off, n)), done := d, acked := l } })
    if (s.finger f).halt.isSome then s.fgSettle f else s.fgDone f

/-- A piece's source data have arrived (R410, R428). -/
def State.fgRead (s : State) (f : FgId) (off : Nat) (space : Nat) (bs : List Byte) (fail : Option (Nat × Nat)) : State :=
  match fail with
  | some (code, addr) => s.fgHalt f (accessHalt code addr space false false)
  | none =>
    let s := s.modFinger f (fun x =>
      match x.transfer with
      | some t => { x with transfer := some { t with ready := t.ready ++ [(off, bs)] } }
      | none => x)
    if (s.finger f).halt.isSome then s.fgSettle f else (s.fgFlush f 64).fgBoundary f

/-- Begin a transfer, or halt with ADDRESS_WRAP (R408). -/
def State.fgBegin (s : State) (f : FgId) (t : Transfer) : State :=
  let wraps (glove : Bool) (a : Nat) : Bool := !glove && decide (2 ^ 64 < a + t.len)
  let s := s.modFinger f (fun x => { x with transfer := some t })
  if t.pattern.isNone && wraps t.srcGlove t.src then s.fgHalt f ⟨0x0503, 0, t.src, 0, false, false⟩
  else if wraps t.dstGlove t.dst then s.fgHalt f ⟨0x0503, 0, t.dst, 0, false, true⟩
  else s

/-- Round up to a multiple of 64 (R425). -/
def round64 (n : Nat) : Nat := (n + 63) / 64 * 64

/-- The next piece of a transfer may be issued now (R393, R396, R425). -/
def State.fgPieceReady (s : State) (f : FgId) (t : Transfer) : Bool :=
  let x := s.finger f
  let (off, n) := t.piece x.burst
  x.stop.isNone && x.stopCode.isNone && !s.fgAsleep f && decide (t.issued < t.len) && decide (round64 n ≤ x.tokens) &&
    s.fgRoom f && s.fgReadRoom f n && !(t.srcGlove && t.pattern.isNone && s.abvHolds f x.target (t.src + off) n false)

/-- A Finger has a request to issue now: a write of a piece read, or the next piece. -/
def State.fgReady (s : State) (f : FgId) : Bool :=
  let x := s.finger f
  x.state == .running && x.halt.isNone && s.serves && !s.fenced (x.engine.getD 0) &&
  (match x.transfer with
   | none => false
   | some t => (t.turn.isSome && s.fgRoom f) || s.fgPieceReady f t)

/-- The Finger's read of the next piece is the first of its requests held at its checker (R226). -/
def State.fgReadHeld (s : State) (f : FgId) : Bool :=
  match s.net.heldAcc.find? (fun h => h.who == 2 * FgId.key f + 1) with
  | some h => h.op == .memRd
  | none => false

/-- Issue one request for one context (R393): a write whose turn it is, else the next piece (R410); a read held at the checker goes before
later writes. -/
def State.fgIssue (s : State) (f : FgId) : State :=
  let x := s.finger f
  match x.transfer with
  | none => s
  | some t =>
    if t.turn.isSome && !(s.fgReadHeld f && s.fgPieceReady f t) then s.fgFlush f 1
    else
      let (off, n) := t.piece x.burst
      match t.pattern with
      | some p =>
        ((s.fgCharge f (round64 n)).modFinger f (fun x =>
          { x with transfer := some { t with issued := t.issued + n, ready := t.ready ++ [(off, fillBytes p (t.dst + off) n)] } })).fgFlush f 1
      | none =>
        match s.issue (s.fgAccess f t.srcGlove .memRd (t.src + off) n []) (fun sp => .fgRead f off n (t.src + off) sp) with
        | .wait s => s
        | .refused s c addr sp => s.fgHalt f (accessHalt c addr sp false false)
        | .sent s _ _ =>
          (s.fgCharge f (round64 n)).modFinger f (fun x => { x with transfer := some { t with issued := t.issued + n } })

/-- A Finger by its number in the table. -/
def fgOfKey (k : Nat) : FgId := ⟨k / 16 / 256, k / 16 % 256, k % 16⟩

/-- FINGER_ISSUE: the engine issues for the next ready context in round-robin order (R393). -/
def execFingerIssue (engine : Nat) (s : State) : Result :=
  .next (
    let u := engineUnit engine
    let ready := ((s.work.fingers.filter (fun e => e.2.engine == some u)).map Prod.fst).filter (fun k => s.fgReady (fgOfKey k))
    let last := s.work.rr.get 0 u
    match (ready.find? (fun k => last < k)).or ready.head? with
    | none => s
    | some k => ({ s with work.rr := s.work.rr.set u k }).fgIssue (fgOfKey k))

/-! ### Taking an entry (R389, R391, R399, R423) -/

/-- A work entry reaches its Finger: `f` starts it. A Finger that cannot take an entry leaves it; an admin entry names a glove of
the link (R47). -/
def State.takeEntry (s : State) (i : Instr) (f : FgId) (o : Origin) (target : Nat) (named : Bool) (op : Nat)
    (bad : Bool) (start : State → State) : State :=
  let s' := s.undispatch i
  if !s.serves || !s'.fgFree f then s
  else if f.fn == 0 && named && !s.linkHas f.link target then s'.refuse o 0x0108
  else if bad then s'.refuse o 0x0002
  else
    start (s'.modFinger f (fun x =>
      { x.idle with entry := some o, opcode := op, target := target, lastQueue := x.lastQueue }))

/-- RUN_PROGRAM (R389, R399). -/
def execRunProgram (f : FgId) (o : Origin) (target : Nat) (gloveSpace : Bool) (addr a0 a1 a2 a3 : Nat) (s : State) : Result :=
  .next (s.takeEntry (.runProgram f o target gloveSpace addr a0 a1 a2 a3) f o target true 0x20 (addr % 32 != 0) (fun s =>
    s.modFinger f (fun x =>
      { x with program := true, pc := addr, pcGlove := gloveSpace, a0 := BitVec.ofNat 64 a0, a1 := BitVec.ofNat 64 a1,
               a2 := BitVec.ofNat 64 a2, a3 := BitVec.ofNat 64 a3, l0 := 0, l1 := 0 })))

/-- COPY (R389, R423). -/
def execCopy (f : FgId) (o : Origin) (target : Nat) (srcGlove dstGlove : Bool) (src dst len : Nat) (s : State) : Result :=
  .next (s.takeEntry (.copy f o target srcGlove dstGlove src dst len) f o target true 0x21 (len == 0) (fun s =>
    s.fgBegin f { src := src, dst := dst, len := len, srcGlove := srcGlove, dstGlove := dstGlove, pattern := none }))

/-- FILL (R389, R415, R423). -/
def execFill (f : FgId) (o : Origin) (target : Nat) (dstGlove : Bool) (dst len : Nat) (pattern : BitVec 64) (s : State) : Result :=
  .next (s.takeEntry (.fill f o target dstGlove dst len pattern) f o target true 0x22 (len == 0 || 2 ^ 32 ≤ len) (fun s =>
    s.fgBegin f { src := 0, dst := dst, len := len, srcGlove := false, dstGlove := dstGlove, pattern := some pattern }))

/-- Issue a ZL_RD on each of the links (R312, R390, R421); a link is named by 256 * link + function (log entry 14). -/
def State.sendZl (s : State) (f : FgId) (ks : List Nat) : State :=
  ks.foldl (fun s k =>
    s.sendHost (.fgZl f (k / 256)) (s.packetOf (s.fgAccess f false .zlRd 0 0 [])) (k / 256) (k % 256) 0 none) s

/-- FLUSH: a ZL_RD on every link to which the queue's earlier entries wrote (R390). -/
def execFlush (f : FgId) (o : Origin) (s : State) : Result :=
  .next (s.takeEntry (.flush f o) f o (s.finger f).target false 0x23 false (fun s =>
    let ks := (s.queue o.q).wroteLinks
    if ks.isEmpty then (s.fgFinish f 0 0).fgBoundary f
    else
      (s.modFinger f (fun x =>
        { x with signalling := some { word := 0, step := 2, zl := ks.map (· / 256), flush := true } })).sendZl f ks))

/-! ### Programs (R399-R407) -/

/-- A Finger runs a program and stands at an instruction: nothing of an instruction is under way and nothing waits to stop it. -/
def State.fgAtInstr (s : State) (f : FgId) : Bool :=
  let x := s.finger f
  s.serves && x.state == .running && x.halt.isNone && x.stop.isNone && x.stopCode.isNone && x.entry.isSome && x.program &&
  x.transfer.isNone && x.waiting.isNone && x.signalling.isNone && !x.fetching && !s.fgAsleep f && !s.fenced (x.engine.getD 0)

/-- The instruction at PC, if its line is in the buffer (R400). -/
def Finger.instr (x : Finger) : Option (BitVec 256) :=
  (x.ibuf.find? (fun e => e.1 == x.pc / 64 * 64)).map (fun e => e.2.extractLsb' (8 * (x.pc % 64)) 256)

/-- Execute the instruction at PC: `w` is its word and `op` its opcode; `f` gives its effect once it decodes, and R402 halts
otherwise. -/
def State.fgExec (s : State) (f : FgId) (w : BitVec 256) (op : Nat) (run : FgOp → State → State) : State :=
  if s.fgAtInstr f && (s.finger f).instr == some w && w.toNat % 256 == op then
    let s := s.modFinger f (fun x => { x with opcode := op, word := w })
    match decodeFg (f.fn == 0) w with
    | some i => run i s
    | none => s.fgHalt f (plainHalt 0x0500)
  else s

/-- Registers A0-A3. -/
def Finger.a (x : Finger) (r : Nat) : BitVec 64 :=
  match r with
  | 0 => x.a0
  | 1 => x.a1
  | 2 => x.a2
  | _ => x.a3

/-- Write a register of R405. -/
def Finger.setReg (x : Finger) (r : Nat) (v : BitVec 64) : Finger :=
  match r with
  | 0 => { x with a0 := v }
  | 1 => { x with a1 := v }
  | 2 => { x with a2 := v }
  | 3 => { x with a3 := v }
  | 4 => { x with l0 := v.setWidth 32 }
  | 5 => { x with l1 := v.setWidth 32 }
  | 6 => { x with adv := v.setWidth 32 }
  | _ => x

/-- Read a register of R405, zero-extended. -/
def Finger.reg (x : Finger) (r : Nat) : BitVec 64 :=
  match r with
  | 4 => x.l0.setWidth 64
  | 5 => x.l1.setWidth 64
  | 6 => x.adv.setWidth 64
  | _ => x.a r

/-- PROGRAM_LINE_FETCH: the line at PC is read into the four-line buffer when it is not there (R400, R425). -/
def execProgramLineFetch (f : FgId) (s : State) : Result :=
  .next (
    let x := s.finger f
    let a := x.pc / 64 * 64
    if !s.fgAtInstr f || x.instr.isSome || x.tokens < 64 || !s.fgRoom f || !s.fgReadRoom f 64 ||
        (x.pcGlove && s.abvHolds f x.target a 64 false) then s
    else
      match s.issue (s.fgAccess f x.pcGlove .memRd a 64 []) (fun sp => .fgFetch f a sp) with
      | .wait s => s
      | .refused s c addr sp => s.fgHalt f (accessHalt c addr sp true false)
      | .sent s _ _ => (s.fgCharge f 64).modFinger f (fun x => { x with fetching := true }))

/-- A program line arrives (R400, R427). -/
def State.fgFetched (s : State) (f : FgId) (addr space : Nat) (l : Line) (fail : Option (Nat × Nat)) : State :=
  let s := (s.modFinger f (fun x => { x with fetching := false })).refetched (· == .instruction f addr) ((fail.map Prod.fst).getD 0)
  match fail with
  | some (c, _) => s.fgHalt f (accessHalt c addr space true false)
  | none =>
    (s.modFinger f (fun x =>
      let b := x.ibuf.filter (fun e => e.1 != addr) ++ [(addr, l)]
      { x with ibuf := b.drop (b.length - 4) })).fgBoundary f

/-- MOVE (R408-R410). -/
def execMove (f : FgId) (w : BitVec 256) (s : State) : Result :=
  .next (s.fgExec f w 0x01 (fun i s => match i with
    | .move sr dr sg dg si di len so d =>
      let x := s.finger f
      s.fgBegin f { src := (x.a sr + so).toNat, dst := (x.a dr + d).toNat, len := len, srcGlove := sg, dstGlove := dg,
                    pattern := none, program := true, srcInc := if si then some sr else none,
                    dstInc := if di then some dr else none }
    | _ => s))

/-- LOOP (R406). -/
def execLoop (f : FgId) (w : BitVec 256) (s : State) : Result :=
  .next (s.fgExec f w 0x02 (fun i s => match i with
    | .loop c t =>
      let x := s.finger f
      let n := if c == 0 then x.l0 else x.l1
      if n == 0 then s.fgAdvance f
      else
        (s.modFinger f (fun x =>
          { x with l0 := if c == 0 then n - 1 else x.l0, l1 := if c == 0 then x.l1 else n - 1,
                   pc := (((x.pc : Int) + 32 * t) % (2 ^ 64 : Int)).toNat })).fgBoundary f
    | _ => s))

/-- SETA (R405). -/
def execSeta (f : FgId) (w : BitVec 256) (s : State) : Result :=
  .next (s.fgExec f w 0x05 (fun i s => match i with
    | .seta r v => (s.modFinger f (fun x => x.setReg r v)).fgAdvance f
    | _ => s))

/-- ADDA (R405, R406). -/
def execAdda (f : FgId) (w : BitVec 256) (s : State) : Result :=
  .next (s.fgExec f w 0x06 (fun i s => match i with
    | .adda r v => (s.modFinger f (fun x => x.setReg r (x.reg r + v))).fgAdvance f
    | _ => s))

/-- END (R407). -/
def execEndInstr (f : FgId) (w : BitVec 256) (s : State) : Result :=
  .next (s.fgExec f w 0x0F (fun i s => match i with
    | .fin r imm =>
      let v := match r with
        | some r => ((s.finger f).a r).toNat % 2 ^ 48
        | none => imm
      (s.fgFinish f 0 v).fgBoundary f
    | _ => s))

/-- INVALID_INSTRUCTION: the word at PC is none that R403 lists (R402). -/
def execInvalidInstruction (f : FgId) (w : BitVec 256) (s : State) : Result :=
  .next (if s.fgAtInstr f && (s.finger f).instr == some w && (decodeFg (f.fn == 0) w).isNone then
      (s.modFinger f (fun x => { x with opcode := w.toNat % 256, word := w })).fgHalt f (plainHalt 0x0500)
    else s)

/-! ### Waiting (R416-R419) -/

/-- The comparison of a flag WAIT (R416). -/
def flagHolds (cmp : Nat) (f mask value : BitVec 64) : Bool :=
  let m := f &&& mask
  match cmp with
  | 0 => m == value
  | 1 => m != value
  | 2 => decide (value.toNat ≤ m.toNat)
  | 3 => decide (m.toNat < value.toNat)
  | 4 => !(m - value).msb
  | _ => (m - value).msb

/-- A WAIT completes: the instruction buffer is emptied (R400). -/
def State.waitDone (s : State) (f : FgId) : State :=
  ((s.unwait f).modFinger f (fun x => { x with ibuf := [] })).fgAdvance f

/-- Waiters on the event register are served in the order in which they began to wait: a waiter with a bit of its MASK set clears
those bits and completes (R418). -/
def State.eventWake (s : State) (fn : FnId) : Nat → State
  | 0 => s
  | n + 1 =>
    let x := s.fn fn
    let mask (i : Nat) : BitVec 32 := match (s.finger ⟨fn.link, fn.fn, i⟩).waiting with
      | some w => if w.kind == 2 then w.mask.setWidth 32 else 0
      | none => 0
    match x.waiters.find? (fun i => x.events &&& mask i != 0) with
    | none => s
    | some i =>
      ((s.modFn fn (fun y => { y with events := y.events &&& ~~~(mask i) })).waitDone ⟨fn.link, fn.fn, i⟩).eventWake fn n

/-- Set event bits (R418). -/
def State.setEvents (s : State) (fn : FnId) (b : BitVec 32) : State :=
  (s.modFn fn (fun x => { x with events := x.events ||| b })).eventWake fn 16

/-- Begin a WAIT. -/
def State.beginWait (s : State) (f : FgId) (w : Waiting) : State :=
  let s := s.modFinger f (fun x => { x with waiting := some w })
  if w.kind == 2 then
    (s.modFn f.fnId (fun x => { x with waiters := x.waiters.filter (· != f.f) ++ [f.f] })).eventWake f.fnId 16
  else s

/-- Sign extension of a 32-bit offset. -/
def offset32 (o : BitVec 32) : BitVec 64 := o.signExtend 64

/-- WAIT (R416-R419). -/
def execWait (f : FgId) (w : BitVec 256) (s : State) : Result :=
  .next (s.fgExec f w 0x03 (fun i s => match i with
    | .waitFlag r g cmp poll lim off mask value =>
      let a := ((s.finger f).a r + offset32 off).toNat
      if a % 8 != 0 then s.fgHalt f ⟨0x0504, 0, a, if g then 1 else 0, false, false⟩
      else s.beginWait f { kind := 0, addr := a, gloveSpace := g, mask := mask, value := value, cmp := cmp, poll := poll, timeout := lim }
    | .waitTimer ns =>
      s.beginWait f { kind := 1, addr := 0, gloveSpace := false, mask := 0, value := BitVec.ofNat 64 ns, cmp := 0, poll := 0, timeout := 0 }
    | .waitEvent mask lim =>
      s.beginWait f { kind := 2, addr := 0, gloveSpace := false, mask := mask.setWidth 64, value := 0, cmp := 0, poll := 0, timeout := lim }
    | _ => s))

/-- A WAIT may go on: the Finger runs and nothing stops it. -/
def State.fgWaits (s : State) (f : FgId) : Bool :=
  let x := s.finger f
  s.serves && x.state == .running && x.halt.isNone && !s.fgAsleep f && !s.fenced (x.engine.getD 0)

/-- WAIT_POLL: the flag is read once more (R416). -/
def execWaitPoll (f : FgId) (s : State) : Result :=
  .next (
    let x := s.finger f
    match x.waiting with
    | some w =>
      if !s.fgWaits f || w.kind != 0 || w.polling || x.tokens < 64 || !s.fgRoom f || !s.fgReadRoom f 8 ||
          (w.gloveSpace && s.abvHolds f x.target w.addr 8 false) then s
      else
        match s.issue (s.fgAccess f w.gloveSpace .memRd w.addr 8 []) (fun sp => .fgPoll f w.addr sp) with
        | .wait s => s
        | .refused s c addr sp => s.fgHalt f (accessHalt c addr sp false false)
        | .sent s _ _ => (s.fgCharge f 64).modFinger f (fun x => { x with waiting := some { w with polling := true } })
    | none => s)

/-- A poll's value arrives (R416). -/
def State.fgPolled (s : State) (f : FgId) (addr space : Nat) (bs : List Byte) (fail : Option (Nat × Nat)) : State :=
  match (s.finger f).waiting with
  | none => s.fgSettle f
  | some w =>
    let s := s.modFinger f (fun x => { x with waiting := some { w with polling := false } })
    match fail with
    | some (c, a) => s.fgHalt f (accessHalt c (max a addr) space false false)
    | none =>
      if (s.finger f).halt.isSome then s.fgSettle f
      else if flagHolds w.cmp (BitVec.ofNat 64 (leNat bs)) w.mask w.value then s.waitDone f
      else s

/-- WAIT_TIMER_EXPIRY (R417). -/
def execWaitTimerExpiry (f : FgId) (s : State) : Result :=
  .next (match (s.finger f).waiting with
    | some w => if s.fgWaits f && w.kind == 1 then s.waitDone f else s
    | none => s)

/-- WAIT_TIMEOUT: a flag or event WAIT passes its limit (R419). -/
def execWaitTimeout (f : FgId) (s : State) : Result :=
  .next (match (s.finger f).waiting with
    | some w => if s.fgWaits f && w.kind != 1 && w.timeout != 0 then (s.unwait f).fgHalt f (plainHalt 0x0502) else s
    | none => s)

/-! ### Signalling (R420, R421) -/

/-- Steps 3 and 4 of a SIGNAL, or the end of a FLUSH (R420, R390). -/
def State.signalEnd (s : State) (f : FgId) : State :=
  let x := s.finger f
  match x.signalling with
  | none => s
  | some g =>
    if g.flush then
      let s := match x.entry with
        | some o => s.modQueue o.q (fun q => { q with wroteLinks := [] })
        | none => s
      (s.fgFinish f 0 0).fgBoundary f
    else
      match decodeFg (f.fn == 0) g.word with
      | some (.signal _ adv ev dur vec _ _ _ events n value) =>
        let s := s.modFinger f (fun x =>
          { x with signalling := none, ibuf := [], adv := if adv then x.adv + value.setWidth 32 else x.adv,
                   wrote := if dur then [] else x.wrote })
        let s := if ev then s.setEvents f.fnId events else s
        let s := if vec then s.requestVector ((s.finger f).engine.getD 0) f.fnId n else s
        s.fgAdvance f
      | _ => s

/-- Step 2 of a SIGNAL: the ZL_RDs of a durable one (R421). -/
def State.signalDurable (s : State) (f : FgId) (w : BitVec 256) : State :=
  match decodeFg (f.fn == 0) w with
  | some (.signal _ _ _ true _ _ _ _ _ _ _) =>
    let ks := (s.finger f).wrote
    if ks.isEmpty then s.signalEnd f
    else (s.modFinger f (fun x => { x with signalling := some { word := w, step := 2, zl := ks.map (· / 256) } })).sendZl f ks
  | _ => s.signalEnd f

/-- SIGNAL (R420). -/
def execSignal (f : FgId) (w : BitVec 256) (s : State) : Result :=
  .next (s.fgExec f w 0x04 (fun i s => match i with
    | .signal flag adv _ _ _ r g off _ _ value =>
      let x := s.finger f
      let a := (x.a r + offset32 off).toNat
      let n := if flag then 8 else 4
      let start (s : State) : State := s.modFinger f (fun x => { x with signalling := some { word := w, step := 1 } })
      if !flag && !adv then (start s).signalDurable f w
      else if a % n != 0 then s.fgHalt f ⟨0x0504, 0, a, if g then 1 else 0, false, true⟩
      else if x.tokens < 64 || !s.fgRoom f || (g && s.abvHolds f x.target a n true) then s
      else
        let v := if flag then value.toNat else (x.adv + value.setWidth 32).toNat
        match s.issue (s.fgAccess f g .memWr a n (packLines a (leBytes n v))) (fun sp => .fgFlag f a sp) with
        | .wait s => s
        | .refused s c addr sp => s.fgHalt f (accessHalt c addr sp false true)
        | .sent s sp link => (((start (s.fgCharge f 64)).countDma f sp n).fgWrote f link s.lastFn)
    | _ => s))

/-- The flag write is acknowledged (R420). -/
def State.flagAcked (s : State) (f : FgId) (addr space code : Nat) : State :=
  match (s.finger f).signalling with
  | none => s.fgSettle f
  | some g =>
    if code != 0 then (s.modFinger f (fun x => { x with signalling := none })).fgHalt f (accessHalt code addr space false true)
    else if (s.finger f).halt.isSome then (s.modFinger f (fun x => { x with signalling := none })).fgSettle f
    else s.signalDurable f g.word

/-- A ZL_RD returns (R390, R421); a failed one halts the Finger. -/
def State.zlDone (s : State) (f : FgId) (link code : Nat) : State :=
  match (s.finger f).signalling with
  | none => s.fgSettle f
  | some g =>
    let g' := { g with zl := eraseFirst (· == link) g.zl }
    let s := s.modFinger f (fun x => { x with signalling := some g' })
    if code != 0 then s.fgHalt f (accessHalt code 0 0 false false)
    else if (s.finger f).halt.isSome then s.fgSettle f
    else if g'.zl.isEmpty then s.signalEnd f
    else s

/-! ### Tokens and events -/

/-- Share in force: clamped to the glove's rate ceiling (R378, R424). -/
def State.fgShare (s : State) (f : FgId) : Nat :=
  match s.fgGlove f with
  | some g => min (s.finger f).share (s.glove g).rate
  | none => (s.finger f).share

/-- TOKEN_REFILL: one microsecond of tokens (R424). -/
def execTokenRefill (f : FgId) (s : State) : Result :=
  .next (s.modFinger f (fun x =>
    { x with tokens := min x.burst (x.tokens + s.fgShare f * (s.quad (linkQuad f.link)).cur / 2) }))

/-- FNG_EVENTS_SET: host software sets event bits (R418, R436). -/
def execFngEventsSet (f : FnId) (b : BitVec 32) (s : State) : Result :=
  .next (if s.bar0On f then s.setEvents f b else s)

/-- FNG_EVENT_CLR: host software clears event bits (R418, R436). -/
def execFngEventClr (f : FnId) (b : BitVec 32) (s : State) : Result :=
  .next (if s.bar0On f then s.modFn f (fun x => { x with events := x.events &&& ~~~b }) else s)

end Sys2Proof.Machine
end

