-- ==== Sys2Proof/Machine/Cuff.lean ====
section
/-! DEFINITION. The Cuff's requests toward its host: splitting, transmission, completions, and the events that end them
(R309-R313, R324-R331, R334, R335). -/

namespace Sys2Proof

/-- The bytes of a write packet from its address on, with the disabled ones absent. -/
def Packet.optBytes (p : Packet) : List (Option Byte) :=
  (List.range p.len).map (fun i =>
    if p.enabled i then
      some (lineByte (p.data.getD ((p.addr + i) / 64 - p.addr / 64) 0) ((p.addr + i) % 64))
    else none)

end Sys2Proof

namespace Sys2Proof.Machine

/-- Pieces of the range [a, a + n) of at most `m` bytes that stay within 4 KiB blocks (R309). -/
def splitRange (m : Nat) : Nat → Nat → Nat → List (Nat × Nat)
  | 0, _, _ => []
  | k + 1, a, n =>
    if n == 0 then []
    else
      let d := min n (min (max 1 m) (4096 - a % 4096))
      (a, d) :: splitRange m k (a + d) (n - d)

/-- The TLPs of a device-initiated request (R309, R312). -/
def State.tlpsOf (s : State) (p : Packet) : List Tlp :=
  let f := s.fn ⟨p.link, p.fn⟩
  match p.op with
  | .memWr =>
    let ps := splitRange f.mps p.len p.addr p.len
    (ps.zipIdx).map (fun (e, i) =>
      .memWr p.fn e.1 ((p.optBytes.drop (e.1 - p.addr)).take e.2) p (i + 1 == ps.length))
  | .memRd => (splitRange f.mrrs p.len p.addr p.len).map (fun e => .memRd p.fn e.1 e.2 p)
  | _ => [.memRd p.fn p.addr 0 p]

/-- The packet and the function of a TLP. -/
def Tlp.pkt : Tlp → Packet
  | .memWr _ _ _ p _ => p
  | .memRd _ _ _ p => p
def Tlp.fn : Tlp → Nat
  | .memWr f _ _ _ _ => f
  | .memRd f _ _ _ => f
def Tlp.posted : Tlp → Bool
  | .memWr .. => true
  | .memRd .. => false

/-- The same Weave request: initiator and tag. -/
def samePkt (p q : Packet) : Bool := p.initUnit == q.initUnit && p.tag == q.tag

/-- The function for which a request is issued (R337): PF0, the glove's VF, or the function the packet names. -/
def State.issuer (s : State) (p : Packet) : FnId :=
  if p.gloveValid then (s.vfOf p.glove).getD ⟨p.link, p.fn⟩ else ⟨p.link, p.fn⟩

/-- The request came through a peer window: it aims at a function other than its own. -/
def State.viaWindow (s : State) (p : Packet) : Bool :=
  p.hostSpace && s.issuer p != ⟨p.link, p.fn⟩

/-- A device-initiated request fails at the Cuff: its initiator gets the code. A posted write that a Finger lost to a cleared BME,
or that a Finger or a queue manager sent through a peer window, is also recorded in its function's error log (R329, R220, R337); a Cuff
records its own hosts' writes when the ACK returns. -/
def State.failDev (s : State) (p : Packet) (code : Nat) : State :=
  let s := if p.op.cls == 0 && unitKind p.initUnit != 0 && (code == 0x0031 || s.viaWindow p) then
      s.farSide (s.issuer p) code 2 p.addr p.fn p.link (if p.gloveValid then p.glove else 0) (cuffUnit (p.link / 2))
    else s
  s.answer p code

/-- The peer window that a request came through is closed for good (R55). -/
def State.peerClosed (s : State) (p : Packet) : Bool :=
  match (s.reqOf p.initUnit p.tag).bind Req.window with
  | some slot => s.windowClosed p.glove slot
  | none => false

/-- A request that a queue manager makes for its own function is withdrawn, not failed, while the function cannot send
(R329, R331). -/
def State.isQmgr (s : State) (p : Packet) : Bool := unitKind p.initUnit == 5 && !s.viaWindow p

/-- A device-initiated request reaches its Cuff (R309, R220, R329, R331). -/
def State.cuffRequest (s : State) (p : Packet) : State :=
  let f : FnId := ⟨p.link, p.fn⟩
  let x := s.fn f
  if !(s.link p.link).up then s.failDev p 0x0030
  else if s.peerClosed p then s.failDev p 0x0101
  else if s.isQmgr p && (!x.bme || x.d3) then s.modLink p.link (fun l => { l with withdrawn := l.withdrawn ++ [p] })
  else if !x.bme || (x.d3 && s.viaWindow p) then s.failDev p 0x0031
  else
    let ts := s.tlpsOf p
    s.modLink p.link (fun l =>
      { l with txq := l.txq ++ ts,
               devReqs := if p.op.cls == 1 then l.devReqs ++ [{ pkt := p, left := ts.length }] else l.devReqs })

/-- Device-initiated slots of a link and tags of a function (R313). -/
def State.devSlots (s : State) (l : Nat) : Nat := if s.twoX8 (l / 2) then 2048 else 4096
def State.tagSpace (s : State) (f : FnId) : Nat :=
  match (s.fn f).tags with
  | 8 => 256
  | 10 => 768
  | _ => s.devSlots f.link

/-- The lowest free tag of a function. -/
def State.hostTag (s : State) (f : FnId) : Option Nat :=
  let rs := (s.link f.link).reqs
  (List.range (s.tagSpace f)).find? (fun t => !rs.any (fun r => r.fn == f.fn && r.tag == t))

/-- Slots of a link taken before a queued TLP finds one (R313, R219): a read transmitted and not complete takes one, and so does each
posted write of a peer that stands in the queue ahead. -/
def State.slotsBefore (s : State) (l : Nat) (t : Tlp) : Nat :=
  let peers := ((((s.link l).txq.takeWhile (· != t)).filter (fun e => e.posted && s.viaWindow e.pkt && !samePkt e.pkt t.pkt)).map Tlp.pkt)
  (s.link l).reqs.length + (peers.foldl (fun (a : List Packet) p => if a.any (samePkt p) then a else a ++ [p]) []).length

/-- A TLP may be transmitted now: its function is in D0 with BME set; a read or a peer's write finds a slot, and a read a tag. -/
def State.eligible (s : State) (l : Nat) (t : Tlp) : Bool :=
  let f : FnId := ⟨l, t.fn⟩
  let slot := decide (s.slotsBefore l t < s.devSlots l)
  (s.fn f).bme && !(s.fn f).d3 && (if t.posted then slot || !s.viaWindow t.pkt else slot && (s.hostTag f).isSome)

/-- The stream that covers a VF (R659): the covering Secure selective stream with the lowest ID, else the link stream if it is
Secure. -/
def State.tdiStream (s : State) (l vf : Nat) : Option Nat :=
  let x := s.link l
  let covers (i : IdeStream) : Bool := match i.block with
    | some b => x.ideRids.has b && decide ((x.ideRids.get (0, 0) b).1 ≤ vf) && decide (vf ≤ (x.ideRids.get (0, 0) b).2)
    | none => false
  let sel := ((x.ide.filter (fun i => i.secure && covers i)).map IdeStream.id).foldl
    (fun (a : Option Nat) n => some (match a with
      | some m => min m n
      | none => n)) none
  sel.or ((x.ide.find? (fun i => i.secure && i.block.isNone)).map IdeStream.id)

/-- Attributes of a TLP (R310, R218): peer traffic has the T bit clear and goes outside the selective streams; a function's own
requests carry T while its TDI is in RUN, on the TDI's stream (PRESUMED, log entry 116). -/
def State.tlpAttr (s : State) (l : Nat) (t : Tlp) : TlpAttr :=
  let x := s.glove (s.gloveOf ⟨l, t.fn⟩)
  let ep := t.posted && t.pkt.ep
  if s.viaWindow t.pkt then { stream := ((s.link l).ide.find? (fun i => i.secure && i.block.isNone)).map IdeStream.id, ep := ep }
  else if t.fn != 0 && x.tdi == .run then { t := true, stream := x.stream, ep := ep }
  else { stream := s.tdiStream l t.fn, ep := ep }

/-- CUFF_TX_DEQUEUE: the first TLP that may go is transmitted; a write's last TLP acknowledges it (R310, R311, R313, R331). -/
def execCuffTxDequeue (link : Nat) (s : State) : Result :=
  .next (if !s.awake || !(s.link link).up then s
    else
      match (s.link link).txq.find? (s.eligible link) with
      | none => s
      | some t =>
        let attr := s.tlpAttr link t
        let s := s.modLink link (fun l => { l with txq := eraseFirst (· == t) l.txq })
        match t with
        | .memWr fn a d p last =>
          let s := s.emit (.memWr link fn a d attr)
          if last then s.answer p 0 else s
        | .memRd fn a n p =>
          let tag := (s.hostTag ⟨link, fn⟩).getD 0
          (s.modLink link (fun l => { l with reqs := l.reqs ++ [⟨fn, tag, a, n, p⟩] })).emit (.memRd link fn a n tag attr))

/-- Forget a non-posted request: its held entry, its TLPs not yet transmitted and its tags. -/
def State.forgetDev (s : State) (l : Nat) (p : Packet) : State :=
  s.modLink l (fun x =>
    { x with devReqs := x.devReqs.filter (fun d => !samePkt d.pkt p)
             reqs := x.reqs.filter (fun r => !samePkt r.pkt p)
             txq := x.txq.filter (fun t => t.posted || !samePkt t.pkt p) })

/-- End a non-posted request with a code. -/
def State.endDev (s : State) (l : Nat) (p : Packet) (code : Nat) : State := (s.forgetDev l p).failDev p code

/-- All the data of a request have arrived: they return on the Weave; poisoned data carry EP. -/
def State.devDone (s : State) (l : Nat) (d : DevReq) : State :=
  let p := d.pkt
  let s := s.forgetDev l p
  if p.op == .zlRd then s.answer p 0
  else
    let byte (a : Nat) : Byte := match d.got.find? (fun g => decide (g.1 ≤ a) && decide (a < g.1 + g.2.length)) with
      | some g => g.2.getD (a - g.1) 0
      | none => 0
    let ls := p.lines.map (fun n => lineOf ((List.range 64).map (fun i => byte (64 * n + i))))
    ((chunks 8 ls).zipIdx).foldl (fun s (c, i) => s.respond p .cplD 0 (64 * (p.addr / 64 + 8 * i)) c d.ep) s

/-! ### IDE marks (R90, R94) -/

/-- A TDI goes to ERROR (R94, R97): its Fingers that hold an entry halt at their next boundary. -/
def State.tdiError (s : State) (g : Nat) : State :=
  match s.vfOf g with
  | none => s.modGlove g (fun x => { x with tdi := .error })
  | some f =>
    let s := s.modGlove g (fun x => { x with tdi := .error })
    ((fingersOf f).foldl (fun s i => s.fgStopCode i 0x0104) s).raiseCause f causeTdi

/-- The TDI can fail: CONFIG_LOCKED or RUN. -/
def Glove.tdiLive (g : Glove) : Bool := g.tdi == .locked || g.tdi == .run

/-- The gloves of a link. -/
def State.glovesOf (s : State) (l : Nat) : List Nat := (List.range (s.range l).2).map (· + (s.range l).1)

/-- An IDE check fails on a stream (R90): the TLP is discarded, the stream goes Insecure, the TDIs bound to it to ERROR. -/
def State.ideFail (s : State) (l stream : Nat) (t : TlpHead) : State :=
  let s := s.modLink l (fun x => { x with ide := x.ide.map (fun i => if i.id == stream then { i with secure := false, active := none, keys := [] } else i) })
  let s := (s.glovesOf l).foldl (fun s g =>
    if (s.glove g).tdiLive && (s.glove g).stream == some stream then s.tdiError g else s) s
  (s.aerTlp ⟨l, 0⟩ .ideCheckFailed t).contained 0 0x004C (cuffUnit (l / 2)) l none

/-- The IDE check of a received TLP. -/
def State.ideCheck (s : State) (l : Nat) (m : Option IdeMark) (t : TlpHead) (f : State → State) : State :=
  match m with
  | some i => if i.ok then f s else s.ideFail l i.stream t
  | none => f s

/-! ### Completions from the host -/

/-- HOST_COMPLETION (R326, R327): data join their request; a UR, CA or RRS ends it with HOST_CPL_ERROR. -/
def execHostCompletion (c : HostCpl) (s : State) : Result :=
  .next (if !s.awake || !(s.link c.link).up then s
    else s.ideCheck c.link c.ide (cplHead c) (fun s =>
      match (s.link c.link).reqs.find? (fun r => r.fn == c.fn && r.tag == c.tag) with
      | none =>
        (s.modLink c.link (fun x => { x with unexpected := satAdd 65535 x.unexpected 1 })).aerTlp ⟨c.link, 0⟩ .unexpectedCompletion
          (cplHead c)
      | some r =>
        if c.status != .sc then s.endDev c.link r.pkt 0x0034
        else
          let n := min r.len c.data.length
          let fin := r.len ≤ n
          let r' : HostReq := { r with addr := r.addr + n, len := r.len - n }
          let s := s.modLink c.link (fun x =>
            { x with
              reqs := if fin then x.reqs.filter (· != r) else x.reqs.map (fun q => if q == r then r' else q)
              devReqs := x.devReqs.map (fun d =>
                if samePkt d.pkt r.pkt then
                  { d with got := d.got ++ [(r.addr, c.data.take n)], left := if fin then d.left - 1 else d.left, ep := d.ep || c.ep }
                else d) })
          match (s.link c.link).devReqs.find? (fun d => samePkt d.pkt r.pkt) with
          | some d => if d.left == 0 then s.devDone c.link d else s
          | none => s))

/-- HOST_CPL_TIMEOUT: a device-initiated non-posted request passes its bound (R325). -/
def execHostCplTimeout (link unit tag : Nat) (s : State) : Result :=
  .next (match (s.link link).devReqs.find? (fun d => d.pkt.initUnit == unit && d.pkt.tag == tag) with
    | none => s
    | some d =>
      ((s.modLink link (fun x => { x with timeouts := satAdd 65535 x.timeouts 1 })).aer ⟨link, d.pkt.fn⟩ .completionTimeout).endDev
        link d.pkt 0x0033)

/-! ### Events that end requests (R329, R331, R334, R335, R54) -/

/-- Discard the queued writes that `hit` picks, and count them (R334, R335); each write whose last TLP goes is answered. -/
def State.dropPosted (s : State) (l : Nat) (hit : Packet → Bool) (code : Nat) : State :=
  let lost := (s.link l).txq.filter (fun t => t.posted && hit t.pkt)
  let s := s.modLink l (fun x =>
    { x with txq := x.txq.filter (fun t => !(t.posted && hit t.pkt)), discarded := (x.discarded + lost.length) % 2 ^ 32 })
  lost.foldl (fun s t => match t with
    | .memWr _ _ _ p true => s.failDev p code
    | _ => s) s

/-- End the non-posted requests that `hit` picks. -/
def State.dropReads (s : State) (l : Nat) (hit : Packet → Bool) (code : Nat) : State :=
  ((s.link l).devReqs.filter (fun d => hit d.pkt)).foldl (fun s d => s.endDev l d.pkt code) s

/-- Some TLP of a request has been transmitted. -/
def State.begun (s : State) (l : Nat) (p : Packet) : Bool :=
  decide (((s.link l).txq.filter (fun t => samePkt t.pkt p)).length < (s.tlpsOf p).length)

/-- Withdraw a function's queue-manager requests of which nothing is transmitted (R329, R331); the untransmitted rest of one that
has begun stays queued and goes later. -/
def State.withdraw (s : State) (f : FnId) : State :=
  let mine (p : Packet) : Bool := p.fn == f.fn && s.isQmgr p && !s.begun f.link p
  let ps := ((s.link f.link).txq.map Tlp.pkt).filter mine
  let ps := ps.foldl (fun a p => if a.any (samePkt p) then a else a ++ [p]) []
  s.modLink f.link (fun x =>
    { x with txq := x.txq.filter (fun t => !mine t.pkt), devReqs := x.devReqs.filter (fun d => !mine d.pkt),
             withdrawn := x.withdrawn ++ ps })

/-- Issue the withdrawn requests of a function again, in their order (R329, R331). -/
def State.reissue (s : State) (f : FnId) : State :=
  let ps := (s.link f.link).withdrawn.filter (fun p => p.fn == f.fn)
  let s := s.modLink f.link (fun x => { x with withdrawn := x.withdrawn.filter (fun p => p.fn != f.fn) })
  ps.foldl (fun s p => s.cuffRequest p) s

/-- End every device-initiated request of the functions that `hit` picks (R334, R335). -/
def State.endRequests (s : State) (l : Nat) (hit : Nat → Bool) (code : Nat) : State :=
  let ws := (s.link l).withdrawn.filter (fun p => hit p.fn)
  let s := s.modLink l (fun x => { x with withdrawn := x.withdrawn.filter (fun p => !hit p.fn) })
  let s := ws.foldl (fun s p => s.answer p code) s
  (s.dropReads l (fun p => hit p.fn) code).dropPosted l (fun p => hit p.fn) code

end Sys2Proof.Machine
end

