-- ==== Sys2Proof/Machine/Msi.lean ====
section
/-! DEFINITION. Host messages: moderation in the event gatherer, the commit point at the Cuff, pending bits and PME (R341,
R494-R510). -/

namespace Sys2Proof.Machine

/-- Vectors of a function (R340). -/
def vectorsOf (f : FnId) : Nat := if f.fn == 0 then 2048 else 64

/-- Change one moderation group. -/
def State.modGroup (s : State) (f : FnId) (g : Nat) (m : ModGroup → ModGroup) : State :=
  s.modFn f (fun x => { x with groups := x.groups.mod {} g m })

def State.group (s : State) (f : FnId) (g : Nat) : ModGroup := (s.fn f).groups.get {} g

/-- A request absorbed into a due or pending message (R495, R498). -/
def State.coalesce (s : State) (f : FnId) : State :=
  s.modFn f (fun x => { x with coalesced := (x.coalesced + 1) % 2 ^ 32 })

/-- The packet of a MSG_REQ; ADDRESS names the vector in the model (log entry 118). -/
def msgPacket (f : FnId) (v : Nat) : Packet :=
  { ePacket .msgReq gathererUnit (cuffUnit (f.link / 2)) with link := f.link, fn := f.fn, addr := v }

/-- Send a MSG_REQ to a function's Cuff (R495). -/
def State.askMessage (s : State) (f : FnId) (v : Nat) : State :=
  let n := s.net.nextPkt
  let s := s.pushFlits n (unitKnot gathererUnit) (msgPacket f v)
  { s with net.pkts := s.net.pkts.set n (msgPacket f v), net.nextPkt := n + 1, net.msgReqs := s.net.msgReqs ++ [(f, v)] }

/-- Send MSG_REQ for every due vector of a group, lowest first, and start the hold-off (R495). -/
def State.issueGroup (s : State) (f : FnId) (g : Nat) : State :=
  let x := s.group f g
  let vs := ((List.range 8).filter (fun i => x.due.getLsbD i)).map (fun i => 8 * g + i)
  let s := vs.foldl (fun s v => s.askMessage f v) s
  s.modGroup f g (fun x => { x with due := 0, running := decide (0 < x.holdoff) })

/-- EVENT: a request for a vector reaches the event gatherer (R495). -/
def execEvent (f : FnId) (vec : Nat) (s : State) : Result :=
  .next (
    let s := { s with net.events := eraseFirst (· == (f, vec)) s.net.events }
    if !s.awake || !s.fnEnabled f || vectorsOf f ≤ vec then s
    else
      let g := vec / 8
      let b : BitVec 8 := BitVec.ofNat 8 (2 ^ (vec % 8))
      let s := if (s.group f g).due &&& b != 0 then s.coalesce f
        else s.modGroup f g (fun x => { x with due := x.due ||| b })
      if (s.group f g).running then s else s.issueGroup f g)

/-- MODERATION_TIMER_EXPIRY (R495). -/
def execModerationTimerExpiry (f : FnId) (group : Nat) (s : State) : Result :=
  .next (if !(s.group f group).running then s
    else
      let s := s.modGroup f group (fun x => { x with running := false })
      if (s.group f group).due != 0 then s.issueGroup f group else s)

/-- MSG_REQ: the message joins its Cuff's queue (R495, R498); the knot of a fenced Cuff discards it (R521); one for a Cuff whose domain is
not on is held and wakes it (R261, R266). -/
def execMsgReq (f : FnId) (vec : Nat) (s : State) : Result :=
  .next (
    let p := msgPacket f vec
    if s.waitsTurn p then s
    else if !s.fenced p.dest && !s.unitOn p.dest then s.wake (unitDomain p.dest) (unitWanter p.initUnit)
    else
      let s := { (s.take p) with net.msgReqs := eraseFirst (· == (f, vec)) s.net.msgReqs }
      if !s.awake || !s.fnEnabled f || vectorsOf f ≤ vec then s
      else if s.fenced p.dest then s.contained 1 0x0702 p.dest 0 none
      else { s with host.msgs := s.host.msgs ++ [(f, vec)] })

/-- The conditions of R341 hold for a vector. -/
def State.canSend (s : State) (f : FnId) (vec : Nat) : Bool :=
  let x := s.fn f
  (s.link f.link).up && x.msixEnable && !x.fnMask && !(x.msix.get {} vec).mask && x.bme && !x.d3

/-- A function has a PME to send, for WAKE# (R508). -/
def Fn.hasPme (x : Fn) : Bool := x.pmeEn && (x.pmeStatus || x.pmePending)

/-- WAKE# of a link is low only in L2 with a PME to send (R290); it is released otherwise. -/
def State.wakeUpdate (s : State) (l : Nat) : State :=
  let want := (s.link l).power == .l2 && s.host.fns.any (fun e => e.1 / 256 == l && e.2.hasPme)
  if (s.link l).wake == want then s
  else (s.modLink l (fun x => { x with wake := want })).emit (.wake l want)

/-- Send a PME message, once until PME_Status is cleared (R506); in L2 the PME is WAKE# (R290). -/
def State.sendPme (s : State) (f : FnId) : State :=
  let x := s.fn f
  let s := if x.pmeEn && !x.pmeStatus then
      let s := s.modFn f (fun y => { y with pmeStatus := true })
      if (s.link f.link).up && (s.link f.link).power != .l2 then s.emit (.pme f.link f.fn) else s
    else s
  s.wakeUpdate f.link

/-- A link in L1 or a substate leaves it to transmit (R505). -/
def State.leaveL1 (s : State) (l : Nat) : State :=
  let p := (s.link l).power
  if p == .l1 || p == .l11 || p == .l12 then
    (s.modLink l (fun x => { x with power := .l0, ltssm := .l0 })).castVotes s |>.wakeCuff l
  else s

/-- Transmit a message with the vector's address and data as they stand (R341, R498). -/
def State.transmitMsi (s : State) (f : FnId) (vec : Nat) : State :=
  let e := (s.fn f).msix.get {} vec
  ((s.leaveL1 f.link).modFn f (fun x => { x with sent := (x.sent + 1) % 2 ^ 32 })).emit (.msix f.link f.fn vec e.addr e.data)

/-- MSIX_COMMIT: the commit point of a queued message (R498, R506, R509). -/
def execMsixCommit (f : FnId) (vec : Nat) (s : State) : Result :=
  .next (if !s.awake || !s.host.msgs.contains (f, vec) then s
    else
      let s := { s with host.msgs := eraseFirst (· == (f, vec)) s.host.msgs }
      if (s.fn f).pba.contains vec then s.coalesce f
      else if s.canSend f vec then s.transmitMsi f vec
      else
        let s := s.modFn f (fun x => { x with pba := x.pba ++ [vec], pmePending := x.pmePending || x.d3 })
        if (s.fn f).d3 || !(s.fn f).msixEnable then s.sendPme f else s.wakeUpdate f.link)

/-- PENDING_VECTOR_SEND: the conditions hold again for a pending vector (R501, R507). -/
def execPendingVectorSend (f : FnId) (vec : Nat) (s : State) : Result :=
  .next (if s.awake && (s.fn f).pba.contains vec && s.canSend f vec then
      (s.modFn f (fun x => { x with pba := x.pba.filter (· != vec) })).transmitMsi f vec
    else s)

/-- Set a Mask bit or the Function Mask (R499). -/
def State.setMask (s : State) (f : FnId) (t : MaskTarget) (v : Bool) : State :=
  match t with
  | .vector i => s.modFn f (fun x => { x with msix := x.msix.mod {} i (fun e => { e with mask := v }) })
  | .function => s.modFn f (fun x => { x with fnMask := v })

/-- MSIX_MASK_WRITE (R499): a Mask bit stands in the MSI-X table in BAR0, the Function Mask in configuration space. -/
def execMsixMaskWrite (f : FnId) (t : MaskTarget) (v : Bool) (s : State) : Result :=
  .next (if (match t with
      | .vector i => s.bar0On f && decide (i < vectorsOf f)
      | .function => s.cfgOpen f) then s.setMask f t v else s)

/-- Messages of a reset function that have not committed are dropped (R510). -/
def State.dropMessages (s : State) (f : FnId) : State :=
  { s with host.msgs := s.host.msgs.filter (fun m => m.1 != f), net.msgReqs := s.net.msgReqs.filter (fun m => m.1 != f),
           net.pkts := s.net.pkts.filter (fun e => !(e.2.op == .msgReq && e.2.link == f.link && e.2.fn == f.fn)),
           net.events := s.net.events.filter (fun m => m.1 != f) }

end Sys2Proof.Machine
end

