-- ==== Sys2Proof/Machine/FnState.lean ====
section
/-! DEFINITION. Functions and host links: resets, link loss, Bus Master Enable, power states, SR-IOV and BAR writes (R57, R58, R180-
R191, R289-R293, R299, R328-R336). -/

namespace Sys2Proof.Machine

/-! ### Resetting a function (R333, R334, R510) -/

/-- Destroy every queue of a function (R367): nothing more is written for it. -/
def State.destroyQueues (s : State) (f : FnId) : State :=
  { s with
    work.queues := s.work.queues.filter (fun e => e.1 / 128 != FnId.key f)
    work.crownWork := s.work.crownWork.filter (fun i => ((originOf i).map (fun o => o.q.fnId)) != some f)
    net.heldAcc := s.net.heldAcc.filter (fun h => !(h.who % 2 == 0 && h.who / 256 == FnId.key f))
    net.outst := s.net.outst.map (fun r => if (r.ctx.queue.map QId.fnId) == some f then { r with ctx := .other } else r) }

/-- Completions of a function's host requests still inside the device are dropped (R334, R336). Of those held at the Cuff (R229), a link
loss discards the reads, and lets writes and AtomicOps take effect (R336); a reset of the function discards all. -/
def State.dropCompletions (s : State) (f : FnId) (reset : Bool) : State :=
  let mine (r : Req) : Bool := match r.ctx with
    | .hostRead l n _ _ _ _ => l == f.link && n == f.fn
    | .unitRead l n _ _ _ => l == f.link && n == f.fn
    | _ => false
  let s : State := { s with net.outst := s.net.outst.map (fun r => if mine r then { r with ctx := .other } else r) }
  let drop (k : Lock) : Lock := if k.atomic.link == f.link && k.vf == f.fn then { k with dropped := true } else k
  let s := s.modCuff (f.link / 2) (fun c => { c with locks := c.locks.map drop })
  let gone (h : HeldReq) : Bool := h.fn == f.fn && (match h.kind with
    | .read _ => true
    | _ => reset)
  s.modLink f.link (fun x =>
    { x with held := (x.held.filter (fun h => !gone h)).map (fun h => if h.fn == f.fn then { h with dropped := true } else h) })

/-- What a function keeps across a reset: the sticky PME and AER registers of PCI Express (PRESUMED, log entry 15). -/
def Fn.reset (x : Fn) : Fn :=
  { pmeEn := x.pmeEn, pmeStatus := x.pmeStatus, aer := x.aer, aerHead := x.aerHead, aerMask := x.aerMask, aerFatal := x.aerFatal }

/-- Reset one function (R333): its requests have been ended; queues, Fingers, messages and registers go, and a VF's TDI returns to
CONFIG_UNLOCKED (R58, R93). `own` tells a reset of the function from a loss of its link. -/
def State.resetFn (s : State) (f : FnId) (own : Bool) : State :=
  let s := ((fingersOf f).foldl State.fgReset (s.destroyQueues f)).dropCompletions f own
  let s := (s.dropMessages f).modFn f Fn.reset
  if f.fn == 0 then s else s.modGlove (s.gloveOf f) (fun g => { g with tdi := .unlocked, stream := none })

/-- Reset the functions of a link that `hit` picks. -/
def State.resetFns (s : State) (l : Nat) (own : Bool) (hit : Nat → Bool) : State :=
  ((List.range ((s.range l).2 + 1)).filter hit).foldl (fun s n => s.resetFn ⟨l, n⟩ own) s

/-- PF0's SR-IOV registers, and its window register, return to their reset values (R57, R182, R188). -/
def State.resetSriov (s : State) (l : Nat) : State :=
  s.modLink l (fun x =>
    { x with numVfs := 0, vfEnable := false, vfMse := false, vfBar0 := 0, vfBar2 := 0, unitBase := 0,
             vfSize := (s.boot.cfg.bars.getD l (false, 21)).2 })

/-- Every SPDM session of a link ends; its keys and the key shares fetched in it are zeroized (R70, R86). -/
def State.endSessions (s : State) (l : Nat) : State :=
  { (s.modLink l (fun x => { x with sessions := [] })) with
    trust.shares := s.trust.shares.filter (fun e => e.2.link != l) }

/-! ### FLR and VF Enable -/

/-- FLR_START (R332-R334, R58, R86). -/
def execFlrStart (f : FnId) (s : State) : Result :=
  .next (if !s.cfgOpen f then s
    else if f.fn == 0 then
      let s := ((s.endRequests f.link (fun _ => true) 0x0035).resetFns f.link true (fun _ => true)).resetSriov f.link
      (s.endSessions f.link).modFn f (fun x => { x with flr := true })
    else
      (((s.endRequests f.link (· == f.fn) 0x0035).resetFn f true).modFn f (fun x => { x with flr := true })).modUsage (s.gloveOf f)
        (fun u => { u with linkEvent := true }))

/-- FLR_COMPLETE (R332). -/
def execFlrComplete (f : FnId) (s : State) : Result := .next (s.modFn f (fun x => { x with flr := false }))

/-- VF_ENABLE_CLEAR (R58, R333, R334). -/
def execVfEnableClear (link : Nat) (s : State) : Result :=
  .next (if s.cfgOpen ⟨link, 0⟩ && (s.link link).vfEnable then
      (((s.endRequests link (· != 0) 0x0035).resetFns link true (· != 0))).modLink link (fun x => { x with vfEnable := false })
    else s)

/-- VF_ENABLE_SET: the VFs appear (R57). -/
def execVfEnableSet (link : Nat) (s : State) : Result :=
  .next (if s.cfgOpen ⟨link, 0⟩ then s.modLink link (fun x => { x with vfEnable := true }) else s)

/-- Configuration offsets of PF0's SR-IOV NumVFs and of the VF BAR Size field (R296; registers within a capability as PCI Express
lays them out, log entry 16). -/
def cfgNumVfs : Nat := 0x190
def cfgVfBarSize : Nat := 0x338

/-- NUMVFS_WRITE (R299). -/
def execNumvfsWrite (link v : Nat) (s : State) : Result :=
  .next (if !s.cfgOpen ⟨link, 0⟩ then s
    else if (s.range link).2 < v then s.reject ⟨link, 0⟩ 0x0003 2 cfgNumVfs
    else if (s.link link).vfEnable && v != (s.link link).numVfs then s.reject ⟨link, 0⟩ 0x0002 2 cfgNumVfs
    else s.modLink link (fun x => { x with numVfs := v }))

/-! ### BARs (R180-R191) -/

/-- The TDIs of a link that can fail go to ERROR (R94). -/
def State.linkTdisError (s : State) (l : Nat) : State :=
  (s.glovesOf l).foldl (fun s g => if (s.glove g).tdiLive then s.tdiError g else s) s

/-- BAR_WRITE: the writable bits take effect for later TLPs; a change of a VF BAR moves locked TDIs to ERROR (R191, R94). The stride
and the MSI-X table location are read-only (R299, R340), so a write changes nothing. -/
def execBarWrite (link : Nat) (field : BarField) (v : Nat) (s : State) : Result :=
  .next (if !s.cfgOpen ⟨link, 0⟩ then s
    else
      let x := s.link link
      let aligned (w n : Nat) : Nat := v % 2 ^ w / n * n
      match field with
      | .bar0 => s.modFn ⟨link, 0⟩ (fun y => { y with bar0 := aligned 64 0x4000000 })
      | .vfBar0 =>
        let n := aligned 32 0x100000
        let s' := s.modLink link (fun y => { y with vfBar0 := n })
        if n == x.vfBar0 then s' else s'.linkTdisError link
      | .vfBar2 =>
        let n := aligned 64 (s.span link)
        let s' := s.modLink link (fun y => { y with vfBar2 := n })
        if n == x.vfBar2 then s' else s'.linkTdisError link
      | .vfStride => s
      | .msixTable _ => s)

/-- VF_BAR_SIZE_WRITE (R188, R189): BAR Size n selects 2^(n + 20) bytes. -/
def execVfBarSizeWrite (link v : Nat) (s : State) : Result :=
  .next (
    let (resizable, w) := s.boot.cfg.bars.getD link (false, 21)
    let x := s.link link
    if !s.cfgOpen ⟨link, 0⟩ || !resizable then s
    else if v + 20 == x.vfSize then s
    else if x.vfMse || v == 0 || w < v + 20 then s.reject ⟨link, 0⟩ 0x0002 2 cfgVfBarSize
    else
      (s.modLink link (fun y =>
        { y with vfSize := v + 20, vfBar2 := y.vfBar2 / 2 ^ (v + 20) * 2 ^ (v + 20) })).linkTdisError link)

/-! ### Bus Master Enable and power states -/

/-- A non-posted request of a link still has a TLP to transmit. -/
def State.unsent (s : State) (l : Nat) (p : Packet) : Bool := (s.link l).txq.any (fun t => !t.posted && samePkt t.pkt p)

/-- BME_CLEAR (R328-R330). -/
def execBmeClear (f : FnId) (s : State) : Result :=
  .next (if !s.cfgOpen f || !(s.fn f).bme then s
    else
      let s := (s.modFn f (fun x => { x with bme := false })).withdraw f
      let mine (p : Packet) : Bool := p.fn == f.fn && !s.isQmgr p
      let s := (s.dropReads f.link (fun p => mine p && s.unsent f.link p) 0x0031).dropPosted f.link mine 0x0031
      (fingersOf f).foldl (fun s i => s.fgStopCode i 0x0031) s)

/-- BME_SET: the withdrawn requests are issued again (R329, R331). -/
def execBmeSet (f : FnId) (s : State) : Result :=
  .next (if !s.cfgOpen f then s
    else
      let s := s.modFn f (fun x => { x with bme := true })
      if (s.fn f).d3 then s else s.reissue f)

/-- D3HOT_ENTRY (R331). -/
def execD3hotEntry (f : FnId) (s : State) : Result :=
  .next (if !s.cfgOpen f || (s.fn f).d3 then s
    else
      let s := (s.modFn f (fun x => { x with d3 := true, pmePending := false })).withdraw f
      let peer (p : Packet) : Bool := p.fn == f.fn && s.viaWindow p
      (s.dropReads f.link (fun p => peer p && s.unsent f.link p) 0x0031).dropPosted f.link peer 0x0031)

/-- D0_RETURN (R331, R507, R508). -/
def execD0Return (f : FnId) (s : State) : Result :=
  .next (if !s.cfgOpen f || !(s.fn f).d3 then s
    else
      let s := (s.modFn f (fun x => { x with d3 := false, pmePending := false })).wakeUpdate f.link
      if (s.fn f).bme then s.reissue f else s)

/-! ### Link events -/

/-- Event-gatherer source of a host link (R481). -/
def linkSource (l : Nat) : Nat := 36 + l

/-- PERST#, hot reset or link loss: the effects of R333 and R335. -/
def State.loseLink (s : State) (l : Nat) (st : Ltssm) : State :=
  let was := (s.link l).up
  let s := s.modLink l (fun x =>
    { x with up := false, ltssm := st, flit := false, rate := 0, width := 0, reversed := false, ready := false, power := .l0,
             downs := if was then satAdd 65535 x.downs 1 else x.downs,
             ide := x.ide.map (fun i => { i with secure := false, keys := [], active := none }) })
  let s := s.endSessions l
  let s := ((s.endRequests l (fun _ => true) 0x0030).resetFns l false (fun _ => true)).resetSriov l
  let s : State := { s with usg.usage := s.usg.usage.map (fun (g, u) => (g, { u with linkEvent := u.linkEvent || s.linkHas l g })) }
  (s.edge (linkSource l)).wakeUpdate l

/-- PERST_ASSERT: a fundamental reset of the link's functions (R289, R333). -/
def execPerstAssert (link : Nat) (s : State) : Result :=
  .next (if !s.sys.aon || !s.linkExists link then s
    else (s.modLink link (fun x => { x with perst := true })).loseLink link .detect)

/-- PERST_DEASSERT: the Cuff enters Detect and WAKE# is released (R289, R290). -/
def execPerstDeassert (link : Nat) (s : State) : Result :=
  .next (if !s.sys.aon || !s.linkExists link then s
    else
      ((s.modLink link (fun x => { x with perst := false, ltssm := .detect, power := .l0 })).edge (linkSource link)).wakeUpdate link)

/-- The Cuff lanes of a link (R284). -/
def State.laneBase (s : State) (l : Nat) : Nat := if s.twoX8 (l / 2) && l % 2 == 1 then 8 else 0

/-- A lane of a link, counted from its lowest, is retired. -/
def State.laneRetired (s : State) (l lane : Nat) : Bool :=
  (s.flt.lanesRetired.get 0 (l / 2)).getLsbD (s.laneBase l + lane)

/-- Lanes of a link at full width. -/
def State.laneCount (s : State) (l : Nat) : Nat := if s.twoX8 (l / 2) then 8 else 16

/-- The low or top `w` lanes of a link hold no retired lane (R292). -/
def State.lowFree (s : State) (l w : Nat) : Bool := (List.range w).all (fun i => !s.laneRetired l i)
def State.topFree (s : State) (l w : Nat) : Bool := (List.range w).all (fun i => !s.laneRetired l (s.laneCount l - 1 - i))

/-- The largest width that R292 allows. -/
def State.usableWidth (s : State) (l : Nat) : Option Nat :=
  [16, 8, 4, 2, 1].find? (fun w => decide (w ≤ s.laneCount l) && (s.lowFree l w || s.topFree l w))

/-- The widest width that both ends support within the Pattern's maximum (R286), and within what the Cuff asks for (R292). -/
def State.trainWidth (s : State) (l width : Nat) : Nat :=
  let x := s.link l
  let most := min (min width (s.boot.cfg.links.getD l {}).width) (min (s.laneCount l) (x.wantWidth.getD 16))
  ([16, 8, 4, 2, 1].find? (fun w => decide (w ≤ most))).getD 0

/-- The highest rate code that both ends support within the Pattern's maximum; without Flit mode 32 GT/s or below (R286). -/
def State.trainRate (s : State) (l rate : Nat) (flit : Bool) : Nat :=
  min (min rate (s.boot.cfg.links.getD l {}).rate) (if flit then 6 else 5)

/-- The Cuff asks for a width after a lane retirement (R292): by L0p where both ends advertise it for that width, which leaves the link
in L0, else by Recovery. -/
def State.askWidth (s : State) (l w : Nat) : State :=
  s.modLink l (fun x =>
    if !x.up || x.l0p.contains w then { x with wantWidth := some w }
    else { x with wantWidth := some w, ltssm := .recovery, recoveries := satAdd 65535 x.recoveries 1 })

/-- A link is in L0 at a width; one that still includes a retired lane is asked down (R292, R293). -/
def State.atWidth (s : State) (l w : Nat) : State :=
  let low := s.lowFree l w
  let s' := s.modLink l (fun x => { x with width := w, reversed := !low && s.topFree l w, wantWidth := none })
  match (if low || s.topFree l w then none else s.usableWidth l) with
  | some n => s'.askWidth l n
  | none => s'

/-- LINK_TRAINED_L0: the link is in L0 with its rate and width, or a change of width by L0p has ended. `rate`, `width` and `flit` are
what the link partner supports (R286, R289, R292, R293). -/
def execLinkTrainedL0 (link rate : Nat) (width : PartnerWidth) (flit : Bool) (s : State) : Result :=
  .next (if !s.awake || !s.linkExists link || (s.link link).perst || (s.link link).dead then s
    else
      let old := s
      let s := if (s.link link).up then s else s.edge (linkSource link)
      let s := s.modLink link (fun x =>
        { x with up := true, ltssm := .l0, rate := old.trainRate link rate flit, flit := flit, l0p := width.l0p, ready := true, power := .l0 })
      ((s.atWidth link (old.trainWidth link width.lanes)).castVotes old).wakeCuff link)

/-- DL_DOWN (R333, R335, R336). -/
def execDlDown (link : Nat) (s : State) : Result :=
  .next (if s.awake && (s.link link).up then s.loseLink link .detect else s)

/-- LINK_HOT_RESET (R333). -/
def execLinkHotReset (link : Nat) (s : State) : Result :=
  .next (if s.awake && (s.link link).up then s.loseLink link .hotReset else s)

/-- HOST_RECOVERY_ENTERED: the host's TS1 ordered sets, or its L0p request for a width; the Cuff abandons its own request and follows
(R291, R293). By L0p the link stays in L0, so a width with a retired lane is asked down again at once. The error that the host
recovers the link from is logged (R342). -/
def execHostRecoveryEntered (r : HostRecovery) (s : State) : Result :=
  .next (if s.awake && (s.link r.link).up then
      let s := match r.err with
        | some e => s.aer ⟨r.link, 0⟩ e
        | none => s
      match r.l0p with
      | none =>
        s.modLink r.link (fun x =>
          { x with ltssm := .recovery, recoveries := satAdd 65535 x.recoveries 1, wantWidth := none })
      | some w => if s.laneCount r.link < w then s else (s.modLink r.link (fun x => { x with ltssm := .l0 })).atWidth r.link w
    else s)

/-- LINK_POWER_STATE_CHANGE: the host moves the link between L0, L1 and its substates, and L2 (R505, R572, R290). A link's
vote wakes the domains that it keeps on. -/
def execLinkPowerStateChange (link : Nat) (p : LinkPower) (s : State) : Result :=
  .next (if !s.awake || !(s.link link).up then s
    else
      let st : Ltssm := match p with
        | .l0 => .l0
        | .l2 => .l2
        | _ => .l1
      let s := ((s.modLink link (fun x => { x with power := p, ltssm := st })).wakeUpdate link).castVotes s
      if p == .l12 || p == .l2 then s else s.wakeCuff link)

end Sys2Proof.Machine
end

