-- ==== Sys2Proof/Machine/Pages.lean ====
section
/-! DEFINITION. Pool pages: the free list, the ownership sequence of R132, release and repair (R60, R61, R665). -/

namespace Sys2Proof.Machine

/-- A page that a change in progress is about to hand out. -/
def State.pageTaken (s : State) (p : Nat) : Bool := s.pool.owning.any (fun c => c.owner.isSome && c.pages.contains p)

/-- Free pages of this device (R199). -/
def State.freeCount (s : State) : Nat :=
  s.pages - (s.pool.owns.filter (fun e => decide (e.1 < s.pages) && e.2.state != 0)).length
    - ((s.pool.owning.filter (fun c => c.owner.isSome)).map (fun c => c.pages.length)).sum

/-- The `m` lowest free pages from page `p` on (DESIGN CHOICE, log entry 17). -/
def State.takeFree (s : State) : Nat → Nat → Nat → List Nat
  | 0, _, _ => []
  | k + 1, p, m =>
    if m == 0 || s.pages ≤ p then []
    else if (s.own p).state == 0 && !s.pageTaken p then p :: s.takeFree k (p + 1) (m - 1)
    else s.takeFree k (p + 1) m

/-- Pages owned by a Band slot (R199). -/
def State.pagesOf (s : State) (slot : Nat) : List Nat :=
  (s.pool.owns.filter (fun e => e.2.state == 1 && e.2.owner == slot)).map Prod.fst

/-- The highest level of a failed check within a page, if any block of it is poisoned (R163, R665). -/
def State.poisonLevel (s : State) (p : Nat) : Option Nat :=
  let ls := (s.pool.gates.map Prod.snd).flatMap (fun g =>
    ((g.poison.filter (fun e => e.1 / 512 == p)).map Prod.snd) ++ (if g.poisonPages.has p then [g.poisonPages.get 0 p] else []))
  ls.foldl (fun a l => some (max l (a.getD 0))) none

/-- Repair of a released page (R665): its counter blocks become zero, its nodes at levels 1 to 3 are recomputed and written through their
owning HBM gates, and the new level-3 MAC goes to the owner of its level-4 parent. -/
def State.repairPage (s : State) (p : Nat) : State :=
  let other (h : Nat) (e : Nat × Line) : Bool := match s.hbmPlace (h / 8) e.1 with
    | .counter blk => blk / 512 != p
    | _ => true
  let s : State := { s with
    pool.counters := s.pool.counters.filter (fun e => e.1 / 512 != p)
    pool.hgates := s.pool.hgates.map (fun h => (h.1, { h.2 with buf := h.2.buf.filter (other h.1) })) }
  let put (s : State) (l i : Nat) (m : Nat → BitVec 64) : State := s.hcPut false l i (packMacs m) true
  let s := (List.range 64).foldl (fun s j =>
    let i := 64 * p + j
    put s 1 i (fun c => s.nodeMac 0 (8 * i + c) (packCtr {}))) s
  let s := (List.range 8).foldl (fun s j =>
    let i := 8 * p + j
    put s 2 i (fun c => s.nodeMac 1 (8 * i + c) (s.nodeNow false 1 (8 * i + c)))) s
  let s := put s 3 p (fun c => s.nodeMac 2 (8 * p + c) (s.nodeNow false 2 (8 * p + c)))
  (s.updateMac false 4 (p / 8) (p % 8) (s.nodeMac 3 p (s.nodeNow false 3 p))).2

/-- What the gates hold of a page goes with its release: buffered lines, re-encryptions, exhausted blocks and, after a repair, the
counter copies and the poison. -/
def Gate.dropPage (p : Nat) (repaired : Bool) (x : Gate) : Gate :=
  { x with
    wcb := x.wcb.filter (fun w => w.line / 32768 != p)
    reencs := x.reencs.filter (fun r => r.block / 512 != p)
    exhausted := x.exhausted.filter (fun b => b / 512 != p)
    walks := x.walks.map (fun w => if w.block / 512 == p then { w with leaving := [] } else w)
    ccache := if repaired then x.ccache.filter (fun e => e.1 / 512 != p) else x.ccache
    poison := if repaired then x.poison.filter (fun e => e.1 / 512 != p) else x.poison
    poisonPages := if repaired then x.poisonPages.del p else x.poisonPages }

/-- Release one page (R60, R61, R665): its generation rises; a page that reaches the last generation, or whose path cannot be repaired, is
held out of use. -/
def State.releasePage (s : State) (p : Nat) : State :=
  let o := s.own p
  let lvl := s.poisonLevel p
  let high := decide (4 ≤ lvl.getD 0)
  let repaired := lvl.isSome && !high
  let s : State := { s with pool.gates := s.pool.gates.map (fun e => (e.1, e.2.dropPage p repaired)) }
  let s := if repaired then s.repairPage p else s
  if high || 0xFFFFFF ≤ o.gen + 1 then
    ({ s with pool.genExhausted := s.pool.genExhausted + 1 }).setOwn p { o with gen := min 0xFFFFFF (o.gen + 1), state := 3 }
  else s.setOwn p { gen := o.gen + 1 }

/-- No gate holds a copy of a table line any more. -/
def State.dropOwnLines (s : State) (ls : List Nat) : State :=
  { s with pool.gates := s.pool.gates.map (fun e => (e.1, { e.2 with olines := e.2.olines.filter (fun x => !ls.contains x.1) })) }

/-- The entries of a change are written (R132 step 3); a copy that a gate read again before they are written goes as well (log entry
106). -/
def State.writeOwn (s : State) (pages : List Nat) (owner : Option Nat) : State :=
  pages.foldl (fun s p => match owner with
    | some b => s.setOwn p { (s.own p) with owner := b, state := 1 }
    | none => s.releasePage p) (s.dropOwnLines (pages.map (· / 8)))

/-- Gates that an invalidation goes to: those of populated channels that are not fenced (R132). -/
def State.askedGates (s : State) : List Nat :=
  (List.range 16).filter (fun g => s.boot.cfg.channels.getLsbD g && !s.fenced (gateUnit g))

/-- Start a change of ownership entries (R132). It is over at once when there is nothing to ask; the answer says so. -/
def State.startOwn (s : State) (pages : List Nat) (owner : Option Nat) (thn : OwnThen) : State × Bool :=
  let gs := if pages.isEmpty then [] else s.askedGates
  if gs.isEmpty then (s.writeOwn pages owner, true)
  else
    let packets := ((pages.map (· / 8)).dedup.length + 63) / 64
    (gs.foldl (fun s g => (List.range packets).foldl (fun s _ => s.pushE .mgmt crownUnit (gateUnit g)) s)
      { s with pool.owning := s.pool.owning ++ ([{ pages := pages, waiting := gs, thn := thn, owner := owner }] : List OwnChange) },
     false)

/-- Zeroize a guest slot and release its pages without an answer (R79, R80, R475). -/
def State.dropGuest (s : State) (slot : Nat) : State :=
  let ps := s.pagesOf slot
  ((s.modSlot slot (fun _ => {})).startOwn ps none .silent).1

/-- Guest slots that hold keys of a peer's gloves (R62). -/
def State.guestsFrom (s : State) (peer : Nat) : List Nat :=
  (s.trust.band.filter (fun e => decide (1024 ≤ e.1) && e.2.valid && e.2.home == peer)).map Prod.fst

end Sys2Proof.Machine
end

