-- ==== Sys2Proof/Machine/BorderFlit.lean ====
section
/-! DEFINITION. The bytes of a Border flit and the bits of each lane (R441, R444-R446). -/

namespace Sys2Proof

/-- One bit of CRC-32C, reflected: the polynomial 0x1EDC_6F41 with its bits in reverse (R441). -/
def crcBit (c : BitVec 32) : BitVec 32 := if c.getLsbD 0 then (c >>> 1) ^^^ 0x82F63B78#32 else c >>> 1

/-- CRC-32C: initial value and final exclusive-OR 0xFFFF_FFFF (R441). -/
def crc32c (bs : List Byte) : BitVec 32 :=
  (bs.foldl (fun c b => (List.range 8).foldl (fun c _ => crcBit c) (c ^^^ b.setWidth 32)) 0xFFFFFFFF#32) ^^^ 0xFFFFFFFF#32

/-- The even-parity bit of a 64-bit group (R444). -/
def parityBit (w : BitVec 64) : Bool := (List.range 64).foldl (fun p i => p != w.getLsbD i) false

end Sys2Proof

namespace Sys2Proof.Machine

/-- A flit of a TYPE, VC, USED and SEQ with its BODY, which zeros fill up (R441). -/
def flitOf (type vc used seq : Nat) (body : List Byte) : List Byte :=
  let bs := leBytes 1 (type + 16 * vc) ++ leBytes 1 used ++ leBytes 2 seq ++ body ++ List.replicate (120 - body.length) 0
  bs ++ leBytes 4 (crc32c bs).toNat

/-- The 128 bytes of a flit (R441, R445, R446). -/
def flitBytes (f : BFlit) : List Byte :=
  let ctrl (kind : Nat) (body : List Byte) : List Byte := flitOf 3 0 0 0 (leBytes 1 kind ++ body)
  match f with
  | .payload seq vc body => flitOf 1 vc body.length seq body
  | .ack a =>
    flitOf 2 0 0 0 (leBytes 2 a.ackSeq ++ leBytes 1 (bit a.nak) ++ leBytes 1 0 ++
      (List.range 7).flatMap (fun i => leBytes 2 (a.reserved.getD i 0 + 16 * a.shared.getD i 0)))
  | .ident i => ctrl 0x01 (leBytes 1 i.pos ++ leBytes 1 i.link ++ leBytes 1 i.lanes.toNat ++ leBytes 8 i.serial.toNat ++
      leBytes 48 i.digest.toNat)
  | .rerouteReq d last => ctrl 0x02 (leBytes 1 d ++ leBytes 2 last)
  | .rerouteAck d last => ctrl 0x03 (leBytes 1 d ++ leBytes 2 last)
  | .rerouteDone d => ctrl 0x04 (leBytes 1 d)
  | .widthReq m => ctrl 0x05 (leBytes 1 m.toNat)
  | .widthAck m => ctrl 0x06 (leBytes 1 m.toNat)

/-- The lanes of an active set, in ascending order. -/
def lanesIn (active : BitVec 8) : List Nat := (List.range 8).filter (fun i => active.getLsbD i)

/-- What each lane of an active set sends for a flit: byte j goes to lane (j mod W) of the set, and each 64-bit group has its parity bit
above it (R444). -/
def laneGroups (active : BitVec 8) (bs : List Byte) : List (Nat × List (BitVec 65)) :=
  let w := (lanesIn active).length
  (lanesIn active).zipIdx.map (fun (lane, r) =>
    let share := (List.range ((bs.length - r + w - 1) / w)).map (fun k => bs.getD (r + w * k) 0)
    (lane, (chunks 8 share).map (fun g =>
      let v := BitVec.ofNat 64 (leNat g)
      BitVec.ofBool (parityBit v) ++ v)))

/-- Send a flit on the active lanes of a link (R444). -/
def State.putFlit (s : State) (l : Nat) (f : BFlit) : State := s.emit (.flit l f (laneGroups (s.blink l).active (flitBytes f)))

end Sys2Proof.Machine
end

