-- ==== Sys2Proof/Machine/Border.lean ====
section
/-! DEFINITION. Border links: flits, sequence and credits, lane width, link states, reroute, transactions across a link and the
fence of a peer (R438-R478). -/

namespace Sys2Proof.Machine

/-! ### Packets on a link (R441, R443, R451) -/

/-- Opcode codes of the Border classes (R241, R443). -/
def borderCode : POp → Nat
  | .memRd => 0x01
  | .memWr => 0x02
  | .memRdLock => 0x03
  | .memWrUnlock => 0x04
  | .unlock => 0x05
  | .cplD => 0x10
  | .cpl => 0x11
  | .ack => 0x12
  | .mgmt => 0x42
  | _ => 0

/-- Index of a VC in the credit fields: P0, P1, N0, N1, C0, C1, E (R445). -/
def vcIndex (vc : Nat) : Nat := if vc < 6 then vc else 6

/-- The 32-byte header and the data of a Border packet (R443). -/
def borderBytes (b : BorderPkt) : List Byte :=
  let h := borderCode b.op + b.xid * 2 ^ 8 + b.originLink * 2 ^ 19 + b.world * 2 ^ 22 + b.glove * 2 ^ 24 +
    bit b.gloveValid * 2 ^ 34 + b.home * 2 ^ 35 + bit b.ep * 2 ^ 37 + bit b.ackReq * 2 ^ 38 + bit b.prefetch * 2 ^ 39 +
    b.len * 2 ^ 40 + b.status * 2 ^ 60 + b.addr * 2 ^ 76 + b.firstBE.toNat * 2 ^ 128 + b.lastBE.toNat * 2 ^ 192
  leBytes 32 h ++ b.data.flatMap lineBytes

/-- The peer a link leads to, and the link number at its far end (R438). -/
def State.farEnd (s : State) (l : Nat) : Option (Nat × Nat) := s.boot.cfg.peers.getD l none
def State.peerOf (s : State) (l : Nat) : Nat := ((s.farEnd l).map Prod.fst).getD 4

/-- The local link that a peer names by its own link number. -/
def State.linkFrom (s : State) (peer far : Nat) : Option Nat := (List.range 8).find? (fun l => s.farEnd l == some (peer, far))

/-- The lowest-numbered link to a peer that is UP (R464). -/
def State.upLink (s : State) (n : Nat) : Option Nat := (s.peerLinks n).find? (fun l => (s.blink l).state == .up)

/-- Event-gatherer source of a Border link's state change (R481). -/
def borderSource (l : Nat) : Nat := 20 + l

/-- Move a link to a state (R457). -/
def State.setBState (s : State) (l : Nat) (st : BState) : State :=
  if (s.blink l).state == st then s else (s.modBlink l (fun x => { x with state := st, wasUp := x.wasUp || st == .up })).edge (borderSource l)

/-! ### Sending (R449, R451) -/

/-- Spend a credit of a VC: a reserved one if it holds one, else a shared one (R451). -/
def BLink.spend (x : BLink) (vc : Nat) : Option BLink :=
  let i := vcIndex vc
  let r := x.credits.get 8 i
  if 0 < r then some { x with credits := x.credits.set i (r - 1) }
  else if vc != 8 && 0 < x.sharedFree && x.sharedHeld.get 0 i < 128 then
    some { x with sharedFree := x.sharedFree - 1, sharedHeld := x.sharedHeld.mod 0 i (· + 1) }
  else none

/-- Take the next bytes of a VC's stream, at most `n`, marking the packets they belong to with a flit's number. -/
def takeStream (vc seq : Nat) : Nat → List TxPkt → List Byte × List TxPkt
  | _, [] => ([], [])
  | n, t :: ts =>
    if t.vc != vc || t.bytes.length ≤ t.sent || n == 0 then
      let (b, r) := takeStream vc seq n ts
      (b, t :: r)
    else
      let c := (t.bytes.drop t.sent).take n
      let (b, r) := takeStream vc seq (n - c.length) ts
      (c ++ b, { t with sent := t.sent + c.length, last := seq } :: r)

/-- Send PAYLOAD flits while there are bytes, credits and room in the replay buffer (R449, R451). -/
def State.pumpBorder (s : State) (l : Nat) : Nat → State
  | 0 => s
  | k + 1 =>
    let x := s.blink l
    if x.state != .up || 512 ≤ x.replay.length then s
    else
      let waiting := ((x.tx.filter (fun t => t.sent < t.bytes.length)).map (fun t => t.vc)).eraseDups
      match waiting.findSome? (fun vc => (x.spend vc).map (fun y => (vc, y))) with
      | none => s
      | some (vc, y) =>
        let (body, tx) := takeStream vc x.txNext 120 x.tx
        let f : SentFlit := ⟨x.txNext, vc, body⟩
        ((s.modBlink l (fun _ => { y with tx := tx, txNext := (x.txNext + 1) % 65536, replay := x.replay ++ [f] })).putFlit
          l (.payload f.seq vc body)).pumpBorder l k

/-- Queue a Border packet on a link. -/
def State.sendBorder (s : State) (l vc : Nat) (b : BorderPkt) : State :=
  (s.modBlink l (fun x => { x with tx := x.tx ++ [{ vc := vc, bytes := borderBytes b }] })).pumpBorder l 1024

/-- Replay every unacknowledged flit, in order and with its original SEQ (R449). -/
def State.replayBorder (s : State) (l : Nat) : State :=
  let s := s.modBlink l (fun x => { x with replays := satAdd 65535 x.replays 1 })
  ((s.blink l).replay).foldl (fun s f => s.putFlit l (.payload f.seq f.vc f.body)) s

/-- Send an ACK flit with the credits to return (R445, R448). -/
def State.sendAck (s : State) (l : Nat) : State :=
  let x := s.blink l
  let a : AckFlit :=
    { ackSeq := (x.rxNext + 65535) % 65536, nak := x.nak, reserved := (List.range 7).map (fun i => x.retRes.get 0 i),
      shared := (List.range 7).map (fun i => x.retShared.get 0 i) }
  (s.modBlink l (fun y => { y with unacked := 0, retRes := [], retShared := [] })).putFlit l (.ack a)

/-- Send a CTRL flit and keep it for repeats (R446). -/
def State.sendCtrl (s : State) (l : Nat) (c : Ctrl) : State :=
  let f : BFlit := match c with
    | .ident => .ident { pos := s.boot.cfg.pos, link := l, lanes := (s.blink l).active, serial := Config.serial,
                         digest := Config.sha384 s.boot.cfg.topology }
    | .rerouteReq d n => .rerouteReq d n
    | .widthReq m => .widthReq m
  (s.modBlink l (fun x => { x with ctrl := some c })).putFlit l f

/-- CTRL_REPEAT (R446). -/
def execCtrlRepeat (link : Nat) (s : State) : Result :=
  .next (match (s.blink link).ctrl with
    | some c => s.sendCtrl link c
    | none => s)

/-! ### The fence of a peer (R473-R477, R80) -/

/-- End the outbound transactions that a link unit holds (R467, R474). -/
def State.endXids (s : State) (l code : Nat) : State :=
  ((s.blink l).xids).foldl (fun s x => s.answer x.pkt code) (s.modBlink l (fun x => { x with xids := [] }))

/-- Release every line lock held for requests of a peer (R475). -/
def State.dropPeerLocks (s : State) (n : Nat) : State :=
  let us := (s.peerLinks n).map borderUnit
  (List.range 16).foldl (fun s g =>
    if (s.gate g).locks.any (fun k => us.contains k.unit) then
      (s.modGate g (fun x => { x with locks := x.locks.filter (fun k => !us.contains k.unit) })).unpark g
    else s) s

/-- What a link to a fenced peer still holds: a link that carries traffic sends the rest of a packet it has begun (R443), and a reroute is
asked for no more. The fence itself moves no link (R457). -/
def BLink.fenced (x : BLink) : BLink :=
  let ctrl := match x.ctrl with
    | some (.rerouteReq _ _) => none
    | c => c
  if x.state == .up || x.state == .retrain then
    { x with inbound := [], tx := x.tx.filter (fun t => decide (0 < t.sent)), ctrl := ctrl }
  else { x with inbound := [], tx := [], replay := [], rx := [], ctrl := ctrl }

/-- A reclaim whose peer does not answer ends with PEER_LOST: its entries stand as they were (R474). -/
def State.reclaimLost (s : State) (g : Nat) : State :=
  match (s.glove g).change with
  | none => s
  | some c =>
    let s := c.saved.foldl (fun s x => s.setPte g x.1 x.2) s
    (s.complete c.origin 0x0600 0).modGlove g (fun x => { x with change := none, lastChange := some c.origin })

/-- Fence a peer (R473): its transactions end, the locks and guest slots it caused go, and the gloves whose keys it holds are
barred. `dead` is the link of a reroute that ran out of time. -/
def State.fencePeer (s : State) (n cause : Nat) (dead : Option Nat) : State :=
  if (s.peer n).state == .fenced then s
  else
    let ls := s.peerLinks n
    let s := s.modPeer n (fun p =>
      { p with state := .fenced, cause := cause, fences := satAdd 65535 p.fences 1, spdm := 0, chainOk := false, session := none,
               reroute := none, mgmt := [], listed := [] })
    let s := ls.foldl (fun s l =>
      let s := s.endXids l (if dead == some l then 0x0601 else 0x0600)
      s.modBlink l BLink.fenced) s
    let us := ls.map borderUnit
    let theirs (r : Req) : Bool := us.contains r.unit && (match r.ctx with
      | .borderIn _ _ => true
      | _ => false)
    let s : State := { s with net.outst := s.net.outst.map (fun r => if theirs r then { r with ctx := .other } else r) }
    let s := (s.guestsFrom n).foldl State.dropGuest (s.dropPeerLocks n)
    let s := (s.basket.grants.filter (fun g => g.home == n)).foldl (fun s g => s.complete g.origin 0x0600 0) s
    let s : State := { s with basket.grants := s.basket.grants.filter (fun g => g.home != n) }
    let s : State := { s with trust.gloves := s.trust.gloves.map (fun (k, g) =>
      (k, if g.guests.contains n then
        { g with guests := g.guests.filter (· != n), barred := if g.barred.contains n then g.barred else g.barred ++ [n] } else g)) }
    let s := (s.trust.gloves.filter (fun e => match e.2.change with
        | some c => c.waitPeers.contains n
        | none => false)).foldl (fun s e => s.reclaimLost e.1) s
    (if cause == 2 then s.contained 8 0x0601 (borderUnit (ls.headD 0)) n none else s).contained 8 0x0600 (borderUnit (ls.headD 0)) n none

/-- Every link to a peer is in DOWN, RETIRED or ABSENT and one has been UP (R473). -/
def State.peerLost (s : State) (n : Nat) : Bool :=
  (s.peerLinks n).all (fun l => [BState.down, .retired, .absent].contains (s.blink l).state) &&
  (s.peerLinks n).any (fun l => (s.blink l).wasUp)

/-! ### Links going down (R457, R458, R464) -/

/-- The last sequence number that was delivered in order from a link (R446). -/
def State.lastDelivered (s : State) (l : Nat) : Nat := ((s.blink l).rxNext + 65535) % 65536

/-- Start, or start again, the reroute of a dead link on the next link that is UP, and then of the other dead links; without one the peer
is lost (R464, R467). -/
def State.startReroute (s : State) (l : Nat) (also : List Nat) : State :=
  let n := s.peerOf l
  match s.upLink n with
  | some v =>
    (s.modPeer n (fun p => { p with reroute := some { dead := l, survivor := v, also := also } })).sendCtrl v
      (.rerouteReq l (s.lastDelivered l))
  | none => if s.peerLost n then s.fencePeer n 1 none else s

/-- A link is retired (R455, R458): recorded in the retirement log. -/
def State.retireLink (s : State) (l : Nat) : State :=
  let s := s.setBState l .retired
  ({ s with flt.mramQ := s.flt.mramQ ++ [(4, borderUnit l, l, 0)] }).contained 8 0x0043 (borderUnit l) l none

/-- What follows when a link has stopped carrying traffic. During a reroute the survivor's own traffic is rerouted after that of the dead
link (R467), and so is that of any further link. -/
def State.afterDown (s : State) (l : Nat) (was : BState) : State :=
  let n := s.peerOf l
  let carried := was == .up || was == .retrain
  match (s.peer n).reroute with
  | some r =>
    if r.survivor == l then s.startReroute r.dead (r.also ++ [l])
    else if s.peerLost n then s.fencePeer n 1 none
    else if carried && l != r.dead then
      s.modPeer n (fun p => { p with reroute := some { r with also := r.also ++ [l] } })
    else s
  | none =>
    if carried then s.startReroute l []
    else if s.peerLost n then s.fencePeer n 1 none
    else s

/-- Length of the whole Border packets that a stream begins with: 32 bytes each, and 64 for each line of data (R242, R443). -/
def wholeBytes : Nat → List Byte → Nat
  | 0, _ => 0
  | k + 1, bs =>
    if bs.length < 32 then 0
    else
      let h := leNat (bs.take 32)
      let addr := bits h 127 76
      let len := bits h 52 40
      let lines := if [0x02, 0x04, 0x10].contains (bits h 7 0) && len != 0 then (addr + len - 1) / 64 - addr / 64 + 1 else 0
      let n := 32 + 64 * lines
      if bs.length < n then 0 else n + wholeBytes k (bs.drop n)

/-- A stream without the packet that it has only in part (R465). -/
def wholeStream (fs : List (List Byte)) : List (List Byte) :=
  let bs := fs.flatten
  let n := wholeBytes (bs.length / 32) bs
  if n == 0 then [] else [bs.take n]

/-- A link enters DOWN with a cause (R457), and RETIRED when its link-down bucket reaches the threshold (R458). Packets that have arrived
whole are still delivered, one that has arrived in part is discarded (R465). -/
def State.borderDown (s : State) (l cause : Nat) : State :=
  let was := (s.blink l).state
  if was == .down || was == .retired || was == .absent then s
  else
    let s := s.modBlink l (fun x =>
      { x with cause := cause, downs := satAdd 65535 x.downs 1, downBucket := x.downBucket + 1, ctrl := none, occ := [],
               rx := x.rx.map (fun e => (e.1, wholeStream e.2)),
               nak := false, unacked := 0, replayRow := 0, retRes := [], retShared := [] })
    let s := (s.setBState l .down).corrected 8 0x0049 (borderUnit l) l
    let s := if s.boot.cfg.downThresh ≤ (s.blink l).downBucket then s.retireLink l else s
    s.afterDown l was

/-- The first lane set that holds none of the lanes of a mask (R455). -/
def laneSet (bad : BitVec 8) : Option (BitVec 8) :=
  ([0xFF, 0x0F, 0xF0, 0x03, 0x0C, 0x30, 0xC0] : List (BitVec 8)).find? (fun m => m &&& bad == 0)

/-- A lane is retired (R454, R455): the width changes, again where a change is under way (log entry 142), or the link is retired. -/
def State.retireLane (s : State) (l lane : Nat) : State :=
  let s := s.modBlink l (fun x => { x with retired := x.retired ||| BitVec.ofNat 8 (2 ^ lane) })
  let s : State := { s with flt.mramQ := s.flt.mramQ ++ [(3, borderUnit l, lane, 0)] }
  let was := (s.blink l).state
  match laneSet (s.blink l).retired with
  | none => (s.retireLink l).afterDown l was
  | some m =>
    if was == .up then (s.setBState l .retrain).sendCtrl l (.widthReq m)
    else if was == .retrain then s.sendCtrl l (.widthReq m)
    else s

/-! ### Received flits (R442, R447-R452) -/

/-- States in which a link takes flits of a VC (R457). -/
def BLink.carries (x : BLink) (vc : Nat) : Bool := x.state == .up || (x.state == .admitting && vc == 8)

/-- BORDER_PAYLOAD_FLIT (R442, R447, R448, R454). -/
def execBorderPayloadFlit (link : Nat) (fl : PayloadFlit) (s : State) : Result :=
  .next (
    let x := s.blink link
    if !s.awake || !x.carries fl.vc || s.fenced (borderUnit link) then s
    else
      let s := fl.parity.foldl (fun s i => s.report (mkFault 8 (.borderParity i) 0x0042 (borderUnit link) i none)) s
      if !fl.crcOk || (5 < fl.vc && fl.vc != 8) then
        let s := (s.modBlink link (fun x => { x with crcErrors := satAdd 65535 x.crcErrors 1 })).corrected 8 0x0042 (borderUnit link) 0
        if x.nak then s else (s.modBlink link (fun x => { x with nak := true })).sendAck link
      else if fl.seq != x.rxNext then
        if x.nak then s else (s.modBlink link (fun x => { x with nak := true })).sendAck link
      else
        let s := s.modBlink link (fun x =>
          { x with rxNext := (x.rxNext + 1) % 65536, nak := false, unacked := x.unacked + 1,
                   occ := x.occ.mod 0 (vcIndex fl.vc) (· + 1), rx := x.rx.mod [] fl.vc (· ++ [fl.body]) })
        if 32 ≤ (s.blink link).unacked then s.sendAck link else s)

/-- BORDER_ACK_TIMER (R448). -/
def execBorderAckTimer (link : Nat) (s : State) : Result :=
  .next (if (s.blink link).unacked == 0 then s else s.sendAck link)

/-- A sequence number is covered by an ACK_SEQ, modulo 65,536. -/
def covered (ack seq : Nat) : Bool := decide ((ack + 65536 - seq) % 65536 < 32768)

/-- Credits come back: reserved ones to their VC, shared ones to the pool (R445, R451). -/
def BLink.credit (x : BLink) (a : AckFlit) : BLink :=
  (List.range 7).foldl (fun x i =>
    let r := a.reserved.getD i 0
    let h := a.shared.getD i 0
    { x with credits := x.credits.set i (min 8 (x.credits.get 8 i + r)), sharedFree := min 200 (x.sharedFree + h),
             sharedHeld := x.sharedHeld.set i (x.sharedHeld.get 0 i - h) }) x

/-- BORDER_ACK_FLIT (R449): replay entries are freed, credits return, and a NAK replays what is left; eight replays in a row take the
link down (R450). No PAYLOAD flit moves during a width change (R456). -/
def execBorderAckFlit (link : Nat) (a : AckFlit) (s : State) : Result :=
  .next (
    let x := s.blink link
    if !s.awake || !(x.state == .up || x.state == .admitting || x.state == .retrain) then s
    else
      let rest := x.replay.filter (fun f => !covered a.ackSeq f.seq)
      let moved := decide (rest.length < x.replay.length)
      let again := a.nak && !rest.isEmpty && x.state != .retrain
      let row := (if moved then 0 else x.replayRow) + (if again then 1 else 0)
      let s := s.modBlink link (fun x =>
        { (x.credit a) with
          replay := rest
          tx := x.tx.filter (fun t => t.sent < t.bytes.length || !covered a.ackSeq t.last)
          replayRow := row })
      let s := if again then s.replayBorder link else s
      if 8 ≤ row then s.borderDown link 3 else s.pumpBorder link 1024)

/-- REPLAY_TIMEOUT: a replay; eight in a row take the link down (R449, R450). -/
def execReplayTimeout (link : Nat) (s : State) : Result :=
  .next (
    let x := s.blink link
    if !(x.state == .up || x.state == .admitting) || x.replay.isEmpty then s
    else
      let s := (s.modBlink link (fun x => { x with replayRow := x.replayRow + 1 })).replayBorder link
      if 8 ≤ (s.blink link).replayRow then s.borderDown link 3 else s)

/-- CREDIT_TIMEOUT: a VC has flits waiting and no credit (R453); the timeout does not run in a width change (R456). -/
def execCreditTimeout (link vc : Nat) (s : State) : Result :=
  .next (
    let x := s.blink link
    if x.state == .up && x.tx.any (fun t => t.vc == vc && t.sent < t.bytes.length) && (x.spend vc).isNone then s.borderDown link 2
    else s)

/-! ### Training and width (R455-R457, R459) -/

/-- A link starts training anew: its sequence numbers and credits are those of a fresh link. -/
def BLink.fresh (x : BLink) : BLink :=
  { x with rxNext := 0, nak := false, unacked := 0, txNext := 0, replay := [], replayRow := 0, credits := [], sharedFree := 200,
           sharedHeld := [], retRes := [], retShared := [], occ := [], tx := [],
           active := (laneSet x.retired).getD 0 }

/-- BORDER_SYMBOL_LOCK: TRAINING to IDENT (R457). -/
def execBorderSymbolLock (link : Nat) (s : State) : Result :=
  .next (if s.awake && (s.blink link).state == .training then
      ((s.modBlink link BLink.fresh).setBState link .ident).sendCtrl link .ident
    else s)

/-- TRAINING_TIMEOUT (R457). -/
def execTrainingTimeout (link : Nat) (s : State) : Result :=
  .next (if (s.blink link).state == .training then s.borderDown link 1 else s)

/-- IDENT_TIMEOUT (R457). -/
def execIdentTimeout (link : Nat) (s : State) : Result :=
  .next (if (s.blink link).state == .ident then s.borderDown link 4 else s)

/-- LOCK_LOSS_TIMEOUT (R457). -/
def execLockLossTimeout (link : Nat) (s : State) : Result :=
  .next (if [BState.admitting, .up, .retrain].contains (s.blink link).state then s.borderDown link 1 else s)

/-- DOWN_RETRY (R457). -/
def execDownRetry (link : Nat) (s : State) : Result :=
  .next (if (s.blink link).state == .down && !s.fenced (borderUnit link) then s.setBState link .training else s)

/-- SPDM request codes the requester Crown sends (R75), by stage: GET_VERSION, GET_CAPABILITIES, NEGOTIATE_ALGORITHMS, GET_DIGESTS,
GET_CERTIFICATE, KEY_EXCHANGE, GET_ENCAPSULATED_REQUEST, two DELIVER_ENCAPSULATED_RESPONSE and FINISH. -/
def spdmRequest : Nat → Nat
  | 1 => 0x84
  | 2 => 0xE1
  | 3 => 0xE3
  | 4 => 0x81
  | 5 => 0x82
  | 6 => 0xE4
  | 7 => 0xEA
  | 8 => 0xEB
  | 9 => 0xEB
  | _ => 0xE5

/-- The exchange of R75 starts on the first link that reaches ADMITTING; the lower position asks. -/
def State.startAdmission (s : State) (n : Nat) : State :=
  if (s.peer n).spdm != 0 then s
  else
    let s := s.modPeer n (fun p => { p with state := if p.state == .fenced then .fenced else .admitting, spdm := 1, chainOk := false })
    if s.boot.cfg.pos < n then s.sendMgmt n (.spdm (spdmRequest 1)) else s

/-- IDENT: compared with the topology (R457); a repeated one is answered again (R446). -/
def execIdent (link : Nat) (i : Ident) (s : State) : Result :=
  .next (
    let x := s.blink link
    let n := s.peerOf link
    if !s.awake then s
    else if x.state == .admitting || x.state == .up then
      (s.sendCtrl link .ident).modBlink link (fun y => { y with ctrl := x.ctrl })
    else if x.state != .ident then s
    else if s.farEnd link != some (i.pos, i.link) || i.digest != Config.sha384 s.boot.cfg.topology then s.borderDown link 4
    else
      let s := s.modBlink link (fun x => { x with ctrl := none })
      if (s.peer n).state == .admitted then s.setBState link .up
      else (s.setBState link .admitting).startAdmission n)

/-- WIDTH_REQ: the answer names the first lane set inside the proposal that holds none of this end's retired lanes (R455, R459). -/
def execWidthReq (link : Nat) (mask : BitVec 8) (s : State) : Result :=
  .next (
    let x := s.blink link
    let own := match x.ctrl with
      | some (.widthReq _) => true
      | _ => false
    if !s.awake || !(x.state == .up || x.state == .retrain) || (own && s.boot.cfg.pos < s.peerOf link) then s
    else
      match laneSet (x.retired ||| ~~~mask) with
      | none => (s.retireLink link).afterDown link x.state
      | some m =>
        (((((s.putFlit link (.widthAck m)).modBlink link (fun x => { x with active := m, ctrl := none })).setBState link .up).replayBorder
          link).pumpBorder link 1024))

/-- WIDTH_ACK: the width changes and unacknowledged flits are replayed; a set that holds a lane retired meanwhile is not taken
(R455). -/
def execWidthAck (link : Nat) (mask : BitVec 8) (s : State) : Result :=
  .next (if s.awake && (s.blink link).state == .retrain && mask &&& (s.blink link).retired == 0 then
      ((((s.modBlink link (fun x => { x with active := mask, ctrl := none })).setBState link .up).replayBorder link)).pumpBorder link 1024
    else s)

/-- WIDTH_CHANGE_TIMEOUT (R456). -/
def execWidthChangeTimeout (link : Nat) (s : State) : Result :=
  .next (if (s.blink link).state == .retrain then s.borderDown link 6 else s)

/-! ### Reroute (R464-R468) -/

/-- Step 5: the dead link's initiators move to the survivor and traffic resumes, or the next dead link's turn comes (R464, R467). -/
def State.endReroute (s : State) (n : Nat) (r : Reroute) : State :=
  let us := (List.range 1024).filter (fun u => unitCarried u && s.borderLink u n == r.dead)
  let s : State := { s with
    basket.moved := us.foldl (fun t u => t.set (u * 4 + n) r.survivor) s.basket.moved
    basket.blinks := s.basket.blinks.map (fun e =>
      (e.1, { e.2 with inbound := e.2.inbound.map (fun i => if i.back == r.dead then { i with back := r.survivor } else i) })) }
  let s := s.modBlink r.dead (fun x => { x with routed := some r.survivor, reroutes := satAdd 65535 x.reroutes 1 })
  match r.also with
  | [] => s.modPeer n (fun p => { p with reroute := none })
  | l :: ls => s.startReroute l ls

/-- Step 4: flits the peer has delivered are dropped, every packet with a later byte is queued whole on the survivor, after packets
already partly sent, and REROUTE_DONE is sent (R464, R465). -/
def State.rerouteReplay (s : State) (n last : Nat) : State :=
  match (s.peer n).reroute with
  | none => s
  | some r =>
    let again := ((s.blink r.dead).tx.filter (fun t => t.sent < t.bytes.length || !covered last t.last)).map
      (fun t => { t with sent := 0, last := 0 })
    let s := s.modBlink r.dead (fun x => { x with tx := [], replay := [] })
    let begun (t : TxPkt) : Bool := decide (0 < t.sent)
    let s := (s.modBlink r.survivor (fun x =>
      { x with tx := x.tx.filter begun ++ again ++ x.tx.filter (fun t => !begun t), ctrl := none })).pumpBorder r.survivor 1024
    let r' : Reroute := { r with last := some last, sent := true }
    let s := (s.modPeer n (fun p => { p with reroute := some r' })).putFlit r.survivor (.rerouteDone r.dead)
    if r'.seen then s.endReroute n r' else s

/-- REROUTE_REQ: this end declares its link down too, and answers unless it leads (R459, R464). -/
def execRerouteReq (link dead last : Nat) (s : State) : Result :=
  .next (
    let n := s.peerOf link
    if !s.awake || (s.blink link).state != .up then s
    else
      match s.linkFrom n dead with
      | none => s
      | some d =>
        let own := match (s.peer n).reroute with
          | some r => r.dead == d && !r.sent && (s.blink r.survivor).ctrl.isSome
          | none => false
        if own && s.boot.cfg.pos < n then s
        else if ((s.peer n).reroute.map (fun r => r.dead == d && r.sent)).getD false then
          s.putFlit link (.rerouteAck d (s.lastDelivered d))
        else
          let others (r : Reroute) : List Nat := (if r.dead == d then r.also else r.dead :: r.also).filter (· != d)
          let s := (s.modBlink link (fun x => { x with ctrl := none })).modPeer n (fun p =>
            { p with reroute := some { dead := d, survivor := link, seen := (p.reroute.map (fun r => r.dead == d && r.seen)).getD false,
                                       also := (p.reroute.map others).getD [] } })
          let s := s.borderDown d 1
          (s.putFlit link (.rerouteAck d (s.lastDelivered d))).rerouteReplay n last)

/-- REROUTE_ACK (R465). -/
def execRerouteAck (link dead last : Nat) (s : State) : Result :=
  .next (
    let n := s.peerOf link
    match (s.peer n).reroute with
    | some r =>
      if s.awake && r.survivor == link && !r.sent && s.linkFrom n dead == some r.dead then s.rerouteReplay n last else s
    | none => s)

/-- REROUTE_DONE: with both seen, traffic resumes (R464). -/
def execRerouteDone (link dead : Nat) (s : State) : Result :=
  .next (
    let n := s.peerOf link
    match (s.peer n).reroute with
    | some r =>
      if !s.awake || s.linkFrom n dead != some r.dead then s
      else if r.sent then s.endReroute n r
      else s.modPeer n (fun p => { p with reroute := some { r with seen := true } })
    | none => s)

/-- REROUTE_LIMIT_EXPIRY (R467, R473). -/
def execRerouteLimitExpiry (peer : Nat) (s : State) : Result :=
  .next (match (s.peer peer).reroute with
    | some r => s.fencePeer peer 2 (some r.dead)
    | none => s)

/-- The unit holds an outstanding Border transaction to the peer (R468): at a link unit, or on its way to one. -/
def State.borderBusy (s : State) (unit n : Nat) : Bool :=
  (s.peerLinks n).any (fun l =>
    (s.blink l).xids.any (fun x => x.pkt.initUnit == unit) || s.net.outst.any (fun r => r.unit == unit && r.pkt.dest == borderUnit l))

/-- HOME_LINK_RETURN (R468): the unit's packets take its home link again; the link stops being routed once no initiator is away. -/
def execHomeLinkReturn (unit peer : Nat) (s : State) : Result :=
  .next (
    let ls := s.peerLinks peer
    let home := ls.getD (unit % max 1 ls.length) 0
    if !s.basket.moved.has (unit * 4 + peer) || (s.blink home).state != .up || s.borderBusy unit peer then s
    else
      let s : State := { s with basket.moved := s.basket.moved.del (unit * 4 + peer) }
      let away := s.basket.moved.any (fun e => e.1 % 4 == peer && ls.getD (e.1 / 4 % max 1 ls.length) 0 == home)
      if away then s else s.modBlink home (fun x => { x with routed := none }))

/-! ### Transactions (R460-R463) -/

/-- A link unit takes new Border packets for its peer: the peer is admitted, no reroute is under way and an entry is free. -/
def State.borderOpen (s : State) (l : Nat) (op : POp) : Bool :=
  let n := s.peerOf l
  (s.peer n).state == .admitted && (s.peer n).reroute.isNone &&
  ((op.cls != 0 && op.cls != 1) || decide ((s.blink l).xids.length < 2048))

/-- The packet's fields on a Border link (R443). -/
def borderOf (p : Packet) (xid origin : Nat) : BorderPkt :=
  { op := p.op, xid := xid, originLink := origin, world := p.world, glove := p.glove, gloveValid := p.gloveValid, home := p.home,
    ep := p.ep, ackReq := p.ackReq, prefetch := p.prefetch, len := p.len, status := p.status, addr := p.addr, firstBE := p.firstBE,
    lastBE := p.lastBE, data := p.data }

/-- A request leaves for a peer: it takes the lowest free XID (R460, R461), and the one link of its initiator to that peer (R32). -/
def State.borderOut (s : State) (l : Nat) (p : Packet) : State :=
  let x := s.blink l
  let xid := ((List.range 2048).find? (fun i => !x.xids.any (fun e => e.xid == i))).getD 0
  let left := if p.op == .memRd || p.op == .memRdLock then p.lines.length else 0
  (s.modBlink l (fun x => { x with xids := x.xids ++ [⟨xid, p, left⟩] })).sendBorder (s.borderLink p.initUnit (s.peerOf l)) p.vc
    { (borderOf p xid l) with ackReq := p.op.cls == 0 }

/-- The response to a request that a peer sent goes back (R463). -/
def State.borderBack (s : State) (l xid : Nat) (p : Packet) (last : Bool) : State :=
  match (s.blink l).inbound.find? (fun e => e.xid == xid) with
  | none => s
  | some e =>
    let s := if last then s.modBlink l (fun x => { x with inbound := x.inbound.filter (fun e => e.xid != xid) }) else s
    s.sendBorder e.back p.vc { (borderOf p xid e.origin) with addr := p.addr, len := p.len }

/-- Hand `n` bytes of a VC's stream to the Weave; the credits of the flits they empty return (R452). -/
def BLink.consume (vc : Nat) : Nat → Nat → BLink → BLink
  | 0, _, x => x
  | _, 0, x => x
  | k + 1, n, x =>
    match x.rx.get [] vc with
    | [] => x
    | f :: fs =>
      if n < f.length then { x with rx := x.rx.set vc (f.drop n :: fs) }
      else
        let i := vcIndex vc
        let o := x.occ.get 0 i
        let y : BLink := { x with
          rx := x.rx.set vc fs
          occ := x.occ.set i (o - 1)
          retRes := if 8 < o then x.retRes else x.retRes.mod 0 i (· + 1)
          retShared := if 8 < o then x.retShared.mod 0 i (· + 1) else x.retShared }
        BLink.consume vc k (n - f.length) y

/-- BORDER_PACKET: a request is injected as the link unit's own; a response goes to the unit that ORIGIN_LINK names and is restored
under R243 (R443, R461-R463). Its bytes leave the VC's stream if they came in PAYLOAD flits; a packet that came whole over a link that
has gone down since is delivered all the same (R465, R466), and a request of a fenced peer is not (R475). -/
def execBorderPacket (link : Nat) (b : BorderPkt) (s : State) : Result :=
  .next (
    let n := s.peerOf link
    let c := b.op.cls
    let code := borderCode b.op
    let bs := borderBytes b
    let held (vc : Nat) : Bool := ((s.blink link).rx.get [] vc).flatten.take bs.length == bs
    let vc := if held (b.op.vc 1) then b.op.vc 1 else b.op.vc 0
    let whole := held vc || (s.blink link).state == .up
    if !s.awake || !(whole || (s.blink link).state == .admitting) || s.fenced (borderUnit link) then s
    else
      let s := if code != 0 && held vc then s.modBlink link (BLink.consume vc bs.length bs.length) else s
      if code == 0 then s.contained 8 0x0046 (borderUnit link) 0 none
      else if b.op == .mgmt then s.edge (28 + link)
      else if !whole then s
      else if c == 2 then
        let l := b.originLink
        match (s.blink l).xids.find? (fun e => e.xid == b.xid) with
        | none => s
        | some e =>
          let left := e.left - b.data.length
          let last := b.op != .cplD || left == 0
          let s := s.modBlink l (fun x =>
            { x with xids := if last then x.xids.filter (fun y => y.xid != b.xid)
                             else x.xids.map (fun y => if y.xid == b.xid then { y with left := left } else y) })
          s.respond { e.pkt with dest := borderUnit l, destKnot := unitKnot (borderUnit l) } b.op b.status b.addr b.data b.ep
      else
        match (if (s.peer n).state == .admitted then s.linkFrom n b.originLink else none) with
        | none => s
        | some l =>
          let p : Packet :=
            { op := b.op, vc := b.op.vc (vcService vc), initUnit := borderUnit l, initKnot := unitKnot (borderUnit l), addr := b.addr,
              len := b.len, firstBE := b.firstBE, lastBE := b.lastBE, world := b.world, gloveValid := b.gloveValid, glove := b.glove,
              home := b.home, ackReq := b.ackReq, ep := b.ep, prefetch := b.prefetch, data := b.data }
          (s.modBlink l (fun x => { x with inbound := x.inbound ++ [⟨b.originLink, b.xid, p, link⟩] })).sendDev 0 (.borderIn l b.xid) p none)

end Sys2Proof.Machine
end

