-- ==== Sys2Proof/Machine/Faults.lean ====
section
/-! DEFINITION. The fault collector: severity, detail records and the log, buckets, fences, retirement, modes and Quarantine, and the
channel schedulers' command slots (R99, R153-R177, R211-R214, R512-R537). -/

namespace Sys2Proof.Machine

/-! ### Modes (R2, R532-R534, R560) -/

/-- ALERT# is asserted on every change of status bytes 0-3 (R560). -/
def State.alarm (s : State) : State := if s.sys.alert then s else ({ s with sys.alert := true }).emit .alert

/-- Change the mode with its cause (R532, R534). -/
def State.setMode (s : State) (m : Mode) (cause : Nat) : State :=
  if s.sys.mode == m then s
  else ({ s with sys.mode := m, sys.cause := cause }).alarm.raiseAllPf causeMode

/-- A retirement is in force (R527). -/
def State.anyRetired (s : State) : Bool :=
  s.flt.lanesRetired.any (fun e => e.2 != 0) || s.host.links.any (fun e => e.2.dead) ||
  s.basket.blinks.any (fun e => e.2.retired != 0 || e.2.state == .retired) || s.pool.gates.any (fun e => e.2.retired) ||
  s.flt.pseudoLost.any (fun e => !e.2) || s.flt.units.any (fun e => e.2.state == 3)

/-- A fence or a retirement is in force (FLT_MODE.DEGRADED). -/
def State.anyFence (s : State) : Bool := s.anyRetired || s.flt.units.any (fun e => e.2.state != 0)

/-- A fence or retirement takes effect: Service becomes Degraded (R523, R532). -/
def State.degrade (s : State) (code : Nat) : State := if s.sys.mode == .service then s.setMode .degraded code else s

/-- Zeroization and entry to Quarantine (R99, R534): every key, session and buffered line goes, the peers are told and ALERT# is
asserted. -/
def State.quarantine (s : State) (cause : Nat) : State :=
  if s.sys.mode == .quarantine then s
  else
    let s : State := { s with
      trust.band := []
      trust.shares := []
      trust.drbgReady := false
      trust.drbgCount := 0
      trust.aliasKey := none
      trust.usageKey := none
      trust.xtsKey := 0
      trust.kTree := 0
      trust.hTree := 0
      trust.gloves := s.trust.gloves.map (fun (k, g) =>
        (k, { g with state := .free, keySource := 0, kcv := 0, tdi := if g.tdiLive then .error else g.tdi }))
      host.links := s.host.links.map (fun (k, l) =>
        (k, { l with sessions := [], ide := l.ide.map (fun i => { i with secure := false, keys := [], active := none }) }))
      pool.gates := s.pool.gates.map (fun (k, g) => (k, { g with wcb := [], reencs := [] })) }
    let s := s.setMode .quarantine cause
    let s := (s.basket.peers.filter (fun e => e.2.state == .admitted)).foldl (fun s e =>
      s.sendMgmt e.1 (.quarantineNotice cause)) s
    let s : State := { s with basket.peers := s.basket.peers.map (fun (k, p) => (k, { p with session := none })) }
    ((List.range 16).filter s.linkExists).foldl (fun s l => s.aer ⟨l, 0⟩ .uncorrectableInternal) s.alarm

/-- Entry to Quarantine where the mode table allows it: in Blank only for the Crown, the Band or THERMTRIP# (R532). -/
def State.toQuarantine (s : State) (cause unit : Nat) : State :=
  if s.sys.mode == .blank && cause != 0x0706 && unit != crownUnit && unit != bandUnit then s else s.quarantine cause

/-! ### Recording (R513-R516, R535) -/

/-- Severity of a fault: 0 corrected, 1 contained, 2 fatal (R512, R517). -/
def severityOf (r : FaultReport) : Nat :=
  if r.code == 0x0043 || r.code == 0x0047 || r.code == 0x0703 || r.code == 0x0706 then 2
  else match r.error with
    | .linkRetry _ _ | .badCopy _ | .copyRetried | .correctedMemory | .strandSingle _ _ _ | .caRetrained | .borderParity _
    | .mramRetried => 0
    | .contained | .tableUncorrectable | .integrity | .treeFailure | .poisonedDdr | .poisonedHbm _ | .mramFailed | .selfTest => 1
    | .linkNoWidth _ | .headerCorrupt | .gateMemory | .rootMismatch | .stackController | .caPersistent | .pseudoFailed _ _
    | .unfenceable => 2

/-- Latch and count a fault in its detail record (R515); a record that fills raises PF0's error vector and a new fault asserts the
collector's source of its severity (R481, R503). -/
def State.latchFault (s : State) (r : FaultReport) : State :=
  let sev := severityOf r
  let b := 4 * r.cls + r.quad
  let d := s.flt.details.get {} b
  let d' : Detail := if !d.valid || d.severity < sev then
      { d with valid := true, code := r.code, severity := sev, unit := r.unit, element := r.element % 2 ^ 32, time := s.sys.now }
    else d
  let d' : Detail := match sev with
    | 0 => { d' with corrected := (d'.corrected + 1) % 2 ^ 32 }
    | 1 => { d' with contained := satAdd 65535 d'.contained 1 }
    | _ => { d' with fatal := satAdd 65535 d'.fatal 1 }
  let s : State := { s with flt.details := s.flt.details.set b d' }
  let s := s.setLevel (10 - sev) true
  if d.valid then s else s.raiseAllPf causeFault

/-- Append a fault-log record; the ring holds 4,096 (R535). -/
def State.logFault (s : State) (r : FaultReport) (flags : Nat) : State :=
  let e : FltRec :=
    { code := r.code, unit := r.unit, severity := severityOf r, cls := r.cls, flags := flags, time := s.sys.now,
      element := r.element % 2 ^ 64, glove := r.glove.getD 0xFFFF, seq := s.flt.fltSeq }
  let l := s.flt.fltLog ++ [e]
  { s with flt.fltLog := l.drop (l.length - 4096), flt.fltSeq := (s.flt.fltSeq + 1) % 2 ^ 32 }

/-! ### Fences (R521-R526) -/

/-- Class of a unit's own faults (R513). -/
def unitClass (u : Nat) : Nat :=
  match unitKind u with
  | 0 => 0
  | 1 => 2
  | 2 => 3
  | 3 => 6
  | 4 => 8
  | 5 => 7
  | 9 => 11
  | _ => 10

/-- The links of a Cuff. -/
def State.cuffLinks (s : State) (c : Nat) : List Nat := [2 * c, 2 * c + 1].filter s.linkExists

/-- Cuff, engine, Border link and quadrant numbers of a unit. -/
def unitCuff (u : Nat) : Nat := 2 * unitQuad u + unitIdx u

/-- A fence takes effect on a unit (R521, R522); a DDR sealing gate loses its buffer and its counter cache with it (R172, R658). -/
def State.fenceUnit (s : State) (u code st : Nat) : State :=
  let s := s.modUnit u (fun x => { x with state := st, code := code, quiet := if st == 1 then s.boot.cfg.quiet else 0 })
  let drop (r : Req) : Bool := r.unit == u
  let fs := (s.work.fingers.filter (fun e => e.2.engine == some u)).map (fun e => fgOfKey e.1)
  let s : State := { s with net.outst := s.net.outst.filter (fun r => !drop r) }
  match unitKind u with
  | 0 => (s.cuffLinks (unitCuff u)).foldl (fun s l => (s.loseLink l .detect).emit (.linkDetect l)) s
  | 1 => s.modGate (4 * unitQuad u + unitIdx u) (fun x =>
      { x with wcb := [], ccache := [], macs := [], olines := [], walks := [], mqWait := [], reencs := [], parked := [], locks := [] })
  | 3 => fs.foldl (fun s f => (s.fgHalt f (plainHalt 0x0505)).modFinger f (fun x => { x with engine := none })) s
  | 4 => if st == 3 then s.retireLink (unitCuff u) else s.borderDown (unitCuff u) 1
  | 5 =>
    let serving (g : Nat) : Bool := (s.linkOf g).map linkQuad == some (unitQuad u)
    let lose (e : Nat × Usage) : Nat × Usage :=
      let x := { e.2 with missing := e.2.missing ||| BitVec.ofNat 4 (2 ^ unitQuad u) }
      (e.1, if serving e.1 then { x with dmaHost := 0, dmaPool := 0, dmaPeer := 0 } else x)
    let s : State := { s with usg.usage := s.usg.usage.map lose }
    (s.work.queues.filter (fun e => e.1 / 128 / 256 / 4 == unitQuad u)).foldl (fun s e =>
      s.qFault ⟨e.1 / 128 / 256, e.1 / 128 % 256, e.1 % 128⟩ 0x0702) s
  | _ => s

/-- A transient fence, made permanent by the recovery bucket (R524, R526). -/
def State.fenceTransient (s : State) (u code : Nat) : State :=
  let s := s.modUnit u (fun x => { x with bucket := x.bucket + 1 })
  if (s.unitFlt u).bucket < s.boot.cfg.retireThresh then (s.fenceUnit u code 1).degrade code
  else if unitKind u == 3 then
    (({ s with flt.mramQ := s.flt.mramQ ++ [(8, u, unitCuff u, 0)] }).fenceUnit u code 3).degrade code
  else if unitKind u == 4 then (s.fenceUnit u code 3).degrade code
  else (s.fenceUnit u code 2).degrade code

/-! ### Buckets and retirement (R164-R166, R176, R177, R292, R454, R520, R527-R529) -/

/-- A removal to be recorded in the retirement log: kind, unit, element, detail (R528, R536). -/
def State.removal (s : State) (kind unit element detail : Nat) : State :=
  { s with flt.mramQ := s.flt.mramQ ++ [(kind, unit, element, detail)] }

/-- A host lane is retired (R292): the link is asked down to the widest usable width, or is retired. -/
def State.retireHostLane (s : State) (c lane : Nat) : State :=
  let u := cuffUnit c
  let s : State := { (s.removal 1 u lane 0) with
    flt.lanesRetired := s.flt.lanesRetired.mod 0 c (fun v => v ||| BitVec.ofNat 16 (2 ^ lane)) }
  let l := if s.twoX8 c && 8 ≤ lane then 2 * c + 1 else 2 * c
  if !s.linkExists l then s.degrade 0x0042
  else
    match s.usableWidth l with
    | some w => (s.askWidth l w).degrade 0x0042
    | none =>
      let s := ((s.modLink l (fun x => { x with dead := true, wantWidth := none })).loseLink l .detect).removal 2 u l 0
      (s.report (mkFault 0 (.linkNoWidth l) 0x0043 u l none)).degrade 0x0043

/-- A DIMM is declared failed: its channel is retired (R166, R171), and without a mirror every buffered line of it is lost (R658). -/
def State.retireChannel (s : State) (ch : Nat) : State :=
  if (s.gate ch).retired then s
  else
    let u := gateUnit ch
    let lost := if s.boot.cfg.mirror then [] else (s.gate ch).wcb
    let s := s.modGate ch (fun x =>
      { x with retired := true, wcb := if s.boot.cfg.mirror then x.wcb else [], reencs := if s.boot.cfg.mirror then x.reencs else [] })
    let s := lost.foldl (fun s w => s.recordFail ch w.line w.slot 0x0203) s
    let kind := if s.boot.cfg.mirror && (s.gate (partner ch)).retired then 6 else 5
    (((s.removal kind u ch 0).latchFault (mkFault 4 .contained 0x0047 u ch none)).logFault
      (mkFault 4 .contained 0x0047 u ch none) 4).degrade 0x0047

/-- An HBM pseudo-channel fails (R177). -/
def State.losePseudo (s : State) (stack pc : Nat) (spare : Bool) : State :=
  let k := stack * 32 + pc
  let s : State := { (s.removal (if spare then 11 else 7) (stackUnit stack) pc 0) with
    flt.pseudoLost := if s.flt.pseudoLost.any (fun e => e.1 == k) then s.flt.pseudoLost else s.flt.pseudoLost ++ [(k, spare)] }
  if spare then s else s.degrade 0x004A

/-- Add 1 to a gate's buckets, which the 5-bit fields of R178 show saturated (log entry 107); the action runs when the bucket reaches
its threshold, and a suspect channel is reported (R164-R166). -/
def State.addInteg (s : State) (g : Nat) : State :=
  let n := (s.gate g).integ
  let s := s.modGate g (fun x => { x with integ := satAdd 31 x.integ 1 })
  if n == 2 then (s.modGate g (fun x => { x with suspect := true })).corrected 4 0x0200 (gateUnit g) g else s

def State.addUe (s : State) (g : Nat) : State :=
  let n := (s.gate g).ue
  let s := s.modGate g (fun x => { x with ue := satAdd 31 x.ue 1 })
  if n == 15 then s.retireChannel g else s

/-- DDR channel of a gate unit. -/
def unitGate (u : Nat) : Nat := 4 * unitQuad u + unitIdx u

/-- Steer a strand group onto its spare wire (R271). -/
def State.steerWire (s : State) (knot port group : Nat) : State :=
  let k := knot * 5 + port
  if ((s.net.knotOut.get {} k).spares.getLsbD group) then s
  else
    ({ s with net.knotOut := s.net.knotOut.mod {} k (fun x => { x with spares := x.spares ||| BitVec.ofNat 8 (2 ^ group) }) }).removal 10
      crownUnit (32 * knot + 8 * port + group) 0

/-- A unit drops a copy that it found bad and fetches it once more (R518). What the fetch needs no packet for is decided at once: a rule
copy, whose original the Crown holds, a MAC line, which its channel holds, and an HBM gate's line (log entry 9); the others end when
their line comes. A copy that is not held, or is not clean, is no case of the rule. -/
def State.dropCopy (s : State) (r : FaultReport) : CopyOf → State
  | .translation unit link g i =>
    let key := cacheKey unit link
    if (s.pool.tcaches.get [] key).any (fun e => e.1 == g * 2 ^ 21 + i) then
      ({ s with
          flt.refetch := s.flt.refetch ++ [r]
          pool.tcaches := s.pool.tcaches.mod [] key (fun c => c.filter (fun e => e.1 != g * 2 ^ 21 + i)) }).fetchTable unit link
        (s.pteLine g i)
    else s
  | .rules g => if (s.glove g).rules.isEmpty then s else s.retried r 0
  | .counter g blk =>
    if (s.gate g).ccache.has blk && !((s.gate g).ccache.get ({}, false) blk).2 then
      let s : State := { (s.modGate g (fun x => { x with ccache := x.ccache.del blk })) with flt.refetch := s.flt.refetch ++ [r] }
      let s := s.ensureWalk g blk
      if ((s.walkOf g blk).map Walk.fetch).getD true then s else s.fetchNode g blk 0
    else s
  | .macLine g a =>
    if (s.gate g).macs.has a && !((s.gate g).macs.get (0, false) a).2 then
      let s := (s.modGate g (fun x => { x with macs := x.macs.del a })).slotWant g (s.chanAddr g a)
      s.retried r (if s.ddrBadAt g a then 0x0201 else 0)
    else s
  | .ownership g l =>
    if (s.gate g).olines.has l then
      let (q, a) := s.tableAddr l
      ({ (s.modGate g (fun x => { x with olines := x.olines.del l })) with flt.refetch := s.flt.refetch ++ [r] }).nodeRequest g
        (.gateOwn g l) (mqPacket .mqRd g (hbmOwner q a) a [])
    else s
  | .node h key =>
    if (s.hgate h).cache.has key && !((s.hgate h).cache.get (0, false) key).2 then
      let (b, l, i) := keyNode key
      match (s.modHgate h (fun x => { x with cache := x.cache.del key })).bring b 9 l i with
      | (.inl _, s) => s.retried r 0
      | (.inr _, s) => s.retried r 0x0202
    else s
  | .instruction f a =>
    if (s.finger f).ibuf.any (fun e => e.1 == a) then
      { (s.modFinger f (fun x => { x with ibuf := x.ibuf.filter (fun e => e.1 != a) })) with flt.refetch := s.flt.refetch ++ [r] }
    else s

/-- PF0 of the link of a Cuff lane. -/
def State.lanePf (s : State) (c lane : Nat) : FnId := ⟨if s.twoX8 c && 8 ≤ lane then 2 * c + 1 else 2 * c, 0⟩

/-- The reaction of the collector to a fault (R517), with what R342 logs for it, and whether a bucket reached its threshold. -/
def State.react (s : State) (r : FaultReport) : State × Bool :=
  match r.error with
  | .linkRetry lane err =>
    let c := unitCuff r.unit
    let k := c * 16 + lane
    let n := s.flt.hostLanes.get 0 k + 1
    let s := ({ s with flt.hostLanes := s.flt.hostLanes.set k n } : State).aer (s.lanePf c lane) err
    if n == s.boot.cfg.hostLaneThresh then (s.retireHostLane c lane, true) else (s, false)
  | .strandSingle knot port group =>
    let k := (knot * 4 + port) * 8 + group
    let n := s.flt.wires.get 0 k + 1
    let s : State := { s with flt.wires := s.flt.wires.set k n }
    if n == s.boot.cfg.wireThresh then (s.steerWire knot port group, true) else (s, false)
  | .borderParity lane =>
    let l := unitCuff r.unit
    let n := (s.blink l).lanes.get 0 lane + 1
    let s := s.modBlink l (fun x => { x with lanes := x.lanes.set lane (min 255 n) })
    if n == s.boot.cfg.laneThresh then ((s.retireLane l lane).degrade 0x0042, true) else (s, false)
  | .correctedMemory =>
    (if r.cls == 0 && r.code == 0x0040 then
      (s.cuffLinks (unitCuff r.unit)).foldl (fun s l => s.aer ⟨l, 0⟩ .correctedInternal) s
    else s, false)
  | .headerCorrupt =>
    (((List.range 16).filter s.linkExists).foldl (fun s l => s.aer ⟨l, 0⟩ .uncorrectableInternal) (s.toQuarantine 0x0705 r.unit), false)
  | .rootMismatch => (s.toQuarantine 0x0704 r.unit, false)
  | .stackController => (s.toQuarantine 0x0705 r.unit, false)
  | .unfenceable => (s.toQuarantine 0x0705 r.unit, false)
  | .integrity => (s.addInteg (unitGate r.unit), (s.gate (unitGate r.unit)).integ == 2)
  | .poisonedDdr =>
    let g := unitGate r.unit
    ((s.addInteg g).addUe g, (s.gate g).integ == 2 || (s.gate g).ue == 15)
  | .caPersistent => (s.retireChannel (unitGate r.unit), false)
  | .poisonedHbm pc =>
    let k := unitQuad r.unit * 32 + pc
    let n := s.flt.pseudo.get 0 k + 1
    let s : State := { s with flt.pseudo := s.flt.pseudo.set k n }
    let used := (s.flt.pseudoLost.filter (fun e => e.1 / 32 == unitQuad r.unit && e.2)).length
    if n == 16 then (s.report (mkFault 5 (.pseudoFailed pc (decide (used < Config.hbmSpares (unitQuad r.unit)))) 0x004A r.unit pc none), true)
    else (s, false)
  | .pseudoFailed pc spare => (s.losePseudo (unitQuad r.unit) pc spare, false)
  | .gateMemory => ((s.fenceUnit r.unit r.code 2).degrade r.code, false)
  | .tableUncorrectable =>
    if (s.unitFlt r.unit).state == 0 then (s.fenceTransient r.unit r.code, false) else (s, false)
  | .linkNoWidth l => (s.modLink l (fun x => { x with dead := true }), false)
  | .contained =>
    if r.code == 0x0703 || r.code == 0x0706 then (s.toQuarantine r.code r.unit, false)
    else if r.code == 0x0043 then (s.degrade 0x0043, false)
    else (s, false)
  | _ => (s, false)

/-- The fault log's "corrected by retry" (R535; log entry 122): a link-layer retry, an MRAM write retry or the second fetch of a copy. -/
def byRetry (r : FaultReport) : Bool := r.code == 0x0042 || r.error == .mramRetried || r.error == .copyRetried

/-- The collector takes a report (R515, R535). -/
def State.takeFault (s : State) (r : FaultReport) : State :=
  let s : State := { s with net.reports := eraseFirst (· == r) s.net.reports }
  let filled := !(s.flt.details.get {} (4 * r.cls + r.quad)).valid
  let s1 := s.latchFault r
  let s1 := if (s1.unitFlt r.unit).state == 1 then s1.modUnit r.unit (fun x => { x with quiet := s.boot.cfg.quiet }) else s1
  let (s2, full) := s1.react r
  let fenced := decide (s1.flt.units.countP (fun e => e.2.state != 0) < s2.flt.units.countP (fun e => e.2.state != 0))
  let retired := decide ((s1.flt.mramQ.filter (fun e => e.1 ≤ 8)).length < (s2.flt.mramQ.filter (fun e => e.1 ≤ 8)).length)
  let flags := bit (byRetry r) + 2 * bit fenced + 4 * bit retired + 8 * bit (s2.sys.mode != s1.sys.mode)
  if severityOf r != 0 || filled || full then s2.logFault r flags else s2

/-- FAULT: the collector takes a report in arrival order (R516): any fault of a fenced unit starts its quiet period again (R524),
the reaction runs, and the fault is latched, counted and logged (R515, R535). What a unit finds in a copy comes to the collector only
once the second fetch has ended (R518). -/
def execFault (r : FaultReport) (s : State) : Result :=
  .next (if !s.awake then s
    else match r.error with
      | .badCopy c => s.dropCopy r c
      | _ => s.takeFault r)

/-- LEAKY_BUCKET_DRAIN: a bucket drains by 1, never below 0 (R520); a channel is suspect until its integrity bucket is 0 (R165). -/
def execLeakyBucketDrain (b : Bucket) (s : State) : Result :=
  .next (match b with
    | .wire k p g => { s with flt.wires := s.flt.wires.mod 0 ((k * 4 + p) * 8 + g) (· - 1) }
    | .hostLane c l => { s with flt.hostLanes := s.flt.hostLanes.mod 0 (c * 16 + l) (· - 1) }
    | .borderLane l i => s.modBlink l (fun x => { x with lanes := x.lanes.mod 0 i (· - 1) })
    | .borderDown l => s.modBlink l (fun x => { x with downBucket := x.downBucket - 1 })
    | .ddrIntegrity ch => s.modGate ch (fun x => { x with integ := x.integ - 1, suspect := x.suspect && decide (1 < x.integ) })
    | .ddrUncorrectable ch => s.modGate ch (fun x => { x with ue := x.ue - 1 })
    | .hbmPseudo q pc => { s with flt.pseudo := s.flt.pseudo.mod 0 (q * 32 + pc) (· - 1) }
    | .recovery u => s.modUnit u (fun x => { x with bucket := x.bucket - 1 }))

/-! ### Quiet-period recovery (R524, R525) -/

/-- SELF_TEST_TICK: a second of a transient fence passes; a failed self-test is a fault of the unit (R524). -/
def execSelfTestTick (unit : Nat) (pass : Bool) (s : State) : Result :=
  .next (if !s.awake || (s.unitFlt unit).state != 1 then s
    else if pass then s.modUnit unit (fun x => { x with quiet := x.quiet - 1 })
    else
      (s.modUnit unit (fun x => { x with quiet := s.boot.cfg.quiet })).report
        (mkFault (unitClass unit) .selfTest 0x0041 unit 0 none))

/-- QUIET_PERIOD_EXPIRY: the fence lifts, and the device returns to Service when nothing else is fenced or retired (R525, R532). -/
def execQuietPeriodExpiry (unit : Nat) (s : State) : Result :=
  .next (if !s.awake || (s.unitFlt unit).state != 1 then s
    else
      let s := s.modUnit unit (fun x => { x with state := 0, code := 0, quiet := 0, recoveries := satAdd 65535 x.recoveries 1 })
      let s := match unitKind unit with
        | 0 =>
          (s.dropCaches (fun k => (s.cuffLinks (unitCuff unit)).any (fun l => k == cacheKey unit l))).modCuff (unitCuff unit)
            (fun c => { c with locks := [] })
        | 4 => if (s.blink (unitCuff unit)).state == .down then s.setBState (unitCuff unit) .training else s
        | 5 =>
          { (s.dropCaches (· == unit)) with
            net.gstat := s.net.gstat.filter (fun e => e.1 / 1024 != unitQuad unit)
            usg.usage := s.usg.usage.map (fun (g, u) => (g, { u with base := u.base.set (unitQuad unit) {} })) }
        | _ => s.dropCaches (· == unit)
      if s.sys.mode == .degraded && !s.anyFence then s.setMode .service 0 else s)

/-! ### The retirement log (R528-R531) -/

/-- Records the log can hold (R528). -/
def retireMax : Nat := 32768

/-- Where a new record goes: the lowest free index, else that of the oldest record of kind 12 (R529, R531). -/
def State.recordSlot (s : State) : Option Nat :=
  let log := s.boot.mram.log
  if log.length < retireMax then (List.range (log.length + 1)).find? (fun i => !log.has i)
  else
    ((log.filter (fun e => e.2.kind == 12)).foldl (fun a e => match a with
      | some (b : Nat × RetRec) => if e.2.time < b.2.time then some e else some b
      | none => some e) none).map Prod.fst

/-- MRAM_RECORD_WRITE: the Crown writes the record of a removal (R528, R529). -/
def execMramRecordWrite (kind unit element detail : Nat) (ok : Bool) (s : State) : Result :=
  .next (if !s.awake || !s.flt.mramQ.contains (kind, unit, element, detail) then s
    else
      let s : State := { s with flt.mramQ := eraseFirst (· == (kind, unit, element, detail)) s.flt.mramQ }
      if !ok then s.report (mkFault 12 .mramFailed 0x004B crownUnit 0 none)
      else
        match s.recordSlot with
        | some i =>
          let r : RetRec :=
            { kind := kind, unit := unit, element := element, detail := detail, coldResets := s.boot.mram.coldResets, time := s.sys.now }
          { s with boot.mram.log := s.boot.mram.log.set i r }
        | none => ({ s with flt.unrecorded := satAdd 255 s.flt.unrecorded 1 }).contained 12 0x0713 crownUnit 0 none)

/-- BAR0 offset of FLT_RETIRE_CLEAR (R537, R629). -/
def offRetireClear : Nat := 0x10020

/-- Set the state of one record or of all (R531). -/
def State.markRecords (s : State) (f : FnId) (all : Bool) (index st : Nat) : State :=
  if !s.bar0On f || f.fn != 0 then s
  else if all then { s with boot.mram.log := s.boot.mram.log.map (fun e => (e.1, { e.2 with state := st })) }
  else if s.boot.mram.log.has index then
    { s with boot.mram.log := s.boot.mram.log.map (fun e => if e.1 == index then (e.1, { e.2 with state := st }) else e) }
  else s.reject f 0x0003 1 offRetireClear

/-- RETIRE_CLEAR: in force to clear-pending (R531, R537). -/
def execRetireClear (f : FnId) (all : Bool) (index : Nat) (s : State) : Result := .next (s.markRecords f all index 1)

/-- RETIRE_CLEAR_CANCEL: clear-pending to in force (R531, R537). -/
def execRetireClearCancel (f : FnId) (all : Bool) (index : Nat) (s : State) : Result := .next (s.markRecords f all index 0)

/-! ### Violations (R211-R214) -/

/-- RULE_FAULT: the latch takes the report in arrival order. -/
def execRuleFault (v : Violation) (s : State) : Result :=
  .next (if !s.awake then s
    else
      let s : State := ({ s with net.violations := eraseFirst (· == v) s.net.violations }).edge 76
      let l := (s.glove v.glove).latch
      if l.valid then s.modGlove v.glove (fun g => { g with latch := { g.latch with count := satAdd 65535 l.count 1 } })
      else
        let s := s.modGlove v.glove (fun g =>
          { g with latch := { valid := true, addr := v.addr / 64 * 64, code := v.code, count := 0, world := v.world, write := v.write,
                              unit := v.unit } })
        match s.vfOf v.glove with
        | some f => s.raiseCause f causeRule
        | none => s)

/-! ### Command slots and scrub (R153-R157, R165, R173-R175) -/

/-- The chunk of channel address space that lies in a chunk of DRAM: the one spared to it, or itself; none for a spare chunk that is not
in use (R173). -/
def State.chunkAt (s : State) (ch phys : Nat) : Option Nat :=
  let base := stripes s.boot.cfg.dimmSize * 0x1200000 / 4096
  if phys < base then some phys else ((s.gate ch).spares.find? (fun e => base + e.2 == phys)).map Prod.fst

/-- The uncorrectable or soft event of a chunk (R173-R175): it is copied to the lowest free spare chunk (log entry 110), its bad lines
as poison codewords; when the table is full the chunk counts once in the bucket of R166. -/
def State.spareChunk (s : State) (ch chunk : Nat) : State :=
  let x := s.gate ch
  if 1024 ≤ x.spares.length && !x.spares.has chunk then
    if x.unspared.contains chunk then s
    else (s.modGate ch (fun x => { x with unspared := x.unspared ++ [chunk], soft := x.soft.del chunk })).addUe ch
  else
    let n := ((List.range 1024).find? (fun i => !x.spares.any (fun e => e.2 == i))).getD 0
    let lines := (List.range 64).map (fun i => chunk * 4096 + 64 * i)
    let old := lines.map (fun a => (a, s.ddrLine ch a, s.ddrBadAt ch a))
    let s := s.modGate ch (fun x => { x with spares := x.spares.set chunk n, soft := x.soft.del chunk })
    let s := old.foldl (fun s (a, d, bad) => let s := s.ddrPut ch a d; if bad then s.ddrPoison ch a else s) s
    s.removal 9 (gateUnit ch) chunk (chunk * 4096)

/-- What the ECC of a channel finds in the access of one slot at DRAM address `a` (R106, R156, R158, R173): a corrected error counts for
24 hours, an uncorrectable one leaves the line bad until it is written whole. -/
def State.eccDdr (s : State) (ch a : Nat) (ecc : EccResult) : State :=
  let u := gateUnit ch
  let now := s.sys.now
  match ecc, s.chunkAt ch (a / 4096) with
  | .clean, _ => s
  | .corrected, none => s.corrected 4 0x0040 u (a / 4096)
  | .corrected, some k =>
    let s := (s.corrected 4 0x0040 u (a / 4096)).modGate ch (fun x =>
      { x with soft := x.soft.mod [] k (fun ts => ts.filter (fun t => decide (now < t + passNs)) ++ [now]) })
    if 4 ≤ ((s.gate ch).soft.get [] k).length then s.spareChunk ch k else s
  | .uncorrectable, c =>
    let key := ddrKey ch a
    let s : State := { s with pool.ddrBad := if s.pool.ddrBad.contains key then s.pool.ddrBad else s.pool.ddrBad ++ [key] }
    let s := s.report (mkFault 4 .poisonedDdr 0x0201 u (a / 64) none)
    match c with
    | some k => s.spareChunk ch k
    | none => s

/-- What the ECC of a pseudo-channel finds at a stack address (R156-R158). -/
def State.eccHbm (s : State) (q pc a : Nat) (ecc : EccResult) : State :=
  match ecc with
  | .clean => s
  | .corrected => s.corrected 5 0x0040 (stackUnit q) pc
  | .uncorrectable =>
    let key := hbmKey q a
    ({ s with pool.hbmBad := if s.pool.hbmBad.contains key then s.pool.hbmBad else s.pool.hbmBad ++ [key] }).report
      (mkFault 5 (.poisonedHbm pc) 0x0201 (stackUnit q) pc none)

/-- A pass that is over begins again 24 hours after it began (R156): the lines scrubbed and the time at which the pass began. -/
def newPass (done lines start now : Nat) : Nat × Nat := if lines ≤ done && start + passNs ≤ now then (0, now) else (done, start)

/-- One scrub access of a channel: the next line of the pass, while the pass has one; what the ECC finds is acted on (R156, R173). -/
def State.scrubDdr (s : State) (ch : Nat) (ecc : EccResult) : State :=
  let x := s.gate ch
  let (n, t) := newPass x.scrub s.channelLines x.passStart s.sys.now
  if s.channelLines ≤ n then s.modGate ch (fun x => { x with slots := x.slots + 1 })
  else (s.modGate ch (fun x => { x with scrub := n + 1, slots := 0, passStart := t })).eccDdr ch (64 * n) ecc

/-- One scrub access of a pseudo-channel (R157). -/
def State.scrubHbm (s : State) (q pc : Nat) (ecc : EccResult) : State :=
  let x := s.pool.hbmSched.get {} (q * 32 + pc)
  let (n, t) := newPass x.scrub pseudoLines x.passStart s.sys.now
  let put (s : State) (f : HbmSched → HbmSched) : State := { s with pool.hbmSched := s.pool.hbmSched.mod {} (q * 32 + pc) f }
  if pseudoLines ≤ n then put s (fun x => { x with slots := x.slots + 1 })
  else (put s (fun x => { x with scrub := n + 1, slots := 0, passStart := t })).eccHbm q pc (Config.pseudoLine q pc n) ecc

/-- The foreground request a scheduler grants (R155): one that has waited 2 µs behind later ones, else the first row hit, else the
oldest. `key` names the scheduler. -/
def pickSlot (key now : Nat) (rows : Tbl Nat) (q : List SlotReq) : Option SlotReq :=
  let hit (r : SlotReq) : Bool := let (b, w) := Config.dramRow key r.addr; rows.has b && rows.get 0 b == w
  match q.find? (fun r => (r.passed.map (fun t => decide (t + 2000 ≤ now))).getD false) with
  | some r => some r
  | none => match q.find? hit with
    | some r => some r
    | none => q.head?

/-- The queue once a request is granted: the earlier ones that stay have been passed (R155). -/
def passOver (now : Nat) (r : SlotReq) : List SlotReq → List SlotReq
  | [] => []
  | x :: xs => if x == r then xs else { x with passed := x.passed.or (some now) } :: passOver now r xs

/-- The open rows once a request is granted. -/
def openRow (key : Nat) (rows : Tbl Nat) (r : SlotReq) : Tbl Nat := rows.set (Config.dramRow key r.addr).1 (Config.dramRow key r.addr).2

/-- A foreground slot of a channel. -/
def State.grantDdr (s : State) (ch : Nat) (r : SlotReq) (ecc : EccResult) : State :=
  (s.modGate ch (fun x => { x with fg := passOver s.sys.now r x.fg, rows := openRow ch x.rows r, slots := x.slots + 1 })).eccDdr ch
    r.addr ecc

/-- A foreground slot of a pseudo-channel: a line of an HBM gate's buffer that waited for it is sealed under XTS and written (R136). -/
def State.grantHbm (s : State) (q pc : Nat) (r : SlotReq) (ecc : EccResult) : State :=
  let key := 16 + q * 32 + pc
  let s : State := { s with pool.hbmSched := s.pool.hbmSched.mod {} (q * 32 + pc) (fun x =>
    { x with fg := passOver s.sys.now r x.fg, rows := openRow key x.rows r, slots := x.slots + 1 }) }
  match (s.hgate (8 * q + pc / 4)).buf.find? (fun e => e.1 == r.addr) with
  | some e => ((s.modHgate (8 * q + pc / 4) (fun x => { x with buf := x.buf.filter (fun b => b.1 != r.addr) })).hbmPut q r.addr e.2)
  | none => s.eccHbm q pc r.addr ecc

/-- A phase A read of the first block that waits for one (R140). -/
def Gate.grantStaging (x : Gate) : Gate :=
  match x.reencs.find? (fun r => decide (0 < r.left)) with
  | some b => { x with reencs := x.reencs.map (fun r => if r.block == b.block then { r with left := r.left - 1 } else r), slots := x.slots + 1 }
  | none => x

/-- COMMAND_SLOT_GRANT: the procedure of R153; a suspect channel's scrub gets one slot in 16 (R165). A refresh or a calibration is no
64-byte access and does not count among the 256 slots (log entry 109). A scheduler whose domain is not on has no slots (R22). -/
def execCommandSlotGrant (c : Sched) (refreshDue : Bool) (ecc : EccResult) (s : State) : Result :=
  .next (if !s.awake || refreshDue then s
    else match c with
    | .ddr ch =>
      let x := s.gate ch
      let (n, t) := newPass x.scrub s.channelLines x.passStart s.sys.now
      let late := behind n s.channelLines (s.sys.now - t)
      if x.retired || (s.dom (13 + ch)).state != 0 then s
      else if (late && 255 ≤ x.slots) || (x.suspect && 15 ≤ x.slots) then s.scrubDdr ch ecc
      else match pickSlot ch s.sys.now x.rows x.fg with
        | some r => s.grantDdr ch r ecc
        | none =>
          if x.reencs.any (fun r => decide (0 < r.left)) then s.modGate ch Gate.grantStaging
          else s.scrubDdr ch ecc
    | .hbm q pc =>
      let x := s.pool.hbmSched.get {} (q * 32 + pc)
      let (n, t) := newPass x.scrub pseudoLines x.passStart s.sys.now
      let late := behind n pseudoLines (s.sys.now - t)
      if (s.dom (29 + q)).state != 0 then s
      else if late && 255 ≤ x.slots then s.scrubHbm q pc ecc
      else match pickSlot (16 + q * 32 + pc) s.sys.now x.rows x.fg with
        | some r => s.grantHbm q pc r ecc
        | none => s.scrubHbm q pc ecc)

/-! ### Tamper and the thermal trip (R99, R491, R654) -/

/-- TAMPER_INPUT_ASSERT: a tamper input's sensed condition reaches the gatherer (R491, R492). -/
def execTamperInputAssert (i : Nat) (s : State) : Result :=
  .next (if s.awake && s.evt.evtLive && (s.boot.cfg.evtIn.getD i {}).tamper && s.sys.mode != .blank then
      (s.quarantine 0x0703).report (mkFault 15 .contained 0x0703 gathererUnit i none)
    else s)

/-- THERMTRIP: the pin is driven low and the device enters Quarantine (R532, R534, R654). -/
def execThermtrip (quad : Nat) (s : State) : Result :=
  .next (if !s.sys.aon then s
    else
      let s := if s.sys.thermtrip then s else ({ s with sys.thermtrip := true }).emit (.thermtrip true)
      if !s.awake then s else (s.quarantine 0x0706).report { (mkFault 14 .contained 0x0706 crownUnit 0 none) with quad := quad })

end Sys2Proof.Machine
end

