-- ==== Sys2Proof/Machine/Events.lean ====
section
/-! DEFINITION. The event gatherer: its sources as presented to the Crown, and the event inputs (R481-R492). -/

namespace Sys2Proof.Machine

/-- A source is sensed by level (R481, R511); EVT_IN sources follow their sense code. -/
def State.levelSource (s : State) (i : Nat) : Bool :=
  if i < 8 then decide ((s.boot.cfg.evtIn.getD i {}).sense < 2)
  else decide (i ≤ 15) || (decide (68 ≤ i) && decide (i ≤ 71)) || i == 79

/-- A command of a quadrant's admin or control queues waits for the Crown (R481, sources 68-71). -/
def State.crownWaits (s : State) (quad : Nat) : Bool :=
  s.work.crownWork.any (fun i => match originOf i with
    | some o => o.q.q == 0 && linkQuad o.q.link == quad
    | none => false)

/-- A source is active (R484, R486): its counter is above 0, or its level line is asserted. -/
def State.sourceActive (s : State) (i : Nat) : Bool :=
  if !s.levelSource i then decide (0 < (s.source i).count)
  else if i == 11 then (List.range 4).any (fun q => decide (0 < s.boot.cfg.tWarn) && decide (s.boot.cfg.tWarn ≤ (s.quad q).temp) && decide ((s.quad q).temp < 128))
  else if 12 ≤ i ∧ i ≤ 15 then (s.quad (i - 12)).alarm
  else if 68 ≤ i ∧ i ≤ 71 then s.crownWaits (i - 68)
  else if i == 79 then s.trust.entropyFailed
  else (s.source i).level

/-- SOURCE_PRESENT: outside a handler the lowest enabled active source is presented with its vector address (R482); an edge source hands over its counter
(R485), and the collector's new-fault line of that severity falls as the Crown takes it up (log entry 19). -/
def execSourcePresent (s : State) : Result :=
  .next (if !s.awake || s.evt.inService.isSome then s
    else
      match (List.range 80).find? (fun i => (s.source i).enabled && s.sourceActive i) with
      | none => s
      | some i =>
        let x := s.source i
        let s : State := { s with
          evt.inService := some i
          evt.claimed := if s.levelSource i then none else some (x.count, x.overflow)
          evt.vector := some (Config.vectorBase s.boot.cfg.microDigest + 16 * i) }
        if s.levelSource i then (if 8 ≤ i ∧ i ≤ 10 then s.setLevel i false else s)
        else s.modSource i (fun x => { x with count := 0, overflow := false }))

/-- END_OF_SERVICE: the Crown leaves the handler; the sources are evaluated afresh by the next presentation (R483, R486). -/
def execEndOfService (s : State) : Result :=
  .next (if s.awake then { s with evt.inService := none, evt.claimed := none, evt.vector := none } else s)

/-- A sense condition over a change of level (R488, R511). -/
def senseHit (sense : Nat) (old new : Bool) : Bool :=
  match sense with
  | 0 => new
  | 1 => !new
  | 2 => !old && new
  | 3 => old && !new
  | 4 => old != new
  | _ => false

/-- A sample of an event input reaches its sense logic: the source sees a level or an edge, and a tamper input whose condition is
met starts the zeroization of R99 (R488, R491). -/
def State.senseInput (s : State) (i : Nat) (old new : Bool) : State :=
  let c := s.boot.cfg.evtIn.getD i {}
  let hit := senseHit c.sense old new
  let s := if c.sense < 2 then s.setLevel i hit else if hit then s.edge i else s
  if c.tamper && hit && s.sys.mode != .blank then
    (s.quarantine 0x0703).report (mkFault 15 .contained 0x0703 gathererUnit i none)
  else s

def State.evtPin (s : State) (i : Nat) : EvtPin := s.evt.evtPins.get {} i
def State.modPin (s : State) (i : Nat) (m : EvtPin → EvtPin) : State :=
  { s with evt.evtPins := s.evt.evtPins.mod {} i m }

/-- EVT_IN_CHANGE: the synchronised level of a pin changes (R488, R489, R492). -/
def execEvtInChange (i : Nat) (level : Bool) (s : State) : Result :=
  .next (if !s.awake then s
    else
      let p := s.evtPin i
      let c := s.boot.cfg.evtIn.getD i {}
      let s := s.modPin i (fun p => { p with pin := level, count := if level == p.filtered then 0 else p.count })
      if !s.evt.evtLive then s.modPin i (fun p => { p with filtered := level, count := 0 })
      else if c.filter then s
      else if p.pin == level then s
      else s.senseInput i p.pin level)

/-- FILTER_COUNT_EXPIRY: N cycles at the new level: the filtered level follows (R489). -/
def execFilterCountExpiry (i : Nat) (s : State) : Result :=
  .next (
    let p := s.evtPin i
    let c := s.boot.cfg.evtIn.getD i {}
    if !s.awake || !s.evt.evtLive || !c.filter || p.pin == p.filtered then s
    else (s.modPin i (fun p => { p with filtered := p.pin, count := 0 })).senseInput i p.filtered p.pin)

end Sys2Proof.Machine
end

