-- ==== Sys2Proof/Machine/Startup.lean ====
section
/-! DEFINITION. The Pattern image and its checks, start-up, cold reset and the power inputs (R529-R559, R643, R650, R654). -/

namespace Sys2Proof.Machine

/-! ### Reading bytes -/

/-- A little-endian field of `n` bytes at offset `o` (R541). -/
def le (n : Nat) (bs : List Byte) (o : Nat) : Nat := leNat ((bs.drop o).take n)

/-- `n` bytes from offset `o` on. -/
def part (bs : List Byte) (o n : Nat) : List Byte := (bs.drop o).take n

def zeros (bs : List Byte) : Bool := bs.all (· == 0)

/-- A digest of 48 bytes. -/
def digestOf (bs : List Byte) : Digest := BitVec.ofNat 384 (leNat bs)

/-- Some two ranges [start, end) share an address. -/
def overlap : List (Nat × Nat) → Bool
  | [] => false
  | x :: xs => xs.any (fun y => decide (x.1 < y.2) && decide (y.1 < x.2)) || overlap xs

/-! ### Rule regions (R203, R204) -/

/-- The first check of R204 on a 16-byte region: reserved bits, alignment and order. -/
def regionOk (v : Nat) : Bool :=
  bits v 127 107 == 0 && bits v 69 64 == 0 && bits v 63 54 == 0 && bits v 47 42 == 0 && bits v 5 0 == 0 &&
  decide (bits v 41 0 < bits v 106 64) && decide (bits v 106 64 ≤ 2 ^ 42)

/-- Two regions of a set share a line. -/
def regionsOverlap (rs : List Region) : Bool := overlap (rs.map (fun r => (r.start, r.stop)))

/-! ### The header and the signature blocks (R539-R544) -/

/-- Flash offset of a copy (R539): copy A, or copy B. -/
def copyBase (b : Bool) : Nat := if b then 0x800000 else 0

/-- Bytes of a copy; an erased byte of the flash reads 0xFF. -/
def State.flashBytes (s : State) (b : Bool) (o n : Nat) : List Byte := Memory.readAll 0xFF s.boot.flash (copyBase b + o) n

/-- Check 2 on the header (R542, R547). -/
def headerOk (h : List Byte) : Bool :=
  le 4 h 0 == 0x54505654 && le 2 h 4 == 1 && le 2 h 6 == 0x100 && le 4 h 8 % 64 == 0 && decide (le 4 h 8 ≤ 0x800000) &&
  le 2 h 0x0C == 0x8440 && decide (le 1 h 0x0E ≤ Config.stepping.toNat) && le 1 h 0x0F == 0 &&
  decide (le 4 h 0x14 ≤ le 4 h 0x10) && le 4 h 0x1C == 0 && le 4 h 0x20 % 64 == 0 && le 4 h 0x24 % 64 == 0 &&
  le 4 h 0x28 % 64 == 0 && le 4 h 0x2C % 8 == 0 && decide (256 ≤ le 4 h 0x20) &&
  decide (le 4 h 0x20 + le 4 h 0x24 + 256 ≤ le 4 h 0x28) && decide (le 4 h 0x28 + le 4 h 0x2C + 256 ≤ le 4 h 8) &&
  zeros (part h 0x60 160)

/-- Check 2 on a signature block of a signer kind (R543). -/
def blockOk (b : List Byte) (kind : Nat) : Bool :=
  le 4 b 0 == 0x4B535654 && le 1 b 4 == kind && zeros (part b 5 3) && zeros (part b 200 56)

/-- The signature of a block over its covered bytes (R543). -/
def blockSigned (b covered : List Byte) : Bool := Config.ecdsaVerify (part b 8 96) (Config.sha384 covered) (part b 104 96)

/-- The hash of a block's public key (R544). -/
def blockSigner (b : List Byte) : Digest := Config.sha384 (part b 8 96)

/-! ### Configuration records (R545, R546) -/

/-- The records of a section as (type, critical, value), if the structure of R545 holds. -/
def records : Nat → List Byte → Option (List (Nat × Bool × List Byte))
  | 0, _ => none
  | n + 1, bs =>
    let t := le 2 bs 0
    let flags := le 2 bs 2
    let l := le 4 bs 4
    let pad := (l + 7) / 8 * 8
    if bs.length < 8 + pad || 1 < flags || !zeros (part bs (8 + l) (pad - l)) then none
    else if t == 1 then if l == 0 && bs.length == 8 then some [] else none
    else (records n (bs.drop (8 + pad))).map (fun r => (t, flags == 1, part bs 8 l) :: r)

/-- A type that R546 lists. -/
def knownType (t : Nat) : Bool := decide (0x10 ≤ t) && decide (t ≤ 0x1B)

/-- The structure of R545 over parsed records: no type twice, no critical record of an unknown type. -/
def recordsOk (rs : List (Nat × Bool × List Byte)) : Bool :=
  decide ((rs.map Prod.fst).Nodup) && rs.all (fun r => knownType r.1 || !r.2.1)

/-- The value of a record type, if it is there. -/
def recordOf (rs : List (Nat × Bool × List Byte)) (t : Nat) : Option (List Byte) :=
  (rs.find? (fun r => r.1 == t)).map (fun r => r.2.2)

/-- A link exists under the Cuff modes (R284, R285). -/
def linkIn (modes : List Nat) (l : Nat) : Bool :=
  let m := modes.getD (l / 2) 0
  m == 2 || (m == 1 && l % 2 == 0)

def all16 : List Nat := List.range 16

/-- LINK_LAYOUT: Cuff modes and link records with their templates (R205, R206, R284-R288). -/
def parseLinks (v : List Byte) : Option (List Nat × List LinkCfg) :=
  let modes := (List.range 8).map (fun c => le 1 v c)
  let count (l : Nat) : Nat := le 1 v (8 + 4 * l + 3)
  let off (l : Nat) : Nat := 72 + 16 * ((List.range l).map count).sum
  let raws (l : Nat) : List Nat := (List.range (count l)).map (fun i => le 16 v (off l + 16 * i))
  let ok (l : Nat) : Bool :=
    let rate := le 1 v (8 + 4 * l)
    let width := le 1 v (8 + 4 * l + 1)
    let rs := (raws l).map unpackRegion
    if !linkIn modes l then le 4 v (8 + 4 * l) == 0
    else
      decide (1 ≤ rate) && decide (rate ≤ 6) && [1, 2, 4, 8, 16].contains width &&
      (width != 16 || modes.getD (l / 2) 0 == 1) && decide (le 1 v (8 + 4 * l + 2) ≤ 2) && decide (count l ≤ 64) &&
      (raws l).all regionOk && !regionsOverlap rs && rs.all (fun r => !r.or && !r.ow)
  if decide (72 ≤ v.length) && modes.all (· ≤ 2) && all16.all ok && v.length == off 16 then
    some (modes, all16.map (fun l =>
      ({ rate := le 1 v (8 + 4 * l), width := le 1 v (8 + 4 * l + 1), clocking := le 1 v (8 + 4 * l + 2),
         template := (raws l).map unpackRegion } : LinkCfg)))
  else none

/-- GLOVE_RANGES: base and count of each link (R45). -/
def parseRanges (v : List Byte) (modes : List Nat) : Option (List (Nat × Nat)) :=
  let rs := all16.map (fun l => (le 2 v (4 * l), le 1 v (4 * l + 2)))
  let spans := (rs.filter (fun r => r.2 != 0)).map (fun r => (r.1, r.1 + r.2))
  if v.length == 64 && all16.all (fun l => le 1 v (4 * l + 3) == 0 && (linkIn modes l || le 4 v (4 * l) == 0)) &&
      rs.all (fun r => decide (r.1 < 1024) && decide (r.1 + r.2 ≤ 1024)) && !overlap spans &&
      decide ((rs.map Prod.snd).sum ≤ 1024) then some rs
  else none

/-- BAR_SCHEME: scheme and log2 W_max of each link that exists; the page tables fit (R186, R194, R195; log entry 21). -/
def parseBars (v : List Byte) (modes : List Nat) (ranges : List (Nat × Nat)) : Option (List (Bool × Nat)) :=
  let bars := all16.map (fun l => (le 1 v (2 * l) == 1, le 1 v (2 * l + 1)))
  let ok (l : Nat) : Bool := !linkIn modes l ||
    (decide (le 1 v (2 * l) ≤ 1) && decide (21 ≤ le 1 v (2 * l + 1)) && decide (le 1 v (2 * l + 1) ≤ 42))
  let tables := (all16.map (fun l => (ranges.getD l (0, 0)).2 * (8 * 2 ^ ((bars.getD l (false, 21)).2 - 21)))).sum
  if v.length == 32 && all16.all ok && decide (tables ≤ 1760 * 2 ^ 20) then some bars else none

/-- POOL_POPULATION (R101-R105). -/
def populationOk (v : List Byte) : Bool :=
  let mask := le 2 v 0
  let rate := le 1 v 4
  v.length == 8 && [0x1111, 0x5555, 0xFFFF].contains mask && decide (le 1 v 2 ≤ 2) && decide (le 1 v 3 ≤ 1) &&
  (if le 1 v 3 == 1 then rate == 3 || rate == 4 else decide (rate ≤ 2)) && decide (le 1 v 5 ≤ 1) &&
  (le 1 v 5 == 0 || mask == 0xFFFF) && le 2 v 6 == 0

/-- TIER_POLICY (R151). -/
def tierOk (v : List Byte) : Bool :=
  v.length == 6 && decide (le 2 v 0 ≤ le 2 v 2) && decide (le 2 v 2 ≤ 4096) && decide (le 2 v 4 ≤ 4096)

/-- ABV_RANGES: glove, start and length (R314). -/
def parseAbv (v : List Byte) : Option (List (Nat × Nat × Nat)) :=
  let rs := (List.range (v.length / 24)).map (fun i => (le 2 v (24 * i), le 8 v (24 * i + 8), le 8 v (24 * i + 16)))
  let of (g : Nat) : List (Nat × Nat) := (rs.filter (fun r => r.1 == g)).map (fun r => (r.2.1, r.2.1 + r.2.2))
  if v.length % 24 == 0 && (List.range (v.length / 24)).all (fun i => le 6 v (24 * i + 2) == 0) &&
      rs.all (fun r => decide (r.1 < 1024) && r.2.1 % 4096 == 0 && r.2.2 % 4096 == 0 && decide (0 < r.2.2) &&
        decide (r.2.1 + r.2.2 ≤ 2 ^ 42) && decide ((of r.1).length ≤ 8) && !overlap (of r.1)) then some rs
  else none

/-- The lowest state R568 permits a domain. -/
def lowestLimit (modes : List Nat) (mask : Nat) (used : Nat → Bool) (d : Nat) : Nat :=
  if d == 0 then 0
  else if d ≤ 8 then 2
  else if d ≤ 12 then if (List.range 4).any (fun i => linkIn modes (4 * (d - 9) + i)) then 1 else 2
  else if d ≤ 28 then if bitAt mask (d - 13) then 1 else 2
  else if d ≤ 32 then 1
  else if used (d - 33) then 0 else 2

/-- Slots of a domain record of POWER_POLICY as (kind, index) (R572, R598). -/
def domSlots (v : List Byte) (d : Nat) : List (Nat × Nat) :=
  (List.range 32).map (fun i => let x := le 2 v (16 + 80 * d + 8 + 2 * i); (bits x 15 12, bits x 11 0))

/-- POWER_POLICY: the rules of R573 for one domain. -/
def domOk (v : List Byte) (limit : Nat) (peer : Option Nat) (d : Nat) : Bool :=
  let o := 16 + 80 * d
  let slots := domSlots v d
  let named := slots.filter (fun x => x.1 != 0)
  let idxOk (x : Nat × Nat) : Bool := match x.1 with
    | 0 => x.2 == 0
    | 1 => decide (x.2 < 16)
    | 2 => decide (x.2 < 16)
    | 3 => decide (x.2 < 4)
    | 4 => x.2 == 0
    | 5 => decide (x.2 < 16)
    | _ => false
  decide (le 1 v o ≤ limit) && le 1 v (o + 1) == 0 && le 4 v (o + 4) == 0 && zeros (part v (o + 72) 8) &&
  (if d == 0 then named.isEmpty
   else decide (1 ≤ le 2 v (o + 2)) && slots.head? == some (4, 0) && slots.tail.all (fun x => x.1 != 4) && slots.all idxOk &&
     decide named.Nodup && (match peer with
       | some n => slots.contains (3, n)
       | none => true))

/-- POWER_POLICY as a whole (R573, R593-R598). -/
def powerOk (v : List Byte) (modes : List Nat) (mask : Nat) (peers : List (Option (Nat × Nat))) : Bool :=
  let peer (d : Nat) : Option Nat := if d < 33 then none else (peers.getD (d - 33) none).map Prod.fst
  v.length == 3296 && decide (le 1 v 0 ≤ 2) && decide (le 1 v 1 ≤ le 1 v 0) && decide (le 2 v 2 < 4096) && decide (le 1 v 4 ≤ 15) &&
  decide (85 ≤ le 1 v 5) && decide (le 1 v 5 ≤ 105) && decide (1 ≤ le 1 v 6) && decide (le 1 v 6 ≤ 100) &&
  decide (le 1 v 7 < le 1 v 6) && zeros (part v 8 8) &&
  (List.range 41).all (fun d =>
    domOk v (lowestLimit modes mask (fun l => (peers.getD l none).isSome) d) (peer d) d)

/-- FAULT_THRESHOLDS (R276, R537). -/
def thresholdsOk (v : List Byte) : Bool :=
  let t := le 8 v 0
  v.length == 16 && decide (1 ≤ bits t 63 52) && decide (bits t 63 52 ≤ 3600) && decide (1 ≤ bits t 51 46) &&
  decide (bits t 51 46 ≤ 60) && bits t 45 44 == 0 && decide (1 ≤ bits t 43 40) && decide (1 ≤ bits t 39 32) &&
  decide (1 ≤ bits t 31 24) && bits t 23 0 == 0 && decide (1 ≤ le 2 v 8) && decide (le 2 v 8 ≤ 1000) && zeros (part v 10 6)

/-- EVENT_INPUTS (R490, R511). -/
def parseInputs (v : List Byte) : Option (List EvtCfg) :=
  let xs := (List.range 8).map (fun i => le 4 v (4 * i))
  if v.length == 32 && xs.all (fun x => bits x 28 27 == 0 && decide (bits x 26 24 ≤ 4) && bits x 23 16 == 0 && bits x 7 0 == 0 &&
      !(bitAt x 29 && bits x 15 8 == 0)) then
    some (xs.map (fun x => { enable := bitAt x 31, tamper := bitAt x 30, filter := bitAt x 29, sense := bits x 26 24,
                             cycles := bits x 15 8 }))
  else none

/-- BASKET_TOPOLOGY: the peer position and peer link of each used link (R438, R439). -/
def parseTopology (v : List Byte) : Option (List (Option (Nat × Nat))) :=
  let peers := (List.range 8).map (fun l =>
    if le 1 v (8 + 4 * l) == 1 then some (le 1 v (8 + 4 * l + 1), le 1 v (8 + 4 * l + 2)) else none)
  let used := peers.filterMap id
  let names := (used.map Prod.fst).eraseDups
  let t := le 8 v 40
  let timers := decide (10 ≤ bits t 63 48) && decide (bits t 63 48 ≤ 1000) && decide (10 ≤ bits t 47 40) &&
    decide (bits t 47 40 ≤ 150) && decide (1 ≤ bits t 39 32) && decide (bits t 39 32 ≤ 100) && decide (500 ≤ bits t 31 20) &&
    decide (bits t 31 20 ≤ 4000) && decide (1 ≤ bits t 19 12) && decide (1 ≤ bits t 11 8) && bits t 7 0 == 0
  if v.length == 48 && decide (le 1 v 0 ≤ 3) && zeros (part v 1 7) &&
      (List.range 8).all (fun l => decide (le 1 v (8 + 4 * l) ≤ 1) && le 1 v (8 + 4 * l + 3) == 0 &&
        (le 1 v (8 + 4 * l) == 1 || le 4 v (8 + 4 * l) == 0)) &&
      used.all (fun p => decide (p.1 ≤ 3) && decide (p.2 ≤ 7) && p.1 != le 1 v 0) && decide used.Nodup &&
      (decide (names.length ≤ 1) || names.all (fun n => decide (2 ≤ used.countP (fun p => p.1 == n)))) && timers then some peers
  else none

/-- USAGE_POLICY (R623). -/
def usageOk (v : List Byte) : Bool :=
  v.length == 8 && decide (1 ≤ le 1 v 0) && decide (le 1 v 0 ≤ 64) && le 1 v 1 == 0 && decide (le 2 v 2 ≤ 1440) && le 4 v 4 == 0

/-- Check 6: the configuration of a copy (R545, R546), with the versions of its header and its digests. -/
def parsePattern (h cfg : List Byte) (micro : Digest) : Option Pattern :=
  match records (cfg.length / 8 + 1) cfg with
  | none => none
  | some rs =>
    let need (t : Nat) : List Byte := (recordOf rs t).getD []
    match parseLinks (need 0x11) with
    | none => none
    | some (modes, links) =>
      let inputs := match recordOf rs 0x19 with
        | none => some []
        | some v => parseInputs v
      let abv := match recordOf rs 0x16 with
        | none => some []
        | some v => parseAbv v
      let peers := match recordOf rs 0x1A with
        | none => some []
        | some v => parseTopology v
      match parseRanges (need 0x12) modes, inputs, abv, peers with
      | some ranges, some inputs, some abv, some peers =>
        match parseBars (need 0x13) modes ranges with
        | none => none
        | some bars =>
          let pool := need 0x14
          let tier := need 0x15
          let pw := need 0x17
          let usage := need 0x1B
          if !recordsOk rs || (need 0x10).length != 4 || !populationOk pool || !tierOk tier ||
              !powerOk pw modes (le 2 pool 0) peers || !usageOk usage || !((recordOf rs 0x18).map thresholdsOk).getD true then none
          else
            let p : Pattern := {
              version := le 4 h 0x10, floor := le 4 h 0x14, ucode := le 4 h 0x18
              subVendor := le 2 (need 0x10) 0, subId := le 2 (need 0x10) 2
              cuffModes := modes, links := links, ranges := ranges, bars := bars
              channels := BitVec.ofNat 16 (le 2 pool 0), dimmSize := le 1 pool 2, mrdimm := le 1 pool 3 == 1, rate := le 1 pool 4
              mirror := le 1 pool 5 == 1
              tierDefault := le 2 tier 0, tierMax := le 2 tier 2, tierGuest := le 2 tier 4, abv := abv
              paceMax := le 1 pw 0, paceMin := le 1 pw 1, lowThresh := le 2 pw 2, rail := le 1 pw 4, tWarn := le 1 pw 5
              upUtil := le 1 pw 6, downUtil := le 1 pw 7
              doms := (List.range 41).map (fun d =>
                ({ lowest := le 1 pw (16 + 80 * d), linger := le 2 pw (16 + 80 * d + 2), slots := domSlots pw d } : DomCfg))
              evtIn := inputs, batchRecords := le 1 usage 0, anchorStale := le 2 usage 2
              microDigest := micro, configDigest := Config.sha384 cfg }
            let p : Pattern := match recordOf rs 0x18 with
              | none => p
              | some v =>
                let t := le 8 v 0
                { p with leak := bits t 63 52, quiet := bits t 51 46, retireThresh := bits t 43 40, wireThresh := bits t 39 32,
                         hostLaneThresh := bits t 31 24, weaveLimit := le 2 v 8 }
            match recordOf rs 0x1A with
            | none => some p
            | some v =>
              let t := le 8 v 40
              some { p with pos := le 1 v 0, peers := peers, topology := v, creditTime := bits t 63 48, rerouteLimit := bits t 47 40,
                            lockLossTime := bits t 39 32, replayTime := bits t 31 20, laneThresh := bits t 19 12,
                            downThresh := bits t 11 8 }
      | _, _, _, _ => none

/-- Check 7: the DIMMs against the population (R104); a DIMM faster than the rate matches (DESIGN CHOICE, log entry 124). -/
def populationMatches (p : Pattern) (b : Board) : Bool :=
  all16.all (fun ch =>
    match b.dimms.find? (fun d => d.ch == ch) with
    | some d => p.channels.getLsbD ch && d.size == p.dimmSize && d.mrdimm == p.mrdimm && decide (p.rate ≤ d.rate)
    | none => !p.channels.getLsbD ch)

/-! ### Checking and selecting a copy (R547-R549) -/

/-- Checks 1 to 7 on a copy: the code of the first that fails, 0 when all pass, with the configuration (R547). -/
def State.checkCopy (s : State) (bd : Board) (b : Bool) : Nat × Option Pattern :=
  let h := s.flashBytes b 0 256
  if !(if b then bd.flashB else bd.flashA) then (0x070F, none)
  else if !headerOk h then (0x0707, none)
  else
    let micro := s.flashBytes b (le 4 h 0x20) (le 4 h 0x24)
    let mblk := s.flashBytes b (le 4 h 0x20 + le 4 h 0x24) 256
    let cfg := s.flashBytes b (le 4 h 0x28) (le 4 h 0x2C)
    let cblk := s.flashBytes b (le 4 h 0x28 + le 4 h 0x2C) 256
    let md := Config.sha384 micro
    if !blockOk mblk 1 || !blockOk cblk 2 then (0x0707, none)
    else if s.boot.signer.isNone then (0x070B, none)
    else if md != digestOf (part h 0x30 48) || !Config.lamoconSigner (blockSigner mblk) || some (blockSigner cblk) != s.boot.signer ||
        !blockSigned mblk micro || !blockSigned cblk (h ++ cfg) then (0x0708, none)
    else if le 4 h 0x10 < s.boot.mram.patternFloor || le 4 h 0x18 / 65536 < s.boot.mram.ucodeFloor then (0x0709, none)
    else
      match parsePattern h cfg md with
      | none => (0x070A, none)
      | some p => if populationMatches p bd then (0, some p) else (0x0204, none)

/-- Check 1 and check 2 on the header of a copy (R548): its code. -/
def State.checkHeader (s : State) (bd : Board) (b : Bool) : Nat :=
  if !(if b then bd.flashB else bd.flashA) then 0x070F else if headerOk (s.flashBytes b 0 256) then 0 else 0x0707

/-- The copy that is checked first (R548): copy B where only its header passes, or where both pass and its Pattern version is higher. -/
def State.firstCopy (s : State) (bd : Board) : Bool :=
  let version (b : Bool) : Nat := le 4 (s.flashBytes b 0 256) 0x10
  if s.checkHeader bd true != 0 then false else s.checkHeader bd false != 0 || decide (version false < version true)

/-- The results of both copies and the copy selected with its configuration (R548). -/
def State.selectCopy (s : State) (bd : Board) : Nat × Nat × Option (Bool × Pattern) :=
  let ha := s.checkHeader bd false
  let hb := s.checkHeader bd true
  if ha != 0 && hb != 0 then (ha, hb, none)
  else
    let first := s.firstCopy bd
    let (c1, p1) := s.checkCopy bd first
    let results (x y : Nat) : Nat × Nat := if first then (y, x) else (x, y)
    match p1 with
    | some p =>
      let other := if first then (if ha == 0 then 0xFFFF else ha) else (if hb == 0 then 0xFFFF else hb)
      let (a, b) := results c1 other
      (a, b, some (first, p))
    | none =>
      let (c2, p2) := s.checkCopy bd (!first)
      let (a, b) := results c1 c2
      (a, b, p2.map (fun p => (!first, p)))

/-! ### What a cold reset clears (R557, R558) -/

/-- The device as a cold reset leaves it before start-up: what R558 keeps, the board's inputs and the model's own fields stay, and
everything else returns to its reset value. The DRAM's bytes stay, unreadable (R3; log entry 22). -/
def State.cleared (s : State) : State :=
  { pending := s.pending, out := s.out
    sys := { aon := s.sys.aon, devRst := s.sys.devRst, alert := s.sys.alert, thermtrip := s.sys.thermtrip, smbAddr := s.sys.smbAddr }
    boot := { mram := s.boot.mram, signer := s.boot.signer, flash := s.boot.flash }
    trust := { fresh := s.trust.fresh }
    host := { links := s.host.links.map (fun e => (e.1, ({ perst := e.2.perst } : Link))) }
    pool := { ddr := s.pool.ddr, ddrBad := s.pool.ddrBad }
    evt := { evtPins := s.evt.evtPins.map (fun e => (e.1, ({ pin := e.2.pin, filtered := e.2.pin } : EvtPin))) } }

/-- DEV_RST# asserted with power good (R557, R559): keys zeroized without a notice, transmitters idle, ALERT# low. -/
def State.holdReset (s : State) : State :=
  if s.sys.devRst then s
  else
    let s := (s.cleared).emit .electricalIdle
    let s : State := { s with sys.devRst := true }
    s.alarm

/-- DEV_RST_ASSERT (R557). -/
def execDevRstAssert (s : State) : Result := .next (if s.sys.aon then s.holdReset else s)

/-- POWER_GOOD_DEASSERT: as a DEV_RST# assertion; one that arrives with another zeroizes once (R643). -/
def execPowerGoodDeassert (s : State) : Result := .next (if s.sys.aon then s.holdReset else s)

/-- PG_AON_ASSERT: the device is powered and still held in reset; SMB_ADDR is sampled and ALERT# asserted (R559, R650). -/
def execPgAonAssert (smbAddr : Nat) (s : State) : Result :=
  .next (if s.sys.aon then s
    else
      let s : State := { s with sys.aon := true, sys.devRst := true, sys.smbAddr := smbAddr }
      s.alarm)

/-- VDD_AON_REMOVED: everything volatile is lost, THERMTRIP# and ALERT# are released (R559, R654). -/
def execVddAonRemoved (s : State) : Result :=
  .next (if !s.sys.aon then s
    else
      let trip := s.sys.thermtrip
      let s := s.cleared
      let s : State := { s with
        sys := { aon := false, devRst := true, alert := false }
        pool := {} }
      if trip then s.emit (.thermtrip false) else s)

/-! ### Start-up (R551-R556) -/

/-- A record of the start-up log (R565). -/
def State.startRecord (s : State) (code step detail : Nat) : State :=
  let r : StartRec := { code := code, step := step, copy := s.boot.copy, time := s.sys.now, detail := detail }
  { s with boot.startLog := (s.boot.startLog ++ [r]).take 256 }

/-- A step is completed. -/
def State.stepDone (s : State) (n : Nat) : State :=
  let s := s.startRecord 0 n 0
  { s with boot.step := n }

/-- The link layout of R553: the MRAM record, or every Cuff x16 at 64 GT/s with SRIS. -/
def State.earlyLayout (s : State) : List Nat × List LinkCfg :=
  match s.boot.mram.layout with
  | some (modes, ls) => (modes, ls.map (fun x => ({ rate := x.1, width := x.2.1, clocking := x.2.2 } : LinkCfg)))
  | none => (List.replicate 8 1, (List.range 16).map (fun l => if l % 2 == 0 then { rate := 6, width := 16, clocking := 2 } else {}))

/-- A domain is off. -/
def State.domOff (s : State) (d : Nat) : State := s.modDom d (fun x => { x with state := 2 })

/-- Hold one recorded element out of use (R530); `fixed` names the rows that hPPR has repaired (R176; log entry 23). -/
def State.holdOut (s : State) (fixed : Bool) (r : RetRec) : State :=
  match r.kind with
  | 1 => { s with flt.lanesRetired := s.flt.lanesRetired.mod 0 (unitCuff r.unit) (fun v => v ||| BitVec.ofNat 16 (2 ^ r.element)) }
  | 2 => s.modLink r.element (fun x => { x with dead := true })
  | 3 => s.modBlink (unitCuff r.unit) (fun x => { x with retired := x.retired ||| BitVec.ofNat 8 (2 ^ r.element) })
  | 4 => s.modBlink r.element (fun x => { x with state := .retired })
  | 5 => s.modGate r.element (fun x => { x with retired := true })
  | 6 => s.modGate r.element (fun x => { x with retired := true })
  | 7 => { s with flt.pseudoLost := s.flt.pseudoLost ++ [(unitQuad r.unit * 32 + r.element, false)] }
  | 8 => s.modUnit r.unit (fun x => { x with state := 3 })
  | 9 =>
    if fixed then s.removal 12 r.unit r.element r.detail
    else s.modGate (unitGate r.unit) (fun x =>
      { x with spares := x.spares.set r.element (((List.range 1024).find? (fun i => !x.spares.any (fun e => e.2 == i))).getD 0) })
  | 10 =>
    let knot := r.element / 32
    let port := r.element / 8 % 4
    { s with net.knotOut := s.net.knotOut.mod {} (knot * 5 + port) (fun x =>
        { x with spares := x.spares ||| BitVec.ofNat 8 (2 ^ (r.element % 8)) }) }
  | 11 => { s with flt.pseudoLost := s.flt.pseudoLost ++ [(unitQuad r.unit * 32 + r.element, true)] }
  | _ => s

/-- Place a Finger on the engine of its quadrant with the fewest contexts in use, the lowest on a tie (R394). -/
def State.placeFinger (s : State) (f : FgId) : State :=
  let es := ((List.range 16).map (unitId (linkQuad f.link) 3)).filter (fun u => !s.fenced u)
  let used (u : Nat) : Nat := s.work.fingers.countP (fun e => e.2.engine == some u)
  let best := es.foldl (fun (a : Option Nat) u => match a with
    | none => some u
    | some b => if used u < used b then some u else some b) none
  s.modFinger f (fun x => { x with engine := best })

/-- Step 1: MRAM read, the cold-reset count raised and clear-pending records dropped (R531, R551, R617). -/
def State.startStep1 (s : State) (b : Board) : State :=
  let (modes, links) := s.earlyLayout
  let s : State := { s with
    boot.mram := { s.boot.mram with
      coldResets := (s.boot.mram.coldResets + 1) % 2 ^ 32
      log := s.boot.mram.log.filter (fun e => e.2.state != 1) }
    boot.cfg := { cuffModes := modes, links := links }
    usg.seq := s.boot.mram.nextSeq
    net.quads := (List.range 4).foldl (fun q i => q.mod {} i (fun x => { x with temp := b.temps.getD i 0 })) s.net.quads
    host.links := (List.range 16).foldl (fun t l => t.mod {} l (fun x => { x with perst := b.perst.contains l })) s.host.links
    pwr.pace := { vdd := 750, targetMv := 750 } }
  s.stepDone 1

/-- Blank, at the end of step 2 (R549, R561): the DDR, HBM, QE and BRD domains stay off (R571). -/
def State.enterBlank (s : State) (cause : Nat) : State :=
  let s := (List.range 41).foldl (fun s d => if 9 ≤ d then s.domOff d else s) s
  s.setMode .blank cause

/-- Step 3: the identity and usage keys are derived, the DRBG is instantiated and the HBM keys are drawn; the islands step high
(R81, R82, R117, R551, R595, R616). -/
def State.startStep3 (s : State) (p : Pattern) : State :=
  let (x, s) := s.draw
  let (k, s) := s.draw
  let (h, s) := s.draw
  let s : State := { s with
    trust.drbgReady := true
    trust.drbgCount := 0
    trust.xtsKey := x.setWidth 512
    trust.kTree := k.setWidth 256
    trust.hTree := h.setWidth 128
    trust.identityKey := some (Config.identityPrivate Config.seed)
    trust.aliasKey := some (Config.aliasPrivate Config.seed Config.romDigest p.microDigest p.configDigest)
    trust.usageKey := some (Config.usagePrivate Config.seed Config.romDigest p.microDigest)
    pwr.pace.high := BitVec.allOnes 18 }
  s.stepDone 3

/-- Step 4: the configuration takes effect, under the early link layout until step 7; recorded elements are held out and the event
inputs are in force (R492, R530, R551). -/
def State.startStep4 (s : State) (b : Board) (p : Pattern) : State :=
  let s : State := { s with
    boot.cfg := { p with cuffModes := s.boot.cfg.cuffModes, links := s.boot.cfg.links }
    evt.evtLive := true
    evt.evtPins := (List.range 8).map (fun i =>
      (i, ({ pin := b.evtPins.getLsbD i, filtered := b.evtPins.getLsbD i } : EvtPin))) }
  let s := s.boot.mram.log.foldl (fun s e => s.holdOut (b.hpprOk.contains e.1) e.2) s
  let s := (List.range 8).foldl (fun s i => s.modSource i (fun x => { x with enabled := (p.evtIn.getD i {}).enable })) s
  let s := (List.range 8).foldl (fun s i => if i < p.evtIn.length then s.senseInput i (b.evtPins.getLsbD i) (b.evtPins.getLsbD i) else s) s
  if s.sys.mode == .quarantine then s else s.stepDone 4

/-- An HBM stack or a pseudo-channel fails training: TRAINING_FAILED is logged; a pseudo-channel takes a spare of its stack while there
is one, and anything else leads to Quarantine (R177, R555). -/
def State.hbmUntrained (s : State) (q pc : Nat) : State :=
  let s := s.startRecord 0x070E 5 (q * 32 + pc)
  if pc < 32 && decide ((s.flt.pseudoLost.filter (fun e => e.1 / 32 == q && e.2)).length < Config.hbmSpares q) then
    s.losePseudo q pc true
  else (s.report (mkFault 5 .stackController 0x070E (stackUnit q) pc none)).quarantine 0x0705

/-- Step 5: training (R166, R555). -/
def State.startStep5 (s : State) (b : Board) : State :=
  let s := (b.ddrFail.filter (fun ch => s.boot.cfg.channels.getLsbD ch)).foldl (fun s ch =>
    (s.startRecord 0x070E 5 ch).retireChannel ch) s
  let s := b.hbmFail.foldl (fun s x => s.hbmUntrained x.1 x.2) s
  if s.sys.mode == .quarantine then s else s.stepDone 5

/-- The domains that stay off from step 7 on (R104, R285, R438, R568): those without a part in the configuration, and those of retired
Border links. -/
def State.unusedDoms (s : State) : List Nat :=
  (List.range 41).filter (fun d =>
    s.staysOff d || (decide (33 ≤ d) && (s.blink (d - 33)).state == .retired))

/-- The floors in MRAM rise to those of the Pattern in force (R550, R551). -/
def State.raiseFloors (s : State) (p : Pattern) : State :=
  { s with
    boot.mram := { s.boot.mram with
      patternFloor := max s.boot.mram.patternFloor p.floor
      ucodeFloor := max s.boot.mram.ucodeFloor (p.ucode / 65536) } }

/-- Step 7: the Pattern's layout, functions ready, Border links train, and the mode (R57, R188, R394, R457, R532, R550, R553). -/
def State.startStep7 (s : State) (p : Pattern) : State :=
  let settings := p.links.map (fun x => (x.rate, x.width, x.clocking))
  let s : State := { s with
    boot.cfg.cuffModes := p.cuffModes
    boot.cfg.links := p.links
    boot.mram.layout := some (p.cuffModes, settings) }
  let ls := (List.range 16).filter s.linkExists
  let s := ls.foldl (fun s l =>
    (List.range 16).foldl (fun s i => s.placeFinger ⟨l, 0, i⟩) (s.resetSriov l)) s
  let s := s.unusedDoms.foldl State.domOff s
  let s := (List.range 72).foldl (fun s i => s.modSource (i + 8) (fun x => { x with enabled := true })) s
  let s := (List.range 8).foldl (fun s l =>
    if (p.peers.getD l none).isSome && (s.blink l).state == .absent then
      (s.modBlink l (fun x => { x with active := ~~~ x.retired })).setBState l .training
    else s) s
  let s := (s.raiseFloors p).stepDone 7
  s.setMode (if s.anyRetired then .degraded else .service) 0

/-- A copy that fails at step 2 leaves its start-up record (R549). -/
def State.copyFailed (s : State) (code copy : Nat) : State :=
  if code == 0 || code == 0xFFFF then s
  else
    let s := ({ s with boot.copy := copy }).startRecord code 2 (copyBase (copy == 2))
    { s with boot.copy := 0 }

/-- Steps 3 to 7 with the copy of step 2 (R551). -/
def State.startCopy (s : State) (b : Board) (p : Pattern) : State :=
  let s := (s.stepDone 2).startStep3 p
  let s := s.startStep4 b p
  if s.sys.mode == .quarantine then s
  else
    let s := s.startStep5 b
    if s.sys.mode == .quarantine then s else (s.stepDone 6).startStep7 p

/-- Start-up from step 1 to its end (R551): Service, Degraded, Blank or Quarantine. -/
def State.startUp (s : State) (b : Board) : State :=
  let s := s.startStep1 b
  if s.sys.thermtrip then s.quarantine 0x0706
  else
    let (a, c, sel) := s.selectCopy b
    let s : State := { s with boot.resultA := a, boot.resultB := c }
    let s := if s.firstCopy b then (s.copyFailed c 2).copyFailed a 1 else (s.copyFailed a 1).copyFailed c 2
    match sel with
    | none => (s.stepDone 2).enterBlank a
    | some (copy, p) => ({ s with boot.copy := if copy then 2 else 1 } : State).startCopy b p

/-- COLD_RESET: DEV_RST# is released with power good, and the whole of start-up follows (R551; log entry 20). -/
def execColdReset (b : Board) (s : State) : Result :=
  .next (if s.sys.aon && s.sys.devRst then
      let s := s.cleared
      let s : State := { s with sys.devRst := false, boot.board := b }
      s.startUp b
    else s)

end Sys2Proof.Machine
end

