-- ==== Sys2Proof/Machine/Recovery.lean ====
section
/-! DEFINITION. The recovery window of Blank (R561-R563). -/

namespace Sys2Proof.Machine

/-- BAR0 offset of IMG_RCV_CMD (R564, R629). -/
def offRcvCmd : Nat := 0xC100

/-- An operation is written to IMG_RCV_CMD: the window exists only in Blank, on PF0; it accepts one operation at a time and refuses it
with the first applicable code (R562). `bad` gives the operation's own code, 0 for none; `run` does the work. -/
def State.recoveryOp (s : State) (f : FnId) (op len : Nat) (copyB : Bool) (bad : Nat) (run : State → State) : State :=
  if s.sys.mode != .blank || f.fn != 0 || !s.memOn f then s
  else if s.boot.rcvBusy then s.reject f 0x070D 1 offRcvCmd
  else if bad != 0 then s.reject f bad 1 offRcvCmd
  else
    let s : State := { s with boot.rcvBusy := true, boot.rcvOp := some (op, len, copyB), boot.rcvResult := 0 }
    run s

/-- Bytes of the flash that the copies take (R539, R562). -/
def flashSize : Nat := 0x1000000

/-- The code of R562 for a range and its alignment: outside the copies first, then misaligned. -/
def rangeCode (off len align : Nat) (short : Bool) : Nat :=
  if short || flashSize < off + len then 0x0003 else if off % align != 0 || len % align != 0 then 0x0002 else 0

/-- RECOVERY_READ: flash bytes into the buffer. -/
def execRecoveryRead (f : FnId) (len : Nat) (s : State) : Result :=
  .next (
    let a := s.boot.rcvAddr
    s.recoveryOp f 1 len false (rangeCode a len 1 (len == 0 || decide (4096 < len))) (fun s =>
      { s with boot.rcvBuf := Memory.writeAll 0 s.boot.rcvBuf 0 (Memory.readAll 0xFF s.boot.flash a len) }))

/-- RECOVERY_ERASE: a 64 KiB sector reads as erased. -/
def execRecoveryErase (f : FnId) (s : State) : Result :=
  .next (
    let a := s.boot.rcvAddr
    s.recoveryOp f 2 0 false (rangeCode a 0x10000 0x10000 false) (fun s =>
      { s with boot.flash := s.boot.flash.filter (fun c => decide (c.1 < a) || decide (a + 0x10000 ≤ c.1)) }))

/-- RECOVERY_PROGRAM: buffer bytes into the flash. -/
def execRecoveryProgram (f : FnId) (len : Nat) (s : State) : Result :=
  .next (
    let a := s.boot.rcvAddr
    s.recoveryOp f 3 len false (rangeCode a len 256 (len == 0 || decide (4096 < len))) (fun s =>
      { s with boot.flash := Memory.writeAll 0xFF s.boot.flash a (Memory.readAll 0 s.boot.rcvBuf 0 len) }))

/-- RECOVERY_VERIFY: checks 1 to 7 on a copy; the code is reported when it is done. -/
def execRecoveryVerify (f : FnId) (copyB : Bool) (b : Board) (s : State) : Result :=
  .next (s.recoveryOp f 4 0 copyB 0 (fun s => { s with boot.rcvResult := (s.checkCopy b copyB).1 }))

/-- FUSE_SIGNER: buffer bytes 0-47 become the operator configuration signer hash. -/
def execFuseSigner (f : FnId) (s : State) : Result :=
  .next (s.recoveryOp f 5 0 false (if s.boot.signer.isSome then 0x070C else 0) (fun s =>
    { s with boot.signer := some (digestOf (Memory.readAll 0 s.boot.rcvBuf 0 48)) }))

/-- RECOVERY_OP_DONE: BUSY clears, DONE sets, CODE shows the result and source 78 is raised (R563). -/
def execRecoveryOpDone (ok : Bool) (s : State) : Result :=
  .next (if !s.awake || !s.boot.rcvBusy then s
    else
      let s : State := { s with
        boot.rcvBusy := false
        boot.rcvDone := true
        boot.rcvCode := if ok then s.boot.rcvResult else 0x070F
        boot.rcvOp := none }
      s.edge 78)

end Sys2Proof.Machine
end

