-- ==== Sys2Proof/Machine/Power.lean ====
section
/-! DEFINITION. Power domains, pace and AVSBus (R275, R276, R282, R567-R597). -/

namespace Sys2Proof.Machine

/-! ### Pace points (R585-R593) -/

/-- VDD_CORE of a pace point in mV (R596). -/
def paceMv (p : Nat) : Nat := if p == 0 then 650 else if p == 1 then 750 else 850

/-- The domains of a clocked island (R585); the housekeeping island has none of its own. -/
def islandDoms (i : Nat) : List Nat :=
  if i < 8 then [i + 1]
  else if i < 12 then [29 + (i - 8)]
  else if i < 16 then (List.range 4).map (fun k => 13 + 4 * (i - 12) + k)
  else if i == 16 then (List.range 8).map (· + 33)
  else [0]

/-- The island of a domain, if it has one (R585). -/
def domIsland (d : Nat) : Option Nat := (List.range 17).find? (fun i => (islandDoms i).contains d)

/-- The clock of an island runs: at least one of its domains is on (R22). -/
def State.islandClock (s : State) (i : Nat) : Bool := (islandDoms i).any (fun d => (s.dom d).state == 0)

/-- Every island whose clock runs steps high (R589). -/
def State.stepHigh (s : State) : State :=
  let on (v : BitVec 18) (i : Nat) : BitVec 18 := if s.islandClock i then v ||| BitVec.ofNat 18 (2 ^ i) else v
  s.modPace (fun p => { p with high := (List.range 18).foldl on 0 })

/-- Command a Target Rail Voltage write (R596). -/
def State.avsWrite (s : State) (mv : Nat) : State :=
  (s.modPace (fun p => { p with targetMv := mv, attempts := 0 })).emit (.avsWrite s.boot.cfg.rail mv)

/-- Start a move to a point (R588, R592): a lower voltage waits until every island reports its low step; a higher one is commanded at
once (log entry 24). -/
def State.startMove (s : State) (t : Nat) : State :=
  let low := decide (t < s.pwr.pace.point)
  let s := s.modPace (fun p => { p with moving := true, target := t, next := none, readOk := false, written := false })
  if low then s else s.avsWrite (paceMv t)

/-- A target point is chosen: it starts a move, or waits for the move in progress to end (R592). With AVS_FAILED set no move
starts (R597). -/
def State.choosePoint (s : State) (t : Nat) : State :=
  let p := s.pwr.pace
  if p.avsFailed then s
  else if p.moving then
    if t == p.target then s.modPace (fun p => { p with next := none }) else s.modPace (fun p => { p with next := some t })
  else if t == p.point then s
  else s.startMove t

/-- ISLANDS_LOW_REPORTED: the sequencer commands the lower VDD_CORE (R588). -/
def execIslandsLowReported (s : State) : Result :=
  .next (
    let p := s.pwr.pace
    if !s.awake || !p.moving || p.point ≤ p.target || p.written then s
    else (s.modPace (fun p => { p with high := 0 })).avsWrite (paceMv p.target))

/-- An AVSBus transaction fails for good after three repeats (R597). -/
def State.avsFail (s : State) : State :=
  let s := (s.modPace (fun p => { p with avsFailed := true, high := 0, moving := false, attempts := 0 })).edge 18
  s.report { (mkFault 13 .contained 0x0710 crownUnit 0 none) with quad := 0 }

/-- AVS_TRANSACTION_DONE: the write is followed by Read Voltage until it lies within 10 mV of the target; a failed transaction is
repeated up to three times (R590, R596, R597). -/
def execAvsTransactionDone (r : AvsResult) (s : State) : Result :=
  .next (
    let p := s.pwr.pace
    if !s.awake || !p.moving || p.avsFailed then s
    else match r with
      | .writeOk =>
        if p.written then s
        else (s.modPace (fun p => { p with written := true, attempts := 0 })).emit (.avsRead s.boot.cfg.rail)
      | .readOk mv =>
        if !p.written || p.readOk then s
        else
          let s := s.modPace (fun p => { p with vdd := mv, attempts := 0 })
          if mv ≤ p.targetMv + 10 ∧ p.targetMv ≤ mv + 10 then s.modPace (fun p => { p with readOk := true })
          else s.emit (.avsRead s.boot.cfg.rail)
      | .failed =>
        if 3 ≤ p.attempts then s.avsFail
        else
          let s := s.modPace (fun p => { p with attempts := p.attempts + 1 })
          if p.written then s.emit (.avsRead s.boot.cfg.rail) else s.emit (.avsWrite s.boot.cfg.rail p.targetMv))

/-- VOLTAGE_GOOD: the move ends; islands may step high at nominal and ceiling, and a target chosen meanwhile takes effect (R589, R590,
R592). -/
def execVoltageGood (s : State) : Result :=
  .next (
    let p := s.pwr.pace
    if !s.awake || !p.moving || !p.readOk then s
    else
      let s := s.modPace (fun p =>
        { p with point := p.target, moving := false, readOk := false, written := false, moves := satAdd 65535 p.moves 1, next := none })
      let s := if p.target == 0 then s else s.stepHigh
      match p.next with
      | some t => s.choosePoint t
      | none => s)

/-- The pace point whose voltage is nearest (R597). -/
def nearestPoint (mv : Nat) : Nat := if mv < 700 then 0 else if mv < 800 then 1 else 2

/-- AVS_RETRY_TICK: Read Voltage is tried again; a success clears AVS_FAILED and restarts the sequencer from the nearest
point (R597). -/
def execAvsRetryTick (r : AvsResult) (s : State) : Result :=
  .next (if !s.awake || !s.pwr.pace.avsFailed then s
    else
      let s := s.emit (.avsRead s.boot.cfg.rail)
      match r with
      | .readOk mv =>
        let t := nearestPoint mv
        let s := s.modPace (fun p =>
          { p with avsFailed := false, vdd := mv, point := t, target := t, next := none, readOk := false, written := false })
        if t == 0 then s else s.stepHigh
      | _ => s)

/-! ### Pace monitors and sample windows (R275, R276, R282, R593, R595) -/

/-- PACE_MONITOR_SAMPLE: the quadrant reports the slowest of its monitors; below LOW_THRESH the alarm rises (R275, R276, R595). -/
def execPaceMonitorSample (quad : Nat) (readings : List Nat) (s : State) : Result :=
  .next (
    match readings with
    | [] => s
    | r :: rs =>
      if !s.awake then s
      else
        let cur := rs.foldl min r
        let q := s.quad quad
        let low := decide (cur < s.boot.cfg.lowThresh)
        let s := s.modQuad quad (fun x =>
          { x with cur := cur, min := if x.seen then min x.min cur else cur, seen := true, sum := x.sum + cur, samples := x.samples + 1,
                   alarm := x.alarm || low, rose := x.rose || (low && !x.alarm) })
        if low && !q.alarm then s.report { (mkFault 13 .correctedMemory 0x0712 crownUnit quad none) with quad := quad } else s)

/-- WVE_PACE_ALARM_CLEAR: MIN becomes CURRENT (R276). -/
def execWvePaceAlarmClear (quad : Nat) (s : State) : Result :=
  .next (if s.serves then s.modQuad quad (fun x => { x with alarm := false, min := x.cur }) else s)

/-- A strand direction's handshakes of the window against a limit in percent of AVG x WINDOW (R282). -/
def State.strandOver (s : State) (k : Nat) (hs limit : Nat) : Bool :=
  decide (limit * ((s.quad (knotQuad (k / 5))).avg * s.net.window) < 100 * hs)
def State.strandUnder (s : State) (k : Nat) (hs limit : Nat) : Bool :=
  decide (100 * hs < limit * ((s.quad (knotQuad (k / 5))).avg * s.net.window))

/-- SAMPLE_WINDOW_END: strand counts are latched, AVG is updated and the Crown chooses the pace point (R276, R282, R593, R595). -/
def execSampleWindowEnd (s : State) : Result :=
  .next (if !s.serves then s
    else
      let alarm := (List.range 4).any (fun q => (s.quad q).rose)
      let s : State := { s with
        net.knotOut := s.net.knotOut.map (fun e => (e.1, { e.2 with winHs := e.2.hs, winWaits := e.2.waits, hs := 0, waits := 0 }))
        net.quads := s.net.quads.map (fun e => (e.1,
          { e.2 with avg := if e.2.samples == 0 then e.2.avg else e.2.sum / e.2.samples, sum := 0, samples := 0, rose := false })) }
      let c := s.boot.cfg
      let busy := s.net.knotOut.any (fun e => s.strandOver e.1 e.2.winHs c.upUtil)
      let idle := decide (0 < c.downUtil) && s.net.knotOut.all (fun e => s.strandUnder e.1 e.2.winHs c.downUtil)
      let n := if idle then s.pwr.pace.lowWindows + 1 else 0
      let s := s.modPace (fun p => { p with lowWindows := n })
      let point := s.pwr.pace.point
      let t := if s.pwr.pace.hold then c.paceMin
        else if alarm && point < c.paceMax then point + 1
        else if busy && point < c.paceMax then point + 1
        else if 10 ≤ n ∧ c.paceMin < point then point - 1
        else point
      s.choosePoint t)

/-! ### Temperature (R594, R653) -/

/-- A junction reading of a byte, signed, is at or above a limit. -/
def atLeast (limit temp : Nat) : Bool := decide (limit ≤ temp) && decide (temp < 128)

/-- T_WARN_REACHED: source 11, thermal hold, the report and the move to PACE_MIN (R594). -/
def execTWarnReached (quad temp : Nat) (s : State) : Result :=
  .next (if !s.serves || !atLeast s.boot.cfg.tWarn temp then s
    else
      let s := s.modQuad quad (fun x => { x with temp := temp })
      if s.pwr.pace.hold then s
      else
        let s := s.modPace (fun p => { p with hold := true })
        (s.report { (mkFault 14 .correctedMemory 0x0711 crownUnit quad none) with quad := quad }).choosePoint s.boot.cfg.paceMin)

/-- THERMAL_HOLD_END: every sensor has stayed below T_WARN - 5 degrees for 1 s (R594). -/
def execThermalHoldEnd (temps : List Nat) (s : State) : Result :=
  .next (if !s.awake || !s.pwr.pace.hold || temps.length != 4 || temps.any (atLeast (s.boot.cfg.tWarn - 5)) then s
    else
      let s := s.modPace (fun p => { p with hold := false })
      (List.range 4).foldl (fun s q => s.modQuad q (fun x => { x with temp := temps.getD q 0 })) s)

/-! ### Domain entry (R568-R578) -/

/-- The links of a Cuff or of a quadrant satisfy a condition. -/
def State.linksAll (s : State) (ls : List Nat) (p : Link → Bool) : Bool := (ls.filter s.linkExists).all (fun l => p (s.link l))

/-- The lowest state that R568 allows a domain at this moment: 0 on, 1 retention, 2 off. -/
def State.allowed (s : State) (d : Nat) : Nat :=
  if d == 0 then 0
  else if d ≤ 8 then
    let ls := [2 * (d - 1), 2 * (d - 1) + 1]
    if s.linksAll ls (fun x => (x.up && x.power == .l2) || (!x.up && x.perst)) then 2
    else if s.linksAll ls (fun x => !x.up || x.power == .l12 || x.power == .l2) then 1
    else 0
  else if d ≤ 12 then if (List.range 4).any (fun i => s.linkExists (4 * (d - 9) + i)) then 1 else 2
  else if d ≤ 28 then if s.boot.cfg.channels.getLsbD (d - 13) then 1 else 2
  else if d ≤ 32 then 1
  else if (s.boot.cfg.peers.getD (d - 33) none).isSome && (s.blink (d - 33)).state != .retired then 0 else 2

/-- A line leaves the write-combining buffer, if it is still there: a re-encryption may have taken it meanwhile (R125). -/
def State.wcbOut (s : State) (g line : Nat) : State :=
  match s.wcbFind g line with
  | some w => if s.wcbLeaving g line then s else s.wcbLeave g w
  | none => s

/-- The HBM sealing gates of a stack. -/
def stackGates (q : Nat) : List Nat := (List.range 8).map (· + 8 * q)

/-- An HBM sealing gate's dirty lines leave its counter cache and its buffer is written (R134, R136). -/
def State.drainHgate (s : State) (q h : Nat) : State :=
  let s := ((s.hgate h).cache.filter (fun e => e.2.2)).foldl (fun s e => s.evictNode h e.1) s
  (s.hgate h).buf.foldl (fun s e => s.hbmPut q e.1 e.2) (s.modHgate h (fun x => { x with buf := [] }))

/-- Write back or empty what R568 lists for the domain: translation caches are dropped; a DDR gate's buffered lines are sealed and its
dirty counter blocks and MAC lines go to their copies (R134, R138); the dirty lines of a stack's eight HBM gates are written. -/
def State.quiesce (s : State) (d : Nat) : State :=
  if d ≤ 8 then
    s.dropCaches (fun k => (s.cuffLinks (d - 1)).any (fun l => k == cacheKey (cuffUnit (d - 1)) l))
  else if d ≤ 12 then s.dropCaches (domUnits d).contains
  else if d ≤ 28 then
    let g := d - 13
    let s := ((s.gate g).wcb.map WcbLine.line).foldl (fun s l => s.wcbOut g l) s
    let s := ((s.gate g).macs.filter (fun e => e.2.2)).foldl (fun s e => s.macOut g e.1) s
    ((s.gate g).ccache.filter (fun e => e.2.2)).foldl (fun s e => s.evictCtr g e.1) s
  else if d ≤ 32 then (stackGates (d - 29)).foldl (fun s h => s.drainHgate (d - 29) h) s
  else s

/-- What of the domain R568 wants empty is empty: a DDR gate's buffer, its dirty counter and MAC lines and its re-encryptions; the
dirty lines of a stack's HBM gates. -/
def State.emptied (s : State) (d : Nat) : Bool :=
  if d ≤ 12 then true
  else if d ≤ 28 then
    let x := s.gate (d - 13)
    x.wcb.isEmpty && x.ccache.all (fun e => !e.2.2) && x.macs.all (fun e => !e.2.2) && x.reencs.isEmpty
  else if d ≤ 32 then (stackGates (d - 29)).all (fun h => (s.hgate h).buf.isEmpty && (s.hgate h).cache.all (fun e => !e.2.2))
  else true

/-- What the domain loses on entry to retention beyond what it keeps: its clean cached lines (R568, R569). -/
def State.loseCaches (s : State) (d : Nat) : State :=
  if d ≤ 12 then s
  else if d ≤ 28 then s.modGate (d - 13) (fun x => { x with ccache := [], macs := [], olines := [] })
  else if d ≤ 32 then (stackGates (d - 29)).foldl (fun s h => s.modHgate h (fun _ => {})) s
  else s

/-- LINGER_EXPIRY: an unwanted domain that may go lower is asked to quiesce; a refusal is counted (R575, R576, R578). `refuser` is the
code of R578 of a unit or voter that refuses. -/
def execLingerExpiry (d : Nat) (refuser : Option Nat) (s : State) : Result :=
  .next (
    let x := s.dom d
    let target := min ((s.boot.cfg.doms.getD d {}).lowest) (s.allowed d)
    if !s.awake || s.sys.mode == .blank || s.boot.step < 7 || d == 0 || x.state != 0 || x.phase != 0 || s.wanted d || target == 0 ||
        (domUnits d).any (fun u => (s.unitFlt u).state == 2) then s
    else match refuser with
      | some r => (s.modDom d (fun x => { x with refused := satAdd 65535 x.refused 1, refuser := r })).edge 16
      | none => (s.modDom d (fun x => { x with phase := 2, target := target })).quiesce d)

/-- DOMAIN_COMMIT: the clamps engage; pads latch on the way to off (R575, R581). A domain that has become wanted aborts (R577); one
whose write-back has not ended goes on with it (R568). -/
def execDomainCommit (d : Nat) (s : State) : Result :=
  .next (
    let x := s.dom d
    if !s.awake || x.phase != 2 then s
    else if s.voted d then s.wake d (slotWanter (((s.slots d).findIdx? (s.votes d)).getD 0))
    else if s.unitsBusy d then s
    else if !s.emptied d then s.quiesce d
    else s.modDom d (fun x => { x with phase := 3, pads := x.target == 2 }))

/-- A Cuff's functions in their reset state after off (R569): configuration space, MSI-X, FN_ and EVT_ registers, IDE and SPDM. -/
def State.cuffOff (s : State) (l : Nat) : State :=
  let s := (List.range ((s.range l).2 + 1)).foldl (fun s n =>
    s.modFn ⟨l, n⟩ (fun x => { x.reset with events := x.events, waiters := x.waiters })) s
  ((s.endSessions l).resetSriov l).modLink l (fun x =>
    { x with ide := x.ide.map (fun i => { i with secure := false, keys := [], active := none }) })

/-- DOMAIN_ENTRY_COMPLETE: the domain reads retention or off; off loses the units' state; a wake already wanted starts (R569, R575,
R577, R588). -/
def execDomainEntryComplete (d : Nat) (s : State) : Result :=
  .next (
    let x := s.dom d
    if !s.awake || x.phase != 3 then s
    else
      let s := s.modDom d (fun x =>
        { x with state := x.target, phase := 0, target := 0, wakeAfter := false, entries := (x.entries + 1) % 2 ^ 32 })
      let s := if x.target == 2 && d ≤ 8 then (s.cuffLinks (d - 1)).foldl State.cuffOff s else s
      let s := s.loseCaches d
      let s := match domIsland d with
        | some i => if s.islandClock i then s
            else s.modPace (fun p => { p with high := p.high &&& ~~~ BitVec.ofNat 18 (2 ^ i) })
        | none => s
      if x.wakeAfter || s.wanted d then s.wake d (unitWanter (((domUnits d).head?).getD 0)) else s)

/-! ### Wake (R580-R582) -/

/-- PAD_RELEASE_DUE: in a wake from off, source 19 is raised and the Crown releases the pads (R580 step 4, R582). -/
def execPadReleaseDue (d : Nat) (s : State) : Result :=
  .next (
    let x := s.dom d
    if !s.awake || x.phase != 4 || x.state != 2 || !x.pads then s else (s.modDom d (fun x => { x with pads := false })).edge 19)

/-- DOMAIN_ON: the domain reads on, source 17 is raised, its island starts at the step now permitted, and the PIN_DOMAIN entries that
wait for it complete (R379, R580, R588, R589). -/
def execDomainOn (d : Nat) (s : State) : Result :=
  .next (
    let x := s.dom d
    if !s.awake || x.phase != 4 || x.pads then s
    else
      let s := (s.modDom d (fun x => { x with state := 0, phase := 0, wakes := (x.wakes + 1) % 2 ^ 32, pinWait := [] })).edge 17
      let p := s.pwr.pace
      let s := match domIsland d with
        | some i => if !p.moving && p.point != 0 && !p.avsFailed then
            s.modPace (fun p => { p with high := p.high ||| BitVec.ofNat 18 (2 ^ i) }) else s
        | none => s
      x.pinWait.foldl (fun s o => s.complete o 0 0) s)

end Sys2Proof.Machine
end

