-- ==== Sys2Proof/Machine/Usage.lean ====
section
/-! DEFINITION. The usage ledger: minutes, records, batches, signatures and GET_USAGE (R601-R623). -/

namespace Sys2Proof.Machine

/-! ### Records (R606-R611) -/

/-- Difference of a counter modulo 2^64 (R608). -/
def diff64 (a b : Nat) : Nat := (a + 2 ^ 64 - b) % 2 ^ 64

/-- The sum over the quadrants of a counter's difference from its baseline; a fenced slice's counts are missing (R608, R612). -/
def State.usageDiff (s : State) (g : Nat) (c : Stat → Nat) : Nat :=
  let u := s.usage g
  ((List.range 4).map (fun q =>
    if s.fenced (queueUnit q) then 0
    else diff64 (c (s.net.gstat.get {} (1024 * q + g))) (c (u.base.get {} q)))).sum

/-- The upper edge of the bucket that holds a percentile (R609). -/
def percentile (cs : List Nat) (p : Nat) : Nat :=
  let n := cs.sum
  if n == 0 then 0
  else
    let want := (p * n + 99) / 100
    match (List.range 16).find? (fun i => decide (want ≤ (cs.take (i + 1)).sum)) with
    | some i => if i < 15 then 2 ^ (i + 5) - 1 else 0xFFFFFFFF
    | none => 0xFFFFFFFF

/-- The anchor in force is stale (R616). -/
def State.anchorStale (s : State) (t : Nat) : Bool :=
  s.boot.cfg.anchorStale != 0 && (!s.usg.anchorSet || decide (s.usg.anchorTime + s.boot.cfg.anchorStale * 60000000000 < t))

/-- The record of a glove that ends at time `t` (R607-R611). -/
def State.formRecord (s : State) (g : Nat) (closed : Bool) (t : Nat) : Record :=
  let u := s.usage g
  let fencedNow := (List.range 4).foldl (fun v q => if s.fenced (queueUnit q) then v ||| BitVec.ofNat 4 (2 ^ q) else v) u.missing
  let hist := (List.range 16).map (fun i => s.usageDiff g (fun x => x.hist.get 0 i))
  { glove := g
    flags := bit u.opened + 2 * bit closed + 4 * bit u.linkEvent + 8 * bit u.anchorSet +
      16 * bit (decide (65535 < u.controls) || decide (65535 < u.integ)) + 32 * bit (s.anchorStale t)
    missing := fencedNow
    kcv := (s.glove g).kcv
    controls := min 65535 u.controls
    integ := min 65535 u.integ
    seq := s.usg.seq
    tStart := u.tStart
    tEnd := t
    poolRd := s.usageDiff g (fun x => x.rdPool) % 2 ^ 64
    poolWr := s.usageDiff g (fun x => x.wrPool) % 2 ^ 64
    dmaHost := u.dmaHost, dmaPool := u.dmaPool, dmaPeer := u.dmaPeer
    pageMs := (u.pageNs + u.pages * (t - u.pageTime)) / 1000000
    tierAvg := if u.tierN == 0 then 0 else u.tierSum / u.tierN
    works := u.works
    p50 := percentile hist 50, p99 := percentile hist 99
    anchor := s.usg.anchor.toNat
    anchorTime := s.usg.anchorTime
    discarded := u.discarded }

/-- A record is formed: it joins the tenancy's open batch, which closes when it is full or holds the CLOSED record, and the counts start
again (R605, R613). -/
def State.addRecord (s : State) (g : Nat) (closed : Bool) : State :=
  let t := s.sys.now
  let r := s.formRecord g closed t
  let u := s.usage g
  let mine (b : Batch) : Bool := b.glove == g && b.tenancy == u.tenancy && !b.closed
  let put (b : Batch) : Batch :=
    { b with records := b.records ++ [r], closing := closed,
             closed := closed || decide (s.boot.cfg.batchRecords ≤ b.records.length + 1) }
  let fresh : Batch := { glove := g, link := (s.linkOf g).getD 0, tenancy := u.tenancy, records := [] }
  let bs := if s.usg.batches.any mine then s.usg.batches.map (fun b => if mine b then put b else b)
    else s.usg.batches ++ [put fresh]
  let s : State := { s with usg.batches := bs }
  s.modUsage g (fun u =>
    { tenancy := u.tenancy, prev := u.prev, live := !closed, pages := u.pages, pageTime := t, tStart := t, base := s.baselines g })

/-! ### Bytes of a batch (R607, R614) -/

def recordBytes (r : Record) : List Byte :=
  leBytes 2 r.glove ++ leBytes 1 r.flags ++ leBytes 1 r.missing.toNat ++ leBytes 8 r.kcv.toNat ++ leBytes 2 r.controls ++ leBytes 2 r.integ ++
  leBytes 8 r.seq ++ leBytes 8 r.tStart ++ leBytes 8 r.tEnd ++ leBytes 8 r.poolRd ++ leBytes 8 r.poolWr ++ leBytes 8 r.dmaHost ++
  leBytes 8 r.dmaPool ++ leBytes 8 r.dmaPeer ++ leBytes 8 r.pageMs ++ leBytes 4 r.tierAvg ++ leBytes 4 r.works ++ leBytes 4 r.p50 ++
  leBytes 4 r.p99 ++ leBytes 8 r.anchor ++ leBytes 8 r.anchorTime ++ leBytes 8 r.discarded

def State.batchHeader (s : State) (b : Batch) : List Byte :=
  leBytes 4 0x42555654 ++ leBytes 2 1 ++ leBytes 1 b.records.length ++ leBytes 1 (bit b.first + 2 * bit b.closing) ++
  leBytes 8 (b.linkSeq.getD 0) ++ leBytes 8 (b.prev.getD (2 ^ 64 - 1)) ++ leBytes 8 Config.serial.toNat ++
  leBytes 4 s.boot.mram.coldResets ++ leBytes 1 b.link ++ leBytes 1 s.boot.cfg.pos ++ leBytes 2 b.glove ++ leBytes 4 s.boot.cfg.ucode ++
  leBytes 4 s.boot.cfg.version ++ leBytes 8 b.signTime ++ leBytes 8 0

/-- What the signature covers: the header and the records (R615). -/
def State.batchBody (s : State) (b : Batch) : List Byte := s.batchHeader b ++ b.records.flatMap recordBytes

/-- The bytes of a number of `n` bytes, most significant first. -/
def beBytes (n v : Nat) : List Byte := (leBytes n v).reverse

def State.batchBytes (s : State) (b : Batch) : List Byte :=
  s.batchBody b ++ leBytes 4 0x53555654 ++ leBytes 12 0 ++ beBytes 96 b.sig.toNat ++ leBytes 16 0

/-- Size of a batch (R614). -/
def Batch.size (b : Batch) : Nat := 192 + 128 * b.records.length

/-! ### Signing and the ring (R617-R619) -/

/-- A closed batch may be signed: MRAM holds a number above that of every record (R618). -/
def State.signable (s : State) (b : Batch) : Bool :=
  b.closed && b.linkSeq.isNone && b.records.all (fun r => decide (r.seq < s.boot.mram.nextSeq))

/-- Sign one batch: its link's next LINK_SEQ goes to MRAM first (R614-R618). -/
def State.signBatch (s : State) (b : Batch) : Batch × State :=
  match s.trust.usageKey with
  | none => (b, s)
  | some k =>
    let n := s.boot.mram.linkSeq.get 0 b.link
    let u := s.usage b.glove
    let prev := if u.tenancy == b.tenancy then u.prev
      else ((s.usg.batches.filter (fun x => x.glove == b.glove && x.tenancy == b.tenancy)).filterMap Batch.linkSeq).getLast?
    let b := { b with linkSeq := some n, prev := prev, first := !s.usg.signedOnce.contains b.link, signTime := s.sys.now }
    let b := { b with sig := Config.ecdsaSign k (Config.sha384 (s.batchBody b)) }
    let s : State := { s with
      boot.mram.linkSeq := s.boot.mram.linkSeq.set b.link (n + 1)
      usg.signedOnce := if s.usg.signedOnce.contains b.link then s.usg.signedOnce else s.usg.signedOnce ++ [b.link] }
    (b, if u.tenancy == b.tenancy then s.modUsage b.glove (fun u => { u with prev := some n }) else s)

/-- Sign every batch that may be, in order (R604 step 4, R618). -/
def State.signAll (s : State) : State :=
  s.usg.batches.zipIdx.foldl (fun s (b, i) =>
    if s.signable b then
      let (b', s) := s.signBatch b
      { s with usg.batches := s.usg.batches.set i b' }
    else s) s

/-- Bytes of the ring (R619). -/
def ringSize : Nat := 8 * 2 ^ 20

/-- Batches that the ring keeps of a list, newest first, within a size. -/
def keepBatches : Nat → List Batch → List Batch × List Batch
  | _, [] => ([], [])
  | room, b :: bs =>
    if b.closed then
      if b.size ≤ room then let (k, l) := keepBatches (room - b.size) bs; (b :: k, l) else ((b :: bs).filter (fun x => !x.closed), (b :: bs).filter Batch.closed)
    else let (k, l) := keepBatches room bs; (b :: k, l)

/-- The ring overwrites its oldest batches when it is full; each one lost before its link had read it is counted (R619). -/
def State.trimRing (s : State) : State :=
  let (kept, lost) := keepBatches ringSize s.usg.batches.reverse
  let s : State := { s with usg.batches := kept.reverse }
  (lost.filter (fun b => !b.returned)).foldl (fun s b =>
    { s with usg.lost := s.usg.lost.mod 0 b.link (fun v => (v + 1) % 2 ^ 32) }) s

/-- Write the next minute number to MRAM; a write that has failed for good is reported and repeated (R617, R618). -/
def State.writeSeq (s : State) (n : Nat) (ok : Bool) : State :=
  if ok then { s with boot.mram.nextSeq := max s.boot.mram.nextSeq n, usg.seqFailed := false }
  else
    let s : State := { s with usg.seqFailed := true }
    s.report (mkFault 12 .mramFailed 0x004B crownUnit 0 none)

/-- MINUTE_BOUNDARY (R604-R606, R618): the slices close the minute, S + 1 goes to MRAM, records are formed and closed batches are
signed. -/
def execMinuteBoundary (mramOk : Bool) (s : State) : Result :=
  .next (if !s.serves then s
    else
      let s := (List.range 4).foldl (fun s q => s.edge (72 + q)) s
      let s := s.writeSeq (s.usg.seq + 1) mramOk
      let gs := (s.usg.usage.filter (fun e => e.2.live)).map Prod.fst
      let s := gs.foldl (fun s g => s.addRecord g false) s
      let s : State := { s with usg.seq := s.usg.seq + 1 }
      (if mramOk then s.signAll else s).trimRing)

/-- MRAM_SEQ_RETRY: the write is repeated once a second; a success releases the batches that wait on it (R618). -/
def execMramSeqRetry (ok : Bool) (s : State) : Result :=
  .next (if !s.serves || !s.usg.seqFailed then s
    else if ok then ((s.writeSeq s.usg.seq true).signAll).trimRing
    else s.writeSeq s.usg.seq false)

/-- A close completes: the CLOSED record is formed, and its batch is signed once MRAM holds the next minute number (R606, R613,
R617, R622). -/
def State.endTenancy (s : State) (g : Nat) : State :=
  if !(s.usage g).live then s
  else
    let s := if s.usg.seqFailed then s else s.writeSeq (s.usg.seq + 1) true
    let s := s.addRecord g true
    let s := s.modUsage g (fun u => { u with pages := 0 })
    s.signAll.trimRing

/-- Pages of a glove are released: what they were held for is counted (R611). -/
def State.usagePages (s : State) (g n : Nat) : State :=
  s.modUsage g (fun u =>
    { u with pageNs := u.pageNs + u.pages * (s.sys.now - u.pageTime), pageTime := s.sys.now, pages := u.pages - n })

/-- Tier lines that a home glove holds (R150, POL_TIER_SHARE.OCCUPANCY). -/
def State.occupancy (s : State) (g : Nat) : Nat := s.pool.tier.countP (fun t => t.slot == g)

/-- TIER_OCCUPANCY_SAMPLE: POL_TIER_SHARE.OCCUPANCY of each glove with a record in progress (R611). -/
def execTierOccupancySample (s : State) : Result :=
  .next (if !s.serves then s
    else
      { s with usg.usage := s.usg.usage.map (fun (g, u) =>
          (g, if u.live then { u with tierSum := u.tierSum + s.occupancy g, tierN := u.tierN + 1 } else u)) })

/-- USG_ANCHOR_WRITE: PF0 sets the device-wide anchor (R602). -/
def execUsgAnchorWrite (f : FnId) (v : BitVec 64) (s : State) : Result :=
  .next (if !s.bar0On f || f.fn != 0 then s
    else
      { s with
        usg.anchor := v
        usg.anchorTime := s.sys.now
        usg.anchorSet := true
        usg.usage := s.usg.usage.map (fun (g, u) => (g, { u with anchorSet := true })) })

/-! ### GET_USAGE (R381, R382, R620, R621) -/

/-- A command of the Crown writes a buffer in host memory of the queue's function, in packets of at most 512 bytes; its entry
completes with the code and result when the last write is acknowledged (R381). -/
def State.crownWrites (s : State) (o : Origin) (buf : Nat) (bs : List Byte) (result : Nat) : State :=
  if bs.isEmpty then s.complete o 0 result
  else
    ((chunks 512 bs).zipIdx).foldl (fun s (c, i) =>
      match s.issue (s.qAccess o.q false .memWr (buf + 512 * i) c.length c) (fun _ => .crownWrite o 0 result) with
      | .sent s _ _ => s
      | .wait s => s
      | .refused s _ _ _ => s) s

/-- A buffer of the GET commands: 64-byte aligned, a multiple of 64 from 64 bytes to 1 MiB (R375). -/
def badBuffer (buf len : Nat) : Bool := buf % 64 != 0 || len % 64 != 0 || len == 0 || decide (2 ^ 20 < len)

/-- Whole batches from the front of a list that fit a buffer. -/
def fitBatches : Nat → List Batch → List Batch
  | _, [] => []
  | room, b :: bs => if b.size ≤ room then b :: fitBatches (room - b.size) bs else []

/-- Signed batches of a link in ascending LINK_SEQ. -/
def State.retained (s : State) (l : Nat) : List Batch :=
  (s.usg.batches.filter (fun b => b.link == l && b.linkSeq.isSome)).mergeSort (fun a b => decide (a.linkSeq.getD 0 ≤ b.linkSeq.getD 0))

/-- GET_USAGE on the admin queue or a control queue. -/
def execGetUsage (o : Origin) (glove first buf len : Nat) (s : State) : Result :=
  .next (if !s.serves || !s.fnExists o.q.fnId then s
    else
      let s := s.undispatch (.getUsage o glove first buf len)
      let l := o.q.link
      let all := s.retained l
      let oldest := ((all.head?).bind Batch.linkSeq).getD 0
      if o.q.fn == 0 && glove != 0xFFFF && !s.linkHas l glove then s.refuse o 0x0108
      else if badBuffer buf len then s.refuse o 0x0002
      else if first < oldest then s.refuse o 0x0003
      else
        let own := s.gloveOf o.q.fnId
        let hit (b : Batch) : Bool :=
          decide (first ≤ b.linkSeq.getD 0) &&
          (if o.q.fn == 0 then glove == 0xFFFF || b.glove == glove else b.glove == own && b.tenancy == (s.usage own).tenancy)
        let found := all.filter hit
        let got := fitBatches len found
        let s : State := if o.q.fn == 0 then
            { s with usg.batches := s.usg.batches.map (fun b =>
                if b.link == l && got.any (fun x => x.linkSeq == b.linkSeq) then { b with returned := true } else b) }
          else s
        s.crownWrites o buf (got.flatMap s.batchBytes) (got.length + 2 ^ 32 * bit (decide (got.length < found.length))))

end Sys2Proof.Machine
end

