-- ==== Sys2Proof/Machine/Registers.lean ====
section
/-! DEFINITION. The registers of every function's BAR0 and of the unit blocks (R625-R633), the identity table (R301, R302), and
REGISTER_WRITE. A read gives the aligned 8-byte unit that holds the offset: two 32-bit registers stand side by side in it. -/

namespace Sys2Proof

/-- A register of fields, each a value with its lowest bit. -/
def fieldsOf (fs : List (Nat × Nat)) : Nat := (fs.map (fun e => e.2 * 2 ^ e.1)).sum

/-- Two 32-bit registers, the one at the higher offset first. -/
def pair32 (hi lo : Nat) : Nat := hi * 2 ^ 32 + lo

/-- The value of an 8-byte unit after a write of its enabled bytes. -/
def merge8 (old w en : Nat) : Nat :=
  leNat ((List.range 8).map (fun i => BitVec.ofNat 8 (bits (if bitAt en i then w else old) (8 * i + 7) (8 * i))))

/-- Some byte of the low or the high register of a unit is enabled. -/
def lowOn (en : Nat) : Bool := en % 16 != 0
def highOn (en : Nat) : Bool := en / 16 % 16 != 0

end Sys2Proof

namespace Sys2Proof.Machine

/-! ### Codes of states (R48, R51, R343, R397, R457, R537) -/

def Mode.code : Mode → Nat
  | .blank => 0 | .loading => 1 | .service => 2 | .degraded => 3 | .drain => 4 | .quarantine => 5

def GState.code : GState → Nat
  | .free => 0 | .keyPending => 1 | .opened => 2 | .zeroizing => 3 | .releasing => 4

def TdiState.code : TdiState → Nat
  | .unlocked => 0 | .locked => 1 | .run => 2 | .error => 3

def Ltssm.code : Ltssm → Nat
  | .detect => 0 | .polling => 1 | .configuration => 2 | .l0 => 3 | .recovery => 4 | .l1 => 5 | .l2 => 6 | .disabled => 7
  | .hotReset => 8 | .loopback => 9

def FState.code : FState → Nat
  | .stopped => 0 | .running => 1 | .halted => 2

def BState.code : BState → Nat
  | .absent => 0 | .training => 1 | .ident => 2 | .admitting => 3 | .up => 4 | .retrain => 5 | .down => 6 | .retired => 7

def PState.code : PState → Nat
  | .absent => 0 | .admitting => 1 | .admitted => 2 | .fenced => 3

/-! ### The identity table (R301, R302, R561, R625, R628) -/

/-- The directory of a function: kind, instances, stride and offset of each block. -/
def directory (vf blank : Bool) : List (Nat × Nat × Nat × Nat) :=
  if blank then [(0x01, 1, 0, 0x1000), (0x0A, 1, 0, 0xC000)]
  else if vf then
    [(0x01, 1, 0, 0x1000), (0x02, 1, 0, 0x1400), (0x03, 1, 0, 0x1800), (0x04, 65, 0x40, 0x2000), (0x05, 16, 0x80, 0x4000),
     (0x06, 1, 0, 0x5000), (0x07, 1, 0, 0x6000), (0x11, 64, 16, 0xF0000), (0x12, 1, 0, 0xF0800)]
  else
    [(0x01, 1, 0, 0x1000), (0x02, 1024, 4, 0x2000), (0x04, 1, 0x40, 0x3000), (0x05, 16, 0x80, 0x4000), (0x06, 1, 0, 0x5000),
     (0x0B, 16, 0x40, 0x6000), (0x0E, 8, 0x40, 0x7000), (0x09, 1, 0, 0x8000), (0x0F, 1, 0, 0xA000), (0x0A, 1, 0, 0xC000),
     (0x07, 1, 0, 0xE000), (0x08, 1, 0, 0x10000), (0x0C, 1, 0, 0x14000), (0x0D, 1, 0, 0x18000), (0x03, 1, 0, 0x20000),
     (0x11, 2048, 16, 0x1000000), (0x12, 1, 0, 0x1008000), (0x10, 16, 0x100000, 0x2000000)]

/-- The opcodes a queue kind accepts, as a bitmap (R301, R374). -/
def bitmap (kind : Nat) : Nat := (((List.range 64).filter (accepts kind)).map (fun k => 2 ^ k)).sum

/-- Feature flags of a function (R301). -/
def State.features (s : State) (l : Nat) : Nat :=
  if s.sys.mode == .blank then 0x40
  else
    7 + 8 * bit (s.boot.cfg.peers.any Option.isSome) + 16 * bit s.boot.cfg.mirror +
      32 * bit ((s.boot.cfg.bars.getD l (false, 0)).1)

/-- The 8-byte unit of a function's identity table at an offset (R301). -/
def State.identity (s : State) (f : FnId) (off : Nat) : Nat :=
  let blank := s.sys.mode == .blank
  let vf := f.fn != 0
  let g := s.glove (s.gloveOf f)
  let dir := directory vf blank
  let maps (k : Nat) : Nat := if blank then 0 else bitmap k
  if off == 0x00 then fieldsOf [(0, 0x44495654), (32, 1), (48, dir.length)]
  else if off == 0x08 then
    fieldsOf [(0, 0x1F3A), (16, if vf then 0x8441 else 0x8440), (32, Config.stepping.toNat), (40, Config.securityLevel.toNat),
      (48, if blank then 2 else bit vf)]
  else if off == 0x10 then Config.serial.toNat
  else if off == 0x18 then if blank then 0 else pair32 s.boot.cfg.version s.boot.cfg.ucode
  else if off == 0x20 then
    fieldsOf [(0, f.link), (8, f.link / 2), (16, if s.twoX8 (f.link / 2) then 1 + f.link % 2 else 0), (24, s.boot.cfg.pos),
      (32, if vf then s.gloveOf f else 0xFFFF), (48, f.fn), (56, (s.boot.cfg.bars.getD f.link (false, 0)).2)]
  else if off == 0x28 then
    fieldsOf [(0, (s.range f.link).1), (16, (s.range f.link).2), (24, if vf then g.queueLimit else 1),
      (32, if vf then g.fingerLimit else 16), (40, 16), (48, vectorsOf f)]
  else if off == 0x30 then pair32 65536 s.pages
  else if off == 0x38 then if vf then 0 else maps 0
  else if off == 0x40 then if vf then maps 1 else 0
  else if off == 0x48 then if vf then maps 2 else 0
  else if off == 0x50 then s.features f.link
  else if 0x60 ≤ off then
    match dir[(off - 0x60) / 16]? with
    | some (k, n, stride, base) => if off % 16 == 0 then fieldsOf [(0, k), (16, n), (32, stride)] else base
    | none => 0
  else 0

/-! ### Blocks of every function -/

/-- FN_ (R339). -/
def Fn.fnReg (x : Fn) (o : Nat) : Nat :=
  match o with
  | 0x00 => fieldsOf [(48, x.rejCode), (44, x.rejSpace), (0, x.rejOff)]
  | 0x10 => x.errAddr
  | 0x18 =>
    fieldsOf [(48, x.errCode), (32, x.errCount), (31, bit x.errValid), (28, x.errKind), (26, x.errSpace), (16, x.errFn),
      (12, x.errLink), (0, x.errGlove)]
  | _ => 0

/-- GLV_STATE of a glove (R51). -/
def State.glvState (s : State) (g : Nat) : Nat :=
  let x := s.glove g
  let f := (s.vfOf g).getD ⟨0, 0⟩
  fieldsOf [(28, x.keySource), (26, x.tdi.code), (25, bit x.tdisp), (24, bit (!x.guests.isEmpty)), (16, f.link), (8, f.fn),
    (0, x.state.code)]

/-- The QUE_ instance of a queue (R369). -/
def State.queReg (s : State) (q : QId) (o : Nat) : Nat :=
  let x := s.queue q
  match o with
  | 0x00 => x.ring
  | 0x08 => x.headAddr
  | 0x10 =>
    fieldsOf [(31, bit x.enable), (16, x.vector), (12, x.finger), (9, bit x.headGlove), (8, bit x.ringGlove), (0, x.size)]
  | 0x18 => pair32 x.tail.toNat 0
  | 0x20 => pair32 x.fetch.toNat x.head.toNat
  | 0x28 =>
    let st := if !x.enable then 0 else if x.faulted then 3 else if s.qPaused q then 2 else 1
    fieldsOf [(16, x.errCode), (8, x.rejects), (0, st)]
  | _ => 0

/-- The FNG_ instance of a Finger (R436). -/
def State.fngReg (s : State) (f : FgId) (o : Nat) : Nat :=
  let x := s.finger f
  match o with
  | 0x00 =>
    fieldsOf [(32, x.engine.getD 0), (16, (x.entry.map (fun e => e.q.q)).getD 0), (15, bit x.bulk), (8, s.fgShare f),
      (3, bit x.entry.isSome), (2, bit x.waiting.isSome), (0, x.state.code)]
  | 0x08 => pair32 x.adv.toNat ((x.entry.map (fun e => e.idx % 2 ^ 32)).getD 0)
  | 0x10 => x.pc / 32 * 32 + bit x.pcGlove
  | 0x18 => pair32 x.l1.toNat x.l0.toNat
  | 0x20 => x.a0.toNat
  | 0x28 => x.a1.toNat
  | 0x30 => x.a2.toNat
  | 0x38 => x.a3.toNat
  | 0x40 => x.faultAddr
  | 0x48 =>
    fieldsOf [(32, x.bytesDone), (24, x.opcode), (21, x.faultSpace), (20, bit x.faultFetch), (19, bit x.faultWrite),
      (0, x.faultCause)]
  | 0x50 => fieldsOf [(48, if x.state == .halted then x.haltCode else 0), (0, x.tokens)]
  | _ => 0

/-- The FNG_ block of a function. -/
def State.fngBlock (s : State) (f : FnId) (o : Nat) : Nat :=
  if o < 0x800 then s.fngReg ⟨f.link, f.fn, o / 0x80⟩ (o % 0x80)
  else if o == 0x800 then (s.fn f).events.toNat
  else 0

/-- LINK_SEQ of the retained batches that a function's USG_ block refers to (R624). -/
def State.usgSeqs (s : State) (f : FnId) : List Nat :=
  if f.fn == 0 then (s.retained f.link).filterMap Batch.linkSeq
  else
    let g := s.gloveOf f
    (s.usg.batches.filter (fun b => b.glove == g && b.tenancy == (s.usage g).tenancy)).filterMap Batch.linkSeq

/-- The value of a measurement and whether it is raw (R83). -/
def State.measured (s : State) (i : Nat) : Bool × List Byte :=
  let dig (d : Digest) : List Byte := leBytes 48 d.toNat
  match i with
  | 1 => (false, dig Config.romDigest)
  | 2 => (false, dig s.boot.cfg.microDigest)
  | 3 => (false, dig s.boot.cfg.configDigest)
  | 4 => (true, leBytes 4 s.boot.cfg.ucode ++ leBytes 4 s.boot.cfg.version ++ leBytes 4 s.boot.cfg.floor)
  | 5 => (true, dig (s.boot.signer.getD 0))
  | _ => (false, dig (Config.sha384 (Config.fuseMap s.boot.signer)))

/-- The values of some measurements. -/
def State.measuredAll (s : State) (is : List Nat) : List (List Byte) := is.map (fun i => (s.measured i).2)

/-- DER bytes of the usage certificate (R616, R624). -/
def State.usageCert (s : State) : List Byte :=
  match s.trust.identityKey, s.trust.usageKey with
  | some i, some k => (Config.usageCert i k Config.serial (s.measuredAll [1, 2, 4])).take 2048
  | _, _ => []

/-- USG_ (R624). A PF0 without a retained batch reads the reset value 0. -/
def State.usgReg (s : State) (f : FnId) (o : Nat) : Nat :=
  let none' := if f.fn == 0 then 0 else 2 ^ 64 - 1
  if 0x800 ≤ o then leNat ((s.usageCert.drop (o - 0x800)).take 8)
  else match o with
    | 0x00 => s.usg.anchor.toNat
    | 0x08 => s.usg.anchorTime
    | 0x10 => s.sys.now
    | 0x18 => s.usg.seq
    | 0x20 => ((s.usgSeqs f).head?).getD none'
    | 0x28 => ((s.usgSeqs f).getLast?).getD none'
    | 0x30 => if f.fn == 0 then s.usg.lost.get 0 f.link else 0
    | 0x38 => s.usageCert.length
    | _ => 0

/-- EVT_HOLDOFF of a group (R511). -/
def ModGroup.reg (x : ModGroup) : Nat := fieldsOf [(31, bit x.running), (16, x.due.toNat), (0, x.holdoff)]

/-- EVT_SRC of a source (R511). -/
def State.evtSrc (s : State) (i : Nat) : Nat :=
  if 80 ≤ i then 0
  else
    let x := s.source i
    let sense := if i < 8 then (s.boot.cfg.evtIn.getD i {}).sense else if s.levelSource i then 0 else 2
    fieldsOf [(31, bit x.enabled), (30, bit (s.sourceActive i)), (29, bit (s.evt.inService == some i)), (28, bit x.overflow),
      (24, sense), (0, if s.levelSource i then 0 else x.count)]

/-- EVT_IN_CFG of a pin (R511). -/
def State.evtInCfg (s : State) (i : Nat) : Nat :=
  let c := s.boot.cfg.evtIn.getD i {}
  fieldsOf [(31, bit c.enable), (30, bit c.tamper), (29, bit c.filter), (24, c.sense), (8, c.cycles), (0, bit (s.evtPin i).pin)]

/-- The EVT_ block of a function (R511). -/
def State.evtReg (s : State) (f : FnId) (o : Nat) : Nat :=
  let groups := if f.fn == 0 then 256 else 8
  if o == 0x00 then (s.fn f).cause.toNat
  else if o == 0x08 then pair32 (s.fn f).sent (s.fn f).coalesced
  else if 0x100 ≤ o ∧ o < 0x100 + 4 * groups then
    let g := (o - 0x100) / 4
    pair32 (s.group f (g + 1)).reg (s.group f g).reg
  else if f.fn == 0 ∧ 0x800 ≤ o ∧ o < 0x820 then
    let i := (o - 0x800) / 4
    pair32 (s.evtInCfg (i + 1)) (s.evtInCfg i)
  else if f.fn == 0 ∧ 0x1000 ≤ o ∧ o < 0x1800 then
    let i := (o - 0x1000) / 4
    pair32 (s.evtSrc (i + 1)) (s.evtSrc i)
  else 0

/-- The WIN_ record of a glove (R213). -/
def State.winRecord (s : State) (g o : Nat) : Nat :=
  let x := s.glove g
  let l := x.latch
  match o with
  | 0x00 => l.addr / 64 * 64
  | 0x08 =>
    fieldsOf [(48, l.code), (32, l.count), (31, bit l.valid), (24, l.world), (23, bit l.write), (0, l.unit)]
  | 0x10 => fieldsOf [(31, bit x.updating), (0, x.epoch)]
  | _ => 0

/-- The MSI-X table and the pending-bit array (R340). -/
def State.msixReg (s : State) (f : FnId) (o : Nat) : Nat :=
  let e := (s.fn f).msix.get {} (o / 16)
  if o % 16 == 0 then e.addr.toNat else pair32 (bit e.mask) e.data.toNat

def State.pbaReg (s : State) (f : FnId) (o : Nat) : Nat :=
  (((s.fn f).pba.filter (fun v => v / 64 == o / 8)).map (fun v => 2 ^ (v % 64))).sum

/-! ### Blocks of PF0 -/

/-- Line-lock entries in use in a Cuff (R343). -/
def Cuff.inUse (x : Cuff) : Nat := (x.locks.filter Lock.sent).length

/-- CUF_ (R343). -/
def State.cufReg (s : State) (o : Nat) : Nat :=
  if o < 0x400 then
    let l := o / 0x40
    let x := s.link l
    if !s.linkExists l then 0
    else
      let lanes := (s.flt.lanesRetired.get 0 (l / 2)).toNat
      let mine := bits lanes (s.laneBase l + s.laneCount l - 1) (s.laneBase l) * 2 ^ s.laneBase l
      match o % 0x40 with
      | 0x00 =>
        fieldsOf [(31, 1), (30, bit x.up), (29, bit x.flit), (24, x.ltssm.code), (21, x.rate), (16, x.width), (0, mine)]
      | 0x08 => fieldsOf [(48, x.downs), (32, x.recoveries), (0, x.discarded)]
      | 0x10 => fieldsOf [(16, x.unexpected), (0, x.timeouts)]
      | _ => 0
  else if 0x800 ≤ o ∧ o < 0x840 then
    let x := s.cuff ((o - 0x800) / 8)
    fieldsOf [(16, x.expiries), (8, x.peak), (0, x.inUse)]
  else 0

/-- BRD_ (R479). -/
def State.brdReg (s : State) (o : Nat) : Nat :=
  if o < 0x200 then
    let l := o / 0x40
    let x := s.blink l
    match s.farEnd l with
    | none => 0
    | some (pos, link) =>
      match o % 0x40 with
      | 0x00 =>
        let by' := x.routed.getD l
        fieldsOf [(29, x.state.code), (26, x.cause), (24, pos), (21, link), (20, 1), (17, by'), (16, bit (by' != l)),
          (8, x.retired.toNat), (0, x.active.toNat)]
      | 0x08 => fieldsOf [(48, x.downs), (32, x.reroutes), (16, x.replays), (0, x.crcErrors)]
      | 0x10 => fieldsOf ((List.range 8).map (fun i => (8 * i, x.lanes.get 0 i)))
      | _ => 0
  else if o == 0x400 then
    let c := s.boot.cfg
    fieldsOf [(48, c.creditTime), (40, c.rerouteLimit), (32, c.lockLossTime), (20, c.replayTime), (12, c.laneThresh),
      (8, c.downThresh)]
  else if 0x408 ≤ o ∧ o < 0x428 then
    let n := (o - 0x408) / 8
    let x := s.peer n
    if n == s.boot.cfg.pos then 0
    else fieldsOf [(30, x.state.code), (27, x.cause), (16, (s.guestsFrom n).length), (0, x.fences)]
  else 0

/-- Packets held for the units of a domain (R261, R599). -/
def State.heldFor (s : State) (d : Nat) : Nat :=
  ((s.net.holds.flatMap (fun e => e.2.pkts)).filter (fun n => match s.net.pkts.find? (fun p => p.1 == n) with
    | some p => unitDomain p.2.dest == d
    | none => false)).length

/-- PWR_DOMAIN_STATUS, COUNT, LAST and the voters of a domain (R599). A steady domain that is on, unwanted and allowed lower is
lingering. -/
def State.domReg (s : State) (d o : Nat) : Nat :=
  let x := s.dom d
  let slots := s.slots d
  let low := s.allowed d
  let phase := if x.phase == 0 && x.state == 0 && !s.wanted d && decide (0 < min ((s.boot.cfg.doms.getD d {}).lowest) low) then 1
    else x.phase
  if d == 0 then 0
  else if o == 0x00 then
    fieldsOf [(32, ((slots.zipIdx.filter (fun e => s.votes d e.1)).map (fun e => 2 ^ e.2)).sum), (31, bit x.pads),
      (30, bit x.noWake), (25, phase), (18, min 127 (s.heldFor d)), (16, low), (0, x.state)]
  else if o == 0x08 then fieldsOf [(48, x.refused), (32, x.aborted), (0, x.entries)]
  else if o == 0x10 then fieldsOf [(48, x.refuser), (32, x.aborter), (0, x.wakes)]
  else if 0x20 ≤ o then
    fieldsOf ((List.range 4).map (fun i =>
      let v := slots.getD ((o - 0x20) / 2 + i) (0, 0)
      (16 * i, v.1 * 4096 + v.2)))
  else 0

/-- PWR_ (R599). -/
def State.pwrReg (s : State) (o : Nat) : Nat :=
  let p := s.pwr.pace
  if o == 0x00 then
    fieldsOf [(48, p.vdd), (32, p.targetMv), (16, p.moves), (7, bit p.avsFailed), (6, bit p.hold), (5, bit p.moving),
      (4, bit (p.high == 0)), (2, p.target), (0, p.point)]
  else if o == 0x08 then p.high.toNat
  else if o == 0x10 then fieldsOf ((32, s.boot.cfg.tWarn) :: (List.range 4).map (fun q => (8 * q, (s.quad q).temp)))
  else if 0x100 ≤ o ∧ o < 0x100 + 0x60 * 41 then s.domReg ((o - 0x100) / 0x60) ((o - 0x100) % 0x60)
  else 0

/-- CRN_ on the PF0 of a link (R633). -/
def State.crnReg (s : State) (l o : Nat) : Nat :=
  let held (guest : Bool) : Nat := (s.trust.band.filter (fun e => e.2.valid && decide (1024 ≤ e.1) == guest)).length
  if o == 0x00 then
    fieldsOf [(48, s.trust.healthFails), (32, s.trust.reseeds), (16, ((s.link l).sessions.filter Session.established).length),
      (1, bit s.trust.entropyFailed), (0, bit s.trust.drbgReady)]
  else if o == 0x08 then fieldsOf [(16, held true), (0, held false)]
  else 0

/-- IMG_ (R564); the recovery registers exist only in Blank. -/
def State.imgReg (s : State) (o : Nat) : Nat :=
  let b := s.boot
  let blank := s.sys.mode == .blank
  if o == 0x00 then fieldsOf [(32, if blank then 0 else b.cfg.version), (24, b.step), (22, b.copy)]
  else if o == 0x08 then fieldsOf [(16, b.resultA), (0, b.resultB)]
  else if o == 0x10 then fieldsOf [(32, b.mram.patternFloor), (16, b.mram.ucodeFloor)]
  else if o == 0x18 then b.mram.coldResets % 2 ^ 32
  else if !blank then 0
  else if o == 0x108 then b.rcvAddr
  else if o == 0x110 then fieldsOf [(31, bit b.rcvBusy), (30, bit b.rcvDone), (0, b.rcvCode)]
  else if 0x1000 ≤ o then leNat (Memory.readAll 0 b.rcvBuf (o - 0x1000) 8)
  else 0

/-- FLT_SUMMARY (R514, R537). -/
def State.fltSummary (s : State) : Nat :=
  ((s.flt.details.filter (fun e => e.2.valid && decide (e.1 < 64))).map (fun e => 2 ^ e.1)).sum

/-- FLT_ (R537). -/
def State.fltReg (s : State) (o : Nat) : Nat :=
  let c := s.boot.cfg
  let log := s.boot.mram.log.map Prod.snd
  if o == 0x00 then s.fltSummary
  else if o == 0x08 then fieldsOf [(16, s.sys.cause), (7, bit s.anyFence), (0, s.sys.mode.code)]
  else if o == 0x10 then
    fieldsOf [(52, c.leak), (46, c.quiet), (40, c.retireThresh), (32, c.wireThresh), (24, c.hostLaneThresh)]
  else if o == 0x18 then
    fieldsOf [(48, (log.filter (fun r => r.state == 0)).length % 65536), (32, (log.filter (fun r => r.state == 1)).length % 65536),
      (16, log.length), (8, s.flt.unrecorded), (0, bit (decide (retireMax ≤ log.length) && log.all (fun r => r.kind != 12)))]
  else if 0x100 ≤ o ∧ o < 0x900 then
    let x := s.flt.details.get {} ((o - 0x100) / 0x20)
    match o % 0x20 with
    | 0x00 => fieldsOf [(48, x.code), (46, x.severity), (34, x.unit), (33, bit x.valid), (0, x.element % 2 ^ 32)]
    | 0x08 => x.time
    | 0x10 => fieldsOf [(48, x.fatal), (32, x.contained), (0, x.corrected)]
    | _ => 0
  else if 0x1000 ≤ o ∧ o < 0x3000 then
    let u := (o - 0x1000) / 8
    let x := s.unitFlt u
    if unitCarried u then fieldsOf [(48, x.code), (32, x.recoveries), (24, x.quiet), (16, x.bucket), (0, x.state)] else 0
  else 0

/-- POL_ (R178). -/
def State.polReg (s : State) (o : Nat) : Nat :=
  let c := s.boot.cfg
  if o == 0x00 then
    pair32 (fieldsOf [(24, s.treeTop false), (0, s.pages)])
      (fieldsOf [(20, c.rate), (19, bit c.mrdimm), (18, bit c.mirror), (16, c.dimmSize), (0, c.channels.toNat)])
  else if o == 0x08 then s.pool.genExhausted
  else if 0x1000 ≤ o ∧ o < 0x3000 then
    let g := (o - 0x1000) / 8
    pair32 (s.occupancy g) (s.glove g).share
  else 0

/-- WVE_ (R276, R282). -/
def State.wveReg (s : State) (o : Nat) : Nat :=
  let strand (base : Nat) : Option KnotOut :=
    let k := (o - base) / 32
    let p := o / 8 % 4
    if base ≤ o ∧ o < base + 32 * 120 ∧ (knotNext k p).isSome then some (s.net.knotOut.get {} (k * 5 + p)) else none
  if o < 0x20 then
    let x := s.quad (o / 8)
    fieldsOf [(40, x.min), (28, s.boot.cfg.lowThresh), (27, bit x.alarm), (12, x.avg), (0, x.cur)]
  else if o == 0x20 then s.net.window
  else if o == 0x28 then s.boot.cfg.weaveLimit
  else if 0x40 ≤ o ∧ o < 0x60 then
    let x := s.quad ((o - 0x40) / 8)
    fieldsOf [(32, x.held), (16, x.overflows), (0, x.peak)]
  else match strand 0x1000, strand 0x2000 with
    | some x, _ => pair32 x.winHs x.winWaits
    | none, some x => fieldsOf [(32, x.corrected), (8, x.spares.toNat)]
    | none, none => 0

/-- WIN_ on the PF0 of a link (R182, R195, R213). -/
def State.winReg (s : State) (l o : Nat) : Nat :=
  if o == 0x00 then (s.link l).unitBase * 16
  else if 0x1000 ≤ o ∧ o < 0x3000 then
    let g := (o - 0x1000) / 8
    if s.ptBytes g == 0 then 0 else s.ptBase g
  else if 0x4000 ≤ o ∧ o < 0xC000 then s.winRecord ((o - 0x4000) / 32) (o % 32)
  else 0

/-! ### Reading and writing BAR0 -/

/-- The unit that holds the instance at a BAR0 offset, where one does (R185, R663). -/
def holder (s : State) (f : FnId) (off : Nat) : Option Nat :=
  let que := if f.fn == 0 then 0x3000 ≤ off ∧ off < 0x4000 else 0x2000 ≤ off ∧ off < 0x4000
  if que then some (queueUnit (linkQuad f.link))
  else if 0x4000 ≤ off ∧ off < 0x5000 then
    if off < 0x4800 then (s.finger ⟨f.link, f.fn, (off - 0x4000) / 0x80⟩).engine else some (queueUnit (linkQuad f.link))
  else if f.fn == 0 ∧ 0x6000 ≤ off ∧ off < 0x6400 then some (cuffUnit ((off - 0x6000) / 0x80))
  else if f.fn == 0 ∧ 0x6800 ≤ off ∧ off < 0x6840 then some (cuffUnit ((off - 0x6800) / 8))
  else if f.fn == 0 ∧ 0x7000 ≤ off ∧ off < 0x7200 then some (borderUnit ((off - 0x7000) / 0x40))
  else none

/-- The 8-byte unit at an aligned BAR0 offset of PF0 (R625, R626, R629). -/
def State.readPf (s : State) (f : FnId) (off : Nat) : Nat :=
  let blank := s.sys.mode == .blank
  if off < 0x1000 then s.identity f off
  else if off < 0x2000 then (s.fn f).fnReg (off - 0x1000)
  else if blank then if 0xC000 ≤ off ∧ off < 0xE000 then s.imgReg (off - 0xC000) else 0
  else if off < 0x3000 then
    let g := (off - 0x2000) / 4
    pair32 (s.glvState (g + 1)) (s.glvState g)
  else if off < 0x4000 then if off < 0x3040 then s.queReg ⟨f.link, 0, 0⟩ (off - 0x3000) else 0
  else if off < 0x5000 then s.fngBlock f (off - 0x4000)
  else if off < 0x6000 then s.usgReg f (off - 0x5000)
  else if off < 0x7000 then s.cufReg (off - 0x6000)
  else if off < 0x8000 then s.brdReg (off - 0x7000)
  else if off < 0xA000 then s.pwrReg (off - 0x8000)
  else if off < 0xC000 then s.crnReg f.link (off - 0xA000)
  else if off < 0xE000 then s.imgReg (off - 0xC000)
  else if off < 0x10000 then s.evtReg f (off - 0xE000)
  else if off < 0x14000 then s.fltReg (off - 0x10000)
  else if off < 0x18000 then s.polReg (off - 0x14000)
  else if off < 0x1C000 then s.wveReg (off - 0x18000)
  else if 0x20000 ≤ off ∧ off < 0x30000 then s.winReg f.link (off - 0x20000)
  else if 0x1000000 ≤ off ∧ off < 0x1008000 then s.msixReg f (off - 0x1000000)
  else if 0x1008000 ≤ off ∧ off < 0x1008100 then s.pbaReg f (off - 0x1008000)
  else 0

/-- The 8-byte unit at an aligned BAR0 offset of a glove VF (R628, R629). -/
def State.readVf (s : State) (f : FnId) (off : Nat) : Nat :=
  let g := s.gloveOf f
  if off < 0x1000 then s.identity f off
  else if off < 0x1400 then (s.fn f).fnReg (off - 0x1000)
  else if off < 0x1800 then if off == 0x1400 then s.glvState g else 0
  else if off < 0x2000 then if off < 0x1820 then s.winRecord g (off - 0x1800) else 0
  else if off < 0x4000 then
    let q := (off - 0x2000) / 0x40
    if q ≤ 64 ∧ q ≤ (s.glove g).queueLimit then s.queReg ⟨f.link, f.fn, q⟩ (off % 0x40) else 0
  else if off < 0x5000 then s.fngBlock f (off - 0x4000)
  else if off < 0x6000 then s.usgReg f (off - 0x5000)
  else if off < 0x7000 then s.evtReg f (off - 0x6000)
  else if 0xF0000 ≤ off ∧ off < 0xF0400 then s.msixReg f (off - 0xF0000)
  else if off == 0xF0800 then s.pbaReg f 0
  else 0

/-- The 8-byte unit at an aligned BAR0 offset, as it stands. -/
def State.readUnit (s : State) (f : FnId) (off : Nat) : Nat := if f.fn == 0 then s.readPf f off else s.readVf f off

/-- Instances that a fenced unit holds read 0, and FN_REJECT says so (R663). -/
def State.fencedHolder (s : State) (f : FnId) (off : Nat) : Option Nat :=
  match holder s f off with
  | some u => if s.sys.mode != .blank && s.fenced u then some u else none
  | none => none

/-- Read the aligned 8-byte unit at `off`, for an access at `at'`. -/
def State.readReg (s : State) (f : FnId) (off at' : Nat) : Nat × State :=
  match s.fencedHolder f off with
  | some u => (0, s.reject f (fenceCode u) 1 at')
  | none => (s.readUnit f off, s)

/-- The state a command leaves. -/
def after (r : Result) (s : State) : State :=
  match r with
  | .next t => t
  | _ => s

/-- A write to a QUE_ instance (R365, R370, R371, R351). -/
def State.writeQue (s : State) (q : QId) (o off w en : Nat) : State :=
  let x := s.queue q
  let bad : State := s.reject q.fnId 0x0002 1 off
  match o with
  | 0x00 =>
    if q.q != 0 || x.enable then bad else s.modQueue q (fun x => { x with ring := merge8 x.ring w en / 4096 * 4096 })
  | 0x08 =>
    if q.q != 0 || x.enable then bad else s.modQueue q (fun x => { x with headAddr := merge8 x.headAddr w en / 4 * 4 })
  | 0x10 =>
    if !lowOn en then s
    else if q.q != 0 then bad
    else s.writeQueConfig q.fnId (BitVec.ofNat 32 (merge8 (s.queReg q 0x10) w en))
  | 0x18 => if lowOn en then after (execDoorbell q (BitVec.ofNat 32 (merge8 0 w en)) s) s else s
  | _ => s

/-- A write to the MSI-X table (R340, R499). -/
def State.writeMsix (s : State) (f : FnId) (o w en : Nat) : State :=
  let v := merge8 (s.msixReg f o) w en
  s.modFn f (fun x => { x with msix := x.msix.mod {} (o / 16) (fun e =>
    if o % 16 == 0 then { e with addr := BitVec.ofNat 64 v }
    else { e with data := BitVec.ofNat 32 v, mask := bitAt v 32 }) })

/-- A write to EVT_ (R511). -/
def State.writeEvt (s : State) (f : FnId) (o w en : Nat) : State :=
  let groups := if f.fn == 0 then 256 else 8
  let hold (g on v : Nat) (s : State) : State :=
    if on == 0 then s else s.modGroup f g (fun x => { x with holdoff := v % 1024 })
  if o == 0x00 then s.modFn f (fun x => { x with cause := x.cause &&& ~~~ BitVec.ofNat 7 (merge8 0 w en) })
  else if 0x100 ≤ o ∧ o < 0x100 + 4 * groups then
    let v := merge8 (s.evtReg f o) w en
    let g := (o - 0x100) / 4
    hold (g + 1) (en / 16) (v / 2 ^ 32) (hold g (en % 16) v s)
  else s

/-- The recovery operation that a value of IMG_RCV_CMD spells (R562). -/
def State.rcvCommand (s : State) (f : FnId) (v : Nat) : State :=
  let len := bits v 12 0
  let run (r : State → Result) : State := after (r s) s
  match bits v 31 28 with
  | 0 => s
  | 1 => run (execRecoveryRead f len)
  | 2 => run (execRecoveryErase f)
  | 3 => run (execRecoveryProgram f len)
  | 4 => run (execRecoveryVerify f (bitAt v 27) s.boot.board)
  | 5 => run (execFuseSigner f)
  | n => s.recoveryOp f n len false 0x0002 id

/-- A write to IMG_ in Blank (R562, R564). -/
def State.writeImg (s : State) (f : FnId) (o w en : Nat) : State :=
  if s.sys.mode != .blank then s
  else if o == 0x100 then if lowOn en then s.rcvCommand f (merge8 0 w en) else s
  else if o == 0x108 then { s with boot.rcvAddr := merge8 s.boot.rcvAddr w (en % 16) % 2 ^ 32 }
  else if o == 0x110 then if bitAt (merge8 0 w en) 30 then { s with boot.rcvDone := false } else s
  else if 0x1000 ≤ o ∧ o < 0x2000 then
    { s with boot.rcvBuf := Memory.writeAll 0 s.boot.rcvBuf (o - 0x1000) (leBytes 8 (merge8 (s.imgReg o) w en)) }
  else s

/-- A write to FLT_ (R531, R537). -/
def State.writeFlt (s : State) (f : FnId) (o w en : Nat) : State :=
  let v := merge8 0 w en
  if o == 0x20 then
    if !lowOn en then s
    else if bitAt v 30 then after (execRetireClearCancel f (bitAt v 31) (bits v 14 0) s) s
    else after (execRetireClear f (bitAt v 31) (bits v 14 0) s) s
  else if 0x100 ≤ o ∧ o < 0x900 ∧ o % 0x20 == 0 ∧ bitAt v 33 then
    { s with flt.details := s.flt.details.set ((o - 0x100) / 0x20) {} }
  else s

/-- A write to WVE_ (R276). -/
def State.writeWve (s : State) (f : FnId) (o w en : Nat) : State :=
  let v := merge8 0 w en
  if o < 0x20 ∧ bitAt v 27 then after (execWvePaceAlarmClear (o / 8) s) s
  else if o == 0x20 ∧ lowOn en then
    let n := bits (merge8 s.net.window w en) 16 0
    if n < 100 ∨ 100000 < n then s.reject f 0x0003 1 0x18020 else { s with net.window := n }
  else s

/-- A write to the 8-byte unit at an aligned BAR0 offset, whatever holds it (R7, R8). -/
def State.writeOpen (s : State) (f : FnId) (off w en : Nat) : State :=
  let pf := f.fn == 0
  if off == 0x1018 then
    if bitAt (merge8 0 w en) 31 then
      s.modFn f (fun x => { x with errAddr := 0, errCode := 0, errCount := 0, errValid := false, errKind := 0, errSpace := 0,
                                   errFn := 0, errLink := 0, errGlove := 0 })
    else s
  else if s.sys.mode == .blank then if 0xC000 ≤ off ∧ off < 0xE000 then s.writeImg f (off - 0xC000) w en else s
  else if pf ∧ 0x3000 ≤ off ∧ off < 0x3040 then s.writeQue ⟨f.link, 0, 0⟩ (off - 0x3000) off w en
  else if !pf ∧ 0x2000 ≤ off ∧ off < 0x2000 + 0x40 * 65 then
    s.writeQue ⟨f.link, f.fn, (off - 0x2000) / 0x40⟩ (off % 0x40) off w en
  else if off == 0x4800 then after (execFngEventsSet f (BitVec.ofNat 32 (merge8 0 w en)) s) s
  else if off == 0x4808 then after (execFngEventClr f (BitVec.ofNat 32 (merge8 0 w en)) s) s
  else if pf ∧ off == 0x5000 then
    after (execUsgAnchorWrite f (BitVec.ofNat 64 (merge8 s.usg.anchor.toNat w en)) s) s
  else if pf ∧ 0xE000 ≤ off ∧ off < 0x10000 then s.writeEvt f (off - 0xE000) w en
  else if !pf ∧ 0x6000 ≤ off ∧ off < 0x7000 then s.writeEvt f (off - 0x6000) w en
  else if pf ∧ 0x10000 ≤ off ∧ off < 0x14000 then s.writeFlt f (off - 0x10000) w en
  else if pf ∧ 0x18000 ≤ off ∧ off < 0x1C000 then s.writeWve f (off - 0x18000) w en
  else if pf ∧ off == 0x20000 then
    s.modLink f.link (fun x => { x with unitBase := bits (merge8 (x.unitBase * 16) w en) 9 4 })
  else if pf ∧ 0x1000000 ≤ off ∧ off < 0x1008000 then s.writeMsix f (off - 0x1000000) w en
  else if !pf ∧ 0xF0000 ≤ off ∧ off < 0xF0400 then s.writeMsix f (off - 0xF0000) w en
  else s

/-- Write the enabled bytes of an aligned 8-byte unit of BAR0 (R7, R8, R303). Instances of a fenced unit take no write: the knot
discards it and counts it in the Weave class (R521, R663). -/
def State.writeUnit (s : State) (f : FnId) (off w en : Nat) : State :=
  match s.fencedHolder f off with
  | some u => s.contained 1 0x0702 u 0 none
  | none => s.writeOpen f off w en

/-! ### Unit blocks (R182, R183, R631, R632) -/

/-- The offset of PF0's unit register window (R182). -/
def windowBase : Nat := 0x2000000
def windowSize : Nat := 0x1000000

/-- The code with which an operator access to a unit ID is refused (R183, R632). -/
def unitRefusal (u : Nat) : Option Nat :=
  if !unitCarried u then some 0x0004 else if unitKind u == 8 || unitKind u == 9 then some 0x030A else none

/-- A WVE_USTAT or WVE_GSTAT record (R281). -/
def Stat.reg (x : Stat) (o : Nat) : Nat :=
  match o with
  | 0x00 => x.rdPool
  | 0x08 => x.wrPool
  | 0x10 => x.rdHost
  | 0x18 => x.wrHost
  | 0x20 => x.rdOther
  | 0x28 => x.wrOther
  | 0x30 => x.requests
  | 0x38 => x.errors
  | 0xC0 => x.latSum
  | _ => if 0x40 ≤ o ∧ o < 0xC0 then x.hist.get 0 ((o - 0x40) / 8) else 0

/-- The SEA_ registers of a DDR gate (R178). -/
def State.seaReg (s : State) (ch o : Nat) : Nat :=
  let x := s.gate ch
  let c := s.boot.cfg
  match o with
  | 0x00 =>
    let st := if !c.channels.getLsbD ch then 0 else if x.retired then 3 else if x.suspect then 2 else 1
    let role := if !c.mirror || st == 0 then 0 else if (s.gate (partner ch)).retired then 2 else 1
    fieldsOf [(30, st), (28, role), (27, bit (s.scrubLate (13 + ch))), (13, x.spares.length), (8, x.integ), (3, x.ue)]
  | 0x08 => fieldsOf [(48, x.failCode), (37, x.failSlot), (0, x.failLine % 2 ^ 36)]
  | 0x10 => fieldsOf [(31, bit x.failValid), (0, x.failCount)]
  | 0x18 => x.reencCount
  | _ => 0

/-- The 8-byte unit at an aligned offset of a unit block (R631). -/
def State.readBlock (s : State) (u off : Nat) : Nat :=
  if 0xFFF00 ≤ off then (s.net.ustat.get {} u).reg (off - 0xFFF00)
  else if unitKind u == 1 ∧ off < 0x20 then s.seaReg (4 * unitQuad u + unitIdx u) off
  else if unitKind u == 5 ∧ 0x80000 ≤ off ∧ off < 0xC0000 then
    (s.net.gstat.get {} (unitQuad u * 1024 + (off - 0x80000) / 0x100)).reg (off % 0x100)
  else 0

/-- A write to a unit block: SEA_FAIL_COUNT.VALID is the one writable field (R178). -/
def State.writeBlock (s : State) (u off w en : Nat) : State :=
  if unitKind u == 1 ∧ off == 0x10 ∧ bitAt (merge8 0 w en) 31 then
    s.modGate (4 * unitQuad u + unitIdx u) (fun x =>
      { x with failValid := false, failCount := 0, failCode := 0, failSlot := 0, failLine := 0 })
  else s

/-- A register packet through the window to unit `u` (R182). -/
def State.windowPacket (s : State) (l u off len : Nat) (op : POp) (data : List Line) (fbe : BitVec 64) : Packet :=
  let me := cuffUnit (l / 2)
  let n := if off % 8 / 4 == (off + len - 1) % 8 / 4 then 4 else 8
  { op := op, vc := op.vc 0, dest := u, destKnot := unitKnot u, initUnit := me, initKnot := s.cuffKnot l u,
    addr := 0x300000000000 + u * 0x100000 + off / n * n, len := n, world := 1, firstBE := fbe, lastBE := fbe, data := data }

/-! ### BAR0 writes -/

/-- A TDI in ERROR shows only its identity table and GLV_STATE (R97). -/
def State.tdiHides (s : State) (f : FnId) (off : Nat) : Bool :=
  s.tdiShut f && !(decide (off < 0x1000) || (decide (0x1400 ≤ off) && decide (off < 0x1404)))

/-- R303: an access of 1 to 8 bytes within one aligned 8-byte unit. -/
def bar0Shape (off n : Nat) : Bool := decide (1 ≤ n) && decide (n ≤ 8) && off / 8 == (off + n - 1) / 8

/-- A BAR0 write: `data` holds the bytes from `off` on, `unitBase` is WIN_UNIT_BASE at its decode point (R183, R303). -/
def State.writeBar0 (s : State) (f : FnId) (unitBase off : Nat) (data : List (Option Byte)) : State :=
  let n := data.length
  let base := off / 8 * 8
  let w := (leNat (data.map (fun b => b.getD 0))) * 2 ^ (8 * (off % 8))
  let en := ((data.zipIdx.filter (fun e => e.1.isSome)).map (fun e => 2 ^ (off % 8 + e.2))).sum
  if s.tdiHides f off then s
  else if !bar0Shape off n then s.reject f 0x0002 1 off
  else if f.fn == 0 ∧ windowBase ≤ off ∧ off < windowBase + windowSize then
    if s.sys.mode == .blank then s
    else
      let u := unitBase * 16 + (off - windowBase) / 0x100000
      match unitRefusal u with
      | some c => s.reject f c 1 off
      | none =>
        s.inject (s.windowPacket f.link u (off % 0x100000) n .regWr (packLines off (data.map (fun b => b.getD 0)))
          (enablesOf off data (off / 64)))
  else if en == 0 then s
  else s.writeUnit f base w en

/-! ### Configuration fields without a row of their own -/

/-- Write a configuration field (R8, R87, R294, R313, R324, R341, R342, R506). A Max_Payload_Size, Max_Read_Request_Size, Read
Completion Boundary or tag value outside the limits of R294 leaves the field as it was and records nothing (DESIGN CHOICE, log entry
120). A 1 written to an AER status bit clears it, and the header log with the error it belongs to (PRESUMED, log entry 15). -/
def State.writeCfg (s : State) (f : FnId) (field : CfgField) (v : Nat) : State :=
  let on := v % 2 == 1
  match field with
  | .mse => s.modFn f (fun x => { x with mse := on })
  | .vfMse => s.modLink f.link (fun x => { x with vfMse := on })
  | .msixEnable => s.modFn f (fun x => { x with msixEnable := on })
  | .pmeEn => (s.modFn f (fun x => { x with pmeEn := on })).wakeUpdate f.link
  | .pmeStatus => if on then (s.modFn f (fun x => { x with pmeStatus := false })).wakeUpdate f.link else s
  | .mps => if [128, 256, 512].contains v then s.modFn f (fun x => { x with mps := v }) else s
  | .mrrs => if [128, 256, 512, 1024, 2048, 4096].contains v then s.modFn f (fun x => { x with mrrs := v }) else s
  | .rcb => if v == 64 || v == 128 then s.modFn f (fun x => { x with rcb := v }) else s
  | .tags => if v == 8 || v == 10 || (v == 14 && (s.link f.link).flit) then s.modFn f (fun x => { x with tags := v }) else s
  | .ctv => s.modFn f (fun x => { x with ctv := v % 16 })
  | .aerStatus e =>
    if on then
      s.modFn f (fun x =>
        { x with aer := x.aer.filter (· != e), aerHead := if (x.aerHead.map Prod.fst) == some e then none else x.aerHead })
    else s
  | .aerMask e => s.modFn f (fun x => { x with aerMask := if on then withElem e x.aerMask else x.aerMask.filter (· != e) })
  | .aerSeverity e => s.modFn f (fun x => { x with aerFatal := if on then withElem e x.aerFatal else x.aerFatal.filter (· != e) })
  | .reserved => s
  | .ideStream block id =>
    s.modLink f.link (fun x =>
      if on then
        if x.ide.any (fun i => i.id == id || i.block == block) then x else { x with ide := x.ide ++ [{ id := id, block := block }] }
      else { x with ide := x.ide.filter (fun i => !(i.id == id && i.block == block)) })
  | .ideRid block lo hi => s.modLink f.link (fun x => { x with ideRids := if on then x.ideRids.set block (lo, hi) else x.ideRids.del block })
  | .ideAddr block i base limit =>
    s.modLink f.link (fun x =>
      { x with ideAddrs := if on then x.ideAddrs.set (2 * block + i) (base, limit) else x.ideAddrs.del (2 * block + i) })

/-- A field that only PF0 has. -/
def CfgField.ofPf : CfgField → Bool
  | .vfMse => true
  | .ideStream _ _ => true
  | .ideRid _ _ _ => true
  | .ideAddr _ _ _ _ => true
  | _ => false


/-- REGISTER_WRITE: a register or configuration write that has no row of its own (R7, R8, R303). -/
def execRegisterWrite (f : FnId) (t : RegTarget) (s : State) : Result :=
  .next (match t with
    | .bar0 off data => if s.memOn f then s.writeBar0 f (s.link f.link).unitBase off data else s
    | .cfg field v => if !s.cfgOpen f || (CfgField.ofPf field && f.fn != 0) then s else s.writeCfg f field v)

end Sys2Proof.Machine
end

