-- ==== Sys2Proof/Machine/HostPort.lean ====
section
/-! DEFINITION. Requests received from the hosts: BAR decode, BAR0 and BAR2 accesses, acknowledged-before-visible order, AtomicOps
and the completions of host requests (R303-R308, R314-R323, R342). -/

namespace Sys2Proof

/-- Pieces of the range [a, a + n) of at most eight lines that stay within 4 KiB (R308). -/
def writePieces : Nat → Nat → Nat → List (Nat × Nat)
  | 0, _, _ => []
  | k + 1, a, n =>
    if n == 0 then []
    else
      let d := min n (min (512 - a % 64) (4096 - a % 4096))
      (a, d) :: writePieces k (a + d) (n - d)

/-- Completions of a read of [a, a + n): at most `mps` bytes each, all but the last ending on a multiple of `rcb` (R307). -/
def cplPieces (mps rcb : Nat) : Nat → Nat → Nat → List (Nat × Nat)
  | 0, _, _ => []
  | k + 1, a, n =>
    let e := (a + mps) / rcb * rcb
    if n ≤ mps ∨ e ≤ a then [(a, n)] else (a, e - a) :: cplPieces mps rcb k e (n - (e - a))

/-- The value an AtomicOp leaves (R294): FetchAdd wraps at its size, Swap stores its operand, CAS stores it when the compare holds. -/
def HostAtomic.result (a : HostAtomic) (old : Nat) : Nat :=
  let m := 2 ^ (8 * a.size)
  match a.kind with
  | .fetchAdd => (old + a.operand.toNat) % m
  | .swap => a.operand.toNat % m
  | .cas => if old == a.compare.toNat % m then a.operand.toNat % m else old

/-- The sizes of R294. -/
def HostAtomic.sizeOk (a : HostAtomic) : Bool := a.size == 4 || a.size == 8 || (a.size == 16 && a.kind == .cas)

end Sys2Proof

namespace Sys2Proof.Machine

/-! ### BAR decode (R180, R184, R191, R304) -/

/-- The BAR that holds an address: the function, whether it is BAR2, and the offset. -/
def State.barHit (s : State) (l a : Nat) : Option (FnId × Bool × Nat) :=
  let x := s.link l
  let b0 := (s.fn ⟨l, 0⟩).bar0
  let vf (base size : Nat) : Option Nat :=
    if x.vfEnable && decide (base ≤ a) && decide ((a - base) / size < x.numVfs) then some ((a - base) / size + 1) else none
  if b0 ≤ a ∧ a < b0 + 0x4000000 then some (⟨l, 0⟩, false, a - b0)
  else match vf x.vfBar0 0x100000 with
    | some n => some (⟨l, n⟩, false, (a - x.vfBar0) % 0x100000)
    | none => (vf x.vfBar2 (s.span l)).map (fun n => (⟨l, n⟩, true, (a - x.vfBar2) % s.span l))


/-- Unsupported Request in a function's AER, and a UR completion (R304, R342). -/
def State.hostUr (s : State) (f : FnId) (t : TlpHead) : State :=
  (s.aerTlp f .unsupportedRequest t).emit (.cpl f.link t.tag .ur [] false)

/-- The header of a BAR2 read at a glove address: the function's BAR2 begins at its place in the VF BAR (R184). -/
def State.bar2Head (s : State) (f : FnId) (tag addr len : Nat) : TlpHead :=
  { kind := .read, tag := tag, addr := some ((s.link f.link).vfBar2 + (f.fn - 1) * s.span f.link + addr), len := len }

/-- The function that answers for a request that no function takes: its own, else PF0 (R342). -/
def State.urOwner (s : State) (l a : Nat) : FnId := ((s.barHit l a).map Prod.fst).getD ⟨l, 0⟩

/-- The BAR decode of a request; none when it ends with UR under R304. -/
def State.hostHit (s : State) (l a : Nat) : Option (FnId × Bool × Nat) :=
  match s.barHit l a with
  | some h => if s.memOn h.1 then some h else none
  | none => none

/-! ### Completions (R306, R307, R322, R323, R474) -/

/-- Send the data of a read in completions (R307). -/
def State.sendCpls (s : State) (f : FnId) (tag addr : Nat) (bs : List Byte) (ep : Bool) : State :=
  let x := s.fn f
  (cplPieces x.mps x.rcb (bs.length + 1) addr bs.length).foldl (fun s (a, n) =>
    s.emit (.cpl f.link tag .sc ((bs.drop (a - addr)).take n) ep)) s

/-- The data that accompany a failure without data (log entry 8). -/
def failedBytes (addr n : Nat) : List Byte :=
  (List.range n).map (fun i => lineByte (Config.failedLine ((addr + i) / 64)) ((addr + i) % 64))

/-- A code that ends a host request with data and EP set rather than UR (R159, R342). -/
def poisons (code : Nat) : Bool := decide (0x0200 ≤ code) && decide (code ≤ 0x0203)

/-- A host read ends (R306, R307, R159, R220, R474): `bs` are its bytes where data came back. -/
def State.hostReadDone (s : State) (f : FnId) (tag addr len code : Nat) (ep : Bool) (bs : Option (List Byte)) : State :=
  match bs with
  | some d => if code == 0 || poisons code || ep then s.sendCpls f tag addr (if len == 0 then [] else d) (ep || code != 0)
    else s.hostUr f (s.bar2Head f tag addr len)
  | none =>
    if code == 0 then s.sendCpls f tag addr [] ep
    else if poisons code then s.sendCpls f tag addr (failedBytes addr len) true
    else s.hostUr f (s.bar2Head f tag addr len)

/-! ### Writes to BAR2 (R305, R308, R210, R337) -/

/-- The Cuff's packet of a glove's request, before its target is known. -/
def State.glovePacket (s : State) (f : FnId) (g : Nat) (op : POp) (addr len : Nat) : Packet :=
  let u := cuffUnit (f.link / 2)
  { op := op, vc := op.vc 0, initUnit := u, initKnot := unitKnot u, addr := addr, len := len, world := 0, gloveValid := true,
    glove := g, home := s.boot.cfg.pos, epoch := (s.glove g).epoch % 2 == 1, ackReq := op.cls == 0,
    prefetch := op == .memRd || op == .zlRd }

/-- Send a checked piece by its route: host space through a window, or a device physical address (R217). -/
def State.sendGlove (s : State) (f : FnId) (ctx : Bool → ReqCtx) (p : Packet) (r : Route) (off g : Nat) : State :=
  match r with
  | .window slot l n _ host =>
    s.sendHost (ctx true) { p with initKnot := s.cuffKnot f.link (cuffUnit (l / 2)) } l n (host + off) (some g) (some slot)
  | .dev a => s.sendDev f.link (ctx false) { p with addr := a + off } (some g)
  | _ => s

/-- The glove's BAR2 is served (R305, R96). -/
def State.bar2Open (s : State) (g : Nat) : Bool :=
  let x := s.glove g
  x.state == .opened && (!x.tdisp || x.tdi == .run)

/-- A posted write to BAR2 is checked and sent, or discarded whole. -/
def State.writeBar2 (s : State) (f : FnId) (off : Nat) (w : HostWrite) : State :=
  let data := w.data
  let g := s.gloveOf f
  let u := cuffUnit (f.link / 2)
  if data.isEmpty then s
  else if !s.bar2Open g then s.aerTlp f .unsupportedRequest (writeHead w)
  else
    let c : Check := { glove := g, world := 0, addr := off, len := data.length, rd := false, wr := true }
    match s.check u f.link c with
    | (.fault code l, s) => (s.reportFault c u code l).aerTlp f .unsupportedRequest (writeHead w)
    | (.failed code, s) => s.farSide f code 0 off f.fn f.link g u
    | (r, s) =>
      let wr := s.net.nextPkt
      (writePieces (data.length + 1) off data.length).foldl (fun s (a, n) =>
        let bs := (data.drop (a - off)).take n
        let p := { s.glovePacket f g .memWr 0 n with
          firstBE := enablesOf a bs (a / 64), lastBE := enablesOf a bs ((a + n - 1) / 64),
          data := packLines a (bs.map (fun b => b.getD 0)) }
        s.sendGlove f (fun peer => .hostWrite f.link f.fn g a peer wr) p r (a - off) g) s

/-! ### Reads -/

/-- A read of BAR2 is checked and sent (R306, R209, R210); a zero-length one accesses no pool line, and goes through a window as a
ZL_RD (R209, R312). -/
def State.readBar2 (s : State) (f : FnId) (off : Nat) (r : HostRead) : State :=
  let g := s.gloveOf f
  let u := cuffUnit (f.link / 2)
  if !s.bar2Open g then s.hostUr f (readHead r)
  else
    let c : Check := { glove := g, world := 0, addr := off, len := r.len, rd := true, wr := false }
    match s.check u f.link c with
    | (.fault code l, s) => (s.reportFault c u code l).hostUr f (readHead r)
    | (.failed code, s) => (s.errLog f 2 code 0 off f.fn f.link g).hostReadDone f r.tag off r.len code true none
    | (.dev a, s) =>
      if r.len == 0 then s.hostReadDone f r.tag off 0 0 false none
      else s.sendGlove f (fun _ => .hostRead f.link f.fn r.tag g off r.len) (s.glovePacket f g .memRd 0 r.len) (.dev a) 0 g
    | (rt, s) =>
      s.sendGlove f (fun _ => .hostRead f.link f.fn r.tag g off r.len) (s.glovePacket f g (if r.len == 0 then .zlRd else .memRd) 0 r.len)
        rt 0 g

/-- A read of BAR0, with WIN_UNIT_BASE at its decode point (R97, R182, R183, R303). -/
def State.readBar0 (s : State) (f : FnId) (unitBase off : Nat) (r : HostRead) : State :=
  let zero : List Byte := List.replicate r.len 0
  if s.tdiHides f off then s.hostUr f (readHead r)
  else if !bar0Shape off r.len then (s.reject f 0x0002 1 off).hostUr f (readHead r)
  else if f.fn == 0 ∧ windowBase ≤ off ∧ off < windowBase + windowSize then
    if s.sys.mode == .blank then s.emit (.cpl f.link r.tag .sc zero false)
    else
      let u := unitBase * 16 + (off - windowBase) / 0x100000
      match unitRefusal u with
      | some c => (s.reject f c 1 off).emit (.cpl f.link r.tag .sc zero false)
      | none =>
        s.request (.unitRead f.link 0 r.tag off r.len)
          (s.windowPacket f.link u (off % 0x100000) r.len .regRd [] (BitVec.ofNat 64 (2 ^ (off % 64 + r.len) - 2 ^ (off % 64)))) none
  else
    let (v, s) := s.readReg f (off / 8 * 8) off
    s.emit (.cpl f.link r.tag .sc ((leBytes 8 v).drop (off % 8) |>.take r.len) false)

/-- A register read through the window returns: `bs` are the bytes of the packet's 4 or 8 (R183, R663). -/
def State.unitReadDone (s : State) (l tag off len code : Nat) (bs : List Byte) : State :=
  if code == 0 then s.emit (.cpl l tag .sc ((bs.drop (off % max 1 bs.length)).take len) false)
  else (s.reject ⟨l, 0⟩ code 1 off).emit (.cpl l tag .sc (List.replicate len 0) false)

/-! ### AtomicOps (R319-R323) -/

/-- Line-lock entries of a link, and those in use (R320). -/
def State.lockLimit (s : State) (l : Nat) : Nat := if s.twoX8 (l / 2) then 32 else 64
def Cuff.usedBy (x : Cuff) (l : Nat) : Nat := (x.locks.filter (fun k => k.sent && k.atomic.link == l)).length

/-- The operation's device physical address. -/
def Lock.addr (k : Lock) : Nat := 64 * k.line + k.atomic.addr % 64

/-- The Cuff's packet for a lock. -/
def State.lockPacket (s : State) (k : Lock) (op : POp) : Packet :=
  let p := s.glovePacket ⟨k.atomic.link, k.vf⟩ k.glove op k.addr k.atomic.size
  { p with data := [] }

/-- Waiting AtomicOps take entries in the order received: a line that has an entry, or a full table, makes one wait (R321). -/
def State.pumpLocks (s : State) (c : Nat) : State :=
  ((s.cuff c).locks.zipIdx).foldl (fun s (_, i) =>
    let ks := (s.cuff c).locks
    match ks[i]? with
    | none => s
    | some k =>
      if k.sent || (ks.take i).any (fun e => e.line == k.line) || decide (s.lockLimit k.atomic.link ≤ (s.cuff c).usedBy k.atomic.link)
      then s
      else
        let s := s.modCuff c (fun x => { x with locks := x.locks.set i { k with sent := true } })
        let s := s.modCuff c (fun x => { x with peak := max x.peak x.inUse })
        s.sendDev k.atomic.link (.atomicRead c k.line) (s.lockPacket k .memRdLock) (some k.glove)) s

/-- The entry in use for a line. -/
def Cuff.lockOf (x : Cuff) (line : Nat) : Option Lock := x.locks.find? (fun k => k.sent && k.line == line)

/-- Change the entry of a line. -/
def State.modLock (s : State) (c line : Nat) (m : Lock → Lock) : State :=
  s.modCuff c (fun x => { x with locks := x.locks.map (fun k => if k.sent && k.line == line then m k else k) })

/-- An AtomicOp ends: its entry is freed and the next one is served. `cpl` sends its completion unless that is dropped. -/
def State.endLock (s : State) (c : Nat) (k : Lock) (cpl : State → State) : State :=
  let s := s.modCuff c (fun x => { x with locks := eraseFirst (fun e => e.sent && e.line == k.line) x.locks })
  (if k.dropped then s else cpl s).pumpLocks c

/-- The original value as bytes. -/
def Lock.origBytes (k : Lock) : List Byte := leBytes k.atomic.size ((k.orig.map BitVec.toNat).getD 0)

/-- Send the unlock of a lock (R320 step 4). -/
def State.sendUnlock (s : State) (c : Nat) (k : Lock) (v : Option Nat) : State :=
  let s := s.modLock c k.line (fun e => { e with writes := v.isSome })
  match v with
  | some n =>
    let bs := leBytes k.atomic.size n
    let be := enablesOf k.addr (bs.map some) k.line
    s.sendDev k.atomic.link (.atomicUnlock c k.line)
      { s.lockPacket k .memWrUnlock with data := packLines k.addr bs, firstBE := be, lastBE := be } (some k.glove)
  | none => s.sendDev k.atomic.link (.atomicUnlock c k.line) (s.lockPacket k .unlock) (some k.glove)

/-- The locked line returns, or its MEM_RD_LOCK fails (R320 step 3, R323, R54). -/
def State.atomicData (s : State) (c line code : Nat) (ep : Bool) (d : Option Line) : State :=
  match (s.cuff c).lockOf line with
  | none => s
  | some k =>
    let f : FnId := ⟨k.atomic.link, k.vf⟩
    match d with
    | some l =>
      let old := leNat ((List.range k.atomic.size).map (fun i => lineByte l (k.addr % 64 + i)))
      let new := k.atomic.result old
      let s := s.modLock c line (fun e => { e with orig := some (BitVec.ofNat 128 old), ep := ep })
      s.sendUnlock c k (if ep || k.closing || new == old then none else some new)
    | none =>
      s.endLock c k (fun s => if poisons code && !k.closing then
          s.sendCpls f k.atomic.tag k.atomic.addr (failedBytes k.addr k.atomic.size) true
        else s.hostUr f (atomicHead k.atomic))

/-- The gate's acknowledgement of the unlock (R320 step 5, R322). -/
def State.atomicDone (s : State) (c line code : Nat) : State :=
  match (s.cuff c).lockOf line with
  | none => s
  | some k =>
    let f : FnId := ⟨k.atomic.link, k.vf⟩
    let expired := code == 0x0032
    let u := cuffUnit c
    let s := if expired then s.modCuff c (fun x => { x with expiries := satAdd 65535 x.expiries 1 }) else s
    let s := if expired && !k.writes then s.corrected 0 code u k.atomic.link
      else if k.writes && code != 0 && code != 0x0600 then s.contained 0 code u k.atomic.link (some k.glove) else s
    s.endLock c k (fun s =>
      if k.closing || code == 0x0600 || (!k.writes && code != 0 && !expired) then s.hostUr f (atomicHead k.atomic)
      else if k.writes && code != 0 then
        (s.aerTlp f .completerAbort (atomicHead k.atomic)).emit (.cpl f.link k.atomic.tag .ca [] false)
      else s.emit (.cpl f.link k.atomic.tag .sc k.origBytes k.ep))

/-- An AtomicOp to BAR2 is checked as a read and a write (R209, R319). -/
def State.atomicBar2 (s : State) (f : FnId) (off : Nat) (a : HostAtomic) (dropped : Bool) : State :=
  let g := s.gloveOf f
  let u := cuffUnit (f.link / 2)
  let ur (s : State) : State := if dropped then s else s.hostUr f (atomicHead a)
  if !s.bar2Open g then ur s
  else
    let c : Check := { glove := g, world := 0, addr := off, len := a.size, rd := true, wr := true, atomic := true }
    match s.check u f.link c with
    | (.fault code l, s) => ur (s.reportFault c u code l)
    | (.failed code, s) =>
      let s := s.errLog f 2 code 0 off f.fn f.link g
      if dropped then s else s.sendCpls f a.tag a.addr (failedBytes off a.size) true
    | (.dev p, s) =>
      (s.modCuff (f.link / 2) (fun x =>
        { x with locks := x.locks ++ [{ atomic := a, vf := f.fn, glove := g, line := p / 64, dropped := dropped }] })).pumpLocks
        (f.link / 2)
    | (_, s) => ur s

/-! ### Requests that wait (R224, R226, R306, R308, R315, R316) -/

/-- Host posted writes of a link and glove not yet acknowledged: glove address and length. -/
def State.writesOut (s : State) (l g : Nat) : List (Nat × Nat) :=
  s.net.outst.filterMap (fun r => match r.ctx with
    | .hostWrite l' _ g' a _ _ => if l' == l && g' == g then some (a, r.pkt.len) else none
    | _ => none)

/-- Read slots of a link in use, one for each read and for each write through a peer window (R306, R219), and their number. -/
def State.slotsUsed (s : State) (l : Nat) : Nat :=
  (s.net.outst.filter (fun r => match r.ctx with
    | .hostRead l' _ _ _ _ _ => l' == l
    | .unitRead l' _ _ _ _ => l' == l
    | _ => false)).length +
  ((s.net.outst.filterMap (fun r => match r.ctx with
    | .hostWrite l' _ _ _ true wr => if l' == l then some wr else none
    | _ => none)).foldl (fun (a : List Nat) w => if a.contains w then a else a ++ [w]) []).length
def State.readSlots (s : State) (l : Nat) : Nat := if s.twoX8 (l / 2) then 1024 else 2048

/-- Length of a request. -/
def HeldKind.len : HeldKind → Nat
  | .read r => r.len
  | .write w => w.data.length
  | .atomic a => a.size

def HeldKind.posted : HeldKind → Bool
  | .write _ => true
  | _ => false

/-- What the checker decides on a BAR2 request that the glove serves (R209); none for any other request. -/
def State.heldRoute (s : State) (l : Nat) (h : HeldReq) : Option Route :=
  let f : FnId := ⟨l, h.fn⟩
  let g := s.gloveOf f
  let c : Check := match h.kind with
    | .read r => { glove := g, world := 0, addr := h.off, len := r.len, rd := true, wr := false }
    | .write w => { glove := g, world := 0, addr := h.off, len := w.data.length, rd := false, wr := true }
    | .atomic a => { glove := g, world := 0, addr := h.off, len := a.size, rd := true, wr := true, atomic := true }
  if !h.bar2 || !s.bar2Open g || (h.kind.posted && h.kind.len == 0) then none
  else some (s.check (cuffUnit (l / 2)) l c).1

/-- The table line that a request must wait for (R201). -/
def State.heldMiss (s : State) (l : Nat) (h : HeldReq) : Option Nat :=
  match s.heldRoute l h with
  | some (.miss n) => some n
  | _ => none

/-- A request takes a read slot: a read, and a write through a peer window (R306, R219). -/
def State.takesSlot (s : State) (l : Nat) (h : HeldReq) : Bool :=
  match h.kind with
  | .read _ => true
  | .write _ => (match s.heldRoute l h with
    | some (.window ..) => true
    | _ => false)
  | .atomic _ => false

/-- A request may go on to its checker, with the requests of its link that still wait ahead of it (R38, R308, R315, R316). -/
def State.heldFree (s : State) (l : Nat) (ahead : List HeldReq) (h : HeldReq) : Bool :=
  let g := s.gloveOf ⟨l, h.fn⟩
  let out := s.writesOut l g
  let hot := h.bar2 && s.inAbv g h.off h.kind.len
  let slot := !s.takesSlot l h || decide (s.slotsUsed l < s.readSlots l)
  slot && (h.fn == 0 ||
    (!ahead.any (fun e => e.fn == h.fn && e.kind.posted) && !(h.bar2 && (s.glove g).updating) &&
      (if h.kind.posted then !(out.any (fun (a, n) => s.inAbv g a n)) && !(hot && !out.isEmpty)
       else !(h.bar2 && out.any (fun (a, n) => s.abvBoth g h.off h.kind.len a n)))))

/-- Carry out a request. -/
def State.performHeld (s : State) (l : Nat) (h : HeldReq) : State :=
  let f : FnId := ⟨l, h.fn⟩
  match h.kind with
  | .read r => if h.bar2 then s.readBar2 f h.off r else s.readBar0 f h.unitBase h.off r
  | .write w =>
    if h.bar2 then s.writeBar2 f h.off w
    else
      let s := if s.tdiHides f h.off || !bar0Shape h.off w.data.length then s.aerTlp f .unsupportedRequest (writeHead w) else s
      s.writeBar0 f h.unitBase h.off w.data
  | .atomic a => if h.bar2 then s.atomicBar2 f h.off a h.dropped else if h.dropped then s else s.hostUr f (atomicHead a)

/-- The waiting requests of a link that may go on do, in arrival order; one that misses in the translation cache has its table line
read (R201). -/
def State.pumpHeld (s : State) (l : Nat) : State :=
  (s.link l).held.foldl (fun s h =>
    let now := (s.link l).held
    if s.heldFree l (now.takeWhile (· != h)) h then
      match s.heldMiss l h with
      | some n => s.fetchTable (cuffUnit (l / 2)) l n
      | none => (s.modLink l (fun x => { x with held := eraseFirst (· == h) x.held })).performHeld l h
    else s) s

/-- A request at the decode point goes on, or waits. -/
def State.hostEnter (s : State) (l : Nat) (h : HeldReq) : State :=
  let h := { h with unitBase := (s.link l).unitBase }
  let wait (s : State) : State := s.modLink l (fun x => { x with held := x.held ++ [h] })
  if s.heldFree l (s.link l).held h then
    match s.heldMiss l h with
    | some n => (wait s).fetchTable (cuffUnit (l / 2)) l n
    | none => s.performHeld l h
  else wait s

/-- A host posted write is acknowledged (R337): a failure is recorded for its function, and what waited behind it goes on. -/
def State.hostWritten (s : State) (l n g addr : Nat) (peer : Bool) (p : Packet) (code : Nat) : State :=
  let f : FnId := ⟨l, n⟩
  let s := if code == 0 then s
    else if peer then s.farSide f code 2 p.addr p.fn p.link g (cuffUnit (l / 2))
    else s.farSide f code 0 addr n l g (cuffUnit (l / 2))
  s.pumpHeld l

/-! ### The commands -/

/-- HOST_MEMORY_READ (R90, R303-R306). -/
def execHostMemoryRead (r : HostRead) (s : State) : Result :=
  .next (if !s.awake || !(s.link r.link).up then s
    else s.ideCheck r.link r.ide (readHead r) (fun s =>
      match s.hostHit r.link r.addr with
      | none => s.hostUr (s.urOwner r.link r.addr) (readHead r)
      | some (f, bar2, off) => s.hostEnter r.link { fn := f.fn, bar2 := bar2, off := off, kind := .read r }))

/-- HOST_MEMORY_WRITE (R90, R303-R305, R308, R315); a poisoned one is discarded whole (R342). -/
def execHostMemoryWrite (w : HostWrite) (s : State) : Result :=
  .next (if !s.awake || !(s.link w.link).up then s
    else s.ideCheck w.link w.ide (writeHead w) (fun s =>
      match s.hostHit w.link w.addr with
      | none => s.aerTlp (s.urOwner w.link w.addr) .unsupportedRequest (writeHead w)
      | some (f, bar2, off) =>
        if w.ep then s.aerTlp f .poisonedTlp (writeHead w)
        else s.hostEnter w.link { fn := f.fn, bar2 := bar2, off := off, kind := .write w }))

/-- HOST_ATOMICOP (R294, R319, R320); a misaligned operand is a Malformed TLP (R342). -/
def execHostAtomicop (a : HostAtomic) (s : State) : Result :=
  .next (if !s.awake || !(s.link a.link).up then s
    else s.ideCheck a.link a.ide (atomicHead a) (fun s =>
      if a.addr % max 1 a.size != 0 then s.aerTlp (s.urOwner a.link a.addr) .malformedTlp (atomicHead a)
      else match s.hostHit a.link a.addr with
        | none => s.hostUr (s.urOwner a.link a.addr) (atomicHead a)
        | some (f, bar2, off) =>
          if !a.sizeOk then s.hostUr f (atomicHead a)
          else s.hostEnter a.link { fn := f.fn, bar2 := bar2, off := off, kind := .atomic a }))

/-- UNSUPPORTED_REQUEST: UR for a non-posted request, nothing for a posted one, and Unsupported Request in PF0's AER (R304, R342). -/
def execUnsupportedRequest (link tag : Nat) (kind : BadReq) (s : State) : Result :=
  .next (if !s.awake || !(s.link link).up then s
    else match kind with
      | .unmatchedWrite => s.aerTlp ⟨link, 0⟩ .unsupportedRequest { kind := .write }
      | .vendorMessage => s.aerTlp ⟨link, 0⟩ .unsupportedRequest { kind := .message }
      | .unmatchedRead => s.hostUr ⟨link, 0⟩ { kind := .read, tag := tag }
      | _ => s.hostUr ⟨link, 0⟩ { kind := .other, tag := tag })

end Sys2Proof.Machine
end

