-- ==== Sys2Proof/Machine/Epoch.lean ====
section
/-! DEFINITION. Epoch changes (R222-R229): closing a glove's checkers, waiting for its requests in flight, writing the new tables
and reopening; and the release of reclaimed pages (R472). -/

namespace Sys2Proof.Machine

/-! ### Table lines of a glove (R192, R203, R215) -/

/-- The table lines of a glove's rules, and of its peer windows. -/
def ruleLines (g : Nat) : List Nat := (List.range 16).map (fun i => (0x1000000 + g * 0x400) / 64 + i)
def windowLines (g : Nat) : List Nat := (List.range 8).map (fun i => (0x1100000 + g * 0x200) / 64 + i)

/-- A glove's rule table, and one of its peer windows, is written (R203, R215). -/
def State.putRules (s : State) (g : Nat) (rs : List Region) : State :=
  (s.modGlove g (fun x => { x with rules := rs })).tablesChanged s (ruleLines g)
def State.putWindow (s : State) (g slot : Nat) (w : Window) : State :=
  (s.modGlove g (fun x => { x with windows := x.windows.set slot w })).tablesChanged s (windowLines g)

/-! ### MGMT requests to peers (R470) -/

/-- Send a MGMT request and wait for its answer. -/
def State.mgmtAsk (s : State) (n g : Nat) (m : Mgmt) (msg : MgmtMsg) : State :=
  (s.modPeer n (fun p => { p with mgmt := p.mgmt ++ [{ glove := g, msg := m }] })).sendMgmt n msg

/-- A key transfer, page allocation, page release or revocation of a glove. -/
def State.askKey (s : State) (n g : Nat) : State := s.mgmtAsk n g .keyTransfer (.keyTransfer g (s.slot g).key)
def State.askPages (s : State) (n g m : Nat) : State := s.mgmtAsk n g (.pageAlloc m) (.pageAlloc g m)
def State.askRelease (s : State) (n g : Nat) (ps : List Nat) : State := s.mgmtAsk n g (.pageRelease ps) (.pageRelease g ps)
def State.askRevoke (s : State) (n g : Nat) : State := s.mgmtAsk n g .keyRevoke (.keyRevoke g)

/-! ### The steps (R224) -/

/-- Steps 1 and 2: the change is validated and every checker closes for the glove. -/
def State.beginChange (s : State) (g : Nat) (o : Origin) (c : Change) : State :=
  s.modGlove g (fun x => { x with updating := true, change := some { origin := o, change := c } })

/-- The glove's checkers reopen: what waited at its Cuff is checked now, in arrival order (R226). -/
def State.reopen (s : State) (g : Nat) : State :=
  let s := s.modGlove g (fun x => { x with updating := false })
  match s.linkOf g with
  | some l => s.pumpHeld l
  | none => s

/-- Every in-flight count of the glove is zero (R223): no request behind a checker, no AtomicOp at a Cuff. -/
def State.drained (s : State) (g : Nat) : Bool :=
  s.inFlight g == 0 && s.host.cuffs.all (fun e => e.2.locks.all (fun k => k.glove != g))

/-- A change ends with a code; nothing else changes. -/
def State.endChange (s : State) (g code : Nat) : State :=
  match (s.glove g).change with
  | none => s
  | some c => (s.complete c.origin code 0).modGlove g (fun x => { x with change := none, lastChange := some c.origin })

/-- The result of a command has not been written yet: its queue still serves entries. -/
def State.unwritten (s : State) (o : Origin) : Bool :=
  let x := s.queue o.q
  x.enable && !x.faulted && x.entries.any (fun e => e.idx == o.idx && e.started && e.wr == 0)

/-- A change of the glove is in progress: at a step of R224, at the read of its SET_RULES array, or its result is not written yet
(R227). -/
def State.changing (s : State) (g : Nat) : Bool :=
  (s.glove g).change.isSome ||
  (match (s.glove g).lastChange with
   | some o => s.unwritten o
   | none => false) ||
  s.net.outst.any (fun r => match r.ctx with
    | .crownRules _ g' _ => g' == g
    | _ => false)

/-- The glove whose tables a command changes (R222). -/
def State.changeOf (s : State) : Instr → Option Nat
  | .setRules o _ _ _ => some ((s.qGlove o.q).getD 0)
  | .setPeerWindow _ g _ _ => some g
  | .clearPeerWindow _ g _ => some g
  | .reclaimPages _ g _ _ _ _ => some g
  | _ => none

/-- A change command waits at the Crown: for the change in progress, and for the commands of the glove that arrived before it (R227). -/
def State.changeWaits (s : State) (i : Instr) (g : Nat) : Bool :=
  s.changing g || (s.work.crownWork.takeWhile (· != i)).any (fun j => s.changeOf j == some g)

/-- The page-table entry indices of a glove that meet a test. -/
def State.entriesOf (s : State) (g : Nat) (p : Pte → Bool) : List Nat :=
  (s.pool.pts.filter (fun e => e.1 / 2 ^ 21 == g && e.2.valid && p e.2)).map (fun e => e.1 % 2 ^ 21)

/-- The entry maps a page that the glove holds now: an entry that an earlier tenancy left behind maps one it does not (R197; DEDUCED,
log entry 111). -/
def State.holdsEntry (s : State) (g : Nat) (e : Pte) : Bool :=
  if e.home == s.boot.cfg.pos then (s.own e.page).state == 1 && (s.own e.page).owner == g
  else (s.glove g).guests.contains e.home

/-- The page-table entry indices that map pages the glove holds. -/
def State.heldOf (s : State) (g : Nat) : List Nat := s.entriesOf g (s.holdsEntry g)

/-- A reclaim has released its pages: its result reports them, and the ledger counts what they were held for (R224 step 5, R611). -/
def State.reclaimDone (s : State) (g : Nat) : State :=
  match (s.glove g).change with
  | none => s
  | some c =>
    ((s.usagePages g c.saved.length).complete c.origin 0 c.saved.length).modGlove g (fun x =>
      { x with change := none, lastChange := some c.origin })

/-- The pages on this device are released (R60). -/
def State.reclaimLocal (s : State) (g : Nat) : State :=
  match (s.glove g).change with
  | none => s
  | some c =>
    let ps := (c.saved.filter (fun e => e.2.home == s.boot.cfg.pos)).map (fun e => e.2.page)
    let (s, done) := s.startOwn ps none (.reclaim g)
    if done then s.reclaimDone g else s

/-- A peer has released its pages (R472); a guest slot whose last page is gone is no longer held (R78). -/
def State.reclaimAnswered (s : State) (n g : Nat) : State :=
  let left := (s.entriesOf g (fun e => e.home == n)).isEmpty
  let s := if left then s.modGlove g (fun x => { x with guests := x.guests.filter (· != n) }) else s
  match (s.glove g).change with
  | none => s
  | some c =>
    let ws := c.waitPeers.filter (· != n)
    let s := s.modGlove g (fun x => { x with change := some { c with waitPeers := ws } })
    if ws.isEmpty && c.waitPeers.contains n then s.reclaimLocal g else s

/-- Step 5 of a reclaim: peers first, so that a lost peer leaves every entry as it was (R474); entries of a barred peer are
cleared without it (R477). -/
def State.reclaimPages (s : State) (g : Nat) : State :=
  match (s.glove g).change with
  | none => s
  | some c =>
    let away (n : Nat) : List Nat := (c.saved.filter (fun e => e.2.home == n)).map (fun e => e.2.page)
    let ns := (List.range 4).filter (fun n => n != s.boot.cfg.pos && !(s.glove g).barred.contains n && !(away n).isEmpty)
    if ns.isEmpty then s.reclaimLocal g
    else
      ns.foldl (fun s n => s.askRelease n g (away n))
        (s.modGlove g (fun x => { x with change := some { c with waitPeers := ns } }))

/-- Step 4: what the change writes to table space. -/
def State.applyChange (s : State) (g : Nat) (c : EpochChange) : State :=
  match c.change with
  | .rules rs => s.putRules g rs
  | .window slot w => s.putWindow g slot w
  | .clearWindow slot =>
    match (s.glove g).windows.get .empty slot with
    | .valid start len _ _ _ _ _ => s.putWindow g slot (.tombstone start len)
    | _ => s
  | .reclaim idx =>
    let saved := (idx.map (fun i => (i, s.pte g i))).filter (fun e => s.holdsEntry g e.2 || (s.glove g).barred.contains e.2.home)
    let s := idx.foldl (fun s i => s.setPte g i {}) s
    s.modGlove g (fun x => { x with change := some { c with saved := saved } })

/-- EPOCH_DRAIN_DONE: the new tables are written, the copies in the checkers are invalidated, EPOCH rises and the checkers reopen
(R224 step 4); a reclaim then releases its pages. -/
def execEpochDrainDone (glove : Nat) (s : State) : Result :=
  .next (match (s.glove glove).change with
    | none => s
    | some c =>
      if !s.serves || !c.draining || !s.drained glove then s
      else
        let s := s.modGlove glove (fun x => { x with change := some { c with draining := false } })
        let s := (s.applyChange glove { c with draining := false }).dropTranslations glove
        let s := s.modGlove glove (fun x => { x with epoch := (x.epoch + 1) % 2 ^ 31 })
        let s := match c.change with
          | .reclaim _ => s
          | _ => s.endChange glove 0
        let s := s.reopen glove
        match c.change with
        | .reclaim _ => s.reclaimPages glove
        | _ => s)

/-- EPOCH_DRAIN_TIMEOUT: 100 µs without the counts reaching zero: the checkers reopen under the old tables (R225). -/
def execEpochDrainTimeout (glove : Nat) (s : State) : Result :=
  .next (match (s.glove glove).change with
    | none => s
    | some c => if !s.serves || !c.draining then s else (s.endChange glove 0x0302).reopen glove)

end Sys2Proof.Machine
end

