-- ==== Sys2Proof/Machine/Admin.lean ====
section
/-! DEFINITION. The admin commands on gloves, pages, limits, windows, domains and the mode (R47, R49-R56, R375-R380). -/

namespace Sys2Proof.Machine

/-- An admin command that names a glove runs: the mode serves it, and the glove is in the link's range (R47, R372). -/
def State.gloveCmd (s : State) (i : Instr) (o : Origin) (g : Nat) (f : State → State) : State :=
  if !s.serves || !s.fnExists o.q.fnId then s
  else
    let s := s.undispatch i
    if s.linkHas o.q.link g then f s else s.refuse o 0x0108

/-- The refusal of a command that needs the glove KEY_PENDING or OPEN (R49, R375). -/
def State.closedCode (s : State) (g : Nat) : Option Nat :=
  match (s.glove g).state with
  | .free => some 0x0101
  | .zeroizing => some 0x0100
  | .releasing => some 0x0100
  | _ => none

/-- A refusal with a result. -/
def State.refuseWith (s : State) (o : Origin) (code result : Nat) : State :=
  (s.reject o.q.fnId code 3 (o.q.q * 65536 + o.idx % 65536)).complete o code result

/-- Run the first check that fails, in order, else `f`. -/
def State.checked (s : State) (o : Origin) (checks : List (Bool × Nat)) (f : State → State) : State :=
  match checks.find? (fun c => c.1) with
  | some c => s.refuse o c.2
  | none => f s

/-! ### Finger contexts (R348, R394) -/

/-- Finger contexts of a quadrant in use: 16 for the PF0 of each link and the limits of its gloves. -/
def State.contextsUsed (s : State) (quad : Nat) : Nat :=
  let ls := (List.range 4).map (· + 4 * quad) |>.filter s.linkExists
  16 * ls.length +
    ((s.trust.gloves.filter (fun e => ls.any (fun l => s.linkHas l e.1))).map (fun e => e.2.fingerLimit)).sum

/-- Contexts that the quadrant's engines can hold: a fenced or retired engine supplies none (R534). -/
def State.contextsMax (s : State) (quad : Nat) : Nat :=
  32 * ((List.range 16).filter (fun i => !s.fenced (unitId quad 3 i))).length

/-- The quadrant cannot supply `n` more contexts. -/
def State.contextsFull (s : State) (quad n : Nat) : Bool :=
  decide (0 < n) && decide (min 512 (s.contextsMax quad) < s.contextsUsed quad + n)

/-- Change a glove's Finger limit: Fingers that are added are placed, Fingers that are removed release their places (R348, R394). -/
def State.setFingers (s : State) (f : FnId) (old new : Nat) : State :=
  let s := (List.range 16).foldl (fun s i => if old ≤ i ∧ i < new then s.placeFinger ⟨f.link, f.fn, i⟩ else s) s
  (List.range 16).foldl (fun s i =>
    if new ≤ i ∧ i < old then s.modFinger ⟨f.link, f.fn, i⟩ (fun _ => {}) else s) s

/-! ### OPEN_GLOVE (R49, R50, R56, R65, R67, R205, R376) -/

/-- The rule table of R205. -/
def State.openRules (s : State) (l : Nat) : List Region :=
  match (s.boot.cfg.links.getD l {}).template with
  | [] => [{ start := 0, stop := 0x40000000000, tr := true, tw := true }]
  | t => t

/-- OPEN_GLOVE: the glove opens with a drawn key, or waits for the tenant's. -/
def execOpenGlove (o : Origin) (glove : Nat) (tenantKey tdisp : Bool) (queueLimit fingerLimit : Nat) (s : State) : Result :=
  .next (s.gloveCmd (.openGlove o glove tenantKey tdisp queueLimit fingerLimit) o glove (fun s =>
    s.checked o
      [(s.sys.mode == .drain, 0x0701), (tenantKey && !tdisp, 0x0002), (decide (64 < queueLimit) || decide (16 < fingerLimit), 0x0003),
       ((s.glove glove).state != .free, 0x0100), (s.contextsFull (linkQuad o.q.link) fingerLimit, 0x0403),
       (s.trust.entropyFailed || !s.trust.drbgReady, 0x0107)] (fun s =>
      let (d, s) := if tenantKey then (0, s) else s.draw
      let k : Key := d.setWidth 256
      let s := if tenantKey then s
        else s.modSlot glove (fun _ => { key := k, valid := true, home := s.boot.cfg.pos, glove := glove })
      let s := (s.modGlove glove (fun x =>
        { x with
          state := if tenantKey then .keyPending else .opened
          keySource := if tenantKey then 0 else 1
          tdisp := tdisp
          kcv := if tenantKey then 0 else keyCheck k glove
          queueLimit := queueLimit
          fingerLimit := fingerLimit
          rate := 64
          share := s.boot.cfg.tierDefault
          rules := s.openRules o.q.link
          windows := [] })).tablesChanged s (ruleLines glove ++ windowLines glove)
      (s.setFingers ⟨o.q.link, (glove - (s.range o.q.link).1) + 1⟩ 0 fingerLimit).complete o 0 0)))

/-! ### CLOSE_GLOVE (R52-R55, R73, R228) -/

/-- The packet carries a request of a home glove. -/
def State.requestOf (s : State) (g : Nat) (p : Packet) : Bool :=
  p.op.cls < 2 && p.gloveValid && p.glove == g && p.home == s.boot.cfg.pos

/-- The request is on its way to the pool or to a peer window of another glove, and is discarded by a close; an AtomicOp's lock and
unlock go on, so that the lock is released (R54). -/
def State.discards (s : State) (g : Nat) (p : Packet) : Bool :=
  s.requestOf g p && !(p.op == .memRdLock || p.op == .memWrUnlock || p.op == .unlock) &&
  (!p.hostSpace || s.vfOf g != some ⟨p.link, p.fn⟩)

/-- An AtomicOp's unlock that has not been performed leaves its line unchanged (R54). -/
def State.softened (s : State) (g : Nat) (p : Packet) : Packet :=
  if s.requestOf g p && p.op == .memWrUnlock then { p with op := .unlock, data := [] } else p

/-- Peer writes of a glove that wait at a far Cuff, nothing of them transmitted (R54). -/
def State.peerWaits (s : State) (g l : Nat) : List Packet :=
  ((s.link l).txq.map Tlp.pkt).filter (fun p => p.op.cls == 0 && s.discards g p && !s.begun l p)

/-- Requests of a closing glove leave the device (R54): those not yet performed are discarded; host reads end with UR, host writes in
the glove's error log, and an operator Finger's requests with GLOVE_CLOSED. The glove's own Fingers have been reset. -/
def State.closeRequests (s : State) (g : Nat) : State :=
  let mine := s.net.outst.filter (fun r => r.counts == some g && (match r.ctx with
    | .hostRead .. => true
    | .hostWrite .. => true
    | _ => false))
  let fingers := s.net.outst.filter (fun r => r.counts == some g && r.ctx.finger.isSome)
  let gone (p : Packet) : Bool := s.discards g p
  let queued := (List.range 16).map (fun l => (l, s.peerWaits g l))
  let waits := (s.net.pkts.map Prod.snd) ++ s.pool.gates.flatMap (fun e => e.2.parked ++ e.2.walks.flatMap Walk.waiting)
  let left := waits.filter gone ++ queued.flatMap Prod.snd
  let soft (p : Packet) : Packet := s.softened g p
  let unlocked := (waits.filter (fun p => soft p != p)).filterMap (fun p => s.reqOf p.initUnit p.tag)
  let s : State := { s with
    net.pkts := (s.net.pkts.filter (fun e => !gone e.2)).map (fun e => (e.1, soft e.2))
    pool.gates := s.pool.gates.map (fun e =>
      (e.1, { e.2 with parked := (e.2.parked.filter (fun p => !gone p)).map soft,
                       walks := e.2.walks.map (fun w => { w with waiting := (w.waiting.filter (fun p => !gone p)).map soft }) }))
    net.outst := (s.net.outst.filter (fun r => fingers.contains r || !left.any (samePkt r.pkt))).map (fun r =>
      if mine.contains r then { r with ctx := .other, counts := none }
      else if fingers.contains r then { r with code := 0x0101, counts := none }
      else if unlocked.contains r then { r with pkt := soft r.pkt }
      else r) }
  let s := queued.foldl (fun s e =>
    if e.2.isEmpty then s else s.modLink e.1 (fun x => { x with txq := x.txq.filter (fun t => !e.2.any (samePkt t.pkt)) })) s
  let s := unlocked.foldl (fun s r => match r.ctx with
    | .atomicUnlock c line => s.modCuff c (fun x =>
        { x with locks := x.locks.map (fun k => if k.sent && k.line == line then { k with writes := false } else k) })
    | _ => s) s
  let s := (fingers.filter (fun r => left.any (samePkt r.pkt))).foldl (fun s r =>
    s.respond r.pkt (if r.pkt.op.cls == 0 then .ack else .cpl) 0x0101 0 [] false) s
  mine.foldl (fun s r => match r.ctx with
    | .hostRead l n tag _ a len => s.hostUr ⟨l, n⟩ (s.bar2Head ⟨l, n⟩ tag a len)
    | .hostWrite l n _ a _ _ => s.errLog ⟨l, n⟩ 3 0x0101 0 a n l g
    | _ => s) s

/-- Requests that aim at a function through a peer window and wait at its Cuff fail with GLOVE_CLOSED (R55); they are not counted as
discarded by R334 or R335. -/
def State.closeAimed (s : State) (f : FnId) : State :=
  let n := (s.link f.link).discarded
  let aimed (p : Packet) : Bool := p.fn == f.fn && s.viaWindow p && !s.begun f.link p
  ((s.dropReads f.link aimed 0x0101).dropPosted f.link aimed 0x0101).modLink f.link (fun x => { x with discarded := n })

/-- AtomicOps of a closing glove: those that hold no lock end with UR, the others once their lock is released (R54). -/
def State.closeAtomics (s : State) (l g : Nat) : State :=
  let c := l / 2
  let idle := (s.cuff c).locks.filter (fun k => k.glove == g && !k.sent)
  let s := s.modCuff c (fun x =>
    { x with locks := (x.locks.filter (fun k => !(k.glove == g && !k.sent))).map (fun k =>
        if k.glove == g then { k with closing := true } else k) })
  idle.foldl (fun s k => if k.dropped then s else s.hostUr ⟨l, k.vf⟩ (atomicHead k.atomic)) s

/-- Lines of a slot in the write-combining buffers and the tier are invalidated without write-back (R52 step 2, R144). -/
def State.closeLines (s : State) (slot : Nat) : State :=
  { s with
    pool.gates := s.pool.gates.map (fun e =>
      let wcb := e.2.wcb.filter (fun w => w.slot != slot)
      (e.1, { e.2 with wcb := wcb, reencs := e.2.reencs.filter (fun r => wcb.any (fun w => w.line == r.line)) }))
    pool.tier := s.pool.tier.filter (fun t => t.slot != slot) }

/-- A window that aims at a glove is closed for good (R55). -/
def Window.closeFor (g : Nat) : Window → Window
  | .valid a n h t r wr c => .valid a n h t r wr (c || t == g)
  | x => x

/-- The windows of other gloves that aim at a closing glove are closed for good, those too that a change in progress is to set (R55). -/
def State.closeWindows (s : State) (g : Nat) : State :=
  { s with trust.gloves := s.trust.gloves.map (fun e =>
      (e.1, { e.2 with
        windows := e.2.windows.map (fun w => (w.1, w.2.closeFor g))
        change := e.2.change.map (fun c => { c with change := match c.change with
          | .window slot w => .window slot (w.closeFor g)
          | x => x }) })) }

/-- A SET_RULES of a closing glove whose array is being read ends with GLOVE_CLOSED (R228). -/
def State.closeRules (s : State) (g : Nat) : State :=
  let os := s.net.outst.filterMap (fun r => match r.ctx with
    | .crownRules o g' _ => if g' == g then some o else none
    | _ => none)
  let s : State := { s with net.outst := s.net.outst.map (fun r => match r.ctx with
    | .crownRules _ g' _ => if g' == g then { r with ctx := .other } else r
    | _ => r) }
  os.foldl (fun s o => s.complete o 0x0101 0) s

/-- The Crown is busy with a grant or a page release of the glove: a close waits for it. -/
def State.pagesMoving (s : State) (g : Nat) : Bool :=
  s.pool.owning.any (fun c => match c.thn with
    | .grant _ h _ => h == g
    | .reclaim h => h == g
    | _ => false) ||
  s.basket.grants.any (fun x => x.glove == g) ||
  (match (s.glove g).change with
   | some c => !c.draining
   | none => false)

/-- Steps 1 and 2 of a close (R52). -/
def State.beginClose (s : State) (o : Origin) (g : Nat) (f : FnId) : State :=
  let pages := (s.heldOf g).length
  let s := (s.endChange g 0x0101).closeRules g
  let s := s.modGlove g (fun x => { x with state := .zeroizing, updating := false, closing := some (o, pages) })
  let busy := (fingersOf f).any (fun i => (s.finger i).entry.isSome)
  let s := (fingersOf f).foldl State.fgReset s
  let s := if busy then s.raiseCause f causeFinger else s
  let s := s.setFingers f (s.glove g).fingerLimit 0
  let s := s.modGlove g (fun x => { x with queueLimit := 0, fingerLimit := 0 })
  let s := if (s.glove g).tdiLive then s.tdiError g else s
  let s := (s.closeRequests g).closeAtomics f.link g
  let s := (s.closeAimed f).closeWindows g
  let s := s.closeLines g
  ((s.modSlot g (fun _ => {})).dropTranslations g).pumpHeld f.link

/-- CLOSE_GLOVE: steps 1 and 2 (R52). -/
def execCloseGlove (o : Origin) (glove : Nat) (s : State) : Result :=
  .next (if s.linkHas o.q.link glove && s.pagesMoving glove then s
    else s.gloveCmd (.closeGlove o glove) o glove (fun s =>
      match s.closedCode glove with
      | some c => s.refuse o c
      | none =>
        match s.vfOf glove with
        | some f => (s.destroyQueues f).beginClose o glove f
        | none => s))

/-- BAND_SLOT_ZERO_CONFIRMED: revocations go out, the glove enters RELEASING and its pages are released (R52 steps 3 to 5). -/
def execBandSlotZeroConfirmed (glove : Nat) (s : State) : Result :=
  .next (if !s.serves || (s.glove glove).state != .zeroizing then s
    else
      let s := (s.glove glove).guests.foldl (fun s n => s.askRevoke n glove) s
      let s := s.modGlove glove (fun x => { x with state := .releasing })
      (s.startOwn (s.pagesOf glove) none (.close glove)).1)

/-- LAST_PAGE_RELEASED: what R53 names is cleared, the glove enters FREE and the result is written (R52 step 5, R49). The page table
keeps its entries: only GRANT_PAGES and RECLAIM_PAGES write them (R197), and they map pages that the glove no longer holds. -/
def execLastPageReleased (glove : Nat) (s : State) : Result :=
  .next (
    let releasing := s.pool.owning.any (fun c => match c.thn with
      | .close g => g == glove
      | _ => false)
    if !s.serves || (s.glove glove).state != .releasing || releasing || !(s.pagesOf glove).isEmpty then s
    else
      let f := (s.vfOf glove).getD ⟨0, 0⟩
      let s := s.endTenancy glove
      let s := s.modFn f (fun x =>
        { x with rejCode := 0, rejSpace := 0, rejOff := 0, errAddr := 0, errCode := 0, errCount := 0, errValid := false, errKind := 0,
                 errSpace := 0, errFn := 0, errLink := 0, errGlove := 0, cause := 0, events := 0 })
      let s := (fingersOf f).foldl State.fgReset s
      let x := s.glove glove
      let s := (s.modGlove glove (fun x => { tdi := x.tdi, nonce := x.nonce, stream := x.stream, lockPages := x.lockPages })).tablesChanged s
        (ruleLines glove ++ windowLines glove)
      match x.closing with
      | some (o, pages) => s.complete o 0 pages
      | none => s)

/-! ### GRANT_PAGES and RECLAIM_PAGES (R196, R197, R230, R375, R377, R471, R472) -/

/-- The entries of a grant are written and it completes (R230, R377). -/
def State.grantDone (s : State) (o : Origin) (g home : Nat) (ptes : List (Nat × Nat × Nat × Bool)) : State :=
  (ptes.foldl (fun s (i, page, group, ro) =>
    s.setPte g i { group := group, page := page, home := home, readOnly := ro, valid := true }) s).complete o 0 ptes.length

/-- A DDR gate's state keeps pages of this device from being granted (R168). -/
def State.grantsStopped (s : State) : Bool :=
  (List.range 16).any (fun c => ((s.gate c).retired && !s.boot.cfg.mirror) || s.fenced (gateUnit c))

/-- Entries that a grant in progress will write. -/
def State.granting (s : State) (g i : Nat) : Bool :=
  s.pool.owning.any (fun c => match c.thn with
    | .grant _ h ps => h == g && ps.any (fun e => e.1 == i)
    | _ => false) ||
  s.basket.grants.any (fun x => x.glove == g && decide (x.start / 0x200000 ≤ i) && decide (i < x.start / 0x200000 + x.m))

/-- GRANT_PAGES: pages of this device at once, or through the exchange of R471 with a peer. -/
def execGrantPages (o : Origin) (glove home : Nat) (readOnly : Bool) (group m start : Nat) (s : State) : Result :=
  .next (s.gloveCmd (.grantPages o glove home readOnly group m start) o glove (fun s =>
    let x := s.glove glove
    let away := home != s.boot.cfg.pos
    let first := start / 0x200000
    let code := s.closedCode glove
    s.checked o
      [(code.isSome, code.getD 0),
       (start % 0x200000 != 0 || m == 0 || (away && !s.peerKnown home), 0x0002),
       (away && x.state == .keyPending, 0x0104),
       (decide (s.span o.q.link < start + m * 0x200000), 0x0306),
       ((List.range m).any (fun i => (s.pte glove (first + i)).valid || s.granting glove (first + i)), 0x030B),
       (!away && s.grantsStopped, 0x0203),
       (away && (s.peer home).state != .admitted, 0x0600),
       (away && x.barred.contains home, 0x0602)] (fun s =>
      if away then
        let s : State := { s with basket.grants := s.basket.grants ++
          ([{ origin := o, glove := glove, home := home, readOnly := readOnly, group := group, m := m, start := start }] : List PeerGrant) }
        if x.guests.contains home then s.askPages home glove m else s.askKey home glove
      else if s.freeCount < m then s.refuseWith o 0x0003 s.freeCount
      else
        let ps := s.takeFree s.pages 0 m
        let ptes := ps.zipIdx.map (fun (p, i) => (first + i, p, group, readOnly))
        let (s, done) := s.startOwn ps (some glove) (.grant o glove ptes)
        if done then s.grantDone o glove home ptes else s)))

/-- RECLAIM_PAGES: an epoch change over the entries of a range or of a shared group (R222, R375). -/
def execReclaimPages (o : Origin) (glove mode group m start : Nat) (s : State) : Result :=
  .next (if s.linkHas o.q.link glove && s.changeWaits (.reclaimPages o glove mode group m start) glove then s
    else s.gloveCmd (.reclaimPages o glove mode group m start) o glove (fun s =>
      let first := start / 0x200000
      let range := mode == 0
      let code := s.closedCode glove
      s.checked o
        [(code.isSome, code.getD 0),
         (decide (1 < mode) || (mode == 1 && group == 0) || (range && (start % 0x200000 != 0 || m == 0)), 0x0002),
         ((s.glove glove).tdiLive, 0x0103),
         (range && (List.range m).any (fun i => !(s.pte glove (first + i)).valid), 0x0304)] (fun s =>
        let idx := if range then (List.range m).map (· + first) else s.entriesOf glove (fun e => e.group == group)
        if idx.isEmpty then s.complete o 0 0 else s.beginChange glove o (.reclaim idx))))

/-! ### Limits and windows (R215, R216, R378) -/

/-- The highest work-queue number of a function, and whether a Finger may not be removed (R378). -/
def State.topQueue (s : State) (f : FnId) : Nat :=
  (s.work.queues.filter (fun e => e.1 / 128 == FnId.key f && e.2.enable)).foldl (fun a e => max a (e.1 % 128)) 0
def State.fingerBound (s : State) (f : FnId) (i : Nat) : Bool :=
  s.work.queues.any (fun e => e.1 / 128 == FnId.key f && e.1 % 128 != 0 && e.2.enable && e.2.finger == i) ||
  (s.finger ⟨f.link, f.fn, i⟩).state != .stopped

/-- SET_LIMITS: all the selected fields, or none. -/
def execSetLimits (o : Origin) (glove mask share queueLimit fingerLimit rate : Nat) (s : State) : Result :=
  .next (s.gloveCmd (.setLimits o glove mask share queueLimit fingerLimit rate) o glove (fun s =>
    let x := s.glove glove
    let f : FnId := (s.vfOf glove).getD ⟨0, 0⟩
    let on (i : Nat) : Bool := bitAt mask i
    let code := s.closedCode glove
    s.checked o
      [(code.isSome, code.getD 0), (x.tdiLive, 0x0103),
       ((on 0 && decide (s.boot.cfg.tierMax < share)) || (on 1 && (decide (64 < queueLimit) || decide (queueLimit < s.topQueue f))) ||
        (on 2 && (decide (16 < fingerLimit) || (List.range 16).any (fun i => decide (fingerLimit ≤ i) && s.fingerBound f i))) ||
        (on 3 && (rate == 0 || decide (64 < rate))), 0x0003),
       (on 2 && s.contextsFull (linkQuad o.q.link) (fingerLimit - x.fingerLimit), 0x0403)] (fun s =>
      let s := if on 2 then s.setFingers f x.fingerLimit fingerLimit else s
      (s.modGlove glove (fun x =>
        { x with share := if on 0 then share else x.share, queueLimit := if on 1 then queueLimit else x.queueLimit,
                 fingerLimit := if on 2 then fingerLimit else x.fingerLimit, rate := if on 3 then rate else x.rate })).complete o 0 0)))

/-- The bits of a slot image that SET_PEER_WINDOW may carry: VALID is written 0 (R215, R216). -/
def windowMask : Nat :=
  2 ^ 204 - 2 ^ 128 + (2 ^ 107 - 2 ^ 64) + (2 ^ 42 - 1)

/-- The first check of R216 on a slot image. -/
def imageBad (v : Nat) : Bool :=
  let start := bits v 41 0
  let len := bits v 106 64
  let host := bits v 191 128
  v &&& windowMask != v || start % 4096 != 0 || len % 4096 != 0 || host % 4096 != 0 || len == 0 ||
  decide (0x40000000000 < start + len) || decide (2 ^ 64 < host + len)

/-- SET_PEER_WINDOW (R216): an epoch change that writes one slot. -/
def execSetPeerWindow (o : Origin) (glove slot : Nat) (image : BitVec 256) (s : State) : Result :=
  .next (if s.linkHas o.q.link glove && s.changeWaits (.setPeerWindow o glove slot image) glove then s
    else s.gloveCmd (.setPeerWindow o glove slot image) o glove (fun s =>
      let v := image.toNat
      let start := bits v 41 0
      let len := bits v 106 64
      let target := bits v 201 192
      let clash := (s.glove glove).windows.any (fun e => e.1 != slot && (match e.2 with
        | .valid a n _ _ _ _ _ => decide (a < start + len) && decide (start < a + n)
        | _ => false))
      let code := s.closedCode glove
      s.checked o
        [(code.isSome, code.getD 0), (imageBad v, 0x0002), (decide (15 < slot), 0x0003), (clash, 0x0308),
         ((s.glove target).state != .opened, 0x0309), ((s.glove glove).tdiLive, 0x0103)] (fun s =>
        s.beginChange glove o
          (.window slot (.valid start len (bits v 191 128) target (bitAt v 203) (bitAt v 202) false)))))

/-- CLEAR_PEER_WINDOW: an epoch change that leaves a tombstone (R221). -/
def execClearPeerWindow (o : Origin) (glove slot : Nat) (s : State) : Result :=
  .next (if s.linkHas o.q.link glove && s.changeWaits (.clearPeerWindow o glove slot) glove then s
    else s.gloveCmd (.clearPeerWindow o glove slot) o glove (fun s =>
      let code := s.closedCode glove
      s.checked o [(code.isSome, code.getD 0), (decide (15 < slot), 0x0003), ((s.glove glove).tdiLive, 0x0103)] (fun s =>
        s.beginChange glove o (.clearWindow slot))))

/-! ### Domains, DRAIN and the logs (R379-R381) -/

/-- An admin command that names no glove runs. -/
def State.adminCmd (s : State) (i : Instr) (o : Origin) (f : State → State) : State :=
  if !s.serves || !s.fnExists o.q.fnId then s else f (s.undispatch i)

/-- PIN_DOMAIN: the link's operator pin is cast; the result is written once the domain is on (R379). -/
def execPinDomain (o : Origin) (d : Nat) (s : State) : Result :=
  .next (s.adminCmd (.pinDomain o d) o (fun s =>
    let us := domUnits d
    s.checked o
      [(decide (40 < d), 0x0003),
       (!(s.slots d).contains (5, o.q.link) || (!us.isEmpty && us.all s.fenced) || s.domAbsent d, 0x0700)] (fun s =>
      let s' := s.modDom d (fun x => { x with pins := if x.pins.contains o.q.link then x.pins else x.pins ++ [o.q.link] })
      let s := s'.castVotes s
      if (s.dom d).state == 0 && (s.dom d).phase == 0 then s.complete o 0 0
      else s.modDom d (fun x => { x with pinWait := x.pinWait ++ [o] }))))

/-- UNPIN_DOMAIN: the vote is withdrawn (R379). -/
def execUnpinDomain (o : Origin) (d : Nat) (s : State) : Result :=
  .next (s.adminCmd (.unpinDomain o d) o (fun s =>
    s.checked o [(decide (40 < d), 0x0003)] (fun s =>
      (s.modDom d (fun x => { x with pins := x.pins.filter (· != o.q.link) })).complete o 0 0)))

/-- DRAIN (R380, R532). -/
def execDrain (o : Origin) (s : State) : Result :=
  .next (s.adminCmd (.drain o) o (fun s => (if s.sys.mode == .drain then s else s.setMode .drain 0).complete o 0 0))

/-- A record of a log: its number and its 32 bytes (R535, R536, R565). -/
def retBytes (i : Nat) (r : RetRec) : List Byte :=
  leBytes 1 r.kind ++ leBytes 1 r.state ++ leBytes 2 r.unit ++ leBytes 4 r.element ++ leBytes 8 r.detail ++ leBytes 4 r.coldResets ++
    leBytes 4 i ++ leBytes 8 r.time

def fltBytes (r : FltRec) : List Byte :=
  leBytes 2 r.code ++ leBytes 2 r.unit ++ leBytes 1 r.severity ++ leBytes 1 r.cls ++ leBytes 1 r.flags ++ leBytes 1 0 ++
    leBytes 8 r.time ++ leBytes 8 r.element ++ leBytes 2 r.glove ++ leBytes 2 0 ++ leBytes 4 r.seq

def startBytes (i : Nat) (r : StartRec) : List Byte :=
  leBytes 2 r.code ++ leBytes 1 r.step ++ leBytes 1 r.copy ++ leBytes 4 0 ++ leBytes 8 r.time ++ leBytes 8 r.detail ++ leBytes 4 i ++
    leBytes 4 0

/-- The records of a log from a number on, and the first number that is refused. -/
def State.logFrom (s : State) (log first : Nat) : List (List Byte) × Nat :=
  match log with
  | 0 => ((s.boot.mram.log.filter (fun e => decide (first ≤ e.1))).map (fun e => retBytes e.1 e.2), retireMax + 1)
  | 1 => ((s.flt.fltLog.filter (fun r => decide (first ≤ r.seq))).map fltBytes, s.flt.fltSeq + 1)
  | _ => (((s.boot.startLog.zipIdx).filter (fun e => decide (first ≤ e.2))).map (fun e => startBytes e.2 e.1),
          s.boot.startLog.length + 1)

/-- GET_LOG: whole records that fit the buffer (R381). -/
def execGetLog (o : Origin) (log first buf len : Nat) (s : State) : Result :=
  .next (s.adminCmd (.getLog o log first buf len) o (fun s =>
    let (rs, stop) := s.logFrom log first
    s.checked o [(badBuffer buf len, 0x0002), (decide (2 < log) || decide (stop ≤ first), 0x0003)] (fun s =>
      let got := rs.take (len / 32)
      s.crownWrites o buf got.flatten (got.length + 2 ^ 32 * bit (decide (got.length < rs.length))))))

end Sys2Proof.Machine
end

