-- ==== Sys2Proof/Machine/Control.lean ====
section
/-! DEFINITION. The control commands on rules and Fingers (R204, R383-R388, R430). -/

namespace Sys2Proof.Machine

/-! ### SET_RULES (R204, R222, R384) -/

/-- One read of the SET_RULES array. -/
def State.rulesPart (s : State) (o : Origin) (g n : Nat) (gloveSpace : Bool) (addr len : Nat) : Issued :=
  s.issue (s.qAccess o.q gloveSpace .memRd addr len []) (fun _ => .crownRules o g n)

/-- Issue one read of the SET_RULES array; a refused one ends the command, and an earlier part then serves nothing. -/
def State.readRulesPart (s : State) (o : Origin) (g n : Nat) (gloveSpace : Bool) (addr len : Nat) : State :=
  match s.rulesPart o g n gloveSpace addr len with
  | .sent s _ _ => s
  | .wait s => s
  | .refused s c _ _ =>
    ({ s with net.outst := s.net.outst.map (fun (r : Req) => if r.ctx == ReqCtx.crownRules o g n then { r with ctx := .other } else r) }).complete o c 0

/-- Length of the first read of the SET_RULES array: one device-world read of 16 bytes a region, cut where it crosses a 4 KiB block (log
entry 25). -/
def rulesHead (n addr : Nat) : Nat := min (16 * n) (4096 - addr % 4096)

/-- The reads of the SET_RULES array. -/
def State.readRules (s : State) (o : Origin) (g n : Nat) (gloveSpace : Bool) (addr : Nat) : State :=
  let head := rulesHead n addr
  let s := s.readRulesPart o g n gloveSpace addr head
  if head == 16 * n || !s.net.outst.any (fun r => r.ctx == ReqCtx.crownRules o g n) then s
  else s.readRulesPart o g n gloveSpace (addr + head) (16 * n - head)

/-- A read of the array that has to wait at its checker, with what that leaves (R201, R224): the command then waits at the Crown. -/
def State.rulesWait (s : State) (o : Origin) (g n : Nat) (gloveSpace : Bool) (addr : Nat) : Option State :=
  let head := rulesHead n addr
  let waits (a len : Nat) : Option State := match s.rulesPart o g n gloveSpace a len with
    | .wait s => some s
    | _ => none
  (waits addr head).or (if head == 16 * n then none else waits (addr + head) (16 * n - head))

/-- SET_RULES: the array is read first; an empty set is an epoch change at once. It waits for the changes of the glove that come before
it (R227). -/
def execSetRules (o : Origin) (n : Nat) (gloveSpace : Bool) (addr : Nat) (s : State) : Result :=
  .next (
    let g := (s.qGlove o.q).getD 0
    let reads := addr % 16 == 0 && n != 0 && s.serves && s.fnExists o.q.fnId && !s.blankGlove g
    if s.changeWaits (.setRules o n gloveSpace addr) g then s
    else
      match (if reads then s.rulesWait o g n gloveSpace addr else none) with
      | some s => s
      | none =>
        s.controlCmd (.setRules o n gloveSpace addr) o (fun s =>
          if addr % 16 != 0 then s.refuse o 0x0002
          else if n == 0 then s.beginChange g o (.rules [])
          else s.readRules o g n gloveSpace addr))

/-- The checks of R204 on an array, in order. -/
def rulesCode (vs : List Nat) : Option Nat :=
  if vs.any (fun v => !regionOk v) then some 0x0002
  else if 64 < vs.length then some 0x0003
  else if regionsOverlap (vs.map unpackRegion) then some 0x0301
  else none

/-- A read of a SET_RULES array is complete: with the other part complete too, the set is checked and its epoch change begins (R204,
R384). -/
def State.rulesRead (s : State) (o : Origin) (g n : Nat) : State :=
  let parts := s.net.outst.filter (fun r => r.ctx == ReqCtx.crownRules o g n)
  if parts.any (fun r => r.left != 0) then s
  else
    let s := parts.foldl (fun s r => s.endReq r.unit r.tag) s
    match parts.find? (fun r => r.code != 0) with
    | some r => s.complete o r.code 0
    | none =>
      let bs := parts.flatMap Req.bytes
      let vs := (List.range n).map (fun i => leNat ((bs.drop (16 * i)).take 16))
      if s.blankGlove g then s.refuse o 0x0101
      else
        match rulesCode vs with
        | some c => s.refuse o c
        | none => s.beginChange g o (.rules (vs.map unpackRegion))

/-! ### The violation latch (R213, R385) -/

/-- The glove's 32-byte WIN_ record (R213). -/
def State.winBytes (s : State) (g : Nat) : List Byte :=
  [0x00, 0x08, 0x10, 0x18].flatMap (fun i => leBytes 8 (s.winRecord g i))

/-- GET_RULE_FAULT: the record goes to the buffer in host memory. -/
def execGetRuleFault (o : Origin) (buf : Nat) (s : State) : Result :=
  .next (s.controlCmd (.getRuleFault o buf) o (fun s =>
    if buf % 32 != 0 then s.refuse o 0x0002 else s.crownWrites o buf (s.winBytes ((s.qGlove o.q).getD 0)) 0))

/-- CLEAR_RULE_FAULT: the latch is cleared. -/
def execClearRuleFault (o : Origin) (s : State) : Result :=
  .next (s.controlCmd (.clearRuleFault o) o (fun s =>
    (s.modGlove ((s.qGlove o.q).getD 0) (fun x => { x with latch := {} })).complete o 0 0))

/-! ### START_FINGER and STOP_FINGER (R386-R388, R424, R430, R431) -/

/-- Finger limit and rate ceiling that a queue's commands see (R383, R388). -/
def State.fgLimits (s : State) (q : QId) : Nat × Nat :=
  match s.qGlove q with
  | some g => ((s.glove g).fingerLimit, (s.glove g).rate)
  | none => (16, 64)

/-- START_FINGER is refused for the glove's state (R96, R48). -/
def State.fgBarred (s : State) (q : QId) : Bool :=
  match s.qGlove q with
  | some g => (s.glove g).state != .opened || ((s.glove g).tdisp && (s.glove g).tdi != .run)
  | none => false

/-- No engine of the Finger's quadrant has a free context (R431). -/
def State.noPlace (s : State) (f : FgId) : Bool :=
  ((List.range 16).map (unitId (linkQuad f.link) 3)).all (fun u =>
    s.fenced u || decide (32 ≤ s.work.fingers.countP (fun e => e.2.engine == some u)))

/-- A transfer continues from BYTES_DONE (R430). -/
def Transfer.again (t : Transfer) : Transfer :=
  { t with issued := t.done, sent := t.done, part := 0, ready := [], writing := [], acked := [] }

/-- The entry's bytes written without those beyond BYTES_DONE, which a resumed transfer writes again (R428, R430; log entry 141). -/
def Transfer.uncount (t : Transfer) (bytes : Nat) : Nat := (bytes + 2 ^ 32 - (t.acked.map Prod.snd).sum % 2 ^ 32) % 2 ^ 32

/-- The word halted on is a WAIT or a SIGNAL, which is performed again as the Finger holds it; its line leaves the buffer when it
completes (R400, R430). -/
def heldWord (pf : Bool) (w : BitVec 256) : Bool :=
  match decodeFg pf w with
  | some (.waitFlag ..) => true
  | some (.waitEvent ..) => true
  | some (.signal ..) => true
  | _ => false

/-- RESUME = 1 (R430): a transfer continues, a WAIT starts afresh, a SIGNAL and a FLUSH are performed again, any other instruction is
fetched again. -/
def State.fgResume (s : State) (f : FgId) : State :=
  let x := s.finger f
  let line := x.ibuf.filter (fun e => e.1 == x.pc / 64 * 64 && x.instr == some x.word && heldWord (f.fn == 0) x.word)
  let s := s.modFinger f (fun x => { x with ibuf := [], signalling := none })
  match x.transfer, x.waiting, x.signalling with
  | some t, _, _ => (s.modFinger f (fun x => { x with bytes := t.uncount x.bytes })).fgBegin f t.again
  | none, some w, _ => s.beginWait f { w with polling := false }
  | none, none, some g =>
    if g.flush then
      let ks := match x.entry with
        | some o => (s.queue o.q).wroteLinks
        | none => []
      (s.modFinger f (fun x => { x with signalling := some { g with zl := ks.map (· / 256) } })).sendZl f ks
    else s.modFinger f (fun x => { x with ibuf := line })
  | none, none, none => s.modFinger f (fun x => { x with ibuf := line })

/-- START_FINGER's effect (R386, R400, R424): RUNNING with a full bucket; a halted entry is retried, or completes with the latched
code. -/
def State.fgStart (s : State) (f : FgId) (resume bulk : Bool) (share burst : Nat) : State :=
  let x := s.finger f
  let s := if x.engine.isNone then s.placeFinger f else s
  let run (s : State) : State := s.modFinger f (fun x =>
    { x with state := .running, share := share, burst := burst, bulk := bulk, tokens := burst, stop := none, stopCode := none,
             halt := none })
  if x.state != .halted then (run s).modFinger f (fun x => { x with ibuf := [] })
  else if !resume then run (s.fgFinish f x.haltCode x.haltResult)
  else
    ((run s).modFinger f (fun x =>
      { x with haltCode := 0, faultAddr := 0, faultSpace := 0, faultFetch := false, faultWrite := false, faultCause := 0,
               bytesDone := 0 })).fgResume f

/-- START_FINGER, on a control queue or the admin queue. -/
def execStartFinger (o : Origin) (f : Nat) (resume bulk : Bool) (share burst : Nat) (s : State) : Result :=
  .next (s.controlCmd (.startFinger o f resume bulk share burst) o (fun s =>
    let (limit, ceiling) := s.fgLimits o.q
    let i : FgId := ⟨o.q.link, o.q.fn, f⟩
    s.checked o
      [(burst % 64 != 0, 0x0002),
       (decide (limit ≤ f) || share == 0 || decide (ceiling < share) || burst == 0 || decide (2 ^ 20 < burst), 0x0003),
       (s.fgBarred o.q, 0x0104), ((s.finger i).state == .running, 0x0407),
       ((s.finger i).engine.isNone && s.noPlace i, 0x0403)] (fun s =>
      (s.fgStart i resume bulk share burst).complete o 0 0)))

/-- STOP_FINGER: a running Finger stops at its next boundary, a halted one ends its entry with the latched code (R387, R432). -/
def execStopFinger (o : Origin) (f : Nat) (s : State) : Result :=
  .next (
    let i : FgId := ⟨o.q.link, o.q.fn, f⟩
    if (s.finger i).stop.isSome then s
    else s.controlCmd (.stopFinger o f) o (fun s =>
      if (s.fgLimits o.q).1 ≤ f then s.refuse o 0x0003
      else
        let x := s.finger i
        match x.state with
        | .running => (s.modFinger i (fun x => { x with stop := some (some o) })).fgBoundary i
        | .halted => (s.fgFinish i x.haltCode x.haltResult).fgStopped i (some o)
        | .stopped => s.complete o 0 0))

end Sys2Proof.Machine
end

