-- ==== Sys2Proof/Machine/Mgmt.lean ====
section
/-! DEFINITION. Ownership changes that the gates have acknowledged (R132), and the MGMT messages between Crowns (R76-R80,
R470-R473). -/

namespace Sys2Proof.Machine

/-! ### A peer's side: guest slots and their pages -/

/-- The guest slot that holds the key of a peer's glove (R62, R78). -/
def State.guestOf (s : State) (peer g : Nat) : Option Nat :=
  ((s.trust.band.find? (fun e => decide (1024 ≤ e.1) && e.2.valid && e.2.home == peer && e.2.glove == g))).map Prod.fst

/-- A free guest slot; the lowest is taken (DESIGN CHOICE, log entry 26). -/
def State.freeGuest (s : State) : Option Nat :=
  ((List.range 1024).map (· + 1024)).find? (fun b => !(s.slot b).valid)

/-- A PAGE_LIST carries up to 1,024 page numbers a message (R470). -/
def State.sendPages (s : State) (n g : Nat) (ps : List Nat) : State :=
  (chunks 1024 ps).foldl (fun s c => s.sendMgmt n (.pageList g 0 c)) s

/-- An answer that the peer's pages have been released; a guest slot whose last page is gone is freed (R78, R472). -/
def State.releasedFor (s : State) (n g count : Nat) : State :=
  let s := match s.guestOf n g with
    | some b => if (s.pagesOf b).isEmpty then s.modSlot b (fun _ => {}) else s
    | none => s
  s.sendMgmt n (.revokeAck g count)

/-- What follows an ownership change whose entries are written. -/
def State.ownDone (s : State) (c : OwnChange) : State :=
  match c.thn with
  | .grant o g ptes => s.grantDone o g s.boot.cfg.pos ptes
  | .reclaim g => s.reclaimDone g
  | .close _ => s
  | .peerAlloc n g =>
    match s.guestOf n g with
    | some _ => s.sendPages n g c.pages
    | none => (s.startOwn c.pages none .silent).1
  | .peerRelease n g => s.releasedFor n g c.pages.length
  | .peerRevoke n g => s.sendMgmt n (.revokeAck g c.pages.length)
  | .silent => s

/-- Start a change and, where nothing is asked, what follows it. -/
def State.changeOwn (s : State) (pages : List Nat) (owner : Option Nat) (thn : OwnThen) : State :=
  let (s, done) := s.startOwn pages owner thn
  if done then s.ownDone { pages := pages, waiting := [], thn := thn, owner := owner } else s

/-- OWNERSHIP_INVALIDATE_ACK: a gate's acknowledgement arrives, or the gate has been fenced and is not asked; after the last one the
entries are written (R132). -/
def execOwnershipInvalidateAck (gate : Nat) (s : State) : Result :=
  .next (
    let gone := s.fenced (gateUnit gate)
    match s.pool.owning.find? (fun c => c.acking.contains gate || (gone && c.waiting.contains gate)) with
    | none => s
    | some c =>
      let c' := { c with acking := c.acking.filter (· != gate),
                         waiting := if gone then c.waiting.filter (· != gate) else c.waiting }
      if !c'.waiting.isEmpty || !c'.acking.isEmpty then
        { s with pool.owning := s.pool.owning.map (fun d => if d == c then c' else d) }
      else
        let s : State := { s with pool.owning := eraseFirst (· == c) s.pool.owning }
        (s.writeOwn c.pages c.owner).ownDone c)

/-- A MGMT message of an admitted peer is taken up (R469). -/
def State.mgmtFrom (s : State) (n : Nat) (f : State → State) : State :=
  if s.serves && (s.peer n).state == .admitted then f s else s

/-- KEY_TRANSFER: the key goes into a guest slot (R76, R78, R470); a glove that holds one keeps it. -/
def execKeyTransfer (peer glove : Nat) (key : Key) (s : State) : Result :=
  .next (s.mgmtFrom peer (fun s =>
    match (s.guestOf peer glove).or s.freeGuest with
    | some b =>
      (s.modSlot b (fun _ => { key := key, valid := true, home := peer, glove := glove })).sendMgmt peer (.keyConfirm glove b 0)
    | none => s.sendMgmt peer (.keyConfirm glove 0 0x0106)))

/-- PAGE_ALLOC: free pages go to the guest slot (R168, R471). An allocation of the glove that is under way answers a repeat; an
answer OUT_OF_RANGE carries the free pages as its one number (DESIGN CHOICE, log entry 27). -/
def execPageAlloc (peer glove m : Nat) (s : State) : Result :=
  .next (s.mgmtFrom peer (fun s =>
    let again := s.pool.owning.any (fun c => c.thn == .peerAlloc peer glove)
    match s.guestOf peer glove with
    | none => s.sendMgmt peer (.pageList glove 0x0106 [])
    | some b =>
      if again then s
      else if s.grantsStopped then s.sendMgmt peer (.pageList glove 0x0203 [])
      else if s.freeCount < m then s.sendMgmt peer (.pageList glove 0x0003 [s.freeCount])
      else s.changeOwn (s.takeFree s.pages 0 m) (some b) (.peerAlloc peer glove)))

/-- PAGE_RELEASE: the named pages that the glove's guest slot owns are released, then answered (R60, R472). -/
def execPageRelease (peer glove : Nat) (pages : List Nat) (s : State) : Result :=
  .next (s.mgmtFrom peer (fun s =>
    let again := s.pool.owning.any (fun c => c.thn == .peerRelease peer glove)
    let mine := match s.guestOf peer glove with
      | some b => pages.filter (fun p => (s.own p).state == 1 && (s.own p).owner == b)
      | none => []
    if again then s else s.changeOwn mine none (.peerRelease peer glove)))

/-- KEY_REVOKE: the guest slot is zeroized, then its pages are released, then the revocation is acknowledged (R79). -/
def execKeyRevoke (peer glove : Nat) (s : State) : Result :=
  .next (s.mgmtFrom peer (fun s =>
    match s.guestOf peer glove with
    | none =>
      if s.pool.owning.any (fun c => c.thn == .peerRevoke peer glove) then s
      else s.sendMgmt peer (.revokeAck glove 0)
    | some b => (s.modSlot b (fun _ => {})).changeOwn (s.pagesOf b) none (.peerRevoke peer glove)))

/-! ### The home side -/

/-- Take an outstanding MGMT request of a glove off the peer's list, if one meets the test. -/
def State.mgmtAnswered (s : State) (n g : Nat) (is : Mgmt → Bool) : Option (Mgmt × State) :=
  match (s.peer n).mgmt.find? (fun r => r.glove == g && is r.msg) with
  | some r => some (r.msg, s.modPeer n (fun p => { p with mgmt := eraseFirst (· == r) p.mgmt }))
  | none => none

/-- The message is of a kind. -/
def Mgmt.isTransfer : Mgmt → Bool
  | .keyTransfer => true
  | _ => false
def Mgmt.isAlloc : Mgmt → Bool
  | .pageAlloc _ => true
  | _ => false
def Mgmt.isEnd : Mgmt → Bool
  | .pageRelease _ => true
  | .keyRevoke => true
  | _ => false

/-- The grant of a glove's pages on a peer in progress. -/
def State.grantOf (s : State) (n g : Nat) : Option PeerGrant := s.basket.grants.find? (fun x => x.glove == g && x.home == n)

/-- A grant on a peer fails: its command completes and changes nothing (R471). Pages that the peer has listed go back to it, and a key
sent for this grant alone is revoked (DEDUCED, log entry 28). -/
def State.grantFailed (s : State) (x : PeerGrant) (finish : State → State) : State :=
  let listed := (s.peer x.home).listed
  let s : State := { s with basket.grants := eraseFirst (· == x) s.basket.grants }
  let s := s.modPeer x.home (fun p => { p with listed := [] })
  let keeps := !(s.entriesOf x.glove (fun e => e.home == x.home)).isEmpty
  let s := if !(s.glove x.glove).guests.contains x.home then s
    else if keeps then (if listed.isEmpty then s else s.askRelease x.home x.glove listed)
    else (s.modGlove x.glove (fun g => { g with guests := g.guests.filter (· != x.home) })).askRevoke x.home x.glove
  finish s

/-- KEY_CONFIRM: the grant goes on with PAGE_ALLOC, or fails with the peer's code (R76, R471). -/
def execKeyConfirm (peer glove slot code : Nat) (s : State) : Result :=
  .next (s.mgmtFrom peer (fun s =>
    match s.mgmtAnswered peer glove Mgmt.isTransfer, s.grantOf peer glove with
    | some (_, s), some x =>
      if code == 0 && decide (1024 ≤ slot) then
        (s.modGlove glove (fun g => { g with guests := g.guests ++ [peer] })).askPages peer glove x.m
      else s.grantFailed x (fun s => s.refuse x.origin code)
    | _, _ => s))

/-- PAGE_LIST: the pages are collected; with the last of them the page-table entries are written (R471). -/
def execPageList (peer glove code : Nat) (pages : List Nat) (s : State) : Result :=
  .next (s.mgmtFrom peer (fun s =>
    match s.grantOf peer glove with
    | none => s
    | some x =>
      if !(s.peer peer).mgmt.any (fun r => r.glove == glove && r.msg.isAlloc) then s
      else if code != 0 then
        let s := ((s.mgmtAnswered peer glove Mgmt.isAlloc).map Prod.snd).getD s
        s.grantFailed x (fun s => s.refuseWith x.origin code (if code == 0x0003 then pages.headD 0 else 0))
      else
        let got := (s.peer peer).listed ++ pages
        if got.length < x.m then s.modPeer peer (fun p => { p with listed := got })
        else
          let s := ((s.mgmtAnswered peer glove Mgmt.isAlloc).map Prod.snd).getD s
          let s := s.modPeer peer (fun p => { p with listed := [] })
          let s : State := { s with basket.grants := eraseFirst (· == x) s.basket.grants }
          let ptes := ((got.take x.m).zipIdx).map (fun (p, i) => (x.start / 0x200000 + i, p, x.group, x.readOnly))
          s.grantDone x.origin glove peer ptes))

/-- REVOKE_ACK: a revocation, or the release of a reclaim's pages, has been carried out (R79, R472). -/
def execRevokeAck (peer glove _pages : Nat) (s : State) : Result :=
  .next (s.mgmtFrom peer (fun s =>
    match s.mgmtAnswered peer glove Mgmt.isEnd with
    | some (.pageRelease _, s) => s.reclaimAnswered peer glove
    | some (_, s) => s
    | none => s))

/-- QUARANTINE_NOTICE: the peer is fenced (R473). -/
def execQuarantineNotice (peer _cause : Nat) (s : State) : Result :=
  .next (s.mgmtFrom peer (fun s => s.fencePeer peer 3 none))

/-- MGMT_RETRY_TIMEOUT: the request is sent again; after three attempts its operation fails with PEER_LOST (R470). -/
def execMgmtRetryTimeout (peer glove : Nat) (s : State) : Result :=
  .next (s.mgmtFrom peer (fun s =>
    match (s.peer peer).mgmt.find? (fun r => r.glove == glove) with
    | none => s
    | some r =>
      if r.attempts < 3 then
        let s := s.modPeer peer (fun p =>
          { p with mgmt := p.mgmt.map (fun d => if d == r then { d with attempts := d.attempts + 1 } else d) })
        s.sendMgmt peer (match r.msg with
          | .keyTransfer => .keyTransfer glove (s.slot glove).key
          | .pageAlloc m => .pageAlloc glove m
          | .pageRelease ps => .pageRelease glove ps
          | .keyRevoke => .keyRevoke glove)
      else
        let s := s.modPeer peer (fun p => { p with mgmt := eraseFirst (· == r) p.mgmt })
        match r.msg with
        | .keyRevoke => s
        | .pageRelease _ => s.reclaimLost glove
        | _ =>
          match s.grantOf peer glove with
          | some x => s.grantFailed x (fun s => s.complete x.origin 0x0600 0)
          | none => s))

end Sys2Proof.Machine
end

