-- ==== Sys2Proof/Machine/Spdm.lean ====
section
/-! DEFINITION. SPDM: the responder on the DOE mailbox of PF0 of each link (R81-R86), and the session between the two Crowns of a
basket pair (R74, R75). -/

namespace Sys2Proof.Machine

/-! ### The two carriers -/

/-- The attempt ends: the peer's links in ADMITTING go to DOWN with cause ADMISSION_REFUSED and the peer is fenced (R75, R457, R473). -/
def State.admissionRefused (s : State) (l : Nat) : State :=
  let n := s.peerOf l
  let ls := (s.peerLinks n).filter (fun k => (s.blink k).state == .admitting)
  ((ls.foldl (fun s k => s.borderDown k 5) s).fencePeer n 4 none).modPeer n (fun p =>
    { p with spdm := 0, chainOk := false, session := none })

/-- An SPDM request: a host's reaches the responder in Service, Degraded and Drain, and is answered with ERROR Unspecified in Blank and
Quarantine (R99, R561); a peer's belongs to a link in ADMITTING (R75), and is answered so in Quarantine too. -/
def State.spdm (s : State) (c : SpdmCh) (host : Nat → Option Nat → State → State) (border : Nat → State → State) : State :=
  match c with
  | .host l n =>
    if !s.awake || !s.linkExists l || !(s.link l).up then s
    else if s.serves then host l n s
    else if s.sys.mode == .loading then s
    else s.emit (.spdm c .errorUnspecified)
  | .border l =>
    if s.serves && (s.blink l).state == .admitting then border l s
    else if s.awake && s.sys.mode == .quarantine then s.emit (.spdm c .errorUnspecified)
    else s

/-- A peer's SPDM response belongs to a link in ADMITTING (R75). -/
def State.spdmBack (s : State) (l : Nat) (f : Nat → State → State) : State :=
  if s.serves && (s.blink l).state == .admitting then f l s else s

/-- A response. -/
def State.reply (s : State) (c : SpdmCh) (r : Spdm) : State := s.emit (.spdm c r)

/-- A message comes in an established secure session of its link (R68, R84). -/
def State.inSession (s : State) (l : Nat) (n : Option Nat) : Bool :=
  (s.link l).sessions.any (fun x => some x.id == n && x.established)

/-- The Crown gives no fresh randomness (R67). -/
def State.noEntropy (s : State) : Bool := s.trust.entropyFailed || !s.trust.drbgReady

/-- This device answers on a link: it has the higher position (R75). -/
def State.responds (s : State) (l : Nat) : Bool := decide (s.peerOf l < s.boot.cfg.pos)

/-- One step of the exchange as responder: in its order and with its checks met it is answered, else the attempt ends (R75). -/
def State.answerPeer (s : State) (l : Nat) (stages : List Nat) (next : Nat) (ok : Bool) (r : Spdm) : State :=
  let n := s.peerOf l
  if s.responds l && stages.contains (s.peer n).spdm && ok then
    (s.modPeer n (fun p => { p with spdm := next })).reply (.border l) r
  else s.admissionRefused l

/-- A peer's chain under R74: it verifies to the root, its measurement 5 is this device's, its position is the topology's. -/
def State.chainGood (s : State) (n : Nat) (c : PeerChain) : Bool :=
  Config.chainVerifies c.chain && c.measurement5 == s.boot.signer.getD 0 && c.position == n && s.peerKnown n

/-- The session is established and the peer admitted: every ADMITTING link to it goes UP (R457, R476). -/
def State.admitPeer (s : State) (n : Nat) : State :=
  let (k, s) := s.draw
  let s := s.modPeer n (fun p => { p with state := .admitted, spdm := 11, session := some (k.setWidth 256) })
  (s.peerLinks n).foldl (fun s l => if (s.blink l).state == .admitting then s.setBState l .up else s) s

/-! ### Measurements and the certificate chain (R82, R83) -/

/-- A measurement's block in DMTF format (R83). -/
def State.block (s : State) (i : Nat) : List Byte := Config.dmtfBlock i (s.measured i).1 (s.measured i).2

/-- The measurement summary hash of a type: none, TCB (indices 1-3) or all; no answer for another type (R84). -/
def State.summary (s : State) (t : Nat) : Option (Option Digest) :=
  match t with
  | 0 => some none
  | 1 => some (some (Config.sha384 (([1, 2, 3] : List Nat).flatMap s.block)))
  | 0xFF => some (some (Config.sha384 (([1, 2, 3, 4, 5, 6] : List Nat).flatMap s.block)))
  | _ => none

/-- The chain of slot 0 (R82). -/
def State.chain (s : State) : List Byte :=
  Config.certChain (s.trust.identityKey.getD 0) (s.trust.aliasKey.getD 0) Config.serial Config.stepping Config.securityLevel
    (s.measuredAll [1, 2, 3, 4, 5])

/-- A signature by the alias key over a transcript, whose digest is a free value (log entry 29). -/
def State.signed (s : State) : BitVec 768 × State :=
  let (d, s) := s.draw
  (Config.ecdsaSign (s.trust.aliasKey.getD 0) (d.setWidth 384), s)

/-! ### The requests -/

/-- GET_VERSION: VERSION lists 0x12 only. -/
def execGetVersion (c : SpdmCh) (s : State) : Result :=
  .next (s.spdm c (fun _ _ s => s.reply c (.version [0x12])) (fun l s => s.answerPeer l [1] 2 true (.version [0x12])))

/-- The flags of CAPABILITIES, MEAS_CAP 0b10 among them (R84); toward a peer MUT_AUTH_CAP and ENCAP_CAP too (R75). -/
def capsOf (peer : Bool) : SpdmCaps := ⟨true, true, 2, true, true, true, peer, peer⟩

/-- CAPABILITIES: CTExponent 20, DataTransferSize and MaxSPDMmsgSize 4,096 (R84). -/
def capsRsp (peer : Bool) : Spdm := .capabilities (capsOf peer) 20 4096 4096

/-- The flags that R75 has the requester set. -/
def SpdmCaps.asked (x : SpdmCaps) : Bool := x.cert && x.keyEx && x.encrypt && x.mac && x.mutAuth && x.encap

/-- GET_CAPABILITIES. -/
def execGetCapabilities (c : SpdmCh) (caps : SpdmCaps) (s : State) : Result :=
  .next (s.spdm c (fun _ _ s => s.reply c (capsRsp false)) (fun l s => s.answerPeer l [2] 3 (SpdmCaps.asked caps) (capsRsp true)))

/-- Every algorithm of R84 is offered. -/
def SpdmAlgs.complete (a : SpdmAlgs) : Bool :=
  a.ecdsaP384 && a.sha384 && a.dheP384 && a.aes256gcm && a.keySchedule && a.dmtf

/-- The algorithms selected. -/
def algsOf (peer : Bool) : SpdmAlgs := ⟨true, true, true, true, true, true, peer⟩

/-- NEGOTIATE_ALGORITHMS: the fixed set, or ERROR InvalidRequest. -/
def execNegotiateAlgorithms (c : SpdmCh) (a : SpdmAlgs) (s : State) : Result :=
  .next (s.spdm c
    (fun _ _ s => s.reply c (if SpdmAlgs.complete a then .algorithms (algsOf false) else .errorInvalidRequest))
    (fun l s => s.answerPeer l [3] 4 (SpdmAlgs.complete a && a.reqBaseP384) (.algorithms (algsOf true))))

/-- GET_DIGESTS: the digest of slot 0. -/
def execGetDigests (c : SpdmCh) (s : State) : Result :=
  .next (
    let r : Spdm := .digests (Config.sha384 s.chain)
    s.spdm c (fun _ _ s => s.reply c r) (fun l s => s.answerPeer l [4] 5 true r))

/-- GET_CERTIFICATE: at most 1,024 bytes of the slot-0 chain from an offset. An offset beyond the chain is ERROR InvalidRequest (log
entry 30). -/
def execGetCertificate (c : SpdmCh) (slot off len : Nat) (s : State) : Result :=
  .next (
    let bs := (s.chain.drop off).take (min len 1024)
    let r : Spdm := .certificate bs (s.chain.length - off - bs.length)
    let ok := slot == 0 && decide (off < s.chain.length)
    s.spdm c (fun _ _ s => s.reply c (if ok then r else .errorInvalidRequest)) (fun l s => s.answerPeer l [5, 6] 6 ok r))

/-- CHALLENGE: a signed answer with the measurement summary asked for. -/
def execChallenge (c : SpdmCh) (slot sumType : Nat) (s : State) : Result :=
  .next (s.spdm c
    (fun _ _ s =>
      match s.summary sumType with
      | none => s.reply c .errorInvalidRequest
      | some h =>
        if slot != 0 then s.reply c .errorInvalidRequest
        else if s.noEntropy then s.reply c (.refused 0x0107)
        else
          let (g, s) := s.signed
          s.reply c (.challengeAuth h g))
    (fun l s => s.admissionRefused l))

/-- GET_MEASUREMENTS: the count for index 0, one block for 1 to 6, all for 0xFF; with or without a signature. Either answer carries a
fresh nonce, so both are refused without entropy (R67; DESIGN CHOICE for the unsigned one, log entry 94). -/
def execGetMeasurements (c : SpdmCh) (index : Nat) (withSig : Bool) (s : State) : Result :=
  .next (s.spdm c
    (fun _ _ s =>
      let bs : Option (List (Nat × List Byte)) :=
        if index == 0 then some [(0, [6])]
        else if index ≤ 6 then some [(index, s.block index)]
        else if index == 0xFF then some (([1, 2, 3, 4, 5, 6] : List Nat).map (fun i => (i, s.block i)))
        else none
      match bs with
      | none => s.reply c .errorInvalidRequest
      | some bs =>
        if s.noEntropy then s.reply c (.refused 0x0107)
        else if withSig then
          let (g, s) := s.signed
          s.reply c (.measurements bs (some g))
        else s.reply c (.measurements bs none))
    (fun l s => s.admissionRefused l))

/-- KEY_EXCHANGE: a session with a key of its own, at most four a link (R84, R85); its responder part needs fresh randomness (R67).
Parameters are checked first, then entropy, then the limit (DESIGN CHOICE, log entry 113). -/
def execKeyExchange (c : SpdmCh) (slot sumType : Nat) (p384 : Bool) (s : State) : Result :=
  .next (s.spdm c
    (fun l _ s =>
      match s.summary sumType with
      | none => s.reply c .errorInvalidRequest
      | some h =>
        if slot != 0 || !p384 then s.reply c .errorInvalidRequest
        else if s.noEntropy then s.reply c (.refused 0x0107)
        else if 4 ≤ (s.link l).sessions.length then s.reply c .errorSessionLimit
        else
          let (k, s) := s.draw
          let n := (s.link l).nextSession
          (s.modLink l (fun x =>
            { x with nextSession := (n + 1) % 2 ^ 32,
                     sessions := x.sessions ++ ([{ id := n, key := k.setWidth 256 }] : List Session) })).reply c (.keyExchangeRsp n h false))
    (fun l s => s.answerPeer l [6] 7 (slot == 0 && p384 && sumType == 0xFF && !s.noEntropy)
      (.keyExchangeRsp 0 ((s.summary 0xFF).getD none) true)))

/-- FINISH: a host's comes encrypted in its session and is established; a peer's, with the requester's signature, admits it (R75, R84).
`sigOk`: what the message is verified by, its key confirmation and a peer's signature, agrees. A host's that fails gets ERROR
InvalidRequest (DESIGN CHOICE, log entry 114). -/
def execFinish (c : SpdmCh) (session : Nat) (sigOk : Bool) (s : State) : Result :=
  .next (s.spdm c
    (fun l n s =>
      if sigOk && n == some session && (s.link l).sessions.any (fun x => x.id == session && !x.established) then
        (s.modLink l (fun x =>
          { x with sessions := x.sessions.map (fun y => if y.id == session then { y with established := true } else y) })).reply c
          (.finishRsp session)
      else s.reply c .errorInvalidRequest)
    (fun l s =>
      let n := s.peerOf l
      let good := s.responds l && (s.peer n).spdm == 10 && (s.peer n).chainOk && sigOk
      if good then (s.admitPeer n).reply c (.finishRsp session) else s.admissionRefused l))

/-- END_SESSION: the session ends, its keys and its key shares are zeroized (R70, R84); between Crowns the session keys go (R75). -/
def execEndSession (c : SpdmCh) (s : State) : Result :=
  .next (match c with
    | .border l =>
      let n := s.peerOf l
      if s.serves && (s.peer n).session.isSome then
        (s.modPeer n (fun p => { p with session := none, spdm := 0 })).reply c .endSessionAck
      else s.spdm c (fun _ _ s => s) (fun l s => s.admissionRefused l)
    | .host _ _ => s.spdm c
        (fun l n s =>
          match n with
          | none => s.reply c .errorInvalidRequest
          | some i =>
            if (s.link l).sessions.any (fun x => x.id == i) then
              let s := s.modLink l (fun x => { x with sessions := x.sessions.filter (fun y => y.id != i) })
              ({ s with trust.shares := s.trust.shares.filter (fun e => !(e.2.link == l && e.2.session == i)) } : State).reply c
                .endSessionAck
            else s.reply c .errorInvalidRequest)
        (fun _ s => s))

/-- GET_ENCAPSULATED_REQUEST: answered with GET_DIGESTS (R75); a host gets ERROR UnsupportedRequest (R84). -/
def execGetEncapsulatedRequest (c : SpdmCh) (s : State) : Result :=
  .next (s.spdm c (fun _ _ s => s.reply c .errorUnsupportedRequest)
    (fun l s => s.answerPeer l [7] 8 true (.encapsulatedRequest false)))

/-- DELIVER_ENCAPSULATED_RESPONSE: the digests are followed by GET_CERTIFICATE, the certificate is verified (R74, R75). -/
def execDeliverEncapsulatedResponse (c : SpdmCh) (r : EncapResponse) (s : State) : Result :=
  .next (s.spdm c (fun _ _ s => s.reply c .errorUnsupportedRequest)
    (fun l s =>
      let n := s.peerOf l
      match r with
      | .digests => s.answerPeer l [8] 9 true (.encapsulatedRequest true)
      | .certificate p =>
        let s' := s.modPeer n (fun x => { x with chainOk := s.chainGood n p })
        s'.answerPeer l [9] 10 (s.chainGood n p) .encapsulatedAck
      | .other => s.admissionRefused l))

/-- SPDM_UNSUPPORTED_REQUEST: the ERROR that the rules name (R84, R92); between Crowns the attempt ends (R75). -/
def execSpdmUnsupportedRequest (c : SpdmCh) (kind : SpdmBad) (s : State) : Result :=
  .next (s.spdm c
    (fun l n s => s.reply c (match kind with
      | .requestCode => .errorUnsupportedRequest
      | .vendorDefined => .errorUnsupportedRequest
      | .tdispVendor => if s.inSession l n then .tdispErrorUnsupported else .errorSessionRequired
      | .ideKmNoSession => .errorSessionRequired
      | .tdispNoSession => .errorSessionRequired))
    (fun l s => s.admissionRefused l))

/-! ### The requester (R75) -/

/-- The next request of the exchange goes out. -/
def State.askNext (s : State) (n stage : Nat) : State :=
  (s.modPeer n (fun p => { p with spdm := stage })).sendMgmt n (.spdm (spdmRequest stage))

/-- PEER_SPDM_RESPONSE: the response to the last request is checked and the next request sent; anything else ends the attempt. -/
def execPeerSpdmResponse (link : Nat) (r : PeerResponse) (s : State) : Result :=
  .next (s.spdmBack link (fun l s =>
    let n := s.peerOf l
    let go (good : Bool) (s : State) : State :=
      if !s.responds l && good then s.askNext n ((s.peer n).spdm + 1) else s.admissionRefused l
    let at' (k : Nat) : Bool := (s.peer n).spdm == k
    match r with
    | .version only => go (at' 1 && only) s
    | .capabilities caps => go (at' 2 && caps == capsOf true) s
    | .algorithms a => go (at' 3 && a == algsOf true) s
    | .digests => go (at' 4) s
    | .certificate p =>
      let s' := s.modPeer n (fun x => { x with chainOk := s.chainGood n p })
      go (at' 5 && s.chainGood n p && !s.noEntropy) s'
    | .keyExchangeRsp sigOk mutAuth => go (at' 6 && sigOk && mutAuth) s
    | .encapsulatedGetDigests => go (at' 7) s
    | .encapsulatedGetCertificate slot => go (at' 8 && slot == 0) s
    | .encapsulatedAck => go (at' 9) s
    | .error => s.admissionRefused l
    | .other => s.admissionRefused l))

/-- FINISH_RSP: the session is established and the peer admitted. -/
def execFinishRsp (link : Nat) (s : State) : Result :=
  .next (s.spdmBack link (fun l s =>
    let n := s.peerOf l
    if !s.responds l && (s.peer n).spdm == 10 && (s.peer n).chainOk then s.admitPeer n else s.admissionRefused l))

end Sys2Proof.Machine
end

