-- ==== Sys2Proof/Machine/Tdisp.lean ====
section
/-! DEFINITION. What SPDM secure sessions carry: IDE key management (R87-R91), TDISP (R92-R98, R659), the tenant's glove keys
(R68-R73), and the Crown's randomness (R65-R67). -/

namespace Sys2Proof.Machine

/-- A request that R84 serves inside a secure session only; outside it `out` is the answer. Between Crowns it ends the attempt. -/
def State.inSpdm (s : State) (c : SpdmCh) (out : Spdm) (f : Nat → State → State) : State :=
  s.spdm c (fun l n s => if s.inSession l n then f l s else s.reply c out) (fun l s => s.admissionRefused l)

/-! ### IDE_KM (R88, R89, R91) -/

/-- QUERY: the link's streams. -/
def execIdeKmQuery (c : SpdmCh) (s : State) : Result :=
  .next (s.inSpdm c .errorSessionRequired (fun l s =>
    s.reply c (.ideQueryResp ((s.link l).ide.map (fun i => (i.id, i.secure))))))

/-- Change the stream of an ID. -/
def State.modStream (s : State) (l id : Nat) (m : IdeStream → IdeStream) : State :=
  s.modLink l (fun x => { x with ide := x.ide.map (fun i => if i.id == id then m i else i) })

/-- KEY_PROG: one key of a stream; a mode that R89 does not support, or a stream that the link does not have, programs nothing. -/
def execIdeKmKeyProg (c : SpdmCh) (stream : Nat) (slot : IdeSlot) (mode : IdeMode) (key : Key) (s : State) : Result :=
  .next (s.inSpdm c .errorSessionRequired (fun l s =>
    let ok := mode.aes256gcm && mode.flit && !mode.aggregation && !mode.pcrc && (s.link l).ide.any (fun i => i.id == stream)
    if ok then
      (s.modStream l stream (fun i => { i with keys := i.keys.filter (fun k => k.1 != slot) ++ [(slot, key)] })).reply c (.ideKpAck true)
    else s.reply c (.ideKpAck false)))

/-- The stream holds a key set for every sub-stream in both directions (R88). -/
def IdeStream.keyed (i : IdeStream) (ks : Nat) : Bool :=
  ([0, 1] : List Nat).all (fun d => ([0, 1, 2] : List Nat).all (fun b => i.keys.any (fun k => k.1 == ⟨ks, d, b⟩)))

/-- K_SET_GO: a stream whose key set is whole runs on it and is Secure (R90, R91). -/
def execIdeKmKSetGo (c : SpdmCh) (stream keySet : Nat) (s : State) : Result :=
  .next (s.inSpdm c .errorSessionRequired (fun l s =>
    (s.modStream l stream (fun i => if IdeStream.keyed i keySet then { i with secure := true, active := some keySet } else i)).reply c
      .ideGoStopAck))

/-- K_SET_STOP: the key set goes; a stream that runs on it is Insecure until it is keyed and started again (R91). -/
def execIdeKmKSetStop (c : SpdmCh) (stream keySet : Nat) (s : State) : Result :=
  .next (s.inSpdm c .errorSessionRequired (fun l s =>
    (s.modStream l stream (fun i =>
      let i := { i with keys := i.keys.filter (fun k => k.1.keySet != keySet) }
      if i.active == some keySet then { i with secure := false, active := none } else i)).reply c .ideGoStopAck))

/-! ### TDISP (R92, R93, R98, R659) -/

/-- A TDISP request names a VF of the link; `f` has its glove (log entry 31). -/
def State.tdisp (s : State) (c : SpdmCh) (vf : Nat) (f : Nat → Nat → State → State) : State :=
  s.inSpdm c .errorSessionRequired (fun l s =>
    if vf == 0 || !s.fnEnabled ⟨l, vf⟩ then s.reply c .tdispErrorInterface else f l (s.gloveOf ⟨l, vf⟩) s)

/-- GET_TDISP_VERSION and GET_TDISP_CAPABILITIES. -/
def execGetTdispVersion (c : SpdmCh) (vf : Nat) (s : State) : Result :=
  .next (s.tdisp c vf (fun _ _ s => s.reply c .tdispVersion))
def execGetTdispCapabilities (c : SpdmCh) (vf : Nat) (s : State) : Result :=
  .next (s.tdisp c vf (fun _ _ s => s.reply c .tdispCapabilities))


/-- LOCK_INTERFACE_REQUEST (R93, R659): the stream is fixed, a nonce is drawn and the pages held are noted (R98). -/
def execLockInterfaceRequest (c : SpdmCh) (vf : Nat) (s : State) : Result :=
  .next (s.tdisp c vf (fun l g s =>
    let x := s.glove g
    match s.tdiStream l vf with
    | none => s.reply c .tdispErrorState
    | some n =>
      if x.tdi != .unlocked || !(x.state == .keyPending || x.state == .opened) || !x.tdisp then s.reply c .tdispErrorState
      else if s.noEntropy then s.reply c (.refused 0x0107)
      else
        let (d, s) := s.draw
        let nonce : BitVec 256 := d.setWidth 256
        let held := (s.heldOf g).length
        (s.modGlove g (fun x => { x with tdi := .locked, stream := some n, nonce := nonce, lockPages := held })).reply c (.tdispLock nonce)))

/-- The report's device-specific data (R98). -/
def State.reportData (s : State) (l g : Nat) : List Byte :=
  let x := s.glove g
  let ws := x.windows.filterMap (fun e => match e.2 with
    | .valid start len _ _ _ _ _ => some (start, len)
    | _ => none)
  let source := if x.state == .keyPending then 0 else x.keySource
  let abv := s.boot.cfg.abv.filter (fun r => r.1 == g)
  leBytes 2 g ++ leBytes 1 source ++ leBytes 1 0 ++ leBytes 8 (if source == 0 then 0 else x.kcv.toNat) ++ leBytes 4 x.lockPages ++
    leBytes 1 (s.link l).vfSize ++ leBytes 1 x.queueLimit ++ leBytes 1 x.fingerLimit ++ leBytes 1 ws.length ++
    ws.flatMap (fun w => leBytes 8 w.1 ++ leBytes 8 w.2) ++
    leBytes 48 (Config.sha384 (abv.flatMap (fun r => leBytes 2 r.1 ++ leBytes 6 0 ++ leBytes 8 r.2.1 ++ leBytes 8 r.2.2))).toNat

/-- GET_DEVICE_INTERFACE_REPORT: the MMIO ranges of BAR0 and BAR2, then the device-specific data (R98). -/
def execGetDeviceInterfaceReport (c : SpdmCh) (vf : Nat) (s : State) : Result :=
  .next (s.tdisp c vf (fun l g s =>
    let x := s.link l
    let size := 2 ^ x.vfSize
    let ranges := [(x.vfBar0 + (vf - 1) * 0x100000, 0x100000), (x.vfBar2 + (vf - 1) * size, size)]
    s.reply c (.tdispReport (Config.mmioRanges ranges ++ s.reportData l g))))

/-- GET_DEVICE_INTERFACE_STATE. -/
def execGetDeviceInterfaceState (c : SpdmCh) (vf : Nat) (s : State) : Result :=
  .next (s.tdisp c vf (fun _ g s => s.reply c (.tdispState (s.glove g).tdi)))

/-- START_INTERFACE_REQUEST (R93). -/
def execStartInterfaceRequest (c : SpdmCh) (vf : Nat) (nonce : BitVec 256) (s : State) : Result :=
  .next (s.tdisp c vf (fun _ g s =>
    let x := s.glove g
    if x.tdi == .locked && x.state == .opened && x.nonce == nonce then
      (s.modGlove g (fun x => { x with tdi := .run })).reply c .tdispStart
    else s.reply c .tdispErrorState))

/-- STOP_INTERFACE_REQUEST (R93). -/
def execStopInterfaceRequest (c : SpdmCh) (vf : Nat) (s : State) : Result :=
  .next (s.tdisp c vf (fun _ g s =>
    if (s.glove g).tdi == .unlocked then s.reply c .tdispErrorState
    else (s.modGlove g (fun x => { x with tdi := .unlocked, stream := none, nonce := 0 })).reply c .tdispStop))

/-- The TDISP requests that R92 does not support. -/
def State.tdispUnsupported (s : State) (c : SpdmCh) : State :=
  s.inSpdm c .errorSessionRequired (fun _ s => s.reply c .tdispErrorUnsupported)

/-- BIND_P2P_STREAM_REQUEST, UNBIND_P2P_STREAM_REQUEST and SET_MMIO_ATTRIBUTE_REQUEST (R92). -/
def execBindP2pStreamRequest (c : SpdmCh) (_vf : Nat) (s : State) : Result := .next (s.tdispUnsupported c)
def execUnbindP2pStreamRequest (c : SpdmCh) (_vf : Nat) (s : State) : Result := .next (s.tdispUnsupported c)
def execSetMmioAttributeRequest (c : SpdmCh) (_vf : Nat) (s : State) : Result := .next (s.tdispUnsupported c)

/-! ### The tenant's key (R68-R72) -/

/-- A key request: the code that R68 gives outside a session, or for a glove of another link. -/
def State.keyRequest (s : State) (c : SpdmCh) (g : Nat) (out : Nat → Spdm) (f : Nat → Nat → State → State) : State :=
  s.spdm c
    (fun l n s =>
      if !s.inSession l n then s.reply c (out 0x0105)
      else if !s.linkHas l g then s.reply c (out 0x0108)
      else f l (n.getD 0) s)
    (fun l s => s.admissionRefused l)

/-- GLOVE_KEY_SHARE: a fresh share replaces the glove's old one (R67, R70). -/
def execGloveKeyShare (c : SpdmCh) (glove : Nat) (s : State) : Result :=
  .next (s.keyRequest c glove (fun e => .keyShareRsp glove e 0 0 0) (fun l n s =>
    if s.noEntropy then s.reply c (.keyShareRsp glove 0x0107 0 0 0)
    else
      let (a, s) := s.draw
      let (b, s) := s.draw
      let (d, s) := s.draw
      let x : Share := { id := (d.setWidth 32).toNat, link := l, session := n, priv := a.setWidth 384, salt := b.setWidth 384 }
      ({ s with trust.shares := s.trust.shares.set glove x } : State).reply c
        (.keyShareRsp glove 0 x.id x.salt (Config.ecdhPublic x.priv))))

/-- The key-encryption key and the iv of a share (R69). -/
def shareKek (g : Nat) (x : Share) (point : BitVec 768) : Key × BitVec 96 :=
  let prk := Config.hkdfExtract (leBytes 48 x.salt.toNat) (leBytes 48 (Config.ecdhShared x.priv point).toNat)
  let info (label : String) : List Byte := ascii label ++ leBytes 2 g ++ leBytes 4 x.id
  (Config.hkdfExpand prk (info "TV8440 glove kek"), (Config.hkdfExpand prk (info "TV8440 glove iv")).setWidth 96)

/-- GLOVE_KEY_INSTALL (R69-R73): the checks in R71's order; an install that passes the share check uses the share up. -/
def execGloveKeyInstall (c : SpdmCh) (glove shareId : Nat) (point : BitVec 768) (wrapped : Key) (gcmTag : BitVec 128) (s : State) :
    Result :=
  .next (s.keyRequest c glove (fun e => .keyInstallRsp glove e 0) (fun l n s =>
    let no (e : Nat) (s : State) : State := s.reply c (.keyInstallRsp glove e 0)
    let x := s.glove glove
    let h := s.trust.shares.find? (fun e => e.1 == glove && e.2.id == shareId && e.2.link == l && e.2.session == n)
    if x.state != .keyPending || x.tdi != .locked then no 0x0104 s
    else
      match h with
      | none => no 0x0109 s
      | some (_, h) =>
        let s : State := { s with trust.shares := s.trust.shares.del glove }
        let (kek, iv) := shareKek glove h point
        match if Config.ecdhValid point then Config.gcmOpen kek iv (leBytes 2 glove ++ leBytes 4 shareId) wrapped gcmTag else none with
        | none => no 0x0102 s
        | some k =>
          let s := s.modSlot glove (fun _ => { key := k, valid := true, home := s.boot.cfg.pos, glove := glove })
          (s.modGlove glove (fun x => { x with state := .opened, keySource := 2, kcv := keyCheck k glove })).reply c
            (.keyInstallRsp glove 0 (keyCheck k glove))))

/-- SHARE_EXPIRY: a share lasts 10 s; its private part is zeroized (R70). -/
def execShareExpiry (glove : Nat) (s : State) : Result := .next { s with trust.shares := s.trust.shares.del glove }

/-! ### Randomness (R66, R67) -/

/-- DRBG_RESEED: after 4,096 generate requests. -/
def execDrbgReseed (s : State) : Result :=
  .next (if s.awake && s.trust.drbgReady && decide (4096 ≤ s.trust.drbgCount) then
      { s with trust.drbgCount := 0, trust.reseeds := satAdd 65535 s.trust.reseeds 1 }
    else s)

/-- ENTROPY_HEALTH_FAIL: what needs fresh randomness is refused, and a Crown-class fault is raised. -/
def execEntropyHealthFail (s : State) : Result :=
  .next (if !s.serves then s
    else
      ({ s with trust.entropyFailed := true, trust.drbgReady := false,
                trust.healthFails := satAdd 65535 s.trust.healthFails 1 } : State).contained 10 0x0107 crownUnit 0 none)

/-- ENTROPY_RETRY: the once-a-second retry instantiates the DRBG anew; a retry that fails is ENTROPY_HEALTH_FAIL (log entry 32). -/
def execEntropyRetry (s : State) : Result :=
  .next (if s.serves && s.trust.entropyFailed then
      { s with trust.entropyFailed := false, trust.drbgReady := true, trust.drbgCount := 0,
               trust.reseeds := satAdd 65535 s.trust.reseeds 1 }
    else s)

end Sys2Proof.Machine
end

