-- ==== Sys2Proof/Machine/WeaveRows.lean ====
section
/-! DEFINITION. The commands of the Weave's memory and register packets: requests at their targets (R33, R34, R245, R631, R632),
responses at their initiators (R243, R272, R273, R280). -/

namespace Sys2Proof.Machine

/-! ### Requests at their targets -/

/-- The default target (R34). -/
def State.missAt (s : State) (p : Packet) : State :=
  (if p.op.cls == 0 then s.missPosted p.initUnit else s).answer p 0x0004

/-- A checker's read of a page-table line reaches the stack controller, which passes it to the owning HBM sealing gate (R201, R521). -/
def State.tableServed (s : State) (p : Packet) : State :=
  let l := (p.addr - tableBase) / 64
  let (q, a) := s.tableAddr l
  if s.fenced (hbmOwner q a) then s.answer p 0x0202
  else
    match s.bring true 8 0 l with
    | (.inl d, s) => (s.respond p .cplD 0 (64 * (p.addr / 64)) [d] false).hcTrim (hgateOf q a)
    | (.inr lv, s) => (s.tableFailed l lv).answer p 0x0202

/-- A packet reads a line of table space. -/
def tableRead (p : Packet) : Bool :=
  p.op == .memRd && !p.hostSpace && decide (tableBase ≤ p.addr) && decide (p.addr < tableBase + 0x70000000)

/-- A memory packet at its unit: the owning gate, the stack controller of a table line, the Cuff of a host-space address, or the Border
link toward a peer; a peer that is not admitted is lost (R35, R476), and a link unit that takes no new packets leaves it waiting (R461,
R464). -/
def State.atUnit (s : State) (p : Packet) : State :=
  match unitKind p.dest with
  | 0 => if p.hostSpace then s.cuffRequest p else s.missAt p
  | 1 =>
    let g := 4 * unitQuad p.dest + unitIdx p.dest
    let s := s.enterGate g p
    if p.op == .memWrUnlock || p.op == .unlock then s.unpark g else s
  | 2 => if isStackCtl p.dest && tableRead p then s.tableServed p else s.missAt p
  | 4 =>
    let l := 2 * unitQuad p.dest + unitIdx p.dest
    if (s.peer (s.peerOf l)).state != .admitted then s.answer p 0x0600 else s.borderOut l p
  | _ => s.missAt p

/-- The Border link unit that a packet names cannot take it yet. -/
def State.borderWaits (s : State) (p : Packet) : Bool :=
  let l := 2 * unitQuad p.dest + unitIdx p.dest
  unitKind p.dest == 4 && (s.peer (s.peerOf l)).state == .admitted && !s.borderOpen l p.op

/-- An access to lines that a fenced DDR gate owns fails, and each line is recorded (R158, R160). -/
def State.fenceFails (s : State) (p : Packet) : State :=
  if unitKind p.dest == 1 && s.fenced p.dest && p.op.cls == vcCls p.vc then
    s.recordFails (4 * unitQuad p.dest + unitIdx p.dest) ((s.reqSlot p).getD 0) 0x0203 p.poolLines
  else s

/-- A memory packet reaches its target, or waits at a Border link unit. -/
def State.memPacket (s : State) (o : POp) (p : Packet) : State :=
  if s.borderWaits p || s.waitsTurn (p.asOp o) then s else (s.fenceFails (p.asOp o)).arrive o p (fun p s => s.atUnit p)

/-- MEM_RD, MEM_WR, MEM_RD_LOCK, MEM_WR_UNLOCK and UNLOCK. -/
def execMemRd (p : Packet) (s : State) : Result := .next (s.memPacket .memRd p)
def execMemWr (p : Packet) (s : State) : Result := .next (s.memPacket .memWr p)
def execMemRdLock (p : Packet) (s : State) : Result := .next (s.memPacket .memRdLock p)
def execMemWrUnlock (p : Packet) (s : State) : Result := .next (s.memPacket .memWrUnlock p)
def execUnlock (p : Packet) (s : State) : Result := .next (s.memPacket .unlock p)

/-- ZL_RD: a zero-length read toward a host (R312). -/
def execZlRd (p : Packet) (s : State) : Result :=
  .next (s.arrive .zlRd p (fun p s => if unitKind p.dest == 0 && p.hostSpace then s.cuffRequest p else s.missAt p))

/-- The initiator may reach the block of its target (R632). -/
def regOpen (p : Packet) : Bool :=
  unitCarried p.dest && (p.initUnit == crownUnit || (p.world == 1 && unitKind p.initUnit == 0 && decide (unitKind p.dest < 8)))

/-- REG_RD: the line of the unit block (R631). -/
def execRegRd (p : Packet) (s : State) : Result :=
  .next (s.arrive .regRd p (fun p s =>
    if regOpen p then
      let base := p.addr % 0x100000 / 64 * 64
      let line := lineOf ((List.range 8).flatMap (fun i => leBytes 8 (s.readBlock p.dest (base + 8 * i))))
      s.respond p .cplD 0 (p.addr / 64 * 64) [line] false
    else s.missAt p))

/-- The enabled bytes of unit `i` of the first line of a packet's range, as a mask (R242). -/
def unitMask (p : Packet) (i : Nat) : Nat :=
  ((List.range p.len).map (fun j =>
    let b := p.addr % 64 + j
    if p.enabled j && b / 8 == i then 2 ^ (b % 8) else 0)).sum

/-- REG_WR: the enabled bytes of [ADDRESS, ADDRESS + LENGTH) (R242, R631). Poisoned data write nothing (R269; log entry 119). -/
def execRegWr (p : Packet) (s : State) : Result :=
  .next (s.arrive .regWr p (fun p s =>
    if !regOpen p then s.missAt p
    else if p.ep then s.answer p 0x0201
    else
      let base := p.addr % 0x100000 / 64 * 64
      ((List.range 8).foldl (fun s i =>
        let en := unitMask p i
        if en == 0 then s else s.writeBlock p.dest (base + 8 * i) (word64 (p.data.headD 0) i) en) s).answer p 0))

/-! ### Responses at their initiators -/

/-- Replace an outstanding request. -/
def State.setReq (s : State) (r : Req) : State :=
  { s with net.outst := s.net.outst.map (fun x => if x.unit == r.unit && x.tag == r.tag then r else x) }

/-- What a data packet adds to its request: its lines, and the first failure; EP without a code is POISONED_LINE (log entry 34). -/
def Req.add (r : Req) (p : Packet) : Req :=
  { r with left := r.left - p.data.length
           got := r.got ++ p.data.zipIdx.map (fun (l, i) => (p.addr / 64 + i, l, p.ep || p.status != 0))
           code := if r.code != 0 then r.code else if p.status != 0 then p.status else if p.ep then 0x0201 else 0 }

/-- The failure of a request at a Finger: its code and the address in the Finger's space, of the failed line or of the request
(R666). -/
def Req.failure (r : Req) (addr : Nat) : Option (Nat × Nat) :=
  if r.code == 0 then none
  else
    let bad := ((r.got.filter (fun g => g.2.2)).map Prod.fst).foldl
      (fun (a : Option Nat) n => some (match a with
        | some m => min m n
        | none => n)) none
    some (r.code, match bad with
      | some l => addr + (64 * l - r.pkt.addr)
      | none => addr)

/-- A Crown data write is acknowledged: the entry completes with the first failure, or after the last write (R381). -/
def State.crownWritten (s : State) (o : Origin) (code result own : Nat) : State :=
  if own != 0 then s.complete o own 0
  else if s.net.outst.any (fun r => match r.ctx with
      | .crownWrite o' _ _ => o' == o
      | _ => false) then s
  else s.complete o code result

/-- Data for a request whose function or link has been reset since is discarded: a host's prefetched pool bytes are counted (R607). -/
def State.discardData (s : State) (r : Req) : State :=
  let n := r.bytes.length
  if r.pkt.prefetch && r.pkt.gloveValid && r.pkt.targetClass == 0 && !r.got.isEmpty then
    s.modUsage r.pkt.glove (fun u => { u with discarded := (u.discarded + n) % 2 ^ 64 })
  else s

/-- Lines of a peer's page that failed there are recorded in the error log of the glove's VF here, at the glove's home (R160): the gate
that met the failure knows a guest slot only. -/
def State.peerFailed (s : State) (r : Req) : State :=
  match (if poisons r.code && r.pkt.gloveValid && !r.pkt.hostSpace && decide (0x100000000000 ≤ r.pkt.addr) then s.vfOf r.pkt.glove
    else none) with
  | some f =>
    (List.range (max 1 (r.got.countP (fun g => g.2.2)))).foldl (fun s _ =>
      (s.errLog f 2 r.code 1 r.pkt.addr f.fn f.link r.pkt.glove).modUsage r.pkt.glove (fun u => { u with integ := u.integ + 1 })) s
  | none => s

/-- An ended request at its initiator; `whole` says that its data came. -/
def State.settle (s : State) (r : Req) (whole : Bool) : State :=
  let bs := r.bytes
  let s := s.peerFailed r
  match r.ctx with
  | .hostRead l n tag _ addr len => (s.hostReadDone ⟨l, n⟩ tag addr len r.code (r.code != 0) (if whole then some bs else none)).pumpHeld l
  | .unitRead l _ tag off len => (s.unitReadDone l tag off len r.code bs).pumpHeld l
  | .hostWrite l n g a peer _ => s.hostWritten l n g a peer r.pkt r.code
  | .tableRead key l =>
    let s := s.tableBack key l r.code (match r.got.head? with
      | some g => g.2.1
      | none => 0)
    if 4096 ≤ key then s.pumpHeld (keyLink key) else s
  | .atomicRead c line => s.atomicData c line r.code (r.code != 0) (if whole then r.got.head?.map (fun g => g.2.1) else none)
  | .atomicUnlock c line => s.atomicDone c line r.code
  | .fgRead f off _ addr sp => s.fgRead f off sp bs (r.failure addr)
  | .fgWrite f off n addr sp => s.fgWritten f off n addr sp r.code
  | .fgFetch f addr sp => s.fgFetched f addr sp (lineOf bs) (r.failure addr)
  | .fgPoll f addr sp => s.fgPolled f addr sp bs (r.failure addr)
  | .fgFlag f addr sp => s.flagAcked f addr sp r.code
  | .fgZl f l => s.zlDone f l r.code
  | .qFetch q first n => if r.code != 0 then s.qFault q r.code else s.fetched q first n bs
  | .qResult q i => s.resultAcked q i r.code
  | .qHead q v => s.headAcked q v r.code
  | .crownWrite o code result => s.crownWritten o code result r.code
  | .other => s.discardData r
  | _ => s

/-- A request ends: a part of a SET_RULES array waits for the other part. -/
def State.ended (s : State) (r : Req) (whole : Bool) : State :=
  match r.ctx with
  | .crownRules o g n => (s.setReq { r with left := 0 }).rulesRead o g n
  | _ => (s.endReq r.unit r.tag).settle r whole

/-- Bytes that a Finger reads count when their data return (R610). -/
def State.countRead (s : State) (r : Req) (n : Nat) : State :=
  match r.ctx with
  | .fgRead f _ _ _ sp => s.countDma f sp n
  | .fgFetch f _ sp => s.countDma f sp n
  | .fgPoll f _ sp => s.countDma f sp n
  | _ => s

/-- CPL_D: lines of a read arrive; with the last of them the request ends. The response to a peer's request goes back packet by
packet (R463). -/
def execCplD (p : Packet) (s : State) : Result :=
  .next (s.arrive .cplD p (fun p s => s.atInitiator p (fun r s =>
    let last := decide (r.left ≤ p.data.length)
    let s := s.countResponse r p last
    match r.ctx with
    | .borderIn l xid => (if last then s.endReq r.unit r.tag else s.setReq (r.add p)).borderBack l xid p last
    | _ =>
      let s := s.countRead r (r.pkt.enabledIn (p.addr / 64) p.data.length)
      if last then s.ended (r.add p) true else s.setReq (r.add p))))

/-- A response without data ends its request with its status. -/
def State.endedBy (s : State) (r : Req) (p : Packet) : State :=
  let s := s.countResponse r p true
  match r.ctx with
  | .borderIn l xid => (s.endReq r.unit r.tag).borderBack l xid p true
  | _ => s.ended { r with code := if r.code != 0 then r.code else p.status } false

/-- CPL and ACK. -/
def execCpl (p : Packet) (s : State) : Result :=
  .next (s.arrive .cpl p (fun p s => s.atInitiator p (fun r s => s.endedBy r p)))
def execAck (p : Packet) (s : State) : Result :=
  .next (s.arrive .ack p (fun p s => s.atInitiator p (fun r s => s.endedBy r p)))

/-! ### Lifetimes (R272, R273) -/

/-- The request runs against WVE_TIMEOUT.LIMIT: non-posted or acknowledged, not complete, not withdrawn at its Cuff (R329). -/
def State.timed (s : State) (r : Req) : Bool :=
  (r.pkt.op.cls == 1 || (r.pkt.op.cls == 0 && r.pkt.ackReq)) &&
  !(match r.ctx with
    | .crownRules _ _ _ => r.left == 0
    | _ => false) &&
  !(s.link r.pkt.link).withdrawn.any (samePkt r.pkt)

/-- WEAVE_TIMEOUT: the initiator ends the request as if the code had been returned, reports it, and holds its tag back (R272, R273). -/
def execWeaveTimeout (unit tag : Nat) (s : State) : Result :=
  .next (match s.reqOf unit tag with
    | none => s
    | some r =>
      if !s.awake || !s.timed r then s
      else
        let s := (s.countStat r.pkt Stat.addErr).countStat r.pkt (Stat.addLat (s.sys.now - r.time))
        let s : State := { s with net.dead := s.net.dead ++ [(unit, tag)] }
        let s := s.contained 1 0x0010 unit 0 none
        match r.ctx with
        | .borderIn l xid =>
          let p := r.pkt.response (if r.pkt.op.cls == 0 then .ack else .cpl) 0x0010 0 [] false
          (s.endReq unit tag).borderBack l xid p true
        | _ => s.ended { r with code := 0x0010, got := [] } false)

/-- TAG_RELEASE: 2 x LIMIT have passed and the tag may be used again (R273). -/
def execTagRelease (unit tag : Nat) (s : State) : Result :=
  .next { s with net.dead := s.net.dead.filter (· != (unit, tag)) }

end Sys2Proof.Machine
end

