-- ==== Sys2Proof/Machine/Knot.lean ====
section
/-! DEFINITION. The knots of the Weave: arbitration, credits, hold stores and strand errors (R246-R255, R261-R270). A packet's content
stays in `net.pkts`; its flit pairs move through the knots. -/

namespace Sys2Proof.Machine

def State.modQ (s : State) (knot port vc : Nat) (f : KnotQ → KnotQ) : State :=
  { s with net.knotIn := s.net.knotIn.mod {} (inKey knot port vc) f }
def State.outPort (s : State) (knot port : Nat) : KnotOut := s.net.knotOut.get {} (knot * 5 + port)
def State.modOut (s : State) (knot port : Nat) (f : KnotOut → KnotOut) : State :=
  { s with net.knotOut := s.net.knotOut.mod {} (knot * 5 + port) f }

/-- The input port at the far end of a strand. -/
def farPort (port : Nat) : Nat := (port + 2) % 4

/-- A credit for VC `vc` downstream of an output port (R249); at a local port, one of the 4 reserved credits that the unit's interface
advertises (R251). -/
def State.hasCredit (s : State) (knot port vc : Nat) : Bool :=
  match knotNext knot port with
  | none => port == 4 && decide ((s.outPort knot 4).unitUsed.get 0 vc < 4)
  | some k => s.inCredit k (farPort port) vc

/-- The flit pairs of the hold store of a knot and VC whose packets are still undelivered, and the store that keeps them. -/
def State.holdStore (s : State) (knot vc : Nat) : HoldStore :=
  let x := s.net.holds.get {} (knot * 16 + vc)
  let left := x.pkts.filter s.net.pkts.has
  { pkts := left, used := (left.map (fun n => (s.net.pkts.get { op := .mgmt } n).pairs)).sum }

/-- A header for a unit that takes no packets now: its packet goes to the hold store (R261, R266). -/
def State.sleeps (s : State) (f : FlitPair) : Bool := s.net.pkts.has f.pkt && !s.fenced f.unit && !s.unitOn f.unit

/-- Room in the hold store for the whole packet (R261, R265). -/
def State.holdRoom (s : State) (knot vc : Nat) (f : FlitPair) : Bool :=
  decide ((s.holdStore knot vc).used + (s.net.pkts.get { op := .mgmt } f.pkt).pairs ≤ 8)

/-- R255: a P packet of the same service class whose header arrived earlier at the same input is bound for the same output: it waits in
the buffer, or its tail has not passed yet. -/
def State.behindPosted (s : State) (knot port inp vc : Nat) (f : FlitPair) : Bool :=
  let x := s.outPort knot port
  let seq := if f.head then f.seq else x.headSeq.get 0 vc
  let p := vc % 2
  decide (2 ≤ vc) && decide (vc < 6) &&
  ((s.knotQ knot inp p).pairs.any (fun g => g.head && decide (g.seq < seq) && g.next == port) ||
   (x.alloc.has p && x.lastIn.get 4 p == inp && decide (x.headSeq.get 0 p < seq)))

/-- The next flit pair of an input and VC, if it is bound for an output port that it holds or may take (R252, R255). -/
def State.front (s : State) (knot port inp vc : Nat) : Option FlitPair :=
  match (s.knotQ knot inp vc).pairs with
  | [] => none
  | f :: _ =>
    let x := s.outPort knot port
    let mine := if f.head then !x.alloc.has vc else x.alloc.get 0 vc == f.pkt && x.alloc.has vc
    if f.next == port && mine && !s.behindPosted knot port inp vc f then some f else none

/-- The inputs of a VC in round-robin order after the last one granted (R252). -/
def State.inputs (s : State) (knot port vc : Nat) : List Nat :=
  (List.range 5).map (fun i => ((s.outPort knot port).lastIn.get 4 vc + 1 + i) % 5)

/-- A pair goes to the hold store: a header for a sleeping unit, or a later pair of a packet that is held (R261). -/
def State.toHold (s : State) (knot port vc : Nat) (f : FlitPair) : Bool :=
  port == 4 && (if f.head then s.sleeps f else (s.holdStore knot vc).pkts.contains f.pkt)

/-- What lets a pair go: a credit downstream, or room in the hold store for a packet whose unit sleeps (R253, R265). -/
def State.mayGo (s : State) (knot port vc : Nat) (f : FlitPair) : Bool :=
  if s.toHold knot port vc f then !f.head || s.holdRoom knot vc f else s.hasCredit knot port vc

/-- The flit pair that a VC of an output sends next, with its input port (R252). One that may not go holds back none of another input
(R259, R265). -/
def State.candidate (s : State) (knot port vc : Nat) : Option (Nat × FlitPair) :=
  (s.inputs knot port vc).findSome? (fun i =>
    match s.front knot port i vc with
    | some f => if s.mayGo knot port vc f then some (i, f) else none
    | none => none)

/-- A VC is ready at an output port (R253). -/
def State.vcReady (s : State) (knot port vc : Nat) : Bool := (s.candidate knot port vc).isSome

/-- The next ready VC of a round-robin order after the last one granted. -/
def nextVc (order : List Nat) (last : Nat) (ready : Nat → Bool) : Option Nat :=
  ((order.dropWhile (· != last)).drop 1 ++ order).find? ready

/-- The VC that an output port grants (R253). -/
def State.grantVc (s : State) (knot port : Nat) : Option Nat :=
  let x := s.outPort knot port
  let ready := s.vcReady knot port
  let bulk := ready 1 || ready 3 || ready 5
  let fore := ready 0 || ready 2 || ready 4 || ready 6 || ready 7
  if ready 8 && (!x.lastE || !(bulk || fore)) then some 8
  else if bulk && (!fore || decide (7 ≤ x.bulkWait)) then nextVc [1, 3, 5] x.last1 ready
  else nextVc [0, 2, 4, 6, 7] x.last0 ready

/-- A front pair of an input and VC that could go but for a credit, or for room in a hold store, is counted once as waiting (R265,
R282). -/
def State.countWait (s : State) (knot port vc inp : Nat) : State :=
  match s.front knot port inp vc with
  | none => s
  | some f =>
    if f.waited || s.mayGo knot port vc f then s
    else
      let s := s.modQ knot inp vc (fun q => { q with pairs := match q.pairs with
        | g :: gs => { g with waited := true } :: gs
        | [] => [] })
      if s.toHold knot port vc f then s.modQuad (knotQuad knot) (fun x => { x with overflows := satAdd 65535 x.overflows 1 })
      else if port == 4 then s
      else s.modOut knot port (fun x => { x with waits := (x.waits + 1) % 2 ^ 32 })

def State.countWaits (s : State) (knot port : Nat) : State :=
  (List.range 9).foldl (fun s vc => (List.range 5).foldl (fun s i => s.countWait knot port vc i) s) s

/-- A pair leaves its input buffer; its credit starts back upstream, shared if the occupancy was above 4 (R250, R251). -/
def State.leaveInput (s : State) (knot inp vc : Nat) : State :=
  let n := (s.knotQ knot inp vc).pairs.length
  let s := s.modQ knot inp vc (fun q => { q with pairs := q.pairs.drop 1 })
  { s with net.credits := s.net.credits ++ [(inKey knot inp vc, decide (4 < n))] }

/-- The groups of a lane with their check bits (R233). -/
def strandGroups (l : Line) : List (BitVec 128 × BitVec 9) :=
  (List.range 4).map (fun i => (l.extractLsb' (128 * i) 128, Config.secded (l.extractLsb' (128 * i) 128)))

/-- The key of a credit of the unit's interface at a knot's local port. -/
def unitCredit (knot vc : Nat) : Nat := 10000 + 16 * knot + vc

/-- A pair reaches the next knot and uses a credit: the strand drives its lanes and both control copies, with the output port that the
next knot will use (R233, R234, R247, R249). -/
def State.enterNext (s : State) (knot port vc : Nat) (f : FlitPair) : State :=
  match knotNext knot port with
  | none => s
  | some k =>
    let f := { f with next := routePort k f.dest, seq := s.net.nextSeq, waited := false }
    let c : Control := { vc := vc, lv := f.lv, head := f.head, tail := f.tail, next := f.next }
    let s := s.modOut knot port (fun x =>
      { x with wires := some { groups := strandGroups f.lane0 ++ strandGroups f.lane1, control := c, copy := c } })
    let s := s.modQ k (farPort port) vc (fun q => q.accept f)
    { s with net.nextSeq := s.net.nextSeq + 1 }

/-- A pair reaches the unit at the local port: it takes a credit of the unit's interface, which starts back as the unit takes the pair
(R251, R258). -/
def State.enterUnit (s : State) (knot vc : Nat) : State :=
  let s := s.modOut knot 4 (fun x => { x with unitUsed := x.unitUsed.mod 0 vc (· + 1) })
  { s with net.credits := s.net.credits ++ [(unitCredit knot vc, false)] }

/-- A header for a sleeping unit enters the hold store and wakes its domain (R261, R262). -/
def State.hold (s : State) (knot vc : Nat) (f : FlitPair) : State :=
  let p := s.net.pkts.get { op := .mgmt } f.pkt
  let x := s.holdStore knot vc
  let s : State := { s with net.holds := s.net.holds.set (knot * 16 + vc) { pkts := x.pkts ++ [f.pkt], used := x.used + p.pairs } }
  let total := ((List.range 9).map (fun v => (s.holdStore knot v).used)).sum
  (s.modQuad (knotQuad knot) (fun q => { q with held := (q.held + 1) % 2 ^ 32, peak := max q.peak total })).wake
    (unitDomain f.unit) (unitWanter p.initUnit)

/-- Send one pair through an output port. -/
def State.send (s : State) (knot port inp vc : Nat) (f : FlitPair) : State :=
  let held := s.toHold knot port vc f
  let s := if held && f.head then s.hold knot vc f else s
  let s := (s.leaveInput knot inp vc).enterNext knot port vc f
  let s := if port == 4 && !held then s.enterUnit knot vc else s
  s.modOut knot port (fun x =>
    { x with alloc := if f.tail then x.alloc.del vc else x.alloc.set vc f.pkt, lastIn := x.lastIn.set vc inp,
             headSeq := if f.head then x.headSeq.set vc f.seq else x.headSeq })

/-- A report of a knot: it has no unit ID of its own (log entry 36). -/
def State.knotFault (s : State) (knot : Nat) (e : FaultError) (code element : Nat) : State :=
  s.report { cls := 1, error := e, code := code, unit := collectorUnit, quad := knotQuad knot, element := element }

/-- The header of a pair, or its control bundle, cannot be used (R270); a data flit of it is bad (R269). -/
def hitsHeader (e : StrandError) (f : FlitPair) : Bool := e.control || (f.head && e.bad.any (· < 4))
def hitsData (e : StrandError) (f : FlitPair) : Bool :=
  e.bad.any (fun g => f.lv.getLsbD (g / 4) && !(f.head && decide (g < 4)))

/-- KNOT_OUTPUT_GRANT: one flit pair by R253. The receiver corrects every single-bit error, poisons a packet with a bad data group, and
stops the direction on a bad header (R268-R270). -/
def execKnotOutputGrant (knot port : Nat) (err : StrandError) (s : State) : Result :=
  .next (
    let x := s.outPort knot port
    if !s.awake || x.stopped || (port != 4 && (knotNext knot port).isNone) then s
    else
      let bulk := s.vcReady knot port 1 || s.vcReady knot port 3 || s.vcReady knot port 5
      match s.grantVc knot port with
      | none => s.countWaits knot port
      | some vc =>
        match s.candidate knot port vc with
        | none => s
        | some (i, f) =>
          if hitsHeader err f && port != 4 then
            (s.modOut knot port (fun x => { x with stopped := true })).knotFault knot .headerCorrupt 0x0044 (knot * 4 + port)
          else
            let one := vc == 1 || vc == 3 || vc == 5
            let s := (s.countWaits knot port).send knot port i vc f
            let s := s.modOut knot port (fun x =>
              { x with hs := (x.hs + 1) % 2 ^ 32, lastE := vc == 8, last1 := if one then vc else x.last1,
                       last0 := if one || vc == 8 then x.last0 else vc,
                       bulkWait := if one then 0 else if bulk then x.bulkWait + 1 else x.bulkWait })
            if port == 4 then s
            else
              let s := err.single.foldl (fun s g =>
                (s.modOut knot port (fun x => { x with corrected := (x.corrected + 1) % 2 ^ 32 })).knotFault knot
                  (.strandSingle knot port g) 0x0040 (knot * 4 + port)) s
              if hitsData err f then
                ({ s with net.pkts := s.net.pkts.map (fun e => if e.1 == f.pkt then (e.1, { e.2 with ep := true }) else e) }
                  : State).knotFault knot .contained 0x0045 (knot * 4 + port)
              else s)

/-- HOLD_STORE_ROOM_FREED: delivered packets leave the store, and a packet that waits in an input buffer for a sleeping unit moves in
(R265). -/
def execHoldStoreRoomFreed (knot vc : Nat) (s : State) : Result :=
  .next (if !s.awake then s
    else
      let s : State := { s with net.holds := s.net.holds.set (knot * 16 + vc) (s.holdStore knot vc) }
      match (s.inputs knot 4 vc).findSome? (fun i =>
          match s.front knot 4 i vc with
          | some f => if f.head && s.sleeps f && s.holdRoom knot vc f then some (i, f) else none
          | none => none) with
      | some (i, f) =>
        (List.range 5).foldl (fun s _ =>
          match (s.knotQ knot i vc).pairs with
          | g :: _ => if g.pkt == f.pkt then s.send knot 4 i vc g else s
          | [] => s) s
      | none => s)

/-- A credit comes back to the sender of an input port (R250). -/
def KnotQ.credit (q : KnotQ) (shared : Bool) : KnotQ :=
  if shared then { q with sharedHeld := q.sharedHeld - 1 } else { q with reserved := q.reserved + 1 }

/-- CREDIT_RETURN: a credit of the buffer beyond an output port reaches its sender (R250); port 4 names the unit's interface beyond the
local output, port 5 the local input port, whose senders are the units (R251). -/
def execCreditReturn (knot port vc : Nat) (shared : Bool) (s : State) : Result :=
  .next (
    let used (key : Nat) (s : State) : State := { s with net.credits := s.net.credits.erase (key, shared) }
    let there (key : Nat) : Bool := s.net.credits.contains (key, shared)
    if port == 4 then
      if there (unitCredit knot vc) then
        used (unitCredit knot vc) (s.modOut knot 4 (fun x => { x with unitUsed := x.unitUsed.mod 0 vc (· - 1) }))
      else s
    else if port == 5 then
      if there (inKey knot 4 vc) then
        let s := (used (inKey knot 4 vc) (s.modQ knot 4 vc (fun q => q.credit shared))).pumpLocal knot vc
        if vc < 2 then (s.pumpLocal knot (2 + vc)).pumpLocal knot (4 + vc) else s
      else s
    else
      match knotNext knot port with
      | none => s
      | some k =>
        let key := inKey k (farPort port) vc
        if there key then used key (s.modQ k (farPort port) vc (fun q => q.credit shared)) else s)

end Sys2Proof.Machine
end

