-- ==== Sys2Proof/Machine/Flags.lean ====
section
/-! DEFINITION. The status the device shows its BMC: the 256-byte status block (R560, R652). -/

namespace Sys2Proof.Machine

/-- Byte 0, readiness (R559, R560). -/
def State.readiness (s : State) : Nat :=
  if s.sys.devRst then 0
  else
    match s.sys.mode with
    | .service | .degraded | .drain => 1
    | .blank => 2
    | .quarantine => 3
    | .loading => 0

/-- Bytes 4-5: the code of the last mode change; a thermal trip that coincides with a tamper input or with DEV_RST# shows as
THERMAL_TRIP (R560, R655). -/
def State.statusCause (s : State) : Nat :=
  if s.sys.thermtrip && (s.sys.devRst || s.sys.cause == 0x0703) then 0x0706 else s.sys.cause

/-- A copy's check result: 0xFFFF until step 2 has checked it (R560; log entry 51). -/
def State.copyResult (s : State) (r : Nat) : Nat := if s.boot.step < 2 then 0xFFFF else r

/-- A number whose bit `i` says whether `p i` holds, for `i` below `n`. -/
def maskOf (n : Nat) (p : Nat → Bool) : Nat := ((List.range n).map (fun i => bit (p i) * 2 ^ i)).sum

/-- Bytes 0-31 (R560). -/
def State.statusLow (s : State) : List Byte :=
  let blank := s.sys.mode == .blank
  leBytes 1 s.readiness ++ leBytes 1 s.sys.mode.code ++ leBytes 1 s.boot.step ++ leBytes 1 s.boot.copy ++
  leBytes 2 s.statusCause ++ leBytes 2 (s.copyResult s.boot.resultA) ++ leBytes 2 (s.copyResult s.boot.resultB) ++
  leBytes 4 (if blank then 0 else s.boot.cfg.version) ++ leBytes 4 s.boot.mram.coldResets ++ leBytes 8 Config.serial.toNat ++
  List.replicate 6 0

/-- Bytes 32-71 (R652); the rest of the block is zero. -/
def State.statusHigh (s : State) : List Byte :=
  let p := s.pwr.pace
  leBytes 4 (fieldsOf ((List.range 4).map (fun q => (8 * q, (s.quad q).temp)))) ++
  leBytes 1 (if s.boot.step < 3 then 0 else s.boot.cfg.tWarn) ++
  leBytes 1 (fieldsOf [(2, bit p.avsFailed), (1, bit s.sys.thermtrip), (0, bit p.hold)]) ++
  leBytes 2 p.vdd ++ leBytes 1 p.point ++ leBytes 1 0 ++
  leBytes 2 (maskOf 16 (fun l => (s.link l).up)) ++
  leBytes 1 (maskOf 8 (fun l => (s.blink l).state == .up)) ++
  leBytes 1 (fieldsOf [(4, maskOf 4 (fun n => (s.peer n).state == .fenced)), (0, maskOf 4 (fun n => (s.peer n).state == .admitted))]) ++
  leBytes 2 ((s.trust.gloves.filter (fun e => e.2.state != .free)).length) ++
  leBytes 8 s.fltSummary ++
  leBytes 2 ((s.boot.mram.log.filter (fun e => e.2.state == 0)).length) ++ leBytes 2 0 ++
  leBytes 4 (if s.sys.mode == .blank then 0 else s.boot.cfg.ucode) ++ leBytes 8 s.sys.now

/-- The status block. -/
def State.statusBlock (s : State) : List Byte := s.statusLow ++ s.statusHigh ++ List.replicate 184 0

/-- Byte `i` of the status block. -/
def State.statusByte (s : State) (i : Nat) : Byte := s.statusBlock.getD i 0

end Sys2Proof.Machine
end

