-- ==== Sys2Proof/Machine/Smbus.lean ====
section
/-! DEFINITION. The SMBus target (R559, R651). -/

namespace Sys2Proof.Machine

/-- The bytes that the target sends after a command code: from a block at 0x80-0x87 its byte count and a snapshot, below 0x80 the
status block from that offset (R651). -/
def State.smbusStream (s : State) (cmd : Nat) : List Byte :=
  if cmd < 0x80 then s.statusBlock.drop cmd else 32 :: (s.statusBlock.drop (32 * (cmd - 0x80))).take 32

/-- ALERT# is released once the BMC has been sent a byte of 0-3, unless DEV_RST# holds it low (R559, R560; log entry 52). -/
def State.alertRead (s : State) (taken : Bool) : State :=
  if taken && !s.sys.devRst then { s with sys.alert := false } else s

/-- A read transaction: not acknowledged while unpowered (R559), nor with a code above 0x87 (R651); event source 77 sees it
(R481). -/
def State.smbusRead (s : State) (cmd : Nat) (taken : Bool) (bytes : List Byte) : State :=
  if !s.sys.aon then s
  else if 0x87 < cmd then s.emit (.smbusAck false)
  else ((s.emit (.smbus bytes)).alertRead taken).edge 77

/-- SMBUS_READ_BYTE. -/
def execSmbusReadByte (cmd : Nat) (s : State) : Result :=
  .next (s.smbusRead cmd (decide (cmd < 4)) ((s.smbusStream cmd).take 1))

/-- SMBUS_READ_WORD. -/
def execSmbusReadWord (cmd : Nat) (s : State) : Result :=
  .next (s.smbusRead cmd (decide (cmd < 4) || cmd == 0x80) ((s.smbusStream cmd).take 2))

/-- SMBUS_BLOCK_READ: 32 and the 32 bytes. With a code below 0x80 the first byte sent is the count, and spec/ states no byte after
the second (log entry 50). -/
def execSmbusBlockRead (cmd : Nat) (s : State) : Result :=
  .next (
    let two := (s.smbusStream cmd).take 2
    let n := (two.getD 0 0).toNat
    s.smbusRead cmd (decide (cmd < 4) || cmd == 0x80)
      (if 0x80 ≤ cmd then s.smbusStream cmd else two.take (n + 1) ++ (List.range (n - 1)).map Config.smbusByte))

/-- SMBUS_WRITE: acknowledged and ignored (R651). -/
def execSmbusWrite (_cmd : Nat) (s : State) : Result :=
  .next (if s.sys.aon then (s.emit (.smbusAck true)).edge 77 else s)

end Sys2Proof.Machine
end

