-- ==== Sys2Proof/Machine/Dispatch.lean ====
section
/-! DEFINITION. The meaning of each command: one call for each row of spec/opcode_table.json. -/

namespace Sys2Proof.Machine

def exec (i : Instr) (s : State) : Host.Outcome State Fault Refusal :=
  match i with
  | .coldReset b => Sys2Proof.Machine.execColdReset b s
  | .devRstAssert => Sys2Proof.Machine.execDevRstAssert s
  | .powerGoodDeassert => Sys2Proof.Machine.execPowerGoodDeassert s
  | .tamperInputAssert idx => Sys2Proof.Machine.execTamperInputAssert idx s
  | .thermtrip quad => Sys2Proof.Machine.execThermtrip quad s
  | .tWarnReached quad temp => Sys2Proof.Machine.execTWarnReached quad temp s
  | .thermalHoldEnd temps => Sys2Proof.Machine.execThermalHoldEnd temps s
  | .hostMemoryRead r => Sys2Proof.Machine.execHostMemoryRead r s
  | .hostMemoryWrite w => Sys2Proof.Machine.execHostMemoryWrite w s
  | .hostAtomicop a => Sys2Proof.Machine.execHostAtomicop a s
  | .unsupportedRequest link tag kind => Sys2Proof.Machine.execUnsupportedRequest link tag kind s
  | .hostCompletion c => Sys2Proof.Machine.execHostCompletion c s
  | .hostCplTimeout link unit tag => Sys2Proof.Machine.execHostCplTimeout link unit tag s
  | .cuffTxDequeue link => Sys2Proof.Machine.execCuffTxDequeue link s
  | .perstAssert link => Sys2Proof.Machine.execPerstAssert link s
  | .perstDeassert link => Sys2Proof.Machine.execPerstDeassert link s
  | .linkTrainedL0 link rate width flit => Sys2Proof.Machine.execLinkTrainedL0 link rate width flit s
  | .dlDown link => Sys2Proof.Machine.execDlDown link s
  | .linkHotReset link => Sys2Proof.Machine.execLinkHotReset link s
  | .hostRecoveryEntered r => Sys2Proof.Machine.execHostRecoveryEntered r s
  | .flrStart f => Sys2Proof.Machine.execFlrStart f s
  | .flrComplete f => Sys2Proof.Machine.execFlrComplete f s
  | .vfEnableClear link => Sys2Proof.Machine.execVfEnableClear link s
  | .vfEnableSet link => Sys2Proof.Machine.execVfEnableSet link s
  | .numvfsWrite link v => Sys2Proof.Machine.execNumvfsWrite link v s
  | .barWrite link field v => Sys2Proof.Machine.execBarWrite link field v s
  | .vfBarSizeWrite link v => Sys2Proof.Machine.execVfBarSizeWrite link v s
  | .bmeClear f => Sys2Proof.Machine.execBmeClear f s
  | .bmeSet f => Sys2Proof.Machine.execBmeSet f s
  | .d3hotEntry f => Sys2Proof.Machine.execD3hotEntry f s
  | .d0Return f => Sys2Proof.Machine.execD0Return f s
  | .msixMaskWrite f t v => Sys2Proof.Machine.execMsixMaskWrite f t v s
  | .msixCommit f vec => Sys2Proof.Machine.execMsixCommit f vec s
  | .pendingVectorSend f vec => Sys2Proof.Machine.execPendingVectorSend f vec s
  | .lockExpiry gate line => Sys2Proof.Machine.execLockExpiry gate line s
  | .memRd p => Sys2Proof.Machine.execMemRd p s
  | .memWr p => Sys2Proof.Machine.execMemWr p s
  | .memRdLock p => Sys2Proof.Machine.execMemRdLock p s
  | .memWrUnlock p => Sys2Proof.Machine.execMemWrUnlock p s
  | .unlock p => Sys2Proof.Machine.execUnlock p s
  | .zlRd p => Sys2Proof.Machine.execZlRd p s
  | .regRd p => Sys2Proof.Machine.execRegRd p s
  | .regWr p => Sys2Proof.Machine.execRegWr p s
  | .cplD p => Sys2Proof.Machine.execCplD p s
  | .cpl p => Sys2Proof.Machine.execCpl p s
  | .ack p => Sys2Proof.Machine.execAck p s
  | .mqRd p => Sys2Proof.Machine.execMqRd p s
  | .mqWr p => Sys2Proof.Machine.execMqWr p s
  | .mqMac p => Sys2Proof.Machine.execMqMac p s
  | .tierLookup p => Sys2Proof.Machine.execTierLookup p s
  | .tierFill p => Sys2Proof.Machine.execTierFill p s
  | .mirrorWr p => Sys2Proof.Machine.execMirrorWr p s
  | .mrD p => Sys2Proof.Machine.execMrD p s
  | .mrAck p => Sys2Proof.Machine.execMrAck p s
  | .event f vec => Sys2Proof.Machine.execEvent f vec s
  | .msgReq f vec => Sys2Proof.Machine.execMsgReq f vec s
  | .fault r => Sys2Proof.Machine.execFault r s
  | .ruleFault v => Sys2Proof.Machine.execRuleFault v s
  | .ownershipInvalidate gate lines => Sys2Proof.Machine.execOwnershipInvalidate gate lines s
  | .ownershipInvalidateAck gate => Sys2Proof.Machine.execOwnershipInvalidateAck gate s
  | .knotOutputGrant knot port err => Sys2Proof.Machine.execKnotOutputGrant knot port err s
  | .holdStoreRoomFreed knot vc => Sys2Proof.Machine.execHoldStoreRoomFreed knot vc s
  | .creditReturn knot port vc shared => Sys2Proof.Machine.execCreditReturn knot port vc shared s
  | .weaveTimeout unit tag => Sys2Proof.Machine.execWeaveTimeout unit tag s
  | .tagRelease unit tag => Sys2Proof.Machine.execTagRelease unit tag s
  | .paceMonitorSample quad readings => Sys2Proof.Machine.execPaceMonitorSample quad readings s
  | .sampleWindowEnd => Sys2Proof.Machine.execSampleWindowEnd s
  | .wvePaceAlarmClear quad => Sys2Proof.Machine.execWvePaceAlarmClear quad s
  | .leakyBucketDrain b => Sys2Proof.Machine.execLeakyBucketDrain b s
  | .commandSlotGrant st refreshDue ecc => Sys2Proof.Machine.execCommandSlotGrant st refreshDue ecc s
  | .wcbResidencyExpiry gate line => Sys2Proof.Machine.execWcbResidencyExpiry gate line s
  | .reencPhaseADone gate block => Sys2Proof.Machine.execReencPhaseADone gate block s
  | .reencRaiseClass gate block => Sys2Proof.Machine.execReencRaiseClass gate block s
  | .stagingBufferFreed gate => Sys2Proof.Machine.execStagingBufferFreed gate s
  | .doorbell q v => Sys2Proof.Machine.execDoorbell q v s
  | .queueEnable f config => Sys2Proof.Machine.execQueueEnable f config s
  | .queueDisable f => Sys2Proof.Machine.execQueueDisable f s
  | .entryFetch q => Sys2Proof.Machine.execEntryFetch q s
  | .entryDispatch q => Sys2Proof.Machine.execEntryDispatch q s
  | .resultWrite q => Sys2Proof.Machine.execResultWrite q s
  | .resultWriteAcked q => Sys2Proof.Machine.execResultWriteAcked q s
  | .headWriteAcked q => Sys2Proof.Machine.execHeadWriteAcked q s
  | .openGlove o glove tenantKey tdisp queueLimit fingerLimit => Sys2Proof.Machine.execOpenGlove o glove tenantKey tdisp queueLimit fingerLimit s
  | .closeGlove o glove => Sys2Proof.Machine.execCloseGlove o glove s
  | .bandSlotZeroConfirmed glove => Sys2Proof.Machine.execBandSlotZeroConfirmed glove s
  | .lastPageReleased glove => Sys2Proof.Machine.execLastPageReleased glove s
  | .grantPages o glove home readOnly group m start => Sys2Proof.Machine.execGrantPages o glove home readOnly group m start s
  | .reclaimPages o glove mode group m start => Sys2Proof.Machine.execReclaimPages o glove mode group m start s
  | .setLimits o glove mask share queueLimit fingerLimit rate => Sys2Proof.Machine.execSetLimits o glove mask share queueLimit fingerLimit rate s
  | .setPeerWindow o glove slot image => Sys2Proof.Machine.execSetPeerWindow o glove slot image s
  | .clearPeerWindow o glove slot => Sys2Proof.Machine.execClearPeerWindow o glove slot s
  | .pinDomain o d => Sys2Proof.Machine.execPinDomain o d s
  | .unpinDomain o d => Sys2Proof.Machine.execUnpinDomain o d s
  | .drain o => Sys2Proof.Machine.execDrain o s
  | .getLog o log first buf len => Sys2Proof.Machine.execGetLog o log first buf len s
  | .getUsage o glove first buf len => Sys2Proof.Machine.execGetUsage o glove first buf len s
  | .createQueue o num size ringGlove headGlove finger vector ring head => Sys2Proof.Machine.execCreateQueue o num size ringGlove headGlove finger vector ring head s
  | .destroyQueue o num => Sys2Proof.Machine.execDestroyQueue o num s
  | .setRules o n gloveSpace addr => Sys2Proof.Machine.execSetRules o n gloveSpace addr s
  | .getRuleFault o buf => Sys2Proof.Machine.execGetRuleFault o buf s
  | .clearRuleFault o => Sys2Proof.Machine.execClearRuleFault o s
  | .startFinger o f resume bulk share burst => Sys2Proof.Machine.execStartFinger o f resume bulk share burst s
  | .stopFinger o f => Sys2Proof.Machine.execStopFinger o f s
  | .epochDrainDone glove => Sys2Proof.Machine.execEpochDrainDone glove s
  | .epochDrainTimeout glove => Sys2Proof.Machine.execEpochDrainTimeout glove s
  | .runProgram f o target gloveSpace addr a0 a1 a2 a3 => Sys2Proof.Machine.execRunProgram f o target gloveSpace addr a0 a1 a2 a3 s
  | .copy f o target srcGlove dstGlove src dst len => Sys2Proof.Machine.execCopy f o target srcGlove dstGlove src dst len s
  | .fill f o target dstGlove dst len pattern => Sys2Proof.Machine.execFill f o target dstGlove dst len pattern s
  | .flush f o => Sys2Proof.Machine.execFlush f o s
  | .fingerIssue engine => Sys2Proof.Machine.execFingerIssue engine s
  | .programLineFetch f => Sys2Proof.Machine.execProgramLineFetch f s
  | .move f w => Sys2Proof.Machine.execMove f w s
  | .loop f w => Sys2Proof.Machine.execLoop f w s
  | .wait f w => Sys2Proof.Machine.execWait f w s
  | .waitPoll f => Sys2Proof.Machine.execWaitPoll f s
  | .waitTimerExpiry f => Sys2Proof.Machine.execWaitTimerExpiry f s
  | .waitTimeout f => Sys2Proof.Machine.execWaitTimeout f s
  | .signal f w => Sys2Proof.Machine.execSignal f w s
  | .seta f w => Sys2Proof.Machine.execSeta f w s
  | .adda f w => Sys2Proof.Machine.execAdda f w s
  | .endInstr f w => Sys2Proof.Machine.execEndInstr f w s
  | .tokenRefill f => Sys2Proof.Machine.execTokenRefill f s
  | .fngEventsSet f bits => Sys2Proof.Machine.execFngEventsSet f bits s
  | .fngEventClr f bits => Sys2Proof.Machine.execFngEventClr f bits s
  | .borderPayloadFlit link fl => Sys2Proof.Machine.execBorderPayloadFlit link fl s
  | .borderAckFlit link a => Sys2Proof.Machine.execBorderAckFlit link a s
  | .borderPacket link b => Sys2Proof.Machine.execBorderPacket link b s
  | .ident link idx => Sys2Proof.Machine.execIdent link idx s
  | .rerouteReq link dead last => Sys2Proof.Machine.execRerouteReq link dead last s
  | .rerouteAck link dead last => Sys2Proof.Machine.execRerouteAck link dead last s
  | .rerouteDone link dead => Sys2Proof.Machine.execRerouteDone link dead s
  | .widthReq link mask => Sys2Proof.Machine.execWidthReq link mask s
  | .widthAck link mask => Sys2Proof.Machine.execWidthAck link mask s
  | .ctrlRepeat link => Sys2Proof.Machine.execCtrlRepeat link s
  | .borderAckTimer link => Sys2Proof.Machine.execBorderAckTimer link s
  | .replayTimeout link => Sys2Proof.Machine.execReplayTimeout link s
  | .creditTimeout link vc => Sys2Proof.Machine.execCreditTimeout link vc s
  | .widthChangeTimeout link => Sys2Proof.Machine.execWidthChangeTimeout link s
  | .borderSymbolLock link => Sys2Proof.Machine.execBorderSymbolLock link s
  | .trainingTimeout link => Sys2Proof.Machine.execTrainingTimeout link s
  | .identTimeout link => Sys2Proof.Machine.execIdentTimeout link s
  | .lockLossTimeout link => Sys2Proof.Machine.execLockLossTimeout link s
  | .downRetry link => Sys2Proof.Machine.execDownRetry link s
  | .rerouteLimitExpiry peer => Sys2Proof.Machine.execRerouteLimitExpiry peer s
  | .homeLinkReturn unit peer => Sys2Proof.Machine.execHomeLinkReturn unit peer s
  | .keyTransfer peer glove key => Sys2Proof.Machine.execKeyTransfer peer glove key s
  | .keyConfirm peer glove slot code => Sys2Proof.Machine.execKeyConfirm peer glove slot code s
  | .pageAlloc peer glove m => Sys2Proof.Machine.execPageAlloc peer glove m s
  | .pageList peer glove code pages => Sys2Proof.Machine.execPageList peer glove code pages s
  | .pageRelease peer glove pages => Sys2Proof.Machine.execPageRelease peer glove pages s
  | .keyRevoke peer glove => Sys2Proof.Machine.execKeyRevoke peer glove s
  | .revokeAck peer glove pages => Sys2Proof.Machine.execRevokeAck peer glove pages s
  | .quarantineNotice peer cause => Sys2Proof.Machine.execQuarantineNotice peer cause s
  | .mgmtRetryTimeout peer glove => Sys2Proof.Machine.execMgmtRetryTimeout peer glove s
  | .getVersion c => Sys2Proof.Machine.execGetVersion c s
  | .getCapabilities c caps => Sys2Proof.Machine.execGetCapabilities c caps s
  | .negotiateAlgorithms c a => Sys2Proof.Machine.execNegotiateAlgorithms c a s
  | .getDigests c => Sys2Proof.Machine.execGetDigests c s
  | .getCertificate c slot off len => Sys2Proof.Machine.execGetCertificate c slot off len s
  | .challenge c slot sumType => Sys2Proof.Machine.execChallenge c slot sumType s
  | .getMeasurements c index signed => Sys2Proof.Machine.execGetMeasurements c index signed s
  | .keyExchange c slot sumType p384 => Sys2Proof.Machine.execKeyExchange c slot sumType p384 s
  | .finish c session sigOk => Sys2Proof.Machine.execFinish c session sigOk s
  | .endSession c => Sys2Proof.Machine.execEndSession c s
  | .getEncapsulatedRequest c => Sys2Proof.Machine.execGetEncapsulatedRequest c s
  | .deliverEncapsulatedResponse c r => Sys2Proof.Machine.execDeliverEncapsulatedResponse c r s
  | .peerSpdmResponse link r => Sys2Proof.Machine.execPeerSpdmResponse link r s
  | .finishRsp link => Sys2Proof.Machine.execFinishRsp link s
  | .ideKmQuery c => Sys2Proof.Machine.execIdeKmQuery c s
  | .ideKmKeyProg c stream slot mode key => Sys2Proof.Machine.execIdeKmKeyProg c stream slot mode key s
  | .ideKmKSetGo c stream keySet => Sys2Proof.Machine.execIdeKmKSetGo c stream keySet s
  | .ideKmKSetStop c stream keySet => Sys2Proof.Machine.execIdeKmKSetStop c stream keySet s
  | .getTdispVersion c vf => Sys2Proof.Machine.execGetTdispVersion c vf s
  | .getTdispCapabilities c vf => Sys2Proof.Machine.execGetTdispCapabilities c vf s
  | .lockInterfaceRequest c vf => Sys2Proof.Machine.execLockInterfaceRequest c vf s
  | .getDeviceInterfaceReport c vf => Sys2Proof.Machine.execGetDeviceInterfaceReport c vf s
  | .getDeviceInterfaceState c vf => Sys2Proof.Machine.execGetDeviceInterfaceState c vf s
  | .startInterfaceRequest c vf nonce => Sys2Proof.Machine.execStartInterfaceRequest c vf nonce s
  | .stopInterfaceRequest c vf => Sys2Proof.Machine.execStopInterfaceRequest c vf s
  | .bindP2pStreamRequest c vf => Sys2Proof.Machine.execBindP2pStreamRequest c vf s
  | .unbindP2pStreamRequest c vf => Sys2Proof.Machine.execUnbindP2pStreamRequest c vf s
  | .setMmioAttributeRequest c vf => Sys2Proof.Machine.execSetMmioAttributeRequest c vf s
  | .gloveKeyShare c glove => Sys2Proof.Machine.execGloveKeyShare c glove s
  | .gloveKeyInstall c glove shareId point wrapped gcmTag => Sys2Proof.Machine.execGloveKeyInstall c glove shareId point wrapped gcmTag s
  | .shareExpiry glove => Sys2Proof.Machine.execShareExpiry glove s
  | .drbgReseed => Sys2Proof.Machine.execDrbgReseed s
  | .entropyHealthFail => Sys2Proof.Machine.execEntropyHealthFail s
  | .entropyRetry => Sys2Proof.Machine.execEntropyRetry s
  | .evtInChange idx level => Sys2Proof.Machine.execEvtInChange idx level s
  | .filterCountExpiry idx => Sys2Proof.Machine.execFilterCountExpiry idx s
  | .sourcePresent => Sys2Proof.Machine.execSourcePresent s
  | .endOfService => Sys2Proof.Machine.execEndOfService s
  | .moderationTimerExpiry f group => Sys2Proof.Machine.execModerationTimerExpiry f group s
  | .selfTestTick unit pass => Sys2Proof.Machine.execSelfTestTick unit pass s
  | .quietPeriodExpiry unit => Sys2Proof.Machine.execQuietPeriodExpiry unit s
  | .mramRecordWrite kind unit element detail ok => Sys2Proof.Machine.execMramRecordWrite kind unit element detail ok s
  | .retireClear f all index => Sys2Proof.Machine.execRetireClear f all index s
  | .retireClearCancel f all index => Sys2Proof.Machine.execRetireClearCancel f all index s
  | .recoveryRead f len => Sys2Proof.Machine.execRecoveryRead f len s
  | .recoveryErase f => Sys2Proof.Machine.execRecoveryErase f s
  | .recoveryProgram f len => Sys2Proof.Machine.execRecoveryProgram f len s
  | .recoveryVerify f copyB b => Sys2Proof.Machine.execRecoveryVerify f copyB b s
  | .fuseSigner f => Sys2Proof.Machine.execFuseSigner f s
  | .recoveryOpDone ok => Sys2Proof.Machine.execRecoveryOpDone ok s
  | .lingerExpiry d refuser => Sys2Proof.Machine.execLingerExpiry d refuser s
  | .domainCommit d => Sys2Proof.Machine.execDomainCommit d s
  | .domainEntryComplete d => Sys2Proof.Machine.execDomainEntryComplete d s
  | .padReleaseDue d => Sys2Proof.Machine.execPadReleaseDue d s
  | .domainOn d => Sys2Proof.Machine.execDomainOn d s
  | .islandsLowReported => Sys2Proof.Machine.execIslandsLowReported s
  | .avsTransactionDone r => Sys2Proof.Machine.execAvsTransactionDone r s
  | .voltageGood => Sys2Proof.Machine.execVoltageGood s
  | .avsRetryTick r => Sys2Proof.Machine.execAvsRetryTick r s
  | .minuteBoundary mramOk => Sys2Proof.Machine.execMinuteBoundary mramOk s
  | .mramSeqRetry ok => Sys2Proof.Machine.execMramSeqRetry ok s
  | .tierOccupancySample => Sys2Proof.Machine.execTierOccupancySample s
  | .usgAnchorWrite f v => Sys2Proof.Machine.execUsgAnchorWrite f v s
  | .smbusReadByte cmd => Sys2Proof.Machine.execSmbusReadByte cmd s
  | .smbusReadWord cmd => Sys2Proof.Machine.execSmbusReadWord cmd s
  | .smbusBlockRead cmd => Sys2Proof.Machine.execSmbusBlockRead cmd s
  | .smbusWrite cmd => Sys2Proof.Machine.execSmbusWrite cmd s
  | .registerWrite f t => Sys2Proof.Machine.execRegisterWrite f t s
  | .linkPowerStateChange link p => Sys2Proof.Machine.execLinkPowerStateChange link p s
  | .spdmUnsupportedRequest c kind => Sys2Proof.Machine.execSpdmUnsupportedRequest c kind s
  | .invalidInstruction f w => Sys2Proof.Machine.execInvalidInstruction f w s
  | .pgAonAssert smbAddr => Sys2Proof.Machine.execPgAonAssert smbAddr s
  | .vddAonRemoved => Sys2Proof.Machine.execVddAonRemoved s

end Sys2Proof.Machine
end

