-- ==== Sys2Proof/Machine/ConfigSpace.lean ====
section
/-! DEFINITION. What configuration space reads (R12, R13, R180, R184, R188, R289, R294-R300, R324, R332, R340). No command of the table reads
it; a read changes nothing, so it is a function of the state. The places of bits within a capability that the spec does not give are
those of PCI Express (PRESUMED, log entry 16); a bit that neither gives is not known. -/

namespace Sys2Proof.Machine

/-- A 32-bit unit of configuration space: its value, and the bits that are known. -/
structure CfgDword where
  value : Nat
  known : Nat
deriving DecidableEq, Repr

/-- How a configuration read ends. -/
inductive CfgAnswer where
  | rrs
  | ur
  | data (d : CfgDword)
deriving DecidableEq, Repr

/-- All 32 bits are known. -/
def wholeDword (v : Nat) : CfgDword := ⟨v, 2 ^ 32 - 1⟩

/-- No bit is known. -/
def openDword : CfgDword := ⟨0, 0⟩

/-- Fields of a dword: lowest bit, width and value; the other bits are open. -/
def partDword (fs : List (Nat × Nat × Nat)) : CfgDword :=
  ⟨fieldsOf (fs.map (fun e => (e.1, e.2.2))), fieldsOf (fs.map (fun e => (e.1, 2 ^ e.2.1 - 1)))⟩

/-! ### Capability lists (R296-R298): offset, ID and Next -/

def stdCaps : List (Nat × Nat × Nat) := [(0x40, 0x01, 0x50), (0x50, 0x10, 0xB0), (0xB0, 0x11, 0x00)]

def pfCaps : List (Nat × Nat × Nat) :=
  [(0x100, 0x0001, 0x160), (0x160, 0x000E, 0x168), (0x168, 0x0003, 0x180), (0x180, 0x0010, 0x1C0), (0x1C0, 0x0019, 0x1F0),
   (0x1F0, 0x0025, 0x200), (0x200, 0x0026, 0x230), (0x230, 0x002A, 0x260), (0x260, 0x0031, 0x280), (0x280, 0x0032, 0x2A0),
   (0x2A0, 0x0027, 0x2F0), (0x2F0, 0x0018, 0x300), (0x300, 0x001E, 0x320), (0x320, 0x0015, 0x330), (0x330, 0x0024, 0x340),
   (0x340, 0x002E, 0x360), (0x360, 0x002F, 0x370), (0x370, 0x0030, 0x470), (0x470, 0x0023, 0x000)]

/-- Under classic sizing both Resizable BAR capabilities are absent (R297). -/
def classicCaps : List (Nat × Nat × Nat) :=
  (pfCaps.filter (fun e => e.1 != 0x320 && e.1 != 0x330)).map (fun e => if e.1 == 0x300 then (e.1, e.2.1, 0x340) else e)

def vfCaps : List (Nat × Nat × Nat) := [(0x100, 0x0001, 0x160), (0x160, 0x000E, 0x168), (0x168, 0x0023, 0x000)]

/-- The link uses resizable sizing (R186). -/
def State.resizable (s : State) (l : Nat) : Bool := (s.boot.cfg.bars.getD l (false, 21)).1

/-- The extended capabilities of a function. -/
def State.extCaps (s : State) (f : FnId) : List (Nat × Nat × Nat) :=
  if f.fn != 0 then vfCaps else if s.resizable f.link then pfCaps else classicCaps

/-- Offset of the Designated Vendor-Specific capability of a function (R296, R298). -/
def dvsecAt (f : FnId) : Nat := if f.fn == 0 then 0x470 else 0x168

/-! ### The header (R13, R180, R295, R298) -/

/-- The configuration header of PF0 or of a VF. -/
def State.cfgHeader (s : State) (f : FnId) (off : Nat) : CfgDword :=
  let pf := f.fn == 0
  let x := s.fn f
  if off == 0x00 then wholeDword (if pf then 0x84401F3A else 0xFFFFFFFF)
  else if off == 0x04 then partDword [(1, 1, bit (pf && x.mse)), (2, 1, bit x.bme), (20, 1, 1)]
  else if off == 0x2C then wholeDword (s.boot.cfg.subId * 2 ^ 16 + s.boot.cfg.subVendor)
  else if off == 0x34 then partDword [(0, 8, 0x40)]
  else if off == 0x3C then partDword [(8, 8, 0)]
  else if !pf then openDword
  else if off == 0x08 then wholeDword (0x058000 * 2 ^ 8 + Config.stepping.toNat)
  else if off == 0x0C then partDword [(16, 8, 0)]
  else if off == 0x10 then wholeDword (x.bar0 % 2 ^ 32 + 0b0100)
  else if off == 0x14 then wholeDword (x.bar0 / 2 ^ 32)
  else if 0x18 ≤ off ∧ off < 0x28 then wholeDword 0
  else openDword

/-! ### Standard capabilities (R294, R298, R340, R341) -/

/-- log2 of a size in units of 128 bytes: the encoding of Max_Payload_Size and Max_Read_Request_Size. -/
def sizeCode (bytes : Nat) : Nat := Nat.log2 (bytes / 128)

/-- The registers of Power Management, PCI Express and MSI-X; the low half of a header is its ID and Next. -/
def State.cfgStd (s : State) (f : FnId) (off : Nat) : CfgDword :=
  let x := s.fn f
  let pf := f.fn == 0
  let head (o : Nat) : List (Nat × Nat × Nat) := match stdCaps.find? (fun e => e.1 == o) with
    | some (_, i, n) => [(0, 8, i), (8, 8, n)]
    | none => []
  if off == 0x40 then partDword (head off ++ [(25, 2, 0), (27, 5, 0b11001)])
  else if off == 0x44 then partDword [(0, 2, if x.d3 then 3 else 0), (3, 1, 1), (8, 1, bit x.pmeEn), (15, 1, bit x.pmeStatus)]
  else if off == 0x50 then partDword (head off ++ [(20, 4, 0)])
  else if off == 0x54 then partDword [(0, 3, sizeCode 512), (28, 1, 1)]
  else if off == 0x58 then partDword [(5, 3, sizeCode x.mps), (12, 3, sizeCode x.mrrs)]
  else if off == 0x60 then partDword [(3, 1, bit (x.rcb == 128))]
  else if off == 0x74 then partDword [(0, 4, 0b0001), (4, 1, 0), (6, 1, 0), (7, 1, 1), (8, 1, 1), (9, 1, 1), (11, 1, 1), (16, 1, 1), (17, 1, 1)]
  else if off == 0x78 then partDword [(0, 4, x.ctv), (12, 1, bit (x.tags == 10))]
  else if off == 0xB0 then
    partDword (head off ++ [(16, 11, if pf then 2047 else 63), (27, 3, 0), (30, 1, bit x.fnMask), (31, 1, bit x.msixEnable)])
  else if off == 0xB4 then wholeDword (if pf then 0x1000000 else 0xF0000)
  else if off == 0xB8 then wholeDword (if pf then 0x1008000 else 0xF0800)
  else openDword

/-! ### Extended capabilities -/

/-- The place of an error in the AER registers: in the correctable ones, and the bit. -/
def aerPlace : Aer → Bool × Nat
  | .poisonedTlp => (false, 12)
  | .completionTimeout => (false, 14)
  | .completerAbort => (false, 15)
  | .unexpectedCompletion => (false, 16)
  | .malformedTlp => (false, 18)
  | .unsupportedRequest => (false, 20)
  | .uncorrectableInternal => (false, 22)
  | .ideCheckFailed => (false, 27)
  | .dataLinkProtocol => (false, 4)
  | .flowControlProtocol => (false, 13)
  | .receiverOverflow => (false, 17)
  | .receiverError => (true, 0)
  | .badTlp => (true, 6)
  | .badDllp => (true, 7)
  | .replayRollover => (true, 8)
  | .replayTimeout => (true, 12)
  | .correctedInternal => (true, 14)
  | .headerLogOverflow => (true, 15)

/-- The bits that an AER register shows for a list of errors, among those the TV8440 reports. -/
def aerBits (correctable : Bool) (held : List Aer) : CfgDword :=
  let all : List Aer := [.unsupportedRequest, .completerAbort, .completionTimeout, .unexpectedCompletion, .poisonedTlp, .ideCheckFailed,
    .uncorrectableInternal, .malformedTlp, .headerLogOverflow, .correctedInternal, .receiverError, .badTlp, .badDllp, .replayTimeout,
    .replayRollover, .dataLinkProtocol, .flowControlProtocol, .receiverOverflow]
  partDword ((all.filter (fun e => (aerPlace e).1 == correctable)).map (fun e => ((aerPlace e).2, 1, bit (held.contains e))))

/-- The Designated Vendor-Specific capability, by the offset within it (R300). -/
def dvsec (o : Nat) : CfgDword :=
  if o == 0x04 then wholeDword (0x014 * 2 ^ 20 + 0 * 2 ^ 16 + 0x1F3A)
  else if o == 0x08 then wholeDword (0x0001 * 2 ^ 16 + 0x0001)
  else if o == 0x0C then wholeDword 0
  else if o == 0x10 then wholeDword 0x00000000
  else openDword

/-- The SR-IOV capability, by the offset within it (R184, R298, R299). -/
def State.cfgSriov (s : State) (l o : Nat) : CfgDword :=
  let x := s.link l
  let count := (s.range l).2
  if o == 0x04 then partDword [(0, 1, 0)]
  else if o == 0x08 then partDword [(0, 1, bit x.vfEnable), (3, 1, bit x.vfMse)]
  else if o == 0x0C then wholeDword (count * 2 ^ 16 + count)
  else if o == 0x10 then partDword [(0, 16, x.numVfs)]
  else if o == 0x14 then wholeDword (1 * 2 ^ 16 + 1)
  else if o == 0x18 then partDword [(16, 16, 0x8441)]
  else if o == 0x1C then wholeDword (2 ^ 9 - 1)
  else if o == 0x24 then wholeDword (x.vfBar0 + 0b0000)
  else if o == 0x28 then wholeDword 0
  else if o == 0x2C then wholeDword (x.vfBar2 % 2 ^ 32 + 0b1100)
  else if o == 0x30 then wholeDword (x.vfBar2 / 2 ^ 32)
  else if o == 0x34 ∨ o == 0x38 then wholeDword 0
  else openDword

/-- The two Resizable BAR capabilities from 0x320 (R188); zeros under classic sizing (R297). -/
def State.cfgResize (s : State) (l off : Nat) : CfgDword :=
  let w := (s.boot.cfg.bars.getD l (false, 21)).2
  if !s.resizable l then wholeDword 0
  else if off == 0x324 then wholeDword (2 ^ 10)
  else if off == 0x328 then partDword [(0, 3, 0), (5, 3, 1), (8, 6, 6)]
  else if off == 0x334 then wholeDword (((List.range (w - 20)).map (fun i => 2 ^ (i + 1 + 4))).sum)
  else if off == 0x338 then partDword [(0, 3, 2), (5, 3, 1), (8, 6, (s.link l).vfSize - 20)]
  else openDword

/-- The version of an extended capability, where the spec gives it (R296, R300). -/
def capVersion (id : Nat) : List (Nat × Nat × Nat) := if id == 0x0001 then [(16, 4, 2)] else if id == 0x0023 then [(16, 4, 1)] else []

/-- Extended configuration space of a function. -/
def State.cfgExt (s : State) (f : FnId) (off : Nat) : CfgDword :=
  let x := s.fn f
  let pf := f.fn == 0
  match (s.extCaps f).find? (fun e => e.1 == off) with
  | some (_, i, n) => partDword ([(0, 16, i), (20, 12, n)] ++ capVersion i)
  | none =>
    if off == 0x104 then aerBits false x.aer
    else if off == 0x108 then aerBits false x.aerMask
    else if off == 0x10C then aerBits false x.aerFatal
    else if off == 0x110 then aerBits true x.aer
    else if off == 0x114 then aerBits true x.aerMask
    else if off == 0x118 then partDword (match x.aerHead with
      | some (e, _) => [(0, 5, (aerPlace e).2)]
      | none => [])
    else if dvsecAt f < off ∧ off < dvsecAt f + 0x14 then dvsec (off - dvsecAt f)
    else if !pf then openDword
    else if off == 0x16C then wholeDword (Config.serial.toNat % 2 ^ 32)
    else if off == 0x170 then wholeDword (Config.serial.toNat / 2 ^ 32)
    else if 0x180 < off ∧ off < 0x1C0 then s.cfgSriov f.link (off - 0x180)
    else if 0x320 ≤ off ∧ off < 0x340 then s.cfgResize f.link off
    else openDword

/-- The dword of a function's configuration space at an aligned offset. -/
def State.cfgDword (s : State) (f : FnId) (off : Nat) : CfgDword :=
  if off < 0x40 then s.cfgHeader f off else if off < 0x100 then s.cfgStd f off else s.cfgExt f off

/-- A configuration read: RRS until the link's functions are ready (R289, R554) and during an FLR (R332), UR for a function that does
not appear. -/
def State.cfgRead (s : State) (f : FnId) (off : Nat) : CfgAnswer :=
  if s.cfgRetry f.link then .rrs
  else if !s.fnEnabled f then .ur
  else if (s.fn f).flr then .rrs
  else .data (s.cfgDword f (off / 4 * 4))

end Sys2Proof.Machine
end

