-- ==== Sys2Proof/Machine/Pads.lean ====
section
/-! DEFINITION. What the device's output pins and pads show (R540, R560, R562, R581, R583, R650, R654): a function of the state. -/

namespace Sys2Proof.Machine

/-- The device's output and bidirectional pins (R650), and the pads of its DDR channels and HBM stacks (R583). -/
inductive OutPin where
  | wake (link : Nat)
  | thermtrip | smbAlert | smbBus | avs | qspi | i3c | jtag
  | ddrReset (ch : Nat) | ddrCommand (ch : Nat) | ddrData (ch : Nat)
  | hbmCommand (stack : Nat) | hbmData (stack : Nat)
  | hostTx (link : Nat) | borderTx (link : Nat)
deriving DecidableEq, Repr

/-- What a pin shows: high impedance, a level, electrical idle, the levels of self-refresh, or what its unit drives. -/
inductive PinLevel where
  | z | low | high | idle | selfRefresh | driven
deriving DecidableEq, Repr

/-- A VERIFY has reached check 7, the DIMMs' SPD (R547, R562): nothing before it failed. -/
def State.verifyingSpd (s : State) : Bool :=
  s.sys.mode == .blank && s.boot.rcvBusy && (s.boot.rcvOp.map Prod.fst == some 4) &&
  (s.boot.rcvResult == 0 || s.boot.rcvResult == 0x0204)

/-- The pads of a domain that is not on, or its unit's own levels (R583). -/
def State.padLevel (s : State) (d : Nat) (lower : PinLevel) : PinLevel := if (s.dom d).state == 0 then .driven else lower

/-- A pin with the device out of reset (R650, R583). -/
def State.livePin (s : State) : OutPin → PinLevel
  | .wake l => if (s.link l).wake then .low else .z
  | .thermtrip => if s.sys.thermtrip then .low else .z
  | .smbAlert => if s.sys.alert then .low else .z
  | .smbBus | .avs | .jtag => .driven
  | .qspi => if s.sys.mode == .blank || (s.sys.mode == .loading && decide (s.boot.step < 2)) then .driven else .z
  | .i3c => if s.verifyingSpd || (s.sys.mode == .loading && (s.boot.step == 1 || s.boot.step == 4)) then .driven else .z
  | .ddrReset ch => s.padLevel (13 + ch) .high
  | .ddrCommand ch => s.padLevel (13 + ch) .selfRefresh
  | .ddrData ch => s.padLevel (13 + ch) .z
  | .hbmCommand q => s.padLevel (29 + q) .selfRefresh
  | .hbmData q => s.padLevel (29 + q) .z
  | .hostTx l => s.padLevel (1 + l / 2) .idle
  | .borderTx l => s.padLevel (33 + l) .idle

/-- The level of a pin; none where R650 states none (the DDR and HBM pads while the device is unpowered or held in reset, but for the
DDR's RESET_n). -/
def State.pinLevel (s : State) (p : OutPin) : Option PinLevel :=
  if !s.sys.aon then
    match p with
    | .ddrReset _ => some .low
    | .ddrCommand _ | .ddrData _ | .hbmCommand _ | .hbmData _ => none
    | _ => some .z
  else if s.sys.devRst then
    match p with
    | .wake _ | .qspi | .i3c => some .z
    | .thermtrip => some (s.livePin .thermtrip)
    | .smbAlert | .avs | .ddrReset _ => some .low
    | .smbBus | .jtag => some .driven
    | .hostTx _ | .borderTx _ => some .idle
    | .ddrCommand _ | .ddrData _ | .hbmCommand _ | .hbmData _ => none
  else some (s.livePin p)

end Sys2Proof.Machine
end

