-- ==== Sys2Proof/Safety.lean ====
section
/-! DEFINITION. What the statements say about states: which parts a command leaves, the invariant every step keeps, what zeroization
leaves, and what a run is. -/

namespace Sys2Proof.Machine

/-- The parts of the state. -/
inductive Part where
  | pending | out | sys | boot | trust | host | work | pool | net | basket | evt | flt | pwr | usg
deriving DecidableEq, Repr

/-- Two states agree in a part. -/
def Agree (s t : State) : Part → Prop
  | .pending => t.pending = s.pending
  | .out => t.out = s.out
  | .sys => t.sys = s.sys
  | .boot => t.boot = s.boot
  | .trust => t.trust = s.trust
  | .host => t.host = s.host
  | .work => t.work = s.work
  | .pool => t.pool = s.pool
  | .net => t.net = s.net
  | .basket => t.basket = s.basket
  | .evt => t.evt = s.evt
  | .flt => t.flt = s.flt
  | .pwr => t.pwr = s.pwr
  | .usg => t.usg = s.usg

/-- The frame of a command: `t` differs from `s` at most in the parts listed. -/
structure OnlyIn (parts : List Part) (s t : State) : Prop where
  agree : ∀ p, p ∉ parts → Agree s t p

/-- The byte memories are in canonical form: the flash, the recovery buffer and the channels' DRAM (R107, R539, R564). -/
def State.MemoryOk (s : State) : Bool :=
  Memory.wf 0xFF s.boot.flash && Memory.wf 0 s.boot.rcvBuf && Memory.wf 0 s.pool.ddr

/-- What zeroization leaves (R99): no glove key, guest key, key share or session key, no private key, no ready DRBG and no plaintext
in a write-combining buffer. -/
def State.Zeroized (s : State) : Prop :=
  s.trust.band = [] ∧ s.trust.shares = [] ∧ s.trust.drbgReady = false ∧ s.trust.aliasKey = none ∧ s.trust.usageKey = none ∧
  (∀ e ∈ s.host.links, e.2.sessions = [] ∧ ∀ i ∈ e.2.ide, i.keys = []) ∧ (∀ e ∈ s.pool.gates, e.2.wcb = [])

/-- One request more is outstanding: what its initiator does with the response, and its packet. -/
def Issues (s t : State) (ctx : ReqCtx) (pkt : Packet → Prop) : Prop :=
  ∃ r, t.net.outst = s.net.outst ++ [r] ∧ r.ctx = ctx ∧ pkt r.pkt

/-- A packet like this is in the Weave. -/
def Sends (t : State) (pkt : Packet → Prop) : Prop := ∃ e ∈ t.net.pkts, pkt e.2

/-- A packet of an opcode finds its target ready: its turn has come, it travels on a virtual channel of its class, and its target is
neither fenced nor in a domain that is not on (R244, R254-R256, R261, R521). -/
abbrev State.Arrives (s : State) (o : POp) (p : Packet) : Prop :=
  p.op = o ∧ s.waitsTurn p = false ∧ o.cls = vcCls p.vc ∧ s.fenced p.dest = false ∧ s.unitOn p.dest = true

/-- A response finds its request outstanding (R272, R273). -/
abbrev State.AnswersReq (s : State) (o : POp) (p : Packet) (r : Req) : Prop :=
  s.Arrives o p ∧ (p.dest, p.tag) ∉ s.net.dead ∧ s.reqOf p.dest p.tag = some r

/-- One line of a page that the requester's Band slot owns, at its owning gate, which holds the page's ownership line, with nothing of
its block under way, no access parked for the line and nothing that fails it (R27, R110, R122, R131, R132, R163, R260). -/
structure State.OwnedLine (s : State) (g : Nat) (p : Packet) (line b : Nat) : Prop where
  dest : p.dest = gateUnit g
  gate : g < 16
  addr : p.addr / 64 = line
  len : 0 < p.len ∧ p.addr % 64 + p.len ≤ 64
  pool : p.addr < 0x040000000000
  slot : s.reqSlot p = some b
  owned : ∃ own, s.ownHeld g (line / 32768) = some own ∧ own.state = 1 ∧ own.owner = b
  live : (s.gate g).retired = false ∧ s.poisoned g (line / 64) = false ∧ line / 64 ∉ (s.gate g).exhausted
  quiet : s.walkOf g (line / 64) = none
  free : ∀ o ∈ (s.gate g).parked, line ∉ o.poolLines

/-- The entry of a command completes with a code and a result, and no other queue changes (R358, R360). -/
def Completes (s t : State) (o : Origin) (code result : Nat) : Prop :=
  t.queue o.q = (s.complete o code result).queue o.q ∧ ∀ q, q.key ≠ o.q.key → t.queue q = s.queue q

/-- A control command of an open glove's VF runs (R372, R661). -/
abbrev State.ControlRuns (s : State) (o : Origin) : Prop :=
  s.serves = true ∧ s.fnExists o.q.fnId = true ∧ o.q.fn ≠ 0 ∧ (s.glove (s.gloveOf o.q.fnId)).state = .opened

/-- An admin command on a glove of its link runs (R47, R372). -/
abbrev State.AdminRuns (s : State) (o : Origin) (g : Nat) : Prop :=
  s.serves = true ∧ s.fnExists o.q.fnId = true ∧ s.linkHas o.q.link g = true

/-- A run of `n` steps that neither faults nor refuses ends in `t`. -/
def Runs : Nat → State → State → Prop
  | 0, s, t => t = s
  | n + 1, s, t => ∃ u, step s = .next u ∧ Runs n u t

end Sys2Proof.Machine
end

