-- ==== Sys2Proof/WellFormed.lean ====
section
/-! DEFINITION. Which commands are well formed: every number lies in the range its field or its name has in the spec.
`exec` is total and does not depend on this check; it says what a sender may send. -/

namespace Sys2Proof

/-- 16 links (R284) and 256 functions (R46). -/
def FnId.wf (f : FnId) : Bool := decide (f.link < 16) && decide (f.fn < 256)

/-- The link widths (R286). -/
def isWidth (w : Nat) : Bool := [1, 2, 4, 8, 16].contains w

/-- Queues 0-64 (R345). -/
def QId.wf (q : QId) : Bool := decide (q.link < 16) && decide (q.fn < 256) && decide (q.q < 65)

/-- Fingers 0-15 (R397). -/
def FgId.wf (f : FgId) : Bool := decide (f.link < 16) && decide (f.fn < 256) && decide (f.f < 16)

/-- A queue and a 32-bit entry index (R350). -/
def Origin.wf (o : Origin) : Bool := o.q.wf && decide (o.idx < 2 ^ 32)

/-- The data flits that an opcode allows (R241). -/
def POp.flits : POp → Nat × Nat
  | .memWr | .cplD | .mrD => (1, 8)
  | .memWrUnlock | .regWr | .mqWr | .mqMac | .tierFill => (1, 1)
  | .mirrorWr => (1, 2)
  | .event | .msgReq | .fault => (0, 1)
  | .mgmt | .reserved _ => (0, 8)
  | _ => (0, 0)

/-- What the opcode asks of the fields: its data flits, ACK_REQ of an unlock, the length of a register access (R241). -/
def Packet.opWf (p : Packet) : Bool :=
  decide (p.op.flits.1 ≤ p.data.length) && decide (p.data.length ≤ p.op.flits.2) &&
  (match p.op with
   | .memWrUnlock | .unlock => p.ackReq
   | .regRd | .regWr => p.len == 4 || p.len == 8
   | _ => true)

/-- Every field fits its header field (R239) and the data flits are those of the opcode (R238, R241). -/
def Packet.wf (p : Packet) : Bool :=
  p.opWf &&
  decide (p.vc < 16) && decide (p.dest < 1024) && decide (p.initUnit < 1024) && decide (p.initKnot < 120) &&
  decide (p.tag < 65536) && decide (p.ctx < 65536) && decide (p.addr < 2 ^ 64) && decide (p.link < 16) &&
  decide (p.fn < 256) && decide (p.len ≤ 4096) && decide (p.status < 65536) && decide (p.world < 4) &&
  decide (p.glove < 1024) && decide (p.home < 4) && decide (p.data.length ≤ 8)

/-- The packet carries the row's opcode, or a reserved one that arrives in its place (R241, R244). -/
def Packet.opIs (p : Packet) (o : POp) : Bool :=
  match p.op with
  | .reserved _ => true
  | x => x == o

/-- A read of at most 4,096 bytes with a 14-bit tag (R306, R313). -/
def HostRead.wf (r : HostRead) : Bool :=
  decide (r.link < 16) && decide (r.addr < 2 ^ 64) && decide (r.len ≤ 4096) && decide (r.tag < 16384)

/-- A write of at most 4,096 bytes (R308). -/
def HostWrite.wf (w : HostWrite) : Bool :=
  decide (w.link < 16) && decide (w.addr < 2 ^ 64) && decide (w.data.length ≤ 4096)

/-- An AtomicOp of 4, 8 or 16 bytes (R294). -/
def HostAtomic.wf (a : HostAtomic) : Bool :=
  decide (a.link < 16) && decide (a.addr < 2 ^ 64) && (a.size == 4 || a.size == 8 || a.size == 16) &&
  decide (a.tag < 16384)

/-- A completion of at most 4,096 bytes (R326). -/
def HostCpl.wf (c : HostCpl) : Bool :=
  decide (c.link < 16) && decide (c.fn < 256) && decide (c.tag < 16384) && decide (c.data.length ≤ 4096)

/-- A width of a PCIe link, and widths of L0p. -/
def PartnerWidth.wf (w : PartnerWidth) : Bool := isWidth w.lanes && w.l0p.all isWidth

/-- A link of the part, a width of a PCIe link, and an error of the data link or its flow control. -/
def HostRecovery.wf (r : HostRecovery) : Bool :=
  decide (r.link < 16) && r.l0p.all isWidth &&
    r.err.all [Aer.dataLinkProtocol, .flowControlProtocol, .receiverOverflow].contains

/-- A host link 0-15 or a Border link 0-7. -/
def SpdmCh.wf : SpdmCh → Bool
  | .host link _ => decide (link < 16)
  | .border link => decide (link < 8)

/-- Channels 0-15, sizes 0-2 and rates 0-3 of R102 and R103; four temperatures at most,
and stacks 0-3 with pseudo-channels 0-31, 32 for the whole stack (R551). -/
def Board.wf (b : Board) : Bool :=
  b.dimms.all (fun d => decide (d.ch < 16) && decide (d.size < 3) && decide (d.rate < 16)) &&
  decide (b.temps.length ≤ 4) && b.perst.all (· < 16) && b.ddrFail.all (· < 16) &&
  b.hbmFail.all (fun e => decide (e.1 < 4) && decide (e.2 ≤ 32))

/-- The copies of R518. -/
def CopyOf.wf : CopyOf → Bool
  | .translation unit link glove index => decide (unit < 1024) && decide (link < 16) && decide (glove < 1024) && decide (index < 2 ^ 21)
  | .rules glove => decide (glove < 1024)
  | .counter gate _ => decide (gate < 16)
  | .macLine gate _ => decide (gate < 16)
  | .ownership gate _ => decide (gate < 16)
  | .node hgate _ => decide (hgate < 32)
  | .instruction f _ => f.wf

/-- The places that the rows of R517 name. -/
def FaultError.wf : FaultError → Bool
  | .linkRetry lane err => decide (lane < 16) &&
    [Aer.receiverError, .badTlp, .badDllp, .replayTimeout, .replayRollover].contains err
  | .badCopy c => c.wf
  | .linkNoWidth link => decide (link < 16)
  | .strandSingle knot port group => decide (knot < 120) && decide (port < 4) && decide (group < 8)
  | .poisonedHbm pc => decide (pc < 32)
  | .pseudoFailed pc _ => decide (pc < 32)
  | .borderParity lane => decide (lane < 8)
  | _ => true

/-- A unit ID and the 64-bit element of the fault log (R513, R517, R535). -/
def FaultReport.wf (r : FaultReport) : Bool :=
  decide (r.cls < 16) && decide (r.code < 65536) && decide (r.unit < 1024) && decide (r.quad < 4) &&
  decide (r.element < 2 ^ 64) && r.error.wf

/-- The fields of R212 and R213. -/
def Violation.wf (v : Violation) : Bool :=
  decide (v.glove < 1024) && decide (v.addr < 2 ^ 42) && decide (v.code < 65536) && decide (v.world < 4) &&
  decide (v.unit < 1024)

/-- The buckets that exist (R520). -/
def Bucket.wf : Bucket → Bool
  | .wire k p g => decide (k < 120) && decide (p < 4) && decide (g < 8)
  | .hostLane c l => decide (c < 8) && decide (l < 16)
  | .borderLane l n => decide (l < 8) && decide (n < 8)
  | .borderDown l => decide (l < 8)
  | .ddrIntegrity c => decide (c < 16)
  | .ddrUncorrectable c => decide (c < 16)
  | .hbmPseudo s p => decide (s < 4) && decide (p < 32)
  | .recovery u => decide (u < 1024)

/-- 16 channels and 4 stacks of 32 pseudo-channels (R153, R177). -/
def Sched.wf : Sched → Bool
  | .ddr c => decide (c < 16)
  | .hbm s p => decide (s < 4) && decide (p < 32)

/-- A write of at most 4,096 bytes within BAR0 (R180), or a 64-bit configuration value. -/
def RegTarget.wf : RegTarget → Bool
  | .bar0 off d => decide (off < 2 ^ 26) && decide (d.length ≤ 4096)
  | .cfg (.ideStream b i) v => decide (b.getD 0 < 4) && decide (i < 256) && decide (v < 2)
  | .cfg (.ideRid b lo hi) v => decide (b < 4) && decide (lo ≤ hi) && decide (hi < 256) && decide (v < 2)
  | .cfg (.ideAddr b i base limit) v =>
    decide (b < 4) && decide (i < 2) && decide (base ≤ limit) && decide (limit < 2 ^ 64) && decide (v < 2)
  | .cfg _ v => decide (v < 2 ^ 64)

/-- 2,048 vectors (R340). -/
def MaskTarget.wf : MaskTarget → Bool
  | .vector v => decide (v < 2048)
  | .function => true

/-- Key set, direction and sub-stream (R88). -/
def IdeSlot.wf (s : IdeSlot) : Bool := decide (s.keySet < 2) && decide (s.dir < 2) && decide (s.sub < 3)

/-- Basket positions 0-3 and link numbers 0-7 (R438). -/
def Ident.wf (i : Ident) : Bool := decide (i.pos < 4) && decide (i.link < 8)

/-- The header fields of R443. -/
def BorderPkt.wf (b : BorderPkt) : Bool :=
  decide (b.xid < 65536) && decide (b.originLink < 8) && decide (b.world < 4) && decide (b.glove < 1024) &&
  decide (b.home < 4) && decide (b.len ≤ 4096) && decide (b.status < 65536) && decide (b.addr < 2 ^ 52) &&
  decide (b.data.length ≤ 8)

/-- A 16-bit sequence number and a body of at most one flit (R441). -/
def PayloadFlit.wf (p : PayloadFlit) : Bool := decide (p.vc < 16) && decide (p.seq < 65536) && decide (p.body.length ≤ 256)

/-- A 16-bit sequence number (R445). -/
def AckFlit.wf (a : AckFlit) : Bool := decide (a.ackSeq < 65536) && decide (a.reserved.length ≤ 7) && decide (a.shared.length ≤ 7)

/-- VFs 1-255. -/
def BarField.wf : BarField → Bool
  | .msixTable f => decide (f < 256)
  | _ => true

/-- Groups 0-7 of a strand direction (R233). -/
def StrandError.wf (e : StrandError) : Bool :=
  decide (e.single ++ e.bad).Nodup && (e.single ++ e.bad).all (· < 8)

/-- The commands a sender may send. -/
def Instr.wf : Instr → Bool
  | .coldReset b => b.wf
  | .devRstAssert => true
  | .powerGoodDeassert => true
  | .tamperInputAssert i => decide (i < 8)
  | .thermtrip quad => decide (quad < 4)
  | .tWarnReached quad temp => decide (quad < 4) && decide (temp < 256)
  | .thermalHoldEnd temps => decide (temps.length == 4) && temps.all (· < 256)
  | .hostMemoryRead r => r.wf
  | .hostMemoryWrite w => w.wf
  | .hostAtomicop a => a.wf
  | .unsupportedRequest link tag _ => decide (link < 16) && decide (tag < 65536)
  | .hostCompletion c => c.wf
  | .hostCplTimeout link unit tag => decide (link < 16) && decide (unit < 1024) && decide (tag < 65536)
  | .cuffTxDequeue link => decide (link < 16)
  | .perstAssert link => decide (link < 16)
  | .perstDeassert link => decide (link < 16)
  | .linkTrainedL0 link rate width _ => decide (link < 16) && decide (1 ≤ rate) && decide (rate ≤ 6) && width.wf
  | .dlDown link => decide (link < 16)
  | .linkHotReset link => decide (link < 16)
  | .hostRecoveryEntered r => r.wf
  | .flrStart f => f.wf
  | .flrComplete f => f.wf
  | .vfEnableClear link => decide (link < 16)
  | .vfEnableSet link => decide (link < 16)
  | .numvfsWrite link v => decide (link < 16) && decide (v < 2 ^ 64)
  | .barWrite link field v => decide (link < 16) && field.wf && decide (v < 2 ^ 64)
  | .vfBarSizeWrite link v => decide (link < 16) && decide (v < 2 ^ 64)
  | .bmeClear f => f.wf
  | .bmeSet f => f.wf
  | .d3hotEntry f => f.wf
  | .d0Return f => f.wf
  | .msixMaskWrite f t _ => f.wf && t.wf
  | .msixCommit f vec => f.wf && decide (vec < 2048)
  | .pendingVectorSend f vec => f.wf && decide (vec < 2048)
  | .lockExpiry gate line => decide (gate < 16) && decide (line < 2 ^ 42)
  | .memRd p => p.wf && p.opIs .memRd
  | .memWr p => p.wf && p.opIs .memWr
  | .memRdLock p => p.wf && p.opIs .memRdLock
  | .memWrUnlock p => p.wf && p.opIs .memWrUnlock
  | .unlock p => p.wf && p.opIs .unlock
  | .zlRd p => p.wf && p.opIs .zlRd
  | .regRd p => p.wf && p.opIs .regRd
  | .regWr p => p.wf && p.opIs .regWr
  | .cplD p => p.wf && p.opIs .cplD
  | .cpl p => p.wf && p.opIs .cpl
  | .ack p => p.wf && p.opIs .ack
  | .mqRd p => p.wf && p.opIs .mqRd
  | .mqWr p => p.wf && p.opIs .mqWr
  | .mqMac p => p.wf && p.opIs .mqMac
  | .tierLookup p => p.wf && p.opIs .tierLookup
  | .tierFill p => p.wf && p.opIs .tierFill
  | .mirrorWr p => p.wf && p.opIs .mirrorWr
  | .mrD p => p.wf && p.opIs .mrD
  | .mrAck p => p.wf && p.opIs .mrAck
  | .event f vec => f.wf && decide (vec < 2048)
  | .msgReq f vec => f.wf && decide (vec < 2048)
  | .fault r => r.wf
  | .ruleFault v => v.wf
  | .ownershipInvalidate gate lines => decide (gate < 16) && lines.all (· < 2 ^ 36)
  | .ownershipInvalidateAck gate => decide (gate < 16)
  | .knotOutputGrant knot port err => decide (knot < 120) && decide (port < 5) && err.wf
  | .holdStoreRoomFreed knot vc => decide (knot < 120) && decide (vc < 16)
  | .creditReturn knot port vc _ => decide (knot < 120) && decide (port < 6) && decide (vc < 16)
  | .weaveTimeout unit tag => decide (unit < 1024) && decide (tag < 65536)
  | .tagRelease unit tag => decide (unit < 1024) && decide (tag < 65536)
  | .paceMonitorSample quad readings => decide (quad < 4) && readings.length == 4 && readings.all (· < 4096)
  | .sampleWindowEnd => true
  | .wvePaceAlarmClear quad => decide (quad < 4)
  | .leakyBucketDrain b => b.wf
  | .commandSlotGrant s _ _ => s.wf
  | .wcbResidencyExpiry gate line => decide (gate < 16) && decide (line < 2 ^ 42)
  | .reencPhaseADone gate block => decide (gate < 16) && decide (block < 2 ^ 36)
  | .reencRaiseClass gate block => decide (gate < 16) && decide (block < 2 ^ 36)
  | .stagingBufferFreed gate => decide (gate < 16)
  | .doorbell q _ => q.wf
  | .queueEnable f _ => f.wf
  | .queueDisable f => f.wf
  | .entryFetch q => q.wf
  | .entryDispatch q => q.wf
  | .resultWrite q => q.wf
  | .resultWriteAcked q => q.wf
  | .headWriteAcked q => q.wf
  | .openGlove o glove _ _ queueLimit fingerLimit => o.wf && decide (glove < 1024) && decide (queueLimit < 65536) && decide (fingerLimit < 65536)
  | .closeGlove o glove => o.wf && decide (glove < 1024)
  | .bandSlotZeroConfirmed glove => decide (glove < 1024)
  | .lastPageReleased glove => decide (glove < 1024)
  | .grantPages o glove home _ group m start => o.wf && decide (glove < 1024) && decide (home < 4) && decide (group < 256) && decide (m < 2 ^ 32) && decide (start < 2 ^ 64)
  | .reclaimPages o glove mode group m start => o.wf && decide (glove < 1024) && decide (mode < 65536) && decide (group < 256) && decide (m < 2 ^ 32) && decide (start < 2 ^ 64)
  | .setLimits o glove mask share queueLimit fingerLimit rate => o.wf && decide (glove < 1024) && decide (mask < 65536) && decide (share < 2 ^ 32) && decide (queueLimit < 65536) && decide (fingerLimit < 65536) && decide (rate < 65536)
  | .setPeerWindow o glove slot _ => o.wf && decide (glove < 1024) && decide (slot < 2048)
  | .clearPeerWindow o glove slot => o.wf && decide (glove < 1024) && decide (slot < 2048)
  | .pinDomain o d => o.wf && decide (d < 41)
  | .unpinDomain o d => o.wf && decide (d < 41)
  | .drain o => o.wf
  | .getLog o log first buf len => o.wf && decide (log < 65536) && decide (first < 2 ^ 64) && decide (buf < 2 ^ 64) && decide (len < 2 ^ 64)
  | .getUsage o glove first buf len => o.wf && decide (glove < 1024) && decide (first < 2 ^ 64) && decide (buf < 2 ^ 64) && decide (len < 2 ^ 64)
  | .createQueue o num size _ _ finger vector ring head => o.wf && decide (num < 128) && decide (size < 65536) && decide (finger < 16) && decide (vector < 2048) && decide (ring < 2 ^ 64) && decide (head < 2 ^ 64)
  | .destroyQueue o num => o.wf && decide (num < 128)
  | .setRules o n _ addr => o.wf && decide (n < 2 ^ 32) && decide (addr < 2 ^ 64)
  | .getRuleFault o buf => o.wf && decide (buf < 2 ^ 64)
  | .clearRuleFault o => o.wf
  | .startFinger o f _ _ share burst => o.wf && decide (f < 16) && decide (share < 2 ^ 32) && decide (burst < 2 ^ 32)
  | .stopFinger o f => o.wf && decide (f < 16)
  | .epochDrainDone glove => decide (glove < 1024)
  | .epochDrainTimeout glove => decide (glove < 1024)
  | .runProgram f o target _ addr a0 a1 a2 a3 => f.wf && o.wf && decide (target < 1024) && decide (addr < 2 ^ 64) && decide (a0 < 2 ^ 64) && decide (a1 < 2 ^ 64) && decide (a2 < 2 ^ 64) && decide (a3 < 2 ^ 64)
  | .copy f o target _ _ src dst len => f.wf && o.wf && decide (target < 1024) && decide (src < 2 ^ 64) && decide (dst < 2 ^ 64) && decide (len < 2 ^ 64)
  | .fill f o target _ dst len _ => f.wf && o.wf && decide (target < 1024) && decide (dst < 2 ^ 64) && decide (len < 2 ^ 64)
  | .flush f o => f.wf && o.wf
  | .fingerIssue engine => decide (engine < 64)
  | .programLineFetch f => f.wf
  | .move f _ => f.wf
  | .loop f _ => f.wf
  | .wait f _ => f.wf
  | .waitPoll f => f.wf
  | .waitTimerExpiry f => f.wf
  | .waitTimeout f => f.wf
  | .signal f _ => f.wf
  | .seta f _ => f.wf
  | .adda f _ => f.wf
  | .endInstr f _ => f.wf
  | .tokenRefill f => f.wf
  | .fngEventsSet f _ => f.wf
  | .fngEventClr f _ => f.wf
  | .borderPayloadFlit link fl => decide (link < 8) && fl.wf
  | .borderAckFlit link a => decide (link < 8) && a.wf
  | .borderPacket link b => decide (link < 8) && b.wf
  | .ident link i => decide (link < 8) && i.wf
  | .rerouteReq link dead last => decide (link < 8) && decide (dead < 8) && decide (last < 65536)
  | .rerouteAck link dead last => decide (link < 8) && decide (dead < 8) && decide (last < 65536)
  | .rerouteDone link dead => decide (link < 8) && decide (dead < 8)
  | .widthReq link _ => decide (link < 8)
  | .widthAck link _ => decide (link < 8)
  | .ctrlRepeat link => decide (link < 8)
  | .borderAckTimer link => decide (link < 8)
  | .replayTimeout link => decide (link < 8)
  | .creditTimeout link vc => decide (link < 8) && decide (vc < 16)
  | .widthChangeTimeout link => decide (link < 8)
  | .borderSymbolLock link => decide (link < 8)
  | .trainingTimeout link => decide (link < 8)
  | .identTimeout link => decide (link < 8)
  | .lockLossTimeout link => decide (link < 8)
  | .downRetry link => decide (link < 8)
  | .rerouteLimitExpiry peer => decide (peer < 4)
  | .homeLinkReturn unit peer => decide (unit < 1024) && decide (peer < 4)
  | .keyTransfer peer glove _ => decide (peer < 4) && decide (glove < 1024)
  | .keyConfirm peer glove slot code => decide (peer < 4) && decide (glove < 1024) && decide (slot < 2048) && decide (code < 65536)
  | .pageAlloc peer glove m => decide (peer < 4) && decide (glove < 1024) && decide (m < 2 ^ 32)
  | .pageList peer glove code pages => decide (peer < 4) && decide (glove < 1024) && decide (code < 65536) && pages.all (· < 2 ^ 32)
  | .pageRelease peer glove pages => decide (peer < 4) && decide (glove < 1024) && pages.all (· < 2 ^ 32)
  | .keyRevoke peer glove => decide (peer < 4) && decide (glove < 1024)
  | .revokeAck peer glove pages => decide (peer < 4) && decide (glove < 1024) && decide (pages < 2 ^ 32)
  | .quarantineNotice peer cause => decide (peer < 4) && decide (cause < 65536)
  | .mgmtRetryTimeout peer glove => decide (peer < 4) && decide (glove < 1024)
  | .getVersion c => c.wf
  | .getCapabilities c _ => c.wf
  | .negotiateAlgorithms c _ => c.wf
  | .getDigests c => c.wf
  | .getCertificate c slot off len => c.wf && decide (slot < 2048) && decide (off < 65536) && decide (len < 2 ^ 64)
  | .challenge c slot sumType => c.wf && decide (slot < 2048) && decide (sumType < 256)
  | .getMeasurements c index _ => c.wf && decide (index < 65536)
  | .keyExchange c slot sumType _ => c.wf && decide (slot < 2048) && decide (sumType < 256)
  | .finish c session _ => c.wf && decide (session < 2 ^ 32)
  | .endSession c => c.wf
  | .getEncapsulatedRequest c => c.wf
  | .deliverEncapsulatedResponse c _ => c.wf
  | .peerSpdmResponse link _ => decide (link < 8)
  | .finishRsp link => decide (link < 8)
  | .ideKmQuery c => c.wf
  | .ideKmKeyProg c stream slot _ _ => c.wf && decide (stream < 256) && slot.wf
  | .ideKmKSetGo c stream keySet => c.wf && decide (stream < 256) && decide (keySet < 2)
  | .ideKmKSetStop c stream keySet => c.wf && decide (stream < 256) && decide (keySet < 2)
  | .getTdispVersion c vf => c.wf && decide (vf < 256)
  | .getTdispCapabilities c vf => c.wf && decide (vf < 256)
  | .lockInterfaceRequest c vf => c.wf && decide (vf < 256)
  | .getDeviceInterfaceReport c vf => c.wf && decide (vf < 256)
  | .getDeviceInterfaceState c vf => c.wf && decide (vf < 256)
  | .startInterfaceRequest c vf _ => c.wf && decide (vf < 256)
  | .stopInterfaceRequest c vf => c.wf && decide (vf < 256)
  | .bindP2pStreamRequest c vf => c.wf && decide (vf < 256)
  | .unbindP2pStreamRequest c vf => c.wf && decide (vf < 256)
  | .setMmioAttributeRequest c vf => c.wf && decide (vf < 256)
  | .gloveKeyShare c glove => c.wf && decide (glove < 1024)
  | .gloveKeyInstall c glove shareId _ _ _ => c.wf && decide (glove < 1024) && decide (shareId < 2 ^ 32)
  | .shareExpiry glove => decide (glove < 1024)
  | .drbgReseed => true
  | .entropyHealthFail => true
  | .entropyRetry => true
  | .evtInChange i _ => decide (i < 8)
  | .filterCountExpiry i => decide (i < 8)
  | .sourcePresent => true
  | .endOfService => true
  | .moderationTimerExpiry f group => f.wf && decide (group < 256)
  | .selfTestTick unit _ => decide (unit < 1024)
  | .quietPeriodExpiry unit => decide (unit < 1024)
  | .mramRecordWrite kind unit element detail _ => decide (kind < 65536) && decide (unit < 1024) && decide (element < 2 ^ 32) && decide (detail < 2 ^ 64)
  | .retireClear f _ index => f.wf && decide (index < 65536)
  | .retireClearCancel f _ index => f.wf && decide (index < 65536)
  | .recoveryRead f len => f.wf && decide (len < 2 ^ 64)
  | .recoveryErase f => f.wf
  | .recoveryProgram f len => f.wf && decide (len < 2 ^ 64)
  | .recoveryVerify f _ b => f.wf && b.wf
  | .fuseSigner f => f.wf
  | .recoveryOpDone _ => true
  | .lingerExpiry d _ => decide (d < 41)
  | .domainCommit d => decide (d < 41)
  | .domainEntryComplete d => decide (d < 41)
  | .padReleaseDue d => decide (d < 41)
  | .domainOn d => decide (d < 41)
  | .islandsLowReported => true
  | .avsTransactionDone _ => true
  | .voltageGood => true
  | .avsRetryTick _ => true
  | .minuteBoundary _ => true
  | .mramSeqRetry _ => true
  | .tierOccupancySample => true
  | .usgAnchorWrite f _ => f.wf
  | .smbusReadByte cmd => decide (cmd < 256)
  | .smbusReadWord cmd => decide (cmd < 256)
  | .smbusBlockRead cmd => decide (cmd < 256)
  | .smbusWrite cmd => decide (cmd < 256)
  | .registerWrite f t => f.wf && t.wf
  | .linkPowerStateChange link _ => decide (link < 16)
  | .spdmUnsupportedRequest c _ => c.wf
  | .invalidInstruction f _ => f.wf
  | .pgAonAssert smbAddr => decide (smbAddr < 4)
  | .vddAonRemoved => true

end Sys2Proof
end

