-- ==== Sys2Proof/Certificates/Slice0/Obligations.lean ====
section
/-! DEFINITION. The statements about the model. A clause names the command, the conditions on the state and the operands, and the
state that `exec` answers; `OnlyIn` gives the frame. -/

open Sys2Proof Sys2Proof.Machine

/-- A step takes the command at the front of the queue and runs it with the rest of the queue; on an empty queue one housekeeping cycle
passes (the model's choice, log entry 3), and no table word spells a command. -/
def Obligations.StepRunsTheFrontCommand : Prop :=
  (∀ (c : Instr) (rest : List Instr) (s : State), step { s with pending := c :: rest } = exec c { s with pending := rest }) ∧
  (∀ s : State, s.pending = [] → step s = .next s.tick) ∧
  (∀ (s : State) (nbits w : Nat), decodeTableWord nbits w = none ∧ s.withFetchWord nbits w = s)

/-- What the rules give for the device held in reset (R48, R62, R129, R151, R276, R340, R345, R397, R451, R479, R511, R537, R559, R564):
every table at its reset value, DEV_RST# and ALERT# asserted, the mode Loading, and every byte memory in its canonical form. Where a
clause fixes what the spec leaves open it is the model's choice (log entries 42, 43). -/
def Obligations.ResetLeavesTheResetValues : Prop :=
  State.reset.pending = [] ∧ State.reset.out = [] ∧ State.reset.MemoryOk = true ∧
  State.reset.sys.aon = true ∧ State.reset.sys.devRst = true ∧ State.reset.sys.mode = .loading ∧ State.reset.sys.cause = 0 ∧
  State.reset.sys.alert = true ∧ State.reset.sys.now = 0 ∧ State.reset.boot.step = 0 ∧ State.reset.boot.copy = 0 ∧
  (∀ g, (State.reset.glove g).state = .free ∧ (State.reset.glove g).tdi = .unlocked ∧ (State.reset.glove g).rules = [] ∧
    (State.reset.glove g).epoch = 0) ∧
  (∀ b, (State.reset.slot b).valid = false ∧ (State.reset.slot b).key = 0) ∧
  State.reset.trust.drbgReady = false ∧ State.reset.trust.aliasKey = none ∧ State.reset.trust.usageKey = none ∧
  (∀ q, (State.reset.queue q).enable = false ∧ (State.reset.queue q).head = 0 ∧ (State.reset.queue q).tail = 0) ∧
  (∀ f, (State.reset.finger f).state = .stopped ∧ (State.reset.finger f).pc = 0) ∧
  (∀ f v, (State.reset.fn f).mse = false ∧ (State.reset.fn f).bme = false ∧ (State.reset.fn f).cause = 0 ∧
    ((State.reset.fn f).msix.get {} v).mask = true) ∧
  (∀ l, (State.reset.link l).up = false ∧ (State.reset.link l).ltssm = .detect ∧ (State.reset.link l).numVfs = 0) ∧
  (∀ l, (State.reset.blink l).state = .absent ∧ (State.reset.blink l).sharedFree = 200) ∧
  (∀ n, (State.reset.peer n).state = .absent) ∧ State.reset.net.window = 1000 ∧
  State.reset.boot.cfg.leak = 600 ∧ State.reset.boot.cfg.quiet = 10 ∧ State.reset.boot.cfg.retireThresh = 3 ∧
  (∀ i, (State.reset.source i).enabled = false ∧ (State.reset.source i).count = 0) ∧
  State.reset.flt.details = [] ∧ State.reset.flt.fltLog = [] ∧ State.reset.pwr.pace.point = 1 ∧ State.reset.usg.seq = 0

/-- Every step keeps the byte memories in canonical form: the flash, the recovery buffer and the channels' DRAM hold each written byte
once, in address order, and no byte equal to what an unlisted one reads as. -/
def Obligations.EveryStepKeepsTheMemoriesCanonical : Prop :=
  ∀ s t : State, s.MemoryOk = true → step s = .next t → t.MemoryOk = true

/-- No command stops the block: every command in every state answers a next state, and leaves the queue of waiting commands alone. -/
def Obligations.EveryCommandAnswersANextState : Prop :=
  ∀ (c : Instr) (s : State), ∃ t, exec c s = .next t ∧ t.pending = s.pending

/-- Every waiting command runs: as many steps as commands wait empty the queue, and none of them faults or refuses. -/
def Obligations.WaitingCommandsAllRun : Prop :=
  ∀ s : State, ∃ t, Runs s.pending.length s t ∧ t.pending = []

/-- Rollback floors (R550, R562): no step lowers a floor or changes a fused signer hash; a cold reset that ends in Service or Degraded
raises each floor to that of the copy in force where that is higher, and one that ends otherwise leaves both. -/
def Obligations.RollbackFloorsOnlyRise : Prop :=
  (∀ s t : State, step s = .next t →
    s.boot.mram.patternFloor ≤ t.boot.mram.patternFloor ∧ s.boot.mram.ucodeFloor ≤ t.boot.mram.ucodeFloor ∧
    (s.boot.signer.isSome = true → t.boot.signer = s.boot.signer)) ∧
  (∀ (b : Board) (s : State), s.sys.aon = true → s.sys.devRst = true →
    ∃ t, exec (.coldReset b) s = .next t ∧
      (if t.sys.mode = .service ∨ t.sys.mode = .degraded then
        t.boot.mram.patternFloor = max s.boot.mram.patternFloor t.boot.cfg.floor ∧
        t.boot.mram.ucodeFloor = max s.boot.mram.ucodeFloor (t.boot.cfg.ucode / 65536)
      else t.boot.mram.patternFloor = s.boot.mram.patternFloor ∧ t.boot.mram.ucodeFloor = s.boot.mram.ucodeFloor))

/-- R47: every admin command that names a glove outside the issuing link's range is refused with GLOVE_NOT_ASSIGNED, recorded in
FN_REJECT of the issuing function, and changes nothing else. -/
def Obligations.AdminCommandsOutsideTheRangeAreRefused : Prop :=
  ∀ (s : State) (o : Origin) (g : Nat), s.serves = true → s.fnExists o.q.fnId = true → s.linkHas o.q.link g = false →
    ∀ c : Instr,
      ((∃ tk td ql fl, c = .openGlove o g tk td ql fl) ∨ c = .closeGlove o g ∨
       (∃ h ro gr m a, c = .grantPages o g h ro gr m a) ∨ (∃ mode gr m a, c = .reclaimPages o g mode gr m a) ∨
       (∃ mask sh ql fl r, c = .setLimits o g mask sh ql fl r) ∨ (∃ sl im, c = .setPeerWindow o g sl im) ∨
       (∃ sl, c = .clearPeerWindow o g sl) ∨ (o.q.fn = 0 ∧ g ≠ 0xFFFF ∧ ∃ first buf len, c = .getUsage o g first buf len)) →
      ∃ t, exec c s = .next t ∧ (t.fn o.q.fnId).rejCode = 0x0108 ∧ (t.fn o.q.fnId).rejSpace = 3 ∧
        (∀ f, f.key ≠ o.q.fnId.key → t.fn f = s.fn f) ∧ (∀ f, t.finger f = s.finger f) ∧ Completes s t o 0x0108 0 ∧
        OnlyIn [.work, .host] s t

/-- R77: in KEY_PENDING pages of another device are refused with TDI_STATE and nothing changes, while pages of this device may be
granted. Where a clause fixes what the spec leaves open it is the model's choice (log entry 17). -/
def Obligations.PeerPagesInKeyPendingAreRefused : Prop :=
  ∀ (s : State) (o : Origin) (g : Nat), s.AdminRuns o g → (s.glove g).state = .keyPending →
    ∀ ro group m start, start % 0x200000 = 0 → 0 < m →
    (∀ home, home ≠ s.boot.cfg.pos → s.peerKnown home = true →
      ∃ t, exec (.grantPages o g home ro group m start) s = .next t ∧ (t.fn o.q.fnId).rejCode = 0x0104 ∧
        (∀ f, f.key ≠ o.q.fnId.key → t.fn f = s.fn f) ∧ (∀ f, t.finger f = s.finger f) ∧ Completes s t o 0x0104 0 ∧
        OnlyIn [.work, .host] s t) ∧
    (start + m * 0x200000 ≤ s.span o.q.link →
      (∀ i < m, (s.pte g (start / 0x200000 + i)).valid = false ∧ s.granting g (start / 0x200000 + i) = false) →
      s.grantsStopped = false → m ≤ s.freeCount →
      ∃ t, exec (.grantPages o g s.boot.cfg.pos ro group m start) s = .next t ∧ t.host = s.host ∧ t.glove g = s.glove g ∧
        ((∃ c ∈ t.pool.owning, c.owner = some g ∧ c.pages = s.takeFree s.pages 0 m) ∨
          Completes s t o 0 (s.takeFree s.pages 0 m).length))

/-- DOORBELL (R351, R352): an accepted doorbell moves TAIL and nothing else of the queue; a rejected one leaves TAIL, records the code
of the procedure in FN_REJECT with SPACE 1 and the offset of QUE_DOORBELL, and counts in QUE_STATUS.REJECTS. -/
def Obligations.DoorbellIsEvaluatedByTheProcedure : Prop :=
  ∀ (s : State) (q : QId) (v : BitVec 32), s.bar0On q.fnId = true →
    ((s.queue q).enable = true → (s.queue q).faulted = false → (v - (s.queue q).head).toNat ≤ 2 ^ (s.queue q).size →
      ((s.queue q).tail - (s.queue q).head).toNat ≤ (v - (s.queue q).head).toNat →
      ∃ t, exec (.doorbell q v) s = .next t ∧ t.queue q = { s.queue q with tail := v } ∧
        (∀ j, j.key ≠ q.key → t.queue j = s.queue j) ∧ (∀ f, t.finger f = s.finger f) ∧ OnlyIn [.work, .pwr, .evt] s t) ∧
    (∀ code,
      ((s.queue q).enable = false ∧ code = 0x0404 ∨
       (s.queue q).enable = true ∧ (s.queue q).faulted = true ∧ code = 0x0408 ∨
       (s.queue q).enable = true ∧ (s.queue q).faulted = false ∧ 2 ^ (s.queue q).size < (v - (s.queue q).head).toNat ∧ code = 0x0400 ∨
       (s.queue q).enable = true ∧ (s.queue q).faulted = false ∧ (v - (s.queue q).head).toNat ≤ 2 ^ (s.queue q).size ∧
         (v - (s.queue q).head).toNat < ((s.queue q).tail - (s.queue q).head).toNat ∧ code = 0x0409) →
      exec (.doorbell q v) s = .next
        ((s.modQueue q (fun x => { x with rejects := min 255 (x.rejects + 1) })).modFn q.fnId (fun x =>
          { x with rejCode := code, rejSpace := 1, rejOff := (queBase q + 0x18) % 2 ^ 32 })))

/-- Queue 0 is enabled and disabled by QUE_CONFIG, and an enabled one with entries left rejects the disabling write; work queues are
created and destroyed by the control queue (R365, R371, R383). A queue that comes into being starts with TAIL = FETCH = HEAD = 0, and
the admin queue's enabling starts the operator Fingers that are not halted (R388). -/
def Obligations.QueueConfigurationCommandsComplete : Prop :=
  (∀ (s : State) (f : FnId) (v : BitVec 32), s.bar0On f = true → bitAt v.toNat 31 = true →
    (s.queue ⟨f.link, f.fn, 0⟩).enable = false → f.fn ≠ 0 → 4 ≤ bits v.toNat 4 0 → bits v.toNat 4 0 ≤ 16 → bits v.toNat 26 16 ≤ 63 →
    ∃ t, exec (.queueEnable f v) s = .next t ∧
      t.queue ⟨f.link, f.fn, 0⟩ =
        { enable := true, ring := (s.queue ⟨f.link, f.fn, 0⟩).ring, headAddr := (s.queue ⟨f.link, f.fn, 0⟩).headAddr,
          rejects := (s.queue ⟨f.link, f.fn, 0⟩).rejects, vector := bits v.toNat 26 16, finger := bits v.toNat 15 12,
          headGlove := bitAt v.toNat 9, ringGlove := bitAt v.toNat 8, size := bits v.toNat 4 0 } ∧
      (∀ j, j.key ≠ QId.key ⟨f.link, f.fn, 0⟩ → t.queue j = s.queue j) ∧ OnlyIn [.work] s t) ∧
  (∀ (s : State) (l : Nat) (v : BitVec 32), s.bar0On ⟨l, 0⟩ = true → bitAt v.toNat 31 = true →
    (s.queue ⟨l, 0, 0⟩).enable = false → bitAt v.toNat 8 = false → bitAt v.toNat 9 = false → 4 ≤ bits v.toNat 4 0 → bits v.toNat 4 0 ≤ 16 →
    ∃ t, exec (.queueEnable ⟨l, 0⟩ v) s = .next t ∧ (t.queue ⟨l, 0, 0⟩).enable = true ∧ (t.queue ⟨l, 0, 0⟩).size = bits v.toNat 4 0 ∧
      (t.queue ⟨l, 0, 0⟩).tail = 0 ∧ (t.queue ⟨l, 0, 0⟩).fetch = 0 ∧ (t.queue ⟨l, 0, 0⟩).head = 0 ∧
      (∀ i < 16, (s.finger ⟨l, 0, i⟩).state ≠ .halted → (t.finger ⟨l, 0, i⟩).state = .running) ∧ OnlyIn [.work] s t) ∧
  (∀ (s : State) (f : FnId), s.bar0On f = true → (s.queue ⟨f.link, f.fn, 0⟩).enable = true →
    ((s.queue ⟨f.link, f.fn, 0⟩).head = (s.queue ⟨f.link, f.fn, 0⟩).tail ∨ (s.queue ⟨f.link, f.fn, 0⟩).faulted = true) →
    ∃ t, exec (.queueDisable f) s = .next t ∧ (t.queue ⟨f.link, f.fn, 0⟩).enable = false ∧
      (∀ j, j.key ≠ QId.key ⟨f.link, f.fn, 0⟩ → t.queue j = s.queue j) ∧ OnlyIn [.work, .net] s t) ∧
  (∀ (s : State) (f : FnId), s.bar0On f = true → (s.queue ⟨f.link, f.fn, 0⟩).enable = true →
    (s.queue ⟨f.link, f.fn, 0⟩).head ≠ (s.queue ⟨f.link, f.fn, 0⟩).tail → (s.queue ⟨f.link, f.fn, 0⟩).faulted = false →
    ∃ t, exec (.queueDisable f) s = .next t ∧ t.work = s.work ∧ (t.fn f).rejCode = 0x0401 ∧ (t.fn f).rejSpace = 1 ∧
      OnlyIn [.host] s t) ∧
  (∀ (s : State) (o : Origin) (num size finger vector ring head : Nat) (rg hg : Bool),
    s.serves = true → s.sys.mode ≠ .drain → s.fnExists o.q.fnId = true → o.q.fn ≠ 0 →
    (s.glove (s.gloveOf o.q.fnId)).state = .opened → ring % 4096 = 0 → head % 4 = 0 →
    1 ≤ num → num ≤ (s.glove (s.gloveOf o.q.fnId)).queueLimit → num ≤ 64 → 4 ≤ size → size ≤ 16 →
    finger < (s.glove (s.gloveOf o.q.fnId)).fingerLimit → vector ≤ 63 →
    (s.queue ⟨o.q.link, o.q.fn, num⟩).enable = false → s.workQueues (linkQuad o.q.link) < 4096 →
    QId.key o.q ≠ QId.key ⟨o.q.link, o.q.fn, num⟩ →
    ∃ t, exec (.createQueue o num size rg hg finger vector ring head) s = .next t ∧
      t.queue ⟨o.q.link, o.q.fn, num⟩ =
        { enable := true, ring := ring, headAddr := head, vector := vector, finger := finger, headGlove := hg, ringGlove := rg,
          size := size, rejects := (s.queue ⟨o.q.link, o.q.fn, num⟩).rejects } ∧
      (∀ f, t.finger f = s.finger f) ∧ OnlyIn [.work] s t) ∧
  (∀ (s : State) (o : Origin) (num : Nat),
    s.serves = true → s.fnExists o.q.fnId = true → o.q.fn ≠ 0 → (s.glove (s.gloveOf o.q.fnId)).state = .opened →
    1 ≤ num → num ≤ 64 → (s.queue ⟨o.q.link, o.q.fn, num⟩).enable = true →
    ((s.queue ⟨o.q.link, o.q.fn, num⟩).head = (s.queue ⟨o.q.link, o.q.fn, num⟩).tail ∨ (s.queue ⟨o.q.link, o.q.fn, num⟩).faulted = true) →
    QId.key o.q ≠ QId.key ⟨o.q.link, o.q.fn, num⟩ →
    ∃ t, exec (.destroyQueue o num) s = .next t ∧ t.queue ⟨o.q.link, o.q.fn, num⟩ = {} ∧
      (∀ r ∈ t.net.outst, r.ctx.queue ≠ some ⟨o.q.link, o.q.fn, num⟩) ∧
      (∀ f, t.finger f = s.finger f) ∧ OnlyIn [.work, .net] s t)

/-- Fetching, dispatching and completing queue entries (R353, R355, R358-R361): a fetch, a result write and a head write go out as the
access `issue` sends, in host space or glove space, and for a ring and head location in host space the packet is written out; an entry
that decodes is dispatched, one that does not completes with its code; HEAD advances over the acknowledged entries at the front; an
acknowledged head write requests the completion vectors it covers, and a HEAD that has moved on is written at once. -/
def Obligations.QueueServiceCommandsComplete : Prop :=
  (∀ (s : State) (q : QId) (n : Nat) (first : BitVec 32), s.qRuns q = true → (s.queue q).ringGlove = false →
    first = (s.queue q).fetch + BitVec.ofNat 32 ((s.queue q).fetching.map Prod.snd).sum →
    n = min (min 8 ((s.queue q).tail - first).toNat) (min (fetchLimit q - (first - (s.queue q).head).toNat)
      (min (64 - first.toNat % 2 ^ (s.queue q).size % 64) (2 ^ (s.queue q).size - first.toNat % 2 ^ (s.queue q).size))) → n ≠ 0 →
    ∃ t, exec (.entryFetch q) s = .next t ∧
      t.queue q = { s.queue q with fetching := (s.queue q).fetching ++ [(first.toNat, n)] } ∧
      Issues s t (.qFetch q first.toNat n) (fun p => p.op = .memRd ∧ p.world = 2 ∧ p.hostSpace = true ∧
        p.addr = (s.queue q).ring + 64 * (first.toNat % 2 ^ (s.queue q).size) ∧ p.len = 64 * n) ∧
      (∀ j, j.key ≠ q.key → t.queue j = s.queue j) ∧ OnlyIn [.work, .net] s t) ∧
  (∀ (s : State) (q : QId) (e : Entry) (c : Instr), s.qRuns q = true → s.nextStart q [] (s.queue q).entries = some e →
    decodeEntry ⟨q, e.idx⟩ ((s.qGlove q).getD 0) (s.queue q).finger e.bytes = .inr c →
    ∃ t, exec (.entryDispatch q) s = .next t ∧ t.work.crownWork = s.work.crownWork ++ [c] ∧
      t.queue q = { s.queue q with entries := (s.queue q).entries.map (fun d => if d.idx == e.idx then { d with started := true } else d) } ∧
      (∀ j, j.key ≠ q.key → t.queue j = s.queue j) ∧ (∀ f, t.finger f = s.finger f) ∧ OnlyIn [.work] s t) ∧
  (∀ (s : State) (q : QId) (e : Entry) (code : Nat), s.qRuns q = true → s.nextStart q [] (s.queue q).entries = some e →
    decodeEntry ⟨q, e.idx⟩ ((s.qGlove q).getD 0) (s.queue q).finger e.bytes = .inl code →
    ∃ t, exec (.entryDispatch q) s = .next t ∧ t.work.crownWork = s.work.crownWork ∧
      (t.fn q.fnId).rejCode = code ∧ (t.fn q.fnId).rejSpace = 3 ∧ (t.fn q.fnId).rejOff = (q.q * 65536 + e.idx % 65536) % 2 ^ 32 ∧
      (∀ j, j.key ≠ q.key → t.queue j = s.queue j) ∧ OnlyIn [.work, .host] s t) ∧
  (∀ (s : State) (q : QId) (e : Entry) (code result : Nat), s.qRuns q = true → (s.queue q).ringGlove = false →
    (s.queue q).entries.find? (fun e => e.wr == 0) = some e → e.done = some (code, result) →
    ∃ t, exec (.resultWrite q) s = .next t ∧
      t.queue q = { s.queue q with entries := (s.queue q).entries.map (fun d => if d.idx == e.idx then { d with wr := 1 } else d) } ∧
      Issues s t (.qResult q e.idx) (fun p => p.op = .memWr ∧ p.world = 2 ∧ p.ackReq = true ∧
        p.addr = (s.queue q).ring + 64 * (e.idx % 2 ^ (s.queue q).size) + 56 ∧ p.len = 8) ∧
      OnlyIn [.work, .net, .usg] s t) ∧
  (∀ (s : State) (q : QId), s.qRuns q = true → (s.queue q).headGlove = false → (s.queue q).headWr = none →
    ackedPrefix (s.queue q).entries ≠ [] →
    ∃ t, exec (.resultWriteAcked q) s = .next t ∧
      (t.queue q).head = (s.queue q).head + BitVec.ofNat 32 (ackedPrefix (s.queue q).entries).length ∧
      (t.queue q).entries = (s.queue q).entries.drop (ackedPrefix (s.queue q).entries).length ∧
      (t.queue q).headWr = some ((t.queue q).head, false) ∧
      Issues s t (.qHead q (t.queue q).head) (fun p => p.op = .memWr ∧ p.world = 2 ∧ p.ackReq = true ∧ p.addr = (s.queue q).headAddr ∧
        p.len = 4) ∧ (∀ j, j.key ≠ q.key → t.queue j = s.queue j) ∧ OnlyIn [.work, .net] s t) ∧
  (∀ (s : State) (q : QId) (v : BitVec 32), s.serves = true → (s.queue q).headWr = some (v, true) → (s.queue q).head = v →
    ∃ t, exec (.headWriteAcked q) s = .next t ∧ t.queue q = { s.queue q with headWr := none, iocs := 0 } ∧
      t.net.events = s.net.events ++ (if (s.queue q).vector = 0 then [] else List.replicate (s.queue q).iocs (q.fnId, (s.queue q).vector)) ∧
      (∀ j, j.key ≠ q.key → t.queue j = s.queue j) ∧ OnlyIn [.work, .net] s t) ∧
  (∀ (s u : State) (q : QId) (n sp : Nat) (l : Option Nat) (first : BitVec 32), s.qRuns q = true →
    first = (s.queue q).fetch + BitVec.ofNat 32 ((s.queue q).fetching.map Prod.snd).sum →
    n = min (min 8 ((s.queue q).tail - first).toNat) (min (fetchLimit q - (first - (s.queue q).head).toNat)
      (min (64 - first.toNat % 2 ^ (s.queue q).size % 64) (2 ^ (s.queue q).size - first.toNat % 2 ^ (s.queue q).size))) → n ≠ 0 →
    s.issue (s.qAccess q (s.queue q).ringGlove .memRd ((s.queue q).ring + 64 * (first.toNat % 2 ^ (s.queue q).size)) (64 * n) [])
      (fun _ => .qFetch q first.toNat n) = .sent u sp l →
    exec (.entryFetch q) s = .next (u.modQueue q (fun x => { x with fetching := x.fetching ++ [(first.toNat, n)] }))) ∧
  (∀ (s u : State) (q : QId) (e : Entry) (code result sp : Nat) (l : Option Nat), s.qRuns q = true →
    (s.queue q).entries.find? (fun e => e.wr == 0) = some e → e.done = some (code, result) →
    s.issue (s.qAccess q (s.queue q).ringGlove .memWr ((s.queue q).ring + 64 * (e.idx % 2 ^ (s.queue q).size) + 56) 8
      (leBytes 8 (code % 65536 + result * 65536))) (fun _ => .qResult q e.idx) = .sent u sp l →
    exec (.resultWrite q) s = .next ((u.modQueue q (fun x =>
      { x with entries := x.entries.map (fun d => if d.idx == e.idx then { d with wr := 1 } else d) })).countEntry q e code result)) ∧
  (∀ (s : State) (q : QId), s.qRuns q = true → ackedPrefix (s.queue q).entries ≠ [] →
    exec (.resultWriteAcked q) s = .next ((s.modQueue q (fun x =>
      { x with entries := x.entries.drop (ackedPrefix x.entries).length,
               head := x.head + BitVec.ofNat 32 (ackedPrefix x.entries).length
               iocsNext := x.iocsNext + ((ackedPrefix x.entries).filter (fun e => bitAt (field e.bytes 1 1) 0)).length })).headWrite q)) ∧
  (∀ (s : State) (q : QId) (v : BitVec 32), s.serves = true → (s.queue q).headWr = some (v, true) → (s.queue q).head ≠ v →
    s.qRuns q = true → (s.queue q).vector = 0 →
    exec (.headWriteAcked q) s = .next ((s.modQueue q (fun x => { x with headWr := none, iocs := 0 })).headWrite q))

/-- The control commands of rules (R204, R213, R222, R384, R385): SET_RULES reads its array, in host space or glove space and in two
reads where it crosses a 4 KiB block, or begins the epoch change that installs an empty set; GET_RULE_FAULT writes the violation record
to host memory; CLEAR_RULE_FAULT clears the latch. Where a clause fixes what the spec leaves open it is the model's choice (log entry
25). -/
def Obligations.RuleCommandsComplete : Prop :=
  ∀ (s : State) (o : Origin), s.ControlRuns o →
    (∀ gs addr, addr % 16 = 0 → s.changeWaits (.setRules o 0 gs addr) (s.gloveOf o.q.fnId) = false →
      ∃ t, exec (.setRules o 0 gs addr) s = .next t ∧
        t.glove (s.gloveOf o.q.fnId) =
          { s.glove (s.gloveOf o.q.fnId) with updating := true, change := some { origin := o, change := .rules [] } } ∧
        (∀ j, j ≠ s.gloveOf o.q.fnId → t.glove j = s.glove j) ∧ (∀ q, t.queue q = s.queue q) ∧ OnlyIn [.trust, .work] s t) ∧
    (∀ n addr, addr % 16 = 0 → 0 < n → 16 * n ≤ 4096 - addr % 4096 →
      s.changeWaits (.setRules o n false addr) (s.gloveOf o.q.fnId) = false →
      ∃ t, exec (.setRules o n false addr) s = .next t ∧
        Issues s t (.crownRules o (s.gloveOf o.q.fnId) n) (fun p => p.op = .memRd ∧ p.world = 2 ∧ p.hostSpace = true ∧ p.addr = addr ∧
          p.len = 16 * n) ∧
        (∀ j, t.glove j = s.glove j) ∧ (∀ q, t.queue q = s.queue q) ∧ OnlyIn [.work, .net] s t) ∧
    (∀ buf, buf % 32 = 0 →
      ∃ t, exec (.getRuleFault o buf) s = .next t ∧
        Issues s t (.crownWrite o 0 0) (fun p => p.op = .memWr ∧ p.hostSpace = true ∧ p.addr = buf ∧ p.len = 32 ∧
          p.data = packLines buf (s.winBytes (s.gloveOf o.q.fnId))) ∧
        (∀ q, t.queue q = s.queue q) ∧ OnlyIn [.work, .net] s t) ∧
    (∃ t, exec (.clearRuleFault o) s = .next t ∧
      t.glove (s.gloveOf o.q.fnId) = { s.glove (s.gloveOf o.q.fnId) with latch := {} } ∧
      (∀ j, j ≠ s.gloveOf o.q.fnId → t.glove j = s.glove j) ∧ Completes s t o 0 0 ∧ OnlyIn [.trust, .work] s t) ∧
    (∀ n gs addr, addr % 16 = 0 → 0 < n → s.changeWaits (.setRules o n gs addr) (s.gloveOf o.q.fnId) = false →
      s.rulesWait o (s.gloveOf o.q.fnId) n gs addr = none →
      exec (.setRules o n gs addr) s = .next ((s.undispatch (.setRules o n gs addr)).readRules o (s.gloveOf o.q.fnId) n gs addr))

/-- START_FINGER and STOP_FINGER (R386-R388, R424, R430, R432), on a control queue and on the admin queue: a stopped Finger runs with a
full bucket, and any Finger that does not run starts as `fgStart` gives it; a stopped, idle or halted Finger is stopped at once, the
entry of a halted one ends with the latched code, and a running one stops at its next boundary. Token buckets and the event register
(R418, R424): a refill adds half of SHARE times the measured pace, up to the burst; event bits are set and cleared as written. -/
def Obligations.FingerControlTokensAndEventsComplete : Prop :=
  (∀ (s : State) (o : Origin) (f : Nat), s.ControlRuns o → f < (s.glove (s.gloveOf o.q.fnId)).fingerLimit →
    (∀ resume bulk share burst, (s.finger ⟨o.q.link, o.q.fn, f⟩).state = .stopped → (s.finger ⟨o.q.link, o.q.fn, f⟩).engine ≠ none →
      burst % 64 = 0 → 0 < burst → burst ≤ 2 ^ 20 → 0 < share → share ≤ (s.glove (s.gloveOf o.q.fnId)).rate →
      ((s.glove (s.gloveOf o.q.fnId)).tdisp = true → (s.glove (s.gloveOf o.q.fnId)).tdi = .run) →
      ∃ t, exec (.startFinger o f resume bulk share burst) s = .next t ∧
        t.finger ⟨o.q.link, o.q.fn, f⟩ = { s.finger ⟨o.q.link, o.q.fn, f⟩ with
          state := .running, share := share, burst := burst, bulk := bulk, tokens := burst, stop := none, stopCode := none,
          halt := none, ibuf := [] } ∧
        (∀ j, j.key ≠ FgId.key ⟨o.q.link, o.q.fn, f⟩ → t.finger j = s.finger j) ∧ Completes s t o 0 0 ∧ OnlyIn [.work] s t) ∧
    ((s.finger ⟨o.q.link, o.q.fn, f⟩).state = .stopped → (s.finger ⟨o.q.link, o.q.fn, f⟩).stop = none →
      ∃ t, exec (.stopFinger o f) s = .next t ∧ (∀ j, t.finger j = s.finger j) ∧ Completes s t o 0 0 ∧ OnlyIn [.work] s t) ∧
    ((s.finger ⟨o.q.link, o.q.fn, f⟩).state = .running → (s.finger ⟨o.q.link, o.q.fn, f⟩).stop = none →
      (s.finger ⟨o.q.link, o.q.fn, f⟩).halt = none → s.fgAtBoundary ⟨o.q.link, o.q.fn, f⟩ = true →
      (s.finger ⟨o.q.link, o.q.fn, f⟩).entry = none →
      ∃ t, exec (.stopFinger o f) s = .next t ∧ (t.finger ⟨o.q.link, o.q.fn, f⟩).state = .stopped ∧
        (∀ j, j.key ≠ FgId.key ⟨o.q.link, o.q.fn, f⟩ → t.finger j = s.finger j) ∧ Completes s t o 0 0 ∧ OnlyIn [.work] s t) ∧
    (∀ e, (s.finger ⟨o.q.link, o.q.fn, f⟩).state = .halted → (s.finger ⟨o.q.link, o.q.fn, f⟩).stop = none →
      (s.finger ⟨o.q.link, o.q.fn, f⟩).entry = some e → e.q.key ≠ o.q.key →
      ∃ t, exec (.stopFinger o f) s = .next t ∧ (t.finger ⟨o.q.link, o.q.fn, f⟩).state = .stopped ∧
        (t.finger ⟨o.q.link, o.q.fn, f⟩).entry = none ∧
        t.queue e.q = (s.complete e (s.finger ⟨o.q.link, o.q.fn, f⟩).haltCode (s.finger ⟨o.q.link, o.q.fn, f⟩).haltResult).queue e.q ∧
        t.queue o.q = (s.complete o 0 0).queue o.q ∧ OnlyIn [.work, .host, .net] s t)) ∧
  (∀ (s : State) (o : Origin) (f : Nat) (resume bulk : Bool) (share burst : Nat), s.serves = true → s.fnExists o.q.fnId = true →
    (o.q.fn = 0 ∨ s.blankGlove (s.gloveOf o.q.fnId) = false) → burst % 64 = 0 → 0 < burst → burst ≤ 2 ^ 20 →
    f < (s.fgLimits o.q).1 → 0 < share → share ≤ (s.fgLimits o.q).2 → s.fgBarred o.q = false →
    (s.finger ⟨o.q.link, o.q.fn, f⟩).state ≠ .running →
    ((s.finger ⟨o.q.link, o.q.fn, f⟩).engine ≠ none ∨ s.noPlace ⟨o.q.link, o.q.fn, f⟩ = false) →
    exec (.startFinger o f resume bulk share burst) s = .next
      (((s.undispatch (.startFinger o f resume bulk share burst)).fgStart ⟨o.q.link, o.q.fn, f⟩ resume bulk share burst).complete o 0 0)) ∧
  (∀ (s : State) (o : Origin) (f : Nat), s.serves = true → s.fnExists o.q.fnId = true →
    (o.q.fn = 0 ∨ s.blankGlove (s.gloveOf o.q.fnId) = false) → f < (s.fgLimits o.q).1 →
    (s.finger ⟨o.q.link, o.q.fn, f⟩).stop = none → (s.finger ⟨o.q.link, o.q.fn, f⟩).state = .running →
    exec (.stopFinger o f) s = .next
      (((s.undispatch (.stopFinger o f)).modFinger ⟨o.q.link, o.q.fn, f⟩ (fun x => { x with stop := some (some o) })).fgBoundary
        ⟨o.q.link, o.q.fn, f⟩)) ∧
  (∀ (s : State) (f : FgId), ∃ t, exec (.tokenRefill f) s = .next t ∧
    t.finger f = { s.finger f with
      tokens := min (s.finger f).burst ((s.finger f).tokens + s.fgShare f * (s.quad (linkQuad f.link)).cur / 2) } ∧
    (∀ j, j.key ≠ f.key → t.finger j = s.finger j) ∧ (∀ q, t.queue q = s.queue q) ∧ OnlyIn [.work] s t) ∧
  (∀ (s : State) (f : FnId) (b : BitVec 32), s.bar0On f = true → (s.fn f).waiters = [] →
    ∃ t, exec (.fngEventsSet f b) s = .next t ∧ t.fn f = { s.fn f with events := (s.fn f).events ||| b } ∧
      (∀ j, j.key ≠ f.key → t.fn j = s.fn j) ∧ OnlyIn [.host] s t) ∧
  (∀ (s : State) (f : FnId) (b : BitVec 32), s.bar0On f = true →
    ∃ t, exec (.fngEventClr f b) s = .next t ∧ t.fn f = { s.fn f with events := (s.fn f).events &&& ~~~b } ∧
      (∀ j, j.key ≠ f.key → t.fn j = s.fn j) ∧ OnlyIn [.host] s t) ∧
  (∀ (s : State) (f : FnId) (b : BitVec 32) (i : Nat) (w : Waiting), s.bar0On f = true → (s.fn f).waiters = [i] →
    (s.finger ⟨f.link, f.fn, i⟩).waiting = some w → w.kind = 2 → ((s.fn f).events ||| b) &&& w.mask.setWidth 32 ≠ 0 →
    (s.finger ⟨f.link, f.fn, i⟩).state = .running → (s.finger ⟨f.link, f.fn, i⟩).halt = none →
    (s.finger ⟨f.link, f.fn, i⟩).stop = none → (s.finger ⟨f.link, f.fn, i⟩).stopCode = none →
    ∃ t, exec (.fngEventsSet f b) s = .next t ∧ (t.fn f).events = ((s.fn f).events ||| b) &&& ~~~(w.mask.setWidth 32) ∧
      (t.fn f).waiters = [] ∧ (t.finger ⟨f.link, f.fn, i⟩).waiting = none ∧
      (t.finger ⟨f.link, f.fn, i⟩).pc = ((s.finger ⟨f.link, f.fn, i⟩).pc + 32) % 2 ^ 64 ∧
      (∀ j, j.key ≠ FgId.key ⟨f.link, f.fn, i⟩ → t.finger j = s.finger j) ∧ OnlyIn [.work, .host] s t)

/-- The four work entries (R389, R390, R399, R423): a Finger that can take an entry holds it and begins it; a FLUSH sends a zero-length
read on every link its queue's earlier entries wrote to, and completes at once where there is none. -/
def Obligations.WorkEntriesBegin : Prop :=
  ∀ (s : State) (f : FgId) (o : Origin) (target : Nat), s.serves = true → (f.fn ≠ 0 ∨ s.linkHas f.link target = true) →
    (∀ gs addr a0 a1 a2 a3, (s.undispatch (.runProgram f o target gs addr a0 a1 a2 a3)).fgFree f = true → addr % 32 = 0 →
      ∃ t, exec (.runProgram f o target gs addr a0 a1 a2 a3) s = .next t ∧
        t.finger f = { (s.finger f).idle with
          entry := some o, opcode := 0x20, target := target, lastQueue := (s.finger f).lastQueue, program := true, pc := addr,
          pcGlove := gs, a0 := BitVec.ofNat 64 a0, a1 := BitVec.ofNat 64 a1, a2 := BitVec.ofNat 64 a2, a3 := BitVec.ofNat 64 a3,
          l0 := 0, l1 := 0 } ∧
        (∀ j, j.key ≠ f.key → t.finger j = s.finger j) ∧ (∀ q, t.queue q = s.queue q) ∧ OnlyIn [.work] s t) ∧
    (∀ sg dg src dst len, (s.undispatch (.copy f o target sg dg src dst len)).fgFree f = true → len ≠ 0 →
      (sg = true ∨ src + len ≤ 2 ^ 64) → (dg = true ∨ dst + len ≤ 2 ^ 64) →
      ∃ t, exec (.copy f o target sg dg src dst len) s = .next t ∧
        t.finger f = { (s.finger f).idle with
          entry := some o, opcode := 0x21, target := target, lastQueue := (s.finger f).lastQueue,
          transfer := some { src := src, dst := dst, len := len, srcGlove := sg, dstGlove := dg, pattern := none } } ∧
        (∀ j, j.key ≠ f.key → t.finger j = s.finger j) ∧ (∀ q, t.queue q = s.queue q) ∧ OnlyIn [.work] s t) ∧
    (∀ dg dst len p, (s.undispatch (.fill f o target dg dst len p)).fgFree f = true → len ≠ 0 → len < 2 ^ 32 →
      (dg = true ∨ dst + len ≤ 2 ^ 64) →
      ∃ t, exec (.fill f o target dg dst len p) s = .next t ∧
        t.finger f = { (s.finger f).idle with
          entry := some o, opcode := 0x22, target := target, lastQueue := (s.finger f).lastQueue,
          transfer := some { src := 0, dst := dst, len := len, srcGlove := false, dstGlove := dg, pattern := some p } } ∧
        (∀ j, j.key ≠ f.key → t.finger j = s.finger j) ∧ (∀ q, t.queue q = s.queue q) ∧ OnlyIn [.work] s t) ∧
    ((s.undispatch (.flush f o)).fgFree f = true → (s.queue o.q).wroteLinks = [] →
      ∃ t, exec (.flush f o) s = .next t ∧ (t.finger f).entry = none ∧ (t.finger f).state = .running ∧ Completes s t o 0 0 ∧
        (∀ j, j.key ≠ f.key → t.finger j = s.finger j) ∧ OnlyIn [.work, .host, .net] s t) ∧
    (∀ k, (s.undispatch (.flush f o)).fgFree f = true → (s.queue o.q).wroteLinks = [k] →
      ∃ t, exec (.flush f o) s = .next t ∧ (t.finger f).entry = some o ∧
        Issues s t (.fgZl f (k / 256)) (fun p => p.op = .zlRd ∧ p.link = k / 256 ∧ p.fn = k % 256 ∧ p.hostSpace = true) ∧
        (∀ j, j.key ≠ f.key → t.finger j = s.finger j) ∧ (∀ q, t.queue q = s.queue q) ∧ OnlyIn [.work, .net] s t) ∧
    ((s.undispatch (.flush f o)).fgFree f = true → (s.queue o.q).wroteLinks ≠ [] →
      exec (.flush f o) s = .next (State.sendZl
        ((s.undispatch (.flush f o)).modFinger f (fun x =>
          { x.idle with
            entry := some o, opcode := 0x23, target := x.target, lastQueue := x.lastQueue
            signalling := some { word := 0, step := 2, zl := (s.queue o.q).wroteLinks.map (· / 256), flush := true } }))
        f (s.queue o.q).wroteLinks))

/-- The register instructions of a program (R401, R405-R407): each acts on its own Finger alone, and all but a taken LOOP and END move
PC on by 32. -/
def Obligations.ProgramRegisterInstructionsComplete : Prop :=
  ∀ (s : State) (f : FgId) (w : BitVec 256), s.fgAtInstr f = true → (s.finger f).instr = some w →
    (∀ r v, w.toNat % 256 = 0x05 → decodeFg (f.fn == 0) w = some (.seta r v) →
      ∃ t, exec (.seta f w) s = .next t ∧
        t.finger f = { ({ s.finger f with opcode := 0x05, word := w } : Finger).setReg r v with pc := ((s.finger f).pc + 32) % 2 ^ 64 } ∧
        (∀ j, j.key ≠ f.key → t.finger j = s.finger j) ∧ (∀ q, t.queue q = s.queue q) ∧ OnlyIn [.work] s t) ∧
    (∀ r v, w.toNat % 256 = 0x06 → decodeFg (f.fn == 0) w = some (.adda r v) →
      ∃ t, exec (.adda f w) s = .next t ∧
        t.finger f = { ({ s.finger f with opcode := 0x06, word := w } : Finger).setReg r ((s.finger f).reg r + v) with
          pc := ((s.finger f).pc + 32) % 2 ^ 64 } ∧
        (∀ j, j.key ≠ f.key → t.finger j = s.finger j) ∧ (∀ q, t.queue q = s.queue q) ∧ OnlyIn [.work] s t) ∧
    (∀ c d, w.toNat % 256 = 0x02 → decodeFg (f.fn == 0) w = some (.loop c d) → (if c = 0 then (s.finger f).l0 else (s.finger f).l1) = 0 →
      ∃ t, exec (.loop f w) s = .next t ∧
        t.finger f = { s.finger f with opcode := 0x02, word := w, pc := ((s.finger f).pc + 32) % 2 ^ 64 } ∧
        (∀ j, j.key ≠ f.key → t.finger j = s.finger j) ∧ (∀ q, t.queue q = s.queue q) ∧ OnlyIn [.work] s t) ∧
    (∀ d, w.toNat % 256 = 0x02 → decodeFg (f.fn == 0) w = some (.loop 0 d) → (s.finger f).l0 ≠ 0 →
      ∃ t, exec (.loop f w) s = .next t ∧
        t.finger f = { s.finger f with
          opcode := 0x02, word := w, l0 := (s.finger f).l0 - 1, pc := ((((s.finger f).pc : Int) + 32 * d) % (2 ^ 64 : Int)).toNat } ∧
        (∀ j, j.key ≠ f.key → t.finger j = s.finger j) ∧ (∀ q, t.queue q = s.queue q) ∧ OnlyIn [.work] s t) ∧
    (∀ c d, w.toNat % 256 = 0x02 → decodeFg (f.fn == 0) w = some (.loop c d) → c ≠ 0 → (s.finger f).l1 ≠ 0 →
      ∃ t, exec (.loop f w) s = .next t ∧
        t.finger f = { s.finger f with
          opcode := 0x02, word := w, l1 := (s.finger f).l1 - 1, pc := ((((s.finger f).pc : Int) + 32 * d) % (2 ^ 64 : Int)).toNat } ∧
        (∀ j, j.key ≠ f.key → t.finger j = s.finger j) ∧ (∀ q, t.queue q = s.queue q) ∧ OnlyIn [.work] s t) ∧
    (∀ o imm, w.toNat % 256 = 0x0F → decodeFg (f.fn == 0) w = some (.fin none imm) → (s.finger f).entry = some o →
      ∃ t, exec (.endInstr f w) s = .next t ∧ (t.finger f).entry = none ∧ (t.finger f).program = false ∧ (t.finger f).ibuf = [] ∧
        (t.finger f).state = .running ∧ Completes s t o 0 imm ∧ (∀ j, j.key ≠ f.key → t.finger j = s.finger j) ∧
        OnlyIn [.work, .host, .net] s t) ∧
    (∀ o r, w.toNat % 256 = 0x0F → decodeFg (f.fn == 0) w = some (.fin (some r) 0) → (s.finger f).entry = some o →
      ∃ t, exec (.endInstr f w) s = .next t ∧ (t.finger f).entry = none ∧ Completes s t o 0 (((s.finger f).a r).toNat % 2 ^ 48) ∧
        (∀ j, j.key ≠ f.key → t.finger j = s.finger j) ∧ OnlyIn [.work, .host, .net] s t)

/-- A MOVE begins its transfer and an undecodable word halts with INVALID_INSTRUCTION (R402, R408). A program fetches the line at PC,
from host space or glove space, and an engine issues for the first ready context after the one it served last (R393, R400, R410, R425):
for one context with a transfer in host space and no write due, the read of its next piece. Where a clause fixes what the spec leaves
open it is the model's choice (log entries 64, 83). -/
def Obligations.ProgramTransfersAndFetchesComplete : Prop :=
  (∀ (s : State) (f : FgId) (w : BitVec 256) (sr dr : Nat) (sg dg si di : Bool) (len : Nat) (so d : BitVec 64),
    s.fgAtInstr f = true → (s.finger f).instr = some w → w.toNat % 256 = 0x01 →
    decodeFg (f.fn == 0) w = some (.move sr dr sg dg si di len so d) →
    (sg = true ∨ ((s.finger f).a sr + so).toNat + len ≤ 2 ^ 64) → (dg = true ∨ ((s.finger f).a dr + d).toNat + len ≤ 2 ^ 64) →
    ∃ t, exec (.move f w) s = .next t ∧
      t.finger f = { s.finger f with
        opcode := 0x01, word := w
        transfer := some { src := ((s.finger f).a sr + so).toNat, dst := ((s.finger f).a dr + d).toNat, len := len, srcGlove := sg,
                           dstGlove := dg, pattern := none, program := true, srcInc := if si then some sr else none,
                           dstInc := if di then some dr else none } } ∧
      (∀ j, j.key ≠ f.key → t.finger j = s.finger j) ∧ (∀ q, t.queue q = s.queue q) ∧ OnlyIn [.work] s t) ∧
  (∀ (s : State) (f : FgId) (w : BitVec 256), s.fgAtInstr f = true → (s.finger f).instr = some w → decodeFg (f.fn == 0) w = none →
    s.fgOut f = [] →
    ∃ t, exec (.invalidInstruction f w) s = .next t ∧ (t.finger f).state = .halted ∧ (t.finger f).haltCode = 0x0500 ∧
      (t.finger f).pc = (s.finger f).pc ∧ (t.finger f).entry = (s.finger f).entry ∧
      (∀ j, j.key ≠ f.key → t.finger j = s.finger j) ∧ (∀ q, t.queue q = s.queue q) ∧ OnlyIn [.work, .host, .net] s t) ∧
  (∀ (s : State) (f : FgId), s.fgAtInstr f = true → (s.finger f).instr = none → 64 ≤ (s.finger f).tokens → s.fgRoom f = true →
    s.fgReadRoom f 64 = true → (s.finger f).pcGlove = false →
    ∃ t, exec (.programLineFetch f) s = .next t ∧
      Issues s t (.fgFetch f ((s.finger f).pc / 64 * 64) 0) (fun p => p.op = .memRd ∧ p.hostSpace = true ∧
        p.addr = (s.finger f).pc / 64 * 64 ∧ p.len = 64) ∧
      t.finger f = { s.finger f with tokens := (s.finger f).tokens - 64, fetching := true } ∧
      (∀ j, j.key ≠ f.key → t.finger j = s.finger j) ∧ (∀ q, t.queue q = s.queue q) ∧ OnlyIn [.work, .net] s t) ∧
  (∀ (s : State) (e : Nat) (f : FgId) (tr : Transfer), f.fn < 256 → f.f < 16 →
    ((s.work.fingers.filter (fun x => x.2.engine == some (engineUnit e))).map Prod.fst).filter (fun k => s.fgReady (fgOfKey k)) = [f.key] →
    (s.finger f).transfer = some tr → tr.turn = none → tr.pattern = none → tr.srcGlove = false →
    ∃ t, exec (.fingerIssue e) s = .next t ∧ t.work.rr.get 0 (engineUnit e) = f.key ∧
      Issues s t (.fgRead f (tr.piece (s.finger f).burst).1 (tr.piece (s.finger f).burst).2 (tr.src + (tr.piece (s.finger f).burst).1) 0)
        (fun p => p.op = .memRd ∧ p.hostSpace = true ∧ p.addr = tr.src + (tr.piece (s.finger f).burst).1 ∧
          p.len = (tr.piece (s.finger f).burst).2) ∧
      t.finger f = { s.finger f with
        tokens := (s.finger f).tokens - round64 (tr.piece (s.finger f).burst).2
        transfer := some { tr with issued := tr.issued + (tr.piece (s.finger f).burst).2 } } ∧
      (∀ j, j.key ≠ f.key → t.finger j = s.finger j) ∧ (∀ q, t.queue q = s.queue q) ∧ OnlyIn [.work, .net] s t) ∧
  (∀ (s u : State) (f : FgId) (sp : Nat) (l : Option Nat), s.fgAtInstr f = true → (s.finger f).instr = none →
    64 ≤ (s.finger f).tokens → s.fgRoom f = true → s.fgReadRoom f 64 = true →
    ((s.finger f).pcGlove = true → s.abvHolds f (s.finger f).target ((s.finger f).pc / 64 * 64) 64 false = false) →
    s.issue (s.fgAccess f (s.finger f).pcGlove .memRd ((s.finger f).pc / 64 * 64) 64 [])
      (fun sp => .fgFetch f ((s.finger f).pc / 64 * 64) sp) = .sent u sp l →
    exec (.programLineFetch f) s = .next ((u.fgCharge f 64).modFinger f (fun x => { x with fetching := true }))) ∧
  (∀ (s : State) (e k : Nat),
    ((((s.work.fingers.filter (fun x => x.2.engine == some (engineUnit e))).map Prod.fst).filter (fun k => s.fgReady (fgOfKey k))).find?
      (fun k => s.work.rr.get 0 (engineUnit e) < k)).or
      (((s.work.fingers.filter (fun x => x.2.engine == some (engineUnit e))).map Prod.fst).filter (fun k => s.fgReady (fgOfKey k))).head? =
      some k →
    exec (.fingerIssue e) s = .next (({ s with work.rr := s.work.rr.set (engineUnit e) k } : State).fgIssue (fgOfKey k)))

/-- WAIT and SIGNAL (R400, R416-R421): a WAIT begins, polls its flag in host space or glove space, ends at its timer's expiry and halts
at its time limit; a SIGNAL that writes neither a flag nor ADV begins its durable reads or acts at once, one that writes a value issues
the write first, in host space or glove space. Where a clause fixes what the spec leaves open it is the model's choice (log entry 14). -/
def Obligations.WaitAndSignalCommandsComplete : Prop :=
  (∀ (s : State) (f : FgId) (w : BitVec 256), s.fgAtInstr f = true → (s.finger f).instr = some w → w.toNat % 256 = 0x03 →
    (∀ ns, decodeFg (f.fn == 0) w = some (.waitTimer ns) →
      ∃ t, exec (.wait f w) s = .next t ∧
        t.finger f = { s.finger f with
          opcode := 0x03, word := w
          waiting := some { kind := 1, addr := 0, gloveSpace := false, mask := 0, value := BitVec.ofNat 64 ns, cmp := 0, poll := 0,
                            timeout := 0 } } ∧
        (∀ j, j.key ≠ f.key → t.finger j = s.finger j) ∧ OnlyIn [.work] s t) ∧
    (∀ r g cmp poll lim off mask value, decodeFg (f.fn == 0) w = some (.waitFlag r g cmp poll lim off mask value) →
      ((s.finger f).a r + offset32 off).toNat % 8 = 0 →
      ∃ t, exec (.wait f w) s = .next t ∧
        t.finger f = { s.finger f with
          opcode := 0x03, word := w
          waiting := some { kind := 0, addr := ((s.finger f).a r + offset32 off).toNat, gloveSpace := g, mask := mask, value := value,
                            cmp := cmp, poll := poll, timeout := lim } } ∧
        (∀ j, j.key ≠ f.key → t.finger j = s.finger j) ∧ OnlyIn [.work] s t) ∧
    (∀ mask lim, decodeFg (f.fn == 0) w = some (.waitEvent mask lim) → (s.fn f.fnId).waiters = [] → (s.fn f.fnId).events &&& mask = 0 →
      ∃ t, exec (.wait f w) s = .next t ∧
        t.finger f = { s.finger f with
          opcode := 0x03, word := w
          waiting := some { kind := 2, addr := 0, gloveSpace := false, mask := mask.setWidth 64, value := 0, cmp := 0, poll := 0,
                            timeout := lim } } ∧
        t.fn f.fnId = { s.fn f.fnId with waiters := [f.f] } ∧
        (∀ j, j.key ≠ f.key → t.finger j = s.finger j) ∧ OnlyIn [.work, .host] s t)) ∧
  (∀ (s : State) (f : FgId) (w : Waiting), s.fgWaits f = true → (s.finger f).waiting = some w →
    (w.kind = 0 → w.polling = false → w.gloveSpace = false → 64 ≤ (s.finger f).tokens → s.fgRoom f = true → s.fgReadRoom f 8 = true →
      ∃ t, exec (.waitPoll f) s = .next t ∧
        Issues s t (.fgPoll f w.addr 0) (fun p => p.op = .memRd ∧ p.hostSpace = true ∧ p.addr = w.addr ∧ p.len = 8) ∧
        t.finger f = { s.finger f with tokens := (s.finger f).tokens - 64, waiting := some { w with polling := true } } ∧
        (∀ j, j.key ≠ f.key → t.finger j = s.finger j) ∧ OnlyIn [.work, .net] s t) ∧
    (w.kind = 1 → (s.finger f).stop = none → (s.finger f).stopCode = none →
      ∃ t, exec (.waitTimerExpiry f) s = .next t ∧
        t.finger f = { s.finger f with
          ibuf := [], pc := ((s.finger f).pc + 32) % 2 ^ 64, transfer := none, waiting := none, signalling := none } ∧
        (∀ j, j.key ≠ f.key → t.finger j = s.finger j) ∧ OnlyIn [.work, .host] s t) ∧
    (w.kind ≠ 1 → w.timeout ≠ 0 → s.fgOut f = [] → (s.finger f).stop = none →
      ∃ t, exec (.waitTimeout f) s = .next t ∧ (t.finger f).state = .halted ∧ (t.finger f).haltCode = 0x0502 ∧
        (t.finger f).pc = (s.finger f).pc ∧ (∀ j, j.key ≠ f.key → t.finger j = s.finger j) ∧ OnlyIn [.work, .host, .net] s t)) ∧
  (∀ (s : State) (f : FgId) (w : BitVec 256) (adv ev : Bool) (r : Nat) (g : Bool) (off events : BitVec 32) (n : Nat) (value : BitVec 64),
    s.fgAtInstr f = true → (s.finger f).instr = some w → w.toNat % 256 = 0x04 →
    decodeFg (f.fn == 0) w = some (.signal false false true false false r g off events n value) → (s.fn f.fnId).waiters = [] →
    ∃ t, exec (.signal f w) s = .next t ∧ (t.fn f.fnId).events = (s.fn f.fnId).events ||| events ∧
      t.finger f = { s.finger f with opcode := 0x04, word := w, ibuf := [], pc := ((s.finger f).pc + 32) % 2 ^ 64 } ∧
      (∀ j, j.key ≠ f.key → t.finger j = s.finger j) ∧ OnlyIn [.work, .host] s t) ∧
  (∀ (s : State) (f : FgId) (w : BitVec 256) (ev dur vec : Bool) (r : Nat) (off events : BitVec 32) (n : Nat) (value : BitVec 64),
    s.fgAtInstr f = true → (s.finger f).instr = some w → w.toNat % 256 = 0x04 →
    decodeFg (f.fn == 0) w = some (.signal true false ev dur vec r false off events n value) →
    ((s.finger f).a r + offset32 off).toNat % 8 = 0 → 64 ≤ (s.finger f).tokens → s.fgRoom f = true →
    ∃ t, exec (.signal f w) s = .next t ∧
      Issues s t (.fgFlag f ((s.finger f).a r + offset32 off).toNat 0) (fun p => p.op = .memWr ∧ p.hostSpace = true ∧ p.ackReq = true ∧
        p.addr = ((s.finger f).a r + offset32 off).toNat ∧ p.len = 8 ∧
        p.data = packLines ((s.finger f).a r + offset32 off).toNat (leBytes 8 value.toNat)) ∧
      (t.finger f).signalling = some { word := w, step := 1 } ∧ (t.finger f).pc = (s.finger f).pc ∧
      (t.finger f).tokens = (s.finger f).tokens - 64 ∧ (∀ j, j.key ≠ f.key → t.finger j = s.finger j) ∧ OnlyIn [.work, .net, .usg] s t) ∧
  (∀ (s : State) (f : FgId) (w : BitVec 256) (mask : BitVec 32) (lim : Nat), s.fgAtInstr f = true → (s.finger f).instr = some w →
    w.toNat % 256 = 0x03 → decodeFg (f.fn == 0) w = some (.waitEvent mask lim) →
    exec (.wait f w) s = .next (((s.modFinger f (fun x => { x with opcode := 0x03, word := w })).beginWait f
      { kind := 2, addr := 0, gloveSpace := false, mask := mask.setWidth 64, value := 0, cmp := 0, poll := 0, timeout := lim }))) ∧
  (∀ (s u : State) (f : FgId) (w : Waiting) (sp : Nat) (l : Option Nat), s.fgWaits f = true → (s.finger f).waiting = some w →
    w.kind = 0 → w.polling = false → 64 ≤ (s.finger f).tokens → s.fgRoom f = true → s.fgReadRoom f 8 = true →
    (w.gloveSpace = true → s.abvHolds f (s.finger f).target w.addr 8 false = false) →
    s.issue (s.fgAccess f w.gloveSpace .memRd w.addr 8 []) (fun sp => .fgPoll f w.addr sp) = .sent u sp l →
    exec (.waitPoll f) s = .next ((u.fgCharge f 64).modFinger f (fun x => { x with waiting := some { w with polling := true } }))) ∧
  (∀ (s : State) (f : FgId) (w : Waiting), s.fgWaits f = true → (s.finger f).waiting = some w →
    (w.kind = 1 → exec (.waitTimerExpiry f) s = .next (s.waitDone f)) ∧
    (w.kind ≠ 1 → w.timeout ≠ 0 → exec (.waitTimeout f) s = .next ((s.unwait f).fgHalt f (plainHalt 0x0502)))) ∧
  (∀ (s : State) (f : FgId) (w : BitVec 256) (ev dur vec : Bool) (r : Nat) (g : Bool) (off events : BitVec 32) (n : Nat) (value : BitVec 64),
    s.fgAtInstr f = true → (s.finger f).instr = some w → w.toNat % 256 = 0x04 →
    decodeFg (f.fn == 0) w = some (.signal false false ev dur vec r g off events n value) →
    exec (.signal f w) s = .next ((s.modFinger f (fun x =>
      { x with opcode := 0x04, word := w, signalling := some { word := w, step := 1 } })).signalDurable f w)) ∧
  (∀ (s u : State) (f : FgId) (w : BitVec 256) (flag adv ev dur vec : Bool) (r : Nat) (g : Bool) (off events : BitVec 32) (n sp : Nat)
      (value : BitVec 64) (l : Option Nat),
    s.fgAtInstr f = true → (s.finger f).instr = some w → w.toNat % 256 = 0x04 →
    decodeFg (f.fn == 0) w = some (.signal flag adv ev dur vec r g off events n value) → (flag = true ∨ adv = true) →
    ((s.finger f).a r + offset32 off).toNat % (if flag then 8 else 4) = 0 → 64 ≤ (s.finger f).tokens →
    (s.modFinger f (fun x => { x with opcode := 0x04, word := w })).fgRoom f = true →
    (g = true → (s.modFinger f (fun x => { x with opcode := 0x04, word := w })).abvHolds f (s.finger f).target
      ((s.finger f).a r + offset32 off).toNat (if flag then 8 else 4) true = false) →
    State.issue (s.modFinger f (fun x => { x with opcode := 0x04, word := w }))
      ((s.modFinger f (fun x => { x with opcode := 0x04, word := w })).fgAccess f g .memWr ((s.finger f).a r + offset32 off).toNat
        (if flag then 8 else 4) (packLines ((s.finger f).a r + offset32 off).toNat
          (leBytes (if flag then 8 else 4) (if flag then value.toNat else ((s.finger f).adv + value.setWidth 32).toNat))))
      (fun sp => .fgFlag f ((s.finger f).a r + offset32 off).toNat sp) = .sent u sp l →
    exec (.signal f w) s = .next ((((u.fgCharge f 64).modFinger f (fun x =>
      { x with signalling := some { word := w, step := 1 } })).countDma f sp (if flag then 8 else 4)).fgWrote f l u.lastFn))

/-- OPEN_GLOVE (R48, R49, R56, R65, R205, R376): the glove opens under a freshly drawn key in its own Band slot, or waits for the
tenant's key; its rules, limits and share start as the rules give them. Closing a glove (R49, R52-R54, R144): the close zeroizes the key
and removes the slot's lines from the write-combining buffers and the tier at once; the glove then passes to RELEASING, and to FREE with
its result once its last page is released. Where a clause fixes what the spec leaves open it is the model's choice (log entries 7, 84). -/
def Obligations.GlovesOpenAndClose : Prop :=
  (∀ (s : State) (o : Origin) (g : Nat) (tk tdisp : Bool) (ql fl : Nat), s.AdminRuns o g → s.sys.mode ≠ .drain →
    (tk = true → tdisp = true) → ql ≤ 64 → fl ≤ 16 → (s.glove g).state = .free → s.contextsFull (linkQuad o.q.link) fl = false →
    s.trust.entropyFailed = false → s.trust.drbgReady = true →
    ∃ t, exec (.openGlove o g tk tdisp ql fl) s = .next t ∧
      (t.glove g).state = (if tk then .keyPending else .opened) ∧ (t.glove g).tdisp = tdisp ∧
      (t.glove g).keySource = (if tk then 0 else 1) ∧ (t.glove g).queueLimit = ql ∧ (t.glove g).fingerLimit = fl ∧
      (t.glove g).rate = 64 ∧ (t.glove g).share = s.boot.cfg.tierDefault ∧ (t.glove g).rules = s.openRules o.q.link ∧
      (t.glove g).windows = [] ∧ (t.glove g).epoch = (s.glove g).epoch ∧
      t.slot g = (if tk then s.slot g else
        { key := (Config.draw s.trust.fresh).setWidth 256, valid := true, home := s.boot.cfg.pos, glove := g }) ∧
      (∀ j, j ≠ g → t.glove j = s.glove j) ∧ (∀ j, j ≠ g → t.slot j = s.slot j) ∧ Completes s t o 0 0 ∧
      OnlyIn [.trust, .work, .pool] s t) ∧
  (∀ (s : State) (o : Origin) (g : Nat), s.AdminRuns o g → s.pagesMoving g = false →
    ((s.glove g).state = .opened ∨ (s.glove g).state = .keyPending) → (∀ l, (s.link l).held = []) →
    ∃ t, exec (.closeGlove o g) s = .next t ∧ (t.glove g).state = .zeroizing ∧
      (t.glove g).closing = some (o, (s.heldOf g).length) ∧ (t.glove g).queueLimit = 0 ∧ (t.glove g).fingerLimit = 0 ∧
      t.slot g = {} ∧ (∀ x ∈ t.pool.tier, x.slot ≠ g) ∧ (∀ e ∈ t.pool.gates, ∀ w ∈ e.2.wcb, w.slot ≠ g) ∧
      (∀ j, j ≠ g → t.slot j = s.slot j)) ∧
  (∀ (s : State) (g : Nat), s.serves = true → (s.glove g).state = .zeroizing →
    ∃ t, exec (.bandSlotZeroConfirmed g) s = .next t ∧ t.glove g = { s.glove g with state := .releasing } ∧
      (∀ j, j ≠ g → t.glove j = s.glove j) ∧ (∀ q, t.queue q = s.queue q) ∧ (∀ f, t.finger f = s.finger f) ∧
      OnlyIn [.trust, .pool, .net, .basket, .out] s t) ∧
  (∀ (s : State) (g pages : Nat) (o : Origin), s.serves = true → (s.glove g).state = .releasing → s.pagesOf g = [] →
    (∀ c ∈ s.pool.owning, c.thn ≠ .close g) → (s.glove g).closing = some (o, pages) →
    ∃ t, exec (.lastPageReleased g) s = .next t ∧
      t.glove g = { tdi := (s.glove g).tdi, nonce := (s.glove g).nonce, stream := (s.glove g).stream, lockPages := (s.glove g).lockPages } ∧
      (∀ j, j ≠ g → t.glove j = s.glove j) ∧ Completes s t o 0 pages)

/-- Pages and windows of a glove change by an epoch change or by a change of ownership (R132, R196, R215, R216, R221, R222, R230, R375):
a grant of this device's pages, a reclaim of a range or a group, and a window's setting and clearing begin it and leave everything else;
a grant of a peer's pages begins the exchange of R471; SET_LIMITS writes the fields it selects at once (R378). Where a clause fixes what
the spec leaves open it is the model's choice (log entries 17, 90). -/
def Obligations.PageAndWindowCommandsComplete : Prop :=
  ∀ (s : State) (o : Origin) (g : Nat), s.AdminRuns o g → ((s.glove g).state = .opened ∨ (s.glove g).state = .keyPending) →
    (∀ ro group m start, start % 0x200000 = 0 → 0 < m → start + m * 0x200000 ≤ s.span o.q.link →
      (∀ i < m, (s.pte g (start / 0x200000 + i)).valid = false ∧ s.granting g (start / 0x200000 + i) = false) →
      s.grantsStopped = false → m ≤ s.freeCount → s.takeFree s.pages 0 m ≠ [] → s.askedGates ≠ [] →
      ∃ t, exec (.grantPages o g s.boot.cfg.pos ro group m start) s = .next t ∧
        t.pool.owning = s.pool.owning ++ [{
          pages := s.takeFree s.pages 0 m, waiting := s.askedGates, owner := some g
          thn := .grant o g ((s.takeFree s.pages 0 m).zipIdx.map (fun (p, i) => (start / 0x200000 + i, p, group, ro))) }] ∧
        t.pool.pts = s.pool.pts ∧ t.pool.owns = s.pool.owns ∧ (∀ q, t.queue q = s.queue q) ∧ OnlyIn [.work, .pool, .net] s t) ∧
    (∀ m start, start % 0x200000 = 0 → 0 < m → s.changeWaits (.reclaimPages o g 0 0 m start) g = false → (s.glove g).tdiLive = false →
      (∀ i < m, (s.pte g (start / 0x200000 + i)).valid = true) →
      ∃ t, exec (.reclaimPages o g 0 0 m start) s = .next t ∧
        t.glove g = { s.glove g with
          updating := true, change := some { origin := o, change := .reclaim ((List.range m).map (· + start / 0x200000)) } } ∧
        (∀ j, j ≠ g → t.glove j = s.glove j) ∧ (∀ q, t.queue q = s.queue q) ∧ OnlyIn [.work, .trust] s t) ∧
    (∀ slot (image : BitVec 256), s.changeWaits (.setPeerWindow o g slot image) g = false → (s.glove g).tdiLive = false → imageBad image.toNat = false → slot ≤ 15 →
      (∀ e ∈ (s.glove g).windows, e.1 = slot ∨ ∀ a n h tg rd wr c, e.2 = .valid a n h tg rd wr c →
        bits image.toNat 41 0 + bits image.toNat 106 64 ≤ a ∨ a + n ≤ bits image.toNat 41 0) →
      (s.glove (bits image.toNat 201 192)).state = .opened →
      ∃ t, exec (.setPeerWindow o g slot image) s = .next t ∧
        t.glove g = { s.glove g with
          updating := true
          change := some { origin := o, change := .window slot (.valid (bits image.toNat 41 0) (bits image.toNat 106 64)
            (bits image.toNat 191 128) (bits image.toNat 201 192) (bitAt image.toNat 203) (bitAt image.toNat 202) false) } } ∧
        (∀ j, j ≠ g → t.glove j = s.glove j) ∧ (∀ q, t.queue q = s.queue q) ∧ OnlyIn [.work, .trust] s t) ∧
    (∀ slot, s.changeWaits (.clearPeerWindow o g slot) g = false → (s.glove g).tdiLive = false → slot ≤ 15 →
      ∃ t, exec (.clearPeerWindow o g slot) s = .next t ∧
        t.glove g = { s.glove g with updating := true, change := some { origin := o, change := .clearWindow slot } } ∧
        (∀ j, j ≠ g → t.glove j = s.glove j) ∧ (∀ q, t.queue q = s.queue q) ∧ OnlyIn [.work, .trust] s t) ∧
    (∀ share rate, (s.glove g).tdiLive = false → share ≤ s.boot.cfg.tierMax → 0 < rate → rate ≤ 64 →
      ∃ t, exec (.setLimits o g 0b1001 share 0 0 rate) s = .next t ∧ t.glove g = { s.glove g with share := share, rate := rate } ∧
        (∀ j, j ≠ g → t.glove j = s.glove j) ∧ (∀ f, t.finger f = s.finger f) ∧ Completes s t o 0 0 ∧ OnlyIn [.work, .trust] s t) ∧
    (∀ group, 0 < group → s.changeWaits (.reclaimPages o g 1 group 0 0) g = false → (s.glove g).tdiLive = false →
      s.entriesOf g (fun e => e.group == group) ≠ [] →
      ∃ t, exec (.reclaimPages o g 1 group 0 0) s = .next t ∧
        t.glove g = { s.glove g with
          updating := true, change := some { origin := o, change := .reclaim (s.entriesOf g (fun e => e.group == group)) } } ∧
        (∀ j, j ≠ g → t.glove j = s.glove j) ∧ (∀ q, t.queue q = s.queue q) ∧ OnlyIn [.work, .trust] s t) ∧
    (∀ home ro group m start, start % 0x200000 = 0 → 0 < m → start + m * 0x200000 ≤ s.span o.q.link →
      (∀ i < m, (s.pte g (start / 0x200000 + i)).valid = false ∧ s.granting g (start / 0x200000 + i) = false) →
      home ≠ s.boot.cfg.pos → s.peerKnown home = true → (s.glove g).state = .opened → (s.peer home).state = .admitted →
      (s.glove g).barred.contains home = false →
      ∃ t, exec (.grantPages o g home ro group m start) s = .next t ∧
        t.basket.grants = s.basket.grants ++
          [{ origin := o, glove := g, home := home, readOnly := ro, group := group, m := m, start := start }] ∧
        (t.peer home).mgmt = (s.peer home).mgmt ++ [if (s.glove g).guests.contains home then
            { glove := g, msg := .pageAlloc m } else { glove := g, msg := .keyTransfer }] ∧
        (∀ q, t.queue q = s.queue q) ∧ (∀ j, t.glove j = s.glove j) ∧ OnlyIn [.work, .basket, .out] s t) ∧
    (∀ mask share ql fl rate, (s.glove g).tdiLive = false →
      (bitAt mask 0 = true → share ≤ s.boot.cfg.tierMax) →
      (bitAt mask 1 = true → ql ≤ 64 ∧ s.topQueue ((s.vfOf g).getD ⟨0, 0⟩) ≤ ql) → (bitAt mask 3 = true → 0 < rate ∧ rate ≤ 64) →
      (bitAt mask 2 = true → fl ≤ 16 ∧ (∀ i < 16, fl ≤ i → s.fingerBound ((s.vfOf g).getD ⟨0, 0⟩) i = false) ∧
        s.contextsFull (linkQuad o.q.link) (fl - (s.glove g).fingerLimit) = false) →
      ∃ t, exec (.setLimits o g mask share ql fl rate) s = .next t ∧
        t.glove g = { s.glove g with
          share := if bitAt mask 0 then share else (s.glove g).share, queueLimit := if bitAt mask 1 then ql else (s.glove g).queueLimit
          fingerLimit := if bitAt mask 2 then fl else (s.glove g).fingerLimit, rate := if bitAt mask 3 then rate else (s.glove g).rate } ∧
        (∀ j, j ≠ g → t.glove j = s.glove j) ∧ Completes s t o 0 0 ∧ OnlyIn [.work, .trust] s t)

/-- Epoch changes (R224, R225): once the glove's requests in flight are gone the new tables are in force, EPOCH rises by one and the
command completes: a rule set or a window is written, a cleared window leaves a tombstone, reclaimed entries are cleared; a drain that
lasts too long ends the change with EPOCH_TIMEOUT and leaves the tables. Changes of page ownership (R132): a gate drops its copies of up
to 64 named lines and, with nothing under way against them, acknowledges a change all of whose lines it has been named; the last
acknowledgement writes the entries, and a grant's page-table entries and result with them. Where a clause fixes what the spec leaves
open it is the model's choice (log entry 65). -/
def Obligations.EpochAndOwnershipChangesComplete : Prop :=
  (∀ (s : State) (g : Nat) (c : EpochChange), s.serves = true → (s.glove g).change = some c → c.draining = true →
    (∀ l, (s.link l).held = []) →
    (∀ rs, s.drained g = true → c.change = .rules rs →
      ∃ t, exec (.epochDrainDone g) s = .next t ∧
        t.glove g = { s.glove g with rules := rs, epoch := ((s.glove g).epoch + 1) % 2 ^ 31, updating := false, change := none,
                                      lastChange := some c.origin } ∧
        (∀ j, j ≠ g → t.glove j = s.glove j) ∧ Completes s t c.origin 0 0 ∧ OnlyIn [.trust, .work, .pool] s t) ∧
    (∀ slot w, s.drained g = true → c.change = .window slot w →
      ∃ t, exec (.epochDrainDone g) s = .next t ∧
        t.glove g = { s.glove g with
          windows := (s.glove g).windows.set slot w, epoch := ((s.glove g).epoch + 1) % 2 ^ 31, updating := false, change := none,
          lastChange := some c.origin } ∧
        (∀ j, j ≠ g → t.glove j = s.glove j) ∧ Completes s t c.origin 0 0 ∧ OnlyIn [.trust, .work, .pool] s t) ∧
    (∃ t, exec (.epochDrainTimeout g) s = .next t ∧ t.glove g = { s.glove g with updating := false, change := none, lastChange := some c.origin } ∧
      (∀ j, j ≠ g → t.glove j = s.glove j) ∧ Completes s t c.origin 0x0302 0 ∧ OnlyIn [.trust, .work] s t) ∧
    (∀ slot a n h tg rd wr cl, s.drained g = true → c.change = .clearWindow slot →
      (s.glove g).windows.get .empty slot = .valid a n h tg rd wr cl →
      ∃ t, exec (.epochDrainDone g) s = .next t ∧
        t.glove g = { s.glove g with
          windows := (s.glove g).windows.set slot (.tombstone a n), epoch := ((s.glove g).epoch + 1) % 2 ^ 31, updating := false,
          change := none, lastChange := some c.origin } ∧
        (∀ j, j ≠ g → t.glove j = s.glove j) ∧ Completes s t c.origin 0 0 ∧ OnlyIn [.trust, .work, .pool] s t) ∧
    (∀ idx, s.drained g = true → c.change = .reclaim idx →
      ∃ t, exec (.epochDrainDone g) s = .next t ∧ (∀ i ∈ idx, (t.pte g i).valid = false) ∧
        (t.glove g).epoch = ((s.glove g).epoch + 1) % 2 ^ 31 ∧ (t.glove g).updating = false ∧ (t.glove g).rules = (s.glove g).rules ∧
        (∀ j, j ≠ g → t.glove j = s.glove j))) ∧
  (∀ (s : State) (g : Nat) (ls : List Nat) (c : OwnChange), ls.length ≤ 64 →
    (∀ w ∈ (s.gate g).walks, (w.fetch = true ∨ w.tier = true) → w.block / 512 / 8 ∉ ls) →
    s.fenced (gateUnit g) = false → s.pool.owning = [c] → g ∈ c.waiting → (∃ p ∈ c.pages, p / 8 ∈ ls) →
    ∃ t, exec (.ownershipInvalidate g ls) s = .next t ∧
      t.pool.owning = [if c.pages.all (fun p => (c.dropped ++ ls.map (fun l => (g, l))).contains (g, p / 8)) then
          { c with
            dropped := c.dropped ++ ls.map (fun l => (g, l)), waiting := c.waiting.filter (· != g), acking := c.acking ++ [g] }
        else { c with dropped := c.dropped ++ ls.map (fun l => (g, l)) }] ∧
      (∀ l ∈ ls, ∀ e ∈ (t.gate g).olines, e.1 ≠ l) ∧ t.pool.owns = s.pool.owns ∧ OnlyIn [.pool, .net] s t) ∧
  (∀ (s : State) (g : Nat) (c : OwnChange), s.fenced (gateUnit g) = false → s.pool.owning = [c] → g ∈ c.acking →
    (c.waiting ≠ [] ∨ ∃ h ∈ c.acking, h ≠ g) →
    ∃ t, exec (.ownershipInvalidateAck g) s = .next t ∧ t.pool.owning = [{ c with acking := c.acking.filter (· != g) }] ∧
      t.pool.owns = s.pool.owns ∧ OnlyIn [.pool] s t) ∧
  (∀ (s : State) (g b glove : Nat) (o : Origin) (c : OwnChange) (ptes : List (Nat × Nat × Nat × Bool)),
    s.fenced (gateUnit g) = false → s.pool.owning = [c] → c.waiting = [] → c.acking = [g] → c.thn = .grant o glove ptes →
    c.owner = some b →
    ∃ t, exec (.ownershipInvalidateAck g) s = .next t ∧ t.pool.owning = [] ∧
      (∀ p ∈ c.pages, (t.own p).state = 1 ∧ (t.own p).owner = b ∧ (t.own p).gen = (s.own p).gen) ∧
      (∀ e ∈ ptes, (t.pte glove e.1).valid = true) ∧ Completes s t o 0 ptes.length ∧ OnlyIn [.work, .pool] s t)

/-- The admin commands on domains, the mode and the logs (R379-R381, R532): a pin of a domain completes once the domain is on, an unpin
withdraws it, DRAIN enters the mode Drain, and GET_LOG writes the whole records that fit its buffer. -/
def Obligations.DomainModeAndLogCommandsComplete : Prop :=
  ∀ (s : State) (o : Origin), s.serves = true → s.fnExists o.q.fnId = true →
    (∀ d, d ≤ 40 → (5, o.q.link) ∈ s.slots d → (∃ u ∈ domUnits d, s.fenced u = false) → s.domAbsent d = false →
      (s.dom d).state = 0 → (s.dom d).phase = 0 →
      ∃ t, exec (.pinDomain o d) s = .next t ∧ o.q.link ∈ (t.dom d).pins ∧ (t.dom d).state = 0 ∧ (t.dom d).phase = 0 ∧
        Completes s t o 0 0 ∧ OnlyIn [.work, .pwr, .evt] s t) ∧
    (∀ d, d ≤ 40 →
      ∃ t, exec (.unpinDomain o d) s = .next t ∧ t.dom d = { s.dom d with pins := (s.dom d).pins.filter (· != o.q.link) } ∧
        (∀ j, j ≠ d → t.dom j = s.dom j) ∧ Completes s t o 0 0 ∧ OnlyIn [.work, .pwr] s t) ∧
    (∃ t, exec (.drain o) s = .next t ∧ t.sys.mode = .drain ∧ Completes s t o 0 0 ∧ t.trust = s.trust ∧ t.pool = s.pool) ∧
    (∀ log first buf len, badBuffer buf len = false → log ≤ 2 → first < (s.logFrom log first).2 →
      ((s.logFrom log first).1.take (len / 32)).flatten.length ≤ 512 → (s.logFrom log first).1 ≠ [] →
      (∀ r ∈ (s.logFrom log first).1, r.length = 32) →
      ∃ t, exec (.getLog o log first buf len) s = .next t ∧
        Issues s t (.crownWrite o 0 (min (len / 32) (s.logFrom log first).1.length +
            2 ^ 32 * bit (decide (min (len / 32) (s.logFrom log first).1.length < (s.logFrom log first).1.length))))
          (fun p => p.op = .memWr ∧ p.hostSpace = true ∧ p.addr = buf ∧
            p.data = packLines buf ((s.logFrom log first).1.take (len / 32)).flatten) ∧
        OnlyIn [.work, .net] s t) ∧
    (∀ d, d ≤ 40 → (5, o.q.link) ∈ s.slots d → (∃ u ∈ domUnits d, s.fenced u = false) → s.domAbsent d = false →
      ¬((s.dom d).state = 0 ∧ (s.dom d).phase = 0) →
      ∃ t, exec (.pinDomain o d) s = .next t ∧ o.q.link ∈ (t.dom d).pins ∧
        (if (t.dom d).state = 0 ∧ (t.dom d).phase = 0 then Completes s t o 0 0 else o ∈ (t.dom d).pinWait)) ∧
    (∀ log first buf len, badBuffer buf len = false → log ≤ 2 → first < (s.logFrom log first).2 →
      exec (.getLog o log first buf len) s = .next ((s.undispatch (.getLog o log first buf len)).crownWrites o buf
        ((s.logFrom log first).1.take (len / 32)).flatten
        (((s.logFrom log first).1.take (len / 32)).length +
          2 ^ 32 * bit (decide (((s.logFrom log first).1.take (len / 32)).length < (s.logFrom log first).1.length)))))

/-- The messages a home device sends its peer (R76, R78, R79, R132, R470-R472): keys go into guest slots and are confirmed, pages are
allocated and released by a change of ownership, a revocation zeroizes the slot and releases its pages, and a quarantine notice fences
the peer. Where a clause fixes what the spec leaves open it is the model's choice (log entries 17, 26, 27, 87). -/
def Obligations.PeerRequestMessagesComplete : Prop :=
  ∀ (s : State) (n g : Nat), s.serves = true → (s.peer n).state = .admitted →
    (∀ key b, (s.guestOf n g).or s.freeGuest = some b →
      ∃ t, exec (.keyTransfer n g key) s = .next t ∧ t.slot b = { key := key, valid := true, home := n, glove := g } ∧
        (∀ j, j ≠ b → t.slot j = s.slot j) ∧ t.out = (s.sendMgmt n (.keyConfirm g b 0)).out ∧ OnlyIn [.trust, .out] s t) ∧
    (∀ m b, s.guestOf n g = some b → (∀ c ∈ s.pool.owning, c.thn ≠ .peerAlloc n g) → s.grantsStopped = false → m ≤ s.freeCount →
      s.takeFree s.pages 0 m ≠ [] → s.askedGates ≠ [] →
      ∃ t, exec (.pageAlloc n g m) s = .next t ∧
        t.pool.owning = s.pool.owning ++ [{ pages := s.takeFree s.pages 0 m, waiting := s.askedGates, owner := some b, thn := .peerAlloc n g }] ∧
        t.pool.owns = s.pool.owns ∧ OnlyIn [.pool, .net] s t) ∧
    (∀ ps b, s.guestOf n g = some b → (∀ c ∈ s.pool.owning, c.thn ≠ .peerRelease n g) → s.askedGates ≠ [] → ps ≠ [] →
      (∀ p ∈ ps, (s.own p).state = 1 ∧ (s.own p).owner = b) →
      ∃ t, exec (.pageRelease n g ps) s = .next t ∧
        t.pool.owning = s.pool.owning ++ [{ pages := ps, waiting := s.askedGates, owner := none, thn := .peerRelease n g }] ∧
        t.pool.owns = s.pool.owns ∧ OnlyIn [.pool, .net] s t) ∧
    (∀ b, s.guestOf n g = some b → s.askedGates ≠ [] → s.pagesOf b ≠ [] →
      ∃ t, exec (.keyRevoke n g) s = .next t ∧ t.slot b = {} ∧ (∀ j, j ≠ b → t.slot j = s.slot j) ∧
        t.pool.owning = s.pool.owning ++ [{ pages := s.pagesOf b, waiting := s.askedGates, owner := none, thn := .peerRevoke n g }] ∧
        OnlyIn [.trust, .pool, .net] s t) ∧
    (s.guestOf n g = none → (∀ c ∈ s.pool.owning, c.thn ≠ .peerRevoke n g) →
      exec (.keyRevoke n g) s = .next (s.sendMgmt n (.revokeAck g 0))) ∧
    (∀ cause, ∃ t, exec (.quarantineNotice n cause) s = .next t ∧ (t.peer n).state = .fenced ∧ (t.peer n).cause = 3 ∧
      (t.peer n).fences = min 65535 ((s.peer n).fences + 1) ∧ (t.peer n).mgmt = [] ∧ ∀ x ∈ t.basket.grants, x.home ≠ n)

/-- The answers of a peer (R76, R79, R470-R472): a confirmed key, the last page of a list and the end of a revocation or release take
the request they answer off the list; a grant goes on with its pages and ends with its entries written; a request without an answer is
sent again, three times at most, and then given up. Where a clause fixes what the spec leaves open it is the model's choice (log entries
28, 87). -/
def Obligations.PeerAnswerMessagesComplete : Prop :=
  ∀ (s : State) (n g : Nat), s.serves = true → (s.peer n).state = .admitted →
    (∀ slot r x, (s.peer n).mgmt.find? (fun r => r.glove == g && r.msg.isTransfer) = some r → s.grantOf n g = some x → 1024 ≤ slot →
      ∃ t, exec (.keyConfirm n g slot 0) s = .next t ∧ t.glove g = { s.glove g with guests := (s.glove g).guests ++ [n] } ∧
        (t.peer n).mgmt = eraseFirst (· == r) (s.peer n).mgmt ++ [{ glove := g, msg := .pageAlloc x.m }] ∧
        t.out = (s.sendMgmt n (.pageAlloc g x.m)).out ∧ (∀ j, j ≠ g → t.glove j = s.glove j) ∧
        OnlyIn [.trust, .basket, .out] s t) ∧
    (∀ ps x, s.grantOf n g = some x → (∃ r ∈ (s.peer n).mgmt, r.glove = g ∧ r.msg.isAlloc = true) →
      x.m ≤ ((s.peer n).listed ++ ps).length →
      ∃ t, exec (.pageList n g 0 ps) s = .next t ∧ t.queue x.origin.q = (s.complete x.origin 0 x.m).queue x.origin.q ∧
        (∀ i p, i < x.m → ((s.peer n).listed ++ ps)[i]? = some p →
          t.pte g (x.start / 0x200000 + i) = { group := x.group, page := p, home := n, readOnly := x.readOnly, valid := true }) ∧
        t.basket.grants = eraseFirst (· == x) s.basket.grants ∧ (t.peer n).listed = [] ∧ OnlyIn [.work, .pool, .basket] s t) ∧
    (∀ ps x, s.grantOf n g = some x → (∃ r ∈ (s.peer n).mgmt, r.glove = g ∧ r.msg.isAlloc = true) →
      ((s.peer n).listed ++ ps).length < x.m →
      ∃ t, exec (.pageList n g 0 ps) s = .next t ∧ t.peer n = { s.peer n with listed := (s.peer n).listed ++ ps } ∧
        OnlyIn [.basket] s t) ∧
    (∀ ps r, (s.peer n).mgmt.find? (fun r => r.glove == g && r.msg.isEnd) = some r → r.msg = .keyRevoke →
      ∃ t, exec (.revokeAck n g ps) s = .next t ∧ t.peer n = { s.peer n with mgmt := eraseFirst (· == r) (s.peer n).mgmt } ∧
        (∀ j, j ≠ n → t.peer j = s.peer j) ∧ OnlyIn [.basket] s t) ∧
    (∀ r, (s.peer n).mgmt.find? (fun r => r.glove == g) = some r → r.msg = .keyRevoke → r.attempts < 3 →
      ∃ t, exec (.mgmtRetryTimeout n g) s = .next t ∧ t.out = (s.sendMgmt n (.keyRevoke g)).out ∧
        (t.peer n).mgmt = (s.peer n).mgmt.map (fun d => if d == r then { d with attempts := d.attempts + 1 } else d) ∧
        OnlyIn [.basket, .out] s t)

/-- What stands before a unit's own work when a packet reaches its target, for every request row of the Weave but a memory packet at a
Border link unit (R244, R261, R521): a packet on a VC outside its class is discarded and reported in the Weave class; for a fenced unit
the knot answers requests with the code of the unit's kind, and a fenced DDR gate's lines are recorded (R160); for a unit whose domain
is not on the packet stays and wakes it. Where a clause fixes what the spec leaves open it is the model's choice (log entry 62). -/
def Obligations.PacketsMeetTheChecksOfTheirTarget : Prop :=
  ∀ (s : State) (p : Packet) (c : Instr),
    c ∈ [.memRd p, .memWr p, .memRdLock p, .memWrUnlock p, .unlock p, .zlRd p, .regRd p, .regWr p, .mqRd p, .mqWr p, .mqMac p,
      .tierLookup p, .tierFill p, .mirrorWr p] →
    (c = .memRd p → p.op = .memRd) → (c = .memWr p → p.op = .memWr) → (c = .memRdLock p → p.op = .memRdLock) →
    (c = .memWrUnlock p → p.op = .memWrUnlock) → (c = .unlock p → p.op = .unlock) → (c = .zlRd p → p.op = .zlRd) →
    (c = .regRd p → p.op = .regRd) → (c = .regWr p → p.op = .regWr) → (c = .mqRd p → p.op = .mqRd) → (c = .mqWr p → p.op = .mqWr) →
    (c = .mqMac p → p.op = .mqMac) → (c = .tierLookup p → p.op = .tierLookup) → (c = .tierFill p → p.op = .tierFill) →
    (c = .mirrorWr p → p.op = .mirrorWr) → unitKind p.dest ≠ 4 → s.waitsTurn p = false →
    (p.op.cls ≠ vcCls p.vc → exec c s = .next ((s.take p).contained 1 0x0046 p.dest 0 none)) ∧
    (p.op.cls = vcCls p.vc → s.fenced p.dest = true → (p.op.cls = 1 ∨ (p.op.cls = 0 ∧ p.ackReq = true)) →
      exec c s = .next (((if c ∈ [.memRd p, .memWr p, .memRdLock p, .memWrUnlock p, .unlock p] then s.fenceFails p else s).take p).answer p
        (fenceCode p.dest))) ∧
    (p.op.cls = vcCls p.vc → s.fenced p.dest = true → p.op.cls ≠ 1 → (p.op.cls ≠ 0 ∨ p.ackReq = false) →
      exec c s = .next (((if c ∈ [.memRd p, .memWr p, .memRdLock p, .memWrUnlock p, .unlock p] then s.fenceFails p else s).take p).contained
        1 0x0702 p.dest 0 none)) ∧
    (p.op.cls = vcCls p.vc → s.fenced p.dest = false → s.unitOn p.dest = false →
      exec c s = .next (s.wake (unitDomain p.dest) (unitWanter p.initUnit)))

/-- Memory packets: one that finds its target ready is served there, as `atUnit` says for a Cuff, a gate, a stack controller and a
Border link (R33-R35, R245). At the owning gate a read of a line present in the buffer is served from it (R137), a write that covers its
line replaces it there (R136, R138), and a line is locked, and its lock released by its holder alone (R260, R322). -/
def Obligations.MemoryPacketsAtTheWriteCombiningBuffer : Prop :=
  (∀ (s : State) (g line b : Nat) (p : Packet), s.OwnedLine g p line b →
    (∀ w, s.Arrives .memRd p → (∀ k ∈ (s.gate g).locks, k.line ≠ line) → s.wcbFind g line = some w → w.bad = false →
      ∃ t, exec (.memRd p) s = .next t ∧
        Sends t (fun a => a.op = .cplD ∧ a.dest = p.initUnit ∧ a.tag = p.tag ∧ a.data = [w.data] ∧ a.status = 0 ∧ a.ep = false) ∧
        t.net.outst = s.net.outst ∧ (t.gate g).wcb = (s.gate g).wcb ∧ (t.gate g).ccache = (s.gate g).ccache ∧
        t.pool.tier = s.pool.tier ∧ OnlyIn [.pool, .net] s t) ∧
    (s.Arrives .memWr p → (∀ k ∈ (s.gate g).locks, k.line ≠ line) → p.addr % 64 = 0 → p.len = 64 → p.firstBE = BitVec.allOnes 64 →
      p.lastBE = BitVec.allOnes 64 → s.wcbFind g line = none → (s.gate g).wcb.length < 4096 → p.ackReq = true →
      ∃ t, exec (.memWr p) s = .next t ∧ t.wcbFind g line = some { line := line, data := p.data.headD 0, slot := b, glove := p.glove, bad := p.ep } ∧
        (∀ l, l ≠ line → t.wcbFind g l = s.wcbFind g l) ∧
        Sends t (fun a => a.op = .ack ∧ a.dest = p.initUnit ∧ a.tag = p.tag ∧ a.status = 0) ∧
        t.pool.tier = s.pool.tier ∧ OnlyIn [.pool, .net] s t) ∧
    (∀ w, s.Arrives .memRdLock p → (∀ k ∈ (s.gate g).locks, k.line ≠ line) → s.wcbFind g line = some w → w.bad = false →
      ∃ t, exec (.memRdLock p) s = .next t ∧ (t.gate g).locks = (s.gate g).locks ++ [⟨line, p.initUnit, p.tag⟩] ∧
        Sends t (fun a => a.op = .cplD ∧ a.dest = p.initUnit ∧ a.tag = p.tag ∧ a.data = [w.data] ∧ a.ep = false) ∧
        OnlyIn [.pool, .net] s t) ∧
    (∀ k, s.Arrives .unlock p → (s.gate g).locks = [k] → k.line = line → k.unit = p.initUnit → (s.gate g).parked = [] →
      ∃ t, exec (.unlock p) s = .next t ∧ (t.gate g).locks = [] ∧ (t.gate g).wcb = (s.gate g).wcb ∧ OnlyIn [.pool, .net] s t) ∧
    (∀ k w, s.Arrives .memWrUnlock p → (s.gate g).locks = [k] → k.line = line → k.unit = p.initUnit → (s.gate g).parked = [] →
      s.wcbFind g line = some w →
      ∃ t, exec (.memWrUnlock p) s = .next t ∧ (t.gate g).locks = [] ∧
        (t.wcbFind g line).map WcbLine.data = some (p.merge line w.data) ∧ OnlyIn [.pool, .net] s t) ∧
    (s.Arrives .unlock p → (∀ k ∈ (s.gate g).locks, k.line = line → k.unit ≠ p.initUnit) → (s.gate g).parked = [] →
      p.ackReq = true →
      ∃ t, exec (.unlock p) s = .next t ∧ (t.gate g).locks = (s.gate g).locks ∧ (t.gate g).wcb = (s.gate g).wcb ∧
        Sends t (fun a => a.dest = p.initUnit ∧ a.tag = p.tag ∧ a.status = 0x0032))) ∧
  (∀ (s : State) (p : Packet), s.borderWaits p = false →
    (s.Arrives .memRd p → exec (.memRd p) s = .next ((s.take p).atUnit p)) ∧
    (s.Arrives .memWr p → exec (.memWr p) s = .next ((s.take p).atUnit p)) ∧
    (s.Arrives .memRdLock p → exec (.memRdLock p) s = .next ((s.take p).atUnit p)) ∧
    (s.Arrives .memWrUnlock p → exec (.memWrUnlock p) s = .next ((s.take p).atUnit p)) ∧
    (s.Arrives .unlock p → exec (.unlock p) s = .next ((s.take p).atUnit p)))

/-- ZL_RD, REG_RD and REG_WR at their targets (R242, R309, R312, R631, R632): a zero-length read goes to the host as a read of no bytes;
a register read returns its line, a register write writes the enabled bytes of its range and is acknowledged, and a block that the
initiator may not reach answers DECODE_MISS. -/
def Obligations.HostAndRegisterPacketsComplete : Prop :=
  (∀ (s : State) (p : Packet), s.Arrives .zlRd p → unitKind p.dest = 0 → p.hostSpace = true → (s.link p.link).up = true →
    s.peerClosed p = false → s.viaWindow p = false → (s.fn ⟨p.link, p.fn⟩).bme = true → (s.fn ⟨p.link, p.fn⟩).d3 = false →
    ∃ t, exec (.zlRd p) s = .next t ∧
      t.link p.link = { s.link p.link with
        txq := (s.link p.link).txq ++ [.memRd p.fn p.addr 0 p], devReqs := (s.link p.link).devReqs ++ [{ pkt := p, left := 1 }] } ∧
      (∀ j, j ≠ p.link → t.link j = s.link j) ∧ OnlyIn [.host, .net] s t) ∧
  (∀ (s : State) (p : Packet), s.Arrives .regRd p → regOpen p = true →
    ∃ t, exec (.regRd p) s = .next t ∧
      Sends t (fun a => a.op = .cplD ∧ a.dest = p.initUnit ∧ a.tag = p.tag ∧ a.status = 0 ∧
        a.data = [lineOf ((List.range 8).flatMap (fun i => leBytes 8 ((s.take p).readBlock p.dest (p.addr % 0x100000 / 64 * 64 + 8 * i))))]) ∧
      OnlyIn [.net] s t) ∧
  (∀ (s : State) (p : Packet) (i : Nat), s.Arrives .regWr p → regOpen p = true → p.ep = false → i < 8 →
    p.addr % 64 = 8 * i → p.len = 8 → p.firstBE = BitVec.allOnes 64 → p.lastBE = BitVec.allOnes 64 →
    exec (.regWr p) s = .next (((s.take p).writeBlock p.dest (p.addr % 0x100000 / 64 * 64 + 8 * i) (word64 (p.data.headD 0) i) 255).answer p 0)) ∧
  (∀ (s : State) (p : Packet), s.Arrives .regRd p → regOpen p = false →
    exec (.regRd p) s = .next ((s.take p).answer p 0x0004)) ∧
  (∀ (s : State) (p : Packet), s.Arrives .regWr p → regOpen p = true → p.ep = false →
    exec (.regWr p) s = .next (((List.range 8).foldl (fun s i =>
      if unitMask p i == 0 then s
      else s.writeBlock p.dest (p.addr % 0x100000 / 64 * 64 + 8 * i) (word64 (p.data.headD 0) i) (unitMask p i)) (s.take p)).answer p 0)) ∧
  (∀ (s : State) (p : Packet), s.Arrives .regWr p → regOpen p = false → exec (.regWr p) s = .next ((s.take p).missAt p)) ∧
  (∀ (s : State) (p : Packet), s.Arrives .zlRd p → unitKind p.dest = 0 → p.hostSpace = true →
    exec (.zlRd p) s = .next ((s.take p).cuffRequest p))

/-- Responses end their requests (R243, R272, R273, R350, R358, R362): data are added to their request, which ends with the last of
them, and a response without data ends it with its status. The last data of a queue's fetch bring its entries, an acknowledgement marks
a result written, a failure moves the queue to FAULTED; a queue's fetch that has waited WVE_TIMEOUT.LIMIT ends as if WEAVE_TIMEOUT had
been returned, and its tag stays unusable until it is released; a response to such a tag is discarded and reported. Where a clause fixes
what the spec leaves open it is the model's choice (log entry 34). -/
def Obligations.ResponsePacketsComplete : Prop :=
  (∀ (s : State) (p : Packet) (r : Req) (q : QId) (first n : Nat), s.AnswersReq .cplD p r → r.ctx = .qFetch q first n →
    r.left ≤ p.data.length → r.code = 0 → p.status = 0 → p.ep = false → (first, n) ∈ (s.queue q).fetching → (s.queue q).faulted = false →
    ∃ t, exec (.cplD p) s = .next t ∧ (t.queue q).fetch = (s.queue q).fetch + BitVec.ofNat 32 n ∧
      (t.queue q).entries = (s.queue q).entries ++ (List.range n).map (fun i =>
        { idx := (first + i) % 2 ^ 32, bytes := lineOf (((r.add p).bytes.drop (64 * i)).take 64) }) ∧
      (∀ j, j.key ≠ q.key → t.queue j = s.queue j) ∧
      t.net.outst = s.net.outst.filter (fun x => !(x.unit == r.unit && x.tag == r.tag)) ∧ OnlyIn [.work, .net] s t) ∧
  (∀ (s : State) (p : Packet) (r : Req) (q : QId) (first n : Nat), s.AnswersReq .cpl p r → r.ctx = .qFetch q first n → r.code = 0 →
    p.status ≠ 0 → (s.queue q).enable = true → (s.queue q).faulted = false → s.fnEnabled q.fnId = true →
    ∃ t, exec (.cpl p) s = .next t ∧ t.queue q = { s.queue q with faulted := true, errCode := p.status } ∧
      (t.fn q.fnId).cause = (s.fn q.fnId).cause ||| 4 ∧ t.net.events = s.net.events ++ [(q.fnId, 0)] ∧
      t.net.outst = s.net.outst.filter (fun x => !(x.unit == r.unit && x.tag == r.tag)) ∧ OnlyIn [.work, .net, .host] s t) ∧
  (∀ (s : State) (p : Packet) (r : Req) (q : QId) (i : Nat), s.AnswersReq .ack p r → r.ctx = .qResult q i → r.code = 0 → p.status = 0 →
    ∃ t, exec (.ack p) s = .next t ∧
      t.queue q = { s.queue q with entries := (s.queue q).entries.map (fun e => if e.idx == i && e.wr == 1 then { e with wr := 2 } else e) } ∧
      (∀ j, j.key ≠ q.key → t.queue j = s.queue j) ∧
      t.net.outst = s.net.outst.filter (fun x => !(x.unit == r.unit && x.tag == r.tag)) ∧ OnlyIn [.work, .net] s t) ∧
  (∀ (s : State) (r : Req) (q : QId) (first n : Nat), s.awake = true → s.reqOf r.unit r.tag = some r → s.timed r = true →
    r.ctx = .qFetch q first n → (s.queue q).enable = true → (s.queue q).faulted = false →
    ∃ t, exec (.weaveTimeout r.unit r.tag) s = .next t ∧ t.queue q = { s.queue q with faulted := true, errCode := 0x0010 } ∧
      (r.unit, r.tag) ∈ t.net.dead ∧ mkFault 1 .contained 0x0010 r.unit 0 none ∈ t.net.reports ∧
      t.net.outst = s.net.outst.filter (fun x => !(x.unit == r.unit && x.tag == r.tag)) ∧ OnlyIn [.work, .net, .host] s t) ∧
  (∀ (s : State) (unit tag : Nat), exec (.tagRelease unit tag) s = .next { s with net.dead := s.net.dead.filter (· != (unit, tag)) }) ∧
  (∀ (s : State) (p : Packet) (c : Instr), c ∈ [.cplD p, .cpl p, .ack p, .mrD p, .mrAck p] →
    (c = .cplD p → p.op = .cplD) → (c = .cpl p → p.op = .cpl) → (c = .ack p → p.op = .ack) → (c = .mrD p → p.op = .mrD) →
    (c = .mrAck p → p.op = .mrAck) → p.op.cls = vcCls p.vc → s.fenced p.dest = false → s.unitOn p.dest = true →
    (p.dest, p.tag) ∈ s.net.dead → s.waitsTurn p = false → exec c s = .next ((s.take p).contained 1 0x004D p.dest 0 none)) ∧
  (∀ (s : State) (p : Packet) (r : Req), s.AnswersReq .cplD p r → (∀ l x, r.ctx ≠ .borderIn l x) →
    exec (.cplD p) s = .next (
      if r.left ≤ p.data.length then
        (((s.take p).countResponse r p true).countRead r (r.pkt.enabledIn (p.addr / 64) p.data.length)).ended (r.add p) true
      else (((s.take p).countResponse r p false).countRead r (r.pkt.enabledIn (p.addr / 64) p.data.length)).setReq (r.add p))) ∧
  (∀ (s : State) (p : Packet) (r : Req),
    (s.AnswersReq .cpl p r → exec (.cpl p) s = .next ((s.take p).endedBy r p)) ∧
    (s.AnswersReq .ack p r → exec (.ack p) s = .next ((s.take p).endedBy r p)))

/-- Metadata and tier packets at their targets (R130, R131, R134, R148, R149, R169, R201, R239): a metadata read returns the line that
its address holds, a node that is cached from the counter cache, a table line and a root-store slot only where they verify; a metadata
write and a child's MAC take effect and are acknowledged; a tier lookup answers with the lines that hit and the hit mask, a fill places
its line in the tier or stores it, a mirror write stores the ciphertext and the MAC line. Where a clause fixes what the spec leaves open
it is the model's choice (log entries 9, 10, 12, 13). -/
def Obligations.MetadataAndTierPacketsComplete : Prop :=
  ∀ (s : State) (p : Packet),
    (s.Arrives .mqRd p → isStackCtl p.dest = false → (∀ l, s.hbmPlace (unitQuad p.dest) p.addr ≠ .table l) →
      (∀ b l i, s.hbmPlace (unitQuad p.dest) p.addr ≠ .node b l i) → s.hbmLost (unitQuad p.dest) p.addr = false →
      ∃ t, exec (.mqRd p) s = .next t ∧ Sends t (fun a => a.op = .mrD ∧ a.dest = p.initUnit ∧ a.tag = p.tag ∧ a.status = 0 ∧
        a.data = p.lines.map (fun l => s.hbmRead (unitQuad p.dest) (64 * l))) ∧ OnlyIn [.pool, .net] s t) ∧
    (∀ b l i d, s.Arrives .mqRd p → isStackCtl p.dest = false → s.hbmPlace (unitQuad p.dest) p.addr = .node b l i →
      s.hcHeld b l i = some d →
      ∃ t, exec (.mqRd p) s = .next t ∧ Sends t (fun a => a.op = .mrD ∧ a.dest = p.initUnit ∧ a.tag = p.tag ∧ a.status = 0 ∧ a.data = [d]) ∧
        OnlyIn [.net] s t) ∧
    (∀ b l i, s.Arrives .mqRd p → isStackCtl p.dest = false → s.hbmPlace (unitQuad p.dest) p.addr = .node b l i →
      s.hcHeld b l i = none → s.hbmLost (unitQuad p.dest) p.addr = false →
      ∃ t, exec (.mqRd p) s = .next t ∧ Sends t (fun a => a.op = .mrD ∧ a.dest = p.initUnit ∧ a.tag = p.tag ∧ a.status = 0 ∧
        a.data = [s.hbmRead (unitQuad p.dest) p.addr]) ∧ OnlyIn [.pool, .net] s t) ∧
    (∀ l d u, s.Arrives .mqRd p → isStackCtl p.dest = false → s.hbmPlace (unitQuad p.dest) p.addr = .table l →
      (s.take p).bring true 8 0 l = (.inl d, u) →
      exec (.mqRd p) s = .next ((u.respond p .mrD 0 (64 * (p.addr / 64)) [d] false).hcTrim (hgateOf (unitQuad p.dest) p.addr))) ∧
    (s.Arrives .mqRd p → isStackCtl p.dest = true → s.rootOk (decide (3984 ≤ p.addr / 64)) (p.addr / 64 % 3984) = true →
      ∃ t, exec (.mqRd p) s = .next t ∧ Sends t (fun a => a.op = .mrD ∧ a.dest = p.initUnit ∧ a.tag = p.tag ∧ a.status = 0 ∧
        a.data = [(s.rootAt (decide (3984 ≤ p.addr / 64)) (p.addr / 64 % 3984)).1]) ∧ OnlyIn [.net] s t) ∧
    (s.Arrives .mqWr p → p.ep = false → (∀ l, s.hbmPlace (unitQuad p.dest) p.addr ≠ .table l) →
      (∀ b l i, s.hbmPlace (unitQuad p.dest) p.addr ≠ .node b l i) →
      exec (.mqWr p) s = .next (((s.take p).hbufPut (unitQuad p.dest) (64 * (p.addr / 64)) (p.data.headD 0)).answer p 0)) ∧
    (∀ b l i, s.Arrives .mqWr p → p.ep = false → s.hbmPlace (unitQuad p.dest) p.addr = .node b l i →
      ∃ t, exec (.mqWr p) s = .next t ∧ t.hcHeld b l i = some (p.data.headD 0) ∧
        Sends t (fun a => a.op = .mrAck ∧ a.dest = p.initUnit ∧ a.tag = p.tag ∧ a.status = 0) ∧ OnlyIn [.pool, .net] s t) ∧
    (∀ l, s.Arrives .mqWr p → p.ep = false → s.hbmPlace (unitQuad p.dest) p.addr = .table l →
      exec (.mqWr p) s = .next (((s.take p).changeTable l (fun s => s.putTable l (p.data.headD 0))).answer p 0)) ∧
    (s.Arrives .mqMac p → p.ep = false → isStackCtl p.dest = true → p.addr / 64 < 3984 → s.rootOk false (p.addr / 64) = true →
      ∃ t, exec (.mqMac p) s = .next t ∧
        (t.rootAt false (p.addr / 64)).1 =
          putMac (s.rootAt false (p.addr / 64)).1 (p.addr / 8 % 8) (macAt (p.data.headD 0) (p.addr / 8 % 8)) ∧
        Sends t (fun a => a.op = .mrAck ∧ a.dest = p.initUnit ∧ a.tag = p.tag ∧ a.status = 0) ∧ OnlyIn [.pool, .net] s t) ∧
    (s.Arrives .mqMac p → p.ep = false → isStackCtl p.dest = true → p.addr / 64 < 3984 → s.rootOk false (p.addr / 64) = false →
      ∃ t, exec (.mqMac p) s = .next t ∧
        mkFault 3 .rootMismatch 0x0704 (stackUnit (p.addr / 64 % 4)) (p.addr / 64) none ∈ t.net.reports ∧ OnlyIn [.net] s t) ∧
    (∀ b l i u, s.Arrives .mqMac p → p.ep = false → isStackCtl p.dest = false → s.hbmPlace (unitQuad p.dest) p.addr = .node b l i →
      (s.take p).updateMac b l i (p.addr / 8 % 8) (macAt (p.data.headD 0) (p.addr / 8 % 8)) = (none, u) →
      exec (.mqMac p) s = .next ((u.hcTrim (hgateOf (unitQuad p.dest) p.addr)).answer p 0)) ∧
    (∀ l x, s.Arrives .tierLookup p → p.poolLines = [l] → s.tierFind l = some x →
      ∃ t, exec (.tierLookup p) s = .next t ∧
        Sends t (fun a => a.op = .mrD ∧ a.dest = p.initUnit ∧ a.tag = p.tag ∧ a.data = [x.data] ∧ a.metaw = x.mac) ∧
        Sends t (fun a => a.op = .mrAck ∧ a.dest = p.initUnit ∧ a.tag = p.tag ∧ a.metaw = 1) ∧ OnlyIn [.pool, .net] s t) ∧
    (s.Arrives .tierLookup p → (∀ l ∈ p.poolLines, s.tierFind l = none) →
      ∃ t, exec (.tierLookup p) s = .next t ∧
        Sends t (fun a => a.op = .mrAck ∧ a.dest = p.initUnit ∧ a.tag = p.tag ∧ a.metaw = 0) ∧ OnlyIn [.net] s t) ∧
    (s.Arrives .tierLookup p →
      ∃ t, exec (.tierLookup p) s = .next t ∧
        (∀ l ∈ p.poolLines, ∀ x, s.tierFind l = some x →
          Sends t (fun a => a.op = .mrD ∧ a.dest = p.initUnit ∧ a.tag = p.tag ∧ a.addr = 64 * l ∧ a.data = [x.data] ∧ a.metaw = x.mac)) ∧
        Sends t (fun a => a.op = .mrAck ∧ a.dest = p.initUnit ∧ a.tag = p.tag ∧ a.metaw = BitVec.ofNat 64
          ((p.poolLines.zipIdx.map (fun (l, i) => if (s.tierFind l).isSome then 2 ^ i else 0)).sum)) ∧ OnlyIn [.pool, .net] s t) ∧
    (∀ x, s.Arrives .tierFill p → p.ep = false → s.tierFind (poolAddr p.addr / 64) = some x → s.tierFenced x.stack x.set = false →
      ∃ t, exec (.tierFill p) s = .next t ∧
        t.pool = { s.pool with tier := s.pool.tier.map (fun y => if y = x then
          { x with mac := p.metaw, slot := p.ctx, dirty := x.dirty || p.ackReq, ref := true, data := p.data.headD 0 } else y) } ∧
        Sends t (fun a => a.op = .mrAck ∧ a.dest = p.initUnit ∧ a.tag = p.tag ∧ a.status = 0) ∧ OnlyIn [.pool, .net] s t) ∧
    (s.Arrives .tierFill p → p.ep = false →
      exec (.tierFill p) s = .next
        (((s.take p).tierFill (poolAddr p.addr / 64) p.ctx (p.data.headD 0) p.metaw p.ackReq).1.answer p 0)) ∧
    (∀ d m, s.Arrives .mirrorWr p → p.ep = false → p.data = [d, m] →
      exec (.mirrorWr p) s = .next
        ((((s.take p).ddrPut (4 * unitQuad p.dest + unitIdx p.dest) p.addr d).ddrPut (4 * unitQuad p.dest + unitIdx p.dest)
          (macLineAddr p.addr) m).answer p 0)) ∧
    (∀ d, s.Arrives .mirrorWr p → p.ep = false → p.data = [d] →
      exec (.mirrorWr p) s = .next (((s.take p).ddrPut (4 * unitQuad p.dest + unitIdx p.dest) p.addr d).answer p 0))

/-- Responses on Mr at their gate (R122, R132, R133, R134, R148, R163, R241): a line of a path goes on up the tree, its first line
asking for its parent, and a failed one poisons its block; an ownership line serves or fails what waits for it; a tier lookup's mask
serves its block; an acknowledged counter content sends its MAC to the parent, and an acknowledged MAC frees the block. Where a clause
fixes what the spec leaves open it is the model's choice (log entries 9, 11). -/
def Obligations.MetadataResponsesComplete : Prop :=
  ∀ (s : State) (p : Packet) (r : Req) (g blk : Nat),
    (∀ u a w, s.AnswersReq .mrD p r → r.ctx = .gateMeta g blk 0 → p.status = 0 → p.ep = false → s.walkOf g blk = some w → w.path = [] →
      g < 16 → s.treeTop false ≠ 0 → s.parentAt false 0 (s.leafOf blk) = (u, a) → s.fenced u = false → s.poisoned g blk = false →
      (s.gate g).mqWait = [] → s.mqRoom g u = true →
      ∃ t, exec (.mrD p) s = .next t ∧
        (t.walkOf g blk).map (fun w => (w.path, w.level, w.fetch)) = some ([p.data.headD 0], 1, true) ∧
        (∃ x ∈ t.net.outst, x.ctx = .gateMeta g blk 1 ∧ x.pkt.op = .mqRd ∧ x.pkt.dest = u ∧ x.pkt.addr = a) ∧
        (t.gate g).ccache = (s.gate g).ccache ∧ OnlyIn [.pool, .net] s t) ∧
    (s.AnswersReq .mrD p r → r.ctx = .gateMeta g blk 0 → p.status ≠ 0 → g < 16 → (s.gate g).walks = [] → (s.gate g).parked = [] →
      (s.gate g).wcb = [] → (s.gate g).poison.length < 256 → (s.gate g).mqWait = [] →
      ∃ t, exec (.mrD p) s = .next t ∧ (t.gate g).poison = (s.gate g).poison.set blk 0 ∧
        (t.gate g).ccache = (s.gate g).ccache ∧ OnlyIn [.pool, .net, .flt] s t) ∧
    (s.AnswersReq .mrAck p r → r.ctx = .gateMac g blk → p.status = 0 → ((s.gate g).ccache.get ({}, false) blk).2 = false →
      (s.gate g).mqWait = [] →
      ∃ t, exec (.mrAck p) s = .next t ∧ t.gate g = { s.gate g with ccache := (s.gate g).ccache.del blk } ∧
        (∀ j, j ≠ g → t.gate j = s.gate j) ∧
        t.net.outst = s.net.outst.filter (fun x => !(x.unit == r.unit && x.tag == r.tag)) ∧ OnlyIn [.pool, .net] s t) ∧
    (∀ u a, s.AnswersReq .mrAck p r → r.ctx = .gateEvict g blk → g < 16 → s.parentAt false 0 (s.leafOf blk) = (u, a) →
      (s.gate g).mqWait = [] → s.mqRoom g u = true →
      ∃ t, exec (.mrAck p) s = .next t ∧
        (∃ x ∈ t.net.outst, x.ctx = .gateMac g blk ∧ x.pkt.op = .mqMac ∧ x.pkt.dest = u ∧
          x.pkt.addr = a + 8 * (s.leafOf blk % 8) ∧
          x.pkt.data = [putMac 0 (s.leafOf blk % 8)
            (s.nodeMac 0 (s.leafOf blk) (packCtr ((s.gate g).ccache.get ({}, false) blk).1))]) ∧ OnlyIn [.net] s t) ∧
    (∀ level, s.AnswersReq .mrD p r → r.ctx = .gateMeta g blk level → p.ep = false → p.status = 0 →
      exec (.mrD p) s = .next
        (((((s.take p).countResponse r p true).endReq r.unit r.tag).pumpNodes g).walkStep g blk level (p.data.headD 0))) ∧
    (∀ l, s.AnswersReq .mrD p r → r.ctx = .gateOwn g l → p.ep = false → p.status = 0 →
      exec (.mrD p) s = .next (((((s.take p).countResponse r p true).endReq r.unit r.tag).pumpNodes g).takeOwn g l (p.data.headD 0))) ∧
    (s.AnswersReq .mrD p r → r.ctx = .gateTier g blk → exec (.mrD p) s = .next ((s.take p).countResponse r p false)) ∧
    (s.AnswersReq .mrAck p r → r.ctx = .gateTier g blk →
      exec (.mrAck p) s = .next
        (((((s.take p).countResponse r p true).endReq r.unit r.tag).modWalk g blk (fun w => { w with tier := false })).drainBlock
          g blk true)) ∧
    (s.AnswersReq .mrAck p r → r.ctx = .gateEvict g blk →
      exec (.mrAck p) s = .next (((((s.take p).countResponse r p true).endReq r.unit r.tag).pumpNodes g).sendMac g blk)) ∧
    (∀ l, s.AnswersReq .mrAck p r → r.ctx = .gateOwn g l →
      exec (.mrAck p) s = .next (((((s.take p).countResponse r p true).endReq r.unit r.tag).pumpNodes g).loseOwn g l)) ∧
    (∀ line, s.AnswersReq .mrAck p r → r.ctx = .gateFill g line →
      exec (.mrAck p) s = .next (((s.take p).countResponse r p true).endReq r.unit r.tag))

/-- Locks, the write-combining buffer and re-encryption (R124, R125, R138, R140, R141, R143, R260, R322): an expired lock is released
with its line unchanged; a line that has stayed its time leaves the buffer, sealed under its next minor value where the minor has one; a
block whose reads are done is sealed under its next major value; a raised block's remaining reads join the foreground; a freed staging
buffer takes the oldest waiting line. -/
def Obligations.GateTimersAndReencryptionComplete : Prop :=
  ∀ (s : State) (g : Nat),
    ((s.gate g).parked = [] → (s.gate g).walks = [] → (s.gate g).mqWait = [] →
      (∀ line, (∃ k ∈ (s.gate g).locks, k.line = line) →
        ∃ t, exec (.lockExpiry g line) s = .next t ∧
          t.gate g = { s.gate g with locks := (s.gate g).locks.filter (fun k => k.line != line) } ∧
          (∀ j, j ≠ g → t.gate j = s.gate j) ∧ OnlyIn [.pool] s t) ∧
      (∀ line w c, s.wcbFind g line = some w → w.waiting = false → w.bad = false → (s.gate g).retired = false →
        s.ctrHeld g (line / 64) = some c → c.gen = s.genOf line → c.minors.get 0 (line % 64) < 127 → s.tierLimit (g / 4) w.slot ≠ 0 →
        ∃ t, exec (.wcbResidencyExpiry g line) s = .next t ∧ (t.gate g).wcb = (s.gate g).wcb.filter (fun w => w.line != line) ∧
          t.ctrHeld g (line / 64) = some { c with minors := c.minors.set (line % 64) (c.minors.get 0 (line % 64) + 1) } ∧
          Issues s t (.gateFill g line) (fun a => a.op = .tierFill ∧ a.dest = stackUnit (g / 4) ∧ a.addr = 64 * line ∧ a.ctx = w.slot ∧
            a.data = [cipher (s.slot w.slot).key (s.slotGlove w.slot) c.gen (s.basketLine line) c.major
              (c.minors.get 0 (line % 64) + 1) w.data]) ∧
          (∀ j, j ≠ g → t.gate j = s.gate j) ∧ OnlyIn [.pool, .net] s t) ∧
      (∀ r w c block, (s.gate g).reencs = [r] → r.block = block → s.ctrHeld g block = some c → s.wcbFind g r.line = some w →
        ∃ t, exec (.reencPhaseADone g block) s = .next t ∧ (t.gate g).reencs = [] ∧
          (∀ x ∈ (t.gate g).wcb, x.line / 64 ≠ block) ∧ (t.gate g).reencCount = ((s.gate g).reencCount + 1) % 2 ^ 32) ∧
      (∀ w c, (s.gate g).reencs = [] → (s.gate g).wcb = [w] → w.waiting = true → s.ctrHeld g (w.line / 64) = some c →
        ∃ t, exec (.stagingBufferFreed g) s = .next t ∧ (t.gate g).reencs = [⟨w.line / 64, w.line, false, 63⟩] ∧
          (t.gate g).wcb = [w] ∧ (∀ j, j ≠ g → t.gate j = s.gate j) ∧ OnlyIn [.pool] s t)) ∧
    (∀ r block, (s.gate g).reencs = [r] → r.block = block → r.raised = false →
      exec (.reencRaiseClass g block) s = .next (s.modGate g (fun x =>
        { x with
          reencs := [{ r with raised := true, left := 0 }]
          fg := x.fg ++ (List.range r.left).map (fun d => ⟨s.lineAddr (64 * block + d), none⟩) }))) ∧
    (∀ line, (∃ k ∈ (s.gate g).locks, k.line = line) →
      exec (.lockExpiry g line) s = .next ((s.modGate g (fun x => { x with locks := x.locks.filter (fun k => k.line != line) })).unpark g)) ∧
    (∀ line w, s.wcbFind g line = some w → w.waiting = false →
      exec (.wcbResidencyExpiry g line) s = .next ((s.wcbLeave g w).unpark g)) ∧
    (∀ r c w block, (s.gate g).reencs.find? (fun r => r.block == block) = some r → s.ctrHeld g block = some c →
      s.wcbFind g r.line = some w →
      exec (.reencPhaseADone g block) s = .next ((s.reencrypt g block w.slot c).unpark g)) ∧
    (∀ r block, (s.gate g).reencs.find? (fun r => r.block == block && !r.raised) = some r →
      exec (.reencRaiseClass g block) s = .next (s.modGate g (fun x =>
        { x with
          reencs := x.reencs.map (fun r => if r.block == block then { r with raised := true, left := 0 } else r)
          fg := x.fg ++ (List.range r.left).map (fun d => ⟨s.lineAddr (64 * block + d), none⟩) }))) ∧
    (∀ w c, (s.gate g).reencs.length < 4 →
      (s.gate g).wcb.find? (fun w => w.waiting && !(s.gate g).reencs.any (fun r => r.block == w.line / 64)) = some w →
      s.ctrHeld g (w.line / 64) = some c → exec (.stagingBufferFreed g) s = .next ((s.startReenc g w c).unpark g))

/-- Device-initiated traffic at the Cuff (R90, R310, R311, R313, R325, R326, R327): the first TLP that may go is transmitted, and
nothing happens where none may; a write's last one is acknowledged; data that complete a request return on the Weave with EP for
poisoned data; a failed or late completion ends it with its code; an unexpected one is counted; one that fails its IDE check takes the
stream out. Where a clause fixes what the spec leaves open it is the model's choice (log entries 34, 83). -/
def Obligations.DeviceInitiatedTransfersComplete : Prop :=
  (∀ (s : State) (l fn a : Nat) (d : List (Option Byte)) (p : Packet) (last : Bool), s.awake = true → (s.link l).up = true →
    (s.link l).txq.find? (s.eligible l) = some (.memWr fn a d p last) → p.op = .memWr → p.ackReq = true →
    ∃ t, exec (.cuffTxDequeue l) s = .next t ∧
      t.link l = { s.link l with txq := eraseFirst (· == .memWr fn a d p last) (s.link l).txq } ∧ (∀ j, j ≠ l → t.link j = s.link j) ∧
      t.out = s.out ++ [.memWr l fn a d (s.tlpAttr l (.memWr fn a d p last))] ∧
      (last = true → Sends t (fun x => x.op = .ack ∧ x.dest = p.initUnit ∧ x.tag = p.tag ∧ x.status = 0)) ∧
      (last = false → t.net = s.net) ∧ OnlyIn [.host, .out, .net] s t) ∧
  (∀ (s : State) (l fn a n tag : Nat) (p : Packet), s.awake = true → (s.link l).up = true →
    (s.link l).txq.find? (s.eligible l) = some (.memRd fn a n p) → s.hostTag ⟨l, fn⟩ = some tag →
    ∃ t, exec (.cuffTxDequeue l) s = .next t ∧
      t.link l = { s.link l with
        txq := eraseFirst (· == .memRd fn a n p) (s.link l).txq, reqs := (s.link l).reqs ++ [⟨fn, tag, a, n, p⟩] } ∧
      (∀ j, j ≠ l → t.link j = s.link j) ∧ t.out = s.out ++ [.memRd l fn a n tag (s.tlpAttr l (.memRd fn a n p))] ∧ OnlyIn [.host, .out] s t) ∧
  (∀ (s : State) (c : HostCpl) (r : HostReq) (d : DevReq) (n : Nat), s.awake = true → (s.link c.link).up = true → c.ide = none →
    (s.link c.link).reqs = [r] → r.fn = c.fn → r.tag = c.tag → (s.link c.link).devReqs = [d] → d.pkt = r.pkt → d.left = 1 →
    (s.link c.link).txq = [] → r.pkt.lines = [n] → r.pkt.op = .memRd →
    (c.status = .sc → r.len ≤ c.data.length →
      ∃ t, exec (.hostCompletion c) s = .next t ∧ t.link c.link = { s.link c.link with reqs := [], devReqs := [] } ∧
        (∀ j, j ≠ c.link → t.link j = s.link j) ∧
        Sends t (fun x => x.op = .cplD ∧ x.dest = r.pkt.initUnit ∧ x.tag = r.pkt.tag ∧ x.status = 0 ∧ x.ep = (d.ep || c.ep)) ∧
        OnlyIn [.host, .net] s t) ∧
    (c.status = .sc → c.data.length < r.len →
      ∃ t, exec (.hostCompletion c) s = .next t ∧ t.link c.link = { s.link c.link with
        reqs := [{ r with addr := r.addr + c.data.length, len := r.len - c.data.length }]
        devReqs := [{ d with got := d.got ++ [(r.addr, c.data)], ep := d.ep || c.ep }] } ∧
        (∀ j, j ≠ c.link → t.link j = s.link j) ∧ OnlyIn [.host] s t) ∧
    (c.status ≠ .sc →
      ∃ t, exec (.hostCompletion c) s = .next t ∧ t.link c.link = { s.link c.link with reqs := [], devReqs := [] } ∧
        (∀ j, j ≠ c.link → t.link j = s.link j) ∧
        Sends t (fun x => x.op = .cpl ∧ x.dest = r.pkt.initUnit ∧ x.tag = r.pkt.tag ∧ x.status = 0x0034) ∧ OnlyIn [.host, .net] s t) ∧
    (∃ t, exec (.hostCplTimeout c.link r.pkt.initUnit r.pkt.tag) s = .next t ∧
      t.link c.link = { s.link c.link with timeouts := min 65535 ((s.link c.link).timeouts + 1), reqs := [], devReqs := [] } ∧
      t.fn ⟨c.link, r.pkt.fn⟩ = (s.fn ⟨c.link, r.pkt.fn⟩).logAer .completionTimeout none ∧
      (∀ j, j ≠ c.link → t.link j = s.link j) ∧
      Sends t (fun x => x.op = .cpl ∧ x.dest = r.pkt.initUnit ∧ x.tag = r.pkt.tag ∧ x.status = 0x0033) ∧ OnlyIn [.host, .net] s t)) ∧
  (∀ (s : State) (c : HostCpl), s.awake = true → (s.link c.link).up = true → c.ide = none →
    (∀ r ∈ (s.link c.link).reqs, r.fn = c.fn → r.tag ≠ c.tag) →
    ∃ t, exec (.hostCompletion c) s = .next t ∧
      t.link c.link = { s.link c.link with unexpected := min 65535 ((s.link c.link).unexpected + 1) } ∧
      (∀ j, j ≠ c.link → t.link j = s.link j) ∧
      t.fn ⟨c.link, 0⟩ = (s.fn ⟨c.link, 0⟩).logAer .unexpectedCompletion (some { cplHead c with flit := (s.link c.link).flit }) ∧
      OnlyIn [.host] s t) ∧
  (∀ (s : State) (l : Nat),
    (s.awake = false ∨ (s.link l).up = false ∨ (s.link l).txq.find? (s.eligible l) = none → exec (.cuffTxDequeue l) s = .next s)) ∧
  (∀ (s : State) (c : HostCpl) (r : HostReq), s.awake = true → (s.link c.link).up = true → (∀ i, c.ide = some i → i.ok = true) →
    (s.link c.link).reqs.find? (fun r => r.fn == c.fn && r.tag == c.tag) = some r →
    (c.status ≠ .sc → exec (.hostCompletion c) s = .next (s.endDev c.link r.pkt 0x0034)) ∧
    (c.status = .sc → c.data.length < r.len → (∀ d ∈ (s.link c.link).devReqs, samePkt d.pkt r.pkt = true → d.left ≠ 0) →
      exec (.hostCompletion c) s = .next (s.modLink c.link (fun x => { x with
        reqs := x.reqs.map (fun q => if q == r then { r with addr := r.addr + c.data.length, len := r.len - c.data.length } else q)
        devReqs := x.devReqs.map (fun d => if samePkt d.pkt r.pkt then
          { d with got := d.got ++ [(r.addr, c.data)], ep := d.ep || c.ep } else d) }))) ∧
    (∀ d, c.status = .sc → r.len ≤ c.data.length →
      ((s.link c.link).devReqs.map (fun d => if samePkt d.pkt r.pkt then
        { d with got := d.got ++ [(r.addr, c.data.take r.len)], left := d.left - 1, ep := d.ep || c.ep } else d)).find?
          (fun d => samePkt d.pkt r.pkt) = some d →
      exec (.hostCompletion c) s = .next (
        let s' := s.modLink c.link (fun x => { x with
          reqs := x.reqs.filter (· != r)
          devReqs := x.devReqs.map (fun d => if samePkt d.pkt r.pkt then
            { d with got := d.got ++ [(r.addr, c.data.take r.len)], left := d.left - 1, ep := d.ep || c.ep } else d) })
        if d.left == 0 then s'.devDone c.link d else s'))) ∧
  (∀ (s : State) (c : HostCpl) (i : IdeMark), s.awake = true → (s.link c.link).up = true → c.ide = some i → i.ok = false →
    exec (.hostCompletion c) s = .next (s.ideFail c.link i.stream (cplHead c))) ∧
  (∀ (s : State) (l unit tag : Nat),
    ((s.link l).devReqs.find? (fun d => d.pkt.initUnit == unit && d.pkt.tag == tag) = none →
      exec (.hostCplTimeout l unit tag) s = .next s) ∧
    (∀ d, (s.link l).devReqs.find? (fun d => d.pkt.initUnit == unit && d.pkt.tag == tag) = some d →
      exec (.hostCplTimeout l unit tag) s = .next
        (((s.modLink l (fun x => { x with timeouts := min 65535 (x.timeouts + 1) })).aer ⟨l, d.pkt.fn⟩ .completionTimeout).endDev
          l d.pkt 0x0033)))

/-- Host messages in the event gatherer (R495, R498, R521): a request is issued at once in an idle group, waits in a group whose
hold-off runs, and joins one that is due; the hold-off's end issues every vector that is due; the message joins its Cuff's queue once
its packet has its turn, wakes a Cuff whose domain is not on, and is reported where the Cuff is fenced. A request for a vector that the
function does not have leaves the gatherer. -/
def Obligations.MessageModerationCommandsComplete : Prop :=
  ∀ (s : State) (f : FnId) (vec : Nat), s.awake = true → s.fnEnabled f = true → vec < vectorsOf f →
    ((s.group f (vec / 8)).running = false → (s.group f (vec / 8)).due = 0 →
      ∃ t, exec (.event f vec) s = .next t ∧ t.net.msgReqs = s.net.msgReqs ++ [(f, vec)] ∧
        t.net.events = eraseFirst (· == (f, vec)) s.net.events ∧
        t.group f (vec / 8) = { s.group f (vec / 8) with due := 0, running := decide (0 < (s.group f (vec / 8)).holdoff) } ∧
        (∀ j, j.key ≠ f.key → t.fn j = s.fn j) ∧ OnlyIn [.host, .net] s t) ∧
    ((s.group f (vec / 8)).running = true → (s.group f (vec / 8)).due &&& BitVec.ofNat 8 (2 ^ (vec % 8)) = 0 →
      ∃ t, exec (.event f vec) s = .next t ∧ t.net.msgReqs = s.net.msgReqs ∧
        t.group f (vec / 8) = { s.group f (vec / 8) with
          due := (s.group f (vec / 8)).due ||| BitVec.ofNat 8 (2 ^ (vec % 8)) } ∧
        (∀ j, j.key ≠ f.key → t.fn j = s.fn j) ∧ OnlyIn [.host, .net] s t) ∧
    ((s.group f (vec / 8)).running = true → (s.group f (vec / 8)).due &&& BitVec.ofNat 8 (2 ^ (vec % 8)) ≠ 0 →
      ∃ t, exec (.event f vec) s = .next t ∧ t.net.msgReqs = s.net.msgReqs ∧
        t.fn f = { s.fn f with coalesced := ((s.fn f).coalesced + 1) % 2 ^ 32 } ∧ OnlyIn [.host, .net] s t) ∧
    ((s.group f (vec / 8)).running = true → (s.group f (vec / 8)).due = BitVec.ofNat 8 (2 ^ (vec % 8)) →
      ∃ t, exec (.moderationTimerExpiry f (vec / 8)) s = .next t ∧ t.net.msgReqs = s.net.msgReqs ++ [(f, vec)] ∧
        t.group f (vec / 8) = { s.group f (vec / 8) with due := 0, running := decide (0 < (s.group f (vec / 8)).holdoff) } ∧
        OnlyIn [.host, .net] s t) ∧
    ((s.group f (vec / 8)).running = true → (s.group f (vec / 8)).due = 0 →
      ∃ t, exec (.moderationTimerExpiry f (vec / 8)) s = .next t ∧
        t.group f (vec / 8) = { s.group f (vec / 8) with running := false } ∧ OnlyIn [.host] s t) ∧
    (s.waitsTurn (msgPacket f vec) = false → s.fenced (cuffUnit (f.link / 2)) = false → s.unitOn (cuffUnit (f.link / 2)) = true →
      ∃ t, exec (.msgReq f vec) s = .next t ∧ t.net.msgReqs = eraseFirst (· == (f, vec)) s.net.msgReqs ∧
        t.host = { s.host with msgs := s.host.msgs ++ [(f, vec)] } ∧ OnlyIn [.host, .net] s t) ∧
    (s.waitsTurn (msgPacket f vec) = false → s.fenced (cuffUnit (f.link / 2)) = true →
      ∃ t, exec (.msgReq f vec) s = .next t ∧ t.net.msgReqs = eraseFirst (· == (f, vec)) s.net.msgReqs ∧
        t.net.reports = s.net.reports ++ [mkFault 1 .contained 0x0702 (cuffUnit (f.link / 2)) 0 none] ∧ OnlyIn [.net] s t) ∧
    ((s.group f (vec / 8)).running = false → (s.group f (vec / 8)).due &&& BitVec.ofNat 8 (2 ^ (vec % 8)) = 0 →
      exec (.event f vec) s = .next (({ s with net.events := eraseFirst (· == (f, vec)) s.net.events }.modGroup f (vec / 8)
        (fun x => { x with due := x.due ||| BitVec.ofNat 8 (2 ^ (vec % 8)) })).issueGroup f (vec / 8))) ∧
    ((s.group f (vec / 8)).running = true → (s.group f (vec / 8)).due ≠ 0 →
      exec (.moderationTimerExpiry f (vec / 8)) s = .next
        ((s.modGroup f (vec / 8) (fun x => { x with running := false })).issueGroup f (vec / 8))) ∧
    (s.waitsTurn (msgPacket f vec) = true → exec (.msgReq f vec) s = .next s) ∧
    (s.waitsTurn (msgPacket f vec) = false → s.fenced (cuffUnit (f.link / 2)) = false → s.unitOn (cuffUnit (f.link / 2)) = false →
      exec (.msgReq f vec) s = .next (s.wake (unitDomain (cuffUnit (f.link / 2))) (unitWanter gathererUnit))) ∧
    (∀ v, vectorsOf f ≤ v →
      exec (.event f v) s = .next { s with net.events := eraseFirst (· == (f, v)) s.net.events })

/-- Host messages at the Cuff (R341, R498, R499, R501, R505-R507): at its commit point a message is transmitted with the address and
data of its vector while the conditions of R341 hold, from whatever power state its link is in, and becomes pending otherwise, with a
PME in D3hot or with MSI-X disabled; a pending vector is sent once they hold again; a Mask write acts where the MSI-X table or the
configuration space is open, and nowhere else. -/
def Obligations.MessageDeliveryCommandsComplete : Prop :=
  (∀ (s : State) (f : FnId) (vec : Nat), s.awake = true → (s.link f.link).power = .l0 →
    ((f, vec) ∈ s.host.msgs → vec ∉ (s.fn f).pba → s.canSend f vec = true →
      ∃ t, exec (.msixCommit f vec) s = .next t ∧
        t.out = s.out ++ [.msix f.link f.fn vec ((s.fn f).msix.get {} vec).addr ((s.fn f).msix.get {} vec).data] ∧
        t.fn f = { s.fn f with sent := ((s.fn f).sent + 1) % 2 ^ 32 } ∧ (∀ j, j.key ≠ f.key → t.fn j = s.fn j) ∧
        t.host.msgs = eraseFirst (· == (f, vec)) s.host.msgs ∧ OnlyIn [.host, .out] s t) ∧
    ((f, vec) ∈ s.host.msgs → vec ∈ (s.fn f).pba →
      ∃ t, exec (.msixCommit f vec) s = .next t ∧
        t.fn f = { s.fn f with coalesced := ((s.fn f).coalesced + 1) % 2 ^ 32 } ∧
        t.host.msgs = eraseFirst (· == (f, vec)) s.host.msgs ∧ t.out = s.out ∧ OnlyIn [.host] s t) ∧
    ((f, vec) ∈ s.host.msgs → vec ∉ (s.fn f).pba → s.canSend f vec = false → (s.fn f).d3 = false → (s.fn f).msixEnable = true →
      (s.link f.link).wake = false →
      ∃ t, exec (.msixCommit f vec) s = .next t ∧ t.fn f = { s.fn f with pba := (s.fn f).pba ++ [vec] } ∧ t.out = s.out ∧
        t.host.msgs = eraseFirst (· == (f, vec)) s.host.msgs ∧ OnlyIn [.host] s t) ∧
    ((f, vec) ∈ s.host.msgs → vec ∉ (s.fn f).pba → (s.fn f).d3 = true → (s.fn f).pmeEn = true → (s.fn f).pmeStatus = false →
      (s.link f.link).up = true → (s.link f.link).wake = false →
      ∃ t, exec (.msixCommit f vec) s = .next t ∧
        t.fn f = { s.fn f with pba := (s.fn f).pba ++ [vec], pmePending := true, pmeStatus := true } ∧
        t.out = s.out ++ [.pme f.link f.fn] ∧ OnlyIn [.host, .out] s t) ∧
    (vec ∈ (s.fn f).pba → s.canSend f vec = true →
      ∃ t, exec (.pendingVectorSend f vec) s = .next t ∧
        t.out = s.out ++ [.msix f.link f.fn vec ((s.fn f).msix.get {} vec).addr ((s.fn f).msix.get {} vec).data] ∧
        t.fn f = { s.fn f with pba := (s.fn f).pba.filter (· != vec), sent := ((s.fn f).sent + 1) % 2 ^ 32 } ∧
        OnlyIn [.host, .out] s t) ∧
    (∀ v, s.bar0On f = true → vec < vectorsOf f →
      ∃ t, exec (.msixMaskWrite f (.vector vec) v) s = .next t ∧
        (t.fn f).msix.get {} vec = { (s.fn f).msix.get {} vec with mask := v } ∧ (t.fn f).fnMask = (s.fn f).fnMask ∧
        OnlyIn [.host] s t) ∧
    (∀ v, s.cfgOpen f = true →
      ∃ t, exec (.msixMaskWrite f .function v) s = .next t ∧ t.fn f = { s.fn f with fnMask := v } ∧ OnlyIn [.host] s t) ∧
    (∀ v, s.bar0On f = false ∨ vectorsOf f ≤ vec → exec (.msixMaskWrite f (.vector vec) v) s = .next s) ∧
    (∀ v, s.cfgOpen f = false → exec (.msixMaskWrite f .function v) s = .next s) ∧
    ((f, vec) ∉ s.host.msgs → exec (.msixCommit f vec) s = .next s) ∧
    (vec ∉ (s.fn f).pba ∨ s.canSend f vec = false → exec (.pendingVectorSend f vec) s = .next s)) ∧
  (∀ (s : State) (f : FnId) (vec : Nat), s.awake = true →
    ((f, vec) ∈ s.host.msgs → vec ∉ (s.fn f).pba → s.canSend f vec = true →
      exec (.msixCommit f vec) s = .next ({ s with host.msgs := eraseFirst (· == (f, vec)) s.host.msgs }.transmitMsi f vec)) ∧
    ((f, vec) ∈ s.host.msgs → vec ∉ (s.fn f).pba → s.canSend f vec = false → ((s.fn f).d3 = true ∨ (s.fn f).msixEnable = false) →
      exec (.msixCommit f vec) s = .next (({ s with host.msgs := eraseFirst (· == (f, vec)) s.host.msgs }.modFn f (fun x =>
        { x with pba := x.pba ++ [vec], pmePending := x.pmePending || x.d3 })).sendPme f)) ∧
    ((f, vec) ∈ s.host.msgs → vec ∉ (s.fn f).pba → s.canSend f vec = false → (s.fn f).d3 = false → (s.fn f).msixEnable = true →
      exec (.msixCommit f vec) s = .next (({ s with host.msgs := eraseFirst (· == (f, vec)) s.host.msgs }.modFn f (fun x =>
        { x with pba := x.pba ++ [vec] })).wakeUpdate f.link)) ∧
    (vec ∈ (s.fn f).pba → s.canSend f vec = true →
      exec (.pendingVectorSend f vec) s = .next
        ((s.modFn f (fun x => { x with pba := x.pba.filter (· != vec) })).transmitMsi f vec)))

/-- Function resets (R57, R58, R93, R299, R332-R334, R510): an FLR, or VF Enable falling, returns the function's registers to their
reset values, ends its queues and its TDI and keeps its sticky PME and AER registers; NumVFs and VF Enable set which VFs appear, and a
NumVFs above the link's VFs, or changed under VF Enable, is rejected. Where configuration requests do not complete nothing changes.
Where a clause fixes what the spec leaves open it is the model's choice (log entry 15). -/
def Obligations.FunctionResetCommandsComplete : Prop :=
  (∀ (s : State) (f : FnId), s.cfgOpen f = true → 0 < f.fn →
    ∃ t, exec (.flrStart f) s = .next t ∧
      t.fn f = { pmeEn := (s.fn f).pmeEn, pmeStatus := (s.fn f).pmeStatus, aer := (s.fn f).aer, aerHead := (s.fn f).aerHead
                 aerMask := (s.fn f).aerMask, aerFatal := (s.fn f).aerFatal, flr := true } ∧
      (∀ q : QId, q.fnId = f → q.q < 128 → t.queue q = {}) ∧
      t.glove (s.gloveOf f) = { s.glove (s.gloveOf f) with tdi := .unlocked, stream := none } ∧
      (∀ g, g ≠ s.gloveOf f → t.glove g = s.glove g) ∧ (∀ l, l ≠ f.link → t.link l = s.link l) ∧
      OnlyIn [.host, .work, .net, .trust, .usg] s t) ∧
  (∀ (s : State) (l : Nat), s.cfgOpen ⟨l, 0⟩ = true →
    ∃ t, exec (.flrStart ⟨l, 0⟩) s = .next t ∧ (t.fn ⟨l, 0⟩).flr = true ∧ (t.fn ⟨l, 0⟩).bme = false ∧
      (∀ n, 0 < n → n ≤ (s.range l).2 → (t.fn ⟨l, n⟩).bme = false ∧ (t.glove (s.gloveOf ⟨l, n⟩)).tdi = .unlocked) ∧
      (t.link l).vfEnable = false ∧ (t.link l).numVfs = 0 ∧ (t.link l).vfBar0 = 0 ∧ (t.link l).vfBar2 = 0 ∧
      (t.link l).sessions = [] ∧ (∀ j, j ≠ l → t.link j = s.link j) ∧ OnlyIn [.host, .work, .net, .trust] s t) ∧
  (∀ (s : State) (f : FnId), ∃ t, exec (.flrComplete f) s = .next t ∧ t.fn f = { s.fn f with flr := false } ∧
    (∀ j, j.key ≠ f.key → t.fn j = s.fn j) ∧ (∀ l, t.link l = s.link l) ∧ OnlyIn [.host] s t) ∧
  (∀ (s : State) (l : Nat), s.cfgOpen ⟨l, 0⟩ = true → (s.link l).vfEnable = true →
    ∃ t, exec (.vfEnableClear l) s = .next t ∧ (t.link l).vfEnable = false ∧
      (∀ n, 0 < n → n ≤ (s.range l).2 → t.fn ⟨l, n⟩ =
        { pmeEn := (s.fn ⟨l, n⟩).pmeEn, pmeStatus := (s.fn ⟨l, n⟩).pmeStatus, aer := (s.fn ⟨l, n⟩).aer, aerHead := (s.fn ⟨l, n⟩).aerHead
          aerMask := (s.fn ⟨l, n⟩).aerMask, aerFatal := (s.fn ⟨l, n⟩).aerFatal } ∧
        (t.glove (s.gloveOf ⟨l, n⟩)).tdi = .unlocked) ∧
      (∀ j, j ≠ l → t.link j = s.link j) ∧ OnlyIn [.host, .work, .net, .trust] s t) ∧
  (∀ (s : State) (l : Nat), s.cfgOpen ⟨l, 0⟩ = true →
    exec (.vfEnableSet l) s = .next (s.modLink l (fun x => { x with vfEnable := true })) ∧
    (∀ v, (s.range l).2 < v → exec (.numvfsWrite l v) s = .next (s.reject ⟨l, 0⟩ 0x0003 2 0x190)) ∧
    (∀ v, v ≤ (s.range l).2 → (s.link l).vfEnable = false →
      exec (.numvfsWrite l v) s = .next (s.modLink l (fun x => { x with numVfs := v }))) ∧
    (∀ v, v ≤ (s.range l).2 → (s.link l).vfEnable = true → v ≠ (s.link l).numVfs →
      exec (.numvfsWrite l v) s = .next (s.reject ⟨l, 0⟩ 0x0002 2 0x190))) ∧
  (∀ (s : State) (l v : Nat), s.cfgOpen ⟨l, 0⟩ = true → (s.link l).vfEnable = true → v = (s.link l).numVfs → v ≤ (s.range l).2 →
    exec (.numvfsWrite l v) s = .next (s.modLink l (fun x => { x with numVfs := v }))) ∧
  (∀ (s : State) (l : Nat), s.cfgOpen ⟨l, 0⟩ = true → (s.link l).vfEnable = false → exec (.vfEnableClear l) s = .next s) ∧
  (∀ (s : State) (f : FnId), s.cfgOpen f = false → exec (.flrStart f) s = .next s) ∧
  (∀ (s : State) (l v : Nat), s.cfgOpen ⟨l, 0⟩ = false →
    exec (.vfEnableSet l) s = .next s ∧ exec (.vfEnableClear l) s = .next s ∧ exec (.numvfsWrite l v) s = .next s)

/-- BARs (R94, R180-R191): a written BAR takes its aligned address; a size of VF BAR2 that the link can have takes effect while VF
Memory Space Enable is clear and is rejected otherwise; a change of a VF BAR moves every locked or running TDI of the link to ERROR; the
read-only fields, and every BAR where configuration requests do not complete, stay as they are. Where a clause fixes what the spec
leaves open it is the model's choice (log entry 16). -/
def Obligations.BarCommandsComplete : Prop :=
  (∀ (s : State) (l v : Nat), s.cfgOpen ⟨l, 0⟩ = true →
    (
      exec (.barWrite l .bar0 v) s = .next (s.modFn ⟨l, 0⟩ (fun y => { y with bar0 := v % 2 ^ 64 / 0x4000000 * 0x4000000 })) ∧
      (∃ t, exec (.barWrite l .vfBar0 v) s = .next t ∧ (t.link l).vfBar0 = v % 2 ^ 32 / 0x100000 * 0x100000 ∧
        (∀ j, j ≠ l → t.link j = s.link j) ∧ (∀ f, (t.fn f).bar0 = (s.fn f).bar0) ∧
        ((t.link l).vfBar0 ≠ (s.link l).vfBar0 →
          ∀ g ∈ s.glovesOf l, ((s.glove g).tdi = .locked ∨ (s.glove g).tdi = .run) → (t.glove g).tdi = .error)) ∧
      (∃ t, exec (.barWrite l .vfBar2 v) s = .next t ∧ (t.link l).vfBar2 = v % 2 ^ 64 / 2 ^ (s.link l).vfSize * 2 ^ (s.link l).vfSize ∧
        (∀ j, j ≠ l → t.link j = s.link j) ∧
        ((t.link l).vfBar2 ≠ (s.link l).vfBar2 →
          ∀ g ∈ s.glovesOf l, ((s.glove g).tdi = .locked ∨ (s.glove g).tdi = .run) → (t.glove g).tdi = .error)) ∧
      exec (.barWrite l .vfStride v) s = .next s ∧ (∀ n, exec (.barWrite l (.msixTable n) v) s = .next s)) ∧
    ((s.boot.cfg.bars.getD l (false, 21)).1 = true → v + 20 ≠ (s.link l).vfSize →
      ((s.link l).vfMse = false → 0 < v → v + 20 ≤ (s.boot.cfg.bars.getD l (false, 21)).2 →
        ∃ t, exec (.vfBarSizeWrite l v) s = .next t ∧ (t.link l).vfSize = v + 20 ∧
          (t.link l).vfBar2 = (s.link l).vfBar2 / 2 ^ (v + 20) * 2 ^ (v + 20) ∧ (∀ j, j ≠ l → t.link j = s.link j) ∧
          ∀ g ∈ s.glovesOf l, ((s.glove g).tdi = .locked ∨ (s.glove g).tdi = .run) → (t.glove g).tdi = .error) ∧
      ((s.link l).vfMse = true → exec (.vfBarSizeWrite l v) s = .next (s.reject ⟨l, 0⟩ 0x0002 2 0x338))) ∧
    ((s.boot.cfg.bars.getD l (false, 21)).1 = true → v + 20 ≠ (s.link l).vfSize →
      (v = 0 ∨ (s.boot.cfg.bars.getD l (false, 21)).2 < v + 20) →
      exec (.vfBarSizeWrite l v) s = .next (s.reject ⟨l, 0⟩ 0x0002 2 0x338)) ∧
    ((s.boot.cfg.bars.getD l (false, 21)).1 = false ∨ v + 20 = (s.link l).vfSize → exec (.vfBarSizeWrite l v) s = .next s)) ∧
  (∀ (s : State) (l v : Nat) (b : BarField), s.cfgOpen ⟨l, 0⟩ = false →
      exec (.barWrite l b v) s = .next s ∧ exec (.vfBarSizeWrite l v) s = .next s)

/-- Bus Master Enable and power states (R328-R331, R507, R508): clearing BME withdraws the queue manager's requests of which nothing is
transmitted and ends the others with their code; D3hot withdraws likewise and ends what came through a peer window; the withdrawn
requests are issued again when BME is set in D0, and when D0 returns with BME set. Where configuration requests do not complete, or the
state asked for is the present one, nothing changes. -/
def Obligations.BusMasterAndPowerStateCommandsComplete : Prop :=
  (∀ (s : State) (f : FnId), s.cfgOpen f = true →
    ((s.fn f).bme = true → (∀ i < 16, (s.finger ⟨f.link, f.fn, i⟩).state ≠ .running) → (s.link f.link).txq = [] →
      (s.link f.link).devReqs = [] →
      ∃ t, exec (.bmeClear f) s = .next t ∧ t.fn f = { s.fn f with bme := false } ∧ (∀ j, j.key ≠ f.key → t.fn j = s.fn j) ∧
        (∀ l, t.link l = s.link l) ∧ OnlyIn [.host] s t) ∧
    (∀ fn a n p, (s.fn f).bme = true → (∀ i < 16, (s.finger ⟨f.link, f.fn, i⟩).state ≠ .running) →
      (s.link f.link).txq = [.memRd fn a n p] → (s.link f.link).devReqs = [⟨p, [], 1, false⟩] → p.op = .memRd → p.fn = f.fn →
      unitKind p.initUnit = 3 →
      ∃ t, exec (.bmeClear f) s = .next t ∧ t.fn f = { s.fn f with bme := false } ∧ (t.link f.link).txq = [] ∧
        (t.link f.link).devReqs = [] ∧
        Sends t (fun x => x.op = .cpl ∧ x.dest = p.initUnit ∧ x.tag = p.tag ∧ x.status = 0x0031)) ∧
    ((s.link f.link).withdrawn = [] →
      ∃ t, exec (.bmeSet f) s = .next t ∧ t.fn f = { s.fn f with bme := true } ∧ (∀ j, j.key ≠ f.key → t.fn j = s.fn j) ∧
        (∀ l, t.link l = s.link l) ∧ OnlyIn [.host] s t) ∧
    (∀ p, (s.link f.link).withdrawn = [p] → p.fn = f.fn → p.link = f.link → p.op = .memRd → (s.fn f).d3 = false →
      (s.link f.link).up = true → s.viaWindow p = false → s.peerClosed p = false →
      ∃ t, exec (.bmeSet f) s = .next t ∧ (t.link f.link).withdrawn = [] ∧
        (∃ ts, (t.link f.link).txq = (s.link f.link).txq ++ ts ∧ (∀ x ∈ ts, x.pkt = p) ∧
          (t.link f.link).devReqs = (s.link f.link).devReqs ++ [{ pkt := p, left := ts.length }])) ∧
    ((s.fn f).d3 = false → (s.link f.link).txq = [] → (s.link f.link).devReqs = [] →
      ∃ t, exec (.d3hotEntry f) s = .next t ∧ t.fn f = { s.fn f with d3 := true, pmePending := false } ∧
        (∀ j, j.key ≠ f.key → t.fn j = s.fn j) ∧ (∀ l, t.link l = s.link l) ∧ OnlyIn [.host] s t) ∧
    ((s.fn f).d3 = true → (s.fn f).bme = false ∨ (s.link f.link).withdrawn = [] →
      ∃ t, exec (.d0Return f) s = .next t ∧ t.fn f = { s.fn f with d3 := false, pmePending := false } ∧
        (∀ j, j.key ≠ f.key → t.fn j = s.fn j) ∧ OnlyIn [.host, .out] s t) ∧
    ((s.fn f).bme = true →
      exec (.bmeClear f) s = .next ((fingersOf f).foldl (fun u i => u.fgStopCode i 0x0031)
        ((((s.modFn f (fun x => { x with bme := false })).withdraw f).dropReads f.link
            (fun p => p.fn == f.fn && !((s.modFn f (fun x => { x with bme := false })).withdraw f).isQmgr p &&
              ((s.modFn f (fun x => { x with bme := false })).withdraw f).unsent f.link p) 0x0031).dropPosted f.link
          (fun p => p.fn == f.fn && !((s.modFn f (fun x => { x with bme := false })).withdraw f).isQmgr p) 0x0031))) ∧
    (∀ fn a n p, (s.fn f).bme = true → (∀ i < 16, (s.finger ⟨f.link, f.fn, i⟩).state ≠ .running) →
      (s.link f.link).txq = [.memRd fn a n p] → (s.link f.link).devReqs = [⟨p, [], 1, false⟩] → p.fn = f.fn →
      s.isQmgr p = true → (s.tlpsOf p).length = 1 →
      ∃ t, exec (.bmeClear f) s = .next t ∧ t.fn f = { s.fn f with bme := false } ∧
        t.link f.link = { s.link f.link with txq := [], devReqs := [], withdrawn := (s.link f.link).withdrawn ++ [p] } ∧
        (∀ l, l ≠ f.link → t.link l = s.link l) ∧ OnlyIn [.host] s t) ∧
    ((s.fn f).d3 = false →
      exec (.bmeSet f) s = .next ((s.modFn f (fun x => { x with bme := true })).reissue f) ∧
      (∀ fn a n p, (s.link f.link).txq = [.memRd fn a n p] → (s.link f.link).devReqs = [⟨p, [], 1, false⟩] → p.fn = f.fn →
        s.isQmgr p = true → (s.tlpsOf p).length = 1 →
        ∃ t, exec (.d3hotEntry f) s = .next t ∧ t.fn f = { s.fn f with d3 := true, pmePending := false } ∧
          t.link f.link = { s.link f.link with txq := [], devReqs := [], withdrawn := (s.link f.link).withdrawn ++ [p] } ∧
          (∀ l, l ≠ f.link → t.link l = s.link l) ∧ OnlyIn [.host] s t) ∧
      exec (.d3hotEntry f) s = .next
        ((((s.modFn f (fun x => { x with d3 := true, pmePending := false })).withdraw f).dropReads f.link
            (fun p => (p.fn == f.fn && ((s.modFn f (fun x => { x with d3 := true, pmePending := false })).withdraw f).viaWindow p) &&
              ((s.modFn f (fun x => { x with d3 := true, pmePending := false })).withdraw f).unsent f.link p) 0x0031).dropPosted f.link
          (fun p => p.fn == f.fn && ((s.modFn f (fun x => { x with d3 := true, pmePending := false })).withdraw f).viaWindow p) 0x0031)) ∧
    ((s.fn f).d3 = true →
      exec (.bmeSet f) s = .next (s.modFn f (fun x => { x with bme := true })) ∧ exec (.d3hotEntry f) s = .next s ∧
      ((s.fn f).bme = true → exec (.d0Return f) s = .next
        (((s.modFn f (fun x => { x with d3 := false, pmePending := false })).wakeUpdate f.link).reissue f))) ∧
    ((s.fn f).bme = false → exec (.bmeClear f) s = .next s) ∧ ((s.fn f).d3 = false → exec (.d0Return f) s = .next s)) ∧
  (∀ (s : State) (f : FnId), s.cfgOpen f = false →
      exec (.bmeClear f) s = .next s ∧ exec (.bmeSet f) s = .next s ∧ exec (.d3hotEntry f) s = .next s ∧
      exec (.d0Return f) s = .next s)

/-- Host link events (R286, R289-R293, R333, R335, R342, R343, R505, R572): PERST#, a hot reset and the loss of the data link take the
link down and reset its functions; training brings it up with the rate and width that both ends support; a width with a retired lane is
asked down, by L0p where both ends advertise it and by Recovery otherwise; the host's Recovery, its L0p request and its power changes
are followed, and the error that the host recovers from is recorded. What the link's state does not allow changes nothing. -/
def Obligations.HostLinkEventsComplete : Prop :=
  ∀ (s : State) (l : Nat), s.linkExists l = true →
    (∀ c ∈ [Instr.perstAssert l, .dlDown l, .linkHotReset l], s.awake = true → (s.link l).up = true →
      ∃ t, exec c s = .next t ∧ (t.link l).up = false ∧ (t.link l).downs = min 65535 ((s.link l).downs + 1) ∧
        (t.link l).ltssm = (if c = .linkHotReset l then .hotReset else .detect) ∧
        (t.link l).perst = ((s.link l).perst || decide (c = .perstAssert l)) ∧ (t.link l).sessions = [] ∧
        (t.link l).numVfs = 0 ∧ (t.link l).vfEnable = false ∧ (∀ i ∈ (t.link l).ide, i.secure = false ∧ i.keys = []) ∧
        (t.fn ⟨l, 0⟩).bme = false ∧ (t.fn ⟨l, 0⟩).pmeEn = (s.fn ⟨l, 0⟩).pmeEn ∧ (∀ j, j ≠ l → (t.link j).up = (s.link j).up) ∧
        OnlyIn [.host, .work, .net, .trust, .usg, .evt, .out] s t) ∧
    (s.sys.aon = true →
      ∃ t, exec (.perstDeassert l) s = .next t ∧ (t.link l).perst = false ∧ (t.link l).ltssm = .detect ∧ (t.link l).wake = false ∧
        (∀ j, j ≠ l → t.link j = s.link j) ∧ OnlyIn [.host, .evt, .out] s t) ∧
    (∀ rate width flit l0p, s.awake = true → (s.link l).perst = false → (s.link l).dead = false →
      (s.lowFree l (s.trainWidth l width) = true ∨ s.topFree l (s.trainWidth l width) = true) →
      ∃ t, exec (.linkTrainedL0 l rate ⟨width, l0p⟩ flit) s = .next t ∧
        t.link l = { s.link l with
          up := true, ltssm := .l0, rate := s.trainRate l rate flit, width := s.trainWidth l width, flit := flit, l0p := l0p
          ready := true, power := .l0, reversed := !s.lowFree l (s.trainWidth l width), wantWidth := none } ∧
        (∀ j, j ≠ l → t.link j = s.link j) ∧ OnlyIn [.host, .evt, .pwr] s t) ∧
    (s.awake = true → (s.link l).up = true →
      exec (.hostRecoveryEntered ⟨l, none, none⟩) s = .next (s.modLink l (fun x =>
        { x with ltssm := .recovery, recoveries := min 65535 (x.recoveries + 1), wantWidth := none }))) ∧
    (∀ p, s.awake = true → (s.link l).up = true → p ≠ .l2 → (s.link l).wake = false →
      ∃ t, exec (.linkPowerStateChange l p) s = .next t ∧
        t.link l = { s.link l with power := p, ltssm := if p = .l0 then .l0 else .l1 } ∧
        (∀ j, j ≠ l → t.link j = s.link j) ∧ OnlyIn [.host, .evt, .pwr] s t) ∧
    (s.sys.aon = true →
      exec (.perstAssert l) s = .next ((s.modLink l (fun x => { x with perst := true })).loseLink l .detect)) ∧
    (∀ rate width flit l0p n, s.awake = true → (s.link l).perst = false → (s.link l).dead = false →
      s.lowFree l (s.trainWidth l width) = false → s.topFree l (s.trainWidth l width) = false → s.usableWidth l = some n →
      ∃ t, exec (.linkTrainedL0 l rate ⟨width, l0p⟩ flit) s = .next t ∧ (t.link l).up = true ∧
        (t.link l).rate = s.trainRate l rate flit ∧ (t.link l).width = s.trainWidth l width ∧ (t.link l).wantWidth = some n ∧
        (n ∈ l0p → (t.link l).ltssm = .l0 ∧ (t.link l).recoveries = (s.link l).recoveries) ∧
        (n ∉ l0p → (t.link l).ltssm = .recovery ∧ (t.link l).recoveries = min 65535 ((s.link l).recoveries + 1)) ∧
        (∀ j, j ≠ l → t.link j = s.link j) ∧ OnlyIn [.host, .evt, .pwr] s t) ∧
    (∀ e, s.awake = true → (s.link l).up = true →
      exec (.hostRecoveryEntered ⟨l, none, some e⟩) s = .next ((s.aer ⟨l, 0⟩ e).modLink l (fun x =>
        { x with ltssm := .recovery, recoveries := min 65535 (x.recoveries + 1), wantWidth := none }))) ∧
    (∀ w, s.awake = true → (s.link l).up = true → w ≤ s.laneCount l → (s.lowFree l w = true ∨ s.topFree l w = true) →
      exec (.hostRecoveryEntered ⟨l, some w, none⟩) s = .next ((s.modLink l (fun x => { x with ltssm := .l0 })).modLink l (fun x =>
        { x with width := w, reversed := !s.lowFree l w && s.topFree l w, wantWidth := none }))) ∧
    (∀ w e, s.awake = true → (s.link l).up = true → w ≤ s.laneCount l →
      exec (.hostRecoveryEntered ⟨l, some w, none⟩) s = .next ((s.modLink l (fun x => { x with ltssm := .l0 })).atWidth l w) ∧
      exec (.hostRecoveryEntered ⟨l, some w, some e⟩) s =
        .next (((s.aer ⟨l, 0⟩ e).modLink l (fun x => { x with ltssm := .l0 })).atWidth l w)) ∧
    (∀ w, s.awake = true → (s.link l).up = true → s.laneCount l < w → exec (.hostRecoveryEntered ⟨l, some w, none⟩) s = .next s) ∧
    (s.awake = true → (s.link l).up = true →
      ∃ t, exec (.linkPowerStateChange l .l2) s = .next t ∧ (t.link l).power = .l2 ∧ (t.link l).ltssm = .l2 ∧
        (t.link l).wake = s.host.fns.any (fun e => e.1 / 256 == l && e.2.hasPme) ∧ (∀ j, j ≠ l → t.link j = s.link j) ∧
        OnlyIn [.host, .evt, .pwr, .out] s t) ∧
    (∀ rate width flit l0p, (s.link l).perst = true ∨ (s.link l).dead = true →
      exec (.linkTrainedL0 l rate ⟨width, l0p⟩ flit) s = .next s) ∧
    ((s.link l).up = false → exec (.dlDown l) s = .next s ∧ exec (.linkHotReset l) s = .next s ∧
      (∀ a b, exec (.hostRecoveryEntered ⟨l, a, b⟩) s = .next s) ∧ (∀ p, exec (.linkPowerStateChange l p) s = .next s))

/-- Requests received from a host (R90, R183, R201, R224, R303-R308, R315, R316, R319, R320, R342): a request that a function takes goes
on to its BAR, waits for its table line or joins those that wait; a BAR0 read returns the register's bytes and a BAR0 write is carried
out; a pool access through BAR2 is checked and sent with the glove's identity, one packet for a write of at most eight lines of one 4
KiB block; an AtomicOp locks its line first; one that fails its IDE check takes the stream out; what no function takes ends with UR.
Where a clause fixes what the spec leaves open it is the model's choice (log entry 83). -/
def Obligations.HostRequestsComplete : Prop :=
  (∀ (s : State) (r : HostRead) (f : FnId) (off : Nat), s.awake = true → (s.link r.link).up = true → r.ide = none →
    s.hostHit r.link r.addr = some (f, false, off) → f.link = r.link → (f.fn = 0 → off < 0x1000000) → s.tdiHides f off = false →
    bar0Shape off r.len = true → s.heldFree r.link (s.link r.link).held ⟨f.fn, false, off, .read r, (s.link r.link).unitBase, false⟩ = true →
    exec (.hostMemoryRead r) s = .next ((s.readReg f (off / 8 * 8) off).2.emit
      (.cpl r.link r.tag .sc (((leBytes 8 (s.readReg f (off / 8 * 8) off).1).drop (off % 8)).take r.len) false))) ∧
  (∀ (s : State) (r : HostRead) (f : FnId) (off a : Nat), s.awake = true → (s.link r.link).up = true → r.ide = none →
    s.hostHit r.link r.addr = some (f, true, off) → f.link = r.link → 0 < r.len →
    s.heldFree r.link (s.link r.link).held ⟨f.fn, true, off, .read r, (s.link r.link).unitBase, false⟩ = true →
    s.bar2Open (s.gloveOf f) = true →
    (s.check (cuffUnit (f.link / 2)) f.link ⟨s.gloveOf f, 0, off, r.len, true, false, false⟩).1 = .dev a → a < 0x040000000000 →
    s.decode a = .pool a →
    ∃ t, exec (.hostMemoryRead r) s = .next t ∧
      (∃ x ∈ t.net.outst, x.ctx = .hostRead f.link f.fn r.tag (s.gloveOf f) off r.len ∧ x.counts = some (s.gloveOf f) ∧
        x.pkt.op = .memRd ∧ x.pkt.dest = gateUnit (s.owner (a / 4096)) ∧ x.pkt.addr = a ∧ x.pkt.len = r.len ∧
        x.pkt.gloveValid = true ∧ x.pkt.glove = s.gloveOf f ∧ x.pkt.world = 0) ∧ OnlyIn [.pool, .net] s t) ∧
  (∀ (s : State) (w : HostWrite) (f : FnId) (off a : Nat), s.awake = true → (s.link w.link).up = true → w.ide = none →
    w.ep = false → 0 < w.data.length → off % 64 + w.data.length ≤ 512 → off % 4096 + w.data.length ≤ 4096 →
    s.hostHit w.link w.addr = some (f, true, off) → f.link = w.link →
    s.heldFree w.link (s.link w.link).held ⟨f.fn, true, off, .write w, (s.link w.link).unitBase, false⟩ = true →
    s.bar2Open (s.gloveOf f) = true →
    (s.check (cuffUnit (f.link / 2)) f.link ⟨s.gloveOf f, 0, off, w.data.length, false, true, false⟩).1 = .dev a →
    s.decode a = .pool a →
    ∃ t, exec (.hostMemoryWrite w) s = .next t ∧
      (∃ x ∈ t.net.outst, x.ctx = .hostWrite f.link f.fn (s.gloveOf f) off false s.net.nextPkt ∧ x.counts = some (s.gloveOf f) ∧
        x.pkt.op = .memWr ∧ x.pkt.dest = gateUnit (s.owner (a / 4096)) ∧ x.pkt.addr = a ∧ x.pkt.len = w.data.length ∧
        x.pkt.data = packLines off (w.data.map (fun b => b.getD 0)) ∧ x.pkt.firstBE = enablesOf off w.data (off / 64) ∧
        x.pkt.lastBE = enablesOf off w.data ((off + w.data.length - 1) / 64) ∧ x.pkt.ackReq = true ∧
        x.pkt.glove = s.gloveOf f) ∧ OnlyIn [.pool, .net] s t) ∧
  (∀ (s : State) (w : HostWrite) (f : FnId) (b : Bool) (off : Nat), s.awake = true → (s.link w.link).up = true → w.ide = none →
    w.ep = true → s.hostHit w.link w.addr = some (f, b, off) →
    exec (.hostMemoryWrite w) s = .next (s.aerTlp f .poisonedTlp (writeHead w))) ∧
  (∀ (s : State) (w : HostWrite), s.awake = true → (s.link w.link).up = true → w.ide = none → s.hostHit w.link w.addr = none →
    exec (.hostMemoryWrite w) s = .next (s.aerTlp (s.urOwner w.link w.addr) .unsupportedRequest (writeHead w))) ∧
  (∀ (s : State) (r : HostRead), s.awake = true → (s.link r.link).up = true → r.ide = none → s.hostHit r.link r.addr = none →
    exec (.hostMemoryRead r) s = .next ((s.aerTlp (s.urOwner r.link r.addr) .unsupportedRequest (readHead r)).emit
      (.cpl (s.urOwner r.link r.addr).link r.tag .ur [] false))) ∧
  (∀ (s : State) (x : HostAtomic) (f : FnId) (off a : Nat), s.awake = true → (s.link x.link).up = true → x.ide = none →
    x.addr % max 1 x.size = 0 → x.sizeOk = true → s.hostHit x.link x.addr = some (f, true, off) → f.link = x.link →
    s.heldFree x.link (s.link x.link).held ⟨f.fn, true, off, .atomic x, (s.link x.link).unitBase, false⟩ = true →
    s.bar2Open (s.gloveOf f) = true →
    (s.check (cuffUnit (f.link / 2)) f.link ⟨s.gloveOf f, 0, off, x.size, true, true, true⟩).1 = .dev a → s.decode a = .pool a →
    (s.cuff (f.link / 2)).locks = [] → a % 64 = x.addr % 64 →
    ∃ t, exec (.hostAtomicop x) s = .next t ∧
      (t.cuff (f.link / 2)).locks = [{ atomic := x, vf := f.fn, glove := s.gloveOf f, line := a / 64, sent := true }] ∧
      (∃ y ∈ t.net.outst, y.ctx = .atomicRead (f.link / 2) (a / 64) ∧ y.pkt.op = .memRdLock ∧
        y.pkt.dest = gateUnit (s.owner (a / 4096)) ∧ y.pkt.addr = a ∧ y.pkt.len = x.size) ∧ OnlyIn [.pool, .host, .net] s t) ∧
  (∀ (s : State) (x : HostAtomic), s.awake = true → (s.link x.link).up = true → x.ide = none → x.addr % max 1 x.size ≠ 0 →
    exec (.hostAtomicop x) s = .next (s.aerTlp (s.urOwner x.link x.addr) .malformedTlp (atomicHead x))) ∧
  (∀ (s : State) (l tag : Nat), s.awake = true → (s.link l).up = true →
    exec (.unsupportedRequest l tag .unmatchedWrite) s = .next (s.aerTlp ⟨l, 0⟩ .unsupportedRequest { kind := .write }) ∧
    exec (.unsupportedRequest l tag .vendorMessage) s = .next (s.aerTlp ⟨l, 0⟩ .unsupportedRequest { kind := .message }) ∧
    exec (.unsupportedRequest l tag .unmatchedRead) s =
      .next ((s.aerTlp ⟨l, 0⟩ .unsupportedRequest { kind := .read, tag := tag }).emit (.cpl l tag .ur [] false)) ∧
    (∀ k, k ≠ .unmatchedWrite → k ≠ .vendorMessage → k ≠ .unmatchedRead → exec (.unsupportedRequest l tag k) s =
      .next ((s.aerTlp ⟨l, 0⟩ .unsupportedRequest { kind := .other, tag := tag }).emit (.cpl l tag .ur [] false)))) ∧
  (∀ (s : State) (r : HostRead) (f : FnId) (b : Bool) (off : Nat) (h : HeldReq), s.awake = true → (s.link r.link).up = true →
    (∀ i, r.ide = some i → i.ok = true) → s.hostHit r.link r.addr = some (f, b, off) →
    h = ⟨f.fn, b, off, .read r, (s.link r.link).unitBase, false⟩ →
    (s.heldFree r.link (s.link r.link).held h = false →
      exec (.hostMemoryRead r) s = .next (s.modLink r.link (fun x => { x with held := x.held ++ [h] }))) ∧
    (s.heldFree r.link (s.link r.link).held h = true →
      (∀ n, s.heldMiss r.link h = some n → exec (.hostMemoryRead r) s = .next
        ((s.modLink r.link (fun x => { x with held := x.held ++ [h] })).fetchTable (cuffUnit (r.link / 2)) r.link n)) ∧
      (s.heldMiss r.link h = none → exec (.hostMemoryRead r) s = .next
        (if b then s.readBar2 ⟨r.link, f.fn⟩ off r else s.readBar0 ⟨r.link, f.fn⟩ (s.link r.link).unitBase off r)))) ∧
  (∀ (s : State) (w : HostWrite) (f : FnId) (b : Bool) (off : Nat) (h : HeldReq), s.awake = true → (s.link w.link).up = true →
    (∀ i, w.ide = some i → i.ok = true) → w.ep = false → s.hostHit w.link w.addr = some (f, b, off) →
    h = ⟨f.fn, b, off, .write w, (s.link w.link).unitBase, false⟩ →
    (s.heldFree w.link (s.link w.link).held h = false →
      exec (.hostMemoryWrite w) s = .next (s.modLink w.link (fun x => { x with held := x.held ++ [h] }))) ∧
    (s.heldFree w.link (s.link w.link).held h = true →
      (∀ n, s.heldMiss w.link h = some n → exec (.hostMemoryWrite w) s = .next
        ((s.modLink w.link (fun x => { x with held := x.held ++ [h] })).fetchTable (cuffUnit (w.link / 2)) w.link n)) ∧
      (s.heldMiss w.link h = none → b = true → exec (.hostMemoryWrite w) s = .next (s.writeBar2 ⟨w.link, f.fn⟩ off w)) ∧
      (b = false → s.tdiHides ⟨w.link, f.fn⟩ off = false → bar0Shape off w.data.length = true →
        exec (.hostMemoryWrite w) s = .next (s.writeBar0 ⟨w.link, f.fn⟩ (s.link w.link).unitBase off w.data)) ∧
      (b = false → s.tdiHides ⟨w.link, f.fn⟩ off = true ∨ bar0Shape off w.data.length = false →
        exec (.hostMemoryWrite w) s = .next ((s.aerTlp ⟨w.link, f.fn⟩ .unsupportedRequest (writeHead w)).writeBar0 ⟨w.link, f.fn⟩
          (s.link w.link).unitBase off w.data)))) ∧
  (∀ (s : State) (x : HostAtomic) (f : FnId) (b : Bool) (off : Nat) (h : HeldReq), s.awake = true → (s.link x.link).up = true →
    (∀ i, x.ide = some i → i.ok = true) → x.addr % max 1 x.size = 0 → s.hostHit x.link x.addr = some (f, b, off) →
    h = ⟨f.fn, b, off, .atomic x, (s.link x.link).unitBase, false⟩ →
    (x.sizeOk = false → exec (.hostAtomicop x) s = .next (s.hostUr f (atomicHead x))) ∧
    (x.sizeOk = true → s.heldFree x.link (s.link x.link).held h = false →
      exec (.hostAtomicop x) s = .next (s.modLink x.link (fun y => { y with held := y.held ++ [h] }))) ∧
    (x.sizeOk = true → s.heldFree x.link (s.link x.link).held h = true →
      (∀ n, s.heldMiss x.link h = some n → exec (.hostAtomicop x) s = .next
        ((s.modLink x.link (fun y => { y with held := y.held ++ [h] })).fetchTable (cuffUnit (x.link / 2)) x.link n)) ∧
      (s.heldMiss x.link h = none → exec (.hostAtomicop x) s = .next
        (if b then s.atomicBar2 ⟨x.link, f.fn⟩ off x false else s.hostUr ⟨x.link, f.fn⟩ (atomicHead x))))) ∧
  (∀ (s : State) (x : HostAtomic), s.awake = true → (s.link x.link).up = true → x.ide = none → x.addr % max 1 x.size = 0 →
    s.hostHit x.link x.addr = none → exec (.hostAtomicop x) s = .next (s.hostUr (s.urOwner x.link x.addr) (atomicHead x))) ∧
  (∀ (s : State) (i : IdeMark), i.ok = false →
    (∀ r : HostRead, s.awake = true → (s.link r.link).up = true → r.ide = some i →
      exec (.hostMemoryRead r) s = .next (s.ideFail r.link i.stream (readHead r))) ∧
    (∀ w : HostWrite, s.awake = true → (s.link w.link).up = true → w.ide = some i →
      exec (.hostMemoryWrite w) s = .next (s.ideFail w.link i.stream (writeHead w))) ∧
    (∀ x : HostAtomic, s.awake = true → (s.link x.link).up = true → x.ide = some i →
      exec (.hostAtomicop x) s = .next (s.ideFail x.link i.stream (atomicHead x))))

/-- Border flits (R442, R444-R449, R451, R454): a flit with the expected number is taken, and the 32nd one is acknowledged at once; any
other asks for a replay, once; a parity error is reported for its lane; an ACK returns what has been counted, frees what it covers and
returns credits, and a NAK or a timeout sends what is unacknowledged again. Byte j of a flit goes to lane j mod W of the W active lanes,
eight bytes to a group, and each 64-bit group has its parity bit above it. Where a clause fixes what the spec leaves open it is the
model's choice (log entry 67). -/
def Obligations.BorderFlitCommandsComplete : Prop :=
  ∀ (s : State) (l : Nat),
    (∀ m, (s.blink l).ctrl = some (.widthReq m) →
      ∃ t, exec (.ctrlRepeat l) s = .next t ∧ t.out = s.out ++ [.flit l (.widthReq m) (laneGroups (s.blink l).active (flitBytes (.widthReq m)))] ∧ (∀ j, t.blink j = s.blink j) ∧
        OnlyIn [.out, .basket] s t) ∧
    (∀ f : PayloadFlit, s.awake = true → (s.blink l).state = .up → s.fenced (borderUnit l) = false → f.parity = [] → f.vc < 6 →
      (f.crcOk = true → f.seq = (s.blink l).rxNext → (s.blink l).unacked < 31 →
        ∃ t, exec (.borderPayloadFlit l f) s = .next t ∧ t.blink l = { s.blink l with
          rxNext := ((s.blink l).rxNext + 1) % 65536, nak := false, unacked := (s.blink l).unacked + 1
          occ := (s.blink l).occ.mod 0 f.vc (· + 1), rx := (s.blink l).rx.mod [] f.vc (· ++ [f.body]) } ∧
          (∀ j, j ≠ l → t.blink j = s.blink j) ∧ OnlyIn [.basket] s t) ∧
      (f.crcOk = true → f.seq ≠ (s.blink l).rxNext → (s.blink l).nak = false →
        ∃ t, exec (.borderPayloadFlit l f) s = .next t ∧ (t.blink l).rxNext = (s.blink l).rxNext ∧ (t.blink l).rx = (s.blink l).rx ∧
          (t.blink l).nak = true ∧
          (∃ a, t.out = s.out ++ [.flit l (.ack a) (laneGroups (s.blink l).active (flitBytes (.ack a)))] ∧ a.nak = true ∧ a.ackSeq = ((s.blink l).rxNext + 65535) % 65536) ∧
          OnlyIn [.out, .basket] s t) ∧
      (f.crcOk = false → (s.blink l).nak = true →
        ∃ t, exec (.borderPayloadFlit l f) s = .next t ∧
          t.blink l = { s.blink l with crcErrors := min 65535 ((s.blink l).crcErrors + 1) } ∧
          t.net.reports = s.net.reports ++ [mkFault 8 .correctedMemory 0x0042 (borderUnit l) 0 none] ∧ OnlyIn [.net, .basket] s t)) ∧
    ((s.blink l).unacked ≠ 0 →
      ∃ t, exec (.borderAckTimer l) s = .next t ∧
        t.blink l = { s.blink l with unacked := 0, retRes := [], retShared := [] } ∧ (∀ j, j ≠ l → t.blink j = s.blink j) ∧
        (∃ a : AckFlit, a = {
            ackSeq := ((s.blink l).rxNext + 65535) % 65536, nak := (s.blink l).nak
            reserved := (List.range 7).map (fun i => (s.blink l).retRes.get 0 i)
            shared := (List.range 7).map (fun i => (s.blink l).retShared.get 0 i) } ∧
          t.out = s.out ++ [.flit l (.ack a) (laneGroups (s.blink l).active (flitBytes (.ack a)))]) ∧ OnlyIn [.out, .basket] s t) ∧
    (∀ a : AckFlit, s.awake = true → (s.blink l).state = .up → (s.blink l).tx = [] → a.nak = false →
      ∃ t, exec (.borderAckFlit l a) s = .next t ∧
        (t.blink l).replay = (s.blink l).replay.filter (fun f => !covered a.ackSeq f.seq) ∧ (t.blink l).tx = [] ∧
        (t.blink l).credits = ((s.blink l).credit a).credits ∧ (t.blink l).sharedFree = ((s.blink l).credit a).sharedFree ∧
        (∀ j, j ≠ l → t.blink j = s.blink j) ∧ OnlyIn [.basket] s t) ∧
    (∀ f, (s.blink l).state = .up → (s.blink l).replay = [f] → (s.blink l).replayRow < 7 →
      ∃ t, exec (.replayTimeout l) s = .next t ∧ 
        t.out = s.out ++ [.flit l (.payload f.seq f.vc f.body) (laneGroups (s.blink l).active (flitBytes (.payload f.seq f.vc f.body)))] ∧
        t.blink l = { s.blink l with
          replays := min 65535 ((s.blink l).replays + 1), replayRow := (s.blink l).replayRow + 1 } ∧
        (∀ j, j ≠ l → t.blink j = s.blink j) ∧ OnlyIn [.out, .basket] s t) ∧
    ((s.blink l).ctrl = none → exec (.ctrlRepeat l) s = .next s) ∧ (∀ c, (s.blink l).ctrl = some c → exec (.ctrlRepeat l) s = .next (s.sendCtrl l c)) ∧
    (∀ f : PayloadFlit, s.awake = true → (s.blink l).carries f.vc = true → s.fenced (borderUnit l) = false → f.crcOk = true →
      (f.vc < 6 ∨ f.vc = 8) → f.seq = (s.blink l).rxNext →
      ((s.blink l).unacked < 31 →
        ∃ t, exec (.borderPayloadFlit l f) s = .next t ∧ t.blink l = { s.blink l with
          rxNext := ((s.blink l).rxNext + 1) % 65536, nak := false, unacked := (s.blink l).unacked + 1
          occ := (s.blink l).occ.mod 0 (vcIndex f.vc) (· + 1), rx := (s.blink l).rx.mod [] f.vc (· ++ [f.body]) } ∧
          t.net.reports = s.net.reports ++ f.parity.map (fun i => mkFault 8 (.borderParity i) 0x0042 (borderUnit l) i none) ∧
          t.out = s.out ∧ OnlyIn [.net, .basket] s t) ∧
      (31 ≤ (s.blink l).unacked →
        ∃ t a, exec (.borderPayloadFlit l f) s = .next t ∧ t.blink l = { s.blink l with
          rxNext := ((s.blink l).rxNext + 1) % 65536, nak := false, unacked := 0, retRes := [], retShared := []
          occ := (s.blink l).occ.mod 0 (vcIndex f.vc) (· + 1), rx := (s.blink l).rx.mod [] f.vc (· ++ [f.body]) } ∧
          t.out = s.out ++ [.flit l (.ack a) (laneGroups (s.blink l).active (flitBytes (.ack a)))] ∧ a.nak = false ∧
          a.ackSeq = (s.blink l).rxNext % 65536 ∧
          OnlyIn [.net, .basket, .out] s t)) ∧
    (∀ f : PayloadFlit, s.awake = true → (s.blink l).carries f.vc = true → s.fenced (borderUnit l) = false → f.parity = [] →
      (f.crcOk = false ∨ (5 < f.vc ∧ f.vc ≠ 8)) → (s.blink l).nak = false →
      ∃ t a, exec (.borderPayloadFlit l f) s = .next t ∧ (t.blink l).nak = true ∧ (t.blink l).rxNext = (s.blink l).rxNext ∧
        (t.blink l).rx = (s.blink l).rx ∧ (t.blink l).crcErrors = min 65535 ((s.blink l).crcErrors + 1) ∧ a.nak = true ∧
        t.out = s.out ++ [.flit l (.ack a) (laneGroups (s.blink l).active (flitBytes (.ack a)))] ∧
        t.net.reports = s.net.reports ++ [mkFault 8 .correctedMemory 0x0042 (borderUnit l) 0 none] ∧
        OnlyIn [.net, .basket, .out] s t) ∧
    (∀ f : PayloadFlit, f.crcOk = true → f.parity = [] → (f.vc < 6 ∨ f.vc = 8) → f.seq ≠ (s.blink l).rxNext → (s.blink l).nak = true →
      exec (.borderPayloadFlit l f) s = .next s) ∧
    (∀ f : PayloadFlit, (s.blink l).carries f.vc = false → exec (.borderPayloadFlit l f) s = .next s) ∧
    ((s.blink l).unacked = 0 → exec (.borderAckTimer l) s = .next s) ∧
    (∀ a : AckFlit, s.awake = true → (s.blink l).state = .up → a.nak = true →
      (s.blink l).replay.filter (fun f => !covered a.ackSeq f.seq) ≠ [] →
      ((s.blink l).replay.any (fun f => covered a.ackSeq f.seq) = true ∨ (s.blink l).replayRow < 7) →
      exec (.borderAckFlit l a) s = .next (((s.modBlink l (fun x => { x.credit a with
        replay := x.replay.filter (fun f => !covered a.ackSeq f.seq)
        tx := x.tx.filter (fun t => t.sent < t.bytes.length || !covered a.ackSeq t.last)
        replayRow := if (s.blink l).replay.any (fun f => covered a.ackSeq f.seq) then 1 else (s.blink l).replayRow + 1 })).replayBorder
          l).pumpBorder l 1024)) ∧
    (((s.blink l).state = .up ∨ (s.blink l).state = .admitting) → (s.blink l).replay ≠ [] → (s.blink l).replayRow < 7 →
      exec (.replayTimeout l) s = .next ((s.modBlink l (fun x => { x with replayRow := x.replayRow + 1 })).replayBorder l)) ∧
    (∀ (m : BitVec 8) (f : BFlit) (j lane : Nat), j < 128 → (lanesIn m)[j % (lanesIn m).length]? = some lane →
      ∃ gs g, (laneGroups m (flitBytes f))[j % (lanesIn m).length]? = some (lane, gs) ∧ gs[j / (lanesIn m).length / 8]? = some g ∧
        g.extractLsb' (8 * (j / (lanesIn m).length % 8)) 8 = (flitBytes f).getD j 0 ∧ g.getLsbD 64 = parityBit (g.setWidth 64))

/-- A Border link goes DOWN with its cause, counted and reported (R449, R450, R453, R456-R458): eight replays without progress, a
virtual channel without a credit, no symbol lock, an identity that does not come or does not match, lost lock, and a width change that
does not end. One whose link-down bucket reaches the threshold is RETIRED and recorded. In another state of the link nothing changes.
Where a clause fixes what the spec leaves open it is the model's choice (log entry 68). -/
def Obligations.BorderLinkDownCommandsComplete : Prop :=
  (∀ (s : State) (l cause vc : Nat) (i : Ident) (c : Instr), (s.blink l).downBucket + 1 < s.boot.cfg.downThresh →
    ((c = .replayTimeout l ∧ cause = 3 ∧ ((s.blink l).state = .up ∨ (s.blink l).state = .admitting) ∧ (s.blink l).replay ≠ [] ∧ (s.blink l).replayRow = 7) ∨
     (c = .creditTimeout l vc ∧ cause = 2 ∧ (s.blink l).state = .up ∧
       (∃ t ∈ (s.blink l).tx, t.vc = vc ∧ t.sent < t.bytes.length) ∧ (s.blink l).spend vc = none) ∨
     (c = .trainingTimeout l ∧ cause = 1 ∧ (s.blink l).state = .training) ∨
     (c = .identTimeout l ∧ cause = 4 ∧ (s.blink l).state = .ident) ∨
     (c = .ident l i ∧ cause = 4 ∧ (s.blink l).state = .ident ∧ s.awake = true ∧ (s.farEnd l ≠ some (i.pos, i.link) ∨ i.digest ≠ Config.sha384 s.boot.cfg.topology)) ∨
     (c = .lockLossTimeout l ∧ cause = 1 ∧
       ((s.blink l).state = .admitting ∨ (s.blink l).state = .up ∨ (s.blink l).state = .retrain)) ∨
     (c = .widthChangeTimeout l ∧ cause = 6 ∧ (s.blink l).state = .retrain)) →
    ∃ t, exec c s = .next t ∧ (t.blink l).state = .down ∧ (t.blink l).cause = cause ∧
      (t.blink l).downs = min 65535 ((s.blink l).downs + 1) ∧
      mkFault 8 .correctedMemory 0x0049 (borderUnit l) l none ∈ t.net.reports ∧
      OnlyIn [.out, .host, .trust, .work, .pool, .net, .basket, .evt, .flt] s t) ∧
  (∀ (s : State) (l cause vc : Nat) (i : Ident) (c : Instr), s.boot.cfg.downThresh ≤ (s.blink l).downBucket + 1 →
    ((c = .replayTimeout l ∧ cause = 3 ∧ ((s.blink l).state = .up ∨ (s.blink l).state = .admitting) ∧ (s.blink l).replay ≠ [] ∧ (s.blink l).replayRow = 7) ∨
     (c = .creditTimeout l vc ∧ cause = 2 ∧ (s.blink l).state = .up ∧
       (∃ t ∈ (s.blink l).tx, t.vc = vc ∧ t.sent < t.bytes.length) ∧ (s.blink l).spend vc = none) ∨
     (c = .trainingTimeout l ∧ cause = 1 ∧ (s.blink l).state = .training) ∨
     (c = .identTimeout l ∧ cause = 4 ∧ (s.blink l).state = .ident) ∨
     (c = .ident l i ∧ cause = 4 ∧ (s.blink l).state = .ident ∧ s.awake = true ∧ (s.farEnd l ≠ some (i.pos, i.link) ∨ i.digest ≠ Config.sha384 s.boot.cfg.topology)) ∨
     (c = .lockLossTimeout l ∧ cause = 1 ∧
       ((s.blink l).state = .admitting ∨ (s.blink l).state = .up ∨ (s.blink l).state = .retrain)) ∨
     (c = .widthChangeTimeout l ∧ cause = 6 ∧ (s.blink l).state = .retrain)) →
    ∃ t, exec c s = .next t ∧ (t.blink l).state = .retired ∧ (t.blink l).cause = cause ∧
      (t.blink l).downs = min 65535 ((s.blink l).downs + 1) ∧ t.flt.mramQ = s.flt.mramQ ++ [(4, borderUnit l, l, 0)] ∧
      mkFault 8 .correctedMemory 0x0049 (borderUnit l) l none ∈ t.net.reports ∧
      mkFault 8 .contained 0x0043 (borderUnit l) l none ∈ t.net.reports ∧
      OnlyIn [.out, .host, .trust, .work, .pool, .net, .basket, .evt, .flt] s t) ∧
  (∀ (s : State) (l vc : Nat),
    ((s.blink l).state ≠ .training → exec (.trainingTimeout l) s = .next s) ∧
    ((s.blink l).state ≠ .ident → exec (.identTimeout l) s = .next s) ∧
    ((s.blink l).state ≠ .retrain → exec (.widthChangeTimeout l) s = .next s) ∧
    ((s.blink l).state ≠ .admitting → (s.blink l).state ≠ .up → (s.blink l).state ≠ .retrain →
      exec (.lockLossTimeout l) s = .next s) ∧
    ((s.blink l).replay = [] → exec (.replayTimeout l) s = .next s) ∧
    ((s.blink l).spend vc ≠ none → exec (.creditTimeout l vc) s = .next s))

/-- Training and width of a Border link (R446, R455, R457, R459): a DOWN link tries again; symbol lock starts a fresh link and sends
IDENT; a matching IDENT takes it to UP for an admitted peer and to ADMITTING for another, and a repeated one is answered again; a width
proposal is answered with the first allowed lane set, unless this end's own has precedence, or retires the link where there is none; the
answer sets the width. Where a clause fixes what the spec leaves open it is the model's choice (log entry 67). -/
def Obligations.BorderTrainingCommandsComplete : Prop :=
  ∀ (s : State) (l : Nat),
    ((s.blink l).state = .down → s.fenced (borderUnit l) = false →
      ∃ t, exec (.downRetry l) s = .next t ∧ t.blink l = { s.blink l with state := .training } ∧
        (∀ j, j ≠ l → t.blink j = s.blink j) ∧ OnlyIn [.basket, .evt] s t) ∧
    (s.awake = true → (s.blink l).state = .training →
      ∃ t, exec (.borderSymbolLock l) s = .next t ∧ (t.blink l).state = .ident ∧ (t.blink l).ctrl = some .ident ∧
        (t.blink l).rxNext = 0 ∧ (t.blink l).txNext = 0 ∧ (t.blink l).replay = [] ∧ (t.blink l).credits = [] ∧
        (t.blink l).sharedFree = 200 ∧ (t.blink l).active = (laneSet (s.blink l).retired).getD 0 ∧
        (∃ i : Ident, i = {
            pos := s.boot.cfg.pos, link := l, lanes := (laneSet (s.blink l).retired).getD 0, serial := Config.serial
            digest := Config.sha384 s.boot.cfg.topology } ∧
          t.out = s.out ++ [.flit l (.ident i) (laneGroups (t.blink l).active (flitBytes (.ident i)))]) ∧
        (∀ j, j ≠ l → t.blink j = s.blink j) ∧ OnlyIn [.out, .basket, .evt] s t) ∧
    (∀ i : Ident, s.awake = true → (s.blink l).state = .ident → s.farEnd l = some (i.pos, i.link) →
      i.digest = Config.sha384 s.boot.cfg.topology →
      ((s.peer (s.peerOf l)).state = .admitted →
        ∃ t, exec (.ident l i) s = .next t ∧ t.blink l = { s.blink l with state := .up, wasUp := true, ctrl := none } ∧
          OnlyIn [.basket, .evt] s t) ∧
      ((s.peer (s.peerOf l)).state = .absent → (s.peer (s.peerOf l)).spdm = 0 →
        ∃ t, exec (.ident l i) s = .next t ∧ t.blink l = { s.blink l with state := .admitting, ctrl := none } ∧
          t.peer (s.peerOf l) = { s.peer (s.peerOf l) with state := .admitting, spdm := 1, chainOk := false } ∧
          t.out = s.out ++ (if s.boot.cfg.pos < s.peerOf l then [.mgmt (s.peerOf l) (.spdm 0x84) (s.peer (s.peerOf l)).session] else []) ∧
          OnlyIn [.out, .basket, .evt] s t)) ∧
    (∀ mask m, s.awake = true → (s.blink l).state = .up → (s.blink l).ctrl = none → (s.blink l).replay = [] →
      (s.blink l).tx = [] → laneSet ((s.blink l).retired ||| ~~~mask) = some m →
      ∃ t, exec (.widthReq l mask) s = .next t ∧
        t.blink l = { s.blink l with active := m, replays := min 65535 ((s.blink l).replays + 1) } ∧
        t.out = s.out ++ [.flit l (.widthAck m) (laneGroups (s.blink l).active (flitBytes (.widthAck m)))] ∧ (∀ j, j ≠ l → t.blink j = s.blink j) ∧ OnlyIn [.out, .basket] s t) ∧
    (∀ mask, s.awake = true → (s.blink l).state = .retrain → mask &&& (s.blink l).retired = 0 → (s.blink l).replay = [] →
      (s.blink l).tx = [] →
      ∃ t, exec (.widthAck l mask) s = .next t ∧
        t.blink l = { s.blink l with
          active := mask, ctrl := none, state := .up, wasUp := true, replays := min 65535 ((s.blink l).replays + 1) } ∧
        (∀ j, j ≠ l → t.blink j = s.blink j) ∧ OnlyIn [.basket, .evt] s t) ∧
    ((s.blink l).state ≠ .down ∨ s.fenced (borderUnit l) = true → exec (.downRetry l) s = .next s) ∧
    ((s.blink l).state ≠ .training → exec (.borderSymbolLock l) s = .next s) ∧
    (∀ i : Ident, s.awake = true → (s.blink l).state = .ident → s.farEnd l = some (i.pos, i.link) →
      i.digest = Config.sha384 s.boot.cfg.topology → (s.peer (s.peerOf l)).state ≠ .admitted →
      exec (.ident l i) s = .next
        (((s.modBlink l (fun x => { x with ctrl := none })).setBState l .admitting).startAdmission (s.peerOf l))) ∧
    (∀ i : Ident, s.awake = true → ((s.blink l).state = .admitting ∨ (s.blink l).state = .up) →
      ∃ t, exec (.ident l i) s = .next t ∧ t.blink l = s.blink l ∧ (∀ j, j ≠ l → t.blink j = s.blink j) ∧
        (∃ own : Ident, own.pos = s.boot.cfg.pos ∧ own.link = l ∧ own.lanes = (s.blink l).active ∧
          t.out = s.out ++ [.flit l (.ident own) (laneGroups (s.blink l).active (flitBytes (.ident own)))]) ∧ OnlyIn [.out, .basket] s t) ∧
    (∀ mask, s.awake = true → ((s.blink l).state = .up ∨ (s.blink l).state = .retrain) →
      (((∀ m, (s.blink l).ctrl ≠ some (.widthReq m)) ∨ s.peerOf l < s.boot.cfg.pos) →
        (∀ m, laneSet ((s.blink l).retired ||| ~~~mask) = some m → exec (.widthReq l mask) s = .next
          (((((s.putFlit l (.widthAck m)).modBlink l (fun x => { x with active := m, ctrl := none })).setBState l .up).replayBorder
            l).pumpBorder l 1024)) ∧
        (laneSet ((s.blink l).retired ||| ~~~mask) = none →
          exec (.widthReq l mask) s = .next ((s.retireLink l).afterDown l (s.blink l).state))) ∧
      (∀ m, (s.blink l).ctrl = some (.widthReq m) → s.boot.cfg.pos < s.peerOf l → exec (.widthReq l mask) s = .next s)) ∧
    (∀ mask, s.awake = true → (s.blink l).state = .retrain → mask &&& (s.blink l).retired = 0 → exec (.widthAck l mask) s = .next
      ((((s.modBlink l (fun x => { x with active := mask, ctrl := none })).setBState l .up).replayBorder l).pumpBorder l 1024)) ∧
    (∀ mask, (s.blink l).state ≠ .retrain ∨ mask &&& (s.blink l).retired ≠ 0 → exec (.widthAck l mask) s = .next s)

/-- Reroute (R464-R468, R473): the survivor answers with what was delivered and replays the rest; both REROUTE_DONE end it, and the next
dead link's turn comes; a reroute past its limit fences the peer; an initiator returns to its home link once that is UP and it has
nothing outstanding, and stays away until then. -/
def Obligations.RerouteCommandsComplete : Prop :=
  (∀ (s : State) (l n d far last : Nat), s.peerOf l = n → s.linkFrom n far = some d → d ≠ l →
    (s.awake = true → (s.blink l).state = .up → (s.blink d).state = .down → (s.peer n).reroute = none → (s.blink d).tx = [] →
      (s.blink l).tx = [] →
      ∃ t, exec (.rerouteReq l far last) s = .next t ∧
        (t.peer n).reroute = some { dead := d, survivor := l, last := some last, sent := true, seen := false } ∧
        t.out = s.out ++ [.flit l (.rerouteAck d (((s.blink d).rxNext + 65535) % 65536)) (laneGroups (s.blink l).active (flitBytes (.rerouteAck d (((s.blink d).rxNext + 65535) % 65536))))] ++
          [.flit l (.rerouteDone d) (laneGroups (s.blink l).active (flitBytes (.rerouteDone d)))] ∧
        (t.blink d).replay = [] ∧ OnlyIn [.out, .basket] s t) ∧
    (s.awake = true → (s.peer n).reroute = some { dead := d, survivor := l } → (s.blink d).tx = [] → (s.blink l).tx = [] →
      ∃ t, exec (.rerouteAck l far last) s = .next t ∧
        (t.peer n).reroute = some { dead := d, survivor := l, last := some last, sent := true } ∧
        t.out = s.out ++ [.flit l (.rerouteDone d) (laneGroups (s.blink l).active (flitBytes (.rerouteDone d)))] ∧ (t.blink d).replay = [] ∧ OnlyIn [.out, .basket] s t) ∧
    (∀ r, s.awake = true → (s.peer n).reroute = some r → r.dead = d → r.sent = false →
      ∃ t, exec (.rerouteDone l far) s = .next t ∧ t.peer n = { s.peer n with reroute := some { r with seen := true } } ∧
        (∀ j, t.blink j = s.blink j) ∧ OnlyIn [.basket] s t) ∧
    (∀ r, s.awake = true → (s.peer n).reroute = some r → r.dead = d → r.sent = true → r.also = [] →
      ∃ t, exec (.rerouteDone l far) s = .next t ∧ t.peer n = { s.peer n with reroute := none } ∧
        t.blink d = { s.blink d with routed := some r.survivor, reroutes := min 65535 ((s.blink d).reroutes + 1) } ∧
        (∀ j, j ≠ d → t.blink j = s.blink j) ∧ OnlyIn [.basket] s t) ∧
    (∀ r, (s.peer n).reroute = some r → (s.peer n).state ≠ .fenced →
      ∃ t, exec (.rerouteLimitExpiry n) s = .next t ∧ (t.peer n).state = .fenced ∧ (t.peer n).cause = 2 ∧
        (t.peer n).fences = min 65535 ((s.peer n).fences + 1) ∧ (t.peer n).reroute = none ∧ (t.peer n).session = none ∧
        (∀ j ∈ s.peerLinks n, (t.blink j).xids = []))) ∧
  (∀ (s : State) (unit n l : Nat), l = (s.peerLinks n).getD (unit % max 1 (s.peerLinks n).length) 0 →
    s.basket.moved.has (unit * 4 + n) = true → (s.blink l).state = .up →
    s.borderBusy unit n = false →
    ∃ t, exec (.homeLinkReturn unit n) s = .next t ∧ t.basket.moved = s.basket.moved.del (unit * 4 + n) ∧ t.borderLink unit n = l ∧
      (∀ j, j ≠ l → t.blink j = s.blink j) ∧ OnlyIn [.basket] s t) ∧
  (∀ (s : State) (l far last : Nat) (d : Nat), s.linkFrom (s.peerOf l) far = some d →
    (s.awake = true → (s.blink l).state = .up → (s.peer (s.peerOf l)).reroute = none →
      exec (.rerouteReq l far last) s = .next (
        let s1 := (s.modBlink l (fun x => { x with ctrl := none })).modPeer (s.peerOf l) (fun p =>
          { p with reroute := some { dead := d, survivor := l } })
        let s2 := s1.borderDown d 1
        (s2.putFlit l (.rerouteAck d (s2.lastDelivered d))).rerouteReplay (s.peerOf l) last)) ∧
    (∀ r, s.awake = true → (s.blink l).state = .up → (s.peer (s.peerOf l)).reroute = some r → r.dead = d → r.sent = true →
      exec (.rerouteReq l far last) s = .next (s.putFlit l (.rerouteAck d (s.lastDelivered d)))) ∧
    (∀ r, s.awake = true → (s.blink l).state = .up → (s.peer (s.peerOf l)).reroute = some r → r.dead = d → r.sent = false →
      (s.blink r.survivor).ctrl.isSome = true → s.boot.cfg.pos < s.peerOf l → exec (.rerouteReq l far last) s = .next s) ∧
    (∀ r, s.awake = true → (s.peer (s.peerOf l)).reroute = some r → r.survivor = l → r.sent = false → r.dead = d →
      exec (.rerouteAck l far last) s = .next (s.rerouteReplay (s.peerOf l) last)) ∧
    (∀ r, s.awake = true → (s.peer (s.peerOf l)).reroute = some r → r.dead = d → r.sent = true →
      exec (.rerouteDone l far) s = .next (s.endReroute (s.peerOf l) r))) ∧
  (∀ (s : State) (l far last : Nat), (s.linkFrom (s.peerOf l) far = none ∨ (s.blink l).state ≠ .up →
      exec (.rerouteReq l far last) s = .next s) ∧
    ((s.peer (s.peerOf l)).reroute = none → exec (.rerouteAck l far last) s = .next s ∧ exec (.rerouteDone l far) s = .next s)) ∧
  (∀ (s : State) (n : Nat), (s.peer n).reroute = none → exec (.rerouteLimitExpiry n) s = .next s) ∧
  (∀ (s : State) (unit n : Nat),
    (s.basket.moved.has (unit * 4 + n) = false ∨ s.borderBusy unit n = true ∨
      (s.blink ((s.peerLinks n).getD (unit % max 1 (s.peerLinks n).length) 0)).state ≠ .up) →
    exec (.homeLinkReturn unit n) s = .next s)

/-- Border packets (R443, R461-R463, R475): a request of an admitted peer becomes the link unit's own request on the Weave and is
remembered by its XID, and one of another peer is dropped; a response ends the transaction, or the part of it that it answers, and goes
to its initiator; a MGMT packet raises its source; a reserved opcode is reported; a packet that came in PAYLOAD flits leaves their
bytes. Where a clause fixes what the spec leaves open it is the model's choice (log entry 83). -/
def Obligations.BorderPacketCompletes : Prop :=
  (∀ (s : State) (l : Nat) (b : BorderPkt), s.awake = true → (s.blink l).state = .up → s.fenced (borderUnit l) = false →
    (s.blink l).rx = [] →
    (∀ k a, b.op = .memRd → (s.peer (s.peerOf l)).state = .admitted → s.linkFrom (s.peerOf l) b.originLink = some k → s.decode b.addr = .pool a →
      ∃ t, exec (.borderPacket l b) s = .next t ∧
        (∃ e, (t.blink k).inbound = (s.blink k).inbound ++ [e] ∧ e.origin = b.originLink ∧ e.xid = b.xid) ∧
        (∃ x ∈ t.net.outst, x.ctx = .borderIn k b.xid ∧ x.pkt.op = .memRd ∧ x.pkt.initUnit = borderUnit k ∧
          x.pkt.dest = gateUnit (s.owner (a / 4096)) ∧ x.pkt.addr = b.addr ∧ x.pkt.len = b.len ∧ x.pkt.glove = b.glove ∧
          x.pkt.home = b.home ∧ x.pkt.world = b.world) ∧
        (∀ j, j ≠ k → t.blink j = s.blink j) ∧ OnlyIn [.net, .basket] s t) ∧
    (∀ e, b.op = .cpl → (s.blink b.originLink).xids.find? (fun e => e.xid == b.xid) = some e →
      ∃ t, exec (.borderPacket l b) s = .next t ∧
        t.blink b.originLink = { s.blink b.originLink with
          xids := (s.blink b.originLink).xids.filter (fun y => y.xid != b.xid) } ∧
        (∀ j, j ≠ b.originLink → t.blink j = s.blink j) ∧
        Sends t (fun x => x.op = .cpl ∧ x.dest = e.pkt.initUnit ∧ x.tag = e.pkt.tag ∧ x.status = b.status) ∧
        OnlyIn [.net, .basket] s t) ∧
    (b.op = .mgmt → exec (.borderPacket l b) s = .next (s.edge (28 + l))) ∧
    (borderCode b.op = 0 → exec (.borderPacket l b) s = .next (s.contained 8 0x0046 (borderUnit l) 0 none)) ∧
    ((b.op.cls = 0 ∨ b.op.cls = 1) → borderCode b.op ≠ 0 → b.op ≠ .mgmt → (s.peer (s.peerOf l)).state ≠ .admitted →
      exec (.borderPacket l b) s = .next s) ∧
    (∀ e, b.op = .cplD → (s.blink b.originLink).xids.find? (fun e => e.xid == b.xid) = some e → b.data.length < e.left →
      ∃ t, exec (.borderPacket l b) s = .next t ∧
        t.blink b.originLink = { s.blink b.originLink with xids := (s.blink b.originLink).xids.map (fun y =>
          if y.xid == b.xid then { y with left := e.left - b.data.length } else y) } ∧
        (∀ j, j ≠ b.originLink → t.blink j = s.blink j) ∧
        Sends t (fun x => x.op = .cplD ∧ x.dest = e.pkt.initUnit ∧ x.tag = e.pkt.tag ∧ x.status = b.status ∧ x.data = b.data ∧ x.ep = b.ep) ∧
        OnlyIn [.net, .basket] s t) ∧
    (∀ k, (b.op.cls = 0 ∨ b.op.cls = 1) → borderCode b.op ≠ 0 → (s.peer (s.peerOf l)).state = .admitted →
      s.linkFrom (s.peerOf l) b.originLink = some k →
      ∃ p : Packet, exec (.borderPacket l b) s = .next ((s.modBlink k (fun x =>
          { x with inbound := x.inbound ++ [⟨b.originLink, b.xid, p, l⟩] })).sendDev 0 (.borderIn k b.xid) p none) ∧
        p.op = b.op ∧ p.initUnit = borderUnit k ∧ p.addr = b.addr ∧ p.len = b.len ∧ p.firstBE = b.firstBE ∧ p.lastBE = b.lastBE ∧
        p.world = b.world ∧ p.gloveValid = b.gloveValid ∧ p.glove = b.glove ∧ p.home = b.home ∧ p.ackReq = b.ackReq ∧ p.ep = b.ep ∧
        p.prefetch = b.prefetch ∧ p.data = b.data)) ∧
  (∀ (s : State) (l : Nat) (b : BorderPkt), s.awake = true → (s.blink l).state = .up → s.fenced (borderUnit l) = false → b.op = .mgmt →
      (((s.blink l).rx.get [] 8).flatten.take (borderBytes b).length == borderBytes b) = true →
      exec (.borderPacket l b) s = .next
        ((s.modBlink l (BLink.consume 8 (borderBytes b).length (borderBytes b).length)).edge (28 + l)))

/-- Faults at the collector (R164, R165, R512-R518, R521, R524, R526, R534, R535): the report is taken, latched in its detail record,
counted by severity and logged; the reaction of its error follows: a bucket, a fence, or Quarantine. A bad copy is dropped and fetched
once more before its report is taken. -/
def Obligations.FaultsAreTakenByTheCollector : Prop :=
  ∀ (s : State) (r : FaultReport), s.awake = true → (s.unitFlt r.unit).state = 0 →
    (r.error = .contained → r.code < 0x0700 → r.code ≠ 0x0043 → r.code ≠ 0x0047 →
      (s.flt.details.get {} (4 * r.cls + r.quad)).valid = false → s.flt.fltLog.length < 4096 →
      ∃ t, exec (.fault r) s = .next t ∧ t.net.reports = eraseFirst (· == r) s.net.reports ∧
        t.flt.details.get {} (4 * r.cls + r.quad) = { s.flt.details.get {} (4 * r.cls + r.quad) with
          valid := true, code := r.code, severity := 1, unit := r.unit, element := r.element % 2 ^ 32, time := s.sys.now
          contained := min 65535 ((s.flt.details.get {} (4 * r.cls + r.quad)).contained + 1) } ∧
        t.flt.fltLog = s.flt.fltLog ++ [{
          code := r.code, unit := r.unit, severity := 1, cls := r.cls, flags := 0, time := s.sys.now, element := r.element % 2 ^ 64
          glove := r.glove.getD 0xFFFF, seq := s.flt.fltSeq }] ∧
        t.flt.fltSeq = (s.flt.fltSeq + 1) % 2 ^ 32 ∧ (t.source 9).level = true ∧ t.sys.mode = s.sys.mode ∧
        OnlyIn [.flt, .net, .host, .evt] s t) ∧
    (r.error = .contained → r.code < 0x0700 → r.code ≠ 0x0043 → r.code ≠ 0x0047 →
      (s.flt.details.get {} (4 * r.cls + r.quad)).valid = true → 1 ≤ (s.flt.details.get {} (4 * r.cls + r.quad)).severity →
      ∃ t, exec (.fault r) s = .next t ∧
        t.flt.details.get {} (4 * r.cls + r.quad) = { s.flt.details.get {} (4 * r.cls + r.quad) with
          contained := min 65535 ((s.flt.details.get {} (4 * r.cls + r.quad)).contained + 1) } ∧ t.host = s.host ∧
        OnlyIn [.flt, .net, .evt] s t) ∧
    (r.error = .integrity → r.code = 0x0200 →
      ∃ t, exec (.fault r) s = .next t ∧ (t.gate (unitGate r.unit)).integ = min 31 ((s.gate (unitGate r.unit)).integ + 1) ∧
        (t.gate (unitGate r.unit)).suspect = ((s.gate (unitGate r.unit)).suspect || (s.gate (unitGate r.unit)).integ == 2) ∧
        (∀ g, g ≠ unitGate r.unit → t.gate g = s.gate g) ∧ OnlyIn [.flt, .net, .host, .evt, .pool] s t) ∧
    (r.error = .tableUncorrectable → r.code = 0x0041 → unitKind r.unit = 1 → (s.unitFlt r.unit).bucket + 1 < s.boot.cfg.retireThresh →
      s.sys.mode = .service →
      ∃ t, exec (.fault r) s = .next t ∧ t.unitFlt r.unit = { s.unitFlt r.unit with
          state := 1, code := 0x0041, quiet := s.boot.cfg.quiet, bucket := (s.unitFlt r.unit).bucket + 1 } ∧
        t.sys.mode = .degraded ∧ t.sys.cause = 0x0041 ∧ (∀ x ∈ t.net.outst, x.unit ≠ r.unit) ∧
        (∀ u, u ≠ r.unit → t.unitFlt u = s.unitFlt u)) ∧
    (r.error = .rootMismatch → r.code = 0x0704 → s.sys.mode = .service →
      ∃ t, exec (.fault r) s = .next t ∧ t.sys.mode = .quarantine ∧ t.sys.cause = 0x0704 ∧ t.sys.alert = true ∧ t.Zeroized) ∧
    ((∀ c, r.error ≠ .badCopy c) → exec (.fault r) s = .next (s.takeFault r)) ∧
    (∀ f a, r.error = .badCopy (.instruction f a) → (∃ e ∈ (s.finger f).ibuf, e.1 = a) →
      ∃ t, exec (.fault r) s = .next t ∧ t.finger f = { s.finger f with ibuf := (s.finger f).ibuf.filter (fun e => e.1 != a) } ∧
        t.flt.refetch = s.flt.refetch ++ [r] ∧ t.flt.details = s.flt.details ∧ t.flt.fltLog = s.flt.fltLog ∧
        OnlyIn [.work, .flt] s t) ∧
    (∀ c, r.error = .badCopy c → exec (.fault r) s = .next (s.dropCopy r c))

/-- Buckets, self-tests and the end of a fence (R164-R166, R520, R524, R525, R532): a bucket drains by one and never below 0, a passed
self-test brings the end of the quiet period nearer and a failed one starts it again, and the fence lifts at its end. The retirement log
(R528, R529, R531, R537): a removal is recorded with the cold-reset count and the time, at the lowest free index or over the oldest
record of kind 12, and counted as unrecorded where there is none; a write that fails is reported; PF0 marks records for clearing and
takes the mark back, where its registers take writes. -/
def Obligations.FaultTimersAndRetirementLogComplete : Prop :=
  (∀ s : State,
    (∀ k p g, exec (.leakyBucketDrain (.wire k p g)) s = .next { s with
      flt.wires := s.flt.wires.mod 0 ((k * 4 + p) * 8 + g) (· - 1) }) ∧
    (∀ c l, exec (.leakyBucketDrain (.hostLane c l)) s = .next { s with flt.hostLanes := s.flt.hostLanes.mod 0 (c * 16 + l) (· - 1) }) ∧
    (∀ q c, exec (.leakyBucketDrain (.hbmPseudo q c)) s = .next { s with flt.pseudo := s.flt.pseudo.mod 0 (q * 32 + c) (· - 1) }) ∧
    (∀ u, ∃ t, exec (.leakyBucketDrain (.recovery u)) s = .next t ∧ (t.unitFlt u).bucket = (s.unitFlt u).bucket - 1 ∧
      (t.unitFlt u).state = (s.unitFlt u).state ∧ OnlyIn [.flt] s t) ∧
    (∀ g, ∃ t, exec (.leakyBucketDrain (.ddrIntegrity g)) s = .next t ∧ (t.gate g).integ = (s.gate g).integ - 1 ∧
      (t.gate g).suspect = ((s.gate g).suspect && decide (1 < (s.gate g).integ)) ∧ (∀ j, j ≠ g → t.gate j = s.gate j) ∧ OnlyIn [.pool] s t) ∧
    (∀ g, ∃ t, exec (.leakyBucketDrain (.ddrUncorrectable g)) s = .next t ∧ t.gate g = { s.gate g with ue := (s.gate g).ue - 1 } ∧
      (∀ j, j ≠ g → t.gate j = s.gate j) ∧ OnlyIn [.pool] s t) ∧
    (∀ l, ∃ t, exec (.leakyBucketDrain (.borderDown l)) s = .next t ∧
      t.blink l = { s.blink l with downBucket := (s.blink l).downBucket - 1 } ∧ (∀ j, j ≠ l → t.blink j = s.blink j) ∧
      OnlyIn [.basket] s t) ∧
    (∀ u, s.awake = true → (s.unitFlt u).state = 1 →
      (∃ t, exec (.selfTestTick u true) s = .next t ∧ t.unitFlt u = { s.unitFlt u with quiet := (s.unitFlt u).quiet - 1 } ∧
        (∀ j, j ≠ u → t.unitFlt j = s.unitFlt j) ∧ OnlyIn [.flt] s t) ∧
      (∃ t, exec (.selfTestTick u false) s = .next t ∧ t.unitFlt u = { s.unitFlt u with quiet := s.boot.cfg.quiet } ∧
        t.net.reports = s.net.reports ++ [mkFault (unitClass u) .selfTest 0x0041 u 0 none] ∧ OnlyIn [.flt, .net] s t) ∧
      (unitKind u = 1 → s.sys.mode ≠ .degraded →
        ∃ t, exec (.quietPeriodExpiry u) s = .next t ∧ t.unitFlt u = { s.unitFlt u with
          state := 0, code := 0, quiet := 0, recoveries := min 65535 ((s.unitFlt u).recoveries + 1) } ∧
          (∀ j, j ≠ u → t.unitFlt j = s.unitFlt j) ∧ OnlyIn [.flt, .pool] s t)) ∧
    (∀ l i, ∃ t, exec (.leakyBucketDrain (.borderLane l i)) s = .next t ∧
      t.blink l = { s.blink l with lanes := (s.blink l).lanes.mod 0 i (· - 1) } ∧ (∀ j, j ≠ l → t.blink j = s.blink j) ∧
      OnlyIn [.basket] s t) ∧
    (∀ u b, (s.unitFlt u).state ≠ 1 → exec (.selfTestTick u b) s = .next s ∧ exec (.quietPeriodExpiry u) s = .next s) ∧
    (∀ u, s.awake = true → (s.unitFlt u).state = 1 →
      ∃ t, exec (.quietPeriodExpiry u) s = .next t ∧ t.unitFlt u = { s.unitFlt u with
        state := 0, code := 0, quiet := 0, recoveries := min 65535 ((s.unitFlt u).recoveries + 1) } ∧
        (∀ j, j ≠ u → t.unitFlt j = s.unitFlt j) ∧
        (t.sys.mode = if s.sys.mode = .degraded ∧ t.anyFence = false then .service else s.sys.mode) ∧
        OnlyIn [.sys, .flt, .pool, .host, .basket, .evt, .net, .usg, .out] s t)) ∧
  (∀ (s : State) (kind unit element detail i : Nat), s.awake = true → (kind, unit, element, detail) ∈ s.flt.mramQ →
    s.recordSlot = some i →
    (∃ t, exec (.mramRecordWrite kind unit element detail true) s = .next t ∧
      t.flt.mramQ = eraseFirst (· == (kind, unit, element, detail)) s.flt.mramQ ∧
      (∀ d, t.boot.mram.log.get d i = {
        kind := kind, unit := unit, element := element, detail := detail, coldResets := s.boot.mram.coldResets, time := s.sys.now }) ∧
      (∀ d j, j ≠ i → t.boot.mram.log.get d j = s.boot.mram.log.get d j) ∧ OnlyIn [.flt, .boot] s t) ∧
    (∃ t, exec (.mramRecordWrite kind unit element detail false) s = .next t ∧ t.boot = s.boot ∧
      t.net.reports = s.net.reports ++ [mkFault 12 .mramFailed 0x004B crownUnit 0 none] ∧ OnlyIn [.flt, .net] s t)) ∧
  (∀ (s : State) (f : FnId) (i : Nat), s.bar0On f = true → f.fn = 0 →
    exec (.retireClear f true i) s = .next { s with
      boot.mram.log := s.boot.mram.log.map (fun e => (e.1, { e.2 with state := 1 })) } ∧
    exec (.retireClearCancel f true i) s = .next { s with
      boot.mram.log := s.boot.mram.log.map (fun e => (e.1, { e.2 with state := 0 })) } ∧
    (s.boot.mram.log.has i = true →
      exec (.retireClear f false i) s = .next { s with
        boot.mram.log := s.boot.mram.log.map (fun e => if e.1 == i then (e.1, { e.2 with state := 1 }) else e) } ∧
      exec (.retireClearCancel f false i) s = .next { s with
        boot.mram.log := s.boot.mram.log.map (fun e => if e.1 == i then (e.1, { e.2 with state := 0 }) else e) }) ∧
    (s.boot.mram.log.has i = false →
      exec (.retireClear f false i) s = .next (s.reject f 0x0003 1 0x10020) ∧
      exec (.retireClearCancel f false i) s = .next (s.reject f 0x0003 1 0x10020))) ∧
  (∀ (s : State) (kind unit element detail : Nat) (ok : Bool),
    ((kind, unit, element, detail) ∉ s.flt.mramQ → exec (.mramRecordWrite kind unit element detail ok) s = .next s) ∧
    (s.awake = true → (kind, unit, element, detail) ∈ s.flt.mramQ → s.recordSlot = none →
      ∃ t, exec (.mramRecordWrite kind unit element detail true) s = .next t ∧ t.boot = s.boot ∧
        t.flt.unrecorded = min 255 (s.flt.unrecorded + 1) ∧
        t.net.reports = s.net.reports ++ [mkFault 12 .contained 0x0713 crownUnit 0 none] ∧ OnlyIn [.flt, .net] s t)) ∧
  (∀ (s : State) (f : FnId) (all : Bool) (i : Nat), (s.bar0On f = false ∨ f.fn ≠ 0) →
    exec (.retireClear f all i) s = .next s ∧ exec (.retireClearCancel f all i) s = .next s)

/-- Violations, command slots, tamper and the thermal trip (R99, R153-R157, R165, R211-R214, R491, R532, R534, R654): the first
violation of a glove fills its latch and later ones are counted; a slot goes to the foreground, a row hit before the oldest request,
before the staging reads and the scrub, and to an overdue scrub or a suspect channel's in its turn; a refresh takes it whole; a tamper
or thermal trip zeroizes the device and puts it in Quarantine. -/
def Obligations.ViolationSlotAndTripCommandsComplete : Prop :=
  ∀ s : State, s.awake = true →
    (∀ v : Violation, (s.glove v.glove).latch.valid = false →
      ∃ t, exec (.ruleFault v) s = .next t ∧ t.glove v.glove = { s.glove v.glove with latch := {
          valid := true, addr := v.addr / 64 * 64, code := v.code, count := 0, world := v.world, write := v.write, unit := v.unit } } ∧
        (∀ g, g ≠ v.glove → t.glove g = s.glove g) ∧ t.net.violations = eraseFirst (· == v) s.net.violations ∧
        OnlyIn [.net, .evt, .trust, .host] s t) ∧
    (∀ v : Violation, (s.glove v.glove).latch.valid = true →
      ∃ t, exec (.ruleFault v) s = .next t ∧ t.glove v.glove = { s.glove v.glove with latch := {
          (s.glove v.glove).latch with count := min 65535 ((s.glove v.glove).latch.count + 1) } } ∧
        (∀ g, g ≠ v.glove → t.glove g = s.glove g) ∧ t.net.violations = eraseFirst (· == v) s.net.violations ∧
        OnlyIn [.net, .evt, .trust] s t) ∧
    (∀ ch ecc, (s.gate ch).retired = false → (s.dom (13 + ch)).state = 0 → (s.gate ch).suspect = false → (s.gate ch).slots < 255 →
      (∀ r, pickSlot ch s.sys.now (s.gate ch).rows (s.gate ch).fg = some r →
        exec (.commandSlotGrant (.ddr ch) false .clean) s = .next (s.modGate ch (fun x =>
          { x with fg := passOver s.sys.now r x.fg, rows := openRow ch x.rows r, slots := x.slots + 1 }))) ∧
      ((s.gate ch).fg = [] → (∃ b ∈ (s.gate ch).reencs, 0 < b.left) →
        exec (.commandSlotGrant (.ddr ch) false ecc) s = .next (s.modGate ch Gate.grantStaging)) ∧
      ((s.gate ch).fg = [] → (∀ b ∈ (s.gate ch).reencs, b.left = 0) → (s.gate ch).scrub < s.channelLines →
        exec (.commandSlotGrant (.ddr ch) false .clean) s = .next (s.modGate ch (fun x =>
          { x with scrub := x.scrub + 1, slots := 0, passStart := x.passStart })))) ∧
    (∀ q pc r, (s.pool.hbmSched.get {} (q * 32 + pc)).slots < 255 → (s.dom (29 + q)).state = 0 →
      pickSlot (16 + q * 32 + pc) s.sys.now (s.pool.hbmSched.get {} (q * 32 + pc)).rows (s.pool.hbmSched.get {} (q * 32 + pc)).fg = some r →
      (∀ e ∈ (s.hgate (8 * q + pc / 4)).buf, e.1 ≠ r.addr) →
      exec (.commandSlotGrant (.hbm q pc) false .clean) s = .next { s with
        pool.hbmSched := s.pool.hbmSched.mod {} (q * 32 + pc) (fun x => { x with
          fg := passOver s.sys.now r x.fg, rows := openRow (16 + q * 32 + pc) x.rows r, slots := x.slots + 1 }) }) ∧
    (∀ i, s.evt.evtLive = true → (s.boot.cfg.evtIn.getD i {}).tamper = true → s.sys.mode ≠ .blank → s.sys.mode ≠ .quarantine →
      ∃ t, exec (.tamperInputAssert i) s = .next t ∧ t.sys.mode = .quarantine ∧ t.sys.cause = 0x0703 ∧ t.sys.alert = true ∧
        t.Zeroized ∧ mkFault 15 .contained 0x0703 gathererUnit i none ∈ t.net.reports) ∧
    (∀ quad, s.sys.thermtrip = false → s.sys.mode ≠ .quarantine →
      ∃ t, exec (.thermtrip quad) s = .next t ∧ t.sys.mode = .quarantine ∧ t.sys.cause = 0x0706 ∧ t.sys.thermtrip = true ∧
        Out.thermtrip true ∈ t.out ∧ t.Zeroized) ∧
    (∀ c ecc, exec (.commandSlotGrant c true ecc) s = .next s) ∧
    (∀ ch ecc, ((s.gate ch).retired = true ∨ (s.dom (13 + ch)).state ≠ 0) →
      exec (.commandSlotGrant (.ddr ch) false ecc) s = .next s) ∧
    (∀ ch ecc, (s.gate ch).retired = false → (s.dom (13 + ch)).state = 0 →
      ((((behind (newPass (s.gate ch).scrub s.channelLines (s.gate ch).passStart s.sys.now).1 s.channelLines
          (s.sys.now - (newPass (s.gate ch).scrub s.channelLines (s.gate ch).passStart s.sys.now).2) = true ∧ 255 ≤ (s.gate ch).slots) ∨
        ((s.gate ch).suspect = true ∧ 15 ≤ (s.gate ch).slots)) →
        exec (.commandSlotGrant (.ddr ch) false ecc) s = .next (s.scrubDdr ch ecc)) ∧
      ((s.gate ch).fg = [] → (∀ b ∈ (s.gate ch).reencs, b.left = 0) →
        exec (.commandSlotGrant (.ddr ch) false ecc) s = .next (s.scrubDdr ch ecc)) ∧
      (∀ r, (s.gate ch).slots < 255 → ((s.gate ch).suspect = true → (s.gate ch).slots < 15) →
        pickSlot ch s.sys.now (s.gate ch).rows (s.gate ch).fg = some r →
        exec (.commandSlotGrant (.ddr ch) false ecc) s = .next (s.grantDdr ch r ecc)))) ∧
    (∀ q pc ecc,
      ((s.dom (29 + q)).state ≠ 0 → exec (.commandSlotGrant (.hbm q pc) false ecc) s = .next s) ∧
      ((s.dom (29 + q)).state = 0 → (s.pool.hbmSched.get {} (q * 32 + pc)).slots < 255 →
        (∀ r, pickSlot (16 + q * 32 + pc) s.sys.now (s.pool.hbmSched.get {} (q * 32 + pc)).rows
            (s.pool.hbmSched.get {} (q * 32 + pc)).fg = some r →
          exec (.commandSlotGrant (.hbm q pc) false ecc) s = .next (s.grantHbm q pc r ecc)) ∧
        ((s.pool.hbmSched.get {} (q * 32 + pc)).fg = [] →
          exec (.commandSlotGrant (.hbm q pc) false ecc) s = .next (s.scrubHbm q pc ecc)))) ∧
    (∀ i, ((s.boot.cfg.evtIn.getD i {}).tamper = false ∨ s.evt.evtLive = false ∨ s.sys.mode = .blank) →
      exec (.tamperInputAssert i) s = .next s)

/-- The event gatherer (R481-R492): the lowest enabled active source is presented with its vector address, an edge source hands over its
counter, the end of a handler makes room for the next; an unfiltered pin reaches its sense logic at once and a filtered one after its
cycles, whatever its sense code; a pin before the inputs are in force only follows its level; a tamper input whose condition is met
zeroizes the device. Where a clause fixes what the spec leaves open it is the model's choice (log entry 19). -/
def Obligations.EventGathererCommandsComplete : Prop :=
  ∀ s : State, s.awake = true →
    (∀ i, s.evt.inService = none → i < 80 → (∀ j < i, (s.source j).enabled = false ∨ s.sourceActive j = false) →
      (s.source i).enabled = true → s.sourceActive i = true →
      (s.levelSource i = false →
        ∃ t, exec .sourcePresent s = .next t ∧ t.evt.inService = some i ∧
          t.evt.claimed = some ((s.source i).count, (s.source i).overflow) ∧
          t.source i = { s.source i with count := 0, overflow := false } ∧ (∀ j, j ≠ i → t.source j = s.source j) ∧ OnlyIn [.evt] s t) ∧
      (s.levelSource i = true →
        ∃ t, exec .sourcePresent s = .next t ∧ t.evt.inService = some i ∧ t.evt.claimed = none ∧
          (∀ j, (t.source j).count = (s.source j).count) ∧ OnlyIn [.evt] s t)) ∧
    ((∀ i < 80, (s.source i).enabled = false ∨ s.sourceActive i = false) → exec .sourcePresent s = .next s) ∧
    exec .endOfService s = .next { s with evt.inService := none, evt.claimed := none, evt.vector := none } ∧
    (∀ i level, s.evt.evtLive = true → (s.boot.cfg.evtIn.getD i {}).filter = false → (s.boot.cfg.evtIn.getD i {}).tamper = false →
      (s.boot.cfg.evtIn.getD i {}).sense = 4 → (s.evtPin i).pin ≠ level → (s.source i).enabled = true → (s.source i).count < 255 →
      ∃ t, exec (.evtInChange i level) s = .next t ∧ (t.evtPin i).pin = level ∧ t.source i = { s.source i with
        count := (s.source i).count + 1 } ∧ (∀ j, j ≠ i → t.source j = s.source j) ∧ OnlyIn [.evt] s t) ∧
    (∀ i level, s.evt.evtLive = true → (s.boot.cfg.evtIn.getD i {}).filter = true → (s.evtPin i).filtered ≠ level →
      ∃ t, exec (.evtInChange i level) s = .next t ∧ t.evtPin i = { s.evtPin i with pin := level } ∧
        (∀ j, t.source j = s.source j) ∧ OnlyIn [.evt] s t) ∧
    (∀ i, s.evt.evtLive = true → (s.boot.cfg.evtIn.getD i {}).filter = true → (s.boot.cfg.evtIn.getD i {}).tamper = false →
      (s.boot.cfg.evtIn.getD i {}).sense = 0 → (s.evtPin i).pin = true → (s.evtPin i).filtered = false →
      ∃ t, exec (.filterCountExpiry i) s = .next t ∧ t.evtPin i = { s.evtPin i with filtered := true, count := 0 } ∧
        (t.source i).level = true ∧ OnlyIn [.evt] s t) ∧
    (∀ i, s.evt.evtLive = true → (s.boot.cfg.evtIn.getD i {}).filter = true → (s.boot.cfg.evtIn.getD i {}).tamper = true →
      (s.boot.cfg.evtIn.getD i {}).sense = 0 → (s.evtPin i).pin = true → (s.evtPin i).filtered = false → s.sys.mode ≠ .blank →
      s.sys.mode ≠ .quarantine →
      ∃ t, exec (.filterCountExpiry i) s = .next t ∧ t.sys.mode = .quarantine ∧ t.sys.cause = 0x0703 ∧ t.Zeroized) ∧
    (∀ i, s.evt.inService = none → i < 80 → (∀ j < i, (s.source j).enabled = false ∨ s.sourceActive j = false) →
      (s.source i).enabled = true → s.sourceActive i = true →
      ∃ t, exec .sourcePresent s = .next t ∧ t.evt.vector = some (Config.vectorBase s.boot.cfg.microDigest + 16 * i)) ∧
    (s.evt.inService ≠ none → exec .sourcePresent s = .next s) ∧
    (∀ i level, s.evt.evtLive = true → (s.boot.cfg.evtIn.getD i {}).filter = false →
      ((s.evtPin i).pin ≠ level → exec (.evtInChange i level) s = .next ((s.modPin i (fun p =>
        { p with pin := level, count := if level == (s.evtPin i).filtered then 0 else p.count })).senseInput i (s.evtPin i).pin level)) ∧
      ((s.evtPin i).pin = level → ∃ t, exec (.evtInChange i level) s = .next t ∧ (t.evtPin i).pin = level ∧
        (∀ j, t.source j = s.source j) ∧ OnlyIn [.evt] s t)) ∧
    (∀ i level, s.evt.evtLive = false →
      ∃ t, exec (.evtInChange i level) s = .next t ∧ t.evtPin i = { s.evtPin i with pin := level, filtered := level, count := 0 } ∧
        (∀ j, t.source j = s.source j) ∧ OnlyIn [.evt] s t) ∧
    (∀ i, s.evt.evtLive = true → (s.boot.cfg.evtIn.getD i {}).filter = true → (s.evtPin i).pin ≠ (s.evtPin i).filtered →
      exec (.filterCountExpiry i) s = .next ((s.modPin i (fun p => { p with filtered := p.pin, count := 0 })).senseInput i
        (s.evtPin i).filtered (s.evtPin i).pin)) ∧
    (∀ i, s.evt.evtLive = false ∨ (s.boot.cfg.evtIn.getD i {}).filter = false ∨ (s.evtPin i).pin = (s.evtPin i).filtered →
      exec (.filterCountExpiry i) s = .next s)

/-- The recovery window (R560-R564): in Blank PF0 reads, erases, programs and verifies the flash and fuses the signer, one operation at
a time; an operation outside the flash, misaligned, on a fused signer or during another one is rejected with its code; outside Blank,
and on a VF, nothing happens; the end of an operation shows its code. Where a clause fixes what the spec leaves open it is the model's
choice (log entries 71, 72, 73). -/
def Obligations.RecoveryCommandsComplete : Prop :=
  ∀ (s : State) (f : FnId) (len : Nat) (copyB : Bool) (b : Board),
    (s.sys.mode = .blank → f.fn = 0 → s.memOn f = true → s.boot.rcvBusy = false →
      (0 < len → len ≤ 4096 → s.boot.rcvAddr + len ≤ 0x1000000 →
        exec (.recoveryRead f len) s = .next { s with
          boot.rcvBusy := true, boot.rcvOp := some (1, len, false), boot.rcvResult := 0
          boot.rcvBuf := Memory.writeAll 0 s.boot.rcvBuf 0 (Memory.readAll 0xFF s.boot.flash s.boot.rcvAddr len) }) ∧
      (s.boot.rcvAddr % 0x10000 = 0 → s.boot.rcvAddr + 0x10000 ≤ 0x1000000 →
        ∃ t, exec (.recoveryErase f) s = .next t ∧ t.boot.rcvBusy = true ∧
          (∀ a, Memory.read 0xFF t.boot.flash a =
            if s.boot.rcvAddr ≤ a ∧ a < s.boot.rcvAddr + 0x10000 then 0xFF else Memory.read 0xFF s.boot.flash a) ∧ OnlyIn [.boot] s t) ∧
      (0 < len → len ≤ 4096 → s.boot.rcvAddr + len ≤ 0x1000000 → s.boot.rcvAddr % 256 = 0 → len % 256 = 0 →
        exec (.recoveryProgram f len) s = .next { s with
          boot.rcvBusy := true, boot.rcvOp := some (3, len, false), boot.rcvResult := 0
          boot.flash := Memory.writeAll 0xFF s.boot.flash s.boot.rcvAddr (Memory.readAll 0 s.boot.rcvBuf 0 len) }) ∧
      (∃ t, exec (.recoveryVerify f copyB b) s = .next t ∧ t.boot.rcvBusy = true ∧ t.boot.rcvOp = some (4, 0, copyB) ∧
        t.boot.flash = s.boot.flash ∧ OnlyIn [.boot] s t) ∧
      (s.boot.signer = none →
        exec (.fuseSigner f) s = .next { s with
          boot.rcvBusy := true, boot.rcvOp := some (5, 0, false), boot.rcvResult := 0
          boot.signer := some (digestOf (Memory.readAll 0 s.boot.rcvBuf 0 48)) }) ∧
      (s.boot.signer ≠ none → exec (.fuseSigner f) s = .next (s.reject f 0x070C 1 0xC100)) ∧
      (s.boot.rcvAddr % 0x10000 ≠ 0 → s.boot.rcvAddr + 0x10000 ≤ 0x1000000 →
        exec (.recoveryErase f) s = .next (s.reject f 0x0002 1 0xC100))) ∧
    (s.sys.mode ≠ .blank → ∀ c ∈ [Instr.recoveryRead f len, .recoveryErase f, .recoveryProgram f len, .recoveryVerify f copyB b,
      .fuseSigner f], exec c s = .next s) ∧
    (s.awake = true → s.boot.rcvBusy = true →
      ∃ t, exec (.recoveryOpDone true) s = .next t ∧ t.boot.rcvBusy = false ∧ t.boot.rcvDone = true ∧
        t.boot.rcvCode = s.boot.rcvResult ∧ t.boot.flash = s.boot.flash ∧ OnlyIn [.boot, .evt] s t) ∧
    (s.awake = true → s.boot.rcvBusy = true →
      ∃ t, exec (.recoveryOpDone false) s = .next t ∧ t.boot.rcvBusy = false ∧ t.boot.rcvDone = true ∧ t.boot.rcvCode = 0x070F ∧
        OnlyIn [.boot, .evt] s t) ∧
    (s.sys.mode = .blank → f.fn = 0 → s.memOn f = true →
      (s.boot.rcvBusy = true → ∀ c ∈ [Instr.recoveryRead f len, .recoveryErase f, .recoveryProgram f len, .recoveryVerify f copyB b,
        .fuseSigner f], exec c s = .next (s.reject f 0x070D 1 0xC100)) ∧
      (s.boot.rcvBusy = false → (len = 0 ∨ 4096 < len ∨ 0x1000000 < s.boot.rcvAddr + len) →
        exec (.recoveryRead f len) s = .next (s.reject f 0x0003 1 0xC100) ∧
        exec (.recoveryProgram f len) s = .next (s.reject f 0x0003 1 0xC100)) ∧
      (s.boot.rcvBusy = false → 0 < len → len ≤ 4096 → s.boot.rcvAddr + len ≤ 0x1000000 →
        (s.boot.rcvAddr % 256 ≠ 0 ∨ len % 256 ≠ 0) → exec (.recoveryProgram f len) s = .next (s.reject f 0x0002 1 0xC100)) ∧
      (s.boot.rcvBusy = false → 0x1000000 < s.boot.rcvAddr + 0x10000 →
        exec (.recoveryErase f) s = .next (s.reject f 0x0003 1 0xC100)) ∧
      (s.boot.rcvBusy = false → exec (.recoveryVerify f copyB b) s = .next { s with
        boot.rcvBusy := true, boot.rcvOp := some (4, 0, copyB)
        boot.rcvResult := (({ s with boot.rcvBusy := true, boot.rcvOp := some (4, 0, copyB), boot.rcvResult := 0 } : State).checkCopy b
          copyB).1 })) ∧
    ((f.fn ≠ 0 ∨ s.memOn f = false) → ∀ c ∈ [Instr.recoveryRead f len, .recoveryErase f, .recoveryProgram f len, .recoveryVerify f copyB b,
      .fuseSigner f], exec c s = .next s) ∧
    (∀ ok, s.boot.rcvBusy = false → exec (.recoveryOpDone ok) s = .next s)

/-- The SMBus target (R559, R560, R651): reads send bytes of the status block and a block read its count and 32 bytes, a read of bytes
0-3 releases ALERT#, a write is acknowledged and ignored, a code above 0x87 is not acknowledged, and unpowered nothing is driven. That
the read itself is what releases ALERT# is log entry 52. Where a clause fixes what the spec leaves open it is the model's choice (log
entries 50, 98, 99, 100). -/
def Obligations.SmbusCommandsComplete : Prop :=
  ∀ (s : State) (cmd : Nat),
    (s.sys.aon = true → cmd ≤ 0x87 →
      ∃ t, exec (.smbusReadByte cmd) s = .next t ∧ t.out = s.out ++ [.smbus ((s.smbusStream cmd).take 1)] ∧
        t.sys = { s.sys with alert := s.sys.alert && !(decide (cmd < 4) && !s.sys.devRst) } ∧ OnlyIn [.out, .sys, .evt] s t) ∧
    (s.sys.aon = true → cmd ≤ 0x87 →
      ∃ t, exec (.smbusReadWord cmd) s = .next t ∧ t.out = s.out ++ [.smbus ((s.smbusStream cmd).take 2)] ∧
        OnlyIn [.out, .sys, .evt] s t) ∧
    (s.sys.aon = true → 0x80 ≤ cmd → cmd ≤ 0x87 →
      ∃ t, exec (.smbusBlockRead cmd) s = .next t ∧
        t.out = s.out ++ [.smbus (32 :: (s.statusBlock.drop (32 * (cmd - 0x80))).take 32)] ∧ OnlyIn [.out, .sys, .evt] s t) ∧
    (s.sys.aon = true → exec (.smbusWrite cmd) s = .next ((s.emit (.smbusAck true)).edge 77)) ∧
    (s.sys.aon = true → 0x87 < cmd → ∀ c ∈ [Instr.smbusReadByte cmd, .smbusReadWord cmd, .smbusBlockRead cmd],
      exec c s = .next (s.emit (.smbusAck false))) ∧
    (s.sys.aon = false → ∀ c ∈ [Instr.smbusReadByte cmd, .smbusReadWord cmd, .smbusBlockRead cmd, .smbusWrite cmd],
      exec c s = .next s) ∧
    (s.sys.aon = true → cmd < 0x80 →
      ∃ t, exec (.smbusBlockRead cmd) s = .next t ∧
        (∃ bs, t.out = s.out ++ [.smbus bs] ∧ bs = ((s.smbusStream cmd).take 2).take (((s.smbusStream cmd).getD 0 0).toNat + 1) ++
            (List.range (((s.smbusStream cmd).getD 0 0).toNat - 1)).map Config.smbusByte) ∧ OnlyIn [.out, .sys, .evt] s t)

/-- Power domains (R22, R568, R569, R575-R582, R588): an unwanted domain quiesces, commits once what it holds is written back, and reads
its target state; one that has become wanted aborts, or wakes after its entry; one that is woken releases its pads and reads on, and the
PIN_DOMAIN entries that wait for it complete; what refuses is recorded. In another phase nothing changes. Where a clause fixes what the
spec leaves open it is the model's choice (log entry 75). -/
def Obligations.PowerDomainCommandsComplete : Prop :=
  ∀ (s : State) (d : Nat), s.awake = true →
    (∀ target, s.sys.mode ≠ .blank → 7 ≤ s.boot.step → 0 < d → (s.dom d).state = 0 → (s.dom d).phase = 0 → s.wanted d = false →
      min ((s.boot.cfg.doms.getD d {}).lowest) (s.allowed d) = target → 0 < target →
      (∀ u ∈ domUnits d, (s.unitFlt u).state ≠ 2) →
      (∃ t, exec (.lingerExpiry d none) s = .next t ∧ t.dom d = { s.dom d with phase := 2, target := target } ∧
        (∀ j, j ≠ d → t.dom j = s.dom j)) ∧
      (∀ r, ∃ t, exec (.lingerExpiry d (some r)) s = .next t ∧
        t.dom d = { s.dom d with refused := min 65535 ((s.dom d).refused + 1), refuser := r } ∧
        (∀ j, j ≠ d → t.dom j = s.dom j) ∧ OnlyIn [.pwr, .evt] s t)) ∧
    ((s.dom d).phase = 2 → s.voted d = false → s.unitsBusy d = false → s.emptied d = true →
      ∃ t, exec (.domainCommit d) s = .next t ∧ t.dom d = { s.dom d with phase := 3, pads := (s.dom d).target == 2 } ∧
        (∀ j, j ≠ d → t.dom j = s.dom j) ∧ OnlyIn [.pwr] s t) ∧
    ((s.dom d).phase = 3 → (s.dom d).wakeAfter = false → s.wanted d = false → 8 < d →
      ∃ t, exec (.domainEntryComplete d) s = .next t ∧ t.dom d = { s.dom d with
        state := (s.dom d).target, phase := 0, target := 0, entries := ((s.dom d).entries + 1) % 2 ^ 32 } ∧
        (∀ j, j ≠ d → t.dom j = s.dom j) ∧ OnlyIn [.pwr, .pool] s t) ∧
    ((s.dom d).phase = 4 → (s.dom d).state = 2 → (s.dom d).pads = true →
      ∃ t, exec (.padReleaseDue d) s = .next t ∧ t.dom d = { s.dom d with pads := false } ∧ (∀ j, j ≠ d → t.dom j = s.dom j) ∧
        OnlyIn [.pwr, .evt] s t) ∧
    ((s.dom d).phase = 4 → (s.dom d).pads = false → (s.dom d).pinWait = [] →
      ∃ t, exec (.domainOn d) s = .next t ∧ t.dom d = { s.dom d with
        state := 0, phase := 0, wakes := ((s.dom d).wakes + 1) % 2 ^ 32 } ∧ (∀ j, j ≠ d → t.dom j = s.dom j) ∧
        OnlyIn [.pwr, .evt] s t) ∧
    (∀ o, (s.dom d).phase = 4 → (s.dom d).pads = false → (s.dom d).pinWait = [o] →
      ∃ t, exec (.domainOn d) s = .next t ∧ (t.dom d).state = 0 ∧ (t.dom d).pinWait = [] ∧ Completes s t o 0 0) ∧
    ((s.dom d).phase = 2 → s.voted d = true → exec (.domainCommit d) s = .next (s.wake d
      (slotWanter (((s.slots d).findIdx? (s.votes d)).getD 0)))) ∧
    ((s.dom d).phase = 2 → s.voted d = false → s.unitsBusy d = true → exec (.domainCommit d) s = .next s) ∧
    ((s.dom d).phase = 2 → s.voted d = false → s.unitsBusy d = false → s.emptied d = false →
      exec (.domainCommit d) s = .next (s.quiesce d)) ∧
    ((s.dom d).phase ≠ 2 → exec (.domainCommit d) s = .next s) ∧ ((s.dom d).phase ≠ 3 → exec (.domainEntryComplete d) s = .next s) ∧
    ((s.dom d).phase = 3 → (s.dom d).wakeAfter = true → 8 < d → s.boot.step < 7 → (s.dom d).target ≠ 0 →
      (domUnits d).all s.fenced = false →
      ∃ t, exec (.domainEntryComplete d) s = .next t ∧ t.dom d = { s.dom d with
        state := (s.dom d).target, phase := 4, target := 0, wakeAfter := false, noWake := false
        entries := ((s.dom d).entries + 1) % 2 ^ 32 } ∧
        (∀ j, j ≠ d → t.dom j = s.dom j) ∧ OnlyIn [.pwr, .pool] s t) ∧
    ((s.dom d).phase = 3 → 0 < d → d ≤ 8 → ∃ t, exec (.domainEntryComplete d) s = .next t ∧
      (t.dom d).state = (s.dom d).target ∧ (t.dom d).entries = ((s.dom d).entries + 1) % 2 ^ 32 ∧
      (∀ j, j ≠ d → t.dom j = s.dom j) ∧ OnlyIn [.pwr, .pool, .host, .trust] s t) ∧
    ((s.dom d).phase ≠ 4 ∨ (s.dom d).state ≠ 2 ∨ (s.dom d).pads = false → exec (.padReleaseDue d) s = .next s) ∧
    ((s.dom d).phase ≠ 4 ∨ (s.dom d).pads = true → exec (.domainOn d) s = .next s) ∧
    (∀ r, (s.sys.mode = .blank ∨ s.boot.step < 7 ∨ (s.dom d).state ≠ 0 ∨ (s.dom d).phase ≠ 0 ∨ s.wanted d = true ∨
        min ((s.boot.cfg.doms.getD d {}).lowest) (s.allowed d) = 0) → exec (.lingerExpiry d r) s = .next s)

/-- Resets and power of the device (R557-R559, R643, R650, R654): DEV_RST# or the loss of power good zeroizes the device and keeps what
R558 keeps; power brings it up in reset with ALERT# asserted; its removal loses what is volatile. -/
def Obligations.DeviceResetCommandsComplete : Prop :=
  ∀ s : State,
    (s.sys.aon = true → s.sys.devRst = false → ∀ c ∈ [Instr.devRstAssert, .powerGoodDeassert],
      ∃ t, exec c s = .next t ∧ t.sys.devRst = true ∧ t.sys.aon = true ∧ t.sys.alert = true ∧ t.sys.thermtrip = s.sys.thermtrip ∧
        Out.electricalIdle ∈ t.out ∧ t.Zeroized ∧ t.boot.mram = s.boot.mram ∧ t.boot.flash = s.boot.flash ∧
        t.boot.signer = s.boot.signer ∧ t.pool.ddr = s.pool.ddr ∧ t.work.queues = [] ∧ t.net.outst = [] ∧ t.pool.tier = []) ∧
    (s.sys.aon = true → s.sys.devRst = true → ∀ c ∈ [Instr.devRstAssert, .powerGoodDeassert], exec c s = .next s) ∧
    (∀ a, s.sys.aon = false →
      ∃ t, exec (.pgAonAssert a) s = .next t ∧
        t.sys = { s.sys with aon := true, devRst := true, smbAddr := a, alert := true } ∧ OnlyIn [.sys, .out] s t) ∧
    (s.sys.aon = true →
      ∃ t, exec .vddAonRemoved s = .next t ∧ t.sys.aon = false ∧ t.sys.alert = false ∧ t.sys.thermtrip = false ∧ t.pool = {} ∧
        t.boot.mram = s.boot.mram ∧ t.boot.flash = s.boot.flash ∧ t.boot.signer = s.boot.signer ∧ t.Zeroized ∧
        (s.sys.thermtrip = true → Out.thermtrip false ∈ t.out)) ∧
    (s.sys.aon = false → ∀ c ∈ [Instr.devRstAssert, .powerGoodDeassert, .vddAonRemoved], exec c s = .next s) ∧
    (∀ a, s.sys.aon = true → exec (.pgAonAssert a) s = .next s)

/-- Start-up (R531, R532, R548-R553, R561, R654): from DEV_RST# the device ends in Blank when no copy of the configuration passes its
checks, and in Service or Degraded, with its keys derived and its floors raised, when one does and no tamper input or training fails it.
That a thermal trip still held ends in Quarantine, and that Blank's cause is copy A's code, are log entries 53 and 54. Where a clause
fixes what the spec leaves open it is the model's choice (log entries 5, 20). -/
def Obligations.ColdResetCompletes : Prop :=
  (∀ (s : State) (b : Board), s.sys.aon = true → s.sys.devRst = true →
    (s.sys.thermtrip = true →
      ∃ t, exec (.coldReset b) s = .next t ∧ t.sys.mode = .quarantine ∧ t.sys.cause = 0x0706 ∧ t.sys.devRst = false ∧ t.Zeroized) ∧
    (s.sys.thermtrip = false → b.flashA = false → b.flashB = false →
      ∃ t, exec (.coldReset b) s = .next t ∧ t.sys.mode = .blank ∧ t.sys.cause = 0x070F ∧ t.sys.devRst = false ∧ t.boot.step = 2 ∧
        t.boot.resultA = 0x070F ∧ t.boot.resultB = 0x070F ∧ t.boot.mram.coldResets = (s.boot.mram.coldResets + 1) % 2 ^ 32 ∧
        (∀ e ∈ t.boot.mram.log, e.2.state ≠ 1) ∧ t.boot.flash = s.boot.flash) ∧
    (s.sys.thermtrip = false → b.ddrFail = [] → b.hbmFail = [] →
      ∃ t, exec (.coldReset b) s = .next t ∧ t.sys.devRst = false ∧ t.boot.flash = s.boot.flash ∧
        match (({ s.cleared with sys.devRst := false, boot.board := b } : State).startStep1 b).selectCopy b with
        | (_, _, none) => t.sys.mode = .blank ∧ t.boot.step = 2 ∧ t.boot.mram.patternFloor = s.boot.mram.patternFloor
        | (_, _, some (copy, p)) => (∀ e ∈ p.evtIn, e.tamper = false) →
            (t.sys.mode = .service ∨ t.sys.mode = .degraded) ∧ t.boot.step = 7 ∧ t.boot.copy = (if copy then 2 else 1) ∧
            t.trust.drbgReady = true ∧ t.trust.identityKey = some (Config.identityPrivate Config.seed) ∧
            t.trust.aliasKey = some (Config.aliasPrivate Config.seed Config.romDigest p.microDigest p.configDigest) ∧
            t.boot.mram.patternFloor = max s.boot.mram.patternFloor p.floor ∧
            t.boot.mram.ucodeFloor = max s.boot.mram.ucodeFloor (p.ucode / 65536)) ∧
    (∀ q pc, s.sys.thermtrip = false → b.ddrFail = [] → b.hbmFail = [(q, pc)] → (pc = 32 ∨ Config.hbmSpares q = 0) →
      ∃ t, exec (.coldReset b) s = .next t ∧
        match (({ s.cleared with sys.devRst := false, boot.board := b } : State).startStep1 b).selectCopy b with
        | (_, _, none) => t.sys.mode = .blank ∧ t.boot.step = 2
        | (_, _, some (_, p)) => (∀ e ∈ p.evtIn, e.tamper = false) →
            t.sys.mode = .quarantine ∧ t.sys.cause = 0x0705 ∧ t.Zeroized)) ∧
  (∀ (s : State) (b : Board), s.sys.aon = false ∨ s.sys.devRst = false → exec (.coldReset b) s = .next s)

/-- The usage ledger (R381, R382, R602, R604-R607, R611, R617, R618, R621): a minute forms the record of each glove, raises the minute
number and saves it; a failed save is reported and repeated; samples and anchors are taken; and PF0 reads its link's signed batches.
Where a clause fixes what the spec leaves open it is the model's choice (log entry 76). -/
def Obligations.UsageCommandsComplete : Prop :=
  (∀ s : State, s.serves = true →
    (∃ t, exec (.minuteBoundary true) s = .next t ∧ t.usg.seq = s.usg.seq + 1 ∧
      t.boot.mram.nextSeq = max s.boot.mram.nextSeq (s.usg.seq + 1) ∧ t.usg.seqFailed = false ∧ t.boot.flash = s.boot.flash ∧
      OnlyIn [.evt, .boot, .usg] s t) ∧
    (∃ t, exec (.minuteBoundary false) s = .next t ∧ t.usg.seq = s.usg.seq + 1 ∧ t.boot = s.boot ∧ t.usg.seqFailed = true ∧
      mkFault 12 .mramFailed 0x004B crownUnit 0 none ∈ t.net.reports ∧ OnlyIn [.evt, .net, .usg] s t) ∧
    (∀ g u, s.usg.usage = [(g, u)] → u.live = true → s.usg.batches = [] → 1 < s.boot.cfg.batchRecords →
      ∃ t b r, exec (.minuteBoundary true) s = .next t ∧ t.usg.batches = [b] ∧ b.glove = g ∧ b.closed = false ∧ b.records = [r] ∧
        r.glove = g ∧ r.seq = s.usg.seq ∧ r.tStart = u.tStart ∧ r.tEnd = s.sys.now ∧ r.works = u.works ∧ r.dmaPool = u.dmaPool) ∧
    (s.usg.seqFailed = true →
      (∃ t, exec (.mramSeqRetry true) s = .next t ∧ t.boot.mram.nextSeq = max s.boot.mram.nextSeq s.usg.seq ∧
        t.usg.seqFailed = false ∧ t.usg.seq = s.usg.seq ∧ OnlyIn [.boot, .usg] s t) ∧
      (∃ t, exec (.mramSeqRetry false) s = .next t ∧ t.boot = s.boot ∧
        t.net.reports = s.net.reports ++ [mkFault 12 .mramFailed 0x004B crownUnit 0 none] ∧ OnlyIn [.net] s t)) ∧
    exec .tierOccupancySample s = .next { s with
      usg.usage := s.usg.usage.map (fun e => (e.1,
        if e.2.live then { e.2 with tierSum := e.2.tierSum + s.occupancy e.1, tierN := e.2.tierN + 1 } else e.2)) }) ∧
  (∀ (s : State) (f : FnId) (v : BitVec 64), s.bar0On f = true → f.fn = 0 →
    exec (.usgAnchorWrite f v) s = .next { s with
      usg.anchor := v, usg.anchorTime := s.sys.now, usg.anchorSet := true
      usg.usage := s.usg.usage.map (fun e => (e.1, { e.2 with anchorSet := true })) }) ∧
  (∀ (s : State) (o : Origin) (glove first buf len : Nat), s.serves = true → s.fnExists o.q.fnId = true → o.q.fn = 0 →
    (glove ≠ 0xFFFF → s.linkHas o.q.link glove = false →
      ∃ t, exec (.getUsage o glove first buf len) s = .next t ∧ Completes s t o 0x0108 0 ∧ OnlyIn [.work, .host] s t) ∧
    (glove = 0xFFFF → buf % 64 ≠ 0 →
      ∃ t, exec (.getUsage o glove first buf len) s = .next t ∧ Completes s t o 0x0002 0 ∧ OnlyIn [.work, .host] s t) ∧
    (glove = 0xFFFF → buf % 64 = 0 → len % 64 = 0 → 0 < len → len ≤ 2 ^ 20 → s.usg.batches = [] →
      ∃ t, exec (.getUsage o glove first buf len) s = .next t ∧ Completes s t o 0 0 ∧ OnlyIn [.work, .usg] s t) ∧
    (∀ b, glove = 0xFFFF → buf % 64 = 0 → len % 64 = 0 → len ≤ 2 ^ 20 → s.usg.batches = [b] → b.link = o.q.link →
      b.linkSeq = some first → b.size ≤ len →
      ∃ t, exec (.getUsage o glove first buf len) s = .next t ∧ t.usg.batches = [{ b with returned := true }] ∧
        (∃ x ∈ t.net.outst, x.ctx = .crownWrite o 0 1 ∧ x.pkt.op = .memWr ∧ x.pkt.hostSpace = true ∧ x.pkt.link = o.q.link ∧
          x.pkt.fn = 0 ∧ x.pkt.addr = buf))) ∧
  (∀ (s : State) (ok : Bool), s.serves = false →
    exec (.minuteBoundary ok) s = .next s ∧ exec (.mramSeqRetry ok) s = .next s ∧ exec .tierOccupancySample s = .next s) ∧
  (∀ (s : State) (f : FnId) (v : BitVec 64), (s.bar0On f = false ∨ f.fn ≠ 0) → exec (.usgAnchorWrite f v) s = .next s) ∧
  (∀ (s : State) (o : Origin) (glove first buf len : Nat), s.serves = true → s.fnExists o.q.fnId = true → o.q.fn ≠ 0 →
    (badBuffer buf len = true →
      ∃ t, exec (.getUsage o glove first buf len) s = .next t ∧ Completes s t o 0x0002 0 ∧ OnlyIn [.work, .host] s t) ∧
    (badBuffer buf len = false → s.usg.batches = [] →
      ∃ t, exec (.getUsage o glove first buf len) s = .next t ∧ Completes s t o 0 0 ∧ OnlyIn [.work] s t)) ∧
  (∀ (s : State) (o : Origin) (glove first buf len : Nat), s.serves = true → s.fnExists o.q.fnId = true →
    (o.q.fn = 0 → glove = 0xFFFF ∨ s.linkHas o.q.link glove = true) → badBuffer buf len = false →
    first < (((s.retained o.q.link).head?).bind Batch.linkSeq).getD 0 →
    ∃ t, exec (.getUsage o glove first buf len) s = .next t ∧ Completes s t o 0x0003 0 ∧ OnlyIn [.work, .host] s t)

/-- Register and configuration writes without a row of their own (R7, R8, R12, R182, R294, R303, R304, R340, R341, R499, R511): the
writable bits of the register take the value, reserved ones take nothing, and a misshapen access is rejected; every configuration field
takes the values that R294 lists, and is left alone by another; a write reaches its field where the function's registers or its
configuration space are open, and nothing otherwise. Where a clause fixes what the spec leaves open it is the model's choice (log
entries 78, 91). -/
def Obligations.RegisterWriteCompletes : Prop :=
  (∀ (s : State) (f : FnId) (v : Nat), s.serves = true → s.fnEnabled f = true → (s.fn f).flr = false → (s.fn f).d3 = false →
    s.memOn f = true → s.cfgOpen f = true →
    (f.fn = 0 →
      exec (.registerWrite f (.bar0 0x20000 ((leBytes 8 v).map some))) s =
        .next (s.modLink f.link (fun x => { x with unitBase := bits v 9 4 })) ∧
      exec (.registerWrite f (.bar0 0xE000 ((leBytes 8 v).map some))) s =
        .next (s.modFn f (fun x => { x with cause := x.cause &&& ~~~ BitVec.ofNat 7 (v % 2 ^ 64) })) ∧
      exec (.registerWrite f (.bar0 0 ((leBytes 8 v).map some))) s = .next s ∧
      exec (.registerWrite f (.bar0 3 ((leBytes 8 v).map some))) s = .next (s.reject f 0x0002 1 3) ∧
      (∀ i < 2048, ∃ t, exec (.registerWrite f (.bar0 (0x1000000 + 16 * i) ((leBytes 8 v).map some))) s = .next t ∧
        (t.fn f).msix.get {} i = { (s.fn f).msix.get {} i with addr := BitVec.ofNat 64 v } ∧ OnlyIn [.host] s t) ∧
      exec (.registerWrite f (.cfg .vfMse 1)) s = .next (s.modLink f.link (fun x => { x with vfMse := true }))) ∧
    exec (.registerWrite f (.cfg .mse 1)) s = .next (s.modFn f (fun x => { x with mse := true })) ∧
    exec (.registerWrite f (.cfg .msixEnable 1)) s = .next (s.modFn f (fun x => { x with msixEnable := true })) ∧
    exec (.registerWrite f (.cfg .mps 256)) s = .next (s.modFn f (fun x => { x with mps := 256 })) ∧
    exec (.registerWrite f (.cfg .mrrs 4096)) s = .next (s.modFn f (fun x => { x with mrrs := 4096 })) ∧
    exec (.registerWrite f (.cfg .reserved v)) s = .next s) ∧
  (∀ (s : State) (f : FnId) (v : Nat), s.cfgOpen f = true →
    (f.fn = 0 → exec (.registerWrite f (.cfg .vfMse v)) s = .next (s.modLink f.link (fun x => { x with vfMse := v % 2 == 1 }))) ∧
    exec (.registerWrite f (.cfg .mse v)) s = .next (s.modFn f (fun x => { x with mse := v % 2 == 1 })) ∧
    exec (.registerWrite f (.cfg .msixEnable v)) s = .next (s.modFn f (fun x => { x with msixEnable := v % 2 == 1 })) ∧
    (v ∈ [128, 256, 512] → exec (.registerWrite f (.cfg .mps v)) s = .next (s.modFn f (fun x => { x with mps := v }))) ∧
    (v ∈ [128, 256, 512, 1024, 2048, 4096] →
      exec (.registerWrite f (.cfg .mrrs v)) s = .next (s.modFn f (fun x => { x with mrrs := v }))) ∧
    (v ∈ [64, 128] → exec (.registerWrite f (.cfg .rcb v)) s = .next (s.modFn f (fun x => { x with rcb := v }))) ∧
    ((v = 8 ∨ v = 10 ∨ (v = 14 ∧ (s.link f.link).flit = true)) →
      exec (.registerWrite f (.cfg .tags v)) s = .next (s.modFn f (fun x => { x with tags := v }))) ∧
    (v ∉ [128, 256, 512] → exec (.registerWrite f (.cfg .mps v)) s = .next s) ∧
    (v ∉ [128, 256, 512, 1024, 2048, 4096] → exec (.registerWrite f (.cfg .mrrs v)) s = .next s) ∧
    (v ∉ [64, 128] → exec (.registerWrite f (.cfg .rcb v)) s = .next s) ∧
    exec (.registerWrite f (.cfg .ctv v)) s = .next (s.modFn f (fun x => { x with ctv := v % 16 })) ∧
    (∀ e, exec (.registerWrite f (.cfg (.aerStatus e) 1)) s = .next (s.modFn f (fun x => { x with
        aer := x.aer.filter (· != e), aerHead := if (x.aerHead.map Prod.fst) == some e then none else x.aerHead })) ∧
      exec (.registerWrite f (.cfg (.aerStatus e) 0)) s = .next s ∧
      exec (.registerWrite f (.cfg (.aerMask e) 1)) s = .next (s.modFn f (fun x => { x with aerMask := withElem e x.aerMask })) ∧
      exec (.registerWrite f (.cfg (.aerSeverity e) 1)) s = .next (s.modFn f (fun x => { x with aerFatal := withElem e x.aerFatal }))) ∧
    (∀ b i lo hi, f.fn = 0 →
      exec (.registerWrite f (.cfg (.ideRid b lo hi) 1)) s = .next (s.modLink f.link (fun x =>
        { x with ideRids := x.ideRids.set b (lo, hi) })) ∧
      exec (.registerWrite f (.cfg (.ideAddr b i lo hi) 1)) s = .next (s.modLink f.link (fun x =>
        { x with ideAddrs := x.ideAddrs.set (2 * b + i) (lo, hi) }))) ∧
    (∀ b i, f.fn = 0 → (∀ e ∈ (s.link f.link).ide, e.id ≠ i ∧ e.block ≠ b) →
      exec (.registerWrite f (.cfg (.ideStream b i) 1)) s = .next (s.modLink f.link (fun x =>
        { x with ide := x.ide ++ [{ id := i, block := b }] }))) ∧
    (v % 2 = 1 → exec (.registerWrite f (.cfg .pmeStatus v)) s =
      .next ((s.modFn f (fun x => { x with pmeStatus := false })).wakeUpdate f.link)) ∧
    exec (.registerWrite f (.cfg .pmeEn v)) s = .next ((s.modFn f (fun x => { x with pmeEn := v % 2 == 1 })).wakeUpdate f.link) ∧
    exec (.registerWrite f (.cfg .reserved v)) s = .next s) ∧
  (∀ (s : State) (f : FnId) (off : Nat) (d : List (Option Byte)) (c : CfgField) (v : Nat),
    (s.memOn f = true → exec (.registerWrite f (.bar0 off d)) s = .next (s.writeBar0 f (s.link f.link).unitBase off d)) ∧
    (s.memOn f = false → exec (.registerWrite f (.bar0 off d)) s = .next s) ∧
    (s.cfgOpen f = false → exec (.registerWrite f (.cfg c v)) s = .next s))

/-- The SPDM responder of a host link (R67, R68, R82-R86, R99, R561): the fixed answers of R84, the certificate chain and the
measurements, and sessions with keys of their own, at most four a link, each established by a FINISH that is verified and comes in its
session; what a request asks wrongly is ERROR InvalidRequest, and what needs randomness that there is not is refused with
ENTROPY_FAILURE; in Blank and Quarantine these requests are answered ERROR Unspecified. Where a clause fixes what the spec leaves open
it is the model's choice (log entries 29, 30, 94, 95). -/
def Obligations.HostSpdmCommandsComplete : Prop :=
  ∀ (s : State) (l : Nat) (n : Option Nat), s.linkExists l = true → (s.link l).up = true →
    (s.serves = true →
      exec (.getVersion (.host l n)) s = .next (s.emit (.spdm (.host l n) (.version [0x12]))) ∧
      (∀ caps, exec (.getCapabilities (.host l n) caps) s = .next (s.emit (.spdm (.host l n) (.capabilities {
        cert := true, chal := true, meas := 0b10, keyEx := true, encrypt := true, mac := true, mutAuth := false, encap := false }
        20 4096 4096)))) ∧
      (∀ a, exec (.negotiateAlgorithms (.host l n) a) s = .next (s.emit (.spdm (.host l n)
        (if a.ecdsaP384 && a.sha384 && a.dheP384 && a.aes256gcm && a.keySchedule && a.dmtf then
          .algorithms ⟨true, true, true, true, true, true, false⟩ else .errorInvalidRequest)))) ∧
      exec (.getDigests (.host l n)) s = .next (s.emit (.spdm (.host l n) (.digests (Config.sha384 s.chain)))) ∧
      (∀ off len, exec (.getCertificate (.host l n) 0 off len) s = .next (s.emit (.spdm (.host l n)
        (if off < s.chain.length then
          .certificate ((s.chain.drop off).take (min len 1024)) (s.chain.length - off - min (min len 1024) (s.chain.length - off))
        else .errorInvalidRequest)))) ∧
      (∀ slot off len, slot ≠ 0 → exec (.getCertificate (.host l n) slot off len) s =
        .next (s.emit (.spdm (.host l n) .errorInvalidRequest))) ∧
      (s.noEntropy = false →
        (∀ t h, s.summary t = some h →
          ∃ u sig, exec (.challenge (.host l n) 0 t) s = .next u ∧ u.out = s.out ++ [.spdm (.host l n) (.challengeAuth h sig)] ∧
            OnlyIn [.out, .trust] s u) ∧
        exec (.getMeasurements (.host l n) 0 false) s = .next (s.emit (.spdm (.host l n) (.measurements [(0, [6])] none))) ∧
        (∀ i, 1 ≤ i → i ≤ 6 → exec (.getMeasurements (.host l n) i false) s =
          .next (s.emit (.spdm (.host l n) (.measurements [(i, s.block i)] none)))) ∧
        (∃ u sig, exec (.getMeasurements (.host l n) 0xFF true) s = .next u ∧
          u.out = s.out ++ [.spdm (.host l n) (.measurements (([1, 2, 3, 4, 5, 6] : List Nat).map (fun i => (i, s.block i))) (some sig))] ∧
          OnlyIn [.out, .trust] s u) ∧
        (∀ t h, s.summary t = some h → (s.link l).sessions.length < 4 →
          ∃ u k, exec (.keyExchange (.host l n) 0 t true) s = .next u ∧ u.link l = { s.link l with
              nextSession := ((s.link l).nextSession + 1) % 2 ^ 32
              sessions := (s.link l).sessions ++ [{ id := (s.link l).nextSession, established := false, key := k }] } ∧
            u.out = s.out ++ [.spdm (.host l n) (.keyExchangeRsp (s.link l).nextSession h false)] ∧
            (∀ j, j ≠ l → u.link j = s.link j) ∧ OnlyIn [.out, .trust, .host] s u) ∧
        (∀ t h, s.summary t = some h → 4 ≤ (s.link l).sessions.length →
          exec (.keyExchange (.host l n) 0 t true) s = .next (s.emit (.spdm (.host l n) .errorSessionLimit)))) ∧
      (∀ x, (s.link l).sessions = [x] → x.established = false → n = some x.id →
        ∃ u, exec (.finish (.host l n) x.id true) s = .next u ∧
          u.link l = { s.link l with sessions := [{ x with established := true }] } ∧
          u.out = s.out ++ [.spdm (.host l n) (.finishRsp x.id)] ∧ (∀ j, j ≠ l → u.link j = s.link j) ∧ OnlyIn [.out, .host] s u) ∧
      (∀ x, n = some x → (∃ y ∈ (s.link l).sessions, y.id = x) →
        ∃ u, exec (.endSession (.host l n)) s = .next u ∧
          u.link l = { s.link l with sessions := (s.link l).sessions.filter (fun y => y.id != x) } ∧
          (∀ e ∈ u.trust.shares, e.2.link ≠ l ∨ e.2.session ≠ x) ∧ u.out = s.out ++ [.spdm (.host l n) .endSessionAck] ∧
          OnlyIn [.out, .host, .trust] s u) ∧
      (exec (.getEncapsulatedRequest (.host l n)) s = .next (s.emit (.spdm (.host l n) .errorUnsupportedRequest))) ∧
      (∀ r, exec (.deliverEncapsulatedResponse (.host l n) r) s = .next (s.emit (.spdm (.host l n) .errorUnsupportedRequest))) ∧
      exec (.spdmUnsupportedRequest (.host l n) .requestCode) s = .next (s.emit (.spdm (.host l n) .errorUnsupportedRequest)) ∧
      exec (.spdmUnsupportedRequest (.host l n) .ideKmNoSession) s = .next (s.emit (.spdm (.host l n) .errorSessionRequired))) ∧
    (s.awake = true → (s.sys.mode = .blank ∨ s.sys.mode = .quarantine) →
      ∀ c ∈ [Instr.getVersion (.host l n), .getDigests (.host l n), .getMeasurements (.host l n) 0 false,
        .keyExchange (.host l n) 0 0 true, .finish (.host l n) 0 true, .ideKmQuery (.host l n), .gloveKeyShare (.host l n) 0],
        exec c s = .next (s.emit (.spdm (.host l n) .errorUnspecified))) ∧
    (s.serves = true →
      (∀ slot t, (slot ≠ 0 ∨ s.summary t = none) → exec (.challenge (.host l n) slot t) s =
        .next (s.emit (.spdm (.host l n) .errorInvalidRequest))) ∧
      (∀ i sig, 6 < i → i ≠ 0xFF → exec (.getMeasurements (.host l n) i sig) s =
        .next (s.emit (.spdm (.host l n) .errorInvalidRequest))) ∧
      (∀ slot t p, (slot ≠ 0 ∨ s.summary t = none ∨ p = false) → exec (.keyExchange (.host l n) slot t p) s =
        .next (s.emit (.spdm (.host l n) .errorInvalidRequest))) ∧
      (s.noEntropy = true →
        (∀ t, s.summary t ≠ none → exec (.challenge (.host l n) 0 t) s = .next (s.emit (.spdm (.host l n) (.refused 0x0107))) ∧
          exec (.keyExchange (.host l n) 0 t true) s = .next (s.emit (.spdm (.host l n) (.refused 0x0107)))) ∧
        (∀ i, i ≤ 6 ∨ i = 0xFF → ∀ sig, exec (.getMeasurements (.host l n) i sig) s =
          .next (s.emit (.spdm (.host l n) (.refused 0x0107))))) ∧
      (s.noEntropy = false →
        (∀ i, 1 ≤ i → i ≤ 6 → ∃ u sig, exec (.getMeasurements (.host l n) i true) s = .next u ∧
          u.out = s.out ++ [.spdm (.host l n) (.measurements [(i, s.block i)] (some sig))] ∧ OnlyIn [.out, .trust] s u) ∧
        exec (.getMeasurements (.host l n) 0xFF false) s = .next (s.emit (.spdm (.host l n)
          (.measurements (([1, 2, 3, 4, 5, 6] : List Nat).map (fun i => (i, s.block i))) none)))) ∧
      (∀ x ∈ (s.link l).sessions, x.established = false → n = some x.id →
        exec (.finish (.host l n) x.id true) s = .next ((s.modLink l (fun y => { y with
          sessions := y.sessions.map (fun z => if z.id == x.id then { z with established := true } else z) })).emit
            (.spdm (.host l n) (.finishRsp x.id)))) ∧
      (∀ x sig, (sig = false ∨ n ≠ some x ∨ ∀ y ∈ (s.link l).sessions, y.id = x → y.established = true) →
        exec (.finish (.host l n) x sig) s = .next (s.emit (.spdm (.host l n) .errorInvalidRequest))) ∧
      ((∀ y ∈ (s.link l).sessions, n ≠ some y.id) →
        exec (.endSession (.host l n)) s = .next (s.emit (.spdm (.host l n) .errorInvalidRequest))) ∧
      exec (.spdmUnsupportedRequest (.host l n) .vendorDefined) s = .next (s.emit (.spdm (.host l n) .errorUnsupportedRequest)) ∧
      exec (.spdmUnsupportedRequest (.host l n) .tdispNoSession) s = .next (s.emit (.spdm (.host l n) .errorSessionRequired)) ∧
      exec (.spdmUnsupportedRequest (.host l n) .tdispVendor) s =
        .next (s.emit (.spdm (.host l n) (if s.inSession l n then .tdispErrorUnsupported else .errorSessionRequired))))

/-- The session between two Crowns (R74, R75, R457, R473): each request in its order moves the exchange one stage on, the last admits
the peer and takes its ADMITTING links to UP, and a request out of its order, or an error, ends the attempt. Where a clause fixes what
the spec leaves open it is the model's choice (log entry 96). -/
def Obligations.PeerSpdmCommandsComplete : Prop :=
  ∀ (s : State) (l n : Nat), s.serves = true → (s.blink l).state = .admitting → s.peerOf l = n →
    (s.responds l = true →
      (∀ c k m r, (c, k, m, r) ∈ ([(.getVersion (.border l), 1, 2, .version [0x12]),
          (.getCapabilities (.border l) (capsOf true), 2, 3, .capabilities (capsOf true) 20 4096 4096),
          (.negotiateAlgorithms (.border l) (algsOf true), 3, 4, .algorithms (algsOf true)),
          (.getDigests (.border l), 4, 5, .digests (Config.sha384 s.chain)),
          (.getEncapsulatedRequest (.border l), 7, 8, .encapsulatedRequest false),
          (.deliverEncapsulatedResponse (.border l) .digests, 8, 9, .encapsulatedRequest true)] : List (Instr × Nat × Nat × Spdm)) →
        (s.peer n).spdm = k →
        ∃ t, exec c s = .next t ∧ t.peer n = { s.peer n with spdm := m } ∧ t.out = s.out ++ [.spdm (.border l) r] ∧
          (∀ j, t.blink j = s.blink j) ∧ OnlyIn [.out, .basket] s t) ∧
      (∀ x, (s.peer n).spdm = 10 → (s.peer n).chainOk = true →
        ∃ t, exec (.finish (.border l) x true) s = .next t ∧ (t.peer n).state = .admitted ∧ (t.peer n).spdm = 11 ∧
          (t.peer n).session ≠ none ∧ (∀ j ∈ s.peerLinks n, (s.blink j).state = .admitting → (t.blink j).state = .up) ∧
          t.out = s.out ++ [.spdm (.border l) (.finishRsp x)] ∧ OnlyIn [.out, .basket, .trust, .evt] s t)) ∧
    (s.responds l = false →
      (∀ r k q, (r, k, q) ∈ ([(.version true, 1, 0xE1), (.capabilities (capsOf true), 2, 0xE3), (.algorithms (algsOf true), 3, 0x81),
          (.digests, 4, 0x82), (.keyExchangeRsp true true, 6, 0xEA), (.encapsulatedGetDigests, 7, 0xEB),
          (.encapsulatedGetCertificate 0, 8, 0xEB), (.encapsulatedAck, 9, 0xE5)] : List (PeerResponse × Nat × Nat)) →
        (s.peer n).spdm = k →
        ∃ t, exec (.peerSpdmResponse l r) s = .next t ∧ t.peer n = { s.peer n with spdm := k + 1 } ∧
          t.out = s.out ++ [.mgmt n (.spdm q) (s.peer n).session] ∧ (∀ j, t.blink j = s.blink j) ∧ OnlyIn [.out, .basket] s t) ∧
      ((s.peer n).spdm = 10 → (s.peer n).chainOk = true →
        ∃ t, exec (.finishRsp l) s = .next t ∧ (t.peer n).state = .admitted ∧ (t.peer n).spdm = 11 ∧ (t.peer n).session ≠ none ∧
          (∀ j ∈ s.peerLinks n, (s.blink j).state = .admitting → (t.blink j).state = .up) ∧ OnlyIn [.basket, .trust, .evt] s t) ∧
      (∃ t, exec (.peerSpdmResponse l .error) s = .next t ∧ (t.peer n).state = .fenced ∧ (t.peer n).spdm = 0 ∧
        (t.peer n).session = none)) ∧
    (s.responds l = true →
      (∀ off len, off < s.chain.length → ((s.peer n).spdm = 5 ∨ (s.peer n).spdm = 6) →
        ∃ t bs rest, exec (.getCertificate (.border l) 0 off len) s = .next t ∧ t.peer n = { s.peer n with spdm := 6 } ∧
          bs = (s.chain.drop off).take (min len 1024) ∧ t.out = s.out ++ [.spdm (.border l) (.certificate bs rest)] ∧
          OnlyIn [.out, .basket] s t) ∧
      ((s.peer n).spdm = 6 → s.noEntropy = false →
        ∃ t r, exec (.keyExchange (.border l) 0 0xFF true) s = .next t ∧ t.peer n = { s.peer n with spdm := 7 } ∧
          t.out = s.out ++ [.spdm (.border l) (.keyExchangeRsp 0 r true)] ∧ OnlyIn [.out, .basket] s t) ∧
      (∀ p, (s.peer n).spdm = 9 →
        ∃ t, exec (.deliverEncapsulatedResponse (.border l) (.certificate p)) s = .next t ∧
          (s.chainGood n p = true → t.peer n = { s.peer n with spdm := 10, chainOk := true } ∧
            t.out = s.out ++ [.spdm (.border l) .encapsulatedAck] ∧ OnlyIn [.out, .basket] s t) ∧
          (s.chainGood n p = false → t = (s.modPeer n (fun x => { x with chainOk := false })).admissionRefused l)) ∧
      ((s.peer n).spdm ≠ 1 → exec (.getVersion (.border l)) s = .next (s.admissionRefused l)) ∧
      ((s.peer n).spdm ≠ 4 → exec (.getDigests (.border l)) s = .next (s.admissionRefused l)) ∧
      (∀ x ok, ((s.peer n).spdm ≠ 10 ∨ (s.peer n).chainOk = false ∨ ok = false) →
        exec (.finish (.border l) x ok) s = .next (s.admissionRefused l))) ∧
    (s.responds l = false →
      (∀ p, (s.peer n).spdm = 5 → s.noEntropy = false →
        ∃ t, exec (.peerSpdmResponse l (.certificate p)) s = .next t ∧
          (s.chainGood n p = true → t.peer n = { s.peer n with spdm := 6, chainOk := true } ∧
            t.out = s.out ++ [.mgmt n (.spdm 0xE4) (s.peer n).session] ∧ OnlyIn [.out, .basket] s t) ∧
          (s.chainGood n p = false → t = (s.modPeer n (fun x => { x with chainOk := false })).admissionRefused l)) ∧
      ((s.peer n).spdm ≠ 10 ∨ (s.peer n).chainOk = false → exec (.finishRsp l) s = .next (s.admissionRefused l))) ∧
    (∀ t k, exec (.challenge (.border l) t k) s = .next (s.admissionRefused l) ∧
      exec (.spdmUnsupportedRequest (.border l) .requestCode) s = .next (s.admissionRefused l) ∧
      exec (.peerSpdmResponse l .other) s = .next (s.admissionRefused l))

/-- IDE key management and TDISP in a secure session (R67, R84, R87-R93, R98, R659): streams are keyed, started and stopped, an
interface is locked with a fresh nonce, reported, started by the tenant who holds the nonce, and stopped; what the interface's state or
the device does not allow is refused, and so is every such request outside a secure session. Where a clause fixes what the spec leaves
open it is the model's choice (log entries 31, 92). -/
def Obligations.IdeAndTdispCommandsComplete : Prop :=
  ∀ (s : State) (l k vf : Nat), s.serves = true → s.linkExists l = true → (s.link l).up = true → s.inSession l (some k) = true →
    (exec (.ideKmQuery (.host l (some k))) s =
      .next (s.emit (.spdm (.host l (some k)) (.ideQueryResp ((s.link l).ide.map (fun i => (i.id, i.secure))))))) ∧
    (∀ i slot key, (s.link l).ide = [i] →
      ∃ t, exec (.ideKmKeyProg (.host l (some k)) i.id slot ⟨true, true, false, false⟩ key) s = .next t ∧
        (t.link l).ide = [{ i with keys := i.keys.filter (fun x => x.1 != slot) ++ [(slot, key)] }] ∧
        t.out = s.out ++ [.spdm (.host l (some k)) (.ideKpAck true)] ∧ (∀ j, j ≠ l → t.link j = s.link j) ∧ OnlyIn [.out, .host] s t) ∧
    (∀ i ks, (s.link l).ide = [i] → (∀ d < 2, ∀ b < 3, ∃ x ∈ i.keys, x.1 = ⟨ks, d, b⟩) →
      ∃ t, exec (.ideKmKSetGo (.host l (some k)) i.id ks) s = .next t ∧
        (t.link l).ide = [{ i with secure := true, active := some ks }] ∧
        t.out = s.out ++ [.spdm (.host l (some k)) .ideGoStopAck] ∧ (∀ j, j ≠ l → t.link j = s.link j) ∧ OnlyIn [.out, .host] s t) ∧
    (∀ i ks, (s.link l).ide = [i] → i.active = some ks →
      ∃ t, exec (.ideKmKSetStop (.host l (some k)) i.id ks) s = .next t ∧
        (t.link l).ide = [{ i with keys := i.keys.filter (fun x => x.1.keySet != ks), secure := false, active := none }] ∧
        t.out = s.out ++ [.spdm (.host l (some k)) .ideGoStopAck] ∧ OnlyIn [.out, .host] s t) ∧
    (∀ c ∈ [Instr.bindP2pStreamRequest (.host l (some k)) vf, .unbindP2pStreamRequest (.host l (some k)) vf,
      .setMmioAttributeRequest (.host l (some k)) vf],
      exec c s = .next (s.emit (.spdm (.host l (some k)) .tdispErrorUnsupported))) ∧
    (0 < vf → s.fnEnabled ⟨l, vf⟩ = true →
      exec (.getTdispVersion (.host l (some k)) vf) s = .next (s.emit (.spdm (.host l (some k)) .tdispVersion)) ∧
      exec (.getTdispCapabilities (.host l (some k)) vf) s = .next (s.emit (.spdm (.host l (some k)) .tdispCapabilities)) ∧
      exec (.getDeviceInterfaceState (.host l (some k)) vf) s =
        .next (s.emit (.spdm (.host l (some k)) (.tdispState (s.glove (s.gloveOf ⟨l, vf⟩)).tdi))) ∧
      (∀ m, s.tdiStream l vf = some m → (s.glove (s.gloveOf ⟨l, vf⟩)).tdi = .unlocked →
        ((s.glove (s.gloveOf ⟨l, vf⟩)).state = .keyPending ∨ (s.glove (s.gloveOf ⟨l, vf⟩)).state = .opened) →
        (s.glove (s.gloveOf ⟨l, vf⟩)).tdisp = true → s.noEntropy = false →
        ∃ t nonce, exec (.lockInterfaceRequest (.host l (some k)) vf) s = .next t ∧
          t.glove (s.gloveOf ⟨l, vf⟩) = { s.glove (s.gloveOf ⟨l, vf⟩) with
            tdi := .locked, stream := some m, nonce := nonce, lockPages := (s.heldOf (s.gloveOf ⟨l, vf⟩)).length } ∧
          t.out = s.out ++ [.spdm (.host l (some k)) (.tdispLock nonce)] ∧
          (∀ j, j ≠ s.gloveOf ⟨l, vf⟩ → t.glove j = s.glove j) ∧ OnlyIn [.out, .trust] s t) ∧
      (exec (.getDeviceInterfaceReport (.host l (some k)) vf) s = .next (s.emit (.spdm (.host l (some k)) (.tdispReport (
        Config.mmioRanges [((s.link l).vfBar0 + (vf - 1) * 0x100000, 0x100000),
          ((s.link l).vfBar2 + (vf - 1) * 2 ^ (s.link l).vfSize, 2 ^ (s.link l).vfSize)] ++
        s.reportData l (s.gloveOf ⟨l, vf⟩)))))) ∧
      (∀ nonce, (s.glove (s.gloveOf ⟨l, vf⟩)).tdi = .locked → (s.glove (s.gloveOf ⟨l, vf⟩)).state = .opened →
        (nonce = (s.glove (s.gloveOf ⟨l, vf⟩)).nonce →
          exec (.startInterfaceRequest (.host l (some k)) vf nonce) s =
            .next ((s.modGlove (s.gloveOf ⟨l, vf⟩) (fun x => { x with tdi := .run })).emit (.spdm (.host l (some k)) .tdispStart))) ∧
        (nonce ≠ (s.glove (s.gloveOf ⟨l, vf⟩)).nonce →
          exec (.startInterfaceRequest (.host l (some k)) vf nonce) s =
            .next (s.emit (.spdm (.host l (some k)) .tdispErrorState)))) ∧
      ((s.glove (s.gloveOf ⟨l, vf⟩)).tdi ≠ .unlocked →
        exec (.stopInterfaceRequest (.host l (some k)) vf) s =
          .next ((s.modGlove (s.gloveOf ⟨l, vf⟩) (fun x => { x with tdi := .unlocked, stream := none, nonce := 0 })).emit
            (.spdm (.host l (some k)) .tdispStop)))) ∧
    (∀ id slot mode key, ((mode.aes256gcm && mode.flit && !mode.aggregation && !mode.pcrc) = false ∨
        ∀ i ∈ (s.link l).ide, i.id ≠ id) →
      exec (.ideKmKeyProg (.host l (some k)) id slot mode key) s = .next (s.emit (.spdm (.host l (some k)) (.ideKpAck false)))) ∧
    (∀ id ks,
      exec (.ideKmKSetGo (.host l (some k)) id ks) s = .next ((s.modStream l id (fun i =>
        if IdeStream.keyed i ks then { i with secure := true, active := some ks } else i)).emit (.spdm (.host l (some k)) .ideGoStopAck)) ∧
      exec (.ideKmKSetStop (.host l (some k)) id ks) s = .next ((s.modStream l id (fun i =>
        if i.active == some ks then { i with keys := i.keys.filter (fun x => x.1.keySet != ks), secure := false, active := none }
        else { i with keys := i.keys.filter (fun x => x.1.keySet != ks) })).emit (.spdm (.host l (some k)) .ideGoStopAck))) ∧
    (∀ nonce, (vf = 0 ∨ s.fnEnabled ⟨l, vf⟩ = false) →
      ∀ c ∈ [Instr.getTdispVersion (.host l (some k)) vf, .getTdispCapabilities (.host l (some k)) vf,
        .getDeviceInterfaceState (.host l (some k)) vf, .lockInterfaceRequest (.host l (some k)) vf,
        .getDeviceInterfaceReport (.host l (some k)) vf, .startInterfaceRequest (.host l (some k)) vf nonce,
        .stopInterfaceRequest (.host l (some k)) vf],
        exec c s = .next (s.emit (.spdm (.host l (some k)) .tdispErrorInterface))) ∧
    (0 < vf → s.fnEnabled ⟨l, vf⟩ = true →
      ((s.tdiStream l vf = none ∨ (s.glove (s.gloveOf ⟨l, vf⟩)).tdi ≠ .unlocked ∨ (s.glove (s.gloveOf ⟨l, vf⟩)).tdisp = false) →
        exec (.lockInterfaceRequest (.host l (some k)) vf) s = .next (s.emit (.spdm (.host l (some k)) .tdispErrorState))) ∧
      ((s.glove (s.gloveOf ⟨l, vf⟩)).tdi = .unlocked →
        exec (.stopInterfaceRequest (.host l (some k)) vf) s = .next (s.emit (.spdm (.host l (some k)) .tdispErrorState))) ∧
      (∀ nonce, ((s.glove (s.gloveOf ⟨l, vf⟩)).tdi ≠ .locked ∨ (s.glove (s.gloveOf ⟨l, vf⟩)).state ≠ .opened) →
        exec (.startInterfaceRequest (.host l (some k)) vf nonce) s = .next (s.emit (.spdm (.host l (some k)) .tdispErrorState))) ∧
      (∀ m, s.tdiStream l vf = some m → (s.glove (s.gloveOf ⟨l, vf⟩)).tdi = .unlocked →
        ((s.glove (s.gloveOf ⟨l, vf⟩)).state = .keyPending ∨ (s.glove (s.gloveOf ⟨l, vf⟩)).state = .opened) →
        (s.glove (s.gloveOf ⟨l, vf⟩)).tdisp = true → s.noEntropy = true →
        exec (.lockInterfaceRequest (.host l (some k)) vf) s = .next (s.emit (.spdm (.host l (some k)) (.refused 0x0107))))) ∧
    (∀ n nonce stream slot mode key ks, s.inSession l n = false →
      ∀ c ∈ [Instr.ideKmQuery (.host l n), .ideKmKeyProg (.host l n) stream slot mode key, .ideKmKSetGo (.host l n) stream ks,
        .ideKmKSetStop (.host l n) stream ks, .getTdispVersion (.host l n) vf, .getTdispCapabilities (.host l n) vf,
        .getDeviceInterfaceState (.host l n) vf, .lockInterfaceRequest (.host l n) vf, .getDeviceInterfaceReport (.host l n) vf,
        .startInterfaceRequest (.host l n) vf nonce, .stopInterfaceRequest (.host l n) vf, .bindP2pStreamRequest (.host l n) vf,
        .unbindP2pStreamRequest (.host l n) vf, .setMmioAttributeRequest (.host l n) vf],
        exec c s = .next (s.emit (.spdm (.host l n) .errorSessionRequired)))

/-- The tenant's key and the Crown's randomness (R65-R73): a share is drawn for a glove of the link and replaces its old one; an install
uses the share up and opens the glove under the wrapped key, or is refused for its state, its share or its tag; both are refused outside
a session and for a glove of another link; entropy that fails is refused, reported and tried again. Where a clause fixes what the spec
leaves open it is the model's choice (log entries 7, 32). -/
def Obligations.GloveKeyAndEntropyCommandsComplete : Prop :=
  (∀ (s : State) (l k g : Nat), s.serves = true → s.linkExists l = true → (s.link l).up = true → s.inSession l (some k) = true →
    s.linkHas l g = true →
    (s.noEntropy = false →
      ∃ t x, exec (.gloveKeyShare (.host l (some k)) g) s = .next t ∧ x.link = l ∧ x.session = k ∧
        t.trust.shares = s.trust.shares.set g x ∧
        t.out = s.out ++ [.spdm (.host l (some k)) (.keyShareRsp g 0 x.id x.salt (Config.ecdhPublic x.priv))] ∧
        (∀ j, t.glove j = s.glove j) ∧ OnlyIn [.out, .trust] s t) ∧
    (s.noEntropy = true →
      exec (.gloveKeyShare (.host l (some k)) g) s = .next (s.emit (.spdm (.host l (some k)) (.keyShareRsp g 0x0107 0 0 0)))) ∧
    (∀ id point w tag, (s.glove g).state ≠ .keyPending →
      exec (.gloveKeyInstall (.host l (some k)) g id point w tag) s =
        .next (s.emit (.spdm (.host l (some k)) (.keyInstallRsp g 0x0104 0)))) ∧
    (∀ h point w tag, (s.glove g).state = .keyPending → (s.glove g).tdi = .locked → s.trust.shares = [(g, h)] → h.link = l →
      h.session = k →
      ∃ t, exec (.gloveKeyInstall (.host l (some k)) g h.id point w tag) s = .next t ∧ t.trust.shares = [] ∧
        (match (if Config.ecdhValid point then Config.gcmOpen (shareKek g h point).1 (shareKek g h point).2
            (leBytes 2 g ++ leBytes 4 h.id) w tag else none) with
          | some key => t.glove g = { s.glove g with state := .opened, keySource := 2, kcv := keyCheck key g } ∧
              t.slot g = { key := key, valid := true, home := s.boot.cfg.pos, glove := g } ∧
              t.out = s.out ++ [.spdm (.host l (some k)) (.keyInstallRsp g 0 (keyCheck key g))]
          | none => t.glove g = s.glove g ∧ t.slot g = s.slot g ∧
              t.out = s.out ++ [.spdm (.host l (some k)) (.keyInstallRsp g 0x0102 0)]) ∧
        (∀ j, j ≠ g → t.glove j = s.glove j) ∧ (∀ j, j ≠ g → t.slot j = s.slot j) ∧ OnlyIn [.out, .trust] s t)) ∧
  (∀ s : State,
    (∀ g, exec (.shareExpiry g) s = .next { s with trust.shares := s.trust.shares.del g }) ∧
    (s.awake = true → s.trust.drbgReady = true → 4096 ≤ s.trust.drbgCount →
      exec .drbgReseed s = .next { s with trust.drbgCount := 0, trust.reseeds := min 65535 (s.trust.reseeds + 1) }) ∧
    (s.serves = true →
      ∃ t, exec .entropyHealthFail s = .next t ∧ t.trust = { s.trust with
          entropyFailed := true, drbgReady := false, healthFails := min 65535 (s.trust.healthFails + 1) } ∧
        t.net.reports = s.net.reports ++ [mkFault 10 .contained 0x0107 crownUnit 0 none] ∧ OnlyIn [.trust, .net] s t) ∧
    (s.serves = true → s.trust.entropyFailed = true →
      exec .entropyRetry s = .next { s with
        trust.entropyFailed := false, trust.drbgReady := true, trust.drbgCount := 0, trust.reseeds := min 65535 (s.trust.reseeds + 1) })) ∧
  (∀ (s : State) (l g : Nat) (n : Option Nat) (id : Nat) (point : BitVec 768) (w : Key) (tag : BitVec 128), s.serves = true →
    s.linkExists l = true → (s.link l).up = true →
    (s.inSession l n = false →
      exec (.gloveKeyShare (.host l n) g) s = .next (s.emit (.spdm (.host l n) (.keyShareRsp g 0x0105 0 0 0))) ∧
      exec (.gloveKeyInstall (.host l n) g id point w tag) s = .next (s.emit (.spdm (.host l n) (.keyInstallRsp g 0x0105 0)))) ∧
    (s.inSession l n = true → s.linkHas l g = false →
      exec (.gloveKeyShare (.host l n) g) s = .next (s.emit (.spdm (.host l n) (.keyShareRsp g 0x0108 0 0 0))) ∧
      exec (.gloveKeyInstall (.host l n) g id point w tag) s = .next (s.emit (.spdm (.host l n) (.keyInstallRsp g 0x0108 0)))) ∧
    (s.inSession l n = true → s.linkHas l g = true →
      ((s.glove g).state = .keyPending → (s.glove g).tdi ≠ .locked →
        exec (.gloveKeyInstall (.host l n) g id point w tag) s = .next (s.emit (.spdm (.host l n) (.keyInstallRsp g 0x0104 0)))) ∧
      ((s.glove g).state = .keyPending → (s.glove g).tdi = .locked →
        (∀ e ∈ s.trust.shares, e.1 = g → e.2.id = id → e.2.link = l → n = some e.2.session → False) →
        exec (.gloveKeyInstall (.host l n) g id point w tag) s = .next (s.emit (.spdm (.host l n) (.keyInstallRsp g 0x0109 0)))))) ∧
  (∀ s : State,
    ((s.trust.drbgReady = false ∨ s.trust.drbgCount < 4096) → exec .drbgReseed s = .next s) ∧
    (s.serves = false → exec .entropyHealthFail s = .next s ∧ exec .entropyRetry s = .next s) ∧
    (s.trust.entropyFailed = false → exec .entropyRetry s = .next s))

/-- The knots of the Weave (R247, R249-R255, R261, R265, R268-R270, R282): a granted pair leaves its input and enters the next knot with
the port it takes there, or the unit at the local port; each single-bit error is corrected and reported, bad data poison the packet, and
a header error stops the direction; a credit returns to its sender, from a strand or from either side of the local port; freed room
takes the packet that waits for a sleeping unit. Where a clause fixes what the spec leaves open it is the model's choice (log entries
35, 36, 61). -/
def Obligations.KnotCommandsComplete : Prop :=
  ∀ (s : State) (knot port vc : Nat), s.awake = true →
    (∀ i f k, (s.outPort knot port).stopped = false → knotNext knot port = some k → s.grantVc knot port = some vc →
      s.candidate knot port vc = some (i, f) →
      (∃ t, exec (.knotOutputGrant knot port {}) s = .next t ∧
        (t.knotQ k (farPort port) vc).pairs = (s.knotQ k (farPort port) vc).pairs ++
          [{ f with next := routePort k f.dest, seq := s.net.nextSeq, waited := false }] ∧
        (t.knotQ knot i vc).pairs = (s.knotQ knot i vc).pairs.drop 1 ∧
        (t.outPort knot port).hs = ((s.outPort knot port).hs + 1) % 2 ^ 32 ∧ t.net.pkts = s.net.pkts ∧ OnlyIn [.net] s t) ∧
      (∃ t, exec (.knotOutputGrant knot port { control := true }) s = .next t ∧ (t.outPort knot port).stopped = true ∧
        (t.knotQ knot i vc).pairs = (s.knotQ knot i vc).pairs ∧
        (∃ r ∈ t.net.reports, r.cls = 1 ∧ r.error = .headerCorrupt ∧ r.code = 0x0044) ∧ OnlyIn [.net] s t)) ∧
    (∀ e, (s.outPort knot port).stopped = false → (port = 4 ∨ (knotNext knot port).isSome = true) → s.grantVc knot port = none →
      exec (.knotOutputGrant knot port e) s = .next (s.countWaits knot port)) ∧
    (∀ i f, s.candidate knot 4 vc = some (i, f) → f.head = true → s.sleeps f = true → s.holdRoom knot vc f = true →
      (s.knotQ knot i vc).pairs = [f] →
      ∃ t, exec (.holdStoreRoomFreed knot vc) s = .next t ∧ (t.knotQ knot i vc).pairs = [] ∧
        (t.holdStore knot vc).pkts = (s.holdStore knot vc).pkts ++ [f.pkt] ∧ OnlyIn [.net, .pwr, .evt] s t) ∧
    (∀ k, knotNext knot port = some k → (inKey k (farPort port) vc, false) ∈ s.net.credits →
      ∃ t, exec (.creditReturn knot port vc false) s = .next t ∧
        t.knotQ k (farPort port) vc = { s.knotQ k (farPort port) vc with reserved := (s.knotQ k (farPort port) vc).reserved + 1 } ∧
        t.net.credits = s.net.credits.erase (inKey k (farPort port) vc, false) ∧ OnlyIn [.net] s t) ∧
    (∀ k, knotNext knot port = some k → (inKey k (farPort port) vc, true) ∈ s.net.credits →
      ∃ t, exec (.creditReturn knot port vc true) s = .next t ∧
        t.knotQ k (farPort port) vc = { s.knotQ k (farPort port) vc with sharedHeld := (s.knotQ k (farPort port) vc).sharedHeld - 1 } ∧
        t.net.credits = s.net.credits.erase (inKey k (farPort port) vc, true) ∧ OnlyIn [.net] s t) ∧
    (∀ e, ((s.outPort knot port).stopped = true ∨ (port ≠ 4 ∧ knotNext knot port = none)) →
      exec (.knotOutputGrant knot port e) s = .next s) ∧
    (∀ i f e, (s.outPort knot 4).stopped = false → s.grantVc knot 4 = some vc → s.candidate knot 4 vc = some (i, f) →
      ∃ t, exec (.knotOutputGrant knot 4 e) s = .next t ∧ (t.knotQ knot i vc).pairs = (s.knotQ knot i vc).pairs.drop 1 ∧
        (t.outPort knot 4).hs = ((s.outPort knot 4).hs + 1) % 2 ^ 32 ∧ t.net.pkts = s.net.pkts ∧ OnlyIn [.net, .pwr, .evt] s t) ∧
    (∀ i f k e, (s.outPort knot port).stopped = false → knotNext knot port = some k → s.grantVc knot port = some vc →
      s.candidate knot port vc = some (i, f) →
      (hitsHeader e f = true →
        exec (.knotOutputGrant knot port e) s = .next ((s.modOut knot port (fun x => { x with stopped := true })).knotFault knot
          .headerCorrupt 0x0044 (knot * 4 + port))) ∧
      (hitsHeader e f = false →
        ∃ t, exec (.knotOutputGrant knot port e) s = .next t ∧ (t.outPort knot port).stopped = false ∧
          (∃ g, g.pkt = f.pkt ∧ g.next = routePort k f.dest ∧
            (t.knotQ k (farPort port) vc).pairs = (s.knotQ k (farPort port) vc).pairs ++ [g]) ∧
          (t.knotQ knot i vc).pairs = (s.knotQ knot i vc).pairs.drop 1 ∧
          (e.single ≠ [] → (t.outPort knot port).corrected = ((s.outPort knot port).corrected + e.single.length) % 2 ^ 32) ∧
          (∀ g ∈ e.single, ∃ r ∈ t.net.reports, r.error = .strandSingle knot port g ∧ r.code = 0x0040) ∧
          (hitsData e f = true → (∃ r ∈ t.net.reports, r.error = .contained ∧ r.code = 0x0045) ∧
            ∀ p, (f.pkt, p) ∈ s.net.pkts → (f.pkt, { p with ep := true }) ∈ t.net.pkts))) ∧
    (∀ b, (unitCredit knot vc, b) ∈ s.net.credits →
      exec (.creditReturn knot 4 vc b) s = .next (let u := s.modOut knot 4 (fun x => { x with unitUsed := x.unitUsed.mod 0 vc (· - 1) })
        { u with net.credits := u.net.credits.erase (unitCredit knot vc, b) })) ∧
    (∀ b, 2 ≤ vc → (inKey knot 4 vc, b) ∈ s.net.credits →
      exec (.creditReturn knot 5 vc b) s = .next (let u := s.modQ knot 4 vc (fun q => q.credit b)
        ({ u with net.credits := u.net.credits.erase (inKey knot 4 vc, b) } : State).pumpLocal knot vc)) ∧
    (∀ k b, port < 4 → knotNext knot port = some k → (inKey k (farPort port) vc, b) ∉ s.net.credits →
      exec (.creditReturn knot port vc b) s = .next s)

/-- Moves between pace points (R588, R590, R592, R596, R597): each report of the islands or of the AVSBus takes the move one stage
further, and a report that no move waits for changes nothing; a move that ends makes its target the current point; a transaction that
fails four times, the first and its three repeats, stops the sequencer until a retry reads the voltage. The pace monitors, the sample
window and thermal hold (R275, R276, R282, R593, R594): a sample's lowest reading counts and may raise the alarm; a window's end clears
its counts and chooses the point, the lowest under hold and the next one up on an alarm; a sensor at T_WARN starts the hold and all four
below it end it. A command whose condition does not hold changes nothing. Where a clause fixes what the spec leaves open it is the
model's choice (log entry 24). -/
def Obligations.PaceAndThermalCommandsComplete : Prop :=
  (∀ s : State, s.awake = true →
    (s.pwr.pace.moving = true → s.pwr.pace.target < s.pwr.pace.point → s.pwr.pace.written = false →
      exec .islandsLowReported s = .next { s with
        out := s.out ++ [.avsWrite s.boot.cfg.rail (if s.pwr.pace.target = 0 then 650 else if s.pwr.pace.target = 1 then 750 else 850)]
        pwr.pace := { s.pwr.pace with
          high := 0, attempts := 0
          targetMv := if s.pwr.pace.target = 0 then 650 else if s.pwr.pace.target = 1 then 750 else 850 } }) ∧
    (s.pwr.pace.moving = true → s.pwr.pace.avsFailed = false → s.pwr.pace.written = false →
      exec (.avsTransactionDone .writeOk) s = .next { s with
        out := s.out ++ [.avsRead s.boot.cfg.rail]
        pwr.pace := { s.pwr.pace with written := true, attempts := 0 } }) ∧
    (∀ mv, s.pwr.pace.moving = true → s.pwr.pace.avsFailed = false → s.pwr.pace.written = true → s.pwr.pace.readOk = false →
      mv ≤ s.pwr.pace.targetMv + 10 → s.pwr.pace.targetMv ≤ mv + 10 →
      exec (.avsTransactionDone (.readOk mv)) s = .next { s with
        pwr.pace := { s.pwr.pace with vdd := mv, attempts := 0, readOk := true } }) ∧
    (∀ mv, s.pwr.pace.moving = true → s.pwr.pace.avsFailed = false → s.pwr.pace.written = true → s.pwr.pace.readOk = false →
      (s.pwr.pace.targetMv + 10 < mv ∨ mv + 10 < s.pwr.pace.targetMv) →
      exec (.avsTransactionDone (.readOk mv)) s = .next { s with
        out := s.out ++ [.avsRead s.boot.cfg.rail]
        pwr.pace := { s.pwr.pace with vdd := mv, attempts := 0 } }) ∧
    (s.pwr.pace.moving = true → s.pwr.pace.avsFailed = false → s.pwr.pace.attempts < 3 →
      exec (.avsTransactionDone .failed) s = .next { s with
        out := s.out ++ [if s.pwr.pace.written then .avsRead s.boot.cfg.rail else .avsWrite s.boot.cfg.rail s.pwr.pace.targetMv]
        pwr.pace := { s.pwr.pace with attempts := s.pwr.pace.attempts + 1 } }) ∧
    (s.pwr.pace.moving = true → s.pwr.pace.avsFailed = false → 3 ≤ s.pwr.pace.attempts →
      ∃ t, exec (.avsTransactionDone .failed) s = .next t ∧ t.pwr.pace.avsFailed = true ∧ t.pwr.pace.high = 0 ∧
        t.pwr.pace.moving = false ∧ OnlyIn [.pwr, .evt, .net] s t) ∧
    (s.pwr.pace.moving = true → s.pwr.pace.readOk = true →
      ∃ t, exec .voltageGood s = .next t ∧ t.pwr.pace.point = s.pwr.pace.target ∧
        t.pwr.pace.moves = min 65535 (s.pwr.pace.moves + 1) ∧ t.pwr.doms = s.pwr.doms ∧ OnlyIn [.pwr, .out] s t) ∧
    (∀ mv, s.pwr.pace.avsFailed = true →
      ∃ t, exec (.avsRetryTick (.readOk mv)) s = .next t ∧ t.pwr.pace.avsFailed = false ∧ t.pwr.pace.vdd = mv ∧
        t.pwr.pace.point = t.pwr.pace.target ∧ t.pwr.doms = s.pwr.doms ∧ OnlyIn [.pwr, .out] s t) ∧
    (s.pwr.pace.avsFailed = true →
      exec (.avsRetryTick .failed) s = .next { s with out := s.out ++ [.avsRead s.boot.cfg.rail] }) ∧
    ((s.pwr.pace.moving = false ∨ s.pwr.pace.point ≤ s.pwr.pace.target ∨ s.pwr.pace.written = true) →
      exec .islandsLowReported s = .next s) ∧
    (∀ r, (s.pwr.pace.moving = false ∨ s.pwr.pace.avsFailed = true) → exec (.avsTransactionDone r) s = .next s) ∧
    ((s.pwr.pace.moving = false ∨ s.pwr.pace.readOk = false) → exec .voltageGood s = .next s) ∧
    (∀ r, s.pwr.pace.avsFailed = false → exec (.avsRetryTick r) s = .next s) ∧
    (s.pwr.pace.avsFailed = true → exec (.avsRetryTick .writeOk) s = .next { s with out := s.out ++ [.avsRead s.boot.cfg.rail] })) ∧
  (∀ (s : State) (q r : Nat) (rs : List Nat), s.awake = true →
    ∃ t, exec (.paceMonitorSample q (r :: rs)) s = .next t ∧ (t.quad q).cur = rs.foldl min r ∧
      (t.quad q).alarm = ((s.quad q).alarm || decide (rs.foldl min r < s.boot.cfg.lowThresh)) ∧
      (∀ j, j ≠ q → t.quad j = s.quad j) ∧ OnlyIn [.net] s t) ∧
  (∀ (s : State) (q : Nat), s.serves = true →
    ∃ t, exec (.wvePaceAlarmClear q) s = .next t ∧ t.quad q = { s.quad q with alarm := false, min := (s.quad q).cur } ∧
      (∀ j, j ≠ q → t.quad j = s.quad j) ∧ OnlyIn [.net] s t) ∧
  (∀ s : State, s.serves = true → s.pwr.pace.avsFailed = false → s.pwr.pace.moving = false → s.pwr.pace.hold = true →
    s.boot.cfg.paceMin < s.pwr.pace.point →
    ∃ t, exec .sampleWindowEnd s = .next t ∧ t.pwr.pace.moving = true ∧ t.pwr.pace.target = s.boot.cfg.paceMin ∧
      (∀ e ∈ t.net.knotOut, e.2.hs = 0 ∧ e.2.waits = 0) ∧ OnlyIn [.net, .pwr, .out] s t) ∧
  (∀ s : State, s.serves = true → s.pwr.pace.avsFailed = false → s.pwr.pace.moving = false → s.pwr.pace.hold = false →
    (∃ q < 4, (s.quad q).rose = true) → s.pwr.pace.point < s.boot.cfg.paceMax →
    ∃ t, exec .sampleWindowEnd s = .next t ∧ t.pwr.pace.moving = true ∧ t.pwr.pace.target = s.pwr.pace.point + 1) ∧
  (∀ (s : State) (q temp : Nat), s.serves = true → s.boot.cfg.tWarn ≤ temp → 0 < s.boot.cfg.tWarn → temp < 128 →
    s.pwr.pace.hold = false →
    ∃ t, exec (.tWarnReached q temp) s = .next t ∧ t.pwr.pace.hold = true ∧ (t.quad q).temp = temp ∧
      t.pwr.doms = s.pwr.doms ∧ OnlyIn [.net, .pwr, .out] s t) ∧
  (∀ (s : State) (t0 t1 t2 t3 : Nat), s.awake = true → s.pwr.pace.hold = true → s.boot.cfg.tWarn < 128 →
    (∀ x ∈ [t0, t1, t2, t3], x + 5 < s.boot.cfg.tWarn) →
    ∃ t, exec (.thermalHoldEnd [t0, t1, t2, t3]) s = .next t ∧ t.pwr.pace = { s.pwr.pace with hold := false } ∧
      t.pwr.doms = s.pwr.doms ∧ (t.quad 0).temp = t0 ∧ (t.quad 3).temp = t3 ∧ OnlyIn [.net, .pwr] s t) ∧
  (∀ s : State, s.serves = true → s.pwr.pace.hold = false → (∀ q < 4, (s.quad q).rose = false) → s.net.knotOut = [] →
    0 < s.boot.cfg.downUtil → s.pwr.pace.lowWindows = 0 → s.pwr.pace.avsFailed = false → s.pwr.pace.moving = false →
    ∃ t, exec .sampleWindowEnd s = .next t ∧ t.pwr.pace = { s.pwr.pace with lowWindows := 1 } ∧ OnlyIn [.net, .pwr] s t) ∧
  (∀ (s : State) (q temp : Nat) (ts : List Nat),
    (atLeast s.boot.cfg.tWarn temp = false ∨ s.serves = false → exec (.tWarnReached q temp) s = .next s) ∧
    ((s.pwr.pace.hold = false ∨ ts.length ≠ 4 ∨ ∃ x ∈ ts, atLeast (s.boot.cfg.tWarn - 5) x = true) →
      exec (.thermalHoldEnd ts) s = .next s) ∧
    (s.serves = false → exec .sampleWindowEnd s = .next s ∧ exec (.wvePaceAlarmClear q) s = .next s)) ∧
  (∀ (s : State) (q temp : Nat), s.serves = true → atLeast s.boot.cfg.tWarn temp = true → s.pwr.pace.hold = true →
    ∃ t, exec (.tWarnReached q temp) s = .next t ∧ (t.quad q).temp = temp ∧ t.pwr = s.pwr ∧ OnlyIn [.net] s t)
end

