-- ==== Sys2Proof/Laws/State.lean ====
section
/-! SUPPORT. What each update of one instance leaves and changes: a table read after a write, and for every `mod` operation the part of
the state it writes and the parts it leaves, so that no later proof unfolds a record update. -/

namespace Sys2Proof.Machine

/-- A table read after a write. -/
theorem Tbl.get_set {α : Type} (d : α) (t : Tbl α) (k : Nat) (v : α) (j : Nat) :
    Tbl.get d (Tbl.set t k v) j = if j = k then v else Tbl.get d t j := by
  induction t with
  | nil =>
    by_cases h : j = k
    · simp [Tbl.set, Tbl.get, h]
    · simp [Tbl.set, Tbl.get, h, Ne.symm h]
  | cons e r ih =>
    obtain ⟨a, w⟩ := e
    unfold Tbl.set
    by_cases h1 : k < a
    · rw [if_pos h1]
      conv_lhs => unfold Tbl.get
      by_cases h : j = k
      · simp [h]
      · simp [h, Ne.symm h]
    · rw [if_neg h1]
      by_cases h2 : a = k
      · subst h2
        rw [if_pos rfl]
        unfold Tbl.get
        by_cases h : j = a
        · simp [h]
        · simp [h, Ne.symm h]
      · rw [if_neg h2]
        unfold Tbl.get
        rw [ih]
        by_cases h : a = j
        · subst h; simp [h2]
        · simp [h]

@[simp] theorem Tbl.get_set_same {α : Type} (d : α) (t : Tbl α) (k : Nat) (v : α) : Tbl.get d (Tbl.set t k v) k = v := by
  rw [Tbl.get_set, if_pos rfl]

@[simp] theorem Tbl.get_mod_same {α : Type} (d : α) (t : Tbl α) (k : Nat) (m : α → α) :
    Tbl.get d (Tbl.mod d t k m) k = m (Tbl.get d t k) := Tbl.get_set_same ..

theorem Tbl.get_mod_ne {α : Type} (d : α) (t : Tbl α) (k : Nat) (m : α → α) {j : Nat} (h : j ≠ k) :
    Tbl.get d (Tbl.mod d t k m) j = Tbl.get d t j := by
  rw [Tbl.mod, Tbl.get_set, if_neg h]

@[simp] theorem Tbl.get_nil {α : Type} (d : α) (k : Nat) : Tbl.get d ([] : Tbl α) k = d := rfl

/-! ### The instance written, and the others -/

@[simp] theorem State.modFn_same (s : State) (f : FnId) (m : Fn → Fn) : (s.modFn f m).fn f = m (s.fn f) := Tbl.get_mod_same ..
theorem State.modFn_ne (s : State) (f : FnId) (m : Fn → Fn) {j : FnId} (h : j.key ≠ f.key) : (s.modFn f m).fn j = s.fn j := Tbl.get_mod_ne _ _ _ _ h
@[simp] theorem State.modLink_same (s : State) (l : Nat) (m : Link → Link) : (s.modLink l m).link l = m (s.link l) := Tbl.get_mod_same ..
theorem State.modLink_ne (s : State) (l : Nat) (m : Link → Link) {j : Nat} (h : j ≠ l) : (s.modLink l m).link j = s.link j := Tbl.get_mod_ne _ _ _ _ h
@[simp] theorem State.modCuff_same (s : State) (c : Nat) (m : Cuff → Cuff) : (s.modCuff c m).cuff c = m (s.cuff c) := Tbl.get_mod_same ..
theorem State.modCuff_ne (s : State) (c : Nat) (m : Cuff → Cuff) {j : Nat} (h : j ≠ c) : (s.modCuff c m).cuff j = s.cuff j := Tbl.get_mod_ne _ _ _ _ h
@[simp] theorem State.modGlove_same (s : State) (g : Nat) (m : Glove → Glove) : (s.modGlove g m).glove g = m (s.glove g) := Tbl.get_mod_same ..
theorem State.modGlove_ne (s : State) (g : Nat) (m : Glove → Glove) {j : Nat} (h : j ≠ g) : (s.modGlove g m).glove j = s.glove j := Tbl.get_mod_ne _ _ _ _ h
@[simp] theorem State.modSlot_same (s : State) (b : Nat) (m : BandSlot → BandSlot) : (s.modSlot b m).slot b = m (s.slot b) := Tbl.get_mod_same ..
theorem State.modSlot_ne (s : State) (b : Nat) (m : BandSlot → BandSlot) {j : Nat} (h : j ≠ b) : (s.modSlot b m).slot j = s.slot j := Tbl.get_mod_ne _ _ _ _ h
@[simp] theorem State.modQueue_same (s : State) (q : QId) (m : Queue → Queue) : (s.modQueue q m).queue q = m (s.queue q) := Tbl.get_mod_same ..
theorem State.modQueue_ne (s : State) (q : QId) (m : Queue → Queue) {j : QId} (h : j.key ≠ q.key) : (s.modQueue q m).queue j = s.queue j := Tbl.get_mod_ne _ _ _ _ h
@[simp] theorem State.modFinger_same (s : State) (f : FgId) (m : Finger → Finger) : (s.modFinger f m).finger f = m (s.finger f) := Tbl.get_mod_same ..
theorem State.modFinger_ne (s : State) (f : FgId) (m : Finger → Finger) {j : FgId} (h : j.key ≠ f.key) : (s.modFinger f m).finger j = s.finger j := Tbl.get_mod_ne _ _ _ _ h
@[simp] theorem State.modGate_same (s : State) (g : Nat) (m : Gate → Gate) : (s.modGate g m).gate g = m (s.gate g) := Tbl.get_mod_same ..
theorem State.modGate_ne (s : State) (g : Nat) (m : Gate → Gate) {j : Nat} (h : j ≠ g) : (s.modGate g m).gate j = s.gate j := Tbl.get_mod_ne _ _ _ _ h
@[simp] theorem State.modQuad_same (s : State) (q : Nat) (m : Quad → Quad) : (s.modQuad q m).quad q = m (s.quad q) := Tbl.get_mod_same ..
theorem State.modQuad_ne (s : State) (q : Nat) (m : Quad → Quad) {j : Nat} (h : j ≠ q) : (s.modQuad q m).quad j = s.quad j := Tbl.get_mod_ne _ _ _ _ h
@[simp] theorem State.modBlink_same (s : State) (l : Nat) (m : BLink → BLink) : (s.modBlink l m).blink l = m (s.blink l) := Tbl.get_mod_same ..
theorem State.modBlink_ne (s : State) (l : Nat) (m : BLink → BLink) {j : Nat} (h : j ≠ l) : (s.modBlink l m).blink j = s.blink j := Tbl.get_mod_ne _ _ _ _ h
@[simp] theorem State.modPeer_same (s : State) (n : Nat) (m : Peer → Peer) : (s.modPeer n m).peer n = m (s.peer n) := Tbl.get_mod_same ..
theorem State.modPeer_ne (s : State) (n : Nat) (m : Peer → Peer) {j : Nat} (h : j ≠ n) : (s.modPeer n m).peer j = s.peer j := Tbl.get_mod_ne _ _ _ _ h
@[simp] theorem State.modSource_same (s : State) (i : Nat) (m : Source → Source) : (s.modSource i m).source i = m (s.source i) := Tbl.get_mod_same ..
theorem State.modSource_ne (s : State) (i : Nat) (m : Source → Source) {j : Nat} (h : j ≠ i) : (s.modSource i m).source j = s.source j := Tbl.get_mod_ne _ _ _ _ h
@[simp] theorem State.modDom_same (s : State) (d : Nat) (m : Dom → Dom) : (s.modDom d m).dom d = m (s.dom d) := Tbl.get_mod_same ..
theorem State.modDom_ne (s : State) (d : Nat) (m : Dom → Dom) {j : Nat} (h : j ≠ d) : (s.modDom d m).dom j = s.dom j := Tbl.get_mod_ne _ _ _ _ h
@[simp] theorem State.modUsage_same (s : State) (g : Nat) (m : Usage → Usage) : (s.modUsage g m).usage g = m (s.usage g) := Tbl.get_mod_same ..
theorem State.modUsage_ne (s : State) (g : Nat) (m : Usage → Usage) {j : Nat} (h : j ≠ g) : (s.modUsage g m).usage j = s.usage j := Tbl.get_mod_ne _ _ _ _ h
@[simp] theorem State.modUnit_same (s : State) (u : Nat) (m : UnitFlt → UnitFlt) : (s.modUnit u m).unitFlt u = m (s.unitFlt u) := Tbl.get_mod_same ..
theorem State.modUnit_ne (s : State) (u : Nat) (m : UnitFlt → UnitFlt) {j : Nat} (h : j ≠ u) : (s.modUnit u m).unitFlt j = s.unitFlt j := Tbl.get_mod_ne _ _ _ _ h

/-! ### The other instances and the other groups -/

@[simp] theorem State.modFn_link (s : State) (f : FnId) (m : Fn → Fn) (l' : Nat) : (s.modFn f m).link l' = s.link l' := rfl
@[simp] theorem State.modFn_cuff (s : State) (f : FnId) (m : Fn → Fn) (c' : Nat) : (s.modFn f m).cuff c' = s.cuff c' := rfl
@[simp] theorem State.modFn_glove (s : State) (f : FnId) (m : Fn → Fn) (g' : Nat) : (s.modFn f m).glove g' = s.glove g' := rfl
@[simp] theorem State.modFn_slot (s : State) (f : FnId) (m : Fn → Fn) (b' : Nat) : (s.modFn f m).slot b' = s.slot b' := rfl
@[simp] theorem State.modFn_queue (s : State) (f : FnId) (m : Fn → Fn) (q' : QId) : (s.modFn f m).queue q' = s.queue q' := rfl
@[simp] theorem State.modFn_finger (s : State) (f : FnId) (m : Fn → Fn) (f' : FgId) : (s.modFn f m).finger f' = s.finger f' := rfl
@[simp] theorem State.modFn_gate (s : State) (f : FnId) (m : Fn → Fn) (g' : Nat) : (s.modFn f m).gate g' = s.gate g' := rfl
@[simp] theorem State.modFn_quad (s : State) (f : FnId) (m : Fn → Fn) (q' : Nat) : (s.modFn f m).quad q' = s.quad q' := rfl
@[simp] theorem State.modFn_blink (s : State) (f : FnId) (m : Fn → Fn) (l' : Nat) : (s.modFn f m).blink l' = s.blink l' := rfl
@[simp] theorem State.modFn_peer (s : State) (f : FnId) (m : Fn → Fn) (n' : Nat) : (s.modFn f m).peer n' = s.peer n' := rfl
@[simp] theorem State.modFn_source (s : State) (f : FnId) (m : Fn → Fn) (i' : Nat) : (s.modFn f m).source i' = s.source i' := rfl
@[simp] theorem State.modFn_dom (s : State) (f : FnId) (m : Fn → Fn) (d' : Nat) : (s.modFn f m).dom d' = s.dom d' := rfl
@[simp] theorem State.modFn_usage (s : State) (f : FnId) (m : Fn → Fn) (g' : Nat) : (s.modFn f m).usage g' = s.usage g' := rfl
@[simp] theorem State.modFn_unitFlt (s : State) (f : FnId) (m : Fn → Fn) (u' : Nat) : (s.modFn f m).unitFlt u' = s.unitFlt u' := rfl
@[simp] theorem State.modFn_gpending (s : State) (f : FnId) (m : Fn → Fn) : (s.modFn f m).pending = s.pending := rfl
@[simp] theorem State.modFn_gout (s : State) (f : FnId) (m : Fn → Fn) : (s.modFn f m).out = s.out := rfl
@[simp] theorem State.modFn_gsys (s : State) (f : FnId) (m : Fn → Fn) : (s.modFn f m).sys = s.sys := rfl
@[simp] theorem State.modFn_gboot (s : State) (f : FnId) (m : Fn → Fn) : (s.modFn f m).boot = s.boot := rfl
@[simp] theorem State.modFn_gtrust (s : State) (f : FnId) (m : Fn → Fn) : (s.modFn f m).trust = s.trust := rfl
@[simp] theorem State.modFn_gwork (s : State) (f : FnId) (m : Fn → Fn) : (s.modFn f m).work = s.work := rfl
@[simp] theorem State.modFn_gpool (s : State) (f : FnId) (m : Fn → Fn) : (s.modFn f m).pool = s.pool := rfl
@[simp] theorem State.modFn_gnet (s : State) (f : FnId) (m : Fn → Fn) : (s.modFn f m).net = s.net := rfl
@[simp] theorem State.modFn_gbasket (s : State) (f : FnId) (m : Fn → Fn) : (s.modFn f m).basket = s.basket := rfl
@[simp] theorem State.modFn_gevt (s : State) (f : FnId) (m : Fn → Fn) : (s.modFn f m).evt = s.evt := rfl
@[simp] theorem State.modFn_gflt (s : State) (f : FnId) (m : Fn → Fn) : (s.modFn f m).flt = s.flt := rfl
@[simp] theorem State.modFn_gpwr (s : State) (f : FnId) (m : Fn → Fn) : (s.modFn f m).pwr = s.pwr := rfl
@[simp] theorem State.modFn_gusg (s : State) (f : FnId) (m : Fn → Fn) : (s.modFn f m).usg = s.usg := rfl
@[simp] theorem State.modLink_fn (s : State) (l : Nat) (m : Link → Link) (f' : FnId) : (s.modLink l m).fn f' = s.fn f' := rfl
@[simp] theorem State.modLink_cuff (s : State) (l : Nat) (m : Link → Link) (c' : Nat) : (s.modLink l m).cuff c' = s.cuff c' := rfl
@[simp] theorem State.modLink_glove (s : State) (l : Nat) (m : Link → Link) (g' : Nat) : (s.modLink l m).glove g' = s.glove g' := rfl
@[simp] theorem State.modLink_slot (s : State) (l : Nat) (m : Link → Link) (b' : Nat) : (s.modLink l m).slot b' = s.slot b' := rfl
@[simp] theorem State.modLink_queue (s : State) (l : Nat) (m : Link → Link) (q' : QId) : (s.modLink l m).queue q' = s.queue q' := rfl
@[simp] theorem State.modLink_finger (s : State) (l : Nat) (m : Link → Link) (f' : FgId) : (s.modLink l m).finger f' = s.finger f' := rfl
@[simp] theorem State.modLink_gate (s : State) (l : Nat) (m : Link → Link) (g' : Nat) : (s.modLink l m).gate g' = s.gate g' := rfl
@[simp] theorem State.modLink_quad (s : State) (l : Nat) (m : Link → Link) (q' : Nat) : (s.modLink l m).quad q' = s.quad q' := rfl
@[simp] theorem State.modLink_blink (s : State) (l : Nat) (m : Link → Link) (l' : Nat) : (s.modLink l m).blink l' = s.blink l' := rfl
@[simp] theorem State.modLink_peer (s : State) (l : Nat) (m : Link → Link) (n' : Nat) : (s.modLink l m).peer n' = s.peer n' := rfl
@[simp] theorem State.modLink_source (s : State) (l : Nat) (m : Link → Link) (i' : Nat) : (s.modLink l m).source i' = s.source i' := rfl
@[simp] theorem State.modLink_dom (s : State) (l : Nat) (m : Link → Link) (d' : Nat) : (s.modLink l m).dom d' = s.dom d' := rfl
@[simp] theorem State.modLink_usage (s : State) (l : Nat) (m : Link → Link) (g' : Nat) : (s.modLink l m).usage g' = s.usage g' := rfl
@[simp] theorem State.modLink_unitFlt (s : State) (l : Nat) (m : Link → Link) (u' : Nat) : (s.modLink l m).unitFlt u' = s.unitFlt u' := rfl
@[simp] theorem State.modLink_gpending (s : State) (l : Nat) (m : Link → Link) : (s.modLink l m).pending = s.pending := rfl
@[simp] theorem State.modLink_gout (s : State) (l : Nat) (m : Link → Link) : (s.modLink l m).out = s.out := rfl
@[simp] theorem State.modLink_gsys (s : State) (l : Nat) (m : Link → Link) : (s.modLink l m).sys = s.sys := rfl
@[simp] theorem State.modLink_gboot (s : State) (l : Nat) (m : Link → Link) : (s.modLink l m).boot = s.boot := rfl
@[simp] theorem State.modLink_gtrust (s : State) (l : Nat) (m : Link → Link) : (s.modLink l m).trust = s.trust := rfl
@[simp] theorem State.modLink_gwork (s : State) (l : Nat) (m : Link → Link) : (s.modLink l m).work = s.work := rfl
@[simp] theorem State.modLink_gpool (s : State) (l : Nat) (m : Link → Link) : (s.modLink l m).pool = s.pool := rfl
@[simp] theorem State.modLink_gnet (s : State) (l : Nat) (m : Link → Link) : (s.modLink l m).net = s.net := rfl
@[simp] theorem State.modLink_gbasket (s : State) (l : Nat) (m : Link → Link) : (s.modLink l m).basket = s.basket := rfl
@[simp] theorem State.modLink_gevt (s : State) (l : Nat) (m : Link → Link) : (s.modLink l m).evt = s.evt := rfl
@[simp] theorem State.modLink_gflt (s : State) (l : Nat) (m : Link → Link) : (s.modLink l m).flt = s.flt := rfl
@[simp] theorem State.modLink_gpwr (s : State) (l : Nat) (m : Link → Link) : (s.modLink l m).pwr = s.pwr := rfl
@[simp] theorem State.modLink_gusg (s : State) (l : Nat) (m : Link → Link) : (s.modLink l m).usg = s.usg := rfl
@[simp] theorem State.modCuff_fn (s : State) (c : Nat) (m : Cuff → Cuff) (f' : FnId) : (s.modCuff c m).fn f' = s.fn f' := rfl
@[simp] theorem State.modCuff_link (s : State) (c : Nat) (m : Cuff → Cuff) (l' : Nat) : (s.modCuff c m).link l' = s.link l' := rfl
@[simp] theorem State.modCuff_glove (s : State) (c : Nat) (m : Cuff → Cuff) (g' : Nat) : (s.modCuff c m).glove g' = s.glove g' := rfl
@[simp] theorem State.modCuff_slot (s : State) (c : Nat) (m : Cuff → Cuff) (b' : Nat) : (s.modCuff c m).slot b' = s.slot b' := rfl
@[simp] theorem State.modCuff_queue (s : State) (c : Nat) (m : Cuff → Cuff) (q' : QId) : (s.modCuff c m).queue q' = s.queue q' := rfl
@[simp] theorem State.modCuff_finger (s : State) (c : Nat) (m : Cuff → Cuff) (f' : FgId) : (s.modCuff c m).finger f' = s.finger f' := rfl
@[simp] theorem State.modCuff_gate (s : State) (c : Nat) (m : Cuff → Cuff) (g' : Nat) : (s.modCuff c m).gate g' = s.gate g' := rfl
@[simp] theorem State.modCuff_quad (s : State) (c : Nat) (m : Cuff → Cuff) (q' : Nat) : (s.modCuff c m).quad q' = s.quad q' := rfl
@[simp] theorem State.modCuff_blink (s : State) (c : Nat) (m : Cuff → Cuff) (l' : Nat) : (s.modCuff c m).blink l' = s.blink l' := rfl
@[simp] theorem State.modCuff_peer (s : State) (c : Nat) (m : Cuff → Cuff) (n' : Nat) : (s.modCuff c m).peer n' = s.peer n' := rfl
@[simp] theorem State.modCuff_source (s : State) (c : Nat) (m : Cuff → Cuff) (i' : Nat) : (s.modCuff c m).source i' = s.source i' := rfl
@[simp] theorem State.modCuff_dom (s : State) (c : Nat) (m : Cuff → Cuff) (d' : Nat) : (s.modCuff c m).dom d' = s.dom d' := rfl
@[simp] theorem State.modCuff_usage (s : State) (c : Nat) (m : Cuff → Cuff) (g' : Nat) : (s.modCuff c m).usage g' = s.usage g' := rfl
@[simp] theorem State.modCuff_unitFlt (s : State) (c : Nat) (m : Cuff → Cuff) (u' : Nat) : (s.modCuff c m).unitFlt u' = s.unitFlt u' := rfl
@[simp] theorem State.modCuff_gpending (s : State) (c : Nat) (m : Cuff → Cuff) : (s.modCuff c m).pending = s.pending := rfl
@[simp] theorem State.modCuff_gout (s : State) (c : Nat) (m : Cuff → Cuff) : (s.modCuff c m).out = s.out := rfl
@[simp] theorem State.modCuff_gsys (s : State) (c : Nat) (m : Cuff → Cuff) : (s.modCuff c m).sys = s.sys := rfl
@[simp] theorem State.modCuff_gboot (s : State) (c : Nat) (m : Cuff → Cuff) : (s.modCuff c m).boot = s.boot := rfl
@[simp] theorem State.modCuff_gtrust (s : State) (c : Nat) (m : Cuff → Cuff) : (s.modCuff c m).trust = s.trust := rfl
@[simp] theorem State.modCuff_gwork (s : State) (c : Nat) (m : Cuff → Cuff) : (s.modCuff c m).work = s.work := rfl
@[simp] theorem State.modCuff_gpool (s : State) (c : Nat) (m : Cuff → Cuff) : (s.modCuff c m).pool = s.pool := rfl
@[simp] theorem State.modCuff_gnet (s : State) (c : Nat) (m : Cuff → Cuff) : (s.modCuff c m).net = s.net := rfl
@[simp] theorem State.modCuff_gbasket (s : State) (c : Nat) (m : Cuff → Cuff) : (s.modCuff c m).basket = s.basket := rfl
@[simp] theorem State.modCuff_gevt (s : State) (c : Nat) (m : Cuff → Cuff) : (s.modCuff c m).evt = s.evt := rfl
@[simp] theorem State.modCuff_gflt (s : State) (c : Nat) (m : Cuff → Cuff) : (s.modCuff c m).flt = s.flt := rfl
@[simp] theorem State.modCuff_gpwr (s : State) (c : Nat) (m : Cuff → Cuff) : (s.modCuff c m).pwr = s.pwr := rfl
@[simp] theorem State.modCuff_gusg (s : State) (c : Nat) (m : Cuff → Cuff) : (s.modCuff c m).usg = s.usg := rfl
@[simp] theorem State.modGlove_fn (s : State) (g : Nat) (m : Glove → Glove) (f' : FnId) : (s.modGlove g m).fn f' = s.fn f' := rfl
@[simp] theorem State.modGlove_link (s : State) (g : Nat) (m : Glove → Glove) (l' : Nat) : (s.modGlove g m).link l' = s.link l' := rfl
@[simp] theorem State.modGlove_cuff (s : State) (g : Nat) (m : Glove → Glove) (c' : Nat) : (s.modGlove g m).cuff c' = s.cuff c' := rfl
@[simp] theorem State.modGlove_slot (s : State) (g : Nat) (m : Glove → Glove) (b' : Nat) : (s.modGlove g m).slot b' = s.slot b' := rfl
@[simp] theorem State.modGlove_queue (s : State) (g : Nat) (m : Glove → Glove) (q' : QId) : (s.modGlove g m).queue q' = s.queue q' := rfl
@[simp] theorem State.modGlove_finger (s : State) (g : Nat) (m : Glove → Glove) (f' : FgId) : (s.modGlove g m).finger f' = s.finger f' := rfl
@[simp] theorem State.modGlove_gate (s : State) (g : Nat) (m : Glove → Glove) (g' : Nat) : (s.modGlove g m).gate g' = s.gate g' := rfl
@[simp] theorem State.modGlove_quad (s : State) (g : Nat) (m : Glove → Glove) (q' : Nat) : (s.modGlove g m).quad q' = s.quad q' := rfl
@[simp] theorem State.modGlove_blink (s : State) (g : Nat) (m : Glove → Glove) (l' : Nat) : (s.modGlove g m).blink l' = s.blink l' := rfl
@[simp] theorem State.modGlove_peer (s : State) (g : Nat) (m : Glove → Glove) (n' : Nat) : (s.modGlove g m).peer n' = s.peer n' := rfl
@[simp] theorem State.modGlove_source (s : State) (g : Nat) (m : Glove → Glove) (i' : Nat) : (s.modGlove g m).source i' = s.source i' := rfl
@[simp] theorem State.modGlove_dom (s : State) (g : Nat) (m : Glove → Glove) (d' : Nat) : (s.modGlove g m).dom d' = s.dom d' := rfl
@[simp] theorem State.modGlove_usage (s : State) (g : Nat) (m : Glove → Glove) (g' : Nat) : (s.modGlove g m).usage g' = s.usage g' := rfl
@[simp] theorem State.modGlove_unitFlt (s : State) (g : Nat) (m : Glove → Glove) (u' : Nat) : (s.modGlove g m).unitFlt u' = s.unitFlt u' := rfl
@[simp] theorem State.modGlove_gpending (s : State) (g : Nat) (m : Glove → Glove) : (s.modGlove g m).pending = s.pending := rfl
@[simp] theorem State.modGlove_gout (s : State) (g : Nat) (m : Glove → Glove) : (s.modGlove g m).out = s.out := rfl
@[simp] theorem State.modGlove_gsys (s : State) (g : Nat) (m : Glove → Glove) : (s.modGlove g m).sys = s.sys := rfl
@[simp] theorem State.modGlove_gboot (s : State) (g : Nat) (m : Glove → Glove) : (s.modGlove g m).boot = s.boot := rfl
@[simp] theorem State.modGlove_ghost (s : State) (g : Nat) (m : Glove → Glove) : (s.modGlove g m).host = s.host := rfl
@[simp] theorem State.modGlove_gwork (s : State) (g : Nat) (m : Glove → Glove) : (s.modGlove g m).work = s.work := rfl
@[simp] theorem State.modGlove_gpool (s : State) (g : Nat) (m : Glove → Glove) : (s.modGlove g m).pool = s.pool := rfl
@[simp] theorem State.modGlove_gnet (s : State) (g : Nat) (m : Glove → Glove) : (s.modGlove g m).net = s.net := rfl
@[simp] theorem State.modGlove_gbasket (s : State) (g : Nat) (m : Glove → Glove) : (s.modGlove g m).basket = s.basket := rfl
@[simp] theorem State.modGlove_gevt (s : State) (g : Nat) (m : Glove → Glove) : (s.modGlove g m).evt = s.evt := rfl
@[simp] theorem State.modGlove_gflt (s : State) (g : Nat) (m : Glove → Glove) : (s.modGlove g m).flt = s.flt := rfl
@[simp] theorem State.modGlove_gpwr (s : State) (g : Nat) (m : Glove → Glove) : (s.modGlove g m).pwr = s.pwr := rfl
@[simp] theorem State.modGlove_gusg (s : State) (g : Nat) (m : Glove → Glove) : (s.modGlove g m).usg = s.usg := rfl
@[simp] theorem State.modSlot_fn (s : State) (b : Nat) (m : BandSlot → BandSlot) (f' : FnId) : (s.modSlot b m).fn f' = s.fn f' := rfl
@[simp] theorem State.modSlot_link (s : State) (b : Nat) (m : BandSlot → BandSlot) (l' : Nat) : (s.modSlot b m).link l' = s.link l' := rfl
@[simp] theorem State.modSlot_cuff (s : State) (b : Nat) (m : BandSlot → BandSlot) (c' : Nat) : (s.modSlot b m).cuff c' = s.cuff c' := rfl
@[simp] theorem State.modSlot_glove (s : State) (b : Nat) (m : BandSlot → BandSlot) (g' : Nat) : (s.modSlot b m).glove g' = s.glove g' := rfl
@[simp] theorem State.modSlot_queue (s : State) (b : Nat) (m : BandSlot → BandSlot) (q' : QId) : (s.modSlot b m).queue q' = s.queue q' := rfl
@[simp] theorem State.modSlot_finger (s : State) (b : Nat) (m : BandSlot → BandSlot) (f' : FgId) : (s.modSlot b m).finger f' = s.finger f' := rfl
@[simp] theorem State.modSlot_gate (s : State) (b : Nat) (m : BandSlot → BandSlot) (g' : Nat) : (s.modSlot b m).gate g' = s.gate g' := rfl
@[simp] theorem State.modSlot_quad (s : State) (b : Nat) (m : BandSlot → BandSlot) (q' : Nat) : (s.modSlot b m).quad q' = s.quad q' := rfl
@[simp] theorem State.modSlot_blink (s : State) (b : Nat) (m : BandSlot → BandSlot) (l' : Nat) : (s.modSlot b m).blink l' = s.blink l' := rfl
@[simp] theorem State.modSlot_peer (s : State) (b : Nat) (m : BandSlot → BandSlot) (n' : Nat) : (s.modSlot b m).peer n' = s.peer n' := rfl
@[simp] theorem State.modSlot_source (s : State) (b : Nat) (m : BandSlot → BandSlot) (i' : Nat) : (s.modSlot b m).source i' = s.source i' := rfl
@[simp] theorem State.modSlot_dom (s : State) (b : Nat) (m : BandSlot → BandSlot) (d' : Nat) : (s.modSlot b m).dom d' = s.dom d' := rfl
@[simp] theorem State.modSlot_usage (s : State) (b : Nat) (m : BandSlot → BandSlot) (g' : Nat) : (s.modSlot b m).usage g' = s.usage g' := rfl
@[simp] theorem State.modSlot_unitFlt (s : State) (b : Nat) (m : BandSlot → BandSlot) (u' : Nat) : (s.modSlot b m).unitFlt u' = s.unitFlt u' := rfl
@[simp] theorem State.modSlot_gpending (s : State) (b : Nat) (m : BandSlot → BandSlot) : (s.modSlot b m).pending = s.pending := rfl
@[simp] theorem State.modSlot_gout (s : State) (b : Nat) (m : BandSlot → BandSlot) : (s.modSlot b m).out = s.out := rfl
@[simp] theorem State.modSlot_gsys (s : State) (b : Nat) (m : BandSlot → BandSlot) : (s.modSlot b m).sys = s.sys := rfl
@[simp] theorem State.modSlot_gboot (s : State) (b : Nat) (m : BandSlot → BandSlot) : (s.modSlot b m).boot = s.boot := rfl
@[simp] theorem State.modSlot_ghost (s : State) (b : Nat) (m : BandSlot → BandSlot) : (s.modSlot b m).host = s.host := rfl
@[simp] theorem State.modSlot_gwork (s : State) (b : Nat) (m : BandSlot → BandSlot) : (s.modSlot b m).work = s.work := rfl
@[simp] theorem State.modSlot_gpool (s : State) (b : Nat) (m : BandSlot → BandSlot) : (s.modSlot b m).pool = s.pool := rfl
@[simp] theorem State.modSlot_gnet (s : State) (b : Nat) (m : BandSlot → BandSlot) : (s.modSlot b m).net = s.net := rfl
@[simp] theorem State.modSlot_gbasket (s : State) (b : Nat) (m : BandSlot → BandSlot) : (s.modSlot b m).basket = s.basket := rfl
@[simp] theorem State.modSlot_gevt (s : State) (b : Nat) (m : BandSlot → BandSlot) : (s.modSlot b m).evt = s.evt := rfl
@[simp] theorem State.modSlot_gflt (s : State) (b : Nat) (m : BandSlot → BandSlot) : (s.modSlot b m).flt = s.flt := rfl
@[simp] theorem State.modSlot_gpwr (s : State) (b : Nat) (m : BandSlot → BandSlot) : (s.modSlot b m).pwr = s.pwr := rfl
@[simp] theorem State.modSlot_gusg (s : State) (b : Nat) (m : BandSlot → BandSlot) : (s.modSlot b m).usg = s.usg := rfl
@[simp] theorem State.modQueue_fn (s : State) (q : QId) (m : Queue → Queue) (f' : FnId) : (s.modQueue q m).fn f' = s.fn f' := rfl
@[simp] theorem State.modQueue_link (s : State) (q : QId) (m : Queue → Queue) (l' : Nat) : (s.modQueue q m).link l' = s.link l' := rfl
@[simp] theorem State.modQueue_cuff (s : State) (q : QId) (m : Queue → Queue) (c' : Nat) : (s.modQueue q m).cuff c' = s.cuff c' := rfl
@[simp] theorem State.modQueue_glove (s : State) (q : QId) (m : Queue → Queue) (g' : Nat) : (s.modQueue q m).glove g' = s.glove g' := rfl
@[simp] theorem State.modQueue_slot (s : State) (q : QId) (m : Queue → Queue) (b' : Nat) : (s.modQueue q m).slot b' = s.slot b' := rfl
@[simp] theorem State.modQueue_finger (s : State) (q : QId) (m : Queue → Queue) (f' : FgId) : (s.modQueue q m).finger f' = s.finger f' := rfl
@[simp] theorem State.modQueue_gate (s : State) (q : QId) (m : Queue → Queue) (g' : Nat) : (s.modQueue q m).gate g' = s.gate g' := rfl
@[simp] theorem State.modQueue_quad (s : State) (q : QId) (m : Queue → Queue) (q' : Nat) : (s.modQueue q m).quad q' = s.quad q' := rfl
@[simp] theorem State.modQueue_blink (s : State) (q : QId) (m : Queue → Queue) (l' : Nat) : (s.modQueue q m).blink l' = s.blink l' := rfl
@[simp] theorem State.modQueue_peer (s : State) (q : QId) (m : Queue → Queue) (n' : Nat) : (s.modQueue q m).peer n' = s.peer n' := rfl
@[simp] theorem State.modQueue_source (s : State) (q : QId) (m : Queue → Queue) (i' : Nat) : (s.modQueue q m).source i' = s.source i' := rfl
@[simp] theorem State.modQueue_dom (s : State) (q : QId) (m : Queue → Queue) (d' : Nat) : (s.modQueue q m).dom d' = s.dom d' := rfl
@[simp] theorem State.modQueue_usage (s : State) (q : QId) (m : Queue → Queue) (g' : Nat) : (s.modQueue q m).usage g' = s.usage g' := rfl
@[simp] theorem State.modQueue_unitFlt (s : State) (q : QId) (m : Queue → Queue) (u' : Nat) : (s.modQueue q m).unitFlt u' = s.unitFlt u' := rfl
@[simp] theorem State.modQueue_gpending (s : State) (q : QId) (m : Queue → Queue) : (s.modQueue q m).pending = s.pending := rfl
@[simp] theorem State.modQueue_gout (s : State) (q : QId) (m : Queue → Queue) : (s.modQueue q m).out = s.out := rfl
@[simp] theorem State.modQueue_gsys (s : State) (q : QId) (m : Queue → Queue) : (s.modQueue q m).sys = s.sys := rfl
@[simp] theorem State.modQueue_gboot (s : State) (q : QId) (m : Queue → Queue) : (s.modQueue q m).boot = s.boot := rfl
@[simp] theorem State.modQueue_gtrust (s : State) (q : QId) (m : Queue → Queue) : (s.modQueue q m).trust = s.trust := rfl
@[simp] theorem State.modQueue_ghost (s : State) (q : QId) (m : Queue → Queue) : (s.modQueue q m).host = s.host := rfl
@[simp] theorem State.modQueue_gpool (s : State) (q : QId) (m : Queue → Queue) : (s.modQueue q m).pool = s.pool := rfl
@[simp] theorem State.modQueue_gnet (s : State) (q : QId) (m : Queue → Queue) : (s.modQueue q m).net = s.net := rfl
@[simp] theorem State.modQueue_gbasket (s : State) (q : QId) (m : Queue → Queue) : (s.modQueue q m).basket = s.basket := rfl
@[simp] theorem State.modQueue_gevt (s : State) (q : QId) (m : Queue → Queue) : (s.modQueue q m).evt = s.evt := rfl
@[simp] theorem State.modQueue_gflt (s : State) (q : QId) (m : Queue → Queue) : (s.modQueue q m).flt = s.flt := rfl
@[simp] theorem State.modQueue_gpwr (s : State) (q : QId) (m : Queue → Queue) : (s.modQueue q m).pwr = s.pwr := rfl
@[simp] theorem State.modQueue_gusg (s : State) (q : QId) (m : Queue → Queue) : (s.modQueue q m).usg = s.usg := rfl
@[simp] theorem State.modFinger_fn (s : State) (f : FgId) (m : Finger → Finger) (f' : FnId) : (s.modFinger f m).fn f' = s.fn f' := rfl
@[simp] theorem State.modFinger_link (s : State) (f : FgId) (m : Finger → Finger) (l' : Nat) : (s.modFinger f m).link l' = s.link l' := rfl
@[simp] theorem State.modFinger_cuff (s : State) (f : FgId) (m : Finger → Finger) (c' : Nat) : (s.modFinger f m).cuff c' = s.cuff c' := rfl
@[simp] theorem State.modFinger_glove (s : State) (f : FgId) (m : Finger → Finger) (g' : Nat) : (s.modFinger f m).glove g' = s.glove g' := rfl
@[simp] theorem State.modFinger_slot (s : State) (f : FgId) (m : Finger → Finger) (b' : Nat) : (s.modFinger f m).slot b' = s.slot b' := rfl
@[simp] theorem State.modFinger_queue (s : State) (f : FgId) (m : Finger → Finger) (q' : QId) : (s.modFinger f m).queue q' = s.queue q' := rfl
@[simp] theorem State.modFinger_gate (s : State) (f : FgId) (m : Finger → Finger) (g' : Nat) : (s.modFinger f m).gate g' = s.gate g' := rfl
@[simp] theorem State.modFinger_quad (s : State) (f : FgId) (m : Finger → Finger) (q' : Nat) : (s.modFinger f m).quad q' = s.quad q' := rfl
@[simp] theorem State.modFinger_blink (s : State) (f : FgId) (m : Finger → Finger) (l' : Nat) : (s.modFinger f m).blink l' = s.blink l' := rfl
@[simp] theorem State.modFinger_peer (s : State) (f : FgId) (m : Finger → Finger) (n' : Nat) : (s.modFinger f m).peer n' = s.peer n' := rfl
@[simp] theorem State.modFinger_source (s : State) (f : FgId) (m : Finger → Finger) (i' : Nat) : (s.modFinger f m).source i' = s.source i' := rfl
@[simp] theorem State.modFinger_dom (s : State) (f : FgId) (m : Finger → Finger) (d' : Nat) : (s.modFinger f m).dom d' = s.dom d' := rfl
@[simp] theorem State.modFinger_usage (s : State) (f : FgId) (m : Finger → Finger) (g' : Nat) : (s.modFinger f m).usage g' = s.usage g' := rfl
@[simp] theorem State.modFinger_unitFlt (s : State) (f : FgId) (m : Finger → Finger) (u' : Nat) : (s.modFinger f m).unitFlt u' = s.unitFlt u' := rfl
@[simp] theorem State.modFinger_gpending (s : State) (f : FgId) (m : Finger → Finger) : (s.modFinger f m).pending = s.pending := rfl
@[simp] theorem State.modFinger_gout (s : State) (f : FgId) (m : Finger → Finger) : (s.modFinger f m).out = s.out := rfl
@[simp] theorem State.modFinger_gsys (s : State) (f : FgId) (m : Finger → Finger) : (s.modFinger f m).sys = s.sys := rfl
@[simp] theorem State.modFinger_gboot (s : State) (f : FgId) (m : Finger → Finger) : (s.modFinger f m).boot = s.boot := rfl
@[simp] theorem State.modFinger_gtrust (s : State) (f : FgId) (m : Finger → Finger) : (s.modFinger f m).trust = s.trust := rfl
@[simp] theorem State.modFinger_ghost (s : State) (f : FgId) (m : Finger → Finger) : (s.modFinger f m).host = s.host := rfl
@[simp] theorem State.modFinger_gpool (s : State) (f : FgId) (m : Finger → Finger) : (s.modFinger f m).pool = s.pool := rfl
@[simp] theorem State.modFinger_gnet (s : State) (f : FgId) (m : Finger → Finger) : (s.modFinger f m).net = s.net := rfl
@[simp] theorem State.modFinger_gbasket (s : State) (f : FgId) (m : Finger → Finger) : (s.modFinger f m).basket = s.basket := rfl
@[simp] theorem State.modFinger_gevt (s : State) (f : FgId) (m : Finger → Finger) : (s.modFinger f m).evt = s.evt := rfl
@[simp] theorem State.modFinger_gflt (s : State) (f : FgId) (m : Finger → Finger) : (s.modFinger f m).flt = s.flt := rfl
@[simp] theorem State.modFinger_gpwr (s : State) (f : FgId) (m : Finger → Finger) : (s.modFinger f m).pwr = s.pwr := rfl
@[simp] theorem State.modFinger_gusg (s : State) (f : FgId) (m : Finger → Finger) : (s.modFinger f m).usg = s.usg := rfl
@[simp] theorem State.modGate_fn (s : State) (g : Nat) (m : Gate → Gate) (f' : FnId) : (s.modGate g m).fn f' = s.fn f' := rfl
@[simp] theorem State.modGate_link (s : State) (g : Nat) (m : Gate → Gate) (l' : Nat) : (s.modGate g m).link l' = s.link l' := rfl
@[simp] theorem State.modGate_cuff (s : State) (g : Nat) (m : Gate → Gate) (c' : Nat) : (s.modGate g m).cuff c' = s.cuff c' := rfl
@[simp] theorem State.modGate_glove (s : State) (g : Nat) (m : Gate → Gate) (g' : Nat) : (s.modGate g m).glove g' = s.glove g' := rfl
@[simp] theorem State.modGate_slot (s : State) (g : Nat) (m : Gate → Gate) (b' : Nat) : (s.modGate g m).slot b' = s.slot b' := rfl
@[simp] theorem State.modGate_queue (s : State) (g : Nat) (m : Gate → Gate) (q' : QId) : (s.modGate g m).queue q' = s.queue q' := rfl
@[simp] theorem State.modGate_finger (s : State) (g : Nat) (m : Gate → Gate) (f' : FgId) : (s.modGate g m).finger f' = s.finger f' := rfl
@[simp] theorem State.modGate_quad (s : State) (g : Nat) (m : Gate → Gate) (q' : Nat) : (s.modGate g m).quad q' = s.quad q' := rfl
@[simp] theorem State.modGate_blink (s : State) (g : Nat) (m : Gate → Gate) (l' : Nat) : (s.modGate g m).blink l' = s.blink l' := rfl
@[simp] theorem State.modGate_peer (s : State) (g : Nat) (m : Gate → Gate) (n' : Nat) : (s.modGate g m).peer n' = s.peer n' := rfl
@[simp] theorem State.modGate_source (s : State) (g : Nat) (m : Gate → Gate) (i' : Nat) : (s.modGate g m).source i' = s.source i' := rfl
@[simp] theorem State.modGate_dom (s : State) (g : Nat) (m : Gate → Gate) (d' : Nat) : (s.modGate g m).dom d' = s.dom d' := rfl
@[simp] theorem State.modGate_usage (s : State) (g : Nat) (m : Gate → Gate) (g' : Nat) : (s.modGate g m).usage g' = s.usage g' := rfl
@[simp] theorem State.modGate_unitFlt (s : State) (g : Nat) (m : Gate → Gate) (u' : Nat) : (s.modGate g m).unitFlt u' = s.unitFlt u' := rfl
@[simp] theorem State.modGate_gpending (s : State) (g : Nat) (m : Gate → Gate) : (s.modGate g m).pending = s.pending := rfl
@[simp] theorem State.modGate_gout (s : State) (g : Nat) (m : Gate → Gate) : (s.modGate g m).out = s.out := rfl
@[simp] theorem State.modGate_gsys (s : State) (g : Nat) (m : Gate → Gate) : (s.modGate g m).sys = s.sys := rfl
@[simp] theorem State.modGate_gboot (s : State) (g : Nat) (m : Gate → Gate) : (s.modGate g m).boot = s.boot := rfl
@[simp] theorem State.modGate_gtrust (s : State) (g : Nat) (m : Gate → Gate) : (s.modGate g m).trust = s.trust := rfl
@[simp] theorem State.modGate_ghost (s : State) (g : Nat) (m : Gate → Gate) : (s.modGate g m).host = s.host := rfl
@[simp] theorem State.modGate_gwork (s : State) (g : Nat) (m : Gate → Gate) : (s.modGate g m).work = s.work := rfl
@[simp] theorem State.modGate_gnet (s : State) (g : Nat) (m : Gate → Gate) : (s.modGate g m).net = s.net := rfl
@[simp] theorem State.modGate_gbasket (s : State) (g : Nat) (m : Gate → Gate) : (s.modGate g m).basket = s.basket := rfl
@[simp] theorem State.modGate_gevt (s : State) (g : Nat) (m : Gate → Gate) : (s.modGate g m).evt = s.evt := rfl
@[simp] theorem State.modGate_gflt (s : State) (g : Nat) (m : Gate → Gate) : (s.modGate g m).flt = s.flt := rfl
@[simp] theorem State.modGate_gpwr (s : State) (g : Nat) (m : Gate → Gate) : (s.modGate g m).pwr = s.pwr := rfl
@[simp] theorem State.modGate_gusg (s : State) (g : Nat) (m : Gate → Gate) : (s.modGate g m).usg = s.usg := rfl
@[simp] theorem State.modQuad_fn (s : State) (q : Nat) (m : Quad → Quad) (f' : FnId) : (s.modQuad q m).fn f' = s.fn f' := rfl
@[simp] theorem State.modQuad_link (s : State) (q : Nat) (m : Quad → Quad) (l' : Nat) : (s.modQuad q m).link l' = s.link l' := rfl
@[simp] theorem State.modQuad_cuff (s : State) (q : Nat) (m : Quad → Quad) (c' : Nat) : (s.modQuad q m).cuff c' = s.cuff c' := rfl
@[simp] theorem State.modQuad_glove (s : State) (q : Nat) (m : Quad → Quad) (g' : Nat) : (s.modQuad q m).glove g' = s.glove g' := rfl
@[simp] theorem State.modQuad_slot (s : State) (q : Nat) (m : Quad → Quad) (b' : Nat) : (s.modQuad q m).slot b' = s.slot b' := rfl
@[simp] theorem State.modQuad_queue (s : State) (q : Nat) (m : Quad → Quad) (q' : QId) : (s.modQuad q m).queue q' = s.queue q' := rfl
@[simp] theorem State.modQuad_finger (s : State) (q : Nat) (m : Quad → Quad) (f' : FgId) : (s.modQuad q m).finger f' = s.finger f' := rfl
@[simp] theorem State.modQuad_gate (s : State) (q : Nat) (m : Quad → Quad) (g' : Nat) : (s.modQuad q m).gate g' = s.gate g' := rfl
@[simp] theorem State.modQuad_blink (s : State) (q : Nat) (m : Quad → Quad) (l' : Nat) : (s.modQuad q m).blink l' = s.blink l' := rfl
@[simp] theorem State.modQuad_peer (s : State) (q : Nat) (m : Quad → Quad) (n' : Nat) : (s.modQuad q m).peer n' = s.peer n' := rfl
@[simp] theorem State.modQuad_source (s : State) (q : Nat) (m : Quad → Quad) (i' : Nat) : (s.modQuad q m).source i' = s.source i' := rfl
@[simp] theorem State.modQuad_dom (s : State) (q : Nat) (m : Quad → Quad) (d' : Nat) : (s.modQuad q m).dom d' = s.dom d' := rfl
@[simp] theorem State.modQuad_usage (s : State) (q : Nat) (m : Quad → Quad) (g' : Nat) : (s.modQuad q m).usage g' = s.usage g' := rfl
@[simp] theorem State.modQuad_unitFlt (s : State) (q : Nat) (m : Quad → Quad) (u' : Nat) : (s.modQuad q m).unitFlt u' = s.unitFlt u' := rfl
@[simp] theorem State.modQuad_gpending (s : State) (q : Nat) (m : Quad → Quad) : (s.modQuad q m).pending = s.pending := rfl
@[simp] theorem State.modQuad_gout (s : State) (q : Nat) (m : Quad → Quad) : (s.modQuad q m).out = s.out := rfl
@[simp] theorem State.modQuad_gsys (s : State) (q : Nat) (m : Quad → Quad) : (s.modQuad q m).sys = s.sys := rfl
@[simp] theorem State.modQuad_gboot (s : State) (q : Nat) (m : Quad → Quad) : (s.modQuad q m).boot = s.boot := rfl
@[simp] theorem State.modQuad_gtrust (s : State) (q : Nat) (m : Quad → Quad) : (s.modQuad q m).trust = s.trust := rfl
@[simp] theorem State.modQuad_ghost (s : State) (q : Nat) (m : Quad → Quad) : (s.modQuad q m).host = s.host := rfl
@[simp] theorem State.modQuad_gwork (s : State) (q : Nat) (m : Quad → Quad) : (s.modQuad q m).work = s.work := rfl
@[simp] theorem State.modQuad_gpool (s : State) (q : Nat) (m : Quad → Quad) : (s.modQuad q m).pool = s.pool := rfl
@[simp] theorem State.modQuad_gbasket (s : State) (q : Nat) (m : Quad → Quad) : (s.modQuad q m).basket = s.basket := rfl
@[simp] theorem State.modQuad_gevt (s : State) (q : Nat) (m : Quad → Quad) : (s.modQuad q m).evt = s.evt := rfl
@[simp] theorem State.modQuad_gflt (s : State) (q : Nat) (m : Quad → Quad) : (s.modQuad q m).flt = s.flt := rfl
@[simp] theorem State.modQuad_gpwr (s : State) (q : Nat) (m : Quad → Quad) : (s.modQuad q m).pwr = s.pwr := rfl
@[simp] theorem State.modQuad_gusg (s : State) (q : Nat) (m : Quad → Quad) : (s.modQuad q m).usg = s.usg := rfl
@[simp] theorem State.modBlink_fn (s : State) (l : Nat) (m : BLink → BLink) (f' : FnId) : (s.modBlink l m).fn f' = s.fn f' := rfl
@[simp] theorem State.modBlink_link (s : State) (l : Nat) (m : BLink → BLink) (l' : Nat) : (s.modBlink l m).link l' = s.link l' := rfl
@[simp] theorem State.modBlink_cuff (s : State) (l : Nat) (m : BLink → BLink) (c' : Nat) : (s.modBlink l m).cuff c' = s.cuff c' := rfl
@[simp] theorem State.modBlink_glove (s : State) (l : Nat) (m : BLink → BLink) (g' : Nat) : (s.modBlink l m).glove g' = s.glove g' := rfl
@[simp] theorem State.modBlink_slot (s : State) (l : Nat) (m : BLink → BLink) (b' : Nat) : (s.modBlink l m).slot b' = s.slot b' := rfl
@[simp] theorem State.modBlink_queue (s : State) (l : Nat) (m : BLink → BLink) (q' : QId) : (s.modBlink l m).queue q' = s.queue q' := rfl
@[simp] theorem State.modBlink_finger (s : State) (l : Nat) (m : BLink → BLink) (f' : FgId) : (s.modBlink l m).finger f' = s.finger f' := rfl
@[simp] theorem State.modBlink_gate (s : State) (l : Nat) (m : BLink → BLink) (g' : Nat) : (s.modBlink l m).gate g' = s.gate g' := rfl
@[simp] theorem State.modBlink_quad (s : State) (l : Nat) (m : BLink → BLink) (q' : Nat) : (s.modBlink l m).quad q' = s.quad q' := rfl
@[simp] theorem State.modBlink_peer (s : State) (l : Nat) (m : BLink → BLink) (n' : Nat) : (s.modBlink l m).peer n' = s.peer n' := rfl
@[simp] theorem State.modBlink_source (s : State) (l : Nat) (m : BLink → BLink) (i' : Nat) : (s.modBlink l m).source i' = s.source i' := rfl
@[simp] theorem State.modBlink_dom (s : State) (l : Nat) (m : BLink → BLink) (d' : Nat) : (s.modBlink l m).dom d' = s.dom d' := rfl
@[simp] theorem State.modBlink_usage (s : State) (l : Nat) (m : BLink → BLink) (g' : Nat) : (s.modBlink l m).usage g' = s.usage g' := rfl
@[simp] theorem State.modBlink_unitFlt (s : State) (l : Nat) (m : BLink → BLink) (u' : Nat) : (s.modBlink l m).unitFlt u' = s.unitFlt u' := rfl
@[simp] theorem State.modBlink_gpending (s : State) (l : Nat) (m : BLink → BLink) : (s.modBlink l m).pending = s.pending := rfl
@[simp] theorem State.modBlink_gout (s : State) (l : Nat) (m : BLink → BLink) : (s.modBlink l m).out = s.out := rfl
@[simp] theorem State.modBlink_gsys (s : State) (l : Nat) (m : BLink → BLink) : (s.modBlink l m).sys = s.sys := rfl
@[simp] theorem State.modBlink_gboot (s : State) (l : Nat) (m : BLink → BLink) : (s.modBlink l m).boot = s.boot := rfl
@[simp] theorem State.modBlink_gtrust (s : State) (l : Nat) (m : BLink → BLink) : (s.modBlink l m).trust = s.trust := rfl
@[simp] theorem State.modBlink_ghost (s : State) (l : Nat) (m : BLink → BLink) : (s.modBlink l m).host = s.host := rfl
@[simp] theorem State.modBlink_gwork (s : State) (l : Nat) (m : BLink → BLink) : (s.modBlink l m).work = s.work := rfl
@[simp] theorem State.modBlink_gpool (s : State) (l : Nat) (m : BLink → BLink) : (s.modBlink l m).pool = s.pool := rfl
@[simp] theorem State.modBlink_gnet (s : State) (l : Nat) (m : BLink → BLink) : (s.modBlink l m).net = s.net := rfl
@[simp] theorem State.modBlink_gevt (s : State) (l : Nat) (m : BLink → BLink) : (s.modBlink l m).evt = s.evt := rfl
@[simp] theorem State.modBlink_gflt (s : State) (l : Nat) (m : BLink → BLink) : (s.modBlink l m).flt = s.flt := rfl
@[simp] theorem State.modBlink_gpwr (s : State) (l : Nat) (m : BLink → BLink) : (s.modBlink l m).pwr = s.pwr := rfl
@[simp] theorem State.modBlink_gusg (s : State) (l : Nat) (m : BLink → BLink) : (s.modBlink l m).usg = s.usg := rfl
@[simp] theorem State.modPeer_fn (s : State) (n : Nat) (m : Peer → Peer) (f' : FnId) : (s.modPeer n m).fn f' = s.fn f' := rfl
@[simp] theorem State.modPeer_link (s : State) (n : Nat) (m : Peer → Peer) (l' : Nat) : (s.modPeer n m).link l' = s.link l' := rfl
@[simp] theorem State.modPeer_cuff (s : State) (n : Nat) (m : Peer → Peer) (c' : Nat) : (s.modPeer n m).cuff c' = s.cuff c' := rfl
@[simp] theorem State.modPeer_glove (s : State) (n : Nat) (m : Peer → Peer) (g' : Nat) : (s.modPeer n m).glove g' = s.glove g' := rfl
@[simp] theorem State.modPeer_slot (s : State) (n : Nat) (m : Peer → Peer) (b' : Nat) : (s.modPeer n m).slot b' = s.slot b' := rfl
@[simp] theorem State.modPeer_queue (s : State) (n : Nat) (m : Peer → Peer) (q' : QId) : (s.modPeer n m).queue q' = s.queue q' := rfl
@[simp] theorem State.modPeer_finger (s : State) (n : Nat) (m : Peer → Peer) (f' : FgId) : (s.modPeer n m).finger f' = s.finger f' := rfl
@[simp] theorem State.modPeer_gate (s : State) (n : Nat) (m : Peer → Peer) (g' : Nat) : (s.modPeer n m).gate g' = s.gate g' := rfl
@[simp] theorem State.modPeer_quad (s : State) (n : Nat) (m : Peer → Peer) (q' : Nat) : (s.modPeer n m).quad q' = s.quad q' := rfl
@[simp] theorem State.modPeer_blink (s : State) (n : Nat) (m : Peer → Peer) (l' : Nat) : (s.modPeer n m).blink l' = s.blink l' := rfl
@[simp] theorem State.modPeer_source (s : State) (n : Nat) (m : Peer → Peer) (i' : Nat) : (s.modPeer n m).source i' = s.source i' := rfl
@[simp] theorem State.modPeer_dom (s : State) (n : Nat) (m : Peer → Peer) (d' : Nat) : (s.modPeer n m).dom d' = s.dom d' := rfl
@[simp] theorem State.modPeer_usage (s : State) (n : Nat) (m : Peer → Peer) (g' : Nat) : (s.modPeer n m).usage g' = s.usage g' := rfl
@[simp] theorem State.modPeer_unitFlt (s : State) (n : Nat) (m : Peer → Peer) (u' : Nat) : (s.modPeer n m).unitFlt u' = s.unitFlt u' := rfl
@[simp] theorem State.modPeer_gpending (s : State) (n : Nat) (m : Peer → Peer) : (s.modPeer n m).pending = s.pending := rfl
@[simp] theorem State.modPeer_gout (s : State) (n : Nat) (m : Peer → Peer) : (s.modPeer n m).out = s.out := rfl
@[simp] theorem State.modPeer_gsys (s : State) (n : Nat) (m : Peer → Peer) : (s.modPeer n m).sys = s.sys := rfl
@[simp] theorem State.modPeer_gboot (s : State) (n : Nat) (m : Peer → Peer) : (s.modPeer n m).boot = s.boot := rfl
@[simp] theorem State.modPeer_gtrust (s : State) (n : Nat) (m : Peer → Peer) : (s.modPeer n m).trust = s.trust := rfl
@[simp] theorem State.modPeer_ghost (s : State) (n : Nat) (m : Peer → Peer) : (s.modPeer n m).host = s.host := rfl
@[simp] theorem State.modPeer_gwork (s : State) (n : Nat) (m : Peer → Peer) : (s.modPeer n m).work = s.work := rfl
@[simp] theorem State.modPeer_gpool (s : State) (n : Nat) (m : Peer → Peer) : (s.modPeer n m).pool = s.pool := rfl
@[simp] theorem State.modPeer_gnet (s : State) (n : Nat) (m : Peer → Peer) : (s.modPeer n m).net = s.net := rfl
@[simp] theorem State.modPeer_gevt (s : State) (n : Nat) (m : Peer → Peer) : (s.modPeer n m).evt = s.evt := rfl
@[simp] theorem State.modPeer_gflt (s : State) (n : Nat) (m : Peer → Peer) : (s.modPeer n m).flt = s.flt := rfl
@[simp] theorem State.modPeer_gpwr (s : State) (n : Nat) (m : Peer → Peer) : (s.modPeer n m).pwr = s.pwr := rfl
@[simp] theorem State.modPeer_gusg (s : State) (n : Nat) (m : Peer → Peer) : (s.modPeer n m).usg = s.usg := rfl
@[simp] theorem State.modSource_fn (s : State) (i : Nat) (m : Source → Source) (f' : FnId) : (s.modSource i m).fn f' = s.fn f' := rfl
@[simp] theorem State.modSource_link (s : State) (i : Nat) (m : Source → Source) (l' : Nat) : (s.modSource i m).link l' = s.link l' := rfl
@[simp] theorem State.modSource_cuff (s : State) (i : Nat) (m : Source → Source) (c' : Nat) : (s.modSource i m).cuff c' = s.cuff c' := rfl
@[simp] theorem State.modSource_glove (s : State) (i : Nat) (m : Source → Source) (g' : Nat) : (s.modSource i m).glove g' = s.glove g' := rfl
@[simp] theorem State.modSource_slot (s : State) (i : Nat) (m : Source → Source) (b' : Nat) : (s.modSource i m).slot b' = s.slot b' := rfl
@[simp] theorem State.modSource_queue (s : State) (i : Nat) (m : Source → Source) (q' : QId) : (s.modSource i m).queue q' = s.queue q' := rfl
@[simp] theorem State.modSource_finger (s : State) (i : Nat) (m : Source → Source) (f' : FgId) : (s.modSource i m).finger f' = s.finger f' := rfl
@[simp] theorem State.modSource_gate (s : State) (i : Nat) (m : Source → Source) (g' : Nat) : (s.modSource i m).gate g' = s.gate g' := rfl
@[simp] theorem State.modSource_quad (s : State) (i : Nat) (m : Source → Source) (q' : Nat) : (s.modSource i m).quad q' = s.quad q' := rfl
@[simp] theorem State.modSource_blink (s : State) (i : Nat) (m : Source → Source) (l' : Nat) : (s.modSource i m).blink l' = s.blink l' := rfl
@[simp] theorem State.modSource_peer (s : State) (i : Nat) (m : Source → Source) (n' : Nat) : (s.modSource i m).peer n' = s.peer n' := rfl
@[simp] theorem State.modSource_dom (s : State) (i : Nat) (m : Source → Source) (d' : Nat) : (s.modSource i m).dom d' = s.dom d' := rfl
@[simp] theorem State.modSource_usage (s : State) (i : Nat) (m : Source → Source) (g' : Nat) : (s.modSource i m).usage g' = s.usage g' := rfl
@[simp] theorem State.modSource_unitFlt (s : State) (i : Nat) (m : Source → Source) (u' : Nat) : (s.modSource i m).unitFlt u' = s.unitFlt u' := rfl
@[simp] theorem State.modSource_gpending (s : State) (i : Nat) (m : Source → Source) : (s.modSource i m).pending = s.pending := rfl
@[simp] theorem State.modSource_gout (s : State) (i : Nat) (m : Source → Source) : (s.modSource i m).out = s.out := rfl
@[simp] theorem State.modSource_gsys (s : State) (i : Nat) (m : Source → Source) : (s.modSource i m).sys = s.sys := rfl
@[simp] theorem State.modSource_gboot (s : State) (i : Nat) (m : Source → Source) : (s.modSource i m).boot = s.boot := rfl
@[simp] theorem State.modSource_gtrust (s : State) (i : Nat) (m : Source → Source) : (s.modSource i m).trust = s.trust := rfl
@[simp] theorem State.modSource_ghost (s : State) (i : Nat) (m : Source → Source) : (s.modSource i m).host = s.host := rfl
@[simp] theorem State.modSource_gwork (s : State) (i : Nat) (m : Source → Source) : (s.modSource i m).work = s.work := rfl
@[simp] theorem State.modSource_gpool (s : State) (i : Nat) (m : Source → Source) : (s.modSource i m).pool = s.pool := rfl
@[simp] theorem State.modSource_gnet (s : State) (i : Nat) (m : Source → Source) : (s.modSource i m).net = s.net := rfl
@[simp] theorem State.modSource_gbasket (s : State) (i : Nat) (m : Source → Source) : (s.modSource i m).basket = s.basket := rfl
@[simp] theorem State.modSource_gflt (s : State) (i : Nat) (m : Source → Source) : (s.modSource i m).flt = s.flt := rfl
@[simp] theorem State.modSource_gpwr (s : State) (i : Nat) (m : Source → Source) : (s.modSource i m).pwr = s.pwr := rfl
@[simp] theorem State.modSource_gusg (s : State) (i : Nat) (m : Source → Source) : (s.modSource i m).usg = s.usg := rfl
@[simp] theorem State.modDom_fn (s : State) (d : Nat) (m : Dom → Dom) (f' : FnId) : (s.modDom d m).fn f' = s.fn f' := rfl
@[simp] theorem State.modDom_link (s : State) (d : Nat) (m : Dom → Dom) (l' : Nat) : (s.modDom d m).link l' = s.link l' := rfl
@[simp] theorem State.modDom_cuff (s : State) (d : Nat) (m : Dom → Dom) (c' : Nat) : (s.modDom d m).cuff c' = s.cuff c' := rfl
@[simp] theorem State.modDom_glove (s : State) (d : Nat) (m : Dom → Dom) (g' : Nat) : (s.modDom d m).glove g' = s.glove g' := rfl
@[simp] theorem State.modDom_slot (s : State) (d : Nat) (m : Dom → Dom) (b' : Nat) : (s.modDom d m).slot b' = s.slot b' := rfl
@[simp] theorem State.modDom_queue (s : State) (d : Nat) (m : Dom → Dom) (q' : QId) : (s.modDom d m).queue q' = s.queue q' := rfl
@[simp] theorem State.modDom_finger (s : State) (d : Nat) (m : Dom → Dom) (f' : FgId) : (s.modDom d m).finger f' = s.finger f' := rfl
@[simp] theorem State.modDom_gate (s : State) (d : Nat) (m : Dom → Dom) (g' : Nat) : (s.modDom d m).gate g' = s.gate g' := rfl
@[simp] theorem State.modDom_quad (s : State) (d : Nat) (m : Dom → Dom) (q' : Nat) : (s.modDom d m).quad q' = s.quad q' := rfl
@[simp] theorem State.modDom_blink (s : State) (d : Nat) (m : Dom → Dom) (l' : Nat) : (s.modDom d m).blink l' = s.blink l' := rfl
@[simp] theorem State.modDom_peer (s : State) (d : Nat) (m : Dom → Dom) (n' : Nat) : (s.modDom d m).peer n' = s.peer n' := rfl
@[simp] theorem State.modDom_source (s : State) (d : Nat) (m : Dom → Dom) (i' : Nat) : (s.modDom d m).source i' = s.source i' := rfl
@[simp] theorem State.modDom_usage (s : State) (d : Nat) (m : Dom → Dom) (g' : Nat) : (s.modDom d m).usage g' = s.usage g' := rfl
@[simp] theorem State.modDom_unitFlt (s : State) (d : Nat) (m : Dom → Dom) (u' : Nat) : (s.modDom d m).unitFlt u' = s.unitFlt u' := rfl
@[simp] theorem State.modDom_gpending (s : State) (d : Nat) (m : Dom → Dom) : (s.modDom d m).pending = s.pending := rfl
@[simp] theorem State.modDom_gout (s : State) (d : Nat) (m : Dom → Dom) : (s.modDom d m).out = s.out := rfl
@[simp] theorem State.modDom_gsys (s : State) (d : Nat) (m : Dom → Dom) : (s.modDom d m).sys = s.sys := rfl
@[simp] theorem State.modDom_gboot (s : State) (d : Nat) (m : Dom → Dom) : (s.modDom d m).boot = s.boot := rfl
@[simp] theorem State.modDom_gtrust (s : State) (d : Nat) (m : Dom → Dom) : (s.modDom d m).trust = s.trust := rfl
@[simp] theorem State.modDom_ghost (s : State) (d : Nat) (m : Dom → Dom) : (s.modDom d m).host = s.host := rfl
@[simp] theorem State.modDom_gwork (s : State) (d : Nat) (m : Dom → Dom) : (s.modDom d m).work = s.work := rfl
@[simp] theorem State.modDom_gpool (s : State) (d : Nat) (m : Dom → Dom) : (s.modDom d m).pool = s.pool := rfl
@[simp] theorem State.modDom_gnet (s : State) (d : Nat) (m : Dom → Dom) : (s.modDom d m).net = s.net := rfl
@[simp] theorem State.modDom_gbasket (s : State) (d : Nat) (m : Dom → Dom) : (s.modDom d m).basket = s.basket := rfl
@[simp] theorem State.modDom_gevt (s : State) (d : Nat) (m : Dom → Dom) : (s.modDom d m).evt = s.evt := rfl
@[simp] theorem State.modDom_gflt (s : State) (d : Nat) (m : Dom → Dom) : (s.modDom d m).flt = s.flt := rfl
@[simp] theorem State.modDom_gusg (s : State) (d : Nat) (m : Dom → Dom) : (s.modDom d m).usg = s.usg := rfl
@[simp] theorem State.modUsage_fn (s : State) (g : Nat) (m : Usage → Usage) (f' : FnId) : (s.modUsage g m).fn f' = s.fn f' := rfl
@[simp] theorem State.modUsage_link (s : State) (g : Nat) (m : Usage → Usage) (l' : Nat) : (s.modUsage g m).link l' = s.link l' := rfl
@[simp] theorem State.modUsage_cuff (s : State) (g : Nat) (m : Usage → Usage) (c' : Nat) : (s.modUsage g m).cuff c' = s.cuff c' := rfl
@[simp] theorem State.modUsage_glove (s : State) (g : Nat) (m : Usage → Usage) (g' : Nat) : (s.modUsage g m).glove g' = s.glove g' := rfl
@[simp] theorem State.modUsage_slot (s : State) (g : Nat) (m : Usage → Usage) (b' : Nat) : (s.modUsage g m).slot b' = s.slot b' := rfl
@[simp] theorem State.modUsage_queue (s : State) (g : Nat) (m : Usage → Usage) (q' : QId) : (s.modUsage g m).queue q' = s.queue q' := rfl
@[simp] theorem State.modUsage_finger (s : State) (g : Nat) (m : Usage → Usage) (f' : FgId) : (s.modUsage g m).finger f' = s.finger f' := rfl
@[simp] theorem State.modUsage_gate (s : State) (g : Nat) (m : Usage → Usage) (g' : Nat) : (s.modUsage g m).gate g' = s.gate g' := rfl
@[simp] theorem State.modUsage_quad (s : State) (g : Nat) (m : Usage → Usage) (q' : Nat) : (s.modUsage g m).quad q' = s.quad q' := rfl
@[simp] theorem State.modUsage_blink (s : State) (g : Nat) (m : Usage → Usage) (l' : Nat) : (s.modUsage g m).blink l' = s.blink l' := rfl
@[simp] theorem State.modUsage_peer (s : State) (g : Nat) (m : Usage → Usage) (n' : Nat) : (s.modUsage g m).peer n' = s.peer n' := rfl
@[simp] theorem State.modUsage_source (s : State) (g : Nat) (m : Usage → Usage) (i' : Nat) : (s.modUsage g m).source i' = s.source i' := rfl
@[simp] theorem State.modUsage_dom (s : State) (g : Nat) (m : Usage → Usage) (d' : Nat) : (s.modUsage g m).dom d' = s.dom d' := rfl
@[simp] theorem State.modUsage_unitFlt (s : State) (g : Nat) (m : Usage → Usage) (u' : Nat) : (s.modUsage g m).unitFlt u' = s.unitFlt u' := rfl
@[simp] theorem State.modUsage_gpending (s : State) (g : Nat) (m : Usage → Usage) : (s.modUsage g m).pending = s.pending := rfl
@[simp] theorem State.modUsage_gout (s : State) (g : Nat) (m : Usage → Usage) : (s.modUsage g m).out = s.out := rfl
@[simp] theorem State.modUsage_gsys (s : State) (g : Nat) (m : Usage → Usage) : (s.modUsage g m).sys = s.sys := rfl
@[simp] theorem State.modUsage_gboot (s : State) (g : Nat) (m : Usage → Usage) : (s.modUsage g m).boot = s.boot := rfl
@[simp] theorem State.modUsage_gtrust (s : State) (g : Nat) (m : Usage → Usage) : (s.modUsage g m).trust = s.trust := rfl
@[simp] theorem State.modUsage_ghost (s : State) (g : Nat) (m : Usage → Usage) : (s.modUsage g m).host = s.host := rfl
@[simp] theorem State.modUsage_gwork (s : State) (g : Nat) (m : Usage → Usage) : (s.modUsage g m).work = s.work := rfl
@[simp] theorem State.modUsage_gpool (s : State) (g : Nat) (m : Usage → Usage) : (s.modUsage g m).pool = s.pool := rfl
@[simp] theorem State.modUsage_gnet (s : State) (g : Nat) (m : Usage → Usage) : (s.modUsage g m).net = s.net := rfl
@[simp] theorem State.modUsage_gbasket (s : State) (g : Nat) (m : Usage → Usage) : (s.modUsage g m).basket = s.basket := rfl
@[simp] theorem State.modUsage_gevt (s : State) (g : Nat) (m : Usage → Usage) : (s.modUsage g m).evt = s.evt := rfl
@[simp] theorem State.modUsage_gflt (s : State) (g : Nat) (m : Usage → Usage) : (s.modUsage g m).flt = s.flt := rfl
@[simp] theorem State.modUsage_gpwr (s : State) (g : Nat) (m : Usage → Usage) : (s.modUsage g m).pwr = s.pwr := rfl
@[simp] theorem State.modUnit_fn (s : State) (u : Nat) (m : UnitFlt → UnitFlt) (f' : FnId) : (s.modUnit u m).fn f' = s.fn f' := rfl
@[simp] theorem State.modUnit_link (s : State) (u : Nat) (m : UnitFlt → UnitFlt) (l' : Nat) : (s.modUnit u m).link l' = s.link l' := rfl
@[simp] theorem State.modUnit_cuff (s : State) (u : Nat) (m : UnitFlt → UnitFlt) (c' : Nat) : (s.modUnit u m).cuff c' = s.cuff c' := rfl
@[simp] theorem State.modUnit_glove (s : State) (u : Nat) (m : UnitFlt → UnitFlt) (g' : Nat) : (s.modUnit u m).glove g' = s.glove g' := rfl
@[simp] theorem State.modUnit_slot (s : State) (u : Nat) (m : UnitFlt → UnitFlt) (b' : Nat) : (s.modUnit u m).slot b' = s.slot b' := rfl
@[simp] theorem State.modUnit_queue (s : State) (u : Nat) (m : UnitFlt → UnitFlt) (q' : QId) : (s.modUnit u m).queue q' = s.queue q' := rfl
@[simp] theorem State.modUnit_finger (s : State) (u : Nat) (m : UnitFlt → UnitFlt) (f' : FgId) : (s.modUnit u m).finger f' = s.finger f' := rfl
@[simp] theorem State.modUnit_gate (s : State) (u : Nat) (m : UnitFlt → UnitFlt) (g' : Nat) : (s.modUnit u m).gate g' = s.gate g' := rfl
@[simp] theorem State.modUnit_quad (s : State) (u : Nat) (m : UnitFlt → UnitFlt) (q' : Nat) : (s.modUnit u m).quad q' = s.quad q' := rfl
@[simp] theorem State.modUnit_blink (s : State) (u : Nat) (m : UnitFlt → UnitFlt) (l' : Nat) : (s.modUnit u m).blink l' = s.blink l' := rfl
@[simp] theorem State.modUnit_peer (s : State) (u : Nat) (m : UnitFlt → UnitFlt) (n' : Nat) : (s.modUnit u m).peer n' = s.peer n' := rfl
@[simp] theorem State.modUnit_source (s : State) (u : Nat) (m : UnitFlt → UnitFlt) (i' : Nat) : (s.modUnit u m).source i' = s.source i' := rfl
@[simp] theorem State.modUnit_dom (s : State) (u : Nat) (m : UnitFlt → UnitFlt) (d' : Nat) : (s.modUnit u m).dom d' = s.dom d' := rfl
@[simp] theorem State.modUnit_usage (s : State) (u : Nat) (m : UnitFlt → UnitFlt) (g' : Nat) : (s.modUnit u m).usage g' = s.usage g' := rfl
@[simp] theorem State.modUnit_gpending (s : State) (u : Nat) (m : UnitFlt → UnitFlt) : (s.modUnit u m).pending = s.pending := rfl
@[simp] theorem State.modUnit_gout (s : State) (u : Nat) (m : UnitFlt → UnitFlt) : (s.modUnit u m).out = s.out := rfl
@[simp] theorem State.modUnit_gsys (s : State) (u : Nat) (m : UnitFlt → UnitFlt) : (s.modUnit u m).sys = s.sys := rfl
@[simp] theorem State.modUnit_gboot (s : State) (u : Nat) (m : UnitFlt → UnitFlt) : (s.modUnit u m).boot = s.boot := rfl
@[simp] theorem State.modUnit_gtrust (s : State) (u : Nat) (m : UnitFlt → UnitFlt) : (s.modUnit u m).trust = s.trust := rfl
@[simp] theorem State.modUnit_ghost (s : State) (u : Nat) (m : UnitFlt → UnitFlt) : (s.modUnit u m).host = s.host := rfl
@[simp] theorem State.modUnit_gwork (s : State) (u : Nat) (m : UnitFlt → UnitFlt) : (s.modUnit u m).work = s.work := rfl
@[simp] theorem State.modUnit_gpool (s : State) (u : Nat) (m : UnitFlt → UnitFlt) : (s.modUnit u m).pool = s.pool := rfl
@[simp] theorem State.modUnit_gnet (s : State) (u : Nat) (m : UnitFlt → UnitFlt) : (s.modUnit u m).net = s.net := rfl
@[simp] theorem State.modUnit_gbasket (s : State) (u : Nat) (m : UnitFlt → UnitFlt) : (s.modUnit u m).basket = s.basket := rfl
@[simp] theorem State.modUnit_gevt (s : State) (u : Nat) (m : UnitFlt → UnitFlt) : (s.modUnit u m).evt = s.evt := rfl
@[simp] theorem State.modUnit_gpwr (s : State) (u : Nat) (m : UnitFlt → UnitFlt) : (s.modUnit u m).pwr = s.pwr := rfl
@[simp] theorem State.modUnit_gusg (s : State) (u : Nat) (m : UnitFlt → UnitFlt) : (s.modUnit u m).usg = s.usg := rfl

/-! ### The pace, and what is driven -/

@[simp] theorem State.modPace_pace (s : State) (m : Pace → Pace) : (s.modPace m).pwr.pace = m s.pwr.pace := rfl
@[simp] theorem State.modPace_doms (s : State) (m : Pace → Pace) : (s.modPace m).pwr.doms = s.pwr.doms := rfl
@[simp] theorem State.emit_gout (s : State) (x : Out) : (s.emit x).out = s.out ++ [x] := rfl
@[simp] theorem State.modPace_gpending (s : State) (m : Pace → Pace) : (s.modPace m).pending = s.pending := rfl
@[simp] theorem State.emit_gpending (s : State) (x : Out) : (s.emit x).pending = s.pending := rfl
@[simp] theorem State.modPace_gout (s : State) (m : Pace → Pace) : (s.modPace m).out = s.out := rfl
@[simp] theorem State.modPace_gsys (s : State) (m : Pace → Pace) : (s.modPace m).sys = s.sys := rfl
@[simp] theorem State.emit_gsys (s : State) (x : Out) : (s.emit x).sys = s.sys := rfl
@[simp] theorem State.modPace_gboot (s : State) (m : Pace → Pace) : (s.modPace m).boot = s.boot := rfl
@[simp] theorem State.emit_gboot (s : State) (x : Out) : (s.emit x).boot = s.boot := rfl
@[simp] theorem State.modPace_gtrust (s : State) (m : Pace → Pace) : (s.modPace m).trust = s.trust := rfl
@[simp] theorem State.emit_gtrust (s : State) (x : Out) : (s.emit x).trust = s.trust := rfl
@[simp] theorem State.modPace_ghost (s : State) (m : Pace → Pace) : (s.modPace m).host = s.host := rfl
@[simp] theorem State.emit_ghost (s : State) (x : Out) : (s.emit x).host = s.host := rfl
@[simp] theorem State.modPace_gwork (s : State) (m : Pace → Pace) : (s.modPace m).work = s.work := rfl
@[simp] theorem State.emit_gwork (s : State) (x : Out) : (s.emit x).work = s.work := rfl
@[simp] theorem State.modPace_gpool (s : State) (m : Pace → Pace) : (s.modPace m).pool = s.pool := rfl
@[simp] theorem State.emit_gpool (s : State) (x : Out) : (s.emit x).pool = s.pool := rfl
@[simp] theorem State.modPace_gnet (s : State) (m : Pace → Pace) : (s.modPace m).net = s.net := rfl
@[simp] theorem State.emit_gnet (s : State) (x : Out) : (s.emit x).net = s.net := rfl
@[simp] theorem State.modPace_gbasket (s : State) (m : Pace → Pace) : (s.modPace m).basket = s.basket := rfl
@[simp] theorem State.emit_gbasket (s : State) (x : Out) : (s.emit x).basket = s.basket := rfl
@[simp] theorem State.modPace_gevt (s : State) (m : Pace → Pace) : (s.modPace m).evt = s.evt := rfl
@[simp] theorem State.emit_gevt (s : State) (x : Out) : (s.emit x).evt = s.evt := rfl
@[simp] theorem State.modPace_gflt (s : State) (m : Pace → Pace) : (s.modPace m).flt = s.flt := rfl
@[simp] theorem State.emit_gflt (s : State) (x : Out) : (s.emit x).flt = s.flt := rfl
@[simp] theorem State.emit_gpwr (s : State) (x : Out) : (s.emit x).pwr = s.pwr := rfl
@[simp] theorem State.modPace_gusg (s : State) (m : Pace → Pace) : (s.modPace m).usg = s.usg := rfl
@[simp] theorem State.emit_gusg (s : State) (x : Out) : (s.emit x).usg = s.usg := rfl
@[simp] theorem State.emit_fn (s : State) (x : Out) (f : FnId) : (s.emit x).fn f = s.fn f := rfl
@[simp] theorem State.modPace_fn (s : State) (m : Pace → Pace) (f : FnId) : (s.modPace m).fn f = s.fn f := rfl
@[simp] theorem State.emit_link (s : State) (x : Out) (l : Nat) : (s.emit x).link l = s.link l := rfl
@[simp] theorem State.modPace_link (s : State) (m : Pace → Pace) (l : Nat) : (s.modPace m).link l = s.link l := rfl
@[simp] theorem State.emit_cuff (s : State) (x : Out) (c : Nat) : (s.emit x).cuff c = s.cuff c := rfl
@[simp] theorem State.modPace_cuff (s : State) (m : Pace → Pace) (c : Nat) : (s.modPace m).cuff c = s.cuff c := rfl
@[simp] theorem State.emit_glove (s : State) (x : Out) (g : Nat) : (s.emit x).glove g = s.glove g := rfl
@[simp] theorem State.modPace_glove (s : State) (m : Pace → Pace) (g : Nat) : (s.modPace m).glove g = s.glove g := rfl
@[simp] theorem State.emit_slot (s : State) (x : Out) (b : Nat) : (s.emit x).slot b = s.slot b := rfl
@[simp] theorem State.modPace_slot (s : State) (m : Pace → Pace) (b : Nat) : (s.modPace m).slot b = s.slot b := rfl
@[simp] theorem State.emit_queue (s : State) (x : Out) (q : QId) : (s.emit x).queue q = s.queue q := rfl
@[simp] theorem State.modPace_queue (s : State) (m : Pace → Pace) (q : QId) : (s.modPace m).queue q = s.queue q := rfl
@[simp] theorem State.emit_finger (s : State) (x : Out) (f : FgId) : (s.emit x).finger f = s.finger f := rfl
@[simp] theorem State.modPace_finger (s : State) (m : Pace → Pace) (f : FgId) : (s.modPace m).finger f = s.finger f := rfl
@[simp] theorem State.emit_gate (s : State) (x : Out) (g : Nat) : (s.emit x).gate g = s.gate g := rfl
@[simp] theorem State.modPace_gate (s : State) (m : Pace → Pace) (g : Nat) : (s.modPace m).gate g = s.gate g := rfl
@[simp] theorem State.emit_quad (s : State) (x : Out) (q : Nat) : (s.emit x).quad q = s.quad q := rfl
@[simp] theorem State.modPace_quad (s : State) (m : Pace → Pace) (q : Nat) : (s.modPace m).quad q = s.quad q := rfl
@[simp] theorem State.emit_blink (s : State) (x : Out) (l : Nat) : (s.emit x).blink l = s.blink l := rfl
@[simp] theorem State.modPace_blink (s : State) (m : Pace → Pace) (l : Nat) : (s.modPace m).blink l = s.blink l := rfl
@[simp] theorem State.emit_peer (s : State) (x : Out) (n : Nat) : (s.emit x).peer n = s.peer n := rfl
@[simp] theorem State.modPace_peer (s : State) (m : Pace → Pace) (n : Nat) : (s.modPace m).peer n = s.peer n := rfl
@[simp] theorem State.emit_source (s : State) (x : Out) (i : Nat) : (s.emit x).source i = s.source i := rfl
@[simp] theorem State.modPace_source (s : State) (m : Pace → Pace) (i : Nat) : (s.modPace m).source i = s.source i := rfl
@[simp] theorem State.emit_dom (s : State) (x : Out) (d : Nat) : (s.emit x).dom d = s.dom d := rfl
@[simp] theorem State.emit_usage (s : State) (x : Out) (g : Nat) : (s.emit x).usage g = s.usage g := rfl
@[simp] theorem State.modPace_usage (s : State) (m : Pace → Pace) (g : Nat) : (s.modPace m).usage g = s.usage g := rfl
@[simp] theorem State.emit_unitFlt (s : State) (x : Out) (u : Nat) : (s.emit x).unitFlt u = s.unitFlt u := rfl
@[simp] theorem State.modPace_unitFlt (s : State) (m : Pace → Pace) (u : Nat) : (s.modPace m).unitFlt u = s.unitFlt u := rfl

end Sys2Proof.Machine
end

