-- ==== Sys2Proof/Laws/Frames.lean ====
section
/-! SUPPORT. The frames of the shared operations: the parts of the state that each leaves. -/

namespace Sys2Proof.Machine

theorem foldl_same {α β : Type} (v : State → β) (g : State → α → State) (l : List α) (s : State) (h : ∀ s x, v (g s x) = v s) :
    v (l.foldl g s) = v s := by
  induction l generalizing s with
  | nil => rfl
  | cons x l ih => exact (ih _).trans (h _ _)

@[simp] theorem State.pumpLocal_gpending (s : State) (knot vc : Nat) : (s.pumpLocal knot vc).pending = s.pending := foldl_same (fun s => s.pending) _ _ _ (fun s x => by first | rfl | (simp; done) | ((try dsimp only); (repeat' split) <;> simp))
@[simp] theorem State.pumpLocal_gout (s : State) (knot vc : Nat) : (s.pumpLocal knot vc).out = s.out := foldl_same (fun s => s.out) _ _ _ (fun s x => by first | rfl | (simp; done) | ((try dsimp only); (repeat' split) <;> simp))
@[simp] theorem State.pumpLocal_gsys (s : State) (knot vc : Nat) : (s.pumpLocal knot vc).sys = s.sys := foldl_same (fun s => s.sys) _ _ _ (fun s x => by first | rfl | (simp; done) | ((try dsimp only); (repeat' split) <;> simp))
@[simp] theorem State.pumpLocal_gboot (s : State) (knot vc : Nat) : (s.pumpLocal knot vc).boot = s.boot := foldl_same (fun s => s.boot) _ _ _ (fun s x => by first | rfl | (simp; done) | ((try dsimp only); (repeat' split) <;> simp))
@[simp] theorem State.pumpLocal_gtrust (s : State) (knot vc : Nat) : (s.pumpLocal knot vc).trust = s.trust := foldl_same (fun s => s.trust) _ _ _ (fun s x => by first | rfl | (simp; done) | ((try dsimp only); (repeat' split) <;> simp))
@[simp] theorem State.pumpLocal_ghost (s : State) (knot vc : Nat) : (s.pumpLocal knot vc).host = s.host := foldl_same (fun s => s.host) _ _ _ (fun s x => by first | rfl | (simp; done) | ((try dsimp only); (repeat' split) <;> simp))
@[simp] theorem State.pumpLocal_gwork (s : State) (knot vc : Nat) : (s.pumpLocal knot vc).work = s.work := foldl_same (fun s => s.work) _ _ _ (fun s x => by first | rfl | (simp; done) | ((try dsimp only); (repeat' split) <;> simp))
@[simp] theorem State.pumpLocal_gpool (s : State) (knot vc : Nat) : (s.pumpLocal knot vc).pool = s.pool := foldl_same (fun s => s.pool) _ _ _ (fun s x => by first | rfl | (simp; done) | ((try dsimp only); (repeat' split) <;> simp))
@[simp] theorem State.pumpLocal_gbasket (s : State) (knot vc : Nat) : (s.pumpLocal knot vc).basket = s.basket := foldl_same (fun s => s.basket) _ _ _ (fun s x => by first | rfl | (simp; done) | ((try dsimp only); (repeat' split) <;> simp))
@[simp] theorem State.pumpLocal_gevt (s : State) (knot vc : Nat) : (s.pumpLocal knot vc).evt = s.evt := foldl_same (fun s => s.evt) _ _ _ (fun s x => by first | rfl | (simp; done) | ((try dsimp only); (repeat' split) <;> simp))
@[simp] theorem State.pumpLocal_gflt (s : State) (knot vc : Nat) : (s.pumpLocal knot vc).flt = s.flt := foldl_same (fun s => s.flt) _ _ _ (fun s x => by first | rfl | (simp; done) | ((try dsimp only); (repeat' split) <;> simp))
@[simp] theorem State.pumpLocal_gpwr (s : State) (knot vc : Nat) : (s.pumpLocal knot vc).pwr = s.pwr := foldl_same (fun s => s.pwr) _ _ _ (fun s x => by first | rfl | (simp; done) | ((try dsimp only); (repeat' split) <;> simp))
@[simp] theorem State.pumpLocal_gusg (s : State) (knot vc : Nat) : (s.pumpLocal knot vc).usg = s.usg := foldl_same (fun s => s.usg) _ _ _ (fun s x => by first | rfl | (simp; done) | ((try dsimp only); (repeat' split) <;> simp))
@[simp] theorem State.pumpLocal_fn (s : State) (knot vc : Nat) (j' : FnId) : (s.pumpLocal knot vc).fn j' = s.fn j' := by simp only [State.fn, State.pumpLocal_ghost]
@[simp] theorem State.pumpLocal_link (s : State) (knot vc : Nat) (j' : Nat) : (s.pumpLocal knot vc).link j' = s.link j' := by simp only [State.link, State.pumpLocal_ghost]
@[simp] theorem State.pumpLocal_cuff (s : State) (knot vc : Nat) (j' : Nat) : (s.pumpLocal knot vc).cuff j' = s.cuff j' := by simp only [State.cuff, State.pumpLocal_ghost]
@[simp] theorem State.pumpLocal_glove (s : State) (knot vc : Nat) (j' : Nat) : (s.pumpLocal knot vc).glove j' = s.glove j' := by simp only [State.glove, State.pumpLocal_gtrust]
@[simp] theorem State.pumpLocal_slot (s : State) (knot vc : Nat) (j' : Nat) : (s.pumpLocal knot vc).slot j' = s.slot j' := by simp only [State.slot, State.pumpLocal_gtrust]
@[simp] theorem State.pumpLocal_queue (s : State) (knot vc : Nat) (j' : QId) : (s.pumpLocal knot vc).queue j' = s.queue j' := by simp only [State.queue, State.pumpLocal_gwork]
@[simp] theorem State.pumpLocal_finger (s : State) (knot vc : Nat) (j' : FgId) : (s.pumpLocal knot vc).finger j' = s.finger j' := by simp only [State.finger, State.pumpLocal_gwork]
@[simp] theorem State.pumpLocal_gate (s : State) (knot vc : Nat) (j' : Nat) : (s.pumpLocal knot vc).gate j' = s.gate j' := by simp only [State.gate, State.pumpLocal_gpool]
@[simp] theorem State.pumpLocal_blink (s : State) (knot vc : Nat) (j' : Nat) : (s.pumpLocal knot vc).blink j' = s.blink j' := by simp only [State.blink, State.pumpLocal_gbasket]
@[simp] theorem State.pumpLocal_peer (s : State) (knot vc : Nat) (j' : Nat) : (s.pumpLocal knot vc).peer j' = s.peer j' := by simp only [State.peer, State.pumpLocal_gbasket]
@[simp] theorem State.pumpLocal_source (s : State) (knot vc : Nat) (j' : Nat) : (s.pumpLocal knot vc).source j' = s.source j' := by simp only [State.source, State.pumpLocal_gevt]
@[simp] theorem State.pumpLocal_dom (s : State) (knot vc : Nat) (j' : Nat) : (s.pumpLocal knot vc).dom j' = s.dom j' := by simp only [State.dom, State.pumpLocal_gpwr]
@[simp] theorem State.pumpLocal_usage (s : State) (knot vc : Nat) (j' : Nat) : (s.pumpLocal knot vc).usage j' = s.usage j' := by simp only [State.usage, State.pumpLocal_gusg]
@[simp] theorem State.pumpLocal_unitFlt (s : State) (knot vc : Nat) (j' : Nat) : (s.pumpLocal knot vc).unitFlt j' = s.unitFlt j' := by simp only [State.unitFlt, State.pumpLocal_gflt]

@[simp] theorem State.pushFlits_gpending (s : State) (n knot : Nat) (p : Packet) : (s.pushFlits n knot p).pending = s.pending := by simp [State.pushFlits]
@[simp] theorem State.pushFlits_gout (s : State) (n knot : Nat) (p : Packet) : (s.pushFlits n knot p).out = s.out := by simp [State.pushFlits]
@[simp] theorem State.pushFlits_gsys (s : State) (n knot : Nat) (p : Packet) : (s.pushFlits n knot p).sys = s.sys := by simp [State.pushFlits]
@[simp] theorem State.pushFlits_gboot (s : State) (n knot : Nat) (p : Packet) : (s.pushFlits n knot p).boot = s.boot := by simp [State.pushFlits]
@[simp] theorem State.pushFlits_gtrust (s : State) (n knot : Nat) (p : Packet) : (s.pushFlits n knot p).trust = s.trust := by simp [State.pushFlits]
@[simp] theorem State.pushFlits_ghost (s : State) (n knot : Nat) (p : Packet) : (s.pushFlits n knot p).host = s.host := by simp [State.pushFlits]
@[simp] theorem State.pushFlits_gwork (s : State) (n knot : Nat) (p : Packet) : (s.pushFlits n knot p).work = s.work := by simp [State.pushFlits]
@[simp] theorem State.pushFlits_gpool (s : State) (n knot : Nat) (p : Packet) : (s.pushFlits n knot p).pool = s.pool := by simp [State.pushFlits]
@[simp] theorem State.pushFlits_gbasket (s : State) (n knot : Nat) (p : Packet) : (s.pushFlits n knot p).basket = s.basket := by simp [State.pushFlits]
@[simp] theorem State.pushFlits_gevt (s : State) (n knot : Nat) (p : Packet) : (s.pushFlits n knot p).evt = s.evt := by simp [State.pushFlits]
@[simp] theorem State.pushFlits_gflt (s : State) (n knot : Nat) (p : Packet) : (s.pushFlits n knot p).flt = s.flt := by simp [State.pushFlits]
@[simp] theorem State.pushFlits_gpwr (s : State) (n knot : Nat) (p : Packet) : (s.pushFlits n knot p).pwr = s.pwr := by simp [State.pushFlits]
@[simp] theorem State.pushFlits_gusg (s : State) (n knot : Nat) (p : Packet) : (s.pushFlits n knot p).usg = s.usg := by simp [State.pushFlits]
@[simp] theorem State.pushFlits_fn (s : State) (n knot : Nat) (p : Packet) (j' : FnId) : (s.pushFlits n knot p).fn j' = s.fn j' := by simp only [State.fn, State.pushFlits_ghost]
@[simp] theorem State.pushFlits_link (s : State) (n knot : Nat) (p : Packet) (j' : Nat) : (s.pushFlits n knot p).link j' = s.link j' := by simp only [State.link, State.pushFlits_ghost]
@[simp] theorem State.pushFlits_cuff (s : State) (n knot : Nat) (p : Packet) (j' : Nat) : (s.pushFlits n knot p).cuff j' = s.cuff j' := by simp only [State.cuff, State.pushFlits_ghost]
@[simp] theorem State.pushFlits_glove (s : State) (n knot : Nat) (p : Packet) (j' : Nat) : (s.pushFlits n knot p).glove j' = s.glove j' := by simp only [State.glove, State.pushFlits_gtrust]
@[simp] theorem State.pushFlits_slot (s : State) (n knot : Nat) (p : Packet) (j' : Nat) : (s.pushFlits n knot p).slot j' = s.slot j' := by simp only [State.slot, State.pushFlits_gtrust]
@[simp] theorem State.pushFlits_queue (s : State) (n knot : Nat) (p : Packet) (j' : QId) : (s.pushFlits n knot p).queue j' = s.queue j' := by simp only [State.queue, State.pushFlits_gwork]
@[simp] theorem State.pushFlits_finger (s : State) (n knot : Nat) (p : Packet) (j' : FgId) : (s.pushFlits n knot p).finger j' = s.finger j' := by simp only [State.finger, State.pushFlits_gwork]
@[simp] theorem State.pushFlits_gate (s : State) (n knot : Nat) (p : Packet) (j' : Nat) : (s.pushFlits n knot p).gate j' = s.gate j' := by simp only [State.gate, State.pushFlits_gpool]
@[simp] theorem State.pushFlits_blink (s : State) (n knot : Nat) (p : Packet) (j' : Nat) : (s.pushFlits n knot p).blink j' = s.blink j' := by simp only [State.blink, State.pushFlits_gbasket]
@[simp] theorem State.pushFlits_peer (s : State) (n knot : Nat) (p : Packet) (j' : Nat) : (s.pushFlits n knot p).peer j' = s.peer j' := by simp only [State.peer, State.pushFlits_gbasket]
@[simp] theorem State.pushFlits_source (s : State) (n knot : Nat) (p : Packet) (j' : Nat) : (s.pushFlits n knot p).source j' = s.source j' := by simp only [State.source, State.pushFlits_gevt]
@[simp] theorem State.pushFlits_dom (s : State) (n knot : Nat) (p : Packet) (j' : Nat) : (s.pushFlits n knot p).dom j' = s.dom j' := by simp only [State.dom, State.pushFlits_gpwr]
@[simp] theorem State.pushFlits_usage (s : State) (n knot : Nat) (p : Packet) (j' : Nat) : (s.pushFlits n knot p).usage j' = s.usage j' := by simp only [State.usage, State.pushFlits_gusg]
@[simp] theorem State.pushFlits_unitFlt (s : State) (n knot : Nat) (p : Packet) (j' : Nat) : (s.pushFlits n knot p).unitFlt j' = s.unitFlt j' := by simp only [State.unitFlt, State.pushFlits_gflt]

@[simp] theorem State.countStat_gpending (s : State) (p : Packet) (m : Stat → Stat) : (s.countStat p m).pending = s.pending := by unfold State.countStat; dsimp only; (repeat' split) <;> rfl
@[simp] theorem State.countStat_gout (s : State) (p : Packet) (m : Stat → Stat) : (s.countStat p m).out = s.out := by unfold State.countStat; dsimp only; (repeat' split) <;> rfl
@[simp] theorem State.countStat_gsys (s : State) (p : Packet) (m : Stat → Stat) : (s.countStat p m).sys = s.sys := by unfold State.countStat; dsimp only; (repeat' split) <;> rfl
@[simp] theorem State.countStat_gboot (s : State) (p : Packet) (m : Stat → Stat) : (s.countStat p m).boot = s.boot := by unfold State.countStat; dsimp only; (repeat' split) <;> rfl
@[simp] theorem State.countStat_gtrust (s : State) (p : Packet) (m : Stat → Stat) : (s.countStat p m).trust = s.trust := by unfold State.countStat; dsimp only; (repeat' split) <;> rfl
@[simp] theorem State.countStat_ghost (s : State) (p : Packet) (m : Stat → Stat) : (s.countStat p m).host = s.host := by unfold State.countStat; dsimp only; (repeat' split) <;> rfl
@[simp] theorem State.countStat_gwork (s : State) (p : Packet) (m : Stat → Stat) : (s.countStat p m).work = s.work := by unfold State.countStat; dsimp only; (repeat' split) <;> rfl
@[simp] theorem State.countStat_gpool (s : State) (p : Packet) (m : Stat → Stat) : (s.countStat p m).pool = s.pool := by unfold State.countStat; dsimp only; (repeat' split) <;> rfl
@[simp] theorem State.countStat_gbasket (s : State) (p : Packet) (m : Stat → Stat) : (s.countStat p m).basket = s.basket := by unfold State.countStat; dsimp only; (repeat' split) <;> rfl
@[simp] theorem State.countStat_gevt (s : State) (p : Packet) (m : Stat → Stat) : (s.countStat p m).evt = s.evt := by unfold State.countStat; dsimp only; (repeat' split) <;> rfl
@[simp] theorem State.countStat_gflt (s : State) (p : Packet) (m : Stat → Stat) : (s.countStat p m).flt = s.flt := by unfold State.countStat; dsimp only; (repeat' split) <;> rfl
@[simp] theorem State.countStat_gpwr (s : State) (p : Packet) (m : Stat → Stat) : (s.countStat p m).pwr = s.pwr := by unfold State.countStat; dsimp only; (repeat' split) <;> rfl
@[simp] theorem State.countStat_gusg (s : State) (p : Packet) (m : Stat → Stat) : (s.countStat p m).usg = s.usg := by unfold State.countStat; dsimp only; (repeat' split) <;> rfl
@[simp] theorem State.countStat_fn (s : State) (p : Packet) (m : Stat → Stat) (j' : FnId) : (s.countStat p m).fn j' = s.fn j' := by simp only [State.fn, State.countStat_ghost]
@[simp] theorem State.countStat_link (s : State) (p : Packet) (m : Stat → Stat) (j' : Nat) : (s.countStat p m).link j' = s.link j' := by simp only [State.link, State.countStat_ghost]
@[simp] theorem State.countStat_cuff (s : State) (p : Packet) (m : Stat → Stat) (j' : Nat) : (s.countStat p m).cuff j' = s.cuff j' := by simp only [State.cuff, State.countStat_ghost]
@[simp] theorem State.countStat_glove (s : State) (p : Packet) (m : Stat → Stat) (j' : Nat) : (s.countStat p m).glove j' = s.glove j' := by simp only [State.glove, State.countStat_gtrust]
@[simp] theorem State.countStat_slot (s : State) (p : Packet) (m : Stat → Stat) (j' : Nat) : (s.countStat p m).slot j' = s.slot j' := by simp only [State.slot, State.countStat_gtrust]
@[simp] theorem State.countStat_queue (s : State) (p : Packet) (m : Stat → Stat) (j' : QId) : (s.countStat p m).queue j' = s.queue j' := by simp only [State.queue, State.countStat_gwork]
@[simp] theorem State.countStat_finger (s : State) (p : Packet) (m : Stat → Stat) (j' : FgId) : (s.countStat p m).finger j' = s.finger j' := by simp only [State.finger, State.countStat_gwork]
@[simp] theorem State.countStat_gate (s : State) (p : Packet) (m : Stat → Stat) (j' : Nat) : (s.countStat p m).gate j' = s.gate j' := by simp only [State.gate, State.countStat_gpool]
@[simp] theorem State.countStat_blink (s : State) (p : Packet) (m : Stat → Stat) (j' : Nat) : (s.countStat p m).blink j' = s.blink j' := by simp only [State.blink, State.countStat_gbasket]
@[simp] theorem State.countStat_peer (s : State) (p : Packet) (m : Stat → Stat) (j' : Nat) : (s.countStat p m).peer j' = s.peer j' := by simp only [State.peer, State.countStat_gbasket]
@[simp] theorem State.countStat_source (s : State) (p : Packet) (m : Stat → Stat) (j' : Nat) : (s.countStat p m).source j' = s.source j' := by simp only [State.source, State.countStat_gevt]
@[simp] theorem State.countStat_dom (s : State) (p : Packet) (m : Stat → Stat) (j' : Nat) : (s.countStat p m).dom j' = s.dom j' := by simp only [State.dom, State.countStat_gpwr]
@[simp] theorem State.countStat_usage (s : State) (p : Packet) (m : Stat → Stat) (j' : Nat) : (s.countStat p m).usage j' = s.usage j' := by simp only [State.usage, State.countStat_gusg]
@[simp] theorem State.countStat_unitFlt (s : State) (p : Packet) (m : Stat → Stat) (j' : Nat) : (s.countStat p m).unitFlt j' = s.unitFlt j' := by simp only [State.unitFlt, State.countStat_gflt]

@[simp] theorem State.inject_gpending (s : State) (p : Packet) : (s.inject p).pending = s.pending := by unfold State.inject; first | rfl | (simp; done) | ((try dsimp only); (repeat' split) <;> simp)
@[simp] theorem State.inject_gout (s : State) (p : Packet) : (s.inject p).out = s.out := by unfold State.inject; first | rfl | (simp; done) | ((try dsimp only); (repeat' split) <;> simp)
@[simp] theorem State.inject_gsys (s : State) (p : Packet) : (s.inject p).sys = s.sys := by unfold State.inject; first | rfl | (simp; done) | ((try dsimp only); (repeat' split) <;> simp)
@[simp] theorem State.inject_gboot (s : State) (p : Packet) : (s.inject p).boot = s.boot := by unfold State.inject; first | rfl | (simp; done) | ((try dsimp only); (repeat' split) <;> simp)
@[simp] theorem State.inject_gtrust (s : State) (p : Packet) : (s.inject p).trust = s.trust := by unfold State.inject; first | rfl | (simp; done) | ((try dsimp only); (repeat' split) <;> simp)
@[simp] theorem State.inject_ghost (s : State) (p : Packet) : (s.inject p).host = s.host := by unfold State.inject; first | rfl | (simp; done) | ((try dsimp only); (repeat' split) <;> simp)
@[simp] theorem State.inject_gwork (s : State) (p : Packet) : (s.inject p).work = s.work := by unfold State.inject; first | rfl | (simp; done) | ((try dsimp only); (repeat' split) <;> simp)
@[simp] theorem State.inject_gpool (s : State) (p : Packet) : (s.inject p).pool = s.pool := by unfold State.inject; first | rfl | (simp; done) | ((try dsimp only); (repeat' split) <;> simp)
@[simp] theorem State.inject_gbasket (s : State) (p : Packet) : (s.inject p).basket = s.basket := by unfold State.inject; first | rfl | (simp; done) | ((try dsimp only); (repeat' split) <;> simp)
@[simp] theorem State.inject_gevt (s : State) (p : Packet) : (s.inject p).evt = s.evt := by unfold State.inject; first | rfl | (simp; done) | ((try dsimp only); (repeat' split) <;> simp)
@[simp] theorem State.inject_gflt (s : State) (p : Packet) : (s.inject p).flt = s.flt := by unfold State.inject; first | rfl | (simp; done) | ((try dsimp only); (repeat' split) <;> simp)
@[simp] theorem State.inject_gpwr (s : State) (p : Packet) : (s.inject p).pwr = s.pwr := by unfold State.inject; first | rfl | (simp; done) | ((try dsimp only); (repeat' split) <;> simp)
@[simp] theorem State.inject_gusg (s : State) (p : Packet) : (s.inject p).usg = s.usg := by unfold State.inject; first | rfl | (simp; done) | ((try dsimp only); (repeat' split) <;> simp)
@[simp] theorem State.inject_fn (s : State) (p : Packet) (j' : FnId) : (s.inject p).fn j' = s.fn j' := by simp only [State.fn, State.inject_ghost]
@[simp] theorem State.inject_link (s : State) (p : Packet) (j' : Nat) : (s.inject p).link j' = s.link j' := by simp only [State.link, State.inject_ghost]
@[simp] theorem State.inject_cuff (s : State) (p : Packet) (j' : Nat) : (s.inject p).cuff j' = s.cuff j' := by simp only [State.cuff, State.inject_ghost]
@[simp] theorem State.inject_glove (s : State) (p : Packet) (j' : Nat) : (s.inject p).glove j' = s.glove j' := by simp only [State.glove, State.inject_gtrust]
@[simp] theorem State.inject_slot (s : State) (p : Packet) (j' : Nat) : (s.inject p).slot j' = s.slot j' := by simp only [State.slot, State.inject_gtrust]
@[simp] theorem State.inject_queue (s : State) (p : Packet) (j' : QId) : (s.inject p).queue j' = s.queue j' := by simp only [State.queue, State.inject_gwork]
@[simp] theorem State.inject_finger (s : State) (p : Packet) (j' : FgId) : (s.inject p).finger j' = s.finger j' := by simp only [State.finger, State.inject_gwork]
@[simp] theorem State.inject_gate (s : State) (p : Packet) (j' : Nat) : (s.inject p).gate j' = s.gate j' := by simp only [State.gate, State.inject_gpool]
@[simp] theorem State.inject_blink (s : State) (p : Packet) (j' : Nat) : (s.inject p).blink j' = s.blink j' := by simp only [State.blink, State.inject_gbasket]
@[simp] theorem State.inject_peer (s : State) (p : Packet) (j' : Nat) : (s.inject p).peer j' = s.peer j' := by simp only [State.peer, State.inject_gbasket]
@[simp] theorem State.inject_source (s : State) (p : Packet) (j' : Nat) : (s.inject p).source j' = s.source j' := by simp only [State.source, State.inject_gevt]
@[simp] theorem State.inject_dom (s : State) (p : Packet) (j' : Nat) : (s.inject p).dom j' = s.dom j' := by simp only [State.dom, State.inject_gpwr]
@[simp] theorem State.inject_usage (s : State) (p : Packet) (j' : Nat) : (s.inject p).usage j' = s.usage j' := by simp only [State.usage, State.inject_gusg]
@[simp] theorem State.inject_unitFlt (s : State) (p : Packet) (j' : Nat) : (s.inject p).unitFlt j' = s.unitFlt j' := by simp only [State.unitFlt, State.inject_gflt]

@[simp] theorem State.respond_gpending (s : State) (r : Packet) (op : POp) (status addr : Nat) (data : List Line) (ep : Bool) : (s.respond r op status addr data ep).pending = s.pending := by simp [State.respond]
@[simp] theorem State.respond_gout (s : State) (r : Packet) (op : POp) (status addr : Nat) (data : List Line) (ep : Bool) : (s.respond r op status addr data ep).out = s.out := by simp [State.respond]
@[simp] theorem State.respond_gsys (s : State) (r : Packet) (op : POp) (status addr : Nat) (data : List Line) (ep : Bool) : (s.respond r op status addr data ep).sys = s.sys := by simp [State.respond]
@[simp] theorem State.respond_gboot (s : State) (r : Packet) (op : POp) (status addr : Nat) (data : List Line) (ep : Bool) : (s.respond r op status addr data ep).boot = s.boot := by simp [State.respond]
@[simp] theorem State.respond_gtrust (s : State) (r : Packet) (op : POp) (status addr : Nat) (data : List Line) (ep : Bool) : (s.respond r op status addr data ep).trust = s.trust := by simp [State.respond]
@[simp] theorem State.respond_ghost (s : State) (r : Packet) (op : POp) (status addr : Nat) (data : List Line) (ep : Bool) : (s.respond r op status addr data ep).host = s.host := by simp [State.respond]
@[simp] theorem State.respond_gwork (s : State) (r : Packet) (op : POp) (status addr : Nat) (data : List Line) (ep : Bool) : (s.respond r op status addr data ep).work = s.work := by simp [State.respond]
@[simp] theorem State.respond_gpool (s : State) (r : Packet) (op : POp) (status addr : Nat) (data : List Line) (ep : Bool) : (s.respond r op status addr data ep).pool = s.pool := by simp [State.respond]
@[simp] theorem State.respond_gbasket (s : State) (r : Packet) (op : POp) (status addr : Nat) (data : List Line) (ep : Bool) : (s.respond r op status addr data ep).basket = s.basket := by simp [State.respond]
@[simp] theorem State.respond_gevt (s : State) (r : Packet) (op : POp) (status addr : Nat) (data : List Line) (ep : Bool) : (s.respond r op status addr data ep).evt = s.evt := by simp [State.respond]
@[simp] theorem State.respond_gflt (s : State) (r : Packet) (op : POp) (status addr : Nat) (data : List Line) (ep : Bool) : (s.respond r op status addr data ep).flt = s.flt := by simp [State.respond]
@[simp] theorem State.respond_gpwr (s : State) (r : Packet) (op : POp) (status addr : Nat) (data : List Line) (ep : Bool) : (s.respond r op status addr data ep).pwr = s.pwr := by simp [State.respond]
@[simp] theorem State.respond_gusg (s : State) (r : Packet) (op : POp) (status addr : Nat) (data : List Line) (ep : Bool) : (s.respond r op status addr data ep).usg = s.usg := by simp [State.respond]
@[simp] theorem State.respond_fn (s : State) (r : Packet) (op : POp) (status addr : Nat) (data : List Line) (ep : Bool) (j' : FnId) : (s.respond r op status addr data ep).fn j' = s.fn j' := by simp only [State.fn, State.respond_ghost]
@[simp] theorem State.respond_link (s : State) (r : Packet) (op : POp) (status addr : Nat) (data : List Line) (ep : Bool) (j' : Nat) : (s.respond r op status addr data ep).link j' = s.link j' := by simp only [State.link, State.respond_ghost]
@[simp] theorem State.respond_cuff (s : State) (r : Packet) (op : POp) (status addr : Nat) (data : List Line) (ep : Bool) (j' : Nat) : (s.respond r op status addr data ep).cuff j' = s.cuff j' := by simp only [State.cuff, State.respond_ghost]
@[simp] theorem State.respond_glove (s : State) (r : Packet) (op : POp) (status addr : Nat) (data : List Line) (ep : Bool) (j' : Nat) : (s.respond r op status addr data ep).glove j' = s.glove j' := by simp only [State.glove, State.respond_gtrust]
@[simp] theorem State.respond_slot (s : State) (r : Packet) (op : POp) (status addr : Nat) (data : List Line) (ep : Bool) (j' : Nat) : (s.respond r op status addr data ep).slot j' = s.slot j' := by simp only [State.slot, State.respond_gtrust]
@[simp] theorem State.respond_queue (s : State) (r : Packet) (op : POp) (status addr : Nat) (data : List Line) (ep : Bool) (j' : QId) : (s.respond r op status addr data ep).queue j' = s.queue j' := by simp only [State.queue, State.respond_gwork]
@[simp] theorem State.respond_finger (s : State) (r : Packet) (op : POp) (status addr : Nat) (data : List Line) (ep : Bool) (j' : FgId) : (s.respond r op status addr data ep).finger j' = s.finger j' := by simp only [State.finger, State.respond_gwork]
@[simp] theorem State.respond_gate (s : State) (r : Packet) (op : POp) (status addr : Nat) (data : List Line) (ep : Bool) (j' : Nat) : (s.respond r op status addr data ep).gate j' = s.gate j' := by simp only [State.gate, State.respond_gpool]
@[simp] theorem State.respond_blink (s : State) (r : Packet) (op : POp) (status addr : Nat) (data : List Line) (ep : Bool) (j' : Nat) : (s.respond r op status addr data ep).blink j' = s.blink j' := by simp only [State.blink, State.respond_gbasket]
@[simp] theorem State.respond_peer (s : State) (r : Packet) (op : POp) (status addr : Nat) (data : List Line) (ep : Bool) (j' : Nat) : (s.respond r op status addr data ep).peer j' = s.peer j' := by simp only [State.peer, State.respond_gbasket]
@[simp] theorem State.respond_source (s : State) (r : Packet) (op : POp) (status addr : Nat) (data : List Line) (ep : Bool) (j' : Nat) : (s.respond r op status addr data ep).source j' = s.source j' := by simp only [State.source, State.respond_gevt]
@[simp] theorem State.respond_dom (s : State) (r : Packet) (op : POp) (status addr : Nat) (data : List Line) (ep : Bool) (j' : Nat) : (s.respond r op status addr data ep).dom j' = s.dom j' := by simp only [State.dom, State.respond_gpwr]
@[simp] theorem State.respond_usage (s : State) (r : Packet) (op : POp) (status addr : Nat) (data : List Line) (ep : Bool) (j' : Nat) : (s.respond r op status addr data ep).usage j' = s.usage j' := by simp only [State.usage, State.respond_gusg]
@[simp] theorem State.respond_unitFlt (s : State) (r : Packet) (op : POp) (status addr : Nat) (data : List Line) (ep : Bool) (j' : Nat) : (s.respond r op status addr data ep).unitFlt j' = s.unitFlt j' := by simp only [State.unitFlt, State.respond_gflt]

@[simp] theorem State.answer_gpending (s : State) (r : Packet) (status : Nat) : (s.answer r status).pending = s.pending := by unfold State.answer; first | rfl | (simp; done) | ((try dsimp only); (repeat' split) <;> simp)
@[simp] theorem State.answer_gout (s : State) (r : Packet) (status : Nat) : (s.answer r status).out = s.out := by unfold State.answer; first | rfl | (simp; done) | ((try dsimp only); (repeat' split) <;> simp)
@[simp] theorem State.answer_gsys (s : State) (r : Packet) (status : Nat) : (s.answer r status).sys = s.sys := by unfold State.answer; first | rfl | (simp; done) | ((try dsimp only); (repeat' split) <;> simp)
@[simp] theorem State.answer_gboot (s : State) (r : Packet) (status : Nat) : (s.answer r status).boot = s.boot := by unfold State.answer; first | rfl | (simp; done) | ((try dsimp only); (repeat' split) <;> simp)
@[simp] theorem State.answer_gtrust (s : State) (r : Packet) (status : Nat) : (s.answer r status).trust = s.trust := by unfold State.answer; first | rfl | (simp; done) | ((try dsimp only); (repeat' split) <;> simp)
@[simp] theorem State.answer_ghost (s : State) (r : Packet) (status : Nat) : (s.answer r status).host = s.host := by unfold State.answer; first | rfl | (simp; done) | ((try dsimp only); (repeat' split) <;> simp)
@[simp] theorem State.answer_gwork (s : State) (r : Packet) (status : Nat) : (s.answer r status).work = s.work := by unfold State.answer; first | rfl | (simp; done) | ((try dsimp only); (repeat' split) <;> simp)
@[simp] theorem State.answer_gpool (s : State) (r : Packet) (status : Nat) : (s.answer r status).pool = s.pool := by unfold State.answer; first | rfl | (simp; done) | ((try dsimp only); (repeat' split) <;> simp)
@[simp] theorem State.answer_gbasket (s : State) (r : Packet) (status : Nat) : (s.answer r status).basket = s.basket := by unfold State.answer; first | rfl | (simp; done) | ((try dsimp only); (repeat' split) <;> simp)
@[simp] theorem State.answer_gevt (s : State) (r : Packet) (status : Nat) : (s.answer r status).evt = s.evt := by unfold State.answer; first | rfl | (simp; done) | ((try dsimp only); (repeat' split) <;> simp)
@[simp] theorem State.answer_gflt (s : State) (r : Packet) (status : Nat) : (s.answer r status).flt = s.flt := by unfold State.answer; first | rfl | (simp; done) | ((try dsimp only); (repeat' split) <;> simp)
@[simp] theorem State.answer_gpwr (s : State) (r : Packet) (status : Nat) : (s.answer r status).pwr = s.pwr := by unfold State.answer; first | rfl | (simp; done) | ((try dsimp only); (repeat' split) <;> simp)
@[simp] theorem State.answer_gusg (s : State) (r : Packet) (status : Nat) : (s.answer r status).usg = s.usg := by unfold State.answer; first | rfl | (simp; done) | ((try dsimp only); (repeat' split) <;> simp)
@[simp] theorem State.answer_fn (s : State) (r : Packet) (status : Nat) (j' : FnId) : (s.answer r status).fn j' = s.fn j' := by simp only [State.fn, State.answer_ghost]
@[simp] theorem State.answer_link (s : State) (r : Packet) (status : Nat) (j' : Nat) : (s.answer r status).link j' = s.link j' := by simp only [State.link, State.answer_ghost]
@[simp] theorem State.answer_cuff (s : State) (r : Packet) (status : Nat) (j' : Nat) : (s.answer r status).cuff j' = s.cuff j' := by simp only [State.cuff, State.answer_ghost]
@[simp] theorem State.answer_glove (s : State) (r : Packet) (status : Nat) (j' : Nat) : (s.answer r status).glove j' = s.glove j' := by simp only [State.glove, State.answer_gtrust]
@[simp] theorem State.answer_slot (s : State) (r : Packet) (status : Nat) (j' : Nat) : (s.answer r status).slot j' = s.slot j' := by simp only [State.slot, State.answer_gtrust]
@[simp] theorem State.answer_queue (s : State) (r : Packet) (status : Nat) (j' : QId) : (s.answer r status).queue j' = s.queue j' := by simp only [State.queue, State.answer_gwork]
@[simp] theorem State.answer_finger (s : State) (r : Packet) (status : Nat) (j' : FgId) : (s.answer r status).finger j' = s.finger j' := by simp only [State.finger, State.answer_gwork]
@[simp] theorem State.answer_gate (s : State) (r : Packet) (status : Nat) (j' : Nat) : (s.answer r status).gate j' = s.gate j' := by simp only [State.gate, State.answer_gpool]
@[simp] theorem State.answer_blink (s : State) (r : Packet) (status : Nat) (j' : Nat) : (s.answer r status).blink j' = s.blink j' := by simp only [State.blink, State.answer_gbasket]
@[simp] theorem State.answer_peer (s : State) (r : Packet) (status : Nat) (j' : Nat) : (s.answer r status).peer j' = s.peer j' := by simp only [State.peer, State.answer_gbasket]
@[simp] theorem State.answer_source (s : State) (r : Packet) (status : Nat) (j' : Nat) : (s.answer r status).source j' = s.source j' := by simp only [State.source, State.answer_gevt]
@[simp] theorem State.answer_dom (s : State) (r : Packet) (status : Nat) (j' : Nat) : (s.answer r status).dom j' = s.dom j' := by simp only [State.dom, State.answer_gpwr]
@[simp] theorem State.answer_usage (s : State) (r : Packet) (status : Nat) (j' : Nat) : (s.answer r status).usage j' = s.usage j' := by simp only [State.usage, State.answer_gusg]
@[simp] theorem State.answer_unitFlt (s : State) (r : Packet) (status : Nat) (j' : Nat) : (s.answer r status).unitFlt j' = s.unitFlt j' := by simp only [State.unitFlt, State.answer_gflt]

@[simp] theorem State.answerPart_gpending (s : State) (r : Packet) (line : Nat) (c : List (Line × Nat)) : (s.answerPart r line c).pending = s.pending := by unfold State.answerPart; first | rfl | (simp; done) | ((try dsimp only); (repeat' split) <;> simp)
@[simp] theorem State.answerPart_gout (s : State) (r : Packet) (line : Nat) (c : List (Line × Nat)) : (s.answerPart r line c).out = s.out := by unfold State.answerPart; first | rfl | (simp; done) | ((try dsimp only); (repeat' split) <;> simp)
@[simp] theorem State.answerPart_gsys (s : State) (r : Packet) (line : Nat) (c : List (Line × Nat)) : (s.answerPart r line c).sys = s.sys := by unfold State.answerPart; first | rfl | (simp; done) | ((try dsimp only); (repeat' split) <;> simp)
@[simp] theorem State.answerPart_gboot (s : State) (r : Packet) (line : Nat) (c : List (Line × Nat)) : (s.answerPart r line c).boot = s.boot := by unfold State.answerPart; first | rfl | (simp; done) | ((try dsimp only); (repeat' split) <;> simp)
@[simp] theorem State.answerPart_gtrust (s : State) (r : Packet) (line : Nat) (c : List (Line × Nat)) : (s.answerPart r line c).trust = s.trust := by unfold State.answerPart; first | rfl | (simp; done) | ((try dsimp only); (repeat' split) <;> simp)
@[simp] theorem State.answerPart_ghost (s : State) (r : Packet) (line : Nat) (c : List (Line × Nat)) : (s.answerPart r line c).host = s.host := by unfold State.answerPart; first | rfl | (simp; done) | ((try dsimp only); (repeat' split) <;> simp)
@[simp] theorem State.answerPart_gwork (s : State) (r : Packet) (line : Nat) (c : List (Line × Nat)) : (s.answerPart r line c).work = s.work := by unfold State.answerPart; first | rfl | (simp; done) | ((try dsimp only); (repeat' split) <;> simp)
@[simp] theorem State.answerPart_gpool (s : State) (r : Packet) (line : Nat) (c : List (Line × Nat)) : (s.answerPart r line c).pool = s.pool := by unfold State.answerPart; first | rfl | (simp; done) | ((try dsimp only); (repeat' split) <;> simp)
@[simp] theorem State.answerPart_gbasket (s : State) (r : Packet) (line : Nat) (c : List (Line × Nat)) : (s.answerPart r line c).basket = s.basket := by unfold State.answerPart; first | rfl | (simp; done) | ((try dsimp only); (repeat' split) <;> simp)
@[simp] theorem State.answerPart_gevt (s : State) (r : Packet) (line : Nat) (c : List (Line × Nat)) : (s.answerPart r line c).evt = s.evt := by unfold State.answerPart; first | rfl | (simp; done) | ((try dsimp only); (repeat' split) <;> simp)
@[simp] theorem State.answerPart_gflt (s : State) (r : Packet) (line : Nat) (c : List (Line × Nat)) : (s.answerPart r line c).flt = s.flt := by unfold State.answerPart; first | rfl | (simp; done) | ((try dsimp only); (repeat' split) <;> simp)
@[simp] theorem State.answerPart_gpwr (s : State) (r : Packet) (line : Nat) (c : List (Line × Nat)) : (s.answerPart r line c).pwr = s.pwr := by unfold State.answerPart; first | rfl | (simp; done) | ((try dsimp only); (repeat' split) <;> simp)
@[simp] theorem State.answerPart_gusg (s : State) (r : Packet) (line : Nat) (c : List (Line × Nat)) : (s.answerPart r line c).usg = s.usg := by unfold State.answerPart; first | rfl | (simp; done) | ((try dsimp only); (repeat' split) <;> simp)
@[simp] theorem State.answerPart_fn (s : State) (r : Packet) (line : Nat) (c : List (Line × Nat)) (j' : FnId) : (s.answerPart r line c).fn j' = s.fn j' := by simp only [State.fn, State.answerPart_ghost]
@[simp] theorem State.answerPart_link (s : State) (r : Packet) (line : Nat) (c : List (Line × Nat)) (j' : Nat) : (s.answerPart r line c).link j' = s.link j' := by simp only [State.link, State.answerPart_ghost]
@[simp] theorem State.answerPart_cuff (s : State) (r : Packet) (line : Nat) (c : List (Line × Nat)) (j' : Nat) : (s.answerPart r line c).cuff j' = s.cuff j' := by simp only [State.cuff, State.answerPart_ghost]
@[simp] theorem State.answerPart_glove (s : State) (r : Packet) (line : Nat) (c : List (Line × Nat)) (j' : Nat) : (s.answerPart r line c).glove j' = s.glove j' := by simp only [State.glove, State.answerPart_gtrust]
@[simp] theorem State.answerPart_slot (s : State) (r : Packet) (line : Nat) (c : List (Line × Nat)) (j' : Nat) : (s.answerPart r line c).slot j' = s.slot j' := by simp only [State.slot, State.answerPart_gtrust]
@[simp] theorem State.answerPart_queue (s : State) (r : Packet) (line : Nat) (c : List (Line × Nat)) (j' : QId) : (s.answerPart r line c).queue j' = s.queue j' := by simp only [State.queue, State.answerPart_gwork]
@[simp] theorem State.answerPart_finger (s : State) (r : Packet) (line : Nat) (c : List (Line × Nat)) (j' : FgId) : (s.answerPart r line c).finger j' = s.finger j' := by simp only [State.finger, State.answerPart_gwork]
@[simp] theorem State.answerPart_gate (s : State) (r : Packet) (line : Nat) (c : List (Line × Nat)) (j' : Nat) : (s.answerPart r line c).gate j' = s.gate j' := by simp only [State.gate, State.answerPart_gpool]
@[simp] theorem State.answerPart_blink (s : State) (r : Packet) (line : Nat) (c : List (Line × Nat)) (j' : Nat) : (s.answerPart r line c).blink j' = s.blink j' := by simp only [State.blink, State.answerPart_gbasket]
@[simp] theorem State.answerPart_peer (s : State) (r : Packet) (line : Nat) (c : List (Line × Nat)) (j' : Nat) : (s.answerPart r line c).peer j' = s.peer j' := by simp only [State.peer, State.answerPart_gbasket]
@[simp] theorem State.answerPart_source (s : State) (r : Packet) (line : Nat) (c : List (Line × Nat)) (j' : Nat) : (s.answerPart r line c).source j' = s.source j' := by simp only [State.source, State.answerPart_gevt]
@[simp] theorem State.answerPart_dom (s : State) (r : Packet) (line : Nat) (c : List (Line × Nat)) (j' : Nat) : (s.answerPart r line c).dom j' = s.dom j' := by simp only [State.dom, State.answerPart_gpwr]
@[simp] theorem State.answerPart_usage (s : State) (r : Packet) (line : Nat) (c : List (Line × Nat)) (j' : Nat) : (s.answerPart r line c).usage j' = s.usage j' := by simp only [State.usage, State.answerPart_gusg]
@[simp] theorem State.answerPart_unitFlt (s : State) (r : Packet) (line : Nat) (c : List (Line × Nat)) (j' : Nat) : (s.answerPart r line c).unitFlt j' = s.unitFlt j' := by simp only [State.unitFlt, State.answerPart_gflt]

@[simp] theorem State.answerData_gpending (s : State) (r : Packet) (line : Nat) (ls : List (Line × Nat)) : (s.answerData r line ls).pending = s.pending := foldl_same (fun s => s.pending) _ _ _ (fun s x => by first | rfl | (simp; done) | ((try dsimp only); (repeat' split) <;> simp))
@[simp] theorem State.answerData_gout (s : State) (r : Packet) (line : Nat) (ls : List (Line × Nat)) : (s.answerData r line ls).out = s.out := foldl_same (fun s => s.out) _ _ _ (fun s x => by first | rfl | (simp; done) | ((try dsimp only); (repeat' split) <;> simp))
@[simp] theorem State.answerData_gsys (s : State) (r : Packet) (line : Nat) (ls : List (Line × Nat)) : (s.answerData r line ls).sys = s.sys := foldl_same (fun s => s.sys) _ _ _ (fun s x => by first | rfl | (simp; done) | ((try dsimp only); (repeat' split) <;> simp))
@[simp] theorem State.answerData_gboot (s : State) (r : Packet) (line : Nat) (ls : List (Line × Nat)) : (s.answerData r line ls).boot = s.boot := foldl_same (fun s => s.boot) _ _ _ (fun s x => by first | rfl | (simp; done) | ((try dsimp only); (repeat' split) <;> simp))
@[simp] theorem State.answerData_gtrust (s : State) (r : Packet) (line : Nat) (ls : List (Line × Nat)) : (s.answerData r line ls).trust = s.trust := foldl_same (fun s => s.trust) _ _ _ (fun s x => by first | rfl | (simp; done) | ((try dsimp only); (repeat' split) <;> simp))
@[simp] theorem State.answerData_ghost (s : State) (r : Packet) (line : Nat) (ls : List (Line × Nat)) : (s.answerData r line ls).host = s.host := foldl_same (fun s => s.host) _ _ _ (fun s x => by first | rfl | (simp; done) | ((try dsimp only); (repeat' split) <;> simp))
@[simp] theorem State.answerData_gwork (s : State) (r : Packet) (line : Nat) (ls : List (Line × Nat)) : (s.answerData r line ls).work = s.work := foldl_same (fun s => s.work) _ _ _ (fun s x => by first | rfl | (simp; done) | ((try dsimp only); (repeat' split) <;> simp))
@[simp] theorem State.answerData_gpool (s : State) (r : Packet) (line : Nat) (ls : List (Line × Nat)) : (s.answerData r line ls).pool = s.pool := foldl_same (fun s => s.pool) _ _ _ (fun s x => by first | rfl | (simp; done) | ((try dsimp only); (repeat' split) <;> simp))
@[simp] theorem State.answerData_gbasket (s : State) (r : Packet) (line : Nat) (ls : List (Line × Nat)) : (s.answerData r line ls).basket = s.basket := foldl_same (fun s => s.basket) _ _ _ (fun s x => by first | rfl | (simp; done) | ((try dsimp only); (repeat' split) <;> simp))
@[simp] theorem State.answerData_gevt (s : State) (r : Packet) (line : Nat) (ls : List (Line × Nat)) : (s.answerData r line ls).evt = s.evt := foldl_same (fun s => s.evt) _ _ _ (fun s x => by first | rfl | (simp; done) | ((try dsimp only); (repeat' split) <;> simp))
@[simp] theorem State.answerData_gflt (s : State) (r : Packet) (line : Nat) (ls : List (Line × Nat)) : (s.answerData r line ls).flt = s.flt := foldl_same (fun s => s.flt) _ _ _ (fun s x => by first | rfl | (simp; done) | ((try dsimp only); (repeat' split) <;> simp))
@[simp] theorem State.answerData_gpwr (s : State) (r : Packet) (line : Nat) (ls : List (Line × Nat)) : (s.answerData r line ls).pwr = s.pwr := foldl_same (fun s => s.pwr) _ _ _ (fun s x => by first | rfl | (simp; done) | ((try dsimp only); (repeat' split) <;> simp))
@[simp] theorem State.answerData_gusg (s : State) (r : Packet) (line : Nat) (ls : List (Line × Nat)) : (s.answerData r line ls).usg = s.usg := foldl_same (fun s => s.usg) _ _ _ (fun s x => by first | rfl | (simp; done) | ((try dsimp only); (repeat' split) <;> simp))
@[simp] theorem State.answerData_fn (s : State) (r : Packet) (line : Nat) (ls : List (Line × Nat)) (j' : FnId) : (s.answerData r line ls).fn j' = s.fn j' := by simp only [State.fn, State.answerData_ghost]
@[simp] theorem State.answerData_link (s : State) (r : Packet) (line : Nat) (ls : List (Line × Nat)) (j' : Nat) : (s.answerData r line ls).link j' = s.link j' := by simp only [State.link, State.answerData_ghost]
@[simp] theorem State.answerData_cuff (s : State) (r : Packet) (line : Nat) (ls : List (Line × Nat)) (j' : Nat) : (s.answerData r line ls).cuff j' = s.cuff j' := by simp only [State.cuff, State.answerData_ghost]
@[simp] theorem State.answerData_glove (s : State) (r : Packet) (line : Nat) (ls : List (Line × Nat)) (j' : Nat) : (s.answerData r line ls).glove j' = s.glove j' := by simp only [State.glove, State.answerData_gtrust]
@[simp] theorem State.answerData_slot (s : State) (r : Packet) (line : Nat) (ls : List (Line × Nat)) (j' : Nat) : (s.answerData r line ls).slot j' = s.slot j' := by simp only [State.slot, State.answerData_gtrust]
@[simp] theorem State.answerData_queue (s : State) (r : Packet) (line : Nat) (ls : List (Line × Nat)) (j' : QId) : (s.answerData r line ls).queue j' = s.queue j' := by simp only [State.queue, State.answerData_gwork]
@[simp] theorem State.answerData_finger (s : State) (r : Packet) (line : Nat) (ls : List (Line × Nat)) (j' : FgId) : (s.answerData r line ls).finger j' = s.finger j' := by simp only [State.finger, State.answerData_gwork]
@[simp] theorem State.answerData_gate (s : State) (r : Packet) (line : Nat) (ls : List (Line × Nat)) (j' : Nat) : (s.answerData r line ls).gate j' = s.gate j' := by simp only [State.gate, State.answerData_gpool]
@[simp] theorem State.answerData_blink (s : State) (r : Packet) (line : Nat) (ls : List (Line × Nat)) (j' : Nat) : (s.answerData r line ls).blink j' = s.blink j' := by simp only [State.blink, State.answerData_gbasket]
@[simp] theorem State.answerData_peer (s : State) (r : Packet) (line : Nat) (ls : List (Line × Nat)) (j' : Nat) : (s.answerData r line ls).peer j' = s.peer j' := by simp only [State.peer, State.answerData_gbasket]
@[simp] theorem State.answerData_source (s : State) (r : Packet) (line : Nat) (ls : List (Line × Nat)) (j' : Nat) : (s.answerData r line ls).source j' = s.source j' := by simp only [State.source, State.answerData_gevt]
@[simp] theorem State.answerData_dom (s : State) (r : Packet) (line : Nat) (ls : List (Line × Nat)) (j' : Nat) : (s.answerData r line ls).dom j' = s.dom j' := by simp only [State.dom, State.answerData_gpwr]
@[simp] theorem State.answerData_usage (s : State) (r : Packet) (line : Nat) (ls : List (Line × Nat)) (j' : Nat) : (s.answerData r line ls).usage j' = s.usage j' := by simp only [State.usage, State.answerData_gusg]
@[simp] theorem State.answerData_unitFlt (s : State) (r : Packet) (line : Nat) (ls : List (Line × Nat)) (j' : Nat) : (s.answerData r line ls).unitFlt j' = s.unitFlt j' := by simp only [State.unitFlt, State.answerData_gflt]

@[simp] theorem State.request_gpending (s : State) (ctx : ReqCtx) (p : Packet) (counts : Option Nat) : (s.request ctx p counts).pending = s.pending := by unfold State.request; first | rfl | (simp; done) | ((try dsimp only); (repeat' split) <;> simp)
@[simp] theorem State.request_gout (s : State) (ctx : ReqCtx) (p : Packet) (counts : Option Nat) : (s.request ctx p counts).out = s.out := by unfold State.request; first | rfl | (simp; done) | ((try dsimp only); (repeat' split) <;> simp)
@[simp] theorem State.request_gsys (s : State) (ctx : ReqCtx) (p : Packet) (counts : Option Nat) : (s.request ctx p counts).sys = s.sys := by unfold State.request; first | rfl | (simp; done) | ((try dsimp only); (repeat' split) <;> simp)
@[simp] theorem State.request_gboot (s : State) (ctx : ReqCtx) (p : Packet) (counts : Option Nat) : (s.request ctx p counts).boot = s.boot := by unfold State.request; first | rfl | (simp; done) | ((try dsimp only); (repeat' split) <;> simp)
@[simp] theorem State.request_gtrust (s : State) (ctx : ReqCtx) (p : Packet) (counts : Option Nat) : (s.request ctx p counts).trust = s.trust := by unfold State.request; first | rfl | (simp; done) | ((try dsimp only); (repeat' split) <;> simp)
@[simp] theorem State.request_ghost (s : State) (ctx : ReqCtx) (p : Packet) (counts : Option Nat) : (s.request ctx p counts).host = s.host := by unfold State.request; first | rfl | (simp; done) | ((try dsimp only); (repeat' split) <;> simp)
@[simp] theorem State.request_gwork (s : State) (ctx : ReqCtx) (p : Packet) (counts : Option Nat) : (s.request ctx p counts).work = s.work := by unfold State.request; first | rfl | (simp; done) | ((try dsimp only); (repeat' split) <;> simp)
@[simp] theorem State.request_gpool (s : State) (ctx : ReqCtx) (p : Packet) (counts : Option Nat) : (s.request ctx p counts).pool = s.pool := by unfold State.request; first | rfl | (simp; done) | ((try dsimp only); (repeat' split) <;> simp)
@[simp] theorem State.request_gbasket (s : State) (ctx : ReqCtx) (p : Packet) (counts : Option Nat) : (s.request ctx p counts).basket = s.basket := by unfold State.request; first | rfl | (simp; done) | ((try dsimp only); (repeat' split) <;> simp)
@[simp] theorem State.request_gevt (s : State) (ctx : ReqCtx) (p : Packet) (counts : Option Nat) : (s.request ctx p counts).evt = s.evt := by unfold State.request; first | rfl | (simp; done) | ((try dsimp only); (repeat' split) <;> simp)
@[simp] theorem State.request_gflt (s : State) (ctx : ReqCtx) (p : Packet) (counts : Option Nat) : (s.request ctx p counts).flt = s.flt := by unfold State.request; first | rfl | (simp; done) | ((try dsimp only); (repeat' split) <;> simp)
@[simp] theorem State.request_gpwr (s : State) (ctx : ReqCtx) (p : Packet) (counts : Option Nat) : (s.request ctx p counts).pwr = s.pwr := by unfold State.request; first | rfl | (simp; done) | ((try dsimp only); (repeat' split) <;> simp)
@[simp] theorem State.request_gusg (s : State) (ctx : ReqCtx) (p : Packet) (counts : Option Nat) : (s.request ctx p counts).usg = s.usg := by unfold State.request; first | rfl | (simp; done) | ((try dsimp only); (repeat' split) <;> simp)
@[simp] theorem State.request_fn (s : State) (ctx : ReqCtx) (p : Packet) (counts : Option Nat) (j' : FnId) : (s.request ctx p counts).fn j' = s.fn j' := by simp only [State.fn, State.request_ghost]
@[simp] theorem State.request_link (s : State) (ctx : ReqCtx) (p : Packet) (counts : Option Nat) (j' : Nat) : (s.request ctx p counts).link j' = s.link j' := by simp only [State.link, State.request_ghost]
@[simp] theorem State.request_cuff (s : State) (ctx : ReqCtx) (p : Packet) (counts : Option Nat) (j' : Nat) : (s.request ctx p counts).cuff j' = s.cuff j' := by simp only [State.cuff, State.request_ghost]
@[simp] theorem State.request_glove (s : State) (ctx : ReqCtx) (p : Packet) (counts : Option Nat) (j' : Nat) : (s.request ctx p counts).glove j' = s.glove j' := by simp only [State.glove, State.request_gtrust]
@[simp] theorem State.request_slot (s : State) (ctx : ReqCtx) (p : Packet) (counts : Option Nat) (j' : Nat) : (s.request ctx p counts).slot j' = s.slot j' := by simp only [State.slot, State.request_gtrust]
@[simp] theorem State.request_queue (s : State) (ctx : ReqCtx) (p : Packet) (counts : Option Nat) (j' : QId) : (s.request ctx p counts).queue j' = s.queue j' := by simp only [State.queue, State.request_gwork]
@[simp] theorem State.request_finger (s : State) (ctx : ReqCtx) (p : Packet) (counts : Option Nat) (j' : FgId) : (s.request ctx p counts).finger j' = s.finger j' := by simp only [State.finger, State.request_gwork]
@[simp] theorem State.request_gate (s : State) (ctx : ReqCtx) (p : Packet) (counts : Option Nat) (j' : Nat) : (s.request ctx p counts).gate j' = s.gate j' := by simp only [State.gate, State.request_gpool]
@[simp] theorem State.request_blink (s : State) (ctx : ReqCtx) (p : Packet) (counts : Option Nat) (j' : Nat) : (s.request ctx p counts).blink j' = s.blink j' := by simp only [State.blink, State.request_gbasket]
@[simp] theorem State.request_peer (s : State) (ctx : ReqCtx) (p : Packet) (counts : Option Nat) (j' : Nat) : (s.request ctx p counts).peer j' = s.peer j' := by simp only [State.peer, State.request_gbasket]
@[simp] theorem State.request_source (s : State) (ctx : ReqCtx) (p : Packet) (counts : Option Nat) (j' : Nat) : (s.request ctx p counts).source j' = s.source j' := by simp only [State.source, State.request_gevt]
@[simp] theorem State.request_dom (s : State) (ctx : ReqCtx) (p : Packet) (counts : Option Nat) (j' : Nat) : (s.request ctx p counts).dom j' = s.dom j' := by simp only [State.dom, State.request_gpwr]
@[simp] theorem State.request_usage (s : State) (ctx : ReqCtx) (p : Packet) (counts : Option Nat) (j' : Nat) : (s.request ctx p counts).usage j' = s.usage j' := by simp only [State.usage, State.request_gusg]
@[simp] theorem State.request_unitFlt (s : State) (ctx : ReqCtx) (p : Packet) (counts : Option Nat) (j' : Nat) : (s.request ctx p counts).unitFlt j' = s.unitFlt j' := by simp only [State.unitFlt, State.request_gflt]

@[simp] theorem State.selfAnswer_gpending (s : State) (ctx : ReqCtx) (p : Packet) (counts : Option Nat) (status : Nat) : (s.selfAnswer ctx p counts status).pending = s.pending := by unfold State.selfAnswer; first | rfl | (simp; done) | ((try dsimp only); (repeat' split) <;> simp)
@[simp] theorem State.selfAnswer_gout (s : State) (ctx : ReqCtx) (p : Packet) (counts : Option Nat) (status : Nat) : (s.selfAnswer ctx p counts status).out = s.out := by unfold State.selfAnswer; first | rfl | (simp; done) | ((try dsimp only); (repeat' split) <;> simp)
@[simp] theorem State.selfAnswer_gsys (s : State) (ctx : ReqCtx) (p : Packet) (counts : Option Nat) (status : Nat) : (s.selfAnswer ctx p counts status).sys = s.sys := by unfold State.selfAnswer; first | rfl | (simp; done) | ((try dsimp only); (repeat' split) <;> simp)
@[simp] theorem State.selfAnswer_gboot (s : State) (ctx : ReqCtx) (p : Packet) (counts : Option Nat) (status : Nat) : (s.selfAnswer ctx p counts status).boot = s.boot := by unfold State.selfAnswer; first | rfl | (simp; done) | ((try dsimp only); (repeat' split) <;> simp)
@[simp] theorem State.selfAnswer_gtrust (s : State) (ctx : ReqCtx) (p : Packet) (counts : Option Nat) (status : Nat) : (s.selfAnswer ctx p counts status).trust = s.trust := by unfold State.selfAnswer; first | rfl | (simp; done) | ((try dsimp only); (repeat' split) <;> simp)
@[simp] theorem State.selfAnswer_ghost (s : State) (ctx : ReqCtx) (p : Packet) (counts : Option Nat) (status : Nat) : (s.selfAnswer ctx p counts status).host = s.host := by unfold State.selfAnswer; first | rfl | (simp; done) | ((try dsimp only); (repeat' split) <;> simp)
@[simp] theorem State.selfAnswer_gwork (s : State) (ctx : ReqCtx) (p : Packet) (counts : Option Nat) (status : Nat) : (s.selfAnswer ctx p counts status).work = s.work := by unfold State.selfAnswer; first | rfl | (simp; done) | ((try dsimp only); (repeat' split) <;> simp)
@[simp] theorem State.selfAnswer_gpool (s : State) (ctx : ReqCtx) (p : Packet) (counts : Option Nat) (status : Nat) : (s.selfAnswer ctx p counts status).pool = s.pool := by unfold State.selfAnswer; first | rfl | (simp; done) | ((try dsimp only); (repeat' split) <;> simp)
@[simp] theorem State.selfAnswer_gbasket (s : State) (ctx : ReqCtx) (p : Packet) (counts : Option Nat) (status : Nat) : (s.selfAnswer ctx p counts status).basket = s.basket := by unfold State.selfAnswer; first | rfl | (simp; done) | ((try dsimp only); (repeat' split) <;> simp)
@[simp] theorem State.selfAnswer_gevt (s : State) (ctx : ReqCtx) (p : Packet) (counts : Option Nat) (status : Nat) : (s.selfAnswer ctx p counts status).evt = s.evt := by unfold State.selfAnswer; first | rfl | (simp; done) | ((try dsimp only); (repeat' split) <;> simp)
@[simp] theorem State.selfAnswer_gflt (s : State) (ctx : ReqCtx) (p : Packet) (counts : Option Nat) (status : Nat) : (s.selfAnswer ctx p counts status).flt = s.flt := by unfold State.selfAnswer; first | rfl | (simp; done) | ((try dsimp only); (repeat' split) <;> simp)
@[simp] theorem State.selfAnswer_gpwr (s : State) (ctx : ReqCtx) (p : Packet) (counts : Option Nat) (status : Nat) : (s.selfAnswer ctx p counts status).pwr = s.pwr := by unfold State.selfAnswer; first | rfl | (simp; done) | ((try dsimp only); (repeat' split) <;> simp)
@[simp] theorem State.selfAnswer_gusg (s : State) (ctx : ReqCtx) (p : Packet) (counts : Option Nat) (status : Nat) : (s.selfAnswer ctx p counts status).usg = s.usg := by unfold State.selfAnswer; first | rfl | (simp; done) | ((try dsimp only); (repeat' split) <;> simp)
@[simp] theorem State.selfAnswer_fn (s : State) (ctx : ReqCtx) (p : Packet) (counts : Option Nat) (status : Nat) (j' : FnId) : (s.selfAnswer ctx p counts status).fn j' = s.fn j' := by simp only [State.fn, State.selfAnswer_ghost]
@[simp] theorem State.selfAnswer_link (s : State) (ctx : ReqCtx) (p : Packet) (counts : Option Nat) (status : Nat) (j' : Nat) : (s.selfAnswer ctx p counts status).link j' = s.link j' := by simp only [State.link, State.selfAnswer_ghost]
@[simp] theorem State.selfAnswer_cuff (s : State) (ctx : ReqCtx) (p : Packet) (counts : Option Nat) (status : Nat) (j' : Nat) : (s.selfAnswer ctx p counts status).cuff j' = s.cuff j' := by simp only [State.cuff, State.selfAnswer_ghost]
@[simp] theorem State.selfAnswer_glove (s : State) (ctx : ReqCtx) (p : Packet) (counts : Option Nat) (status : Nat) (j' : Nat) : (s.selfAnswer ctx p counts status).glove j' = s.glove j' := by simp only [State.glove, State.selfAnswer_gtrust]
@[simp] theorem State.selfAnswer_slot (s : State) (ctx : ReqCtx) (p : Packet) (counts : Option Nat) (status : Nat) (j' : Nat) : (s.selfAnswer ctx p counts status).slot j' = s.slot j' := by simp only [State.slot, State.selfAnswer_gtrust]
@[simp] theorem State.selfAnswer_queue (s : State) (ctx : ReqCtx) (p : Packet) (counts : Option Nat) (status : Nat) (j' : QId) : (s.selfAnswer ctx p counts status).queue j' = s.queue j' := by simp only [State.queue, State.selfAnswer_gwork]
@[simp] theorem State.selfAnswer_finger (s : State) (ctx : ReqCtx) (p : Packet) (counts : Option Nat) (status : Nat) (j' : FgId) : (s.selfAnswer ctx p counts status).finger j' = s.finger j' := by simp only [State.finger, State.selfAnswer_gwork]
@[simp] theorem State.selfAnswer_gate (s : State) (ctx : ReqCtx) (p : Packet) (counts : Option Nat) (status : Nat) (j' : Nat) : (s.selfAnswer ctx p counts status).gate j' = s.gate j' := by simp only [State.gate, State.selfAnswer_gpool]
@[simp] theorem State.selfAnswer_blink (s : State) (ctx : ReqCtx) (p : Packet) (counts : Option Nat) (status : Nat) (j' : Nat) : (s.selfAnswer ctx p counts status).blink j' = s.blink j' := by simp only [State.blink, State.selfAnswer_gbasket]
@[simp] theorem State.selfAnswer_peer (s : State) (ctx : ReqCtx) (p : Packet) (counts : Option Nat) (status : Nat) (j' : Nat) : (s.selfAnswer ctx p counts status).peer j' = s.peer j' := by simp only [State.peer, State.selfAnswer_gbasket]
@[simp] theorem State.selfAnswer_source (s : State) (ctx : ReqCtx) (p : Packet) (counts : Option Nat) (status : Nat) (j' : Nat) : (s.selfAnswer ctx p counts status).source j' = s.source j' := by simp only [State.source, State.selfAnswer_gevt]
@[simp] theorem State.selfAnswer_dom (s : State) (ctx : ReqCtx) (p : Packet) (counts : Option Nat) (status : Nat) (j' : Nat) : (s.selfAnswer ctx p counts status).dom j' = s.dom j' := by simp only [State.dom, State.selfAnswer_gpwr]
@[simp] theorem State.selfAnswer_usage (s : State) (ctx : ReqCtx) (p : Packet) (counts : Option Nat) (status : Nat) (j' : Nat) : (s.selfAnswer ctx p counts status).usage j' = s.usage j' := by simp only [State.usage, State.selfAnswer_gusg]
@[simp] theorem State.selfAnswer_unitFlt (s : State) (ctx : ReqCtx) (p : Packet) (counts : Option Nat) (status : Nat) (j' : Nat) : (s.selfAnswer ctx p counts status).unitFlt j' = s.unitFlt j' := by simp only [State.unitFlt, State.selfAnswer_gflt]

@[simp] theorem State.take_gpending (s : State) (p : Packet) : (s.take p).pending = s.pending := rfl
@[simp] theorem State.take_gout (s : State) (p : Packet) : (s.take p).out = s.out := rfl
@[simp] theorem State.take_gsys (s : State) (p : Packet) : (s.take p).sys = s.sys := rfl
@[simp] theorem State.take_gboot (s : State) (p : Packet) : (s.take p).boot = s.boot := rfl
@[simp] theorem State.take_gtrust (s : State) (p : Packet) : (s.take p).trust = s.trust := rfl
@[simp] theorem State.take_ghost (s : State) (p : Packet) : (s.take p).host = s.host := rfl
@[simp] theorem State.take_gwork (s : State) (p : Packet) : (s.take p).work = s.work := rfl
@[simp] theorem State.take_gpool (s : State) (p : Packet) : (s.take p).pool = s.pool := rfl
@[simp] theorem State.take_gbasket (s : State) (p : Packet) : (s.take p).basket = s.basket := rfl
@[simp] theorem State.take_gevt (s : State) (p : Packet) : (s.take p).evt = s.evt := rfl
@[simp] theorem State.take_gflt (s : State) (p : Packet) : (s.take p).flt = s.flt := rfl
@[simp] theorem State.take_gpwr (s : State) (p : Packet) : (s.take p).pwr = s.pwr := rfl
@[simp] theorem State.take_gusg (s : State) (p : Packet) : (s.take p).usg = s.usg := rfl
@[simp] theorem State.take_fn (s : State) (p : Packet) (j' : FnId) : (s.take p).fn j' = s.fn j' := by simp only [State.fn, State.take_ghost]
@[simp] theorem State.take_link (s : State) (p : Packet) (j' : Nat) : (s.take p).link j' = s.link j' := by simp only [State.link, State.take_ghost]
@[simp] theorem State.take_cuff (s : State) (p : Packet) (j' : Nat) : (s.take p).cuff j' = s.cuff j' := by simp only [State.cuff, State.take_ghost]
@[simp] theorem State.take_glove (s : State) (p : Packet) (j' : Nat) : (s.take p).glove j' = s.glove j' := by simp only [State.glove, State.take_gtrust]
@[simp] theorem State.take_slot (s : State) (p : Packet) (j' : Nat) : (s.take p).slot j' = s.slot j' := by simp only [State.slot, State.take_gtrust]
@[simp] theorem State.take_queue (s : State) (p : Packet) (j' : QId) : (s.take p).queue j' = s.queue j' := by simp only [State.queue, State.take_gwork]
@[simp] theorem State.take_finger (s : State) (p : Packet) (j' : FgId) : (s.take p).finger j' = s.finger j' := by simp only [State.finger, State.take_gwork]
@[simp] theorem State.take_gate (s : State) (p : Packet) (j' : Nat) : (s.take p).gate j' = s.gate j' := by simp only [State.gate, State.take_gpool]
@[simp] theorem State.take_blink (s : State) (p : Packet) (j' : Nat) : (s.take p).blink j' = s.blink j' := by simp only [State.blink, State.take_gbasket]
@[simp] theorem State.take_peer (s : State) (p : Packet) (j' : Nat) : (s.take p).peer j' = s.peer j' := by simp only [State.peer, State.take_gbasket]
@[simp] theorem State.take_source (s : State) (p : Packet) (j' : Nat) : (s.take p).source j' = s.source j' := by simp only [State.source, State.take_gevt]
@[simp] theorem State.take_dom (s : State) (p : Packet) (j' : Nat) : (s.take p).dom j' = s.dom j' := by simp only [State.dom, State.take_gpwr]
@[simp] theorem State.take_usage (s : State) (p : Packet) (j' : Nat) : (s.take p).usage j' = s.usage j' := by simp only [State.usage, State.take_gusg]
@[simp] theorem State.take_unitFlt (s : State) (p : Packet) (j' : Nat) : (s.take p).unitFlt j' = s.unitFlt j' := by simp only [State.unitFlt, State.take_gflt]

@[simp] theorem State.endReq_gpending (s : State) (unit tag : Nat) : (s.endReq unit tag).pending = s.pending := rfl
@[simp] theorem State.endReq_gout (s : State) (unit tag : Nat) : (s.endReq unit tag).out = s.out := rfl
@[simp] theorem State.endReq_gsys (s : State) (unit tag : Nat) : (s.endReq unit tag).sys = s.sys := rfl
@[simp] theorem State.endReq_gboot (s : State) (unit tag : Nat) : (s.endReq unit tag).boot = s.boot := rfl
@[simp] theorem State.endReq_gtrust (s : State) (unit tag : Nat) : (s.endReq unit tag).trust = s.trust := rfl
@[simp] theorem State.endReq_ghost (s : State) (unit tag : Nat) : (s.endReq unit tag).host = s.host := rfl
@[simp] theorem State.endReq_gwork (s : State) (unit tag : Nat) : (s.endReq unit tag).work = s.work := rfl
@[simp] theorem State.endReq_gpool (s : State) (unit tag : Nat) : (s.endReq unit tag).pool = s.pool := rfl
@[simp] theorem State.endReq_gbasket (s : State) (unit tag : Nat) : (s.endReq unit tag).basket = s.basket := rfl
@[simp] theorem State.endReq_gevt (s : State) (unit tag : Nat) : (s.endReq unit tag).evt = s.evt := rfl
@[simp] theorem State.endReq_gflt (s : State) (unit tag : Nat) : (s.endReq unit tag).flt = s.flt := rfl
@[simp] theorem State.endReq_gpwr (s : State) (unit tag : Nat) : (s.endReq unit tag).pwr = s.pwr := rfl
@[simp] theorem State.endReq_gusg (s : State) (unit tag : Nat) : (s.endReq unit tag).usg = s.usg := rfl
@[simp] theorem State.endReq_fn (s : State) (unit tag : Nat) (j' : FnId) : (s.endReq unit tag).fn j' = s.fn j' := by simp only [State.fn, State.endReq_ghost]
@[simp] theorem State.endReq_link (s : State) (unit tag : Nat) (j' : Nat) : (s.endReq unit tag).link j' = s.link j' := by simp only [State.link, State.endReq_ghost]
@[simp] theorem State.endReq_cuff (s : State) (unit tag : Nat) (j' : Nat) : (s.endReq unit tag).cuff j' = s.cuff j' := by simp only [State.cuff, State.endReq_ghost]
@[simp] theorem State.endReq_glove (s : State) (unit tag : Nat) (j' : Nat) : (s.endReq unit tag).glove j' = s.glove j' := by simp only [State.glove, State.endReq_gtrust]
@[simp] theorem State.endReq_slot (s : State) (unit tag : Nat) (j' : Nat) : (s.endReq unit tag).slot j' = s.slot j' := by simp only [State.slot, State.endReq_gtrust]
@[simp] theorem State.endReq_queue (s : State) (unit tag : Nat) (j' : QId) : (s.endReq unit tag).queue j' = s.queue j' := by simp only [State.queue, State.endReq_gwork]
@[simp] theorem State.endReq_finger (s : State) (unit tag : Nat) (j' : FgId) : (s.endReq unit tag).finger j' = s.finger j' := by simp only [State.finger, State.endReq_gwork]
@[simp] theorem State.endReq_gate (s : State) (unit tag : Nat) (j' : Nat) : (s.endReq unit tag).gate j' = s.gate j' := by simp only [State.gate, State.endReq_gpool]
@[simp] theorem State.endReq_blink (s : State) (unit tag : Nat) (j' : Nat) : (s.endReq unit tag).blink j' = s.blink j' := by simp only [State.blink, State.endReq_gbasket]
@[simp] theorem State.endReq_peer (s : State) (unit tag : Nat) (j' : Nat) : (s.endReq unit tag).peer j' = s.peer j' := by simp only [State.peer, State.endReq_gbasket]
@[simp] theorem State.endReq_source (s : State) (unit tag : Nat) (j' : Nat) : (s.endReq unit tag).source j' = s.source j' := by simp only [State.source, State.endReq_gevt]
@[simp] theorem State.endReq_dom (s : State) (unit tag : Nat) (j' : Nat) : (s.endReq unit tag).dom j' = s.dom j' := by simp only [State.dom, State.endReq_gpwr]
@[simp] theorem State.endReq_usage (s : State) (unit tag : Nat) (j' : Nat) : (s.endReq unit tag).usage j' = s.usage j' := by simp only [State.usage, State.endReq_gusg]
@[simp] theorem State.endReq_unitFlt (s : State) (unit tag : Nat) (j' : Nat) : (s.endReq unit tag).unitFlt j' = s.unitFlt j' := by simp only [State.unitFlt, State.endReq_gflt]

@[simp] theorem State.pushE_gpending (s : State) (op : POp) (unit dest : Nat) : (s.pushE op unit dest).pending = s.pending := by simp [State.pushE]
@[simp] theorem State.pushE_gout (s : State) (op : POp) (unit dest : Nat) : (s.pushE op unit dest).out = s.out := by simp [State.pushE]
@[simp] theorem State.pushE_gsys (s : State) (op : POp) (unit dest : Nat) : (s.pushE op unit dest).sys = s.sys := by simp [State.pushE]
@[simp] theorem State.pushE_gboot (s : State) (op : POp) (unit dest : Nat) : (s.pushE op unit dest).boot = s.boot := by simp [State.pushE]
@[simp] theorem State.pushE_gtrust (s : State) (op : POp) (unit dest : Nat) : (s.pushE op unit dest).trust = s.trust := by simp [State.pushE]
@[simp] theorem State.pushE_ghost (s : State) (op : POp) (unit dest : Nat) : (s.pushE op unit dest).host = s.host := by simp [State.pushE]
@[simp] theorem State.pushE_gwork (s : State) (op : POp) (unit dest : Nat) : (s.pushE op unit dest).work = s.work := by simp [State.pushE]
@[simp] theorem State.pushE_gpool (s : State) (op : POp) (unit dest : Nat) : (s.pushE op unit dest).pool = s.pool := by simp [State.pushE]
@[simp] theorem State.pushE_gbasket (s : State) (op : POp) (unit dest : Nat) : (s.pushE op unit dest).basket = s.basket := by simp [State.pushE]
@[simp] theorem State.pushE_gevt (s : State) (op : POp) (unit dest : Nat) : (s.pushE op unit dest).evt = s.evt := by simp [State.pushE]
@[simp] theorem State.pushE_gflt (s : State) (op : POp) (unit dest : Nat) : (s.pushE op unit dest).flt = s.flt := by simp [State.pushE]
@[simp] theorem State.pushE_gpwr (s : State) (op : POp) (unit dest : Nat) : (s.pushE op unit dest).pwr = s.pwr := by simp [State.pushE]
@[simp] theorem State.pushE_gusg (s : State) (op : POp) (unit dest : Nat) : (s.pushE op unit dest).usg = s.usg := by simp [State.pushE]
@[simp] theorem State.pushE_fn (s : State) (op : POp) (unit dest : Nat) (j' : FnId) : (s.pushE op unit dest).fn j' = s.fn j' := by simp only [State.fn, State.pushE_ghost]
@[simp] theorem State.pushE_link (s : State) (op : POp) (unit dest : Nat) (j' : Nat) : (s.pushE op unit dest).link j' = s.link j' := by simp only [State.link, State.pushE_ghost]
@[simp] theorem State.pushE_cuff (s : State) (op : POp) (unit dest : Nat) (j' : Nat) : (s.pushE op unit dest).cuff j' = s.cuff j' := by simp only [State.cuff, State.pushE_ghost]
@[simp] theorem State.pushE_glove (s : State) (op : POp) (unit dest : Nat) (j' : Nat) : (s.pushE op unit dest).glove j' = s.glove j' := by simp only [State.glove, State.pushE_gtrust]
@[simp] theorem State.pushE_slot (s : State) (op : POp) (unit dest : Nat) (j' : Nat) : (s.pushE op unit dest).slot j' = s.slot j' := by simp only [State.slot, State.pushE_gtrust]
@[simp] theorem State.pushE_queue (s : State) (op : POp) (unit dest : Nat) (j' : QId) : (s.pushE op unit dest).queue j' = s.queue j' := by simp only [State.queue, State.pushE_gwork]
@[simp] theorem State.pushE_finger (s : State) (op : POp) (unit dest : Nat) (j' : FgId) : (s.pushE op unit dest).finger j' = s.finger j' := by simp only [State.finger, State.pushE_gwork]
@[simp] theorem State.pushE_gate (s : State) (op : POp) (unit dest : Nat) (j' : Nat) : (s.pushE op unit dest).gate j' = s.gate j' := by simp only [State.gate, State.pushE_gpool]
@[simp] theorem State.pushE_blink (s : State) (op : POp) (unit dest : Nat) (j' : Nat) : (s.pushE op unit dest).blink j' = s.blink j' := by simp only [State.blink, State.pushE_gbasket]
@[simp] theorem State.pushE_peer (s : State) (op : POp) (unit dest : Nat) (j' : Nat) : (s.pushE op unit dest).peer j' = s.peer j' := by simp only [State.peer, State.pushE_gbasket]
@[simp] theorem State.pushE_source (s : State) (op : POp) (unit dest : Nat) (j' : Nat) : (s.pushE op unit dest).source j' = s.source j' := by simp only [State.source, State.pushE_gevt]
@[simp] theorem State.pushE_dom (s : State) (op : POp) (unit dest : Nat) (j' : Nat) : (s.pushE op unit dest).dom j' = s.dom j' := by simp only [State.dom, State.pushE_gpwr]
@[simp] theorem State.pushE_usage (s : State) (op : POp) (unit dest : Nat) (j' : Nat) : (s.pushE op unit dest).usage j' = s.usage j' := by simp only [State.usage, State.pushE_gusg]
@[simp] theorem State.pushE_unitFlt (s : State) (op : POp) (unit dest : Nat) (j' : Nat) : (s.pushE op unit dest).unitFlt j' = s.unitFlt j' := by simp only [State.unitFlt, State.pushE_gflt]

@[simp] theorem State.report_gpending (s : State) (r : FaultReport) : (s.report r).pending = s.pending := by simp [State.report]
@[simp] theorem State.report_gout (s : State) (r : FaultReport) : (s.report r).out = s.out := by simp [State.report]
@[simp] theorem State.report_gsys (s : State) (r : FaultReport) : (s.report r).sys = s.sys := by simp [State.report]
@[simp] theorem State.report_gboot (s : State) (r : FaultReport) : (s.report r).boot = s.boot := by simp [State.report]
@[simp] theorem State.report_gtrust (s : State) (r : FaultReport) : (s.report r).trust = s.trust := by simp [State.report]
@[simp] theorem State.report_ghost (s : State) (r : FaultReport) : (s.report r).host = s.host := by simp [State.report]
@[simp] theorem State.report_gwork (s : State) (r : FaultReport) : (s.report r).work = s.work := by simp [State.report]
@[simp] theorem State.report_gpool (s : State) (r : FaultReport) : (s.report r).pool = s.pool := by simp [State.report]
@[simp] theorem State.report_gbasket (s : State) (r : FaultReport) : (s.report r).basket = s.basket := by simp [State.report]
@[simp] theorem State.report_gevt (s : State) (r : FaultReport) : (s.report r).evt = s.evt := by simp [State.report]
@[simp] theorem State.report_gflt (s : State) (r : FaultReport) : (s.report r).flt = s.flt := by simp [State.report]
@[simp] theorem State.report_gpwr (s : State) (r : FaultReport) : (s.report r).pwr = s.pwr := by simp [State.report]
@[simp] theorem State.report_gusg (s : State) (r : FaultReport) : (s.report r).usg = s.usg := by simp [State.report]
@[simp] theorem State.report_fn (s : State) (r : FaultReport) (j' : FnId) : (s.report r).fn j' = s.fn j' := by simp only [State.fn, State.report_ghost]
@[simp] theorem State.report_link (s : State) (r : FaultReport) (j' : Nat) : (s.report r).link j' = s.link j' := by simp only [State.link, State.report_ghost]
@[simp] theorem State.report_cuff (s : State) (r : FaultReport) (j' : Nat) : (s.report r).cuff j' = s.cuff j' := by simp only [State.cuff, State.report_ghost]
@[simp] theorem State.report_glove (s : State) (r : FaultReport) (j' : Nat) : (s.report r).glove j' = s.glove j' := by simp only [State.glove, State.report_gtrust]
@[simp] theorem State.report_slot (s : State) (r : FaultReport) (j' : Nat) : (s.report r).slot j' = s.slot j' := by simp only [State.slot, State.report_gtrust]
@[simp] theorem State.report_queue (s : State) (r : FaultReport) (j' : QId) : (s.report r).queue j' = s.queue j' := by simp only [State.queue, State.report_gwork]
@[simp] theorem State.report_finger (s : State) (r : FaultReport) (j' : FgId) : (s.report r).finger j' = s.finger j' := by simp only [State.finger, State.report_gwork]
@[simp] theorem State.report_gate (s : State) (r : FaultReport) (j' : Nat) : (s.report r).gate j' = s.gate j' := by simp only [State.gate, State.report_gpool]
@[simp] theorem State.report_blink (s : State) (r : FaultReport) (j' : Nat) : (s.report r).blink j' = s.blink j' := by simp only [State.blink, State.report_gbasket]
@[simp] theorem State.report_peer (s : State) (r : FaultReport) (j' : Nat) : (s.report r).peer j' = s.peer j' := by simp only [State.peer, State.report_gbasket]
@[simp] theorem State.report_source (s : State) (r : FaultReport) (j' : Nat) : (s.report r).source j' = s.source j' := by simp only [State.source, State.report_gevt]
@[simp] theorem State.report_dom (s : State) (r : FaultReport) (j' : Nat) : (s.report r).dom j' = s.dom j' := by simp only [State.dom, State.report_gpwr]
@[simp] theorem State.report_usage (s : State) (r : FaultReport) (j' : Nat) : (s.report r).usage j' = s.usage j' := by simp only [State.usage, State.report_gusg]
@[simp] theorem State.report_unitFlt (s : State) (r : FaultReport) (j' : Nat) : (s.report r).unitFlt j' = s.unitFlt j' := by simp only [State.unitFlt, State.report_gflt]

@[simp] theorem State.contained_gpending (s : State) (cls code unit element : Nat) (glove : Option Nat) : (s.contained cls code unit element glove).pending = s.pending := by simp [State.contained]
@[simp] theorem State.contained_gout (s : State) (cls code unit element : Nat) (glove : Option Nat) : (s.contained cls code unit element glove).out = s.out := by simp [State.contained]
@[simp] theorem State.contained_gsys (s : State) (cls code unit element : Nat) (glove : Option Nat) : (s.contained cls code unit element glove).sys = s.sys := by simp [State.contained]
@[simp] theorem State.contained_gboot (s : State) (cls code unit element : Nat) (glove : Option Nat) : (s.contained cls code unit element glove).boot = s.boot := by simp [State.contained]
@[simp] theorem State.contained_gtrust (s : State) (cls code unit element : Nat) (glove : Option Nat) : (s.contained cls code unit element glove).trust = s.trust := by simp [State.contained]
@[simp] theorem State.contained_ghost (s : State) (cls code unit element : Nat) (glove : Option Nat) : (s.contained cls code unit element glove).host = s.host := by simp [State.contained]
@[simp] theorem State.contained_gwork (s : State) (cls code unit element : Nat) (glove : Option Nat) : (s.contained cls code unit element glove).work = s.work := by simp [State.contained]
@[simp] theorem State.contained_gpool (s : State) (cls code unit element : Nat) (glove : Option Nat) : (s.contained cls code unit element glove).pool = s.pool := by simp [State.contained]
@[simp] theorem State.contained_gbasket (s : State) (cls code unit element : Nat) (glove : Option Nat) : (s.contained cls code unit element glove).basket = s.basket := by simp [State.contained]
@[simp] theorem State.contained_gevt (s : State) (cls code unit element : Nat) (glove : Option Nat) : (s.contained cls code unit element glove).evt = s.evt := by simp [State.contained]
@[simp] theorem State.contained_gflt (s : State) (cls code unit element : Nat) (glove : Option Nat) : (s.contained cls code unit element glove).flt = s.flt := by simp [State.contained]
@[simp] theorem State.contained_gpwr (s : State) (cls code unit element : Nat) (glove : Option Nat) : (s.contained cls code unit element glove).pwr = s.pwr := by simp [State.contained]
@[simp] theorem State.contained_gusg (s : State) (cls code unit element : Nat) (glove : Option Nat) : (s.contained cls code unit element glove).usg = s.usg := by simp [State.contained]
@[simp] theorem State.contained_fn (s : State) (cls code unit element : Nat) (glove : Option Nat) (j' : FnId) : (s.contained cls code unit element glove).fn j' = s.fn j' := by simp only [State.fn, State.contained_ghost]
@[simp] theorem State.contained_link (s : State) (cls code unit element : Nat) (glove : Option Nat) (j' : Nat) : (s.contained cls code unit element glove).link j' = s.link j' := by simp only [State.link, State.contained_ghost]
@[simp] theorem State.contained_cuff (s : State) (cls code unit element : Nat) (glove : Option Nat) (j' : Nat) : (s.contained cls code unit element glove).cuff j' = s.cuff j' := by simp only [State.cuff, State.contained_ghost]
@[simp] theorem State.contained_glove (s : State) (cls code unit element : Nat) (glove : Option Nat) (j' : Nat) : (s.contained cls code unit element glove).glove j' = s.glove j' := by simp only [State.glove, State.contained_gtrust]
@[simp] theorem State.contained_slot (s : State) (cls code unit element : Nat) (glove : Option Nat) (j' : Nat) : (s.contained cls code unit element glove).slot j' = s.slot j' := by simp only [State.slot, State.contained_gtrust]
@[simp] theorem State.contained_queue (s : State) (cls code unit element : Nat) (glove : Option Nat) (j' : QId) : (s.contained cls code unit element glove).queue j' = s.queue j' := by simp only [State.queue, State.contained_gwork]
@[simp] theorem State.contained_finger (s : State) (cls code unit element : Nat) (glove : Option Nat) (j' : FgId) : (s.contained cls code unit element glove).finger j' = s.finger j' := by simp only [State.finger, State.contained_gwork]
@[simp] theorem State.contained_gate (s : State) (cls code unit element : Nat) (glove : Option Nat) (j' : Nat) : (s.contained cls code unit element glove).gate j' = s.gate j' := by simp only [State.gate, State.contained_gpool]
@[simp] theorem State.contained_blink (s : State) (cls code unit element : Nat) (glove : Option Nat) (j' : Nat) : (s.contained cls code unit element glove).blink j' = s.blink j' := by simp only [State.blink, State.contained_gbasket]
@[simp] theorem State.contained_peer (s : State) (cls code unit element : Nat) (glove : Option Nat) (j' : Nat) : (s.contained cls code unit element glove).peer j' = s.peer j' := by simp only [State.peer, State.contained_gbasket]
@[simp] theorem State.contained_source (s : State) (cls code unit element : Nat) (glove : Option Nat) (j' : Nat) : (s.contained cls code unit element glove).source j' = s.source j' := by simp only [State.source, State.contained_gevt]
@[simp] theorem State.contained_dom (s : State) (cls code unit element : Nat) (glove : Option Nat) (j' : Nat) : (s.contained cls code unit element glove).dom j' = s.dom j' := by simp only [State.dom, State.contained_gpwr]
@[simp] theorem State.contained_usage (s : State) (cls code unit element : Nat) (glove : Option Nat) (j' : Nat) : (s.contained cls code unit element glove).usage j' = s.usage j' := by simp only [State.usage, State.contained_gusg]
@[simp] theorem State.contained_unitFlt (s : State) (cls code unit element : Nat) (glove : Option Nat) (j' : Nat) : (s.contained cls code unit element glove).unitFlt j' = s.unitFlt j' := by simp only [State.unitFlt, State.contained_gflt]

@[simp] theorem State.corrected_gpending (s : State) (cls code unit element : Nat) : (s.corrected cls code unit element).pending = s.pending := by simp [State.corrected]
@[simp] theorem State.corrected_gout (s : State) (cls code unit element : Nat) : (s.corrected cls code unit element).out = s.out := by simp [State.corrected]
@[simp] theorem State.corrected_gsys (s : State) (cls code unit element : Nat) : (s.corrected cls code unit element).sys = s.sys := by simp [State.corrected]
@[simp] theorem State.corrected_gboot (s : State) (cls code unit element : Nat) : (s.corrected cls code unit element).boot = s.boot := by simp [State.corrected]
@[simp] theorem State.corrected_gtrust (s : State) (cls code unit element : Nat) : (s.corrected cls code unit element).trust = s.trust := by simp [State.corrected]
@[simp] theorem State.corrected_ghost (s : State) (cls code unit element : Nat) : (s.corrected cls code unit element).host = s.host := by simp [State.corrected]
@[simp] theorem State.corrected_gwork (s : State) (cls code unit element : Nat) : (s.corrected cls code unit element).work = s.work := by simp [State.corrected]
@[simp] theorem State.corrected_gpool (s : State) (cls code unit element : Nat) : (s.corrected cls code unit element).pool = s.pool := by simp [State.corrected]
@[simp] theorem State.corrected_gbasket (s : State) (cls code unit element : Nat) : (s.corrected cls code unit element).basket = s.basket := by simp [State.corrected]
@[simp] theorem State.corrected_gevt (s : State) (cls code unit element : Nat) : (s.corrected cls code unit element).evt = s.evt := by simp [State.corrected]
@[simp] theorem State.corrected_gflt (s : State) (cls code unit element : Nat) : (s.corrected cls code unit element).flt = s.flt := by simp [State.corrected]
@[simp] theorem State.corrected_gpwr (s : State) (cls code unit element : Nat) : (s.corrected cls code unit element).pwr = s.pwr := by simp [State.corrected]
@[simp] theorem State.corrected_gusg (s : State) (cls code unit element : Nat) : (s.corrected cls code unit element).usg = s.usg := by simp [State.corrected]
@[simp] theorem State.corrected_fn (s : State) (cls code unit element : Nat) (j' : FnId) : (s.corrected cls code unit element).fn j' = s.fn j' := by simp only [State.fn, State.corrected_ghost]
@[simp] theorem State.corrected_link (s : State) (cls code unit element : Nat) (j' : Nat) : (s.corrected cls code unit element).link j' = s.link j' := by simp only [State.link, State.corrected_ghost]
@[simp] theorem State.corrected_cuff (s : State) (cls code unit element : Nat) (j' : Nat) : (s.corrected cls code unit element).cuff j' = s.cuff j' := by simp only [State.cuff, State.corrected_ghost]
@[simp] theorem State.corrected_glove (s : State) (cls code unit element : Nat) (j' : Nat) : (s.corrected cls code unit element).glove j' = s.glove j' := by simp only [State.glove, State.corrected_gtrust]
@[simp] theorem State.corrected_slot (s : State) (cls code unit element : Nat) (j' : Nat) : (s.corrected cls code unit element).slot j' = s.slot j' := by simp only [State.slot, State.corrected_gtrust]
@[simp] theorem State.corrected_queue (s : State) (cls code unit element : Nat) (j' : QId) : (s.corrected cls code unit element).queue j' = s.queue j' := by simp only [State.queue, State.corrected_gwork]
@[simp] theorem State.corrected_finger (s : State) (cls code unit element : Nat) (j' : FgId) : (s.corrected cls code unit element).finger j' = s.finger j' := by simp only [State.finger, State.corrected_gwork]
@[simp] theorem State.corrected_gate (s : State) (cls code unit element : Nat) (j' : Nat) : (s.corrected cls code unit element).gate j' = s.gate j' := by simp only [State.gate, State.corrected_gpool]
@[simp] theorem State.corrected_blink (s : State) (cls code unit element : Nat) (j' : Nat) : (s.corrected cls code unit element).blink j' = s.blink j' := by simp only [State.blink, State.corrected_gbasket]
@[simp] theorem State.corrected_peer (s : State) (cls code unit element : Nat) (j' : Nat) : (s.corrected cls code unit element).peer j' = s.peer j' := by simp only [State.peer, State.corrected_gbasket]
@[simp] theorem State.corrected_source (s : State) (cls code unit element : Nat) (j' : Nat) : (s.corrected cls code unit element).source j' = s.source j' := by simp only [State.source, State.corrected_gevt]
@[simp] theorem State.corrected_dom (s : State) (cls code unit element : Nat) (j' : Nat) : (s.corrected cls code unit element).dom j' = s.dom j' := by simp only [State.dom, State.corrected_gpwr]
@[simp] theorem State.corrected_usage (s : State) (cls code unit element : Nat) (j' : Nat) : (s.corrected cls code unit element).usage j' = s.usage j' := by simp only [State.usage, State.corrected_gusg]
@[simp] theorem State.corrected_unitFlt (s : State) (cls code unit element : Nat) (j' : Nat) : (s.corrected cls code unit element).unitFlt j' = s.unitFlt j' := by simp only [State.unitFlt, State.corrected_gflt]

@[simp] theorem State.violate_gpending (s : State) (v : Violation) : (s.violate v).pending = s.pending := by simp [State.violate]
@[simp] theorem State.violate_gout (s : State) (v : Violation) : (s.violate v).out = s.out := by simp [State.violate]
@[simp] theorem State.violate_gsys (s : State) (v : Violation) : (s.violate v).sys = s.sys := by simp [State.violate]
@[simp] theorem State.violate_gboot (s : State) (v : Violation) : (s.violate v).boot = s.boot := by simp [State.violate]
@[simp] theorem State.violate_gtrust (s : State) (v : Violation) : (s.violate v).trust = s.trust := by simp [State.violate]
@[simp] theorem State.violate_ghost (s : State) (v : Violation) : (s.violate v).host = s.host := by simp [State.violate]
@[simp] theorem State.violate_gwork (s : State) (v : Violation) : (s.violate v).work = s.work := by simp [State.violate]
@[simp] theorem State.violate_gpool (s : State) (v : Violation) : (s.violate v).pool = s.pool := by simp [State.violate]
@[simp] theorem State.violate_gbasket (s : State) (v : Violation) : (s.violate v).basket = s.basket := by simp [State.violate]
@[simp] theorem State.violate_gevt (s : State) (v : Violation) : (s.violate v).evt = s.evt := by simp [State.violate]
@[simp] theorem State.violate_gflt (s : State) (v : Violation) : (s.violate v).flt = s.flt := by simp [State.violate]
@[simp] theorem State.violate_gpwr (s : State) (v : Violation) : (s.violate v).pwr = s.pwr := by simp [State.violate]
@[simp] theorem State.violate_gusg (s : State) (v : Violation) : (s.violate v).usg = s.usg := by simp [State.violate]
@[simp] theorem State.violate_fn (s : State) (v : Violation) (j' : FnId) : (s.violate v).fn j' = s.fn j' := by simp only [State.fn, State.violate_ghost]
@[simp] theorem State.violate_link (s : State) (v : Violation) (j' : Nat) : (s.violate v).link j' = s.link j' := by simp only [State.link, State.violate_ghost]
@[simp] theorem State.violate_cuff (s : State) (v : Violation) (j' : Nat) : (s.violate v).cuff j' = s.cuff j' := by simp only [State.cuff, State.violate_ghost]
@[simp] theorem State.violate_glove (s : State) (v : Violation) (j' : Nat) : (s.violate v).glove j' = s.glove j' := by simp only [State.glove, State.violate_gtrust]
@[simp] theorem State.violate_slot (s : State) (v : Violation) (j' : Nat) : (s.violate v).slot j' = s.slot j' := by simp only [State.slot, State.violate_gtrust]
@[simp] theorem State.violate_queue (s : State) (v : Violation) (j' : QId) : (s.violate v).queue j' = s.queue j' := by simp only [State.queue, State.violate_gwork]
@[simp] theorem State.violate_finger (s : State) (v : Violation) (j' : FgId) : (s.violate v).finger j' = s.finger j' := by simp only [State.finger, State.violate_gwork]
@[simp] theorem State.violate_gate (s : State) (v : Violation) (j' : Nat) : (s.violate v).gate j' = s.gate j' := by simp only [State.gate, State.violate_gpool]
@[simp] theorem State.violate_blink (s : State) (v : Violation) (j' : Nat) : (s.violate v).blink j' = s.blink j' := by simp only [State.blink, State.violate_gbasket]
@[simp] theorem State.violate_peer (s : State) (v : Violation) (j' : Nat) : (s.violate v).peer j' = s.peer j' := by simp only [State.peer, State.violate_gbasket]
@[simp] theorem State.violate_source (s : State) (v : Violation) (j' : Nat) : (s.violate v).source j' = s.source j' := by simp only [State.source, State.violate_gevt]
@[simp] theorem State.violate_dom (s : State) (v : Violation) (j' : Nat) : (s.violate v).dom j' = s.dom j' := by simp only [State.dom, State.violate_gpwr]
@[simp] theorem State.violate_usage (s : State) (v : Violation) (j' : Nat) : (s.violate v).usage j' = s.usage j' := by simp only [State.usage, State.violate_gusg]
@[simp] theorem State.violate_unitFlt (s : State) (v : Violation) (j' : Nat) : (s.violate v).unitFlt j' = s.unitFlt j' := by simp only [State.unitFlt, State.violate_gflt]

@[simp] theorem State.requestVector_gpending (s : State) (unit : Nat) (f : FnId) (vec : Nat) : (s.requestVector unit f vec).pending = s.pending := by simp [State.requestVector]
@[simp] theorem State.requestVector_gout (s : State) (unit : Nat) (f : FnId) (vec : Nat) : (s.requestVector unit f vec).out = s.out := by simp [State.requestVector]
@[simp] theorem State.requestVector_gsys (s : State) (unit : Nat) (f : FnId) (vec : Nat) : (s.requestVector unit f vec).sys = s.sys := by simp [State.requestVector]
@[simp] theorem State.requestVector_gboot (s : State) (unit : Nat) (f : FnId) (vec : Nat) : (s.requestVector unit f vec).boot = s.boot := by simp [State.requestVector]
@[simp] theorem State.requestVector_gtrust (s : State) (unit : Nat) (f : FnId) (vec : Nat) : (s.requestVector unit f vec).trust = s.trust := by simp [State.requestVector]
@[simp] theorem State.requestVector_ghost (s : State) (unit : Nat) (f : FnId) (vec : Nat) : (s.requestVector unit f vec).host = s.host := by simp [State.requestVector]
@[simp] theorem State.requestVector_gwork (s : State) (unit : Nat) (f : FnId) (vec : Nat) : (s.requestVector unit f vec).work = s.work := by simp [State.requestVector]
@[simp] theorem State.requestVector_gpool (s : State) (unit : Nat) (f : FnId) (vec : Nat) : (s.requestVector unit f vec).pool = s.pool := by simp [State.requestVector]
@[simp] theorem State.requestVector_gbasket (s : State) (unit : Nat) (f : FnId) (vec : Nat) : (s.requestVector unit f vec).basket = s.basket := by simp [State.requestVector]
@[simp] theorem State.requestVector_gevt (s : State) (unit : Nat) (f : FnId) (vec : Nat) : (s.requestVector unit f vec).evt = s.evt := by simp [State.requestVector]
@[simp] theorem State.requestVector_gflt (s : State) (unit : Nat) (f : FnId) (vec : Nat) : (s.requestVector unit f vec).flt = s.flt := by simp [State.requestVector]
@[simp] theorem State.requestVector_gpwr (s : State) (unit : Nat) (f : FnId) (vec : Nat) : (s.requestVector unit f vec).pwr = s.pwr := by simp [State.requestVector]
@[simp] theorem State.requestVector_gusg (s : State) (unit : Nat) (f : FnId) (vec : Nat) : (s.requestVector unit f vec).usg = s.usg := by simp [State.requestVector]
@[simp] theorem State.requestVector_fn (s : State) (unit : Nat) (f : FnId) (vec : Nat) (j' : FnId) : (s.requestVector unit f vec).fn j' = s.fn j' := by simp only [State.fn, State.requestVector_ghost]
@[simp] theorem State.requestVector_link (s : State) (unit : Nat) (f : FnId) (vec : Nat) (j' : Nat) : (s.requestVector unit f vec).link j' = s.link j' := by simp only [State.link, State.requestVector_ghost]
@[simp] theorem State.requestVector_cuff (s : State) (unit : Nat) (f : FnId) (vec : Nat) (j' : Nat) : (s.requestVector unit f vec).cuff j' = s.cuff j' := by simp only [State.cuff, State.requestVector_ghost]
@[simp] theorem State.requestVector_glove (s : State) (unit : Nat) (f : FnId) (vec : Nat) (j' : Nat) : (s.requestVector unit f vec).glove j' = s.glove j' := by simp only [State.glove, State.requestVector_gtrust]
@[simp] theorem State.requestVector_slot (s : State) (unit : Nat) (f : FnId) (vec : Nat) (j' : Nat) : (s.requestVector unit f vec).slot j' = s.slot j' := by simp only [State.slot, State.requestVector_gtrust]
@[simp] theorem State.requestVector_queue (s : State) (unit : Nat) (f : FnId) (vec : Nat) (j' : QId) : (s.requestVector unit f vec).queue j' = s.queue j' := by simp only [State.queue, State.requestVector_gwork]
@[simp] theorem State.requestVector_finger (s : State) (unit : Nat) (f : FnId) (vec : Nat) (j' : FgId) : (s.requestVector unit f vec).finger j' = s.finger j' := by simp only [State.finger, State.requestVector_gwork]
@[simp] theorem State.requestVector_gate (s : State) (unit : Nat) (f : FnId) (vec : Nat) (j' : Nat) : (s.requestVector unit f vec).gate j' = s.gate j' := by simp only [State.gate, State.requestVector_gpool]
@[simp] theorem State.requestVector_blink (s : State) (unit : Nat) (f : FnId) (vec : Nat) (j' : Nat) : (s.requestVector unit f vec).blink j' = s.blink j' := by simp only [State.blink, State.requestVector_gbasket]
@[simp] theorem State.requestVector_peer (s : State) (unit : Nat) (f : FnId) (vec : Nat) (j' : Nat) : (s.requestVector unit f vec).peer j' = s.peer j' := by simp only [State.peer, State.requestVector_gbasket]
@[simp] theorem State.requestVector_source (s : State) (unit : Nat) (f : FnId) (vec : Nat) (j' : Nat) : (s.requestVector unit f vec).source j' = s.source j' := by simp only [State.source, State.requestVector_gevt]
@[simp] theorem State.requestVector_dom (s : State) (unit : Nat) (f : FnId) (vec : Nat) (j' : Nat) : (s.requestVector unit f vec).dom j' = s.dom j' := by simp only [State.dom, State.requestVector_gpwr]
@[simp] theorem State.requestVector_usage (s : State) (unit : Nat) (f : FnId) (vec : Nat) (j' : Nat) : (s.requestVector unit f vec).usage j' = s.usage j' := by simp only [State.usage, State.requestVector_gusg]
@[simp] theorem State.requestVector_unitFlt (s : State) (unit : Nat) (f : FnId) (vec : Nat) (j' : Nat) : (s.requestVector unit f vec).unitFlt j' = s.unitFlt j' := by simp only [State.unitFlt, State.requestVector_gflt]

@[simp] theorem State.raiseCause_gpending (s : State) (f : FnId) (b : Nat) : (s.raiseCause f b).pending = s.pending := by unfold State.raiseCause; first | rfl | (simp; done) | ((try dsimp only); (repeat' split) <;> simp)
@[simp] theorem State.raiseCause_gout (s : State) (f : FnId) (b : Nat) : (s.raiseCause f b).out = s.out := by unfold State.raiseCause; first | rfl | (simp; done) | ((try dsimp only); (repeat' split) <;> simp)
@[simp] theorem State.raiseCause_gsys (s : State) (f : FnId) (b : Nat) : (s.raiseCause f b).sys = s.sys := by unfold State.raiseCause; first | rfl | (simp; done) | ((try dsimp only); (repeat' split) <;> simp)
@[simp] theorem State.raiseCause_gboot (s : State) (f : FnId) (b : Nat) : (s.raiseCause f b).boot = s.boot := by unfold State.raiseCause; first | rfl | (simp; done) | ((try dsimp only); (repeat' split) <;> simp)
@[simp] theorem State.raiseCause_gtrust (s : State) (f : FnId) (b : Nat) : (s.raiseCause f b).trust = s.trust := by unfold State.raiseCause; first | rfl | (simp; done) | ((try dsimp only); (repeat' split) <;> simp)
@[simp] theorem State.raiseCause_gwork (s : State) (f : FnId) (b : Nat) : (s.raiseCause f b).work = s.work := by unfold State.raiseCause; first | rfl | (simp; done) | ((try dsimp only); (repeat' split) <;> simp)
@[simp] theorem State.raiseCause_gpool (s : State) (f : FnId) (b : Nat) : (s.raiseCause f b).pool = s.pool := by unfold State.raiseCause; first | rfl | (simp; done) | ((try dsimp only); (repeat' split) <;> simp)
@[simp] theorem State.raiseCause_gbasket (s : State) (f : FnId) (b : Nat) : (s.raiseCause f b).basket = s.basket := by unfold State.raiseCause; first | rfl | (simp; done) | ((try dsimp only); (repeat' split) <;> simp)
@[simp] theorem State.raiseCause_gevt (s : State) (f : FnId) (b : Nat) : (s.raiseCause f b).evt = s.evt := by unfold State.raiseCause; first | rfl | (simp; done) | ((try dsimp only); (repeat' split) <;> simp)
@[simp] theorem State.raiseCause_gflt (s : State) (f : FnId) (b : Nat) : (s.raiseCause f b).flt = s.flt := by unfold State.raiseCause; first | rfl | (simp; done) | ((try dsimp only); (repeat' split) <;> simp)
@[simp] theorem State.raiseCause_gpwr (s : State) (f : FnId) (b : Nat) : (s.raiseCause f b).pwr = s.pwr := by unfold State.raiseCause; first | rfl | (simp; done) | ((try dsimp only); (repeat' split) <;> simp)
@[simp] theorem State.raiseCause_gusg (s : State) (f : FnId) (b : Nat) : (s.raiseCause f b).usg = s.usg := by unfold State.raiseCause; first | rfl | (simp; done) | ((try dsimp only); (repeat' split) <;> simp)
@[simp] theorem State.raiseCause_glove (s : State) (f : FnId) (b : Nat) (j' : Nat) : (s.raiseCause f b).glove j' = s.glove j' := by simp only [State.glove, State.raiseCause_gtrust]
@[simp] theorem State.raiseCause_slot (s : State) (f : FnId) (b : Nat) (j' : Nat) : (s.raiseCause f b).slot j' = s.slot j' := by simp only [State.slot, State.raiseCause_gtrust]
@[simp] theorem State.raiseCause_queue (s : State) (f : FnId) (b : Nat) (j' : QId) : (s.raiseCause f b).queue j' = s.queue j' := by simp only [State.queue, State.raiseCause_gwork]
@[simp] theorem State.raiseCause_finger (s : State) (f : FnId) (b : Nat) (j' : FgId) : (s.raiseCause f b).finger j' = s.finger j' := by simp only [State.finger, State.raiseCause_gwork]
@[simp] theorem State.raiseCause_gate (s : State) (f : FnId) (b : Nat) (j' : Nat) : (s.raiseCause f b).gate j' = s.gate j' := by simp only [State.gate, State.raiseCause_gpool]
@[simp] theorem State.raiseCause_blink (s : State) (f : FnId) (b : Nat) (j' : Nat) : (s.raiseCause f b).blink j' = s.blink j' := by simp only [State.blink, State.raiseCause_gbasket]
@[simp] theorem State.raiseCause_peer (s : State) (f : FnId) (b : Nat) (j' : Nat) : (s.raiseCause f b).peer j' = s.peer j' := by simp only [State.peer, State.raiseCause_gbasket]
@[simp] theorem State.raiseCause_source (s : State) (f : FnId) (b : Nat) (j' : Nat) : (s.raiseCause f b).source j' = s.source j' := by simp only [State.source, State.raiseCause_gevt]
@[simp] theorem State.raiseCause_dom (s : State) (f : FnId) (b : Nat) (j' : Nat) : (s.raiseCause f b).dom j' = s.dom j' := by simp only [State.dom, State.raiseCause_gpwr]
@[simp] theorem State.raiseCause_usage (s : State) (f : FnId) (b : Nat) (j' : Nat) : (s.raiseCause f b).usage j' = s.usage j' := by simp only [State.usage, State.raiseCause_gusg]
@[simp] theorem State.raiseCause_unitFlt (s : State) (f : FnId) (b : Nat) (j' : Nat) : (s.raiseCause f b).unitFlt j' = s.unitFlt j' := by simp only [State.unitFlt, State.raiseCause_gflt]

@[simp] theorem State.raiseAllPf_gpending (s : State) (b : Nat) : (s.raiseAllPf b).pending = s.pending := foldl_same (fun s => s.pending) _ _ _ (fun s x => by first | rfl | (simp; done) | ((try dsimp only); (repeat' split) <;> simp))
@[simp] theorem State.raiseAllPf_gout (s : State) (b : Nat) : (s.raiseAllPf b).out = s.out := foldl_same (fun s => s.out) _ _ _ (fun s x => by first | rfl | (simp; done) | ((try dsimp only); (repeat' split) <;> simp))
@[simp] theorem State.raiseAllPf_gsys (s : State) (b : Nat) : (s.raiseAllPf b).sys = s.sys := foldl_same (fun s => s.sys) _ _ _ (fun s x => by first | rfl | (simp; done) | ((try dsimp only); (repeat' split) <;> simp))
@[simp] theorem State.raiseAllPf_gboot (s : State) (b : Nat) : (s.raiseAllPf b).boot = s.boot := foldl_same (fun s => s.boot) _ _ _ (fun s x => by first | rfl | (simp; done) | ((try dsimp only); (repeat' split) <;> simp))
@[simp] theorem State.raiseAllPf_gtrust (s : State) (b : Nat) : (s.raiseAllPf b).trust = s.trust := foldl_same (fun s => s.trust) _ _ _ (fun s x => by first | rfl | (simp; done) | ((try dsimp only); (repeat' split) <;> simp))
@[simp] theorem State.raiseAllPf_gwork (s : State) (b : Nat) : (s.raiseAllPf b).work = s.work := foldl_same (fun s => s.work) _ _ _ (fun s x => by first | rfl | (simp; done) | ((try dsimp only); (repeat' split) <;> simp))
@[simp] theorem State.raiseAllPf_gpool (s : State) (b : Nat) : (s.raiseAllPf b).pool = s.pool := foldl_same (fun s => s.pool) _ _ _ (fun s x => by first | rfl | (simp; done) | ((try dsimp only); (repeat' split) <;> simp))
@[simp] theorem State.raiseAllPf_gbasket (s : State) (b : Nat) : (s.raiseAllPf b).basket = s.basket := foldl_same (fun s => s.basket) _ _ _ (fun s x => by first | rfl | (simp; done) | ((try dsimp only); (repeat' split) <;> simp))
@[simp] theorem State.raiseAllPf_gevt (s : State) (b : Nat) : (s.raiseAllPf b).evt = s.evt := foldl_same (fun s => s.evt) _ _ _ (fun s x => by first | rfl | (simp; done) | ((try dsimp only); (repeat' split) <;> simp))
@[simp] theorem State.raiseAllPf_gflt (s : State) (b : Nat) : (s.raiseAllPf b).flt = s.flt := foldl_same (fun s => s.flt) _ _ _ (fun s x => by first | rfl | (simp; done) | ((try dsimp only); (repeat' split) <;> simp))
@[simp] theorem State.raiseAllPf_gpwr (s : State) (b : Nat) : (s.raiseAllPf b).pwr = s.pwr := foldl_same (fun s => s.pwr) _ _ _ (fun s x => by first | rfl | (simp; done) | ((try dsimp only); (repeat' split) <;> simp))
@[simp] theorem State.raiseAllPf_gusg (s : State) (b : Nat) : (s.raiseAllPf b).usg = s.usg := foldl_same (fun s => s.usg) _ _ _ (fun s x => by first | rfl | (simp; done) | ((try dsimp only); (repeat' split) <;> simp))
@[simp] theorem State.raiseAllPf_glove (s : State) (b : Nat) (j' : Nat) : (s.raiseAllPf b).glove j' = s.glove j' := by simp only [State.glove, State.raiseAllPf_gtrust]
@[simp] theorem State.raiseAllPf_slot (s : State) (b : Nat) (j' : Nat) : (s.raiseAllPf b).slot j' = s.slot j' := by simp only [State.slot, State.raiseAllPf_gtrust]
@[simp] theorem State.raiseAllPf_queue (s : State) (b : Nat) (j' : QId) : (s.raiseAllPf b).queue j' = s.queue j' := by simp only [State.queue, State.raiseAllPf_gwork]
@[simp] theorem State.raiseAllPf_finger (s : State) (b : Nat) (j' : FgId) : (s.raiseAllPf b).finger j' = s.finger j' := by simp only [State.finger, State.raiseAllPf_gwork]
@[simp] theorem State.raiseAllPf_gate (s : State) (b : Nat) (j' : Nat) : (s.raiseAllPf b).gate j' = s.gate j' := by simp only [State.gate, State.raiseAllPf_gpool]
@[simp] theorem State.raiseAllPf_blink (s : State) (b : Nat) (j' : Nat) : (s.raiseAllPf b).blink j' = s.blink j' := by simp only [State.blink, State.raiseAllPf_gbasket]
@[simp] theorem State.raiseAllPf_peer (s : State) (b : Nat) (j' : Nat) : (s.raiseAllPf b).peer j' = s.peer j' := by simp only [State.peer, State.raiseAllPf_gbasket]
@[simp] theorem State.raiseAllPf_source (s : State) (b : Nat) (j' : Nat) : (s.raiseAllPf b).source j' = s.source j' := by simp only [State.source, State.raiseAllPf_gevt]
@[simp] theorem State.raiseAllPf_dom (s : State) (b : Nat) (j' : Nat) : (s.raiseAllPf b).dom j' = s.dom j' := by simp only [State.dom, State.raiseAllPf_gpwr]
@[simp] theorem State.raiseAllPf_usage (s : State) (b : Nat) (j' : Nat) : (s.raiseAllPf b).usage j' = s.usage j' := by simp only [State.usage, State.raiseAllPf_gusg]
@[simp] theorem State.raiseAllPf_unitFlt (s : State) (b : Nat) (j' : Nat) : (s.raiseAllPf b).unitFlt j' = s.unitFlt j' := by simp only [State.unitFlt, State.raiseAllPf_gflt]

@[simp] theorem State.edge_gpending (s : State) (i : Nat) : (s.edge i).pending = s.pending := by unfold State.edge; first | rfl | (simp; done) | ((try dsimp only); (repeat' split) <;> simp)
@[simp] theorem State.edge_gout (s : State) (i : Nat) : (s.edge i).out = s.out := by unfold State.edge; first | rfl | (simp; done) | ((try dsimp only); (repeat' split) <;> simp)
@[simp] theorem State.edge_gsys (s : State) (i : Nat) : (s.edge i).sys = s.sys := by unfold State.edge; first | rfl | (simp; done) | ((try dsimp only); (repeat' split) <;> simp)
@[simp] theorem State.edge_gboot (s : State) (i : Nat) : (s.edge i).boot = s.boot := by unfold State.edge; first | rfl | (simp; done) | ((try dsimp only); (repeat' split) <;> simp)
@[simp] theorem State.edge_gtrust (s : State) (i : Nat) : (s.edge i).trust = s.trust := by unfold State.edge; first | rfl | (simp; done) | ((try dsimp only); (repeat' split) <;> simp)
@[simp] theorem State.edge_ghost (s : State) (i : Nat) : (s.edge i).host = s.host := by unfold State.edge; first | rfl | (simp; done) | ((try dsimp only); (repeat' split) <;> simp)
@[simp] theorem State.edge_gwork (s : State) (i : Nat) : (s.edge i).work = s.work := by unfold State.edge; first | rfl | (simp; done) | ((try dsimp only); (repeat' split) <;> simp)
@[simp] theorem State.edge_gpool (s : State) (i : Nat) : (s.edge i).pool = s.pool := by unfold State.edge; first | rfl | (simp; done) | ((try dsimp only); (repeat' split) <;> simp)
@[simp] theorem State.edge_gnet (s : State) (i : Nat) : (s.edge i).net = s.net := by unfold State.edge; first | rfl | (simp; done) | ((try dsimp only); (repeat' split) <;> simp)
@[simp] theorem State.edge_gbasket (s : State) (i : Nat) : (s.edge i).basket = s.basket := by unfold State.edge; first | rfl | (simp; done) | ((try dsimp only); (repeat' split) <;> simp)
@[simp] theorem State.edge_gflt (s : State) (i : Nat) : (s.edge i).flt = s.flt := by unfold State.edge; first | rfl | (simp; done) | ((try dsimp only); (repeat' split) <;> simp)
@[simp] theorem State.edge_gpwr (s : State) (i : Nat) : (s.edge i).pwr = s.pwr := by unfold State.edge; first | rfl | (simp; done) | ((try dsimp only); (repeat' split) <;> simp)
@[simp] theorem State.edge_gusg (s : State) (i : Nat) : (s.edge i).usg = s.usg := by unfold State.edge; first | rfl | (simp; done) | ((try dsimp only); (repeat' split) <;> simp)
@[simp] theorem State.edge_fn (s : State) (i : Nat) (j' : FnId) : (s.edge i).fn j' = s.fn j' := by simp only [State.fn, State.edge_ghost]
@[simp] theorem State.edge_link (s : State) (i : Nat) (j' : Nat) : (s.edge i).link j' = s.link j' := by simp only [State.link, State.edge_ghost]
@[simp] theorem State.edge_cuff (s : State) (i : Nat) (j' : Nat) : (s.edge i).cuff j' = s.cuff j' := by simp only [State.cuff, State.edge_ghost]
@[simp] theorem State.edge_glove (s : State) (i : Nat) (j' : Nat) : (s.edge i).glove j' = s.glove j' := by simp only [State.glove, State.edge_gtrust]
@[simp] theorem State.edge_slot (s : State) (i : Nat) (j' : Nat) : (s.edge i).slot j' = s.slot j' := by simp only [State.slot, State.edge_gtrust]
@[simp] theorem State.edge_queue (s : State) (i : Nat) (j' : QId) : (s.edge i).queue j' = s.queue j' := by simp only [State.queue, State.edge_gwork]
@[simp] theorem State.edge_finger (s : State) (i : Nat) (j' : FgId) : (s.edge i).finger j' = s.finger j' := by simp only [State.finger, State.edge_gwork]
@[simp] theorem State.edge_gate (s : State) (i : Nat) (j' : Nat) : (s.edge i).gate j' = s.gate j' := by simp only [State.gate, State.edge_gpool]
@[simp] theorem State.edge_quad (s : State) (i : Nat) (j' : Nat) : (s.edge i).quad j' = s.quad j' := by simp only [State.quad, State.edge_gnet]
@[simp] theorem State.edge_blink (s : State) (i : Nat) (j' : Nat) : (s.edge i).blink j' = s.blink j' := by simp only [State.blink, State.edge_gbasket]
@[simp] theorem State.edge_peer (s : State) (i : Nat) (j' : Nat) : (s.edge i).peer j' = s.peer j' := by simp only [State.peer, State.edge_gbasket]
@[simp] theorem State.edge_dom (s : State) (i : Nat) (j' : Nat) : (s.edge i).dom j' = s.dom j' := by simp only [State.dom, State.edge_gpwr]
@[simp] theorem State.edge_usage (s : State) (i : Nat) (j' : Nat) : (s.edge i).usage j' = s.usage j' := by simp only [State.usage, State.edge_gusg]
@[simp] theorem State.edge_unitFlt (s : State) (i : Nat) (j' : Nat) : (s.edge i).unitFlt j' = s.unitFlt j' := by simp only [State.unitFlt, State.edge_gflt]

@[simp] theorem State.setLevel_gpending (s : State) (i : Nat) (v : Bool) : (s.setLevel i v).pending = s.pending := rfl
@[simp] theorem State.setLevel_gout (s : State) (i : Nat) (v : Bool) : (s.setLevel i v).out = s.out := rfl
@[simp] theorem State.setLevel_gsys (s : State) (i : Nat) (v : Bool) : (s.setLevel i v).sys = s.sys := rfl
@[simp] theorem State.setLevel_gboot (s : State) (i : Nat) (v : Bool) : (s.setLevel i v).boot = s.boot := rfl
@[simp] theorem State.setLevel_gtrust (s : State) (i : Nat) (v : Bool) : (s.setLevel i v).trust = s.trust := rfl
@[simp] theorem State.setLevel_ghost (s : State) (i : Nat) (v : Bool) : (s.setLevel i v).host = s.host := rfl
@[simp] theorem State.setLevel_gwork (s : State) (i : Nat) (v : Bool) : (s.setLevel i v).work = s.work := rfl
@[simp] theorem State.setLevel_gpool (s : State) (i : Nat) (v : Bool) : (s.setLevel i v).pool = s.pool := rfl
@[simp] theorem State.setLevel_gnet (s : State) (i : Nat) (v : Bool) : (s.setLevel i v).net = s.net := rfl
@[simp] theorem State.setLevel_gbasket (s : State) (i : Nat) (v : Bool) : (s.setLevel i v).basket = s.basket := rfl
@[simp] theorem State.setLevel_gflt (s : State) (i : Nat) (v : Bool) : (s.setLevel i v).flt = s.flt := rfl
@[simp] theorem State.setLevel_gpwr (s : State) (i : Nat) (v : Bool) : (s.setLevel i v).pwr = s.pwr := rfl
@[simp] theorem State.setLevel_gusg (s : State) (i : Nat) (v : Bool) : (s.setLevel i v).usg = s.usg := rfl
@[simp] theorem State.setLevel_fn (s : State) (i : Nat) (v : Bool) (j' : FnId) : (s.setLevel i v).fn j' = s.fn j' := by simp only [State.fn, State.setLevel_ghost]
@[simp] theorem State.setLevel_link (s : State) (i : Nat) (v : Bool) (j' : Nat) : (s.setLevel i v).link j' = s.link j' := by simp only [State.link, State.setLevel_ghost]
@[simp] theorem State.setLevel_cuff (s : State) (i : Nat) (v : Bool) (j' : Nat) : (s.setLevel i v).cuff j' = s.cuff j' := by simp only [State.cuff, State.setLevel_ghost]
@[simp] theorem State.setLevel_glove (s : State) (i : Nat) (v : Bool) (j' : Nat) : (s.setLevel i v).glove j' = s.glove j' := by simp only [State.glove, State.setLevel_gtrust]
@[simp] theorem State.setLevel_slot (s : State) (i : Nat) (v : Bool) (j' : Nat) : (s.setLevel i v).slot j' = s.slot j' := by simp only [State.slot, State.setLevel_gtrust]
@[simp] theorem State.setLevel_queue (s : State) (i : Nat) (v : Bool) (j' : QId) : (s.setLevel i v).queue j' = s.queue j' := by simp only [State.queue, State.setLevel_gwork]
@[simp] theorem State.setLevel_finger (s : State) (i : Nat) (v : Bool) (j' : FgId) : (s.setLevel i v).finger j' = s.finger j' := by simp only [State.finger, State.setLevel_gwork]
@[simp] theorem State.setLevel_gate (s : State) (i : Nat) (v : Bool) (j' : Nat) : (s.setLevel i v).gate j' = s.gate j' := by simp only [State.gate, State.setLevel_gpool]
@[simp] theorem State.setLevel_quad (s : State) (i : Nat) (v : Bool) (j' : Nat) : (s.setLevel i v).quad j' = s.quad j' := by simp only [State.quad, State.setLevel_gnet]
@[simp] theorem State.setLevel_blink (s : State) (i : Nat) (v : Bool) (j' : Nat) : (s.setLevel i v).blink j' = s.blink j' := by simp only [State.blink, State.setLevel_gbasket]
@[simp] theorem State.setLevel_peer (s : State) (i : Nat) (v : Bool) (j' : Nat) : (s.setLevel i v).peer j' = s.peer j' := by simp only [State.peer, State.setLevel_gbasket]
@[simp] theorem State.setLevel_dom (s : State) (i : Nat) (v : Bool) (j' : Nat) : (s.setLevel i v).dom j' = s.dom j' := by simp only [State.dom, State.setLevel_gpwr]
@[simp] theorem State.setLevel_usage (s : State) (i : Nat) (v : Bool) (j' : Nat) : (s.setLevel i v).usage j' = s.usage j' := by simp only [State.usage, State.setLevel_gusg]
@[simp] theorem State.setLevel_unitFlt (s : State) (i : Nat) (v : Bool) (j' : Nat) : (s.setLevel i v).unitFlt j' = s.unitFlt j' := by simp only [State.unitFlt, State.setLevel_gflt]

@[simp] theorem State.reject_gpending (s : State) (f : FnId) (code space off : Nat) : (s.reject f code space off).pending = s.pending := rfl
@[simp] theorem State.reject_gout (s : State) (f : FnId) (code space off : Nat) : (s.reject f code space off).out = s.out := rfl
@[simp] theorem State.reject_gsys (s : State) (f : FnId) (code space off : Nat) : (s.reject f code space off).sys = s.sys := rfl
@[simp] theorem State.reject_gboot (s : State) (f : FnId) (code space off : Nat) : (s.reject f code space off).boot = s.boot := rfl
@[simp] theorem State.reject_gtrust (s : State) (f : FnId) (code space off : Nat) : (s.reject f code space off).trust = s.trust := rfl
@[simp] theorem State.reject_gwork (s : State) (f : FnId) (code space off : Nat) : (s.reject f code space off).work = s.work := rfl
@[simp] theorem State.reject_gpool (s : State) (f : FnId) (code space off : Nat) : (s.reject f code space off).pool = s.pool := rfl
@[simp] theorem State.reject_gnet (s : State) (f : FnId) (code space off : Nat) : (s.reject f code space off).net = s.net := rfl
@[simp] theorem State.reject_gbasket (s : State) (f : FnId) (code space off : Nat) : (s.reject f code space off).basket = s.basket := rfl
@[simp] theorem State.reject_gevt (s : State) (f : FnId) (code space off : Nat) : (s.reject f code space off).evt = s.evt := rfl
@[simp] theorem State.reject_gflt (s : State) (f : FnId) (code space off : Nat) : (s.reject f code space off).flt = s.flt := rfl
@[simp] theorem State.reject_gpwr (s : State) (f : FnId) (code space off : Nat) : (s.reject f code space off).pwr = s.pwr := rfl
@[simp] theorem State.reject_gusg (s : State) (f : FnId) (code space off : Nat) : (s.reject f code space off).usg = s.usg := rfl
@[simp] theorem State.reject_glove (s : State) (f : FnId) (code space off : Nat) (j' : Nat) : (s.reject f code space off).glove j' = s.glove j' := by simp only [State.glove, State.reject_gtrust]
@[simp] theorem State.reject_slot (s : State) (f : FnId) (code space off : Nat) (j' : Nat) : (s.reject f code space off).slot j' = s.slot j' := by simp only [State.slot, State.reject_gtrust]
@[simp] theorem State.reject_queue (s : State) (f : FnId) (code space off : Nat) (j' : QId) : (s.reject f code space off).queue j' = s.queue j' := by simp only [State.queue, State.reject_gwork]
@[simp] theorem State.reject_finger (s : State) (f : FnId) (code space off : Nat) (j' : FgId) : (s.reject f code space off).finger j' = s.finger j' := by simp only [State.finger, State.reject_gwork]
@[simp] theorem State.reject_gate (s : State) (f : FnId) (code space off : Nat) (j' : Nat) : (s.reject f code space off).gate j' = s.gate j' := by simp only [State.gate, State.reject_gpool]
@[simp] theorem State.reject_quad (s : State) (f : FnId) (code space off : Nat) (j' : Nat) : (s.reject f code space off).quad j' = s.quad j' := by simp only [State.quad, State.reject_gnet]
@[simp] theorem State.reject_blink (s : State) (f : FnId) (code space off : Nat) (j' : Nat) : (s.reject f code space off).blink j' = s.blink j' := by simp only [State.blink, State.reject_gbasket]
@[simp] theorem State.reject_peer (s : State) (f : FnId) (code space off : Nat) (j' : Nat) : (s.reject f code space off).peer j' = s.peer j' := by simp only [State.peer, State.reject_gbasket]
@[simp] theorem State.reject_source (s : State) (f : FnId) (code space off : Nat) (j' : Nat) : (s.reject f code space off).source j' = s.source j' := by simp only [State.source, State.reject_gevt]
@[simp] theorem State.reject_dom (s : State) (f : FnId) (code space off : Nat) (j' : Nat) : (s.reject f code space off).dom j' = s.dom j' := by simp only [State.dom, State.reject_gpwr]
@[simp] theorem State.reject_usage (s : State) (f : FnId) (code space off : Nat) (j' : Nat) : (s.reject f code space off).usage j' = s.usage j' := by simp only [State.usage, State.reject_gusg]
@[simp] theorem State.reject_unitFlt (s : State) (f : FnId) (code space off : Nat) (j' : Nat) : (s.reject f code space off).unitFlt j' = s.unitFlt j' := by simp only [State.unitFlt, State.reject_gflt]

@[simp] theorem State.aer_gpending (s : State) (f : FnId) (e : Aer) : (s.aer f e).pending = s.pending := rfl
@[simp] theorem State.aer_gout (s : State) (f : FnId) (e : Aer) : (s.aer f e).out = s.out := rfl
@[simp] theorem State.aer_gsys (s : State) (f : FnId) (e : Aer) : (s.aer f e).sys = s.sys := rfl
@[simp] theorem State.aer_gboot (s : State) (f : FnId) (e : Aer) : (s.aer f e).boot = s.boot := rfl
@[simp] theorem State.aer_gtrust (s : State) (f : FnId) (e : Aer) : (s.aer f e).trust = s.trust := rfl
@[simp] theorem State.aer_gwork (s : State) (f : FnId) (e : Aer) : (s.aer f e).work = s.work := rfl
@[simp] theorem State.aer_gpool (s : State) (f : FnId) (e : Aer) : (s.aer f e).pool = s.pool := rfl
@[simp] theorem State.aer_gnet (s : State) (f : FnId) (e : Aer) : (s.aer f e).net = s.net := rfl
@[simp] theorem State.aer_gbasket (s : State) (f : FnId) (e : Aer) : (s.aer f e).basket = s.basket := rfl
@[simp] theorem State.aer_gevt (s : State) (f : FnId) (e : Aer) : (s.aer f e).evt = s.evt := rfl
@[simp] theorem State.aer_gflt (s : State) (f : FnId) (e : Aer) : (s.aer f e).flt = s.flt := rfl
@[simp] theorem State.aer_gpwr (s : State) (f : FnId) (e : Aer) : (s.aer f e).pwr = s.pwr := rfl
@[simp] theorem State.aer_gusg (s : State) (f : FnId) (e : Aer) : (s.aer f e).usg = s.usg := rfl
@[simp] theorem State.aer_glove (s : State) (f : FnId) (e : Aer) (j' : Nat) : (s.aer f e).glove j' = s.glove j' := by simp only [State.glove, State.aer_gtrust]
@[simp] theorem State.aer_slot (s : State) (f : FnId) (e : Aer) (j' : Nat) : (s.aer f e).slot j' = s.slot j' := by simp only [State.slot, State.aer_gtrust]
@[simp] theorem State.aer_queue (s : State) (f : FnId) (e : Aer) (j' : QId) : (s.aer f e).queue j' = s.queue j' := by simp only [State.queue, State.aer_gwork]
@[simp] theorem State.aer_finger (s : State) (f : FnId) (e : Aer) (j' : FgId) : (s.aer f e).finger j' = s.finger j' := by simp only [State.finger, State.aer_gwork]
@[simp] theorem State.aer_gate (s : State) (f : FnId) (e : Aer) (j' : Nat) : (s.aer f e).gate j' = s.gate j' := by simp only [State.gate, State.aer_gpool]
@[simp] theorem State.aer_quad (s : State) (f : FnId) (e : Aer) (j' : Nat) : (s.aer f e).quad j' = s.quad j' := by simp only [State.quad, State.aer_gnet]
@[simp] theorem State.aer_blink (s : State) (f : FnId) (e : Aer) (j' : Nat) : (s.aer f e).blink j' = s.blink j' := by simp only [State.blink, State.aer_gbasket]
@[simp] theorem State.aer_peer (s : State) (f : FnId) (e : Aer) (j' : Nat) : (s.aer f e).peer j' = s.peer j' := by simp only [State.peer, State.aer_gbasket]
@[simp] theorem State.aer_source (s : State) (f : FnId) (e : Aer) (j' : Nat) : (s.aer f e).source j' = s.source j' := by simp only [State.source, State.aer_gevt]
@[simp] theorem State.aer_dom (s : State) (f : FnId) (e : Aer) (j' : Nat) : (s.aer f e).dom j' = s.dom j' := by simp only [State.dom, State.aer_gpwr]
@[simp] theorem State.aer_usage (s : State) (f : FnId) (e : Aer) (j' : Nat) : (s.aer f e).usage j' = s.usage j' := by simp only [State.usage, State.aer_gusg]
@[simp] theorem State.aer_unitFlt (s : State) (f : FnId) (e : Aer) (j' : Nat) : (s.aer f e).unitFlt j' = s.unitFlt j' := by simp only [State.unitFlt, State.aer_gflt]

@[simp] theorem State.errLog_gpending (s : State) (f : FnId) (kind code space addr tfn tlink glove : Nat) : (s.errLog f kind code space addr tfn tlink glove).pending = s.pending := by unfold State.errLog; first | rfl | (simp; done) | ((try dsimp only); (repeat' split) <;> simp)
@[simp] theorem State.errLog_gout (s : State) (f : FnId) (kind code space addr tfn tlink glove : Nat) : (s.errLog f kind code space addr tfn tlink glove).out = s.out := by unfold State.errLog; first | rfl | (simp; done) | ((try dsimp only); (repeat' split) <;> simp)
@[simp] theorem State.errLog_gsys (s : State) (f : FnId) (kind code space addr tfn tlink glove : Nat) : (s.errLog f kind code space addr tfn tlink glove).sys = s.sys := by unfold State.errLog; first | rfl | (simp; done) | ((try dsimp only); (repeat' split) <;> simp)
@[simp] theorem State.errLog_gboot (s : State) (f : FnId) (kind code space addr tfn tlink glove : Nat) : (s.errLog f kind code space addr tfn tlink glove).boot = s.boot := by unfold State.errLog; first | rfl | (simp; done) | ((try dsimp only); (repeat' split) <;> simp)
@[simp] theorem State.errLog_gtrust (s : State) (f : FnId) (kind code space addr tfn tlink glove : Nat) : (s.errLog f kind code space addr tfn tlink glove).trust = s.trust := by unfold State.errLog; first | rfl | (simp; done) | ((try dsimp only); (repeat' split) <;> simp)
@[simp] theorem State.errLog_gwork (s : State) (f : FnId) (kind code space addr tfn tlink glove : Nat) : (s.errLog f kind code space addr tfn tlink glove).work = s.work := by unfold State.errLog; first | rfl | (simp; done) | ((try dsimp only); (repeat' split) <;> simp)
@[simp] theorem State.errLog_gpool (s : State) (f : FnId) (kind code space addr tfn tlink glove : Nat) : (s.errLog f kind code space addr tfn tlink glove).pool = s.pool := by unfold State.errLog; first | rfl | (simp; done) | ((try dsimp only); (repeat' split) <;> simp)
@[simp] theorem State.errLog_gbasket (s : State) (f : FnId) (kind code space addr tfn tlink glove : Nat) : (s.errLog f kind code space addr tfn tlink glove).basket = s.basket := by unfold State.errLog; first | rfl | (simp; done) | ((try dsimp only); (repeat' split) <;> simp)
@[simp] theorem State.errLog_gevt (s : State) (f : FnId) (kind code space addr tfn tlink glove : Nat) : (s.errLog f kind code space addr tfn tlink glove).evt = s.evt := by unfold State.errLog; first | rfl | (simp; done) | ((try dsimp only); (repeat' split) <;> simp)
@[simp] theorem State.errLog_gflt (s : State) (f : FnId) (kind code space addr tfn tlink glove : Nat) : (s.errLog f kind code space addr tfn tlink glove).flt = s.flt := by unfold State.errLog; first | rfl | (simp; done) | ((try dsimp only); (repeat' split) <;> simp)
@[simp] theorem State.errLog_gpwr (s : State) (f : FnId) (kind code space addr tfn tlink glove : Nat) : (s.errLog f kind code space addr tfn tlink glove).pwr = s.pwr := by unfold State.errLog; first | rfl | (simp; done) | ((try dsimp only); (repeat' split) <;> simp)
@[simp] theorem State.errLog_gusg (s : State) (f : FnId) (kind code space addr tfn tlink glove : Nat) : (s.errLog f kind code space addr tfn tlink glove).usg = s.usg := by unfold State.errLog; first | rfl | (simp; done) | ((try dsimp only); (repeat' split) <;> simp)
@[simp] theorem State.errLog_glove (s : State) (f : FnId) (kind code space addr tfn tlink glove : Nat) (j' : Nat) : (s.errLog f kind code space addr tfn tlink glove).glove j' = s.glove j' := by simp only [State.glove, State.errLog_gtrust]
@[simp] theorem State.errLog_slot (s : State) (f : FnId) (kind code space addr tfn tlink glove : Nat) (j' : Nat) : (s.errLog f kind code space addr tfn tlink glove).slot j' = s.slot j' := by simp only [State.slot, State.errLog_gtrust]
@[simp] theorem State.errLog_queue (s : State) (f : FnId) (kind code space addr tfn tlink glove : Nat) (j' : QId) : (s.errLog f kind code space addr tfn tlink glove).queue j' = s.queue j' := by simp only [State.queue, State.errLog_gwork]
@[simp] theorem State.errLog_finger (s : State) (f : FnId) (kind code space addr tfn tlink glove : Nat) (j' : FgId) : (s.errLog f kind code space addr tfn tlink glove).finger j' = s.finger j' := by simp only [State.finger, State.errLog_gwork]
@[simp] theorem State.errLog_gate (s : State) (f : FnId) (kind code space addr tfn tlink glove : Nat) (j' : Nat) : (s.errLog f kind code space addr tfn tlink glove).gate j' = s.gate j' := by simp only [State.gate, State.errLog_gpool]
@[simp] theorem State.errLog_blink (s : State) (f : FnId) (kind code space addr tfn tlink glove : Nat) (j' : Nat) : (s.errLog f kind code space addr tfn tlink glove).blink j' = s.blink j' := by simp only [State.blink, State.errLog_gbasket]
@[simp] theorem State.errLog_peer (s : State) (f : FnId) (kind code space addr tfn tlink glove : Nat) (j' : Nat) : (s.errLog f kind code space addr tfn tlink glove).peer j' = s.peer j' := by simp only [State.peer, State.errLog_gbasket]
@[simp] theorem State.errLog_source (s : State) (f : FnId) (kind code space addr tfn tlink glove : Nat) (j' : Nat) : (s.errLog f kind code space addr tfn tlink glove).source j' = s.source j' := by simp only [State.source, State.errLog_gevt]
@[simp] theorem State.errLog_dom (s : State) (f : FnId) (kind code space addr tfn tlink glove : Nat) (j' : Nat) : (s.errLog f kind code space addr tfn tlink glove).dom j' = s.dom j' := by simp only [State.dom, State.errLog_gpwr]
@[simp] theorem State.errLog_usage (s : State) (f : FnId) (kind code space addr tfn tlink glove : Nat) (j' : Nat) : (s.errLog f kind code space addr tfn tlink glove).usage j' = s.usage j' := by simp only [State.usage, State.errLog_gusg]
@[simp] theorem State.errLog_unitFlt (s : State) (f : FnId) (kind code space addr tfn tlink glove : Nat) (j' : Nat) : (s.errLog f kind code space addr tfn tlink glove).unitFlt j' = s.unitFlt j' := by simp only [State.unitFlt, State.errLog_gflt]

@[simp] theorem State.farSide_gpending (s : State) (f : FnId) (code space addr tfn tlink glove unit : Nat) : (s.farSide f code space addr tfn tlink glove unit).pending = s.pending := by unfold State.farSide; first | rfl | (simp; done) | ((try dsimp only); (repeat' split) <;> simp)
@[simp] theorem State.farSide_gout (s : State) (f : FnId) (code space addr tfn tlink glove unit : Nat) : (s.farSide f code space addr tfn tlink glove unit).out = s.out := by unfold State.farSide; first | rfl | (simp; done) | ((try dsimp only); (repeat' split) <;> simp)
@[simp] theorem State.farSide_gsys (s : State) (f : FnId) (code space addr tfn tlink glove unit : Nat) : (s.farSide f code space addr tfn tlink glove unit).sys = s.sys := by unfold State.farSide; first | rfl | (simp; done) | ((try dsimp only); (repeat' split) <;> simp)
@[simp] theorem State.farSide_gboot (s : State) (f : FnId) (code space addr tfn tlink glove unit : Nat) : (s.farSide f code space addr tfn tlink glove unit).boot = s.boot := by unfold State.farSide; first | rfl | (simp; done) | ((try dsimp only); (repeat' split) <;> simp)
@[simp] theorem State.farSide_gtrust (s : State) (f : FnId) (code space addr tfn tlink glove unit : Nat) : (s.farSide f code space addr tfn tlink glove unit).trust = s.trust := by unfold State.farSide; first | rfl | (simp; done) | ((try dsimp only); (repeat' split) <;> simp)
@[simp] theorem State.farSide_gwork (s : State) (f : FnId) (code space addr tfn tlink glove unit : Nat) : (s.farSide f code space addr tfn tlink glove unit).work = s.work := by unfold State.farSide; first | rfl | (simp; done) | ((try dsimp only); (repeat' split) <;> simp)
@[simp] theorem State.farSide_gpool (s : State) (f : FnId) (code space addr tfn tlink glove unit : Nat) : (s.farSide f code space addr tfn tlink glove unit).pool = s.pool := by unfold State.farSide; first | rfl | (simp; done) | ((try dsimp only); (repeat' split) <;> simp)
@[simp] theorem State.farSide_gbasket (s : State) (f : FnId) (code space addr tfn tlink glove unit : Nat) : (s.farSide f code space addr tfn tlink glove unit).basket = s.basket := by unfold State.farSide; first | rfl | (simp; done) | ((try dsimp only); (repeat' split) <;> simp)
@[simp] theorem State.farSide_gevt (s : State) (f : FnId) (code space addr tfn tlink glove unit : Nat) : (s.farSide f code space addr tfn tlink glove unit).evt = s.evt := by unfold State.farSide; first | rfl | (simp; done) | ((try dsimp only); (repeat' split) <;> simp)
@[simp] theorem State.farSide_gflt (s : State) (f : FnId) (code space addr tfn tlink glove unit : Nat) : (s.farSide f code space addr tfn tlink glove unit).flt = s.flt := by unfold State.farSide; first | rfl | (simp; done) | ((try dsimp only); (repeat' split) <;> simp)
@[simp] theorem State.farSide_gpwr (s : State) (f : FnId) (code space addr tfn tlink glove unit : Nat) : (s.farSide f code space addr tfn tlink glove unit).pwr = s.pwr := by unfold State.farSide; first | rfl | (simp; done) | ((try dsimp only); (repeat' split) <;> simp)
@[simp] theorem State.farSide_gusg (s : State) (f : FnId) (code space addr tfn tlink glove unit : Nat) : (s.farSide f code space addr tfn tlink glove unit).usg = s.usg := by unfold State.farSide; first | rfl | (simp; done) | ((try dsimp only); (repeat' split) <;> simp)
@[simp] theorem State.farSide_glove (s : State) (f : FnId) (code space addr tfn tlink glove unit : Nat) (j' : Nat) : (s.farSide f code space addr tfn tlink glove unit).glove j' = s.glove j' := by simp only [State.glove, State.farSide_gtrust]
@[simp] theorem State.farSide_slot (s : State) (f : FnId) (code space addr tfn tlink glove unit : Nat) (j' : Nat) : (s.farSide f code space addr tfn tlink glove unit).slot j' = s.slot j' := by simp only [State.slot, State.farSide_gtrust]
@[simp] theorem State.farSide_queue (s : State) (f : FnId) (code space addr tfn tlink glove unit : Nat) (j' : QId) : (s.farSide f code space addr tfn tlink glove unit).queue j' = s.queue j' := by simp only [State.queue, State.farSide_gwork]
@[simp] theorem State.farSide_finger (s : State) (f : FnId) (code space addr tfn tlink glove unit : Nat) (j' : FgId) : (s.farSide f code space addr tfn tlink glove unit).finger j' = s.finger j' := by simp only [State.finger, State.farSide_gwork]
@[simp] theorem State.farSide_gate (s : State) (f : FnId) (code space addr tfn tlink glove unit : Nat) (j' : Nat) : (s.farSide f code space addr tfn tlink glove unit).gate j' = s.gate j' := by simp only [State.gate, State.farSide_gpool]
@[simp] theorem State.farSide_blink (s : State) (f : FnId) (code space addr tfn tlink glove unit : Nat) (j' : Nat) : (s.farSide f code space addr tfn tlink glove unit).blink j' = s.blink j' := by simp only [State.blink, State.farSide_gbasket]
@[simp] theorem State.farSide_peer (s : State) (f : FnId) (code space addr tfn tlink glove unit : Nat) (j' : Nat) : (s.farSide f code space addr tfn tlink glove unit).peer j' = s.peer j' := by simp only [State.peer, State.farSide_gbasket]
@[simp] theorem State.farSide_source (s : State) (f : FnId) (code space addr tfn tlink glove unit : Nat) (j' : Nat) : (s.farSide f code space addr tfn tlink glove unit).source j' = s.source j' := by simp only [State.source, State.farSide_gevt]
@[simp] theorem State.farSide_dom (s : State) (f : FnId) (code space addr tfn tlink glove unit : Nat) (j' : Nat) : (s.farSide f code space addr tfn tlink glove unit).dom j' = s.dom j' := by simp only [State.dom, State.farSide_gpwr]
@[simp] theorem State.farSide_usage (s : State) (f : FnId) (code space addr tfn tlink glove unit : Nat) (j' : Nat) : (s.farSide f code space addr tfn tlink glove unit).usage j' = s.usage j' := by simp only [State.usage, State.farSide_gusg]
@[simp] theorem State.farSide_unitFlt (s : State) (f : FnId) (code space addr tfn tlink glove unit : Nat) (j' : Nat) : (s.farSide f code space addr tfn tlink glove unit).unitFlt j' = s.unitFlt j' := by simp only [State.unitFlt, State.farSide_gflt]

@[simp] theorem State.missPosted_gpending (s : State) (unit : Nat) : (s.missPosted unit).pending = s.pending := by simp [State.missPosted]
@[simp] theorem State.missPosted_gout (s : State) (unit : Nat) : (s.missPosted unit).out = s.out := by simp [State.missPosted]
@[simp] theorem State.missPosted_gsys (s : State) (unit : Nat) : (s.missPosted unit).sys = s.sys := by simp [State.missPosted]
@[simp] theorem State.missPosted_gboot (s : State) (unit : Nat) : (s.missPosted unit).boot = s.boot := by simp [State.missPosted]
@[simp] theorem State.missPosted_gtrust (s : State) (unit : Nat) : (s.missPosted unit).trust = s.trust := by simp [State.missPosted]
@[simp] theorem State.missPosted_ghost (s : State) (unit : Nat) : (s.missPosted unit).host = s.host := by simp [State.missPosted]
@[simp] theorem State.missPosted_gwork (s : State) (unit : Nat) : (s.missPosted unit).work = s.work := by simp [State.missPosted]
@[simp] theorem State.missPosted_gpool (s : State) (unit : Nat) : (s.missPosted unit).pool = s.pool := by simp [State.missPosted]
@[simp] theorem State.missPosted_gbasket (s : State) (unit : Nat) : (s.missPosted unit).basket = s.basket := by simp [State.missPosted]
@[simp] theorem State.missPosted_gevt (s : State) (unit : Nat) : (s.missPosted unit).evt = s.evt := by simp [State.missPosted]
@[simp] theorem State.missPosted_gflt (s : State) (unit : Nat) : (s.missPosted unit).flt = s.flt := by simp [State.missPosted]
@[simp] theorem State.missPosted_gpwr (s : State) (unit : Nat) : (s.missPosted unit).pwr = s.pwr := by simp [State.missPosted]
@[simp] theorem State.missPosted_gusg (s : State) (unit : Nat) : (s.missPosted unit).usg = s.usg := by simp [State.missPosted]
@[simp] theorem State.missPosted_fn (s : State) (unit : Nat) (j' : FnId) : (s.missPosted unit).fn j' = s.fn j' := by simp only [State.fn, State.missPosted_ghost]
@[simp] theorem State.missPosted_link (s : State) (unit : Nat) (j' : Nat) : (s.missPosted unit).link j' = s.link j' := by simp only [State.link, State.missPosted_ghost]
@[simp] theorem State.missPosted_cuff (s : State) (unit : Nat) (j' : Nat) : (s.missPosted unit).cuff j' = s.cuff j' := by simp only [State.cuff, State.missPosted_ghost]
@[simp] theorem State.missPosted_glove (s : State) (unit : Nat) (j' : Nat) : (s.missPosted unit).glove j' = s.glove j' := by simp only [State.glove, State.missPosted_gtrust]
@[simp] theorem State.missPosted_slot (s : State) (unit : Nat) (j' : Nat) : (s.missPosted unit).slot j' = s.slot j' := by simp only [State.slot, State.missPosted_gtrust]
@[simp] theorem State.missPosted_queue (s : State) (unit : Nat) (j' : QId) : (s.missPosted unit).queue j' = s.queue j' := by simp only [State.queue, State.missPosted_gwork]
@[simp] theorem State.missPosted_finger (s : State) (unit : Nat) (j' : FgId) : (s.missPosted unit).finger j' = s.finger j' := by simp only [State.finger, State.missPosted_gwork]
@[simp] theorem State.missPosted_gate (s : State) (unit : Nat) (j' : Nat) : (s.missPosted unit).gate j' = s.gate j' := by simp only [State.gate, State.missPosted_gpool]
@[simp] theorem State.missPosted_blink (s : State) (unit : Nat) (j' : Nat) : (s.missPosted unit).blink j' = s.blink j' := by simp only [State.blink, State.missPosted_gbasket]
@[simp] theorem State.missPosted_peer (s : State) (unit : Nat) (j' : Nat) : (s.missPosted unit).peer j' = s.peer j' := by simp only [State.peer, State.missPosted_gbasket]
@[simp] theorem State.missPosted_source (s : State) (unit : Nat) (j' : Nat) : (s.missPosted unit).source j' = s.source j' := by simp only [State.source, State.missPosted_gevt]
@[simp] theorem State.missPosted_dom (s : State) (unit : Nat) (j' : Nat) : (s.missPosted unit).dom j' = s.dom j' := by simp only [State.dom, State.missPosted_gpwr]
@[simp] theorem State.missPosted_usage (s : State) (unit : Nat) (j' : Nat) : (s.missPosted unit).usage j' = s.usage j' := by simp only [State.usage, State.missPosted_gusg]
@[simp] theorem State.missPosted_unitFlt (s : State) (unit : Nat) (j' : Nat) : (s.missPosted unit).unitFlt j' = s.unitFlt j' := by simp only [State.unitFlt, State.missPosted_gflt]

@[simp] theorem State.wake_gpending (s : State) (d wanter : Nat) : (s.wake d wanter).pending = s.pending := by unfold State.wake; first | rfl | (simp; done) | ((try dsimp only); (repeat' split) <;> simp)
@[simp] theorem State.wake_gout (s : State) (d wanter : Nat) : (s.wake d wanter).out = s.out := by unfold State.wake; first | rfl | (simp; done) | ((try dsimp only); (repeat' split) <;> simp)
@[simp] theorem State.wake_gsys (s : State) (d wanter : Nat) : (s.wake d wanter).sys = s.sys := by unfold State.wake; first | rfl | (simp; done) | ((try dsimp only); (repeat' split) <;> simp)
@[simp] theorem State.wake_gboot (s : State) (d wanter : Nat) : (s.wake d wanter).boot = s.boot := by unfold State.wake; first | rfl | (simp; done) | ((try dsimp only); (repeat' split) <;> simp)
@[simp] theorem State.wake_gtrust (s : State) (d wanter : Nat) : (s.wake d wanter).trust = s.trust := by unfold State.wake; first | rfl | (simp; done) | ((try dsimp only); (repeat' split) <;> simp)
@[simp] theorem State.wake_ghost (s : State) (d wanter : Nat) : (s.wake d wanter).host = s.host := by unfold State.wake; first | rfl | (simp; done) | ((try dsimp only); (repeat' split) <;> simp)
@[simp] theorem State.wake_gwork (s : State) (d wanter : Nat) : (s.wake d wanter).work = s.work := by unfold State.wake; first | rfl | (simp; done) | ((try dsimp only); (repeat' split) <;> simp)
@[simp] theorem State.wake_gpool (s : State) (d wanter : Nat) : (s.wake d wanter).pool = s.pool := by unfold State.wake; first | rfl | (simp; done) | ((try dsimp only); (repeat' split) <;> simp)
@[simp] theorem State.wake_gnet (s : State) (d wanter : Nat) : (s.wake d wanter).net = s.net := by unfold State.wake; first | rfl | (simp; done) | ((try dsimp only); (repeat' split) <;> simp)
@[simp] theorem State.wake_gbasket (s : State) (d wanter : Nat) : (s.wake d wanter).basket = s.basket := by unfold State.wake; first | rfl | (simp; done) | ((try dsimp only); (repeat' split) <;> simp)
@[simp] theorem State.wake_gflt (s : State) (d wanter : Nat) : (s.wake d wanter).flt = s.flt := by unfold State.wake; first | rfl | (simp; done) | ((try dsimp only); (repeat' split) <;> simp)
@[simp] theorem State.wake_gusg (s : State) (d wanter : Nat) : (s.wake d wanter).usg = s.usg := by unfold State.wake; first | rfl | (simp; done) | ((try dsimp only); (repeat' split) <;> simp)
@[simp] theorem State.wake_fn (s : State) (d wanter : Nat) (j' : FnId) : (s.wake d wanter).fn j' = s.fn j' := by simp only [State.fn, State.wake_ghost]
@[simp] theorem State.wake_link (s : State) (d wanter : Nat) (j' : Nat) : (s.wake d wanter).link j' = s.link j' := by simp only [State.link, State.wake_ghost]
@[simp] theorem State.wake_cuff (s : State) (d wanter : Nat) (j' : Nat) : (s.wake d wanter).cuff j' = s.cuff j' := by simp only [State.cuff, State.wake_ghost]
@[simp] theorem State.wake_glove (s : State) (d wanter : Nat) (j' : Nat) : (s.wake d wanter).glove j' = s.glove j' := by simp only [State.glove, State.wake_gtrust]
@[simp] theorem State.wake_slot (s : State) (d wanter : Nat) (j' : Nat) : (s.wake d wanter).slot j' = s.slot j' := by simp only [State.slot, State.wake_gtrust]
@[simp] theorem State.wake_queue (s : State) (d wanter : Nat) (j' : QId) : (s.wake d wanter).queue j' = s.queue j' := by simp only [State.queue, State.wake_gwork]
@[simp] theorem State.wake_finger (s : State) (d wanter : Nat) (j' : FgId) : (s.wake d wanter).finger j' = s.finger j' := by simp only [State.finger, State.wake_gwork]
@[simp] theorem State.wake_gate (s : State) (d wanter : Nat) (j' : Nat) : (s.wake d wanter).gate j' = s.gate j' := by simp only [State.gate, State.wake_gpool]
@[simp] theorem State.wake_quad (s : State) (d wanter : Nat) (j' : Nat) : (s.wake d wanter).quad j' = s.quad j' := by simp only [State.quad, State.wake_gnet]
@[simp] theorem State.wake_blink (s : State) (d wanter : Nat) (j' : Nat) : (s.wake d wanter).blink j' = s.blink j' := by simp only [State.blink, State.wake_gbasket]
@[simp] theorem State.wake_peer (s : State) (d wanter : Nat) (j' : Nat) : (s.wake d wanter).peer j' = s.peer j' := by simp only [State.peer, State.wake_gbasket]
@[simp] theorem State.wake_usage (s : State) (d wanter : Nat) (j' : Nat) : (s.wake d wanter).usage j' = s.usage j' := by simp only [State.usage, State.wake_gusg]
@[simp] theorem State.wake_unitFlt (s : State) (d wanter : Nat) (j' : Nat) : (s.wake d wanter).unitFlt j' = s.unitFlt j' := by simp only [State.unitFlt, State.wake_gflt]

@[simp] theorem State.castVotes_gpending (s old : State) : (s.castVotes old).pending = s.pending := foldl_same (fun s => s.pending) _ _ _ (fun s x => by first | rfl | (simp; done) | ((try dsimp only); (repeat' split) <;> simp))
@[simp] theorem State.castVotes_gout (s old : State) : (s.castVotes old).out = s.out := foldl_same (fun s => s.out) _ _ _ (fun s x => by first | rfl | (simp; done) | ((try dsimp only); (repeat' split) <;> simp))
@[simp] theorem State.castVotes_gsys (s old : State) : (s.castVotes old).sys = s.sys := foldl_same (fun s => s.sys) _ _ _ (fun s x => by first | rfl | (simp; done) | ((try dsimp only); (repeat' split) <;> simp))
@[simp] theorem State.castVotes_gboot (s old : State) : (s.castVotes old).boot = s.boot := foldl_same (fun s => s.boot) _ _ _ (fun s x => by first | rfl | (simp; done) | ((try dsimp only); (repeat' split) <;> simp))
@[simp] theorem State.castVotes_gtrust (s old : State) : (s.castVotes old).trust = s.trust := foldl_same (fun s => s.trust) _ _ _ (fun s x => by first | rfl | (simp; done) | ((try dsimp only); (repeat' split) <;> simp))
@[simp] theorem State.castVotes_ghost (s old : State) : (s.castVotes old).host = s.host := foldl_same (fun s => s.host) _ _ _ (fun s x => by first | rfl | (simp; done) | ((try dsimp only); (repeat' split) <;> simp))
@[simp] theorem State.castVotes_gwork (s old : State) : (s.castVotes old).work = s.work := foldl_same (fun s => s.work) _ _ _ (fun s x => by first | rfl | (simp; done) | ((try dsimp only); (repeat' split) <;> simp))
@[simp] theorem State.castVotes_gpool (s old : State) : (s.castVotes old).pool = s.pool := foldl_same (fun s => s.pool) _ _ _ (fun s x => by first | rfl | (simp; done) | ((try dsimp only); (repeat' split) <;> simp))
@[simp] theorem State.castVotes_gnet (s old : State) : (s.castVotes old).net = s.net := foldl_same (fun s => s.net) _ _ _ (fun s x => by first | rfl | (simp; done) | ((try dsimp only); (repeat' split) <;> simp))
@[simp] theorem State.castVotes_gbasket (s old : State) : (s.castVotes old).basket = s.basket := foldl_same (fun s => s.basket) _ _ _ (fun s x => by first | rfl | (simp; done) | ((try dsimp only); (repeat' split) <;> simp))
@[simp] theorem State.castVotes_gflt (s old : State) : (s.castVotes old).flt = s.flt := foldl_same (fun s => s.flt) _ _ _ (fun s x => by first | rfl | (simp; done) | ((try dsimp only); (repeat' split) <;> simp))
@[simp] theorem State.castVotes_gusg (s old : State) : (s.castVotes old).usg = s.usg := foldl_same (fun s => s.usg) _ _ _ (fun s x => by first | rfl | (simp; done) | ((try dsimp only); (repeat' split) <;> simp))
@[simp] theorem State.castVotes_fn (s old : State) (j' : FnId) : (s.castVotes old).fn j' = s.fn j' := by simp only [State.fn, State.castVotes_ghost]
@[simp] theorem State.castVotes_link (s old : State) (j' : Nat) : (s.castVotes old).link j' = s.link j' := by simp only [State.link, State.castVotes_ghost]
@[simp] theorem State.castVotes_cuff (s old : State) (j' : Nat) : (s.castVotes old).cuff j' = s.cuff j' := by simp only [State.cuff, State.castVotes_ghost]
@[simp] theorem State.castVotes_glove (s old : State) (j' : Nat) : (s.castVotes old).glove j' = s.glove j' := by simp only [State.glove, State.castVotes_gtrust]
@[simp] theorem State.castVotes_slot (s old : State) (j' : Nat) : (s.castVotes old).slot j' = s.slot j' := by simp only [State.slot, State.castVotes_gtrust]
@[simp] theorem State.castVotes_queue (s old : State) (j' : QId) : (s.castVotes old).queue j' = s.queue j' := by simp only [State.queue, State.castVotes_gwork]
@[simp] theorem State.castVotes_finger (s old : State) (j' : FgId) : (s.castVotes old).finger j' = s.finger j' := by simp only [State.finger, State.castVotes_gwork]
@[simp] theorem State.castVotes_gate (s old : State) (j' : Nat) : (s.castVotes old).gate j' = s.gate j' := by simp only [State.gate, State.castVotes_gpool]
@[simp] theorem State.castVotes_quad (s old : State) (j' : Nat) : (s.castVotes old).quad j' = s.quad j' := by simp only [State.quad, State.castVotes_gnet]
@[simp] theorem State.castVotes_blink (s old : State) (j' : Nat) : (s.castVotes old).blink j' = s.blink j' := by simp only [State.blink, State.castVotes_gbasket]
@[simp] theorem State.castVotes_peer (s old : State) (j' : Nat) : (s.castVotes old).peer j' = s.peer j' := by simp only [State.peer, State.castVotes_gbasket]
@[simp] theorem State.castVotes_usage (s old : State) (j' : Nat) : (s.castVotes old).usage j' = s.usage j' := by simp only [State.usage, State.castVotes_gusg]
@[simp] theorem State.castVotes_unitFlt (s old : State) (j' : Nat) : (s.castVotes old).unitFlt j' = s.unitFlt j' := by simp only [State.unitFlt, State.castVotes_gflt]

@[simp] theorem State.wakeCuff_gpending (s : State) (l : Nat) : (s.wakeCuff l).pending = s.pending := by unfold State.wakeCuff; first | rfl | (simp; done) | ((try dsimp only); (repeat' split) <;> simp)
@[simp] theorem State.wakeCuff_gout (s : State) (l : Nat) : (s.wakeCuff l).out = s.out := by unfold State.wakeCuff; first | rfl | (simp; done) | ((try dsimp only); (repeat' split) <;> simp)
@[simp] theorem State.wakeCuff_gsys (s : State) (l : Nat) : (s.wakeCuff l).sys = s.sys := by unfold State.wakeCuff; first | rfl | (simp; done) | ((try dsimp only); (repeat' split) <;> simp)
@[simp] theorem State.wakeCuff_gboot (s : State) (l : Nat) : (s.wakeCuff l).boot = s.boot := by unfold State.wakeCuff; first | rfl | (simp; done) | ((try dsimp only); (repeat' split) <;> simp)
@[simp] theorem State.wakeCuff_gtrust (s : State) (l : Nat) : (s.wakeCuff l).trust = s.trust := by unfold State.wakeCuff; first | rfl | (simp; done) | ((try dsimp only); (repeat' split) <;> simp)
@[simp] theorem State.wakeCuff_ghost (s : State) (l : Nat) : (s.wakeCuff l).host = s.host := by unfold State.wakeCuff; first | rfl | (simp; done) | ((try dsimp only); (repeat' split) <;> simp)
@[simp] theorem State.wakeCuff_gwork (s : State) (l : Nat) : (s.wakeCuff l).work = s.work := by unfold State.wakeCuff; first | rfl | (simp; done) | ((try dsimp only); (repeat' split) <;> simp)
@[simp] theorem State.wakeCuff_gpool (s : State) (l : Nat) : (s.wakeCuff l).pool = s.pool := by unfold State.wakeCuff; first | rfl | (simp; done) | ((try dsimp only); (repeat' split) <;> simp)
@[simp] theorem State.wakeCuff_gnet (s : State) (l : Nat) : (s.wakeCuff l).net = s.net := by unfold State.wakeCuff; first | rfl | (simp; done) | ((try dsimp only); (repeat' split) <;> simp)
@[simp] theorem State.wakeCuff_gbasket (s : State) (l : Nat) : (s.wakeCuff l).basket = s.basket := by unfold State.wakeCuff; first | rfl | (simp; done) | ((try dsimp only); (repeat' split) <;> simp)
@[simp] theorem State.wakeCuff_gflt (s : State) (l : Nat) : (s.wakeCuff l).flt = s.flt := by unfold State.wakeCuff; first | rfl | (simp; done) | ((try dsimp only); (repeat' split) <;> simp)
@[simp] theorem State.wakeCuff_gusg (s : State) (l : Nat) : (s.wakeCuff l).usg = s.usg := by unfold State.wakeCuff; first | rfl | (simp; done) | ((try dsimp only); (repeat' split) <;> simp)
@[simp] theorem State.wakeCuff_fn (s : State) (l : Nat) (j' : FnId) : (s.wakeCuff l).fn j' = s.fn j' := by simp only [State.fn, State.wakeCuff_ghost]
@[simp] theorem State.wakeCuff_link (s : State) (l : Nat) (j' : Nat) : (s.wakeCuff l).link j' = s.link j' := by simp only [State.link, State.wakeCuff_ghost]
@[simp] theorem State.wakeCuff_cuff (s : State) (l : Nat) (j' : Nat) : (s.wakeCuff l).cuff j' = s.cuff j' := by simp only [State.cuff, State.wakeCuff_ghost]
@[simp] theorem State.wakeCuff_glove (s : State) (l : Nat) (j' : Nat) : (s.wakeCuff l).glove j' = s.glove j' := by simp only [State.glove, State.wakeCuff_gtrust]
@[simp] theorem State.wakeCuff_slot (s : State) (l : Nat) (j' : Nat) : (s.wakeCuff l).slot j' = s.slot j' := by simp only [State.slot, State.wakeCuff_gtrust]
@[simp] theorem State.wakeCuff_queue (s : State) (l : Nat) (j' : QId) : (s.wakeCuff l).queue j' = s.queue j' := by simp only [State.queue, State.wakeCuff_gwork]
@[simp] theorem State.wakeCuff_finger (s : State) (l : Nat) (j' : FgId) : (s.wakeCuff l).finger j' = s.finger j' := by simp only [State.finger, State.wakeCuff_gwork]
@[simp] theorem State.wakeCuff_gate (s : State) (l : Nat) (j' : Nat) : (s.wakeCuff l).gate j' = s.gate j' := by simp only [State.gate, State.wakeCuff_gpool]
@[simp] theorem State.wakeCuff_quad (s : State) (l : Nat) (j' : Nat) : (s.wakeCuff l).quad j' = s.quad j' := by simp only [State.quad, State.wakeCuff_gnet]
@[simp] theorem State.wakeCuff_blink (s : State) (l : Nat) (j' : Nat) : (s.wakeCuff l).blink j' = s.blink j' := by simp only [State.blink, State.wakeCuff_gbasket]
@[simp] theorem State.wakeCuff_peer (s : State) (l : Nat) (j' : Nat) : (s.wakeCuff l).peer j' = s.peer j' := by simp only [State.peer, State.wakeCuff_gbasket]
@[simp] theorem State.wakeCuff_usage (s : State) (l : Nat) (j' : Nat) : (s.wakeCuff l).usage j' = s.usage j' := by simp only [State.usage, State.wakeCuff_gusg]
@[simp] theorem State.wakeCuff_unitFlt (s : State) (l : Nat) (j' : Nat) : (s.wakeCuff l).unitFlt j' = s.unitFlt j' := by simp only [State.unitFlt, State.wakeCuff_gflt]

@[simp] theorem State.sendHost_gpending (s : State) (ctx : ReqCtx) (p : Packet) (link fn addr : Nat) (counts : Option Nat) : (s.sendHost ctx p link fn addr counts).pending = s.pending := by unfold State.sendHost; first | rfl | (simp; done) | ((try dsimp only); (repeat' split) <;> simp)
@[simp] theorem State.sendHost_gout (s : State) (ctx : ReqCtx) (p : Packet) (link fn addr : Nat) (counts : Option Nat) : (s.sendHost ctx p link fn addr counts).out = s.out := by unfold State.sendHost; first | rfl | (simp; done) | ((try dsimp only); (repeat' split) <;> simp)
@[simp] theorem State.sendHost_gsys (s : State) (ctx : ReqCtx) (p : Packet) (link fn addr : Nat) (counts : Option Nat) : (s.sendHost ctx p link fn addr counts).sys = s.sys := by unfold State.sendHost; first | rfl | (simp; done) | ((try dsimp only); (repeat' split) <;> simp)
@[simp] theorem State.sendHost_gboot (s : State) (ctx : ReqCtx) (p : Packet) (link fn addr : Nat) (counts : Option Nat) : (s.sendHost ctx p link fn addr counts).boot = s.boot := by unfold State.sendHost; first | rfl | (simp; done) | ((try dsimp only); (repeat' split) <;> simp)
@[simp] theorem State.sendHost_gtrust (s : State) (ctx : ReqCtx) (p : Packet) (link fn addr : Nat) (counts : Option Nat) : (s.sendHost ctx p link fn addr counts).trust = s.trust := by unfold State.sendHost; first | rfl | (simp; done) | ((try dsimp only); (repeat' split) <;> simp)
@[simp] theorem State.sendHost_ghost (s : State) (ctx : ReqCtx) (p : Packet) (link fn addr : Nat) (counts : Option Nat) : (s.sendHost ctx p link fn addr counts).host = s.host := by unfold State.sendHost; first | rfl | (simp; done) | ((try dsimp only); (repeat' split) <;> simp)
@[simp] theorem State.sendHost_gwork (s : State) (ctx : ReqCtx) (p : Packet) (link fn addr : Nat) (counts : Option Nat) : (s.sendHost ctx p link fn addr counts).work = s.work := by unfold State.sendHost; first | rfl | (simp; done) | ((try dsimp only); (repeat' split) <;> simp)
@[simp] theorem State.sendHost_gpool (s : State) (ctx : ReqCtx) (p : Packet) (link fn addr : Nat) (counts : Option Nat) : (s.sendHost ctx p link fn addr counts).pool = s.pool := by unfold State.sendHost; first | rfl | (simp; done) | ((try dsimp only); (repeat' split) <;> simp)
@[simp] theorem State.sendHost_gbasket (s : State) (ctx : ReqCtx) (p : Packet) (link fn addr : Nat) (counts : Option Nat) : (s.sendHost ctx p link fn addr counts).basket = s.basket := by unfold State.sendHost; first | rfl | (simp; done) | ((try dsimp only); (repeat' split) <;> simp)
@[simp] theorem State.sendHost_gevt (s : State) (ctx : ReqCtx) (p : Packet) (link fn addr : Nat) (counts : Option Nat) : (s.sendHost ctx p link fn addr counts).evt = s.evt := by unfold State.sendHost; first | rfl | (simp; done) | ((try dsimp only); (repeat' split) <;> simp)
@[simp] theorem State.sendHost_gflt (s : State) (ctx : ReqCtx) (p : Packet) (link fn addr : Nat) (counts : Option Nat) : (s.sendHost ctx p link fn addr counts).flt = s.flt := by unfold State.sendHost; first | rfl | (simp; done) | ((try dsimp only); (repeat' split) <;> simp)
@[simp] theorem State.sendHost_gpwr (s : State) (ctx : ReqCtx) (p : Packet) (link fn addr : Nat) (counts : Option Nat) : (s.sendHost ctx p link fn addr counts).pwr = s.pwr := by unfold State.sendHost; first | rfl | (simp; done) | ((try dsimp only); (repeat' split) <;> simp)
@[simp] theorem State.sendHost_gusg (s : State) (ctx : ReqCtx) (p : Packet) (link fn addr : Nat) (counts : Option Nat) : (s.sendHost ctx p link fn addr counts).usg = s.usg := by unfold State.sendHost; first | rfl | (simp; done) | ((try dsimp only); (repeat' split) <;> simp)
@[simp] theorem State.sendHost_fn (s : State) (ctx : ReqCtx) (p : Packet) (link fn addr : Nat) (counts : Option Nat) (j' : FnId) : (s.sendHost ctx p link fn addr counts).fn j' = s.fn j' := by simp only [State.fn, State.sendHost_ghost]
@[simp] theorem State.sendHost_link (s : State) (ctx : ReqCtx) (p : Packet) (link fn addr : Nat) (counts : Option Nat) (j' : Nat) : (s.sendHost ctx p link fn addr counts).link j' = s.link j' := by simp only [State.link, State.sendHost_ghost]
@[simp] theorem State.sendHost_cuff (s : State) (ctx : ReqCtx) (p : Packet) (link fn addr : Nat) (counts : Option Nat) (j' : Nat) : (s.sendHost ctx p link fn addr counts).cuff j' = s.cuff j' := by simp only [State.cuff, State.sendHost_ghost]
@[simp] theorem State.sendHost_glove (s : State) (ctx : ReqCtx) (p : Packet) (link fn addr : Nat) (counts : Option Nat) (j' : Nat) : (s.sendHost ctx p link fn addr counts).glove j' = s.glove j' := by simp only [State.glove, State.sendHost_gtrust]
@[simp] theorem State.sendHost_slot (s : State) (ctx : ReqCtx) (p : Packet) (link fn addr : Nat) (counts : Option Nat) (j' : Nat) : (s.sendHost ctx p link fn addr counts).slot j' = s.slot j' := by simp only [State.slot, State.sendHost_gtrust]
@[simp] theorem State.sendHost_queue (s : State) (ctx : ReqCtx) (p : Packet) (link fn addr : Nat) (counts : Option Nat) (j' : QId) : (s.sendHost ctx p link fn addr counts).queue j' = s.queue j' := by simp only [State.queue, State.sendHost_gwork]
@[simp] theorem State.sendHost_finger (s : State) (ctx : ReqCtx) (p : Packet) (link fn addr : Nat) (counts : Option Nat) (j' : FgId) : (s.sendHost ctx p link fn addr counts).finger j' = s.finger j' := by simp only [State.finger, State.sendHost_gwork]
@[simp] theorem State.sendHost_gate (s : State) (ctx : ReqCtx) (p : Packet) (link fn addr : Nat) (counts : Option Nat) (j' : Nat) : (s.sendHost ctx p link fn addr counts).gate j' = s.gate j' := by simp only [State.gate, State.sendHost_gpool]
@[simp] theorem State.sendHost_blink (s : State) (ctx : ReqCtx) (p : Packet) (link fn addr : Nat) (counts : Option Nat) (j' : Nat) : (s.sendHost ctx p link fn addr counts).blink j' = s.blink j' := by simp only [State.blink, State.sendHost_gbasket]
@[simp] theorem State.sendHost_peer (s : State) (ctx : ReqCtx) (p : Packet) (link fn addr : Nat) (counts : Option Nat) (j' : Nat) : (s.sendHost ctx p link fn addr counts).peer j' = s.peer j' := by simp only [State.peer, State.sendHost_gbasket]
@[simp] theorem State.sendHost_source (s : State) (ctx : ReqCtx) (p : Packet) (link fn addr : Nat) (counts : Option Nat) (j' : Nat) : (s.sendHost ctx p link fn addr counts).source j' = s.source j' := by simp only [State.source, State.sendHost_gevt]
@[simp] theorem State.sendHost_dom (s : State) (ctx : ReqCtx) (p : Packet) (link fn addr : Nat) (counts : Option Nat) (j' : Nat) : (s.sendHost ctx p link fn addr counts).dom j' = s.dom j' := by simp only [State.dom, State.sendHost_gpwr]
@[simp] theorem State.sendHost_usage (s : State) (ctx : ReqCtx) (p : Packet) (link fn addr : Nat) (counts : Option Nat) (j' : Nat) : (s.sendHost ctx p link fn addr counts).usage j' = s.usage j' := by simp only [State.usage, State.sendHost_gusg]
@[simp] theorem State.sendHost_unitFlt (s : State) (ctx : ReqCtx) (p : Packet) (link fn addr : Nat) (counts : Option Nat) (j' : Nat) : (s.sendHost ctx p link fn addr counts).unitFlt j' = s.unitFlt j' := by simp only [State.unitFlt, State.sendHost_gflt]

@[simp] theorem State.sendDev_gpending (s : State) (link : Nat) (ctx : ReqCtx) (p : Packet) (counts : Option Nat) : (s.sendDev link ctx p counts).pending = s.pending := by unfold State.sendDev; first | rfl | (simp; done) | ((try dsimp only); (repeat' split) <;> simp)
@[simp] theorem State.sendDev_gout (s : State) (link : Nat) (ctx : ReqCtx) (p : Packet) (counts : Option Nat) : (s.sendDev link ctx p counts).out = s.out := by unfold State.sendDev; first | rfl | (simp; done) | ((try dsimp only); (repeat' split) <;> simp)
@[simp] theorem State.sendDev_gsys (s : State) (link : Nat) (ctx : ReqCtx) (p : Packet) (counts : Option Nat) : (s.sendDev link ctx p counts).sys = s.sys := by unfold State.sendDev; first | rfl | (simp; done) | ((try dsimp only); (repeat' split) <;> simp)
@[simp] theorem State.sendDev_gboot (s : State) (link : Nat) (ctx : ReqCtx) (p : Packet) (counts : Option Nat) : (s.sendDev link ctx p counts).boot = s.boot := by unfold State.sendDev; first | rfl | (simp; done) | ((try dsimp only); (repeat' split) <;> simp)
@[simp] theorem State.sendDev_gtrust (s : State) (link : Nat) (ctx : ReqCtx) (p : Packet) (counts : Option Nat) : (s.sendDev link ctx p counts).trust = s.trust := by unfold State.sendDev; first | rfl | (simp; done) | ((try dsimp only); (repeat' split) <;> simp)
@[simp] theorem State.sendDev_ghost (s : State) (link : Nat) (ctx : ReqCtx) (p : Packet) (counts : Option Nat) : (s.sendDev link ctx p counts).host = s.host := by unfold State.sendDev; first | rfl | (simp; done) | ((try dsimp only); (repeat' split) <;> simp)
@[simp] theorem State.sendDev_gwork (s : State) (link : Nat) (ctx : ReqCtx) (p : Packet) (counts : Option Nat) : (s.sendDev link ctx p counts).work = s.work := by unfold State.sendDev; first | rfl | (simp; done) | ((try dsimp only); (repeat' split) <;> simp)
@[simp] theorem State.sendDev_gpool (s : State) (link : Nat) (ctx : ReqCtx) (p : Packet) (counts : Option Nat) : (s.sendDev link ctx p counts).pool = s.pool := by unfold State.sendDev; first | rfl | (simp; done) | ((try dsimp only); (repeat' split) <;> simp)
@[simp] theorem State.sendDev_gbasket (s : State) (link : Nat) (ctx : ReqCtx) (p : Packet) (counts : Option Nat) : (s.sendDev link ctx p counts).basket = s.basket := by unfold State.sendDev; first | rfl | (simp; done) | ((try dsimp only); (repeat' split) <;> simp)
@[simp] theorem State.sendDev_gevt (s : State) (link : Nat) (ctx : ReqCtx) (p : Packet) (counts : Option Nat) : (s.sendDev link ctx p counts).evt = s.evt := by unfold State.sendDev; first | rfl | (simp; done) | ((try dsimp only); (repeat' split) <;> simp)
@[simp] theorem State.sendDev_gflt (s : State) (link : Nat) (ctx : ReqCtx) (p : Packet) (counts : Option Nat) : (s.sendDev link ctx p counts).flt = s.flt := by unfold State.sendDev; first | rfl | (simp; done) | ((try dsimp only); (repeat' split) <;> simp)
@[simp] theorem State.sendDev_gpwr (s : State) (link : Nat) (ctx : ReqCtx) (p : Packet) (counts : Option Nat) : (s.sendDev link ctx p counts).pwr = s.pwr := by unfold State.sendDev; first | rfl | (simp; done) | ((try dsimp only); (repeat' split) <;> simp)
@[simp] theorem State.sendDev_gusg (s : State) (link : Nat) (ctx : ReqCtx) (p : Packet) (counts : Option Nat) : (s.sendDev link ctx p counts).usg = s.usg := by unfold State.sendDev; first | rfl | (simp; done) | ((try dsimp only); (repeat' split) <;> simp)
@[simp] theorem State.sendDev_fn (s : State) (link : Nat) (ctx : ReqCtx) (p : Packet) (counts : Option Nat) (j' : FnId) : (s.sendDev link ctx p counts).fn j' = s.fn j' := by simp only [State.fn, State.sendDev_ghost]
@[simp] theorem State.sendDev_link (s : State) (link : Nat) (ctx : ReqCtx) (p : Packet) (counts : Option Nat) (j' : Nat) : (s.sendDev link ctx p counts).link j' = s.link j' := by simp only [State.link, State.sendDev_ghost]
@[simp] theorem State.sendDev_cuff (s : State) (link : Nat) (ctx : ReqCtx) (p : Packet) (counts : Option Nat) (j' : Nat) : (s.sendDev link ctx p counts).cuff j' = s.cuff j' := by simp only [State.cuff, State.sendDev_ghost]
@[simp] theorem State.sendDev_glove (s : State) (link : Nat) (ctx : ReqCtx) (p : Packet) (counts : Option Nat) (j' : Nat) : (s.sendDev link ctx p counts).glove j' = s.glove j' := by simp only [State.glove, State.sendDev_gtrust]
@[simp] theorem State.sendDev_slot (s : State) (link : Nat) (ctx : ReqCtx) (p : Packet) (counts : Option Nat) (j' : Nat) : (s.sendDev link ctx p counts).slot j' = s.slot j' := by simp only [State.slot, State.sendDev_gtrust]
@[simp] theorem State.sendDev_queue (s : State) (link : Nat) (ctx : ReqCtx) (p : Packet) (counts : Option Nat) (j' : QId) : (s.sendDev link ctx p counts).queue j' = s.queue j' := by simp only [State.queue, State.sendDev_gwork]
@[simp] theorem State.sendDev_finger (s : State) (link : Nat) (ctx : ReqCtx) (p : Packet) (counts : Option Nat) (j' : FgId) : (s.sendDev link ctx p counts).finger j' = s.finger j' := by simp only [State.finger, State.sendDev_gwork]
@[simp] theorem State.sendDev_gate (s : State) (link : Nat) (ctx : ReqCtx) (p : Packet) (counts : Option Nat) (j' : Nat) : (s.sendDev link ctx p counts).gate j' = s.gate j' := by simp only [State.gate, State.sendDev_gpool]
@[simp] theorem State.sendDev_blink (s : State) (link : Nat) (ctx : ReqCtx) (p : Packet) (counts : Option Nat) (j' : Nat) : (s.sendDev link ctx p counts).blink j' = s.blink j' := by simp only [State.blink, State.sendDev_gbasket]
@[simp] theorem State.sendDev_peer (s : State) (link : Nat) (ctx : ReqCtx) (p : Packet) (counts : Option Nat) (j' : Nat) : (s.sendDev link ctx p counts).peer j' = s.peer j' := by simp only [State.peer, State.sendDev_gbasket]
@[simp] theorem State.sendDev_source (s : State) (link : Nat) (ctx : ReqCtx) (p : Packet) (counts : Option Nat) (j' : Nat) : (s.sendDev link ctx p counts).source j' = s.source j' := by simp only [State.source, State.sendDev_gevt]
@[simp] theorem State.sendDev_dom (s : State) (link : Nat) (ctx : ReqCtx) (p : Packet) (counts : Option Nat) (j' : Nat) : (s.sendDev link ctx p counts).dom j' = s.dom j' := by simp only [State.dom, State.sendDev_gpwr]
@[simp] theorem State.sendDev_usage (s : State) (link : Nat) (ctx : ReqCtx) (p : Packet) (counts : Option Nat) (j' : Nat) : (s.sendDev link ctx p counts).usage j' = s.usage j' := by simp only [State.usage, State.sendDev_gusg]
@[simp] theorem State.sendDev_unitFlt (s : State) (link : Nat) (ctx : ReqCtx) (p : Packet) (counts : Option Nat) (j' : Nat) : (s.sendDev link ctx p counts).unitFlt j' = s.unitFlt j' := by simp only [State.unitFlt, State.sendDev_gflt]

@[simp] theorem State.dropTranslations_gpending (s : State) (g : Nat) : (s.dropTranslations g).pending = s.pending := rfl
@[simp] theorem State.dropTranslations_gout (s : State) (g : Nat) : (s.dropTranslations g).out = s.out := rfl
@[simp] theorem State.dropTranslations_gsys (s : State) (g : Nat) : (s.dropTranslations g).sys = s.sys := rfl
@[simp] theorem State.dropTranslations_gboot (s : State) (g : Nat) : (s.dropTranslations g).boot = s.boot := rfl
@[simp] theorem State.dropTranslations_gtrust (s : State) (g : Nat) : (s.dropTranslations g).trust = s.trust := rfl
@[simp] theorem State.dropTranslations_ghost (s : State) (g : Nat) : (s.dropTranslations g).host = s.host := rfl
@[simp] theorem State.dropTranslations_gwork (s : State) (g : Nat) : (s.dropTranslations g).work = s.work := rfl
@[simp] theorem State.dropTranslations_gbasket (s : State) (g : Nat) : (s.dropTranslations g).basket = s.basket := rfl
@[simp] theorem State.dropTranslations_gevt (s : State) (g : Nat) : (s.dropTranslations g).evt = s.evt := rfl
@[simp] theorem State.dropTranslations_gflt (s : State) (g : Nat) : (s.dropTranslations g).flt = s.flt := rfl
@[simp] theorem State.dropTranslations_gpwr (s : State) (g : Nat) : (s.dropTranslations g).pwr = s.pwr := rfl
@[simp] theorem State.dropTranslations_gusg (s : State) (g : Nat) : (s.dropTranslations g).usg = s.usg := rfl
@[simp] theorem State.dropTranslations_fn (s : State) (g : Nat) (j' : FnId) : (s.dropTranslations g).fn j' = s.fn j' := by simp only [State.fn, State.dropTranslations_ghost]
@[simp] theorem State.dropTranslations_link (s : State) (g : Nat) (j' : Nat) : (s.dropTranslations g).link j' = s.link j' := by simp only [State.link, State.dropTranslations_ghost]
@[simp] theorem State.dropTranslations_cuff (s : State) (g : Nat) (j' : Nat) : (s.dropTranslations g).cuff j' = s.cuff j' := by simp only [State.cuff, State.dropTranslations_ghost]
@[simp] theorem State.dropTranslations_glove (s : State) (g : Nat) (j' : Nat) : (s.dropTranslations g).glove j' = s.glove j' := by simp only [State.glove, State.dropTranslations_gtrust]
@[simp] theorem State.dropTranslations_slot (s : State) (g : Nat) (j' : Nat) : (s.dropTranslations g).slot j' = s.slot j' := by simp only [State.slot, State.dropTranslations_gtrust]
@[simp] theorem State.dropTranslations_queue (s : State) (g : Nat) (j' : QId) : (s.dropTranslations g).queue j' = s.queue j' := by simp only [State.queue, State.dropTranslations_gwork]
@[simp] theorem State.dropTranslations_finger (s : State) (g : Nat) (j' : FgId) : (s.dropTranslations g).finger j' = s.finger j' := by simp only [State.finger, State.dropTranslations_gwork]
@[simp] theorem State.dropTranslations_blink (s : State) (g : Nat) (j' : Nat) : (s.dropTranslations g).blink j' = s.blink j' := by simp only [State.blink, State.dropTranslations_gbasket]
@[simp] theorem State.dropTranslations_peer (s : State) (g : Nat) (j' : Nat) : (s.dropTranslations g).peer j' = s.peer j' := by simp only [State.peer, State.dropTranslations_gbasket]
@[simp] theorem State.dropTranslations_source (s : State) (g : Nat) (j' : Nat) : (s.dropTranslations g).source j' = s.source j' := by simp only [State.source, State.dropTranslations_gevt]
@[simp] theorem State.dropTranslations_dom (s : State) (g : Nat) (j' : Nat) : (s.dropTranslations g).dom j' = s.dom j' := by simp only [State.dom, State.dropTranslations_gpwr]
@[simp] theorem State.dropTranslations_usage (s : State) (g : Nat) (j' : Nat) : (s.dropTranslations g).usage j' = s.usage j' := by simp only [State.usage, State.dropTranslations_gusg]
@[simp] theorem State.dropTranslations_unitFlt (s : State) (g : Nat) (j' : Nat) : (s.dropTranslations g).unitFlt j' = s.unitFlt j' := by simp only [State.unitFlt, State.dropTranslations_gflt]

@[simp] theorem State.reportFault_gpending (s : State) (c : Check) (unit code line : Nat) : (s.reportFault c unit code line).pending = s.pending := by simp [State.reportFault]
@[simp] theorem State.reportFault_gout (s : State) (c : Check) (unit code line : Nat) : (s.reportFault c unit code line).out = s.out := by simp [State.reportFault]
@[simp] theorem State.reportFault_gsys (s : State) (c : Check) (unit code line : Nat) : (s.reportFault c unit code line).sys = s.sys := by simp [State.reportFault]
@[simp] theorem State.reportFault_gboot (s : State) (c : Check) (unit code line : Nat) : (s.reportFault c unit code line).boot = s.boot := by simp [State.reportFault]
@[simp] theorem State.reportFault_gtrust (s : State) (c : Check) (unit code line : Nat) : (s.reportFault c unit code line).trust = s.trust := by simp [State.reportFault]
@[simp] theorem State.reportFault_ghost (s : State) (c : Check) (unit code line : Nat) : (s.reportFault c unit code line).host = s.host := by simp [State.reportFault]
@[simp] theorem State.reportFault_gwork (s : State) (c : Check) (unit code line : Nat) : (s.reportFault c unit code line).work = s.work := by simp [State.reportFault]
@[simp] theorem State.reportFault_gpool (s : State) (c : Check) (unit code line : Nat) : (s.reportFault c unit code line).pool = s.pool := by simp [State.reportFault]
@[simp] theorem State.reportFault_gbasket (s : State) (c : Check) (unit code line : Nat) : (s.reportFault c unit code line).basket = s.basket := by simp [State.reportFault]
@[simp] theorem State.reportFault_gevt (s : State) (c : Check) (unit code line : Nat) : (s.reportFault c unit code line).evt = s.evt := by simp [State.reportFault]
@[simp] theorem State.reportFault_gflt (s : State) (c : Check) (unit code line : Nat) : (s.reportFault c unit code line).flt = s.flt := by simp [State.reportFault]
@[simp] theorem State.reportFault_gpwr (s : State) (c : Check) (unit code line : Nat) : (s.reportFault c unit code line).pwr = s.pwr := by simp [State.reportFault]
@[simp] theorem State.reportFault_gusg (s : State) (c : Check) (unit code line : Nat) : (s.reportFault c unit code line).usg = s.usg := by simp [State.reportFault]
@[simp] theorem State.reportFault_fn (s : State) (c : Check) (unit code line : Nat) (j' : FnId) : (s.reportFault c unit code line).fn j' = s.fn j' := by simp only [State.fn, State.reportFault_ghost]
@[simp] theorem State.reportFault_link (s : State) (c : Check) (unit code line : Nat) (j' : Nat) : (s.reportFault c unit code line).link j' = s.link j' := by simp only [State.link, State.reportFault_ghost]
@[simp] theorem State.reportFault_cuff (s : State) (c : Check) (unit code line : Nat) (j' : Nat) : (s.reportFault c unit code line).cuff j' = s.cuff j' := by simp only [State.cuff, State.reportFault_ghost]
@[simp] theorem State.reportFault_glove (s : State) (c : Check) (unit code line : Nat) (j' : Nat) : (s.reportFault c unit code line).glove j' = s.glove j' := by simp only [State.glove, State.reportFault_gtrust]
@[simp] theorem State.reportFault_slot (s : State) (c : Check) (unit code line : Nat) (j' : Nat) : (s.reportFault c unit code line).slot j' = s.slot j' := by simp only [State.slot, State.reportFault_gtrust]
@[simp] theorem State.reportFault_queue (s : State) (c : Check) (unit code line : Nat) (j' : QId) : (s.reportFault c unit code line).queue j' = s.queue j' := by simp only [State.queue, State.reportFault_gwork]
@[simp] theorem State.reportFault_finger (s : State) (c : Check) (unit code line : Nat) (j' : FgId) : (s.reportFault c unit code line).finger j' = s.finger j' := by simp only [State.finger, State.reportFault_gwork]
@[simp] theorem State.reportFault_gate (s : State) (c : Check) (unit code line : Nat) (j' : Nat) : (s.reportFault c unit code line).gate j' = s.gate j' := by simp only [State.gate, State.reportFault_gpool]
@[simp] theorem State.reportFault_blink (s : State) (c : Check) (unit code line : Nat) (j' : Nat) : (s.reportFault c unit code line).blink j' = s.blink j' := by simp only [State.blink, State.reportFault_gbasket]
@[simp] theorem State.reportFault_peer (s : State) (c : Check) (unit code line : Nat) (j' : Nat) : (s.reportFault c unit code line).peer j' = s.peer j' := by simp only [State.peer, State.reportFault_gbasket]
@[simp] theorem State.reportFault_source (s : State) (c : Check) (unit code line : Nat) (j' : Nat) : (s.reportFault c unit code line).source j' = s.source j' := by simp only [State.source, State.reportFault_gevt]
@[simp] theorem State.reportFault_dom (s : State) (c : Check) (unit code line : Nat) (j' : Nat) : (s.reportFault c unit code line).dom j' = s.dom j' := by simp only [State.dom, State.reportFault_gpwr]
@[simp] theorem State.reportFault_usage (s : State) (c : Check) (unit code line : Nat) (j' : Nat) : (s.reportFault c unit code line).usage j' = s.usage j' := by simp only [State.usage, State.reportFault_gusg]
@[simp] theorem State.reportFault_unitFlt (s : State) (c : Check) (unit code line : Nat) (j' : Nat) : (s.reportFault c unit code line).unitFlt j' = s.unitFlt j' := by simp only [State.unitFlt, State.reportFault_gflt]

@[simp] theorem State.dropHeldAcc_gpending (s : State) (owner : Nat) : (s.dropHeldAcc owner).pending = s.pending := by simp [State.dropHeldAcc]
@[simp] theorem State.dropHeldAcc_gout (s : State) (owner : Nat) : (s.dropHeldAcc owner).out = s.out := by simp [State.dropHeldAcc]
@[simp] theorem State.dropHeldAcc_gsys (s : State) (owner : Nat) : (s.dropHeldAcc owner).sys = s.sys := by simp [State.dropHeldAcc]
@[simp] theorem State.dropHeldAcc_gboot (s : State) (owner : Nat) : (s.dropHeldAcc owner).boot = s.boot := by simp [State.dropHeldAcc]
@[simp] theorem State.dropHeldAcc_gtrust (s : State) (owner : Nat) : (s.dropHeldAcc owner).trust = s.trust := by simp [State.dropHeldAcc]
@[simp] theorem State.dropHeldAcc_ghost (s : State) (owner : Nat) : (s.dropHeldAcc owner).host = s.host := by simp [State.dropHeldAcc]
@[simp] theorem State.dropHeldAcc_gwork (s : State) (owner : Nat) : (s.dropHeldAcc owner).work = s.work := by simp [State.dropHeldAcc]
@[simp] theorem State.dropHeldAcc_gpool (s : State) (owner : Nat) : (s.dropHeldAcc owner).pool = s.pool := by simp [State.dropHeldAcc]
@[simp] theorem State.dropHeldAcc_gbasket (s : State) (owner : Nat) : (s.dropHeldAcc owner).basket = s.basket := by simp [State.dropHeldAcc]
@[simp] theorem State.dropHeldAcc_gevt (s : State) (owner : Nat) : (s.dropHeldAcc owner).evt = s.evt := by simp [State.dropHeldAcc]
@[simp] theorem State.dropHeldAcc_gflt (s : State) (owner : Nat) : (s.dropHeldAcc owner).flt = s.flt := by simp [State.dropHeldAcc]
@[simp] theorem State.dropHeldAcc_gpwr (s : State) (owner : Nat) : (s.dropHeldAcc owner).pwr = s.pwr := by simp [State.dropHeldAcc]
@[simp] theorem State.dropHeldAcc_gusg (s : State) (owner : Nat) : (s.dropHeldAcc owner).usg = s.usg := by simp [State.dropHeldAcc]
@[simp] theorem State.dropHeldAcc_fn (s : State) (owner : Nat) (j' : FnId) : (s.dropHeldAcc owner).fn j' = s.fn j' := by simp only [State.fn, State.dropHeldAcc_ghost]
@[simp] theorem State.dropHeldAcc_link (s : State) (owner : Nat) (j' : Nat) : (s.dropHeldAcc owner).link j' = s.link j' := by simp only [State.link, State.dropHeldAcc_ghost]
@[simp] theorem State.dropHeldAcc_cuff (s : State) (owner : Nat) (j' : Nat) : (s.dropHeldAcc owner).cuff j' = s.cuff j' := by simp only [State.cuff, State.dropHeldAcc_ghost]
@[simp] theorem State.dropHeldAcc_glove (s : State) (owner : Nat) (j' : Nat) : (s.dropHeldAcc owner).glove j' = s.glove j' := by simp only [State.glove, State.dropHeldAcc_gtrust]
@[simp] theorem State.dropHeldAcc_slot (s : State) (owner : Nat) (j' : Nat) : (s.dropHeldAcc owner).slot j' = s.slot j' := by simp only [State.slot, State.dropHeldAcc_gtrust]
@[simp] theorem State.dropHeldAcc_queue (s : State) (owner : Nat) (j' : QId) : (s.dropHeldAcc owner).queue j' = s.queue j' := by simp only [State.queue, State.dropHeldAcc_gwork]
@[simp] theorem State.dropHeldAcc_finger (s : State) (owner : Nat) (j' : FgId) : (s.dropHeldAcc owner).finger j' = s.finger j' := by simp only [State.finger, State.dropHeldAcc_gwork]
@[simp] theorem State.dropHeldAcc_gate (s : State) (owner : Nat) (j' : Nat) : (s.dropHeldAcc owner).gate j' = s.gate j' := by simp only [State.gate, State.dropHeldAcc_gpool]
@[simp] theorem State.dropHeldAcc_blink (s : State) (owner : Nat) (j' : Nat) : (s.dropHeldAcc owner).blink j' = s.blink j' := by simp only [State.blink, State.dropHeldAcc_gbasket]
@[simp] theorem State.dropHeldAcc_peer (s : State) (owner : Nat) (j' : Nat) : (s.dropHeldAcc owner).peer j' = s.peer j' := by simp only [State.peer, State.dropHeldAcc_gbasket]
@[simp] theorem State.dropHeldAcc_source (s : State) (owner : Nat) (j' : Nat) : (s.dropHeldAcc owner).source j' = s.source j' := by simp only [State.source, State.dropHeldAcc_gevt]
@[simp] theorem State.dropHeldAcc_dom (s : State) (owner : Nat) (j' : Nat) : (s.dropHeldAcc owner).dom j' = s.dom j' := by simp only [State.dom, State.dropHeldAcc_gpwr]
@[simp] theorem State.dropHeldAcc_usage (s : State) (owner : Nat) (j' : Nat) : (s.dropHeldAcc owner).usage j' = s.usage j' := by simp only [State.usage, State.dropHeldAcc_gusg]
@[simp] theorem State.dropHeldAcc_unitFlt (s : State) (owner : Nat) (j' : Nat) : (s.dropHeldAcc owner).unitFlt j' = s.unitFlt j' := by simp only [State.unitFlt, State.dropHeldAcc_gflt]

@[simp] theorem State.qFault_gpending (s : State) (q : QId) (code : Nat) : (s.qFault q code).pending = s.pending := by unfold State.qFault; first | rfl | (simp; done) | ((try dsimp only); (repeat' split) <;> simp)
@[simp] theorem State.qFault_gout (s : State) (q : QId) (code : Nat) : (s.qFault q code).out = s.out := by unfold State.qFault; first | rfl | (simp; done) | ((try dsimp only); (repeat' split) <;> simp)
@[simp] theorem State.qFault_gsys (s : State) (q : QId) (code : Nat) : (s.qFault q code).sys = s.sys := by unfold State.qFault; first | rfl | (simp; done) | ((try dsimp only); (repeat' split) <;> simp)
@[simp] theorem State.qFault_gboot (s : State) (q : QId) (code : Nat) : (s.qFault q code).boot = s.boot := by unfold State.qFault; first | rfl | (simp; done) | ((try dsimp only); (repeat' split) <;> simp)
@[simp] theorem State.qFault_gtrust (s : State) (q : QId) (code : Nat) : (s.qFault q code).trust = s.trust := by unfold State.qFault; first | rfl | (simp; done) | ((try dsimp only); (repeat' split) <;> simp)
@[simp] theorem State.qFault_gpool (s : State) (q : QId) (code : Nat) : (s.qFault q code).pool = s.pool := by unfold State.qFault; first | rfl | (simp; done) | ((try dsimp only); (repeat' split) <;> simp)
@[simp] theorem State.qFault_gbasket (s : State) (q : QId) (code : Nat) : (s.qFault q code).basket = s.basket := by unfold State.qFault; first | rfl | (simp; done) | ((try dsimp only); (repeat' split) <;> simp)
@[simp] theorem State.qFault_gevt (s : State) (q : QId) (code : Nat) : (s.qFault q code).evt = s.evt := by unfold State.qFault; first | rfl | (simp; done) | ((try dsimp only); (repeat' split) <;> simp)
@[simp] theorem State.qFault_gflt (s : State) (q : QId) (code : Nat) : (s.qFault q code).flt = s.flt := by unfold State.qFault; first | rfl | (simp; done) | ((try dsimp only); (repeat' split) <;> simp)
@[simp] theorem State.qFault_gpwr (s : State) (q : QId) (code : Nat) : (s.qFault q code).pwr = s.pwr := by unfold State.qFault; first | rfl | (simp; done) | ((try dsimp only); (repeat' split) <;> simp)
@[simp] theorem State.qFault_gusg (s : State) (q : QId) (code : Nat) : (s.qFault q code).usg = s.usg := by unfold State.qFault; first | rfl | (simp; done) | ((try dsimp only); (repeat' split) <;> simp)
@[simp] theorem State.qFault_glove (s : State) (q : QId) (code : Nat) (j' : Nat) : (s.qFault q code).glove j' = s.glove j' := by simp only [State.glove, State.qFault_gtrust]
@[simp] theorem State.qFault_slot (s : State) (q : QId) (code : Nat) (j' : Nat) : (s.qFault q code).slot j' = s.slot j' := by simp only [State.slot, State.qFault_gtrust]
@[simp] theorem State.qFault_gate (s : State) (q : QId) (code : Nat) (j' : Nat) : (s.qFault q code).gate j' = s.gate j' := by simp only [State.gate, State.qFault_gpool]
@[simp] theorem State.qFault_blink (s : State) (q : QId) (code : Nat) (j' : Nat) : (s.qFault q code).blink j' = s.blink j' := by simp only [State.blink, State.qFault_gbasket]
@[simp] theorem State.qFault_peer (s : State) (q : QId) (code : Nat) (j' : Nat) : (s.qFault q code).peer j' = s.peer j' := by simp only [State.peer, State.qFault_gbasket]
@[simp] theorem State.qFault_source (s : State) (q : QId) (code : Nat) (j' : Nat) : (s.qFault q code).source j' = s.source j' := by simp only [State.source, State.qFault_gevt]
@[simp] theorem State.qFault_dom (s : State) (q : QId) (code : Nat) (j' : Nat) : (s.qFault q code).dom j' = s.dom j' := by simp only [State.dom, State.qFault_gpwr]
@[simp] theorem State.qFault_usage (s : State) (q : QId) (code : Nat) (j' : Nat) : (s.qFault q code).usage j' = s.usage j' := by simp only [State.usage, State.qFault_gusg]
@[simp] theorem State.qFault_unitFlt (s : State) (q : QId) (code : Nat) (j' : Nat) : (s.qFault q code).unitFlt j' = s.unitFlt j' := by simp only [State.unitFlt, State.qFault_gflt]

@[simp] theorem State.complete_gpending (s : State) (o : Origin) (code result : Nat) : (s.complete o code result).pending = s.pending := by unfold State.complete; first | rfl | (simp; done) | ((try dsimp only); (repeat' split) <;> simp)
@[simp] theorem State.complete_gout (s : State) (o : Origin) (code result : Nat) : (s.complete o code result).out = s.out := by unfold State.complete; first | rfl | (simp; done) | ((try dsimp only); (repeat' split) <;> simp)
@[simp] theorem State.complete_gsys (s : State) (o : Origin) (code result : Nat) : (s.complete o code result).sys = s.sys := by unfold State.complete; first | rfl | (simp; done) | ((try dsimp only); (repeat' split) <;> simp)
@[simp] theorem State.complete_gboot (s : State) (o : Origin) (code result : Nat) : (s.complete o code result).boot = s.boot := by unfold State.complete; first | rfl | (simp; done) | ((try dsimp only); (repeat' split) <;> simp)
@[simp] theorem State.complete_gtrust (s : State) (o : Origin) (code result : Nat) : (s.complete o code result).trust = s.trust := by unfold State.complete; first | rfl | (simp; done) | ((try dsimp only); (repeat' split) <;> simp)
@[simp] theorem State.complete_ghost (s : State) (o : Origin) (code result : Nat) : (s.complete o code result).host = s.host := by unfold State.complete; first | rfl | (simp; done) | ((try dsimp only); (repeat' split) <;> simp)
@[simp] theorem State.complete_gpool (s : State) (o : Origin) (code result : Nat) : (s.complete o code result).pool = s.pool := by unfold State.complete; first | rfl | (simp; done) | ((try dsimp only); (repeat' split) <;> simp)
@[simp] theorem State.complete_gnet (s : State) (o : Origin) (code result : Nat) : (s.complete o code result).net = s.net := by unfold State.complete; first | rfl | (simp; done) | ((try dsimp only); (repeat' split) <;> simp)
@[simp] theorem State.complete_gbasket (s : State) (o : Origin) (code result : Nat) : (s.complete o code result).basket = s.basket := by unfold State.complete; first | rfl | (simp; done) | ((try dsimp only); (repeat' split) <;> simp)
@[simp] theorem State.complete_gevt (s : State) (o : Origin) (code result : Nat) : (s.complete o code result).evt = s.evt := by unfold State.complete; first | rfl | (simp; done) | ((try dsimp only); (repeat' split) <;> simp)
@[simp] theorem State.complete_gflt (s : State) (o : Origin) (code result : Nat) : (s.complete o code result).flt = s.flt := by unfold State.complete; first | rfl | (simp; done) | ((try dsimp only); (repeat' split) <;> simp)
@[simp] theorem State.complete_gpwr (s : State) (o : Origin) (code result : Nat) : (s.complete o code result).pwr = s.pwr := by unfold State.complete; first | rfl | (simp; done) | ((try dsimp only); (repeat' split) <;> simp)
@[simp] theorem State.complete_gusg (s : State) (o : Origin) (code result : Nat) : (s.complete o code result).usg = s.usg := by unfold State.complete; first | rfl | (simp; done) | ((try dsimp only); (repeat' split) <;> simp)
@[simp] theorem State.complete_fn (s : State) (o : Origin) (code result : Nat) (j' : FnId) : (s.complete o code result).fn j' = s.fn j' := by simp only [State.fn, State.complete_ghost]
@[simp] theorem State.complete_link (s : State) (o : Origin) (code result : Nat) (j' : Nat) : (s.complete o code result).link j' = s.link j' := by simp only [State.link, State.complete_ghost]
@[simp] theorem State.complete_cuff (s : State) (o : Origin) (code result : Nat) (j' : Nat) : (s.complete o code result).cuff j' = s.cuff j' := by simp only [State.cuff, State.complete_ghost]
@[simp] theorem State.complete_glove (s : State) (o : Origin) (code result : Nat) (j' : Nat) : (s.complete o code result).glove j' = s.glove j' := by simp only [State.glove, State.complete_gtrust]
@[simp] theorem State.complete_slot (s : State) (o : Origin) (code result : Nat) (j' : Nat) : (s.complete o code result).slot j' = s.slot j' := by simp only [State.slot, State.complete_gtrust]
@[simp] theorem State.complete_gate (s : State) (o : Origin) (code result : Nat) (j' : Nat) : (s.complete o code result).gate j' = s.gate j' := by simp only [State.gate, State.complete_gpool]
@[simp] theorem State.complete_quad (s : State) (o : Origin) (code result : Nat) (j' : Nat) : (s.complete o code result).quad j' = s.quad j' := by simp only [State.quad, State.complete_gnet]
@[simp] theorem State.complete_blink (s : State) (o : Origin) (code result : Nat) (j' : Nat) : (s.complete o code result).blink j' = s.blink j' := by simp only [State.blink, State.complete_gbasket]
@[simp] theorem State.complete_peer (s : State) (o : Origin) (code result : Nat) (j' : Nat) : (s.complete o code result).peer j' = s.peer j' := by simp only [State.peer, State.complete_gbasket]
@[simp] theorem State.complete_source (s : State) (o : Origin) (code result : Nat) (j' : Nat) : (s.complete o code result).source j' = s.source j' := by simp only [State.source, State.complete_gevt]
@[simp] theorem State.complete_dom (s : State) (o : Origin) (code result : Nat) (j' : Nat) : (s.complete o code result).dom j' = s.dom j' := by simp only [State.dom, State.complete_gpwr]
@[simp] theorem State.complete_usage (s : State) (o : Origin) (code result : Nat) (j' : Nat) : (s.complete o code result).usage j' = s.usage j' := by simp only [State.usage, State.complete_gusg]
@[simp] theorem State.complete_unitFlt (s : State) (o : Origin) (code result : Nat) (j' : Nat) : (s.complete o code result).unitFlt j' = s.unitFlt j' := by simp only [State.unitFlt, State.complete_gflt]

@[simp] theorem State.refuse_gpending (s : State) (o : Origin) (code : Nat) : (s.refuse o code).pending = s.pending := by unfold State.refuse; first | rfl | (simp; done) | ((try dsimp only); (repeat' split) <;> simp)
@[simp] theorem State.refuse_gout (s : State) (o : Origin) (code : Nat) : (s.refuse o code).out = s.out := by unfold State.refuse; first | rfl | (simp; done) | ((try dsimp only); (repeat' split) <;> simp)
@[simp] theorem State.refuse_gsys (s : State) (o : Origin) (code : Nat) : (s.refuse o code).sys = s.sys := by unfold State.refuse; first | rfl | (simp; done) | ((try dsimp only); (repeat' split) <;> simp)
@[simp] theorem State.refuse_gboot (s : State) (o : Origin) (code : Nat) : (s.refuse o code).boot = s.boot := by unfold State.refuse; first | rfl | (simp; done) | ((try dsimp only); (repeat' split) <;> simp)
@[simp] theorem State.refuse_gtrust (s : State) (o : Origin) (code : Nat) : (s.refuse o code).trust = s.trust := by unfold State.refuse; first | rfl | (simp; done) | ((try dsimp only); (repeat' split) <;> simp)
@[simp] theorem State.refuse_gpool (s : State) (o : Origin) (code : Nat) : (s.refuse o code).pool = s.pool := by unfold State.refuse; first | rfl | (simp; done) | ((try dsimp only); (repeat' split) <;> simp)
@[simp] theorem State.refuse_gnet (s : State) (o : Origin) (code : Nat) : (s.refuse o code).net = s.net := by unfold State.refuse; first | rfl | (simp; done) | ((try dsimp only); (repeat' split) <;> simp)
@[simp] theorem State.refuse_gbasket (s : State) (o : Origin) (code : Nat) : (s.refuse o code).basket = s.basket := by unfold State.refuse; first | rfl | (simp; done) | ((try dsimp only); (repeat' split) <;> simp)
@[simp] theorem State.refuse_gevt (s : State) (o : Origin) (code : Nat) : (s.refuse o code).evt = s.evt := by unfold State.refuse; first | rfl | (simp; done) | ((try dsimp only); (repeat' split) <;> simp)
@[simp] theorem State.refuse_gflt (s : State) (o : Origin) (code : Nat) : (s.refuse o code).flt = s.flt := by unfold State.refuse; first | rfl | (simp; done) | ((try dsimp only); (repeat' split) <;> simp)
@[simp] theorem State.refuse_gpwr (s : State) (o : Origin) (code : Nat) : (s.refuse o code).pwr = s.pwr := by unfold State.refuse; first | rfl | (simp; done) | ((try dsimp only); (repeat' split) <;> simp)
@[simp] theorem State.refuse_gusg (s : State) (o : Origin) (code : Nat) : (s.refuse o code).usg = s.usg := by unfold State.refuse; first | rfl | (simp; done) | ((try dsimp only); (repeat' split) <;> simp)
@[simp] theorem State.refuse_glove (s : State) (o : Origin) (code : Nat) (j' : Nat) : (s.refuse o code).glove j' = s.glove j' := by simp only [State.glove, State.refuse_gtrust]
@[simp] theorem State.refuse_slot (s : State) (o : Origin) (code : Nat) (j' : Nat) : (s.refuse o code).slot j' = s.slot j' := by simp only [State.slot, State.refuse_gtrust]
@[simp] theorem State.refuse_gate (s : State) (o : Origin) (code : Nat) (j' : Nat) : (s.refuse o code).gate j' = s.gate j' := by simp only [State.gate, State.refuse_gpool]
@[simp] theorem State.refuse_quad (s : State) (o : Origin) (code : Nat) (j' : Nat) : (s.refuse o code).quad j' = s.quad j' := by simp only [State.quad, State.refuse_gnet]
@[simp] theorem State.refuse_blink (s : State) (o : Origin) (code : Nat) (j' : Nat) : (s.refuse o code).blink j' = s.blink j' := by simp only [State.blink, State.refuse_gbasket]
@[simp] theorem State.refuse_peer (s : State) (o : Origin) (code : Nat) (j' : Nat) : (s.refuse o code).peer j' = s.peer j' := by simp only [State.peer, State.refuse_gbasket]
@[simp] theorem State.refuse_source (s : State) (o : Origin) (code : Nat) (j' : Nat) : (s.refuse o code).source j' = s.source j' := by simp only [State.source, State.refuse_gevt]
@[simp] theorem State.refuse_dom (s : State) (o : Origin) (code : Nat) (j' : Nat) : (s.refuse o code).dom j' = s.dom j' := by simp only [State.dom, State.refuse_gpwr]
@[simp] theorem State.refuse_usage (s : State) (o : Origin) (code : Nat) (j' : Nat) : (s.refuse o code).usage j' = s.usage j' := by simp only [State.usage, State.refuse_gusg]
@[simp] theorem State.refuse_unitFlt (s : State) (o : Origin) (code : Nat) (j' : Nat) : (s.refuse o code).unitFlt j' = s.unitFlt j' := by simp only [State.unitFlt, State.refuse_gflt]

@[simp] theorem State.undispatch_gpending (s : State) (i : Instr) : (s.undispatch i).pending = s.pending := rfl
@[simp] theorem State.undispatch_gout (s : State) (i : Instr) : (s.undispatch i).out = s.out := rfl
@[simp] theorem State.undispatch_gsys (s : State) (i : Instr) : (s.undispatch i).sys = s.sys := rfl
@[simp] theorem State.undispatch_gboot (s : State) (i : Instr) : (s.undispatch i).boot = s.boot := rfl
@[simp] theorem State.undispatch_gtrust (s : State) (i : Instr) : (s.undispatch i).trust = s.trust := rfl
@[simp] theorem State.undispatch_ghost (s : State) (i : Instr) : (s.undispatch i).host = s.host := rfl
@[simp] theorem State.undispatch_gpool (s : State) (i : Instr) : (s.undispatch i).pool = s.pool := rfl
@[simp] theorem State.undispatch_gnet (s : State) (i : Instr) : (s.undispatch i).net = s.net := rfl
@[simp] theorem State.undispatch_gbasket (s : State) (i : Instr) : (s.undispatch i).basket = s.basket := rfl
@[simp] theorem State.undispatch_gevt (s : State) (i : Instr) : (s.undispatch i).evt = s.evt := rfl
@[simp] theorem State.undispatch_gflt (s : State) (i : Instr) : (s.undispatch i).flt = s.flt := rfl
@[simp] theorem State.undispatch_gpwr (s : State) (i : Instr) : (s.undispatch i).pwr = s.pwr := rfl
@[simp] theorem State.undispatch_gusg (s : State) (i : Instr) : (s.undispatch i).usg = s.usg := rfl
@[simp] theorem State.undispatch_fn (s : State) (i : Instr) (j' : FnId) : (s.undispatch i).fn j' = s.fn j' := by simp only [State.fn, State.undispatch_ghost]
@[simp] theorem State.undispatch_link (s : State) (i : Instr) (j' : Nat) : (s.undispatch i).link j' = s.link j' := by simp only [State.link, State.undispatch_ghost]
@[simp] theorem State.undispatch_cuff (s : State) (i : Instr) (j' : Nat) : (s.undispatch i).cuff j' = s.cuff j' := by simp only [State.cuff, State.undispatch_ghost]
@[simp] theorem State.undispatch_glove (s : State) (i : Instr) (j' : Nat) : (s.undispatch i).glove j' = s.glove j' := by simp only [State.glove, State.undispatch_gtrust]
@[simp] theorem State.undispatch_slot (s : State) (i : Instr) (j' : Nat) : (s.undispatch i).slot j' = s.slot j' := by simp only [State.slot, State.undispatch_gtrust]
@[simp] theorem State.undispatch_gate (s : State) (i : Instr) (j' : Nat) : (s.undispatch i).gate j' = s.gate j' := by simp only [State.gate, State.undispatch_gpool]
@[simp] theorem State.undispatch_quad (s : State) (i : Instr) (j' : Nat) : (s.undispatch i).quad j' = s.quad j' := by simp only [State.quad, State.undispatch_gnet]
@[simp] theorem State.undispatch_blink (s : State) (i : Instr) (j' : Nat) : (s.undispatch i).blink j' = s.blink j' := by simp only [State.blink, State.undispatch_gbasket]
@[simp] theorem State.undispatch_peer (s : State) (i : Instr) (j' : Nat) : (s.undispatch i).peer j' = s.peer j' := by simp only [State.peer, State.undispatch_gbasket]
@[simp] theorem State.undispatch_source (s : State) (i : Instr) (j' : Nat) : (s.undispatch i).source j' = s.source j' := by simp only [State.source, State.undispatch_gevt]
@[simp] theorem State.undispatch_dom (s : State) (i : Instr) (j' : Nat) : (s.undispatch i).dom j' = s.dom j' := by simp only [State.dom, State.undispatch_gpwr]
@[simp] theorem State.undispatch_usage (s : State) (i : Instr) (j' : Nat) : (s.undispatch i).usage j' = s.usage j' := by simp only [State.usage, State.undispatch_gusg]
@[simp] theorem State.undispatch_unitFlt (s : State) (i : Instr) (j' : Nat) : (s.undispatch i).unitFlt j' = s.unitFlt j' := by simp only [State.unitFlt, State.undispatch_gflt]

@[simp] theorem State.startOperator_gpending (s : State) (f : FnId) : (s.startOperator f).pending = s.pending := foldl_same (fun s => s.pending) _ _ _ (fun s x => by first | rfl | (simp; done) | ((try dsimp only); (repeat' split) <;> simp))
@[simp] theorem State.startOperator_gout (s : State) (f : FnId) : (s.startOperator f).out = s.out := foldl_same (fun s => s.out) _ _ _ (fun s x => by first | rfl | (simp; done) | ((try dsimp only); (repeat' split) <;> simp))
@[simp] theorem State.startOperator_gsys (s : State) (f : FnId) : (s.startOperator f).sys = s.sys := foldl_same (fun s => s.sys) _ _ _ (fun s x => by first | rfl | (simp; done) | ((try dsimp only); (repeat' split) <;> simp))
@[simp] theorem State.startOperator_gboot (s : State) (f : FnId) : (s.startOperator f).boot = s.boot := foldl_same (fun s => s.boot) _ _ _ (fun s x => by first | rfl | (simp; done) | ((try dsimp only); (repeat' split) <;> simp))
@[simp] theorem State.startOperator_gtrust (s : State) (f : FnId) : (s.startOperator f).trust = s.trust := foldl_same (fun s => s.trust) _ _ _ (fun s x => by first | rfl | (simp; done) | ((try dsimp only); (repeat' split) <;> simp))
@[simp] theorem State.startOperator_ghost (s : State) (f : FnId) : (s.startOperator f).host = s.host := foldl_same (fun s => s.host) _ _ _ (fun s x => by first | rfl | (simp; done) | ((try dsimp only); (repeat' split) <;> simp))
@[simp] theorem State.startOperator_gpool (s : State) (f : FnId) : (s.startOperator f).pool = s.pool := foldl_same (fun s => s.pool) _ _ _ (fun s x => by first | rfl | (simp; done) | ((try dsimp only); (repeat' split) <;> simp))
@[simp] theorem State.startOperator_gnet (s : State) (f : FnId) : (s.startOperator f).net = s.net := foldl_same (fun s => s.net) _ _ _ (fun s x => by first | rfl | (simp; done) | ((try dsimp only); (repeat' split) <;> simp))
@[simp] theorem State.startOperator_gbasket (s : State) (f : FnId) : (s.startOperator f).basket = s.basket := foldl_same (fun s => s.basket) _ _ _ (fun s x => by first | rfl | (simp; done) | ((try dsimp only); (repeat' split) <;> simp))
@[simp] theorem State.startOperator_gevt (s : State) (f : FnId) : (s.startOperator f).evt = s.evt := foldl_same (fun s => s.evt) _ _ _ (fun s x => by first | rfl | (simp; done) | ((try dsimp only); (repeat' split) <;> simp))
@[simp] theorem State.startOperator_gflt (s : State) (f : FnId) : (s.startOperator f).flt = s.flt := foldl_same (fun s => s.flt) _ _ _ (fun s x => by first | rfl | (simp; done) | ((try dsimp only); (repeat' split) <;> simp))
@[simp] theorem State.startOperator_gpwr (s : State) (f : FnId) : (s.startOperator f).pwr = s.pwr := foldl_same (fun s => s.pwr) _ _ _ (fun s x => by first | rfl | (simp; done) | ((try dsimp only); (repeat' split) <;> simp))
@[simp] theorem State.startOperator_gusg (s : State) (f : FnId) : (s.startOperator f).usg = s.usg := foldl_same (fun s => s.usg) _ _ _ (fun s x => by first | rfl | (simp; done) | ((try dsimp only); (repeat' split) <;> simp))
@[simp] theorem State.startOperator_fn (s : State) (f : FnId) (j' : FnId) : (s.startOperator f).fn j' = s.fn j' := by simp only [State.fn, State.startOperator_ghost]
@[simp] theorem State.startOperator_link (s : State) (f : FnId) (j' : Nat) : (s.startOperator f).link j' = s.link j' := by simp only [State.link, State.startOperator_ghost]
@[simp] theorem State.startOperator_cuff (s : State) (f : FnId) (j' : Nat) : (s.startOperator f).cuff j' = s.cuff j' := by simp only [State.cuff, State.startOperator_ghost]
@[simp] theorem State.startOperator_glove (s : State) (f : FnId) (j' : Nat) : (s.startOperator f).glove j' = s.glove j' := by simp only [State.glove, State.startOperator_gtrust]
@[simp] theorem State.startOperator_slot (s : State) (f : FnId) (j' : Nat) : (s.startOperator f).slot j' = s.slot j' := by simp only [State.slot, State.startOperator_gtrust]
@[simp] theorem State.startOperator_gate (s : State) (f : FnId) (j' : Nat) : (s.startOperator f).gate j' = s.gate j' := by simp only [State.gate, State.startOperator_gpool]
@[simp] theorem State.startOperator_quad (s : State) (f : FnId) (j' : Nat) : (s.startOperator f).quad j' = s.quad j' := by simp only [State.quad, State.startOperator_gnet]
@[simp] theorem State.startOperator_blink (s : State) (f : FnId) (j' : Nat) : (s.startOperator f).blink j' = s.blink j' := by simp only [State.blink, State.startOperator_gbasket]
@[simp] theorem State.startOperator_peer (s : State) (f : FnId) (j' : Nat) : (s.startOperator f).peer j' = s.peer j' := by simp only [State.peer, State.startOperator_gbasket]
@[simp] theorem State.startOperator_source (s : State) (f : FnId) (j' : Nat) : (s.startOperator f).source j' = s.source j' := by simp only [State.source, State.startOperator_gevt]
@[simp] theorem State.startOperator_dom (s : State) (f : FnId) (j' : Nat) : (s.startOperator f).dom j' = s.dom j' := by simp only [State.dom, State.startOperator_gpwr]
@[simp] theorem State.startOperator_usage (s : State) (f : FnId) (j' : Nat) : (s.startOperator f).usage j' = s.usage j' := by simp only [State.usage, State.startOperator_gusg]
@[simp] theorem State.startOperator_unitFlt (s : State) (f : FnId) (j' : Nat) : (s.startOperator f).unitFlt j' = s.unitFlt j' := by simp only [State.unitFlt, State.startOperator_gflt]

@[simp] theorem State.startTenancy_gpending (s : State) (g : Nat) : (s.startTenancy g).pending = s.pending := rfl
@[simp] theorem State.startTenancy_gout (s : State) (g : Nat) : (s.startTenancy g).out = s.out := rfl
@[simp] theorem State.startTenancy_gsys (s : State) (g : Nat) : (s.startTenancy g).sys = s.sys := rfl
@[simp] theorem State.startTenancy_gboot (s : State) (g : Nat) : (s.startTenancy g).boot = s.boot := rfl
@[simp] theorem State.startTenancy_gtrust (s : State) (g : Nat) : (s.startTenancy g).trust = s.trust := rfl
@[simp] theorem State.startTenancy_ghost (s : State) (g : Nat) : (s.startTenancy g).host = s.host := rfl
@[simp] theorem State.startTenancy_gwork (s : State) (g : Nat) : (s.startTenancy g).work = s.work := rfl
@[simp] theorem State.startTenancy_gpool (s : State) (g : Nat) : (s.startTenancy g).pool = s.pool := rfl
@[simp] theorem State.startTenancy_gnet (s : State) (g : Nat) : (s.startTenancy g).net = s.net := rfl
@[simp] theorem State.startTenancy_gbasket (s : State) (g : Nat) : (s.startTenancy g).basket = s.basket := rfl
@[simp] theorem State.startTenancy_gevt (s : State) (g : Nat) : (s.startTenancy g).evt = s.evt := rfl
@[simp] theorem State.startTenancy_gflt (s : State) (g : Nat) : (s.startTenancy g).flt = s.flt := rfl
@[simp] theorem State.startTenancy_gpwr (s : State) (g : Nat) : (s.startTenancy g).pwr = s.pwr := rfl
@[simp] theorem State.startTenancy_fn (s : State) (g : Nat) (j' : FnId) : (s.startTenancy g).fn j' = s.fn j' := by simp only [State.fn, State.startTenancy_ghost]
@[simp] theorem State.startTenancy_link (s : State) (g : Nat) (j' : Nat) : (s.startTenancy g).link j' = s.link j' := by simp only [State.link, State.startTenancy_ghost]
@[simp] theorem State.startTenancy_cuff (s : State) (g : Nat) (j' : Nat) : (s.startTenancy g).cuff j' = s.cuff j' := by simp only [State.cuff, State.startTenancy_ghost]
@[simp] theorem State.startTenancy_glove (s : State) (g : Nat) (j' : Nat) : (s.startTenancy g).glove j' = s.glove j' := by simp only [State.glove, State.startTenancy_gtrust]
@[simp] theorem State.startTenancy_slot (s : State) (g : Nat) (j' : Nat) : (s.startTenancy g).slot j' = s.slot j' := by simp only [State.slot, State.startTenancy_gtrust]
@[simp] theorem State.startTenancy_queue (s : State) (g : Nat) (j' : QId) : (s.startTenancy g).queue j' = s.queue j' := by simp only [State.queue, State.startTenancy_gwork]
@[simp] theorem State.startTenancy_finger (s : State) (g : Nat) (j' : FgId) : (s.startTenancy g).finger j' = s.finger j' := by simp only [State.finger, State.startTenancy_gwork]
@[simp] theorem State.startTenancy_gate (s : State) (g : Nat) (j' : Nat) : (s.startTenancy g).gate j' = s.gate j' := by simp only [State.gate, State.startTenancy_gpool]
@[simp] theorem State.startTenancy_quad (s : State) (g : Nat) (j' : Nat) : (s.startTenancy g).quad j' = s.quad j' := by simp only [State.quad, State.startTenancy_gnet]
@[simp] theorem State.startTenancy_blink (s : State) (g : Nat) (j' : Nat) : (s.startTenancy g).blink j' = s.blink j' := by simp only [State.blink, State.startTenancy_gbasket]
@[simp] theorem State.startTenancy_peer (s : State) (g : Nat) (j' : Nat) : (s.startTenancy g).peer j' = s.peer j' := by simp only [State.peer, State.startTenancy_gbasket]
@[simp] theorem State.startTenancy_source (s : State) (g : Nat) (j' : Nat) : (s.startTenancy g).source j' = s.source j' := by simp only [State.source, State.startTenancy_gevt]
@[simp] theorem State.startTenancy_dom (s : State) (g : Nat) (j' : Nat) : (s.startTenancy g).dom j' = s.dom j' := by simp only [State.dom, State.startTenancy_gpwr]
@[simp] theorem State.startTenancy_unitFlt (s : State) (g : Nat) (j' : Nat) : (s.startTenancy g).unitFlt j' = s.unitFlt j' := by simp only [State.unitFlt, State.startTenancy_gflt]

@[simp] theorem State.countEntry_gpending (s : State) (q : QId) (e : Entry) (code result : Nat) : (s.countEntry q e code result).pending = s.pending := by unfold State.countEntry; first | rfl | (simp; done) | ((try dsimp only); (repeat' split) <;> simp)
@[simp] theorem State.countEntry_gout (s : State) (q : QId) (e : Entry) (code result : Nat) : (s.countEntry q e code result).out = s.out := by unfold State.countEntry; first | rfl | (simp; done) | ((try dsimp only); (repeat' split) <;> simp)
@[simp] theorem State.countEntry_gsys (s : State) (q : QId) (e : Entry) (code result : Nat) : (s.countEntry q e code result).sys = s.sys := by unfold State.countEntry; first | rfl | (simp; done) | ((try dsimp only); (repeat' split) <;> simp)
@[simp] theorem State.countEntry_gboot (s : State) (q : QId) (e : Entry) (code result : Nat) : (s.countEntry q e code result).boot = s.boot := by unfold State.countEntry; first | rfl | (simp; done) | ((try dsimp only); (repeat' split) <;> simp)
@[simp] theorem State.countEntry_gtrust (s : State) (q : QId) (e : Entry) (code result : Nat) : (s.countEntry q e code result).trust = s.trust := by unfold State.countEntry; first | rfl | (simp; done) | ((try dsimp only); (repeat' split) <;> simp)
@[simp] theorem State.countEntry_ghost (s : State) (q : QId) (e : Entry) (code result : Nat) : (s.countEntry q e code result).host = s.host := by unfold State.countEntry; first | rfl | (simp; done) | ((try dsimp only); (repeat' split) <;> simp)
@[simp] theorem State.countEntry_gwork (s : State) (q : QId) (e : Entry) (code result : Nat) : (s.countEntry q e code result).work = s.work := by unfold State.countEntry; first | rfl | (simp; done) | ((try dsimp only); (repeat' split) <;> simp)
@[simp] theorem State.countEntry_gpool (s : State) (q : QId) (e : Entry) (code result : Nat) : (s.countEntry q e code result).pool = s.pool := by unfold State.countEntry; first | rfl | (simp; done) | ((try dsimp only); (repeat' split) <;> simp)
@[simp] theorem State.countEntry_gnet (s : State) (q : QId) (e : Entry) (code result : Nat) : (s.countEntry q e code result).net = s.net := by unfold State.countEntry; first | rfl | (simp; done) | ((try dsimp only); (repeat' split) <;> simp)
@[simp] theorem State.countEntry_gbasket (s : State) (q : QId) (e : Entry) (code result : Nat) : (s.countEntry q e code result).basket = s.basket := by unfold State.countEntry; first | rfl | (simp; done) | ((try dsimp only); (repeat' split) <;> simp)
@[simp] theorem State.countEntry_gevt (s : State) (q : QId) (e : Entry) (code result : Nat) : (s.countEntry q e code result).evt = s.evt := by unfold State.countEntry; first | rfl | (simp; done) | ((try dsimp only); (repeat' split) <;> simp)
@[simp] theorem State.countEntry_gflt (s : State) (q : QId) (e : Entry) (code result : Nat) : (s.countEntry q e code result).flt = s.flt := by unfold State.countEntry; first | rfl | (simp; done) | ((try dsimp only); (repeat' split) <;> simp)
@[simp] theorem State.countEntry_gpwr (s : State) (q : QId) (e : Entry) (code result : Nat) : (s.countEntry q e code result).pwr = s.pwr := by unfold State.countEntry; first | rfl | (simp; done) | ((try dsimp only); (repeat' split) <;> simp)
@[simp] theorem State.countEntry_fn (s : State) (q : QId) (e : Entry) (code result : Nat) (j' : FnId) : (s.countEntry q e code result).fn j' = s.fn j' := by simp only [State.fn, State.countEntry_ghost]
@[simp] theorem State.countEntry_link (s : State) (q : QId) (e : Entry) (code result : Nat) (j' : Nat) : (s.countEntry q e code result).link j' = s.link j' := by simp only [State.link, State.countEntry_ghost]
@[simp] theorem State.countEntry_cuff (s : State) (q : QId) (e : Entry) (code result : Nat) (j' : Nat) : (s.countEntry q e code result).cuff j' = s.cuff j' := by simp only [State.cuff, State.countEntry_ghost]
@[simp] theorem State.countEntry_glove (s : State) (q : QId) (e : Entry) (code result : Nat) (j' : Nat) : (s.countEntry q e code result).glove j' = s.glove j' := by simp only [State.glove, State.countEntry_gtrust]
@[simp] theorem State.countEntry_slot (s : State) (q : QId) (e : Entry) (code result : Nat) (j' : Nat) : (s.countEntry q e code result).slot j' = s.slot j' := by simp only [State.slot, State.countEntry_gtrust]
@[simp] theorem State.countEntry_queue (s : State) (q : QId) (e : Entry) (code result : Nat) (j' : QId) : (s.countEntry q e code result).queue j' = s.queue j' := by simp only [State.queue, State.countEntry_gwork]
@[simp] theorem State.countEntry_finger (s : State) (q : QId) (e : Entry) (code result : Nat) (j' : FgId) : (s.countEntry q e code result).finger j' = s.finger j' := by simp only [State.finger, State.countEntry_gwork]
@[simp] theorem State.countEntry_gate (s : State) (q : QId) (e : Entry) (code result : Nat) (j' : Nat) : (s.countEntry q e code result).gate j' = s.gate j' := by simp only [State.gate, State.countEntry_gpool]
@[simp] theorem State.countEntry_quad (s : State) (q : QId) (e : Entry) (code result : Nat) (j' : Nat) : (s.countEntry q e code result).quad j' = s.quad j' := by simp only [State.quad, State.countEntry_gnet]
@[simp] theorem State.countEntry_blink (s : State) (q : QId) (e : Entry) (code result : Nat) (j' : Nat) : (s.countEntry q e code result).blink j' = s.blink j' := by simp only [State.blink, State.countEntry_gbasket]
@[simp] theorem State.countEntry_peer (s : State) (q : QId) (e : Entry) (code result : Nat) (j' : Nat) : (s.countEntry q e code result).peer j' = s.peer j' := by simp only [State.peer, State.countEntry_gbasket]
@[simp] theorem State.countEntry_source (s : State) (q : QId) (e : Entry) (code result : Nat) (j' : Nat) : (s.countEntry q e code result).source j' = s.source j' := by simp only [State.source, State.countEntry_gevt]
@[simp] theorem State.countEntry_dom (s : State) (q : QId) (e : Entry) (code result : Nat) (j' : Nat) : (s.countEntry q e code result).dom j' = s.dom j' := by simp only [State.dom, State.countEntry_gpwr]
@[simp] theorem State.countEntry_unitFlt (s : State) (q : QId) (e : Entry) (code result : Nat) (j' : Nat) : (s.countEntry q e code result).unitFlt j' = s.unitFlt j' := by simp only [State.unitFlt, State.countEntry_gflt]

end Sys2Proof.Machine
end

