-- ==== Sys2Proof/Laws/FramesWork.lean ====
section
/-! SUPPORT. The frames of the operations of Fingers, tables, epoch changes and the Crown: the parts of the state that each leaves. -/

namespace Sys2Proof.Machine

@[simp] theorem State.placeFinger_gpending (s : State) (f : FgId) : (s.placeFinger f).pending = s.pending := by simp [State.placeFinger]
@[simp] theorem State.placeFinger_gout (s : State) (f : FgId) : (s.placeFinger f).out = s.out := by simp [State.placeFinger]
@[simp] theorem State.placeFinger_gsys (s : State) (f : FgId) : (s.placeFinger f).sys = s.sys := by simp [State.placeFinger]
@[simp] theorem State.placeFinger_gboot (s : State) (f : FgId) : (s.placeFinger f).boot = s.boot := by simp [State.placeFinger]
@[simp] theorem State.placeFinger_gtrust (s : State) (f : FgId) : (s.placeFinger f).trust = s.trust := by simp [State.placeFinger]
@[simp] theorem State.placeFinger_ghost (s : State) (f : FgId) : (s.placeFinger f).host = s.host := by simp [State.placeFinger]
@[simp] theorem State.placeFinger_gpool (s : State) (f : FgId) : (s.placeFinger f).pool = s.pool := by simp [State.placeFinger]
@[simp] theorem State.placeFinger_gnet (s : State) (f : FgId) : (s.placeFinger f).net = s.net := by simp [State.placeFinger]
@[simp] theorem State.placeFinger_gbasket (s : State) (f : FgId) : (s.placeFinger f).basket = s.basket := by simp [State.placeFinger]
@[simp] theorem State.placeFinger_gevt (s : State) (f : FgId) : (s.placeFinger f).evt = s.evt := by simp [State.placeFinger]
@[simp] theorem State.placeFinger_gflt (s : State) (f : FgId) : (s.placeFinger f).flt = s.flt := by simp [State.placeFinger]
@[simp] theorem State.placeFinger_gpwr (s : State) (f : FgId) : (s.placeFinger f).pwr = s.pwr := by simp [State.placeFinger]
@[simp] theorem State.placeFinger_gusg (s : State) (f : FgId) : (s.placeFinger f).usg = s.usg := by simp [State.placeFinger]
@[simp] theorem State.placeFinger_fn (s : State) (f : FgId) (j' : FnId) : (s.placeFinger f).fn j' = s.fn j' := by simp only [State.fn, State.placeFinger_ghost]
@[simp] theorem State.placeFinger_link (s : State) (f : FgId) (j' : Nat) : (s.placeFinger f).link j' = s.link j' := by simp only [State.link, State.placeFinger_ghost]
@[simp] theorem State.placeFinger_cuff (s : State) (f : FgId) (j' : Nat) : (s.placeFinger f).cuff j' = s.cuff j' := by simp only [State.cuff, State.placeFinger_ghost]
@[simp] theorem State.placeFinger_glove (s : State) (f : FgId) (j' : Nat) : (s.placeFinger f).glove j' = s.glove j' := by simp only [State.glove, State.placeFinger_gtrust]
@[simp] theorem State.placeFinger_slot (s : State) (f : FgId) (j' : Nat) : (s.placeFinger f).slot j' = s.slot j' := by simp only [State.slot, State.placeFinger_gtrust]
@[simp] theorem State.placeFinger_gate (s : State) (f : FgId) (j' : Nat) : (s.placeFinger f).gate j' = s.gate j' := by simp only [State.gate, State.placeFinger_gpool]
@[simp] theorem State.placeFinger_quad (s : State) (f : FgId) (j' : Nat) : (s.placeFinger f).quad j' = s.quad j' := by simp only [State.quad, State.placeFinger_gnet]
@[simp] theorem State.placeFinger_blink (s : State) (f : FgId) (j' : Nat) : (s.placeFinger f).blink j' = s.blink j' := by simp only [State.blink, State.placeFinger_gbasket]
@[simp] theorem State.placeFinger_peer (s : State) (f : FgId) (j' : Nat) : (s.placeFinger f).peer j' = s.peer j' := by simp only [State.peer, State.placeFinger_gbasket]
@[simp] theorem State.placeFinger_source (s : State) (f : FgId) (j' : Nat) : (s.placeFinger f).source j' = s.source j' := by simp only [State.source, State.placeFinger_gevt]
@[simp] theorem State.placeFinger_dom (s : State) (f : FgId) (j' : Nat) : (s.placeFinger f).dom j' = s.dom j' := by simp only [State.dom, State.placeFinger_gpwr]
@[simp] theorem State.placeFinger_usage (s : State) (f : FgId) (j' : Nat) : (s.placeFinger f).usage j' = s.usage j' := by simp only [State.usage, State.placeFinger_gusg]
@[simp] theorem State.placeFinger_unitFlt (s : State) (f : FgId) (j' : Nat) : (s.placeFinger f).unitFlt j' = s.unitFlt j' := by simp only [State.unitFlt, State.placeFinger_gflt]

@[simp] theorem State.setFingers_gpending (s : State) (f : FnId) (old new : Nat) : (s.setFingers f old new).pending = s.pending := by unfold State.setFingers; exact (foldl_same (fun s => s.pending) _ _ _ (fun s x => by split <;> simp)).trans (foldl_same (fun s => s.pending) _ _ _ (fun s x => by split <;> simp))
@[simp] theorem State.setFingers_gout (s : State) (f : FnId) (old new : Nat) : (s.setFingers f old new).out = s.out := by unfold State.setFingers; exact (foldl_same (fun s => s.out) _ _ _ (fun s x => by split <;> simp)).trans (foldl_same (fun s => s.out) _ _ _ (fun s x => by split <;> simp))
@[simp] theorem State.setFingers_gsys (s : State) (f : FnId) (old new : Nat) : (s.setFingers f old new).sys = s.sys := by unfold State.setFingers; exact (foldl_same (fun s => s.sys) _ _ _ (fun s x => by split <;> simp)).trans (foldl_same (fun s => s.sys) _ _ _ (fun s x => by split <;> simp))
@[simp] theorem State.setFingers_gboot (s : State) (f : FnId) (old new : Nat) : (s.setFingers f old new).boot = s.boot := by unfold State.setFingers; exact (foldl_same (fun s => s.boot) _ _ _ (fun s x => by split <;> simp)).trans (foldl_same (fun s => s.boot) _ _ _ (fun s x => by split <;> simp))
@[simp] theorem State.setFingers_gtrust (s : State) (f : FnId) (old new : Nat) : (s.setFingers f old new).trust = s.trust := by unfold State.setFingers; exact (foldl_same (fun s => s.trust) _ _ _ (fun s x => by split <;> simp)).trans (foldl_same (fun s => s.trust) _ _ _ (fun s x => by split <;> simp))
@[simp] theorem State.setFingers_ghost (s : State) (f : FnId) (old new : Nat) : (s.setFingers f old new).host = s.host := by unfold State.setFingers; exact (foldl_same (fun s => s.host) _ _ _ (fun s x => by split <;> simp)).trans (foldl_same (fun s => s.host) _ _ _ (fun s x => by split <;> simp))
@[simp] theorem State.setFingers_gpool (s : State) (f : FnId) (old new : Nat) : (s.setFingers f old new).pool = s.pool := by unfold State.setFingers; exact (foldl_same (fun s => s.pool) _ _ _ (fun s x => by split <;> simp)).trans (foldl_same (fun s => s.pool) _ _ _ (fun s x => by split <;> simp))
@[simp] theorem State.setFingers_gnet (s : State) (f : FnId) (old new : Nat) : (s.setFingers f old new).net = s.net := by unfold State.setFingers; exact (foldl_same (fun s => s.net) _ _ _ (fun s x => by split <;> simp)).trans (foldl_same (fun s => s.net) _ _ _ (fun s x => by split <;> simp))
@[simp] theorem State.setFingers_gbasket (s : State) (f : FnId) (old new : Nat) : (s.setFingers f old new).basket = s.basket := by unfold State.setFingers; exact (foldl_same (fun s => s.basket) _ _ _ (fun s x => by split <;> simp)).trans (foldl_same (fun s => s.basket) _ _ _ (fun s x => by split <;> simp))
@[simp] theorem State.setFingers_gevt (s : State) (f : FnId) (old new : Nat) : (s.setFingers f old new).evt = s.evt := by unfold State.setFingers; exact (foldl_same (fun s => s.evt) _ _ _ (fun s x => by split <;> simp)).trans (foldl_same (fun s => s.evt) _ _ _ (fun s x => by split <;> simp))
@[simp] theorem State.setFingers_gflt (s : State) (f : FnId) (old new : Nat) : (s.setFingers f old new).flt = s.flt := by unfold State.setFingers; exact (foldl_same (fun s => s.flt) _ _ _ (fun s x => by split <;> simp)).trans (foldl_same (fun s => s.flt) _ _ _ (fun s x => by split <;> simp))
@[simp] theorem State.setFingers_gpwr (s : State) (f : FnId) (old new : Nat) : (s.setFingers f old new).pwr = s.pwr := by unfold State.setFingers; exact (foldl_same (fun s => s.pwr) _ _ _ (fun s x => by split <;> simp)).trans (foldl_same (fun s => s.pwr) _ _ _ (fun s x => by split <;> simp))
@[simp] theorem State.setFingers_gusg (s : State) (f : FnId) (old new : Nat) : (s.setFingers f old new).usg = s.usg := by unfold State.setFingers; exact (foldl_same (fun s => s.usg) _ _ _ (fun s x => by split <;> simp)).trans (foldl_same (fun s => s.usg) _ _ _ (fun s x => by split <;> simp))
@[simp] theorem State.setFingers_fn (s : State) (f : FnId) (old new : Nat) (j' : FnId) : (s.setFingers f old new).fn j' = s.fn j' := by simp only [State.fn, State.setFingers_ghost]
@[simp] theorem State.setFingers_link (s : State) (f : FnId) (old new : Nat) (j' : Nat) : (s.setFingers f old new).link j' = s.link j' := by simp only [State.link, State.setFingers_ghost]
@[simp] theorem State.setFingers_cuff (s : State) (f : FnId) (old new : Nat) (j' : Nat) : (s.setFingers f old new).cuff j' = s.cuff j' := by simp only [State.cuff, State.setFingers_ghost]
@[simp] theorem State.setFingers_glove (s : State) (f : FnId) (old new : Nat) (j' : Nat) : (s.setFingers f old new).glove j' = s.glove j' := by simp only [State.glove, State.setFingers_gtrust]
@[simp] theorem State.setFingers_slot (s : State) (f : FnId) (old new : Nat) (j' : Nat) : (s.setFingers f old new).slot j' = s.slot j' := by simp only [State.slot, State.setFingers_gtrust]
@[simp] theorem State.setFingers_gate (s : State) (f : FnId) (old new : Nat) (j' : Nat) : (s.setFingers f old new).gate j' = s.gate j' := by simp only [State.gate, State.setFingers_gpool]
@[simp] theorem State.setFingers_quad (s : State) (f : FnId) (old new : Nat) (j' : Nat) : (s.setFingers f old new).quad j' = s.quad j' := by simp only [State.quad, State.setFingers_gnet]
@[simp] theorem State.setFingers_blink (s : State) (f : FnId) (old new : Nat) (j' : Nat) : (s.setFingers f old new).blink j' = s.blink j' := by simp only [State.blink, State.setFingers_gbasket]
@[simp] theorem State.setFingers_peer (s : State) (f : FnId) (old new : Nat) (j' : Nat) : (s.setFingers f old new).peer j' = s.peer j' := by simp only [State.peer, State.setFingers_gbasket]
@[simp] theorem State.setFingers_source (s : State) (f : FnId) (old new : Nat) (j' : Nat) : (s.setFingers f old new).source j' = s.source j' := by simp only [State.source, State.setFingers_gevt]
@[simp] theorem State.setFingers_dom (s : State) (f : FnId) (old new : Nat) (j' : Nat) : (s.setFingers f old new).dom j' = s.dom j' := by simp only [State.dom, State.setFingers_gpwr]
@[simp] theorem State.setFingers_usage (s : State) (f : FnId) (old new : Nat) (j' : Nat) : (s.setFingers f old new).usage j' = s.usage j' := by simp only [State.usage, State.setFingers_gusg]
@[simp] theorem State.setFingers_unitFlt (s : State) (f : FnId) (old new : Nat) (j' : Nat) : (s.setFingers f old new).unitFlt j' = s.unitFlt j' := by simp only [State.unitFlt, State.setFingers_gflt]

@[simp] theorem State.beginChange_gpending (s : State) (g : Nat) (o : Origin) (c : Change) : (s.beginChange g o c).pending = s.pending := by simp [State.beginChange]
@[simp] theorem State.beginChange_gout (s : State) (g : Nat) (o : Origin) (c : Change) : (s.beginChange g o c).out = s.out := by simp [State.beginChange]
@[simp] theorem State.beginChange_gsys (s : State) (g : Nat) (o : Origin) (c : Change) : (s.beginChange g o c).sys = s.sys := by simp [State.beginChange]
@[simp] theorem State.beginChange_gboot (s : State) (g : Nat) (o : Origin) (c : Change) : (s.beginChange g o c).boot = s.boot := by simp [State.beginChange]
@[simp] theorem State.beginChange_ghost (s : State) (g : Nat) (o : Origin) (c : Change) : (s.beginChange g o c).host = s.host := by simp [State.beginChange]
@[simp] theorem State.beginChange_gwork (s : State) (g : Nat) (o : Origin) (c : Change) : (s.beginChange g o c).work = s.work := by simp [State.beginChange]
@[simp] theorem State.beginChange_gpool (s : State) (g : Nat) (o : Origin) (c : Change) : (s.beginChange g o c).pool = s.pool := by simp [State.beginChange]
@[simp] theorem State.beginChange_gnet (s : State) (g : Nat) (o : Origin) (c : Change) : (s.beginChange g o c).net = s.net := by simp [State.beginChange]
@[simp] theorem State.beginChange_gbasket (s : State) (g : Nat) (o : Origin) (c : Change) : (s.beginChange g o c).basket = s.basket := by simp [State.beginChange]
@[simp] theorem State.beginChange_gevt (s : State) (g : Nat) (o : Origin) (c : Change) : (s.beginChange g o c).evt = s.evt := by simp [State.beginChange]
@[simp] theorem State.beginChange_gflt (s : State) (g : Nat) (o : Origin) (c : Change) : (s.beginChange g o c).flt = s.flt := by simp [State.beginChange]
@[simp] theorem State.beginChange_gpwr (s : State) (g : Nat) (o : Origin) (c : Change) : (s.beginChange g o c).pwr = s.pwr := by simp [State.beginChange]
@[simp] theorem State.beginChange_gusg (s : State) (g : Nat) (o : Origin) (c : Change) : (s.beginChange g o c).usg = s.usg := by simp [State.beginChange]
@[simp] theorem State.beginChange_fn (s : State) (g : Nat) (o : Origin) (c : Change) (j' : FnId) : (s.beginChange g o c).fn j' = s.fn j' := by simp only [State.fn, State.beginChange_ghost]
@[simp] theorem State.beginChange_link (s : State) (g : Nat) (o : Origin) (c : Change) (j' : Nat) : (s.beginChange g o c).link j' = s.link j' := by simp only [State.link, State.beginChange_ghost]
@[simp] theorem State.beginChange_cuff (s : State) (g : Nat) (o : Origin) (c : Change) (j' : Nat) : (s.beginChange g o c).cuff j' = s.cuff j' := by simp only [State.cuff, State.beginChange_ghost]
@[simp] theorem State.beginChange_queue (s : State) (g : Nat) (o : Origin) (c : Change) (j' : QId) : (s.beginChange g o c).queue j' = s.queue j' := by simp only [State.queue, State.beginChange_gwork]
@[simp] theorem State.beginChange_finger (s : State) (g : Nat) (o : Origin) (c : Change) (j' : FgId) : (s.beginChange g o c).finger j' = s.finger j' := by simp only [State.finger, State.beginChange_gwork]
@[simp] theorem State.beginChange_gate (s : State) (g : Nat) (o : Origin) (c : Change) (j' : Nat) : (s.beginChange g o c).gate j' = s.gate j' := by simp only [State.gate, State.beginChange_gpool]
@[simp] theorem State.beginChange_quad (s : State) (g : Nat) (o : Origin) (c : Change) (j' : Nat) : (s.beginChange g o c).quad j' = s.quad j' := by simp only [State.quad, State.beginChange_gnet]
@[simp] theorem State.beginChange_blink (s : State) (g : Nat) (o : Origin) (c : Change) (j' : Nat) : (s.beginChange g o c).blink j' = s.blink j' := by simp only [State.blink, State.beginChange_gbasket]
@[simp] theorem State.beginChange_peer (s : State) (g : Nat) (o : Origin) (c : Change) (j' : Nat) : (s.beginChange g o c).peer j' = s.peer j' := by simp only [State.peer, State.beginChange_gbasket]
@[simp] theorem State.beginChange_source (s : State) (g : Nat) (o : Origin) (c : Change) (j' : Nat) : (s.beginChange g o c).source j' = s.source j' := by simp only [State.source, State.beginChange_gevt]
@[simp] theorem State.beginChange_dom (s : State) (g : Nat) (o : Origin) (c : Change) (j' : Nat) : (s.beginChange g o c).dom j' = s.dom j' := by simp only [State.dom, State.beginChange_gpwr]
@[simp] theorem State.beginChange_usage (s : State) (g : Nat) (o : Origin) (c : Change) (j' : Nat) : (s.beginChange g o c).usage j' = s.usage j' := by simp only [State.usage, State.beginChange_gusg]
@[simp] theorem State.beginChange_unitFlt (s : State) (g : Nat) (o : Origin) (c : Change) (j' : Nat) : (s.beginChange g o c).unitFlt j' = s.unitFlt j' := by simp only [State.unitFlt, State.beginChange_gflt]

@[simp] theorem State.endChange_gpending (s : State) (g code : Nat) : (s.endChange g code).pending = s.pending := by unfold State.endChange; first | rfl | (simp; done) | ((try dsimp only); (repeat' split) <;> simp)
@[simp] theorem State.endChange_gout (s : State) (g code : Nat) : (s.endChange g code).out = s.out := by unfold State.endChange; first | rfl | (simp; done) | ((try dsimp only); (repeat' split) <;> simp)
@[simp] theorem State.endChange_gsys (s : State) (g code : Nat) : (s.endChange g code).sys = s.sys := by unfold State.endChange; first | rfl | (simp; done) | ((try dsimp only); (repeat' split) <;> simp)
@[simp] theorem State.endChange_gboot (s : State) (g code : Nat) : (s.endChange g code).boot = s.boot := by unfold State.endChange; first | rfl | (simp; done) | ((try dsimp only); (repeat' split) <;> simp)
@[simp] theorem State.endChange_ghost (s : State) (g code : Nat) : (s.endChange g code).host = s.host := by unfold State.endChange; first | rfl | (simp; done) | ((try dsimp only); (repeat' split) <;> simp)
@[simp] theorem State.endChange_gpool (s : State) (g code : Nat) : (s.endChange g code).pool = s.pool := by unfold State.endChange; first | rfl | (simp; done) | ((try dsimp only); (repeat' split) <;> simp)
@[simp] theorem State.endChange_gnet (s : State) (g code : Nat) : (s.endChange g code).net = s.net := by unfold State.endChange; first | rfl | (simp; done) | ((try dsimp only); (repeat' split) <;> simp)
@[simp] theorem State.endChange_gbasket (s : State) (g code : Nat) : (s.endChange g code).basket = s.basket := by unfold State.endChange; first | rfl | (simp; done) | ((try dsimp only); (repeat' split) <;> simp)
@[simp] theorem State.endChange_gevt (s : State) (g code : Nat) : (s.endChange g code).evt = s.evt := by unfold State.endChange; first | rfl | (simp; done) | ((try dsimp only); (repeat' split) <;> simp)
@[simp] theorem State.endChange_gflt (s : State) (g code : Nat) : (s.endChange g code).flt = s.flt := by unfold State.endChange; first | rfl | (simp; done) | ((try dsimp only); (repeat' split) <;> simp)
@[simp] theorem State.endChange_gpwr (s : State) (g code : Nat) : (s.endChange g code).pwr = s.pwr := by unfold State.endChange; first | rfl | (simp; done) | ((try dsimp only); (repeat' split) <;> simp)
@[simp] theorem State.endChange_gusg (s : State) (g code : Nat) : (s.endChange g code).usg = s.usg := by unfold State.endChange; first | rfl | (simp; done) | ((try dsimp only); (repeat' split) <;> simp)
@[simp] theorem State.endChange_fn (s : State) (g code : Nat) (j' : FnId) : (s.endChange g code).fn j' = s.fn j' := by simp only [State.fn, State.endChange_ghost]
@[simp] theorem State.endChange_link (s : State) (g code : Nat) (j' : Nat) : (s.endChange g code).link j' = s.link j' := by simp only [State.link, State.endChange_ghost]
@[simp] theorem State.endChange_cuff (s : State) (g code : Nat) (j' : Nat) : (s.endChange g code).cuff j' = s.cuff j' := by simp only [State.cuff, State.endChange_ghost]
@[simp] theorem State.endChange_gate (s : State) (g code : Nat) (j' : Nat) : (s.endChange g code).gate j' = s.gate j' := by simp only [State.gate, State.endChange_gpool]
@[simp] theorem State.endChange_quad (s : State) (g code : Nat) (j' : Nat) : (s.endChange g code).quad j' = s.quad j' := by simp only [State.quad, State.endChange_gnet]
@[simp] theorem State.endChange_blink (s : State) (g code : Nat) (j' : Nat) : (s.endChange g code).blink j' = s.blink j' := by simp only [State.blink, State.endChange_gbasket]
@[simp] theorem State.endChange_peer (s : State) (g code : Nat) (j' : Nat) : (s.endChange g code).peer j' = s.peer j' := by simp only [State.peer, State.endChange_gbasket]
@[simp] theorem State.endChange_source (s : State) (g code : Nat) (j' : Nat) : (s.endChange g code).source j' = s.source j' := by simp only [State.source, State.endChange_gevt]
@[simp] theorem State.endChange_dom (s : State) (g code : Nat) (j' : Nat) : (s.endChange g code).dom j' = s.dom j' := by simp only [State.dom, State.endChange_gpwr]
@[simp] theorem State.endChange_usage (s : State) (g code : Nat) (j' : Nat) : (s.endChange g code).usage j' = s.usage j' := by simp only [State.usage, State.endChange_gusg]
@[simp] theorem State.endChange_unitFlt (s : State) (g code : Nat) (j' : Nat) : (s.endChange g code).unitFlt j' = s.unitFlt j' := by simp only [State.unitFlt, State.endChange_gflt]

@[simp] theorem State.sendMgmt_gpending (s : State) (n : Nat) (m : MgmtMsg) : (s.sendMgmt n m).pending = s.pending := by unfold State.sendMgmt; first | rfl | (simp; done) | ((try dsimp only); (repeat' split) <;> simp)
@[simp] theorem State.sendMgmt_gsys (s : State) (n : Nat) (m : MgmtMsg) : (s.sendMgmt n m).sys = s.sys := by unfold State.sendMgmt; first | rfl | (simp; done) | ((try dsimp only); (repeat' split) <;> simp)
@[simp] theorem State.sendMgmt_gboot (s : State) (n : Nat) (m : MgmtMsg) : (s.sendMgmt n m).boot = s.boot := by unfold State.sendMgmt; first | rfl | (simp; done) | ((try dsimp only); (repeat' split) <;> simp)
@[simp] theorem State.sendMgmt_gtrust (s : State) (n : Nat) (m : MgmtMsg) : (s.sendMgmt n m).trust = s.trust := by unfold State.sendMgmt; first | rfl | (simp; done) | ((try dsimp only); (repeat' split) <;> simp)
@[simp] theorem State.sendMgmt_ghost (s : State) (n : Nat) (m : MgmtMsg) : (s.sendMgmt n m).host = s.host := by unfold State.sendMgmt; first | rfl | (simp; done) | ((try dsimp only); (repeat' split) <;> simp)
@[simp] theorem State.sendMgmt_gwork (s : State) (n : Nat) (m : MgmtMsg) : (s.sendMgmt n m).work = s.work := by unfold State.sendMgmt; first | rfl | (simp; done) | ((try dsimp only); (repeat' split) <;> simp)
@[simp] theorem State.sendMgmt_gpool (s : State) (n : Nat) (m : MgmtMsg) : (s.sendMgmt n m).pool = s.pool := by unfold State.sendMgmt; first | rfl | (simp; done) | ((try dsimp only); (repeat' split) <;> simp)
@[simp] theorem State.sendMgmt_gnet (s : State) (n : Nat) (m : MgmtMsg) : (s.sendMgmt n m).net = s.net := by unfold State.sendMgmt; first | rfl | (simp; done) | ((try dsimp only); (repeat' split) <;> simp)
@[simp] theorem State.sendMgmt_gevt (s : State) (n : Nat) (m : MgmtMsg) : (s.sendMgmt n m).evt = s.evt := by unfold State.sendMgmt; first | rfl | (simp; done) | ((try dsimp only); (repeat' split) <;> simp)
@[simp] theorem State.sendMgmt_gflt (s : State) (n : Nat) (m : MgmtMsg) : (s.sendMgmt n m).flt = s.flt := by unfold State.sendMgmt; first | rfl | (simp; done) | ((try dsimp only); (repeat' split) <;> simp)
@[simp] theorem State.sendMgmt_gpwr (s : State) (n : Nat) (m : MgmtMsg) : (s.sendMgmt n m).pwr = s.pwr := by unfold State.sendMgmt; first | rfl | (simp; done) | ((try dsimp only); (repeat' split) <;> simp)
@[simp] theorem State.sendMgmt_gusg (s : State) (n : Nat) (m : MgmtMsg) : (s.sendMgmt n m).usg = s.usg := by unfold State.sendMgmt; first | rfl | (simp; done) | ((try dsimp only); (repeat' split) <;> simp)
@[simp] theorem State.sendMgmt_fn (s : State) (n : Nat) (m : MgmtMsg) (j' : FnId) : (s.sendMgmt n m).fn j' = s.fn j' := by simp only [State.fn, State.sendMgmt_ghost]
@[simp] theorem State.sendMgmt_link (s : State) (n : Nat) (m : MgmtMsg) (j' : Nat) : (s.sendMgmt n m).link j' = s.link j' := by simp only [State.link, State.sendMgmt_ghost]
@[simp] theorem State.sendMgmt_cuff (s : State) (n : Nat) (m : MgmtMsg) (j' : Nat) : (s.sendMgmt n m).cuff j' = s.cuff j' := by simp only [State.cuff, State.sendMgmt_ghost]
@[simp] theorem State.sendMgmt_glove (s : State) (n : Nat) (m : MgmtMsg) (j' : Nat) : (s.sendMgmt n m).glove j' = s.glove j' := by simp only [State.glove, State.sendMgmt_gtrust]
@[simp] theorem State.sendMgmt_slot (s : State) (n : Nat) (m : MgmtMsg) (j' : Nat) : (s.sendMgmt n m).slot j' = s.slot j' := by simp only [State.slot, State.sendMgmt_gtrust]
@[simp] theorem State.sendMgmt_queue (s : State) (n : Nat) (m : MgmtMsg) (j' : QId) : (s.sendMgmt n m).queue j' = s.queue j' := by simp only [State.queue, State.sendMgmt_gwork]
@[simp] theorem State.sendMgmt_finger (s : State) (n : Nat) (m : MgmtMsg) (j' : FgId) : (s.sendMgmt n m).finger j' = s.finger j' := by simp only [State.finger, State.sendMgmt_gwork]
@[simp] theorem State.sendMgmt_gate (s : State) (n : Nat) (m : MgmtMsg) (j' : Nat) : (s.sendMgmt n m).gate j' = s.gate j' := by simp only [State.gate, State.sendMgmt_gpool]
@[simp] theorem State.sendMgmt_quad (s : State) (n : Nat) (m : MgmtMsg) (j' : Nat) : (s.sendMgmt n m).quad j' = s.quad j' := by simp only [State.quad, State.sendMgmt_gnet]
@[simp] theorem State.sendMgmt_source (s : State) (n : Nat) (m : MgmtMsg) (j' : Nat) : (s.sendMgmt n m).source j' = s.source j' := by simp only [State.source, State.sendMgmt_gevt]
@[simp] theorem State.sendMgmt_dom (s : State) (n : Nat) (m : MgmtMsg) (j' : Nat) : (s.sendMgmt n m).dom j' = s.dom j' := by simp only [State.dom, State.sendMgmt_gpwr]
@[simp] theorem State.sendMgmt_usage (s : State) (n : Nat) (m : MgmtMsg) (j' : Nat) : (s.sendMgmt n m).usage j' = s.usage j' := by simp only [State.usage, State.sendMgmt_gusg]
@[simp] theorem State.sendMgmt_unitFlt (s : State) (n : Nat) (m : MgmtMsg) (j' : Nat) : (s.sendMgmt n m).unitFlt j' = s.unitFlt j' := by simp only [State.unitFlt, State.sendMgmt_gflt]

@[simp] theorem State.mgmtAsk_gpending (s : State) (n g : Nat) (m : Mgmt) (msg : MgmtMsg) : (s.mgmtAsk n g m msg).pending = s.pending := by simp [State.mgmtAsk]
@[simp] theorem State.mgmtAsk_gsys (s : State) (n g : Nat) (m : Mgmt) (msg : MgmtMsg) : (s.mgmtAsk n g m msg).sys = s.sys := by simp [State.mgmtAsk]
@[simp] theorem State.mgmtAsk_gboot (s : State) (n g : Nat) (m : Mgmt) (msg : MgmtMsg) : (s.mgmtAsk n g m msg).boot = s.boot := by simp [State.mgmtAsk]
@[simp] theorem State.mgmtAsk_gtrust (s : State) (n g : Nat) (m : Mgmt) (msg : MgmtMsg) : (s.mgmtAsk n g m msg).trust = s.trust := by simp [State.mgmtAsk]
@[simp] theorem State.mgmtAsk_ghost (s : State) (n g : Nat) (m : Mgmt) (msg : MgmtMsg) : (s.mgmtAsk n g m msg).host = s.host := by simp [State.mgmtAsk]
@[simp] theorem State.mgmtAsk_gwork (s : State) (n g : Nat) (m : Mgmt) (msg : MgmtMsg) : (s.mgmtAsk n g m msg).work = s.work := by simp [State.mgmtAsk]
@[simp] theorem State.mgmtAsk_gpool (s : State) (n g : Nat) (m : Mgmt) (msg : MgmtMsg) : (s.mgmtAsk n g m msg).pool = s.pool := by simp [State.mgmtAsk]
@[simp] theorem State.mgmtAsk_gnet (s : State) (n g : Nat) (m : Mgmt) (msg : MgmtMsg) : (s.mgmtAsk n g m msg).net = s.net := by simp [State.mgmtAsk]
@[simp] theorem State.mgmtAsk_gevt (s : State) (n g : Nat) (m : Mgmt) (msg : MgmtMsg) : (s.mgmtAsk n g m msg).evt = s.evt := by simp [State.mgmtAsk]
@[simp] theorem State.mgmtAsk_gflt (s : State) (n g : Nat) (m : Mgmt) (msg : MgmtMsg) : (s.mgmtAsk n g m msg).flt = s.flt := by simp [State.mgmtAsk]
@[simp] theorem State.mgmtAsk_gpwr (s : State) (n g : Nat) (m : Mgmt) (msg : MgmtMsg) : (s.mgmtAsk n g m msg).pwr = s.pwr := by simp [State.mgmtAsk]
@[simp] theorem State.mgmtAsk_gusg (s : State) (n g : Nat) (m : Mgmt) (msg : MgmtMsg) : (s.mgmtAsk n g m msg).usg = s.usg := by simp [State.mgmtAsk]
@[simp] theorem State.mgmtAsk_fn (s : State) (n g : Nat) (m : Mgmt) (msg : MgmtMsg) (j' : FnId) : (s.mgmtAsk n g m msg).fn j' = s.fn j' := by simp only [State.fn, State.mgmtAsk_ghost]
@[simp] theorem State.mgmtAsk_link (s : State) (n g : Nat) (m : Mgmt) (msg : MgmtMsg) (j' : Nat) : (s.mgmtAsk n g m msg).link j' = s.link j' := by simp only [State.link, State.mgmtAsk_ghost]
@[simp] theorem State.mgmtAsk_cuff (s : State) (n g : Nat) (m : Mgmt) (msg : MgmtMsg) (j' : Nat) : (s.mgmtAsk n g m msg).cuff j' = s.cuff j' := by simp only [State.cuff, State.mgmtAsk_ghost]
@[simp] theorem State.mgmtAsk_glove (s : State) (n g : Nat) (m : Mgmt) (msg : MgmtMsg) (j' : Nat) : (s.mgmtAsk n g m msg).glove j' = s.glove j' := by simp only [State.glove, State.mgmtAsk_gtrust]
@[simp] theorem State.mgmtAsk_slot (s : State) (n g : Nat) (m : Mgmt) (msg : MgmtMsg) (j' : Nat) : (s.mgmtAsk n g m msg).slot j' = s.slot j' := by simp only [State.slot, State.mgmtAsk_gtrust]
@[simp] theorem State.mgmtAsk_queue (s : State) (n g : Nat) (m : Mgmt) (msg : MgmtMsg) (j' : QId) : (s.mgmtAsk n g m msg).queue j' = s.queue j' := by simp only [State.queue, State.mgmtAsk_gwork]
@[simp] theorem State.mgmtAsk_finger (s : State) (n g : Nat) (m : Mgmt) (msg : MgmtMsg) (j' : FgId) : (s.mgmtAsk n g m msg).finger j' = s.finger j' := by simp only [State.finger, State.mgmtAsk_gwork]
@[simp] theorem State.mgmtAsk_gate (s : State) (n g : Nat) (m : Mgmt) (msg : MgmtMsg) (j' : Nat) : (s.mgmtAsk n g m msg).gate j' = s.gate j' := by simp only [State.gate, State.mgmtAsk_gpool]
@[simp] theorem State.mgmtAsk_quad (s : State) (n g : Nat) (m : Mgmt) (msg : MgmtMsg) (j' : Nat) : (s.mgmtAsk n g m msg).quad j' = s.quad j' := by simp only [State.quad, State.mgmtAsk_gnet]
@[simp] theorem State.mgmtAsk_source (s : State) (n g : Nat) (m : Mgmt) (msg : MgmtMsg) (j' : Nat) : (s.mgmtAsk n g m msg).source j' = s.source j' := by simp only [State.source, State.mgmtAsk_gevt]
@[simp] theorem State.mgmtAsk_dom (s : State) (n g : Nat) (m : Mgmt) (msg : MgmtMsg) (j' : Nat) : (s.mgmtAsk n g m msg).dom j' = s.dom j' := by simp only [State.dom, State.mgmtAsk_gpwr]
@[simp] theorem State.mgmtAsk_usage (s : State) (n g : Nat) (m : Mgmt) (msg : MgmtMsg) (j' : Nat) : (s.mgmtAsk n g m msg).usage j' = s.usage j' := by simp only [State.usage, State.mgmtAsk_gusg]
@[simp] theorem State.mgmtAsk_unitFlt (s : State) (n g : Nat) (m : Mgmt) (msg : MgmtMsg) (j' : Nat) : (s.mgmtAsk n g m msg).unitFlt j' = s.unitFlt j' := by simp only [State.unitFlt, State.mgmtAsk_gflt]

@[simp] theorem State.askKey_gpending (s : State) (n g : Nat) : (s.askKey n g).pending = s.pending := by simp [State.askKey]
@[simp] theorem State.askKey_gsys (s : State) (n g : Nat) : (s.askKey n g).sys = s.sys := by simp [State.askKey]
@[simp] theorem State.askKey_gboot (s : State) (n g : Nat) : (s.askKey n g).boot = s.boot := by simp [State.askKey]
@[simp] theorem State.askKey_gtrust (s : State) (n g : Nat) : (s.askKey n g).trust = s.trust := by simp [State.askKey]
@[simp] theorem State.askKey_ghost (s : State) (n g : Nat) : (s.askKey n g).host = s.host := by simp [State.askKey]
@[simp] theorem State.askKey_gwork (s : State) (n g : Nat) : (s.askKey n g).work = s.work := by simp [State.askKey]
@[simp] theorem State.askKey_gpool (s : State) (n g : Nat) : (s.askKey n g).pool = s.pool := by simp [State.askKey]
@[simp] theorem State.askKey_gnet (s : State) (n g : Nat) : (s.askKey n g).net = s.net := by simp [State.askKey]
@[simp] theorem State.askKey_gevt (s : State) (n g : Nat) : (s.askKey n g).evt = s.evt := by simp [State.askKey]
@[simp] theorem State.askKey_gflt (s : State) (n g : Nat) : (s.askKey n g).flt = s.flt := by simp [State.askKey]
@[simp] theorem State.askKey_gpwr (s : State) (n g : Nat) : (s.askKey n g).pwr = s.pwr := by simp [State.askKey]
@[simp] theorem State.askKey_gusg (s : State) (n g : Nat) : (s.askKey n g).usg = s.usg := by simp [State.askKey]
@[simp] theorem State.askKey_fn (s : State) (n g : Nat) (j' : FnId) : (s.askKey n g).fn j' = s.fn j' := by simp only [State.fn, State.askKey_ghost]
@[simp] theorem State.askKey_link (s : State) (n g : Nat) (j' : Nat) : (s.askKey n g).link j' = s.link j' := by simp only [State.link, State.askKey_ghost]
@[simp] theorem State.askKey_cuff (s : State) (n g : Nat) (j' : Nat) : (s.askKey n g).cuff j' = s.cuff j' := by simp only [State.cuff, State.askKey_ghost]
@[simp] theorem State.askKey_glove (s : State) (n g : Nat) (j' : Nat) : (s.askKey n g).glove j' = s.glove j' := by simp only [State.glove, State.askKey_gtrust]
@[simp] theorem State.askKey_slot (s : State) (n g : Nat) (j' : Nat) : (s.askKey n g).slot j' = s.slot j' := by simp only [State.slot, State.askKey_gtrust]
@[simp] theorem State.askKey_queue (s : State) (n g : Nat) (j' : QId) : (s.askKey n g).queue j' = s.queue j' := by simp only [State.queue, State.askKey_gwork]
@[simp] theorem State.askKey_finger (s : State) (n g : Nat) (j' : FgId) : (s.askKey n g).finger j' = s.finger j' := by simp only [State.finger, State.askKey_gwork]
@[simp] theorem State.askKey_gate (s : State) (n g : Nat) (j' : Nat) : (s.askKey n g).gate j' = s.gate j' := by simp only [State.gate, State.askKey_gpool]
@[simp] theorem State.askKey_quad (s : State) (n g : Nat) (j' : Nat) : (s.askKey n g).quad j' = s.quad j' := by simp only [State.quad, State.askKey_gnet]
@[simp] theorem State.askKey_source (s : State) (n g : Nat) (j' : Nat) : (s.askKey n g).source j' = s.source j' := by simp only [State.source, State.askKey_gevt]
@[simp] theorem State.askKey_dom (s : State) (n g : Nat) (j' : Nat) : (s.askKey n g).dom j' = s.dom j' := by simp only [State.dom, State.askKey_gpwr]
@[simp] theorem State.askKey_usage (s : State) (n g : Nat) (j' : Nat) : (s.askKey n g).usage j' = s.usage j' := by simp only [State.usage, State.askKey_gusg]
@[simp] theorem State.askKey_unitFlt (s : State) (n g : Nat) (j' : Nat) : (s.askKey n g).unitFlt j' = s.unitFlt j' := by simp only [State.unitFlt, State.askKey_gflt]

@[simp] theorem State.askPages_gpending (s : State) (n g m : Nat) : (s.askPages n g m).pending = s.pending := by simp [State.askPages]
@[simp] theorem State.askPages_gsys (s : State) (n g m : Nat) : (s.askPages n g m).sys = s.sys := by simp [State.askPages]
@[simp] theorem State.askPages_gboot (s : State) (n g m : Nat) : (s.askPages n g m).boot = s.boot := by simp [State.askPages]
@[simp] theorem State.askPages_gtrust (s : State) (n g m : Nat) : (s.askPages n g m).trust = s.trust := by simp [State.askPages]
@[simp] theorem State.askPages_ghost (s : State) (n g m : Nat) : (s.askPages n g m).host = s.host := by simp [State.askPages]
@[simp] theorem State.askPages_gwork (s : State) (n g m : Nat) : (s.askPages n g m).work = s.work := by simp [State.askPages]
@[simp] theorem State.askPages_gpool (s : State) (n g m : Nat) : (s.askPages n g m).pool = s.pool := by simp [State.askPages]
@[simp] theorem State.askPages_gnet (s : State) (n g m : Nat) : (s.askPages n g m).net = s.net := by simp [State.askPages]
@[simp] theorem State.askPages_gevt (s : State) (n g m : Nat) : (s.askPages n g m).evt = s.evt := by simp [State.askPages]
@[simp] theorem State.askPages_gflt (s : State) (n g m : Nat) : (s.askPages n g m).flt = s.flt := by simp [State.askPages]
@[simp] theorem State.askPages_gpwr (s : State) (n g m : Nat) : (s.askPages n g m).pwr = s.pwr := by simp [State.askPages]
@[simp] theorem State.askPages_gusg (s : State) (n g m : Nat) : (s.askPages n g m).usg = s.usg := by simp [State.askPages]
@[simp] theorem State.askPages_fn (s : State) (n g m : Nat) (j' : FnId) : (s.askPages n g m).fn j' = s.fn j' := by simp only [State.fn, State.askPages_ghost]
@[simp] theorem State.askPages_link (s : State) (n g m : Nat) (j' : Nat) : (s.askPages n g m).link j' = s.link j' := by simp only [State.link, State.askPages_ghost]
@[simp] theorem State.askPages_cuff (s : State) (n g m : Nat) (j' : Nat) : (s.askPages n g m).cuff j' = s.cuff j' := by simp only [State.cuff, State.askPages_ghost]
@[simp] theorem State.askPages_glove (s : State) (n g m : Nat) (j' : Nat) : (s.askPages n g m).glove j' = s.glove j' := by simp only [State.glove, State.askPages_gtrust]
@[simp] theorem State.askPages_slot (s : State) (n g m : Nat) (j' : Nat) : (s.askPages n g m).slot j' = s.slot j' := by simp only [State.slot, State.askPages_gtrust]
@[simp] theorem State.askPages_queue (s : State) (n g m : Nat) (j' : QId) : (s.askPages n g m).queue j' = s.queue j' := by simp only [State.queue, State.askPages_gwork]
@[simp] theorem State.askPages_finger (s : State) (n g m : Nat) (j' : FgId) : (s.askPages n g m).finger j' = s.finger j' := by simp only [State.finger, State.askPages_gwork]
@[simp] theorem State.askPages_gate (s : State) (n g m : Nat) (j' : Nat) : (s.askPages n g m).gate j' = s.gate j' := by simp only [State.gate, State.askPages_gpool]
@[simp] theorem State.askPages_quad (s : State) (n g m : Nat) (j' : Nat) : (s.askPages n g m).quad j' = s.quad j' := by simp only [State.quad, State.askPages_gnet]
@[simp] theorem State.askPages_source (s : State) (n g m : Nat) (j' : Nat) : (s.askPages n g m).source j' = s.source j' := by simp only [State.source, State.askPages_gevt]
@[simp] theorem State.askPages_dom (s : State) (n g m : Nat) (j' : Nat) : (s.askPages n g m).dom j' = s.dom j' := by simp only [State.dom, State.askPages_gpwr]
@[simp] theorem State.askPages_usage (s : State) (n g m : Nat) (j' : Nat) : (s.askPages n g m).usage j' = s.usage j' := by simp only [State.usage, State.askPages_gusg]
@[simp] theorem State.askPages_unitFlt (s : State) (n g m : Nat) (j' : Nat) : (s.askPages n g m).unitFlt j' = s.unitFlt j' := by simp only [State.unitFlt, State.askPages_gflt]

@[simp] theorem State.askRelease_gpending (s : State) (n g : Nat) (ps : List Nat) : (s.askRelease n g ps).pending = s.pending := by simp [State.askRelease]
@[simp] theorem State.askRelease_gsys (s : State) (n g : Nat) (ps : List Nat) : (s.askRelease n g ps).sys = s.sys := by simp [State.askRelease]
@[simp] theorem State.askRelease_gboot (s : State) (n g : Nat) (ps : List Nat) : (s.askRelease n g ps).boot = s.boot := by simp [State.askRelease]
@[simp] theorem State.askRelease_gtrust (s : State) (n g : Nat) (ps : List Nat) : (s.askRelease n g ps).trust = s.trust := by simp [State.askRelease]
@[simp] theorem State.askRelease_ghost (s : State) (n g : Nat) (ps : List Nat) : (s.askRelease n g ps).host = s.host := by simp [State.askRelease]
@[simp] theorem State.askRelease_gwork (s : State) (n g : Nat) (ps : List Nat) : (s.askRelease n g ps).work = s.work := by simp [State.askRelease]
@[simp] theorem State.askRelease_gpool (s : State) (n g : Nat) (ps : List Nat) : (s.askRelease n g ps).pool = s.pool := by simp [State.askRelease]
@[simp] theorem State.askRelease_gnet (s : State) (n g : Nat) (ps : List Nat) : (s.askRelease n g ps).net = s.net := by simp [State.askRelease]
@[simp] theorem State.askRelease_gevt (s : State) (n g : Nat) (ps : List Nat) : (s.askRelease n g ps).evt = s.evt := by simp [State.askRelease]
@[simp] theorem State.askRelease_gflt (s : State) (n g : Nat) (ps : List Nat) : (s.askRelease n g ps).flt = s.flt := by simp [State.askRelease]
@[simp] theorem State.askRelease_gpwr (s : State) (n g : Nat) (ps : List Nat) : (s.askRelease n g ps).pwr = s.pwr := by simp [State.askRelease]
@[simp] theorem State.askRelease_gusg (s : State) (n g : Nat) (ps : List Nat) : (s.askRelease n g ps).usg = s.usg := by simp [State.askRelease]
@[simp] theorem State.askRelease_fn (s : State) (n g : Nat) (ps : List Nat) (j' : FnId) : (s.askRelease n g ps).fn j' = s.fn j' := by simp only [State.fn, State.askRelease_ghost]
@[simp] theorem State.askRelease_link (s : State) (n g : Nat) (ps : List Nat) (j' : Nat) : (s.askRelease n g ps).link j' = s.link j' := by simp only [State.link, State.askRelease_ghost]
@[simp] theorem State.askRelease_cuff (s : State) (n g : Nat) (ps : List Nat) (j' : Nat) : (s.askRelease n g ps).cuff j' = s.cuff j' := by simp only [State.cuff, State.askRelease_ghost]
@[simp] theorem State.askRelease_glove (s : State) (n g : Nat) (ps : List Nat) (j' : Nat) : (s.askRelease n g ps).glove j' = s.glove j' := by simp only [State.glove, State.askRelease_gtrust]
@[simp] theorem State.askRelease_slot (s : State) (n g : Nat) (ps : List Nat) (j' : Nat) : (s.askRelease n g ps).slot j' = s.slot j' := by simp only [State.slot, State.askRelease_gtrust]
@[simp] theorem State.askRelease_queue (s : State) (n g : Nat) (ps : List Nat) (j' : QId) : (s.askRelease n g ps).queue j' = s.queue j' := by simp only [State.queue, State.askRelease_gwork]
@[simp] theorem State.askRelease_finger (s : State) (n g : Nat) (ps : List Nat) (j' : FgId) : (s.askRelease n g ps).finger j' = s.finger j' := by simp only [State.finger, State.askRelease_gwork]
@[simp] theorem State.askRelease_gate (s : State) (n g : Nat) (ps : List Nat) (j' : Nat) : (s.askRelease n g ps).gate j' = s.gate j' := by simp only [State.gate, State.askRelease_gpool]
@[simp] theorem State.askRelease_quad (s : State) (n g : Nat) (ps : List Nat) (j' : Nat) : (s.askRelease n g ps).quad j' = s.quad j' := by simp only [State.quad, State.askRelease_gnet]
@[simp] theorem State.askRelease_source (s : State) (n g : Nat) (ps : List Nat) (j' : Nat) : (s.askRelease n g ps).source j' = s.source j' := by simp only [State.source, State.askRelease_gevt]
@[simp] theorem State.askRelease_dom (s : State) (n g : Nat) (ps : List Nat) (j' : Nat) : (s.askRelease n g ps).dom j' = s.dom j' := by simp only [State.dom, State.askRelease_gpwr]
@[simp] theorem State.askRelease_usage (s : State) (n g : Nat) (ps : List Nat) (j' : Nat) : (s.askRelease n g ps).usage j' = s.usage j' := by simp only [State.usage, State.askRelease_gusg]
@[simp] theorem State.askRelease_unitFlt (s : State) (n g : Nat) (ps : List Nat) (j' : Nat) : (s.askRelease n g ps).unitFlt j' = s.unitFlt j' := by simp only [State.unitFlt, State.askRelease_gflt]

@[simp] theorem State.askRevoke_gpending (s : State) (n g : Nat) : (s.askRevoke n g).pending = s.pending := by simp [State.askRevoke]
@[simp] theorem State.askRevoke_gsys (s : State) (n g : Nat) : (s.askRevoke n g).sys = s.sys := by simp [State.askRevoke]
@[simp] theorem State.askRevoke_gboot (s : State) (n g : Nat) : (s.askRevoke n g).boot = s.boot := by simp [State.askRevoke]
@[simp] theorem State.askRevoke_gtrust (s : State) (n g : Nat) : (s.askRevoke n g).trust = s.trust := by simp [State.askRevoke]
@[simp] theorem State.askRevoke_ghost (s : State) (n g : Nat) : (s.askRevoke n g).host = s.host := by simp [State.askRevoke]
@[simp] theorem State.askRevoke_gwork (s : State) (n g : Nat) : (s.askRevoke n g).work = s.work := by simp [State.askRevoke]
@[simp] theorem State.askRevoke_gpool (s : State) (n g : Nat) : (s.askRevoke n g).pool = s.pool := by simp [State.askRevoke]
@[simp] theorem State.askRevoke_gnet (s : State) (n g : Nat) : (s.askRevoke n g).net = s.net := by simp [State.askRevoke]
@[simp] theorem State.askRevoke_gevt (s : State) (n g : Nat) : (s.askRevoke n g).evt = s.evt := by simp [State.askRevoke]
@[simp] theorem State.askRevoke_gflt (s : State) (n g : Nat) : (s.askRevoke n g).flt = s.flt := by simp [State.askRevoke]
@[simp] theorem State.askRevoke_gpwr (s : State) (n g : Nat) : (s.askRevoke n g).pwr = s.pwr := by simp [State.askRevoke]
@[simp] theorem State.askRevoke_gusg (s : State) (n g : Nat) : (s.askRevoke n g).usg = s.usg := by simp [State.askRevoke]
@[simp] theorem State.askRevoke_fn (s : State) (n g : Nat) (j' : FnId) : (s.askRevoke n g).fn j' = s.fn j' := by simp only [State.fn, State.askRevoke_ghost]
@[simp] theorem State.askRevoke_link (s : State) (n g : Nat) (j' : Nat) : (s.askRevoke n g).link j' = s.link j' := by simp only [State.link, State.askRevoke_ghost]
@[simp] theorem State.askRevoke_cuff (s : State) (n g : Nat) (j' : Nat) : (s.askRevoke n g).cuff j' = s.cuff j' := by simp only [State.cuff, State.askRevoke_ghost]
@[simp] theorem State.askRevoke_glove (s : State) (n g : Nat) (j' : Nat) : (s.askRevoke n g).glove j' = s.glove j' := by simp only [State.glove, State.askRevoke_gtrust]
@[simp] theorem State.askRevoke_slot (s : State) (n g : Nat) (j' : Nat) : (s.askRevoke n g).slot j' = s.slot j' := by simp only [State.slot, State.askRevoke_gtrust]
@[simp] theorem State.askRevoke_queue (s : State) (n g : Nat) (j' : QId) : (s.askRevoke n g).queue j' = s.queue j' := by simp only [State.queue, State.askRevoke_gwork]
@[simp] theorem State.askRevoke_finger (s : State) (n g : Nat) (j' : FgId) : (s.askRevoke n g).finger j' = s.finger j' := by simp only [State.finger, State.askRevoke_gwork]
@[simp] theorem State.askRevoke_gate (s : State) (n g : Nat) (j' : Nat) : (s.askRevoke n g).gate j' = s.gate j' := by simp only [State.gate, State.askRevoke_gpool]
@[simp] theorem State.askRevoke_quad (s : State) (n g : Nat) (j' : Nat) : (s.askRevoke n g).quad j' = s.quad j' := by simp only [State.quad, State.askRevoke_gnet]
@[simp] theorem State.askRevoke_source (s : State) (n g : Nat) (j' : Nat) : (s.askRevoke n g).source j' = s.source j' := by simp only [State.source, State.askRevoke_gevt]
@[simp] theorem State.askRevoke_dom (s : State) (n g : Nat) (j' : Nat) : (s.askRevoke n g).dom j' = s.dom j' := by simp only [State.dom, State.askRevoke_gpwr]
@[simp] theorem State.askRevoke_usage (s : State) (n g : Nat) (j' : Nat) : (s.askRevoke n g).usage j' = s.usage j' := by simp only [State.usage, State.askRevoke_gusg]
@[simp] theorem State.askRevoke_unitFlt (s : State) (n g : Nat) (j' : Nat) : (s.askRevoke n g).unitFlt j' = s.unitFlt j' := by simp only [State.unitFlt, State.askRevoke_gflt]

@[simp] theorem State.unwait_gpending (s : State) (f : FgId) : (s.unwait f).pending = s.pending := by simp [State.unwait]
@[simp] theorem State.unwait_gout (s : State) (f : FgId) : (s.unwait f).out = s.out := by simp [State.unwait]
@[simp] theorem State.unwait_gsys (s : State) (f : FgId) : (s.unwait f).sys = s.sys := by simp [State.unwait]
@[simp] theorem State.unwait_gboot (s : State) (f : FgId) : (s.unwait f).boot = s.boot := by simp [State.unwait]
@[simp] theorem State.unwait_gtrust (s : State) (f : FgId) : (s.unwait f).trust = s.trust := by simp [State.unwait]
@[simp] theorem State.unwait_gwork (s : State) (f : FgId) : (s.unwait f).work = s.work := by simp [State.unwait]
@[simp] theorem State.unwait_gpool (s : State) (f : FgId) : (s.unwait f).pool = s.pool := by simp [State.unwait]
@[simp] theorem State.unwait_gnet (s : State) (f : FgId) : (s.unwait f).net = s.net := by simp [State.unwait]
@[simp] theorem State.unwait_gbasket (s : State) (f : FgId) : (s.unwait f).basket = s.basket := by simp [State.unwait]
@[simp] theorem State.unwait_gevt (s : State) (f : FgId) : (s.unwait f).evt = s.evt := by simp [State.unwait]
@[simp] theorem State.unwait_gflt (s : State) (f : FgId) : (s.unwait f).flt = s.flt := by simp [State.unwait]
@[simp] theorem State.unwait_gpwr (s : State) (f : FgId) : (s.unwait f).pwr = s.pwr := by simp [State.unwait]
@[simp] theorem State.unwait_gusg (s : State) (f : FgId) : (s.unwait f).usg = s.usg := by simp [State.unwait]
@[simp] theorem State.unwait_glove (s : State) (f : FgId) (j' : Nat) : (s.unwait f).glove j' = s.glove j' := by simp only [State.glove, State.unwait_gtrust]
@[simp] theorem State.unwait_slot (s : State) (f : FgId) (j' : Nat) : (s.unwait f).slot j' = s.slot j' := by simp only [State.slot, State.unwait_gtrust]
@[simp] theorem State.unwait_queue (s : State) (f : FgId) (j' : QId) : (s.unwait f).queue j' = s.queue j' := by simp only [State.queue, State.unwait_gwork]
@[simp] theorem State.unwait_finger (s : State) (f : FgId) (j' : FgId) : (s.unwait f).finger j' = s.finger j' := by simp only [State.finger, State.unwait_gwork]
@[simp] theorem State.unwait_gate (s : State) (f : FgId) (j' : Nat) : (s.unwait f).gate j' = s.gate j' := by simp only [State.gate, State.unwait_gpool]
@[simp] theorem State.unwait_quad (s : State) (f : FgId) (j' : Nat) : (s.unwait f).quad j' = s.quad j' := by simp only [State.quad, State.unwait_gnet]
@[simp] theorem State.unwait_blink (s : State) (f : FgId) (j' : Nat) : (s.unwait f).blink j' = s.blink j' := by simp only [State.blink, State.unwait_gbasket]
@[simp] theorem State.unwait_peer (s : State) (f : FgId) (j' : Nat) : (s.unwait f).peer j' = s.peer j' := by simp only [State.peer, State.unwait_gbasket]
@[simp] theorem State.unwait_source (s : State) (f : FgId) (j' : Nat) : (s.unwait f).source j' = s.source j' := by simp only [State.source, State.unwait_gevt]
@[simp] theorem State.unwait_dom (s : State) (f : FgId) (j' : Nat) : (s.unwait f).dom j' = s.dom j' := by simp only [State.dom, State.unwait_gpwr]
@[simp] theorem State.unwait_usage (s : State) (f : FgId) (j' : Nat) : (s.unwait f).usage j' = s.usage j' := by simp only [State.usage, State.unwait_gusg]
@[simp] theorem State.unwait_unitFlt (s : State) (f : FgId) (j' : Nat) : (s.unwait f).unitFlt j' = s.unitFlt j' := by simp only [State.unitFlt, State.unwait_gflt]

@[simp] theorem State.orphan_gpending (s : State) (f : FgId) : (s.orphan f).pending = s.pending := by simp [State.orphan]
@[simp] theorem State.orphan_gout (s : State) (f : FgId) : (s.orphan f).out = s.out := by simp [State.orphan]
@[simp] theorem State.orphan_gsys (s : State) (f : FgId) : (s.orphan f).sys = s.sys := by simp [State.orphan]
@[simp] theorem State.orphan_gboot (s : State) (f : FgId) : (s.orphan f).boot = s.boot := by simp [State.orphan]
@[simp] theorem State.orphan_gtrust (s : State) (f : FgId) : (s.orphan f).trust = s.trust := by simp [State.orphan]
@[simp] theorem State.orphan_ghost (s : State) (f : FgId) : (s.orphan f).host = s.host := by simp [State.orphan]
@[simp] theorem State.orphan_gwork (s : State) (f : FgId) : (s.orphan f).work = s.work := by simp [State.orphan]
@[simp] theorem State.orphan_gpool (s : State) (f : FgId) : (s.orphan f).pool = s.pool := by simp [State.orphan]
@[simp] theorem State.orphan_gbasket (s : State) (f : FgId) : (s.orphan f).basket = s.basket := by simp [State.orphan]
@[simp] theorem State.orphan_gevt (s : State) (f : FgId) : (s.orphan f).evt = s.evt := by simp [State.orphan]
@[simp] theorem State.orphan_gflt (s : State) (f : FgId) : (s.orphan f).flt = s.flt := by simp [State.orphan]
@[simp] theorem State.orphan_gpwr (s : State) (f : FgId) : (s.orphan f).pwr = s.pwr := by simp [State.orphan]
@[simp] theorem State.orphan_gusg (s : State) (f : FgId) : (s.orphan f).usg = s.usg := by simp [State.orphan]
@[simp] theorem State.orphan_fn (s : State) (f : FgId) (j' : FnId) : (s.orphan f).fn j' = s.fn j' := by simp only [State.fn, State.orphan_ghost]
@[simp] theorem State.orphan_link (s : State) (f : FgId) (j' : Nat) : (s.orphan f).link j' = s.link j' := by simp only [State.link, State.orphan_ghost]
@[simp] theorem State.orphan_cuff (s : State) (f : FgId) (j' : Nat) : (s.orphan f).cuff j' = s.cuff j' := by simp only [State.cuff, State.orphan_ghost]
@[simp] theorem State.orphan_glove (s : State) (f : FgId) (j' : Nat) : (s.orphan f).glove j' = s.glove j' := by simp only [State.glove, State.orphan_gtrust]
@[simp] theorem State.orphan_slot (s : State) (f : FgId) (j' : Nat) : (s.orphan f).slot j' = s.slot j' := by simp only [State.slot, State.orphan_gtrust]
@[simp] theorem State.orphan_queue (s : State) (f : FgId) (j' : QId) : (s.orphan f).queue j' = s.queue j' := by simp only [State.queue, State.orphan_gwork]
@[simp] theorem State.orphan_finger (s : State) (f : FgId) (j' : FgId) : (s.orphan f).finger j' = s.finger j' := by simp only [State.finger, State.orphan_gwork]
@[simp] theorem State.orphan_gate (s : State) (f : FgId) (j' : Nat) : (s.orphan f).gate j' = s.gate j' := by simp only [State.gate, State.orphan_gpool]
@[simp] theorem State.orphan_blink (s : State) (f : FgId) (j' : Nat) : (s.orphan f).blink j' = s.blink j' := by simp only [State.blink, State.orphan_gbasket]
@[simp] theorem State.orphan_peer (s : State) (f : FgId) (j' : Nat) : (s.orphan f).peer j' = s.peer j' := by simp only [State.peer, State.orphan_gbasket]
@[simp] theorem State.orphan_source (s : State) (f : FgId) (j' : Nat) : (s.orphan f).source j' = s.source j' := by simp only [State.source, State.orphan_gevt]
@[simp] theorem State.orphan_dom (s : State) (f : FgId) (j' : Nat) : (s.orphan f).dom j' = s.dom j' := by simp only [State.dom, State.orphan_gpwr]
@[simp] theorem State.orphan_usage (s : State) (f : FgId) (j' : Nat) : (s.orphan f).usage j' = s.usage j' := by simp only [State.usage, State.orphan_gusg]
@[simp] theorem State.orphan_unitFlt (s : State) (f : FgId) (j' : Nat) : (s.orphan f).unitFlt j' = s.unitFlt j' := by simp only [State.unitFlt, State.orphan_gflt]

@[simp] theorem State.fgFinish_gpending (s : State) (f : FgId) (code result : Nat) : (s.fgFinish f code result).pending = s.pending := by unfold State.fgFinish; first | rfl | (simp; done) | ((try dsimp only); (repeat' split) <;> simp)
@[simp] theorem State.fgFinish_gout (s : State) (f : FgId) (code result : Nat) : (s.fgFinish f code result).out = s.out := by unfold State.fgFinish; first | rfl | (simp; done) | ((try dsimp only); (repeat' split) <;> simp)
@[simp] theorem State.fgFinish_gsys (s : State) (f : FgId) (code result : Nat) : (s.fgFinish f code result).sys = s.sys := by unfold State.fgFinish; first | rfl | (simp; done) | ((try dsimp only); (repeat' split) <;> simp)
@[simp] theorem State.fgFinish_gboot (s : State) (f : FgId) (code result : Nat) : (s.fgFinish f code result).boot = s.boot := by unfold State.fgFinish; first | rfl | (simp; done) | ((try dsimp only); (repeat' split) <;> simp)
@[simp] theorem State.fgFinish_gtrust (s : State) (f : FgId) (code result : Nat) : (s.fgFinish f code result).trust = s.trust := by unfold State.fgFinish; first | rfl | (simp; done) | ((try dsimp only); (repeat' split) <;> simp)
@[simp] theorem State.fgFinish_gpool (s : State) (f : FgId) (code result : Nat) : (s.fgFinish f code result).pool = s.pool := by unfold State.fgFinish; first | rfl | (simp; done) | ((try dsimp only); (repeat' split) <;> simp)
@[simp] theorem State.fgFinish_gbasket (s : State) (f : FgId) (code result : Nat) : (s.fgFinish f code result).basket = s.basket := by unfold State.fgFinish; first | rfl | (simp; done) | ((try dsimp only); (repeat' split) <;> simp)
@[simp] theorem State.fgFinish_gevt (s : State) (f : FgId) (code result : Nat) : (s.fgFinish f code result).evt = s.evt := by unfold State.fgFinish; first | rfl | (simp; done) | ((try dsimp only); (repeat' split) <;> simp)
@[simp] theorem State.fgFinish_gflt (s : State) (f : FgId) (code result : Nat) : (s.fgFinish f code result).flt = s.flt := by unfold State.fgFinish; first | rfl | (simp; done) | ((try dsimp only); (repeat' split) <;> simp)
@[simp] theorem State.fgFinish_gpwr (s : State) (f : FgId) (code result : Nat) : (s.fgFinish f code result).pwr = s.pwr := by unfold State.fgFinish; first | rfl | (simp; done) | ((try dsimp only); (repeat' split) <;> simp)
@[simp] theorem State.fgFinish_gusg (s : State) (f : FgId) (code result : Nat) : (s.fgFinish f code result).usg = s.usg := by unfold State.fgFinish; first | rfl | (simp; done) | ((try dsimp only); (repeat' split) <;> simp)
@[simp] theorem State.fgFinish_glove (s : State) (f : FgId) (code result : Nat) (j' : Nat) : (s.fgFinish f code result).glove j' = s.glove j' := by simp only [State.glove, State.fgFinish_gtrust]
@[simp] theorem State.fgFinish_slot (s : State) (f : FgId) (code result : Nat) (j' : Nat) : (s.fgFinish f code result).slot j' = s.slot j' := by simp only [State.slot, State.fgFinish_gtrust]
@[simp] theorem State.fgFinish_gate (s : State) (f : FgId) (code result : Nat) (j' : Nat) : (s.fgFinish f code result).gate j' = s.gate j' := by simp only [State.gate, State.fgFinish_gpool]
@[simp] theorem State.fgFinish_blink (s : State) (f : FgId) (code result : Nat) (j' : Nat) : (s.fgFinish f code result).blink j' = s.blink j' := by simp only [State.blink, State.fgFinish_gbasket]
@[simp] theorem State.fgFinish_peer (s : State) (f : FgId) (code result : Nat) (j' : Nat) : (s.fgFinish f code result).peer j' = s.peer j' := by simp only [State.peer, State.fgFinish_gbasket]
@[simp] theorem State.fgFinish_source (s : State) (f : FgId) (code result : Nat) (j' : Nat) : (s.fgFinish f code result).source j' = s.source j' := by simp only [State.source, State.fgFinish_gevt]
@[simp] theorem State.fgFinish_dom (s : State) (f : FgId) (code result : Nat) (j' : Nat) : (s.fgFinish f code result).dom j' = s.dom j' := by simp only [State.dom, State.fgFinish_gpwr]
@[simp] theorem State.fgFinish_usage (s : State) (f : FgId) (code result : Nat) (j' : Nat) : (s.fgFinish f code result).usage j' = s.usage j' := by simp only [State.usage, State.fgFinish_gusg]
@[simp] theorem State.fgFinish_unitFlt (s : State) (f : FgId) (code result : Nat) (j' : Nat) : (s.fgFinish f code result).unitFlt j' = s.unitFlt j' := by simp only [State.unitFlt, State.fgFinish_gflt]

@[simp] theorem State.fgStopped_gpending (s : State) (f : FgId) (o : Option Origin) : (s.fgStopped f o).pending = s.pending := by unfold State.fgStopped; first | rfl | (simp; done) | ((try dsimp only); (repeat' split) <;> simp)
@[simp] theorem State.fgStopped_gout (s : State) (f : FgId) (o : Option Origin) : (s.fgStopped f o).out = s.out := by unfold State.fgStopped; first | rfl | (simp; done) | ((try dsimp only); (repeat' split) <;> simp)
@[simp] theorem State.fgStopped_gsys (s : State) (f : FgId) (o : Option Origin) : (s.fgStopped f o).sys = s.sys := by unfold State.fgStopped; first | rfl | (simp; done) | ((try dsimp only); (repeat' split) <;> simp)
@[simp] theorem State.fgStopped_gboot (s : State) (f : FgId) (o : Option Origin) : (s.fgStopped f o).boot = s.boot := by unfold State.fgStopped; first | rfl | (simp; done) | ((try dsimp only); (repeat' split) <;> simp)
@[simp] theorem State.fgStopped_gtrust (s : State) (f : FgId) (o : Option Origin) : (s.fgStopped f o).trust = s.trust := by unfold State.fgStopped; first | rfl | (simp; done) | ((try dsimp only); (repeat' split) <;> simp)
@[simp] theorem State.fgStopped_ghost (s : State) (f : FgId) (o : Option Origin) : (s.fgStopped f o).host = s.host := by unfold State.fgStopped; first | rfl | (simp; done) | ((try dsimp only); (repeat' split) <;> simp)
@[simp] theorem State.fgStopped_gpool (s : State) (f : FgId) (o : Option Origin) : (s.fgStopped f o).pool = s.pool := by unfold State.fgStopped; first | rfl | (simp; done) | ((try dsimp only); (repeat' split) <;> simp)
@[simp] theorem State.fgStopped_gnet (s : State) (f : FgId) (o : Option Origin) : (s.fgStopped f o).net = s.net := by unfold State.fgStopped; first | rfl | (simp; done) | ((try dsimp only); (repeat' split) <;> simp)
@[simp] theorem State.fgStopped_gbasket (s : State) (f : FgId) (o : Option Origin) : (s.fgStopped f o).basket = s.basket := by unfold State.fgStopped; first | rfl | (simp; done) | ((try dsimp only); (repeat' split) <;> simp)
@[simp] theorem State.fgStopped_gevt (s : State) (f : FgId) (o : Option Origin) : (s.fgStopped f o).evt = s.evt := by unfold State.fgStopped; first | rfl | (simp; done) | ((try dsimp only); (repeat' split) <;> simp)
@[simp] theorem State.fgStopped_gflt (s : State) (f : FgId) (o : Option Origin) : (s.fgStopped f o).flt = s.flt := by unfold State.fgStopped; first | rfl | (simp; done) | ((try dsimp only); (repeat' split) <;> simp)
@[simp] theorem State.fgStopped_gpwr (s : State) (f : FgId) (o : Option Origin) : (s.fgStopped f o).pwr = s.pwr := by unfold State.fgStopped; first | rfl | (simp; done) | ((try dsimp only); (repeat' split) <;> simp)
@[simp] theorem State.fgStopped_gusg (s : State) (f : FgId) (o : Option Origin) : (s.fgStopped f o).usg = s.usg := by unfold State.fgStopped; first | rfl | (simp; done) | ((try dsimp only); (repeat' split) <;> simp)
@[simp] theorem State.fgStopped_fn (s : State) (f : FgId) (o : Option Origin) (j' : FnId) : (s.fgStopped f o).fn j' = s.fn j' := by simp only [State.fn, State.fgStopped_ghost]
@[simp] theorem State.fgStopped_link (s : State) (f : FgId) (o : Option Origin) (j' : Nat) : (s.fgStopped f o).link j' = s.link j' := by simp only [State.link, State.fgStopped_ghost]
@[simp] theorem State.fgStopped_cuff (s : State) (f : FgId) (o : Option Origin) (j' : Nat) : (s.fgStopped f o).cuff j' = s.cuff j' := by simp only [State.cuff, State.fgStopped_ghost]
@[simp] theorem State.fgStopped_glove (s : State) (f : FgId) (o : Option Origin) (j' : Nat) : (s.fgStopped f o).glove j' = s.glove j' := by simp only [State.glove, State.fgStopped_gtrust]
@[simp] theorem State.fgStopped_slot (s : State) (f : FgId) (o : Option Origin) (j' : Nat) : (s.fgStopped f o).slot j' = s.slot j' := by simp only [State.slot, State.fgStopped_gtrust]
@[simp] theorem State.fgStopped_gate (s : State) (f : FgId) (o : Option Origin) (j' : Nat) : (s.fgStopped f o).gate j' = s.gate j' := by simp only [State.gate, State.fgStopped_gpool]
@[simp] theorem State.fgStopped_quad (s : State) (f : FgId) (o : Option Origin) (j' : Nat) : (s.fgStopped f o).quad j' = s.quad j' := by simp only [State.quad, State.fgStopped_gnet]
@[simp] theorem State.fgStopped_blink (s : State) (f : FgId) (o : Option Origin) (j' : Nat) : (s.fgStopped f o).blink j' = s.blink j' := by simp only [State.blink, State.fgStopped_gbasket]
@[simp] theorem State.fgStopped_peer (s : State) (f : FgId) (o : Option Origin) (j' : Nat) : (s.fgStopped f o).peer j' = s.peer j' := by simp only [State.peer, State.fgStopped_gbasket]
@[simp] theorem State.fgStopped_source (s : State) (f : FgId) (o : Option Origin) (j' : Nat) : (s.fgStopped f o).source j' = s.source j' := by simp only [State.source, State.fgStopped_gevt]
@[simp] theorem State.fgStopped_dom (s : State) (f : FgId) (o : Option Origin) (j' : Nat) : (s.fgStopped f o).dom j' = s.dom j' := by simp only [State.dom, State.fgStopped_gpwr]
@[simp] theorem State.fgStopped_usage (s : State) (f : FgId) (o : Option Origin) (j' : Nat) : (s.fgStopped f o).usage j' = s.usage j' := by simp only [State.usage, State.fgStopped_gusg]
@[simp] theorem State.fgStopped_unitFlt (s : State) (f : FgId) (o : Option Origin) (j' : Nat) : (s.fgStopped f o).unitFlt j' = s.unitFlt j' := by simp only [State.unitFlt, State.fgStopped_gflt]

@[simp] theorem State.fgSettle_gpending (s : State) (f : FgId) : (s.fgSettle f).pending = s.pending := by unfold State.fgSettle; first | rfl | (simp; done) | ((try dsimp only); (repeat' split) <;> simp)
@[simp] theorem State.fgSettle_gout (s : State) (f : FgId) : (s.fgSettle f).out = s.out := by unfold State.fgSettle; first | rfl | (simp; done) | ((try dsimp only); (repeat' split) <;> simp)
@[simp] theorem State.fgSettle_gsys (s : State) (f : FgId) : (s.fgSettle f).sys = s.sys := by unfold State.fgSettle; first | rfl | (simp; done) | ((try dsimp only); (repeat' split) <;> simp)
@[simp] theorem State.fgSettle_gboot (s : State) (f : FgId) : (s.fgSettle f).boot = s.boot := by unfold State.fgSettle; first | rfl | (simp; done) | ((try dsimp only); (repeat' split) <;> simp)
@[simp] theorem State.fgSettle_gtrust (s : State) (f : FgId) : (s.fgSettle f).trust = s.trust := by unfold State.fgSettle; first | rfl | (simp; done) | ((try dsimp only); (repeat' split) <;> simp)
@[simp] theorem State.fgSettle_gpool (s : State) (f : FgId) : (s.fgSettle f).pool = s.pool := by unfold State.fgSettle; first | rfl | (simp; done) | ((try dsimp only); (repeat' split) <;> simp)
@[simp] theorem State.fgSettle_gbasket (s : State) (f : FgId) : (s.fgSettle f).basket = s.basket := by unfold State.fgSettle; first | rfl | (simp; done) | ((try dsimp only); (repeat' split) <;> simp)
@[simp] theorem State.fgSettle_gevt (s : State) (f : FgId) : (s.fgSettle f).evt = s.evt := by unfold State.fgSettle; first | rfl | (simp; done) | ((try dsimp only); (repeat' split) <;> simp)
@[simp] theorem State.fgSettle_gflt (s : State) (f : FgId) : (s.fgSettle f).flt = s.flt := by unfold State.fgSettle; first | rfl | (simp; done) | ((try dsimp only); (repeat' split) <;> simp)
@[simp] theorem State.fgSettle_gpwr (s : State) (f : FgId) : (s.fgSettle f).pwr = s.pwr := by unfold State.fgSettle; first | rfl | (simp; done) | ((try dsimp only); (repeat' split) <;> simp)
@[simp] theorem State.fgSettle_gusg (s : State) (f : FgId) : (s.fgSettle f).usg = s.usg := by unfold State.fgSettle; first | rfl | (simp; done) | ((try dsimp only); (repeat' split) <;> simp)
@[simp] theorem State.fgSettle_glove (s : State) (f : FgId) (j' : Nat) : (s.fgSettle f).glove j' = s.glove j' := by simp only [State.glove, State.fgSettle_gtrust]
@[simp] theorem State.fgSettle_slot (s : State) (f : FgId) (j' : Nat) : (s.fgSettle f).slot j' = s.slot j' := by simp only [State.slot, State.fgSettle_gtrust]
@[simp] theorem State.fgSettle_gate (s : State) (f : FgId) (j' : Nat) : (s.fgSettle f).gate j' = s.gate j' := by simp only [State.gate, State.fgSettle_gpool]
@[simp] theorem State.fgSettle_blink (s : State) (f : FgId) (j' : Nat) : (s.fgSettle f).blink j' = s.blink j' := by simp only [State.blink, State.fgSettle_gbasket]
@[simp] theorem State.fgSettle_peer (s : State) (f : FgId) (j' : Nat) : (s.fgSettle f).peer j' = s.peer j' := by simp only [State.peer, State.fgSettle_gbasket]
@[simp] theorem State.fgSettle_source (s : State) (f : FgId) (j' : Nat) : (s.fgSettle f).source j' = s.source j' := by simp only [State.source, State.fgSettle_gevt]
@[simp] theorem State.fgSettle_dom (s : State) (f : FgId) (j' : Nat) : (s.fgSettle f).dom j' = s.dom j' := by simp only [State.dom, State.fgSettle_gpwr]
@[simp] theorem State.fgSettle_usage (s : State) (f : FgId) (j' : Nat) : (s.fgSettle f).usage j' = s.usage j' := by simp only [State.usage, State.fgSettle_gusg]
@[simp] theorem State.fgSettle_unitFlt (s : State) (f : FgId) (j' : Nat) : (s.fgSettle f).unitFlt j' = s.unitFlt j' := by simp only [State.unitFlt, State.fgSettle_gflt]

@[simp] theorem State.fgHalt_gpending (s : State) (f : FgId) (h : Halt) : (s.fgHalt f h).pending = s.pending := by unfold State.fgHalt; first | rfl | (simp; done) | ((try dsimp only); (repeat' split) <;> simp)
@[simp] theorem State.fgHalt_gout (s : State) (f : FgId) (h : Halt) : (s.fgHalt f h).out = s.out := by unfold State.fgHalt; first | rfl | (simp; done) | ((try dsimp only); (repeat' split) <;> simp)
@[simp] theorem State.fgHalt_gsys (s : State) (f : FgId) (h : Halt) : (s.fgHalt f h).sys = s.sys := by unfold State.fgHalt; first | rfl | (simp; done) | ((try dsimp only); (repeat' split) <;> simp)
@[simp] theorem State.fgHalt_gboot (s : State) (f : FgId) (h : Halt) : (s.fgHalt f h).boot = s.boot := by unfold State.fgHalt; first | rfl | (simp; done) | ((try dsimp only); (repeat' split) <;> simp)
@[simp] theorem State.fgHalt_gtrust (s : State) (f : FgId) (h : Halt) : (s.fgHalt f h).trust = s.trust := by unfold State.fgHalt; first | rfl | (simp; done) | ((try dsimp only); (repeat' split) <;> simp)
@[simp] theorem State.fgHalt_gpool (s : State) (f : FgId) (h : Halt) : (s.fgHalt f h).pool = s.pool := by unfold State.fgHalt; first | rfl | (simp; done) | ((try dsimp only); (repeat' split) <;> simp)
@[simp] theorem State.fgHalt_gbasket (s : State) (f : FgId) (h : Halt) : (s.fgHalt f h).basket = s.basket := by unfold State.fgHalt; first | rfl | (simp; done) | ((try dsimp only); (repeat' split) <;> simp)
@[simp] theorem State.fgHalt_gevt (s : State) (f : FgId) (h : Halt) : (s.fgHalt f h).evt = s.evt := by unfold State.fgHalt; first | rfl | (simp; done) | ((try dsimp only); (repeat' split) <;> simp)
@[simp] theorem State.fgHalt_gflt (s : State) (f : FgId) (h : Halt) : (s.fgHalt f h).flt = s.flt := by unfold State.fgHalt; first | rfl | (simp; done) | ((try dsimp only); (repeat' split) <;> simp)
@[simp] theorem State.fgHalt_gpwr (s : State) (f : FgId) (h : Halt) : (s.fgHalt f h).pwr = s.pwr := by unfold State.fgHalt; first | rfl | (simp; done) | ((try dsimp only); (repeat' split) <;> simp)
@[simp] theorem State.fgHalt_gusg (s : State) (f : FgId) (h : Halt) : (s.fgHalt f h).usg = s.usg := by unfold State.fgHalt; first | rfl | (simp; done) | ((try dsimp only); (repeat' split) <;> simp)
@[simp] theorem State.fgHalt_glove (s : State) (f : FgId) (h : Halt) (j' : Nat) : (s.fgHalt f h).glove j' = s.glove j' := by simp only [State.glove, State.fgHalt_gtrust]
@[simp] theorem State.fgHalt_slot (s : State) (f : FgId) (h : Halt) (j' : Nat) : (s.fgHalt f h).slot j' = s.slot j' := by simp only [State.slot, State.fgHalt_gtrust]
@[simp] theorem State.fgHalt_gate (s : State) (f : FgId) (h : Halt) (j' : Nat) : (s.fgHalt f h).gate j' = s.gate j' := by simp only [State.gate, State.fgHalt_gpool]
@[simp] theorem State.fgHalt_blink (s : State) (f : FgId) (h : Halt) (j' : Nat) : (s.fgHalt f h).blink j' = s.blink j' := by simp only [State.blink, State.fgHalt_gbasket]
@[simp] theorem State.fgHalt_peer (s : State) (f : FgId) (h : Halt) (j' : Nat) : (s.fgHalt f h).peer j' = s.peer j' := by simp only [State.peer, State.fgHalt_gbasket]
@[simp] theorem State.fgHalt_source (s : State) (f : FgId) (h : Halt) (j' : Nat) : (s.fgHalt f h).source j' = s.source j' := by simp only [State.source, State.fgHalt_gevt]
@[simp] theorem State.fgHalt_dom (s : State) (f : FgId) (h : Halt) (j' : Nat) : (s.fgHalt f h).dom j' = s.dom j' := by simp only [State.dom, State.fgHalt_gpwr]
@[simp] theorem State.fgHalt_usage (s : State) (f : FgId) (h : Halt) (j' : Nat) : (s.fgHalt f h).usage j' = s.usage j' := by simp only [State.usage, State.fgHalt_gusg]
@[simp] theorem State.fgHalt_unitFlt (s : State) (f : FgId) (h : Halt) (j' : Nat) : (s.fgHalt f h).unitFlt j' = s.unitFlt j' := by simp only [State.unitFlt, State.fgHalt_gflt]

@[simp] theorem State.fgBoundary_gpending (s : State) (f : FgId) : (s.fgBoundary f).pending = s.pending := by unfold State.fgBoundary; first | rfl | (simp; done) | ((try dsimp only); (repeat' split) <;> simp)
@[simp] theorem State.fgBoundary_gout (s : State) (f : FgId) : (s.fgBoundary f).out = s.out := by unfold State.fgBoundary; first | rfl | (simp; done) | ((try dsimp only); (repeat' split) <;> simp)
@[simp] theorem State.fgBoundary_gsys (s : State) (f : FgId) : (s.fgBoundary f).sys = s.sys := by unfold State.fgBoundary; first | rfl | (simp; done) | ((try dsimp only); (repeat' split) <;> simp)
@[simp] theorem State.fgBoundary_gboot (s : State) (f : FgId) : (s.fgBoundary f).boot = s.boot := by unfold State.fgBoundary; first | rfl | (simp; done) | ((try dsimp only); (repeat' split) <;> simp)
@[simp] theorem State.fgBoundary_gtrust (s : State) (f : FgId) : (s.fgBoundary f).trust = s.trust := by unfold State.fgBoundary; first | rfl | (simp; done) | ((try dsimp only); (repeat' split) <;> simp)
@[simp] theorem State.fgBoundary_gpool (s : State) (f : FgId) : (s.fgBoundary f).pool = s.pool := by unfold State.fgBoundary; first | rfl | (simp; done) | ((try dsimp only); (repeat' split) <;> simp)
@[simp] theorem State.fgBoundary_gbasket (s : State) (f : FgId) : (s.fgBoundary f).basket = s.basket := by unfold State.fgBoundary; first | rfl | (simp; done) | ((try dsimp only); (repeat' split) <;> simp)
@[simp] theorem State.fgBoundary_gevt (s : State) (f : FgId) : (s.fgBoundary f).evt = s.evt := by unfold State.fgBoundary; first | rfl | (simp; done) | ((try dsimp only); (repeat' split) <;> simp)
@[simp] theorem State.fgBoundary_gflt (s : State) (f : FgId) : (s.fgBoundary f).flt = s.flt := by unfold State.fgBoundary; first | rfl | (simp; done) | ((try dsimp only); (repeat' split) <;> simp)
@[simp] theorem State.fgBoundary_gpwr (s : State) (f : FgId) : (s.fgBoundary f).pwr = s.pwr := by unfold State.fgBoundary; first | rfl | (simp; done) | ((try dsimp only); (repeat' split) <;> simp)
@[simp] theorem State.fgBoundary_gusg (s : State) (f : FgId) : (s.fgBoundary f).usg = s.usg := by unfold State.fgBoundary; first | rfl | (simp; done) | ((try dsimp only); (repeat' split) <;> simp)
@[simp] theorem State.fgBoundary_glove (s : State) (f : FgId) (j' : Nat) : (s.fgBoundary f).glove j' = s.glove j' := by simp only [State.glove, State.fgBoundary_gtrust]
@[simp] theorem State.fgBoundary_slot (s : State) (f : FgId) (j' : Nat) : (s.fgBoundary f).slot j' = s.slot j' := by simp only [State.slot, State.fgBoundary_gtrust]
@[simp] theorem State.fgBoundary_gate (s : State) (f : FgId) (j' : Nat) : (s.fgBoundary f).gate j' = s.gate j' := by simp only [State.gate, State.fgBoundary_gpool]
@[simp] theorem State.fgBoundary_blink (s : State) (f : FgId) (j' : Nat) : (s.fgBoundary f).blink j' = s.blink j' := by simp only [State.blink, State.fgBoundary_gbasket]
@[simp] theorem State.fgBoundary_peer (s : State) (f : FgId) (j' : Nat) : (s.fgBoundary f).peer j' = s.peer j' := by simp only [State.peer, State.fgBoundary_gbasket]
@[simp] theorem State.fgBoundary_source (s : State) (f : FgId) (j' : Nat) : (s.fgBoundary f).source j' = s.source j' := by simp only [State.source, State.fgBoundary_gevt]
@[simp] theorem State.fgBoundary_dom (s : State) (f : FgId) (j' : Nat) : (s.fgBoundary f).dom j' = s.dom j' := by simp only [State.dom, State.fgBoundary_gpwr]
@[simp] theorem State.fgBoundary_usage (s : State) (f : FgId) (j' : Nat) : (s.fgBoundary f).usage j' = s.usage j' := by simp only [State.usage, State.fgBoundary_gusg]
@[simp] theorem State.fgBoundary_unitFlt (s : State) (f : FgId) (j' : Nat) : (s.fgBoundary f).unitFlt j' = s.unitFlt j' := by simp only [State.unitFlt, State.fgBoundary_gflt]

@[simp] theorem State.fgReset_gpending (s : State) (f : FgId) : (s.fgReset f).pending = s.pending := by simp [State.fgReset]
@[simp] theorem State.fgReset_gout (s : State) (f : FgId) : (s.fgReset f).out = s.out := by simp [State.fgReset]
@[simp] theorem State.fgReset_gsys (s : State) (f : FgId) : (s.fgReset f).sys = s.sys := by simp [State.fgReset]
@[simp] theorem State.fgReset_gboot (s : State) (f : FgId) : (s.fgReset f).boot = s.boot := by simp [State.fgReset]
@[simp] theorem State.fgReset_gtrust (s : State) (f : FgId) : (s.fgReset f).trust = s.trust := by simp [State.fgReset]
@[simp] theorem State.fgReset_gpool (s : State) (f : FgId) : (s.fgReset f).pool = s.pool := by simp [State.fgReset]
@[simp] theorem State.fgReset_gbasket (s : State) (f : FgId) : (s.fgReset f).basket = s.basket := by simp [State.fgReset]
@[simp] theorem State.fgReset_gevt (s : State) (f : FgId) : (s.fgReset f).evt = s.evt := by simp [State.fgReset]
@[simp] theorem State.fgReset_gflt (s : State) (f : FgId) : (s.fgReset f).flt = s.flt := by simp [State.fgReset]
@[simp] theorem State.fgReset_gpwr (s : State) (f : FgId) : (s.fgReset f).pwr = s.pwr := by simp [State.fgReset]
@[simp] theorem State.fgReset_gusg (s : State) (f : FgId) : (s.fgReset f).usg = s.usg := by simp [State.fgReset]
@[simp] theorem State.fgReset_glove (s : State) (f : FgId) (j' : Nat) : (s.fgReset f).glove j' = s.glove j' := by simp only [State.glove, State.fgReset_gtrust]
@[simp] theorem State.fgReset_slot (s : State) (f : FgId) (j' : Nat) : (s.fgReset f).slot j' = s.slot j' := by simp only [State.slot, State.fgReset_gtrust]
@[simp] theorem State.fgReset_gate (s : State) (f : FgId) (j' : Nat) : (s.fgReset f).gate j' = s.gate j' := by simp only [State.gate, State.fgReset_gpool]
@[simp] theorem State.fgReset_blink (s : State) (f : FgId) (j' : Nat) : (s.fgReset f).blink j' = s.blink j' := by simp only [State.blink, State.fgReset_gbasket]
@[simp] theorem State.fgReset_peer (s : State) (f : FgId) (j' : Nat) : (s.fgReset f).peer j' = s.peer j' := by simp only [State.peer, State.fgReset_gbasket]
@[simp] theorem State.fgReset_source (s : State) (f : FgId) (j' : Nat) : (s.fgReset f).source j' = s.source j' := by simp only [State.source, State.fgReset_gevt]
@[simp] theorem State.fgReset_dom (s : State) (f : FgId) (j' : Nat) : (s.fgReset f).dom j' = s.dom j' := by simp only [State.dom, State.fgReset_gpwr]
@[simp] theorem State.fgReset_usage (s : State) (f : FgId) (j' : Nat) : (s.fgReset f).usage j' = s.usage j' := by simp only [State.usage, State.fgReset_gusg]
@[simp] theorem State.fgReset_unitFlt (s : State) (f : FgId) (j' : Nat) : (s.fgReset f).unitFlt j' = s.unitFlt j' := by simp only [State.unitFlt, State.fgReset_gflt]

@[simp] theorem State.fgAdvance_gpending (s : State) (f : FgId) : (s.fgAdvance f).pending = s.pending := by simp [State.fgAdvance]
@[simp] theorem State.fgAdvance_gout (s : State) (f : FgId) : (s.fgAdvance f).out = s.out := by simp [State.fgAdvance]
@[simp] theorem State.fgAdvance_gsys (s : State) (f : FgId) : (s.fgAdvance f).sys = s.sys := by simp [State.fgAdvance]
@[simp] theorem State.fgAdvance_gboot (s : State) (f : FgId) : (s.fgAdvance f).boot = s.boot := by simp [State.fgAdvance]
@[simp] theorem State.fgAdvance_gtrust (s : State) (f : FgId) : (s.fgAdvance f).trust = s.trust := by simp [State.fgAdvance]
@[simp] theorem State.fgAdvance_gpool (s : State) (f : FgId) : (s.fgAdvance f).pool = s.pool := by simp [State.fgAdvance]
@[simp] theorem State.fgAdvance_gbasket (s : State) (f : FgId) : (s.fgAdvance f).basket = s.basket := by simp [State.fgAdvance]
@[simp] theorem State.fgAdvance_gevt (s : State) (f : FgId) : (s.fgAdvance f).evt = s.evt := by simp [State.fgAdvance]
@[simp] theorem State.fgAdvance_gflt (s : State) (f : FgId) : (s.fgAdvance f).flt = s.flt := by simp [State.fgAdvance]
@[simp] theorem State.fgAdvance_gpwr (s : State) (f : FgId) : (s.fgAdvance f).pwr = s.pwr := by simp [State.fgAdvance]
@[simp] theorem State.fgAdvance_gusg (s : State) (f : FgId) : (s.fgAdvance f).usg = s.usg := by simp [State.fgAdvance]
@[simp] theorem State.fgAdvance_glove (s : State) (f : FgId) (j' : Nat) : (s.fgAdvance f).glove j' = s.glove j' := by simp only [State.glove, State.fgAdvance_gtrust]
@[simp] theorem State.fgAdvance_slot (s : State) (f : FgId) (j' : Nat) : (s.fgAdvance f).slot j' = s.slot j' := by simp only [State.slot, State.fgAdvance_gtrust]
@[simp] theorem State.fgAdvance_gate (s : State) (f : FgId) (j' : Nat) : (s.fgAdvance f).gate j' = s.gate j' := by simp only [State.gate, State.fgAdvance_gpool]
@[simp] theorem State.fgAdvance_blink (s : State) (f : FgId) (j' : Nat) : (s.fgAdvance f).blink j' = s.blink j' := by simp only [State.blink, State.fgAdvance_gbasket]
@[simp] theorem State.fgAdvance_peer (s : State) (f : FgId) (j' : Nat) : (s.fgAdvance f).peer j' = s.peer j' := by simp only [State.peer, State.fgAdvance_gbasket]
@[simp] theorem State.fgAdvance_source (s : State) (f : FgId) (j' : Nat) : (s.fgAdvance f).source j' = s.source j' := by simp only [State.source, State.fgAdvance_gevt]
@[simp] theorem State.fgAdvance_dom (s : State) (f : FgId) (j' : Nat) : (s.fgAdvance f).dom j' = s.dom j' := by simp only [State.dom, State.fgAdvance_gpwr]
@[simp] theorem State.fgAdvance_usage (s : State) (f : FgId) (j' : Nat) : (s.fgAdvance f).usage j' = s.usage j' := by simp only [State.usage, State.fgAdvance_gusg]
@[simp] theorem State.fgAdvance_unitFlt (s : State) (f : FgId) (j' : Nat) : (s.fgAdvance f).unitFlt j' = s.unitFlt j' := by simp only [State.unitFlt, State.fgAdvance_gflt]

@[simp] theorem State.fgCharge_gpending (s : State) (f : FgId) (n : Nat) : (s.fgCharge f n).pending = s.pending := by simp [State.fgCharge]
@[simp] theorem State.fgCharge_gout (s : State) (f : FgId) (n : Nat) : (s.fgCharge f n).out = s.out := by simp [State.fgCharge]
@[simp] theorem State.fgCharge_gsys (s : State) (f : FgId) (n : Nat) : (s.fgCharge f n).sys = s.sys := by simp [State.fgCharge]
@[simp] theorem State.fgCharge_gboot (s : State) (f : FgId) (n : Nat) : (s.fgCharge f n).boot = s.boot := by simp [State.fgCharge]
@[simp] theorem State.fgCharge_gtrust (s : State) (f : FgId) (n : Nat) : (s.fgCharge f n).trust = s.trust := by simp [State.fgCharge]
@[simp] theorem State.fgCharge_ghost (s : State) (f : FgId) (n : Nat) : (s.fgCharge f n).host = s.host := by simp [State.fgCharge]
@[simp] theorem State.fgCharge_gpool (s : State) (f : FgId) (n : Nat) : (s.fgCharge f n).pool = s.pool := by simp [State.fgCharge]
@[simp] theorem State.fgCharge_gnet (s : State) (f : FgId) (n : Nat) : (s.fgCharge f n).net = s.net := by simp [State.fgCharge]
@[simp] theorem State.fgCharge_gbasket (s : State) (f : FgId) (n : Nat) : (s.fgCharge f n).basket = s.basket := by simp [State.fgCharge]
@[simp] theorem State.fgCharge_gevt (s : State) (f : FgId) (n : Nat) : (s.fgCharge f n).evt = s.evt := by simp [State.fgCharge]
@[simp] theorem State.fgCharge_gflt (s : State) (f : FgId) (n : Nat) : (s.fgCharge f n).flt = s.flt := by simp [State.fgCharge]
@[simp] theorem State.fgCharge_gpwr (s : State) (f : FgId) (n : Nat) : (s.fgCharge f n).pwr = s.pwr := by simp [State.fgCharge]
@[simp] theorem State.fgCharge_gusg (s : State) (f : FgId) (n : Nat) : (s.fgCharge f n).usg = s.usg := by simp [State.fgCharge]
@[simp] theorem State.fgCharge_fn (s : State) (f : FgId) (n : Nat) (j' : FnId) : (s.fgCharge f n).fn j' = s.fn j' := by simp only [State.fn, State.fgCharge_ghost]
@[simp] theorem State.fgCharge_link (s : State) (f : FgId) (n : Nat) (j' : Nat) : (s.fgCharge f n).link j' = s.link j' := by simp only [State.link, State.fgCharge_ghost]
@[simp] theorem State.fgCharge_cuff (s : State) (f : FgId) (n : Nat) (j' : Nat) : (s.fgCharge f n).cuff j' = s.cuff j' := by simp only [State.cuff, State.fgCharge_ghost]
@[simp] theorem State.fgCharge_glove (s : State) (f : FgId) (n : Nat) (j' : Nat) : (s.fgCharge f n).glove j' = s.glove j' := by simp only [State.glove, State.fgCharge_gtrust]
@[simp] theorem State.fgCharge_slot (s : State) (f : FgId) (n : Nat) (j' : Nat) : (s.fgCharge f n).slot j' = s.slot j' := by simp only [State.slot, State.fgCharge_gtrust]
@[simp] theorem State.fgCharge_gate (s : State) (f : FgId) (n : Nat) (j' : Nat) : (s.fgCharge f n).gate j' = s.gate j' := by simp only [State.gate, State.fgCharge_gpool]
@[simp] theorem State.fgCharge_quad (s : State) (f : FgId) (n : Nat) (j' : Nat) : (s.fgCharge f n).quad j' = s.quad j' := by simp only [State.quad, State.fgCharge_gnet]
@[simp] theorem State.fgCharge_blink (s : State) (f : FgId) (n : Nat) (j' : Nat) : (s.fgCharge f n).blink j' = s.blink j' := by simp only [State.blink, State.fgCharge_gbasket]
@[simp] theorem State.fgCharge_peer (s : State) (f : FgId) (n : Nat) (j' : Nat) : (s.fgCharge f n).peer j' = s.peer j' := by simp only [State.peer, State.fgCharge_gbasket]
@[simp] theorem State.fgCharge_source (s : State) (f : FgId) (n : Nat) (j' : Nat) : (s.fgCharge f n).source j' = s.source j' := by simp only [State.source, State.fgCharge_gevt]
@[simp] theorem State.fgCharge_dom (s : State) (f : FgId) (n : Nat) (j' : Nat) : (s.fgCharge f n).dom j' = s.dom j' := by simp only [State.dom, State.fgCharge_gpwr]
@[simp] theorem State.fgCharge_usage (s : State) (f : FgId) (n : Nat) (j' : Nat) : (s.fgCharge f n).usage j' = s.usage j' := by simp only [State.usage, State.fgCharge_gusg]
@[simp] theorem State.fgCharge_unitFlt (s : State) (f : FgId) (n : Nat) (j' : Nat) : (s.fgCharge f n).unitFlt j' = s.unitFlt j' := by simp only [State.unitFlt, State.fgCharge_gflt]

@[simp] theorem State.countDma_gpending (s : State) (f : FgId) (space n : Nat) : (s.countDma f space n).pending = s.pending := by unfold State.countDma; first | rfl | (simp; done) | ((try dsimp only); (repeat' split) <;> simp)
@[simp] theorem State.countDma_gout (s : State) (f : FgId) (space n : Nat) : (s.countDma f space n).out = s.out := by unfold State.countDma; first | rfl | (simp; done) | ((try dsimp only); (repeat' split) <;> simp)
@[simp] theorem State.countDma_gsys (s : State) (f : FgId) (space n : Nat) : (s.countDma f space n).sys = s.sys := by unfold State.countDma; first | rfl | (simp; done) | ((try dsimp only); (repeat' split) <;> simp)
@[simp] theorem State.countDma_gboot (s : State) (f : FgId) (space n : Nat) : (s.countDma f space n).boot = s.boot := by unfold State.countDma; first | rfl | (simp; done) | ((try dsimp only); (repeat' split) <;> simp)
@[simp] theorem State.countDma_gtrust (s : State) (f : FgId) (space n : Nat) : (s.countDma f space n).trust = s.trust := by unfold State.countDma; first | rfl | (simp; done) | ((try dsimp only); (repeat' split) <;> simp)
@[simp] theorem State.countDma_ghost (s : State) (f : FgId) (space n : Nat) : (s.countDma f space n).host = s.host := by unfold State.countDma; first | rfl | (simp; done) | ((try dsimp only); (repeat' split) <;> simp)
@[simp] theorem State.countDma_gwork (s : State) (f : FgId) (space n : Nat) : (s.countDma f space n).work = s.work := by unfold State.countDma; first | rfl | (simp; done) | ((try dsimp only); (repeat' split) <;> simp)
@[simp] theorem State.countDma_gpool (s : State) (f : FgId) (space n : Nat) : (s.countDma f space n).pool = s.pool := by unfold State.countDma; first | rfl | (simp; done) | ((try dsimp only); (repeat' split) <;> simp)
@[simp] theorem State.countDma_gnet (s : State) (f : FgId) (space n : Nat) : (s.countDma f space n).net = s.net := by unfold State.countDma; first | rfl | (simp; done) | ((try dsimp only); (repeat' split) <;> simp)
@[simp] theorem State.countDma_gbasket (s : State) (f : FgId) (space n : Nat) : (s.countDma f space n).basket = s.basket := by unfold State.countDma; first | rfl | (simp; done) | ((try dsimp only); (repeat' split) <;> simp)
@[simp] theorem State.countDma_gevt (s : State) (f : FgId) (space n : Nat) : (s.countDma f space n).evt = s.evt := by unfold State.countDma; first | rfl | (simp; done) | ((try dsimp only); (repeat' split) <;> simp)
@[simp] theorem State.countDma_gflt (s : State) (f : FgId) (space n : Nat) : (s.countDma f space n).flt = s.flt := by unfold State.countDma; first | rfl | (simp; done) | ((try dsimp only); (repeat' split) <;> simp)
@[simp] theorem State.countDma_gpwr (s : State) (f : FgId) (space n : Nat) : (s.countDma f space n).pwr = s.pwr := by unfold State.countDma; first | rfl | (simp; done) | ((try dsimp only); (repeat' split) <;> simp)
@[simp] theorem State.countDma_fn (s : State) (f : FgId) (space n : Nat) (j' : FnId) : (s.countDma f space n).fn j' = s.fn j' := by simp only [State.fn, State.countDma_ghost]
@[simp] theorem State.countDma_link (s : State) (f : FgId) (space n : Nat) (j' : Nat) : (s.countDma f space n).link j' = s.link j' := by simp only [State.link, State.countDma_ghost]
@[simp] theorem State.countDma_cuff (s : State) (f : FgId) (space n : Nat) (j' : Nat) : (s.countDma f space n).cuff j' = s.cuff j' := by simp only [State.cuff, State.countDma_ghost]
@[simp] theorem State.countDma_glove (s : State) (f : FgId) (space n : Nat) (j' : Nat) : (s.countDma f space n).glove j' = s.glove j' := by simp only [State.glove, State.countDma_gtrust]
@[simp] theorem State.countDma_slot (s : State) (f : FgId) (space n : Nat) (j' : Nat) : (s.countDma f space n).slot j' = s.slot j' := by simp only [State.slot, State.countDma_gtrust]
@[simp] theorem State.countDma_queue (s : State) (f : FgId) (space n : Nat) (j' : QId) : (s.countDma f space n).queue j' = s.queue j' := by simp only [State.queue, State.countDma_gwork]
@[simp] theorem State.countDma_finger (s : State) (f : FgId) (space n : Nat) (j' : FgId) : (s.countDma f space n).finger j' = s.finger j' := by simp only [State.finger, State.countDma_gwork]
@[simp] theorem State.countDma_gate (s : State) (f : FgId) (space n : Nat) (j' : Nat) : (s.countDma f space n).gate j' = s.gate j' := by simp only [State.gate, State.countDma_gpool]
@[simp] theorem State.countDma_quad (s : State) (f : FgId) (space n : Nat) (j' : Nat) : (s.countDma f space n).quad j' = s.quad j' := by simp only [State.quad, State.countDma_gnet]
@[simp] theorem State.countDma_blink (s : State) (f : FgId) (space n : Nat) (j' : Nat) : (s.countDma f space n).blink j' = s.blink j' := by simp only [State.blink, State.countDma_gbasket]
@[simp] theorem State.countDma_peer (s : State) (f : FgId) (space n : Nat) (j' : Nat) : (s.countDma f space n).peer j' = s.peer j' := by simp only [State.peer, State.countDma_gbasket]
@[simp] theorem State.countDma_source (s : State) (f : FgId) (space n : Nat) (j' : Nat) : (s.countDma f space n).source j' = s.source j' := by simp only [State.source, State.countDma_gevt]
@[simp] theorem State.countDma_dom (s : State) (f : FgId) (space n : Nat) (j' : Nat) : (s.countDma f space n).dom j' = s.dom j' := by simp only [State.dom, State.countDma_gpwr]
@[simp] theorem State.countDma_unitFlt (s : State) (f : FgId) (space n : Nat) (j' : Nat) : (s.countDma f space n).unitFlt j' = s.unitFlt j' := by simp only [State.unitFlt, State.countDma_gflt]

@[simp] theorem State.fgWrote_gpending (s : State) (f : FgId) (l : Option Nat) (fn : Nat) : (s.fgWrote f l fn).pending = s.pending := by unfold State.fgWrote; first | rfl | (simp; done) | ((try dsimp only); (repeat' split) <;> simp)
@[simp] theorem State.fgWrote_gout (s : State) (f : FgId) (l : Option Nat) (fn : Nat) : (s.fgWrote f l fn).out = s.out := by unfold State.fgWrote; first | rfl | (simp; done) | ((try dsimp only); (repeat' split) <;> simp)
@[simp] theorem State.fgWrote_gsys (s : State) (f : FgId) (l : Option Nat) (fn : Nat) : (s.fgWrote f l fn).sys = s.sys := by unfold State.fgWrote; first | rfl | (simp; done) | ((try dsimp only); (repeat' split) <;> simp)
@[simp] theorem State.fgWrote_gboot (s : State) (f : FgId) (l : Option Nat) (fn : Nat) : (s.fgWrote f l fn).boot = s.boot := by unfold State.fgWrote; first | rfl | (simp; done) | ((try dsimp only); (repeat' split) <;> simp)
@[simp] theorem State.fgWrote_gtrust (s : State) (f : FgId) (l : Option Nat) (fn : Nat) : (s.fgWrote f l fn).trust = s.trust := by unfold State.fgWrote; first | rfl | (simp; done) | ((try dsimp only); (repeat' split) <;> simp)
@[simp] theorem State.fgWrote_ghost (s : State) (f : FgId) (l : Option Nat) (fn : Nat) : (s.fgWrote f l fn).host = s.host := by unfold State.fgWrote; first | rfl | (simp; done) | ((try dsimp only); (repeat' split) <;> simp)
@[simp] theorem State.fgWrote_gpool (s : State) (f : FgId) (l : Option Nat) (fn : Nat) : (s.fgWrote f l fn).pool = s.pool := by unfold State.fgWrote; first | rfl | (simp; done) | ((try dsimp only); (repeat' split) <;> simp)
@[simp] theorem State.fgWrote_gnet (s : State) (f : FgId) (l : Option Nat) (fn : Nat) : (s.fgWrote f l fn).net = s.net := by unfold State.fgWrote; first | rfl | (simp; done) | ((try dsimp only); (repeat' split) <;> simp)
@[simp] theorem State.fgWrote_gbasket (s : State) (f : FgId) (l : Option Nat) (fn : Nat) : (s.fgWrote f l fn).basket = s.basket := by unfold State.fgWrote; first | rfl | (simp; done) | ((try dsimp only); (repeat' split) <;> simp)
@[simp] theorem State.fgWrote_gevt (s : State) (f : FgId) (l : Option Nat) (fn : Nat) : (s.fgWrote f l fn).evt = s.evt := by unfold State.fgWrote; first | rfl | (simp; done) | ((try dsimp only); (repeat' split) <;> simp)
@[simp] theorem State.fgWrote_gflt (s : State) (f : FgId) (l : Option Nat) (fn : Nat) : (s.fgWrote f l fn).flt = s.flt := by unfold State.fgWrote; first | rfl | (simp; done) | ((try dsimp only); (repeat' split) <;> simp)
@[simp] theorem State.fgWrote_gpwr (s : State) (f : FgId) (l : Option Nat) (fn : Nat) : (s.fgWrote f l fn).pwr = s.pwr := by unfold State.fgWrote; first | rfl | (simp; done) | ((try dsimp only); (repeat' split) <;> simp)
@[simp] theorem State.fgWrote_gusg (s : State) (f : FgId) (l : Option Nat) (fn : Nat) : (s.fgWrote f l fn).usg = s.usg := by unfold State.fgWrote; first | rfl | (simp; done) | ((try dsimp only); (repeat' split) <;> simp)
@[simp] theorem State.fgWrote_fn (s : State) (f : FgId) (l : Option Nat) (fn : Nat) (j' : FnId) : (s.fgWrote f l fn).fn j' = s.fn j' := by simp only [State.fn, State.fgWrote_ghost]
@[simp] theorem State.fgWrote_link (s : State) (f : FgId) (l : Option Nat) (fn : Nat) (j' : Nat) : (s.fgWrote f l fn).link j' = s.link j' := by simp only [State.link, State.fgWrote_ghost]
@[simp] theorem State.fgWrote_cuff (s : State) (f : FgId) (l : Option Nat) (fn : Nat) (j' : Nat) : (s.fgWrote f l fn).cuff j' = s.cuff j' := by simp only [State.cuff, State.fgWrote_ghost]
@[simp] theorem State.fgWrote_glove (s : State) (f : FgId) (l : Option Nat) (fn : Nat) (j' : Nat) : (s.fgWrote f l fn).glove j' = s.glove j' := by simp only [State.glove, State.fgWrote_gtrust]
@[simp] theorem State.fgWrote_slot (s : State) (f : FgId) (l : Option Nat) (fn : Nat) (j' : Nat) : (s.fgWrote f l fn).slot j' = s.slot j' := by simp only [State.slot, State.fgWrote_gtrust]
@[simp] theorem State.fgWrote_gate (s : State) (f : FgId) (l : Option Nat) (fn : Nat) (j' : Nat) : (s.fgWrote f l fn).gate j' = s.gate j' := by simp only [State.gate, State.fgWrote_gpool]
@[simp] theorem State.fgWrote_quad (s : State) (f : FgId) (l : Option Nat) (fn : Nat) (j' : Nat) : (s.fgWrote f l fn).quad j' = s.quad j' := by simp only [State.quad, State.fgWrote_gnet]
@[simp] theorem State.fgWrote_blink (s : State) (f : FgId) (l : Option Nat) (fn : Nat) (j' : Nat) : (s.fgWrote f l fn).blink j' = s.blink j' := by simp only [State.blink, State.fgWrote_gbasket]
@[simp] theorem State.fgWrote_peer (s : State) (f : FgId) (l : Option Nat) (fn : Nat) (j' : Nat) : (s.fgWrote f l fn).peer j' = s.peer j' := by simp only [State.peer, State.fgWrote_gbasket]
@[simp] theorem State.fgWrote_source (s : State) (f : FgId) (l : Option Nat) (fn : Nat) (j' : Nat) : (s.fgWrote f l fn).source j' = s.source j' := by simp only [State.source, State.fgWrote_gevt]
@[simp] theorem State.fgWrote_dom (s : State) (f : FgId) (l : Option Nat) (fn : Nat) (j' : Nat) : (s.fgWrote f l fn).dom j' = s.dom j' := by simp only [State.dom, State.fgWrote_gpwr]
@[simp] theorem State.fgWrote_usage (s : State) (f : FgId) (l : Option Nat) (fn : Nat) (j' : Nat) : (s.fgWrote f l fn).usage j' = s.usage j' := by simp only [State.usage, State.fgWrote_gusg]
@[simp] theorem State.fgWrote_unitFlt (s : State) (f : FgId) (l : Option Nat) (fn : Nat) (j' : Nat) : (s.fgWrote f l fn).unitFlt j' = s.unitFlt j' := by simp only [State.unitFlt, State.fgWrote_gflt]

@[simp] theorem State.fgBegin_gpending (s : State) (f : FgId) (t : Transfer) : (s.fgBegin f t).pending = s.pending := by unfold State.fgBegin; first | rfl | (simp; done) | ((try dsimp only); (repeat' split) <;> simp)
@[simp] theorem State.fgBegin_gout (s : State) (f : FgId) (t : Transfer) : (s.fgBegin f t).out = s.out := by unfold State.fgBegin; first | rfl | (simp; done) | ((try dsimp only); (repeat' split) <;> simp)
@[simp] theorem State.fgBegin_gsys (s : State) (f : FgId) (t : Transfer) : (s.fgBegin f t).sys = s.sys := by unfold State.fgBegin; first | rfl | (simp; done) | ((try dsimp only); (repeat' split) <;> simp)
@[simp] theorem State.fgBegin_gboot (s : State) (f : FgId) (t : Transfer) : (s.fgBegin f t).boot = s.boot := by unfold State.fgBegin; first | rfl | (simp; done) | ((try dsimp only); (repeat' split) <;> simp)
@[simp] theorem State.fgBegin_gtrust (s : State) (f : FgId) (t : Transfer) : (s.fgBegin f t).trust = s.trust := by unfold State.fgBegin; first | rfl | (simp; done) | ((try dsimp only); (repeat' split) <;> simp)
@[simp] theorem State.fgBegin_gpool (s : State) (f : FgId) (t : Transfer) : (s.fgBegin f t).pool = s.pool := by unfold State.fgBegin; first | rfl | (simp; done) | ((try dsimp only); (repeat' split) <;> simp)
@[simp] theorem State.fgBegin_gbasket (s : State) (f : FgId) (t : Transfer) : (s.fgBegin f t).basket = s.basket := by unfold State.fgBegin; first | rfl | (simp; done) | ((try dsimp only); (repeat' split) <;> simp)
@[simp] theorem State.fgBegin_gevt (s : State) (f : FgId) (t : Transfer) : (s.fgBegin f t).evt = s.evt := by unfold State.fgBegin; first | rfl | (simp; done) | ((try dsimp only); (repeat' split) <;> simp)
@[simp] theorem State.fgBegin_gflt (s : State) (f : FgId) (t : Transfer) : (s.fgBegin f t).flt = s.flt := by unfold State.fgBegin; first | rfl | (simp; done) | ((try dsimp only); (repeat' split) <;> simp)
@[simp] theorem State.fgBegin_gpwr (s : State) (f : FgId) (t : Transfer) : (s.fgBegin f t).pwr = s.pwr := by unfold State.fgBegin; first | rfl | (simp; done) | ((try dsimp only); (repeat' split) <;> simp)
@[simp] theorem State.fgBegin_gusg (s : State) (f : FgId) (t : Transfer) : (s.fgBegin f t).usg = s.usg := by unfold State.fgBegin; first | rfl | (simp; done) | ((try dsimp only); (repeat' split) <;> simp)
@[simp] theorem State.fgBegin_glove (s : State) (f : FgId) (t : Transfer) (j' : Nat) : (s.fgBegin f t).glove j' = s.glove j' := by simp only [State.glove, State.fgBegin_gtrust]
@[simp] theorem State.fgBegin_slot (s : State) (f : FgId) (t : Transfer) (j' : Nat) : (s.fgBegin f t).slot j' = s.slot j' := by simp only [State.slot, State.fgBegin_gtrust]
@[simp] theorem State.fgBegin_gate (s : State) (f : FgId) (t : Transfer) (j' : Nat) : (s.fgBegin f t).gate j' = s.gate j' := by simp only [State.gate, State.fgBegin_gpool]
@[simp] theorem State.fgBegin_blink (s : State) (f : FgId) (t : Transfer) (j' : Nat) : (s.fgBegin f t).blink j' = s.blink j' := by simp only [State.blink, State.fgBegin_gbasket]
@[simp] theorem State.fgBegin_peer (s : State) (f : FgId) (t : Transfer) (j' : Nat) : (s.fgBegin f t).peer j' = s.peer j' := by simp only [State.peer, State.fgBegin_gbasket]
@[simp] theorem State.fgBegin_source (s : State) (f : FgId) (t : Transfer) (j' : Nat) : (s.fgBegin f t).source j' = s.source j' := by simp only [State.source, State.fgBegin_gevt]
@[simp] theorem State.fgBegin_dom (s : State) (f : FgId) (t : Transfer) (j' : Nat) : (s.fgBegin f t).dom j' = s.dom j' := by simp only [State.dom, State.fgBegin_gpwr]
@[simp] theorem State.fgBegin_usage (s : State) (f : FgId) (t : Transfer) (j' : Nat) : (s.fgBegin f t).usage j' = s.usage j' := by simp only [State.usage, State.fgBegin_gusg]
@[simp] theorem State.fgBegin_unitFlt (s : State) (f : FgId) (t : Transfer) (j' : Nat) : (s.fgBegin f t).unitFlt j' = s.unitFlt j' := by simp only [State.unitFlt, State.fgBegin_gflt]

@[simp] theorem State.waitDone_gpending (s : State) (f : FgId) : (s.waitDone f).pending = s.pending := by simp [State.waitDone]
@[simp] theorem State.waitDone_gout (s : State) (f : FgId) : (s.waitDone f).out = s.out := by simp [State.waitDone]
@[simp] theorem State.waitDone_gsys (s : State) (f : FgId) : (s.waitDone f).sys = s.sys := by simp [State.waitDone]
@[simp] theorem State.waitDone_gboot (s : State) (f : FgId) : (s.waitDone f).boot = s.boot := by simp [State.waitDone]
@[simp] theorem State.waitDone_gtrust (s : State) (f : FgId) : (s.waitDone f).trust = s.trust := by simp [State.waitDone]
@[simp] theorem State.waitDone_gpool (s : State) (f : FgId) : (s.waitDone f).pool = s.pool := by simp [State.waitDone]
@[simp] theorem State.waitDone_gbasket (s : State) (f : FgId) : (s.waitDone f).basket = s.basket := by simp [State.waitDone]
@[simp] theorem State.waitDone_gevt (s : State) (f : FgId) : (s.waitDone f).evt = s.evt := by simp [State.waitDone]
@[simp] theorem State.waitDone_gflt (s : State) (f : FgId) : (s.waitDone f).flt = s.flt := by simp [State.waitDone]
@[simp] theorem State.waitDone_gpwr (s : State) (f : FgId) : (s.waitDone f).pwr = s.pwr := by simp [State.waitDone]
@[simp] theorem State.waitDone_gusg (s : State) (f : FgId) : (s.waitDone f).usg = s.usg := by simp [State.waitDone]
@[simp] theorem State.waitDone_glove (s : State) (f : FgId) (j' : Nat) : (s.waitDone f).glove j' = s.glove j' := by simp only [State.glove, State.waitDone_gtrust]
@[simp] theorem State.waitDone_slot (s : State) (f : FgId) (j' : Nat) : (s.waitDone f).slot j' = s.slot j' := by simp only [State.slot, State.waitDone_gtrust]
@[simp] theorem State.waitDone_gate (s : State) (f : FgId) (j' : Nat) : (s.waitDone f).gate j' = s.gate j' := by simp only [State.gate, State.waitDone_gpool]
@[simp] theorem State.waitDone_blink (s : State) (f : FgId) (j' : Nat) : (s.waitDone f).blink j' = s.blink j' := by simp only [State.blink, State.waitDone_gbasket]
@[simp] theorem State.waitDone_peer (s : State) (f : FgId) (j' : Nat) : (s.waitDone f).peer j' = s.peer j' := by simp only [State.peer, State.waitDone_gbasket]
@[simp] theorem State.waitDone_source (s : State) (f : FgId) (j' : Nat) : (s.waitDone f).source j' = s.source j' := by simp only [State.source, State.waitDone_gevt]
@[simp] theorem State.waitDone_dom (s : State) (f : FgId) (j' : Nat) : (s.waitDone f).dom j' = s.dom j' := by simp only [State.dom, State.waitDone_gpwr]
@[simp] theorem State.waitDone_usage (s : State) (f : FgId) (j' : Nat) : (s.waitDone f).usage j' = s.usage j' := by simp only [State.usage, State.waitDone_gusg]
@[simp] theorem State.waitDone_unitFlt (s : State) (f : FgId) (j' : Nat) : (s.waitDone f).unitFlt j' = s.unitFlt j' := by simp only [State.unitFlt, State.waitDone_gflt]

@[simp] theorem State.eventWake_gpending (s : State) (fn : FnId) (n : Nat) : (s.eventWake fn n).pending = s.pending := by induction n generalizing s with | zero => rfl | succ n ih => (unfold State.eventWake; dsimp only; split <;> first | rfl | (rw [ih]; simp))
@[simp] theorem State.eventWake_gout (s : State) (fn : FnId) (n : Nat) : (s.eventWake fn n).out = s.out := by induction n generalizing s with | zero => rfl | succ n ih => (unfold State.eventWake; dsimp only; split <;> first | rfl | (rw [ih]; simp))
@[simp] theorem State.eventWake_gsys (s : State) (fn : FnId) (n : Nat) : (s.eventWake fn n).sys = s.sys := by induction n generalizing s with | zero => rfl | succ n ih => (unfold State.eventWake; dsimp only; split <;> first | rfl | (rw [ih]; simp))
@[simp] theorem State.eventWake_gboot (s : State) (fn : FnId) (n : Nat) : (s.eventWake fn n).boot = s.boot := by induction n generalizing s with | zero => rfl | succ n ih => (unfold State.eventWake; dsimp only; split <;> first | rfl | (rw [ih]; simp))
@[simp] theorem State.eventWake_gtrust (s : State) (fn : FnId) (n : Nat) : (s.eventWake fn n).trust = s.trust := by induction n generalizing s with | zero => rfl | succ n ih => (unfold State.eventWake; dsimp only; split <;> first | rfl | (rw [ih]; simp))
@[simp] theorem State.eventWake_gpool (s : State) (fn : FnId) (n : Nat) : (s.eventWake fn n).pool = s.pool := by induction n generalizing s with | zero => rfl | succ n ih => (unfold State.eventWake; dsimp only; split <;> first | rfl | (rw [ih]; simp))
@[simp] theorem State.eventWake_gbasket (s : State) (fn : FnId) (n : Nat) : (s.eventWake fn n).basket = s.basket := by induction n generalizing s with | zero => rfl | succ n ih => (unfold State.eventWake; dsimp only; split <;> first | rfl | (rw [ih]; simp))
@[simp] theorem State.eventWake_gevt (s : State) (fn : FnId) (n : Nat) : (s.eventWake fn n).evt = s.evt := by induction n generalizing s with | zero => rfl | succ n ih => (unfold State.eventWake; dsimp only; split <;> first | rfl | (rw [ih]; simp))
@[simp] theorem State.eventWake_gflt (s : State) (fn : FnId) (n : Nat) : (s.eventWake fn n).flt = s.flt := by induction n generalizing s with | zero => rfl | succ n ih => (unfold State.eventWake; dsimp only; split <;> first | rfl | (rw [ih]; simp))
@[simp] theorem State.eventWake_gpwr (s : State) (fn : FnId) (n : Nat) : (s.eventWake fn n).pwr = s.pwr := by induction n generalizing s with | zero => rfl | succ n ih => (unfold State.eventWake; dsimp only; split <;> first | rfl | (rw [ih]; simp))
@[simp] theorem State.eventWake_gusg (s : State) (fn : FnId) (n : Nat) : (s.eventWake fn n).usg = s.usg := by induction n generalizing s with | zero => rfl | succ n ih => (unfold State.eventWake; dsimp only; split <;> first | rfl | (rw [ih]; simp))
@[simp] theorem State.eventWake_glove (s : State) (fn : FnId) (n : Nat) (j' : Nat) : (s.eventWake fn n).glove j' = s.glove j' := by simp only [State.glove, State.eventWake_gtrust]
@[simp] theorem State.eventWake_slot (s : State) (fn : FnId) (n : Nat) (j' : Nat) : (s.eventWake fn n).slot j' = s.slot j' := by simp only [State.slot, State.eventWake_gtrust]
@[simp] theorem State.eventWake_gate (s : State) (fn : FnId) (n : Nat) (j' : Nat) : (s.eventWake fn n).gate j' = s.gate j' := by simp only [State.gate, State.eventWake_gpool]
@[simp] theorem State.eventWake_blink (s : State) (fn : FnId) (n : Nat) (j' : Nat) : (s.eventWake fn n).blink j' = s.blink j' := by simp only [State.blink, State.eventWake_gbasket]
@[simp] theorem State.eventWake_peer (s : State) (fn : FnId) (n : Nat) (j' : Nat) : (s.eventWake fn n).peer j' = s.peer j' := by simp only [State.peer, State.eventWake_gbasket]
@[simp] theorem State.eventWake_source (s : State) (fn : FnId) (n : Nat) (j' : Nat) : (s.eventWake fn n).source j' = s.source j' := by simp only [State.source, State.eventWake_gevt]
@[simp] theorem State.eventWake_dom (s : State) (fn : FnId) (n : Nat) (j' : Nat) : (s.eventWake fn n).dom j' = s.dom j' := by simp only [State.dom, State.eventWake_gpwr]
@[simp] theorem State.eventWake_usage (s : State) (fn : FnId) (n : Nat) (j' : Nat) : (s.eventWake fn n).usage j' = s.usage j' := by simp only [State.usage, State.eventWake_gusg]
@[simp] theorem State.eventWake_unitFlt (s : State) (fn : FnId) (n : Nat) (j' : Nat) : (s.eventWake fn n).unitFlt j' = s.unitFlt j' := by simp only [State.unitFlt, State.eventWake_gflt]

@[simp] theorem State.setEvents_gpending (s : State) (fn : FnId) (b : BitVec 32) : (s.setEvents fn b).pending = s.pending := by simp [State.setEvents]
@[simp] theorem State.setEvents_gout (s : State) (fn : FnId) (b : BitVec 32) : (s.setEvents fn b).out = s.out := by simp [State.setEvents]
@[simp] theorem State.setEvents_gsys (s : State) (fn : FnId) (b : BitVec 32) : (s.setEvents fn b).sys = s.sys := by simp [State.setEvents]
@[simp] theorem State.setEvents_gboot (s : State) (fn : FnId) (b : BitVec 32) : (s.setEvents fn b).boot = s.boot := by simp [State.setEvents]
@[simp] theorem State.setEvents_gtrust (s : State) (fn : FnId) (b : BitVec 32) : (s.setEvents fn b).trust = s.trust := by simp [State.setEvents]
@[simp] theorem State.setEvents_gpool (s : State) (fn : FnId) (b : BitVec 32) : (s.setEvents fn b).pool = s.pool := by simp [State.setEvents]
@[simp] theorem State.setEvents_gbasket (s : State) (fn : FnId) (b : BitVec 32) : (s.setEvents fn b).basket = s.basket := by simp [State.setEvents]
@[simp] theorem State.setEvents_gevt (s : State) (fn : FnId) (b : BitVec 32) : (s.setEvents fn b).evt = s.evt := by simp [State.setEvents]
@[simp] theorem State.setEvents_gflt (s : State) (fn : FnId) (b : BitVec 32) : (s.setEvents fn b).flt = s.flt := by simp [State.setEvents]
@[simp] theorem State.setEvents_gpwr (s : State) (fn : FnId) (b : BitVec 32) : (s.setEvents fn b).pwr = s.pwr := by simp [State.setEvents]
@[simp] theorem State.setEvents_gusg (s : State) (fn : FnId) (b : BitVec 32) : (s.setEvents fn b).usg = s.usg := by simp [State.setEvents]
@[simp] theorem State.setEvents_glove (s : State) (fn : FnId) (b : BitVec 32) (j' : Nat) : (s.setEvents fn b).glove j' = s.glove j' := by simp only [State.glove, State.setEvents_gtrust]
@[simp] theorem State.setEvents_slot (s : State) (fn : FnId) (b : BitVec 32) (j' : Nat) : (s.setEvents fn b).slot j' = s.slot j' := by simp only [State.slot, State.setEvents_gtrust]
@[simp] theorem State.setEvents_gate (s : State) (fn : FnId) (b : BitVec 32) (j' : Nat) : (s.setEvents fn b).gate j' = s.gate j' := by simp only [State.gate, State.setEvents_gpool]
@[simp] theorem State.setEvents_blink (s : State) (fn : FnId) (b : BitVec 32) (j' : Nat) : (s.setEvents fn b).blink j' = s.blink j' := by simp only [State.blink, State.setEvents_gbasket]
@[simp] theorem State.setEvents_peer (s : State) (fn : FnId) (b : BitVec 32) (j' : Nat) : (s.setEvents fn b).peer j' = s.peer j' := by simp only [State.peer, State.setEvents_gbasket]
@[simp] theorem State.setEvents_source (s : State) (fn : FnId) (b : BitVec 32) (j' : Nat) : (s.setEvents fn b).source j' = s.source j' := by simp only [State.source, State.setEvents_gevt]
@[simp] theorem State.setEvents_dom (s : State) (fn : FnId) (b : BitVec 32) (j' : Nat) : (s.setEvents fn b).dom j' = s.dom j' := by simp only [State.dom, State.setEvents_gpwr]
@[simp] theorem State.setEvents_usage (s : State) (fn : FnId) (b : BitVec 32) (j' : Nat) : (s.setEvents fn b).usage j' = s.usage j' := by simp only [State.usage, State.setEvents_gusg]
@[simp] theorem State.setEvents_unitFlt (s : State) (fn : FnId) (b : BitVec 32) (j' : Nat) : (s.setEvents fn b).unitFlt j' = s.unitFlt j' := by simp only [State.unitFlt, State.setEvents_gflt]

@[simp] theorem State.beginWait_gpending (s : State) (f : FgId) (w : Waiting) : (s.beginWait f w).pending = s.pending := by unfold State.beginWait; first | rfl | (simp; done) | ((try dsimp only); (repeat' split) <;> simp)
@[simp] theorem State.beginWait_gout (s : State) (f : FgId) (w : Waiting) : (s.beginWait f w).out = s.out := by unfold State.beginWait; first | rfl | (simp; done) | ((try dsimp only); (repeat' split) <;> simp)
@[simp] theorem State.beginWait_gsys (s : State) (f : FgId) (w : Waiting) : (s.beginWait f w).sys = s.sys := by unfold State.beginWait; first | rfl | (simp; done) | ((try dsimp only); (repeat' split) <;> simp)
@[simp] theorem State.beginWait_gboot (s : State) (f : FgId) (w : Waiting) : (s.beginWait f w).boot = s.boot := by unfold State.beginWait; first | rfl | (simp; done) | ((try dsimp only); (repeat' split) <;> simp)
@[simp] theorem State.beginWait_gtrust (s : State) (f : FgId) (w : Waiting) : (s.beginWait f w).trust = s.trust := by unfold State.beginWait; first | rfl | (simp; done) | ((try dsimp only); (repeat' split) <;> simp)
@[simp] theorem State.beginWait_gpool (s : State) (f : FgId) (w : Waiting) : (s.beginWait f w).pool = s.pool := by unfold State.beginWait; first | rfl | (simp; done) | ((try dsimp only); (repeat' split) <;> simp)
@[simp] theorem State.beginWait_gbasket (s : State) (f : FgId) (w : Waiting) : (s.beginWait f w).basket = s.basket := by unfold State.beginWait; first | rfl | (simp; done) | ((try dsimp only); (repeat' split) <;> simp)
@[simp] theorem State.beginWait_gevt (s : State) (f : FgId) (w : Waiting) : (s.beginWait f w).evt = s.evt := by unfold State.beginWait; first | rfl | (simp; done) | ((try dsimp only); (repeat' split) <;> simp)
@[simp] theorem State.beginWait_gflt (s : State) (f : FgId) (w : Waiting) : (s.beginWait f w).flt = s.flt := by unfold State.beginWait; first | rfl | (simp; done) | ((try dsimp only); (repeat' split) <;> simp)
@[simp] theorem State.beginWait_gpwr (s : State) (f : FgId) (w : Waiting) : (s.beginWait f w).pwr = s.pwr := by unfold State.beginWait; first | rfl | (simp; done) | ((try dsimp only); (repeat' split) <;> simp)
@[simp] theorem State.beginWait_gusg (s : State) (f : FgId) (w : Waiting) : (s.beginWait f w).usg = s.usg := by unfold State.beginWait; first | rfl | (simp; done) | ((try dsimp only); (repeat' split) <;> simp)
@[simp] theorem State.beginWait_glove (s : State) (f : FgId) (w : Waiting) (j' : Nat) : (s.beginWait f w).glove j' = s.glove j' := by simp only [State.glove, State.beginWait_gtrust]
@[simp] theorem State.beginWait_slot (s : State) (f : FgId) (w : Waiting) (j' : Nat) : (s.beginWait f w).slot j' = s.slot j' := by simp only [State.slot, State.beginWait_gtrust]
@[simp] theorem State.beginWait_gate (s : State) (f : FgId) (w : Waiting) (j' : Nat) : (s.beginWait f w).gate j' = s.gate j' := by simp only [State.gate, State.beginWait_gpool]
@[simp] theorem State.beginWait_blink (s : State) (f : FgId) (w : Waiting) (j' : Nat) : (s.beginWait f w).blink j' = s.blink j' := by simp only [State.blink, State.beginWait_gbasket]
@[simp] theorem State.beginWait_peer (s : State) (f : FgId) (w : Waiting) (j' : Nat) : (s.beginWait f w).peer j' = s.peer j' := by simp only [State.peer, State.beginWait_gbasket]
@[simp] theorem State.beginWait_source (s : State) (f : FgId) (w : Waiting) (j' : Nat) : (s.beginWait f w).source j' = s.source j' := by simp only [State.source, State.beginWait_gevt]
@[simp] theorem State.beginWait_dom (s : State) (f : FgId) (w : Waiting) (j' : Nat) : (s.beginWait f w).dom j' = s.dom j' := by simp only [State.dom, State.beginWait_gpwr]
@[simp] theorem State.beginWait_usage (s : State) (f : FgId) (w : Waiting) (j' : Nat) : (s.beginWait f w).usage j' = s.usage j' := by simp only [State.usage, State.beginWait_gusg]
@[simp] theorem State.beginWait_unitFlt (s : State) (f : FgId) (w : Waiting) (j' : Nat) : (s.beginWait f w).unitFlt j' = s.unitFlt j' := by simp only [State.unitFlt, State.beginWait_gflt]

@[simp] theorem State.signalEnd_gpending (s : State) (f : FgId) : (s.signalEnd f).pending = s.pending := by unfold State.signalEnd; first | rfl | (simp; done) | ((try dsimp only); (repeat' split) <;> simp)
@[simp] theorem State.signalEnd_gout (s : State) (f : FgId) : (s.signalEnd f).out = s.out := by unfold State.signalEnd; first | rfl | (simp; done) | ((try dsimp only); (repeat' split) <;> simp)
@[simp] theorem State.signalEnd_gsys (s : State) (f : FgId) : (s.signalEnd f).sys = s.sys := by unfold State.signalEnd; first | rfl | (simp; done) | ((try dsimp only); (repeat' split) <;> simp)
@[simp] theorem State.signalEnd_gboot (s : State) (f : FgId) : (s.signalEnd f).boot = s.boot := by unfold State.signalEnd; first | rfl | (simp; done) | ((try dsimp only); (repeat' split) <;> simp)
@[simp] theorem State.signalEnd_gtrust (s : State) (f : FgId) : (s.signalEnd f).trust = s.trust := by unfold State.signalEnd; first | rfl | (simp; done) | ((try dsimp only); (repeat' split) <;> simp)
@[simp] theorem State.signalEnd_gpool (s : State) (f : FgId) : (s.signalEnd f).pool = s.pool := by unfold State.signalEnd; first | rfl | (simp; done) | ((try dsimp only); (repeat' split) <;> simp)
@[simp] theorem State.signalEnd_gbasket (s : State) (f : FgId) : (s.signalEnd f).basket = s.basket := by unfold State.signalEnd; first | rfl | (simp; done) | ((try dsimp only); (repeat' split) <;> simp)
@[simp] theorem State.signalEnd_gevt (s : State) (f : FgId) : (s.signalEnd f).evt = s.evt := by unfold State.signalEnd; first | rfl | (simp; done) | ((try dsimp only); (repeat' split) <;> simp)
@[simp] theorem State.signalEnd_gflt (s : State) (f : FgId) : (s.signalEnd f).flt = s.flt := by unfold State.signalEnd; first | rfl | (simp; done) | ((try dsimp only); (repeat' split) <;> simp)
@[simp] theorem State.signalEnd_gpwr (s : State) (f : FgId) : (s.signalEnd f).pwr = s.pwr := by unfold State.signalEnd; first | rfl | (simp; done) | ((try dsimp only); (repeat' split) <;> simp)
@[simp] theorem State.signalEnd_gusg (s : State) (f : FgId) : (s.signalEnd f).usg = s.usg := by unfold State.signalEnd; first | rfl | (simp; done) | ((try dsimp only); (repeat' split) <;> simp)
@[simp] theorem State.signalEnd_glove (s : State) (f : FgId) (j' : Nat) : (s.signalEnd f).glove j' = s.glove j' := by simp only [State.glove, State.signalEnd_gtrust]
@[simp] theorem State.signalEnd_slot (s : State) (f : FgId) (j' : Nat) : (s.signalEnd f).slot j' = s.slot j' := by simp only [State.slot, State.signalEnd_gtrust]
@[simp] theorem State.signalEnd_gate (s : State) (f : FgId) (j' : Nat) : (s.signalEnd f).gate j' = s.gate j' := by simp only [State.gate, State.signalEnd_gpool]
@[simp] theorem State.signalEnd_blink (s : State) (f : FgId) (j' : Nat) : (s.signalEnd f).blink j' = s.blink j' := by simp only [State.blink, State.signalEnd_gbasket]
@[simp] theorem State.signalEnd_peer (s : State) (f : FgId) (j' : Nat) : (s.signalEnd f).peer j' = s.peer j' := by simp only [State.peer, State.signalEnd_gbasket]
@[simp] theorem State.signalEnd_source (s : State) (f : FgId) (j' : Nat) : (s.signalEnd f).source j' = s.source j' := by simp only [State.source, State.signalEnd_gevt]
@[simp] theorem State.signalEnd_dom (s : State) (f : FgId) (j' : Nat) : (s.signalEnd f).dom j' = s.dom j' := by simp only [State.dom, State.signalEnd_gpwr]
@[simp] theorem State.signalEnd_usage (s : State) (f : FgId) (j' : Nat) : (s.signalEnd f).usage j' = s.usage j' := by simp only [State.usage, State.signalEnd_gusg]
@[simp] theorem State.signalEnd_unitFlt (s : State) (f : FgId) (j' : Nat) : (s.signalEnd f).unitFlt j' = s.unitFlt j' := by simp only [State.unitFlt, State.signalEnd_gflt]

@[simp] theorem State.usagePages_gpending (s : State) (g n : Nat) : (s.usagePages g n).pending = s.pending := by simp [State.usagePages]
@[simp] theorem State.usagePages_gout (s : State) (g n : Nat) : (s.usagePages g n).out = s.out := by simp [State.usagePages]
@[simp] theorem State.usagePages_gsys (s : State) (g n : Nat) : (s.usagePages g n).sys = s.sys := by simp [State.usagePages]
@[simp] theorem State.usagePages_gboot (s : State) (g n : Nat) : (s.usagePages g n).boot = s.boot := by simp [State.usagePages]
@[simp] theorem State.usagePages_gtrust (s : State) (g n : Nat) : (s.usagePages g n).trust = s.trust := by simp [State.usagePages]
@[simp] theorem State.usagePages_ghost (s : State) (g n : Nat) : (s.usagePages g n).host = s.host := by simp [State.usagePages]
@[simp] theorem State.usagePages_gwork (s : State) (g n : Nat) : (s.usagePages g n).work = s.work := by simp [State.usagePages]
@[simp] theorem State.usagePages_gpool (s : State) (g n : Nat) : (s.usagePages g n).pool = s.pool := by simp [State.usagePages]
@[simp] theorem State.usagePages_gnet (s : State) (g n : Nat) : (s.usagePages g n).net = s.net := by simp [State.usagePages]
@[simp] theorem State.usagePages_gbasket (s : State) (g n : Nat) : (s.usagePages g n).basket = s.basket := by simp [State.usagePages]
@[simp] theorem State.usagePages_gevt (s : State) (g n : Nat) : (s.usagePages g n).evt = s.evt := by simp [State.usagePages]
@[simp] theorem State.usagePages_gflt (s : State) (g n : Nat) : (s.usagePages g n).flt = s.flt := by simp [State.usagePages]
@[simp] theorem State.usagePages_gpwr (s : State) (g n : Nat) : (s.usagePages g n).pwr = s.pwr := by simp [State.usagePages]
@[simp] theorem State.usagePages_fn (s : State) (g n : Nat) (j' : FnId) : (s.usagePages g n).fn j' = s.fn j' := by simp only [State.fn, State.usagePages_ghost]
@[simp] theorem State.usagePages_link (s : State) (g n : Nat) (j' : Nat) : (s.usagePages g n).link j' = s.link j' := by simp only [State.link, State.usagePages_ghost]
@[simp] theorem State.usagePages_cuff (s : State) (g n : Nat) (j' : Nat) : (s.usagePages g n).cuff j' = s.cuff j' := by simp only [State.cuff, State.usagePages_ghost]
@[simp] theorem State.usagePages_glove (s : State) (g n : Nat) (j' : Nat) : (s.usagePages g n).glove j' = s.glove j' := by simp only [State.glove, State.usagePages_gtrust]
@[simp] theorem State.usagePages_slot (s : State) (g n : Nat) (j' : Nat) : (s.usagePages g n).slot j' = s.slot j' := by simp only [State.slot, State.usagePages_gtrust]
@[simp] theorem State.usagePages_queue (s : State) (g n : Nat) (j' : QId) : (s.usagePages g n).queue j' = s.queue j' := by simp only [State.queue, State.usagePages_gwork]
@[simp] theorem State.usagePages_finger (s : State) (g n : Nat) (j' : FgId) : (s.usagePages g n).finger j' = s.finger j' := by simp only [State.finger, State.usagePages_gwork]
@[simp] theorem State.usagePages_gate (s : State) (g n : Nat) (j' : Nat) : (s.usagePages g n).gate j' = s.gate j' := by simp only [State.gate, State.usagePages_gpool]
@[simp] theorem State.usagePages_quad (s : State) (g n : Nat) (j' : Nat) : (s.usagePages g n).quad j' = s.quad j' := by simp only [State.quad, State.usagePages_gnet]
@[simp] theorem State.usagePages_blink (s : State) (g n : Nat) (j' : Nat) : (s.usagePages g n).blink j' = s.blink j' := by simp only [State.blink, State.usagePages_gbasket]
@[simp] theorem State.usagePages_peer (s : State) (g n : Nat) (j' : Nat) : (s.usagePages g n).peer j' = s.peer j' := by simp only [State.peer, State.usagePages_gbasket]
@[simp] theorem State.usagePages_source (s : State) (g n : Nat) (j' : Nat) : (s.usagePages g n).source j' = s.source j' := by simp only [State.source, State.usagePages_gevt]
@[simp] theorem State.usagePages_dom (s : State) (g n : Nat) (j' : Nat) : (s.usagePages g n).dom j' = s.dom j' := by simp only [State.dom, State.usagePages_gpwr]
@[simp] theorem State.usagePages_unitFlt (s : State) (g n : Nat) (j' : Nat) : (s.usagePages g n).unitFlt j' = s.unitFlt j' := by simp only [State.unitFlt, State.usagePages_gflt]

@[simp] theorem State.refuseWith_gpending (s : State) (o : Origin) (code result : Nat) : (s.refuseWith o code result).pending = s.pending := by simp [State.refuseWith]
@[simp] theorem State.refuseWith_gout (s : State) (o : Origin) (code result : Nat) : (s.refuseWith o code result).out = s.out := by simp [State.refuseWith]
@[simp] theorem State.refuseWith_gsys (s : State) (o : Origin) (code result : Nat) : (s.refuseWith o code result).sys = s.sys := by simp [State.refuseWith]
@[simp] theorem State.refuseWith_gboot (s : State) (o : Origin) (code result : Nat) : (s.refuseWith o code result).boot = s.boot := by simp [State.refuseWith]
@[simp] theorem State.refuseWith_gtrust (s : State) (o : Origin) (code result : Nat) : (s.refuseWith o code result).trust = s.trust := by simp [State.refuseWith]
@[simp] theorem State.refuseWith_gpool (s : State) (o : Origin) (code result : Nat) : (s.refuseWith o code result).pool = s.pool := by simp [State.refuseWith]
@[simp] theorem State.refuseWith_gnet (s : State) (o : Origin) (code result : Nat) : (s.refuseWith o code result).net = s.net := by simp [State.refuseWith]
@[simp] theorem State.refuseWith_gbasket (s : State) (o : Origin) (code result : Nat) : (s.refuseWith o code result).basket = s.basket := by simp [State.refuseWith]
@[simp] theorem State.refuseWith_gevt (s : State) (o : Origin) (code result : Nat) : (s.refuseWith o code result).evt = s.evt := by simp [State.refuseWith]
@[simp] theorem State.refuseWith_gflt (s : State) (o : Origin) (code result : Nat) : (s.refuseWith o code result).flt = s.flt := by simp [State.refuseWith]
@[simp] theorem State.refuseWith_gpwr (s : State) (o : Origin) (code result : Nat) : (s.refuseWith o code result).pwr = s.pwr := by simp [State.refuseWith]
@[simp] theorem State.refuseWith_gusg (s : State) (o : Origin) (code result : Nat) : (s.refuseWith o code result).usg = s.usg := by simp [State.refuseWith]
@[simp] theorem State.refuseWith_glove (s : State) (o : Origin) (code result : Nat) (j' : Nat) : (s.refuseWith o code result).glove j' = s.glove j' := by simp only [State.glove, State.refuseWith_gtrust]
@[simp] theorem State.refuseWith_slot (s : State) (o : Origin) (code result : Nat) (j' : Nat) : (s.refuseWith o code result).slot j' = s.slot j' := by simp only [State.slot, State.refuseWith_gtrust]
@[simp] theorem State.refuseWith_gate (s : State) (o : Origin) (code result : Nat) (j' : Nat) : (s.refuseWith o code result).gate j' = s.gate j' := by simp only [State.gate, State.refuseWith_gpool]
@[simp] theorem State.refuseWith_quad (s : State) (o : Origin) (code result : Nat) (j' : Nat) : (s.refuseWith o code result).quad j' = s.quad j' := by simp only [State.quad, State.refuseWith_gnet]
@[simp] theorem State.refuseWith_blink (s : State) (o : Origin) (code result : Nat) (j' : Nat) : (s.refuseWith o code result).blink j' = s.blink j' := by simp only [State.blink, State.refuseWith_gbasket]
@[simp] theorem State.refuseWith_peer (s : State) (o : Origin) (code result : Nat) (j' : Nat) : (s.refuseWith o code result).peer j' = s.peer j' := by simp only [State.peer, State.refuseWith_gbasket]
@[simp] theorem State.refuseWith_source (s : State) (o : Origin) (code result : Nat) (j' : Nat) : (s.refuseWith o code result).source j' = s.source j' := by simp only [State.source, State.refuseWith_gevt]
@[simp] theorem State.refuseWith_dom (s : State) (o : Origin) (code result : Nat) (j' : Nat) : (s.refuseWith o code result).dom j' = s.dom j' := by simp only [State.dom, State.refuseWith_gpwr]
@[simp] theorem State.refuseWith_usage (s : State) (o : Origin) (code result : Nat) (j' : Nat) : (s.refuseWith o code result).usage j' = s.usage j' := by simp only [State.usage, State.refuseWith_gusg]
@[simp] theorem State.refuseWith_unitFlt (s : State) (o : Origin) (code result : Nat) (j' : Nat) : (s.refuseWith o code result).unitFlt j' = s.unitFlt j' := by simp only [State.unitFlt, State.refuseWith_gflt]

end Sys2Proof.Machine
end

