-- ==== Sys2Proof/Laws/Kept.lean ====
section
/-! SUPPORT. The part of the state that nearly no command changes: the queue, the flash and its buffer, the fused signer, the rollback
floors and the channels' DRAM. `State.kept` shows that part; `Kept.le` says how a command may move it. -/

namespace Sys2Proof.Machine

/-- What `State.kept` shows. -/
structure Kept where
  pending : List Instr
  flash : Memory
  rcvBuf : Memory
  signer : Option Digest
  patternFloor : Nat
  ucodeFloor : Nat
  ddr : Memory

def State.kept (s : State) : Kept :=
  { pending := s.pending, flash := s.boot.flash, rcvBuf := s.boot.rcvBuf, signer := s.boot.signer
    patternFloor := s.boot.mram.patternFloor, ucodeFloor := s.boot.mram.ucodeFloor, ddr := s.pool.ddr }

/-- Memories stay canonical, a fused signer stays, and the floors do not fall; the queue is the same. -/
structure Kept.le (a b : Kept) : Prop where
  pending : b.pending = a.pending
  flash : Memory.wf 0xFF a.flash = true → Memory.wf 0xFF b.flash = true
  rcvBuf : Memory.wf 0 a.rcvBuf = true → Memory.wf 0 b.rcvBuf = true
  signer : a.signer.isSome = true → b.signer = a.signer
  patternFloor : a.patternFloor ≤ b.patternFloor
  ucodeFloor : a.ucodeFloor ≤ b.ucodeFloor
  ddr : Memory.wf 0 a.ddr = true → Memory.wf 0 b.ddr = true

@[simp] theorem Kept.le_refl (a : Kept) : a.le a := ⟨rfl, id, id, fun _ => rfl, le_rfl, le_rfl, id⟩

theorem Kept.le_trans {a b c : Kept} (h : a.le b) (k : b.le c) : a.le c :=
  ⟨k.pending.trans h.pending, k.flash ∘ h.flash, k.rcvBuf ∘ h.rcvBuf,
    fun x => (k.signer (by rw [h.signer x]; exact x)).trans (h.signer x), h.patternFloor.trans k.patternFloor,
    h.ucodeFloor.trans k.ucodeFloor, k.ddr ∘ h.ddr⟩

/-- An update outside `boot` and `pool`. -/
@[simp] theorem State.kept_mk (s : State) (o y t h w n b e f p u) :
    (State.mk s.pending o y s.boot t h w s.pool n b e f p u).kept = s.kept := rfl

/-- An update of `pool` outside the DRAM. -/
@[simp] theorem State.kept_mkPool (s : State) (o y t h w n b e f p u) (a1 a2 a3 a4 a5 a6 a7 a8 a9 a10 a11 a12 a13 a14 a15 a16) :
    (State.mk s.pending o y s.boot t h w
      (Pool.mk a1 a2 a3 a4 a5 a6 a7 s.pool.ddr a8 a9 a10 a11 a12 a13 a14 a15 a16) n b e f p u).kept = s.kept := rfl

/-- The DRAM after an update of a gate. -/
@[simp] theorem State.modGate_ddr (s : State) (g : Nat) (m : Gate → Gate) : (s.modGate g m).pool.ddr = s.pool.ddr := rfl

/-- An update of a gate and of other parts. -/
@[simp] theorem State.kept_mkGate (s : State) (g : Nat) (m : Gate → Gate) (o y t h w n b e f p u) :
    (State.mk s.pending o y s.boot t h w (s.modGate g m).pool n b e f p u).kept = s.kept := rfl

/-- An update of `boot` outside the flash, its buffer, the signer and the floors. -/
@[simp] theorem State.kept_mkBoot (s : State) (o y t h w n b e f p u) (a1 a2 a3 a4 a5 a6 a7 a8 a9 a10 a11 a12 a13) :
    (State.mk s.pending o y (Boot.mk a1 a2 a3 a4 a5 a6 s.boot.mram s.boot.signer s.boot.flash a7 a8 a9 a10 s.boot.rcvBuf a11 a12 a13)
      t h w s.pool n b e f p u).kept = s.kept := rfl

/-- An update of the MRAM outside the floors. -/
@[simp] theorem State.kept_mkMram (s : State) (o y t h w n b e f p u) (a1 a2 a3 a4 a5 a6 a7 a8 a9 a10 a11 a12 a13) (m1 m2 m3 m4 m5) :
    (State.mk s.pending o y (Boot.mk a1 a2 a3 a4 a5 a6 (Mram.mk s.boot.mram.patternFloor s.boot.mram.ucodeFloor m1 m2 m3 m4 m5)
      s.boot.signer s.boot.flash a7 a8 a9 a10 s.boot.rcvBuf a11 a12 a13) t h w s.pool n b e f p u).kept = s.kept := rfl

/-- Both arms of a choice. -/
@[simp] theorem State.kept_ite (c : Prop) [Decidable c] (a b : State) : (if c then a else b).kept = if c then a.kept else b.kept :=
  apply_ite State.kept c a b

theorem foldl_kept {α : Type} (g : State → α → State) (h : ∀ s x, (g s x).kept = s.kept) (l : List α) (s : State) :
    (l.foldl g s).kept = s.kept := by
  induction l generalizing s with
  | nil => rfl
  | cons x l ih => rw [List.foldl_cons, ih, h]

end Sys2Proof.Machine
end

