-- ==== Sys2Proof/Laws/KeptOps.lean ====
section
/-! SUPPORT. The kept part of the state under the operations of Machine/Ops.lean. -/

namespace Sys2Proof.Machine

@[simp] theorem State.modFn_kept (s : State) (f : FnId) (m : Fn → Fn) :
    (State.modFn s f m).kept = s.kept := by
  unfold State.modFn
  (repeat' split) <;> first
    | (simp [foldl_kept]; done)
    | (rw [foldl_kept _ (fun s x => by (repeat' split) <;> first | (simp [foldl_kept]; done) | (simp_all; done))]; done)
    | (rw [foldl_kept _ (fun s x => by (repeat' split) <;> first | (simp [foldl_kept]; done) | (simp_all; done))]; simp; done)
    | (simp_all; done)

@[simp] theorem State.modLink_kept (s : State) (l : Nat) (m : Link → Link) :
    (State.modLink s l m).kept = s.kept := by
  unfold State.modLink
  (repeat' split) <;> first
    | (simp [foldl_kept]; done)
    | (rw [foldl_kept _ (fun s x => by (repeat' split) <;> first | (simp [foldl_kept]; done) | (simp_all; done))]; done)
    | (rw [foldl_kept _ (fun s x => by (repeat' split) <;> first | (simp [foldl_kept]; done) | (simp_all; done))]; simp; done)
    | (simp_all; done)

@[simp] theorem State.modCuff_kept (s : State) (c : Nat) (m : Cuff → Cuff) :
    (State.modCuff s c m).kept = s.kept := by
  unfold State.modCuff
  (repeat' split) <;> first
    | (simp [foldl_kept]; done)
    | (rw [foldl_kept _ (fun s x => by (repeat' split) <;> first | (simp [foldl_kept]; done) | (simp_all; done))]; done)
    | (rw [foldl_kept _ (fun s x => by (repeat' split) <;> first | (simp [foldl_kept]; done) | (simp_all; done))]; simp; done)
    | (simp_all; done)

@[simp] theorem State.modGlove_kept (s : State) (g : Nat) (m : Glove → Glove) :
    (State.modGlove s g m).kept = s.kept := by
  unfold State.modGlove
  (repeat' split) <;> first
    | (simp [foldl_kept]; done)
    | (rw [foldl_kept _ (fun s x => by (repeat' split) <;> first | (simp [foldl_kept]; done) | (simp_all; done))]; done)
    | (rw [foldl_kept _ (fun s x => by (repeat' split) <;> first | (simp [foldl_kept]; done) | (simp_all; done))]; simp; done)
    | (simp_all; done)

@[simp] theorem State.modSlot_kept (s : State) (b : Nat) (m : BandSlot → BandSlot) :
    (State.modSlot s b m).kept = s.kept := by
  unfold State.modSlot
  (repeat' split) <;> first
    | (simp [foldl_kept]; done)
    | (rw [foldl_kept _ (fun s x => by (repeat' split) <;> first | (simp [foldl_kept]; done) | (simp_all; done))]; done)
    | (rw [foldl_kept _ (fun s x => by (repeat' split) <;> first | (simp [foldl_kept]; done) | (simp_all; done))]; simp; done)
    | (simp_all; done)

@[simp] theorem State.modQueue_kept (s : State) (q : QId) (m : Queue → Queue) :
    (State.modQueue s q m).kept = s.kept := by
  unfold State.modQueue
  (repeat' split) <;> first
    | (simp [foldl_kept]; done)
    | (rw [foldl_kept _ (fun s x => by (repeat' split) <;> first | (simp [foldl_kept]; done) | (simp_all; done))]; done)
    | (rw [foldl_kept _ (fun s x => by (repeat' split) <;> first | (simp [foldl_kept]; done) | (simp_all; done))]; simp; done)
    | (simp_all; done)

@[simp] theorem State.modFinger_kept (s : State) (f : FgId) (m : Finger → Finger) :
    (State.modFinger s f m).kept = s.kept := by
  unfold State.modFinger
  (repeat' split) <;> first
    | (simp [foldl_kept]; done)
    | (rw [foldl_kept _ (fun s x => by (repeat' split) <;> first | (simp [foldl_kept]; done) | (simp_all; done))]; done)
    | (rw [foldl_kept _ (fun s x => by (repeat' split) <;> first | (simp [foldl_kept]; done) | (simp_all; done))]; simp; done)
    | (simp_all; done)

@[simp] theorem State.modGate_kept (s : State) (g : Nat) (m : Gate → Gate) :
    (State.modGate s g m).kept = s.kept := by
  unfold State.modGate
  (repeat' split) <;> first
    | (simp [foldl_kept]; done)
    | (rw [foldl_kept _ (fun s x => by (repeat' split) <;> first | (simp [foldl_kept]; done) | (simp_all; done))]; done)
    | (rw [foldl_kept _ (fun s x => by (repeat' split) <;> first | (simp [foldl_kept]; done) | (simp_all; done))]; simp; done)
    | (simp_all; done)

@[simp] theorem State.modQuad_kept (s : State) (q : Nat) (m : Quad → Quad) :
    (State.modQuad s q m).kept = s.kept := by
  unfold State.modQuad
  (repeat' split) <;> first
    | (simp [foldl_kept]; done)
    | (rw [foldl_kept _ (fun s x => by (repeat' split) <;> first | (simp [foldl_kept]; done) | (simp_all; done))]; done)
    | (rw [foldl_kept _ (fun s x => by (repeat' split) <;> first | (simp [foldl_kept]; done) | (simp_all; done))]; simp; done)
    | (simp_all; done)

@[simp] theorem State.modBlink_kept (s : State) (l : Nat) (m : BLink → BLink) :
    (State.modBlink s l m).kept = s.kept := by
  unfold State.modBlink
  (repeat' split) <;> first
    | (simp [foldl_kept]; done)
    | (rw [foldl_kept _ (fun s x => by (repeat' split) <;> first | (simp [foldl_kept]; done) | (simp_all; done))]; done)
    | (rw [foldl_kept _ (fun s x => by (repeat' split) <;> first | (simp [foldl_kept]; done) | (simp_all; done))]; simp; done)
    | (simp_all; done)

@[simp] theorem State.modPeer_kept (s : State) (n : Nat) (m : Peer → Peer) :
    (State.modPeer s n m).kept = s.kept := by
  unfold State.modPeer
  (repeat' split) <;> first
    | (simp [foldl_kept]; done)
    | (rw [foldl_kept _ (fun s x => by (repeat' split) <;> first | (simp [foldl_kept]; done) | (simp_all; done))]; done)
    | (rw [foldl_kept _ (fun s x => by (repeat' split) <;> first | (simp [foldl_kept]; done) | (simp_all; done))]; simp; done)
    | (simp_all; done)

@[simp] theorem State.modSource_kept (s : State) (i : Nat) (m : Source → Source) :
    (State.modSource s i m).kept = s.kept := by
  unfold State.modSource
  (repeat' split) <;> first
    | (simp [foldl_kept]; done)
    | (rw [foldl_kept _ (fun s x => by (repeat' split) <;> first | (simp [foldl_kept]; done) | (simp_all; done))]; done)
    | (rw [foldl_kept _ (fun s x => by (repeat' split) <;> first | (simp [foldl_kept]; done) | (simp_all; done))]; simp; done)
    | (simp_all; done)

@[simp] theorem State.modDom_kept (s : State) (d : Nat) (m : Dom → Dom) :
    (State.modDom s d m).kept = s.kept := by
  unfold State.modDom
  (repeat' split) <;> first
    | (simp [foldl_kept]; done)
    | (rw [foldl_kept _ (fun s x => by (repeat' split) <;> first | (simp [foldl_kept]; done) | (simp_all; done))]; done)
    | (rw [foldl_kept _ (fun s x => by (repeat' split) <;> first | (simp [foldl_kept]; done) | (simp_all; done))]; simp; done)
    | (simp_all; done)

@[simp] theorem State.modPace_kept (s : State) (m : Pace → Pace) :
    (State.modPace s m).kept = s.kept := by
  unfold State.modPace
  (repeat' split) <;> first
    | (simp [foldl_kept]; done)
    | (rw [foldl_kept _ (fun s x => by (repeat' split) <;> first | (simp [foldl_kept]; done) | (simp_all; done))]; done)
    | (rw [foldl_kept _ (fun s x => by (repeat' split) <;> first | (simp [foldl_kept]; done) | (simp_all; done))]; simp; done)
    | (simp_all; done)

@[simp] theorem State.modUsage_kept (s : State) (g : Nat) (m : Usage → Usage) :
    (State.modUsage s g m).kept = s.kept := by
  unfold State.modUsage
  (repeat' split) <;> first
    | (simp [foldl_kept]; done)
    | (rw [foldl_kept _ (fun s x => by (repeat' split) <;> first | (simp [foldl_kept]; done) | (simp_all; done))]; done)
    | (rw [foldl_kept _ (fun s x => by (repeat' split) <;> first | (simp [foldl_kept]; done) | (simp_all; done))]; simp; done)
    | (simp_all; done)

@[simp] theorem State.modUnit_kept (s : State) (u : Nat) (m : UnitFlt → UnitFlt) :
    (State.modUnit s u m).kept = s.kept := by
  unfold State.modUnit
  (repeat' split) <;> first
    | (simp [foldl_kept]; done)
    | (rw [foldl_kept _ (fun s x => by (repeat' split) <;> first | (simp [foldl_kept]; done) | (simp_all; done))]; done)
    | (rw [foldl_kept _ (fun s x => by (repeat' split) <;> first | (simp [foldl_kept]; done) | (simp_all; done))]; simp; done)
    | (simp_all; done)

@[simp] theorem State.emit_kept (s : State) (o : Out) :
    (State.emit s o).kept = s.kept := by
  unfold State.emit
  (repeat' split) <;> first
    | (simp [foldl_kept]; done)
    | (rw [foldl_kept _ (fun s x => by (repeat' split) <;> first | (simp [foldl_kept]; done) | (simp_all; done))]; done)
    | (rw [foldl_kept _ (fun s x => by (repeat' split) <;> first | (simp [foldl_kept]; done) | (simp_all; done))]; simp; done)
    | (simp_all; done)

@[simp] theorem State.sendMgmt_kept (s : State) (n : Nat) (m : MgmtMsg) :
    (State.sendMgmt s n m).kept = s.kept := by
  unfold State.sendMgmt
  (repeat' split) <;> first
    | (simp [foldl_kept]; done)
    | (rw [foldl_kept _ (fun s x => by (repeat' split) <;> first | (simp [foldl_kept]; done) | (simp_all; done))]; done)
    | (rw [foldl_kept _ (fun s x => by (repeat' split) <;> first | (simp [foldl_kept]; done) | (simp_all; done))]; simp; done)
    | (simp_all; done)

@[simp] theorem State.tick_kept (s : State) :
    (State.tick s).kept = s.kept := by
  unfold State.tick
  (repeat' split) <;> first
    | (simp [foldl_kept]; done)
    | (rw [foldl_kept _ (fun s x => by (repeat' split) <;> first | (simp [foldl_kept]; done) | (simp_all; done))]; done)
    | (rw [foldl_kept _ (fun s x => by (repeat' split) <;> first | (simp [foldl_kept]; done) | (simp_all; done))]; simp; done)
    | (simp_all; done)

@[simp] theorem State.pumpLocal_kept (s : State) (knot vc : Nat) :
    (State.pumpLocal s knot vc).kept = s.kept := by
  unfold State.pumpLocal
  (repeat' split) <;> first
    | (simp [foldl_kept]; done)
    | (rw [foldl_kept _ (fun s x => by (repeat' split) <;> first | (simp [foldl_kept]; done) | (simp_all; done))]; done)
    | (rw [foldl_kept _ (fun s x => by (repeat' split) <;> first | (simp [foldl_kept]; done) | (simp_all; done))]; simp; done)
    | (simp_all; done)

@[simp] theorem State.pushFlits_kept (s : State) (n knot : Nat) (p : Packet) :
    (State.pushFlits s n knot p).kept = s.kept := by
  unfold State.pushFlits
  (repeat' split) <;> first
    | (simp [foldl_kept]; done)
    | (rw [foldl_kept _ (fun s x => by (repeat' split) <;> first | (simp [foldl_kept]; done) | (simp_all; done))]; done)
    | (rw [foldl_kept _ (fun s x => by (repeat' split) <;> first | (simp [foldl_kept]; done) | (simp_all; done))]; simp; done)
    | (simp_all; done)

@[simp] theorem State.countStat_kept (s : State) (p : Packet) (m : Stat → Stat) :
    (State.countStat s p m).kept = s.kept := by
  unfold State.countStat
  (repeat' split) <;> first
    | (simp [foldl_kept]; done)
    | (rw [foldl_kept _ (fun s x => by (repeat' split) <;> first | (simp [foldl_kept]; done) | (simp_all; done))]; done)
    | (rw [foldl_kept _ (fun s x => by (repeat' split) <;> first | (simp [foldl_kept]; done) | (simp_all; done))]; simp; done)
    | (simp_all; done)

@[simp] theorem State.inject_kept (s : State) (p : Packet) :
    (State.inject s p).kept = s.kept := by
  unfold State.inject
  (repeat' split) <;> first
    | (simp [foldl_kept]; done)
    | (rw [foldl_kept _ (fun s x => by (repeat' split) <;> first | (simp [foldl_kept]; done) | (simp_all; done))]; done)
    | (rw [foldl_kept _ (fun s x => by (repeat' split) <;> first | (simp [foldl_kept]; done) | (simp_all; done))]; simp; done)
    | (simp_all; done)

@[simp] theorem State.respond_kept (s : State) (r : Packet) (op : POp) (status addr : Nat) (data : List Line) (ep : Bool) :
    (State.respond s r op status addr data ep).kept = s.kept := by
  unfold State.respond
  (repeat' split) <;> first
    | (simp [foldl_kept]; done)
    | (rw [foldl_kept _ (fun s x => by (repeat' split) <;> first | (simp [foldl_kept]; done) | (simp_all; done))]; done)
    | (rw [foldl_kept _ (fun s x => by (repeat' split) <;> first | (simp [foldl_kept]; done) | (simp_all; done))]; simp; done)
    | (simp_all; done)

@[simp] theorem State.answer_kept (s : State) (r : Packet) (status : Nat) :
    (State.answer s r status).kept = s.kept := by
  unfold State.answer
  (repeat' split) <;> first
    | (simp [foldl_kept]; done)
    | (rw [foldl_kept _ (fun s x => by (repeat' split) <;> first | (simp [foldl_kept]; done) | (simp_all; done))]; done)
    | (rw [foldl_kept _ (fun s x => by (repeat' split) <;> first | (simp [foldl_kept]; done) | (simp_all; done))]; simp; done)
    | (simp_all; done)

@[simp] theorem State.answerPart_kept (s : State) (r : Packet) (line : Nat) (c : List (Line × Nat)) :
    (State.answerPart s r line c).kept = s.kept := by
  unfold State.answerPart
  (repeat' split) <;> first
    | (simp [foldl_kept]; done)
    | (rw [foldl_kept _ (fun s x => by (repeat' split) <;> first | (simp [foldl_kept]; done) | (simp_all; done))]; done)
    | (rw [foldl_kept _ (fun s x => by (repeat' split) <;> first | (simp [foldl_kept]; done) | (simp_all; done))]; simp; done)
    | (simp_all; done)

@[simp] theorem State.answerData_kept (s : State) (r : Packet) (line : Nat) (ls : List (Line × Nat)) :
    (State.answerData s r line ls).kept = s.kept := by
  unfold State.answerData
  (repeat' split) <;> first
    | (simp [foldl_kept]; done)
    | (rw [foldl_kept _ (fun s x => by (repeat' split) <;> first | (simp [foldl_kept]; done) | (simp_all; done))]; done)
    | (rw [foldl_kept _ (fun s x => by (repeat' split) <;> first | (simp [foldl_kept]; done) | (simp_all; done))]; simp; done)
    | (simp_all; done)

@[simp] theorem State.request_kept (s : State) (ctx : ReqCtx) (p : Packet) (counts : Option Nat) (window : Option Nat := none) :
    (State.request s ctx p counts window).kept = s.kept := by
  unfold State.request
  (repeat' split) <;> first
    | (simp [foldl_kept]; done)
    | (rw [foldl_kept _ (fun s x => by (repeat' split) <;> first | (simp [foldl_kept]; done) | (simp_all; done))]; done)
    | (rw [foldl_kept _ (fun s x => by (repeat' split) <;> first | (simp [foldl_kept]; done) | (simp_all; done))]; simp; done)
    | (simp_all; done)

@[simp] theorem State.selfAnswer_kept (s : State) (ctx : ReqCtx) (p : Packet) (counts : Option Nat) (status : Nat) :
    (State.selfAnswer s ctx p counts status).kept = s.kept := by
  unfold State.selfAnswer
  (repeat' split) <;> first
    | (simp [foldl_kept]; done)
    | (rw [foldl_kept _ (fun s x => by (repeat' split) <;> first | (simp [foldl_kept]; done) | (simp_all; done))]; done)
    | (rw [foldl_kept _ (fun s x => by (repeat' split) <;> first | (simp [foldl_kept]; done) | (simp_all; done))]; simp; done)
    | (simp_all; done)

@[simp] theorem State.take_kept (s : State) (p : Packet) :
    (State.take s p).kept = s.kept := by
  unfold State.take
  (repeat' split) <;> first
    | (simp [foldl_kept]; done)
    | (rw [foldl_kept _ (fun s x => by (repeat' split) <;> first | (simp [foldl_kept]; done) | (simp_all; done))]; done)
    | (rw [foldl_kept _ (fun s x => by (repeat' split) <;> first | (simp [foldl_kept]; done) | (simp_all; done))]; simp; done)
    | (simp_all; done)

@[simp] theorem State.endReq_kept (s : State) (unit tag : Nat) :
    (State.endReq s unit tag).kept = s.kept := by
  unfold State.endReq
  (repeat' split) <;> first
    | (simp [foldl_kept]; done)
    | (rw [foldl_kept _ (fun s x => by (repeat' split) <;> first | (simp [foldl_kept]; done) | (simp_all; done))]; done)
    | (rw [foldl_kept _ (fun s x => by (repeat' split) <;> first | (simp [foldl_kept]; done) | (simp_all; done))]; simp; done)
    | (simp_all; done)

@[simp] theorem State.pushE_kept (s : State) (op : POp) (unit dest : Nat) :
    (State.pushE s op unit dest).kept = s.kept := by
  unfold State.pushE
  (repeat' split) <;> first
    | (simp [foldl_kept]; done)
    | (rw [foldl_kept _ (fun s x => by (repeat' split) <;> first | (simp [foldl_kept]; done) | (simp_all; done))]; done)
    | (rw [foldl_kept _ (fun s x => by (repeat' split) <;> first | (simp [foldl_kept]; done) | (simp_all; done))]; simp; done)
    | (simp_all; done)

@[simp] theorem State.report_kept (s : State) (r : FaultReport) :
    (State.report s r).kept = s.kept := by
  unfold State.report
  (repeat' split) <;> first
    | (simp [foldl_kept]; done)
    | (rw [foldl_kept _ (fun s x => by (repeat' split) <;> first | (simp [foldl_kept]; done) | (simp_all; done))]; done)
    | (rw [foldl_kept _ (fun s x => by (repeat' split) <;> first | (simp [foldl_kept]; done) | (simp_all; done))]; simp; done)
    | (simp_all; done)

@[simp] theorem State.contained_kept (s : State) (cls code unit element : Nat) (glove : Option Nat) :
    (State.contained s cls code unit element glove).kept = s.kept := by
  unfold State.contained
  (repeat' split) <;> first
    | (simp [foldl_kept]; done)
    | (rw [foldl_kept _ (fun s x => by (repeat' split) <;> first | (simp [foldl_kept]; done) | (simp_all; done))]; done)
    | (rw [foldl_kept _ (fun s x => by (repeat' split) <;> first | (simp [foldl_kept]; done) | (simp_all; done))]; simp; done)
    | (simp_all; done)

@[simp] theorem State.corrected_kept (s : State) (cls code unit element : Nat) :
    (State.corrected s cls code unit element).kept = s.kept := by
  unfold State.corrected
  (repeat' split) <;> first
    | (simp [foldl_kept]; done)
    | (rw [foldl_kept _ (fun s x => by (repeat' split) <;> first | (simp [foldl_kept]; done) | (simp_all; done))]; done)
    | (rw [foldl_kept _ (fun s x => by (repeat' split) <;> first | (simp [foldl_kept]; done) | (simp_all; done))]; simp; done)
    | (simp_all; done)

@[simp] theorem State.retried_kept (s : State) (r : FaultReport) (code : Nat) :
    (State.retried s r code).kept = s.kept := by
  unfold State.retried
  (repeat' split) <;> first
    | (simp [foldl_kept]; done)
    | (rw [foldl_kept _ (fun s x => by (repeat' split) <;> first | (simp [foldl_kept]; done) | (simp_all; done))]; done)
    | (rw [foldl_kept _ (fun s x => by (repeat' split) <;> first | (simp [foldl_kept]; done) | (simp_all; done))]; simp; done)
    | (simp_all; done)

@[simp] theorem State.refetched_kept (s : State) (hit : CopyOf → Bool) (code : Nat) :
    (State.refetched s hit code).kept = s.kept := by
  unfold State.refetched
  (repeat' split) <;> first
    | (simp [foldl_kept]; done)
    | (rw [foldl_kept _ (fun s x => by (repeat' split) <;> first | (simp [foldl_kept]; done) | (simp_all; done))]; done)
    | (rw [foldl_kept _ (fun s x => by (repeat' split) <;> first | (simp [foldl_kept]; done) | (simp_all; done))]; simp; done)
    | (simp_all; done)

@[simp] theorem State.violate_kept (s : State) (v : Violation) :
    (State.violate s v).kept = s.kept := by
  unfold State.violate
  (repeat' split) <;> first
    | (simp [foldl_kept]; done)
    | (rw [foldl_kept _ (fun s x => by (repeat' split) <;> first | (simp [foldl_kept]; done) | (simp_all; done))]; done)
    | (rw [foldl_kept _ (fun s x => by (repeat' split) <;> first | (simp [foldl_kept]; done) | (simp_all; done))]; simp; done)
    | (simp_all; done)

@[simp] theorem State.requestVector_kept (s : State) (unit : Nat) (f : FnId) (vec : Nat) :
    (State.requestVector s unit f vec).kept = s.kept := by
  unfold State.requestVector
  (repeat' split) <;> first
    | (simp [foldl_kept]; done)
    | (rw [foldl_kept _ (fun s x => by (repeat' split) <;> first | (simp [foldl_kept]; done) | (simp_all; done))]; done)
    | (rw [foldl_kept _ (fun s x => by (repeat' split) <;> first | (simp [foldl_kept]; done) | (simp_all; done))]; simp; done)
    | (simp_all; done)

@[simp] theorem State.raiseCause_kept (s : State) (f : FnId) (b : Nat) :
    (State.raiseCause s f b).kept = s.kept := by
  unfold State.raiseCause
  (repeat' split) <;> first
    | (simp [foldl_kept]; done)
    | (rw [foldl_kept _ (fun s x => by (repeat' split) <;> first | (simp [foldl_kept]; done) | (simp_all; done))]; done)
    | (rw [foldl_kept _ (fun s x => by (repeat' split) <;> first | (simp [foldl_kept]; done) | (simp_all; done))]; simp; done)
    | (simp_all; done)

@[simp] theorem State.raiseAllPf_kept (s : State) (b : Nat) :
    (State.raiseAllPf s b).kept = s.kept := by
  unfold State.raiseAllPf
  (repeat' split) <;> first
    | (simp [foldl_kept]; done)
    | (rw [foldl_kept _ (fun s x => by (repeat' split) <;> first | (simp [foldl_kept]; done) | (simp_all; done))]; done)
    | (rw [foldl_kept _ (fun s x => by (repeat' split) <;> first | (simp [foldl_kept]; done) | (simp_all; done))]; simp; done)
    | (simp_all; done)

@[simp] theorem State.edge_kept (s : State) (i : Nat) :
    (State.edge s i).kept = s.kept := by
  unfold State.edge
  (repeat' split) <;> first
    | (simp [foldl_kept]; done)
    | (rw [foldl_kept _ (fun s x => by (repeat' split) <;> first | (simp [foldl_kept]; done) | (simp_all; done))]; done)
    | (rw [foldl_kept _ (fun s x => by (repeat' split) <;> first | (simp [foldl_kept]; done) | (simp_all; done))]; simp; done)
    | (simp_all; done)

@[simp] theorem State.setLevel_kept (s : State) (i : Nat) (v : Bool) :
    (State.setLevel s i v).kept = s.kept := by
  unfold State.setLevel
  (repeat' split) <;> first
    | (simp [foldl_kept]; done)
    | (rw [foldl_kept _ (fun s x => by (repeat' split) <;> first | (simp [foldl_kept]; done) | (simp_all; done))]; done)
    | (rw [foldl_kept _ (fun s x => by (repeat' split) <;> first | (simp [foldl_kept]; done) | (simp_all; done))]; simp; done)
    | (simp_all; done)

@[simp] theorem State.reject_kept (s : State) (f : FnId) (code space off : Nat) :
    (State.reject s f code space off).kept = s.kept := by
  unfold State.reject
  (repeat' split) <;> first
    | (simp [foldl_kept]; done)
    | (rw [foldl_kept _ (fun s x => by (repeat' split) <;> first | (simp [foldl_kept]; done) | (simp_all; done))]; done)
    | (rw [foldl_kept _ (fun s x => by (repeat' split) <;> first | (simp [foldl_kept]; done) | (simp_all; done))]; simp; done)
    | (simp_all; done)

@[simp] theorem State.aer_kept (s : State) (f : FnId) (e : Aer) :
    (State.aer s f e).kept = s.kept := by
  unfold State.aer
  (repeat' split) <;> first
    | (simp [foldl_kept]; done)
    | (rw [foldl_kept _ (fun s x => by (repeat' split) <;> first | (simp [foldl_kept]; done) | (simp_all; done))]; done)
    | (rw [foldl_kept _ (fun s x => by (repeat' split) <;> first | (simp [foldl_kept]; done) | (simp_all; done))]; simp; done)
    | (simp_all; done)

@[simp] theorem State.aerTlp_kept (s : State) (f : FnId) (e : Aer) (t : TlpHead) :
    (State.aerTlp s f e t).kept = s.kept := by
  unfold State.aerTlp
  (repeat' split) <;> first
    | (simp [foldl_kept]; done)
    | (rw [foldl_kept _ (fun s x => by (repeat' split) <;> first | (simp [foldl_kept]; done) | (simp_all; done))]; done)
    | (rw [foldl_kept _ (fun s x => by (repeat' split) <;> first | (simp [foldl_kept]; done) | (simp_all; done))]; simp; done)
    | (simp_all; done)

@[simp] theorem State.errLog_kept (s : State) (f : FnId) (kind code space addr tfn tlink glove : Nat) :
    (State.errLog s f kind code space addr tfn tlink glove).kept = s.kept := by
  unfold State.errLog
  (repeat' split) <;> first
    | (simp [foldl_kept]; done)
    | (rw [foldl_kept _ (fun s x => by (repeat' split) <;> first | (simp [foldl_kept]; done) | (simp_all; done))]; done)
    | (rw [foldl_kept _ (fun s x => by (repeat' split) <;> first | (simp [foldl_kept]; done) | (simp_all; done))]; simp; done)
    | (simp_all; done)

@[simp] theorem State.farSide_kept (s : State) (f : FnId) (code space addr tfn tlink glove unit : Nat) :
    (State.farSide s f code space addr tfn tlink glove unit).kept = s.kept := by
  unfold State.farSide
  (repeat' split) <;> first
    | (simp [foldl_kept]; done)
    | (rw [foldl_kept _ (fun s x => by (repeat' split) <;> first | (simp [foldl_kept]; done) | (simp_all; done))]; done)
    | (rw [foldl_kept _ (fun s x => by (repeat' split) <;> first | (simp [foldl_kept]; done) | (simp_all; done))]; simp; done)
    | (simp_all; done)

@[simp] theorem State.missPosted_kept (s : State) (unit : Nat) :
    (State.missPosted s unit).kept = s.kept := by
  unfold State.missPosted
  (repeat' split) <;> first
    | (simp [foldl_kept]; done)
    | (rw [foldl_kept _ (fun s x => by (repeat' split) <;> first | (simp [foldl_kept]; done) | (simp_all; done))]; done)
    | (rw [foldl_kept _ (fun s x => by (repeat' split) <;> first | (simp [foldl_kept]; done) | (simp_all; done))]; simp; done)
    | (simp_all; done)

@[simp] theorem State.draw_kept (s : State) :
    (State.draw s).2.kept = s.kept := by
  unfold State.draw
  (repeat' split) <;> first
    | (simp [foldl_kept]; done)
    | (rw [foldl_kept _ (fun s x => by (repeat' split) <;> first | (simp [foldl_kept]; done) | (simp_all; done))]; done)
    | (rw [foldl_kept _ (fun s x => by (repeat' split) <;> first | (simp [foldl_kept]; done) | (simp_all; done))]; simp; done)
    | (simp_all; done)

@[simp] theorem State.wake_kept (s : State) (d wanter : Nat) :
    (State.wake s d wanter).kept = s.kept := by
  unfold State.wake
  (repeat' split) <;> first
    | (simp [foldl_kept]; done)
    | (rw [foldl_kept _ (fun s x => by (repeat' split) <;> first | (simp [foldl_kept]; done) | (simp_all; done))]; done)
    | (rw [foldl_kept _ (fun s x => by (repeat' split) <;> first | (simp [foldl_kept]; done) | (simp_all; done))]; simp; done)
    | (simp_all; done)

@[simp] theorem State.atTarget_kept (s : State) (p : Packet) (f : State → State) (hf : ∀ x0, (f x0).kept = (x0 : State).kept) :
    (State.atTarget s p f).kept = s.kept := by
  unfold State.atTarget
  (repeat' split) <;> first
    | (simp [foldl_kept, hf]; done)
    | (rw [foldl_kept _ (fun s x => by (repeat' split) <;> first | (simp [foldl_kept, hf]; done) | (simp_all; done))]; done)
    | (rw [foldl_kept _ (fun s x => by (repeat' split) <;> first | (simp [foldl_kept, hf]; done) | (simp_all; done))]; simp; done)
    | (simp_all; done)

end Sys2Proof.Machine
end

