-- ==== Sys2Proof/Laws/KeptVotes.lean ====
section
/-! SUPPORT. The kept part of the state under the operations of Machine/Votes.lean. -/

namespace Sys2Proof.Machine

@[simp] theorem State.castVotes_kept (s old : State) :
    (State.castVotes s old).kept = s.kept := by
  unfold State.castVotes
  refine foldl_kept _ (fun s d => ?_) _ _
  split <;> simp

@[simp] theorem State.wakeCuff_kept (s : State) (l : Nat) :
    (State.wakeCuff s l).kept = s.kept := by
  unfold State.wakeCuff
  simp

end Sys2Proof.Machine
end

