-- ==== Sys2Proof/Laws/KeptSealing.lean ====
section
/-! SUPPORT. The kept part of the state under the operations of Machine/Sealing.lean. -/

namespace Sys2Proof.Machine

@[simp] theorem State.modHgate_kept (s : State) (h : Nat) (m : HGate → HGate) :
    (State.modHgate s h m).kept = s.kept := by
  unfold State.modHgate
  simp

@[simp] theorem State.tierPutAt_kept (s : State) (q off : Nat) (d : Line) :
    (State.tierPutAt s q off d).kept = s.kept := by
  unfold State.tierPutAt
  simp

@[simp] theorem State.hbmPut_kept (s : State) (q a : Nat) (d : Line) :
    (State.hbmPut s q a d).kept = s.kept := by
  unfold State.hbmPut
  simp [foldl_kept]
  (repeat' split) <;> simp [foldl_kept]

@[simp] theorem State.hbmWant_kept (s : State) (q a : Nat) :
    (State.hbmWant s q a).kept = s.kept := by
  unfold State.hbmWant
  simp

@[simp] theorem State.hbufPut_kept (s : State) (q a : Nat) (d : Line) :
    (State.hbufPut s q a d).kept = s.kept := by
  unfold State.hbufPut
  simp [foldl_kept]
  (repeat' split) <;> simp [foldl_kept]

@[simp] theorem State.evictNode_kept (s : State) (h key : Nat) :
    (State.evictNode s h key).kept = s.kept := by
  unfold State.evictNode
  simp

@[simp] theorem State.hcPut_kept (s : State) (branch : Bool) (level i : Nat) (d : Line) (dirty : Bool) :
    (State.hcPut s branch level i d dirty).kept = s.kept := by
  unfold State.hcPut
  simp

@[simp] theorem State.hcTrim_kept (s : State) (h : Nat) :
    (State.hcTrim s h).kept = s.kept := by
  unfold State.hcTrim
  (repeat' split) <;> simp

@[simp] theorem State.readRoot_kept (s : State) (branch : Bool) (i : Nat) :
    (State.readRoot s branch i).2.kept = s.kept := by
  unfold State.readRoot
  (repeat' split) <;> simp

@[simp] theorem State.bring_kept (s : State) (branch : Bool) (y0 : Nat) (y1 : Nat) (y2 : Nat) :
    (State.bring s branch y0 y1 y2).2.kept = s.kept := by
  induction y0 generalizing y1 y2 with
  | zero => rfl
  | succ n ih =>
    unfold State.bring
    have k := State.readRoot_kept s branch y2
    have k2 := ih (y1 + 1) (y2 / 8)
    split
    · generalize s.readRoot branch y2 = r at k ⊢
      obtain ⟨o, u⟩ := r
      cases o <;> exact k
    · split
      · rfl
      · dsimp only
        split
        · rfl
        · generalize s.bring branch n (y1 + 1) (y2 / 8) = r at k2 ⊢
          obtain ⟨o, u⟩ := r
          cases o
          · dsimp only
            split <;> simpa using k2
          · exact k2

@[simp] theorem State.updateMac_kept (s : State) (branch : Bool) (level i c : Nat) (m : BitVec 64) :
    (State.updateMac s branch level i c m).2.kept = s.kept := by
  unfold State.updateMac
  have k := State.bring_kept s branch 8 level i
  generalize s.bring branch 8 level i = r at k ⊢
  obtain ⟨o, u⟩ := r
  cases o
  · dsimp only
    split <;> simpa using k
  · exact k

@[simp] theorem State.tablesChanged_kept (s old : State) (ls : List Nat) :
    (State.tablesChanged s old ls).kept = s.kept := by
  unfold State.tablesChanged
  simp [foldl_kept]

@[simp] theorem State.changeTable_kept (s : State) (l : Nat) (f : State → State) (hf : ∀ x0, (f x0).kept = (x0 : State).kept) :
    (State.changeTable s l f).kept = s.kept := by
  unfold State.changeTable
  simp [hf]

@[simp] theorem State.setOwn_kept (s : State) (p : Nat) (o : Own) :
    (State.setOwn s p o).kept = s.kept := by
  exact State.changeTable_kept _ _ _ (fun _ => by simp)

@[simp] theorem State.setPte_kept (s : State) (g i : Nat) (e : Pte) :
    (State.setPte s g i e).kept = s.kept := by
  exact State.changeTable_kept _ _ _ (fun _ => by simp)

@[simp] theorem State.slotWant_kept (s : State) (ch a : Nat) :
    (State.slotWant s ch a).kept = s.kept := by
  unfold State.slotWant
  simp

@[simp] theorem State.ddrPoison_kept (s : State) (ch a : Nat) :
    (State.ddrPoison s ch a).kept = s.kept := by
  unfold State.ddrPoison
  simp

@[simp] theorem State.setTier_kept (s : State) (t : List TierLine) :
    (State.setTier s t).kept = s.kept := by
  unfold State.setTier
  simp

@[simp] theorem State.tierDrop_kept (s : State) (line : Nat) :
    (State.tierDrop s line).kept = s.kept := by
  unfold State.tierDrop
  simp

@[simp] theorem State.tierRef_kept (s : State) (line : Nat) :
    (State.tierRef s line).kept = s.kept := by
  unfold State.tierRef
  (repeat' split) <;> simp

end Sys2Proof.Machine
end

