-- ==== Sys2Proof/Laws/KeptGate.lean ====
section
/-! SUPPORT. The kept part of the state under the operations of Machine/Gate.lean. -/

namespace Sys2Proof.Machine

@[simp] theorem State.recordFail_kept (s : State) (g line slot code : Nat) :
    (State.recordFail s g line slot code).kept = s.kept := by
  unfold State.recordFail
  simp [foldl_kept]
  (repeat' split) <;> simp [foldl_kept]

@[simp] theorem State.recordFails_kept (s : State) (g slot code : Nat) (ls : List Nat) :
    (State.recordFails s g slot code ls).kept = s.kept := by
  unfold State.recordFails
  simp [foldl_kept]

@[simp] theorem State.readSlotsOf_kept (s : State) (ch line : Nat) :
    (State.readSlotsOf s ch line).kept = s.kept := by
  unfold State.readSlotsOf
  simp

@[simp] theorem State.nodeRequest_kept (s : State) (g : Nat) (c : ReqCtx) (p : Packet) :
    (State.nodeRequest s g c p).kept = s.kept := by
  unfold State.nodeRequest
  simp

@[simp] theorem State.pumpNodes_kept (s : State) (g : Nat) :
    (State.pumpNodes s g).kept = s.kept := by
  unfold State.pumpNodes
  (repeat' split) <;> simp

@[simp] theorem State.evictCtr_kept (s : State) (g blk : Nat) :
    (State.evictCtr s g blk).kept = s.kept := by
  unfold State.evictCtr
  simp

@[simp] theorem State.ccPut_kept (s : State) (g blk : Nat) (c : Ctr) (dirty : Bool) :
    (State.ccPut s g blk c dirty).kept = s.kept := by
  unfold State.ccPut
  simp [foldl_kept]
  (repeat' split) <;> simp [foldl_kept]

@[simp] theorem State.poison_kept (s : State) (g blk level : Nat) :
    (State.poison s g blk level).kept = s.kept := by
  unfold State.poison
  simp [foldl_kept]

@[simp] theorem State.modWalk_kept (s : State) (g blk : Nat) (f : Walk → Walk) :
    (State.modWalk s g blk f).kept = s.kept := by
  unfold State.modWalk
  simp

@[simp] theorem State.ensureWalk_kept (s : State) (g blk : Nat) :
    (State.ensureWalk s g blk).kept = s.kept := by
  unfold State.ensureWalk
  simp

@[simp] theorem State.fetchNode_kept (s : State) (g blk level : Nat) :
    (State.fetchNode s g blk level).kept = s.kept := by
  unfold State.fetchNode
  simp

@[simp] theorem State.leaveLater_kept (s : State) (g line : Nat) :
    (State.leaveLater s g line).kept = s.kept := by
  unfold State.leaveLater
  simp

@[simp] theorem State.wcbDrop_kept (s : State) (g line : Nat) :
    (State.wcbDrop s g line).kept = s.kept := by
  unfold State.wcbDrop
  simp

@[simp] theorem State.poisonLine_kept (s : State) (g line : Nat) :
    (State.poisonLine s g line).kept = s.kept := by
  unfold State.poisonLine
  simp [foldl_kept]

@[simp] theorem State.wcbPut_kept (s : State) (g line slot glove : Nat) (d : Line) (bad : Bool) :
    (State.wcbPut s g line slot glove d bad).kept = s.kept := by
  unfold State.wcbPut
  simp

@[simp] theorem State.failAll_kept (s : State) (g : Nat) (p : Packet) (slot code : Nat) :
    (State.failAll s g p slot code).kept = s.kept := by
  unfold State.failAll
  (repeat' split) <;> simp

@[simp] theorem State.dropLock_kept (s : State) (g line unit : Nat) :
    (State.dropLock s g line unit).kept = s.kept := by
  unfold State.dropLock
  simp

@[simp] theorem State.lookupTier_kept (s : State) (g blk : Nat) (p : Packet) :
    (State.lookupTier s g blk p).kept = s.kept := by
  unfold State.lookupTier
  simp

@[simp] theorem State.fetchOwn_kept (s : State) (g blk : Nat) :
    (State.fetchOwn s g blk).kept = s.kept := by
  unfold State.fetchOwn
  simp

@[simp] theorem State.failOwn_kept (s : State) (g : Nat) (p : Packet) :
    (State.failOwn s g p).kept = s.kept := by
  unfold State.failOwn
  simp [foldl_kept]
  (repeat' split) <;> simp [foldl_kept]

end Sys2Proof.Machine
end

