-- ==== Sys2Proof/Laws/KeptCheck.lean ====
section
/-! SUPPORT. The kept part of the state under the operations of Machine/Check.lean. -/

namespace Sys2Proof.Machine

@[simp] theorem State.translate_kept (s : State) (unit link g i : Nat) :
    (State.translate s unit link g i).2.kept = s.kept := by
  unfold State.translate
  simp [foldl_kept]
  (repeat' split) <;> simp [foldl_kept]

@[simp] theorem State.fillTranslations_kept (s : State) (key l : Nat) (d : Line) :
    (State.fillTranslations s key l d).kept = s.kept := by
  unfold State.fillTranslations
  simp

@[simp] theorem State.tableBack_kept (s : State) (key l code : Nat) (d : Line) :
    (State.tableBack s key l code d).kept = s.kept := by
  unfold State.tableBack
  simp

@[simp] theorem State.dropTranslations_kept (s : State) (g : Nat) :
    (State.dropTranslations s g).kept = s.kept := by
  unfold State.dropTranslations
  simp

@[simp] theorem State.dropCaches_kept (s : State) (hit : Nat → Bool) :
    (State.dropCaches s hit).kept = s.kept := by
  unfold State.dropCaches
  simp

@[simp] theorem State.check_kept (s : State) (unit link : Nat) (c : Check) :
    (State.check s unit link c).2.kept = s.kept := by
  unfold State.check
  dsimp only
  have k := s.translate_kept unit link c.glove (c.addr / 0x200000)
  (repeat' split) <;> first | rfl | (simp_all; done)

@[simp] theorem State.fetchTable_kept (s : State) (unit link l : Nat) :
    (State.fetchTable s unit link l).kept = s.kept := by
  unfold State.fetchTable
  simp

@[simp] theorem State.reportFault_kept (s : State) (c : Check) (unit code line : Nat) :
    (State.reportFault s c unit code line).kept = s.kept := by
  unfold State.reportFault
  simp

end Sys2Proof.Machine
end

