-- ==== Sys2Proof/Laws/KeptGateRows.lean ====
section
/-! SUPPORT. The kept part of the state under the operations of Machine/GateRows.lean. -/

namespace Sys2Proof.Machine

@[simp] theorem State.arrive_kept (s : State) (o : POp) (p : Packet) (f : Packet → State → State) (hf : ∀ x0 x1, (f x0 x1).kept = (x1 : State).kept) :
    (State.arrive s o p f).kept = s.kept := by
  unfold State.arrive
  simp [hf]

@[simp] theorem State.countResponse_kept (s : State) (r : Req) (p : Packet) (last : Bool) :
    (State.countResponse s r p last).kept = s.kept := by
  unfold State.countResponse
  simp

@[simp] theorem State.atInitiator_kept (s : State) (p : Packet) (f : Req → State → State) (hf : ∀ x0 x1, (f x0 x1).kept = (x1 : State).kept) :
    (State.atInitiator s p f).kept = s.kept := by
  unfold State.atInitiator
  (repeat' split) <;> simp [hf]

@[simp] theorem State.putTable_kept (s : State) (l : Nat) (d : Line) :
    (State.putTable s l d).kept = s.kept := by
  unfold State.putTable
  dsimp only
  (repeat' split) <;> refine foldl_kept _ (fun s x => ?_) _ _ <;> first
    | (simp; done)
    | (split <;> simp; done)

@[simp] theorem State.tableFailed_kept (s : State) (l level : Nat) :
    (State.tableFailed s l level).kept = s.kept := by
  unfold State.tableFailed
  simp

@[simp] theorem State.mqFail_kept (s : State) (p : Packet) (code : Nat) :
    (State.mqFail s p code).kept = s.kept := by
  unfold State.mqFail
  simp

theorem execMqRd_kept (p : Packet) (s : State) (out : State) (h : execMqRd p s = .next out) : out.kept = s.kept := by
  unfold execMqRd at h
  simp only [Host.Outcome.next.injEq] at h
  subst h
  refine State.arrive_kept _ _ _ _ (fun p s => ?_)
  try dsimp only
  (repeat' split) <;> first
    | (simp; done)
    | (have k := congrArg (fun x : _ × State => x.2.kept) ‹_ = (_, _)›; simp at k; simp [k]; done)
    | (simp_all; done)

theorem execMqWr_kept (p : Packet) (s : State) (out : State) (h : execMqWr p s = .next out) : out.kept = s.kept := by
  unfold execMqWr at h
  simp only [Host.Outcome.next.injEq] at h
  subst h
  rw [State.arrive_kept]
  intro p s
  try dsimp only
  (repeat' split) <;> first
    | (simp [foldl_kept]; done)
    | (have k := State.issue_sent_kept ‹_›; simp_all; done)
    | (have k := State.issue_refused_kept ‹_›; simp_all; done)
    | (simp_all; done)

theorem execMqMac_kept (p : Packet) (s : State) (out : State) (h : execMqMac p s = .next out) : out.kept = s.kept := by
  unfold execMqMac at h
  simp only [Host.Outcome.next.injEq] at h
  subst h
  refine State.arrive_kept _ _ _ _ (fun p s => ?_)
  try dsimp only
  (repeat' split) <;> first
    | (simp; done)
    | (have k := congrArg (fun x : _ × State => x.2.kept) ‹_ = (_, _)›; simp at k; simp [k]; done)
    | (simp_all; done)

theorem execTierLookup_kept (p : Packet) (s : State) (out : State) (h : execTierLookup p s = .next out) : out.kept = s.kept := by
  unfold execTierLookup at h
  simp only [Host.Outcome.next.injEq] at h
  subst h
  simp [foldl_kept]

@[simp] theorem State.sendMac_kept (s : State) (g blk : Nat) :
    (State.sendMac s g blk).kept = s.kept := by
  unfold State.sendMac
  simp

theorem execReencRaiseClass_kept (gate block : Nat) (s : State) (out : State) (h : execReencRaiseClass gate block s = .next out) : out.kept = s.kept := by
  unfold execReencRaiseClass at h
  simp only [Host.Outcome.next.injEq] at h
  subst h
  (repeat' split) <;> simp

theorem execOwnershipInvalidate_kept (gate : Nat) (lines : List Nat) (s : State) (out : State) (h : execOwnershipInvalidate gate lines s = .next out) : out.kept = s.kept := by
  unfold execOwnershipInvalidate at h
  simp only [Host.Outcome.next.injEq] at h
  subst h
  (repeat' split) <;> simp

end Sys2Proof.Machine
end

