-- ==== Sys2Proof/Laws/KeptIssue.lean ====
section
/-! SUPPORT. The kept part of the state under the operations of Machine/Issue.lean. -/

namespace Sys2Proof.Machine

@[simp] theorem State.sendHost_kept (s : State) (ctx : ReqCtx) (p : Packet) (link fn addr : Nat) (counts : Option Nat) (window : Option Nat := none) :
    (State.sendHost s ctx p link fn addr counts window).kept = s.kept := by
  unfold State.sendHost
  simp

@[simp] theorem State.sendDev_kept (s : State) (link : Nat) (ctx : ReqCtx) (p : Packet) (counts : Option Nat) :
    (State.sendDev s link ctx p counts).kept = s.kept := by
  unfold State.sendDev
  (repeat' split) <;> simp

@[simp] theorem State.dropHeldAcc_kept (s : State) (who : Nat) :
    (State.dropHeldAcc s who).kept = s.kept := by
  unfold State.dropHeldAcc
  simp

theorem State.issue_sent_kept {s t : State} {a : Access} {c : Nat → ReqCtx} {x : Nat} {y : Option Nat} (h : s.issue a c = .sent t x y) :
    t.kept = s.kept := by
  unfold State.issue at h
  dsimp only at h
  (repeat' split at h) <;> simp only [Issued.sent.injEq, Issued.refused.injEq, Issued.wait.injEq, reduceCtorEq] at h <;> obtain ⟨rfl, -⟩ := h <;> first
    | (simp; done)
    | (have k := congrArg (fun x : _ × State => x.2.kept) ‹_ = (_, _)›; simp at k; simp [k]; done)

theorem State.issue_refused_kept {s t : State} {a : Access} {c : Nat → ReqCtx} {x y z : Nat} (h : s.issue a c = .refused t x y z) :
    t.kept = s.kept := by
  unfold State.issue at h
  dsimp only at h
  (repeat' split at h) <;> simp only [Issued.sent.injEq, Issued.refused.injEq, Issued.wait.injEq, reduceCtorEq] at h <;> obtain ⟨rfl, -⟩ := h <;> first
    | (simp; done)
    | (have k := congrArg (fun x : _ × State => x.2.kept) ‹_ = (_, _)›; simp at k; simp [k]; done)

theorem State.issue_wait_kept {s t : State} {a : Access} {c : Nat → ReqCtx} (h : s.issue a c = .wait t) :
    t.kept = s.kept := by
  unfold State.issue at h
  dsimp only at h
  (repeat' split at h) <;> simp only [Issued.sent.injEq, Issued.refused.injEq, Issued.wait.injEq, reduceCtorEq] at h <;> subst h <;> first
    | (simp; done)
    | (have k := congrArg (fun x : _ × State => x.2.kept) ‹_ = (_, _)›; simp at k; simp [k]; done)

end Sys2Proof.Machine
end

