-- ==== Sys2Proof/Laws/KeptQueue.lean ====
section
/-! SUPPORT. The kept part of the state under the operations of Machine/Queue.lean. -/

namespace Sys2Proof.Machine

@[simp] theorem State.qFault_kept (s : State) (q : QId) (code : Nat) :
    (State.qFault s q code).kept = s.kept := by
  unfold State.qFault
  simp

@[simp] theorem State.cutQueue_kept (s : State) (q : QId) :
    (State.cutQueue s q).kept = s.kept := by
  unfold State.cutQueue
  simp

@[simp] theorem State.complete_kept (s : State) (o : Origin) (code result : Nat) :
    (State.complete s o code result).kept = s.kept := by
  unfold State.complete
  simp

@[simp] theorem State.refuse_kept (s : State) (o : Origin) (code : Nat) :
    (State.refuse s o code).kept = s.kept := by
  unfold State.refuse
  simp

@[simp] theorem State.undispatch_kept (s : State) (i : Instr) :
    (State.undispatch s i).kept = s.kept := by
  unfold State.undispatch
  simp

@[simp] theorem State.headWrite_kept (s : State) (q : QId) :
    (State.headWrite s q).kept = s.kept := by
  unfold State.headWrite
  dsimp only
  (repeat' split) <;> first
    | (simp [foldl_kept]; done)
    | (have k := State.issue_sent_kept ‹State.issue _ _ _ = .sent _ _ _›; simp [k]; done)
    | (have k := State.issue_sent_kept ‹_›; simp_all; done)
    | (have k := State.issue_refused_kept ‹State.issue _ _ _ = .refused _ _ _ _›; simp [k]; done)
    | (have k := State.issue_refused_kept ‹_›; simp_all; done)
    | (have k := State.issue_wait_kept ‹State.issue _ _ _ = .wait _›; simp [k]; done)
    | (have k := State.issue_wait_kept ‹_›; simp_all; done)
    | (simp_all; done)

theorem execDoorbell_kept (q : QId) (v : BitVec 32) (s : State) (out : State) (h : execDoorbell q v s = .next out) : out.kept = s.kept := by
  unfold execDoorbell at h
  simp only [Host.Outcome.next.injEq] at h
  subst h
  simp

@[simp] theorem State.startOperator_kept (s : State) (f : FnId) :
    (State.startOperator s f).kept = s.kept := by
  unfold State.startOperator
  refine foldl_kept _ (fun _ _ => ?_) _ _; simp

@[simp] theorem State.writeQueConfig_kept (s : State) (f : FnId) (v : BitVec 32) :
    (State.writeQueConfig s f v).kept = s.kept := by
  unfold State.writeQueConfig
  (repeat' split) <;> simp

theorem execQueueEnable_kept (f : FnId) (config : BitVec 32) (s : State) (out : State) (h : execQueueEnable f config s = .next out) : out.kept = s.kept := by
  unfold execQueueEnable at h
  simp only [Host.Outcome.next.injEq] at h
  subst h
  simp

theorem execQueueDisable_kept (f : FnId) (s : State) (out : State) (h : execQueueDisable f s = .next out) : out.kept = s.kept := by
  unfold execQueueDisable at h
  simp only [Host.Outcome.next.injEq] at h
  subst h
  simp

theorem execEntryFetch_kept (q : QId) (s : State) (out : State) (h : execEntryFetch q s = .next out) : out.kept = s.kept := by
  unfold execEntryFetch at h
  simp only [Host.Outcome.next.injEq] at h
  subst h
  (repeat' split) <;> first
    | rfl
    | (have k := State.issue_sent_kept ‹State.issue _ _ _ = .sent _ _ _›; simp [k]; done)
    | (have k := State.issue_refused_kept ‹State.issue _ _ _ = .refused _ _ _ _›; simp [k]; done)
    | (have k := State.issue_wait_kept ‹State.issue _ _ _ = .wait _›; simp [k]; done)

@[simp] theorem State.fetched_kept (s : State) (q : QId) (first n : Nat) (bs : List Byte) :
    (State.fetched s q first n bs).kept = s.kept := by
  unfold State.fetched
  simp

theorem execEntryDispatch_kept (q : QId) (s : State) (out : State) (h : execEntryDispatch q s = .next out) : out.kept = s.kept := by
  unfold execEntryDispatch at h
  simp only [Host.Outcome.next.injEq] at h
  subst h
  (repeat' split) <;> simp

@[simp] theorem State.startTenancy_kept (s : State) (g : Nat) :
    (State.startTenancy s g).kept = s.kept := by
  unfold State.startTenancy
  simp

@[simp] theorem State.countEntry_kept (s : State) (q : QId) (e : Entry) (code result : Nat) :
    (State.countEntry s q e code result).kept = s.kept := by
  unfold State.countEntry
  (repeat' split) <;> simp

theorem execResultWrite_kept (q : QId) (s : State) (out : State) (h : execResultWrite q s = .next out) : out.kept = s.kept := by
  unfold execResultWrite at h
  simp only [Host.Outcome.next.injEq] at h
  subst h
  try dsimp only
  (repeat' split) <;> first
    | (simp [foldl_kept]; done)
    | (have k := State.issue_sent_kept ‹State.issue _ _ _ = .sent _ _ _›; simp [k]; done)
    | (have k := State.issue_sent_kept ‹_›; simp_all; done)
    | (have k := State.issue_refused_kept ‹State.issue _ _ _ = .refused _ _ _ _›; simp [k]; done)
    | (have k := State.issue_refused_kept ‹_›; simp_all; done)
    | (have k := State.issue_wait_kept ‹State.issue _ _ _ = .wait _›; simp [k]; done)
    | (have k := State.issue_wait_kept ‹_›; simp_all; done)
    | (simp_all; done)

theorem execResultWriteAcked_kept (q : QId) (s : State) (out : State) (h : execResultWriteAcked q s = .next out) : out.kept = s.kept := by
  unfold execResultWriteAcked at h
  simp only [Host.Outcome.next.injEq] at h
  subst h
  simp

theorem execHeadWriteAcked_kept (q : QId) (s : State) (out : State) (h : execHeadWriteAcked q s = .next out) : out.kept = s.kept := by
  unfold execHeadWriteAcked at h
  simp only [Host.Outcome.next.injEq] at h
  subst h
  (repeat' split) <;> simp [foldl_kept]

@[simp] theorem State.resultAcked_kept (s : State) (q : QId) (idx code : Nat) :
    (State.resultAcked s q idx code).kept = s.kept := by
  unfold State.resultAcked
  simp

@[simp] theorem State.headAcked_kept (s : State) (q : QId) (v : BitVec 32) (code : Nat) :
    (State.headAcked s q v code).kept = s.kept := by
  unfold State.headAcked
  simp

@[simp] theorem State.controlCmd_kept (s : State) (i : Instr) (o : Origin) (f : State → State) (hf : ∀ x0, (f x0).kept = (x0 : State).kept) :
    (State.controlCmd s i o f).kept = s.kept := by
  unfold State.controlCmd
  simp [foldl_kept, hf]
  (repeat' split) <;> simp [foldl_kept, hf]

theorem execCreateQueue_kept (o : Origin) (num size : Nat) (ringGlove headGlove : Bool) (finger vector ring head : Nat) (s : State) (out : State) (h : execCreateQueue o num size ringGlove headGlove finger vector ring head s = .next out) : out.kept = s.kept := by
  unfold execCreateQueue at h
  simp only [Host.Outcome.next.injEq] at h
  subst h
  simp

theorem execDestroyQueue_kept (o : Origin) (num : Nat) (s : State) (out : State) (h : execDestroyQueue o num s = .next out) : out.kept = s.kept := by
  unfold execDestroyQueue at h
  simp only [Host.Outcome.next.injEq] at h
  subst h
  simp

end Sys2Proof.Machine
end

