-- ==== Sys2Proof/Laws/KeptFinger.lean ====
section
/-! SUPPORT. The kept part of the state under the operations of Machine/Finger.lean. -/

namespace Sys2Proof.Machine

@[simp] theorem State.orphan_kept (s : State) (f : FgId) :
    (State.orphan s f).kept = s.kept := by
  unfold State.orphan
  simp

@[simp] theorem State.unwait_kept (s : State) (f : FgId) :
    (State.unwait s f).kept = s.kept := by
  unfold State.unwait
  simp

@[simp] theorem State.fgFinish_kept (s : State) (f : FgId) (code result : Nat) :
    (State.fgFinish s f code result).kept = s.kept := by
  unfold State.fgFinish
  (repeat' split) <;> simp

@[simp] theorem State.fgStopped_kept (s : State) (f : FgId) (by' : Option Origin) :
    (State.fgStopped s f by').kept = s.kept := by
  unfold State.fgStopped
  (repeat' split) <;> simp

@[simp] theorem State.fgSettle_kept (s : State) (f : FgId) :
    (State.fgSettle s f).kept = s.kept := by
  unfold State.fgSettle
  simp [foldl_kept]
  (repeat' split) <;> simp [foldl_kept]

@[simp] theorem State.fgHalt_kept (s : State) (f : FgId) (h : Halt) :
    (State.fgHalt s f h).kept = s.kept := by
  unfold State.fgHalt
  simp

@[simp] theorem State.fgBoundary_kept (s : State) (f : FgId) :
    (State.fgBoundary s f).kept = s.kept := by
  unfold State.fgBoundary
  simp [foldl_kept]
  (repeat' split) <;> simp [foldl_kept]

@[simp] theorem State.fgStopCode_kept (s : State) (f : FgId) (code : Nat) :
    (State.fgStopCode s f code).kept = s.kept := by
  unfold State.fgStopCode
  simp

@[simp] theorem State.fgReset_kept (s : State) (f : FgId) :
    (State.fgReset s f).kept = s.kept := by
  unfold State.fgReset
  simp

@[simp] theorem State.fgAdvance_kept (s : State) (f : FgId) :
    (State.fgAdvance s f).kept = s.kept := by
  unfold State.fgAdvance
  simp

@[simp] theorem State.fgCharge_kept (s : State) (f : FgId) (n : Nat) :
    (State.fgCharge s f n).kept = s.kept := by
  unfold State.fgCharge
  simp

@[simp] theorem State.countDma_kept (s : State) (f : FgId) (space n : Nat) :
    (State.countDma s f space n).kept = s.kept := by
  unfold State.countDma
  (repeat' split) <;> simp

@[simp] theorem State.fgWrote_kept (s : State) (f : FgId) (link : Option Nat) (fn : Nat) :
    (State.fgWrote s f link fn).kept = s.kept := by
  unfold State.fgWrote
  simp [foldl_kept]
  (repeat' split) <;> simp [foldl_kept]

@[simp] theorem State.fgWriteOne_kept (s : State) (f : FgId) (t : Transfer) (off : Nat) (bs : List Byte) :
    (State.fgWriteOne s f t off bs).1.kept = s.kept := by
  unfold State.fgWriteOne
  dsimp only
  (repeat' split) <;> first
    | rfl
    | (have k := State.issue_sent_kept ‹State.issue _ _ _ = .sent _ _ _›; simp [k]; done)
    | (have k := State.issue_refused_kept ‹State.issue _ _ _ = .refused _ _ _ _›; simp [k]; done)
    | (have k := State.issue_wait_kept ‹State.issue _ _ _ = .wait _›; simp [k]; done)

@[simp] theorem State.fgFlush_kept (s : State) (f : FgId) (y0 : Nat) :
    (State.fgFlush s f y0).kept = s.kept := by
  induction y0 generalizing s with
  | zero => rfl
  | succ n ih =>
    unfold State.fgFlush
    dsimp only
    (repeat' split) <;> first
      | rfl
      | (have k := congrArg (fun x : State × Bool => x.1.kept) ‹State.fgWriteOne _ _ _ _ _ = _›; simp at k; simp [k, ih]; done)

@[simp] theorem State.fgDone_kept (s : State) (f : FgId) :
    (State.fgDone s f).kept = s.kept := by
  unfold State.fgDone
  simp [foldl_kept]
  (repeat' split) <;> simp [foldl_kept]

@[simp] theorem State.fgWritten_kept (s : State) (f : FgId) (off n addr space code : Nat) :
    (State.fgWritten s f off n addr space code).kept = s.kept := by
  unfold State.fgWritten
  simp

@[simp] theorem State.fgRead_kept (s : State) (f : FgId) (off : Nat) (space : Nat) (bs : List Byte) (fail : Option (Nat × Nat)) :
    (State.fgRead s f off space bs fail).kept = s.kept := by
  unfold State.fgRead
  (repeat' split) <;> simp

@[simp] theorem State.fgBegin_kept (s : State) (f : FgId) (t : Transfer) :
    (State.fgBegin s f t).kept = s.kept := by
  unfold State.fgBegin
  simp

@[simp] theorem State.fgIssue_kept (s : State) (f : FgId) :
    (State.fgIssue s f).kept = s.kept := by
  unfold State.fgIssue
  dsimp only
  (repeat' split) <;> first
    | (simp [foldl_kept]; done)
    | (have k := State.issue_sent_kept ‹State.issue _ _ _ = .sent _ _ _›; simp [k]; done)
    | (have k := State.issue_sent_kept ‹_›; simp_all; done)
    | (have k := State.issue_refused_kept ‹State.issue _ _ _ = .refused _ _ _ _›; simp [k]; done)
    | (have k := State.issue_refused_kept ‹_›; simp_all; done)
    | (have k := State.issue_wait_kept ‹State.issue _ _ _ = .wait _›; simp [k]; done)
    | (have k := State.issue_wait_kept ‹_›; simp_all; done)
    | (simp_all; done)

theorem execFingerIssue_kept (engine : Nat) (s : State) (out : State) (h : execFingerIssue engine s = .next out) : out.kept = s.kept := by
  unfold execFingerIssue at h
  simp only [Host.Outcome.next.injEq] at h
  subst h
  (repeat' split) <;> simp

@[simp] theorem State.takeEntry_kept (s : State) (i : Instr) (f : FgId) (o : Origin) (target : Nat) (named : Bool) (op : Nat) (bad : Bool) (start : State → State) (hstart : ∀ x0, (start x0).kept = (x0 : State).kept) :
    (State.takeEntry s i f o target named op bad start).kept = s.kept := by
  unfold State.takeEntry
  simp [hstart]

theorem execRunProgram_kept (f : FgId) (o : Origin) (target : Nat) (gloveSpace : Bool) (addr a0 a1 a2 a3 : Nat) (s : State) (out : State) (h : execRunProgram f o target gloveSpace addr a0 a1 a2 a3 s = .next out) : out.kept = s.kept := by
  unfold execRunProgram at h
  simp only [Host.Outcome.next.injEq] at h
  subst h
  simp

theorem execCopy_kept (f : FgId) (o : Origin) (target : Nat) (srcGlove dstGlove : Bool) (src dst len : Nat) (s : State) (out : State) (h : execCopy f o target srcGlove dstGlove src dst len s = .next out) : out.kept = s.kept := by
  unfold execCopy at h
  simp only [Host.Outcome.next.injEq] at h
  subst h
  simp

theorem execFill_kept (f : FgId) (o : Origin) (target : Nat) (dstGlove : Bool) (dst len : Nat) (pattern : BitVec 64) (s : State) (out : State) (h : execFill f o target dstGlove dst len pattern s = .next out) : out.kept = s.kept := by
  unfold execFill at h
  simp only [Host.Outcome.next.injEq] at h
  subst h
  simp

@[simp] theorem State.sendZl_kept (s : State) (f : FgId) (ks : List Nat) :
    (State.sendZl s f ks).kept = s.kept := by
  unfold State.sendZl
  simp [foldl_kept]

theorem execFlush_kept (f : FgId) (o : Origin) (s : State) (out : State) (h : execFlush f o s = .next out) : out.kept = s.kept := by
  unfold execFlush at h
  simp only [Host.Outcome.next.injEq] at h
  subst h
  simp

@[simp] theorem State.fgExec_kept (s : State) (f : FgId) (w : BitVec 256) (op : Nat) (run : FgOp → State → State) (hrun : ∀ x0 x1, (run x0 x1).kept = (x1 : State).kept) :
    (State.fgExec s f w op run).kept = s.kept := by
  unfold State.fgExec
  (repeat' split) <;> simp [hrun]

theorem execProgramLineFetch_kept (f : FgId) (s : State) (out : State) (h : execProgramLineFetch f s = .next out) : out.kept = s.kept := by
  unfold execProgramLineFetch at h
  simp only [Host.Outcome.next.injEq] at h
  subst h
  try dsimp only
  (repeat' split) <;> first
    | (simp [foldl_kept]; done)
    | (have k := State.issue_sent_kept ‹State.issue _ _ _ = .sent _ _ _›; simp [k]; done)
    | (have k := State.issue_sent_kept ‹_›; simp_all; done)
    | (have k := State.issue_refused_kept ‹State.issue _ _ _ = .refused _ _ _ _›; simp [k]; done)
    | (have k := State.issue_refused_kept ‹_›; simp_all; done)
    | (have k := State.issue_wait_kept ‹State.issue _ _ _ = .wait _›; simp [k]; done)
    | (have k := State.issue_wait_kept ‹_›; simp_all; done)
    | (simp_all; done)

@[simp] theorem State.fgFetched_kept (s : State) (f : FgId) (addr space : Nat) (l : Line) (fail : Option (Nat × Nat)) :
    (State.fgFetched s f addr space l fail).kept = s.kept := by
  unfold State.fgFetched
  (repeat' split) <;> simp

theorem execMove_kept (f : FgId) (w : BitVec 256) (s : State) (out : State) (h : execMove f w s = .next out) : out.kept = s.kept := by
  unfold execMove at h
  simp only [Host.Outcome.next.injEq] at h
  subst h
  rw [State.fgExec_kept]
  intro i s
  try dsimp only
  (repeat' split) <;> first
    | (simp [foldl_kept]; done)
    | (have k := State.issue_sent_kept ‹State.issue _ _ _ = .sent _ _ _›; simp [k]; done)
    | (have k := State.issue_sent_kept ‹_›; simp_all; done)
    | (have k := State.issue_refused_kept ‹State.issue _ _ _ = .refused _ _ _ _›; simp [k]; done)
    | (have k := State.issue_refused_kept ‹_›; simp_all; done)
    | (have k := State.issue_wait_kept ‹State.issue _ _ _ = .wait _›; simp [k]; done)
    | (have k := State.issue_wait_kept ‹_›; simp_all; done)
    | (simp_all; done)

theorem execLoop_kept (f : FgId) (w : BitVec 256) (s : State) (out : State) (h : execLoop f w s = .next out) : out.kept = s.kept := by
  unfold execLoop at h
  simp only [Host.Outcome.next.injEq] at h
  subst h
  rw [State.fgExec_kept]
  intro i s
  try dsimp only
  (repeat' split) <;> first
    | (simp [foldl_kept]; done)
    | (have k := State.issue_sent_kept ‹State.issue _ _ _ = .sent _ _ _›; simp [k]; done)
    | (have k := State.issue_sent_kept ‹_›; simp_all; done)
    | (have k := State.issue_refused_kept ‹State.issue _ _ _ = .refused _ _ _ _›; simp [k]; done)
    | (have k := State.issue_refused_kept ‹_›; simp_all; done)
    | (have k := State.issue_wait_kept ‹State.issue _ _ _ = .wait _›; simp [k]; done)
    | (have k := State.issue_wait_kept ‹_›; simp_all; done)
    | (simp_all; done)

theorem execSeta_kept (f : FgId) (w : BitVec 256) (s : State) (out : State) (h : execSeta f w s = .next out) : out.kept = s.kept := by
  unfold execSeta at h
  simp only [Host.Outcome.next.injEq] at h
  subst h
  rw [State.fgExec_kept]
  intro i s
  try dsimp only
  (repeat' split) <;> first
    | (simp [foldl_kept]; done)
    | (have k := State.issue_sent_kept ‹State.issue _ _ _ = .sent _ _ _›; simp [k]; done)
    | (have k := State.issue_sent_kept ‹_›; simp_all; done)
    | (have k := State.issue_refused_kept ‹State.issue _ _ _ = .refused _ _ _ _›; simp [k]; done)
    | (have k := State.issue_refused_kept ‹_›; simp_all; done)
    | (have k := State.issue_wait_kept ‹State.issue _ _ _ = .wait _›; simp [k]; done)
    | (have k := State.issue_wait_kept ‹_›; simp_all; done)
    | (simp_all; done)

theorem execAdda_kept (f : FgId) (w : BitVec 256) (s : State) (out : State) (h : execAdda f w s = .next out) : out.kept = s.kept := by
  unfold execAdda at h
  simp only [Host.Outcome.next.injEq] at h
  subst h
  rw [State.fgExec_kept]
  intro i s
  try dsimp only
  (repeat' split) <;> first
    | (simp [foldl_kept]; done)
    | (have k := State.issue_sent_kept ‹State.issue _ _ _ = .sent _ _ _›; simp [k]; done)
    | (have k := State.issue_sent_kept ‹_›; simp_all; done)
    | (have k := State.issue_refused_kept ‹State.issue _ _ _ = .refused _ _ _ _›; simp [k]; done)
    | (have k := State.issue_refused_kept ‹_›; simp_all; done)
    | (have k := State.issue_wait_kept ‹State.issue _ _ _ = .wait _›; simp [k]; done)
    | (have k := State.issue_wait_kept ‹_›; simp_all; done)
    | (simp_all; done)

theorem execEndInstr_kept (f : FgId) (w : BitVec 256) (s : State) (out : State) (h : execEndInstr f w s = .next out) : out.kept = s.kept := by
  unfold execEndInstr at h
  simp only [Host.Outcome.next.injEq] at h
  subst h
  rw [State.fgExec_kept]
  intro i s
  try dsimp only
  (repeat' split) <;> first
    | (simp [foldl_kept]; done)
    | (have k := State.issue_sent_kept ‹State.issue _ _ _ = .sent _ _ _›; simp [k]; done)
    | (have k := State.issue_sent_kept ‹_›; simp_all; done)
    | (have k := State.issue_refused_kept ‹State.issue _ _ _ = .refused _ _ _ _›; simp [k]; done)
    | (have k := State.issue_refused_kept ‹_›; simp_all; done)
    | (have k := State.issue_wait_kept ‹State.issue _ _ _ = .wait _›; simp [k]; done)
    | (have k := State.issue_wait_kept ‹_›; simp_all; done)
    | (simp_all; done)

theorem execInvalidInstruction_kept (f : FgId) (w : BitVec 256) (s : State) (out : State) (h : execInvalidInstruction f w s = .next out) : out.kept = s.kept := by
  unfold execInvalidInstruction at h
  simp only [Host.Outcome.next.injEq] at h
  subst h
  simp

@[simp] theorem State.waitDone_kept (s : State) (f : FgId) :
    (State.waitDone s f).kept = s.kept := by
  unfold State.waitDone
  simp

@[simp] theorem State.eventWake_kept (s : State) (fn : FnId) (y0 : Nat) :
    (State.eventWake s fn y0).kept = s.kept := by
  induction y0 generalizing s with
  | zero => rfl
  | succ n ih =>
    unfold State.eventWake
    dsimp only
    split
    · rfl
    · rw [ih]; simp

@[simp] theorem State.setEvents_kept (s : State) (fn : FnId) (b : BitVec 32) :
    (State.setEvents s fn b).kept = s.kept := by
  unfold State.setEvents
  simp

@[simp] theorem State.beginWait_kept (s : State) (f : FgId) (w : Waiting) :
    (State.beginWait s f w).kept = s.kept := by
  unfold State.beginWait
  simp

theorem execWait_kept (f : FgId) (w : BitVec 256) (s : State) (out : State) (h : execWait f w s = .next out) : out.kept = s.kept := by
  unfold execWait at h
  simp only [Host.Outcome.next.injEq] at h
  subst h
  rw [State.fgExec_kept]
  intro i s
  try dsimp only
  (repeat' split) <;> first
    | (simp [foldl_kept]; done)
    | (have k := State.issue_sent_kept ‹State.issue _ _ _ = .sent _ _ _›; simp [k]; done)
    | (have k := State.issue_sent_kept ‹_›; simp_all; done)
    | (have k := State.issue_refused_kept ‹State.issue _ _ _ = .refused _ _ _ _›; simp [k]; done)
    | (have k := State.issue_refused_kept ‹_›; simp_all; done)
    | (have k := State.issue_wait_kept ‹State.issue _ _ _ = .wait _›; simp [k]; done)
    | (have k := State.issue_wait_kept ‹_›; simp_all; done)
    | (simp_all; done)

theorem execWaitPoll_kept (f : FgId) (s : State) (out : State) (h : execWaitPoll f s = .next out) : out.kept = s.kept := by
  unfold execWaitPoll at h
  simp only [Host.Outcome.next.injEq] at h
  subst h
  try dsimp only
  (repeat' split) <;> first
    | (simp [foldl_kept]; done)
    | (have k := State.issue_sent_kept ‹State.issue _ _ _ = .sent _ _ _›; simp [k]; done)
    | (have k := State.issue_sent_kept ‹_›; simp_all; done)
    | (have k := State.issue_refused_kept ‹State.issue _ _ _ = .refused _ _ _ _›; simp [k]; done)
    | (have k := State.issue_refused_kept ‹_›; simp_all; done)
    | (have k := State.issue_wait_kept ‹State.issue _ _ _ = .wait _›; simp [k]; done)
    | (have k := State.issue_wait_kept ‹_›; simp_all; done)
    | (simp_all; done)

@[simp] theorem State.fgPolled_kept (s : State) (f : FgId) (addr space : Nat) (bs : List Byte) (fail : Option (Nat × Nat)) :
    (State.fgPolled s f addr space bs fail).kept = s.kept := by
  unfold State.fgPolled
  (repeat' split) <;> simp

theorem execWaitTimerExpiry_kept (f : FgId) (s : State) (out : State) (h : execWaitTimerExpiry f s = .next out) : out.kept = s.kept := by
  unfold execWaitTimerExpiry at h
  simp only [Host.Outcome.next.injEq] at h
  subst h
  (repeat' split) <;> simp

theorem execWaitTimeout_kept (f : FgId) (s : State) (out : State) (h : execWaitTimeout f s = .next out) : out.kept = s.kept := by
  unfold execWaitTimeout at h
  simp only [Host.Outcome.next.injEq] at h
  subst h
  (repeat' split) <;> simp

@[simp] theorem State.signalEnd_kept (s : State) (f : FgId) :
    (State.signalEnd s f).kept = s.kept := by
  unfold State.signalEnd
  dsimp only
  split
  · rfl
  · split
    · rw [State.fgBoundary_kept, State.fgFinish_kept]
      split <;> simp
    · split
      · rw [State.fgAdvance_kept]
        (repeat' split) <;> simp
      · rfl

@[simp] theorem State.signalDurable_kept (s : State) (f : FgId) (w : BitVec 256) :
    (State.signalDurable s f w).kept = s.kept := by
  unfold State.signalDurable
  (repeat' split) <;> simp

theorem execSignal_kept (f : FgId) (w : BitVec 256) (s : State) (out : State) (h : execSignal f w s = .next out) : out.kept = s.kept := by
  unfold execSignal at h
  simp only [Host.Outcome.next.injEq] at h
  subst h
  rw [State.fgExec_kept]
  intro i s
  try dsimp only
  (repeat' split) <;> first
    | (simp [foldl_kept]; done)
    | (have k := State.issue_sent_kept ‹State.issue _ _ _ = .sent _ _ _›; simp [k]; done)
    | (have k := State.issue_sent_kept ‹_›; simp_all; done)
    | (have k := State.issue_refused_kept ‹State.issue _ _ _ = .refused _ _ _ _›; simp [k]; done)
    | (have k := State.issue_refused_kept ‹_›; simp_all; done)
    | (have k := State.issue_wait_kept ‹State.issue _ _ _ = .wait _›; simp [k]; done)
    | (have k := State.issue_wait_kept ‹_›; simp_all; done)
    | (simp_all; done)

@[simp] theorem State.flagAcked_kept (s : State) (f : FgId) (addr space code : Nat) :
    (State.flagAcked s f addr space code).kept = s.kept := by
  unfold State.flagAcked
  (repeat' split) <;> simp

@[simp] theorem State.zlDone_kept (s : State) (f : FgId) (link code : Nat) :
    (State.zlDone s f link code).kept = s.kept := by
  unfold State.zlDone
  (repeat' split) <;> simp

theorem execTokenRefill_kept (f : FgId) (s : State) (out : State) (h : execTokenRefill f s = .next out) : out.kept = s.kept := by
  unfold execTokenRefill at h
  simp only [Host.Outcome.next.injEq] at h
  subst h
  simp

theorem execFngEventsSet_kept (f : FnId) (b : BitVec 32) (s : State) (out : State) (h : execFngEventsSet f b s = .next out) : out.kept = s.kept := by
  unfold execFngEventsSet at h
  simp only [Host.Outcome.next.injEq] at h
  subst h
  simp

theorem execFngEventClr_kept (f : FnId) (b : BitVec 32) (s : State) (out : State) (h : execFngEventClr f b s = .next out) : out.kept = s.kept := by
  unfold execFngEventClr at h
  simp only [Host.Outcome.next.injEq] at h
  subst h
  simp

end Sys2Proof.Machine
end

