-- ==== Sys2Proof/Laws/KeptCuff.lean ====
section
/-! SUPPORT. The kept part of the state under the operations of Machine/Cuff.lean. -/

namespace Sys2Proof.Machine

@[simp] theorem State.failDev_kept (s : State) (p : Packet) (code : Nat) :
    (State.failDev s p code).kept = s.kept := by
  unfold State.failDev
  simp

@[simp] theorem State.cuffRequest_kept (s : State) (p : Packet) :
    (State.cuffRequest s p).kept = s.kept := by
  unfold State.cuffRequest
  simp

theorem execCuffTxDequeue_kept (link : Nat) (s : State) (out : State) (h : execCuffTxDequeue link s = .next out) : out.kept = s.kept := by
  unfold execCuffTxDequeue at h
  simp only [Host.Outcome.next.injEq] at h
  subst h
  (repeat' split) <;> simp

@[simp] theorem State.forgetDev_kept (s : State) (l : Nat) (p : Packet) :
    (State.forgetDev s l p).kept = s.kept := by
  unfold State.forgetDev
  simp

@[simp] theorem State.endDev_kept (s : State) (l : Nat) (p : Packet) (code : Nat) :
    (State.endDev s l p code).kept = s.kept := by
  unfold State.endDev
  simp

@[simp] theorem State.devDone_kept (s : State) (l : Nat) (d : DevReq) :
    (State.devDone s l d).kept = s.kept := by
  unfold State.devDone
  simp [foldl_kept]

@[simp] theorem State.tdiError_kept (s : State) (g : Nat) :
    (State.tdiError s g).kept = s.kept := by
  unfold State.tdiError
  (repeat' split) <;> simp [foldl_kept]

@[simp] theorem State.ideFail_kept (s : State) (l stream : Nat) (t : TlpHead) :
    (State.ideFail s l stream t).kept = s.kept := by
  unfold State.ideFail
  simp [foldl_kept]

@[simp] theorem State.ideCheck_kept (s : State) (l : Nat) (m : Option IdeMark) (t : TlpHead) (f : State → State) (hf : ∀ x0, (f x0).kept = (x0 : State).kept) :
    (State.ideCheck s l m t f).kept = s.kept := by
  unfold State.ideCheck
  (repeat' split) <;> simp [hf]

theorem execHostCompletion_kept (c : HostCpl) (s : State) (out : State) (h : execHostCompletion c s = .next out) : out.kept = s.kept := by
  unfold execHostCompletion at h
  simp only [Host.Outcome.next.injEq] at h
  subst h
  split
  · rfl
  · rw [State.ideCheck_kept]
    intro s'
    (repeat' split) <;> simp

theorem execHostCplTimeout_kept (link unit tag : Nat) (s : State) (out : State) (h : execHostCplTimeout link unit tag s = .next out) : out.kept = s.kept := by
  unfold execHostCplTimeout at h
  simp only [Host.Outcome.next.injEq] at h
  subst h
  (repeat' split) <;> simp

@[simp] theorem State.dropPosted_kept (s : State) (l : Nat) (hit : Packet → Bool) (code : Nat) :
    (State.dropPosted s l hit code).kept = s.kept := by
  unfold State.dropPosted
  dsimp only
  rw [foldl_kept _ (fun s t => ?_)]
  · simp
  · split <;> simp

@[simp] theorem State.dropReads_kept (s : State) (l : Nat) (hit : Packet → Bool) (code : Nat) :
    (State.dropReads s l hit code).kept = s.kept := by
  unfold State.dropReads
  simp [foldl_kept]

@[simp] theorem State.withdraw_kept (s : State) (f : FnId) :
    (State.withdraw s f).kept = s.kept := by
  unfold State.withdraw
  simp

@[simp] theorem State.reissue_kept (s : State) (f : FnId) :
    (State.reissue s f).kept = s.kept := by
  unfold State.reissue
  simp [foldl_kept]

@[simp] theorem State.endRequests_kept (s : State) (l : Nat) (hit : Nat → Bool) (code : Nat) :
    (State.endRequests s l hit code).kept = s.kept := by
  unfold State.endRequests
  simp [foldl_kept]

end Sys2Proof.Machine
end

