-- ==== Sys2Proof/Laws/KeptMsi.lean ====
section
/-! SUPPORT. The kept part of the state under the operations of Machine/Msi.lean. -/

namespace Sys2Proof.Machine

@[simp] theorem State.modGroup_kept (s : State) (f : FnId) (g : Nat) (m : ModGroup → ModGroup) :
    (State.modGroup s f g m).kept = s.kept := by
  unfold State.modGroup
  simp

@[simp] theorem State.coalesce_kept (s : State) (f : FnId) :
    (State.coalesce s f).kept = s.kept := by
  unfold State.coalesce
  simp

@[simp] theorem State.askMessage_kept (s : State) (f : FnId) (v : Nat) :
    (State.askMessage s f v).kept = s.kept := by
  unfold State.askMessage
  simp

@[simp] theorem State.issueGroup_kept (s : State) (f : FnId) (g : Nat) :
    (State.issueGroup s f g).kept = s.kept := by
  unfold State.issueGroup
  simp [foldl_kept]

theorem execEvent_kept (f : FnId) (vec : Nat) (s : State) (out : State) (h : execEvent f vec s = .next out) : out.kept = s.kept := by
  unfold execEvent at h
  simp only [Host.Outcome.next.injEq] at h
  subst h
  simp

theorem execModerationTimerExpiry_kept (f : FnId) (group : Nat) (s : State) (out : State) (h : execModerationTimerExpiry f group s = .next out) : out.kept = s.kept := by
  unfold execModerationTimerExpiry at h
  simp only [Host.Outcome.next.injEq] at h
  subst h
  simp

theorem execMsgReq_kept (f : FnId) (vec : Nat) (s : State) (out : State) (h : execMsgReq f vec s = .next out) : out.kept = s.kept := by
  unfold execMsgReq at h
  simp only [Host.Outcome.next.injEq] at h
  subst h
  (repeat' split) <;> simp

@[simp] theorem State.wakeUpdate_kept (s : State) (l : Nat) :
    (State.wakeUpdate s l).kept = s.kept := by
  unfold State.wakeUpdate
  simp

@[simp] theorem State.sendPme_kept (s : State) (f : FnId) :
    (State.sendPme s f).kept = s.kept := by
  unfold State.sendPme
  simp

@[simp] theorem State.leaveL1_kept (s : State) (l : Nat) :
    (State.leaveL1 s l).kept = s.kept := by
  unfold State.leaveL1
  simp

@[simp] theorem State.transmitMsi_kept (s : State) (f : FnId) (vec : Nat) :
    (State.transmitMsi s f vec).kept = s.kept := by
  unfold State.transmitMsi
  simp

theorem execMsixCommit_kept (f : FnId) (vec : Nat) (s : State) (out : State) (h : execMsixCommit f vec s = .next out) : out.kept = s.kept := by
  unfold execMsixCommit at h
  simp only [Host.Outcome.next.injEq] at h
  subst h
  simp

theorem execPendingVectorSend_kept (f : FnId) (vec : Nat) (s : State) (out : State) (h : execPendingVectorSend f vec s = .next out) : out.kept = s.kept := by
  unfold execPendingVectorSend at h
  simp only [Host.Outcome.next.injEq] at h
  subst h
  simp

@[simp] theorem State.setMask_kept (s : State) (f : FnId) (t : MaskTarget) (v : Bool) :
    (State.setMask s f t v).kept = s.kept := by
  unfold State.setMask
  (repeat' split) <;> simp

theorem execMsixMaskWrite_kept (f : FnId) (t : MaskTarget) (v : Bool) (s : State) (out : State) (h : execMsixMaskWrite f t v s = .next out) : out.kept = s.kept := by
  unfold execMsixMaskWrite at h
  simp only [Host.Outcome.next.injEq] at h
  subst h
  simp

@[simp] theorem State.dropMessages_kept (s : State) (f : FnId) :
    (State.dropMessages s f).kept = s.kept := by
  unfold State.dropMessages
  simp

end Sys2Proof.Machine
end

