-- ==== Sys2Proof/Laws/KeptFnState.lean ====
section
/-! SUPPORT. The kept part of the state under the operations of Machine/FnState.lean. -/

namespace Sys2Proof.Machine

@[simp] theorem State.destroyQueues_kept (s : State) (f : FnId) :
    (State.destroyQueues s f).kept = s.kept := by
  unfold State.destroyQueues
  simp

@[simp] theorem State.dropCompletions_kept (s : State) (f : FnId) (reset : Bool) :
    (State.dropCompletions s f reset).kept = s.kept := by
  unfold State.dropCompletions
  simp

@[simp] theorem State.resetFn_kept (s : State) (f : FnId) (own : Bool) :
    (State.resetFn s f own).kept = s.kept := by
  unfold State.resetFn
  simp [foldl_kept]

@[simp] theorem State.resetFns_kept (s : State) (l : Nat) (own : Bool) (hit : Nat → Bool) :
    (State.resetFns s l own hit).kept = s.kept := by
  unfold State.resetFns
  simp [foldl_kept]

@[simp] theorem State.resetSriov_kept (s : State) (l : Nat) :
    (State.resetSriov s l).kept = s.kept := by
  unfold State.resetSriov
  simp

@[simp] theorem State.endSessions_kept (s : State) (l : Nat) :
    (State.endSessions s l).kept = s.kept := by
  unfold State.endSessions
  simp

theorem execFlrStart_kept (f : FnId) (s : State) (out : State) (h : execFlrStart f s = .next out) : out.kept = s.kept := by
  unfold execFlrStart at h
  simp only [Host.Outcome.next.injEq] at h
  subst h
  simp

theorem execFlrComplete_kept (f : FnId) (s : State) (out : State) (h : execFlrComplete f s = .next out) : out.kept = s.kept := by
  unfold execFlrComplete at h
  simp only [Host.Outcome.next.injEq] at h
  subst h
  simp

theorem execVfEnableClear_kept (link : Nat) (s : State) (out : State) (h : execVfEnableClear link s = .next out) : out.kept = s.kept := by
  unfold execVfEnableClear at h
  simp only [Host.Outcome.next.injEq] at h
  subst h
  simp

theorem execVfEnableSet_kept (link : Nat) (s : State) (out : State) (h : execVfEnableSet link s = .next out) : out.kept = s.kept := by
  unfold execVfEnableSet at h
  simp only [Host.Outcome.next.injEq] at h
  subst h
  simp

theorem execNumvfsWrite_kept (link v : Nat) (s : State) (out : State) (h : execNumvfsWrite link v s = .next out) : out.kept = s.kept := by
  unfold execNumvfsWrite at h
  simp only [Host.Outcome.next.injEq] at h
  subst h
  simp

@[simp] theorem State.linkTdisError_kept (s : State) (l : Nat) :
    (State.linkTdisError s l).kept = s.kept := by
  unfold State.linkTdisError
  simp [foldl_kept]

theorem execBarWrite_kept (link : Nat) (field : BarField) (v : Nat) (s : State) (out : State) (h : execBarWrite link field v s = .next out) : out.kept = s.kept := by
  unfold execBarWrite at h
  simp only [Host.Outcome.next.injEq] at h
  subst h
  (repeat' split) <;> simp

theorem execVfBarSizeWrite_kept (link v : Nat) (s : State) (out : State) (h : execVfBarSizeWrite link v s = .next out) : out.kept = s.kept := by
  unfold execVfBarSizeWrite at h
  simp only [Host.Outcome.next.injEq] at h
  subst h
  simp

theorem execBmeClear_kept (f : FnId) (s : State) (out : State) (h : execBmeClear f s = .next out) : out.kept = s.kept := by
  unfold execBmeClear at h
  simp only [Host.Outcome.next.injEq] at h
  subst h
  simp [foldl_kept]

theorem execBmeSet_kept (f : FnId) (s : State) (out : State) (h : execBmeSet f s = .next out) : out.kept = s.kept := by
  unfold execBmeSet at h
  simp only [Host.Outcome.next.injEq] at h
  subst h
  simp

theorem execD3hotEntry_kept (f : FnId) (s : State) (out : State) (h : execD3hotEntry f s = .next out) : out.kept = s.kept := by
  unfold execD3hotEntry at h
  simp only [Host.Outcome.next.injEq] at h
  subst h
  simp

theorem execD0Return_kept (f : FnId) (s : State) (out : State) (h : execD0Return f s = .next out) : out.kept = s.kept := by
  unfold execD0Return at h
  simp only [Host.Outcome.next.injEq] at h
  subst h
  simp

@[simp] theorem State.loseLink_kept (s : State) (l : Nat) (st : Ltssm) :
    (State.loseLink s l st).kept = s.kept := by
  unfold State.loseLink
  simp

theorem execPerstAssert_kept (link : Nat) (s : State) (out : State) (h : execPerstAssert link s = .next out) : out.kept = s.kept := by
  unfold execPerstAssert at h
  simp only [Host.Outcome.next.injEq] at h
  subst h
  simp

theorem execPerstDeassert_kept (link : Nat) (s : State) (out : State) (h : execPerstDeassert link s = .next out) : out.kept = s.kept := by
  unfold execPerstDeassert at h
  simp only [Host.Outcome.next.injEq] at h
  subst h
  simp

@[simp] theorem State.askWidth_kept (s : State) (l w : Nat) :
    (State.askWidth s l w).kept = s.kept := by
  unfold State.askWidth
  simp

@[simp] theorem State.atWidth_kept (s : State) (l w : Nat) :
    (State.atWidth s l w).kept = s.kept := by
  unfold State.atWidth
  simp [foldl_kept]
  (repeat' split) <;> simp [foldl_kept]

theorem execLinkTrainedL0_kept (link rate : Nat) (width : PartnerWidth) (flit : Bool) (s : State) (out : State) (h : execLinkTrainedL0 link rate width flit s = .next out) : out.kept = s.kept := by
  unfold execLinkTrainedL0 at h
  simp only [Host.Outcome.next.injEq] at h
  subst h
  simp

theorem execDlDown_kept (link : Nat) (s : State) (out : State) (h : execDlDown link s = .next out) : out.kept = s.kept := by
  unfold execDlDown at h
  simp only [Host.Outcome.next.injEq] at h
  subst h
  simp

theorem execLinkHotReset_kept (link : Nat) (s : State) (out : State) (h : execLinkHotReset link s = .next out) : out.kept = s.kept := by
  unfold execLinkHotReset at h
  simp only [Host.Outcome.next.injEq] at h
  subst h
  simp

theorem execHostRecoveryEntered_kept (r : HostRecovery) (s : State) (out : State) (h : execHostRecoveryEntered r s = .next out) : out.kept = s.kept := by
  unfold execHostRecoveryEntered at h
  simp only [Host.Outcome.next.injEq] at h
  subst h
  (repeat' split) <;> simp

theorem execLinkPowerStateChange_kept (link : Nat) (p : LinkPower) (s : State) (out : State) (h : execLinkPowerStateChange link p s = .next out) : out.kept = s.kept := by
  unfold execLinkPowerStateChange at h
  simp only [Host.Outcome.next.injEq] at h
  subst h
  simp

end Sys2Proof.Machine
end

