-- ==== Sys2Proof/Laws/KeptPages.lean ====
section
/-! SUPPORT. The kept part of the state under the operations of Machine/Pages.lean. -/

namespace Sys2Proof.Machine

@[simp] theorem State.repairPage_kept (s : State) (p : Nat) :
    (State.repairPage s p).kept = s.kept := by
  unfold State.repairPage
  simp [foldl_kept]

@[simp] theorem State.releasePage_kept (s : State) (p : Nat) :
    (State.releasePage s p).kept = s.kept := by
  unfold State.releasePage
  simp

@[simp] theorem State.dropOwnLines_kept (s : State) (ls : List Nat) :
    (State.dropOwnLines s ls).kept = s.kept := by
  unfold State.dropOwnLines
  simp

@[simp] theorem State.writeOwn_kept (s : State) (pages : List Nat) (owner : Option Nat) :
    (State.writeOwn s pages owner).kept = s.kept := by
  unfold State.writeOwn
  refine foldl_kept _ (fun s p => ?_) _ _
  split <;> simp

@[simp] theorem State.startOwn_kept (s : State) (pages : List Nat) (owner : Option Nat) (thn : OwnThen) :
    (State.startOwn s pages owner thn).1.kept = s.kept := by
  unfold State.startOwn
  simp [foldl_kept]
  (repeat' split) <;> simp [foldl_kept]

@[simp] theorem State.dropGuest_kept (s : State) (slot : Nat) :
    (State.dropGuest s slot).kept = s.kept := by
  unfold State.dropGuest
  simp

end Sys2Proof.Machine
end

