-- ==== Sys2Proof/Laws/KeptBorderFlit.lean ====
section
/-! SUPPORT. The kept part of the state under the operations of Machine/BorderFlit.lean. -/

namespace Sys2Proof.Machine

@[simp] theorem State.putFlit_kept (s : State) (l : Nat) (f : BFlit) :
    (State.putFlit s l f).kept = s.kept := by
  unfold State.putFlit
  simp

end Sys2Proof.Machine
end

