-- ==== Sys2Proof/Laws/KeptBorder.lean ====
section
/-! SUPPORT. The kept part of the state under the operations of Machine/Border.lean. -/

namespace Sys2Proof.Machine

@[simp] theorem State.setBState_kept (s : State) (l : Nat) (st : BState) :
    (State.setBState s l st).kept = s.kept := by
  unfold State.setBState
  simp

@[simp] theorem State.pumpBorder_kept (s : State) (l : Nat) (y0 : Nat) :
    (State.pumpBorder s l y0).kept = s.kept := by
  induction y0 generalizing s with
  | zero => rfl
  | succ n ih =>
    unfold State.pumpBorder
    dsimp only
    split
    · rfl
    · split
      · rfl
      · simp [ih]

@[simp] theorem State.sendBorder_kept (s : State) (l vc : Nat) (b : BorderPkt) :
    (State.sendBorder s l vc b).kept = s.kept := by
  unfold State.sendBorder
  simp

@[simp] theorem State.replayBorder_kept (s : State) (l : Nat) :
    (State.replayBorder s l).kept = s.kept := by
  unfold State.replayBorder
  simp [foldl_kept]

@[simp] theorem State.sendAck_kept (s : State) (l : Nat) :
    (State.sendAck s l).kept = s.kept := by
  unfold State.sendAck
  simp

@[simp] theorem State.sendCtrl_kept (s : State) (l : Nat) (c : Ctrl) :
    (State.sendCtrl s l c).kept = s.kept := by
  unfold State.sendCtrl
  simp

theorem execCtrlRepeat_kept (link : Nat) (s : State) (out : State) (h : execCtrlRepeat link s = .next out) : out.kept = s.kept := by
  unfold execCtrlRepeat at h
  simp only [Host.Outcome.next.injEq] at h
  subst h
  (repeat' split) <;> simp

@[simp] theorem State.endXids_kept (s : State) (l code : Nat) :
    (State.endXids s l code).kept = s.kept := by
  unfold State.endXids
  simp [foldl_kept]

@[simp] theorem State.reclaimLost_kept (s : State) (g : Nat) :
    (State.reclaimLost s g).kept = s.kept := by
  unfold State.reclaimLost
  (repeat' split) <;> simp [foldl_kept]

@[simp] theorem State.retireLink_kept (s : State) (l : Nat) :
    (State.retireLink s l).kept = s.kept := by
  unfold State.retireLink
  simp

theorem execBorderPayloadFlit_kept (link : Nat) (fl : PayloadFlit) (s : State) (out : State) (h : execBorderPayloadFlit link fl s = .next out) : out.kept = s.kept := by
  unfold execBorderPayloadFlit at h
  simp only [Host.Outcome.next.injEq] at h
  subst h
  simp [foldl_kept]

theorem execBorderAckTimer_kept (link : Nat) (s : State) (out : State) (h : execBorderAckTimer link s = .next out) : out.kept = s.kept := by
  unfold execBorderAckTimer at h
  simp only [Host.Outcome.next.injEq] at h
  subst h
  simp

theorem execBorderSymbolLock_kept (link : Nat) (s : State) (out : State) (h : execBorderSymbolLock link s = .next out) : out.kept = s.kept := by
  unfold execBorderSymbolLock at h
  simp only [Host.Outcome.next.injEq] at h
  subst h
  simp

theorem execDownRetry_kept (link : Nat) (s : State) (out : State) (h : execDownRetry link s = .next out) : out.kept = s.kept := by
  unfold execDownRetry at h
  simp only [Host.Outcome.next.injEq] at h
  subst h
  simp

@[simp] theorem State.startAdmission_kept (s : State) (n : Nat) :
    (State.startAdmission s n).kept = s.kept := by
  unfold State.startAdmission
  simp

theorem execWidthAck_kept (link : Nat) (mask : BitVec 8) (s : State) (out : State) (h : execWidthAck link mask s = .next out) : out.kept = s.kept := by
  unfold execWidthAck at h
  simp only [Host.Outcome.next.injEq] at h
  subst h
  simp

theorem execHomeLinkReturn_kept (unit peer : Nat) (s : State) (out : State) (h : execHomeLinkReturn unit peer s = .next out) : out.kept = s.kept := by
  unfold execHomeLinkReturn at h
  simp only [Host.Outcome.next.injEq] at h
  subst h
  simp

@[simp] theorem State.borderOut_kept (s : State) (l : Nat) (p : Packet) :
    (State.borderOut s l p).kept = s.kept := by
  unfold State.borderOut
  simp

@[simp] theorem State.borderBack_kept (s : State) (l xid : Nat) (p : Packet) (last : Bool) :
    (State.borderBack s l xid p last).kept = s.kept := by
  unfold State.borderBack
  (repeat' split) <;> simp

theorem execBorderPacket_kept (link : Nat) (b : BorderPkt) (s : State) (out : State) (h : execBorderPacket link b s = .next out) : out.kept = s.kept := by
  unfold execBorderPacket at h
  simp only [Host.Outcome.next.injEq] at h
  subst h
  (repeat' split) <;> simp

end Sys2Proof.Machine
end

