-- ==== Sys2Proof/Laws/KeptFaults.lean ====
section
/-! SUPPORT. The kept part of the state under the operations of Machine/Faults.lean. -/

namespace Sys2Proof.Machine

@[simp] theorem State.alarm_kept (s : State) :
    (State.alarm s).kept = s.kept := by
  unfold State.alarm
  simp

@[simp] theorem State.setMode_kept (s : State) (m : Mode) (cause : Nat) :
    (State.setMode s m cause).kept = s.kept := by
  unfold State.setMode
  simp

@[simp] theorem State.degrade_kept (s : State) (code : Nat) :
    (State.degrade s code).kept = s.kept := by
  unfold State.degrade
  simp

@[simp] theorem State.quarantine_kept (s : State) (cause : Nat) :
    (State.quarantine s cause).kept = s.kept := by
  unfold State.quarantine
  simp [foldl_kept]

@[simp] theorem State.toQuarantine_kept (s : State) (cause unit : Nat) :
    (State.toQuarantine s cause unit).kept = s.kept := by
  unfold State.toQuarantine
  simp

@[simp] theorem State.latchFault_kept (s : State) (r : FaultReport) :
    (State.latchFault s r).kept = s.kept := by
  unfold State.latchFault
  simp

@[simp] theorem State.logFault_kept (s : State) (r : FaultReport) (flags : Nat) :
    (State.logFault s r flags).kept = s.kept := by
  unfold State.logFault
  exact State.kept_mk ..

@[simp] theorem State.removal_kept (s : State) (kind unit element detail : Nat) :
    (State.removal s kind unit element detail).kept = s.kept := by
  unfold State.removal
  simp

@[simp] theorem State.retireHostLane_kept (s : State) (c lane : Nat) :
    (State.retireHostLane s c lane).kept = s.kept := by
  unfold State.retireHostLane
  simp [foldl_kept]
  (repeat' split) <;> simp [foldl_kept]

@[simp] theorem State.retireChannel_kept (s : State) (ch : Nat) :
    (State.retireChannel s ch).kept = s.kept := by
  unfold State.retireChannel
  simp [foldl_kept]

@[simp] theorem State.losePseudo_kept (s : State) (stack pc : Nat) (spare : Bool) :
    (State.losePseudo s stack pc spare).kept = s.kept := by
  unfold State.losePseudo
  simp

@[simp] theorem State.addInteg_kept (s : State) (g : Nat) :
    (State.addInteg s g).kept = s.kept := by
  unfold State.addInteg
  simp

@[simp] theorem State.addUe_kept (s : State) (g : Nat) :
    (State.addUe s g).kept = s.kept := by
  unfold State.addUe
  simp

@[simp] theorem State.steerWire_kept (s : State) (knot port group : Nat) :
    (State.steerWire s knot port group).kept = s.kept := by
  unfold State.steerWire
  simp

@[simp] theorem State.dropCopy_kept (s : State) (r : FaultReport) (y0 : CopyOf) :
    (State.dropCopy s r y0).kept = s.kept := by
  unfold State.dropCopy
  cases y0
  all_goals
    dsimp only
    (repeat' split) <;> first
      | rfl
      | (simp; done)
      | (have k := congrArg (fun x : _ × State => x.2.kept) ‹_ = (_, _)›; simp at k; simp [k]; done)

theorem execSelfTestTick_kept (unit : Nat) (pass : Bool) (s : State) (out : State) (h : execSelfTestTick unit pass s = .next out) : out.kept = s.kept := by
  unfold execSelfTestTick at h
  simp only [Host.Outcome.next.injEq] at h
  subst h
  simp

theorem execQuietPeriodExpiry_kept (unit : Nat) (s : State) (out : State) (h : execQuietPeriodExpiry unit s = .next out) : out.kept = s.kept := by
  unfold execQuietPeriodExpiry at h
  simp only [Host.Outcome.next.injEq] at h
  subst h
  (repeat' split) <;> simp

theorem execMramRecordWrite_kept (kind unit element detail : Nat) (ok : Bool) (s : State) (out : State) (h : execMramRecordWrite kind unit element detail ok s = .next out) : out.kept = s.kept := by
  unfold execMramRecordWrite at h
  simp only [Host.Outcome.next.injEq] at h
  subst h
  (repeat' split) <;> simp

@[simp] theorem State.markRecords_kept (s : State) (f : FnId) (all : Bool) (index st : Nat) :
    (State.markRecords s f all index st).kept = s.kept := by
  unfold State.markRecords
  simp

theorem execRetireClear_kept (f : FnId) (all : Bool) (index : Nat) (s : State) (out : State) (h : execRetireClear f all index s = .next out) : out.kept = s.kept := by
  unfold execRetireClear at h
  simp only [Host.Outcome.next.injEq] at h
  subst h
  simp

theorem execRetireClearCancel_kept (f : FnId) (all : Bool) (index : Nat) (s : State) (out : State) (h : execRetireClearCancel f all index s = .next out) : out.kept = s.kept := by
  unfold execRetireClearCancel at h
  simp only [Host.Outcome.next.injEq] at h
  subst h
  simp

theorem execRuleFault_kept (v : Violation) (s : State) (out : State) (h : execRuleFault v s = .next out) : out.kept = s.kept := by
  unfold execRuleFault at h
  simp only [Host.Outcome.next.injEq] at h
  subst h
  (repeat' split) <;> simp

@[simp] theorem State.eccHbm_kept (s : State) (q pc a : Nat) (ecc : EccResult) :
    (State.eccHbm s q pc a ecc).kept = s.kept := by
  unfold State.eccHbm
  (repeat' split) <;> simp

@[simp] theorem State.scrubHbm_kept (s : State) (q pc : Nat) (ecc : EccResult) :
    (State.scrubHbm s q pc ecc).kept = s.kept := by
  unfold State.scrubHbm
  (repeat' split) <;> simp

@[simp] theorem State.grantHbm_kept (s : State) (q pc : Nat) (r : SlotReq) (ecc : EccResult) :
    (State.grantHbm s q pc r ecc).kept = s.kept := by
  unfold State.grantHbm
  simp [foldl_kept]
  (repeat' split) <;> simp [foldl_kept]

theorem execTamperInputAssert_kept (i : Nat) (s : State) (out : State) (h : execTamperInputAssert i s = .next out) : out.kept = s.kept := by
  unfold execTamperInputAssert at h
  simp only [Host.Outcome.next.injEq] at h
  subst h
  simp

theorem execThermtrip_kept (quad : Nat) (s : State) (out : State) (h : execThermtrip quad s = .next out) : out.kept = s.kept := by
  unfold execThermtrip at h
  simp only [Host.Outcome.next.injEq] at h
  subst h
  simp

end Sys2Proof.Machine
end

