-- ==== Sys2Proof/Laws/KeptEvents.lean ====
section
/-! SUPPORT. The kept part of the state under the operations of Machine/Events.lean. -/

namespace Sys2Proof.Machine

theorem execSourcePresent_kept (s : State) (out : State) (h : execSourcePresent s = .next out) : out.kept = s.kept := by
  unfold execSourcePresent at h
  simp only [Host.Outcome.next.injEq] at h
  subst h
  (repeat' split) <;> simp

theorem execEndOfService_kept (s : State) (out : State) (h : execEndOfService s = .next out) : out.kept = s.kept := by
  unfold execEndOfService at h
  simp only [Host.Outcome.next.injEq] at h
  subst h
  simp

@[simp] theorem State.senseInput_kept (s : State) (i : Nat) (old new : Bool) :
    (State.senseInput s i old new).kept = s.kept := by
  unfold State.senseInput
  simp

@[simp] theorem State.modPin_kept (s : State) (i : Nat) (m : EvtPin → EvtPin) :
    (State.modPin s i m).kept = s.kept := by
  unfold State.modPin
  simp

theorem execEvtInChange_kept (i : Nat) (level : Bool) (s : State) (out : State) (h : execEvtInChange i level s = .next out) : out.kept = s.kept := by
  unfold execEvtInChange at h
  simp only [Host.Outcome.next.injEq] at h
  subst h
  simp

theorem execFilterCountExpiry_kept (i : Nat) (s : State) (out : State) (h : execFilterCountExpiry i s = .next out) : out.kept = s.kept := by
  unfold execFilterCountExpiry at h
  simp only [Host.Outcome.next.injEq] at h
  subst h
  simp

end Sys2Proof.Machine
end

