-- ==== Sys2Proof/Laws/KeptStartup.lean ====
section
/-! SUPPORT. The kept part of the state under the operations of Machine/Startup.lean. -/

namespace Sys2Proof.Machine

theorem execPgAonAssert_kept (smbAddr : Nat) (s : State) (out : State) (h : execPgAonAssert smbAddr s = .next out) : out.kept = s.kept := by
  unfold execPgAonAssert at h
  simp only [Host.Outcome.next.injEq] at h
  subst h
  simp

@[simp] theorem State.startRecord_kept (s : State) (code step detail : Nat) :
    (State.startRecord s code step detail).kept = s.kept := by
  unfold State.startRecord
  simp

@[simp] theorem State.stepDone_kept (s : State) (n : Nat) :
    (State.stepDone s n).kept = s.kept := by
  unfold State.stepDone
  simp

@[simp] theorem State.domOff_kept (s : State) (d : Nat) :
    (State.domOff s d).kept = s.kept := by
  unfold State.domOff
  simp

@[simp] theorem State.holdOut_kept (s : State) (fixed : Bool) (r : RetRec) :
    (State.holdOut s fixed r).kept = s.kept := by
  unfold State.holdOut
  (repeat' split) <;> simp

@[simp] theorem State.placeFinger_kept (s : State) (f : FgId) :
    (State.placeFinger s f).kept = s.kept := by
  unfold State.placeFinger
  simp

@[simp] theorem State.startStep1_kept (s : State) (b : Board) :
    (State.startStep1 s b).kept = s.kept := by
  unfold State.startStep1
  simp

@[simp] theorem State.enterBlank_kept (s : State) (cause : Nat) :
    (State.enterBlank s cause).kept = s.kept := by
  unfold State.enterBlank
  simp [foldl_kept]

@[simp] theorem State.startStep3_kept (s : State) (p : Pattern) :
    (State.startStep3 s p).kept = s.kept := by
  unfold State.startStep3
  simp

@[simp] theorem State.startStep4_kept (s : State) (b : Board) (p : Pattern) :
    (State.startStep4 s b p).kept = s.kept := by
  unfold State.startStep4
  simp [foldl_kept]

@[simp] theorem State.hbmUntrained_kept (s : State) (q pc : Nat) :
    (State.hbmUntrained s q pc).kept = s.kept := by
  unfold State.hbmUntrained
  simp

@[simp] theorem State.startStep5_kept (s : State) (b : Board) :
    (State.startStep5 s b).kept = s.kept := by
  unfold State.startStep5
  (repeat' split) <;> simp [foldl_kept]

@[simp] theorem State.copyFailed_kept (s : State) (code copy : Nat) :
    (State.copyFailed s code copy).kept = s.kept := by
  unfold State.copyFailed
  simp

end Sys2Proof.Machine
end

