-- ==== Sys2Proof/Laws/KeptRecovery.lean ====
section
/-! SUPPORT. The kept part of the state under the operations of Machine/Recovery.lean. -/

namespace Sys2Proof.Machine

@[simp] theorem State.recoveryOp_kept (s : State) (f : FnId) (op len : Nat) (copyB : Bool) (bad : Nat) (run : State → State) (hrun : ∀ x0, (run x0).kept = (x0 : State).kept) :
    (State.recoveryOp s f op len copyB bad run).kept = s.kept := by
  unfold State.recoveryOp
  simp [hrun]

theorem execRecoveryVerify_kept (f : FnId) (copyB : Bool) (b : Board) (s : State) (out : State) (h : execRecoveryVerify f copyB b s = .next out) : out.kept = s.kept := by
  unfold execRecoveryVerify at h
  simp only [Host.Outcome.next.injEq] at h
  subst h
  rw [State.recoveryOp_kept]
  intro s'
  simp

theorem execRecoveryOpDone_kept (ok : Bool) (s : State) (out : State) (h : execRecoveryOpDone ok s = .next out) : out.kept = s.kept := by
  unfold execRecoveryOpDone at h
  simp only [Host.Outcome.next.injEq] at h
  subst h
  simp

end Sys2Proof.Machine
end

