-- ==== Sys2Proof/Laws/KeptPower.lean ====
section
/-! SUPPORT. The kept part of the state under the operations of Machine/Power.lean. -/

namespace Sys2Proof.Machine

@[simp] theorem State.stepHigh_kept (s : State) :
    (State.stepHigh s).kept = s.kept := by
  unfold State.stepHigh
  simp

@[simp] theorem State.avsWrite_kept (s : State) (mv : Nat) :
    (State.avsWrite s mv).kept = s.kept := by
  unfold State.avsWrite
  simp

@[simp] theorem State.startMove_kept (s : State) (t : Nat) :
    (State.startMove s t).kept = s.kept := by
  unfold State.startMove
  simp

@[simp] theorem State.choosePoint_kept (s : State) (t : Nat) :
    (State.choosePoint s t).kept = s.kept := by
  unfold State.choosePoint
  simp

theorem execIslandsLowReported_kept (s : State) (out : State) (h : execIslandsLowReported s = .next out) : out.kept = s.kept := by
  unfold execIslandsLowReported at h
  simp only [Host.Outcome.next.injEq] at h
  subst h
  simp

@[simp] theorem State.avsFail_kept (s : State) :
    (State.avsFail s).kept = s.kept := by
  unfold State.avsFail
  simp

theorem execAvsTransactionDone_kept (r : AvsResult) (s : State) (out : State) (h : execAvsTransactionDone r s = .next out) : out.kept = s.kept := by
  unfold execAvsTransactionDone at h
  simp only [Host.Outcome.next.injEq] at h
  subst h
  (repeat' split) <;> simp

theorem execVoltageGood_kept (s : State) (out : State) (h : execVoltageGood s = .next out) : out.kept = s.kept := by
  unfold execVoltageGood at h
  simp only [Host.Outcome.next.injEq] at h
  subst h
  (repeat' split) <;> simp

theorem execAvsRetryTick_kept (r : AvsResult) (s : State) (out : State) (h : execAvsRetryTick r s = .next out) : out.kept = s.kept := by
  unfold execAvsRetryTick at h
  simp only [Host.Outcome.next.injEq] at h
  subst h
  (repeat' split) <;> simp

theorem execPaceMonitorSample_kept (quad : Nat) (readings : List Nat) (s : State) (out : State) (h : execPaceMonitorSample quad readings s = .next out) : out.kept = s.kept := by
  unfold execPaceMonitorSample at h
  simp only [Host.Outcome.next.injEq] at h
  subst h
  (repeat' split) <;> simp

theorem execWvePaceAlarmClear_kept (quad : Nat) (s : State) (out : State) (h : execWvePaceAlarmClear quad s = .next out) : out.kept = s.kept := by
  unfold execWvePaceAlarmClear at h
  simp only [Host.Outcome.next.injEq] at h
  subst h
  simp

theorem execSampleWindowEnd_kept (s : State) (out : State) (h : execSampleWindowEnd s = .next out) : out.kept = s.kept := by
  unfold execSampleWindowEnd at h
  simp only [Host.Outcome.next.injEq] at h
  subst h
  simp

theorem execTWarnReached_kept (quad temp : Nat) (s : State) (out : State) (h : execTWarnReached quad temp s = .next out) : out.kept = s.kept := by
  unfold execTWarnReached at h
  simp only [Host.Outcome.next.injEq] at h
  subst h
  (repeat' split) <;> simp

theorem execThermalHoldEnd_kept (temps : List Nat) (s : State) (out : State) (h : execThermalHoldEnd temps s = .next out) : out.kept = s.kept := by
  unfold execThermalHoldEnd at h
  simp only [Host.Outcome.next.injEq] at h
  subst h
  simp [foldl_kept]

@[simp] theorem State.drainHgate_kept (s : State) (q h : Nat) :
    (State.drainHgate s q h).kept = s.kept := by
  unfold State.drainHgate
  simp [foldl_kept]

@[simp] theorem State.loseCaches_kept (s : State) (d : Nat) :
    (State.loseCaches s d).kept = s.kept := by
  unfold State.loseCaches
  simp [foldl_kept]

@[simp] theorem State.cuffOff_kept (s : State) (l : Nat) :
    (State.cuffOff s l).kept = s.kept := by
  unfold State.cuffOff
  simp [foldl_kept]

theorem execDomainEntryComplete_kept (d : Nat) (s : State) (out : State) (h : execDomainEntryComplete d s = .next out) : out.kept = s.kept := by
  unfold execDomainEntryComplete at h
  simp only [Host.Outcome.next.injEq] at h
  subst h
  (repeat' split) <;> simp [foldl_kept]

theorem execPadReleaseDue_kept (d : Nat) (s : State) (out : State) (h : execPadReleaseDue d s = .next out) : out.kept = s.kept := by
  unfold execPadReleaseDue at h
  simp only [Host.Outcome.next.injEq] at h
  subst h
  simp

theorem execDomainOn_kept (d : Nat) (s : State) (out : State) (h : execDomainOn d s = .next out) : out.kept = s.kept := by
  unfold execDomainOn at h
  simp only [Host.Outcome.next.injEq] at h
  subst h
  (repeat' split) <;> simp [foldl_kept]

end Sys2Proof.Machine
end

