-- ==== Sys2Proof/Laws/KeptUsage.lean ====
section
/-! SUPPORT. The kept part of the state under the operations of Machine/Usage.lean. -/

namespace Sys2Proof.Machine

@[simp] theorem State.addRecord_kept (s : State) (g : Nat) (closed : Bool) :
    (State.addRecord s g closed).kept = s.kept := by
  unfold State.addRecord
  simp

@[simp] theorem State.signBatch_kept (s : State) (b : Batch) :
    (State.signBatch s b).2.kept = s.kept := by
  unfold State.signBatch
  (repeat' split) <;> simp

@[simp] theorem State.signAll_kept (s : State) :
    (State.signAll s).kept = s.kept := by
  unfold State.signAll
  simp [foldl_kept]

@[simp] theorem State.trimRing_kept (s : State) :
    (State.trimRing s).kept = s.kept := by
  unfold State.trimRing
  dsimp only
  exact (foldl_kept _ (fun _ _ => State.kept_mk ..) _ _).trans (State.kept_mk ..)

@[simp] theorem State.writeSeq_kept (s : State) (n : Nat) (ok : Bool) :
    (State.writeSeq s n ok).kept = s.kept := by
  unfold State.writeSeq
  simp

theorem execMinuteBoundary_kept (mramOk : Bool) (s : State) (out : State) (h : execMinuteBoundary mramOk s = .next out) : out.kept = s.kept := by
  unfold execMinuteBoundary at h
  simp only [Host.Outcome.next.injEq] at h
  subst h
  simp [foldl_kept]

theorem execMramSeqRetry_kept (ok : Bool) (s : State) (out : State) (h : execMramSeqRetry ok s = .next out) : out.kept = s.kept := by
  unfold execMramSeqRetry at h
  simp only [Host.Outcome.next.injEq] at h
  subst h
  simp

@[simp] theorem State.endTenancy_kept (s : State) (g : Nat) :
    (State.endTenancy s g).kept = s.kept := by
  unfold State.endTenancy
  simp

@[simp] theorem State.usagePages_kept (s : State) (g n : Nat) :
    (State.usagePages s g n).kept = s.kept := by
  unfold State.usagePages
  simp

theorem execTierOccupancySample_kept (s : State) (out : State) (h : execTierOccupancySample s = .next out) : out.kept = s.kept := by
  unfold execTierOccupancySample at h
  simp only [Host.Outcome.next.injEq] at h
  subst h
  simp

theorem execUsgAnchorWrite_kept (f : FnId) (v : BitVec 64) (s : State) (out : State) (h : execUsgAnchorWrite f v s = .next out) : out.kept = s.kept := by
  unfold execUsgAnchorWrite at h
  simp only [Host.Outcome.next.injEq] at h
  subst h
  simp

@[simp] theorem State.crownWrites_kept (s : State) (o : Origin) (buf : Nat) (bs : List Byte) (result : Nat) :
    (State.crownWrites s o buf bs result).kept = s.kept := by
  unfold State.crownWrites
  split
  · simp
  · refine foldl_kept _ (fun s x => ?_) _ _
    dsimp only
    split
    · exact State.issue_sent_kept ‹_›
    · exact State.issue_wait_kept ‹_›
    · exact State.issue_refused_kept ‹_›

theorem execGetUsage_kept (o : Origin) (glove first buf len : Nat) (s : State) (out : State) (h : execGetUsage o glove first buf len s = .next out) : out.kept = s.kept := by
  unfold execGetUsage at h
  simp only [Host.Outcome.next.injEq] at h
  subst h
  simp

end Sys2Proof.Machine
end

