-- ==== Sys2Proof/Laws/KeptRegisters.lean ====
section
/-! SUPPORT. The kept part of the state under the operations of Machine/Registers.lean. -/

namespace Sys2Proof.Machine

@[simp] theorem State.readReg_kept (s : State) (f : FnId) (off at' : Nat) :
    (State.readReg s f off at').2.kept = s.kept := by
  unfold State.readReg
  (repeat' split) <;> simp

theorem after_kept {r : Result} {s : State} (h : ∀ out, r = .next out → out.kept = s.kept) : (after r s).kept = s.kept := by
  unfold after
  split
  · exact h _ rfl
  · rfl

@[simp] theorem State.writeQue_kept (s : State) (q : QId) (o off w en : Nat) :
    (State.writeQue s q o off w en).kept = s.kept := by
  unfold State.writeQue
  dsimp only
  (repeat' split) <;> first
    | (simp; done)
    | exact after_kept (execDoorbell_kept _ _ _)

@[simp] theorem State.writeMsix_kept (s : State) (f : FnId) (o w en : Nat) :
    (State.writeMsix s f o w en).kept = s.kept := by
  unfold State.writeMsix
  simp

@[simp] theorem State.writeEvt_kept (s : State) (f : FnId) (o w en : Nat) :
    (State.writeEvt s f o w en).kept = s.kept := by
  unfold State.writeEvt
  simp

@[simp] theorem State.writeFlt_kept (s : State) (f : FnId) (o w en : Nat) :
    (State.writeFlt s f o w en).kept = s.kept := by
  unfold State.writeFlt
  dsimp only
  (repeat' split) <;> first
    | (simp; done)
    | exact after_kept (execRetireClear_kept _ _ _ _)
    | exact after_kept (execRetireClearCancel_kept _ _ _ _)

@[simp] theorem State.writeWve_kept (s : State) (f : FnId) (o w en : Nat) :
    (State.writeWve s f o w en).kept = s.kept := by
  unfold State.writeWve
  dsimp only
  (repeat' split) <;> first
    | (simp; done)
    | exact after_kept (execWvePaceAlarmClear_kept _ _)

@[simp] theorem State.writeBlock_kept (s : State) (u off w en : Nat) :
    (State.writeBlock s u off w en).kept = s.kept := by
  unfold State.writeBlock
  simp

@[simp] theorem State.writeCfg_kept (s : State) (f : FnId) (field : CfgField) (v : Nat) :
    (State.writeCfg s f field v).kept = s.kept := by
  unfold State.writeCfg
  (repeat' split) <;> simp

end Sys2Proof.Machine
end

