-- ==== Sys2Proof/Laws/KeptHostPort.lean ====
section
/-! SUPPORT. The kept part of the state under the operations of Machine/HostPort.lean. -/

namespace Sys2Proof.Machine

@[simp] theorem State.hostUr_kept (s : State) (f : FnId) (t : TlpHead) :
    (State.hostUr s f t).kept = s.kept := by
  unfold State.hostUr
  simp

@[simp] theorem State.sendCpls_kept (s : State) (f : FnId) (tag addr : Nat) (bs : List Byte) (ep : Bool) :
    (State.sendCpls s f tag addr bs ep).kept = s.kept := by
  unfold State.sendCpls
  simp [foldl_kept]

@[simp] theorem State.hostReadDone_kept (s : State) (f : FnId) (tag addr len code : Nat) (ep : Bool) (bs : Option (List Byte)) :
    (State.hostReadDone s f tag addr len code ep bs).kept = s.kept := by
  unfold State.hostReadDone
  (repeat' split) <;> simp

@[simp] theorem State.sendGlove_kept (s : State) (f : FnId) (ctx : Bool → ReqCtx) (p : Packet) (r : Route) (off g : Nat) :
    (State.sendGlove s f ctx p r off g).kept = s.kept := by
  unfold State.sendGlove
  (repeat' split) <;> simp

@[simp] theorem State.writeBar2_kept (s : State) (f : FnId) (off : Nat) (w : HostWrite) :
    (State.writeBar2 s f off w).kept = s.kept := by
  unfold State.writeBar2
  dsimp only
  (repeat' split) <;> first
    | (simp; done)
    | (have k := congrArg (fun x => x.2.kept) ‹s.check _ _ _ = _›; simp at k; simp [foldl_kept, k]; done)

@[simp] theorem State.readBar2_kept (s : State) (f : FnId) (off : Nat) (r : HostRead) :
    (State.readBar2 s f off r).kept = s.kept := by
  unfold State.readBar2
  dsimp only
  (repeat' split) <;> first
    | (simp; done)
    | (have k := congrArg (fun x => x.2.kept) ‹s.check _ _ _ = _›; simp at k; simp [foldl_kept, k]; done)

@[simp] theorem State.readBar0_kept (s : State) (f : FnId) (unitBase off : Nat) (r : HostRead) :
    (State.readBar0 s f unitBase off r).kept = s.kept := by
  unfold State.readBar0
  dsimp only
  (repeat' split) <;> first
    | (simp; done)
    | (have k := congrArg (fun x => x.2.kept) ‹s.readReg _ _ _ = _›; simp at k; simp [k]; done)

@[simp] theorem State.unitReadDone_kept (s : State) (l tag off len code : Nat) (bs : List Byte) :
    (State.unitReadDone s l tag off len code bs).kept = s.kept := by
  unfold State.unitReadDone
  simp

@[simp] theorem State.pumpLocks_kept (s : State) (c : Nat) :
    (State.pumpLocks s c).kept = s.kept := by
  unfold State.pumpLocks
  refine foldl_kept _ (fun s x => ?_) _ _
  dsimp only
  split
  · rfl
  · split <;> simp

@[simp] theorem State.modLock_kept (s : State) (c line : Nat) (m : Lock → Lock) :
    (State.modLock s c line m).kept = s.kept := by
  unfold State.modLock
  simp

@[simp] theorem State.endLock_kept (s : State) (c : Nat) (k : Lock) (cpl : State → State) (hcpl : ∀ x0, (cpl x0).kept = (x0 : State).kept) :
    (State.endLock s c k cpl).kept = s.kept := by
  unfold State.endLock
  simp [hcpl]

@[simp] theorem State.sendUnlock_kept (s : State) (c : Nat) (k : Lock) (v : Option Nat) :
    (State.sendUnlock s c k v).kept = s.kept := by
  unfold State.sendUnlock
  (repeat' split) <;> simp

@[simp] theorem State.atomicData_kept (s : State) (c line code : Nat) (ep : Bool) (d : Option Line) :
    (State.atomicData s c line code ep d).kept = s.kept := by
  unfold State.atomicData
  (repeat' split) <;> simp

@[simp] theorem State.atomicDone_kept (s : State) (c line code : Nat) :
    (State.atomicDone s c line code).kept = s.kept := by
  unfold State.atomicDone
  (repeat' split) <;> simp

@[simp] theorem State.atomicBar2_kept (s : State) (f : FnId) (off : Nat) (a : HostAtomic) (dropped : Bool) :
    (State.atomicBar2 s f off a dropped).kept = s.kept := by
  unfold State.atomicBar2
  dsimp only
  (repeat' split) <;> first
    | (simp; done)
    | (have k := congrArg (fun x => x.2.kept) ‹s.check _ _ _ = _›; simp at k; simp [foldl_kept, k]; done)

theorem execUnsupportedRequest_kept (link tag : Nat) (kind : BadReq) (s : State) (out : State) (h : execUnsupportedRequest link tag kind s = .next out) : out.kept = s.kept := by
  unfold execUnsupportedRequest at h
  simp only [Host.Outcome.next.injEq] at h
  subst h
  (repeat' split) <;> simp

end Sys2Proof.Machine
end

