-- ==== Sys2Proof/Laws/KeptEpoch.lean ====
section
/-! SUPPORT. The kept part of the state under the operations of Machine/Epoch.lean. -/

namespace Sys2Proof.Machine

@[simp] theorem State.putRules_kept (s : State) (g : Nat) (rs : List Region) :
    (State.putRules s g rs).kept = s.kept := by
  unfold State.putRules
  simp

@[simp] theorem State.putWindow_kept (s : State) (g slot : Nat) (w : Window) :
    (State.putWindow s g slot w).kept = s.kept := by
  unfold State.putWindow
  simp

@[simp] theorem State.mgmtAsk_kept (s : State) (n g : Nat) (m : Mgmt) (msg : MgmtMsg) :
    (State.mgmtAsk s n g m msg).kept = s.kept := by
  unfold State.mgmtAsk
  simp

@[simp] theorem State.askKey_kept (s : State) (n g : Nat) :
    (State.askKey s n g).kept = s.kept := by
  unfold State.askKey
  simp

@[simp] theorem State.askPages_kept (s : State) (n g m : Nat) :
    (State.askPages s n g m).kept = s.kept := by
  unfold State.askPages
  simp

@[simp] theorem State.askRelease_kept (s : State) (n g : Nat) (ps : List Nat) :
    (State.askRelease s n g ps).kept = s.kept := by
  unfold State.askRelease
  simp

@[simp] theorem State.askRevoke_kept (s : State) (n g : Nat) :
    (State.askRevoke s n g).kept = s.kept := by
  unfold State.askRevoke
  simp

@[simp] theorem State.beginChange_kept (s : State) (g : Nat) (o : Origin) (c : Change) :
    (State.beginChange s g o c).kept = s.kept := by
  unfold State.beginChange
  simp

@[simp] theorem State.endChange_kept (s : State) (g code : Nat) :
    (State.endChange s g code).kept = s.kept := by
  unfold State.endChange
  (repeat' split) <;> simp

@[simp] theorem State.reclaimDone_kept (s : State) (g : Nat) :
    (State.reclaimDone s g).kept = s.kept := by
  unfold State.reclaimDone
  (repeat' split) <;> simp

@[simp] theorem State.reclaimLocal_kept (s : State) (g : Nat) :
    (State.reclaimLocal s g).kept = s.kept := by
  unfold State.reclaimLocal
  (repeat' split) <;> simp

@[simp] theorem State.reclaimAnswered_kept (s : State) (n g : Nat) :
    (State.reclaimAnswered s n g).kept = s.kept := by
  unfold State.reclaimAnswered
  simp [foldl_kept]
  (repeat' split) <;> simp [foldl_kept]

@[simp] theorem State.reclaimPages_kept (s : State) (g : Nat) :
    (State.reclaimPages s g).kept = s.kept := by
  unfold State.reclaimPages
  (repeat' split) <;> simp [foldl_kept]

@[simp] theorem State.applyChange_kept (s : State) (g : Nat) (c : EpochChange) :
    (State.applyChange s g c).kept = s.kept := by
  unfold State.applyChange
  (repeat' split) <;> simp [foldl_kept]

end Sys2Proof.Machine
end

