-- ==== Sys2Proof/Laws/KeptAdmin.lean ====
section
/-! SUPPORT. The kept part of the state under the operations of Machine/Admin.lean. -/

namespace Sys2Proof.Machine

@[simp] theorem State.gloveCmd_kept (s : State) (i : Instr) (o : Origin) (g : Nat) (f : State → State) (hf : ∀ x0, (f x0).kept = (x0 : State).kept) :
    (State.gloveCmd s i o g f).kept = s.kept := by
  unfold State.gloveCmd
  simp [hf]

@[simp] theorem State.refuseWith_kept (s : State) (o : Origin) (code result : Nat) :
    (State.refuseWith s o code result).kept = s.kept := by
  unfold State.refuseWith
  simp

@[simp] theorem State.checked_kept (s : State) (o : Origin) (checks : List (Bool × Nat)) (f : State → State) (hf : ∀ x0, (f x0).kept = (x0 : State).kept) :
    (State.checked s o checks f).kept = s.kept := by
  unfold State.checked
  (repeat' split) <;> simp [hf]

@[simp] theorem State.setFingers_kept (s : State) (f : FnId) (old new : Nat) :
    (State.setFingers s f old new).kept = s.kept := by
  unfold State.setFingers
  simp [foldl_kept]

@[simp] theorem State.closeRequests_kept (s : State) (g : Nat) :
    (State.closeRequests s g).kept = s.kept := by
  unfold State.closeRequests
  dsimp only
  rw [foldl_kept _ (fun s r => ?_), foldl_kept _ (fun s r => ?_), foldl_kept _ (fun s r => ?_), foldl_kept _ (fun s r => ?_)]
  · exact State.kept_mkPool ..
  all_goals (repeat' split) <;> simp

@[simp] theorem State.closeAimed_kept (s : State) (f : FnId) :
    (State.closeAimed s f).kept = s.kept := by
  unfold State.closeAimed
  simp

@[simp] theorem State.closeAtomics_kept (s : State) (l g : Nat) :
    (State.closeAtomics s l g).kept = s.kept := by
  unfold State.closeAtomics
  simp [foldl_kept]

@[simp] theorem State.closeLines_kept (s : State) (slot : Nat) :
    (State.closeLines s slot).kept = s.kept := by
  unfold State.closeLines
  simp

@[simp] theorem State.closeWindows_kept (s : State) (g : Nat) :
    (State.closeWindows s g).kept = s.kept := by
  unfold State.closeWindows
  simp

@[simp] theorem State.closeRules_kept (s : State) (g : Nat) :
    (State.closeRules s g).kept = s.kept := by
  unfold State.closeRules
  simp [foldl_kept]

theorem execBandSlotZeroConfirmed_kept (glove : Nat) (s : State) (out : State) (h : execBandSlotZeroConfirmed glove s = .next out) : out.kept = s.kept := by
  unfold execBandSlotZeroConfirmed at h
  simp only [Host.Outcome.next.injEq] at h
  subst h
  simp [foldl_kept]

theorem execLastPageReleased_kept (glove : Nat) (s : State) (out : State) (h : execLastPageReleased glove s = .next out) : out.kept = s.kept := by
  unfold execLastPageReleased at h
  simp only [Host.Outcome.next.injEq] at h
  subst h
  (repeat' split) <;> simp [foldl_kept]

@[simp] theorem State.grantDone_kept (s : State) (o : Origin) (g home : Nat) (ptes : List (Nat × Nat × Nat × Bool)) :
    (State.grantDone s o g home ptes).kept = s.kept := by
  unfold State.grantDone
  simp [foldl_kept]

theorem execGrantPages_kept (o : Origin) (glove home : Nat) (readOnly : Bool) (group m start : Nat) (s : State) (out : State) (h : execGrantPages o glove home readOnly group m start s = .next out) : out.kept = s.kept := by
  unfold execGrantPages at h
  simp only [Host.Outcome.next.injEq] at h
  subst h
  simp

theorem execReclaimPages_kept (o : Origin) (glove mode group m start : Nat) (s : State) (out : State) (h : execReclaimPages o glove mode group m start s = .next out) : out.kept = s.kept := by
  unfold execReclaimPages at h
  simp only [Host.Outcome.next.injEq] at h
  subst h
  simp

theorem execSetLimits_kept (o : Origin) (glove mask share queueLimit fingerLimit rate : Nat) (s : State) (out : State) (h : execSetLimits o glove mask share queueLimit fingerLimit rate s = .next out) : out.kept = s.kept := by
  unfold execSetLimits at h
  simp only [Host.Outcome.next.injEq] at h
  subst h
  simp

theorem execSetPeerWindow_kept (o : Origin) (glove slot : Nat) (image : BitVec 256) (s : State) (out : State) (h : execSetPeerWindow o glove slot image s = .next out) : out.kept = s.kept := by
  unfold execSetPeerWindow at h
  simp only [Host.Outcome.next.injEq] at h
  subst h
  simp

theorem execClearPeerWindow_kept (o : Origin) (glove slot : Nat) (s : State) (out : State) (h : execClearPeerWindow o glove slot s = .next out) : out.kept = s.kept := by
  unfold execClearPeerWindow at h
  simp only [Host.Outcome.next.injEq] at h
  subst h
  simp

@[simp] theorem State.adminCmd_kept (s : State) (i : Instr) (o : Origin) (f : State → State) (hf : ∀ x0, (f x0).kept = (x0 : State).kept) :
    (State.adminCmd s i o f).kept = s.kept := by
  unfold State.adminCmd
  simp [hf]

theorem execPinDomain_kept (o : Origin) (d : Nat) (s : State) (out : State) (h : execPinDomain o d s = .next out) : out.kept = s.kept := by
  unfold execPinDomain at h
  simp only [Host.Outcome.next.injEq] at h
  subst h
  simp

theorem execUnpinDomain_kept (o : Origin) (d : Nat) (s : State) (out : State) (h : execUnpinDomain o d s = .next out) : out.kept = s.kept := by
  unfold execUnpinDomain at h
  simp only [Host.Outcome.next.injEq] at h
  subst h
  simp

theorem execDrain_kept (o : Origin) (s : State) (out : State) (h : execDrain o s = .next out) : out.kept = s.kept := by
  unfold execDrain at h
  simp only [Host.Outcome.next.injEq] at h
  subst h
  simp

theorem execGetLog_kept (o : Origin) (log first buf len : Nat) (s : State) (out : State) (h : execGetLog o log first buf len s = .next out) : out.kept = s.kept := by
  unfold execGetLog at h
  simp only [Host.Outcome.next.injEq] at h
  subst h
  simp

end Sys2Proof.Machine
end

