-- ==== Sys2Proof/Laws/KeptControl.lean ====
section
/-! SUPPORT. The kept part of the state under the operations of Machine/Control.lean. -/

namespace Sys2Proof.Machine

@[simp] theorem State.readRulesPart_kept (s : State) (o : Origin) (g n : Nat) (gloveSpace : Bool) (addr len : Nat) :
    (State.readRulesPart s o g n gloveSpace addr len).kept = s.kept := by
  unfold State.readRulesPart State.rulesPart
  (repeat' split) <;> first
    | (have k := State.issue_sent_kept ‹State.issue _ _ _ = .sent _ _ _›; simp [k]; done)
    | (have k := State.issue_refused_kept ‹State.issue _ _ _ = .refused _ _ _ _›; simp [k]; done)
    | (have k := State.issue_wait_kept ‹State.issue _ _ _ = .wait _›; simp [k]; done)

@[simp] theorem State.readRules_kept (s : State) (o : Origin) (g n : Nat) (gloveSpace : Bool) (addr : Nat) :
    (State.readRules s o g n gloveSpace addr).kept = s.kept := by
  unfold State.readRules
  simp

theorem State.rulesWait_kept (s : State) (o : Origin) (g n : Nat) (gloveSpace : Bool) (addr : Nat) (out : State) (h : State.rulesWait s o g n gloveSpace addr = some out) : out.kept = s.kept := by
  have k : ∀ a len u, (match s.rulesPart o g n gloveSpace a len with | .wait s => some s | _ => none) = some u → u.kept = s.kept := by
    intro a len u e
    split at e
    · simp only [Option.some.injEq] at e
      subst e
      exact State.issue_wait_kept ‹_›
    · simp at e
  unfold State.rulesWait at h
  dsimp only at h
  rw [Option.or_eq_some_iff] at h
  rcases h with h | ⟨-, h⟩
  · exact k _ _ _ h
  · split at h
    · simp at h
    · exact k _ _ _ h

theorem execSetRules_kept (o : Origin) (n : Nat) (gloveSpace : Bool) (addr : Nat) (s : State) (out : State) (h : execSetRules o n gloveSpace addr s = .next out) : out.kept = s.kept := by
  unfold execSetRules at h
  simp only [Host.Outcome.next.injEq] at h
  subst h
  split
  · simp
  · split
    · rename_i e
      split at e
      · exact State.rulesWait_kept _ _ _ _ _ _ _ e
      · simp at e
    · rw [State.controlCmd_kept]
      intro s'
      (repeat' split) <;> simp

@[simp] theorem State.rulesRead_kept (s : State) (o : Origin) (g n : Nat) :
    (State.rulesRead s o g n).kept = s.kept := by
  unfold State.rulesRead
  simp [foldl_kept]
  (repeat' split) <;> simp [foldl_kept]

theorem execGetRuleFault_kept (o : Origin) (buf : Nat) (s : State) (out : State) (h : execGetRuleFault o buf s = .next out) : out.kept = s.kept := by
  unfold execGetRuleFault at h
  simp only [Host.Outcome.next.injEq] at h
  subst h
  simp

theorem execClearRuleFault_kept (o : Origin) (s : State) (out : State) (h : execClearRuleFault o s = .next out) : out.kept = s.kept := by
  unfold execClearRuleFault at h
  simp only [Host.Outcome.next.injEq] at h
  subst h
  simp

@[simp] theorem State.fgResume_kept (s : State) (f : FgId) :
    (State.fgResume s f).kept = s.kept := by
  unfold State.fgResume
  simp [foldl_kept]
  (repeat' split) <;> simp [foldl_kept]

@[simp] theorem State.fgStart_kept (s : State) (f : FgId) (resume bulk : Bool) (share burst : Nat) :
    (State.fgStart s f resume bulk share burst).kept = s.kept := by
  unfold State.fgStart
  simp

theorem execStartFinger_kept (o : Origin) (f : Nat) (resume bulk : Bool) (share burst : Nat) (s : State) (out : State) (h : execStartFinger o f resume bulk share burst s = .next out) : out.kept = s.kept := by
  unfold execStartFinger at h
  simp only [Host.Outcome.next.injEq] at h
  subst h
  simp

theorem execStopFinger_kept (o : Origin) (f : Nat) (s : State) (out : State) (h : execStopFinger o f s = .next out) : out.kept = s.kept := by
  unfold execStopFinger at h
  simp only [Host.Outcome.next.injEq] at h
  subst h
  split
  · rfl
  · rw [State.controlCmd_kept]
    intro s'
    (repeat' split) <;> simp

end Sys2Proof.Machine
end

