-- ==== Sys2Proof/Laws/KeptMgmt.lean ====
section
/-! SUPPORT. The kept part of the state under the operations of Machine/Mgmt.lean. -/

namespace Sys2Proof.Machine

@[simp] theorem State.sendPages_kept (s : State) (n g : Nat) (ps : List Nat) :
    (State.sendPages s n g ps).kept = s.kept := by
  unfold State.sendPages
  simp [foldl_kept]

@[simp] theorem State.releasedFor_kept (s : State) (n g count : Nat) :
    (State.releasedFor s n g count).kept = s.kept := by
  unfold State.releasedFor
  (repeat' split) <;> simp

@[simp] theorem State.ownDone_kept (s : State) (c : OwnChange) :
    (State.ownDone s c).kept = s.kept := by
  unfold State.ownDone
  (repeat' split) <;> simp

@[simp] theorem State.changeOwn_kept (s : State) (pages : List Nat) (owner : Option Nat) (thn : OwnThen) :
    (State.changeOwn s pages owner thn).kept = s.kept := by
  unfold State.changeOwn
  simp

theorem execOwnershipInvalidateAck_kept (gate : Nat) (s : State) (out : State) (h : execOwnershipInvalidateAck gate s = .next out) : out.kept = s.kept := by
  unfold execOwnershipInvalidateAck at h
  simp only [Host.Outcome.next.injEq] at h
  subst h
  (repeat' split) <;> simp

@[simp] theorem State.mgmtFrom_kept (s : State) (n : Nat) (f : State → State) (hf : ∀ x0, (f x0).kept = (x0 : State).kept) :
    (State.mgmtFrom s n f).kept = s.kept := by
  unfold State.mgmtFrom
  simp [hf]

theorem execKeyTransfer_kept (peer glove : Nat) (key : Key) (s : State) (out : State) (h : execKeyTransfer peer glove key s = .next out) : out.kept = s.kept := by
  unfold execKeyTransfer at h
  simp only [Host.Outcome.next.injEq] at h
  subst h
  rw [State.mgmtFrom_kept]
  intro s'
  (repeat' split) <;> first
    | (simp; done)
    | (have k := State.mgmtAnswered_kept _ _ _ _ _ _ ‹_›; simp [k]; done)

theorem execPageAlloc_kept (peer glove m : Nat) (s : State) (out : State) (h : execPageAlloc peer glove m s = .next out) : out.kept = s.kept := by
  unfold execPageAlloc at h
  simp only [Host.Outcome.next.injEq] at h
  subst h
  rw [State.mgmtFrom_kept]
  intro s'
  (repeat' split) <;> first
    | (simp; done)
    | (have k := State.mgmtAnswered_kept _ _ _ _ _ _ ‹_›; simp [k]; done)

theorem execPageRelease_kept (peer glove : Nat) (pages : List Nat) (s : State) (out : State) (h : execPageRelease peer glove pages s = .next out) : out.kept = s.kept := by
  unfold execPageRelease at h
  simp only [Host.Outcome.next.injEq] at h
  subst h
  simp

theorem execKeyRevoke_kept (peer glove : Nat) (s : State) (out : State) (h : execKeyRevoke peer glove s = .next out) : out.kept = s.kept := by
  unfold execKeyRevoke at h
  simp only [Host.Outcome.next.injEq] at h
  subst h
  rw [State.mgmtFrom_kept]
  intro s'
  (repeat' split) <;> first
    | (simp; done)
    | (have k := State.mgmtAnswered_kept _ _ _ _ _ _ ‹_›; simp [k]; done)

@[simp] theorem State.grantFailed_kept (s : State) (x : PeerGrant) (finish : State → State) (hfinish : ∀ x0, (finish x0).kept = (x0 : State).kept) :
    (State.grantFailed s x finish).kept = s.kept := by
  unfold State.grantFailed
  simp [hfinish]

theorem State.mgmtAnswered_kept (s : State) (n g : Nat) (is : Mgmt → Bool) (m : Mgmt) (out : State)
    (h : s.mgmtAnswered n g is = some (m, out)) : out.kept = s.kept := by
  unfold State.mgmtAnswered at h
  split at h
  · simp only [Option.some.injEq, Prod.mk.injEq] at h
    rw [← h.2]; simp
  · simp at h

@[simp] theorem State.mgmtAnswered_getD (s : State) (n g : Nat) (is : Mgmt → Bool) :
    (((s.mgmtAnswered n g is).map Prod.snd).getD s).kept = s.kept := by
  unfold State.mgmtAnswered
  split <;> simp

theorem execKeyConfirm_kept (peer glove slot code : Nat) (s : State) (out : State) (h : execKeyConfirm peer glove slot code s = .next out) : out.kept = s.kept := by
  unfold execKeyConfirm at h
  simp only [Host.Outcome.next.injEq] at h
  subst h
  rw [State.mgmtFrom_kept]
  intro s'
  (repeat' split) <;> first
    | (simp; done)
    | (have k := State.mgmtAnswered_kept _ _ _ _ _ _ ‹_›; simp [k]; done)

theorem execPageList_kept (peer glove code : Nat) (pages : List Nat) (s : State) (out : State) (h : execPageList peer glove code pages s = .next out) : out.kept = s.kept := by
  unfold execPageList at h
  simp only [Host.Outcome.next.injEq] at h
  subst h
  rw [State.mgmtFrom_kept]
  intro s'
  (repeat' split) <;> first
    | (simp; done)
    | (have k := State.mgmtAnswered_kept _ _ _ _ _ _ ‹_›; simp [k]; done)

theorem execRevokeAck_kept (peer glove _pages : Nat) (s : State) (out : State) (h : execRevokeAck peer glove _pages s = .next out) : out.kept = s.kept := by
  unfold execRevokeAck at h
  simp only [Host.Outcome.next.injEq] at h
  subst h
  rw [State.mgmtFrom_kept]
  intro s'
  (repeat' split) <;> first
    | (simp; done)
    | (have k := State.mgmtAnswered_kept _ _ _ _ _ _ ‹_›; simp [k]; done)

theorem execMgmtRetryTimeout_kept (peer glove : Nat) (s : State) (out : State) (h : execMgmtRetryTimeout peer glove s = .next out) : out.kept = s.kept := by
  unfold execMgmtRetryTimeout at h
  simp only [Host.Outcome.next.injEq] at h
  subst h
  rw [State.mgmtFrom_kept]
  intro s'
  (repeat' split) <;> first
    | (simp; done)
    | (have k := State.mgmtAnswered_kept _ _ _ _ _ _ ‹_›; simp [k]; done)

end Sys2Proof.Machine
end

