-- ==== Sys2Proof/Laws/KeptSpdm.lean ====
section
/-! SUPPORT. The kept part of the state under the operations of Machine/Spdm.lean. -/

namespace Sys2Proof.Machine

@[simp] theorem State.spdm_kept (s : State) (c : SpdmCh) (host : Nat → Option Nat → State → State) (border : Nat → State → State) (hhost : ∀ x0 x1 x2, (host x0 x1 x2).kept = (x2 : State).kept) (hborder : ∀ x0 x1, (border x0 x1).kept = (x1 : State).kept) :
    (State.spdm s c host border).kept = s.kept := by
  unfold State.spdm
  (repeat' split) <;> simp [hhost, hborder]

@[simp] theorem State.spdmBack_kept (s : State) (l : Nat) (f : Nat → State → State) (hf : ∀ x0 x1, (f x0 x1).kept = (x1 : State).kept) :
    (State.spdmBack s l f).kept = s.kept := by
  unfold State.spdmBack
  simp [hf]

@[simp] theorem State.reply_kept (s : State) (c : SpdmCh) (r : Spdm) :
    (State.reply s c r).kept = s.kept := by
  unfold State.reply
  simp

@[simp] theorem State.admitPeer_kept (s : State) (n : Nat) :
    (State.admitPeer s n).kept = s.kept := by
  unfold State.admitPeer
  simp [foldl_kept]

@[simp] theorem State.signed_kept (s : State) :
    (State.signed s).2.kept = s.kept := by
  unfold State.signed
  simp

@[simp] theorem State.askNext_kept (s : State) (n stage : Nat) :
    (State.askNext s n stage).kept = s.kept := by
  unfold State.askNext
  simp

end Sys2Proof.Machine
end

