-- ==== Sys2Proof/Laws/KeptTdisp.lean ====
section
/-! SUPPORT. The kept part of the state under the operations of Machine/Tdisp.lean. -/

namespace Sys2Proof.Machine

@[simp] theorem State.modStream_kept (s : State) (l id : Nat) (m : IdeStream → IdeStream) :
    (State.modStream s l id m).kept = s.kept := by
  unfold State.modStream
  simp

theorem execShareExpiry_kept (glove : Nat) (s : State) (out : State) (h : execShareExpiry glove s = .next out) : out.kept = s.kept := by
  unfold execShareExpiry at h
  simp only [Host.Outcome.next.injEq] at h
  subst h
  simp

theorem execDrbgReseed_kept (s : State) (out : State) (h : execDrbgReseed s = .next out) : out.kept = s.kept := by
  unfold execDrbgReseed at h
  simp only [Host.Outcome.next.injEq] at h
  subst h
  simp

theorem execEntropyHealthFail_kept (s : State) (out : State) (h : execEntropyHealthFail s = .next out) : out.kept = s.kept := by
  unfold execEntropyHealthFail at h
  simp only [Host.Outcome.next.injEq] at h
  subst h
  simp

theorem execEntropyRetry_kept (s : State) (out : State) (h : execEntropyRetry s = .next out) : out.kept = s.kept := by
  unfold execEntropyRetry at h
  simp only [Host.Outcome.next.injEq] at h
  subst h
  simp

end Sys2Proof.Machine
end

