-- ==== Sys2Proof/Laws/KeptWeaveRows.lean ====
section
/-! SUPPORT. The kept part of the state under the operations of Machine/WeaveRows.lean. -/

namespace Sys2Proof.Machine

@[simp] theorem State.missAt_kept (s : State) (p : Packet) :
    (State.missAt s p).kept = s.kept := by
  unfold State.missAt
  simp

@[simp] theorem State.tableServed_kept (s : State) (p : Packet) :
    (State.tableServed s p).kept = s.kept := by
  unfold State.tableServed
  dsimp only
  split
  · simp
  · (repeat' split) <;> (have k := congrArg (fun x : _ × State => x.2.kept) ‹_ = (_, _)›; simp at k; simp [k]; done)

@[simp] theorem State.fenceFails_kept (s : State) (p : Packet) :
    (State.fenceFails s p).kept = s.kept := by
  unfold State.fenceFails
  simp

theorem execZlRd_kept (p : Packet) (s : State) (out : State) (h : execZlRd p s = .next out) : out.kept = s.kept := by
  unfold execZlRd at h
  simp only [Host.Outcome.next.injEq] at h
  subst h
  simp

theorem execRegRd_kept (p : Packet) (s : State) (out : State) (h : execRegRd p s = .next out) : out.kept = s.kept := by
  unfold execRegRd at h
  simp only [Host.Outcome.next.injEq] at h
  subst h
  simp

theorem execRegWr_kept (p : Packet) (s : State) (out : State) (h : execRegWr p s = .next out) : out.kept = s.kept := by
  unfold execRegWr at h
  simp only [Host.Outcome.next.injEq] at h
  subst h
  simp [foldl_kept]

@[simp] theorem State.setReq_kept (s : State) (r : Req) :
    (State.setReq s r).kept = s.kept := by
  unfold State.setReq
  simp

@[simp] theorem State.crownWritten_kept (s : State) (o : Origin) (code result own : Nat) :
    (State.crownWritten s o code result own).kept = s.kept := by
  unfold State.crownWritten
  simp

@[simp] theorem State.discardData_kept (s : State) (r : Req) :
    (State.discardData s r).kept = s.kept := by
  unfold State.discardData
  simp

@[simp] theorem State.peerFailed_kept (s : State) (r : Req) :
    (State.peerFailed s r).kept = s.kept := by
  unfold State.peerFailed
  (repeat' split) <;> simp [foldl_kept]

@[simp] theorem State.countRead_kept (s : State) (r : Req) (n : Nat) :
    (State.countRead s r n).kept = s.kept := by
  unfold State.countRead
  (repeat' split) <;> simp

theorem execTagRelease_kept (unit tag : Nat) (s : State) (out : State) (h : execTagRelease unit tag s = .next out) : out.kept = s.kept := by
  unfold execTagRelease at h
  simp only [Host.Outcome.next.injEq] at h
  subst h
  simp

end Sys2Proof.Machine
end

