-- ==== Sys2Proof/Laws/KeptKnot.lean ====
section
/-! SUPPORT. The kept part of the state under the operations of Machine/Knot.lean. -/

namespace Sys2Proof.Machine

@[simp] theorem State.modQ_kept (s : State) (knot port vc : Nat) (f : KnotQ → KnotQ) :
    (State.modQ s knot port vc f).kept = s.kept := by
  unfold State.modQ
  simp

@[simp] theorem State.modOut_kept (s : State) (knot port : Nat) (f : KnotOut → KnotOut) :
    (State.modOut s knot port f).kept = s.kept := by
  unfold State.modOut
  simp

@[simp] theorem State.countWait_kept (s : State) (knot port vc inp : Nat) :
    (State.countWait s knot port vc inp).kept = s.kept := by
  unfold State.countWait
  (repeat' split) <;> simp

@[simp] theorem State.countWaits_kept (s : State) (knot port : Nat) :
    (State.countWaits s knot port).kept = s.kept := by
  unfold State.countWaits
  simp [foldl_kept]

@[simp] theorem State.leaveInput_kept (s : State) (knot inp vc : Nat) :
    (State.leaveInput s knot inp vc).kept = s.kept := by
  unfold State.leaveInput
  simp

@[simp] theorem State.enterNext_kept (s : State) (knot port vc : Nat) (f : FlitPair) :
    (State.enterNext s knot port vc f).kept = s.kept := by
  unfold State.enterNext
  (repeat' split) <;> simp

@[simp] theorem State.enterUnit_kept (s : State) (knot vc : Nat) :
    (State.enterUnit s knot vc).kept = s.kept := by
  unfold State.enterUnit
  simp

@[simp] theorem State.hold_kept (s : State) (knot vc : Nat) (f : FlitPair) :
    (State.hold s knot vc f).kept = s.kept := by
  unfold State.hold
  simp

@[simp] theorem State.send_kept (s : State) (knot port inp vc : Nat) (f : FlitPair) :
    (State.send s knot port inp vc f).kept = s.kept := by
  unfold State.send
  simp

@[simp] theorem State.knotFault_kept (s : State) (knot : Nat) (e : FaultError) (code element : Nat) :
    (State.knotFault s knot e code element).kept = s.kept := by
  unfold State.knotFault
  simp

theorem execKnotOutputGrant_kept (knot port : Nat) (err : StrandError) (s : State) (out : State) (h : execKnotOutputGrant knot port err s = .next out) : out.kept = s.kept := by
  unfold execKnotOutputGrant at h
  simp only [Host.Outcome.next.injEq] at h
  subst h
  (repeat' split) <;> simp [foldl_kept]

theorem execHoldStoreRoomFreed_kept (knot vc : Nat) (s : State) (out : State) (h : execHoldStoreRoomFreed knot vc s = .next out) : out.kept = s.kept := by
  unfold execHoldStoreRoomFreed at h
  simp only [Host.Outcome.next.injEq] at h
  subst h
  split
  · rfl
  · split
    · refine (foldl_kept _ (fun s x => ?_) _ _).trans (State.kept_mk ..)
      (repeat' split) <;> simp
    · exact State.kept_mk ..

theorem execCreditReturn_kept (knot port vc : Nat) (shared : Bool) (s : State) (out : State) (h : execCreditReturn knot port vc shared s = .next out) : out.kept = s.kept := by
  unfold execCreditReturn at h
  simp only [Host.Outcome.next.injEq] at h
  subst h
  (repeat' split) <;> simp

end Sys2Proof.Machine
end

