-- ==== Sys2Proof/Laws/KeptSmbus.lean ====
section
/-! SUPPORT. The kept part of the state under the operations of Machine/Smbus.lean. -/

namespace Sys2Proof.Machine

@[simp] theorem State.alertRead_kept (s : State) (taken : Bool) :
    (State.alertRead s taken).kept = s.kept := by
  unfold State.alertRead
  simp

@[simp] theorem State.smbusRead_kept (s : State) (cmd : Nat) (taken : Bool) (bytes : List Byte) :
    (State.smbusRead s cmd taken bytes).kept = s.kept := by
  unfold State.smbusRead
  simp

theorem execSmbusReadByte_kept (cmd : Nat) (s : State) (out : State) (h : execSmbusReadByte cmd s = .next out) : out.kept = s.kept := by
  unfold execSmbusReadByte at h
  simp only [Host.Outcome.next.injEq] at h
  subst h
  simp

theorem execSmbusReadWord_kept (cmd : Nat) (s : State) (out : State) (h : execSmbusReadWord cmd s = .next out) : out.kept = s.kept := by
  unfold execSmbusReadWord at h
  simp only [Host.Outcome.next.injEq] at h
  subst h
  simp

theorem execSmbusBlockRead_kept (cmd : Nat) (s : State) (out : State) (h : execSmbusBlockRead cmd s = .next out) : out.kept = s.kept := by
  unfold execSmbusBlockRead at h
  simp only [Host.Outcome.next.injEq] at h
  subst h
  simp

theorem execSmbusWrite_kept (_cmd : Nat) (s : State) (out : State) (h : execSmbusWrite _cmd s = .next out) : out.kept = s.kept := by
  unfold execSmbusWrite at h
  simp only [Host.Outcome.next.injEq] at h
  subst h
  simp

end Sys2Proof.Machine
end

