-- ==== Sys2Proof/Laws/Memory.lean ====
section
/-! SUPPORT. Every memory operation keeps the canonical form, and a byte written is the byte read. -/

namespace Sys2Proof.Machine

theorem Memory.wf_tail {d : Byte} {c : Host.Cell} {m : Memory} (h : Memory.wf d (c :: m) = true) : Memory.wf d m = true := by
  obtain ⟨a, v⟩ := c
  cases m with
  | nil => rfl
  | cons e r => obtain ⟨b, w⟩ := e; simp only [Memory.wf, Bool.and_eq_true] at h; exact h.2

theorem Memory.wf_head {d : Byte} {a : Nat} {v : Byte} {m : Memory} (h : Memory.wf d ((a, v) :: m) = true) : v ≠ d := by
  cases m with
  | nil => simpa [Memory.wf] using h
  | cons e r => obtain ⟨b, w⟩ := e; simp only [Memory.wf, Bool.and_eq_true, bne_iff_ne] at h; exact h.1.1

/-- The canonical form of a list with a new first cell. -/
theorem Memory.wf_cons {d : Byte} {a : Nat} {v : Byte} {m : Memory} (hv : v ≠ d) (hm : Memory.wf d m = true)
    (ha : ∀ e ∈ m, a < e.1) : Memory.wf d ((a, v) :: m) = true := by
  cases m with
  | nil => simpa [Memory.wf] using hv
  | cons e r =>
    obtain ⟨b, w⟩ := e
    simp only [Memory.wf, Bool.and_eq_true, bne_iff_ne, decide_eq_true_eq]
    exact ⟨⟨hv, ha (b, w) (by simp)⟩, hm⟩

theorem Memory.wf_lt {d : Byte} {a : Nat} {v : Byte} {m : Memory} (h : Memory.wf d ((a, v) :: m) = true) : ∀ e ∈ m, a < e.1 := by
  induction m generalizing a v with
  | nil => simp
  | cons e r ih =>
    obtain ⟨b, w⟩ := e
    have hb : a < b := by simp only [Memory.wf, Bool.and_eq_true, decide_eq_true_eq] at h; exact h.1.2
    intro x hx
    rcases List.mem_cons.1 hx with rfl | hx
    · exact hb
    · exact hb.trans (ih (Memory.wf_tail h) x hx)

theorem Memory.mem_write {d : Byte} {m : Memory} {k : Nat} {v : Byte} {e : Host.Cell} (h : e ∈ Memory.write d m k v) :
    e ∈ m ∨ e.1 = k := by
  induction m with
  | nil =>
    unfold Memory.write at h
    split at h
    · simp at h
    · simp at h; simp [h]
  | cons c r ih =>
    obtain ⟨a, w⟩ := c
    unfold Memory.write at h
    split at h
    · split at h
      · exact .inl h
      · rcases List.mem_cons.1 h with rfl | h
        · exact .inr rfl
        · exact .inl h
    · split at h
      · split at h
        · exact .inl (List.mem_cons_of_mem _ h)
        · rcases List.mem_cons.1 h with rfl | h
          · exact .inr rfl
          · exact .inl (List.mem_cons_of_mem _ h)
      · rcases List.mem_cons.1 h with rfl | h
        · exact .inl (by simp)
        · rcases ih h with h | h
          · exact .inl (List.mem_cons_of_mem _ h)
          · exact .inr h

/-- A write keeps the canonical form. -/
theorem Memory.write_wf {d : Byte} {m : Memory} (k : Nat) (v : Byte) (h : Memory.wf d m = true) :
    Memory.wf d (Memory.write d m k v) = true := by
  induction m with
  | nil =>
    unfold Memory.write
    split
    · rfl
    · simpa [Memory.wf] using ‹_›
  | cons c r ih =>
    obtain ⟨a, w⟩ := c
    unfold Memory.write
    split
    · rename_i hk
      split
      · exact h
      · rename_i hv
        refine Memory.wf_cons hv h (fun e he => ?_)
        rcases List.mem_cons.1 he with rfl | he
        · exact hk
        · exact hk.trans (Memory.wf_lt h e he)
    · rename_i hk
      split
      · rename_i he
        subst he
        split
        · exact Memory.wf_tail h
        · rename_i hv
          exact Memory.wf_cons hv (Memory.wf_tail h) (Memory.wf_lt h)
      · rename_i he
        refine Memory.wf_cons (Memory.wf_head h) (ih (Memory.wf_tail h)) (fun x hx => ?_)
        rcases Memory.mem_write hx with hx | hx
        · exact Memory.wf_lt h x hx
        · omega

theorem Memory.writeAll_wf {d : Byte} {m : Memory} (k : Nat) (bs : List Byte) (h : Memory.wf d m = true) :
    Memory.wf d (Memory.writeAll d m k bs) = true := by
  induction bs generalizing m k with
  | nil => exact h
  | cons b r ih => exact ih _ (Memory.write_wf _ _ h)

theorem Memory.filter_wf {d : Byte} {m : Memory} (p : Host.Cell → Bool) (h : Memory.wf d m = true) :
    Memory.wf d (m.filter p) = true := by
  induction m with
  | nil => rfl
  | cons c r ih =>
    obtain ⟨a, v⟩ := c
    rw [List.filter_cons]
    split
    · exact Memory.wf_cons (Memory.wf_head h) (ih (Memory.wf_tail h)) (fun e he => Memory.wf_lt h e (List.mem_filter.1 he).1)
    · exact ih (Memory.wf_tail h)

theorem Memory.read_absent {d : Byte} {m : Memory} {a : Nat} (h : ∀ e ∈ m, a < e.1) : Memory.read d m a = d := by
  induction m with
  | nil => rfl
  | cons c r ih =>
    obtain ⟨b, w⟩ := c
    have hb : a < b := h (b, w) (by simp)
    unfold Memory.read
    rw [if_neg (by omega), ih (fun e he => h e (List.mem_cons_of_mem _ he))]

/-- Reading the byte just written, and any other byte. -/
theorem Memory.read_write {d : Byte} {m : Memory} (k : Nat) (v : Byte) (a : Nat) (h : Memory.wf d m = true) :
    Memory.read d (Memory.write d m k v) a = if a = k then v else Memory.read d m a := by
  induction m with
  | nil =>
    by_cases hv : v = d <;> by_cases ha : a = k <;> simp_all [Memory.write, Memory.read, Ne.symm]
  | cons c r ih =>
    obtain ⟨b, w⟩ := c
    have ih := ih (Memory.wf_tail h)
    have lt := Memory.wf_lt h
    unfold Memory.write
    by_cases hk : k < b
    · rw [if_pos hk]
      by_cases hv : v = d
      · rw [if_pos hv]
        split
        · rename_i ha
          rw [ha, hv]
          refine Memory.read_absent (fun e he => ?_)
          rcases List.mem_cons.1 he with rfl | he
          · exact hk
          · exact hk.trans (lt e he)
        · rfl
      · rw [if_neg hv]
        conv_lhs => unfold Memory.read
        simp only [eq_comm]
    · rw [if_neg hk]
      by_cases he : b = k
      · subst he
        rw [if_pos rfl]
        by_cases hv : v = d
        · rw [if_pos hv]
          split
          · rename_i ha
            rw [ha, hv]
            exact Memory.read_absent lt
          · rename_i ha
            conv_rhs => unfold Memory.read
            rw [if_neg (fun x => ha x.symm)]
        · rw [if_neg hv]
          conv_lhs => unfold Memory.read
          split
          · rename_i ha
            rw [if_pos ha.symm]
          · rename_i ha
            rw [if_neg (fun x => ha x.symm)]
            conv_rhs => unfold Memory.read
            rw [if_neg ha]
      · rw [if_neg he]
        conv_lhs => unfold Memory.read
        rw [ih]
        conv_rhs => unfold Memory.read
        by_cases h1 : b = a
        · subst h1; rw [if_pos rfl, if_neg he, if_pos rfl]
        · rw [if_neg h1, if_neg h1]

end Sys2Proof.Machine
end

