-- ==== Sys2Proof/Laws/Moves.lean ====
section
/-! SUPPORT. How the operations that move the kept part of the state move it (`Kept.le`). -/

namespace Sys2Proof.Machine

theorem foldl_le {α : Type} {a₀ : Kept} (g : State → α → State) (l : List α) (s : State)
    (h : ∀ s x, a₀.le s.kept → a₀.le (g s x).kept) (ha : a₀.le s.kept) : a₀.le (l.foldl g s).kept := by
  induction l generalizing s with
  | nil => exact ha
  | cons x l ih => exact ih _ (h _ _ ha)

/-- A command whose kept part stays moves it in particular. -/
theorem Kept.le_of_eq {a b c : Kept} (h : a.le b) (k : c = b) : a.le c := k ▸ h

/-- Updates of one part. -/
theorem State.kept_ddr (s : State) (p o y t h w n b e f q u) (m : Memory) (a1 a2 a3 a4 a5 a6 a7 a8 a9 a10 a11 a12 a13 a14 a15 a16) (boot : Boot) (hp : p = s.pending)
    (hb : boot = s.boot) :
    (State.mk p o y boot t h w (Pool.mk a1 a2 a3 a4 a5 a6 a7 m a8 a9 a10 a11 a12 a13 a14 a15 a16) n b e f q u).kept = { s.kept with ddr := m } := by
  subst hp hb; rfl

theorem Kept.le_ddr {a b : Kept} (h : a.le b) (m : Memory) (hm : Memory.wf 0 b.ddr = true → Memory.wf 0 m = true) :
    a.le { b with ddr := m } :=
  ⟨h.pending, h.flash, h.rcvBuf, h.signer, h.patternFloor, h.ucodeFloor, hm ∘ h.ddr⟩

theorem Kept.le_flash {a b : Kept} (h : a.le b) (m : Memory) (hm : Memory.wf 0xFF b.flash = true → Memory.wf 0xFF m = true) :
    a.le { b with flash := m } :=
  ⟨h.pending, hm ∘ h.flash, h.rcvBuf, h.signer, h.patternFloor, h.ucodeFloor, h.ddr⟩

theorem Kept.le_rcvBuf {a b : Kept} (h : a.le b) (m : Memory) (hm : Memory.wf 0 b.rcvBuf = true → Memory.wf 0 m = true) :
    a.le { b with rcvBuf := m } :=
  ⟨h.pending, h.flash, hm ∘ h.rcvBuf, h.signer, h.patternFloor, h.ucodeFloor, h.ddr⟩

theorem Kept.le_signer {a b : Kept} (h : a.le b) (x : Option Digest) (hx : b.signer = none) : a.le { b with signer := x } :=
  ⟨h.pending, h.flash, h.rcvBuf, fun k => absurd (h.signer k) (by rw [hx]; intro e; rw [← e] at k; simp at k), h.patternFloor,
    h.ucodeFloor, h.ddr⟩

theorem State.atTarget_le {a₀ : Kept} (s : State) (p : Packet) (f : State → State) (hf : ∀ x0, a₀.le (x0 : State).kept → a₀.le (f x0).kept) (ha : a₀.le s.kept) :
    a₀.le (State.atTarget s p f).kept := by
  unfold State.atTarget
  repeat' first
    | with_reducible exact ha
    | with_reducible assumption
    | with_reducible apply hf
    | intro _
    | split
    | simp only [State.kept_mk, State.kept_mkPool, State.kept_mkBoot, State.kept_mkMram, State.answer_kept, State.contained_kept, State.take_kept, State.wake_kept]
    | dsimp only

theorem State.changeTable_le {a₀ : Kept} (s : State) (l : Nat) (f : State → State) (hf : ∀ x0, a₀.le (x0 : State).kept → a₀.le (f x0).kept) (ha : a₀.le s.kept) :
    a₀.le (State.changeTable s l f).kept := by
  unfold State.changeTable
  repeat' first
    | with_reducible exact ha
    | with_reducible assumption
    | with_reducible apply hf
    | intro _
    | split
    | simp only [State.kept_mk, State.kept_mkPool, State.kept_mkBoot, State.kept_mkMram, State.tablesChanged_kept]

theorem State.ddrPut_le {a₀ : Kept} (s : State) (ch a : Nat) (l : Line) (ha : a₀.le s.kept) :
    a₀.le (State.ddrPut s ch a l).kept := by
  have h : (s.ddrPut ch a l).kept =
      { s.kept with ddr := Memory.writeAll 0 s.pool.ddr (ddrKey ch (s.chanAddr ch a)) (lineBytes l) } := by
    unfold State.ddrPut
    rw [State.kept_ddr (s.slotWant ch (s.chanAddr ch a)) (hp := rfl) (hb := rfl), State.slotWant_kept]
  rw [h]
  exact Kept.le_ddr ha _ (fun k => Memory.writeAll_wf _ _ k)

theorem State.macOut_le {a₀ : Kept} (s : State) (g a : Nat) (ha : a₀.le s.kept) :
    a₀.le (State.macOut s g a).kept := by
  unfold State.macOut
  repeat' first
    | with_reducible exact ha
    | with_reducible assumption
    | with_reducible apply State.ddrPut_le
    | intro _
    | split
    | simp only [State.kept_mk, State.kept_mkPool, State.kept_mkBoot, State.kept_mkMram, State.modGate_kept]
    | dsimp only

theorem State.macPut_le {a₀ : Kept} (s : State) (g a : Nat) (l : Line) (dirty : Bool) (ha : a₀.le s.kept) :
    a₀.le (State.macPut s g a l dirty).kept := by
  unfold State.macPut
  repeat' first
    | with_reducible exact ha
    | with_reducible assumption
    | with_reducible apply State.macOut_le
    | intro _
    | split
    | simp only [State.kept_mk, State.kept_mkPool, State.kept_mkBoot, State.kept_mkMram, State.modGate_kept]
    | dsimp only

theorem State.ddrStoreWith_le {a₀ : Kept} (s : State) (now : Bool) (line : Nat) (c : Line) (m : BitVec 64) (ha : a₀.le s.kept) :
    a₀.le (State.ddrStoreWith s now line c m).kept := by
  unfold State.ddrStoreWith
  repeat' first
    | with_reducible exact ha
    | with_reducible assumption
    | with_reducible apply State.ddrPut_le
    | with_reducible apply State.macPut_le
    | intro _
    | split
    | simp only [State.kept_mk, State.kept_mkPool, State.kept_mkBoot, State.kept_mkMram, State.request_kept]
    | dsimp only

theorem State.ddrStore_le {a₀ : Kept} (s : State) (line : Nat) (c : Line) (m : BitVec 64) (ha : a₀.le s.kept) :
    a₀.le (State.ddrStore s line c m).kept := by
  unfold State.ddrStore
  repeat' first
    | with_reducible exact ha
    | with_reducible assumption
    | with_reducible apply State.ddrStoreWith_le
    | intro _
    | split
    | simp only [State.kept_mk, State.kept_mkPool, State.kept_mkBoot, State.kept_mkMram]

theorem State.storeIf_le {a₀ : Kept} (s : State) (dirty : Bool) (line : Nat) (c : Line) (m : BitVec 64) (ha : a₀.le s.kept) :
    a₀.le (State.storeIf s dirty line c m).kept := by
  unfold State.storeIf
  repeat' first
    | with_reducible exact ha
    | with_reducible assumption
    | with_reducible apply State.ddrStore_le
    | intro _
    | split
    | simp only [State.kept_mk, State.kept_mkPool, State.kept_mkBoot, State.kept_mkMram]

theorem State.tierAlloc_le {a₀ : Kept} (s : State) (under : Bool) (ways : List TierLine) (new : Nat → TierLine) (dirty : Bool) (line : Nat) (ha : a₀.le s.kept) :
    a₀.le (State.tierAlloc s under ways new dirty line).1.kept := by
  unfold State.tierAlloc
  split
  · rw [State.setTier_kept]; exact ha
  · split
    · exact State.storeIf_le _ _ _ _ _ ha
    · dsimp only
      rw [State.setTier_kept]
      exact State.storeIf_le _ _ _ _ _ ha

theorem State.tierFill_le {a₀ : Kept} (s : State) (line slot : Nat) (c : Line) (m : BitVec 64) (dirty : Bool) (ha : a₀.le s.kept) :
    a₀.le (State.tierFill s line slot c m dirty).1.kept := by
  unfold State.tierFill
  split
  split
  · split
    · exact State.storeIf_le _ _ _ _ _ ha
    · rw [State.setTier_kept]; exact ha
  · split
    · exact State.storeIf_le _ _ _ _ _ ha
    · exact State.tierAlloc_le _ _ _ _ _ _ ha

theorem State.keepMac_le {a₀ : Kept} (s : State) (g ch line : Nat) (ha : a₀.le s.kept) :
    a₀.le (State.keepMac s g ch line).kept := by
  unfold State.keepMac
  repeat' first
    | with_reducible exact ha
    | with_reducible assumption
    | with_reducible apply State.macPut_le
    | intro _
    | split
    | simp only [State.kept_mk, State.kept_mkPool, State.kept_mkBoot, State.kept_mkMram]

theorem State.openDdr_le {a₀ : Kept} (s : State) (g line slot : Nat) (ctr : Ctr) (ha : a₀.le s.kept) :
    a₀.le (State.openDdr s g line slot ctr).2.kept := by
  unfold State.openDdr
  repeat' first
    | with_reducible exact ha
    | with_reducible assumption
    | with_reducible apply State.ddrPut_le
    | with_reducible apply State.keepMac_le
    | intro _
    | split
    | simp only [State.kept_mk, State.kept_mkPool, State.kept_mkBoot, State.kept_mkMram, State.corrected_kept, State.readSlotsOf_kept]
    | dsimp only

theorem State.openLine_le {a₀ : Kept} (s : State) (g line slot : Nat) (ctr : Ctr) (ha : a₀.le s.kept) :
    a₀.le (State.openLine s g line slot ctr).2.kept := by
  unfold State.openLine
  repeat' first
    | with_reducible exact ha
    | with_reducible assumption
    | with_reducible apply State.openDdr_le
    | intro _
    | split
    | simp only [State.kept_mk, State.kept_mkPool, State.kept_mkBoot, State.kept_mkMram, State.tierRef_kept]

theorem State.sendSealed_le {a₀ : Kept} (s : State) (g line slot : Nat) (c : Line) (m : BitVec 64) (dirty : Bool) (ha : a₀.le s.kept) :
    a₀.le (State.sendSealed s g line slot c m dirty).kept := by
  unfold State.sendSealed
  repeat' first
    | with_reducible exact ha
    | with_reducible assumption
    | with_reducible apply State.ddrStore_le
    | with_reducible apply State.tierFill_le
    | intro _
    | split
    | simp only [State.kept_mk, State.kept_mkPool, State.kept_mkBoot, State.kept_mkMram, State.request_kept]
    | dsimp only

theorem State.sealLine_le {a₀ : Kept} (s : State) (g line slot gen major minor : Nat) (d : Line) (ha : a₀.le s.kept) :
    a₀.le (State.sealLine s g line slot gen major minor d).kept := by
  unfold State.sealLine
  repeat' first
    | with_reducible exact ha
    | with_reducible assumption
    | with_reducible apply State.sendSealed_le
    | intro _
    | split
    | simp only [State.kept_mk, State.kept_mkPool, State.kept_mkBoot, State.kept_mkMram]
    | dsimp only

theorem State.sealStaged_le {a₀ : Kept} (s : State) (g line slot gen major : Nat) (d : Line) (ha : a₀.le s.kept) :
    a₀.le (State.sealStaged s g line slot gen major d).kept := by
  unfold State.sealStaged
  repeat' first
    | with_reducible exact ha
    | with_reducible assumption
    | with_reducible apply State.ddrStoreWith_le
    | with_reducible apply State.sendSealed_le
    | intro _
    | split
    | simp only [State.kept_mk, State.kept_mkPool, State.kept_mkBoot, State.kept_mkMram]
    | dsimp only

theorem State.reencrypt_le {a₀ : Kept} (s : State) (g blk slot : Nat) (ctr : Ctr) (ha : a₀.le s.kept) :
    a₀.le (State.reencrypt s g blk slot ctr).kept := by
  unfold State.reencrypt
  repeat' first
    | with_reducible exact ha
    | with_reducible assumption
    | with_reducible apply State.openLine_le
    | with_reducible apply State.sealStaged_le
    | intro _
    | split
    | simp only [State.kept_mk, State.kept_mkPool, State.kept_mkBoot, State.kept_mkMram, State.ccPut_kept, State.modGate_kept, State.poisonLine_kept, State.recordFail_kept, State.wcbDrop_kept]
    | with_reducible apply foldl_le
    | dsimp only

theorem State.startReenc_le {a₀ : Kept} (s : State) (g : Nat) (w : WcbLine) (ctr : Ctr) (ha : a₀.le s.kept) :
    a₀.le (State.startReenc s g w ctr).kept := by
  unfold State.startReenc
  repeat' first
    | with_reducible exact ha
    | with_reducible assumption
    | with_reducible apply State.reencrypt_le
    | intro _
    | split
    | simp only [State.kept_mk, State.kept_mkPool, State.kept_mkBoot, State.kept_mkMram, State.modGate_kept]
    | dsimp only

theorem State.wcbLeave_le {a₀ : Kept} (s : State) (g : Nat) (w : WcbLine) (ha : a₀.le s.kept) :
    a₀.le (State.wcbLeave s g w).kept := by
  have hd : ∀ u : State, a₀.le u.kept → a₀.le (u.wcbDrop g w.line).kept := fun u h => by rw [State.wcbDrop_kept]; exact h
  unfold State.wcbLeave
  dsimp only
  cases hb : w.bad <;> simp only [Bool.false_eq_true, if_false, if_true] <;> split <;>
    first
      | (simpa using ha; done)
      | (split
         · simpa using ha
         · rename_i c0 _
           generalize (if c0.gen == s.genOf w.line then c0 else { gen := s.genOf w.line } : Ctr) = c
           split
           · apply hd
             first
               | (rw [State.poisonLine_kept, State.ccPut_kept]; exact ha)
               | exact State.sealLine_le _ _ _ _ _ _ _ _ (by rw [State.ccPut_kept]; exact ha)
           · split
             · split
               · rw [State.farSide_kept, State.modGate_kept]; exact hd _ ha
               · rw [State.modGate_kept]; exact hd _ ha
             · exact State.startReenc_le _ _ _ _ ha)

theorem State.wcbRoom_le {a₀ : Kept} (s : State) (g want : Nat) (keep : List Nat) (y0 : Nat) (ha : a₀.le s.kept) :
    a₀.le (State.wcbRoom s g want keep y0).kept := by
  induction y0 generalizing s with
  | zero => exact ha
  | succ n ih =>
    unfold State.wcbRoom
    split
    · exact ha
    · split
      · exact ih _ (State.wcbLeave_le _ _ _ ha)
      · exact ha

theorem State.readLines_le {a₀ : Kept} (s : State) (g slot : Nat) (ctr : Ctr) (y0 : List Nat) (ha : a₀.le s.kept) :
    a₀.le (State.readLines s g slot ctr y0).2.kept := by
  induction y0 generalizing s with
  | nil => exact ha
  | cons l ls ih =>
    unfold State.readLines
    dsimp only
    apply ih
    split
    · split
      · simpa using ha
      · exact ha
    · dsimp only
      split
      · exact State.openLine_le _ _ _ _ _ ha
      · rw [State.recordFail_kept]
        exact State.openLine_le _ _ _ _ _ ha

theorem State.fillMissed_le {a₀ : Kept} (s : State) (g slot : Nat) (ctr : Ctr) (ls : List Nat) (ha : a₀.le s.kept) :
    a₀.le (State.fillMissed s g slot ctr ls).kept := by
  unfold State.fillMissed
  repeat' first
    | with_reducible exact ha
    | with_reducible assumption
    | with_reducible apply State.sendSealed_le
    | intro _
    | split
    | simp only [State.kept_mk, State.kept_mkPool, State.kept_mkBoot, State.kept_mkMram]
    | with_reducible apply foldl_le
    | dsimp only

theorem State.writeLines_le {a₀ : Kept} (s : State) (g slot : Nat) (ctr : Ctr) (q : Packet) (y0 : List Nat) (ha : a₀.le s.kept) :
    a₀.le (State.writeLines s g slot ctr q y0).2.kept := by
  induction y0 generalizing s with
  | nil => exact ha
  | cons l ls ih =>
    have hw : ∀ (r : Line × Nat) (s : State), a₀.le s.kept →
        a₀.le (if r.2 == 0 then s.wcbPut g l slot q.glove (q.merge l r.1) q.ep else s).kept := by
      intro r s h
      split
      · simpa using h
      · exact h
    unfold State.writeLines
    dsimp only
    apply ih
    apply hw
    split
    · split
      · simpa using ha
      · exact ha
    · split
      · exact ha
      · dsimp only
        split
        · exact State.openLine_le _ _ _ _ _ ha
        · rw [State.recordFail_kept]
          exact State.openLine_le _ _ _ _ _ ha

/-- The kept part of what an access leaves. -/
def Tried.kept : Tried → Kept
  | .done s => s.kept
  | .locked s => s.kept
  | .needOwn s => s.kept
  | .needCtr s => s.kept
  | .needTier s => s.kept
  | .needRoom s => s.kept

theorem State.serveOwned_le {a₀ : Kept} {s : State} {g : Nat} {p : Packet} {own : Own} {t : Bool} (ha : a₀.le s.kept) :
    a₀.le (s.serveOwned g p own t).kept := by
  unfold State.serveOwned
  extract_lets q blk line x s1 fresh u need ctr below s2
  have hs : a₀.le s1.kept := by
    show a₀.le (if p.op == .memWrUnlock then s.dropLock g line p.initUnit else s : State).kept
    split
    · rw [State.dropLock_kept]; exact ha
    · exact ha
  split
  · simpa [Tried.kept] using hs
  split
  · simpa [Tried.kept] using hs
  split
  · simpa [Tried.kept] using hs
  split
  · simpa [Tried.kept] using hs
  split
  · simpa [Tried.kept] using hs
  split
  · simpa [Tried.kept] using hs
  have hu : a₀.le u.kept := State.wcbRoom_le _ _ _ _ _ ha
  split
  · exact hu
  split
  · exact hu
  split
  · exact hu
  split
  · simp only [Tried.kept, State.answerData_kept]
    exact State.fillMissed_le _ _ _ _ _ (State.readLines_le _ _ _ _ q.lines hu)
  · simp only [Tried.kept, State.answerData_kept, State.modGate_kept]
    exact State.fillMissed_le _ _ _ _ _ (State.readLines_le _ _ _ _ [line] hu)
  · simp only [Tried.kept, State.answer_kept]
    refine State.fillMissed_le _ _ _ _ _ (State.writeLines_le _ _ _ _ _ _ ?_)
    show a₀.le (if p.op == .memWrUnlock then u.dropLock g line p.initUnit else u : State).kept
    split
    · rw [State.dropLock_kept]; exact hu
    · exact hu

theorem State.tryAccess_le {a₀ : Kept} {s : State} {g : Nat} {p : Packet} {t : Bool} (ha : a₀.le s.kept) :
    a₀.le (s.tryAccess g p t).kept := by
  unfold State.tryAccess
  dsimp only
  split
  · simpa [Tried.kept] using ha
  split
  · simpa [Tried.kept] using ha
  split
  · exact ha
  split
  · exact ha
  · exact State.serveOwned_le ha

theorem State.drainWalk_le {a₀ : Kept} (s : State) (g blk : Nat) (tiered : Bool) (y0 : Nat) (ha : a₀.le s.kept) :
    a₀.le (State.drainWalk s g blk tiered y0).kept := by
  induction y0 generalizing s tiered with
  | zero => exact ha
  | succ n ih =>
    unfold State.drainWalk
    split
    · exact ha
    · split
      · split
        · rw [State.modGate_kept]; exact ha
        · exact ha
      · have k := State.tryAccess_le (g := g) (p := ‹Packet›) (t := tiered) ha
        dsimp only
        split <;> rename_i h <;> rw [h] at k <;> simp only [Tried.kept] at k
        · exact ih _ _ (by simpa using k)
        · exact ih _ _ (by simpa using k)
        · split
          · exact ih _ _ (by simpa using k)
          · simpa using k
        · split
          · exact k
          · split
            · exact ih _ _ (by simpa using k)
            · simpa using k
        · simpa using k
        · exact k

theorem State.enterGate_le {a₀ : Kept} (s : State) (g : Nat) (p : Packet) (ha : a₀.le s.kept) :
    a₀.le (State.enterGate s g p).kept := by
  unfold State.enterGate
  dsimp only
  split
  · simpa using ha
  · split
    · have k := State.tryAccess_le (g := g) (p := p) (t := false) ha
      split
      · rename_i h; rw [h] at k; exact k
      · simpa using ha
      · exact State.drainWalk_le _ _ _ _ _ (by simpa using ha)
    · split
      · simpa using ha
      · exact State.drainWalk_le _ _ _ _ _ (by simpa using ha)

theorem State.retryWalks_le {a₀ : Kept} (s : State) (g : Nat) (ha : a₀.le s.kept) :
    a₀.le (State.retryWalks s g).kept := by
  unfold State.retryWalks
  repeat' first
    | with_reducible exact ha
    | with_reducible assumption
    | with_reducible apply State.drainWalk_le
    | intro _
    | split
    | simp only [State.kept_mk, State.kept_mkPool, State.kept_mkBoot, State.kept_mkMram]
    | with_reducible apply foldl_le
    | dsimp only

theorem State.unpark_le {a₀ : Kept} (s : State) (g : Nat) (ha : a₀.le s.kept) :
    a₀.le (State.unpark s g).kept := by
  unfold State.unpark
  repeat' first
    | with_reducible exact ha
    | with_reducible assumption
    | with_reducible apply State.enterGate_le
    | with_reducible apply State.retryWalks_le
    | intro _
    | split
    | simp only [State.kept_mk, State.kept_mkPool, State.kept_mkBoot, State.kept_mkMram, State.modGate_kept, State.pumpNodes_kept]
    | with_reducible apply foldl_le
    | dsimp only

theorem State.failWalk_le {a₀ : Kept} (s : State) (g blk level : Nat) (ha : a₀.le s.kept) :
    a₀.le (State.failWalk s g blk level).kept := by
  unfold State.failWalk
  repeat' first
    | with_reducible exact ha
    | with_reducible assumption
    | with_reducible apply State.drainWalk_le
    | intro _
    | split
    | simp only [State.kept_mk, State.kept_mkPool, State.kept_mkBoot, State.kept_mkMram, State.modWalk_kept, State.poison_kept]
    | dsimp only

theorem State.arrive_le {a₀ : Kept} (s : State) (o : POp) (p : Packet) (f : Packet → State → State) (hf : ∀ x0 x1, a₀.le (x1 : State).kept → a₀.le (f x0 x1).kept) (ha : a₀.le s.kept) :
    a₀.le (State.arrive s o p f).kept := by
  unfold State.arrive
  repeat' first
    | with_reducible exact ha
    | with_reducible assumption
    | with_reducible apply hf
    | with_reducible apply State.atTarget_le
    | intro _
    | split
    | simp only [State.kept_mk, State.kept_mkPool, State.kept_mkBoot, State.kept_mkMram]

theorem State.atInitiator_le {a₀ : Kept} (s : State) (p : Packet) (f : Req → State → State) (hf : ∀ x0 x1, a₀.le (x1 : State).kept → a₀.le (f x0 x1).kept) (ha : a₀.le s.kept) :
    a₀.le (State.atInitiator s p f).kept := by
  unfold State.atInitiator
  repeat' first
    | with_reducible exact ha
    | with_reducible assumption
    | with_reducible apply hf
    | intro _
    | split
    | simp only [State.kept_mk, State.kept_mkPool, State.kept_mkBoot, State.kept_mkMram, State.contained_kept]

theorem execTierFill_le {a₀ : Kept} (p : Packet) (s : State) (ha : a₀.le s.kept)
    (out : State) (h : execTierFill p s = .next out) : a₀.le out.kept := by
  unfold execTierFill at h
  simp only [Host.Outcome.next.injEq] at h
  subst h
  repeat' first
    | with_reducible exact ha
    | with_reducible assumption
    | with_reducible apply State.arrive_le
    | with_reducible apply State.tierFill_le
    | intro _
    | split
    | simp only [State.kept_mk, State.kept_mkPool, State.kept_mkBoot, State.kept_mkMram, State.answer_kept, State.ddrPoison_kept, State.tierDrop_kept]
    | with_reducible apply foldl_le
    | dsimp only

theorem execMirrorWr_le {a₀ : Kept} (p : Packet) (s : State) (ha : a₀.le s.kept)
    (out : State) (h : execMirrorWr p s = .next out) : a₀.le out.kept := by
  unfold execMirrorWr at h
  simp only [Host.Outcome.next.injEq] at h
  subst h
  repeat' first
    | with_reducible exact ha
    | with_reducible assumption
    | with_reducible apply State.arrive_le
    | with_reducible apply State.ddrPut_le
    | intro _
    | split
    | simp only [State.kept_mk, State.kept_mkPool, State.kept_mkBoot, State.kept_mkMram, State.answer_kept, State.ddrPoison_kept]
    | dsimp only

theorem State.drainBlock_le {a₀ : Kept} (s : State) (g blk : Nat) (tiered : Bool) (ha : a₀.le s.kept) :
    a₀.le (State.drainBlock s g blk tiered).kept := by
  unfold State.drainBlock
  repeat' first
    | with_reducible exact ha
    | with_reducible assumption
    | with_reducible apply State.drainWalk_le
    | with_reducible apply State.unpark_le
    | intro _
    | split
    | simp only [State.kept_mk, State.kept_mkPool, State.kept_mkBoot, State.kept_mkMram]
    | dsimp only

theorem State.acceptPath_le {a₀ : Kept} (s : State) (g blk : Nat) (path : List Line) (ha : a₀.le s.kept) :
    a₀.le (State.acceptPath s g blk path).kept := by
  unfold State.acceptPath
  repeat' first
    | with_reducible exact ha
    | with_reducible assumption
    | with_reducible apply State.drainBlock_le
    | with_reducible apply State.wcbLeave_le
    | intro _
    | split
    | simp only [State.kept_mk, State.kept_mkPool, State.kept_mkBoot, State.kept_mkMram, State.ccPut_kept, State.hcPut_kept, State.modWalk_kept, State.refetched_kept]
    | with_reducible apply foldl_le
    | dsimp only

theorem State.walkStep_le {a₀ : Kept} (s : State) (g blk level : Nat) (d : Line) (ha : a₀.le s.kept) :
    a₀.le (State.walkStep s g blk level d).kept := by
  unfold State.walkStep
  repeat' first
    | with_reducible exact ha
    | with_reducible assumption
    | with_reducible apply State.acceptPath_le
    | with_reducible apply State.failWalk_le
    | with_reducible apply State.unpark_le
    | intro _
    | split
    | simp only [State.kept_mk, State.kept_mkPool, State.kept_mkBoot, State.kept_mkMram, State.fetchNode_kept, State.modWalk_kept]
    | dsimp only

theorem State.takeOwn_le {a₀ : Kept} (s : State) (g l : Nat) (d : Line) (ha : a₀.le s.kept) :
    a₀.le (State.takeOwn s g l d).kept := by
  unfold State.takeOwn
  repeat' first
    | with_reducible exact ha
    | with_reducible assumption
    | with_reducible apply State.drainWalk_le
    | with_reducible apply State.unpark_le
    | intro _
    | split
    | simp only [State.kept_mk, State.kept_mkPool, State.kept_mkBoot, State.kept_mkMram, State.modGate_kept, State.refetched_kept]
    | with_reducible apply foldl_le
    | dsimp only

theorem State.loseOwn_le {a₀ : Kept} (s : State) (g l : Nat) (ha : a₀.le s.kept) :
    a₀.le (State.loseOwn s g l).kept := by
  unfold State.loseOwn
  repeat' first
    | with_reducible exact ha
    | with_reducible assumption
    | with_reducible apply State.drainWalk_le
    | with_reducible apply State.unpark_le
    | intro _
    | split
    | simp only [State.kept_mk, State.kept_mkPool, State.kept_mkBoot, State.kept_mkMram, State.failOwn_kept, State.modGate_kept, State.refetched_kept]
    | with_reducible apply foldl_le
    | dsimp only

theorem execMrD_le {a₀ : Kept} (p : Packet) (s : State) (ha : a₀.le s.kept)
    (out : State) (h : execMrD p s = .next out) : a₀.le out.kept := by
  unfold execMrD at h
  simp only [Host.Outcome.next.injEq] at h
  subst h
  repeat' first
    | with_reducible exact ha
    | with_reducible assumption
    | with_reducible apply State.arrive_le
    | with_reducible apply State.atInitiator_le
    | with_reducible apply State.failWalk_le
    | with_reducible apply State.loseOwn_le
    | with_reducible apply State.takeOwn_le
    | with_reducible apply State.unpark_le
    | with_reducible apply State.walkStep_le
    | intro _
    | split
    | simp only [State.kept_mk, State.kept_mkPool, State.kept_mkBoot, State.kept_mkMram, State.countResponse_kept, State.endReq_kept, State.pumpNodes_kept]
    | dsimp only

theorem execMrAck_le {a₀ : Kept} (p : Packet) (s : State) (ha : a₀.le s.kept)
    (out : State) (h : execMrAck p s = .next out) : a₀.le out.kept := by
  unfold execMrAck at h
  simp only [Host.Outcome.next.injEq] at h
  subst h
  repeat' first
    | with_reducible exact ha
    | with_reducible assumption
    | with_reducible apply State.arrive_le
    | with_reducible apply State.atInitiator_le
    | with_reducible apply State.drainBlock_le
    | with_reducible apply State.failWalk_le
    | with_reducible apply State.loseOwn_le
    | with_reducible apply State.unpark_le
    | intro _
    | split
    | simp only [State.kept_mk, State.kept_mkPool, State.kept_mkBoot, State.kept_mkMram, State.countResponse_kept, State.endReq_kept, State.modGate_kept, State.modHgate_kept, State.modWalk_kept, State.pumpNodes_kept, State.sendMac_kept]
    | dsimp only

theorem execLockExpiry_le {a₀ : Kept} (gate line : Nat) (s : State) (ha : a₀.le s.kept)
    (out : State) (h : execLockExpiry gate line s = .next out) : a₀.le out.kept := by
  unfold execLockExpiry at h
  simp only [Host.Outcome.next.injEq] at h
  subst h
  repeat' first
    | with_reducible exact ha
    | with_reducible assumption
    | with_reducible apply State.unpark_le
    | intro _
    | split
    | simp only [State.kept_mk, State.kept_mkPool, State.kept_mkBoot, State.kept_mkMram, State.modGate_kept]
    | dsimp only

theorem execWcbResidencyExpiry_le {a₀ : Kept} (gate line : Nat) (s : State) (ha : a₀.le s.kept)
    (out : State) (h : execWcbResidencyExpiry gate line s = .next out) : a₀.le out.kept := by
  unfold execWcbResidencyExpiry at h
  simp only [Host.Outcome.next.injEq] at h
  subst h
  repeat' first
    | with_reducible exact ha
    | with_reducible assumption
    | with_reducible apply State.unpark_le
    | with_reducible apply State.wcbLeave_le
    | intro _
    | split
    | simp only [State.kept_mk, State.kept_mkPool, State.kept_mkBoot, State.kept_mkMram]

theorem execReencPhaseADone_le {a₀ : Kept} (gate block : Nat) (s : State) (ha : a₀.le s.kept)
    (out : State) (h : execReencPhaseADone gate block s = .next out) : a₀.le out.kept := by
  unfold execReencPhaseADone at h
  simp only [Host.Outcome.next.injEq] at h
  subst h
  split
  · exact ha
  · split
    · exact State.unpark_le _ _ (State.reencrypt_le _ _ _ _ _ ha)
    · exact State.unpark_le _ _ (by simpa using ha)

theorem execStagingBufferFreed_le {a₀ : Kept} (gate : Nat) (s : State) (ha : a₀.le s.kept)
    (out : State) (h : execStagingBufferFreed gate s = .next out) : a₀.le out.kept := by
  unfold execStagingBufferFreed at h
  simp only [Host.Outcome.next.injEq] at h
  subst h
  split
  · exact ha
  · split
    · exact ha
    · split
      · exact State.unpark_le _ _ (State.startReenc_le _ _ _ _ ha)
      · simpa using ha

theorem State.controlCmd_le {a₀ : Kept} (s : State) (i : Instr) (o : Origin) (f : State → State) (hf : ∀ x0, a₀.le (x0 : State).kept → a₀.le (f x0).kept) (ha : a₀.le s.kept) :
    a₀.le (State.controlCmd s i o f).kept := by
  unfold State.controlCmd
  repeat' first
    | with_reducible exact ha
    | with_reducible assumption
    | with_reducible apply hf
    | intro _
    | split
    | simp only [State.kept_mk, State.kept_mkPool, State.kept_mkBoot, State.kept_mkMram, State.refuse_kept, State.undispatch_kept]
    | dsimp only

theorem State.takeEntry_le {a₀ : Kept} (s : State) (i : Instr) (f : FgId) (o : Origin) (target : Nat) (named : Bool) (op : Nat) (bad : Bool) (start : State → State) (hstart : ∀ x0, a₀.le (x0 : State).kept → a₀.le (start x0).kept) (ha : a₀.le s.kept) :
    a₀.le (State.takeEntry s i f o target named op bad start).kept := by
  unfold State.takeEntry
  repeat' first
    | with_reducible exact ha
    | with_reducible assumption
    | with_reducible apply hstart
    | intro _
    | split
    | simp only [State.kept_mk, State.kept_mkPool, State.kept_mkBoot, State.kept_mkMram, State.modFinger_kept, State.refuse_kept, State.undispatch_kept]
    | dsimp only

theorem State.fgExec_le {a₀ : Kept} (s : State) (f : FgId) (w : BitVec 256) (op : Nat) (run : FgOp → State → State) (hrun : ∀ x0 x1, a₀.le (x1 : State).kept → a₀.le (run x0 x1).kept) (ha : a₀.le s.kept) :
    a₀.le (State.fgExec s f w op run).kept := by
  unfold State.fgExec
  repeat' first
    | with_reducible exact ha
    | with_reducible assumption
    | with_reducible apply hrun
    | intro _
    | split
    | simp only [State.kept_mk, State.kept_mkPool, State.kept_mkBoot, State.kept_mkMram, State.fgHalt_kept, State.modFinger_kept]
    | dsimp only

theorem State.ideCheck_le {a₀ : Kept} (s : State) (l : Nat) (m : Option IdeMark) (t : TlpHead) (f : State → State) (hf : ∀ x0, a₀.le (x0 : State).kept → a₀.le (f x0).kept) (ha : a₀.le s.kept) :
    a₀.le (State.ideCheck s l m t f).kept := by
  unfold State.ideCheck
  repeat' first
    | with_reducible exact ha
    | with_reducible assumption
    | with_reducible apply hf
    | intro _
    | split
    | simp only [State.kept_mk, State.kept_mkPool, State.kept_mkBoot, State.kept_mkMram, State.ideFail_kept]

theorem State.dropPeerLocks_le {a₀ : Kept} (s : State) (n : Nat) (ha : a₀.le s.kept) :
    a₀.le (State.dropPeerLocks s n).kept := by
  unfold State.dropPeerLocks
  repeat' first
    | with_reducible exact ha
    | with_reducible assumption
    | with_reducible apply State.unpark_le
    | intro _
    | split
    | simp only [State.kept_mk, State.kept_mkPool, State.kept_mkBoot, State.kept_mkMram, State.modGate_kept]
    | with_reducible apply foldl_le
    | dsimp only

theorem State.fencePeer_le {a₀ : Kept} (s : State) (n cause : Nat) (dead : Option Nat) (ha : a₀.le s.kept) :
    a₀.le (State.fencePeer s n cause dead).kept := by
  unfold State.fencePeer
  repeat' first
    | with_reducible exact ha
    | with_reducible assumption
    | with_reducible apply State.dropPeerLocks_le
    | with_reducible apply State.spdm_le
    | intro _
    | split
    | simp only [State.kept_mk, State.kept_mkPool, State.kept_mkBoot, State.kept_mkMram, State.complete_kept, State.contained_kept, State.dropGuest_kept, State.endXids_kept, State.modBlink_kept, State.modPeer_kept, State.reclaimLost_kept]
    | with_reducible apply foldl_le
    | dsimp only

theorem State.startReroute_le {a₀ : Kept} (s : State) (l : Nat) (also : List Nat) (ha : a₀.le s.kept) :
    a₀.le (State.startReroute s l also).kept := by
  unfold State.startReroute
  repeat' first
    | with_reducible exact ha
    | with_reducible assumption
    | with_reducible apply State.fencePeer_le
    | intro _
    | split
    | simp only [State.kept_mk, State.kept_mkPool, State.kept_mkBoot, State.kept_mkMram, State.modPeer_kept, State.sendCtrl_kept]
    | dsimp only

theorem State.afterDown_le {a₀ : Kept} (s : State) (l : Nat) (was : BState) (ha : a₀.le s.kept) :
    a₀.le (State.afterDown s l was).kept := by
  unfold State.afterDown
  repeat' first
    | with_reducible exact ha
    | with_reducible assumption
    | with_reducible apply State.fencePeer_le
    | with_reducible apply State.startReroute_le
    | intro _
    | split
    | simp only [State.kept_mk, State.kept_mkPool, State.kept_mkBoot, State.kept_mkMram, State.modPeer_kept]
    | dsimp only

theorem State.borderDown_le {a₀ : Kept} (s : State) (l cause : Nat) (ha : a₀.le s.kept) :
    a₀.le (State.borderDown s l cause).kept := by
  unfold State.borderDown
  repeat' first
    | with_reducible exact ha
    | with_reducible assumption
    | with_reducible apply State.afterDown_le
    | intro _
    | split
    | simp only [State.kept_mk, State.kept_mkPool, State.kept_mkBoot, State.kept_mkMram, State.corrected_kept, State.modBlink_kept, State.retireLink_kept, State.setBState_kept]
    | dsimp only

theorem State.retireLane_le {a₀ : Kept} (s : State) (l lane : Nat) (ha : a₀.le s.kept) :
    a₀.le (State.retireLane s l lane).kept := by
  unfold State.retireLane
  repeat' first
    | with_reducible exact ha
    | with_reducible assumption
    | with_reducible apply State.afterDown_le
    | intro _
    | split
    | simp only [State.kept_mk, State.kept_mkPool, State.kept_mkBoot, State.kept_mkMram, State.modBlink_kept, State.retireLink_kept, State.sendCtrl_kept, State.setBState_kept]
    | dsimp only

theorem execBorderAckFlit_le {a₀ : Kept} (link : Nat) (a : AckFlit) (s : State) (ha : a₀.le s.kept)
    (out : State) (h : execBorderAckFlit link a s = .next out) : a₀.le out.kept := by
  unfold execBorderAckFlit at h
  simp only [Host.Outcome.next.injEq] at h
  subst h
  repeat' first
    | with_reducible exact ha
    | with_reducible assumption
    | with_reducible apply State.borderDown_le
    | intro _
    | split
    | simp only [State.kept_mk, State.kept_mkPool, State.kept_mkBoot, State.kept_mkMram, State.modBlink_kept, State.pumpBorder_kept, State.replayBorder_kept]
    | dsimp only

theorem execReplayTimeout_le {a₀ : Kept} (link : Nat) (s : State) (ha : a₀.le s.kept)
    (out : State) (h : execReplayTimeout link s = .next out) : a₀.le out.kept := by
  unfold execReplayTimeout at h
  simp only [Host.Outcome.next.injEq] at h
  subst h
  repeat' first
    | with_reducible exact ha
    | with_reducible assumption
    | with_reducible apply State.borderDown_le
    | intro _
    | split
    | simp only [State.kept_mk, State.kept_mkPool, State.kept_mkBoot, State.kept_mkMram, State.modBlink_kept, State.replayBorder_kept]
    | dsimp only

theorem execCreditTimeout_le {a₀ : Kept} (link vc : Nat) (s : State) (ha : a₀.le s.kept)
    (out : State) (h : execCreditTimeout link vc s = .next out) : a₀.le out.kept := by
  unfold execCreditTimeout at h
  simp only [Host.Outcome.next.injEq] at h
  subst h
  repeat' first
    | with_reducible exact ha
    | with_reducible assumption
    | with_reducible apply State.borderDown_le
    | intro _
    | split
    | simp only [State.kept_mk, State.kept_mkPool, State.kept_mkBoot, State.kept_mkMram]
    | dsimp only

theorem execTrainingTimeout_le {a₀ : Kept} (link : Nat) (s : State) (ha : a₀.le s.kept)
    (out : State) (h : execTrainingTimeout link s = .next out) : a₀.le out.kept := by
  unfold execTrainingTimeout at h
  simp only [Host.Outcome.next.injEq] at h
  subst h
  repeat' first
    | with_reducible exact ha
    | with_reducible assumption
    | with_reducible apply State.borderDown_le
    | intro _
    | split
    | simp only [State.kept_mk, State.kept_mkPool, State.kept_mkBoot, State.kept_mkMram]

theorem execIdentTimeout_le {a₀ : Kept} (link : Nat) (s : State) (ha : a₀.le s.kept)
    (out : State) (h : execIdentTimeout link s = .next out) : a₀.le out.kept := by
  unfold execIdentTimeout at h
  simp only [Host.Outcome.next.injEq] at h
  subst h
  repeat' first
    | with_reducible exact ha
    | with_reducible assumption
    | with_reducible apply State.borderDown_le
    | intro _
    | split
    | simp only [State.kept_mk, State.kept_mkPool, State.kept_mkBoot, State.kept_mkMram]

theorem execLockLossTimeout_le {a₀ : Kept} (link : Nat) (s : State) (ha : a₀.le s.kept)
    (out : State) (h : execLockLossTimeout link s = .next out) : a₀.le out.kept := by
  unfold execLockLossTimeout at h
  simp only [Host.Outcome.next.injEq] at h
  subst h
  repeat' first
    | with_reducible exact ha
    | with_reducible assumption
    | with_reducible apply State.borderDown_le
    | intro _
    | split
    | simp only [State.kept_mk, State.kept_mkPool, State.kept_mkBoot, State.kept_mkMram]

theorem execIdent_le {a₀ : Kept} (link : Nat) (i : Ident) (s : State) (ha : a₀.le s.kept)
    (out : State) (h : execIdent link i s = .next out) : a₀.le out.kept := by
  unfold execIdent at h
  simp only [Host.Outcome.next.injEq] at h
  subst h
  repeat' first
    | with_reducible exact ha
    | with_reducible assumption
    | with_reducible apply State.borderDown_le
    | intro _
    | split
    | simp only [State.kept_mk, State.kept_mkPool, State.kept_mkBoot, State.kept_mkMram, State.modBlink_kept, State.sendCtrl_kept, State.setBState_kept, State.startAdmission_kept]
    | dsimp only

theorem execWidthReq_le {a₀ : Kept} (link : Nat) (mask : BitVec 8) (s : State) (ha : a₀.le s.kept)
    (out : State) (h : execWidthReq link mask s = .next out) : a₀.le out.kept := by
  unfold execWidthReq at h
  simp only [Host.Outcome.next.injEq] at h
  subst h
  repeat' first
    | with_reducible exact ha
    | with_reducible assumption
    | with_reducible apply State.afterDown_le
    | intro _
    | split
    | simp only [State.kept_mk, State.kept_mkPool, State.kept_mkBoot, State.kept_mkMram, State.modBlink_kept, State.pumpBorder_kept, State.putFlit_kept, State.replayBorder_kept, State.retireLink_kept, State.setBState_kept]
    | dsimp only

theorem execWidthChangeTimeout_le {a₀ : Kept} (link : Nat) (s : State) (ha : a₀.le s.kept)
    (out : State) (h : execWidthChangeTimeout link s = .next out) : a₀.le out.kept := by
  unfold execWidthChangeTimeout at h
  simp only [Host.Outcome.next.injEq] at h
  subst h
  repeat' first
    | with_reducible exact ha
    | with_reducible assumption
    | with_reducible apply State.borderDown_le
    | intro _
    | split
    | simp only [State.kept_mk, State.kept_mkPool, State.kept_mkBoot, State.kept_mkMram]

theorem State.endReroute_le {a₀ : Kept} (s : State) (n : Nat) (r : Reroute) (ha : a₀.le s.kept) :
    a₀.le (State.endReroute s n r).kept := by
  unfold State.endReroute
  repeat' first
    | with_reducible exact ha
    | with_reducible assumption
    | with_reducible apply State.startReroute_le
    | intro _
    | split
    | simp only [State.kept_mk, State.kept_mkPool, State.kept_mkBoot, State.kept_mkMram, State.modBlink_kept, State.modPeer_kept]
    | with_reducible apply foldl_le
    | dsimp only

theorem State.rerouteReplay_le {a₀ : Kept} (s : State) (n last : Nat) (ha : a₀.le s.kept) :
    a₀.le (State.rerouteReplay s n last).kept := by
  unfold State.rerouteReplay
  repeat' first
    | with_reducible exact ha
    | with_reducible assumption
    | with_reducible apply State.endReroute_le
    | intro _
    | split
    | simp only [State.kept_mk, State.kept_mkPool, State.kept_mkBoot, State.kept_mkMram, State.modBlink_kept, State.modPeer_kept, State.pumpBorder_kept, State.putFlit_kept]
    | dsimp only

theorem execRerouteReq_le {a₀ : Kept} (link dead last : Nat) (s : State) (ha : a₀.le s.kept)
    (out : State) (h : execRerouteReq link dead last s = .next out) : a₀.le out.kept := by
  unfold execRerouteReq at h
  simp only [Host.Outcome.next.injEq] at h
  subst h
  repeat' first
    | with_reducible exact ha
    | with_reducible assumption
    | with_reducible apply State.borderDown_le
    | with_reducible apply State.rerouteReplay_le
    | intro _
    | split
    | simp only [State.kept_mk, State.kept_mkPool, State.kept_mkBoot, State.kept_mkMram, State.modBlink_kept, State.modPeer_kept, State.putFlit_kept]
    | dsimp only

theorem execRerouteAck_le {a₀ : Kept} (link dead last : Nat) (s : State) (ha : a₀.le s.kept)
    (out : State) (h : execRerouteAck link dead last s = .next out) : a₀.le out.kept := by
  unfold execRerouteAck at h
  simp only [Host.Outcome.next.injEq] at h
  subst h
  repeat' first
    | with_reducible exact ha
    | with_reducible assumption
    | with_reducible apply State.rerouteReplay_le
    | intro _
    | split
    | simp only [State.kept_mk, State.kept_mkPool, State.kept_mkBoot, State.kept_mkMram]
    | dsimp only

theorem execRerouteDone_le {a₀ : Kept} (link dead : Nat) (s : State) (ha : a₀.le s.kept)
    (out : State) (h : execRerouteDone link dead s = .next out) : a₀.le out.kept := by
  unfold execRerouteDone at h
  simp only [Host.Outcome.next.injEq] at h
  subst h
  repeat' first
    | with_reducible exact ha
    | with_reducible assumption
    | with_reducible apply State.endReroute_le
    | intro _
    | split
    | simp only [State.kept_mk, State.kept_mkPool, State.kept_mkBoot, State.kept_mkMram, State.modPeer_kept]
    | dsimp only

theorem execRerouteLimitExpiry_le {a₀ : Kept} (peer : Nat) (s : State) (ha : a₀.le s.kept)
    (out : State) (h : execRerouteLimitExpiry peer s = .next out) : a₀.le out.kept := by
  unfold execRerouteLimitExpiry at h
  simp only [Host.Outcome.next.injEq] at h
  subst h
  repeat' first
    | with_reducible exact ha
    | with_reducible assumption
    | with_reducible apply State.fencePeer_le
    | intro _
    | split
    | simp only [State.kept_mk, State.kept_mkPool, State.kept_mkBoot, State.kept_mkMram]

theorem State.fenceUnit_le {a₀ : Kept} (s : State) (u code st : Nat) (ha : a₀.le s.kept) :
    a₀.le (State.fenceUnit s u code st).kept := by
  unfold State.fenceUnit
  repeat' first
    | with_reducible exact ha
    | with_reducible assumption
    | with_reducible apply State.borderDown_le
    | intro _
    | split
    | simp only [State.kept_mk, State.kept_mkPool, State.kept_mkBoot, State.kept_mkMram, State.emit_kept, State.fgHalt_kept, State.loseLink_kept, State.modFinger_kept, State.modGate_kept, State.modUnit_kept, State.qFault_kept, State.retireLink_kept]
    | with_reducible apply foldl_le
    | dsimp only

theorem State.fenceTransient_le {a₀ : Kept} (s : State) (u code : Nat) (ha : a₀.le s.kept) :
    a₀.le (State.fenceTransient s u code).kept := by
  unfold State.fenceTransient
  repeat' first
    | with_reducible exact ha
    | with_reducible assumption
    | with_reducible apply State.fenceUnit_le
    | intro _
    | split
    | simp only [State.kept_mk, State.kept_mkPool, State.kept_mkBoot, State.kept_mkMram, State.degrade_kept, State.modUnit_kept]
    | dsimp only

theorem State.react_le {a₀ : Kept} (s : State) (r : FaultReport) (ha : a₀.le s.kept) :
    a₀.le (State.react s r).1.kept := by
  unfold State.react
  repeat' first
    | with_reducible exact ha
    | with_reducible assumption
    | with_reducible apply State.fenceTransient_le
    | with_reducible apply State.fenceUnit_le
    | with_reducible apply State.retireLane_le
    | intro _
    | split
    | simp only [State.kept_mk, State.kept_mkPool, State.kept_mkBoot, State.kept_mkMram, State.addInteg_kept, State.addUe_kept, State.aer_kept, State.contained_kept, State.degrade_kept, State.losePseudo_kept, State.modBlink_kept, State.modLink_kept, State.report_kept, State.retireChannel_kept, State.retireHostLane_kept, State.steerWire_kept, State.toQuarantine_kept]
    | with_reducible apply foldl_le
    | dsimp only

theorem State.takeFault_le {a₀ : Kept} (s : State) (r : FaultReport) (ha : a₀.le s.kept) :
    a₀.le (State.takeFault s r).kept := by
  unfold State.takeFault
  repeat' first
    | with_reducible exact ha
    | with_reducible assumption
    | with_reducible apply State.react_le
    | intro _
    | split
    | simp only [State.kept_mk, State.kept_mkPool, State.kept_mkBoot, State.kept_mkMram, State.latchFault_kept, State.logFault_kept, State.modUnit_kept]
    | dsimp only

theorem execFault_le {a₀ : Kept} (r : FaultReport) (s : State) (ha : a₀.le s.kept)
    (out : State) (h : execFault r s = .next out) : a₀.le out.kept := by
  unfold execFault at h
  simp only [Host.Outcome.next.injEq] at h
  subst h
  repeat' first
    | with_reducible exact ha
    | with_reducible assumption
    | with_reducible apply State.takeFault_le
    | intro _
    | split
    | simp only [State.kept_mk, State.kept_mkPool, State.kept_mkBoot, State.kept_mkMram, State.dropCopy_kept]

theorem execLeakyBucketDrain_le {a₀ : Kept} (b : Bucket) (s : State) (ha : a₀.le s.kept)
    (out : State) (h : execLeakyBucketDrain b s = .next out) : a₀.le out.kept := by
  unfold execLeakyBucketDrain at h
  simp only [Host.Outcome.next.injEq] at h
  subst h
  repeat' first
    | with_reducible exact ha
    | with_reducible assumption
    | with_reducible apply State.borderDown_le
    | intro _
    | split
    | simp only [State.kept_mk, State.kept_mkPool, State.kept_mkBoot, State.kept_mkMram, State.modBlink_kept, State.modGate_kept, State.modUnit_kept]
    | dsimp only

theorem State.spareChunk_le {a₀ : Kept} (s : State) (ch chunk : Nat) (ha : a₀.le s.kept) :
    a₀.le (State.spareChunk s ch chunk).kept := by
  unfold State.spareChunk
  repeat' first
    | with_reducible exact ha
    | with_reducible assumption
    | with_reducible apply State.ddrPut_le
    | intro _
    | split
    | simp only [State.kept_mk, State.kept_mkPool, State.kept_mkBoot, State.kept_mkMram, State.addUe_kept, State.ddrPoison_kept, State.modGate_kept, State.removal_kept]
    | with_reducible apply foldl_le
    | dsimp only

theorem State.eccDdr_le {a₀ : Kept} (s : State) (ch a : Nat) (ecc : EccResult) (ha : a₀.le s.kept) :
    a₀.le (State.eccDdr s ch a ecc).kept := by
  have hb : ∀ k : List Nat, a₀.le ({ s with pool.ddrBad := k } : State).kept := fun k => ha
  unfold State.eccDdr
  generalize s.chunkAt ch (a / 4096) = c
  cases ecc <;> cases c <;> dsimp only
  · exact ha
  · exact ha
  · rw [State.corrected_kept]; exact ha
  · split
    · exact State.spareChunk_le _ _ _ (by rw [State.modGate_kept, State.corrected_kept]; exact ha)
    · rw [State.modGate_kept, State.corrected_kept]; exact ha
  · rw [State.report_kept]; exact hb _
  · exact State.spareChunk_le _ _ _ (by rw [State.report_kept]; exact hb _)

theorem State.scrubDdr_le {a₀ : Kept} (s : State) (ch : Nat) (ecc : EccResult) (ha : a₀.le s.kept) :
    a₀.le (State.scrubDdr s ch ecc).kept := by
  unfold State.scrubDdr
  repeat' first
    | with_reducible exact ha
    | with_reducible assumption
    | with_reducible apply State.eccDdr_le
    | intro _
    | split
    | simp only [State.kept_mk, State.kept_mkPool, State.kept_mkBoot, State.kept_mkMram, State.modGate_kept]
    | dsimp only

theorem State.grantDdr_le {a₀ : Kept} (s : State) (ch : Nat) (r : SlotReq) (ecc : EccResult) (ha : a₀.le s.kept) :
    a₀.le (State.grantDdr s ch r ecc).kept := by
  unfold State.grantDdr
  repeat' first
    | with_reducible exact ha
    | with_reducible assumption
    | with_reducible apply State.eccDdr_le
    | intro _
    | split
    | simp only [State.kept_mk, State.kept_mkPool, State.kept_mkBoot, State.kept_mkMram, State.modGate_kept]
    | dsimp only

theorem execCommandSlotGrant_le {a₀ : Kept} (c : Sched) (refreshDue : Bool) (ecc : EccResult) (s : State) (ha : a₀.le s.kept)
    (out : State) (h : execCommandSlotGrant c refreshDue ecc s = .next out) : a₀.le out.kept := by
  unfold execCommandSlotGrant at h
  simp only [Host.Outcome.next.injEq] at h
  subst h
  repeat' first
    | with_reducible exact ha
    | with_reducible assumption
    | with_reducible apply State.grantDdr_le
    | with_reducible apply State.scrubDdr_le
    | intro _
    | split
    | simp only [State.kept_mk, State.kept_mkPool, State.kept_mkBoot, State.kept_mkMram, State.grantHbm_kept, State.modGate_kept, State.scrubHbm_kept]
    | dsimp only

theorem State.cleared_le {a₀ : Kept} (s : State) (ha : a₀.le s.kept) :
    a₀.le (State.cleared s).kept := by
  exact Kept.le_rcvBuf ha [] (fun _ => rfl)

theorem State.holdReset_le {a₀ : Kept} (s : State) (ha : a₀.le s.kept) :
    a₀.le (State.holdReset s).kept := by
  unfold State.holdReset
  repeat' first
    | with_reducible exact ha
    | with_reducible assumption
    | with_reducible apply State.cleared_le
    | intro _
    | split
    | simp only [State.kept_mk, State.kept_mkPool, State.kept_mkBoot, State.kept_mkMram, State.alarm_kept, State.emit_kept]
    | dsimp only

theorem execDevRstAssert_le {a₀ : Kept} (s : State) (ha : a₀.le s.kept)
    (out : State) (h : execDevRstAssert s = .next out) : a₀.le out.kept := by
  unfold execDevRstAssert at h
  simp only [Host.Outcome.next.injEq] at h
  subst h
  repeat' first
    | with_reducible exact ha
    | with_reducible assumption
    | with_reducible apply State.holdReset_le
    | intro _
    | split
    | simp only [State.kept_mk, State.kept_mkPool, State.kept_mkBoot, State.kept_mkMram]

theorem execPowerGoodDeassert_le {a₀ : Kept} (s : State) (ha : a₀.le s.kept)
    (out : State) (h : execPowerGoodDeassert s = .next out) : a₀.le out.kept := by
  unfold execPowerGoodDeassert at h
  simp only [Host.Outcome.next.injEq] at h
  subst h
  repeat' first
    | with_reducible exact ha
    | with_reducible assumption
    | with_reducible apply State.holdReset_le
    | intro _
    | split
    | simp only [State.kept_mk, State.kept_mkPool, State.kept_mkBoot, State.kept_mkMram]

theorem execVddAonRemoved_le {a₀ : Kept} (s : State) (ha : a₀.le s.kept)
    (out : State) (h : execVddAonRemoved s = .next out) : a₀.le out.kept := by
  unfold execVddAonRemoved at h
  simp only [Host.Outcome.next.injEq] at h
  subst h
  split
  · exact ha
  · have k : a₀.le { (s.cleared).kept with ddr := [] } := Kept.le_ddr (State.cleared_le _ ha) _ (fun _ => rfl)
    split
    · rw [State.emit_kept]; exact k
    · exact k

theorem State.raiseFloors_le {a₀ : Kept} (s : State) (p : Pattern) (ha : a₀.le s.kept) :
    a₀.le (State.raiseFloors s p).kept := by
  exact ⟨ha.pending, ha.flash, ha.rcvBuf, ha.signer, ha.patternFloor.trans (Nat.le_max_left _ _),
    ha.ucodeFloor.trans (Nat.le_max_left _ _), ha.ddr⟩

theorem State.startStep7_le {a₀ : Kept} (s : State) (p : Pattern) (ha : a₀.le s.kept) :
    a₀.le (State.startStep7 s p).kept := by
  unfold State.startStep7
  repeat' first
    | with_reducible exact ha
    | with_reducible assumption
    | with_reducible apply State.raiseFloors_le
    | intro _
    | split
    | simp only [State.kept_mk, State.kept_mkPool, State.kept_mkBoot, State.kept_mkMram, State.domOff_kept, State.modBlink_kept, State.modSource_kept, State.placeFinger_kept, State.resetSriov_kept, State.setBState_kept, State.setMode_kept, State.stepDone_kept]
    | with_reducible apply foldl_le
    | dsimp only

theorem State.startCopy_le {a₀ : Kept} (s : State) (b : Board) (p : Pattern) (ha : a₀.le s.kept) :
    a₀.le (State.startCopy s b p).kept := by
  unfold State.startCopy
  repeat' first
    | with_reducible exact ha
    | with_reducible assumption
    | with_reducible apply State.startStep7_le
    | intro _
    | split
    | simp only [State.kept_mk, State.kept_mkPool, State.kept_mkBoot, State.kept_mkMram, State.quarantine_kept, State.startStep3_kept, State.startStep4_kept, State.startStep5_kept, State.stepDone_kept]
    | dsimp only

theorem State.startUp_le {a₀ : Kept} (s : State) (b : Board) (ha : a₀.le s.kept) :
    a₀.le (State.startUp s b).kept := by
  unfold State.startUp
  repeat' first
    | with_reducible exact ha
    | with_reducible assumption
    | with_reducible apply State.startCopy_le
    | intro _
    | split
    | simp only [State.kept_mk, State.kept_mkPool, State.kept_mkBoot, State.kept_mkMram, State.copyFailed_kept, State.enterBlank_kept, State.quarantine_kept, State.startStep1_kept, State.stepDone_kept]
    | dsimp only

theorem execColdReset_le {a₀ : Kept} (b : Board) (s : State) (ha : a₀.le s.kept)
    (out : State) (h : execColdReset b s = .next out) : a₀.le out.kept := by
  unfold execColdReset at h
  simp only [Host.Outcome.next.injEq] at h
  subst h
  repeat' first
    | with_reducible exact ha
    | with_reducible assumption
    | with_reducible apply State.cleared_le
    | with_reducible apply State.startUp_le
    | intro _
    | split
    | simp only [State.kept_mk, State.kept_mkPool, State.kept_mkBoot, State.kept_mkMram]
    | dsimp only

theorem State.recoveryOp_le {a₀ : Kept} (s : State) (f : FnId) (op len : Nat) (copyB : Bool) (bad : Nat) (run : State → State) (hrun : ∀ x0, a₀.le (x0 : State).kept → a₀.le (run x0).kept) (ha : a₀.le s.kept) :
    a₀.le (State.recoveryOp s f op len copyB bad run).kept := by
  unfold State.recoveryOp
  repeat' first
    | with_reducible exact ha
    | with_reducible assumption
    | with_reducible apply hrun
    | intro _
    | split
    | simp only [State.kept_mk, State.kept_mkPool, State.kept_mkBoot, State.kept_mkMram, State.reject_kept]
    | dsimp only

theorem execRecoveryRead_le {a₀ : Kept} (f : FnId) (len : Nat) (s : State) (ha : a₀.le s.kept)
    (out : State) (h : execRecoveryRead f len s = .next out) : a₀.le out.kept := by
  unfold execRecoveryRead at h
  simp only [Host.Outcome.next.injEq] at h
  subst h
  try dsimp only
  refine State.recoveryOp_le _ _ _ _ _ _ _ (fun x hx => ?_) ha
  exact Kept.le_rcvBuf hx _ (fun k => Memory.writeAll_wf _ _ k)

theorem execRecoveryErase_le {a₀ : Kept} (f : FnId) (s : State) (ha : a₀.le s.kept)
    (out : State) (h : execRecoveryErase f s = .next out) : a₀.le out.kept := by
  unfold execRecoveryErase at h
  simp only [Host.Outcome.next.injEq] at h
  subst h
  try dsimp only
  refine State.recoveryOp_le _ _ _ _ _ _ _ (fun x hx => ?_) ha
  exact Kept.le_flash hx _ (fun k => Memory.filter_wf _ k)

theorem execRecoveryProgram_le {a₀ : Kept} (f : FnId) (len : Nat) (s : State) (ha : a₀.le s.kept)
    (out : State) (h : execRecoveryProgram f len s = .next out) : a₀.le out.kept := by
  unfold execRecoveryProgram at h
  simp only [Host.Outcome.next.injEq] at h
  subst h
  try dsimp only
  refine State.recoveryOp_le _ _ _ _ _ _ _ (fun x hx => ?_) ha
  exact Kept.le_flash hx _ (fun k => Memory.writeAll_wf _ _ k)

theorem State.recoveryOp_refused (s : State) (f : FnId) (op len : Nat) (copyB : Bool) (bad : Nat) (run : State → State) (h : bad ≠ 0) :
    (s.recoveryOp f op len copyB bad run).kept = s.kept := by
  unfold State.recoveryOp
  (repeat' split) <;> first | rfl | (simp; done) | (exfalso; simp_all; done)

theorem execFuseSigner_le {a₀ : Kept} (f : FnId) (s : State) (ha : a₀.le s.kept)
    (out : State) (h : execFuseSigner f s = .next out) : a₀.le out.kept := by
  unfold execFuseSigner at h
  simp only [Host.Outcome.next.injEq] at h
  subst h
  cases hs : s.boot.signer with
  | some x =>
    rw [State.recoveryOp_refused _ _ _ _ _ _ _ (by simp)]
    exact ha
  | none =>
    unfold State.recoveryOp
    (repeat' split) <;> first
      | exact ha
      | (rw [State.reject_kept]; exact ha)
      | exact Kept.le_signer ha _ hs

theorem State.wcbOut_le {a₀ : Kept} (s : State) (g line : Nat) (ha : a₀.le s.kept) :
    a₀.le (State.wcbOut s g line).kept := by
  unfold State.wcbOut
  repeat' first
    | with_reducible exact ha
    | with_reducible assumption
    | with_reducible apply State.wcbLeave_le
    | intro _
    | split
    | simp only [State.kept_mk, State.kept_mkPool, State.kept_mkBoot, State.kept_mkMram]

theorem State.quiesce_le {a₀ : Kept} (s : State) (d : Nat) (ha : a₀.le s.kept) :
    a₀.le (State.quiesce s d).kept := by
  unfold State.quiesce
  repeat' first
    | with_reducible exact ha
    | with_reducible assumption
    | with_reducible apply State.macOut_le
    | with_reducible apply State.wcbOut_le
    | intro _
    | split
    | simp only [State.kept_mk, State.kept_mkPool, State.kept_mkBoot, State.kept_mkMram, State.drainHgate_kept, State.dropCaches_kept, State.evictCtr_kept]
    | with_reducible apply foldl_le
    | dsimp only

theorem execLingerExpiry_le {a₀ : Kept} (d : Nat) (refuser : Option Nat) (s : State) (ha : a₀.le s.kept)
    (out : State) (h : execLingerExpiry d refuser s = .next out) : a₀.le out.kept := by
  unfold execLingerExpiry at h
  simp only [Host.Outcome.next.injEq] at h
  subst h
  repeat' first
    | with_reducible exact ha
    | with_reducible assumption
    | with_reducible apply State.quiesce_le
    | intro _
    | split
    | simp only [State.kept_mk, State.kept_mkPool, State.kept_mkBoot, State.kept_mkMram, State.edge_kept, State.modDom_kept]
    | dsimp only

theorem execDomainCommit_le {a₀ : Kept} (d : Nat) (s : State) (ha : a₀.le s.kept)
    (out : State) (h : execDomainCommit d s = .next out) : a₀.le out.kept := by
  unfold execDomainCommit at h
  simp only [Host.Outcome.next.injEq] at h
  subst h
  repeat' first
    | with_reducible exact ha
    | with_reducible assumption
    | with_reducible apply State.quiesce_le
    | intro _
    | split
    | simp only [State.kept_mk, State.kept_mkPool, State.kept_mkBoot, State.kept_mkMram, State.modDom_kept, State.wake_kept]
    | dsimp only

theorem after_le {a₀ : Kept} {r : Result} {s : State} (ha : a₀.le s.kept) (h : ∀ out, r = .next out → a₀.le out.kept) :
    a₀.le (after r s).kept := by
  unfold after
  split
  · exact h _ rfl
  · exact ha

theorem State.rcvCommand_le {a₀ : Kept} (s : State) (f : FnId) (v : Nat) (ha : a₀.le s.kept) :
    a₀.le (State.rcvCommand s f v).kept := by
  unfold State.rcvCommand
  dsimp only
  split
  · exact ha
  · exact after_le ha (execRecoveryRead_le _ _ _ ha)
  · exact after_le ha (execRecoveryErase_le _ _ ha)
  · exact after_le ha (execRecoveryProgram_le _ _ _ ha)
  · exact after_le ha (fun out h => Kept.le_of_eq ha (execRecoveryVerify_kept _ _ _ _ out h))
  · exact after_le ha (execFuseSigner_le _ _ ha)
  · exact State.recoveryOp_le _ _ _ _ _ _ _ (fun _ h => h) ha

theorem State.writeImg_le {a₀ : Kept} (s : State) (f : FnId) (o w en : Nat) (ha : a₀.le s.kept) :
    a₀.le (State.writeImg s f o w en).kept := by
  unfold State.writeImg
  split
  · exact ha
  · split
    · split
      · exact State.rcvCommand_le _ _ _ ha
      · exact ha
    · split
      · rw [State.kept_mkBoot]; exact ha
      · split
        · split
          · rw [State.kept_mkBoot]; exact ha
          · exact ha
        · split
          · exact Kept.le_rcvBuf ha _ (fun k => Memory.writeAll_wf _ _ k)
          · exact ha

theorem ite_le {a₀ : Kept} {c : Prop} [Decidable c] {x y : State} (hx : a₀.le x.kept) (hy : a₀.le y.kept) :
    a₀.le (if c then x else y).kept := by
  by_cases h : c
  · rw [if_pos h]; exact hx
  · rw [if_neg h]; exact hy

theorem State.writeOpen_le {a₀ : Kept} (s : State) (f : FnId) (off w en : Nat) (ha : a₀.le s.kept) :
    a₀.le (State.writeOpen s f off w en).kept := by
  unfold State.writeOpen
  extract_lets pf
  (repeat' with_reducible apply ite_le) <;> first
    | with_reducible exact ha
    | with_reducible exact State.writeImg_le _ _ _ _ _ ha
    | (rw [State.writeQue_kept]; with_reducible exact ha)
    | (rw [State.writeEvt_kept]; with_reducible exact ha)
    | (rw [State.writeFlt_kept]; with_reducible exact ha)
    | (rw [State.writeWve_kept]; with_reducible exact ha)
    | (rw [State.writeMsix_kept]; with_reducible exact ha)
    | (rw [State.modFn_kept]; with_reducible exact ha)
    | (rw [State.modLink_kept]; with_reducible exact ha)
    | with_reducible exact after_le ha (fun out h => Kept.le_of_eq ha (execFngEventsSet_kept _ _ _ out h))
    | with_reducible exact after_le ha (fun out h => Kept.le_of_eq ha (execFngEventClr_kept _ _ _ out h))
    | with_reducible exact after_le ha (fun out h => Kept.le_of_eq ha (execUsgAnchorWrite_kept _ _ _ out h))

theorem State.writeUnit_le {a₀ : Kept} (s : State) (f : FnId) (off w en : Nat) (ha : a₀.le s.kept) :
    a₀.le (State.writeUnit s f off w en).kept := by
  unfold State.writeUnit
  repeat' first
    | with_reducible exact ha
    | with_reducible assumption
    | with_reducible apply State.writeOpen_le
    | intro _
    | split
    | simp only [State.kept_mk, State.kept_mkPool, State.kept_mkBoot, State.kept_mkMram, State.contained_kept]

theorem State.writeBar0_le {a₀ : Kept} (s : State) (f : FnId) (unitBase off : Nat) (data : List (Option Byte)) (ha : a₀.le s.kept) :
    a₀.le (State.writeBar0 s f unitBase off data).kept := by
  unfold State.writeBar0
  repeat' first
    | with_reducible exact ha
    | with_reducible assumption
    | with_reducible apply State.writeUnit_le
    | intro _
    | split
    | simp only [State.kept_mk, State.kept_mkPool, State.kept_mkBoot, State.kept_mkMram, State.inject_kept, State.reject_kept]
    | dsimp only

theorem execRegisterWrite_le {a₀ : Kept} (f : FnId) (t : RegTarget) (s : State) (ha : a₀.le s.kept)
    (out : State) (h : execRegisterWrite f t s = .next out) : a₀.le out.kept := by
  unfold execRegisterWrite at h
  simp only [Host.Outcome.next.injEq] at h
  subst h
  repeat' first
    | with_reducible exact ha
    | with_reducible assumption
    | with_reducible apply State.writeBar0_le
    | intro _
    | split
    | simp only [State.kept_mk, State.kept_mkPool, State.kept_mkBoot, State.kept_mkMram, State.writeCfg_kept]

theorem State.endLock_le {a₀ : Kept} (s : State) (c : Nat) (k : Lock) (cpl : State → State) (hcpl : ∀ x0, a₀.le (x0 : State).kept → a₀.le (cpl x0).kept) (ha : a₀.le s.kept) :
    a₀.le (State.endLock s c k cpl).kept := by
  unfold State.endLock
  repeat' first
    | with_reducible exact ha
    | with_reducible assumption
    | with_reducible apply hcpl
    | intro _
    | split
    | simp only [State.kept_mk, State.kept_mkPool, State.kept_mkBoot, State.kept_mkMram, State.modCuff_kept, State.pumpLocks_kept]
    | dsimp only

theorem State.performHeld_le {a₀ : Kept} (s : State) (l : Nat) (h : HeldReq) (ha : a₀.le s.kept) :
    a₀.le (State.performHeld s l h).kept := by
  unfold State.performHeld
  repeat' first
    | with_reducible exact ha
    | with_reducible assumption
    | with_reducible apply State.writeBar0_le
    | intro _
    | split
    | simp only [State.kept_mk, State.kept_mkPool, State.kept_mkBoot, State.kept_mkMram, State.aerTlp_kept, State.atomicBar2_kept, State.hostUr_kept, State.readBar0_kept, State.readBar2_kept, State.writeBar2_kept]
    | dsimp only

theorem State.pumpHeld_le {a₀ : Kept} (s : State) (l : Nat) (ha : a₀.le s.kept) :
    a₀.le (State.pumpHeld s l).kept := by
  unfold State.pumpHeld
  repeat' first
    | with_reducible exact ha
    | with_reducible assumption
    | with_reducible apply State.performHeld_le
    | intro _
    | split
    | simp only [State.kept_mk, State.kept_mkPool, State.kept_mkBoot, State.kept_mkMram, State.fetchTable_kept, State.modLink_kept]
    | with_reducible apply foldl_le
    | dsimp only

theorem State.hostEnter_le {a₀ : Kept} (s : State) (l : Nat) (h : HeldReq) (ha : a₀.le s.kept) :
    a₀.le (State.hostEnter s l h).kept := by
  unfold State.hostEnter
  repeat' first
    | with_reducible exact ha
    | with_reducible assumption
    | with_reducible apply State.performHeld_le
    | intro _
    | split
    | simp only [State.kept_mk, State.kept_mkPool, State.kept_mkBoot, State.kept_mkMram, State.fetchTable_kept, State.modLink_kept]
    | dsimp only

theorem State.hostWritten_le {a₀ : Kept} (s : State) (l n g addr : Nat) (peer : Bool) (p : Packet) (code : Nat) (ha : a₀.le s.kept) :
    a₀.le (State.hostWritten s l n g addr peer p code).kept := by
  unfold State.hostWritten
  repeat' first
    | with_reducible exact ha
    | with_reducible assumption
    | with_reducible apply State.pumpHeld_le
    | intro _
    | split
    | simp only [State.kept_mk, State.kept_mkPool, State.kept_mkBoot, State.kept_mkMram, State.farSide_kept]
    | dsimp only

theorem execHostMemoryRead_le {a₀ : Kept} (r : HostRead) (s : State) (ha : a₀.le s.kept)
    (out : State) (h : execHostMemoryRead r s = .next out) : a₀.le out.kept := by
  unfold execHostMemoryRead at h
  simp only [Host.Outcome.next.injEq] at h
  subst h
  repeat' first
    | with_reducible exact ha
    | with_reducible assumption
    | with_reducible apply State.hostEnter_le
    | with_reducible apply State.ideCheck_le
    | intro _
    | split
    | simp only [State.kept_mk, State.kept_mkPool, State.kept_mkBoot, State.kept_mkMram, State.hostUr_kept]
    | dsimp only

theorem execHostMemoryWrite_le {a₀ : Kept} (w : HostWrite) (s : State) (ha : a₀.le s.kept)
    (out : State) (h : execHostMemoryWrite w s = .next out) : a₀.le out.kept := by
  unfold execHostMemoryWrite at h
  simp only [Host.Outcome.next.injEq] at h
  subst h
  repeat' first
    | with_reducible exact ha
    | with_reducible assumption
    | with_reducible apply State.hostEnter_le
    | with_reducible apply State.ideCheck_le
    | intro _
    | split
    | simp only [State.kept_mk, State.kept_mkPool, State.kept_mkBoot, State.kept_mkMram, State.aerTlp_kept]
    | dsimp only

theorem execHostAtomicop_le {a₀ : Kept} (a : HostAtomic) (s : State) (ha : a₀.le s.kept)
    (out : State) (h : execHostAtomicop a s = .next out) : a₀.le out.kept := by
  unfold execHostAtomicop at h
  simp only [Host.Outcome.next.injEq] at h
  subst h
  repeat' first
    | with_reducible exact ha
    | with_reducible assumption
    | with_reducible apply State.hostEnter_le
    | with_reducible apply State.ideCheck_le
    | intro _
    | split
    | simp only [State.kept_mk, State.kept_mkPool, State.kept_mkBoot, State.kept_mkMram, State.aerTlp_kept, State.hostUr_kept]
    | dsimp only

theorem State.reopen_le {a₀ : Kept} (s : State) (g : Nat) (ha : a₀.le s.kept) :
    a₀.le (State.reopen s g).kept := by
  unfold State.reopen
  repeat' first
    | with_reducible exact ha
    | with_reducible assumption
    | with_reducible apply State.pumpHeld_le
    | intro _
    | split
    | simp only [State.kept_mk, State.kept_mkPool, State.kept_mkBoot, State.kept_mkMram, State.modGlove_kept]
    | dsimp only

theorem execEpochDrainDone_le {a₀ : Kept} (glove : Nat) (s : State) (ha : a₀.le s.kept)
    (out : State) (h : execEpochDrainDone glove s = .next out) : a₀.le out.kept := by
  unfold execEpochDrainDone at h
  simp only [Host.Outcome.next.injEq] at h
  subst h
  repeat' first
    | with_reducible exact ha
    | with_reducible assumption
    | with_reducible apply State.reopen_le
    | intro _
    | split
    | simp only [State.kept_mk, State.kept_mkPool, State.kept_mkBoot, State.kept_mkMram, State.applyChange_kept, State.dropTranslations_kept, State.endChange_kept, State.modGlove_kept, State.reclaimPages_kept]
    | dsimp only

theorem execEpochDrainTimeout_le {a₀ : Kept} (glove : Nat) (s : State) (ha : a₀.le s.kept)
    (out : State) (h : execEpochDrainTimeout glove s = .next out) : a₀.le out.kept := by
  unfold execEpochDrainTimeout at h
  simp only [Host.Outcome.next.injEq] at h
  subst h
  repeat' first
    | with_reducible exact ha
    | with_reducible assumption
    | with_reducible apply State.reopen_le
    | intro _
    | split
    | simp only [State.kept_mk, State.kept_mkPool, State.kept_mkBoot, State.kept_mkMram, State.endChange_kept]

theorem State.gloveCmd_le {a₀ : Kept} (s : State) (i : Instr) (o : Origin) (g : Nat) (f : State → State) (hf : ∀ x0, a₀.le (x0 : State).kept → a₀.le (f x0).kept) (ha : a₀.le s.kept) :
    a₀.le (State.gloveCmd s i o g f).kept := by
  unfold State.gloveCmd
  repeat' first
    | with_reducible exact ha
    | with_reducible assumption
    | with_reducible apply hf
    | intro _
    | split
    | simp only [State.kept_mk, State.kept_mkPool, State.kept_mkBoot, State.kept_mkMram, State.refuse_kept, State.undispatch_kept]
    | dsimp only

theorem State.checked_le {a₀ : Kept} (s : State) (o : Origin) (checks : List (Bool × Nat)) (f : State → State) (hf : ∀ x0, a₀.le (x0 : State).kept → a₀.le (f x0).kept) (ha : a₀.le s.kept) :
    a₀.le (State.checked s o checks f).kept := by
  unfold State.checked
  repeat' first
    | with_reducible exact ha
    | with_reducible assumption
    | with_reducible apply hf
    | intro _
    | split
    | simp only [State.kept_mk, State.kept_mkPool, State.kept_mkBoot, State.kept_mkMram, State.refuse_kept]
    | dsimp only

theorem execOpenGlove_le {a₀ : Kept} (o : Origin) (glove : Nat) (tenantKey tdisp : Bool) (queueLimit fingerLimit : Nat) (s : State) (ha : a₀.le s.kept)
    (out : State) (h : execOpenGlove o glove tenantKey tdisp queueLimit fingerLimit s = .next out) : a₀.le out.kept := by
  unfold execOpenGlove at h
  simp only [Host.Outcome.next.injEq] at h
  subst h
  repeat' first
    | with_reducible exact ha
    | with_reducible assumption
    | with_reducible apply State.checked_le
    | with_reducible apply State.gloveCmd_le
    | with_reducible apply State.tdisp_le
    | intro _
    | split
    | simp only [State.kept_mk, State.kept_mkPool, State.kept_mkBoot, State.kept_mkMram, State.complete_kept, State.draw_kept, State.modGlove_kept, State.modSlot_kept, State.setFingers_kept, State.tablesChanged_kept]
    | dsimp only

theorem State.beginClose_le {a₀ : Kept} (s : State) (o : Origin) (g : Nat) (f : FnId) (ha : a₀.le s.kept) :
    a₀.le (State.beginClose s o g f).kept := by
  unfold State.beginClose
  repeat' first
    | with_reducible exact ha
    | with_reducible assumption
    | with_reducible apply State.pumpHeld_le
    | intro _
    | split
    | simp only [State.kept_mk, State.kept_mkPool, State.kept_mkBoot, State.kept_mkMram, State.closeAimed_kept, State.closeAtomics_kept, State.closeLines_kept, State.closeRequests_kept, State.closeRules_kept, State.closeWindows_kept, State.dropTranslations_kept, State.endChange_kept, State.fgReset_kept, State.modGlove_kept, State.modSlot_kept, State.raiseCause_kept, State.setFingers_kept, State.tdiError_kept]
    | with_reducible apply foldl_le
    | dsimp only

theorem execCloseGlove_le {a₀ : Kept} (o : Origin) (glove : Nat) (s : State) (ha : a₀.le s.kept)
    (out : State) (h : execCloseGlove o glove s = .next out) : a₀.le out.kept := by
  unfold execCloseGlove at h
  simp only [Host.Outcome.next.injEq] at h
  subst h
  repeat' first
    | with_reducible exact ha
    | with_reducible assumption
    | with_reducible apply State.beginClose_le
    | with_reducible apply State.gloveCmd_le
    | intro _
    | split
    | simp only [State.kept_mk, State.kept_mkPool, State.kept_mkBoot, State.kept_mkMram, State.destroyQueues_kept, State.refuse_kept]
    | dsimp only

theorem State.adminCmd_le {a₀ : Kept} (s : State) (i : Instr) (o : Origin) (f : State → State) (hf : ∀ x0, a₀.le (x0 : State).kept → a₀.le (f x0).kept) (ha : a₀.le s.kept) :
    a₀.le (State.adminCmd s i o f).kept := by
  unfold State.adminCmd
  repeat' first
    | with_reducible exact ha
    | with_reducible assumption
    | with_reducible apply hf
    | intro _
    | split
    | simp only [State.kept_mk, State.kept_mkPool, State.kept_mkBoot, State.kept_mkMram, State.undispatch_kept]

theorem State.mgmtFrom_le {a₀ : Kept} (s : State) (n : Nat) (f : State → State) (hf : ∀ x0, a₀.le (x0 : State).kept → a₀.le (f x0).kept) (ha : a₀.le s.kept) :
    a₀.le (State.mgmtFrom s n f).kept := by
  unfold State.mgmtFrom
  repeat' first
    | with_reducible exact ha
    | with_reducible assumption
    | with_reducible apply hf
    | intro _
    | split
    | simp only [State.kept_mk, State.kept_mkPool, State.kept_mkBoot, State.kept_mkMram]

theorem State.grantFailed_le {a₀ : Kept} (s : State) (x : PeerGrant) (finish : State → State) (hfinish : ∀ x0, a₀.le (x0 : State).kept → a₀.le (finish x0).kept) (ha : a₀.le s.kept) :
    a₀.le (State.grantFailed s x finish).kept := by
  unfold State.grantFailed
  repeat' first
    | with_reducible exact ha
    | with_reducible assumption
    | with_reducible apply hfinish
    | intro _
    | split
    | simp only [State.kept_mk, State.kept_mkPool, State.kept_mkBoot, State.kept_mkMram, State.askRelease_kept, State.askRevoke_kept, State.modGlove_kept, State.modPeer_kept]
    | dsimp only

theorem execQuarantineNotice_le {a₀ : Kept} (peer _cause : Nat) (s : State) (ha : a₀.le s.kept)
    (out : State) (h : execQuarantineNotice peer _cause s = .next out) : a₀.le out.kept := by
  unfold execQuarantineNotice at h
  simp only [Host.Outcome.next.injEq] at h
  subst h
  repeat' first
    | with_reducible exact ha
    | with_reducible assumption
    | with_reducible apply State.fencePeer_le
    | with_reducible apply State.mgmtFrom_le
    | intro _
    | split
    | simp only [State.kept_mk, State.kept_mkPool, State.kept_mkBoot, State.kept_mkMram]
    | dsimp only

theorem State.admissionRefused_le {a₀ : Kept} (s : State) (l : Nat) (ha : a₀.le s.kept) :
    a₀.le (State.admissionRefused s l).kept := by
  unfold State.admissionRefused
  repeat' first
    | with_reducible exact ha
    | with_reducible assumption
    | with_reducible apply State.borderDown_le
    | with_reducible apply State.fencePeer_le
    | with_reducible apply State.spdm_le
    | intro _
    | split
    | simp only [State.kept_mk, State.kept_mkPool, State.kept_mkBoot, State.kept_mkMram, State.modPeer_kept]
    | with_reducible apply foldl_le
    | dsimp only

theorem State.spdm_le {a₀ : Kept} (s : State) (c : SpdmCh) (host : Nat → Option Nat → State → State) (border : Nat → State → State) (hhost : ∀ x0 x1 x2, a₀.le (x2 : State).kept → a₀.le (host x0 x1 x2).kept) (hborder : ∀ x0 x1, a₀.le (x1 : State).kept → a₀.le (border x0 x1).kept) (ha : a₀.le s.kept) :
    a₀.le (State.spdm s c host border).kept := by
  unfold State.spdm
  repeat' first
    | with_reducible exact ha
    | with_reducible assumption
    | with_reducible apply hhost
    | with_reducible apply hborder
    | intro _
    | split
    | simp only [State.kept_mk, State.kept_mkPool, State.kept_mkBoot, State.kept_mkMram, State.emit_kept, State.quarantine_kept]

theorem State.spdmBack_le {a₀ : Kept} (s : State) (l : Nat) (f : Nat → State → State) (hf : ∀ x0 x1, a₀.le (x1 : State).kept → a₀.le (f x0 x1).kept) (ha : a₀.le s.kept) :
    a₀.le (State.spdmBack s l f).kept := by
  unfold State.spdmBack
  repeat' first
    | with_reducible exact ha
    | with_reducible assumption
    | with_reducible apply hf
    | intro _
    | split
    | simp only [State.kept_mk, State.kept_mkPool, State.kept_mkBoot, State.kept_mkMram]

theorem State.answerPeer_le {a₀ : Kept} (s : State) (l : Nat) (stages : List Nat) (next : Nat) (ok : Bool) (r : Spdm) (ha : a₀.le s.kept) :
    a₀.le (State.answerPeer s l stages next ok r).kept := by
  unfold State.answerPeer
  repeat' first
    | with_reducible exact ha
    | with_reducible assumption
    | with_reducible apply State.admissionRefused_le
    | with_reducible apply State.spdm_le
    | intro _
    | split
    | simp only [State.kept_mk, State.kept_mkPool, State.kept_mkBoot, State.kept_mkMram, State.modPeer_kept, State.reply_kept]
    | dsimp only

theorem execGetVersion_le {a₀ : Kept} (c : SpdmCh) (s : State) (ha : a₀.le s.kept)
    (out : State) (h : execGetVersion c s = .next out) : a₀.le out.kept := by
  unfold execGetVersion at h
  simp only [Host.Outcome.next.injEq] at h
  subst h
  repeat' first
    | with_reducible exact ha
    | with_reducible assumption
    | with_reducible apply State.answerPeer_le
    | with_reducible apply State.spdm_le
    | intro _
    | split
    | simp only [State.kept_mk, State.kept_mkPool, State.kept_mkBoot, State.kept_mkMram, State.reply_kept]
    | dsimp only

theorem execGetCapabilities_le {a₀ : Kept} (c : SpdmCh) (caps : SpdmCaps) (s : State) (ha : a₀.le s.kept)
    (out : State) (h : execGetCapabilities c caps s = .next out) : a₀.le out.kept := by
  unfold execGetCapabilities at h
  simp only [Host.Outcome.next.injEq] at h
  subst h
  repeat' first
    | with_reducible exact ha
    | with_reducible assumption
    | with_reducible apply State.answerPeer_le
    | with_reducible apply State.spdm_le
    | intro _
    | split
    | simp only [State.kept_mk, State.kept_mkPool, State.kept_mkBoot, State.kept_mkMram, State.reply_kept]
    | dsimp only

theorem execNegotiateAlgorithms_le {a₀ : Kept} (c : SpdmCh) (a : SpdmAlgs) (s : State) (ha : a₀.le s.kept)
    (out : State) (h : execNegotiateAlgorithms c a s = .next out) : a₀.le out.kept := by
  unfold execNegotiateAlgorithms at h
  simp only [Host.Outcome.next.injEq] at h
  subst h
  repeat' first
    | with_reducible exact ha
    | with_reducible assumption
    | with_reducible apply State.answerPeer_le
    | with_reducible apply State.spdm_le
    | intro _
    | split
    | simp only [State.kept_mk, State.kept_mkPool, State.kept_mkBoot, State.kept_mkMram, State.complete_kept, State.reply_kept]
    | dsimp only

theorem execGetDigests_le {a₀ : Kept} (c : SpdmCh) (s : State) (ha : a₀.le s.kept)
    (out : State) (h : execGetDigests c s = .next out) : a₀.le out.kept := by
  unfold execGetDigests at h
  simp only [Host.Outcome.next.injEq] at h
  subst h
  repeat' first
    | with_reducible exact ha
    | with_reducible assumption
    | with_reducible apply State.answerPeer_le
    | with_reducible apply State.spdm_le
    | intro _
    | split
    | simp only [State.kept_mk, State.kept_mkPool, State.kept_mkBoot, State.kept_mkMram, State.reply_kept]
    | dsimp only

theorem execGetCertificate_le {a₀ : Kept} (c : SpdmCh) (slot off len : Nat) (s : State) (ha : a₀.le s.kept)
    (out : State) (h : execGetCertificate c slot off len s = .next out) : a₀.le out.kept := by
  unfold execGetCertificate at h
  simp only [Host.Outcome.next.injEq] at h
  subst h
  repeat' first
    | with_reducible exact ha
    | with_reducible assumption
    | with_reducible apply State.answerPeer_le
    | with_reducible apply State.spdm_le
    | intro _
    | split
    | simp only [State.kept_mk, State.kept_mkPool, State.kept_mkBoot, State.kept_mkMram, State.reply_kept, State.take_kept]
    | dsimp only

theorem execChallenge_le {a₀ : Kept} (c : SpdmCh) (slot sumType : Nat) (s : State) (ha : a₀.le s.kept)
    (out : State) (h : execChallenge c slot sumType s = .next out) : a₀.le out.kept := by
  unfold execChallenge at h
  simp only [Host.Outcome.next.injEq] at h
  subst h
  repeat' first
    | with_reducible exact ha
    | with_reducible assumption
    | with_reducible apply State.admissionRefused_le
    | with_reducible apply State.spdm_le
    | intro _
    | split
    | simp only [State.kept_mk, State.kept_mkPool, State.kept_mkBoot, State.kept_mkMram, State.reply_kept, State.signed_kept]
    | dsimp only

theorem execGetMeasurements_le {a₀ : Kept} (c : SpdmCh) (index : Nat) (withSig : Bool) (s : State) (ha : a₀.le s.kept)
    (out : State) (h : execGetMeasurements c index withSig s = .next out) : a₀.le out.kept := by
  unfold execGetMeasurements at h
  simp only [Host.Outcome.next.injEq] at h
  subst h
  repeat' first
    | with_reducible exact ha
    | with_reducible assumption
    | with_reducible apply State.admissionRefused_le
    | with_reducible apply State.spdm_le
    | intro _
    | split
    | simp only [State.kept_mk, State.kept_mkPool, State.kept_mkBoot, State.kept_mkMram, State.reply_kept, State.signed_kept]
    | dsimp only

theorem execKeyExchange_le {a₀ : Kept} (c : SpdmCh) (slot sumType : Nat) (p384 : Bool) (s : State) (ha : a₀.le s.kept)
    (out : State) (h : execKeyExchange c slot sumType p384 s = .next out) : a₀.le out.kept := by
  unfold execKeyExchange at h
  simp only [Host.Outcome.next.injEq] at h
  subst h
  repeat' first
    | with_reducible exact ha
    | with_reducible assumption
    | with_reducible apply State.answerPeer_le
    | with_reducible apply State.spdm_le
    | intro _
    | split
    | simp only [State.kept_mk, State.kept_mkPool, State.kept_mkBoot, State.kept_mkMram, State.draw_kept, State.modLink_kept, State.reply_kept]
    | dsimp only

theorem execFinish_le {a₀ : Kept} (c : SpdmCh) (session : Nat) (sigOk : Bool) (s : State) (ha : a₀.le s.kept)
    (out : State) (h : execFinish c session sigOk s = .next out) : a₀.le out.kept := by
  unfold execFinish at h
  simp only [Host.Outcome.next.injEq] at h
  subst h
  repeat' first
    | with_reducible exact ha
    | with_reducible assumption
    | with_reducible apply State.admissionRefused_le
    | with_reducible apply State.spdm_le
    | intro _
    | split
    | simp only [State.kept_mk, State.kept_mkPool, State.kept_mkBoot, State.kept_mkMram, State.admitPeer_kept, State.modLink_kept, State.reply_kept]
    | dsimp only

theorem execEndSession_le {a₀ : Kept} (c : SpdmCh) (s : State) (ha : a₀.le s.kept)
    (out : State) (h : execEndSession c s = .next out) : a₀.le out.kept := by
  unfold execEndSession at h
  simp only [Host.Outcome.next.injEq] at h
  subst h
  repeat' first
    | with_reducible exact ha
    | with_reducible assumption
    | with_reducible apply State.admissionRefused_le
    | with_reducible apply State.spdm_le
    | intro _
    | split
    | simp only [State.kept_mk, State.kept_mkPool, State.kept_mkBoot, State.kept_mkMram, State.modLink_kept, State.modPeer_kept, State.reply_kept]
    | dsimp only

theorem execGetEncapsulatedRequest_le {a₀ : Kept} (c : SpdmCh) (s : State) (ha : a₀.le s.kept)
    (out : State) (h : execGetEncapsulatedRequest c s = .next out) : a₀.le out.kept := by
  unfold execGetEncapsulatedRequest at h
  simp only [Host.Outcome.next.injEq] at h
  subst h
  repeat' first
    | with_reducible exact ha
    | with_reducible assumption
    | with_reducible apply State.answerPeer_le
    | with_reducible apply State.spdm_le
    | intro _
    | split
    | simp only [State.kept_mk, State.kept_mkPool, State.kept_mkBoot, State.kept_mkMram, State.reply_kept]
    | dsimp only

theorem execDeliverEncapsulatedResponse_le {a₀ : Kept} (c : SpdmCh) (r : EncapResponse) (s : State) (ha : a₀.le s.kept)
    (out : State) (h : execDeliverEncapsulatedResponse c r s = .next out) : a₀.le out.kept := by
  unfold execDeliverEncapsulatedResponse at h
  simp only [Host.Outcome.next.injEq] at h
  subst h
  repeat' first
    | with_reducible exact ha
    | with_reducible assumption
    | with_reducible apply State.admissionRefused_le
    | with_reducible apply State.answerPeer_le
    | with_reducible apply State.spdm_le
    | intro _
    | split
    | simp only [State.kept_mk, State.kept_mkPool, State.kept_mkBoot, State.kept_mkMram, State.modPeer_kept, State.reply_kept]
    | dsimp only

theorem execSpdmUnsupportedRequest_le {a₀ : Kept} (c : SpdmCh) (kind : SpdmBad) (s : State) (ha : a₀.le s.kept)
    (out : State) (h : execSpdmUnsupportedRequest c kind s = .next out) : a₀.le out.kept := by
  unfold execSpdmUnsupportedRequest at h
  simp only [Host.Outcome.next.injEq] at h
  subst h
  repeat' first
    | with_reducible exact ha
    | with_reducible assumption
    | with_reducible apply State.admissionRefused_le
    | with_reducible apply State.spdm_le
    | intro _
    | split
    | simp only [State.kept_mk, State.kept_mkPool, State.kept_mkBoot, State.kept_mkMram, State.reply_kept]
    | dsimp only

theorem execPeerSpdmResponse_le {a₀ : Kept} (link : Nat) (r : PeerResponse) (s : State) (ha : a₀.le s.kept)
    (out : State) (h : execPeerSpdmResponse link r s = .next out) : a₀.le out.kept := by
  unfold execPeerSpdmResponse at h
  simp only [Host.Outcome.next.injEq] at h
  subst h
  repeat' first
    | with_reducible exact ha
    | with_reducible assumption
    | with_reducible apply State.admissionRefused_le
    | with_reducible apply State.spdm_le
    | with_reducible apply State.spdmBack_le
    | intro _
    | split
    | simp only [State.kept_mk, State.kept_mkPool, State.kept_mkBoot, State.kept_mkMram, State.askNext_kept, State.modPeer_kept]
    | dsimp only

theorem execFinishRsp_le {a₀ : Kept} (link : Nat) (s : State) (ha : a₀.le s.kept)
    (out : State) (h : execFinishRsp link s = .next out) : a₀.le out.kept := by
  unfold execFinishRsp at h
  simp only [Host.Outcome.next.injEq] at h
  subst h
  repeat' first
    | with_reducible exact ha
    | with_reducible assumption
    | with_reducible apply State.admissionRefused_le
    | with_reducible apply State.spdm_le
    | with_reducible apply State.spdmBack_le
    | intro _
    | split
    | simp only [State.kept_mk, State.kept_mkPool, State.kept_mkBoot, State.kept_mkMram, State.admitPeer_kept]
    | dsimp only

theorem State.inSpdm_le {a₀ : Kept} (s : State) (c : SpdmCh) (out : Spdm) (f : Nat → State → State) (hf : ∀ x0 x1, a₀.le (x1 : State).kept → a₀.le (f x0 x1).kept) (ha : a₀.le s.kept) :
    a₀.le (State.inSpdm s c out f).kept := by
  unfold State.inSpdm
  repeat' first
    | with_reducible exact ha
    | with_reducible assumption
    | with_reducible apply hf
    | with_reducible apply State.admissionRefused_le
    | with_reducible apply State.spdm_le
    | intro _
    | split
    | simp only [State.kept_mk, State.kept_mkPool, State.kept_mkBoot, State.kept_mkMram, State.reply_kept]
    | dsimp only

theorem execIdeKmQuery_le {a₀ : Kept} (c : SpdmCh) (s : State) (ha : a₀.le s.kept)
    (out : State) (h : execIdeKmQuery c s = .next out) : a₀.le out.kept := by
  unfold execIdeKmQuery at h
  simp only [Host.Outcome.next.injEq] at h
  subst h
  repeat' first
    | with_reducible exact ha
    | with_reducible assumption
    | with_reducible apply State.inSpdm_le
    | intro _
    | split
    | simp only [State.kept_mk, State.kept_mkPool, State.kept_mkBoot, State.kept_mkMram, State.reply_kept]
    | dsimp only

theorem execIdeKmKeyProg_le {a₀ : Kept} (c : SpdmCh) (stream : Nat) (slot : IdeSlot) (mode : IdeMode) (key : Key) (s : State) (ha : a₀.le s.kept)
    (out : State) (h : execIdeKmKeyProg c stream slot mode key s = .next out) : a₀.le out.kept := by
  unfold execIdeKmKeyProg at h
  simp only [Host.Outcome.next.injEq] at h
  subst h
  repeat' first
    | with_reducible exact ha
    | with_reducible assumption
    | with_reducible apply State.inSpdm_le
    | intro _
    | split
    | simp only [State.kept_mk, State.kept_mkPool, State.kept_mkBoot, State.kept_mkMram, State.modStream_kept, State.reply_kept]
    | dsimp only

theorem execIdeKmKSetGo_le {a₀ : Kept} (c : SpdmCh) (stream keySet : Nat) (s : State) (ha : a₀.le s.kept)
    (out : State) (h : execIdeKmKSetGo c stream keySet s = .next out) : a₀.le out.kept := by
  unfold execIdeKmKSetGo at h
  simp only [Host.Outcome.next.injEq] at h
  subst h
  repeat' first
    | with_reducible exact ha
    | with_reducible assumption
    | with_reducible apply State.inSpdm_le
    | intro _
    | split
    | simp only [State.kept_mk, State.kept_mkPool, State.kept_mkBoot, State.kept_mkMram, State.modStream_kept, State.reply_kept]
    | dsimp only

theorem execIdeKmKSetStop_le {a₀ : Kept} (c : SpdmCh) (stream keySet : Nat) (s : State) (ha : a₀.le s.kept)
    (out : State) (h : execIdeKmKSetStop c stream keySet s = .next out) : a₀.le out.kept := by
  unfold execIdeKmKSetStop at h
  simp only [Host.Outcome.next.injEq] at h
  subst h
  repeat' first
    | with_reducible exact ha
    | with_reducible assumption
    | with_reducible apply State.inSpdm_le
    | intro _
    | split
    | simp only [State.kept_mk, State.kept_mkPool, State.kept_mkBoot, State.kept_mkMram, State.modStream_kept, State.reply_kept]
    | dsimp only

theorem State.tdisp_le {a₀ : Kept} (s : State) (c : SpdmCh) (vf : Nat) (f : Nat → Nat → State → State) (hf : ∀ x0 x1 x2, a₀.le (x2 : State).kept → a₀.le (f x0 x1 x2).kept) (ha : a₀.le s.kept) :
    a₀.le (State.tdisp s c vf f).kept := by
  unfold State.tdisp
  repeat' first
    | with_reducible exact ha
    | with_reducible assumption
    | with_reducible apply hf
    | with_reducible apply State.inSpdm_le
    | intro _
    | split
    | simp only [State.kept_mk, State.kept_mkPool, State.kept_mkBoot, State.kept_mkMram, State.reply_kept]
    | dsimp only

theorem execGetTdispVersion_le {a₀ : Kept} (c : SpdmCh) (vf : Nat) (s : State) (ha : a₀.le s.kept)
    (out : State) (h : execGetTdispVersion c vf s = .next out) : a₀.le out.kept := by
  unfold execGetTdispVersion at h
  simp only [Host.Outcome.next.injEq] at h
  subst h
  repeat' first
    | with_reducible exact ha
    | with_reducible assumption
    | with_reducible apply State.tdisp_le
    | intro _
    | split
    | simp only [State.kept_mk, State.kept_mkPool, State.kept_mkBoot, State.kept_mkMram, State.reply_kept]
    | dsimp only

theorem execGetTdispCapabilities_le {a₀ : Kept} (c : SpdmCh) (vf : Nat) (s : State) (ha : a₀.le s.kept)
    (out : State) (h : execGetTdispCapabilities c vf s = .next out) : a₀.le out.kept := by
  unfold execGetTdispCapabilities at h
  simp only [Host.Outcome.next.injEq] at h
  subst h
  repeat' first
    | with_reducible exact ha
    | with_reducible assumption
    | with_reducible apply State.tdisp_le
    | intro _
    | split
    | simp only [State.kept_mk, State.kept_mkPool, State.kept_mkBoot, State.kept_mkMram, State.reply_kept]
    | dsimp only

theorem execLockInterfaceRequest_le {a₀ : Kept} (c : SpdmCh) (vf : Nat) (s : State) (ha : a₀.le s.kept)
    (out : State) (h : execLockInterfaceRequest c vf s = .next out) : a₀.le out.kept := by
  unfold execLockInterfaceRequest at h
  simp only [Host.Outcome.next.injEq] at h
  subst h
  repeat' first
    | with_reducible exact ha
    | with_reducible assumption
    | with_reducible apply State.tdisp_le
    | intro _
    | split
    | simp only [State.kept_mk, State.kept_mkPool, State.kept_mkBoot, State.kept_mkMram, State.draw_kept, State.modGlove_kept, State.reply_kept]
    | dsimp only

theorem execGetDeviceInterfaceReport_le {a₀ : Kept} (c : SpdmCh) (vf : Nat) (s : State) (ha : a₀.le s.kept)
    (out : State) (h : execGetDeviceInterfaceReport c vf s = .next out) : a₀.le out.kept := by
  unfold execGetDeviceInterfaceReport at h
  simp only [Host.Outcome.next.injEq] at h
  subst h
  repeat' first
    | with_reducible exact ha
    | with_reducible assumption
    | with_reducible apply State.tdisp_le
    | intro _
    | split
    | simp only [State.kept_mk, State.kept_mkPool, State.kept_mkBoot, State.kept_mkMram, State.reply_kept]
    | dsimp only

theorem execGetDeviceInterfaceState_le {a₀ : Kept} (c : SpdmCh) (vf : Nat) (s : State) (ha : a₀.le s.kept)
    (out : State) (h : execGetDeviceInterfaceState c vf s = .next out) : a₀.le out.kept := by
  unfold execGetDeviceInterfaceState at h
  simp only [Host.Outcome.next.injEq] at h
  subst h
  repeat' first
    | with_reducible exact ha
    | with_reducible assumption
    | with_reducible apply State.tdisp_le
    | intro _
    | split
    | simp only [State.kept_mk, State.kept_mkPool, State.kept_mkBoot, State.kept_mkMram, State.reply_kept]
    | dsimp only

theorem execStartInterfaceRequest_le {a₀ : Kept} (c : SpdmCh) (vf : Nat) (nonce : BitVec 256) (s : State) (ha : a₀.le s.kept)
    (out : State) (h : execStartInterfaceRequest c vf nonce s = .next out) : a₀.le out.kept := by
  unfold execStartInterfaceRequest at h
  simp only [Host.Outcome.next.injEq] at h
  subst h
  repeat' first
    | with_reducible exact ha
    | with_reducible assumption
    | with_reducible apply State.tdisp_le
    | intro _
    | split
    | simp only [State.kept_mk, State.kept_mkPool, State.kept_mkBoot, State.kept_mkMram, State.modGlove_kept, State.reply_kept]
    | dsimp only

theorem execStopInterfaceRequest_le {a₀ : Kept} (c : SpdmCh) (vf : Nat) (s : State) (ha : a₀.le s.kept)
    (out : State) (h : execStopInterfaceRequest c vf s = .next out) : a₀.le out.kept := by
  unfold execStopInterfaceRequest at h
  simp only [Host.Outcome.next.injEq] at h
  subst h
  repeat' first
    | with_reducible exact ha
    | with_reducible assumption
    | with_reducible apply State.tdisp_le
    | intro _
    | split
    | simp only [State.kept_mk, State.kept_mkPool, State.kept_mkBoot, State.kept_mkMram, State.modGlove_kept, State.reply_kept]
    | dsimp only

theorem State.tdispUnsupported_le {a₀ : Kept} (s : State) (c : SpdmCh) (ha : a₀.le s.kept) :
    a₀.le (State.tdispUnsupported s c).kept := by
  unfold State.tdispUnsupported
  repeat' first
    | with_reducible exact ha
    | with_reducible assumption
    | with_reducible apply State.inSpdm_le
    | intro _
    | split
    | simp only [State.kept_mk, State.kept_mkPool, State.kept_mkBoot, State.kept_mkMram, State.reply_kept]
    | dsimp only

theorem execBindP2pStreamRequest_le {a₀ : Kept} (c : SpdmCh) (_vf : Nat) (s : State) (ha : a₀.le s.kept)
    (out : State) (h : execBindP2pStreamRequest c _vf s = .next out) : a₀.le out.kept := by
  unfold execBindP2pStreamRequest at h
  simp only [Host.Outcome.next.injEq] at h
  subst h
  repeat' first
    | with_reducible exact ha
    | with_reducible assumption
    | with_reducible apply State.tdispUnsupported_le
    | intro _
    | split
    | simp only [State.kept_mk, State.kept_mkPool, State.kept_mkBoot, State.kept_mkMram]

theorem execUnbindP2pStreamRequest_le {a₀ : Kept} (c : SpdmCh) (_vf : Nat) (s : State) (ha : a₀.le s.kept)
    (out : State) (h : execUnbindP2pStreamRequest c _vf s = .next out) : a₀.le out.kept := by
  unfold execUnbindP2pStreamRequest at h
  simp only [Host.Outcome.next.injEq] at h
  subst h
  repeat' first
    | with_reducible exact ha
    | with_reducible assumption
    | with_reducible apply State.tdispUnsupported_le
    | intro _
    | split
    | simp only [State.kept_mk, State.kept_mkPool, State.kept_mkBoot, State.kept_mkMram]

theorem execSetMmioAttributeRequest_le {a₀ : Kept} (c : SpdmCh) (_vf : Nat) (s : State) (ha : a₀.le s.kept)
    (out : State) (h : execSetMmioAttributeRequest c _vf s = .next out) : a₀.le out.kept := by
  unfold execSetMmioAttributeRequest at h
  simp only [Host.Outcome.next.injEq] at h
  subst h
  repeat' first
    | with_reducible exact ha
    | with_reducible assumption
    | with_reducible apply State.tdispUnsupported_le
    | intro _
    | split
    | simp only [State.kept_mk, State.kept_mkPool, State.kept_mkBoot, State.kept_mkMram]

theorem State.keyRequest_le {a₀ : Kept} (s : State) (c : SpdmCh) (g : Nat) (out : Nat → Spdm) (f : Nat → Nat → State → State) (hf : ∀ x0 x1 x2, a₀.le (x2 : State).kept → a₀.le (f x0 x1 x2).kept) (ha : a₀.le s.kept) :
    a₀.le (State.keyRequest s c g out f).kept := by
  unfold State.keyRequest
  repeat' first
    | with_reducible exact ha
    | with_reducible assumption
    | with_reducible apply hf
    | with_reducible apply State.admissionRefused_le
    | with_reducible apply State.spdm_le
    | intro _
    | split
    | simp only [State.kept_mk, State.kept_mkPool, State.kept_mkBoot, State.kept_mkMram, State.reply_kept]
    | dsimp only

theorem execGloveKeyShare_le {a₀ : Kept} (c : SpdmCh) (glove : Nat) (s : State) (ha : a₀.le s.kept)
    (out : State) (h : execGloveKeyShare c glove s = .next out) : a₀.le out.kept := by
  unfold execGloveKeyShare at h
  simp only [Host.Outcome.next.injEq] at h
  subst h
  repeat' first
    | with_reducible exact ha
    | with_reducible assumption
    | with_reducible apply State.keyRequest_le
    | intro _
    | split
    | simp only [State.kept_mk, State.kept_mkPool, State.kept_mkBoot, State.kept_mkMram, State.draw_kept, State.reply_kept]
    | dsimp only

theorem execGloveKeyInstall_le {a₀ : Kept} (c : SpdmCh) (glove shareId : Nat) (point : BitVec 768) (wrapped : Key) (gcmTag : BitVec 128) (s : State) (ha : a₀.le s.kept)
    (out : State) (h : execGloveKeyInstall c glove shareId point wrapped gcmTag s = .next out) : a₀.le out.kept := by
  unfold execGloveKeyInstall at h
  simp only [Host.Outcome.next.injEq] at h
  subst h
  repeat' first
    | with_reducible exact ha
    | with_reducible assumption
    | with_reducible apply State.keyRequest_le
    | intro _
    | split
    | simp only [State.kept_mk, State.kept_mkPool, State.kept_mkBoot, State.kept_mkMram, State.modGlove_kept, State.modSlot_kept, State.reply_kept]
    | dsimp only

theorem State.atUnit_le {a₀ : Kept} (s : State) (p : Packet) (ha : a₀.le s.kept) :
    a₀.le (State.atUnit s p).kept := by
  unfold State.atUnit
  repeat' first
    | with_reducible exact ha
    | with_reducible assumption
    | with_reducible apply State.enterGate_le
    | with_reducible apply State.unpark_le
    | intro _
    | split
    | simp only [State.kept_mk, State.kept_mkPool, State.kept_mkBoot, State.kept_mkMram, State.answer_kept, State.borderOut_kept, State.cuffRequest_kept, State.missAt_kept, State.tableServed_kept]
    | dsimp only

theorem State.memPacket_le {a₀ : Kept} (s : State) (o : POp) (p : Packet) (ha : a₀.le s.kept) :
    a₀.le (State.memPacket s o p).kept := by
  unfold State.memPacket
  repeat' first
    | with_reducible exact ha
    | with_reducible assumption
    | with_reducible apply State.arrive_le
    | with_reducible apply State.atUnit_le
    | intro _
    | split
    | simp only [State.kept_mk, State.kept_mkPool, State.kept_mkBoot, State.kept_mkMram, State.fenceFails_kept]
    | dsimp only

theorem execMemRd_le {a₀ : Kept} (p : Packet) (s : State) (ha : a₀.le s.kept)
    (out : State) (h : execMemRd p s = .next out) : a₀.le out.kept := by
  unfold execMemRd at h
  simp only [Host.Outcome.next.injEq] at h
  subst h
  repeat' first
    | with_reducible exact ha
    | with_reducible assumption
    | with_reducible apply State.memPacket_le
    | intro _
    | split
    | simp only [State.kept_mk, State.kept_mkPool, State.kept_mkBoot, State.kept_mkMram]

theorem execMemWr_le {a₀ : Kept} (p : Packet) (s : State) (ha : a₀.le s.kept)
    (out : State) (h : execMemWr p s = .next out) : a₀.le out.kept := by
  unfold execMemWr at h
  simp only [Host.Outcome.next.injEq] at h
  subst h
  repeat' first
    | with_reducible exact ha
    | with_reducible assumption
    | with_reducible apply State.memPacket_le
    | intro _
    | split
    | simp only [State.kept_mk, State.kept_mkPool, State.kept_mkBoot, State.kept_mkMram]

theorem execMemRdLock_le {a₀ : Kept} (p : Packet) (s : State) (ha : a₀.le s.kept)
    (out : State) (h : execMemRdLock p s = .next out) : a₀.le out.kept := by
  unfold execMemRdLock at h
  simp only [Host.Outcome.next.injEq] at h
  subst h
  repeat' first
    | with_reducible exact ha
    | with_reducible assumption
    | with_reducible apply State.memPacket_le
    | intro _
    | split
    | simp only [State.kept_mk, State.kept_mkPool, State.kept_mkBoot, State.kept_mkMram]

theorem execMemWrUnlock_le {a₀ : Kept} (p : Packet) (s : State) (ha : a₀.le s.kept)
    (out : State) (h : execMemWrUnlock p s = .next out) : a₀.le out.kept := by
  unfold execMemWrUnlock at h
  simp only [Host.Outcome.next.injEq] at h
  subst h
  repeat' first
    | with_reducible exact ha
    | with_reducible assumption
    | with_reducible apply State.memPacket_le
    | intro _
    | split
    | simp only [State.kept_mk, State.kept_mkPool, State.kept_mkBoot, State.kept_mkMram]

theorem execUnlock_le {a₀ : Kept} (p : Packet) (s : State) (ha : a₀.le s.kept)
    (out : State) (h : execUnlock p s = .next out) : a₀.le out.kept := by
  unfold execUnlock at h
  simp only [Host.Outcome.next.injEq] at h
  subst h
  repeat' first
    | with_reducible exact ha
    | with_reducible assumption
    | with_reducible apply State.memPacket_le
    | intro _
    | split
    | simp only [State.kept_mk, State.kept_mkPool, State.kept_mkBoot, State.kept_mkMram]

theorem State.settle_le {a₀ : Kept} (s : State) (r : Req) (whole : Bool) (ha : a₀.le s.kept) :
    a₀.le (State.settle s r whole).kept := by
  unfold State.settle
  repeat' first
    | with_reducible exact ha
    | with_reducible assumption
    | with_reducible apply State.hostWritten_le
    | with_reducible apply State.pumpHeld_le
    | intro _
    | split
    | simp only [State.kept_mk, State.kept_mkPool, State.kept_mkBoot, State.kept_mkMram, State.atomicData_kept, State.atomicDone_kept, State.crownWritten_kept, State.discardData_kept, State.fetched_kept, State.fgFetched_kept, State.fgPolled_kept, State.fgRead_kept, State.fgWritten_kept, State.flagAcked_kept, State.headAcked_kept, State.hostReadDone_kept, State.peerFailed_kept, State.qFault_kept, State.resultAcked_kept, State.tableBack_kept, State.unitReadDone_kept, State.zlDone_kept]
    | dsimp only

theorem State.ended_le {a₀ : Kept} (s : State) (r : Req) (whole : Bool) (ha : a₀.le s.kept) :
    a₀.le (State.ended s r whole).kept := by
  unfold State.ended
  repeat' first
    | with_reducible exact ha
    | with_reducible assumption
    | with_reducible apply State.settle_le
    | intro _
    | split
    | simp only [State.kept_mk, State.kept_mkPool, State.kept_mkBoot, State.kept_mkMram, State.endReq_kept, State.rulesRead_kept, State.setReq_kept]

theorem execCplD_le {a₀ : Kept} (p : Packet) (s : State) (ha : a₀.le s.kept)
    (out : State) (h : execCplD p s = .next out) : a₀.le out.kept := by
  unfold execCplD at h
  simp only [Host.Outcome.next.injEq] at h
  subst h
  repeat' first
    | with_reducible exact ha
    | with_reducible assumption
    | with_reducible apply State.arrive_le
    | with_reducible apply State.atInitiator_le
    | with_reducible apply State.ended_le
    | intro _
    | split
    | simp only [State.kept_mk, State.kept_mkPool, State.kept_mkBoot, State.kept_mkMram, State.borderBack_kept, State.countRead_kept, State.countResponse_kept, State.endReq_kept, State.setReq_kept]
    | dsimp only

theorem State.endedBy_le {a₀ : Kept} (s : State) (r : Req) (p : Packet) (ha : a₀.le s.kept) :
    a₀.le (State.endedBy s r p).kept := by
  unfold State.endedBy
  repeat' first
    | with_reducible exact ha
    | with_reducible assumption
    | with_reducible apply State.ended_le
    | intro _
    | split
    | simp only [State.kept_mk, State.kept_mkPool, State.kept_mkBoot, State.kept_mkMram, State.borderBack_kept, State.countResponse_kept, State.endReq_kept]
    | dsimp only

theorem execCpl_le {a₀ : Kept} (p : Packet) (s : State) (ha : a₀.le s.kept)
    (out : State) (h : execCpl p s = .next out) : a₀.le out.kept := by
  unfold execCpl at h
  simp only [Host.Outcome.next.injEq] at h
  subst h
  repeat' first
    | with_reducible exact ha
    | with_reducible assumption
    | with_reducible apply State.arrive_le
    | with_reducible apply State.atInitiator_le
    | with_reducible apply State.endedBy_le
    | intro _
    | split
    | simp only [State.kept_mk, State.kept_mkPool, State.kept_mkBoot, State.kept_mkMram]
    | dsimp only

theorem execAck_le {a₀ : Kept} (p : Packet) (s : State) (ha : a₀.le s.kept)
    (out : State) (h : execAck p s = .next out) : a₀.le out.kept := by
  unfold execAck at h
  simp only [Host.Outcome.next.injEq] at h
  subst h
  repeat' first
    | with_reducible exact ha
    | with_reducible assumption
    | with_reducible apply State.arrive_le
    | with_reducible apply State.atInitiator_le
    | with_reducible apply State.endedBy_le
    | intro _
    | split
    | simp only [State.kept_mk, State.kept_mkPool, State.kept_mkBoot, State.kept_mkMram]
    | dsimp only

theorem execWeaveTimeout_le {a₀ : Kept} (unit tag : Nat) (s : State) (ha : a₀.le s.kept)
    (out : State) (h : execWeaveTimeout unit tag s = .next out) : a₀.le out.kept := by
  unfold execWeaveTimeout at h
  simp only [Host.Outcome.next.injEq] at h
  subst h
  repeat' first
    | with_reducible exact ha
    | with_reducible assumption
    | with_reducible apply State.ended_le
    | intro _
    | split
    | simp only [State.kept_mk, State.kept_mkPool, State.kept_mkBoot, State.kept_mkMram, State.borderBack_kept, State.contained_kept, State.countStat_kept, State.endReq_kept]
    | dsimp only

end Sys2Proof.Machine
end

