-- ==== Sys2Proof/Laws/Nodes.lean ====
section
/-! SUPPORT. What the counter caches of the HBM gates answer: a node just put is held, a held node is brought without any fetch, and the
MAC of a child written into a held node only makes that node dirty; and when a DDR gate may send a node request. -/

namespace Sys2Proof.Machine

/-- A key just written is in the table. -/
theorem Tbl.has_set {α : Type} (t : Tbl α) (k : Nat) (v : α) : (Tbl.set t k v).has k = true := by
  induction t with
  | nil => simp [Tbl.set, Tbl.has]
  | cons e r ih =>
    obtain ⟨a, w⟩ := e
    unfold Tbl.set
    split
    · simp [Tbl.has]
    · split
      · simp [Tbl.has]
      · simp only [Tbl.has] at ih ⊢
        simp [ih]

/-- A node just put into its owner's counter cache is held there. -/
@[simp] theorem State.hcHeld_hcPut (s : State) (b : Bool) (l i : Nat) (d : Line) (m : Bool) : (s.hcPut b l i d m).hcHeld b l i = some d := by
  have h : ∀ x, State.hgate { s with pool.hgates := s.pool.hgates.mod {} (hgateOf (s.keyAddr b l i).1 (s.keyAddr b l i).2) x }
      (hgateOf (s.keyAddr b l i).1 (s.keyAddr b l i).2) = x (s.hgate (hgateOf (s.keyAddr b l i).1 (s.keyAddr b l i).2)) :=
    fun x => Tbl.get_mod_same ..
  have e : (s.hcPut b l i d m).keyAddr b l i = s.keyAddr b l i := rfl
  unfold State.hcHeld
  rw [e]
  unfold State.hcPut
  simp only [h, Tbl.has_set, Tbl.get_set_same, if_true]

@[simp] theorem State.hcHeld_take (s : State) (p : Packet) (b : Bool) (l i : Nat) : (s.take p).hcHeld b l i = s.hcHeld b l i := rfl

/-- A held node is brought as it is held. -/
theorem State.bring_held {s : State} {b : Bool} {l i : Nat} {d : Line} (n : Nat) (ht : l ≠ s.treeTop b)
    (hh : s.hcHeld b l i = some d) : s.bring b (n + 1) l i = (.inl d, s) := by
  simp [State.bring, ht, hh]

/-- A held node takes a child's MAC in the cache alone. -/
theorem State.updateMac_held {s : State} {b : Bool} {l i : Nat} {d : Line} (c : Nat) (m : BitVec 64) (ht : l ≠ s.treeTop b)
    (hh : s.hcHeld b l i = some d) : s.updateMac b l i c m = (none, s.hcPut b l i (putMac d c m) true) := by
  simp [State.updateMac, State.bring_held 7 ht hh, ht]

/-- With fewer than `mqMax` requests out, a node request may be sent to any gate (R135). -/
theorem State.mqRoom_of_few {s : State} (g u : Nat) (h : s.net.outst.length < mqMax) : s.mqRoom g u = true :=
  decide_eq_true (Nat.lt_of_le_of_lt (List.length_filter_le ..) h)

end Sys2Proof.Machine
end

