-- ==== Sys2Proof/Laws/Work.lean ====
section
/-! SUPPORT. What completing, refusing and taking up a command does to queues and Fingers. -/

namespace Sys2Proof.Machine

@[simp] theorem State.undispatch_queue (s : State) (i : Instr) (q : QId) : (s.undispatch i).queue q = s.queue q := rfl
@[simp] theorem State.undispatch_finger (s : State) (i : Instr) (f : FgId) : (s.undispatch i).finger f = s.finger f := rfl
@[simp] theorem State.undispatch_workQueues (s : State) (i : Instr) (n : Nat) : (s.undispatch i).workQueues n = s.workQueues n := rfl
@[simp] theorem State.undispatch_range (s : State) (i : Instr) (l : Nat) : (s.undispatch i).range l = s.range l := rfl
@[simp] theorem State.undispatch_gloveOf (s : State) (i : Instr) (f : FnId) : (s.undispatch i).gloveOf f = s.gloveOf f := rfl
@[simp] theorem State.undispatch_serves (s : State) (i : Instr) : (s.undispatch i).serves = s.serves := rfl
@[simp] theorem State.undispatch_qGlove (s : State) (i : Instr) (q : QId) : (s.undispatch i).qGlove q = s.qGlove q := rfl
@[simp] theorem State.undispatch_blankGlove (s : State) (i : Instr) (g : Nat) : (s.undispatch i).blankGlove g = s.blankGlove g := rfl
@[simp] theorem State.modQueue_qGlove (s : State) (q : QId) (m : Queue → Queue) (j : QId) : (s.modQueue q m).qGlove j = s.qGlove j := rfl
@[simp] theorem State.modQueue_crownWork (s : State) (q : QId) (m : Queue → Queue) : (s.modQueue q m).work.crownWork = s.work.crownWork := rfl
@[simp] theorem State.complete_crownWork (s : State) (o : Origin) (c r : Nat) : (s.complete o c r).work.crownWork = s.work.crownWork := by
  unfold State.complete; split <;> rfl
@[simp] theorem State.refuse_crownWork (s : State) (o : Origin) (c : Nat) : (s.refuse o c).work.crownWork = s.work.crownWork :=
  State.complete_crownWork ..

@[simp] theorem State.complete_finger (s : State) (o : Origin) (code result : Nat) (f : FgId) :
    (s.complete o code result).finger f = s.finger f := by
  unfold State.complete; split <;> rfl

theorem State.complete_queue_ne (s : State) (o : Origin) (code result : Nat) {q : QId} (h : q.key ≠ o.q.key) :
    (s.complete o code result).queue q = s.queue q := by
  unfold State.complete; split
  · exact State.modQueue_ne _ _ _ h
  · rfl

/-- A completed entry: its code and result, and no other entry, field or queue. -/
theorem State.complete_queue (s : State) (o : Origin) (code result : Nat) (h : (s.queue o.q).enable = true) :
    (s.complete o code result).queue o.q = { s.queue o.q with entries := (s.queue o.q).entries.map (fun e =>
      if e.idx == o.idx && e.started && e.done.isNone then { e with done := some (code, result) } else e) } := by
  simp [State.complete, h]

@[simp] theorem State.refuse_finger (s : State) (o : Origin) (code : Nat) (f : FgId) : (s.refuse o code).finger f = s.finger f := by
  simp only [State.refuse, State.complete_finger]; rfl

theorem State.refuse_queue_ne (s : State) (o : Origin) (code : Nat) {q : QId} (h : q.key ≠ o.q.key) :
    (s.refuse o code).queue q = s.queue q := by
  rw [State.refuse, State.complete_queue_ne _ _ _ _ h]; rfl

/-- What the completion of a command leaves of a queue depends on the queue alone. -/
theorem State.complete_congr {s t : State} (o : Origin) (code result : Nat) (h : t.queue o.q = s.queue o.q) :
    (t.complete o code result).queue o.q = (s.complete o code result).queue o.q := by
  simp only [State.complete, h]; split <;> simp [h]

/-- A completion on a state with the same queues. -/
theorem State.completes (s u : State) (o : Origin) (code result : Nat) (h : ∀ q, u.queue q = s.queue q) :
    Completes s (u.complete o code result) o code result :=
  ⟨State.complete_congr _ _ _ (h _), fun q hq => by rw [State.complete_queue_ne _ _ _ _ hq, h]⟩

/-- A control command of a VF whose glove is open, or being opened, runs on the state with the command taken up. -/
theorem State.controlCmd_vf (s : State) (i : Instr) (o : Origin) (f : State → State) (hs : s.serves = true)
    (he : s.fnExists o.q.fnId = true) (hf : o.q.fn ≠ 0) (hg : (s.glove (s.gloveOf o.q.fnId)).state = .opened) :
    s.controlCmd i o f = f (s.undispatch i) := by
  simp [State.controlCmd, hs, he, State.qGlove, hf, State.blankGlove, hg]

/-- With no waiter nothing wakes. -/
theorem State.eventWake_nil (s : State) (fn : FnId) (n : Nat) (h : (s.fn fn).waiters = []) : s.eventWake fn n = s := by
  cases n with
  | zero => rfl
  | succ n => simp [State.eventWake, h]

end Sys2Proof.Machine
end

