-- ==== Sys2Proof/Laws/Weave.lean ====
section
/-! SUPPORT. What injecting a packet, issuing a request and reporting leave in the Weave: the requests outstanding, the reports, the
violations and the events on their way. -/

namespace Sys2Proof.Machine

/-! A transfer to the local input of a knot moves flit pairs alone. -/

@[simp] theorem State.pumpLocal_outst (s : State) (knot vc : Nat) : (s.pumpLocal knot vc).net.outst = s.net.outst :=
  foldl_same (fun s => s.net.outst) _ _ _ (fun s x => by first | rfl | ((repeat' split) <;> rfl))
@[simp] theorem State.pumpLocal_reports (s : State) (knot vc : Nat) : (s.pumpLocal knot vc).net.reports = s.net.reports :=
  foldl_same (fun s => s.net.reports) _ _ _ (fun s x => by first | rfl | ((repeat' split) <;> rfl))
@[simp] theorem State.pumpLocal_violations (s : State) (knot vc : Nat) : (s.pumpLocal knot vc).net.violations = s.net.violations :=
  foldl_same (fun s => s.net.violations) _ _ _ (fun s x => by first | rfl | ((repeat' split) <;> rfl))
@[simp] theorem State.pumpLocal_events (s : State) (knot vc : Nat) : (s.pumpLocal knot vc).net.events = s.net.events :=
  foldl_same (fun s => s.net.events) _ _ _ (fun s x => by first | rfl | ((repeat' split) <;> rfl))
@[simp] theorem State.pumpLocal_msgReqs (s : State) (knot vc : Nat) : (s.pumpLocal knot vc).net.msgReqs = s.net.msgReqs :=
  foldl_same (fun s => s.net.msgReqs) _ _ _ (fun s x => by first | rfl | ((repeat' split) <;> rfl))
@[simp] theorem State.pumpLocal_pkts (s : State) (knot vc : Nat) : (s.pumpLocal knot vc).net.pkts = s.net.pkts :=
  foldl_same (fun s => s.net.pkts) _ _ _ (fun s x => by first | rfl | ((repeat' split) <;> rfl))
@[simp] theorem State.pumpLocal_nextPkt (s : State) (knot vc : Nat) : (s.pumpLocal knot vc).net.nextPkt = s.net.nextPkt :=
  foldl_same (fun s => s.net.nextPkt) _ _ _ (fun s x => by first | rfl | ((repeat' split) <;> rfl))
@[simp] theorem State.pumpLocal_quads (s : State) (knot vc : Nat) : (s.pumpLocal knot vc).net.quads = s.net.quads :=
  foldl_same (fun s => s.net.quads) _ _ _ (fun s x => by first | rfl | ((repeat' split) <;> rfl))

@[simp] theorem State.countStat_outst (s : State) (p : Packet) (m : Stat → Stat) : (s.countStat p m).net.outst = s.net.outst := by
  unfold State.countStat; dsimp only; split <;> rfl
@[simp] theorem State.countStat_reports (s : State) (p : Packet) (m : Stat → Stat) : (s.countStat p m).net.reports = s.net.reports := by
  unfold State.countStat; dsimp only; split <;> rfl
@[simp] theorem State.countStat_violations (s : State) (p : Packet) (m : Stat → Stat) : (s.countStat p m).net.violations = s.net.violations := by
  unfold State.countStat; dsimp only; split <;> rfl
@[simp] theorem State.countStat_events (s : State) (p : Packet) (m : Stat → Stat) : (s.countStat p m).net.events = s.net.events := by
  unfold State.countStat; dsimp only; split <;> rfl
@[simp] theorem State.countStat_msgReqs (s : State) (p : Packet) (m : Stat → Stat) : (s.countStat p m).net.msgReqs = s.net.msgReqs := by
  unfold State.countStat; dsimp only; split <;> rfl
@[simp] theorem State.countStat_pkts (s : State) (p : Packet) (m : Stat → Stat) : (s.countStat p m).net.pkts = s.net.pkts := by
  unfold State.countStat; dsimp only; split <;> rfl
@[simp] theorem State.countStat_quads (s : State) (p : Packet) (m : Stat → Stat) (q : Nat) : (s.countStat p m).quad q = s.quad q := by
  unfold State.countStat; dsimp only; split <;> rfl

@[simp] theorem State.inject_outst (s : State) (p : Packet) : (s.inject p).net.outst = s.net.outst := by
  unfold State.inject; dsimp only; split <;> split <;> simp [State.pushFlits]
@[simp] theorem State.inject_reports (s : State) (p : Packet) : (s.inject p).net.reports = s.net.reports := by
  unfold State.inject; dsimp only; split <;> split <;> simp [State.pushFlits]
@[simp] theorem State.inject_violations (s : State) (p : Packet) : (s.inject p).net.violations = s.net.violations := by
  unfold State.inject; dsimp only; split <;> split <;> simp [State.pushFlits]
@[simp] theorem State.inject_events (s : State) (p : Packet) : (s.inject p).net.events = s.net.events := by
  unfold State.inject; dsimp only; split <;> split <;> simp [State.pushFlits]
@[simp] theorem State.inject_msgReqs (s : State) (p : Packet) : (s.inject p).net.msgReqs = s.net.msgReqs := by
  unfold State.inject; dsimp only; split <;> split <;> simp [State.pushFlits]
/-- The packet is in the Weave. -/
@[simp] theorem State.inject_pkts (s : State) (p : Packet) : (s.inject p).net.pkts = s.net.pkts.set s.net.nextPkt p := by
  unfold State.inject; dsimp only; split <;> split <;> simp [State.pushFlits]

/-- A request is outstanding under the tag the unit's counter gives. -/
@[simp] theorem State.request_outst (s : State) (ctx : ReqCtx) (p : Packet) (c : Option Nat) :
    (s.request ctx p c).net.outst = s.net.outst ++ ([
      { unit := p.initUnit, tag := s.newTag p.initUnit, ctx := ctx, pkt := { p with tag := s.newTag p.initUnit },
        left := (match p.op with
          | .memRd | .memRdLock | .mqRd => p.lines.length
          | .regRd => 1
          | _ => 0),
        counts := c, time := s.sys.now }] : List Req) := by
  simp only [State.request, State.inject_outst]
  rfl

@[simp] theorem State.pushE_reports (s : State) (o : POp) (u d : Nat) : (s.pushE o u d).net.reports = s.net.reports := by
  simp [State.pushE, State.pushFlits]
@[simp] theorem State.pushE_events (s : State) (o : POp) (u d : Nat) : (s.pushE o u d).net.events = s.net.events := by
  simp [State.pushE, State.pushFlits]
@[simp] theorem State.pushE_violations (s : State) (o : POp) (u d : Nat) : (s.pushE o u d).net.violations = s.net.violations := by
  simp [State.pushE, State.pushFlits]
@[simp] theorem State.pushE_outst (s : State) (o : POp) (u d : Nat) : (s.pushE o u d).net.outst = s.net.outst := by
  simp [State.pushE, State.pushFlits]
@[simp] theorem State.report_reports (s : State) (r : FaultReport) : (s.report r).net.reports = s.net.reports ++ [r] := by
  simp [State.report]
@[simp] theorem State.report_outst (s : State) (r : FaultReport) : (s.report r).net.outst = s.net.outst := by
  simp [State.report]
@[simp] theorem State.report_events (s : State) (r : FaultReport) : (s.report r).net.events = s.net.events := by
  simp [State.report]
@[simp] theorem State.report_quad (s : State) (r : FaultReport) (q : Nat) : (s.report r).quad q = s.quad q := by
  simp [State.quad, State.report, State.pushE, State.pushFlits]
@[simp] theorem State.contained_outst (s : State) (a b u e : Nat) (g : Option Nat) : (s.contained a b u e g).net.outst = s.net.outst := by
  simp [State.contained]
@[simp] theorem State.contained_reports (s : State) (a b u e : Nat) (g : Option Nat) :
    (s.contained a b u e g).net.reports = s.net.reports ++ [mkFault a .contained b u e g] := by
  simp [State.contained]
@[simp] theorem State.requestVector_events (s : State) (u : Nat) (f : FnId) (v : Nat) :
    (s.requestVector u f v).net.events = s.net.events ++ [(f, v)] := by
  simp [State.requestVector]
@[simp] theorem State.requestVector_outst (s : State) (u : Nat) (f : FnId) (v : Nat) : (s.requestVector u f v).net.outst = s.net.outst := by
  simp [State.requestVector]
@[simp] theorem State.requestVector_reports (s : State) (u : Nat) (f : FnId) (v : Nat) :
    (s.requestVector u f v).net.reports = s.net.reports := by
  simp [State.requestVector]
@[simp] theorem State.requestVector_quad (s : State) (u : Nat) (f : FnId) (v q : Nat) : (s.requestVector u f v).quad q = s.quad q := by
  simp [State.quad, State.requestVector, State.pushE, State.pushFlits]
@[simp] theorem State.violate_violations (s : State) (v : Violation) : (s.violate v).net.violations = s.net.violations ++ [v] := by
  simp [State.violate]

/-- The cause bit that `raiseCause` sets, and the vector it asks for. -/
theorem State.raiseCause_fn (s : State) (f : FnId) (b : Nat) (h : s.fnEnabled f = true) :
    (s.raiseCause f b).fn f = { s.fn f with cause := (s.fn f).cause ||| BitVec.ofNat 7 (2 ^ b) } := by
  simp [State.raiseCause, h]
theorem State.raiseCause_fn_ne (s : State) (f : FnId) (b : Nat) {j : FnId} (h : j.key ≠ f.key) : (s.raiseCause f b).fn j = s.fn j := by
  unfold State.raiseCause; split
  · simp [State.modFn_ne _ _ _ h]
  · rfl
theorem State.raiseCause_events (s : State) (f : FnId) (b : Nat) (h : s.fnEnabled f = true) :
    (s.raiseCause f b).net.events = s.net.events ++ [(f, 0)] := by
  simp [State.raiseCause, h]

end Sys2Proof.Machine
end

