-- ==== Sys2Proof/Tests/Slice0.lean ====
section
/-! SUPPORT. Tests: worked examples of the spec, an ill-formed term for each check of `Instr.wf`, and for each statement with
hypotheses concrete states and operands that meet them, clause by clause. -/

set_option Elab.async false

namespace Sys2Proof.Tests

open Sys2Proof Sys2Proof.Machine

/-- A device in service: two host links with eight gloves each, every channel, and a peer on Border links 0 and 1. -/
def svc : State :=
  { sys := { devRst := false, mode := .service }
    boot := { step := 7, copy := 1
              cfg := { cuffModes := [2], ranges := [(0, 8), (8, 8)], bars := [(true, 30), (true, 30)], channels := 0xFFFF
                       tierDefault := 64, tierMax := 128, tierGuest := 64, peers := [some (1, 0), some (1, 1)], tWarn := 90
                       batchRecords := 2 } }
    trust := { gloves := [(0, { state := .opened, queueLimit := 4, fingerLimit := 2, share := 64 })]
               band := [(0, { key := 5, valid := true })], drbgReady := true }
    host := { fns := [(0, { mse := true, bme := true, msixEnable := true, bar0 := 0x100000000 }),
                      (1, { mse := true, bme := true, msixEnable := true })]
              links := [(0, { up := true, ltssm := .l0, ready := true, numVfs := 8, vfEnable := true, vfMse := true
                              vfBar0 := 0x200000, vfBar2 := 0x40000000000, vfSize := 30 }), (1, { vfSize := 30 })] } }

/-- The control queue of glove 0's VF, its work queue 1, the admin queue of link 0, and an entry of each. -/
def qc : QId := ⟨0, 1, 0⟩
def qw : QId := ⟨0, 1, 1⟩
def qa : QId := ⟨0, 0, 0⟩
def oc : Origin := ⟨qc, 5⟩
def ow : Origin := ⟨qw, 3⟩
def oa : Origin := ⟨qa, 7⟩

/-- An enabled queue with entry `i` fetched. -/
def qu (i : Nat) : Queue :=
  { enable := true, ring := 0x10000, headAddr := 0x20000, size := 4, tail := 8, fetch := 8, vector := 3
    entries := [{ idx := i, bytes := 0, started := true }] }

/-- The device in service with the three queues. -/
def svq : State := ((svc.modQueue qc (fun _ => qu 5)).modQueue qw (fun _ => qu 3)).modQueue qa (fun _ => qu 7)

/-- Finger 0 of the VF, on engine 0 and running. -/
def fg : FgId := ⟨0, 1, 0⟩
def fgRun : Finger := { state := .running, engine := some (engineUnit 0), share := 8, burst := 4096, tokens := 4096 }

/-- The same within a program whose next word is `w`. -/
def prog (w : BitVec 256) : State :=
  svq.modFinger fg (fun _ => { fgRun with
    entry := some ow, program := true, pc := 64, ibuf := [(64, BitVec.ofNat 512 w.toNat)], a1 := 0x1000, l0 := 3, l1 := 2 })

/-- A request of glove 0 for the first line of the pool, which glove 0 owns, and that state. -/
def req (o : POp) : Packet :=
  { op := o, vc := o.vc 0, dest := gateUnit 0, initUnit := engineUnit 0, tag := 9, addr := 0, len := 64, gloveValid := true, glove := 0 }
def owned (l : List WcbLine) (k : List GateLock) : State :=
  ({ svc with pool.owns := [(0, { gen := 1, owner := 0, state := 1 })] }).modGate 0 (fun x =>
    { x with wcb := l, locks := k, olines := [(0, BitVec.ofNat 512 (packOwn { gen := 1, owner := 0, state := 1 }))] })
def wl : WcbLine := { line := 0, data := 77, slot := 0, glove := 0 }

/-- Finger instructions, bit by bit from R404-R422: SETA, ADDA, LOOP, END, MOVE, WAIT and SIGNAL. -/
def seta1 : BitVec 256 := 0x05 + 1 <<< 8 + 7 <<< 64
def adda1 : BitVec 256 := 0x06 + 1 <<< 8 + 7 <<< 64
def loop0 : BitVec 256 := 0x02 + 0xFFFFFFFE <<< 32
def loop1 : BitVec 256 := 0x02 + 1 <<< 8 + 0xFFFFFFFE <<< 32
def endImm : BitVec 256 := 0x0F + 9 <<< 64
def endReg : BitVec 256 := 0x0F + 1 <<< 8 + 1 <<< 9
def move1 : BitVec 256 := 0x01 + 1 <<< 10 + 1 <<< 12 + 1 <<< 14 + 1 <<< 16 + 64 <<< 32 + 8 <<< 64 + 16 <<< 128
def waitT : BitVec 256 := 0x03 + 1 <<< 8 + 5 <<< 192
def waitF : BitVec 256 :=
  0x03 + 1 <<< 10 + 1 <<< 12 + 5 <<< 14 + 1 <<< 32 + 9 <<< 64 + 0xFFFFFFF8 <<< 96 + 3 <<< 128 + 4 <<< 192
def waitE : BitVec 256 := 0x03 + 2 <<< 8 + 6 <<< 128
def sigE : BitVec 256 := 0x04 + 1 <<< 14 + 6 <<< 64
def sigG : BitVec 256 := 0x04 + 1 <<< 10 + 1 <<< 13 + 1 <<< 16 + 5 <<< 32 + 8 <<< 96
def sigF : BitVec 256 := 0x04 + 1 <<< 10 + 1 <<< 12 + 8 <<< 96 + 5 <<< 192

/-- A peer-window image (R215): 4 KiB at 0x2000 onto 0x3000 of glove 1, readable and writable. -/
def winImage : BitVec 256 := 0x2000 + 0x1000 <<< 64 + 0x3000 <<< 128 + 1 <<< 192 + 1 <<< 202 + 1 <<< 203

/-- A tier line for line 0. -/
def tl0 : TierLine :=
  { stack := (svc.tierPlace 0).1, set := (svc.tierPlace 0).2.1, way := 0, mac := 3, slot := 0, dirty := false, ref := false
    tag := (svc.tierPlace 0).2.2, data := 55 }

/-- What an access sent leaves. -/
def sentSt (i : Issued) : State :=
  match i with
  | .sent s _ _ => s
  | .wait s => s
  | .refused s _ _ _ => s
def sentSp (i : Issued) : Nat :=
  match i with
  | .sent _ n _ => n
  | _ => 0
def sentLk (i : Issued) : Option Nat :=
  match i with
  | .sent _ _ l => l
  | _ => none

theorem beq_succ (x : BitVec 64) : (x == x + 1) = false := by simp

/-- Unit numbers and knots of the worked examples of R16 and R18: Finger engine 37, the stack controller of Q1, Cuff 5 at knot (3, 9)
and DDR gate 14 at knot (11, 7). -/
theorem test_units : engineUnit 37 = 0x235 ∧ stackUnit 1 = 0x128 ∧ unitKnot (cuffUnit 5) = 12 * 9 + 3 ∧ unitKnot (gateUnit 14) = 12 * 7 + 11 := by
  decide

/-- The worked example of the interleave hash: page 0x1234, block 171 lies on channel 5, slot 149,130. -/
theorem test_interleave : svc.place (0x1234 * 512 + 171) = ⟨5, 10, 149130⟩ := by decide +kernel

/-- The worked example of the table space: WIN_PT_BASE[100] with 96 gloves of 1 TiB and then gloves of 256 GiB. -/
theorem test_pt_base :
    ({ svc with boot.cfg.cuffModes := [2, 2]
                boot.cfg.ranges := [(0, 32), (32, 32), (64, 32), (96, 64)]
                boot.cfg.bars := [(true, 40), (true, 40), (true, 40), (true, 38)] } : State).ptBase 100 = 0x1A400000 := by decide +kernel

/-- The state a command answers. -/
def after (r : Host.Outcome State Fault Refusal) : State :=
  match r with
  | .next s => s
  | _ => svc

/-- The worked example of doorbells: 32 entries outstanding in a queue of 256. -/
def ring : State := svc.modQueue qc (fun _ => { enable := true, size := 8, head := 0xFFFFFFF0, tail := 0x10 })
theorem test_doorbell_full : ((after (execDoorbell qc 0xF0 ring)).queue qc).tail = 0xF0 := by decide +kernel
theorem test_doorbell_overrun : ((after (execDoorbell qc 0xF1 ring)).fn ⟨0, 1⟩).rejCode = 0x0400 := by
  decide +kernel
theorem test_doorbell_regress : ((after (execDoorbell qc 0x8 ring)).fn ⟨0, 1⟩).rejCode = 0x0409 := by
  decide +kernel

/-- The worked program of the Fingers chapter, word by word. -/
theorem test_program_words :
    decodeFg false (0x405 + 0xF <<< 64) = some (.seta 4 15) ∧
    decodeFg false 0x0000100000034401 = some (.move 0 1 false true true true 4096 0 0) ∧
    decodeFg false 0xFFFFFFFF00000002 = some (.loop 0 (-1)) ∧
    decodeFg false (0x9804 + 1 <<< 192) = some (.signal true false false true false 2 false 0 0 0 1) ∧
    decodeFg false (0x0F + 0x10 <<< 64) = some (.fin none 16) := by decide +kernel

/-- The worked example of the rate limiter: share 16 at CURRENT 2,000 gains 16,000 bytes. -/
theorem test_token_refill :
    ((after (execTokenRefill fg (((svq.modFinger fg (fun _ => { fgRun with share := 16, burst := 65536, tokens := 0 })).modQuad 0
      (fun x => { x with cur := 2000 }))))).finger fg).tokens = 16000 := by decide +kernel

/-- The worked example of a COPY: 300 bytes to 0x4000_0FC5 are cut at the page boundary after 59 bytes. -/
theorem test_copy_piece :
    (Transfer.piece { src := 0x700001003, dst := 0x40000FC5, len := 300, srcGlove := false, dstGlove := true, pattern := none } 4096).2 = 59 := by
  decide +kernel

/-- The table of R296, read back as software walks it: ID and Next of each extended capability, from 0x100. -/
def capChain (s : State) : Nat → Nat → List (Nat × Nat)
  | 0, _ => []
  | n + 1, off =>
    match s.cfgRead ⟨0, 0⟩ off with
    | .data d => (off, d.value % 65536) :: if d.value / 2 ^ 20 == 0 then [] else capChain s n (d.value / 2 ^ 20)
    | _ => []
theorem test_capability_list : capChain svc 30 0x100 =
    [(0x100, 0x0001), (0x160, 0x000E), (0x168, 0x0003), (0x180, 0x0010), (0x1C0, 0x0019), (0x1F0, 0x0025), (0x200, 0x0026),
     (0x230, 0x002A), (0x260, 0x0031), (0x280, 0x0032), (0x2A0, 0x0027), (0x2F0, 0x0018), (0x300, 0x001E), (0x320, 0x0015),
     (0x330, 0x0024), (0x340, 0x002E), (0x360, 0x002F), (0x370, 0x0030), (0x470, 0x0023)] := by decide +kernel

/-- The headers of R295 and R298. -/
theorem test_headers : svc.cfgRead ⟨0, 0⟩ 0 = .data (wholeDword 0x84401F3A) ∧ svc.cfgRead ⟨0, 1⟩ 0 = .data (wholeDword 0xFFFFFFFF) ∧
    svc.cfgRead ⟨0, 0⟩ 0x34 = .data ⟨0x40, 0xFF⟩ := by decide +kernel

/-- R444: at x8 a flit takes two groups of 65 bits on each lane. -/
theorem test_flit_lanes : (laneGroups 0xFF (List.replicate 128 0x01)).map (fun x => (x.1, x.2.length)) =
    (List.range 8).map (fun i => (i, 2)) := by decide +kernel

/-- A number no field holds, and a Border packet's header. -/
def big : Nat := 10 ^ 40
def bp : BorderPkt := ⟨.memRd, 0, 0, 0, 0, false, 0, false, false, false, 4, 0, 0, 0, 0, []⟩

/-- Each command is well formed, and is refused once one of its checks fails. -/
def smoke (l : List (Instr × List Instr)) : Bool := l.all (fun x => x.1.wf && x.2.all (fun c => !c.wf))

theorem smoke_1 : smoke [
  (.coldReset {}, [.coldReset { dimms := [⟨16, 0, false, 0⟩] }, .coldReset { dimms := [⟨0, 3, false, 0⟩] },
    .coldReset { dimms := [⟨0, 0, false, 16⟩] }, .coldReset { temps := [0, 0, 0, 0, 0] }, .coldReset { perst := [16] },
    .coldReset { ddrFail := [16] }, .coldReset { hbmFail := [(4, 0)] }, .coldReset { hbmFail := [(0, 33)] }]),
  (.tamperInputAssert 0, [.tamperInputAssert big]),
  (.thermtrip 0, [.thermtrip big]),
  (.tWarnReached 0 0, [.tWarnReached big 0, .tWarnReached 0 big]),
  (.thermalHoldEnd [0, 0, 0, 0], [.thermalHoldEnd [], .thermalHoldEnd [big, 0, 0, 0]]),
  (.hostMemoryRead ⟨0, 0, 4, 0, none⟩, [.hostMemoryRead ⟨16, 0, 4, 0, none⟩, .hostMemoryRead ⟨0, big, 4, 0, none⟩,
    .hostMemoryRead ⟨0, 0, 4097, 0, none⟩, .hostMemoryRead ⟨0, 0, 4, 16384, none⟩]),
  (.hostMemoryWrite ⟨0, 0, [], false, none⟩, [.hostMemoryWrite ⟨16, 0, [], false, none⟩, .hostMemoryWrite ⟨0, big, [], false, none⟩,
    .hostMemoryWrite ⟨0, 0, List.replicate 4097 none, false, none⟩]),
  (.hostAtomicop ⟨0, 0, .swap, 4, 0, 0, 0, none⟩, [.hostAtomicop ⟨16, 0, .swap, 4, 0, 0, 0, none⟩, .hostAtomicop ⟨0, big,
    .swap, 4, 0, 0, 0, none⟩, .hostAtomicop ⟨0, 0, .swap, 5, 0, 0, 0, none⟩, .hostAtomicop ⟨0, 0, .swap, 4, 0, 0, 16384, none⟩]),
  (.unsupportedRequest 0 0 .ioRead, [.unsupportedRequest big 0 .ioRead, .unsupportedRequest 0 big .ioRead]),
  (.hostCompletion ⟨0, 0, 0, .sc, [], false, none⟩, [.hostCompletion ⟨16, 0, 0, .sc, [], false, none⟩, .hostCompletion ⟨0, 256, 0,
    .sc, [], false, none⟩, .hostCompletion ⟨0, 0, 16384, .sc, [], false, none⟩, .hostCompletion ⟨0, 0, 0,
    .sc, List.replicate 4097 0, false, none⟩]),
  (.hostCplTimeout 0 0 0, [.hostCplTimeout big 0 0, .hostCplTimeout 0 big 0, .hostCplTimeout 0 0 big]),
  (.cuffTxDequeue 0, [.cuffTxDequeue big]),
  (.perstAssert 0, [.perstAssert big]),
  (.perstDeassert 0, [.perstDeassert big]),
  (.linkTrainedL0 0 1 ⟨16, [8]⟩ false, [.linkTrainedL0 big 1 ⟨16, []⟩ false, .linkTrainedL0 0 7 ⟨16, []⟩ false,
    .linkTrainedL0 0 0 ⟨16, []⟩ false, .linkTrainedL0 0 1 ⟨3, []⟩ false, .linkTrainedL0 0 1 ⟨16, [3]⟩ false]),
  (.dlDown 0, [.dlDown big])] = true := by decide +kernel

theorem smoke_2 : smoke [
  (.linkHotReset 0, [.linkHotReset big]),
  (.hostRecoveryEntered ⟨0, none, none⟩, [.hostRecoveryEntered ⟨big, none, none⟩, .hostRecoveryEntered ⟨0, some 3, none⟩,
    .hostRecoveryEntered ⟨0, none, some .badTlp⟩]),
  (.flrStart ⟨0, 0⟩, [.flrStart ⟨16, 0⟩, .flrStart ⟨0, 256⟩]),
  (.flrComplete ⟨0, 0⟩, [.flrComplete ⟨16, 0⟩]),
  (.vfEnableClear 0, [.vfEnableClear big]),
  (.vfEnableSet 0, [.vfEnableSet big]),
  (.numvfsWrite 0 0, [.numvfsWrite big 0, .numvfsWrite 0 big]),
  (.barWrite 0 .bar0 0, [.barWrite big .bar0 0, .barWrite 0 (.msixTable 256) 0, .barWrite 0 .bar0 big]),
  (.vfBarSizeWrite 0 0, [.vfBarSizeWrite big 0, .vfBarSizeWrite 0 big]),
  (.bmeClear ⟨0, 0⟩, [.bmeClear ⟨16, 0⟩]),
  (.bmeSet ⟨0, 0⟩, [.bmeSet ⟨16, 0⟩]),
  (.d3hotEntry ⟨0, 0⟩, [.d3hotEntry ⟨16, 0⟩]),
  (.d0Return ⟨0, 0⟩, [.d0Return ⟨16, 0⟩]),
  (.msixMaskWrite ⟨0, 0⟩ .function false, [.msixMaskWrite ⟨16, 0⟩ .function false, .msixMaskWrite ⟨0, 0⟩ (.vector 2048) false]),
  (.msixCommit ⟨0, 0⟩ 0, [.msixCommit ⟨16, 0⟩ 0, .msixCommit ⟨0, 0⟩ big]),
  (.pendingVectorSend ⟨0, 0⟩ 0, [.pendingVectorSend ⟨16, 0⟩ 0, .pendingVectorSend ⟨0, 0⟩ big])] = true := by decide +kernel

theorem smoke_3 : smoke [
  (.lockExpiry 0 0, [.lockExpiry big 0, .lockExpiry 0 big]),
  (.memRd { op := .memRd }, [.memRd { op := .memRd, vc := big }, .memRd { op := .memRd, dest := big },
    .memRd { op := .memRd, initUnit := big }, .memRd { op := .memRd, initKnot := big }, .memRd { op := .memRd, tag := big },
    .memRd { op := .memRd, ctx := big }, .memRd { op := .memRd, addr := big }, .memRd { op := .memRd, link := big },
    .memRd { op := .memRd, fn := big }, .memRd { op := .memRd, len := big }, .memRd { op := .memRd, status := big },
    .memRd { op := .memRd, world := big }, .memRd { op := .memRd, glove := big }, .memRd { op := .memRd, home := big },
    .memRd { op := .memRd, data := [0] }, .memRd { op := .event }]),
  (.memWr { op := .memWr, data := [0] }, [.memWr { op := .memWr, data := [0], vc := big }, .memWr { op := .memWr, data := [] },
    .memWr { op := .event, data := [0] }]),
  (.memRdLock { op := .memRdLock }, [.memRdLock { op := .memRdLock, vc := big }, .memRdLock { op := .event }]),
  (.memWrUnlock { op := .memWrUnlock, ackReq := true, data := [0] }, [.memWrUnlock { op := .memWrUnlock, ackReq := true, data := [0], vc := big }, .memWrUnlock { op := .memWrUnlock, data := [0], ackReq := false }, .memWrUnlock { op := .memWrUnlock, ackReq := true, data := [0, 0] }, .memWrUnlock { op := .event, ackReq := true, data := [0] }]),
  (.unlock { op := .unlock, ackReq := true }, [.unlock { op := .unlock, ackReq := true, vc := big },
    .unlock { op := .unlock, ackReq := false }, .unlock { op := .event, ackReq := true }]),
  (.zlRd { op := .zlRd }, [.zlRd { op := .zlRd, vc := big }, .zlRd { op := .event }]),
  (.regRd { op := .regRd, len := 4 }, [.regRd { op := .regRd, len := 4, vc := big }, .regRd { op := .regRd, len := 5 },
    .regRd { op := .event, len := 4 }]),
  (.regWr { op := .regWr, len := 8, data := [0] }, [.regWr { op := .regWr, len := 8, data := [0], vc := big },
    .regWr { op := .regWr, data := [0], len := 5 }, .regWr { op := .event, len := 8, data := [0] }]),
  (.cplD { op := .cplD, data := [0] }, [.cplD { op := .cplD, data := [0], vc := big }, .cplD { op := .cplD, data := [] },
    .cplD { op := .event, data := [0] }]),
  (.cpl { op := .cpl }, [.cpl { op := .cpl, vc := big }, .cpl { op := .event }]),
  (.ack { op := .ack }, [.ack { op := .ack, vc := big }, .ack { op := .event }]),
  (.mqRd { op := .mqRd }, [.mqRd { op := .mqRd, vc := big }, .mqRd { op := .event }]),
  (.mqWr { op := .mqWr, data := [0] }, [.mqWr { op := .mqWr, data := [0], vc := big }, .mqWr { op := .event, data := [0] }]),
  (.mqMac { op := .mqMac, data := [0] }, [.mqMac { op := .mqMac, data := [0], vc := big }, .mqMac { op := .event, data := [0] }]),
  (.tierLookup { op := .tierLookup }, [.tierLookup { op := .tierLookup, vc := big },
    .tierLookup { op := .event }])] = true := by decide +kernel

theorem smoke_4 : smoke [
  (.tierFill { op := .tierFill, data := [0] }, [.tierFill { op := .tierFill, data := [0], vc := big },
    .tierFill { op := .event, data := [0] }]),
  (.mirrorWr { op := .mirrorWr, data := [0] }, [.mirrorWr { op := .mirrorWr, data := [0], vc := big },
    .mirrorWr { op := .mirrorWr, data := [0, 0, 0] }, .mirrorWr { op := .event, data := [0] }]),
  (.mrD { op := .mrD, data := [0] }, [.mrD { op := .mrD, data := [0], vc := big }, .mrD { op := .event, data := [0] }]),
  (.mrAck { op := .mrAck }, [.mrAck { op := .mrAck, vc := big }, .mrAck { op := .event }]),
  (.event ⟨0, 0⟩ 0, [.event ⟨16, 0⟩ 0, .event ⟨0, 0⟩ big]),
  (.msgReq ⟨0, 0⟩ 0, [.msgReq ⟨16, 0⟩ 0, .msgReq ⟨0, 0⟩ big]),
  (.fault ⟨0, .contained, 0, 0, 0, 0, none⟩, [.fault ⟨16, .contained, 0, 0, 0, 0, none⟩, .fault ⟨0, .contained, 65536, 0, 0, 0, none⟩,
    .fault ⟨0, .contained, 0, 1024, 0, 0, none⟩, .fault ⟨0, .contained, 0, 0, 4, 0, none⟩, .fault ⟨0, .contained, 0, 0, 0, big, none⟩,
    .fault ⟨0, .strandSingle 120 0 0, 0, 0, 0, 0, none⟩,
    .fault ⟨0, .borderParity 8, 0, 0, 0, 0, none⟩, .fault ⟨0, .badCopy (.node 32 0), 0, 0, 0, 0, none⟩]),
  (.ruleFault ⟨0, 0, 0, 0, false, 0⟩, [.ruleFault ⟨1024, 0, 0, 0, false, 0⟩, .ruleFault ⟨0, big, 0, 0, false, 0⟩,
    .ruleFault ⟨0, 0, 65536, 0, false, 0⟩, .ruleFault ⟨0, 0, 0, 4, false, 0⟩, .ruleFault ⟨0, 0, 0, 0, false, 1024⟩]),
  (.ownershipInvalidate 0 [], [.ownershipInvalidate big [], .ownershipInvalidate 0 [big, 0, 0, 0]]),
  (.ownershipInvalidateAck 0, [.ownershipInvalidateAck big]),
  (.knotOutputGrant 0 0 {}, [.knotOutputGrant big 0 {}, .knotOutputGrant 0 big {}, .knotOutputGrant 0 0 { single := [8] },
    .knotOutputGrant 0 0 { bad := [8] }, .knotOutputGrant 0 0 { single := [3], bad := [3] }]),
  (.holdStoreRoomFreed 0 0, [.holdStoreRoomFreed big 0, .holdStoreRoomFreed 0 big]),
  (.creditReturn 0 0 0 false, [.creditReturn big 0 0 false, .creditReturn 0 big 0 false, .creditReturn 0 0 big false]),
  (.weaveTimeout 0 0, [.weaveTimeout big 0, .weaveTimeout 0 big]),
  (.tagRelease 0 0, [.tagRelease big 0, .tagRelease 0 big]),
  (.paceMonitorSample 0 [0, 0, 0, 0], [.paceMonitorSample big [0, 0, 0, 0], .paceMonitorSample 0 [0], .paceMonitorSample 0 [big, 0, 0,
    0]])] = true := by decide +kernel

theorem smoke_5 : smoke [
  (.wvePaceAlarmClear 0, [.wvePaceAlarmClear big]),
  (.leakyBucketDrain (.recovery 0), [.leakyBucketDrain (.wire 120 0 0), .leakyBucketDrain (.wire 0 4 0), .leakyBucketDrain (.wire 0 0 8),
    .leakyBucketDrain (.hostLane 8 0), .leakyBucketDrain (.hostLane 0 16), .leakyBucketDrain (.borderLane 8 0),
    .leakyBucketDrain (.borderLane 0 8), .leakyBucketDrain (.borderDown 8), .leakyBucketDrain (.ddrIntegrity 16),
    .leakyBucketDrain (.ddrUncorrectable 16), .leakyBucketDrain (.hbmPseudo 4 0), .leakyBucketDrain (.hbmPseudo 0 32),
    .leakyBucketDrain (.recovery 1024)]),
  (.commandSlotGrant (.ddr 0) false .clean, [.commandSlotGrant (.ddr 16) false .clean, .commandSlotGrant (.hbm 4 0) false .clean,
    .commandSlotGrant (.hbm 0 32) false .clean]),
  (.wcbResidencyExpiry 0 0, [.wcbResidencyExpiry big 0, .wcbResidencyExpiry 0 big]),
  (.reencPhaseADone 0 0, [.reencPhaseADone big 0, .reencPhaseADone 0 big]),
  (.reencRaiseClass 0 0, [.reencRaiseClass big 0, .reencRaiseClass 0 big]),
  (.stagingBufferFreed 0, [.stagingBufferFreed big]),
  (.doorbell ⟨0, 0, 0⟩ 0, [.doorbell ⟨16, 0, 0⟩ 0, .doorbell ⟨0, 256, 0⟩ 0, .doorbell ⟨0, 0, 65⟩ 0]),
  (.queueEnable ⟨0, 0⟩ 0, [.queueEnable ⟨16, 0⟩ 0]),
  (.queueDisable ⟨0, 0⟩, [.queueDisable ⟨16, 0⟩]),
  (.entryFetch ⟨0, 0, 0⟩, [.entryFetch ⟨16, 0, 0⟩]),
  (.entryDispatch ⟨0, 0, 0⟩, [.entryDispatch ⟨16, 0, 0⟩]),
  (.resultWrite ⟨0, 0, 0⟩, [.resultWrite ⟨16, 0, 0⟩]),
  (.resultWriteAcked ⟨0, 0, 0⟩, [.resultWriteAcked ⟨16, 0, 0⟩]),
  (.headWriteAcked ⟨0, 0, 0⟩, [.headWriteAcked ⟨16, 0, 0⟩]),
  (.openGlove oa 0 false false 0 0, [.openGlove ⟨⟨0, 0, 65⟩, 0⟩ 0 false false 0 0, .openGlove ⟨qa, big⟩ 0 false false 0 0,
    .openGlove oa big false false 0 0, .openGlove oa 0 false false big 0, .openGlove oa 0 false false 0 big])] = true := by decide +kernel

theorem smoke_6 : smoke [
  (.closeGlove oa 0, [.closeGlove ⟨⟨0, 0, 65⟩, 0⟩ 0, .closeGlove oa big]),
  (.bandSlotZeroConfirmed 0, [.bandSlotZeroConfirmed big]),
  (.lastPageReleased 0, [.lastPageReleased big]),
  (.grantPages oa 0 0 false 0 0 0, [.grantPages ⟨⟨0, 0, 65⟩, 0⟩ 0 0 false 0 0 0, .grantPages oa big 0 false 0 0 0,
    .grantPages oa 0 big false 0 0 0, .grantPages oa 0 0 false big 0 0, .grantPages oa 0 0 false 0 big 0,
    .grantPages oa 0 0 false 0 0 big]),
  (.reclaimPages oa 0 0 0 0 0, [.reclaimPages ⟨⟨0, 0, 65⟩, 0⟩ 0 0 0 0 0, .reclaimPages oa big 0 0 0 0, .reclaimPages oa 0 big 0 0 0,
    .reclaimPages oa 0 0 big 0 0, .reclaimPages oa 0 0 0 big 0, .reclaimPages oa 0 0 0 0 big]),
  (.setLimits oa 0 0 0 0 0 0, [.setLimits ⟨⟨0, 0, 65⟩, 0⟩ 0 0 0 0 0 0, .setLimits oa big 0 0 0 0 0, .setLimits oa 0 big 0 0 0 0,
    .setLimits oa 0 0 big 0 0 0, .setLimits oa 0 0 0 big 0 0, .setLimits oa 0 0 0 0 big 0, .setLimits oa 0 0 0 0 0 big]),
  (.setPeerWindow oa 0 0 0, [.setPeerWindow ⟨⟨0, 0, 65⟩, 0⟩ 0 0 0, .setPeerWindow oa big 0 0, .setPeerWindow oa 0 big 0]),
  (.clearPeerWindow oa 0 0, [.clearPeerWindow ⟨⟨0, 0, 65⟩, 0⟩ 0 0, .clearPeerWindow oa big 0, .clearPeerWindow oa 0 big]),
  (.pinDomain oa 0, [.pinDomain ⟨⟨0, 0, 65⟩, 0⟩ 0, .pinDomain oa big]),
  (.unpinDomain oa 0, [.unpinDomain ⟨⟨0, 0, 65⟩, 0⟩ 0, .unpinDomain oa big]),
  (.drain oa, [.drain ⟨⟨0, 0, 65⟩, 0⟩]),
  (.getLog oa 0 0 0 0, [.getLog ⟨⟨0, 0, 65⟩, 0⟩ 0 0 0 0, .getLog oa big 0 0 0, .getLog oa 0 big 0 0, .getLog oa 0 0 big 0,
    .getLog oa 0 0 0 big]),
  (.getUsage oa 0 0 0 0, [.getUsage ⟨⟨0, 0, 65⟩, 0⟩ 0 0 0 0, .getUsage oa big 0 0 0, .getUsage oa 0 big 0 0, .getUsage oa 0 0 big 0,
    .getUsage oa 0 0 0 big]),
  (.createQueue oa 0 0 false false 0 0 0 0, [.createQueue ⟨⟨0, 0, 65⟩, 0⟩ 0 0 false false 0 0 0 0,
    .createQueue oa big 0 false false 0 0 0 0, .createQueue oa 0 big false false 0 0 0 0, .createQueue oa 0 0 false false big 0 0 0,
    .createQueue oa 0 0 false false 0 big 0 0, .createQueue oa 0 0 false false 0 0 big 0, .createQueue oa 0 0 false false 0 0 0 big]),
  (.destroyQueue oa 0, [.destroyQueue ⟨⟨0, 0, 65⟩, 0⟩ 0, .destroyQueue oa big]),
  (.setRules oa 0 false 0, [.setRules ⟨⟨0, 0, 65⟩, 0⟩ 0 false 0, .setRules oa big false 0,
    .setRules oa 0 false big])] = true := by decide +kernel

theorem smoke_7 : smoke [
  (.getRuleFault oa 0, [.getRuleFault ⟨⟨0, 0, 65⟩, 0⟩ 0, .getRuleFault oa big]),
  (.clearRuleFault oa, [.clearRuleFault ⟨⟨0, 0, 65⟩, 0⟩]),
  (.startFinger oa 0 false false 0 0, [.startFinger ⟨⟨0, 0, 65⟩, 0⟩ 0 false false 0 0, .startFinger oa big false false 0 0,
    .startFinger oa 0 false false big 0, .startFinger oa 0 false false 0 big]),
  (.stopFinger oa 0, [.stopFinger ⟨⟨0, 0, 65⟩, 0⟩ 0, .stopFinger oa big]),
  (.epochDrainDone 0, [.epochDrainDone big]),
  (.epochDrainTimeout 0, [.epochDrainTimeout big]),
  (.runProgram ⟨0, 0, 0⟩ oa 0 false 0 0 0 0 0, [.runProgram ⟨16, 0, 0⟩ oa 0 false 0 0 0 0 0, .runProgram ⟨0, 256, 0⟩ oa 0 false 0 0 0 0 0,
    .runProgram ⟨0, 0, 16⟩ oa 0 false 0 0 0 0 0, .runProgram ⟨0, 0, 0⟩ ⟨⟨0, 0, 65⟩, 0⟩ 0 false 0 0 0 0 0,
    .runProgram ⟨0, 0, 0⟩ oa big false 0 0 0 0 0, .runProgram ⟨0, 0, 0⟩ oa 0 false big 0 0 0 0,
    .runProgram ⟨0, 0, 0⟩ oa 0 false 0 big 0 0 0, .runProgram ⟨0, 0, 0⟩ oa 0 false 0 0 big 0 0,
    .runProgram ⟨0, 0, 0⟩ oa 0 false 0 0 0 big 0, .runProgram ⟨0, 0, 0⟩ oa 0 false 0 0 0 0 big]),
  (.copy ⟨0, 0, 0⟩ oa 0 false false 0 0 0, [.copy ⟨16, 0, 0⟩ oa 0 false false 0 0 0, .copy ⟨0, 0, 0⟩ ⟨⟨0, 0, 65⟩, 0⟩ 0 false false 0 0 0,
    .copy ⟨0, 0, 0⟩ oa big false false 0 0 0, .copy ⟨0, 0, 0⟩ oa 0 false false big 0 0, .copy ⟨0, 0, 0⟩ oa 0 false false 0 big 0,
    .copy ⟨0, 0, 0⟩ oa 0 false false 0 0 big]),
  (.fill ⟨0, 0, 0⟩ oa 0 false 0 0 0, [.fill ⟨16, 0, 0⟩ oa 0 false 0 0 0, .fill ⟨0, 0, 0⟩ ⟨⟨0, 0, 65⟩, 0⟩ 0 false 0 0 0,
    .fill ⟨0, 0, 0⟩ oa big false 0 0 0, .fill ⟨0, 0, 0⟩ oa 0 false big 0 0, .fill ⟨0, 0, 0⟩ oa 0 false 0 big 0]),
  (.flush ⟨0, 0, 0⟩ oa, [.flush ⟨16, 0, 0⟩ oa, .flush ⟨0, 0, 0⟩ ⟨⟨0, 0, 65⟩, 0⟩]),
  (.fingerIssue 0, [.fingerIssue big]),
  (.programLineFetch ⟨0, 0, 0⟩, [.programLineFetch ⟨16, 0, 0⟩]),
  (.move ⟨0, 0, 0⟩ 0, [.move ⟨16, 0, 0⟩ 0]),
  (.loop ⟨0, 0, 0⟩ 0, [.loop ⟨16, 0, 0⟩ 0]),
  (.wait ⟨0, 0, 0⟩ 0, [.wait ⟨16, 0, 0⟩ 0]),
  (.waitPoll ⟨0, 0, 0⟩, [.waitPoll ⟨16, 0, 0⟩])] = true := by decide +kernel

theorem smoke_8 : smoke [
  (.waitTimerExpiry ⟨0, 0, 0⟩, [.waitTimerExpiry ⟨16, 0, 0⟩]),
  (.waitTimeout ⟨0, 0, 0⟩, [.waitTimeout ⟨16, 0, 0⟩]),
  (.signal ⟨0, 0, 0⟩ 0, [.signal ⟨16, 0, 0⟩ 0]),
  (.seta ⟨0, 0, 0⟩ 0, [.seta ⟨16, 0, 0⟩ 0]),
  (.adda ⟨0, 0, 0⟩ 0, [.adda ⟨16, 0, 0⟩ 0]),
  (.endInstr ⟨0, 0, 0⟩ 0, [.endInstr ⟨16, 0, 0⟩ 0]),
  (.tokenRefill ⟨0, 0, 0⟩, [.tokenRefill ⟨16, 0, 0⟩]),
  (.fngEventsSet ⟨0, 0⟩ 0, [.fngEventsSet ⟨16, 0⟩ 0]),
  (.fngEventClr ⟨0, 0⟩ 0, [.fngEventClr ⟨16, 0⟩ 0]),
  (.borderPayloadFlit 0 ⟨0, 0, [], true, []⟩, [.borderPayloadFlit big ⟨0, 0, [], true, []⟩, .borderPayloadFlit 0 ⟨16, 0, [], true, []⟩,
    .borderPayloadFlit 0 ⟨0, 65536, [], true, []⟩, .borderPayloadFlit 0 ⟨0, 0, List.replicate 257 0, true, []⟩]),
  (.borderAckFlit 0 ⟨0, false, [], []⟩, [.borderAckFlit big ⟨0, false, [], []⟩, .borderAckFlit 0 ⟨65536, false, [], []⟩,
    .borderAckFlit 0 ⟨0, false, List.replicate 8 0, []⟩, .borderAckFlit 0 ⟨0, false, [], List.replicate 8 0⟩]),
  (.borderPacket 0 bp, [.borderPacket big bp, .borderPacket 0 { bp with xid := big }, .borderPacket 0 { bp with originLink := big },
    .borderPacket 0 { bp with world := big }, .borderPacket 0 { bp with glove := big }, .borderPacket 0 { bp with home := big },
    .borderPacket 0 { bp with len := big }, .borderPacket 0 { bp with status := big }, .borderPacket 0 { bp with addr := big },
    .borderPacket 0 { bp with data := List.replicate 9 0 }]),
  (.ident 0 ⟨0, 0, 0, 0, 0⟩, [.ident big ⟨0, 0, 0, 0, 0⟩, .ident 0 ⟨4, 0, 0, 0, 0⟩, .ident 0 ⟨0, 8, 0, 0, 0⟩]),
  (.rerouteReq 0 0 0, [.rerouteReq big 0 0, .rerouteReq 0 big 0, .rerouteReq 0 0 big]),
  (.rerouteAck 0 0 0, [.rerouteAck big 0 0, .rerouteAck 0 big 0, .rerouteAck 0 0 big]),
  (.rerouteDone 0 0, [.rerouteDone big 0, .rerouteDone 0 big])] = true := by decide +kernel

theorem smoke_9 : smoke [
  (.widthReq 0 0, [.widthReq big 0]),
  (.widthAck 0 0, [.widthAck big 0]),
  (.ctrlRepeat 0, [.ctrlRepeat big]),
  (.borderAckTimer 0, [.borderAckTimer big]),
  (.replayTimeout 0, [.replayTimeout big]),
  (.creditTimeout 0 0, [.creditTimeout big 0, .creditTimeout 0 big]),
  (.widthChangeTimeout 0, [.widthChangeTimeout big]),
  (.borderSymbolLock 0, [.borderSymbolLock big]),
  (.trainingTimeout 0, [.trainingTimeout big]),
  (.identTimeout 0, [.identTimeout big]),
  (.lockLossTimeout 0, [.lockLossTimeout big]),
  (.downRetry 0, [.downRetry big]),
  (.rerouteLimitExpiry 0, [.rerouteLimitExpiry big]),
  (.homeLinkReturn 0 0, [.homeLinkReturn big 0, .homeLinkReturn 0 big]),
  (.keyTransfer 0 0 0, [.keyTransfer big 0 0, .keyTransfer 0 big 0]),
  (.keyConfirm 0 0 0 0, [.keyConfirm big 0 0 0, .keyConfirm 0 big 0 0, .keyConfirm 0 0 big 0,
    .keyConfirm 0 0 0 big])] = true := by decide +kernel

theorem smoke_10 : smoke [
  (.pageAlloc 0 0 0, [.pageAlloc big 0 0, .pageAlloc 0 big 0, .pageAlloc 0 0 big]),
  (.pageList 0 0 0 [], [.pageList big 0 0 [], .pageList 0 big 0 [], .pageList 0 0 big [], .pageList 0 0 0 [big, 0, 0, 0]]),
  (.pageRelease 0 0 [], [.pageRelease big 0 [], .pageRelease 0 big [], .pageRelease 0 0 [big, 0, 0, 0]]),
  (.keyRevoke 0 0, [.keyRevoke big 0, .keyRevoke 0 big]),
  (.revokeAck 0 0 0, [.revokeAck big 0 0, .revokeAck 0 big 0, .revokeAck 0 0 big]),
  (.quarantineNotice 0 0, [.quarantineNotice big 0, .quarantineNotice 0 big]),
  (.mgmtRetryTimeout 0 0, [.mgmtRetryTimeout big 0, .mgmtRetryTimeout 0 big]),
  (.getVersion (.border 0), [.getVersion (.border 8), .getVersion (.host 16 none)]),
  (.getCapabilities (.border 0) ⟨true, true, 2, true, true, true, true, true⟩, [.getCapabilities (.border 8) ⟨true, true, 2, true, true,
    true, true, true⟩]),
  (.negotiateAlgorithms (.border 0) ⟨true, true, true, true, true, true, true⟩, [.negotiateAlgorithms (.border 8) ⟨true, true, true,
    true, true, true, true⟩]),
  (.getDigests (.border 0), [.getDigests (.border 8)]),
  (.getCertificate (.border 0) 0 0 0, [.getCertificate (.border 8) 0 0 0, .getCertificate (.border 0) big 0 0,
    .getCertificate (.border 0) 0 big 0, .getCertificate (.border 0) 0 0 big]),
  (.challenge (.border 0) 0 0, [.challenge (.border 8) 0 0, .challenge (.border 0) big 0, .challenge (.border 0) 0 big]),
  (.getMeasurements (.border 0) 0 false, [.getMeasurements (.border 8) 0 false, .getMeasurements (.border 0) big false]),
  (.keyExchange (.border 0) 0 0 false, [.keyExchange (.border 8) 0 0 false, .keyExchange (.border 0) big 0 false,
    .keyExchange (.border 0) 0 big false]),
  (.finish (.border 0) 0 false, [.finish (.border 8) 0 false, .finish (.border 0) big false])] = true := by decide +kernel

theorem smoke_11 : smoke [
  (.endSession (.border 0), [.endSession (.border 8)]),
  (.getEncapsulatedRequest (.border 0), [.getEncapsulatedRequest (.border 8)]),
  (.deliverEncapsulatedResponse (.border 0) .other, [.deliverEncapsulatedResponse (.border 8) .other]),
  (.peerSpdmResponse 0 (.version true), [.peerSpdmResponse big (.version true)]),
  (.finishRsp 0, [.finishRsp big]),
  (.ideKmQuery (.border 0), [.ideKmQuery (.border 8)]),
  (.ideKmKeyProg (.border 0) 0 ⟨0, 0, 0⟩ ⟨true, true, true, true⟩ 0, [.ideKmKeyProg (.border 8) 0 ⟨0, 0, 0⟩ ⟨true, true, true, true⟩ 0,
    .ideKmKeyProg (.border 0) big ⟨0, 0, 0⟩ ⟨true, true, true, true⟩ 0, .ideKmKeyProg (.border 0) 0 ⟨2, 0, 0⟩ ⟨true, true, true, true⟩ 0,
    .ideKmKeyProg (.border 0) 0 ⟨0, 2, 0⟩ ⟨true, true, true, true⟩ 0, .ideKmKeyProg (.border 0) 0 ⟨0, 0, 3⟩ ⟨true, true, true, true⟩ 0]),
  (.ideKmKSetGo (.border 0) 0 0, [.ideKmKSetGo (.border 8) 0 0, .ideKmKSetGo (.border 0) big 0, .ideKmKSetGo (.border 0) 0 big]),
  (.ideKmKSetStop (.border 0) 0 0, [.ideKmKSetStop (.border 8) 0 0, .ideKmKSetStop (.border 0) big 0, .ideKmKSetStop (.border 0) 0 big]),
  (.getTdispVersion (.border 0) 0, [.getTdispVersion (.border 8) 0, .getTdispVersion (.border 0) big]),
  (.getTdispCapabilities (.border 0) 0, [.getTdispCapabilities (.border 8) 0, .getTdispCapabilities (.border 0) big]),
  (.lockInterfaceRequest (.border 0) 0, [.lockInterfaceRequest (.border 8) 0, .lockInterfaceRequest (.border 0) big]),
  (.getDeviceInterfaceReport (.border 0) 0, [.getDeviceInterfaceReport (.border 8) 0, .getDeviceInterfaceReport (.border 0) big]),
  (.getDeviceInterfaceState (.border 0) 0, [.getDeviceInterfaceState (.border 8) 0, .getDeviceInterfaceState (.border 0) big]),
  (.startInterfaceRequest (.border 0) 0 0, [.startInterfaceRequest (.border 8) 0 0, .startInterfaceRequest (.border 0) big 0]),
  (.stopInterfaceRequest (.border 0) 0, [.stopInterfaceRequest (.border 8) 0,
    .stopInterfaceRequest (.border 0) big])] = true := by decide +kernel

theorem smoke_12 : smoke [
  (.bindP2pStreamRequest (.border 0) 0, [.bindP2pStreamRequest (.border 8) 0, .bindP2pStreamRequest (.border 0) big]),
  (.unbindP2pStreamRequest (.border 0) 0, [.unbindP2pStreamRequest (.border 8) 0, .unbindP2pStreamRequest (.border 0) big]),
  (.setMmioAttributeRequest (.border 0) 0, [.setMmioAttributeRequest (.border 8) 0, .setMmioAttributeRequest (.border 0) big]),
  (.gloveKeyShare (.border 0) 0, [.gloveKeyShare (.border 8) 0, .gloveKeyShare (.border 0) big]),
  (.gloveKeyInstall (.border 0) 0 0 0 0 0, [.gloveKeyInstall (.border 8) 0 0 0 0 0, .gloveKeyInstall (.border 0) big 0 0 0 0,
    .gloveKeyInstall (.border 0) 0 big 0 0 0]),
  (.shareExpiry 0, [.shareExpiry big]),
  (.evtInChange 0 false, [.evtInChange big false]),
  (.filterCountExpiry 0, [.filterCountExpiry big]),
  (.moderationTimerExpiry ⟨0, 0⟩ 0, [.moderationTimerExpiry ⟨16, 0⟩ 0, .moderationTimerExpiry ⟨0, 0⟩ big]),
  (.selfTestTick 0 false, [.selfTestTick big false]),
  (.quietPeriodExpiry 0, [.quietPeriodExpiry big]),
  (.mramRecordWrite 0 0 0 0 false, [.mramRecordWrite big 0 0 0 false, .mramRecordWrite 0 big 0 0 false, .mramRecordWrite 0 0 big 0 false,
    .mramRecordWrite 0 0 0 big false]),
  (.retireClear ⟨0, 0⟩ false 0, [.retireClear ⟨16, 0⟩ false 0, .retireClear ⟨0, 0⟩ false big]),
  (.retireClearCancel ⟨0, 0⟩ false 0, [.retireClearCancel ⟨16, 0⟩ false 0, .retireClearCancel ⟨0, 0⟩ false big]),
  (.recoveryRead ⟨0, 0⟩ 0, [.recoveryRead ⟨16, 0⟩ 0, .recoveryRead ⟨0, 0⟩ big]),
  (.recoveryErase ⟨0, 0⟩, [.recoveryErase ⟨16, 0⟩])] = true := by decide +kernel

theorem smoke_13 : smoke [
  (.recoveryProgram ⟨0, 0⟩ 0, [.recoveryProgram ⟨16, 0⟩ 0, .recoveryProgram ⟨0, 0⟩ big]),
  (.recoveryVerify ⟨0, 0⟩ false {}, [.recoveryVerify ⟨16, 0⟩ false {}, .recoveryVerify ⟨0, 0⟩ false { dimms := [⟨16, 0, false, 0⟩] }]),
  (.fuseSigner ⟨0, 0⟩, [.fuseSigner ⟨16, 0⟩]),
  (.lingerExpiry 0 none, [.lingerExpiry big none]),
  (.domainCommit 0, [.domainCommit big]),
  (.domainEntryComplete 0, [.domainEntryComplete big]),
  (.padReleaseDue 0, [.padReleaseDue big]),
  (.domainOn 0, [.domainOn big]),
  (.usgAnchorWrite ⟨0, 0⟩ 0, [.usgAnchorWrite ⟨16, 0⟩ 0]),
  (.smbusReadByte 0, [.smbusReadByte big]),
  (.smbusReadWord 0, [.smbusReadWord big]),
  (.smbusBlockRead 0, [.smbusBlockRead big]),
  (.smbusWrite 0, [.smbusWrite big]),
  (.registerWrite ⟨0, 0⟩ (.bar0 0 []), [.registerWrite ⟨16, 0⟩ (.bar0 0 []), .registerWrite ⟨0, 0⟩ (.bar0 big []),
    .registerWrite ⟨0, 0⟩ (.bar0 0 (List.replicate 4097 none)), .registerWrite ⟨0, 0⟩ (.cfg .mse big),
    .registerWrite ⟨0, 0⟩ (.cfg (.ideStream (some 4) 0) 0), .registerWrite ⟨0, 0⟩ (.cfg (.ideStream none 256) 0),
    .registerWrite ⟨0, 0⟩ (.cfg (.ideStream none 0) 2), .registerWrite ⟨0, 0⟩ (.cfg (.ideRid 4 0 0) 0),
    .registerWrite ⟨0, 0⟩ (.cfg (.ideRid 0 1 0) 0), .registerWrite ⟨0, 0⟩ (.cfg (.ideRid 0 0 256) 0),
    .registerWrite ⟨0, 0⟩ (.cfg (.ideRid 0 0 0) 2), .registerWrite ⟨0, 0⟩ (.cfg (.ideAddr 4 0 0 0) 0),
    .registerWrite ⟨0, 0⟩ (.cfg (.ideAddr 0 2 0 0) 0), .registerWrite ⟨0, 0⟩ (.cfg (.ideAddr 0 0 1 0) 0),
    .registerWrite ⟨0, 0⟩ (.cfg (.ideAddr 0 0 0 big) 0), .registerWrite ⟨0, 0⟩ (.cfg (.ideAddr 0 0 0 0) 2)]),
  (.linkPowerStateChange 0 .l0, [.linkPowerStateChange big .l0]),
  (.spdmUnsupportedRequest (.border 0) .requestCode, [.spdmUnsupportedRequest (.border 8) .requestCode])] = true := by decide +kernel

theorem smoke_14 : smoke [
  (.invalidInstruction ⟨0, 0, 0⟩ 0, [.invalidInstruction ⟨16, 0, 0⟩ 0]),
  (.pgAonAssert 0, [.pgAonAssert big])] = true := by decide +kernel

theorem witness_StepRunsTheFrontCommand :
    ∃ (s : State), s.pending = [] :=
  ⟨svc, by and_intros <;> decide +kernel⟩

theorem witness_EveryStepKeepsTheMemoriesCanonical :
    ∃ (s : State) (t : State), s.MemoryOk = true ∧ step s = .next t :=
  ⟨svc, svc.tick, by and_intros <;> first | decide +kernel | rfl⟩

theorem witness_RollbackFloorsOnlyRise :
    (∃ (s : State) (t : State), step s = .next t) ∧
    (∃ (s : State) (t : State), step s = .next t) ∧
    (∃ (s : State) (t : State), step s = .next t ∧ s.boot.signer.isSome = true) ∧
    (∃ (s : State), s.sys.aon = true ∧ s.sys.devRst = true) :=
  ⟨⟨svc, svc.tick, by and_intros <;> first | decide +kernel | rfl⟩,
   ⟨svc, svc.tick, by and_intros <;> first | decide +kernel | rfl⟩,
   ⟨({svc with boot.signer := some 3} : State), (({svc with boot.signer := some 3} : State).tick),
     by and_intros <;> first | decide +kernel | rfl⟩,
   ⟨State.reset, by and_intros <;> decide +kernel⟩⟩

theorem witness_AdminCommandsOutsideTheRangeAreRefused :
    (∃ (s : State) (o : Origin) (g : Nat) (c : Instr), s.serves = true ∧ s.fnExists o.q.fnId = true ∧ s.linkHas o.q.link g = false ∧
      ((∃ tk td ql fl, c = .openGlove o g tk td ql fl) ∨ c = .closeGlove o g ∨ (∃ h ro gr m a, c = .grantPages o g h ro gr m a) ∨
      (∃ mode gr m a, c = .reclaimPages o g mode gr m a) ∨ (∃ mask sh ql fl r, c = .setLimits o g mask sh ql fl r) ∨ (∃ sl im,
      c = .setPeerWindow o g sl im) ∨ (∃ sl, c = .clearPeerWindow o g sl) ∨ (o.q.fn = 0 ∧ g ≠ 0xFFFF ∧ ∃ first buf len,
      c = .getUsage o g first buf len))) ∧
    (∃ (s : State) (o : Origin) (g : Nat) (c : Instr), s.serves = true ∧ s.fnExists o.q.fnId = true ∧ s.linkHas o.q.link g = false ∧
      ((∃ tk td ql fl, c = .openGlove o g tk td ql fl) ∨ c = .closeGlove o g ∨ (∃ h ro gr m a, c = .grantPages o g h ro gr m a) ∨
      (∃ mode gr m a, c = .reclaimPages o g mode gr m a) ∨ (∃ mask sh ql fl r, c = .setLimits o g mask sh ql fl r) ∨ (∃ sl im,
      c = .setPeerWindow o g sl im) ∨ (∃ sl, c = .clearPeerWindow o g sl) ∨ (o.q.fn = 0 ∧ g ≠ 0xFFFF ∧ ∃ first buf len,
      c = .getUsage o g first buf len))) :=
  ⟨⟨svq, oa, 8, .openGlove oa 8 false false 0 0, by and_intros <;> first | decide +kernel | simp⟩,
   ⟨svq, oa, 8, .getUsage oa 8 0 0 64,
     by and_intros <;> first | decide +kernel | rfl | (simp; decide +kernel)⟩⟩

theorem witness_PeerPagesInKeyPendingAreRefused :
    (∃ (s : State) (o : Origin) (g : Nat) (m : _) (start : _) (home : _), s.AdminRuns o g ∧ (s.glove g).state = .keyPending ∧
      start % 0x200000 = 0 ∧ 0 < m ∧ home ≠ s.boot.cfg.pos ∧ s.peerKnown home = true) ∧
    (∃ (s : State) (o : Origin) (g : Nat) (m : _) (start : _), s.AdminRuns o g ∧ (s.glove g).state = .keyPending ∧ start % 0x200000 = 0 ∧
      0 < m ∧ start + m * 0x200000 ≤ s.span o.q.link ∧ (∀ i < m, (s.pte g (start / 0x200000 + i)).valid = false ∧
      s.granting g (start / 0x200000 + i) = false) ∧ s.grantsStopped = false ∧ m ≤ s.freeCount) :=
  ⟨⟨(svq.modGlove 0 (fun x => { x with state := .keyPending })), oa, 0, 2, 0x3FC00000, 1, by and_intros <;> decide +kernel⟩,
   ⟨(svq.modGlove 0 (fun x => { x with state := .keyPending })), oa, 0, 2, 0x3FC00000, by and_intros <;> decide +kernel⟩⟩

theorem witness_DoorbellIsEvaluatedByTheProcedure :
    (∃ (s : State) (q : QId) (v : BitVec 32), s.bar0On q.fnId = true ∧ (s.queue q).enable = true ∧ (s.queue q).faulted = false ∧
      (v - (s.queue q).head).toNat ≤ 2 ^ (s.queue q).size ∧ ((s.queue q).tail - (s.queue q).head).toNat ≤ (v - (s.queue q).head).toNat) ∧
    (∃ (s : State) (q : QId) (v : BitVec 32), s.bar0On q.fnId = true ∧ (s.queue q).enable = true ∧ (s.queue q).faulted = false ∧
      (v - (s.queue q).head).toNat ≤ 2 ^ (s.queue q).size ∧ ((s.queue q).tail - (s.queue q).head).toNat ≤ (v - (s.queue q).head).toNat) ∧
    (∃ (s : State) (q : QId) (v : BitVec 32) (code : _), s.bar0On q.fnId = true ∧ ((s.queue q).enable = false ∧ code = 0x0404 ∨
      (s.queue q).enable = true ∧ (s.queue q).faulted = true ∧ code = 0x0408 ∨ (s.queue q).enable = true ∧ (s.queue q).faulted = false ∧
      2 ^ (s.queue q).size < (v - (s.queue q).head).toNat ∧ code = 0x0400 ∨ (s.queue q).enable = true ∧ (s.queue q).faulted = false ∧
      (v - (s.queue q).head).toNat ≤ 2 ^ (s.queue q).size ∧ (v - (s.queue q).head).toNat < ((s.queue q).tail - (s.queue q).head).toNat ∧
      code = 0x0409)) ∧
    (∃ (s : State) (q : QId) (v : BitVec 32) (code : _), s.bar0On q.fnId = true ∧ ((s.queue q).enable = false ∧ code = 0x0404 ∨
      (s.queue q).enable = true ∧ (s.queue q).faulted = true ∧ code = 0x0408 ∨ (s.queue q).enable = true ∧ (s.queue q).faulted = false ∧
      2 ^ (s.queue q).size < (v - (s.queue q).head).toNat ∧ code = 0x0400 ∨ (s.queue q).enable = true ∧ (s.queue q).faulted = false ∧
      (v - (s.queue q).head).toNat ≤ 2 ^ (s.queue q).size ∧ (v - (s.queue q).head).toNat < ((s.queue q).tail - (s.queue q).head).toNat ∧
      code = 0x0409)) ∧
    (∃ (s : State) (q : QId) (v : BitVec 32) (code : _), s.bar0On q.fnId = true ∧ ((s.queue q).enable = false ∧ code = 0x0404 ∨
      (s.queue q).enable = true ∧ (s.queue q).faulted = true ∧ code = 0x0408 ∨ (s.queue q).enable = true ∧ (s.queue q).faulted = false ∧
      2 ^ (s.queue q).size < (v - (s.queue q).head).toNat ∧ code = 0x0400 ∨ (s.queue q).enable = true ∧ (s.queue q).faulted = false ∧
      (v - (s.queue q).head).toNat ≤ 2 ^ (s.queue q).size ∧ (v - (s.queue q).head).toNat < ((s.queue q).tail - (s.queue q).head).toNat ∧
      code = 0x0409)) ∧
    (∃ (s : State) (q : QId) (v : BitVec 32) (code : _), s.bar0On q.fnId = true ∧ ((s.queue q).enable = false ∧ code = 0x0404 ∨
      (s.queue q).enable = true ∧ (s.queue q).faulted = true ∧ code = 0x0408 ∨ (s.queue q).enable = true ∧ (s.queue q).faulted = false ∧
      2 ^ (s.queue q).size < (v - (s.queue q).head).toNat ∧ code = 0x0400 ∨ (s.queue q).enable = true ∧ (s.queue q).faulted = false ∧
      (v - (s.queue q).head).toNat ≤ 2 ^ (s.queue q).size ∧ (v - (s.queue q).head).toNat < ((s.queue q).tail - (s.queue q).head).toNat ∧
      code = 0x0409)) :=
  ⟨⟨(svc.modQueue qw (fun _ => { enable := true, size := 4, head := 3, tail := 5 })), qw, 19, by and_intros <;> decide +kernel⟩,
   ⟨(svc.modQueue qw (fun _ => { enable := true, size := 4, head := 3, tail := 5 })), qw, 5, by and_intros <;> decide +kernel⟩,
   ⟨(svc.modQueue qw (fun _ => { enable := true, size := 4, head := 3, tail := 5 })), ⟨0,1,2⟩, 0, 0x0404,
     by and_intros <;> decide +kernel⟩,
   ⟨((svc.modQueue qw (fun _ => { enable := true, size := 4, head := 3, tail := 5 })).modQueue qw (fun x => { x with faulted := true })),
     qw, 19, 0x0408, by and_intros <;> decide +kernel⟩,
   ⟨(svc.modQueue qw (fun _ => { enable := true, size := 4, head := 3, tail := 5 })), qw, 20, 0x0400, by and_intros <;> decide +kernel⟩,
   ⟨(svc.modQueue qw (fun _ => { enable := true, size := 4, head := 3, tail := 5 })), qw, 4, 0x0409, by and_intros <;> decide +kernel⟩⟩

theorem witness_QueueConfigurationCommandsComplete :
    (∃ (s : State) (f : FnId) (v : BitVec 32), s.bar0On f = true ∧ bitAt v.toNat 31 = true ∧ (s.queue ⟨f.link, f.fn, 0⟩).enable = false ∧
      f.fn ≠ 0 ∧ 4 ≤ bits v.toNat 4 0 ∧ bits v.toNat 4 0 ≤ 16 ∧ bits v.toNat 26 16 ≤ 63) ∧
    (∃ (s : State) (f : FnId) (v : BitVec 32), s.bar0On f = true ∧ bitAt v.toNat 31 = true ∧ (s.queue ⟨f.link, f.fn, 0⟩).enable = false ∧
      f.fn ≠ 0 ∧ 4 ≤ bits v.toNat 4 0 ∧ bits v.toNat 4 0 ≤ 16 ∧ bits v.toNat 26 16 ≤ 63) ∧
    (∃ (s : State) (l : Nat) (v : BitVec 32), s.bar0On ⟨l, 0⟩ = true ∧ bitAt v.toNat 31 = true ∧ (s.queue ⟨l, 0, 0⟩).enable = false ∧
      bitAt v.toNat 8 = false ∧ bitAt v.toNat 9 = false ∧ 4 ≤ bits v.toNat 4 0 ∧ bits v.toNat 4 0 ≤ 16) ∧
    (∃ (s : State) (f : FnId), s.bar0On f = true ∧ (s.queue ⟨f.link, f.fn, 0⟩).enable = true ∧ ((s.queue ⟨f.link, f.fn,
      0⟩).head = (s.queue ⟨f.link, f.fn, 0⟩).tail ∨ (s.queue ⟨f.link, f.fn, 0⟩).faulted = true)) ∧
    (∃ (s : State) (f : FnId), s.bar0On f = true ∧ (s.queue ⟨f.link, f.fn, 0⟩).enable = true ∧ ((s.queue ⟨f.link, f.fn,
      0⟩).head = (s.queue ⟨f.link, f.fn, 0⟩).tail ∨ (s.queue ⟨f.link, f.fn, 0⟩).faulted = true)) ∧
    (∃ (s : State) (f : FnId), s.bar0On f = true ∧ (s.queue ⟨f.link, f.fn, 0⟩).enable = true ∧ (s.queue ⟨f.link, f.fn,
      0⟩).head ≠ (s.queue ⟨f.link, f.fn, 0⟩).tail ∧ (s.queue ⟨f.link, f.fn, 0⟩).faulted = false) ∧
    (∃ (s : State) (o : Origin) (num : Nat) (size : Nat) (finger : Nat) (vector : Nat) (ring : Nat) (head : Nat), s.serves = true ∧
      s.sys.mode ≠ .drain ∧ s.fnExists o.q.fnId = true ∧ o.q.fn ≠ 0 ∧ (s.glove (s.gloveOf o.q.fnId)).state = .opened ∧ ring % 4096 = 0 ∧
      head % 4 = 0 ∧ 1 ≤ num ∧ num ≤ (s.glove (s.gloveOf o.q.fnId)).queueLimit ∧ num ≤ 64 ∧ 4 ≤ size ∧ size ≤ 16 ∧
      finger < (s.glove (s.gloveOf o.q.fnId)).fingerLimit ∧ vector ≤ 63 ∧ (s.queue ⟨o.q.link, o.q.fn, num⟩).enable = false ∧
      s.workQueues (linkQuad o.q.link) < 4096 ∧ QId.key o.q ≠ QId.key ⟨o.q.link, o.q.fn, num⟩) ∧
    (∃ (s : State) (o : Origin) (num : Nat) (size : Nat) (finger : Nat) (vector : Nat) (ring : Nat) (head : Nat), s.serves = true ∧
      s.sys.mode ≠ .drain ∧ s.fnExists o.q.fnId = true ∧ o.q.fn ≠ 0 ∧ (s.glove (s.gloveOf o.q.fnId)).state = .opened ∧ ring % 4096 = 0 ∧
      head % 4 = 0 ∧ 1 ≤ num ∧ num ≤ (s.glove (s.gloveOf o.q.fnId)).queueLimit ∧ num ≤ 64 ∧ 4 ≤ size ∧ size ≤ 16 ∧
      finger < (s.glove (s.gloveOf o.q.fnId)).fingerLimit ∧ vector ≤ 63 ∧ (s.queue ⟨o.q.link, o.q.fn, num⟩).enable = false ∧
      s.workQueues (linkQuad o.q.link) < 4096 ∧ QId.key o.q ≠ QId.key ⟨o.q.link, o.q.fn, num⟩) ∧
    (∃ (s : State) (o : Origin) (num : Nat), s.serves = true ∧ s.fnExists o.q.fnId = true ∧ o.q.fn ≠ 0 ∧
      (s.glove (s.gloveOf o.q.fnId)).state = .opened ∧ 1 ≤ num ∧ num ≤ 64 ∧ (s.queue ⟨o.q.link, o.q.fn, num⟩).enable = true ∧
      ((s.queue ⟨o.q.link, o.q.fn, num⟩).head = (s.queue ⟨o.q.link, o.q.fn, num⟩).tail ∨ (s.queue ⟨o.q.link, o.q.fn,
      num⟩).faulted = true) ∧ QId.key o.q ≠ QId.key ⟨o.q.link, o.q.fn, num⟩) ∧
    (∃ (s : State) (o : Origin) (num : Nat), s.serves = true ∧ s.fnExists o.q.fnId = true ∧ o.q.fn ≠ 0 ∧
      (s.glove (s.gloveOf o.q.fnId)).state = .opened ∧ 1 ≤ num ∧ num ≤ 64 ∧ (s.queue ⟨o.q.link, o.q.fn, num⟩).enable = true ∧
      ((s.queue ⟨o.q.link, o.q.fn, num⟩).head = (s.queue ⟨o.q.link, o.q.fn, num⟩).tail ∨ (s.queue ⟨o.q.link, o.q.fn,
      num⟩).faulted = true) ∧ QId.key o.q ≠ QId.key ⟨o.q.link, o.q.fn, num⟩) :=
  ⟨⟨svc, ⟨0,1⟩, 0x803F2310, by and_intros <;> decide +kernel⟩,
   ⟨svc, ⟨0,1⟩, 0x80000004, by and_intros <;> decide +kernel⟩,
   ⟨svc, 0, 0x80000010, by and_intros <;> decide +kernel⟩,
   ⟨(svc.modQueue qc (fun _ => { enable := true, head := 2, tail := 2 })), ⟨0,1⟩, by and_intros <;> decide +kernel⟩,
   ⟨({ svc.modQueue qc (fun _ => { enable := true, head := 1, tail := 2, faulted := true }) with net.outst := [{ unit := queueUnit 0, tag := 5, ctx := .qHead qc 1, pkt := { op := .memWr }, left := 1 }], work.crownWork := [.clearRuleFault ⟨qc, 1⟩] } : State),
     ⟨0,1⟩, by and_intros <;> decide +kernel⟩,
   ⟨(svc.modQueue qc (fun _ => { enable := true, head := 1, tail := 2 })), ⟨0,1⟩, by and_intros <;> decide +kernel⟩,
   ⟨svc, oc, 4, 16, 1, 63, 4096, 4, by and_intros <;> decide +kernel⟩,
   ⟨svc, oc, 1, 4, 0, 0, 0, 0, by and_intros <;> decide +kernel⟩,
   ⟨({ svc.modQueue qw (fun _ => { enable := true, head := 1, tail := 2, faulted := true }) with net.outst := [{ unit := queueUnit 0, tag := 5, ctx := .qResult qw 1, pkt := { op := .memWr }, left := 1 }] } : State),
     oc, 1, by and_intros <;> decide +kernel⟩,
   ⟨(svc.modQueue ⟨0, 1, 64⟩ (fun _ => { enable := true, head := 2, tail := 2 })), oc, 64, by and_intros <;> decide +kernel⟩⟩

theorem witness_QueueServiceCommandsComplete :
    (∃ (s : State) (q : QId) (n : Nat) (first : BitVec 32), s.qRuns q = true ∧ (s.queue q).ringGlove = false ∧
      first = (s.queue q).fetch + BitVec.ofNat 32 ((s.queue q).fetching.map Prod.snd).sum ∧
      n = min (min 8 ((s.queue q).tail - first).toNat) (min (fetchLimit q - (first - (s.queue q).head).toNat) (min (64 - first.toNat % 2 ^ (s.queue q).size % 64) (2 ^ (s.queue q).size - first.toNat % 2 ^ (s.queue q).size))) ∧
      n ≠ 0) ∧
    (∃ (s : State) (q : QId) (n : Nat) (first : BitVec 32), s.qRuns q = true ∧ (s.queue q).ringGlove = false ∧
      first = (s.queue q).fetch + BitVec.ofNat 32 ((s.queue q).fetching.map Prod.snd).sum ∧
      n = min (min 8 ((s.queue q).tail - first).toNat) (min (fetchLimit q - (first - (s.queue q).head).toNat) (min (64 - first.toNat % 2 ^ (s.queue q).size % 64) (2 ^ (s.queue q).size - first.toNat % 2 ^ (s.queue q).size))) ∧
      n ≠ 0) ∧
    (∃ (s : State) (q : QId) (e : Entry) (c : Instr), s.qRuns q = true ∧ s.nextStart q [] (s.queue q).entries = some e ∧ decodeEntry ⟨q,
      e.idx⟩ ((s.qGlove q).getD 0) (s.queue q).finger e.bytes = .inr c) ∧
    (∃ (s : State) (q : QId) (e : Entry) (code : Nat), s.qRuns q = true ∧ s.nextStart q [] (s.queue q).entries = some e ∧ decodeEntry ⟨q,
      e.idx⟩ ((s.qGlove q).getD 0) (s.queue q).finger e.bytes = .inl code) ∧
    (∃ (s : State) (q : QId) (e : Entry) (code : Nat) (result : Nat), s.qRuns q = true ∧ (s.queue q).ringGlove = false ∧
      (s.queue q).entries.find? (fun e => e.wr == 0) = some e ∧ e.done = some (code, result)) ∧
    (∃ (s : State) (q : QId), s.qRuns q = true ∧ (s.queue q).headGlove = false ∧ (s.queue q).headWr = none ∧
      ackedPrefix (s.queue q).entries ≠ []) ∧
    (∃ (s : State) (q : QId) (v : BitVec 32), s.serves = true ∧ (s.queue q).headWr = some (v, true) ∧ (s.queue q).head = v) ∧
    (∃ (s : State) (q : QId) (v : BitVec 32), s.serves = true ∧ (s.queue q).headWr = some (v, true) ∧ (s.queue q).head = v) ∧
    (∃ (s : State) (u : State) (q : QId) (n : Nat) (sp : Nat) (l : Option Nat) (first : BitVec 32), s.qRuns q = true ∧
      first = (s.queue q).fetch + BitVec.ofNat 32 ((s.queue q).fetching.map Prod.snd).sum ∧
      n = min (min 8 ((s.queue q).tail - first).toNat) (min (fetchLimit q - (first - (s.queue q).head).toNat) (min (64 - first.toNat % 2 ^ (s.queue q).size % 64) (2 ^ (s.queue q).size - first.toNat % 2 ^ (s.queue q).size))) ∧
      n ≠ 0 ∧
      s.issue (s.qAccess q (s.queue q).ringGlove .memRd ((s.queue q).ring + 64 * (first.toNat % 2 ^ (s.queue q).size)) (64 * n) []) (fun _ => .qFetch q first.toNat n) = .sent u sp l) ∧
    (∃ (s : State) (u : State) (q : QId) (e : Entry) (code : Nat) (result : Nat) (sp : Nat) (l : Option Nat), s.qRuns q = true ∧
      (s.queue q).entries.find? (fun e => e.wr == 0) = some e ∧ e.done = some (code, result) ∧
      s.issue (s.qAccess q (s.queue q).ringGlove .memWr ((s.queue q).ring + 64 * (e.idx % 2 ^ (s.queue q).size) + 56) 8 (leBytes 8 (code % 65536 + result * 65536))) (fun _ => .qResult q e.idx) = .sent u sp l) ∧
    (∃ (s : State) (q : QId), s.qRuns q = true ∧ ackedPrefix (s.queue q).entries ≠ []) ∧
    (∃ (s : State) (q : QId), s.qRuns q = true ∧ ackedPrefix (s.queue q).entries ≠ []) ∧
    (∃ (s : State) (q : QId) (v : BitVec 32), s.serves = true ∧ (s.queue q).headWr = some (v, true) ∧ (s.queue q).head ≠ v ∧
      s.qRuns q = true ∧ (s.queue q).vector = 0) :=
  ⟨⟨(svc.modQueue qw (fun _ => { enable := true, size := 4, ring := 0x10000, headAddr := 0x20000, tail := 12 })), qw, 8, 0,
     by and_intros <;> decide +kernel⟩,
   ⟨(svc.modQueue qw (fun _ => { enable := true, size := 4, head := 13, fetch := 15, tail := 20 })), qw, 1, 15,
     by and_intros <;> decide +kernel⟩,
   ⟨(svc.modQueue qc (fun _ => { enable := true, size := 4, tail := 1, fetch := 1, entries := [{ idx := 0, bytes := 0x14 }] })), qc,
     { idx := 0, bytes := 0x14 }, .clearRuleFault ⟨qc, 0⟩, by and_intros <;> decide +kernel⟩,
   ⟨(svc.modQueue qc (fun _ => { enable := true, size := 4, tail := 1, fetch := 1, entries := [{ idx := 0, bytes := 0x21 }] })), qc,
     { idx := 0, bytes := 0x21 }, 0x0001, by and_intros <;> decide +kernel⟩,
   ⟨(svc.modQueue qw (fun _ => { enable := true, size := 4, ring := 0x10000, entries := [{ idx := 0, bytes := 0, started := true, done := some (1, 2) }] })),
     qw, { idx := 0, bytes := 0, started := true, done := some (1, 2) }, 1, 2, by and_intros <;> decide +kernel⟩,
   ⟨(svc.modQueue qw (fun _ => { enable := true, size := 4, ring := 0x10000, entries := [{ idx := 0, bytes := 0, wr := 2 }, { idx := 1, bytes := 0 }] })),
     qw, by and_intros <;> decide +kernel⟩,
   ⟨(svc.modQueue qw (fun _ => { enable := true, size := 4, vector := 3, head := 2, headWr := some (2, true), iocs := 2 })), qw, 2,
     by and_intros <;> decide +kernel⟩,
   ⟨(svc.modQueue qw (fun _ => { enable := true, size := 4, head := 2, headWr := some (2, true), iocs := 2 })), qw, 2,
     by and_intros <;> decide +kernel⟩,
   ⟨(svc.modQueue qw (fun _ => { enable := true, size := 4, ring := 0x10000, headAddr := 0x20000, tail := 12 })),
     sentSt (State.issue (svc.modQueue qw (fun _ => { enable := true, size := 4, ring := 0x10000, headAddr := 0x20000, tail := 12 })) (State.qAccess (svc.modQueue qw (fun _ => { enable := true, size := 4, ring := 0x10000, headAddr := 0x20000, tail := 12 })) qw false .memRd (0x10000 + 64 * 0) (64 * 8) []) (fun _ => .qFetch qw 0 8)),
     qw, 8,
     sentSp (State.issue (svc.modQueue qw (fun _ => { enable := true, size := 4, ring := 0x10000, headAddr := 0x20000, tail := 12 })) (State.qAccess (svc.modQueue qw (fun _ => { enable := true, size := 4, ring := 0x10000, headAddr := 0x20000, tail := 12 })) qw false .memRd (0x10000 + 64 * 0) (64 * 8) []) (fun _ => .qFetch qw 0 8)),
     sentLk (State.issue (svc.modQueue qw (fun _ => { enable := true, size := 4, ring := 0x10000, headAddr := 0x20000, tail := 12 })) (State.qAccess (svc.modQueue qw (fun _ => { enable := true, size := 4, ring := 0x10000, headAddr := 0x20000, tail := 12 })) qw false .memRd (0x10000 + 64 * 0) (64 * 8) []) (fun _ => .qFetch qw 0 8)),
     0, by and_intros <;> first | decide +kernel | rfl⟩,
   ⟨(svc.modQueue qw (fun _ => { enable := true, size := 4, ring := 0x10000, entries := [{ idx := 0, bytes := 0, started := true, done := some (1, 2) }] })),
     sentSt (State.issue (svc.modQueue qw (fun _ => { enable := true, size := 4, ring := 0x10000, entries := [{ idx := 0, bytes := 0, started := true, done := some (1, 2) }] })) (State.qAccess (svc.modQueue qw (fun _ => { enable := true, size := 4, ring := 0x10000, entries := [{ idx := 0, bytes := 0, started := true, done := some (1, 2) }] })) qw false .memWr (0x10000 + 64 * 0 + 56) 8 (leBytes 8 (1 + 2 * 65536))) (fun _ => .qResult qw 0)),
     qw, { idx := 0, bytes := 0, started := true, done := some (1, 2) }, 1, 2,
     sentSp (State.issue (svc.modQueue qw (fun _ => { enable := true, size := 4, ring := 0x10000, entries := [{ idx := 0, bytes := 0, started := true, done := some (1, 2) }] })) (State.qAccess (svc.modQueue qw (fun _ => { enable := true, size := 4, ring := 0x10000, entries := [{ idx := 0, bytes := 0, started := true, done := some (1, 2) }] })) qw false .memWr (0x10000 + 64 * 0 + 56) 8 (leBytes 8 (1 + 2 * 65536))) (fun _ => .qResult qw 0)),
     sentLk (State.issue (svc.modQueue qw (fun _ => { enable := true, size := 4, ring := 0x10000, entries := [{ idx := 0, bytes := 0, started := true, done := some (1, 2) }] })) (State.qAccess (svc.modQueue qw (fun _ => { enable := true, size := 4, ring := 0x10000, entries := [{ idx := 0, bytes := 0, started := true, done := some (1, 2) }] })) qw false .memWr (0x10000 + 64 * 0 + 56) 8 (leBytes 8 (1 + 2 * 65536))) (fun _ => .qResult qw 0)),
     by and_intros <;> first | decide +kernel | rfl⟩,
   ⟨(svc.modQueue qw (fun _ => { enable := true, size := 4, ring := 0x10000, entries := [{ idx := 0, bytes := 256, wr := 2 }, { idx := 1, bytes := 0 }] })),
     qw, by and_intros <;> decide +kernel⟩,
   ⟨(svc.modQueue qw (fun _ => { enable := true, size := 4, headGlove := true, ring := 0x10000, headWr := some (1, true), head := 5, entries := [{ idx := 5, bytes := 256, wr := 2 }, { idx := 6, bytes := 0, wr := 2 }] })),
     qw, by and_intros <;> decide +kernel⟩,
   ⟨(svc.modQueue qw (fun _ => { enable := true, size := 4, head := 5, headWr := some (2, true), iocs := 2 })), qw, 2,
     by and_intros <;> decide +kernel⟩⟩

theorem witness_RuleCommandsComplete :
    (∃ (s : State) (o : Origin) (gs : _) (addr : _), s.ControlRuns o ∧ addr % 16 = 0 ∧
      s.changeWaits (.setRules o 0 gs addr) (s.gloveOf o.q.fnId) = false) ∧
    (∃ (s : State) (o : Origin) (n : _) (addr : _), s.ControlRuns o ∧ addr % 16 = 0 ∧ 0 < n ∧ 16 * n ≤ 4096 - addr % 4096 ∧
      s.changeWaits (.setRules o n false addr) (s.gloveOf o.q.fnId) = false) ∧
    (∃ (s : State) (o : Origin) (n : _) (addr : _), s.ControlRuns o ∧ addr % 16 = 0 ∧ 0 < n ∧ 16 * n ≤ 4096 - addr % 4096 ∧
      s.changeWaits (.setRules o n false addr) (s.gloveOf o.q.fnId) = false) ∧
    (∃ (s : State) (o : Origin) (buf : _), s.ControlRuns o ∧ buf % 32 = 0) ∧
    (∃ (s : State) (o : Origin), s.ControlRuns o) ∧
    (∃ (s : State) (o : Origin) (n : _) (gs : _) (addr : _), s.ControlRuns o ∧ addr % 16 = 0 ∧ 0 < n ∧
      s.changeWaits (.setRules o n gs addr) (s.gloveOf o.q.fnId) = false ∧ s.rulesWait o (s.gloveOf o.q.fnId) n gs addr = none) ∧
    (∃ (s : State) (o : Origin) (n : _) (gs : _) (addr : _), s.ControlRuns o ∧ addr % 16 = 0 ∧ 0 < n ∧
      s.changeWaits (.setRules o n gs addr) (s.gloveOf o.q.fnId) = false ∧ s.rulesWait o (s.gloveOf o.q.fnId) n gs addr = none) :=
  ⟨⟨svq, oc, false, 16, by and_intros <;> decide +kernel⟩,
   ⟨svq, oc, 64, 0x1C00, by and_intros <;> decide +kernel⟩,
   ⟨svq, oc, 1, 0x1FF0, by and_intros <;> decide +kernel⟩,
   ⟨svq, oc, 32, by and_intros <;> decide +kernel⟩,
   ⟨svq, oc, by and_intros <;> decide +kernel⟩,
   ⟨svq, oc, 64, false, 0x1FC0, by and_intros <;> decide +kernel⟩,
   ⟨svq, oc, 3, false, 0x10, by and_intros <;> decide +kernel⟩⟩

theorem witness_FingerControlTokensAndEventsComplete :
    (∃ (s : State) (o : Origin) (f : Nat) (share : _) (burst : _), s.ControlRuns o ∧ f < (s.glove (s.gloveOf o.q.fnId)).fingerLimit ∧
      (s.finger ⟨o.q.link, o.q.fn, f⟩).state = .stopped ∧ (s.finger ⟨o.q.link, o.q.fn, f⟩).engine ≠ none ∧ burst % 64 = 0 ∧ 0 < burst ∧
      burst ≤ 2 ^ 20 ∧ 0 < share ∧ share ≤ (s.glove (s.gloveOf o.q.fnId)).rate ∧ ((s.glove (s.gloveOf o.q.fnId)).tdisp = true →
      (s.glove (s.gloveOf o.q.fnId)).tdi = .run)) ∧
    (∃ (s : State) (o : Origin) (f : Nat), s.ControlRuns o ∧ f < (s.glove (s.gloveOf o.q.fnId)).fingerLimit ∧ (s.finger ⟨o.q.link, o.q.fn,
      f⟩).state = .stopped ∧ (s.finger ⟨o.q.link, o.q.fn, f⟩).stop = none) ∧
    (∃ (s : State) (o : Origin) (f : Nat), s.ControlRuns o ∧ f < (s.glove (s.gloveOf o.q.fnId)).fingerLimit ∧ (s.finger ⟨o.q.link, o.q.fn,
      f⟩).state = .running ∧ (s.finger ⟨o.q.link, o.q.fn, f⟩).stop = none ∧ (s.finger ⟨o.q.link, o.q.fn, f⟩).halt = none ∧
      s.fgAtBoundary ⟨o.q.link, o.q.fn, f⟩ = true ∧ (s.finger ⟨o.q.link, o.q.fn, f⟩).entry = none) ∧
    (∃ (s : State) (o : Origin) (f : Nat) (e : _), s.ControlRuns o ∧ f < (s.glove (s.gloveOf o.q.fnId)).fingerLimit ∧ (s.finger ⟨o.q.link,
      o.q.fn, f⟩).state = .halted ∧ (s.finger ⟨o.q.link, o.q.fn, f⟩).stop = none ∧ (s.finger ⟨o.q.link, o.q.fn, f⟩).entry = some e ∧
      e.q.key ≠ o.q.key) ∧
    (∃ (s : State) (o : Origin) (f : Nat) (share : Nat) (burst : Nat), s.serves = true ∧ s.fnExists o.q.fnId = true ∧ (o.q.fn = 0 ∨
      s.blankGlove (s.gloveOf o.q.fnId) = false) ∧ burst % 64 = 0 ∧ 0 < burst ∧ burst ≤ 2 ^ 20 ∧ f < (s.fgLimits o.q).1 ∧ 0 < share ∧
      share ≤ (s.fgLimits o.q).2 ∧ s.fgBarred o.q = false ∧ (s.finger ⟨o.q.link, o.q.fn, f⟩).state ≠ .running ∧ ((s.finger ⟨o.q.link,
      o.q.fn, f⟩).engine ≠ none ∨ s.noPlace ⟨o.q.link, o.q.fn, f⟩ = false)) ∧
    (∃ (s : State) (o : Origin) (f : Nat) (share : Nat) (burst : Nat), s.serves = true ∧ s.fnExists o.q.fnId = true ∧ (o.q.fn = 0 ∨
      s.blankGlove (s.gloveOf o.q.fnId) = false) ∧ burst % 64 = 0 ∧ 0 < burst ∧ burst ≤ 2 ^ 20 ∧ f < (s.fgLimits o.q).1 ∧ 0 < share ∧
      share ≤ (s.fgLimits o.q).2 ∧ s.fgBarred o.q = false ∧ (s.finger ⟨o.q.link, o.q.fn, f⟩).state ≠ .running ∧ ((s.finger ⟨o.q.link,
      o.q.fn, f⟩).engine ≠ none ∨ s.noPlace ⟨o.q.link, o.q.fn, f⟩ = false)) ∧
    (∃ (s : State) (o : Origin) (f : Nat) (share : Nat) (burst : Nat), s.serves = true ∧ s.fnExists o.q.fnId = true ∧ (o.q.fn = 0 ∨
      s.blankGlove (s.gloveOf o.q.fnId) = false) ∧ burst % 64 = 0 ∧ 0 < burst ∧ burst ≤ 2 ^ 20 ∧ f < (s.fgLimits o.q).1 ∧ 0 < share ∧
      share ≤ (s.fgLimits o.q).2 ∧ s.fgBarred o.q = false ∧ (s.finger ⟨o.q.link, o.q.fn, f⟩).state ≠ .running ∧ ((s.finger ⟨o.q.link,
      o.q.fn, f⟩).engine ≠ none ∨ s.noPlace ⟨o.q.link, o.q.fn, f⟩ = false)) ∧
    (∃ (s : State) (o : Origin) (f : Nat) (share : Nat) (burst : Nat), s.serves = true ∧ s.fnExists o.q.fnId = true ∧ (o.q.fn = 0 ∨
      s.blankGlove (s.gloveOf o.q.fnId) = false) ∧ burst % 64 = 0 ∧ 0 < burst ∧ burst ≤ 2 ^ 20 ∧ f < (s.fgLimits o.q).1 ∧ 0 < share ∧
      share ≤ (s.fgLimits o.q).2 ∧ s.fgBarred o.q = false ∧ (s.finger ⟨o.q.link, o.q.fn, f⟩).state ≠ .running ∧ ((s.finger ⟨o.q.link,
      o.q.fn, f⟩).engine ≠ none ∨ s.noPlace ⟨o.q.link, o.q.fn, f⟩ = false)) ∧
    (∃ (s : State) (o : Origin) (f : Nat), s.serves = true ∧ s.fnExists o.q.fnId = true ∧ (o.q.fn = 0 ∨
      s.blankGlove (s.gloveOf o.q.fnId) = false) ∧ f < (s.fgLimits o.q).1 ∧ (s.finger ⟨o.q.link, o.q.fn, f⟩).stop = none ∧
      (s.finger ⟨o.q.link, o.q.fn, f⟩).state = .running) ∧
    (∃ (s : State) (o : Origin) (f : Nat), s.serves = true ∧ s.fnExists o.q.fnId = true ∧ (o.q.fn = 0 ∨
      s.blankGlove (s.gloveOf o.q.fnId) = false) ∧ f < (s.fgLimits o.q).1 ∧ (s.finger ⟨o.q.link, o.q.fn, f⟩).stop = none ∧
      (s.finger ⟨o.q.link, o.q.fn, f⟩).state = .running) ∧
    (∃ (s : State) (f : FnId), s.bar0On f = true ∧ (s.fn f).waiters = []) ∧
    (∃ (s : State) (f : FnId), s.bar0On f = true) ∧
    (∃ (s : State) (f : FnId) (b : BitVec 32) (i : Nat) (w : Waiting), s.bar0On f = true ∧ (s.fn f).waiters = [i] ∧ (s.finger ⟨f.link,
      f.fn, i⟩).waiting = some w ∧ w.kind = 2 ∧ ((s.fn f).events ||| b) &&& w.mask.setWidth 32 ≠ 0 ∧ (s.finger ⟨f.link, f.fn,
      i⟩).state = .running ∧ (s.finger ⟨f.link, f.fn, i⟩).halt = none ∧ (s.finger ⟨f.link, f.fn, i⟩).stop = none ∧ (s.finger ⟨f.link,
      f.fn, i⟩).stopCode = none) :=
  ⟨⟨(svq.modFinger fg (fun _ => { engine := some (engineUnit 0) })), oc, 0, 64, 1048576, by and_intros <;> decide +kernel⟩,
   ⟨(svq.modFinger fg (fun _ => { engine := some (engineUnit 0) })), oc, 0, by and_intros <;> decide +kernel⟩,
   ⟨(svq.modFinger fg (fun _ => fgRun)), oc, 0, by and_intros <;> decide +kernel⟩,
   ⟨(svq.modFinger fg (fun _ => { fgRun with state := .halted, entry := some ow, haltCode := 0x0500 })), oc, 0, ow,
     by and_intros <;> decide +kernel⟩,
   ⟨(svq.modFinger fg (fun _ => { engine := some (engineUnit 0) })), oc, 0, 64, 1048576, by and_intros <;> decide +kernel⟩,
   ⟨svq, oc, 0, 1, 64, by and_intros <;> decide +kernel⟩,
   ⟨svq, oa, 3, 1, 64, by and_intros <;> decide +kernel⟩,
   ⟨(svq.modFinger fg (fun _ => { state := .halted, haltCode := 0x500, entry := some ow })), oc, 0, 1, 64,
     by and_intros <;> decide +kernel⟩,
   ⟨(svq.modFinger fg (fun _ => fgRun)), oc, 0, by and_intros <;> decide +kernel⟩,
   ⟨(svq.modFinger fg (fun _ => { fgRun with entry := some ow })), oc, 0, by and_intros <;> decide +kernel⟩,
   ⟨svc, ⟨0,1⟩, by and_intros <;> decide +kernel⟩,
   ⟨svc, ⟨0,1⟩, by and_intros <;> decide +kernel⟩,
   ⟨(((prog 0x03).modFinger fg (fun x => { x with waiting := some { kind := 2, addr := 0x1000, gloveSpace := false, mask := 3, value := 1, cmp := 0, poll := 1, timeout := 0, polling := false } })).modFn ⟨0,
     1⟩ (fun x => { x with waiters := [0] })), ⟨0,1⟩, 1, 0,
     { kind := 2, addr := 0x1000, gloveSpace := false, mask := 3, value := 1, cmp := 0, poll := 1, timeout := 0, polling := false },
     by and_intros <;> decide +kernel⟩⟩

theorem witness_WorkEntriesBegin :
    (∃ (s : State) (f : FgId) (o : Origin) (target : Nat) (gs : _) (addr : _) (a0 : _) (a1 : _) (a2 : _) (a3 : _), s.serves = true ∧
      (f.fn ≠ 0 ∨ s.linkHas f.link target = true) ∧ (s.undispatch (.runProgram f o target gs addr a0 a1 a2 a3)).fgFree f = true ∧
      addr % 32 = 0) ∧
    (∃ (s : State) (f : FgId) (o : Origin) (target : Nat) (sg : _) (dg : _) (src : _) (dst : _) (len : _), s.serves = true ∧ (f.fn ≠ 0 ∨
      s.linkHas f.link target = true) ∧ (s.undispatch (.copy f o target sg dg src dst len)).fgFree f = true ∧ len ≠ 0 ∧ (sg = true ∨
      src + len ≤ 2 ^ 64) ∧ (dg = true ∨ dst + len ≤ 2 ^ 64)) ∧
    (∃ (s : State) (f : FgId) (o : Origin) (target : Nat) (sg : _) (dg : _) (src : _) (dst : _) (len : _), s.serves = true ∧ (f.fn ≠ 0 ∨
      s.linkHas f.link target = true) ∧ (s.undispatch (.copy f o target sg dg src dst len)).fgFree f = true ∧ len ≠ 0 ∧ (sg = true ∨
      src + len ≤ 2 ^ 64) ∧ (dg = true ∨ dst + len ≤ 2 ^ 64)) ∧
    (∃ (s : State) (f : FgId) (o : Origin) (target : Nat) (dg : _) (dst : _) (len : _) (p : _), s.serves = true ∧ (f.fn ≠ 0 ∨
      s.linkHas f.link target = true) ∧ (s.undispatch (.fill f o target dg dst len p)).fgFree f = true ∧ len ≠ 0 ∧ len < 2 ^ 32 ∧
      (dg = true ∨ dst + len ≤ 2 ^ 64)) ∧
    (∃ (s : State) (f : FgId) (o : Origin) (target : Nat), s.serves = true ∧ (f.fn ≠ 0 ∨ s.linkHas f.link target = true) ∧
      (s.undispatch (.flush f o)).fgFree f = true ∧ (s.queue o.q).wroteLinks = []) ∧
    (∃ (s : State) (f : FgId) (o : Origin) (target : Nat) (k : _), s.serves = true ∧ (f.fn ≠ 0 ∨ s.linkHas f.link target = true) ∧
      (s.undispatch (.flush f o)).fgFree f = true ∧ (s.queue o.q).wroteLinks = [k]) ∧
    (∃ (s : State) (f : FgId) (o : Origin) (target : Nat), s.serves = true ∧ (f.fn ≠ 0 ∨ s.linkHas f.link target = true) ∧
      (s.undispatch (.flush f o)).fgFree f = true ∧ (s.queue o.q).wroteLinks ≠ []) ∧
    (∃ (s : State) (f : FgId) (o : Origin) (target : Nat), s.serves = true ∧ (f.fn ≠ 0 ∨ s.linkHas f.link target = true) ∧
      (s.undispatch (.flush f o)).fgFree f = true ∧ (s.queue o.q).wroteLinks ≠ []) :=
  ⟨⟨(svq.modFinger fg (fun _ => fgRun)), fg, ow, 0, false, 64, 1, 2, 3, 4, by and_intros <;> decide +kernel⟩,
   ⟨(svq.modFinger fg (fun _ => fgRun)), fg, ow, 0, false, true, 2 ^ 64 - 64, 2 ^ 63, 64, by and_intros <;> decide +kernel⟩,
   ⟨(svq.modFinger fg (fun _ => fgRun)), fg, ow, 0, true, false, 7, 9, 1, by and_intros <;> decide +kernel⟩,
   ⟨(svq.modFinger fg (fun _ => fgRun)), fg, ow, 0, false, 0, 2 ^ 32 - 1, 5, by and_intros <;> decide +kernel⟩,
   ⟨(svq.modFinger fg (fun _ => fgRun)), fg, ow, 0, by and_intros <;> decide +kernel⟩,
   ⟨((svq.modFinger fg (fun _ => fgRun)).modQueue qw (fun x => { x with wroteLinks := [1] })), fg, ow, 0, 1,
     by and_intros <;> decide +kernel⟩,
   ⟨((svq.modFinger fg (fun _ => fgRun)).modQueue qw (fun x => { x with wroteLinks := [1] })), fg, ow, 0,
     by and_intros <;> decide +kernel⟩,
   ⟨((svq.modFinger fg (fun _ => fgRun)).modQueue qw (fun x => { x with wroteLinks := [1, 258] })), fg, ow, 7,
     by and_intros <;> decide +kernel⟩⟩

theorem witness_ProgramRegisterInstructionsComplete :
    (∃ (s : State) (f : FgId) (w : BitVec 256) (r : _) (v : _), s.fgAtInstr f = true ∧ (s.finger f).instr = some w ∧
      w.toNat % 256 = 0x05 ∧ decodeFg (f.fn == 0) w = some (.seta r v)) ∧
    (∃ (s : State) (f : FgId) (w : BitVec 256) (r : _) (v : _), s.fgAtInstr f = true ∧ (s.finger f).instr = some w ∧
      w.toNat % 256 = 0x06 ∧ decodeFg (f.fn == 0) w = some (.adda r v)) ∧
    (∃ (s : State) (f : FgId) (w : BitVec 256) (c : _) (d : _), s.fgAtInstr f = true ∧ (s.finger f).instr = some w ∧
      w.toNat % 256 = 0x02 ∧ decodeFg (f.fn == 0) w = some (.loop c d) ∧ (if c = 0 then (s.finger f).l0 else (s.finger f).l1) = 0) ∧
    (∃ (s : State) (f : FgId) (w : BitVec 256) (d : _), s.fgAtInstr f = true ∧ (s.finger f).instr = some w ∧ w.toNat % 256 = 0x02 ∧
      decodeFg (f.fn == 0) w = some (.loop 0 d) ∧ (s.finger f).l0 ≠ 0) ∧
    (∃ (s : State) (f : FgId) (w : BitVec 256) (c : _) (d : _), s.fgAtInstr f = true ∧ (s.finger f).instr = some w ∧
      w.toNat % 256 = 0x02 ∧ decodeFg (f.fn == 0) w = some (.loop c d) ∧ c ≠ 0 ∧ (s.finger f).l1 ≠ 0) ∧
    (∃ (s : State) (f : FgId) (w : BitVec 256) (o : _) (imm : _), s.fgAtInstr f = true ∧ (s.finger f).instr = some w ∧
      w.toNat % 256 = 0x0F ∧ decodeFg (f.fn == 0) w = some (.fin none imm) ∧ (s.finger f).entry = some o) ∧
    (∃ (s : State) (f : FgId) (w : BitVec 256) (o : _) (r : _), s.fgAtInstr f = true ∧ (s.finger f).instr = some w ∧
      w.toNat % 256 = 0x0F ∧ decodeFg (f.fn == 0) w = some (.fin (some r) 0) ∧ (s.finger f).entry = some o) :=
  ⟨⟨(prog seta1), fg, seta1, 1, 7, by and_intros <;> decide +kernel⟩,
   ⟨(prog adda1), fg, adda1, 1, 7, by and_intros <;> decide +kernel⟩,
   ⟨((prog loop0).modFinger fg (fun x => { x with l0 := 0 })), fg, loop0, 0, -2, by and_intros <;> decide +kernel⟩,
   ⟨(prog loop0), fg, loop0, -2, by and_intros <;> decide +kernel⟩,
   ⟨(prog loop1), fg, loop1, 1, -2, by and_intros <;> decide +kernel⟩,
   ⟨(prog endImm), fg, endImm, ow, 9, by and_intros <;> decide +kernel⟩,
   ⟨(prog endReg), fg, endReg, ow, 1, by and_intros <;> decide +kernel⟩⟩

theorem witness_ProgramTransfersAndFetchesComplete :
    (∃ (s : State) (f : FgId) (w : BitVec 256) (sr : Nat) (dr : Nat) (sg : Bool) (dg : Bool) (si : Bool) (di : Bool) (len : Nat) (so : BitVec 64) (d : BitVec 64),
      s.fgAtInstr f = true ∧ (s.finger f).instr = some w ∧ w.toNat % 256 = 0x01 ∧
      decodeFg (f.fn == 0) w = some (.move sr dr sg dg si di len so d) ∧ (sg = true ∨ ((s.finger f).a sr + so).toNat + len ≤ 2 ^ 64) ∧
      (dg = true ∨ ((s.finger f).a dr + d).toNat + len ≤ 2 ^ 64)) ∧
    (∃ (s : State) (f : FgId) (w : BitVec 256), s.fgAtInstr f = true ∧ (s.finger f).instr = some w ∧ decodeFg (f.fn == 0) w = none ∧
      s.fgOut f = []) ∧
    (∃ (s : State) (f : FgId), s.fgAtInstr f = true ∧ (s.finger f).instr = none ∧ 64 ≤ (s.finger f).tokens ∧ s.fgRoom f = true ∧
      s.fgReadRoom f 64 = true ∧ (s.finger f).pcGlove = false) ∧
    (∃ (s : State) (e : Nat) (f : FgId) (tr : Transfer), f.fn < 256 ∧ f.f < 16 ∧
      ((s.work.fingers.filter (fun x => x.2.engine == some (engineUnit e))).map Prod.fst).filter (fun k => s.fgReady (fgOfKey k)) = [f.key] ∧
      (s.finger f).transfer = some tr ∧ tr.turn = none ∧ tr.pattern = none ∧ tr.srcGlove = false) ∧
    (∃ (s : State) (u : State) (f : FgId) (sp : Nat) (l : Option Nat), s.fgAtInstr f = true ∧ (s.finger f).instr = none ∧
      64 ≤ (s.finger f).tokens ∧ s.fgRoom f = true ∧ s.fgReadRoom f 64 = true ∧ ((s.finger f).pcGlove = true →
      s.abvHolds f (s.finger f).target ((s.finger f).pc / 64 * 64) 64 false = false) ∧
      s.issue (s.fgAccess f (s.finger f).pcGlove .memRd ((s.finger f).pc / 64 * 64) 64 []) (fun sp => .fgFetch f ((s.finger f).pc / 64 * 64) sp) = .sent u sp l) ∧
    (∃ (s : State) (e : Nat) (k : Nat),
      ((((s.work.fingers.filter (fun x => x.2.engine == some (engineUnit e))).map Prod.fst).filter (fun k => s.fgReady (fgOfKey k))).find? (fun k => s.work.rr.get 0 (engineUnit e) < k)).or (((s.work.fingers.filter (fun x => x.2.engine == some (engineUnit e))).map Prod.fst).filter (fun k => s.fgReady (fgOfKey k))).head? = some k) ∧
    (∃ (s : State) (e : Nat) (k : Nat),
      ((((s.work.fingers.filter (fun x => x.2.engine == some (engineUnit e))).map Prod.fst).filter (fun k => s.fgReady (fgOfKey k))).find? (fun k => s.work.rr.get 0 (engineUnit e) < k)).or (((s.work.fingers.filter (fun x => x.2.engine == some (engineUnit e))).map Prod.fst).filter (fun k => s.fgReady (fgOfKey k))).head? = some k) ∧
    (∃ (s : State) (e : Nat) (k : Nat),
      ((((s.work.fingers.filter (fun x => x.2.engine == some (engineUnit e))).map Prod.fst).filter (fun k => s.fgReady (fgOfKey k))).find? (fun k => s.work.rr.get 0 (engineUnit e) < k)).or (((s.work.fingers.filter (fun x => x.2.engine == some (engineUnit e))).map Prod.fst).filter (fun k => s.fgReady (fgOfKey k))).head? = some k) :=
  ⟨⟨(prog move1), fg, move1, 1, 1, false, true, true, false, 64, 8, 16, by and_intros <;> decide +kernel⟩,
   ⟨(prog 0xFF), fg, 0xFF, by and_intros <;> decide +kernel⟩,
   ⟨((prog 0).modFinger fg (fun x => { x with ibuf := [] })), fg, by and_intros <;> decide +kernel⟩,
   ⟨(svq.modFinger fg (fun _ => { fgRun with entry := some ow, transfer := some { src := 0x1000, dst := 0x2000, len := 8192, srcGlove := false, dstGlove := false, pattern := none } })),
     0, fg, { src := 0x1000, dst := 0x2000, len := 8192, srcGlove := false, dstGlove := false, pattern := none },
     by and_intros <;> decide +kernel⟩,
   ⟨((prog 0).modFinger fg (fun x => { x with ibuf := [] })),
     sentSt (State.issue ((prog 0).modFinger fg (fun x => { x with ibuf := [] })) (State.fgAccess ((prog 0).modFinger fg (fun x => { x with ibuf := [] })) fg false .memRd 64 64 []) (fun sp => .fgFetch fg 64 sp)),
     fg,
     sentSp (State.issue ((prog 0).modFinger fg (fun x => { x with ibuf := [] })) (State.fgAccess ((prog 0).modFinger fg (fun x => { x with ibuf := [] })) fg false .memRd 64 64 []) (fun sp => .fgFetch fg 64 sp)),
     sentLk (State.issue ((prog 0).modFinger fg (fun x => { x with ibuf := [] })) (State.fgAccess ((prog 0).modFinger fg (fun x => { x with ibuf := [] })) fg false .memRd 64 64 []) (fun sp => .fgFetch fg 64 sp)),
     by and_intros <;> first | decide +kernel | rfl⟩,
   ⟨(svq.modFinger fg (fun _ => { fgRun with entry := some ow, transfer := some { src := 0x1000, dst := 0x2000, len := 8192, srcGlove := false, dstGlove := false, pattern := none } })),
     0, FgId.key fg, by and_intros <;> decide +kernel⟩,
   ⟨(svq.modFinger fg (fun _ => { fgRun with entry := some ow, transfer := some { src := 0x1000, dst := 0x2000, len := 8192, srcGlove := true, dstGlove := false, pattern := none } })),
     0, FgId.key fg, by and_intros <;> decide +kernel⟩,
   ⟨(svq.modFinger fg (fun _ => { fgRun with entry := some ow, transfer := some { src := 0x1000, dst := 0x2000, len := 8192, srcGlove := false, dstGlove := false, pattern := some 5 } })),
     0, FgId.key fg, by and_intros <;> decide +kernel⟩⟩

theorem witness_WaitAndSignalCommandsComplete :
    (∃ (s : State) (f : FgId) (w : BitVec 256) (ns : _), s.fgAtInstr f = true ∧ (s.finger f).instr = some w ∧ w.toNat % 256 = 0x03 ∧
      decodeFg (f.fn == 0) w = some (.waitTimer ns)) ∧
    (∃ (s : State) (f : FgId) (w : BitVec 256) (r : _) (g : _) (cmp : _) (poll : _) (lim : _) (off : _) (mask : _) (value : _),
      s.fgAtInstr f = true ∧ (s.finger f).instr = some w ∧ w.toNat % 256 = 0x03 ∧
      decodeFg (f.fn == 0) w = some (.waitFlag r g cmp poll lim off mask value) ∧ ((s.finger f).a r + offset32 off).toNat % 8 = 0) ∧
    (∃ (s : State) (f : FgId) (w : BitVec 256) (mask : _) (lim : _), s.fgAtInstr f = true ∧ (s.finger f).instr = some w ∧
      w.toNat % 256 = 0x03 ∧ decodeFg (f.fn == 0) w = some (.waitEvent mask lim) ∧ (s.fn f.fnId).waiters = [] ∧
      (s.fn f.fnId).events &&& mask = 0) ∧
    (∃ (s : State) (f : FgId) (w : Waiting), s.fgWaits f = true ∧ (s.finger f).waiting = some w ∧ w.kind = 0 ∧ w.polling = false ∧
      w.gloveSpace = false ∧ 64 ≤ (s.finger f).tokens ∧ s.fgRoom f = true ∧ s.fgReadRoom f 8 = true) ∧
    (∃ (s : State) (f : FgId) (w : Waiting), s.fgWaits f = true ∧ (s.finger f).waiting = some w ∧ w.kind = 1 ∧ (s.finger f).stop = none ∧
      (s.finger f).stopCode = none) ∧
    (∃ (s : State) (f : FgId) (w : Waiting), s.fgWaits f = true ∧ (s.finger f).waiting = some w ∧ w.kind ≠ 1 ∧ w.timeout ≠ 0 ∧
      s.fgOut f = [] ∧ (s.finger f).stop = none) ∧
    (∃ (s : State) (f : FgId) (w : BitVec 256) (r : Nat) (g : Bool) (off : BitVec 32) (events : BitVec 32) (n : Nat) (value : BitVec 64),
      s.fgAtInstr f = true ∧ (s.finger f).instr = some w ∧ w.toNat % 256 = 0x04 ∧
      decodeFg (f.fn == 0) w = some (.signal false false true false false r g off events n value) ∧ (s.fn f.fnId).waiters = []) ∧
    (∃ (s : State) (f : FgId) (w : BitVec 256) (ev : Bool) (dur : Bool) (vec : Bool) (r : Nat) (off : BitVec 32) (events : BitVec 32) (n : Nat) (value : BitVec 64),
      s.fgAtInstr f = true ∧ (s.finger f).instr = some w ∧ w.toNat % 256 = 0x04 ∧
      decodeFg (f.fn == 0) w = some (.signal true false ev dur vec r false off events n value) ∧
      ((s.finger f).a r + offset32 off).toNat % 8 = 0 ∧ 64 ≤ (s.finger f).tokens ∧ s.fgRoom f = true) ∧
    (∃ (s : State) (f : FgId) (w : BitVec 256) (mask : BitVec 32) (lim : Nat), s.fgAtInstr f = true ∧ (s.finger f).instr = some w ∧
      w.toNat % 256 = 0x03 ∧ decodeFg (f.fn == 0) w = some (.waitEvent mask lim)) ∧
    (∃ (s : State) (f : FgId) (w : BitVec 256) (mask : BitVec 32) (lim : Nat), s.fgAtInstr f = true ∧ (s.finger f).instr = some w ∧
      w.toNat % 256 = 0x03 ∧ decodeFg (f.fn == 0) w = some (.waitEvent mask lim)) ∧
    (∃ (s : State) (u : State) (f : FgId) (w : Waiting) (sp : Nat) (l : Option Nat), s.fgWaits f = true ∧ (s.finger f).waiting = some w ∧
      w.kind = 0 ∧ w.polling = false ∧ 64 ≤ (s.finger f).tokens ∧ s.fgRoom f = true ∧ s.fgReadRoom f 8 = true ∧ (w.gloveSpace = true →
      s.abvHolds f (s.finger f).target w.addr 8 false = false) ∧
      s.issue (s.fgAccess f w.gloveSpace .memRd w.addr 8 []) (fun sp => .fgPoll f w.addr sp) = .sent u sp l) ∧
    (∃ (s : State) (f : FgId) (w : Waiting), s.fgWaits f = true ∧ (s.finger f).waiting = some w ∧ w.kind = 1) ∧
    (∃ (s : State) (f : FgId) (w : Waiting), s.fgWaits f = true ∧ (s.finger f).waiting = some w ∧ w.kind ≠ 1 ∧ w.timeout ≠ 0) ∧
    (∃ (s : State) (f : FgId) (w : Waiting), s.fgWaits f = true ∧ (s.finger f).waiting = some w ∧ w.kind ≠ 1 ∧ w.timeout ≠ 0) ∧
    (∃ (s : State) (f : FgId) (w : BitVec 256) (ev : Bool) (dur : Bool) (vec : Bool) (r : Nat) (g : Bool) (off : BitVec 32) (events : BitVec 32) (n : Nat) (value : BitVec 64),
      s.fgAtInstr f = true ∧ (s.finger f).instr = some w ∧ w.toNat % 256 = 0x04 ∧
      decodeFg (f.fn == 0) w = some (.signal false false ev dur vec r g off events n value)) ∧
    (∃ (s : State) (u : State) (f : FgId) (w : BitVec 256) (flag : Bool) (adv : Bool) (ev : Bool) (dur : Bool) (vec : Bool) (r : Nat) (g : Bool) (off : BitVec 32) (events : BitVec 32) (n : Nat) (sp : Nat) (value : BitVec 64) (l : Option Nat),
      s.fgAtInstr f = true ∧ (s.finger f).instr = some w ∧ w.toNat % 256 = 0x04 ∧
      decodeFg (f.fn == 0) w = some (.signal flag adv ev dur vec r g off events n value) ∧ (flag = true ∨ adv = true) ∧
      ((s.finger f).a r + offset32 off).toNat % (if flag then 8 else 4) = 0 ∧ 64 ≤ (s.finger f).tokens ∧
      (s.modFinger f (fun x => { x with opcode := 0x04, word := w })).fgRoom f = true ∧ (g = true →
      (s.modFinger f (fun x => { x with opcode := 0x04, word := w })).abvHolds f (s.finger f).target ((s.finger f).a r + offset32 off).toNat (if flag then 8 else 4) true = false) ∧
      State.issue (s.modFinger f (fun x => { x with opcode := 0x04, word := w })) ((s.modFinger f (fun x => { x with opcode := 0x04, word := w })).fgAccess f g .memWr ((s.finger f).a r + offset32 off).toNat (if flag then 8 else 4) (packLines ((s.finger f).a r + offset32 off).toNat (leBytes (if flag then 8 else 4) (if flag then value.toNat else ((s.finger f).adv + value.setWidth 32).toNat)))) (fun sp => .fgFlag f ((s.finger f).a r + offset32 off).toNat sp) = .sent u sp l) ∧
    (∃ (s : State) (u : State) (f : FgId) (w : BitVec 256) (flag : Bool) (adv : Bool) (ev : Bool) (dur : Bool) (vec : Bool) (r : Nat) (g : Bool) (off : BitVec 32) (events : BitVec 32) (n : Nat) (sp : Nat) (value : BitVec 64) (l : Option Nat),
      s.fgAtInstr f = true ∧ (s.finger f).instr = some w ∧ w.toNat % 256 = 0x04 ∧
      decodeFg (f.fn == 0) w = some (.signal flag adv ev dur vec r g off events n value) ∧ (flag = true ∨ adv = true) ∧
      ((s.finger f).a r + offset32 off).toNat % (if flag then 8 else 4) = 0 ∧ 64 ≤ (s.finger f).tokens ∧
      (s.modFinger f (fun x => { x with opcode := 0x04, word := w })).fgRoom f = true ∧ (g = true →
      (s.modFinger f (fun x => { x with opcode := 0x04, word := w })).abvHolds f (s.finger f).target ((s.finger f).a r + offset32 off).toNat (if flag then 8 else 4) true = false) ∧
      State.issue (s.modFinger f (fun x => { x with opcode := 0x04, word := w })) ((s.modFinger f (fun x => { x with opcode := 0x04, word := w })).fgAccess f g .memWr ((s.finger f).a r + offset32 off).toNat (if flag then 8 else 4) (packLines ((s.finger f).a r + offset32 off).toNat (leBytes (if flag then 8 else 4) (if flag then value.toNat else ((s.finger f).adv + value.setWidth 32).toNat)))) (fun sp => .fgFlag f ((s.finger f).a r + offset32 off).toNat sp) = .sent u sp l) :=
  ⟨⟨(prog waitT), fg, waitT, 5, by and_intros <;> decide +kernel⟩,
   ⟨(prog waitF), fg, waitF, 1, true, 5, 1, 9, 0xFFFFFFF8, 3, 4, by and_intros <;> decide +kernel⟩,
   ⟨(prog waitE), fg, waitE, 6, 0, by and_intros <;> decide +kernel⟩,
   ⟨((prog 0x03).modFinger fg (fun x => { x with waiting := some { kind := 0, addr := 0x1000, gloveSpace := false, mask := 3, value := 1, cmp := 0, poll := 1, timeout := 0, polling := false } })),
     fg, { kind := 0, addr := 0x1000, gloveSpace := false, mask := 3, value := 1, cmp := 0, poll := 1, timeout := 0, polling := false },
     by and_intros <;> decide +kernel⟩,
   ⟨((prog 0x03).modFinger fg (fun x => { x with waiting := some { kind := 1, addr := 0x1000, gloveSpace := false, mask := 3, value := 1, cmp := 0, poll := 1, timeout := 0, polling := false } })),
     fg, { kind := 1, addr := 0x1000, gloveSpace := false, mask := 3, value := 1, cmp := 0, poll := 1, timeout := 0, polling := false },
     by and_intros <;> decide +kernel⟩,
   ⟨((prog 0x03).modFinger fg (fun x => { x with waiting := some { kind := 2, addr := 0x1000, gloveSpace := false, mask := 3, value := 1, cmp := 0, poll := 1, timeout := 5, polling := false } })),
     fg, { kind := 2, addr := 0x1000, gloveSpace := false, mask := 3, value := 1, cmp := 0, poll := 1, timeout := 5, polling := false },
     by and_intros <;> decide +kernel⟩,
   ⟨(prog sigE), fg, sigE, 0, false, 0, 6, 0, 0, by and_intros <;> decide +kernel⟩,
   ⟨(prog sigF), fg, sigF, false, false, false, 1, 8, 0, 0, 5, by and_intros <;> decide +kernel⟩,
   ⟨(prog waitE), fg, waitE, 6, 0, by and_intros <;> decide +kernel⟩,
   ⟨((prog waitE).modFn ⟨0, 1⟩ (fun x => { x with events := 4 })), fg, waitE, 6, 0, by and_intros <;> decide +kernel⟩,
   ⟨((prog 0x03).modFinger fg (fun x => { x with waiting := some { kind := 0, addr := 0x1000, gloveSpace := false, mask := 3, value := 1, cmp := 0, poll := 1, timeout := 0, polling := false } })),
     sentSt (State.issue ((prog 0x03).modFinger fg (fun x => { x with waiting := some { kind := 0, addr := 0x1000, gloveSpace := false, mask := 3, value := 1, cmp := 0, poll := 1, timeout := 0, polling := false } })) (State.fgAccess ((prog 0x03).modFinger fg (fun x => { x with waiting := some { kind := 0, addr := 0x1000, gloveSpace := false, mask := 3, value := 1, cmp := 0, poll := 1, timeout := 0, polling := false } })) fg false .memRd 0x1000 8 []) (fun sp => .fgPoll fg 0x1000 sp)),
     fg, { kind := 0, addr := 0x1000, gloveSpace := false, mask := 3, value := 1, cmp := 0, poll := 1, timeout := 0, polling := false },
     sentSp (State.issue ((prog 0x03).modFinger fg (fun x => { x with waiting := some { kind := 0, addr := 0x1000, gloveSpace := false, mask := 3, value := 1, cmp := 0, poll := 1, timeout := 0, polling := false } })) (State.fgAccess ((prog 0x03).modFinger fg (fun x => { x with waiting := some { kind := 0, addr := 0x1000, gloveSpace := false, mask := 3, value := 1, cmp := 0, poll := 1, timeout := 0, polling := false } })) fg false .memRd 0x1000 8 []) (fun sp => .fgPoll fg 0x1000 sp)),
     sentLk (State.issue ((prog 0x03).modFinger fg (fun x => { x with waiting := some { kind := 0, addr := 0x1000, gloveSpace := false, mask := 3, value := 1, cmp := 0, poll := 1, timeout := 0, polling := false } })) (State.fgAccess ((prog 0x03).modFinger fg (fun x => { x with waiting := some { kind := 0, addr := 0x1000, gloveSpace := false, mask := 3, value := 1, cmp := 0, poll := 1, timeout := 0, polling := false } })) fg false .memRd 0x1000 8 []) (fun sp => .fgPoll fg 0x1000 sp)),
     by and_intros <;> first | decide +kernel | rfl⟩,
   ⟨((prog 0x03).modFinger fg (fun x => { x with waiting := some { kind := 1, addr := 0x1000, gloveSpace := false, mask := 3, value := 1, cmp := 0, poll := 1, timeout := 0, polling := false } })),
     fg, { kind := 1, addr := 0x1000, gloveSpace := false, mask := 3, value := 1, cmp := 0, poll := 1, timeout := 0, polling := false },
     by and_intros <;> decide +kernel⟩,
   ⟨((prog 0x03).modFinger fg (fun x => { x with waiting := some { kind := 2, addr := 0x1000, gloveSpace := false, mask := 3, value := 1, cmp := 0, poll := 1, timeout := 5, polling := false } })),
     fg, { kind := 2, addr := 0x1000, gloveSpace := false, mask := 3, value := 1, cmp := 0, poll := 1, timeout := 5, polling := false },
     by and_intros <;> decide +kernel⟩,
   ⟨((prog 0x03).modFinger fg (fun x => { x with waiting := some { kind := 0, addr := 0x1000, gloveSpace := false, mask := 3, value := 1, cmp := 0, poll := 1, timeout := 5, polling := true } })),
     fg, { kind := 0, addr := 0x1000, gloveSpace := false, mask := 3, value := 1, cmp := 0, poll := 1, timeout := 5, polling := true },
     by and_intros <;> decide +kernel⟩,
   ⟨(prog sigE), fg, sigE, true, false, false, 0, false, 0, 6, 0, 0, by and_intros <;> decide +kernel⟩,
   ⟨(prog sigF),
     sentSt (State.issue ((prog sigF).modFinger fg (fun x => { x with opcode := 0x04, word := sigF })) (State.fgAccess ((prog sigF).modFinger fg (fun x => { x with opcode := 0x04, word := sigF })) fg false .memWr 0x1008 8 (packLines 0x1008 (leBytes 8 5))) (fun sp => .fgFlag fg 0x1008 sp)),
     fg, sigF, true, false, false, false, false, 1, false, 8, 0, 0,
     sentSp (State.issue ((prog sigF).modFinger fg (fun x => { x with opcode := 0x04, word := sigF })) (State.fgAccess ((prog sigF).modFinger fg (fun x => { x with opcode := 0x04, word := sigF })) fg false .memWr 0x1008 8 (packLines 0x1008 (leBytes 8 5))) (fun sp => .fgFlag fg 0x1008 sp)),
     5,
     sentLk (State.issue ((prog sigF).modFinger fg (fun x => { x with opcode := 0x04, word := sigF })) (State.fgAccess ((prog sigF).modFinger fg (fun x => { x with opcode := 0x04, word := sigF })) fg false .memWr 0x1008 8 (packLines 0x1008 (leBytes 8 5))) (fun sp => .fgFlag fg 0x1008 sp)),
     by and_intros <;> first | decide +kernel | rfl⟩,
   ⟨(prog sigG),
     sentSt (State.issue ((prog sigG).modFinger fg (fun x => { x with opcode := 0x04, word := sigG })) (State.fgAccess ((prog sigG).modFinger fg (fun x => { x with opcode := 0x04, word := sigG })) fg false .memWr 0x1008 4 (packLines 0x1008 (leBytes 4 0))) (fun sp => .fgFlag fg 0x1008 sp)),
     fg, sigG, false, true, false, false, true, 1, false, 8, 0, 5,
     sentSp (State.issue ((prog sigG).modFinger fg (fun x => { x with opcode := 0x04, word := sigG })) (State.fgAccess ((prog sigG).modFinger fg (fun x => { x with opcode := 0x04, word := sigG })) fg false .memWr 0x1008 4 (packLines 0x1008 (leBytes 4 0))) (fun sp => .fgFlag fg 0x1008 sp)),
     0,
     sentLk (State.issue ((prog sigG).modFinger fg (fun x => { x with opcode := 0x04, word := sigG })) (State.fgAccess ((prog sigG).modFinger fg (fun x => { x with opcode := 0x04, word := sigG })) fg false .memWr 0x1008 4 (packLines 0x1008 (leBytes 4 0))) (fun sp => .fgFlag fg 0x1008 sp)),
     by and_intros <;> first | decide +kernel | rfl⟩⟩

theorem witness_GlovesOpenAndClose :
    (∃ (s : State) (o : Origin) (g : Nat) (tk : Bool) (tdisp : Bool) (ql : Nat) (fl : Nat), s.AdminRuns o g ∧ s.sys.mode ≠ .drain ∧
      (tk = true → tdisp = true) ∧ ql ≤ 64 ∧ fl ≤ 16 ∧ (s.glove g).state = .free ∧ s.contextsFull (linkQuad o.q.link) fl = false ∧
      s.trust.entropyFailed = false ∧ s.trust.drbgReady = true) ∧
    (∃ (s : State) (o : Origin) (g : Nat) (tk : Bool) (tdisp : Bool) (ql : Nat) (fl : Nat), s.AdminRuns o g ∧ s.sys.mode ≠ .drain ∧
      (tk = true → tdisp = true) ∧ ql ≤ 64 ∧ fl ≤ 16 ∧ (s.glove g).state = .free ∧ s.contextsFull (linkQuad o.q.link) fl = false ∧
      s.trust.entropyFailed = false ∧ s.trust.drbgReady = true) ∧
    (∃ (s : State) (o : Origin) (g : Nat), s.AdminRuns o g ∧ s.pagesMoving g = false ∧ ((s.glove g).state = .opened ∨
      (s.glove g).state = .keyPending) ∧ (∀ l, (s.link l).held = [])) ∧
    (∃ (s : State) (o : Origin) (g : Nat), s.AdminRuns o g ∧ s.pagesMoving g = false ∧ ((s.glove g).state = .opened ∨
      (s.glove g).state = .keyPending) ∧ (∀ l, (s.link l).held = [])) ∧
    (∃ (s : State) (g : Nat), s.serves = true ∧ (s.glove g).state = .zeroizing) ∧
    (∃ (s : State) (g : Nat) (pages : Nat) (o : Origin), s.serves = true ∧ (s.glove g).state = .releasing ∧ s.pagesOf g = [] ∧
      (∀ c ∈ s.pool.owning, c.thn ≠ .close g) ∧ (s.glove g).closing = some (o, pages)) :=
  ⟨⟨svq, oa, 7, false, false, 64, 16, by and_intros <;> decide +kernel⟩,
   ⟨svq, oa, 1, true, true, 0, 0, by and_intros <;> decide +kernel⟩,
   ⟨svq, oa, 0,
     by and_intros <;> first | decide +kernel | exact (fun | 0 => rfl | 1 => rfl | _ + 2 => rfl)⟩,
   ⟨(svq.modGlove 0 (fun x => { x with state := .keyPending })), oa, 0,
     by and_intros <;> first | decide +kernel | exact (fun | 0 => rfl | 1 => rfl | _ + 2 => rfl)⟩,
   ⟨(svq.modGlove 0 (fun x => { x with state := .zeroizing, closing := some (oa, 0) })), 0, by and_intros <;> decide +kernel⟩,
   ⟨(svq.modGlove 0 (fun x => { x with state := .releasing, closing := some (oa, 3) })), 0, 3, oa, by and_intros <;> decide +kernel⟩⟩

theorem witness_PageAndWindowCommandsComplete :
    (∃ (s : State) (o : Origin) (g : Nat) (m : _) (start : _), s.AdminRuns o g ∧ ((s.glove g).state = .opened ∨
      (s.glove g).state = .keyPending) ∧ start % 0x200000 = 0 ∧ 0 < m ∧ start + m * 0x200000 ≤ s.span o.q.link ∧ (∀ i < m,
      (s.pte g (start / 0x200000 + i)).valid = false ∧ s.granting g (start / 0x200000 + i) = false) ∧ s.grantsStopped = false ∧
      m ≤ s.freeCount ∧ s.takeFree s.pages 0 m ≠ [] ∧ s.askedGates ≠ []) ∧
    (∃ (s : State) (o : Origin) (g : Nat) (m : _) (start : _), s.AdminRuns o g ∧ ((s.glove g).state = .opened ∨
      (s.glove g).state = .keyPending) ∧ start % 0x200000 = 0 ∧ 0 < m ∧ s.changeWaits (.reclaimPages o g 0 0 m start) g = false ∧
      (s.glove g).tdiLive = false ∧ (∀ i < m, (s.pte g (start / 0x200000 + i)).valid = true)) ∧
    (∃ (s : State) (o : Origin) (g : Nat) (slot : _) (image : BitVec 256), s.AdminRuns o g ∧ ((s.glove g).state = .opened ∨
      (s.glove g).state = .keyPending) ∧ s.changeWaits (.setPeerWindow o g slot image) g = false ∧ (s.glove g).tdiLive = false ∧
      imageBad image.toNat = false ∧ slot ≤ 15 ∧ (∀ e ∈ (s.glove g).windows, e.1 = slot ∨ ∀ a n h tg rd wr c,
      e.2 = .valid a n h tg rd wr c → bits image.toNat 41 0 + bits image.toNat 106 64 ≤ a ∨ a + n ≤ bits image.toNat 41 0) ∧
      (s.glove (bits image.toNat 201 192)).state = .opened) ∧
    (∃ (s : State) (o : Origin) (g : Nat) (slot : _), s.AdminRuns o g ∧ ((s.glove g).state = .opened ∨ (s.glove g).state = .keyPending) ∧
      s.changeWaits (.clearPeerWindow o g slot) g = false ∧ (s.glove g).tdiLive = false ∧ slot ≤ 15) ∧
    (∃ (s : State) (o : Origin) (g : Nat) (share : _) (rate : _), s.AdminRuns o g ∧ ((s.glove g).state = .opened ∨
      (s.glove g).state = .keyPending) ∧ (s.glove g).tdiLive = false ∧ share ≤ s.boot.cfg.tierMax ∧ 0 < rate ∧ rate ≤ 64) ∧
    (∃ (s : State) (o : Origin) (g : Nat) (group : _), s.AdminRuns o g ∧ ((s.glove g).state = .opened ∨ (s.glove g).state = .keyPending) ∧
      0 < group ∧ s.changeWaits (.reclaimPages o g 1 group 0 0) g = false ∧ (s.glove g).tdiLive = false ∧
      s.entriesOf g (fun e => e.group == group) ≠ []) ∧
    (∃ (s : State) (o : Origin) (g : Nat) (home : _) (m : _) (start : _), s.AdminRuns o g ∧ ((s.glove g).state = .opened ∨
      (s.glove g).state = .keyPending) ∧ start % 0x200000 = 0 ∧ 0 < m ∧ start + m * 0x200000 ≤ s.span o.q.link ∧ (∀ i < m,
      (s.pte g (start / 0x200000 + i)).valid = false ∧ s.granting g (start / 0x200000 + i) = false) ∧ home ≠ s.boot.cfg.pos ∧
      s.peerKnown home = true ∧ (s.glove g).state = .opened ∧ (s.peer home).state = .admitted ∧ (s.glove g).barred.contains home = false) ∧
    (∃ (s : State) (o : Origin) (g : Nat) (home : _) (m : _) (start : _), s.AdminRuns o g ∧ ((s.glove g).state = .opened ∨
      (s.glove g).state = .keyPending) ∧ start % 0x200000 = 0 ∧ 0 < m ∧ start + m * 0x200000 ≤ s.span o.q.link ∧ (∀ i < m,
      (s.pte g (start / 0x200000 + i)).valid = false ∧ s.granting g (start / 0x200000 + i) = false) ∧ home ≠ s.boot.cfg.pos ∧
      s.peerKnown home = true ∧ (s.glove g).state = .opened ∧ (s.peer home).state = .admitted ∧ (s.glove g).barred.contains home = false) ∧
    (∃ (s : State) (o : Origin) (g : Nat) (mask : _) (share : _) (ql : _) (fl : _) (rate : _), s.AdminRuns o g ∧
      ((s.glove g).state = .opened ∨ (s.glove g).state = .keyPending) ∧ (s.glove g).tdiLive = false ∧ (bitAt mask 0 = true →
      share ≤ s.boot.cfg.tierMax) ∧ (bitAt mask 1 = true → ql ≤ 64 ∧ s.topQueue ((s.vfOf g).getD ⟨0, 0⟩) ≤ ql) ∧ (bitAt mask 3 = true →
      0 < rate ∧ rate ≤ 64) ∧ (bitAt mask 2 = true → fl ≤ 16 ∧ (∀ i < 16, fl ≤ i → s.fingerBound ((s.vfOf g).getD ⟨0, 0⟩) i = false) ∧
      s.contextsFull (linkQuad o.q.link) (fl - (s.glove g).fingerLimit) = false)) ∧
    (∃ (s : State) (o : Origin) (g : Nat) (mask : _) (share : _) (ql : _) (fl : _) (rate : _), s.AdminRuns o g ∧
      ((s.glove g).state = .opened ∨ (s.glove g).state = .keyPending) ∧ (s.glove g).tdiLive = false ∧ (bitAt mask 0 = true →
      share ≤ s.boot.cfg.tierMax) ∧ (bitAt mask 1 = true → ql ≤ 64 ∧ s.topQueue ((s.vfOf g).getD ⟨0, 0⟩) ≤ ql) ∧ (bitAt mask 3 = true →
      0 < rate ∧ rate ≤ 64) ∧ (bitAt mask 2 = true → fl ≤ 16 ∧ (∀ i < 16, fl ≤ i → s.fingerBound ((s.vfOf g).getD ⟨0, 0⟩) i = false) ∧
      s.contextsFull (linkQuad o.q.link) (fl - (s.glove g).fingerLimit) = false)) ∧
    (∃ (s : State) (o : Origin) (g : Nat) (mask : _) (share : _) (ql : _) (fl : _) (rate : _), s.AdminRuns o g ∧
      ((s.glove g).state = .opened ∨ (s.glove g).state = .keyPending) ∧ (s.glove g).tdiLive = false ∧ (bitAt mask 0 = true →
      share ≤ s.boot.cfg.tierMax) ∧ (bitAt mask 1 = true → ql ≤ 64 ∧ s.topQueue ((s.vfOf g).getD ⟨0, 0⟩) ≤ ql) ∧ (bitAt mask 3 = true →
      0 < rate ∧ rate ≤ 64) ∧ (bitAt mask 2 = true → fl ≤ 16 ∧ (∀ i < 16, fl ≤ i → s.fingerBound ((s.vfOf g).getD ⟨0, 0⟩) i = false) ∧
      s.contextsFull (linkQuad o.q.link) (fl - (s.glove g).fingerLimit) = false)) :=
  ⟨⟨svq, oa, 0, 2, 0x3FC00000, by and_intros <;> decide +kernel⟩,
   ⟨(svq.setPte 0 511 { page := 4, valid := true }), oa, 0, 1, 0x3FE00000, by and_intros <;> decide +kernel⟩,
   ⟨(svq.modGlove 0 (fun x => { x with windows := [(0, .valid 0x1000 0x1000 0 1 true true false)] })).modGlove 1 (fun x => { x with state := .opened }),
     oa, 0, 15, winImage,
     by and_intros <;> first | decide +kernel | exact fun e he => .inr fun a n h tg rd wr c hv => by cases (List.mem_singleton.1 he : e = (0, .valid 0x1000 0x1000 0 1 true true false)); cases hv; decide⟩,
   ⟨svq, oa, 0, 15, by and_intros <;> decide +kernel⟩,
   ⟨svq, oa, 0, 128, 64, by and_intros <;> decide +kernel⟩,
   ⟨((svq.setPte 0 511 { page := 4, valid := true, group := 3 }).setPte 0 7 { page := 9, valid := true, group := 3 }), oa, 0, 3,
     by and_intros <;> decide +kernel⟩,
   ⟨({ svq with basket.peers := [(1, { state := .admitted })] } : State), oa, 0, 1, 2, 0x3FC00000, by and_intros <;> decide +kernel⟩,
   ⟨(({ svq with basket.peers := [(1, { state := .admitted })] } : State).modGlove 0 (fun x => { x with guests := [1] })), oa, 0, 1, 2,
     0x3FC00000, by and_intros <;> decide +kernel⟩,
   ⟨svq, oa, 0, 15, 128, 64, 16, 64, by and_intros <;> decide +kernel⟩,
   ⟨svq, oa, 0, 0, 999, 640, 160, 0, by and_intros <;> decide +kernel⟩,
   ⟨svq, oa, 0, 6, 999, 1, 1, 0, by and_intros <;> decide +kernel⟩⟩

theorem witness_EpochAndOwnershipChangesComplete :
    (∃ (s : State) (g : Nat) (c : EpochChange) (rs : _), s.serves = true ∧ (s.glove g).change = some c ∧ c.draining = true ∧ (∀ l,
      (s.link l).held = []) ∧ s.drained g = true ∧ c.change = .rules rs) ∧
    (∃ (s : State) (g : Nat) (c : EpochChange) (slot : _) (w : _), s.serves = true ∧ (s.glove g).change = some c ∧ c.draining = true ∧
      (∀ l, (s.link l).held = []) ∧ s.drained g = true ∧ c.change = .window slot w) ∧
    (∃ (s : State) (g : Nat) (c : EpochChange), s.serves = true ∧ (s.glove g).change = some c ∧ c.draining = true ∧ (∀ l,
      (s.link l).held = [])) ∧
    (∃ (s : State) (g : Nat) (c : EpochChange) (slot : _) (a : _) (n : _) (h : _) (tg : _) (rd : _) (wr : _) (cl : _), s.serves = true ∧
      (s.glove g).change = some c ∧ c.draining = true ∧ (∀ l, (s.link l).held = []) ∧ s.drained g = true ∧ c.change = .clearWindow slot ∧
      (s.glove g).windows.get .empty slot = .valid a n h tg rd wr cl) ∧
    (∃ (s : State) (g : Nat) (c : EpochChange) (idx : _), s.serves = true ∧ (s.glove g).change = some c ∧ c.draining = true ∧ (∀ l,
      (s.link l).held = []) ∧ s.drained g = true ∧ c.change = .reclaim idx) ∧
    (∃ (s : State) (g : Nat) (ls : List Nat) (c : OwnChange), ls.length ≤ 64 ∧ (∀ w ∈ (s.gate g).walks, (w.fetch = true ∨ w.tier = true) →
      w.block / 512 / 8 ∉ ls) ∧ s.fenced (gateUnit g) = false ∧ s.pool.owning = [c] ∧ g ∈ c.waiting ∧ (∃ p ∈ c.pages, p / 8 ∈ ls)) ∧
    (∃ (s : State) (g : Nat) (ls : List Nat) (c : OwnChange), ls.length ≤ 64 ∧ (∀ w ∈ (s.gate g).walks, (w.fetch = true ∨ w.tier = true) →
      w.block / 512 / 8 ∉ ls) ∧ s.fenced (gateUnit g) = false ∧ s.pool.owning = [c] ∧ g ∈ c.waiting ∧ (∃ p ∈ c.pages, p / 8 ∈ ls)) ∧
    (∃ (s : State) (g : Nat) (c : OwnChange), s.fenced (gateUnit g) = false ∧ s.pool.owning = [c] ∧ g ∈ c.acking ∧ (c.waiting ≠ [] ∨
      ∃ h ∈ c.acking, h ≠ g)) ∧
    (∃ (s : State) (g : Nat) (b : Nat) (glove : Nat) (o : Origin) (c : OwnChange) (ptes : List (Nat × Nat × Nat × Bool)),
      s.fenced (gateUnit g) = false ∧ s.pool.owning = [c] ∧ c.waiting = [] ∧ c.acking = [g] ∧ c.thn = .grant o glove ptes ∧
      c.owner = some b) :=
  ⟨⟨(svq.modGlove 0 (fun x => { x with updating := true, change := some { origin := oa, change := .rules [] } })), 0,
     { origin := oa, change := .rules [] }, [],
     by and_intros <;> first | decide +kernel | exact (fun | 0 => rfl | 1 => rfl | _ + 2 => rfl)⟩,
   ⟨(svq.modGlove 0 (fun x => { x with updating := true, change := some { origin := oa, change := .window 3 (.tombstone 0 4096) } })), 0,
     { origin := oa, change := .window 3 (.tombstone 0 4096) }, 3, .tombstone 0 4096,
     by and_intros <;> first | decide +kernel | exact (fun | 0 => rfl | 1 => rfl | _ + 2 => rfl)⟩,
   ⟨(svq.modGlove 0 (fun x => { x with updating := true, change := some { origin := oa, change := .rules [] } })), 0,
     { origin := oa, change := .rules [] },
     by and_intros <;> first | decide +kernel | exact (fun | 0 => rfl | 1 => rfl | _ + 2 => rfl)⟩,
   ⟨(svq.modGlove 0 (fun x => { x with updating := true, windows := [(3, .valid 0x2000 0x1000 0x3000 1 true true false)], change := some { origin := oa, change := .clearWindow 3 } })),
     0, { origin := oa, change := .clearWindow 3 }, 3, 0x2000, 0x1000, 0x3000, 1, true, true, false,
     by and_intros <;> first | decide +kernel | exact (fun | 0 => rfl | 1 => rfl | _ + 2 => rfl)⟩,
   ⟨(((svq.modGlove 0 (fun x => { x with updating := true, windows := [(3, .valid 0x2000 0x1000 0x3000 1 true true false)], change := some { origin := oa, change := .reclaim [511, 7] } })).setPte 0 511 { page := 4, valid := true, group := 3 }).setPte 0 7 { page := 9, valid := true, group := 3 }),
     0, { origin := oa, change := .reclaim [511, 7] }, [511, 7],
     by and_intros <;> first | decide +kernel | exact (fun | 0 => rfl | 1 => rfl | _ + 2 => rfl)⟩,
   ⟨({ svq with pool.owning := [{ pages := [4, 5], waiting := [0, 1], acking := [], thn := .grant oa 0 [(1, 4, 0, false), (2, 5, 0, false)], owner := some 0 }] } : State),
     0, [0],
     { pages := [4, 5], waiting := [0, 1], acking := [], thn := .grant oa 0 [(1, 4, 0, false), (2, 5, 0, false)], owner := some 0 },
     by and_intros <;> decide +kernel⟩,
   ⟨({ svq with pool.owning := [{ pages := [4, 9], waiting := [0], acking := [], thn := .silent, owner := some 0 }] } : State), 0, [1],
     { pages := [4, 9], waiting := [0], acking := [], thn := .silent, owner := some 0 }, by and_intros <;> decide +kernel⟩,
   ⟨({ svq with pool.owning := [{ pages := [4, 5], waiting := [1], acking := [0], thn := .silent, owner := some 0 }] } : State), 0,
     { pages := [4, 5], waiting := [1], acking := [0], thn := .silent, owner := some 0 }, by and_intros <;> decide +kernel⟩,
   ⟨({ svq with pool.owning := [{ pages := [4, 5], waiting := [], acking := [0], thn := .grant oa 0 [(1, 4, 0, false), (2, 5, 0, false)], owner := some 0 }] } : State),
     0, 0, 0, oa,
     { pages := [4, 5], waiting := [], acking := [0], thn := .grant oa 0 [(1, 4, 0, false), (2, 5, 0, false)], owner := some 0 }, [(1, 4,
     0, false), (2, 5, 0, false)], by and_intros <;> decide +kernel⟩⟩

theorem witness_DomainModeAndLogCommandsComplete :
    (∃ (s : State) (o : Origin) (d : _), s.serves = true ∧ s.fnExists o.q.fnId = true ∧ d ≤ 40 ∧ (5, o.q.link) ∈ s.slots d ∧
      (∃ u ∈ domUnits d, s.fenced u = false) ∧ s.domAbsent d = false ∧ (s.dom d).state = 0 ∧ (s.dom d).phase = 0) ∧
    (∃ (s : State) (o : Origin) (d : _), s.serves = true ∧ s.fnExists o.q.fnId = true ∧ d ≤ 40 ∧ (5, o.q.link) ∈ s.slots d ∧
      (∃ u ∈ domUnits d, s.fenced u = false) ∧ s.domAbsent d = false ∧ (s.dom d).state = 0 ∧ (s.dom d).phase = 0) ∧
    (∃ (s : State) (o : Origin) (d : _), s.serves = true ∧ s.fnExists o.q.fnId = true ∧ d ≤ 40) ∧
    (∃ (s : State) (o : Origin), s.serves = true ∧ s.fnExists o.q.fnId = true) ∧
    (∃ (s : State) (o : Origin) (log : _) (first : _) (buf : _) (len : _), s.serves = true ∧ s.fnExists o.q.fnId = true ∧
      badBuffer buf len = false ∧ log ≤ 2 ∧ first < (s.logFrom log first).2 ∧
      ((s.logFrom log first).1.take (len / 32)).flatten.length ≤ 512 ∧ (s.logFrom log first).1 ≠ [] ∧ (∀ r ∈ (s.logFrom log first).1,
      r.length = 32)) ∧
    (∃ (s : State) (o : Origin) (d : _), s.serves = true ∧ s.fnExists o.q.fnId = true ∧ d ≤ 40 ∧ (5, o.q.link) ∈ s.slots d ∧
      (∃ u ∈ domUnits d, s.fenced u = false) ∧ s.domAbsent d = false ∧ ¬((s.dom d).state = 0 ∧ (s.dom d).phase = 0)) ∧
    (∃ (s : State) (o : Origin) (d : _), s.serves = true ∧ s.fnExists o.q.fnId = true ∧ d ≤ 40 ∧ (5, o.q.link) ∈ s.slots d ∧
      (∃ u ∈ domUnits d, s.fenced u = false) ∧ s.domAbsent d = false ∧ ¬((s.dom d).state = 0 ∧ (s.dom d).phase = 0)) ∧
    (∃ (s : State) (o : Origin) (log : _) (first : _) (buf : _) (len : _), s.serves = true ∧ s.fnExists o.q.fnId = true ∧
      badBuffer buf len = false ∧ log ≤ 2 ∧ first < (s.logFrom log first).2) ∧
    (∃ (s : State) (o : Origin) (log : _) (first : _) (buf : _) (len : _), s.serves = true ∧ s.fnExists o.q.fnId = true ∧
      badBuffer buf len = false ∧ log ≤ 2 ∧ first < (s.logFrom log first).2) :=
  ⟨⟨({ ({ svq with boot.cfg.doms := List.replicate 41 { lowest := 1, linger := 1, slots := [(4, 0), (5, 0)] } } : State) with boot.cfg.peers := List.replicate 8 (some (1, 0)) } : State),
     oa, 40, by and_intros <;> decide +kernel⟩,
   ⟨({ svq with boot.cfg.doms := List.replicate 41 { lowest := 1, linger := 1, slots := [(4, 0), (5, 0)] } } : State), oa, 1,
     by and_intros <;> decide +kernel⟩,
   ⟨({ svq with boot.cfg.doms := List.replicate 41 { lowest := 1, linger := 1, slots := [(4, 0), (5, 0)] } } : State), oa, 40,
     by and_intros <;> decide +kernel⟩,
   ⟨({ svq with boot.cfg.doms := List.replicate 41 { lowest := 1, linger := 1, slots := [(4, 0), (5, 0)] } } : State), oa,
     by and_intros <;> decide +kernel⟩,
   ⟨({ svq with flt.fltLog := [⟨1, 2, 1, 1, 0, 0, 0, 0xFFFF, 0⟩], flt.fltSeq := 1 } : State), oa, 1, 0, 64, 64,
     by and_intros <;> decide +kernel⟩,
   ⟨(({ svq with boot.cfg.doms := List.replicate 41 { lowest := 1, linger := 1, slots := [(4, 0), (5, 0)] } } : State).modDom 1 (fun _ => { state := 1 })),
     oa, 1, by and_intros <;> decide +kernel⟩,
   ⟨(({ svq with boot.cfg.doms := List.replicate 41 { lowest := 1, linger := 1, slots := [(4, 0), (5, 0)] } } : State).modDom 9 (fun _ => { phase := 3, target := 1 })),
     oa, 9, by and_intros <;> decide +kernel⟩,
   ⟨({ svq with flt.fltLog := [⟨1, 2, 1, 1, 0, 0, 0, 0xFFFF, 0⟩], flt.fltSeq := 1 } : State), oa, 1, 0, 64, 64,
     by and_intros <;> decide +kernel⟩,
   ⟨({ svq with flt.fltLog := (List.range 40).map (fun i => ⟨i, 2, 1, 1, 0, 0, 0, 0xFFFF, 0⟩), flt.fltSeq := 40 } : State), oa, 1, 0, 64,
     1024, by and_intros <;> decide +kernel⟩⟩

theorem witness_PeerRequestMessagesComplete :
    (∃ (s : State) (n : Nat) (g : Nat) (b : _), s.serves = true ∧ (s.peer n).state = .admitted ∧ (s.guestOf n g).or s.freeGuest = some b) ∧
    (∃ (s : State) (n : Nat) (g : Nat) (b : _), s.serves = true ∧ (s.peer n).state = .admitted ∧ (s.guestOf n g).or s.freeGuest = some b) ∧
    (∃ (s : State) (n : Nat) (g : Nat) (m : _) (b : _), s.serves = true ∧ (s.peer n).state = .admitted ∧ s.guestOf n g = some b ∧
      (∀ c ∈ s.pool.owning, c.thn ≠ .peerAlloc n g) ∧ s.grantsStopped = false ∧ m ≤ s.freeCount ∧ s.takeFree s.pages 0 m ≠ [] ∧
      s.askedGates ≠ []) ∧
    (∃ (s : State) (n : Nat) (g : Nat) (ps : _) (b : _), s.serves = true ∧ (s.peer n).state = .admitted ∧ s.guestOf n g = some b ∧
      (∀ c ∈ s.pool.owning, c.thn ≠ .peerRelease n g) ∧ s.askedGates ≠ [] ∧ ps ≠ [] ∧ (∀ p ∈ ps, (s.own p).state = 1 ∧
      (s.own p).owner = b)) ∧
    (∃ (s : State) (n : Nat) (g : Nat) (b : _), s.serves = true ∧ (s.peer n).state = .admitted ∧ s.guestOf n g = some b ∧
      s.askedGates ≠ [] ∧ s.pagesOf b ≠ []) ∧
    (∃ (s : State) (n : Nat) (g : Nat), s.serves = true ∧ (s.peer n).state = .admitted ∧ s.guestOf n g = none ∧ (∀ c ∈ s.pool.owning,
      c.thn ≠ .peerRevoke n g)) ∧
    (∃ (s : State) (n : Nat), s.serves = true ∧ (s.peer n).state = .admitted) :=
  ⟨⟨(({ svq with basket.peers := [(1, { state := .admitted })] } : State).modSlot 1024 (fun _ => { key := 6, valid := true, home := 1, glove := 5 })),
     1, 5, 1024, by and_intros <;> decide +kernel⟩,
   ⟨({ svq with basket.peers := [(1, { state := .admitted })] } : State), 1, 5, 1024, by and_intros <;> decide +kernel⟩,
   ⟨(({ svq with basket.peers := [(1, { state := .admitted })] } : State).modSlot 1024 (fun _ => { key := 6, valid := true, home := 1, glove := 5 })),
     1, 5, 2, 1024, by and_intros <;> decide +kernel⟩,
   ⟨({ (({ svq with basket.peers := [(1, { state := .admitted })] } : State).modSlot 1024 (fun _ => { key := 6, valid := true, home := 1, glove := 5 })) with pool.owns := [(4, { gen := 1, owner := 1024, state := 1 })] } : State),
     1, 5, [4], 1024, by and_intros <;> decide +kernel⟩,
   ⟨({ (({ svq with basket.peers := [(1, { state := .admitted })] } : State).modSlot 1024 (fun _ => { key := 6, valid := true, home := 1, glove := 5 })) with pool.owns := [(4, { gen := 1, owner := 1024, state := 1 })] } : State),
     1, 5, 1024, by and_intros <;> decide +kernel⟩,
   ⟨({ svq with basket.peers := [(1, { state := .admitted })] } : State), 1, 5, by and_intros <;> decide +kernel⟩,
   ⟨({ ({ svq with basket.peers := [(1, { state := .admitted })] } : State) with basket.grants := [⟨oa, 0, 1, false, 0, 1, 0⟩] } : State),
     1, by and_intros <;> decide +kernel⟩⟩

theorem witness_PeerAnswerMessagesComplete :
    (∃ (s : State) (n : Nat) (g : Nat) (slot : _) (r : _) (x : _), s.serves = true ∧ (s.peer n).state = .admitted ∧
      (s.peer n).mgmt.find? (fun r => r.glove == g && r.msg.isTransfer) = some r ∧ s.grantOf n g = some x ∧ 1024 ≤ slot) ∧
    (∃ (s : State) (n : Nat) (g : Nat) (ps : _) (x : _), s.serves = true ∧ (s.peer n).state = .admitted ∧ s.grantOf n g = some x ∧
      (∃ r ∈ (s.peer n).mgmt, r.glove = g ∧ r.msg.isAlloc = true) ∧ x.m ≤ ((s.peer n).listed ++ ps).length) ∧
    (∃ (s : State) (n : Nat) (g : Nat) (ps : _) (x : _), s.serves = true ∧ (s.peer n).state = .admitted ∧ s.grantOf n g = some x ∧
      (∃ r ∈ (s.peer n).mgmt, r.glove = g ∧ r.msg.isAlloc = true) ∧ x.m ≤ ((s.peer n).listed ++ ps).length) ∧
    (∃ (s : State) (n : Nat) (g : Nat) (ps : _) (x : _), s.serves = true ∧ (s.peer n).state = .admitted ∧ s.grantOf n g = some x ∧
      (∃ r ∈ (s.peer n).mgmt, r.glove = g ∧ r.msg.isAlloc = true) ∧ ((s.peer n).listed ++ ps).length < x.m) ∧
    (∃ (s : State) (n : Nat) (g : Nat) (r : _), s.serves = true ∧ (s.peer n).state = .admitted ∧
      (s.peer n).mgmt.find? (fun r => r.glove == g && r.msg.isEnd) = some r ∧ r.msg = .keyRevoke) ∧
    (∃ (s : State) (n : Nat) (g : Nat) (r : _), s.serves = true ∧ (s.peer n).state = .admitted ∧
      (s.peer n).mgmt.find? (fun r => r.glove == g) = some r ∧ r.msg = .keyRevoke ∧ r.attempts < 3) :=
  ⟨⟨({ svq with basket.peers := [(1, { state := .admitted, mgmt := [{ glove := 0, msg := .keyTransfer }], listed := [] })], basket.grants := [⟨oa, 0, 1, true, 3, 2, 0x400000⟩] } : State),
     1, 0, 1024, { glove := 0, msg := .keyTransfer }, ⟨oa, 0, 1, true, 3, 2, 0x400000⟩, by and_intros <;> decide +kernel⟩,
   ⟨({ svq with basket.peers := [(1, { state := .admitted, mgmt := [{ glove := 0, msg := .pageAlloc 2 }], listed := [] })], basket.grants := [⟨oa, 0, 1, true, 3, 2, 0x400000⟩] } : State),
     1, 0, [8, 9], ⟨oa, 0, 1, true, 3, 2, 0x400000⟩, by and_intros <;> decide +kernel⟩,
   ⟨({ svq with basket.peers := [(1, { state := .admitted, mgmt := [{ glove := 0, msg := .pageAlloc 2 }], listed := [7] })], basket.grants := [⟨oa, 0, 1, true, 3, 2, 0x400000⟩] } : State),
     1, 0, [9], ⟨oa, 0, 1, true, 3, 2, 0x400000⟩, by and_intros <;> decide +kernel⟩,
   ⟨({ svq with basket.peers := [(1, { state := .admitted, mgmt := [{ glove := 0, msg := .pageAlloc 2 }], listed := [] })], basket.grants := [⟨oa, 0, 1, true, 3, 2, 0x400000⟩] } : State),
     1, 0, [8], ⟨oa, 0, 1, true, 3, 2, 0x400000⟩, by and_intros <;> decide +kernel⟩,
   ⟨({ svq with basket.peers := [(1, { state := .admitted, mgmt := [{ glove := 0, msg := .keyRevoke }], listed := [] })], basket.grants := [⟨oa, 0, 1, true, 3, 2, 0x400000⟩] } : State),
     1, 0, { glove := 0, msg := .keyRevoke }, by and_intros <;> decide +kernel⟩,
   ⟨({ svq with basket.peers := [(1, { state := .admitted, mgmt := [{ glove := 0, msg := .keyRevoke, attempts := 2 }], listed := [] })], basket.grants := [⟨oa, 0, 1, true, 3, 2, 0x400000⟩] } : State),
     1, 0, { glove := 0, msg := .keyRevoke, attempts := 2 }, by and_intros <;> decide +kernel⟩⟩

theorem witness_PacketsMeetTheChecksOfTheirTarget :
    (∃ (s : State) (p : Packet) (c : Instr), c ∈ [.memRd p, .memWr p, .memRdLock p, .memWrUnlock p, .unlock p, .zlRd p, .regRd p,
      .regWr p, .mqRd p, .mqWr p, .mqMac p, .tierLookup p, .tierFill p, .mirrorWr p] ∧ (c = .memRd p → p.op = .memRd) ∧ (c = .memWr p →
      p.op = .memWr) ∧ (c = .memRdLock p → p.op = .memRdLock) ∧ (c = .memWrUnlock p → p.op = .memWrUnlock) ∧ (c = .unlock p →
      p.op = .unlock) ∧ (c = .zlRd p → p.op = .zlRd) ∧ (c = .regRd p → p.op = .regRd) ∧ (c = .regWr p → p.op = .regWr) ∧ (c = .mqRd p →
      p.op = .mqRd) ∧ (c = .mqWr p → p.op = .mqWr) ∧ (c = .mqMac p → p.op = .mqMac) ∧ (c = .tierLookup p → p.op = .tierLookup) ∧
      (c = .tierFill p → p.op = .tierFill) ∧ (c = .mirrorWr p → p.op = .mirrorWr) ∧ unitKind p.dest ≠ 4 ∧ s.waitsTurn p = false ∧
      p.op.cls ≠ vcCls p.vc) ∧
    (∃ (s : State) (p : Packet) (c : Instr), c ∈ [.memRd p, .memWr p, .memRdLock p, .memWrUnlock p, .unlock p, .zlRd p, .regRd p,
      .regWr p, .mqRd p, .mqWr p, .mqMac p, .tierLookup p, .tierFill p, .mirrorWr p] ∧ (c = .memRd p → p.op = .memRd) ∧ (c = .memWr p →
      p.op = .memWr) ∧ (c = .memRdLock p → p.op = .memRdLock) ∧ (c = .memWrUnlock p → p.op = .memWrUnlock) ∧ (c = .unlock p →
      p.op = .unlock) ∧ (c = .zlRd p → p.op = .zlRd) ∧ (c = .regRd p → p.op = .regRd) ∧ (c = .regWr p → p.op = .regWr) ∧ (c = .mqRd p →
      p.op = .mqRd) ∧ (c = .mqWr p → p.op = .mqWr) ∧ (c = .mqMac p → p.op = .mqMac) ∧ (c = .tierLookup p → p.op = .tierLookup) ∧
      (c = .tierFill p → p.op = .tierFill) ∧ (c = .mirrorWr p → p.op = .mirrorWr) ∧ unitKind p.dest ≠ 4 ∧ s.waitsTurn p = false ∧
      p.op.cls = vcCls p.vc ∧ s.fenced p.dest = true ∧ (p.op.cls = 1 ∨ (p.op.cls = 0 ∧ p.ackReq = true))) ∧
    (∃ (s : State) (p : Packet) (c : Instr), c ∈ [.memRd p, .memWr p, .memRdLock p, .memWrUnlock p, .unlock p, .zlRd p, .regRd p,
      .regWr p, .mqRd p, .mqWr p, .mqMac p, .tierLookup p, .tierFill p, .mirrorWr p] ∧ (c = .memRd p → p.op = .memRd) ∧ (c = .memWr p →
      p.op = .memWr) ∧ (c = .memRdLock p → p.op = .memRdLock) ∧ (c = .memWrUnlock p → p.op = .memWrUnlock) ∧ (c = .unlock p →
      p.op = .unlock) ∧ (c = .zlRd p → p.op = .zlRd) ∧ (c = .regRd p → p.op = .regRd) ∧ (c = .regWr p → p.op = .regWr) ∧ (c = .mqRd p →
      p.op = .mqRd) ∧ (c = .mqWr p → p.op = .mqWr) ∧ (c = .mqMac p → p.op = .mqMac) ∧ (c = .tierLookup p → p.op = .tierLookup) ∧
      (c = .tierFill p → p.op = .tierFill) ∧ (c = .mirrorWr p → p.op = .mirrorWr) ∧ unitKind p.dest ≠ 4 ∧ s.waitsTurn p = false ∧
      p.op.cls = vcCls p.vc ∧ s.fenced p.dest = true ∧ (p.op.cls = 1 ∨ (p.op.cls = 0 ∧ p.ackReq = true))) ∧
    (∃ (s : State) (p : Packet) (c : Instr), c ∈ [.memRd p, .memWr p, .memRdLock p, .memWrUnlock p, .unlock p, .zlRd p, .regRd p,
      .regWr p, .mqRd p, .mqWr p, .mqMac p, .tierLookup p, .tierFill p, .mirrorWr p] ∧ (c = .memRd p → p.op = .memRd) ∧ (c = .memWr p →
      p.op = .memWr) ∧ (c = .memRdLock p → p.op = .memRdLock) ∧ (c = .memWrUnlock p → p.op = .memWrUnlock) ∧ (c = .unlock p →
      p.op = .unlock) ∧ (c = .zlRd p → p.op = .zlRd) ∧ (c = .regRd p → p.op = .regRd) ∧ (c = .regWr p → p.op = .regWr) ∧ (c = .mqRd p →
      p.op = .mqRd) ∧ (c = .mqWr p → p.op = .mqWr) ∧ (c = .mqMac p → p.op = .mqMac) ∧ (c = .tierLookup p → p.op = .tierLookup) ∧
      (c = .tierFill p → p.op = .tierFill) ∧ (c = .mirrorWr p → p.op = .mirrorWr) ∧ unitKind p.dest ≠ 4 ∧ s.waitsTurn p = false ∧
      p.op.cls = vcCls p.vc ∧ s.fenced p.dest = true ∧ p.op.cls ≠ 1 ∧ (p.op.cls ≠ 0 ∨ p.ackReq = false)) ∧
    (∃ (s : State) (p : Packet) (c : Instr), c ∈ [.memRd p, .memWr p, .memRdLock p, .memWrUnlock p, .unlock p, .zlRd p, .regRd p,
      .regWr p, .mqRd p, .mqWr p, .mqMac p, .tierLookup p, .tierFill p, .mirrorWr p] ∧ (c = .memRd p → p.op = .memRd) ∧ (c = .memWr p →
      p.op = .memWr) ∧ (c = .memRdLock p → p.op = .memRdLock) ∧ (c = .memWrUnlock p → p.op = .memWrUnlock) ∧ (c = .unlock p →
      p.op = .unlock) ∧ (c = .zlRd p → p.op = .zlRd) ∧ (c = .regRd p → p.op = .regRd) ∧ (c = .regWr p → p.op = .regWr) ∧ (c = .mqRd p →
      p.op = .mqRd) ∧ (c = .mqWr p → p.op = .mqWr) ∧ (c = .mqMac p → p.op = .mqMac) ∧ (c = .tierLookup p → p.op = .tierLookup) ∧
      (c = .tierFill p → p.op = .tierFill) ∧ (c = .mirrorWr p → p.op = .mirrorWr) ∧ unitKind p.dest ≠ 4 ∧ s.waitsTurn p = false ∧
      p.op.cls = vcCls p.vc ∧ s.fenced p.dest = true ∧ p.op.cls ≠ 1 ∧ (p.op.cls ≠ 0 ∨ p.ackReq = false)) ∧
    (∃ (s : State) (p : Packet) (c : Instr), c ∈ [.memRd p, .memWr p, .memRdLock p, .memWrUnlock p, .unlock p, .zlRd p, .regRd p,
      .regWr p, .mqRd p, .mqWr p, .mqMac p, .tierLookup p, .tierFill p, .mirrorWr p] ∧ (c = .memRd p → p.op = .memRd) ∧ (c = .memWr p →
      p.op = .memWr) ∧ (c = .memRdLock p → p.op = .memRdLock) ∧ (c = .memWrUnlock p → p.op = .memWrUnlock) ∧ (c = .unlock p →
      p.op = .unlock) ∧ (c = .zlRd p → p.op = .zlRd) ∧ (c = .regRd p → p.op = .regRd) ∧ (c = .regWr p → p.op = .regWr) ∧ (c = .mqRd p →
      p.op = .mqRd) ∧ (c = .mqWr p → p.op = .mqWr) ∧ (c = .mqMac p → p.op = .mqMac) ∧ (c = .tierLookup p → p.op = .tierLookup) ∧
      (c = .tierFill p → p.op = .tierFill) ∧ (c = .mirrorWr p → p.op = .mirrorWr) ∧ unitKind p.dest ≠ 4 ∧ s.waitsTurn p = false ∧
      p.op.cls = vcCls p.vc ∧ s.fenced p.dest = false ∧ s.unitOn p.dest = false) :=
  ⟨⟨(svq.modUnit (gateUnit 0) (fun x => { x with state := 1 })), ({ req .memRd with vc := 8 } : Packet),
     .memRd ({ req .memRd with vc := 8 } : Packet), by and_intros <;> decide +kernel⟩,
   ⟨(svq.modUnit (gateUnit 0) (fun x => { x with state := 1 })), ({ req .memRd with vc := 2 } : Packet),
     .memRd ({ req .memRd with vc := 2 } : Packet), by and_intros <;> decide +kernel⟩,
   ⟨(svq.modUnit (gateUnit 0) (fun x => { x with state := 1 })), ({ req .memWr with vc := 0, ackReq := true } : Packet),
     .memWr ({ req .memWr with vc := 0, ackReq := true } : Packet), by and_intros <;> decide +kernel⟩,
   ⟨(svq.modUnit (gateUnit 0) (fun x => { x with state := 1 })), ({ req .memWr with vc := 0 } : Packet),
     .memWr ({ req .memWr with vc := 0 } : Packet), by and_intros <;> decide +kernel⟩,
   ⟨(svq.modUnit (gateUnit 0) (fun x => { x with state := 1 })), ({ req .mqRd with vc := 6 } : Packet),
     .mqRd ({ req .mqRd with vc := 6 } : Packet), by and_intros <;> decide +kernel⟩,
   ⟨(svq.modDom 13 (fun x => { x with state := 1 })), ({ req .memRd with vc := 2 } : Packet),
     .memRd ({ req .memRd with vc := 2 } : Packet), by and_intros <;> decide +kernel⟩⟩

theorem witness_MemoryPacketsAtTheWriteCombiningBuffer :
    (∃ (s : State) (g : Nat) (line : Nat) (b : Nat) (p : Packet) (w : _), s.OwnedLine g p line b ∧ s.Arrives .memRd p ∧
      (∀ k ∈ (s.gate g).locks, k.line ≠ line) ∧ s.wcbFind g line = some w ∧ w.bad = false) ∧
    (∃ (s : State) (g : Nat) (line : Nat) (b : Nat) (p : Packet), s.OwnedLine g p line b ∧ s.Arrives .memWr p ∧ (∀ k ∈ (s.gate g).locks,
      k.line ≠ line) ∧ p.addr % 64 = 0 ∧ p.len = 64 ∧ p.firstBE = BitVec.allOnes 64 ∧ p.lastBE = BitVec.allOnes 64 ∧
      s.wcbFind g line = none ∧ (s.gate g).wcb.length < 4096 ∧ p.ackReq = true) ∧
    (∃ (s : State) (g : Nat) (line : Nat) (b : Nat) (p : Packet) (w : _), s.OwnedLine g p line b ∧ s.Arrives .memRdLock p ∧
      (∀ k ∈ (s.gate g).locks, k.line ≠ line) ∧ s.wcbFind g line = some w ∧ w.bad = false) ∧
    (∃ (s : State) (g : Nat) (line : Nat) (b : Nat) (p : Packet) (k : _), s.OwnedLine g p line b ∧ s.Arrives .unlock p ∧
      (s.gate g).locks = [k] ∧ k.line = line ∧ k.unit = p.initUnit ∧ (s.gate g).parked = []) ∧
    (∃ (s : State) (g : Nat) (line : Nat) (b : Nat) (p : Packet) (k : _) (w : _), s.OwnedLine g p line b ∧ s.Arrives .memWrUnlock p ∧
      (s.gate g).locks = [k] ∧ k.line = line ∧ k.unit = p.initUnit ∧ (s.gate g).parked = [] ∧ s.wcbFind g line = some w) ∧
    (∃ (s : State) (g : Nat) (line : Nat) (b : Nat) (p : Packet), s.OwnedLine g p line b ∧ s.Arrives .unlock p ∧ (∀ k ∈ (s.gate g).locks,
      k.line = line → k.unit ≠ p.initUnit) ∧ (s.gate g).parked = [] ∧ p.ackReq = true) ∧
    (∃ (s : State) (g : Nat) (line : Nat) (b : Nat) (p : Packet), s.OwnedLine g p line b ∧ s.Arrives .unlock p ∧ (∀ k ∈ (s.gate g).locks,
      k.line = line → k.unit ≠ p.initUnit) ∧ (s.gate g).parked = [] ∧ p.ackReq = true) ∧
    (∃ (s : State) (p : Packet), s.borderWaits p = false ∧ s.Arrives .memRd p) ∧
    (∃ (s : State) (p : Packet), s.borderWaits p = false ∧ s.Arrives .memRd p) ∧
    (∃ (s : State) (p : Packet), s.borderWaits p = false ∧ s.Arrives .memRd p) ∧
    (∃ (s : State) (p : Packet), s.borderWaits p = false ∧ s.Arrives .memWr p) ∧
    (∃ (s : State) (p : Packet), s.borderWaits p = false ∧ s.Arrives .memWr p) ∧
    (∃ (s : State) (p : Packet), s.borderWaits p = false ∧ s.Arrives .memWr p) ∧
    (∃ (s : State) (p : Packet), s.borderWaits p = false ∧ s.Arrives .memRdLock p) ∧
    (∃ (s : State) (p : Packet), s.borderWaits p = false ∧ s.Arrives .memRdLock p) ∧
    (∃ (s : State) (p : Packet), s.borderWaits p = false ∧ s.Arrives .memRdLock p) ∧
    (∃ (s : State) (p : Packet), s.borderWaits p = false ∧ s.Arrives .memWrUnlock p) ∧
    (∃ (s : State) (p : Packet), s.borderWaits p = false ∧ s.Arrives .memWrUnlock p) ∧
    (∃ (s : State) (p : Packet), s.borderWaits p = false ∧ s.Arrives .memWrUnlock p) ∧
    (∃ (s : State) (p : Packet), s.borderWaits p = false ∧ s.Arrives .unlock p) ∧
    (∃ (s : State) (p : Packet), s.borderWaits p = false ∧ s.Arrives .unlock p) ∧
    (∃ (s : State) (p : Packet), s.borderWaits p = false ∧ s.Arrives .unlock p) :=
  ⟨⟨(owned [wl] []), 0, 0, 0, req .memRd, wl,
     by and_intros <;> first | decide +kernel | (constructor <;> decide +kernel)⟩,
   ⟨(owned [] []), 0, 0, 0, { req .memWr with ackReq := true, data := [99] },
     by and_intros <;> first | decide +kernel | (constructor <;> decide +kernel)⟩,
   ⟨(owned [wl] []), 0, 0, 0, { req .memRdLock with len := 8 }, wl,
     by and_intros <;> first | decide +kernel | (constructor <;> decide +kernel)⟩,
   ⟨(owned [wl] [⟨0, engineUnit 0, 9⟩]), 0, 0, 0, { req .unlock with len := 8 }, ⟨0, engineUnit 0, 9⟩,
     by and_intros <;> first | decide +kernel | (constructor <;> decide +kernel)⟩,
   ⟨(owned [wl] [⟨0, engineUnit 0, 9⟩]), 0, 0, 0, { req .memWrUnlock with len := 8, data := [99] }, ⟨0, engineUnit 0, 9⟩, wl,
     by and_intros <;> first | decide +kernel | (constructor <;> decide +kernel)⟩,
   ⟨(owned [wl] [⟨0, engineUnit 1, 9⟩]), 0, 0, 0, { req .unlock with len := 8, ackReq := true },
     by and_intros <;> first | decide +kernel | (constructor <;> decide +kernel)⟩,
   ⟨(owned [wl] []), 0, 0, 0, { req .unlock with len := 8, ackReq := true },
     by and_intros <;> first | decide +kernel | (constructor <;> decide +kernel)⟩,
   ⟨(owned [wl] [⟨0, engineUnit 0, 9⟩]), ({ req .memRd with len := 8, data := [7] } : Packet), by and_intros <;> decide +kernel⟩,
   ⟨svq, ({ req .memRd with len := 8, data := [7] } : Packet), by and_intros <;> decide +kernel⟩,
   ⟨svq, ({ req .memRd with len := 8, data := [7], hostSpace := true, dest := cuffUnit 0, fn := 1 } : Packet),
     by and_intros <;> decide +kernel⟩,
   ⟨(owned [wl] [⟨0, engineUnit 0, 9⟩]), ({ req .memWr with len := 8, data := [7] } : Packet), by and_intros <;> decide +kernel⟩,
   ⟨svq, ({ req .memWr with len := 8, data := [7] } : Packet), by and_intros <;> decide +kernel⟩,
   ⟨svq, ({ req .memWr with len := 8, data := [7], hostSpace := true, dest := cuffUnit 0, fn := 1 } : Packet),
     by and_intros <;> decide +kernel⟩,
   ⟨(owned [wl] [⟨0, engineUnit 0, 9⟩]), ({ req .memRdLock with len := 8, data := [7] } : Packet), by and_intros <;> decide +kernel⟩,
   ⟨svq, ({ req .memRdLock with len := 8, data := [7] } : Packet), by and_intros <;> decide +kernel⟩,
   ⟨svq, ({ req .memRdLock with len := 8, data := [7], hostSpace := true, dest := cuffUnit 0, fn := 1 } : Packet),
     by and_intros <;> decide +kernel⟩,
   ⟨(owned [wl] [⟨0, engineUnit 0, 9⟩]), ({ req .memWrUnlock with len := 8, data := [7] } : Packet), by and_intros <;> decide +kernel⟩,
   ⟨svq, ({ req .memWrUnlock with len := 8, data := [7] } : Packet), by and_intros <;> decide +kernel⟩,
   ⟨svq, ({ req .memWrUnlock with len := 8, data := [7], hostSpace := true, dest := cuffUnit 0, fn := 1 } : Packet),
     by and_intros <;> decide +kernel⟩,
   ⟨(owned [wl] [⟨0, engineUnit 0, 9⟩]), ({ req .unlock with len := 8, data := [7] } : Packet), by and_intros <;> decide +kernel⟩,
   ⟨svq, ({ req .unlock with len := 8, data := [7] } : Packet), by and_intros <;> decide +kernel⟩,
   ⟨svq, ({ req .unlock with len := 8, data := [7], hostSpace := true, dest := cuffUnit 0, fn := 1 } : Packet),
     by and_intros <;> decide +kernel⟩⟩

theorem witness_HostAndRegisterPacketsComplete :
    (∃ (s : State) (p : Packet), s.Arrives .zlRd p ∧ unitKind p.dest = 0 ∧ p.hostSpace = true ∧ (s.link p.link).up = true ∧
      s.peerClosed p = false ∧ s.viaWindow p = false ∧ (s.fn ⟨p.link, p.fn⟩).bme = true ∧ (s.fn ⟨p.link, p.fn⟩).d3 = false) ∧
    (∃ (s : State) (p : Packet), s.Arrives .regRd p ∧ regOpen p = true) ∧
    (∃ (s : State) (p : Packet) (i : Nat), s.Arrives .regWr p ∧ regOpen p = true ∧ p.ep = false ∧ i < 8 ∧ p.addr % 64 = 8 * i ∧
      p.len = 8 ∧ p.firstBE = BitVec.allOnes 64 ∧ p.lastBE = BitVec.allOnes 64) ∧
    (∃ (s : State) (p : Packet), s.Arrives .regRd p ∧ regOpen p = false) ∧
    (∃ (s : State) (p : Packet), s.Arrives .regWr p ∧ regOpen p = true ∧ p.ep = false) ∧
    (∃ (s : State) (p : Packet), s.Arrives .regWr p ∧ regOpen p = true ∧ p.ep = false) ∧
    (∃ (s : State) (p : Packet), s.Arrives .regWr p ∧ regOpen p = false) ∧
    (∃ (s : State) (p : Packet), s.Arrives .zlRd p ∧ unitKind p.dest = 0 ∧ p.hostSpace = true) ∧
    (∃ (s : State) (p : Packet), s.Arrives .zlRd p ∧ unitKind p.dest = 0 ∧ p.hostSpace = true) :=
  ⟨⟨svq, { req .zlRd with dest := cuffUnit 0, hostSpace := true, link := 0, fn := 1, len := 0 }, by and_intros <;> decide +kernel⟩,
   ⟨svq, { op := .regRd, vc := 2, dest := gateUnit 0, initUnit := crownUnit, addr := 0x300000000000 }, by and_intros <;> decide +kernel⟩,
   ⟨svq,
     { op := .regWr, vc := 0, dest := crownUnit, initUnit := crownUnit, addr := 0x308000000038, len := 8, firstBE := BitVec.allOnes 64, lastBE := BitVec.allOnes 64, ackReq := true, data := [1] },
     7, by and_intros <;> decide +kernel⟩,
   ⟨svq, { op := .regRd, vc := 2, dest := gateUnit 0, initUnit := cuffUnit 0, addr := 0x300000000000 }, by and_intros <;> decide +kernel⟩,
   ⟨svq,
     { op := .regWr, vc := 0, dest := crownUnit, initUnit := crownUnit, addr := 0x308000000038, len := 8, firstBE := 0xFF00000000000000, lastBE := BitVec.allOnes 64, ackReq := true, data := [1] },
     by and_intros <;> decide +kernel⟩,
   ⟨svq,
     { op := .regWr, vc := 0, dest := engineUnit 0, initUnit := crownUnit, addr := 0x300000000008, len := 16, firstBE := 0xFF00000000000000, lastBE := BitVec.allOnes 64, ackReq := true, data := [0x123456789ABCDEF0123456789ABCDEF] },
     by and_intros <;> decide +kernel⟩,
   ⟨svq,
     { op := .regWr, vc := 0, dest := crownUnit, initUnit := cuffUnit 0, addr := 0x308000000038, len := 8, firstBE := 0xFF00000000000000, lastBE := BitVec.allOnes 64, ackReq := true, data := [1] },
     by and_intros <;> decide +kernel⟩,
   ⟨svq, { req .zlRd with dest := cuffUnit 0, hostSpace := true, link := 0, fn := 1, len := 0 }, by and_intros <;> decide +kernel⟩,
   ⟨(svq.modFn ⟨0, 1⟩ (fun x => { x with bme := false })),
     { req .zlRd with dest := cuffUnit 0, hostSpace := true, link := 0, fn := 1, len := 0 }, by and_intros <;> decide +kernel⟩⟩

theorem witness_ResponsePacketsComplete :
    (∃ (s : State) (p : Packet) (r : Req) (q : QId) (first : Nat) (n : Nat), s.AnswersReq .cplD p r ∧ r.ctx = .qFetch q first n ∧
      r.left ≤ p.data.length ∧ r.code = 0 ∧ p.status = 0 ∧ p.ep = false ∧ (first, n) ∈ (s.queue q).fetching ∧ (s.queue q).faulted = false) ∧
    (∃ (s : State) (p : Packet) (r : Req) (q : QId) (first : Nat) (n : Nat), s.AnswersReq .cpl p r ∧ r.ctx = .qFetch q first n ∧
      r.code = 0 ∧ p.status ≠ 0 ∧ (s.queue q).enable = true ∧ (s.queue q).faulted = false ∧ s.fnEnabled q.fnId = true) ∧
    (∃ (s : State) (p : Packet) (r : Req) (q : QId) (i : Nat), s.AnswersReq .ack p r ∧ r.ctx = .qResult q i ∧ r.code = 0 ∧ p.status = 0) ∧
    (∃ (s : State) (r : Req) (q : QId) (first : Nat) (n : Nat), s.awake = true ∧ s.reqOf r.unit r.tag = some r ∧ s.timed r = true ∧
      r.ctx = .qFetch q first n ∧ (s.queue q).enable = true ∧ (s.queue q).faulted = false) ∧
    (∃ (s : State) (p : Packet) (c : Instr), c ∈ [.cplD p, .cpl p, .ack p, .mrD p, .mrAck p] ∧ (c = .cplD p → p.op = .cplD) ∧
      (c = .cpl p → p.op = .cpl) ∧ (c = .ack p → p.op = .ack) ∧ (c = .mrD p → p.op = .mrD) ∧ (c = .mrAck p → p.op = .mrAck) ∧
      p.op.cls = vcCls p.vc ∧ s.fenced p.dest = false ∧ s.unitOn p.dest = true ∧ (p.dest, p.tag) ∈ s.net.dead ∧ s.waitsTurn p = false) ∧
    (∃ (s : State) (p : Packet) (r : Req), s.AnswersReq .cplD p r ∧ (∀ l x, r.ctx ≠ .borderIn l x)) ∧
    (∃ (s : State) (p : Packet) (r : Req), s.AnswersReq .cplD p r ∧ (∀ l x, r.ctx ≠ .borderIn l x)) ∧
    (∃ (s : State) (p : Packet) (r : Req), s.AnswersReq .cplD p r ∧ (∀ l x, r.ctx ≠ .borderIn l x)) ∧
    (∃ (s : State) (p : Packet) (r : Req), s.AnswersReq .cplD p r ∧ (∀ l x, r.ctx ≠ .borderIn l x)) ∧
    (∃ (s : State) (p : Packet) (r : Req), s.AnswersReq .cpl p r) ∧
    (∃ (s : State) (p : Packet) (r : Req), s.AnswersReq .cpl p r) ∧
    (∃ (s : State) (p : Packet) (r : Req), s.AnswersReq .ack p r) :=
  ⟨⟨({ svq.modQueue qw (fun _ => { qu 3 with fetching := [(8, 1)] }) with net.outst := [{ unit := queueUnit 0, tag := 9, ctx := .qFetch qw 8 1, pkt := { op := .memRd, addr := 0x10000, len := 64, ackReq := true }, left := 1 }] } : State),
     { op := .cplD, vc := 4, dest := queueUnit 0, tag := 9, addr := 0x10000, data := [5] },
     { unit := queueUnit 0, tag := 9, ctx := .qFetch qw 8 1, pkt := { op := .memRd, addr := 0x10000, len := 64, ackReq := true }, left := 1 },
     qw, 8, 1, by and_intros <;> decide +kernel⟩,
   ⟨({ svq.modQueue qw (fun _ => { qu 3 with fetching := [(8, 1)] }) with net.outst := [{ unit := queueUnit 0, tag := 9, ctx := .qFetch qw 8 1, pkt := { op := .memRd, addr := 0x10000, len := 64, ackReq := true }, left := 1 }] } : State),
     { op := .cpl, vc := 4, dest := queueUnit 0, tag := 9, status := 0x0030 },
     { unit := queueUnit 0, tag := 9, ctx := .qFetch qw 8 1, pkt := { op := .memRd, addr := 0x10000, len := 64, ackReq := true }, left := 1 },
     qw, 8, 1, by and_intros <;> decide +kernel⟩,
   ⟨({ svq.modQueue qw (fun _ => { qu 3 with entries := [{ idx := 3, bytes := 0, wr := 1 }] }) with net.outst := [{ unit := queueUnit 0, tag := 9, ctx := .qResult qw 3, pkt := { op := .memWr, addr := 0x10000, len := 64, ackReq := true }, left := 1 }] } : State),
     { op := .ack, vc := 4, dest := queueUnit 0, tag := 9 },
     { unit := queueUnit 0, tag := 9, ctx := .qResult qw 3, pkt := { op := .memWr, addr := 0x10000, len := 64, ackReq := true }, left := 1 },
     qw, 3, by and_intros <;> decide +kernel⟩,
   ⟨({ svq.modQueue qw (fun _ => { qu 3 with fetching := [(8, 1)] }) with net.outst := [{ unit := queueUnit 0, tag := 9, ctx := .qFetch qw 8 1, pkt := { op := .memRd, addr := 0x10000, len := 64, ackReq := true }, left := 1 }] } : State),
     { unit := queueUnit 0, tag := 9, ctx := .qFetch qw 8 1, pkt := { op := .memRd, addr := 0x10000, len := 64, ackReq := true }, left := 1 },
     qw, 8, 1, by and_intros <;> decide +kernel⟩,
   ⟨({ svq with net.dead := [(queueUnit 0, 9)] } : State), ({ op := .cplD, vc := 4, dest := queueUnit 0, tag := 9 } : Packet),
     .cplD ({ op := .cplD, vc := 4, dest := queueUnit 0, tag := 9 } : Packet), by and_intros <;> decide +kernel⟩,
   ⟨({ svq.modQueue qw (fun _ => { qu 3 with fetching := [(8, 1)] }) with net.outst := [{ unit := queueUnit 0, tag := 9, ctx := .qFetch qw 8 1, pkt := { op := .memRd, addr := 0x10000, len := 64, ackReq := true }, left := 1 }] } : State),
     { op := .cplD, vc := 4, dest := queueUnit 0, tag := 9, addr := 0x10000, data := [5] },
     { unit := queueUnit 0, tag := 9, ctx := .qFetch qw 8 1, pkt := { op := .memRd, addr := 0x10000, len := 64, ackReq := true }, left := 1 },
     by and_intros <;> first | decide +kernel | simp⟩,
   ⟨({ svq.modQueue qw (fun _ => { qu 3 with fetching := [(8, 2)] }) with net.outst := [{ unit := queueUnit 0, tag := 9, ctx := .qFetch qw 8 2, pkt := { op := .memRd, addr := 0x10000, len := 128, ackReq := true }, left := 2 }] } : State),
     { op := .cplD, vc := 4, dest := queueUnit 0, tag := 9, addr := 0x10040, data := [5] },
     { unit := queueUnit 0, tag := 9, ctx := .qFetch qw 8 2, pkt := { op := .memRd, addr := 0x10000, len := 128, ackReq := true }, left := 2 },
     by and_intros <;> first | decide +kernel | simp⟩,
   ⟨({ svq.modQueue qw (fun _ => { qu 3 with fetching := [(8, 2)] }) with net.outst := [{ unit := queueUnit 0, tag := 9, ctx := .qFetch qw 8 2, pkt := { op := .memRd, addr := 0x10000, len := 128, ackReq := true }, left := 2 }] } : State),
     { op := .cplD, vc := 4, dest := queueUnit 0, tag := 9, addr := 0x10040, data := [5], ep := true },
     { unit := queueUnit 0, tag := 9, ctx := .qFetch qw 8 2, pkt := { op := .memRd, addr := 0x10000, len := 128, ackReq := true }, left := 2 },
     by and_intros <;> first | decide +kernel | simp⟩,
   ⟨({ svq.modQueue qw (fun _ => { qu 3 with fetching := [(8, 2)] }) with net.outst := [{ unit := queueUnit 0, tag := 9, ctx := .qFetch qw 8 2, pkt := { op := .memRd, addr := 0x10000, len := 128, ackReq := true }, left := 2 }] } : State),
     { op := .cplD, vc := 4, dest := queueUnit 0, tag := 9, addr := 0x10000, data := [5, 6], ep := true },
     { unit := queueUnit 0, tag := 9, ctx := .qFetch qw 8 2, pkt := { op := .memRd, addr := 0x10000, len := 128, ackReq := true }, left := 2 },
     by and_intros <;> first | decide +kernel | simp⟩,
   ⟨({ svq.modQueue qw (fun _ => { qu 3 with fetching := [(8, 1)] }) with net.outst := [{ unit := queueUnit 0, tag := 9, ctx := .qFetch qw 8 1, pkt := { op := .memRd, addr := 0x10000, len := 64, ackReq := true }, left := 1 }] } : State),
     { op := .cpl, vc := 4, dest := queueUnit 0, tag := 9, status := 0x0030 },
     { unit := queueUnit 0, tag := 9, ctx := .qFetch qw 8 1, pkt := { op := .memRd, addr := 0x10000, len := 64, ackReq := true }, left := 1 },
     by and_intros <;> decide +kernel⟩,
   ⟨({ svq.modQueue qw (fun _ => { qu 3 with fetching := [(8, 1)] }) with net.outst := [{ unit := queueUnit 0, tag := 9, ctx := .qFetch qw 8 1, pkt := { op := .memRd, addr := 0x10000, len := 64, ackReq := true }, left := 1 }] } : State),
     { op := .cpl, vc := 4, dest := queueUnit 0, tag := 9 },
     { unit := queueUnit 0, tag := 9, ctx := .qFetch qw 8 1, pkt := { op := .memRd, addr := 0x10000, len := 64, ackReq := true }, left := 1 },
     by and_intros <;> decide +kernel⟩,
   ⟨({ svq.modQueue qw (fun _ => { qu 3 with entries := [{ idx := 3, bytes := 0, wr := 1 }] }) with net.outst := [{ unit := queueUnit 0, tag := 9, ctx := .qResult qw 3, pkt := { op := .memWr, addr := 0x10000, len := 64, ackReq := true }, left := 1 }] } : State),
     { op := .ack, vc := 4, dest := queueUnit 0, tag := 9 },
     { unit := queueUnit 0, tag := 9, ctx := .qResult qw 3, pkt := { op := .memWr, addr := 0x10000, len := 64, ackReq := true }, left := 1 },
     by and_intros <;> decide +kernel⟩⟩

theorem witness_MetadataAndTierPacketsComplete :
    (∃ (s : State) (p : Packet), s.Arrives .mqRd p ∧ isStackCtl p.dest = false ∧ (∀ l, s.hbmPlace (unitQuad p.dest) p.addr ≠ .table l) ∧
      (∀ b l i, s.hbmPlace (unitQuad p.dest) p.addr ≠ .node b l i) ∧ s.hbmLost (unitQuad p.dest) p.addr = false) ∧
    (∃ (s : State) (p : Packet) (b : _) (l : _) (i : _) (d : _), s.Arrives .mqRd p ∧ isStackCtl p.dest = false ∧
      s.hbmPlace (unitQuad p.dest) p.addr = .node b l i ∧ s.hcHeld b l i = some d) ∧
    (∃ (s : State) (p : Packet) (b : _) (l : _) (i : _), s.Arrives .mqRd p ∧ isStackCtl p.dest = false ∧
      s.hbmPlace (unitQuad p.dest) p.addr = .node b l i ∧ s.hcHeld b l i = none ∧ s.hbmLost (unitQuad p.dest) p.addr = false) ∧
    (∃ (s : State) (p : Packet) (l : _) (d : _) (u : _), s.Arrives .mqRd p ∧ isStackCtl p.dest = false ∧
      s.hbmPlace (unitQuad p.dest) p.addr = .table l ∧ (s.take p).bring true 8 0 l = (.inl d, u)) ∧
    (∃ (s : State) (p : Packet), s.Arrives .mqRd p ∧ isStackCtl p.dest = true ∧
      s.rootOk (decide (3984 ≤ p.addr / 64)) (p.addr / 64 % 3984) = true) ∧
    (∃ (s : State) (p : Packet), s.Arrives .mqRd p ∧ isStackCtl p.dest = true ∧
      s.rootOk (decide (3984 ≤ p.addr / 64)) (p.addr / 64 % 3984) = true) ∧
    (∃ (s : State) (p : Packet), s.Arrives .mqWr p ∧ p.ep = false ∧ (∀ l, s.hbmPlace (unitQuad p.dest) p.addr ≠ .table l) ∧ (∀ b l i,
      s.hbmPlace (unitQuad p.dest) p.addr ≠ .node b l i)) ∧
    (∃ (s : State) (p : Packet) (b : _) (l : _) (i : _), s.Arrives .mqWr p ∧ p.ep = false ∧
      s.hbmPlace (unitQuad p.dest) p.addr = .node b l i) ∧
    (∃ (s : State) (p : Packet) (l : _), s.Arrives .mqWr p ∧ p.ep = false ∧ s.hbmPlace (unitQuad p.dest) p.addr = .table l) ∧
    (∃ (s : State) (p : Packet), s.Arrives .mqMac p ∧ p.ep = false ∧ isStackCtl p.dest = true ∧ p.addr / 64 < 3984 ∧
      s.rootOk false (p.addr / 64) = true) ∧
    (∃ (s : State) (p : Packet), s.Arrives .mqMac p ∧ p.ep = false ∧ isStackCtl p.dest = true ∧ p.addr / 64 < 3984 ∧
      s.rootOk false (p.addr / 64) = false) ∧
    (∃ (s : State) (p : Packet) (b : _) (l : _) (i : _) (u : _), s.Arrives .mqMac p ∧ p.ep = false ∧ isStackCtl p.dest = false ∧
      s.hbmPlace (unitQuad p.dest) p.addr = .node b l i ∧
      (s.take p).updateMac b l i (p.addr / 8 % 8) (macAt (p.data.headD 0) (p.addr / 8 % 8)) = (none, u)) ∧
    (∃ (s : State) (p : Packet) (l : _) (x : _), s.Arrives .tierLookup p ∧ p.poolLines = [l] ∧ s.tierFind l = some x) ∧
    (∃ (s : State) (p : Packet), s.Arrives .tierLookup p ∧ (∀ l ∈ p.poolLines, s.tierFind l = none)) ∧
    (∃ (s : State) (p : Packet), s.Arrives .tierLookup p) ∧
    (∃ (s : State) (p : Packet) (x : _), s.Arrives .tierFill p ∧ p.ep = false ∧ s.tierFind (poolAddr p.addr / 64) = some x ∧
      s.tierFenced x.stack x.set = false) ∧
    (∃ (s : State) (p : Packet), s.Arrives .tierFill p ∧ p.ep = false) ∧
    (∃ (s : State) (p : Packet), s.Arrives .tierFill p ∧ p.ep = false) ∧
    (∃ (s : State) (p : Packet) (d : _) (m : _), s.Arrives .mirrorWr p ∧ p.ep = false ∧ p.data = [d, m]) ∧
    (∃ (s : State) (p : Packet) (d : _), s.Arrives .mirrorWr p ∧ p.ep = false ∧ p.data = [d]) :=
  ⟨⟨svq, { op := .mqRd, vc := 6, dest := hbmGateUnit 0 0, initUnit := gateUnit 0, tag := 9, len := 64, addr := 0 },
     by
      have h : svq.hbmPlace 0 0 = .counter 0 := by decide +kernel
      and_intros <;> first | decide +kernel | (intros; exact fun e => by cases h.symm.trans e)⟩,
   ⟨(svq.hcPut false 1 0 77 false),
     { op := .mqRd, vc := 6, dest := hbmGateUnit 0 0, initUnit := gateUnit 0, tag := 9, len := 64, addr := svq.ctrBytes }, false, 1, 0,
     77, by and_intros <;> first | decide +kernel | simp⟩,
   ⟨svq, { op := .mqRd, vc := 6, dest := hbmGateUnit 0 0, initUnit := gateUnit 0, tag := 9, len := 64, addr := svq.ctrBytes }, false, 1,
     0, by and_intros <;> decide +kernel⟩,
   ⟨(svq.hcPut true 0 0 77 false),
     { op := .mqRd, vc := 6, dest := hbmGateUnit 0 0, initUnit := gateUnit 0, tag := 9, len := 64, addr := (svq.ctrBytes + svq.treeBytes 0) },
     0, 77,
     ((svq.hcPut true 0 0 77 false).take { op := .mqRd, vc := 6, dest := hbmGateUnit 0 0, initUnit := gateUnit 0, tag := 9, len := 64, addr := (svq.ctrBytes + svq.treeBytes 0) }),
     by and_intros <;> first | decide +kernel | exact State.bring_held 7 (by decide +kernel) ((State.hcHeld_take ..).trans (State.hcHeld_hcPut ..))⟩,
   ⟨({ svq with pool.root := [(0, (5, svq.nodeMac (svq.treeTop false) 0 5))] } : State),
     { op := .mqRd, vc := 6, dest := stackUnit 0, initUnit := gateUnit 0, tag := 9, len := 64, addr := 0 },
     by and_intros <;> first | decide +kernel | exact beq_self_eq_true _⟩,
   ⟨({ svq with pool.root := [(0, (5, svq.nodeMac (svq.treeTop false) 0 5))] } : State),
     { op := .mqRd, vc := 6, dest := stackUnit 0, initUnit := gateUnit 0, tag := 9, len := 64, addr := 64 * 3984 },
     by and_intros <;> first | decide +kernel | exact beq_self_eq_true _⟩,
   ⟨svq, { op := .mqWr, vc := 6, dest := hbmGateUnit 0 0, initUnit := gateUnit 0, tag := 9, len := 64, addr := 64, data := [0x1234] },
     by
      have h : svq.hbmPlace 0 64 = .counter (svq.blockAt 0 1) := by decide +kernel
      and_intros <;> first | decide +kernel | (intros; exact fun e => by cases h.symm.trans e)⟩,
   ⟨svq,
     { op := .mqWr, vc := 6, dest := hbmGateUnit 0 0, initUnit := gateUnit 0, tag := 9, len := 64, addr := svq.ctrBytes, data := [0x1234] },
     false, 1, 0, by and_intros <;> decide +kernel⟩,
   ⟨svq,
     { op := .mqWr, vc := 6, dest := hbmGateUnit 0 0, initUnit := gateUnit 0, tag := 9, len := 64, addr := (svq.ctrBytes + svq.treeBytes 0), data := [0x1234] },
     0, by and_intros <;> decide +kernel⟩,
   ⟨({ svq with pool.root := [(0, (5, svq.nodeMac (svq.treeTop false) 0 5))] } : State),
     { op := .mqMac, vc := 6, dest := stackUnit 0, initUnit := gateUnit 0, tag := 9, len := 64, addr := 8, data := [0x1234] },
     by and_intros <;> first | decide +kernel | exact beq_self_eq_true _⟩,
   ⟨({ svq with pool.root := [(0, (5, svq.nodeMac (svq.treeTop false) 0 5 + 1))] } : State),
     { op := .mqMac, vc := 6, dest := stackUnit 0, initUnit := gateUnit 0, tag := 9, len := 64, addr := 8, data := [0x1234] },
     by and_intros <;> first | decide +kernel | exact beq_succ _⟩,
   ⟨(svq.hcPut false 1 0 77 false),
     { op := .mqMac, vc := 6, dest := hbmGateUnit 0 0, initUnit := gateUnit 0, tag := 9, len := 64, addr := svq.ctrBytes + 8, data := [0x1234] },
     false, 1, 0, _,
     by and_intros <;> first | decide +kernel | exact State.updateMac_held _ _ (by decide +kernel) ((State.hcHeld_take ..).trans (State.hcHeld_hcPut ..))⟩,
   ⟨({ svq with pool.tier := [tl0] } : State),
     { op := .tierLookup, vc := 6, dest := stackUnit 0, initUnit := gateUnit 0, tag := 9, len := 64, addr := 0 }, 0, tl0,
     by and_intros <;> decide +kernel⟩,
   ⟨svq, { op := .tierLookup, vc := 6, dest := stackUnit 0, initUnit := gateUnit 0, tag := 9, len := 64, addr := 0 },
     by and_intros <;> decide +kernel⟩,
   ⟨({ svq with pool.tier := [tl0] } : State),
     { op := .tierLookup, vc := 6, dest := stackUnit 0, initUnit := gateUnit 0, tag := 9, len := 128, addr := 0 },
     by and_intros <;> decide +kernel⟩,
   ⟨({ svq with pool.tier := [tl0] } : State),
     { op := .tierFill, vc := 6, dest := stackUnit 0, initUnit := gateUnit 0, tag := 9, len := 64, metaw := 4, ctx := 0, data := [0x1234] },
     tl0, by and_intros <;> decide +kernel⟩,
   ⟨({ svq with pool.tier := [tl0] } : State),
     { op := .tierFill, vc := 6, dest := stackUnit 0, initUnit := gateUnit 0, tag := 9, len := 64, metaw := 4, ctx := 0, data := [0x1234] },
     by and_intros <;> decide +kernel⟩,
   ⟨svq,
     { op := .tierFill, vc := 6, dest := stackUnit 0, initUnit := gateUnit 0, tag := 9, len := 64, metaw := 4, ctx := 0, data := [0x1234] },
     by and_intros <;> decide +kernel⟩,
   ⟨svq, { op := .mirrorWr, vc := 6, dest := gateUnit 1, initUnit := gateUnit 0, tag := 9, addr := 0x1000, len := 64, data := [1, 2] }, 1,
     2, by and_intros <;> decide +kernel⟩,
   ⟨svq, { op := .mirrorWr, vc := 6, dest := gateUnit 1, initUnit := gateUnit 0, tag := 9, addr := 0x1000, len := 64, data := [1] }, 1,
     by and_intros <;> decide +kernel⟩⟩

theorem witness_MetadataResponsesComplete :
    (∃ (s : State) (p : Packet) (r : Req) (g : Nat) (blk : Nat) (u : _) (a : _) (w : _), s.AnswersReq .mrD p r ∧
      r.ctx = .gateMeta g blk 0 ∧ p.status = 0 ∧ p.ep = false ∧ s.walkOf g blk = some w ∧ w.path = [] ∧ g < 16 ∧ s.treeTop false ≠ 0 ∧
      s.parentAt false 0 (s.leafOf blk) = (u, a) ∧ s.fenced u = false ∧ s.poisoned g blk = false ∧ (s.gate g).mqWait = [] ∧
      s.mqRoom g u = true) ∧
    (∃ (s : State) (p : Packet) (r : Req) (g : Nat) (blk : Nat), s.AnswersReq .mrD p r ∧ r.ctx = .gateMeta g blk 0 ∧ p.status ≠ 0 ∧
      g < 16 ∧ (s.gate g).walks = [] ∧ (s.gate g).parked = [] ∧ (s.gate g).wcb = [] ∧ (s.gate g).poison.length < 256 ∧
      (s.gate g).mqWait = []) ∧
    (∃ (s : State) (p : Packet) (r : Req) (g : Nat) (blk : Nat), s.AnswersReq .mrAck p r ∧ r.ctx = .gateMac g blk ∧ p.status = 0 ∧
      ((s.gate g).ccache.get ({}, false) blk).2 = false ∧ (s.gate g).mqWait = []) ∧
    (∃ (s : State) (p : Packet) (r : Req) (g : Nat) (blk : Nat) (u : _) (a : _), s.AnswersReq .mrAck p r ∧ r.ctx = .gateEvict g blk ∧
      g < 16 ∧ s.parentAt false 0 (s.leafOf blk) = (u, a) ∧ (s.gate g).mqWait = [] ∧ s.mqRoom g u = true) ∧
    (∃ (s : State) (p : Packet) (r : Req) (g : Nat) (blk : Nat) (level : _), s.AnswersReq .mrD p r ∧ r.ctx = .gateMeta g blk level ∧
      p.ep = false ∧ p.status = 0) ∧
    (∃ (s : State) (p : Packet) (r : Req) (g : Nat) (blk : Nat) (level : _), s.AnswersReq .mrD p r ∧ r.ctx = .gateMeta g blk level ∧
      p.ep = false ∧ p.status = 0) ∧
    (∃ (s : State) (p : Packet) (r : Req) (g : Nat) (l : _), s.AnswersReq .mrD p r ∧ r.ctx = .gateOwn g l ∧ p.ep = false ∧ p.status = 0) ∧
    (∃ (s : State) (p : Packet) (r : Req) (g : Nat) (blk : Nat), s.AnswersReq .mrD p r ∧ r.ctx = .gateTier g blk) ∧
    (∃ (s : State) (p : Packet) (r : Req) (g : Nat) (blk : Nat), s.AnswersReq .mrAck p r ∧ r.ctx = .gateTier g blk) ∧
    (∃ (s : State) (p : Packet) (r : Req) (g : Nat) (blk : Nat), s.AnswersReq .mrAck p r ∧ r.ctx = .gateEvict g blk) ∧
    (∃ (s : State) (p : Packet) (r : Req) (g : Nat) (l : _), s.AnswersReq .mrAck p r ∧ r.ctx = .gateOwn g l) ∧
    (∃ (s : State) (p : Packet) (r : Req) (g : Nat) (line : _), s.AnswersReq .mrAck p r ∧ r.ctx = .gateFill g line) :=
  ⟨⟨({ svq.modGate 0 (fun _ => { walks := [{ block := 0, fetch := true, waiting := [req .memRd] }] }) with net.outst := [{ unit := gateUnit 0, tag := 9, ctx := .gateMeta 0 0 0, pkt := { op := .mqRd, len := 64 }, left := 1 }] } : State),
     { op := .mrD, vc := 7, dest := gateUnit 0, tag := 9, data := [7] },
     { unit := gateUnit 0, tag := 9, ctx := .gateMeta 0 0 0, pkt := { op := .mqRd, len := 64 }, left := 1 }, 0, 0,
     (svq.parentAt false 0 (svq.leafOf 0)).1, (svq.parentAt false 0 (svq.leafOf 0)).2,
     { block := 0, fetch := true, waiting := [req .memRd] },
     by and_intros <;> first | decide +kernel | exact Prod.mk.eta.symm | exact State.mqRoom_of_few _ _ (by decide +kernel)⟩,
   ⟨({ svq.modGate 0 (fun _ => {}) with net.outst := [{ unit := gateUnit 0, tag := 9, ctx := .gateMeta 0 0 0, pkt := { op := .mqRd, len := 64 }, left := 1 }] } : State),
     { op := .mrD, vc := 7, dest := gateUnit 0, tag := 9, status := 0x0202 },
     { unit := gateUnit 0, tag := 9, ctx := .gateMeta 0 0 0, pkt := { op := .mqRd, len := 64 }, left := 1 }, 0, 0,
     by and_intros <;> decide +kernel⟩,
   ⟨({ svq.modGate 0 (fun _ => { ccache := [(0, ({}, false))] }) with net.outst := [{ unit := gateUnit 0, tag := 9, ctx := .gateMac 0 0, pkt := { op := .mqMac, len := 64 }, left := 1 }] } : State),
     { op := .mrAck, vc := 7, dest := gateUnit 0, tag := 9 },
     { unit := gateUnit 0, tag := 9, ctx := .gateMac 0 0, pkt := { op := .mqMac, len := 64 }, left := 1 }, 0, 0,
     by and_intros <;> decide +kernel⟩,
   ⟨({ svq.modGate 0 (fun _ => { ccache := [(0, ({}, true))] }) with net.outst := [{ unit := gateUnit 0, tag := 9, ctx := .gateEvict 0 0, pkt := { op := .mqWr, len := 64 }, left := 1 }] } : State),
     { op := .mrAck, vc := 7, dest := gateUnit 0, tag := 9 },
     { unit := gateUnit 0, tag := 9, ctx := .gateEvict 0 0, pkt := { op := .mqWr, len := 64 }, left := 1 }, 0, 0,
     (svq.parentAt false 0 (svq.leafOf 0)).1, (svq.parentAt false 0 (svq.leafOf 0)).2,
     by and_intros <;> first | decide +kernel | exact Prod.mk.eta.symm | exact State.mqRoom_of_few _ _ (by decide +kernel)⟩,
   ⟨({ svq.modGate 0 (fun _ => { walks := [{ block := 0, fetch := true, waiting := [req .memRd] }] }) with net.outst := [{ unit := gateUnit 0, tag := 9, ctx := .gateMeta 0 0 0, pkt := { op := .mqRd, len := 64 }, left := 1 }] } : State),
     { op := .mrD, vc := 7, dest := gateUnit 0, tag := 9, data := [7] },
     { unit := gateUnit 0, tag := 9, ctx := .gateMeta 0 0 0, pkt := { op := .mqRd, len := 64 }, left := 1 }, 0, 0, 0,
     by and_intros <;> decide +kernel⟩,
   ⟨({ svq.modGate 0 (fun _ => { walks := [{ block := 0, fetch := true, path := [1, 2, 3], level := 3, waiting := [req .memRd] }] }) with net.outst := [{ unit := gateUnit 0, tag := 9, ctx := .gateMeta 0 0 3, pkt := { op := .mqRd, len := 64 }, left := 1 }] } : State),
     { op := .mrD, vc := 7, dest := gateUnit 0, tag := 9, data := [7] },
     { unit := gateUnit 0, tag := 9, ctx := .gateMeta 0 0 3, pkt := { op := .mqRd, len := 64 }, left := 1 }, 0, 0, 3,
     by and_intros <;> decide +kernel⟩,
   ⟨({ svq.modGate 0 (fun _ => { walks := [{ block := 0, ownFetch := true, waiting := [req .memRd] }] }) with net.outst := [{ unit := gateUnit 0, tag := 9, ctx := .gateOwn 0 0, pkt := { op := .mqRd, len := 64 }, left := 1 }] } : State),
     { op := .mrD, vc := 7, dest := gateUnit 0, tag := 9, data := [BitVec.ofNat 512 (packOwn { gen := 1, owner := 0, state := 1 })] },
     { unit := gateUnit 0, tag := 9, ctx := .gateOwn 0 0, pkt := { op := .mqRd, len := 64 }, left := 1 }, 0, 0,
     by and_intros <;> decide +kernel⟩,
   ⟨({ svq.modGate 0 (fun _ => { walks := [{ block := 0, tier := true, waiting := [req .memRd] }] }) with net.outst := [{ unit := gateUnit 0, tag := 9, ctx := .gateTier 0 0, pkt := { op := .tierLookup, len := 64 }, left := 1 }] } : State),
     { op := .mrD, vc := 7, dest := gateUnit 0, tag := 9, data := [7] },
     { unit := gateUnit 0, tag := 9, ctx := .gateTier 0 0, pkt := { op := .tierLookup, len := 64 }, left := 1 }, 0, 0,
     by and_intros <;> decide +kernel⟩,
   ⟨({ svq.modGate 0 (fun _ => { walks := [{ block := 0, tier := true, waiting := [req .memRd] }] }) with net.outst := [{ unit := gateUnit 0, tag := 9, ctx := .gateTier 0 0, pkt := { op := .tierLookup, len := 64 }, left := 1 }] } : State),
     { op := .mrAck, vc := 7, dest := gateUnit 0, tag := 9 },
     { unit := gateUnit 0, tag := 9, ctx := .gateTier 0 0, pkt := { op := .tierLookup, len := 64 }, left := 1 }, 0, 0,
     by and_intros <;> decide +kernel⟩,
   ⟨({ svq.modGate 0 (fun _ => { ccache := [(0, ({}, true))] }) with net.outst := [{ unit := gateUnit 0, tag := 9, ctx := .gateEvict 0 0, pkt := { op := .mqWr, len := 64 }, left := 1 }] } : State),
     { op := .mrAck, vc := 7, dest := gateUnit 0, tag := 9 },
     { unit := gateUnit 0, tag := 9, ctx := .gateEvict 0 0, pkt := { op := .mqWr, len := 64 }, left := 1 }, 0, 0,
     by and_intros <;> decide +kernel⟩,
   ⟨({ svq.modGate 0 (fun _ => { walks := [{ block := 0, ownFetch := true, waiting := [req .memRd] }] }) with net.outst := [{ unit := gateUnit 0, tag := 9, ctx := .gateOwn 0 0, pkt := { op := .mqRd, len := 64 }, left := 1 }] } : State),
     { op := .mrAck, vc := 7, dest := gateUnit 0, tag := 9, status := 0x0202 },
     { unit := gateUnit 0, tag := 9, ctx := .gateOwn 0 0, pkt := { op := .mqRd, len := 64 }, left := 1 }, 0, 0,
     by and_intros <;> decide +kernel⟩,
   ⟨({ svq.modGate 0 (fun _ => {}) with net.outst := [{ unit := gateUnit 0, tag := 9, ctx := .gateFill 0 0, pkt := { op := .tierFill, len := 64 }, left := 1 }] } : State),
     { op := .mrAck, vc := 7, dest := gateUnit 0, tag := 9 },
     { unit := gateUnit 0, tag := 9, ctx := .gateFill 0 0, pkt := { op := .tierFill, len := 64 }, left := 1 }, 0, 0,
     by and_intros <;> decide +kernel⟩⟩

theorem witness_GateTimersAndReencryptionComplete :
    (∃ (s : State) (g : Nat) (line : _), (s.gate g).parked = [] ∧ (s.gate g).walks = [] ∧ (s.gate g).mqWait = [] ∧
      (∃ k ∈ (s.gate g).locks, k.line = line)) ∧
    (∃ (s : State) (g : Nat) (line : _) (w : _) (c : _), (s.gate g).parked = [] ∧ (s.gate g).walks = [] ∧ (s.gate g).mqWait = [] ∧
      s.wcbFind g line = some w ∧ w.waiting = false ∧ w.bad = false ∧ (s.gate g).retired = false ∧ s.ctrHeld g (line / 64) = some c ∧
      c.gen = s.genOf line ∧ c.minors.get 0 (line % 64) < 127 ∧ s.tierLimit (g / 4) w.slot ≠ 0) ∧
    (∃ (s : State) (g : Nat) (r : _) (w : _) (c : _) (block : _), (s.gate g).parked = [] ∧ (s.gate g).walks = [] ∧
      (s.gate g).mqWait = [] ∧ (s.gate g).reencs = [r] ∧ r.block = block ∧ s.ctrHeld g block = some c ∧ s.wcbFind g r.line = some w) ∧
    (∃ (s : State) (g : Nat) (w : _) (c : _), (s.gate g).parked = [] ∧ (s.gate g).walks = [] ∧ (s.gate g).mqWait = [] ∧
      (s.gate g).reencs = [] ∧ (s.gate g).wcb = [w] ∧ w.waiting = true ∧ s.ctrHeld g (w.line / 64) = some c) ∧
    (∃ (s : State) (g : Nat) (r : _) (block : _), (s.gate g).reencs = [r] ∧ r.block = block ∧ r.raised = false) ∧
    (∃ (s : State) (g : Nat) (line : _), (∃ k ∈ (s.gate g).locks, k.line = line)) ∧
    (∃ (s : State) (g : Nat) (line : _) (w : _), s.wcbFind g line = some w ∧ w.waiting = false) ∧
    (∃ (s : State) (g : Nat) (line : _) (w : _), s.wcbFind g line = some w ∧ w.waiting = false) ∧
    (∃ (s : State) (g : Nat) (line : _) (w : _), s.wcbFind g line = some w ∧ w.waiting = false) ∧
    (∃ (s : State) (g : Nat) (r : _) (c : _) (w : _) (block : _), (s.gate g).reencs.find? (fun r => r.block == block) = some r ∧
      s.ctrHeld g block = some c ∧ s.wcbFind g r.line = some w) ∧
    (∃ (s : State) (g : Nat) (r : _) (block : _), (s.gate g).reencs.find? (fun r => r.block == block && !r.raised) = some r) ∧
    (∃ (s : State) (g : Nat) (w : _) (c : _), (s.gate g).reencs.length < 4 ∧
      (s.gate g).wcb.find? (fun w => w.waiting && !(s.gate g).reencs.any (fun r => r.block == w.line / 64)) = some w ∧
      s.ctrHeld g (w.line / 64) = some c) :=
  ⟨⟨(svq.modGate 0 (fun _ => { locks := [⟨0, 5, 9⟩, ⟨1, 5, 8⟩] })), 0, 0, by and_intros <;> decide +kernel⟩,
   ⟨({ (svq.modGate 0 (fun _ => { wcb := [wl], ccache := [(0, ({ major := 2, gen := 1, minors := [(0, 126)] }, false))], reencs := [] })) with pool.owns := [(0, { gen := 1, owner := 0, state := 1 })] } : State),
     0, 0, wl, { major := 2, gen := 1, minors := [(0, 126)] }, by and_intros <;> decide +kernel⟩,
   ⟨(svq.modGate 0 (fun _ => { wcb := [{ wl with waiting := true }], ccache := [(0, ({ major := 2, gen := 1, minors := [(0, 127)] }, false))], reencs := [⟨0, 0, false, 5⟩] })),
     0, ⟨0, 0, false, 5⟩, { wl with waiting := true }, { major := 2, gen := 1, minors := [(0, 127)] }, 0,
     by and_intros <;> decide +kernel⟩,
   ⟨(svq.modGate 0 (fun _ => { wcb := [{ wl with waiting := true }], ccache := [(0, ({ major := 2, gen := 1, minors := [(0, 127)] }, false))], reencs := [] })),
     0, { wl with waiting := true }, { major := 2, gen := 1, minors := [(0, 127)] }, by and_intros <;> decide +kernel⟩,
   ⟨(svq.modGate 0 (fun _ => { reencs := [⟨0, 0, false, 5⟩] })), 0, ⟨0, 0, false, 5⟩, 0, by and_intros <;> decide +kernel⟩,
   ⟨(svq.modGate 0 (fun _ => { locks := [⟨0, 5, 9⟩, ⟨1, 5, 8⟩], parked := [req .memRd] })), 0, 0, by and_intros <;> decide +kernel⟩,
   ⟨({ (svq.modGate 0 (fun _ => { wcb := [wl], ccache := [(0, ({ major := 2, gen := 1, minors := [(0, 126)] }, false))], reencs := [] })) with pool.owns := [(0, { gen := 1, owner := 0, state := 1 })] } : State),
     0, 0, wl, by and_intros <;> decide +kernel⟩,
   ⟨({ (svq.modGate 0 (fun _ => { wcb := [wl], ccache := [(0, ({ major := 2, gen := 1, minors := [(0, 127)] }, false))], reencs := [] })) with pool.owns := [(0, { gen := 1, owner := 0, state := 1 })] } : State),
     0, 0, wl, by and_intros <;> decide +kernel⟩,
   ⟨({ (svq.modGate 0 (fun _ => { wcb := [wl], parked := [req .memRd] })) with pool.owns := [(0, { gen := 1, owner := 0, state := 1 })] } : State),
     0, 0, wl, by and_intros <;> decide +kernel⟩,
   ⟨({ (svq.modGate 0 (fun _ => { wcb := [{ wl with waiting := true }], ccache := [(0, ({ major := 2, gen := 1, minors := [(0, 127)] }, false))], reencs := [⟨0, 0, false, 5⟩] })) with pool.owns := [(0, { gen := 1, owner := 0, state := 1 })] } : State),
     0, ⟨0, 0, false, 5⟩, { major := 2, gen := 1, minors := [(0, 127)] }, { wl with waiting := true }, 0,
     by and_intros <;> decide +kernel⟩,
   ⟨(svq.modGate 0 (fun _ => { reencs := [⟨0, 0, true, 0⟩, ⟨3, 192, false, 5⟩] })), 0, ⟨3, 192, false, 5⟩, 3,
     by and_intros <;> decide +kernel⟩,
   ⟨({ (svq.modGate 0 (fun _ => { wcb := [{ wl with waiting := true }], ccache := [(0, ({ major := 2, gen := 1, minors := [(0, 127)] }, false))], reencs := [⟨3, 192, false, 5⟩] })) with pool.owns := [(0, { gen := 1, owner := 0, state := 1 })] } : State),
     0, { wl with waiting := true }, { major := 2, gen := 1, minors := [(0, 127)] }, by and_intros <;> decide +kernel⟩⟩

theorem witness_DeviceInitiatedTransfersComplete :
    (∃ (s : State) (l : Nat) (fn : Nat) (a : Nat) (d : List (Option Byte)) (p : Packet) (last : Bool), s.awake = true ∧
      (s.link l).up = true ∧ (s.link l).txq.find? (s.eligible l) = some (.memWr fn a d p last) ∧ p.op = .memWr ∧ p.ackReq = true) ∧
    (∃ (s : State) (l : Nat) (fn : Nat) (a : Nat) (d : List (Option Byte)) (p : Packet) (last : Bool), s.awake = true ∧
      (s.link l).up = true ∧ (s.link l).txq.find? (s.eligible l) = some (.memWr fn a d p last) ∧ p.op = .memWr ∧ p.ackReq = true) ∧
    (∃ (s : State) (l : Nat) (fn : Nat) (a : Nat) (n : Nat) (tag : Nat) (p : Packet), s.awake = true ∧ (s.link l).up = true ∧
      (s.link l).txq.find? (s.eligible l) = some (.memRd fn a n p) ∧ s.hostTag ⟨l, fn⟩ = some tag) ∧
    (∃ (s : State) (c : HostCpl) (r : HostReq) (d : DevReq) (n : Nat), s.awake = true ∧ (s.link c.link).up = true ∧ c.ide = none ∧
      (s.link c.link).reqs = [r] ∧ r.fn = c.fn ∧ r.tag = c.tag ∧ (s.link c.link).devReqs = [d] ∧ d.pkt = r.pkt ∧ d.left = 1 ∧
      (s.link c.link).txq = [] ∧ r.pkt.lines = [n] ∧ r.pkt.op = .memRd ∧ c.status = .sc ∧ r.len ≤ c.data.length) ∧
    (∃ (s : State) (c : HostCpl) (r : HostReq) (d : DevReq) (n : Nat), s.awake = true ∧ (s.link c.link).up = true ∧ c.ide = none ∧
      (s.link c.link).reqs = [r] ∧ r.fn = c.fn ∧ r.tag = c.tag ∧ (s.link c.link).devReqs = [d] ∧ d.pkt = r.pkt ∧ d.left = 1 ∧
      (s.link c.link).txq = [] ∧ r.pkt.lines = [n] ∧ r.pkt.op = .memRd ∧ c.status = .sc ∧ c.data.length < r.len) ∧
    (∃ (s : State) (c : HostCpl) (r : HostReq) (d : DevReq) (n : Nat), s.awake = true ∧ (s.link c.link).up = true ∧ c.ide = none ∧
      (s.link c.link).reqs = [r] ∧ r.fn = c.fn ∧ r.tag = c.tag ∧ (s.link c.link).devReqs = [d] ∧ d.pkt = r.pkt ∧ d.left = 1 ∧
      (s.link c.link).txq = [] ∧ r.pkt.lines = [n] ∧ r.pkt.op = .memRd ∧ c.status ≠ .sc) ∧
    (∃ (s : State) (c : HostCpl) (r : HostReq) (d : DevReq) (n : Nat), s.awake = true ∧ (s.link c.link).up = true ∧ c.ide = none ∧
      (s.link c.link).reqs = [r] ∧ r.fn = c.fn ∧ r.tag = c.tag ∧ (s.link c.link).devReqs = [d] ∧ d.pkt = r.pkt ∧ d.left = 1 ∧
      (s.link c.link).txq = [] ∧ r.pkt.lines = [n] ∧ r.pkt.op = .memRd) ∧
    (∃ (s : State) (c : HostCpl), s.awake = true ∧ (s.link c.link).up = true ∧ c.ide = none ∧ (∀ r ∈ (s.link c.link).reqs, r.fn = c.fn →
      r.tag ≠ c.tag)) ∧
    (∃ (s : State) (l : Nat), (s.awake = false ∨ (s.link l).up = false ∨ (s.link l).txq.find? (s.eligible l) = none)) ∧
    (∃ (s : State) (l : Nat), (s.awake = false ∨ (s.link l).up = false ∨ (s.link l).txq.find? (s.eligible l) = none)) ∧
    (∃ (s : State) (c : HostCpl) (r : HostReq), s.awake = true ∧ (s.link c.link).up = true ∧ (∀ i, c.ide = some i → i.ok = true) ∧
      (s.link c.link).reqs.find? (fun r => r.fn == c.fn && r.tag == c.tag) = some r ∧ c.status ≠ .sc) ∧
    (∃ (s : State) (c : HostCpl) (r : HostReq), s.awake = true ∧ (s.link c.link).up = true ∧ (∀ i, c.ide = some i → i.ok = true) ∧
      (s.link c.link).reqs.find? (fun r => r.fn == c.fn && r.tag == c.tag) = some r ∧ c.status ≠ .sc) ∧
    (∃ (s : State) (c : HostCpl) (r : HostReq), s.awake = true ∧ (s.link c.link).up = true ∧ (∀ i, c.ide = some i → i.ok = true) ∧
      (s.link c.link).reqs.find? (fun r => r.fn == c.fn && r.tag == c.tag) = some r ∧ c.status = .sc ∧ c.data.length < r.len ∧
      (∀ d ∈ (s.link c.link).devReqs, samePkt d.pkt r.pkt = true → d.left ≠ 0)) ∧
    (∃ (s : State) (c : HostCpl) (r : HostReq) (d : _), s.awake = true ∧ (s.link c.link).up = true ∧ (∀ i, c.ide = some i → i.ok = true) ∧
      (s.link c.link).reqs.find? (fun r => r.fn == c.fn && r.tag == c.tag) = some r ∧ c.status = .sc ∧ r.len ≤ c.data.length ∧
      ((s.link c.link).devReqs.map (fun d => if samePkt d.pkt r.pkt then { d with got := d.got ++ [(r.addr, c.data.take r.len)], left := d.left - 1, ep := d.ep || c.ep } else d)).find? (fun d => samePkt d.pkt r.pkt) = some d) ∧
    (∃ (s : State) (c : HostCpl) (r : HostReq) (d : _), s.awake = true ∧ (s.link c.link).up = true ∧ (∀ i, c.ide = some i → i.ok = true) ∧
      (s.link c.link).reqs.find? (fun r => r.fn == c.fn && r.tag == c.tag) = some r ∧ c.status = .sc ∧ r.len ≤ c.data.length ∧
      ((s.link c.link).devReqs.map (fun d => if samePkt d.pkt r.pkt then { d with got := d.got ++ [(r.addr, c.data.take r.len)], left := d.left - 1, ep := d.ep || c.ep } else d)).find? (fun d => samePkt d.pkt r.pkt) = some d) ∧
    (∃ (s : State) (c : HostCpl) (i : IdeMark), s.awake = true ∧ (s.link c.link).up = true ∧ c.ide = some i ∧ i.ok = false) ∧
    (∃ (s : State) (l : Nat) (unit : Nat) (tag : Nat),
      (s.link l).devReqs.find? (fun d => d.pkt.initUnit == unit && d.pkt.tag == tag) = none) ∧
    (∃ (s : State) (l : Nat) (unit : Nat) (tag : Nat) (d : _),
      (s.link l).devReqs.find? (fun d => d.pkt.initUnit == unit && d.pkt.tag == tag) = some d) :=
  ⟨⟨(svq.modLink 0 (fun x => { x with txq := [.memWr 1 0x1000 [] ({ op := .memWr, initUnit := engineUnit 0, tag := 9, link := 0, fn := 1, hostSpace := true, addr := 0x1000, len := 64, ackReq := true }) true] })),
     0, 1, 0x1000, [],
     { op := .memWr, initUnit := engineUnit 0, tag := 9, link := 0, fn := 1, hostSpace := true, addr := 0x1000, len := 64, ackReq := true },
     true, by and_intros <;> decide +kernel⟩,
   ⟨(svq.modLink 0 (fun x => { x with txq := [.memWr 1 0x1000 [] ({ op := .memWr, initUnit := engineUnit 0, tag := 9, link := 0, fn := 1, hostSpace := true, addr := 0x1000, len := 64, ackReq := true }) false] })),
     0, 1, 0x1000, [],
     { op := .memWr, initUnit := engineUnit 0, tag := 9, link := 0, fn := 1, hostSpace := true, addr := 0x1000, len := 64, ackReq := true },
     false, by and_intros <;> decide +kernel⟩,
   ⟨(svq.modLink 0 (fun x => { x with txq := [.memRd 1 0x1000 64 ({ op := .memRd, initUnit := engineUnit 0, tag := 9, link := 0, fn := 1, hostSpace := true, addr := 0x1000, len := 64 })] })),
     0, 1, 0x1000, 64, 0,
     { op := .memRd, initUnit := engineUnit 0, tag := 9, link := 0, fn := 1, hostSpace := true, addr := 0x1000, len := 64 },
     by and_intros <;> decide +kernel⟩,
   ⟨(svq.modLink 0 (fun x => { x with reqs := [⟨1, 0, 0x1000, 64, { op := .memRd, initUnit := engineUnit 0, tag := 9, link := 0, fn := 1, hostSpace := true, addr := 0x1000, len := 64 }⟩], devReqs := [{ pkt := { op := .memRd, initUnit := engineUnit 0, tag := 9, link := 0, fn := 1, hostSpace := true, addr := 0x1000, len := 64 }, left := 1 }] })),
     { link := 0, fn := 1, tag := 0, status := .sc, data := List.replicate 64 7, ep := false }, ⟨1, 0, 0x1000, 64,
     { op := .memRd, initUnit := engineUnit 0, tag := 9, link := 0, fn := 1, hostSpace := true, addr := 0x1000, len := 64 }⟩,
     { pkt := { op := .memRd, initUnit := engineUnit 0, tag := 9, link := 0, fn := 1, hostSpace := true, addr := 0x1000, len := 64 }, left := 1 },
     64, by and_intros <;> decide +kernel⟩,
   ⟨(svq.modLink 0 (fun x => { x with reqs := [⟨1, 0, 0x1000, 64, { op := .memRd, initUnit := engineUnit 0, tag := 9, link := 0, fn := 1, hostSpace := true, addr := 0x1000, len := 64 }⟩], devReqs := [{ pkt := { op := .memRd, initUnit := engineUnit 0, tag := 9, link := 0, fn := 1, hostSpace := true, addr := 0x1000, len := 64 }, left := 1 }] })),
     { link := 0, fn := 1, tag := 0, status := .sc, data := List.replicate 63 7, ep := false }, ⟨1, 0, 0x1000, 64,
     { op := .memRd, initUnit := engineUnit 0, tag := 9, link := 0, fn := 1, hostSpace := true, addr := 0x1000, len := 64 }⟩,
     { pkt := { op := .memRd, initUnit := engineUnit 0, tag := 9, link := 0, fn := 1, hostSpace := true, addr := 0x1000, len := 64 }, left := 1 },
     64, by and_intros <;> decide +kernel⟩,
   ⟨(svq.modLink 0 (fun x => { x with reqs := [⟨1, 0, 0x1000, 64, { op := .memRd, initUnit := engineUnit 0, tag := 9, link := 0, fn := 1, hostSpace := true, addr := 0x1000, len := 64 }⟩], devReqs := [{ pkt := { op := .memRd, initUnit := engineUnit 0, tag := 9, link := 0, fn := 1, hostSpace := true, addr := 0x1000, len := 64 }, left := 1 }] })),
     { link := 0, fn := 1, tag := 0, status := .ur, data := List.replicate 0 7, ep := false }, ⟨1, 0, 0x1000, 64,
     { op := .memRd, initUnit := engineUnit 0, tag := 9, link := 0, fn := 1, hostSpace := true, addr := 0x1000, len := 64 }⟩,
     { pkt := { op := .memRd, initUnit := engineUnit 0, tag := 9, link := 0, fn := 1, hostSpace := true, addr := 0x1000, len := 64 }, left := 1 },
     64, by and_intros <;> decide +kernel⟩,
   ⟨(svq.modLink 0 (fun x => { x with reqs := [⟨1, 0, 0x1000, 64, { op := .memRd, initUnit := engineUnit 0, tag := 9, link := 0, fn := 1, hostSpace := true, addr := 0x1000, len := 64 }⟩], devReqs := [{ pkt := { op := .memRd, initUnit := engineUnit 0, tag := 9, link := 0, fn := 1, hostSpace := true, addr := 0x1000, len := 64 }, left := 1 }] })),
     { link := 0, fn := 1, tag := 0, status := .sc, data := List.replicate 64 7, ep := false }, ⟨1, 0, 0x1000, 64,
     { op := .memRd, initUnit := engineUnit 0, tag := 9, link := 0, fn := 1, hostSpace := true, addr := 0x1000, len := 64 }⟩,
     { pkt := { op := .memRd, initUnit := engineUnit 0, tag := 9, link := 0, fn := 1, hostSpace := true, addr := 0x1000, len := 64 }, left := 1 },
     64, by and_intros <;> decide +kernel⟩,
   ⟨svq, { link := 0, fn := 1, tag := 0, status := .sc, data := List.replicate 64 7, ep := false }, by and_intros <;> decide +kernel⟩,
   ⟨svq, 0, by and_intros <;> decide +kernel⟩,
   ⟨(svq.modLink 0 (fun x => { x with up := false, txq := [.memRd 1 0x1000 64 ({ op := .memRd, initUnit := engineUnit 0, tag := 9, link := 0, fn := 1, hostSpace := true, addr := 0x1000, len := 64 })] })),
     0, by and_intros <;> decide +kernel⟩,
   ⟨(svq.modLink 0 (fun x => { x with reqs := [⟨1, 0, 0x1000, 64, { op := .memRd, initUnit := engineUnit 0, tag := 9, link := 0, fn := 1, hostSpace := true, addr := 0x1000, len := 64 }⟩], devReqs := [{ pkt := { op := .memRd, initUnit := engineUnit 0, tag := 9, link := 0, fn := 1, hostSpace := true, addr := 0x1000, len := 64 }, left := 1 }] })),
     { link := 0, fn := 1, tag := 0, status := .ur, data := List.replicate 0 7, ep := false }, ⟨1, 0, 0x1000, 64,
     { op := .memRd, initUnit := engineUnit 0, tag := 9, link := 0, fn := 1, hostSpace := true, addr := 0x1000, len := 64 }⟩,
     by and_intros <;> decide +kernel⟩,
   ⟨(svq.modLink 0 (fun x => { x with reqs := [⟨1, 0, 0x1000, 64, { op := .memRd, initUnit := engineUnit 0, tag := 9, link := 0, fn := 1, hostSpace := true, addr := 0x1000, len := 64 }⟩], devReqs := [{ pkt := { op := .memRd, initUnit := engineUnit 0, tag := 9, link := 0, fn := 1, hostSpace := true, addr := 0x1000, len := 64 }, left := 1 }] })),
     { link := 0, fn := 1, tag := 0, status := .ca, data := List.replicate 0 7, ep := false, ide := some { stream := 5, ok := true } },
     ⟨1, 0, 0x1000, 64,
     { op := .memRd, initUnit := engineUnit 0, tag := 9, link := 0, fn := 1, hostSpace := true, addr := 0x1000, len := 64 }⟩,
     by and_intros <;> decide +kernel⟩,
   ⟨(svq.modLink 0 (fun x => { x with reqs := [⟨1, 0, 0x1000, 64, { op := .memRd, initUnit := engineUnit 0, tag := 9, link := 0, fn := 1, hostSpace := true, addr := 0x1000, len := 64 }⟩], devReqs := [{ pkt := { op := .memRd, initUnit := engineUnit 0, tag := 9, link := 0, fn := 1, hostSpace := true, addr := 0x1000, len := 64 }, left := 1 }] })),
     { link := 0, fn := 1, tag := 0, status := .sc, data := List.replicate 32 7, ep := false }, ⟨1, 0, 0x1000, 64,
     { op := .memRd, initUnit := engineUnit 0, tag := 9, link := 0, fn := 1, hostSpace := true, addr := 0x1000, len := 64 }⟩,
     by and_intros <;> decide +kernel⟩,
   ⟨(svq.modLink 0 (fun x => { x with reqs := [⟨1, 0, 0x1000, 64, { op := .memRd, initUnit := engineUnit 0, tag := 9, link := 0, fn := 1, hostSpace := true, addr := 0x1000, len := 64 }⟩], devReqs := [{ pkt := { op := .memRd, initUnit := engineUnit 0, tag := 9, link := 0, fn := 1, hostSpace := true, addr := 0x1000, len := 64 }, left := 1 }] })),
     { link := 0, fn := 1, tag := 0, status := .sc, data := List.replicate 64 7, ep := false }, ⟨1, 0, 0x1000, 64,
     { op := .memRd, initUnit := engineUnit 0, tag := 9, link := 0, fn := 1, hostSpace := true, addr := 0x1000, len := 64 }⟩,
     { pkt := { op := .memRd, initUnit := engineUnit 0, tag := 9, link := 0, fn := 1, hostSpace := true, addr := 0x1000, len := 64 }, left := 0, got := [(0x1000, List.replicate 64 7)] },
     by and_intros <;> decide +kernel⟩,
   ⟨(svq.modLink 0 (fun x => { x with reqs := [⟨1, 0, 0x1000, 64, { op := .memRd, initUnit := engineUnit 0, tag := 9, link := 0, fn := 1, hostSpace := true, addr := 0x1000, len := 64 }⟩], devReqs := [{ pkt := { op := .memRd, initUnit := engineUnit 0, tag := 9, link := 0, fn := 1, hostSpace := true, addr := 0x1000, len := 64 }, left := 2 }] })),
     { link := 0, fn := 1, tag := 0, status := .sc, data := List.replicate 64 7, ep := false }, ⟨1, 0, 0x1000, 64,
     { op := .memRd, initUnit := engineUnit 0, tag := 9, link := 0, fn := 1, hostSpace := true, addr := 0x1000, len := 64 }⟩,
     { pkt := { op := .memRd, initUnit := engineUnit 0, tag := 9, link := 0, fn := 1, hostSpace := true, addr := 0x1000, len := 64 }, left := 1, got := [(0x1000, List.replicate 64 7)] },
     by and_intros <;> decide +kernel⟩,
   ⟨(svq.modLink 0 (fun x => { x with reqs := [⟨1, 0, 0x1000, 64, { op := .memRd, initUnit := engineUnit 0, tag := 9, link := 0, fn := 1, hostSpace := true, addr := 0x1000, len := 64 }⟩], devReqs := [{ pkt := { op := .memRd, initUnit := engineUnit 0, tag := 9, link := 0, fn := 1, hostSpace := true, addr := 0x1000, len := 64 }, left := 1 }] })),
     { link := 0, fn := 1, tag := 0, status := .sc, data := List.replicate 64 7, ep := false, ide := some { stream := 5, ok := false } },
     { stream := 5, ok := false }, by and_intros <;> decide +kernel⟩,
   ⟨svq, 0, engineUnit 0, 9, by and_intros <;> decide +kernel⟩,
   ⟨(svq.modLink 0 (fun x => { x with reqs := [⟨1, 0, 0x1000, 64, { op := .memRd, initUnit := engineUnit 0, tag := 9, link := 0, fn := 1, hostSpace := true, addr := 0x1000, len := 64 }⟩], devReqs := [{ pkt := { op := .memRd, initUnit := engineUnit 0, tag := 9, link := 0, fn := 1, hostSpace := true, addr := 0x1000, len := 64 }, left := 1 }] })),
     0, engineUnit 0, 9,
     { pkt := { op := .memRd, initUnit := engineUnit 0, tag := 9, link := 0, fn := 1, hostSpace := true, addr := 0x1000, len := 64 }, left := 1 },
     by and_intros <;> decide +kernel⟩⟩

theorem witness_MessageModerationCommandsComplete :
    (∃ (s : State) (f : FnId) (vec : Nat), s.awake = true ∧ s.fnEnabled f = true ∧ vec < vectorsOf f ∧
      (s.group f (vec / 8)).running = false ∧ (s.group f (vec / 8)).due = 0) ∧
    (∃ (s : State) (f : FnId) (vec : Nat), s.awake = true ∧ s.fnEnabled f = true ∧ vec < vectorsOf f ∧
      (s.group f (vec / 8)).running = true ∧ (s.group f (vec / 8)).due &&& BitVec.ofNat 8 (2 ^ (vec % 8)) = 0) ∧
    (∃ (s : State) (f : FnId) (vec : Nat), s.awake = true ∧ s.fnEnabled f = true ∧ vec < vectorsOf f ∧
      (s.group f (vec / 8)).running = true ∧ (s.group f (vec / 8)).due &&& BitVec.ofNat 8 (2 ^ (vec % 8)) ≠ 0) ∧
    (∃ (s : State) (f : FnId) (vec : Nat), s.awake = true ∧ s.fnEnabled f = true ∧ vec < vectorsOf f ∧
      (s.group f (vec / 8)).running = true ∧ (s.group f (vec / 8)).due = BitVec.ofNat 8 (2 ^ (vec % 8))) ∧
    (∃ (s : State) (f : FnId) (vec : Nat), s.awake = true ∧ s.fnEnabled f = true ∧ vec < vectorsOf f ∧
      (s.group f (vec / 8)).running = true ∧ (s.group f (vec / 8)).due = 0) ∧
    (∃ (s : State) (f : FnId) (vec : Nat), s.awake = true ∧ s.fnEnabled f = true ∧ vec < vectorsOf f ∧
      s.waitsTurn (msgPacket f vec) = false ∧ s.fenced (cuffUnit (f.link / 2)) = false ∧ s.unitOn (cuffUnit (f.link / 2)) = true) ∧
    (∃ (s : State) (f : FnId) (vec : Nat), s.awake = true ∧ s.fnEnabled f = true ∧ vec < vectorsOf f ∧
      s.waitsTurn (msgPacket f vec) = false ∧ s.fenced (cuffUnit (f.link / 2)) = true) ∧
    (∃ (s : State) (f : FnId) (vec : Nat), s.awake = true ∧ s.fnEnabled f = true ∧ vec < vectorsOf f ∧
      (s.group f (vec / 8)).running = false ∧ (s.group f (vec / 8)).due &&& BitVec.ofNat 8 (2 ^ (vec % 8)) = 0) ∧
    (∃ (s : State) (f : FnId) (vec : Nat), s.awake = true ∧ s.fnEnabled f = true ∧ vec < vectorsOf f ∧
      (s.group f (vec / 8)).running = false ∧ (s.group f (vec / 8)).due &&& BitVec.ofNat 8 (2 ^ (vec % 8)) = 0) ∧
    (∃ (s : State) (f : FnId) (vec : Nat), s.awake = true ∧ s.fnEnabled f = true ∧ vec < vectorsOf f ∧
      (s.group f (vec / 8)).running = true ∧ (s.group f (vec / 8)).due ≠ 0) ∧
    (∃ (s : State) (f : FnId) (vec : Nat), s.awake = true ∧ s.fnEnabled f = true ∧ vec < vectorsOf f ∧
      s.waitsTurn (msgPacket f vec) = true) ∧
    (∃ (s : State) (f : FnId) (vec : Nat), s.awake = true ∧ s.fnEnabled f = true ∧ vec < vectorsOf f ∧
      s.waitsTurn (msgPacket f vec) = false ∧ s.fenced (cuffUnit (f.link / 2)) = false ∧ s.unitOn (cuffUnit (f.link / 2)) = false) ∧
    (∃ (s : State) (f : FnId) (vec : Nat) (v : _), s.awake = true ∧ s.fnEnabled f = true ∧ vec < vectorsOf f ∧ vectorsOf f ≤ v) :=
  ⟨⟨(svq.modFn ⟨0, 1⟩ (fun x => { x with groups := [(7, { holdoff := 5 })] })), ⟨0, 1⟩, 63, by and_intros <;> decide +kernel⟩,
   ⟨(svq.modFn ⟨0, 1⟩ (fun x => { x with groups := [(7, { running := true, due := 1 })] })), ⟨0, 1⟩, 63, by and_intros <;> decide +kernel⟩,
   ⟨(svq.modFn ⟨0, 1⟩ (fun x => { x with groups := [(7, { running := true, due := 0x80 })] })), ⟨0, 1⟩, 63,
     by and_intros <;> decide +kernel⟩,
   ⟨(svq.modFn ⟨0, 1⟩ (fun x => { x with groups := [(7, { running := true, due := 0x80, holdoff := 3 })] })), ⟨0, 1⟩, 63,
     by and_intros <;> decide +kernel⟩,
   ⟨(svq.modFn ⟨0, 1⟩ (fun x => { x with groups := [(7, { running := true })] })), ⟨0, 1⟩, 63, by and_intros <;> decide +kernel⟩,
   ⟨({ svq with net.msgReqs := [(⟨0, 1⟩, 63)] } : State), ⟨0, 1⟩, 63, by and_intros <;> decide +kernel⟩,
   ⟨(svq.modUnit (cuffUnit 0) (fun x => { x with state := 1 })), ⟨0, 1⟩, 63, by and_intros <;> decide +kernel⟩,
   ⟨(svq.modFn ⟨0, 1⟩ (fun x => { x with groups := [(7, { holdoff := 5 })] })), ⟨0, 1⟩, 63, by and_intros <;> decide +kernel⟩,
   ⟨svq, ⟨0, 1⟩, 63, by and_intros <;> decide +kernel⟩,
   ⟨(svq.modFn ⟨0, 1⟩ (fun x => { x with groups := [(7, { running := true, due := 0x80, holdoff := 3 })] })), ⟨0, 1⟩, 63,
     by and_intros <;> decide +kernel⟩,
   ⟨({ svq with net.pkts := [(3, { (msgPacket ⟨0, 1⟩ 62) with tag := 0 }), (4, msgPacket ⟨0, 1⟩ 63)] } : State), ⟨0, 1⟩, 63,
     by and_intros <;> decide +kernel⟩,
   ⟨(svq.modDom 1 (fun x => { x with state := 1 })), ⟨0, 1⟩, 63, by and_intros <;> decide +kernel⟩,
   ⟨({ svq with net.events := [(⟨0, 1⟩, 64)] } : State), ⟨0, 1⟩, 63, 64, by and_intros <;> decide +kernel⟩⟩

theorem witness_MessageDeliveryCommandsComplete :
    (∃ (s : State) (f : FnId) (vec : Nat), s.awake = true ∧ (s.link f.link).power = .l0 ∧ (f, vec) ∈ s.host.msgs ∧ vec ∉ (s.fn f).pba ∧
      s.canSend f vec = true) ∧
    (∃ (s : State) (f : FnId) (vec : Nat), s.awake = true ∧ (s.link f.link).power = .l0 ∧ (f, vec) ∈ s.host.msgs ∧ vec ∈ (s.fn f).pba) ∧
    (∃ (s : State) (f : FnId) (vec : Nat), s.awake = true ∧ (s.link f.link).power = .l0 ∧ (f, vec) ∈ s.host.msgs ∧ vec ∉ (s.fn f).pba ∧
      s.canSend f vec = false ∧ (s.fn f).d3 = false ∧ (s.fn f).msixEnable = true ∧ (s.link f.link).wake = false) ∧
    (∃ (s : State) (f : FnId) (vec : Nat), s.awake = true ∧ (s.link f.link).power = .l0 ∧ (f, vec) ∈ s.host.msgs ∧ vec ∉ (s.fn f).pba ∧
      (s.fn f).d3 = true ∧ (s.fn f).pmeEn = true ∧ (s.fn f).pmeStatus = false ∧ (s.link f.link).up = true ∧ (s.link f.link).wake = false) ∧
    (∃ (s : State) (f : FnId) (vec : Nat), s.awake = true ∧ (s.link f.link).power = .l0 ∧ vec ∈ (s.fn f).pba ∧ s.canSend f vec = true) ∧
    (∃ (s : State) (f : FnId) (vec : Nat), s.awake = true ∧ (s.link f.link).power = .l0 ∧ s.bar0On f = true ∧ vec < vectorsOf f) ∧
    (∃ (s : State) (f : FnId), s.awake = true ∧ (s.link f.link).power = .l0 ∧ s.cfgOpen f = true) ∧
    (∃ (s : State) (f : FnId) (vec : Nat), s.awake = true ∧ (s.link f.link).power = .l0 ∧ (s.bar0On f = false ∨ vectorsOf f ≤ vec)) ∧
    (∃ (s : State) (f : FnId) (vec : Nat), s.awake = true ∧ (s.link f.link).power = .l0 ∧ (s.bar0On f = false ∨ vectorsOf f ≤ vec)) ∧
    (∃ (s : State) (f : FnId), s.awake = true ∧ (s.link f.link).power = .l0 ∧ s.cfgOpen f = false) ∧
    (∃ (s : State) (f : FnId) (vec : Nat), s.awake = true ∧ (s.link f.link).power = .l0 ∧ (f, vec) ∉ s.host.msgs) ∧
    (∃ (s : State) (f : FnId) (vec : Nat), s.awake = true ∧ (s.link f.link).power = .l0 ∧ (vec ∉ (s.fn f).pba ∨ s.canSend f vec = false)) ∧
    (∃ (s : State) (f : FnId) (vec : Nat), s.awake = true ∧ (s.link f.link).power = .l0 ∧ (vec ∉ (s.fn f).pba ∨ s.canSend f vec = false)) ∧
    (∃ (s : State) (f : FnId) (vec : Nat), s.awake = true ∧ (f, vec) ∈ s.host.msgs ∧ vec ∉ (s.fn f).pba ∧ s.canSend f vec = true) ∧
    (∃ (s : State) (f : FnId) (vec : Nat), s.awake = true ∧ (f, vec) ∈ s.host.msgs ∧ vec ∉ (s.fn f).pba ∧ s.canSend f vec = false ∧
      ((s.fn f).d3 = true ∨ (s.fn f).msixEnable = false)) ∧
    (∃ (s : State) (f : FnId) (vec : Nat), s.awake = true ∧ (f, vec) ∈ s.host.msgs ∧ vec ∉ (s.fn f).pba ∧ s.canSend f vec = false ∧
      ((s.fn f).d3 = true ∨ (s.fn f).msixEnable = false)) ∧
    (∃ (s : State) (f : FnId) (vec : Nat), s.awake = true ∧ (f, vec) ∈ s.host.msgs ∧ vec ∉ (s.fn f).pba ∧ s.canSend f vec = false ∧
      (s.fn f).d3 = false ∧ (s.fn f).msixEnable = true) ∧
    (∃ (s : State) (f : FnId) (vec : Nat), s.awake = true ∧ (f, vec) ∈ s.host.msgs ∧ vec ∉ (s.fn f).pba ∧ s.canSend f vec = false ∧
      (s.fn f).d3 = false ∧ (s.fn f).msixEnable = true) ∧
    (∃ (s : State) (f : FnId) (vec : Nat), s.awake = true ∧ vec ∈ (s.fn f).pba ∧ s.canSend f vec = true) :=
  ⟨⟨(({ svq with host.msgs := [(⟨0, 1⟩, 3)] } : State).modFn ⟨0,
     1⟩ (fun x => { x with msix := [(3, { addr := 0xFEE00000, data := 9, mask := false })] })), ⟨0, 1⟩, 3,
     by and_intros <;> decide +kernel⟩,
   ⟨(({ svq with host.msgs := [(⟨0, 1⟩, 3)] } : State).modFn ⟨0,
     1⟩ (fun x => { x with msix := [(3, { addr := 0xFEE00000, data := 9, mask := false })], pba := [3] })), ⟨0, 1⟩, 3,
     by and_intros <;> decide +kernel⟩,
   ⟨(({ svq with host.msgs := [(⟨0, 1⟩, 3)] } : State).modFn ⟨0, 1⟩ (fun x => { x with pba := [2] })), ⟨0, 1⟩, 3,
     by and_intros <;> decide +kernel⟩,
   ⟨(({ svq with host.msgs := [(⟨0, 1⟩, 3)] } : State).modFn ⟨0, 1⟩ (fun x => { x with d3 := true, pmeEn := true })), ⟨0, 1⟩, 3,
     by and_intros <;> decide +kernel⟩,
   ⟨(({ svq with host.msgs := [(⟨0, 1⟩, 3)] } : State).modFn ⟨0,
     1⟩ (fun x => { x with msix := [(3, { addr := 0xFEE00000, data := 9, mask := false })], pba := [3] })), ⟨0, 1⟩, 3,
     by and_intros <;> decide +kernel⟩,
   ⟨svq, ⟨0, 1⟩, 63, by and_intros <;> decide +kernel⟩,
   ⟨svq, ⟨0, 1⟩, by and_intros <;> decide +kernel⟩,
   ⟨svq, ⟨0, 1⟩, 64, by and_intros <;> decide +kernel⟩,
   ⟨(svq.modFn ⟨0, 1⟩ (fun x => { x with d3 := true })), ⟨0, 1⟩, 3, by and_intros <;> decide +kernel⟩,
   ⟨(svq.modFn ⟨0, 1⟩ (fun x => { x with flr := true })), ⟨0, 1⟩, by and_intros <;> decide +kernel⟩,
   ⟨svq, ⟨0, 1⟩, 3, by and_intros <;> decide +kernel⟩,
   ⟨svq, ⟨0, 1⟩, 3, by and_intros <;> decide +kernel⟩,
   ⟨(({ svq with host.msgs := [(⟨0, 1⟩, 3)] } : State).modFn ⟨0, 1⟩ (fun x => { x with pba := [3] })), ⟨0, 1⟩, 3,
     by and_intros <;> decide +kernel⟩,
   ⟨(({ svq with host.msgs := [(⟨0, 1⟩, 3)] } : State).modFn ⟨0,
     1⟩ (fun x => { x with msix := [(3, { addr := 0xFEE00000, data := 9, mask := false })] })), ⟨0, 1⟩, 3,
     by and_intros <;> decide +kernel⟩,
   ⟨(({ svq with host.msgs := [(⟨0, 1⟩, 3)] } : State).modFn ⟨0, 1⟩ (fun x => { x with d3 := true, pmeEn := true })), ⟨0, 1⟩, 3,
     by and_intros <;> decide +kernel⟩,
   ⟨(({ svq with host.msgs := [(⟨0, 1⟩, 3)] } : State).modFn ⟨0, 1⟩ (fun x => { x with msixEnable := false })), ⟨0, 1⟩, 3,
     by and_intros <;> decide +kernel⟩,
   ⟨(({ svq with host.msgs := [(⟨0, 1⟩, 3)] } : State).modFn ⟨0, 1⟩ (fun x => { x with pba := [2] })), ⟨0, 1⟩, 3,
     by and_intros <;> decide +kernel⟩,
   ⟨(({ svq with host.msgs := [(⟨0, 1⟩, 3)] } : State).modFn ⟨0,
     1⟩ (fun x => { x with msix := [(3, { addr := 0xFEE00000, data := 9, mask := false })], fnMask := true })), ⟨0, 1⟩, 3,
     by and_intros <;> decide +kernel⟩,
   ⟨(({ svq with host.msgs := [(⟨0, 1⟩, 3)] } : State).modFn ⟨0,
     1⟩ (fun x => { x with msix := [(3, { addr := 0xFEE00000, data := 9, mask := false })], pba := [3] })), ⟨0, 1⟩, 3,
     by and_intros <;> decide +kernel⟩⟩

theorem witness_FunctionResetCommandsComplete :
    (∃ (s : State) (f : FnId), s.cfgOpen f = true ∧ 0 < f.fn) ∧
    (∃ (s : State) (l : Nat), s.cfgOpen ⟨l, 0⟩ = true) ∧
    (∃ (s : State) (l : Nat), s.cfgOpen ⟨l, 0⟩ = true ∧ (s.link l).vfEnable = true) ∧
    (∃ (s : State) (l : Nat), s.cfgOpen ⟨l, 0⟩ = true) ∧
    (∃ (s : State) (l : Nat) (v : _), s.cfgOpen ⟨l, 0⟩ = true ∧ (s.range l).2 < v) ∧
    (∃ (s : State) (l : Nat) (v : _), s.cfgOpen ⟨l, 0⟩ = true ∧ v ≤ (s.range l).2 ∧ (s.link l).vfEnable = false) ∧
    (∃ (s : State) (l : Nat) (v : _), s.cfgOpen ⟨l, 0⟩ = true ∧ v ≤ (s.range l).2 ∧ (s.link l).vfEnable = true ∧ v ≠ (s.link l).numVfs) ∧
    (∃ (s : State) (l : Nat) (v : Nat), s.cfgOpen ⟨l, 0⟩ = true ∧ (s.link l).vfEnable = true ∧ v = (s.link l).numVfs ∧ v ≤ (s.range l).2) ∧
    (∃ (s : State) (l : Nat), s.cfgOpen ⟨l, 0⟩ = true ∧ (s.link l).vfEnable = false) ∧
    (∃ (s : State) (f : FnId), s.cfgOpen f = false) ∧
    (∃ (s : State) (l : Nat), s.cfgOpen ⟨l, 0⟩ = false) ∧
    (∃ (s : State) (l : Nat), s.cfgOpen ⟨l, 0⟩ = false) ∧
    (∃ (s : State) (l : Nat), s.cfgOpen ⟨l, 0⟩ = false) :=
  ⟨⟨((svq.modFn ⟨0,
     1⟩ (fun x => { x with pmeEn := true, pmeStatus := true, aer := [.completerAbort] })).modGlove 0 (fun x => { x with tdi := .run, stream := some 3 })),
     ⟨0, 1⟩, by and_intros <;> decide +kernel⟩,
   ⟨((svq.modFn ⟨0,
     1⟩ (fun x => { x with pmeEn := true, pmeStatus := true, aer := [.completerAbort] })).modGlove 0 (fun x => { x with tdi := .run, stream := some 3 })),
     0, by and_intros <;> decide +kernel⟩,
   ⟨((svq.modFn ⟨0,
     1⟩ (fun x => { x with pmeEn := true, pmeStatus := true, aer := [.completerAbort] })).modGlove 0 (fun x => { x with tdi := .run, stream := some 3 })),
     0, by and_intros <;> decide +kernel⟩,
   ⟨((svq.modFn ⟨0,
     1⟩ (fun x => { x with pmeEn := true, pmeStatus := true, aer := [.completerAbort] })).modGlove 0 (fun x => { x with tdi := .run, stream := some 3 })),
     0, by and_intros <;> decide +kernel⟩,
   ⟨((svq.modFn ⟨0,
     1⟩ (fun x => { x with pmeEn := true, pmeStatus := true, aer := [.completerAbort] })).modGlove 0 (fun x => { x with tdi := .run, stream := some 3 })),
     0, 9, by and_intros <;> decide +kernel⟩,
   ⟨(svq.modLink 0 (fun x => { x with vfEnable := false })), 0, 8, by and_intros <;> decide +kernel⟩,
   ⟨((svq.modFn ⟨0,
     1⟩ (fun x => { x with pmeEn := true, pmeStatus := true, aer := [.completerAbort] })).modGlove 0 (fun x => { x with tdi := .run, stream := some 3 })),
     0, 7, by and_intros <;> decide +kernel⟩,
   ⟨((svq.modFn ⟨0,
     1⟩ (fun x => { x with pmeEn := true, pmeStatus := true, aer := [.completerAbort] })).modGlove 0 (fun x => { x with tdi := .run, stream := some 3 })),
     0, 8, by and_intros <;> decide +kernel⟩,
   ⟨(svq.modLink 0 (fun x => { x with vfEnable := false })), 0, by and_intros <;> decide +kernel⟩,
   ⟨(svq.modFn ⟨0, 1⟩ (fun x => { x with flr := true })), ⟨0, 1⟩, by and_intros <;> decide +kernel⟩,
   ⟨(svq.modFn ⟨0, 0⟩ (fun x => { x with flr := true })), 0, by and_intros <;> decide +kernel⟩,
   ⟨(svq.modFn ⟨0, 0⟩ (fun x => { x with flr := true })), 0, by and_intros <;> decide +kernel⟩,
   ⟨(svq.modFn ⟨0, 0⟩ (fun x => { x with flr := true })), 0, by and_intros <;> decide +kernel⟩⟩

theorem witness_BarCommandsComplete :
    (∃ (s : State) (l : Nat), s.cfgOpen ⟨l, 0⟩ = true) ∧
    (∃ (s : State) (l : Nat), s.cfgOpen ⟨l, 0⟩ = true) ∧
    (∃ (s : State) (l : Nat), s.cfgOpen ⟨l, 0⟩ = true) ∧
    (∃ (s : State) (l : Nat), s.cfgOpen ⟨l, 0⟩ = true) ∧
    (∃ (s : State) (l : Nat), s.cfgOpen ⟨l, 0⟩ = true) ∧
    (∃ (s : State) (l : Nat) (v : Nat), s.cfgOpen ⟨l, 0⟩ = true ∧ (s.boot.cfg.bars.getD l (false, 21)).1 = true ∧
      v + 20 ≠ (s.link l).vfSize ∧ (s.link l).vfMse = false ∧ 0 < v ∧ v + 20 ≤ (s.boot.cfg.bars.getD l (false, 21)).2) ∧
    (∃ (s : State) (l : Nat) (v : Nat), s.cfgOpen ⟨l, 0⟩ = true ∧ (s.boot.cfg.bars.getD l (false, 21)).1 = true ∧
      v + 20 ≠ (s.link l).vfSize ∧ (s.link l).vfMse = true) ∧
    (∃ (s : State) (l : Nat) (v : Nat), s.cfgOpen ⟨l, 0⟩ = true ∧ (s.boot.cfg.bars.getD l (false, 21)).1 = true ∧
      v + 20 ≠ (s.link l).vfSize ∧ (v = 0 ∨ (s.boot.cfg.bars.getD l (false, 21)).2 < v + 20)) ∧
    (∃ (s : State) (l : Nat) (v : Nat), s.cfgOpen ⟨l, 0⟩ = true ∧ (s.boot.cfg.bars.getD l (false, 21)).1 = true ∧
      v + 20 ≠ (s.link l).vfSize ∧ (v = 0 ∨ (s.boot.cfg.bars.getD l (false, 21)).2 < v + 20)) ∧
    (∃ (s : State) (l : Nat) (v : Nat), s.cfgOpen ⟨l, 0⟩ = true ∧ ((s.boot.cfg.bars.getD l (false, 21)).1 = false ∨
      v + 20 = (s.link l).vfSize)) ∧
    (∃ (s : State) (l : Nat), s.cfgOpen ⟨l, 0⟩ = false) ∧
    (∃ (s : State) (l : Nat), s.cfgOpen ⟨l, 0⟩ = false) :=
  ⟨⟨((svq.modFn ⟨0,
     1⟩ (fun x => { x with pmeEn := true, pmeStatus := true, aer := [.completerAbort] })).modGlove 0 (fun x => { x with tdi := .run, stream := some 3 })),
     0, by and_intros <;> decide +kernel⟩,
   ⟨((svq.modFn ⟨0,
     1⟩ (fun x => { x with pmeEn := true, pmeStatus := true, aer := [.completerAbort] })).modGlove 0 (fun x => { x with tdi := .run, stream := some 3 })),
     0, by and_intros <;> decide +kernel⟩,
   ⟨((svq.modFn ⟨0,
     1⟩ (fun x => { x with pmeEn := true, pmeStatus := true, aer := [.completerAbort] })).modGlove 0 (fun x => { x with tdi := .run, stream := some 3 })),
     0, by and_intros <;> decide +kernel⟩,
   ⟨((svq.modFn ⟨0,
     1⟩ (fun x => { x with pmeEn := true, pmeStatus := true, aer := [.completerAbort] })).modGlove 0 (fun x => { x with tdi := .run, stream := some 3 })),
     0, by and_intros <;> decide +kernel⟩,
   ⟨((svq.modFn ⟨0,
     1⟩ (fun x => { x with pmeEn := true, pmeStatus := true, aer := [.completerAbort] })).modGlove 0 (fun x => { x with tdi := .run, stream := some 3 })),
     0, by and_intros <;> decide +kernel⟩,
   ⟨(svq.modLink 0 (fun x => { x with vfMse := false })), 0, 1, by and_intros <;> decide +kernel⟩,
   ⟨((svq.modFn ⟨0,
     1⟩ (fun x => { x with pmeEn := true, pmeStatus := true, aer := [.completerAbort] })).modGlove 0 (fun x => { x with tdi := .run, stream := some 3 })),
     0, 1, by and_intros <;> decide +kernel⟩,
   ⟨((svq.modFn ⟨0,
     1⟩ (fun x => { x with pmeEn := true, pmeStatus := true, aer := [.completerAbort] })).modGlove 0 (fun x => { x with tdi := .run, stream := some 3 })),
     0, 0, by and_intros <;> decide +kernel⟩,
   ⟨((svq.modFn ⟨0,
     1⟩ (fun x => { x with pmeEn := true, pmeStatus := true, aer := [.completerAbort] })).modGlove 0 (fun x => { x with tdi := .run, stream := some 3 })),
     0, 11, by and_intros <;> decide +kernel⟩,
   ⟨((svq.modFn ⟨0,
     1⟩ (fun x => { x with pmeEn := true, pmeStatus := true, aer := [.completerAbort] })).modGlove 0 (fun x => { x with tdi := .run, stream := some 3 })),
     0, 10, by and_intros <;> decide +kernel⟩,
   ⟨(svq.modFn ⟨0, 0⟩ (fun x => { x with flr := true })), 0, by and_intros <;> decide +kernel⟩,
   ⟨(svq.modFn ⟨0, 0⟩ (fun x => { x with flr := true })), 0, by and_intros <;> decide +kernel⟩⟩

theorem witness_BusMasterAndPowerStateCommandsComplete :
    (∃ (s : State) (f : FnId), s.cfgOpen f = true ∧ (s.fn f).bme = true ∧ (∀ i < 16, (s.finger ⟨f.link, f.fn, i⟩).state ≠ .running) ∧
      (s.link f.link).txq = [] ∧ (s.link f.link).devReqs = []) ∧
    (∃ (s : State) (f : FnId) (fn : _) (a : _) (n : _) (p : _), s.cfgOpen f = true ∧ (s.fn f).bme = true ∧ (∀ i < 16, (s.finger ⟨f.link,
      f.fn, i⟩).state ≠ .running) ∧ (s.link f.link).txq = [.memRd fn a n p] ∧ (s.link f.link).devReqs = [⟨p, [], 1, false⟩] ∧
      p.op = .memRd ∧ p.fn = f.fn ∧ unitKind p.initUnit = 3) ∧
    (∃ (s : State) (f : FnId), s.cfgOpen f = true ∧ (s.link f.link).withdrawn = []) ∧
    (∃ (s : State) (f : FnId) (p : _), s.cfgOpen f = true ∧ (s.link f.link).withdrawn = [p] ∧ p.fn = f.fn ∧ p.link = f.link ∧
      p.op = .memRd ∧ (s.fn f).d3 = false ∧ (s.link f.link).up = true ∧ s.viaWindow p = false ∧ s.peerClosed p = false) ∧
    (∃ (s : State) (f : FnId), s.cfgOpen f = true ∧ (s.fn f).d3 = false ∧ (s.link f.link).txq = [] ∧ (s.link f.link).devReqs = []) ∧
    (∃ (s : State) (f : FnId), s.cfgOpen f = true ∧ (s.fn f).d3 = true ∧ ((s.fn f).bme = false ∨ (s.link f.link).withdrawn = [])) ∧
    (∃ (s : State) (f : FnId), s.cfgOpen f = true ∧ (s.fn f).bme = true) ∧
    (∃ (s : State) (f : FnId), s.cfgOpen f = true ∧ (s.fn f).bme = true) ∧
    (∃ (s : State) (f : FnId), s.cfgOpen f = true ∧ (s.fn f).bme = true) ∧
    (∃ (s : State) (f : FnId), s.cfgOpen f = true ∧ (s.fn f).bme = true) ∧
    (∃ (s : State) (f : FnId) (fn : _) (a : _) (n : _) (p : _), s.cfgOpen f = true ∧ (s.fn f).bme = true ∧ (∀ i < 16, (s.finger ⟨f.link,
      f.fn, i⟩).state ≠ .running) ∧ (s.link f.link).txq = [.memRd fn a n p] ∧ (s.link f.link).devReqs = [⟨p, [], 1, false⟩] ∧
      p.fn = f.fn ∧ s.isQmgr p = true ∧ (s.tlpsOf p).length = 1) ∧
    (∃ (s : State) (f : FnId), s.cfgOpen f = true ∧ (s.fn f).d3 = false) ∧
    (∃ (s : State) (f : FnId), s.cfgOpen f = true ∧ (s.fn f).d3 = false) ∧
    (∃ (s : State) (f : FnId) (fn : _) (a : _) (n : _) (p : _), s.cfgOpen f = true ∧ (s.fn f).d3 = false ∧
      (s.link f.link).txq = [.memRd fn a n p] ∧ (s.link f.link).devReqs = [⟨p, [], 1, false⟩] ∧ p.fn = f.fn ∧ s.isQmgr p = true ∧
      (s.tlpsOf p).length = 1) ∧
    (∃ (s : State) (f : FnId), s.cfgOpen f = true ∧ (s.fn f).d3 = false) ∧
    (∃ (s : State) (f : FnId), s.cfgOpen f = true ∧ (s.fn f).d3 = false) ∧
    (∃ (s : State) (f : FnId), s.cfgOpen f = true ∧ (s.fn f).d3 = false) ∧
    (∃ (s : State) (f : FnId), s.cfgOpen f = true ∧ (s.fn f).d3 = true) ∧
    (∃ (s : State) (f : FnId), s.cfgOpen f = true ∧ (s.fn f).d3 = true) ∧
    (∃ (s : State) (f : FnId), s.cfgOpen f = true ∧ (s.fn f).d3 = true ∧ (s.fn f).bme = true) ∧
    (∃ (s : State) (f : FnId), s.cfgOpen f = true ∧ (s.fn f).d3 = true ∧ (s.fn f).bme = true) ∧
    (∃ (s : State) (f : FnId), s.cfgOpen f = true ∧ (s.fn f).bme = false) ∧
    (∃ (s : State) (f : FnId), s.cfgOpen f = true ∧ (s.fn f).d3 = false) ∧
    (∃ (s : State) (f : FnId), s.cfgOpen f = false) ∧
    (∃ (s : State) (f : FnId), s.cfgOpen f = false) ∧
    (∃ (s : State) (f : FnId), s.cfgOpen f = false) ∧
    (∃ (s : State) (f : FnId), s.cfgOpen f = false) :=
  ⟨⟨svq, ⟨0, 1⟩, by and_intros <;> decide +kernel⟩,
   ⟨(svq.modLink 0 (fun x => { x with txq := [.memRd 1 0 64 { op := .memRd, initUnit := engineUnit 0, tag := 9, link := 0, fn := 1, hostSpace := true, len := 64 }], devReqs := [⟨{ op := .memRd, initUnit := engineUnit 0, tag := 9, link := 0, fn := 1, hostSpace := true, len := 64 }, [], 1, false⟩] })),
     ⟨0, 1⟩, 1, 0, 64, { op := .memRd, initUnit := engineUnit 0, tag := 9, link := 0, fn := 1, hostSpace := true, len := 64 },
     by and_intros <;> decide +kernel⟩,
   ⟨(svq.modFn ⟨0, 1⟩ (fun x => { x with bme := false })), ⟨0, 1⟩, by and_intros <;> decide +kernel⟩,
   ⟨((svq.modLink 0 (fun x => { x with withdrawn := [{ op := .memRd, initUnit := queueUnit 0, tag := 9, link := 0, fn := 1, hostSpace := true, len := 64 }] })).modFn ⟨0,
     1⟩ (fun x => { x with bme := false })), ⟨0, 1⟩,
     { op := .memRd, initUnit := queueUnit 0, tag := 9, link := 0, fn := 1, hostSpace := true, len := 64 },
     by and_intros <;> decide +kernel⟩,
   ⟨svq, ⟨0, 1⟩, by and_intros <;> decide +kernel⟩,
   ⟨(svq.modFn ⟨0, 1⟩ (fun x => { x with d3 := true })), ⟨0, 1⟩, by and_intros <;> decide +kernel⟩,
   ⟨svq, ⟨0, 1⟩, by and_intros <;> decide +kernel⟩,
   ⟨(svq.modLink 0 (fun x => { x with txq := [.memRd 1 0 64 { op := .memRd, initUnit := engineUnit 0, tag := 9, link := 0, fn := 1, hostSpace := true, len := 64 }], devReqs := [⟨{ op := .memRd, initUnit := engineUnit 0, tag := 9, link := 0, fn := 1, hostSpace := true, len := 64 }, [], 1, false⟩] })),
     ⟨0, 1⟩, by and_intros <;> decide +kernel⟩,
   ⟨(svq.modLink 0 (fun x => { x with txq := [.memRd 1 0 64 { op := .memRd, initUnit := queueUnit 0, tag := 9, link := 0, fn := 1, hostSpace := true, len := 64 }], devReqs := [⟨{ op := .memRd, initUnit := queueUnit 0, tag := 9, link := 0, fn := 1, hostSpace := true, len := 64 }, [], 1, false⟩] })),
     ⟨0, 1⟩, by and_intros <;> decide +kernel⟩,
   ⟨(svq.modFinger ⟨0, 1, 3⟩ (fun _ => fgRun)), ⟨0, 1⟩, by and_intros <;> decide +kernel⟩,
   ⟨(svq.modLink 0 (fun x => { x with txq := [.memRd 1 0 64 { op := .memRd, initUnit := queueUnit 0, tag := 9, link := 0, fn := 1, hostSpace := true, len := 64 }], devReqs := [⟨{ op := .memRd, initUnit := queueUnit 0, tag := 9, link := 0, fn := 1, hostSpace := true, len := 64 }, [], 1, false⟩] })),
     ⟨0, 1⟩, 1, 0, 64, { op := .memRd, initUnit := queueUnit 0, tag := 9, link := 0, fn := 1, hostSpace := true, len := 64 },
     by and_intros <;> decide +kernel⟩,
   ⟨(svq.modFn ⟨0, 1⟩ (fun x => { x with bme := false })), ⟨0, 1⟩, by and_intros <;> decide +kernel⟩,
   ⟨((svq.modLink 0 (fun x => { x with withdrawn := [{ op := .memRd, initUnit := queueUnit 0, tag := 9, link := 0, fn := 1, hostSpace := true, len := 64 }] })).modFn ⟨0,
     1⟩ (fun x => { x with bme := false })), ⟨0, 1⟩, by and_intros <;> decide +kernel⟩,
   ⟨(svq.modLink 0 (fun x => { x with txq := [.memRd 1 0 64 { op := .memRd, initUnit := queueUnit 0, tag := 9, link := 0, fn := 1, hostSpace := true, len := 64 }], devReqs := [⟨{ op := .memRd, initUnit := queueUnit 0, tag := 9, link := 0, fn := 1, hostSpace := true, len := 64 }, [], 1, false⟩] })),
     ⟨0, 1⟩, 1, 0, 64, { op := .memRd, initUnit := queueUnit 0, tag := 9, link := 0, fn := 1, hostSpace := true, len := 64 },
     by and_intros <;> decide +kernel⟩,
   ⟨svq, ⟨0, 1⟩, by and_intros <;> decide +kernel⟩,
   ⟨(svq.modLink 0 (fun x => { x with txq := [.memRd 1 0 64 { op := .memRd, initUnit := queueUnit 0, tag := 9, link := 0, fn := 1, hostSpace := true, len := 64 }], devReqs := [⟨{ op := .memRd, initUnit := queueUnit 0, tag := 9, link := 0, fn := 1, hostSpace := true, len := 64 }, [], 1, false⟩] })),
     ⟨0, 1⟩, by and_intros <;> decide +kernel⟩,
   ⟨(svq.modLink 0 (fun x => { x with txq := [.memRd 1 0 64 { op := .memRd, initUnit := engineUnit 0, tag := 9, link := 0, fn := 1, hostSpace := true, len := 64 }], devReqs := [⟨{ op := .memRd, initUnit := engineUnit 0, tag := 9, link := 0, fn := 1, hostSpace := true, len := 64 }, [], 1, false⟩] })),
     ⟨0, 1⟩, by and_intros <;> decide +kernel⟩,
   ⟨(svq.modFn ⟨0, 1⟩ (fun x => { x with d3 := true })), ⟨0, 1⟩, by and_intros <;> decide +kernel⟩,
   ⟨(svq.modFn ⟨0, 1⟩ (fun x => { x with d3 := true })), ⟨0, 1⟩, by and_intros <;> decide +kernel⟩,
   ⟨(svq.modFn ⟨0, 1⟩ (fun x => { x with d3 := true })), ⟨0, 1⟩, by and_intros <;> decide +kernel⟩,
   ⟨((svq.modLink 0 (fun x => { x with withdrawn := [{ op := .memRd, initUnit := queueUnit 0, tag := 9, link := 0, fn := 1, hostSpace := true, len := 64 }] })).modFn ⟨0,
     1⟩ (fun x => { x with d3 := true })), ⟨0, 1⟩, by and_intros <;> decide +kernel⟩,
   ⟨(svq.modFn ⟨0, 1⟩ (fun x => { x with bme := false })), ⟨0, 1⟩, by and_intros <;> decide +kernel⟩,
   ⟨svq, ⟨0, 1⟩, by and_intros <;> decide +kernel⟩,
   ⟨(svq.modFn ⟨0, 1⟩ (fun x => { x with flr := true })), ⟨0, 1⟩, by and_intros <;> decide +kernel⟩,
   ⟨(svq.modFn ⟨0, 1⟩ (fun x => { x with flr := true })), ⟨0, 1⟩, by and_intros <;> decide +kernel⟩,
   ⟨(svq.modFn ⟨0, 1⟩ (fun x => { x with flr := true })), ⟨0, 1⟩, by and_intros <;> decide +kernel⟩,
   ⟨(svq.modFn ⟨0, 1⟩ (fun x => { x with flr := true })), ⟨0, 1⟩, by and_intros <;> decide +kernel⟩⟩

theorem witness_HostLinkEventsComplete :
    (∃ (s : State) (l : Nat) (c : _), s.linkExists l = true ∧ c ∈ [Instr.perstAssert l, .dlDown l, .linkHotReset l] ∧ s.awake = true ∧
      (s.link l).up = true) ∧
    (∃ (s : State) (l : Nat) (c : _), s.linkExists l = true ∧ c ∈ [Instr.perstAssert l, .dlDown l, .linkHotReset l] ∧ s.awake = true ∧
      (s.link l).up = true) ∧
    (∃ (s : State) (l : Nat) (c : _), s.linkExists l = true ∧ c ∈ [Instr.perstAssert l, .dlDown l, .linkHotReset l] ∧ s.awake = true ∧
      (s.link l).up = true) ∧
    (∃ (s : State) (l : Nat), s.linkExists l = true ∧ s.sys.aon = true) ∧
    (∃ (s : State) (l : Nat) (width : _), s.linkExists l = true ∧ s.awake = true ∧ (s.link l).perst = false ∧ (s.link l).dead = false ∧
      (s.lowFree l (s.trainWidth l width) = true ∨ s.topFree l (s.trainWidth l width) = true)) ∧
    (∃ (s : State) (l : Nat) (width : _), s.linkExists l = true ∧ s.awake = true ∧ (s.link l).perst = false ∧ (s.link l).dead = false ∧
      (s.lowFree l (s.trainWidth l width) = true ∨ s.topFree l (s.trainWidth l width) = true)) ∧
    (∃ (s : State) (l : Nat) (width : _), s.linkExists l = true ∧ s.awake = true ∧ (s.link l).perst = false ∧ (s.link l).dead = false ∧
      (s.lowFree l (s.trainWidth l width) = true ∨ s.topFree l (s.trainWidth l width) = true)) ∧
    (∃ (s : State) (l : Nat), s.linkExists l = true ∧ s.awake = true ∧ (s.link l).up = true) ∧
    (∃ (s : State) (l : Nat) (p : LinkPower), s.linkExists l = true ∧ s.awake = true ∧ (s.link l).up = true ∧ p ≠ .l2 ∧
      (s.link l).wake = false) ∧
    (∃ (s : State) (l : Nat) (p : LinkPower), s.linkExists l = true ∧ s.awake = true ∧ (s.link l).up = true ∧ p ≠ .l2 ∧
      (s.link l).wake = false) ∧
    (∃ (s : State) (l : Nat), s.linkExists l = true ∧ s.sys.aon = true) ∧
    (∃ (s : State) (l : Nat), s.linkExists l = true ∧ s.sys.aon = true) ∧
    (∃ (s : State) (l : Nat), s.linkExists l = true ∧ s.sys.aon = true) ∧
    (∃ (s : State) (l : Nat) (width : _) (n : _), s.linkExists l = true ∧ s.awake = true ∧ (s.link l).perst = false ∧
      (s.link l).dead = false ∧ s.lowFree l (s.trainWidth l width) = false ∧ s.topFree l (s.trainWidth l width) = false ∧
      s.usableWidth l = some n) ∧
    (∃ (s : State) (l : Nat) (width : _) (n : _), s.linkExists l = true ∧ s.awake = true ∧ (s.link l).perst = false ∧
      (s.link l).dead = false ∧ s.lowFree l (s.trainWidth l width) = false ∧ s.topFree l (s.trainWidth l width) = false ∧
      s.usableWidth l = some n) ∧
    (∃ (s : State) (l : Nat), s.linkExists l = true ∧ s.awake = true ∧ (s.link l).up = true) ∧
    (∃ (s : State) (l : Nat), s.linkExists l = true ∧ s.awake = true ∧ (s.link l).up = true) ∧
    (∃ (s : State) (l : Nat) (w : _), s.linkExists l = true ∧ s.awake = true ∧ (s.link l).up = true ∧ w ≤ s.laneCount l ∧
      (s.lowFree l w = true ∨ s.topFree l w = true)) ∧
    (∃ (s : State) (l : Nat) (w : _), s.linkExists l = true ∧ s.awake = true ∧ (s.link l).up = true ∧ w ≤ s.laneCount l ∧
      (s.lowFree l w = true ∨ s.topFree l w = true)) ∧
    (∃ (s : State) (l : Nat) (w : _), s.linkExists l = true ∧ s.awake = true ∧ (s.link l).up = true ∧ w ≤ s.laneCount l) ∧
    (∃ (s : State) (l : Nat) (w : _), s.linkExists l = true ∧ s.awake = true ∧ (s.link l).up = true ∧ w ≤ s.laneCount l) ∧
    (∃ (s : State) (l : Nat) (w : _), s.linkExists l = true ∧ s.awake = true ∧ (s.link l).up = true ∧ w ≤ s.laneCount l) ∧
    (∃ (s : State) (l : Nat) (w : _), s.linkExists l = true ∧ s.awake = true ∧ (s.link l).up = true ∧ w ≤ s.laneCount l) ∧
    (∃ (s : State) (l : Nat) (w : _), s.linkExists l = true ∧ s.awake = true ∧ (s.link l).up = true ∧ s.laneCount l < w) ∧
    (∃ (s : State) (l : Nat), s.linkExists l = true ∧ s.awake = true ∧ (s.link l).up = true) ∧
    (∃ (s : State) (l : Nat), s.linkExists l = true ∧ s.awake = true ∧ (s.link l).up = true) ∧
    (∃ (s : State) (l : Nat), s.linkExists l = true ∧ ((s.link l).perst = true ∨ (s.link l).dead = true)) ∧
    (∃ (s : State) (l : Nat), s.linkExists l = true ∧ ((s.link l).perst = true ∨ (s.link l).dead = true)) ∧
    (∃ (s : State) (l : Nat), s.linkExists l = true ∧ (s.link l).up = false) ∧
    (∃ (s : State) (l : Nat), s.linkExists l = true ∧ (s.link l).up = false) ∧
    (∃ (s : State) (l : Nat), s.linkExists l = true ∧ (s.link l).up = false) ∧
    (∃ (s : State) (l : Nat), s.linkExists l = true ∧ (s.link l).up = false) :=
  ⟨⟨(svq.modLink 0 (fun x => { x with sessions := [⟨1, true, 5⟩], ide := [{ id := 1, secure := true, keys := [] }] })), 0, .perstAssert 0,
     by and_intros <;> decide +kernel⟩,
   ⟨(svq.modLink 0 (fun x => { x with sessions := [⟨1, true, 5⟩], ide := [{ id := 1, secure := true, keys := [] }] })), 0, .dlDown 0,
     by and_intros <;> decide +kernel⟩,
   ⟨(svq.modLink 0 (fun x => { x with sessions := [⟨1, true, 5⟩], ide := [{ id := 1, secure := true, keys := [] }] })), 0,
     .linkHotReset 0, by and_intros <;> decide +kernel⟩,
   ⟨(svq.modLink 0 (fun x => { x with perst := true, up := false, wake := true })), 0, by and_intros <;> decide +kernel⟩,
   ⟨(svq.modLink 0 (fun x => { x with up := false, ltssm := .detect })), 0, 8, by and_intros <;> decide +kernel⟩,
   ⟨({ (svq.modLink 0 (fun x => { x with up := false, ltssm := .detect })) with boot.cfg.links := [{ rate := 6, width := 16 }] } : State),
     0, 16, by and_intros <;> decide +kernel⟩,
   ⟨({ (({ svq with boot.cfg.links := [{ rate := 6, width := 16 }] } : State).modLink 0 (fun x => { x with up := false, ltssm := .detect, wantWidth := some 4 })) with flt.lanesRetired := [(0, 1)] } : State),
     0, 16, by and_intros <;> decide +kernel⟩,
   ⟨(svq.modLink 0 (fun x => { x with sessions := [⟨1, true, 5⟩], ide := [{ id := 1, secure := true, keys := [] }] })), 0,
     by and_intros <;> decide +kernel⟩,
   ⟨(svq.modLink 0 (fun x => { x with sessions := [⟨1, true, 5⟩], ide := [{ id := 1, secure := true, keys := [] }] })), 0, .l12,
     by and_intros <;> decide +kernel⟩,
   ⟨(svq.modLink 0 (fun x => { x with sessions := [⟨1, true, 5⟩], ide := [{ id := 1, secure := true, keys := [] }] })), 0, .l0,
     by and_intros <;> decide +kernel⟩,
   ⟨(svq.modLink 0 (fun x => { x with sessions := [⟨1, true, 5⟩], ide := [{ id := 1, secure := true, keys := [] }] })), 0,
     by and_intros <;> decide +kernel⟩,
   ⟨(svq.modLink 0 (fun x => { x with up := false, ltssm := .detect })), 0, by and_intros <;> decide +kernel⟩,
   ⟨(svq.modLink 0 (fun x => { x with sessions := [⟨1, true, 5⟩], perst := true })), 0, by and_intros <;> decide +kernel⟩,
   ⟨({ (svq.modLink 0 (fun x => { x with up := false, ltssm := .detect })) with flt.lanesRetired := [(0, 0x8080)], boot.cfg.links := [{ rate := 6, width := 16 }] } : State),
     0, 16, 4, by and_intros <;> decide +kernel⟩,
   ⟨({ (svq.modLink 0 (fun x => { x with up := false, ltssm := .detect })) with flt.lanesRetired := [(0, 1)], boot.cfg.links := [{ rate := 6, width := 16 }] } : State),
     0, 16, 4, by and_intros <;> decide +kernel⟩,
   ⟨(svq.modLink 0 (fun x => { x with sessions := [⟨1, true, 5⟩], ide := [{ id := 1, secure := true, keys := [] }] })), 0,
     by and_intros <;> decide +kernel⟩,
   ⟨(svq.modLink 0 (fun x => { x with sessions := [⟨1, true, 5⟩], ide := [{ id := 1, secure := true, keys := [] }] })), 0,
     by and_intros <;> decide +kernel⟩,
   ⟨(svq.modLink 0 (fun x => { x with sessions := [⟨1, true, 5⟩], ide := [{ id := 1, secure := true, keys := [] }] })), 0, 4,
     by and_intros <;> decide +kernel⟩,
   ⟨({ svq with flt.lanesRetired := [(0, 1)] } : State), 0, 4, by and_intros <;> decide +kernel⟩,
   ⟨(svq.modLink 0 (fun x => { x with sessions := [⟨1, true, 5⟩], ide := [{ id := 1, secure := true, keys := [] }] })), 0, 4,
     by and_intros <;> decide +kernel⟩,
   ⟨(svq.modLink 0 (fun x => { x with sessions := [⟨1, true, 5⟩], ide := [{ id := 1, secure := true, keys := [] }] })), 0, 0,
     by and_intros <;> decide +kernel⟩,
   ⟨({ svq with flt.lanesRetired := [(0, 0x8080)], boot.cfg.links := [{ rate := 6, width := 16 }] } : State), 0, 8,
     by and_intros <;> decide +kernel⟩,
   ⟨(svq.modLink 0 (fun x => { x with sessions := [⟨1, true, 5⟩], ide := [{ id := 1, secure := true, keys := [] }] })), 0, 4,
     by and_intros <;> decide +kernel⟩,
   ⟨(svq.modLink 0 (fun x => { x with sessions := [⟨1, true, 5⟩], ide := [{ id := 1, secure := true, keys := [] }] })), 0, 32,
     by and_intros <;> decide +kernel⟩,
   ⟨(svq.modLink 0 (fun x => { x with sessions := [⟨1, true, 5⟩], ide := [{ id := 1, secure := true, keys := [] }] })), 0,
     by and_intros <;> decide +kernel⟩,
   ⟨(svq.modFn ⟨0, 1⟩ (fun x => { x with pmeEn := true, pmePending := true })), 0, by and_intros <;> decide +kernel⟩,
   ⟨(svq.modLink 0 (fun x => { x with perst := true })), 0, by and_intros <;> decide +kernel⟩,
   ⟨(svq.modLink 0 (fun x => { x with dead := true })), 0, by and_intros <;> decide +kernel⟩,
   ⟨(svq.modLink 0 (fun x => { x with up := false, ltssm := .detect })), 0, by and_intros <;> decide +kernel⟩,
   ⟨(svq.modLink 0 (fun x => { x with up := false, ltssm := .detect })), 0, by and_intros <;> decide +kernel⟩,
   ⟨(svq.modLink 0 (fun x => { x with up := false, ltssm := .detect })), 0, by and_intros <;> decide +kernel⟩,
   ⟨(svq.modLink 0 (fun x => { x with up := false, ltssm := .detect })), 0, by and_intros <;> decide +kernel⟩⟩

theorem witness_HostRequestsComplete :
    (∃ (s : State) (r : HostRead) (f : FnId) (off : Nat), s.awake = true ∧ (s.link r.link).up = true ∧ r.ide = none ∧
      s.hostHit r.link r.addr = some (f, false, off) ∧ f.link = r.link ∧ (f.fn = 0 → off < 0x1000000) ∧ s.tdiHides f off = false ∧
      bar0Shape off r.len = true ∧ s.heldFree r.link (s.link r.link).held ⟨f.fn, false, off, .read r, (s.link r.link).unitBase,
      false⟩ = true) ∧
    (∃ (s : State) (r : HostRead) (f : FnId) (off : Nat), s.awake = true ∧ (s.link r.link).up = true ∧ r.ide = none ∧
      s.hostHit r.link r.addr = some (f, false, off) ∧ f.link = r.link ∧ (f.fn = 0 → off < 0x1000000) ∧ s.tdiHides f off = false ∧
      bar0Shape off r.len = true ∧ s.heldFree r.link (s.link r.link).held ⟨f.fn, false, off, .read r, (s.link r.link).unitBase,
      false⟩ = true) ∧
    (∃ (s : State) (r : HostRead) (f : FnId) (off : Nat) (a : Nat), s.awake = true ∧ (s.link r.link).up = true ∧ r.ide = none ∧
      s.hostHit r.link r.addr = some (f, true, off) ∧ f.link = r.link ∧ 0 < r.len ∧ s.heldFree r.link (s.link r.link).held ⟨f.fn, true,
      off, .read r, (s.link r.link).unitBase, false⟩ = true ∧ s.bar2Open (s.gloveOf f) = true ∧
      (s.check (cuffUnit (f.link / 2)) f.link ⟨s.gloveOf f, 0, off, r.len, true, false, false⟩).1 = .dev a ∧ a < 0x040000000000 ∧
      s.decode a = .pool a) ∧
    (∃ (s : State) (w : HostWrite) (f : FnId) (off : Nat) (a : Nat), s.awake = true ∧ (s.link w.link).up = true ∧ w.ide = none ∧
      w.ep = false ∧ 0 < w.data.length ∧ off % 64 + w.data.length ≤ 512 ∧ off % 4096 + w.data.length ≤ 4096 ∧
      s.hostHit w.link w.addr = some (f, true, off) ∧ f.link = w.link ∧ s.heldFree w.link (s.link w.link).held ⟨f.fn, true, off, .write w,
      (s.link w.link).unitBase, false⟩ = true ∧ s.bar2Open (s.gloveOf f) = true ∧ (s.check (cuffUnit (f.link / 2)) f.link ⟨s.gloveOf f, 0,
      off, w.data.length, false, true, false⟩).1 = .dev a ∧ s.decode a = .pool a) ∧
    (∃ (s : State) (w : HostWrite) (f : FnId) (off : Nat) (a : Nat), s.awake = true ∧ (s.link w.link).up = true ∧ w.ide = none ∧
      w.ep = false ∧ 0 < w.data.length ∧ off % 64 + w.data.length ≤ 512 ∧ off % 4096 + w.data.length ≤ 4096 ∧
      s.hostHit w.link w.addr = some (f, true, off) ∧ f.link = w.link ∧ s.heldFree w.link (s.link w.link).held ⟨f.fn, true, off, .write w,
      (s.link w.link).unitBase, false⟩ = true ∧ s.bar2Open (s.gloveOf f) = true ∧ (s.check (cuffUnit (f.link / 2)) f.link ⟨s.gloveOf f, 0,
      off, w.data.length, false, true, false⟩).1 = .dev a ∧ s.decode a = .pool a) ∧
    (∃ (s : State) (w : HostWrite) (f : FnId) (b : Bool) (off : Nat), s.awake = true ∧ (s.link w.link).up = true ∧ w.ide = none ∧
      w.ep = true ∧ s.hostHit w.link w.addr = some (f, b, off)) ∧
    (∃ (s : State) (w : HostWrite) (f : FnId) (b : Bool) (off : Nat), s.awake = true ∧ (s.link w.link).up = true ∧ w.ide = none ∧
      w.ep = true ∧ s.hostHit w.link w.addr = some (f, b, off)) ∧
    (∃ (s : State) (w : HostWrite), s.awake = true ∧ (s.link w.link).up = true ∧ w.ide = none ∧ s.hostHit w.link w.addr = none) ∧
    (∃ (s : State) (r : HostRead), s.awake = true ∧ (s.link r.link).up = true ∧ r.ide = none ∧ s.hostHit r.link r.addr = none) ∧
    (∃ (s : State) (x : HostAtomic) (f : FnId) (off : Nat) (a : Nat), s.awake = true ∧ (s.link x.link).up = true ∧ x.ide = none ∧
      x.addr % max 1 x.size = 0 ∧ x.sizeOk = true ∧ s.hostHit x.link x.addr = some (f, true, off) ∧ f.link = x.link ∧
      s.heldFree x.link (s.link x.link).held ⟨f.fn, true, off, .atomic x, (s.link x.link).unitBase, false⟩ = true ∧
      s.bar2Open (s.gloveOf f) = true ∧ (s.check (cuffUnit (f.link / 2)) f.link ⟨s.gloveOf f, 0, off, x.size, true, true,
      true⟩).1 = .dev a ∧ s.decode a = .pool a ∧ (s.cuff (f.link / 2)).locks = [] ∧ a % 64 = x.addr % 64) ∧
    (∃ (s : State) (x : HostAtomic), s.awake = true ∧ (s.link x.link).up = true ∧ x.ide = none ∧ x.addr % max 1 x.size ≠ 0) ∧
    (∃ (s : State) (l : Nat), s.awake = true ∧ (s.link l).up = true) ∧
    (∃ (s : State) (l : Nat), s.awake = true ∧ (s.link l).up = true) ∧
    (∃ (s : State) (l : Nat), s.awake = true ∧ (s.link l).up = true) ∧
    (∃ (s : State) (l : Nat) (k : BadReq), s.awake = true ∧ (s.link l).up = true ∧ k ≠ .unmatchedWrite ∧ k ≠ .vendorMessage ∧
      k ≠ .unmatchedRead) ∧
    (∃ (s : State) (r : HostRead) (f : FnId) (b : Bool) (off : Nat) (h : HeldReq), s.awake = true ∧ (s.link r.link).up = true ∧ (∀ i,
      r.ide = some i → i.ok = true) ∧ s.hostHit r.link r.addr = some (f, b, off) ∧ h = ⟨f.fn, b, off, .read r, (s.link r.link).unitBase,
      false⟩ ∧ s.heldFree r.link (s.link r.link).held h = false) ∧
    (∃ (s : State) (r : HostRead) (f : FnId) (b : Bool) (off : Nat) (h : HeldReq) (n : _), s.awake = true ∧ (s.link r.link).up = true ∧
      (∀ i, r.ide = some i → i.ok = true) ∧ s.hostHit r.link r.addr = some (f, b, off) ∧ h = ⟨f.fn, b, off, .read r,
      (s.link r.link).unitBase, false⟩ ∧ s.heldFree r.link (s.link r.link).held h = true ∧ s.heldMiss r.link h = some n) ∧
    (∃ (s : State) (r : HostRead) (f : FnId) (b : Bool) (off : Nat) (h : HeldReq), s.awake = true ∧ (s.link r.link).up = true ∧ (∀ i,
      r.ide = some i → i.ok = true) ∧ s.hostHit r.link r.addr = some (f, b, off) ∧ h = ⟨f.fn, b, off, .read r, (s.link r.link).unitBase,
      false⟩ ∧ s.heldFree r.link (s.link r.link).held h = true ∧ s.heldMiss r.link h = none) ∧
    (∃ (s : State) (r : HostRead) (f : FnId) (b : Bool) (off : Nat) (h : HeldReq), s.awake = true ∧ (s.link r.link).up = true ∧ (∀ i,
      r.ide = some i → i.ok = true) ∧ s.hostHit r.link r.addr = some (f, b, off) ∧ h = ⟨f.fn, b, off, .read r, (s.link r.link).unitBase,
      false⟩ ∧ s.heldFree r.link (s.link r.link).held h = true ∧ s.heldMiss r.link h = none) ∧
    (∃ (s : State) (r : HostRead) (f : FnId) (b : Bool) (off : Nat) (h : HeldReq), s.awake = true ∧ (s.link r.link).up = true ∧ (∀ i,
      r.ide = some i → i.ok = true) ∧ s.hostHit r.link r.addr = some (f, b, off) ∧ h = ⟨f.fn, b, off, .read r, (s.link r.link).unitBase,
      false⟩ ∧ s.heldFree r.link (s.link r.link).held h = true ∧ s.heldMiss r.link h = none) ∧
    (∃ (s : State) (r : HostRead) (f : FnId) (b : Bool) (off : Nat) (h : HeldReq), s.awake = true ∧ (s.link r.link).up = true ∧ (∀ i,
      r.ide = some i → i.ok = true) ∧ s.hostHit r.link r.addr = some (f, b, off) ∧ h = ⟨f.fn, b, off, .read r, (s.link r.link).unitBase,
      false⟩ ∧ s.heldFree r.link (s.link r.link).held h = true ∧ s.heldMiss r.link h = none) ∧
    (∃ (s : State) (w : HostWrite) (f : FnId) (b : Bool) (off : Nat) (h : HeldReq), s.awake = true ∧ (s.link w.link).up = true ∧ (∀ i,
      w.ide = some i → i.ok = true) ∧ w.ep = false ∧ s.hostHit w.link w.addr = some (f, b, off) ∧ h = ⟨f.fn, b, off, .write w,
      (s.link w.link).unitBase, false⟩ ∧ s.heldFree w.link (s.link w.link).held h = false) ∧
    (∃ (s : State) (w : HostWrite) (f : FnId) (b : Bool) (off : Nat) (h : HeldReq) (n : _), s.awake = true ∧ (s.link w.link).up = true ∧
      (∀ i, w.ide = some i → i.ok = true) ∧ w.ep = false ∧ s.hostHit w.link w.addr = some (f, b, off) ∧ h = ⟨f.fn, b, off, .write w,
      (s.link w.link).unitBase, false⟩ ∧ s.heldFree w.link (s.link w.link).held h = true ∧ s.heldMiss w.link h = some n) ∧
    (∃ (s : State) (w : HostWrite) (f : FnId) (b : Bool) (off : Nat) (h : HeldReq), s.awake = true ∧ (s.link w.link).up = true ∧ (∀ i,
      w.ide = some i → i.ok = true) ∧ w.ep = false ∧ s.hostHit w.link w.addr = some (f, b, off) ∧ h = ⟨f.fn, b, off, .write w,
      (s.link w.link).unitBase, false⟩ ∧ s.heldFree w.link (s.link w.link).held h = true ∧ s.heldMiss w.link h = none ∧ b = true) ∧
    (∃ (s : State) (w : HostWrite) (f : FnId) (b : Bool) (off : Nat) (h : HeldReq), s.awake = true ∧ (s.link w.link).up = true ∧ (∀ i,
      w.ide = some i → i.ok = true) ∧ w.ep = false ∧ s.hostHit w.link w.addr = some (f, b, off) ∧ h = ⟨f.fn, b, off, .write w,
      (s.link w.link).unitBase, false⟩ ∧ s.heldFree w.link (s.link w.link).held h = true ∧ s.heldMiss w.link h = none ∧ b = true) ∧
    (∃ (s : State) (w : HostWrite) (f : FnId) (b : Bool) (off : Nat) (h : HeldReq), s.awake = true ∧ (s.link w.link).up = true ∧ (∀ i,
      w.ide = some i → i.ok = true) ∧ w.ep = false ∧ s.hostHit w.link w.addr = some (f, b, off) ∧ h = ⟨f.fn, b, off, .write w,
      (s.link w.link).unitBase, false⟩ ∧ s.heldFree w.link (s.link w.link).held h = true ∧ b = false ∧ s.tdiHides ⟨w.link,
      f.fn⟩ off = false ∧ bar0Shape off w.data.length = true) ∧
    (∃ (s : State) (w : HostWrite) (f : FnId) (b : Bool) (off : Nat) (h : HeldReq), s.awake = true ∧ (s.link w.link).up = true ∧ (∀ i,
      w.ide = some i → i.ok = true) ∧ w.ep = false ∧ s.hostHit w.link w.addr = some (f, b, off) ∧ h = ⟨f.fn, b, off, .write w,
      (s.link w.link).unitBase, false⟩ ∧ s.heldFree w.link (s.link w.link).held h = true ∧ b = false ∧ (s.tdiHides ⟨w.link,
      f.fn⟩ off = true ∨ bar0Shape off w.data.length = false)) ∧
    (∃ (s : State) (x : HostAtomic) (f : FnId) (b : Bool) (off : Nat) (h : HeldReq), s.awake = true ∧ (s.link x.link).up = true ∧ (∀ i,
      x.ide = some i → i.ok = true) ∧ x.addr % max 1 x.size = 0 ∧ s.hostHit x.link x.addr = some (f, b, off) ∧ h = ⟨f.fn, b, off,
      .atomic x, (s.link x.link).unitBase, false⟩ ∧ x.sizeOk = false) ∧
    (∃ (s : State) (x : HostAtomic) (f : FnId) (b : Bool) (off : Nat) (h : HeldReq), s.awake = true ∧ (s.link x.link).up = true ∧ (∀ i,
      x.ide = some i → i.ok = true) ∧ x.addr % max 1 x.size = 0 ∧ s.hostHit x.link x.addr = some (f, b, off) ∧ h = ⟨f.fn, b, off,
      .atomic x, (s.link x.link).unitBase, false⟩ ∧ x.sizeOk = true ∧ s.heldFree x.link (s.link x.link).held h = false) ∧
    (∃ (s : State) (x : HostAtomic) (f : FnId) (b : Bool) (off : Nat) (h : HeldReq) (n : _), s.awake = true ∧ (s.link x.link).up = true ∧
      (∀ i, x.ide = some i → i.ok = true) ∧ x.addr % max 1 x.size = 0 ∧ s.hostHit x.link x.addr = some (f, b, off) ∧ h = ⟨f.fn, b, off,
      .atomic x, (s.link x.link).unitBase, false⟩ ∧ x.sizeOk = true ∧ s.heldFree x.link (s.link x.link).held h = true ∧
      s.heldMiss x.link h = some n) ∧
    (∃ (s : State) (x : HostAtomic) (f : FnId) (b : Bool) (off : Nat) (h : HeldReq), s.awake = true ∧ (s.link x.link).up = true ∧ (∀ i,
      x.ide = some i → i.ok = true) ∧ x.addr % max 1 x.size = 0 ∧ s.hostHit x.link x.addr = some (f, b, off) ∧ h = ⟨f.fn, b, off,
      .atomic x, (s.link x.link).unitBase, false⟩ ∧ x.sizeOk = true ∧ s.heldFree x.link (s.link x.link).held h = true ∧
      s.heldMiss x.link h = none) ∧
    (∃ (s : State) (x : HostAtomic) (f : FnId) (b : Bool) (off : Nat) (h : HeldReq), s.awake = true ∧ (s.link x.link).up = true ∧ (∀ i,
      x.ide = some i → i.ok = true) ∧ x.addr % max 1 x.size = 0 ∧ s.hostHit x.link x.addr = some (f, b, off) ∧ h = ⟨f.fn, b, off,
      .atomic x, (s.link x.link).unitBase, false⟩ ∧ x.sizeOk = true ∧ s.heldFree x.link (s.link x.link).held h = true ∧
      s.heldMiss x.link h = none) ∧
    (∃ (s : State) (x : HostAtomic), s.awake = true ∧ (s.link x.link).up = true ∧ x.ide = none ∧ x.addr % max 1 x.size = 0 ∧
      s.hostHit x.link x.addr = none) ∧
    (∃ (s : State) (i : IdeMark) (r : HostRead), i.ok = false ∧ s.awake = true ∧ (s.link r.link).up = true ∧ r.ide = some i) ∧
    (∃ (s : State) (i : IdeMark) (w : HostWrite), i.ok = false ∧ s.awake = true ∧ (s.link w.link).up = true ∧ w.ide = some i) ∧
    (∃ (s : State) (i : IdeMark) (x : HostAtomic), i.ok = false ∧ s.awake = true ∧ (s.link x.link).up = true ∧ x.ide = some i) :=
  ⟨⟨(({ svq.setPte 0 0 { page := 4, valid := true } with pool.tcaches := [(cacheKey (cuffUnit 0) 0, [(0, { page := 4, valid := true })])] } : State).modGlove 0 (fun x => { x with rules := [{ start := 0, stop := 0x40000000000, tr := true, tw := true }] })),
     { link := 0, addr := 0x201008, len := 8, tag := 5 }, ⟨0, 1⟩, 0x1008, by and_intros <;> decide +kernel⟩,
   ⟨(({ svq.setPte 0 0 { page := 4, valid := true } with pool.tcaches := [(cacheKey (cuffUnit 0) 0, [(0, { page := 4, valid := true })])] } : State).modGlove 0 (fun x => { x with rules := [{ start := 0, stop := 0x40000000000, tr := true, tw := true }] })),
     { link := 0, addr := 0x10000E000, len := 4, tag := 5 }, ⟨0, 0⟩, 0xE000, by and_intros <;> decide +kernel⟩,
   ⟨(({ svq.setPte 0 0 { page := 4, valid := true } with pool.tcaches := [(cacheKey (cuffUnit 0) 0, [(0, { page := 4, valid := true })])] } : State).modGlove 0 (fun x => { x with rules := [{ start := 0, stop := 0x40000000000, tr := true, tw := true }] })),
     { link := 0, addr := 0x40000001008, len := 64, tag := 5 }, ⟨0, 1⟩, 0x1008, 0x801008, by and_intros <;> decide +kernel⟩,
   ⟨(({ svq.setPte 0 0 { page := 4, valid := true } with pool.tcaches := [(cacheKey (cuffUnit 0) 0, [(0, { page := 4, valid := true })])] } : State).modGlove 0 (fun x => { x with rules := [{ start := 0, stop := 0x40000000000, tr := true, tw := true }] })),
     { link := 0, addr := 0x40000001008, data := List.replicate 1 (some 7) }, ⟨0, 1⟩, 0x1008, 0x801008, by and_intros <;> decide +kernel⟩,
   ⟨(({ svq.setPte 0 0 { page := 4, valid := true } with pool.tcaches := [(cacheKey (cuffUnit 0) 0, [(0, { page := 4, valid := true })])] } : State).modGlove 0 (fun x => { x with rules := [{ start := 0, stop := 0x40000000000, tr := true, tw := true }] })),
     { link := 0, addr := 0x40000001008, data := List.replicate 500 (some 7) }, ⟨0, 1⟩, 0x1008, 0x801008,
     by and_intros <;> decide +kernel⟩,
   ⟨(({ svq.setPte 0 0 { page := 4, valid := true } with pool.tcaches := [(cacheKey (cuffUnit 0) 0, [(0, { page := 4, valid := true })])] } : State).modGlove 0 (fun x => { x with rules := [{ start := 0, stop := 0x40000000000, tr := true, tw := true }] })),
     { link := 0, addr := 0x40000001008, data := List.replicate 1 (some 7), ep := true }, ⟨0, 1⟩, true, 0x1008,
     by and_intros <;> decide +kernel⟩,
   ⟨(({ svq.setPte 0 0 { page := 4, valid := true } with pool.tcaches := [(cacheKey (cuffUnit 0) 0, [(0, { page := 4, valid := true })])] } : State).modGlove 0 (fun x => { x with rules := [{ start := 0, stop := 0x40000000000, tr := true, tw := true }] })),
     { link := 0, addr := 0x201008, data := List.replicate 8 (some 7), ep := true }, ⟨0, 1⟩, false, 0x1008,
     by and_intros <;> decide +kernel⟩,
   ⟨(({ svq.setPte 0 0 { page := 4, valid := true } with pool.tcaches := [(cacheKey (cuffUnit 0) 0, [(0, { page := 4, valid := true })])] } : State).modGlove 0 (fun x => { x with rules := [{ start := 0, stop := 0x40000000000, tr := true, tw := true }] })),
     { link := 0, addr := 0x7000000, data := [some 7] }, by and_intros <;> decide +kernel⟩,
   ⟨(({ svq.setPte 0 0 { page := 4, valid := true } with pool.tcaches := [(cacheKey (cuffUnit 0) 0, [(0, { page := 4, valid := true })])] } : State).modGlove 0 (fun x => { x with rules := [{ start := 0, stop := 0x40000000000, tr := true, tw := true }] })),
     { link := 0, addr := 0x7000000, len := 4, tag := 5 }, by and_intros <;> decide +kernel⟩,
   ⟨(({ svq.setPte 0 0 { page := 4, valid := true } with pool.tcaches := [(cacheKey (cuffUnit 0) 0, [(0, { page := 4, valid := true })])] } : State).modGlove 0 (fun x => { x with rules := [{ start := 0, stop := 0x40000000000, tr := true, tw := true }] })),
     { link := 0, addr := 0x40000001008, kind := .fetchAdd, size := 8, operand := 1, compare := 0, tag := 5 }, ⟨0, 1⟩, 0x1008, 0x801008,
     by and_intros <;> decide +kernel⟩,
   ⟨(({ svq.setPte 0 0 { page := 4, valid := true } with pool.tcaches := [(cacheKey (cuffUnit 0) 0, [(0, { page := 4, valid := true })])] } : State).modGlove 0 (fun x => { x with rules := [{ start := 0, stop := 0x40000000000, tr := true, tw := true }] })),
     { link := 0, addr := 0x40000001004, kind := .fetchAdd, size := 8, operand := 1, compare := 0, tag := 5 },
     by and_intros <;> decide +kernel⟩,
   ⟨(({ svq.setPte 0 0 { page := 4, valid := true } with pool.tcaches := [(cacheKey (cuffUnit 0) 0, [(0, { page := 4, valid := true })])] } : State).modGlove 0 (fun x => { x with rules := [{ start := 0, stop := 0x40000000000, tr := true, tw := true }] })),
     0, by and_intros <;> decide +kernel⟩,
   ⟨(({ svq.setPte 0 0 { page := 4, valid := true } with pool.tcaches := [(cacheKey (cuffUnit 0) 0, [(0, { page := 4, valid := true })])] } : State).modGlove 0 (fun x => { x with rules := [{ start := 0, stop := 0x40000000000, tr := true, tw := true }] })),
     0, by and_intros <;> decide +kernel⟩,
   ⟨(({ svq.setPte 0 0 { page := 4, valid := true } with pool.tcaches := [(cacheKey (cuffUnit 0) 0, [(0, { page := 4, valid := true })])] } : State).modGlove 0 (fun x => { x with rules := [{ start := 0, stop := 0x40000000000, tr := true, tw := true }] })),
     0, by and_intros <;> decide +kernel⟩,
   ⟨(({ svq.setPte 0 0 { page := 4, valid := true } with pool.tcaches := [(cacheKey (cuffUnit 0) 0, [(0, { page := 4, valid := true })])] } : State).modGlove 0 (fun x => { x with rules := [{ start := 0, stop := 0x40000000000, tr := true, tw := true }] })),
     0, .ioRead, by and_intros <;> decide +kernel⟩,
   ⟨((({ svq.setPte 0 0 { page := 4, valid := true } with pool.tcaches := [(cacheKey (cuffUnit 0) 0, [(0, { page := 4, valid := true })])] } : State).modGlove 0 (fun x => { x with rules := [{ start := 0, stop := 0x40000000000, tr := true, tw := true }] })).modGlove 0 (fun x => { x with updating := true })),
     { link := 0, addr := 0x40000001008, len := 64, tag := 5 }, ⟨0, 1⟩, true, 0x1008,
     { fn := 1, bar2 := true, off := 0x1008, kind := .read ({ link := 0, addr := 0x40000001008, len := 64, tag := 5 }), unitBase := 0 },
     by and_intros <;> decide +kernel⟩,
   ⟨((svq.setPte 0 0 { page := 4, valid := true }).modGlove 0 (fun x => { x with rules := [{ start := 0, stop := 0x40000000000, tr := true, tw := true }] })),
     { link := 0, addr := 0x40000001008, len := 64, tag := 5, ide := some { stream := 3, ok := true } }, ⟨0, 1⟩, true, 0x1008,
     { fn := 1, bar2 := true, off := 0x1008, kind := .read ({ link := 0, addr := 0x40000001008, len := 64, tag := 5, ide := some { stream := 3, ok := true } }), unitBase := 0 },
     (((svq.setPte 0 0 { page := 4, valid := true }).modGlove 0 (fun x => { x with rules := [{ start := 0, stop := 0x40000000000, tr := true, tw := true }] })).pteLine 0 0),
     by and_intros <;> decide +kernel⟩,
   ⟨(({ svq.setPte 0 0 { page := 4, valid := true } with pool.tcaches := [(cacheKey (cuffUnit 0) 0, [(0, { page := 4, valid := true })])] } : State).modGlove 0 (fun x => { x with rules := [{ start := 0, stop := 0x40000000000, tr := true, tw := true }] })),
     { link := 0, addr := 0x40000001008, len := 64, tag := 5 }, ⟨0, 1⟩, true, 0x1008,
     { fn := 1, bar2 := true, off := 0x1008, kind := .read ({ link := 0, addr := 0x40000001008, len := 64, tag := 5 }), unitBase := 0 },
     by and_intros <;> decide +kernel⟩,
   ⟨(({ svq.setPte 0 0 { page := 4, valid := true } with pool.tcaches := [(cacheKey (cuffUnit 0) 0, [(0, { page := 4, valid := true })])] } : State).modGlove 0 (fun x => { x with rules := [{ start := 0, stop := 0x40000000000, tr := true, tw := true }] })),
     { link := 0, addr := 0x201008, len := 8, tag := 5 }, ⟨0, 1⟩, false, 0x1008,
     { fn := 1, bar2 := false, off := 0x1008, kind := .read ({ link := 0, addr := 0x201008, len := 8, tag := 5 }), unitBase := 0 },
     by and_intros <;> decide +kernel⟩,
   ⟨(({ svq.setPte 0 0 { page := 4, valid := true } with pool.tcaches := [(cacheKey (cuffUnit 0) 0, [(0, { page := 4, valid := true })])] } : State).modGlove 0 (fun x => { x with rules := [{ start := 0, stop := 0x40000000000, tr := true, tw := true }] })),
     { link := 0, addr := 0x40000001008, len := 0, tag := 5 }, ⟨0, 1⟩, true, 0x1008,
     { fn := 1, bar2 := true, off := 0x1008, kind := .read ({ link := 0, addr := 0x40000001008, len := 0, tag := 5 }), unitBase := 0 },
     by and_intros <;> decide +kernel⟩,
   ⟨(({ svq.setPte 0 0 { page := 4, valid := true } with pool.tcaches := [(cacheKey (cuffUnit 0) 0, [(0, { page := 4, valid := true })])] } : State).modGlove 0 (fun x => { x with rules := [{ start := 0, stop := 0x40000000000, tr := true, tw := true }] })),
     { link := 0, addr := 0x201004, len := 8, tag := 5 }, ⟨0, 1⟩, false, 0x1004,
     { fn := 1, bar2 := false, off := 0x1004, kind := .read ({ link := 0, addr := 0x201004, len := 8, tag := 5 }), unitBase := 0 },
     by and_intros <;> decide +kernel⟩,
   ⟨((({ svq.setPte 0 0 { page := 4, valid := true } with pool.tcaches := [(cacheKey (cuffUnit 0) 0, [(0, { page := 4, valid := true })])] } : State).modGlove 0 (fun x => { x with rules := [{ start := 0, stop := 0x40000000000, tr := true, tw := true }] })).modGlove 0 (fun x => { x with updating := true })),
     { link := 0, addr := 0x40000001008, data := List.replicate 9 (some 7) }, ⟨0, 1⟩, true, 0x1008,
     { fn := 1, bar2 := true, off := 0x1008, kind := .write ({ link := 0, addr := 0x40000001008, data := List.replicate 9 (some 7) }), unitBase := 0 },
     by and_intros <;> decide +kernel⟩,
   ⟨((svq.setPte 0 0 { page := 4, valid := true }).modGlove 0 (fun x => { x with rules := [{ start := 0, stop := 0x40000000000, tr := true, tw := true }] })),
     { link := 0, addr := 0x40000001008, data := List.replicate 9 (some 7) }, ⟨0, 1⟩, true, 0x1008,
     { fn := 1, bar2 := true, off := 0x1008, kind := .write ({ link := 0, addr := 0x40000001008, data := List.replicate 9 (some 7) }), unitBase := 0 },
     (((svq.setPte 0 0 { page := 4, valid := true }).modGlove 0 (fun x => { x with rules := [{ start := 0, stop := 0x40000000000, tr := true, tw := true }] })).pteLine 0 0),
     by and_intros <;> decide +kernel⟩,
   ⟨(({ svq.setPte 0 0 { page := 4, valid := true } with pool.tcaches := [(cacheKey (cuffUnit 0) 0, [(0, { page := 4, valid := true })])] } : State).modGlove 0 (fun x => { x with rules := [{ start := 0, stop := 0x40000000000, tr := true, tw := true }] })),
     { link := 0, addr := 0x40000001008, data := List.replicate 9 (some 7) }, ⟨0, 1⟩, true, 0x1008,
     { fn := 1, bar2 := true, off := 0x1008, kind := .write ({ link := 0, addr := 0x40000001008, data := List.replicate 9 (some 7) }), unitBase := 0 },
     by and_intros <;> decide +kernel⟩,
   ⟨(({ svq.setPte 0 0 { page := 4, valid := true } with pool.tcaches := [(cacheKey (cuffUnit 0) 0, [(0, { page := 4, valid := true })])] } : State).modGlove 0 (fun x => { x with rules := [{ start := 0, stop := 0x40000000000, tr := true, tw := true }] })),
     { link := 0, addr := 0x40000001008, data := List.replicate 600 (some 7) }, ⟨0, 1⟩, true, 0x1008,
     { fn := 1, bar2 := true, off := 0x1008, kind := .write ({ link := 0, addr := 0x40000001008, data := List.replicate 600 (some 7) }), unitBase := 0 },
     by and_intros <;> decide +kernel⟩,
   ⟨(({ svq.setPte 0 0 { page := 4, valid := true } with pool.tcaches := [(cacheKey (cuffUnit 0) 0, [(0, { page := 4, valid := true })])] } : State).modGlove 0 (fun x => { x with rules := [{ start := 0, stop := 0x40000000000, tr := true, tw := true }] })),
     { link := 0, addr := 0x201008, data := List.replicate 8 (some 7) }, ⟨0, 1⟩, false, 0x1008,
     { fn := 1, bar2 := false, off := 0x1008, kind := .write ({ link := 0, addr := 0x201008, data := List.replicate 8 (some 7) }), unitBase := 0 },
     by and_intros <;> decide +kernel⟩,
   ⟨(({ svq.setPte 0 0 { page := 4, valid := true } with pool.tcaches := [(cacheKey (cuffUnit 0) 0, [(0, { page := 4, valid := true })])] } : State).modGlove 0 (fun x => { x with rules := [{ start := 0, stop := 0x40000000000, tr := true, tw := true }] })),
     { link := 0, addr := 0x201008, data := List.replicate 12 (some 7) }, ⟨0, 1⟩, false, 0x1008,
     { fn := 1, bar2 := false, off := 0x1008, kind := .write ({ link := 0, addr := 0x201008, data := List.replicate 12 (some 7) }), unitBase := 0 },
     by and_intros <;> decide +kernel⟩,
   ⟨(({ svq.setPte 0 0 { page := 4, valid := true } with pool.tcaches := [(cacheKey (cuffUnit 0) 0, [(0, { page := 4, valid := true })])] } : State).modGlove 0 (fun x => { x with rules := [{ start := 0, stop := 0x40000000000, tr := true, tw := true }] })),
     { link := 0, addr := 0x40000001006, kind := .fetchAdd, size := 2, operand := 1, compare := 0, tag := 5 }, ⟨0, 1⟩, true, 0x1006,
     { fn := 1, bar2 := true, off := 0x1006, kind := .atomic ({ link := 0, addr := 0x40000001006, kind := .fetchAdd, size := 2, operand := 1, compare := 0, tag := 5 }), unitBase := 0 },
     by and_intros <;> decide +kernel⟩,
   ⟨((({ svq.setPte 0 0 { page := 4, valid := true } with pool.tcaches := [(cacheKey (cuffUnit 0) 0, [(0, { page := 4, valid := true })])] } : State).modGlove 0 (fun x => { x with rules := [{ start := 0, stop := 0x40000000000, tr := true, tw := true }] })).modGlove 0 (fun x => { x with updating := true })),
     { link := 0, addr := 0x40000001008, kind := .fetchAdd, size := 8, operand := 1, compare := 0, tag := 5 }, ⟨0, 1⟩, true, 0x1008,
     { fn := 1, bar2 := true, off := 0x1008, kind := .atomic ({ link := 0, addr := 0x40000001008, kind := .fetchAdd, size := 8, operand := 1, compare := 0, tag := 5 }), unitBase := 0 },
     by and_intros <;> decide +kernel⟩,
   ⟨((svq.setPte 0 0 { page := 4, valid := true }).modGlove 0 (fun x => { x with rules := [{ start := 0, stop := 0x40000000000, tr := true, tw := true }] })),
     { link := 0, addr := 0x40000001008, kind := .fetchAdd, size := 8, operand := 1, compare := 0, tag := 5 }, ⟨0, 1⟩, true, 0x1008,
     { fn := 1, bar2 := true, off := 0x1008, kind := .atomic ({ link := 0, addr := 0x40000001008, kind := .fetchAdd, size := 8, operand := 1, compare := 0, tag := 5 }), unitBase := 0 },
     (((svq.setPte 0 0 { page := 4, valid := true }).modGlove 0 (fun x => { x with rules := [{ start := 0, stop := 0x40000000000, tr := true, tw := true }] })).pteLine 0 0),
     by and_intros <;> decide +kernel⟩,
   ⟨(({ svq.setPte 0 0 { page := 4, valid := true } with pool.tcaches := [(cacheKey (cuffUnit 0) 0, [(0, { page := 4, valid := true })])] } : State).modGlove 0 (fun x => { x with rules := [{ start := 0, stop := 0x40000000000, tr := true, tw := true }] })),
     { link := 0, addr := 0x40000001008, kind := .fetchAdd, size := 8, operand := 1, compare := 0, tag := 5 }, ⟨0, 1⟩, true, 0x1008,
     { fn := 1, bar2 := true, off := 0x1008, kind := .atomic ({ link := 0, addr := 0x40000001008, kind := .fetchAdd, size := 8, operand := 1, compare := 0, tag := 5 }), unitBase := 0 },
     by and_intros <;> decide +kernel⟩,
   ⟨(({ svq.setPte 0 0 { page := 4, valid := true } with pool.tcaches := [(cacheKey (cuffUnit 0) 0, [(0, { page := 4, valid := true })])] } : State).modGlove 0 (fun x => { x with rules := [{ start := 0, stop := 0x40000000000, tr := true, tw := true }] })),
     { link := 0, addr := 0x201008, kind := .fetchAdd, size := 8, operand := 1, compare := 0, tag := 5 }, ⟨0, 1⟩, false, 0x1008,
     { fn := 1, bar2 := false, off := 0x1008, kind := .atomic ({ link := 0, addr := 0x201008, kind := .fetchAdd, size := 8, operand := 1, compare := 0, tag := 5 }), unitBase := 0 },
     by and_intros <;> decide +kernel⟩,
   ⟨(({ svq.setPte 0 0 { page := 4, valid := true } with pool.tcaches := [(cacheKey (cuffUnit 0) 0, [(0, { page := 4, valid := true })])] } : State).modGlove 0 (fun x => { x with rules := [{ start := 0, stop := 0x40000000000, tr := true, tw := true }] })),
     { link := 0, addr := 0x7000000, kind := .fetchAdd, size := 8, operand := 1, compare := 0, tag := 5 },
     by and_intros <;> decide +kernel⟩,
   ⟨(({ svq.setPte 0 0 { page := 4, valid := true } with pool.tcaches := [(cacheKey (cuffUnit 0) 0, [(0, { page := 4, valid := true })])] } : State).modGlove 0 (fun x => { x with rules := [{ start := 0, stop := 0x40000000000, tr := true, tw := true }] })),
     { stream := 3, ok := false }, { link := 0, addr := 0x40000001008, len := 64, tag := 5, ide := some { stream := 3, ok := false } },
     by and_intros <;> decide +kernel⟩,
   ⟨(({ svq.setPte 0 0 { page := 4, valid := true } with pool.tcaches := [(cacheKey (cuffUnit 0) 0, [(0, { page := 4, valid := true })])] } : State).modGlove 0 (fun x => { x with rules := [{ start := 0, stop := 0x40000000000, tr := true, tw := true }] })),
     { stream := 3, ok := false },
     { link := 0, addr := 0x40000001008, data := List.replicate 64 (some 7), ide := some { stream := 3, ok := false } },
     by and_intros <;> decide +kernel⟩,
   ⟨(({ svq.setPte 0 0 { page := 4, valid := true } with pool.tcaches := [(cacheKey (cuffUnit 0) 0, [(0, { page := 4, valid := true })])] } : State).modGlove 0 (fun x => { x with rules := [{ start := 0, stop := 0x40000000000, tr := true, tw := true }] })),
     { stream := 3, ok := false },
     { link := 0, addr := 0x40000001008, kind := .fetchAdd, size := 8, operand := 1, compare := 0, tag := 5, ide := some { stream := 3, ok := false } },
     by and_intros <;> decide +kernel⟩⟩

theorem witness_BorderFlitCommandsComplete :
    (∃ (s : State) (l : Nat) (m : _), (s.blink l).ctrl = some (.widthReq m)) ∧
    (∃ (s : State) (l : Nat) (f : PayloadFlit), s.awake = true ∧ (s.blink l).state = .up ∧ s.fenced (borderUnit l) = false ∧
      f.parity = [] ∧ f.vc < 6 ∧ f.crcOk = true ∧ f.seq = (s.blink l).rxNext ∧ (s.blink l).unacked < 31) ∧
    (∃ (s : State) (l : Nat) (f : PayloadFlit), s.awake = true ∧ (s.blink l).state = .up ∧ s.fenced (borderUnit l) = false ∧
      f.parity = [] ∧ f.vc < 6 ∧ f.crcOk = true ∧ f.seq ≠ (s.blink l).rxNext ∧ (s.blink l).nak = false) ∧
    (∃ (s : State) (l : Nat) (f : PayloadFlit), s.awake = true ∧ (s.blink l).state = .up ∧ s.fenced (borderUnit l) = false ∧
      f.parity = [] ∧ f.vc < 6 ∧ f.crcOk = false ∧ (s.blink l).nak = true) ∧
    (∃ (s : State) (l : Nat), (s.blink l).unacked ≠ 0) ∧
    (∃ (s : State) (l : Nat) (a : AckFlit), s.awake = true ∧ (s.blink l).state = .up ∧ (s.blink l).tx = [] ∧ a.nak = false) ∧
    (∃ (s : State) (l : Nat) (f : _), (s.blink l).state = .up ∧ (s.blink l).replay = [f] ∧ (s.blink l).replayRow < 7) ∧
    (∃ (s : State) (l : Nat), (s.blink l).ctrl = none) ∧
    (∃ (s : State) (l : Nat) (c : _), (s.blink l).ctrl = some c) ∧
    (∃ (s : State) (l : Nat) (f : PayloadFlit), s.awake = true ∧ (s.blink l).carries f.vc = true ∧ s.fenced (borderUnit l) = false ∧
      f.crcOk = true ∧ (f.vc < 6 ∨ f.vc = 8) ∧ f.seq = (s.blink l).rxNext ∧ (s.blink l).unacked < 31) ∧
    (∃ (s : State) (l : Nat) (f : PayloadFlit), s.awake = true ∧ (s.blink l).carries f.vc = true ∧ s.fenced (borderUnit l) = false ∧
      f.crcOk = true ∧ (f.vc < 6 ∨ f.vc = 8) ∧ f.seq = (s.blink l).rxNext ∧ (s.blink l).unacked < 31) ∧
    (∃ (s : State) (l : Nat) (f : PayloadFlit), s.awake = true ∧ (s.blink l).carries f.vc = true ∧ s.fenced (borderUnit l) = false ∧
      f.crcOk = true ∧ (f.vc < 6 ∨ f.vc = 8) ∧ f.seq = (s.blink l).rxNext ∧ 31 ≤ (s.blink l).unacked) ∧
    (∃ (s : State) (l : Nat) (f : PayloadFlit), s.awake = true ∧ (s.blink l).carries f.vc = true ∧ s.fenced (borderUnit l) = false ∧
      f.crcOk = true ∧ (f.vc < 6 ∨ f.vc = 8) ∧ f.seq = (s.blink l).rxNext ∧ 31 ≤ (s.blink l).unacked) ∧
    (∃ (s : State) (l : Nat) (f : PayloadFlit), s.awake = true ∧ (s.blink l).carries f.vc = true ∧ s.fenced (borderUnit l) = false ∧
      f.parity = [] ∧ (f.crcOk = false ∨ (5 < f.vc ∧ f.vc ≠ 8)) ∧ (s.blink l).nak = false) ∧
    (∃ (s : State) (l : Nat) (f : PayloadFlit), s.awake = true ∧ (s.blink l).carries f.vc = true ∧ s.fenced (borderUnit l) = false ∧
      f.parity = [] ∧ (f.crcOk = false ∨ (5 < f.vc ∧ f.vc ≠ 8)) ∧ (s.blink l).nak = false) ∧
    (∃ (s : State) (l : Nat) (f : PayloadFlit), s.awake = true ∧ (s.blink l).carries f.vc = true ∧ s.fenced (borderUnit l) = false ∧
      f.parity = [] ∧ (f.crcOk = false ∨ (5 < f.vc ∧ f.vc ≠ 8)) ∧ (s.blink l).nak = false) ∧
    (∃ (s : State) (l : Nat) (f : PayloadFlit), f.crcOk = true ∧ f.parity = [] ∧ (f.vc < 6 ∨ f.vc = 8) ∧ f.seq ≠ (s.blink l).rxNext ∧
      (s.blink l).nak = true) ∧
    (∃ (s : State) (l : Nat) (f : PayloadFlit), (s.blink l).carries f.vc = false) ∧
    (∃ (s : State) (l : Nat) (f : PayloadFlit), (s.blink l).carries f.vc = false) ∧
    (∃ (s : State) (l : Nat), (s.blink l).unacked = 0) ∧
    (∃ (s : State) (l : Nat) (a : AckFlit), s.awake = true ∧ (s.blink l).state = .up ∧ a.nak = true ∧
      (s.blink l).replay.filter (fun f => !covered a.ackSeq f.seq) ≠ [] ∧
      ((s.blink l).replay.any (fun f => covered a.ackSeq f.seq) = true ∨ (s.blink l).replayRow < 7)) ∧
    (∃ (s : State) (l : Nat) (a : AckFlit), s.awake = true ∧ (s.blink l).state = .up ∧ a.nak = true ∧
      (s.blink l).replay.filter (fun f => !covered a.ackSeq f.seq) ≠ [] ∧
      ((s.blink l).replay.any (fun f => covered a.ackSeq f.seq) = true ∨ (s.blink l).replayRow < 7)) ∧
    (∃ (s : State) (l : Nat), ((s.blink l).state = .up ∨ (s.blink l).state = .admitting) ∧ (s.blink l).replay ≠ [] ∧
      (s.blink l).replayRow < 7) ∧
    (∃ (s : State) (l : Nat), ((s.blink l).state = .up ∨ (s.blink l).state = .admitting) ∧ (s.blink l).replay ≠ [] ∧
      (s.blink l).replayRow < 7) ∧
    (∃ (m : BitVec 8) (j : Nat) (lane : Nat), j < 128 ∧ (lanesIn m)[j % (lanesIn m).length]? = some lane) :=
  ⟨⟨(svq.modBlink 0 (fun _ => { state := .up, active := 0xF0, ctrl := some (.widthReq 15) })), 0, 15, by and_intros <;> decide +kernel⟩,
   ⟨(svq.modBlink 0 (fun _ => { state := .up, active := 0xFF, rxNext := 65535, unacked := 3 })), 0,
     { vc := 0, seq := 65535, body := [1], crcOk := true }, by and_intros <;> decide +kernel⟩,
   ⟨(svq.modBlink 0 (fun _ => { state := .up, active := 0xFF, rxNext := 65535, unacked := 3 })), 0,
     { vc := 0, seq := 0, body := [1], crcOk := true }, by and_intros <;> decide +kernel⟩,
   ⟨(svq.modBlink 0 (fun _ => { state := .up, nak := true })), 0, { vc := 0, seq := 0, body := [1], crcOk := false },
     by and_intros <;> decide +kernel⟩,
   ⟨(svq.modBlink 0 (fun _ => { state := .up, active := 0xFF, rxNext := 65535, unacked := 3 })), 0, by and_intros <;> decide +kernel⟩,
   ⟨(svq.modBlink 0 (fun _ => { state := .up, replay := [⟨1, 0, []⟩, ⟨2, 0, []⟩], sharedFree := 10, sharedHeld := [(0, 5)], credits := [(0, 3)] })),
     0, { ackSeq := 1, nak := false, reserved := [1, 0, 0, 0, 0, 0, 0], shared := [2, 0, 0, 0, 0, 0, 0] },
     by and_intros <;> decide +kernel⟩,
   ⟨(svq.modBlink 0 (fun _ => { state := .up, replay := [⟨1, 0, [3]⟩], replayRow := 6 })), 0, ⟨1, 0, [3]⟩,
     by and_intros <;> decide +kernel⟩,
   ⟨(svq.modBlink 0 (fun _ => { state := .up, active := 0xFF, rxNext := 65535, unacked := 3 })), 0, by and_intros <;> decide +kernel⟩,
   ⟨(svq.modBlink 0 (fun _ => { state := .up, active := 0xF0, ctrl := some (.widthReq 15) })), 0, .widthReq 15,
     by and_intros <;> decide +kernel⟩,
   ⟨(svq.modBlink 0 (fun _ => { state := .up, active := 0xFF, rxNext := 65535, unacked := 3 })), 0,
     { vc := 8, seq := 65535, body := [1], crcOk := true }, by and_intros <;> decide +kernel⟩,
   ⟨(svq.modBlink 0 (fun _ => { state := .up, active := 0xFF, rxNext := 65535, unacked := 3 })), 0,
     { vc := 5, seq := 65535, body := [1], crcOk := true, parity := [2, 7] }, by and_intros <;> decide +kernel⟩,
   ⟨(svq.modBlink 0 (fun _ => { state := .up, active := 0xFF, rxNext := 65535, unacked := 31 })), 0,
     { vc := 0, seq := 65535, body := [1], crcOk := true }, by and_intros <;> decide +kernel⟩,
   ⟨(svq.modBlink 0 (fun _ => { state := .up, active := 0xFF, rxNext := 7, unacked := 31 })), 0,
     { vc := 0, seq := 7, body := [1], crcOk := true, parity := [1] }, by and_intros <;> decide +kernel⟩,
   ⟨(svq.modBlink 0 (fun _ => { state := .up, active := 0xFF, rxNext := 65535, unacked := 3 })), 0,
     { vc := 0, seq := 65535, body := [1], crcOk := false }, by and_intros <;> decide +kernel⟩,
   ⟨(svq.modBlink 0 (fun _ => { state := .up, active := 0xFF, rxNext := 65535, unacked := 3 })), 0,
     { vc := 9, seq := 65535, body := [1], crcOk := true }, by and_intros <;> decide +kernel⟩,
   ⟨(svq.modBlink 0 (fun _ => { state := .up, active := 0xFF, rxNext := 65535, unacked := 3 })), 0,
     { vc := 6, seq := 0, body := [1], crcOk := true }, by and_intros <;> decide +kernel⟩,
   ⟨(svq.modBlink 0 (fun _ => { state := .up, nak := true })), 0, { vc := 0, seq := 5, body := [1], crcOk := true },
     by and_intros <;> decide +kernel⟩,
   ⟨svq, 0, { vc := 0, seq := 0, body := [1], crcOk := true }, by and_intros <;> decide +kernel⟩,
   ⟨(svq.modBlink 0 (fun _ => { state := .admitting, rxNext := 0 })), 0, { vc := 0, seq := 0, body := [1], crcOk := true },
     by and_intros <;> decide +kernel⟩,
   ⟨svq, 0, by and_intros <;> decide +kernel⟩,
   ⟨(svq.modBlink 0 (fun _ => { state := .up, replay := [⟨1, 0, [1]⟩, ⟨2, 0, [2]⟩], sharedFree := 10, sharedHeld := [(0, 5)], credits := [(0, 3)] })),
     0, { ackSeq := 1, nak := true, reserved := [1, 0, 0, 0, 0, 0, 0], shared := [2, 0, 0, 0, 0, 0, 0] },
     by and_intros <;> decide +kernel⟩,
   ⟨(svq.modBlink 0 (fun _ => { state := .up, replay := [⟨1, 0, [1]⟩, ⟨2, 0, [2]⟩], replayRow := 6 })), 0,
     { ackSeq := 0, nak := true, reserved := [1, 0, 0, 0, 0, 0, 0], shared := [2, 0, 0, 0, 0, 0, 0] }, by and_intros <;> decide +kernel⟩,
   ⟨(svq.modBlink 0 (fun _ => { state := .up, replay := [⟨1, 0, [1]⟩, ⟨2, 0, [2]⟩], replayRow := 6 })), 0,
     by and_intros <;> decide +kernel⟩,
   ⟨(svq.modBlink 0 (fun _ => { state := .admitting, replay := [⟨1, 0, [1]⟩] })), 0, by and_intros <;> decide +kernel⟩,
   ⟨0xF0, 37, 5, by and_intros <;> decide +kernel⟩⟩

theorem witness_BorderLinkDownCommandsComplete :
    (∃ (s : State) (l : Nat) (cause : Nat) (vc : Nat) (i : Ident) (c : Instr), (s.blink l).downBucket + 1 < s.boot.cfg.downThresh ∧
      ((c = .replayTimeout l ∧ cause = 3 ∧ ((s.blink l).state = .up ∨ (s.blink l).state = .admitting) ∧ (s.blink l).replay ≠ [] ∧
      (s.blink l).replayRow = 7) ∨ (c = .creditTimeout l vc ∧ cause = 2 ∧ (s.blink l).state = .up ∧ (∃ t ∈ (s.blink l).tx, t.vc = vc ∧
      t.sent < t.bytes.length) ∧ (s.blink l).spend vc = none) ∨ (c = .trainingTimeout l ∧ cause = 1 ∧ (s.blink l).state = .training) ∨
      (c = .identTimeout l ∧ cause = 4 ∧ (s.blink l).state = .ident) ∨ (c = .ident l i ∧ cause = 4 ∧ (s.blink l).state = .ident ∧
      s.awake = true ∧ (s.farEnd l ≠ some (i.pos, i.link) ∨ i.digest ≠ Config.sha384 s.boot.cfg.topology)) ∨ (c = .lockLossTimeout l ∧
      cause = 1 ∧ ((s.blink l).state = .admitting ∨ (s.blink l).state = .up ∨ (s.blink l).state = .retrain)) ∨
      (c = .widthChangeTimeout l ∧ cause = 6 ∧ (s.blink l).state = .retrain))) ∧
    (∃ (s : State) (l : Nat) (cause : Nat) (vc : Nat) (i : Ident) (c : Instr), (s.blink l).downBucket + 1 < s.boot.cfg.downThresh ∧
      ((c = .replayTimeout l ∧ cause = 3 ∧ ((s.blink l).state = .up ∨ (s.blink l).state = .admitting) ∧ (s.blink l).replay ≠ [] ∧
      (s.blink l).replayRow = 7) ∨ (c = .creditTimeout l vc ∧ cause = 2 ∧ (s.blink l).state = .up ∧ (∃ t ∈ (s.blink l).tx, t.vc = vc ∧
      t.sent < t.bytes.length) ∧ (s.blink l).spend vc = none) ∨ (c = .trainingTimeout l ∧ cause = 1 ∧ (s.blink l).state = .training) ∨
      (c = .identTimeout l ∧ cause = 4 ∧ (s.blink l).state = .ident) ∨ (c = .ident l i ∧ cause = 4 ∧ (s.blink l).state = .ident ∧
      s.awake = true ∧ (s.farEnd l ≠ some (i.pos, i.link) ∨ i.digest ≠ Config.sha384 s.boot.cfg.topology)) ∨ (c = .lockLossTimeout l ∧
      cause = 1 ∧ ((s.blink l).state = .admitting ∨ (s.blink l).state = .up ∨ (s.blink l).state = .retrain)) ∨
      (c = .widthChangeTimeout l ∧ cause = 6 ∧ (s.blink l).state = .retrain))) ∧
    (∃ (s : State) (l : Nat) (cause : Nat) (vc : Nat) (i : Ident) (c : Instr), (s.blink l).downBucket + 1 < s.boot.cfg.downThresh ∧
      ((c = .replayTimeout l ∧ cause = 3 ∧ ((s.blink l).state = .up ∨ (s.blink l).state = .admitting) ∧ (s.blink l).replay ≠ [] ∧
      (s.blink l).replayRow = 7) ∨ (c = .creditTimeout l vc ∧ cause = 2 ∧ (s.blink l).state = .up ∧ (∃ t ∈ (s.blink l).tx, t.vc = vc ∧
      t.sent < t.bytes.length) ∧ (s.blink l).spend vc = none) ∨ (c = .trainingTimeout l ∧ cause = 1 ∧ (s.blink l).state = .training) ∨
      (c = .identTimeout l ∧ cause = 4 ∧ (s.blink l).state = .ident) ∨ (c = .ident l i ∧ cause = 4 ∧ (s.blink l).state = .ident ∧
      s.awake = true ∧ (s.farEnd l ≠ some (i.pos, i.link) ∨ i.digest ≠ Config.sha384 s.boot.cfg.topology)) ∨ (c = .lockLossTimeout l ∧
      cause = 1 ∧ ((s.blink l).state = .admitting ∨ (s.blink l).state = .up ∨ (s.blink l).state = .retrain)) ∨
      (c = .widthChangeTimeout l ∧ cause = 6 ∧ (s.blink l).state = .retrain))) ∧
    (∃ (s : State) (l : Nat) (cause : Nat) (vc : Nat) (i : Ident) (c : Instr), (s.blink l).downBucket + 1 < s.boot.cfg.downThresh ∧
      ((c = .replayTimeout l ∧ cause = 3 ∧ ((s.blink l).state = .up ∨ (s.blink l).state = .admitting) ∧ (s.blink l).replay ≠ [] ∧
      (s.blink l).replayRow = 7) ∨ (c = .creditTimeout l vc ∧ cause = 2 ∧ (s.blink l).state = .up ∧ (∃ t ∈ (s.blink l).tx, t.vc = vc ∧
      t.sent < t.bytes.length) ∧ (s.blink l).spend vc = none) ∨ (c = .trainingTimeout l ∧ cause = 1 ∧ (s.blink l).state = .training) ∨
      (c = .identTimeout l ∧ cause = 4 ∧ (s.blink l).state = .ident) ∨ (c = .ident l i ∧ cause = 4 ∧ (s.blink l).state = .ident ∧
      s.awake = true ∧ (s.farEnd l ≠ some (i.pos, i.link) ∨ i.digest ≠ Config.sha384 s.boot.cfg.topology)) ∨ (c = .lockLossTimeout l ∧
      cause = 1 ∧ ((s.blink l).state = .admitting ∨ (s.blink l).state = .up ∨ (s.blink l).state = .retrain)) ∨
      (c = .widthChangeTimeout l ∧ cause = 6 ∧ (s.blink l).state = .retrain))) ∧
    (∃ (s : State) (l : Nat) (cause : Nat) (vc : Nat) (i : Ident) (c : Instr), (s.blink l).downBucket + 1 < s.boot.cfg.downThresh ∧
      ((c = .replayTimeout l ∧ cause = 3 ∧ ((s.blink l).state = .up ∨ (s.blink l).state = .admitting) ∧ (s.blink l).replay ≠ [] ∧
      (s.blink l).replayRow = 7) ∨ (c = .creditTimeout l vc ∧ cause = 2 ∧ (s.blink l).state = .up ∧ (∃ t ∈ (s.blink l).tx, t.vc = vc ∧
      t.sent < t.bytes.length) ∧ (s.blink l).spend vc = none) ∨ (c = .trainingTimeout l ∧ cause = 1 ∧ (s.blink l).state = .training) ∨
      (c = .identTimeout l ∧ cause = 4 ∧ (s.blink l).state = .ident) ∨ (c = .ident l i ∧ cause = 4 ∧ (s.blink l).state = .ident ∧
      s.awake = true ∧ (s.farEnd l ≠ some (i.pos, i.link) ∨ i.digest ≠ Config.sha384 s.boot.cfg.topology)) ∨ (c = .lockLossTimeout l ∧
      cause = 1 ∧ ((s.blink l).state = .admitting ∨ (s.blink l).state = .up ∨ (s.blink l).state = .retrain)) ∨
      (c = .widthChangeTimeout l ∧ cause = 6 ∧ (s.blink l).state = .retrain))) ∧
    (∃ (s : State) (l : Nat) (cause : Nat) (vc : Nat) (i : Ident) (c : Instr), (s.blink l).downBucket + 1 < s.boot.cfg.downThresh ∧
      ((c = .replayTimeout l ∧ cause = 3 ∧ ((s.blink l).state = .up ∨ (s.blink l).state = .admitting) ∧ (s.blink l).replay ≠ [] ∧
      (s.blink l).replayRow = 7) ∨ (c = .creditTimeout l vc ∧ cause = 2 ∧ (s.blink l).state = .up ∧ (∃ t ∈ (s.blink l).tx, t.vc = vc ∧
      t.sent < t.bytes.length) ∧ (s.blink l).spend vc = none) ∨ (c = .trainingTimeout l ∧ cause = 1 ∧ (s.blink l).state = .training) ∨
      (c = .identTimeout l ∧ cause = 4 ∧ (s.blink l).state = .ident) ∨ (c = .ident l i ∧ cause = 4 ∧ (s.blink l).state = .ident ∧
      s.awake = true ∧ (s.farEnd l ≠ some (i.pos, i.link) ∨ i.digest ≠ Config.sha384 s.boot.cfg.topology)) ∨ (c = .lockLossTimeout l ∧
      cause = 1 ∧ ((s.blink l).state = .admitting ∨ (s.blink l).state = .up ∨ (s.blink l).state = .retrain)) ∨
      (c = .widthChangeTimeout l ∧ cause = 6 ∧ (s.blink l).state = .retrain))) ∧
    (∃ (s : State) (l : Nat) (cause : Nat) (vc : Nat) (i : Ident) (c : Instr), (s.blink l).downBucket + 1 < s.boot.cfg.downThresh ∧
      ((c = .replayTimeout l ∧ cause = 3 ∧ ((s.blink l).state = .up ∨ (s.blink l).state = .admitting) ∧ (s.blink l).replay ≠ [] ∧
      (s.blink l).replayRow = 7) ∨ (c = .creditTimeout l vc ∧ cause = 2 ∧ (s.blink l).state = .up ∧ (∃ t ∈ (s.blink l).tx, t.vc = vc ∧
      t.sent < t.bytes.length) ∧ (s.blink l).spend vc = none) ∨ (c = .trainingTimeout l ∧ cause = 1 ∧ (s.blink l).state = .training) ∨
      (c = .identTimeout l ∧ cause = 4 ∧ (s.blink l).state = .ident) ∨ (c = .ident l i ∧ cause = 4 ∧ (s.blink l).state = .ident ∧
      s.awake = true ∧ (s.farEnd l ≠ some (i.pos, i.link) ∨ i.digest ≠ Config.sha384 s.boot.cfg.topology)) ∨ (c = .lockLossTimeout l ∧
      cause = 1 ∧ ((s.blink l).state = .admitting ∨ (s.blink l).state = .up ∨ (s.blink l).state = .retrain)) ∨
      (c = .widthChangeTimeout l ∧ cause = 6 ∧ (s.blink l).state = .retrain))) ∧
    (∃ (s : State) (l : Nat) (cause : Nat) (vc : Nat) (i : Ident) (c : Instr), s.boot.cfg.downThresh ≤ (s.blink l).downBucket + 1 ∧
      ((c = .replayTimeout l ∧ cause = 3 ∧ ((s.blink l).state = .up ∨ (s.blink l).state = .admitting) ∧ (s.blink l).replay ≠ [] ∧
      (s.blink l).replayRow = 7) ∨ (c = .creditTimeout l vc ∧ cause = 2 ∧ (s.blink l).state = .up ∧ (∃ t ∈ (s.blink l).tx, t.vc = vc ∧
      t.sent < t.bytes.length) ∧ (s.blink l).spend vc = none) ∨ (c = .trainingTimeout l ∧ cause = 1 ∧ (s.blink l).state = .training) ∨
      (c = .identTimeout l ∧ cause = 4 ∧ (s.blink l).state = .ident) ∨ (c = .ident l i ∧ cause = 4 ∧ (s.blink l).state = .ident ∧
      s.awake = true ∧ (s.farEnd l ≠ some (i.pos, i.link) ∨ i.digest ≠ Config.sha384 s.boot.cfg.topology)) ∨ (c = .lockLossTimeout l ∧
      cause = 1 ∧ ((s.blink l).state = .admitting ∨ (s.blink l).state = .up ∨ (s.blink l).state = .retrain)) ∨
      (c = .widthChangeTimeout l ∧ cause = 6 ∧ (s.blink l).state = .retrain))) ∧
    (∃ (s : State) (l : Nat) (cause : Nat) (vc : Nat) (i : Ident) (c : Instr), s.boot.cfg.downThresh ≤ (s.blink l).downBucket + 1 ∧
      ((c = .replayTimeout l ∧ cause = 3 ∧ ((s.blink l).state = .up ∨ (s.blink l).state = .admitting) ∧ (s.blink l).replay ≠ [] ∧
      (s.blink l).replayRow = 7) ∨ (c = .creditTimeout l vc ∧ cause = 2 ∧ (s.blink l).state = .up ∧ (∃ t ∈ (s.blink l).tx, t.vc = vc ∧
      t.sent < t.bytes.length) ∧ (s.blink l).spend vc = none) ∨ (c = .trainingTimeout l ∧ cause = 1 ∧ (s.blink l).state = .training) ∨
      (c = .identTimeout l ∧ cause = 4 ∧ (s.blink l).state = .ident) ∨ (c = .ident l i ∧ cause = 4 ∧ (s.blink l).state = .ident ∧
      s.awake = true ∧ (s.farEnd l ≠ some (i.pos, i.link) ∨ i.digest ≠ Config.sha384 s.boot.cfg.topology)) ∨ (c = .lockLossTimeout l ∧
      cause = 1 ∧ ((s.blink l).state = .admitting ∨ (s.blink l).state = .up ∨ (s.blink l).state = .retrain)) ∨
      (c = .widthChangeTimeout l ∧ cause = 6 ∧ (s.blink l).state = .retrain))) ∧
    (∃ (s : State) (l : Nat) (cause : Nat) (vc : Nat) (i : Ident) (c : Instr), s.boot.cfg.downThresh ≤ (s.blink l).downBucket + 1 ∧
      ((c = .replayTimeout l ∧ cause = 3 ∧ ((s.blink l).state = .up ∨ (s.blink l).state = .admitting) ∧ (s.blink l).replay ≠ [] ∧
      (s.blink l).replayRow = 7) ∨ (c = .creditTimeout l vc ∧ cause = 2 ∧ (s.blink l).state = .up ∧ (∃ t ∈ (s.blink l).tx, t.vc = vc ∧
      t.sent < t.bytes.length) ∧ (s.blink l).spend vc = none) ∨ (c = .trainingTimeout l ∧ cause = 1 ∧ (s.blink l).state = .training) ∨
      (c = .identTimeout l ∧ cause = 4 ∧ (s.blink l).state = .ident) ∨ (c = .ident l i ∧ cause = 4 ∧ (s.blink l).state = .ident ∧
      s.awake = true ∧ (s.farEnd l ≠ some (i.pos, i.link) ∨ i.digest ≠ Config.sha384 s.boot.cfg.topology)) ∨ (c = .lockLossTimeout l ∧
      cause = 1 ∧ ((s.blink l).state = .admitting ∨ (s.blink l).state = .up ∨ (s.blink l).state = .retrain)) ∨
      (c = .widthChangeTimeout l ∧ cause = 6 ∧ (s.blink l).state = .retrain))) ∧
    (∃ (s : State) (l : Nat) (cause : Nat) (vc : Nat) (i : Ident) (c : Instr), s.boot.cfg.downThresh ≤ (s.blink l).downBucket + 1 ∧
      ((c = .replayTimeout l ∧ cause = 3 ∧ ((s.blink l).state = .up ∨ (s.blink l).state = .admitting) ∧ (s.blink l).replay ≠ [] ∧
      (s.blink l).replayRow = 7) ∨ (c = .creditTimeout l vc ∧ cause = 2 ∧ (s.blink l).state = .up ∧ (∃ t ∈ (s.blink l).tx, t.vc = vc ∧
      t.sent < t.bytes.length) ∧ (s.blink l).spend vc = none) ∨ (c = .trainingTimeout l ∧ cause = 1 ∧ (s.blink l).state = .training) ∨
      (c = .identTimeout l ∧ cause = 4 ∧ (s.blink l).state = .ident) ∨ (c = .ident l i ∧ cause = 4 ∧ (s.blink l).state = .ident ∧
      s.awake = true ∧ (s.farEnd l ≠ some (i.pos, i.link) ∨ i.digest ≠ Config.sha384 s.boot.cfg.topology)) ∨ (c = .lockLossTimeout l ∧
      cause = 1 ∧ ((s.blink l).state = .admitting ∨ (s.blink l).state = .up ∨ (s.blink l).state = .retrain)) ∨
      (c = .widthChangeTimeout l ∧ cause = 6 ∧ (s.blink l).state = .retrain))) ∧
    (∃ (s : State) (l : Nat) (cause : Nat) (vc : Nat) (i : Ident) (c : Instr), s.boot.cfg.downThresh ≤ (s.blink l).downBucket + 1 ∧
      ((c = .replayTimeout l ∧ cause = 3 ∧ ((s.blink l).state = .up ∨ (s.blink l).state = .admitting) ∧ (s.blink l).replay ≠ [] ∧
      (s.blink l).replayRow = 7) ∨ (c = .creditTimeout l vc ∧ cause = 2 ∧ (s.blink l).state = .up ∧ (∃ t ∈ (s.blink l).tx, t.vc = vc ∧
      t.sent < t.bytes.length) ∧ (s.blink l).spend vc = none) ∨ (c = .trainingTimeout l ∧ cause = 1 ∧ (s.blink l).state = .training) ∨
      (c = .identTimeout l ∧ cause = 4 ∧ (s.blink l).state = .ident) ∨ (c = .ident l i ∧ cause = 4 ∧ (s.blink l).state = .ident ∧
      s.awake = true ∧ (s.farEnd l ≠ some (i.pos, i.link) ∨ i.digest ≠ Config.sha384 s.boot.cfg.topology)) ∨ (c = .lockLossTimeout l ∧
      cause = 1 ∧ ((s.blink l).state = .admitting ∨ (s.blink l).state = .up ∨ (s.blink l).state = .retrain)) ∨
      (c = .widthChangeTimeout l ∧ cause = 6 ∧ (s.blink l).state = .retrain))) ∧
    (∃ (s : State) (l : Nat) (cause : Nat) (vc : Nat) (i : Ident) (c : Instr), s.boot.cfg.downThresh ≤ (s.blink l).downBucket + 1 ∧
      ((c = .replayTimeout l ∧ cause = 3 ∧ ((s.blink l).state = .up ∨ (s.blink l).state = .admitting) ∧ (s.blink l).replay ≠ [] ∧
      (s.blink l).replayRow = 7) ∨ (c = .creditTimeout l vc ∧ cause = 2 ∧ (s.blink l).state = .up ∧ (∃ t ∈ (s.blink l).tx, t.vc = vc ∧
      t.sent < t.bytes.length) ∧ (s.blink l).spend vc = none) ∨ (c = .trainingTimeout l ∧ cause = 1 ∧ (s.blink l).state = .training) ∨
      (c = .identTimeout l ∧ cause = 4 ∧ (s.blink l).state = .ident) ∨ (c = .ident l i ∧ cause = 4 ∧ (s.blink l).state = .ident ∧
      s.awake = true ∧ (s.farEnd l ≠ some (i.pos, i.link) ∨ i.digest ≠ Config.sha384 s.boot.cfg.topology)) ∨ (c = .lockLossTimeout l ∧
      cause = 1 ∧ ((s.blink l).state = .admitting ∨ (s.blink l).state = .up ∨ (s.blink l).state = .retrain)) ∨
      (c = .widthChangeTimeout l ∧ cause = 6 ∧ (s.blink l).state = .retrain))) ∧
    (∃ (s : State) (l : Nat) (cause : Nat) (vc : Nat) (i : Ident) (c : Instr), s.boot.cfg.downThresh ≤ (s.blink l).downBucket + 1 ∧
      ((c = .replayTimeout l ∧ cause = 3 ∧ ((s.blink l).state = .up ∨ (s.blink l).state = .admitting) ∧ (s.blink l).replay ≠ [] ∧
      (s.blink l).replayRow = 7) ∨ (c = .creditTimeout l vc ∧ cause = 2 ∧ (s.blink l).state = .up ∧ (∃ t ∈ (s.blink l).tx, t.vc = vc ∧
      t.sent < t.bytes.length) ∧ (s.blink l).spend vc = none) ∨ (c = .trainingTimeout l ∧ cause = 1 ∧ (s.blink l).state = .training) ∨
      (c = .identTimeout l ∧ cause = 4 ∧ (s.blink l).state = .ident) ∨ (c = .ident l i ∧ cause = 4 ∧ (s.blink l).state = .ident ∧
      s.awake = true ∧ (s.farEnd l ≠ some (i.pos, i.link) ∨ i.digest ≠ Config.sha384 s.boot.cfg.topology)) ∨ (c = .lockLossTimeout l ∧
      cause = 1 ∧ ((s.blink l).state = .admitting ∨ (s.blink l).state = .up ∨ (s.blink l).state = .retrain)) ∨
      (c = .widthChangeTimeout l ∧ cause = 6 ∧ (s.blink l).state = .retrain))) ∧
    (∃ (s : State) (l : Nat), (s.blink l).state ≠ .training) ∧
    (∃ (s : State) (l : Nat), (s.blink l).state ≠ .ident) ∧
    (∃ (s : State) (l : Nat), (s.blink l).state ≠ .retrain) ∧
    (∃ (s : State) (l : Nat), (s.blink l).state ≠ .admitting ∧ (s.blink l).state ≠ .up ∧ (s.blink l).state ≠ .retrain) ∧
    (∃ (s : State) (l : Nat), (s.blink l).replay = []) ∧
    (∃ (s : State) (l : Nat) (vc : Nat), (s.blink l).spend vc ≠ none) :=
  ⟨⟨(svq.modBlink 0 (fun _ => { state := .up, replay := [⟨1, 0, []⟩], replayRow := 7 })), 0, 3, 0,
     { pos := 2, link := 0, lanes := 0xFF, serial := 1, digest := Config.sha384 [] }, .replayTimeout 0, by and_intros <;> decide +kernel⟩,
   ⟨(svq.modBlink 0 (fun _ => { state := .up, tx := [{ vc := 0, bytes := [1, 2] }], credits := [(0, 0)], sharedFree := 0 })), 0, 2, 0,
     { pos := 2, link := 0, lanes := 0xFF, serial := 1, digest := Config.sha384 [] }, .creditTimeout 0 0,
     by and_intros <;> decide +kernel⟩,
   ⟨(svq.modBlink 0 (fun _ => { state := .training })), 0, 1, 0,
     { pos := 2, link := 0, lanes := 0xFF, serial := 1, digest := Config.sha384 [] }, .trainingTimeout 0,
     by and_intros <;> decide +kernel⟩,
   ⟨(svq.modBlink 0 (fun _ => { state := .ident })), 0, 4, 0,
     { pos := 2, link := 0, lanes := 0xFF, serial := 1, digest := Config.sha384 [] }, .identTimeout 0, by and_intros <;> decide +kernel⟩,
   ⟨(svq.modBlink 0 (fun _ => { state := .ident })), 0, 4, 0,
     { pos := 2, link := 0, lanes := 0xFF, serial := 1, digest := Config.sha384 [] },
     .ident 0 { pos := 2, link := 0, lanes := 0xFF, serial := 1, digest := Config.sha384 [] },
     by and_intros <;> first | decide +kernel | rfl | (simp; decide +kernel)⟩,
   ⟨(svq.modBlink 0 (fun _ => { state := .admitting })), 0, 1, 0,
     { pos := 2, link := 0, lanes := 0xFF, serial := 1, digest := Config.sha384 [] }, .lockLossTimeout 0,
     by and_intros <;> decide +kernel⟩,
   ⟨(svq.modBlink 0 (fun _ => { state := .retrain })), 0, 6, 0,
     { pos := 2, link := 0, lanes := 0xFF, serial := 1, digest := Config.sha384 [] }, .widthChangeTimeout 0,
     by and_intros <;> decide +kernel⟩,
   ⟨({ (svq.modBlink 0 (fun _ => { state := .up, downBucket := 4, replay := [⟨1, 0, []⟩], replayRow := 7 })) with boot.cfg.downThresh := 5 } : State),
     0, 3, 0, { pos := 2, link := 0, lanes := 0xFF, serial := 1, digest := Config.sha384 [] }, .replayTimeout 0,
     by and_intros <;> decide +kernel⟩,
   ⟨({ (svq.modBlink 0 (fun _ => { state := .up, downBucket := 4, tx := [{ vc := 0, bytes := [1, 2] }], credits := [(0, 0)], sharedFree := 0 })) with boot.cfg.downThresh := 5 } : State),
     0, 2, 0, { pos := 2, link := 0, lanes := 0xFF, serial := 1, digest := Config.sha384 [] }, .creditTimeout 0 0,
     by and_intros <;> decide +kernel⟩,
   ⟨({ (svq.modBlink 0 (fun _ => { state := .training, downBucket := 4 })) with boot.cfg.downThresh := 5 } : State), 0, 1, 0,
     { pos := 2, link := 0, lanes := 0xFF, serial := 1, digest := Config.sha384 [] }, .trainingTimeout 0,
     by and_intros <;> decide +kernel⟩,
   ⟨({ (svq.modBlink 0 (fun _ => { state := .ident, downBucket := 4 })) with boot.cfg.downThresh := 5 } : State), 0, 4, 0,
     { pos := 2, link := 0, lanes := 0xFF, serial := 1, digest := Config.sha384 [] }, .identTimeout 0, by and_intros <;> decide +kernel⟩,
   ⟨({ (svq.modBlink 0 (fun _ => { state := .ident, downBucket := 4 })) with boot.cfg.downThresh := 5 } : State), 0, 4, 0,
     { pos := 2, link := 0, lanes := 0xFF, serial := 1, digest := Config.sha384 [] },
     .ident 0 { pos := 2, link := 0, lanes := 0xFF, serial := 1, digest := Config.sha384 [] },
     by and_intros <;> first | decide +kernel | rfl | (simp; decide +kernel)⟩,
   ⟨({ (svq.modBlink 0 (fun _ => { state := .admitting, downBucket := 4 })) with boot.cfg.downThresh := 5 } : State), 0, 1, 0,
     { pos := 2, link := 0, lanes := 0xFF, serial := 1, digest := Config.sha384 [] }, .lockLossTimeout 0,
     by and_intros <;> decide +kernel⟩,
   ⟨({ (svq.modBlink 0 (fun _ => { state := .retrain, downBucket := 4 })) with boot.cfg.downThresh := 5 } : State), 0, 6, 0,
     { pos := 2, link := 0, lanes := 0xFF, serial := 1, digest := Config.sha384 [] }, .widthChangeTimeout 0,
     by and_intros <;> decide +kernel⟩,
   ⟨svq, 0, by and_intros <;> decide +kernel⟩,
   ⟨svq, 0, by and_intros <;> decide +kernel⟩,
   ⟨svq, 0, by and_intros <;> decide +kernel⟩,
   ⟨svq, 0, by and_intros <;> decide +kernel⟩,
   ⟨svq, 0, by and_intros <;> decide +kernel⟩,
   ⟨svq, 0, 0, by and_intros <;> decide +kernel⟩⟩

theorem witness_BorderTrainingCommandsComplete :
    (∃ (s : State) (l : Nat), (s.blink l).state = .down ∧ s.fenced (borderUnit l) = false) ∧
    (∃ (s : State) (l : Nat), s.awake = true ∧ (s.blink l).state = .training) ∧
    (∃ (s : State) (l : Nat) (i : Ident), s.awake = true ∧ (s.blink l).state = .ident ∧ s.farEnd l = some (i.pos, i.link) ∧
      i.digest = Config.sha384 s.boot.cfg.topology ∧ (s.peer (s.peerOf l)).state = .admitted) ∧
    (∃ (s : State) (l : Nat) (i : Ident), s.awake = true ∧ (s.blink l).state = .ident ∧ s.farEnd l = some (i.pos, i.link) ∧
      i.digest = Config.sha384 s.boot.cfg.topology ∧ (s.peer (s.peerOf l)).state = .absent ∧ (s.peer (s.peerOf l)).spdm = 0) ∧
    (∃ (s : State) (l : Nat) (i : Ident), s.awake = true ∧ (s.blink l).state = .ident ∧ s.farEnd l = some (i.pos, i.link) ∧
      i.digest = Config.sha384 s.boot.cfg.topology ∧ (s.peer (s.peerOf l)).state = .absent ∧ (s.peer (s.peerOf l)).spdm = 0) ∧
    (∃ (s : State) (l : Nat) (mask : _) (m : _), s.awake = true ∧ (s.blink l).state = .up ∧ (s.blink l).ctrl = none ∧
      (s.blink l).replay = [] ∧ (s.blink l).tx = [] ∧ laneSet ((s.blink l).retired ||| ~~~mask) = some m) ∧
    (∃ (s : State) (l : Nat) (mask : _), s.awake = true ∧ (s.blink l).state = .retrain ∧ mask &&& (s.blink l).retired = 0 ∧
      (s.blink l).replay = [] ∧ (s.blink l).tx = []) ∧
    (∃ (s : State) (l : Nat), ((s.blink l).state ≠ .down ∨ s.fenced (borderUnit l) = true)) ∧
    (∃ (s : State) (l : Nat), ((s.blink l).state ≠ .down ∨ s.fenced (borderUnit l) = true)) ∧
    (∃ (s : State) (l : Nat), (s.blink l).state ≠ .training) ∧
    (∃ (s : State) (l : Nat) (i : Ident), s.awake = true ∧ (s.blink l).state = .ident ∧ s.farEnd l = some (i.pos, i.link) ∧
      i.digest = Config.sha384 s.boot.cfg.topology ∧ (s.peer (s.peerOf l)).state ≠ .admitted) ∧
    (∃ (s : State) (l : Nat) (i : Ident), s.awake = true ∧ (s.blink l).state = .ident ∧ s.farEnd l = some (i.pos, i.link) ∧
      i.digest = Config.sha384 s.boot.cfg.topology ∧ (s.peer (s.peerOf l)).state ≠ .admitted) ∧
    (∃ (s : State) (l : Nat), s.awake = true ∧ ((s.blink l).state = .admitting ∨ (s.blink l).state = .up)) ∧
    (∃ (s : State) (l : Nat), s.awake = true ∧ ((s.blink l).state = .admitting ∨ (s.blink l).state = .up)) ∧
    (∃ (s : State) (l : Nat) (mask : _) (m : _), s.awake = true ∧ ((s.blink l).state = .up ∨ (s.blink l).state = .retrain) ∧ ((∀ m,
      (s.blink l).ctrl ≠ some (.widthReq m)) ∨ s.peerOf l < s.boot.cfg.pos) ∧ laneSet ((s.blink l).retired ||| ~~~mask) = some m) ∧
    (∃ (s : State) (l : Nat) (mask : _) (m : _), s.awake = true ∧ ((s.blink l).state = .up ∨ (s.blink l).state = .retrain) ∧ ((∀ m,
      (s.blink l).ctrl ≠ some (.widthReq m)) ∨ s.peerOf l < s.boot.cfg.pos) ∧ laneSet ((s.blink l).retired ||| ~~~mask) = some m) ∧
    (∃ (s : State) (l : Nat) (mask : _), s.awake = true ∧ ((s.blink l).state = .up ∨ (s.blink l).state = .retrain) ∧ ((∀ m,
      (s.blink l).ctrl ≠ some (.widthReq m)) ∨ s.peerOf l < s.boot.cfg.pos) ∧ laneSet ((s.blink l).retired ||| ~~~mask) = none) ∧
    (∃ (s : State) (l : Nat) (m : _), s.awake = true ∧ ((s.blink l).state = .up ∨ (s.blink l).state = .retrain) ∧
      (s.blink l).ctrl = some (.widthReq m) ∧ s.boot.cfg.pos < s.peerOf l) ∧
    (∃ (s : State) (l : Nat) (mask : _), s.awake = true ∧ (s.blink l).state = .retrain ∧ mask &&& (s.blink l).retired = 0) ∧
    (∃ (s : State) (l : Nat) (mask : _), ((s.blink l).state ≠ .retrain ∨ mask &&& (s.blink l).retired ≠ 0)) ∧
    (∃ (s : State) (l : Nat) (mask : _), ((s.blink l).state ≠ .retrain ∨ mask &&& (s.blink l).retired ≠ 0)) :=
  ⟨⟨(({ svq with basket.peers := [(1, {})] } : State).modBlink 0 (fun _ => { state := .down })), 0, by and_intros <;> decide +kernel⟩,
   ⟨(({ svq with basket.peers := [(1, {})] } : State).modBlink 0 (fun _ => { state := .training, retired := 1 })), 0,
     by and_intros <;> decide +kernel⟩,
   ⟨(({ svq with basket.peers := [(1, { state := .admitted })] } : State).modBlink 0 (fun _ => { state := .ident, ctrl := some .ident })),
     0, { pos := 1, link := 0, lanes := 0xFF, serial := 1, digest := Config.sha384 [] }, by and_intros <;> first | decide +kernel | rfl⟩,
   ⟨(({ svq with basket.peers := [(1, {})] } : State).modBlink 0 (fun _ => { state := .ident, ctrl := some .ident })), 0,
     { pos := 1, link := 0, lanes := 0xFF, serial := 1, digest := Config.sha384 [] }, by and_intros <;> first | decide +kernel | rfl⟩,
   ⟨(({ svq with basket.peers := [(1, {})], boot.cfg.pos := 3 } : State).modBlink 0 (fun _ => { state := .ident, ctrl := some .ident })),
     0, { pos := 1, link := 0, lanes := 0xFF, serial := 1, digest := Config.sha384 [] }, by and_intros <;> first | decide +kernel | rfl⟩,
   ⟨(({ svq with basket.peers := [(1, {})] } : State).modBlink 0 (fun _ => { state := .up, active := 0xFF, retired := 1 })), 0, 0xFC,
     0xF0, by and_intros <;> decide +kernel⟩,
   ⟨(({ svq with basket.peers := [(1, {})] } : State).modBlink 0 (fun _ => { state := .retrain, ctrl := some (.widthReq 15) })), 0, 15,
     by and_intros <;> decide +kernel⟩,
   ⟨svq, 0, by and_intros <;> decide +kernel⟩,
   ⟨(((({ svq with basket.peers := [(1, {})] } : State).modBlink 0 (fun _ => { state := .down }))).modUnit (borderUnit 0) (fun x => { x with state := 1 })),
     0, by and_intros <;> decide +kernel⟩,
   ⟨svq, 0, by and_intros <;> decide +kernel⟩,
   ⟨(({ svq with basket.peers := [(1, {})] } : State).modBlink 0 (fun _ => { state := .ident, ctrl := some .ident })), 0,
     { pos := 1, link := 0, lanes := 0xFF, serial := 1, digest := Config.sha384 [] }, by and_intros <;> first | decide +kernel | rfl⟩,
   ⟨(({ svq with basket.peers := [(1, { state := .fenced })] } : State).modBlink 0 (fun _ => { state := .ident, ctrl := some .ident })),
     0, { pos := 1, link := 0, lanes := 0xFF, serial := 1, digest := Config.sha384 [] }, by and_intros <;> first | decide +kernel | rfl⟩,
   ⟨(({ svq with basket.peers := [(1, {})] } : State).modBlink 0 (fun _ => { state := .up, active := 0xF })), 0,
     by and_intros <;> decide +kernel⟩,
   ⟨(({ svq with basket.peers := [(1, {})] } : State).modBlink 0 (fun _ => { state := .admitting })), 0, by and_intros <;> decide +kernel⟩,
   ⟨(({ svq with basket.peers := [(1, {})] } : State).modBlink 0 (fun _ => { state := .up, active := 0xFF, retired := 1, replay := [⟨1, 0, [1]⟩], tx := [{ vc := 0, bytes := [1, 2] }] })),
     0, 0xFC, 0xF0, by and_intros <;> decide +kernel⟩,
   ⟨(({ svq with basket.peers := [(1, {})], boot.cfg.pos := 3 } : State).modBlink 0 (fun _ => { state := .retrain, active := 0xFF, ctrl := some (.widthReq 3) })),
     0, 0xFC, 0xF0, by and_intros <;> decide +kernel⟩,
   ⟨(({ svq with basket.peers := [(1, {})] } : State).modBlink 0 (fun _ => { state := .up, active := 0xFF, retired := 0 })), 0, 0,
     by and_intros <;> decide +kernel⟩,
   ⟨(({ svq with basket.peers := [(1, {})] } : State).modBlink 0 (fun _ => { state := .retrain, active := 0xFF, ctrl := some (.widthReq 3) })),
     0, 3, by and_intros <;> decide +kernel⟩,
   ⟨(({ svq with basket.peers := [(1, {})] } : State).modBlink 0 (fun _ => { state := .retrain, ctrl := some (.widthReq 15), replay := [⟨1, 0, [1]⟩] })),
     0, 15, by and_intros <;> decide +kernel⟩,
   ⟨svq, 0, 15, by and_intros <;> decide +kernel⟩,
   ⟨(({ svq with basket.peers := [(1, {})] } : State).modBlink 0 (fun _ => { state := .retrain, retired := 1 })), 0, 15,
     by and_intros <;> decide +kernel⟩⟩

theorem witness_RerouteCommandsComplete :
    (∃ (s : State) (l : Nat) (n : Nat) (d : Nat) (far : Nat), s.peerOf l = n ∧ s.linkFrom n far = some d ∧ d ≠ l ∧ s.awake = true ∧
      (s.blink l).state = .up ∧ (s.blink d).state = .down ∧ (s.peer n).reroute = none ∧ (s.blink d).tx = [] ∧ (s.blink l).tx = []) ∧
    (∃ (s : State) (l : Nat) (n : Nat) (d : Nat) (far : Nat), s.peerOf l = n ∧ s.linkFrom n far = some d ∧ d ≠ l ∧ s.awake = true ∧
      (s.peer n).reroute = some { dead := d, survivor := l } ∧ (s.blink d).tx = [] ∧ (s.blink l).tx = []) ∧
    (∃ (s : State) (l : Nat) (n : Nat) (d : Nat) (far : Nat) (r : _), s.peerOf l = n ∧ s.linkFrom n far = some d ∧ d ≠ l ∧
      s.awake = true ∧ (s.peer n).reroute = some r ∧ r.dead = d ∧ r.sent = false) ∧
    (∃ (s : State) (l : Nat) (n : Nat) (d : Nat) (far : Nat) (r : _), s.peerOf l = n ∧ s.linkFrom n far = some d ∧ d ≠ l ∧
      s.awake = true ∧ (s.peer n).reroute = some r ∧ r.dead = d ∧ r.sent = true ∧ r.also = []) ∧
    (∃ (s : State) (l : Nat) (n : Nat) (d : Nat) (far : Nat) (r : _), s.peerOf l = n ∧ s.linkFrom n far = some d ∧ d ≠ l ∧
      (s.peer n).reroute = some r ∧ (s.peer n).state ≠ .fenced) ∧
    (∃ (s : State) (unit : Nat) (n : Nat) (l : Nat), l = (s.peerLinks n).getD (unit % max 1 (s.peerLinks n).length) 0 ∧
      s.basket.moved.has (unit * 4 + n) = true ∧ (s.blink l).state = .up ∧ s.borderBusy unit n = false) ∧
    (∃ (s : State) (unit : Nat) (n : Nat) (l : Nat), l = (s.peerLinks n).getD (unit % max 1 (s.peerLinks n).length) 0 ∧
      s.basket.moved.has (unit * 4 + n) = true ∧ (s.blink l).state = .up ∧ s.borderBusy unit n = false) ∧
    (∃ (s : State) (l : Nat) (far : Nat) (d : Nat), s.linkFrom (s.peerOf l) far = some d ∧ s.awake = true ∧ (s.blink l).state = .up ∧
      (s.peer (s.peerOf l)).reroute = none) ∧
    (∃ (s : State) (l : Nat) (far : Nat) (d : Nat), s.linkFrom (s.peerOf l) far = some d ∧ s.awake = true ∧ (s.blink l).state = .up ∧
      (s.peer (s.peerOf l)).reroute = none) ∧
    (∃ (s : State) (l : Nat) (far : Nat) (d : Nat) (r : _), s.linkFrom (s.peerOf l) far = some d ∧ s.awake = true ∧
      (s.blink l).state = .up ∧ (s.peer (s.peerOf l)).reroute = some r ∧ r.dead = d ∧ r.sent = true) ∧
    (∃ (s : State) (l : Nat) (far : Nat) (d : Nat) (r : _), s.linkFrom (s.peerOf l) far = some d ∧ s.awake = true ∧
      (s.blink l).state = .up ∧ (s.peer (s.peerOf l)).reroute = some r ∧ r.dead = d ∧ r.sent = false ∧
      (s.blink r.survivor).ctrl.isSome = true ∧ s.boot.cfg.pos < s.peerOf l) ∧
    (∃ (s : State) (l : Nat) (far : Nat) (d : Nat) (r : _), s.linkFrom (s.peerOf l) far = some d ∧ s.awake = true ∧
      (s.peer (s.peerOf l)).reroute = some r ∧ r.survivor = l ∧ r.sent = false ∧ r.dead = d) ∧
    (∃ (s : State) (l : Nat) (far : Nat) (d : Nat) (r : _), s.linkFrom (s.peerOf l) far = some d ∧ s.awake = true ∧
      (s.peer (s.peerOf l)).reroute = some r ∧ r.survivor = l ∧ r.sent = false ∧ r.dead = d) ∧
    (∃ (s : State) (l : Nat) (far : Nat) (d : Nat) (r : _), s.linkFrom (s.peerOf l) far = some d ∧ s.awake = true ∧
      (s.peer (s.peerOf l)).reroute = some r ∧ r.dead = d ∧ r.sent = true) ∧
    (∃ (s : State) (l : Nat) (far : Nat), (s.linkFrom (s.peerOf l) far = none ∨ (s.blink l).state ≠ .up)) ∧
    (∃ (s : State) (l : Nat) (far : Nat), (s.linkFrom (s.peerOf l) far = none ∨ (s.blink l).state ≠ .up)) ∧
    (∃ (s : State) (l : Nat), (s.peer (s.peerOf l)).reroute = none) ∧
    (∃ (s : State) (l : Nat), (s.peer (s.peerOf l)).reroute = none) ∧
    (∃ (s : State) (n : Nat), (s.peer n).reroute = none) ∧
    (∃ (s : State) (unit : Nat) (n : Nat), (s.basket.moved.has (unit * 4 + n) = false ∨ s.borderBusy unit n = true ∨
      (s.blink ((s.peerLinks n).getD (unit % max 1 (s.peerLinks n).length) 0)).state ≠ .up)) ∧
    (∃ (s : State) (unit : Nat) (n : Nat), (s.basket.moved.has (unit * 4 + n) = false ∨ s.borderBusy unit n = true ∨
      (s.blink ((s.peerLinks n).getD (unit % max 1 (s.peerLinks n).length) 0)).state ≠ .up)) ∧
    (∃ (s : State) (unit : Nat) (n : Nat), (s.basket.moved.has (unit * 4 + n) = false ∨ s.borderBusy unit n = true ∨
      (s.blink ((s.peerLinks n).getD (unit % max 1 (s.peerLinks n).length) 0)).state ≠ .up)) :=
  ⟨⟨((({ svq with basket.peers := [(1, { state := .admitted, reroute := none })] } : State).modBlink 0 (fun _ => { state := .up, active := 0xFF })).modBlink 1 (fun _ => { state := .down, rxNext := 5, replay := [⟨4, 0, []⟩] })),
     0, 1, 1, 1, by and_intros <;> decide +kernel⟩,
   ⟨((({ svq with basket.peers := [(1, { state := .admitted, reroute := some { dead := 1, survivor := 0 } })] } : State).modBlink 0 (fun _ => { state := .up, active := 0xFF })).modBlink 1 (fun _ => { state := .down, rxNext := 5, replay := [⟨4, 0, []⟩] })),
     0, 1, 1, 1, by and_intros <;> decide +kernel⟩,
   ⟨((({ svq with basket.peers := [(1, { state := .admitted, reroute := some { dead := 1, survivor := 0, last := some 4 } })] } : State).modBlink 0 (fun _ => { state := .up })).modBlink 1 (fun _ => { state := .down })),
     0, 1, 1, 1, { dead := 1, survivor := 0, last := some 4 }, by and_intros <;> decide +kernel⟩,
   ⟨((({ svq with basket.peers := [(1, { state := .admitted, reroute := some { dead := 1, survivor := 0, last := some 4, sent := true } })] } : State).modBlink 0 (fun _ => { state := .up })).modBlink 1 (fun _ => { state := .down })),
     0, 1, 1, 1, { dead := 1, survivor := 0, last := some 4, sent := true }, by and_intros <;> decide +kernel⟩,
   ⟨((({ svq with basket.peers := [(1, { state := .admitted, reroute := some { dead := 1, survivor := 0 } })] } : State).modBlink 0 (fun _ => { state := .up })).modBlink 1 (fun _ => { state := .down })),
     0, 1, 1, 1, { dead := 1, survivor := 0 }, by and_intros <;> decide +kernel⟩,
   ⟨({ (svq.modBlink 0 (fun _ => { state := .up, routed := some 1, xids := [{ xid := 1, pkt := req .memRd }] })) with basket.moved := [(2 * 4 + 1, 1)] } : State),
     2, 1, 0, by and_intros <;> decide +kernel⟩,
   ⟨({ (svq.modBlink 1 (fun _ => { state := .up })) with basket.moved := [(3 * 4 + 1, 0)] } : State), 3, 1, 1,
     by and_intros <;> decide +kernel⟩,
   ⟨((({ svq with basket.peers := [(1, { state := .admitted, reroute := none })] } : State).modBlink 0 (fun _ => { state := .up })).modBlink 1 (fun _ => { state := .down, rxNext := 5, replay := [⟨4, 0, []⟩] })),
     0, 1, 1, by and_intros <;> decide +kernel⟩,
   ⟨((({ svq with basket.peers := [(1, { state := .admitted, reroute := none })] } : State).modBlink 0 (fun _ => { state := .up })).modBlink 1 (fun _ => { state := .up, tx := [{ vc := 0, bytes := [1, 2] }] })),
     0, 1, 1, by and_intros <;> decide +kernel⟩,
   ⟨((({ svq with basket.peers := [(1, { state := .admitted, reroute := some { dead := 1, survivor := 0, sent := true } })] } : State).modBlink 0 (fun _ => { state := .up })).modBlink 1 (fun _ => { state := .down, rxNext := 5, replay := [⟨4, 0, []⟩] })),
     0, 1, 1, { dead := 1, survivor := 0, sent := true }, by and_intros <;> decide +kernel⟩,
   ⟨((({ svq with basket.peers := [(1, { state := .admitted, reroute := some { dead := 1, survivor := 0 } })] } : State).modBlink 0 (fun _ => { state := .up, ctrl := some (.rerouteReq 1 3) })).modBlink 1 (fun _ => { state := .down, rxNext := 5, replay := [⟨4, 0, []⟩] })),
     0, 1, 1, { dead := 1, survivor := 0 }, by and_intros <;> decide +kernel⟩,
   ⟨((({ svq with basket.peers := [(1, { state := .admitted, reroute := some { dead := 1, survivor := 0 } })] } : State).modBlink 0 (fun _ => { state := .up })).modBlink 1 (fun _ => { state := .down, rxNext := 5, replay := [⟨4, 0, []⟩] })),
     0, 1, 1, { dead := 1, survivor := 0 }, by and_intros <;> decide +kernel⟩,
   ⟨((({ svq with basket.peers := [(1, { state := .admitted, reroute := some { dead := 1, survivor := 0, seen := true } })] } : State).modBlink 0 (fun _ => { state := .up })).modBlink 1 (fun _ => { state := .down, rxNext := 5, replay := [⟨4, 0, []⟩] })),
     0, 1, 1, { dead := 1, survivor := 0, seen := true }, by and_intros <;> decide +kernel⟩,
   ⟨((({ svq with basket.peers := [(1, { state := .admitted, reroute := some { dead := 1, survivor := 0, sent := true } })] } : State).modBlink 0 (fun _ => { state := .up })).modBlink 1 (fun _ => { state := .down, rxNext := 5, replay := [⟨4, 0, []⟩] })),
     0, 1, 1, { dead := 1, survivor := 0, sent := true }, by and_intros <;> decide +kernel⟩,
   ⟨svq, 0, 1, by and_intros <;> decide +kernel⟩,
   ⟨((({ svq with basket.peers := [(1, { state := .admitted, reroute := none })] } : State).modBlink 0 (fun _ => { state := .down })).modBlink 1 (fun _ => { state := .down, rxNext := 5, replay := [⟨4, 0, []⟩] })),
     0, 1, by and_intros <;> decide +kernel⟩,
   ⟨((({ svq with basket.peers := [(1, { state := .admitted, reroute := none })] } : State).modBlink 0 (fun _ => { state := .up })).modBlink 1 (fun _ => { state := .down, rxNext := 5, replay := [⟨4, 0, []⟩] })),
     0, by and_intros <;> decide +kernel⟩,
   ⟨((({ svq with basket.peers := [(1, { state := .admitted, reroute := none })] } : State).modBlink 0 (fun _ => { state := .up })).modBlink 1 (fun _ => { state := .down, rxNext := 5, replay := [⟨4, 0, []⟩] })),
     0, by and_intros <;> decide +kernel⟩,
   ⟨svq, 1, by and_intros <;> decide +kernel⟩,
   ⟨svq, 2, 1, by and_intros <;> decide +kernel⟩,
   ⟨({ (svq.modBlink 0 (fun _ => { state := .up, routed := some 1, xids := [{ xid := 1, pkt := { req .memRd with initUnit := 2 } }] })) with basket.moved := [(2 * 4 + 1, 1)] } : State),
     2, 1, by and_intros <;> decide +kernel⟩,
   ⟨({ (svq.modBlink 0 (fun _ => { state := .down, routed := some 1 })) with basket.moved := [(2 * 4 + 1, 1)] } : State), 2, 1,
     by and_intros <;> decide +kernel⟩⟩

theorem witness_BorderPacketCompletes :
    (∃ (s : State) (l : Nat) (b : BorderPkt) (k : _) (a : _), s.awake = true ∧ (s.blink l).state = .up ∧ s.fenced (borderUnit l) = false ∧
      (s.blink l).rx = [] ∧ b.op = .memRd ∧ (s.peer (s.peerOf l)).state = .admitted ∧ s.linkFrom (s.peerOf l) b.originLink = some k ∧
      s.decode b.addr = .pool a) ∧
    (∃ (s : State) (l : Nat) (b : BorderPkt) (e : _), s.awake = true ∧ (s.blink l).state = .up ∧ s.fenced (borderUnit l) = false ∧
      (s.blink l).rx = [] ∧ b.op = .cpl ∧ (s.blink b.originLink).xids.find? (fun e => e.xid == b.xid) = some e) ∧
    (∃ (s : State) (l : Nat) (b : BorderPkt), s.awake = true ∧ (s.blink l).state = .up ∧ s.fenced (borderUnit l) = false ∧
      (s.blink l).rx = [] ∧ b.op = .mgmt) ∧
    (∃ (s : State) (l : Nat) (b : BorderPkt), s.awake = true ∧ (s.blink l).state = .up ∧ s.fenced (borderUnit l) = false ∧
      (s.blink l).rx = [] ∧ borderCode b.op = 0) ∧
    (∃ (s : State) (l : Nat) (b : BorderPkt), s.awake = true ∧ (s.blink l).state = .up ∧ s.fenced (borderUnit l) = false ∧
      (s.blink l).rx = [] ∧ (b.op.cls = 0 ∨ b.op.cls = 1) ∧ borderCode b.op ≠ 0 ∧ b.op ≠ .mgmt ∧ (s.peer (s.peerOf l)).state ≠ .admitted) ∧
    (∃ (s : State) (l : Nat) (b : BorderPkt) (e : _), s.awake = true ∧ (s.blink l).state = .up ∧ s.fenced (borderUnit l) = false ∧
      (s.blink l).rx = [] ∧ b.op = .cplD ∧ (s.blink b.originLink).xids.find? (fun e => e.xid == b.xid) = some e ∧ b.data.length < e.left) ∧
    (∃ (s : State) (l : Nat) (b : BorderPkt) (k : _), s.awake = true ∧ (s.blink l).state = .up ∧ s.fenced (borderUnit l) = false ∧
      (s.blink l).rx = [] ∧ (b.op.cls = 0 ∨ b.op.cls = 1) ∧ borderCode b.op ≠ 0 ∧ (s.peer (s.peerOf l)).state = .admitted ∧
      s.linkFrom (s.peerOf l) b.originLink = some k) ∧
    (∃ (s : State) (l : Nat) (b : BorderPkt) (k : _), s.awake = true ∧ (s.blink l).state = .up ∧ s.fenced (borderUnit l) = false ∧
      (s.blink l).rx = [] ∧ (b.op.cls = 0 ∨ b.op.cls = 1) ∧ borderCode b.op ≠ 0 ∧ (s.peer (s.peerOf l)).state = .admitted ∧
      s.linkFrom (s.peerOf l) b.originLink = some k) ∧
    (∃ (s : State) (l : Nat) (b : BorderPkt), s.awake = true ∧ (s.blink l).state = .up ∧ s.fenced (borderUnit l) = false ∧ b.op = .mgmt ∧
      (((s.blink l).rx.get [] 8).flatten.take (borderBytes b).length == borderBytes b) = true) :=
  ⟨⟨(({ svq with basket.peers := [(1, { state := .admitted })] } : State).modBlink 0 (fun _ => { state := .up, rxNext := 1 })), 0,
     ({ op := .memRd, xid := 7, originLink := 0, world := 0, glove := 5, gloveValid := true, home := 1, ep := false, ackReq := false, prefetch := false, len := 64, status := 3, addr := 0x800000, firstBE := BitVec.allOnes 64, lastBE := BitVec.allOnes 64, data := [] } : BorderPkt),
     0, 0x800000, by and_intros <;> decide +kernel⟩,
   ⟨(svq.modBlink 0 (fun _ => { state := .up, xids := [⟨7, req .memRd, 1⟩] })), 0,
     ({ op := .cpl, xid := 7, originLink := 0, world := 0, glove := 5, gloveValid := true, home := 1, ep := false, ackReq := false, prefetch := false, len := 64, status := 3, addr := 0x800000, firstBE := BitVec.allOnes 64, lastBE := BitVec.allOnes 64, data := [] } : BorderPkt),
     ⟨7, req .memRd, 1⟩, by and_intros <;> decide +kernel⟩,
   ⟨(svq.modBlink 0 (fun _ => { state := .up, rxNext := 1 })), 0,
     ({ op := .mgmt, xid := 7, originLink := 0, world := 0, glove := 5, gloveValid := true, home := 1, ep := false, ackReq := false, prefetch := false, len := 64, status := 3, addr := 0x800000, firstBE := BitVec.allOnes 64, lastBE := BitVec.allOnes 64, data := [] } : BorderPkt),
     by and_intros <;> decide +kernel⟩,
   ⟨(svq.modBlink 0 (fun _ => { state := .up, rxNext := 1 })), 0,
     ({ op := .zlRd, xid := 7, originLink := 0, world := 0, glove := 5, gloveValid := true, home := 1, ep := false, ackReq := false, prefetch := false, len := 64, status := 3, addr := 0x800000, firstBE := BitVec.allOnes 64, lastBE := BitVec.allOnes 64, data := [] } : BorderPkt),
     by and_intros <;> decide +kernel⟩,
   ⟨(({ svq with basket.peers := [(1, { state := .admitting })] } : State).modBlink 0 (fun _ => { state := .up, rxNext := 1 })), 0,
     ({ op := .memWr, xid := 7, originLink := 0, world := 0, glove := 5, gloveValid := true, home := 1, ep := false, ackReq := false, prefetch := false, len := 64, status := 3, addr := 0x800000, firstBE := BitVec.allOnes 64, lastBE := BitVec.allOnes 64, data := [5] } : BorderPkt),
     by and_intros <;> decide +kernel⟩,
   ⟨(({ svq with basket.peers := [(1, { state := .admitted })] } : State).modBlink 0 (fun _ => { state := .up, xids := [⟨7, req .memRd, 2⟩] })),
     0,
     ({ op := .cplD, xid := 7, originLink := 0, world := 0, glove := 5, gloveValid := true, home := 1, ep := false, ackReq := false, prefetch := false, len := 64, status := 3, addr := 0x800000, firstBE := BitVec.allOnes 64, lastBE := BitVec.allOnes 64, data := [5] } : BorderPkt),
     ⟨7, req .memRd, 2⟩, by and_intros <;> decide +kernel⟩,
   ⟨(({ svq with basket.peers := [(1, { state := .admitted })] } : State).modBlink 0 (fun _ => { state := .up, rxNext := 1 })), 0,
     ({ op := .memRd, xid := 7, originLink := 0, world := 0, glove := 5, gloveValid := true, home := 1, ep := false, ackReq := false, prefetch := false, len := 64, status := 3, addr := 0x800000, firstBE := BitVec.allOnes 64, lastBE := BitVec.allOnes 64, data := [] } : BorderPkt),
     0, by and_intros <;> decide +kernel⟩,
   ⟨(({ svq with basket.peers := [(1, { state := .admitted })] } : State).modBlink 0 (fun _ => { state := .up, rxNext := 1 })), 0,
     ({ op := .memWr, xid := 7, originLink := 0, world := 0, glove := 5, gloveValid := true, home := 1, ep := false, ackReq := false, prefetch := false, len := 64, status := 3, addr := 0x800000, firstBE := BitVec.allOnes 64, lastBE := BitVec.allOnes 64, data := [5] } : BorderPkt),
     0, by and_intros <;> decide +kernel⟩,
   ⟨(({ svq with basket.peers := [(1, { state := .admitted })] } : State).modBlink 0 (fun _ => { state := .up, rx := [(8, [borderBytes ({ op := .mgmt, xid := 7, originLink := 0, world := 0, glove := 5, gloveValid := true, home := 1, ep := false, ackReq := false, prefetch := false, len := 64, status := 3, addr := 0x800000, firstBE := BitVec.allOnes 64, lastBE := BitVec.allOnes 64, data := [] } : BorderPkt)])] })),
     0,
     ({ op := .mgmt, xid := 7, originLink := 0, world := 0, glove := 5, gloveValid := true, home := 1, ep := false, ackReq := false, prefetch := false, len := 64, status := 3, addr := 0x800000, firstBE := BitVec.allOnes 64, lastBE := BitVec.allOnes 64, data := [] } : BorderPkt),
     by and_intros <;> decide +kernel⟩⟩

theorem witness_FaultsAreTakenByTheCollector :
    (∃ (s : State) (r : FaultReport), s.awake = true ∧ (s.unitFlt r.unit).state = 0 ∧ r.error = .contained ∧ r.code < 0x0700 ∧
      r.code ≠ 0x0043 ∧ r.code ≠ 0x0047 ∧ (s.flt.details.get {} (4 * r.cls + r.quad)).valid = false ∧ s.flt.fltLog.length < 4096) ∧
    (∃ (s : State) (r : FaultReport), s.awake = true ∧ (s.unitFlt r.unit).state = 0 ∧ r.error = .contained ∧ r.code < 0x0700 ∧
      r.code ≠ 0x0043 ∧ r.code ≠ 0x0047 ∧ (s.flt.details.get {} (4 * r.cls + r.quad)).valid = true ∧
      1 ≤ (s.flt.details.get {} (4 * r.cls + r.quad)).severity) ∧
    (∃ (s : State) (r : FaultReport), s.awake = true ∧ (s.unitFlt r.unit).state = 0 ∧ r.error = .integrity ∧ r.code = 0x0200) ∧
    (∃ (s : State) (r : FaultReport), s.awake = true ∧ (s.unitFlt r.unit).state = 0 ∧ r.error = .tableUncorrectable ∧ r.code = 0x0041 ∧
      unitKind r.unit = 1 ∧ (s.unitFlt r.unit).bucket + 1 < s.boot.cfg.retireThresh ∧ s.sys.mode = .service) ∧
    (∃ (s : State) (r : FaultReport), s.awake = true ∧ (s.unitFlt r.unit).state = 0 ∧ r.error = .rootMismatch ∧ r.code = 0x0704 ∧
      s.sys.mode = .service) ∧
    (∃ (s : State) (r : FaultReport), s.awake = true ∧ (s.unitFlt r.unit).state = 0 ∧ (∀ c, r.error ≠ .badCopy c)) ∧
    (∃ (s : State) (r : FaultReport), s.awake = true ∧ (s.unitFlt r.unit).state = 0 ∧ (∀ c, r.error ≠ .badCopy c)) ∧
    (∃ (s : State) (r : FaultReport), s.awake = true ∧ (s.unitFlt r.unit).state = 0 ∧ (∀ c, r.error ≠ .badCopy c)) ∧
    (∃ (s : State) (r : FaultReport) (f : _) (a : _), s.awake = true ∧ (s.unitFlt r.unit).state = 0 ∧
      r.error = .badCopy (.instruction f a) ∧ (∃ e ∈ (s.finger f).ibuf, e.1 = a)) ∧
    (∃ (s : State) (r : FaultReport) (c : _), s.awake = true ∧ (s.unitFlt r.unit).state = 0 ∧ r.error = .badCopy c) ∧
    (∃ (s : State) (r : FaultReport) (c : _), s.awake = true ∧ (s.unitFlt r.unit).state = 0 ∧ r.error = .badCopy c) :=
  ⟨⟨({ svq with net.reports := [{ cls := 3, error := .contained, code := 0x0050, unit := gateUnit 0, quad := 0, element := 5 }] } : State),
     { cls := 3, error := .contained, code := 0x0050, unit := gateUnit 0, quad := 0, element := 5 }, by and_intros <;> decide +kernel⟩,
   ⟨({ svq with net.reports := [{ cls := 3, error := .contained, code := 0x0050, unit := gateUnit 0, quad := 0, element := 5 }], flt.details := [(12, { valid := true, severity := 1, contained := 65535 })] } : State),
     { cls := 3, error := .contained, code := 0x0050, unit := gateUnit 0, quad := 0, element := 5 }, by and_intros <;> decide +kernel⟩,
   ⟨(({ svq with net.reports := [{ cls := 3, error := .integrity, code := 0x0200, unit := gateUnit 0, quad := 0, element := 5 }] } : State).modGate 0 (fun x => { x with integ := 2 })),
     { cls := 3, error := .integrity, code := 0x0200, unit := gateUnit 0, quad := 0, element := 5 }, by and_intros <;> decide +kernel⟩,
   ⟨({ svq with net.outst := [{ unit := gateUnit 0, tag := 9, ctx := .gateMac 0 0, pkt := { op := .mqMac, vc := 6, dest := stackUnit 0 }, left := 1 }] } : State),
     { cls := 3, error := .tableUncorrectable, code := 0x0041, unit := gateUnit 0, quad := 0, element := 5 },
     by and_intros <;> decide +kernel⟩,
   ⟨svq, { cls := 3, error := .rootMismatch, code := 0x0704, unit := stackUnit 0, quad := 0, element := 5 },
     by and_intros <;> decide +kernel⟩,
   ⟨({ svq with net.reports := [{ cls := 3, error := .contained, code := 0x0050, unit := gateUnit 0, quad := 0, element := 5 }] } : State),
     { cls := 3, error := .contained, code := 0x0050, unit := gateUnit 0, quad := 0, element := 5 },
     by and_intros <;> first | decide +kernel | simp⟩,
   ⟨({ svq with net.reports := [{ cls := 3, error := .integrity, code := 0x0200, unit := gateUnit 0, quad := 0, element := 5 }] } : State),
     { cls := 3, error := .integrity, code := 0x0200, unit := gateUnit 0, quad := 0, element := 5 },
     by and_intros <;> first | decide +kernel | simp⟩,
   ⟨svq, { cls := 3, error := .rootMismatch, code := 0x0704, unit := stackUnit 0, quad := 0, element := 5 },
     by and_intros <;> first | decide +kernel | simp⟩,
   ⟨({ prog 0 with net.reports := [{ cls := 5, error := .badCopy (.instruction fg 64), code := 0x0041, unit := engineUnit 0, quad := 0, element := 5 }] } : State),
     { cls := 5, error := .badCopy (.instruction fg 64), code := 0x0041, unit := engineUnit 0, quad := 0, element := 5 }, fg, 64,
     by and_intros <;> decide +kernel⟩,
   ⟨({ prog 0 with net.reports := [{ cls := 5, error := .badCopy (.instruction fg 64), code := 0x0041, unit := engineUnit 0, quad := 0, element := 5 }] } : State),
     { cls := 5, error := .badCopy (.instruction fg 64), code := 0x0041, unit := engineUnit 0, quad := 0, element := 5 },
     .instruction fg 64, by and_intros <;> decide +kernel⟩,
   ⟨({ svq with pool.tcaches := [(cacheKey (cuffUnit 0) 0, [(0, { page := 4, valid := true })])] } : State),
     { cls := 6, error := .badCopy (.translation (cuffUnit 0) 0 0 0), code := 0x0041, unit := cuffUnit 0, quad := 0, element := 5 },
     .translation (cuffUnit 0) 0 0 0, by and_intros <;> decide +kernel⟩⟩

theorem witness_FaultTimersAndRetirementLogComplete :
    (∃ (s : State) (u : _), s.awake = true ∧ (s.unitFlt u).state = 1) ∧
    (∃ (s : State) (u : _), s.awake = true ∧ (s.unitFlt u).state = 1) ∧
    (∃ (s : State) (u : _), s.awake = true ∧ (s.unitFlt u).state = 1 ∧ unitKind u = 1 ∧ s.sys.mode ≠ .degraded) ∧
    (∃ (s : State) (u : _), (s.unitFlt u).state ≠ 1) ∧
    (∃ (s : State) (u : _), (s.unitFlt u).state ≠ 1) ∧
    (∃ (s : State) (u : _), s.awake = true ∧ (s.unitFlt u).state = 1) ∧
    (∃ (s : State) (u : _), s.awake = true ∧ (s.unitFlt u).state = 1) ∧
    (∃ (s : State) (kind : Nat) (unit : Nat) (element : Nat) (detail : Nat) (i : Nat), s.awake = true ∧ (kind, unit, element,
      detail) ∈ s.flt.mramQ ∧ s.recordSlot = some i) ∧
    (∃ (s : State) (kind : Nat) (unit : Nat) (element : Nat) (detail : Nat) (i : Nat), s.awake = true ∧ (kind, unit, element,
      detail) ∈ s.flt.mramQ ∧ s.recordSlot = some i) ∧
    (∃ (s : State) (f : FnId), s.bar0On f = true ∧ f.fn = 0) ∧
    (∃ (s : State) (f : FnId), s.bar0On f = true ∧ f.fn = 0) ∧
    (∃ (s : State) (f : FnId) (i : Nat), s.bar0On f = true ∧ f.fn = 0 ∧ s.boot.mram.log.has i = true) ∧
    (∃ (s : State) (f : FnId) (i : Nat), s.bar0On f = true ∧ f.fn = 0 ∧ s.boot.mram.log.has i = true) ∧
    (∃ (s : State) (f : FnId) (i : Nat), s.bar0On f = true ∧ f.fn = 0 ∧ s.boot.mram.log.has i = false) ∧
    (∃ (s : State) (f : FnId) (i : Nat), s.bar0On f = true ∧ f.fn = 0 ∧ s.boot.mram.log.has i = false) ∧
    (∃ (s : State) (kind : Nat) (unit : Nat) (element : Nat) (detail : Nat), (kind, unit, element, detail) ∉ s.flt.mramQ) ∧
    (∃ (s : State) (kind : Nat) (unit : Nat) (element : Nat) (detail : Nat), s.awake = true ∧ (kind, unit, element,
      detail) ∈ s.flt.mramQ ∧ s.recordSlot = none) ∧
    (∃ (s : State) (f : FnId), (s.bar0On f = false ∨ f.fn ≠ 0)) ∧
    (∃ (s : State) (f : FnId), (s.bar0On f = false ∨ f.fn ≠ 0)) :=
  ⟨⟨(svq.modUnit (gateUnit 0) (fun _ => { state := 1, code := 0x41, quiet := 5, bucket := 2 })), gateUnit 0,
     by and_intros <;> decide +kernel⟩,
   ⟨(svq.modUnit (gateUnit 0) (fun _ => { state := 1, code := 0x41, quiet := 5, bucket := 2 })), gateUnit 0,
     by and_intros <;> decide +kernel⟩,
   ⟨(svq.modUnit (gateUnit 0) (fun _ => { state := 1, code := 0x41, quiet := 5, bucket := 2 })), gateUnit 0,
     by and_intros <;> decide +kernel⟩,
   ⟨svq, gateUnit 0, by and_intros <;> decide +kernel⟩,
   ⟨svq, gateUnit 0, by and_intros <;> decide +kernel⟩,
   ⟨(svq.modUnit (gateUnit 0) (fun _ => { state := 1, code := 0x41, quiet := 5, bucket := 2 })), gateUnit 0,
     by and_intros <;> decide +kernel⟩,
   ⟨({ (svq.modUnit (gateUnit 0) (fun _ => { state := 1, code := 0x41, quiet := 5, bucket := 2 })) with sys.mode := .degraded } : State),
     gateUnit 0, by and_intros <;> decide +kernel⟩,
   ⟨({ svq with flt.mramQ := [(3, 4, 5, 6)], boot.mram.log := [(0, { kind := 1, unit := 0, element := 0, detail := 0, coldResets := 0, time := 0 })] } : State),
     3, 4, 5, 6, 1, by and_intros <;> decide +kernel⟩,
   ⟨({ svq with flt.mramQ := [(3, 4, 5, 6)], boot.mram.log := [(0, { kind := 1, unit := 0, element := 0, detail := 0, coldResets := 0, time := 0 })] } : State),
     3, 4, 5, 6, 1, by and_intros <;> decide +kernel⟩,
   ⟨({ svq with flt.mramQ := [(3, 4, 5, 6)], boot.mram.log := [(0, { kind := 1, unit := 0, element := 0, detail := 0, coldResets := 0, time := 0 })] } : State),
     ⟨0, 0⟩, by and_intros <;> decide +kernel⟩,
   ⟨({ svq with flt.mramQ := [(3, 4, 5, 6)], boot.mram.log := [(0, { kind := 1, unit := 0, element := 0, detail := 0, coldResets := 0, time := 0 })] } : State),
     ⟨0, 0⟩, by and_intros <;> decide +kernel⟩,
   ⟨({ svq with flt.mramQ := [(3, 4, 5, 6)], boot.mram.log := [(0, { kind := 1, unit := 0, element := 0, detail := 0, coldResets := 0, time := 0 })] } : State),
     ⟨0, 0⟩, 0, by and_intros <;> decide +kernel⟩,
   ⟨({ svq with flt.mramQ := [(3, 4, 5, 6)], boot.mram.log := [(0, { kind := 1, unit := 0, element := 0, detail := 0, coldResets := 0, time := 0 })] } : State),
     ⟨0, 0⟩, 0, by and_intros <;> decide +kernel⟩,
   ⟨({ svq with flt.mramQ := [(3, 4, 5, 6)], boot.mram.log := [(0, { kind := 1, unit := 0, element := 0, detail := 0, coldResets := 0, time := 0 })] } : State),
     ⟨0, 0⟩, 32768, by and_intros <;> decide +kernel⟩,
   ⟨({ svq with flt.mramQ := [(3, 4, 5, 6)], boot.mram.log := [(0, { kind := 1, unit := 0, element := 0, detail := 0, coldResets := 0, time := 0 })] } : State),
     ⟨0, 0⟩, 1, by and_intros <;> decide +kernel⟩,
   ⟨({ svq with flt.mramQ := [(3, 4, 5, 6)], boot.mram.log := [(0, { kind := 1, unit := 0, element := 0, detail := 0, coldResets := 0, time := 0 })] } : State),
     4, 4, 5, 6, by and_intros <;> decide +kernel⟩,
   ⟨({ svq with flt.mramQ := [(3, 4, 5, 6)], boot.mram.log := List.replicate 32768 (0, { kind := 1, unit := 0, element := 0, detail := 0, coldResets := 0, time := 0 }) } : State),
     3, 4, 5, 6, by and_intros <;> decide +kernel⟩,
   ⟨({ svq with flt.mramQ := [(3, 4, 5, 6)], boot.mram.log := [(0, { kind := 1, unit := 0, element := 0, detail := 0, coldResets := 0, time := 0 })] } : State),
     ⟨0, 1⟩, by and_intros <;> decide +kernel⟩,
   ⟨({ svq with flt.mramQ := [(3, 4, 5, 6)], boot.mram.log := [(0, { kind := 1, unit := 0, element := 0, detail := 0, coldResets := 0, time := 0 })] } : State),
     ⟨0, 1⟩, by and_intros <;> decide +kernel⟩⟩

theorem witness_ViolationSlotAndTripCommandsComplete :
    (∃ (s : State) (v : Violation), s.awake = true ∧ (s.glove v.glove).latch.valid = false) ∧
    (∃ (s : State) (v : Violation), s.awake = true ∧ (s.glove v.glove).latch.valid = true) ∧
    (∃ (s : State) (ch : _) (r : _), s.awake = true ∧ (s.gate ch).retired = false ∧ (s.dom (13 + ch)).state = 0 ∧
      (s.gate ch).suspect = false ∧ (s.gate ch).slots < 255 ∧ pickSlot ch s.sys.now (s.gate ch).rows (s.gate ch).fg = some r) ∧
    (∃ (s : State) (ch : _) (r : _), s.awake = true ∧ (s.gate ch).retired = false ∧ (s.dom (13 + ch)).state = 0 ∧
      (s.gate ch).suspect = false ∧ (s.gate ch).slots < 255 ∧ pickSlot ch s.sys.now (s.gate ch).rows (s.gate ch).fg = some r) ∧
    (∃ (s : State) (ch : _), s.awake = true ∧ (s.gate ch).retired = false ∧ (s.dom (13 + ch)).state = 0 ∧ (s.gate ch).suspect = false ∧
      (s.gate ch).slots < 255 ∧ (s.gate ch).fg = [] ∧ (∃ b ∈ (s.gate ch).reencs, 0 < b.left)) ∧
    (∃ (s : State) (ch : _), s.awake = true ∧ (s.gate ch).retired = false ∧ (s.dom (13 + ch)).state = 0 ∧ (s.gate ch).suspect = false ∧
      (s.gate ch).slots < 255 ∧ (s.gate ch).fg = [] ∧ (∀ b ∈ (s.gate ch).reencs, b.left = 0) ∧ (s.gate ch).scrub < s.channelLines) ∧
    (∃ (s : State) (q : _) (pc : _) (r : _), s.awake = true ∧ (s.pool.hbmSched.get {} (q * 32 + pc)).slots < 255 ∧
      (s.dom (29 + q)).state = 0 ∧
      pickSlot (16 + q * 32 + pc) s.sys.now (s.pool.hbmSched.get {} (q * 32 + pc)).rows (s.pool.hbmSched.get {} (q * 32 + pc)).fg = some r ∧
      (∀ e ∈ (s.hgate (8 * q + pc / 4)).buf, e.1 ≠ r.addr)) ∧
    (∃ (s : State) (i : _), s.awake = true ∧ s.evt.evtLive = true ∧ (s.boot.cfg.evtIn.getD i {}).tamper = true ∧ s.sys.mode ≠ .blank ∧
      s.sys.mode ≠ .quarantine) ∧
    (∃ (s : State), s.awake = true ∧ s.sys.thermtrip = false ∧ s.sys.mode ≠ .quarantine) ∧
    (∃ (s : State), s.awake = true) ∧
    (∃ (s : State) (ch : _), s.awake = true ∧ ((s.gate ch).retired = true ∨ (s.dom (13 + ch)).state ≠ 0)) ∧
    (∃ (s : State) (ch : _), s.awake = true ∧ ((s.gate ch).retired = true ∨ (s.dom (13 + ch)).state ≠ 0)) ∧
    (∃ (s : State) (ch : _), s.awake = true ∧ (s.gate ch).retired = false ∧ (s.dom (13 + ch)).state = 0 ∧
      ((behind (newPass (s.gate ch).scrub s.channelLines (s.gate ch).passStart s.sys.now).1 s.channelLines (s.sys.now - (newPass (s.gate ch).scrub s.channelLines (s.gate ch).passStart s.sys.now).2) = true ∧
      255 ≤ (s.gate ch).slots) ∨ ((s.gate ch).suspect = true ∧ 15 ≤ (s.gate ch).slots))) ∧
    (∃ (s : State) (ch : _), s.awake = true ∧ (s.gate ch).retired = false ∧ (s.dom (13 + ch)).state = 0 ∧
      ((behind (newPass (s.gate ch).scrub s.channelLines (s.gate ch).passStart s.sys.now).1 s.channelLines (s.sys.now - (newPass (s.gate ch).scrub s.channelLines (s.gate ch).passStart s.sys.now).2) = true ∧
      255 ≤ (s.gate ch).slots) ∨ ((s.gate ch).suspect = true ∧ 15 ≤ (s.gate ch).slots))) ∧
    (∃ (s : State) (ch : _), s.awake = true ∧ (s.gate ch).retired = false ∧ (s.dom (13 + ch)).state = 0 ∧ (s.gate ch).fg = [] ∧
      (∀ b ∈ (s.gate ch).reencs, b.left = 0)) ∧
    (∃ (s : State) (ch : _), s.awake = true ∧ (s.gate ch).retired = false ∧ (s.dom (13 + ch)).state = 0 ∧ (s.gate ch).fg = [] ∧
      (∀ b ∈ (s.gate ch).reencs, b.left = 0)) ∧
    (∃ (s : State) (ch : _) (r : _), s.awake = true ∧ (s.gate ch).retired = false ∧ (s.dom (13 + ch)).state = 0 ∧
      (s.gate ch).slots < 255 ∧ ((s.gate ch).suspect = true → (s.gate ch).slots < 15) ∧
      pickSlot ch s.sys.now (s.gate ch).rows (s.gate ch).fg = some r) ∧
    (∃ (s : State) (q : _), s.awake = true ∧ (s.dom (29 + q)).state ≠ 0) ∧
    (∃ (s : State) (q : _) (pc : _) (r : _), s.awake = true ∧ (s.dom (29 + q)).state = 0 ∧
      (s.pool.hbmSched.get {} (q * 32 + pc)).slots < 255 ∧
      pickSlot (16 + q * 32 + pc) s.sys.now (s.pool.hbmSched.get {} (q * 32 + pc)).rows (s.pool.hbmSched.get {} (q * 32 + pc)).fg = some r) ∧
    (∃ (s : State) (q : _) (pc : _), s.awake = true ∧ (s.dom (29 + q)).state = 0 ∧ (s.pool.hbmSched.get {} (q * 32 + pc)).slots < 255 ∧
      (s.pool.hbmSched.get {} (q * 32 + pc)).fg = []) ∧
    (∃ (s : State) (q : _) (pc : _), s.awake = true ∧ (s.dom (29 + q)).state = 0 ∧ (s.pool.hbmSched.get {} (q * 32 + pc)).slots < 255 ∧
      (s.pool.hbmSched.get {} (q * 32 + pc)).fg = []) ∧
    (∃ (s : State) (i : _), s.awake = true ∧ ((s.boot.cfg.evtIn.getD i {}).tamper = false ∨ s.evt.evtLive = false ∨ s.sys.mode = .blank)) ∧
    (∃ (s : State) (i : _), s.awake = true ∧ ((s.boot.cfg.evtIn.getD i {}).tamper = false ∨ s.evt.evtLive = false ∨ s.sys.mode = .blank)) :=
  ⟨⟨svq, { glove := 0, addr := 0x1234, code := 0x0300, world := 0, write := true, unit := cuffUnit 0 }, by and_intros <;> decide +kernel⟩,
   ⟨(({ svq with net.violations := [{ glove := 0, addr := 0x1234, code := 0x0300, world := 0, write := true, unit := cuffUnit 0 }] } : State).modGlove 0 (fun x => { x with latch := { valid := true, count := 65535 } })),
     { glove := 0, addr := 0x1234, code := 0x0300, world := 0, write := true, unit := cuffUnit 0 }, by and_intros <;> decide +kernel⟩,
   ⟨(svq.modGate 0 (fun x => { x with fg := [({ addr := 0x1000 } : SlotReq)], slots := 254 })), 0, ({ addr := 0x1000 } : SlotReq),
     by and_intros <;> decide +kernel⟩,
   ⟨(({ svq with sys.now := 9000 } : State).modGate 0 (fun x => { x with fg := [⟨7, some 5⟩, ({ addr := 0x1000 } : SlotReq)], slots := 3 })),
     0, ({ addr := 7, passed := some 5 } : SlotReq), by and_intros <;> decide +kernel⟩,
   ⟨(svq.modGate 0 (fun x => { x with reencs := [⟨0, 0, false, 5⟩] })), 0, by and_intros <;> decide +kernel⟩,
   ⟨svq, 0, by and_intros <;> decide +kernel⟩,
   ⟨({ svq with pool.hbmSched := [(33, { fg := [({ addr := 0x1000 } : SlotReq)] })] } : State), 1, 1, ({ addr := 0x1000 } : SlotReq),
     by and_intros <;> decide +kernel⟩,
   ⟨({ svq with evt.evtLive := true, boot.cfg.evtIn := [{ enable := true, tamper := true }] } : State), 0,
     by and_intros <;> decide +kernel⟩,
   ⟨svq, by and_intros <;> decide +kernel⟩,
   ⟨svq, by and_intros <;> decide +kernel⟩,
   ⟨(svq.modGate 0 (fun x => { x with retired := true })), 0, by and_intros <;> decide +kernel⟩,
   ⟨(svq.modDom 13 (fun x => { x with state := 1 })), 0, by and_intros <;> decide +kernel⟩,
   ⟨(svq.modGate 0 (fun x => { x with suspect := true, slots := 15, fg := [({ addr := 0x1000 } : SlotReq)] })), 0,
     by and_intros <;> decide +kernel⟩,
   ⟨(({ svq with sys.now := 40000000000000 } : State).modGate 0 (fun x => { x with passStart := 0, slots := 255, fg := [({ addr := 0x1000 } : SlotReq)] })),
     0, by and_intros <;> decide +kernel⟩,
   ⟨svq, 0, by and_intros <;> decide +kernel⟩,
   ⟨svq, 0, by and_intros <;> decide +kernel⟩,
   ⟨(svq.modGate 0 (fun x => { x with fg := [({ addr := 0x1000 } : SlotReq)], slots := 254 })), 0, ({ addr := 0x1000 } : SlotReq),
     by and_intros <;> decide +kernel⟩,
   ⟨(svq.modDom 30 (fun x => { x with state := 1 })), 1, by and_intros <;> decide +kernel⟩,
   ⟨({ svq with pool.hbmSched := [(33, { fg := [({ addr := 0x1000 } : SlotReq)] })] } : State), 1, 1, ({ addr := 0x1000 } : SlotReq),
     by and_intros <;> decide +kernel⟩,
   ⟨svq, 1, 1, by and_intros <;> decide +kernel⟩,
   ⟨svq, 1, 1, by and_intros <;> decide +kernel⟩,
   ⟨svq, 0, by and_intros <;> decide +kernel⟩,
   ⟨({ ({ svq with evt.evtLive := true, boot.cfg.evtIn := [{ enable := true, tamper := true }] } : State) with evt.evtLive := false } : State),
     0, by and_intros <;> decide +kernel⟩⟩

theorem witness_EventGathererCommandsComplete :
    (∃ (s : State) (i : _), s.awake = true ∧ s.evt.inService = none ∧ i < 80 ∧ (∀ j < i, (s.source j).enabled = false ∨
      s.sourceActive j = false) ∧ (s.source i).enabled = true ∧ s.sourceActive i = true ∧ s.levelSource i = false) ∧
    (∃ (s : State) (i : _), s.awake = true ∧ s.evt.inService = none ∧ i < 80 ∧ (∀ j < i, (s.source j).enabled = false ∨
      s.sourceActive j = false) ∧ (s.source i).enabled = true ∧ s.sourceActive i = true ∧ s.levelSource i = true) ∧
    (∃ (s : State), s.awake = true ∧ (∀ i < 80, (s.source i).enabled = false ∨ s.sourceActive i = false)) ∧
    (∃ (s : State), s.awake = true) ∧
    (∃ (s : State) (i : _) (level : _), s.awake = true ∧ s.evt.evtLive = true ∧ (s.boot.cfg.evtIn.getD i {}).filter = false ∧
      (s.boot.cfg.evtIn.getD i {}).tamper = false ∧ (s.boot.cfg.evtIn.getD i {}).sense = 4 ∧ (s.evtPin i).pin ≠ level ∧
      (s.source i).enabled = true ∧ (s.source i).count < 255) ∧
    (∃ (s : State) (i : _) (level : _), s.awake = true ∧ s.evt.evtLive = true ∧ (s.boot.cfg.evtIn.getD i {}).filter = true ∧
      (s.evtPin i).filtered ≠ level) ∧
    (∃ (s : State) (i : _), s.awake = true ∧ s.evt.evtLive = true ∧ (s.boot.cfg.evtIn.getD i {}).filter = true ∧
      (s.boot.cfg.evtIn.getD i {}).tamper = false ∧ (s.boot.cfg.evtIn.getD i {}).sense = 0 ∧ (s.evtPin i).pin = true ∧
      (s.evtPin i).filtered = false) ∧
    (∃ (s : State) (i : _), s.awake = true ∧ s.evt.evtLive = true ∧ (s.boot.cfg.evtIn.getD i {}).filter = true ∧
      (s.boot.cfg.evtIn.getD i {}).tamper = true ∧ (s.boot.cfg.evtIn.getD i {}).sense = 0 ∧ (s.evtPin i).pin = true ∧
      (s.evtPin i).filtered = false ∧ s.sys.mode ≠ .blank ∧ s.sys.mode ≠ .quarantine) ∧
    (∃ (s : State) (i : _), s.awake = true ∧ s.evt.inService = none ∧ i < 80 ∧ (∀ j < i, (s.source j).enabled = false ∨
      s.sourceActive j = false) ∧ (s.source i).enabled = true ∧ s.sourceActive i = true) ∧
    (∃ (s : State) (i : _), s.awake = true ∧ s.evt.inService = none ∧ i < 80 ∧ (∀ j < i, (s.source j).enabled = false ∨
      s.sourceActive j = false) ∧ (s.source i).enabled = true ∧ s.sourceActive i = true) ∧
    (∃ (s : State), s.awake = true ∧ s.evt.inService ≠ none) ∧
    (∃ (s : State) (i : _) (level : _), s.awake = true ∧ s.evt.evtLive = true ∧ (s.boot.cfg.evtIn.getD i {}).filter = false ∧
      (s.evtPin i).pin ≠ level) ∧
    (∃ (s : State) (i : _) (level : _), s.awake = true ∧ s.evt.evtLive = true ∧ (s.boot.cfg.evtIn.getD i {}).filter = false ∧
      (s.evtPin i).pin ≠ level) ∧
    (∃ (s : State) (i : _) (level : _), s.awake = true ∧ s.evt.evtLive = true ∧ (s.boot.cfg.evtIn.getD i {}).filter = false ∧
      (s.evtPin i).pin = level) ∧
    (∃ (s : State), s.awake = true ∧ s.evt.evtLive = false) ∧
    (∃ (s : State) (i : _), s.awake = true ∧ s.evt.evtLive = true ∧ (s.boot.cfg.evtIn.getD i {}).filter = true ∧
      (s.evtPin i).pin ≠ (s.evtPin i).filtered) ∧
    (∃ (s : State) (i : _), s.awake = true ∧ s.evt.evtLive = true ∧ (s.boot.cfg.evtIn.getD i {}).filter = true ∧
      (s.evtPin i).pin ≠ (s.evtPin i).filtered) ∧
    (∃ (s : State) (i : _), s.awake = true ∧ (s.evt.evtLive = false ∨ (s.boot.cfg.evtIn.getD i {}).filter = false ∨
      (s.evtPin i).pin = (s.evtPin i).filtered)) ∧
    (∃ (s : State) (i : _), s.awake = true ∧ (s.evt.evtLive = false ∨ (s.boot.cfg.evtIn.getD i {}).filter = false ∨
      (s.evtPin i).pin = (s.evtPin i).filtered)) ∧
    (∃ (s : State) (i : _), s.awake = true ∧ (s.evt.evtLive = false ∨ (s.boot.cfg.evtIn.getD i {}).filter = false ∨
      (s.evtPin i).pin = (s.evtPin i).filtered)) :=
  ⟨⟨({ svq with evt.sources := [(30, { enabled := true, count := 3, overflow := true })], boot.cfg.evtIn := [], evt.evtLive := true } : State),
     30, by and_intros <;> decide +kernel⟩,
   ⟨({ svq with evt.sources := [(9, { enabled := true, level := true })], boot.cfg.evtIn := [], evt.evtLive := true } : State), 9,
     by and_intros <;> decide +kernel⟩,
   ⟨svq, by and_intros <;> decide +kernel⟩,
   ⟨({ svq with evt.inService := some 5, evt.claimed := some (3, true), evt.vector := some 9 } : State), by and_intros <;> decide +kernel⟩,
   ⟨({ svq with evt.sources := [(2, { enabled := true, count := 254 })], evt.evtLive := true, boot.cfg.evtIn := [{}, {}, { enable := true, sense := 4 }] } : State),
     2, true, by and_intros <;> decide +kernel⟩,
   ⟨({ svq with evt.evtLive := true, evt.evtPins := [(2, { pin := false, count := 4 })], boot.cfg.evtIn := [{}, {}, { enable := true, filter := true, tamper := false, cycles := 5, sense := 0 }] } : State),
     2, true, by and_intros <;> decide +kernel⟩,
   ⟨({ svq with evt.evtLive := true, evt.evtPins := [(2, { pin := true, count := 4 })], boot.cfg.evtIn := [{}, {}, { enable := true, filter := true, tamper := false, cycles := 5, sense := 0 }] } : State),
     2, by and_intros <;> decide +kernel⟩,
   ⟨({ svq with evt.evtLive := true, evt.evtPins := [(2, { pin := true, count := 4 })], boot.cfg.evtIn := [{}, {}, { enable := true, filter := true, tamper := true, cycles := 5, sense := 0 }] } : State),
     2, by and_intros <;> decide +kernel⟩,
   ⟨({ svq with evt.sources := [(30, { enabled := true, count := 3, overflow := true })], boot.cfg.evtIn := [], evt.evtLive := true } : State),
     30, by and_intros <;> decide +kernel⟩,
   ⟨({ svq with evt.sources := [(9, { enabled := true, level := true })], boot.cfg.evtIn := [], evt.evtLive := true } : State), 9,
     by and_intros <;> decide +kernel⟩,
   ⟨({ svq with evt.inService := some 5 } : State), by and_intros <;> decide +kernel⟩,
   ⟨({ svq with evt.evtLive := true, evt.evtPins := [(2, { pin := false, count := 4 })], boot.cfg.evtIn := [{}, {}, { enable := true, filter := false, tamper := false, cycles := 5, sense := 4 }] } : State),
     2, true, by and_intros <;> decide +kernel⟩,
   ⟨({ svq with evt.evtLive := true, evt.evtPins := [(2, { pin := false, count := 4 })], boot.cfg.evtIn := [{}, {}, { enable := true, filter := false, tamper := true, cycles := 5, sense := 2 }] } : State),
     2, true, by and_intros <;> decide +kernel⟩,
   ⟨({ svq with evt.evtLive := true, evt.evtPins := [(2, { pin := true, count := 4 })], boot.cfg.evtIn := [{}, {}, { enable := true, filter := false, tamper := false, cycles := 5, sense := 4 }] } : State),
     2, true, by and_intros <;> decide +kernel⟩,
   ⟨({ svq with evt.evtLive := false, evt.evtPins := [(2, { pin := true, count := 4 })], boot.cfg.evtIn := [{}, {}, { enable := true, filter := true, tamper := false, cycles := 5, sense := 4 }] } : State),
     by and_intros <;> decide +kernel⟩,
   ⟨({ svq with evt.evtLive := true, evt.evtPins := [(2, { pin := true, count := 4 })], boot.cfg.evtIn := [{}, {}, { enable := true, filter := true, tamper := false, cycles := 5, sense := 0 }] } : State),
     2, by and_intros <;> decide +kernel⟩,
   ⟨({ svq with evt.evtLive := true, evt.evtPins := [(2, { pin := true, count := 4 })], boot.cfg.evtIn := [{}, {}, { enable := true, filter := true, tamper := true, cycles := 5, sense := 2 }] } : State),
     2, by and_intros <;> decide +kernel⟩,
   ⟨svq, 2, by and_intros <;> decide +kernel⟩,
   ⟨({ svq with evt.evtLive := true, evt.evtPins := [(2, { pin := false, count := 4 })], boot.cfg.evtIn := [{}, {}, { enable := true, filter := true, tamper := false, cycles := 5, sense := 0 }] } : State),
     2, by and_intros <;> decide +kernel⟩,
   ⟨({ svq with evt.evtLive := true, evt.evtPins := [(2, { pin := true, count := 4 })], boot.cfg.evtIn := [{}, {}, { enable := true, filter := false, tamper := false, cycles := 5, sense := 0 }] } : State),
     2, by and_intros <;> decide +kernel⟩⟩

theorem witness_RecoveryCommandsComplete :
    (∃ (s : State) (f : FnId) (len : Nat), s.sys.mode = .blank ∧ f.fn = 0 ∧ s.memOn f = true ∧ s.boot.rcvBusy = false ∧ 0 < len ∧
      len ≤ 4096 ∧ s.boot.rcvAddr + len ≤ 0x1000000) ∧
    (∃ (s : State) (f : FnId) (len : Nat), s.sys.mode = .blank ∧ f.fn = 0 ∧ s.memOn f = true ∧ s.boot.rcvBusy = false ∧ 0 < len ∧
      len ≤ 4096 ∧ s.boot.rcvAddr + len ≤ 0x1000000) ∧
    (∃ (s : State) (f : FnId), s.sys.mode = .blank ∧ f.fn = 0 ∧ s.memOn f = true ∧ s.boot.rcvBusy = false ∧ s.boot.rcvAddr % 0x10000 = 0 ∧
      s.boot.rcvAddr + 0x10000 ≤ 0x1000000) ∧
    (∃ (s : State) (f : FnId) (len : Nat), s.sys.mode = .blank ∧ f.fn = 0 ∧ s.memOn f = true ∧ s.boot.rcvBusy = false ∧ 0 < len ∧
      len ≤ 4096 ∧ s.boot.rcvAddr + len ≤ 0x1000000 ∧ s.boot.rcvAddr % 256 = 0 ∧ len % 256 = 0) ∧
    (∃ (s : State) (f : FnId) (len : Nat), s.sys.mode = .blank ∧ f.fn = 0 ∧ s.memOn f = true ∧ s.boot.rcvBusy = false ∧ 0 < len ∧
      len ≤ 4096 ∧ s.boot.rcvAddr + len ≤ 0x1000000 ∧ s.boot.rcvAddr % 256 = 0 ∧ len % 256 = 0) ∧
    (∃ (s : State) (f : FnId), s.sys.mode = .blank ∧ f.fn = 0 ∧ s.memOn f = true ∧ s.boot.rcvBusy = false) ∧
    (∃ (s : State) (f : FnId), s.sys.mode = .blank ∧ f.fn = 0 ∧ s.memOn f = true ∧ s.boot.rcvBusy = false ∧ s.boot.signer = none) ∧
    (∃ (s : State) (f : FnId), s.sys.mode = .blank ∧ f.fn = 0 ∧ s.memOn f = true ∧ s.boot.rcvBusy = false ∧ s.boot.signer ≠ none) ∧
    (∃ (s : State) (f : FnId), s.sys.mode = .blank ∧ f.fn = 0 ∧ s.memOn f = true ∧ s.boot.rcvBusy = false ∧ s.boot.rcvAddr % 0x10000 ≠ 0 ∧
      s.boot.rcvAddr + 0x10000 ≤ 0x1000000) ∧
    (∃ (s : State) (f : FnId) (len : Nat) (copyB : Bool) (b : Board) (c : _), s.sys.mode ≠ .blank ∧ c ∈ [Instr.recoveryRead f len,
      .recoveryErase f, .recoveryProgram f len, .recoveryVerify f copyB b, .fuseSigner f]) ∧
    (∃ (s : State), s.awake = true ∧ s.boot.rcvBusy = true) ∧
    (∃ (s : State), s.awake = true ∧ s.boot.rcvBusy = true) ∧
    (∃ (s : State) (f : FnId) (len : Nat) (copyB : Bool) (b : Board) (c : _), s.sys.mode = .blank ∧ f.fn = 0 ∧ s.memOn f = true ∧
      s.boot.rcvBusy = true ∧ c ∈ [Instr.recoveryRead f len, .recoveryErase f, .recoveryProgram f len, .recoveryVerify f copyB b,
      .fuseSigner f]) ∧
    (∃ (s : State) (f : FnId) (len : Nat), s.sys.mode = .blank ∧ f.fn = 0 ∧ s.memOn f = true ∧ s.boot.rcvBusy = false ∧ (len = 0 ∨
      4096 < len ∨ 0x1000000 < s.boot.rcvAddr + len)) ∧
    (∃ (s : State) (f : FnId) (len : Nat), s.sys.mode = .blank ∧ f.fn = 0 ∧ s.memOn f = true ∧ s.boot.rcvBusy = false ∧ (len = 0 ∨
      4096 < len ∨ 0x1000000 < s.boot.rcvAddr + len)) ∧
    (∃ (s : State) (f : FnId) (len : Nat), s.sys.mode = .blank ∧ f.fn = 0 ∧ s.memOn f = true ∧ s.boot.rcvBusy = false ∧ (len = 0 ∨
      4096 < len ∨ 0x1000000 < s.boot.rcvAddr + len)) ∧
    (∃ (s : State) (f : FnId) (len : Nat), s.sys.mode = .blank ∧ f.fn = 0 ∧ s.memOn f = true ∧ s.boot.rcvBusy = false ∧ (len = 0 ∨
      4096 < len ∨ 0x1000000 < s.boot.rcvAddr + len)) ∧
    (∃ (s : State) (f : FnId) (len : Nat), s.sys.mode = .blank ∧ f.fn = 0 ∧ s.memOn f = true ∧ s.boot.rcvBusy = false ∧ (len = 0 ∨
      4096 < len ∨ 0x1000000 < s.boot.rcvAddr + len)) ∧
    (∃ (s : State) (f : FnId) (len : Nat), s.sys.mode = .blank ∧ f.fn = 0 ∧ s.memOn f = true ∧ s.boot.rcvBusy = false ∧ 0 < len ∧
      len ≤ 4096 ∧ s.boot.rcvAddr + len ≤ 0x1000000 ∧ (s.boot.rcvAddr % 256 ≠ 0 ∨ len % 256 ≠ 0)) ∧
    (∃ (s : State) (f : FnId) (len : Nat), s.sys.mode = .blank ∧ f.fn = 0 ∧ s.memOn f = true ∧ s.boot.rcvBusy = false ∧ 0 < len ∧
      len ≤ 4096 ∧ s.boot.rcvAddr + len ≤ 0x1000000 ∧ (s.boot.rcvAddr % 256 ≠ 0 ∨ len % 256 ≠ 0)) ∧
    (∃ (s : State) (f : FnId), s.sys.mode = .blank ∧ f.fn = 0 ∧ s.memOn f = true ∧ s.boot.rcvBusy = false ∧
      0x1000000 < s.boot.rcvAddr + 0x10000) ∧
    (∃ (s : State) (f : FnId), s.sys.mode = .blank ∧ f.fn = 0 ∧ s.memOn f = true ∧ s.boot.rcvBusy = false) ∧
    (∃ (s : State) (f : FnId) (len : Nat) (copyB : Bool) (b : Board) (c : _), (f.fn ≠ 0 ∨ s.memOn f = false) ∧
      c ∈ [Instr.recoveryRead f len, .recoveryErase f, .recoveryProgram f len, .recoveryVerify f copyB b, .fuseSigner f]) ∧
    (∃ (s : State) (f : FnId) (len : Nat) (copyB : Bool) (b : Board) (c : _), (f.fn ≠ 0 ∨ s.memOn f = false) ∧
      c ∈ [Instr.recoveryRead f len, .recoveryErase f, .recoveryProgram f len, .recoveryVerify f copyB b, .fuseSigner f]) ∧
    (∃ (s : State), s.boot.rcvBusy = false) :=
  ⟨⟨(({ svc with sys.mode := .blank, boot.rcvBuf := [(0, 9)], boot.flash := [(0x20000, 1), (0x30000, 2)], boot.rcvAddr := 0x20000 } : State)),
     ⟨0, 0⟩, 1, by and_intros <;> decide +kernel⟩,
   ⟨({ svc with sys.mode := .blank, boot.rcvBuf := [(0, 9)], boot.flash := [(0x20000, 1), (0x30000, 2)], boot.rcvAddr := 0xFFF000 } : State),
     ⟨0, 0⟩, 4096, by and_intros <;> decide +kernel⟩,
   ⟨(({ svc with sys.mode := .blank, boot.rcvBuf := [(0, 9)], boot.flash := [(0x20000, 1), (0x30000, 2)], boot.rcvAddr := 0x20000 } : State)),
     ⟨0, 0⟩, by and_intros <;> decide +kernel⟩,
   ⟨(({ svc with sys.mode := .blank, boot.rcvBuf := [(0, 9)], boot.flash := [(0x20000, 1), (0x30000, 2)], boot.rcvAddr := 0x20000 } : State)),
     ⟨0, 0⟩, 256, by and_intros <;> decide +kernel⟩,
   ⟨({ svc with sys.mode := .blank, boot.rcvBuf := [(0, 9)], boot.flash := [(0x20000, 1), (0x30000, 2)], boot.rcvAddr := 0xFFF000 } : State),
     ⟨0, 0⟩, 4096, by and_intros <;> decide +kernel⟩,
   ⟨(({ svc with sys.mode := .blank, boot.rcvBuf := [(0, 9)], boot.flash := [(0x20000, 1), (0x30000, 2)], boot.rcvAddr := 0x20000 } : State)),
     ⟨0, 0⟩, by and_intros <;> decide +kernel⟩,
   ⟨(({ svc with sys.mode := .blank, boot.rcvBuf := [(0, 9)], boot.flash := [(0x20000, 1), (0x30000, 2)], boot.rcvAddr := 0x20000 } : State)),
     ⟨0, 0⟩, by and_intros <;> decide +kernel⟩,
   ⟨({ svc with sys.mode := .blank, boot.rcvBuf := [(0, 9)], boot.flash := [(0x20000, 1), (0x30000, 2)], boot.signer := some 5 } : State),
     ⟨0, 0⟩, by and_intros <;> decide +kernel⟩,
   ⟨({ svc with sys.mode := .blank, boot.rcvBuf := [(0, 9)], boot.flash := [(0x20000, 1), (0x30000, 2)], boot.rcvAddr := 0x20100 } : State),
     ⟨0, 0⟩, by and_intros <;> decide +kernel⟩,
   ⟨svc, ⟨0, 0⟩, 256, true, {}, .recoveryErase ⟨0, 0⟩, by and_intros <;> decide +kernel⟩,
   ⟨({ svc with sys.mode := .blank, boot.rcvBuf := [(0, 9)], boot.flash := [(0x20000, 1), (0x30000, 2)], boot.rcvBusy := true } : State),
     by and_intros <;> decide +kernel⟩,
   ⟨({ svc with sys.mode := .blank, boot.rcvBuf := [(0, 9)], boot.flash := [(0x20000, 1), (0x30000, 2)], boot.rcvBusy := true } : State),
     by and_intros <;> decide +kernel⟩,
   ⟨(({ svc with sys.mode := .blank, boot.rcvBuf := [(0, 9)], boot.flash := [(0x20000, 1), (0x30000, 2)], boot.rcvBusy := true } : State)),
     ⟨0, 0⟩, 256, true, {}, .recoveryErase ⟨0, 0⟩, by and_intros <;> decide +kernel⟩,
   ⟨(({ svc with sys.mode := .blank, boot.rcvBuf := [(0, 9)], boot.flash := [(0x20000, 1), (0x30000, 2)], boot.rcvAddr := 0x20000 } : State)),
     ⟨0, 0⟩, 0, by and_intros <;> decide +kernel⟩,
   ⟨(({ svc with sys.mode := .blank, boot.rcvBuf := [(0, 9)], boot.flash := [(0x20000, 1), (0x30000, 2)], boot.rcvAddr := 0x20000 } : State)),
     ⟨0, 0⟩, 4097, by and_intros <;> decide +kernel⟩,
   ⟨(({ svc with sys.mode := .blank, boot.rcvBuf := [(0, 9)], boot.flash := [(0x20000, 1), (0x30000, 2)], boot.rcvAddr := 0xFFF001 } : State)),
     ⟨0, 0⟩, 4096, by and_intros <;> decide +kernel⟩,
   ⟨(({ svc with sys.mode := .blank, boot.rcvBuf := [(0, 9)], boot.flash := [(0x20000, 1), (0x30000, 2)], boot.rcvAddr := 0x20000 } : State)),
     ⟨0, 0⟩, 0, by and_intros <;> decide +kernel⟩,
   ⟨(({ svc with sys.mode := .blank, boot.rcvBuf := [(0, 9)], boot.flash := [(0x20000, 1), (0x30000, 2)], boot.rcvAddr := 0x20000 } : State)),
     ⟨0, 0⟩, 4352, by and_intros <;> decide +kernel⟩,
   ⟨(({ svc with sys.mode := .blank, boot.rcvBuf := [(0, 9)], boot.flash := [(0x20000, 1), (0x30000, 2)], boot.rcvAddr := 0x20000 } : State)),
     ⟨0, 0⟩, 255, by and_intros <;> decide +kernel⟩,
   ⟨(({ svc with sys.mode := .blank, boot.rcvBuf := [(0, 9)], boot.flash := [(0x20000, 1), (0x30000, 2)], boot.rcvAddr := 0x20080 } : State)),
     ⟨0, 0⟩, 256, by and_intros <;> decide +kernel⟩,
   ⟨(({ svc with sys.mode := .blank, boot.rcvBuf := [(0, 9)], boot.flash := [(0x20000, 1), (0x30000, 2)], boot.rcvAddr := 0xFFF000 } : State)),
     ⟨0, 0⟩, by and_intros <;> decide +kernel⟩,
   ⟨(({ svc with sys.mode := .blank, boot.rcvBuf := [(0, 9)], boot.flash := [(0x20000, 1), (0x30000, 2)], boot.rcvAddr := 0x20000 } : State)),
     ⟨0, 0⟩, by and_intros <;> decide +kernel⟩,
   ⟨(({ svc with sys.mode := .blank, boot.rcvBuf := [(0, 9)], boot.flash := [(0x20000, 1), (0x30000, 2)], boot.rcvAddr := 0x20000 } : State)),
     ⟨0, 1⟩, 256, true, {}, .recoveryErase ⟨0, 1⟩, by and_intros <;> decide +kernel⟩,
   ⟨((({ svc with sys.mode := .blank, boot.rcvBuf := [(0, 9)], boot.flash := [(0x20000, 1), (0x30000, 2)], boot.rcvAddr := 0x20000 } : State)).modFn ⟨0,
     0⟩ (fun x => { x with mse := false })), ⟨0, 0⟩, 256, true, {}, .recoveryErase ⟨0, 0⟩, by and_intros <;> decide +kernel⟩,
   ⟨(({ svc with sys.mode := .blank, boot.rcvBuf := [(0, 9)], boot.flash := [(0x20000, 1), (0x30000, 2)], boot.rcvAddr := 0x20000 } : State)),
     by and_intros <;> decide +kernel⟩⟩

theorem witness_SmbusCommandsComplete :
    (∃ (s : State) (cmd : Nat), s.sys.aon = true ∧ cmd ≤ 0x87) ∧
    (∃ (s : State) (cmd : Nat), s.sys.aon = true ∧ cmd ≤ 0x87) ∧
    (∃ (s : State) (cmd : Nat), s.sys.aon = true ∧ cmd ≤ 0x87) ∧
    (∃ (s : State) (cmd : Nat), s.sys.aon = true ∧ 0x80 ≤ cmd ∧ cmd ≤ 0x87) ∧
    (∃ (s : State) (cmd : Nat), s.sys.aon = true ∧ 0x80 ≤ cmd ∧ cmd ≤ 0x87) ∧
    (∃ (s : State), s.sys.aon = true) ∧
    (∃ (s : State) (cmd : Nat) (c : _), s.sys.aon = true ∧ 0x87 < cmd ∧ c ∈ [Instr.smbusReadByte cmd, .smbusReadWord cmd,
      .smbusBlockRead cmd]) ∧
    (∃ (s : State) (cmd : Nat) (c : _), s.sys.aon = false ∧ c ∈ [Instr.smbusReadByte cmd, .smbusReadWord cmd, .smbusBlockRead cmd,
      .smbusWrite cmd]) ∧
    (∃ (s : State) (cmd : Nat), s.sys.aon = true ∧ cmd < 0x80) :=
  ⟨⟨svq, 3, by and_intros <;> decide +kernel⟩,
   ⟨svq, 0x87, by and_intros <;> decide +kernel⟩,
   ⟨svq, 0x87, by and_intros <;> decide +kernel⟩,
   ⟨svq, 0x80, by and_intros <;> decide +kernel⟩,
   ⟨svq, 0x87, by and_intros <;> decide +kernel⟩,
   ⟨svq, by and_intros <;> decide +kernel⟩,
   ⟨svq, 0x88, .smbusReadByte 0x88, by and_intros <;> decide +kernel⟩,
   ⟨({ svq with sys.aon := false } : State), 3, .smbusReadByte 3, by and_intros <;> decide +kernel⟩,
   ⟨svq, 3, by and_intros <;> decide +kernel⟩⟩

theorem witness_PowerDomainCommandsComplete :
    (∃ (s : State) (d : Nat) (target : _), s.awake = true ∧ s.sys.mode ≠ .blank ∧ 7 ≤ s.boot.step ∧ 0 < d ∧ (s.dom d).state = 0 ∧
      (s.dom d).phase = 0 ∧ s.wanted d = false ∧ min ((s.boot.cfg.doms.getD d {}).lowest) (s.allowed d) = target ∧ 0 < target ∧
      (∀ u ∈ domUnits d, (s.unitFlt u).state ≠ 2)) ∧
    (∃ (s : State) (d : Nat) (target : _), s.awake = true ∧ s.sys.mode ≠ .blank ∧ 7 ≤ s.boot.step ∧ 0 < d ∧ (s.dom d).state = 0 ∧
      (s.dom d).phase = 0 ∧ s.wanted d = false ∧ min ((s.boot.cfg.doms.getD d {}).lowest) (s.allowed d) = target ∧ 0 < target ∧
      (∀ u ∈ domUnits d, (s.unitFlt u).state ≠ 2)) ∧
    (∃ (s : State) (d : Nat), s.awake = true ∧ (s.dom d).phase = 2 ∧ s.voted d = false ∧ s.unitsBusy d = false ∧ s.emptied d = true) ∧
    (∃ (s : State) (d : Nat), s.awake = true ∧ (s.dom d).phase = 3 ∧ (s.dom d).wakeAfter = false ∧ s.wanted d = false ∧ 8 < d) ∧
    (∃ (s : State) (d : Nat), s.awake = true ∧ (s.dom d).phase = 4 ∧ (s.dom d).state = 2 ∧ (s.dom d).pads = true) ∧
    (∃ (s : State) (d : Nat), s.awake = true ∧ (s.dom d).phase = 4 ∧ (s.dom d).pads = false ∧ (s.dom d).pinWait = []) ∧
    (∃ (s : State) (d : Nat) (o : _), s.awake = true ∧ (s.dom d).phase = 4 ∧ (s.dom d).pads = false ∧ (s.dom d).pinWait = [o]) ∧
    (∃ (s : State) (d : Nat), s.awake = true ∧ (s.dom d).phase = 2 ∧ s.voted d = true) ∧
    (∃ (s : State) (d : Nat), s.awake = true ∧ (s.dom d).phase = 2 ∧ s.voted d = false ∧ s.unitsBusy d = true) ∧
    (∃ (s : State) (d : Nat), s.awake = true ∧ (s.dom d).phase = 2 ∧ s.voted d = false ∧ s.unitsBusy d = false ∧ s.emptied d = false) ∧
    (∃ (s : State) (d : Nat), s.awake = true ∧ (s.dom d).phase ≠ 2) ∧
    (∃ (s : State) (d : Nat), s.awake = true ∧ (s.dom d).phase ≠ 3) ∧
    (∃ (s : State) (d : Nat), s.awake = true ∧ (s.dom d).phase = 3 ∧ (s.dom d).wakeAfter = true ∧ 8 < d ∧ s.boot.step < 7 ∧
      (s.dom d).target ≠ 0 ∧ (domUnits d).all s.fenced = false) ∧
    (∃ (s : State) (d : Nat), s.awake = true ∧ (s.dom d).phase = 3 ∧ 0 < d ∧ d ≤ 8) ∧
    (∃ (s : State) (d : Nat), s.awake = true ∧ (s.dom d).phase = 3 ∧ 0 < d ∧ d ≤ 8) ∧
    (∃ (s : State) (d : Nat), s.awake = true ∧ ((s.dom d).phase ≠ 4 ∨ (s.dom d).state ≠ 2 ∨ (s.dom d).pads = false)) ∧
    (∃ (s : State) (d : Nat), s.awake = true ∧ ((s.dom d).phase ≠ 4 ∨ (s.dom d).pads = true)) ∧
    (∃ (s : State) (d : Nat), s.awake = true ∧ (s.sys.mode = .blank ∨ s.boot.step < 7 ∨ (s.dom d).state ≠ 0 ∨ (s.dom d).phase ≠ 0 ∨
      s.wanted d = true ∨ min ((s.boot.cfg.doms.getD d {}).lowest) (s.allowed d) = 0)) ∧
    (∃ (s : State) (d : Nat), s.awake = true ∧ (s.sys.mode = .blank ∨ s.boot.step < 7 ∨ (s.dom d).state ≠ 0 ∨ (s.dom d).phase ≠ 0 ∨
      s.wanted d = true ∨ min ((s.boot.cfg.doms.getD d {}).lowest) (s.allowed d) = 0)) :=
  ⟨⟨(({ svq with boot.cfg.doms := List.replicate 41 { lowest := 1, linger := 1, slots := [(4, 0), (5, 0)] } } : State).modDom 32 (fun _ => { refused := 3 })),
     32, 1, by and_intros <;> decide +kernel⟩,
   ⟨(({ svq with boot.cfg.doms := List.replicate 41 { lowest := 1, linger := 1, slots := [(4, 0), (5, 0)] } } : State).modDom 32 (fun _ => { refused := 65535 })),
     32, 1, by and_intros <;> decide +kernel⟩,
   ⟨(({ svq with boot.cfg.doms := List.replicate 41 { lowest := 1, linger := 1, slots := [(4, 0), (5, 0)] } } : State).modDom 32 (fun _ => { phase := 2, target := 1 })),
     32, by and_intros <;> decide +kernel⟩,
   ⟨(({ svq with boot.cfg.doms := List.replicate 41 { lowest := 1, linger := 1, slots := [(4, 0), (5, 0)] } } : State).modDom 32 (fun _ => { phase := 3, target := 1 })),
     32, by and_intros <;> decide +kernel⟩,
   ⟨(({ svq with boot.cfg.doms := List.replicate 41 { lowest := 1, linger := 1, slots := [(4, 0), (5, 0)] } } : State).modDom 40 (fun _ => { phase := 4, state := 2, pads := true })),
     40, by and_intros <;> decide +kernel⟩,
   ⟨(({ svq with boot.cfg.doms := List.replicate 41 { lowest := 1, linger := 1, slots := [(4, 0), (5, 0)] } } : State).modDom 9 (fun _ => { phase := 4, state := 1 })),
     9, by and_intros <;> decide +kernel⟩,
   ⟨(({ svq with boot.cfg.doms := List.replicate 41 { lowest := 1, linger := 1, slots := [(4, 0), (5, 0)] } } : State).modDom 9 (fun _ => { phase := 4, state := 1, pinWait := [oa] })),
     9, oa, by and_intros <;> decide +kernel⟩,
   ⟨(({ svq with boot.cfg.doms := List.replicate 41 { lowest := 1, linger := 1, slots := [(4, 0), (5, 0)] } } : State).modDom 32 (fun _ => { phase := 2, target := 1, pins := [0] })),
     32, by and_intros <;> decide +kernel⟩,
   ⟨({ (({ svq with boot.cfg.doms := List.replicate 41 { lowest := 1, linger := 1, slots := [(4, 0), (5, 0)] } } : State).modDom 1 (fun _ => { phase := 2, target := 1 })) with net.outst := [{ unit := cuffUnit 0, tag := 9, ctx := .other, pkt := { req .memRd with initUnit := cuffUnit 0 }, left := 1 }] } : State),
     1, by and_intros <;> decide +kernel⟩,
   ⟨((({ svq with boot.cfg.doms := List.replicate 41 { lowest := 1, linger := 1, slots := [(4, 0), (5, 0)] } } : State).modDom 13 (fun _ => { phase := 2, target := 1 })).modGate 0 (fun x => { x with wcb := [wl] })),
     13, by and_intros <;> decide +kernel⟩,
   ⟨svq, 32, by and_intros <;> decide +kernel⟩,
   ⟨svq, 32, by and_intros <;> decide +kernel⟩,
   ⟨(({ svq with boot.cfg.doms := List.replicate 41 { lowest := 1, linger := 1, slots := [(4, 0), (5, 0)] }, boot.step := 3 } : State).modDom 33 (fun _ => { phase := 3, target := 1, wakeAfter := true })),
     33, by and_intros <;> decide +kernel⟩,
   ⟨(({ svq with boot.cfg.doms := List.replicate 41 { lowest := 1, linger := 1, slots := [(4, 0), (5, 0)] } } : State).modDom 1 (fun _ => { phase := 3, target := 2 })),
     1, by and_intros <;> decide +kernel⟩,
   ⟨(({ svq with boot.cfg.doms := List.replicate 41 { lowest := 1, linger := 1, slots := [(4, 0), (5, 0)] } } : State).modDom 1 (fun _ => { phase := 3, target := 1, wakeAfter := true })),
     1, by and_intros <;> decide +kernel⟩,
   ⟨svq, 32, by and_intros <;> decide +kernel⟩,
   ⟨svq, 32, by and_intros <;> decide +kernel⟩,
   ⟨svq, 32, by and_intros <;> decide +kernel⟩,
   ⟨(({ svq with boot.cfg.doms := List.replicate 41 { lowest := 1, linger := 1, slots := [(4, 0), (5, 0)] } } : State).modDom 32 (fun _ => { refused := 3, pins := [0] })),
     32, by and_intros <;> decide +kernel⟩⟩

theorem witness_DeviceResetCommandsComplete :
    (∃ (s : State) (c : _), s.sys.aon = true ∧ s.sys.devRst = false ∧ c ∈ [Instr.devRstAssert, .powerGoodDeassert]) ∧
    (∃ (s : State) (c : _), s.sys.aon = true ∧ s.sys.devRst = true ∧ c ∈ [Instr.devRstAssert, .powerGoodDeassert]) ∧
    (∃ (s : State), s.sys.aon = false) ∧
    (∃ (s : State), s.sys.aon = true) ∧
    (∃ (s : State) (c : _), s.sys.aon = false ∧ c ∈ [Instr.devRstAssert, .powerGoodDeassert, .vddAonRemoved]) ∧
    (∃ (s : State), s.sys.aon = true) :=
  ⟨⟨svq, .devRstAssert, by and_intros <;> decide +kernel⟩,
   ⟨({ svq with sys.devRst := true } : State), .devRstAssert, by and_intros <;> decide +kernel⟩,
   ⟨({ svq with sys.aon := false } : State), by and_intros <;> decide +kernel⟩,
   ⟨({ svq with sys.thermtrip := true } : State), by and_intros <;> decide +kernel⟩,
   ⟨({ svq with sys.aon := false } : State), .devRstAssert, by and_intros <;> decide +kernel⟩,
   ⟨svq, by and_intros <;> decide +kernel⟩⟩

theorem witness_ColdResetCompletes :
    (∃ (s : State), s.sys.aon = true ∧ s.sys.devRst = true ∧ s.sys.thermtrip = true) ∧
    (∃ (s : State) (b : Board), s.sys.aon = true ∧ s.sys.devRst = true ∧ s.sys.thermtrip = false ∧ b.flashA = false ∧ b.flashB = false) ∧
    (∃ (s : State) (b : Board), s.sys.aon = true ∧ s.sys.devRst = true ∧ s.sys.thermtrip = false ∧ b.ddrFail = [] ∧ b.hbmFail = []) ∧
    (∃ (s : State) (b : Board) (q : _) (pc : _), s.sys.aon = true ∧ s.sys.devRst = true ∧ s.sys.thermtrip = false ∧ b.ddrFail = [] ∧
      b.hbmFail = [(q, pc)] ∧ (pc = 32 ∨ Config.hbmSpares q = 0)) ∧
    (∃ (s : State), (s.sys.aon = false ∨ s.sys.devRst = false)) :=
  ⟨⟨({ State.reset with sys.thermtrip := true } : State), by and_intros <;> decide +kernel⟩,
   ⟨State.reset, { flashA := false, flashB := false }, by and_intros <;> decide +kernel⟩,
   ⟨State.reset, {}, by and_intros <;> decide +kernel⟩,
   ⟨State.reset, { hbmFail := [(1, 32)] }, 1, 32, by and_intros <;> decide +kernel⟩,
   ⟨svq, by and_intros <;> decide +kernel⟩⟩

theorem witness_UsageCommandsComplete :
    (∃ (s : State), s.serves = true) ∧
    (∃ (s : State), s.serves = true) ∧
    (∃ (s : State) (g : _) (u : _), s.serves = true ∧ s.usg.usage = [(g, u)] ∧ u.live = true ∧ s.usg.batches = [] ∧
      1 < s.boot.cfg.batchRecords) ∧
    (∃ (s : State), s.serves = true ∧ s.usg.seqFailed = true) ∧
    (∃ (s : State), s.serves = true ∧ s.usg.seqFailed = true) ∧
    (∃ (s : State), s.serves = true) ∧
    (∃ (s : State) (f : FnId), s.bar0On f = true ∧ f.fn = 0) ∧
    (∃ (s : State) (o : Origin) (glove : Nat), s.serves = true ∧ s.fnExists o.q.fnId = true ∧ o.q.fn = 0 ∧ glove ≠ 0xFFFF ∧
      s.linkHas o.q.link glove = false) ∧
    (∃ (s : State) (o : Origin) (glove : Nat) (buf : Nat), s.serves = true ∧ s.fnExists o.q.fnId = true ∧ o.q.fn = 0 ∧ glove = 0xFFFF ∧
      buf % 64 ≠ 0) ∧
    (∃ (s : State) (o : Origin) (glove : Nat) (buf : Nat) (len : Nat), s.serves = true ∧ s.fnExists o.q.fnId = true ∧ o.q.fn = 0 ∧
      glove = 0xFFFF ∧ buf % 64 = 0 ∧ len % 64 = 0 ∧ 0 < len ∧ len ≤ 2 ^ 20 ∧ s.usg.batches = []) ∧
    (∃ (s : State) (o : Origin) (glove : Nat) (first : Nat) (buf : Nat) (len : Nat) (b : _), s.serves = true ∧
      s.fnExists o.q.fnId = true ∧ o.q.fn = 0 ∧ glove = 0xFFFF ∧ buf % 64 = 0 ∧ len % 64 = 0 ∧ len ≤ 2 ^ 20 ∧ s.usg.batches = [b] ∧
      b.link = o.q.link ∧ b.linkSeq = some first ∧ b.size ≤ len) ∧
    (∃ (s : State), s.serves = false) ∧
    (∃ (s : State), s.serves = false) ∧
    (∃ (s : State), s.serves = false) ∧
    (∃ (s : State) (f : FnId), (s.bar0On f = false ∨ f.fn ≠ 0)) ∧
    (∃ (s : State) (f : FnId), (s.bar0On f = false ∨ f.fn ≠ 0)) ∧
    (∃ (s : State) (o : Origin) (buf : Nat) (len : Nat), s.serves = true ∧ s.fnExists o.q.fnId = true ∧ o.q.fn ≠ 0 ∧
      badBuffer buf len = true) ∧
    (∃ (s : State) (o : Origin) (buf : Nat) (len : Nat), s.serves = true ∧ s.fnExists o.q.fnId = true ∧ o.q.fn ≠ 0 ∧
      badBuffer buf len = false ∧ s.usg.batches = []) ∧
    (∃ (s : State) (o : Origin) (glove : Nat) (first : Nat) (buf : Nat) (len : Nat), s.serves = true ∧ s.fnExists o.q.fnId = true ∧
      (o.q.fn = 0 → glove = 0xFFFF ∨ s.linkHas o.q.link glove = true) ∧ badBuffer buf len = false ∧
      first < (((s.retained o.q.link).head?).bind Batch.linkSeq).getD 0) ∧
    (∃ (s : State) (o : Origin) (glove : Nat) (first : Nat) (buf : Nat) (len : Nat), s.serves = true ∧ s.fnExists o.q.fnId = true ∧
      (o.q.fn = 0 → glove = 0xFFFF ∨ s.linkHas o.q.link glove = true) ∧ badBuffer buf len = false ∧
      first < (((s.retained o.q.link).head?).bind Batch.linkSeq).getD 0) :=
  ⟨⟨({ svq with usg.seq := 5, usg.usage := [(0, { live := true })], sys.now := 9 } : State), by and_intros <;> decide +kernel⟩,
   ⟨({ svq with usg.seq := 5, usg.usage := [(0, { live := true })], sys.now := 9 } : State), by and_intros <;> decide +kernel⟩,
   ⟨({ svq with usg.seq := 5, usg.usage := [(0, { live := true, works := 3 })], sys.now := 9 } : State), 0, { live := true, works := 3 },
     by and_intros <;> decide +kernel⟩,
   ⟨({ svq with usg.seqFailed := true } : State), by and_intros <;> decide +kernel⟩,
   ⟨({ svq with usg.seqFailed := true } : State), by and_intros <;> decide +kernel⟩,
   ⟨({ svq with usg.seq := 5, usg.usage := [(0, { live := true, tierSum := 4 })], sys.now := 9 } : State),
     by and_intros <;> decide +kernel⟩,
   ⟨({ svq with usg.seq := 5, usg.usage := [(0, {})], sys.now := 9 } : State), ⟨0, 0⟩, by and_intros <;> decide +kernel⟩,
   ⟨svq, oa, 8, by and_intros <;> decide +kernel⟩,
   ⟨svq, oa, 0xFFFF, 1, by and_intros <;> decide +kernel⟩,
   ⟨svq, oa, 0xFFFF, 0x1000, 1048576, by and_intros <;> decide +kernel⟩,
   ⟨({ svq with usg.batches := [{ glove := 0, link := 0, tenancy := 1, records := [], closed := true, linkSeq := some 4 }] } : State), oa,
     0xFFFF, 4, 0x1000, 192, { glove := 0, link := 0, tenancy := 1, records := [], closed := true, linkSeq := some 4 },
     by and_intros <;> decide +kernel⟩,
   ⟨State.reset, by and_intros <;> decide +kernel⟩,
   ⟨State.reset, by and_intros <;> decide +kernel⟩,
   ⟨State.reset, by and_intros <;> decide +kernel⟩,
   ⟨svq, ⟨0, 1⟩, by and_intros <;> decide +kernel⟩,
   ⟨State.reset, ⟨0, 0⟩, by and_intros <;> decide +kernel⟩,
   ⟨svq, oc, 1, 64, by and_intros <;> decide +kernel⟩,
   ⟨svq, oc, 0x1000, 64, by and_intros <;> decide +kernel⟩,
   ⟨({ svq with usg.batches := [{ glove := 0, link := 0, tenancy := 1, records := [], closed := true, linkSeq := some 4 }] } : State), oa,
     0xFFFF, 3, 0x1000, 192, by and_intros <;> decide +kernel⟩,
   ⟨({ svq with usg.batches := [{ glove := 0, link := 0, tenancy := 1, records := [], closed := true, linkSeq := some 4 }] } : State), oc,
     7, 3, 0x1000, 192, by and_intros <;> decide +kernel⟩⟩

theorem witness_RegisterWriteCompletes :
    (∃ (s : State) (f : FnId), s.serves = true ∧ s.fnEnabled f = true ∧ (s.fn f).flr = false ∧ (s.fn f).d3 = false ∧ s.memOn f = true ∧
      s.cfgOpen f = true ∧ f.fn = 0) ∧
    (∃ (s : State) (f : FnId), s.serves = true ∧ s.fnEnabled f = true ∧ (s.fn f).flr = false ∧ (s.fn f).d3 = false ∧ s.memOn f = true ∧
      s.cfgOpen f = true ∧ f.fn = 0) ∧
    (∃ (s : State) (f : FnId), s.serves = true ∧ s.fnEnabled f = true ∧ (s.fn f).flr = false ∧ (s.fn f).d3 = false ∧ s.memOn f = true ∧
      s.cfgOpen f = true ∧ f.fn = 0) ∧
    (∃ (s : State) (f : FnId), s.serves = true ∧ s.fnEnabled f = true ∧ (s.fn f).flr = false ∧ (s.fn f).d3 = false ∧ s.memOn f = true ∧
      s.cfgOpen f = true ∧ f.fn = 0) ∧
    (∃ (s : State) (f : FnId) (i : Nat), s.serves = true ∧ s.fnEnabled f = true ∧ (s.fn f).flr = false ∧ (s.fn f).d3 = false ∧
      s.memOn f = true ∧ s.cfgOpen f = true ∧ f.fn = 0 ∧ i < 2048) ∧
    (∃ (s : State) (f : FnId), s.serves = true ∧ s.fnEnabled f = true ∧ (s.fn f).flr = false ∧ (s.fn f).d3 = false ∧ s.memOn f = true ∧
      s.cfgOpen f = true ∧ f.fn = 0) ∧
    (∃ (s : State) (f : FnId), s.serves = true ∧ s.fnEnabled f = true ∧ (s.fn f).flr = false ∧ (s.fn f).d3 = false ∧ s.memOn f = true ∧
      s.cfgOpen f = true) ∧
    (∃ (s : State) (f : FnId), s.serves = true ∧ s.fnEnabled f = true ∧ (s.fn f).flr = false ∧ (s.fn f).d3 = false ∧ s.memOn f = true ∧
      s.cfgOpen f = true) ∧
    (∃ (s : State) (f : FnId), s.serves = true ∧ s.fnEnabled f = true ∧ (s.fn f).flr = false ∧ (s.fn f).d3 = false ∧ s.memOn f = true ∧
      s.cfgOpen f = true) ∧
    (∃ (s : State) (f : FnId), s.serves = true ∧ s.fnEnabled f = true ∧ (s.fn f).flr = false ∧ (s.fn f).d3 = false ∧ s.memOn f = true ∧
      s.cfgOpen f = true) ∧
    (∃ (s : State) (f : FnId), s.serves = true ∧ s.fnEnabled f = true ∧ (s.fn f).flr = false ∧ (s.fn f).d3 = false ∧ s.memOn f = true ∧
      s.cfgOpen f = true) ∧
    (∃ (s : State) (f : FnId), s.cfgOpen f = true ∧ f.fn = 0) ∧
    (∃ (s : State) (f : FnId), s.cfgOpen f = true) ∧
    (∃ (s : State) (f : FnId), s.cfgOpen f = true) ∧
    (∃ (s : State) (f : FnId) (v : Nat), s.cfgOpen f = true ∧ v ∈ [128, 256, 512]) ∧
    (∃ (s : State) (f : FnId) (v : Nat), s.cfgOpen f = true ∧ v ∈ [128, 256, 512]) ∧
    (∃ (s : State) (f : FnId) (v : Nat), s.cfgOpen f = true ∧ v ∈ [128, 256, 512, 1024, 2048, 4096]) ∧
    (∃ (s : State) (f : FnId) (v : Nat), s.cfgOpen f = true ∧ v ∈ [64, 128]) ∧
    (∃ (s : State) (f : FnId) (v : Nat), s.cfgOpen f = true ∧ (v = 8 ∨ v = 10 ∨ (v = 14 ∧ (s.link f.link).flit = true))) ∧
    (∃ (s : State) (f : FnId) (v : Nat), s.cfgOpen f = true ∧ (v = 8 ∨ v = 10 ∨ (v = 14 ∧ (s.link f.link).flit = true))) ∧
    (∃ (s : State) (f : FnId) (v : Nat), s.cfgOpen f = true ∧ (v = 8 ∨ v = 10 ∨ (v = 14 ∧ (s.link f.link).flit = true))) ∧
    (∃ (s : State) (f : FnId) (v : Nat), s.cfgOpen f = true ∧ v ∉ [128, 256, 512]) ∧
    (∃ (s : State) (f : FnId) (v : Nat), s.cfgOpen f = true ∧ v ∉ [128, 256, 512, 1024, 2048, 4096]) ∧
    (∃ (s : State) (f : FnId) (v : Nat), s.cfgOpen f = true ∧ v ∉ [64, 128]) ∧
    (∃ (s : State) (f : FnId), s.cfgOpen f = true) ∧
    (∃ (s : State) (f : FnId), s.cfgOpen f = true) ∧
    (∃ (s : State) (f : FnId), s.cfgOpen f = true) ∧
    (∃ (s : State) (f : FnId), s.cfgOpen f = true) ∧
    (∃ (s : State) (f : FnId), s.cfgOpen f = true) ∧
    (∃ (s : State) (f : FnId), s.cfgOpen f = true) ∧
    (∃ (s : State) (f : FnId), s.cfgOpen f = true ∧ f.fn = 0) ∧
    (∃ (s : State) (f : FnId), s.cfgOpen f = true ∧ f.fn = 0) ∧
    (∃ (s : State) (f : FnId) (b : Option Nat) (i : Nat), s.cfgOpen f = true ∧ f.fn = 0 ∧ (∀ e ∈ (s.link f.link).ide, e.id ≠ i ∧
      e.block ≠ b)) ∧
    (∃ (s : State) (f : FnId) (b : Option Nat) (i : Nat), s.cfgOpen f = true ∧ f.fn = 0 ∧ (∀ e ∈ (s.link f.link).ide, e.id ≠ i ∧
      e.block ≠ b)) ∧
    (∃ (s : State) (f : FnId) (v : Nat), s.cfgOpen f = true ∧ v % 2 = 1) ∧
    (∃ (s : State) (f : FnId), s.cfgOpen f = true) ∧
    (∃ (s : State) (f : FnId), s.cfgOpen f = true) ∧
    (∃ (s : State) (f : FnId), s.memOn f = true) ∧
    (∃ (s : State) (f : FnId), s.memOn f = false) ∧
    (∃ (s : State) (f : FnId), s.cfgOpen f = false) :=
  ⟨⟨svq, ⟨0, 0⟩, by and_intros <;> decide +kernel⟩,
   ⟨svq, ⟨0, 0⟩, by and_intros <;> decide +kernel⟩,
   ⟨svq, ⟨0, 0⟩, by and_intros <;> decide +kernel⟩,
   ⟨svq, ⟨0, 0⟩, by and_intros <;> decide +kernel⟩,
   ⟨svq, ⟨0, 0⟩, 2047, by and_intros <;> decide +kernel⟩,
   ⟨svq, ⟨0, 0⟩, by and_intros <;> decide +kernel⟩,
   ⟨svq, ⟨0, 1⟩, by and_intros <;> decide +kernel⟩,
   ⟨svq, ⟨0, 1⟩, by and_intros <;> decide +kernel⟩,
   ⟨svq, ⟨0, 1⟩, by and_intros <;> decide +kernel⟩,
   ⟨svq, ⟨0, 1⟩, by and_intros <;> decide +kernel⟩,
   ⟨svq, ⟨0, 1⟩, by and_intros <;> decide +kernel⟩,
   ⟨svq, ⟨0, 0⟩, by and_intros <;> decide +kernel⟩,
   ⟨svq, ⟨0, 1⟩, by and_intros <;> decide +kernel⟩,
   ⟨svq, ⟨0, 1⟩, by and_intros <;> decide +kernel⟩,
   ⟨svq, ⟨0, 1⟩, 128, by and_intros <;> decide +kernel⟩,
   ⟨svq, ⟨0, 1⟩, 512, by and_intros <;> decide +kernel⟩,
   ⟨svq, ⟨0, 1⟩, 4096, by and_intros <;> decide +kernel⟩,
   ⟨svq, ⟨0, 1⟩, 128, by and_intros <;> decide +kernel⟩,
   ⟨svq, ⟨0, 1⟩, 8, by and_intros <;> decide +kernel⟩,
   ⟨svq, ⟨0, 1⟩, 10, by and_intros <;> decide +kernel⟩,
   ⟨(svq.modLink 0 (fun x => { x with flit := true })), ⟨0, 1⟩, 14, by and_intros <;> decide +kernel⟩,
   ⟨svq, ⟨0, 1⟩, 1024, by and_intros <;> decide +kernel⟩,
   ⟨svq, ⟨0, 1⟩, 8192, by and_intros <;> decide +kernel⟩,
   ⟨svq, ⟨0, 1⟩, 32, by and_intros <;> decide +kernel⟩,
   ⟨svq, ⟨0, 1⟩, by and_intros <;> decide +kernel⟩,
   ⟨(svq.modFn ⟨0, 1⟩ (fun x => { x with aer := [.badTlp, .malformedTlp], aerHead := some (.badTlp, { kind := .write }) })), ⟨0, 1⟩,
     by and_intros <;> decide +kernel⟩,
   ⟨(svq.modFn ⟨0, 1⟩ (fun x => { x with aer := [.badTlp, .malformedTlp], aerHead := some (.malformedTlp, { kind := .write }) })), ⟨0, 1⟩,
     by and_intros <;> decide +kernel⟩,
   ⟨svq, ⟨0, 1⟩, by and_intros <;> decide +kernel⟩,
   ⟨svq, ⟨0, 1⟩, by and_intros <;> decide +kernel⟩,
   ⟨svq, ⟨0, 1⟩, by and_intros <;> decide +kernel⟩,
   ⟨svq, ⟨0, 0⟩, by and_intros <;> decide +kernel⟩,
   ⟨svq, ⟨0, 0⟩, by and_intros <;> decide +kernel⟩,
   ⟨svq, ⟨0, 0⟩, some 1, 2, by and_intros <;> decide +kernel⟩,
   ⟨(svq.modLink 0 (fun x => { x with ide := [{ id := 5, block := some 1 }] })), ⟨0, 0⟩, none, 2, by and_intros <;> decide +kernel⟩,
   ⟨(svq.modFn ⟨0, 1⟩ (fun x => { x with pmeStatus := true })), ⟨0, 1⟩, 0x3FF, by and_intros <;> decide +kernel⟩,
   ⟨svq, ⟨0, 1⟩, by and_intros <;> decide +kernel⟩,
   ⟨svq, ⟨0, 1⟩, by and_intros <;> decide +kernel⟩,
   ⟨svq, ⟨0, 1⟩, by and_intros <;> decide +kernel⟩,
   ⟨svq, ⟨0, 9⟩, by and_intros <;> decide +kernel⟩,
   ⟨svq, ⟨5, 0⟩, by and_intros <;> decide +kernel⟩⟩

theorem witness_HostSpdmCommandsComplete :
    (∃ (s : State) (l : Nat), s.linkExists l = true ∧ (s.link l).up = true ∧ s.serves = true) ∧
    (∃ (s : State) (l : Nat), s.linkExists l = true ∧ (s.link l).up = true ∧ s.serves = true) ∧
    (∃ (s : State) (l : Nat), s.linkExists l = true ∧ (s.link l).up = true ∧ s.serves = true) ∧
    (∃ (s : State) (l : Nat), s.linkExists l = true ∧ (s.link l).up = true ∧ s.serves = true) ∧
    (∃ (s : State) (l : Nat), s.linkExists l = true ∧ (s.link l).up = true ∧ s.serves = true) ∧
    (∃ (s : State) (l : Nat) (slot : _), s.linkExists l = true ∧ (s.link l).up = true ∧ s.serves = true ∧ slot ≠ 0) ∧
    (∃ (s : State) (l : Nat) (t : _) (h : _), s.linkExists l = true ∧ (s.link l).up = true ∧ s.serves = true ∧ s.noEntropy = false ∧
      s.summary t = some h) ∧
    (∃ (s : State) (l : Nat), s.linkExists l = true ∧ (s.link l).up = true ∧ s.serves = true ∧ s.noEntropy = false) ∧
    (∃ (s : State) (l : Nat) (i : _), s.linkExists l = true ∧ (s.link l).up = true ∧ s.serves = true ∧ s.noEntropy = false ∧ 1 ≤ i ∧
      i ≤ 6) ∧
    (∃ (s : State) (l : Nat), s.linkExists l = true ∧ (s.link l).up = true ∧ s.serves = true ∧ s.noEntropy = false) ∧
    (∃ (s : State) (l : Nat) (t : _) (h : _), s.linkExists l = true ∧ (s.link l).up = true ∧ s.serves = true ∧ s.noEntropy = false ∧
      s.summary t = some h ∧ (s.link l).sessions.length < 4) ∧
    (∃ (s : State) (l : Nat) (t : _) (h : _), s.linkExists l = true ∧ (s.link l).up = true ∧ s.serves = true ∧ s.noEntropy = false ∧
      s.summary t = some h ∧ 4 ≤ (s.link l).sessions.length) ∧
    (∃ (s : State) (l : Nat) (n : Option Nat) (x : _), s.linkExists l = true ∧ (s.link l).up = true ∧ s.serves = true ∧
      (s.link l).sessions = [x] ∧ x.established = false ∧ n = some x.id) ∧
    (∃ (s : State) (l : Nat) (n : Option Nat) (x : _), s.linkExists l = true ∧ (s.link l).up = true ∧ s.serves = true ∧ n = some x ∧
      (∃ y ∈ (s.link l).sessions, y.id = x)) ∧
    (∃ (s : State) (l : Nat), s.linkExists l = true ∧ (s.link l).up = true ∧ s.serves = true) ∧
    (∃ (s : State) (l : Nat), s.linkExists l = true ∧ (s.link l).up = true ∧ s.serves = true) ∧
    (∃ (s : State) (l : Nat), s.linkExists l = true ∧ (s.link l).up = true ∧ s.serves = true) ∧
    (∃ (s : State) (l : Nat), s.linkExists l = true ∧ (s.link l).up = true ∧ s.serves = true) ∧
    (∃ (s : State) (l : Nat) (n : Option Nat) (c : _), s.linkExists l = true ∧ (s.link l).up = true ∧ s.awake = true ∧
      (s.sys.mode = .blank ∨ s.sys.mode = .quarantine) ∧ c ∈ [Instr.getVersion (.host l n), .getDigests (.host l n),
      .getMeasurements (.host l n) 0 false, .keyExchange (.host l n) 0 0 true, .finish (.host l n) 0 true, .ideKmQuery (.host l n),
      .gloveKeyShare (.host l n) 0]) ∧
    (∃ (s : State) (l : Nat) (slot : _) (t : _), s.linkExists l = true ∧ (s.link l).up = true ∧ s.serves = true ∧ (slot ≠ 0 ∨
      s.summary t = none)) ∧
    (∃ (s : State) (l : Nat) (slot : _) (t : _), s.linkExists l = true ∧ (s.link l).up = true ∧ s.serves = true ∧ (slot ≠ 0 ∨
      s.summary t = none)) ∧
    (∃ (s : State) (l : Nat) (i : _), s.linkExists l = true ∧ (s.link l).up = true ∧ s.serves = true ∧ 6 < i ∧ i ≠ 0xFF) ∧
    (∃ (s : State) (l : Nat) (slot : _) (t : _) (p : _), s.linkExists l = true ∧ (s.link l).up = true ∧ s.serves = true ∧ (slot ≠ 0 ∨
      s.summary t = none ∨ p = false)) ∧
    (∃ (s : State) (l : Nat) (slot : _) (t : _) (p : _), s.linkExists l = true ∧ (s.link l).up = true ∧ s.serves = true ∧ (slot ≠ 0 ∨
      s.summary t = none ∨ p = false)) ∧
    (∃ (s : State) (l : Nat) (slot : _) (t : _) (p : _), s.linkExists l = true ∧ (s.link l).up = true ∧ s.serves = true ∧ (slot ≠ 0 ∨
      s.summary t = none ∨ p = false)) ∧
    (∃ (s : State) (l : Nat) (t : _), s.linkExists l = true ∧ (s.link l).up = true ∧ s.serves = true ∧ s.noEntropy = true ∧
      s.summary t ≠ none) ∧
    (∃ (s : State) (l : Nat) (t : _), s.linkExists l = true ∧ (s.link l).up = true ∧ s.serves = true ∧ s.noEntropy = true ∧
      s.summary t ≠ none) ∧
    (∃ (s : State) (l : Nat) (i : _), s.linkExists l = true ∧ (s.link l).up = true ∧ s.serves = true ∧ s.noEntropy = true ∧ (i ≤ 6 ∨
      i = 0xFF)) ∧
    (∃ (s : State) (l : Nat) (i : _), s.linkExists l = true ∧ (s.link l).up = true ∧ s.serves = true ∧ s.noEntropy = true ∧ (i ≤ 6 ∨
      i = 0xFF)) ∧
    (∃ (s : State) (l : Nat) (i : _), s.linkExists l = true ∧ (s.link l).up = true ∧ s.serves = true ∧ s.noEntropy = true ∧ (i ≤ 6 ∨
      i = 0xFF)) ∧
    (∃ (s : State) (l : Nat) (i : _), s.linkExists l = true ∧ (s.link l).up = true ∧ s.serves = true ∧ s.noEntropy = false ∧ 1 ≤ i ∧
      i ≤ 6) ∧
    (∃ (s : State) (l : Nat), s.linkExists l = true ∧ (s.link l).up = true ∧ s.serves = true ∧ s.noEntropy = false) ∧
    (∃ (s : State) (l : Nat) (n : Option Nat) (x : _), s.linkExists l = true ∧ (s.link l).up = true ∧ s.serves = true ∧
      x ∈ (s.link l).sessions ∧ x.established = false ∧ n = some x.id) ∧
    (∃ (s : State) (l : Nat) (n : Option Nat) (x : _) (sig : _), s.linkExists l = true ∧ (s.link l).up = true ∧ s.serves = true ∧
      (sig = false ∨ n ≠ some x ∨ ∀ y ∈ (s.link l).sessions, y.id = x → y.established = true)) ∧
    (∃ (s : State) (l : Nat) (n : Option Nat) (x : _) (sig : _), s.linkExists l = true ∧ (s.link l).up = true ∧ s.serves = true ∧
      (sig = false ∨ n ≠ some x ∨ ∀ y ∈ (s.link l).sessions, y.id = x → y.established = true)) ∧
    (∃ (s : State) (l : Nat) (n : Option Nat) (x : _) (sig : _), s.linkExists l = true ∧ (s.link l).up = true ∧ s.serves = true ∧
      (sig = false ∨ n ≠ some x ∨ ∀ y ∈ (s.link l).sessions, y.id = x → y.established = true)) ∧
    (∃ (s : State) (l : Nat) (n : Option Nat), s.linkExists l = true ∧ (s.link l).up = true ∧ s.serves = true ∧
      (∀ y ∈ (s.link l).sessions, n ≠ some y.id)) ∧
    (∃ (s : State) (l : Nat) (n : Option Nat), s.linkExists l = true ∧ (s.link l).up = true ∧ s.serves = true ∧
      (∀ y ∈ (s.link l).sessions, n ≠ some y.id)) ∧
    (∃ (s : State) (l : Nat), s.linkExists l = true ∧ (s.link l).up = true ∧ s.serves = true) ∧
    (∃ (s : State) (l : Nat), s.linkExists l = true ∧ (s.link l).up = true ∧ s.serves = true) ∧
    (∃ (s : State) (l : Nat), s.linkExists l = true ∧ (s.link l).up = true ∧ s.serves = true) ∧
    (∃ (s : State) (l : Nat), s.linkExists l = true ∧ (s.link l).up = true ∧ s.serves = true) :=
  ⟨⟨({ (svq.modLink 0 (fun x => { x with sessions := [⟨1, true, 5⟩] })) with trust.drbgReady := true } : State), 0,
     by and_intros <;> decide +kernel⟩,
   ⟨({ (svq.modLink 0 (fun x => { x with sessions := [⟨1, true, 5⟩] })) with trust.drbgReady := true } : State), 0,
     by and_intros <;> decide +kernel⟩,
   ⟨({ (svq.modLink 0 (fun x => { x with sessions := [⟨1, true, 5⟩] })) with trust.drbgReady := true } : State), 0,
     by and_intros <;> decide +kernel⟩,
   ⟨({ (svq.modLink 0 (fun x => { x with sessions := [⟨1, true, 5⟩] })) with trust.drbgReady := true } : State), 0,
     by and_intros <;> decide +kernel⟩,
   ⟨({ (svq.modLink 0 (fun x => { x with sessions := [⟨1, true, 5⟩] })) with trust.drbgReady := true } : State), 0,
     by and_intros <;> decide +kernel⟩,
   ⟨({ (svq.modLink 0 (fun x => { x with sessions := [⟨1, true, 5⟩] })) with trust.drbgReady := true } : State), 0, 1,
     by and_intros <;> decide +kernel⟩,
   ⟨({ (svq.modLink 0 (fun x => { x with sessions := [⟨1, true, 5⟩] })) with trust.drbgReady := true } : State), 0, 1,
     some (Config.sha384 (([1, 2, 3] : List Nat).flatMap ((svq.modLink 0 (fun x => { x with sessions := [⟨1, true, 5⟩] }))).block)),
     by and_intros <;> first | decide +kernel | rfl⟩,
   ⟨({ (svq.modLink 0 (fun x => { x with sessions := [⟨1, true, 5⟩] })) with trust.drbgReady := true } : State), 0,
     by and_intros <;> decide +kernel⟩,
   ⟨({ (svq.modLink 0 (fun x => { x with sessions := [⟨1, true, 5⟩] })) with trust.drbgReady := true } : State), 0, 6,
     by and_intros <;> decide +kernel⟩,
   ⟨({ (svq.modLink 0 (fun x => { x with sessions := [⟨1, true, 5⟩] })) with trust.drbgReady := true } : State), 0,
     by and_intros <;> decide +kernel⟩,
   ⟨({ (svq.modLink 0 (fun x => { x with sessions := [⟨1, true, 5⟩] })) with trust.drbgReady := true } : State), 0, 0, none,
     by and_intros <;> decide +kernel⟩,
   ⟨(svq.modLink 0 (fun x => { x with sessions := [⟨1, true, 5⟩, ⟨2, true, 5⟩, ⟨3, true, 5⟩, ⟨4, true, 5⟩] })), 0, 0, none,
     by and_intros <;> decide +kernel⟩,
   ⟨(svq.modLink 0 (fun x => { x with sessions := [⟨1, false, 5⟩] })), 0, some 1, ⟨1, false, 5⟩, by and_intros <;> decide +kernel⟩,
   ⟨({ (svq.modLink 0 (fun x => { x with sessions := [⟨1, true, 5⟩] })) with trust.drbgReady := true } : State), 0, some 1, 1,
     by and_intros <;> decide +kernel⟩,
   ⟨({ (svq.modLink 0 (fun x => { x with sessions := [⟨1, true, 5⟩] })) with trust.drbgReady := true } : State), 0,
     by and_intros <;> decide +kernel⟩,
   ⟨({ (svq.modLink 0 (fun x => { x with sessions := [⟨1, true, 5⟩] })) with trust.drbgReady := true } : State), 0,
     by and_intros <;> decide +kernel⟩,
   ⟨({ (svq.modLink 0 (fun x => { x with sessions := [⟨1, true, 5⟩] })) with trust.drbgReady := true } : State), 0,
     by and_intros <;> decide +kernel⟩,
   ⟨({ (svq.modLink 0 (fun x => { x with sessions := [⟨1, true, 5⟩] })) with trust.drbgReady := true } : State), 0,
     by and_intros <;> decide +kernel⟩,
   ⟨({ svq with sys.mode := .blank } : State), 0, some 1, .getVersion (.host 0 (some 1)), by and_intros <;> decide +kernel⟩,
   ⟨({ (svq.modLink 0 (fun x => { x with sessions := [⟨1, true, 5⟩] })) with trust.drbgReady := true } : State), 0, 1, 0,
     by and_intros <;> decide +kernel⟩,
   ⟨({ (svq.modLink 0 (fun x => { x with sessions := [⟨1, true, 5⟩] })) with trust.drbgReady := true } : State), 0, 0, 2,
     by and_intros <;> decide +kernel⟩,
   ⟨({ (svq.modLink 0 (fun x => { x with sessions := [⟨1, true, 5⟩] })) with trust.drbgReady := true } : State), 0, 7,
     by and_intros <;> decide +kernel⟩,
   ⟨({ (svq.modLink 0 (fun x => { x with sessions := [⟨1, true, 5⟩] })) with trust.drbgReady := true } : State), 0, 1, 0, true,
     by and_intros <;> decide +kernel⟩,
   ⟨({ (svq.modLink 0 (fun x => { x with sessions := [⟨1, true, 5⟩] })) with trust.drbgReady := true } : State), 0, 0, 2, true,
     by and_intros <;> decide +kernel⟩,
   ⟨({ (svq.modLink 0 (fun x => { x with sessions := [⟨1, true, 5⟩] })) with trust.drbgReady := true } : State), 0, 0, 0, false,
     by and_intros <;> decide +kernel⟩,
   ⟨({ (svq.modLink 0 (fun x => { x with sessions := [⟨1, true, 5⟩] })) with trust.drbgReady := false } : State), 0, 0,
     by and_intros <;> decide +kernel⟩,
   ⟨({ (svq.modLink 0 (fun x => { x with sessions := [⟨1, true, 5⟩] })) with trust.drbgReady := false } : State), 0, 0,
     by and_intros <;> decide +kernel⟩,
   ⟨({ (svq.modLink 0 (fun x => { x with sessions := [⟨1, true, 5⟩] })) with trust.drbgReady := false } : State), 0, 0,
     by and_intros <;> decide +kernel⟩,
   ⟨({ (svq.modLink 0 (fun x => { x with sessions := [⟨1, true, 5⟩] })) with trust.drbgReady := false } : State), 0, 255,
     by and_intros <;> decide +kernel⟩,
   ⟨({ (svq.modLink 0 (fun x => { x with sessions := [⟨1, true, 5⟩] })) with trust.drbgReady := false } : State), 0, 3,
     by and_intros <;> decide +kernel⟩,
   ⟨({ (svq.modLink 0 (fun x => { x with sessions := [⟨1, true, 5⟩] })) with trust.drbgReady := true } : State), 0, 3,
     by and_intros <;> decide +kernel⟩,
   ⟨({ (svq.modLink 0 (fun x => { x with sessions := [⟨1, true, 5⟩] })) with trust.drbgReady := true } : State), 0,
     by and_intros <;> decide +kernel⟩,
   ⟨(svq.modLink 0 (fun x => { x with sessions := [⟨1, false, 5⟩, ⟨2, true, 6⟩] })), 0, some 1, ⟨1, false, 5⟩,
     by and_intros <;> decide +kernel⟩,
   ⟨(svq.modLink 0 (fun x => { x with sessions := [⟨1, false, 5⟩, ⟨2, true, 6⟩] })), 0, some 1, 1, false,
     by and_intros <;> decide +kernel⟩,
   ⟨(svq.modLink 0 (fun x => { x with sessions := [⟨1, false, 5⟩, ⟨2, true, 6⟩] })), 0, some 2, 1, true, by and_intros <;> decide +kernel⟩,
   ⟨(svq.modLink 0 (fun x => { x with sessions := [⟨1, false, 5⟩, ⟨2, true, 6⟩] })), 0, some 2, 2, true, by and_intros <;> decide +kernel⟩,
   ⟨({ (svq.modLink 0 (fun x => { x with sessions := [⟨1, true, 5⟩] })) with trust.drbgReady := true } : State), 0, some 4,
     by and_intros <;> decide +kernel⟩,
   ⟨({ (svq.modLink 0 (fun x => { x with sessions := [⟨1, true, 5⟩] })) with trust.drbgReady := true } : State), 0, none,
     by and_intros <;> decide +kernel⟩,
   ⟨({ (svq.modLink 0 (fun x => { x with sessions := [⟨1, true, 5⟩] })) with trust.drbgReady := true } : State), 0,
     by and_intros <;> decide +kernel⟩,
   ⟨({ (svq.modLink 0 (fun x => { x with sessions := [⟨1, true, 5⟩] })) with trust.drbgReady := true } : State), 0,
     by and_intros <;> decide +kernel⟩,
   ⟨({ (svq.modLink 0 (fun x => { x with sessions := [⟨1, true, 5⟩] })) with trust.drbgReady := true } : State), 0,
     by and_intros <;> decide +kernel⟩,
   ⟨({ (svq.modLink 0 (fun x => { x with sessions := [⟨1, true, 5⟩] })) with trust.drbgReady := true } : State), 0,
     by and_intros <;> decide +kernel⟩⟩

theorem witness_PeerSpdmCommandsComplete :
    (∃ (s : State) (l : Nat) (n : Nat) (c : _) (k : _) (m : _) (r : _), s.serves = true ∧ (s.blink l).state = .admitting ∧
      s.peerOf l = n ∧ s.responds l = true ∧ (c, k, m, r) ∈ ([(.getVersion (.border l), 1, 2, .version [0x12]),
      (.getCapabilities (.border l) (capsOf true), 2, 3, .capabilities (capsOf true) 20 4096 4096),
      (.negotiateAlgorithms (.border l) (algsOf true), 3, 4, .algorithms (algsOf true)), (.getDigests (.border l), 4, 5,
      .digests (Config.sha384 s.chain)), (.getEncapsulatedRequest (.border l), 7, 8, .encapsulatedRequest false),
      (.deliverEncapsulatedResponse (.border l) .digests, 8, 9, .encapsulatedRequest true)] : List (Instr × Nat × Nat × Spdm)) ∧
      (s.peer n).spdm = k) ∧
    (∃ (s : State) (l : Nat) (n : Nat), s.serves = true ∧ (s.blink l).state = .admitting ∧ s.peerOf l = n ∧ s.responds l = true ∧
      (s.peer n).spdm = 10 ∧ (s.peer n).chainOk = true) ∧
    (∃ (s : State) (l : Nat) (n : Nat) (r : _) (k : _) (q : _), s.serves = true ∧ (s.blink l).state = .admitting ∧ s.peerOf l = n ∧
      s.responds l = false ∧ (r, k, q) ∈ ([(.version true, 1, 0xE1), (.capabilities (capsOf true), 2, 0xE3), (.algorithms (algsOf true),
      3, 0x81), (.digests, 4, 0x82), (.keyExchangeRsp true true, 6, 0xEA), (.encapsulatedGetDigests, 7, 0xEB),
      (.encapsulatedGetCertificate 0, 8, 0xEB), (.encapsulatedAck, 9, 0xE5)] : List (PeerResponse × Nat × Nat)) ∧ (s.peer n).spdm = k) ∧
    (∃ (s : State) (l : Nat) (n : Nat), s.serves = true ∧ (s.blink l).state = .admitting ∧ s.peerOf l = n ∧ s.responds l = false ∧
      (s.peer n).spdm = 10 ∧ (s.peer n).chainOk = true) ∧
    (∃ (s : State) (l : Nat) (n : Nat), s.serves = true ∧ (s.blink l).state = .admitting ∧ s.peerOf l = n ∧ s.responds l = false) ∧
    (∃ (s : State) (l : Nat) (n : Nat), s.serves = true ∧ (s.blink l).state = .admitting ∧ s.peerOf l = n ∧ s.responds l = true ∧
      (s.peer n).spdm = 6 ∧ s.noEntropy = false) ∧
    (∃ (s : State) (l : Nat) (n : Nat), s.serves = true ∧ (s.blink l).state = .admitting ∧ s.peerOf l = n ∧ s.responds l = true ∧
      (s.peer n).spdm = 9) ∧
    (∃ (s : State) (l : Nat) (n : Nat), s.serves = true ∧ (s.blink l).state = .admitting ∧ s.peerOf l = n ∧ s.responds l = true ∧
      (s.peer n).spdm ≠ 1) ∧
    (∃ (s : State) (l : Nat) (n : Nat), s.serves = true ∧ (s.blink l).state = .admitting ∧ s.peerOf l = n ∧ s.responds l = true ∧
      (s.peer n).spdm ≠ 4) ∧
    (∃ (s : State) (l : Nat) (n : Nat) (ok : _), s.serves = true ∧ (s.blink l).state = .admitting ∧ s.peerOf l = n ∧ s.responds l = true ∧
      ((s.peer n).spdm ≠ 10 ∨ (s.peer n).chainOk = false ∨ ok = false)) ∧
    (∃ (s : State) (l : Nat) (n : Nat) (ok : _), s.serves = true ∧ (s.blink l).state = .admitting ∧ s.peerOf l = n ∧ s.responds l = true ∧
      ((s.peer n).spdm ≠ 10 ∨ (s.peer n).chainOk = false ∨ ok = false)) ∧
    (∃ (s : State) (l : Nat) (n : Nat) (ok : _), s.serves = true ∧ (s.blink l).state = .admitting ∧ s.peerOf l = n ∧ s.responds l = true ∧
      ((s.peer n).spdm ≠ 10 ∨ (s.peer n).chainOk = false ∨ ok = false)) ∧
    (∃ (s : State) (l : Nat) (n : Nat), s.serves = true ∧ (s.blink l).state = .admitting ∧ s.peerOf l = n ∧ s.responds l = false ∧
      (s.peer n).spdm = 5 ∧ s.noEntropy = false) ∧
    (∃ (s : State) (l : Nat) (n : Nat), s.serves = true ∧ (s.blink l).state = .admitting ∧ s.peerOf l = n ∧ s.responds l = false ∧
      ((s.peer n).spdm ≠ 10 ∨ (s.peer n).chainOk = false)) ∧
    (∃ (s : State) (l : Nat) (n : Nat), s.serves = true ∧ (s.blink l).state = .admitting ∧ s.peerOf l = n ∧ s.responds l = false ∧
      ((s.peer n).spdm ≠ 10 ∨ (s.peer n).chainOk = false)) ∧
    (∃ (s : State) (l : Nat) (n : Nat), s.serves = true ∧ (s.blink l).state = .admitting ∧ s.peerOf l = n) ∧
    (∃ (s : State) (l : Nat) (n : Nat), s.serves = true ∧ (s.blink l).state = .admitting ∧ s.peerOf l = n) ∧
    (∃ (s : State) (l : Nat) (n : Nat), s.serves = true ∧ (s.blink l).state = .admitting ∧ s.peerOf l = n) :=
  ⟨⟨(({ svq with basket.peers := [(1, { state := .admitting, spdm := 1, chainOk := true })], boot.cfg.pos := 2, boot.cfg.peers := [some (1, 0), some (1, 1)] } : State).modBlink 0 (fun _ => { state := .admitting })),
     0, 1, .getVersion (.border 0), 1, 2, .version [0x12], by and_intros <;> decide +kernel⟩,
   ⟨(({ svq with basket.peers := [(1, { state := .admitting, spdm := 10, chainOk := true })], boot.cfg.pos := 2, boot.cfg.peers := [some (1, 0), some (1, 1)] } : State).modBlink 0 (fun _ => { state := .admitting })),
     0, 1, by and_intros <;> decide +kernel⟩,
   ⟨(({ svq with basket.peers := [(1, { state := .admitting, spdm := 1, chainOk := true })], boot.cfg.pos := 0, boot.cfg.peers := [some (1, 0), some (1, 1)] } : State).modBlink 0 (fun _ => { state := .admitting })),
     0, 1, .version true, 1, 0xE1, by and_intros <;> decide +kernel⟩,
   ⟨(({ svq with basket.peers := [(1, { state := .admitting, spdm := 10, chainOk := true })], boot.cfg.pos := 0, boot.cfg.peers := [some (1, 0), some (1, 1)] } : State).modBlink 0 (fun _ => { state := .admitting })),
     0, 1, by and_intros <;> decide +kernel⟩,
   ⟨(({ svq with basket.peers := [(1, { state := .admitting, spdm := 3, chainOk := true })], boot.cfg.pos := 0, boot.cfg.peers := [some (1, 0), some (1, 1)] } : State).modBlink 0 (fun _ => { state := .admitting })),
     0, 1, by and_intros <;> decide +kernel⟩,
   ⟨(({ svq with basket.peers := [(1, { state := .admitting, spdm := 6, chainOk := true })], boot.cfg.pos := 2, boot.cfg.peers := [some (1, 0), some (1, 1)] } : State).modBlink 0 (fun _ => { state := .admitting })),
     0, 1, by and_intros <;> decide +kernel⟩,
   ⟨(({ svq with basket.peers := [(1, { state := .admitting, spdm := 9, chainOk := true })], boot.cfg.pos := 2, boot.cfg.peers := [some (1, 0), some (1, 1)] } : State).modBlink 0 (fun _ => { state := .admitting })),
     0, 1, by and_intros <;> decide +kernel⟩,
   ⟨(({ svq with basket.peers := [(1, { state := .admitting, spdm := 4, chainOk := true })], boot.cfg.pos := 2, boot.cfg.peers := [some (1, 0), some (1, 1)] } : State).modBlink 0 (fun _ => { state := .admitting })),
     0, 1, by and_intros <;> decide +kernel⟩,
   ⟨(({ svq with basket.peers := [(1, { state := .admitting, spdm := 5, chainOk := true })], boot.cfg.pos := 2, boot.cfg.peers := [some (1, 0), some (1, 1)] } : State).modBlink 0 (fun _ => { state := .admitting })),
     0, 1, by and_intros <;> decide +kernel⟩,
   ⟨(({ svq with basket.peers := [(1, { state := .admitting, spdm := 9, chainOk := true })], boot.cfg.pos := 2, boot.cfg.peers := [some (1, 0), some (1, 1)] } : State).modBlink 0 (fun _ => { state := .admitting })),
     0, 1, true, by and_intros <;> decide +kernel⟩,
   ⟨(({ svq with basket.peers := [(1, { state := .admitting, spdm := 10, chainOk := false })], boot.cfg.pos := 2, boot.cfg.peers := [some (1, 0), some (1, 1)] } : State).modBlink 0 (fun _ => { state := .admitting })),
     0, 1, true, by and_intros <;> decide +kernel⟩,
   ⟨(({ svq with basket.peers := [(1, { state := .admitting, spdm := 10, chainOk := true })], boot.cfg.pos := 2, boot.cfg.peers := [some (1, 0), some (1, 1)] } : State).modBlink 0 (fun _ => { state := .admitting })),
     0, 1, false, by and_intros <;> decide +kernel⟩,
   ⟨(({ svq with basket.peers := [(1, { state := .admitting, spdm := 5, chainOk := true })], boot.cfg.pos := 0, boot.cfg.peers := [some (1, 0), some (1, 1)] } : State).modBlink 0 (fun _ => { state := .admitting })),
     0, 1, by and_intros <;> decide +kernel⟩,
   ⟨(({ svq with basket.peers := [(1, { state := .admitting, spdm := 9, chainOk := true })], boot.cfg.pos := 0, boot.cfg.peers := [some (1, 0), some (1, 1)] } : State).modBlink 0 (fun _ => { state := .admitting })),
     0, 1, by and_intros <;> decide +kernel⟩,
   ⟨(({ svq with basket.peers := [(1, { state := .admitting, spdm := 10, chainOk := false })], boot.cfg.pos := 0, boot.cfg.peers := [some (1, 0), some (1, 1)] } : State).modBlink 0 (fun _ => { state := .admitting })),
     0, 1, by and_intros <;> decide +kernel⟩,
   ⟨(({ svq with basket.peers := [(1, { state := .admitting, spdm := 4, chainOk := true })], boot.cfg.pos := 2, boot.cfg.peers := [some (1, 0), some (1, 1)] } : State).modBlink 0 (fun _ => { state := .admitting })),
     0, 1, by and_intros <;> decide +kernel⟩,
   ⟨(({ svq with basket.peers := [(1, { state := .admitting, spdm := 4, chainOk := true })], boot.cfg.pos := 2, boot.cfg.peers := [some (1, 0), some (1, 1)] } : State).modBlink 0 (fun _ => { state := .admitting })),
     0, 1, by and_intros <;> decide +kernel⟩,
   ⟨(({ svq with basket.peers := [(1, { state := .admitting, spdm := 4, chainOk := true })], boot.cfg.pos := 2, boot.cfg.peers := [some (1, 0), some (1, 1)] } : State).modBlink 0 (fun _ => { state := .admitting })),
     0, 1, by and_intros <;> decide +kernel⟩⟩

theorem witness_IdeAndTdispCommandsComplete :
    (∃ (s : State) (l : Nat) (k : Nat), s.serves = true ∧ s.linkExists l = true ∧ (s.link l).up = true ∧ s.inSession l (some k) = true) ∧
    (∃ (s : State) (l : Nat) (k : Nat) (i : _), s.serves = true ∧ s.linkExists l = true ∧ (s.link l).up = true ∧
      s.inSession l (some k) = true ∧ (s.link l).ide = [i]) ∧
    (∃ (s : State) (l : Nat) (k : Nat) (i : _) (ks : _), s.serves = true ∧ s.linkExists l = true ∧ (s.link l).up = true ∧
      s.inSession l (some k) = true ∧ (s.link l).ide = [i] ∧ (∀ d < 2, ∀ b < 3, ∃ x ∈ i.keys, x.1 = ⟨ks, d, b⟩)) ∧
    (∃ (s : State) (l : Nat) (k : Nat) (i : _) (ks : _), s.serves = true ∧ s.linkExists l = true ∧ (s.link l).up = true ∧
      s.inSession l (some k) = true ∧ (s.link l).ide = [i] ∧ i.active = some ks) ∧
    (∃ (s : State) (l : Nat) (k : Nat) (vf : Nat) (c : _), s.serves = true ∧ s.linkExists l = true ∧ (s.link l).up = true ∧
      s.inSession l (some k) = true ∧ c ∈ [Instr.bindP2pStreamRequest (.host l (some k)) vf,
      .unbindP2pStreamRequest (.host l (some k)) vf, .setMmioAttributeRequest (.host l (some k)) vf]) ∧
    (∃ (s : State) (l : Nat) (k : Nat) (vf : Nat), s.serves = true ∧ s.linkExists l = true ∧ (s.link l).up = true ∧
      s.inSession l (some k) = true ∧ 0 < vf ∧ s.fnEnabled ⟨l, vf⟩ = true) ∧
    (∃ (s : State) (l : Nat) (k : Nat) (vf : Nat), s.serves = true ∧ s.linkExists l = true ∧ (s.link l).up = true ∧
      s.inSession l (some k) = true ∧ 0 < vf ∧ s.fnEnabled ⟨l, vf⟩ = true) ∧
    (∃ (s : State) (l : Nat) (k : Nat) (vf : Nat), s.serves = true ∧ s.linkExists l = true ∧ (s.link l).up = true ∧
      s.inSession l (some k) = true ∧ 0 < vf ∧ s.fnEnabled ⟨l, vf⟩ = true) ∧
    (∃ (s : State) (l : Nat) (k : Nat) (vf : Nat) (m : _), s.serves = true ∧ s.linkExists l = true ∧ (s.link l).up = true ∧
      s.inSession l (some k) = true ∧ 0 < vf ∧ s.fnEnabled ⟨l, vf⟩ = true ∧ s.tdiStream l vf = some m ∧ (s.glove (s.gloveOf ⟨l,
      vf⟩)).tdi = .unlocked ∧ ((s.glove (s.gloveOf ⟨l, vf⟩)).state = .keyPending ∨ (s.glove (s.gloveOf ⟨l, vf⟩)).state = .opened) ∧
      (s.glove (s.gloveOf ⟨l, vf⟩)).tdisp = true ∧ s.noEntropy = false) ∧
    (∃ (s : State) (l : Nat) (k : Nat) (vf : Nat), s.serves = true ∧ s.linkExists l = true ∧ (s.link l).up = true ∧
      s.inSession l (some k) = true ∧ 0 < vf ∧ s.fnEnabled ⟨l, vf⟩ = true) ∧
    (∃ (s : State) (l : Nat) (k : Nat) (vf : Nat), s.serves = true ∧ s.linkExists l = true ∧ (s.link l).up = true ∧
      s.inSession l (some k) = true ∧ 0 < vf ∧ s.fnEnabled ⟨l, vf⟩ = true) ∧
    (∃ (s : State) (l : Nat) (k : Nat) (vf : Nat) (nonce : _), s.serves = true ∧ s.linkExists l = true ∧ (s.link l).up = true ∧
      s.inSession l (some k) = true ∧ 0 < vf ∧ s.fnEnabled ⟨l, vf⟩ = true ∧ (s.glove (s.gloveOf ⟨l, vf⟩)).tdi = .locked ∧
      (s.glove (s.gloveOf ⟨l, vf⟩)).state = .opened ∧ nonce = (s.glove (s.gloveOf ⟨l, vf⟩)).nonce) ∧
    (∃ (s : State) (l : Nat) (k : Nat) (vf : Nat) (nonce : _), s.serves = true ∧ s.linkExists l = true ∧ (s.link l).up = true ∧
      s.inSession l (some k) = true ∧ 0 < vf ∧ s.fnEnabled ⟨l, vf⟩ = true ∧ (s.glove (s.gloveOf ⟨l, vf⟩)).tdi = .locked ∧
      (s.glove (s.gloveOf ⟨l, vf⟩)).state = .opened ∧ nonce ≠ (s.glove (s.gloveOf ⟨l, vf⟩)).nonce) ∧
    (∃ (s : State) (l : Nat) (k : Nat) (vf : Nat), s.serves = true ∧ s.linkExists l = true ∧ (s.link l).up = true ∧
      s.inSession l (some k) = true ∧ 0 < vf ∧ s.fnEnabled ⟨l, vf⟩ = true ∧ (s.glove (s.gloveOf ⟨l, vf⟩)).tdi ≠ .unlocked) ∧
    (∃ (s : State) (l : Nat) (k : Nat) (id : Nat) (mode : IdeMode), s.serves = true ∧ s.linkExists l = true ∧ (s.link l).up = true ∧
      s.inSession l (some k) = true ∧ ((mode.aes256gcm && mode.flit && !mode.aggregation && !mode.pcrc) = false ∨ ∀ i ∈ (s.link l).ide,
      i.id ≠ id)) ∧
    (∃ (s : State) (l : Nat) (k : Nat) (id : Nat) (mode : IdeMode), s.serves = true ∧ s.linkExists l = true ∧ (s.link l).up = true ∧
      s.inSession l (some k) = true ∧ ((mode.aes256gcm && mode.flit && !mode.aggregation && !mode.pcrc) = false ∨ ∀ i ∈ (s.link l).ide,
      i.id ≠ id)) ∧
    (∃ (s : State) (l : Nat) (k : Nat) (id : Nat) (mode : IdeMode), s.serves = true ∧ s.linkExists l = true ∧ (s.link l).up = true ∧
      s.inSession l (some k) = true ∧ ((mode.aes256gcm && mode.flit && !mode.aggregation && !mode.pcrc) = false ∨ ∀ i ∈ (s.link l).ide,
      i.id ≠ id)) ∧
    (∃ (s : State) (l : Nat) (k : Nat), s.serves = true ∧ s.linkExists l = true ∧ (s.link l).up = true ∧ s.inSession l (some k) = true) ∧
    (∃ (s : State) (l : Nat) (k : Nat), s.serves = true ∧ s.linkExists l = true ∧ (s.link l).up = true ∧ s.inSession l (some k) = true) ∧
    (∃ (s : State) (l : Nat) (k : Nat), s.serves = true ∧ s.linkExists l = true ∧ (s.link l).up = true ∧ s.inSession l (some k) = true) ∧
    (∃ (s : State) (l : Nat) (k : Nat), s.serves = true ∧ s.linkExists l = true ∧ (s.link l).up = true ∧ s.inSession l (some k) = true) ∧
    (∃ (s : State) (l : Nat) (k : Nat), s.serves = true ∧ s.linkExists l = true ∧ (s.link l).up = true ∧ s.inSession l (some k) = true) ∧
    (∃ (s : State) (l : Nat) (k : Nat) (vf : Nat) (nonce : _) (c : _), s.serves = true ∧ s.linkExists l = true ∧ (s.link l).up = true ∧
      s.inSession l (some k) = true ∧ (vf = 0 ∨ s.fnEnabled ⟨l, vf⟩ = false) ∧ c ∈ [Instr.getTdispVersion (.host l (some k)) vf,
      .getTdispCapabilities (.host l (some k)) vf, .getDeviceInterfaceState (.host l (some k)) vf,
      .lockInterfaceRequest (.host l (some k)) vf, .getDeviceInterfaceReport (.host l (some k)) vf,
      .startInterfaceRequest (.host l (some k)) vf nonce, .stopInterfaceRequest (.host l (some k)) vf]) ∧
    (∃ (s : State) (l : Nat) (k : Nat) (vf : Nat), s.serves = true ∧ s.linkExists l = true ∧ (s.link l).up = true ∧
      s.inSession l (some k) = true ∧ 0 < vf ∧ s.fnEnabled ⟨l, vf⟩ = true ∧ (s.tdiStream l vf = none ∨ (s.glove (s.gloveOf ⟨l,
      vf⟩)).tdi ≠ .unlocked ∨ (s.glove (s.gloveOf ⟨l, vf⟩)).tdisp = false)) ∧
    (∃ (s : State) (l : Nat) (k : Nat) (vf : Nat), s.serves = true ∧ s.linkExists l = true ∧ (s.link l).up = true ∧
      s.inSession l (some k) = true ∧ 0 < vf ∧ s.fnEnabled ⟨l, vf⟩ = true ∧ (s.tdiStream l vf = none ∨ (s.glove (s.gloveOf ⟨l,
      vf⟩)).tdi ≠ .unlocked ∨ (s.glove (s.gloveOf ⟨l, vf⟩)).tdisp = false)) ∧
    (∃ (s : State) (l : Nat) (k : Nat) (vf : Nat), s.serves = true ∧ s.linkExists l = true ∧ (s.link l).up = true ∧
      s.inSession l (some k) = true ∧ 0 < vf ∧ s.fnEnabled ⟨l, vf⟩ = true ∧ (s.tdiStream l vf = none ∨ (s.glove (s.gloveOf ⟨l,
      vf⟩)).tdi ≠ .unlocked ∨ (s.glove (s.gloveOf ⟨l, vf⟩)).tdisp = false)) ∧
    (∃ (s : State) (l : Nat) (k : Nat) (vf : Nat), s.serves = true ∧ s.linkExists l = true ∧ (s.link l).up = true ∧
      s.inSession l (some k) = true ∧ 0 < vf ∧ s.fnEnabled ⟨l, vf⟩ = true ∧ (s.glove (s.gloveOf ⟨l, vf⟩)).tdi = .unlocked) ∧
    (∃ (s : State) (l : Nat) (k : Nat) (vf : Nat), s.serves = true ∧ s.linkExists l = true ∧ (s.link l).up = true ∧
      s.inSession l (some k) = true ∧ 0 < vf ∧ s.fnEnabled ⟨l, vf⟩ = true ∧ ((s.glove (s.gloveOf ⟨l, vf⟩)).tdi ≠ .locked ∨
      (s.glove (s.gloveOf ⟨l, vf⟩)).state ≠ .opened)) ∧
    (∃ (s : State) (l : Nat) (k : Nat) (vf : Nat), s.serves = true ∧ s.linkExists l = true ∧ (s.link l).up = true ∧
      s.inSession l (some k) = true ∧ 0 < vf ∧ s.fnEnabled ⟨l, vf⟩ = true ∧ ((s.glove (s.gloveOf ⟨l, vf⟩)).tdi ≠ .locked ∨
      (s.glove (s.gloveOf ⟨l, vf⟩)).state ≠ .opened)) ∧
    (∃ (s : State) (l : Nat) (k : Nat) (vf : Nat) (m : _), s.serves = true ∧ s.linkExists l = true ∧ (s.link l).up = true ∧
      s.inSession l (some k) = true ∧ 0 < vf ∧ s.fnEnabled ⟨l, vf⟩ = true ∧ s.tdiStream l vf = some m ∧ (s.glove (s.gloveOf ⟨l,
      vf⟩)).tdi = .unlocked ∧ ((s.glove (s.gloveOf ⟨l, vf⟩)).state = .keyPending ∨ (s.glove (s.gloveOf ⟨l, vf⟩)).state = .opened) ∧
      (s.glove (s.gloveOf ⟨l, vf⟩)).tdisp = true ∧ s.noEntropy = true) ∧
    (∃ (s : State) (l : Nat) (k : Nat) (vf : Nat) (n : _) (nonce : _) (stream : _) (slot : _) (mode : IdeMode) (key : _) (ks : _) (c : _),
      s.serves = true ∧ s.linkExists l = true ∧ (s.link l).up = true ∧ s.inSession l (some k) = true ∧ s.inSession l n = false ∧
      c ∈ [Instr.ideKmQuery (.host l n), .ideKmKeyProg (.host l n) stream slot mode key, .ideKmKSetGo (.host l n) stream ks,
      .ideKmKSetStop (.host l n) stream ks, .getTdispVersion (.host l n) vf, .getTdispCapabilities (.host l n) vf,
      .getDeviceInterfaceState (.host l n) vf, .lockInterfaceRequest (.host l n) vf, .getDeviceInterfaceReport (.host l n) vf,
      .startInterfaceRequest (.host l n) vf nonce, .stopInterfaceRequest (.host l n) vf, .bindP2pStreamRequest (.host l n) vf,
      .unbindP2pStreamRequest (.host l n) vf, .setMmioAttributeRequest (.host l n) vf]) :=
  ⟨⟨(svq.modLink 0 (fun x => { x with sessions := [⟨1, true, 5⟩], ide := [{ id := 4 }] })), 0, 1, by and_intros <;> decide +kernel⟩,
   ⟨(svq.modLink 0 (fun x => { x with sessions := [⟨1, true, 5⟩], ide := [{ id := 4 }] })), 0, 1, { id := 4 },
     by and_intros <;> decide +kernel⟩,
   ⟨(svq.modLink 0 (fun x => { x with sessions := [⟨1, true, 5⟩], ide := [{ id := 4, keys := [(⟨1, 0, 0⟩, 5), (⟨1, 0, 1⟩, 5), (⟨1, 0, 2⟩, 5), (⟨1, 1, 0⟩, 5), (⟨1, 1, 1⟩, 5), (⟨1, 1, 2⟩, 5)] }] })),
     0, 1, { id := 4, keys := [(⟨1, 0, 0⟩, 5), (⟨1, 0, 1⟩, 5), (⟨1, 0, 2⟩, 5), (⟨1, 1, 0⟩, 5), (⟨1, 1, 1⟩, 5), (⟨1, 1, 2⟩, 5)] }, 1,
     by and_intros <;> decide +kernel⟩,
   ⟨(svq.modLink 0 (fun x => { x with sessions := [⟨1, true, 5⟩], ide := [{ id := 4, secure := true, active := some 1, keys := [(⟨1, 0, 0⟩, 5), (⟨1, 0, 1⟩, 5), (⟨1, 0, 2⟩, 5), (⟨1, 1, 0⟩, 5), (⟨1, 1, 1⟩, 5), (⟨1, 1, 2⟩, 5)] }] })),
     0, 1,
     { id := 4, secure := true, active := some 1, keys := [(⟨1, 0, 0⟩, 5), (⟨1, 0, 1⟩, 5), (⟨1, 0, 2⟩, 5), (⟨1, 1, 0⟩, 5), (⟨1, 1, 1⟩, 5), (⟨1, 1, 2⟩, 5)] },
     1, by and_intros <;> decide +kernel⟩,
   ⟨(svq.modLink 0 (fun x => { x with sessions := [⟨1, true, 5⟩], ide := [{ id := 4 }] })), 0, 1, 1,
     .bindP2pStreamRequest (.host 0 (some 1)) 1, by and_intros <;> decide +kernel⟩,
   ⟨(svq.modLink 0 (fun x => { x with sessions := [⟨1, true, 5⟩], ide := [{ id := 4, secure := true, active := some 1, keys := [(⟨1, 0, 0⟩, 5), (⟨1, 0, 1⟩, 5), (⟨1, 0, 2⟩, 5), (⟨1, 1, 0⟩, 5), (⟨1, 1, 1⟩, 5), (⟨1, 1, 2⟩, 5)] }] })),
     0, 1, 1, by and_intros <;> decide +kernel⟩,
   ⟨(svq.modLink 0 (fun x => { x with sessions := [⟨1, true, 5⟩], ide := [{ id := 4, secure := true, active := some 1, keys := [(⟨1, 0, 0⟩, 5), (⟨1, 0, 1⟩, 5), (⟨1, 0, 2⟩, 5), (⟨1, 1, 0⟩, 5), (⟨1, 1, 1⟩, 5), (⟨1, 1, 2⟩, 5)] }] })),
     0, 1, 1, by and_intros <;> decide +kernel⟩,
   ⟨(svq.modLink 0 (fun x => { x with sessions := [⟨1, true, 5⟩], ide := [{ id := 4, secure := true, active := some 1, keys := [(⟨1, 0, 0⟩, 5), (⟨1, 0, 1⟩, 5), (⟨1, 0, 2⟩, 5), (⟨1, 1, 0⟩, 5), (⟨1, 1, 1⟩, 5), (⟨1, 1, 2⟩, 5)] }] })),
     0, 1, 1, by and_intros <;> decide +kernel⟩,
   ⟨((svq.modLink 0 (fun x => { x with sessions := [⟨1, true, 5⟩], ide := [{ id := 4, secure := true, active := some 1, keys := [(⟨1, 0, 0⟩, 5), (⟨1, 0, 1⟩, 5), (⟨1, 0, 2⟩, 5), (⟨1, 1, 0⟩, 5), (⟨1, 1, 1⟩, 5), (⟨1, 1, 2⟩, 5)] }] })).modGlove 0 (fun x => { x with tdisp := true })),
     0, 1, 1, 4, by and_intros <;> decide +kernel⟩,
   ⟨(svq.modLink 0 (fun x => { x with sessions := [⟨1, true, 5⟩], ide := [{ id := 4, secure := true, active := some 1, keys := [(⟨1, 0, 0⟩, 5), (⟨1, 0, 1⟩, 5), (⟨1, 0, 2⟩, 5), (⟨1, 1, 0⟩, 5), (⟨1, 1, 1⟩, 5), (⟨1, 1, 2⟩, 5)] }] })),
     0, 1, 1, by and_intros <;> decide +kernel⟩,
   ⟨((svq.modLink 0 (fun x => { x with sessions := [⟨1, true, 5⟩], ide := [{ id := 4, secure := true, active := some 1, keys := [(⟨1, 0, 0⟩, 5), (⟨1, 0, 1⟩, 5), (⟨1, 0, 2⟩, 5), (⟨1, 1, 0⟩, 5), (⟨1, 1, 1⟩, 5), (⟨1, 1, 2⟩, 5), (⟨0, 1, 2⟩, 5)] }] })).modGlove 0 (fun x => { x with tdi := .run })),
     0, 1, 1, by and_intros <;> decide +kernel⟩,
   ⟨((svq.modLink 0 (fun x => { x with sessions := [⟨1, true, 5⟩], ide := [{ id := 4, secure := true, active := some 1, keys := [(⟨1, 0, 0⟩, 5), (⟨1, 0, 1⟩, 5), (⟨1, 0, 2⟩, 5), (⟨1, 1, 0⟩, 5), (⟨1, 1, 1⟩, 5), (⟨1, 1, 2⟩, 5)] }] })).modGlove 0 (fun x => { x with tdi := .locked, nonce := 9 })),
     0, 1, 1, 9, by and_intros <;> decide +kernel⟩,
   ⟨((svq.modLink 0 (fun x => { x with sessions := [⟨1, true, 5⟩], ide := [{ id := 4, secure := true, active := some 1, keys := [(⟨1, 0, 0⟩, 5), (⟨1, 0, 1⟩, 5), (⟨1, 0, 2⟩, 5), (⟨1, 1, 0⟩, 5), (⟨1, 1, 1⟩, 5), (⟨1, 1, 2⟩, 5)] }] })).modGlove 0 (fun x => { x with tdi := .locked, nonce := 9 })),
     0, 1, 1, 8, by and_intros <;> decide +kernel⟩,
   ⟨((svq.modLink 0 (fun x => { x with sessions := [⟨1, true, 5⟩], ide := [{ id := 4, secure := true, active := some 1, keys := [(⟨1, 0, 0⟩, 5), (⟨1, 0, 1⟩, 5), (⟨1, 0, 2⟩, 5), (⟨1, 1, 0⟩, 5), (⟨1, 1, 1⟩, 5), (⟨1, 1, 2⟩, 5)] }] })).modGlove 0 (fun x => { x with tdi := .error })),
     0, 1, 1, by and_intros <;> decide +kernel⟩,
   ⟨(svq.modLink 0 (fun x => { x with sessions := [⟨1, true, 5⟩], ide := [{ id := 4, secure := true, active := some 1, keys := [(⟨1, 0, 0⟩, 5), (⟨1, 0, 1⟩, 5), (⟨1, 0, 2⟩, 5), (⟨1, 1, 0⟩, 5), (⟨1, 1, 1⟩, 5), (⟨1, 1, 2⟩, 5)] }] })),
     0, 1, 4, ⟨true, true, true, false⟩, by and_intros <;> decide +kernel⟩,
   ⟨(svq.modLink 0 (fun x => { x with sessions := [⟨1, true, 5⟩], ide := [{ id := 4, secure := true, active := some 1, keys := [(⟨1, 0, 0⟩, 5), (⟨1, 0, 1⟩, 5), (⟨1, 0, 2⟩, 5), (⟨1, 1, 0⟩, 5), (⟨1, 1, 1⟩, 5), (⟨1, 1, 2⟩, 5)] }] })),
     0, 1, 5, ⟨true, true, false, false⟩, by and_intros <;> decide +kernel⟩,
   ⟨(svq.modLink 0 (fun x => { x with sessions := [⟨1, true, 5⟩], ide := [{ id := 4, secure := true, active := some 1, keys := [(⟨1, 0, 0⟩, 5), (⟨1, 0, 1⟩, 5), (⟨1, 0, 2⟩, 5), (⟨1, 1, 0⟩, 5), (⟨1, 1, 1⟩, 5), (⟨1, 1, 2⟩, 5)] }] })),
     0, 1, 4, ⟨false, true, false, false⟩, by and_intros <;> decide +kernel⟩,
   ⟨(svq.modLink 0 (fun x => { x with sessions := [⟨1, true, 5⟩], ide := [{ id := 4, keys := [(⟨1, 0, 0⟩, 5), (⟨1, 0, 1⟩, 5), (⟨1, 0, 2⟩, 5), (⟨1, 1, 0⟩, 5), (⟨1, 1, 1⟩, 5), (⟨1, 1, 2⟩, 5), (⟨0, 1, 2⟩, 5)] }] })),
     0, 1, by and_intros <;> decide +kernel⟩,
   ⟨(svq.modLink 0 (fun x => { x with sessions := [⟨1, true, 5⟩], ide := [{ id := 4 }] })), 0, 1, by and_intros <;> decide +kernel⟩,
   ⟨(svq.modLink 0 (fun x => { x with sessions := [⟨1, true, 5⟩], ide := [{ id := 4, secure := true, active := some 1, keys := [(⟨1, 0, 0⟩, 5), (⟨1, 0, 1⟩, 5), (⟨1, 0, 2⟩, 5), (⟨1, 1, 0⟩, 5), (⟨1, 1, 1⟩, 5), (⟨1, 1, 2⟩, 5)] }] })),
     0, 1, by and_intros <;> decide +kernel⟩,
   ⟨(svq.modLink 0 (fun x => { x with sessions := [⟨1, true, 5⟩], ide := [{ id := 4, secure := true, active := some 1, keys := [(⟨1, 0, 0⟩, 5), (⟨1, 0, 1⟩, 5), (⟨1, 0, 2⟩, 5), (⟨1, 1, 0⟩, 5), (⟨1, 1, 1⟩, 5), (⟨1, 1, 2⟩, 5)] }] })),
     0, 1, by and_intros <;> decide +kernel⟩,
   ⟨(svq.modLink 0 (fun x => { x with sessions := [⟨1, true, 5⟩], ide := [{ id := 4, secure := true, active := some 1, keys := [(⟨1, 0, 0⟩, 5), (⟨1, 0, 1⟩, 5), (⟨1, 0, 2⟩, 5), (⟨1, 1, 0⟩, 5), (⟨1, 1, 1⟩, 5), (⟨1, 1, 2⟩, 5)] }] })),
     0, 1, by and_intros <;> decide +kernel⟩,
   ⟨(svq.modLink 0 (fun x => { x with sessions := [⟨1, true, 5⟩], ide := [{ id := 4, secure := true, active := some 1, keys := [(⟨1, 0, 0⟩, 5), (⟨1, 0, 1⟩, 5), (⟨1, 0, 2⟩, 5), (⟨1, 1, 0⟩, 5), (⟨1, 1, 1⟩, 5), (⟨1, 1, 2⟩, 5)] }] })),
     0, 1, 0, 3, .getTdispVersion (.host 0 (some 1)) 0, by and_intros <;> decide +kernel⟩,
   ⟨((svq.modLink 0 (fun x => { x with sessions := [⟨1, true, 5⟩], ide := [{ id := 4, secure := true, active := some 1, keys := [(⟨1, 0, 0⟩, 5), (⟨1, 0, 1⟩, 5), (⟨1, 0, 2⟩, 5), (⟨1, 1, 0⟩, 5), (⟨1, 1, 1⟩, 5), (⟨1, 1, 2⟩, 5), (⟨0, 1, 2⟩, 5)] }] })).modGlove 0 (fun x => { x with tdi := .locked, tdisp := true })),
     0, 1, 1, by and_intros <;> decide +kernel⟩,
   ⟨((svq.modLink 0 (fun x => { x with sessions := [⟨1, true, 5⟩], ide := [{ id := 4, secure := true, active := some 1, keys := [(⟨1, 0, 0⟩, 5), (⟨1, 0, 1⟩, 5), (⟨1, 0, 2⟩, 5), (⟨1, 1, 0⟩, 5), (⟨1, 1, 1⟩, 5), (⟨1, 1, 2⟩, 5), (⟨0, 1, 2⟩, 5)] }] })).modGlove 0 (fun x => { x with tdisp := false })),
     0, 1, 1, by and_intros <;> decide +kernel⟩,
   ⟨(svq.modLink 0 (fun x => { x with sessions := [⟨1, true, 5⟩] })), 0, 1, 1, by and_intros <;> decide +kernel⟩,
   ⟨(svq.modLink 0 (fun x => { x with sessions := [⟨1, true, 5⟩], ide := [{ id := 4, secure := true, active := some 1, keys := [(⟨1, 0, 0⟩, 5), (⟨1, 0, 1⟩, 5), (⟨1, 0, 2⟩, 5), (⟨1, 1, 0⟩, 5), (⟨1, 1, 1⟩, 5), (⟨1, 1, 2⟩, 5)] }] })),
     0, 1, 1, by and_intros <;> decide +kernel⟩,
   ⟨((svq.modLink 0 (fun x => { x with sessions := [⟨1, true, 5⟩], ide := [{ id := 4, secure := true, active := some 1, keys := [(⟨1, 0, 0⟩, 5), (⟨1, 0, 1⟩, 5), (⟨1, 0, 2⟩, 5), (⟨1, 1, 0⟩, 5), (⟨1, 1, 1⟩, 5), (⟨1, 1, 2⟩, 5), (⟨0, 1, 2⟩, 5)] }] })).modGlove 0 (fun x => { x with tdi := .run })),
     0, 1, 1, by and_intros <;> decide +kernel⟩,
   ⟨((svq.modLink 0 (fun x => { x with sessions := [⟨1, true, 5⟩], ide := [{ id := 4, secure := true, active := some 1, keys := [(⟨1, 0, 0⟩, 5), (⟨1, 0, 1⟩, 5), (⟨1, 0, 2⟩, 5), (⟨1, 1, 0⟩, 5), (⟨1, 1, 1⟩, 5), (⟨1, 1, 2⟩, 5), (⟨0, 1, 2⟩, 5)] }] })).modGlove 0 (fun x => { x with tdi := .locked, state := .keyPending, nonce := 3 })),
     0, 1, 1, by and_intros <;> decide +kernel⟩,
   ⟨({ ((svq.modLink 0 (fun x => { x with sessions := [⟨1, true, 5⟩], ide := [{ id := 4, secure := true, active := some 1, keys := [(⟨1, 0, 0⟩, 5), (⟨1, 0, 1⟩, 5), (⟨1, 0, 2⟩, 5), (⟨1, 1, 0⟩, 5), (⟨1, 1, 1⟩, 5), (⟨1, 1, 2⟩, 5), (⟨0, 1, 2⟩, 5)] }] })).modGlove 0 (fun x => { x with tdisp := true })) with trust.drbgReady := false } : State),
     0, 1, 1, 4, by and_intros <;> decide +kernel⟩,
   ⟨(svq.modLink 0 (fun x => { x with sessions := [⟨1, true, 5⟩], ide := [{ id := 4, secure := true, active := some 1, keys := [(⟨1, 0, 0⟩, 5), (⟨1, 0, 1⟩, 5), (⟨1, 0, 2⟩, 5), (⟨1, 1, 0⟩, 5), (⟨1, 1, 1⟩, 5), (⟨1, 1, 2⟩, 5)] }] })),
     0, 1, 1, some 2, 3, 4, ⟨1, 0, 0⟩, ⟨true, true, false, false⟩, 7, 1, .ideKmQuery (.host 0 (some 2)), by and_intros <;> decide +kernel⟩⟩

theorem witness_GloveKeyAndEntropyCommandsComplete :
    (∃ (s : State) (l : Nat) (k : Nat) (g : Nat), s.serves = true ∧ s.linkExists l = true ∧ (s.link l).up = true ∧
      s.inSession l (some k) = true ∧ s.linkHas l g = true ∧ s.noEntropy = false) ∧
    (∃ (s : State) (l : Nat) (k : Nat) (g : Nat), s.serves = true ∧ s.linkExists l = true ∧ (s.link l).up = true ∧
      s.inSession l (some k) = true ∧ s.linkHas l g = true ∧ s.noEntropy = true) ∧
    (∃ (s : State) (l : Nat) (k : Nat) (g : Nat), s.serves = true ∧ s.linkExists l = true ∧ (s.link l).up = true ∧
      s.inSession l (some k) = true ∧ s.linkHas l g = true ∧ (s.glove g).state ≠ .keyPending) ∧
    (∃ (s : State) (l : Nat) (k : Nat) (g : Nat) (h : _), s.serves = true ∧ s.linkExists l = true ∧ (s.link l).up = true ∧
      s.inSession l (some k) = true ∧ s.linkHas l g = true ∧ (s.glove g).state = .keyPending ∧ (s.glove g).tdi = .locked ∧
      s.trust.shares = [(g, h)] ∧ h.link = l ∧ h.session = k) ∧
    (∃ (s : State), s.awake = true ∧ s.trust.drbgReady = true ∧ 4096 ≤ s.trust.drbgCount) ∧
    (∃ (s : State), s.serves = true) ∧
    (∃ (s : State), s.serves = true ∧ s.trust.entropyFailed = true) ∧
    (∃ (s : State) (l : Nat) (n : Option Nat), s.serves = true ∧ s.linkExists l = true ∧ (s.link l).up = true ∧ s.inSession l n = false) ∧
    (∃ (s : State) (l : Nat) (n : Option Nat), s.serves = true ∧ s.linkExists l = true ∧ (s.link l).up = true ∧ s.inSession l n = false) ∧
    (∃ (s : State) (l : Nat) (n : Option Nat), s.serves = true ∧ s.linkExists l = true ∧ (s.link l).up = true ∧ s.inSession l n = false) ∧
    (∃ (s : State) (l : Nat) (g : Nat) (n : Option Nat), s.serves = true ∧ s.linkExists l = true ∧ (s.link l).up = true ∧
      s.inSession l n = true ∧ s.linkHas l g = false) ∧
    (∃ (s : State) (l : Nat) (g : Nat) (n : Option Nat), s.serves = true ∧ s.linkExists l = true ∧ (s.link l).up = true ∧
      s.inSession l n = true ∧ s.linkHas l g = false) ∧
    (∃ (s : State) (l : Nat) (g : Nat) (n : Option Nat), s.serves = true ∧ s.linkExists l = true ∧ (s.link l).up = true ∧
      s.inSession l n = true ∧ s.linkHas l g = true ∧ (s.glove g).state = .keyPending ∧ (s.glove g).tdi ≠ .locked) ∧
    (∃ (s : State) (l : Nat) (g : Nat) (n : Option Nat) (id : Nat), s.serves = true ∧ s.linkExists l = true ∧ (s.link l).up = true ∧
      s.inSession l n = true ∧ s.linkHas l g = true ∧ (s.glove g).state = .keyPending ∧ (s.glove g).tdi = .locked ∧ (∀ e ∈ s.trust.shares,
      e.1 = g → e.2.id = id → e.2.link = l → n = some e.2.session → False)) ∧
    (∃ (s : State) (l : Nat) (g : Nat) (n : Option Nat) (id : Nat), s.serves = true ∧ s.linkExists l = true ∧ (s.link l).up = true ∧
      s.inSession l n = true ∧ s.linkHas l g = true ∧ (s.glove g).state = .keyPending ∧ (s.glove g).tdi = .locked ∧ (∀ e ∈ s.trust.shares,
      e.1 = g → e.2.id = id → e.2.link = l → n = some e.2.session → False)) ∧
    (∃ (s : State) (l : Nat) (g : Nat) (n : Option Nat) (id : Nat), s.serves = true ∧ s.linkExists l = true ∧ (s.link l).up = true ∧
      s.inSession l n = true ∧ s.linkHas l g = true ∧ (s.glove g).state = .keyPending ∧ (s.glove g).tdi = .locked ∧ (∀ e ∈ s.trust.shares,
      e.1 = g → e.2.id = id → e.2.link = l → n = some e.2.session → False)) ∧
    (∃ (s : State), (s.trust.drbgReady = false ∨ s.trust.drbgCount < 4096)) ∧
    (∃ (s : State), (s.trust.drbgReady = false ∨ s.trust.drbgCount < 4096)) ∧
    (∃ (s : State), s.serves = false) ∧
    (∃ (s : State), s.serves = false) ∧
    (∃ (s : State), s.trust.entropyFailed = false) :=
  ⟨⟨(svq.modLink 0 (fun x => { x with sessions := [⟨1, true, 5⟩] })), 0, 1, 0, by and_intros <;> decide +kernel⟩,
   ⟨({ (svq.modLink 0 (fun x => { x with sessions := [⟨1, true, 5⟩] })) with trust.drbgReady := false } : State), 0, 1, 0,
     by and_intros <;> decide +kernel⟩,
   ⟨(svq.modLink 0 (fun x => { x with sessions := [⟨1, true, 5⟩] })), 0, 1, 0, by and_intros <;> decide +kernel⟩,
   ⟨({ (svq.modLink 0 (fun x => { x with sessions := [⟨1, true, 5⟩] })) with trust.shares := [(0, { id := 3, link := 0, session := 1, priv := 4, salt := 5 })] } : State).modGlove 0 (fun x => { x with state := .keyPending, tdi := .locked }),
     0, 1, 0, { id := 3, link := 0, session := 1, priv := 4, salt := 5 }, by and_intros <;> decide +kernel⟩,
   ⟨({ svq with trust.drbgCount := 4096 } : State), by and_intros <;> decide +kernel⟩,
   ⟨(svq.modLink 0 (fun x => { x with sessions := [⟨1, true, 5⟩] })), by and_intros <;> decide +kernel⟩,
   ⟨({ svq with trust.entropyFailed := true } : State), by and_intros <;> decide +kernel⟩,
   ⟨(svq.modLink 0 (fun x => { x with sessions := [⟨1, true, 5⟩] })), 0, none, by and_intros <;> decide +kernel⟩,
   ⟨(svq.modLink 0 (fun x => { x with sessions := [⟨1, true, 5⟩] })), 0, some 2, by and_intros <;> decide +kernel⟩,
   ⟨(svq.modLink 0 (fun x => { x with sessions := [⟨1, true, 5⟩] })), 0, none, by and_intros <;> decide +kernel⟩,
   ⟨(svq.modLink 0 (fun x => { x with sessions := [⟨1, true, 5⟩] })), 0, 8, some 1, by and_intros <;> decide +kernel⟩,
   ⟨(svq.modLink 0 (fun x => { x with sessions := [⟨1, true, 5⟩] })), 0, 8, some 1, by and_intros <;> decide +kernel⟩,
   ⟨(({ (svq.modLink 0 (fun x => { x with sessions := [⟨1, true, 5⟩] })) with trust.shares := [(0, { id := 3, link := 0, session := 1, priv := 4, salt := 5 })] } : State).modGlove 0 (fun x => { x with state := .keyPending })),
     0, 0, some 1, by and_intros <;> decide +kernel⟩,
   ⟨(({ (svq.modLink 0 (fun x => { x with sessions := [⟨1, true, 5⟩] })) with trust.shares := [(0, { id := 3, link := 0, session := 1, priv := 4, salt := 5 })] } : State).modGlove 0 (fun x => { x with state := .keyPending, tdi := .locked })),
     0, 0, some 1, 4, by and_intros <;> decide +kernel⟩,
   ⟨(({ (svq.modLink 0 (fun x => { x with sessions := [⟨1, true, 5⟩] })) with trust.shares := [(0, { id := 3, link := 0, session := 2, priv := 4, salt := 5 })] } : State).modGlove 0 (fun x => { x with state := .keyPending, tdi := .locked })),
     0, 0, some 1, 3, by and_intros <;> decide +kernel⟩,
   ⟨(((svq.modLink 0 (fun x => { x with sessions := [⟨1, true, 5⟩] }))).modGlove 0 (fun x => { x with state := .keyPending, tdi := .locked })),
     0, 0, some 1, 3, by and_intros <;> decide +kernel⟩,
   ⟨svq, by and_intros <;> decide +kernel⟩,
   ⟨({ svq with trust.drbgReady := false, trust.drbgCount := 5000 } : State), by and_intros <;> decide +kernel⟩,
   ⟨State.reset, by and_intros <;> decide +kernel⟩,
   ⟨({ State.reset with trust.entropyFailed := true } : State), by and_intros <;> decide +kernel⟩,
   ⟨svq, by and_intros <;> decide +kernel⟩⟩

theorem witness_KnotCommandsComplete :
    (∃ (s : State) (knot : Nat) (port : Nat) (vc : Nat) (i : _) (f : _) (k : _), s.awake = true ∧ (s.outPort knot port).stopped = false ∧
      knotNext knot port = some k ∧ s.grantVc knot port = some vc ∧ s.candidate knot port vc = some (i, f)) ∧
    (∃ (s : State) (knot : Nat) (port : Nat) (vc : Nat) (i : _) (f : _) (k : _), s.awake = true ∧ (s.outPort knot port).stopped = false ∧
      knotNext knot port = some k ∧ s.grantVc knot port = some vc ∧ s.candidate knot port vc = some (i, f)) ∧
    (∃ (s : State) (knot : Nat) (port : Nat), s.awake = true ∧ (s.outPort knot port).stopped = false ∧ (port = 4 ∨
      (knotNext knot port).isSome = true) ∧ s.grantVc knot port = none) ∧
    (∃ (s : State) (knot : Nat) (port : Nat), s.awake = true ∧ (s.outPort knot port).stopped = false ∧ (port = 4 ∨
      (knotNext knot port).isSome = true) ∧ s.grantVc knot port = none) ∧
    (∃ (s : State) (knot : Nat) (port : Nat), s.awake = true ∧ (s.outPort knot port).stopped = false ∧ (port = 4 ∨
      (knotNext knot port).isSome = true) ∧ s.grantVc knot port = none) ∧
    (∃ (s : State) (knot : Nat) (vc : Nat) (i : _) (f : _), s.awake = true ∧ s.candidate knot 4 vc = some (i, f) ∧ f.head = true ∧
      s.sleeps f = true ∧ s.holdRoom knot vc f = true ∧ (s.knotQ knot i vc).pairs = [f]) ∧
    (∃ (s : State) (knot : Nat) (port : Nat) (vc : Nat) (k : _), s.awake = true ∧ knotNext knot port = some k ∧
      (inKey k (farPort port) vc, false) ∈ s.net.credits) ∧
    (∃ (s : State) (knot : Nat) (port : Nat) (vc : Nat) (k : _), s.awake = true ∧ knotNext knot port = some k ∧
      (inKey k (farPort port) vc, true) ∈ s.net.credits) ∧
    (∃ (s : State) (knot : Nat) (port : Nat), s.awake = true ∧ ((s.outPort knot port).stopped = true ∨ (port ≠ 4 ∧
      knotNext knot port = none))) ∧
    (∃ (s : State) (knot : Nat) (vc : Nat) (i : _) (f : _), s.awake = true ∧ (s.outPort knot 4).stopped = false ∧
      s.grantVc knot 4 = some vc ∧ s.candidate knot 4 vc = some (i, f)) ∧
    (∃ (s : State) (knot : Nat) (port : Nat) (vc : Nat) (i : _) (f : _) (k : _) (e : _), s.awake = true ∧
      (s.outPort knot port).stopped = false ∧ knotNext knot port = some k ∧ s.grantVc knot port = some vc ∧
      s.candidate knot port vc = some (i, f) ∧ hitsHeader e f = true) ∧
    (∃ (s : State) (knot : Nat) (port : Nat) (vc : Nat) (i : _) (f : _) (k : _) (e : _), s.awake = true ∧
      (s.outPort knot port).stopped = false ∧ knotNext knot port = some k ∧ s.grantVc knot port = some vc ∧
      s.candidate knot port vc = some (i, f) ∧ hitsHeader e f = true) ∧
    (∃ (s : State) (knot : Nat) (port : Nat) (vc : Nat) (i : _) (f : _) (k : _) (e : _), s.awake = true ∧
      (s.outPort knot port).stopped = false ∧ knotNext knot port = some k ∧ s.grantVc knot port = some vc ∧
      s.candidate knot port vc = some (i, f) ∧ hitsHeader e f = false) ∧
    (∃ (s : State) (knot : Nat) (port : Nat) (vc : Nat) (i : _) (f : _) (k : _) (e : _), s.awake = true ∧
      (s.outPort knot port).stopped = false ∧ knotNext knot port = some k ∧ s.grantVc knot port = some vc ∧
      s.candidate knot port vc = some (i, f) ∧ hitsHeader e f = false) ∧
    (∃ (s : State) (knot : Nat) (vc : Nat) (b : _), s.awake = true ∧ (unitCredit knot vc, b) ∈ s.net.credits) ∧
    (∃ (s : State) (knot : Nat) (vc : Nat) (b : _), s.awake = true ∧ 2 ≤ vc ∧ (inKey knot 4 vc, b) ∈ s.net.credits) ∧
    (∃ (s : State) (knot : Nat) (port : Nat) (vc : Nat) (k : _) (b : _), s.awake = true ∧ port < 4 ∧ knotNext knot port = some k ∧
      (inKey k (farPort port) vc, b) ∉ s.net.credits) :=
  ⟨⟨({ svq with net.knotIn := [((5 * 5 + 4) * 16 + 0, { pairs := [{ pkt := 3, head := true, tail := true, lv := 3, lane0 := 7, lane1 := 8, next := 0, dest := 17, unit := gateUnit 0, seq := 0 }] })], net.pkts := [(3, req .memWr)] } : State),
     5, 0, 0, 4,
     { pkt := 3, head := true, tail := true, lv := 3, lane0 := 7, lane1 := 8, next := 0, dest := 17, unit := gateUnit 0, seq := 0 }, 17,
     by and_intros <;> decide +kernel⟩,
   ⟨({ svq with net.knotIn := [((5 * 5 + 4) * 16 + 0, { pairs := [{ pkt := 3, head := true, tail := true, lv := 3, lane0 := 7, lane1 := 8, next := 0, dest := 17, unit := gateUnit 0, seq := 0 }] })], net.pkts := [(3, req .memWr)] } : State),
     5, 0, 0, 4,
     { pkt := 3, head := true, tail := true, lv := 3, lane0 := 7, lane1 := 8, next := 0, dest := 17, unit := gateUnit 0, seq := 0 }, 17,
     by and_intros <;> decide +kernel⟩,
   ⟨svq, 5, 4, by and_intros <;> decide +kernel⟩,
   ⟨svq, 5, 0, by and_intros <;> decide +kernel⟩,
   ⟨({ ({ svq with net.knotIn := [((5 * 5 + 4) * 16 + 0, { pairs := [{ pkt := 3, head := true, tail := true, lv := 3, lane0 := 7, lane1 := 8, next := 0, dest := 17, unit := gateUnit 0, seq := 0 }] }), (inKey 17 (farPort 0) 0, { reserved := 0, sharedHeld := 16 })], net.pkts := [(3, req .memWr)] } : State) with net.credits := [] } : State),
     5, 0, by and_intros <;> decide +kernel⟩,
   ⟨((({ svq with net.knotIn := [((5 * 5 + 2) * 16 + 0, { pairs := [{ pkt := 3, head := true, tail := true, lv := 3, lane0 := 7, lane1 := 8, next := 4, dest := 5, unit := gateUnit 0, seq := 0 }] })], net.pkts := [(3, req .memWr)] } : State)).modDom 13 (fun x => { x with state := 1 })),
     5, 0, 2,
     { pkt := 3, head := true, tail := true, lv := 3, lane0 := 7, lane1 := 8, next := 4, dest := 5, unit := gateUnit 0, seq := 0 },
     by and_intros <;> decide +kernel⟩,
   ⟨({ svq with net.credits := [(inKey 17 (farPort 0) 0, false)], net.knotIn := [(inKey 17 (farPort 0) 0, { reserved := 3 })] } : State),
     5, 0, 0, 17, by and_intros <;> decide +kernel⟩,
   ⟨({ svq with net.credits := [(inKey 17 (farPort 0) 0, true)], net.knotIn := [(inKey 17 (farPort 0) 0, { sharedHeld := 2 })] } : State),
     5, 0, 0, 17, by and_intros <;> decide +kernel⟩,
   ⟨(svq.modOut 5 0 (fun x => { x with stopped := true })), 5, 0, by and_intros <;> decide +kernel⟩,
   ⟨({ svq with net.knotIn := [((5 * 5 + 2) * 16 + 0, { pairs := [{ pkt := 3, head := true, tail := true, lv := 3, lane0 := 7, lane1 := 8, next := 4, dest := 5, unit := gateUnit 0, seq := 0 }] })], net.pkts := [(3, req .memWr)] } : State),
     5, 0, 2,
     { pkt := 3, head := true, tail := true, lv := 3, lane0 := 7, lane1 := 8, next := 4, dest := 5, unit := gateUnit 0, seq := 0 },
     by and_intros <;> decide +kernel⟩,
   ⟨({ svq with net.knotIn := [((5 * 5 + 4) * 16 + 0, { pairs := [{ pkt := 3, head := true, tail := true, lv := 3, lane0 := 7, lane1 := 8, next := 0, dest := 17, unit := gateUnit 0, seq := 0 }] })], net.pkts := [(3, req .memWr)] } : State),
     5, 0, 0, 4,
     { pkt := 3, head := true, tail := true, lv := 3, lane0 := 7, lane1 := 8, next := 0, dest := 17, unit := gateUnit 0, seq := 0 }, 17,
     { control := true }, by and_intros <;> decide +kernel⟩,
   ⟨({ svq with net.knotIn := [((5 * 5 + 4) * 16 + 0, { pairs := [{ pkt := 3, head := true, tail := true, lv := 3, lane0 := 7, lane1 := 8, next := 0, dest := 17, unit := gateUnit 0, seq := 0 }] })], net.pkts := [(3, req .memWr)] } : State),
     5, 0, 0, 4,
     { pkt := 3, head := true, tail := true, lv := 3, lane0 := 7, lane1 := 8, next := 0, dest := 17, unit := gateUnit 0, seq := 0 }, 17,
     { bad := [3] }, by and_intros <;> decide +kernel⟩,
   ⟨({ svq with net.knotIn := [((5 * 5 + 4) * 16 + 0, { pairs := [{ pkt := 3, head := true, tail := true, lv := 3, lane0 := 7, lane1 := 8, next := 0, dest := 17, unit := gateUnit 0, seq := 0 }] })], net.pkts := [(3, req .memWr)] } : State),
     5, 0, 0, 4,
     { pkt := 3, head := true, tail := true, lv := 3, lane0 := 7, lane1 := 8, next := 0, dest := 17, unit := gateUnit 0, seq := 0 }, 17,
     { bad := [5] }, by and_intros <;> decide +kernel⟩,
   ⟨({ svq with net.knotIn := [((5 * 5 + 4) * 16 + 0, { pairs := [{ pkt := 3, head := true, tail := true, lv := 3, lane0 := 7, lane1 := 8, next := 0, dest := 17, unit := gateUnit 0, seq := 0 }] })], net.pkts := [(3, req .memWr)] } : State),
     5, 0, 0, 4,
     { pkt := 3, head := true, tail := true, lv := 3, lane0 := 7, lane1 := 8, next := 0, dest := 17, unit := gateUnit 0, seq := 0 }, 17,
     { single := [0, 6], bad := [4] }, by and_intros <;> decide +kernel⟩,
   ⟨({ (svq.modOut 5 4 (fun x => { x with unitUsed := [(0, 4)] })) with net.credits := [(unitCredit 5 0, false)] } : State), 5, 0, false,
     by and_intros <;> decide +kernel⟩,
   ⟨({ svq with net.credits := [(inKey 5 4 2, true)] } : State).modQ 5 4 2 (fun q => { q with sharedHeld := 3 }), 5, 2, true,
     by and_intros <;> decide +kernel⟩,
   ⟨svq, 5, 0, 0, 17, false, by and_intros <;> decide +kernel⟩⟩

theorem witness_PaceAndThermalCommandsComplete :
    (∃ (s : State), s.awake = true ∧ s.pwr.pace.moving = true ∧ s.pwr.pace.target < s.pwr.pace.point ∧ s.pwr.pace.written = false) ∧
    (∃ (s : State), s.awake = true ∧ s.pwr.pace.moving = true ∧ s.pwr.pace.avsFailed = false ∧ s.pwr.pace.written = false) ∧
    (∃ (s : State) (mv : _), s.awake = true ∧ s.pwr.pace.moving = true ∧ s.pwr.pace.avsFailed = false ∧ s.pwr.pace.written = true ∧
      s.pwr.pace.readOk = false ∧ mv ≤ s.pwr.pace.targetMv + 10 ∧ s.pwr.pace.targetMv ≤ mv + 10) ∧
    (∃ (s : State) (mv : _), s.awake = true ∧ s.pwr.pace.moving = true ∧ s.pwr.pace.avsFailed = false ∧ s.pwr.pace.written = true ∧
      s.pwr.pace.readOk = false ∧ (s.pwr.pace.targetMv + 10 < mv ∨ mv + 10 < s.pwr.pace.targetMv)) ∧
    (∃ (s : State), s.awake = true ∧ s.pwr.pace.moving = true ∧ s.pwr.pace.avsFailed = false ∧ s.pwr.pace.attempts < 3) ∧
    (∃ (s : State), s.awake = true ∧ s.pwr.pace.moving = true ∧ s.pwr.pace.avsFailed = false ∧ 3 ≤ s.pwr.pace.attempts) ∧
    (∃ (s : State), s.awake = true ∧ s.pwr.pace.moving = true ∧ s.pwr.pace.readOk = true) ∧
    (∃ (s : State), s.awake = true ∧ s.pwr.pace.avsFailed = true) ∧
    (∃ (s : State), s.awake = true ∧ s.pwr.pace.avsFailed = true) ∧
    (∃ (s : State), s.awake = true ∧ (s.pwr.pace.moving = false ∨ s.pwr.pace.point ≤ s.pwr.pace.target ∨ s.pwr.pace.written = true)) ∧
    (∃ (s : State), s.awake = true ∧ (s.pwr.pace.moving = false ∨ s.pwr.pace.point ≤ s.pwr.pace.target ∨ s.pwr.pace.written = true)) ∧
    (∃ (s : State), s.awake = true ∧ (s.pwr.pace.moving = false ∨ s.pwr.pace.point ≤ s.pwr.pace.target ∨ s.pwr.pace.written = true)) ∧
    (∃ (s : State), s.awake = true ∧ (s.pwr.pace.moving = false ∨ s.pwr.pace.avsFailed = true)) ∧
    (∃ (s : State), s.awake = true ∧ (s.pwr.pace.moving = false ∨ s.pwr.pace.avsFailed = true)) ∧
    (∃ (s : State), s.awake = true ∧ (s.pwr.pace.moving = false ∨ s.pwr.pace.readOk = false)) ∧
    (∃ (s : State), s.awake = true ∧ (s.pwr.pace.moving = false ∨ s.pwr.pace.readOk = false)) ∧
    (∃ (s : State), s.awake = true ∧ s.pwr.pace.avsFailed = false) ∧
    (∃ (s : State), s.awake = true ∧ s.pwr.pace.avsFailed = true) ∧
    (∃ (s : State), s.awake = true) ∧
    (∃ (s : State), s.serves = true) ∧
    (∃ (s : State), s.serves = true ∧ s.pwr.pace.avsFailed = false ∧ s.pwr.pace.moving = false ∧ s.pwr.pace.hold = true ∧
      s.boot.cfg.paceMin < s.pwr.pace.point) ∧
    (∃ (s : State), s.serves = true ∧ s.pwr.pace.avsFailed = false ∧ s.pwr.pace.moving = false ∧ s.pwr.pace.hold = false ∧ (∃ q < 4,
      (s.quad q).rose = true) ∧ s.pwr.pace.point < s.boot.cfg.paceMax) ∧
    (∃ (s : State) (temp : Nat), s.serves = true ∧ s.boot.cfg.tWarn ≤ temp ∧ 0 < s.boot.cfg.tWarn ∧ temp < 128 ∧ s.pwr.pace.hold = false) ∧
    (∃ (s : State) (t0 : Nat) (t1 : Nat) (t2 : Nat) (t3 : Nat), s.awake = true ∧ s.pwr.pace.hold = true ∧ s.boot.cfg.tWarn < 128 ∧
      (∀ x ∈ [t0, t1, t2, t3], x + 5 < s.boot.cfg.tWarn)) ∧
    (∃ (s : State), s.serves = true ∧ s.pwr.pace.hold = false ∧ (∀ q < 4, (s.quad q).rose = false) ∧ s.net.knotOut = [] ∧
      0 < s.boot.cfg.downUtil ∧ s.pwr.pace.lowWindows = 0 ∧ s.pwr.pace.avsFailed = false ∧ s.pwr.pace.moving = false) ∧
    (∃ (s : State) (temp : Nat), (atLeast s.boot.cfg.tWarn temp = false ∨ s.serves = false)) ∧
    (∃ (s : State) (temp : Nat), (atLeast s.boot.cfg.tWarn temp = false ∨ s.serves = false)) ∧
    (∃ (s : State) (ts : List Nat), (s.pwr.pace.hold = false ∨ ts.length ≠ 4 ∨ ∃ x ∈ ts, atLeast (s.boot.cfg.tWarn - 5) x = true)) ∧
    (∃ (s : State) (ts : List Nat), (s.pwr.pace.hold = false ∨ ts.length ≠ 4 ∨ ∃ x ∈ ts, atLeast (s.boot.cfg.tWarn - 5) x = true)) ∧
    (∃ (s : State) (ts : List Nat), (s.pwr.pace.hold = false ∨ ts.length ≠ 4 ∨ ∃ x ∈ ts, atLeast (s.boot.cfg.tWarn - 5) x = true)) ∧
    (∃ (s : State), s.serves = false) ∧
    (∃ (s : State), s.serves = false) ∧
    (∃ (s : State) (temp : Nat), s.serves = true ∧ atLeast s.boot.cfg.tWarn temp = true ∧ s.pwr.pace.hold = true) :=
  ⟨⟨({ svq with pwr.pace := { moving := true, target := 0, targetMv := 650 } } : State), by and_intros <;> decide +kernel⟩,
   ⟨({ svq with pwr.pace := { moving := true, target := 0, targetMv := 650 } } : State), by and_intros <;> decide +kernel⟩,
   ⟨({ svq with pwr.pace := { moving := true, target := 0, targetMv := 650, written := true } } : State), 660,
     by and_intros <;> decide +kernel⟩,
   ⟨({ svq with pwr.pace := { moving := true, target := 0, targetMv := 650, written := true } } : State), 661,
     by and_intros <;> decide +kernel⟩,
   ⟨({ svq with pwr.pace := { moving := true, target := 0, targetMv := 650, attempts := 2 } } : State), by and_intros <;> decide +kernel⟩,
   ⟨({ svq with pwr.pace := { moving := true, target := 0, attempts := 3 } } : State), by and_intros <;> decide +kernel⟩,
   ⟨({ svq with pwr.pace := { moving := true, target := 2, readOk := true } } : State), by and_intros <;> decide +kernel⟩,
   ⟨({ svq with pwr.pace := { avsFailed := true } } : State), by and_intros <;> decide +kernel⟩,
   ⟨({ svq with pwr.pace := { avsFailed := true } } : State), by and_intros <;> decide +kernel⟩,
   ⟨svq, by and_intros <;> decide +kernel⟩,
   ⟨({ svq with pwr.pace := { moving := true, point := 0, target := 2 } } : State), by and_intros <;> decide +kernel⟩,
   ⟨({ svq with pwr.pace := { moving := true, point := 2, target := 0, written := true } } : State), by and_intros <;> decide +kernel⟩,
   ⟨svq, by and_intros <;> decide +kernel⟩,
   ⟨({ svq with pwr.pace := { moving := true, avsFailed := true } } : State), by and_intros <;> decide +kernel⟩,
   ⟨svq, by and_intros <;> decide +kernel⟩,
   ⟨({ svq with pwr.pace := { moving := true, target := 2 } } : State), by and_intros <;> decide +kernel⟩,
   ⟨svq, by and_intros <;> decide +kernel⟩,
   ⟨({ svq with pwr.pace := { avsFailed := true } } : State), by and_intros <;> decide +kernel⟩,
   ⟨svq, by and_intros <;> decide +kernel⟩,
   ⟨(svq.modQuad 3 (fun x => { x with alarm := true, cur := 7 })), by and_intros <;> decide +kernel⟩,
   ⟨({ svq with pwr.pace := { hold := true } } : State), by and_intros <;> decide +kernel⟩,
   ⟨(svq.modQuad 3 (fun x => { x with rose := true })), by and_intros <;> decide +kernel⟩,
   ⟨svq, 90, by and_intros <;> decide +kernel⟩,
   ⟨({ svq with pwr.pace := { hold := true } } : State), 84, 84, 84, 84, by and_intros <;> decide +kernel⟩,
   ⟨({ svq with boot.cfg.downUtil := 5 } : State), by and_intros <;> decide +kernel⟩,
   ⟨svq, 89, by and_intros <;> decide +kernel⟩,
   ⟨State.reset, 90, by and_intros <;> decide +kernel⟩,
   ⟨svq, [84, 84, 84, 84], by and_intros <;> decide +kernel⟩,
   ⟨({ svq with pwr.pace := { hold := true } } : State), [84, 84, 84], by and_intros <;> decide +kernel⟩,
   ⟨({ svq with pwr.pace := { hold := true } } : State), [84, 84, 85, 84], by and_intros <;> decide +kernel⟩,
   ⟨State.reset, by and_intros <;> decide +kernel⟩,
   ⟨State.reset, by and_intros <;> decide +kernel⟩,
   ⟨({ svq with pwr.pace := { hold := true } } : State), 90, by and_intros <;> decide +kernel⟩⟩

end Sys2Proof.Tests
end

