-- ==== Sys2Proof/Proofs/Doorbell.lean ====
section
/-! PROOFS. The frames of a queue update and of the votes as `OnlyIn`, and the doorbell (R351, R352). -/

namespace Sys2Proof.Machine

/-! ### Frames in sequence -/

theorem Agree.trans {s t u : State} {p : Part} (hst : Agree s t p) (htu : Agree t u p) : Agree s u p := by
  cases p <;> exact Eq.trans htu hst

/-- What two changes in a row leave: whatever both leave. -/
theorem OnlyIn.trans {ps qs : List Part} {s t u : State} (hst : OnlyIn ps s t) (htu : OnlyIn qs t u) :
    OnlyIn (ps ++ qs) s u where
  agree p hp := by
    obtain ⟨hps, hqs⟩ : p ∉ ps ∧ p ∉ qs := by simpa using hp
    exact (hst.agree p hps).trans (htu.agree p hqs)

theorem State.modQueue_onlyIn (s : State) (q : QId) (m : Queue → Queue) : OnlyIn [.work] s (s.modQueue q m) where
  agree p hp := by
    cases p
    case work => simp at hp
    all_goals rfl

/-- Votes wake domains, which reports events, and touch nothing else. -/
theorem State.castVotes_onlyIn (s old : State) : OnlyIn [.pwr, .evt] s (s.castVotes old) where
  agree p hp := by
    cases p
    case pwr | evt => simp at hp
    all_goals simp [Agree]

/-! ### What a doorbell does -/

/-- A doorbell of an enabled queue within its size and not behind its TAIL: TAIL moves, and the queue's link may cast its vote. -/
theorem exec_doorbell_accepted {s : State} {q : QId} {v : BitVec 32} (hb : s.bar0On q.fnId = true)
    (he : (s.queue q).enable = true) (hf : (s.queue q).faulted = false)
    (hroom : (v - (s.queue q).head).toNat ≤ 2 ^ (s.queue q).size)
    (hfwd : ((s.queue q).tail - (s.queue q).head).toNat ≤ (v - (s.queue q).head).toNat) :
    exec (.doorbell q v) s = .next ((s.modQueue q (fun x => { x with tail := v })).castVotes s) := by
  simp only [exec, execDoorbell, hb, he, hf, Nat.not_lt.mpr hroom, Nat.not_lt.mpr hfwd, Bool.not_true, Bool.false_eq_true,
    if_false]

/-- The codes with which the procedure rejects a doorbell, in the order of its checks (R351). -/
def DoorbellRejects (x : Queue) (v : BitVec 32) (code : Nat) : Prop :=
  x.enable = false ∧ code = 0x0404 ∨
  x.enable = true ∧ x.faulted = true ∧ code = 0x0408 ∨
  x.enable = true ∧ x.faulted = false ∧ 2 ^ x.size < (v - x.head).toNat ∧ code = 0x0400 ∨
  x.enable = true ∧ x.faulted = false ∧ (v - x.head).toNat ≤ 2 ^ x.size ∧ (v - x.head).toNat < (x.tail - x.head).toNat ∧ code = 0x0409

/-- A rejected doorbell counts in REJECTS, up to 255, and its code stands in FN_REJECT; each check runs only when those before it pass.
The distances from HEAD stay as they are: `BitVec.toNat_sub` would rewrite the goal away from the hypotheses. -/
theorem exec_doorbell_rejected {s : State} {q : QId} {v : BitVec 32} {code : Nat} (hb : s.bar0On q.fnId = true)
    (hr : DoorbellRejects (s.queue q) v code) :
    exec (.doorbell q v) s = .next
      ((s.modQueue q (fun x => { x with rejects := min 255 (x.rejects + 1) })).reject q.fnId code 1 (queBase q + 0x18)) := by
  rcases hr with ⟨he, rfl⟩ | ⟨he, hf, rfl⟩ | ⟨he, hf, hover, rfl⟩ | ⟨he, hf, hroom, hback, rfl⟩
  · simp [exec, execDoorbell, satAdd, hb, he]
  · simp [exec, execDoorbell, satAdd, hb, he, hf]
  · simp [exec, execDoorbell, satAdd, hb, he, hf, hover, -BitVec.toNat_sub]
  · simp [exec, execDoorbell, satAdd, hb, he, hf, Nat.not_lt.mpr hroom, hback, -BitVec.toNat_sub]

/-- Settles O9: the acceptance and the four rejections are the five branches of the procedure. -/
theorem doorbellIsEvaluatedByTheProcedure : Obligations.DoorbellIsEvaluatedByTheProcedure := by
  intro s q v hb
  refine ⟨fun he hf hroom hfwd => ⟨_, exec_doorbell_accepted hb he hf hroom hfwd, ?_, ?_, ?_, ?_⟩,
    fun code hr => exec_doorbell_rejected hb hr⟩
  · rw [State.castVotes_queue, State.modQueue_same]
  · intro j hj
    rw [State.castVotes_queue, State.modQueue_ne _ _ _ hj]
  · intro f
    rw [State.castVotes_finger, State.modQueue_finger]
  · exact (s.modQueue_onlyIn q _).trans (State.castVotes_onlyIn _ _)

end Sys2Proof.Machine
end

