-- ==== Sys2Proof/Proofs/ProgramRegisters.lean ====
section
/-! PROOFS. The register instructions of a program and END (R401, R405-R407): each changes its own Finger alone; END also completes
the Finger's entry. -/

namespace Sys2Proof.Machine

/-! ### Changes of one Finger -/

/-- The later write of a key stands. -/
@[simp] theorem Tbl.set_set {α : Type} (t : Tbl α) (k : Nat) (v w : α) : Tbl.set (Tbl.set t k v) k w = Tbl.set t k w := by
  induction t with
  | nil => simp [Tbl.set]
  | cons e r ih =>
    obtain ⟨a, u⟩ := e
    rcases Nat.lt_trichotomy k a with hlt | rfl | hgt
    · simp [Tbl.set, hlt]
    · simp [Tbl.set]
    · simp [Tbl.set, Nat.not_lt.mpr hgt.le, hgt.ne, ih]

/-- Two changes of one Finger are one change. -/
theorem State.modFinger_modFinger (s : State) (f : FgId) (m n : Finger → Finger) :
    (s.modFinger f m).modFinger f n = s.modFinger f (fun x => n (m x)) := by
  simp only [State.modFinger, Tbl.mod, Tbl.get_set_same, Tbl.set_set]

/-- A change of a Finger matters at the Finger's value alone. -/
theorem State.modFinger_congr {s : State} {f : FgId} {m n : Finger → Finger} (h : m (s.finger f) = n (s.finger f)) :
    s.modFinger f m = s.modFinger f n :=
  congrArg (fun x => { s with work.fingers := s.work.fingers.set f.key x }) h

theorem OnlyIn.mono {ps qs : List Part} {s t : State} (h : OnlyIn ps s t) (hsub : ps ⊆ qs) : OnlyIn qs s t where
  agree p hp := h.agree p (fun hm => hp (hsub hm))

theorem State.modFinger_onlyIn (s : State) (f : FgId) (m : Finger → Finger) : OnlyIn [.work] s (s.modFinger f m) where
  agree p hp := by
    cases p
    case work => simp at hp
    all_goals rfl

/-- A command that makes one change of a Finger: the Finger's new value, and no other Finger, queue or part of the state. -/
theorem exec_modFinger_frame {i : Instr} {s : State} {f : FgId} {m : Finger → Finger} (he : exec i s = .next (s.modFinger f m)) :
    ∃ t, exec i s = .next t ∧ t.finger f = m (s.finger f) ∧ (∀ j, j.key ≠ f.key → t.finger j = s.finger j) ∧
      (∀ q, t.queue q = s.queue q) ∧ OnlyIn [.work] s t :=
  ⟨_, he, State.modFinger_same .., fun _ hj => State.modFinger_ne _ _ _ hj, fun _ => rfl, s.modFinger_onlyIn f m⟩

/-! ### A Finger between two instructions -/

/-- The Finger runs, no instruction is under way, and nothing waits to stop it. -/
structure Finger.Between (x : Finger) : Prop where
  state : x.state = .running
  halt : x.halt = none
  stop : x.stop = none
  stopCode : x.stopCode = none
  transfer : x.transfer = none
  waiting : x.waiting = none
  signalling : x.signalling = none
  fetching : x.fetching = false

theorem State.between_of_fgAtInstr {s : State} {f : FgId} (h : s.fgAtInstr f = true) : (s.finger f).Between := by
  simp only [State.fgAtInstr, Bool.and_eq_true, beq_iff_eq, Option.isNone_iff_eq_none, Bool.not_eq_true'] at h
  constructor <;> simp only [h]

/-- Nothing waits for this boundary. -/
theorem State.fgBoundary_of_between {s : State} {f : FgId} (h : (s.finger f).Between) : s.fgBoundary f = s := by
  simp [State.fgBoundary, State.fgAtBoundary, h.state, h.halt, h.stop, h.stopCode, h.transfer, h.signalling, h.fetching]

/-- Passing on from an instruction that left nothing under way moves PC alone. -/
theorem State.fgAdvance_of_between {s : State} {f : FgId} (h : (s.finger f).Between) :
    s.fgAdvance f = s.modFinger f (fun x => { x with pc := (x.pc + 32) % 2 ^ 64 }) := by
  obtain ⟨hstate, hhalt, hstop, hcode, htransfer, hwaiting, hsignalling, hfetching⟩ := h
  rw [State.fgAdvance, State.fgBoundary_of_between (by rw [State.modFinger_same]; constructor <;> trivial)]
  exact State.modFinger_congr (by simp only [← htransfer, ← hwaiting, ← hsignalling])

/-- Writing a register leaves what says whether the Finger stands between instructions. -/
theorem Finger.Between.setReg {x : Finger} (h : x.Between) (r : Nat) (v : BitVec 64) : (x.setReg r v).Between := by
  obtain ⟨hstate, hhalt, hstop, hcode, htransfer, hwaiting, hsignalling, hfetching⟩ := h
  unfold Finger.setReg
  split <;> constructor <;> assumption

@[simp] theorem Finger.setReg_pc (x : Finger) (r : Nat) (v : BitVec 64) : (x.setReg r v).pc = x.pc := by
  unfold Finger.setReg
  split <;> rfl

/-! ### The end of an entry -/

theorem Finger.Between.idle {x : Finger} (h : x.Between) : x.idle.Between where
  state := h.state
  halt := rfl
  stop := h.stop
  stopCode := rfl
  transfer := rfl
  waiting := rfl
  signalling := rfl
  fetching := rfl

theorem State.fgFinish_finger_same (s : State) (f : FgId) (code result : Nat) :
    (s.fgFinish f code result).finger f = (s.finger f).idle := by
  cases he : (s.finger f).entry <;> simp [State.fgFinish, he]

theorem State.fgFinish_finger_ne (s : State) {f : FgId} (code result : Nat) {j : FgId} (h : j.key ≠ f.key) :
    (s.fgFinish f code result).finger j = s.finger j := by
  cases he : (s.finger f).entry <;> simp [State.fgFinish, he, State.modFinger_ne _ _ _ h]

/-- The queues see the completion of the entry alone. -/
theorem State.fgFinish_queue {s : State} {f : FgId} {o : Origin} (ho : (s.finger f).entry = some o) (code result : Nat) (q : QId) :
    (s.fgFinish f code result).queue q = (s.complete o code result).queue q := by
  simp [State.fgFinish, ho]

/-- The end of an entry on a state with the same queues. -/
theorem State.fgFinish_completes {s u : State} {f : FgId} {o : Origin} {code result : Nat} (hq : ∀ q, u.queue q = s.queue q)
    (ho : (u.finger f).entry = some o) : Completes s (u.fgFinish f code result) o code result := by
  simpa only [Completes, State.fgFinish_queue ho] using State.completes s u o code result hq

/-- The waiters of the function and the requests outstanding forget the Finger. -/
theorem State.fgFinish_onlyIn (s : State) (f : FgId) (code result : Nat) :
    OnlyIn [.work, .host, .net] s (s.fgFinish f code result) where
  agree p hp := by
    cases p
    case work | host | net => simp at hp
    all_goals simp [Agree]

/-- The value an END gives: an A register modulo 2^48, or its immediate (R407). -/
def Finger.endValue (x : Finger) (r : Option Nat) (imm : Nat) : Nat :=
  match r with
  | some r => (x.a r).toNat % 2 ^ 48
  | none => imm

/-! ### The instruction at PC -/

/-- The Finger as it stands while it executes a word. -/
def Finger.executing (x : Finger) (op : Nat) (w : BitVec 256) : Finger := { x with opcode := op, word := w }

@[simp] theorem Finger.executing_pc (x : Finger) (op : Nat) (w : BitVec 256) : (x.executing op w).pc = x.pc := rfl

theorem Finger.Between.executing {x : Finger} (h : x.Between) (op : Nat) (w : BitVec 256) : (x.executing op w).Between :=
  ⟨h.state, h.halt, h.stop, h.stopCode, h.transfer, h.waiting, h.signalling, h.fetching⟩

section Instruction
variable {s : State} {f : FgId} {w : BitVec 256} (hat : s.fgAtInstr f = true) (hw : (s.finger f).instr = some w)

include hat in
/-- The Finger at an instruction stands between two, also once it holds the word. -/
theorem State.executing_between (op : Nat) : ((s.modFinger f (·.executing op w)).finger f).Between := by
  rw [State.modFinger_same]
  exact (State.between_of_fgAtInstr hat).executing op w

include hat in
/-- An instruction that writes one register and passes on. -/
theorem State.setReg_fgAdvance (op r : Nat) (v : Finger → BitVec 64) :
    ((s.modFinger f (·.executing op w)).modFinger f (fun x => x.setReg r (v x))).fgAdvance f =
      s.modFinger f (fun x => { (x.executing op w).setReg r (v (x.executing op w)) with pc := (x.pc + 32) % 2 ^ 64 }) := by
  rw [State.fgAdvance_of_between (by rw [State.modFinger_same]; exact (State.executing_between hat op).setReg r _),
    State.modFinger_modFinger, State.modFinger_modFinger]
  simp only [Finger.setReg_pc, Finger.executing_pc]

include hat hw

/-- The word at PC decodes: its effect runs on the Finger that holds the word. -/
theorem State.fgExec_decoded {op : Nat} {i : FgOp} (run : FgOp → State → State) (hop : w.toNat % 256 = op)
    (hd : decodeFg (f.fn == 0) w = some i) :
    s.fgExec f w op run = run i (s.modFinger f (·.executing op w)) := by
  simp only [State.fgExec, hat, hw, hop, hd, BEq.rfl, Bool.and_self, if_true]
  rfl

theorem exec_seta {r : Nat} {v : BitVec 64} (hop : w.toNat % 256 = 0x05) (hd : decodeFg (f.fn == 0) w = some (.seta r v)) :
    exec (.seta f w) s = .next (s.modFinger f (fun x =>
      { (x.executing 0x05 w).setReg r v with pc := (x.pc + 32) % 2 ^ 64 })) := by
  simp only [exec, execSeta, State.fgExec_decoded hat hw _ hop hd, State.setReg_fgAdvance hat 0x05 r (fun _ => v)]

theorem exec_adda {r : Nat} {v : BitVec 64} (hop : w.toNat % 256 = 0x06) (hd : decodeFg (f.fn == 0) w = some (.adda r v)) :
    exec (.adda f w) s = .next (s.modFinger f (fun x =>
      { (x.executing 0x06 w).setReg r ((x.executing 0x06 w).reg r + v) with pc := (x.pc + 32) % 2 ^ 64 })) := by
  simp only [exec, execAdda, State.fgExec_decoded hat hw _ hop hd, State.setReg_fgAdvance hat 0x06 r (fun x => x.reg r + v)]

/-- LOOP with its counter at 0 passes on (R406). -/
theorem exec_loop_done {c : Nat} {d : Int} (hop : w.toNat % 256 = 0x02) (hd : decodeFg (f.fn == 0) w = some (.loop c d))
    (hc : (if c = 0 then (s.finger f).l0 else (s.finger f).l1) = 0) :
    exec (.loop f w) s = .next (s.modFinger f (fun x => { x.executing 0x02 w with pc := (x.pc + 32) % 2 ^ 64 })) := by
  have hzero : (if c = 0 then ((s.finger f).executing 0x02 w).l0 else ((s.finger f).executing 0x02 w).l1) = 0 := hc
  simp only [exec, execLoop, State.fgExec_decoded hat hw _ hop hd, State.modFinger_same, beq_iff_eq, hzero, if_true,
    State.fgAdvance_of_between (State.executing_between hat 0x02), State.modFinger_modFinger, Finger.executing_pc]

/-- LOOP with its counter above 0 counts down and jumps by its target (R406). -/
theorem exec_loop_taken {c : Nat} {d : Int} (hop : w.toNat % 256 = 0x02) (hd : decodeFg (f.fn == 0) w = some (.loop c d))
    (hc : (if c = 0 then (s.finger f).l0 else (s.finger f).l1) ≠ 0) :
    exec (.loop f w) s = .next (s.modFinger f (fun x => { x.executing 0x02 w with
      l0 := if c = 0 then x.l0 - 1 else x.l0, l1 := if c = 0 then x.l1 else x.l1 - 1,
      pc := (((x.pc : Int) + 32 * d) % (2 ^ 64 : Int)).toNat })) := by
  have hcount : (if c = 0 then ((s.finger f).executing 0x02 w).l0 else ((s.finger f).executing 0x02 w).l1) ≠ 0 := hc
  have hbetween := State.between_of_fgAtInstr hat
  simp only [exec, execLoop, State.fgExec_decoded hat hw _ hop hd, State.modFinger_same, beq_iff_eq, hcount, if_false,
    State.modFinger_modFinger]
  rw [State.fgBoundary_of_between (by rw [State.modFinger_same]; exact { hbetween with })]
  refine congrArg Host.Outcome.next (State.modFinger_congr ?_)
  by_cases h0 : c = 0 <;> simp only [h0, if_true, if_false] <;> rfl

/-- END ends the Finger's entry with code 0 and its value (R407); nothing waits for the boundary that follows. -/
theorem exec_endInstr {r : Option Nat} {imm : Nat} (hop : w.toNat % 256 = 0x0F) (hd : decodeFg (f.fn == 0) w = some (.fin r imm)) :
    exec (.endInstr f w) s =
      .next ((s.modFinger f (·.executing 0x0F w)).fgFinish f 0 ((s.finger f).endValue r imm)) := by
  have hidle : ∀ v, (((s.modFinger f (·.executing 0x0F w)).fgFinish f 0 v).finger f).Between := fun v => by
    rw [State.fgFinish_finger_same]
    exact (State.executing_between hat 0x0F).idle
  simp only [exec, execEndInstr, State.fgExec_decoded hat hw _ hop hd, State.fgBoundary_of_between (hidle _), State.modFinger_same]
  cases r <;> rfl

/-- END leaves its Finger without an entry, completes the entry it held, and changes no other Finger. -/
theorem exec_endInstr_frame {o : Origin} {r : Option Nat} {imm : Nat} (hop : w.toNat % 256 = 0x0F)
    (hd : decodeFg (f.fn == 0) w = some (.fin r imm)) (ho : (s.finger f).entry = some o) :
    ∃ t, exec (.endInstr f w) s = .next t ∧ t.finger f = ((s.finger f).executing 0x0F w).idle ∧
      Completes s t o 0 ((s.finger f).endValue r imm) ∧ (∀ j, j.key ≠ f.key → t.finger j = s.finger j) ∧
      OnlyIn [.work, .host, .net] s t := by
  refine ⟨_, exec_endInstr hat hw hop hd, ?_, State.fgFinish_completes (fun _ => rfl) (by rw [State.modFinger_same]; exact ho),
    fun j hj => ?_, ((s.modFinger_onlyIn f _).trans (State.fgFinish_onlyIn ..)).mono (by decide)⟩
  · rw [State.fgFinish_finger_same, State.modFinger_same]
  · rw [State.fgFinish_finger_ne _ _ _ hj, State.modFinger_ne _ _ _ hj]

end Instruction

/-- Settles O15: SETA, ADDA and LOOP are each one change of the Finger, and END is the end of its entry. -/
theorem programRegisterInstructionsComplete : Obligations.ProgramRegisterInstructionsComplete := by
  intro s f w hat hw
  refine ⟨fun r v hop hd => exec_modFinger_frame (exec_seta hat hw hop hd),
    fun r v hop hd => exec_modFinger_frame (exec_adda hat hw hop hd),
    fun c d hop hd hc => exec_modFinger_frame (exec_loop_done hat hw hop hd hc),
    fun d hop hd hc => exec_modFinger_frame (exec_loop_taken hat hw hop hd hc),
    fun c d hop hd hc0 hc => ?_, fun o imm hop hd ho => ?_, fun o r hop hd ho => ?_⟩
  · have hcount : (if c = 0 then (s.finger f).l0 else (s.finger f).l1) ≠ 0 := by rwa [if_neg hc0]
    obtain ⟨t, hexec, hfinger, hframe⟩ := exec_modFinger_frame (exec_loop_taken hat hw hop hd hcount)
    simp only [if_neg hc0] at hfinger
    exact ⟨t, hexec, hfinger, hframe⟩
  · obtain ⟨t, hexec, hfinger, hdone, hothers, honly⟩ := exec_endInstr_frame hat hw hop hd ho
    exact ⟨t, hexec, congrArg Finger.entry hfinger, congrArg Finger.program hfinger, congrArg Finger.ibuf hfinger,
      (congrArg Finger.state hfinger).trans (State.between_of_fgAtInstr hat).state, hdone, hothers, honly⟩
  · obtain ⟨t, hexec, hfinger, hdone, hothers, honly⟩ := exec_endInstr_frame hat hw hop hd ho
    exact ⟨t, hexec, congrArg Finger.entry hfinger, hdone, hothers, honly⟩

end Sys2Proof.Machine
end

