-- ==== Sys2Proof/Proofs/KeptSteps.lean ====
section
/-! PROOFS. Every command, and so every step, moves the kept part of the state only as `Kept.le` says. -/

namespace Sys2Proof.Machine

/-- The laws of the rows, one for each command: the kept part stays, or moves as `Kept.le` says. -/
theorem exec_kept_le {i : Instr} {s t : State} (h : exec i s = .next t) : s.kept.le t.kept := by
  have ha := Kept.le_refl s.kept
  cases i with
  | coldReset => exact execColdReset_le (ha := ha) (h := h) ..
  | devRstAssert => exact execDevRstAssert_le (ha := ha) (h := h) ..
  | powerGoodDeassert => exact execPowerGoodDeassert_le (ha := ha) (h := h) ..
  | tamperInputAssert => exact Kept.le_of_eq ha (execTamperInputAssert_kept (h := h) ..)
  | thermtrip => exact Kept.le_of_eq ha (execThermtrip_kept (h := h) ..)
  | tWarnReached => exact Kept.le_of_eq ha (execTWarnReached_kept (h := h) ..)
  | thermalHoldEnd => exact Kept.le_of_eq ha (execThermalHoldEnd_kept (h := h) ..)
  | hostMemoryRead => exact execHostMemoryRead_le (ha := ha) (h := h) ..
  | hostMemoryWrite => exact execHostMemoryWrite_le (ha := ha) (h := h) ..
  | hostAtomicop => exact execHostAtomicop_le (ha := ha) (h := h) ..
  | unsupportedRequest => exact Kept.le_of_eq ha (execUnsupportedRequest_kept (h := h) ..)
  | hostCompletion => exact Kept.le_of_eq ha (execHostCompletion_kept (h := h) ..)
  | hostCplTimeout => exact Kept.le_of_eq ha (execHostCplTimeout_kept (h := h) ..)
  | cuffTxDequeue => exact Kept.le_of_eq ha (execCuffTxDequeue_kept (h := h) ..)
  | perstAssert => exact Kept.le_of_eq ha (execPerstAssert_kept (h := h) ..)
  | perstDeassert => exact Kept.le_of_eq ha (execPerstDeassert_kept (h := h) ..)
  | linkTrainedL0 => exact Kept.le_of_eq ha (execLinkTrainedL0_kept (h := h) ..)
  | dlDown => exact Kept.le_of_eq ha (execDlDown_kept (h := h) ..)
  | linkHotReset => exact Kept.le_of_eq ha (execLinkHotReset_kept (h := h) ..)
  | hostRecoveryEntered => exact Kept.le_of_eq ha (execHostRecoveryEntered_kept (h := h) ..)
  | flrStart => exact Kept.le_of_eq ha (execFlrStart_kept (h := h) ..)
  | flrComplete => exact Kept.le_of_eq ha (execFlrComplete_kept (h := h) ..)
  | vfEnableClear => exact Kept.le_of_eq ha (execVfEnableClear_kept (h := h) ..)
  | vfEnableSet => exact Kept.le_of_eq ha (execVfEnableSet_kept (h := h) ..)
  | numvfsWrite => exact Kept.le_of_eq ha (execNumvfsWrite_kept (h := h) ..)
  | barWrite => exact Kept.le_of_eq ha (execBarWrite_kept (h := h) ..)
  | vfBarSizeWrite => exact Kept.le_of_eq ha (execVfBarSizeWrite_kept (h := h) ..)
  | bmeClear => exact Kept.le_of_eq ha (execBmeClear_kept (h := h) ..)
  | bmeSet => exact Kept.le_of_eq ha (execBmeSet_kept (h := h) ..)
  | d3hotEntry => exact Kept.le_of_eq ha (execD3hotEntry_kept (h := h) ..)
  | d0Return => exact Kept.le_of_eq ha (execD0Return_kept (h := h) ..)
  | msixMaskWrite => exact Kept.le_of_eq ha (execMsixMaskWrite_kept (h := h) ..)
  | msixCommit => exact Kept.le_of_eq ha (execMsixCommit_kept (h := h) ..)
  | pendingVectorSend => exact Kept.le_of_eq ha (execPendingVectorSend_kept (h := h) ..)
  | lockExpiry => exact execLockExpiry_le (ha := ha) (h := h) ..
  | memRd => exact execMemRd_le (ha := ha) (h := h) ..
  | memWr => exact execMemWr_le (ha := ha) (h := h) ..
  | memRdLock => exact execMemRdLock_le (ha := ha) (h := h) ..
  | memWrUnlock => exact execMemWrUnlock_le (ha := ha) (h := h) ..
  | unlock => exact execUnlock_le (ha := ha) (h := h) ..
  | zlRd => exact Kept.le_of_eq ha (execZlRd_kept (h := h) ..)
  | regRd => exact Kept.le_of_eq ha (execRegRd_kept (h := h) ..)
  | regWr => exact Kept.le_of_eq ha (execRegWr_kept (h := h) ..)
  | cplD => exact execCplD_le (ha := ha) (h := h) ..
  | cpl => exact execCpl_le (ha := ha) (h := h) ..
  | ack => exact execAck_le (ha := ha) (h := h) ..
  | mqRd => exact Kept.le_of_eq ha (execMqRd_kept (h := h) ..)
  | mqWr => exact Kept.le_of_eq ha (execMqWr_kept (h := h) ..)
  | mqMac => exact Kept.le_of_eq ha (execMqMac_kept (h := h) ..)
  | tierLookup => exact Kept.le_of_eq ha (execTierLookup_kept (h := h) ..)
  | tierFill => exact execTierFill_le (ha := ha) (h := h) ..
  | mirrorWr => exact execMirrorWr_le (ha := ha) (h := h) ..
  | mrD => exact execMrD_le (ha := ha) (h := h) ..
  | mrAck => exact execMrAck_le (ha := ha) (h := h) ..
  | event => exact Kept.le_of_eq ha (execEvent_kept (h := h) ..)
  | msgReq => exact Kept.le_of_eq ha (execMsgReq_kept (h := h) ..)
  | fault => exact execFault_le (ha := ha) (h := h) ..
  | ruleFault => exact Kept.le_of_eq ha (execRuleFault_kept (h := h) ..)
  | ownershipInvalidate => exact Kept.le_of_eq ha (execOwnershipInvalidate_kept (h := h) ..)
  | ownershipInvalidateAck => exact Kept.le_of_eq ha (execOwnershipInvalidateAck_kept (h := h) ..)
  | knotOutputGrant => exact Kept.le_of_eq ha (execKnotOutputGrant_kept (h := h) ..)
  | holdStoreRoomFreed => exact Kept.le_of_eq ha (execHoldStoreRoomFreed_kept (h := h) ..)
  | creditReturn => exact Kept.le_of_eq ha (execCreditReturn_kept (h := h) ..)
  | weaveTimeout => exact execWeaveTimeout_le (ha := ha) (h := h) ..
  | tagRelease => exact Kept.le_of_eq ha (execTagRelease_kept (h := h) ..)
  | paceMonitorSample => exact Kept.le_of_eq ha (execPaceMonitorSample_kept (h := h) ..)
  | sampleWindowEnd => exact Kept.le_of_eq ha (execSampleWindowEnd_kept (h := h) ..)
  | wvePaceAlarmClear => exact Kept.le_of_eq ha (execWvePaceAlarmClear_kept (h := h) ..)
  | leakyBucketDrain => exact execLeakyBucketDrain_le (ha := ha) (h := h) ..
  | commandSlotGrant => exact execCommandSlotGrant_le (ha := ha) (h := h) ..
  | wcbResidencyExpiry => exact execWcbResidencyExpiry_le (ha := ha) (h := h) ..
  | reencPhaseADone => exact execReencPhaseADone_le (ha := ha) (h := h) ..
  | reencRaiseClass => exact Kept.le_of_eq ha (execReencRaiseClass_kept (h := h) ..)
  | stagingBufferFreed => exact execStagingBufferFreed_le (ha := ha) (h := h) ..
  | doorbell => exact Kept.le_of_eq ha (execDoorbell_kept (h := h) ..)
  | queueEnable => exact Kept.le_of_eq ha (execQueueEnable_kept (h := h) ..)
  | queueDisable => exact Kept.le_of_eq ha (execQueueDisable_kept (h := h) ..)
  | entryFetch => exact Kept.le_of_eq ha (execEntryFetch_kept (h := h) ..)
  | entryDispatch => exact Kept.le_of_eq ha (execEntryDispatch_kept (h := h) ..)
  | resultWrite => exact Kept.le_of_eq ha (execResultWrite_kept (h := h) ..)
  | resultWriteAcked => exact Kept.le_of_eq ha (execResultWriteAcked_kept (h := h) ..)
  | headWriteAcked => exact Kept.le_of_eq ha (execHeadWriteAcked_kept (h := h) ..)
  | openGlove => exact execOpenGlove_le (ha := ha) (h := h) ..
  | closeGlove => exact execCloseGlove_le (ha := ha) (h := h) ..
  | bandSlotZeroConfirmed => exact Kept.le_of_eq ha (execBandSlotZeroConfirmed_kept (h := h) ..)
  | lastPageReleased => exact Kept.le_of_eq ha (execLastPageReleased_kept (h := h) ..)
  | grantPages => exact Kept.le_of_eq ha (execGrantPages_kept (h := h) ..)
  | reclaimPages => exact Kept.le_of_eq ha (execReclaimPages_kept (h := h) ..)
  | setLimits => exact Kept.le_of_eq ha (execSetLimits_kept (h := h) ..)
  | setPeerWindow => exact Kept.le_of_eq ha (execSetPeerWindow_kept (h := h) ..)
  | clearPeerWindow => exact Kept.le_of_eq ha (execClearPeerWindow_kept (h := h) ..)
  | pinDomain => exact Kept.le_of_eq ha (execPinDomain_kept (h := h) ..)
  | unpinDomain => exact Kept.le_of_eq ha (execUnpinDomain_kept (h := h) ..)
  | drain => exact Kept.le_of_eq ha (execDrain_kept (h := h) ..)
  | getLog => exact Kept.le_of_eq ha (execGetLog_kept (h := h) ..)
  | getUsage => exact Kept.le_of_eq ha (execGetUsage_kept (h := h) ..)
  | createQueue => exact Kept.le_of_eq ha (execCreateQueue_kept (h := h) ..)
  | destroyQueue => exact Kept.le_of_eq ha (execDestroyQueue_kept (h := h) ..)
  | setRules => exact Kept.le_of_eq ha (execSetRules_kept (h := h) ..)
  | getRuleFault => exact Kept.le_of_eq ha (execGetRuleFault_kept (h := h) ..)
  | clearRuleFault => exact Kept.le_of_eq ha (execClearRuleFault_kept (h := h) ..)
  | startFinger => exact Kept.le_of_eq ha (execStartFinger_kept (h := h) ..)
  | stopFinger => exact Kept.le_of_eq ha (execStopFinger_kept (h := h) ..)
  | epochDrainDone => exact execEpochDrainDone_le (ha := ha) (h := h) ..
  | epochDrainTimeout => exact execEpochDrainTimeout_le (ha := ha) (h := h) ..
  | runProgram => exact Kept.le_of_eq ha (execRunProgram_kept (h := h) ..)
  | copy => exact Kept.le_of_eq ha (execCopy_kept (h := h) ..)
  | fill => exact Kept.le_of_eq ha (execFill_kept (h := h) ..)
  | flush => exact Kept.le_of_eq ha (execFlush_kept (h := h) ..)
  | fingerIssue => exact Kept.le_of_eq ha (execFingerIssue_kept (h := h) ..)
  | programLineFetch => exact Kept.le_of_eq ha (execProgramLineFetch_kept (h := h) ..)
  | move => exact Kept.le_of_eq ha (execMove_kept (h := h) ..)
  | loop => exact Kept.le_of_eq ha (execLoop_kept (h := h) ..)
  | wait => exact Kept.le_of_eq ha (execWait_kept (h := h) ..)
  | waitPoll => exact Kept.le_of_eq ha (execWaitPoll_kept (h := h) ..)
  | waitTimerExpiry => exact Kept.le_of_eq ha (execWaitTimerExpiry_kept (h := h) ..)
  | waitTimeout => exact Kept.le_of_eq ha (execWaitTimeout_kept (h := h) ..)
  | signal => exact Kept.le_of_eq ha (execSignal_kept (h := h) ..)
  | seta => exact Kept.le_of_eq ha (execSeta_kept (h := h) ..)
  | adda => exact Kept.le_of_eq ha (execAdda_kept (h := h) ..)
  | endInstr => exact Kept.le_of_eq ha (execEndInstr_kept (h := h) ..)
  | tokenRefill => exact Kept.le_of_eq ha (execTokenRefill_kept (h := h) ..)
  | fngEventsSet => exact Kept.le_of_eq ha (execFngEventsSet_kept (h := h) ..)
  | fngEventClr => exact Kept.le_of_eq ha (execFngEventClr_kept (h := h) ..)
  | borderPayloadFlit => exact Kept.le_of_eq ha (execBorderPayloadFlit_kept (h := h) ..)
  | borderAckFlit => exact execBorderAckFlit_le (ha := ha) (h := h) ..
  | borderPacket => exact Kept.le_of_eq ha (execBorderPacket_kept (h := h) ..)
  | ident => exact execIdent_le (ha := ha) (h := h) ..
  | rerouteReq => exact execRerouteReq_le (ha := ha) (h := h) ..
  | rerouteAck => exact execRerouteAck_le (ha := ha) (h := h) ..
  | rerouteDone => exact execRerouteDone_le (ha := ha) (h := h) ..
  | widthReq => exact execWidthReq_le (ha := ha) (h := h) ..
  | widthAck => exact Kept.le_of_eq ha (execWidthAck_kept (h := h) ..)
  | ctrlRepeat => exact Kept.le_of_eq ha (execCtrlRepeat_kept (h := h) ..)
  | borderAckTimer => exact Kept.le_of_eq ha (execBorderAckTimer_kept (h := h) ..)
  | replayTimeout => exact execReplayTimeout_le (ha := ha) (h := h) ..
  | creditTimeout => exact execCreditTimeout_le (ha := ha) (h := h) ..
  | widthChangeTimeout => exact execWidthChangeTimeout_le (ha := ha) (h := h) ..
  | borderSymbolLock => exact Kept.le_of_eq ha (execBorderSymbolLock_kept (h := h) ..)
  | trainingTimeout => exact execTrainingTimeout_le (ha := ha) (h := h) ..
  | identTimeout => exact execIdentTimeout_le (ha := ha) (h := h) ..
  | lockLossTimeout => exact execLockLossTimeout_le (ha := ha) (h := h) ..
  | downRetry => exact Kept.le_of_eq ha (execDownRetry_kept (h := h) ..)
  | rerouteLimitExpiry => exact execRerouteLimitExpiry_le (ha := ha) (h := h) ..
  | homeLinkReturn => exact Kept.le_of_eq ha (execHomeLinkReturn_kept (h := h) ..)
  | keyTransfer => exact Kept.le_of_eq ha (execKeyTransfer_kept (h := h) ..)
  | keyConfirm => exact Kept.le_of_eq ha (execKeyConfirm_kept (h := h) ..)
  | pageAlloc => exact Kept.le_of_eq ha (execPageAlloc_kept (h := h) ..)
  | pageList => exact Kept.le_of_eq ha (execPageList_kept (h := h) ..)
  | pageRelease => exact Kept.le_of_eq ha (execPageRelease_kept (h := h) ..)
  | keyRevoke => exact Kept.le_of_eq ha (execKeyRevoke_kept (h := h) ..)
  | revokeAck peer glove pages => exact Kept.le_of_eq ha (execRevokeAck_kept peer glove pages s t h)
  | quarantineNotice peer cause => exact execQuarantineNotice_le peer cause s ha t h
  | mgmtRetryTimeout => exact Kept.le_of_eq ha (execMgmtRetryTimeout_kept (h := h) ..)
  | getVersion => exact execGetVersion_le (ha := ha) (h := h) ..
  | getCapabilities => exact execGetCapabilities_le (ha := ha) (h := h) ..
  | negotiateAlgorithms => exact execNegotiateAlgorithms_le (ha := ha) (h := h) ..
  | getDigests => exact execGetDigests_le (ha := ha) (h := h) ..
  | getCertificate => exact execGetCertificate_le (ha := ha) (h := h) ..
  | challenge => exact execChallenge_le (ha := ha) (h := h) ..
  | getMeasurements => exact execGetMeasurements_le (ha := ha) (h := h) ..
  | keyExchange => exact execKeyExchange_le (ha := ha) (h := h) ..
  | finish => exact execFinish_le (ha := ha) (h := h) ..
  | endSession => exact execEndSession_le (ha := ha) (h := h) ..
  | getEncapsulatedRequest => exact execGetEncapsulatedRequest_le (ha := ha) (h := h) ..
  | deliverEncapsulatedResponse => exact execDeliverEncapsulatedResponse_le (ha := ha) (h := h) ..
  | peerSpdmResponse => exact execPeerSpdmResponse_le (ha := ha) (h := h) ..
  | finishRsp => exact execFinishRsp_le (ha := ha) (h := h) ..
  | ideKmQuery => exact execIdeKmQuery_le (ha := ha) (h := h) ..
  | ideKmKeyProg => exact execIdeKmKeyProg_le (ha := ha) (h := h) ..
  | ideKmKSetGo => exact execIdeKmKSetGo_le (ha := ha) (h := h) ..
  | ideKmKSetStop => exact execIdeKmKSetStop_le (ha := ha) (h := h) ..
  | getTdispVersion => exact execGetTdispVersion_le (ha := ha) (h := h) ..
  | getTdispCapabilities => exact execGetTdispCapabilities_le (ha := ha) (h := h) ..
  | lockInterfaceRequest => exact execLockInterfaceRequest_le (ha := ha) (h := h) ..
  | getDeviceInterfaceReport => exact execGetDeviceInterfaceReport_le (ha := ha) (h := h) ..
  | getDeviceInterfaceState => exact execGetDeviceInterfaceState_le (ha := ha) (h := h) ..
  | startInterfaceRequest => exact execStartInterfaceRequest_le (ha := ha) (h := h) ..
  | stopInterfaceRequest => exact execStopInterfaceRequest_le (ha := ha) (h := h) ..
  | bindP2pStreamRequest c vf => exact execBindP2pStreamRequest_le c vf s ha t h
  | unbindP2pStreamRequest c vf => exact execUnbindP2pStreamRequest_le c vf s ha t h
  | setMmioAttributeRequest c vf => exact execSetMmioAttributeRequest_le c vf s ha t h
  | gloveKeyShare => exact execGloveKeyShare_le (ha := ha) (h := h) ..
  | gloveKeyInstall => exact execGloveKeyInstall_le (ha := ha) (h := h) ..
  | shareExpiry => exact Kept.le_of_eq ha (execShareExpiry_kept (h := h) ..)
  | drbgReseed => exact Kept.le_of_eq ha (execDrbgReseed_kept (h := h) ..)
  | entropyHealthFail => exact Kept.le_of_eq ha (execEntropyHealthFail_kept (h := h) ..)
  | entropyRetry => exact Kept.le_of_eq ha (execEntropyRetry_kept (h := h) ..)
  | evtInChange => exact Kept.le_of_eq ha (execEvtInChange_kept (h := h) ..)
  | filterCountExpiry => exact Kept.le_of_eq ha (execFilterCountExpiry_kept (h := h) ..)
  | sourcePresent => exact Kept.le_of_eq ha (execSourcePresent_kept (h := h) ..)
  | endOfService => exact Kept.le_of_eq ha (execEndOfService_kept (h := h) ..)
  | moderationTimerExpiry => exact Kept.le_of_eq ha (execModerationTimerExpiry_kept (h := h) ..)
  | selfTestTick => exact Kept.le_of_eq ha (execSelfTestTick_kept (h := h) ..)
  | quietPeriodExpiry => exact Kept.le_of_eq ha (execQuietPeriodExpiry_kept (h := h) ..)
  | mramRecordWrite => exact Kept.le_of_eq ha (execMramRecordWrite_kept (h := h) ..)
  | retireClear => exact Kept.le_of_eq ha (execRetireClear_kept (h := h) ..)
  | retireClearCancel => exact Kept.le_of_eq ha (execRetireClearCancel_kept (h := h) ..)
  | recoveryRead => exact execRecoveryRead_le (ha := ha) (h := h) ..
  | recoveryErase => exact execRecoveryErase_le (ha := ha) (h := h) ..
  | recoveryProgram => exact execRecoveryProgram_le (ha := ha) (h := h) ..
  | recoveryVerify => exact Kept.le_of_eq ha (execRecoveryVerify_kept (h := h) ..)
  | fuseSigner => exact execFuseSigner_le (ha := ha) (h := h) ..
  | recoveryOpDone => exact Kept.le_of_eq ha (execRecoveryOpDone_kept (h := h) ..)
  | lingerExpiry => exact execLingerExpiry_le (ha := ha) (h := h) ..
  | domainCommit => exact execDomainCommit_le (ha := ha) (h := h) ..
  | domainEntryComplete => exact Kept.le_of_eq ha (execDomainEntryComplete_kept (h := h) ..)
  | padReleaseDue => exact Kept.le_of_eq ha (execPadReleaseDue_kept (h := h) ..)
  | domainOn => exact Kept.le_of_eq ha (execDomainOn_kept (h := h) ..)
  | islandsLowReported => exact Kept.le_of_eq ha (execIslandsLowReported_kept (h := h) ..)
  | avsTransactionDone => exact Kept.le_of_eq ha (execAvsTransactionDone_kept (h := h) ..)
  | voltageGood => exact Kept.le_of_eq ha (execVoltageGood_kept (h := h) ..)
  | avsRetryTick => exact Kept.le_of_eq ha (execAvsRetryTick_kept (h := h) ..)
  | minuteBoundary => exact Kept.le_of_eq ha (execMinuteBoundary_kept (h := h) ..)
  | mramSeqRetry => exact Kept.le_of_eq ha (execMramSeqRetry_kept (h := h) ..)
  | tierOccupancySample => exact Kept.le_of_eq ha (execTierOccupancySample_kept (h := h) ..)
  | usgAnchorWrite => exact Kept.le_of_eq ha (execUsgAnchorWrite_kept (h := h) ..)
  | smbusReadByte => exact Kept.le_of_eq ha (execSmbusReadByte_kept (h := h) ..)
  | smbusReadWord => exact Kept.le_of_eq ha (execSmbusReadWord_kept (h := h) ..)
  | smbusBlockRead => exact Kept.le_of_eq ha (execSmbusBlockRead_kept (h := h) ..)
  | smbusWrite cmd => exact Kept.le_of_eq ha (execSmbusWrite_kept cmd s t h)
  | registerWrite => exact execRegisterWrite_le (ha := ha) (h := h) ..
  | linkPowerStateChange => exact Kept.le_of_eq ha (execLinkPowerStateChange_kept (h := h) ..)
  | spdmUnsupportedRequest => exact execSpdmUnsupportedRequest_le (ha := ha) (h := h) ..
  | invalidInstruction => exact Kept.le_of_eq ha (execInvalidInstruction_kept (h := h) ..)
  | pgAonAssert => exact Kept.le_of_eq ha (execPgAonAssert_kept (h := h) ..)
  | vddAonRemoved => exact execVddAonRemoved_le (ha := ha) (h := h) ..

/-- A step takes the front command off the queue and moves the rest of the kept part as `Kept.le` says; a housekeeping cycle, on an
empty queue, leaves it. -/
theorem step_kept_le {s t : State} (h : step s = .next t) : ({ s.kept with pending := s.pending.tail } : Kept).le t.kept := by
  unfold step at h
  split at h
  case h_1 hp =>
    obtain rfl := Host.Outcome.next.inj h
    exact Kept.le_of_eq (Kept.le_refl _) (by rw [State.tick_kept]; simp [State.kept, hp])
  case h_2 hp =>
    rw [hp]
    exact exec_kept_le h

end Sys2Proof.Machine
end

