-- ==== Sys2Proof/Proofs/RollbackFloors.lean ====
section
/-! PROOFS. How start-up ends: its mode, the Pattern in force and the rollback floors (R532, R550, R551), and that the floors only
rise. -/

namespace Sys2Proof.Machine

/-! ### The mode -/

@[simp] theorem State.alarm_mode (s : State) : s.alarm.sys.mode = s.sys.mode := by
  unfold State.alarm
  split <;> rfl

@[simp] theorem State.setMode_mode (s : State) (m : Mode) (cause : Nat) : (s.setMode m cause).sys.mode = m := by
  unfold State.setMode
  split
  case isTrue h => exact eq_of_beq h
  case isFalse => simp

theorem foldl_sys {α : Type} (g : State → α → State) (h : ∀ s x, (g s x).sys = s.sys) (l : List α) (s : State) :
    (l.foldl g s).sys = s.sys :=
  foldl_same (fun x => x.sys) g l s h

/-- Quarantine is entered, or in force already; the notices to the peers and the errors of the links leave the mode (R534). -/
@[simp] theorem State.quarantine_mode (s : State) (cause : Nat) : (s.quarantine cause).sys.mode = .quarantine := by
  unfold State.quarantine
  split
  case isTrue h => exact eq_of_beq h
  case isFalse =>
    rw [foldl_sys _ (fun _ _ => State.aer_gsys ..), State.alarm_mode]
    exact (congrArg Sys.mode (foldl_sys _ (fun _ _ => State.sendMgmt_gsys ..) _ _)).trans (State.setMode_mode ..)

theorem State.startStep7_mode (s : State) (p : Pattern) :
    (s.startStep7 p).sys.mode = .service ∨ (s.startStep7 p).sys.mode = .degraded := by
  simp only [State.startStep7, State.setMode_mode]
  split
  · exact .inr rfl
  · exact .inl rfl

@[simp] theorem State.enterBlank_mode (s : State) (cause : Nat) : (s.enterBlank cause).sys.mode = .blank :=
  State.setMode_mode ..

/-! ### What start-up leaves of `boot` -/

theorem foldl_boot {α : Type} (g : State → α → State) (h : ∀ s x, (g s x).boot = s.boot) (l : List α) (s : State) :
    (l.foldl g s).boot = s.boot :=
  foldl_same (fun x => x.boot) g l s h

theorem State.foldl_modSource_gboot {α : Type} (i : α → Nat) (m : α → Source → Source) (l : List α) (s : State) :
    (l.foldl (fun s x => s.modSource (i x) (m x)) s).boot = s.boot :=
  foldl_boot _ (fun _ _ => State.modSource_gboot ..) l s

@[simp] theorem State.alarm_gboot (s : State) : s.alarm.boot = s.boot := by
  unfold State.alarm
  split <;> simp

@[simp] theorem State.setMode_gboot (s : State) (m : Mode) (cause : Nat) : (s.setMode m cause).boot = s.boot := by
  unfold State.setMode
  split <;> simp

@[simp] theorem State.quarantine_gboot (s : State) (cause : Nat) : (s.quarantine cause).boot = s.boot := by
  unfold State.quarantine
  split
  case isTrue => rfl
  case isFalse =>
    rw [foldl_boot _ (fun _ _ => State.aer_gboot ..), State.alarm_gboot]
    exact (foldl_boot _ (fun _ _ => State.sendMgmt_gboot ..) _ _).trans (State.setMode_gboot ..)

@[simp] theorem State.holdOut_gboot (s : State) (fixed : Bool) (r : RetRec) : (s.holdOut fixed r).boot = s.boot := by
  unfold State.holdOut
  split <;> simp [State.removal, apply_ite]

@[simp] theorem State.senseInput_gboot (s : State) (i : Nat) (old new : Bool) : (s.senseInput i old new).boot = s.boot := by
  simp [State.senseInput, apply_ite State.boot]

@[simp] theorem State.recordFail_gboot (s : State) (g line slot code : Nat) : (s.recordFail g line slot code).boot = s.boot := by
  simp only [State.recordFail, State.report_gboot]
  split <;> simp

@[simp] theorem State.latchFault_gboot (s : State) (r : FaultReport) : (s.latchFault r).boot = s.boot := by
  simp [State.latchFault, apply_ite State.boot]

@[simp] theorem State.degrade_gboot (s : State) (code : Nat) : (s.degrade code).boot = s.boot := by
  simp [State.degrade, apply_ite State.boot]

@[simp] theorem State.retireChannel_gboot (s : State) (ch : Nat) : (s.retireChannel ch).boot = s.boot := by
  unfold State.retireChannel
  split
  · rfl
  · simp [State.logFault, State.removal, foldl_boot]

@[simp] theorem State.losePseudo_gboot (s : State) (stack pc : Nat) (spare : Bool) : (s.losePseudo stack pc spare).boot = s.boot := by
  simp [State.losePseudo, State.removal, apply_ite State.boot]

@[simp] theorem State.setBState_gboot (s : State) (l : Nat) (st : BState) : (s.setBState l st).boot = s.boot := by
  simp [State.setBState, apply_ite State.boot]

@[simp] theorem State.domOff_gboot (s : State) (d : Nat) : (s.domOff d).boot = s.boot := by
  simp [State.domOff]

@[simp] theorem State.resetSriov_gboot (s : State) (l : Nat) : (s.resetSriov l).boot = s.boot := by
  simp [State.resetSriov]

/-! ### The Pattern in force -/

@[simp] theorem State.startRecord_cfg (s : State) (code step detail : Nat) : (s.startRecord code step detail).boot.cfg = s.boot.cfg := rfl

@[simp] theorem State.stepDone_cfg (s : State) (n : Nat) : (s.stepDone n).boot.cfg = s.boot.cfg := rfl

@[simp] theorem State.hbmUntrained_cfg (s : State) (q pc : Nat) : (s.hbmUntrained q pc).boot.cfg = s.boot.cfg := by
  simp [State.hbmUntrained, apply_ite State.boot]

@[simp] theorem State.startStep4_cfg (s : State) (b : Board) (p : Pattern) :
    (s.startStep4 b p).boot.cfg = { p with cuffModes := s.boot.cfg.cuffModes, links := s.boot.cfg.links } := by
  unfold State.startStep4
  simp [foldl_boot, State.foldl_modSource_gboot, apply_ite State.boot, apply_ite Boot.cfg]

@[simp] theorem State.startStep5_cfg (s : State) (b : Board) : (s.startStep5 b).boot.cfg = s.boot.cfg := by
  unfold State.startStep5
  simp [foldl_same (fun x : State => x.boot.cfg), apply_ite State.boot, apply_ite Boot.cfg]

@[simp] theorem State.startStep7_cfg (s : State) (p : Pattern) :
    (s.startStep7 p).boot.cfg = { s.boot.cfg with cuffModes := p.cuffModes, links := p.links } := by
  unfold State.startStep7
  simp [foldl_boot, State.foldl_modSource_gboot, apply_ite State.boot, State.raiseFloors]

/-! ### The floors -/

/-- The kept part with the floors raised to those of a Pattern (R550). -/
def Kept.raised (k : Kept) (p : Pattern) : Kept :=
  { k with patternFloor := max k.patternFloor p.floor, ucodeFloor := max k.ucodeFloor (p.ucode / 65536) }

@[simp] theorem State.raiseFloors_kept (s : State) (p : Pattern) : (s.raiseFloors p).kept = s.kept.raised p := rfl

@[simp] theorem State.startStep7_kept (s : State) (p : Pattern) : (s.startStep7 p).kept = s.kept.raised p := by
  simp [State.startStep7, foldl_kept]

/-! ### The ends of start-up -/

/-- How start-up ends, from the kept part it began with: a Pattern is in force and the floors are raised to its own, or none is and the
kept part is as it was (R550). -/
inductive Kept.StartEnds (k : Kept) (t : State) : Prop
  | inForce (mode : t.sys.mode = .service ∨ t.sys.mode = .degraded) (kept : t.kept = k.raised t.boot.cfg)
  | notInForce (mode : t.sys.mode = .blank ∨ t.sys.mode = .quarantine) (kept : t.kept = k)

/-- Step 7 ends start-up with the copy's Pattern in force, once step 4 has put all of it but the layout into force (R551). -/
theorem State.startStep7_ends {k : Kept} {s : State} {p : Pattern} (hk : s.kept = k)
    (hcfg : { s.boot.cfg with cuffModes := p.cuffModes, links := p.links } = p) : k.StartEnds (s.startStep7 p) :=
  .inForce (s.startStep7_mode p) (by rw [State.startStep7_cfg, hcfg, State.startStep7_kept, hk])

theorem State.startCopy_ends {k : Kept} {s : State} (hk : s.kept = k) (b : Board) (p : Pattern) : k.StartEnds (s.startCopy b p) := by
  simp only [State.startCopy]
  split
  case isTrue h4 => exact .notInForce (.inr (eq_of_beq h4)) (by simpa using hk)
  case isFalse =>
    split
    case isTrue h5 => exact .notInForce (.inr (eq_of_beq h5)) (by simpa using hk)
    case isFalse => exact State.startStep7_ends (by simpa using hk) (by simp)

theorem State.startUp_ends {k : Kept} {s : State} (hk : s.kept = k) (b : Board) : k.StartEnds (s.startUp b) := by
  simp only [State.startUp]
  split
  case isTrue => exact .notInForce (.inr (State.quarantine_mode ..)) (by simpa using hk)
  case isFalse =>
    split
    case h_1 => exact .notInForce (.inl (State.enterBlank_mode ..)) (by simpa using hk)
    case h_2 => exact State.startCopy_ends (by simpa using hk) b _

/-- How start-up ends, read off the floors: Service and Degraded are apart from the other two modes. -/
theorem Kept.StartEnds.floors {k : Kept} {t : State} (h : k.StartEnds t) :
    if t.sys.mode = .service ∨ t.sys.mode = .degraded then
      t.boot.mram.patternFloor = max k.patternFloor t.boot.cfg.floor ∧
      t.boot.mram.ucodeFloor = max k.ucodeFloor (t.boot.cfg.ucode / 65536)
    else t.boot.mram.patternFloor = k.patternFloor ∧ t.boot.mram.ucodeFloor = k.ucodeFloor := by
  cases h with
  | inForce mode kept =>
    rw [if_pos mode]
    exact ⟨congrArg Kept.patternFloor kept, congrArg Kept.ucodeFloor kept⟩
  | notInForce mode kept =>
    rw [if_neg (by rcases mode with mode | mode <;> simp [mode])]
    exact ⟨congrArg Kept.patternFloor kept, congrArg Kept.ucodeFloor kept⟩

/-- A cold reset clears the device and runs the whole of start-up (R551, R558). -/
theorem exec_coldReset_ends {s : State} (b : Board) (haon : s.sys.aon = true) (hrst : s.sys.devRst = true) :
    ∃ t, exec (.coldReset b) s = .next t ∧ s.cleared.kept.StartEnds t := by
  refine ⟨({ s.cleared with sys.devRst := false, boot.board := b } : State).startUp b, ?_, State.startUp_ends (State.kept_mkBoot ..) b⟩
  simp only [exec, execColdReset, haon, hrst, Bool.and_self, if_true]

/-- Settles O6: every command moves the kept part upward only, and start-up ends with the floors raised or untouched. -/
theorem rollbackFloorsOnlyRise : Obligations.RollbackFloorsOnlyRise := by
  refine ⟨fun s t h => ?_, fun b s haon hrst => ?_⟩
  · have hle := step_kept_le h
    exact ⟨hle.patternFloor, hle.ucodeFloor, hle.signer⟩
  · obtain ⟨t, hexec, hends⟩ := exec_coldReset_ends b haon hrst
    exact ⟨t, hexec, hends.floors⟩

end Sys2Proof.Machine
end

