-- ==== Sys2Proof/Proofs/Steps.lean ====
section
/-! PROOFS. Every command answers a next state, so the waiting commands all run, and the byte memories stay canonical (R107, R539, R564); and the state after reset. -/

namespace Sys2Proof.Machine

/-- No command faults or refuses: its meaning is a next state (log entry 2). -/
theorem exec_answers (c : Instr) (s : State) : ∃ t, exec c s = .next t := by
  cases c <;> exact ⟨_, rfl⟩

/-- A command leaves the queue of waiting commands alone. -/
theorem exec_pending {c : Instr} {s t : State} (h : exec c s = .next t) : t.pending = s.pending :=
  (exec_kept_le h).pending

/-- Settles O4: each command answers, and the queue is of the kept part. -/
theorem everyCommandAnswersANextState : Obligations.EveryCommandAnswersANextState := by
  intro c s
  obtain ⟨t, h⟩ := exec_answers c s
  exact ⟨t, h, exec_pending h⟩

/-- A step of a waiting command answers a state with one command less. -/
theorem step_cons {c : Instr} {rest : List Instr} {s : State} (h : s.pending = c :: rest) :
    ∃ t, step s = .next t ∧ t.pending = rest := by
  obtain ⟨t, ht⟩ := exec_answers c { s with pending := rest }
  exact ⟨t, by simp only [step, h, ht], exec_pending ht⟩

theorem runs_pending (l : List Instr) (s : State) (h : s.pending = l) : ∃ t, Runs l.length s t ∧ t.pending = [] := by
  induction l generalizing s with
  | nil => exact ⟨s, rfl, h⟩
  | cons c rest ih =>
    obtain ⟨u, hstep, hu⟩ := step_cons h
    obtain ⟨t, hruns, ht⟩ := ih u hu
    exact ⟨t, ⟨u, hstep, hruns⟩, ht⟩

/-- Settles O5, by induction on the queue: each step takes one command off it. -/
theorem waitingCommandsAllRun : Obligations.WaitingCommandsAllRun :=
  fun s => runs_pending s.pending s rfl

/-- The byte memories are of the kept part, and a step keeps each canonical. -/
theorem State.memoryOk_iff (s : State) : s.MemoryOk = true ↔
    Memory.wf 0xFF s.kept.flash = true ∧ Memory.wf 0 s.kept.rcvBuf = true ∧ Memory.wf 0 s.kept.ddr = true := by
  simp only [State.MemoryOk, State.kept, Bool.and_eq_true, and_assoc]

/-- Settles O3: the three memories move as `Kept.le` says. -/
theorem everyStepKeepsTheMemoriesCanonical : Obligations.EveryStepKeepsTheMemoriesCanonical := by
  intro s t hs h
  have hle := step_kept_le h
  obtain ⟨hflash, hbuf, hddr⟩ := s.memoryOk_iff.mp hs
  exact t.memoryOk_iff.mpr ⟨hle.flash hflash, hle.rcvBuf hbuf, hle.ddr hddr⟩

/-- Settles O1: each clause is a branch of `step` or of the decoder. -/
theorem stepRunsTheFrontCommand : Obligations.StepRunsTheFrontCommand := by
  refine ⟨fun c rest s => rfl, fun s h => ?_, fun s nbits w => ⟨rfl, rfl⟩⟩
  simp only [step, h]

/-- Settles O2: every table is empty after reset, so each entry shows its default, and the other fields are given. -/
theorem resetLeavesTheResetValues : Obligations.ResetLeavesTheResetValues := by
  refine ⟨rfl, rfl, rfl, rfl, rfl, rfl, rfl, rfl, rfl, rfl, rfl, fun _ => ⟨rfl, rfl, rfl, rfl⟩, fun _ => ⟨rfl, rfl⟩, rfl, rfl, rfl,
    fun _ => ⟨rfl, rfl, rfl⟩, fun _ => ⟨rfl, rfl⟩, fun _ _ => ⟨rfl, rfl, rfl, rfl⟩, fun _ => ⟨rfl, rfl, rfl⟩, fun _ => ⟨rfl, rfl⟩,
    fun _ => rfl, rfl, rfl, rfl, rfl, fun _ => ⟨rfl, rfl⟩, rfl, rfl, rfl, rfl⟩

end Sys2Proof.Machine
end

