-- ==== Sys2Proof/Proofs/Frame.lean ====
section
/-! PROOFS. The frame of a command part by part, and the refusal of a command (R12, R361). -/

namespace Sys2Proof.Machine

/-- A frame, part by part: each part is listed or the same. -/
theorem onlyIn_iff {ps : List Part} {s t : State} : OnlyIn ps s t ↔
    (.pending ∈ ps ∨ t.pending = s.pending) ∧ (.out ∈ ps ∨ t.out = s.out) ∧ (.sys ∈ ps ∨ t.sys = s.sys) ∧
    (.boot ∈ ps ∨ t.boot = s.boot) ∧ (.trust ∈ ps ∨ t.trust = s.trust) ∧ (.host ∈ ps ∨ t.host = s.host) ∧
    (.work ∈ ps ∨ t.work = s.work) ∧ (.pool ∈ ps ∨ t.pool = s.pool) ∧ (.net ∈ ps ∨ t.net = s.net) ∧
    (.basket ∈ ps ∨ t.basket = s.basket) ∧ (.evt ∈ ps ∨ t.evt = s.evt) ∧ (.flt ∈ ps ∨ t.flt = s.flt) ∧
    (.pwr ∈ ps ∨ t.pwr = s.pwr) ∧ (.usg ∈ ps ∨ t.usg = s.usg) := by
  have hiff : OnlyIn ps s t ↔ ∀ p, p ∈ ps ∨ Agree s t p :=
    ⟨fun h p => Classical.or_iff_not_imp_left.mpr (h.agree p), fun h => ⟨fun p hp => (h p).resolve_left hp⟩⟩
  rw [hiff]
  constructor
  · intro h
    exact ⟨h .pending, h .out, h .sys, h .boot, h .trust, h .host, h .work, h .pool, h .net, h .basket, h .evt, h .flt, h .pwr,
      h .usg⟩
  · rintro ⟨h1, h2, h3, h4, h5, h6, h7, h8, h9, h10, h11, h12, h13, h14⟩ p
    cases p <;> assumption

/-- Nothing changed. -/
theorem OnlyIn.refl (ps : List Part) (s : State) : OnlyIn ps s s := onlyIn_iff.mpr (by simp)

/-- A step that leaves each part not listed, repeated. -/
theorem foldl_onlyIn {α : Type} {ps : List Part} (g : State → α → State) (h : ∀ s x, OnlyIn ps s (g s x)) (l : List α) (s : State) :
    OnlyIn ps s (l.foldl g s) := by
  induction l generalizing s with
  | nil => exact OnlyIn.refl ps s
  | cons x l ih => exact ((h s x).trans (ih _)).mono (by simp)

/-! ### Refusals -/

section Refusal
variable (s u : State) (o : Origin) (code : Nat)

/-- FN_REJECT of the function that sent a refused command: its code, as a rejection of a command (R339). -/
@[simp] theorem State.refuse_rejCode : ((s.refuse o code).fn o.q.fnId).rejCode = code := by
  simp [State.refuse, State.reject]

@[simp] theorem State.refuse_rejSpace : ((s.refuse o code).fn o.q.fnId).rejSpace = 3 := by
  simp [State.refuse, State.reject]

theorem State.refuse_fn_ne {f : FnId} (h : f.key ≠ o.q.fnId.key) : (s.refuse o code).fn f = s.fn f := by
  simp [State.refuse, State.reject, State.modFn_ne _ _ _ h]

theorem State.refuse_onlyIn : OnlyIn [.work, .host] s (s.refuse o code) :=
  onlyIn_iff.mpr (by simp)

/-- A refusal on a state with the same queues completes the entry with its code. -/
theorem State.refuse_completes (hq : ∀ q, u.queue q = s.queue q) : Completes s (u.refuse o code) o code 0 := by
  have h : ∀ q, (u.reject o.q.fnId code 3 (o.q.q * 65536 + o.idx % 65536)).queue q = s.queue q := hq
  exact State.completes s _ o code 0 h

end Refusal

/-- What a refused command leaves and changes, once it is off the list of dispatched commands. -/
theorem State.refused_undispatch (s : State) (i : Instr) (o : Origin) (code : Nat) :
    ((s.undispatch i).refuse o code |>.fn o.q.fnId).rejCode = code ∧ ((s.undispatch i).refuse o code |>.fn o.q.fnId).rejSpace = 3 ∧
    (∀ f, f.key ≠ o.q.fnId.key → ((s.undispatch i).refuse o code).fn f = s.fn f) ∧
    (∀ f, ((s.undispatch i).refuse o code).finger f = s.finger f) ∧
    Completes s ((s.undispatch i).refuse o code) o code 0 ∧ OnlyIn [.work, .host] s ((s.undispatch i).refuse o code) :=
  ⟨State.refuse_rejCode .., State.refuse_rejSpace .., fun _ hf => State.refuse_fn_ne _ _ _ hf, fun _ => State.refuse_finger ..,
    State.refuse_completes _ _ _ _ (fun _ => rfl), onlyIn_iff.mpr (by simp)⟩

end Sys2Proof.Machine
end

