-- ==== Sys2Proof/Proofs/TreeFrames.lean ====
section
/-! PROOFS. What the integrity tree's work, the tables in force and the error logs leave (R131-R134, R197, R201, R665). -/

namespace Sys2Proof.Machine

/-! ### What the integrity tree's work leaves (R131, R133, R134, R665) -/

/-- A change inside the pool alone. -/
theorem onlyIn_pool (s : State) (p : Pool) : OnlyIn [.pool] s { s with pool := p } := onlyIn_iff.mpr (by simp)

/-- A frame may be read over a larger list. -/
theorem OnlyIn.toPoolNet {s t : State} (h : OnlyIn [.pool] s t) : OnlyIn [.pool, .net] s t := h.mono (by simp)

theorem OnlyIn.comp {ps : List Part} {s t u : State} (h : OnlyIn ps s t) (k : OnlyIn ps t u) : OnlyIn ps s u :=
  (h.trans k).mono (by simp)

theorem State.report_onlyIn (s : State) (r : FaultReport) : OnlyIn [.net] s (s.report r) := onlyIn_iff.mpr (by simp)

theorem State.hcPut_onlyIn (s : State) (b : Bool) (l i : Nat) (d : Line) (m : Bool) : OnlyIn [.pool] s (s.hcPut b l i d m) :=
  onlyIn_pool s _

theorem State.hbmWant_onlyIn (s : State) (q a : Nat) : OnlyIn [.pool] s (s.hbmWant q a) := onlyIn_pool s _

theorem State.readRoot_onlyIn (s : State) (b : Bool) (i : Nat) : OnlyIn [.pool, .net] s (s.readRoot b i).2 := by
  unfold State.readRoot
  split
  · exact .refl _ s
  · exact (s.report_onlyIn _).mono (by simp)

/-- Bringing a node in touches the tree's caches, and reports a root that does not verify. -/
theorem State.bring_onlyIn (s : State) (b : Bool) (n level i : Nat) : OnlyIn [.pool, .net] s (s.bring b n level i).2 := by
  induction n generalizing level i with
  | zero => exact .refl _ s
  | succ n ih =>
    unfold State.bring
    split
    · have hroot := s.readRoot_onlyIn b i
      split <;> simp_all
    · split
      · exact .refl _ s
      · dsimp only
        split
        · exact .refl _ s
        · have hup := ih (level + 1) (i / 8)
          split
          · simp_all
          · simp_all only
            split
            · exact hup.comp ((State.hcPut_onlyIn ..).comp (State.hbmWant_onlyIn ..)).toPoolNet
            · exact hup

theorem State.updateMac_onlyIn (s : State) (b : Bool) (l i c : Nat) (m : BitVec 64) :
    OnlyIn [.pool, .net] s (s.updateMac b l i c m).2 := by
  have h := s.bring_onlyIn b 8 l i
  unfold State.updateMac
  split
  · simp_all
  · simp_all only
    split
    · exact h.comp (onlyIn_pool _ _).toPoolNet
    · exact h.comp (State.hcPut_onlyIn ..).toPoolNet

theorem State.tablesChanged_onlyIn (s old : State) (ls : List Nat) : OnlyIn [.pool] s (s.tablesChanged old ls) :=
  foldl_onlyIn _ (fun s _ => (onlyIn_pool s _).comp (State.hcPut_onlyIn ..)) ls s

theorem State.setOwn_onlyIn (s : State) (p : Nat) (o : Own) : OnlyIn [.pool] s (s.setOwn p o) :=
  (onlyIn_pool s _).comp (State.tablesChanged_onlyIn ..)

theorem State.setPte_onlyIn (s : State) (g i : Nat) (e : Pte) : OnlyIn [.pool] s (s.setPte g i e) :=
  (onlyIn_pool s _).comp (State.tablesChanged_onlyIn ..)

theorem State.repairPage_onlyIn (s : State) (p : Nat) : OnlyIn [.pool, .net] s (s.repairPage p) := by
  unfold State.repairPage
  extract_lets other sPool s1 put s2 s3 s4
  have hput : ∀ (u : State) l i m, OnlyIn [.pool] u (put u l i m) := fun u _ _ _ => u.hcPut_onlyIn ..
  have h1 : OnlyIn [.pool] s s1 := onlyIn_pool s _
  have h2 : OnlyIn [.pool] s1 s2 := foldl_onlyIn _ (fun u _ => hput u ..) _ _
  have h3 : OnlyIn [.pool] s2 s3 := foldl_onlyIn _ (fun u _ => hput u ..) _ _
  exact ((h1.comp h2).comp (h3.comp (hput ..))).toPoolNet.comp (State.updateMac_onlyIn ..)

theorem State.releasePage_onlyIn (s : State) (p : Nat) : OnlyIn [.pool, .net] s (s.releasePage p) := by
  unfold State.releasePage
  extract_lets o lvl high repaired sPool s1 s2
  have h1 : OnlyIn [.pool, .net] s s1 := (onlyIn_pool s _).toPoolNet
  have h2 : OnlyIn [.pool, .net] s1 s2 := by
    simp only [s2]
    split
    · exact s1.repairPage_onlyIn p
    · exact .refl _ s1
  split
  · exact (h1.comp h2).comp ((onlyIn_pool s2 _).comp (State.setOwn_onlyIn ..)).toPoolNet
  · exact (h1.comp h2).comp (State.setOwn_onlyIn ..).toPoolNet

theorem State.writeOwn_onlyIn (s : State) (pages : List Nat) (owner : Option Nat) : OnlyIn [.pool, .net] s (s.writeOwn pages owner) := by
  have hdrop : OnlyIn [.pool, .net] s (s.dropOwnLines (pages.map (· / 8))) := (onlyIn_pool s _).toPoolNet
  refine hdrop.comp (foldl_onlyIn _ (fun u p => ?_) _ _)
  split
  · exact (State.setOwn_onlyIn ..).toPoolNet
  · exact u.releasePage_onlyIn p

/-! ### The start of a change of ownership (R132) -/

theorem State.pushE_onlyIn (s : State) (op : POp) (u d : Nat) : OnlyIn [.net] s (s.pushE op u d) := onlyIn_iff.mpr (by simp)

/-- A change of ownership that asks some gate waits for it (R132). -/
theorem State.startOwn_asks {s : State} {pages : List Nat} (hp : pages ≠ []) (hg : s.askedGates ≠ []) (owner : Option Nat) (thn : OwnThen) :
    ∃ t, s.startOwn pages owner thn = (t, false) ∧
      t.pool = { s.pool with owning := s.pool.owning ++ [{ pages := pages, waiting := s.askedGates, owner := owner, thn := thn }] } ∧
      OnlyIn [.pool, .net] s t := by
  have hfold : ∀ u : State, OnlyIn [.net] u (s.askedGates.foldl (fun s g =>
      (List.range (((pages.map (· / 8)).dedup.length + 63) / 64)).foldl (fun s _ => s.pushE .mgmt crownUnit (gateUnit g)) s) u) :=
    fun u => foldl_onlyIn _ (fun s g => foldl_onlyIn _ (fun s _ => s.pushE_onlyIn ..) _ s) _ u
  have hstart : s.startOwn pages owner thn = (s.askedGates.foldl (fun s g =>
      (List.range (((pages.map (· / 8)).dedup.length + 63) / 64)).foldl (fun s _ => s.pushE .mgmt crownUnit (gateUnit g)) s)
      { s with pool.owning := s.pool.owning ++ [{ pages := pages, waiting := s.askedGates, owner := owner, thn := thn }] }, false) := by
    simp [State.startOwn, hp, hg]
  have hnet := hfold { s with pool.owning := s.pool.owning ++
    [{ pages := pages, waiting := s.askedGates, owner := owner, thn := thn }] }
  refine ⟨_, hstart, hnet.agree .pool (by simp), ?_⟩
  exact (OnlyIn.trans (ps := [.pool]) (onlyIn_iff.mpr (by simp)) hnet).mono (by simp)

/-- A change of ownership that asks no gate is over at once (R132). -/
theorem State.startOwn_done {s : State} {pages : List Nat} (h : ¬(pages ≠ [] ∧ s.askedGates ≠ [])) (owner : Option Nat) (thn : OwnThen) :
    s.startOwn pages owner thn = (s.writeOwn pages owner, true) := by
  by_cases hp : pages = [] <;> simp_all [State.startOwn]

/-- A change of ownership starts, or is over at once, in the pool and the Weave. -/
theorem State.startOwn_onlyIn (s : State) (pages : List Nat) (owner : Option Nat) (thn : OwnThen) :
    OnlyIn [.pool, .net] s (s.startOwn pages owner thn).1 := by
  by_cases hask : pages ≠ [] ∧ s.askedGates ≠ []
  · obtain ⟨t, hstart, -, honly⟩ := State.startOwn_asks hask.1 hask.2 owner thn
    rw [hstart]
    exact honly
  · rw [State.startOwn_done hask]
    exact s.writeOwn_onlyIn ..

/-! ### Changes of the tables in force (R132, R197, R201) -/

/-- A change of the tables in force reaches the HBM copies and the caches of the HBM gates, and nothing else. -/
theorem State.tablesChanged_eq (s old : State) (ls : List Nat) :
    ∃ stale hgates, s.tablesChanged old ls = { s with pool.stale := stale, pool.hgates := hgates } := by
  unfold State.tablesChanged
  induction ls generalizing s with
  | nil => exact ⟨_, _, rfl⟩
  | cons l ls ih =>
    obtain ⟨stale, hgates, h⟩ := ih _
    exact ⟨stale, hgates, (List.foldl_cons ..).trans h⟩

/-- A page-table entry is written: the entry, and the copies of its line. -/
theorem State.setPte_eq (s : State) (g i : Nat) (e : Pte) :
    ∃ stale hgates tlines, s.setPte g i e =
      { s with pool.pts := s.pool.pts.set (g * 2 ^ 21 + i) e, pool.tlines := tlines, pool.stale := stale, pool.hgates := hgates } := by
  obtain ⟨stale, hgates, h⟩ := State.tablesChanged_eq { s with
    pool.pts := s.pool.pts.set (g * 2 ^ 21 + i) e
    pool.tlines := s.pool.tlines.filter (fun t => t.line != (s.ptBase g + 8 * i) / 64) } s [(s.ptBase g + 8 * i) / 64]
  exact ⟨stale, hgates, _, h⟩

/-- An ownership entry is written: the entry, and the copies of its line. -/
theorem State.setOwn_eq (s : State) (p : Nat) (o : Own) :
    ∃ stale hgates, s.setOwn p o = { s with pool.owns := s.pool.owns.set p o, pool.stale := stale, pool.hgates := hgates } :=
  State.tablesChanged_eq { s with pool.owns := s.pool.owns.set p o } s [p / 8]

/-- Page-table entries are written one after the other. -/
theorem State.setPtes_eq {α : Type} (g : Nat) (idx : α → Nat) (pte : α → Pte) (l : List α) (s : State) :
    ∃ pts tlines stale hgates, l.foldl (fun s x => s.setPte g (idx x) (pte x)) s =
      { s with pool.pts := pts, pool.tlines := tlines, pool.stale := stale, pool.hgates := hgates } := by
  induction l generalizing s with
  | nil => exact ⟨_, _, _, _, rfl⟩
  | cons x l ih =>
    obtain ⟨_, _, _, h⟩ := s.setPte_eq g (idx x) (pte x)
    obtain ⟨pts, tlines, stale, hgates, ht⟩ := ih (s.setPte g (idx x) (pte x))
    exact ⟨pts, tlines, stale, hgates, (List.foldl_cons ..).trans (by rw [ht, h])⟩

/-- Pages pass to an owner: their ownership entries and the gates' copies of them. -/
theorem State.writeOwn_eq (s : State) (pages : List Nat) (b : Nat) :
    ∃ owns gates stale hgates, s.writeOwn pages (some b) =
      { s with pool.owns := owns, pool.gates := gates, pool.stale := stale, pool.hgates := hgates } := by
  have hfold : ∀ (l : List Nat) (u : State), ∃ owns stale hgates,
      l.foldl (fun s p => s.setOwn p { (s.own p) with owner := b, state := 1 }) u =
        { u with pool.owns := owns, pool.stale := stale, pool.hgates := hgates } := by
    intro l
    induction l with
    | nil => exact fun u => ⟨_, _, _, rfl⟩
    | cons p l ih =>
      intro u
      obtain ⟨_, _, h⟩ := u.setOwn_eq p { (u.own p) with owner := b, state := 1 }
      obtain ⟨owns, stale, hgates, ht⟩ := ih (u.setOwn p { (u.own p) with owner := b, state := 1 })
      exact ⟨owns, stale, hgates, (List.foldl_cons ..).trans (by rw [ht, h])⟩
  obtain ⟨owns, stale, hgates, h⟩ := hfold pages (s.dropOwnLines (pages.map (· / 8)))
  exact ⟨owns, _, stale, hgates, h⟩

/-! ### What the operations of Fingers and error logs leave of the links -/

@[simp] theorem State.modFn_links (s : State) (f : FnId) (m : Fn → Fn) : (s.modFn f m).host.links = s.host.links := rfl

@[simp] theorem State.raiseCause_links (s : State) (f : FnId) (b : Nat) : (s.raiseCause f b).host.links = s.host.links := by
  unfold State.raiseCause
  split <;> simp

@[simp] theorem State.errLog_links (s : State) (f : FnId) (k c sp a tf tl g : Nat) :
    (s.errLog f k c sp a tf tl g).host.links = s.host.links := by
  simp only [State.errLog]
  split <;> simp

@[simp] theorem State.farSide_links (s : State) (f : FnId) (c sp a tf tl g u : Nat) :
    (s.farSide f c sp a tf tl g u).host.links = s.host.links := by
  simp [State.farSide]

@[simp] theorem State.aerTlp_links (s : State) (f : FnId) (e : Aer) (h : TlpHead) : (s.aerTlp f e h).host.links = s.host.links := rfl

@[simp] theorem State.unwait_links (s : State) (f : FgId) : (s.unwait f).host.links = s.host.links := rfl

@[simp] theorem State.fgFinish_links (s : State) (f : FgId) (c r : Nat) : (s.fgFinish f c r).host.links = s.host.links := by
  simp only [State.fgFinish]
  split <;> simp

@[simp] theorem State.fgSettle_links (s : State) (f : FgId) : (s.fgSettle f).host.links = s.host.links := by
  simp only [State.fgSettle]
  repeat' split
  all_goals simp

@[simp] theorem State.fgHalt_links (s : State) (f : FgId) (h : Halt) : (s.fgHalt f h).host.links = s.host.links := by
  simp only [State.fgHalt]
  split <;> simp

@[simp] theorem State.fgBoundary_links (s : State) (f : FgId) : (s.fgBoundary f).host.links = s.host.links := by
  simp only [State.fgBoundary]
  repeat' split
  all_goals simp

@[simp] theorem State.fgStopCode_links (s : State) (f : FgId) (c : Nat) : (s.fgStopCode f c).host.links = s.host.links := by
  simp only [State.fgStopCode]
  split <;> simp

@[simp] theorem State.fgStopCode_gtrust (s : State) (f : FgId) (c : Nat) : (s.fgStopCode f c).trust = s.trust := by
  simp only [State.fgStopCode]
  split <;> simp

@[simp] theorem State.fgReset_links (s : State) (f : FgId) : (s.fgReset f).host.links = s.host.links := by
  simp [State.fgReset]

end Sys2Proof.Machine
end

