-- ==== Sys2Proof/Proofs/PagesAndWindows.lean ====
section
/-! PROOFS. The admin commands on pages, windows and limits, and their refusals (R47, R77, R132, R196, R215-R222, R375, R378, R471). -/

namespace Sys2Proof.Machine

/-- A glove outside the link's range refuses the command (R47). -/
theorem State.gloveCmd_outside {s : State} {o : Origin} {g : Nat} (hs : s.serves = true) (he : s.fnExists o.q.fnId = true)
    (hg : s.linkHas o.q.link g = false) (i : Instr) (f : State → State) :
    s.gloveCmd i o g f = (s.undispatch i).refuse o 0x0108 := by
  have hu : (s.undispatch i).linkHas o.q.link g = false := hg
  simp [State.gloveCmd, hs, he, hu]

/-- A glove of the link's range: the command runs on the state with the command taken up (R372). -/
theorem State.gloveCmd_runs {s : State} {o : Origin} {g : Nat} (h : s.AdminRuns o g) (i : Instr) (f : State → State) :
    s.gloveCmd i o g f = f (s.undispatch i) := by
  obtain ⟨hs, he, hg⟩ := h
  have hu : (s.undispatch i).linkHas o.q.link g = true := hg
  simp [State.gloveCmd, hs, he, hu]

/-- Settles O7: each of the eight commands makes the same refusal. -/
theorem adminCommandsOutsideTheRangeAreRefused : Obligations.AdminCommandsOutsideTheRangeAreRefused := by
  intro s o g hs he hg c hc
  suffices hex : exec c s = .next ((s.undispatch c).refuse o 0x0108) from ⟨_, hex, s.refused_undispatch c o 0x0108⟩
  rcases hc with ⟨tk, td, ql, fl, rfl⟩ | rfl | ⟨h, ro, gr, m, a, rfl⟩ | ⟨mode, gr, m, a, rfl⟩ | ⟨mask, sh, ql, fl, r, rfl⟩ |
    ⟨sl, im, rfl⟩ | ⟨sl, rfl⟩ | ⟨hpf, hall, first, buf, len, rfl⟩
  case inr.inr.inr.inr.inr.inr.inr =>
    have hu : ∀ i, (s.undispatch i).linkHas o.q.link g = false := fun _ => hg
    simp [exec, execGetUsage, hs, he, hpf, hall, hu]
  all_goals
    simp only [exec, execOpenGlove, execCloseGlove, execGrantPages, execReclaimPages, execSetLimits, execSetPeerWindow,
      execClearPeerWindow, hg, Bool.false_and, Bool.false_eq_true, if_false, State.gloveCmd_outside hs he hg]

/-! ### The checks of a command -/

@[simp] theorem State.checked_nil (s : State) (o : Origin) (f : State → State) : s.checked o [] f = f s := rfl

@[simp] theorem State.checked_cons (s : State) (o : Origin) (b : Bool) (c : Nat) (cs : List (Bool × Nat)) (f : State → State) :
    s.checked o ((b, c) :: cs) f = if b then s.refuse o c else s.checked o cs f := by
  cases b <;> simp [State.checked]

theorem State.closedCode_none {s : State} {g : Nat} (h : (s.glove g).state = .opened ∨ (s.glove g).state = .keyPending) :
    s.closedCode g = none := by
  rcases h with h | h <;> simp [State.closedCode, h]

/-! ### Taking a command up leaves what its checks read -/

section Undispatch
variable (s : State) (i : Instr)

@[simp] theorem State.undispatch_closedCode (g : Nat) : (s.undispatch i).closedCode g = s.closedCode g := rfl
@[simp] theorem State.undispatch_pte (g n : Nat) : (s.undispatch i).pte g n = s.pte g n := rfl
@[simp] theorem State.undispatch_granting (g n : Nat) : (s.undispatch i).granting g n = s.granting g n := rfl
@[simp] theorem State.undispatch_span (l : Nat) : (s.undispatch i).span l = s.span l := rfl
@[simp] theorem State.undispatch_grantsStopped : (s.undispatch i).grantsStopped = s.grantsStopped := rfl
@[simp] theorem State.undispatch_freeCount : (s.undispatch i).freeCount = s.freeCount := rfl
@[simp] theorem State.undispatch_pages : (s.undispatch i).pages = s.pages := rfl
@[simp] theorem State.undispatch_peerKnown (n : Nat) : (s.undispatch i).peerKnown n = s.peerKnown n := rfl
@[simp] theorem State.undispatch_askedGates : (s.undispatch i).askedGates = s.askedGates := rfl
@[simp] theorem State.undispatch_entriesOf (g : Nat) (p : Pte → Bool) : (s.undispatch i).entriesOf g p = s.entriesOf g p := rfl
@[simp] theorem State.undispatch_vfOf (g : Nat) : (s.undispatch i).vfOf g = s.vfOf g := rfl
@[simp] theorem State.undispatch_topQueue (f : FnId) : (s.undispatch i).topQueue f = s.topQueue f := rfl
@[simp] theorem State.undispatch_fingerBound (f : FnId) (n : Nat) : (s.undispatch i).fingerBound f n = s.fingerBound f n := rfl
@[simp] theorem State.undispatch_contextsFull (q n : Nat) : (s.undispatch i).contextsFull q n = s.contextsFull q n := rfl

/-- The free pages depend on the ownership table alone. -/
theorem State.takeFree_congr {s : State} (t : State) (hp : t.pages = s.pages) (ho : ∀ p, t.own p = s.own p)
    (ht : ∀ p, t.pageTaken p = s.pageTaken p) (k p m : Nat) : t.takeFree k p m = s.takeFree k p m := by
  induction k generalizing p m with
  | zero => rfl
  | succ k ih => simp only [State.takeFree, hp, ho, ht, ih]

@[simp] theorem State.undispatch_takeFree (k p m : Nat) : (s.undispatch i).takeFree k p m = s.takeFree k p m :=
  State.takeFree_congr (s := s) (s.undispatch i) rfl (fun _ => rfl) (fun _ => rfl) k p m

end Undispatch

/-! ### GRANT_PAGES -/

/-- What GRANT_PAGES asks of the range: its entries are not valid, and no grant in progress writes them (R375). -/
def State.RangeFree (s : State) (g start m : Nat) : Prop :=
  ∀ i < m, (s.pte g (start / 0x200000 + i)).valid = false ∧ s.granting g (start / 0x200000 + i) = false

theorem State.RangeFree.not_exists {s : State} {g start m : Nat} (h : s.RangeFree g start m) :
    ¬ ∃ i < m, (s.pte g (start / 0x200000 + i)).valid = true ∨ s.granting g (start / 0x200000 + i) = true := by
  rintro ⟨i, hi, hor⟩
  obtain ⟨hvalid, hgranting⟩ := h i hi
  simp [hvalid, hgranting] at hor

section Grant
variable {s : State} {o : Origin} {g group m start : Nat} {ro : Bool}

/-- The page-table entries of a grant of this device's pages. -/
def State.grantPtes (s : State) (group m start : Nat) (ro : Bool) : List (Nat × Nat × Nat × Bool) :=
  (s.takeFree s.pages 0 m).zipIdx.map (fun (p, i) => (start / 0x200000 + i, p, group, ro))

/-- A grant of this device's pages passes its checks and changes their ownership. -/
theorem exec_grantPages_home (hr : s.AdminRuns o g) (hst : (s.glove g).state = .opened ∨ (s.glove g).state = .keyPending)
    (hal : start % 0x200000 = 0) (hm : 0 < m) (hspan : start + m * 0x200000 ≤ s.span o.q.link) (hfree : s.RangeFree g start m)
    (hstop : s.grantsStopped = false) (hcount : m ≤ s.freeCount) {t : State} {done : Bool}
    (hstart : (s.undispatch (.grantPages o g s.boot.cfg.pos ro group m start)).startOwn (s.takeFree s.pages 0 m) (some g)
      (.grant o g (s.grantPtes group m start ro)) = (t, done)) :
    exec (.grantPages o g s.boot.cfg.pos ro group m start) s =
      .next (if done then t.grantDone o g s.boot.cfg.pos (s.grantPtes group m start ro) else t) := by
  rw [State.grantPtes] at hstart ⊢
  simp [exec, execGrantPages, State.gloveCmd_runs hr, State.closedCode_none hst, hal, hm.ne', Nat.not_lt.mpr hspan,
    hfree.not_exists, hstop, Nat.not_lt.mpr hcount, hstart]

@[simp] theorem State.length_grantPtes (s : State) (group m start : Nat) (ro : Bool) :
    (s.grantPtes group m start ro).length = (s.takeFree s.pages 0 m).length := by simp [State.grantPtes]

/-- A grant of pages leaves the gloves, the functions and the queues but for the completion (R230, R377). -/
theorem State.grantDone_eq (s : State) (o : Origin) (g home : Nat) (ptes : List (Nat × Nat × Nat × Bool)) :
    ∃ pts tlines stale hgates, s.grantDone o g home ptes =
      ({ s with pool.pts := pts, pool.tlines := tlines, pool.stale := stale, pool.hgates := hgates } : State).complete o 0 ptes.length := by
  obtain ⟨pts, tlines, stale, hgates, h⟩ := s.setPtes_eq g (fun (e : Nat × Nat × Nat × Bool) => e.1)
    (fun e => { group := e.2.2.1, page := e.2.1, home := home, readOnly := e.2.2.2, valid := true }) ptes
  exact ⟨pts, tlines, stale, hgates, congrArg (fun t => t.complete o 0 ptes.length) h⟩


/-- Settles O8: a peer's pages are refused by the third check, and this device's own are granted. -/
theorem peerPagesInKeyPendingAreRefused : Obligations.PeerPagesInKeyPendingAreRefused := by
  intro s o g hr hst ro group m start hal hm
  refine ⟨fun home hhome hknown => ?_, fun hspan hfree hstop hcount => ?_⟩
  · have hex : exec (.grantPages o g home ro group m start) s =
        .next ((s.undispatch (.grantPages o g home ro group m start)).refuse o 0x0104) := by
      simp [exec, execGrantPages, State.gloveCmd_runs hr, State.closedCode_none (.inr hst), hal, hm.ne', hhome, hknown, hst]
    obtain ⟨hcode, -, hfn, hfinger, hcompletes, honly⟩ := s.refused_undispatch (.grantPages o g home ro group m start) o 0x0104
    exact ⟨_, hex, hcode, hfn, hfinger, hcompletes, honly⟩
  · have hex := @exec_grantPages_home s o g group m start ro hr (.inr hst) hal hm hspan hfree hstop hcount
    by_cases hask : s.takeFree s.pages 0 m ≠ [] ∧ s.askedGates ≠ []
    · obtain ⟨t, hstart, hpool, honly⟩ := State.startOwn_asks
        (s := s.undispatch (.grantPages o g s.boot.cfg.pos ro group m start)) hask.1 hask.2 (some g)
        (.grant o g (s.grantPtes group m start ro))
      refine ⟨t, hex hstart, honly.agree .host (by simp), ?_, .inl ?_⟩
      · exact congrArg (fun x : Trust => x.gloves.get {} g) (honly.agree .trust (by simp))
      · rw [hpool]
        exact ⟨_, List.mem_append_right _ (List.mem_singleton_self _), rfl, rfl⟩
    · obtain ⟨owns, gates, stale, hgates, hwrite⟩ :=
        (s.undispatch (.grantPages o g s.boot.cfg.pos ro group m start)).writeOwn_eq (s.takeFree s.pages 0 m) g
      obtain ⟨pts, tlines, stale', hgates', hdone⟩ :=
        State.grantDone_eq ((s.undispatch (.grantPages o g s.boot.cfg.pos ro group m start)).writeOwn (s.takeFree s.pages 0 m) (some g))
          o g s.boot.cfg.pos (s.grantPtes group m start ro)
      refine ⟨_, hex (State.startOwn_done (s := s.undispatch _) hask _ _), ?_⟩
      rw [if_pos rfl, hdone, hwrite, State.length_grantPtes]
      refine ⟨State.complete_ghost .., State.complete_glove .., .inr ?_⟩
      exact State.completes s _ o 0 _ (fun _ => rfl)

end Grant

/-! ### Pages and windows -/

section Windows
variable {s : State} {o : Origin} {g : Nat}

/-- The change of a glove's tables that has begun: the glove holds it, and nothing else of gloves, queues and Fingers changes. -/
theorem State.beginChange_undispatch (s : State) (i : Instr) (o : Origin) (g : Nat) (c : Change) :
    ((s.undispatch i).beginChange g o c).glove g = { s.glove g with updating := true, change := some { origin := o, change := c } } ∧
    (∀ j, j ≠ g → ((s.undispatch i).beginChange g o c).glove j = s.glove j) ∧
    (∀ q, ((s.undispatch i).beginChange g o c).queue q = s.queue q) ∧
    OnlyIn [.work, .trust] s ((s.undispatch i).beginChange g o c) := by
  refine ⟨State.modGlove_same .., fun j hj => ?_, fun _ => rfl, onlyIn_iff.mpr (by simp)⟩
  rw [State.beginChange, State.modGlove_ne _ _ _ hj, State.undispatch_glove]

theorem exec_reclaimPages_range (hr : s.AdminRuns o g) (hst : (s.glove g).state = .opened ∨ (s.glove g).state = .keyPending)
    {m start : Nat} (hal : start % 0x200000 = 0) (hm : 0 < m) (hw : s.changeWaits (.reclaimPages o g 0 0 m start) g = false)
    (htdi : (s.glove g).tdiLive = false) (hvalid : ∀ i < m, (s.pte g (start / 0x200000 + i)).valid = true) :
    exec (.reclaimPages o g 0 0 m start) s = .next
      ((s.undispatch (.reclaimPages o g 0 0 m start)).beginChange g o (.reclaim ((List.range m).map (· + start / 0x200000)))) := by
  have hno : ¬ ∃ i < m, (s.pte g (start / 0x200000 + i)).valid = false := fun ⟨i, hi, h⟩ => by simp [hvalid i hi] at h
  simp [exec, execReclaimPages, State.gloveCmd_runs hr, State.closedCode_none hst, hal, hm.ne', hw, htdi, hno]

theorem exec_reclaimPages_group (hr : s.AdminRuns o g) (hst : (s.glove g).state = .opened ∨ (s.glove g).state = .keyPending)
    {group : Nat} (hg : 0 < group) (hw : s.changeWaits (.reclaimPages o g 1 group 0 0) g = false)
    (htdi : (s.glove g).tdiLive = false) (hne : s.entriesOf g (fun e => e.group == group) ≠ []) :
    exec (.reclaimPages o g 1 group 0 0) s = .next
      ((s.undispatch (.reclaimPages o g 1 group 0 0)).beginChange g o (.reclaim (s.entriesOf g (fun e => e.group == group)))) := by
  simp [exec, execReclaimPages, State.gloveCmd_runs hr, State.closedCode_none hst, hg.ne', hw, htdi, hne]

/-- The window of a slot image (R215). -/
def imageWindow (v : Nat) : Window :=
  .valid (bits v 41 0) (bits v 106 64) (bits v 191 128) (bits v 201 192) (bitAt v 203) (bitAt v 202) false

/-- A window that lies apart from the image's range. -/
def Window.apart (v : Nat) (w : Window) : Prop :=
  ∀ a n h tg rd wr c, w = .valid a n h tg rd wr c → bits v 41 0 + bits v 106 64 ≤ a ∨ a + n ≤ bits v 41 0

theorem exec_setPeerWindow (hr : s.AdminRuns o g) (hst : (s.glove g).state = .opened ∨ (s.glove g).state = .keyPending)
    {slot : Nat} {image : BitVec 256} (hw : s.changeWaits (.setPeerWindow o g slot image) g = false)
    (htdi : (s.glove g).tdiLive = false) (hbad : imageBad image.toNat = false) (hslot : slot ≤ 15)
    (happart : ∀ e ∈ (s.glove g).windows, e.1 = slot ∨ e.2.apart image.toNat)
    (htarget : (s.glove (bits image.toNat 201 192)).state = .opened) :
    exec (.setPeerWindow o g slot image) s = .next
      ((s.undispatch (.setPeerWindow o g slot image)).beginChange g o (.window slot (imageWindow image.toNat))) := by
  simp only [exec, execSetPeerWindow, hw, Bool.and_false, Bool.false_eq_true, if_false, State.gloveCmd_runs hr, State.checked_cons,
    State.checked_nil, State.undispatch_closedCode, State.closedCode_none hst, Option.isSome_none, hbad, State.undispatch_glove,
    htarget, htdi, imageWindow, decide_eq_true_eq, Nat.not_lt.mpr hslot, bne_self_eq_false]
  refine congrArg Host.Outcome.next (if_neg ?_)
  rw [Bool.not_eq_true, List.any_eq_false]
  rintro ⟨k, w⟩ hmem
  rcases happart _ hmem with rfl | hap
  · simp
  · cases w with
    | valid a n h tg rd wr c =>
      have := hap a n h tg rd wr c rfl
      simp
      omega
    | _ => simp

theorem exec_clearPeerWindow (hr : s.AdminRuns o g) (hst : (s.glove g).state = .opened ∨ (s.glove g).state = .keyPending)
    {slot : Nat} (hw : s.changeWaits (.clearPeerWindow o g slot) g = false) (htdi : (s.glove g).tdiLive = false) (hslot : slot ≤ 15) :
    exec (.clearPeerWindow o g slot) s = .next
      ((s.undispatch (.clearPeerWindow o g slot)).beginChange g o (.clearWindow slot)) := by
  simp [exec, execClearPeerWindow, State.gloveCmd_runs hr, State.closedCode_none hst, hw, htdi, Nat.not_lt.mpr hslot]

/-- A grant of a peer's pages passes its checks and begins the exchange of R471. -/
theorem exec_grantPages_peer (hr : s.AdminRuns o g) {home group m start : Nat} {ro : Bool} (hal : start % 0x200000 = 0) (hm : 0 < m)
    (hspan : start + m * 0x200000 ≤ s.span o.q.link) (hfree : s.RangeFree g start m) (hhome : home ≠ s.boot.cfg.pos)
    (hknown : s.peerKnown home = true) (hst : (s.glove g).state = .opened) (hadm : (s.peer home).state = .admitted)
    (hbarred : (s.glove g).barred.contains home = false) :
    exec (.grantPages o g home ro group m start) s = .next (
      let u : State := { s.undispatch (.grantPages o g home ro group m start) with basket.grants := s.basket.grants ++
        [{ origin := o, glove := g, home := home, readOnly := ro, group := group, m := m, start := start }] }
      if (s.glove g).guests.contains home then u.askPages home g m else u.askKey home g) := by
  simp [exec, execGrantPages, State.gloveCmd_runs hr, State.closedCode_none (.inl hst), hal, hm.ne', Nat.not_lt.mpr hspan,
    hfree.not_exists, hhome, hknown, hadm, hst, -List.contains_eq_mem, hbarred]

@[simp] theorem State.sendMgmt_peer (s : State) (n : Nat) (m : MgmtMsg) (j : Nat) : (s.sendMgmt n m).peer j = s.peer j := rfl

/-- A request to a peer joins those that wait for an answer; the gloves, queues and grants stay. -/
theorem State.mgmtAsk_mgmt (s : State) (n g : Nat) (m : Mgmt) (msg : MgmtMsg) :
    ((s.mgmtAsk n g m msg).peer n).mgmt = (s.peer n).mgmt ++ [{ glove := g, msg := m }] := by
  simp [State.mgmtAsk]

theorem State.mgmtAsk_onlyIn (s : State) (n g : Nat) (m : Mgmt) (msg : MgmtMsg) :
    OnlyIn [.basket, .out] s (s.mgmtAsk n g m msg) := onlyIn_iff.mpr (by simp)

@[simp] theorem State.mgmtAsk_grants (s : State) (n g : Nat) (m : Mgmt) (msg : MgmtMsg) :
    (s.mgmtAsk n g m msg).basket.grants = s.basket.grants := rfl

/-! ### SET_LIMITS -/

/-- What SET_LIMITS asks of the fields it selects (R378). -/
structure State.LimitsFit (s : State) (l g mask share ql fl rate : Nat) : Prop where
  share : bitAt mask 0 = true → share ≤ s.boot.cfg.tierMax
  queues : bitAt mask 1 = true → ql ≤ 64 ∧ s.topQueue ((s.vfOf g).getD ⟨0, 0⟩) ≤ ql
  rate : bitAt mask 3 = true → 0 < rate ∧ rate ≤ 64
  fingers : bitAt mask 2 = true → fl ≤ 16 ∧ (∀ i < 16, fl ≤ i → s.fingerBound ((s.vfOf g).getD ⟨0, 0⟩) i = false) ∧
    s.contextsFull (linkQuad l) (fl - (s.glove g).fingerLimit) = false

/-- The limits of a glove with the fields that a mask selects. -/
def Glove.withLimits (x : Glove) (mask share ql fl rate : Nat) : Glove :=
  { x with share := if bitAt mask 0 then share else x.share, queueLimit := if bitAt mask 1 then ql else x.queueLimit
           fingerLimit := if bitAt mask 2 then fl else x.fingerLimit, rate := if bitAt mask 3 then rate else x.rate }

theorem exec_setLimits (hr : s.AdminRuns o g) (hst : (s.glove g).state = .opened ∨ (s.glove g).state = .keyPending)
    (htdi : (s.glove g).tdiLive = false) {mask share ql fl rate : Nat} (hfit : s.LimitsFit o.q.link g mask share ql fl rate) :
    exec (.setLimits o g mask share ql fl rate) s = .next (
      let u := s.undispatch (.setLimits o g mask share ql fl rate)
      ((if bitAt mask 2 then u.setFingers ((s.vfOf g).getD ⟨0, 0⟩) (s.glove g).fingerLimit fl else u).modGlove g
        (·.withLimits mask share ql fl rate)).complete o 0 0) := by
  have hbad : (bitAt mask 0 && decide (s.boot.cfg.tierMax < share) ||
      bitAt mask 1 && (decide (64 < ql) || decide (ql < s.topQueue ((s.vfOf g).getD ⟨0, 0⟩))) ||
      bitAt mask 2 && (decide (16 < fl) ||
        (List.range 16).any (fun i => decide (fl ≤ i) && s.fingerBound ((s.vfOf g).getD ⟨0, 0⟩) i)) ||
      bitAt mask 3 && (rate == 0 || decide (64 < rate))) = false := by
    simp only [Bool.or_eq_false_iff, Bool.and_eq_false_imp, decide_eq_false_iff_not, Nat.not_lt, beq_eq_false_iff_ne,
      List.any_eq_false, List.mem_range, decide_eq_true_eq, Bool.and_eq_true, not_and, Bool.not_eq_true]
    refine ⟨⟨⟨hfit.share, hfit.queues⟩, fun h2 => ?_⟩, fun h3 => ⟨(hfit.rate h3).1.ne', (hfit.rate h3).2⟩⟩
    obtain ⟨hmax, hbound, -⟩ := hfit.fingers h2
    exact ⟨hmax, hbound⟩
  have hfull : (bitAt mask 2 && s.contextsFull (linkQuad o.q.link) (fl - (s.glove g).fingerLimit)) = false := by
    simp only [Bool.and_eq_false_imp]
    exact fun h2 => (hfit.fingers h2).2.2
  simp only [exec, execSetLimits, State.gloveCmd_runs hr, State.checked_cons, State.checked_nil, State.undispatch_closedCode,
    State.closedCode_none hst, Option.isSome_none, Bool.false_eq_true, if_false, State.undispatch_glove, htdi]
  refine congrArg Host.Outcome.next ((if_neg ?_).trans ((if_neg ?_).trans rfl))
  · exact Bool.not_eq_true _ ▸ hbad
  · exact Bool.not_eq_true _ ▸ hfull

/-- A change of a Finger limit moves Fingers alone. -/
@[simp] theorem State.setFingers_queue (s : State) (f : FnId) (old new : Nat) (q : QId) :
    (s.setFingers f old new).queue q = s.queue q := by
  have h : (s.setFingers f old new).work.queues = s.work.queues :=
    (foldl_same (fun s => s.work.queues) _ _ _ (fun s x => by split <;> rfl)).trans
      (foldl_same (fun s => s.work.queues) _ _ _ (fun s x => by split <;> rfl))
  simp only [State.queue, h]

/-- SET_LIMITS changes the selected limits, and the Fingers with the Finger limit. -/
theorem exec_setLimits_effect (hr : s.AdminRuns o g) (hst : (s.glove g).state = .opened ∨ (s.glove g).state = .keyPending)
    (htdi : (s.glove g).tdiLive = false) {mask share ql fl rate : Nat} (hfit : s.LimitsFit o.q.link g mask share ql fl rate) :
    ∃ t, exec (.setLimits o g mask share ql fl rate) s = .next t ∧ t.glove g = (s.glove g).withLimits mask share ql fl rate ∧
      (∀ j, j ≠ g → t.glove j = s.glove j) ∧ (bitAt mask 2 = false → ∀ f, t.finger f = s.finger f) ∧ Completes s t o 0 0 ∧
      OnlyIn [.work, .trust] s t := by
  refine ⟨_, exec_setLimits hr hst htdi hfit, ?_⟩
  by_cases h2 : bitAt mask 2 = true
  · simp only [h2, if_true]
    refine ⟨?_, fun j hj => ?_, ?_, ?_, onlyIn_iff.mpr (by simp)⟩
    · rw [State.complete_glove, State.modGlove_same, State.setFingers_glove, State.undispatch_glove]
    · rw [State.complete_glove, State.modGlove_ne _ _ _ hj, State.setFingers_glove, State.undispatch_glove]
    · simp
    · exact State.completes _ _ _ _ _ (fun q => by simp)
  · simp only [h2, Bool.false_eq_true, if_false]
    refine ⟨?_, fun j hj => ?_, fun _ f => ?_, ?_, onlyIn_iff.mpr (by simp)⟩
    · rw [State.complete_glove, State.modGlove_same, State.undispatch_glove]
    · rw [State.complete_glove, State.modGlove_ne _ _ _ hj, State.undispatch_glove]
    · simp
    · exact State.completes _ _ _ _ _ (fun q => by simp)

end Windows

/-- Settles O19: a change of tables or ownership begins with the checks passed, and SET_LIMITS is one change of the glove. -/
theorem pageAndWindowCommandsComplete : Obligations.PageAndWindowCommandsComplete := by
  intro s o g hr hst
  refine ⟨fun ro group m start hal hm hspan hfree hstop hcount hpages hgates => ?_, fun m start hal hm hw htdi hvalid => ?_,
    fun slot image hw htdi hbad hslot hapart htarget => ?_, fun slot hw htdi hslot => ?_, fun share rate htdi hshare hrate hmax => ?_,
    fun group hg hw htdi hne => ?_, fun home ro group m start hal hm hspan hfree hhome hknown hopen hadm hbarred => ?_,
    fun mask share ql fl rate htdi hshare hqueues hrate hfingers => ?_⟩
  · obtain ⟨t, hstart, hpool, honly⟩ := State.startOwn_asks (s := s.undispatch (.grantPages o g s.boot.cfg.pos ro group m start))
      hpages hgates (some g) (.grant o g (s.grantPtes group m start ro))
    refine ⟨t, exec_grantPages_home hr hst hal hm hspan hfree hstop hcount hstart, ?_, ?_, ?_, fun q => ?_, ?_⟩
    · rw [hpool]; rfl
    · rw [hpool]; rfl
    · rw [hpool]; rfl
    · exact congrArg (fun x : Work => x.queues.get {} q.key) (honly.agree .work (by simp))
    · exact (OnlyIn.trans (ps := [.work]) (onlyIn_iff.mpr (by simp)) honly).mono (by simp)
  · exact ⟨_, exec_reclaimPages_range hr hst hal hm hw htdi hvalid, s.beginChange_undispatch ..⟩
  · exact ⟨_, exec_setPeerWindow hr hst hw htdi hbad hslot hapart htarget, s.beginChange_undispatch ..⟩
  · exact ⟨_, exec_clearPeerWindow hr hst hw htdi hslot, s.beginChange_undispatch ..⟩
  · obtain ⟨t, hex, hglove, hothers, hfinger, hcompletes, honly⟩ :=
      exec_setLimits_effect hr hst htdi (mask := 0b1001) (share := share) (ql := 0) (fl := 0) (rate := rate)
        ⟨fun _ => hshare, fun h => absurd h (by decide), fun _ => ⟨hrate, hmax⟩, fun h => absurd h (by decide)⟩
    exact ⟨t, hex, hglove, hothers, hfinger (by decide), hcompletes, honly⟩
  · exact ⟨_, exec_reclaimPages_group hr hst hg hw htdi hne, s.beginChange_undispatch ..⟩
  · refine ⟨_, exec_grantPages_peer hr hal hm hspan hfree hhome hknown hopen hadm hbarred, ?_⟩
    split
    · refine ⟨rfl, State.mgmtAsk_mgmt .., fun q => ?_, fun j => ?_, onlyIn_iff.mpr (by simp)⟩
      · rw [State.askPages_queue]; rfl
      · rw [State.askPages_glove]; rfl
    · refine ⟨rfl, State.mgmtAsk_mgmt .., fun q => ?_, fun j => ?_, onlyIn_iff.mpr (by simp)⟩
      · rw [State.askKey_queue]; rfl
      · rw [State.askKey_glove]; rfl
  · obtain ⟨t, hex, hglove, hothers, -, hcompletes, honly⟩ := exec_setLimits_effect hr hst htdi ⟨hshare, hqueues, hrate, hfingers⟩
    exact ⟨t, hex, hglove, hothers, hcompletes, honly⟩

end Sys2Proof.Machine
end

