-- ==== Sys2Proof/Proofs/Epochs.lean ====
section
/-! PROOFS. The end of an epoch change (R202, R224, R225). -/

namespace Sys2Proof.Machine

/-! ### The end of an epoch change -/

/-- Nothing waits at the Cuff of the glove's link. -/
theorem State.pumpHeld_nil {s : State} {l : Nat} (h : (s.link l).held = []) : s.pumpHeld l = s := by
  simp [State.pumpHeld, h]

/-- The checkers reopen, with nothing waiting behind them. -/
theorem State.reopen_nil {s : State} (h : ∀ l, (s.link l).held = []) (g : Nat) :
    s.reopen g = s.modGlove g (fun x => { x with updating := false }) := by
  simp only [State.reopen]
  split
  · exact State.pumpHeld_nil (by rw [State.modGlove_link]; exact h _)
  · rfl

/-- The end of a change of rules drops the translations of the glove, and with them what its table reads under way were for (R202). -/
theorem exec_epochDrainDone_rules_net {s : State} {g : Nat} {c : EpochChange} {rs : List Region} (hs : s.serves = true)
    (hc : (s.glove g).change = some c) (hd : c.draining = true) (hh : ∀ l, (s.link l).held = []) (hdr : s.drained g = true)
    (hrs : c.change = .rules rs) {t : State} (ht : exec (.epochDrainDone g) s = .next t) : t.net = (s.dropTranslations g).net := by
  let u := s.modGlove g (fun x => { x with change := some { c with draining := false } })
  obtain ⟨stale, hgates, hput⟩ := State.tablesChanged_eq (u.modGlove g (fun x => { x with rules := rs })) u (ruleLines g)
  have hex : exec (.epochDrainDone g) s = .next
      (((((u.putRules g rs).dropTranslations g).modGlove g (fun x => { x with epoch := (x.epoch + 1) % 2 ^ 31 })).endChange g 0).reopen g) := by
    simp [exec, execEpochDrainDone, hs, hc, hd, hdr, hrs, State.applyChange, u]
  rw [hex] at ht
  obtain rfl := Host.Outcome.next.inj ht
  rw [State.reopen_nil (fun l => ?_), State.modGlove_gnet, State.endChange_gnet, State.modGlove_gnet, State.putRules, hput]
  · rfl
  · rw [State.endChange_link, State.modGlove_link, State.dropTranslations_link, State.putRules, hput]
    exact hh l

/-- A change of the rules of glove 0 that has drained, while a checker still reads a line of the glove's page table for a Finger. -/
def tableReadUnderChange : State :=
  { sys := { devRst := false, mode := .service }
    boot := { cfg := { cuffModes := [1], ranges := [(0, 1)], bars := [(true, 22)] } }
    trust := { gloves := [(0, { state := .opened, updating := true, change := some { origin := ⟨⟨0, 1, 0⟩, 0⟩, change := .rules [] } })] }
    net := { outst := [{ unit := engineUnit 0, tag := 0, ctx := .tableRead 0 524288, pkt := { op := .memRd, addr := tableBase + 0x2000000, len := 64 },
                         left := 1 }] } }

/-- Refutes O20: the end of a rule change turns a read of the glove's table lines under way into one that fills nothing (R202), so it
changes the Weave's part of the state, which the clause says it leaves. -/
theorem not_epochAndOwnershipChangesComplete : ¬ Obligations.EpochAndOwnershipChangesComplete := by
  rintro ⟨h, -⟩
  have hheld : ∀ l, (tableReadUnderChange.link l).held = [] := fun _ => rfl
  have hdr : tableReadUnderChange.drained 0 = true := by decide
  obtain ⟨hrules, -⟩ := h tableReadUnderChange 0 _ (by decide) rfl rfl hheld
  obtain ⟨t, ht, -, -, -, honly⟩ := hrules [] hdr rfl
  have hnet := exec_epochDrainDone_rules_net (by decide) rfl rfl hheld hdr rfl ht
  rw [show t.net = tableReadUnderChange.net from honly.agree .net (by simp)] at hnet
  exact absurd (congrArg Net.outst hnet) (by decide)

end Sys2Proof.Machine
end

