-- ==== Sys2Proof/Proofs/Gloves.lean ====
section
/-! PROOFS. How gloves open and close (R48-R56, R65, R205, R376). -/

namespace Sys2Proof.Machine

/-! ### What a close leaves: the gloves and the Band, and the requests held at the Cuffs -/

/-- The gloves, keys and shares are the same, and so are the requests held at each Cuff. -/
structure State.SameHeld (s t : State) : Prop where
  trust : t.trust = s.trust
  held : ∀ l, (t.link l).held = (s.link l).held

theorem State.SameHeld.refl (s : State) : s.SameHeld s := ⟨rfl, fun _ => rfl⟩

theorem State.SameHeld.trans {s t u : State} (h : s.SameHeld t) (k : t.SameHeld u) : s.SameHeld u :=
  ⟨k.trust.trans h.trust, fun l => (k.held l).trans (h.held l)⟩

/-- A change outside the links. -/
theorem State.SameHeld.of_links {s t : State} (ht : t.trust = s.trust) (hl : t.host.links = s.host.links) : s.SameHeld t :=
  ⟨ht, fun l => by simp only [State.link, hl]⟩

theorem State.SameHeld.of_host {s t : State} (ht : t.trust = s.trust) (hh : t.host = s.host) : s.SameHeld t :=
  .of_links ht (by rw [hh])

/-- A change of one link that leaves what is held there. -/
theorem State.modLink_sameHeld (s : State) (l : Nat) (m : Link → Link) (h : ∀ x, (m x).held = x.held) : s.SameHeld (s.modLink l m) where
  trust := rfl
  held j := by
    by_cases hj : j = l
    · rw [hj, State.modLink_same, h]
    · rw [State.modLink_ne _ _ _ hj]

theorem foldl_sameHeld {α : Type} (g : State → α → State) (h : ∀ (s : State) (x : α), s.SameHeld (g s x)) (l : List α) (s : State) :
    s.SameHeld (l.foldl g s) := by
  induction l generalizing s with
  | nil => exact .refl s
  | cons x l ih => exact (h s x).trans (ih _)

theorem State.failDev_sameHeld (s : State) (p : Packet) (code : Nat) : s.SameHeld (s.failDev p code) := by
  simp only [State.failDev]
  split
  · exact .of_links (by simp) (by simp)
  · exact .of_host (by simp) (by simp)

theorem State.dropPosted_sameHeld (s : State) (l : Nat) (hit : Packet → Bool) (code : Nat) : s.SameHeld (s.dropPosted l hit code) := by
  unfold State.dropPosted
  extract_lets lost u
  have hu : s.SameHeld u := s.modLink_sameHeld l _ fun _ => rfl
  refine hu.trans (foldl_sameHeld _ (fun u t => ?_) _ _)
  split
  · exact u.failDev_sameHeld ..
  · exact .refl u

theorem State.endDev_sameHeld (s : State) (l : Nat) (p : Packet) (code : Nat) : s.SameHeld (s.endDev l p code) := by
  have h : s.SameHeld (s.forgetDev l p) := s.modLink_sameHeld l _ fun _ => rfl
  exact h.trans (State.failDev_sameHeld ..)

theorem State.dropReads_sameHeld (s : State) (l : Nat) (hit : Packet → Bool) (code : Nat) : s.SameHeld (s.dropReads l hit code) :=
  foldl_sameHeld _ (fun u d => u.endDev_sameHeld ..) _ _

theorem State.hostUr_sameHeld (s : State) (f : FnId) (t : TlpHead) : s.SameHeld (s.hostUr f t) := .of_links rfl rfl

theorem State.complete_sameHeld (s : State) (o : Origin) (c r : Nat) : s.SameHeld (s.complete o c r) := .of_host (by simp) (by simp)

theorem State.closeRules_sameHeld (s : State) (g : Nat) : s.SameHeld (s.closeRules g) := by
  unfold State.closeRules
  extract_lets os uNet u
  have hu : s.SameHeld u := .of_host rfl rfl
  exact hu.trans (foldl_sameHeld _ (fun v o => v.complete_sameHeld ..) _ _)

theorem State.closeRequests_sameHeld (s : State) (g : Nat) : s.SameHeld (s.closeRequests g) := by
  unfold State.closeRequests
  extract_lets mine fingers gone queued waits left soft unlocked sNet sPool s1 s2 s3 s4
  have h1 : s.SameHeld s1 := .of_host rfl rfl
  have h2 : s1.SameHeld s2 := foldl_sameHeld _ (fun u e => by
    split
    · exact .refl u
    · exact u.modLink_sameHeld _ _ fun _ => rfl) _ _
  have h3 : s2.SameHeld s3 := foldl_sameHeld _ (fun u r => by
    split
    · exact .of_links rfl rfl
    · exact .refl u) _ _
  have h4 : s3.SameHeld s4 := foldl_sameHeld _ (fun u r => .of_host (by simp) (by simp)) _ _
  refine (h1.trans h2).trans ((h3.trans h4).trans (foldl_sameHeld _ (fun u r => ?_) _ _))
  split
  · exact u.hostUr_sameHeld ..
  · exact .of_links (by simp) (by simp)
  · exact .refl u

theorem State.closeAtomics_sameHeld (s : State) (l g : Nat) : s.SameHeld (s.closeAtomics l g) := by
  unfold State.closeAtomics
  extract_lets c idle u
  have hu : s.SameHeld u := .of_links rfl rfl
  refine hu.trans (foldl_sameHeld _ (fun u k => ?_) _ _)
  split
  · exact .refl u
  · exact u.hostUr_sameHeld ..

theorem State.closeAimed_sameHeld (s : State) (f : FnId) : s.SameHeld (s.closeAimed f) :=
  ((s.dropReads_sameHeld ..).trans (State.dropPosted_sameHeld ..)).trans (State.modLink_sameHeld _ _ _ fun _ => rfl)

/-- What a close keeps of its glove while its requests leave the device: the state, the entry to answer and the limits. -/
structure Glove.ClosingAs (x : Glove) (closing : Option (Origin × Nat)) (ql fl : Nat) : Prop where
  state : x.state = .zeroizing
  closing : x.closing = closing
  queues : x.queueLimit = ql
  fingers : x.fingerLimit = fl

/-- A close under way: its glove is zeroizing, the Band is as it was, and no request is held at a Cuff. -/
structure State.Closing (s t : State) (g : Nat) (closing : Option (Origin × Nat)) (ql fl : Nat) : Prop where
  glove : (t.glove g).ClosingAs closing ql fl
  band : t.trust.band = s.trust.band
  held : ∀ l, (t.link l).held = []

theorem State.Closing.sameHeld {s t u : State} {g : Nat} {c : Option (Origin × Nat)} {ql fl : Nat} (h : s.Closing t g c ql fl)
    (k : t.SameHeld u) : s.Closing u g c ql fl where
  glove := by rw [State.glove, k.trust]; exact h.glove
  band := by rw [k.trust, h.band]
  held l := (k.held l).trans (h.held l)

/-- A change of the glove that keeps what the close needs of it. -/
theorem State.Closing.modGlove {s t : State} {g : Nat} {c : Option (Origin × Nat)} {ql fl ql' fl' : Nat} (h : s.Closing t g c ql fl)
    {m : Glove → Glove} (hm : ∀ x : Glove, x.ClosingAs c ql fl → (m x).ClosingAs c ql' fl') : s.Closing (t.modGlove g m) g c ql' fl' where
  glove := by rw [State.modGlove_same]; exact hm _ h.glove
  band := h.band
  held := h.held

/-- A TDI that goes to ERROR changes its glove's TDI state, and Fingers and functions (R97). -/
theorem State.Closing.tdiError {s t : State} {g : Nat} {c : Option (Origin × Nat)} {ql fl : Nat} (h : s.Closing t g c ql fl) :
    s.Closing (t.tdiError g) g c ql fl := by
  have hm : ∀ x : Glove, x.ClosingAs c ql fl → ({ x with tdi := .error } : Glove).ClosingAs c ql fl :=
    fun x hx => ⟨hx.state, hx.closing, hx.queues, hx.fingers⟩
  unfold State.tdiError
  split
  · exact h.modGlove hm
  · next f _ =>
    extract_lets u
    have hfold : u.SameHeld ((fingersOf f).foldl (fun s i => s.fgStopCode i 0x0104) u) :=
      foldl_sameHeld _ (fun v i => .of_links (by simp) (by simp)) _ _
    have hcause : ∀ v : State, v.SameHeld (v.raiseCause f causeTdi) := fun v => .of_links (by simp) (by simp)
    exact (h.modGlove hm).sameHeld (hfold.trans (hcause _))

/-- A table whose values are changed, one by one. -/
theorem Tbl.get_map {α : Type} {d : α} {m : α → α} (hd : m d = d) (t : Tbl α) (k : Nat) :
    Tbl.get d (t.map (fun e => (e.1, m e.2))) k = m (Tbl.get d t k) := by
  induction t with
  | nil => exact hd.symm
  | cons e r ih =>
    simp only [List.map_cons, Tbl.get]
    split
    · rfl
    · exact ih

/-- A glove's windows, and the one its change is to set, closed for a glove they aim at (R55). -/
def Glove.closeFor (g : Nat) (x : Glove) : Glove :=
  { x with
    windows := x.windows.map (fun w => (w.1, w.2.closeFor g))
    change := x.change.map (fun c => { c with change := match c.change with
      | .window slot w => .window slot (w.closeFor g)
      | x => x }) }

theorem State.closeWindows_glove (s : State) (g j : Nat) : (s.closeWindows g).glove j = (s.glove j).closeFor g := by
  have hmap : (s.closeWindows g).trust.gloves = s.trust.gloves.map (fun e => (e.1, e.2.closeFor g)) := rfl
  rw [State.glove, hmap]
  exact Tbl.get_map (m := Glove.closeFor g) rfl _ _

/-- The windows that aim at a closing glove close for good; what the close needs of its own glove stays (R55). -/
theorem State.Closing.closeWindows {s t : State} {g : Nat} {c : Option (Origin × Nat)} {ql fl : Nat} (h : s.Closing t g c ql fl)
    (g' : Nat) : s.Closing (t.closeWindows g') g c ql fl where
  glove := by
    rw [State.closeWindows_glove]
    exact ⟨h.glove.state, h.glove.closing, h.glove.queues, h.glove.fingers⟩
  band := h.band
  held := h.held

theorem State.endChange_band (s : State) (g code : Nat) : (s.endChange g code).trust.band = s.trust.band := by
  unfold State.endChange
  split
  · rfl
  · next c _ => exact (show _ = (s.complete c.origin code 0).trust.band from rfl).trans (by rw [State.complete_gtrust])

/-- The end of step 2 leaves the links. -/
theorem State.closeLines_link (s : State) (g l : Nat) :
    (((s.closeLines g).modSlot g (fun _ => {})).dropTranslations g).link l = s.link l := rfl

/-- Steps 1 and 2 of a close (R52): up to the lines of its slot, which go last. -/
theorem State.beginClose_closing {s : State} (hheld : ∀ l, (s.link l).held = []) (o : Origin) (g : Nat) (f : FnId) :
    ∃ u, s.Closing u g (some (o, (s.heldOf g).length)) 0 0 ∧
      s.beginClose o g f = ((u.closeLines g).modSlot g (fun _ => {})).dropTranslations g := by
  unfold State.beginClose
  extract_lets pages s1 s2 busy s3 s4 s5 s6 s7 s8 s9 s10
  have h1 : (s.endChange g 0x0101).SameHeld s1 := State.closeRules_sameHeld ..
  have h2 : s.Closing s2 g (some (o, pages)) (s2.glove g).queueLimit (s2.glove g).fingerLimit := by
    refine ⟨⟨?_, ?_, rfl, rfl⟩, ?_, fun l => ?_⟩
    · simp [s2]
    · simp [s2]
    · exact (congrArg Trust.band h1.trust).trans (State.endChange_band ..)
    · exact (h1.held l).trans (by rw [State.endChange_link]; exact hheld l)
  have h3 : s2.SameHeld s3 := foldl_sameHeld _ (fun u i => .of_links (by simp) (by simp)) _ _
  have h4 : s3.SameHeld s4 := by
    simp only [s4]
    split
    · exact .of_links (by simp) (by simp)
    · exact .refl s3
  have h5 : s4.SameHeld s5 := .of_host (by simp [s5]) (by simp [s5])
  have h6 : s.Closing s6 g (some (o, pages)) 0 0 :=
    (((h2.sameHeld h3).sameHeld h4).sameHeld h5).modGlove fun x hx => ⟨hx.state, hx.closing, rfl, rfl⟩
  have h7 : s.Closing s7 g (some (o, pages)) 0 0 := by
    simp only [s7]
    split
    · exact h6.tdiError
    · exact h6
  have h8 : s.Closing s8 g (some (o, pages)) 0 0 :=
    (h7.sameHeld (State.closeRequests_sameHeld ..)).sameHeld (State.closeAtomics_sameHeld ..)
  have h9 : s.Closing s9 g (some (o, pages)) 0 0 := (h8.sameHeld (State.closeAimed_sameHeld ..)).closeWindows g
  exact ⟨s9, h9, State.pumpHeld_nil ((congrArg Link.held (s9.closeLines_link g _)).trans (h9.held _))⟩

/-! ### OPEN_GLOVE -/

@[simp] theorem State.tablesChanged_gboot (s old : State) (ls : List Nat) : (s.tablesChanged old ls).boot = s.boot :=
  (s.tablesChanged_onlyIn old ls).agree .boot (by simp)
@[simp] theorem State.tablesChanged_gtrust (s old : State) (ls : List Nat) : (s.tablesChanged old ls).trust = s.trust :=
  (s.tablesChanged_onlyIn old ls).agree .trust (by simp)
@[simp] theorem State.tablesChanged_gwork (s old : State) (ls : List Nat) : (s.tablesChanged old ls).work = s.work :=
  (s.tablesChanged_onlyIn old ls).agree .work (by simp)

/-- The glove that OPEN_GLOVE leaves (R49, R56, R205, R376). -/
def Glove.opening (x : Glove) (tk tdisp : Bool) (ql fl : Nat) (kcv : BitVec 64) (share : Nat) (rules : List Region) : Glove :=
  { x with state := if tk then .keyPending else .opened, keySource := if tk then 0 else 1, tdisp := tdisp, kcv := kcv, queueLimit := ql,
           fingerLimit := fl, rate := 64, share := share, rules := rules, windows := [] }

/-- OPEN_GLOVE passes its checks and changes the Band slot, the glove, its table lines and its Fingers. -/
theorem exec_openGlove {s : State} {o : Origin} {g : Nat} {tk tdisp : Bool} {ql fl : Nat} (hr : s.AdminRuns o g)
    (hmode : s.sys.mode ≠ .drain) (htd : tk = true → tdisp = true) (hql : ql ≤ 64) (hfl : fl ≤ 16) (hst : (s.glove g).state = .free)
    (hfull : s.contextsFull (linkQuad o.q.link) fl = false) (hent : s.trust.entropyFailed = false) (hdrbg : s.trust.drbgReady = true) :
    ∃ (u : State) (kcv : BitVec 64) (f : FnId),
      exec (.openGlove o g tk tdisp ql fl) s = .next
        ((((u.modGlove g (fun x => x.opening tk tdisp ql fl kcv s.boot.cfg.tierDefault (s.openRules o.q.link))).tablesChanged u
          (ruleLines g ++ windowLines g)).setFingers f 0 fl).complete o 0 0) ∧
      OnlyIn [.trust, .work] s u ∧ (∀ q, u.queue q = s.queue q) ∧ u.trust.gloves = s.trust.gloves ∧
      u.slot g = (if tk then s.slot g else
        { key := (Config.draw s.trust.fresh).setWidth 256, valid := true, home := s.boot.cfg.pos, glove := g }) ∧
      (∀ j, j ≠ g → u.slot j = s.slot j) := by
  have hbad : (tk && !tdisp) = false := by cases tk <;> simp_all
  cases tk with
  | true =>
    refine ⟨s.undispatch (.openGlove o g true tdisp ql fl), 0, ⟨o.q.link, (g - (s.range o.q.link).1) + 1⟩, ?_,
      onlyIn_iff.mpr (by simp), fun _ => rfl, rfl, by simp only [if_true, State.undispatch_slot], fun _ _ => rfl⟩
    simp [exec, execOpenGlove, State.gloveCmd_runs hr, hmode, htd rfl, Nat.not_lt.mpr hql, Nat.not_lt.mpr hfl, hst, hfull, hent, hdrbg,
      Glove.opening, State.range, State.openRules]
  | false =>
    refine ⟨((s.undispatch (.openGlove o g false tdisp ql fl)).draw).2.modSlot g (fun _ =>
        { key := (Config.draw s.trust.fresh).setWidth 256, valid := true, home := s.boot.cfg.pos, glove := g }),
      keyCheck ((Config.draw s.trust.fresh).setWidth 256) g, ⟨o.q.link, (g - (s.range o.q.link).1) + 1⟩, ?_,
      onlyIn_iff.mpr (by simp [State.draw]), fun _ => rfl, rfl, by simp only [State.modSlot_same, Bool.false_eq_true, if_false], fun j hj => (State.modSlot_ne _ _ _ hj)⟩
    simp [exec, execOpenGlove, State.gloveCmd_runs hr, hmode, Nat.not_lt.mpr hql, Nat.not_lt.mpr hfl, hst, hfull, hent, hdrbg,
      Glove.opening, State.draw, State.range, State.openRules]

/-! ### CLOSE_GLOVE -/

/-- A glove of a link has a VF (R46). -/
theorem State.vfOf_of_linkHas {s : State} {l g : Nat} (h : s.linkHas l g = true) : ∃ f, s.vfOf g = some f := by
  have hl : l < 16 := by
    simp only [State.linkHas, State.linkExists, Bool.and_eq_true, decide_eq_true_eq] at h
    exact h.1.1.1
  cases hf : (List.range 16).find? (fun l => s.linkHas l g) with
  | none => exact absurd h (List.find?_eq_none.mp hf l (List.mem_range.mpr hl))
  | some k => exact ⟨_, by rw [State.vfOf, State.linkOf, hf]; rfl⟩

theorem exec_closeGlove {s : State} {o : Origin} {g : Nat} (hr : s.AdminRuns o g) (hm : s.pagesMoving g = false)
    (hst : (s.glove g).state = .opened ∨ (s.glove g).state = .keyPending) :
    ∃ f, exec (.closeGlove o g) s = .next (((s.undispatch (.closeGlove o g)).destroyQueues f).beginClose o g f) := by
  obtain ⟨f, hf⟩ := State.vfOf_of_linkHas hr.2.2
  exact ⟨f, by simp [exec, execCloseGlove, hm, State.gloveCmd_runs hr, State.closedCode_none hst, hf]⟩

/-- Steps 1 and 2 of a close leave the glove zeroizing, its Band slot empty and none of the slot's lines on the chip (R52, R144). -/
theorem exec_closeGlove_effect {s : State} {o : Origin} {g : Nat} (hr : s.AdminRuns o g) (hm : s.pagesMoving g = false)
    (hst : (s.glove g).state = .opened ∨ (s.glove g).state = .keyPending) (hheld : ∀ l, (s.link l).held = []) :
    ∃ t, exec (.closeGlove o g) s = .next t ∧ (t.glove g).state = .zeroizing ∧
      (t.glove g).closing = some (o, (s.heldOf g).length) ∧ (t.glove g).queueLimit = 0 ∧ (t.glove g).fingerLimit = 0 ∧
      t.slot g = {} ∧ (∀ x ∈ t.pool.tier, x.slot ≠ g) ∧ (∀ e ∈ t.pool.gates, ∀ w ∈ e.2.wcb, w.slot ≠ g) ∧
      (∀ j, j ≠ g → t.slot j = s.slot j) := by
  obtain ⟨f, hex⟩ := exec_closeGlove hr hm hst
  obtain ⟨u, hu, hclose⟩ := State.beginClose_closing (s := (s.undispatch (.closeGlove o g)).destroyQueues f) hheld o g f
  rw [hclose] at hex
  refine ⟨_, hex, hu.glove.state, hu.glove.closing, hu.glove.queues, hu.glove.fingers, State.modSlot_same .., fun x hx => ?_,
    fun e he w hw => ?_, fun j hj => ?_⟩
  · have hx : x ∈ u.pool.tier.filter (fun t => t.slot != g) := hx
    simpa using (List.mem_filter.mp hx).2
  · obtain ⟨e', -, rfl⟩ := List.mem_map.mp (show e ∈ u.pool.gates.map _ from he)
    simpa using (List.mem_filter.mp hw).2
  · rw [State.dropTranslations_slot, State.modSlot_ne _ _ _ hj]
    exact congrArg (fun b => Tbl.get {} b j) hu.band

/-! ### RELEASING and FREE -/

/-- The slot is zero: revocations go out, and the glove's pages are released (R52 steps 3 to 5). -/
theorem exec_bandSlotZeroConfirmed {s : State} {g : Nat} (hs : s.serves = true) (hst : (s.glove g).state = .zeroizing) :
    ∃ u, s.trust = u.trust ∧ OnlyIn [.basket, .out] s u ∧ exec (.bandSlotZeroConfirmed g) s = .next
      ((u.modGlove g (fun x => { x with state := .releasing })).startOwn ((u.modGlove g (fun x => { x with state := .releasing })).pagesOf g)
        none (.close g)).1 := by
  have hu : OnlyIn [.basket, .out] s ((s.glove g).guests.foldl (fun s n => s.askRevoke n g) s) :=
    foldl_onlyIn _ (fun v n => onlyIn_iff.mpr (by simp)) _ _
  refine ⟨_, (hu.agree .trust (by simp)).symm, hu, ?_⟩
  simp [exec, execBandSlotZeroConfirmed, hs, hst]

/-! ### Reading through a part -/

theorem State.glove_congr {s t : State} (h : t.trust.gloves = s.trust.gloves) (j : Nat) : t.glove j = s.glove j := by
  rw [State.glove, State.glove, h]

theorem State.queue_congr {s t : State} (h : t.work = s.work) (q : QId) : t.queue q = s.queue q := by
  rw [State.queue, State.queue, h]

theorem State.finger_congr {s t : State} (h : t.work = s.work) (f : FgId) : t.finger f = s.finger f := by
  rw [State.finger, State.finger, h]

@[simp] theorem State.tablesChanged_glove (s old : State) (ls : List Nat) (j : Nat) : (s.tablesChanged old ls).glove j = s.glove j :=
  State.glove_congr (by rw [State.tablesChanged_gtrust]) j

@[simp] theorem State.tablesChanged_slot (s old : State) (ls : List Nat) (j : Nat) : (s.tablesChanged old ls).slot j = s.slot j := by
  rw [State.slot, State.tablesChanged_gtrust, State.slot]

@[simp] theorem State.tablesChanged_queue (s old : State) (ls : List Nat) (q : QId) : (s.tablesChanged old ls).queue q = s.queue q :=
  State.queue_congr (State.tablesChanged_gwork ..) q

@[simp] theorem State.tablesChanged_gpending (s old : State) (ls : List Nat) : (s.tablesChanged old ls).pending = s.pending :=
  (s.tablesChanged_onlyIn old ls).agree .pending (by simp)
@[simp] theorem State.tablesChanged_gout (s old : State) (ls : List Nat) : (s.tablesChanged old ls).out = s.out :=
  (s.tablesChanged_onlyIn old ls).agree .out (by simp)
@[simp] theorem State.tablesChanged_gsys (s old : State) (ls : List Nat) : (s.tablesChanged old ls).sys = s.sys :=
  (s.tablesChanged_onlyIn old ls).agree .sys (by simp)
@[simp] theorem State.tablesChanged_ghost (s old : State) (ls : List Nat) : (s.tablesChanged old ls).host = s.host :=
  (s.tablesChanged_onlyIn old ls).agree .host (by simp)
@[simp] theorem State.tablesChanged_gnet (s old : State) (ls : List Nat) : (s.tablesChanged old ls).net = s.net :=
  (s.tablesChanged_onlyIn old ls).agree .net (by simp)
@[simp] theorem State.tablesChanged_gbasket (s old : State) (ls : List Nat) : (s.tablesChanged old ls).basket = s.basket :=
  (s.tablesChanged_onlyIn old ls).agree .basket (by simp)
@[simp] theorem State.tablesChanged_gevt (s old : State) (ls : List Nat) : (s.tablesChanged old ls).evt = s.evt :=
  (s.tablesChanged_onlyIn old ls).agree .evt (by simp)
@[simp] theorem State.tablesChanged_gflt (s old : State) (ls : List Nat) : (s.tablesChanged old ls).flt = s.flt :=
  (s.tablesChanged_onlyIn old ls).agree .flt (by simp)
@[simp] theorem State.tablesChanged_gpwr (s old : State) (ls : List Nat) : (s.tablesChanged old ls).pwr = s.pwr :=
  (s.tablesChanged_onlyIn old ls).agree .pwr (by simp)
@[simp] theorem State.tablesChanged_gusg (s old : State) (ls : List Nat) : (s.tablesChanged old ls).usg = s.usg :=
  (s.tablesChanged_onlyIn old ls).agree .usg (by simp)

/-- OPEN_GLOVE opens the glove as its entry asks (R48, R49, R56, R65, R205, R376). -/
theorem exec_openGlove_effect {s : State} {o : Origin} {g : Nat} {tk tdisp : Bool} {ql fl : Nat} (hr : s.AdminRuns o g)
    (hmode : s.sys.mode ≠ .drain) (htd : tk = true → tdisp = true) (hql : ql ≤ 64) (hfl : fl ≤ 16) (hst : (s.glove g).state = .free)
    (hfull : s.contextsFull (linkQuad o.q.link) fl = false) (hent : s.trust.entropyFailed = false) (hdrbg : s.trust.drbgReady = true) :
    ∃ t, exec (.openGlove o g tk tdisp ql fl) s = .next t ∧
      (t.glove g).state = (if tk then .keyPending else .opened) ∧ (t.glove g).tdisp = tdisp ∧
      (t.glove g).keySource = (if tk then 0 else 1) ∧ (t.glove g).queueLimit = ql ∧ (t.glove g).fingerLimit = fl ∧
      (t.glove g).rate = 64 ∧ (t.glove g).share = s.boot.cfg.tierDefault ∧ (t.glove g).rules = s.openRules o.q.link ∧
      (t.glove g).windows = [] ∧ (t.glove g).epoch = (s.glove g).epoch ∧
      t.slot g = (if tk then s.slot g else
        { key := (Config.draw s.trust.fresh).setWidth 256, valid := true, home := s.boot.cfg.pos, glove := g }) ∧
      (∀ j, j ≠ g → t.glove j = s.glove j) ∧ (∀ j, j ≠ g → t.slot j = s.slot j) ∧ Completes s t o 0 0 ∧
      OnlyIn [.trust, .work, .pool] s t := by
  obtain ⟨u, kcv, f, hex, hu, hq, hg, hslot, hslots⟩ := exec_openGlove hr hmode htd hql hfl hst hfull hent hdrbg
  have hglove (j : Nat) : u.glove j = s.glove j := State.glove_congr hg j
  refine ⟨_, hex, ?_, ?_, ?_, ?_, ?_, ?_, ?_, ?_, ?_, ?_, ?_, fun j hj => ?_, fun j hj => ?_,
    State.completes _ _ _ _ _ fun q => by simpa using hq q, ?_⟩
  case refine_11 => simpa using hslot
  case refine_12 => simpa [State.modGlove_ne _ _ _ hj] using hglove j
  case refine_13 => simpa using hslots j hj
  case refine_14 =>
    exact (hu.mono (by simp)).comp (onlyIn_iff.mpr (by simp))
  all_goals simp [Glove.opening, hglove]

/-! ### The tenancy's records (R604-R611, R618) -/

theorem State.writeSeq_ok_onlyIn (s : State) (n : Nat) : OnlyIn [.boot, .usg] s (s.writeSeq n true) :=
  onlyIn_iff.mpr (by simp [State.writeSeq])

theorem State.addRecord_onlyIn (s : State) (g : Nat) (closed : Bool) : OnlyIn [.boot, .usg] s (s.addRecord g closed) :=
  onlyIn_iff.mpr (by simp [State.addRecord])

theorem State.signBatch_onlyIn (s : State) (b : Batch) : OnlyIn [.boot, .usg] s (s.signBatch b).2 := by
  unfold State.signBatch
  split
  · exact .refl _ s
  · dsimp only; split <;> exact onlyIn_iff.mpr (by simp)

theorem State.signAll_onlyIn (s : State) : OnlyIn [.boot, .usg] s s.signAll := by
  refine foldl_onlyIn _ (fun v (b, i) => ?_) _ _
  dsimp only
  split
  · exact (State.signBatch_onlyIn v b).comp (onlyIn_iff.mpr (by simp))
  · exact .refl _ v

theorem State.trimRing_onlyIn (s : State) : OnlyIn [.boot, .usg] s s.trimRing := by
  have h : OnlyIn [.boot, .usg] s { s with usg.batches := (keepBatches ringSize s.usg.batches.reverse).1.reverse } :=
    onlyIn_iff.mpr (by simp)
  exact h.comp (foldl_onlyIn _ (fun v b => onlyIn_iff.mpr (by simp)) _ _)

/-- A tenancy's end touches the ledger and the MRAM only. -/
theorem State.endTenancy_onlyIn (s : State) (g : Nat) : OnlyIn [.boot, .usg] s (s.endTenancy g) := by
  unfold State.endTenancy
  split
  · exact .refl _ s
  · have hw : OnlyIn [.boot, .usg] s (if s.usg.seqFailed then s else s.writeSeq (s.usg.seq + 1) true) := by
      split
      · exact .refl _ s
      · exact s.writeSeq_ok_onlyIn _
    exact (((hw.comp (State.addRecord_onlyIn _ g true)).comp (onlyIn_iff.mpr (by simp))).comp (State.signAll_onlyIn _)).comp
      (State.trimRing_onlyIn _)

/-! ### RELEASING and FREE -/

@[simp] theorem State.fgReset_queue (s : State) (f : FgId) (q : QId) : (s.fgReset f).queue q = s.queue q := by
  simp [State.fgReset]

theorem foldl_fgReset (l : List FgId) (s : State) :
    (l.foldl State.fgReset s).trust = s.trust ∧ ∀ q, (l.foldl State.fgReset s).queue q = s.queue q :=
  ⟨foldl_same (fun s : State => s.trust) _ _ _ fun s x => by simp, fun q => foldl_same (fun s : State => s.queue q) _ _ _ fun s x => by simp⟩

/-- The state before a glove's own entry is cleared: its record formed, its function's registers and its Fingers reset (R53). -/
def State.beforeFree (s : State) (g : Nat) : State :=
  (fingersOf ((s.vfOf g).getD ⟨0, 0⟩)).foldl State.fgReset ((s.endTenancy g).modFn ((s.vfOf g).getD ⟨0, 0⟩) (fun x =>
    { x with rejCode := 0, rejSpace := 0, rejOff := 0, errAddr := 0, errCode := 0, errCount := 0, errValid := false, errKind := 0,
             errSpace := 0, errFn := 0, errLink := 0, errGlove := 0, cause := 0, events := 0 }))

theorem State.beforeFree_trust (s : State) (g : Nat) : (s.beforeFree g).trust = s.trust := by
  rw [State.beforeFree, (foldl_fgReset _ _).1, State.modFn_gtrust]
  exact (s.endTenancy_onlyIn g).agree .trust (by simp)

theorem State.beforeFree_glove (s : State) (g j : Nat) : (s.beforeFree g).glove j = s.glove j :=
  State.glove_congr (by rw [s.beforeFree_trust g]) j

theorem State.beforeFree_queue (s : State) (g : Nat) (q : QId) : (s.beforeFree g).queue q = s.queue q := by
  rw [State.beforeFree, (foldl_fgReset _ _).2, State.modFn_queue]
  exact congrArg (fun w : Work => w.queues.get {} q.key) ((s.endTenancy_onlyIn g).agree .work (by simp))

/-- LAST_PAGE_RELEASED clears what R53 names and completes the CLOSE_GLOVE. -/
theorem exec_lastPageReleased {s : State} {g pages : Nat} {o : Origin} (hs : s.serves = true) (hst : (s.glove g).state = .releasing)
    (hp : s.pagesOf g = []) (hown : ∀ c ∈ s.pool.owning, c.thn ≠ .close g) (hc : (s.glove g).closing = some (o, pages)) :
    exec (.lastPageReleased g) s = .next ((((s.beforeFree g).modGlove g (fun x =>
      { tdi := x.tdi, nonce := x.nonce, stream := x.stream, lockPages := x.lockPages })).tablesChanged (s.beforeFree g)
        (ruleLines g ++ windowLines g)).complete o 0 pages) := by
  have hany : (s.pool.owning.any (fun c => match c.thn with
      | .close g' => g' == g
      | _ => false)) = false := by
    rw [List.any_eq_false]
    intro c hm
    split
    · next g' hthn => simpa using fun e => hown c hm (by rw [hthn, e])
    · simp
  have hc' : ((s.beforeFree g).glove g).closing = some (o, pages) := by rw [State.beforeFree_glove, hc]
  refine congrArg Host.Outcome.next ((if_neg ?_).trans ?_)
  · have key (b : Bool) (hb : b = false) : ¬ ((!true || GState.releasing != .releasing || b || !([] : List Nat).isEmpty) = true) := by
      simp [hb]
    rw [hs, hst, hp]
    exact key _ hany
  · rw [State.beforeFree] at hc' ⊢
    simp only [hc']

/-- Settles O18: OPEN_GLOVE by its equation; a close by the relation `Closing` that each of its steps keeps; the release by the frames of
the ownership change and of the tenancy's end. -/
theorem glovesOpenAndClose : Obligations.GlovesOpenAndClose := by
  refine ⟨fun s o g tk tdisp ql fl hr hmode htd hql hfl hst hfull hent hdrbg =>
      exec_openGlove_effect hr hmode htd hql hfl hst hfull hent hdrbg,
    fun s o g hr hm hst hheld => exec_closeGlove_effect hr hm hst hheld, fun s g hs hst => ?_, fun s g pages o hs hst hp hown hc => ?_⟩
  · obtain ⟨u, htr, hu, hex⟩ := exec_bandSlotZeroConfirmed hs hst
    have hown := State.startOwn_onlyIn (u.modGlove g (fun x => { x with state := .releasing }))
      ((u.modGlove g (fun x => { x with state := .releasing })).pagesOf g) none (.close g)
    have hgl := State.glove_congr (congrArg Trust.gloves (hown.agree .trust (by simp)))
    have hul := State.glove_congr (congrArg Trust.gloves htr.symm)
    have hwk : _ = s.work := Eq.trans (hown.agree .work (by simp)) (hu.agree .work (by simp))
    refine ⟨_, hex, ?_, fun j hj => ?_, State.queue_congr hwk, State.finger_congr hwk,
      ((hu.mono (by simp)).comp (onlyIn_iff.mpr (by simp))).comp (hown.mono (by simp))⟩
    · rw [hgl, State.modGlove_same, hul]
    · rw [hgl, State.modGlove_ne _ _ _ hj, hul]
  · refine ⟨_, exec_lastPageReleased hs hst hp hown hc, ?_, fun j hj => ?_, State.completes _ _ _ _ _ fun q => ?_⟩
    · rw [State.complete_glove, State.tablesChanged_glove, State.modGlove_same, State.beforeFree_glove]
    · rw [State.complete_glove, State.tablesChanged_glove, State.modGlove_ne _ _ _ hj, State.beforeFree_glove]
    · rw [State.tablesChanged_queue, State.modGlove_queue, State.beforeFree_queue]

end Sys2Proof.Machine
end

