-- ==== Sys2Proof/Proofs/Modes.lean ====
section
/-! PROOFS. Domains, the mode and the logs (R379-R381, R532). -/

namespace Sys2Proof.Machine

/-! ### Votes and wakes leave the pins of a domain (R379, R577, R580) -/

/-- A step of a domain's power sequencing keeps its pins and leaves a domain that is on as it is. -/
structure State.DomsKept (s t : State) : Prop where
  pins : ∀ d, (t.dom d).pins = (s.dom d).pins
  pinWait : ∀ d, (t.dom d).pinWait = (s.dom d).pinWait
  on : ∀ d, (s.dom d).state = 0 → (s.dom d).phase = 0 → t.dom d = s.dom d

theorem State.DomsKept.refl (s : State) : s.DomsKept s := ⟨fun _ => rfl, fun _ => rfl, fun _ _ _ => rfl⟩

theorem State.DomsKept.trans {s t u : State} (h : s.DomsKept t) (k : t.DomsKept u) : s.DomsKept u where
  pins d := (k.pins d).trans (h.pins d)
  pinWait d := (k.pinWait d).trans (h.pinWait d)
  on d h0 hp := by
    have ht := h.on d h0 hp
    rw [← ht]
    exact k.on d (by rw [ht, h0]) (by rw [ht, hp])

/-- A change of one domain that is not on, of nothing that a pin is. -/
theorem State.modDom_domsKept {s : State} {d : Nat} {m : Dom → Dom} (hon : ¬((s.dom d).state = 0 ∧ (s.dom d).phase = 0))
    (hp : ∀ x, (m x).pins = x.pins) (hw : ∀ x, (m x).pinWait = x.pinWait) : s.DomsKept (s.modDom d m) where
  pins j := by
    by_cases h : j = d
    · rw [h, State.modDom_same, hp]
    · rw [State.modDom_ne _ _ _ h]
  pinWait j := by
    by_cases h : j = d
    · rw [h, State.modDom_same, hw]
    · rw [State.modDom_ne _ _ _ h]
  on j h0 hp := State.modDom_ne _ _ _ fun e => hon ⟨e ▸ h0, e ▸ hp⟩

theorem State.DomsKept.edge {s t : State} (h : s.DomsKept t) (i : Nat) : s.DomsKept (t.edge i) :=
  h.trans ⟨fun _ => by simp, fun _ => by simp, fun _ _ _ => by simp⟩

theorem State.wake_domsKept (s : State) (d wanter : Nat) : s.DomsKept (s.wake d wanter) := by
  unfold State.wake
  extract_lets x
  split
  · exact .refl s
  split
  · next h =>
    have hon : ¬((s.dom d).state = 0 ∧ (s.dom d).phase = 0) := fun e => by simp_all [x]
    exact State.DomsKept.edge (State.modDom_domsKept (m := fun x => { x with phase := 0, target := 0, aborted := satAdd 65535 x.aborted 1, aborter := wanter })
      hon (fun _ => rfl) (fun _ => rfl)) 16
  split
  · next h =>
    have hon : ¬((s.dom d).state = 0 ∧ (s.dom d).phase = 0) := fun e => by simp_all [x]
    exact State.modDom_domsKept hon (fun _ => rfl) (fun _ => rfl)
  split
  · next h =>
    have hon : ¬((s.dom d).state = 0 ∧ (s.dom d).phase = 0) := fun e => by simp_all [x]
    split
    · exact State.modDom_domsKept hon (fun _ => rfl) (fun _ => rfl)
    · exact State.modDom_domsKept hon (fun _ => rfl) (fun _ => rfl)
  · exact .refl s

theorem State.castVotes_domsKept (s old : State) : s.DomsKept (s.castVotes old) := by
  have h (l : List Nat) : ∀ v : State, v.DomsKept (l.foldl (fun s d =>
      match ((s.slots d).zipIdx).find? (fun e => s.votes d e.1 && !old.votes d e.1) with
      | some e => s.wake d (slotWanter e.2)
      | none => s) v) := by
    induction l with
    | nil => exact .refl
    | cons d l ih =>
      intro v
      refine .trans ?_ (ih _)
      dsimp only
      split
      · exact State.wake_domsKept ..
      · exact .refl v
  exact h _ s

/-! ### PIN_DOMAIN and UNPIN_DOMAIN (R379) -/

theorem State.adminCmd_runs {s : State} {o : Origin} (hs : s.serves = true) (hf : s.fnExists o.q.fnId = true) (i : Instr) (f : State → State) :
    s.adminCmd i o f = f (s.undispatch i) := by
  simp [State.adminCmd, hs, hf]

/-- The vote of a link's pin. -/
def Dom.pinned (l : Nat) (x : Dom) : Dom := { x with pins := if x.pins.contains l then x.pins else x.pins ++ [l] }

theorem Dom.mem_pinned (l : Nat) (x : Dom) : l ∈ (x.pinned l).pins := by
  simp only [Dom.pinned]
  split <;> simp_all

/-- The state in which a pin has been cast. -/
def State.pinCast (s : State) (o : Origin) (d : Nat) : State :=
  ((s.undispatch (.pinDomain o d)).modDom d (Dom.pinned o.q.link)).castVotes (s.undispatch (.pinDomain o d))

theorem exec_pinDomain {s : State} {o : Origin} {d : Nat} (hs : s.serves = true) (hf : s.fnExists o.q.fnId = true) (hd : d ≤ 40)
    (hslot : (5, o.q.link) ∈ s.slots d) (hfence : ∃ u ∈ domUnits d, s.fenced u = false) (habs : s.domAbsent d = false) :
    exec (.pinDomain o d) s = .next (if ((s.pinCast o d).dom d).state = 0 ∧ ((s.pinCast o d).dom d).phase = 0 then (s.pinCast o d).complete o 0 0
      else (s.pinCast o d).modDom d (fun x => { x with pinWait := x.pinWait ++ [o] })) := by
  have hslot' : ((s.undispatch (.pinDomain o d)).slots d).contains (5, o.q.link) = true := by
    rw [List.contains_iff_mem]; exact hslot
  have hall : (domUnits d).all (s.undispatch (.pinDomain o d)).fenced = false := by
    obtain ⟨u, hu, hfu⟩ := hfence
    rw [List.all_eq_false]
    exact ⟨u, hu, by rw [show (s.undispatch (.pinDomain o d)).fenced u = s.fenced u from rfl, hfu]; simp⟩
  have habs' : (s.undispatch (.pinDomain o d)).domAbsent d = false := habs
  simp only [exec, execPinDomain, State.adminCmd_runs hs hf, State.checked_cons, State.checked_nil, hslot', hall, habs', Nat.not_lt.mpr hd,
    decide_false, Bool.not_true, Bool.and_false, Bool.or_false, Bool.false_eq_true, if_false, Bool.and_eq_true, beq_iff_eq]
  rfl

theorem State.pinCast_onlyIn (s : State) (o : Origin) (d : Nat) : OnlyIn [.work, .pwr, .evt] s (s.pinCast o d) :=
  onlyIn_iff.mpr (by simp [State.pinCast])

theorem State.pinCast_queue (s : State) (o : Origin) (d : Nat) (q : QId) : (s.pinCast o d).queue q = s.queue q := by
  simp [State.pinCast]

theorem State.mem_pinCast (s : State) (o : Origin) (d : Nat) : o.q.link ∈ ((s.pinCast o d).dom d).pins := by
  rw [State.pinCast, (State.castVotes_domsKept ..).pins, State.modDom_same]
  exact Dom.mem_pinned ..

/-- A domain that is on stays on under a pin. -/
theorem State.pinCast_on {s : State} {d : Nat} (h0 : (s.dom d).state = 0) (hp : (s.dom d).phase = 0) (o : Origin) :
    ((s.pinCast o d).dom d).state = 0 ∧ ((s.pinCast o d).dom d).phase = 0 := by
  have h : (s.pinCast o d).dom d = (s.dom d).pinned o.q.link := by
    rw [State.pinCast, (State.castVotes_domsKept ..).on, State.modDom_same, State.undispatch_dom]
    · rw [State.modDom_same]; exact h0
    · rw [State.modDom_same]; exact hp
  rw [h]
  exact ⟨h0, hp⟩

theorem exec_unpinDomain {s : State} {o : Origin} {d : Nat} (hs : s.serves = true) (hf : s.fnExists o.q.fnId = true) (hd : d ≤ 40) :
    exec (.unpinDomain o d) s = .next (((s.undispatch (.unpinDomain o d)).modDom d (fun x =>
      { x with pins := x.pins.filter (· != o.q.link) })).complete o 0 0) := by
  simp [exec, execUnpinDomain, State.adminCmd_runs hs hf, Nat.not_lt.mpr hd]

/-! ### DRAIN (R380, R532) -/

theorem exec_drain {s : State} {o : Origin} (hs : s.serves = true) (hf : s.fnExists o.q.fnId = true) :
    exec (.drain o) s = .next (((s.undispatch (.drain o)).setMode .drain 0).complete o 0 0) := by
  simp only [exec, execDrain, State.adminCmd_runs hs hf]
  split
  · next h => rw [State.setMode, if_pos h]
  · rfl

@[simp] theorem State.alarm_gpending (s : State) : (s.alarm).pending = s.pending := by
  unfold State.alarm; split <;> simp
@[simp] theorem State.alarm_gtrust (s : State) : (s.alarm).trust = s.trust := by
  unfold State.alarm; split <;> simp
@[simp] theorem State.alarm_ghost (s : State) : (s.alarm).host = s.host := by
  unfold State.alarm; split <;> simp
@[simp] theorem State.alarm_gwork (s : State) : (s.alarm).work = s.work := by
  unfold State.alarm; split <;> simp
@[simp] theorem State.alarm_gpool (s : State) : (s.alarm).pool = s.pool := by
  unfold State.alarm; split <;> simp
@[simp] theorem State.alarm_gnet (s : State) : (s.alarm).net = s.net := by
  unfold State.alarm; split <;> simp
@[simp] theorem State.alarm_gbasket (s : State) : (s.alarm).basket = s.basket := by
  unfold State.alarm; split <;> simp
@[simp] theorem State.alarm_gevt (s : State) : (s.alarm).evt = s.evt := by
  unfold State.alarm; split <;> simp
@[simp] theorem State.alarm_gflt (s : State) : (s.alarm).flt = s.flt := by
  unfold State.alarm; split <;> simp
@[simp] theorem State.alarm_gpwr (s : State) : (s.alarm).pwr = s.pwr := by
  unfold State.alarm; split <;> simp
@[simp] theorem State.alarm_gusg (s : State) : (s.alarm).usg = s.usg := by
  unfold State.alarm; split <;> simp

@[simp] theorem State.setMode_gpending (s : State) (m : Mode) (c : Nat) : (s.setMode m c).pending = s.pending := by
  unfold State.setMode; split <;> simp
@[simp] theorem State.setMode_gtrust (s : State) (m : Mode) (c : Nat) : (s.setMode m c).trust = s.trust := by
  unfold State.setMode; split <;> simp
@[simp] theorem State.setMode_gwork (s : State) (m : Mode) (c : Nat) : (s.setMode m c).work = s.work := by
  unfold State.setMode; split <;> simp
@[simp] theorem State.setMode_gpool (s : State) (m : Mode) (c : Nat) : (s.setMode m c).pool = s.pool := by
  unfold State.setMode; split <;> simp
@[simp] theorem State.setMode_gbasket (s : State) (m : Mode) (c : Nat) : (s.setMode m c).basket = s.basket := by
  unfold State.setMode; split <;> simp
@[simp] theorem State.setMode_gevt (s : State) (m : Mode) (c : Nat) : (s.setMode m c).evt = s.evt := by
  unfold State.setMode; split <;> simp
@[simp] theorem State.setMode_gflt (s : State) (m : Mode) (c : Nat) : (s.setMode m c).flt = s.flt := by
  unfold State.setMode; split <;> simp
@[simp] theorem State.setMode_gpwr (s : State) (m : Mode) (c : Nat) : (s.setMode m c).pwr = s.pwr := by
  unfold State.setMode; split <;> simp
@[simp] theorem State.setMode_gusg (s : State) (m : Mode) (c : Nat) : (s.setMode m c).usg = s.usg := by
  unfold State.setMode; split <;> simp

/-! ### GET_LOG (R381) -/

/-- An access to host space is issued at once. -/
theorem State.issue_host {s : State} {a : Access} (h : a.gloveSpace = false) (ctx : Nat → ReqCtx) :
    s.issue a ctx = .sent (s.sendHost (ctx 0) (s.packetOf a) a.fn.link a.fn.fn a.addr none) 0 (some a.fn.link) := by
  simp [State.issue, h]

theorem exec_getLog {s : State} {o : Origin} {log first buf len : Nat} (hs : s.serves = true) (hf : s.fnExists o.q.fnId = true)
    (hb : badBuffer buf len = false) (hl : log ≤ 2) (hfirst : first < (s.logFrom log first).2) :
    exec (.getLog o log first buf len) s = .next ((s.undispatch (.getLog o log first buf len)).crownWrites o buf
        ((s.logFrom log first).1.take (len / 32)).flatten
        (((s.logFrom log first).1.take (len / 32)).length +
          2 ^ 32 * bit (decide (((s.logFrom log first).1.take (len / 32)).length < (s.logFrom log first).1.length)))) := by
  have hlog : (s.undispatch (.getLog o log first buf len)).logFrom log first = s.logFrom log first := rfl
  simp only [exec, execGetLog, State.adminCmd_runs hs hf, hlog, State.checked_cons, State.checked_nil, hb, Nat.not_lt.mpr hl,
    Nat.not_le.mpr hfirst, decide_false, Bool.or_false, Bool.false_eq_true, if_false]

theorem chunks_one {α : Type} {n : Nat} {l : List α} (hn : 0 < l.length) (hl : l.length ≤ n) : chunks n l = [l] := by
  have : (l.length + n - 1) / n = 1 := Nat.div_eq_of_lt_le (by omega) (by omega)
  simp [chunks, this, List.take_of_length_le hl]

/-- Bytes that fit one write go in one write. -/
theorem State.crownWrites_one {s : State} {bs : List Byte} (hn : 0 < bs.length) (hl : bs.length ≤ 512) (o : Origin) (buf r : Nat) :
    s.crownWrites o buf bs r = s.sendHost (.crownWrite o 0 r) (s.packetOf (s.qAccess o.q false .memWr buf bs.length bs)) o.q.fnId.link
      o.q.fnId.fn buf none := by
  have hne : bs.isEmpty = false := by cases bs <;> simp_all
  simp only [State.crownWrites, hne, Bool.false_eq_true, if_false, chunks_one hn hl, List.zipIdx_singleton, List.foldl_cons, List.foldl_nil]
  rw [State.issue_host rfl]
  rfl

/-- Sixty-four bytes of whole records and more are never none. -/
theorem flatten_take_pos {α : Type} {rs : List (List α)} {n : Nat} (hne : rs ≠ []) (hlen : ∀ r ∈ rs, r.length = 32) (hn : 0 < n) :
    0 < (rs.take n).flatten.length := by
  obtain ⟨r, rs', rfl⟩ := List.exists_cons_of_ne_nil hne
  obtain ⟨k, rfl⟩ : ∃ k, n = k + 1 := ⟨n - 1, by omega⟩
  have := hlen r (by simp)
  simp; omega

theorem badBuffer_false {buf len : Nat} (h : badBuffer buf len = false) : 64 ≤ len := by
  simp [badBuffer] at h; omega

/-- Settles O21: a pin changes the domain by votes alone, which `DomsKept` bounds; the rest by the commands' equations. -/
theorem domainModeAndLogCommandsComplete : Obligations.DomainModeAndLogCommandsComplete := by
  intro s o hs hf
  refine ⟨fun d hd hslot hfence habs h0 hp => ?_, fun d hd => ?_, ?_, fun log first buf len hb hl hfirst hsize hne hrec => ?_,
    fun d hd hslot hfence habs _ => ?_, fun log first buf len hb hl hfirst => exec_getLog hs hf hb hl hfirst⟩
  · have hon := State.pinCast_on h0 hp o
    refine ⟨_, (exec_pinDomain hs hf hd hslot hfence habs).trans (congrArg _ (if_pos hon)), ?_, ?_, ?_,
      State.completes _ _ _ _ _ (s.pinCast_queue o d), (s.pinCast_onlyIn o d).comp (onlyIn_iff.mpr (by simp))⟩
    · rw [State.complete_dom]; exact s.mem_pinCast o d
    · rw [State.complete_dom]; exact hon.1
    · rw [State.complete_dom]; exact hon.2
  · exact ⟨_, exec_unpinDomain hs hf hd, by simp, fun j hj => by simp [State.modDom_ne _ _ _ hj],
      State.completes _ _ _ _ _ fun q => by simp, onlyIn_iff.mpr (by simp)⟩
  · exact ⟨_, exec_drain hs hf, by simp, State.completes _ _ _ _ _ fun q => by
      rw [State.queue_congr (State.setMode_gwork ..), State.undispatch_queue], by simp, by simp⟩
  · have hlen := badBuffer_false hb
    refine ⟨_, exec_getLog hs hf hb hl hfirst, ?_, ?_⟩
    all_goals rw [State.crownWrites_one (flatten_take_pos hne hrec (by omega)) hsize]
    · exact ⟨_, by rw [State.sendHost, State.request_outst]; rfl, by rw [List.length_take], rfl, rfl, rfl, rfl⟩
    · exact onlyIn_iff.mpr (by simp)
  · have hpin := s.mem_pinCast o d
    refine ⟨_, exec_pinDomain hs hf hd hslot hfence habs, ?_⟩
    by_cases hon : ((s.pinCast o d).dom d).state = 0 ∧ ((s.pinCast o d).dom d).phase = 0
    · simp only [if_pos hon, State.complete_dom]
      exact ⟨hpin, State.completes _ _ _ _ _ (s.pinCast_queue o d)⟩
    · simp only [if_neg hon, State.modDom_same]
      exact ⟨hpin, by simp⟩

end Sys2Proof.Machine
end

