-- ==== Sys2Proof/Proofs/QueueConfiguration.lean ====
section
/-! PROOFS. Enabling, disabling, creating and destroying queues (R365, R371, R383, R388). -/

namespace Sys2Proof.Machine

/-! ### QUE_CONFIG of queue 0 (R365, R370, R371) -/

/-- The first queue of a function. -/
abbrev queue0 (f : FnId) : QId := ⟨f.link, f.fn, 0⟩

/-- A queue as a QUE_CONFIG write leaves it: nothing of its indices or entries, its own addresses and reject count. -/
def Queue.reconfigured (v : BitVec 32) (x : Queue) : Queue :=
  ({ ring := x.ring, headAddr := x.headAddr, rejects := x.rejects } : Queue).config v

theorem exec_queueEnable {s : State} {f : FnId} {v : BitVec 32} (hb : s.bar0On f = true) (hv : bitAt v.toNat 31 = true)
    (hen : (s.queue (queue0 f)).enable = false) (hok : configCheck f v = none) :
    exec (.queueEnable f v) s = .next (if f.fn == 0 then (s.modQueue (queue0 f) (Queue.reconfigured v)).startOperator f
      else s.modQueue (queue0 f) (Queue.reconfigured v)) := by
  simp only [exec, execQueueEnable, hb, hv, Bool.and_self, if_true, State.writeQueConfig, hen, Bool.false_eq_true, if_false, hok]
  rfl

theorem exec_queueDisable {s : State} {f : FnId} (hb : s.bar0On f = true) (hen : (s.queue (queue0 f)).enable = true)
    (hidle : (s.queue (queue0 f)).head = (s.queue (queue0 f)).tail ∨ (s.queue (queue0 f)).faulted = true) :
    exec (.queueDisable f) s = .next ((s.cutQueue (queue0 f)).modQueue (queue0 f) (Queue.reconfigured 0)) := by
  have hidle' : ((s.queue (queue0 f)).head == (s.queue (queue0 f)).tail || (s.queue (queue0 f)).faulted) = true := by simpa using hidle
  have h31 : bitAt (0 : BitVec 32).toNat 31 = false := by decide
  simp only [exec, execQueueDisable, hb, if_true, State.writeQueConfig, hen, h31, Bool.false_eq_true, if_false, hidle']
  rfl

theorem exec_queueDisable_busy {s : State} {f : FnId} (hb : s.bar0On f = true) (hen : (s.queue (queue0 f)).enable = true)
    (hne : (s.queue (queue0 f)).head ≠ (s.queue (queue0 f)).tail) (hf : (s.queue (queue0 f)).faulted = false) :
    exec (.queueDisable f) s = .next (s.reject f 0x0401 1 (queBase (queue0 f) + 0x10)) := by
  have hidle' : ((s.queue (queue0 f)).head == (s.queue (queue0 f)).tail || (s.queue (queue0 f)).faulted) = false := by simpa [hf] using hne
  have h31 : bitAt (0 : BitVec 32).toNat 31 = false := by decide
  simp only [exec, execQueueDisable, hb, if_true, State.writeQueConfig, hen, h31, Bool.false_eq_true, if_false, hidle']

theorem configCheck_vf {f : FnId} {v : BitVec 32} (hf : f.fn ≠ 0) (h4 : 4 ≤ bits v.toNat 4 0) (h16 : bits v.toNat 4 0 ≤ 16)
    (hvec : bits v.toNat 26 16 ≤ 63) : configCheck f v = none := by
  simp [configCheck, hf, Nat.not_lt.mpr h4, Nat.not_lt.mpr h16, Nat.not_lt.mpr hvec]

theorem configCheck_pf {l : Nat} {v : BitVec 32} (h8 : bitAt v.toNat 8 = false) (h9 : bitAt v.toNat 9 = false)
    (h4 : 4 ≤ bits v.toNat 4 0) (h16 : bits v.toNat 4 0 ≤ 16) : configCheck ⟨l, 0⟩ v = none := by
  simp [configCheck, h8, h9, Nat.not_lt.mpr h4, Nat.not_lt.mpr h16]

theorem State.cutQueue_onlyIn (s : State) (q : QId) : OnlyIn [.work, .net] s (s.cutQueue q) :=
  onlyIn_iff.mpr (by simp [State.cutQueue])

@[simp] theorem State.cutQueue_queue (s : State) (q j : QId) : (s.cutQueue q).queue j = s.queue j := rfl
@[simp] theorem State.cutQueue_finger (s : State) (q : QId) (f : FgId) : (s.cutQueue q).finger f = s.finger f := rfl

/-- No request is any longer a cut queue's (R365). -/
theorem State.cutQueue_outst (s : State) (q : QId) : ∀ r ∈ (s.cutQueue q).net.outst, r.ctx.queue ≠ some q := by
  intro r hr
  obtain ⟨r', -, rfl⟩ := List.mem_map.mp (show r ∈ s.net.outst.map _ from hr)
  by_cases h : r'.ctx.queue = some q
  · rw [if_pos (beq_iff_eq.mpr h)]; simp [ReqCtx.queue]
  · rw [if_neg (fun e => h (beq_iff_eq.mp e))]; exact h

/-- What the admin queue's enabling makes of an operator Finger (R388). -/
def Finger.operating (x : Finger) : Finger :=
  if x.state == .halted then x else { x with state := .running, share := 64, burst := 0x100000, tokens := 0x100000, bulk := false }

theorem Finger.operating_state {x : Finger} (h : x.state ≠ .halted) : x.operating.state = .running := by simp [Finger.operating, h]

theorem FgId.key_ne {l fn i j : Nat} (h : i ≠ j) : FgId.key ⟨l, fn, i⟩ ≠ FgId.key ⟨l, fn, j⟩ := by
  simp only [FgId.key]; omega

/-- Fingers of one function changed one after another: each once. -/
theorem State.foldl_modFinger (f : FnId) (m : Finger → Finger) (l : List Nat) (hl : l.Nodup) (s : State) {i : Nat} (hi : i ∈ l) :
    (l.foldl (fun s i => s.modFinger ⟨f.link, f.fn, i⟩ m) s).finger ⟨f.link, f.fn, i⟩ = m (s.finger ⟨f.link, f.fn, i⟩) := by
  have hout (l : List Nat) : ∀ s : State, i ∉ l →
      (l.foldl (fun s i => s.modFinger ⟨f.link, f.fn, i⟩ m) s).finger ⟨f.link, f.fn, i⟩ = s.finger ⟨f.link, f.fn, i⟩ := by
    induction l with
    | nil => exact fun _ _ => rfl
    | cons k l ih =>
      intro s hn
      obtain ⟨hk, hn⟩ : i ≠ k ∧ i ∉ l := by simpa using hn
      rw [List.foldl_cons, ih _ hn, State.modFinger_ne _ _ _ (FgId.key_ne hk)]
  induction l generalizing s with
  | nil => simp at hi
  | cons k l ih =>
    obtain ⟨hk, hl⟩ := List.nodup_cons.mp hl
    rw [List.foldl_cons]
    rcases List.mem_cons.mp hi with rfl | hi
    · rw [hout l _ hk, State.modFinger_same]
    · rw [ih hl _ hi, State.modFinger_ne _ _ _ (FgId.key_ne (fun e : i = k => hk (e ▸ hi)))]

theorem State.startOperator_finger (s : State) (f : FnId) {i : Nat} (hi : i < 16) :
    (s.startOperator f).finger ⟨f.link, f.fn, i⟩ = (s.finger ⟨f.link, f.fn, i⟩).operating :=
  State.foldl_modFinger f Finger.operating _ List.nodup_range s (List.mem_range.mpr hi)

@[simp] theorem State.startOperator_queue (s : State) (f : FnId) (q : QId) : (s.startOperator f).queue q = s.queue q :=
  foldl_same (fun s : State => s.queue q) _ _ _ fun s x => by simp

/-! ### CREATE_QUEUE and DESTROY_QUEUE (R383, R365) -/

theorem exec_createQueue {s : State} {o : Origin} {num size finger vector ring head : Nat} {rg hg : Bool} (hr : s.ControlRuns o)
    (hmode : s.sys.mode ≠ .drain) (hring : ring % 4096 = 0) (hhead : head % 4 = 0) (h1 : 1 ≤ num)
    (hlim : num ≤ (s.glove (s.gloveOf o.q.fnId)).queueLimit) (h64 : num ≤ 64) (h4 : 4 ≤ size) (h16 : size ≤ 16)
    (hfg : finger < (s.glove (s.gloveOf o.q.fnId)).fingerLimit) (hvec : vector ≤ 63)
    (hen : (s.queue ⟨o.q.link, o.q.fn, num⟩).enable = false) (hwq : s.workQueues (linkQuad o.q.link) < 4096) :
    exec (.createQueue o num size rg hg finger vector ring head) s = .next
      (((s.undispatch (.createQueue o num size rg hg finger vector ring head)).modQueue ⟨o.q.link, o.q.fn, num⟩ (fun x =>
        { enable := true, ring := ring, headAddr := head, vector := vector, finger := finger, headGlove := hg,
          ringGlove := rg, size := size, rejects := x.rejects })).complete o 0 0) := by
  obtain ⟨hs, he, hf, hst⟩ := hr
  rw [show exec _ s = execCreateQueue o num size rg hg finger vector ring head s from rfl, execCreateQueue,
    State.controlCmd_vf s _ o _ hs he hf hst]
  simp [State.qGlove, hf, hmode, hring, hhead, Nat.pos_iff_ne_zero.mp h1, Nat.not_lt.mpr hlim, Nat.not_lt.mpr h64, Nat.not_lt.mpr h4,
    Nat.not_lt.mpr h16, Nat.not_le.mpr hfg, Nat.not_lt.mpr hvec, hen, Nat.not_le.mpr hwq]

theorem exec_destroyQueue {s : State} {o : Origin} {num : Nat} (hr : s.ControlRuns o) (h1 : 1 ≤ num) (h64 : num ≤ 64)
    (hen : (s.queue ⟨o.q.link, o.q.fn, num⟩).enable = true)
    (hidle : (s.queue ⟨o.q.link, o.q.fn, num⟩).head = (s.queue ⟨o.q.link, o.q.fn, num⟩).tail ∨
      (s.queue ⟨o.q.link, o.q.fn, num⟩).faulted = true) :
    exec (.destroyQueue o num) s = .next (({ (s.undispatch (.destroyQueue o num)).cutQueue ⟨o.q.link, o.q.fn, num⟩ with
      work.queues := s.work.queues.del (QId.key ⟨o.q.link, o.q.fn, num⟩) } : State).complete o 0 0) := by
  obtain ⟨hs, he, hf, hg⟩ := hr
  have hidle' : ((s.queue ⟨o.q.link, o.q.fn, num⟩).head != (s.queue ⟨o.q.link, o.q.fn, num⟩).tail &&
      !(s.queue ⟨o.q.link, o.q.fn, num⟩).faulted) = false := by
    rcases hidle with h | h <;> simp [h]
  rw [show exec _ s = execDestroyQueue o num s from rfl, execDestroyQueue, State.controlCmd_vf s _ o _ hs he hf hg]
  simp only [State.undispatch_queue, hidle', hen, Nat.pos_iff_ne_zero.mp h1, Nat.not_lt.mpr h64, beq_iff_eq, decide_false,
    Bool.or_false, Bool.not_true, Bool.false_eq_true, if_false]
  rfl

theorem Tbl.get_del {α : Type} (d : α) (t : Tbl α) (k : Nat) : Tbl.get d (t.del k) k = d := by
  induction t with
  | nil => rfl
  | cons e t ih =>
    obtain ⟨a, v⟩ := e
    by_cases h : a = k
    · simpa [Tbl.del, h] using ih
    · simpa [Tbl.del, h, Tbl.get] using ih

/-- Settles O10: each command by its equation; the enabling of the operator Fingers by the fold over them. -/
theorem queueConfigurationCommandsComplete : Obligations.QueueConfigurationCommandsComplete := by
  refine ⟨fun s f v hb hv hen hf h4 h16 hvec => ?_, fun s l v hb hv hen h8 h9 h4 h16 => ?_, fun s f hb hen hidle => ?_,
    fun s f hb hen hne hf => ?_,
    fun s o num size finger vector ring head rg hg hs hmode he hf hst hring hhead h1 hlim h64 h4 h16 hfg hvec hen hwq hkey => ?_,
    fun s o num hs he hf hst h1 h64 hen hidle hkey => ?_⟩
  · refine ⟨_, (exec_queueEnable hb hv hen (configCheck_vf hf h4 h16 hvec)).trans (congrArg _ (if_neg (by simpa using hf))), ?_,
      fun j hj => State.modQueue_ne _ _ _ hj, State.modQueue_onlyIn ..⟩
    rw [State.modQueue_same]
    simp [Queue.reconfigured, Queue.config, hv]
  · have hq : ((s.modQueue (queue0 ⟨l, 0⟩) (Queue.reconfigured v)).startOperator ⟨l, 0⟩).queue ⟨l, 0, 0⟩ =
        (s.queue ⟨l, 0, 0⟩).reconfigured v := by
      rw [State.startOperator_queue, State.modQueue_same]
    refine ⟨_, (exec_queueEnable hb hv hen (configCheck_pf h8 h9 h4 h16)).trans (congrArg _ (if_pos rfl)), ?_, ?_, ?_, ?_, ?_,
      fun i hi hh => ?_, onlyIn_iff.mpr (by simp)⟩
    case refine_6 =>
      rw [State.startOperator_finger _ _ hi, State.modQueue_finger]
      exact Finger.operating_state hh
    all_goals rw [hq]; simp [Queue.reconfigured, Queue.config, hv]
  · refine ⟨_, exec_queueDisable hb hen hidle, ?_, fun j hj => State.modQueue_ne _ _ _ hj,
      (State.cutQueue_onlyIn ..).comp ((State.modQueue_onlyIn ..).mono (by simp))⟩
    rw [State.modQueue_same]
    simp [Queue.reconfigured, Queue.config, bitAt]
  · exact ⟨_, exec_queueDisable_busy hb hen hne hf, by simp, by simp [State.reject], by simp [State.reject], onlyIn_iff.mpr (by simp)⟩
  · refine ⟨_, exec_createQueue ⟨hs, he, hf, hst⟩ hmode hring hhead h1 hlim h64 h4 h16 hfg hvec hen hwq, ?_, fun f => by simp,
      onlyIn_iff.mpr (by simp)⟩
    rw [State.complete_queue_ne _ _ _ _ (Ne.symm hkey), State.modQueue_same, State.undispatch_queue]
  · refine ⟨_, exec_destroyQueue ⟨hs, he, hf, hst⟩ h1 h64 hen hidle, ?_, fun r hr => ?_, fun f => ?_, ?_⟩
    · rw [State.complete_queue_ne _ _ _ _ (Ne.symm hkey)]
      exact Tbl.get_del ..
    · rw [State.complete_gnet] at hr
      exact State.cutQueue_outst _ _ r hr
    · rw [State.complete_finger]; rfl
    · exact onlyIn_iff.mpr (by simp [State.cutQueue])

end Sys2Proof.Machine
end

