-- ==== Sys2Proof/Proofs/RuleCommands.lean ====
section
/-! PROOFS. The control commands of rules (R204, R213, R222, R384, R385). -/

namespace Sys2Proof.Machine

/-! ### SET_RULES, GET_RULE_FAULT and CLEAR_RULE_FAULT (R204, R213, R222, R384, R385) -/

section ControlCommands
variable {s : State} {o : Origin}

theorem State.ControlRuns.qGlove (hr : s.ControlRuns o) : s.qGlove o.q = some (s.gloveOf o.q.fnId) := by
  obtain ⟨-, -, hf, -⟩ := hr
  simp [State.qGlove, hf]

theorem State.ControlRuns.cmd (hr : s.ControlRuns o) (i : Instr) (f : State → State) : s.controlCmd i o f = f (s.undispatch i) := by
  obtain ⟨hs, he, hf, hg⟩ := hr
  exact State.controlCmd_vf s i o f hs he hf hg

theorem exec_setRules_empty {gs : Bool} {addr : Nat} (hr : s.ControlRuns o) (ha : addr % 16 = 0)
    (hw : s.changeWaits (.setRules o 0 gs addr) (s.gloveOf o.q.fnId) = false) :
    exec (.setRules o 0 gs addr) s = .next ((s.undispatch (.setRules o 0 gs addr)).beginChange (s.gloveOf o.q.fnId) o (.rules [])) := by
  simp [exec, execSetRules, hr.qGlove, hw, hr.cmd, ha]

theorem exec_setRules_reads {n addr : Nat} {gs : Bool} (hr : s.ControlRuns o) (ha : addr % 16 = 0) (hn : 0 < n)
    (hw : s.changeWaits (.setRules o n gs addr) (s.gloveOf o.q.fnId) = false)
    (hwait : s.rulesWait o (s.gloveOf o.q.fnId) n gs addr = none) :
    exec (.setRules o n gs addr) s = .next ((s.undispatch (.setRules o n gs addr)).readRules o (s.gloveOf o.q.fnId) n gs addr) := by
  simp [exec, execSetRules, hr.qGlove, hw, hr.cmd, ha, hwait, Nat.pos_iff_ne_zero.mp hn]

/-- An array within one 4 KiB block of host space is one read, which never waits. -/
theorem rulesHead_whole {n addr : Nat} (h : 16 * n ≤ 4096 - addr % 4096) : rulesHead n addr = 16 * n := by
  simp [rulesHead, h]

theorem State.rulesWait_host {n addr : Nat} (s : State) (o : Origin) (g : Nat) (h : 16 * n ≤ 4096 - addr % 4096) :
    s.rulesWait o g n false addr = none := by
  simp [State.rulesWait, State.rulesPart, rulesHead_whole h, State.issue_host (a := s.qAccess o.q false _ _ _ _) rfl]

theorem State.readRules_host {n addr : Nat} (s : State) (o : Origin) (g : Nat) (h : 16 * n ≤ 4096 - addr % 4096) :
    s.readRules o g n false addr = s.sendHost (.crownRules o g n) (s.packetOf (s.qAccess o.q false .memRd addr (16 * n) [])) o.q.fnId.link
      o.q.fnId.fn addr none := by
  simp only [State.readRules, rulesHead_whole h, State.readRulesPart, State.rulesPart, beq_self_eq_true, Bool.true_or, if_true]
  rw [State.issue_host rfl]
  rfl

theorem exec_getRuleFault {buf : Nat} (hr : s.ControlRuns o) (hb : buf % 32 = 0) :
    exec (.getRuleFault o buf) s = .next ((s.undispatch (.getRuleFault o buf)).crownWrites o buf (s.winBytes (s.gloveOf o.q.fnId)) 0) := by
  have hg : (s.undispatch (.getRuleFault o buf)).qGlove o.q = some (s.gloveOf o.q.fnId) := hr.qGlove
  simp only [exec, execGetRuleFault, hr.cmd, hb, hg]
  rfl

theorem exec_clearRuleFault (hr : s.ControlRuns o) :
    exec (.clearRuleFault o) s = .next (((s.undispatch (.clearRuleFault o)).modGlove (s.gloveOf o.q.fnId)
      (fun x => { x with latch := {} })).complete o 0 0) := by
  have hg : (s.undispatch (.clearRuleFault o)).qGlove o.q = some (s.gloveOf o.q.fnId) := hr.qGlove
  simp only [exec, execClearRuleFault, hr.cmd, hg]
  rfl

end ControlCommands

theorem length_winBytes (s : State) (g : Nat) : (s.winBytes g).length = 32 := by
  simp [State.winBytes, leBytes]

/-- Settles O12: an array in one block of host space is one read that goes out at once; the rest by the commands' equations. -/
theorem ruleCommandsComplete : Obligations.RuleCommandsComplete := by
  intro s o hr
  refine ⟨fun gs addr ha hw => ?_, fun n addr ha hn hfit hw => ?_, fun buf hb => ?_, ?_,
    fun n gs addr ha hn hw hwait => exec_setRules_reads hr ha hn hw hwait⟩
  · obtain ⟨h1, h2, h3, h4⟩ := s.beginChange_undispatch (.setRules o 0 gs addr) o (s.gloveOf o.q.fnId) (.rules [])
    exact ⟨_, exec_setRules_empty hr ha hw, h1, h2, h3, h4.mono (by simp)⟩
  · refine ⟨_, exec_setRules_reads hr ha hn hw (State.rulesWait_host _ _ _ hfit), ?_, fun j => ?_, fun q => ?_, ?_⟩
    all_goals rw [State.readRules_host _ _ _ hfit]
    · exact ⟨_, by rw [State.sendHost, State.request_outst]; rfl, rfl, rfl, rfl, rfl, rfl, rfl⟩
    · simp
    · simp
    · exact onlyIn_iff.mpr (by simp)
  · have hlen := length_winBytes s (s.gloveOf o.q.fnId)
    refine ⟨_, exec_getRuleFault hr hb, ?_, fun q => ?_, ?_⟩
    all_goals rw [State.crownWrites_one (by omega) (by omega)]
    · exact ⟨_, by rw [State.sendHost, State.request_outst]; rfl, rfl, rfl, rfl, rfl, hlen, rfl⟩
    · simp
    · exact onlyIn_iff.mpr (by simp)
  · exact ⟨_, exec_clearRuleFault hr, by simp, fun j hj => by simp [State.modGlove_ne _ _ _ hj],
      State.completes _ _ _ _ _ fun q => by simp, onlyIn_iff.mpr (by simp)⟩

end Sys2Proof.Machine
end

