-- ==== Sys2Proof/Proofs/FingerControl.lean ====
section
/-! PROOFS. START_FINGER, STOP_FINGER, token buckets and the event register (R386-R388, R418, R424, R432). -/

namespace Sys2Proof.Machine

/-! ### START_FINGER and STOP_FINGER (R386-R388, R424, R430, R432) -/

section FingerControl
variable {s : State} {o : Origin}

/-- A control command of the PF, or of a VF whose glove is not blank, runs (R372, R661). -/
theorem State.controlCmd_runs (hs : s.serves = true) (he : s.fnExists o.q.fnId = true)
    (hg : o.q.fn = 0 ∨ s.blankGlove (s.gloveOf o.q.fnId) = false) (i : Instr) (f : State → State) :
    s.controlCmd i o f = f (s.undispatch i) := by
  have hblank : (s.undispatch i).blankGlove (s.gloveOf o.q.fnId) = s.blankGlove (s.gloveOf o.q.fnId) := rfl
  by_cases hf : o.q.fn = 0
  · simp [State.controlCmd, hs, he, State.qGlove, hf]
  · simp [State.controlCmd, hs, he, State.qGlove, hf, hblank, hg.resolve_left hf]

@[simp] theorem State.undispatch_fgLimits (s : State) (i : Instr) (q : QId) : (s.undispatch i).fgLimits q = s.fgLimits q := rfl
@[simp] theorem State.undispatch_fgBarred (s : State) (i : Instr) (q : QId) : (s.undispatch i).fgBarred q = s.fgBarred q := rfl
@[simp] theorem State.undispatch_noPlace (s : State) (i : Instr) (f : FgId) : (s.undispatch i).noPlace f = s.noPlace f := rfl

theorem State.ControlRuns.notBlank (hr : s.ControlRuns o) : s.blankGlove (s.gloveOf o.q.fnId) = false := by
  obtain ⟨-, -, -, hg⟩ := hr
  simp [State.blankGlove, hg]

theorem State.ControlRuns.limits (hr : s.ControlRuns o) :
    s.fgLimits o.q = ((s.glove (s.gloveOf o.q.fnId)).fingerLimit, (s.glove (s.gloveOf o.q.fnId)).rate) := by
  rw [State.fgLimits, hr.qGlove]

theorem State.ControlRuns.notBarred (hr : s.ControlRuns o)
    (ht : (s.glove (s.gloveOf o.q.fnId)).tdisp = true → (s.glove (s.gloveOf o.q.fnId)).tdi = .run) : s.fgBarred o.q = false := by
  have hq := hr.qGlove
  obtain ⟨-, -, -, hg⟩ := hr
  simp only [State.fgBarred, hq, hg, bne_self_eq_false, Bool.false_or, Bool.and_eq_false_imp]
  exact fun h => by simp [ht h]

theorem exec_startFinger {f : Nat} {resume bulk : Bool} {share burst : Nat} (hs : s.serves = true) (he : s.fnExists o.q.fnId = true)
    (hg : o.q.fn = 0 ∨ s.blankGlove (s.gloveOf o.q.fnId) = false) (hal : burst % 64 = 0) (hb : 0 < burst) (hb' : burst ≤ 2 ^ 20)
    (hlim : f < (s.fgLimits o.q).1) (hsh : 0 < share) (hsh' : share ≤ (s.fgLimits o.q).2) (hbar : s.fgBarred o.q = false)
    (hst : (s.finger ⟨o.q.link, o.q.fn, f⟩).state ≠ .running)
    (hplace : (s.finger ⟨o.q.link, o.q.fn, f⟩).engine ≠ none ∨ s.noPlace ⟨o.q.link, o.q.fn, f⟩ = false) :
    exec (.startFinger o f resume bulk share burst) s = .next
      (((s.undispatch (.startFinger o f resume bulk share burst)).fgStart ⟨o.q.link, o.q.fn, f⟩ resume bulk share burst).complete o 0 0) := by
  have hplace' : ((s.finger ⟨o.q.link, o.q.fn, f⟩).engine.isNone && s.noPlace ⟨o.q.link, o.q.fn, f⟩) = false := by
    rcases hplace with h | h
    · rw [Option.isNone_eq_false_iff.mpr (Option.isSome_iff_ne_none.mpr h), Bool.false_and]
    · rw [h, Bool.and_false]
  have hst' : ((s.finger ⟨o.q.link, o.q.fn, f⟩).state == .running) = false := by simpa using hst
  simp only [exec, execStartFinger, State.controlCmd_runs hs he hg, State.undispatch_fgLimits, State.undispatch_fgBarred,
    State.undispatch_noPlace, State.undispatch_finger, State.checked_cons, State.checked_nil, hal, hbar, hplace', hst', Nat.not_le.mpr hlim,
    Nat.not_lt.mpr hsh', Nat.not_lt.mpr hb', Nat.pos_iff_ne_zero.mp hb, Nat.pos_iff_ne_zero.mp hsh, bne_self_eq_false, decide_false,
    beq_eq_false_iff_ne.mpr (Nat.pos_iff_ne_zero.mp hb), beq_eq_false_iff_ne.mpr (Nat.pos_iff_ne_zero.mp hsh), Bool.or_self,
    Bool.false_eq_true, if_false]

/-- What START_FINGER makes of a stopped Finger. -/
def Finger.started (share burst : Nat) (bulk : Bool) (x : Finger) : Finger :=
  { x with state := .running, share := share, burst := burst, bulk := bulk, tokens := burst, stop := none, stopCode := none,
           halt := none, ibuf := [] }

theorem State.fgStart_stopped {s : State} {f : FgId} (hst : (s.finger f).state = .stopped) (he : (s.finger f).engine ≠ none)
    (resume bulk : Bool) (share burst : Nat) : s.fgStart f resume bulk share burst = s.modFinger f (Finger.started share burst bulk) := by
  have he' : (s.finger f).engine.isNone = false := by
    rw [Option.isNone_eq_false_iff]; exact Option.isSome_iff_ne_none.mpr he
  simp only [State.fgStart, hst, he', Bool.false_eq_true, if_false, State.modFinger_modFinger]
  rfl

section Stop
variable {f : Nat} (hs : s.serves = true) (he : s.fnExists o.q.fnId = true)
  (hg : o.q.fn = 0 ∨ s.blankGlove (s.gloveOf o.q.fnId) = false) (hlim : f < (s.fgLimits o.q).1)
  (hstop : (s.finger ⟨o.q.link, o.q.fn, f⟩).stop = none)
include hs he hg hlim hstop

/-- STOP_FINGER waits for a running Finger's boundary (R387, R432). -/
theorem exec_stopFinger_running (hst : (s.finger ⟨o.q.link, o.q.fn, f⟩).state = .running) :
    exec (.stopFinger o f) s = .next (((s.undispatch (.stopFinger o f)).modFinger ⟨o.q.link, o.q.fn, f⟩ (fun x =>
      { x with stop := some (some o) })).fgBoundary ⟨o.q.link, o.q.fn, f⟩) := by
  simp only [exec, execStopFinger, hstop, Option.isSome_none, Bool.false_eq_true, if_false, State.controlCmd_runs hs he hg,
    State.undispatch_fgLimits, Nat.not_le.mpr hlim, State.undispatch_finger, hst]

/-- STOP_FINGER ends a halted Finger's entry with the latched code. -/
theorem exec_stopFinger_halted (hst : (s.finger ⟨o.q.link, o.q.fn, f⟩).state = .halted) :
    exec (.stopFinger o f) s = .next (((s.undispatch (.stopFinger o f)).fgFinish ⟨o.q.link, o.q.fn, f⟩
      (s.finger ⟨o.q.link, o.q.fn, f⟩).haltCode (s.finger ⟨o.q.link, o.q.fn, f⟩).haltResult).fgStopped ⟨o.q.link, o.q.fn, f⟩ (some o)) := by
  simp only [exec, execStopFinger, hstop, Option.isSome_none, Bool.false_eq_true, if_false, State.controlCmd_runs hs he hg,
    State.undispatch_fgLimits, Nat.not_le.mpr hlim, State.undispatch_finger, hst]

theorem exec_stopFinger_stopped (hst : (s.finger ⟨o.q.link, o.q.fn, f⟩).state = .stopped) :
    exec (.stopFinger o f) s = .next ((s.undispatch (.stopFinger o f)).complete o 0 0) := by
  simp only [exec, execStopFinger, hstop, Option.isSome_none, Bool.false_eq_true, if_false, State.controlCmd_runs hs he hg,
    State.undispatch_fgLimits, Nat.not_le.mpr hlim, State.undispatch_finger, hst]

end Stop

theorem State.fgStopped_finger_same (s : State) (f : FgId) (b : Option Origin) :
    (s.fgStopped f b).finger f = { s.finger f with state := .stopped, stop := none } := by
  cases b <;> simp [State.fgStopped]

theorem State.fgStopped_finger_ne (s : State) {f j : FgId} (h : j.key ≠ f.key) (b : Option Origin) :
    (s.fgStopped f b).finger j = s.finger j := by
  cases b <;> simp [State.fgStopped, State.modFinger_ne _ _ _ h]

theorem State.fgStopped_queue (s : State) (f : FgId) (o : Origin) (q : QId) :
    (s.fgStopped f (some o)).queue q = ((s.modFinger f (fun x => { x with state := .stopped, stop := none })).complete o 0 0).queue q := rfl

/-- At a boundary a Finger without an entry is stopped by the STOP_FINGER that waits. -/
theorem State.fgBoundary_stops {s : State} {f : FgId} (hst : (s.finger f).state = .running) (hh : (s.finger f).halt = none)
    (hb : s.fgAtBoundary f = true) (hent : (s.finger f).entry = none) (o : Origin) :
    (s.modFinger f (fun x => { x with stop := some (some o) })).fgBoundary f =
      (s.modFinger f (fun x => { x with stop := some (some o) })).fgStopped f (some o) := by
  have hb' : (s.modFinger f (fun x => { x with stop := some (some o) })).fgAtBoundary f = true := by
    simpa [State.fgAtBoundary] using hb
  simp only [State.fgBoundary, hb', State.modFinger_same, hst, hh, hent]
  simp

/-- Nothing waits for a running Finger's boundary: passing it changes nothing. -/
theorem State.fgBoundary_calm {s : State} {f : FgId} (hst : (s.finger f).state = .running) (hh : (s.finger f).halt = none)
    (hs : (s.finger f).stop = none) (hc : (s.finger f).stopCode = none) : s.fgBoundary f = s := by
  simp [State.fgBoundary, hst, hh, hs, hc]

end FingerControl

/-! ### Event bits (R418) -/

theorem exec_tokenRefill (s : State) (f : FgId) : exec (.tokenRefill f) s = .next (s.modFinger f (fun x =>
    { x with tokens := min x.burst (x.tokens + s.fgShare f * (s.quad (linkQuad f.link)).cur / 2) })) := rfl

theorem exec_fngEventsSet {s : State} {f : FnId} (hb : s.bar0On f = true) (b : BitVec 32) :
    exec (.fngEventsSet f b) s = .next ((s.modFn f (fun x => { x with events := x.events ||| b })).eventWake f 16) := by
  simp [exec, execFngEventsSet, hb, State.setEvents]

theorem exec_fngEventClr {s : State} {f : FnId} (hb : s.bar0On f = true) (b : BitVec 32) :
    exec (.fngEventClr f b) s = .next (s.modFn f (fun x => { x with events := x.events &&& ~~~b })) := by
  simp [exec, execFngEventClr, hb]

/-- A Finger's WAIT on the event register ends and nothing waits to stop it: PC moves on. -/
def Finger.waited (x : Finger) : Finger :=
  { x with ibuf := [], pc := (x.pc + 32) % 2 ^ 64, transfer := none, waiting := none, signalling := none }

theorem State.waitDone_calm {s : State} {f : FgId} (hst : (s.finger f).state = .running) (hh : (s.finger f).halt = none)
    (hs : (s.finger f).stop = none) (hc : (s.finger f).stopCode = none) : s.waitDone f = (s.unwait f).modFinger f Finger.waited := by
  rw [State.waitDone, State.fgAdvance, State.modFinger_modFinger]
  refine State.fgBoundary_calm ?_ ?_ ?_ ?_ <;> rw [State.modFinger_same, State.unwait_finger] <;> assumption

/-- The one waiter of a function is woken by a bit of its mask. -/
theorem State.eventWake_one {s : State} {f : FnId} {i : Nat} {w : Waiting} (n : Nat) (hw : (s.fn f).waiters = [i])
    (hwt : (s.finger ⟨f.link, f.fn, i⟩).waiting = some w) (hk : w.kind = 2) (hbits : (s.fn f).events &&& w.mask.setWidth 32 ≠ 0)
    (hst : (s.finger ⟨f.link, f.fn, i⟩).state = .running) (hh : (s.finger ⟨f.link, f.fn, i⟩).halt = none)
    (hs : (s.finger ⟨f.link, f.fn, i⟩).stop = none) (hc : (s.finger ⟨f.link, f.fn, i⟩).stopCode = none) :
    s.eventWake f (n + 1) = ((s.modFn f (fun y => { y with events := y.events &&& ~~~(w.mask.setWidth 32) })).unwait ⟨f.link, f.fn, i⟩).modFinger
      ⟨f.link, f.fn, i⟩ Finger.waited := by
  have hbits' : ((s.fn f).events &&& w.mask.setWidth 32 != 0) = true := by simpa using hbits
  rw [State.eventWake]
  simp only [hw, hwt, hk, beq_self_eq_true, if_true, List.find?_cons, hbits']
  rw [State.waitDone_calm (by simpa using hst) (by simpa using hh) (by simpa using hs) (by simpa using hc)]
  refine State.eventWake_nil _ _ _ ?_
  rw [State.modFinger_fn, State.unwait, show FgId.fnId ⟨f.link, f.fn, i⟩ = f from rfl, State.modFn_same, State.modFn_same]
  simp [hw]

/-- Settles O13: the two commands by their equations and what `fgStopped` and `fgBoundary` do there; the event register by the rule for
its one waiter. -/
theorem fingerControlTokensAndEventsComplete : Obligations.FingerControlTokensAndEventsComplete := by
  refine ⟨fun s o f hr hlim => ?_, fun s o f resume bulk share burst hs he hg hal hb hb' hlim hsh hsh' hbar hst hplace =>
      exec_startFinger hs he hg hal hb hb' hlim hsh hsh' hbar hst hplace,
    fun s o f hs he hg hlim hstop hst => exec_stopFinger_running hs he hg hlim hstop hst,
    fun s f => ⟨_, exec_tokenRefill s f, State.modFinger_same .., fun j hj => State.modFinger_ne _ _ _ hj, fun q => rfl,
      State.modFinger_onlyIn ..⟩,
    fun s f b hb hw => ?_,
    fun s f b hb => ⟨_, exec_fngEventClr hb b, State.modFn_same .., fun j hj => State.modFn_ne _ _ _ hj, onlyIn_iff.mpr (by simp)⟩,
    fun s f b i w hb hw hwt hk hbits hst hh hs hc => ?_⟩
  · have hlim' : f < (s.fgLimits o.q).1 := by rw [hr.limits]; exact hlim
    obtain ⟨hse, hfe, -, -⟩ := id hr
    have hnb : o.q.fn = 0 ∨ s.blankGlove (s.gloveOf o.q.fnId) = false := .inr hr.notBlank
    refine ⟨fun resume bulk share burst hst heng hal hb hb' hsh hsh' htdi => ?_, fun hst hs => ?_, fun hst hs hh hbd hent => ?_,
      fun e hst hs hent hne => ?_⟩
    · refine ⟨_, exec_startFinger hse hfe hnb hal hb hb' hlim' hsh (by rw [hr.limits]; exact hsh') (hr.notBarred htdi)
        (by simp [hst]) (.inl heng), ?_⟩
      rw [State.fgStart_stopped (s := s.undispatch _) hst heng]
      exact ⟨by rw [State.complete_finger, State.modFinger_same]; rfl,
        fun j hj => by rw [State.complete_finger, State.modFinger_ne _ _ _ hj]; rfl,
        State.completes _ _ _ _ _ fun q => by simp, onlyIn_iff.mpr (by simp)⟩
    · exact ⟨_, exec_stopFinger_stopped hse hfe hnb hlim' hs hst, fun j => by simp, State.completes _ _ _ _ _ fun q => by simp, onlyIn_iff.mpr (by simp)⟩
    · refine ⟨_, exec_stopFinger_running hse hfe hnb hlim' hs hst, ?_⟩
      rw [State.fgBoundary_stops (s := s.undispatch _) hst hh hbd hent]
      refine ⟨by rw [State.fgStopped_finger_same], fun j hj => ?_, State.completes _ _ _ _ _ fun q => by simp, onlyIn_iff.mpr (by simp)⟩
      rw [State.fgStopped_finger_ne _ hj, State.modFinger_ne _ _ _ hj, State.undispatch_finger]
    · refine ⟨_, exec_stopFinger_halted hse hfe hnb hlim' hs hst, ?_, ?_, ?_, ?_, onlyIn_iff.mpr (by simp)⟩
      · rw [State.fgStopped_finger_same]
      · rw [State.fgStopped_finger_same, State.fgFinish_finger_same]; rfl
      · rw [State.fgStopped_queue, State.complete_queue_ne _ _ _ _ hne, State.modFinger_queue, State.fgFinish_queue (s := s.undispatch _) hent]
        exact State.complete_congr _ _ _ rfl
      · rw [State.fgStopped_queue]
        refine State.complete_congr _ _ _ ?_
        rw [State.modFinger_queue, State.fgFinish_queue (s := s.undispatch _) hent, State.complete_queue_ne _ _ _ _ (Ne.symm hne), State.undispatch_queue]
  · refine ⟨_, (exec_fngEventsSet hb b).trans (congrArg _ (State.eventWake_nil _ _ _ (by simpa using hw))), State.modFn_same ..,
      fun j hj => State.modFn_ne _ _ _ hj, onlyIn_iff.mpr (by simp)⟩
  · refine ⟨_, (exec_fngEventsSet hb b).trans (congrArg _ (State.eventWake_one 15 (by simpa using hw) (by simpa using hwt) hk
      (by simpa using hbits) (by simpa using hst) (by simpa using hh) (by simpa using hs) (by simpa using hc))), ?_, ?_, ?_, ?_,
      fun j hj => ?_, onlyIn_iff.mpr (by simp)⟩
    · rw [State.modFinger_fn, State.unwait, show FgId.fnId ⟨f.link, f.fn, i⟩ = f from rfl, State.modFn_same, State.modFn_same,
        State.modFn_same]
    · rw [State.modFinger_fn, State.unwait, show FgId.fnId ⟨f.link, f.fn, i⟩ = f from rfl, State.modFn_same, State.modFn_same,
        State.modFn_same]
      simp [hw]
    · rw [State.modFinger_same]; rfl
    · rw [State.modFinger_same]; simp [Finger.waited]
    · rw [State.modFinger_ne _ _ _ hj, State.unwait_finger]; simp

end Sys2Proof.Machine
end

