-- ==== Sys2Proof/Proofs/WorkEntries.lean ====
section
/-! PROOFS. The four work entries (R389, R390, R399, R423). -/

namespace Sys2Proof.Machine

/-! ### The four work entries (R389, R390, R399, R423) -/

/-- A Finger with an entry it has just taken (R389). -/
def Finger.taking (o : Origin) (op target : Nat) (x : Finger) : Finger :=
  { x.idle with entry := some o, opcode := op, target := target, lastQueue := x.lastQueue }

section Entries
variable {s : State} {f : FgId} {o : Origin} {target : Nat}

/-- A Finger that can take an entry holds it and begins it. -/
theorem State.takeEntry_runs {i : Instr} {named : Bool} {op : Nat} (hs : s.serves = true) (hfree : (s.undispatch i).fgFree f = true)
    (hn : named = true → f.fn ≠ 0 ∨ s.linkHas f.link target = true) (start : State → State) :
    s.takeEntry i f o target named op false start = start ((s.undispatch i).modFinger f (Finger.taking o op target)) := by
  have hbad : (f.fn == 0 && named && !s.linkHas f.link target) = false := by
    cases named with
    | false => simp
    | true => rcases hn rfl with h | h <;> simp [h]
  simp only [State.takeEntry, hs, hfree, hbad, Bool.not_true, Bool.or_self, Bool.false_eq_true, if_false]
  rfl

/-- A transfer whose host ranges end within the address space begins. -/
theorem State.fgBegin_fits (s : State) (f : FgId) {t : Transfer} (hsrc : t.pattern = none → t.srcGlove = true ∨ t.src + t.len ≤ 2 ^ 64)
    (hdst : t.dstGlove = true ∨ t.dst + t.len ≤ 2 ^ 64) : s.fgBegin f t = s.modFinger f (fun x => { x with transfer := some t }) := by
  have hs : (t.pattern.isNone && (!t.srcGlove && decide (2 ^ 64 < t.src + t.len))) = false := by
    cases hp : t.pattern with
    | some p => rfl
    | none =>
      rcases hsrc hp with h | h
      · simp [h]
      · rw [decide_eq_false (Nat.not_lt.mpr h), Bool.and_false, Bool.and_false]
  have hd : (!t.dstGlove && decide (2 ^ 64 < t.dst + t.len)) = false := by
    rcases hdst with h | h
    · simp [h]
    · rw [decide_eq_false (Nat.not_lt.mpr h), Bool.and_false]
  simp only [State.fgBegin, hs, hd, Bool.false_eq_true, if_false]

theorem exec_runProgram {gs : Bool} {addr a0 a1 a2 a3 : Nat} (hs : s.serves = true) (hn : f.fn ≠ 0 ∨ s.linkHas f.link target = true)
    (hfree : (s.undispatch (.runProgram f o target gs addr a0 a1 a2 a3)).fgFree f = true) (ha : addr % 32 = 0) :
    exec (.runProgram f o target gs addr a0 a1 a2 a3) s = .next ((s.undispatch (.runProgram f o target gs addr a0 a1 a2 a3)).modFinger f
      (fun x => { x.taking o 0x20 target with
        program := true, pc := addr, pcGlove := gs, a0 := BitVec.ofNat 64 a0, a1 := BitVec.ofNat 64 a1,
        a2 := BitVec.ofNat 64 a2, a3 := BitVec.ofNat 64 a3, l0 := 0, l1 := 0 })) := by
  have ha' : (addr % 32 != 0) = false := by simp [ha]
  rw [show exec _ s = execRunProgram f o target gs addr a0 a1 a2 a3 s from rfl, execRunProgram, ha',
    State.takeEntry_runs hs hfree (fun _ => hn), State.modFinger_modFinger]

theorem exec_copy {sg dg : Bool} {src dst len : Nat} (hs : s.serves = true) (hn : f.fn ≠ 0 ∨ s.linkHas f.link target = true)
    (hfree : (s.undispatch (.copy f o target sg dg src dst len)).fgFree f = true) (hlen : len ≠ 0)
    (hsrc : sg = true ∨ src + len ≤ 2 ^ 64) (hdst : dg = true ∨ dst + len ≤ 2 ^ 64) :
    exec (.copy f o target sg dg src dst len) s = .next ((s.undispatch (.copy f o target sg dg src dst len)).modFinger f
      (fun x => { x.taking o 0x21 target with
        transfer := some { src := src, dst := dst, len := len, srcGlove := sg, dstGlove := dg, pattern := none } })) := by
  have hl : (len == 0) = false := by simp [hlen]
  rw [show exec _ s = execCopy f o target sg dg src dst len s from rfl, execCopy, hl, State.takeEntry_runs hs hfree (fun _ => hn),
    State.fgBegin_fits _ _ (fun _ => hsrc) hdst, State.modFinger_modFinger]

theorem exec_fill {dg : Bool} {dst len : Nat} {p : BitVec 64} (hs : s.serves = true) (hn : f.fn ≠ 0 ∨ s.linkHas f.link target = true)
    (hfree : (s.undispatch (.fill f o target dg dst len p)).fgFree f = true) (hlen : len ≠ 0) (hmax : len < 2 ^ 32)
    (hdst : dg = true ∨ dst + len ≤ 2 ^ 64) :
    exec (.fill f o target dg dst len p) s = .next ((s.undispatch (.fill f o target dg dst len p)).modFinger f
      (fun x => { x.taking o 0x22 target with
        transfer := some { src := 0, dst := dst, len := len, srcGlove := false, dstGlove := dg, pattern := some p } })) := by
  have hl : (len == 0 || decide (2 ^ 32 ≤ len)) = false := by
    rw [decide_eq_false (Nat.not_le.mpr hmax), Bool.or_false]; simpa using hlen
  rw [show exec _ s = execFill f o target dg dst len p s from rfl, execFill, hl, State.takeEntry_runs hs hfree (fun _ => hn),
    State.fgBegin_fits _ _ (fun h => by cases h) hdst, State.modFinger_modFinger]

/-- A Finger that holds a FLUSH whose zero-length reads are on their way (R390). -/
def Finger.flushing (o : Origin) (ks : List Nat) (x : Finger) : Finger :=
  { x.taking o 0x23 x.target with
    signalling := some { word := 0, step := 2, zl := ks.map (· / 256), flush := true } }

theorem exec_flush_none (hs : s.serves = true) (hfree : (s.undispatch (.flush f o)).fgFree f = true)
    (hk : (s.queue o.q).wroteLinks = []) : exec (.flush f o) s = .next
      ((((s.undispatch (.flush f o)).modFinger f (Finger.taking o 0x23 (s.finger f).target)).fgFinish f 0 0).fgBoundary f) := by
  rw [show exec _ s = execFlush f o s from rfl, execFlush, State.takeEntry_runs hs hfree (fun h => by cases h)]
  simp [hk]

theorem exec_flush_some (hs : s.serves = true) (hfree : (s.undispatch (.flush f o)).fgFree f = true)
    (hk : (s.queue o.q).wroteLinks ≠ []) : exec (.flush f o) s = .next
      (((s.undispatch (.flush f o)).modFinger f (Finger.flushing o (s.queue o.q).wroteLinks)).sendZl f (s.queue o.q).wroteLinks) := by
  have hk' : (s.queue o.q).wroteLinks.isEmpty = false := by simpa using hk
  rw [show exec _ s = execFlush f o s from rfl, execFlush, State.takeEntry_runs hs hfree (fun h => by cases h)]
  simp only [State.modFinger_queue, State.undispatch_queue, hk', Bool.false_eq_true, if_false, State.modFinger_modFinger]
  refine congrArg (fun u : State => Host.Outcome.next (u.sendZl f (s.queue o.q).wroteLinks)) (State.modFinger_congr ?_)
  rw [State.undispatch_finger]
  rfl

/-- A Finger that can take an entry runs, and nothing waits to stop it. -/
theorem State.running_of_fgFree (h : s.fgFree f = true) : (s.finger f).state = .running ∧ (s.finger f).stop = none := by
  simp only [State.fgFree, Bool.and_eq_true, beq_iff_eq, Option.isNone_iff_eq_none] at h
  obtain ⟨⟨⟨⟨⟨⟨⟨-, -⟩, hst⟩, -⟩, -⟩, hstop⟩, -⟩, -⟩ := h
  exact ⟨hst, hstop⟩

/-- The end of an entry leaves nothing that waits for the Finger's boundary. -/
theorem State.fgFinish_fgBoundary {f : FgId} (hst : (s.finger f).state = .running) (hs : (s.finger f).stop = none) (c r : Nat) :
    (s.fgFinish f c r).fgBoundary f = s.fgFinish f c r := by
  refine State.fgBoundary_calm ?_ ?_ ?_ ?_ <;> rw [State.fgFinish_finger_same]
  · exact hst
  · rfl
  · exact hs
  · rfl

end Entries

/-- Settles O14: each entry by its equation; a FLUSH with one link by the one request that `sendZl` then sends. -/
theorem workEntriesBegin : Obligations.WorkEntriesBegin := by
  intro s f o target hs hn
  refine ⟨fun gs addr a0 a1 a2 a3 hfree ha => ?_, fun sg dg src dst len hfree hl hsrc hdst => ?_, fun dg dst len p hfree hl hmax hdst => ?_,
    fun hfree hk => ?_, fun k hfree hk => ?_, fun hfree hk => exec_flush_some hs hfree hk⟩
  · exact ⟨_, exec_runProgram hs hn hfree ha, by rw [State.modFinger_same]; rfl, fun j hj => by rw [State.modFinger_ne _ _ _ hj]; rfl,
      fun q => rfl, onlyIn_iff.mpr (by simp)⟩
  · exact ⟨_, exec_copy hs hn hfree hl hsrc hdst, by rw [State.modFinger_same]; rfl, fun j hj => by rw [State.modFinger_ne _ _ _ hj]; rfl,
      fun q => rfl, onlyIn_iff.mpr (by simp)⟩
  · exact ⟨_, exec_fill hs hn hfree hl hmax hdst, by rw [State.modFinger_same]; rfl, fun j hj => by rw [State.modFinger_ne _ _ _ hj]; rfl,
      fun q => rfl, onlyIn_iff.mpr (by simp)⟩
  · obtain ⟨hst, hstop⟩ := State.running_of_fgFree hfree
    refine ⟨_, exec_flush_none hs hfree hk, ?_⟩
    rw [State.fgFinish_fgBoundary (by rw [State.modFinger_same]; exact hst) (by rw [State.modFinger_same]; exact hstop)]
    refine ⟨?_, ?_, State.fgFinish_completes (fun q => rfl) (by rw [State.modFinger_same]; rfl), fun j hj => ?_,
      (OnlyIn.trans (ps := [.work]) (onlyIn_iff.mpr (by simp)) (State.fgFinish_onlyIn ..)).mono (by simp)⟩
    · rw [State.fgFinish_finger_same]; rfl
    · rw [State.fgFinish_finger_same, State.modFinger_same]; exact hst
    · rw [State.fgFinish_finger_ne _ _ _ hj, State.modFinger_ne _ _ _ hj, State.undispatch_finger]
  · refine ⟨_, exec_flush_some hs hfree (by simp [hk]), ?_⟩
    simp only [hk, State.sendZl, List.foldl_cons, List.foldl_nil]
    refine ⟨by rw [State.sendHost_finger, State.modFinger_same]; rfl,
      ⟨_, by rw [State.sendHost, State.request_outst]; rfl, rfl, rfl, rfl, rfl, rfl⟩, fun j hj => ?_, fun q => by simp,
      onlyIn_iff.mpr (by simp)⟩
    rw [State.sendHost_finger, State.modFinger_ne _ _ _ hj, State.undispatch_finger]

end Sys2Proof.Machine
end

