-- ==== Sys2Proof/Proofs/Programs.lean ====
section
/-! PROOFS. Halts at once, MOVE, line fetches and the engine's issue (R393, R398, R400, R402, R408, R410). -/

namespace Sys2Proof.Machine

/-! ### A halt that takes effect at once (R398, R427) -/

/-- A Finger halted by `h` with nothing of it outstanding. -/
def Finger.haltedBy (h : Halt) (x : Finger) : Finger :=
  { x with state := .halted, halt := none, stopCode := none, fetching := false, haltCode := h.code, faultCause := h.cause,
           faultAddr := h.addr, faultSpace := h.space, faultFetch := h.fetch, faultWrite := h.write,
           bytesDone := match x.transfer with
             | some t => t.done % 2 ^ 32
             | none => 0 }

/-- A pending halt takes effect where nothing is outstanding and no stop waits. -/
theorem State.fgSettle_settles {s : State} {f : FgId} {h : Halt} (hst : (s.finger f).state = .running) (hh : (s.finger f).halt = some h)
    (hout : s.fgOut f = []) (hstop : (s.finger f).stop = none) :
    s.fgSettle f = ((s.unwait f).modFinger f (Finger.haltedBy h)).raiseCause f.fnId causeFinger := by
  simp only [State.fgSettle, hh, hout, hst, List.isEmpty_nil, Bool.not_true, bne_self_eq_false, Bool.or_self, Bool.false_eq_true, if_false]
  split
  · next o ho => exact absurd ho (by simp [hstop])
  · rfl

theorem State.fgHalt_settles {s : State} {f : FgId} (hst : (s.finger f).state = .running) (hh : (s.finger f).halt = none)
    (hout : s.fgOut f = []) (hstop : (s.finger f).stop = none) (h : Halt) :
    s.fgHalt f h = (((s.dropHeldAcc (2 * FgId.key f + 1)).unwait f).modFinger f (Finger.haltedBy h)).raiseCause f.fnId causeFinger := by
  have hcomm : (((s.dropHeldAcc (2 * FgId.key f + 1)).modFinger f (fun x => { x with halt := some h })).unwait f).modFinger f
      (Finger.haltedBy h) = ((s.dropHeldAcc (2 * FgId.key f + 1)).unwait f).modFinger f (Finger.haltedBy h) :=
    State.modFinger_modFinger ((s.dropHeldAcc (2 * FgId.key f + 1)).unwait f) f (fun x => { x with halt := some h }) _
  simp only [State.fgHalt, hst, hh, BEq.rfl, Option.isNone_none, Bool.and_self, if_true]
  rw [State.fgSettle_settles (h := h), hcomm]
  · rw [State.modFinger_same]; exact hst
  · rw [State.modFinger_same]
  · exact hout
  · rw [State.modFinger_same]; exact hstop

theorem State.fgHalt_settled {s : State} {f : FgId} (hst : (s.finger f).state = .running) (hh : (s.finger f).halt = none)
    (hout : s.fgOut f = []) (hstop : (s.finger f).stop = none) (h : Halt) :
    (s.fgHalt f h).finger f = (s.finger f).haltedBy h ∧ (∀ j, j.key ≠ f.key → (s.fgHalt f h).finger j = s.finger j) ∧
      (∀ q, (s.fgHalt f h).queue q = s.queue q) ∧ OnlyIn [.work, .host, .net] s (s.fgHalt f h) := by
  rw [State.fgHalt_settles hst hh hout hstop]
  exact ⟨by simp, fun j hj => by simp [State.modFinger_ne _ _ _ hj], fun q => by simp, onlyIn_iff.mpr (by simp)⟩

@[simp] theorem State.fgCharge_queue (s : State) (f : FgId) (n : Nat) (q : QId) : (s.fgCharge f n).queue q = s.queue q := rfl

/-! ### MOVE, a word that does not decode, and the fetch of a line (R400, R402, R408) -/

section Instruction
variable {s : State} {f : FgId} {w : BitVec 256}

theorem exec_move {sr dr len : Nat} {sg dg si di : Bool} {so d : BitVec 64} (hat : s.fgAtInstr f = true)
    (hw : (s.finger f).instr = some w) (hop : w.toNat % 256 = 0x01)
    (hd : decodeFg (f.fn == 0) w = some (.move sr dr sg dg si di len so d))
    (hsrc : sg = true ∨ ((s.finger f).a sr + so).toNat + len ≤ 2 ^ 64) (hdst : dg = true ∨ ((s.finger f).a dr + d).toNat + len ≤ 2 ^ 64) :
    exec (.move f w) s = .next (s.modFinger f (fun x => { x.executing 0x01 w with
      transfer := some { src := ((s.finger f).a sr + so).toNat, dst := ((s.finger f).a dr + d).toNat, len := len, srcGlove := sg,
                         dstGlove := dg, pattern := none, program := true, srcInc := if si then some sr else none,
                         dstInc := if di then some dr else none } })) := by
  simp only [exec, execMove, State.fgExec_decoded hat hw _ hop hd, State.modFinger_same]
  rw [State.fgBegin_fits, State.modFinger_modFinger]
  · rfl
  · exact fun _ => hsrc
  · exact hdst

theorem exec_invalidInstruction (hat : s.fgAtInstr f = true) (hw : (s.finger f).instr = some w) (hd : decodeFg (f.fn == 0) w = none) :
    exec (.invalidInstruction f w) s = .next ((s.modFinger f (·.executing (w.toNat % 256) w)).fgHalt f (plainHalt 0x0500)) := by
  simp only [exec, execInvalidInstruction, hat, hw, hd, BEq.rfl, Option.isNone_none, Bool.and_self, if_true]
  rfl

/-- The fetch of the line at PC goes out (R400). -/
theorem exec_programLineFetch {u : State} {sp : Nat} {l : Option Nat} (hat : s.fgAtInstr f = true) (hi : (s.finger f).instr = none)
    (htok : 64 ≤ (s.finger f).tokens) (hroom : s.fgRoom f = true) (hread : s.fgReadRoom f 64 = true)
    (habv : (s.finger f).pcGlove = true → s.abvHolds f (s.finger f).target ((s.finger f).pc / 64 * 64) 64 false = false)
    (hsent : s.issue (s.fgAccess f (s.finger f).pcGlove .memRd ((s.finger f).pc / 64 * 64) 64 [])
      (fun sp => .fgFetch f ((s.finger f).pc / 64 * 64) sp) = .sent u sp l) :
    exec (.programLineFetch f) s = .next ((u.fgCharge f 64).modFinger f (fun x => { x with fetching := true })) := by
  have habv' : ((s.finger f).pcGlove && s.abvHolds f (s.finger f).target ((s.finger f).pc / 64 * 64) 64 false) = false := by
    rw [Bool.and_eq_false_imp]; exact habv
  simp only [exec, execProgramLineFetch, hat, hi, hroom, hread, habv', Nat.not_lt.mpr htok, Option.isSome_none, Bool.not_true,
    decide_false, Bool.or_self, Bool.false_eq_true, if_false, hsent]

/-! ### The engine's next issue (R393, R410, R425) -/

/-- The Fingers of an engine that have a request to issue now, by their numbers. -/
def State.readyOf (s : State) (e : Nat) : List Nat :=
  ((s.work.fingers.filter (fun x => x.2.engine == some (engineUnit e))).map Prod.fst).filter (fun k => s.fgReady (fgOfKey k))

theorem exec_fingerIssue {e k : Nat} (hk : ((s.readyOf e).find? (fun k => s.work.rr.get 0 (engineUnit e) < k)).or (s.readyOf e).head? = some k) :
    exec (.fingerIssue e) s = .next (({ s with work.rr := s.work.rr.set (engineUnit e) k } : State).fgIssue (fgOfKey k)) := by
  change Host.Outcome.next _ = _
  refine congrArg Host.Outcome.next ?_
  rw [State.readyOf] at hk
  simp only [hk]

theorem fgOfKey_key (hfn : f.fn < 256) (hf : f.f < 16) : fgOfKey f.key = f := by
  obtain ⟨l, fn, i⟩ := f
  simp only [fgOfKey, FgId.key, FgId.mk.injEq]
  simp only at hfn hf
  omega

/-- The read of the next piece of a transfer from host space goes out at once. -/
theorem State.fgIssue_host {tr : Transfer} (htr : (s.finger f).transfer = some tr) (hturn : tr.turn = none) (hp : tr.pattern = none)
    (hg : tr.srcGlove = false) :
    s.fgIssue f = ((s.sendHost (.fgRead f (tr.piece (s.finger f).burst).1 (tr.piece (s.finger f).burst).2
        (tr.src + (tr.piece (s.finger f).burst).1) 0)
      (s.packetOf (s.fgAccess f false .memRd (tr.src + (tr.piece (s.finger f).burst).1) (tr.piece (s.finger f).burst).2 [])) f.fnId.link
        f.fnId.fn (tr.src + (tr.piece (s.finger f).burst).1) none).fgCharge f (round64 (tr.piece (s.finger f).burst).2)).modFinger f (fun x =>
          { x with transfer := some { tr with issued := tr.issued + (tr.piece (s.finger f).burst).2 } }) := by
  simp only [State.fgIssue, htr, hturn, Option.isSome_none, Bool.false_and, Bool.false_eq_true, if_false, hp, hg]
  rw [State.issue_host rfl]
  rfl

end Instruction

/-- Settles O16: each command by its equation, a halt at once by `fgHalt_settled`, an access to host space by `issue_host`. -/
theorem programTransfersAndFetchesComplete : Obligations.ProgramTransfersAndFetchesComplete := by
  refine ⟨fun s f w sr dr sg dg si di len so d hat hw hop hd hsrc hdst => ?_, fun s f w hat hw hd hout => ?_,
    fun s f hat hi htok hroom hread hpc => ?_, fun s e f tr hfn hf hready htr hturn hp hg => ?_,
    fun s u f sp l hat hi htok hroom hread habv hsent => exec_programLineFetch hat hi htok hroom hread habv hsent,
    fun s e k hk => exec_fingerIssue hk⟩
  · exact ⟨_, exec_move hat hw hop hd hsrc hdst, by rw [State.modFinger_same]; rfl, fun j hj => State.modFinger_ne _ _ _ hj, fun q => rfl,
      State.modFinger_onlyIn ..⟩
  · obtain ⟨hst, hh, hstop, -⟩ := State.executing_between (w := w) hat (w.toNat % 256)
    obtain ⟨h1, h2, h3, h4⟩ := State.fgHalt_settled hst hh hout hstop (plainHalt 0x0500)
    refine ⟨_, exec_invalidInstruction hat hw hd, ?_, ?_, ?_, ?_, fun j hj => ?_, h3, ((State.modFinger_onlyIn ..).mono (by simp)).comp h4⟩
    · rw [h1]; rfl
    · rw [h1]; rfl
    · rw [h1, State.modFinger_same]; rfl
    · rw [h1, State.modFinger_same]; rfl
    · rw [h2 j hj, State.modFinger_ne _ _ _ hj]
  · refine ⟨_, exec_programLineFetch hat hi htok hroom hread (fun h => absurd h (by simp [hpc])) (State.issue_host (by simp [State.fgAccess, hpc]) _),
      ⟨_, by rw [State.modFinger_gnet, State.fgCharge_gnet, State.sendHost, State.request_outst], rfl, rfl, rfl, rfl, rfl⟩, ?_,
      fun j hj => ?_, fun q => by simp, onlyIn_iff.mpr (by simp)⟩
    · rw [State.fgCharge, State.modFinger_modFinger, State.modFinger_same, State.sendHost_finger]
    · rw [State.fgCharge, State.modFinger_modFinger, State.modFinger_ne _ _ _ hj, State.sendHost_finger]
  · have hk : ((s.readyOf e).find? (fun k => s.work.rr.get 0 (engineUnit e) < k)).or (s.readyOf e).head? = some f.key := by
      rw [State.readyOf, hready]
      by_cases h : s.work.rr.get 0 (engineUnit e) < f.key <;> simp [h]
    refine ⟨_, exec_fingerIssue hk, ?_⟩
    rw [fgOfKey_key hfn hf, State.fgIssue_host (s := { s with work.rr := s.work.rr.set (engineUnit e) f.key }) htr hturn hp hg]
    refine ⟨?_, ⟨_, by rw [State.modFinger_gnet, State.fgCharge_gnet, State.sendHost, State.request_outst], rfl, rfl, rfl, rfl, rfl⟩, ?_,
      fun j hj => ?_, fun q => by rw [State.modFinger_queue, State.fgCharge_queue, State.sendHost_queue]; rfl, onlyIn_iff.mpr (by simp)⟩
    · simp [State.modFinger, State.fgCharge]
    · rw [State.fgCharge, State.modFinger_modFinger, State.modFinger_same, State.sendHost_finger]; rfl
    · rw [State.fgCharge, State.modFinger_modFinger, State.modFinger_ne _ _ _ hj, State.sendHost_finger]; rfl

end Sys2Proof.Machine
end

