-- ==== Sys2Proof/Proofs/WaitAndSignal.lean ====
section
/-! PROOFS. WAIT and SIGNAL (R416-R421). -/

namespace Sys2Proof.Machine

/-! ### WAIT (R416-R419) -/

/-- A request to host space is outstanding where only the request table of the sending state is looked at. -/
theorem Issues.of_sendHost {s t u : State} {ctx : ReqCtx} {p : Packet} {link fn addr : Nat} {c : Option Nat} {pkt : Packet → Prop}
    (ht : t.net = (u.sendHost ctx p link fn addr c).net) (hu : u.net.outst = s.net.outst)
    (hp : ∀ tag, pkt { p with dest := cuffUnit (link / 2), destKnot := unitKnot (cuffUnit (link / 2)), hostSpace := true, link := link, fn := fn,
                              addr := addr, tag := tag }) : Issues s t ctx pkt :=
  ⟨_, by rw [ht, State.sendHost, State.request_outst, hu], rfl, hp _⟩

theorem State.modFn_congr {s : State} {f : FnId} {m n : Fn → Fn} (h : m (s.fn f) = n (s.fn f)) : s.modFn f m = s.modFn f n := by
  simp only [State.modFn, Tbl.mod]
  exact congrArg (fun v => { s with host.fns := s.host.fns.set f.key v }) h

section Wait
variable {s : State} {f : FgId} {w : BitVec 256}

/-- A WAIT on a flag or a timer is held by its Finger. -/
theorem State.beginWait_held (s : State) (f : FgId) {w : Waiting} (hk : w.kind ≠ 2) :
    s.beginWait f w = s.modFinger f (fun x => { x with waiting := some w }) := by
  simp [State.beginWait, hk]

/-- A WAIT on events that are not there joins its function's waiters. -/
theorem State.beginWait_event {w : Waiting} (hk : w.kind = 2) (hw : (s.fn f.fnId).waiters = [])
    (hev : (s.fn f.fnId).events &&& w.mask.setWidth 32 = 0) :
    s.beginWait f w = (s.modFinger f (fun x => { x with waiting := some w })).modFn f.fnId (fun x => { x with waiters := [f.f] }) := by
  have hlist : (s.modFinger f (fun x => { x with waiting := some w })).modFn f.fnId (fun x =>
      { x with waiters := x.waiters.filter (· != f.f) ++ [f.f] }) =
      (s.modFinger f (fun x => { x with waiting := some w })).modFn f.fnId (fun x => { x with waiters := [f.f] }) :=
    State.modFn_congr (by rw [State.modFinger_fn, hw]; rfl)
  have hid : (⟨f.fnId.link, f.fnId.fn, f.f⟩ : FgId) = f := rfl
  simp only [State.beginWait, hk, beq_self_eq_true, if_true, hlist]
  rw [State.eventWake]
  simp [hid, hk, hev]

theorem exec_wait_timer {ns : Nat} (hat : s.fgAtInstr f = true) (hw : (s.finger f).instr = some w) (hop : w.toNat % 256 = 0x03)
    (hd : decodeFg (f.fn == 0) w = some (.waitTimer ns)) :
    exec (.wait f w) s = .next (s.modFinger f (fun x => { x.executing 0x03 w with
      waiting := some { kind := 1, addr := 0, gloveSpace := false, mask := 0, value := BitVec.ofNat 64 ns, cmp := 0, poll := 0,
                        timeout := 0 } })) := by
  simp only [exec, execWait, State.fgExec_decoded hat hw _ hop hd]
  rw [State.beginWait_held _ _ (by simp), State.modFinger_modFinger]

theorem exec_wait_flag {r cmp poll lim : Nat} {g : Bool} {off : BitVec 32} {mask value : BitVec 64} (hat : s.fgAtInstr f = true)
    (hw : (s.finger f).instr = some w) (hop : w.toNat % 256 = 0x03)
    (hd : decodeFg (f.fn == 0) w = some (.waitFlag r g cmp poll lim off mask value))
    (hal : ((s.finger f).a r + offset32 off).toNat % 8 = 0) :
    exec (.wait f w) s = .next (s.modFinger f (fun x => { x.executing 0x03 w with
      waiting := some { kind := 0, addr := ((s.finger f).a r + offset32 off).toNat, gloveSpace := g, mask := mask, value := value,
                        cmp := cmp, poll := poll, timeout := lim } })) := by
  have ha : (((s.modFinger f (·.executing 0x03 w)).finger f).a r) = (s.finger f).a r := by rw [State.modFinger_same]; rfl
  simp only [exec, execWait, State.fgExec_decoded hat hw _ hop hd, ha, hal, bne_self_eq_false, Bool.false_eq_true, if_false]
  rw [State.beginWait_held _ _ (by simp), State.modFinger_modFinger]

theorem exec_wait_event {mask : BitVec 32} {lim : Nat} (hat : s.fgAtInstr f = true) (hw : (s.finger f).instr = some w)
    (hop : w.toNat % 256 = 0x03) (hd : decodeFg (f.fn == 0) w = some (.waitEvent mask lim)) :
    exec (.wait f w) s = .next ((s.modFinger f (·.executing 0x03 w)).beginWait f
      { kind := 2, addr := 0, gloveSpace := false, mask := mask.setWidth 64, value := 0, cmp := 0, poll := 0, timeout := lim }) := by
  simp only [exec, execWait, State.fgExec_decoded hat hw _ hop hd]

variable {x : Waiting}

/-- The poll of a flag goes out (R416). -/
theorem exec_waitPoll {u : State} {sp : Nat} {l : Option Nat} (hfw : s.fgWaits f = true) (hx : (s.finger f).waiting = some x)
    (hk : x.kind = 0) (hp : x.polling = false) (htok : 64 ≤ (s.finger f).tokens) (hroom : s.fgRoom f = true)
    (hread : s.fgReadRoom f 8 = true) (habv : x.gloveSpace = true → s.abvHolds f (s.finger f).target x.addr 8 false = false)
    (hsent : s.issue (s.fgAccess f x.gloveSpace .memRd x.addr 8 []) (fun sp => .fgPoll f x.addr sp) = .sent u sp l) :
    exec (.waitPoll f) s = .next ((u.fgCharge f 64).modFinger f (fun y => { y with waiting := some { x with polling := true } })) := by
  have habv' : (x.gloveSpace && s.abvHolds f (s.finger f).target x.addr 8 false) = false := by
    rw [Bool.and_eq_false_imp]; exact habv
  simp only [exec, execWaitPoll, hx, hfw, hk, hp, hroom, hread, habv', Nat.not_lt.mpr htok, Bool.not_true, bne_self_eq_false,
    decide_false, Bool.or_self, Bool.false_eq_true, if_false, hsent]

theorem exec_waitTimerExpiry (hfw : s.fgWaits f = true) (hx : (s.finger f).waiting = some x) (hk : x.kind = 1) :
    exec (.waitTimerExpiry f) s = .next (s.waitDone f) := by
  simp only [exec, execWaitTimerExpiry, hx, hfw, hk, beq_self_eq_true, Bool.and_self, if_true]

theorem exec_waitTimeout (hfw : s.fgWaits f = true) (hx : (s.finger f).waiting = some x) (hk : x.kind ≠ 1) (ht : x.timeout ≠ 0) :
    exec (.waitTimeout f) s = .next ((s.unwait f).fgHalt f (plainHalt 0x0502)) := by
  simp only [exec, execWaitTimeout, hx, hfw, bne_iff_ne.mpr hk, bne_iff_ne.mpr ht, Bool.and_self, if_true]

theorem State.running_of_fgWaits (h : s.fgWaits f = true) : (s.finger f).state = .running ∧ (s.finger f).halt = none := by
  simp only [State.fgWaits, Bool.and_eq_true, beq_iff_eq, Option.isNone_iff_eq_none] at h
  obtain ⟨⟨⟨⟨-, hst⟩, hh⟩, -⟩, -⟩ := h
  exact ⟨hst, hh⟩

end Wait

/-! ### SIGNAL (R420, R421) -/

section Signal
variable {s : State} {f : FgId} {w : BitVec 256} {flag adv ev dur vec g : Bool} {r n : Nat} {off events : BitVec 32} {value : BitVec 64}

/-- A Finger that holds a SIGNAL whose first step is under way. -/
def Finger.signals (w : BitVec 256) (x : Finger) : Finger := { x with signalling := some { word := w, step := 1 } }

/-- A SIGNAL that writes neither a flag nor ADV goes on to its durable reads. -/
theorem exec_signal_plain (hat : s.fgAtInstr f = true) (hw : (s.finger f).instr = some w) (hop : w.toNat % 256 = 0x04)
    (hd : decodeFg (f.fn == 0) w = some (.signal false false ev dur vec r g off events n value)) :
    exec (.signal f w) s = .next ((s.modFinger f (fun x => (x.executing 0x04 w).signals w)).signalDurable f w) := by
  simp only [exec, execSignal, State.fgExec_decoded hat hw _ hop hd, Bool.not_false, Bool.and_self, if_true]
  rw [State.modFinger_modFinger]
  rfl

/-- What the end of a SIGNAL that sets events alone makes of its Finger. -/
def Finger.signalled (x : Finger) : Finger := { x with signalling := none, ibuf := [] }

/-- The end of a SIGNAL that sets events alone, where nobody waits for them. -/
theorem State.signalDurable_events (hd : decodeFg (f.fn == 0) w = some (.signal false false true false false r g off events n value))
    (hs : (s.finger f).signalling = some { word := w, step := 1 }) (hw : (s.fn f.fnId).waiters = []) :
    s.signalDurable f w = ((s.modFinger f Finger.signalled).modFn f.fnId (fun x => { x with events := x.events ||| events })).fgAdvance f := by
  have hwt : (((s.modFinger f Finger.signalled).modFn f.fnId (fun x => { x with events := x.events ||| events })).fn f.fnId).waiters = [] := by
    rw [State.modFn_same]; exact hw
  have hset : (s.modFinger f Finger.signalled).setEvents f.fnId events =
      (s.modFinger f Finger.signalled).modFn f.fnId (fun x => { x with events := x.events ||| events }) :=
    State.eventWake_nil _ _ _ hwt
  have hend : s.signalEnd f = (((s.modFinger f Finger.signalled).setEvents f.fnId events)).fgAdvance f := by
    simp only [State.signalEnd, hs, Bool.false_eq_true, if_false, hd, if_true]
    rfl
  simp only [State.signalDurable, hd]
  rw [hend, hset]

/-- The value a SIGNAL writes: its flag value, or its Finger's ADV advanced (R420). -/
def Finger.signalValue (x : Finger) (flag : Bool) (value : BitVec 64) : Nat :=
  if flag then value.toNat else (x.adv + value.setWidth 32).toNat

/-- A SIGNAL that writes a value issues the write first. -/
theorem exec_signal_write {u : State} {sp : Nat} {l : Option Nat} (hat : s.fgAtInstr f = true) (hw : (s.finger f).instr = some w)
    (hop : w.toNat % 256 = 0x04) (hd : decodeFg (f.fn == 0) w = some (.signal flag adv ev dur vec r g off events n value))
    (hfa : flag = true ∨ adv = true) (hal : ((s.finger f).a r + offset32 off).toNat % (if flag then 8 else 4) = 0)
    (htok : 64 ≤ (s.finger f).tokens) (hroom : (s.modFinger f (·.executing 0x04 w)).fgRoom f = true)
    (habv : g = true → (s.modFinger f (·.executing 0x04 w)).abvHolds f (s.finger f).target
      ((s.finger f).a r + offset32 off).toNat (if flag then 8 else 4) true = false)
    (hsent : State.issue (s.modFinger f (·.executing 0x04 w))
      ((s.modFinger f (·.executing 0x04 w)).fgAccess f g .memWr ((s.finger f).a r + offset32 off).toNat
        (if flag then 8 else 4) (packLines ((s.finger f).a r + offset32 off).toNat
          (leBytes (if flag then 8 else 4) ((s.finger f).signalValue flag value))))
      (fun sp => .fgFlag f ((s.finger f).a r + offset32 off).toNat sp) = .sent u sp l) :
    exec (.signal f w) s = .next ((((u.fgCharge f 64).modFinger f (Finger.signals w)).countDma f sp (if flag then 8 else 4)).fgWrote f l
      u.lastFn) := by
  have hx : (s.modFinger f (·.executing 0x04 w)).finger f = (s.finger f).executing 0x04 w := State.modFinger_same ..
  have ha : ((s.finger f).executing 0x04 w).a r = (s.finger f).a r := rfl
  have hadv : ((s.finger f).executing 0x04 w).adv = (s.finger f).adv := rfl
  have htk : ((s.finger f).executing 0x04 w).tokens = (s.finger f).tokens := rfl
  have htg : ((s.finger f).executing 0x04 w).target = (s.finger f).target := rfl
  have hfa' : (!flag && !adv) = false := by rcases hfa with h | h <;> simp [h]
  have habv' : (g && (s.modFinger f (·.executing 0x04 w)).abvHolds f (s.finger f).target
      ((s.finger f).a r + offset32 off).toNat (if flag then 8 else 4) true) = false := by
    rw [Bool.and_eq_false_imp]; exact habv
  simp only [Finger.signalValue] at hsent
  simp only [exec, execSignal, State.fgExec_decoded hat hw _ hop hd, hx, ha, hadv, htk, htg, hfa', hal, hroom, habv',
    Nat.not_lt.mpr htok, bne_self_eq_false, Bool.not_true, decide_false, Bool.or_self, Bool.false_eq_true, if_false, hsent]
  rfl

theorem State.countDma_onlyIn (s : State) (f : FgId) (sp n : Nat) : OnlyIn [.usg] s (s.countDma f sp n) := onlyIn_iff.mpr (by simp)
theorem State.fgWrote_onlyIn (s : State) (f : FgId) (l : Option Nat) (fn : Nat) : OnlyIn [.work] s (s.fgWrote f l fn) :=
  onlyIn_iff.mpr (by simp)

/-- Remembering a link written to changes that alone in the Fingers. -/
theorem State.fgWrote_finger_same (s : State) (f : FgId) (l fn : Nat) :
    (s.fgWrote f (some l) fn).finger f = { s.finger f with wrote := addLink (s.finger f).wrote (256 * l + fn) } := by
  simp only [State.fgWrote]
  split <;> simp

theorem State.fgWrote_finger_ne (s : State) {f j : FgId} (h : j.key ≠ f.key) (l fn : Nat) :
    (s.fgWrote f (some l) fn).finger j = s.finger j := by
  simp only [State.fgWrote]
  split <;> simp [State.modFinger_ne _ _ _ h]

end Signal

/-- Settles O17: a WAIT is held, ends or halts its Finger by `beginWait`, `waitDone_calm` and `fgHalt_settled`; a SIGNAL by the rules of
its steps. -/
theorem waitAndSignalCommandsComplete : Obligations.WaitAndSignalCommandsComplete := by
  refine ⟨fun s f w hat hw hop => ⟨fun ns hd => ?_, fun r g cmp poll lim off mask value hd hal => ?_, fun mask lim hd hwt hev => ?_⟩,
    fun s f x hfw hx => ⟨fun hk hp hg htok hroom hread => ?_, fun hk hstop hcode => ?_, fun hk ht hout hstop => ?_⟩,
    fun s f w adv ev r g off events n value hat hw hop hd hwt => ?_,
    fun s f w ev dur vec r off events n value hat hw hop hd hal htok hroom => ?_,
    fun s f w mask lim hat hw hop hd => exec_wait_event hat hw hop hd,
    fun s u f x sp l hfw hx hk hp htok hroom hread habv hsent => exec_waitPoll hfw hx hk hp htok hroom hread habv hsent,
    fun s f x hfw hx => ⟨fun hk => exec_waitTimerExpiry hfw hx hk, fun hk ht => exec_waitTimeout hfw hx hk ht⟩,
    fun s f w ev dur vec r g off events n value hat hw hop hd => exec_signal_plain hat hw hop hd,
    fun s u f w flag adv ev dur vec r g off events n sp value l hat hw hop hd hfa hal htok hroom habv hsent =>
      exec_signal_write hat hw hop hd hfa hal htok hroom habv hsent⟩
  · exact ⟨_, exec_wait_timer hat hw hop hd, by rw [State.modFinger_same]; rfl, fun j hj => State.modFinger_ne _ _ _ hj,
      State.modFinger_onlyIn ..⟩
  · exact ⟨_, exec_wait_flag hat hw hop hd hal, by rw [State.modFinger_same]; rfl, fun j hj => State.modFinger_ne _ _ _ hj,
      State.modFinger_onlyIn ..⟩
  · have hev' : (s.fn f.fnId).events &&& (mask.setWidth 64).setWidth 32 = 0 := by
      rw [BitVec.setWidth_setWidth_of_le _ (by decide), BitVec.setWidth_eq]; exact hev
    refine ⟨_, (exec_wait_event hat hw hop hd).trans (congrArg _ (State.beginWait_event rfl hwt hev')), ?_, ?_, fun j hj => ?_,
      onlyIn_iff.mpr (by simp)⟩
    · rw [State.modFn_finger, State.modFinger_modFinger, State.modFinger_same]; rfl
    · rw [State.modFn_same]; rfl
    · rw [State.modFn_finger, State.modFinger_modFinger, State.modFinger_ne _ _ _ hj]
  · refine ⟨_, exec_waitPoll hfw hx hk hp htok hroom hread (fun h => absurd h (by simp [hg])) (State.issue_host (by simp [State.fgAccess, hg]) _),
      ⟨_, by rw [State.modFinger_gnet, State.fgCharge_gnet, State.sendHost, State.request_outst], rfl, rfl, rfl, rfl, rfl⟩, ?_,
      fun j hj => ?_, onlyIn_iff.mpr (by simp)⟩
    · rw [State.fgCharge, State.modFinger_modFinger, State.modFinger_same, State.sendHost_finger]
    · rw [State.fgCharge, State.modFinger_modFinger, State.modFinger_ne _ _ _ hj, State.sendHost_finger]
  · obtain ⟨hst, hh⟩ := State.running_of_fgWaits hfw
    refine ⟨_, (exec_waitTimerExpiry hfw hx hk).trans (congrArg _ (State.waitDone_calm hst hh hstop hcode)), ?_, fun j hj => ?_,
      onlyIn_iff.mpr (by simp)⟩
    · rw [State.modFinger_same, State.unwait_finger]; rfl
    · rw [State.modFinger_ne _ _ _ hj, State.unwait_finger]
  · obtain ⟨hst, hh⟩ := State.running_of_fgWaits hfw
    obtain ⟨h1, h2, -, h4⟩ := State.fgHalt_settled (s := s.unwait f) hst hh hout hstop (plainHalt 0x0502)
    refine ⟨_, exec_waitTimeout hfw hx hk ht, ?_, ?_, ?_, fun j hj => by rw [h2 j hj, State.unwait_finger],
      OnlyIn.comp (onlyIn_iff.mpr (by simp)) h4⟩
    all_goals rw [h1]; rfl
  · have hb := (State.between_of_fgAtInstr hat).executing 0x04 w
    have hb' (m : Fn → Fn) : ((((s.modFinger f (fun x => (x.executing 0x04 w).signals w)).modFinger f Finger.signalled).modFn f.fnId m).finger
        f).Between := by
      rw [State.modFn_finger, State.modFinger_same, State.modFinger_same]
      exact { hb with signalling := rfl }
    refine ⟨_, (exec_signal_plain hat hw hop hd).trans (congrArg _ (State.signalDurable_events hd (by rw [State.modFinger_same]; rfl) hwt)), ?_⟩
    rw [State.fgAdvance_of_between (hb' _)]
    refine ⟨?_, ?_, fun j hj => ?_, onlyIn_iff.mpr (by simp)⟩
    · rw [State.modFinger_fn, State.modFn_same]; rfl
    · rw [State.modFinger_same, State.modFn_finger, State.modFinger_same, State.modFinger_same]
      obtain ⟨-, -, -, -, -, -, hsig, -⟩ := State.between_of_fgAtInstr hat
      simp only [Finger.signalled, Finger.signals, Finger.executing, ← hsig]
    · rw [State.modFinger_ne _ _ _ hj, State.modFn_finger, State.modFinger_ne _ _ _ hj, State.modFinger_ne _ _ _ hj]
  · have hsent := State.issue_host (s := s.modFinger f (·.executing 0x04 w))
      (a := (s.modFinger f (·.executing 0x04 w)).fgAccess f false .memWr ((s.finger f).a r + offset32 off).toNat 8
        (packLines ((s.finger f).a r + offset32 off).toNat (leBytes 8 value.toNat))) rfl
      (fun sp => .fgFlag f ((s.finger f).a r + offset32 off).toNat sp)
    refine ⟨_, exec_signal_write hat hw hop hd (.inl rfl) hal htok hroom (fun h => by cases h) hsent,
      ?_, ?_, ?_, ?_, fun j hj => ?_, onlyIn_iff.mpr (by simp)⟩
    · refine Issues.of_sendHost (u := s.modFinger f (·.executing 0x04 w))
        (by rw [State.fgWrote_gnet, State.countDma_gnet, State.modFinger_gnet, State.fgCharge_gnet]) rfl fun _ => ?_
      exact ⟨rfl, rfl, rfl, rfl, rfl, rfl⟩
    · rw [State.fgWrote_finger_same, State.countDma_finger, State.modFinger_same]; rfl
    · rw [State.fgWrote_finger_same, State.countDma_finger, State.modFinger_same, State.fgCharge, State.modFinger_same,
        State.sendHost_finger, State.modFinger_same]; rfl
    · rw [State.fgWrote_finger_same, State.countDma_finger, State.modFinger_same, State.fgCharge, State.modFinger_same,
        State.sendHost_finger, State.modFinger_same]; rfl
    · rw [State.fgWrote_finger_ne _ hj, State.countDma_finger, State.modFinger_ne _ _ _ hj, State.fgCharge, State.modFinger_ne _ _ _ hj,
        State.sendHost_finger, State.modFinger_ne _ _ _ hj]

end Sys2Proof.Machine
end

