-- ==== Sys2Proof/Proofs/GateFrames.lean ====
section
/-! PROOFS. What the sealing gates' work leaves (R122-R143, R158-R165). -/

namespace Sys2Proof.Machine

/-! ### What the sealing gates' own work leaves

What a gate does to its buffer, its caches and the memories behind it stays in the pool and the Weave; what it does with a failed line
also reaches the error log of the line's function, the fault collector's second fetches and the usage of the glove (R160). -/

/-- The parts that a gate's work may change. -/
def gateParts : List Part := [.host, .pool, .net, .flt, .usg]

/-- A gate's work, at most. -/
abbrev GateOnly (s t : State) : Prop := OnlyIn gateParts s t

/-- A gate's work without a failure. -/
abbrev MemOnly (s t : State) : Prop := OnlyIn [.pool, .net] s t

theorem OnlyIn.gate {s t : State} (h : OnlyIn [.pool, .net] s t) : GateOnly s t := h.mono (by simp [gateParts])

theorem OnlyIn.ite {ps : List Part} {s a b : State} {c : Prop} [Decidable c] (ha : OnlyIn ps s a) (hb : OnlyIn ps s b) :
    OnlyIn ps s (if c then a else b) := by
  split
  · exact ha
  · exact hb

section Memory
variable (s : State)

theorem State.modGate_memOnly (g : Nat) (m : Gate → Gate) : MemOnly s (s.modGate g m) := onlyIn_iff.mpr (by simp)
theorem State.request_memOnly (c : ReqCtx) (p : Packet) (n : Option Nat) : MemOnly s (s.request c p n) := onlyIn_iff.mpr (by simp)
theorem State.answer_memOnly (p : Packet) (c : Nat) : MemOnly s (s.answer p c) := onlyIn_iff.mpr (by simp)
theorem State.answerData_memOnly (p : Packet) (l : Nat) (ls : List (Line × Nat)) : MemOnly s (s.answerData p l ls) :=
  onlyIn_iff.mpr (by simp)
theorem State.report_memOnly (r : FaultReport) : MemOnly s (s.report r) := (s.report_onlyIn r).mono (by simp)
theorem State.corrected_memOnly (a b c d : Nat) : MemOnly s (s.corrected a b c d) := State.report_memOnly ..
theorem State.contained_memOnly (a b c d : Nat) (v : Option Nat) : MemOnly s (s.contained a b c d v) := State.report_memOnly ..
theorem State.setPool_memOnly (p : Pool) : MemOnly s { s with pool := p } := (onlyIn_pool s p).toPoolNet

theorem State.slotWant_memOnly (ch a : Nat) : MemOnly s (s.slotWant ch a) := s.modGate_memOnly ..

theorem State.ddrPut_memOnly (ch a : Nat) (l : Line) : MemOnly s (s.ddrPut ch a l) :=
  (s.slotWant_memOnly ch _).comp (State.setPool_memOnly ..)

theorem State.ddrPoison_memOnly (ch a : Nat) : MemOnly s (s.ddrPoison ch a) := s.setPool_memOnly _

theorem State.macOut_memOnly (g a : Nat) : MemOnly s (s.macOut g a) := by
  unfold State.macOut
  exact .ite ((s.modGate_memOnly ..).comp (State.ddrPut_memOnly ..)) (s.modGate_memOnly ..)

theorem State.macPut_memOnly (g a : Nat) (l : Line) (d : Bool) : MemOnly s (s.macPut g a l d) := by
  unfold State.macPut
  dsimp only
  split
  · exact (s.macOut_memOnly ..).comp (State.modGate_memOnly ..)
  · exact s.modGate_memOnly ..

theorem State.ddrStoreWith_memOnly (now : Bool) (l : Nat) (c : Line) (m : BitVec 64) : MemOnly s (s.ddrStoreWith now l c m) := by
  unfold State.ddrStoreWith
  dsimp only
  have hput (g a a' : Nat) (ml : Line) : MemOnly s (if (s.gate g).retired = true then s
      else if now = true then (s.ddrPut g a c).ddrPut g a' ml else s.ddrPut g a c) :=
    .ite (.refl _ s) (.ite ((s.ddrPut_memOnly ..).comp (State.ddrPut_memOnly ..)) (s.ddrPut_memOnly ..))
  exact .ite (((hput ..).comp (State.macPut_memOnly ..)).comp (State.request_memOnly ..)) ((hput ..).comp (State.macPut_memOnly ..))

theorem State.ddrStore_memOnly (l : Nat) (c : Line) (m : BitVec 64) : MemOnly s (s.ddrStore l c m) := s.ddrStoreWith_memOnly ..

theorem State.tierDrop_memOnly (l : Nat) : MemOnly s (s.tierDrop l) := s.setPool_memOnly _

theorem State.tierRef_memOnly (l : Nat) : MemOnly s (s.tierRef l) := by
  unfold State.tierRef
  split
  · exact s.setPool_memOnly _
  · exact .refl _ s

theorem State.readSlotsOf_memOnly (ch l : Nat) : MemOnly s (s.readSlotsOf ch l) := by
  unfold State.readSlotsOf
  exact .ite (s.slotWant_memOnly ..) ((s.slotWant_memOnly ..).comp (State.slotWant_memOnly ..))

theorem State.keepMac_memOnly (g ch l : Nat) : MemOnly s (s.keepMac g ch l) := by
  unfold State.keepMac
  exact .ite (.refl _ s) (s.macPut_memOnly ..)

theorem State.openDdr_memOnly (g l slot : Nat) (ctr : Ctr) : MemOnly s (s.openDdr g l slot ctr).2 := by
  unfold State.openDdr
  split
  · exact .refl _ s
  · dsimp only
    exact .ite ((s.readSlotsOf_memOnly ..).comp (State.keepMac_memOnly ..)) (s.readSlotsOf_memOnly ..)
  · dsimp only
    split
    · exact (s.readSlotsOf_memOnly ..).comp (State.keepMac_memOnly ..)
    · split
      · exact ((((((s.readSlotsOf_memOnly ..).comp (State.readSlotsOf_memOnly ..)).comp (State.ddrPut_memOnly ..)).comp
          (State.ddrPut_memOnly ..)).comp (State.keepMac_memOnly ..)).comp (State.corrected_memOnly ..))
      · exact (s.readSlotsOf_memOnly ..).comp (State.readSlotsOf_memOnly ..)

theorem State.openLine_memOnly (g l slot : Nat) (ctr : Ctr) : MemOnly s (s.openLine g l slot ctr).2 := by
  unfold State.openLine
  split
  · exact .refl _ s
  · split
    · exact .refl _ s
    · split
      · split
        · exact .refl _ s
        · split
          · exact .refl _ s
          · exact s.tierRef_memOnly _
      · exact s.openDdr_memOnly ..

theorem State.nodeRequest_memOnly (g : Nat) (c : ReqCtx) (p : Packet) : MemOnly s (s.nodeRequest g c p) := by
  unfold State.nodeRequest
  exact .ite (s.request_memOnly ..) (s.modGate_memOnly ..)

theorem State.pumpNodes_memOnly (g : Nat) : MemOnly s (s.pumpNodes g) := by
  unfold State.pumpNodes
  split
  · exact (s.modGate_memOnly ..).comp (State.request_memOnly ..)
  · exact .refl _ s

theorem State.evictCtr_memOnly (g b : Nat) : MemOnly s (s.evictCtr g b) := by
  unfold State.evictCtr
  exact .ite ((s.modGate_memOnly ..).comp (State.nodeRequest_memOnly ..)) (s.modGate_memOnly ..)

theorem State.ccPut_memOnly (g b : Nat) (c : Ctr) (d : Bool) : MemOnly s (s.ccPut g b c d) := by
  unfold State.ccPut
  dsimp only
  split
  · exact (s.evictCtr_memOnly ..).comp (State.modGate_memOnly ..)
  · exact s.modGate_memOnly ..

theorem State.modWalk_memOnly (g b : Nat) (m : Walk → Walk) : MemOnly s (s.modWalk g b m) := s.modGate_memOnly ..

theorem State.ensureWalk_memOnly (g b : Nat) : MemOnly s (s.ensureWalk g b) := by
  unfold State.ensureWalk
  exact .ite (.refl _ s) (s.modGate_memOnly ..)

theorem State.sendSealed_memOnly (g l slot : Nat) (c : Line) (m : BitVec 64) (d : Bool) : MemOnly s (s.sendSealed g l slot c m d) := by
  unfold State.sendSealed
  exact .ite (.ite (s.ddrStore_memOnly ..) (.refl _ s)) (s.request_memOnly ..)

theorem State.sealLine_memOnly (g l slot gen mj mi : Nat) (d : Line) : MemOnly s (s.sealLine g l slot gen mj mi d) :=
  s.sendSealed_memOnly ..

theorem State.wcbDrop_memOnly (g l : Nat) : MemOnly s (s.wcbDrop g l) := s.modGate_memOnly ..

theorem State.sealStaged_memOnly (g l slot gen mj : Nat) (d : Line) : MemOnly s (s.sealStaged g l slot gen mj d) := by
  unfold State.sealStaged
  exact .ite (s.sendSealed_memOnly ..) (s.ddrStoreWith_memOnly ..)

theorem State.poisonLine_memOnly (g l : Nat) : MemOnly s (s.poisonLine g l) :=
  (s.tierDrop_memOnly l).comp (foldl_onlyIn _ (fun s _ => s.ddrPoison_memOnly ..) _ _)

theorem State.wcbPut_memOnly (g l slot glove : Nat) (d : Line) (bad : Bool) : MemOnly s (s.wcbPut g l slot glove d bad) :=
  s.modGate_memOnly ..

theorem State.dropLock_memOnly (g l u : Nat) : MemOnly s (s.dropLock g l u) := s.modGate_memOnly ..

theorem State.fillMissed_memOnly (g slot : Nat) (ctr : Ctr) (ls : List Nat) : MemOnly s (s.fillMissed g slot ctr ls) := by
  refine foldl_onlyIn _ (fun s l => ?_) _ _
  split
  · exact .refl _ s
  · split
    · exact .refl _ s
    · exact .ite (s.sendSealed_memOnly ..) (.refl _ s)

theorem State.lookupTier_memOnly (g b : Nat) (p : Packet) : MemOnly s (s.lookupTier g b p) := by
  unfold State.lookupTier
  exact (s.modWalk_memOnly ..).comp (State.request_memOnly ..)

theorem State.fetchOwn_memOnly (g b : Nat) : MemOnly s (s.fetchOwn g b) := by
  unfold State.fetchOwn
  exact .ite (s.modWalk_memOnly ..) ((s.modWalk_memOnly ..).comp (State.nodeRequest_memOnly ..))

end Memory

section Failures
variable (s : State)

theorem State.recordFail_gateOnly (g l slot c : Nat) : GateOnly s (s.recordFail g l slot c) := by
  unfold State.recordFail
  dsimp only
  split
  · exact onlyIn_iff.mpr (by simp [gateParts])
  · exact onlyIn_iff.mpr (by simp [gateParts])

theorem State.recordFails_gateOnly (g slot c : Nat) (ls : List Nat) : GateOnly s (s.recordFails g slot c ls) :=
  foldl_onlyIn _ (fun s _ => s.recordFail_gateOnly ..) _ _

theorem State.refetched_gateOnly (hit : CopyOf → Bool) (c : Nat) : GateOnly s (s.refetched hit c) := by
  unfold State.refetched
  dsimp only
  exact (onlyIn_iff.mpr (by simp [gateParts]) : GateOnly s _).comp
    (foldl_onlyIn _ (fun s _ => (s.report_memOnly _).gate) _ _)

theorem State.poison_gateOnly (g b level : Nat) : GateOnly s (s.poison g b level) := by
  unfold State.poison
  extract_lets full hit lost drop s1 p2 s2 s3
  have h1 : GateOnly s s1 := (s.modGate_memOnly ..).gate
  have h2 : GateOnly s s2 := h1.comp (.ite (s1.setPool_memOnly _).gate (.refl _ s1))
  have h3 : GateOnly s s3 := (h2.comp (foldl_onlyIn _ (fun s _ => s.recordFail_gateOnly ..) _ _)).comp (State.refetched_gateOnly ..)
  exact .ite (h3.comp (State.contained_memOnly ..).gate) h3

theorem State.fetchNode_gateOnly (g b level : Nat) : GateOnly s (s.fetchNode g b level) := by
  unfold State.fetchNode
  dsimp only
  exact .ite ((s.poison_gateOnly ..).comp (State.modWalk_memOnly ..).gate)
    ((s.modWalk_memOnly ..).comp (State.nodeRequest_memOnly ..)).gate

theorem State.leaveLater_gateOnly (g l : Nat) : GateOnly s (s.leaveLater g l) := by
  unfold State.leaveLater
  have h := ((s.ensureWalk_memOnly g (l / 64)).comp (State.modWalk_memOnly _ g (l / 64) (fun w =>
    { w with leaving := w.leaving.filter (· != l) ++ [l] }))).gate
  dsimp only
  exact .ite h (h.comp (State.fetchNode_gateOnly ..))

theorem State.reencrypt_gateOnly (g b slot : Nat) (ctr : Ctr) : GateOnly s (s.reencrypt g b slot ctr) := by
  unfold State.reencrypt
  refine (((s.ccPut_memOnly ..).gate.comp (foldl_onlyIn _ (fun s d => ?_) _ _)).comp (State.modGate_memOnly ..).gate)
  dsimp only
  split
  · exact ((OnlyIn.gate (.ite (s.poisonLine_memOnly ..) (s.sealStaged_memOnly ..))).comp (State.wcbDrop_memOnly ..).gate)
  · split
    · exact ((s.openLine_memOnly ..).comp (State.sealStaged_memOnly ..)).gate
    · exact ((s.openLine_memOnly ..).gate.comp (State.recordFail_gateOnly ..)).comp (State.poisonLine_memOnly ..).gate

theorem State.startReenc_gateOnly (g : Nat) (w : WcbLine) (ctr : Ctr) : GateOnly s (s.startReenc g w ctr) := by
  unfold State.startReenc
  have h := (s.modGate_memOnly g (fun x =>
    { x with wcb := x.wcb.map (fun v => if v.line == w.line then { v with waiting := true } else v) })).gate
  exact .ite h (.ite h (.ite (h.comp (State.reencrypt_gateOnly ..)) (h.comp (State.modGate_memOnly ..).gate)))

theorem State.farSide_gateOnly (f : FnId) (c sp a tf tl g u : Nat) : GateOnly s (s.farSide f c sp a tf tl g u) :=
  onlyIn_iff.mpr (by simp [gateParts])

theorem State.wcbLeave_gateOnly (g : Nat) (w : WcbLine) : GateOnly s (s.wcbLeave g w) := by
  unfold State.wcbLeave
  extract_lets blk gen sx
  split
  · exact (s.wcbDrop_memOnly ..).gate.comp (State.recordFail_gateOnly ..)
  split
  · exact s.leaveLater_gateOnly ..
  next c0 _ =>
  extract_lets c mi c' s1
  split
  · have h1 : MemOnly s s1 := s.ccPut_memOnly ..
    have h2 : MemOnly s1 (if w.bad then s1.poisonLine g w.line else s1.sealLine g w.line w.slot gen c.major (mi + 1) w.data) :=
      .ite (s1.poisonLine_memOnly ..) (s1.sealLine_memOnly ..)
    exact ((h1.comp h2).comp (State.wcbDrop_memOnly ..)).gate
  split
  · have h : GateOnly s sx := ((s.wcbDrop_memOnly ..).comp (State.modGate_memOnly ..)).gate
    split
    · exact h.comp (State.farSide_gateOnly ..)
    · exact h
  · exact s.startReenc_gateOnly ..

theorem State.wcbRoom_gateOnly (g want : Nat) (keep : List Nat) (n : Nat) : GateOnly s (s.wcbRoom g want keep n) := by
  induction n generalizing s with
  | zero => exact .refl _ s
  | succ n ih =>
    unfold State.wcbRoom
    split
    · exact .refl _ s
    · split
      · exact (s.wcbLeave_gateOnly ..).comp (ih _)
      · exact .refl _ s

end Failures

/-! ### What an access at its owning gate leaves -/

section Access
variable (s : State)

theorem State.failAll_gateOnly (g : Nat) (p : Packet) (slot c : Nat) : GateOnly s (s.failAll g p slot c) := by
  unfold State.failAll
  extract_lets ls t
  have h : GateOnly s t := s.recordFails_gateOnly ..
  split
  · exact h.comp (t.answerData_memOnly ..).gate
  · exact h.comp ((t.modGate_memOnly ..).comp (State.answerData_memOnly ..)).gate
  · exact h.comp (t.answer_memOnly ..).gate

/-- One line of a read: from the buffer, or opened below it; a failed one is recorded. -/
def State.readLine (s : State) (g slot : Nat) (ctr : Ctr) (l : Nat) : (Line × Nat) × State :=
  match s.wcbFind g l with
  | some w => if w.bad then ((w.data, 0x0201), s.recordFail g l slot 0x0201) else ((w.data, 0), s)
  | none =>
    ((s.openLine g l slot ctr).1, if (s.openLine g l slot ctr).1.2 == 0 then (s.openLine g l slot ctr).2
      else (s.openLine g l slot ctr).2.recordFail g l slot (s.openLine g l slot ctr).1.2)

theorem State.readLines_cons (g slot : Nat) (ctr : Ctr) (l : Nat) (ls : List Nat) :
    s.readLines g slot ctr (l :: ls) = ((s.readLine g slot ctr l).1 :: ((s.readLine g slot ctr l).2.readLines g slot ctr ls).1,
      ((s.readLine g slot ctr l).2.readLines g slot ctr ls).2) := rfl

theorem State.readLine_gateOnly (g slot : Nat) (ctr : Ctr) (l : Nat) : GateOnly s (s.readLine g slot ctr l).2 := by
  unfold State.readLine
  split
  · split
    · exact s.recordFail_gateOnly ..
    · exact .refl _ s
  · exact .ite (s.openLine_memOnly ..).gate ((s.openLine_memOnly ..).gate.comp (State.recordFail_gateOnly ..))

theorem State.readLines_gateOnly (g slot : Nat) (ctr : Ctr) (ls : List Nat) : GateOnly s (s.readLines g slot ctr ls).2 := by
  induction ls generalizing s with
  | nil => exact .refl _ s
  | cons l ls ih => exact (s.readLine_gateOnly g slot ctr l).comp (ih _)

/-- The old content that a write of one line merges into: the buffer's, none where the write covers its line, else the line opened. -/
def State.underWrite (s : State) (g slot : Nat) (ctr : Ctr) (q : Packet) (l : Nat) : (Line × Nat) × State :=
  match s.wcbFind g l with
  | some w => if w.bad && !q.covers l then ((w.data, 0x0201), s.recordFail g l slot 0x0201) else ((w.data, 0), s)
  | none =>
    if q.covers l then ((0, 0), s)
    else ((s.openLine g l slot ctr).1, if (s.openLine g l slot ctr).1.2 == 0 then (s.openLine g l slot ctr).2
      else (s.openLine g l slot ctr).2.recordFail g l slot (s.openLine g l slot ctr).1.2)

/-- A line is written over what is under it, unless that failed. -/
def State.writeOver (s : State) (g slot : Nat) (q : Packet) (l : Nat) (r : Line × Nat) : State :=
  if r.2 == 0 then s.wcbPut g l slot q.glove (q.merge l r.1) q.ep else s

theorem State.writeLines_cons (g slot : Nat) (ctr : Ctr) (q : Packet) (l : Nat) (ls : List Nat) :
    s.writeLines g slot ctr q (l :: ls) =
      (if (s.underWrite g slot ctr q l).1.2 == 0 then
        (((s.underWrite g slot ctr q l).2.writeOver g slot q l (s.underWrite g slot ctr q l).1).writeLines g slot ctr q ls).1
       else (s.underWrite g slot ctr q l).1.2,
       (((s.underWrite g slot ctr q l).2.writeOver g slot q l (s.underWrite g slot ctr q l).1).writeLines g slot ctr q ls).2) := rfl

theorem State.underWrite_gateOnly (g slot : Nat) (ctr : Ctr) (q : Packet) (l : Nat) : GateOnly s (s.underWrite g slot ctr q l).2 := by
  unfold State.underWrite
  split
  · split
    · exact s.recordFail_gateOnly ..
    · exact .refl _ s
  · split
    · exact .refl _ s
    · exact .ite (s.openLine_memOnly ..).gate ((s.openLine_memOnly ..).gate.comp (State.recordFail_gateOnly ..))

theorem State.writeOver_memOnly (g slot : Nat) (q : Packet) (l : Nat) (r : Line × Nat) : MemOnly s (s.writeOver g slot q l r) :=
  .ite (s.wcbPut_memOnly ..) (.refl _ s)

theorem State.writeLines_gateOnly (g slot : Nat) (ctr : Ctr) (q : Packet) (ls : List Nat) :
    GateOnly s (s.writeLines g slot ctr q ls).2 := by
  induction ls generalizing s with
  | nil => exact .refl _ s
  | cons l ls ih => exact ((s.underWrite_gateOnly g slot ctr q l).comp (State.writeOver_memOnly ..).gate).comp (ih _)

/-- The state in which a tried access leaves its gate. -/
def Tried.state : Tried → State
  | .done s | .needOwn s | .needCtr s | .needTier s | .needRoom s | .locked s => s

theorem State.serveOwned_gateOnly (g : Nat) (p : Packet) (own : Own) (tiered : Bool) :
    GateOnly s (s.serveOwned g p own tiered).state := by
  unfold State.serveOwned
  extract_lets q blk line x s1 fresh s2 need ctr below
  have h1 : GateOnly s s1 := .ite (s.dropLock_memOnly ..).gate (.refl _ s)
  have h2 : GateOnly s s2 := s.wcbRoom_gateOnly ..
  split
  · exact h1.comp (s1.answer_memOnly ..).gate
  next slot _ =>
  split
  · exact h1.comp (s1.failAll_gateOnly ..)
  split
  · exact h1.comp (s1.answer_memOnly ..).gate
  split
  · exact h1.comp (s1.failAll_gateOnly ..)
  split
  · exact h1.comp (s1.failAll_gateOnly ..)
  split
  · exact h1.comp (s1.answer_memOnly ..).gate
  split
  · exact h2
  split
  · exact h2
  split
  · exact h2
  split
  · exact h2.comp ((s2.readLines_gateOnly g slot ctr q.lines).comp ((State.fillMissed_memOnly ..).comp (State.answerData_memOnly ..)).gate)
  · exact h2.comp ((s2.readLines_gateOnly g slot ctr [line]).comp (((State.fillMissed_memOnly ..).comp (State.modGate_memOnly ..)).comp
      (State.answerData_memOnly ..)).gate)
  · have h3 : GateOnly s2 (if p.op == .memWrUnlock then s2.dropLock g line p.initUnit else s2) :=
      .ite (s2.dropLock_memOnly ..).gate (.refl _ s2)
    exact h2.comp (h3.comp ((State.writeLines_gateOnly _ g slot ctr q q.lines).comp ((State.fillMissed_memOnly ..).comp (State.answer_memOnly ..)).gate))

theorem State.tryAccess_gateOnly (g : Nat) (p : Packet) (tiered : Bool) : GateOnly s (s.tryAccess g p tiered).state := by
  unfold State.tryAccess
  extract_lets line page x unlocks held
  split
  · exact (s.answer_memOnly ..).gate
  split
  · exact ((s.dropLock_memOnly ..).comp (State.answer_memOnly ..)).gate
  split
  · exact .refl _ s
  split
  · exact .refl _ s
  · exact s.serveOwned_gateOnly ..

theorem State.failOwn_gateOnly (g : Nat) (p : Packet) : GateOnly s (s.failOwn g p) := by
  unfold State.failOwn
  extract_lets t
  have h : GateOnly s t := .ite (s.dropLock_memOnly ..).gate (.refl _ s)
  split
  · exact h.comp (t.answer_memOnly ..).gate
  · exact h.comp (t.failAll_gateOnly ..)

theorem State.drainWalk_gateOnly (g b : Nat) (tiered : Bool) (n : Nat) : GateOnly s (s.drainWalk g b tiered n) := by
  induction n generalizing s tiered with
  | zero => exact .refl _ s
  | succ n ih =>
    unfold State.drainWalk
    split
    · exact .refl _ s
    split
    · exact .ite (s.modGate_memOnly ..).gate (.refl _ s)
    next p rest _ =>
    extract_lets next
    have hnext (t : State) : GateOnly t (next t) := (t.modWalk_memOnly ..).gate
    have ht := s.tryAccess_gateOnly g p tiered
    split
    next t he => rw [he] at ht; exact (ht.comp (hnext _)).comp (ih ..)
    next t he => rw [he] at ht; exact ((ht.comp (hnext _)).comp (State.modGate_memOnly ..).gate).comp (ih ..)
    next t he =>
      rw [he] at ht
      exact .ite (((ht.comp (State.failOwn_gateOnly ..)).comp (hnext _)).comp (ih ..)) (ht.comp (State.fetchOwn_memOnly ..).gate)
    next t he =>
      rw [he] at ht
      have hf := ht.comp (State.fetchNode_gateOnly t g b 0)
      exact .ite ht (.ite (hf.comp (ih ..)) hf)
    next t he => rw [he] at ht; exact ht.comp (State.lookupTier_memOnly ..).gate
    next t he => rw [he] at ht; exact ht

theorem State.enterGate_gateOnly (g : Nat) (p : Packet) : GateOnly s (s.enterGate g p) := by
  unfold State.enterGate
  extract_lets ls blk x unlocks behind
  have ht := s.tryAccess_gateOnly g p false
  split
  · exact (s.modGate_memOnly ..).gate
  split
  · split
    next t he => rw [he] at ht; exact ht
    · exact (s.modWalk_memOnly ..).gate
    · exact (s.modGate_memOnly ..).gate.comp (State.drainWalk_gateOnly ..)
  · split
    · exact (s.modWalk_memOnly ..).gate
    · exact (s.modGate_memOnly ..).gate.comp (State.drainWalk_gateOnly ..)

theorem State.retryWalks_gateOnly (g : Nat) : GateOnly s (s.retryWalks g) :=
  foldl_onlyIn _ (fun s _ => s.drainWalk_gateOnly ..) _ _

/-- What waits at a gate goes on: only the gates' own parts change. -/
theorem State.unpark_gateOnly (g : Nat) : GateOnly s (s.unpark g) :=
  ((s.pumpNodes_memOnly g).gate.comp (State.retryWalks_gateOnly ..)).comp
    ((State.modGate_memOnly ..).gate.comp (foldl_onlyIn _ (fun s _ => s.enterGate_gateOnly ..) _ _))

theorem State.failWalk_gateOnly (g b level : Nat) : GateOnly s (s.failWalk g b level) :=
  ((s.poison_gateOnly ..).comp (State.modWalk_memOnly ..).gate).comp (State.drainWalk_gateOnly ..)

end Access

end Sys2Proof.Machine
end

