-- ==== Sys2Proof/Proofs/PeerRequests.lean ====
section
/-! PROOFS. The messages of a home device, and the fence of a peer (R76-R79, R132, R470-R473). -/

namespace Sys2Proof.Machine

/-! ### The messages of a home device (R76-R79, R132, R470-R472) -/

section Peer
variable {s : State} {n g : Nat}

theorem State.mgmtFrom_admitted (hs : s.serves = true) (ha : (s.peer n).state = .admitted) (f : State → State) : s.mgmtFrom n f = f s := by
  simp [State.mgmtFrom, hs, ha]

/-- A change of ownership that asks some gate waits for it. -/
theorem State.changeOwn_asks {pages : List Nat} (hp : pages ≠ []) (hg : s.askedGates ≠ []) (owner : Option Nat) (thn : OwnThen) :
    (s.changeOwn pages owner thn).pool.owning = s.pool.owning ++ [{ pages := pages, waiting := s.askedGates, owner := owner, thn := thn }] ∧
      (s.changeOwn pages owner thn).pool.owns = s.pool.owns ∧ OnlyIn [.pool, .net] s (s.changeOwn pages owner thn) := by
  obtain ⟨t, hstart, hpool, honly⟩ := State.startOwn_asks hp hg owner thn
  have ht : s.changeOwn pages owner thn = t := by rw [State.changeOwn, hstart]; rfl
  rw [ht, hpool]
  exact ⟨rfl, rfl, honly⟩

theorem State.noneOwning {thn : OwnThen} (h : ∀ c ∈ s.pool.owning, c.thn ≠ thn) : s.pool.owning.any (fun c => c.thn == thn) = false := by
  rw [List.any_eq_false]
  exact fun c hc => by simpa using h c hc

theorem exec_keyTransfer (hs : s.serves = true) (ha : (s.peer n).state = .admitted) {key : Key} {b : Nat}
    (hb : (s.guestOf n g).or s.freeGuest = some b) :
    exec (.keyTransfer n g key) s = .next ((s.modSlot b (fun _ => { key := key, valid := true, home := n, glove := g })).sendMgmt n
      (.keyConfirm g b 0)) := by
  simp only [exec, execKeyTransfer, State.mgmtFrom_admitted hs ha, hb]

theorem exec_pageAlloc (hs : s.serves = true) (ha : (s.peer n).state = .admitted) {m b : Nat} (hb : s.guestOf n g = some b)
    (hown : ∀ c ∈ s.pool.owning, c.thn ≠ .peerAlloc n g) (hstop : s.grantsStopped = false) (hm : m ≤ s.freeCount) :
    exec (.pageAlloc n g m) s = .next (s.changeOwn (s.takeFree s.pages 0 m) (some b) (.peerAlloc n g)) := by
  simp only [exec, execPageAlloc, State.mgmtFrom_admitted hs ha, hb, State.noneOwning hown, hstop, Nat.not_lt.mpr hm, Bool.false_eq_true,
    if_false]

theorem exec_pageRelease (hs : s.serves = true) (ha : (s.peer n).state = .admitted) {ps : List Nat} {b : Nat} (hb : s.guestOf n g = some b)
    (hown : ∀ c ∈ s.pool.owning, c.thn ≠ .peerRelease n g) (hps : ∀ p ∈ ps, (s.own p).state = 1 ∧ (s.own p).owner = b) :
    exec (.pageRelease n g ps) s = .next (s.changeOwn ps none (.peerRelease n g)) := by
  have hmine : ps.filter (fun p => (s.own p).state == 1 && (s.own p).owner == b) = ps := by
    rw [List.filter_eq_self]
    exact fun p hp => by simpa using hps p hp
  simp only [exec, execPageRelease, State.mgmtFrom_admitted hs ha, hb, State.noneOwning hown, hmine, Bool.false_eq_true, if_false]

theorem exec_keyRevoke (hs : s.serves = true) (ha : (s.peer n).state = .admitted) {b : Nat} (hb : s.guestOf n g = some b) :
    exec (.keyRevoke n g) s = .next ((s.modSlot b (fun _ => {})).changeOwn (s.pagesOf b) none (.peerRevoke n g)) := by
  simp only [exec, execKeyRevoke, State.mgmtFrom_admitted hs ha, hb]

theorem exec_keyRevoke_unknown (hs : s.serves = true) (ha : (s.peer n).state = .admitted) (hb : s.guestOf n g = none)
    (hown : ∀ c ∈ s.pool.owning, c.thn ≠ .peerRevoke n g) : exec (.keyRevoke n g) s = .next (s.sendMgmt n (.revokeAck g 0)) := by
  simp only [exec, execKeyRevoke, State.mgmtFrom_admitted hs ha, hb, State.noneOwning hown, Bool.false_eq_true, if_false]

theorem exec_quarantineNotice (hs : s.serves = true) (ha : (s.peer n).state = .admitted) (cause : Nat) :
    exec (.quarantineNotice n cause) s = .next (s.fencePeer n 3 none) := by
  simp only [exec, execQuarantineNotice, State.mgmtFrom_admitted hs ha]

end Peer

/-! ### The fence of a peer (R473) -/

/-- The same peers, and the grants under way that a fence leaves. -/
structure State.SamePeers (s t : State) : Prop where
  peers : t.basket.peers = s.basket.peers
  grants : t.basket.grants = s.basket.grants

theorem State.SamePeers.refl (s : State) : s.SamePeers s := ⟨rfl, rfl⟩

theorem State.SamePeers.trans {s t u : State} (h : s.SamePeers t) (k : t.SamePeers u) : s.SamePeers u :=
  ⟨k.peers.trans h.peers, k.grants.trans h.grants⟩

theorem State.SamePeers.of_basket {s t : State} (h : t.basket = s.basket) : s.SamePeers t := by
  constructor <;> rw [h]

theorem foldl_samePeers {α : Type} (g : State → α → State) (h : ∀ s x, State.SamePeers s (g s x)) (l : List α) (s : State) :
    s.SamePeers (l.foldl g s) := by
  induction l generalizing s with
  | nil => exact .refl s
  | cons x l ih => exact (h s x).trans (ih _)

theorem State.modBlink_samePeers (s : State) (l : Nat) (m : BLink → BLink) : s.SamePeers (s.modBlink l m) := ⟨rfl, rfl⟩

theorem State.endXids_samePeers (s : State) (l c : Nat) : s.SamePeers (s.endXids l c) :=
  (s.modBlink_samePeers ..).trans (foldl_samePeers _ (fun s x => .of_basket (by simp)) _ _)

theorem State.dropPeerLocks_samePeers (s : State) (n : Nat) : s.SamePeers (s.dropPeerLocks n) := by
  refine foldl_samePeers _ (fun s g => ?_) _ _
  split
  · exact .of_basket (((State.modGate_memOnly ..).gate.comp (State.unpark_gateOnly ..)).agree .basket (by simp [gateParts]))
  · exact .refl s

theorem State.dropGuest_basket (s : State) (b : Nat) : (s.dropGuest b).basket = s.basket :=
  (State.startOwn_onlyIn ..).agree .basket (by simp)

theorem State.reclaimLost_basket (s : State) (g : Nat) : (s.reclaimLost g).basket = s.basket := by
  unfold State.reclaimLost
  split
  · rfl
  · next c _ =>
    have h : OnlyIn [.pool] s (c.saved.foldl (fun s x => s.setPte g x.1 x.2) s) := foldl_onlyIn _ (fun s x => s.setPte_onlyIn ..) _ _
    have hb : _ = s.basket := h.agree .basket (by simp)
    simpa using hb

/-- The record of a peer as a fence leaves it. -/
def Peer.fenced (cause : Nat) (p : Peer) : Peer :=
  { p with state := .fenced, cause := cause, fences := satAdd 65535 p.fences 1, spdm := 0, chainOk := false, session := none,
           reroute := none, mgmt := [], listed := [] }

/-- A fence changes the record of its peer and drops the grants of its pages; the other peers and grants stay. -/
theorem State.fencePeer_basket {s : State} {n : Nat} (hn : (s.peer n).state ≠ .fenced) (cause : Nat) (dead : Option Nat) :
    (s.fencePeer n cause dead).basket.peers = (s.modPeer n (Peer.fenced cause)).basket.peers ∧
      (s.fencePeer n cause dead).basket.grants = s.basket.grants.filter (fun g => g.home != n) := by
  unfold State.fencePeer
  rw [if_neg (by simpa using hn)]
  extract_lets ls s1 s2 us theirs net3 s3 s4 s5 basket6 s6 trust7 s7 s8
  have h2 : s1.SamePeers s2 := by
    refine foldl_samePeers _ (fun s l => ?_) _ _
    exact (s.endXids_samePeers ..).trans (State.modBlink_samePeers ..)
  have h5 : s1.SamePeers s5 := by
    refine (h2.trans (.of_basket rfl : s2.SamePeers s3)).trans (State.SamePeers.trans (t := s4) ?_ ?_)
    · exact (s3.dropPeerLocks_samePeers n).trans (foldl_samePeers _ (fun s b => .of_basket (s.dropGuest_basket b)) _ _)
    · exact foldl_samePeers _ (fun s g => .of_basket (by simp)) _ _
  have h8 : s6.SamePeers s8 :=
    (.of_basket rfl : s6.SamePeers s7).trans (foldl_samePeers _ (fun s e => .of_basket (s.reclaimLost_basket _)) _ _)
  constructor
  · refine Eq.trans ?_ (h8.peers.trans h5.peers)
    split <;> simp
  · refine Eq.trans ?_ (h8.grants.trans (congrArg (List.filter _) h5.grants))
    split <;> simp

theorem State.fencePeer_peer {s : State} {n : Nat} (hn : (s.peer n).state ≠ .fenced) (cause : Nat) (dead : Option Nat) :
    (s.fencePeer n cause dead).peer n = (s.peer n).fenced cause := by
  rw [State.peer, (State.fencePeer_basket hn cause dead).1]
  exact State.modPeer_same ..

/-- Settles O22: each message by its equation; the fence by what its steps leave of peers and grants. -/
theorem peerRequestMessagesComplete : Obligations.PeerRequestMessagesComplete := by
  intro s n g hs ha
  refine ⟨fun key b hb => ?_, fun m b hb hown hstop hm hfree hg => ?_, fun ps b hb hown hg hne hps => ?_, fun b hb hg hne => ?_,
    fun hb hown => exec_keyRevoke_unknown hs ha hb hown, fun cause => ?_⟩
  · exact ⟨_, exec_keyTransfer hs ha hb, by simp, fun j hj => by simp [State.modSlot_ne _ _ _ hj], rfl,
      onlyIn_iff.mpr (by simp [State.sendMgmt])⟩
  · obtain ⟨h1, h2, h3⟩ := State.changeOwn_asks hfree hg (some b) (.peerAlloc n g)
    exact ⟨_, exec_pageAlloc hs ha hb hown hstop hm, h1, h2, h3⟩
  · obtain ⟨h1, h2, h3⟩ := State.changeOwn_asks hne hg none (.peerRelease n g)
    exact ⟨_, exec_pageRelease hs ha hb hown hps, h1, h2, h3⟩
  · obtain ⟨h1, -, h3⟩ := State.changeOwn_asks (s := s.modSlot b (fun _ => {})) hne hg none (.peerRevoke n g)
    have hslot (j : Nat) := congrArg (fun t : Trust => t.band.get {} j) (h3.agree .trust (by simp))
    refine ⟨_, exec_keyRevoke hs ha hb, (hslot b).trans (State.modSlot_same ..), fun j hj => (hslot j).trans (State.modSlot_ne _ _ _ hj), h1,
      OnlyIn.comp (onlyIn_iff.mpr (by simp)) (h3.mono (by simp))⟩
  · have hn : (s.peer n).state ≠ .fenced := by rw [ha]; decide
    have hp := State.fencePeer_peer hn 3 none
    refine ⟨_, exec_quarantineNotice hs ha cause, ?_, ?_, ?_, ?_, fun x hx => ?_⟩
    · rw [hp]; rfl
    · rw [hp]; rfl
    · rw [hp]; rfl
    · rw [hp]; rfl
    · rw [(State.fencePeer_basket hn 3 none).2] at hx
      simpa using (List.mem_filter.mp hx).2

end Sys2Proof.Machine
end

