-- ==== Sys2Proof/Proofs/PacketTurn.lean ====
section
/-! PROOFS. A packet number given twice (R244, R521). -/

namespace Sys2Proof.Machine

/-! ### A number given twice

`recordFails` reports each failed line, and a report takes the next packet number and puts its flit pairs on the way. Where that
number is the number under which the Weave holds the packet itself, the packet is on the way again when its turn is asked for. -/

/-- A read of line 0 at DDR gate 0. -/
def gateRead : Packet := { op := .memRd, vc := 2, dest := 16, len := 64 }

/-- The gate is fenced, and the read has the number that the next packet is to get. -/
def sameNumber : State := { net.pkts := [(0, gateRead)], flt.units := [(16, { state := 1 })] }

theorem sameNumber_turn : sameNumber.waitsTurn gateRead = false ∧ sameNumber.fenced gateRead.dest = true := by decide

theorem sameNumber_waits : (sameNumber.fenceFails gateRead).waitsTurn gateRead = true := by decide

theorem sameNumber_stays : exec (.memRd gateRead) sameNumber = .next (sameNumber.fenceFails gateRead) := by
  have turn : (sameNumber.borderWaits gateRead || sameNumber.waitsTurn (gateRead.asOp .memRd)) = false := by decide
  have waits : (sameNumber.fenceFails (gateRead.asOp .memRd)).waitsTurn (gateRead.asOp .memRd) = true := sameNumber_waits
  refine congrArg Host.Outcome.next ?_
  rw [State.memPacket, if_neg (by simp [turn]), State.arrive, State.atTarget, if_pos waits]
  rfl

/-- Refutes O24: the report of a fenced gate's line takes the packet number of the read, which then is on the way and waits for its
turn, and nothing is answered. -/
theorem not_packetsMeetTheChecksOfTheirTarget : ¬ Obligations.PacketsMeetTheChecksOfTheirTarget := by
  unfold Obligations.PacketsMeetTheChecksOfTheirTarget
  intro h
  obtain ⟨-, answered, -⟩ := h sameNumber gateRead (.memRd gateRead) (by simp) (fun _ => rfl) nofun nofun nofun nofun nofun nofun nofun
    nofun nofun nofun nofun nofun nofun (by decide) sameNumber_turn.1
  have both := (sameNumber_stays.symm.trans (answered (by decide) sameNumber_turn.2 (.inl rfl)))
  rw [if_pos (by simp)] at both
  have knots := congrArg (fun t => t.net.knotIn.length) (Host.Outcome.next.inj both)
  exact absurd knots (by decide)

end Sys2Proof.Machine
end

