-- ==== Sys2Proof/Proofs/Unlocks.lean ====
section
/-! PROOFS. An unlock and the accesses that wait (R260). -/

namespace Sys2Proof.Machine

/-! ### An unlock lets a waiting walk run

The release of a lock tries the gate's waiting accesses again (R260), and among them those that wait in another block's walk: one of
them may change the write-combining buffer in the same step. -/

/-- A request of glove 0 for a line of the first page, at gate 0. -/
def gateReq (o : POp) (line : Nat) : Packet :=
  { op := o, vc := o.vc 0, dest := gateUnit 0, initUnit := engineUnit 0, tag := 9, addr := 64 * line, len := 64, gloveValid := true }

/-- Gate 0 holds the ownership line of the first pages, line 0 is locked, and a write to line 64 waits in the walk of its block. -/
def waitingGate : Gate :=
  { locks := [⟨0, engineUnit 0, 9⟩], olines := [(0, BitVec.ofNat 512 (packOwn { gen := 1, owner := 0, state := 1 }))],
    walks := [{ block := 1, waiting := [gateReq .memWr 64] }] }

def waitingWalk : State := { trust.band := [(0, { valid := true })], pool.gates := [(0, waitingGate)] }

theorem waitingWalk_owned : waitingWalk.OwnedLine 0 (gateReq .unlock 0) 0 0 := by constructor <;> decide +kernel

theorem waitingWalk_arrives : waitingWalk.Arrives .unlock (gateReq .unlock 0) := by and_intros <;> decide

/-- The write that waited is carried out. -/
theorem waitingWalk_written {t : State} (h : exec (.unlock (gateReq .unlock 0)) waitingWalk = .next t) : (t.gate 0).wcb.length = 1 := by
  have step : exec (.unlock (gateReq .unlock 0)) waitingWalk = .next (waitingWalk.memPacket .unlock (gateReq .unlock 0)) := rfl
  rw [← Host.Outcome.next.inj (step.symm.trans h)]
  decide +kernel

/-- Refutes O25: the unlock of line 0 lets the write that waits for line 64 go on, which puts its line in the write-combining buffer. -/
theorem not_memoryPacketsAtTheWriteCombiningBuffer : ¬ Obligations.MemoryPacketsAtTheWriteCombiningBuffer := by
  unfold Obligations.MemoryPacketsAtTheWriteCombiningBuffer
  rintro ⟨owned, -⟩
  obtain ⟨-, -, -, unlock, -⟩ := owned waitingWalk 0 0 0 (gateReq .unlock 0) waitingWalk_owned
  obtain ⟨t, runs, -, wcb, -⟩ := unlock ⟨0, engineUnit 0, 9⟩ waitingWalk_arrives rfl rfl rfl rfl
  have written := waitingWalk_written runs
  rw [wcb] at written
  exact absurd written (by decide)

end Sys2Proof.Machine
end

