-- ==== Sys2Proof/Proofs/RegisterPackets.lean ====
section
/-! PROOFS. ZL_RD, REG_RD and REG_WR (R242, R309, R312, R631, R632). -/

namespace Sys2Proof.Machine

/-! ### A packet whose target is ready -/

theorem Packet.asOp_self (p : Packet) : p.asOp p.op = p := by
  rw [Packet.asOp]
  split <;> rfl

/-- A packet that finds its target ready is taken and served (R244, R254-R256, R261, R521). -/
theorem State.arrive_ready {s : State} {o : POp} {p : Packet} (h : s.Arrives o p) (f : Packet → State → State) :
    s.arrive o p f = f p (s.take p) := by
  obtain ⟨rfl, turn, vc, free, on⟩ := h
  simp [State.arrive, State.atTarget, Packet.asOp_self, turn, vc, free, on]

theorem State.take_onlyIn (s : State) (p : Packet) : OnlyIn [.net] s (s.take p) := onlyIn_iff.mpr (by simp)

theorem Tbl.mem_set {α : Type} (t : Tbl α) (k : Nat) (v : α) : (k, v) ∈ Tbl.set t k v := by
  induction t with
  | nil => simp [Tbl.set]
  | cons e r ih =>
    simp only [Tbl.set]
    split
    · simp
    · split <;> simp [ih]

/-- The response to a packet is in the Weave. -/
theorem State.respond_sends (s : State) (r : Packet) (o : POp) (st a : Nat) (d : List Line) (ep : Bool) :
    Sends (s.respond r o st a d ep) (· = r.response o st a d ep) := by
  refine ⟨(s.net.nextPkt, r.response o st a d ep), ?_, rfl⟩
  rw [State.respond, State.inject_pkts]
  exact Tbl.mem_set ..

/-! ### ZL_RD, REG_RD and REG_WR (R242, R309, R312, R631, R632) -/

theorem exec_zlRd {s : State} {p : Packet} (h : s.Arrives .zlRd p) (cuff : unitKind p.dest = 0) (host : p.hostSpace = true) :
    exec (.zlRd p) s = .next ((s.take p).cuffRequest p) := by
  simp [exec, execZlRd, State.arrive_ready h, cuff, host]

theorem exec_regRd {s : State} {p : Packet} (h : s.Arrives .regRd p) (reach : regOpen p = true) :
    exec (.regRd p) s = .next ((s.take p).respond p .cplD 0 (p.addr / 64 * 64)
      [lineOf ((List.range 8).flatMap (fun i =>
        leBytes 8 ((s.take p).readBlock p.dest (p.addr % 0x100000 / 64 * 64 + 8 * i))))] false) := by
  simp [exec, execRegRd, State.arrive_ready h, reach]

theorem exec_regRd_closed {s : State} {p : Packet} (h : s.Arrives .regRd p) (shut : regOpen p = false) :
    exec (.regRd p) s = .next ((s.take p).answer p 0x0004) := by
  have read : p.op.cls ≠ 0 := by rw [h.1]; decide
  simp [exec, execRegRd, State.arrive_ready h, shut, State.missAt, read]

/-- A unit of the line that a register write's packet carries, where the packet enables a byte of it. -/
def State.writePart (s : State) (p : Packet) (i : Nat) : State :=
  if unitMask p i == 0 then s
  else s.writeBlock p.dest (p.addr % 0x100000 / 64 * 64 + 8 * i) (word64 (p.data.headD 0) i) (unitMask p i)

theorem exec_regWr {s : State} {p : Packet} (h : s.Arrives .regWr p) (reach : regOpen p = true) (clean : p.ep = false) :
    exec (.regWr p) s = .next (((List.range 8).foldl (fun s i => s.writePart p i) (s.take p)).answer p 0) := by
  simp only [exec, execRegWr, State.arrive_ready h, reach, clean, State.writePart, Bool.not_true, Bool.false_eq_true, if_false]

theorem exec_regWr_closed {s : State} {p : Packet} (h : s.Arrives .regWr p) (shut : regOpen p = false) :
    exec (.regWr p) s = .next ((s.take p).missAt p) := by
  simp [exec, execRegWr, State.arrive_ready h, shut]

theorem Packet.enabled_allOnes {p : Packet} (first : p.firstBE = BitVec.allOnes 64) (last : p.lastBE = BitVec.allOnes 64) (i : Nat) :
    p.enabled i = true := by
  simp only [Packet.enabled, first, last, BitVec.getLsbD_allOnes, Nat.mod_lt _ (by decide : 64 > 0), decide_true, Bool.or_true, Bool.and_self]

/-- The mask of a write of exactly one eight-byte unit. -/
theorem unitMask_one {p : Packet} {i : Nat} (at8 : p.addr % 64 = 8 * i) (len : p.len = 8) (first : p.firstBE = BitVec.allOnes 64)
    (last : p.lastBE = BitVec.allOnes 64) (j : Nat) : unitMask p j = if j = i then 255 else 0 := by
  have unit (k : Nat) (h : k < 8) : (8 * i + k) / 8 = i := by omega
  simp only [unitMask, len, at8, Packet.enabled_allOnes first last, List.range_succ, List.range_zero]
  by_cases same : j = i
  · subst same
    simp [unit]
  · simp [unit, same, Ne.symm same]

theorem writeUnits_one {p : Packet} {i : Nat} (s : State) (hi : i < 8) (mask : ∀ j, unitMask p j = if j = i then 255 else 0) :
    (List.range 8).foldl (fun s i => s.writePart p i) s =
      s.writeBlock p.dest (p.addr % 0x100000 / 64 * 64 + 8 * i) (word64 (p.data.headD 0) i) 255 := by
  have other (s : State) (j : Nat) (h : j ≠ i) : s.writePart p j = s := by simp [State.writePart, mask, h]
  have this (s : State) : s.writePart p i = s.writeBlock p.dest (p.addr % 0x100000 / 64 * 64 + 8 * i) (word64 (p.data.headD 0) i) 255 := by
    simp [State.writePart, mask]
  have upTo (n : Nat) : (List.range n).foldl (fun s i => s.writePart p i) s = if i < n then s.writePart p i else s := by
    induction n with
    | zero => rfl
    | succ n ih =>
      rw [List.range_succ, List.foldl_append, ih]
      by_cases same : n = i
      · simp [same]
      · simp only [List.foldl_cons, List.foldl_nil, other _ n same]
        exact if_congr (by omega) rfl rfl
  rw [upTo, if_pos hi, this]

theorem State.cuffRequest_sent {s : State} {p : Packet} (up : (s.link p.link).up = true) (free : s.peerClosed p = false)
    (bme : (s.fn ⟨p.link, p.fn⟩).bme = true) (d0 : (s.fn ⟨p.link, p.fn⟩).d3 = false) :
    s.cuffRequest p = s.modLink p.link (fun l =>
      { l with
        txq := l.txq ++ s.tlpsOf p,
        devReqs := if p.op.cls == 1 then l.devReqs ++ [{ pkt := p, left := (s.tlpsOf p).length }] else l.devReqs }) := by
  simp [State.cuffRequest, up, free, bme, d0]

/-- Settles O26: each packet finds its target ready and is served there. -/
theorem hostAndRegisterPacketsComplete : Obligations.HostAndRegisterPacketsComplete := by
  unfold Obligations.HostAndRegisterPacketsComplete
  refine ⟨?_, ?_, ?_, fun _ _ => exec_regRd_closed, fun _ _ => exec_regWr, fun _ _ => exec_regWr_closed, fun _ _ => exec_zlRd⟩
  · intro s p arrives cuff host up free _ bme d0
    have ts : (s.take p).tlpsOf p = [.memRd p.fn p.addr 0 p] := by simp [State.tlpsOf, arrives.1]
    have cls : p.op.cls = 1 := by rw [arrives.1]; rfl
    have sent := State.cuffRequest_sent (s := s.take p) (p := p) (by simpa using up) free (by simpa using bme) (by simpa using d0)
    refine ⟨_, (exec_zlRd arrives cuff host).trans (congrArg _ sent), ?_, fun j hj => ?_, onlyIn_iff.mpr (by simp)⟩
    · simp [State.modLink_same, ts, cls]
    · rw [State.modLink_ne _ _ _ hj, State.take_link]
  · intro s p arrives reach
    refine ⟨_, exec_regRd arrives reach, ?_, onlyIn_iff.mpr (by simp [State.respond])⟩
    obtain ⟨e, mem, sent⟩ := State.respond_sends (s.take p) p .cplD 0 (p.addr / 64 * 64) _ false
    exact ⟨e, mem, by rw [sent]; exact ⟨rfl, rfl, rfl, rfl, rfl⟩⟩
  · intro s p i arrives reach clean hi at8 len first last
    rw [exec_regWr arrives reach clean, writeUnits_one (s.take p) hi (unitMask_one at8 len first last)]

end Sys2Proof.Machine
end

