-- ==== Sys2Proof/Proofs/PeerRings.lean ====
section
/-! PROOFS. A queue's ring in a peer's memory (R163, R350). -/

namespace Sys2Proof.Machine

/-! ### A queue's ring in a peer's memory

A response that says the data are poisoned counts an integrity failure of the requesting glove where the address is a peer's (R163),
whatever the request was for; the fetch of a queue whose ring lies in a page of a peer is such a request. -/

/-- The fetch of one entry of queue 1 of the first VF, from a ring in a peer's memory. -/
def peerRing : Req :=
  { unit := queueUnit 0, tag := 9, ctx := .qFetch ⟨0, 1, 1⟩ 8 1, left := 1,
    pkt := { op := .memRd, addr := 0x100000000000, len := 64, gloveValid := true } }

/-- The response that the entry's line failed verification. -/
def ringLost : Packet := { op := .cpl, vc := 4, dest := queueUnit 0, tag := 9, status := 0x0202 }

def ringFetch : State :=
  { boot := { cfg := { cuffModes := [2], ranges := [(0, 8)] } },
    host := { links := [(0, { vfEnable := true, numVfs := 8 })] },
    work := { queues := [(QId.key ⟨0, 1, 1⟩, { enable := true })] },
    net := { outst := [peerRing] } }

theorem ringFetch_answers : ringFetch.AnswersReq .cpl ringLost peerRing := by and_intros <;> decide

theorem ringFetch_counts {t : State} (h : exec (.cpl ringLost) ringFetch = .next t) : (t.usage 0).integ = 1 := by
  have step : exec (.cpl ringLost) ringFetch = .next (((ringFetch.take ringLost)).endedBy peerRing ringLost) := by
    refine congrArg Host.Outcome.next ((State.arrive_ready ringFetch_answers.1 _).trans ?_)
    rfl
  rw [← Host.Outcome.next.inj (step.symm.trans h)]
  decide

/-- Refutes O27: an entry that a peer answers with an integrity failure counts in the glove's usage, which is outside the parts that the
queue's fault may change. -/
theorem not_responsePacketsComplete : ¬ Obligations.ResponsePacketsComplete := by
  unfold Obligations.ResponsePacketsComplete
  rintro ⟨-, failed, -⟩
  obtain ⟨t, runs, -, -, -, -, only⟩ := failed ringFetch ringLost peerRing ⟨0, 1, 1⟩ 8 1 ringFetch_answers rfl rfl (by decide) (by decide)
    (by decide) (by decide)
  have counted := ringFetch_counts runs
  have same : t.usg = ringFetch.usg := only.agree .usg (by decide)
  rw [State.usage, same] at counted
  exact absurd counted (by decide)

end Sys2Proof.Machine
end

