-- ==== Sys2Proof/Proofs/MetadataPackets.lean ====
section
/-! PROOFS. Metadata and tier packets (R130-R134, R148, R149, R169, R239). -/

namespace Sys2Proof.Machine

/-! ### Packets that stay in the Weave -/

/-- A packet is in the Weave under a number that was given before. -/
def State.Carries (s : State) (p : Packet) : Prop := ∃ n < s.net.nextPkt, (n, p) ∈ s.net.pkts

theorem State.Carries.sends {s : State} {p : Packet} {q : Packet → Prop} (h : s.Carries p) (hq : q p) : Sends s q := by
  obtain ⟨n, -, mem⟩ := h
  exact ⟨(n, p), mem, hq⟩

theorem Tbl.mem_set_of_ne {α : Type} {t : Tbl α} {k j : Nat} {v w : α} (h : (j, w) ∈ t) (ne : j ≠ k) : (j, w) ∈ Tbl.set t k v := by
  induction t with
  | nil => exact absurd h (List.not_mem_nil)
  | cons e r ih =>
    simp only [Tbl.set]
    split
    · exact List.mem_cons_of_mem _ h
    · rcases List.mem_cons.mp h with rfl | h
      · rw [if_neg ne]
        exact List.mem_cons_self
      · split
        · exact List.mem_cons_of_mem _ h
        · exact List.mem_cons_of_mem _ (ih h)

@[simp] theorem State.inject_nextPkt (s : State) (p : Packet) : (s.inject p).net.nextPkt = s.net.nextPkt + 1 := by
  have stat (s : State) (p : Packet) (m : Stat → Stat) : (s.countStat p m).net.nextPkt = s.net.nextPkt := by
    unfold State.countStat
    dsimp only
    split <;> rfl
  unfold State.inject
  dsimp only
  split <;> split <;> simp [State.pushFlits, stat]

theorem State.inject_carries (s : State) (p : Packet) : (s.inject p).Carries p :=
  ⟨s.net.nextPkt, by simp, by simpa using Tbl.mem_set ..⟩

theorem State.Carries.inject {s : State} {p : Packet} (h : s.Carries p) (q : Packet) : (s.inject q).Carries p := by
  obtain ⟨n, lt, mem⟩ := h
  exact ⟨n, by simp; omega, by simpa using Tbl.mem_set_of_ne mem (by omega)⟩

theorem State.Carries.of_net {s t : State} {p : Packet} (h : s.Carries p) (net : t.net = s.net) : t.Carries p := by
  simpa [State.Carries, net] using h

theorem State.respond_carries (s : State) (r : Packet) (o : POp) (st a : Nat) (d : List Line) (ep : Bool) :
    (s.respond r o st a d ep).Carries (r.response o st a d ep) := State.inject_carries ..

theorem State.respond_netOnly (s : State) (r : Packet) (o : POp) (st a : Nat) (d : List Line) (ep : Bool) :
    OnlyIn [.net] s (s.respond r o st a d ep) := onlyIn_iff.mpr (by simp [State.respond])

/-- A request on Mr is answered with an MR_ACK (R243). -/
theorem State.answer_mr {s : State} {p : Packet} (mr : p.op.cls = 3) (c : Nat) : s.answer p c = s.respond p .mrAck c 0 [] false := by
  simp [State.answer, mr]

theorem State.answer_netOnly (s : State) (p : Packet) (c : Nat) : OnlyIn [.net] s (s.answer p c) := onlyIn_iff.mpr (by simp)

theorem State.answer_mrAck {s : State} {p : Packet} (mr : p.op.cls = 3) (c : Nat) :
    Sends (s.answer p c) (fun a => a.op = .mrAck ∧ a.dest = p.initUnit ∧ a.tag = p.tag ∧ a.status = c) := by
  rw [State.answer_mr mr]
  exact (State.respond_carries ..).sends ⟨rfl, rfl, rfl, rfl⟩

/-! ### What a node's place and the root store rest on -/

theorem State.keyAddr_congr {s t : State} (boot : t.boot = s.boot) (b : Bool) (l i : Nat) : t.keyAddr b l i = s.keyAddr b l i := by
  have base (s : State) : s.keyAddr b l i = ({ boot := s.boot } : State).keyAddr b l i := rfl
  rw [base t, base s, boot]

theorem State.hcHeld_congr {s t : State} (boot : t.boot = s.boot) (pool : t.pool = s.pool) (b : Bool) (l i : Nat) :
    t.hcHeld b l i = s.hcHeld b l i := by
  have gate (h : Nat) : t.hgate h = s.hgate h := by rw [State.hgate, State.hgate, pool]
  unfold State.hcHeld
  rw [State.keyAddr_congr boot]
  dsimp only
  rw [gate]

theorem State.pages_congr {s t : State} (boot : t.boot = s.boot) : t.pages = s.pages := by
  simp only [State.pages, State.channels, boot]

theorem State.treeTop_congr {s t : State} (boot : t.boot = s.boot) (b : Bool) : t.treeTop b = s.treeTop b := by
  simp only [State.treeTop, State.pages_congr boot]

theorem State.nodeMac_congr {s t : State} (trust : t.trust = s.trust) (l i : Nat) (d : Line) : t.nodeMac l i d = s.nodeMac l i d := by
  simp only [State.nodeMac, trust]

theorem State.initNode_congr {s t : State} (boot : t.boot = s.boot) (trust : t.trust = s.trust) (b : Bool) (n i : Nat) :
    t.initNode b n i = s.initNode b n i := by
  induction n generalizing i with
  | zero =>
    have table : t.initTable i = s.initTable i := by
      unfold State.initTable
      rw [State.pages_congr boot]
    simp only [State.initNode, table]
  | succ n ih =>
    have leaves : t.leaves b = s.leaves b := by simp only [State.leaves, State.pages_congr boot]
    simp only [State.initNode, State.nodeMac_congr trust, ih]
    rw [leaves]

theorem State.rootAt_congr {s t : State} (boot : t.boot = s.boot) (trust : t.trust = s.trust) (root : t.pool.root = s.pool.root) (b : Bool)
    (i : Nat) : t.rootAt b i = s.rootAt b i := by
  simp only [State.rootAt, root, State.treeTop_congr boot, State.initNode_congr boot trust, State.nodeMac_congr trust]

theorem State.rootOk_congr {s t : State} (boot : t.boot = s.boot) (trust : t.trust = s.trust) (root : t.pool.root = s.pool.root) (b : Bool)
    (i : Nat) : t.rootOk b i = s.rootOk b i := by
  simp only [State.rootOk, State.rootAt_congr boot trust root, State.treeTop_congr boot, State.nodeMac_congr trust]

/-- An access joins a scheduler's queue and a packet is taken: what HBM holds stays. -/
theorem State.hbmRead_hbmWant_take (s : State) (p : Packet) (q' a' q a : Nat) :
    ((s.take p).hbmWant q' a').hbmRead q a = s.hbmRead q a := by
  have place : ((s.take p).hbmWant q' a').hbmPlace q a = s.hbmPlace q a := rfl
  have node (b : Bool) (l i : Nat) : ((s.take p).hbmWant q' a').node b l i = s.node b l i := by
    rw [State.node, State.initNode_congr (s := s) (t := (s.take p).hbmWant q' a') rfl rfl]
    rfl
  have table (l : Nat) : ((s.take p).hbmWant q' a').tableLine l = s.tableLine l := by
    have entry (off : Nat) : ((s.take p).hbmWant q' a').tableEntry off = s.tableEntry off := by
      have own (i : Nat) : ((s.take p).hbmWant q' a').own i = s.own i := rfl
      have glove (g : Nat) : ((s.take p).hbmWant q' a').glove g = s.glove g := rfl
      have pte (g i : Nat) : ((s.take p).hbmWant q' a').pte g i = s.pte g i := rfl
      have bytes : ((s.take p).hbmWant q' a').ptBytes = s.ptBytes := rfl
      have base : ((s.take p).hbmWant q' a').ptBase = s.ptBase := rfl
      simp only [State.tableEntry, own, glove, pte, bytes, base]
    simp only [State.tableLine, entry]
  have copy : ((s.take p).hbmWant q' a').hbmCopy q a = s.hbmCopy q a := by
    unfold State.hbmCopy
    rw [place]
    split
    · rfl
    · exact node ..
    · rw [table]
      rfl
    · rfl
  unfold State.hbmRead
  rw [copy]
  rfl

/-! ### A line leaves a counter cache: what stays -/

/-- Only the pool changes, and not the root store. -/
def State.KeepsRoot (s t : State) : Prop := OnlyIn [.pool] s t ∧ t.pool.root = s.pool.root

theorem State.KeepsRoot.trans {s t u : State} (h : s.KeepsRoot t) (k : t.KeepsRoot u) : s.KeepsRoot u :=
  ⟨h.1.comp k.1, k.2.trans h.2⟩

theorem State.tierPutAt_keepsRoot (s : State) (q a : Nat) (d : Line) : s.KeepsRoot (s.tierPutAt q a d) := by
  unfold State.tierPutAt
  dsimp only
  split <;> exact ⟨onlyIn_pool _ _, rfl⟩

theorem State.hbmPut_keepsRoot (s : State) (q a : Nat) (d : Line) : s.KeepsRoot (s.hbmPut q a d) := by
  unfold State.hbmPut
  dsimp only
  split
  · exact ⟨onlyIn_pool _ _, rfl⟩
  · exact ⟨onlyIn_pool _ _, rfl⟩
  · exact ⟨onlyIn_pool _ _, rfl⟩
  · exact State.KeepsRoot.trans (t := { s with pool.hbmBad := s.pool.hbmBad.filter (· != hbmKey q a) }) ⟨onlyIn_pool s _, rfl⟩
      (State.tierPutAt_keepsRoot ..)

theorem State.hbufPut_keepsRoot (s : State) (q a : Nat) (d : Line) : s.KeepsRoot (s.hbufPut q a d) := by
  have put (u : State) (m : HGate → HGate) : u.KeepsRoot ((u.modHgate (hgateOf q a) m).hbmWant q a) := ⟨onlyIn_pool _ _, rfl⟩
  unfold State.hbufPut
  dsimp only
  split
  · exact (State.hbmPut_keepsRoot ..).trans (put ..)
  · exact put ..

theorem State.evictNode_leaves (s : State) (h key : Nat) :
    OnlyIn [.pool, .net] s (s.evictNode h key) ∧ (s.evictNode h key).pool.root = s.pool.root := by
  have moved (m : HGate → HGate) (q a : Nat) (d : Line) : s.KeepsRoot ((s.modHgate h m).hbufPut q a d) :=
    State.KeepsRoot.trans (t := s.modHgate h m) ⟨onlyIn_pool s _, rfl⟩ (State.hbufPut_keepsRoot ..)
  unfold State.evictNode
  dsimp only
  split
  · exact ⟨(moved ..).1.toPoolNet.comp (State.request_memOnly ..),
      (congrArg Pool.root (State.request_gpool ..)).trans (moved ..).2⟩
  · exact ⟨(onlyIn_pool s _).toPoolNet, rfl⟩

theorem State.hcTrim_leaves (s : State) (h : Nat) :
    OnlyIn [.pool, .net] s (s.hcTrim h) ∧ (s.hcTrim h).pool.root = s.pool.root := by
  unfold State.hcTrim
  split
  · exact State.evictNode_leaves ..
  · exact ⟨(onlyIn_pool s _).toPoolNet, rfl⟩

/-! ### Metadata packets (R130, R131, R134) -/

theorem State.hcHeld_answer (s : State) (p : Packet) (c : Nat) (b : Bool) (l i : Nat) : (s.answer p c).hcHeld b l i = s.hcHeld b l i :=
  State.hcHeld_congr (by simp) (by simp) b l i

section Metadata
variable {s : State} {p : Packet}

theorem exec_mqRd_plain (h : s.Arrives .mqRd p) (gate : isStackCtl p.dest = false)
    (noTable : ∀ l, s.hbmPlace (unitQuad p.dest) p.addr ≠ .table l) (noNode : ∀ b l i, s.hbmPlace (unitQuad p.dest) p.addr ≠ .node b l i)
    (good : s.hbmLost (unitQuad p.dest) p.addr = false) :
    exec (.mqRd p) s = .next (((s.take p).hbmWant (unitQuad p.dest) p.addr).respond p .mrD 0 (64 * (p.addr / 64))
      (p.lines.map (fun l => s.hbmRead (unitQuad p.dest) (64 * l))) false) := by
  have good : ((s.take p).hbmWant (unitQuad p.dest) p.addr).hbmLost (unitQuad p.dest) p.addr = false := good
  refine congrArg Host.Outcome.next ((State.arrive_ready h _).trans ?_)
  simp only [gate, Bool.false_eq_true, if_false]
  split
  next place => exact absurd place (noTable _)
  next place => exact absurd place (noNode _ _ _)
  next => simp only [good, Bool.false_eq_true, if_false, State.hbmRead_hbmWant_take]

theorem exec_mqRd_held {b : Bool} {l i : Nat} {d : Line} (h : s.Arrives .mqRd p) (gate : isStackCtl p.dest = false)
    (node : s.hbmPlace (unitQuad p.dest) p.addr = .node b l i) (held : s.hcHeld b l i = some d) :
    exec (.mqRd p) s = .next ((s.take p).respond p .mrD 0 (64 * (p.addr / 64)) [d] false) := by
  have node : (s.take p).hbmPlace (unitQuad p.dest) p.addr = .node b l i := node
  refine congrArg Host.Outcome.next ((State.arrive_ready h _).trans ?_)
  simp only [gate, Bool.false_eq_true, if_false, node, State.hcHeld_take, held]

theorem exec_mqRd_node {b : Bool} {l i : Nat} (h : s.Arrives .mqRd p) (gate : isStackCtl p.dest = false)
    (node : s.hbmPlace (unitQuad p.dest) p.addr = .node b l i) (away : s.hcHeld b l i = none)
    (good : s.hbmLost (unitQuad p.dest) p.addr = false) :
    exec (.mqRd p) s = .next (((s.take p).hbmWant (unitQuad p.dest) p.addr).respond p .mrD 0 (64 * (p.addr / 64))
      [s.hbmRead (unitQuad p.dest) p.addr] false) := by
  have node : (s.take p).hbmPlace (unitQuad p.dest) p.addr = .node b l i := node
  have good : ((s.take p).hbmWant (unitQuad p.dest) p.addr).hbmLost (unitQuad p.dest) p.addr = false := good
  refine congrArg Host.Outcome.next ((State.arrive_ready h _).trans ?_)
  simp only [gate, Bool.false_eq_true, if_false, node, State.hcHeld_take, away, good, State.hbmRead_hbmWant_take]

theorem exec_mqRd_table {l : Nat} {d : Line} {u : State} (h : s.Arrives .mqRd p) (gate : isStackCtl p.dest = false)
    (table : s.hbmPlace (unitQuad p.dest) p.addr = .table l) (brought : (s.take p).bring true 8 0 l = (.inl d, u)) :
    exec (.mqRd p) s = .next ((u.respond p .mrD 0 (64 * (p.addr / 64)) [d] false).hcTrim (hgateOf (unitQuad p.dest) p.addr)) := by
  have table : (s.take p).hbmPlace (unitQuad p.dest) p.addr = .table l := table
  refine congrArg Host.Outcome.next ((State.arrive_ready h _).trans ?_)
  simp only [gate, Bool.false_eq_true, if_false, table, brought]

theorem exec_mqRd_root (h : s.Arrives .mqRd p) (stack : isStackCtl p.dest = true)
    (ok : s.rootOk (decide (3984 ≤ p.addr / 64)) (p.addr / 64 % 3984) = true) :
    exec (.mqRd p) s = .next ((s.take p).respond p .mrD 0 p.addr
      [(s.rootAt (decide (3984 ≤ p.addr / 64)) (p.addr / 64 % 3984)).1] false) := by
  have same (b : Bool) (i : Nat) : (s.take p).rootAt b i = s.rootAt b i :=
    State.rootAt_congr (s := s) (t := s.take p) rfl rfl rfl b i
  have ok := (State.rootOk_congr (s := s) (t := s.take p) rfl rfl rfl _ _).trans ok
  refine congrArg Host.Outcome.next ((State.arrive_ready h _).trans ?_)
  simp only [stack, if_true, State.readRoot, ok, same]

theorem exec_mqWr_buffer (h : s.Arrives .mqWr p) (clean : p.ep = false) (noTable : ∀ l, s.hbmPlace (unitQuad p.dest) p.addr ≠ .table l)
    (noNode : ∀ b l i, s.hbmPlace (unitQuad p.dest) p.addr ≠ .node b l i) :
    exec (.mqWr p) s = .next (((s.take p).hbufPut (unitQuad p.dest) (64 * (p.addr / 64)) (p.data.headD 0)).answer p 0) := by
  refine congrArg Host.Outcome.next ((State.arrive_ready h _).trans ?_)
  simp only [clean, Bool.false_eq_true, if_false]
  split
  next place => exact absurd place (noTable _)
  next place => exact absurd place (noNode _ _ _)
  next => rfl

theorem exec_mqWr_node {b : Bool} {l i : Nat} (h : s.Arrives .mqWr p) (clean : p.ep = false)
    (node : s.hbmPlace (unitQuad p.dest) p.addr = .node b l i) :
    exec (.mqWr p) s = .next (((s.take p).hcPut b l i (p.data.headD 0) true).answer p 0) := by
  have node : (s.take p).hbmPlace (unitQuad p.dest) p.addr = .node b l i := node
  refine congrArg Host.Outcome.next ((State.arrive_ready h _).trans ?_)
  simp only [clean, Bool.false_eq_true, if_false, node]

theorem exec_mqWr_table {l : Nat} (h : s.Arrives .mqWr p) (clean : p.ep = false)
    (table : s.hbmPlace (unitQuad p.dest) p.addr = .table l) :
    exec (.mqWr p) s = .next (((s.take p).changeTable l (fun s => s.putTable l (p.data.headD 0))).answer p 0) := by
  have table : (s.take p).hbmPlace (unitQuad p.dest) p.addr = .table l := table
  refine congrArg Host.Outcome.next ((State.arrive_ready h _).trans ?_)
  simp only [clean, Bool.false_eq_true, if_false, table]

theorem exec_mqMac_node {b : Bool} {l i : Nat} {u : State} (h : s.Arrives .mqMac p) (clean : p.ep = false)
    (gate : isStackCtl p.dest = false) (node : s.hbmPlace (unitQuad p.dest) p.addr = .node b l i)
    (taken : (s.take p).updateMac b l i (p.addr / 8 % 8) (macAt (p.data.headD 0) (p.addr / 8 % 8)) = (none, u)) :
    exec (.mqMac p) s = .next ((u.hcTrim (hgateOf (unitQuad p.dest) p.addr)).answer p 0) := by
  have node : (s.take p).hbmPlace (unitQuad p.dest) p.addr = .node b l i := node
  refine congrArg Host.Outcome.next ((State.arrive_ready h _).trans ?_)
  simp only [clean, gate, Bool.false_eq_true, if_false, node, taken]

/-- A root-store slot with one child's MAC replaced, under its own MAC (R129, R134). -/
def State.rootTook (s : State) (i c : Nat) (m : BitVec 64) : State :=
  let d := putMac (s.rootAt false i).1 c m
  { s with pool.root := s.pool.root.set (rootSlot false i) (d, s.nodeMac (s.treeTop false) i d) }

theorem State.updateMac_root (i c : Nat) (m : BitVec 64) (ok : s.rootOk false i = true) :
    s.updateMac false (s.treeTop false) i c m = (none, s.rootTook i c m) := by
  simp [State.updateMac, State.bring, State.readRoot, ok, State.rootTook]

theorem State.rootAt_rootTook (i c : Nat) (m : BitVec 64) :
    ((s.rootTook i c m).rootAt false i).1 = putMac (s.rootAt false i).1 c m := by
  simp [State.rootAt, State.rootTook, Tbl.get_set_same]

theorem exec_mqMac_root (h : s.Arrives .mqMac p) (clean : p.ep = false) (stack : isStackCtl p.dest = true) (slot : p.addr / 64 < 3984)
    (ok : s.rootOk false (p.addr / 64) = true) :
    exec (.mqMac p) s = .next ((((s.take p).rootTook (p.addr / 64) (p.addr / 8 % 8) (macAt (p.data.headD 0) (p.addr / 8 % 8))).hcTrim
      (hgateOf (unitQuad p.dest) p.addr)).answer p 0) := by
  have ok := (State.rootOk_congr (s := s) (t := s.take p) rfl rfl rfl _ _).trans ok
  refine congrArg Host.Outcome.next ((State.arrive_ready h _).trans ?_)
  simp only [clean, stack, Bool.false_eq_true, if_false, if_true, Nat.not_le.mpr slot, State.updateMac_root _ _ _ ok]

/-- A root-store slot that does not verify is reported, and the acknowledgement says that nothing was taken (R130, R133). -/
theorem exec_mqMac_rootFailed (h : s.Arrives .mqMac p) (clean : p.ep = false) (stack : isStackCtl p.dest = true)
    (slot : p.addr / 64 < 3984) (bad : s.rootOk false (p.addr / 64) = false) :
    exec (.mqMac p) s = .next (((s.take p).report
      (mkFault 3 .rootMismatch 0x0704 (stackUnit (p.addr / 64 % 4)) (p.addr / 64) none)).answer p 0x0202) := by
  have bad := (State.rootOk_congr (s := s) (t := s.take p) rfl rfl rfl _ _).trans bad
  refine congrArg Host.Outcome.next ((State.arrive_ready h _).trans ?_)
  simp [clean, stack, Nat.not_le.mpr slot, State.updateMac, State.bring, State.readRoot, bad, rootSlot]

end Metadata

/-! ### Tier packets (R148, R149, R239) -/

/-- A lookup's lines that the tier holds, with their places in the request. -/
def State.tierHits (s : State) (p : Packet) : List (Nat × Nat × TierLine) :=
  p.poolLines.zipIdx.filterMap (fun x => (s.tierFind x.1).map (fun t => (x.2, x.1, t)))

/-- The answer for a line that hits. -/
def tierLine (p : Packet) (l : Nat) (t : TierLine) : Packet := { p.response .mrD 0 (64 * l) [t.data] false with metaw := t.mac }

/-- The last answer of a lookup, with the hit mask. -/
def tierMask (p : Packet) (mask : Nat) : Packet := { p.response .mrAck 0 0 [] false with metaw := BitVec.ofNat 64 mask }

/-- The answer for a line that hits is sent, after its read has joined its pseudo-channel's queue. -/
def State.tierSend (s : State) (p : Packet) (x : Nat × Nat × TierLine) : State :=
  (s.hbmWant x.2.2.stack (s.wayAddr x.2.2)).inject (tierLine p x.2.1 x.2.2)

def State.tierSends (s : State) (p : Packet) (hits : List (Nat × Nat × TierLine)) : State := hits.foldl (fun s x => s.tierSend p x) s

def hitMask (hits : List (Nat × Nat × TierLine)) : Nat := hits.foldl (fun m x => m + 2 ^ x.1) 0

theorem exec_tierLookup {s : State} {p : Packet} (h : s.Arrives .tierLookup p) :
    exec (.tierLookup p) s = .next (((s.take p).tierSends p (s.tierHits p)).inject (tierMask p (hitMask (s.tierHits p)))) :=
  congrArg Host.Outcome.next (State.arrive_ready h _)

theorem State.inject_netOnly (s : State) (p : Packet) : OnlyIn [.net] s (s.inject p) := onlyIn_iff.mpr (by simp)

theorem State.tierSend_leaves (s : State) (p : Packet) (x : Nat × Nat × TierLine) : OnlyIn [.pool, .net] s (s.tierSend p x) := by
  rw [State.tierSend]
  exact (s.hbmWant_onlyIn ..).toPoolNet.comp ((State.inject_netOnly ..).mono (by simp))

theorem State.tierSends_leaves (s : State) (p : Packet) (hits : List (Nat × Nat × TierLine)) :
    OnlyIn [.pool, .net] s (s.tierSends p hits) :=
  foldl_onlyIn _ (fun s x => State.tierSend_leaves s p x) hits s

theorem State.Carries.tierSends {s : State} {p q : Packet} (h : s.Carries q) (hits : List (Nat × Nat × TierLine)) :
    (s.tierSends p hits).Carries q := by
  induction hits generalizing s with
  | nil => exact h
  | cons x hits ih => 
    have sent : (s.tierSend p x).Carries q := State.Carries.inject (h.of_net (t := s.hbmWant x.2.2.stack (s.wayAddr x.2.2)) rfl) _
    exact ih sent

theorem State.tierSends_carries {s : State} {p : Packet} {hits : List (Nat × Nat × TierLine)} {i l : Nat} {t : TierLine}
    (h : (i, l, t) ∈ hits) : (s.tierSends p hits).Carries (tierLine p l t) := by
  induction hits generalizing s with
  | nil => exact absurd h List.not_mem_nil
  | cons x hits ih =>
    rcases List.mem_cons.mp h with rfl | h
    · exact (State.inject_carries ..).tierSends hits
    · exact ih h

theorem State.mem_tierHits {s : State} {p : Packet} {l : Nat} {t : TierLine} (hl : l ∈ p.poolLines) (ht : s.tierFind l = some t) :
    ∃ i, (i, l, t) ∈ s.tierHits p := by
  obtain ⟨i, hi, rfl⟩ := List.mem_iff_getElem.mp hl
  refine ⟨i, List.mem_filterMap.mpr ⟨(p.poolLines[i], i), ?_, by simp [ht]⟩⟩
  exact List.mem_iff_getElem.mpr ⟨i, by simpa using hi, by simp⟩

/-- The mask has a bit for each line that hits. -/
theorem State.hitMask_tierHits (s : State) (p : Packet) :
    hitMask (s.tierHits p) = (p.poolLines.zipIdx.map (fun (l, i) => if (s.tierFind l).isSome then 2 ^ i else 0)).sum := by
  have start (ls : List (Nat × Nat)) (m : Nat) :
      (ls.filterMap (fun x => (s.tierFind x.1).map (fun t => (x.2, x.1, t)))).foldl (fun m x => m + 2 ^ x.1) m =
        m + (ls.map (fun x => if (s.tierFind x.1).isSome then 2 ^ x.2 else 0)).sum := by
    induction ls generalizing m with
    | nil => rfl
    | cons x ls ih =>
      cases found : s.tierFind x.1 with
      | none => simp [found, ih]
      | some t => simp [found, ih, Nat.add_assoc]
  simpa [hitMask, State.tierHits] using start p.poolLines.zipIdx 0

theorem State.tierHits_none {s : State} {p : Packet} (h : ∀ l ∈ p.poolLines, s.tierFind l = none) : s.tierHits p = [] := by
  refine List.filterMap_eq_nil_iff.mpr fun x hx => ?_
  have mem : x.1 ∈ p.poolLines := List.fst_mem_of_mem_zipIdx hx
  simp [h _ mem]

theorem tierLookup_answers {s : State} {p : Packet} (h : s.Arrives .tierLookup p) :
    ∃ t, exec (.tierLookup p) s = .next t ∧
      (∀ l ∈ p.poolLines, ∀ x, s.tierFind l = some x → t.Carries (tierLine p l x)) ∧
      t.Carries (tierMask p ((p.poolLines.zipIdx.map (fun (l, i) => if (s.tierFind l).isSome then 2 ^ i else 0)).sum)) ∧
      OnlyIn [.pool, .net] s t := by
  refine ⟨_, exec_tierLookup h, fun l hl x hx => ?_, ?_, ?_⟩
  · obtain ⟨i, hit⟩ := State.mem_tierHits hl hx
    exact (State.tierSends_carries hit).inject _
  · rw [← State.hitMask_tierHits]
    exact State.inject_carries ..
  · have taken : OnlyIn [.pool, .net] s (s.take p) := (s.take_onlyIn p).mono (by simp)
    exact (taken.comp (State.tierSends_leaves (s.take p) p (s.tierHits p))).comp ((State.inject_netOnly _ _).mono (by simp))

theorem tierLookup_misses {s : State} {p : Packet} (h : s.Arrives .tierLookup p) (none : ∀ l ∈ p.poolLines, s.tierFind l = none) :
    exec (.tierLookup p) s = .next ((s.take p).inject (tierMask p 0)) := by
  rw [exec_tierLookup h, State.tierHits_none none]
  rfl

theorem exec_tierFill {s : State} {p : Packet} (h : s.Arrives .tierFill p) (clean : p.ep = false) :
    exec (.tierFill p) s = .next
      (((s.take p).tierFill (poolAddr p.addr / 64) p.ctx (p.data.headD 0) p.metaw p.ackReq).1.answer p 0) := by
  refine congrArg Host.Outcome.next ((State.arrive_ready h _).trans ?_)
  simp only [clean, Bool.false_eq_true, if_false]

/-- A tier line that a fill replaces. -/
def TierLine.filled (x : TierLine) (p : Packet) : TierLine :=
  { x with mac := p.metaw, slot := p.ctx, dirty := x.dirty || p.ackReq, ref := true, data := p.data.headD 0 }

/-- A line that the tier holds is replaced where it is (R149). -/
theorem State.tierFill_held {s : State} {p : Packet} {x : TierLine} (held : s.tierFind (poolAddr p.addr / 64) = some x)
    (free : s.tierFenced x.stack x.set = false) :
    (s.tierFill (poolAddr p.addr / 64) p.ctx (p.data.headD 0) p.metaw p.ackReq).1 =
      s.setTier (s.pool.tier.map (fun y => if y = x then x.filled p else y)) := by
  have place := List.find?_some held
  simp only [Bool.and_eq_true, beq_iff_eq] at place
  obtain ⟨⟨⟨stack, set⟩, tag⟩, -⟩ := place
  change x.stack = (s.tierPlace (poolAddr p.addr / 64)).1 at stack
  change x.set = (s.tierPlace (poolAddr p.addr / 64)).2.1 at set
  change x.tag = (s.tierPlace (poolAddr p.addr / 64)).2.2 at tag
  simp only [State.tierFill, held, ← stack, ← set, ← tag, free, Bool.false_eq_true, if_false, beq_iff_eq]
  rfl

theorem exec_mirrorWr_pair {s : State} {p : Packet} {d m : Line} (h : s.Arrives .mirrorWr p) (clean : p.ep = false)
    (data : p.data = [d, m]) :
    exec (.mirrorWr p) s = .next
      ((((s.take p).ddrPut (4 * unitQuad p.dest + unitIdx p.dest) p.addr d).ddrPut (4 * unitQuad p.dest + unitIdx p.dest)
        (macLineAddr p.addr) m).answer p 0) := by
  refine congrArg Host.Outcome.next ((State.arrive_ready h _).trans ?_)
  simp [clean, data]

theorem exec_mirrorWr_line {s : State} {p : Packet} {d : Line} (h : s.Arrives .mirrorWr p) (clean : p.ep = false) (data : p.data = [d]) :
    exec (.mirrorWr p) s = .next (((s.take p).ddrPut (4 * unitQuad p.dest + unitIdx p.dest) p.addr d).answer p 0) := by
  refine congrArg Host.Outcome.next ((State.arrive_ready h _).trans ?_)
  simp [clean, data]

/-- Neither the eviction of a node nor an answer touches the root store. -/
theorem State.rootAt_trimmed (u : State) (h : Nat) (p : Packet) (c : Nat) (b : Bool) (i : Nat) :
    ((u.hcTrim h).answer p c).rootAt b i = u.rootAt b i := by
  obtain ⟨only, root⟩ := u.hcTrim_leaves h
  have boot : (u.hcTrim h).boot = u.boot := only.agree .boot (by decide)
  have trust : (u.hcTrim h).trust = u.trust := only.agree .trust (by decide)
  exact State.rootAt_congr (by simp [boot]) (by simp [trust]) (by simp [root]) b i

/-- Settles O28: each packet finds its target ready, and its target's answer is in the Weave. -/
theorem metadataAndTierPacketsComplete : Obligations.MetadataAndTierPacketsComplete := by
  unfold Obligations.MetadataAndTierPacketsComplete
  intro s p
  have taken : OnlyIn [.pool, .net] s (s.take p) := (s.take_onlyIn p).mono (by simp)
  have wanted (q a : Nat) : OnlyIn [.pool, .net] s ((s.take p).hbmWant q a) := taken.comp (State.hbmWant_onlyIn ..).toPoolNet
  have answered {t : State} (o : POp) (c a : Nat) (d : List Line) (h : OnlyIn [.pool, .net] s t) :
      OnlyIn [.pool, .net] s (t.respond p o c a d false) := h.comp ((State.respond_netOnly ..).mono (by simp))
  have acked {t : State} (c : Nat) (h : OnlyIn [.pool, .net] s t) : OnlyIn [.pool, .net] s (t.answer p c) :=
    h.comp (State.answer_memOnly ..)
  refine ⟨?_, ?_, ?_, fun l d u => exec_mqRd_table, ?_, exec_mqWr_buffer, ?_, fun l => exec_mqWr_table, ?_, ?_,
    fun b l i u => exec_mqMac_node, ?_, ?_, ?_, ?_, exec_tierFill, fun d m => exec_mirrorWr_pair, fun d => exec_mirrorWr_line⟩
  · intro arrives gate noTable noNode good
    exact ⟨_, exec_mqRd_plain arrives gate noTable noNode good, (State.respond_carries ..).sends ⟨rfl, rfl, rfl, rfl, rfl⟩,
      answered _ _ _ _ (wanted ..)⟩
  · intro b l i d arrives gate node held
    exact ⟨_, exec_mqRd_held arrives gate node held, (State.respond_carries ..).sends ⟨rfl, rfl, rfl, rfl, rfl⟩,
      OnlyIn.comp (s.take_onlyIn p) (State.respond_netOnly ..)⟩
  · intro b l i arrives gate node away good
    exact ⟨_, exec_mqRd_node arrives gate node away good, (State.respond_carries ..).sends ⟨rfl, rfl, rfl, rfl, rfl⟩,
      answered _ _ _ _ (wanted ..)⟩
  · intro arrives stack ok
    exact ⟨_, exec_mqRd_root arrives stack ok, (State.respond_carries ..).sends ⟨rfl, rfl, rfl, rfl, rfl⟩,
      OnlyIn.comp (s.take_onlyIn p) (State.respond_netOnly ..)⟩
  · intro b l i arrives clean node
    exact ⟨_, exec_mqWr_node arrives clean node, by rw [State.hcHeld_answer, State.hcHeld_hcPut],
      State.answer_mrAck (by rw [arrives.1]; rfl) 0, acked 0 (taken.comp (State.hcPut_onlyIn ..).toPoolNet)⟩
  · intro arrives clean stack slot ok
    have took (i c : Nat) (m : BitVec 64) : OnlyIn [.pool, .net] s ((s.take p).rootTook i c m) := taken.comp (onlyIn_pool _ _).toPoolNet
    refine ⟨_, exec_mqMac_root arrives clean stack slot ok, ?_, State.answer_mrAck (by rw [arrives.1]; rfl) 0,
      acked 0 ((took ..).comp (State.hcTrim_leaves ..).1)⟩
    rw [State.rootAt_trimmed, State.rootAt_rootTook, State.rootAt_congr (s := s) (t := s.take p) rfl rfl rfl]
  · intro arrives clean stack slot bad
    refine ⟨_, exec_mqMac_rootFailed arrives clean stack slot bad, ?_,
      OnlyIn.comp (s.take_onlyIn p) (OnlyIn.comp (State.report_onlyIn ..) (State.answer_netOnly ..))⟩
    rw [State.answer_mr (by rw [arrives.1]; rfl), State.respond, State.inject_reports, State.report_reports]
    exact List.mem_append_right _ List.mem_cons_self
  · intro l x arrives line found
    obtain ⟨t, runs, lines, mask, only⟩ := tierLookup_answers arrives
    refine ⟨t, runs, (lines l (by simp [line]) x found).sends ⟨rfl, rfl, rfl, rfl, rfl⟩, mask.sends ⟨rfl, rfl, rfl, ?_⟩, only⟩
    simp [tierMask, line, found]
  · intro arrives missing
    exact ⟨_, tierLookup_misses arrives missing, (State.inject_carries ..).sends ⟨rfl, rfl, rfl, rfl⟩,
      OnlyIn.comp (s.take_onlyIn p) (State.inject_netOnly ..)⟩
  · intro arrives
    obtain ⟨t, runs, lines, mask, only⟩ := tierLookup_answers arrives
    exact ⟨t, runs, fun l hl x hx => (lines l hl x hx).sends ⟨rfl, rfl, rfl, rfl, rfl, rfl⟩, mask.sends ⟨rfl, rfl, rfl, rfl⟩, only⟩
  · intro x arrives clean held free
    have filled := State.tierFill_held (s := s.take p) held free
    refine ⟨_, exec_tierFill arrives clean, ?_, State.answer_mrAck (by rw [arrives.1]; rfl) 0, acked 0 ?_⟩
    · rw [filled]
      simp [State.setTier, TierLine.filled]
    · rw [filled]
      exact taken.comp (onlyIn_pool _ _).toPoolNet

end Sys2Proof.Machine
end

