-- ==== Sys2Proof/Proofs/MetadataResponses.lean ====
section
/-! PROOFS. Metadata responses at their gate (R122, R132-R134, R148, R163, R241). -/

namespace Sys2Proof.Machine

/-! ### A response at its initiator (R272, R273) -/

/-- A response whose request is outstanding reaches it. -/
theorem State.arrive_answers {s : State} {o : POp} {p : Packet} {r : Req} (h : s.AnswersReq o p r) (f : Packet → Req → State → State) :
    s.arrive o p (fun p s => s.atInitiator p (fun r s => f p r s)) = f p r (s.take p) := by
  obtain ⟨arrives, alive, found⟩ := h
  have alive : (s.take p).net.dead.contains (p.dest, p.tag) = false := by
    rw [List.contains_eq_mem, decide_eq_false]
    exact alive
  have found : (s.take p).reqOf p.dest p.tag = some r := found
  rw [State.arrive_ready arrives]
  simp only [State.atInitiator, alive, found, Bool.false_eq_true, if_false]

theorem State.countResponse_netOnly (s : State) (r : Req) (p : Packet) (last : Bool) : OnlyIn [.net] s (s.countResponse r p last) := by
  have stat (s : State) (q : Packet) (m : Stat → Stat) : OnlyIn [.net] s (s.countStat q m) := onlyIn_iff.mpr (by simp)
  unfold State.countResponse
  dsimp only
  exact .ite ((OnlyIn.comp (.ite (.refl _ _) (stat ..)) (.ite (stat ..) (.refl _ _))).comp (stat ..))
    (OnlyIn.comp (.ite (.refl _ _) (stat ..)) (.ite (stat ..) (.refl _ _)))

@[simp] theorem State.countResponse_outst (s : State) (r : Req) (p : Packet) (last : Bool) :
    (s.countResponse r p last).net.outst = s.net.outst := by
  simp only [State.countResponse, apply_ite (fun s : State => s.net.outst), State.countStat_outst, ite_self]

theorem State.endReq_netOnly (s : State) (u t : Nat) : OnlyIn [.net] s (s.endReq u t) := onlyIn_iff.mpr (by simp)

/-- The request that a response ends is gone from the list, and its response is counted. -/
def State.mrEnded (s : State) (p : Packet) (r : Req) : State := ((s.take p).countResponse r p true).endReq r.unit r.tag

theorem State.mrEnded_netOnly (s : State) (p : Packet) (r : Req) : OnlyIn [.net] s (s.mrEnded p r) :=
  ((s.take_onlyIn p).comp ((s.take p).countResponse_netOnly r p true)).comp (State.endReq_netOnly ..)

@[simp] theorem State.mrEnded_outst (s : State) (p : Packet) (r : Req) :
    (s.mrEnded p r).net.outst = s.net.outst.filter (fun x => !(x.unit == r.unit && x.tag == r.tag)) := by
  rw [State.mrEnded, State.endReq, State.countResponse_outst]
  rfl

section MrEnded
variable (s : State) (p : Packet) (r : Req)
@[simp] theorem State.mrEnded_pool : (s.mrEnded p r).pool = s.pool := (s.mrEnded_netOnly p r).agree .pool (by decide)
@[simp] theorem State.mrEnded_boot : (s.mrEnded p r).boot = s.boot := (s.mrEnded_netOnly p r).agree .boot (by decide)
@[simp] theorem State.mrEnded_trust : (s.mrEnded p r).trust = s.trust := (s.mrEnded_netOnly p r).agree .trust (by decide)
@[simp] theorem State.mrEnded_flt : (s.mrEnded p r).flt = s.flt := (s.mrEnded_netOnly p r).agree .flt (by decide)
@[simp] theorem State.mrEnded_gate (g : Nat) : (s.mrEnded p r).gate g = s.gate g := by rw [State.gate, State.gate, State.mrEnded_pool]
end MrEnded

/-- With one request less there is still room (R135). -/
theorem State.mqRoom_of_fewer {s t : State} {q : Req → Bool} {g u : Nat} (fewer : t.net.outst = s.net.outst.filter q)
    (room : s.mqRoom g u = true) : t.mqRoom g u = true := by
  simp only [State.mqRoom, decide_eq_true_eq, fewer, List.filter_filter] at room ⊢
  refine Nat.lt_of_le_of_lt (List.Sublist.length_le ?_) room
  exact List.monotone_filter_right _ (fun x h => by simp only [Bool.and_eq_true] at h ⊢; exact h.1)

theorem State.pumpNodes_none {s : State} {g : Nat} (empty : (s.gate g).mqWait = []) : s.pumpNodes g = s := by
  simp [State.pumpNodes, empty]

/-- A metadata request that no other waits before, with room at its target, is sent. -/
theorem State.nodeRequest_sent {s : State} {g : Nat} {p : Packet} (c : ReqCtx) (room : s.mqRoom g p.dest = true)
    (empty : (s.gate g).mqWait = []) : s.nodeRequest g c p = s.request c p none := by
  simp [State.nodeRequest, room, empty]

section Exec
variable {s : State} {p : Packet} {r : Req} {g blk : Nat}

theorem exec_mrD_meta {level : Nat} (h : s.AnswersReq .mrD p r) (ctx : r.ctx = .gateMeta g blk level) (clean : p.ep = false)
    (ok : p.status = 0) :
    exec (.mrD p) s = .next (((s.mrEnded p r).pumpNodes g).walkStep g blk level (p.data.headD 0)) := by
  refine congrArg Host.Outcome.next ((State.arrive_answers h _).trans ?_)
  simp only [ctx, clean, ok, bne_self_eq_false, Bool.or_self, Bool.false_eq_true, if_false]
  rfl

theorem exec_mrD_metaFailed {level : Nat} (h : s.AnswersReq .mrD p r) (ctx : r.ctx = .gateMeta g blk level) (bad : p.status ≠ 0) :
    exec (.mrD p) s = .next ((((s.mrEnded p r).pumpNodes g).failWalk g blk level).unpark g) := by
  refine congrArg Host.Outcome.next ((State.arrive_answers h _).trans ?_)
  simp only [ctx, bne_iff_ne.mpr bad, Bool.true_or, if_true]
  rfl

theorem exec_mrD_own {l : Nat} (h : s.AnswersReq .mrD p r) (ctx : r.ctx = .gateOwn g l) (clean : p.ep = false) (ok : p.status = 0) :
    exec (.mrD p) s = .next (((s.mrEnded p r).pumpNodes g).takeOwn g l (p.data.headD 0)) := by
  refine congrArg Host.Outcome.next ((State.arrive_answers h _).trans ?_)
  simp only [ctx, clean, ok, bne_self_eq_false, Bool.or_self, Bool.false_eq_true, if_false]
  rfl

theorem exec_mrD_tier (h : s.AnswersReq .mrD p r) (ctx : r.ctx = .gateTier g blk) :
    exec (.mrD p) s = .next ((s.take p).countResponse r p false) := by
  refine congrArg Host.Outcome.next ((State.arrive_answers h _).trans ?_)
  simp only [ctx]

theorem exec_mrAck_tier (h : s.AnswersReq .mrAck p r) (ctx : r.ctx = .gateTier g blk) :
    exec (.mrAck p) s = .next (((s.mrEnded p r).modWalk g blk (fun w => { w with tier := false })).drainBlock g blk true) := by
  refine congrArg Host.Outcome.next ((State.arrive_answers h _).trans ?_)
  simp only [ctx]
  rfl

theorem exec_mrAck_evict (h : s.AnswersReq .mrAck p r) (ctx : r.ctx = .gateEvict g blk) :
    exec (.mrAck p) s = .next (((s.mrEnded p r).pumpNodes g).sendMac g blk) := by
  refine congrArg Host.Outcome.next ((State.arrive_answers h _).trans ?_)
  simp only [ctx]
  rfl

theorem exec_mrAck_own {l : Nat} (h : s.AnswersReq .mrAck p r) (ctx : r.ctx = .gateOwn g l) :
    exec (.mrAck p) s = .next (((s.mrEnded p r).pumpNodes g).loseOwn g l) := by
  refine congrArg Host.Outcome.next ((State.arrive_answers h _).trans ?_)
  simp only [ctx]
  rfl

theorem exec_mrAck_fill {line : Nat} (h : s.AnswersReq .mrAck p r) (ctx : r.ctx = .gateFill g line) :
    exec (.mrAck p) s = .next (s.mrEnded p r) := by
  refine congrArg Host.Outcome.next ((State.arrive_answers h _).trans ?_)
  simp only [ctx]
  rfl

/-- The MAC of a counter block is at its parent: a copy that has not changed since leaves the counter cache (R134). -/
theorem exec_mrAck_mac (h : s.AnswersReq .mrAck p r) (ctx : r.ctx = .gateMac g blk) (ok : p.status = 0)
    (clean : ((s.gate g).ccache.get ({}, false) blk).2 = false) (empty : (s.gate g).mqWait = []) :
    exec (.mrAck p) s = .next ((s.mrEnded p r).modGate g (fun x => { x with ccache := x.ccache.del blk })) := by
  have idle := State.pumpNodes_none (s := s.mrEnded p r) (g := g) (by simpa using empty)
  unfold State.mrEnded at idle
  have clean : (((s.mrEnded p r).gate g).ccache.get ({}, false) blk).2 = false := by simpa using clean
  unfold State.mrEnded at clean
  refine congrArg Host.Outcome.next ((State.arrive_answers h _).trans ?_)
  simp only [ctx, idle, ok, clean, bne_self_eq_false, Bool.false_eq_true, if_false]
  rfl

end Exec

/-! ### A path goes on, a block is poisoned, a MAC is sent (R133, R134, R163) -/

/-- What is made of the first walk of a block. -/
theorem State.walkOf_modWalk {s : State} {g blk : Nat} {w : Walk} (f : Walk → Walk) (keeps : ∀ w, (f w).block = w.block)
    (walk : s.walkOf g blk = some w) : (s.modWalk g blk f).walkOf g blk = some (f w) := by
  have block : w.block = blk := by simpa using List.find?_some walk
  have same (w : Walk) : ((if w.block == blk then f w else w).block == blk) = (w.block == blk) := by
    split <;> simp [keeps]
  have pred : (fun w => w.block == blk) ∘ (fun w => if w.block == blk then f w else w) = fun w : Walk => w.block == blk := funext same
  rw [State.walkOf, State.modWalk, State.modGate_same, List.find?_map, pred]
  rw [State.walkOf] at walk
  simp [walk, block]

@[simp] theorem State.modWalk_net (s : State) (g blk : Nat) (f : Walk → Walk) : (s.modWalk g blk f).net = s.net := rfl

theorem State.modWalk_gate (s : State) (g blk : Nat) (f : Walk → Walk) :
    (s.modWalk g blk f).gate g = { s.gate g with walks := (s.gate g).walks.map (fun w => if w.block == blk then f w else w) } :=
  State.modGate_same ..

@[simp] theorem State.parentAt_modWalk (s : State) (g blk : Nat) (f : Walk → Walk) (b : Bool) (l i : Nat) :
    (s.modWalk g blk f).parentAt b l i = s.parentAt b l i := rfl

theorem State.parentAt_mrEnded (s : State) (p : Packet) (r : Req) (b : Bool) (l i : Nat) :
    (s.mrEnded p r).parentAt b l i = s.parentAt b l i := by
  simp only [State.parentAt, State.treeTop_congr (State.mrEnded_boot s p r), State.keyAddr_congr (State.mrEnded_boot s p r)]

theorem State.leafOf_mrEnded (s : State) (p : Packet) (r : Req) (blk : Nat) : (s.mrEnded p r).leafOf blk = s.leafOf blk := by
  have base (s : State) : s.leafOf blk = ({ boot := s.boot } : State).leafOf blk := rfl
  rw [base, base s, State.mrEnded_boot]

theorem Tbl.mem_of_mem_set {α : Type} {t : Tbl α} {k : Nat} {v : α} {e : Nat × α} (h : e ∈ Tbl.set t k v) : e = (k, v) ∨ e ∈ t := by
  induction t with
  | nil => exact .inl (by simpa [Tbl.set] using h)
  | cons x r ih =>
    simp only [Tbl.set] at h
    split at h
    · simpa using h
    · split at h
      · rcases List.mem_cons.mp h with rfl | h
        · exact .inl rfl
        · exact .inr (List.mem_cons_of_mem _ h)
      · rcases List.mem_cons.mp h with rfl | h
        · exact .inr List.mem_cons_self
        · exact (ih h).imp id (List.mem_cons_of_mem _)

theorem Tbl.get_default_or_mem {α : Type} (d : α) (t : Tbl α) (k : Nat) : Tbl.get d t k = d ∨ (k, Tbl.get d t k) ∈ t := by
  induction t with
  | nil => exact .inl rfl
  | cons x r ih =>
    simp only [Tbl.get]
    split
    next same => exact .inr (same ▸ List.mem_cons_self)
    next => exact ih.imp id (List.mem_cons_of_mem _)

/-- A change that leaves a gate's poison records leaves a clean block clean. -/
theorem State.poisoned_modGate {s : State} {g blk : Nat} (m : Gate → Gate) (keeps : ∀ x, (m x).poison = x.poison)
    (keepsPages : ∀ x, (m x).poisonPages = x.poisonPages) (clean : s.poisoned g blk = false) : (s.modGate g m).poisoned g blk = false := by
  simp only [State.poisoned, Bool.or_eq_false_iff, List.any_eq_false, State.modGate_same, keeps] at clean ⊢
  refine ⟨clean.1, fun e he => ?_⟩
  rcases Tbl.mem_of_mem_set he with rfl | old
  · rw [keepsPages]
    rcases Tbl.get_default_or_mem ({} : Gate) s.pool.gates g with fresh | mem
    · rw [fresh]
      exact Bool.false_ne_true
    · exact clean.2 _ mem
  · exact clean.2 e old

theorem State.poisoned_congr {s t : State} (pool : t.pool = s.pool) (g blk : Nat) : t.poisoned g blk = s.poisoned g blk := by
  simp only [State.poisoned, State.gate, pool]

theorem State.poisoned_modWalk {s : State} {g blk : Nat} (b : Nat) (f : Walk → Walk) (clean : s.poisoned g blk = false) :
    (s.modWalk g b f).poisoned g blk = false := State.poisoned_modGate _ (fun _ => rfl) (fun _ => rfl) clean

section Fetch
variable {s : State} {g blk u a : Nat}

/-- The parent of a counter block is asked for where its unit is not fenced and has room (R133, R135). -/
theorem State.fetchNode_parent (parent : s.parentAt false 0 (s.leafOf blk) = (u, a)) (free : s.fenced u = false)
    (empty : (s.gate g).mqWait = []) (room : s.mqRoom g u = true) :
    s.fetchNode g blk 1 = (s.modWalk g blk (fun w => { w with fetch := true, level := 1 })).request (.gateMeta g blk 1)
      (mqPacket .mqRd g u a []) none := by
  have idle : ((s.modWalk g blk (fun w => { w with fetch := true, level := 1 })).gate g).mqWait = [] := by
    rw [State.modWalk_gate]
    exact empty
  simp only [State.fetchNode, Nat.one_ne_zero, beq_iff_eq, if_false, Nat.sub_self, Nat.pow_zero, Nat.div_one, parent, free,
    Bool.false_eq_true]
  exact State.nodeRequest_sent _ room idle

/-- A walk whose first line has arrived: its path begins with that line, and its parent is asked for. -/
def State.pathBegun (s : State) (g blk : Nat) (d : Line) : State :=
  (s.modWalk g blk (fun w => { w with path := w.path ++ [d], level := 0, fetch := false })).modWalk g blk
    (fun w => { w with fetch := true, level := 1 })

/-- The counter block itself, unless it is a top node, is followed by its parent (R133). -/
theorem State.walkStep_first {w : Walk} (d : Line) (walk : s.walkOf g blk = some w) (below : s.treeTop false ≠ 0)
    (parent : s.parentAt false 0 (s.leafOf blk) = (u, a)) (free : s.fenced u = false) (clean : s.poisoned g blk = false)
    (empty : (s.gate g).mqWait = []) (room : s.mqRoom g u = true) :
    s.walkStep g blk 0 d = (s.pathBegun g blk d).request (.gateMeta g blk 1) (mqPacket .mqRd g u a []) none := by
  have fetched := State.fetchNode_parent (s := s.modWalk g blk (fun w => { w with path := w.path ++ [d], level := 0, fetch := false }))
    (g := g) (blk := blk) parent free (by rw [State.modWalk_gate]; exact empty) room
  have stays : ((s.pathBegun g blk d).request (.gateMeta g blk 1) (mqPacket .mqRd g u a []) none).poisoned g blk = false := by
    rw [State.poisoned_congr (State.request_gpool ..)]
    exact State.poisoned_modWalk _ _ (State.poisoned_modWalk _ _ clean)
  have top : (0 == s.treeTop false) = false := by simpa using Ne.symm below
  simp only [State.walkStep, walk, beq_self_eq_true, Bool.true_or, Bool.not_true, Bool.false_eq_true, if_false, top, bne_self_eq_false,
    Bool.false_and, Bool.or_self, Nat.zero_add]
  rw [fetched]
  exact if_neg (by rw [Bool.not_eq_true]; exact stays)

theorem State.pathBegun_walk {w : Walk} (d : Line) (walk : s.walkOf g blk = some w) :
    (s.pathBegun g blk d).walkOf g blk = some { w with path := w.path ++ [d], fetch := true, level := 1 } := by
  have first := State.walkOf_modWalk (fun w => { w with path := w.path ++ [d], level := 0, fetch := false }) (fun _ => rfl) walk
  exact State.walkOf_modWalk (fun w => { w with fetch := true, level := 1 }) (fun _ => rfl) first

theorem State.pathBegun_ccache (d : Line) : ((s.pathBegun g blk d).gate g).ccache = (s.gate g).ccache := by
  rw [State.pathBegun, State.modWalk_gate, State.modWalk_gate]

/-- Once a counter block's content is written its MAC is sent to its parent, where that has room (R134, R135). -/
theorem State.sendMac_sent (parent : s.parentAt false 0 (s.leafOf blk) = (u, a)) (empty : (s.gate g).mqWait = [])
    (room : s.mqRoom g u = true) :
    s.sendMac g blk = s.request (.gateMac g blk) (mqPacket .mqMac g u (a + 8 * (s.leafOf blk % 8))
      [putMac 0 (s.leafOf blk % 8) (s.nodeMac 0 (s.leafOf blk) (packCtr ((s.gate g).ccache.get ({}, false) blk).1))]) none := by
  simp only [State.sendMac, parent]
  exact State.nodeRequest_sent _ room empty

end Fetch

/-! ### A gate with nothing under way -/

section Idle
variable {s : State} {g blk : Nat}

theorem State.unpark_idle (walks : (s.gate g).walks = []) (parked : (s.gate g).parked = []) (empty : (s.gate g).mqWait = []) :
    s.unpark g = s.modGate g (fun x => { x with parked := [] }) := by
  simp [State.unpark, State.pumpNodes_none empty, State.retryWalks, walks, parked]

/-- The block of an idle gate is poisoned at a level: only the record, and the end of a second fetch of its counter block (R163). -/
theorem State.poison_idle (level : Nat) (wcb : (s.gate g).wcb = []) (room : (s.gate g).poison.length < 256) :
    ((s.poison g blk level).gate g).poison = (s.gate g).poison.set blk level ∧
      ((s.poison g blk level).gate g).ccache = (s.gate g).ccache ∧
      ((s.poison g blk level).gate g).walks.length = (s.gate g).walks.length ∧
      ((s.poison g blk level).gate g).parked = (s.gate g).parked ∧
      ((s.poison g blk level).gate g).mqWait = (s.gate g).mqWait ∧
      OnlyIn [.pool, .net, .flt] s (s.poison g blk level) := by
  have refetch (u : State) (hit : CopyOf → Bool) (c : Nat) : OnlyIn [.net, .flt] u (u.refetched hit c) := by
    unfold State.refetched
    dsimp only
    exact OnlyIn.comp (onlyIn_iff.mpr (by simp)) (foldl_onlyIn _ (fun s _ => (s.report_onlyIn _).mono (by simp)) _ _)
  have gate (u : State) (hit : CopyOf → Bool) (c : Nat) : (u.refetched hit c).gate g = u.gate g := by
    have pool : (u.refetched hit c).pool = u.pool := (refetch u hit c).agree .pool (by decide)
    rw [State.gate, State.gate, pool]
  have notFull : decide (256 ≤ (s.gate g).poison.length) = false := by simpa using room
  simp only [State.poison, notFull, wcb, Bool.false_eq_true, if_false, List.filter_nil, List.map_nil, List.foldl_nil, gate,
    State.modGate_same, List.length_map, true_and]
  exact (State.modGate_memOnly ..).mono (by simp) |>.comp ((refetch ..).mono (by simp))

theorem State.failWalk_idle (level : Nat) (walks : (s.gate g).walks = []) (wcb : (s.gate g).wcb = [])
    (room : (s.gate g).poison.length < 256) :
    s.failWalk g blk level = (s.poison g blk level).modWalk g blk (fun w => { w with fetch := false, tier := false, path := [] }) := by
  have away (u : State) (h : (u.gate g).walks = []) : u.walkOf g blk = none := by rw [State.walkOf, h]; rfl
  obtain ⟨-, -, len, -⟩ := State.poison_idle (s := s) (blk := blk) level wcb room
  have empty : ((s.poison g blk level).gate g).walks = [] := by simpa [walks] using len
  have idle : ((s.poison g blk level).modWalk g blk (fun w => { w with fetch := false, tier := false, path := [] })).walkOf g blk = none :=
    away _ (by rw [State.modWalk_gate, empty]; rfl)
  simp only [State.failWalk, away s walks, Option.map_none, Option.getD_none, Nat.zero_add, State.drainWalk, idle]

end Idle

/-- Settles O29: the request that a response answers ends, and its gate goes on with the line, the failure or the mask. -/
theorem metadataResponsesComplete : Obligations.MetadataResponsesComplete := by
  unfold Obligations.MetadataResponsesComplete
  intro s p r g blk
  have ended : OnlyIn [.pool, .net] s (s.mrEnded p r) := (s.mrEnded_netOnly p r).mono (by simp)
  refine ⟨?_, ?_, ?_, ?_, fun level => exec_mrD_meta, fun l => exec_mrD_own, exec_mrD_tier, exec_mrAck_tier, exec_mrAck_evict,
    fun l => exec_mrAck_own, fun line => exec_mrAck_fill⟩
  · intro u a w answers ctx ok clean walk path _ below parent free pure empty room
    have empty' : ((s.mrEnded p r).gate g).mqWait = [] := by simpa using empty
    have walk' : (s.mrEnded p r).walkOf g blk = some w := by rw [State.walkOf, State.mrEnded_gate]; exact walk
    have first := State.walkStep_first (p.data.headD 0) walk' (by rw [State.treeTop_congr (State.mrEnded_boot s p r)]; exact below)
      (by rw [State.parentAt_mrEnded, State.leafOf_mrEnded]; exact parent)
      (by rw [State.fenced, State.unitFlt, State.mrEnded_flt]; exact free)
      (by rw [State.poisoned_congr (State.mrEnded_pool s p r)]; exact pure) empty' (State.mqRoom_of_fewer (State.mrEnded_outst s p r) room)
    refine ⟨_, (exec_mrD_meta answers ctx clean ok).trans (by rw [State.pumpNodes_none empty', first]), ?_, ?_, ?_, ?_⟩
    · rw [State.walkOf, State.request_gate, ← State.walkOf, State.pathBegun_walk _ walk']
      simp [path]
    · rw [State.request_outst]
      exact ⟨_, List.mem_append_right _ List.mem_cons_self, rfl, rfl, rfl, rfl⟩
    · rw [State.request_gate, State.pathBegun_ccache, State.mrEnded_gate]
    · exact (ended.comp ((State.modWalk_memOnly ..).comp (State.modWalk_memOnly ..))).comp (State.request_memOnly ..)
  · intro answers ctx bad _ walks parked wcb room empty
    have walks : ((s.mrEnded p r).gate g).walks = [] := by simpa using walks
    have wcb : ((s.mrEnded p r).gate g).wcb = [] := by simpa using wcb
    have room : ((s.mrEnded p r).gate g).poison.length < 256 := by simpa using room
    have empty : ((s.mrEnded p r).gate g).mqWait = [] := by simpa using empty
    obtain ⟨poison, ccache, len, parks, waits, only⟩ := State.poison_idle (blk := blk) 0 wcb room
    have none : (((s.mrEnded p r).poison g blk 0).gate g).walks = [] :=
      List.eq_nil_of_length_eq_zero (len.trans (by rw [walks]; rfl))
    refine ⟨_, (exec_mrD_metaFailed answers ctx bad).trans (by
      rw [State.pumpNodes_none empty, State.failWalk_idle 0 walks wcb room, State.unpark_idle]
      · rw [State.modWalk_gate, none]; rfl
      · rw [State.modWalk_gate, parks]; simpa using parked
      · rw [State.modWalk_gate, waits]; exact empty), ?_, ?_, ?_⟩
    · rw [State.modGate_same, State.modWalk_gate, poison, State.mrEnded_gate]
    · rw [State.modGate_same, State.modWalk_gate, ccache, State.mrEnded_gate]
    · exact (ended.mono (by simp)).comp (only.comp (((State.modWalk_memOnly ..).comp (State.modGate_memOnly ..)).mono (by simp)))
  · intro answers ctx ok clean empty
    refine ⟨_, exec_mrAck_mac answers ctx ok clean empty, by simp, fun j hj => ?_, by simp, ended.comp (State.modGate_memOnly ..)⟩
    rw [State.modGate_ne _ _ _ hj, State.mrEnded_gate]
  · intro u a answers ctx _ parent empty room
    have empty' : ((s.mrEnded p r).gate g).mqWait = [] := by simpa using empty
    have sent := State.sendMac_sent (g := g) (by rw [State.parentAt_mrEnded, State.leafOf_mrEnded]; exact parent) empty'
      (State.mqRoom_of_fewer (State.mrEnded_outst s p r) room)
    refine ⟨_, (exec_mrAck_evict answers ctx).trans (by rw [State.pumpNodes_none empty', sent]), ?_,
      (s.mrEnded_netOnly p r).comp (onlyIn_iff.mpr (by simp))⟩
    rw [State.request_outst, State.leafOf_mrEnded, State.mrEnded_gate, State.nodeMac_congr (State.mrEnded_trust s p r)]
    exact ⟨_, List.mem_append_right _ List.mem_cons_self, rfl, rfl, rfl, rfl, rfl⟩

end Sys2Proof.Machine
end

