-- ==== Sys2Proof/Proofs/GateTimers.lean ====
section
/-! PROOFS. Locks, residency and re-encryption at a gate (R124, R138-R143, R260). -/

namespace Sys2Proof.Machine

/-! ### What sealing leaves of a gate's accesses

Sealing a line and keeping counters and MACs touch the schedulers, the caches and the failure record of a gate: its write-combining
buffer, its walks, what is parked and its re-encryptions stay. -/

/-- What a gate holds of accesses under way. -/
def Gate.access (x : Gate) : List WcbLine × List Walk × List Packet × List Reenc × Nat := (x.wcb, x.walks, x.parked, x.reencs, x.reencCount)

structure State.SameAccess (s t : State) : Prop where
  access : ∀ j, (t.gate j).access = (s.gate j).access

theorem State.SameAccess.refl (s : State) : s.SameAccess s := ⟨fun _ => rfl⟩

theorem State.SameAccess.comp {s t u : State} (h : s.SameAccess t) (k : t.SameAccess u) : s.SameAccess u :=
  ⟨fun j => (k.access j).trans (h.access j)⟩

theorem State.SameAccess.ite {s a b : State} {c : Prop} [Decidable c] (ha : s.SameAccess a) (hb : s.SameAccess b) :
    s.SameAccess (if c then a else b) := by
  split
  · exact ha
  · exact hb

theorem State.SameAccess.of_gates {s t : State} (h : t.pool.gates = s.pool.gates) : s.SameAccess t :=
  ⟨fun j => by rw [State.gate, State.gate, h]⟩

theorem State.SameAccess.setPool (s : State) (p : Pool) (h : p.gates = s.pool.gates) : s.SameAccess { s with pool := p } := .of_gates h

theorem State.SameAccess.foldl {α : Type} (f : State → α → State) (h : ∀ (s : State) x, s.SameAccess (f s x)) (l : List α) (s : State) :
    s.SameAccess (l.foldl f s) := by
  induction l generalizing s with
  | nil => exact .refl s
  | cons x l ih => exact (h s x).comp (ih _)

theorem State.modGate_sameAccess (s : State) (g : Nat) (m : Gate → Gate) (h : ∀ x, (m x).access = x.access) :
    s.SameAccess (s.modGate g m) := by
  refine ⟨fun j => ?_⟩
  by_cases same : j = g
  · rw [same, State.modGate_same, h]
  · rw [State.modGate_ne _ _ _ same]

section Steps
variable (s : State)

theorem State.request_sameAccess (c : ReqCtx) (p : Packet) (n : Option Nat) : s.SameAccess (s.request c p n) := .of_gates (by simp)
theorem State.report_sameAccess (r : FaultReport) : s.SameAccess (s.report r) := .of_gates (by simp)
theorem State.slotWant_sameAccess (ch a : Nat) : s.SameAccess (s.slotWant ch a) := s.modGate_sameAccess _ _ (by intro; rfl)

theorem State.ddrPut_sameAccess (ch a : Nat) (l : Line) : s.SameAccess (s.ddrPut ch a l) := by
  unfold State.ddrPut
  dsimp only
  exact (s.slotWant_sameAccess ch _).comp (.setPool _ _ rfl)

theorem State.macOut_sameAccess (g a : Nat) : s.SameAccess (s.macOut g a) := by
  have out : s.SameAccess (s.modGate g (fun x => { x with macs := x.macs.del a })) := s.modGate_sameAccess _ _ (by intro; rfl)
  exact .ite (out.comp (State.ddrPut_sameAccess ..)) out

theorem State.macPut_sameAccess (g a : Nat) (l : Line) (d : Bool) : s.SameAccess (s.macPut g a l d) := by
  unfold State.macPut
  dsimp only
  split
  · exact (s.macOut_sameAccess ..).comp (State.modGate_sameAccess _ _ _ (by intro; rfl))
  · exact s.modGate_sameAccess _ _ (by intro; rfl)

theorem State.ddrStoreWith_sameAccess (now : Bool) (l : Nat) (c : Line) (m : BitVec 64) : s.SameAccess (s.ddrStoreWith now l c m) := by
  unfold State.ddrStoreWith
  dsimp only
  have put (g a a' : Nat) (ml : Line) : s.SameAccess (if (s.gate g).retired = true then s
      else if now = true then (s.ddrPut g a c).ddrPut g a' ml else s.ddrPut g a c) :=
    .ite (.refl s) (.ite ((s.ddrPut_sameAccess ..).comp (State.ddrPut_sameAccess ..)) (s.ddrPut_sameAccess ..))
  exact .ite (((put ..).comp (State.macPut_sameAccess ..)).comp (State.request_sameAccess ..)) ((put ..).comp (State.macPut_sameAccess ..))

theorem State.tierRef_sameAccess (l : Nat) : s.SameAccess (s.tierRef l) := by
  unfold State.tierRef
  split
  · exact .of_gates rfl
  · exact .refl s

theorem State.readSlotsOf_sameAccess (ch l : Nat) : s.SameAccess (s.readSlotsOf ch l) :=
  .ite (s.slotWant_sameAccess ..) ((s.slotWant_sameAccess ..).comp (State.slotWant_sameAccess ..))

theorem State.keepMac_sameAccess (g ch l : Nat) : s.SameAccess (s.keepMac g ch l) := .ite (.refl s) (s.macPut_sameAccess ..)

theorem State.openDdr_sameAccess (g l slot : Nat) (ctr : Ctr) : s.SameAccess (s.openDdr g l slot ctr).2 := by
  unfold State.openDdr
  split
  · exact .refl s
  · exact .ite ((s.readSlotsOf_sameAccess ..).comp (State.keepMac_sameAccess ..)) (s.readSlotsOf_sameAccess ..)
  · dsimp only
    split
    · exact (s.readSlotsOf_sameAccess ..).comp (State.keepMac_sameAccess ..)
    · split
      · exact (((((s.readSlotsOf_sameAccess ..).comp (State.readSlotsOf_sameAccess ..)).comp (State.ddrPut_sameAccess ..)).comp
          (State.ddrPut_sameAccess ..)).comp (State.keepMac_sameAccess ..)).comp (State.report_sameAccess ..)
      · exact (s.readSlotsOf_sameAccess ..).comp (State.readSlotsOf_sameAccess ..)

theorem State.openLine_sameAccess (g l slot : Nat) (ctr : Ctr) : s.SameAccess (s.openLine g l slot ctr).2 := by
  unfold State.openLine
  split
  · exact .refl s
  · split
    · exact .refl s
    · split
      · split
        · exact .refl s
        · split
          · exact .refl s
          · exact s.tierRef_sameAccess _
      · exact s.openDdr_sameAccess ..

theorem State.nodeRequest_sameAccess (g : Nat) (c : ReqCtx) (p : Packet) : s.SameAccess (s.nodeRequest g c p) :=
  .ite (s.request_sameAccess ..) (s.modGate_sameAccess _ _ (by intro; rfl))

theorem State.pumpNodes_sameAccess (g : Nat) : s.SameAccess (s.pumpNodes g) := by
  unfold State.pumpNodes
  split
  · exact (s.modGate_sameAccess _ _ (by intro; rfl)).comp (State.request_sameAccess ..)
  · exact .refl s

theorem State.evictCtr_sameAccess (g b : Nat) : s.SameAccess (s.evictCtr g b) :=
  .ite ((s.modGate_sameAccess _ _ (by intro; rfl)).comp (State.nodeRequest_sameAccess ..)) (s.modGate_sameAccess _ _ (by intro; rfl))

theorem State.ccPut_sameAccess (g b : Nat) (c : Ctr) (d : Bool) : s.SameAccess (s.ccPut g b c d) := by
  unfold State.ccPut
  dsimp only
  split
  · exact (s.evictCtr_sameAccess ..).comp (State.modGate_sameAccess _ _ _ (by intro; rfl))
  · exact s.modGate_sameAccess _ _ (by intro; rfl)

theorem State.sealStaged_sameAccess (g l slot gen mj : Nat) (d : Line) : s.SameAccess (s.sealStaged g l slot gen mj d) := by
  have sent (t : State) (c : Line) (m : BitVec 64) : t.SameAccess (t.sendSealed g l slot c m true) :=
    .ite (.ite (t.ddrStoreWith_sameAccess ..) (.refl t)) (t.request_sameAccess ..)
  exact .ite (sent ..) (s.ddrStoreWith_sameAccess ..)

theorem State.poisonLine_sameAccess (g l : Nat) : s.SameAccess (s.poisonLine g l) :=
  (State.SameAccess.of_gates rfl : s.SameAccess (s.tierDrop l)).comp
    (.foldl (fun s ch => s.ddrPoison ch (s.lineAddr l)) (fun _ _ => .of_gates rfl) _ _)

theorem State.recordFail_sameAccess (g l slot c : Nat) : s.SameAccess (s.recordFail g l slot c) := by
  have noted : s.SameAccess (s.modGate g (fun x =>
      if x.failValid then { x with failCount := satAdd 65535 x.failCount 1 }
      else { x with failValid := true, failCount := 0, failCode := c, failSlot := slot, failLine := l })) :=
    s.modGate_sameAccess _ _ fun x => by
      split <;> rfl
  unfold State.recordFail
  dsimp only
  split
  · exact noted.comp (.of_gates (by simp))
  · exact noted.comp (.of_gates (by simp))

end Steps

theorem Issues.of_net {s t u : State} {c : ReqCtx} {p : Packet → Prop} (h : Issues s t c p) (net : u.net = t.net) : Issues s u c p := by
  simpa [Issues, net] using h

/-! ### A block is sealed under its next major value (R124, R140) -/

/-- One line of a block is sealed again, from the write-combining buffer where it is there. -/
def State.resealed (s : State) (g blk slot : Nat) (ctr : Ctr) (d : Nat) : State :=
  match s.wcbFind g (64 * blk + d) with
  | some w =>
    (if w.bad then s.poisonLine g (64 * blk + d)
      else s.sealStaged g (64 * blk + d) w.slot ctr.gen (ctr.major + 1) w.data).wcbDrop g (64 * blk + d)
  | none =>
    if (s.openLine g (64 * blk + d) slot ctr).1.2 == 0 then
      (s.openLine g (64 * blk + d) slot ctr).2.sealStaged g (64 * blk + d) slot ctr.gen (ctr.major + 1)
        (s.openLine g (64 * blk + d) slot ctr).1.1
    else ((s.openLine g (64 * blk + d) slot ctr).2.recordFail g (64 * blk + d) slot
      (s.openLine g (64 * blk + d) slot ctr).1.2).poisonLine g (64 * blk + d)

theorem State.reencrypt_eq (s : State) (g blk slot : Nat) (ctr : Ctr) :
    s.reencrypt g blk slot ctr = ((List.range 64).foldl (fun s d => s.resealed g blk slot ctr d)
      (s.ccPut g blk { major := ctr.major + 1, gen := ctr.gen, minors := [] } true)).modGate g
      (fun x => { x with reencs := x.reencs.filter (fun r => r.block != blk), reencCount := (x.reencCount + 1) % 2 ^ 32 }) := rfl

/-- What a gate holds once the lines of a list have left its buffer. -/
def Gate.without (x : Gate) (blk : Nat) (ds : List Nat) : Gate :=
  { x with wcb := x.wcb.filter (fun w => ds.all (fun d => w.line != 64 * blk + d)) }

theorem Gate.without_congr {x y : Gate} (h : x.access = y.access) (blk : Nat) (ds : List Nat) :
    (x.without blk ds).access = (y.without blk ds).access := by
  simp only [Gate.access, Gate.without, Prod.mk.injEq] at h ⊢
  obtain ⟨wcb, walks, parked, reencs, count⟩ := h
  exact ⟨by rw [wcb], walks, parked, reencs, count⟩

theorem State.resealed_access (s : State) (g blk slot : Nat) (ctr : Ctr) (d : Nat) :
    ((s.resealed g blk slot ctr d).gate g).access = ((s.gate g).without blk [d]).access := by
  have single (x : Gate) : x.without blk [d] = { x with wcb := x.wcb.filter (fun w => w.line != 64 * blk + d) } := by
    simp [Gate.without]
  unfold State.resealed
  split
  next w found =>
    have sealed : s.SameAccess (if w.bad then s.poisonLine g (64 * blk + d)
        else s.sealStaged g (64 * blk + d) w.slot ctr.gen (ctr.major + 1) w.data) :=
      .ite (s.poisonLine_sameAccess ..) (s.sealStaged_sameAccess ..)
    rw [← Gate.without_congr (sealed.access g) blk [d], single, State.wcbDrop, State.modGate_same]
  next absent =>
    have opened := s.openLine_sameAccess g (64 * blk + d) slot ctr
    have same : s.SameAccess _ := State.SameAccess.ite (c := (s.openLine g (64 * blk + d) slot ctr).1.2 == 0)
      (opened.comp (State.sealStaged_sameAccess _ g (64 * blk + d) slot ctr.gen (ctr.major + 1) (s.openLine g (64 * blk + d) slot ctr).1.1))
      ((opened.comp (State.recordFail_sameAccess _ g (64 * blk + d) slot (s.openLine g (64 * blk + d) slot ctr).1.2)).comp
        (State.poisonLine_sameAccess _ g (64 * blk + d)))
    have none : (s.gate g).wcb.filter (fun w => w.line != 64 * blk + d) = (s.gate g).wcb := by
      rw [List.filter_eq_self]
      intro w hw
      simpa using (List.find?_eq_none.mp absent) w hw
    rw [same.access g, single, none]

theorem State.resealedAll_access (g blk slot : Nat) (ctr : Ctr) (ds : List Nat) (s : State) :
    ((ds.foldl (fun s d => s.resealed g blk slot ctr d) s).gate g).access = ((s.gate g).without blk ds).access := by
  induction ds generalizing s with
  | nil => simp [Gate.without]
  | cons d ds ih =>
    rw [List.foldl_cons, ih, Gate.without_congr (State.resealed_access ..)]
    simp [Gate.without, Gate.access, List.filter_filter, Bool.and_comm]

/-- The block's lines are gone from the buffer and its staging buffer is free; no other access is touched. -/
theorem State.reencrypt_access (s : State) (g blk slot : Nat) (ctr : Ctr) :
    ((s.reencrypt g blk slot ctr).gate g).access =
      { (s.gate g).without blk (List.range 64) with
        reencs := (s.gate g).reencs.filter (fun r => r.block != blk), reencCount := ((s.gate g).reencCount + 1) % 2 ^ 32 }.access := by
  have put := (s.ccPut_sameAccess g blk { major := ctr.major + 1, gen := ctr.gen, minors := [] } true).access g
  have all := (State.resealedAll_access g blk slot ctr (List.range 64)
    (s.ccPut g blk { major := ctr.major + 1, gen := ctr.gen, minors := [] } true)).trans (Gate.without_congr put blk (List.range 64))
  simp only [Gate.access, Gate.without, Prod.mk.injEq] at all
  obtain ⟨wcb, walks, parked, reencs, count⟩ := all
  rw [State.reencrypt_eq, State.modGate_same]
  simp only [Gate.access, Gate.without, wcb, walks, parked, reencs, count]

/-- With no walk and nothing parked, only a waiting node request may go. -/
theorem State.unpark_access {s : State} {g : Nat} (walks : (s.gate g).walks = []) (parked : (s.gate g).parked = []) :
    ((s.unpark g).gate g).access = (s.gate g).access := by
  have pumped := (s.pumpNodes_sameAccess g).access g
  simp only [Gate.access, Prod.mk.injEq] at pumped
  obtain ⟨wcb, walks', parked', reencs, count⟩ := pumped
  have idle : (s.pumpNodes g).retryWalks g = s.pumpNodes g := by simp [State.retryWalks, walks', walks]
  simp only [State.unpark, idle, parked', parked, List.foldl_nil, State.modGate_same, Gate.access, wcb, walks', reencs, count]

theorem State.modGate_congr {s : State} {g : Nat} {m n : Gate → Gate} (h : m (s.gate g) = n (s.gate g)) : s.modGate g m = s.modGate g n := by
  simp only [State.modGate, Tbl.mod]
  rw [show m (s.pool.gates.get {} g) = n (s.pool.gates.get {} g) from h]

section Exec
variable {s : State} {g : Nat}

theorem exec_lockExpiry {line : Nat} (locked : ∃ k ∈ (s.gate g).locks, k.line = line) :
    exec (.lockExpiry g line) s = .next ((s.modGate g (fun x => { x with locks := x.locks.filter (fun k => k.line != line) })).unpark g) := by
  refine congrArg Host.Outcome.next (if_pos ?_)
  simpa using locked

theorem exec_wcbResidencyExpiry {line : Nat} {w : WcbLine} (found : s.wcbFind g line = some w) (free : w.waiting = false) :
    exec (.wcbResidencyExpiry g line) s = .next ((s.wcbLeave g w).unpark g) := by
  simp only [exec, execWcbResidencyExpiry, found, free, Bool.false_eq_true, if_false]

theorem exec_reencPhaseADone {block : Nat} {r : Reenc} {c : Ctr} {w : WcbLine}
    (staged : (s.gate g).reencs.find? (fun r => r.block == block) = some r) (held : s.ctrHeld g block = some c)
    (found : s.wcbFind g r.line = some w) :
    exec (.reencPhaseADone g block) s = .next ((s.reencrypt g block w.slot c).unpark g) := by
  simp only [exec, execReencPhaseADone, staged, held, found]

theorem exec_reencRaiseClass {block : Nat} {r : Reenc}
    (staged : (s.gate g).reencs.find? (fun r => r.block == block && !r.raised) = some r) :
    exec (.reencRaiseClass g block) s = .next (s.modGate g (fun x =>
      { x with
        reencs := x.reencs.map (fun r => if r.block == block then { r with raised := true, left := 0 } else r)
        fg := x.fg ++ (List.range r.left).map (fun d => ⟨s.lineAddr (64 * block + d), none⟩) })) := by
  simp only [exec, execReencRaiseClass, staged]

theorem exec_stagingBufferFreed {w : WcbLine} {c : Ctr} (room : (s.gate g).reencs.length < 4)
    (oldest : (s.gate g).wcb.find? (fun w => w.waiting && !(s.gate g).reencs.any (fun r => r.block == w.line / 64)) = some w)
    (held : s.ctrHeld g (w.line / 64) = some c) : exec (.stagingBufferFreed g) s = .next ((s.startReenc g w c).unpark g) := by
  simp only [exec, execStagingBufferFreed, Nat.not_le.mpr room, if_false, oldest, held]

/-- A block whose counter block is held takes its new value in its place. -/
theorem State.ccPut_held {blk : Nat} {c0 : Ctr} (c : Ctr) (held : s.ctrHeld g blk = some c0) :
    s.ccPut g blk c true = s.modGate g (fun x => { x with ccache := x.ccache.set blk (c, true) }) := by
  have has : (s.gate g).ccache.has blk = true := by
    unfold State.ctrHeld at held
    split at held
    next h => exact h
    next => exact absurd held nofun
  simp [State.ccPut, has]

theorem State.ctrHeld_of_ccache {t : State} {blk : Nat} {c : Ctr} {d : Bool} {cc : Tbl (Ctr × Bool)}
    (h : (t.gate g).ccache = cc.set blk (c, d)) : t.ctrHeld g blk = some c := by
  simp [State.ctrHeld, h, Tbl.has_set]

/-- A counter block with the minor counter of a line raised (R124). -/
def Ctr.next (c : Ctr) (line : Nat) : Ctr := { c with minors := c.minors.set (line % 64) (c.minors.get 0 (line % 64) + 1) }

/-- A line whose minor counter has a next value is sealed under it and leaves the buffer (R124, R138). -/
theorem State.wcbLeave_sealed {w : WcbLine} {c : Ctr} (good : w.bad = false) (live : (s.gate g).retired = false)
    (held : s.ctrHeld g (w.line / 64) = some c) (gen : c.gen = s.genOf w.line) (next : c.minors.get 0 (w.line % 64) < 127) :
    s.wcbLeave g w =
      ((s.modGate g (fun x => { x with ccache := x.ccache.set (w.line / 64) (c.next w.line, true) })).sealLine g w.line w.slot
        (s.genOf w.line) c.major (c.minors.get 0 (w.line % 64) + 1) w.data).wcbDrop g w.line := by
  rw [← State.ccPut_held (c.next w.line) held]
  simp only [State.wcbLeave, Ctr.next, live, Bool.false_and, Bool.false_eq_true, if_false, held, gen, beq_self_eq_true, if_true,
    next, good]

/-- The packet that takes a sealed line to the tier (R148). -/
def State.fillPacket (s : State) (g line slot gen major minor : Nat) (d : Line) : Packet :=
  { op := .tierFill, vc := 6, dest := stackUnit (g / 4), destKnot := unitKnot (stackUnit (g / 4)), initUnit := gateUnit g,
    initKnot := unitKnot (gateUnit g), addr := 64 * line, len := 64, world := 2, ackReq := true, ctx := slot,
    metaw := lineMac (s.slot slot).key (s.slotGlove slot) gen (s.basketLine line) major minor
      (cipher (s.slot slot).key (s.slotGlove slot) gen (s.basketLine line) major minor d),
    data := [cipher (s.slot slot).key (s.slotGlove slot) gen (s.basketLine line) major minor d] }

/-- A sealed line of a glove with a share of the tier goes there (R148, R151). -/
theorem State.sealLine_tier {line slot gen major minor : Nat} {d : Line} (share : s.tierLimit (g / 4) slot ≠ 0) :
    s.sealLine g line slot gen major minor d =
      s.request (.gateFill g line) (s.fillPacket g line slot gen major minor d) none := by
  simp [State.sealLine, State.sendSealed, share, State.fillPacket]

/-- A residency that ends at an idle gate: the line's next counter is held, its sealed copy is on its way, and it has left the buffer. -/
def State.leftSealed (s : State) (g : Nat) (w : WcbLine) (c : Ctr) : State :=
  ((s.modGate g (fun x => { x with ccache := x.ccache.set (w.line / 64) (c.next w.line, true) })).request (.gateFill g w.line)
    (s.fillPacket g w.line w.slot c.gen c.major (c.minors.get 0 (w.line % 64) + 1) w.data) none).wcbDrop g w.line

theorem State.wcbLeave_tier {w : WcbLine} {c : Ctr} (good : w.bad = false) (live : (s.gate g).retired = false)
    (held : s.ctrHeld g (w.line / 64) = some c) (gen : c.gen = s.genOf w.line) (next : c.minors.get 0 (w.line % 64) < 127)
    (share : s.tierLimit (g / 4) w.slot ≠ 0) : s.wcbLeave g w = s.leftSealed g w c := by
  rw [State.wcbLeave_sealed good live held gen next, State.sealLine_tier (s := s.modGate g _) share, State.leftSealed, gen]
  rfl

theorem State.leftSealed_gate (w : WcbLine) (c : Ctr) : (s.leftSealed g w c).gate g = { s.gate g with
    wcb := (s.gate g).wcb.filter (fun v => v.line != w.line), ccache := (s.gate g).ccache.set (w.line / 64) (c.next w.line, true) } := by
  simp [State.leftSealed, State.wcbDrop]

theorem State.leftSealed_gate_ne (w : WcbLine) (c : Ctr) {j : Nat} (hj : j ≠ g) : (s.leftSealed g w c).gate j = s.gate j := by
  simp [State.leftSealed, State.wcbDrop, State.modGate_ne _ _ _ hj]

theorem State.leftSealed_onlyIn (w : WcbLine) (c : Ctr) : OnlyIn [.pool, .net] s (s.leftSealed g w c) :=
  ((State.modGate_memOnly ..).comp (State.request_memOnly ..)).comp (State.wcbDrop_memOnly ..)

theorem State.leftSealed_issues (w : WcbLine) (c : Ctr) :
    Issues s (s.leftSealed g w c) (.gateFill g w.line) (fun a => a.op = .tierFill ∧ a.dest = stackUnit (g / 4) ∧ a.addr = 64 * w.line ∧
      a.ctx = w.slot ∧ a.data = [cipher (s.slot w.slot).key (s.slotGlove w.slot) c.gen (s.basketLine w.line) c.major
        (c.minors.get 0 (w.line % 64) + 1) w.data]) :=
  ⟨_, State.request_outst .., rfl, rfl, rfl, rfl, rfl, rfl⟩

/-- The only line of a buffer, which waits already, gets the first staging buffer (R143). -/
theorem State.startReenc_first {w : WcbLine} (c : Ctr) (reencs : (s.gate g).reencs = []) (wcb : (s.gate g).wcb = [w])
    (waits : w.waiting = true) :
    s.startReenc g w c = (s.modGate g (fun x => { x with wcb := [w] })).modGate g
      (fun x => { x with reencs := [⟨w.line / 64, w.line, false, 63⟩] }) := by
  have marked : s.modGate g (fun x => { x with wcb := x.wcb.map (fun v => if v.line == w.line then { v with waiting := true } else v) }) =
      s.modGate g (fun x => { x with wcb := [w] }) := by
    refine State.modGate_congr ?_
    rw [wcb]
    obtain ⟨line, data, slot, glove, waiting, bad⟩ := w
    simp at waits
    simp [waits]
  unfold State.startReenc
  dsimp only
  rw [marked]
  simp [reencs]
  refine State.modGate_congr ?_
  simp [reencs]

theorem State.lockExpiry_idle {line : Nat} (parked : (s.gate g).parked = []) (walks : (s.gate g).walks = [])
    (empty : (s.gate g).mqWait = []) :
    ((s.modGate g (fun x => { x with locks := x.locks.filter (fun k => k.line != line) })).unpark g) =
      (s.modGate g (fun x => { x with locks := x.locks.filter (fun k => k.line != line) })).modGate g (fun x => { x with parked := [] }) :=
  State.unpark_idle (by simpa using walks) (by simpa using parked) (by simpa using empty)

end Exec

/-- Settles O30: a timer's command does its work and tries the gate's waiting accesses again, of which there are none in the clauses that
say what the gate then holds. -/
theorem gateTimersAndReencryptionComplete : Obligations.GateTimersAndReencryptionComplete := by
  unfold Obligations.GateTimersAndReencryptionComplete
  intro s g
  refine ⟨fun parked walks empty => ⟨?_, ?_, ?_, ?_⟩, ?_, fun _ => exec_lockExpiry, fun _ _ => exec_wcbResidencyExpiry,
    fun _ _ _ _ => exec_reencPhaseADone, fun _ _ => exec_reencRaiseClass, fun _ _ => exec_stagingBufferFreed⟩
  · intro line locked
    refine ⟨_, (exec_lockExpiry locked).trans (congrArg _ (State.lockExpiry_idle parked walks empty)), ?_, fun j hj => ?_, ?_⟩
    · simp [parked]
    · rw [State.modGate_ne _ _ _ hj, State.modGate_ne _ _ _ hj]
    · exact onlyIn_iff.mpr (by simp)
  · intro line w c found free good live held gen next share
    have line_eq : w.line = line := by simpa using List.find?_some found
    subst line_eq
    have left := State.wcbLeave_tier good live held gen next share
    have gate := s.leftSealed_gate (g := g) w c
    have idle := State.unpark_idle (s := s.leftSealed g w c) (g := g) (by rw [gate]; exact walks) (by rw [gate]; exact parked)
      (by rw [gate]; exact empty)
    rw [exec_wcbResidencyExpiry found free, left, idle]
    refine ⟨_, rfl, ?_, ?_, (s.leftSealed_issues w c).of_net (State.modGate_gnet ..),
      fun j hj => ?_, (s.leftSealed_onlyIn w c).comp (State.modGate_memOnly ..)⟩
    · rw [State.modGate_same, gate]
    · exact State.ctrHeld_of_ccache (d := true) (cc := (s.gate g).ccache) (by simp only [State.modGate_same, gate]; rfl)
    · rw [State.modGate_ne _ _ _ hj, State.leftSealed_gate_ne _ _ hj]
  · intro r w c block reencs same held found
    subst same
    have access := s.reencrypt_access g r.block w.slot c
    simp only [Gate.access, Gate.without, Prod.mk.injEq] at access
    obtain ⟨wcb, walks', parked', staged, count⟩ := access
    have after := State.unpark_access (s := s.reencrypt g r.block w.slot c) (g := g) (walks'.trans walks) (parked'.trans parked)
    simp only [Gate.access, Prod.mk.injEq] at after
    refine ⟨_, exec_reencPhaseADone (by simp [reencs]) held found, ?_, fun x hx => ?_, ?_⟩
    · rw [after.2.2.2.1, staged, reencs]
      simp
    · rw [after.1, wcb] at hx
      have apart := (List.mem_filter.mp hx).2
      rw [List.all_eq_true] at apart
      intro same
      have line := apart (x.line % 64) (List.mem_range.mpr (Nat.mod_lt _ (by decide)))
      simp only [bne_iff_ne] at line
      omega
    · rw [after.2.2.2.2, count]
  · intro w c reencs wcb waits held
    have first := State.startReenc_first c reencs wcb waits
    have idle := State.unpark_idle (s := s.startReenc g w c) (g := g) (by simp [first, walks]) (by simp [first, parked])
      (by simp [first, empty])
    refine ⟨_, (exec_stagingBufferFreed (by simp [reencs]) (by simp [wcb, waits, reencs]) held).trans (congrArg _ idle), ?_, ?_,
      fun j hj => ?_, ?_⟩
    · simp [first]
    · simp [first]
    · rw [first]
      simp only [State.modGate_ne _ _ _ hj]
    · rw [first]
      exact onlyIn_iff.mpr (by simp)
  · intro r block reencs same raised
    subst same
    rw [exec_reencRaiseClass (r := r) (by simp [reencs, raised])]
    refine congrArg Host.Outcome.next (State.modGate_congr ?_)
    simp [reencs]

end Sys2Proof.Machine
end

