-- ==== Sys2Proof/Proofs/DeviceTransfers.lean ====
section
/-! PROOFS. Device-initiated traffic at the Cuff (R90, R310-R313, R325-R327). -/

namespace Sys2Proof.Machine

/-! ### Transmission (R310, R311, R313, R331) -/

section Transmit
variable {s : State} {l : Nat}

theorem exec_cuffTxDequeue_idle (h : s.awake = false ∨ (s.link l).up = false ∨ (s.link l).txq.find? (s.eligible l) = none) :
    exec (.cuffTxDequeue l) s = .next s := by
  simp only [exec, execCuffTxDequeue]
  rcases h with asleep | down | none
  · simp [asleep]
  · simp [down]
  · simp [none]

theorem exec_cuffTxDequeue_write {fn a : Nat} {d : List (Option Byte)} {p : Packet} {last : Bool} (awake : s.awake = true)
    (up : (s.link l).up = true) (first : (s.link l).txq.find? (s.eligible l) = some (.memWr fn a d p last)) :
    exec (.cuffTxDequeue l) s = .next
      (let t := (s.modLink l (fun x => { x with txq := eraseFirst (· == .memWr fn a d p last) x.txq })).emit
          (.memWr l fn a d (s.tlpAttr l (.memWr fn a d p last)))
        if last then t.answer p 0 else t) := by
  simp only [exec, execCuffTxDequeue, awake, up, Bool.not_true, Bool.or_self, Bool.false_eq_true, if_false, first]

theorem exec_cuffTxDequeue_read {fn a n tag : Nat} {p : Packet} (awake : s.awake = true) (up : (s.link l).up = true)
    (first : (s.link l).txq.find? (s.eligible l) = some (.memRd fn a n p)) (free : s.hostTag ⟨l, fn⟩ = some tag) :
    exec (.cuffTxDequeue l) s = .next
      (((s.modLink l (fun x => { x with txq := eraseFirst (· == .memRd fn a n p) x.txq })).modLink l
          (fun x => { x with reqs := x.reqs ++ [⟨fn, tag, a, n, p⟩] })).emit (.memRd l fn a n tag (s.tlpAttr l (.memRd fn a n p)))) := by
  have tag : (s.modLink l (fun x => { x with txq := eraseFirst (· == .memRd fn a n p) x.txq })).hostTag ⟨l, fn⟩ = some tag := by
    rw [← free]
    simp [State.hostTag, State.tagSpace, State.devSlots, State.twoX8]
  simp only [exec, execCuffTxDequeue, awake, up, Bool.not_true, Bool.or_self, Bool.false_eq_true, if_false, first, tag,
    Option.getD_some]

end Transmit

/-! ### Completions (R325-R327) -/

section Completion
variable {s : State} {c : HostCpl}

/-- A completion whose IDE check passes, or that came outside the streams, is taken up. -/
theorem State.ideCheck_passed {l : Nat} {m : Option IdeMark} (ok : ∀ i, m = some i → i.ok = true) (t : TlpHead) (f : State → State) :
    s.ideCheck l m t f = f s := by
  cases m with
  | none => rfl
  | some i => simp [State.ideCheck, ok i rfl]

theorem exec_hostCompletion_ideFailed {i : IdeMark} (awake : s.awake = true) (up : (s.link c.link).up = true) (mark : c.ide = some i)
    (bad : i.ok = false) : exec (.hostCompletion c) s = .next (s.ideFail c.link i.stream (cplHead c)) := by
  simp [exec, execHostCompletion, awake, up, mark, State.ideCheck, bad]

theorem exec_hostCompletion_unexpected (awake : s.awake = true) (up : (s.link c.link).up = true) (ide : ∀ i, c.ide = some i → i.ok = true)
    (none : (s.link c.link).reqs.find? (fun r => r.fn == c.fn && r.tag == c.tag) = none) :
    exec (.hostCompletion c) s = .next ((s.modLink c.link (fun x => { x with unexpected := satAdd 65535 x.unexpected 1 })).aerTlp
      ⟨c.link, 0⟩ .unexpectedCompletion (cplHead c)) := by
  simp [exec, execHostCompletion, awake, up, State.ideCheck_passed ide, none]

variable {r : HostReq} (awake : s.awake = true) (up : (s.link c.link).up = true) (ide : ∀ i, c.ide = some i → i.ok = true)
  (found : (s.link c.link).reqs.find? (fun r => r.fn == c.fn && r.tag == c.tag) = some r)
include awake up ide found

theorem exec_hostCompletion_failed (bad : c.status ≠ .sc) :
    exec (.hostCompletion c) s = .next (s.endDev c.link r.pkt 0x0034) := by
  simp [exec, execHostCompletion, awake, up, State.ideCheck_passed ide, found, bad]

end Completion

/-- A request's entry with a part of its data. -/
def DevReq.part (d : DevReq) (r : HostReq) (c : HostCpl) : DevReq := { d with got := d.got ++ [(r.addr, c.data)], ep := d.ep || c.ep }

/-- A request's entry with the last data of one of its TLPs. -/
def DevReq.last (d : DevReq) (r : HostReq) (c : HostCpl) : DevReq :=
  { d with got := d.got ++ [(r.addr, c.data.take r.len)], left := d.left - 1, ep := d.ep || c.ep }

/-- A link whose request has received a part of its data. -/
def State.partTaken (s : State) (c : HostCpl) (r : HostReq) : State :=
  s.modLink c.link (fun x => { x with
    reqs := x.reqs.map (fun q => if q == r then { r with addr := r.addr + c.data.length, len := r.len - c.data.length } else q)
    devReqs := x.devReqs.map (fun d => if samePkt d.pkt r.pkt then d.part r c else d) })

/-- A link with the last data of one of a request's TLPs. -/
def State.lastTaken (s : State) (c : HostCpl) (r : HostReq) : State :=
  s.modLink c.link (fun x => { x with
    reqs := x.reqs.filter (· != r)
    devReqs := x.devReqs.map (fun d => if samePkt d.pkt r.pkt then d.last r c else d) })

section Data
variable {s : State} {c : HostCpl} {r : HostReq}

theorem exec_hostCompletion_part (awake : s.awake = true) (up : (s.link c.link).up = true) (ide : ∀ i, c.ide = some i → i.ok = true)
    (found : (s.link c.link).reqs.find? (fun r => r.fn == c.fn && r.tag == c.tag) = some r) (sc : c.status = .sc)
    (short : c.data.length < r.len) (more : ∀ d ∈ (s.link c.link).devReqs, samePkt d.pkt r.pkt = true → d.left ≠ 0) :
    exec (.hostCompletion c) s = .next (s.partTaken c r) := by
  have len : min r.len c.data.length = c.data.length := Nat.min_eq_right (Nat.le_of_lt short)
  have unfinished : ¬ r.len ≤ c.data.length := Nat.not_le.mpr short
  simp only [exec, execHostCompletion, awake, up, Bool.not_true, Bool.or_self, Bool.false_eq_true, if_false,
    State.ideCheck_passed ide, found, sc, bne_self_eq_false, len, unfinished, List.take_length]
  refine congrArg Host.Outcome.next ?_
  split
  next d hit =>
    have left : d.left ≠ 0 := by
      rw [State.modLink_same] at hit
      obtain ⟨e, mem, rfl⟩ := List.mem_map.mp (List.mem_of_find?_eq_some hit)
      have same := List.find?_some hit
      by_cases h : samePkt e.pkt r.pkt = true
      · rw [if_pos h]
        exact more e mem h
      · rw [if_neg h] at same
        exact absurd same h
    rw [if_neg (by simpa using left)]
    rfl
  next => rfl

theorem exec_hostCompletion_last {d : DevReq} (awake : s.awake = true) (up : (s.link c.link).up = true)
    (ide : ∀ i, c.ide = some i → i.ok = true) (found : (s.link c.link).reqs.find? (fun r => r.fn == c.fn && r.tag == c.tag) = some r)
    (sc : c.status = .sc) (whole : r.len ≤ c.data.length)
    (entry : ((s.link c.link).devReqs.map (fun d => if samePkt d.pkt r.pkt then d.last r c else d)).find?
      (fun d => samePkt d.pkt r.pkt) = some d) :
    exec (.hostCompletion c) s = .next (if d.left == 0 then (s.lastTaken c r).devDone c.link d else s.lastTaken c r) := by
  have len : min r.len c.data.length = r.len := Nat.min_eq_left whole
  simp only [exec, execHostCompletion, awake, up, Bool.not_true, Bool.or_self, Bool.false_eq_true, if_false,
    State.ideCheck_passed ide, found, sc, bne_self_eq_false, len, Nat.le_refl, if_true]
  refine congrArg Host.Outcome.next ?_
  split
  next e hit =>
    rw [State.modLink_same] at hit
    obtain rfl : e = d := Option.some.inj (hit.symm.trans entry)
    rfl
  next none =>
    rw [State.modLink_same] at none
    exact absurd (none.symm.trans entry) nofun

end Data

/-! ### The end of a request at the Cuff -/

section Late
variable {s : State} {l unit tag : Nat}

theorem exec_hostCplTimeout_none (gone : (s.link l).devReqs.find? (fun d => d.pkt.initUnit == unit && d.pkt.tag == tag) = none) :
    exec (.hostCplTimeout l unit tag) s = .next s := by
  simp only [exec, execHostCplTimeout, gone]

theorem exec_hostCplTimeout_late {d : DevReq}
    (late : (s.link l).devReqs.find? (fun d => d.pkt.initUnit == unit && d.pkt.tag == tag) = some d) :
    exec (.hostCplTimeout l unit tag) s = .next
      (((s.modLink l (fun x => { x with timeouts := min 65535 (x.timeouts + 1) })).aer ⟨l, d.pkt.fn⟩ .completionTimeout).endDev
        l d.pkt 0x0033) := by
  simp only [exec, execHostCplTimeout, late]
  rfl

end Late

section Ends
variable {s : State} {l : Nat}

theorem samePkt_self (p : Packet) : samePkt p p = true := by simp [samePkt]

/-- A link that held one request of the device and nothing else of it. -/
theorem State.forgetDev_only {p : Packet} {x : Link} {rs : List HostReq} {ds : List DevReq} (link : s.link l = x) (reqs : x.reqs = rs)
    (mine : ∀ r ∈ rs, samePkt r.pkt p = true) (devReqs : x.devReqs = ds) (own : ∀ d ∈ ds, samePkt d.pkt p = true)
    (txq : x.txq = []) : (s.forgetDev l p).link l = { x with reqs := [], devReqs := [] } := by
  have noReqs : x.reqs.filter (fun r => !samePkt r.pkt p) = [] := by
    rw [reqs]
    exact List.filter_eq_nil_iff.mpr fun r hr => by simp [mine r hr]
  have noDevs : x.devReqs.filter (fun d => !samePkt d.pkt p) = [] := by
    rw [devReqs]
    exact List.filter_eq_nil_iff.mpr fun d hd => by simp [own d hd]
  have noTlps : x.txq.filter (fun t => t.posted || !samePkt t.pkt p) = x.txq := by
    rw [txq]
    rfl
  rw [State.forgetDev, State.modLink_same, link, noReqs, noDevs, noTlps]

theorem State.forgetDev_link_ne (p : Packet) {j : Nat} (hj : j ≠ l) : (s.forgetDev l p).link j = s.link j := State.modLink_ne _ _ _ hj

theorem State.forgetDev_onlyIn (p : Packet) : OnlyIn [.host] s (s.forgetDev l p) := onlyIn_iff.mpr (by simp [State.forgetDev])

/-- A read that ends with a code: its initiator gets it (R325, R326). -/
theorem State.endDev_read {p : Packet} (read : p.op = .memRd) (code : Nat) :
    s.endDev l p code = (s.forgetDev l p).respond p .cpl code 0 [] false := by
  have cls : p.op.cls = 1 := by rw [read]; rfl
  simp [State.endDev, State.failDev, State.answer, cls]

/-- The line of a one-line read returns on the Weave (R327). -/
theorem State.devDone_line {d : DevReq} {n : Nat} (read : d.pkt.op = .memRd) (line : d.pkt.lines = [n]) :
    ∃ x : Line, s.devDone l d = (s.forgetDev l d.pkt).respond d.pkt .cplD 0 (64 * (d.pkt.addr / 64)) [x] d.ep := by
  have plain : (d.pkt.op == .zlRd) = false := by rw [read]; rfl
  unfold State.devDone
  dsimp only
  have one (x : Line) : (chunks 8 [x]).zipIdx = [([x], 0)] := by
    rw [chunks_one (by simp) (by simp)]
    rfl
  rw [line, plain, if_neg Bool.false_ne_true, List.map_cons, List.map_nil, one]
  exact ⟨_, rfl⟩

end Ends

section OneRead
variable {s : State} {c : HostCpl} {r : HostReq} {d : DevReq}
  (reqs : (s.link c.link).reqs = [r]) (fn : r.fn = c.fn) (tag : r.tag = c.tag) (devReqs : (s.link c.link).devReqs = [d])
  (pkt : d.pkt = r.pkt)
include reqs fn tag

theorem reqs_find : (s.link c.link).reqs.find? (fun r => r.fn == c.fn && r.tag == c.tag) = some r := by simp [reqs, fn, tag]

omit fn tag
include devReqs pkt

theorem State.partTaken_one : (s.partTaken c r).link c.link = { s.link c.link with
    reqs := [{ r with addr := r.addr + c.data.length, len := r.len - c.data.length }], devReqs := [d.part r c] } := by
  simp [State.partTaken, reqs, devReqs, pkt, samePkt_self]

theorem State.lastTaken_one : (s.lastTaken c r).link c.link = { s.link c.link with reqs := [], devReqs := [d.last r c] } := by
  simp [State.lastTaken, reqs, devReqs, pkt, samePkt_self]

end OneRead

theorem satAdd_one (m a : Nat) : satAdd m a 1 = min m (a + 1) := rfl

/-- Settles O31: what the Cuff transmits, what a completion brings, and what ends a request without data. -/
theorem deviceInitiatedTransfersComplete : Obligations.DeviceInitiatedTransfersComplete := by
  unfold Obligations.DeviceInitiatedTransfersComplete
  refine ⟨?_, ?_, ?_, ?_, fun s l => exec_cuffTxDequeue_idle, ?_, fun s c i => exec_hostCompletion_ideFailed, ?_⟩
  · intro s l fn a d p last awake up first write ack
    have cls : p.op.cls = 0 := by rw [write]; rfl
    cases last with
    | true =>
      refine ⟨_, exec_cuffTxDequeue_write awake up first, by simp, fun j hj => ?_, by simp, fun _ => ?_, nofun, onlyIn_iff.mpr (by simp)⟩
      · simp [State.modLink_ne _ _ _ hj]
      · simp only [if_true, State.answer, cls, ack]
        exact (State.respond_carries ..).sends ⟨rfl, rfl, rfl, rfl⟩
    | false =>
      refine ⟨_, exec_cuffTxDequeue_write awake up first, by simp, fun j hj => ?_, by simp, nofun, fun _ => by simp, onlyIn_iff.mpr (by simp)⟩
      simp [State.modLink_ne _ _ _ hj]
  · intro s l fn a n tag p awake up first free
    refine ⟨_, exec_cuffTxDequeue_read awake up first free, by simp, fun j hj => ?_, by simp, onlyIn_iff.mpr (by simp)⟩
    simp [State.modLink_ne _ _ _ hj]
  · intro s c r d n awake up ide reqs fn tag devReqs pkt left txq line read
    have ide : ∀ i, c.ide = some i → i.ok = true := by simp [ide]
    have found := reqs_find reqs fn tag
    refine ⟨fun sc whole => ?_, fun sc short => ?_, fun bad => ?_, ?_⟩
    · have after := State.lastTaken_one reqs devReqs pkt
      obtain ⟨x, done⟩ := State.devDone_line (s := s.lastTaken c r) (l := c.link) (d := d.last r c) (n := n)
        (by simp [DevReq.last, pkt, read]) (by simp [DevReq.last, pkt, line])
      have steps := exec_hostCompletion_last (d := d.last r c) awake up ide found sc whole
        (by simp [devReqs, pkt, samePkt_self, DevReq.last])
      have none : (d.last r c).left == 0 := by simp [DevReq.last, left]
      refine ⟨_, steps.trans (congrArg Host.Outcome.next ((if_pos none).trans done)), ?_, fun j hj => ?_, (State.respond_carries ..).sends ⟨rfl, ?_, ?_, rfl, rfl⟩, ?_⟩
      · rw [State.respond_link]
        simp only [State.forgetDev, State.modLink_same, after, List.filter_nil, List.filter_cons, samePkt_self, Bool.not_true,
          Bool.false_eq_true, if_false, txq]
      · rw [State.respond_link, State.forgetDev_link_ne _ hj, State.lastTaken, State.modLink_ne _ _ _ hj]
      · simp [Packet.response, DevReq.last, pkt]
      · simp [Packet.response, DevReq.last, pkt]
      · exact ((onlyIn_iff.mpr (by simp [State.lastTaken]) : OnlyIn [.host, .net] s (s.lastTaken c r)).comp
          ((State.forgetDev_onlyIn _).mono (by simp))).comp ((State.respond_netOnly ..).mono (by simp))
    · have after := State.partTaken_one reqs devReqs pkt
      refine ⟨_, exec_hostCompletion_part awake up ide found sc short (by simp [devReqs, left]), after, fun j hj => ?_, ?_⟩
      · rw [State.partTaken, State.modLink_ne _ _ _ hj]
      · exact onlyIn_iff.mpr (by simp [State.partTaken])
    · rw [exec_hostCompletion_failed awake up ide found bad, State.endDev_read read]
      refine ⟨_, rfl, ?_, fun j hj => ?_, (State.respond_carries ..).sends ⟨rfl, rfl, rfl, rfl⟩,
        ((State.forgetDev_onlyIn _).mono (by simp)).comp ((State.respond_netOnly ..).mono (by simp))⟩
      · rw [State.respond_link]
        exact State.forgetDev_only rfl reqs (by simp [samePkt_self]) devReqs (by simp [pkt, samePkt_self]) txq
      · rw [State.respond_link, State.forgetDev_link_ne _ hj]
    · rw [exec_hostCplTimeout_late (d := d) (by simp [devReqs, pkt]), pkt, State.endDev_read read]
      have noted : (((s.modLink c.link (fun x => { x with timeouts := min 65535 (x.timeouts + 1) })).aer ⟨c.link, r.pkt.fn⟩
          .completionTimeout).link c.link) = { s.link c.link with timeouts := min 65535 ((s.link c.link).timeouts + 1) } := by
        simp [State.aer]
      refine ⟨_, rfl, ?_, ?_, fun j hj => ?_, (State.respond_carries ..).sends ⟨rfl, rfl, rfl, rfl⟩, ?_⟩
      · rw [State.respond_link]
        exact (State.forgetDev_only noted reqs (by simp [samePkt_self]) devReqs (by simp [pkt, samePkt_self]) txq).trans rfl
      · simp [State.forgetDev, State.aer]
      · rw [State.respond_link, State.forgetDev_link_ne _ hj]
        simp [State.aer, State.modLink_ne _ _ _ hj]
      · exact onlyIn_iff.mpr (by simp [State.respond, State.forgetDev, State.aer])
  · intro s c awake up ide other
    have none : (s.link c.link).reqs.find? (fun r => r.fn == c.fn && r.tag == c.tag) = none := by
      rw [List.find?_eq_none]
      intro r hr
      simpa using other r hr
    refine ⟨_, exec_hostCompletion_unexpected awake up (by simp [ide]) none, ?_, fun j hj => ?_, ?_, ?_⟩
    · simp [State.aerTlp, satAdd_one]
    · simp [State.aerTlp, State.modLink_ne _ _ _ hj]
    · simp [State.aerTlp]
    · exact onlyIn_iff.mpr (by simp [State.aerTlp])
  · intro s c r awake up ide found
    exact ⟨exec_hostCompletion_failed awake up ide found, exec_hostCompletion_part awake up ide found,
      fun d => exec_hostCompletion_last awake up ide found⟩
  · intro s l unit tag
    exact ⟨exec_hostCplTimeout_none, fun d => exec_hostCplTimeout_late⟩

end Sys2Proof.Machine
end

