-- ==== Sys2Proof/Proofs/MessageModeration.lean ====
section
/-! PROOFS. Moderation groups and MSG_REQ (R495, R498, R521). -/

namespace Sys2Proof.Machine

/-! ### Moderation groups (R495) -/

/-- The due bit of a vector in its group. -/
def dueBit (vec : Nat) : BitVec 8 := BitVec.ofNat 8 (2 ^ (vec % 8))

theorem bits_of_dueBit : ∀ i < 8, (List.range 8).filter (fun j => (BitVec.ofNat 8 (2 ^ i)).getLsbD j) = [i] := by decide

theorem dueBit_ne_zero (vec : Nat) : dueBit vec ≠ 0 := by
  have all : ∀ i < 8, BitVec.ofNat 8 (2 ^ i) ≠ 0 := by decide
  exact all _ (Nat.mod_lt _ (by decide))

section Groups
variable (s : State) (f : FnId) (g : Nat) (m : ModGroup → ModGroup)

@[simp] theorem State.modGroup_group : (s.modGroup f g m).group f g = m (s.group f g) := by
  simp [State.modGroup, State.group]

theorem State.modGroup_fn_ne {j : FnId} (h : j.key ≠ f.key) : (s.modGroup f g m).fn j = s.fn j := by
  rw [State.modGroup, State.modFn_ne _ _ _ h]

theorem State.modGroup_onlyIn : OnlyIn [.host] s (s.modGroup f g m) := onlyIn_iff.mpr (by simp [State.modGroup])

@[simp] theorem State.modGroup_net : (s.modGroup f g m).net = s.net := rfl

theorem State.askMessage_onlyIn (v : Nat) : OnlyIn [.net] s (s.askMessage f v) := onlyIn_iff.mpr (by simp [State.askMessage])

theorem State.askMessage_fn (v : Nat) (j : FnId) : (s.askMessage f v).fn j = s.fn j := by
  have host : (s.askMessage f v).host = s.host := (s.askMessage_onlyIn f v).agree .host (by decide)
  rw [State.fn, State.fn, host]

theorem State.askMessage_group (v : Nat) (k : FnId) : (s.askMessage f v).group k g = s.group k g := by
  rw [State.group, State.group, State.askMessage_fn]

@[simp] theorem State.askMessage_msgReqs (v : Nat) : (s.askMessage f v).net.msgReqs = s.net.msgReqs ++ [(f, v)] := by
  simp [State.askMessage, State.pushFlits]

@[simp] theorem State.askMessage_events (v : Nat) : (s.askMessage f v).net.events = s.net.events := by
  simp [State.askMessage, State.pushFlits]

end Groups

section Issue
variable {s : State} {f : FnId} {vec : Nat}

/-- A group with one due vector asks for its message and starts the hold-off. -/
theorem State.issueGroup_one (due : (s.group f (vec / 8)).due = dueBit vec) :
    s.issueGroup f (vec / 8) =
      (s.askMessage f vec).modGroup f (vec / 8) (fun x => { x with due := 0, running := decide (0 < x.holdoff) }) := by
  have bits := bits_of_dueBit (vec % 8) (Nat.mod_lt _ (by decide))
  have vector : 8 * (vec / 8) + vec % 8 = vec := Nat.div_add_mod vec 8
  simp only [State.issueGroup, due, dueBit, bits, List.map_cons, List.map_nil, vector, List.foldl_cons, List.foldl_nil]

/-- What the issue of a single due vector does. -/
theorem State.issueGroup_effect (due : (s.group f (vec / 8)).due = dueBit vec) :
    (s.issueGroup f (vec / 8)).net.msgReqs = s.net.msgReqs ++ [(f, vec)] ∧
      (s.issueGroup f (vec / 8)).net.events = s.net.events ∧
      (s.issueGroup f (vec / 8)).group f (vec / 8) =
        { s.group f (vec / 8) with due := 0, running := decide (0 < (s.group f (vec / 8)).holdoff) } ∧
      (∀ j, j.key ≠ f.key → (s.issueGroup f (vec / 8)).fn j = s.fn j) ∧ OnlyIn [.host, .net] s (s.issueGroup f (vec / 8)) := by
  rw [State.issueGroup_one due]
  refine ⟨by simp, by simp, by simp [State.askMessage_group], fun j hj => ?_, ?_⟩
  · rw [State.modGroup_fn_ne _ _ _ _ hj, State.askMessage_fn]
  · exact ((State.askMessage_onlyIn ..).mono (by simp)).comp ((State.modGroup_onlyIn ..).mono (by simp))

end Issue

/-! ### EVENT, MODERATION_TIMER_EXPIRY and MSG_REQ (R495, R498, R521) -/

/-- The request for a vector has reached the gatherer. -/
def State.eventTaken (s : State) (f : FnId) (vec : Nat) : State := { s with net.events := eraseFirst (· == (f, vec)) s.net.events }

@[simp] theorem State.eventTaken_fn (s : State) (f j : FnId) (vec : Nat) : (s.eventTaken f vec).fn j = s.fn j := rfl

section Exec
variable {s : State} {f : FnId} {vec : Nat}

theorem State.eventTaken_onlyIn (s : State) (f : FnId) (vec : Nat) : OnlyIn [.net] s (s.eventTaken f vec) := onlyIn_iff.mpr (by simp [State.eventTaken])

theorem exec_event_unknown (outside : vectorsOf f ≤ vec) : exec (.event f vec) s = .next (s.eventTaken f vec) := by
  simp [exec, execEvent, outside, State.eventTaken]

theorem exec_event (awake : s.awake = true) (enabled : s.fnEnabled f = true) (inside : vec < vectorsOf f) :
    exec (.event f vec) s = .next (
      let t := if (s.group f (vec / 8)).due &&& dueBit vec != 0 then (s.eventTaken f vec).coalesce f
        else (s.eventTaken f vec).modGroup f (vec / 8) (fun x => { x with due := x.due ||| dueBit vec })
      if (t.group f (vec / 8)).running then t else t.issueGroup f (vec / 8)) := by
  have runs : (!s.awake || !s.fnEnabled f || decide (vectorsOf f ≤ vec)) = false := by simp [awake, enabled, inside]
  refine congrArg Host.Outcome.next (if_neg ?_)
  rw [Bool.not_eq_true]
  exact runs

theorem exec_event_issues (awake : s.awake = true) (enabled : s.fnEnabled f = true) (inside : vec < vectorsOf f)
    (idle : (s.group f (vec / 8)).running = false) (new : (s.group f (vec / 8)).due &&& dueBit vec = 0) :
    exec (.event f vec) s = .next (((s.eventTaken f vec).modGroup f (vec / 8)
      (fun x => { x with due := x.due ||| dueBit vec })).issueGroup f (vec / 8)) := by
  have idle : ((s.eventTaken f vec).group f (vec / 8)).running = false := idle
  rw [exec_event awake enabled inside]
  simp only [new, bne_self_eq_false, Bool.false_eq_true, if_false, State.modGroup_group, idle]

theorem exec_event_waits (awake : s.awake = true) (enabled : s.fnEnabled f = true) (inside : vec < vectorsOf f)
    (running : (s.group f (vec / 8)).running = true) (new : (s.group f (vec / 8)).due &&& dueBit vec = 0) :
    exec (.event f vec) s = .next ((s.eventTaken f vec).modGroup f (vec / 8) (fun x => { x with due := x.due ||| dueBit vec })) := by
  have running : ((s.eventTaken f vec).group f (vec / 8)).running = true := running
  rw [exec_event awake enabled inside]
  simp only [new, bne_self_eq_false, Bool.false_eq_true, if_false, State.modGroup_group, running, if_true]

theorem exec_event_joins (awake : s.awake = true) (enabled : s.fnEnabled f = true) (inside : vec < vectorsOf f)
    (running : (s.group f (vec / 8)).running = true) (due : (s.group f (vec / 8)).due &&& dueBit vec ≠ 0) :
    exec (.event f vec) s = .next ((s.eventTaken f vec).coalesce f) := by
  have running : (((s.eventTaken f vec).coalesce f).group f (vec / 8)).running = true := by
    simpa [State.group, State.coalesce] using running
  rw [exec_event awake enabled inside]
  simp only [bne_iff_ne.mpr due, if_true, running]

theorem exec_moderationTimerExpiry {g : Nat} (running : (s.group f g).running = true) :
    exec (.moderationTimerExpiry f g) s = .next (if (s.group f g).due != 0 then
      (s.modGroup f g (fun x => { x with running := false })).issueGroup f g else s.modGroup f g (fun x => { x with running := false })) := by
  simp only [exec, execModerationTimerExpiry, running, Bool.not_true, Bool.false_eq_true, if_false, State.modGroup_group]

/-- A MSG_REQ is taken from the Weave. -/
def State.msgTaken (s : State) (f : FnId) (vec : Nat) : State :=
  { (s.take (msgPacket f vec)) with net.msgReqs := eraseFirst (· == (f, vec)) s.net.msgReqs }

theorem exec_msgReq_waits (waits : s.waitsTurn (msgPacket f vec) = true) : exec (.msgReq f vec) s = .next s :=
  congrArg Host.Outcome.next (if_pos waits)

variable (turn : s.waitsTurn (msgPacket f vec) = false)
include turn

theorem exec_msgReq_wakes (free : s.fenced (cuffUnit (f.link / 2)) = false) (off : s.unitOn (cuffUnit (f.link / 2)) = false) :
    exec (.msgReq f vec) s = .next (s.wake (unitDomain (cuffUnit (f.link / 2))) (unitWanter gathererUnit)) := by
  refine congrArg Host.Outcome.next ((if_neg (by rw [turn]; exact Bool.false_ne_true)).trans (if_pos ?_))
  exact Bool.and_eq_true_iff.mpr ⟨by rw [Bool.not_eq_true']; exact free, by rw [Bool.not_eq_true']; exact off⟩

variable (awake : s.awake = true) (enabled : s.fnEnabled f = true) (inside : vec < vectorsOf f)
include awake enabled inside

theorem exec_msgReq_joins (free : s.fenced (cuffUnit (f.link / 2)) = false) (on : s.unitOn (cuffUnit (f.link / 2)) = true) :
    exec (.msgReq f vec) s = .next { s.msgTaken f vec with host.msgs := s.host.msgs ++ [(f, vec)] } := by
  have here : (!s.fenced (cuffUnit (f.link / 2)) && !s.unitOn (cuffUnit (f.link / 2))) = false := by rw [on]; simp
  have runs : (!s.awake || !s.fnEnabled f || decide (vectorsOf f ≤ vec)) = false := by simp [awake, enabled, inside]
  refine congrArg Host.Outcome.next ((if_neg (by rw [turn]; exact Bool.false_ne_true)).trans ((if_neg ?_).trans ((if_neg ?_).trans
    (if_neg ?_))))
  · rw [Bool.not_eq_true]; exact here
  · rw [Bool.not_eq_true]; exact runs
  · rw [Bool.not_eq_true]; exact free

theorem exec_msgReq_fenced (fenced : s.fenced (cuffUnit (f.link / 2)) = true) :
    exec (.msgReq f vec) s = .next ((s.msgTaken f vec).contained 1 0x0702 (cuffUnit (f.link / 2)) 0 none) := by
  have here : (!s.fenced (cuffUnit (f.link / 2)) && !s.unitOn (cuffUnit (f.link / 2))) = false := by rw [fenced]; rfl
  have runs : (!s.awake || !s.fnEnabled f || decide (vectorsOf f ≤ vec)) = false := by simp [awake, enabled, inside]
  refine congrArg Host.Outcome.next ((if_neg (by rw [turn]; exact Bool.false_ne_true)).trans ((if_neg ?_).trans ((if_neg ?_).trans
    (if_pos fenced))))
  · rw [Bool.not_eq_true]; exact here
  · rw [Bool.not_eq_true]; exact runs

end Exec

theorem State.msgTaken_onlyIn (s : State) (f : FnId) (vec : Nat) : OnlyIn [.net] s (s.msgTaken f vec) :=
  onlyIn_iff.mpr (by simp [State.msgTaken])

/-- Settles O32: what a vector's request does in an idle group, in one whose hold-off runs and in one where it is due, and where its
message goes. -/
theorem messageModerationCommandsComplete : Obligations.MessageModerationCommandsComplete := by
  unfold Obligations.MessageModerationCommandsComplete
  intro s f vec awake enabled inside
  have taken : OnlyIn [.host, .net] s (s.eventTaken f vec) := (s.eventTaken_onlyIn f vec).mono (by simp)
  refine ⟨fun idle none => ?_, fun running new => ?_, fun running due => ?_, fun running due => ?_, fun running none => ?_,
    fun turn free on => ?_, fun turn fenced => ?_, exec_event_issues awake enabled inside, fun running due => ?_, exec_msgReq_waits,
    exec_msgReq_wakes, fun v => exec_event_unknown⟩
  · have due : (((s.eventTaken f vec).modGroup f (vec / 8) (fun x => { x with due := x.due ||| dueBit vec })).group f (vec / 8)).due =
        dueBit vec := by
      rw [State.modGroup_group]
      exact (congrArg (· ||| dueBit vec) none).trans (BitVec.zero_or)
    obtain ⟨msgReqs, events, group, others, only⟩ := State.issueGroup_effect due
    refine ⟨_, exec_event_issues awake enabled inside idle (by rw [none]; exact BitVec.zero_and), msgReqs, events, ?_, fun j hj => ?_,
      (taken.comp ((State.modGroup_onlyIn ..).mono (by simp))).comp only⟩
    · rw [group, State.modGroup_group]
      rfl
    · rw [others j hj, State.modGroup_fn_ne _ _ _ _ hj, State.eventTaken_fn]
  · refine ⟨_, exec_event_waits awake enabled inside running new, rfl, by rw [State.modGroup_group]; rfl, fun j hj => ?_,
      taken.comp ((State.modGroup_onlyIn ..).mono (by simp))⟩
    rw [State.modGroup_fn_ne _ _ _ _ hj, State.eventTaken_fn]
  · exact ⟨_, exec_event_joins awake enabled inside running due, rfl, by simp [State.coalesce],
      taken.comp (onlyIn_iff.mpr (by simp [State.coalesce]))⟩
  · have one : ((s.modGroup f (vec / 8) (fun x => { x with running := false })).group f (vec / 8)).due = dueBit vec := by
      rw [State.modGroup_group]
      exact due
    obtain ⟨msgReqs, -, group, -, only⟩ := State.issueGroup_effect one
    have fires : ((s.group f (vec / 8)).due != 0) = true := by rw [due]; exact bne_iff_ne.mpr (dueBit_ne_zero vec)
    refine ⟨_, (exec_moderationTimerExpiry running).trans (congrArg Host.Outcome.next (if_pos fires)), msgReqs, ?_,
      ((State.modGroup_onlyIn ..).mono (by simp)).comp only⟩
    rw [group, State.modGroup_group]
  · have quiet : ((s.group f (vec / 8)).due != 0) = false := by rw [none]; rfl
    exact ⟨_, (exec_moderationTimerExpiry running).trans (congrArg Host.Outcome.next (if_neg (by rw [quiet]; exact Bool.false_ne_true))),
      by rw [State.modGroup_group], State.modGroup_onlyIn ..⟩
  · exact ⟨_, exec_msgReq_joins turn awake enabled inside free on, rfl, rfl, onlyIn_iff.mpr (by simp [State.msgTaken])⟩
  · exact ⟨_, exec_msgReq_fenced turn awake enabled inside fenced, by simp [State.contained, State.report, State.pushE, State.pushFlits, State.msgTaken],
      by simp [State.msgTaken, State.take],
      OnlyIn.comp (s.msgTaken_onlyIn f vec) (State.report_onlyIn ..)⟩
  · exact (exec_moderationTimerExpiry running).trans (congrArg Host.Outcome.next (if_pos (bne_iff_ne.mpr due)))

end Sys2Proof.Machine
end

