-- ==== Sys2Proof/Proofs/MessageDelivery.lean ====
section
/-! PROOFS. The commit point of a message and the masks (R341, R498-R507). -/

namespace Sys2Proof.Machine

/-! ### The commit point of a message (R341, R498, R505-R507) -/

/-- A message has left its Cuff's queue. -/
def State.msgLeft (s : State) (f : FnId) (vec : Nat) : State := { s with host.msgs := eraseFirst (· == (f, vec)) s.host.msgs }

theorem State.msgLeft_onlyIn (s : State) (f : FnId) (vec : Nat) : OnlyIn [.host] s (s.msgLeft f vec) := onlyIn_iff.mpr (by simp [State.msgLeft])

@[simp] theorem State.msgLeft_fn (s : State) (f j : FnId) (vec : Nat) : (s.msgLeft f vec).fn j = s.fn j := rfl
@[simp] theorem State.msgLeft_link (s : State) (f : FnId) (vec l : Nat) : (s.msgLeft f vec).link l = s.link l := rfl

@[simp] theorem State.msgLeft_out (s : State) (f : FnId) (vec : Nat) : (s.msgLeft f vec).out = s.out := rfl
@[simp] theorem State.msgLeft_msgs (s : State) (f : FnId) (vec : Nat) :
    (s.msgLeft f vec).host.msgs = eraseFirst (· == (f, vec)) s.host.msgs := rfl
@[simp] theorem State.modFn_msgs (s : State) (f : FnId) (m : Fn → Fn) : (s.modFn f m).host.msgs = s.host.msgs := rfl

section Commit
variable {s : State} {f : FnId} {vec : Nat}

theorem exec_msixCommit_none (gone : (f, vec) ∉ s.host.msgs) : exec (.msixCommit f vec) s = .next s := by
  simp [exec, execMsixCommit, gone]

variable (awake : s.awake = true) (queued : (f, vec) ∈ s.host.msgs)
include awake queued

theorem exec_msixCommit_joins (pending : vec ∈ (s.fn f).pba) : exec (.msixCommit f vec) s = .next ((s.msgLeft f vec).coalesce f) := by
  refine congrArg Host.Outcome.next ((if_neg ?_).trans (if_pos ?_))
  · simp [awake, queued]
  · exact List.contains_iff_mem.mpr pending

variable (new : vec ∉ (s.fn f).pba)
include new

theorem exec_msixCommit_sends (open' : s.canSend f vec = true) :
    exec (.msixCommit f vec) s = .next ((s.msgLeft f vec).transmitMsi f vec) := by
  refine congrArg Host.Outcome.next ((if_neg ?_).trans ((if_neg ?_).trans (if_pos open')))
  · simp [awake, queued]
  · exact fun h => new (List.contains_iff_mem.mp h)

theorem exec_msixCommit_pends (shut : s.canSend f vec = false) :
    exec (.msixCommit f vec) s = .next
      (let t := (s.msgLeft f vec).modFn f (fun x => { x with pba := x.pba ++ [vec], pmePending := x.pmePending || x.d3 })
        if (t.fn f).d3 || !(t.fn f).msixEnable then t.sendPme f else t.wakeUpdate f.link) := by
  refine congrArg Host.Outcome.next ((if_neg ?_).trans ((if_neg ?_).trans (if_neg ?_)))
  · simp [awake, queued]
  · exact fun h => new (List.contains_iff_mem.mp h)
  · rw [Bool.not_eq_true]; exact shut

theorem exec_msixCommit_pme (shut : s.canSend f vec = false) (off : (s.fn f).d3 = true ∨ (s.fn f).msixEnable = false) :
    exec (.msixCommit f vec) s = .next (((s.msgLeft f vec).modFn f (fun x =>
      { x with pba := x.pba ++ [vec], pmePending := x.pmePending || x.d3 })).sendPme f) := by
  rw [exec_msixCommit_pends awake queued new shut]
  refine congrArg Host.Outcome.next (if_pos ?_)
  simpa using off

theorem exec_msixCommit_waits (shut : s.canSend f vec = false) (d0 : (s.fn f).d3 = false) (on : (s.fn f).msixEnable = true) :
    exec (.msixCommit f vec) s = .next (((s.msgLeft f vec).modFn f (fun x => { x with pba := x.pba ++ [vec] })).wakeUpdate f.link) := by
  have kept : (s.msgLeft f vec).modFn f (fun x => { x with pba := x.pba ++ [vec], pmePending := x.pmePending || x.d3 }) =
      (s.msgLeft f vec).modFn f (fun x => { x with pba := x.pba ++ [vec] }) := State.modFn_congr (by simp [d0])
  rw [exec_msixCommit_pends awake queued new shut, kept]
  refine congrArg Host.Outcome.next (if_neg ?_)
  simp [d0, on]

end Commit

section Send
variable {s : State} {f : FnId} {vec : Nat}

theorem exec_pendingVectorSend (awake : s.awake = true) (pending : vec ∈ (s.fn f).pba) (open' : s.canSend f vec = true) :
    exec (.pendingVectorSend f vec) s = .next
      ((s.modFn f (fun x => { x with pba := x.pba.filter (· != vec) })).transmitMsi f vec) := by
  simp [exec, execPendingVectorSend, awake, pending, open']

theorem exec_pendingVectorSend_none (h : vec ∉ (s.fn f).pba ∨ s.canSend f vec = false) : exec (.pendingVectorSend f vec) s = .next s := by
  rcases h with none | shut
  · simp [exec, execPendingVectorSend, none]
  · simp [exec, execPendingVectorSend, shut]

/-- On a link in L0 a message is transmitted and nothing else is done. -/
theorem State.transmitMsi_l0 (l0 : (s.link f.link).power = .l0) :
    s.transmitMsi f vec = (s.modFn f (fun x => { x with sent := (x.sent + 1) % 2 ^ 32 })).emit
      (.msix f.link f.fn vec ((s.fn f).msix.get {} vec).addr ((s.fn f).msix.get {} vec).data) := by
  have stays : s.leaveL1 f.link = s := by
    unfold State.leaveL1
    rw [l0]
    rfl
  rw [State.transmitMsi, stays]

/-- WAKE# is high and stays so on a link that is not in L2 (R290). -/
theorem State.wakeUpdate_l0 {l : Nat} (l0 : (s.link l).power = .l0) (high : (s.link l).wake = false) : s.wakeUpdate l = s := by
  have want : ((s.link l).power == .l2) = false := by rw [l0]; rfl
  simp [State.wakeUpdate, high, want]

/-- A first PME on a link in L0 (R506). -/
theorem State.sendPme_l0 (l0 : (s.link f.link).power = .l0) (high : (s.link f.link).wake = false) (enabled : (s.fn f).pmeEn = true)
    (clear : (s.fn f).pmeStatus = false) (up : (s.link f.link).up = true) :
    s.sendPme f = (s.modFn f (fun x => { x with pmeStatus := true })).emit (.pme f.link f.fn) := by
  have want : ((s.link f.link).power != .l2) = true := by rw [l0]; rfl
  simp only [State.sendPme, enabled, clear, Bool.not_false, Bool.and_self, if_true, State.modFn_link, up, want]
  exact State.wakeUpdate_l0 (by simpa using l0) (by simpa using high)

theorem exec_msixMaskWrite_vector {v : Bool} (open' : s.bar0On f = true) (inside : vec < vectorsOf f) :
    exec (.msixMaskWrite f (.vector vec) v) s = .next
      (s.modFn f (fun x => { x with msix := x.msix.mod {} vec (fun e => { e with mask := v }) })) := by
  simp [exec, execMsixMaskWrite, open', inside, State.setMask]

theorem exec_msixMaskWrite_vector_shut {v : Bool} (h : s.bar0On f = false ∨ vectorsOf f ≤ vec) :
    exec (.msixMaskWrite f (.vector vec) v) s = .next s := by
  rcases h with shut | outside
  · simp [exec, execMsixMaskWrite, shut]
  · simp [exec, execMsixMaskWrite, outside]

theorem exec_msixMaskWrite_function {v : Bool} (open' : s.cfgOpen f = true) :
    exec (.msixMaskWrite f .function v) s = .next (s.modFn f (fun x => { x with fnMask := v })) := by
  simp [exec, execMsixMaskWrite, open', State.setMask]

theorem exec_msixMaskWrite_function_shut {v : Bool} (shut : s.cfgOpen f = false) :
    exec (.msixMaskWrite f .function v) s = .next s := by
  simp [exec, execMsixMaskWrite, shut]

end Send

/-- Settles O33: what becomes of a message at its commit point, and what a Mask write changes. -/
theorem messageDeliveryCommandsComplete : Obligations.MessageDeliveryCommandsComplete := by
  unfold Obligations.MessageDeliveryCommandsComplete
  refine ⟨fun s f vec awake l0 => ?_, fun s f vec awake => ?_⟩
  · have left : OnlyIn [.host, .out] s (s.msgLeft f vec) := (s.msgLeft_onlyIn f vec).mono (by simp)
    refine ⟨fun queued new open' => ?_, fun queued pending => ?_, fun queued new shut d0 on high => ?_,
      fun queued new d3 enabled clear up high => ?_, fun pending open' => ?_, fun v open' inside => ?_, fun v open' => ?_,
      fun v => exec_msixMaskWrite_vector_shut, fun v => exec_msixMaskWrite_function_shut, exec_msixCommit_none,
      exec_pendingVectorSend_none⟩
    · refine ⟨_, (exec_msixCommit_sends awake queued new open').trans (congrArg _ (State.transmitMsi_l0 l0)), by simp,
        by simp, fun j hj => ?_, by simp, left.comp (onlyIn_iff.mpr (by simp))⟩
      rw [State.emit_fn, State.modFn_ne _ _ _ hj, State.msgLeft_fn]
    · exact ⟨_, exec_msixCommit_joins awake queued pending, by simp [State.coalesce], by simp [State.coalesce],
        by simp [State.coalesce], (s.msgLeft_onlyIn f vec).comp (onlyIn_iff.mpr (by simp [State.coalesce]))⟩
    · refine ⟨_, (exec_msixCommit_waits awake queued new shut d0 on).trans (congrArg _ (State.wakeUpdate_l0 (by simpa using l0)
        (by simpa using high))), by simp, by simp, by simp,
        (s.msgLeft_onlyIn f vec).comp (onlyIn_iff.mpr (by simp))⟩
    · have shut : s.canSend f vec = false := by simp [State.canSend, d3]
      refine ⟨_, (exec_msixCommit_pme awake queued new shut (.inl d3)).trans (congrArg _ (State.sendPme_l0 (by simpa using l0)
        (by simpa using high) (by simpa using enabled) (by simpa using clear) (by simpa using up))), by simp [d3], by simp,
        left.comp (onlyIn_iff.mpr (by simp))⟩
    · refine ⟨_, (exec_pendingVectorSend awake pending open').trans (congrArg _ (State.transmitMsi_l0 (by simpa using l0))), by simp,
        by simp, onlyIn_iff.mpr (by simp)⟩
    · exact ⟨_, exec_msixMaskWrite_vector open' inside, by simp, by simp, onlyIn_iff.mpr (by simp)⟩
    · exact ⟨_, exec_msixMaskWrite_function open', by simp, onlyIn_iff.mpr (by simp)⟩
  · exact ⟨exec_msixCommit_sends awake, exec_msixCommit_pme awake, exec_msixCommit_waits awake, exec_pendingVectorSend awake⟩

end Sys2Proof.Machine
end

