-- ==== Sys2Proof/Proofs/FunctionResets.lean ====
section
/-! PROOFS. Resets of functions: FLR, VF Enable and NumVFs (R57, R299, R332-R334). -/

namespace Sys2Proof.Machine

/-! ### What a function keeps across a reset -/

/-- A change of a function that keeps a view of it keeps that view of every function. -/
theorem State.modFn_view {β : Type} (v : Fn → β) (s : State) (f : FnId) (m : Fn → Fn) (h : ∀ x : Fn, v (m x) = v x) (j : FnId) :
    v ((s.modFn f m).fn j) = v (s.fn j) := by
  by_cases hj : j.key = f.key
  · have at_f (u : State) : u.fn j = u.fn f := congrArg (fun k => Tbl.get ({} : Fn) u.host.fns k) hj
    rw [at_f, at_f, State.modFn_same, h]
  · rw [State.modFn_ne _ _ _ hj]

/-- The report of an error leaves the sticky registers. -/
theorem State.farSide_sticky (s : State) (f : FnId) (c sp a tf tl g u : Nat) (j : FnId) :
    ((s.farSide f c sp a tf tl g u).fn j).reset = (s.fn j).reset := by
  simp only [State.farSide, State.errLog, State.raiseCause, State.contained]
  split
  · simpa using State.modFn_view Fn.reset s f _ (by intro; rfl) j
  · split
    · simpa using (State.modFn_view Fn.reset (s.modFn f _) f _ (by intro; rfl) j).trans (State.modFn_view Fn.reset s f _ (by intro; rfl) j)
    · simpa using State.modFn_view Fn.reset s f _ (by intro; rfl) j

/-- A link but for its requests. -/
def Link.bare (x : Link) : Link := { x with txq := [], devReqs := [], reqs := [], withdrawn := [], held := [], discarded := 0 }

/-- What the end of requests of a link leaves: the link but for its requests, the other links, every function's sticky registers, and
all but the host side and the Weave. -/
structure State.EndsOn (l : Nat) (s t : State) : Prop where
  only : OnlyIn [.host, .net] s t
  bare : (t.link l).bare = (s.link l).bare
  links : ∀ j, j ≠ l → t.link j = s.link j
  sticky : ∀ f, (t.fn f).reset = (s.fn f).reset

namespace State.EndsOn
variable {l : Nat} {s t u : State}

theorem refl (s : State) : State.EndsOn l s s := ⟨.refl _ s, rfl, fun _ _ => rfl, fun _ => rfl⟩

theorem trans (h : State.EndsOn l s t) (k : State.EndsOn l t u) : State.EndsOn l s u where
  only := h.only.comp k.only
  bare := k.bare.trans h.bare
  links j hj := (k.links j hj).trans (h.links j hj)
  sticky f := (k.sticky f).trans (h.sticky f)

theorem foldl {α : Type} (g : State → α → State) (h : ∀ s x, State.EndsOn l s (g s x)) (xs : List α) (s : State) :
    State.EndsOn l s (xs.foldl g s) := by
  induction xs generalizing s with
  | nil => exact refl s
  | cons x xs ih => exact (h s x).trans (ih _)

end State.EndsOn

section Ends
variable (s : State) (l : Nat)

theorem State.modLink_endsOn (m : Link → Link) (h : ∀ x : Link, (m x).bare = x.bare) : State.EndsOn l s (s.modLink l m) :=
  ⟨onlyIn_iff.mpr (by simp), by rw [State.modLink_same, h], fun _ hj => State.modLink_ne _ _ _ hj, fun _ => rfl⟩

theorem State.answer_endsOn (p : Packet) (code : Nat) : State.EndsOn l s (s.answer p code) :=
  ⟨onlyIn_iff.mpr (by simp), by simp, fun _ _ => by simp, fun _ => by simp⟩

theorem State.failDev_endsOn (p : Packet) (code : Nat) : State.EndsOn l s (s.failDev p code) := by
  unfold State.failDev
  extract_lets u
  refine State.EndsOn.trans ?_ (u.answer_endsOn l p code)
  unfold u
  split
  · exact ⟨onlyIn_iff.mpr (by simp), by simp [State.link], fun _ _ => by simp [State.link], fun _ => State.farSide_sticky ..⟩
  · exact .refl s

theorem State.endDev_endsOn (p : Packet) (code : Nat) : State.EndsOn l s (s.endDev l p code) :=
  (s.modLink_endsOn l _ (by intro; rfl)).trans (State.failDev_endsOn ..)

theorem State.dropReads_endsOn (hit : Packet → Bool) (code : Nat) : State.EndsOn l s (s.dropReads l hit code) :=
  .foldl _ (fun s _ => s.endDev_endsOn l _ _) _ _

theorem State.dropPosted_endsOn (hit : Packet → Bool) (code : Nat) : State.EndsOn l s (s.dropPosted l hit code) := by
  unfold State.dropPosted
  extract_lets lost u
  refine (s.modLink_endsOn l _ (by intro; rfl) : State.EndsOn l s u).trans (.foldl _ (fun s t => ?_) _ _)
  split
  · exact s.failDev_endsOn ..
  · exact .refl s

theorem State.endRequests_endsOn (hit : Nat → Bool) (code : Nat) : State.EndsOn l s (s.endRequests l hit code) := by
  unfold State.endRequests
  extract_lets ws t u
  have hu : State.EndsOn l s u := (s.modLink_endsOn l _ (by intro; rfl)).trans (.foldl _ (fun s _ => s.answer_endsOn l _ _) _ _)
  exact (hu.trans (u.dropReads_endsOn ..)).trans (State.dropPosted_endsOn ..)

theorem State.withdraw_endsOn (f : FnId) : State.EndsOn f.link s (s.withdraw f) := s.modLink_endsOn _ _ (by intro; rfl)

end Ends

/-! ### The reset of a function (R333, R334, R510) -/

section Reset
variable (s : State) (f : FnId)

theorem State.fgReset_onlyIn (i : FgId) : OnlyIn [.host, .work, .net] s (s.fgReset i) := onlyIn_iff.mpr (by simp)

/-- A function's Fingers are reset: of the host side, only whom its event register wakes. -/
theorem State.fingersReset_onlyIn : OnlyIn [.host, .work, .net] s ((fingersOf f).foldl State.fgReset s) :=
  foldl_onlyIn _ (fun s i => s.fgReset_onlyIn i) _ _

theorem State.fgReset_fn (i : FgId) : (s.fgReset i).fn = (s.unwait i).fn := by
  funext j
  simp [State.fgReset]

theorem State.fingersReset_fn_ne {j : FnId} (hj : j.key ≠ f.key) : ((fingersOf f).foldl State.fgReset s).fn j = s.fn j := by
  rw [fingersOf, List.foldl_map]
  refine foldl_same (fun s : State => s.fn j) _ _ _ fun s i => ?_
  rw [State.fgReset_fn]
  exact State.modFn_ne _ _ _ hj

theorem State.fingersReset_sticky (j : FnId) : (((fingersOf f).foldl State.fgReset s).fn j).reset = (s.fn j).reset :=
  foldl_same (fun s : State => (s.fn j).reset) _ _ _ fun s i => by
    rw [State.fgReset_fn]
    exact State.modFn_view Fn.reset s _ _ (by intro; rfl) j

theorem State.fingersReset_link (l : Nat) : ((fingersOf f).foldl State.fgReset s).link l = s.link l :=
  foldl_same (fun s : State => s.link l) _ _ _ fun s i => congrArg (fun t => Tbl.get ({} : Link) t l) (by simp)

/-- The queues of a function are gone (R367). -/
theorem State.destroyQueues_queue {q : QId} (hq : q.fnId = f) (id : q.q < 128) : (s.destroyQueues f).queue q = {} := by
  have key : q.key / 128 = f.key := by
    rw [← hq]
    simp only [QId.key, FnId.key, QId.fnId]
    omega
  rcases Tbl.get_default_or_mem ({} : Queue) (s.destroyQueues f).work.queues q.key with none' | mem
  · exact none'
  · have := (List.mem_filter.mp mem).2
    simp [key] at this

section Drops
variable (own : Bool)

@[simp] theorem State.dropCompletions_fn (j : FnId) : (s.dropCompletions f own).fn j = s.fn j := rfl
@[simp] theorem State.dropCompletions_queue (q : QId) : (s.dropCompletions f own).queue q = s.queue q := rfl
@[simp] theorem State.dropMessages_fn (j : FnId) : (s.dropMessages f).fn j = s.fn j := rfl
@[simp] theorem State.dropMessages_link (l : Nat) : (s.dropMessages f).link l = s.link l := rfl
@[simp] theorem State.dropMessages_queue (q : QId) : (s.dropMessages f).queue q = s.queue q := rfl
@[simp] theorem State.destroyQueues_fn (j : FnId) : (s.destroyQueues f).fn j = s.fn j := rfl
@[simp] theorem State.destroyQueues_link (l : Nat) : (s.destroyQueues f).link l = s.link l := rfl

theorem State.dropCompletions_link {l : Nat} (hl : l ≠ f.link) : (s.dropCompletions f own).link l = s.link l := by
  simp only [State.dropCompletions]
  rw [State.modLink_ne _ _ _ hl]
  rfl

theorem State.dropCompletions_bare : ((s.dropCompletions f own).link f.link).bare = (s.link f.link).bare := by
  simp only [State.dropCompletions]
  rw [State.modLink_same]
  rfl

theorem State.dropCompletions_onlyIn : OnlyIn [.host, .net] s (s.dropCompletions f own) := onlyIn_iff.mpr (by simp [State.dropCompletions])
theorem State.dropMessages_onlyIn : OnlyIn [.host, .net] s (s.dropMessages f) := onlyIn_iff.mpr (by simp [State.dropMessages])

end Drops

/-- The host side of a function returns to its reset values. -/
def State.fnCleared (s : State) (f : FnId) (own : Bool) : State :=
  ((((fingersOf f).foldl State.fgReset (s.destroyQueues f)).dropCompletions f own).dropMessages f).modFn f Fn.reset

theorem State.resetFn_eq (own : Bool) : s.resetFn f own =
    if f.fn == 0 then s.fnCleared f own else (s.fnCleared f own).modGlove ((s.fnCleared f own).gloveOf f) (fun g => { g with tdi := .unlocked, stream := none }) := rfl

theorem State.fnCleared_onlyIn (own : Bool) : OnlyIn [.host, .work, .net] s (s.fnCleared f own) := by
  have h1 : OnlyIn [.host, .work, .net] s (s.destroyQueues f) := onlyIn_iff.mpr (by simp [State.destroyQueues])
  have h2 := h1.comp ((s.destroyQueues f).fingersReset_onlyIn f)
  have h3 := (h2.trans (State.dropCompletions_onlyIn _ f own)).trans (State.dropMessages_onlyIn _ f)
  have h4 (t : State) : OnlyIn [.host] t (t.modFn f Fn.reset) := onlyIn_iff.mpr (by simp)
  exact (h3.trans (h4 _)).mono (by decide)

theorem State.fnCleared_trust (own : Bool) : (s.fnCleared f own).trust = s.trust := (s.fnCleared_onlyIn f own).agree .trust (by decide)

theorem State.fnCleared_gloveOf (own : Bool) : (s.fnCleared f own).gloveOf = s.gloveOf := by
  have boot : (s.fnCleared f own).boot = s.boot := (s.fnCleared_onlyIn f own).agree .boot (by decide)
  funext j
  simp [State.gloveOf, State.range, boot]

theorem State.fnCleared_fn (own : Bool) : (s.fnCleared f own).fn f = (s.fn f).reset := by
  rw [State.fnCleared, State.modFn_same, State.dropMessages_fn, State.dropCompletions_fn, State.fingersReset_sticky, State.destroyQueues_fn]

theorem State.fnCleared_fn_ne (own : Bool) {j : FnId} (hj : j.key ≠ f.key) : (s.fnCleared f own).fn j = s.fn j := by
  rw [State.fnCleared, State.modFn_ne _ _ _ hj, State.dropMessages_fn, State.dropCompletions_fn, State.fingersReset_fn_ne _ f hj,
    State.destroyQueues_fn]

theorem State.fnCleared_link (own : Bool) {j : Nat} (hj : j ≠ f.link) : (s.fnCleared f own).link j = s.link j := by
  rw [State.fnCleared, State.modFn_link, State.dropMessages_link, State.dropCompletions_link _ f own hj, State.fingersReset_link,
    State.destroyQueues_link]

theorem State.fnCleared_bare (own : Bool) : ((s.fnCleared f own).link f.link).bare = (s.link f.link).bare := by
  rw [State.fnCleared, State.modFn_link, State.dropMessages_link, State.dropCompletions_bare, State.fingersReset_link,
    State.destroyQueues_link]

theorem State.fnCleared_queue (own : Bool) {q : QId} (hq : q.fnId = f) (id : q.q < 128) : (s.fnCleared f own).queue q = {} := by
  rw [State.fnCleared, State.modFn_queue, State.dropMessages_queue, State.dropCompletions_queue, (foldl_fgReset _ _).2,
    s.destroyQueues_queue f hq id]

/-- A reset of a function: its registers, its links, its glove, and what it leaves. -/
structure State.ResetsFn (f : FnId) (s t : State) : Prop where
  only : OnlyIn [.host, .work, .net, .trust] s t
  self : t.fn f = (s.fn f).reset
  others : ∀ j : FnId, j.key ≠ f.key → t.fn j = s.fn j
  bare : (t.link f.link).bare = (s.link f.link).bare
  links : ∀ j, j ≠ f.link → t.link j = s.link j
  queues : ∀ q : QId, q.fnId = f → q.q < 128 → t.queue q = {}
  glove : 0 < f.fn → t.glove (s.gloveOf f) = { s.glove (s.gloveOf f) with tdi := .unlocked, stream := none }
  gloves : ∀ g, g ≠ s.gloveOf f → t.glove g = s.glove g
  pf0 : f.fn = 0 → ∀ g, t.glove g = s.glove g

theorem State.resetFn_resets (own : Bool) : State.ResetsFn f s (s.resetFn f own) := by
  have only := (s.fnCleared_onlyIn f own).mono (qs := [.host, .work, .net, .trust]) (by decide)
  have gloves (g : Nat) : (s.fnCleared f own).glove g = s.glove g := State.glove_congr (congrArg Trust.gloves (s.fnCleared_trust f own)) g
  rw [State.resetFn_eq, State.fnCleared_gloveOf]
  split
  next zero =>
    have zero : f.fn = 0 := by simpa using zero
    exact ⟨only, s.fnCleared_fn f own, fun _ => s.fnCleared_fn_ne f own, s.fnCleared_bare f own, fun _ => s.fnCleared_link f own,
      fun _ => s.fnCleared_queue f own, fun h => absurd zero (by omega), fun g _ => gloves g, fun _ => gloves⟩
  next vf =>
    have vf : f.fn ≠ 0 := by simpa using vf
    exact ⟨only.comp (onlyIn_iff.mpr (by simp)), s.fnCleared_fn f own, fun _ => s.fnCleared_fn_ne f own, s.fnCleared_bare f own, fun _ => s.fnCleared_link f own,
      fun _ => s.fnCleared_queue f own, fun _ => by rw [State.modGlove_same, gloves],
      fun g hg => (State.modGlove_ne _ _ _ hg).trans (gloves g), fun h => absurd h vf⟩

end Reset

/-! ### The reset of a link's functions -/

theorem FnId.key_ne {l m n : Nat} (h : m ≠ n) : (⟨l, m⟩ : FnId).key ≠ (⟨l, n⟩ : FnId).key := by
  simp only [FnId.key]
  omega

/-- A reset of the functions `ns` of a link: each once, in any order. -/
structure State.ResetsFns (l : Nat) (ns : List Nat) (s t : State) : Prop where
  only : OnlyIn [.host, .work, .net, .trust] s t
  bare : (t.link l).bare = (s.link l).bare
  links : ∀ j, j ≠ l → t.link j = s.link j
  hit : ∀ n ∈ ns, t.fn ⟨l, n⟩ = (s.fn ⟨l, n⟩).reset
  missed : ∀ n, n ∉ ns → t.fn ⟨l, n⟩ = s.fn ⟨l, n⟩
  tdis : ∀ n ∈ ns, 0 < n → (t.glove (s.gloveOf ⟨l, n⟩)).tdi = .unlocked
  unlocked : ∀ g, (s.glove g).tdi = .unlocked → (t.glove g).tdi = .unlocked

theorem OnlyIn.gloveOf {ps : List Part} {s t : State} (h : OnlyIn ps s t) (hb : .boot ∉ ps) : t.gloveOf = s.gloveOf := by
  have boot : t.boot = s.boot := h.agree .boot hb
  funext j
  simp [State.gloveOf, State.range, boot]

theorem State.ResetsFn.unlocked {f : FnId} {s t : State} (h : State.ResetsFn f s t) (g : Nat) (hg : (s.glove g).tdi = .unlocked) :
    (t.glove g).tdi = .unlocked := by
  by_cases pf0 : f.fn = 0
  · rw [h.pf0 pf0, hg]
  · by_cases own : g = s.gloveOf f
    · rw [own, h.glove (Nat.pos_of_ne_zero pf0)]
    · rw [h.gloves g own, hg]

theorem foldl_resetFn (own : Bool) (l : Nat) {ns : List Nat} (once : ns.Nodup) (s : State) :
    State.ResetsFns l ns s (ns.foldl (fun s n => s.resetFn ⟨l, n⟩ own) s) := by
  induction ns generalizing s with
  | nil => exact ⟨.refl _ s, rfl, fun _ _ => rfl, by simp, fun _ _ => rfl, by simp, fun _ h => h⟩
  | cons m ns ih =>
    obtain ⟨notin, once⟩ := List.nodup_cons.mp once
    have first := s.resetFn_resets ⟨l, m⟩ own
    have rest := ih once (s.resetFn ⟨l, m⟩ own)
    rw [List.foldl_cons]
    refine ⟨first.only.comp rest.only, rest.bare.trans first.bare, fun j hj => (rest.links j hj).trans (first.links j hj), fun n hn => ?_, fun n hn => ?_,
      fun n hn pos => ?_, fun g hg => rest.unlocked g (first.unlocked g hg)⟩
    · by_cases hnm : n = m
      · subst hnm
        rw [rest.missed n notin, first.self]
      · rw [rest.hit n ((List.mem_cons.mp hn).resolve_left hnm), first.others _ (FnId.key_ne hnm)]
    · rw [List.mem_cons, not_or] at hn
      rw [rest.missed n hn.2, first.others _ (FnId.key_ne hn.1)]
    · by_cases hnm : n = m
      · subst hnm
        exact rest.unlocked _ (by rw [first.glove pos])
      · have := rest.tdis n ((List.mem_cons.mp hn).resolve_left hnm) pos
        rwa [first.only.gloveOf (by decide)] at this

theorem State.resetFns_resets (s : State) (l : Nat) (own : Bool) (hit : Nat → Bool) :
    State.ResetsFns l ((List.range ((s.range l).2 + 1)).filter hit) s (s.resetFns l own hit) :=
  foldl_resetFn own l (List.nodup_range.filter hit) s

/-- Of a link whose requests are ended and whose functions are reset. -/
theorem State.EndsOn.resets {l : Nat} {ns : List Nat} {s t u : State} (e : State.EndsOn l s t) (r : State.ResetsFns l ns t u) :
    OnlyIn [.host, .work, .net, .trust] s u ∧ (u.link l).bare = (s.link l).bare ∧ (∀ j, j ≠ l → u.link j = s.link j) ∧ (∀ n ∈ ns, u.fn ⟨l, n⟩ = (s.fn ⟨l, n⟩).reset) ∧
      (∀ n ∈ ns, 0 < n → (u.glove (s.gloveOf ⟨l, n⟩)).tdi = .unlocked) :=
  ⟨(e.only.trans r.only).mono (by decide), r.bare.trans e.bare, fun j hj => (r.links j hj).trans (e.links j hj),
    fun n hn => (r.hit n hn).trans (e.sticky _), fun n hn pos => by
      have := r.tdis n hn pos
      rwa [e.only.gloveOf (by decide)] at this⟩

section Pf0
variable (s : State) (l : Nat)

theorem State.resetSriov_onlyIn : OnlyIn [.host] s (s.resetSriov l) := onlyIn_iff.mpr (by simp [State.resetSriov])
@[simp] theorem State.resetSriov_fn (f : FnId) : (s.resetSriov l).fn f = s.fn f := rfl
@[simp] theorem State.resetSriov_glove (g : Nat) : (s.resetSriov l).glove g = s.glove g := rfl
theorem State.resetSriov_link : (s.resetSriov l).link l = { s.link l with
    numVfs := 0, vfEnable := false, vfMse := false, vfBar0 := 0, vfBar2 := 0, unitBase := 0, vfSize := (s.boot.cfg.bars.getD l (false, 21)).2 } :=
  State.modLink_same ..
theorem State.resetSriov_link_ne {j : Nat} (hj : j ≠ l) : (s.resetSriov l).link j = s.link j := State.modLink_ne _ _ _ hj

theorem State.endSessions_onlyIn : OnlyIn [.host, .trust] s (s.endSessions l) := onlyIn_iff.mpr (by simp [State.endSessions])
@[simp] theorem State.endSessions_fn (f : FnId) : (s.endSessions l).fn f = s.fn f := rfl
@[simp] theorem State.endSessions_glove (g : Nat) : (s.endSessions l).glove g = s.glove g := rfl
theorem State.endSessions_link : (s.endSessions l).link l = { s.link l with sessions := [] } := State.modLink_same ..
theorem State.endSessions_link_ne {j : Nat} (hj : j ≠ l) : (s.endSessions l).link j = s.link j := State.modLink_ne _ _ _ hj

end Pf0

/-! ### The commands -/

section Commands
variable {s : State}

theorem exec_flrStart_shut {f : FnId} (shut : s.cfgOpen f = false) : exec (.flrStart f) s = .next s := by
  simp [exec, execFlrStart, shut]

theorem exec_flrStart_vf {f : FnId} (open' : s.cfgOpen f = true) (vf : 0 < f.fn) :
    exec (.flrStart f) s = .next ((((s.endRequests f.link (· == f.fn) 0x0035).resetFn f true).modFn f
      (fun x => { x with flr := true })).modUsage (s.gloveOf f) (fun u => { u with linkEvent := true })) := by
  refine congrArg Host.Outcome.next ((if_neg (by simp [open'])).trans ?_)
  refine (if_neg (by simpa using Nat.ne_of_gt vf)).trans ?_
  rfl

theorem exec_flrStart_pf {l : Nat} (open' : s.cfgOpen ⟨l, 0⟩ = true) :
    exec (.flrStart ⟨l, 0⟩) s = .next ((((((s.endRequests l (fun _ => true) 0x0035).resetFns l true (fun _ => true)).resetSriov l).endSessions
      l)).modFn ⟨l, 0⟩ (fun x => { x with flr := true })) :=
  congrArg Host.Outcome.next ((if_neg (by simp [open'])).trans (if_pos rfl))

theorem exec_flrComplete (f : FnId) : exec (.flrComplete f) s = .next (s.modFn f (fun x => { x with flr := false })) := rfl

theorem exec_vfEnableClear {l : Nat} (open' : s.cfgOpen ⟨l, 0⟩ = true) (on : (s.link l).vfEnable = true) :
    exec (.vfEnableClear l) s = .next (((s.endRequests l (· != 0) 0x0035).resetFns l true (· != 0)).modLink l
      (fun x => { x with vfEnable := false })) :=
  congrArg Host.Outcome.next (if_pos (by simp [open', on]))

theorem exec_vfEnableClear_idle {l : Nat} (idle : s.cfgOpen ⟨l, 0⟩ = false ∨ (s.link l).vfEnable = false) :
    exec (.vfEnableClear l) s = .next s :=
  congrArg Host.Outcome.next (if_neg (by rcases idle with h | h <;> simp [h]))

theorem exec_vfEnableSet {l : Nat} (open' : s.cfgOpen ⟨l, 0⟩ = true) :
    exec (.vfEnableSet l) s = .next (s.modLink l (fun x => { x with vfEnable := true })) := congrArg Host.Outcome.next (if_pos open')

theorem exec_vfEnableSet_shut {l : Nat} (shut : s.cfgOpen ⟨l, 0⟩ = false) : exec (.vfEnableSet l) s = .next s :=
  congrArg Host.Outcome.next (if_neg (by simp [shut]))

theorem exec_numvfsWrite_shut {l v : Nat} (shut : s.cfgOpen ⟨l, 0⟩ = false) : exec (.numvfsWrite l v) s = .next s :=
  congrArg Host.Outcome.next (if_pos (by simp [shut]))

section NumVfs
variable {l v : Nat} (open' : s.cfgOpen ⟨l, 0⟩ = true)
include open'

theorem exec_numvfsWrite_above (above : (s.range l).2 < v) : exec (.numvfsWrite l v) s = .next (s.reject ⟨l, 0⟩ 0x0003 2 0x190) :=
  congrArg Host.Outcome.next ((if_neg (by simp [open'])).trans (if_pos above))

theorem exec_numvfsWrite_enabled (fits : v ≤ (s.range l).2) (on : (s.link l).vfEnable = true) (new : v ≠ (s.link l).numVfs) :
    exec (.numvfsWrite l v) s = .next (s.reject ⟨l, 0⟩ 0x0002 2 0x190) :=
  congrArg Host.Outcome.next ((if_neg (by simp [open'])).trans ((if_neg (by omega)).trans (if_pos (by simp [on, new]))))

theorem exec_numvfsWrite (fits : v ≤ (s.range l).2) (free : (s.link l).vfEnable = false ∨ v = (s.link l).numVfs) :
    exec (.numvfsWrite l v) s = .next (s.modLink l (fun x => { x with numVfs := v })) :=
  congrArg Host.Outcome.next ((if_neg (by simp [open'])).trans ((if_neg (by omega)).trans
    (if_neg (by rcases free with h | h <;> simp [h]))))

end NumVfs

theorem flrStart_vf_effect {f : FnId} (open' : s.cfgOpen f = true) (vf : 0 < f.fn) : ∃ t, exec (.flrStart f) s = .next t ∧
    t.fn f = { (s.fn f).reset with flr := true } ∧ (∀ q : QId, q.fnId = f → q.q < 128 → t.queue q = {}) ∧
    t.glove (s.gloveOf f) = { s.glove (s.gloveOf f) with tdi := .unlocked, stream := none } ∧
    (∀ g, g ≠ s.gloveOf f → t.glove g = s.glove g) ∧ (∀ l, l ≠ f.link → t.link l = s.link l) ∧
    OnlyIn [.host, .work, .net, .trust, .usg] s t := by
  have e := s.endRequests_endsOn f.link (· == f.fn) 0x0035
  have r := (s.endRequests f.link (· == f.fn) 0x0035).resetFn_resets f true
  have gloves (g : Nat) : (s.endRequests f.link (· == f.fn) 0x0035).glove g = s.glove g :=
    State.glove_congr (congrArg Trust.gloves (e.only.agree .trust (by decide))) g
  refine ⟨_, exec_flrStart_vf open' vf, ?_, r.queues, ?_, fun g hg => ?_, fun l hl => (r.links l hl).trans (e.links l hl), ?_⟩
  · rw [State.modUsage_fn, State.modFn_same, r.self, e.sticky]
  · have := r.glove vf
    rwa [e.only.gloveOf (by decide), gloves] at this
  · exact (r.gloves g (by rwa [e.only.gloveOf (by decide)])).trans (gloves g)
  · exact ((e.only.trans r.only).trans (onlyIn_iff.mpr (by simp) : OnlyIn [.host, .usg] _ _)).mono (by decide)


section Pf
variable {l : Nat} (open' : s.cfgOpen ⟨l, 0⟩ = true)

theorem mem_filter_range {hit : Nat → Bool} {k n : Nat} (le : n ≤ k) (h : hit n = true) : n ∈ (List.range (k + 1)).filter hit := by
  simpa [h] using Nat.lt_succ_of_le le

/-- The functions that `hit` picks are reset, with their requests ended first. -/
theorem State.endReset_effect (hit : Nat → Bool) (code : Nat) (own : Bool) :
    OnlyIn [.host, .work, .net, .trust] s ((s.endRequests l hit code).resetFns l own hit) ∧
    (((s.endRequests l hit code).resetFns l own hit).link l).bare = (s.link l).bare ∧
    (∀ j, j ≠ l → ((s.endRequests l hit code).resetFns l own hit).link j = s.link j) ∧
    ∀ n ≤ (s.range l).2, hit n = true → ((s.endRequests l hit code).resetFns l own hit).fn ⟨l, n⟩ = (s.fn ⟨l, n⟩).reset ∧
      (0 < n → (((s.endRequests l hit code).resetFns l own hit).glove (s.gloveOf ⟨l, n⟩)).tdi = .unlocked) := by
  have e := s.endRequests_endsOn l hit code
  have range : (s.endRequests l hit code).range l = s.range l := by
    rw [State.range, e.only.agree .boot (by decide), State.range]
  obtain ⟨only, bare, links, regs, tdis⟩ := e.resets ((s.endRequests l hit code).resetFns_resets l own hit)
  rw [range] at regs tdis
  exact ⟨only, bare, links, fun n le h => ⟨regs n (mem_filter_range le h), tdis n (mem_filter_range le h)⟩⟩

include open'

theorem flrStart_pf_effect : ∃ t, exec (.flrStart ⟨l, 0⟩) s = .next t ∧
    t.fn ⟨l, 0⟩ = { (s.fn ⟨l, 0⟩).reset with flr := true } ∧
    (∀ n, 0 < n → n ≤ (s.range l).2 → (t.fn ⟨l, n⟩).bme = false ∧ (t.glove (s.gloveOf ⟨l, n⟩)).tdi = .unlocked) ∧
    (t.link l).vfEnable = false ∧ (t.link l).numVfs = 0 ∧ (t.link l).vfBar0 = 0 ∧ (t.link l).vfBar2 = 0 ∧ (t.link l).sessions = [] ∧
    (∀ j, j ≠ l → t.link j = s.link j) ∧ OnlyIn [.host, .work, .net, .trust] s t := by
  rw [exec_flrStart_pf open']
  obtain ⟨only, -, links, fns⟩ := State.endReset_effect (s := s) (l := l) (fun _ => true) 0x0035 true
  generalize (s.endRequests l (fun _ => true) 0x0035).resetFns l true (fun _ => true) = u at only links fns ⊢
  have link : ((u.resetSriov l).endSessions l).link l = { (u.resetSriov l).link l with sessions := [] } := State.endSessions_link ..
  rw [State.resetSriov_link] at link
  refine ⟨_, rfl, ?_, fun n pos le => ⟨?_, (fns n le rfl).2 pos⟩, ?_, ?_, ?_, ?_, ?_, fun j hj => ?_, ?_⟩
  · rw [State.modFn_same]
    exact congrArg (fun x : Fn => { x with flr := true }) (fns 0 (Nat.zero_le _) rfl).1
  · rw [State.modFn_ne _ _ _ (FnId.key_ne (Nat.ne_of_gt pos))]
    exact congrArg Fn.bme (fns n le rfl).1
  iterate 5
    rw [State.modFn_link, link]
  · rw [State.modFn_link, State.endSessions_link_ne _ _ hj, State.resetSriov_link_ne _ _ hj, links j hj]
  · have h (t : State) : OnlyIn [.host] t (t.modFn ⟨l, 0⟩ fun x => { x with flr := true }) := onlyIn_iff.mpr (by simp)
    exact (((only.trans (u.resetSriov_onlyIn l)).trans (State.endSessions_onlyIn _ l)).trans (h _)).mono (by decide)

theorem vfEnableClear_effect (on : (s.link l).vfEnable = true) : ∃ t, exec (.vfEnableClear l) s = .next t ∧ (t.link l).vfEnable = false ∧
    (∀ n, 0 < n → n ≤ (s.range l).2 → t.fn ⟨l, n⟩ = (s.fn ⟨l, n⟩).reset ∧ (t.glove (s.gloveOf ⟨l, n⟩)).tdi = .unlocked) ∧
    (∀ j, j ≠ l → t.link j = s.link j) ∧ OnlyIn [.host, .work, .net, .trust] s t := by
  rw [exec_vfEnableClear open' on]
  obtain ⟨only, -, links, fns⟩ := State.endReset_effect (s := s) (l := l) (· != 0) 0x0035 true
  generalize (s.endRequests l (· != 0) 0x0035).resetFns l true (· != 0) = u at only links fns ⊢
  have picked {n : Nat} (pos : 0 < n) : (n != 0) = true := by simpa using Nat.ne_of_gt pos
  refine ⟨_, rfl, ?_, fun n pos le => ⟨(fns n le (picked pos)).1, (fns n le (picked pos)).2 pos⟩,
    fun j hj => (State.modLink_ne _ _ _ hj).trans (links j hj), only.comp (onlyIn_iff.mpr (by simp))⟩
  rw [State.modLink_same]

end Pf

end Commands

/-- Settles O34: an FLR, or VF Enable falling, ends the requests of the functions and resets each once. -/
theorem functionResetCommandsComplete : Obligations.FunctionResetCommandsComplete := by
  unfold Obligations.FunctionResetCommandsComplete
  refine ⟨fun s f => flrStart_vf_effect, fun s l open' => ?_, fun s f => ?_, fun s l => vfEnableClear_effect, fun s l open' => ?_,
    fun s l v open' _ same fits => exec_numvfsWrite open' fits (.inr same), fun s l _ off => exec_vfEnableClear_idle (.inr off),
    fun s f => exec_flrStart_shut, fun s l v shut => ?_⟩
  · obtain ⟨t, step, pf0, rest⟩ := flrStart_pf_effect open'
    exact ⟨t, step, by rw [pf0], by rw [pf0]; rfl, rest⟩
  · exact ⟨_, exec_flrComplete f, State.modFn_same .., fun j hj => State.modFn_ne _ _ _ hj, fun _ => rfl, onlyIn_iff.mpr (by simp)⟩
  · exact ⟨exec_vfEnableSet open', fun v => exec_numvfsWrite_above open', fun v fits off => exec_numvfsWrite open' fits (.inl off),
      fun v => exec_numvfsWrite_enabled open'⟩
  · exact ⟨exec_vfEnableSet_shut shut, exec_vfEnableClear_idle (.inl shut), exec_numvfsWrite_shut shut⟩

end Sys2Proof.Machine
end

