-- ==== Sys2Proof/Proofs/BarWrites.lean ====
section
/-! PROOFS. BARs and the TDIs that a change fails (R94, R180-R191). -/

namespace Sys2Proof.Machine

/-! ### What the boundaries of Fingers leave of the functions -/

/-- A function but for what a Finger's end touches: its causes and who waits on its event register. -/
def Fn.settled (x : Fn) : Fn := { x with cause := 0, waiters := [] }

section Fingers
variable (s : State) (f : FgId) (j : FnId)

@[simp] theorem State.unwait_settled : ((s.unwait f).fn j).settled = (s.fn j).settled := State.modFn_view Fn.settled s _ _ (by intro; rfl) j

@[simp] theorem State.raiseCause_settled (i : FnId) (b : Nat) : ((s.raiseCause i b).fn j).settled = (s.fn j).settled := by
  unfold State.raiseCause
  split
  · simpa using State.modFn_view Fn.settled s i _ (by intro; rfl) j
  · rfl

@[simp] theorem State.fgFinish_settled (c r : Nat) : ((s.fgFinish f c r).fn j).settled = (s.fn j).settled := by
  simp only [State.fgFinish]
  split <;> simp

@[simp] theorem State.fgSettle_settled : ((s.fgSettle f).fn j).settled = (s.fn j).settled := by
  simp only [State.fgSettle]
  repeat' split
  all_goals simp

@[simp] theorem State.fgHalt_settled' (h : Halt) : ((s.fgHalt f h).fn j).settled = (s.fn j).settled := by
  simp only [State.fgHalt]
  split <;> simp

@[simp] theorem State.fgBoundary_settled : ((s.fgBoundary f).fn j).settled = (s.fn j).settled := by
  simp only [State.fgBoundary]
  repeat' split
  all_goals simp

@[simp] theorem State.fgStopCode_settled (c : Nat) : ((s.fgStopCode f c).fn j).settled = (s.fn j).settled := by
  simp only [State.fgStopCode]
  split <;> simp

end Fingers

/-! ### TDIs that go to ERROR (R94, R97) -/

/-- What the failure of TDIs leaves: the links, the functions but for causes and waiters, and every glove but for its TDI. -/
structure State.FailsTdis (s t : State) : Prop where
  links : t.host.links = s.host.links
  settled : ∀ j, (t.fn j).settled = (s.fn j).settled
  stays : ∀ g, (s.glove g).tdi = .error → (t.glove g).tdi = .error

theorem State.FailsTdis.trans {s t u : State} (h : s.FailsTdis t) (k : t.FailsTdis u) : s.FailsTdis u :=
  ⟨k.links.trans h.links, fun j => (k.settled j).trans (h.settled j), fun g hg => k.stays g (h.stays g hg)⟩

section Tdi
variable (s : State)

theorem State.tdiError_trust (g : Nat) : (s.tdiError g).trust = (s.modGlove g fun x => { x with tdi := .error }).trust := by
  unfold State.tdiError
  split
  · rfl
  · rw [State.raiseCause_gtrust]
    exact foldl_same (fun s : State => s.trust) _ _ _ fun s i => by simp

theorem State.tdiError_glove (g j : Nat) : (s.tdiError g).glove j = (s.modGlove g fun x => { x with tdi := .error }).glove j :=
  State.glove_congr (congrArg Trust.gloves (s.tdiError_trust g)) j

theorem State.tdiError_fails (g : Nat) : s.FailsTdis (s.tdiError g) where
  links := by
    unfold State.tdiError
    split
    · rfl
    · rw [State.raiseCause_links]
      exact foldl_same (fun s : State => s.host.links) _ _ _ fun s i => by simp
  settled j := by
    unfold State.tdiError
    split
    · rfl
    · rw [State.raiseCause_settled]
      exact foldl_same (fun s : State => (s.fn j).settled) _ _ _ fun s i => by simp
  stays i hi := by
    rw [State.tdiError_glove]
    by_cases h : i = g
    · rw [h, State.modGlove_same]
    · rw [State.modGlove_ne _ _ _ h, hi]

/-- A step of `linkTdisError`: a TDI that can fail goes to ERROR. -/
theorem State.tdiStep_fails (g : Nat) : s.FailsTdis (if (s.glove g).tdiLive then s.tdiError g else s) := by
  split
  · exact s.tdiError_fails g
  · exact ⟨rfl, fun _ => rfl, fun _ h => h⟩

theorem foldl_tdiStep_fails (gs : List Nat) :
    s.FailsTdis (gs.foldl (fun s g => if (s.glove g).tdiLive then s.tdiError g else s) s) := by
  induction gs generalizing s with
  | nil => exact ⟨rfl, fun _ => rfl, fun _ h => h⟩
  | cons g gs ih => exact (s.tdiStep_fails g).trans (ih _)

theorem foldl_tdiStep_error {gs : List Nat} {g : Nat} (mem : g ∈ gs) (live : (s.glove g).tdiLive = true) :
    ((gs.foldl (fun s g => if (s.glove g).tdiLive then s.tdiError g else s) s).glove g).tdi = .error := by
  induction gs generalizing s with
  | nil => exact absurd mem (by simp)
  | cons i gs ih =>
    rw [List.foldl_cons]
    by_cases h : g = i
    · subst h
      refine (foldl_tdiStep_fails _ gs).stays g ?_
      rw [if_pos live, State.tdiError_glove, State.modGlove_same]
    · refine ih _ ((List.mem_cons.mp mem).resolve_left h) ?_
      split
      · rwa [State.tdiError_glove, State.modGlove_ne _ _ _ h]
      · exact live

theorem State.linkTdisError_fails (l : Nat) : s.FailsTdis (s.linkTdisError l) := foldl_tdiStep_fails ..

theorem State.linkTdisError_error {l g : Nat} (mem : g ∈ s.glovesOf l) (live : (s.glove g).tdi = .locked ∨ (s.glove g).tdi = .run) :
    ((s.linkTdisError l).glove g).tdi = .error :=
  foldl_tdiStep_error s mem (by rcases live with h | h <;> simp [Glove.tdiLive, h])

theorem State.FailsTdis.link {s t : State} (h : s.FailsTdis t) (j : Nat) : t.link j = s.link j :=
  congrArg (fun x => Tbl.get ({} : Link) x j) h.links

end Tdi

/-! ### A VF BAR is written -/

section VfBar
variable {s : State} {l : Nat}

/-- A VF BAR is written: the TDIs fail where it changes. -/
def State.vfBarWritten (s : State) (l : Nat) (m : Link → Link) (same : Bool) : State :=
  if same then s.modLink l m else (s.modLink l m).linkTdisError l

theorem State.vfBarWritten_fails (m : Link → Link) (same : Bool) : (s.modLink l m).FailsTdis (s.vfBarWritten l m same) := by
  unfold State.vfBarWritten
  split
  · exact ⟨rfl, fun _ => rfl, fun _ h => h⟩
  · exact State.linkTdisError_fails _ l

theorem State.vfBarWritten_link (m : Link → Link) (same : Bool) : (s.vfBarWritten l m same).link l = m (s.link l) := by
  rw [(s.vfBarWritten_fails m same).link, State.modLink_same]

theorem State.vfBarWritten_link_ne (m : Link → Link) (same : Bool) {j : Nat} (hj : j ≠ l) : (s.vfBarWritten l m same).link j = s.link j := by
  rw [(s.vfBarWritten_fails m same).link, State.modLink_ne _ _ _ hj]

theorem State.vfBarWritten_error (m : Link → Link) {g : Nat} (mem : g ∈ s.glovesOf l)
    (live : (s.glove g).tdi = .locked ∨ (s.glove g).tdi = .run) : ((s.vfBarWritten l m false).glove g).tdi = .error :=
  State.linkTdisError_error (s.modLink l m) mem live

/-- A write of a VF BAR whose field `field` takes the value `n` (R94, R191). -/
theorem vfBarWritten_effect {m : Link → Link} {field : Link → Nat} {n : Nat} (takes : ∀ x, field (m x) = n) :
    field ((s.vfBarWritten l m (n == field (s.link l))).link l) = n ∧
      (∀ j, j ≠ l → (s.vfBarWritten l m (n == field (s.link l))).link j = s.link j) ∧
      (field ((s.vfBarWritten l m (n == field (s.link l))).link l) ≠ field (s.link l) →
        ∀ g ∈ s.glovesOf l, ((s.glove g).tdi = .locked ∨ (s.glove g).tdi = .run) →
          ((s.vfBarWritten l m (n == field (s.link l))).glove g).tdi = .error) := by
  refine ⟨by rw [State.vfBarWritten_link, takes], fun j hj => State.vfBarWritten_link_ne _ _ hj, fun changed g mem live => ?_⟩
  rw [State.vfBarWritten_link, takes] at changed
  rw [beq_false_of_ne changed]
  exact State.vfBarWritten_error m mem live

/-- A field that no Finger's end touches. -/
theorem vfBarWritten_bar0 (m : Link → Link) (same : Bool) (f : FnId) : ((s.vfBarWritten l m same).fn f).bar0 = (s.fn f).bar0 :=
  show ((s.vfBarWritten l m same).fn f).settled.bar0 = (s.fn f).settled.bar0 from congrArg Fn.bar0 ((s.vfBarWritten_fails m same).settled f)

end VfBar

/-! ### The commands -/

section Commands
variable {s : State} {l v : Nat}

theorem exec_barWrite_shut (shut : s.cfgOpen ⟨l, 0⟩ = false) (b : BarField) : exec (.barWrite l b v) s = .next s :=
  congrArg Host.Outcome.next (if_pos (by simp [shut]))

theorem exec_vfBarSizeWrite_shut (shut : s.cfgOpen ⟨l, 0⟩ = false) : exec (.vfBarSizeWrite l v) s = .next s :=
  congrArg Host.Outcome.next (if_pos (by simp [shut]))

variable (open' : s.cfgOpen ⟨l, 0⟩ = true)
include open'

theorem exec_barWrite_bar0 : exec (.barWrite l .bar0 v) s =
    .next (s.modFn ⟨l, 0⟩ (fun y => { y with bar0 := v % 2 ^ 64 / 0x4000000 * 0x4000000 })) :=
  congrArg Host.Outcome.next (if_neg (by simp [open']))

theorem exec_barWrite_vfStride : exec (.barWrite l .vfStride v) s = .next s := congrArg Host.Outcome.next (if_neg (by simp [open']))

theorem exec_barWrite_msixTable (n : Nat) : exec (.barWrite l (.msixTable n) v) s = .next s :=
  congrArg Host.Outcome.next (if_neg (by simp [open']))

theorem exec_barWrite_vfBar0 : exec (.barWrite l .vfBar0 v) s = .next (s.vfBarWritten l
    (fun y => { y with vfBar0 := v % 2 ^ 32 / 0x100000 * 0x100000 }) (v % 2 ^ 32 / 0x100000 * 0x100000 == (s.link l).vfBar0)) :=
  congrArg Host.Outcome.next (if_neg (by simp [open']))

theorem exec_barWrite_vfBar2 : exec (.barWrite l .vfBar2 v) s = .next (s.vfBarWritten l
    (fun y => { y with vfBar2 := v % 2 ^ 64 / 2 ^ (s.link l).vfSize * 2 ^ (s.link l).vfSize })
    (v % 2 ^ 64 / 2 ^ (s.link l).vfSize * 2 ^ (s.link l).vfSize == (s.link l).vfBar2)) :=
  congrArg Host.Outcome.next (if_neg (by simp [open']))

section Size
variable {w : Nat} (bars : s.boot.cfg.bars.getD l (false, 21) = (true, w)) (new : v + 20 ≠ (s.link l).vfSize)
include bars new

theorem exec_vfBarSizeWrite_refused (bad : (s.link l).vfMse = true ∨ v = 0 ∨ w < v + 20) :
    exec (.vfBarSizeWrite l v) s = .next (s.reject ⟨l, 0⟩ 0x0002 2 0x338) := by
  refine congrArg Host.Outcome.next ?_
  simp only [bars]
  refine (if_neg (by simp [open'])).trans ((if_neg (by simpa using new)).trans (if_pos ?_))
  simpa [or_assoc] using bad

theorem exec_vfBarSizeWrite (off : (s.link l).vfMse = false) (pos : 0 < v) (fits : v + 20 ≤ w) :
    exec (.vfBarSizeWrite l v) s = .next (s.vfBarWritten l
      (fun y => { y with vfSize := v + 20, vfBar2 := y.vfBar2 / 2 ^ (v + 20) * 2 ^ (v + 20) }) false) := by
  refine congrArg Host.Outcome.next ?_
  simp only [bars]
  refine (if_neg (by simp [open'])).trans ((if_neg (by simpa using new)).trans (if_neg ?_))
  simpa [off] using ⟨Nat.ne_of_gt pos, fits⟩

end Size

theorem exec_vfBarSizeWrite_idle (idle : (s.boot.cfg.bars.getD l (false, 21)).1 = false ∨ v + 20 = (s.link l).vfSize) :
    exec (.vfBarSizeWrite l v) s = .next s := by
  refine congrArg Host.Outcome.next ?_
  obtain ⟨⟨r, w⟩, bars⟩ : ∃ b, s.boot.cfg.bars.getD l (false, 21) = b := ⟨_, rfl⟩
  rw [bars] at idle
  simp only [bars]
  rcases idle with h | h
  · exact if_pos (by simp [show r = false from h])
  · split
    · rfl
    · exact if_pos (by simpa using h)

end Commands

/-- Settles O35: a VF BAR that changes sends every TDI of the link that can fail to ERROR. -/
theorem barCommandsComplete : Obligations.BarCommandsComplete := by
  unfold Obligations.BarCommandsComplete
  refine ⟨fun s l v open' => ⟨⟨exec_barWrite_bar0 open', ?_, ?_, exec_barWrite_vfStride open', exec_barWrite_msixTable open'⟩, ?_, ?_,
    exec_vfBarSizeWrite_idle open'⟩, fun s l v b shut => ⟨exec_barWrite_shut shut b, exec_vfBarSizeWrite_shut shut⟩⟩
  · obtain ⟨value, links, tdis⟩ := vfBarWritten_effect (field := Link.vfBar0) (n := v % 2 ^ 32 / 0x100000 * 0x100000)
      (m := fun y => { y with vfBar0 := v % 2 ^ 32 / 0x100000 * 0x100000 }) (fun _ => rfl)
    exact ⟨_, exec_barWrite_vfBar0 open', value, links, vfBarWritten_bar0 _ _, tdis⟩
  · exact ⟨_, exec_barWrite_vfBar2 open', vfBarWritten_effect (field := Link.vfBar2) (fun _ => rfl)⟩
  · intro resizable new
    obtain ⟨⟨r, w⟩, bars⟩ : ∃ b, s.boot.cfg.bars.getD l (false, 21) = b := ⟨_, rfl⟩
    rw [bars] at resizable ⊢
    obtain rfl : r = true := resizable
    refine ⟨fun off pos fits => ⟨_, exec_vfBarSizeWrite open' bars new off pos fits, ?_, ?_, fun j hj => State.vfBarWritten_link_ne _ _ hj,
      fun g mem live => State.vfBarWritten_error _ mem live⟩, fun on => exec_vfBarSizeWrite_refused open' bars new (.inl on)⟩ <;>
      rw [State.vfBarWritten_link]
  · intro resizable new bad
    obtain ⟨⟨r, w⟩, bars⟩ : ∃ b, s.boot.cfg.bars.getD l (false, 21) = b := ⟨_, rfl⟩
    rw [bars] at resizable bad
    obtain rfl : r = true := resizable
    exact exec_vfBarSizeWrite_refused open' bars new (.inr bad)

end Sys2Proof.Machine
end

