-- ==== Sys2Proof/Proofs/BusMasters.lean ====
section
/-! PROOFS. Bus Master Enable (R328-R331). -/

namespace Sys2Proof.Machine

/-! ### The count of discarded writes at a bus master's clearing

`dropPosted` adds what it discards to the link's 32-bit count and keeps the sum below 2^32, also where it discards nothing. -/

/-- Nothing to discard: the count alone is brought below 2^32. -/
theorem State.dropPosted_none {s : State} {l : Nat} {hit : Packet → Bool} (code : Nat) (empty : (s.link l).txq = []) :
    s.dropPosted l hit code = s.modLink l (fun x =>
      { x with txq := x.txq.filter (fun t => !(t.posted && hit t.pkt)), discarded := x.discarded % 2 ^ 32 }) := by
  simp [State.dropPosted, empty]

/-- PF0 of link 0 in service, a bus master with nothing queued, whose link's count has left its 32 bits. -/
def countOverflown : State :=
  { sys := { devRst := false, mode := .service }
    boot := { cfg := { cuffModes := [1] } }
    host := { fns := [(0, { bme := true })], links := [(0, { ready := true, up := true, discarded := 2 ^ 32 })] } }

/-- The stop of a function's Fingers leaves the links. -/
theorem foldl_fgStopCode_link (fs : List FgId) (code l : Nat) (s : State) :
    (fs.foldl (fun s i => s.fgStopCode i code) s).link l = s.link l :=
  foldl_same (fun s : State => s.link l) _ _ _ fun s i => congrArg (fun t => Tbl.get ({} : Link) t l) (s.fgStopCode_links i code)

theorem countOverflown_wraps {t : State} (runs : exec (.bmeClear ⟨0, 0⟩) countOverflown = .next t) : (t.link 0).discarded = 0 := by
  have step : exec (.bmeClear ⟨0, 0⟩) countOverflown = .next ((fingersOf ⟨0, 0⟩).foldl (fun s i => s.fgStopCode i 0x0031)
      ((countOverflown.modFn ⟨0, 0⟩ (fun x => { x with bme := false })).withdraw ⟨0, 0⟩ |>.dropPosted 0
        (fun p => p.fn == 0 && !((countOverflown.modFn ⟨0, 0⟩ (fun x => { x with bme := false })).withdraw ⟨0, 0⟩).isQmgr p) 0x0031)) := rfl
  rw [← Host.Outcome.next.inj (step.symm.trans runs), foldl_fgStopCode_link, State.dropPosted_none _ (by rfl), State.modLink_same]
  rfl

/-- Refutes O36: clearing BME with nothing queued still brings the link's count of discarded writes below 2^32, so a state whose count
is not below it does not keep its link. -/
theorem not_busMasterAndPowerStateCommandsComplete : ¬ Obligations.BusMasterAndPowerStateCommandsComplete := by
  unfold Obligations.BusMasterAndPowerStateCommandsComplete
  rintro ⟨commands, -⟩
  obtain ⟨clear, -⟩ := commands countOverflown ⟨0, 0⟩ (by decide)
  obtain ⟨t, runs, -, -, links, -⟩ := clear (by decide) (by decide) rfl rfl
  have wraps := countOverflown_wraps runs
  rw [links 0] at wraps
  exact absurd wraps (by decide)

end Sys2Proof.Machine
end

