-- ==== Sys2Proof/Proofs/LinkEvents.lean ====
section
/-! PROOFS. Events of a host link (R286-R293, R333, R335, R505). -/

namespace Sys2Proof.Machine

/-! ### WAKE# of a link (R290) -/

section WakePin
variable (s : State) (l : Nat)

/-- A link drives WAKE# low: in L2, with a PME to send. -/
def State.wakeWanted : Bool := (s.link l).power == .l2 && s.host.fns.any (fun e => e.1 / 256 == l && e.2.hasPme)

theorem State.wakeUpdate_link : (s.wakeUpdate l).link l = { s.link l with wake := s.wakeWanted l } := by
  unfold State.wakeUpdate
  extract_lets want
  split
  next same =>
    have same : (s.link l).wake = s.wakeWanted l := eq_of_beq same
    rw [← same]
  · exact State.modLink_same ..

theorem State.wakeUpdate_link_ne {j : Nat} (hj : j ≠ l) : (s.wakeUpdate l).link j = s.link j := by
  unfold State.wakeUpdate
  extract_lets want
  split
  · rfl
  · exact State.modLink_ne _ _ _ hj

@[simp] theorem State.wakeUpdate_fn (f : FnId) : (s.wakeUpdate l).fn f = s.fn f := by
  unfold State.wakeUpdate
  extract_lets want
  split <;> rfl

theorem State.wakeUpdate_onlyIn : OnlyIn [.host, .out] s (s.wakeUpdate l) := by
  unfold State.wakeUpdate
  extract_lets want
  split
  · exact .refl _ s
  · exact onlyIn_iff.mpr (by simp)

theorem State.wakeUpdate_out (same : (s.link l).wake = s.wakeWanted l) : (s.wakeUpdate l).out = s.out := by
  unfold State.wakeUpdate
  extract_lets want
  rw [if_pos (by rw [same]; exact beq_self_eq_true _)]

/-- What a frame lists and is the same need not be listed. -/
theorem OnlyIn.same_out {ps : List Part} {s t : State} (h : OnlyIn (.out :: ps) s t) (same : t.out = s.out) : OnlyIn ps s t where
  agree p hp := by
    by_cases out : p = .out
    · subst out
      exact same
    · exact h.agree p (by simp [out, hp])

theorem State.edge_onlyIn (i : Nat) : OnlyIn [.evt] s (s.edge i) := onlyIn_iff.mpr (by simp)

end WakePin

/-! ### The loss of a link (R333, R335) -/

section Loss
variable (s : State) (l : Nat) (st : Ltssm)

/-- The link is down, its streams out and its sessions ended. -/
def State.linkLost : State :=
  (s.modLink l (fun x =>
    { x with up := false, ltssm := st, flit := false, rate := 0, width := 0, reversed := false, ready := false, power := .l0,
             downs := if (s.link l).up then satAdd 65535 x.downs 1 else x.downs,
             ide := x.ide.map (fun i => { i with secure := false, keys := [], active := none }) })).endSessions l

/-- A change of the link's gloves is noted in the ledger. -/
def State.noteLink : State :=
  { s with usg.usage := s.usg.usage.map (fun (g, u) => (g, { u with linkEvent := u.linkEvent || s.linkHas l g })) }

theorem State.loseLink_eq : s.loseLink l st =
    (((((((s.linkLost l st).endRequests l (fun _ => true) 0x0030).resetFns l false (fun _ => true)).resetSriov l).noteLink l).edge
      (linkSource l)).wakeUpdate l) := by
  unfold State.loseLink State.linkLost State.noteLink
  rfl

theorem State.linkLost_onlyIn : OnlyIn [.host, .trust] s (s.linkLost l st) := by
  have h (m : Link → Link) : OnlyIn [.host] s (s.modLink l m) := onlyIn_iff.mpr (by simp)
  exact ((h _).trans (State.endSessions_onlyIn _ l)).mono (by decide)

theorem State.noteLink_onlyIn : OnlyIn [.usg] s (s.noteLink l) := onlyIn_iff.mpr (by simp [State.noteLink])

/-- What the loss of a link that was up leaves of it, of its PF0 and of the rest. -/
structure State.LosesLink (l : Nat) (st : Ltssm) (s t : State) : Prop where
  up : (t.link l).up = false
  downs : (t.link l).downs = min 65535 ((s.link l).downs + 1)
  ltssm : (t.link l).ltssm = st
  perst : (t.link l).perst = (s.link l).perst
  sessions : (t.link l).sessions = []
  numVfs : (t.link l).numVfs = 0
  vfEnable : (t.link l).vfEnable = false
  ide : ∀ i ∈ (t.link l).ide, i.secure = false ∧ i.keys = []
  pf0 : t.fn ⟨l, 0⟩ = (s.fn ⟨l, 0⟩).reset
  others : ∀ j, j ≠ l → t.link j = s.link j
  only : OnlyIn [.host, .work, .net, .trust, .usg, .evt, .out] s t

theorem State.loseLink_loses (up : (s.link l).up = true) : State.LosesLink l st s (s.loseLink l st) := by
  rw [State.loseLink_eq]
  obtain ⟨only, bare, links, fns⟩ := State.endReset_effect (s := s.linkLost l st) (l := l) (fun _ => true) 0x0030 false
  generalize ((s.linkLost l st).endRequests l (fun _ => true) 0x0030).resetFns l false (fun _ => true) = u at only bare links fns ⊢
  have lost : (s.linkLost l st).link l = { s.link l with
      up := false, ltssm := st, flit := false, rate := 0, width := 0, reversed := false, ready := false, power := .l0,
      downs := min 65535 ((s.link l).downs + 1), ide := (s.link l).ide.map (fun i => { i with secure := false, keys := [], active := none }),
      sessions := [] } := by
    rw [State.linkLost, State.endSessions_link, State.modLink_same, if_pos up]
    rfl
  rw [lost] at bare
  have link : ((((u.resetSriov l).noteLink l).edge (linkSource l)).wakeUpdate l).link l = { (u.resetSriov l).link l with
      wake := (((u.resetSriov l).noteLink l).edge (linkSource l)).wakeWanted l } := by
    rw [State.wakeUpdate_link, State.edge_link]
    rfl
  rw [State.resetSriov_link] at link
  have field {β : Type} (v : Link → β) := congrArg v bare
  constructor
  case up => rw [link]; exact field Link.up
  case downs => rw [link]; exact field Link.downs
  case ltssm => rw [link]; exact field Link.ltssm
  case perst => rw [link]; exact field Link.perst
  case sessions => rw [link]; exact field Link.sessions
  case numVfs => rw [link]
  case vfEnable => rw [link]
  case ide =>
    intro i hi
    rw [link] at hi
    have streams : (u.link l).ide = _ := field Link.ide
    simp only [streams] at hi
    obtain ⟨j, -, rfl⟩ := List.mem_map.mp hi
    exact ⟨rfl, rfl⟩
  case pf0 =>
    rw [State.wakeUpdate_fn, State.edge_fn]
    exact (fns 0 (Nat.zero_le _) rfl).1
  case others =>
    intro j hj
    rw [State.wakeUpdate_link_ne _ _ hj, State.edge_link]
    refine ((State.resetSriov_link_ne _ _ hj).trans (links j hj)).trans ?_
    rw [State.linkLost, State.endSessions_link_ne _ _ hj, State.modLink_ne _ _ _ hj]
  case only =>
    exact ((((((s.linkLost_onlyIn l st).trans only).trans (u.resetSriov_onlyIn l)).trans (State.noteLink_onlyIn _ l)).trans
      (State.edge_onlyIn _ _)).trans (State.wakeUpdate_onlyIn _ l)).mono (by decide)

end Loss

/-! ### Widths (R292) -/

section Width
variable {s : State} {l w : Nat}

theorem State.modLink_modLink (s : State) (l : Nat) (m n : Link → Link) : (s.modLink l m).modLink l n = s.modLink l (fun x => n (m x)) := by
  simp only [State.modLink, Tbl.mod, Tbl.get_set_same, Tbl.set_set]

/-- A width without a retired lane stands. -/
theorem State.atWidth_free (free : s.lowFree l w = true ∨ s.topFree l w = true) :
    s.atWidth l w = s.modLink l (fun x => { x with width := w, reversed := !s.lowFree l w && s.topFree l w, wantWidth := none }) := by
  have h : (s.lowFree l w || s.topFree l w) = true := by simpa using free
  simp only [State.atWidth, h, if_true]

/-- A link asks for a width (R292). -/
def Link.asks (n : Nat) (x : Link) : Link :=
  if !x.up || x.l0p.contains n then { x with wantWidth := some n }
  else { x with wantWidth := some n, ltssm := .recovery, recoveries := satAdd 65535 x.recoveries 1 }

/-- By L0p, where the link partner advertises the width. -/
theorem Link.asks_l0p {x : Link} {n : Nat} (h : n ∈ x.l0p) : x.asks n = { x with wantWidth := some n } := by simp [Link.asks, h]

/-- By Recovery otherwise. -/
theorem Link.asks_recovery {x : Link} {n : Nat} (up : x.up = true) (h : n ∉ x.l0p) :
    x.asks n = { x with wantWidth := some n, ltssm := .recovery, recoveries := min 65535 (x.recoveries + 1) } := by
  simp [Link.asks, up, h, satAdd]

/-- A width with a retired lane is asked down. -/
theorem State.atWidth_asks {n : Nat} (low : s.lowFree l w = false) (top : s.topFree l w = false) (usable : s.usableWidth l = some n) :
    s.atWidth l w = s.modLink l (fun x => Link.asks n { x with width := w, reversed := false, wantWidth := none }) := by
  have asked : s.atWidth l w = (s.modLink l (fun x => { x with width := w, reversed := false, wantWidth := none })).modLink l (Link.asks n) := by
    simp only [State.atWidth, low, top, Bool.or_self, Bool.and_false, Bool.false_eq_true, if_false, usable]
    rfl
  rw [asked, State.modLink_modLink]

theorem OnlyIn.lanes {ps : List Part} {s t : State} (h : OnlyIn ps s t) (boot : .boot ∉ ps) (flt : .flt ∉ ps) :
    t.lowFree = s.lowFree ∧ t.topFree = s.topFree ∧ t.usableWidth = s.usableWidth := by
  have hb : t.boot = s.boot := h.agree .boot boot
  have hf : t.flt = s.flt := h.agree .flt flt
  have retired : t.laneRetired = s.laneRetired := by
    funext l i
    simp [State.laneRetired, State.laneBase, State.twoX8, hb, hf]
  have count : t.laneCount = s.laneCount := by
    funext l
    simp [State.laneCount, State.twoX8, hb]
  have low : t.lowFree = s.lowFree := by
    funext l w
    simp [State.lowFree, retired]
  have top : t.topFree = s.topFree := by
    funext l w
    simp [State.topFree, retired, count]
  exact ⟨low, top, by funext l; simp [State.usableWidth, low, top, count]⟩

end Width

/-! ### Training (R286, R289) -/

section Training
variable (s : State) (l rate w : Nat) (flit : Bool) (l0p : List Nat)

/-- The link is up in L0, its width not yet set; a link that was down raises its source. -/
def State.trained : State :=
  (if (s.link l).up then s else s.edge (linkSource l)).modLink l (fun x =>
    { x with up := true, ltssm := .l0, rate := s.trainRate l rate flit, flit := flit, l0p := l0p, ready := true, power := .l0 })

theorem State.trained_start_link (j : Nat) : (if (s.link l).up then s else s.edge (linkSource l)).link j = s.link j := by
  split
  · rfl
  · rw [State.edge_link]

theorem State.trained_link : (s.trained l rate flit l0p).link l = { s.link l with
    up := true, ltssm := .l0, rate := s.trainRate l rate flit, flit := flit, l0p := l0p, ready := true, power := .l0 } := by
  rw [State.trained, State.modLink_same, State.trained_start_link]

theorem State.trained_link_ne {j : Nat} (hj : j ≠ l) : (s.trained l rate flit l0p).link j = s.link j := by
  rw [State.trained, State.modLink_ne _ _ _ hj, State.trained_start_link]

theorem State.trained_onlyIn : OnlyIn [.host, .evt] s (s.trained l rate flit l0p) := by
  have start : OnlyIn [.host, .evt] s (if (s.link l).up then s else s.edge (linkSource l)) := by
    split
    · exact .refl _ s
    · exact onlyIn_iff.mpr (by simp)
  have set (t : State) (m : Link → Link) : OnlyIn [.host, .evt] t (t.modLink l m) := onlyIn_iff.mpr (by simp)
  exact start.comp (set _ _)

/-- What a link does at its trained width. -/
theorem linkTrainedL0_effect {s : State} {l rate : Nat} {width : PartnerWidth} {flit : Bool} (here : s.linkExists l = true) (awake : s.awake = true)
    (released : (s.link l).perst = false) (live : (s.link l).dead = false) {m : Link → Link}
    (width' : (s.trained l rate flit width.l0p).atWidth l (s.trainWidth l width.lanes) = (s.trained l rate flit width.l0p).modLink l m) :
    ∃ t, exec (.linkTrainedL0 l rate width flit) s = .next t ∧ t.link l = m { s.link l with
      up := true, ltssm := .l0, rate := s.trainRate l rate flit, flit := flit, l0p := width.l0p, ready := true, power := .l0 } ∧
      (∀ j, j ≠ l → t.link j = s.link j) ∧ OnlyIn [.host, .evt, .pwr] s t := by
  have step : exec (.linkTrainedL0 l rate width flit) s = .next ((((s.trained l rate flit width.l0p).atWidth l
      (s.trainWidth l width.lanes)).castVotes s).wakeCuff l) :=
    congrArg Host.Outcome.next (if_neg (by simp [here, awake, released, live]))
  have base := s.trained_onlyIn l rate flit width.l0p
  have self := s.trained_link l rate flit width.l0p
  have others {j : Nat} (hj : j ≠ l) := s.trained_link_ne l rate flit width.l0p hj
  rw [width'] at step
  generalize s.trained l rate flit width.l0p = u at step base self others
  refine ⟨_, step, ?_, fun j hj => ?_, ?_⟩
  · rw [State.wakeCuff_link, State.castVotes_link, State.modLink_same, self]
  · rw [State.wakeCuff_link, State.castVotes_link, State.modLink_ne _ _ _ hj, others hj]
  · have set : OnlyIn [.host] u (u.modLink l m) := onlyIn_iff.mpr (by simp)
    have votes : OnlyIn [.evt, .pwr] (u.modLink l m) (((u.modLink l m).castVotes s).wakeCuff l) := onlyIn_iff.mpr (by simp)
    exact ((base.trans set).trans votes).mono (by decide)

end Training

/-! ### The commands -/

section Commands
variable {s : State} {l : Nat}

theorem exec_perstAssert (aon : s.sys.aon = true) (here : s.linkExists l = true) :
    exec (.perstAssert l) s = .next ((s.modLink l (fun x => { x with perst := true })).loseLink l .detect) :=
  congrArg Host.Outcome.next (if_neg (by simp [aon, here]))

theorem exec_perstDeassert (aon : s.sys.aon = true) (here : s.linkExists l = true) : exec (.perstDeassert l) s =
    .next (((s.modLink l (fun x => { x with perst := false, ltssm := .detect, power := .l0 })).edge (linkSource l)).wakeUpdate l) :=
  congrArg Host.Outcome.next (if_neg (by simp [aon, here]))

theorem exec_dlDown_down (down : (s.link l).up = false) : exec (.dlDown l) s = .next s :=
  congrArg Host.Outcome.next (if_neg (by simp [down]))

theorem exec_linkHotReset_down (down : (s.link l).up = false) : exec (.linkHotReset l) s = .next s :=
  congrArg Host.Outcome.next (if_neg (by simp [down]))

theorem exec_hostRecoveryEntered_down (down : (s.link l).up = false) (a : Option Nat) (b : Option Aer) :
    exec (.hostRecoveryEntered ⟨l, a, b⟩) s = .next s :=
  congrArg Host.Outcome.next (if_neg (by simp [down]))

theorem exec_linkPowerStateChange_down (down : (s.link l).up = false) (p : LinkPower) : exec (.linkPowerStateChange l p) s = .next s :=
  congrArg Host.Outcome.next (if_pos (by simp [down]))

theorem exec_linkTrainedL0_shut (shut : (s.link l).perst = true ∨ (s.link l).dead = true) (rate : Nat) (w : PartnerWidth) (flit : Bool) :
    exec (.linkTrainedL0 l rate w flit) s = .next s :=
  congrArg Host.Outcome.next (if_pos (by rcases shut with h | h <;> simp [h]))

section Up
variable (awake : s.awake = true) (up : (s.link l).up = true)
include awake up

theorem exec_dlDown : exec (.dlDown l) s = .next (s.loseLink l .detect) := congrArg Host.Outcome.next (if_pos (by simp [awake, up]))

theorem exec_linkHotReset : exec (.linkHotReset l) s = .next (s.loseLink l .hotReset) :=
  congrArg Host.Outcome.next (if_pos (by simp [awake, up]))

theorem exec_hostRecoveryEntered : exec (.hostRecoveryEntered ⟨l, none, none⟩) s = .next (s.modLink l (fun x =>
    { x with ltssm := .recovery, recoveries := min 65535 (x.recoveries + 1), wantWidth := none })) :=
  congrArg Host.Outcome.next (if_pos (by simp [awake, up]))

theorem exec_hostRecoveryEntered_err (e : Aer) : exec (.hostRecoveryEntered ⟨l, none, some e⟩) s = .next ((s.aer ⟨l, 0⟩ e).modLink l (fun x =>
    { x with ltssm := .recovery, recoveries := min 65535 (x.recoveries + 1), wantWidth := none })) :=
  congrArg Host.Outcome.next (if_pos (by simp [awake, up]))

section Width
variable {w : Nat}

theorem exec_hostRecoveryEntered_l0p (fits : w ≤ s.laneCount l) :
    exec (.hostRecoveryEntered ⟨l, some w, none⟩) s = .next ((s.modLink l (fun x => { x with ltssm := .l0 })).atWidth l w) :=
  congrArg Host.Outcome.next ((if_pos (by simp [awake, up])).trans (if_neg (Nat.not_lt.mpr fits)))

theorem exec_hostRecoveryEntered_l0p_err (fits : w ≤ s.laneCount l) (e : Aer) : exec (.hostRecoveryEntered ⟨l, some w, some e⟩) s =
    .next (((s.aer ⟨l, 0⟩ e).modLink l (fun x => { x with ltssm := .l0 })).atWidth l w) :=
  congrArg Host.Outcome.next ((if_pos (by simp [awake, up])).trans (if_neg (Nat.not_lt.mpr fits)))

theorem exec_hostRecoveryEntered_wide (wide : s.laneCount l < w) : exec (.hostRecoveryEntered ⟨l, some w, none⟩) s = .next s :=
  congrArg Host.Outcome.next ((if_pos (by simp [awake, up])).trans (if_pos wide))

end Width

/-- The LTSSM state of a power state of the host's link (R505). -/
def ltssmOf : LinkPower → Ltssm
  | .l0 => .l0
  | .l2 => .l2
  | _ => .l1

theorem exec_linkPowerStateChange (p : LinkPower) : exec (.linkPowerStateChange l p) s = .next
    (let t := ((s.modLink l (fun x => { x with power := p, ltssm := ltssmOf p })).wakeUpdate l).castVotes s
      if p == .l12 || p == .l2 then t else t.wakeCuff l) :=
  congrArg Host.Outcome.next ((if_neg (by simp [awake, up])).trans (by cases p <;> rfl))

/-- The link takes its power state and drives WAKE# for it; the rest of the host side stays. -/
theorem linkPowerStateChange_effect (p : LinkPower) : ∃ t, exec (.linkPowerStateChange l p) s = .next t ∧
    t.link l = { s.link l with power := p, ltssm := ltssmOf p
                               wake := p == .l2 && s.host.fns.any (fun e => e.1 / 256 == l && e.2.hasPme) } ∧
    (∀ j, j ≠ l → t.link j = s.link j) ∧ OnlyIn [.out, .host, .evt, .pwr] s t ∧
    (p ≠ .l2 → (s.link l).wake = false → t.out = s.out) := by
  rw [exec_linkPowerStateChange awake up]
  let u := (s.modLink l (fun x => { x with power := p, ltssm := ltssmOf p })).wakeUpdate l
  have voted : OnlyIn [.out, .host, .evt, .pwr] s (u.castVotes s) :=
    (((onlyIn_iff.mpr (by simp) : OnlyIn [.host] s (s.modLink l _)).trans (State.wakeUpdate_onlyIn _ l)).trans
      (onlyIn_iff.mpr (by simp) : OnlyIn [.evt, .pwr] u _)).mono (by decide)
  have links (j : Nat) : (u.castVotes s).link j = u.link j := State.castVotes_link ..
  have self : u.link l = _ := State.wakeUpdate_link ..
  rw [State.modLink_same, State.wakeWanted, State.modLink_same] at self
  have others (j : Nat) (hj : j ≠ l) : u.link j = s.link j := (State.wakeUpdate_link_ne _ _ hj).trans (State.modLink_ne _ _ _ hj)
  have quiet (notL2 : p ≠ .l2) (high : (s.link l).wake = false) : (u.castVotes s).out = s.out := by
    have shut : (p == .l2) = false := by simpa using notL2
    rw [State.castVotes_gout]
    exact State.wakeUpdate_out _ l (by simp [State.wakeWanted, shut, high])
  refine ⟨_, rfl, ?_⟩
  dsimp only
  split
  · exact ⟨(links l).trans self, fun j hj => (links j).trans (others j hj), voted, quiet⟩
  · refine ⟨?_, fun j hj => ?_, ?_, fun notL2 high => by rw [State.wakeCuff_gout]; exact quiet notL2 high⟩
    · rw [State.wakeCuff_link]
      exact (links l).trans self
    · rw [State.wakeCuff_link]
      exact (links j).trans (others j hj)
    · have h : OnlyIn [.evt, .pwr] (u.castVotes s) ((u.castVotes s).wakeCuff l) := onlyIn_iff.mpr (by simp)
      exact (voted.trans h).mono (by decide)

end Up

theorem perstDeassert_effect (aon : s.sys.aon = true) (here : s.linkExists l = true) : ∃ t, exec (.perstDeassert l) s = .next t ∧
    (t.link l).perst = false ∧ (t.link l).ltssm = .detect ∧ (t.link l).wake = false ∧ (∀ j, j ≠ l → t.link j = s.link j) ∧
    OnlyIn [.host, .evt, .out] s t := by
  rw [exec_perstDeassert aon here]
  obtain ⟨u, hu⟩ : ∃ u, u = s.modLink l (fun x => { x with perst := false, ltssm := .detect, power := .l0 }) := ⟨_, rfl⟩
  have self : u.link l = { s.link l with perst := false, ltssm := .detect, power := .l0 } := by rw [hu, State.modLink_same]
  have set : OnlyIn [.host] s u := by rw [hu]; exact onlyIn_iff.mpr (by simp)
  have link := (u.edge (linkSource l)).wakeUpdate_link l
  rw [State.wakeWanted, State.edge_link, self] at link
  rw [← hu]
  refine ⟨_, rfl, by rw [link], by rw [link], by rw [link]; rfl, fun j hj => ?_, ?_⟩
  · rw [State.wakeUpdate_link_ne _ _ hj, State.edge_link, hu, State.modLink_ne _ _ _ hj]
  · exact ((set.trans (u.edge_onlyIn _)).trans (State.wakeUpdate_onlyIn _ l)).mono (by decide)

/-- The three losses of a link that was up (R333, R335). -/
theorem linkLoss_effect (here : s.linkExists l = true) (awake : s.awake = true) (up : (s.link l).up = true) {c : Instr}
    (hc : c ∈ [Instr.perstAssert l, .dlDown l, .linkHotReset l]) : ∃ u t, exec c s = .next t ∧
      State.LosesLink l (if c = .linkHotReset l then .hotReset else .detect) u t ∧ OnlyIn [.host] s u ∧
      (u.link l).downs = (s.link l).downs ∧ (u.link l).perst = ((s.link l).perst || decide (c = .perstAssert l)) ∧
      u.fn = s.fn ∧ ∀ j, j ≠ l → u.link j = s.link j := by
  have aon : s.sys.aon = true := by
    simp only [State.awake, Bool.and_eq_true] at awake
    exact awake.1
  simp only [List.mem_cons, List.not_mem_nil, or_false] at hc
  rcases hc with rfl | rfl | rfl
  · have set : (s.modLink l fun x => { x with perst := true }).link l = { s.link l with perst := true } := State.modLink_same ..
    refine ⟨_, _, exec_perstAssert aon here, State.loseLink_loses _ l .detect (by rw [set]; exact up), onlyIn_iff.mpr (by simp), ?_, ?_, rfl,
      fun j hj => State.modLink_ne _ _ _ hj⟩
    · rw [set]
    · rw [set]
      simp
  · exact ⟨s, _, exec_dlDown awake up, State.loseLink_loses s l .detect up, .refl _ s, rfl, by simp, rfl, fun _ _ => rfl⟩
  · exact ⟨s, _, exec_linkHotReset awake up, by rw [if_pos rfl]; exact State.loseLink_loses s l .hotReset up, .refl _ s, rfl, by simp, rfl,
      fun _ _ => rfl⟩

end Commands

/-- Settles O37: each link event is its `exec_` equation, and the loss of a link is `State.loseLink_loses`. -/
theorem hostLinkEventsComplete : Obligations.HostLinkEventsComplete := by
  unfold Obligations.HostLinkEventsComplete
  intro s l here
  refine ⟨fun c hc awake up => ?_, fun aon => perstDeassert_effect aon here, fun rate width flit l0p awake released live free => ?_,
    exec_hostRecoveryEntered, fun p awake up notL2 high => ?_, fun aon => exec_perstAssert aon here,
    fun rate width flit l0p n awake released live low top usable => ?_, fun e awake up => exec_hostRecoveryEntered_err awake up e,
    fun w awake up fits free => ?_,
    fun w e awake up fits => ⟨exec_hostRecoveryEntered_l0p awake up fits, exec_hostRecoveryEntered_l0p_err awake up fits e⟩,
    fun w awake up wide => exec_hostRecoveryEntered_wide awake up wide, fun awake up => ?_,
    fun rate width flit l0p shut => exec_linkTrainedL0_shut shut rate _ flit,
    fun down => ⟨exec_dlDown_down down, exec_linkHotReset_down down, exec_hostRecoveryEntered_down down,
      exec_linkPowerStateChange_down down⟩⟩
  · obtain ⟨u, t, step, lost, before, downs, perst, fn, links⟩ := linkLoss_effect here awake up hc
    refine ⟨t, step, lost.up, by rw [lost.downs, downs], lost.ltssm, by rw [lost.perst, perst], lost.sessions, lost.numVfs, lost.vfEnable,
      lost.ide, by rw [lost.pf0]; rfl, by rw [lost.pf0, fn]; rfl, fun j hj => by rw [lost.others j hj, links j hj], ?_⟩
    exact (before.trans lost.only).mono (by decide)
  · obtain ⟨lowF, topF, -⟩ := (s.trained_onlyIn l rate flit l0p).lanes (by decide) (by decide)
    have at' := State.atWidth_free (s := s.trained l rate flit l0p) (l := l) (w := s.trainWidth l width) (by rwa [lowF, topF])
    obtain ⟨t, step, self, rest⟩ := linkTrainedL0_effect here awake released live (width := ⟨width, l0p⟩) at'
    refine ⟨t, step, ?_, rest⟩
    rw [self, lowF, topF]
    have reversed : (!s.lowFree l (s.trainWidth l width) && s.topFree l (s.trainWidth l width)) = !s.lowFree l (s.trainWidth l width) := by
      rcases free with h | h <;> simp [h]
    rw [reversed]
  · obtain ⟨t, step, self, others, only, quiet⟩ := linkPowerStateChange_effect awake up p
    refine ⟨t, step, ?_, others, only.same_out (quiet notL2 high)⟩
    have shut : (p == .l2) = false := by simpa using notL2
    have ltssm : ltssmOf p = if p = .l0 then .l0 else .l1 := by
      cases p with
      | l2 => exact absurd rfl notL2
      | _ => rfl
    rw [self, shut, ltssm, Bool.false_and, ← high]
  · obtain ⟨lowF, topF, usableF⟩ := (s.trained_onlyIn l rate flit l0p).lanes (by decide) (by decide)
    have at' := State.atWidth_asks (s := s.trained l rate flit l0p) (l := l) (w := s.trainWidth l width) (by rwa [lowF]) (by rwa [topF])
      (by rw [usableF]; exact usable)
    obtain ⟨t, step, self, rest⟩ := linkTrainedL0_effect here awake released live (width := ⟨width, l0p⟩) at'
    by_cases advertised : n ∈ l0p
    · rw [Link.asks_l0p (by exact advertised)] at self
      exact ⟨t, step, by rw [self], by rw [self], by rw [self], by rw [self], fun _ => by rw [self]; exact ⟨rfl, rfl⟩, fun h => absurd advertised h,
        rest⟩
    · rw [Link.asks_recovery rfl (by exact advertised)] at self
      exact ⟨t, step, by rw [self], by rw [self], by rw [self], by rw [self], fun h => absurd h advertised, fun _ => by rw [self]; exact ⟨rfl, rfl⟩,
        rest⟩
  · obtain ⟨lowF, topF, -⟩ := (onlyIn_iff.mpr (by simp) : OnlyIn [.host] s (s.modLink l (fun x => { x with ltssm := .l0 }))).lanes
      (by decide) (by decide)
    rw [exec_hostRecoveryEntered_l0p awake up fits, State.atWidth_free (by rwa [lowF, topF]), lowF, topF]
  · obtain ⟨t, step, self, others, only, -⟩ := linkPowerStateChange_effect awake up .l2
    exact ⟨t, step, by rw [self], by rw [self]; rfl, by rw [self]; rfl, others, only.mono (by decide)⟩

end Sys2Proof.Machine
end

