-- ==== Sys2Proof/Proofs/HostRequests.lean ====
section
/-! PROOFS. Requests received from a host (R303-R320). -/

namespace Sys2Proof.Machine

/-! ### A request at the decode point (R224, R306, R308, R315) -/

section Enter
variable {s : State} {l : Nat} {g h : HeldReq} (base : { g with unitBase := (s.link l).unitBase } = h)
include base

theorem State.hostEnter_waits (busy : s.heldFree l (s.link l).held h = false) :
    s.hostEnter l g = s.modLink l (fun x => { x with held := x.held ++ [h] }) := by
  simp only [State.hostEnter, base, busy, Bool.false_eq_true, if_false]

theorem State.hostEnter_misses (free : s.heldFree l (s.link l).held h = true) {n : Nat} (miss : s.heldMiss l h = some n) :
    s.hostEnter l g = (s.modLink l (fun x => { x with held := x.held ++ [h] })).fetchTable (cuffUnit (l / 2)) l n := by
  simp only [State.hostEnter, base, free, if_true, miss]

theorem State.hostEnter_performs (free : s.heldFree l (s.link l).held h = true) (hit : s.heldMiss l h = none) :
    s.hostEnter l g = s.performHeld l h := by
  simp only [State.hostEnter, base, free, if_true, hit]

end Enter

/-- A request of BAR0 waits for no table line. -/
theorem State.heldMiss_bar0 {s : State} {l : Nat} {h : HeldReq} (bar0 : h.bar2 = false) : s.heldMiss l h = none := by
  simp [State.heldMiss, State.heldRoute, bar0]

/-- A request of BAR2 that the checker routes waits for no table line. -/
theorem State.heldMiss_routed {s : State} {l : Nat} {h : HeldReq} (hit : ∀ n, s.heldRoute l h ≠ some (.miss n)) : s.heldMiss l h = none := by
  unfold State.heldMiss
  split
  next n miss => exact absurd miss (hit n)
  · rfl

/-! ### The requests (R90, R303-R306, R315, R319) -/

section Read
variable {s : State} {r : HostRead} (awake : s.awake = true) (up : (s.link r.link).up = true)
include awake up

theorem exec_hostMemoryRead_ideFailed {i : IdeMark} (mark : r.ide = some i) (bad : i.ok = false) :
    exec (.hostMemoryRead r) s = .next (s.ideFail r.link i.stream (readHead r)) := by
  simp [exec, execHostMemoryRead, awake, up, State.ideCheck, mark, bad]

variable (ide : ∀ i, r.ide = some i → i.ok = true)
include ide

theorem exec_hostMemoryRead_ur (miss : s.hostHit r.link r.addr = none) :
    exec (.hostMemoryRead r) s = .next (s.hostUr (s.urOwner r.link r.addr) (readHead r)) := by
  simp [exec, execHostMemoryRead, awake, up, State.ideCheck_passed ide, miss]

theorem exec_hostMemoryRead {f : FnId} {b : Bool} {off : Nat} (hit : s.hostHit r.link r.addr = some (f, b, off)) :
    exec (.hostMemoryRead r) s = .next (s.hostEnter r.link { fn := f.fn, bar2 := b, off := off, kind := .read r }) := by
  simp [exec, execHostMemoryRead, awake, up, State.ideCheck_passed ide, hit]

end Read

section Write
variable {s : State} {w : HostWrite} (awake : s.awake = true) (up : (s.link w.link).up = true)
include awake up

theorem exec_hostMemoryWrite_ideFailed {i : IdeMark} (mark : w.ide = some i) (bad : i.ok = false) :
    exec (.hostMemoryWrite w) s = .next (s.ideFail w.link i.stream (writeHead w)) := by
  simp [exec, execHostMemoryWrite, awake, up, State.ideCheck, mark, bad]

variable (ide : ∀ i, w.ide = some i → i.ok = true)
include ide

theorem exec_hostMemoryWrite_ur (miss : s.hostHit w.link w.addr = none) :
    exec (.hostMemoryWrite w) s = .next (s.aerTlp (s.urOwner w.link w.addr) .unsupportedRequest (writeHead w)) := by
  simp [exec, execHostMemoryWrite, awake, up, State.ideCheck_passed ide, miss]

variable {f : FnId} {b : Bool} {off : Nat} (hit : s.hostHit w.link w.addr = some (f, b, off))
include hit

theorem exec_hostMemoryWrite_poisoned (ep : w.ep = true) :
    exec (.hostMemoryWrite w) s = .next (s.aerTlp f .poisonedTlp (writeHead w)) := by
  simp [exec, execHostMemoryWrite, awake, up, State.ideCheck_passed ide, hit, ep]

theorem exec_hostMemoryWrite (ep : w.ep = false) :
    exec (.hostMemoryWrite w) s = .next (s.hostEnter w.link { fn := f.fn, bar2 := b, off := off, kind := .write w }) := by
  simp [exec, execHostMemoryWrite, awake, up, State.ideCheck_passed ide, hit, ep]

end Write

section Atomic
variable {s : State} {x : HostAtomic} (awake : s.awake = true) (up : (s.link x.link).up = true)
include awake up

theorem exec_hostAtomicop_ideFailed {i : IdeMark} (mark : x.ide = some i) (bad : i.ok = false) :
    exec (.hostAtomicop x) s = .next (s.ideFail x.link i.stream (atomicHead x)) := by
  simp [exec, execHostAtomicop, awake, up, State.ideCheck, mark, bad]

variable (ide : ∀ i, x.ide = some i → i.ok = true)
include ide

theorem exec_hostAtomicop_malformed (odd : x.addr % max 1 x.size ≠ 0) :
    exec (.hostAtomicop x) s = .next (s.aerTlp (s.urOwner x.link x.addr) .malformedTlp (atomicHead x)) := by
  simp [exec, execHostAtomicop, awake, up, State.ideCheck_passed ide, odd]

variable (aligned : x.addr % max 1 x.size = 0)
include aligned

theorem exec_hostAtomicop_ur (miss : s.hostHit x.link x.addr = none) :
    exec (.hostAtomicop x) s = .next (s.hostUr (s.urOwner x.link x.addr) (atomicHead x)) := by
  simp [exec, execHostAtomicop, awake, up, State.ideCheck_passed ide, aligned, miss]

variable {f : FnId} {b : Bool} {off : Nat} (hit : s.hostHit x.link x.addr = some (f, b, off))
include hit

theorem exec_hostAtomicop_size (bad : x.sizeOk = false) : exec (.hostAtomicop x) s = .next (s.hostUr f (atomicHead x)) := by
  simp [exec, execHostAtomicop, awake, up, State.ideCheck_passed ide, aligned, hit, bad]

theorem exec_hostAtomicop (size : x.sizeOk = true) :
    exec (.hostAtomicop x) s = .next (s.hostEnter x.link { fn := f.fn, bar2 := b, off := off, kind := .atomic x }) := by
  simp [exec, execHostAtomicop, awake, up, State.ideCheck_passed ide, aligned, hit, size]

end Atomic

/-! ### What the checker and the routes leave (R209, R217) -/

theorem State.translate_state (s : State) (unit link g i : Nat) : ∃ ts, (s.translate unit link g i).2 = { s with pool.tlines := ts } := by
  have same : ∃ ts, s = { s with pool.tlines := ts } := ⟨_, rfl⟩
  unfold State.translate
  dsimp only
  split
  · exact same
  · split
    · exact same
    · split <;> exact ⟨_, rfl⟩

/-- The checker takes at most a table line that came back. -/
theorem State.check_state (s : State) (unit link : Nat) (c : Check) : ∃ ts, (s.check unit link c).2 = { s with pool.tlines := ts } := by
  obtain ⟨ts, translated⟩ := s.translate_state unit link c.glove (c.addr / 0x200000)
  have same : ∃ ts, s = { s with pool.tlines := ts } := ⟨_, rfl⟩
  unfold State.check
  extract_lets g line span
  split
  · exact same
  · split
    · exact same
    · split
      · split
        · exact same
        · split <;> exact same
      · split
        next found =>
          rw [found] at translated
          exact ⟨ts, translated⟩
        next found =>
          rw [found] at translated
          exact ⟨ts, translated⟩
        next found =>
          rw [found] at translated
          split
          · exact ⟨ts, translated⟩
          · split <;> exact ⟨ts, translated⟩

/-- A request whose address decodes to the pool goes to the owning gate. -/
theorem State.sendDev_pool {s : State} {link : Nat} {ctx : ReqCtx} {p : Packet} {c : Option Nat} {a : Nat} (pool : s.decode p.addr = .pool a) :
    s.sendDev link ctx p c = s.request ctx
      { p with dest := gateUnit (s.owner (a / 4096)), destKnot := unitKnot (gateUnit (s.owner (a / 4096)))
               initKnot := if unitKind p.initUnit == 0 then s.cuffKnot link (gateUnit (s.owner (a / 4096))) else unitKnot p.initUnit } c := by
  simp only [State.sendDev, pool]

/-- What a request to the owning gate leaves outstanding. -/
theorem State.sendDev_pool_outst {s : State} {link : Nat} {ctx : ReqCtx} {p : Packet} {c : Option Nat} {a : Nat} (pool : s.decode p.addr = .pool a) :
    ∃ x ∈ (s.sendDev link ctx p c).net.outst, x.ctx = ctx ∧ x.counts = c ∧ ∃ knots : Nat × Nat × Nat, x.pkt = { p with
      dest := gateUnit (s.owner (a / 4096)), destKnot := knots.1, initKnot := knots.2.1, tag := knots.2.2 } := by
  rw [State.sendDev_pool pool, State.request_outst]
  exact ⟨_, List.mem_append_right _ (List.mem_singleton.mpr rfl), rfl, rfl, ⟨_, _, _⟩, rfl⟩

theorem State.sendDev_onlyIn (s : State) (link : Nat) (ctx : ReqCtx) (p : Packet) (c : Option Nat) :
    OnlyIn [.net] s (s.sendDev link ctx p c) := onlyIn_iff.mpr (by simp)

section Bar2
variable {s u : State} {f : FnId} {off a : Nat} (open' : s.bar2Open (s.gloveOf f) = true)
include open'

theorem State.readBar2_dev {r : HostRead}
    (routed : s.check (cuffUnit (f.link / 2)) f.link ⟨s.gloveOf f, 0, off, r.len, true, false, false⟩ = (.dev a, u)) (some' : 0 < r.len) :
    s.readBar2 f off r = u.sendDev f.link (.hostRead f.link f.fn r.tag (s.gloveOf f) off r.len)
      { u.glovePacket f (s.gloveOf f) .memRd 0 r.len with addr := a } (some (s.gloveOf f)) := by
  have ne : (r.len == 0) = false := by simpa using Nat.ne_of_gt some'
  simp only [State.readBar2, open', Bool.not_true, Bool.false_eq_true, if_false, routed, ne, State.sendGlove, Nat.add_zero]

/-- A write of one piece is one packet (R308). -/
theorem State.writeBar2_dev {w : HostWrite}
    (routed : s.check (cuffUnit (f.link / 2)) f.link ⟨s.gloveOf f, 0, off, w.data.length, false, true, false⟩ = (.dev a, u))
    (some' : 0 < w.data.length) (lines : off % 64 + w.data.length ≤ 512) (block : off % 4096 + w.data.length ≤ 4096) :
    s.writeBar2 f off w = u.sendDev f.link (.hostWrite f.link f.fn (s.gloveOf f) off false u.net.nextPkt)
      { u.glovePacket f (s.gloveOf f) .memWr 0 w.data.length with
        firstBE := enablesOf off w.data (off / 64), lastBE := enablesOf off w.data ((off + w.data.length - 1) / 64)
        data := packLines off (w.data.map (fun b => b.getD 0)), addr := a } (some (s.gloveOf f)) := by
  have ne : w.data.isEmpty = false := by
    rw [List.isEmpty_eq_false_iff]
    exact List.ne_nil_of_length_pos some'
  have one : writePieces (w.data.length + 1) off w.data.length = [(off, w.data.length)] := by
    obtain ⟨k, hk⟩ := Nat.exists_eq_succ_of_ne_zero (Nat.ne_of_gt some')
    have fits : min w.data.length (min (512 - off % 64) (4096 - off % 4096)) = w.data.length := by omega
    rw [writePieces, if_neg (by simpa using List.ne_nil_of_length_pos some')]
    dsimp only
    rw [fits, Nat.sub_self, hk, writePieces]
    rfl
  simp only [State.writeBar2, open', Bool.not_true, Bool.false_eq_true, if_false, routed, ne, one, List.foldl_cons, List.foldl_nil,
    State.sendGlove, Nat.sub_self, Nat.add_zero, List.drop_zero, List.take_length]

theorem State.atomicBar2_dev {x : HostAtomic}
    (routed : s.check (cuffUnit (f.link / 2)) f.link ⟨s.gloveOf f, 0, off, x.size, true, true, true⟩ = (.dev a, u)) :
    s.atomicBar2 f off x false = (u.modCuff (f.link / 2) (fun y =>
      { y with locks := y.locks ++ [{ atomic := x, vf := f.fn, glove := s.gloveOf f, line := a / 64 }] })).pumpLocks (f.link / 2) := by
  simp only [State.atomicBar2, open', Bool.not_true, Bool.false_eq_true, if_false, routed]

end Bar2

theorem State.modCuff_modCuff (s : State) (c : Nat) (m n : Cuff → Cuff) : (s.modCuff c m).modCuff c n = s.modCuff c (fun x => n (m x)) := by
  simp only [State.modCuff, Tbl.mod, Tbl.get_set_same, Tbl.set_set]

theorem State.modCuff_congr {s : State} {c : Nat} {m n : Cuff → Cuff} (h : m (s.cuff c) = n (s.cuff c)) : s.modCuff c m = s.modCuff c n :=
  congrArg (fun x => { s with host.cuffs := s.host.cuffs.set c x }) h

/-- The one waiting AtomicOp of a Cuff takes an entry and locks its line (R320, R321). -/
theorem State.pumpLocks_one {s : State} {c : Nat} {k : Lock} (locks : (s.cuff c).locks = [k]) (waits : k.sent = false) :
    ∃ peak, s.pumpLocks c = (s.modCuff c (fun y => { y with locks := [{ k with sent := true }], peak := peak })).sendDev k.atomic.link
      (.atomicRead c k.line) (s.lockPacket k .memRdLock) (some k.glove) := by
  have free : decide (s.lockLimit k.atomic.link ≤ (s.cuff c).usedBy k.atomic.link) = false := by
    have used : (s.cuff c).usedBy k.atomic.link = 0 := by simp [Cuff.usedBy, locks, waits]
    rw [used, decide_eq_false_iff_not, State.lockLimit]
    split <;> omega
  let m (y : Cuff) : Cuff := { y with locks := [{ k with sent := true }] }
  have set : (s.modCuff c (fun y => { y with locks := y.locks.set 0 { k with sent := true } })).modCuff c
      (fun y => { y with peak := max y.peak y.inUse }) =
      s.modCuff c (fun y => { y with locks := [{ k with sent := true }], peak := max (m (s.cuff c)).peak (m (s.cuff c)).inUse }) := by
    rw [State.modCuff_modCuff]
    refine State.modCuff_congr ?_
    simp only [locks, List.set_cons_zero]
    rfl
  refine ⟨max (m (s.cuff c)).peak (m (s.cuff c)).inUse, ?_⟩
  simp only [State.pumpLocks, locks, List.zipIdx_cons, List.zipIdx_nil, List.foldl_cons, List.foldl_nil, List.getElem?_cons_zero,
    List.take_zero, List.any_nil, waits, free, Bool.or_self, Bool.false_eq_true, if_false]
  rw [← set]
  rfl

/-! ### Requests that go on at once -/

section Perform
variable {s : State} {off : Nat}

theorem State.performHeld_write0 {l fn base : Nat} {w : HostWrite} (shown : s.tdiHides ⟨l, fn⟩ off = false)
    (shape : bar0Shape off w.data.length = true) :
    s.performHeld l ⟨fn, false, off, .write w, base, false⟩ = s.writeBar0 ⟨l, fn⟩ base off w.data := by
  simp [State.performHeld, shown, shape]

theorem State.performHeld_write0_ur {l fn base : Nat} {w : HostWrite}
    (bad : s.tdiHides ⟨l, fn⟩ off = true ∨ bar0Shape off w.data.length = false) :
    s.performHeld l ⟨fn, false, off, .write w, base, false⟩ =
      (s.aerTlp ⟨l, fn⟩ .unsupportedRequest (writeHead w)).writeBar0 ⟨l, fn⟩ base off w.data := by
  have h : (s.tdiHides ⟨l, fn⟩ off || !bar0Shape off w.data.length) = true := by rcases bad with h | h <;> simp [h]
  simp [State.performHeld, h]

/-- A read of a register of BAR0 (R303, R306). -/
theorem State.readBar0_register {f : FnId} {base : Nat} {r : HostRead} (shown : s.tdiHides f off = false) (shape : bar0Shape off r.len = true)
    (outside : f.fn = 0 → off < 0x1000000) :
    s.readBar0 f base off r = (s.readReg f (off / 8 * 8) off).2.emit
      (.cpl f.link r.tag .sc (((leBytes 8 (s.readReg f (off / 8 * 8) off).1).drop (off % 8)).take r.len) false) := by
  have window : ¬ (f.fn == 0 ∧ windowBase ≤ off ∧ off < windowBase + windowSize) := by
    rintro ⟨zero, base, -⟩
    have := outside (by simpa using zero)
    simp only [windowBase] at base
    omega
  simp only [State.readBar0, shown, shape, Bool.not_true, Bool.false_eq_true, if_false, window]

/-- A request that its checker routes is one outstanding packet to the owning gate. -/
theorem sendDev_checked {unit link' : Nat} {c : Check} {u : State} {a : Nat} (routed : s.check unit link' c = (.dev a, u)) {link : Nat}
    {ctx : ReqCtx} {p : Packet} {counts : Option Nat} (at' : p.addr = a) (pool : s.decode a = .pool a) :
    (∃ x ∈ (u.sendDev link ctx p counts).net.outst, x.ctx = ctx ∧ x.counts = counts ∧ ∃ knots : Nat × Nat × Nat, x.pkt = { p with
      dest := gateUnit (s.owner (a / 4096)), destKnot := knots.1, initKnot := knots.2.1, tag := knots.2.2 }) ∧
      OnlyIn [.pool, .net] s (u.sendDev link ctx p counts) := by
  obtain ⟨ts, state⟩ := s.check_state unit link' c
  rw [routed] at state
  obtain rfl : u = { s with pool.tlines := ts } := state
  refine ⟨State.sendDev_pool_outst (by rw [at']; exact pool), ?_⟩
  have taken : OnlyIn [.pool] s { s with pool.tlines := ts } := onlyIn_iff.mpr (by simp)
  exact (taken.trans (State.sendDev_onlyIn _ _ _ _ _)).mono (by decide)

end Perform

/-- The checker's answer as a pair. -/
theorem State.check_pair {s : State} {unit link : Nat} {c : Check} {rt : Route} (h : (s.check unit link c).1 = rt) :
    s.check unit link c = (rt, (s.check unit link c).2) := by
  rw [← h]

section Bar2Commands
variable {s : State} {fn off a : Nat}

theorem hostMemoryRead_bar2_effect {r : HostRead} (awake : s.awake = true) (up : (s.link r.link).up = true) (ide : r.ide = none)
    (hit : s.hostHit r.link r.addr = some (⟨r.link, fn⟩, true, off)) (some' : 0 < r.len)
    (free : s.heldFree r.link (s.link r.link).held ⟨fn, true, off, .read r, (s.link r.link).unitBase, false⟩ = true)
    (open' : s.bar2Open (s.gloveOf ⟨r.link, fn⟩) = true)
    (routed : (s.check (cuffUnit (r.link / 2)) r.link ⟨s.gloveOf ⟨r.link, fn⟩, 0, off, r.len, true, false, false⟩).1 = .dev a)
    (pool : s.decode a = .pool a) : ∃ t, exec (.hostMemoryRead r) s = .next t ∧
      (∃ x ∈ t.net.outst, x.ctx = .hostRead r.link fn r.tag (s.gloveOf ⟨r.link, fn⟩) off r.len ∧ x.counts = some (s.gloveOf ⟨r.link, fn⟩) ∧
        x.pkt.op = .memRd ∧ x.pkt.dest = gateUnit (s.owner (a / 4096)) ∧ x.pkt.addr = a ∧ x.pkt.len = r.len ∧
        x.pkt.gloveValid = true ∧ x.pkt.glove = s.gloveOf ⟨r.link, fn⟩ ∧ x.pkt.world = 0) ∧ OnlyIn [.pool, .net] s t := by
  have noMiss : s.heldMiss r.link ⟨fn, true, off, .read r, (s.link r.link).unitBase, false⟩ = none :=
    State.heldMiss_routed fun n h => by simp [State.heldRoute, open', HeldKind.posted, routed] at h
  obtain ⟨⟨x, mem, ctx, counts, _, pkt⟩, only⟩ := sendDev_checked (State.check_pair routed) (link := r.link)
    (ctx := .hostRead r.link fn r.tag (s.gloveOf ⟨r.link, fn⟩) off r.len) (counts := some (s.gloveOf ⟨r.link, fn⟩))
    (p := { (s.check (cuffUnit (r.link / 2)) r.link ⟨s.gloveOf ⟨r.link, fn⟩, 0, off, r.len, true, false, false⟩).2.glovePacket ⟨r.link, fn⟩
      (s.gloveOf ⟨r.link, fn⟩) .memRd 0 r.len with addr := a }) rfl pool
  refine ⟨_, (exec_hostMemoryRead awake up (by simp [ide]) hit).trans (congrArg _ ((State.hostEnter_performs rfl free noMiss).trans
    (State.readBar2_dev open' (State.check_pair routed) some'))), ⟨x, mem, ctx, counts, ?_⟩, only⟩
  rw [pkt]
  exact ⟨rfl, rfl, rfl, rfl, rfl, rfl, rfl⟩

theorem hostMemoryWrite_bar2_effect {w : HostWrite} (awake : s.awake = true) (up : (s.link w.link).up = true) (ide : w.ide = none)
    (ep : w.ep = false) (some' : 0 < w.data.length) (lines : off % 64 + w.data.length ≤ 512) (block : off % 4096 + w.data.length ≤ 4096)
    (hit : s.hostHit w.link w.addr = some (⟨w.link, fn⟩, true, off))
    (free : s.heldFree w.link (s.link w.link).held ⟨fn, true, off, .write w, (s.link w.link).unitBase, false⟩ = true)
    (open' : s.bar2Open (s.gloveOf ⟨w.link, fn⟩) = true)
    (routed : (s.check (cuffUnit (w.link / 2)) w.link ⟨s.gloveOf ⟨w.link, fn⟩, 0, off, w.data.length, false, true, false⟩).1 = .dev a)
    (pool : s.decode a = .pool a) : ∃ t, exec (.hostMemoryWrite w) s = .next t ∧
      (∃ x ∈ t.net.outst, x.ctx = .hostWrite w.link fn (s.gloveOf ⟨w.link, fn⟩) off false s.net.nextPkt ∧
        x.counts = some (s.gloveOf ⟨w.link, fn⟩) ∧
        x.pkt.op = .memWr ∧ x.pkt.dest = gateUnit (s.owner (a / 4096)) ∧ x.pkt.addr = a ∧ x.pkt.len = w.data.length ∧
        x.pkt.data = packLines off (w.data.map (fun b => b.getD 0)) ∧ x.pkt.firstBE = enablesOf off w.data (off / 64) ∧
        x.pkt.lastBE = enablesOf off w.data ((off + w.data.length - 1) / 64) ∧ x.pkt.ackReq = true ∧
        x.pkt.glove = s.gloveOf ⟨w.link, fn⟩) ∧ OnlyIn [.pool, .net] s t := by
  have ne : (w.data.length == 0) = false := by simpa using List.ne_nil_of_length_pos some'
  have noMiss : s.heldMiss w.link ⟨fn, true, off, .write w, (s.link w.link).unitBase, false⟩ = none :=
    State.heldMiss_routed fun n h => by simp [State.heldRoute, open', HeldKind.len, ne, routed] at h
  have number : (s.check (cuffUnit (w.link / 2)) w.link ⟨s.gloveOf ⟨w.link, fn⟩, 0, off, w.data.length, false, true, false⟩).2.net.nextPkt =
      s.net.nextPkt := by
    obtain ⟨ts, state⟩ := s.check_state (cuffUnit (w.link / 2)) w.link ⟨s.gloveOf ⟨w.link, fn⟩, 0, off, w.data.length, false, true, false⟩
    rw [state]
  obtain ⟨⟨x, mem, ctx, counts, _, pkt⟩, only⟩ := sendDev_checked (State.check_pair routed) (link := w.link)
    (ctx := .hostWrite w.link fn (s.gloveOf ⟨w.link, fn⟩) off false
      (s.check (cuffUnit (w.link / 2)) w.link ⟨s.gloveOf ⟨w.link, fn⟩, 0, off, w.data.length, false, true, false⟩).2.net.nextPkt)
    (counts := some (s.gloveOf ⟨w.link, fn⟩))
    (p := { (s.check (cuffUnit (w.link / 2)) w.link ⟨s.gloveOf ⟨w.link, fn⟩, 0, off, w.data.length, false, true, false⟩).2.glovePacket
      ⟨w.link, fn⟩ (s.gloveOf ⟨w.link, fn⟩) .memWr 0 w.data.length with
        firstBE := enablesOf off w.data (off / 64), lastBE := enablesOf off w.data ((off + w.data.length - 1) / 64)
        data := packLines off (w.data.map (fun b => b.getD 0)), addr := a }) rfl pool
  refine ⟨_, (exec_hostMemoryWrite awake up (by simp [ide]) hit ep).trans (congrArg _ ((State.hostEnter_performs rfl free noMiss).trans
    (State.writeBar2_dev open' (State.check_pair routed) some' lines block))), ⟨x, mem, by rw [ctx, number], counts, ?_⟩, only⟩
  rw [pkt]
  exact ⟨rfl, rfl, rfl, rfl, rfl, rfl, rfl, rfl, rfl⟩

theorem hostAtomicop_bar2_effect {x : HostAtomic} (awake : s.awake = true) (up : (s.link x.link).up = true) (ide : x.ide = none)
    (aligned : x.addr % max 1 x.size = 0) (size : x.sizeOk = true) (hit : s.hostHit x.link x.addr = some (⟨x.link, fn⟩, true, off))
    (free : s.heldFree x.link (s.link x.link).held ⟨fn, true, off, .atomic x, (s.link x.link).unitBase, false⟩ = true)
    (open' : s.bar2Open (s.gloveOf ⟨x.link, fn⟩) = true)
    (routed : (s.check (cuffUnit (x.link / 2)) x.link ⟨s.gloveOf ⟨x.link, fn⟩, 0, off, x.size, true, true, true⟩).1 = .dev a)
    (pool : s.decode a = .pool a) (locks : (s.cuff (x.link / 2)).locks = []) (same : a % 64 = x.addr % 64) :
    ∃ t, exec (.hostAtomicop x) s = .next t ∧
      (t.cuff (x.link / 2)).locks = [{ atomic := x, vf := fn, glove := s.gloveOf ⟨x.link, fn⟩, line := a / 64, sent := true }] ∧
      (∃ y ∈ t.net.outst, y.ctx = .atomicRead (x.link / 2) (a / 64) ∧ y.pkt.op = .memRdLock ∧
        y.pkt.dest = gateUnit (s.owner (a / 4096)) ∧ y.pkt.addr = a ∧ y.pkt.len = x.size) ∧ OnlyIn [.pool, .host, .net] s t := by
  have noMiss : s.heldMiss x.link ⟨fn, true, off, .atomic x, (s.link x.link).unitBase, false⟩ = none :=
    State.heldMiss_routed fun n h => by simp [State.heldRoute, open', HeldKind.posted, routed] at h
  have pair := State.check_pair routed
  obtain ⟨ts, state⟩ := s.check_state (cuffUnit (x.link / 2)) x.link ⟨s.gloveOf ⟨x.link, fn⟩, 0, off, x.size, true, true, true⟩
  rw [state] at pair
  let k : Lock := { atomic := x, vf := fn, glove := s.gloveOf ⟨x.link, fn⟩, line := a / 64 }
  let u : State := { s with pool.tlines := ts }
  let v : State := u.modCuff (x.link / 2) (fun y => { y with locks := y.locks ++ [k] })
  have queued : (v.cuff (x.link / 2)).locks = [k] := by
    have empty : (u.cuff (x.link / 2)).locks = [] := locks
    rw [State.modCuff_same, empty]
    rfl
  have addr : k.addr = a := by
    simp only [Lock.addr, k, ← same]
    omega
  obtain ⟨peak, pumped⟩ := State.pumpLocks_one queued rfl
  let z : State := v.modCuff (x.link / 2) (fun y => { y with locks := [{ k with sent := true }], peak := peak })
  have zPool : z.decode (v.lockPacket k .memRdLock).addr = .pool a := by
    rw [show (v.lockPacket k .memRdLock).addr = k.addr from rfl, addr]
    exact pool
  obtain ⟨y, mem, ctx, -, _, pkt⟩ := State.sendDev_pool_outst (link := x.link) (ctx := .atomicRead (x.link / 2) k.line) (c := some k.glove) zPool
  refine ⟨_, (exec_hostAtomicop awake up (by simp [ide]) aligned hit size).trans (congrArg _ ((State.hostEnter_performs rfl free noMiss).trans
    ((State.atomicBar2_dev open' pair).trans pumped))), ?_, ⟨y, mem, ctx, ?_⟩, ?_⟩
  · rw [State.sendDev_cuff, State.modCuff_same]
  · rw [pkt]
    exact ⟨rfl, rfl, addr, rfl⟩
  · have taken : OnlyIn [.pool, .host] s z := onlyIn_iff.mpr (by simp [z, v, u])
    exact (taken.trans (State.sendDev_onlyIn _ _ _ _ _)).mono (by decide)

end Bar2Commands

theorem exec_unsupportedRequest_other {s : State} {l tag : Nat} {k : BadReq} (awake : s.awake = true) (up : (s.link l).up = true)
    (h1 : k ≠ .unmatchedWrite) (h2 : k ≠ .vendorMessage) (h3 : k ≠ .unmatchedRead) : exec (.unsupportedRequest l tag k) s =
      .next ((s.aerTlp ⟨l, 0⟩ .unsupportedRequest { kind := .other, tag := tag }).emit (.cpl l tag .ur [] false)) := by
  refine congrArg Host.Outcome.next ((if_neg (by simp [awake, up])).trans ?_)
  split
  · exact absurd rfl h1
  · exact absurd rfl h2
  · exact absurd rfl h3
  · rfl

/-- Settles O38: a request at the decode point goes on at once, waits for its table line, or joins those that wait. -/
theorem hostRequestsComplete : Obligations.HostRequestsComplete := by
  unfold Obligations.HostRequestsComplete
  refine ⟨fun s r f off awake up ide hit here outside shown shape free => ?_, ?_, ?_, fun s w f b off awake up ide ep hit =>
    exec_hostMemoryWrite_poisoned awake up (by simp [ide]) hit ep, fun s w awake up ide => exec_hostMemoryWrite_ur awake up (by simp [ide]),
    fun s r awake up ide => exec_hostMemoryRead_ur awake up (by simp [ide]), ?_, fun s x awake up ide =>
    exec_hostAtomicop_malformed awake up (by simp [ide]), fun s l tag awake up => ?_, fun s r f b off h awake up ide hit => ?_,
    fun s w f b off h awake up ide ep hit => ?_, fun s x f b off h awake up ide aligned hit => ?_,
    fun s x awake up ide aligned => exec_hostAtomicop_ur awake up (by simp [ide]) aligned, fun s i bad => ?_⟩
  · obtain ⟨l, fn⟩ := f
    obtain rfl : l = r.link := here
    exact (exec_hostMemoryRead awake up (by simp [ide]) hit).trans (congrArg _ ((State.hostEnter_performs rfl free
      (State.heldMiss_bar0 rfl)).trans (State.readBar0_register shown shape outside)))
  · rintro s r ⟨l, fn⟩ off a awake up ide hit rfl some' free open' routed - pool
    exact hostMemoryRead_bar2_effect awake up ide hit some' free open' routed pool
  · rintro s w ⟨l, fn⟩ off a awake up ide ep some' lines block hit rfl free open' routed pool
    exact hostMemoryWrite_bar2_effect awake up ide ep some' lines block hit free open' routed pool
  · rintro s x ⟨l, fn⟩ off a awake up ide aligned size hit rfl free open' routed pool locks same
    exact hostAtomicop_bar2_effect awake up ide aligned size hit free open' routed pool locks same
  · have shut : ¬ (!s.awake || !(s.link l).up) = true := by simp [awake, up]
    exact ⟨congrArg _ (if_neg shut), congrArg _ (if_neg shut), congrArg _ (if_neg shut), fun k => exec_unsupportedRequest_other awake up⟩
  · rintro rfl
    rw [exec_hostMemoryRead awake up ide hit]
    refine ⟨fun busy => congrArg _ (State.hostEnter_waits rfl busy), fun free => ⟨fun n miss => congrArg _ (State.hostEnter_misses rfl free miss),
      fun none' => congrArg _ (State.hostEnter_performs rfl free none')⟩⟩
  · rintro rfl
    rw [exec_hostMemoryWrite awake up ide hit ep]
    refine ⟨fun busy => congrArg _ (State.hostEnter_waits rfl busy), fun free => ⟨fun n miss => congrArg _ (State.hostEnter_misses rfl free miss),
      ?_, ?_, ?_⟩⟩
    · rintro none' rfl
      exact congrArg _ (State.hostEnter_performs rfl free none')
    · rintro rfl shown shape
      exact congrArg _ ((State.hostEnter_performs rfl free (State.heldMiss_bar0 rfl)).trans (State.performHeld_write0 shown shape))
    · rintro rfl bad
      exact congrArg _ ((State.hostEnter_performs rfl free (State.heldMiss_bar0 rfl)).trans (State.performHeld_write0_ur bad))
  · rintro rfl
    refine ⟨exec_hostAtomicop_size awake up ide aligned hit, fun size busy => ?_, fun size free => ⟨fun n miss => ?_, fun none' => ?_⟩⟩ <;>
      rw [exec_hostAtomicop awake up ide aligned hit size]
    · exact congrArg _ (State.hostEnter_waits rfl busy)
    · exact congrArg _ (State.hostEnter_misses rfl free miss)
    · exact congrArg _ (State.hostEnter_performs rfl free none')
  · exact ⟨fun r awake up mark => exec_hostMemoryRead_ideFailed awake up mark bad, fun w awake up mark =>
      exec_hostMemoryWrite_ideFailed awake up mark bad, fun x awake up mark => exec_hostAtomicop_ideFailed awake up mark bad⟩

end Sys2Proof.Machine
end

