-- ==== Sys2Proof/Proofs/BorderAcks.lean ====
section
/-! PROOFS. ACK flits (R449, R450). -/

namespace Sys2Proof.Machine

/-! ### An ACK flit at a link whose replays have already run out

`execBorderAckFlit` counts the replays in a row after the flit; an ACK that frees nothing leaves the count, and a count of eight takes the
link down whatever the flit asks for (R450). -/

/-- A link that is UP with nothing to send and eight replays in a row counted. -/
def eightReplays : State :=
  { sys := { devRst := false, mode := .service }
    basket := { blinks := [(0, { state := .up, replayRow := 8 })] } }

/-- An ACK flit that frees nothing, returns nothing and asks for no replay. -/
def emptyAck : AckFlit := ⟨0, false, [], []⟩

theorem eightReplays_down {t : State} (runs : exec (.borderAckFlit 0 emptyAck) eightReplays = .next t) : t.net.reports.length = 1 := by
  have step : exec (.borderAckFlit 0 emptyAck) eightReplays = .next ((eightReplays.modBlink 0 (fun x =>
      { x.credit emptyAck with replay := [], tx := [], replayRow := 8 })).borderDown 0 3) := rfl
  rw [← Host.Outcome.next.inj (step.symm.trans runs)]
  decide

/-- Refutes O39: an ACK that asks for no replay takes a link down whose count of replays in a row is eight, and the report that follows is
outside the Basket's part of the state. -/
theorem not_borderFlitCommandsComplete : ¬ Obligations.BorderFlitCommandsComplete := by
  unfold Obligations.BorderFlitCommandsComplete
  intro holds
  obtain ⟨-, -, -, ack, -⟩ := holds eightReplays 0
  obtain ⟨t, runs, -, -, -, -, -, only⟩ := ack emptyAck (by decide) (by decide) (by decide) (by decide)
  have down := eightReplays_down runs
  rw [show t.net = eightReplays.net from only.agree .net (by decide)] at down
  exact absurd down (by decide)

end Sys2Proof.Machine
end

