-- ==== Sys2Proof/Proofs/PeerFences.lean ====
section
/-! PROOFS. The fence of a peer whose last link goes down (R457, R473, R475). -/

namespace Sys2Proof.Machine

/-! ### A fence that frees a line

The loss of a peer's last link fences the peer (R473), and the fence releases the line locks that its links hold (R475). The accesses that
wait behind such a lock go on in the same step, and one that meets a poisoned block counts an integrity failure in the usage of its glove
(R160). -/

/-- A read of line 0 by glove 0. -/
def parkedRead : Packet :=
  { op := .memRd, vc := POp.vc .memRd 0, dest := gateUnit 0, initUnit := engineUnit 0, tag := 9, len := 64, gloveValid := true }

/-- Gate 0 holds the ownership line of the first pages, the first block is poisoned, and a read of line 0 waits for Border link 0's lock. -/
def lockedByPeer : Gate :=
  { locks := [⟨0, borderUnit 0, 9⟩], olines := [(0, BitVec.ofNat 512 (packOwn { gen := 1, owner := 0, state := 1 }))],
    poison := [(0, 0)], parked := [parkedRead] }

/-- The one link to peer 1 is UP. -/
def lastLink : State :=
  { sys := { devRst := false, mode := .service }
    boot := { cfg := { cuffModes := [2], ranges := [(0, 8)], peers := [some (1, 0)], downThresh := 10 } }
    trust := { band := [(0, { valid := true })] }
    host := { links := [(0, { vfEnable := true, numVfs := 8 })] }
    pool := { gates := [(0, lockedByPeer)] }
    basket := { blinks := [(0, { state := .up, wasUp := true })] } }

/-- A link that carries traffic goes down where its lock stays away (R457). -/
theorem exec_lockLossTimeout {s : State} {l : Nat} (carries : [BState.admitting, .up, .retrain].contains (s.blink l).state = true) :
    exec (.lockLossTimeout l) s = .next (s.borderDown l 1) := congrArg Host.Outcome.next (if_pos carries)

theorem lastLink_counts {t : State} (runs : exec (.lockLossTimeout 0) lastLink = .next t) : (t.usage 0).integ = 1 := by
  have step : exec (.lockLossTimeout 0) lastLink = .next (lastLink.borderDown 0 1) := exec_lockLossTimeout (by decide)
  rw [← Host.Outcome.next.inj (step.symm.trans runs)]
  decide +kernel

/-- Refutes O40: a lost link that fences its peer frees a line whose waiting read meets a poisoned block, which counts in the usage of the
read's glove; the clause leaves the usage out of what may change. -/
theorem not_borderLinkDownCommandsComplete : ¬ Obligations.BorderLinkDownCommandsComplete := by
  unfold Obligations.BorderLinkDownCommandsComplete
  rintro ⟨down, -⟩
  obtain ⟨t, runs, -, -, -, -, only⟩ := down lastLink 0 1 0 ⟨0, 0, 0, 0, 0⟩ (.lockLossTimeout 0) (by decide)
    (.inr (.inr (.inr (.inr (.inr (.inl ⟨rfl, rfl, .inr (.inl rfl)⟩))))))
  have counted := lastLink_counts runs
  rw [State.usage, show t.usg = lastLink.usg from only.agree .usg (by decide)] at counted
  exact absurd counted (by decide)

end Sys2Proof.Machine
end

