-- ==== Sys2Proof/Proofs/BorderTraining.lean ====
section
/-! PROOFS. Training and width of a Border link (R446, R455-R459). -/

namespace Sys2Proof.Machine

/-! ### What the operations of a Border link leave -/

section Ops
variable (s : State) (l : Nat)

@[simp] theorem State.putFlit_blink (f : BFlit) (j : Nat) : (s.putFlit l f).blink j = s.blink j := rfl
@[simp] theorem State.putFlit_peer (f : BFlit) (j : Nat) : (s.putFlit l f).peer j = s.peer j := rfl
@[simp] theorem State.putFlit_out (f : BFlit) :
    (s.putFlit l f).out = s.out ++ [.flit l f (laneGroups (s.blink l).active (flitBytes f))] := rfl

theorem State.putFlit_onlyIn (f : BFlit) : OnlyIn [.out] s (s.putFlit l f) := onlyIn_iff.mpr (by simp [State.putFlit])

theorem State.modBlink_onlyIn (m : BLink → BLink) : OnlyIn [.basket] s (s.modBlink l m) := onlyIn_iff.mpr (by simp)

theorem State.modBlink_modBlink (m n : BLink → BLink) : (s.modBlink l m).modBlink l n = s.modBlink l (fun x => n (m x)) := by
  simp only [State.modBlink, Tbl.mod, Tbl.get_set_same, Tbl.set_set]

/-- A link as a state gives it. -/
def BLink.enters (st : BState) (x : BLink) : BLink := { x with state := st, wasUp := x.wasUp || st == .up }

/-- A link that is in the state stays. -/
theorem State.setBState_same {st : BState} (h : (s.blink l).state = st) : s.setBState l st = s := by
  simp [State.setBState, h]

/-- A link enters another state, and its source tells (R457, R481). -/
theorem State.setBState_other {st : BState} (h : (s.blink l).state ≠ st) :
    s.setBState l st = (s.modBlink l (BLink.enters st)).edge (borderSource l) := if_neg (by simpa using h)

section Enters
variable {st : BState} (h : (s.blink l).state ≠ st)
include h

theorem State.setBState_blink : (s.setBState l st).blink l = (s.blink l).enters st := by
  rw [State.setBState_other _ _ h, State.edge_blink, State.modBlink_same]

theorem State.setBState_blink_ne {j : Nat} (hj : j ≠ l) : (s.setBState l st).blink j = s.blink j := by
  rw [State.setBState_other _ _ h, State.edge_blink, State.modBlink_ne _ _ _ hj]

end Enters

theorem State.setBState_onlyIn (st : BState) : OnlyIn [.basket, .evt] s (s.setBState l st) := by
  unfold State.setBState
  split
  · exact .refl _ s
  · exact onlyIn_iff.mpr (by simp)

theorem State.setBState_out (st : BState) : (s.setBState l st).out = s.out := (s.setBState_onlyIn l st).agree .out (by decide)

/-- With nothing unacknowledged a replay is counted only. -/
theorem State.replayBorder_none (empty : (s.blink l).replay = []) :
    s.replayBorder l = s.modBlink l (fun x => { x with replays := min 65535 (x.replays + 1) }) := by
  have none' : ((s.modBlink l (fun x => { x with replays := satAdd 65535 x.replays 1 })).blink l).replay = [] := by
    rw [State.modBlink_same, empty]
  simp only [State.replayBorder, none', List.foldl_nil]
  rfl

/-- With nothing to send no flit goes. -/
theorem State.pumpBorder_none (empty : (s.blink l).tx = []) (n : Nat) : s.pumpBorder l n = s := by
  cases n with
  | zero => rfl
  | succ n => simp [State.pumpBorder, empty]

theorem State.sendCtrl_ident : s.sendCtrl l .ident = (s.modBlink l (fun x => { x with ctrl := some .ident })).putFlit l (.ident {
    pos := s.boot.cfg.pos, link := l, lanes := (s.blink l).active, serial := Config.serial, digest := Config.sha384 s.boot.cfg.topology }) := rfl

end Ops

/-! ### The commands (R446, R455, R457, R459) -/

section Commands
variable {s : State} {l : Nat}

theorem exec_downRetry (down : (s.blink l).state = .down) (free : s.fenced (borderUnit l) = false) :
    exec (.downRetry l) s = .next (s.setBState l .training) := congrArg Host.Outcome.next (if_pos (by simp [down, free]))

theorem exec_downRetry_idle (idle : (s.blink l).state ≠ .down ∨ s.fenced (borderUnit l) = true) : exec (.downRetry l) s = .next s :=
  congrArg Host.Outcome.next (if_neg (by rcases idle with h | h <;> simp [h]))

theorem exec_borderSymbolLock (awake : s.awake = true) (training : (s.blink l).state = .training) :
    exec (.borderSymbolLock l) s = .next (((s.modBlink l BLink.fresh).setBState l .ident).sendCtrl l .ident) :=
  congrArg Host.Outcome.next (if_pos (by simp [awake, training]))

theorem exec_borderSymbolLock_idle (idle : (s.blink l).state ≠ .training) : exec (.borderSymbolLock l) s = .next s :=
  congrArg Host.Outcome.next (if_neg (by simp [idle]))

section Ident
variable {i : Ident} (awake : s.awake = true)
include awake

theorem exec_ident_again (there : (s.blink l).state = .admitting ∨ (s.blink l).state = .up) :
    exec (.ident l i) s = .next ((s.sendCtrl l .ident).modBlink l (fun y => { y with ctrl := (s.blink l).ctrl })) :=
  congrArg Host.Outcome.next ((if_neg (by simp [awake])).trans (if_pos (by simpa using there)))

variable (waits : (s.blink l).state = .ident) (far : s.farEnd l = some (i.pos, i.link)) (digest : i.digest = Config.sha384 s.boot.cfg.topology)
include waits far digest

theorem exec_ident_matches : exec (.ident l i) s = .next
    (if ((s.modBlink l (fun x => { x with ctrl := none })).peer (s.peerOf l)).state == .admitted
      then (s.modBlink l (fun x => { x with ctrl := none })).setBState l .up
      else ((s.modBlink l (fun x => { x with ctrl := none })).setBState l .admitting).startAdmission (s.peerOf l)) :=
  congrArg Host.Outcome.next ((if_neg (by simp [awake])).trans ((if_neg (by simp [waits])).trans ((if_neg (by simp [waits])).trans
    (if_neg (by simp [far, digest])))))

theorem exec_ident_admitted (admitted : (s.peer (s.peerOf l)).state = .admitted) :
    exec (.ident l i) s = .next ((s.modBlink l (fun x => { x with ctrl := none })).setBState l .up) := by
  rw [exec_ident_matches awake waits far digest, if_pos (by simpa using admitted)]

theorem exec_ident_new (new : (s.peer (s.peerOf l)).state ≠ .admitted) :
    exec (.ident l i) s = .next (((s.modBlink l (fun x => { x with ctrl := none })).setBState l .admitting).startAdmission (s.peerOf l)) := by
  rw [exec_ident_matches awake waits far digest, if_neg (by simpa using new)]

end Ident

section Width
variable {mask m : BitVec 8} (awake : s.awake = true)

/-- This end's own width proposal is under way. -/
def BLink.proposes (x : BLink) : Bool :=
  match x.ctrl with
  | some (.widthReq _) => true
  | _ => false

theorem BLink.proposes_false {x : BLink} (h : ∀ m, x.ctrl ≠ some (.widthReq m)) : x.proposes = false := by
  unfold BLink.proposes
  split
  · next m hm => exact absurd hm (h m)
  · rfl

theorem exec_widthReq_branches : exec (.widthReq l mask) s = .next
    (if !s.awake || !((s.blink l).state == .up || (s.blink l).state == .retrain) || ((s.blink l).proposes && s.boot.cfg.pos < s.peerOf l) then s
      else match laneSet ((s.blink l).retired ||| ~~~mask) with
        | none => (s.retireLink l).afterDown l (s.blink l).state
        | some m => (((((s.putFlit l (.widthAck m)).modBlink l (fun x => { x with active := m, ctrl := none })).setBState l .up).replayBorder
          l).pumpBorder l 1024)) := rfl

include awake

theorem exec_widthReq_precedes (own : (s.blink l).ctrl = some (.widthReq m)) (first : s.boot.cfg.pos < s.peerOf l) :
    exec (.widthReq l mask) s = .next s := by
  have proposes : (s.blink l).proposes = true := by rw [BLink.proposes, own]
  rw [exec_widthReq_branches]
  exact congrArg Host.Outcome.next (if_pos (by simp [proposes, first]))

section Taken
variable (there : (s.blink l).state = .up ∨ (s.blink l).state = .retrain)
  (yields : (∀ m, (s.blink l).ctrl ≠ some (.widthReq m)) ∨ s.peerOf l < s.boot.cfg.pos)
include there yields

theorem widthReq_taken : ¬ (!s.awake || !((s.blink l).state == .up || (s.blink l).state == .retrain) ||
    ((s.blink l).proposes && s.boot.cfg.pos < s.peerOf l)) = true := by
  have up : ((s.blink l).state == .up || (s.blink l).state == .retrain) = true := by simpa using there
  rcases yields with h | h
  · simp [awake, up, BLink.proposes_false h]
  · simp [awake, up, Nat.not_lt.mpr h.le]

theorem exec_widthReq (fits : laneSet ((s.blink l).retired ||| ~~~mask) = some m) : exec (.widthReq l mask) s = .next
    (((((s.putFlit l (.widthAck m)).modBlink l (fun x => { x with active := m, ctrl := none })).setBState l .up).replayBorder l).pumpBorder
      l 1024) := by
  rw [exec_widthReq_branches, if_neg (widthReq_taken awake there yields), fits]

theorem exec_widthReq_retires (unfit : laneSet ((s.blink l).retired ||| ~~~mask) = none) :
    exec (.widthReq l mask) s = .next ((s.retireLink l).afterDown l (s.blink l).state) := by
  rw [exec_widthReq_branches, if_neg (widthReq_taken awake there yields), unfit]

end Taken

theorem exec_widthAck (retrain : (s.blink l).state = .retrain) (free : mask &&& (s.blink l).retired = 0) : exec (.widthAck l mask) s = .next
    ((((s.modBlink l (fun x => { x with active := mask, ctrl := none })).setBState l .up).replayBorder l).pumpBorder l 1024) :=
  congrArg Host.Outcome.next (if_pos (by simp [awake, retrain, free]))

omit awake in
theorem exec_widthAck_idle (idle : (s.blink l).state ≠ .retrain ∨ mask &&& (s.blink l).retired ≠ 0) : exec (.widthAck l mask) s = .next s :=
  congrArg Host.Outcome.next (if_neg fun h => by
    simp only [Bool.and_eq_true, beq_iff_eq] at h
    exact idle.elim (· h.1.2) (· h.2))

end Width

end Commands

/-! ### What the commands leave of the link -/

section Effects
variable {s : State} {l : Nat}

theorem borderSymbolLock_effect (awake : s.awake = true) (training : (s.blink l).state = .training) :
    ∃ t, exec (.borderSymbolLock l) s = .next t ∧ t.blink l = { (s.blink l).fresh with state := .ident, ctrl := some .ident } ∧
      (∃ i : Ident, i = {
          pos := s.boot.cfg.pos, link := l, lanes := (laneSet (s.blink l).retired).getD 0, serial := Config.serial
          digest := Config.sha384 s.boot.cfg.topology } ∧
        t.out = s.out ++ [.flit l (.ident i) (laneGroups (t.blink l).active (flitBytes (.ident i)))]) ∧
      (∀ j, j ≠ l → t.blink j = s.blink j) ∧ OnlyIn [.out, .basket, .evt] s t := by
  rw [exec_borderSymbolLock awake training]
  obtain ⟨u, hu⟩ : ∃ u, u = (s.modBlink l BLink.fresh).setBState l .ident := ⟨_, rfl⟩
  have away : ((s.modBlink l BLink.fresh).blink l).state ≠ .ident := by
    rw [State.modBlink_same, show (s.blink l).fresh.state = (s.blink l).state from rfl, training]
    decide
  have self : u.blink l = { (s.blink l).fresh with state := .ident } := by
    rw [hu, State.setBState_blink _ _ away, State.modBlink_same]
    simp [BLink.enters]
  have only : OnlyIn [.basket, .evt] s u := by
    rw [hu]
    exact ((s.modBlink_onlyIn l _).trans (State.setBState_onlyIn _ l _)).mono (by decide)
  have boot : u.boot = s.boot := only.agree .boot (by decide)
  have lanes : (u.blink l).active = (laneSet (s.blink l).retired).getD 0 := by
    rw [self]
    rfl
  rw [← hu, State.sendCtrl_ident, boot, lanes]
  refine ⟨_, rfl, ?_, ⟨_, rfl, ?_⟩, fun j hj => ?_, ?_⟩
  · rw [State.putFlit_blink, State.modBlink_same, self]
  · rw [State.putFlit_out, State.putFlit_blink, State.modBlink_gout, only.agree .out (by decide)]
  · rw [State.putFlit_blink, State.modBlink_ne _ _ _ hj, hu, State.setBState_blink_ne _ _ away hj, State.modBlink_ne _ _ _ hj]
  · exact ((only.trans (State.modBlink_onlyIn _ l _)).trans (State.putFlit_onlyIn _ l _)).mono (by decide)

/-- Admission of a peer that no exchange is under way with. -/
theorem State.startAdmission_absent {n : Nat} (absent : (s.peer n).state = .absent) (idle : (s.peer n).spdm = 0) :
    s.startAdmission n =
      if s.boot.cfg.pos < n then (s.modPeer n (fun p => { p with state := .admitting, spdm := 1, chainOk := false })).sendMgmt n (.spdm 0x84)
      else s.modPeer n (fun p => { p with state := .admitting, spdm := 1, chainOk := false }) := by
  have set : s.modPeer n (fun p => { p with state := if p.state == .fenced then .fenced else .admitting, spdm := 1, chainOk := false }) =
      s.modPeer n (fun p => { p with state := .admitting, spdm := 1, chainOk := false }) :=
    congrArg (fun x => { s with basket.peers := s.basket.peers.set n x }) (by
      rw [show Tbl.get {} s.basket.peers n = s.peer n from rfl]
      simp [absent])
  unfold State.startAdmission
  rw [if_neg (by simp [idle]), set]
  rfl

theorem startAdmission_effect {n : Nat} (absent : (s.peer n).state = .absent) (idle : (s.peer n).spdm = 0) :
    (∀ j, (s.startAdmission n).blink j = s.blink j) ∧
    (s.startAdmission n).peer n = { s.peer n with state := .admitting, spdm := 1, chainOk := false } ∧
    (s.startAdmission n).out = s.out ++ (if s.boot.cfg.pos < n then [.mgmt n (.spdm 0x84) (s.peer n).session] else []) ∧
    OnlyIn [.out, .basket] s (s.startAdmission n) := by
  rw [State.startAdmission_absent absent idle]
  split
  · refine ⟨fun j => by simp [State.sendMgmt], by simp [State.sendMgmt], by simp [State.sendMgmt], onlyIn_iff.mpr (by simp [State.sendMgmt])⟩
  · exact ⟨fun j => by simp, by simp, by simp, onlyIn_iff.mpr (by simp)⟩

/-- The link of a matching IDENT in a state of traffic or admission. -/
theorem ident_enters {st : BState} (waits : (s.blink l).state = .ident) (other : st ≠ .ident) :
    ((s.modBlink l (fun x => { x with ctrl := none })).setBState l st).blink l =
      { s.blink l with state := st, wasUp := (s.blink l).wasUp || st == .up, ctrl := none } := by
  have away : ((s.modBlink l (fun x => { x with ctrl := none })).blink l).state ≠ st := by
    rw [State.modBlink_same]
    simpa [waits] using other.symm
  rw [State.setBState_blink _ _ away, State.modBlink_same]
  rfl

theorem ident_enters_onlyIn (st : BState) : OnlyIn [.basket, .evt] s ((s.modBlink l (fun x => { x with ctrl := none })).setBState l st) :=
  ((s.modBlink_onlyIn l _).trans (State.setBState_onlyIn _ l st)).mono (by decide)

/-- A link whose width changes with nothing unacknowledged and nothing to send. -/
theorem State.newWidth_idle {u : State} (replay : (u.blink l).replay = []) (tx : (u.blink l).tx = []) :
    (u.replayBorder l).pumpBorder l 1024 = u.modBlink l (fun x => { x with replays := min 65535 (x.replays + 1) }) := by
  rw [State.replayBorder_none _ _ replay, State.pumpBorder_none]
  rw [State.modBlink_same, tx]

end Effects

/-- Settles O41: each command is its `exec_` equation, and what it leaves of its link follows from the operations' rules. -/
theorem borderTrainingCommandsComplete : Obligations.BorderTrainingCommandsComplete := by
  unfold Obligations.BorderTrainingCommandsComplete
  intro s l
  refine ⟨fun down free => ?_, fun awake training => ?_, fun i awake waits far digest => ⟨fun admitted => ?_, fun absent idle => ?_⟩,
    fun mask m awake up noCtrl replay tx fits => ?_, fun mask awake retrain free replay tx => ?_, exec_downRetry_idle,
    exec_borderSymbolLock_idle, fun i awake waits far digest => exec_ident_new awake waits far digest, fun i awake there => ?_,
    fun mask awake there => ⟨fun yields => ⟨fun m => exec_widthReq awake there yields, exec_widthReq_retires awake there yields⟩,
      fun m own first => exec_widthReq_precedes awake own first⟩,
    fun mask awake retrain free => exec_widthAck awake retrain free, fun mask => exec_widthAck_idle⟩
  · have away : (s.blink l).state ≠ .training := by simp [down]
    exact ⟨_, exec_downRetry down free, by rw [State.setBState_blink _ _ away]; simp [BLink.enters],
      fun j hj => State.setBState_blink_ne _ _ away hj, s.setBState_onlyIn l _⟩
  · obtain ⟨t, step, self, sends, rest⟩ := borderSymbolLock_effect awake training
    exact ⟨t, step, by rw [self], by rw [self], by rw [self]; rfl, by rw [self]; rfl, by rw [self]; rfl, by rw [self]; rfl,
      by rw [self]; rfl, by rw [self]; rfl, sends, rest⟩
  · exact ⟨_, exec_ident_admitted awake waits far digest admitted, by rw [ident_enters waits (by decide)]; simp, ident_enters_onlyIn _⟩
  · let u := (s.modBlink l (fun x => { x with ctrl := none })).setBState l .admitting
    have only : OnlyIn [.basket, .evt] s u := ident_enters_onlyIn _
    have peer : u.peer (s.peerOf l) = s.peer (s.peerOf l) := by
      simp only [u, State.setBState]
      split <;> simp
    have boot : u.boot = s.boot := only.agree .boot (by decide)
    obtain ⟨links, peer', out, only'⟩ := startAdmission_effect (s := u) (n := s.peerOf l) (by rw [peer, absent]) (by rw [peer, idle])
    rw [peer] at peer' out
    refine ⟨_, exec_ident_new awake waits far digest (by simp [absent]), ?_, peer', ?_, (only.trans only').mono (by decide)⟩
    · rw [links, ident_enters waits (by decide)]
      simp
    · rw [out, boot, only.agree .out (by decide)]
  · let u := (s.putFlit l (.widthAck m)).modBlink l (fun x => { x with active := m, ctrl := none })
    have self : u.blink l = { s.blink l with active := m, ctrl := none } := State.modBlink_same ..
    have same : u.setBState l .up = u := State.setBState_same _ _ (by rw [self]; exact up)
    refine ⟨u.modBlink l (fun x => { x with replays := min 65535 (x.replays + 1) }),
      (exec_widthReq awake (.inl up) (.inl (by simp [noCtrl])) fits).trans (congrArg _ ?_), ?_, ?_, fun j hj => ?_, ?_⟩
    · rw [show (((s.putFlit l (.widthAck m)).modBlink l (fun x => { x with active := m, ctrl := none })).setBState l .up) = u from same]
      exact State.newWidth_idle (by rw [self]; exact replay) (by rw [self]; exact tx)
    · rw [State.modBlink_same, self, ← noCtrl]
    · rfl
    · rw [State.modBlink_ne _ _ _ hj, State.modBlink_ne _ _ _ hj, State.putFlit_blink]
    · exact (((s.putFlit_onlyIn l _).trans (State.modBlink_onlyIn _ l _)).trans (State.modBlink_onlyIn _ l _)).mono (by decide)
  · let u := (s.modBlink l (fun x => { x with active := mask, ctrl := none })).setBState l .up
    have away : ((s.modBlink l (fun x => { x with active := mask, ctrl := none })).blink l).state ≠ .up := by
      rw [State.modBlink_same]
      simp [retrain]
    have self : u.blink l = { s.blink l with active := mask, ctrl := none, state := .up, wasUp := true } := by
      rw [State.setBState_blink _ _ away, State.modBlink_same]
      simp [BLink.enters]
    have idle := State.newWidth_idle (u := u) (l := l) (by rw [self]; exact replay) (by rw [self]; exact tx)
    refine ⟨_, (exec_widthAck awake retrain free).trans (congrArg _ idle), ?_, fun j hj => ?_, ?_⟩
    · rw [State.modBlink_same, self]
    · rw [State.modBlink_ne _ _ _ hj, State.setBState_blink_ne _ _ away hj, State.modBlink_ne _ _ _ hj]
    · exact (((s.modBlink_onlyIn l _).trans (State.setBState_onlyIn _ l _)).trans (State.modBlink_onlyIn _ l _)).mono (by decide)
  · refine ⟨_, exec_ident_again awake there, ?_, fun j hj => ?_, ⟨⟨s.boot.cfg.pos, l, (s.blink l).active, Config.serial,
      Config.sha384 s.boot.cfg.topology⟩, rfl, rfl, rfl, ?_⟩, ?_⟩
    · rw [State.modBlink_same, State.sendCtrl_ident, State.putFlit_blink, State.modBlink_same]
    · rw [State.modBlink_ne _ _ _ hj, State.sendCtrl_ident, State.putFlit_blink, State.modBlink_ne _ _ _ hj]
    · rw [State.modBlink_gout, State.sendCtrl_ident, State.putFlit_out, State.modBlink_same]
      rfl
    · rw [State.sendCtrl_ident]
      exact (((s.modBlink_onlyIn l _).trans (State.putFlit_onlyIn _ l _)).trans (State.modBlink_onlyIn _ l _)).mono (by decide)

end Sys2Proof.Machine
end

