-- ==== Sys2Proof/Proofs/Reroutes.lean ====
section
/-! PROOFS. The end of a reroute (R463, R464). -/

namespace Sys2Proof.Machine

/-! ### The end of a reroute and the way back of what a peer asked for

When both REROUTE_DONE have been seen the dead link's traffic has moved to the survivor (R464), and so has the way back of every request
that came over the dead link (R463): `endReroute` writes the survivor into the entries that remember it, whichever link holds them. -/

/-- A request of the peer, remembered at its own link 1, whose response is to go back over link 0. -/
def backOverDead : BLink := { state := .up, inbound := [⟨1, 7, { op := .memRd }, 0⟩] }

/-- Link 0 is dead, link 1 carries on, and this end has sent its REROUTE_DONE. -/
def rerouteSent : State :=
  { sys := { devRst := false, mode := .service }
    boot := { cfg := { peers := [some (1, 0), some (1, 1)] } }
    basket := { blinks := [(1, backOverDead)], peers := [(1, { state := .admitted, reroute := some { dead := 0, survivor := 1, sent := true } })] } }

theorem rerouteSent_moves {t : State} (runs : exec (.rerouteDone 1 0) rerouteSent = .next t) : (t.blink 1).inbound.map (·.back) = [1] := by
  have step : exec (.rerouteDone 1 0) rerouteSent = .next (rerouteSent.endReroute 1 { dead := 0, survivor := 1, sent := true }) := rfl
  rw [← Host.Outcome.next.inj (step.symm.trans runs)]
  decide +kernel

/-- Refutes O42: the end of a reroute writes the survivor into what other links remember of the dead one, so a link other than the dead
one changes. -/
theorem not_rerouteCommandsComplete : ¬ Obligations.RerouteCommandsComplete := by
  unfold Obligations.RerouteCommandsComplete
  rintro ⟨commands, -⟩
  obtain ⟨-, -, -, done, -⟩ := commands rerouteSent 1 1 0 0 0 (by decide) (by decide) (by decide)
  obtain ⟨t, runs, -, -, links, -⟩ := done { dead := 0, survivor := 1, sent := true } (by decide) rfl rfl rfl rfl
  have moves := rerouteSent_moves runs
  rw [links 1 (by decide)] at moves
  exact absurd moves (by decide)

end Sys2Proof.Machine
end

