-- ==== Sys2Proof/Proofs/BorderPackets.lean ====
section
/-! PROOFS. Border packets (R443, R461-R463, R475). -/

namespace Sys2Proof.Machine

/-! ### A Border packet that arrives whole (R443, R461-R463) -/

/-- A Border packet has its header's bytes. -/
theorem borderBytes_ne_nil (b : BorderPkt) : borderBytes b ≠ [] := by
  simp [borderBytes, leBytes]

/-- No stream of an empty buffer begins with a packet. -/
theorem stream_empty {x : BLink} (empty : x.rx = []) (b : BorderPkt) (vc : Nat) :
    ((x.rx.get [] vc).flatten.take (borderBytes b).length == borderBytes b) = false := by
  rw [empty, Tbl.get_nil, List.flatten_nil, List.take_nil]
  exact beq_false_of_ne (borderBytes_ne_nil b).symm

/-- The request that a peer's packet becomes: the link unit's own (R461). -/
def borderRequest (k : Nat) (b : BorderPkt) : Packet :=
  { op := b.op, vc := b.op.vc (vcService (b.op.vc 0)), initUnit := borderUnit k, initKnot := unitKnot (borderUnit k), addr := b.addr,
    len := b.len, firstBE := b.firstBE, lastBE := b.lastBE, world := b.world, gloveValid := b.gloveValid, glove := b.glove,
    home := b.home, ackReq := b.ackReq, ep := b.ep, prefetch := b.prefetch, data := b.data }

section Packet
variable {s : State} {l : Nat} {b : BorderPkt} (awake : s.awake = true) (up : (s.blink l).state = .up)
  (unfenced : s.fenced (borderUnit l) = false)
include awake up unfenced

/-- The packet is taken: the link is UP. -/
theorem borderPacket_taken (held : Bool) :
    ¬ (!s.awake || !((held || (s.blink l).state == .up) || (s.blink l).state == .admitting) || s.fenced (borderUnit l)) = true := by
  simp [awake, up, unfenced]

/-- A MGMT packet that came in PAYLOAD flits leaves their bytes and raises its source (R443, R481). -/
theorem exec_borderPacket_mgmt_held (mgmt : b.op = .mgmt)
    (held : (((s.blink l).rx.get [] 8).flatten.take (borderBytes b).length == borderBytes b) = true) :
    exec (.borderPacket l b) s = .next
      ((s.modBlink l (BLink.consume 8 (borderBytes b).length (borderBytes b).length)).edge (28 + l)) := by
  have vc (n : Nat) : b.op.vc n = 8 := by rw [mgmt]; rfl
  have code : borderCode b.op ≠ 0 := by rw [mgmt]; decide
  have is : (b.op == .mgmt) = true := beq_iff_eq.mpr mgmt
  refine congrArg Host.Outcome.next ((if_neg (borderPacket_taken awake up unfenced _)).trans ?_)
  simp only [vc, held, if_true, bne_iff_ne.mpr code, Bool.and_self, beq_false_of_ne code, Bool.false_eq_true, if_false, is]

variable (empty : (s.blink l).rx = [])
include empty

theorem exec_borderPacket_reserved (reserved : borderCode b.op = 0) :
    exec (.borderPacket l b) s = .next (s.contained 8 0x0046 (borderUnit l) 0 none) := by
  refine congrArg Host.Outcome.next ((if_neg (borderPacket_taken awake up unfenced _)).trans ?_)
  simp only [reserved, bne_self_eq_false, Bool.false_and, Bool.false_eq_true, if_false, beq_self_eq_true, if_true]

theorem exec_borderPacket_mgmt (mgmt : b.op = .mgmt) : exec (.borderPacket l b) s = .next (s.edge (28 + l)) := by
  have code : borderCode b.op ≠ 0 := by rw [mgmt]; decide
  have is : (b.op == .mgmt) = true := beq_iff_eq.mpr mgmt
  refine congrArg Host.Outcome.next ((if_neg (borderPacket_taken awake up unfenced _)).trans ?_)
  simp only [stream_empty empty, Bool.and_false, Bool.false_eq_true, if_false, beq_false_of_ne code, is, if_true]

/-- A response ends the transaction of its XID, or the part that it answers (R462, R463). -/
theorem exec_borderPacket_response (response : b.op.cls = 2) (code : borderCode b.op ≠ 0) {e : Xid}
    (found : (s.blink b.originLink).xids.find? (fun e => e.xid == b.xid) = some e) :
    exec (.borderPacket l b) s = .next ((s.modBlink b.originLink (fun x =>
        { x with xids := if b.op != .cplD || e.left - b.data.length == 0 then x.xids.filter (fun y => y.xid != b.xid)
                         else x.xids.map (fun y => if y.xid == b.xid then { y with left := e.left - b.data.length } else y) })).respond
      { e.pkt with dest := borderUnit b.originLink, destKnot := unitKnot (borderUnit b.originLink) } b.op b.status b.addr b.data b.ep) := by
  have notMgmt : (b.op == .mgmt) = false := beq_false_of_ne fun h => by rw [h] at response; exact absurd response (by decide)
  refine congrArg Host.Outcome.next ((if_neg (borderPacket_taken awake up unfenced _)).trans ?_)
  simp only [stream_empty empty, Bool.and_false, Bool.false_eq_true, if_false, beq_false_of_ne code, notMgmt, up, beq_self_eq_true, Bool.or_true,
    Bool.not_true, response, if_true, found]

section Request
variable (request : b.op.cls = 0 ∨ b.op.cls = 1) (code : borderCode b.op ≠ 0)
include request code

/-- A request of a peer that is admitted becomes the link unit's own (R461). -/
theorem exec_borderPacket_request {k : Nat} (admitted : (s.peer (s.peerOf l)).state = .admitted)
    (from' : s.linkFrom (s.peerOf l) b.originLink = some k) :
    exec (.borderPacket l b) s = .next ((s.modBlink k (fun x =>
      { x with inbound := x.inbound ++ [⟨b.originLink, b.xid, borderRequest k b, l⟩] })).sendDev 0 (.borderIn k b.xid) (borderRequest k b) none) := by
  have notMgmt : (b.op == .mgmt) = false := beq_false_of_ne fun h => by rw [h] at request; exact absurd request (by decide)
  have notResponse : (b.op.cls == 2) = false := by rcases request with h | h <;> rw [h] <;> rfl
  refine congrArg Host.Outcome.next ((if_neg (borderPacket_taken awake up unfenced _)).trans ?_)
  simp only [stream_empty empty, Bool.and_false, Bool.false_eq_true, if_false, beq_false_of_ne code, notMgmt, up, beq_self_eq_true, Bool.or_true,
    Bool.not_true, notResponse, admitted, if_true, from']
  rfl

/-- One of a peer that is not admitted is dropped (R475). -/
theorem exec_borderPacket_dropped (away : (s.peer (s.peerOf l)).state ≠ .admitted) : exec (.borderPacket l b) s = .next s := by
  have notMgmt : (b.op == .mgmt) = false := beq_false_of_ne fun h => by rw [h] at request; exact absurd request (by decide)
  have notResponse : (b.op.cls == 2) = false := by rcases request with h | h <;> rw [h] <;> rfl
  refine congrArg Host.Outcome.next ((if_neg (borderPacket_taken awake up unfenced _)).trans ?_)
  simp only [stream_empty empty, Bool.and_false, Bool.false_eq_true, if_false, beq_false_of_ne code, notMgmt, up, beq_self_eq_true, Bool.or_true,
    Bool.not_true, notResponse, beq_false_of_ne away]

end Request
end Packet

/-- The response in the Weave of a Border response. -/
theorem respond_restored (s : State) (e : Xid) (u : Nat) (b : BorderPkt) :
    Sends (s.respond { e.pkt with dest := u, destKnot := unitKnot u } b.op b.status b.addr b.data b.ep) (fun x =>
      x.op = b.op ∧ x.dest = e.pkt.initUnit ∧ x.tag = e.pkt.tag ∧ x.status = b.status ∧ x.data = b.data ∧ x.ep = b.ep) := by
  obtain ⟨x, mem, sent⟩ := s.respond_sends { e.pkt with dest := u, destKnot := unitKnot u } b.op b.status b.addr b.data b.ep
  exact ⟨x, mem, by rw [sent]; exact ⟨rfl, rfl, rfl, rfl, rfl, rfl⟩⟩

/-- Settles O43: a request goes on as the link unit's own, a response ends what its XID names. -/
theorem borderPacketCompletes : Obligations.BorderPacketCompletes := by
  unfold Obligations.BorderPacketCompletes
  refine ⟨fun s l b awake up unfenced empty => ⟨fun k a read admitted from' pool => ?_, fun e cpl found => ?_,
    exec_borderPacket_mgmt awake up unfenced empty, exec_borderPacket_reserved awake up unfenced empty,
    fun request code _ away => exec_borderPacket_dropped awake up unfenced empty request code away, fun e cplD found part => ?_,
    fun k request code admitted from' => ⟨borderRequest k b, exec_borderPacket_request awake up unfenced empty request code admitted from',
      rfl, rfl, rfl, rfl, rfl, rfl, rfl, rfl, rfl, rfl, rfl, rfl, rfl, rfl⟩⟩,
    fun s l b awake up unfenced => exec_borderPacket_mgmt_held awake up unfenced⟩
  · let u := s.modBlink k (fun x => { x with inbound := x.inbound ++ [⟨b.originLink, b.xid, borderRequest k b, l⟩] })
    obtain ⟨x, mem, ctx, -, _, pkt⟩ := State.sendDev_pool_outst (s := u) (link := 0) (ctx := .borderIn k b.xid) (p := borderRequest k b)
      (c := none) (a := a) pool
    refine ⟨_, exec_borderPacket_request awake up unfenced empty (.inr (by rw [read]; rfl)) (by rw [read]; decide) admitted from',
      ⟨⟨b.originLink, b.xid, borderRequest k b, l⟩, ?_, rfl, rfl⟩, ⟨x, mem, ctx, ?_⟩, fun j hj => ?_, ?_⟩
    · rw [State.sendDev_blink, State.modBlink_same]
    · rw [pkt]
      exact ⟨read, rfl, rfl, rfl, rfl, rfl, rfl, rfl⟩
    · rw [State.sendDev_blink, State.modBlink_ne _ _ _ hj]
    · exact ((s.modBlink_onlyIn k _).trans (State.sendDev_onlyIn _ _ _ _ _)).mono (by decide)
  · refine ⟨_, exec_borderPacket_response awake up unfenced empty (by rw [cpl]; rfl) (by rw [cpl]; decide) found, ?_, fun j hj => ?_, ?_, ?_⟩
    · have last : (b.op != .cplD) = true := by rw [cpl]; rfl
      rw [State.respond_blink, State.modBlink_same]
      simp only [last, Bool.true_or, if_true]
    · rw [State.respond_blink, State.modBlink_ne _ _ _ hj]
    · obtain ⟨x, mem, op, dest, tag, status, -, -⟩ := respond_restored _ e (borderUnit b.originLink) b
      exact ⟨x, mem, op.trans cpl, dest, tag, status⟩
    · exact onlyIn_iff.mpr (by simp)
  · refine ⟨_, exec_borderPacket_response awake up unfenced empty (by rw [cplD]; rfl) (by rw [cplD]; decide) found, ?_, fun j hj => ?_, ?_, ?_⟩
    · have more : (b.op != .cplD || e.left - b.data.length == 0) = false := by
        rw [cplD]
        simpa using by omega
      rw [State.respond_blink, State.modBlink_same]
      simp only [more, Bool.false_eq_true, if_false]
    · rw [State.respond_blink, State.modBlink_ne _ _ _ hj]
    · obtain ⟨x, mem, op, rest⟩ := respond_restored _ e (borderUnit b.originLink) b
      exact ⟨x, mem, op.trans cplD, rest⟩
    · exact onlyIn_iff.mpr (by simp)

end Sys2Proof.Machine
end

