-- ==== Sys2Proof/Proofs/FaultReports.lean ====
section
/-! PROOFS. Fault reports at the collector (R513-R517, R535). -/

namespace Sys2Proof.Machine

/-! ### The flags of a fault-log record

A record's lowest flag says that the fault was corrected by a retry; the collector sets it for every report with code 0x0042, whatever its
error (R535; log entry 122). -/

/-- A device in service with nothing latched or logged. -/
def quietCollector : State := { sys := { devRst := false, mode := .service } }

/-- A contained fault with the code of a link retry. -/
def containedRetry : FaultReport := mkFault 8 .contained 0x0042 (borderUnit 0) 0 none

theorem containedRetry_flags {t : State} (runs : exec (.fault containedRetry) quietCollector = .next t) : t.flt.fltLog.map (·.flags) = [1] := by
  have step : exec (.fault containedRetry) quietCollector = .next (quietCollector.takeFault containedRetry) := rfl
  rw [← Host.Outcome.next.inj (step.symm.trans runs)]
  decide +kernel

/-- Refutes O44: the record of a contained fault with code 0x0042 has the flag of a correction by retry set, and the clause says no flag
is. -/
theorem not_faultsAreTakenByTheCollector : ¬ Obligations.FaultsAreTakenByTheCollector := by
  unfold Obligations.FaultsAreTakenByTheCollector
  intro taken
  obtain ⟨first, -⟩ := taken quietCollector containedRetry (by decide) (by decide)
  obtain ⟨t, runs, -, -, log, -⟩ := first rfl (by decide) (by decide) (by decide) (by decide) (by decide)
  have flags := containedRetry_flags runs
  rw [log] at flags
  exact absurd flags (by decide)

end Sys2Proof.Machine
end

