-- ==== Sys2Proof/Proofs/FaultTimers.lean ====
section
/-! PROOFS. Buckets, quiet periods and the retirement log (R164-R166, R520-R537). -/

namespace Sys2Proof.Machine

/-! ### Buckets drain (R164-R166, R520) -/

section Drain
variable (s : State)

theorem exec_drain_wire (k p g : Nat) : exec (.leakyBucketDrain (.wire k p g)) s =
    .next { s with flt.wires := s.flt.wires.mod 0 ((k * 4 + p) * 8 + g) (· - 1) } := rfl
theorem exec_drain_hostLane (c l : Nat) : exec (.leakyBucketDrain (.hostLane c l)) s =
    .next { s with flt.hostLanes := s.flt.hostLanes.mod 0 (c * 16 + l) (· - 1) } := rfl
theorem exec_drain_hbmPseudo (q c : Nat) : exec (.leakyBucketDrain (.hbmPseudo q c)) s =
    .next { s with flt.pseudo := s.flt.pseudo.mod 0 (q * 32 + c) (· - 1) } := rfl
theorem exec_drain_recovery (u : Nat) : exec (.leakyBucketDrain (.recovery u)) s =
    .next (s.modUnit u (fun x => { x with bucket := x.bucket - 1 })) := rfl
theorem exec_drain_ddrIntegrity (g : Nat) : exec (.leakyBucketDrain (.ddrIntegrity g)) s =
    .next (s.modGate g (fun x => { x with integ := x.integ - 1, suspect := x.suspect && decide (1 < x.integ) })) := rfl
theorem exec_drain_ddrUncorrectable (g : Nat) : exec (.leakyBucketDrain (.ddrUncorrectable g)) s =
    .next (s.modGate g (fun x => { x with ue := x.ue - 1 })) := rfl
theorem exec_drain_borderDown (l : Nat) : exec (.leakyBucketDrain (.borderDown l)) s =
    .next (s.modBlink l (fun x => { x with downBucket := x.downBucket - 1 })) := rfl
theorem exec_drain_borderLane (l i : Nat) : exec (.leakyBucketDrain (.borderLane l i)) s =
    .next (s.modBlink l (fun x => { x with lanes := x.lanes.mod 0 i (· - 1) })) := rfl

end Drain

/-! ### The quiet period (R524, R525) -/

section Quiet
variable {s : State} {u : Nat}

theorem exec_selfTestTick_idle {b : Bool} (idle : (s.unitFlt u).state ≠ 1) : exec (.selfTestTick u b) s = .next s :=
  congrArg Host.Outcome.next (if_pos (by simp [idle]))

theorem exec_quietPeriodExpiry_idle (idle : (s.unitFlt u).state ≠ 1) : exec (.quietPeriodExpiry u) s = .next s :=
  congrArg Host.Outcome.next (if_pos (by simp [idle]))

variable (awake : s.awake = true) (fenced : (s.unitFlt u).state = 1)
include awake fenced

theorem exec_selfTestTick_pass : exec (.selfTestTick u true) s = .next (s.modUnit u (fun x => { x with quiet := x.quiet - 1 })) :=
  congrArg Host.Outcome.next ((if_neg (by simp [awake, fenced])).trans (if_pos rfl))

theorem exec_selfTestTick_fail : exec (.selfTestTick u false) s = .next
    ((s.modUnit u (fun x => { x with quiet := s.boot.cfg.quiet })).report (mkFault (unitClass u) .selfTest 0x0041 u 0 none)) :=
  congrArg Host.Outcome.next ((if_neg (by simp [awake, fenced])).trans (if_neg Bool.false_ne_true))

omit awake fenced

/-- A unit comes out of its fence: what it held is gone (R525). -/
def State.unfenced (s : State) (u : Nat) : State :=
  match unitKind u with
  | 0 => (s.dropCaches (fun k => (s.cuffLinks (unitCuff u)).any (fun l => k == cacheKey u l))).modCuff (unitCuff u) (fun c => { c with locks := [] })
  | 4 => if (s.blink (unitCuff u)).state == .down then s.setBState (unitCuff u) .training else s
  | 5 => { (s.dropCaches (· == u)) with
           net.gstat := s.net.gstat.filter (fun e => e.1 / 1024 != unitQuad u)
           usg.usage := s.usg.usage.map (fun (g, x) => (g, { x with base := x.base.set (unitQuad u) {} })) }
  | _ => s.dropCaches (· == u)

/-- The fence of a unit is lifted in its record. -/
def State.fenceLifted (s : State) (u : Nat) : State :=
  s.modUnit u (fun x => { x with state := 0, code := 0, quiet := 0, recoveries := satAdd 65535 x.recoveries 1 })

/-- The device returns to Service where nothing else is fenced or retired (R532). -/
def State.backToService (s : State) : State := if s.sys.mode == .degraded && !s.anyFence then s.setMode .service 0 else s

theorem State.dropCaches_onlyIn (hit : Nat → Bool) : OnlyIn [.pool] s (s.dropCaches hit) := onlyIn_iff.mpr (by simp [State.dropCaches])

theorem State.unfenced_onlyIn : OnlyIn [.pool, .host, .basket, .evt, .net, .usg] s (s.unfenced u) := by
  have unlocked (t : State) : OnlyIn [.host] t (t.modCuff (unitCuff u) fun c => { c with locks := [] }) := onlyIn_iff.mpr (by simp)
  unfold State.unfenced
  split
  · exact ((s.dropCaches_onlyIn _).trans (unlocked _)).mono (by decide)
  · split
    · exact (s.setBState_onlyIn _ _).mono (by decide)
    · exact .refl _ s
  · exact onlyIn_iff.mpr (by simp [State.dropCaches])
  · exact (s.dropCaches_onlyIn _).mono (by decide)

theorem State.unfenced_gate (gate : unitKind u = 1) : s.unfenced u = s.dropCaches (· == u) := by
  simp [State.unfenced, gate]

theorem State.raiseAllPf_onlyIn (b : Nat) : OnlyIn [.host, .net] s (s.raiseAllPf b) := onlyIn_iff.mpr (by simp)

theorem State.setMode_onlyIn (m : Mode) (c : Nat) : OnlyIn [.sys, .out, .host, .net] s (s.setMode m c) := by
  unfold State.setMode
  split
  · exact .refl _ s
  · have alarmed (t : State) : OnlyIn [.sys, .out] t t.alarm := by
      unfold State.alarm
      split
      · exact .refl _ t
      · exact onlyIn_iff.mpr (by simp)
    have set : OnlyIn [.sys] s { s with sys.mode := m, sys.cause := c } := onlyIn_iff.mpr (by simp)
    exact ((set.trans (alarmed _)).trans (State.raiseAllPf_onlyIn _)).mono (by decide)

theorem State.setMode_links (m : Mode) (c : Nat) : (s.setMode m c).host.links = s.host.links := by
  have alarmed (t : State) : t.alarm.host = t.host := by
    unfold State.alarm
    split <;> rfl
  have raised (t : State) (b : Nat) : (t.raiseAllPf b).host.links = t.host.links :=
    foldl_same (fun s : State => s.host.links) _ _ _ fun s l => by simp
  unfold State.setMode
  split
  · rfl
  · rw [raised, alarmed]

/-- A change of the mode fences and retires nothing. -/
theorem State.setMode_anyFence (m : Mode) (c : Nat) : (s.setMode m c).anyFence = s.anyFence := by
  have only := s.setMode_onlyIn m c
  have flt : (s.setMode m c).flt = s.flt := only.agree .flt (by decide)
  have basket : (s.setMode m c).basket = s.basket := only.agree .basket (by decide)
  have pool : (s.setMode m c).pool = s.pool := only.agree .pool (by decide)
  simp only [State.anyFence, State.anyRetired, flt, basket, pool, State.setMode_links]

theorem State.backToService_onlyIn : OnlyIn [.sys, .out, .host, .net] s s.backToService := by
  unfold State.backToService
  split
  · exact s.setMode_onlyIn _ _
  · exact .refl _ s

theorem State.backToService_mode : s.backToService.sys.mode =
    if s.sys.mode = .degraded ∧ s.backToService.anyFence = false then .service else s.sys.mode := by
  have same : s.backToService.anyFence = s.anyFence := by
    unfold State.backToService
    split
    · exact s.setMode_anyFence _ _
    · rfl
  rw [same]
  unfold State.backToService
  by_cases lifts : s.sys.mode = .degraded ∧ s.anyFence = false
  · rw [if_pos (by simpa using lifts), if_pos lifts, State.setMode_mode]
  · rw [if_neg (by simpa using lifts), if_neg lifts]

theorem exec_quietPeriodExpiry (awake : s.awake = true) (fenced : (s.unitFlt u).state = 1) :
    exec (.quietPeriodExpiry u) s = .next ((s.fenceLifted u).unfenced u).backToService :=
  congrArg Host.Outcome.next (if_neg (by simp [awake, fenced]))

/-- What the end of a fence leaves. -/
theorem fenceLifted_effect : OnlyIn [.flt] s (s.fenceLifted u) ∧
    (s.fenceLifted u).unitFlt u = { s.unitFlt u with
      state := 0, code := 0, quiet := 0, recoveries := min 65535 ((s.unitFlt u).recoveries + 1) } ∧
    ∀ j, j ≠ u → (s.fenceLifted u).unitFlt j = s.unitFlt j :=
  ⟨onlyIn_iff.mpr (by simp [State.fenceLifted]), State.modUnit_same .., fun _ hj => State.modUnit_ne _ _ _ hj⟩

theorem State.unitFlt_congr {s t : State} (h : t.flt = s.flt) (j : Nat) : t.unitFlt j = s.unitFlt j := by
  rw [State.unitFlt, h, State.unitFlt]

theorem quietPeriodExpiry_effect (awake : s.awake = true) (fenced : (s.unitFlt u).state = 1) :
    ∃ t, exec (.quietPeriodExpiry u) s = .next t ∧ t.unitFlt u = { s.unitFlt u with
      state := 0, code := 0, quiet := 0, recoveries := min 65535 ((s.unitFlt u).recoveries + 1) } ∧
      (∀ j, j ≠ u → t.unitFlt j = s.unitFlt j) ∧
      (t.sys.mode = if s.sys.mode = .degraded ∧ t.anyFence = false then .service else s.sys.mode) ∧
      OnlyIn [.sys, .flt, .pool, .host, .basket, .evt, .net, .usg, .out] s t := by
  obtain ⟨lifted, self, others⟩ := fenceLifted_effect (s := s) (u := u)
  have before := lifted.trans ((s.fenceLifted u).unfenced_onlyIn (u := u))
  have after := ((s.fenceLifted u).unfenced u).backToService_onlyIn
  have flt : (((s.fenceLifted u).unfenced u).backToService).flt = (s.fenceLifted u).flt :=
    have kept : ((s.fenceLifted u).unfenced u).flt = (s.fenceLifted u).flt :=
      (s.fenceLifted u).unfenced_onlyIn.agree .flt (by decide)
    have last : ((s.fenceLifted u).unfenced u).backToService.flt = ((s.fenceLifted u).unfenced u).flt := after.agree .flt (by decide)
    last.trans kept
  have sys : ((s.fenceLifted u).unfenced u).sys = s.sys := before.agree .sys (by decide)
  refine ⟨_, exec_quietPeriodExpiry awake fenced, (State.unitFlt_congr flt u).trans self,
    fun j hj => (State.unitFlt_congr flt j).trans (others j hj), ?_, (before.trans after).mono (by decide)⟩
  rw [← sys]
  exact State.backToService_mode

/-- Outside Degraded the end of a gate's fence changes its record and its translations alone. -/
theorem quietPeriodExpiry_gate (awake : s.awake = true) (fenced : (s.unitFlt u).state = 1) (gate : unitKind u = 1)
    (mode : s.sys.mode ≠ .degraded) : exec (.quietPeriodExpiry u) s = .next ((s.fenceLifted u).dropCaches (· == u)) := by
  rw [exec_quietPeriodExpiry awake fenced, State.unfenced_gate gate]
  exact congrArg _ (if_neg (by
    have other : (((s.fenceLifted u).dropCaches (· == u)).sys.mode == .degraded) = false := beq_false_of_ne mode
    simp [other]))

end Quiet

/-! ### The retirement log (R528-R531, R537) -/

section Log
variable {s : State} {kind unit element detail : Nat}

/-- A removal's record leaves the queue of those to be written. -/
def State.recordTaken (s : State) (r : Nat × Nat × Nat × Nat) : State := { s with flt.mramQ := eraseFirst (· == r) s.flt.mramQ }

theorem exec_mramRecordWrite_none {ok : Bool} (gone : (kind, unit, element, detail) ∉ s.flt.mramQ) :
    exec (.mramRecordWrite kind unit element detail ok) s = .next s :=
  congrArg Host.Outcome.next (if_pos (by simp [gone]))

section Queued
variable (awake : s.awake = true) (queued : (kind, unit, element, detail) ∈ s.flt.mramQ)
include awake queued

theorem exec_mramRecordWrite_fails : exec (.mramRecordWrite kind unit element detail false) s =
    .next ((s.recordTaken (kind, unit, element, detail)).report (mkFault 12 .mramFailed 0x004B crownUnit 0 none)) :=
  congrArg Host.Outcome.next ((if_neg (by simp [awake, queued])).trans (if_pos rfl))

theorem exec_mramRecordWrite {i : Nat} (slot : s.recordSlot = some i) : exec (.mramRecordWrite kind unit element detail true) s =
    .next { (s.recordTaken (kind, unit, element, detail)) with
      boot.mram.log := s.boot.mram.log.set i { kind := kind, unit := unit, element := element, detail := detail,
                                               coldResets := s.boot.mram.coldResets, time := s.sys.now } } := by
  refine congrArg Host.Outcome.next ((if_neg (by simp [awake, queued])).trans ((if_neg (by simp)).trans ?_))
  have slot' : (s.recordTaken (kind, unit, element, detail)).recordSlot = some i := slot
  split
  next j found =>
    obtain rfl : j = i := Option.some.inj (found.symm.trans slot')
    rfl
  next found => exact absurd (found.symm.trans slot') (by simp)

theorem exec_mramRecordWrite_full (full : s.recordSlot = none) : exec (.mramRecordWrite kind unit element detail true) s =
    .next ({ (s.recordTaken (kind, unit, element, detail)) with flt.unrecorded := satAdd 255 s.flt.unrecorded 1 }.contained 12 0x0713
      crownUnit 0 none) := by
  refine congrArg Host.Outcome.next ((if_neg (by simp [awake, queued])).trans ((if_neg (by simp)).trans ?_))
  have full' : (s.recordTaken (kind, unit, element, detail)).recordSlot = none := full
  split
  next j found => exact absurd (found.symm.trans full') (by simp)
  next => rfl

end Queued

section Marks
variable {f : FnId} {i st : Nat}

theorem State.markRecords_shut (shut : s.bar0On f = false ∨ f.fn ≠ 0) (all : Bool) : s.markRecords f all i st = s :=
  if_pos (by rcases shut with h | h <;> simp [h])

variable (open' : s.bar0On f = true) (pf0 : f.fn = 0)
include open' pf0

theorem State.markRecords_all : s.markRecords f true i st =
    { s with boot.mram.log := s.boot.mram.log.map (fun e => (e.1, { e.2 with state := st })) } :=
  (if_neg (by simp [open', pf0])).trans (if_pos rfl)

theorem State.markRecords_one (here : s.boot.mram.log.has i = true) : s.markRecords f false i st =
    { s with boot.mram.log := s.boot.mram.log.map (fun e => if e.1 == i then (e.1, { e.2 with state := st }) else e) } :=
  (if_neg (by simp [open', pf0])).trans ((if_neg Bool.false_ne_true).trans (if_pos here))

theorem State.markRecords_free (free : s.boot.mram.log.has i = false) : s.markRecords f false i st = s.reject f 0x0003 1 0x10020 :=
  (if_neg (by simp [open', pf0])).trans ((if_neg Bool.false_ne_true).trans (if_neg (by simp [free])))

end Marks
end Log

/-- Settles O45: each timer is its `exec_` equation, and the records follow from `State.markRecords`. -/
theorem faultTimersAndRetirementLogComplete : Obligations.FaultTimersAndRetirementLogComplete := by
  unfold Obligations.FaultTimersAndRetirementLogComplete
  refine ⟨fun s => ⟨exec_drain_wire s, exec_drain_hostLane s, exec_drain_hbmPseudo s, fun u => ?_, fun g => ?_, fun g => ?_, fun l => ?_,
    fun u awake fenced => ⟨?_, ?_, fun gate mode => ?_⟩, fun l i => ?_, fun u b idle => ⟨exec_selfTestTick_idle idle,
    exec_quietPeriodExpiry_idle idle⟩, fun u => quietPeriodExpiry_effect⟩, fun s kind unit element detail i awake queued slot => ⟨?_, ?_⟩,
    fun s f i open' pf0 => ⟨congrArg _ (State.markRecords_all open' pf0), congrArg _ (State.markRecords_all open' pf0),
      fun here => ⟨congrArg _ (State.markRecords_one open' pf0 here), congrArg _ (State.markRecords_one open' pf0 here)⟩,
      fun free => ⟨congrArg _ (State.markRecords_free open' pf0 free), congrArg _ (State.markRecords_free open' pf0 free)⟩⟩,
    fun s kind unit element detail ok => ⟨exec_mramRecordWrite_none, fun awake queued full => ?_⟩,
    fun s f all i shut => ⟨congrArg _ (State.markRecords_shut shut all), congrArg _ (State.markRecords_shut shut all)⟩⟩
  · exact ⟨_, exec_drain_recovery s u, by rw [State.modUnit_same], by rw [State.modUnit_same], onlyIn_iff.mpr (by simp)⟩
  · exact ⟨_, exec_drain_ddrIntegrity s g, by rw [State.modGate_same], by rw [State.modGate_same], fun j hj => State.modGate_ne _ _ _ hj,
      onlyIn_iff.mpr (by simp)⟩
  · exact ⟨_, exec_drain_ddrUncorrectable s g, State.modGate_same .., fun j hj => State.modGate_ne _ _ _ hj, onlyIn_iff.mpr (by simp)⟩
  · exact ⟨_, exec_drain_borderDown s l, State.modBlink_same .., fun j hj => State.modBlink_ne _ _ _ hj, s.modBlink_onlyIn l _⟩
  · exact ⟨_, exec_selfTestTick_pass awake fenced, State.modUnit_same .., fun j hj => State.modUnit_ne _ _ _ hj, onlyIn_iff.mpr (by simp)⟩
  · exact ⟨_, exec_selfTestTick_fail awake fenced, by rw [State.report_unitFlt, State.modUnit_same], by simp, onlyIn_iff.mpr (by simp)⟩
  · obtain ⟨lifted, self, others⟩ := fenceLifted_effect (s := s) (u := u)
    exact ⟨_, quietPeriodExpiry_gate awake fenced gate mode, self, others, (lifted.trans (State.dropCaches_onlyIn _)).mono (by decide)⟩
  · exact ⟨_, exec_drain_borderLane s l i, State.modBlink_same .., fun j hj => State.modBlink_ne _ _ _ hj, s.modBlink_onlyIn l _⟩
  · exact ⟨_, exec_mramRecordWrite awake queued slot, rfl, fun d => Tbl.get_set_same .., fun d j hj => (Tbl.get_set ..).trans (if_neg hj),
      onlyIn_iff.mpr (by simp [State.recordTaken])⟩
  · exact ⟨_, exec_mramRecordWrite_fails awake queued, by simp [State.recordTaken], by simp [State.recordTaken],
      onlyIn_iff.mpr (by simp [State.recordTaken])⟩
  · exact ⟨_, exec_mramRecordWrite_full awake queued full, by simp [State.recordTaken], by simp [satAdd], by simp [State.contained, State.recordTaken],
      onlyIn_iff.mpr (by simp [State.recordTaken])⟩

end Sys2Proof.Machine
end

