-- ==== Sys2Proof/Proofs/Violations.lean ====
section
/-! PROOFS. Violations, command slots, Quarantine and the thermal trip (R99, R153-R157, R165, R211-R214, R491, R534, R654). -/

namespace Sys2Proof.Machine

/-! ### Entry to Quarantine (R99, R534) -/

section Quarantine
variable {s : State}

/-- Every key, session and buffered line is gone. -/
def State.wiped (s : State) : State := { s with
  trust.band := []
  trust.shares := []
  trust.drbgReady := false
  trust.drbgCount := 0
  trust.aliasKey := none
  trust.usageKey := none
  trust.xtsKey := 0
  trust.kTree := 0
  trust.hTree := 0
  trust.gloves := s.trust.gloves.map (fun (k, g) =>
    (k, { g with state := .free, keySource := 0, kcv := 0, tdi := if g.tdiLive then .error else g.tdi }))
  host.links := s.host.links.map (fun (k, l) =>
    (k, { l with sessions := [], ide := l.ide.map (fun i => { i with secure := false, keys := [], active := none }) }))
  pool.gates := s.pool.gates.map (fun (k, g) => (k, { g with wcb := [], reencs := [] })) }

/-- What zeroization leaves depends on the keys, the host links and the gates alone. -/
theorem State.Zeroized.congr {t : State} (zero : s.Zeroized) (trust : t.trust = s.trust) (links : t.host.links = s.host.links)
    (gates : t.pool.gates = s.pool.gates) : t.Zeroized := by
  rw [State.Zeroized, trust, links, gates]
  exact zero

theorem State.wiped_zeroized : s.wiped.Zeroized := by
  refine ⟨rfl, rfl, rfl, rfl, rfl, fun e he => ?_, fun e he => ?_⟩
  · obtain ⟨⟨k, l⟩, -, rfl⟩ := List.mem_map.mp he
    refine ⟨rfl, fun i hi => ?_⟩
    obtain ⟨j, -, rfl⟩ := List.mem_map.mp hi
    rfl
  · obtain ⟨⟨k, g⟩, -, rfl⟩ := List.mem_map.mp he
    rfl

theorem State.alarm_host : s.alarm.host = s.host := by
  unfold State.alarm
  split <;> rfl

theorem State.alarm_alert : s.alarm.sys.alert = true := by
  unfold State.alarm
  split
  next on => exact on
  next => rfl

theorem State.alarm_cause : s.alarm.sys.cause = s.sys.cause := by
  unfold State.alarm
  split <;> rfl

theorem State.alarm_thermtrip : s.alarm.sys.thermtrip = s.sys.thermtrip := by
  unfold State.alarm
  split <;> rfl

theorem State.alarm_onlyIn : OnlyIn [.sys, .out] s s.alarm := by
  unfold State.alarm
  split
  · exact .refl _ s
  · exact onlyIn_iff.mpr (by simp)

theorem State.alarm_out {o : Out} (h : o ∈ s.out) : o ∈ s.alarm.out := by
  unfold State.alarm
  split
  · exact h
  · exact List.mem_append_left _ h

theorem State.raiseAllPf_sys (b : Nat) : (s.raiseAllPf b).sys = s.sys := s.raiseAllPf_onlyIn b |>.agree .sys (by decide)

theorem State.setMode_cause {m : Mode} (other : s.sys.mode ≠ m) (c : Nat) : (s.setMode m c).sys.cause = c := by
  rw [State.setMode, if_neg (by simpa using other), State.raiseAllPf_sys, State.alarm_cause]

theorem State.setMode_thermtrip (m : Mode) (c : Nat) : (s.setMode m c).sys.thermtrip = s.sys.thermtrip := by
  unfold State.setMode
  split
  · rfl
  · rw [State.raiseAllPf_sys, State.alarm_thermtrip]

theorem State.setMode_out (m : Mode) (c : Nat) {o : Out} (h : o ∈ s.out) : o ∈ (s.setMode m c).out := by
  unfold State.setMode
  split
  · exact h
  · rw [State.raiseAllPf_gout]
    exact State.alarm_out h

/-- The admitted peers are told, and every peer's session ends (R534). -/
def State.noticed (s : State) (cause : Nat) : State :=
  let s := (s.basket.peers.filter (fun e => e.2.state == .admitted)).foldl (fun s e => s.sendMgmt e.1 (.quarantineNotice cause)) s
  { s with basket.peers := s.basket.peers.map (fun (k, p) => (k, { p with session := none })) }

theorem sendMgmt_out_mem {n : Nat} {m : MgmtMsg} {o : Out} (h : o ∈ s.out) : o ∈ (s.sendMgmt n m).out := List.mem_append_left _ h

theorem State.noticed_onlyIn (cause : Nat) : OnlyIn [.out, .basket] s (s.noticed cause) := by
  have told (l : Tbl Peer) : OnlyIn [.out] s (l.foldl (fun s e => s.sendMgmt e.1 (.quarantineNotice cause)) s) :=
    foldl_onlyIn _ (fun _ _ => onlyIn_iff.mpr (by simp [State.sendMgmt])) l s
  have ended (t : State) : OnlyIn [.basket] t { t with basket.peers := t.basket.peers.map (fun (k, p) => (k, { p with session := none })) } :=
    onlyIn_iff.mpr (by simp)
  exact ((told _).trans (ended _)).mono (by decide)

theorem State.noticed_out (cause : Nat) {o : Out} (h : o ∈ s.out) : o ∈ (s.noticed cause).out := by
  have told (l : Tbl Peer) : ∀ t : State, o ∈ t.out → o ∈ (l.foldl (fun s e => s.sendMgmt e.1 (.quarantineNotice cause)) t).out := by
    induction l with
    | nil => exact fun _ h => h
    | cons e l ih => exact fun t h => ih _ (sendMgmt_out_mem h)
  exact told _ s h

/-- ALERT# is asserted and every link's first function logs the error (R534). -/
def State.internalErrors (s : State) : State :=
  ((List.range 16).filter s.linkExists).foldl (fun s l => s.aer ⟨l, 0⟩ .uncorrectableInternal) s.alarm

theorem State.internalErrors_alarm : OnlyIn [.host] s.alarm s.internalErrors :=
  foldl_onlyIn _ (fun _ _ => onlyIn_iff.mpr (by simp)) _ s.alarm

theorem State.internalErrors_links : s.internalErrors.host.links = s.host.links :=
  (foldl_same (fun s : State => s.host.links) _ _ _ fun s l => by simp [State.aer]).trans (by rw [State.alarm_host])

theorem State.quarantine_entered (out : s.sys.mode ≠ .quarantine) (cause : Nat) :
    s.quarantine cause = ((s.wiped.setMode .quarantine cause).noticed cause).internalErrors :=
  if_neg (by simpa using out)

/-- What entry to Quarantine is after the wipe. -/
structure State.Quarantines (s t : State) (cause : Nat) : Prop where
  zero : t.Zeroized
  cause : t.sys.cause = cause
  alert : t.sys.alert = true
  trip : t.sys.thermtrip = s.sys.thermtrip
  out : ∀ o ∈ s.out, o ∈ t.out

theorem State.quarantine_effect (out : s.sys.mode ≠ .quarantine) (cause : Nat) : s.Quarantines (s.quarantine cause) cause := by
  rw [State.quarantine_entered out]
  have moded := s.wiped.setMode_onlyIn .quarantine cause
  have told := (s.wiped.setMode .quarantine cause).noticed_onlyIn cause
  generalize named : (s.wiped.setMode .quarantine cause).noticed cause = u at told
  have logged := u.internalErrors_alarm
  have only := (((moded.trans told).trans u.alarm_onlyIn).trans logged).mono (qs := [.sys, .out, .host, .net, .basket]) (by decide)
  have sys : u.internalErrors.sys = u.alarm.sys := logged.agree .sys (by decide)
  have usys : u.sys = (s.wiped.setMode .quarantine cause).sys := told.agree .sys (by decide)
  have host : u.host = (s.wiped.setMode .quarantine cause).host := told.agree .host (by decide)
  have outs : u.internalErrors.out = u.alarm.out := logged.agree .out (by decide)
  have pool : u.internalErrors.pool = s.wiped.pool := only.agree .pool (by decide)
  refine ⟨State.wiped_zeroized.congr (only.agree .trust (by decide)) ?_ (congrArg Pool.gates pool), ?_, ?_, ?_, fun o h => ?_⟩
  · rw [State.internalErrors_links, host, State.setMode_links]
  · rw [sys, State.alarm_cause, usys]
    exact State.setMode_cause (s := s.wiped) out cause
  · rw [sys, State.alarm_alert]
  · rw [sys, State.alarm_thermtrip, usys, State.setMode_thermtrip]
    rfl
  · rw [outs, ← named]
    exact State.alarm_out (State.noticed_out _ (State.setMode_out _ _ h))

end Quarantine

/-! ### Tamper and the thermal trip (R99, R491, R654) -/

section Trips
variable {s : State}

theorem exec_tamperInputAssert_idle {i : Nat}
    (idle : (s.boot.cfg.evtIn.getD i {}).tamper = false ∨ s.evt.evtLive = false ∨ s.sys.mode = .blank) :
    exec (.tamperInputAssert i) s = .next s :=
  congrArg Host.Outcome.next (if_neg (by
    rw [Bool.and_eq_true, Bool.and_eq_true, Bool.and_eq_true]
    rintro ⟨⟨⟨-, live⟩, tamper⟩, blank⟩
    rcases idle with h | h | h
    · exact Bool.false_ne_true (h.symm.trans tamper)
    · exact Bool.false_ne_true (h.symm.trans live)
    · exact absurd h (by simpa using blank)))

theorem exec_tamperInputAssert {i : Nat} (awake : s.awake = true) (live : s.evt.evtLive = true)
    (tamper : (s.boot.cfg.evtIn.getD i {}).tamper = true) (blank : s.sys.mode ≠ .blank) : exec (.tamperInputAssert i) s =
      .next ((s.quarantine 0x0703).report (mkFault 15 .contained 0x0703 gathererUnit i none)) :=
  congrArg Host.Outcome.next (if_pos (by rw [awake, live, tamper]; simpa using blank))

/-- A report of a fault leaves what Quarantine is. -/
theorem State.Quarantines.report {t : State} {cause : Nat} (q : s.Quarantines t cause) (r : FaultReport) :
    s.Quarantines (t.report r) cause where
  zero := q.zero.congr (by simp) (by simp) (by simp)
  cause := by rw [State.report_gsys, q.cause]
  alert := by rw [State.report_gsys, q.alert]
  trip := by rw [State.report_gsys, q.trip]
  out := fun o h => by
    rw [State.report_gout]
    exact q.out o h

theorem State.awake_on (awake : s.awake = true) : s.sys.aon = true := (Bool.and_eq_true_iff.mp awake).1

/-- THERMTRIP# is driven low. -/
def State.tripped (s : State) : State := ({ s with sys.thermtrip := true }).emit (.thermtrip true)

theorem exec_thermtrip (quad : Nat) (awake : s.awake = true) (first : s.sys.thermtrip = false) : exec (.thermtrip quad) s =
    .next ((s.tripped.quarantine 0x0706).report { (mkFault 14 .contained 0x0706 crownUnit 0 none) with quad := quad }) := by
  have on : s.tripped.awake = true := awake
  have tripped : (if s.sys.thermtrip = true then s else ({ s with sys.thermtrip := true }).emit (.thermtrip true)) = s.tripped :=
    if_neg (by simp [first])
  refine congrArg Host.Outcome.next ((if_neg (by simp [State.awake_on awake])).trans ?_)
  rw [tripped]
  exact if_neg (by simp [on])

theorem thermtrip_effect (quad : Nat) (awake : s.awake = true) (first : s.sys.thermtrip = false) (mode : s.sys.mode ≠ .quarantine) :
    ∃ t, exec (.thermtrip quad) s = .next t ∧ t.sys.mode = .quarantine ∧ t.sys.cause = 0x0706 ∧ t.sys.thermtrip = true ∧
      Out.thermtrip true ∈ t.out ∧ t.Zeroized := by
  have q := (State.quarantine_effect (s := s.tripped) mode 0x0706).report
    { (mkFault 14 .contained 0x0706 crownUnit 0 none) with quad := quad }
  exact ⟨_, exec_thermtrip quad awake first, by rw [State.report_gsys, State.quarantine_mode], q.cause, q.trip,
    q.out _ (List.mem_append_right _ (List.mem_singleton.mpr rfl)), q.zero⟩

theorem tamperInputAssert_effect {i : Nat} (awake : s.awake = true) (live : s.evt.evtLive = true)
    (tamper : (s.boot.cfg.evtIn.getD i {}).tamper = true) (blank : s.sys.mode ≠ .blank) (mode : s.sys.mode ≠ .quarantine) :
    ∃ t, exec (.tamperInputAssert i) s = .next t ∧ t.sys.mode = .quarantine ∧ t.sys.cause = 0x0703 ∧ t.sys.alert = true ∧
      t.Zeroized ∧ mkFault 15 .contained 0x0703 gathererUnit i none ∈ t.net.reports := by
  have q := (State.quarantine_effect mode 0x0703).report (mkFault 15 .contained 0x0703 gathererUnit i none)
  exact ⟨_, exec_tamperInputAssert awake live tamper blank, by rw [State.report_gsys, State.quarantine_mode], q.cause, q.alert, q.zero,
    by simp⟩

end Trips

/-! ### Violations (R211-R214) -/

section Violations
variable {s : State} {v : Violation}

/-- A violation's report has reached the Crown. -/
def State.violationIn (s : State) (v : Violation) : State := ({ s with net.violations := eraseFirst (· == v) s.net.violations }).edge 76

theorem State.violationIn_onlyIn : OnlyIn [.net, .evt] s (s.violationIn v) := onlyIn_iff.mpr (by simp [State.violationIn])

theorem State.violationIn_trust : (s.violationIn v).trust = s.trust := by simp [State.violationIn]

theorem exec_ruleFault_again (awake : s.awake = true) (valid : (s.glove v.glove).latch.valid = true) : exec (.ruleFault v) s =
    .next ((s.violationIn v).modGlove v.glove (fun g =>
      { g with latch := { g.latch with count := satAdd 65535 (s.glove v.glove).latch.count 1 } })) := by
  have same : (s.violationIn v).glove v.glove = s.glove v.glove := State.glove_congr (congrArg Trust.gloves State.violationIn_trust) _
  rw [← same]
  exact congrArg Host.Outcome.next ((if_neg (by simp [awake])).trans (if_pos ((congrArg (·.latch.valid) same).trans valid)))

/-- The latch of a glove takes a violation. -/
def State.latchViolation (s : State) (v : Violation) : State :=
  s.modGlove v.glove (fun g => { g with latch := {
    valid := true, addr := v.addr / 64 * 64, code := v.code, count := 0, world := v.world, write := v.write, unit := v.unit } })

/-- The VF of a glove, where it has one, is told of a latched violation. -/
def State.raiseRule (s : State) (g : Nat) : State :=
  match s.vfOf g with
  | some f => s.raiseCause f causeRule
  | none => s

theorem State.raiseRule_onlyIn (g : Nat) : OnlyIn [.net, .host] s (s.raiseRule g) := by
  unfold State.raiseRule
  split
  · exact onlyIn_iff.mpr (by simp)
  · exact .refl _ s

theorem State.raiseRule_violations (g : Nat) : (s.raiseRule g).net.violations = s.net.violations := by
  unfold State.raiseRule
  split
  · simp [State.raiseCause, State.requestVector, apply_ite State.net, apply_ite Net.violations]
  · rfl

theorem exec_ruleFault_first (awake : s.awake = true) (free : (s.glove v.glove).latch.valid = false) : exec (.ruleFault v) s =
    .next (((s.violationIn v).latchViolation v).raiseRule v.glove) := by
  have same : (s.violationIn v).glove v.glove = s.glove v.glove := State.glove_congr (congrArg Trust.gloves State.violationIn_trust) _
  exact congrArg Host.Outcome.next ((if_neg (by simp [awake])).trans (if_neg fun valid =>
    Bool.false_ne_true ((free.symm.trans (congrArg (·.latch.valid) same).symm).trans valid)))

end Violations

/-! ### Command slots (R153-R157, R165) -/

section Slots
variable {s : State} {ch : Nat} {ecc : EccResult}

theorem exec_commandSlotGrant_refresh (c : Sched) : exec (.commandSlotGrant c true ecc) s = .next s :=
  congrArg Host.Outcome.next (if_pos (by simp))

theorem pickSlot_nil (key now : Nat) (rows : Tbl Nat) : pickSlot key now rows [] = none := rfl

/-- A new pass begins only where the last one is over. -/
theorem newPass_running {n lines start now : Nat} (running : n < lines) : newPass n lines start now = (n, start) :=
  if_neg (by simp [running])

theorem State.eccDdr_clean (s : State) (ch a : Nat) : s.eccDdr ch a .clean = s := rfl

section Ddr
variable (awake : s.awake = true)
include awake

theorem exec_commandSlotGrant_off (off : (s.gate ch).retired = true ∨ (s.dom (13 + ch)).state ≠ 0) :
    exec (.commandSlotGrant (.ddr ch) false ecc) s = .next s :=
  congrArg Host.Outcome.next ((if_neg (by simp [awake])).trans (if_pos (by rcases off with h | h <;> simp [h])))

variable (live : (s.gate ch).retired = false) (on : (s.dom (13 + ch)).state = 0)
include live on

theorem exec_commandSlotGrant_scrubDue
    (due : (behind (newPass (s.gate ch).scrub s.channelLines (s.gate ch).passStart s.sys.now).1 s.channelLines
      (s.sys.now - (newPass (s.gate ch).scrub s.channelLines (s.gate ch).passStart s.sys.now).2) = true ∧ 255 ≤ (s.gate ch).slots) ∨
      ((s.gate ch).suspect = true ∧ 15 ≤ (s.gate ch).slots)) :
    exec (.commandSlotGrant (.ddr ch) false ecc) s = .next (s.scrubDdr ch ecc) :=
  congrArg Host.Outcome.next ((if_neg (by simp [awake])).trans ((if_neg (by simp [live, on])).trans (if_pos
    (Bool.or_eq_true_iff.mpr (due.imp (fun ⟨late, full⟩ => Bool.and_eq_true_iff.mpr ⟨late, decide_eq_true full⟩)
      (fun ⟨suspect, full⟩ => Bool.and_eq_true_iff.mpr ⟨suspect, decide_eq_true full⟩))))))

theorem exec_commandSlotGrant_fg {r : SlotReq} (slots : (s.gate ch).slots < 255)
    (calm : (s.gate ch).suspect = true → (s.gate ch).slots < 15)
    (pick : pickSlot ch s.sys.now (s.gate ch).rows (s.gate ch).fg = some r) :
    exec (.commandSlotGrant (.ddr ch) false ecc) s = .next (s.grantDdr ch r ecc) := by
  refine congrArg Host.Outcome.next ((if_neg (by simp [awake])).trans ((if_neg (by simp [live, on])).trans
    ((if_neg (by simpa [slots] using calm)).trans ?_)))
  rw [pick]

theorem exec_commandSlotGrant_staging (slots : (s.gate ch).slots < 255)
    (calm : (s.gate ch).suspect = true → (s.gate ch).slots < 15) (empty : (s.gate ch).fg = [])
    (reads : ∃ b ∈ (s.gate ch).reencs, 0 < b.left) :
    exec (.commandSlotGrant (.ddr ch) false ecc) s = .next (s.modGate ch Gate.grantStaging) := by
  refine congrArg Host.Outcome.next ((if_neg (by simp [awake])).trans ((if_neg (by simp [live, on])).trans
    ((if_neg (by simpa [slots] using calm)).trans ?_)))
  rw [empty, pickSlot_nil]
  exact if_pos (by simpa using reads)

theorem exec_commandSlotGrant_scrub (empty : (s.gate ch).fg = []) (reads : ∀ b ∈ (s.gate ch).reencs, b.left = 0) :
    exec (.commandSlotGrant (.ddr ch) false ecc) s = .next (s.scrubDdr ch ecc) := by
  refine congrArg Host.Outcome.next ((if_neg (by simp [awake])).trans ((if_neg (by simp [live, on])).trans ?_))
  rw [empty, pickSlot_nil]
  dsimp only
  rw [if_neg (show ¬((s.gate ch).reencs.any fun r => decide (0 < r.left)) = true by simpa using reads), ite_self]

end Ddr

theorem scrubDdr_running (running : (s.gate ch).scrub < s.channelLines) : s.scrubDdr ch .clean =
    s.modGate ch (fun x => { x with scrub := x.scrub + 1, slots := 0, passStart := x.passStart }) := by
  simp only [State.scrubDdr, newPass_running running, State.eccDdr_clean]
  exact if_neg (Nat.not_le.mpr running)

section Hbm
variable {q pc : Nat}

/-- The scheduler of a pseudo-channel. -/
abbrev State.pseudo (s : State) (q pc : Nat) : HbmSched := s.pool.hbmSched.get {} (q * 32 + pc)

section Awake
variable (awake : s.awake = true)
include awake

theorem exec_commandSlotGrant_hbmOff (off : (s.dom (29 + q)).state ≠ 0) : exec (.commandSlotGrant (.hbm q pc) false ecc) s = .next s :=
  congrArg Host.Outcome.next ((if_neg (by simp [awake])).trans (if_pos (by simp [off])))

variable (on : (s.dom (29 + q)).state = 0) (slots : (s.pseudo q pc).slots < 255)
include on slots

theorem exec_commandSlotGrant_hbm {r : SlotReq}
    (pick : pickSlot (16 + q * 32 + pc) s.sys.now (s.pseudo q pc).rows (s.pseudo q pc).fg = some r) :
    exec (.commandSlotGrant (.hbm q pc) false ecc) s = .next (s.grantHbm q pc r ecc) := by
  refine congrArg Host.Outcome.next ((if_neg (by simp [awake])).trans ((if_neg (by simp [on])).trans ((if_neg (by simp [slots])).trans ?_)))
  rw [pick]

theorem exec_commandSlotGrant_hbmScrub (empty : (s.pseudo q pc).fg = []) :
    exec (.commandSlotGrant (.hbm q pc) false ecc) s = .next (s.scrubHbm q pc ecc) := by
  refine congrArg Host.Outcome.next ((if_neg (by simp [awake])).trans ((if_neg (by simp [on])).trans ((if_neg (by simp [slots])).trans ?_)))
  rw [empty, pickSlot_nil]

end Awake

/-- A foreground slot whose line waits in no buffer finds no error and writes nothing. -/
theorem grantHbm_clean {r : SlotReq} (unbuffered : ∀ e ∈ (s.hgate (8 * q + pc / 4)).buf, e.1 ≠ r.addr) :
    s.grantHbm q pc r .clean = { s with
      pool.hbmSched := s.pool.hbmSched.mod {} (q * 32 + pc) (fun x => { x with
        fg := passOver s.sys.now r x.fg, rows := openRow (16 + q * 32 + pc) x.rows r, slots := x.slots + 1 }) } := by
  have missing : (s.hgate (8 * q + pc / 4)).buf.find? (fun e => e.1 == r.addr) = none :=
    List.find?_eq_none.mpr fun e he => by simpa using unbuffered e he
  simp only [State.grantHbm]
  split
  next e found => exact absurd (found.symm.trans missing) (by simp)
  next => rfl

end Hbm
end Slots

/-- Settles O46: each grant, violation and trip is its `exec_` equation; the trips follow from `State.quarantine_effect`. -/
theorem violationSlotAndTripCommandsComplete : Obligations.ViolationSlotAndTripCommandsComplete := by
  unfold Obligations.ViolationSlotAndTripCommandsComplete
  refine fun s awake => ⟨fun v free => ?_, fun v valid => ?_, fun ch ecc live on calm slots => ?_, fun q pc r slots on pick unbuffered => ?_,
    fun i live tamper blank mode => tamperInputAssert_effect awake live tamper blank mode,
    fun quad first mode => thermtrip_effect quad awake first mode, fun c ecc => exec_commandSlotGrant_refresh c,
    fun ch ecc off => exec_commandSlotGrant_off awake off,
    fun ch ecc live on => ⟨exec_commandSlotGrant_scrubDue awake live on, exec_commandSlotGrant_scrub awake live on,
      fun r slots calm pick => exec_commandSlotGrant_fg awake live on slots calm pick⟩,
    fun q pc ecc => ⟨exec_commandSlotGrant_hbmOff awake, fun on slots => ⟨fun r => exec_commandSlotGrant_hbm awake on slots,
      exec_commandSlotGrant_hbmScrub awake on slots⟩⟩, fun i => exec_tamperInputAssert_idle⟩
  · have raised := ((s.violationIn v).latchViolation v).raiseRule_onlyIn v.glove
    have trust : (((s.violationIn v).latchViolation v).raiseRule v.glove).trust = ((s.violationIn v).latchViolation v).trust :=
      raised.agree .trust (by decide)
    have latched : OnlyIn [.trust] (s.violationIn v) ((s.violationIn v).latchViolation v) :=
      onlyIn_iff.mpr (by simp [State.latchViolation])
    have same (g : Nat) : (s.violationIn v).glove g = s.glove g := State.glove_congr (congrArg Trust.gloves State.violationIn_trust) _
    refine ⟨_, exec_ruleFault_first awake free, ?_, fun g hg => ?_, ?_, ((State.violationIn_onlyIn.trans latched).trans raised).mono (by decide)⟩
    · rw [State.glove_congr (congrArg Trust.gloves trust), State.latchViolation, State.modGlove_same, same]
    · rw [State.glove_congr (congrArg Trust.gloves trust), State.latchViolation, State.modGlove_ne _ _ _ hg, same]
    · rw [State.raiseRule_violations]
      simp [State.latchViolation, State.violationIn]
  · have same (g : Nat) : (s.violationIn v).glove g = s.glove g := State.glove_congr (congrArg Trust.gloves State.violationIn_trust) _
    have counted (t : State) (f : Glove → Glove) : OnlyIn [.trust] t (t.modGlove v.glove f) := onlyIn_iff.mpr (by simp)
    refine ⟨_, exec_ruleFault_again awake valid, ?_, fun g hg => ?_, ?_, (State.violationIn_onlyIn.trans (counted _ _)).mono (by decide)⟩
    · rw [State.modGlove_same, same]
      rfl
    · rw [State.modGlove_ne _ _ _ hg, same]
    · simp [State.violationIn]
  · have steady : (s.gate ch).suspect = true → (s.gate ch).slots < 15 := fun h => absurd (calm.symm.trans h) (by decide)
    exact ⟨fun r pick => exec_commandSlotGrant_fg awake live on slots steady pick,
      exec_commandSlotGrant_staging awake live on slots steady,
      fun empty reads running => (exec_commandSlotGrant_scrub awake live on empty reads).trans (congrArg _ (scrubDdr_running running))⟩
  · exact (exec_commandSlotGrant_hbm awake on slots pick).trans (congrArg _ (grantHbm_clean unbuffered))

end Sys2Proof.Machine
end

