-- ==== Sys2Proof/Proofs/EventInputs.lean ====
section
/-! PROOFS. Sources presented to the Crown and event inputs (R482-R492). -/

namespace Sys2Proof.Machine

/-! ### Sources presented to the Crown (R482-R486) -/

section Presentation
variable {s : State} {i : Nat}

/-- The first number below `n` that a test picks. -/
theorem range_find?_first {n : Nat} {p : Nat → Bool} (below : i < n) (picked : p i = true) (first : ∀ j < i, p j = false) :
    (List.range n).find? p = some i :=
  List.find?_range_eq_some.mpr ⟨picked, List.mem_range.mpr below, fun j hj => by simp [first j hj]⟩

/-- The source is presented to the Crown with its vector address, an edge source's counter with it. -/
def State.presented (s : State) (i : Nat) : State := { s with
  evt.inService := some i
  evt.claimed := if s.levelSource i then none else some ((s.source i).count, (s.source i).overflow)
  evt.vector := some (Config.vectorBase s.boot.cfg.microDigest + 16 * i) }

/-- What the presentation leaves of the source: a level source's new-fault line falls, an edge source's counter is handed over. -/
def State.takenUp (s : State) (i : Nat) (level : Bool) : State :=
  if level then (if 8 ≤ i ∧ i ≤ 10 then s.setLevel i false else s)
  else s.modSource i (fun x => { x with count := 0, overflow := false })

theorem exec_sourcePresent_serving (serving : s.evt.inService ≠ none) : exec .sourcePresent s = .next s :=
  congrArg Host.Outcome.next (if_pos (by simp [Option.isSome_iff_ne_none.mpr serving]))

variable (awake : s.awake = true) (free : s.evt.inService = none)
include awake

theorem exec_sourcePresent_idle (idle : ∀ i < 80, (s.source i).enabled = false ∨ s.sourceActive i = false) :
    exec .sourcePresent s = .next s := by
  have none_found : (List.range 80).find? (fun i => (s.source i).enabled && s.sourceActive i) = none :=
    List.find?_eq_none.mpr fun i hi => by rcases idle i (List.mem_range.mp hi) with h | h <;> simp [h]
  refine congrArg Host.Outcome.next (?_ : ite _ _ _ = _)
  rw [none_found]
  exact ite_self _

variable (below : i < 80) (first : ∀ j < i, (s.source j).enabled = false ∨ s.sourceActive j = false)
  (enabled : (s.source i).enabled = true) (active : s.sourceActive i = true)
include free below first enabled active

theorem exec_sourcePresent : exec .sourcePresent s = .next ((s.presented i).takenUp i (s.levelSource i)) := by
  have found : (List.range 80).find? (fun i => (s.source i).enabled && s.sourceActive i) = some i :=
    range_find?_first below (by simp [enabled, active]) fun j hj => by rcases first j hj with h | h <;> simp [h]
  refine congrArg Host.Outcome.next ((if_neg (by simp [awake, free])).trans ?_)
  rw [found]
  rfl

end Presentation

section Taken
variable {s : State} {i : Nat} {level : Bool}

theorem State.presented_onlyIn : OnlyIn [.evt] s (s.presented i) := onlyIn_iff.mpr (by simp [State.presented])

theorem State.takenUp_onlyIn : OnlyIn [.evt] s (s.takenUp i level) := by
  unfold State.takenUp
  split
  · split
    · exact onlyIn_iff.mpr (by simp)
    · exact .refl _ s
  · exact onlyIn_iff.mpr (by simp)

theorem State.takenUp_service : (s.takenUp i level).evt.inService = s.evt.inService ∧
    (s.takenUp i level).evt.claimed = s.evt.claimed ∧ (s.takenUp i level).evt.vector = s.evt.vector := by
  unfold State.takenUp
  split
  · split <;> exact ⟨rfl, rfl, rfl⟩
  · exact ⟨rfl, rfl, rfl⟩

theorem State.takenUp_level_count (j : Nat) : ((s.takenUp i true).source j).count = (s.source j).count := by
  rw [State.takenUp, if_pos rfl]
  split
  · by_cases same : j = i
    · rw [same, State.setLevel, State.modSource_same]
    · rw [State.setLevel, State.modSource_ne _ _ _ same]
  · rfl

end Taken

/-! ### Event inputs (R488-R492) -/

section Inputs
variable {s : State} {i : Nat} {level : Bool}

theorem State.modPin_onlyIn (m : EvtPin → EvtPin) : OnlyIn [.evt] s (s.modPin i m) := onlyIn_iff.mpr (by simp [State.modPin])
theorem State.modPin_same (m : EvtPin → EvtPin) : (s.modPin i m).evtPin i = m (s.evtPin i) := Tbl.get_set_same ..
theorem State.modPin_source (m : EvtPin → EvtPin) (j : Nat) : (s.modPin i m).source j = s.source j := rfl
theorem State.modSource_evtPin (f : Source → Source) (j : Nat) : (s.modSource i f).evtPin j = s.evtPin j := rfl

theorem State.modPin_modPin (m n : EvtPin → EvtPin) : (s.modPin i m).modPin i n = s.modPin i (fun p => n (m p)) := by
  simp only [State.modPin, Tbl.mod, Tbl.get_set_same, Tbl.set_set]

/-- An input that is no tamper input reaches its source alone. -/
theorem State.senseInput_source {old new : Bool} (plain : (s.boot.cfg.evtIn.getD i {}).tamper = false) : s.senseInput i old new =
    if (s.boot.cfg.evtIn.getD i {}).sense < 2 then s.setLevel i (senseHit (s.boot.cfg.evtIn.getD i {}).sense old new)
    else if senseHit (s.boot.cfg.evtIn.getD i {}).sense old new then s.edge i else s :=
  if_neg (by rw [plain, Bool.false_and, Bool.false_and]; exact Bool.false_ne_true)

/-- A high level at an input that senses it (R488). -/
theorem State.senseInput_high (plain : (s.boot.cfg.evtIn.getD i {}).tamper = false) (sense : (s.boot.cfg.evtIn.getD i {}).sense = 0)
    (old : Bool) : s.senseInput i old true = s.setLevel i true := by
  rw [State.senseInput_source plain, sense]
  rfl

theorem State.edge_counts (enabled : (s.source i).enabled = true) (counts : (s.source i).count < 255) :
    s.edge i = s.modSource i (fun x => { x with count := x.count + 1 }) := by
  rw [State.edge, if_pos enabled]
  have below : ¬(s.evt.sources.get {} i).count ≥ 255 := Nat.not_le.mpr counts
  simp only [State.modSource, Tbl.mod, if_neg below]

/-- A change of level at an input that senses both edges counts once (R487, R488). -/
theorem senseInput_change {old new : Bool} (plain : (s.boot.cfg.evtIn.getD i {}).tamper = false)
    (sense : (s.boot.cfg.evtIn.getD i {}).sense = 4) (change : old ≠ new) (enabled : (s.source i).enabled = true)
    (counts : (s.source i).count < 255) : s.senseInput i old new = s.modSource i (fun x => { x with count := x.count + 1 }) := by
  have hit : senseHit 4 old new = true := bne_iff_ne.mpr change
  rw [State.senseInput_source plain, sense, hit]
  exact State.edge_counts enabled counts

/-- A tamper input whose condition is met by a high level zeroizes the device (R491). -/
theorem State.senseInput_tamper (tamper : (s.boot.cfg.evtIn.getD i {}).tamper = true) (sense : (s.boot.cfg.evtIn.getD i {}).sense = 0)
    (blank : s.sys.mode ≠ .blank) (old : Bool) : s.senseInput i old true =
      ((s.setLevel i true).quarantine 0x0703).report (mkFault 15 .contained 0x0703 gathererUnit i none) := by
  unfold State.senseInput
  simp only [sense, tamper, senseHit, Nat.zero_lt_two, if_true, Bool.true_and]
  exact if_pos (by
    have mode : (s.setLevel i true).sys.mode ≠ .blank := blank
    simpa using mode)

section Awake
variable (awake : s.awake = true)
include awake

/-- The pin of an input takes its level. -/
def State.pinTo (s : State) (i : Nat) (level : Bool) : State :=
  s.modPin i (fun p => { p with pin := level, count := if level == p.filtered then 0 else p.count })

theorem exec_evtInChange_dead (dead : s.evt.evtLive = false) : exec (.evtInChange i level) s =
    .next ((s.pinTo i level).modPin i (fun p => { p with filtered := level, count := 0 })) :=
  congrArg Host.Outcome.next ((if_neg (by simp [awake])).trans (if_pos (by simp [State.modPin, dead])))

section Live
variable (live : s.evt.evtLive = true)
include live

theorem exec_evtInChange_filtered (filter : (s.boot.cfg.evtIn.getD i {}).filter = true) :
    exec (.evtInChange i level) s = .next (s.pinTo i level) :=
  congrArg Host.Outcome.next ((if_neg (by simp [awake])).trans ((if_neg (by simp [State.modPin, live])).trans (if_pos filter)))

variable (direct : (s.boot.cfg.evtIn.getD i {}).filter = false)
include direct

theorem exec_evtInChange_same (same : (s.evtPin i).pin = level) : exec (.evtInChange i level) s = .next (s.pinTo i level) :=
  congrArg Host.Outcome.next ((if_neg (by simp [awake])).trans ((if_neg (by simp [State.modPin, live])).trans
    ((if_neg (by rw [direct]; exact Bool.false_ne_true)).trans (if_pos (by simp [same])))))

theorem exec_evtInChange (change : (s.evtPin i).pin ≠ level) :
    exec (.evtInChange i level) s = .next ((s.pinTo i level).senseInput i (s.evtPin i).pin level) :=
  congrArg Host.Outcome.next ((if_neg (by simp [awake])).trans ((if_neg (by simp [State.modPin, live])).trans
    ((if_neg (by rw [direct]; exact Bool.false_ne_true)).trans (if_neg (by simp [change])))))

end Live

theorem exec_filterCountExpiry (live : s.evt.evtLive = true) (filter : (s.boot.cfg.evtIn.getD i {}).filter = true)
    (change : (s.evtPin i).pin ≠ (s.evtPin i).filtered) : exec (.filterCountExpiry i) s =
      .next ((s.modPin i (fun p => { p with filtered := p.pin, count := 0 })).senseInput i (s.evtPin i).filtered (s.evtPin i).pin) :=
  congrArg Host.Outcome.next (if_neg (by rw [awake, live, filter]; simpa using change))

end Awake

theorem exec_filterCountExpiry_idle
    (idle : s.evt.evtLive = false ∨ (s.boot.cfg.evtIn.getD i {}).filter = false ∨ (s.evtPin i).pin = (s.evtPin i).filtered) :
    exec (.filterCountExpiry i) s = .next s :=
  congrArg Host.Outcome.next (if_pos (by
    rcases idle with h | h | h
    · simp [h]
    · rw [h]
      simp
    · simp [h]))

end Inputs

/-- Settles O47: each command is its `exec_` equation; a tamper input's zeroization is `State.quarantine_effect`. -/
theorem eventGathererCommandsComplete : Obligations.EventGathererCommandsComplete := by
  unfold Obligations.EventGathererCommandsComplete
  refine fun s awake => ⟨fun i free below first enabled active => ?_, exec_sourcePresent_idle awake, congrArg _ (if_pos awake),
    fun i level live direct plain sense change enabled counts => ?_, fun i level live filter change => ?_,
    fun i live filter plain sense pin filtered => ?_, fun i live filter tamper sense pin filtered blank mode => ?_,
    fun i free below first enabled active => ?_, exec_sourcePresent_serving,
    fun i level live direct => ⟨exec_evtInChange awake live direct, fun same => ?_⟩, fun i level dead => ?_,
    fun i => exec_filterCountExpiry awake, fun i => exec_filterCountExpiry_idle⟩
  · have runs := exec_sourcePresent awake free below first enabled active
    have only : OnlyIn [.evt] s ((s.presented i).takenUp i (s.levelSource i)) :=
      (State.presented_onlyIn.trans State.takenUp_onlyIn).mono (by decide)
    obtain ⟨service, claimed, -⟩ := State.takenUp_service (s := s.presented i) (i := i) (level := s.levelSource i)
    refine ⟨fun edge => ?_, fun level => ?_⟩
    · rw [edge] at runs only service claimed
      exact ⟨_, runs, service, claimed.trans (if_neg (by simp [edge])), State.modSource_same .., fun j hj => State.modSource_ne _ _ _ hj, only⟩
    · rw [level] at runs only service claimed
      exact ⟨_, runs, service, claimed.trans (if_pos level), fun j => State.takenUp_level_count j, only⟩
  · have only (t : State) : OnlyIn [.evt] t (t.modSource i fun x => { x with count := x.count + 1 }) := onlyIn_iff.mpr (by simp)
    have pinned : ((s.pinTo i level).evtPin i).pin = level := congrArg EvtPin.pin (State.modPin_same _)
    refine ⟨_, (exec_evtInChange awake live direct change).trans (congrArg _ (senseInput_change (s := s.pinTo i level) plain sense change
      enabled counts)), pinned, State.modSource_same .., fun j hj => State.modSource_ne _ _ _ hj,
      ((State.modPin_onlyIn _).trans (only _)).mono (by decide)⟩
  · refine ⟨_, exec_evtInChange_filtered awake live filter, (State.modPin_same _).trans ?_, fun _ => rfl, State.modPin_onlyIn _⟩
    simp [change.symm]
  · have only (t : State) : OnlyIn [.evt] t (t.setLevel i true) := onlyIn_iff.mpr (by simp)
    have runs := exec_filterCountExpiry awake live filter (by rw [pin, filtered]; decide)
    have followed : (s.modPin i fun p => { p with filtered := p.pin, count := 0 }).evtPin i =
        { s.evtPin i with filtered := true, count := 0 } := by simp [State.modPin_same, pin]
    rw [pin] at runs
    exact ⟨_, runs.trans (congrArg _ (State.senseInput_high (s := s.modPin i _) plain sense _)),
      followed, congrArg Source.level (State.modSource_same ..),
      ((State.modPin_onlyIn _).trans (only _)).mono (by decide)⟩
  · have runs := exec_filterCountExpiry awake live filter (by rw [pin, filtered]; decide)
    rw [pin] at runs
    have q := (State.quarantine_effect (s := (s.modPin i fun p => { p with filtered := p.pin, count := 0 }).setLevel i true) mode
      0x0703).report (mkFault 15 .contained 0x0703 gathererUnit i none)
    exact ⟨_, runs.trans (congrArg _ (State.senseInput_tamper (s := s.modPin i _) tamper sense blank _)),
      by rw [State.report_gsys, State.quarantine_mode], q.cause, q.zero⟩
  · exact ⟨_, exec_sourcePresent awake free below first enabled active, State.takenUp_service.2.2⟩
  · exact ⟨_, exec_evtInChange_same awake live direct same, congrArg EvtPin.pin (State.modPin_same _), fun _ => rfl, State.modPin_onlyIn _⟩
  · exact ⟨_, exec_evtInChange_dead awake dead, by rw [State.pinTo, State.modPin_same, State.modPin_same], fun _ => rfl,
      ((State.modPin_onlyIn _).trans (State.modPin_onlyIn _)).mono (by decide)⟩

end Sys2Proof.Machine
end

