-- ==== Sys2Proof/Proofs/RecoveryWindow.lean ====
section
/-! PROOFS. The recovery window (R560-R564). -/

namespace Sys2Proof.Machine

/-! ### The recovery window (R560-R564) -/

/-- Removing the bytes of some addresses leaves the others and reads the default there. -/
theorem Memory.read_filter (d : Byte) (m : Memory) (keep : Nat → Bool) (a : Nat) :
    Memory.read d (m.filter fun c => keep c.1) a = if keep a then Memory.read d m a else d := by
  induction m with
  | nil => simp [Memory.read]
  | cons c m ih =>
    obtain ⟨k, v⟩ := c
    by_cases here : k = a
    · subst here
      by_cases kept : keep k = true <;> simp [List.filter_cons, Memory.read, kept, ih]
    · by_cases kept : keep k = true <;> simp [List.filter_cons, Memory.read, kept, here, ih]

section Window
variable {s : State} {f : FnId} {len : Nat} {copyB : Bool} {b : Board}

section Op
variable {op bad : Nat} {run : State → State}

theorem State.recoveryOp_shut (shut : s.sys.mode ≠ .blank ∨ f.fn ≠ 0 ∨ s.memOn f = false) : s.recoveryOp f op len copyB bad run = s :=
  if_pos (by rcases shut with h | h | h <;> simp [h])

variable (blank : s.sys.mode = .blank) (pf0 : f.fn = 0) (mem : s.memOn f = true)
include blank pf0 mem

theorem State.recoveryOp_busy (busy : s.boot.rcvBusy = true) : s.recoveryOp f op len copyB bad run = s.reject f 0x070D 1 0xC100 :=
  (if_neg (by simp [blank, pf0, mem])).trans (if_pos busy)

variable (free : s.boot.rcvBusy = false)
include free

theorem State.recoveryOp_bad (wrong : bad ≠ 0) : s.recoveryOp f op len copyB bad run = s.reject f bad 1 0xC100 :=
  (if_neg (by simp [blank, pf0, mem])).trans ((if_neg (by simp [free])).trans (if_pos (by simp [wrong])))

/-- An operation has begun. -/
def State.recovering (s : State) (op len : Nat) (copyB : Bool) : State :=
  { s with boot.rcvBusy := true, boot.rcvOp := some (op, len, copyB), boot.rcvResult := 0 }

theorem State.recoveryOp_runs (fine : bad = 0) : s.recoveryOp f op len copyB bad run = run (s.recovering op len copyB) :=
  (if_neg (by simp [blank, pf0, mem])).trans ((if_neg (by simp [free])).trans (if_neg (by simp [fine])))

end Op

/-! The codes of R562 -/

theorem rangeCode_outside {off align : Nat} {short : Bool} (outside : short = true ∨ 0x1000000 < off + len) :
    rangeCode off len align short = 0x0003 :=
  if_pos (by rcases outside with h | h <;> simp [h, flashSize])

section Inside
variable {off align : Nat} {short : Bool} (sized : short = false) (inside : off + len ≤ 0x1000000)
include sized inside

theorem rangeCode_misaligned (bad : off % align ≠ 0 ∨ len % align ≠ 0) : rangeCode off len align short = 0x0002 :=
  (if_neg (by rw [sized, flashSize, Bool.false_or, decide_eq_false (Nat.not_lt.mpr inside)]; exact Bool.false_ne_true)).trans (if_pos (by simpa using bad))

theorem rangeCode_fits (start : off % align = 0) (stop : len % align = 0) : rangeCode off len align short = 0 :=
  (if_neg (by rw [sized, flashSize, Bool.false_or, decide_eq_false (Nat.not_lt.mpr inside)]; exact Bool.false_ne_true)).trans (if_neg (by simp [start, stop]))

end Inside

/-- A length that a read or a program may have. -/
theorem lengthFits (some' : 0 < len) (most : len ≤ 4096) : (len == 0 || decide (4096 < len)) = false := by
  simp [Nat.pos_iff_ne_zero.mp some', most]

theorem exec_recovery_shut (shut : s.sys.mode ≠ .blank ∨ f.fn ≠ 0 ∨ s.memOn f = false) :
    ∀ c ∈ [Instr.recoveryRead f len, .recoveryErase f, .recoveryProgram f len, .recoveryVerify f copyB b, .fuseSigner f],
      exec c s = .next s := by
  simp only [List.forall_mem_cons, List.not_mem_nil, false_implies, implies_true, and_true]
  exact ⟨congrArg _ (State.recoveryOp_shut shut), congrArg _ (State.recoveryOp_shut shut), congrArg _ (State.recoveryOp_shut shut),
    congrArg _ (State.recoveryOp_shut shut), congrArg _ (State.recoveryOp_shut shut)⟩

section Open
variable (blank : s.sys.mode = .blank) (pf0 : f.fn = 0) (mem : s.memOn f = true)
include blank pf0 mem

theorem exec_recovery_busy (busy : s.boot.rcvBusy = true) :
    ∀ c ∈ [Instr.recoveryRead f len, .recoveryErase f, .recoveryProgram f len, .recoveryVerify f copyB b, .fuseSigner f],
      exec c s = .next (s.reject f 0x070D 1 0xC100) := by
  simp only [List.forall_mem_cons, List.not_mem_nil, false_implies, implies_true, and_true]
  have busy_op {op len bad} {copyB : Bool} {run : State → State} : s.recoveryOp f op len copyB bad run = s.reject f 0x070D 1 0xC100 :=
    State.recoveryOp_busy blank pf0 mem busy
  exact ⟨congrArg _ busy_op, congrArg _ busy_op, congrArg _ busy_op, congrArg _ busy_op, congrArg _ busy_op⟩

variable (free : s.boot.rcvBusy = false)
include free

section Outside
variable (outside : len = 0 ∨ 4096 < len ∨ 0x1000000 < s.boot.rcvAddr + len)
include outside

omit blank pf0 mem free in
theorem rangeCode_length (align : Nat) : rangeCode s.boot.rcvAddr len align (len == 0 || decide (4096 < len)) = 0x0003 :=
  rangeCode_outside (by rcases outside with h | h | h <;> simp [h])

theorem exec_recoveryRead_outside : exec (.recoveryRead f len) s = .next (s.reject f 0x0003 1 0xC100) := by
  refine congrArg Host.Outcome.next ?_
  dsimp only
  rw [rangeCode_length outside]
  exact State.recoveryOp_bad blank pf0 mem free (by decide)

theorem exec_recoveryProgram_outside : exec (.recoveryProgram f len) s = .next (s.reject f 0x0003 1 0xC100) := by
  refine congrArg Host.Outcome.next ?_
  dsimp only
  rw [rangeCode_length outside]
  exact State.recoveryOp_bad blank pf0 mem free (by decide)

end Outside

section Sized
variable (sized : 0 < len) (most : len ≤ 4096) (inside : s.boot.rcvAddr + len ≤ 0x1000000)
include sized most inside

theorem exec_recoveryRead : exec (.recoveryRead f len) s = .next { s with
    boot.rcvBusy := true, boot.rcvOp := some (1, len, false), boot.rcvResult := 0
    boot.rcvBuf := Memory.writeAll 0 s.boot.rcvBuf 0 (Memory.readAll 0xFF s.boot.flash s.boot.rcvAddr len) } :=
  congrArg Host.Outcome.next (State.recoveryOp_runs blank pf0 mem free
    (rangeCode_fits (lengthFits sized most) inside (Nat.mod_one _) (Nat.mod_one _)))

theorem exec_recoveryProgram (start : s.boot.rcvAddr % 256 = 0) (stop : len % 256 = 0) : exec (.recoveryProgram f len) s = .next { s with
    boot.rcvBusy := true, boot.rcvOp := some (3, len, false), boot.rcvResult := 0
    boot.flash := Memory.writeAll 0xFF s.boot.flash s.boot.rcvAddr (Memory.readAll 0 s.boot.rcvBuf 0 len) } :=
  congrArg Host.Outcome.next (State.recoveryOp_runs blank pf0 mem free (rangeCode_fits (lengthFits sized most) inside start stop))

theorem exec_recoveryProgram_misaligned (bad : s.boot.rcvAddr % 256 ≠ 0 ∨ len % 256 ≠ 0) :
    exec (.recoveryProgram f len) s = .next (s.reject f 0x0002 1 0xC100) := by
  refine congrArg Host.Outcome.next ?_
  dsimp only
  rw [rangeCode_misaligned (lengthFits sized most) inside bad]
  exact State.recoveryOp_bad blank pf0 mem free (by decide)

end Sized

/-- A sector of the flash is erased. -/
def State.erasing (s : State) : State := { s.recovering 2 0 false with
  boot.flash := s.boot.flash.filter (fun c => decide (c.1 < s.boot.rcvAddr) || decide (s.boot.rcvAddr + 0x10000 ≤ c.1)) }

theorem exec_recoveryErase (start : s.boot.rcvAddr % 0x10000 = 0) (inside : s.boot.rcvAddr + 0x10000 ≤ 0x1000000) :
    exec (.recoveryErase f) s = .next s.erasing :=
  congrArg Host.Outcome.next (State.recoveryOp_runs blank pf0 mem free (rangeCode_fits rfl inside start (Nat.mod_self _)))

theorem exec_recoveryErase_misaligned (start : s.boot.rcvAddr % 0x10000 ≠ 0) (inside : s.boot.rcvAddr + 0x10000 ≤ 0x1000000) :
    exec (.recoveryErase f) s = .next (s.reject f 0x0002 1 0xC100) := by
  refine congrArg Host.Outcome.next ?_
  dsimp only
  rw [rangeCode_misaligned rfl inside (.inl start)]
  exact State.recoveryOp_bad blank pf0 mem free (by decide)

theorem exec_recoveryErase_outside (outside : 0x1000000 < s.boot.rcvAddr + 0x10000) :
    exec (.recoveryErase f) s = .next (s.reject f 0x0003 1 0xC100) := by
  refine congrArg Host.Outcome.next ?_
  dsimp only
  rw [rangeCode_outside (.inr outside)]
  exact State.recoveryOp_bad blank pf0 mem free (by decide)

theorem exec_recoveryVerify : exec (.recoveryVerify f copyB b) s = .next { s.recovering 4 0 copyB with
    boot.rcvResult := ((s.recovering 4 0 copyB).checkCopy b copyB).1 } :=
  congrArg Host.Outcome.next (State.recoveryOp_runs blank pf0 mem free rfl)

theorem exec_fuseSigner (unfused : s.boot.signer = none) : exec (.fuseSigner f) s = .next { s with
    boot.rcvBusy := true, boot.rcvOp := some (5, 0, false), boot.rcvResult := 0
    boot.signer := some (digestOf (Memory.readAll 0 s.boot.rcvBuf 0 48)) } :=
  congrArg Host.Outcome.next (State.recoveryOp_runs blank pf0 mem free (if_neg (by simp [unfused])))

theorem exec_fuseSigner_fused (fused : s.boot.signer ≠ none) : exec (.fuseSigner f) s = .next (s.reject f 0x070C 1 0xC100) := by
  have code : (if s.boot.signer.isSome = true then 0x070C else 0) = 0x070C := if_pos (Option.isSome_iff_ne_none.mpr fused)
  refine congrArg Host.Outcome.next ?_
  rw [code]
  exact State.recoveryOp_bad blank pf0 mem free (by decide)

end Open

theorem exec_recoveryOpDone_idle {ok : Bool} (idle : s.boot.rcvBusy = false) : exec (.recoveryOpDone ok) s = .next s :=
  congrArg Host.Outcome.next (if_pos (by simp [idle]))

/-- An operation ends with a code (R563). -/
def State.recovered (s : State) (code : Nat) : State :=
  { s with boot.rcvBusy := false, boot.rcvDone := true, boot.rcvCode := code, boot.rcvOp := none }

theorem exec_recoveryOpDone (ok : Bool) (awake : s.awake = true) (busy : s.boot.rcvBusy = true) :
    exec (.recoveryOpDone ok) s = .next ((s.recovered (if ok then s.boot.rcvResult else 0x070F)).edge 78) :=
  congrArg Host.Outcome.next (if_neg (by simp [awake, busy]))

end Window

/-- Settles O48: each operation is its `exec_` equation, from the cases of `State.recoveryOp` and the codes of `rangeCode`. -/
theorem recoveryCommandsComplete : Obligations.RecoveryCommandsComplete := by
  unfold Obligations.RecoveryCommandsComplete
  refine fun s f len copyB b => ⟨fun blank pf0 mem free => ⟨exec_recoveryRead blank pf0 mem free, fun start inside => ?_,
    exec_recoveryProgram blank pf0 mem free, ?_, exec_fuseSigner blank pf0 mem free, exec_fuseSigner_fused blank pf0 mem free,
    exec_recoveryErase_misaligned blank pf0 mem free⟩, fun out => exec_recovery_shut (.inl out), fun awake busy => ?_,
    fun awake busy => ?_, fun blank pf0 mem => ⟨exec_recovery_busy blank pf0 mem, fun free outside =>
      ⟨exec_recoveryRead_outside blank pf0 mem free outside, exec_recoveryProgram_outside blank pf0 mem free outside⟩,
      exec_recoveryProgram_misaligned blank pf0 mem, exec_recoveryErase_outside blank pf0 mem, exec_recoveryVerify blank pf0 mem⟩,
    fun shut => exec_recovery_shut (.inr shut), fun ok => exec_recoveryOpDone_idle⟩
  · refine ⟨_, exec_recoveryErase blank pf0 mem free start inside, rfl, fun a => ?_, onlyIn_iff.mpr (by simp [State.erasing, State.recovering])⟩
    refine (Memory.read_filter 0xFF s.boot.flash (fun a => decide (a < s.boot.rcvAddr) || decide (s.boot.rcvAddr + 0x10000 ≤ a)) a).trans ?_
    by_cases within : s.boot.rcvAddr ≤ a ∧ a < s.boot.rcvAddr + 0x10000
    · rw [if_pos within, if_neg (by simp [within])]
    · rw [if_neg within, if_pos (by simp; omega)]
  · exact ⟨_, exec_recoveryVerify blank pf0 mem free, rfl, rfl, rfl, onlyIn_iff.mpr (by simp [State.recovering])⟩
  · have only (t : State) : OnlyIn [.evt] t (t.edge 78) := onlyIn_iff.mpr (by simp)
    have done : OnlyIn [.boot] s (s.recovered s.boot.rcvResult) := onlyIn_iff.mpr (by simp [State.recovered])
    exact ⟨_, exec_recoveryOpDone true awake busy, by simp [State.recovered], by simp [State.recovered], by simp [State.recovered],
      by simp [State.recovered], (done.trans (only _)).mono (by decide)⟩
  · have only (t : State) : OnlyIn [.evt] t (t.edge 78) := onlyIn_iff.mpr (by simp)
    have done : OnlyIn [.boot] s (s.recovered 0x070F) := onlyIn_iff.mpr (by simp [State.recovered])
    exact ⟨_, exec_recoveryOpDone false awake busy, by simp [State.recovered], by simp [State.recovered], by simp [State.recovered],
      (done.trans (only _)).mono (by decide)⟩

end Sys2Proof.Machine
end

