-- ==== Sys2Proof/Proofs/SmbusTarget.lean ====
section
/-! PROOFS. The SMBus target (R559, R560, R651). -/

namespace Sys2Proof.Machine

/-! ### The SMBus target (R559, R560, R651) -/

section Smbus
variable {s : State} {cmd : Nat} {taken : Bool} {bytes : List Byte}

theorem State.smbusRead_unpowered (off : s.sys.aon = false) : s.smbusRead cmd taken bytes = s := if_pos (by simp [off])

section Powered
variable (on : s.sys.aon = true)
include on

theorem State.smbusRead_high (high : 0x87 < cmd) : s.smbusRead cmd taken bytes = s.emit (.smbusAck false) :=
  (if_neg (by simp [on])).trans (if_pos high)

theorem State.smbusRead_sends (low : cmd ≤ 0x87) : s.smbusRead cmd taken bytes = ((s.emit (.smbus bytes)).alertRead taken).edge 77 :=
  (if_neg (by simp [on])).trans (if_neg (Nat.not_lt.mpr low))

end Powered

theorem State.alertRead_sys : (s.alertRead taken).sys = { s.sys with alert := s.sys.alert && !(taken && !s.sys.devRst) } := by
  unfold State.alertRead
  by_cases sent : (taken && !s.sys.devRst) = true
  · rw [if_pos sent, sent, Bool.not_true, Bool.and_false]
  · rw [if_neg sent, Bool.eq_false_iff.mpr sent, Bool.not_false, Bool.and_true]

theorem State.alertRead_onlyIn : OnlyIn [.sys] s (s.alertRead taken) := by
  unfold State.alertRead
  split
  · exact onlyIn_iff.mpr (by simp)
  · exact .refl _ s

/-- What a read leaves: the bytes are sent, ALERT# may fall and event source 77 sees it. -/
theorem State.smbusRead_effect (on : s.sys.aon = true) (low : cmd ≤ 0x87) :
    (s.smbusRead cmd taken bytes).out = s.out ++ [.smbus bytes] ∧
    (s.smbusRead cmd taken bytes).sys = { s.sys with alert := s.sys.alert && !(taken && !s.sys.devRst) } ∧
    OnlyIn [.out, .sys, .evt] s (s.smbusRead cmd taken bytes) := by
  have sent : OnlyIn [.out] s (s.emit (.smbus bytes)) := onlyIn_iff.mpr (by simp)
  have read := (s.emit (.smbus bytes)).alertRead_onlyIn (taken := taken)
  have only := (sent.trans read).trans (State.edge_onlyIn _ 77)
  have out : ((s.emit (.smbus bytes)).alertRead taken).out = (s.emit (.smbus bytes)).out := read.agree .out (by decide)
  rw [State.smbusRead_sends on low]
  exact ⟨by rw [State.edge_gout, out]; rfl, by rw [State.edge_gsys, State.alertRead_sys]; rfl, only.mono (by decide)⟩

theorem exec_smbusRead_unpowered (off : s.sys.aon = false) :
    ∀ c ∈ [Instr.smbusReadByte cmd, .smbusReadWord cmd, .smbusBlockRead cmd, .smbusWrite cmd], exec c s = .next s := by
  simp only [List.forall_mem_cons, List.not_mem_nil, false_implies, implies_true, and_true]
  exact ⟨congrArg _ (State.smbusRead_unpowered off), congrArg _ (State.smbusRead_unpowered off),
    congrArg _ (State.smbusRead_unpowered off), congrArg _ (if_neg (by simp [off]))⟩

theorem exec_smbusRead_high (on : s.sys.aon = true) (high : 0x87 < cmd) :
    ∀ c ∈ [Instr.smbusReadByte cmd, .smbusReadWord cmd, .smbusBlockRead cmd], exec c s = .next (s.emit (.smbusAck false)) := by
  simp only [List.forall_mem_cons, List.not_mem_nil, false_implies, implies_true, and_true]
  exact ⟨congrArg _ (State.smbusRead_high on high), congrArg _ (State.smbusRead_high on high), congrArg _ (State.smbusRead_high on high)⟩

/-- What a block read sends (R651; log entry 50). -/
def State.blockBytes (s : State) (cmd : Nat) : List Byte :=
  if 0x80 ≤ cmd then s.smbusStream cmd
  else ((s.smbusStream cmd).take 2).take ((((s.smbusStream cmd).take 2).getD 0 0).toNat + 1) ++
    (List.range ((((s.smbusStream cmd).take 2).getD 0 0).toNat - 1)).map Config.smbusByte

theorem State.blockBytes_block (block : 0x80 ≤ cmd) : s.blockBytes cmd = 32 :: (s.statusBlock.drop (32 * (cmd - 0x80))).take 32 :=
  (if_pos block).trans (if_neg (Nat.not_lt.mpr block))

theorem getD_zero_take_two (l : List Byte) : (l.take 2).getD 0 0 = l.getD 0 0 := by cases l <;> rfl

theorem State.blockBytes_status (status : cmd < 0x80) : s.blockBytes cmd =
    ((s.smbusStream cmd).take 2).take (((s.smbusStream cmd).getD 0 0).toNat + 1) ++
      (List.range (((s.smbusStream cmd).getD 0 0).toNat - 1)).map Config.smbusByte := by
  rw [State.blockBytes, if_neg (Nat.not_le.mpr status), getD_zero_take_two]

theorem exec_smbusBlockRead : exec (.smbusBlockRead cmd) s =
    .next (s.smbusRead cmd (decide (cmd < 4) || cmd == 0x80) (s.blockBytes cmd)) := rfl

end Smbus

/-- Settles O49: every read is `State.smbusRead` of its bytes. -/
theorem smbusCommandsComplete : Obligations.SmbusCommandsComplete := by
  unfold Obligations.SmbusCommandsComplete
  refine fun s cmd => ⟨fun on low => ?_, fun on low => ?_, fun on block low => ?_, fun on => congrArg _ (if_pos on), exec_smbusRead_high,
    exec_smbusRead_unpowered, fun on status => ?_⟩
  · obtain ⟨out, sys, only⟩ := State.smbusRead_effect (s := s) (taken := decide (cmd < 4)) (bytes := (s.smbusStream cmd).take 1) on low
    exact ⟨_, rfl, out, sys, only⟩
  · obtain ⟨out, -, only⟩ := State.smbusRead_effect (s := s) (taken := decide (cmd < 4) || cmd == 0x80)
      (bytes := (s.smbusStream cmd).take 2) on low
    exact ⟨_, rfl, out, only⟩
  · obtain ⟨out, -, only⟩ := State.smbusRead_effect (s := s) (taken := decide (cmd < 4) || cmd == 0x80) (bytes := s.blockBytes cmd) on low
    exact ⟨_, exec_smbusBlockRead, out.trans (by rw [State.blockBytes_block block]), only⟩
  · have low : cmd ≤ 0x87 := Nat.le_trans (Nat.le_of_lt status) (by decide)
    obtain ⟨out, -, only⟩ := State.smbusRead_effect (s := s) (taken := decide (cmd < 4) || cmd == 0x80) (bytes := s.blockBytes cmd) on low
    exact ⟨_, exec_smbusBlockRead, ⟨_, out, State.blockBytes_status status⟩, only⟩

end Sys2Proof.Machine
end

