-- ==== Sys2Proof/Proofs/PowerDomains.lean ====
section
/-! PROOFS. Power domains (R22, R568-R588). -/

namespace Sys2Proof.Machine

/-! ### Quiescing a domain (R134, R136, R138, R568) -/

section Quiesce
variable {s : State} {d : Nat}

theorem State.wcbOut_gateOnly (g line : Nat) : GateOnly s (s.wcbOut g line) := by
  unfold State.wcbOut
  split
  · exact .ite (.refl _ s) (s.wcbLeave_gateOnly ..)
  · exact .refl _ s

theorem State.modHgate_memOnly (h : Nat) (m : HGate → HGate) : MemOnly s (s.modHgate h m) := (onlyIn_pool s _).toPoolNet

theorem State.drainHgate_memOnly (q h : Nat) : MemOnly s (s.drainHgate q h) := by
  unfold State.drainHgate
  exact ((foldl_onlyIn _ (fun s _ => (s.evictNode_leaves ..).1) _ s).comp (State.modHgate_memOnly ..)).comp
    (foldl_onlyIn _ (fun s _ => (s.hbmPut_keepsRoot ..).1.toPoolNet) _ _)

theorem State.quiesce_gateOnly (d : Nat) : GateOnly s (s.quiesce d) := by
  have dropped (hit : Nat → Bool) : GateOnly s (s.dropCaches hit) := (s.dropCaches_onlyIn hit).mono (by decide)
  unfold State.quiesce
  split
  · exact dropped _
  split
  · exact dropped _
  split
  · exact ((foldl_onlyIn _ (fun s _ => s.wcbOut_gateOnly ..) _ s).comp (foldl_onlyIn _ (fun s _ => (s.macOut_memOnly ..).gate) _ _)).comp
      (foldl_onlyIn _ (fun s _ => (s.evictCtr_memOnly ..).gate) _ _)
  split
  · exact foldl_onlyIn _ (fun s _ => (s.drainHgate_memOnly ..).gate) _ s
  · exact .refl _ s

theorem State.dom_congr {t : State} (h : t.pwr = s.pwr) (j : Nat) : t.dom j = s.dom j := by rw [State.dom, h, State.dom]

theorem State.quiesce_dom (j : Nat) : (s.quiesce d).dom j = s.dom j :=
  State.dom_congr (s.quiesce_gateOnly d |>.agree .pwr (by decide)) j

end Quiesce

/-! ### Entry: linger, commit and completion (R568-R578) -/

section Entry
variable {s : State} {d : Nat}

theorem exec_lingerExpiry_idle (r : Option Nat) (idle : s.sys.mode = .blank ∨ s.boot.step < 7 ∨ (s.dom d).state ≠ 0 ∨ (s.dom d).phase ≠ 0 ∨
    s.wanted d = true ∨ min ((s.boot.cfg.doms.getD d {}).lowest) (s.allowed d) = 0) : exec (.lingerExpiry d r) s = .next s :=
  congrArg Host.Outcome.next (if_pos (by rcases idle with h | h | h | h | h | h <;> simp [-List.getD_eq_getElem?_getD, h]))

section Linger
variable (awake : s.awake = true) (blank : s.sys.mode ≠ .blank) (ready : 7 ≤ s.boot.step) (some' : 0 < d) (on : (s.dom d).state = 0)
  (rests : (s.dom d).phase = 0) (unwanted : s.wanted d = false)
  (lower : 0 < min ((s.boot.cfg.doms.getD d {}).lowest) (s.allowed d)) (intact : ∀ u ∈ domUnits d, (s.unitFlt u).state ≠ 2)
include awake blank ready some' on rests unwanted lower intact

theorem lingerExpiry_acts : (!s.awake || s.sys.mode == .blank || s.boot.step < 7 || d == 0 || (s.dom d).state != 0 || (s.dom d).phase != 0 ||
    s.wanted d || min ((s.boot.cfg.doms.getD d {}).lowest) (s.allowed d) == 0 ||
    (domUnits d).any (fun u => (s.unitFlt u).state == 2)) ≠ true := by
  have held : (domUnits d).any (fun u => (s.unitFlt u).state == 2) = false := by simpa using intact
  have target : (min ((s.boot.cfg.doms.getD d {}).lowest) (s.allowed d) == 0) = false := beq_false_of_ne (Nat.ne_of_gt lower)
  rw [held, target]
  simp [awake, blank, Nat.not_lt.mpr ready, Nat.ne_of_gt some', on, rests, unwanted]

theorem exec_lingerExpiry_refused (r : Nat) : exec (.lingerExpiry d (some r)) s =
    .next ((s.modDom d (fun x => { x with refused := satAdd 65535 x.refused 1, refuser := r })).edge 16) :=
  congrArg Host.Outcome.next (if_neg (lingerExpiry_acts awake blank ready some' on rests unwanted lower intact))

theorem exec_lingerExpiry : exec (.lingerExpiry d none) s = .next ((s.modDom d (fun x => { x with
    phase := 2, target := min ((s.boot.cfg.doms.getD d {}).lowest) (s.allowed d) })).quiesce d) :=
  congrArg Host.Outcome.next (if_neg (lingerExpiry_acts awake blank ready some' on rests unwanted lower intact))

end Linger

theorem exec_domainCommit_idle (other : (s.dom d).phase ≠ 2) : exec (.domainCommit d) s = .next s :=
  congrArg Host.Outcome.next (if_pos (by simp [other]))

section Commit
variable (awake : s.awake = true) (phase : (s.dom d).phase = 2)
include awake phase

theorem exec_domainCommit_wanted (voted : s.voted d = true) :
    exec (.domainCommit d) s = .next (s.wake d (slotWanter (((s.slots d).findIdx? (s.votes d)).getD 0))) :=
  congrArg Host.Outcome.next ((if_neg (by simp [awake, phase])).trans (if_pos voted))

variable (unvoted : s.voted d = false)
include unvoted

theorem exec_domainCommit_busy (busy : s.unitsBusy d = true) : exec (.domainCommit d) s = .next s :=
  congrArg Host.Outcome.next ((if_neg (by simp [awake, phase])).trans ((if_neg (by simp [unvoted])).trans (if_pos busy)))

variable (quiet : s.unitsBusy d = false)
include quiet

theorem exec_domainCommit_full (full : s.emptied d = false) : exec (.domainCommit d) s = .next (s.quiesce d) :=
  congrArg Host.Outcome.next ((if_neg (by simp [awake, phase])).trans ((if_neg (by simp [unvoted])).trans
    ((if_neg (by simp [quiet])).trans (if_pos (by simp [full])))))

theorem exec_domainCommit (empty : s.emptied d = true) :
    exec (.domainCommit d) s = .next (s.modDom d (fun x => { x with phase := 3, pads := x.target == 2 })) :=
  congrArg Host.Outcome.next ((if_neg (by simp [awake, phase])).trans ((if_neg (by simp [unvoted])).trans
    ((if_neg (by simp [quiet])).trans (if_neg (by simp [empty])))))

end Commit

/-! The entry completes -/

/-- The domain reads its target state. -/
def State.entered (s : State) (d : Nat) : State := s.modDom d (fun x =>
  { x with state := x.target, phase := 0, target := 0, wakeAfter := false, entries := (x.entries + 1) % 2 ^ 32 })

/-- The functions of a Cuff that goes off lose their state. -/
def State.cuffsOff (s : State) (d target : Nat) : State :=
  if target == 2 && d ≤ 8 then (s.cuffLinks (d - 1)).foldl State.cuffOff s else s

/-- The island of a domain steps down with the last of its clocks. -/
def State.islandStops (s : State) (d : Nat) : State :=
  match domIsland d with
  | some i => if s.islandClock i then s else s.modPace (fun p => { p with high := p.high &&& ~~~ BitVec.ofNat 18 (2 ^ i) })
  | none => s

/-- The state in which the domain has reached its target. -/
def State.reached (s : State) (d : Nat) : State := (((s.entered d).cuffsOff d (s.dom d).target).loseCaches d).islandStops d

theorem exec_domainEntryComplete_idle (other : (s.dom d).phase ≠ 3) : exec (.domainEntryComplete d) s = .next s :=
  congrArg Host.Outcome.next (if_pos (by simp [other]))

theorem exec_domainEntryComplete (awake : s.awake = true) (phase : (s.dom d).phase = 3) : exec (.domainEntryComplete d) s =
    .next (if (s.dom d).wakeAfter || (s.reached d).wanted d then (s.reached d).wake d (unitWanter (((domUnits d).head?).getD 0))
      else s.reached d) :=
  congrArg Host.Outcome.next (if_neg (by simp [awake, phase]))

theorem State.entered_onlyIn : OnlyIn [.pwr] s (s.entered d) := onlyIn_iff.mpr (by simp [State.entered])

theorem State.cuffOff_onlyIn (l : Nat) : OnlyIn [.host, .trust] s (s.cuffOff l) := by
  have reset (ns : List Nat) : OnlyIn [.host] s (ns.foldl (fun s n =>
      s.modFn ⟨l, n⟩ (fun x => { x.reset with events := x.events, waiters := x.waiters })) s) :=
    foldl_onlyIn _ (fun _ _ => onlyIn_iff.mpr (by simp)) _ s
  have last (t : State) (m : Link → Link) : OnlyIn [.host] t (t.modLink l m) := onlyIn_iff.mpr (by simp)
  exact ((((reset _).trans (State.endSessions_onlyIn _ l)).trans (State.resetSriov_onlyIn _ l)).trans (last _ _)).mono (by decide)

theorem State.cuffsOff_onlyIn (target : Nat) : OnlyIn [.host, .trust] s (s.cuffsOff d target) := by
  unfold State.cuffsOff
  exact .ite (foldl_onlyIn _ (fun _ _ => State.cuffOff_onlyIn _) _ s) (.refl _ s)

theorem State.loseCaches_onlyIn : OnlyIn [.pool] s (s.loseCaches d) := by
  unfold State.loseCaches
  exact .ite (.refl _ s) (.ite (onlyIn_iff.mpr (by simp)) (.ite (foldl_onlyIn _ (fun _ _ => onlyIn_pool _ _) _ s) (.refl _ s)))

theorem State.islandStops_onlyIn : OnlyIn [.pwr] s (s.islandStops d) := by
  unfold State.islandStops
  split
  · exact .ite (.refl _ s) (onlyIn_iff.mpr (by simp))
  · exact .refl _ s

theorem State.islandStops_dom (j : Nat) : (s.islandStops d).dom j = s.dom j := by
  unfold State.islandStops
  split
  · split <;> rfl
  · rfl

theorem State.reached_dom (j : Nat) : (s.reached d).dom j = (s.entered d).dom j := by
  have off := (s.entered d).cuffsOff_onlyIn (d := d) (s.dom d).target
  have lost := ((s.entered d).cuffsOff d (s.dom d).target).loseCaches_onlyIn (d := d)
  rw [State.reached, State.islandStops_dom, State.dom_congr (lost.agree .pwr (by decide)), State.dom_congr (off.agree .pwr (by decide))]

theorem State.reached_dom_same : (s.reached d).dom d = { s.dom d with
    state := (s.dom d).target, phase := 0, target := 0, wakeAfter := false, entries := ((s.dom d).entries + 1) % 2 ^ 32 } := by
  rw [State.reached_dom, State.entered, State.modDom_same]

theorem State.reached_dom_ne {j : Nat} (hj : j ≠ d) : (s.reached d).dom j = s.dom j := by
  rw [State.reached_dom, State.entered, State.modDom_ne _ _ _ hj]

theorem State.reached_onlyIn : OnlyIn [.pwr, .pool, .host, .trust] s (s.reached d) :=
  (((State.entered_onlyIn.trans (State.cuffsOff_onlyIn _)).trans State.loseCaches_onlyIn).trans State.islandStops_onlyIn).mono (by decide)

section NoCuff
variable (high : 8 < d)
include high

theorem State.cuffsOff_high (target : Nat) : s.cuffsOff d target = s := if_neg (by simp [Nat.not_le.mpr high])

theorem State.reached_onlyIn_high : OnlyIn [.pwr, .pool] s (s.reached d) := by
  rw [State.reached, State.cuffsOff_high high]
  exact ((State.entered_onlyIn.trans State.loseCaches_onlyIn).trans State.islandStops_onlyIn).mono (by decide)

/-- A gate whose domain enters loses its caches and keeps what it has under way. -/
theorem State.reached_gate : (s.reached d).gate (d - 13) = { s.gate (d - 13) with
    ccache := ((s.reached d).gate (d - 13)).ccache, macs := ((s.reached d).gate (d - 13)).macs
    olines := ((s.reached d).gate (d - 13)).olines } := by
  have lost (t : State) : ((t.loseCaches d).islandStops d).gate (d - 13) = (t.loseCaches d).gate (d - 13) := by
    rw [State.gate, State.gate, (t.loseCaches d).islandStops_onlyIn |>.agree .pool (by decide)]
  have kept (t : State) : (t.loseCaches d).gate (d - 13) = { t.gate (d - 13) with
      ccache := ((t.loseCaches d).gate (d - 13)).ccache, macs := ((t.loseCaches d).gate (d - 13)).macs
      olines := ((t.loseCaches d).gate (d - 13)).olines } := by
    unfold State.loseCaches
    split
    · rfl
    split
    · rw [State.modGate_same]
    split
    · have same (hs : List Nat) : (hs.foldl (fun s h => s.modHgate h (fun _ => {})) t).gate (d - 13) = t.gate (d - 13) :=
        foldl_same (fun s : State => s.gate (d - 13)) _ hs t fun _ _ => rfl
      rw [same]
    · rfl
  rw [State.reached, State.cuffsOff_high high, lost]
  exact kept _

end NoCuff

/-- Who wants a domain depends neither on the caches of its gate nor on the state of any domain. -/
theorem State.wanted_congr {t : State} (only : OnlyIn [.pwr, .pool] s t) (pins : (t.dom d).pins = (s.dom d).pins)
    (gate : t.gate (d - 13) = { s.gate (d - 13) with
      ccache := (t.gate (d - 13)).ccache, macs := (t.gate (d - 13)).macs, olines := (t.gate (d - 13)).olines }) :
    t.wanted d = s.wanted d := by
  have host : t.host = s.host := only.agree .host (by decide)
  have work : t.work = s.work := only.agree .work (by decide)
  have basket : t.basket = s.basket := only.agree .basket (by decide)
  have boot : t.boot = s.boot := only.agree .boot (by decide)
  have sys : t.sys = s.sys := only.agree .sys (by decide)
  have flt : t.flt = s.flt := only.agree .flt (by decide)
  have usg : t.usg = s.usg := only.agree .usg (by decide)
  have net : t.net = s.net := only.agree .net (by decide)
  have votes : t.votes d = s.votes d := by
    funext slot
    simp only [State.votes, State.link, State.linkBusy, State.peer, State.scrubLate, State.channelLines, pins, host, work, basket, boot, sys,
      flt, usg]
    rw [gate]
  have busy : t.unitsBusy d = s.unitsBusy d := by
    simp only [State.unitsBusy, State.link, State.cuff, State.blink, host, work, basket, net]
    rw [gate]
  rw [State.wanted, State.wanted, busy, State.voted, State.voted, votes, State.slots, State.slots, boot]

theorem State.reached_wanted (high : 8 < d) : (s.reached d).wanted d = s.wanted d :=
  State.wanted_congr (State.reached_onlyIn_high high) (by rw [State.reached_dom_same]) (State.reached_gate high)

/-! ### Wake (R577, R580-R582) -/

/-- A wake of a domain that is not quiescing changes only that domain, and neither what it reads nor its counter of entries. -/
theorem State.wake_settled (w : Nat) (settled : (s.dom d).phase ≠ 2) : OnlyIn [.pwr] s (s.wake d w) ∧
    (∀ j, j ≠ d → (s.wake d w).dom j = s.dom j) ∧ ((s.wake d w).dom d).state = (s.dom d).state ∧
    ((s.wake d w).dom d).entries = (s.dom d).entries := by
  have changed (m : Dom → Dom) (keeps : ∀ x, (m x).state = x.state ∧ (m x).entries = x.entries) :
      OnlyIn [.pwr] s (s.modDom d m) ∧ (∀ j, j ≠ d → (s.modDom d m).dom j = s.dom j) ∧ ((s.modDom d m).dom d).state = (s.dom d).state ∧
      ((s.modDom d m).dom d).entries = (s.dom d).entries := by
    rw [State.modDom_same]
    exact ⟨onlyIn_iff.mpr (by simp), fun j hj => State.modDom_ne _ _ _ hj, keeps _⟩
  unfold State.wake
  extract_lets x
  split
  · exact ⟨.refl _ s, fun _ _ => rfl, rfl, rfl⟩
  split
  next quiescing => exact absurd (eq_of_beq quiescing) settled
  split
  · exact changed _ fun _ => ⟨rfl, rfl⟩
  split
  · split
    · exact changed _ fun _ => ⟨rfl, rfl⟩
    · exact changed _ fun _ => ⟨rfl, rfl⟩
  · exact ⟨.refl _ s, fun _ _ => rfl, rfl, rfl⟩

/-- A domain at rest in retention or off starts its wake sequence. -/
theorem State.wake_starts (w : Nat) (some' : 0 < d) (early : s.boot.step < 7) (rests : (s.dom d).phase = 0) (low : (s.dom d).state ≠ 0)
    (live : (domUnits d).all s.fenced = false) : s.wake d w = s.modDom d (fun x => { x with phase := 4, noWake := false }) :=
  (if_neg (by simp [Nat.ne_of_gt some', Nat.not_le.mpr early])).trans ((if_neg (by simp [rests])).trans ((if_neg (by simp [rests])).trans
    ((if_pos (by simp [rests, low])).trans (if_neg (by simp [live])))))

theorem exec_padReleaseDue_idle (idle : (s.dom d).phase ≠ 4 ∨ (s.dom d).state ≠ 2 ∨ (s.dom d).pads = false) :
    exec (.padReleaseDue d) s = .next s :=
  congrArg Host.Outcome.next (if_pos (by rcases idle with h | h | h <;> simp [h]))

theorem exec_padReleaseDue (awake : s.awake = true) (phase : (s.dom d).phase = 4) (off : (s.dom d).state = 2)
    (pads : (s.dom d).pads = true) : exec (.padReleaseDue d) s = .next ((s.modDom d (fun x => { x with pads := false })).edge 19) :=
  congrArg Host.Outcome.next (if_neg (by simp [awake, phase, off, pads]))

theorem exec_domainOn_idle (idle : (s.dom d).phase ≠ 4 ∨ (s.dom d).pads = true) : exec (.domainOn d) s = .next s :=
  congrArg Host.Outcome.next (if_pos (by rcases idle with h | h <;> simp [h]))

/-- The domain reads on. -/
def State.domOn (s : State) (d : Nat) : State :=
  (s.modDom d (fun x => { x with state := 0, phase := 0, wakes := (x.wakes + 1) % 2 ^ 32, pinWait := [] })).edge 17

/-- The island of a domain that reads on starts at the step now permitted (R588, R589). -/
def State.islandStarts (s : State) (d : Nat) : State :=
  match domIsland d with
  | some i => if !s.pwr.pace.moving && s.pwr.pace.point != 0 && !s.pwr.pace.avsFailed then
      s.modPace (fun p => { p with high := p.high ||| BitVec.ofNat 18 (2 ^ i) }) else s
  | none => s

theorem exec_domainOn (awake : s.awake = true) (phase : (s.dom d).phase = 4) (pads : (s.dom d).pads = false) : exec (.domainOn d) s =
    .next ((s.dom d).pinWait.foldl (fun s o => s.complete o 0 0) ((s.domOn d).islandStarts d)) :=
  congrArg Host.Outcome.next (if_neg (by simp [awake, phase, pads]))

theorem State.islandStarts_onlyIn : OnlyIn [.pwr] s (s.islandStarts d) := by
  unfold State.islandStarts
  split
  · exact .ite (onlyIn_iff.mpr (by simp)) (.refl _ s)
  · exact .refl _ s

theorem State.islandStarts_dom (j : Nat) : (s.islandStarts d).dom j = s.dom j := by
  unfold State.islandStarts
  split
  · split <;> rfl
  · rfl

theorem State.domOn_onlyIn : OnlyIn [.pwr, .evt] s ((s.domOn d).islandStarts d) := by
  have on : OnlyIn [.pwr, .evt] s (s.domOn d) := onlyIn_iff.mpr (by simp [State.domOn])
  exact (on.trans State.islandStarts_onlyIn).mono (by decide)

theorem State.domOn_dom : ((s.domOn d).islandStarts d).dom d = { s.dom d with
    state := 0, phase := 0, wakes := ((s.dom d).wakes + 1) % 2 ^ 32, pinWait := [] } := by
  rw [State.islandStarts_dom, State.domOn, State.edge_dom, State.modDom_same]

theorem State.domOn_dom_ne {j : Nat} (hj : j ≠ d) : ((s.domOn d).islandStarts d).dom j = s.dom j := by
  rw [State.islandStarts_dom, State.domOn, State.edge_dom, State.modDom_ne _ _ _ hj]

end Entry

/-- Settles O50: each command is its `exec_` equation; entry's end is `State.reached` and what wants the domain then is unchanged. -/
theorem powerDomainCommandsComplete : Obligations.PowerDomainCommandsComplete := by
  unfold Obligations.PowerDomainCommandsComplete
  refine fun s d awake => ⟨fun target blank ready some' on rests unwanted lowest lower intact => ?_, fun phase unvoted quiet empty => ?_,
    fun phase noWake unwanted high => ?_, fun phase off pads => ?_, fun phase pads alone => ?_, fun o phase pads alone => ?_,
    exec_domainCommit_wanted awake, exec_domainCommit_busy awake, exec_domainCommit_full awake, exec_domainCommit_idle,
    exec_domainEntryComplete_idle, fun phase wakeAfter high early low live => ?_, fun phase some' cuff => ?_, exec_padReleaseDue_idle,
    exec_domainOn_idle, exec_lingerExpiry_idle⟩
  · subst lowest
    refine ⟨⟨_, exec_lingerExpiry awake blank ready some' on rests unwanted lower intact, ?_, fun j hj => ?_⟩, fun r =>
      ⟨_, exec_lingerExpiry_refused awake blank ready some' on rests unwanted lower intact r, by simp [satAdd], fun j hj => ?_,
        onlyIn_iff.mpr (by simp)⟩⟩
    · rw [State.quiesce_dom, State.modDom_same]
    · rw [State.quiesce_dom, State.modDom_ne _ _ _ hj]
    · rw [State.edge_dom, State.modDom_ne _ _ _ hj]
  · exact ⟨_, exec_domainCommit awake phase unvoted quiet empty, State.modDom_same .., fun j hj => State.modDom_ne _ _ _ hj,
      onlyIn_iff.mpr (by simp)⟩
  · refine ⟨_, (exec_domainEntryComplete awake phase).trans (congrArg _ (if_neg (by rw [noWake, State.reached_wanted high, unwanted]; decide))),
      State.reached_dom_same.trans (by rw [← noWake]), fun j hj => State.reached_dom_ne hj, State.reached_onlyIn_high high⟩
  · exact ⟨_, exec_padReleaseDue awake phase off pads, by rw [State.edge_dom, State.modDom_same],
      fun j hj => by rw [State.edge_dom, State.modDom_ne _ _ _ hj], onlyIn_iff.mpr (by simp)⟩
  · have runs := exec_domainOn awake phase pads
    rw [alone] at runs
    exact ⟨_, runs, State.domOn_dom.trans (by rw [← alone]), fun j hj => State.domOn_dom_ne hj, State.domOn_onlyIn⟩
  · have runs := exec_domainOn awake phase pads
    rw [alone] at runs
    have queues (q : QId) : ((s.domOn d).islandStarts d).queue q = s.queue q := by
      rw [State.queue, State.domOn_onlyIn.agree .work (by decide), State.queue]
    exact ⟨_, runs, by rw [List.foldl_cons, List.foldl_nil, State.complete_dom, State.domOn_dom],
      by rw [List.foldl_cons, List.foldl_nil, State.complete_dom, State.domOn_dom], State.completes s _ o 0 0 queues⟩
  · have only := State.reached_onlyIn_high (s := s) high
    have step : (s.reached d).boot.step < 7 := by rwa [show (s.reached d).boot = s.boot from only.agree .boot (by decide)]
    have fences : (domUnits d).all (s.reached d).fenced = false := by
      rw [← live]
      exact congrArg _ (funext fun u => by rw [State.fenced, State.unitFlt_congr (only.agree .flt (by decide)), State.fenced])
    have woken (t : State) : OnlyIn [.pwr] t (t.modDom d (fun x => { x with phase := 4, noWake := false })) := onlyIn_iff.mpr (by simp)
    refine ⟨_, ((exec_domainEntryComplete awake phase).trans (congrArg _ (if_pos (by rw [wakeAfter, Bool.true_or])))).trans (congrArg _
      (State.wake_starts _ (Nat.zero_lt_of_lt high) step (by rw [State.reached_dom_same]) (by rw [State.reached_dom_same]; exact low) fences)),
      ?_, fun j hj => ?_, (only.trans (woken _)).mono (by decide)⟩
    · rw [State.modDom_same, State.reached_dom_same]
    · rw [State.modDom_ne _ _ _ hj, State.reached_dom_ne hj]
  · obtain ⟨wakes, others, state, entries⟩ := State.wake_settled (s := s.reached d) (d := d) (unitWanter (((domUnits d).head?).getD 0))
      (by rw [State.reached_dom_same]; exact Nat.zero_ne_add_one 1)
    have only := State.reached_onlyIn (s := s) (d := d)
    refine ⟨_, exec_domainEntryComplete awake phase, ?_⟩
    split
    · exact ⟨by rw [state, State.reached_dom_same], by rw [entries, State.reached_dom_same],
        fun j hj => (others j hj).trans (State.reached_dom_ne hj), (only.trans wakes).mono (by decide)⟩
    · exact ⟨by rw [State.reached_dom_same], by rw [State.reached_dom_same], fun j hj => State.reached_dom_ne hj, only⟩

end Sys2Proof.Machine
end

