-- ==== Sys2Proof/Proofs/DeviceResets.lean ====
section
/-! PROOFS. Resets and power of the device (R557-R559, R643, R650). -/

namespace Sys2Proof.Machine

/-! ### Resets and power of the device (R557-R559, R643, R650, R654) -/

section DeviceReset
variable {s : State}

theorem State.cleared_zeroized : s.cleared.Zeroized := by
  refine ⟨rfl, rfl, rfl, rfl, rfl, fun e he => ?_, fun e he => absurd he List.not_mem_nil⟩
  obtain ⟨e, -, rfl⟩ := List.mem_map.mp he
  exact ⟨rfl, fun i hi => absurd hi List.not_mem_nil⟩

/-- The device is held in reset: it is cleared, its transmitters are idle and ALERT# is asserted (R557, R559). -/
def State.heldLow (s : State) : State := { s.cleared.emit .electricalIdle with sys.devRst := true }

theorem State.holdReset_held (held : s.sys.devRst = true) : s.holdReset = s := if_pos held

theorem State.holdReset_enters (out : s.sys.devRst = false) : s.holdReset = s.heldLow.alarm := if_neg (by simp [out])

theorem holdReset_effect (on : s.sys.aon = true) (out : s.sys.devRst = false) :
    s.holdReset.sys.devRst = true ∧ s.holdReset.sys.aon = true ∧ s.holdReset.sys.alert = true ∧
    s.holdReset.sys.thermtrip = s.sys.thermtrip ∧ Out.electricalIdle ∈ s.holdReset.out ∧ s.holdReset.Zeroized ∧
    s.holdReset.boot.mram = s.boot.mram ∧ s.holdReset.boot.flash = s.boot.flash ∧ s.holdReset.boot.signer = s.boot.signer ∧
    s.holdReset.pool.ddr = s.pool.ddr ∧ s.holdReset.work.queues = [] ∧ s.holdReset.net.outst = [] ∧ s.holdReset.pool.tier = [] := by
  rw [State.holdReset_enters out]
  have only := s.heldLow.alarm_onlyIn
  have boot : s.heldLow.alarm.boot = s.heldLow.boot := only.agree .boot (by decide)
  have pool : s.heldLow.alarm.pool = s.heldLow.pool := only.agree .pool (by decide)
  have work : s.heldLow.alarm.work = s.heldLow.work := only.agree .work (by decide)
  have net : s.heldLow.alarm.net = s.heldLow.net := only.agree .net (by decide)
  have trust : s.heldLow.alarm.trust = s.heldLow.trust := only.agree .trust (by decide)
  have levels : s.heldLow.alarm.sys.devRst = true ∧ s.heldLow.alarm.sys.aon = s.sys.aon := by
    unfold State.alarm
    split <;> exact ⟨rfl, rfl⟩
  have zero : s.heldLow.Zeroized := State.cleared_zeroized (s := s)
  exact ⟨levels.1, levels.2.trans on, State.alarm_alert, State.alarm_thermtrip, State.alarm_out (List.mem_append_right _ (by simp)),
    zero.congr trust (by rw [State.alarm_host]) (by rw [pool]), by rw [boot]; rfl, by rw [boot]; rfl, by rw [boot]; rfl, by rw [pool]; rfl,
    by rw [work]; rfl, by rw [net]; rfl, by rw [pool]; rfl⟩

theorem exec_holdReset (on : s.sys.aon = true) : ∀ c ∈ [Instr.devRstAssert, .powerGoodDeassert], exec c s = .next s.holdReset := by
  simp only [List.forall_mem_cons, List.not_mem_nil, false_implies, implies_true, and_true]
  exact ⟨congrArg _ (if_pos on), congrArg _ (if_pos on)⟩

theorem exec_power_off (off : s.sys.aon = false) :
    ∀ c ∈ [Instr.devRstAssert, .powerGoodDeassert, .vddAonRemoved], exec c s = .next s := by
  simp only [List.forall_mem_cons, List.not_mem_nil, false_implies, implies_true, and_true]
  exact ⟨congrArg _ (if_neg (by simp [off])), congrArg _ (if_neg (by simp [off])), congrArg _ (if_pos (by simp [off]))⟩

/-- The device is powered and still held in reset. -/
def State.powered (s : State) (a : Nat) : State := { s with sys.aon := true, sys.devRst := true, sys.smbAddr := a }

theorem exec_pgAonAssert (a : Nat) (off : s.sys.aon = false) : exec (.pgAonAssert a) s = .next (s.powered a).alarm :=
  congrArg Host.Outcome.next (if_neg (by simp [off]))

theorem State.alarm_sys : s.alarm.sys = { s.sys with alert := true } := by
  unfold State.alarm
  split
  next on => rw [← on]
  next => rfl

/-- What is volatile is lost. -/
def State.unpowered (s : State) : State := { s.cleared with sys := { aon := false, devRst := true, alert := false }, pool := {} }

theorem State.unpowered_zeroized : s.unpowered.Zeroized := by
  obtain ⟨band, shares, drbg, aliased, usage, links, -⟩ := s.cleared_zeroized
  exact ⟨band, shares, drbg, aliased, usage, links, fun e he => absurd he List.not_mem_nil⟩

theorem exec_vddAonRemoved (on : s.sys.aon = true) :
    exec .vddAonRemoved s = .next (if s.sys.thermtrip then s.unpowered.emit (.thermtrip false) else s.unpowered) :=
  congrArg Host.Outcome.next (if_neg (by simp [on]))

end DeviceReset

/-- Settles O51: a reset is `State.holdReset`, and what is lost is what `State.cleared` leaves out. -/
theorem deviceResetCommandsComplete : Obligations.DeviceResetCommandsComplete := by
  unfold Obligations.DeviceResetCommandsComplete
  refine fun s => ⟨fun on out c hc => ⟨_, exec_holdReset on c hc, holdReset_effect on out⟩,
    fun on held c hc => (exec_holdReset on c hc).trans (congrArg _ (State.holdReset_held held)), fun a off => ?_, fun on => ?_,
    exec_power_off, fun a on => congrArg _ (if_pos on)⟩
  · have powered : OnlyIn [.sys] s (s.powered a) := onlyIn_iff.mpr (by simp [State.powered])
    exact ⟨_, exec_pgAonAssert a off, State.alarm_sys, (powered.trans State.alarm_onlyIn).mono (by decide)⟩
  · refine ⟨_, exec_vddAonRemoved on, ?_⟩
    split
    next trip => exact ⟨rfl, rfl, rfl, rfl, rfl, rfl, rfl, State.unpowered_zeroized.congr rfl rfl rfl,
      fun _ => List.mem_append_right _ (List.mem_singleton.mpr rfl)⟩
    next trip => exact ⟨rfl, rfl, rfl, rfl, rfl, rfl, rfl, State.unpowered_zeroized, fun h => absurd h trip⟩

end Sys2Proof.Machine
end

