-- ==== Sys2Proof/Proofs/ColdStart.lean ====
section
/-! PROOFS. Start-up (R531, R532, R548-R553, R561, R654). -/

namespace Sys2Proof.Machine

/-! ### Changes of the mode, and the rest of `sys` -/

section Modes
variable {s : State}

theorem State.setMode_sys {m : Mode} (other : s.sys.mode ≠ m) (c : Nat) :
    (s.setMode m c).sys = { s.sys with mode := m, cause := c, alert := true } := by
  rw [State.setMode, if_neg (by simpa using other), State.raiseAllPf_sys, State.alarm_sys]

theorem State.quarantine_sys (out : s.sys.mode ≠ .quarantine) (cause : Nat) :
    (s.quarantine cause).sys = { s.sys with mode := .quarantine, cause := cause, alert := true } := by
  have moded : (s.wiped.setMode .quarantine cause).sys = { s.sys with mode := .quarantine, cause := cause, alert := true } :=
    State.setMode_sys (s := s.wiped) out cause
  have told : ((s.wiped.setMode .quarantine cause).noticed cause).sys = (s.wiped.setMode .quarantine cause).sys :=
    State.noticed_onlyIn cause |>.agree .sys (by decide)
  have logged : ((s.wiped.setMode .quarantine cause).noticed cause).internalErrors.sys =
      ((s.wiped.setMode .quarantine cause).noticed cause).alarm.sys := State.internalErrors_alarm.agree .sys (by decide)
  rw [State.quarantine_entered out, logged, State.alarm_sys, told, moded]

theorem State.setMode_devRst (m : Mode) (c : Nat) : (s.setMode m c).sys.devRst = s.sys.devRst := by
  by_cases same : s.sys.mode = m
  · rw [State.setMode, if_pos (by simpa using same)]
  · rw [State.setMode_sys same]

theorem State.quarantine_devRst (cause : Nat) : (s.quarantine cause).sys.devRst = s.sys.devRst := by
  by_cases same : s.sys.mode = .quarantine
  · rw [State.quarantine, if_pos (by simpa using same)]
  · rw [State.quarantine_sys same]

theorem State.senseInput_devRst (i : Nat) (old new : Bool) : (s.senseInput i old new).sys.devRst = s.sys.devRst := by
  have sensed (c : EvtCfg) (hit : Bool) :
      (if c.sense < 2 then s.setLevel i hit else if hit then s.edge i else s).sys.devRst = s.sys.devRst := by
    split
    · simp
    · split <;> simp
  unfold State.senseInput
  extract_lets c hit u
  have same : u.sys.devRst = s.sys.devRst := sensed c hit
  split
  · rw [State.report_gsys, State.quarantine_devRst, same]
  · exact same

end Modes

/-! ### The first steps (R531, R548, R549, R551) -/

section Select
variable {s : State} {b : Board}

theorem startStep1_sys : (s.startStep1 b).sys = s.sys := rfl
theorem startStep1_flash : (s.startStep1 b).boot.flash = s.boot.flash := rfl
theorem startStep1_mram : (s.startStep1 b).boot.mram = { s.boot.mram with
    coldResets := (s.boot.mram.coldResets + 1) % 2 ^ 32, log := s.boot.mram.log.filter (fun e => e.2.state != 1) } := rfl

/-- The results of step 2 are in the registers, and its failures in the start-up log. -/
def State.tried (s : State) (b : Board) (a c : Nat) : State :=
  let s : State := { s with boot.resultA := a, boot.resultB := c }
  if s.firstCopy b then (s.copyFailed c 2).copyFailed a 1 else (s.copyFailed a 1).copyFailed c 2

/-- A copy's failure changes the start-up log and the copy in use. -/
theorem State.copyFailed_eq (code copy : Nat) :
    ∃ l k, s.copyFailed code copy = { s with boot := { s.boot with startLog := l, copy := k } } := by
  unfold State.copyFailed
  split
  · exact ⟨_, _, rfl⟩
  · exact ⟨_, _, rfl⟩

theorem State.tried_eq (a c : Nat) : ∃ l k, s.tried b a c =
    { s with boot := { s.boot with resultA := a, resultB := c, startLog := l, copy := k } } := by
  have twice (t : State) (x y i j : Nat) :
      ∃ l k, (t.copyFailed x i).copyFailed y j = { t with boot := { t.boot with startLog := l, copy := k } } := by
    obtain ⟨l, k, first⟩ := t.copyFailed_eq x i
    obtain ⟨l', k', second⟩ := (t.copyFailed x i).copyFailed_eq y j
    exact ⟨l', k', by rw [second, first]⟩
  unfold State.tried
  dsimp only
  split
  · exact twice { s with boot.resultA := a, boot.resultB := c } ..
  · exact twice { s with boot.resultA := a, boot.resultB := c } ..

variable (cold : s.sys.thermtrip = false) {a c : Nat}
include cold

theorem startUp_blank (fails : (s.startStep1 b).selectCopy b = (a, c, none)) :
    s.startUp b = (((s.startStep1 b).tried b a c).stepDone 2).enterBlank a := by
  have untripped : ¬(s.startStep1 b).sys.thermtrip = true := by simp [startStep1_sys, cold]
  unfold State.startUp
  rw [if_neg untripped, fails]
  rfl

/-- The copy selected is in use, and start-up goes on with it. -/
theorem startUp_copy {copy : Bool} {p : Pattern} (passes : (s.startStep1 b).selectCopy b = (a, c, some (copy, p))) :
    ∃ t : State, s.startUp b = t.startCopy b p ∧ t.sys = s.sys ∧ t.boot.copy = (if copy then 2 else 1) ∧
      t.boot.mram = (s.startStep1 b).boot.mram := by
  have untripped : ¬(s.startStep1 b).sys.thermtrip = true := by simp [startStep1_sys, cold]
  obtain ⟨l, k, tried⟩ := (s.startStep1 b).tried_eq (b := b) a c
  refine ⟨{ (s.startStep1 b).tried b a c with boot.copy := if copy then 2 else 1 }, ?_, ?_, rfl, ?_⟩
  · unfold State.startUp
    rw [if_neg untripped, passes]
    rfl
  · rw [tried]
    rfl
  · rw [tried]

end Select

/-- Blank is entered with its cause; what the boot flow has written stays. -/
theorem State.enterBlank_effect {s : State} (other : s.sys.mode ≠ .blank) (cause : Nat) :
    (s.enterBlank cause).sys = { s.sys with mode := .blank, cause := cause, alert := true } ∧ (s.enterBlank cause).boot = s.boot := by
  have off : OnlyIn [.pwr] s ((List.range 41).foldl (fun s d => if 9 ≤ d then s.domOff d else s) s) :=
    foldl_onlyIn _ (fun s d => .ite (onlyIn_iff.mpr (by simp [State.domOff])) (.refl _ s)) _ s
  have sys : ((List.range 41).foldl (fun s d => if 9 ≤ d then s.domOff d else s) s).sys = s.sys := off.agree .sys (by decide)
  have boot : ((List.range 41).foldl (fun s d => if 9 ≤ d then s.domOff d else s) s).boot = s.boot := off.agree .boot (by decide)
  exact ⟨(State.setMode_sys (by rwa [sys]) cause).trans (by rw [sys]), by rw [State.enterBlank, State.setMode_gboot, boot]⟩

/-! ### Steps 3 to 7 (R551-R557) -/

section Copy
variable {s : State} {b : Board} {p : Pattern}

/-- Step 3 leaves the device's state but for its keys, its island clocks and the start-up log. -/
theorem State.startStep3_effect : (s.startStep3 p).sys = s.sys ∧
    (∃ l, (s.startStep3 p).boot = { s.boot with step := 3, startLog := l }) ∧ (s.startStep3 p).trust.drbgReady = true ∧
    (s.startStep3 p).trust.identityKey = some (Config.identityPrivate Config.seed) ∧
    (s.startStep3 p).trust.aliasKey = some (Config.aliasPrivate Config.seed Config.romDigest p.microDigest p.configDigest) :=
  ⟨rfl, ⟨_, rfl⟩, rfl, rfl, rfl⟩

theorem State.holdOut_onlyIn (fixed : Bool) (r : RetRec) : OnlyIn [.flt, .host, .basket, .pool, .net] s (s.holdOut fixed r) := by
  unfold State.holdOut
  split
  case h_9 => exact .ite (onlyIn_iff.mpr (by simp [State.removal])) (onlyIn_iff.mpr (by simp))
  all_goals exact onlyIn_iff.mpr (by simp)

theorem State.senseInput_onlyIn {i : Nat} {old new : Bool} (plain : (s.boot.cfg.evtIn.getD i {}).tamper = false) :
    OnlyIn [.evt] s (s.senseInput i old new) := by
  rw [State.senseInput_source plain]
  exact .ite (onlyIn_iff.mpr (by simp)) (.ite (State.edge_onlyIn _ _) (.refl _ s))

/-- The event inputs of a configuration without a tamper input are sensed. -/
theorem State.senseInputs_onlyIn (pins : BitVec 8) (n : Nat) (l : List Nat) : ∀ s : State,
    (∀ i, (s.boot.cfg.evtIn.getD i {}).tamper = false) →
    OnlyIn [.evt] s (l.foldl (fun s i => if i < n then s.senseInput i (pins.getLsbD i) (pins.getLsbD i) else s) s) := by
  induction l with
  | nil => exact fun s _ => .refl _ s
  | cons i l ih =>
    intro s plain
    have first : OnlyIn [.evt] s (if i < n then s.senseInput i (pins.getLsbD i) (pins.getLsbD i) else s) :=
      .ite (State.senseInput_onlyIn (plain i)) (.refl _ s)
    have boot : (if i < n then s.senseInput i (pins.getLsbD i) (pins.getLsbD i) else s).boot = s.boot := first.agree .boot (by decide)
    exact first.comp (ih _ (by rw [boot]; exact plain))

theorem getD_plain (plain : ∀ e ∈ p.evtIn, e.tamper = false) (i : Nat) : (p.evtIn.getD i {}).tamper = false := by
  rw [List.getD_eq_getElem?_getD]
  cases found : p.evtIn[i]? with
  | none => rfl
  | some e => exact plain e (List.mem_of_getElem? found)

/-- The configuration is in force, and the levels of the event inputs. -/
def State.configured (s : State) (b : Board) (p : Pattern) : State := { s with
  boot.cfg := { p with cuffModes := s.boot.cfg.cuffModes, links := s.boot.cfg.links }
  evt.evtLive := true
  evt.evtPins := (List.range 8).map (fun i => (i, ({ pin := b.evtPins.getLsbD i, filtered := b.evtPins.getLsbD i } : EvtPin))) }

/-- Recorded elements are held out, and the event inputs sensed. -/
def State.sensed (s : State) (b : Board) (p : Pattern) : State :=
  let s := s.boot.mram.log.foldl (fun s e => s.holdOut (b.hpprOk.contains e.1) e.2) s
  let s := (List.range 8).foldl (fun s i => s.modSource i (fun x => { x with enabled := (p.evtIn.getD i {}).enable })) s
  (List.range 8).foldl (fun s i => if i < p.evtIn.length then s.senseInput i (b.evtPins.getLsbD i) (b.evtPins.getLsbD i) else s) s

theorem State.sensed_onlyIn (plain : ∀ i, (s.boot.cfg.evtIn.getD i {}).tamper = false) :
    OnlyIn [.flt, .host, .basket, .pool, .net, .evt] s (s.sensed b p) := by
  have held := foldl_onlyIn (fun (s : State) (e : Nat × RetRec) => s.holdOut (b.hpprOk.contains e.1) e.2)
    (fun s e => s.holdOut_onlyIn _ e.2) s.boot.mram.log s
  have enabled (t : State) : OnlyIn [.evt] t ((List.range 8).foldl (fun s i =>
      s.modSource i (fun x => { x with enabled := (p.evtIn.getD i {}).enable })) t) :=
    foldl_onlyIn _ (fun _ _ => onlyIn_iff.mpr (by simp)) _ t
  have before := held.trans (enabled _)
  have boot := before.agree .boot (by decide)
  exact (before.trans (State.senseInputs_onlyIn b.evtPins p.evtIn.length (List.range 8) _ (by rw [boot]; exact plain))).mono (by decide)

/-- Step 4 of a configuration without a tamper input (R492, R530). -/
theorem State.startStep4_effect (loading : s.sys.mode = .loading) (plain : ∀ e ∈ p.evtIn, e.tamper = false) :
    (s.startStep4 b p).sys = s.sys ∧ (s.startStep4 b p).trust = s.trust ∧ ∃ l, (s.startStep4 b p).boot = { s.boot with
      cfg := { p with cuffModes := s.boot.cfg.cuffModes, links := s.boot.cfg.links }, step := 4, startLog := l } := by
  have only := (s.configured b p).sensed_onlyIn (b := b) (p := p) (getD_plain plain)
  have sys : ((s.configured b p).sensed b p).sys = s.sys := only.agree .sys (by decide)
  have trust : ((s.configured b p).sensed b p).trust = s.trust := only.agree .trust (by decide)
  have boot : ((s.configured b p).sensed b p).boot = (s.configured b p).boot := only.agree .boot (by decide)
  have step : s.startStep4 b p = ((s.configured b p).sensed b p).stepDone 4 :=
    have mode : ((s.configured b p).sensed b p).sys.mode ≠ .quarantine := by rw [sys, loading]; decide
    if_neg fun entered => mode (eq_of_beq entered)
  rw [step]
  exact ⟨sys, trust, _, by rw [State.stepDone, State.startRecord]; simp only [boot]; rfl⟩

theorem State.startStep4_devRst : (s.startStep4 b p).sys.devRst = s.sys.devRst := by
  have held (t : State) (l : Tbl RetRec) : (l.foldl (fun s e => s.holdOut (b.hpprOk.contains e.1) e.2) t).sys.devRst = t.sys.devRst :=
    foldl_same (fun s : State => s.sys.devRst) _ l t fun s e => by rw [(s.holdOut_onlyIn _ e.2).agree .sys (by decide)]
  have enabled (t : State) (l : List Nat) : (l.foldl (fun s i =>
      s.modSource i (fun x => { x with enabled := (p.evtIn.getD i {}).enable })) t).sys.devRst = t.sys.devRst :=
    foldl_same (fun s : State => s.sys.devRst) _ l t fun s e => by simp
  have senses (t : State) (l : List Nat) : (l.foldl (fun s i =>
      if i < p.evtIn.length then s.senseInput i (b.evtPins.getLsbD i) (b.evtPins.getLsbD i) else s) t).sys.devRst = t.sys.devRst :=
    foldl_same (fun s : State => s.sys.devRst) _ l t fun s i => by
      split
      · exact State.senseInput_devRst ..
      · rfl
  have sensed : ((s.configured b p).sensed b p).sys.devRst = s.sys.devRst := by
    rw [State.sensed, senses, enabled, held]
    rfl
  unfold State.startStep4
  dsimp only
  split
  · exact sensed
  · exact sensed

theorem State.startStep5_trains (away : s.sys.mode ≠ .quarantine) (ddr : b.ddrFail = []) (hbm : b.hbmFail = []) :
    s.startStep5 b = s.stepDone 5 := by
  rw [State.startStep5, ddr, hbm]
  exact if_neg (fun entered => away (eq_of_beq entered))

/-- A stack that does not train, where no spare takes its place, leads to Quarantine (R555). -/
theorem State.startStep5_fails (loading : s.sys.mode = .loading) {q pc : Nat} (ddr : b.ddrFail = []) (hbm : b.hbmFail = [(q, pc)])
    (lost : pc = 32 ∨ Config.hbmSpares q = 0) :
    s.startStep5 b = ((s.startRecord 0x070E 5 (q * 32 + pc)).report (mkFault 5 .stackController 0x070E (stackUnit q) pc none)).quarantine
      0x0705 := by
  have unspared : s.hbmUntrained q pc = ((s.startRecord 0x070E 5 (q * 32 + pc)).report
      (mkFault 5 .stackController 0x070E (stackUnit q) pc none)).quarantine 0x0705 :=
    if_neg (by rcases lost with h | h <;> simp [h])
  rw [State.startStep5, ddr, hbm]
  simp only [List.filter_nil, List.foldl_nil, List.foldl_cons, unspared]
  exact if_pos (by simp)

/-- Step 7 keeps the keys and ends in the boot flow's last state. -/
theorem State.startStep7_boot : (s.startStep7 p).boot.step = 7 ∧ (s.startStep7 p).boot.copy = s.boot.copy ∧
    (s.startStep7 p).boot.flash = s.boot.flash ∧ (s.startStep7 p).boot.mram.patternFloor = max s.boot.mram.patternFloor p.floor ∧
    (s.startStep7 p).boot.mram.ucodeFloor = max s.boot.mram.ucodeFloor (p.ucode / 65536) := by
  unfold State.startStep7
  simp [foldl_boot, State.foldl_modSource_gboot, apply_ite State.boot, State.raiseFloors, State.stepDone, State.startRecord]

/-- The layout of the Pattern is in force. -/
def State.laidOut (s : State) (p : Pattern) : State := { s with
  boot.cfg.cuffModes := p.cuffModes
  boot.cfg.links := p.links
  boot.mram.layout := some (p.cuffModes, p.links.map (fun x => (x.rate, x.width, x.clocking))) }

/-- Step 7 before the mode changes. -/
def State.readied (s : State) (p : Pattern) : State :=
  let s := ((List.range 16).filter s.linkExists).foldl (fun s l =>
    (List.range 16).foldl (fun s i => s.placeFinger ⟨l, 0, i⟩) (s.resetSriov l)) s
  let s := s.unusedDoms.foldl State.domOff s
  let s := (List.range 72).foldl (fun s i => s.modSource (i + 8) (fun x => { x with enabled := true })) s
  let s := (List.range 8).foldl (fun s l =>
    if (p.peers.getD l none).isSome && (s.blink l).state == .absent then
      (s.modBlink l (fun x => { x with active := ~~~ x.retired })).setBState l .training
    else s) s
  (s.raiseFloors p).stepDone 7

theorem State.readied_onlyIn : OnlyIn [.host, .work, .pwr, .evt, .basket, .boot] s (s.readied p) := by
  have placed (t : State) (l : Nat) : OnlyIn [.host, .work] t
      ((List.range 16).foldl (fun s i => s.placeFinger ⟨l, 0, i⟩) (t.resetSriov l)) :=
    ((State.resetSriov_onlyIn t l).trans (foldl_onlyIn _ (fun s i => (State.modFinger_onlyIn ..)) _ _)).mono (by decide)
  have off (t : State) : OnlyIn [.pwr] t (t.unusedDoms.foldl State.domOff t) :=
    foldl_onlyIn _ (fun _ _ => onlyIn_iff.mpr (by simp [State.domOff])) _ t
  have enabled (t : State) : OnlyIn [.evt] t ((List.range 72).foldl (fun s i =>
      s.modSource (i + 8) (fun x => { x with enabled := true })) t) := foldl_onlyIn _ (fun _ _ => onlyIn_iff.mpr (by simp)) _ t
  have trains (t : State) : OnlyIn [.basket, .evt] t ((List.range 8).foldl (fun s l =>
      if (p.peers.getD l none).isSome && (s.blink l).state == .absent then
        (s.modBlink l (fun x => { x with active := ~~~ x.retired })).setBState l .training
      else s) t) :=
    foldl_onlyIn _ (fun s l => .ite (((s.modBlink_onlyIn l _).trans (State.setBState_onlyIn _ l _)).mono (by decide)) (.refl _ s)) _ t
  have done (t : State) : OnlyIn [.boot] t ((t.raiseFloors p).stepDone 7) :=
    onlyIn_iff.mpr (by simp [State.raiseFloors, State.stepDone, State.startRecord])
  exact (((((foldl_onlyIn _ placed _ s).trans (off _)).trans (enabled _)).trans (trains _)).trans (done _)).mono (by decide)

theorem State.startStep7_eq : s.startStep7 p =
    ((s.laidOut p).readied p).setMode (if ((s.laidOut p).readied p).anyRetired then .degraded else .service) 0 := rfl

theorem State.startStep7_keeps : (s.startStep7 p).trust = s.trust ∧ (s.startStep7 p).sys.devRst = s.sys.devRst := by
  have only := (s.laidOut p).readied_onlyIn (p := p)
  have sys : ((s.laidOut p).readied p).sys = s.sys := only.agree .sys (by decide)
  have trust : ((s.laidOut p).readied p).trust = s.trust := only.agree .trust (by decide)
  rw [State.startStep7_eq]
  have moded := ((s.laidOut p).readied p).setMode_onlyIn (if ((s.laidOut p).readied p).anyRetired then .degraded else .service) 0
  have kept : (((s.laidOut p).readied p).setMode (if ((s.laidOut p).readied p).anyRetired then .degraded else .service) 0).trust =
      ((s.laidOut p).readied p).trust := moded.agree .trust (by decide)
  refine ⟨kept.trans trust, ?_⟩
  rw [State.setMode_devRst, sys]

/-! ### Start-up with a copy -/

/-- What steps 3 and 4 leave for step 5. -/
structure Prepared (s t : State) (p : Pattern) : Prop where
  sys : t.sys = s.sys
  drbg : t.trust.drbgReady = true
  identity : t.trust.identityKey = some (Config.identityPrivate Config.seed)
  aliased : t.trust.aliasKey = some (Config.aliasPrivate Config.seed Config.romDigest p.microDigest p.configDigest)
  copy : t.boot.copy = s.boot.copy
  flash : t.boot.flash = s.boot.flash
  mram : t.boot.mram = s.boot.mram

section StartCopy
variable (loading : s.sys.mode = .loading) (plain : ∀ e ∈ p.evtIn, e.tamper = false)
include loading plain

theorem startStep4_prepared : Prepared s (((s.stepDone 2).startStep3 p).startStep4 b p) p := by
  obtain ⟨sys3, ⟨log3, boot3⟩, drbg, identity, aliased⟩ := (s.stepDone 2).startStep3_effect (p := p)
  obtain ⟨sys4, trust4, log4, boot4⟩ := ((s.stepDone 2).startStep3 p).startStep4_effect (b := b) (by rw [sys3]; exact loading) plain
  exact ⟨sys4.trans sys3, by rw [trust4, drbg], by rw [trust4, identity], by rw [trust4, aliased], by rw [boot4, boot3]; rfl,
    by rw [boot4, boot3]; rfl, by rw [boot4, boot3]; rfl⟩

theorem startCopy_trains : s.startCopy b p = (let t := (((s.stepDone 2).startStep3 p).startStep4 b p).startStep5 b
    if t.sys.mode = .quarantine then t else (t.stepDone 6).startStep7 p) := by
  have prepared := startStep4_prepared (b := b) loading plain
  have mode : (((s.stepDone 2).startStep3 p).startStep4 b p).sys.mode ≠ .quarantine := by rw [prepared.sys, loading]; decide
  refine (if_neg fun entered => mode (eq_of_beq entered)).trans ?_
  simp only [beq_iff_eq]

theorem startCopy_serves (ddr : b.ddrFail = []) (hbm : b.hbmFail = []) :
    s.startCopy b p = (((((s.stepDone 2).startStep3 p).startStep4 b p).stepDone 5).stepDone 6).startStep7 p := by
  have prepared := startStep4_prepared (b := b) loading plain
  have mode : (((s.stepDone 2).startStep3 p).startStep4 b p).sys.mode = .loading := by rw [prepared.sys, loading]
  rw [startCopy_trains loading plain, State.startStep5_trains (by rw [mode]; decide) ddr hbm]
  exact if_neg (by rw [show ((((s.stepDone 2).startStep3 p).startStep4 b p).stepDone 5).sys.mode = .loading from mode]; decide)

theorem startCopy_effect (ddr : b.ddrFail = []) (hbm : b.hbmFail = []) :
    ((s.startCopy b p).sys.mode = .service ∨ (s.startCopy b p).sys.mode = .degraded) ∧ (s.startCopy b p).boot.step = 7 ∧
    (s.startCopy b p).boot.copy = s.boot.copy ∧ (s.startCopy b p).trust.drbgReady = true ∧
    (s.startCopy b p).trust.identityKey = some (Config.identityPrivate Config.seed) ∧
    (s.startCopy b p).trust.aliasKey = some (Config.aliasPrivate Config.seed Config.romDigest p.microDigest p.configDigest) ∧
    (s.startCopy b p).boot.mram.patternFloor = max s.boot.mram.patternFloor p.floor ∧
    (s.startCopy b p).boot.mram.ucodeFloor = max s.boot.mram.ucodeFloor (p.ucode / 65536) := by
  have prepared := startStep4_prepared (b := b) loading plain
  rw [startCopy_serves loading plain ddr hbm]
  generalize ((s.stepDone 2).startStep3 p).startStep4 b p = t at prepared
  obtain ⟨trust, -⟩ := ((t.stepDone 5).stepDone 6).startStep7_keeps (p := p)
  obtain ⟨step, copy, -, pattern, ucode⟩ := ((t.stepDone 5).stepDone 6).startStep7_boot (p := p)
  have trust' : (((t.stepDone 5).stepDone 6).startStep7 p).trust = t.trust := trust
  have mram : ((t.stepDone 5).stepDone 6).boot.mram = s.boot.mram := prepared.mram
  exact ⟨State.startStep7_mode _ p, step, copy.trans prepared.copy, by rw [trust', prepared.drbg], by rw [trust', prepared.identity],
    by rw [trust', prepared.aliased], by rw [pattern, mram], by rw [ucode, mram]⟩

theorem startCopy_untrained {q pc : Nat} (ddr : b.ddrFail = []) (hbm : b.hbmFail = [(q, pc)]) (lost : pc = 32 ∨ Config.hbmSpares q = 0) :
    (s.startCopy b p).sys.mode = .quarantine ∧ (s.startCopy b p).sys.cause = 0x0705 ∧ (s.startCopy b p).Zeroized := by
  have prepared := startStep4_prepared (b := b) loading plain
  have mode : (((s.stepDone 2).startStep3 p).startStep4 b p).sys.mode = .loading := by rw [prepared.sys, loading]
  rw [startCopy_trains loading plain, State.startStep5_fails mode ddr hbm lost]
  generalize ((s.stepDone 2).startStep3 p).startStep4 b p = t at mode
  have q' := State.quarantine_effect (s := (t.startRecord 0x070E 5 (q * 32 + pc)).report
    (mkFault 5 .stackController 0x070E (stackUnit q) pc none)) (by
      rw [State.report_gsys, show (t.startRecord 0x070E 5 (q * 32 + pc)).sys.mode = .loading from mode]; decide) 0x0705
  dsimp only
  rw [if_pos (State.quarantine_mode ..)]
  exact ⟨State.quarantine_mode .., q'.cause, q'.zero⟩

end StartCopy

theorem startCopy_devRst (ddr : b.ddrFail = []) (hbm : b.hbmFail = []) : (s.startCopy b p).sys.devRst = s.sys.devRst := by
  have step4 : (((s.stepDone 2).startStep3 p).startStep4 b p).sys.devRst = s.sys.devRst := State.startStep4_devRst
  unfold State.startCopy
  dsimp only
  split
  · exact step4
  next away =>
    rw [State.startStep5_trains (fun same => away (by rw [same]; rfl)) ddr hbm]
    split
    · exact step4
    · exact State.startStep7_keeps.2.trans step4
end Copy

/-! ### Cold reset -/

section ColdReset
variable {s : State} {b : Board}

/-- The device as start-up finds it. -/
abbrev State.released (s : State) (b : Board) : State := { s.cleared with sys.devRst := false, boot.board := b }

theorem exec_coldReset_idle (idle : s.sys.aon = false ∨ s.sys.devRst = false) : exec (.coldReset b) s = .next s :=
  congrArg Host.Outcome.next (if_neg (by rcases idle with h | h <;> simp [h]))

theorem exec_coldReset (on : s.sys.aon = true) (held : s.sys.devRst = true) : exec (.coldReset b) s = .next ((s.released b).startUp b) :=
  congrArg Host.Outcome.next (if_pos (by simp [on, held]))

theorem startUp_tripped (trip : s.sys.thermtrip = true) (loading : s.sys.mode = .loading) (out : s.sys.devRst = false) :
    (s.startUp b).sys.mode = .quarantine ∧ (s.startUp b).sys.cause = 0x0706 ∧ (s.startUp b).sys.devRst = false ∧
      (s.startUp b).Zeroized := by
  have away : (s.startStep1 b).sys.mode ≠ .quarantine := by rw [startStep1_sys, loading]; decide
  have enters : s.startUp b = (s.startStep1 b).quarantine 0x0706 := if_pos (by rw [startStep1_sys, trip])
  have q := State.quarantine_effect away 0x0706
  rw [enters]
  exact ⟨State.quarantine_mode .., q.cause, by rw [State.quarantine_sys away]; exact out, q.zero⟩

/-- No copy can be read: each fails its first check. -/
theorem selectCopy_unreadable (a : b.flashA = false) (c : b.flashB = false) : s.selectCopy b = (0x070F, 0x070F, none) := by
  have readA : s.checkHeader b false = 0x070F := if_pos (by simp [a])
  have readB : s.checkHeader b true = 0x070F := if_pos (by simp [c])
  rw [State.selectCopy, readA, readB]
  rfl

theorem startUp_blank_effect {a c : Nat} (cold : s.sys.thermtrip = false) (loading : s.sys.mode = .loading)
    (fails : (s.startStep1 b).selectCopy b = (a, c, none)) :
    (s.startUp b).sys = { s.sys with mode := .blank, cause := a, alert := true } ∧
      ∃ l k, (s.startUp b).boot = { (s.startStep1 b).boot with resultA := a, resultB := c, step := 2, startLog := l, copy := k } := by
  obtain ⟨l, k, tried⟩ := (s.startStep1 b).tried_eq (b := b) a c
  have sys : (((s.startStep1 b).tried b a c).stepDone 2).sys = s.sys := by rw [tried]; rfl
  obtain ⟨blank, boot⟩ := State.enterBlank_effect (s := ((s.startStep1 b).tried b a c).stepDone 2) (by rw [sys, loading]; decide) a
  rw [startUp_blank cold fails]
  exact ⟨blank.trans (by rw [sys]), _, _, boot.trans (by rw [tried]; rfl)⟩

theorem startUp_devRst (cold : s.sys.thermtrip = false) (loading : s.sys.mode = .loading) (ddr : b.ddrFail = []) (hbm : b.hbmFail = []) :
    (s.startUp b).sys.devRst = s.sys.devRst := by
  rcases sel : (s.startStep1 b).selectCopy b with ⟨a, c, _ | ⟨copy, p⟩⟩
  · rw [(startUp_blank_effect cold loading sel).1]
  · obtain ⟨t, goes, sys, -⟩ := startUp_copy cold sel
    rw [goes, startCopy_devRst ddr hbm, sys]

theorem Kept.StartEnds.flash {k : Kept} {t : State} (h : k.StartEnds t) : t.boot.flash = k.flash := by
  cases h with
  | inForce mode kept => exact congrArg Kept.flash kept
  | notInForce mode kept => exact congrArg Kept.flash kept

end ColdReset

/-- Settles O52: start-up ends as the selection of step 2 says, and each step's effect is a lemma of its own. -/
theorem coldResetCompletes : Obligations.ColdResetCompletes := by
  unfold Obligations.ColdResetCompletes
  refine ⟨fun s b on held => ⟨fun trip => ?_, fun cold a c => ?_, fun cold ddr hbm => ?_, fun q pc cold ddr hbm lost => ?_⟩,
    fun s b => exec_coldReset_idle⟩
  · exact ⟨_, exec_coldReset on held, startUp_tripped (s := s.released b) trip rfl rfl⟩
  · obtain ⟨sys, l, k, boot⟩ := startUp_blank_effect (s := s.released b) cold rfl (selectCopy_unreadable a c)
    refine ⟨_, exec_coldReset on held, by rw [sys], by rw [sys], by rw [sys], by rw [boot], by rw [boot], by rw [boot],
      by rw [boot]; rfl, fun e he => ?_, by rw [boot]; rfl⟩
    rw [boot] at he
    simpa using (List.mem_filter.mp he).2
  · refine ⟨_, exec_coldReset on held, (startUp_devRst (s := s.released b) cold rfl ddr hbm).trans rfl,
      (State.startUp_ends (s := s.released b) rfl b).flash, ?_⟩
    rcases sel : ((s.released b).startStep1 b).selectCopy b with ⟨a, c, _ | ⟨copy, p⟩⟩
    · obtain ⟨sys, l, k, boot⟩ := startUp_blank_effect (s := s.released b) cold rfl sel
      exact ⟨by rw [sys], by rw [boot], by rw [boot]; rfl⟩
    · intro plain
      obtain ⟨t, goes, sys, uses, mram⟩ := startUp_copy (s := s.released b) cold sel
      have effect := startCopy_effect (s := t) (by rw [sys]; rfl) plain ddr hbm
      rw [uses, mram] at effect
      rw [goes]
      exact effect
  · refine ⟨_, exec_coldReset on held, ?_⟩
    rcases sel : ((s.released b).startStep1 b).selectCopy b with ⟨a, c, _ | ⟨copy, p⟩⟩
    · obtain ⟨sys, l, k, boot⟩ := startUp_blank_effect (s := s.released b) cold rfl sel
      exact ⟨by rw [sys], by rw [boot]⟩
    · intro plain
      obtain ⟨t, goes, sys, -⟩ := startUp_copy (s := s.released b) cold sel
      rw [goes]
      exact startCopy_untrained (by rw [sys]; rfl) plain ddr hbm lost

end Sys2Proof.Machine
end

