-- ==== Sys2Proof/Proofs/UsageLedger.lean ====
section
/-! PROOFS. The usage ledger (R381, R382, R602-R621). -/

namespace Sys2Proof.Machine

/-! ### The ledger's minutes (R604-R606, R618) -/

section Minutes
variable {s : State}

/-- Records and signatures leave the minute number, what MRAM holds of it, and the flash. -/
structure State.LedgerKept (s t : State) : Prop where
  only : OnlyIn [.boot, .usg] s t
  seq : t.usg.seq = s.usg.seq
  failed : t.usg.seqFailed = s.usg.seqFailed
  next : t.boot.mram.nextSeq = s.boot.mram.nextSeq
  flash : t.boot.flash = s.boot.flash

theorem State.LedgerKept.refl (s : State) : s.LedgerKept s := ⟨.refl _ s, rfl, rfl, rfl, rfl⟩

theorem State.LedgerKept.trans {s t u : State} (h : s.LedgerKept t) (k : t.LedgerKept u) : s.LedgerKept u :=
  ⟨h.only.comp k.only, k.seq.trans h.seq, k.failed.trans h.failed, k.next.trans h.next, k.flash.trans h.flash⟩

theorem State.LedgerKept.foldl {α : Type} (g : State → α → State) (h : ∀ (s : State) x, s.LedgerKept (g s x)) (l : List α) :
    ∀ s : State, s.LedgerKept (l.foldl g s) := by
  induction l with
  | nil => exact .refl
  | cons x l ih => exact fun s => (h s x).trans (ih _)

theorem State.signBatch_keeps (b : Batch) : s.LedgerKept (s.signBatch b).2 := by
  have only := s.signBatch_onlyIn b
  unfold State.signBatch at only ⊢
  split
  · exact .refl s
  · dsimp only at only ⊢
    split <;> exact ⟨onlyIn_iff.mpr (by simp), rfl, rfl, rfl, rfl⟩

theorem State.signAll_keeps : s.LedgerKept s.signAll := by
  refine State.LedgerKept.foldl _ (fun v (b, i) => ?_) _ s
  dsimp only
  split
  · exact (State.signBatch_keeps b).trans ⟨onlyIn_iff.mpr (by simp), rfl, rfl, rfl, rfl⟩
  · exact .refl v

theorem State.trimRing_usg : OnlyIn [.usg] s s.trimRing := by
  have kept : OnlyIn [.usg] s { s with usg.batches := (keepBatches ringSize s.usg.batches.reverse).1.reverse } :=
    onlyIn_iff.mpr (by simp)
  exact kept.comp (foldl_onlyIn _ (fun v b => onlyIn_iff.mpr (by simp)) _ _)

theorem State.trimRing_seq : s.trimRing.usg.seq = s.usg.seq ∧ s.trimRing.usg.seqFailed = s.usg.seqFailed :=
  ⟨foldl_same (fun v : State => v.usg.seq) _ _ _ fun _ _ => rfl, foldl_same (fun v : State => v.usg.seqFailed) _ _ _ fun _ _ => rfl⟩

theorem State.trimRing_keeps : s.LedgerKept s.trimRing where
  only := s.trimRing_onlyIn
  seq := State.trimRing_seq.1
  failed := State.trimRing_seq.2
  next := by rw [State.trimRing_usg.agree .boot (by decide)]
  flash := by rw [State.trimRing_usg.agree .boot (by decide)]

/-- The slices close the minute. -/
def State.chimed (s : State) : State := (List.range 4).foldl (fun s q => s.edge (72 + q)) s

/-- The record of every tenancy under way is formed. -/
def State.recorded (s : State) : State :=
  ((s.usg.usage.filter (fun e => e.2.live)).map Prod.fst).foldl (fun s g => s.addRecord g false) s

/-- The minute number rises. -/
def State.nextMinute (s : State) : State := { s with usg.seq := s.usg.seq + 1 }

theorem State.chimed_onlyIn : OnlyIn [.evt] s s.chimed := foldl_onlyIn _ (fun s _ => s.edge_onlyIn _) _ s

theorem State.chimed_usg : s.chimed.usg = s.usg := State.chimed_onlyIn.agree .usg (by decide)

theorem State.recorded_usg : OnlyIn [.usg] s s.recorded :=
  foldl_onlyIn _ (fun s g => onlyIn_iff.mpr (by simp [State.addRecord])) _ s

theorem State.recorded_seq : s.recorded.usg.seq = s.usg.seq ∧ s.recorded.usg.seqFailed = s.usg.seqFailed :=
  ⟨foldl_same (fun v : State => v.usg.seq) _ _ _ fun _ _ => rfl, foldl_same (fun v : State => v.usg.seqFailed) _ _ _ fun _ _ => rfl⟩

theorem State.nextMinute_seq : s.nextMinute.usg.seq = s.usg.seq + 1 := rfl
theorem State.nextMinute_failed : s.nextMinute.usg.seqFailed = s.usg.seqFailed := rfl
theorem State.nextMinute_batches : s.nextMinute.usg.batches = s.usg.batches := rfl
theorem State.nextMinute_onlyIn : OnlyIn [.usg] s s.nextMinute := onlyIn_iff.mpr (by simp [State.nextMinute])

/-- A minute's number has gone to MRAM, or could not, and its records are formed. -/
def State.minuteOn (s : State) (ok : Bool) : State := (s.chimed.writeSeq (s.usg.seq + 1) ok).recorded.nextMinute

section Serves
variable (serves : s.serves = true)
include serves

theorem exec_minuteBoundary (ok : Bool) :
    exec (.minuteBoundary ok) s = .next (if ok then (s.minuteOn ok).signAll else s.minuteOn ok).trimRing := by
  refine congrArg Host.Outcome.next ((if_neg (by simp [serves])).trans ?_)
  rw [State.minuteOn, ← State.chimed_usg]
  rfl

theorem exec_minuteBoundary_saved : exec (.minuteBoundary true) s = .next (s.minuteOn true).signAll.trimRing :=
  (exec_minuteBoundary serves true).trans (by rw [if_pos rfl])

theorem exec_minuteBoundary_unsaved : exec (.minuteBoundary false) s = .next (s.minuteOn false).trimRing :=
  (exec_minuteBoundary serves false).trans (by rw [if_neg Bool.false_ne_true])

theorem exec_mramSeqRetry_ok (failed : s.usg.seqFailed = true) :
    exec (.mramSeqRetry true) s = .next ((s.writeSeq s.usg.seq true).signAll).trimRing :=
  congrArg Host.Outcome.next ((if_neg (by simp [serves, failed])).trans (if_pos rfl))

theorem exec_mramSeqRetry_fails (failed : s.usg.seqFailed = true) :
    exec (.mramSeqRetry false) s = .next (s.writeSeq s.usg.seq false) :=
  congrArg Host.Outcome.next ((if_neg (by simp [serves, failed])).trans (if_neg Bool.false_ne_true))

end Serves

theorem exec_minutes_idle (idle : s.serves = false) (ok : Bool) :
    exec (.minuteBoundary ok) s = .next s ∧ exec (.mramSeqRetry ok) s = .next s ∧ exec .tierOccupancySample s = .next s :=
  ⟨congrArg Host.Outcome.next (if_pos (by simp [idle])), congrArg Host.Outcome.next (if_pos (by simp [idle])),
    congrArg Host.Outcome.next (if_pos (by simp [idle]))⟩

/-- MRAM holds the next minute number. -/
theorem State.writeSeq_ok (n : Nat) : OnlyIn [.boot, .usg] s (s.writeSeq n true) ∧ (s.writeSeq n true).usg.seq = s.usg.seq ∧
    (s.writeSeq n true).usg.seqFailed = false ∧ (s.writeSeq n true).boot.mram.nextSeq = max s.boot.mram.nextSeq n ∧
    (s.writeSeq n true).boot.flash = s.boot.flash :=
  ⟨s.writeSeq_ok_onlyIn n, rfl, rfl, rfl, rfl⟩

/-- A write of the minute number that failed is reported. -/
theorem State.writeSeq_fails (n : Nat) : OnlyIn [.net, .usg] s (s.writeSeq n false) ∧ (s.writeSeq n false).usg.seq = s.usg.seq ∧
    (s.writeSeq n false).usg = { s.usg with seqFailed := true } ∧
    (s.writeSeq n false).net.reports = s.net.reports ++ [mkFault 12 .mramFailed 0x004B crownUnit 0 none] := by
  have failed : s.writeSeq n false = State.report { s with usg.seqFailed := true } (mkFault 12 .mramFailed 0x004B crownUnit 0 none) := rfl
  rw [failed]
  exact ⟨onlyIn_iff.mpr (by simp), by simp, by simp, by simp⟩

theorem minuteBoundary_saved (serves : s.serves = true) : ∃ t, exec (.minuteBoundary true) s = .next t ∧ t.usg.seq = s.usg.seq + 1 ∧
    t.boot.mram.nextSeq = max s.boot.mram.nextSeq (s.usg.seq + 1) ∧ t.usg.seqFailed = false ∧ t.boot.flash = s.boot.flash ∧
    OnlyIn [.evt, .boot, .usg] s t := by
  obtain ⟨only, seq, failed, next, flash⟩ := s.chimed.writeSeq_ok (s.usg.seq + 1)
  have recorded := (s.chimed.writeSeq (s.usg.seq + 1) true).recorded_usg
  have counted := (s.chimed.writeSeq (s.usg.seq + 1) true).recorded.nextMinute_onlyIn
  have kept := State.signAll_keeps (s := s.minuteOn true) |>.trans State.trimRing_keeps
  have boot : s.chimed.boot = s.boot := State.chimed_onlyIn.agree .boot (by decide)
  have bootOn : (s.minuteOn true).boot = (s.chimed.writeSeq (s.usg.seq + 1) true).boot := (recorded.trans counted).agree .boot (by decide)
  have seqOn : (s.minuteOn true).usg.seq = s.usg.seq + 1 := by
    rw [State.minuteOn, State.nextMinute_seq, State.recorded_seq.1, seq, State.chimed_usg]
  have failedOn : (s.minuteOn true).usg.seqFailed = false := by
    rw [State.minuteOn, State.nextMinute_failed, State.recorded_seq.2, failed]
  exact ⟨_, exec_minuteBoundary_saved serves, kept.seq.trans seqOn, by rw [kept.next, bootOn, next, boot], kept.failed.trans failedOn,
    by rw [kept.flash, bootOn, flash, boot],
    ((((State.chimed_onlyIn.trans only).trans recorded).trans counted).trans kept.only).mono (by decide)⟩

theorem minuteBoundary_unsaved (serves : s.serves = true) : ∃ t, exec (.minuteBoundary false) s = .next t ∧ t.usg.seq = s.usg.seq + 1 ∧
    t.boot = s.boot ∧ t.usg.seqFailed = true ∧ mkFault 12 .mramFailed 0x004B crownUnit 0 none ∈ t.net.reports ∧
    OnlyIn [.evt, .net, .usg] s t := by
  obtain ⟨only, seq, failed, reports⟩ := s.chimed.writeSeq_fails (s.usg.seq + 1)
  have recorded := (s.chimed.writeSeq (s.usg.seq + 1) false).recorded_usg
  have counted := (s.chimed.writeSeq (s.usg.seq + 1) false).recorded.nextMinute_onlyIn
  have after := (recorded.trans counted).trans (s.minuteOn false).trimRing_usg
  have all := ((State.chimed_onlyIn.trans only).trans after).mono (qs := [.evt, .net, .usg]) (by decide)
  have net : (s.minuteOn false).trimRing.net = (s.chimed.writeSeq (s.usg.seq + 1) false).net := after.agree .net (by decide)
  have seqOn : (s.minuteOn false).usg.seq = s.usg.seq + 1 := by
    rw [State.minuteOn, State.nextMinute_seq, State.recorded_seq.1, seq, State.chimed_usg]
  have failedOn : (s.minuteOn false).usg.seqFailed = true := by
    rw [State.minuteOn, State.nextMinute_failed, State.recorded_seq.2, failed]
  exact ⟨_, exec_minuteBoundary_unsaved serves, State.trimRing_seq.1.trans seqOn, all.agree .boot (by decide), State.trimRing_seq.2.trans failedOn,
    by rw [net, reports]; simp, all⟩

end Minutes

/-! ### One record (R605-R611, R613) -/

section Record
variable {s : State} {g : Nat}

/-- The batch that the first record of a tenancy opens. -/
def State.firstBatch (s : State) (g : Nat) : Batch :=
  { glove := g, link := (s.linkOf g).getD 0, tenancy := (s.usage g).tenancy, records := [s.formRecord g false s.sys.now] }

theorem State.addRecord_first (empty : s.usg.batches = []) (more : 1 < s.boot.cfg.batchRecords) :
    (s.addRecord g false).usg.batches = [s.firstBatch g] := by
  have opens : decide (s.boot.cfg.batchRecords ≤ 0 + 1) = false := decide_eq_false (Nat.not_le.mpr more)
  have untouched (t : State) (m : Usage → Usage) : (t.modUsage g m).usg.batches = t.usg.batches := rfl
  simp [State.addRecord, empty, State.firstBatch, opens, Nat.not_le.mpr more, untouched]

theorem State.signAll_open {b : Batch} (only : s.usg.batches = [b]) (unclosed : b.closed = false) : s.signAll = s := by
  have unsigned : s.signable b = false := by simp [State.signable, unclosed]
  rw [State.signAll, only]
  exact if_neg (by simp [unsigned])

theorem State.trimRing_open {b : Batch} (only : s.usg.batches = [b]) (unclosed : b.closed = false) : s.trimRing.usg.batches = [b] := by
  have keeps : keepBatches ringSize [b] = ([b], []) := by simp [keepBatches, unclosed]
  rw [State.trimRing, only]
  simp [keeps]

theorem minuteBoundary_record {u : Usage} (serves : s.serves = true) (single : s.usg.usage = [(g, u)]) (live : u.live = true)
    (empty : s.usg.batches = []) (more : 1 < s.boot.cfg.batchRecords) :
    ∃ t b r, exec (.minuteBoundary true) s = .next t ∧ t.usg.batches = [b] ∧ b.glove = g ∧ b.closed = false ∧ b.records = [r] ∧
      r.glove = g ∧ r.seq = s.usg.seq ∧ r.tStart = u.tStart ∧ r.tEnd = s.sys.now ∧ r.works = u.works ∧ r.dmaPool = u.dmaPool := by
  have only := (s.chimed.writeSeq_ok (s.usg.seq + 1)).1
  have chimed := State.chimed_onlyIn.trans only
  have written (t : State) (n : Nat) : (t.writeSeq n true).usg = { t.usg with seqFailed := false } := rfl
  have config (t : State) (n : Nat) : (t.writeSeq n true).boot.cfg = t.boot.cfg := rfl
  generalize saved : s.chimed.writeSeq (s.usg.seq + 1) true = v at chimed
  have usg : v.usg = { s.usg with seqFailed := false } := by rw [← saved, written, State.chimed_usg]
  have cfg : v.boot.cfg = s.boot.cfg := by
    rw [← saved, config, show s.chimed.boot = s.boot from State.chimed_onlyIn.agree .boot (by decide)]
  have sys : v.sys = s.sys := chimed.agree .sys (by decide)
  have usage : v.usage g = u := by rw [State.usage, usg]; simp [single, Tbl.get]
  have recorded : v.recorded = v.addRecord g false := by simp [State.recorded, usg, single, live]
  have batches : (s.minuteOn true).usg.batches = [v.firstBatch g] := by
    rw [State.minuteOn, saved, recorded, State.nextMinute_batches]
    exact State.addRecord_first (by rw [usg]; exact empty) (by rw [cfg]; exact more)
  have runs := exec_minuteBoundary_saved serves
  rw [State.signAll_open batches rfl] at runs
  refine ⟨_, _, _, runs, State.trimRing_open batches rfl, rfl, rfl, rfl, rfl, ?_, ?_, ?_, ?_, ?_⟩
  · simp [State.formRecord, usg]
  · simp [State.formRecord, usage]
  · simp [State.formRecord, sys]
  · simp [State.formRecord, usage]
  · simp [State.formRecord, usage]

end Record

/-! ### GET_USAGE (R381, R382, R620, R621) -/

theorem badBuffer_fits {buf len : Nat} (start : buf % 64 = 0) (stop : len % 64 = 0) (some' : 0 < len) (most : len ≤ 2 ^ 20) :
    badBuffer buf len = false := by
  rw [badBuffer, start, stop, beq_false_of_ne (Nat.ne_of_gt some'), decide_eq_false (Nat.not_lt.mpr most)]
  rfl

section GetUsage
variable {s : State} {o : Origin} {glove first buf len : Nat}

@[simp] theorem State.undispatch_linkHas (s : State) (i : Instr) (l g : Nat) : (s.undispatch i).linkHas l g = s.linkHas l g := rfl

/-- The number of the oldest batch that a link's ring retains. -/
def State.oldest (s : State) (l : Nat) : Nat := (((s.retained l).head?).bind Batch.linkSeq).getD 0

section Runs
variable (serves : s.serves = true) (exists' : s.fnExists o.q.fnId = true)
include serves exists'

theorem exec_getUsage_foreign (pf : o.q.fn = 0) (one : glove ≠ 0xFFFF) (foreign : s.linkHas o.q.link glove = false) :
    exec (.getUsage o glove first buf len) s = .next ((s.undispatch (.getUsage o glove first buf len)).refuse o 0x0108) :=
  congrArg Host.Outcome.next ((if_neg (by simp [serves, exists'])).trans (if_pos (by simp [pf, one, State.undispatch_linkHas, foreign])))

variable (own : o.q.fn = 0 → glove = 0xFFFF ∨ s.linkHas o.q.link glove = true)
include own

omit serves exists' in
theorem getUsage_own : ¬(o.q.fn == 0 && glove != 0xFFFF && !s.linkHas o.q.link glove) = true := by
  by_cases pf : o.q.fn = 0
  · rcases own pf with h | h <;> simp [h]
  · simp [pf]

theorem exec_getUsage_badBuffer (bad : badBuffer buf len = true) :
    exec (.getUsage o glove first buf len) s = .next ((s.undispatch (.getUsage o glove first buf len)).refuse o 0x0002) :=
  congrArg Host.Outcome.next ((if_neg (by simp [serves, exists'])).trans ((if_neg (getUsage_own own)).trans
    (if_pos bad)))

variable (fits : badBuffer buf len = false)
include fits

theorem exec_getUsage_old (old : first < s.oldest o.q.link) :
    exec (.getUsage o glove first buf len) s = .next ((s.undispatch (.getUsage o glove first buf len)).refuse o 0x0003) :=
  congrArg Host.Outcome.next ((if_neg (by simp [serves, exists'])).trans ((if_neg (getUsage_own own)).trans
    ((if_neg (by simp [fits])).trans (if_pos old))))

/-- The batches that a request finds, and those of them that fit its buffer. -/
def State.foundBatches (s : State) (o : Origin) (glove first : Nat) : List Batch :=
  (s.retained o.q.link).filter (fun b => decide (first ≤ b.linkSeq.getD 0) &&
    (if o.q.fn == 0 then glove == 0xFFFF || b.glove == glove
     else b.glove == s.gloveOf o.q.fnId && b.tenancy == (s.usage (s.gloveOf o.q.fnId)).tenancy))

/-- The batches that PF0 has read are marked. -/
def State.markReturned (s : State) (o : Origin) (got : List Batch) : State :=
  if o.q.fn == 0 then
    { s with usg.batches := s.usg.batches.map (fun b =>
        if b.link == o.q.link && got.any (fun x => x.linkSeq == b.linkSeq) then { b with returned := true } else b) }
  else s

theorem exec_getUsage (young : s.oldest o.q.link ≤ first) : exec (.getUsage o glove first buf len) s = .next
    (((s.undispatch (.getUsage o glove first buf len)).markReturned o (fitBatches len (s.foundBatches o glove first))).crownWrites o buf
      ((fitBatches len (s.foundBatches o glove first)).flatMap
        ((s.undispatch (.getUsage o glove first buf len)).markReturned o (fitBatches len (s.foundBatches o glove first))).batchBytes)
      ((fitBatches len (s.foundBatches o glove first)).length + 2 ^ 32 * bit (decide
        ((fitBatches len (s.foundBatches o glove first)).length < (s.foundBatches o glove first).length)))) :=
  congrArg Host.Outcome.next ((if_neg (by simp [serves, exists'])).trans ((if_neg (getUsage_own own)).trans
    ((if_neg (by simp [fits])).trans (if_neg (Nat.not_lt.mpr young)))))

end Runs

theorem State.retained_nil (empty : s.usg.batches = []) (l : Nat) : s.retained l = [] := by simp [State.retained, empty]

theorem State.foundBatches_nil (empty : s.usg.batches = []) : s.foundBatches o glove first = [] := by
  rw [State.foundBatches, State.retained_nil empty, List.filter_nil]

theorem State.oldest_nil (empty : s.usg.batches = []) (l : Nat) : s.oldest l = 0 := by
  rw [State.oldest, State.retained_nil empty]
  rfl

theorem State.markReturned_onlyIn (got : List Batch) : OnlyIn [.usg] s (s.markReturned o got) := by
  unfold State.markReturned
  exact .ite (onlyIn_iff.mpr (by simp)) (.refl _ s)

theorem State.markReturned_vf (vf : o.q.fn ≠ 0) (got : List Batch) : s.markReturned o got = s := if_neg (by simp [vf])

theorem State.markReturned_queue (got : List Batch) (q : QId) : (s.markReturned o got).queue q = s.queue q :=
  State.queue_congr (State.markReturned_onlyIn got |>.agree .work (by decide)) q

/-- With no batch in the ring a request completes at once with nothing. -/
theorem exec_getUsage_nothing (serves : s.serves = true) (exists' : s.fnExists o.q.fnId = true)
    (own : o.q.fn = 0 → glove = 0xFFFF ∨ s.linkHas o.q.link glove = true) (fits : badBuffer buf len = false)
    (empty : s.usg.batches = []) : exec (.getUsage o glove first buf len) s =
      .next (((s.undispatch (.getUsage o glove first buf len)).markReturned o []).complete o 0 0) := by
  rw [exec_getUsage serves exists' own fits (by rw [State.oldest_nil empty]; exact Nat.zero_le _), State.foundBatches_nil empty]
  rfl

section One
variable {b : Batch} (single : s.usg.batches = [b]) (here : b.link = o.q.link) (numbered : b.linkSeq = some first)
include single here numbered

theorem State.retained_one : s.retained o.q.link = [b] := by
  simp [State.retained, single, here, numbered]

theorem State.oldest_one : s.oldest o.q.link = first := by
  rw [State.oldest, State.retained_one single here numbered]
  simp [numbered]

theorem State.foundBatches_one (pf : o.q.fn = 0) : s.foundBatches o 0xFFFF first = [b] := by
  rw [State.foundBatches, State.retained_one single here numbered]
  simp [numbered, pf]

theorem State.markReturned_one (pf : o.q.fn = 0) : (s.markReturned o [b]).usg.batches = [{ b with returned := true }] := by
  rw [State.markReturned, if_pos (by simp [pf]), single]
  simp [here]

end One

/-! The writes of a buffer -/

/-- One write of the Crown to a buffer is sent. -/
def State.crownWrite (s : State) (o : Origin) (buf result : Nat) (c : List Byte × Nat) : State :=
  s.sendHost (.crownWrite o 0 result) (s.packetOf (s.qAccess o.q false .memWr (buf + 512 * c.2) c.1.length c.1)) o.q.fnId.link o.q.fnId.fn
    (buf + 512 * c.2) none

theorem State.crownWrites_sends {bs : List Byte} (some' : bs ≠ []) (result : Nat) :
    s.crownWrites o buf bs result = ((chunks 512 bs).zipIdx).foldl (fun s c => s.crownWrite o buf result c) s := by
  have sent (t : State) (a n : Nat) (c : List Byte) : t.issue (t.qAccess o.q false .memWr a n c) (fun _ => .crownWrite o 0 result) =
      .sent (t.sendHost (.crownWrite o 0 result) (t.packetOf (t.qAccess o.q false .memWr a n c)) o.q.fnId.link o.q.fnId.fn a none) 0
        (some o.q.fnId.link) := State.issue_host rfl _
  have bytes : bs.isEmpty = false := List.isEmpty_eq_false_iff.mpr some'
  simp only [State.crownWrites, bytes, sent]
  rfl

theorem State.crownWrite_outst {x : Req} (result : Nat) (c : List Byte × Nat) (h : x ∈ s.net.outst) :
    x ∈ (s.crownWrite o buf result c).net.outst := by
  rw [State.crownWrite, State.sendHost, State.request_outst]
  exact List.mem_append_left _ h

theorem foldl_crownWrite_outst {x : Req} (result : Nat) (l : List (List Byte × Nat)) : ∀ s : State, x ∈ s.net.outst →
    x ∈ (l.foldl (fun s c => s.crownWrite o buf result c) s).net.outst := by
  induction l with
  | nil => exact fun _ h => h
  | cons c l ih => exact fun s h => ih _ (State.crownWrite_outst result c h)

theorem foldl_crownWrite_batches (result : Nat) (l : List (List Byte × Nat)) (s : State) :
    (l.foldl (fun s c => s.crownWrite o buf result c) s).usg = s.usg :=
  foldl_same (fun s : State => s.usg) _ l s fun s c => by simp [State.crownWrite, State.sendHost]

theorem chunks_head {α : Type} {n : Nat} {l : List α} (some' : l ≠ []) (size : 0 < n) : ∃ c cs, chunks n l = c :: cs := by
  have pos : 0 < (l.length + n - 1) / n := Nat.div_pos (by have := List.length_pos_iff.mpr some'; omega) size
  obtain ⟨k, hk⟩ : ∃ k, (l.length + n - 1) / n = k + 1 := ⟨_, (Nat.succ_pred_eq_of_pos pos).symm⟩
  exact ⟨_, _, by rw [chunks, hk, List.range_succ_eq_map, List.map_cons]⟩

/-- The first write of a buffer is outstanding once all are sent. -/
theorem State.crownWrites_first {bs : List Byte} (some' : bs ≠ []) (result : Nat) :
    (s.crownWrites o buf bs result).usg = s.usg ∧ ∃ x ∈ (s.crownWrites o buf bs result).net.outst, x.ctx = .crownWrite o 0 result ∧
      x.pkt.op = .memWr ∧ x.pkt.hostSpace = true ∧ x.pkt.link = o.q.link ∧ x.pkt.fn = o.q.fn ∧ x.pkt.addr = buf := by
  obtain ⟨c, cs, parts⟩ := chunks_head some' (n := 512) (by decide)
  rw [State.crownWrites_sends some', parts, List.zipIdx_cons]
  refine ⟨foldl_crownWrite_batches .., ?_⟩
  obtain ⟨r, sent, ctx, pkt⟩ : Issues s (s.crownWrite o buf result (c, 0)) (.crownWrite o 0 result) (fun p => p.op = .memWr ∧
      p.hostSpace = true ∧ p.link = o.q.link ∧ p.fn = o.q.fn ∧ p.addr = buf) :=
    Issues.of_sendHost (u := s) rfl rfl fun _ => ⟨rfl, rfl, rfl, rfl, rfl⟩
  refine ⟨r, ?_, ctx, pkt⟩
  rw [List.foldl_cons]
  exact foldl_crownWrite_outst result _ _ (by rw [sent]; simp)

theorem State.batchBytes_ne_nil (b : Batch) : s.batchBytes b ≠ [] := by
  simp [State.batchBytes, leBytes]

end GetUsage

section Samples
variable {s : State}

theorem exec_tierOccupancySample (serves : s.serves = true) : exec .tierOccupancySample s = .next { s with
    usg.usage := s.usg.usage.map (fun e => (e.1,
      if e.2.live then { e.2 with tierSum := e.2.tierSum + s.occupancy e.1, tierN := e.2.tierN + 1 } else e.2)) } :=
  congrArg Host.Outcome.next (if_neg (by simp [serves]))

variable {f : FnId} {v : BitVec 64}

theorem exec_usgAnchorWrite (open' : s.bar0On f = true) (pf0 : f.fn = 0) : exec (.usgAnchorWrite f v) s = .next { s with
    usg.anchor := v, usg.anchorTime := s.sys.now, usg.anchorSet := true
    usg.usage := s.usg.usage.map (fun e => (e.1, { e.2 with anchorSet := true })) } :=
  congrArg Host.Outcome.next (if_neg (by simp [open', pf0]))

theorem exec_usgAnchorWrite_shut (shut : s.bar0On f = false ∨ f.fn ≠ 0) : exec (.usgAnchorWrite f v) s = .next s :=
  congrArg Host.Outcome.next (if_pos (by rcases shut with h | h <;> simp [h]))

end Samples

/-- Settles O53: each command is its `exec_` equation; the records and signatures are bounded by `State.LedgerKept`. -/
theorem usageCommandsComplete : Obligations.UsageCommandsComplete := by
  unfold Obligations.UsageCommandsComplete
  have refused (s : State) (i : Instr) (o : Origin) (code : Nat) : Completes s ((s.undispatch i).refuse o code) o code 0 ∧
      OnlyIn [.work, .host] s ((s.undispatch i).refuse o code) := by
    obtain ⟨-, -, -, -, completes, only⟩ := s.refused_undispatch i o code
    exact ⟨completes, only⟩
  refine ⟨fun s serves => ⟨minuteBoundary_saved serves, minuteBoundary_unsaved serves, fun g u => minuteBoundary_record serves,
    fun failed => ⟨?_, ?_⟩, exec_tierOccupancySample serves⟩, fun s f v => exec_usgAnchorWrite,
    fun s o glove first buf len serves exists' pf => ⟨fun one foreign => ⟨_, exec_getUsage_foreign serves exists' pf one foreign, refused ..⟩,
      fun all odd => ⟨_, exec_getUsage_badBuffer serves exists' (fun _ => .inl all) (by simp [badBuffer, odd]), refused ..⟩,
      fun all start stop some' most empty => ?_, fun b all start stop most single here numbered fits => ?_⟩,
    fun s ok idle => exec_minutes_idle idle ok, fun s f v => exec_usgAnchorWrite_shut,
    fun s o glove first buf len serves exists' vf => ⟨fun bad => ⟨_, exec_getUsage_badBuffer serves exists' (fun pf => absurd pf vf) bad,
      refused ..⟩, fun fits empty => ?_⟩,
    fun s o glove first buf len serves exists' own fits old => ⟨_, exec_getUsage_old serves exists' own fits old, refused ..⟩⟩
  · obtain ⟨only, seq, unfailed, next, flash⟩ := s.writeSeq_ok s.usg.seq
    have kept := State.signAll_keeps (s := s.writeSeq s.usg.seq true) |>.trans State.trimRing_keeps
    exact ⟨_, exec_mramSeqRetry_ok serves failed, kept.next.trans next, kept.failed.trans unfailed, kept.seq.trans seq,
      (only.trans kept.only).mono (by decide)⟩
  · obtain ⟨only, -, usg, reports⟩ := s.writeSeq_fails s.usg.seq
    have same : (s.writeSeq s.usg.seq false).usg = s.usg := usg.trans (by rw [← failed])
    refine ⟨_, exec_mramSeqRetry_fails serves failed, only.agree .boot (by decide), reports, ⟨fun p hp => ?_⟩⟩
    by_cases ledger : p = .usg
    · rw [ledger]
      exact same
    · exact only.agree p (by simpa [ledger] using hp)
  · have only (t : State) : OnlyIn [.work] t (t.complete o 0 0) := onlyIn_iff.mpr (by simp)
    have off (i : Instr) : OnlyIn [.work] s (s.undispatch i) := onlyIn_iff.mpr (by simp)
    exact ⟨_, exec_getUsage_nothing serves exists' (fun _ => .inl all) (badBuffer_fits start stop some' most) empty,
      State.completes _ _ _ _ _ fun q => (State.markReturned_queue [] q).trans (State.undispatch_queue ..),
      (((off _).trans (State.markReturned_onlyIn [])).trans (only _)).mono (by decide)⟩
  · have some' : 0 < len := Nat.lt_of_lt_of_le (Nat.lt_of_lt_of_le (by decide : 0 < 192) (Nat.le_add_right _ _)) fits
    have runs := exec_getUsage serves exists' (fun _ => .inl all) (buf := buf) (len := len) (glove := glove) (first := first)
      (badBuffer_fits start stop some' most) (Nat.le_of_eq (State.oldest_one single here numbered))
    have got : fitBatches len (s.foundBatches o glove first) = [b] := by
      rw [all, State.foundBatches_one single here numbered pf]
      simp [fitBatches, fits]
    have count : [b].length + 2 ^ 32 * bit (decide ([b].length < [b].length)) = 1 := rfl
    rw [got, all, State.foundBatches_one single here numbered pf, count] at runs
    have batches : (s.undispatch (.getUsage o 0xFFFF first buf len)).usg.batches = [b] := single
    generalize s.undispatch (.getUsage o 0xFFFF first buf len) = u at runs batches
    obtain ⟨usg, sent⟩ := (u.markReturned o [b]).crownWrites_first (o := o) (buf := buf)
      (bs := [b].flatMap (u.markReturned o [b]).batchBytes) (by simp [State.batchBytes_ne_nil]) 1
    rw [pf] at sent
    rw [all]
    exact ⟨_, runs, by rw [usg, State.markReturned_one batches here numbered pf], sent⟩
  · have only (t : State) : OnlyIn [.work] t (t.complete o 0 0) := onlyIn_iff.mpr (by simp)
    have off (i : Instr) : OnlyIn [.work] s (s.undispatch i) := onlyIn_iff.mpr (by simp)
    have runs := exec_getUsage_nothing (glove := glove) (first := first) serves exists' (fun pf => absurd pf vf) fits empty
    rw [State.markReturned_vf vf] at runs
    exact ⟨_, runs, State.completes _ _ _ _ _ fun q => State.undispatch_queue .., (off _).comp (only _)⟩

end Sys2Proof.Machine
end

