-- ==== Sys2Proof/Proofs/RegisterWrites.lean ====
section
/-! PROOFS. Register and configuration writes (R5, R8, R294, R303). -/

namespace Sys2Proof.Machine

/-! ### Whole words (R5, R303) -/

theorem leNat_leBytes (n : Nat) : ∀ v, leNat (leBytes n v) = v % 256 ^ n := by
  induction n with
  | zero => exact fun v => (Nat.mod_one v).symm
  | succ n ih =>
    intro v
    have split : v % 256 ^ (n + 1) = v % 256 + 256 * (v / 256 % 256 ^ n) := by rw [Nat.pow_succ', Nat.mod_mul]
    rw [leBytes, leNat, ih, BitVec.toNat_ofNat, split]

theorem leBytes_length (n : Nat) : ∀ v, (leBytes n v).length = n := by
  induction n with
  | zero => exact fun _ => rfl
  | succ n ih => exact fun v => by rw [leBytes, List.length_cons, ih]

/-- A unit takes every byte of a write that enables all eight. -/
theorem merge8_all (old w : Nat) : merge8 old w 255 = w % 2 ^ 64 := by
  have bytes : (List.range 8).map (fun i => BitVec.ofNat 8 (bits (if bitAt 255 i then w else old) (8 * i + 7) (8 * i))) = leBytes 8 w := by
    simp [List.range_succ, leBytes, bits, bitAt, Nat.div_div_eq_div_mul, BitVec.toNat_eq]
  rw [merge8, bytes, leNat_leBytes, show (256 : Nat) ^ 8 = 2 ^ 64 by decide]

section Words
variable {s : State} {f : FnId} {off v : Nat}

/-- A write of a whole word reaches its unit. -/
theorem State.writeBar0_word (ub : Nat) (pf : f.fn = 0) (aligned : off % 8 = 0) (below : off < 0x2000000) :
    s.writeBar0 f ub off ((leBytes 8 v).map some) = s.writeUnit f off (v % 2 ^ 64) 255 := by
  have word : (leNat (((leBytes 8 v).map some).map (fun b => b.getD 0))) * 2 ^ (8 * (off % 8)) = v % 2 ^ 64 := by
    have plain : ((leBytes 8 v).map some).map (fun b => b.getD 0) = leBytes 8 v := by simp
    rw [plain, leNat_leBytes, aligned]
    simp
  have enables : ((((leBytes 8 v).map some).zipIdx.filter (fun e => e.1.isSome)).map (fun e => 2 ^ (off % 8 + e.2))).sum = 255 := by
    rw [aligned]
    simp [leBytes]
  have shown : s.tdiHides f off = false := by simp [State.tdiHides, State.tdiShut, pf]
  have shape : bar0Shape off ((leBytes 8 v).map some).length = true := by
    have unit : off / 8 = (off + 8 - 1) / 8 := by omega
    rw [List.length_map, leBytes_length, bar0Shape, ← unit]
    simp
  have base : off / 8 * 8 = off := by omega
  refine (if_neg (by rw [shown]; exact Bool.false_ne_true)).trans ((if_neg (by rw [shape]; decide)).trans
    ((if_neg fun window => Nat.not_le.mpr below window.2.1).trans ((if_neg (by rw [enables]; decide)).trans ?_)))
  rw [word, enables, base]

/-- A register that no unit holds takes the write. -/
theorem State.writeUnit_free (w en : Nat) (free : holder s f off = none) : s.writeUnit f off w en = s.writeOpen f off w en := by
  have unfenced : s.fencedHolder f off = none := by
    unfold State.fencedHolder
    rw [free]
  unfold State.writeUnit
  rw [unfenced]

section Pf
variable (serves : s.serves = true) (pf : f.fn = 0)
include serves pf

omit pf in
theorem serves_blank : s.sys.mode ≠ .blank := fun blank => by simp [State.serves, blank] at serves

theorem writeOpen_unitBase (w : Nat) : s.writeOpen f 0x20000 w 255 = s.modLink f.link (fun x => { x with unitBase := bits (w % 2 ^ 64) 9 4 }) := by
  simp [State.writeOpen, pf, serves_blank serves, merge8_all]

theorem writeOpen_cause (w : Nat) : s.writeOpen f 0xE000 w 255 =
    s.modFn f (fun x => { x with cause := x.cause &&& ~~~ BitVec.ofNat 7 (w % 2 ^ 64) }) := by
  simp [State.writeOpen, State.writeEvt, pf, serves_blank serves, merge8_all]

theorem writeOpen_identity (w en : Nat) : s.writeOpen f 0 w en = s := by
  simp [State.writeOpen, pf, serves_blank serves]

theorem writeOpen_msix {w i : Nat} (few : i < 2048) : s.writeOpen f (0x1000000 + 16 * i) w 255 =
    s.modFn f (fun x => { x with msix := x.msix.mod {} i (fun e => { e with addr := BitVec.ofNat 64 w }) }) := by
  have low (n : Nat) (h : n < 0x1000000) : 0x1000000 + 16 * i ≠ n := by omega
  have above (n : Nat) (h : n ≤ 0x1000000) : ¬0x1000000 + 16 * i < n := by omega
  have inside : 0x1000000 + 16 * i < 0x1008000 := by omega
  have table : s.writeOpen f (0x1000000 + 16 * i) w 255 = s.writeMsix f (16 * i) w 255 := by
    simp [State.writeOpen, pf, serves_blank serves, low, above, inside]
  have word : BitVec.ofNat 64 (w % 2 ^ 64) = BitVec.ofNat 64 w := by simp [BitVec.toNat_eq]
  rw [table, State.writeMsix, merge8_all, word]
  simp

variable (mem : s.memOn f = true)
include mem

/-- A word written to a unit that no other unit holds. -/
theorem exec_registerWrite_word {off : Nat} (aligned : off % 8 = 0) (below : off < 0x2000000) (free : holder s f off = none) :
    exec (.registerWrite f (.bar0 off ((leBytes 8 v).map some))) s = .next (s.writeOpen f off (v % 2 ^ 64) 255) :=
  congrArg Host.Outcome.next ((if_pos mem).trans ((State.writeBar0_word _ pf aligned below).trans (State.writeUnit_free _ _ free)))

omit serves in
theorem exec_registerWrite_misshapen :
    exec (.registerWrite f (.bar0 3 ((leBytes 8 v).map some))) s = .next (s.reject f 0x0002 1 3) := by
  have shown : s.tdiHides f 3 = false := by simp [State.tdiHides, State.tdiShut, pf]
  have shape : bar0Shape 3 ((leBytes 8 v).map some).length = false := by
    rw [List.length_map, leBytes_length]
    rfl
  exact congrArg Host.Outcome.next ((if_pos mem).trans ((if_neg (by rw [shown]; exact Bool.false_ne_true)).trans
    (if_pos (by rw [shape]; rfl))))

end Pf
end Words

/-! ### Configuration fields (R8, R294, R341, R506) -/

section Config
variable {s : State} {f : FnId} {v : Nat}

theorem exec_registerWrite_bar0 {off : Nat} {d : List (Option Byte)} (mem : s.memOn f = true) :
    exec (.registerWrite f (.bar0 off d)) s = .next (s.writeBar0 f (s.link f.link).unitBase off d) := congrArg Host.Outcome.next (if_pos mem)

theorem exec_registerWrite_bar0_shut {off : Nat} {d : List (Option Byte)} (shut : s.memOn f = false) :
    exec (.registerWrite f (.bar0 off d)) s = .next s := congrArg Host.Outcome.next (if_neg (by simp [shut]))

theorem exec_registerWrite_cfg_shut (c : CfgField) (shut : s.cfgOpen f = false) : exec (.registerWrite f (.cfg c v)) s = .next s :=
  congrArg Host.Outcome.next (if_pos (by simp [shut]))

section Open
variable (open' : s.cfgOpen f = true)
include open'

theorem exec_registerWrite_cfg {c : CfgField} (own : CfgField.ofPf c = true → f.fn = 0) :
    exec (.registerWrite f (.cfg c v)) s = .next (s.writeCfg f c v) :=
  congrArg Host.Outcome.next (if_neg (by
    by_cases pf : CfgField.ofPf c = true
    · simp [open', own pf]
    · simp [open', pf]))

/-- A field of every function is written as `State.writeCfg` says. -/
theorem exec_registerWrite_field {c : CfgField} (plain : CfgField.ofPf c = false) :
    exec (.registerWrite f (.cfg c v)) s = .next (s.writeCfg f c v) :=
  exec_registerWrite_cfg open' fun pf => absurd (plain.symm.trans pf) (by decide)

end Open

theorem State.modLink_congr {l : Nat} {m n : Link → Link} (h : m (s.link l) = n (s.link l)) : s.modLink l m = s.modLink l n := by
  simp only [State.modLink, Tbl.mod]
  exact congrArg (fun v => { s with host.links := s.host.links.set l v }) h

theorem writeCfg_mps (v : Nat) : (v ∈ [128, 256, 512] → s.writeCfg f .mps v = s.modFn f (fun x => { x with mps := v })) ∧
    (v ∉ [128, 256, 512] → s.writeCfg f .mps v = s) :=
  ⟨fun legal => if_pos (List.contains_iff_mem.mpr legal), fun bad => if_neg fun legal => bad (List.contains_iff_mem.mp legal)⟩

theorem writeCfg_mrrs (v : Nat) :
    (v ∈ [128, 256, 512, 1024, 2048, 4096] → s.writeCfg f .mrrs v = s.modFn f (fun x => { x with mrrs := v })) ∧
    (v ∉ [128, 256, 512, 1024, 2048, 4096] → s.writeCfg f .mrrs v = s) :=
  ⟨fun legal => if_pos (List.contains_iff_mem.mpr legal), fun bad => if_neg fun legal => bad (List.contains_iff_mem.mp legal)⟩

theorem writeCfg_rcb (v : Nat) : (v ∈ [64, 128] → s.writeCfg f .rcb v = s.modFn f (fun x => { x with rcb := v })) ∧
    (v ∉ [64, 128] → s.writeCfg f .rcb v = s) :=
  ⟨fun legal => if_pos (by simpa using legal), fun bad => if_neg (by simpa using bad)⟩

theorem writeCfg_tags (legal : v = 8 ∨ v = 10 ∨ (v = 14 ∧ (s.link f.link).flit = true)) :
    s.writeCfg f .tags v = s.modFn f (fun x => { x with tags := v }) :=
  if_pos (by rcases legal with h | h | ⟨h, flit⟩ <;> simp [*])

theorem writeCfg_ideStream {b : Option Nat} {i : Nat} (new : ∀ e ∈ (s.link f.link).ide, e.id ≠ i ∧ e.block ≠ b) :
    s.writeCfg f (.ideStream b i) 1 = s.modLink f.link (fun x => { x with ide := x.ide ++ [{ id := i, block := b }] }) :=
  State.modLink_congr ((if_pos rfl).trans (if_neg (by
    rw [Bool.not_eq_true, List.any_eq_false]
    exact fun e he => by simpa using new e he)))

end Config

/-- Settles O54: a word reaches its unit by `State.writeBar0_word`, a field its function by `State.writeCfg`. -/
theorem registerWriteCompletes : Obligations.RegisterWriteCompletes := by
  unfold Obligations.RegisterWriteCompletes
  refine ⟨fun s f v serves enabled out awake mem open' => ⟨fun pf => ⟨?_, ?_, ?_, exec_registerWrite_misshapen pf mem, fun i few => ?_,
    exec_registerWrite_cfg open' fun _ => pf⟩, exec_registerWrite_field open' rfl, exec_registerWrite_field open' rfl,
    exec_registerWrite_field open' rfl, exec_registerWrite_field open' rfl, exec_registerWrite_field open' rfl⟩,
    fun s f v open' => ⟨fun pf => exec_registerWrite_cfg open' fun _ => pf, exec_registerWrite_field open' rfl,
      exec_registerWrite_field open' rfl, fun legal => ?_, fun legal => ?_, fun legal => ?_, fun legal => ?_, fun bad => ?_, fun bad => ?_,
      fun bad => ?_, exec_registerWrite_field open' rfl, fun e => ⟨exec_registerWrite_field open' rfl, exec_registerWrite_field open' rfl,
        exec_registerWrite_field open' rfl, exec_registerWrite_field open' rfl⟩,
      fun b i lo hi pf => ⟨exec_registerWrite_cfg open' fun _ => pf, exec_registerWrite_cfg open' fun _ => pf⟩,
      fun b i pf new => (exec_registerWrite_cfg open' fun _ => pf).trans (congrArg _ (writeCfg_ideStream new)), fun on => ?_,
      exec_registerWrite_field open' rfl, exec_registerWrite_field open' rfl⟩,
    fun s f off d c v => ⟨exec_registerWrite_bar0, exec_registerWrite_bar0_shut, exec_registerWrite_cfg_shut c⟩⟩
  · have bits' : bits (v % 2 ^ 64 % 2 ^ 64) 9 4 = bits v 9 4 := by
      rw [bits, bits]
      omega
    rw [exec_registerWrite_word serves pf mem (by decide) (by decide) (by simp [holder, pf]), writeOpen_unitBase serves pf, bits']
  · rw [exec_registerWrite_word serves pf mem (by decide) (by decide) (by simp [holder, pf]), writeOpen_cause serves pf, Nat.mod_mod]
  · rw [exec_registerWrite_word serves pf mem (by decide) (by decide) (by simp [holder, pf]), writeOpen_identity serves pf]
  · have free : holder s f (0x1000000 + 16 * i) = none := by
      have above (n : Nat) (h : n ≤ 0x1000000) : ¬0x1000000 + 16 * i < n := by omega
      simp [holder, pf, above]
    have word : BitVec.ofNat 64 (v % 2 ^ 64) = BitVec.ofNat 64 v := by simp [BitVec.toNat_eq]
    refine ⟨_, (exec_registerWrite_word serves pf mem (by omega) (by omega) free).trans (congrArg _ (writeOpen_msix serves pf few)), ?_,
      onlyIn_iff.mpr (by simp)⟩
    rw [State.modFn_same, word]
    exact Tbl.get_set_same ..
  · exact (exec_registerWrite_field open' rfl).trans (congrArg _ ((writeCfg_mps v).1 legal))
  · exact (exec_registerWrite_field open' rfl).trans (congrArg _ ((writeCfg_mrrs v).1 legal))
  · exact (exec_registerWrite_field open' rfl).trans (congrArg _ ((writeCfg_rcb v).1 legal))
  · exact (exec_registerWrite_field open' rfl).trans (congrArg _ (writeCfg_tags legal))
  · exact (exec_registerWrite_field open' rfl).trans (congrArg _ ((writeCfg_mps v).2 bad))
  · exact (exec_registerWrite_field open' rfl).trans (congrArg _ ((writeCfg_mrrs v).2 bad))
  · exact (exec_registerWrite_field open' rfl).trans (congrArg _ ((writeCfg_rcb v).2 bad))
  · exact (exec_registerWrite_field open' rfl).trans (congrArg _ (if_pos (by simp [on])))

end Sys2Proof.Machine
end

