-- ==== Sys2Proof/Proofs/HostSpdm.lean ====
section
/-! PROOFS. The SPDM responder of a host link (R82-R86, R99, R561). -/

namespace Sys2Proof.Machine

/-! ### Who an SPDM request of a host reaches (R84, R99, R561) -/

theorem State.awake_of_serves {s : State} (serves : s.serves = true) : s.awake = true := by
  rw [State.serves, Bool.and_eq_true] at serves
  exact serves.1

/-- A device that serves answers a host on a link that is up. -/
theorem State.spdm_host {s : State} {l : Nat} (there : s.linkExists l = true) (up : (s.link l).up = true) (serves : s.serves = true)
    (n : Option Nat) (host : Nat → Option Nat → State → State) (border : Nat → State → State) :
    s.spdm (.host l n) host border = host l n s :=
  (if_neg (by simp [there, up, State.awake_of_serves serves])).trans (if_pos serves)

/-- In Blank and Quarantine every request is answered alike. -/
theorem State.spdm_shut {s : State} {l : Nat} (there : s.linkExists l = true) (up : (s.link l).up = true) (awake : s.awake = true)
    (shut : s.sys.mode = .blank ∨ s.sys.mode = .quarantine)
    (n : Option Nat) (host : Nat → Option Nat → State → State) (border : Nat → State → State) :
    s.spdm (.host l n) host border = s.emit (.spdm (.host l n) .errorUnspecified) := by
  refine (if_neg (by simp [there, up, awake])).trans ((if_neg ?_).trans (if_neg ?_)) <;> rcases shut with mode | mode <;>
    simp [State.serves, mode]

/-! ### What a request draws -/

@[simp] theorem State.draw_out (s : State) : s.draw.2.out = s.out := rfl

theorem State.draw_onlyIn (s : State) : OnlyIn [.trust] s s.draw.2 := onlyIn_iff.mpr (by simp [State.draw])

theorem State.draw_link (s : State) (l : Nat) : s.draw.2.link l = s.link l := rfl

/-- A signature is drawn, and the answer that carries it is all that is seen. -/
theorem State.signed_reply (s : State) (c : SpdmCh) (r : BitVec 768 → Spdm) :
    ∃ u sig, (s.signed.2.reply c (r s.signed.1)) = u ∧ u.out = s.out ++ [.spdm c (r sig)] ∧ OnlyIn [.out, .trust] s u :=
  ⟨_, s.signed.1, rfl, rfl, onlyIn_iff.mpr (by simp [State.signed, State.draw, State.reply, State.emit])⟩

/-- The blocks that a GET_MEASUREMENTS index names (R83, R84). -/
def State.measuredAt (s : State) (i : Nat) : Option (List (Nat × List Byte)) :=
  if i == 0 then some [(0, [6])]
  else if i ≤ 6 then some [(i, s.block i)]
  else if i == 0xFF then some (([1, 2, 3, 4, 5, 6] : List Nat).map (fun i => (i, s.block i)))
  else none

theorem State.measuredAt_one (s : State) {i : Nat} (low : 1 ≤ i) (high : i ≤ 6) : s.measuredAt i = some [(i, s.block i)] :=
  (if_neg (by simp; omega)).trans (if_pos high)

theorem State.measuredAt_none (s : State) {i : Nat} (high : 6 < i) (some' : i ≠ 0xFF) : s.measuredAt i = none :=
  (if_neg (by simp; omega)).trans ((if_neg (by omega)).trans (if_neg (by simp [some'])))

theorem State.measuredAt_some (s : State) {i : Nat} (known : i ≤ 6 ∨ i = 0xFF) : ∃ bs, s.measuredAt i = some bs := by
  rcases known with low | rfl
  · by_cases zero : i = 0
    · exact ⟨_, if_pos (by simp [zero])⟩
    · exact ⟨_, s.measuredAt_one (by omega) low⟩
  · exact ⟨_, rfl⟩

section Responder
variable {s : State} {l : Nat} {n : Option Nat} (there : s.linkExists l = true) (up : (s.link l).up = true)

section Served
variable (serves : s.serves = true)
include there up serves

/-! ### Certificates and measurements (R82, R83) -/

theorem exec_getCertificate_host (slot off len : Nat) : exec (.getCertificate (.host l n) slot off len) s =
    .next (s.emit (.spdm (.host l n) (if slot = 0 ∧ off < s.chain.length then
      .certificate ((s.chain.drop off).take (min len 1024)) (s.chain.length - off - min (min len 1024) (s.chain.length - off))
    else .errorInvalidRequest))) := by
  refine congrArg Host.Outcome.next ((State.spdm_host there up serves ..).trans ?_)
  simp [State.reply, Nat.min_comm, Nat.min_left_comm]

theorem exec_challenge_host {t : Nat} {h : Option Digest} (known : s.summary t = some h) (entropy : s.noEntropy = false) :
    exec (.challenge (.host l n) 0 t) s = .next (s.signed.2.reply (.host l n) (.challengeAuth h s.signed.1)) := by
  refine congrArg Host.Outcome.next ((State.spdm_host there up serves ..).trans ?_)
  simp [known, entropy]

theorem exec_challenge_host_bad {slot t : Nat} (bad : slot ≠ 0 ∨ s.summary t = none) :
    exec (.challenge (.host l n) slot t) s = .next (s.emit (.spdm (.host l n) .errorInvalidRequest)) := by
  refine congrArg Host.Outcome.next ((State.spdm_host there up serves ..).trans ?_)
  cases known : s.summary t with
  | none => rfl
  | some h => exact if_pos (by simpa [known] using bad)

theorem exec_challenge_host_noEntropy {t : Nat} (known : s.summary t ≠ none) (dry : s.noEntropy = true) :
    exec (.challenge (.host l n) 0 t) s = .next (s.emit (.spdm (.host l n) (.refused 0x0107))) := by
  obtain ⟨h, known⟩ := Option.ne_none_iff_exists'.mp known
  refine congrArg Host.Outcome.next ((State.spdm_host there up serves ..).trans ?_)
  simp [known, dry, State.reply]

theorem exec_getMeasurements_host {i : Nat} {sig : Bool} {bs : List (Nat × List Byte)} (asked : s.measuredAt i = some bs)
    (entropy : s.noEntropy = false) : exec (.getMeasurements (.host l n) i sig) s =
      .next (if sig then s.signed.2.reply (.host l n) (.measurements bs (some s.signed.1))
        else s.emit (.spdm (.host l n) (.measurements bs none))) := by
  refine congrArg Host.Outcome.next ((State.spdm_host there up serves ..).trans ?_)
  rw [State.measuredAt] at asked
  simp only [asked, entropy, Bool.false_eq_true, if_false]
  rfl

theorem exec_getMeasurements_host_bad {i : Nat} {sig : Bool} (unknown : s.measuredAt i = none) :
    exec (.getMeasurements (.host l n) i sig) s = .next (s.emit (.spdm (.host l n) .errorInvalidRequest)) := by
  refine congrArg Host.Outcome.next ((State.spdm_host there up serves ..).trans ?_)
  rw [State.measuredAt] at unknown
  simp only [unknown]
  rfl

theorem exec_getMeasurements_host_noEntropy {i : Nat} {sig : Bool} {bs : List (Nat × List Byte)} (asked : s.measuredAt i = some bs)
    (dry : s.noEntropy = true) :
    exec (.getMeasurements (.host l n) i sig) s = .next (s.emit (.spdm (.host l n) (.refused 0x0107))) := by
  refine congrArg Host.Outcome.next ((State.spdm_host there up serves ..).trans ?_)
  rw [State.measuredAt] at asked
  simp only [asked, dry, if_true]
  rfl

theorem signs_measurements {i : Nat} {bs : List (Nat × List Byte)} (asked : s.measuredAt i = some bs) (entropy : s.noEntropy = false) :
    ∃ u sig, exec (.getMeasurements (.host l n) i true) s = .next u ∧
      u.out = s.out ++ [.spdm (.host l n) (.measurements bs (some sig))] ∧ OnlyIn [.out, .trust] s u := by
  obtain ⟨u, sig, made, out, only⟩ := s.signed_reply (.host l n) (fun g => .measurements bs (some g))
  exact ⟨u, sig, (exec_getMeasurements_host there up serves asked entropy).trans (congrArg _ made), out, only⟩

/-! ### Sessions (R84, R85) -/

theorem exec_keyExchange_host_bad {slot t : Nat} {p : Bool} (bad : slot ≠ 0 ∨ s.summary t = none ∨ p = false) :
    exec (.keyExchange (.host l n) slot t p) s = .next (s.emit (.spdm (.host l n) .errorInvalidRequest)) := by
  refine congrArg Host.Outcome.next ((State.spdm_host there up serves ..).trans ?_)
  cases known : s.summary t with
  | none => rfl
  | some h => exact if_pos (by simpa [known] using bad)

theorem exec_keyExchange_host_noEntropy {t : Nat} (known : s.summary t ≠ none) (dry : s.noEntropy = true) :
    exec (.keyExchange (.host l n) 0 t true) s = .next (s.emit (.spdm (.host l n) (.refused 0x0107))) := by
  obtain ⟨h, known⟩ := Option.ne_none_iff_exists'.mp known
  refine congrArg Host.Outcome.next ((State.spdm_host there up serves ..).trans ?_)
  simp [known, dry, State.reply]

theorem exec_keyExchange_host_full {t : Nat} {h : Option Digest} (known : s.summary t = some h) (entropy : s.noEntropy = false)
    (full : 4 ≤ (s.link l).sessions.length) :
    exec (.keyExchange (.host l n) 0 t true) s = .next (s.emit (.spdm (.host l n) .errorSessionLimit)) := by
  refine congrArg Host.Outcome.next ((State.spdm_host there up serves ..).trans ?_)
  simp [known, entropy, full, State.reply]

theorem exec_keyExchange_host {t : Nat} {h : Option Digest} (known : s.summary t = some h) (entropy : s.noEntropy = false)
    (room : (s.link l).sessions.length < 4) : exec (.keyExchange (.host l n) 0 t true) s =
      .next ((s.draw.2.modLink l (fun x => { x with
        nextSession := ((s.link l).nextSession + 1) % 2 ^ 32
        sessions := x.sessions ++ [{ id := (s.link l).nextSession, key := s.draw.1.setWidth 256 }] })).emit
          (.spdm (.host l n) (.keyExchangeRsp (s.link l).nextSession h false))) := by
  refine congrArg Host.Outcome.next ((State.spdm_host there up serves ..).trans ?_)
  simp only [known, entropy, Nat.not_le.mpr room]
  rfl

theorem opens_session {t : Nat} {h : Option Digest} (known : s.summary t = some h) (entropy : s.noEntropy = false)
    (room : (s.link l).sessions.length < 4) :
    ∃ u k, exec (.keyExchange (.host l n) 0 t true) s = .next u ∧ u.link l = { s.link l with
        nextSession := ((s.link l).nextSession + 1) % 2 ^ 32
        sessions := (s.link l).sessions ++ [{ id := (s.link l).nextSession, established := false, key := k }] } ∧
      u.out = s.out ++ [.spdm (.host l n) (.keyExchangeRsp (s.link l).nextSession h false)] ∧
      (∀ j, j ≠ l → u.link j = s.link j) ∧ OnlyIn [.out, .trust, .host] s u :=
  ⟨_, s.draw.1.setWidth 256, exec_keyExchange_host there up serves known entropy room, by simp [State.modLink_same, State.draw_link],
    by simp [State.emit], fun j hj => by simp [State.modLink_ne _ _ _ hj, State.draw_link],
    onlyIn_iff.mpr (by simp [State.draw])⟩

theorem exec_finish_host {x : Session} (held : x ∈ (s.link l).sessions) (unproved : x.established = false) (inside : n = some x.id) :
    exec (.finish (.host l n) x.id true) s = .next ((s.modLink l (fun y => { y with
      sessions := y.sessions.map (fun z => if z.id == x.id then { z with established := true } else z) })).emit
        (.spdm (.host l n) (.finishRsp x.id))) := by
  have found : (s.link l).sessions.any (fun y => y.id == x.id && !y.established) = true :=
    List.any_eq_true.mpr ⟨x, held, by simp [unproved]⟩
  exact congrArg Host.Outcome.next ((State.spdm_host there up serves ..).trans (if_pos (by rw [found, inside]; simp)))

theorem exec_finish_host_bad {x : Nat} {sig : Bool}
    (bad : sig = false ∨ n ≠ some x ∨ ∀ y ∈ (s.link l).sessions, y.id = x → y.established = true) :
    exec (.finish (.host l n) x sig) s = .next (s.emit (.spdm (.host l n) .errorInvalidRequest)) := by
  refine congrArg Host.Outcome.next ((State.spdm_host there up serves ..).trans (if_neg fun good => ?_))
  simp only [Bool.and_eq_true, List.any_eq_true, beq_iff_eq, Bool.not_eq_true'] at good
  obtain ⟨⟨signed, inside⟩, y, held, same, unproved⟩ := good
  rcases bad with unsigned | outside | proved
  · exact absurd (signed.symm.trans unsigned) (by decide)
  · exact outside inside
  · exact absurd (unproved.symm.trans (proved y held same)) (by decide)

theorem finishes_session {x : Session} (only : (s.link l).sessions = [x]) (unproved : x.established = false) (inside : n = some x.id) :
    ∃ u, exec (.finish (.host l n) x.id true) s = .next u ∧
      u.link l = { s.link l with sessions := [{ x with established := true }] } ∧
      u.out = s.out ++ [.spdm (.host l n) (.finishRsp x.id)] ∧ (∀ j, j ≠ l → u.link j = s.link j) ∧ OnlyIn [.out, .host] s u :=
  ⟨_, exec_finish_host there up serves (by simp [only]) unproved inside, by simp [State.modLink_same, only], by simp [State.emit],
    fun j hj => by simp [State.modLink_ne _ _ _ hj], onlyIn_iff.mpr (by simp)⟩

theorem exec_endSession_host {x : Nat} (held : ∃ y ∈ (s.link l).sessions, y.id = x) :
    exec (.endSession (.host l (some x))) s =
      .next (({ s.modLink l (fun y => { y with sessions := y.sessions.filter (fun z => z.id != x) }) with
        trust.shares := s.trust.shares.filter (fun e => !(e.2.link == l && e.2.session == x)) } : State).emit
          (.spdm (.host l (some x)) .endSessionAck)) := by
  obtain ⟨y, held, same⟩ := held
  have found : (s.link l).sessions.any (fun z => z.id == x) = true := List.any_eq_true.mpr ⟨y, held, by simp [same]⟩
  exact congrArg Host.Outcome.next ((State.spdm_host there up serves ..).trans (if_pos found))

theorem exec_endSession_host_bad (absent : ∀ y ∈ (s.link l).sessions, n ≠ some y.id) :
    exec (.endSession (.host l n)) s = .next (s.emit (.spdm (.host l n) .errorInvalidRequest)) := by
  refine congrArg Host.Outcome.next ((State.spdm_host there up serves ..).trans ?_)
  cases n with
  | none => rfl
  | some x =>
    refine if_neg fun found => ?_
    obtain ⟨y, held, same⟩ := List.any_eq_true.mp found
    exact absent y held (by simp [eq_of_beq same])

theorem ends_session {x : Nat} (held : ∃ y ∈ (s.link l).sessions, y.id = x) :
    ∃ u, exec (.endSession (.host l (some x))) s = .next u ∧
      u.link l = { s.link l with sessions := (s.link l).sessions.filter (fun y => y.id != x) } ∧
      (∀ e ∈ u.trust.shares, e.2.link ≠ l ∨ e.2.session ≠ x) ∧ u.out = s.out ++ [.spdm (.host l (some x)) .endSessionAck] ∧
      OnlyIn [.out, .host, .trust] s u := by
  refine ⟨_, exec_endSession_host there up serves held, ?_, ?_, by simp [State.emit], onlyIn_iff.mpr (by simp)⟩
  · exact State.modLink_same ..
  · intro e kept
    have gone : !(e.2.link == l && e.2.session == x) := (List.mem_filter.mp kept).2
    simpa [Decidable.imp_iff_not_or] using gone

end Served
end Responder

/-- Settles O55: the responder runs each request as its case gives it, and in Blank and Quarantine answers them all alike. -/
theorem hostSpdmCommandsComplete : Obligations.HostSpdmCommandsComplete := by
  intro s l n there up
  have host (serves : s.serves = true) := State.spdm_host there up serves n
  refine ⟨fun serves => ⟨?_, ?_, ?_, ?_, ?_, ?_, fun entropy => ⟨?_, ?_, ?_, ?_, ?_, ?_⟩, ?_, ?_, ?_, ?_, ?_, ?_⟩, ?_,
    fun serves => ⟨?_, ?_, ?_, fun dry => ⟨?_, ?_⟩, fun entropy => ⟨?_, ?_⟩, ?_, ?_, ?_, ?_, ?_, ?_⟩⟩
  · exact congrArg Host.Outcome.next (host serves ..)
  · exact fun _ => congrArg Host.Outcome.next (host serves ..)
  · exact fun _ => congrArg Host.Outcome.next (host serves ..)
  · exact congrArg Host.Outcome.next (host serves ..)
  · exact fun off len => (exec_getCertificate_host there up serves 0 off len).trans (by simp)
  · exact fun slot off len other => (exec_getCertificate_host there up serves slot off len).trans (by simp [other])
  · intro t h known
    obtain ⟨u, sig, made, out, only⟩ := s.signed_reply (.host l n) (.challengeAuth h)
    exact ⟨u, sig, (exec_challenge_host there up serves known entropy).trans (congrArg _ made), out, only⟩
  · exact exec_getMeasurements_host there up serves (i := 0) rfl entropy
  · exact fun i low high => exec_getMeasurements_host there up serves (s.measuredAt_one low high) entropy
  · exact signs_measurements there up serves rfl entropy
  · exact fun t h known room => opens_session there up serves known entropy room
  · exact fun t h known full => exec_keyExchange_host_full there up serves known entropy full
  · exact fun x => finishes_session there up serves
  · intro x inside held
    subst inside
    exact ends_session there up serves held
  · exact congrArg Host.Outcome.next (host serves ..)
  · exact fun _ => congrArg Host.Outcome.next (host serves ..)
  · exact congrArg Host.Outcome.next (host serves ..)
  · exact congrArg Host.Outcome.next (host serves ..)
  · intro awake shut c listed
    have answer := State.spdm_shut there up awake shut n
    simp only [List.mem_cons, List.not_mem_nil, or_false] at listed
    rcases listed with rfl | rfl | rfl | rfl | rfl | rfl | rfl <;> exact congrArg Host.Outcome.next (answer ..)
  · exact fun slot t => exec_challenge_host_bad there up serves
  · exact fun i sig high named => exec_getMeasurements_host_bad there up serves (s.measuredAt_none high named)
  · exact fun slot t p => exec_keyExchange_host_bad there up serves
  · exact fun t known => ⟨exec_challenge_host_noEntropy there up serves known dry,
      exec_keyExchange_host_noEntropy there up serves known dry⟩
  · intro i known sig
    obtain ⟨bs, asked⟩ := s.measuredAt_some known
    exact exec_getMeasurements_host_noEntropy there up serves asked dry
  · exact fun i low high => signs_measurements there up serves (s.measuredAt_one low high) entropy
  · exact exec_getMeasurements_host there up serves (i := 0xFF) rfl entropy
  · exact fun x => exec_finish_host there up serves
  · exact fun x sig => exec_finish_host_bad there up serves
  · exact exec_endSession_host_bad there up serves
  · exact congrArg Host.Outcome.next (host serves ..)
  · exact congrArg Host.Outcome.next (host serves ..)
  · exact congrArg Host.Outcome.next (host serves ..)

end Sys2Proof.Machine
end

