-- ==== Sys2Proof/Proofs/PeerSpdm.lean ====
section
/-! PROOFS. The session between two Crowns (R74, R75, R457, R473). -/

namespace Sys2Proof.Machine

/-! ### The peer is admitted (R457, R476) -/

/-- One ADMITTING link goes UP. -/
def State.raiseLink (s : State) (l : Nat) : State := if (s.blink l).state == .admitting then s.setBState l .up else s

theorem State.raiseLink_onlyIn (s : State) (l : Nat) : OnlyIn [.basket, .evt] s (s.raiseLink l) :=
  OnlyIn.ite (s.setBState_onlyIn l .up) (.refl _ s)

theorem State.setBState_samePeers (s : State) (l : Nat) (st : BState) : s.SamePeers (s.setBState l st) := by
  by_cases same : (s.blink l).state = st
  · rw [State.setBState_same _ _ same]
    exact .refl s
  · rw [State.setBState_other _ _ same]
    exact (s.modBlink_samePeers l (BLink.enters st)).trans (.of_basket (by simp))

theorem State.raiseLink_samePeers (s : State) (l : Nat) : s.SamePeers (s.raiseLink l) := by
  unfold State.raiseLink
  split
  · exact s.setBState_samePeers l .up
  · exact .refl s

theorem State.raiseLink_up (s : State) {l : Nat} (st : (s.blink l).state = .admitting ∨ (s.blink l).state = .up) :
    ((s.raiseLink l).blink l).state = .up := by
  rcases st with admitting | up
  · rw [State.raiseLink, if_pos (by simp [admitting]), State.setBState_blink _ _ (by simp [admitting])]
    rfl
  · rw [State.raiseLink, if_neg (by simp [up]), up]

theorem State.raiseLink_ne (s : State) {l j : Nat} (hj : j ≠ l) : (s.raiseLink l).blink j = s.blink j := by
  unfold State.raiseLink
  split
  · next admitting =>
    have other : (s.blink l).state ≠ .up := by simp [eq_of_beq admitting]
    exact State.setBState_blink_ne _ _ other hj
  · rfl

/-- Every ADMITTING link of a list goes UP, and one that is UP stays. -/
theorem State.raiseLinks_up (ls : List Nat) : ∀ (s : State) (j : Nat),
    ((s.blink j).state = .admitting ∧ j ∈ ls ∨ (s.blink j).state = .up) → ((ls.foldl State.raiseLink s).blink j).state = .up := by
  induction ls with
  | nil => exact fun s j st => st.elim (fun h => nomatch h.2) id
  | cons l ls ih =>
    intro s j st
    refine ih _ j ?_
    by_cases hj : j = l
    · subst hj
      exact .inr (s.raiseLink_up (st.imp And.left id))
    · rw [s.raiseLink_ne hj]
      exact st.imp (fun h => ⟨h.1, (List.mem_cons.mp h.2).resolve_left hj⟩) id

/-- What the admission of a peer leaves. -/
structure State.Admits (s : State) (n : Nat) (t : State) : Prop where
  state : (t.peer n).state = .admitted
  spdm : (t.peer n).spdm = 11
  session : (t.peer n).session ≠ none
  up : ∀ j ∈ s.peerLinks n, (s.blink j).state = .admitting → (t.blink j).state = .up
  out : t.out = s.out
  only : OnlyIn [.basket, .trust, .evt] s t

theorem State.admitPeer_admits (s : State) (n : Nat) : s.Admits n (s.admitPeer n) := by
  let t : State := s.draw.2.modPeer n (fun p => { p with state := .admitted, spdm := 11, session := some (s.draw.1.setWidth 256) })
  have raised : s.admitPeer n = (s.peerLinks n).foldl State.raiseLink t := rfl
  have entered : OnlyIn [.basket, .trust] s t := onlyIn_iff.mpr (by simp [t, State.draw])
  have fold : OnlyIn [.basket, .evt] t (s.admitPeer n) := foldl_onlyIn _ State.raiseLink_onlyIn _ _
  have peer : (s.admitPeer n).peer n = t.peer n :=
    congrArg (fun ps : Tbl Peer => ps.get ({} : Peer) n) (foldl_samePeers _ State.raiseLink_samePeers (s.peerLinks n) t).peers
  have record : t.peer n = { s.peer n with state := .admitted, spdm := 11, session := some (s.draw.1.setWidth 256) } :=
    State.modPeer_same ..
  refine ⟨by rw [peer, record], by rw [peer, record], by rw [peer, record]; simp, fun j listed admitting => ?_, fold.agree .out (by decide),
    OnlyIn.comp (entered.mono (by simp)) (fold.mono (by simp))⟩
  rw [raised]
  exact State.raiseLinks_up _ t j (.inl ⟨admitting, listed⟩)

/-! ### The attempt ends (R75, R457, R473) -/

theorem State.fencePeer_fenced (s : State) (n cause : Nat) (dead : Option Nat) : ((s.fencePeer n cause dead).peer n).state = .fenced := by
  by_cases before : (s.peer n).state = .fenced
  · rw [State.fencePeer, if_pos (by simp [before]), before]
  · rw [State.fencePeer_peer before]
    rfl

/-- The peer is fenced, and nothing of the exchange is left. -/
theorem State.admissionRefused_peer (s : State) (l : Nat) :
    ((s.admissionRefused l).peer (s.peerOf l)).state = .fenced ∧ ((s.admissionRefused l).peer (s.peerOf l)).spdm = 0 ∧
      ((s.admissionRefused l).peer (s.peerOf l)).session = none := by
  rw [State.admissionRefused, State.modPeer_same]
  exact ⟨State.fencePeer_fenced .., rfl, rfl⟩

/-! ### One step of the exchange (R75) -/

section Admitting
variable {s : State} {l n : Nat} (serves : s.serves = true) (admitting : (s.blink l).state = .admitting)

section Carried
include serves admitting

/-- A peer's request on a link in ADMITTING is looked at. -/
theorem State.spdm_border (host : Nat → Option Nat → State → State) (border : Nat → State → State) :
    s.spdm (.border l) host border = border l s := if_pos (by simp [serves, admitting])

theorem State.spdmBack_border (f : Nat → State → State) : s.spdmBack l f = f l s := if_pos (by simp [serves, admitting])

end Carried

section Known
variable (of : s.peerOf l = n)
include of

theorem State.answerPeer_answers {stages : List Nat} {next : Nat} {ok : Bool} {r : Spdm} (responds : s.responds l = true)
    (stage : (s.peer n).spdm ∈ stages) (good : ok = true) :
    s.answerPeer l stages next ok r = (s.modPeer n (fun p => { p with spdm := next })).emit (.spdm (.border l) r) := by
  subst of
  exact if_pos (by simp [responds, stage, good])

theorem State.answerPeer_refuses {stages : List Nat} {next : Nat} {ok : Bool} {r : Spdm}
    (bad : (s.peer n).spdm ∉ stages ∨ ok = false) : s.answerPeer l stages next ok r = s.admissionRefused l := by
  subst of
  exact if_neg (by rcases bad with stage | wrong <;> simp [*])

end Known

theorem State.modPeer_modPeer (s : State) (n : Nat) (m k : Peer → Peer) :
    (s.modPeer n m).modPeer n k = s.modPeer n (fun x => k (m x)) := by
  simp only [State.modPeer, Tbl.mod, Tbl.get_set_same, Tbl.set_set]

@[simp] theorem State.modPeer_responds (s : State) (n l : Nat) (m : Peer → Peer) : (s.modPeer n m).responds l = s.responds l := rfl

@[simp] theorem State.modPeer_peerOf (s : State) (n l : Nat) (m : Peer → Peer) : (s.modPeer n m).peerOf l = s.peerOf l := rfl

/-- The record of the peer changes and an answer goes out. -/
theorem State.answers_effect (s : State) (n l : Nat) (m : Peer → Peer) (r : Spdm) (t : State)
    (made : t = (s.modPeer n m).emit (.spdm (.border l) r)) :
    t.peer n = m (s.peer n) ∧ t.out = s.out ++ [.spdm (.border l) r] ∧ (∀ j, t.blink j = s.blink j) ∧ OnlyIn [.out, .basket] s t := by
  subst made
  exact ⟨by simp [State.modPeer_same], by simp [State.emit], fun j => by simp, onlyIn_iff.mpr (by simp)⟩

/-- The record of the peer changes and the next request goes out. -/
theorem State.asks_effect (s : State) (n q : Nat) (m : Peer → Peer) (session : (m (s.peer n)).session = (s.peer n).session) (t : State)
    (made : t = (s.modPeer n m).sendMgmt n (.spdm q)) :
    t.peer n = m (s.peer n) ∧ t.out = s.out ++ [.mgmt n (.spdm q) (s.peer n).session] ∧ (∀ j, t.blink j = s.blink j) ∧
      OnlyIn [.out, .basket] s t := by
  subst made
  exact ⟨by simp [State.sendMgmt, State.modPeer_same], by simp [State.sendMgmt, State.emit, State.modPeer_same, session],
    fun j => by simp [State.sendMgmt], onlyIn_iff.mpr (by simp [State.sendMgmt])⟩

section Rows
variable (of : s.peerOf l = n)
include serves admitting of

/-- A request in its order moves the exchange one stage on. -/
theorem peer_answered (responds : s.responds l = true) {c : Instr} {k m : Nat} {r : Spdm}
    (row : (c, k, m, r) ∈ ([(.getVersion (.border l), 1, 2, .version [0x12]),
      (.getCapabilities (.border l) (capsOf true), 2, 3, .capabilities (capsOf true) 20 4096 4096),
      (.negotiateAlgorithms (.border l) (algsOf true), 3, 4, .algorithms (algsOf true)),
      (.getDigests (.border l), 4, 5, .digests (Config.sha384 s.chain)),
      (.getEncapsulatedRequest (.border l), 7, 8, .encapsulatedRequest false),
      (.deliverEncapsulatedResponse (.border l) .digests, 8, 9, .encapsulatedRequest true)] : List (Instr × Nat × Nat × Spdm)))
    (stage : (s.peer n).spdm = k) :
    exec c s = .next ((s.modPeer n (fun p => { p with spdm := m })).emit (.spdm (.border l) r)) := by
  have border := State.spdm_border serves admitting
  have answers : s.answerPeer l [k] m true r = _ := State.answerPeer_answers of responds (by simp [stage]) rfl
  simp only [List.mem_cons, Prod.mk.injEq, List.not_mem_nil, or_false] at row
  rcases row with ⟨rfl, rfl, rfl, rfl⟩ | ⟨rfl, rfl, rfl, rfl⟩ | ⟨rfl, rfl, rfl, rfl⟩ | ⟨rfl, rfl, rfl, rfl⟩ | ⟨rfl, rfl, rfl, rfl⟩ |
    ⟨rfl, rfl, rfl, rfl⟩ <;> exact congrArg Host.Outcome.next ((border ..).trans answers)

/-- A response in its order brings the next request. -/
theorem peer_asked (asks : s.responds l = false) {r : PeerResponse} {k q : Nat}
    (row : (r, k, q) ∈ ([(.version true, 1, 0xE1), (.capabilities (capsOf true), 2, 0xE3), (.algorithms (algsOf true), 3, 0x81),
      (.digests, 4, 0x82), (.keyExchangeRsp true true, 6, 0xEA), (.encapsulatedGetDigests, 7, 0xEB),
      (.encapsulatedGetCertificate 0, 8, 0xEB), (.encapsulatedAck, 9, 0xE5)] : List (PeerResponse × Nat × Nat)))
    (stage : (s.peer n).spdm = k) :
    exec (.peerSpdmResponse l r) s = .next ((s.modPeer n (fun p => { p with spdm := k + 1 })).sendMgmt n (.spdm q)) := by
  have border := State.spdmBack_border serves admitting
  subst of
  simp only [List.mem_cons, Prod.mk.injEq, List.not_mem_nil, or_false] at row
  rcases row with ⟨rfl, rfl, rfl⟩ | ⟨rfl, rfl, rfl⟩ | ⟨rfl, rfl, rfl⟩ | ⟨rfl, rfl, rfl⟩ | ⟨rfl, rfl, rfl⟩ | ⟨rfl, rfl, rfl⟩ |
    ⟨rfl, rfl, rfl⟩ | ⟨rfl, rfl, rfl⟩ <;>
    exact congrArg Host.Outcome.next ((border ..).trans ((if_pos (by simp [asks, stage])).trans
      (by rw [State.askNext, stage]; rfl)))

theorem exec_finish_peer (responds : s.responds l = true) (stage : (s.peer n).spdm = 10) (good : (s.peer n).chainOk = true) (x : Nat) :
    exec (.finish (.border l) x true) s = .next ((s.admitPeer n).emit (.spdm (.border l) (.finishRsp x))) := by
  subst of
  exact congrArg Host.Outcome.next ((State.spdm_border serves admitting ..).trans (if_pos (by simp [responds, stage, good])))

theorem exec_finish_peer_bad {x : Nat} {ok : Bool} (bad : (s.peer n).spdm ≠ 10 ∨ (s.peer n).chainOk = false ∨ ok = false) :
    exec (.finish (.border l) x ok) s = .next (s.admissionRefused l) := by
  subst of
  exact congrArg Host.Outcome.next ((State.spdm_border serves admitting ..).trans
    (if_neg (by rcases bad with stage | wrong | wrong <;> simp [*])))

theorem exec_finishRsp_peer (asks : s.responds l = false) (stage : (s.peer n).spdm = 10) (good : (s.peer n).chainOk = true) :
    exec (.finishRsp l) s = .next (s.admitPeer n) := by
  subst of
  exact congrArg Host.Outcome.next ((State.spdmBack_border serves admitting ..).trans (if_pos (by simp [asks, stage, good])))

theorem exec_finishRsp_peer_bad (bad : (s.peer n).spdm ≠ 10 ∨ (s.peer n).chainOk = false) :
    exec (.finishRsp l) s = .next (s.admissionRefused l) := by
  subst of
  exact congrArg Host.Outcome.next ((State.spdmBack_border serves admitting ..).trans
    (if_neg (by rcases bad with stage | wrong <;> simp [*])))

theorem exec_getCertificate_peer (responds : s.responds l = true) {off len : Nat} (inside : off < s.chain.length)
    (stage : (s.peer n).spdm = 5 ∨ (s.peer n).spdm = 6) : ∃ rest, exec (.getCertificate (.border l) 0 off len) s =
      .next ((s.modPeer n (fun p => { p with spdm := 6 })).emit
        (.spdm (.border l) (.certificate ((s.chain.drop off).take (min len 1024)) rest))) :=
  ⟨_, congrArg Host.Outcome.next ((State.spdm_border serves admitting ..).trans
    (State.answerPeer_answers of responds (by simpa using stage) (by simp [inside])))⟩

theorem exec_keyExchange_peer (responds : s.responds l = true) (stage : (s.peer n).spdm = 6) (entropy : s.noEntropy = false) :
    ∃ r, exec (.keyExchange (.border l) 0 0xFF true) s =
      .next ((s.modPeer n (fun p => { p with spdm := 7 })).emit (.spdm (.border l) (.keyExchangeRsp 0 r true))) :=
  ⟨_, congrArg Host.Outcome.next ((State.spdm_border serves admitting ..).trans
    (State.answerPeer_answers of responds (by simp [stage]) (by simp [entropy])))⟩

/-- The requester's chain that verifies is acknowledged. -/
theorem exec_deliverCertificate_peer (responds : s.responds l = true) (stage : (s.peer n).spdm = 9) {p : PeerChain}
    (good : s.chainGood n p = true) : exec (.deliverEncapsulatedResponse (.border l) (.certificate p)) s =
      .next ((s.modPeer n (fun x => { x with spdm := 10, chainOk := true })).emit (.spdm (.border l) .encapsulatedAck)) := by
  subst of
  have noted : ((s.modPeer (s.peerOf l) (fun x => { x with chainOk := true })).peer (s.peerOf l)).spdm ∈ [9] := by
    rw [State.modPeer_same]
    exact List.mem_singleton.mpr stage
  refine congrArg Host.Outcome.next ((State.spdm_border serves admitting ..).trans ?_)
  simp only [good]
  rw [State.answerPeer_answers (State.modPeer_peerOf ..) ((State.modPeer_responds ..).trans responds) noted rfl,
    State.modPeer_modPeer]

theorem exec_deliverCertificate_peer_bad {p : PeerChain} (bad : s.chainGood n p = false) :
    exec (.deliverEncapsulatedResponse (.border l) (.certificate p)) s =
      .next ((s.modPeer n (fun x => { x with chainOk := false })).admissionRefused l) := by
  subst of
  refine congrArg Host.Outcome.next ((State.spdm_border serves admitting ..).trans
    ((State.answerPeer_refuses rfl (.inr bad)).trans ?_))
  rw [bad]

/-- The responder's chain that verifies brings KEY_EXCHANGE. -/
theorem exec_peerCertificate (asks : s.responds l = false) (stage : (s.peer n).spdm = 5) (entropy : s.noEntropy = false) {p : PeerChain}
    (good : s.chainGood n p = true) : exec (.peerSpdmResponse l (.certificate p)) s =
      .next ((s.modPeer n (fun x => { x with spdm := 6, chainOk := true })).sendMgmt n (.spdm 0xE4)) := by
  subst of
  refine congrArg Host.Outcome.next ((State.spdmBack_border serves admitting ..).trans ((if_pos ?_).trans ?_))
  · simp [asks, stage, good, entropy]
  · rw [State.askNext, State.modPeer_same, stage, good]
    exact congrArg (State.sendMgmt · _ _) (State.modPeer_modPeer ..)

theorem exec_peerCertificate_bad {p : PeerChain} (bad : s.chainGood n p = false) :
    exec (.peerSpdmResponse l (.certificate p)) s = .next ((s.modPeer n (fun x => { x with chainOk := false })).admissionRefused l) := by
  subst of
  refine congrArg Host.Outcome.next ((State.spdmBack_border serves admitting ..).trans ((if_neg (by simp [bad])).trans ?_))
  rw [bad]

end Rows
end Admitting

/-- Settles O56: each message in its order by its equation, the last by what admission leaves, and any other ends the attempt. -/
theorem peerSpdmCommandsComplete : Obligations.PeerSpdmCommandsComplete := by
  intro s l n serves admitting of
  have border := State.spdm_border serves admitting
  have back := State.spdmBack_border serves admitting
  have refusedPeer := of ▸ s.admissionRefused_peer l
  refine ⟨fun responds => ⟨fun c k m r row stage => ?_, fun x stage good => ?_⟩,
    fun asks => ⟨fun r k q row stage => ?_, fun stage good => ?_, ?_⟩,
    fun responds => ⟨fun off len inside stage => ?_, fun stage entropy => ?_, fun p stage => ?_, fun stage => ?_, fun stage => ?_,
      fun x ok bad => exec_finish_peer_bad serves admitting of bad⟩,
    fun asks => ⟨fun p stage entropy => ?_, exec_finishRsp_peer_bad serves admitting of⟩, fun t k => ⟨?_, ?_, ?_⟩⟩
  · exact ⟨_, peer_answered serves admitting of responds row stage, s.answers_effect n l _ _ _ rfl⟩
  · have admits := s.admitPeer_admits n
    exact ⟨_, exec_finish_peer serves admitting of responds stage good x, admits.state, admits.spdm, admits.session, admits.up,
      congrArg (· ++ _) admits.out, OnlyIn.comp (admits.only.mono (by simp)) (onlyIn_iff.mpr (by simp))⟩
  · exact ⟨_, peer_asked serves admitting of asks row stage, s.asks_effect n q _ rfl _ rfl⟩
  · have admits := s.admitPeer_admits n
    exact ⟨_, exec_finishRsp_peer serves admitting of asks stage good, admits.state, admits.spdm, admits.session, admits.up, admits.only⟩
  · exact ⟨_, congrArg Host.Outcome.next (back ..), refusedPeer⟩
  · obtain ⟨rest, runs⟩ := exec_getCertificate_peer serves admitting of responds (len := len) inside stage
    obtain ⟨record, out, -, only⟩ := s.answers_effect n l _ _ _ rfl
    exact ⟨_, _, rest, runs, record, rfl, out, only⟩
  · obtain ⟨r, runs⟩ := exec_keyExchange_peer serves admitting of responds stage entropy
    obtain ⟨record, out, -, only⟩ := s.answers_effect n l _ _ _ rfl
    exact ⟨_, r, runs, record, out, only⟩
  · cases good : s.chainGood n p with
    | true =>
      obtain ⟨record, out, -, only⟩ := s.answers_effect n l _ _ _ rfl
      exact ⟨_, exec_deliverCertificate_peer serves admitting of responds stage good, fun _ => ⟨record, out, only⟩, fun bad => nomatch bad⟩
    | false => exact ⟨_, exec_deliverCertificate_peer_bad serves admitting of good, fun yes => (nomatch yes), fun _ => rfl⟩
  · exact congrArg Host.Outcome.next ((border ..).trans (State.answerPeer_refuses of (.inl (by simpa using stage))))
  · exact congrArg Host.Outcome.next ((border ..).trans (State.answerPeer_refuses of (.inl (by simpa using stage))))
  · cases good : s.chainGood n p with
    | true =>
      obtain ⟨record, out, -, only⟩ := s.asks_effect n 0xE4 (fun x => { x with spdm := 6, chainOk := true }) rfl _ rfl
      exact ⟨_, exec_peerCertificate serves admitting of asks stage entropy good, fun _ => ⟨record, out, only⟩, fun bad => nomatch bad⟩
    | false => exact ⟨_, exec_peerCertificate_bad serves admitting of good, fun yes => (nomatch yes), fun _ => rfl⟩
  · exact congrArg Host.Outcome.next (border ..)
  · exact congrArg Host.Outcome.next (border ..)
  · exact congrArg Host.Outcome.next (back ..)

end Sys2Proof.Machine
end

