-- ==== Sys2Proof/Proofs/SecureSessions.lean ====
section
/-! PROOFS. What a secure session carries (R84, R88-R93, R98, R659). -/

namespace Sys2Proof.Machine

/-! ### What a secure session carries (R84, R92) -/

section Channel
variable {s : State} {l : Nat} (serves : s.serves = true) (there : s.linkExists l = true) (up : (s.link l).up = true)
include serves there up

/-- In an established session the request is served. -/
theorem State.inSpdm_served {n : Option Nat} (inside : s.inSession l n = true) (out : Spdm) (f : Nat → State → State) :
    s.inSpdm (.host l n) out f = f l s := (State.spdm_host there up serves ..).trans (if_pos inside)

/-- Outside it is answered with the error of its kind. -/
theorem State.inSpdm_outside {n : Option Nat} (outside : s.inSession l n = false) (out : Spdm) (f : Nat → State → State) :
    s.inSpdm (.host l n) out f = s.emit (.spdm (.host l n) out) :=
  (State.spdm_host there up serves ..).trans (if_neg (by simp [outside]))

section Session
variable {n : Option Nat} (inside : s.inSession l n = true) {vf : Nat}
include inside

/-- A TDISP request reaches the glove of a VF that appears. -/
theorem State.tdisp_served (named : 0 < vf) (enabled : s.fnEnabled ⟨l, vf⟩ = true) (f : Nat → Nat → State → State) :
    s.tdisp (.host l n) vf f = f l (s.gloveOf ⟨l, vf⟩) s :=
  (State.inSpdm_served serves there up inside ..).trans (if_neg (by simp [enabled]; omega))

theorem State.tdisp_unnamed (absent : vf = 0 ∨ s.fnEnabled ⟨l, vf⟩ = false) (f : Nat → Nat → State → State) :
    s.tdisp (.host l n) vf f = s.emit (.spdm (.host l n) .tdispErrorInterface) :=
  (State.inSpdm_served serves there up inside ..).trans (if_pos (by simpa using absent))

/-! ### IDE key management (R88-R91) -/

theorem exec_ideKmKeyProg {id : Nat} (held : (s.link l).ide.any (fun i => i.id == id) = true) (slot : IdeSlot) (key : Key) :
    exec (.ideKmKeyProg (.host l n) id slot ⟨true, true, false, false⟩ key) s =
      .next ((s.modStream l id (fun i => { i with keys := i.keys.filter (fun x => x.1 != slot) ++ [(slot, key)] })).emit
        (.spdm (.host l n) (.ideKpAck true))) :=
  congrArg Host.Outcome.next ((State.inSpdm_served serves there up inside ..).trans (if_pos (by simpa using held)))

theorem exec_ideKmKeyProg_bad {id : Nat} {slot : IdeSlot} {mode : IdeMode} {key : Key}
    (bad : (mode.aes256gcm && mode.flit && !mode.aggregation && !mode.pcrc) = false ∨ ∀ i ∈ (s.link l).ide, i.id ≠ id) :
    exec (.ideKmKeyProg (.host l n) id slot mode key) s = .next (s.emit (.spdm (.host l n) (.ideKpAck false))) := by
  refine congrArg Host.Outcome.next ((State.inSpdm_served serves there up inside ..).trans (if_neg fun good => ?_))
  rw [Bool.and_eq_true, List.any_eq_true] at good
  obtain ⟨supported, i, held, same⟩ := good
  rcases bad with other | absent
  · exact absurd (supported.symm.trans other) (by decide)
  · exact absent i held (eq_of_beq same)

theorem exec_ideKmKSetGo (id ks : Nat) : exec (.ideKmKSetGo (.host l n) id ks) s =
    .next ((s.modStream l id (fun i => if IdeStream.keyed i ks then { i with secure := true, active := some ks } else i)).emit
      (.spdm (.host l n) .ideGoStopAck)) :=
  congrArg Host.Outcome.next (State.inSpdm_served serves there up inside ..)

theorem exec_ideKmKSetStop (id ks : Nat) : exec (.ideKmKSetStop (.host l n) id ks) s =
    .next ((s.modStream l id (fun i =>
      if i.active == some ks then { i with keys := i.keys.filter (fun x => x.1.keySet != ks), secure := false, active := none }
      else { i with keys := i.keys.filter (fun x => x.1.keySet != ks) })).emit (.spdm (.host l n) .ideGoStopAck)) :=
  congrArg Host.Outcome.next (State.inSpdm_served serves there up inside ..)

/-! ### TDISP (R93, R98, R659) -/

section Interface
variable (named : 0 < vf) (enabled : s.fnEnabled ⟨l, vf⟩ = true)
include named enabled

theorem exec_lockInterfaceRequest {m : Nat} (stream : s.tdiStream l vf = some m) (unlocked : (s.glove (s.gloveOf ⟨l, vf⟩)).tdi = .unlocked)
    (usable : (s.glove (s.gloveOf ⟨l, vf⟩)).state = .keyPending ∨ (s.glove (s.gloveOf ⟨l, vf⟩)).state = .opened)
    (tdisp : (s.glove (s.gloveOf ⟨l, vf⟩)).tdisp = true) (entropy : s.noEntropy = false) :
    exec (.lockInterfaceRequest (.host l n) vf) s =
      .next ((s.draw.2.modGlove (s.gloveOf ⟨l, vf⟩) (fun x => { x with
        tdi := .locked, stream := some m, nonce := s.draw.1.setWidth 256, lockPages := (s.heldOf (s.gloveOf ⟨l, vf⟩)).length })).emit
          (.spdm (.host l n) (.tdispLock (s.draw.1.setWidth 256)))) := by
  refine congrArg Host.Outcome.next ((State.tdisp_served serves there up inside named enabled _).trans ?_)
  simp only [stream]
  exact (if_neg (by rcases usable with state | state <;> simp [unlocked, state, tdisp])).trans (if_neg (by simp [entropy]))

theorem exec_lockInterfaceRequest_noEntropy {m : Nat} (stream : s.tdiStream l vf = some m)
    (unlocked : (s.glove (s.gloveOf ⟨l, vf⟩)).tdi = .unlocked)
    (usable : (s.glove (s.gloveOf ⟨l, vf⟩)).state = .keyPending ∨ (s.glove (s.gloveOf ⟨l, vf⟩)).state = .opened)
    (tdisp : (s.glove (s.gloveOf ⟨l, vf⟩)).tdisp = true) (dry : s.noEntropy = true) :
    exec (.lockInterfaceRequest (.host l n) vf) s = .next (s.emit (.spdm (.host l n) (.refused 0x0107))) := by
  refine congrArg Host.Outcome.next ((State.tdisp_served serves there up inside named enabled _).trans ?_)
  simp only [stream]
  exact (if_neg (by rcases usable with state | state <;> simp [unlocked, state, tdisp])).trans (if_pos dry)

theorem exec_lockInterfaceRequest_bad
    (bad : s.tdiStream l vf = none ∨ (s.glove (s.gloveOf ⟨l, vf⟩)).tdi ≠ .unlocked ∨ (s.glove (s.gloveOf ⟨l, vf⟩)).tdisp = false) :
    exec (.lockInterfaceRequest (.host l n) vf) s = .next (s.emit (.spdm (.host l n) .tdispErrorState)) := by
  refine congrArg Host.Outcome.next ((State.tdisp_served serves there up inside named enabled _).trans ?_)
  cases stream : s.tdiStream l vf with
  | none => rfl
  | some m => exact if_pos (by rcases bad with free | held | plain <;> simp_all)

theorem exec_startInterfaceRequest (locked : (s.glove (s.gloveOf ⟨l, vf⟩)).tdi = .locked)
    (opened : (s.glove (s.gloveOf ⟨l, vf⟩)).state = .opened) :
    exec (.startInterfaceRequest (.host l n) vf (s.glove (s.gloveOf ⟨l, vf⟩)).nonce) s =
      .next ((s.modGlove (s.gloveOf ⟨l, vf⟩) (fun x => { x with tdi := .run })).emit (.spdm (.host l n) .tdispStart)) :=
  congrArg Host.Outcome.next ((State.tdisp_served serves there up inside named enabled _).trans (if_pos (by simp [locked, opened])))

theorem exec_startInterfaceRequest_bad {nonce : BitVec 256}
    (bad : (s.glove (s.gloveOf ⟨l, vf⟩)).tdi ≠ .locked ∨ (s.glove (s.gloveOf ⟨l, vf⟩)).state ≠ .opened ∨
      nonce ≠ (s.glove (s.gloveOf ⟨l, vf⟩)).nonce) :
    exec (.startInterfaceRequest (.host l n) vf nonce) s = .next (s.emit (.spdm (.host l n) .tdispErrorState)) := by
  refine congrArg Host.Outcome.next ((State.tdisp_served serves there up inside named enabled _).trans (if_neg fun good => ?_))
  simp only [Bool.and_eq_true, beq_iff_eq] at good
  obtain ⟨⟨locked, opened⟩, same⟩ := good
  exact bad.elim (· locked) (Or.elim · (· opened) (· same.symm))

theorem exec_stopInterfaceRequest (held : (s.glove (s.gloveOf ⟨l, vf⟩)).tdi ≠ .unlocked) :
    exec (.stopInterfaceRequest (.host l n) vf) s =
      .next ((s.modGlove (s.gloveOf ⟨l, vf⟩) (fun x => { x with tdi := .unlocked, stream := none, nonce := 0 })).emit
        (.spdm (.host l n) .tdispStop)) :=
  congrArg Host.Outcome.next ((State.tdisp_served serves there up inside named enabled _).trans (if_neg (by simp [held])))

theorem exec_stopInterfaceRequest_bad (unlocked : (s.glove (s.gloveOf ⟨l, vf⟩)).tdi = .unlocked) :
    exec (.stopInterfaceRequest (.host l n) vf) s = .next (s.emit (.spdm (.host l n) .tdispErrorState)) :=
  congrArg Host.Outcome.next ((State.tdisp_served serves there up inside named enabled _).trans (if_pos (by simp [unlocked])))

end Interface
end Session
end Channel

/-- A stream's own change, and the answer. -/
theorem State.modStream_effect {s : State} {l : Nat} {i : IdeStream} (only : (s.link l).ide = [i]) (m : IdeStream → IdeStream)
    (c : SpdmCh) (r : Spdm) (t : State) (made : t = (s.modStream l i.id m).emit (.spdm c r)) :
    (t.link l).ide = [m i] ∧ t.out = s.out ++ [.spdm c r] ∧ (∀ j, j ≠ l → t.link j = s.link j) ∧ OnlyIn [.out, .host] s t := by
  subst made
  exact ⟨by simp [State.modStream, State.modLink_same, only], by simp [State.modStream, State.emit],
    fun j hj => by simp [State.modStream, State.modLink_ne _ _ _ hj], onlyIn_iff.mpr (by simp [State.modStream])⟩

/-- A key set with every sub-stream of both directions is whole. -/
theorem IdeStream.keyed_of {i : IdeStream} {ks : Nat} (whole : ∀ d < 2, ∀ b < 3, ∃ x ∈ i.keys, x.1 = ⟨ks, d, b⟩) : i.keyed ks = true := by
  have key (d : Nat) (hd : d < 2) (b : Nat) (hb : b < 3) : i.keys.any (fun k => k.1 == ⟨ks, d, b⟩) = true := by
    obtain ⟨x, held, same⟩ := whole d hd b hb
    exact List.any_eq_true.mpr ⟨x, held, by simp [same]⟩
  simp [IdeStream.keyed, -List.any_eq_true, key]

/-- Settles O57: each request by its equation, the streams by what a stream's change leaves. -/
theorem ideAndTdispCommandsComplete : Obligations.IdeAndTdispCommandsComplete := by
  intro s l k vf serves there up inside
  have served := State.inSpdm_served serves there up inside
  refine ⟨congrArg Host.Outcome.next (served ..), fun i slot key only => ?_, fun i ks only whole => ?_, fun i ks only active => ?_,
    fun c listed => ?_, fun named enabled => ?_, fun id slot mode key bad => exec_ideKmKeyProg_bad serves there up inside bad,
    fun id ks => ⟨exec_ideKmKSetGo serves there up inside id ks, exec_ideKmKSetStop serves there up inside id ks⟩,
    fun nonce absent c listed => ?_, fun named enabled => ⟨exec_lockInterfaceRequest_bad serves there up inside named enabled,
      exec_stopInterfaceRequest_bad serves there up inside named enabled, fun nonce bad => ?_,
      fun m => exec_lockInterfaceRequest_noEntropy serves there up inside named enabled⟩, fun n nonce stream slot mode key ks outside c listed => ?_⟩
  · have held : (s.link l).ide.any (fun x => x.id == i.id) = true := by simp [only]
    exact ⟨_, exec_ideKmKeyProg serves there up inside held slot key, State.modStream_effect only _ _ _ _ rfl⟩
  · obtain ⟨stream, effect⟩ := State.modStream_effect only (fun i =>
      if IdeStream.keyed i ks then { i with secure := true, active := some ks } else i) (.host l (some k)) .ideGoStopAck _ rfl
    exact ⟨_, exec_ideKmKSetGo serves there up inside i.id ks, by rw [stream, if_pos (IdeStream.keyed_of whole)], effect⟩
  · obtain ⟨stream, out, -, frame⟩ := State.modStream_effect only (fun i =>
      if i.active == some ks then { i with keys := i.keys.filter (fun x => x.1.keySet != ks), secure := false, active := none }
      else { i with keys := i.keys.filter (fun x => x.1.keySet != ks) }) (.host l (some k)) .ideGoStopAck _ rfl
    exact ⟨_, exec_ideKmKSetStop serves there up inside i.id ks, by rw [stream, if_pos (by simp [active])], out, frame⟩
  · simp only [List.mem_cons, List.not_mem_nil, or_false] at listed
    rcases listed with rfl | rfl | rfl <;> exact congrArg Host.Outcome.next (served ..)
  · have tdisp := State.tdisp_served serves there up inside named enabled
    refine ⟨congrArg Host.Outcome.next (tdisp _), congrArg Host.Outcome.next (tdisp _), congrArg Host.Outcome.next (tdisp _),
      fun m stream unlocked usable tdisp entropy => ?_, congrArg Host.Outcome.next (tdisp _), fun nonce locked opened => ⟨?_, ?_⟩,
      exec_stopInterfaceRequest serves there up inside named enabled⟩
    · exact ⟨_, s.draw.1.setWidth 256, exec_lockInterfaceRequest serves there up inside named enabled stream unlocked usable tdisp entropy,
        State.modGlove_same .., by simp [State.emit], fun j hj => State.modGlove_ne _ _ _ hj, onlyIn_iff.mpr (by simp [State.draw])⟩
    · rintro rfl
      exact exec_startInterfaceRequest serves there up inside named enabled locked opened
    · exact fun other => exec_startInterfaceRequest_bad serves there up inside named enabled (.inr (.inr other))
  · have unnamed := State.tdisp_unnamed serves there up inside absent
    simp only [List.mem_cons, List.not_mem_nil, or_false] at listed
    rcases listed with rfl | rfl | rfl | rfl | rfl | rfl | rfl <;> exact congrArg Host.Outcome.next (unnamed _)
  · exact exec_startInterfaceRequest_bad serves there up inside named enabled (bad.imp_right .inl)
  · have refused := State.inSpdm_outside serves there up outside
    simp only [List.mem_cons, List.not_mem_nil, or_false] at listed
    rcases listed with rfl | rfl | rfl | rfl | rfl | rfl | rfl | rfl | rfl | rfl | rfl | rfl | rfl | rfl <;>
      exact congrArg Host.Outcome.next (refused ..)

end Sys2Proof.Machine
end

