-- ==== Sys2Proof/Proofs/GloveKeys.lean ====
section
/-! PROOFS. The tenant's key and the Crown's randomness (R65-R73). -/

namespace Sys2Proof.Machine

/-! ### The tenant's key (R68-R73) -/

/-- A message that comes in a session names it. -/
theorem State.inSession_some {s : State} {l : Nat} {n : Option Nat} (inside : s.inSession l n = true) : ∃ k, n = some k := by
  obtain ⟨x, -, named⟩ := List.any_eq_true.mp inside
  simp only [Bool.and_eq_true, beq_iff_eq] at named
  exact ⟨x.id, named.1.symm⟩

/-- An install uses the share up, and the glove opens under the key in its own slot (R69, R70, R73). -/
def State.installs (s : State) (g : Nat) (key : Key) : State :=
  (({ s with trust.shares := s.trust.shares.del g } : State).modSlot g
    (fun _ => { key := key, valid := true, home := s.boot.cfg.pos, glove := g })).modGlove g
      (fun x => { x with state := .opened, keySource := 2, kcv := keyCheck key g })

/-- What an install leaves. -/
structure State.Installed (s : State) (g : Nat) (key : Key) (t : State) : Prop where
  shares : t.trust.shares = s.trust.shares.del g
  glove : t.glove g = { s.glove g with state := .opened, keySource := 2, kcv := keyCheck key g }
  slot : t.slot g = { key := key, valid := true, home := s.boot.cfg.pos, glove := g }
  gloves : ∀ j, j ≠ g → t.glove j = s.glove j
  slots : ∀ j, j ≠ g → t.slot j = s.slot j
  only : OnlyIn [.trust] s t

theorem State.installs_installed (s : State) (g : Nat) (key : Key) : s.Installed g key (s.installs g key) where
  shares := rfl
  glove := State.modGlove_same ..
  slot := (State.modGlove_slot ..).trans (State.modSlot_same ..)
  gloves _ hj := State.modGlove_ne _ _ _ hj
  slots _ hj := (State.modGlove_slot ..).trans (State.modSlot_ne _ _ _ hj)
  only := onlyIn_iff.mpr (by simp [State.installs])

section Request
variable {s : State} {l g : Nat} (serves : s.serves = true) (there : s.linkExists l = true) (up : (s.link l).up = true)
include serves there up

theorem State.keyRequest_outside {n : Option Nat} (outside : s.inSession l n = false) (out : Nat → Spdm) (f : Nat → Nat → State → State) :
    s.keyRequest (.host l n) g out f = s.emit (.spdm (.host l n) (out 0x0105)) :=
  (State.spdm_host there up serves ..).trans (if_pos (by simp [outside]))

theorem State.keyRequest_foreign {n : Option Nat} (inside : s.inSession l n = true) (foreign : s.linkHas l g = false) (out : Nat → Spdm)
    (f : Nat → Nat → State → State) : s.keyRequest (.host l n) g out f = s.emit (.spdm (.host l n) (out 0x0108)) :=
  (State.spdm_host there up serves ..).trans ((if_neg (by simp [inside])).trans (if_pos (by simp [foreign])))

section Own
variable {k : Nat} (inside : s.inSession l (some k) = true) (own : s.linkHas l g = true)
include inside own

theorem State.keyRequest_own (out : Nat → Spdm) (f : Nat → Nat → State → State) :
    s.keyRequest (.host l (some k)) g out f = f l k s :=
  (State.spdm_host there up serves ..).trans ((if_neg (by simp [inside])).trans (if_neg (by simp [own])))

theorem exec_gloveKeyShare_noEntropy (dry : s.noEntropy = true) :
    exec (.gloveKeyShare (.host l (some k)) g) s = .next (s.emit (.spdm (.host l (some k)) (.keyShareRsp g 0x0107 0 0 0))) :=
  congrArg Host.Outcome.next ((State.keyRequest_own serves there up inside own ..).trans (if_pos dry))

/-- A share is drawn. -/
def State.drawnShare (s : State) (l k : Nat) : Share :=
  { id := (s.draw.2.draw.2.draw.1.setWidth 32).toNat, link := l, session := k, priv := s.draw.1.setWidth 384,
    salt := s.draw.2.draw.1.setWidth 384 }

theorem exec_gloveKeyShare (entropy : s.noEntropy = false) : exec (.gloveKeyShare (.host l (some k)) g) s =
    .next (({ s.draw.2.draw.2.draw.2 with trust.shares := s.trust.shares.set g (s.drawnShare l k) } : State).emit
      (.spdm (.host l (some k)) (.keyShareRsp g 0 (s.drawnShare l k).id (s.drawnShare l k).salt
        (Config.ecdhPublic (s.drawnShare l k).priv)))) :=
  congrArg Host.Outcome.next ((State.keyRequest_own serves there up inside own ..).trans (if_neg (by simp [entropy])))

section Install
variable {point : BitVec 768} {w : Key} {tag : BitVec 128}

theorem exec_gloveKeyInstall_state {id : Nat} (bad : (s.glove g).state ≠ .keyPending ∨ (s.glove g).tdi ≠ .locked) :
    exec (.gloveKeyInstall (.host l (some k)) g id point w tag) s =
      .next (s.emit (.spdm (.host l (some k)) (.keyInstallRsp g 0x0104 0))) :=
  congrArg Host.Outcome.next ((State.keyRequest_own serves there up inside own ..).trans
    (if_pos (by rcases bad with state | tdi <;> simp [*])))

variable (pending : (s.glove g).state = .keyPending) (locked : (s.glove g).tdi = .locked)
include pending locked

theorem exec_gloveKeyInstall_noShare {id : Nat}
    (absent : ∀ e ∈ s.trust.shares, e.1 = g → e.2.id = id → e.2.link = l → some k = some e.2.session → False) :
    exec (.gloveKeyInstall (.host l (some k)) g id point w tag) s =
      .next (s.emit (.spdm (.host l (some k)) (.keyInstallRsp g 0x0109 0))) := by
  have missing : s.trust.shares.find? (fun e => e.1 == g && e.2.id == id && e.2.link == l && e.2.session == k) = none := by
    refine List.find?_eq_none.mpr fun e held found => ?_
    simp only [Bool.and_eq_true, beq_iff_eq] at found
    obtain ⟨⟨⟨glove, share⟩, link⟩, session⟩ := found
    exact absent e held glove share link (congrArg some session.symm)
  refine congrArg Host.Outcome.next ((State.keyRequest_own serves there up inside own ..).trans
    ((if_neg (by simp [pending, locked])).trans ?_))
  simp only [missing]
  rfl

/-- The key that a wrapped one opens to (R69). -/
def openKey (g : Nat) (h : Share) (point : BitVec 768) (w : Key) (tag : BitVec 128) : Option Key :=
  if Config.ecdhValid point then
    Config.gcmOpen (shareKek g h point).1 (shareKek g h point).2 (leBytes 2 g ++ leBytes 4 h.id) w tag
  else none

section Shared
variable {h : Share} (held : s.trust.shares = [(g, h)]) (link : h.link = l) (session : h.session = k)
include held link session

theorem share_found : s.trust.shares.find? (fun e => e.1 == g && e.2.id == h.id && e.2.link == l && e.2.session == k) = some (g, h) := by
  simp [held, link, session]

theorem exec_gloveKeyInstall_wrong (wrong : openKey g h point w tag = none) :
    exec (.gloveKeyInstall (.host l (some k)) g h.id point w tag) s =
      .next (({ s with trust.shares := s.trust.shares.del g } : State).emit (.spdm (.host l (some k)) (.keyInstallRsp g 0x0102 0))) := by
  refine congrArg Host.Outcome.next ((State.keyRequest_own serves there up inside own ..).trans
    ((if_neg (by simp [pending, locked])).trans ?_))
  rw [openKey] at wrong
  simp only [share_found serves there up inside own pending locked held link session, wrong]
  rfl

theorem exec_gloveKeyInstall {key : Key} (opens : openKey g h point w tag = some key) :
    exec (.gloveKeyInstall (.host l (some k)) g h.id point w tag) s =
      .next ((s.installs g key).emit (.spdm (.host l (some k)) (.keyInstallRsp g 0 (keyCheck key g)))) := by
  refine congrArg Host.Outcome.next ((State.keyRequest_own serves there up inside own ..).trans
    ((if_neg (by simp [pending, locked])).trans ?_))
  rw [openKey] at opens
  simp only [share_found serves there up inside own pending locked held link session, opens]
  rfl

end Shared
end Install
end Own
end Request

/-! ### Randomness (R66, R67) -/

section Entropy
variable {s : State}

theorem exec_drbgReseed (awake : s.awake = true) (ready : s.trust.drbgReady = true) (used : 4096 ≤ s.trust.drbgCount) :
    exec .drbgReseed s = .next { s with trust.drbgCount := 0, trust.reseeds := min 65535 (s.trust.reseeds + 1) } :=
  congrArg Host.Outcome.next (if_pos (by simp [awake, ready, used]))

theorem exec_drbgReseed_none (idle : s.trust.drbgReady = false ∨ s.trust.drbgCount < 4096) : exec .drbgReseed s = .next s :=
  congrArg Host.Outcome.next (if_neg (by rcases idle with off | few <;> simp [*]))

theorem exec_entropyHealthFail (serves : s.serves = true) : exec .entropyHealthFail s =
    .next (({ s with
      trust.entropyFailed := true
      trust.drbgReady := false
      trust.healthFails := min 65535 (s.trust.healthFails + 1) } : State).contained 10 0x0107 crownUnit 0 none) :=
  congrArg Host.Outcome.next (if_neg (by simp [serves]))

theorem exec_entropyRetry (serves : s.serves = true) (failed : s.trust.entropyFailed = true) :
    exec .entropyRetry s = .next { s with
      trust.entropyFailed := false, trust.drbgReady := true, trust.drbgCount := 0, trust.reseeds := min 65535 (s.trust.reseeds + 1) } :=
  congrArg Host.Outcome.next (if_pos (by simp [serves, failed]))

theorem exec_entropyRetry_none (idle : s.serves = false ∨ s.trust.entropyFailed = false) : exec .entropyRetry s = .next s :=
  congrArg Host.Outcome.next (if_neg (by rcases idle with off | well <;> simp [*]))

end Entropy

/-- Settles O58: a key request by its check, then the share or the install by its equation. -/
theorem gloveKeyAndEntropyCommandsComplete : Obligations.GloveKeyAndEntropyCommandsComplete := by
  refine ⟨fun s l k g serves there up inside own => ⟨fun entropy => ?_, ?_, fun id point w tag other => ?_,
      fun h point w tag pending locked held link session => ?_⟩,
    fun s => ⟨fun g => rfl, exec_drbgReseed, fun serves => ?_, exec_entropyRetry⟩,
    fun s l g n id point w tag serves there up => ⟨fun outside => ⟨?_, ?_⟩, fun inside foreign => ⟨?_, ?_⟩, fun inside own => ⟨?_, ?_⟩⟩,
    fun s => ⟨exec_drbgReseed_none, fun off => ⟨congrArg Host.Outcome.next (if_pos (by simp [off])), exec_entropyRetry_none (.inl off)⟩,
      fun well => exec_entropyRetry_none (.inr well)⟩⟩
  · exact ⟨_, s.drawnShare l k, exec_gloveKeyShare serves there up inside own entropy, rfl, rfl, rfl, rfl, fun _ => rfl,
      onlyIn_iff.mpr (by simp [State.draw])⟩
  · exact exec_gloveKeyShare_noEntropy serves there up inside own
  · exact exec_gloveKeyInstall_state serves there up inside own (.inl other)
  · have emptied : s.trust.shares.del g = [] := by simp [held, Tbl.del]
    cases opens : openKey g h point w tag with
    | none =>
      have shut := opens
      rw [openKey] at shut
      rw [shut]
      exact ⟨_, exec_gloveKeyInstall_wrong serves there up inside own pending locked held link session opens, emptied,
        ⟨rfl, rfl, rfl⟩, fun _ _ => rfl, fun _ _ => rfl, onlyIn_iff.mpr (by simp)⟩
    | some key =>
      have unwrapped := opens
      rw [openKey] at unwrapped
      rw [unwrapped]
      have left := s.installs_installed g key
      exact ⟨_, exec_gloveKeyInstall serves there up inside own pending locked held link session opens, left.shares.trans emptied,
        ⟨left.glove, left.slot, rfl⟩, left.gloves, left.slots, OnlyIn.comp (left.only.mono (by simp)) (onlyIn_iff.mpr (by simp))⟩
  · exact ⟨_, exec_entropyHealthFail serves, by simp, rfl, onlyIn_iff.mpr (by simp)⟩
  · exact congrArg Host.Outcome.next (State.keyRequest_outside serves there up outside ..)
  · exact congrArg Host.Outcome.next (State.keyRequest_outside serves there up outside ..)
  · exact congrArg Host.Outcome.next (State.keyRequest_foreign serves there up inside foreign ..)
  · exact congrArg Host.Outcome.next (State.keyRequest_foreign serves there up inside foreign ..)
  · obtain ⟨k, rfl⟩ := State.inSession_some inside
    exact fun _ unlocked => exec_gloveKeyInstall_state serves there up inside own (.inr unlocked)
  · obtain ⟨k, rfl⟩ := State.inSession_some inside
    exact fun pending locked absent => exec_gloveKeyInstall_noShare serves there up inside own pending locked absent

end Sys2Proof.Machine
end

