-- ==== Sys2Proof/Proofs/KnotReport.lean ====
section
/-! PROOFS. A knot's report at the collector's own knot (R270, R513). -/

namespace Sys2Proof.Machine

/-! ### A report at the collector's own knot

A knot's report enters the Weave at the fault collector's knot (log entry 36), on VC 8 of its local input. A header that cannot be used,
met by an E packet from that very input, thus leaves its pair in the buffer with the report's own behind it (R270). -/

/-- An event packet of the collector's knot, bound for the north. -/
def eventPair : FlitPair := { pkt := 3, head := true, tail := true, next := 0, dest := 114, unit := collectorUnit, seq := 0 }

/-- A device in service with the pair in the local input of the collector's knot. -/
def eventLeaving : State :=
  { sys := { devRst := false, mode := .service }
    net := { knotIn := [(inKey (unitKnot collectorUnit) 4 8, { pairs := [eventPair] })] } }

theorem eventLeaving_report {t : State} (runs : exec (.knotOutputGrant (unitKnot collectorUnit) 0 { control := true }) eventLeaving = .next t) :
    (t.knotQ (unitKnot collectorUnit) 4 8).pairs.length = 2 := by
  rw [← Host.Outcome.next.inj runs]
  decide +kernel

/-- Refutes O59: the report of a header error puts its own pair into the local input of the collector's knot, and the clause says that the
input it came from keeps the same pairs. -/
theorem not_knotCommandsComplete : ¬ Obligations.KnotCommandsComplete := by
  unfold Obligations.KnotCommandsComplete
  intro complete
  obtain ⟨granted, -⟩ := complete eventLeaving (unitKnot collectorUnit) 0 8 (by decide)
  obtain ⟨-, t, runs, -, same, -⟩ := granted 4 eventPair 66 (by decide) (by decide) (by decide +kernel) (by decide +kernel)
  have two := eventLeaving_report runs
  rw [same] at two
  exact absurd two (by decide)

end Sys2Proof.Machine
end

