-- ==== Sys2Proof/Proofs/PaceAndHold.lean ====
section
/-! PROOFS. Pace points, monitors, windows and thermal hold (R275, R276, R282, R588-R597). -/

namespace Sys2Proof.Machine

/-! ### The pace sequencer's own changes (R588-R597) -/

section Sequencer
variable {s : State}

theorem State.modPace_modPace (m k : Pace → Pace) : (s.modPace m).modPace k = s.modPace (fun p => k (m p)) := rfl

theorem State.stepHigh_pace : s.stepHigh.pwr.pace = { s.pwr.pace with high := s.stepHigh.pwr.pace.high } := rfl

theorem State.stepHigh_doms : s.stepHigh.pwr.doms = s.pwr.doms := rfl

theorem State.stepHigh_onlyIn : OnlyIn [.pwr] s s.stepHigh := onlyIn_iff.mpr (by simp [State.stepHigh, State.modPace])

/-- What the choice of a point leaves. -/
structure State.Chooses (s t : State) : Prop where
  point : t.pwr.pace.point = s.pwr.pace.point
  moves : t.pwr.pace.moves = s.pwr.pace.moves
  hold : t.pwr.pace.hold = s.pwr.pace.hold
  doms : t.pwr.doms = s.pwr.doms
  only : OnlyIn [.pwr, .out] s t

theorem State.startMove_chooses (t : Nat) : s.Chooses (s.startMove t) := by
  unfold State.startMove
  extract_lets low s1
  split
  · exact ⟨rfl, rfl, rfl, rfl, onlyIn_iff.mpr (by simp [s1, State.modPace])⟩
  · exact ⟨rfl, rfl, rfl, rfl, onlyIn_iff.mpr (by simp [s1, State.avsWrite, State.modPace])⟩

theorem State.choosePoint_chooses (t : Nat) : s.Chooses (s.choosePoint t) := by
  have noted (m : Pace → Pace) (point : (m s.pwr.pace).point = s.pwr.pace.point) (moves : (m s.pwr.pace).moves = s.pwr.pace.moves)
      (hold : (m s.pwr.pace).hold = s.pwr.pace.hold) : s.Chooses (s.modPace m) :=
    ⟨point, moves, hold, rfl, onlyIn_iff.mpr (by simp [State.modPace])⟩
  unfold State.choosePoint
  extract_lets p
  split
  · exact ⟨rfl, rfl, rfl, rfl, .refl _ s⟩
  · split
    · split
      · exact noted _ rfl rfl rfl
      · exact noted _ rfl rfl rfl
    · split
      · exact ⟨rfl, rfl, rfl, rfl, .refl _ s⟩
      · exact State.startMove_chooses t

/-- An idle sequencer starts the move to another point. -/
theorem State.choosePoint_starts {t : Nat} (works : s.pwr.pace.avsFailed = false) (idle : s.pwr.pace.moving = false)
    (other : t ≠ s.pwr.pace.point) : (s.choosePoint t).pwr.pace.moving = true ∧ (s.choosePoint t).pwr.pace.target = t := by
  rw [State.choosePoint, if_neg (by simp [works]), if_neg (by simp [idle]), if_neg (by simp [other])]
  unfold State.startMove
  extract_lets low s1
  split <;> exact ⟨rfl, rfl⟩

/-- The present point starts nothing. -/
theorem State.choosePoint_same (idle : s.pwr.pace.moving = false) : s.choosePoint s.pwr.pace.point = s := by
  rw [State.choosePoint]
  split
  · rfl
  · rw [if_neg (by simp [idle]), if_pos (by simp)]

end Sequencer

/-! ### Reports of the islands and of the AVSBus (R588, R590, R596, R597) -/

section Reports
variable {s : State} (awake : s.awake = true)

theorem exec_islandsLowReported_none (idle : s.pwr.pace.moving = false ∨ s.pwr.pace.point ≤ s.pwr.pace.target ∨ s.pwr.pace.written = true) :
    exec .islandsLowReported s = .next s :=
  congrArg Host.Outcome.next (if_pos (by rcases idle with still | high | done <;> simp [*]))

theorem exec_avsTransactionDone_none (r : AvsResult) (idle : s.pwr.pace.moving = false ∨ s.pwr.pace.avsFailed = true) :
    exec (.avsTransactionDone r) s = .next s :=
  congrArg Host.Outcome.next (if_pos (by rcases idle with still | failed <;> simp [*]))

theorem exec_voltageGood_none (idle : s.pwr.pace.moving = false ∨ s.pwr.pace.readOk = false) : exec .voltageGood s = .next s :=
  congrArg Host.Outcome.next (if_pos (by rcases idle with still | unread <;> simp [*]))

theorem exec_avsRetryTick_none (r : AvsResult) (works : s.pwr.pace.avsFailed = false) : exec (.avsRetryTick r) s = .next s :=
  congrArg Host.Outcome.next (if_pos (by simp [works]))

include awake

theorem exec_islandsLowReported (moving : s.pwr.pace.moving = true) (lower : s.pwr.pace.target < s.pwr.pace.point)
    (unwritten : s.pwr.pace.written = false) :
    exec .islandsLowReported s = .next ((s.modPace (fun p => { p with high := 0 })).avsWrite (paceMv s.pwr.pace.target)) :=
  congrArg Host.Outcome.next (if_neg (by simp [awake, moving, unwritten, lower]))

section Transaction
variable (moving : s.pwr.pace.moving = true) (works : s.pwr.pace.avsFailed = false)
include moving works

theorem exec_avsWriteOk (unwritten : s.pwr.pace.written = false) : exec (.avsTransactionDone .writeOk) s =
    .next ((s.modPace (fun p => { p with written := true, attempts := 0 })).emit (.avsRead s.boot.cfg.rail)) :=
  congrArg Host.Outcome.next ((if_neg (by simp [awake, moving, works])).trans (if_neg (by simp [unwritten])))

section Read
variable (written : s.pwr.pace.written = true) (unread : s.pwr.pace.readOk = false) {mv : Nat}
include written unread

theorem exec_avsReadOk (above : mv ≤ s.pwr.pace.targetMv + 10) (below : s.pwr.pace.targetMv ≤ mv + 10) :
    exec (.avsTransactionDone (.readOk mv)) s = .next (s.modPace (fun p => { p with vdd := mv, attempts := 0, readOk := true })) :=
  congrArg Host.Outcome.next ((if_neg (by simp [awake, moving, works])).trans ((if_neg (by simp [written, unread])).trans
    (if_pos ⟨above, below⟩)))

theorem exec_avsReadOk_off (off : s.pwr.pace.targetMv + 10 < mv ∨ mv + 10 < s.pwr.pace.targetMv) :
    exec (.avsTransactionDone (.readOk mv)) s =
      .next ((s.modPace (fun p => { p with vdd := mv, attempts := 0 })).emit (.avsRead s.boot.cfg.rail)) :=
  congrArg Host.Outcome.next ((if_neg (by simp [awake, moving, works])).trans ((if_neg (by simp [written, unread])).trans
    (if_neg (by omega))))

end Read

theorem exec_avsFailed (few : s.pwr.pace.attempts < 3) : exec (.avsTransactionDone .failed) s =
    .next ((s.modPace (fun p => { p with attempts := p.attempts + 1 })).emit
      (if s.pwr.pace.written then .avsRead s.boot.cfg.rail else .avsWrite s.boot.cfg.rail s.pwr.pace.targetMv)) := by
  refine congrArg Host.Outcome.next ((if_neg (by simp [awake, moving, works])).trans ((if_neg (Nat.not_le.mpr few)).trans ?_))
  split <;> rfl

theorem exec_avsFailed_stops (many : 3 ≤ s.pwr.pace.attempts) : exec (.avsTransactionDone .failed) s = .next s.avsFail :=
  congrArg Host.Outcome.next ((if_neg (by simp [awake, moving, works])).trans (if_pos many))

end Transaction

/-- A move that has ended. -/
def State.moved (s : State) : State :=
  s.modPace (fun p =>
    { p with point := p.target, moving := false, readOk := false, written := false, moves := satAdd 65535 p.moves 1, next := none })

theorem exec_voltageGood (moving : s.pwr.pace.moving = true) (read : s.pwr.pace.readOk = true) :
    ∃ t, exec .voltageGood s = .next t ∧ t.pwr.pace.point = s.pwr.pace.target ∧
      t.pwr.pace.moves = min 65535 (s.pwr.pace.moves + 1) ∧ t.pwr.doms = s.pwr.doms ∧ OnlyIn [.pwr, .out] s t := by
  let u : State := if s.pwr.pace.target == 0 then s.moved else s.moved.stepHigh
  have ended : s.moved.Chooses u := by
    unfold u
    split
    · exact ⟨rfl, rfl, rfl, rfl, .refl _ _⟩
    · exact ⟨rfl, rfl, rfl, rfl, State.stepHigh_onlyIn.mono (by simp)⟩
  have moved : OnlyIn [.pwr, .out] s s.moved := onlyIn_iff.mpr (by simp [State.moved, State.modPace])
  have runs (t : State) (made : (match s.pwr.pace.next with | some p => u.choosePoint p | none => u) = t) :
      exec .voltageGood s = .next t := congrArg Host.Outcome.next ((if_neg (by simp [awake, moving, read])).trans made)
  cases next : s.pwr.pace.next with
  | none => exact ⟨u, runs u (by rw [next]), ended.point, ended.moves, ended.doms, OnlyIn.comp moved ended.only⟩
  | some p =>
    have chosen := u.choosePoint_chooses (t := p)
    exact ⟨u.choosePoint p, runs _ (by rw [next]), chosen.point.trans ended.point, chosen.moves.trans ended.moves,
      chosen.doms.trans ended.doms, OnlyIn.comp (OnlyIn.comp moved ended.only) chosen.only⟩

section Retry
variable (failed : s.pwr.pace.avsFailed = true)
include failed

theorem exec_avsRetryTick_again {r : AvsResult} (unread : ∀ mv, r ≠ .readOk mv) :
    exec (.avsRetryTick r) s = .next (s.emit (.avsRead s.boot.cfg.rail)) := by
  refine congrArg Host.Outcome.next ((if_neg (by simp [awake, failed])).trans ?_)
  cases r with
  | readOk mv => exact absurd rfl (unread mv)
  | writeOk => rfl
  | failed => rfl

/-- The sequencer at the point whose voltage is nearest. -/
def State.restarted (s : State) (mv : Nat) : State :=
  (s.emit (.avsRead s.boot.cfg.rail)).modPace (fun p =>
    { p with avsFailed := false, vdd := mv, point := nearestPoint mv, target := nearestPoint mv, next := none, readOk := false,
             written := false })

theorem exec_avsRetryTick_read (mv : Nat) : exec (.avsRetryTick (.readOk mv)) s =
    .next (if nearestPoint mv == 0 then s.restarted mv else (s.restarted mv).stepHigh) :=
  congrArg Host.Outcome.next (if_neg (by simp [awake, failed]))

end Retry
end Reports

/-! ### Monitors and sample windows (R275, R276, R282, R593) -/

section Windows
variable {s : State}

/-- A quadrant with its slowest reading counted. -/
def Quad.sampled (low : Bool) (cur : Nat) (x : Quad) : Quad :=
  { x with cur := cur, min := if x.seen then Nat.min x.min cur else cur, seen := true, sum := x.sum + cur, samples := x.samples + 1,
           alarm := x.alarm || low, rose := x.rose || (low && !x.alarm) }

/-- The alarm's report goes out where it rises. -/
theorem exec_paceMonitorSample (awake : s.awake = true) (q r : Nat) (rs : List Nat) :
    ∃ t, exec (.paceMonitorSample q (r :: rs)) s = .next t ∧
      t.quad q = (s.quad q).sampled (decide (rs.foldl min r < s.boot.cfg.lowThresh)) (rs.foldl min r) ∧
      (∀ j, j ≠ q → t.quad j = s.quad j) ∧ OnlyIn [.net] s t := by
  let u := s.modQuad q (Quad.sampled (decide (rs.foldl min r < s.boot.cfg.lowThresh)) (rs.foldl min r))
  let fault : FaultReport := { (mkFault 13 .correctedMemory 0x0712 crownUnit q none) with quad := q }
  have only : OnlyIn [.net] s u := onlyIn_iff.mpr (by simp [u])
  refine ⟨if decide (rs.foldl min r < s.boot.cfg.lowThresh) && !(s.quad q).alarm then u.report fault else u,
    congrArg Host.Outcome.next (if_neg (by simp [awake])), ?_, fun j hj => ?_, OnlyIn.ite (OnlyIn.comp only (State.report_onlyIn ..)) only⟩
  · split
    · exact (State.report_quad ..).trans (State.modQuad_same ..)
    · exact State.modQuad_same ..
  · split
    · exact (State.report_quad ..).trans (State.modQuad_ne _ _ _ hj)
    · exact State.modQuad_ne _ _ _ hj

theorem exec_wvePaceAlarmClear (serves : s.serves = true) (q : Nat) :
    exec (.wvePaceAlarmClear q) s = .next (s.modQuad q (fun x => { x with alarm := false, min := x.cur })) :=
  congrArg Host.Outcome.next (if_pos serves)

/-- The counts of a window are latched and cleared, and the averages updated. -/
def State.windowEnded (s : State) (lows : Nat) : State :=
  ({ s with
    net.knotOut := s.net.knotOut.map (fun e => (e.1, { e.2 with winHs := e.2.hs, winWaits := e.2.waits, hs := 0, waits := 0 }))
    net.quads := s.net.quads.map (fun e => (e.1,
      { e.2 with avg := if e.2.samples == 0 then e.2.avg else e.2.sum / e.2.samples, sum := 0, samples := 0, rose := false })) }
    : State).modPace (fun p => { p with lowWindows := lows })

theorem State.windowEnded_onlyIn (lows : Nat) : OnlyIn [.net, .pwr] s (s.windowEnded lows) :=
  onlyIn_iff.mpr (by simp [State.windowEnded, State.modPace])

theorem State.windowEnded_counts (lows : Nat) : ∀ e ∈ (s.windowEnded lows).net.knotOut, e.2.hs = 0 ∧ e.2.waits = 0 := by
  intro e listed
  obtain ⟨x, -, rfl⟩ := List.mem_map.mp listed
  exact ⟨rfl, rfl⟩

section End
variable (serves : s.serves = true)
include serves

/-- Under hold the lowest point is chosen. -/
theorem exec_sampleWindowEnd_hold (hold : s.pwr.pace.hold = true) :
    ∃ lows, exec .sampleWindowEnd s = .next ((s.windowEnded lows).choosePoint s.boot.cfg.paceMin) :=
  ⟨_, congrArg Host.Outcome.next ((if_neg (by simp [serves])).trans (congrArg (State.choosePoint (State.windowEnded s _)) (if_pos hold)))⟩

/-- On an alarm the next point up is chosen. -/
theorem exec_sampleWindowEnd_alarm (free : s.pwr.pace.hold = false) (alarm : ∃ q < 4, (s.quad q).rose = true)
    (below : s.pwr.pace.point < s.boot.cfg.paceMax) :
    ∃ lows, exec .sampleWindowEnd s = .next ((s.windowEnded lows).choosePoint (s.pwr.pace.point + 1)) := by
  obtain ⟨q, inside, rose⟩ := alarm
  have alarmed : (List.range 4).any (fun q => (s.quad q).rose) = true := List.any_eq_true.mpr ⟨q, List.mem_range.mpr inside, rose⟩
  refine ⟨_, congrArg Host.Outcome.next ((if_neg (by simp [serves])).trans (congrArg (State.choosePoint (State.windowEnded s _))
    ((if_neg (ne_true_of_eq_false free)).trans (if_pos ?_))))⟩
  rw [alarmed]
  exact decide_eq_true below

/-- A first quiet window is counted. -/
theorem exec_sampleWindowEnd_quiet (free : s.pwr.pace.hold = false) (calm : ∀ q < 4, (s.quad q).rose = false) (none' : s.net.knotOut = [])
    (limit : 0 < s.boot.cfg.downUtil) (first : s.pwr.pace.lowWindows = 0) (idle : s.pwr.pace.moving = false) :
    exec .sampleWindowEnd s = .next (s.windowEnded 1) := by
  have alarmed : (List.range 4).any (fun q => (s.quad q).rose) = false :=
    List.any_eq_false.mpr fun q inside => ne_true_of_eq_false (calm q (List.mem_range.mp inside))
  have same : (s.windowEnded 1).choosePoint s.pwr.pace.point = s.windowEnded 1 := State.choosePoint_same (s := s.windowEnded 1) idle
  have runs : execSampleWindowEnd s = .next ((s.windowEnded 1).choosePoint s.pwr.pace.point) := by
    simp only [execSampleWindowEnd, serves, alarmed, none', List.map_nil, List.any_nil, List.all_nil, limit, first]
    simp [free, State.windowEnded, State.modPace, none']
  exact runs.trans (congrArg _ same)

end End

/-! ### Thermal hold (R594) -/

theorem exec_tWarnReached_none {q temp : Nat} (below : atLeast s.boot.cfg.tWarn temp = false ∨ s.serves = false) :
    exec (.tWarnReached q temp) s = .next s :=
  congrArg Host.Outcome.next (if_pos (by rcases below with cool | off <;> simp [*]))

theorem exec_tWarnReached_held (serves : s.serves = true) {q temp : Nat} (warm : atLeast s.boot.cfg.tWarn temp = true)
    (hold : s.pwr.pace.hold = true) :
    exec (.tWarnReached q temp) s = .next (s.modQuad q (fun x => { x with temp := temp })) :=
  congrArg Host.Outcome.next ((if_neg (by simp [serves, warm])).trans (if_pos hold))

theorem exec_tWarnReached (serves : s.serves = true) {q temp : Nat} (warm : atLeast s.boot.cfg.tWarn temp = true)
    (free : s.pwr.pace.hold = false) : ∃ fault : FaultReport, exec (.tWarnReached q temp) s =
      .next ((((s.modQuad q (fun x => { x with temp := temp })).modPace (fun p => { p with hold := true })).report fault).choosePoint
        s.boot.cfg.paceMin) := by
  refine ⟨{ mkFault 14 .correctedMemory 0x0711 crownUnit q none with quad := q },
    congrArg Host.Outcome.next ((if_neg (by simp [serves, warm])).trans (if_neg (ne_true_of_eq_false free)))⟩

theorem exec_thermalHoldEnd_none {ts : List Nat}
    (stays : s.pwr.pace.hold = false ∨ ts.length ≠ 4 ∨ ∃ x ∈ ts, atLeast (s.boot.cfg.tWarn - 5) x = true) :
    exec (.thermalHoldEnd ts) s = .next s := by
  refine congrArg Host.Outcome.next (if_pos ?_)
  rcases stays with free | few | warm
  · simp [free]
  · simp [few]
  · simp [-List.any_eq_true, List.any_eq_true.mpr warm]

theorem exec_thermalHoldEnd (awake : s.awake = true) (hold : s.pwr.pace.hold = true) {t0 t1 t2 t3 : Nat}
    (cool : ∀ x ∈ [t0, t1, t2, t3], atLeast (s.boot.cfg.tWarn - 5) x = false) : exec (.thermalHoldEnd [t0, t1, t2, t3]) s =
      .next (((((s.modPace (fun p => { p with hold := false })).modQuad 0 (fun x => { x with temp := t0 })).modQuad 1
        (fun x => { x with temp := t1 })).modQuad 2 (fun x => { x with temp := t2 })).modQuad 3 (fun x => { x with temp := t3 })) := by
  have below : [t0, t1, t2, t3].any (atLeast (s.boot.cfg.tWarn - 5)) = false :=
    List.any_eq_false.mpr fun x listed => ne_true_of_eq_false (cool x listed)
  exact congrArg Host.Outcome.next (if_neg (by rw [below]; simp [awake, hold]))

end Windows

/-- Settles O60: each report by its equation, the choice of a point by what it leaves. -/
theorem paceAndThermalCommandsComplete : Obligations.PaceAndThermalCommandsComplete := by
  refine ⟨fun s awake => ⟨fun moving lower unwritten => ?_, exec_avsWriteOk awake,
      fun mv moving works written unread above below => exec_avsReadOk awake moving works written unread above below,
      fun mv moving works written unread off => exec_avsReadOk_off awake moving works written unread off,
      exec_avsFailed awake, fun moving works many => ?_, exec_voltageGood awake, fun mv failed => ?_,
      fun failed => exec_avsRetryTick_again awake failed nofun, exec_islandsLowReported_none, exec_avsTransactionDone_none,
      exec_voltageGood_none, exec_avsRetryTick_none, fun failed => exec_avsRetryTick_again awake failed nofun⟩,
    fun s q r rs awake => ?_, fun s q serves => ?_, fun s serves works idle hold above => ?_,
    fun s serves works idle free alarm below => ?_, fun s q temp serves warm _ small free => ?_,
    fun s t0 t1 t2 t3 awake hold small cool => ?_, fun s serves free calm empty limit first works idle => ?_,
    fun s q temp ts => ⟨exec_tWarnReached_none, exec_thermalHoldEnd_none,
      fun off => ⟨congrArg Host.Outcome.next (if_pos (by simp [off])), congrArg Host.Outcome.next (if_neg (by simp [off]))⟩⟩,
    fun s q temp serves warm hold => ?_⟩
  · rw [exec_islandsLowReported awake moving lower unwritten]
    simp [State.avsWrite, State.modPace, State.emit, paceMv]
  · exact ⟨_, exec_avsFailed_stops awake moving works many, by simp [State.avsFail, State.modPace], by simp [State.avsFail, State.modPace],
      by simp [State.avsFail, State.modPace], onlyIn_iff.mpr (by simp [State.avsFail, State.modPace])⟩
  · have restarted : OnlyIn [.pwr, .out] s (s.restarted mv) := onlyIn_iff.mpr (by simp [State.restarted, State.modPace])
    refine ⟨_, exec_avsRetryTick_read awake failed mv, ?_⟩
    split
    · exact ⟨rfl, rfl, rfl, rfl, restarted⟩
    · exact ⟨rfl, rfl, rfl, rfl, OnlyIn.comp restarted (State.stepHigh_onlyIn.mono (by simp))⟩
  · obtain ⟨t, runs, sampled, others, only⟩ := exec_paceMonitorSample awake q r rs
    exact ⟨t, runs, by rw [sampled]; rfl, by rw [sampled]; rfl, others, only⟩
  · exact ⟨_, exec_wvePaceAlarmClear serves q, State.modQuad_same .., fun j hj => State.modQuad_ne _ _ _ hj, onlyIn_iff.mpr (by simp)⟩
  · obtain ⟨lows, runs⟩ := exec_sampleWindowEnd_hold serves hold
    have chosen := (s.windowEnded lows).choosePoint_chooses (t := s.boot.cfg.paceMin)
    have starts := State.choosePoint_starts (s := s.windowEnded lows) works idle (Nat.ne_of_lt above)
    have net : ((s.windowEnded lows).choosePoint s.boot.cfg.paceMin).net = (s.windowEnded lows).net := chosen.only.agree .net (by decide)
    exact ⟨_, runs, starts.1, starts.2, by rw [net]; exact State.windowEnded_counts lows,
      OnlyIn.comp ((State.windowEnded_onlyIn lows).mono (by simp)) (chosen.only.mono (by simp))⟩
  · obtain ⟨lows, runs⟩ := exec_sampleWindowEnd_alarm serves free alarm below
    exact ⟨_, runs, State.choosePoint_starts (s := s.windowEnded lows) works idle (Nat.succ_ne_self _)⟩
  · obtain ⟨fault, runs⟩ := exec_tWarnReached serves (q := q) (temp := temp) (by simp [atLeast, warm, small]) free
    generalize noted : (((s.modQuad q (fun x => { x with temp := temp })).modPace (fun p => { p with hold := true })).report fault) = u at runs
    have only : OnlyIn [.net, .pwr, .out] s u := by
      rw [← noted]
      exact onlyIn_iff.mpr (by simp [State.modPace])
    have held : u.pwr.pace.hold = true ∧ u.pwr.doms = s.pwr.doms ∧ (u.quad q).temp = temp := by
      rw [← noted]
      exact ⟨by simp [State.modPace], by simp [State.modPace], by
        rw [State.report_quad]
        exact congrArg Quad.temp (s.modQuad_same q (fun x => { x with temp := temp }))⟩
    have chosen := u.choosePoint_chooses (t := s.boot.cfg.paceMin)
    have net : (u.choosePoint s.boot.cfg.paceMin).net = u.net := chosen.only.agree .net (by decide)
    exact ⟨_, runs, chosen.hold.trans held.1, by rw [State.quad, net]; exact held.2.2, chosen.doms.trans held.2.1,
      OnlyIn.comp only (chosen.only.mono (by simp))⟩
  · have below (x : Nat) (listed : x ∈ [t0, t1, t2, t3]) : atLeast (s.boot.cfg.tWarn - 5) x = false := by
      have low := cool x listed
      simp only [atLeast, Bool.and_eq_false_iff, decide_eq_false_iff_not]
      omega
    refine ⟨_, exec_thermalHoldEnd awake hold below, by simp [State.modPace], by simp [State.modPace], ?_, ?_,
      onlyIn_iff.mpr (by simp [State.modPace])⟩
    · rw [State.modQuad_ne _ _ _ (by decide), State.modQuad_ne _ _ _ (by decide), State.modQuad_ne _ _ _ (by decide), State.modQuad_same]
    · rw [State.modQuad_same]
  · exact ⟨_, exec_sampleWindowEnd_quiet serves free calm empty limit first idle, rfl, State.windowEnded_onlyIn 1⟩
  · exact ⟨_, exec_tWarnReached_held serves warm hold, by rw [State.modQuad_same], by simp, onlyIn_iff.mpr (by simp)⟩

end Sys2Proof.Machine
end
